-- ==== Sys2Proof/Word.lean ====
section
/-!
DEFINITION. The plain data types of the YU-6416 model: bytes, lines, codewords, queue items and flits.
-/

namespace Sys2Proof

/-- One byte. -/
abbrev Byte := BitVec 8

/-- A string of bytes, lowest address first. -/
abbrev Bytes := List (BitVec 8)

/-- One 64-byte line (a granule): byte k is bits [8k+7:8k]. -/
abbrev Line := BitVec 512

/-- One 80-symbol memory codeword (R272): symbol k is bits [8k+7:8k]. -/
abbrev CodeWord := BitVec 640

/-- A sparse map: keys strictly rising, at most one entry a key. -/
abbrev SMap (α : Type) := List (Nat × α)

end Sys2Proof
end

