-- ==== Sys2Proof/Syntax.lean ====
section
/-!
DEFINITION. The commands of the block (the rows of the opcode table) and the types of their operands. A command
carries what the outside, or an earlier action of the block, supplies: an address, a value, the content of a message
or of an item, a measured quantity.
-/

namespace Sys2Proof

/-- Who issues a register access, a mailbox command or an SPDM request (R385, Table 17-12): the CXL.io function of an
LD, the control complex, the debug port, or the MCTP endpoint. -/
inductive Initiator where
  | ld (l : Fin 64)
  | cc
  | dbg
  | mctp
deriving DecidableEq, Repr

/-- A command of the Tally bus (Table 2-4) without its opcode: the slot addressed, broadcast, the argument, the parity
bit received, and whether the frame that carries it was valid (R42). -/
structure TallyCmd where
  target : BitVec 4
  bcast  : Bool
  arg    : BitVec 48
  parity : Bool
  frame  : Bool
deriving DecidableEq, Repr

/-- A frame of the Tally bus as it is sampled (R36, Table 2-2): the level of TALLY_FRM in cycles 0 to 249 (cycle n in bit
n), that of TALLY_Q in cycles 0 to 191, the cycles from this mark to the next, and the hottest die sensor in °C while the
frame is answered. -/
structure TallyFrame where
  frm    : BitVec 250
  q      : BitVec 192
  cycles : BitVec 16
  temp   : BitVec 8
deriving DecidableEq, Repr

/-- Why TALLY_ACQUIRE happens (Table 2-6). -/
inductive AcquireCause where
  | goodCycles
  | framingError
deriving DecidableEq, Repr

/-- An SRAM row or word: the number of its structure, and its row or index (R398, R408). -/
structure BadRow where
  structure_ : BitVec 32
  row        : BitVec 32
deriving DecidableEq, Repr

/-- Where an SRAM word lies (Table 18-5): a home's directory, proxy filter, TT or conflict queue; a line of the map cache;
a line of a gallery's cache (member slot and DLA line); a Catwalk link's replay buffer; the item of a queue; a core's SRAM
word; a master's Turnstile state; a counter; or any other structure. -/
inductive SramSite where
  | home (h : Fin 16)
  | mapLine (twin : Bool) (m : BitVec 34)
  | galLine (g : Fin 16) (slot : BitVec 4) (line : BitVec 40)
  | replay (link : Fin 8)
  | queue (q : Fin 1024)
  | core
  | master (m : Fin 96)
  | counter (u : Fin 64) (k : Fin 8)
  | other
deriving DecidableEq, Repr

/-- The fields of a coherence message (Tables 7-2, 8-5): LINE is DLA[45:6] at the member `slot` that holds the line's
home. A field that a message does not have is zero. -/
structure CohMsg where
  src     : BitVec 7 := 0
  line    : BitVec 40 := 0
  slot    : BitVec 4 := 0
  htag    : BitVec 8 := 0
  rtag    : BitVec 8 := 0
  noalloc : Bool := false
  noown   : Bool := false
  rcall   : Bool := false
  lock    : Bool := false
  fwd     : Bool := false
  grant   : Bool := false
  poison  : Bool := false
  write   : Bool := false
  reqid   : BitVec 7 := 0
  mask    : BitVec 64 := 0
  data    : BitVec 512 := 0
deriving DecidableEq, Repr

/-- A Catwalk packet (R215): its header unit, bytes 0 to 7 and 8 to 15 (`pad`) of its mask unit (if MASKX), and the line bytes
of its data group. -/
structure CwkPacket where
  hdr  : BitVec 128
  mask : BitVec 64 := 0
  data : BitVec 512 := 0
  pad  : BitVec 64 := 0
deriving DecidableEq, Repr

/-- A retrain target (Table 9-5): width 0 x4, 1 x8, 2 x16; SPEED code; a fault retrain; the failed lane. -/
structure CwkTarget where
  width : BitVec 2
  rate  : BitVec 3
  fault : Bool
  lane  : Option (BitVec 4)
deriving DecidableEq, Repr

/-- Who works on a queue (R290): a host through the queue's port page, or an on-chip endpoint. -/
inductive QPort where
  | host (who : Initiator)
  | chip (ep : Fin 41)
deriving DecidableEq, Repr

/-- SnpType of an M2S request (Table 3-2). -/
inductive SnpType where
  | noOp
  | cur
  | data
  | inv
deriving DecidableEq, Repr

/-- MetaValue of an M2S request (Table 3-2): I, A and S. -/
inductive MetaVal where
  | invalid
  | any
  | shared
deriving DecidableEq, Repr

/-- A host's answer to a BISnp (Table 3-3): BIRspE, BIRspS and BIRspI. -/
inductive BiAns where
  | e
  | s
  | i
deriving DecidableEq, Repr

/-- The M2S opcodes that become internal requests (Table 3-2). -/
inductive M2SOp where
  | memRd
  | memRdData
  | memInv
  | memWr
  | memWrPtl
  | memClnEvct
deriving DecidableEq, Repr

/-- An M2S request: its LD, the host's tag, the host physical address, and what its opcode carries. -/
structure M2S where
  ld     : Fin 64
  op     : M2SOp
  tag    : BitVec 16
  hpa    : BitVec 64
  snp    : SnpType := .noOp
  mv     : MetaVal := .invalid
  data   : BitVec 512 := 0
  mask   : BitVec 64 := 0
  poison : Bool := false
deriving DecidableEq, Repr

/-- What a CXL.io configuration write sets (R59, R68, R75): Mem Enable, Viral Enable, or an HDM decoder with its HPA
base, size, interleave ways, granularity in bytes, DPA skip and commit; or what it sends (R58): a mailbox command through DOE
that has no row of its own, or a request for an entry of the CDAT. -/
inductive CfgWrite where
  | memEnable (on : Bool)
  | viral (on : Bool)
  | decoder (k : Fin 4) (base size : BitVec 64) (ways : BitVec 8) (gran : BitVec 16) (skip : BitVec 64) (commit : Bool)
  | mailbox (opcode : BitVec 16) (input : Bytes)
  | cdat (entry : BitVec 16)
deriving DecidableEq, Repr

/-- A key set that IDE_KM delivers for a stream of a port (R70): CXL.cachemem or CXL.io, and the keys of its two
directions. -/
structure IdeKeys where
  mem : Bool
  rx  : BitVec 256
  tx  : BitVec 256
deriving DecidableEq, Repr

/-- An IDE_KM message (R70): the SPDM session that carries it, and the key set. -/
structure IdeKm where
  session : BitVec 32
  keys    : IdeKeys
deriving DecidableEq, Repr

/-- A message on the torus: its opcode of Table 7-2, or of an internal message of Table 8-4; the agent it goes to (none: the
home of its line), or the endpoint of an internal message; and its fields. -/
structure NocMsg where
  opc   : BitVec 8
  agent : Option (Fin 96)
  m     : CohMsg
  ep    : Option (Fin 41) := none
deriving DecidableEq, Repr

/-- Bits of a packet that come wrong at a check (R196, R197): the flit of the packet, and its wrong bits. -/
structure FlitError where
  flit  : BitVec 4
  flips : BitVec 576
deriving DecidableEq, Repr

/-- A link of a router, as the router numbers it (R184). -/
structure TorusLink where
  router : Fin 32
  link   : Fin 4
deriving DecidableEq, Repr

/-- A DataM (R169) and where it goes: the home of its line, or an agent. -/
structure DataMsg where
  agent : Option (Fin 96)
  m     : CohMsg
deriving DecidableEq, Repr

/-- What a channel reads under R265 and at training: the ranks whose highest MR4 reading is above 85 °C, the sensors of
its two DIMM hubs in 0.25 °C, and the PMIC status bytes. -/
structure ChanReading where
  hot   : BitVec 4
  temp0 : BitVec 16
  temp1 : BitVec 16
  pmic0 : BitVec 8
  pmic1 : BitVec 8
deriving DecidableEq, Repr

/-- What the SPD of a DIMM reports (R16, R247): a DDR5 RDIMM; device width; Gb per die; dies per package; ranks; the highest
data rate in MT/s; and the module's serial number. -/
structure Spd where
  rdimm  : Bool
  width  : BitVec 8
  dens   : BitVec 8
  dies   : BitVec 8
  ranks  : BitVec 8
  rate   : BitVec 16
  serial : BitVec 32
deriving DecidableEq, Repr

/-- What a channel finds when it trains (R247, R266, R268): 0 OK, else the flow that failed; whether seeds matched; the
duration in ms; and the SPD of each DIMM whose hub answered. -/
structure TrainReport where
  result  : BitVec 3
  seeded  : Bool
  ms      : BitVec 10
  dimm0   : Option Spd
  dimm1   : Option Spd
deriving DecidableEq, Repr

/-- The commands of the block: one constructor for every row of the opcode table. The docstring of each is the row's
summary and rule. -/
inductive Instr where
  /-- REGISTER_WRITE (R4). A BAR0 write to a register that has no row of its own sets its fields by their access types, after the access checks of Table 17-5. -/
  | registerWrite (who : Initiator) (off : BitVec 26) (data : BitVec 64)
  /-- RC_READ (R4). A read of a register holding RC fields returns them and then clears them to zero. -/
  | rcRead (who : Initiator) (off : BitVec 26) (wide : Bool)
  /-- HALF_READ_CAPTURE (R432). A 4-byte read of bits [31:0] captures the whole register for its initiator so that the next upper-half read returns the captured half. -/
  | halfReadCapture (who : Initiator) (off : BitVec 26)
  /-- LOWER_HALF_WRITE (R433). A 4-byte write of bits [31:0] to a register with a field spanning bit 32 is staged for its initiator. -/
  | lowerHalfWrite (who : Initiator) (off : BitVec 26) (data : BitVec 32)
  /-- UPPER_HALF_WRITE (R433). A 4-byte write of bits [63:32] commits a staged lower half as one write, or otherwise writes only the fields wholly in the upper half. -/
  | upperHalfWrite (who : Initiator) (off : BitVec 26) (data : BitVec 32)
  /-- SUPPLY_LOSS (R420). A controller-die rail staying below its monitor trip for 2 µs asserts COLD reset. -/
  | supplyLoss
  /-- COLD_RESET_RELEASE (R397). The supply monitor releases COLD reset and the boot ROM starts its steps on core 0. -/
  | coldResetRelease
  /-- SELF_TEST_DONE (R398). The SRAM built-in self-test ends, and an unrepairable row sets BIST_FAIL and applies the recovery structure. -/
  | selfTestDone (bad : Option BadRow)
  /-- PERST_L_FALL (R55). A falling edge of PERST_L on any station is the WARM reset of the controller die. -/
  | perstLFall (station : Fin 8)
  /-- PERST_L_RISE (R401). PERST_L rising releases the ports and links of its station from reset. -/
  | perstLRise (station : Fin 8)
  /-- GEN_RST (R402). A write of KEY 0xA5C3 with GO completes to its initiator and starts a WARM reset. -/
  | genRst (who : Initiator) (v : BitVec 32)
  /-- MAP_INIT_DONE (R88). Map initialisation ends, READY is set and Memory Active is reported to hosts. -/
  | mapInitDone
  /-- STR_LOAD_START (R372). The STR_LOAD start action opens an image transfer sequence, or is rejected BUSY or MBX_DISABLED. -/
  | strLoadStart (who : Initiator) (input : Bytes)
  /-- STR_LOAD_CONTINUE (R372). An STR_LOAD continue item delivers image data at OFFSET in ascending order. -/
  | strLoadContinue (who : Initiator) (input : Bytes)
  /-- STR_LOAD_END (R29). The STR_LOAD end action verifies the image and, unless rejected, proceeds to draining and commit as a background operation. -/
  | strLoadEnd (who : Initiator) (input : Bytes)
  /-- STR_LOAD_ABANDON (R372). The STR_LOAD abandon action discards the open image transfer. -/
  | strLoadAbandon (who : Initiator) (input : Bytes)
  /-- IMAGE_COMMIT (R28). All changed LIVE and QUIESCE sections take effect at one commit instant once draining completes. -/
  | imageCommit
  /-- QUIESCE_TIMEOUT (R27). Draining not finished within STR_QTIMEOUT applies nothing, resumes the held parts and sets QUIESCE_TIMEOUT. -/
  | quiesceTimeout
  /-- LD_HOLD_RELEASE (R28). Requests held for changed LDs are released no later than 20 µs after the commit instant. -/
  | ldHoldRelease
  /-- IMAGE_PERSIST_DONE (R29). The flash write and read-back of a persisted image end, switching PREF_SLOT or reporting FLASH_WRITE. -/
  | imagePersistDone (ok : Bool)
  /-- STR_MINSEQ_WRITE (R30). An owner write of STR_MINSEQ raises the rollback floor in the NVS unless it lowers it or passes every valid slot. -/
  | strMinseqWrite (who : Initiator) (v : BitVec 32)
  /-- TALLY_ACQUIRE (R44). Sixteen good TALLY_CLK cycles, or a framing error while LOCKED, move shelf time to ACQUIRE. -/
  | tallyAcquire (why : AcquireCause)
  /-- TALLY_FRAME (R37). A Tally frame is received, validated, its MARKST compared and its query rounds answered. -/
  | tallyFrame (f : TallyFrame)
  /-- ST_SLEW_DONE (R47). Slewing absorbs the offset and clears SLEWING and ST_UNSYNC. -/
  | stSlewDone
  /-- HOLDOVER (R48). No TALLY_CLK edge for 120 ns switches the PLL to AUXCLK, sets ST_UNSYNC and stops answering. -/
  | holdover
  /-- TIM_ST_LOAD (R54). A write of TIM_ST_LOAD in ABSENT loads ST as a step. -/
  | timStLoad (who : Initiator) (v : BitVec 64)
  /-- NOP (R43). The NOP command has no effect. -/
  | nop (c : TallyCmd)
  /-- INRUSH_GRANT (R43). The grant starts the INLET ramp at the named ST or loads calendar entry 60 for a bank, or is refused. -/
  | inrushGrant (c : TallyCmd)
  /-- FLOOR_CAP (R43). The cap is written to TIM_FLOORCAP at the next mark, or refused for values 5 to 7. -/
  | floorCap (c : TallyCmd)
  /-- SNAPSHOT (R43). The snapshot command loads entry 63 as a one-shot SNAPSHOT, replacing any pending one. -/
  | snapshot (c : TallyCmd)
  /-- WINDOW (R52). The window command reloads entry 62 with the new Turnstile window length. -/
  | window (c : TallyCmd)
  /-- DELAY (R43). The delay command writes DELAY_PS at the next mark, and the offset is absorbed under R47. -/
  | delay (c : TallyCmd)
  /-- TALLY_REFUSED_OPCODE (R43). A reserved opcode is refused and increments CMD_REFUSED. -/
  | tallyRefusedOpcode (op : BitVec 4) (c : TallyCmd)
  /-- CALENDAR_FIRE (R51). A calendar entry fires when ST reaches its time or phase, carrying out its action in entry order. -/
  | calendarFire (readings : List (Fin 16 × ChanReading))
  /-- CALENDAR_WINDOW_CLOSE (R53). A calendar window closes DURATION after its last firing. -/
  | calendarWindowClose (n : Fin 64)
  /-- PORT_LINK_UP (R57). A CXL port finishes training at the negotiated rate, width and flit mode. -/
  | portLinkUp (port : Fin 16) (rate width : BitVec 3) (l0p : Bool)
  /-- PORT_LINK_DOWN (R78). A port's link leaves the active state and its stalled queue-port reads end. -/
  | portLinkDown (port : Fin 16)
  /-- M2S_MEMRD (R63). A host MemRd becomes RdO, RdS or RdS with NOALLOC by its SnpType, or is an unmapped access. -/
  | m2sMemrd (ld : Fin 64) (tag : BitVec 16) (hpa : BitVec 64) (snp : SnpType) (mv : MetaVal)
  /-- M2S_MEMRDDATA (R63). A host MemRdData becomes RdS. -/
  | m2sMemrddata (ld : Fin 64) (tag : BitVec 16) (hpa : BitVec 64)
  /-- M2S_MEMINV (R63). A host MemInv becomes Upg. -/
  | m2sMeminv (ld : Fin 64) (tag : BitVec 16) (hpa : BitVec 64) (snp : SnpType) (mv : MetaVal)
  /-- M2S_MEMWR (R63). A host MemWr becomes WbD, WbD with NOOWN, or the DataM of an outstanding BISnp. -/
  | m2sMemwr (ld : Fin 64) (tag : BitVec 16) (hpa : BitVec 64) (mv : MetaVal) (data : BitVec 512) (poison : Bool)
  /-- M2S_MEMWRPTL (R63). A host partial write becomes WbD with its byte mask, or a masked DataM during a BISnp. -/
  | m2sMemwrptl (ld : Fin 64) (tag : BitVec 16) (hpa : BitVec 64) (mv : MetaVal) (data : BitVec 512) (mask : BitVec 64) (poison : Bool)
  /-- M2S_MEMCLNEVCT (R63). A host MemClnEvct becomes EvC. -/
  | m2sMemclnevct (ld : Fin 64) (tag : BitVec 16) (hpa : BitVec 64) (mv : MetaVal)
  /-- M2S_MEMSPECRD (R63). A host MemSpecRd starts a droppable map lookup and DRAM read as a hint. -/
  | m2sMemspecrd (ld : Fin 64) (hpa : BitVec 64)
  /-- M2S_OTHER (R63). Any other M2S opcode is discarded as a protocol error with a RAS record. -/
  | m2sOther (ld : Fin 64) (opcode : BitVec 4)
  /-- BIRSP (R64). A host BIRsp answer is converted to RspS or RspI for the home, or treated as BIRspI on a protocol error. -/
  | birsp (ld : Fin 64) (slot : BitVec 4) (line : BitVec 40) (ans : BiAns)
  /-- BICONFLICT (R65). A host BIConflict is answered with BIConflictAck after the home orders the conflicting request. -/
  | biconflict (ld : Fin 64) (slot : BitVec 4) (line : BitVec 40)
  /-- DC_ADD_EXTENT (R61). A Dynamic Capacity add command adds an extent whose pages read as zero. -/
  | dcAddExtent (who : Initiator) (ld : Fin 64) (start len : BitVec 64)
  /-- DC_RELEASE_EXTENT (R61). A Dynamic Capacity release of a range within added extents is accepted or refused. -/
  | dcReleaseExtent (who : Initiator) (ld : Fin 64) (start len : BitVec 64)
  /-- DC_RELEASE_DONE (R62). The released range's PMEs are zeroed and storage freed, and the release command completes. -/
  | dcReleaseDone (ld : Fin 64)
  /-- FLR (R71). A Function Level Reset resets the LD's configuration space, aborts its mailbox command and ends its stalled queue-port reads. -/
  | flr (ld : Fin 64)
  /-- CXL_RESET (R71). A CXL Reset also clears the LD's HDM decoders, invalidates its proxy by SnpI and optionally clears its memory. -/
  | cxlReset (ld : Fin 64) (clear : Bool)
  /-- IDE_KM (R70). IDE keys delivered over SPDM are installed or refreshed for the port's streams. -/
  | ideKm (port : Fin 16) (t : Initiator) (km : IdeKm)
  /-- IDE_INTEGRITY_FAIL (R70). A CXL.cachemem IDE integrity failure puts the stream in the insecure state and drops the flit. -/
  | ideIntegrityFail (port : Fin 16)
  /-- LANE_FAIL (R72). A lane with eight consecutive errored flits or lost block lock is declared failed and the port starts half-width recovery. -/
  | laneFail (port : Fin 16) (lane : BitVec 4)
  /-- LANE_RECOVERY_DONE (R72). The port resumes at half width, setting DEGRADED and FAILED_LANE with a RAS record. -/
  | laneRecoveryDone (port : Fin 16)
  /-- LTR_RECEIVED (R74). An LTR message sets PRT_LTR and the tolerance of the named or all LDs. -/
  | ltrReceived (port : Fin 16) (ldid : Option (BitVec 4)) (snoop noSnoop : BitVec 16)
  /-- PRT_LD_OVR_WRITE (R75). A write of an LD's override sets its effective tolerance and may set TOL_SEEN. -/
  | prtLdOvrWrite (who : Initiator) (port : Fin 16) (k : Fin 16) (v : BitVec 64)
  /-- QPORT_STALL_EXPIRE (R76). A stalled queue-port read reaching STALL_NS completes with the EMPTY token. -/
  | qportStallExpire (q : Fin 1024) (from_ : QPort) (tag : BitVec 16)
  /-- MAPRD (R90). A PME lookup reaches its map-cache slice and is served, placed in the page-wait queue, or starts a miss fill. -/
  | maprd (home : Fin 16) (tt : BitVec 8)
  /-- MAPWR (R89). A PME update is written at the page's map-cache slice. -/
  | mapwr (page : BitVec 34) (pme : BitVec 128)
  /-- MAPLINE (R89). A map-line fill arrives at the slice and the waiting lookups proceed. -/
  | mapline (twin : Bool) (m : BitVec 34) (ok : Bool)
  /-- MAP_FLUSH (R89). A write of MAP_CTL.FLUSH writes every modified map line to DRAM. -/
  | mapFlush (who : Initiator) (v : BitVec 64)
  /-- AGE_SWEEP (R91). A write of 1 to SWEEP starts a sweep that raises AGE of every PME one map line at a time. -/
  | ageSweep (who : Initiator) (v : BitVec 64)
  /-- AGE_SWEEP_DONE (R91). The sweep ends and the hardware clears SWEEP and BUSY. -/
  | ageSweepDone
  /-- PROMOTION_DONE (R96). A promotion finishes decoding all blocks into a Hall frame, releases the old storage and applies the triggering write. -/
  | promotionDone (page : BitVec 34)
  /-- HELD_WRITE_RESUME (R108). A freed or newly granted frame is taken by the oldest held write, which proceeds. -/
  | heldWriteResume
  /-- HOLD_EXPIRE (R109). A held write reaching HOLD_US is dropped, entered in the dropped-line table and completed with a capacity-fault record. -/
  | holdExpire (home : Fin 16) (tt : BitVec 8)
  /-- HALL_GRANT_TICK (R108). Each 1 µs while a write is held the Hall pool requests a chunk and offers a grant to held writes. -/
  | hallGrantTick
  /-- POOL_LOW_TICK (R107). Each 1 µs while F is below LOW_WATER the pool requests a chunk, raising LOW or CRIT if refused. -/
  | poolLowTick (k : Fin 32)
  /-- CHUNK_ZERO_DONE (R280). The zeroing writes of a chunk leaving FREE complete and its grant proceeds. -/
  | chunkZeroDone (chunk : BitVec 32)
  /-- PME_READ (R112). MAP_PME_OP 1 reads the PME of MAP_PME_IDX into MAP_PME_LO and HI through its slice. -/
  | pmeRead (who : Initiator) (age : BitVec 8)
  /-- PME_SET_PIN (R112). MAP_PME_OP 2 sets PIN in the named PME. -/
  | pmeSetPin (who : Initiator) (age : BitVec 8)
  /-- PME_CLEAR_PIN (R112). MAP_PME_OP 3 clears PIN in the named PME. -/
  | pmeClearPin (who : Initiator) (age : BitVec 8)
  /-- PME_SET_POISON (R112). MAP_PME_OP 4 sets POISON in the named PME. -/
  | pmeSetPoison (who : Initiator) (age : BitVec 8)
  /-- PME_WRITE_AGE (R112). MAP_PME_OP 5 writes the given AGE into the named PME. -/
  | pmeWriteAge (who : Initiator) (age : BitVec 8)
  /-- TWIN_CFG_WRITE (R101). A MAP_TWIN_CFG write sets EN and, when accepted and grantable, replaces the twin table's chunks and twin key. -/
  | twinCfgWrite (who : Initiator) (v : BitVec 64)
  /-- BLK (R125). A gallery receives a block for decoding and decrypts and decodes it, checking Table 5-4. -/
  | blk (g : Fin 16) (page : BitVec 34) (block : Fin 8) (granules : Bytes)
  /-- KEY_LOAD (R134). A LOAD request fills an EMPTY slot and makes it ACTIVE. -/
  | keyLoad (t : Initiator) (session : BitVec 32) (req : Bytes)
  /-- KEY_RETIRE (R134). A RETIRE request moves an ACTIVE slot to REKEY with new material and zeroed cursors. -/
  | keyRetire (t : Initiator) (session : BitVec 32) (req : Bytes)
  /-- KEY_ERASE (R151). An ERASE request begins erasing a slot's key material. -/
  | keyErase (t : Initiator) (session : BitVec 32) (req : Bytes)
  /-- KEY_ERASE_DONE (R151). Once in-flight crypto completes, the slot's material is zeroed and the slot is EMPTY. -/
  | keyEraseDone (slot : Fin 256)
  /-- REGION_ENABLE (R138). A write setting VALID in a region entry takes effect only if its range checks pass. -/
  | regionEnable (who : Initiator) (n : Fin 1024) (v : BitVec 64)
  /-- RDS (R168). A RdS request reaches its home and is served by the action of Table 7-5 for the line's directory state. -/
  | rds (m : CohMsg)
  /-- RDO (R168). A RdO request reaches its home and is served exclusive after snooping other holders. -/
  | rdo (m : CohMsg)
  /-- UPG (R168). An Upg request reaches its home and is granted CmpE or carried out as RdO. -/
  | upg (m : CohMsg)
  /-- WBD (R168). A WbD reaches its home and is written, found absorbed, or carried out as WbD NOOWN. -/
  | wbd (m : CohMsg)
  /-- EVC (R168). An EvC reaches its home, which removes the holder and answers Ack. -/
  | evc (m : CohMsg)
  /-- RDNC (R168). A RdNC reaches its home and is served, recalling an owner when RECALL is set and locking when LOCK is set. -/
  | rdnc (m : CohMsg)
  /-- WAY_ELIGIBLE (R166). A way of a set becomes eligible and the oldest request in HB_ALLOC takes it. -/
  | wayEligible (home : Fin 16) (set : BitVec 13)
  /-- SNPS (R171). An SnpS reaches a caching agent, which answers by Table 7-8. -/
  | snps (agent : Fin 96) (m : CohMsg)
  /-- SNPI (R171). An SnpI reaches a caching agent, which invalidates and answers by Table 7-8. -/
  | snpi (agent : Fin 96) (m : CohMsg)
  /-- SNPF (R171). An SnpF reaches an agent, which returns the value or forwards data to REQID by Table 7-8. -/
  | snpf (agent : Fin 96) (m : CohMsg)
  /-- RSPI (R170). An RspI reaches the home's TT entry and is recorded, possibly completing the snoop phase. -/
  | rspi (m : CohMsg)
  /-- RSPS (R170). An RspS reaches the home's TT entry and records the holder as S. -/
  | rsps (m : CohMsg)
  /-- RSPF (R170). An RspF reaches the home's TT entry and records the holder's retained state. -/
  | rspf (m : CohMsg)
  /-- RSPX (R173). An RspX makes the home take the agent's crossing WbD DataM as the snoop's data and mark it absorbed. -/
  | rspx (m : CohMsg)
  /-- DATAM (R169). A DataM reaches the home and is written under its mask as snoop data, write-back data or a lock release. -/
  | datam (d : DataMsg)
  /-- MEMORY_DATA (R170). Memory read data reaches the home's TT entry, which grants, keeps it for a merge, or discards it. -/
  | memoryData (home : Fin 16) (tt : BitVec 8)
  /-- WDONE (R170). The map slice accepts a write, the entry answers Ack or Cmp if owed and may close. -/
  | wdone (home : Fin 16) (tt : BitVec 8)
  /-- LOCK_TIMEOUT (R174). A lock not released within TMO_US is released without a write, with a RAS record. -/
  | lockTimeout (home : Fin 16) (tt : BitVec 8)
  /-- DATA (R171). Data reaches a requesting agent, which enters S or F by GRANT. -/
  | data (agent : Option (Fin 96)) (m : CohMsg)
  /-- DATAE (R171). DataE reaches a requesting agent, which enters E and completes any pending store. -/
  | datae (agent : Option (Fin 96)) (m : CohMsg)
  /-- CMP (R160). A Cmp completes a non-caching request at its requester. -/
  | cmp (agent : Option (Fin 96)) (m : CohMsg)
  /-- CMPE (R172). CmpE reaches an agent upgrading, which enters M, or sends a new RdO from IM_D. -/
  | cmpe (agent : Option (Fin 96)) (m : CohMsg)
  /-- ACK (R171). An Ack reaches an evicting agent, which enters I and releases its data. -/
  | ack (agent : Option (Fin 96)) (m : CohMsg)
  /-- LOAD (R171). A local load at a caching agent hits or sends RdS. -/
  | load (agent : Fin 96) (m : CohMsg)
  /-- STORE (R171). A local store at a caching agent hits, or sends Upg or RdO. -/
  | store (agent : Fin 96) (m : CohMsg)
  /-- EVICT (R171). A local eviction sends WbD with DataM or EvC and enters an eviction state. -/
  | evict (agent : Fin 96) (m : CohMsg)
  /-- DIR_READ (R183). A write of HOM_DIR_OP.READ copies a directory entry to HOM_DIR_LO and HI atomically. -/
  | dirRead (who : Initiator) (home : Fin 16) (v : BitVec 64)
  /-- NACK (R196). A failed header check returns NACK and the sender replays from the failed flit. -/
  | nack (router : Fin 32) (link : Fin 4) (p : NocMsg) (e : FlitError)
  /-- NOC_LINK_FAIL (R198). Four failed replays, lost framing or a disabled link fails a torus link in both directions. -/
  | nocLinkFail (router : Fin 32) (link : Fin 4)
  /-- DETOUR (R199). A packet whose next hop uses a failed link takes a three-hop detour. -/
  | detour (l : TorusLink) (p : NocMsg)
  /-- MISROUTE_SINK (R201). An unroutable or stale-epoch packet is absorbed by the router's sink, which sends ERR to the source. -/
  | misrouteSink (router : Fin 32) (hdr : BitVec 64) (parity : Bool) (p : NocMsg)
  /-- ERR (R202). An ERR at the source reinjects a REQ once or raises an uncontained network fault for other classes. -/
  | err (p : NocMsg)
  /-- EPOCH_FLIP (R203). A flip checks the shadow tables and swaps every NI's route tables, entering DRAIN. -/
  | epochFlip (who : Initiator) (v : BitVec 64)
  /-- EPOCH_DRAIN_DONE (R203). When every router's OLD_CNT reads zero, staged link changes apply and STATE returns to IDLE. -/
  | epochDrainDone
  /-- EPOCH_DRAIN_TIMEOUT (R204). DRAIN lasting past TMO_US sets DRAIN_TMO and continues. -/
  | epochDrainTimeout
  /-- EPOCH_FORCE (R204). A write of FORCE moves STATE to APPLY at once. -/
  | epochForce (who : Initiator) (v : BitVec 64)
  /-- FENCE_REQUEST (R206). A fence request for a domain is refused or moves the domain to DRAINING. -/
  | fenceRequest (who : Initiator) (d : Fin 40) (v : BitVec 64)
  /-- FENCE_CANCEL (R209). Writing CTL.FENCE 0 while DRAINING ends the drain and delivers held packets. -/
  | fenceCancel (who : Initiator) (d : Fin 40) (v : BitVec 64)
  /-- FENCE_ACK (R207). OUTSTANDING reaching zero gives FENCE_ACK and the domain becomes FENCED. -/
  | fenceAck (d : Fin 40)
  /-- FENCED_ARRIVAL (R208). A packet reaching a fenced or waking domain is held and the first requests a wake. -/
  | fencedArrival (p : NocMsg)
  /-- DOMAIN_ON (R208). A waking domain becomes ON and its held packets are delivered in order. -/
  | domainOn (d : Fin 40)
  /-- FLIT_RECEIVE (R225). A Catwalk flit is FEC-corrected, CRC-checked and its ACK, credits and units processed by SEQ. -/
  | flitReceive (link : Fin 8) (bytes : Bytes)
  /-- CREDIT_REPORT_MISSING (R220). 1,024 good flits without a report of some VC request a fault retrain. -/
  | creditReportMissing (link : Fin 8)
  /-- FAULT_RETRAIN (R231). Eight consecutive uncorrected flits or lost block lock on all lanes request a fault retrain. -/
  | faultRetrain (link : Fin 8) (lock : Bool)
  /-- CWK_LANE_FAIL (R234). A failed Catwalk lane starts a fault retrain to half width. -/
  | cwkLaneFail (link : Fin 8) (lane : BitVec 4)
  /-- REPLAY_REQ (R226). A REPLAY_REQ makes the transmitter resend stored flits from the named SEQ. -/
  | replayReq (link : Fin 8) (seq : BitVec 16)
  /-- RETRAIN_REQ (R232). A RETRAIN_REQ stops new packets, resolves a target and sends RETRAIN_ACK. -/
  | retrainReq (link : Fin 8) (target : CwkTarget)
  /-- RETRAIN_ACK (R233). A RETRAIN_ACK moves the link into RETRAIN toward the resolved target. -/
  | retrainAck (link : Fin 8) (target : CwkTarget)
  /-- WAKE_TOL (R240). A WAKE_TOL message updates the received OWN and PEERS tolerances. -/
  | wakeTol (link : Fin 8) (own peers : BitVec 24)
  /-- TIME (R222). A TIME message records the peer's ST skew in CWK_TSKEW. -/
  | time (link : Fin 8) (st : BitVec 56)
  /-- WAKE_TOL_AGE_EXPIRE (R240). A received tolerance older than 4 µs drops out of CWK_SPAN_TOL. -/
  | wakeTolAgeExpire (link : Fin 8)
  /-- HELLO (R230). A HELLO is checked and accepted into ACTIVE or refused into MISMATCH, and paths are recomputed. -/
  | hello (link : Fin 8) (payload : BitVec 512)
  /-- HELLO_TIMER (R230). A member resends HELLO every 1 ms in MISMATCH and at least every 10 ms otherwise. -/
  | helloTimer (link : Fin 8)
  /-- EXCLUDE (R242). An EXCLUDE from a member makes the receiver exclude it. -/
  | exclude (link : Fin 8) (sslot : BitVec 4)
  /-- PATHLOSS (R241). A PATHLOSS naming a pair excludes the member on the other side. -/
  | pathloss (link : Fin 8) (src dst : BitVec 4)
  /-- FWMSG (R215). A firmware message packet is delivered to the receiver's firmware. -/
  | fwmsg (link : Fin 8) (sslot : BitVec 4) (payload : BitVec 512)
  /-- CATWALK_PACKET (R217). A coherence packet from a peer enters the torus with SRC replaced by the peer's proxy ID, or is relayed or dropped. -/
  | catwalkPacket (link : Fin 8) (p : CwkPacket)
  /-- CWK_LINK_DETECT (R229). Receivers detected with LINK_EN set and a peer defined move the link from DOWN to TRAIN. -/
  | cwkLinkDetect (link : Fin 8) (lower upper : Bool)
  /-- CWK_TRAINED (R229). Training ends and the link enters INIT, clearing counts and granting credits. -/
  | cwkTrained (link : Fin 8) (width : BitVec 2) (rate : BitVec 3) (latNs : BitVec 16)
  /-- CWK_TRAIN_TIMEOUT (R229). Training not done within 24 ms returns the link to DOWN with a retry after 100 ms. -/
  | cwkTrainTimeout (link : Fin 8)
  /-- CWK_INIT_TIMEOUT (R229). No HELLO within 1 ms of INIT returns the link to DOWN. -/
  | cwkInitTimeout (link : Fin 8)
  /-- PLANNED_RETRAIN (R232). A write of CWK_CTL.RETRAIN starts a planned retrain to TGT_WIDTH and TGT_RATE. -/
  | plannedRetrain (who : Initiator) (link : Fin 8) (v : BitVec 64)
  /-- RETRAIN_DONE (R232). The retrain ends, the link returns to ACTIVE and replays from the peer's E. -/
  | retrainDone (link : Fin 8) (e : BitVec 16)
  /-- RETRAIN_TIMEOUT (R233). A retrain not done within its timeout takes the link to DOWN. -/
  | retrainTimeout (link : Fin 8)
  /-- EXCLUSION_SWEEP_DONE (R242). The background sweep over directory ways for an excluded member ends. -/
  | exclusionSweepDone (t : Fin 16)
  /-- READMIT (R243). Once REJOIN is set, the sweep done and the peer ready, the member re-admits it. -/
  | readmit (t : Fin 16)
  /-- SMAP_ENABLE (R238). A write setting VALID in a Span address map entry takes effect only if its checks pass. -/
  | smapEnable (who : Initiator) (n : Fin 64) (v : BitVec 64)
  /-- SMAP_DISABLE (R238). A write clearing VALID ends the entry, with accepted requests completing. -/
  | smapDisable (who : Initiator) (n : Fin 64) (v : BitVec 64)
  /-- CHANNEL_ADMIT (R314). A channel admits a line access into its input queue, charging its master unless held at a ceiling. -/
  | channelAdmit (c : Fin 16) (write : Bool)
  /-- DRAM_COMMAND_ISSUE (R252). The scheduler issues one command per subchannel by the priority rules of R252. -/
  | dramCommandIssue (c : Fin 16) (sub : Fin 2) (banks : BitVec 128) (ranks : BitVec 4)
  /-- DRAM_READ_DATA (R275). A read codeword returns and is decoded into CLEAN, CORRECTED, POISON, ADDRESS_FAULT or UNCORRECTABLE. -/
  | dramReadData (c : Fin 16) (sub : Fin 2) (raw again : Bytes)
  /-- PANIC_EXPIRE (R256). A PANIC suspension reaching 2 µs ends and increments PANIC_EXPIRE. -/
  | panicExpire (c : Fin 16)
  /-- POWER_DOWN_ENTRY (R257). A rank idle for PD_IDLE CCLKs precharges and enters power-down. -/
  | powerDownEntry (c : Fin 16) (r : Fin 4)
  /-- PARK_START (R258). A Loft rank meeting every park condition enters PARKING. -/
  | parkStart (c : Fin 16) (r : Fin 4)
  /-- PARK_DONE (R259). Self-refresh is entered, the lane group stopped and the rank becomes PARKED. -/
  | parkDone (c : Fin 16) (r : Fin 4)
  /-- RANK_PARK (R258). A write of PARK to CTL.CMD parks the rank as soon as its conditions hold. -/
  | rankPark (who : Initiator) (c : Fin 16) (r : Fin 4) (v : BitVec 64)
  /-- RANK_WAKE (R260). A write of WAKE to CTL.CMD starts a wake of the parked rank. -/
  | rankWake (who : Initiator) (c : Fin 16) (r : Fin 4) (v : BitVec 64)
  /-- WAKE_DONE (R260). A waking rank becomes ACTIVE, restarting refresh and recording a late wake if over 2,000 ns. -/
  | wakeDone (c : Fin 16) (r : Fin 4) (ns : BitVec 16) (hot : Bool)
  /-- REFRESH_CHECK (R262). A rank parked for PARK_MAX_MS is woken, reads MR4 and is refreshed before parking again. -/
  | refreshCheck (c : Fin 16) (r : Fin 4)
  /-- REFRESH_DUE (R263). A rank's refresh falls due and is issued, postponed or forced at four postponed. -/
  | refreshDue (c : Fin 16) (r : Fin 4)
  /-- PHASE_STALE_READ (R265). No REFRESH_PHASE firing within 2^27 units forces a reading and sets PHASE_STALE. -/
  | phaseStaleRead (c : Fin 16) (x : ChanReading)
  /-- CHANNEL_TRAIN_DONE (R266). A channel finishes seeded or full training, or fails and is excluded. -/
  | channelTrainDone (c : Fin 16) (t : TrainReport) (x : ChanReading)
  /-- RETRACK (R267). Every 128 tREFI an ACTIVE rank is retracked from its DQS oscillator. -/
  | retrack (c : Fin 16) (r : Fin 4)
  /-- PMIC_FAULT (R269). A PMIC fault or power-good loss takes the affected ranks offline and fails their requests. -/
  | pmicFault (c : Fin 16) (d : Fin 2)
  /-- CE_LEAK (R279). Every LEAK_H hours every device error counter is halved. -/
  | ceLeak (c : Fin 16) (r : Fin 4)
  /-- SCRUB_STEP (R281). Every STEP the scrubber checks the next awake line in scope. -/
  | scrubStep (c : Fin 16)
  /-- SCRUB_WINDOW_STEP (R281). Every WIN_STEP in an open window or forced scrub the scrubber checks the next Loft line. -/
  | scrubWindowStep (c : Fin 16)
  /-- SCRUB_FORCE (R282). A rank pass reaching 90% of the maximum period wakes the rank and scrubs it without a window. -/
  | scrubForce (c : Fin 16) (r : Fin 4)
  /-- REMAP_INSTALL (R284). CMD 1 checks and starts copying an original line to its spare line. -/
  | remapInstall (who : Initiator) (c : Fin 16) (k : Fin 16) (v : BitVec 64)
  /-- REMAP_INSTALL_DONE (R284). The copy ends, the entry becomes ACTIVE and waiting requests go to the spare line. -/
  | remapInstallDone (c : Fin 16) (k : Fin 16)
  /-- REMAP_RETIRE (R284). CMD 2 copies the spare line back and frees the entry. -/
  | remapRetire (who : Initiator) (c : Fin 16) (k : Fin 16) (v : BitVec 64)
  /-- PPR_SOFT (R285). A soft repair request holds the bank, buffers the row, runs soft PPR and writes the row back. -/
  | pprSoft (who : Initiator) (c : Fin 16)
  /-- PPR_HARD (R285). A hard repair request runs only during start-up training and is otherwise refused. -/
  | pprHard (who : Initiator) (c : Fin 16)
  /-- PPR_DONE (R285). A repair ends with its RESULT and PPR_DONE is raised. -/
  | pprDone (c : Fin 16) (result : BitVec 2)
  /-- PUSH (R290). A push stores an item with SOP and EOP at W, or stalls or is discarded when full. -/
  | push (q : Fin 1024) (from_ : QPort) (item : Bytes)
  /-- PUSH_SOP (R297). A host push with SOP starts a packet, truncating an open previous packet. -/
  | pushSop (q : Fin 1024) (who : Initiator) (item : Bytes)
  /-- PUSH_MID (R294). A host push with no tag bit continues an open packet. -/
  | pushMid (q : Fin 1024) (who : Initiator) (item : Bytes)
  /-- PUSH_EOP (R294). A host push with EOP ends an open packet. -/
  | pushEop (q : Fin 1024) (who : Initiator) (item : Bytes)
  /-- POP (R294). A pop returns the item at D with its tag, or stalls, or returns a token. -/
  | pop (q : Fin 1024) (from_ : QPort) (size : BitVec 8) (tag : BitVec 16)
  /-- RELEASE (R290). A release of n items advances L and frees queue space. -/
  | release (q : Fin 1024) (from_ : QPort) (n : BitVec 15)
  /-- MARK (R290). A mark sets M to D and saves the open-packet state. -/
  | mark (q : Fin 1024) (from_ : QPort)
  /-- REWIND (R290). A rewind returns D to M and restores the saved packet state. -/
  | rewind (q : Fin 1024) (from_ : QPort)
  /-- GAP_TRUNCATE (R296). The gap timer reaching GAP_NS truncates the open packet and returns TRUNC. -/
  | gapTruncate (q : Fin 1024)
  /-- QRESET (R298). A pointer-copy mismatch resets the queue and returns QRESET. -/
  | qreset (q : Fin 1024)
  /-- QUEUE_ENABLE (R288). A write setting CRQ_CFG.EN checks the configuration and zeroes the pointers. -/
  | queueEnable (q : Fin 1024) (who : Initiator) (v : BitVec 64)
  /-- QUEUE_DISABLE (R288). A write clearing EN disables the queue and ends stalled pops with EMPTY. -/
  | queueDisable (q : Fin 1024) (who : Initiator) (v : BitVec 64)
  /-- JOB_QUEUE_BIND (R300). A write setting GAL_JQk.EN binds a descriptor and completion queue, or sets REFUSED. -/
  | jobQueueBind (who : Initiator) (g : Fin 16) (k : Fin 8) (v : BitVec 64)
  /-- JOB_QUEUE_UNBIND (R312). A write clearing GAL_JQk.EN takes effect after every fetched job of the queue has committed. -/
  | jobQueueUnbind (who : Initiator) (g : Fin 16) (k : Fin 8) (v : BitVec 64)
  /-- GAL_FLUSH (R312). A write of GAL_CTL.FLUSH writes back and invalidates every cached gallery line. -/
  | galFlush (who : Initiator) (g : Fin 16) (v : BitVec 64)
  /-- DESCRIPTOR_FETCH (R301). A gallery fetches descriptor packets by weighted round robin and checks them. -/
  | descriptorFetch (g : Fin 16)
  /-- COPY (R303). A COPY job copies lines, writing poisoned source lines poisoned. -/
  | copy (g : Fin 16) (job : Fin 16) (n : BitVec 16)
  /-- FILL (R303). A FILL job writes a destination range with an 8-byte pattern. -/
  | fill (g : Fin 16) (job : Fin 16) (n : BitVec 16)
  /-- ZDETECT (R303). A ZDETECT job counts nonzero lines in a range. -/
  | zdetect (g : Fin 16) (job : Fin 16) (n : BitVec 16)
  /-- CRC (R303). A CRC job computes CRC-64 over a range. -/
  | crc (g : Fin 16) (job : Fin 16) (n : BitVec 16)
  /-- SCAN (R306). A SCAN job matches records against up to three terms and reports matching addresses. -/
  | scan (g : Fin 16) (job : Fin 16) (n : BitVec 16)
  /-- TOUCH (R303). A TOUCH job requests lines by RdS and caches them. -/
  | touch (g : Fin 16) (job : Fin 16) (n : BitVec 16)
  /-- TWINHASH (R303). A TWINHASH job computes a page's twin hash. -/
  | twinhash (g : Fin 16) (job : Fin 16) (n : BitVec 16)
  /-- ENCODE (R303). An ENCODE job Tread-codes plaintext blocks into a stand-alone stream. -/
  | encode (g : Fin 16) (job : Fin 16) (n : BitVec 16)
  /-- DECODE (R303). A DECODE job decodes a stand-alone stream into plaintext. -/
  | decode (g : Fin 16) (job : Fin 16) (n : BitVec 16)
  /-- AES_ENC (R303). An AES_ENC job XTS-encrypts a buffer under an ACTIVE slot. -/
  | aesEnc (g : Fin 16) (job : Fin 16) (n : BitVec 16)
  /-- AES_DEC (R303). An AES_DEC job XTS-decrypts a buffer under an ACTIVE slot. -/
  | aesDec (g : Fin 16) (job : Fin 16) (n : BitVec 16)
  /-- DEMOTE (R98). A DEMOTE job reads, zero-checks, encodes and encrypts Hall pages toward the target heap. -/
  | demote (g : Fin 16) (job : Fin 16)
  /-- DEMOTE_COMMIT (R98). A demoted page commits its new PME and frees its frame, or ends with an exception status. -/
  | demoteCommit (g : Fin 16) (job : Fin 16)
  /-- RELOCATE (R100). A RELOCATE job copies a page's ciphertext run to a new run. -/
  | relocate (g : Fin 16) (job : Fin 16)
  /-- RELOCATE_COMMIT (R100). A relocated page's LOC is updated and the old run released. -/
  | relocateCommit (g : Fin 16) (job : Fin 16)
  /-- PROMOTE (R96). A PROMOTE job brings compressed pages to Hall with DIRTYC left 0. -/
  | promote (g : Fin 16) (job : Fin 16) (n : BitVec 16)
  /-- MAP_SCAN (R303). A MAP_SCAN job reports page indices matching tier, age and chunk range. -/
  | mapScan (g : Fin 16) (job : Fin 16) (n : BitVec 16)
  /-- REKEY (R152). A REKEY job re-encrypts a slot's pages and twin entries from its cursors, returning the slot to ACTIVE at the end. -/
  | rekey (g : Fin 16) (job : Fin 16) (n : BitVec 16)
  /-- RESLOT (R153). A RESLOT job re-encrypts pages under the slot the region table now gives them. -/
  | reslot (g : Fin 16) (job : Fin 16) (n : BitVec 16)
  /-- JOB_COMMIT (R308). A job's summary with COMMIT 1 is pushed to its completion queue. -/
  | jobCommit (g : Fin 16) (job : Fin 16)
  /-- ABORT (R309). A write to CRQ_ABORT asks the gallery to abort the oldest job with that JOB_ID. -/
  | abort (who : Initiator) (q : Fin 1024) (id : BitVec 32)
  /-- CNT_SEL_WRITE (R330). A CNT_SELk write setting SAMPLE loads the counter with 2^48 − PERIOD. -/
  | cntSelWrite (who : Initiator) (u : Fin 64) (k : Fin 8) (v : BitVec 64)
  /-- CNT_PER_WRITE (R330). A CNT_PERk write changing PERIOD reloads the sampling counter. -/
  | cntPerWrite (who : Initiator) (u : Fin 64) (k : Fin 8) (v : BitVec 64)
  /-- SNAP_NOW (R339). A write of CNT_SNAP_CTL.NOW takes a snapshot in the next CCLK. -/
  | snapNow (who : Initiator)
  /-- SMP_FLUSH (R336). A write of SMP_CTL.FLUSH writes every buffered record. -/
  | smpFlush (who : Initiator) (v : BitVec 64)
  /-- SAMPLE_WRITE_DONE (R336). The channel accepts a record's write and WPTR advances over it. -/
  | sampleWriteDone
  /-- SAMPLE_RING_ENABLE (R338). A write setting SMP_CTL.EN checks and captures the ring, or sets REJECT. -/
  | sampleRingEnable (who : Initiator) (v : BitVec 64)
  /-- SAMPLE_RING_DISABLE (R338). A write clearing EN completes in-flight writes and releases the frames. -/
  | sampleRingDisable (who : Initiator) (v : BitVec 64)
  /-- RPTR_WRITE (R337). A write of RPTR consumes records, or is ignored if out of range. -/
  | rptrWrite (who : Initiator) (v : BitVec 64)
  /-- FLOOR_DWELL_EXPIRE (R344). TARGET deeper than the floor for DWELL_US starts a deeper transition or retries a stalled step. -/
  | floorDwellExpire (d : Option (Fin 40))
  /-- CORE_WFI (R346). A core executing WFI with no interrupt pending has its KCLK stopped. -/
  | coreWfi (core : Fin 4)
  /-- CORE_SLEEP_TIMEOUT (R346). A core not asleep within 100 µs of the request stalls Floor 4 entry with BLOCK 2. -/
  | coreSleepTimeout (core : Fin 4)
  /-- PRESENCE_LOW (R351). Both presence inputs going low move INLET to QUALIFY. -/
  | presenceLow (slot : BitVec 4) (auto : Bool)
  /-- QUALIFY_DONE (R351). Presence held low for 100 ms moves INLET to OFF or, with trip memory set, TRIPPED. -/
  | qualifyDone (diode : Bool) (ta : BitVec 16)
  /-- PRESENCE_HIGH (R352). A presence input going high turns every gate off and returns INLET to ABSENT. -/
  | presenceHigh
  /-- GUARD_EN_CHANGE (R358). GUARD_EN enables or withdraws INLET, or completes a toggle of a tripped INLET. -/
  | guardEnChange (level rested : Bool)
  /-- BANK_EN_WRITE (R359). A write of a bank's EN enables it, withdraws it, or completes a toggle after a trip. -/
  | bankEnWrite (who : Initiator) (bank : Fin 8) (v : BitVec 64) (rested : Bool)
  /-- INLET_RAMP_START (R353). The inlet die starts the INLET gate ramp at the granted start. -/
  | inletRampStart
  /-- AUTO_RAMP (R353). With GUARD_AUTO and no Tally, a READY channel starts its own ramp after 100 ms plus 20 ms per slot. -/
  | autoRamp (c : Fin 9)
  /-- RAMP_DONE (R351). The output reaches within 0.3 V of the input and the channel is ON. -/
  | rampDone (c : Fin 9)
  /-- RAMP_FAULT (R354). A channel not ON within the 25 ms ramp fault time trips. -/
  | rampFault (c : Fin 9)
  /-- CURRENT_LIMIT (R351). The current reaching the limit moves the channel to LIMIT and runs its fault timer. -/
  | currentLimit (c : Fin 9)
  /-- LIMIT_EXIT (R351). The current falling below 95% of the limit returns the channel to ON. -/
  | limitExit (c : Fin 9)
  /-- FAULT_TIME_EXPIRE (R355). Accumulated time in LIMIT reaching the fault time trips the channel. -/
  | faultTimeExpire (c : Fin 9)
  /-- FAULT_TIMER_CLEAR (R355). 10 ms in ON without LIMIT clears the accumulated fault time. -/
  | faultTimerClear (c : Fin 9)
  /-- FAST_TRIP (R355). A current of three times the limit turns the gate off within 200 ns and trips the channel. -/
  | fastTrip (c : Fin 9)
  /-- FET_OVERTEMP (R356). The FET temperature reaching its limit trips the channel. -/
  | fetOvertemp (c : Fin 9)
  /-- THERMAL_MODEL_UPDATE (R356). Every 10 µs the inlet thermal model updates its FET temperature estimate. -/
  | thermalModelUpdate (iout vin vout ta : BitVec 16)
  /-- STANDBY_LOSS (R422). VSTBY12 below 9.0 V turns every gate off and returns INLET to ABSENT. -/
  | standbyLoss
  /-- STANDBY_RISE (R426). VSTBY12 rising through its trip samples the straps and resets the inlet fields. -/
  | standbyRise (slot : BitVec 4) (auto retained : Bool)
  /-- CORE_RUN (R365). A write of CORE_RUN bits releases cores 1 to 3 from reset. -/
  | coreRun (who : Initiator) (v : BitVec 3)
  /-- GET_FW_INFO (R367). The Get FW Info command reports the firmware slots. -/
  | getFwInfo (who : Initiator)
  /-- TRANSFER_FW (R367). Transfer FW writes the non-running slot and verifies it. -/
  | transferFw (who : Initiator) (slotB : Bool) (image : Bytes)
  /-- ACTIVATE_FW_OFFLINE (R367). Activate FW offline sets PREF_SLOT for the next WARM reset. -/
  | activateFwOffline (who : Initiator) (slotB : Bool)
  /-- ACTIVATE_FW_ONLINE (R367). Activate FW online, or a write of FWC_CTL.RESTART, halts the cores and reloads firmware from the named slot. -/
  | activateFwOnline (who : Initiator) (slotB : Bool)
  /-- ACTIVATION_DONE (R367). The online restart ends with core 0 running the new or fallen-back firmware. -/
  | activationDone
  /-- KICK (R368). A write of KICK restarts the watchdog count. -/
  | kick (who : Initiator)
  /-- WATCHDOG_EXPIRE (R368). The watchdog expiring restarts the cores from RUN_SLOT with a RAS record. -/
  | watchdogExpire
  /-- THERMAL_SHUTDOWN (R371). A die sensor at 115 °C sets the NVS flag, self-refreshes channels, asserts THERMTRIP_L and stops clocks. -/
  | thermalShutdown
  /-- LAST_THERMTRIP_CLEAR (R371). A write of 1 to LAST_THERMTRIP clears the thermal-trip flag in the NVS. -/
  | lastThermtripClear (who : Initiator)
  /-- FWC_MINSEQ_WRITE (R364). An owner write of FWC_MINSEQ raises a firmware rollback floor in the NVS unless it lowers it. -/
  | fwcMinseqWrite (who : Initiator) (v : BitVec 64)
  /-- IDENTIFY (R372). The IDENTIFY command returns identity, lifecycle and running versions. -/
  | identify (who : Initiator) (input : Bytes)
  /-- STR_INFO (R372). The STR_INFO command returns the structure-image status and digest. -/
  | strInfo (who : Initiator) (input : Bytes)
  /-- RAS_READ (R407). The RAS_READ command returns records from the on-chip log or NVS ring. -/
  | rasRead (who : Initiator) (input : Bytes)
  /-- CAL_INFO (R372). The CAL_INFO command returns one header per calibration section present. -/
  | calInfo (who : Initiator) (input : Bytes)
  /-- CAL_EXPORT (R372). The CAL_EXPORT command returns a calibration section to the owner. -/
  | calExport (who : Initiator) (input : Bytes)
  /-- CAL_WRITE_START (R372). The CAL_WRITE start action opens a calibration transfer with the section header. -/
  | calWriteStart (who : Initiator) (input : Bytes)
  /-- CAL_WRITE_CONTINUE (R372). A CAL_WRITE continue item delivers section data at OFFSET. -/
  | calWriteContinue (who : Initiator) (input : Bytes)
  /-- CAL_WRITE_END (R376). The CAL_WRITE end action checks the section and overwrites it in the NVS as USER. -/
  | calWriteEnd (who : Initiator) (input : Bytes) (nvsOk : Bool)
  /-- CAL_WRITE_ABANDON (R372). The CAL_WRITE abandon action discards the open calibration transfer. -/
  | calWriteAbandon (who : Initiator) (input : Bytes)
  /-- VENDOR_UNSUPPORTED (R372). Any other vendor opcode in 0xC000 to 0xC0FF is answered Unsupported. -/
  | vendorUnsupported (who : Initiator) (opcode : BitVec 16) (input : Bytes)
  /-- TRANSFER_IDLE_TIMEOUT (R373). A transfer sequence with no item for 10 s is abandoned. -/
  | transferIdleTimeout
  /-- SET_OWNER (R380). SET_OWNER on MCTP stores the owner key and moves the device to OWNED. -/
  | setOwner (t : Initiator) (session : BitVec 32) (req : Bytes) (nvsOk : Bool)
  /-- SEAL (R379). SEAL from the owner moves OWNED to SEALED. -/
  | seal (t : Initiator) (session : BitVec 32) (req : Bytes) (nvsOk : Bool)
  /-- RETURN (R382). RETURN from the owner zeroises keys and the owner section, enters RETURNED and performs a WARM reset. -/
  | lcReturn (t : Initiator) (session : BitVec 32) (req : Bytes) (nvsOk : Bool)
  /-- BIND (R384). BIND sets the named LD's bit in SEC_BIND. -/
  | bind (t : Initiator) (session : BitVec 32) (req : Bytes)
  /-- UNBIND (R384). UNBIND clears the named LD's bit in SEC_BIND. -/
  | unbind (t : Initiator) (session : BitVec 32) (req : Bytes)
  /-- IDCODE (R388). The IDCODE TAP instruction selects the 32-bit identification register. -/
  | idcode
  /-- SAMPLE_PRELOAD (R388). The SAMPLE/PRELOAD TAP instruction selects the boundary register. -/
  | samplePreload
  /-- EXTEST (R388). The EXTEST TAP instruction drives the boundary register in BLANK and RETURNED. -/
  | extest (v : BitVec 64)
  /-- NONCE (R388). The NONCE TAP instruction reads the current 256-bit nonce. -/
  | nonce
  /-- TOKEN (R388). A debug token shifted in is checked and opens a session or is rejected, and the nonce is replaced. -/
  | token (bytes : Bytes)
  /-- DBGSTAT (R388). The DBGSTAT TAP instruction reads DBG_STATUS bits [31:0]. -/
  | dbgstat
  /-- BAR0 (R385). The BAR0 TAP instruction performs a register access under the session's rights. -/
  | bar0 (dr : BitVec 92)
  /-- DTM (R391). The DTM TAP instruction reaches the RISC-V debug module in a FIRMWARE session. -/
  | dtm (v : BitVec 64)
  /-- SCAN_CHAINS (R389). The SCAN TAP instruction reaches the scan chains in a FULL session. -/
  | scanChains (v : BitVec 64)
  /-- BYPASS (R388). The BYPASS TAP instruction, or any unavailable IR value, selects the 1-bit bypass register. -/
  | bypass (ir : BitVec 6)
  /-- TAP_RESET (R390). A TRST_L assertion or TAP reset ends the debug session. -/
  | tapReset
  /-- CLOSE (R390). A write of DBG_CTL.CLOSE ends the debug session. -/
  | close (who : Initiator)
  /-- HASH_ADDR_SET (R392). HASH_ADDR going from 0 to 1 draws a new address-hashing key. -/
  | hashAddrSet (who : Initiator)
  /-- GET_VERSION (R393). The SPDM GET_VERSION request is answered with the supported version. -/
  | getVersion (t : Initiator)
  /-- GET_CAPABILITIES (R393). The SPDM GET_CAPABILITIES request is answered with the responder's capabilities. -/
  | getCapabilities (t : Initiator)
  /-- NEGOTIATE_ALGORITHMS (R393). The SPDM NEGOTIATE_ALGORITHMS request selects the P-384, SHA-384 and AES-256-GCM suite. -/
  | negotiateAlgorithms (t : Initiator)
  /-- GET_DIGESTS (R393). The SPDM GET_DIGESTS request returns the certificate chain digests. -/
  | getDigests (t : Initiator)
  /-- GET_CERTIFICATE (R393). The SPDM GET_CERTIFICATE request returns the device identity chain. -/
  | getCertificate (t : Initiator) (off : BitVec 16) (len : BitVec 16)
  /-- CHALLENGE (R393). The SPDM CHALLENGE request is answered with a signed response. -/
  | challenge (t : Initiator) (nonce : BitVec 256)
  /-- GET_MEASUREMENTS (R394). The SPDM GET_MEASUREMENTS request returns the measurement blocks of Table 17-10. -/
  | getMeasurements (t : Initiator) (index : BitVec 8)
  /-- KEY_EXCHANGE (R393). The SPDM KEY_EXCHANGE request opens a session, with mutual authentication against the owner key, or is refused at the session limit. -/
  | keyExchange (t : Initiator) (session : BitVec 32) (leafKey : Option Bytes)
  /-- FINISH (R393). The SPDM FINISH request completes session establishment. -/
  | finish (t : Initiator) (session : BitVec 32) (verified : Bool)
  /-- KEY_UPDATE (R393). The SPDM KEY_UPDATE request updates a session's keys. -/
  | keyUpdate (t : Initiator) (session : BitVec 32)
  /-- HEARTBEAT (R393). The SPDM HEARTBEAT request keeps a session alive. -/
  | heartbeat (t : Initiator) (session : BitVec 32)
  /-- END_SESSION (R393). The SPDM END_SESSION request closes a session. -/
  | endSession (t : Initiator) (session : BitVec 32)
  /-- SPDM_UNSUPPORTED (R393). An SPDM request outside Table 17-9 is answered with an error. -/
  | spdmUnsupported (t : Initiator) (code : BitVec 8)
  /-- SRAM_ERROR (R408). An SRAM read finds a single-bit error to correct or an uncorrectable word handled by Table 18-5. -/
  | sramError (hard : Bool) (site : SramSite) (word : BadRow)
  /-- DECODE_TIMEOUT (R411). A home receiving no decode result within TMO_US marks the gallery suspect and resends to its partner. -/
  | decodeTimeout (home : Fin 16) (tt : BitVec 8)
  /-- CONFIGURATION_SPACE_WRITE (R75). A host CXL.io configuration write sets Mem Enable or commits an HDM decoder, which makes an LD active or inactive and changes Tmin. -/
  | configurationSpaceWrite (ld : Fin 64) (w : CfgWrite)
  /-- ASPM_L1_ENTRY (R346). A port requested into ASPM L1 during Floor 4 entry reaches L1, or its host refuses the request, which stalls entry with BLOCK 1. -/
  | aspmL1Entry (port : Fin 16) (ok : Bool)
  /-- ASPM_L1_EXIT (R344). The host brings a port out of ASPM L1. -/
  | aspmL1Exit (port : Fin 16)
  /-- INLET_DIE_OVERTEMP (R427). The inlet die reaching 150 °C trips every channel with its gate on, with CAUSE 2. -/
  | inletDieOvertemp
  /-- CLEAR_EVENT_RECORDS (R69). A host command clears records from an LD's event log and resets its overflow state, as CXL 3.1 specifies. -/
  | clearEventRecords (ld : Fin 64) (log : Fin 5) (handles : Option (List (BitVec 16)))
deriving DecidableEq, Repr

end Sys2Proof
end

