-- ==== Sys2Proof/Decode.lean ====
section
/-!
DEFINITION. The reading of a table word. The opcode table of this block gives no row any bits: its commands are no words,
and so no word spells one.
-/

namespace Sys2Proof

/-- The command that a word of the opcode table spells: none, as no row of it has bits. -/
def decodeTableWord (_nbits _w : Nat) : Option Instr := none

end Sys2Proof
end

