-- ==== Sys2Proof/Config.lean ====
section
/-!
DEFINITION. What the spec leaves to the part or leaves open: hardware constants and the source of free values.
Nothing here has a body, so no proof can rest on a value of it.
-/

namespace Sys2Proof.Config

/-- The free values (log entry 7, DESIGN CHOICE): the `k`-th value drawn, where the spec lets a value be anything: the random source
of R101, R135, R388 and R392, signatures and nonces of the SPDM responder, and results the spec does not state. -/
opaque draw : Nat → Nat

/-- Hardware constants that the spec names and does not give (log entry 6, DESIGN CHOICE): GEN_ID0.STEPPING, BIN and VENDOR and
SEC_DEV_ID, by register key. -/
opaque hardware : Nat → Nat

/-- R10: the Orriholt image key in the boot ROM, X ‖ Y as a big-endian number. -/
opaque romImageKey : Nat

/-- R364: the Orriholt firmware key in the boot ROM. -/
opaque romFirmwareKey : Nat

/-- Table 17-7: the Orriholt debug key in the boot ROM. -/
opaque romDebugKey : Nat

/-- Table 17-10: the SHA-384 digest of the boot ROM. -/
opaque bootRomDigest : Nat

/-- R247, R248: the power of two, modulo 3, that is the die count in the SPD of a channel's DIMMs, before it is trained
(log entry 6, DESIGN CHOICE). -/
opaque spdDies : Nat → Nat

/-- Table 16-5: RTH (0) and TAU_US (1) of a channel in an inlet-guard calibration payload, whose layout the spec does not
give (log entry 41, DESIGN CHOICE). -/
opaque inletModel : Bytes → Nat → Nat → Nat

/-- R190: the check byte of the (72,64) SECDED code of a 64-bit word (log entry 6, DESIGN CHOICE). -/
opaque secded : Nat → Nat

/-- R193: packets that the buffer of a VC holds at a router's input (log entry 6, DESIGN CHOICE). -/
opaque vcDepth : Nat

/-- Table 17-6: the 32-bit identification register of the TAP (log entry 6, DESIGN CHOICE). -/
opaque idcode : Nat

/-- Table 17-9: the certificate chain of slot 0 (log entry 6, DESIGN CHOICE). -/
opaque certChain : List (BitVec 8)

end Sys2Proof.Config
end

