-- ==== Sys2Proof/Machine/Bits.lean ====
section
/-!
DEFINITION. Bit-field, byte-order and saturating-count helpers (R2: little-endian unless a rule says otherwise).
-/

namespace Sys2Proof.Machine

/-- Bits [hi:lo] of `n`. -/
def bits (n hi lo : Nat) : Nat := n / 2 ^ lo % 2 ^ (hi + 1 - lo)

/-- `n` with bits [hi:lo] replaced by `v`. -/
def setBits (n hi lo v : Nat) : Nat :=
  n - bits n hi lo * 2 ^ lo + v % 2 ^ (hi + 1 - lo) * 2 ^ lo

/-- 1 for true. -/
def b2n (b : Bool) : Nat := if b then 1 else 0

/-- `a + n`, held at the largest value of `w` bits. -/
def satAdd (w a n : Nat) : Nat := min (a + n) (2 ^ w - 1)

/-- The number a little-endian byte string spells. -/
def leNat : Bytes → Nat
  | [] => 0
  | b :: bs => b.toNat + 256 * leNat bs

/-- The number a big-endian byte string spells. -/
def beNat (bs : Bytes) : Nat := bs.foldl (fun a b => a * 256 + b.toNat) 0

/-- The `n` low bytes of `v`, little-endian. -/
def toLE : Nat → Nat → Bytes
  | 0, _ => []
  | n + 1, v => BitVec.ofNat 8 v :: toLE n (v / 256)

/-- The `n` low bytes of `v`, big-endian. -/
def toBE (n v : Nat) : Bytes := (toLE n v).reverse

/-- The `n` bytes from offset `off`. -/
def slice (bs : Bytes) (off n : Nat) : Bytes := (bs.drop off).take n

/-- The little-endian number of `n` bytes at `off`; bytes past the end count as zero. -/
def le (bs : Bytes) (off n : Nat) : Nat := leNat (slice bs off n)

/-- The byte at `off`, zero past the end. -/
def byteAt (bs : Bytes) (off : Nat) : Nat := (bs.getD off 0).toNat

/-- Every byte of the slice is zero. -/
def allZero (bs : Bytes) : Bool := bs.all (· == 0)

/-- Bytes [8k+7:8k] of a number, lowest first. -/
def lineBytes (l : Line) : Bytes := toLE 64 l.toNat

/-- The line that 64 bytes spell. -/
def lineOfBytes (bs : Bytes) : Line := BitVec.ofNat 512 (leNat (bs.take 64))

/-- Word `w` (64 bits) of a line. -/
def lineWord (l : Line) (w : Nat) : Nat := bits l.toNat (64 * w + 63) (64 * w)

/-- Bytes of `old` replaced by the bytes of `new` whose mask bit is 1. -/
def mergeMask (old new : Line) (mask : BitVec 64) : Line :=
  lineOfBytes (((lineBytes old).zip (lineBytes new)).zipIdx.map
    (fun x => if mask.getLsbD x.2 then x.1.2 else x.1.1))

/-- Bit `i` of `n`, set or cleared. -/
def setBit (n i : Nat) (b : Bool) : Nat :=
  if n.testBit i == b then n else if b then n + 2 ^ i else n - 2 ^ i

/-- The positions below `k` at which `n` has a one, rising. -/
def onesBelow (n k : Nat) : List Nat := (List.range k).filter (fun i => n.testBit i)

/-- How many ones `n` has below bit `k`. -/
def popCount (n k : Nat) : Nat := (onesBelow n k).length

/-- `a / b` rounded up. -/
def ceilDiv (a b : Nat) : Nat := (a + b - 1) / b

/-- `v` held between `lo` and `hi`. -/
def clamp (lo hi v : Nat) : Nat := max lo (min hi v)

/-- Every element of the list differs from every later one. -/
def distinct : List Nat → Bool
  | [] => true
  | x :: xs => !xs.contains x && distinct xs

/-- The two's-complement reading of a `w`-bit number. -/
def signed (w n : Nat) : Int := if n < 2 ^ (w - 1) then (n : Int) else (n : Int) - 2 ^ w

/-- The `w`-bit two's-complement image of an integer. -/
def unsigned (w : Nat) (i : Int) : Nat := (i % (2 ^ w : Int)).toNat

end Sys2Proof.Machine
end

