-- ==== Sys2Proof/Machine/Crypto.lean ====
section
/-!
DEFINITION. The published algorithms the spec uses by name: SHA-384 (FIPS 180-4), ECDSA on P-384 (FIPS 186-5),
AES-256 (FIPS 197), AES-XTS (IEEE 1619) and AES-CMAC. All on plain numbers and byte lists.
-/

namespace Sys2Proof.Machine

/-! ### SHA-384 -/

/-- Round constants 0 to 19 of SHA-512 (FIPS 180-4). -/
def sha512K0 : List (BitVec 64) :=
  [0x428A2F98D728AE22, 0x7137449123EF65CD, 0xB5C0FBCFEC4D3B2F, 0xE9B5DBA58189DBBC,
   0x3956C25BF348B538, 0x59F111F1B605D019, 0x923F82A4AF194F9B, 0xAB1C5ED5DA6D8118,
   0xD807AA98A3030242, 0x12835B0145706FBE, 0x243185BE4EE4B28C, 0x550C7DC3D5FFB4E2,
   0x72BE5D74F27B896F, 0x80DEB1FE3B1696B1, 0x9BDC06A725C71235, 0xC19BF174CF692694,
   0xE49B69C19EF14AD2, 0xEFBE4786384F25E3, 0x0FC19DC68B8CD5B5, 0x240CA1CC77AC9C65]

/-- Round constants 20 to 39 of SHA-512 (FIPS 180-4). -/
def sha512K1 : List (BitVec 64) :=
  [0x2DE92C6F592B0275, 0x4A7484AA6EA6E483, 0x5CB0A9DCBD41FBD4, 0x76F988DA831153B5,
   0x983E5152EE66DFAB, 0xA831C66D2DB43210, 0xB00327C898FB213F, 0xBF597FC7BEEF0EE4,
   0xC6E00BF33DA88FC2, 0xD5A79147930AA725, 0x06CA6351E003826F, 0x142929670A0E6E70,
   0x27B70A8546D22FFC, 0x2E1B21385C26C926, 0x4D2C6DFC5AC42AED, 0x53380D139D95B3DF,
   0x650A73548BAF63DE, 0x766A0ABB3C77B2A8, 0x81C2C92E47EDAEE6, 0x92722C851482353B]

/-- Round constants 40 to 59 of SHA-512 (FIPS 180-4). -/
def sha512K2 : List (BitVec 64) :=
  [0xA2BFE8A14CF10364, 0xA81A664BBC423001, 0xC24B8B70D0F89791, 0xC76C51A30654BE30,
   0xD192E819D6EF5218, 0xD69906245565A910, 0xF40E35855771202A, 0x106AA07032BBD1B8,
   0x19A4C116B8D2D0C8, 0x1E376C085141AB53, 0x2748774CDF8EEB99, 0x34B0BCB5E19B48A8,
   0x391C0CB3C5C95A63, 0x4ED8AA4AE3418ACB, 0x5B9CCA4F7763E373, 0x682E6FF3D6B2B8A3,
   0x748F82EE5DEFB2FC, 0x78A5636F43172F60, 0x84C87814A1F0AB72, 0x8CC702081A6439EC]

/-- Round constants 60 to 79 of SHA-512 (FIPS 180-4). -/
def sha512K3 : List (BitVec 64) :=
  [0x90BEFFFA23631E28, 0xA4506CEBDE82BDE9, 0xBEF9A3F7B2C67915, 0xC67178F2E372532B,
   0xCA273ECEEA26619C, 0xD186B8C721C0C207, 0xEADA7DD6CDE0EB1E, 0xF57D4F7FEE6ED178,
   0x06F067AA72176FBA, 0x0A637DC5A2C898A6, 0x113F9804BEF90DAE, 0x1B710B35131C471B,
   0x28DB77F523047D84, 0x32CAAB7B40C72493, 0x3C9EBE0A15C9BEBC, 0x431D67C49C100D4C,
   0x4CC5D4BECB3E42B6, 0x597F299CFC657E2A, 0x5FCB6FAB3AD6FAEC, 0x6C44198C4A475817]

/-- The 80 round constants of SHA-512. -/
def sha512K : List (BitVec 64) := sha512K0 ++ sha512K1 ++ sha512K2 ++ sha512K3

/-- The initial hash value of SHA-384. -/
def sha384Init : List (BitVec 64) :=
  [0xCBBB9D5DC1059ED8, 0x629A292A367CD507, 0x9159015A3070DD17, 0x152FECD8F70E5939,
   0x67332667FFC00B31, 0x8EB44A8768581511, 0xDB0C2E0D64F98FA7, 0x47B5481DBEFA4FA4]

/-- FIPS 180-4 padding for the SHA-512 family: 0x80, zeros, then the bit length in 16 big-endian bytes. -/
def shaPad (bs : Bytes) : Bytes :=
  let n := bs.length
  bs ++ [0x80] ++ List.replicate ((128 + 112 - (n + 1) % 128) % 128) 0 ++ toBE 16 (8 * n)

/-- The 80-word message schedule of one 1,024-bit block, grown word by word. -/
def shaSchedule : Nat → List (BitVec 64) → List (BitVec 64)
  | 0, w => w.reverse
  | n + 1, w =>
    let x15 := w.getD 14 0
    let x2 := w.getD 1 0
    let s0 := x15.rotateRight 1 ^^^ x15.rotateRight 8 ^^^ (x15 >>> 7)
    let s1 := x2.rotateRight 19 ^^^ x2.rotateRight 61 ^^^ (x2 >>> 6)
    shaSchedule n ((w.getD 15 0 + s0 + w.getD 6 0 + s1) :: w)

/-- One SHA-512 round on the working variables a to h. -/
def shaRound (v : List (BitVec 64)) (kw : BitVec 64) : List (BitVec 64) :=
  match v with
  | [a, b, c, d, e, f, g, h] =>
    let s1 := e.rotateRight 14 ^^^ e.rotateRight 18 ^^^ e.rotateRight 41
    let ch := (e &&& f) ^^^ (~~~e &&& g)
    let t1 := h + s1 + ch + kw
    let s0 := a.rotateRight 28 ^^^ a.rotateRight 34 ^^^ a.rotateRight 39
    let maj := (a &&& b) ^^^ (a &&& c) ^^^ (b &&& c)
    [t1 + (s0 + maj), a, b, c, d + t1, e, f, g]
  | _ => v

/-- One block of SHA-512 compression. -/
def shaBlock (h : List (BitVec 64)) (blk : Bytes) : List (BitVec 64) :=
  let w16 := (List.range 16).map (fun i => BitVec.ofNat 64 (beNat (slice blk (8 * i) 8)))
  let w := shaSchedule 64 w16.reverse
  let v := (w.zip sha512K).foldl (fun v x => shaRound v (x.1 + x.2)) h
  (h.zip v).map (fun x => x.1 + x.2)

/-- Compression over the first `n` blocks of a padded message. -/
def shaBlocks : Nat → List (BitVec 64) → Bytes → List (BitVec 64)
  | 0, h, _ => h
  | n + 1, h, bs => shaBlocks n (shaBlock h (bs.take 128)) (bs.drop 128)

/-- SHA-384 of a byte string: 48 bytes. -/
def sha384 (bs : Bytes) : Bytes :=
  let p := shaPad bs
  ((shaBlocks (p.length / 128) sha384Init p).take 6).flatMap (fun w => toBE 8 w.toNat)

/-! ### ECDSA on P-384 -/

/-- The field prime of P-384. -/
def p384P : Nat :=
  0xFFFFFFFFFFFFFFFFFFFFFFFFFFFFFFFFFFFFFFFFFFFFFFFFFFFFFFFFFFFFFFFEFFFFFFFF0000000000000000FFFFFFFF

/-- The order of the P-384 base point. -/
def p384N : Nat :=
  0xFFFFFFFFFFFFFFFFFFFFFFFFFFFFFFFFFFFFFFFFFFFFFFFFC7634D81F4372DDF581A0DB248B0A77AECEC196ACCC52973

/-- The coefficient b of P-384; the coefficient a is −3. -/
def p384B : Nat :=
  0xB3312FA7E23EE7E4988E056BE3F82D19181D9C6EFE8141120314088F5013875AC656398D8A2ED19D2A85C8EDD3EC2AEF

/-- The base point of P-384. -/
def p384G : Nat × Nat :=
  (0xAA87CA22BE8B05378EB1C71EF320AD746E1D3B628BA79B9859F741E082542A385502F25DBF55296C3A545E3872760AB7,
   0x3617DE4A96262C6F5D9E98BF9292DC29F8F41DBD289A147CE9DA3113B5F0B8C00A60B1CE1D7E819D7A431D7C90EA0E5F)

/-- `b ^ e mod m` over the `n` low bits of `e`, highest first. -/
def modPow (m b e : Nat) : Nat → Nat
  | 0 => 1 % m
  | n + 1 =>
    let r := modPow m b (e / 2) n
    let r2 := r * r % m
    if e % 2 = 1 then r2 * b % m else r2

/-- Inverse modulo a prime of at most 384 bits. -/
def modInv (m a : Nat) : Nat := modPow m (a % m) (m - 2) 384

/-- (x, y) is a point of P-384 other than the point at infinity. -/
def onP384 (x y : Nat) : Bool :=
  x < p384P && y < p384P &&
    y * y % p384P == (x * x % p384P * x + (p384P - 3) * x + p384B) % p384P

/-- Sum of two points, `none` standing for the point at infinity. -/
def p384Add (a b : Option (Nat × Nat)) : Option (Nat × Nat) :=
  match a, b with
  | none, q => q
  | q, none => q
  | some (x1, y1), some (x2, y2) =>
    let p := p384P
    if x1 = x2 ∧ (y1 + y2) % p = 0 then none
    else
      let l := if x1 = x2 then (3 * x1 * x1 + (p - 3)) % p * modInv p (2 * y1) % p
               else (y2 + (p - y1)) % p * modInv p (x2 + (p - x1)) % p
      let x3 := (l * l + (p - x1) + (p - x2)) % p
      some (x3, (l * (x1 + (p - x3)) + (p - y1)) % p)

/-- Scalar multiple over the `n` low bits of `k`. -/
def p384Mul (q : Option (Nat × Nat)) (k : Nat) : Nat → Option (Nat × Nat)
  | 0 => none
  | n + 1 =>
    let r := p384Mul q (k / 2) n
    let r2 := p384Add r r
    if k % 2 = 1 then p384Add r2 q else r2

/-- R9: a signature r ‖ s (96 bytes, big-endian) over a 48-byte message hash, by a public key X ‖ Y (96 bytes). -/
def ecdsaVerify (key hash sig : Bytes) : Bool :=
  let x := beNat (slice key 0 48)
  let y := beNat (slice key 48 48)
  let r := beNat (slice sig 0 48)
  let s := beNat (slice sig 48 48)
  let n := p384N
  if key.length == 96 && sig.length == 96 && onP384 x y && 0 < r && r < n && 0 < s && s < n then
    let w := modInv n s
    let e := beNat (hash.take 48)
    match p384Add (p384Mul (some p384G) (e * w % n) 384) (p384Mul (some (x, y)) (r * w % n) 384) with
    | none => false
    | some (px, _) => px % n == r
  else false

/-- Table 1-1: the first 16 bytes of the SHA-384 of the uncompressed SEC1 form of a key X ‖ Y. -/
def keyId (key : Bytes) : Bytes := (sha384 ((0x04 : Byte) :: key)).take 16

/-! ### AES-256 -/

/-- Multiplication by x in GF(2^8) modulo x^8 + x^4 + x^3 + x + 1. -/
def gfX (a : Byte) : Byte := (a <<< 1) ^^^ (if a.getLsbD 7 then 0x1B else 0)

/-- Product in that field, over the `n` low bits of `b`. -/
def gfMul8 (a b : Byte) : Nat → Byte
  | 0 => 0
  | n + 1 => (if b.getLsbD 0 then a else 0) ^^^ gfMul8 (gfX a) (b >>> 1) n

/-- Product in that field. -/
def gfMul (a b : Byte) : Byte := gfMul8 a b 8

/-- Inverse in that field, 0 for 0: the 254th power. -/
def gfInv (a : Byte) : Byte :=
  let a2 := gfMul a a
  let a4 := gfMul a2 a2
  let a8 := gfMul a4 a4
  let a16 := gfMul a8 a8
  let a32 := gfMul a16 a16
  let a64 := gfMul a32 a32
  let a128 := gfMul a64 a64
  gfMul a128 (gfMul a64 (gfMul a32 (gfMul a16 (gfMul a8 (gfMul a4 a2)))))

/-- The AES S-box: inversion, then the affine map. -/
def sbox (a : Byte) : Byte :=
  let b := gfInv a
  b ^^^ b.rotateLeft 1 ^^^ b.rotateLeft 2 ^^^ b.rotateLeft 3 ^^^ b.rotateLeft 4 ^^^ 0x63

/-- The inverse of the S-box: the inverse affine map, then inversion. -/
def sboxInv (a : Byte) : Byte := gfInv (a.rotateLeft 1 ^^^ a.rotateLeft 3 ^^^ a.rotateLeft 6 ^^^ 0x05)

/-- Bytewise exclusive or. -/
def xorBytes (a b : Bytes) : Bytes := (a.zip b).map (fun x => x.1 ^^^ x.2)

/-- The AES-256 key schedule as 4-byte words, newest first, grown `n` words beyond the eight key words. -/
def aesExpand : Nat → Nat → Byte → List Bytes → List Bytes
  | 0, _, _, w => w
  | n + 1, i, rc, w =>
    let prev := w.headD []
    let back := w.getD 7 []
    if i % 8 = 0 then
      let t := ((prev.drop 1) ++ prev.take 1).map sbox
      let t := xorBytes t [rc, 0, 0, 0]
      aesExpand n (i + 1) (gfX rc) (xorBytes back t :: w)
    else if i % 8 = 4 then aesExpand n (i + 1) rc (xorBytes back (prev.map sbox) :: w)
    else aesExpand n (i + 1) rc (xorBytes back prev :: w)

/-- The 15 round keys of an AES-256 key (32 bytes), each 16 bytes. -/
def aesRoundKeys (key : Bytes) : List Bytes :=
  let w0 := ((List.range 8).map (fun i => slice key (4 * i) 4)).reverse
  let w := (aesExpand 52 8 0x01 w0).reverse
  (List.range 15).map (fun r => ((w.drop (4 * r)).take 4).flatten)

/-- ShiftRows on a column-major 16-byte state. -/
def shiftRows (s : Bytes) : Bytes :=
  (List.range 16).map (fun i => s.getD ((i + 4 * (i % 4)) % 16) 0)

/-- The inverse of ShiftRows. -/
def shiftRowsInv (s : Bytes) : Bytes :=
  (List.range 16).map (fun i => s.getD ((i + 16 - 4 * (i % 4)) % 16) 0)

/-- MixColumns with the circulant row `c`. -/
def mixCols (c : Bytes) (s : Bytes) : Bytes :=
  (List.range 16).map (fun i =>
    (List.range 4).foldl (fun a j =>
      a ^^^ gfMul (c.getD ((j + 4 - i % 4) % 4) 0) (s.getD (4 * (i / 4) + j) 0)) 0)

/-- AES-256 encryption of one 16-byte block. -/
def aesEnc (key blk : Bytes) : Bytes :=
  let rk := aesRoundKeys key
  let s := xorBytes blk (rk.headD [])
  let s := (List.range 13).foldl (fun s r =>
    xorBytes (mixCols [2, 3, 1, 1] (shiftRows (s.map sbox))) (rk.getD (r + 1) [])) s
  xorBytes (shiftRows (s.map sbox)) (rk.getD 14 [])

/-- AES-256 decryption of one 16-byte block. -/
def aesDec (key blk : Bytes) : Bytes :=
  let rk := aesRoundKeys key
  let s := (shiftRowsInv (xorBytes blk (rk.getD 14 []))).map sboxInv
  let s := (List.range 13).foldl (fun s r =>
    (shiftRowsInv (mixCols [14, 11, 13, 9] (xorBytes s (rk.getD (13 - r) [])))).map sboxInv) s
  xorBytes s (rk.headD [])

/-! ### XTS and CMAC -/

/-- IEEE 1619: the tweak times x in GF(2^128), little-endian. -/
def xtsNext (t : Bytes) : Bytes :=
  let n := leNat t
  let d := 2 * n
  toLE 16 (if n.testBit 127 then (d % 2 ^ 128) ^^^ 0x87 else d)

/-- XTS over whole 16-byte blocks, with `f` the block cipher under the data key. -/
def xtsBlocks (f : Bytes → Bytes) : Nat → Bytes → Bytes → Bytes
  | 0, _, _ => []
  | n + 1, t, bs => xorBytes (f (xorBytes (bs.take 16) t)) t ++ xtsBlocks f n (xtsNext t) (bs.drop 16)

/-- AES-256-XTS encryption: data key, tweak key, the 16-byte tweak value, a whole number of blocks. -/
def xtsEnc (k1 k2 tweak bs : Bytes) : Bytes :=
  xtsBlocks (aesEnc k1) (bs.length / 16) (aesEnc k2 tweak) bs

/-- AES-256-XTS decryption. -/
def xtsDec (k1 k2 tweak bs : Bytes) : Bytes :=
  xtsBlocks (aesDec k1) (bs.length / 16) (aesEnc k2 tweak) bs

/-- IEEE 1619: the tweak n steps on. -/
def xtsSkip : Nat → Bytes → Bytes
  | 0, t => t
  | n + 1, t => xtsSkip n (xtsNext t)

/-- IEEE 1619: one data unit of at least 16 bytes under the block cipher `f`, with ciphertext stealing where its length
is not a multiple of 16. `dec`: `f` decrypts, and the last two tweaks change places. -/
def xtsUnit (f : Bytes → Bytes) (dec : Bool) (t bs : Bytes) : Bytes :=
  let m := bs.length / 16
  let b := bs.length % 16
  if b = 0 then xtsBlocks f m t bs
  else
    let ta := xtsSkip (m - 1) t
    let tb := xtsNext ta
    let cc := xorBytes (f (xorBytes ((bs.drop (16 * (m - 1))).take 16) (if dec then tb else ta))) (if dec then tb else ta)
    let last := bs.drop (16 * m) ++ cc.drop b
    let pp := xorBytes (f (xorBytes last (if dec then ta else tb))) (if dec then ta else tb)
    xtsBlocks f (m - 1) t bs ++ pp ++ cc.take b

/-- CMAC subkey step: doubling in GF(2^128), big-endian. -/
def cmacDbl (b : Bytes) : Bytes :=
  let n := beNat b
  toBE 16 (if n.testBit 127 then (2 * n % 2 ^ 128) ^^^ 0x87 else 2 * n)

/-- The CBC chain of CMAC over `n` whole blocks. -/
def cmacChain (key : Bytes) : Nat → Bytes → Bytes → Bytes
  | 0, c, _ => c
  | n + 1, c, bs => cmacChain key n (aesEnc key (xorBytes c (bs.take 16))) (bs.drop 16)

/-- AES-CMAC under a 256-bit key: 16 bytes. -/
def cmac (key msg : Bytes) : Bytes :=
  let k1 := cmacDbl (aesEnc key (List.replicate 16 0))
  let n := max 1 (ceilDiv msg.length 16)
  let last := msg.drop (16 * (n - 1))
  let last := if last.length = 16 then xorBytes last k1
    else xorBytes (last ++ [0x80] ++ List.replicate (15 - last.length) 0) (cmacDbl k1)
  aesEnc key (xorBytes (cmacChain key (n - 1) (List.replicate 16 0) msg) last)

end Sys2Proof.Machine
end

