-- ==== Sys2Proof/Machine/FwImage.lean ====
section
/-!
DEFINITION. The firmware image (R363) and its acceptance (R364), as a function of its bytes.
-/

namespace Sys2Proof.Machine

/-- What R364 needs of the machine: whether the lifecycle state is OWNED or SEALED, the owner key, the two rollback
floors and COSIGN_REQ. -/
structure FwCtx where
  owned     : Bool
  ownerKey  : Bytes
  vendorMin : Nat
  ownerMin  : Nat
  cosign    : Bool

/-- KIND of a firmware header. -/
def fwKind (img : Bytes) : Nat := byteAt img 0x22

/-- SEQ of a firmware header. -/
def fwSeq (img : Bytes) : Nat := le img 0xC 4

/-- VERSION of a firmware header. -/
def fwVersion (img : Bytes) : Nat := le img 0x2C 4

/-- COSIGNED. -/
def fwCosigned (img : Bytes) : Bool := (byteAt img 0x23).testBit 0

/-- A valid COSIG by the owner key (R364). -/
def fwCosigOk (ownerKey img : Bytes) : Bool :=
  fwCosigned img && slice img 0xC0 16 == keyId ownerKey &&
    ecdsaVerify ownerKey (slice img 0x30 48) (slice img 0xD0 96)

/-- R363, R364: the controller accepts the image at the start of a slot. -/
def fwAccept (c : FwCtx) (slot : Bytes) : Bool :=
  let len := le slot 8 4
  let img := slot.take len
  let kind := fwKind img
  let key := if kind = 1 then c.ownerKey else toBE 96 Config.romFirmwareKey
  slice img 0 4 == [0x59, 0x46, 0x57, 0x31] &&
  byteAt img 5 == 1 && le img 6 2 == 0x200 && byteAt img 0x23 < 2 && allZero (slice img 0x130 208) &&
  0x200 ≤ len && len ≤ 0x180200 && len % 16 == 0 && len == img.length &&
  le img 0x24 4 + len - 0x200 ≤ 0x200000 &&
  le img 0x20 2 == 0x6416 && kind ≤ 1 &&
  (fwCosigned img || allZero (slice img 0xC0 16)) &&
  (kind == 0 || c.owned) &&
  (if kind = 0 then c.vendorMin else c.ownerMin) ≤ fwSeq img &&
  !key.isEmpty && slice img 0x10 16 == keyId key &&
  slice img 0x30 48 == sha384 (slice img 0 0x30 ++ img.drop 0x200) &&
  ecdsaVerify key (slice img 0x30 48) (slice img 0x60 96) &&
  (!(c.owned && kind == 0 && c.cosign) || fwCosigOk c.ownerKey img)

end Sys2Proof.Machine
end

