-- ==== Sys2Proof/Machine/Topology.lean ====
section
/-!
DEFINITION. The torus: where endpoints attach (Table 8-1), the hop codes of Table 8-6, the default routes of R193 and
the legality of a route entry (R192).
-/

namespace Sys2Proof.Machine

/-- Table 8-1: router coordinates (x, y) and local port of an endpoint. -/
def epPlace (e : Nat) : Nat × Nat × Nat :=
  if e < 8 then (e, 0, 0)
  else if e < 16 then (e - 8, 3, 0)
  else if e < 24 then (e - 16, 0, 1)
  else if e < 32 then (e - 24, 3, 1)
  else if e < 40 then (e - 32, 1, 0)
  else (0, 2, 0)

/-- The router number of R184. -/
def routerNum (x y : Nat) : Nat := 8 * y + x

/-- The router an endpoint attaches to. -/
def epRouter (e : Nat) : Nat := let p := epPlace e; routerNum p.1 p.2.1

/-- R184: the router reached from router `r` by link `d` (0 X+, 1 X−, 2 Y+, 3 Y−). -/
def neighbour (r d : Nat) : Nat :=
  let x := r % 8
  let y := r / 8
  match d with
  | 0 => routerNum ((x + 1) % 8) y
  | 1 => routerNum ((x + 7) % 8) y
  | 2 => routerNum x ((y + 1) % 4)
  | _ => routerNum x ((y + 3) % 4)

/-- R193: the minimal hops along a ring of `n`, as a direction code offset (0 +, 1 −) and a count; a tie goes +. -/
def ringHops (n a b : Nat) : Nat × Nat :=
  let f := (b + n - a) % n
  if 2 * f ≤ n then (0, f) else (1, n - f)

/-- R193: the hop codes of the minimal dimension-ordered route between two endpoints. -/
def dorCodes (src dst : Nat) : List Nat :=
  let (x, y, _) := epPlace src
  let (x', y', p) := epPlace dst
  let (dx, nx) := ringHops 8 x x'
  let (dy, ny) := ringHops 4 y y'
  List.replicate nx dx ++ List.replicate ny (2 + dy) ++ [4 + p]

/-- R19: the 64-bit route entry that lists hop codes, VALID set. -/
def routeEntry (codes : List Nat) : Nat :=
  codes.foldr (fun c a => a * 8 + c) 0 + codes.length * 2 ^ 30 + 2 ^ 40

/-- R19: the hop codes of an entry. -/
def routeCodes (e : Nat) : List Nat :=
  (List.range (bits e 33 30)).map (fun i => bits e (3 * i + 2) (3 * i))

/-- The router reached by taking the link codes of a route from router `r`. -/
def walk (r : Nat) (codes : List Nat) : Nat :=
  (codes.filter (· < 4)).foldl neighbour r

/-- R192: a VALID entry of endpoint `src` toward `dst` is legal. -/
def routeLegal (src dst e : Nat) : Bool :=
  let cs := routeCodes e
  let links := cs.dropLast
  let xs := links.takeWhile (· < 2)
  let ys := links.dropWhile (· < 2)
  let (x', y', p) := epPlace dst
  let (x, y, _) := epPlace src
  1 ≤ cs.length && cs.length ≤ 10 && dst ≤ 40 &&
    xs.length ≤ 7 && xs.all (· == xs.headD 0) &&
    ys.length ≤ 3 && ys.all (fun c => c == ys.headD 2 && 2 ≤ c && c < 4) &&
    cs.getLastD 7 == 4 + p && walk (routerNum x y) links == routerNum x' y'

/-- R192: bits outside the fields of R19 are zero, and so are unused hop codes. -/
def routeReservedZero (e : Nat) : Bool :=
  bits e 39 34 == 0 && bits e 63 41 == 0

/-- R193: the entry at table index `i` of endpoint `e` that the boot ROM generates: entry i mod 64 of network i / 64. -/
def defaultRoute (e i : Nat) : Nat :=
  if i % 64 ≤ 40 then routeEntry (dorCodes e (i % 64)) else 0

end Sys2Proof.Machine
end

