-- ==== Sys2Proof/Machine/Image.lean ====
section
/-!
DEFINITION. The structure image: its sections (R8 to R23), the rank-group layout it implies (R80 to R83), and the
checks of Table 1-10 in their order. Everything here is a function of bytes; what it needs of the machine it takes as
arguments.
-/

namespace Sys2Proof.Machine

/-- Section types of Table 1-3. -/
def secQUAD : Nat := 0x0001
def secLDL : Nat := 0x0003
def secCHN : Nat := 0x0004
def secTIER : Nat := 0x0005
def secSPAN : Nat := 0x0006
def secROUTE : Nat := 0x0007
def secPDM : Nat := 0x0008
def secTSC : Nat := 0x0009
def secCNTD : Nat := 0x000A
def secLIMO : Nat := 0x000B

/-- Table 1-3: the class of a type (0 LIVE, 1 QUIESCE, 2 RESET); `none` for a type not in the table. -/
def secClass (ty : Nat) : Option Nat :=
  if ty = secROUTE || ty = secTSC || ty = secCNTD then some 0
  else if ty = secLDL || ty = secTIER || ty = secPDM then some 1
  else if ty = secQUAD || ty = secCHN || ty = secSPAN || ty = secLIMO then some 2
  else none

/-- The sections of a body: type and payload. -/
abbrev Sections := List (Nat × Bytes)

/-- The payload of a section type, empty if absent. -/
def Sections.get (ss : Sections) (ty : Nat) : Bytes :=
  match ss.find? (·.1 == ty) with
  | some x => x.2
  | none => []

/-- The section type is present. -/
def Sections.has (ss : Sections) (ty : Nat) : Bool := ss.any (·.1 == ty)

/-- `bs` cut into pieces of `n` bytes, a short tail dropped. -/
def pieces (n : Nat) (bs : Bytes) : List Bytes :=
  (List.range (bs.length / n)).map (fun i => slice bs (n * i) n)

/-! ### QUAD (Table 1-4) -/

/-- One quad: USE, UNIT, SPEED, LFLAGS. -/
structure Quad where
  use   : Nat
  unit  : Nat
  speed : Nat
  rev   : Nat
deriving DecidableEq, Repr

def Sections.quads (ss : Sections) : List Quad :=
  (pieces 4 (ss.get secQUAD)).map (fun b => ⟨byteAt b 0 % 4, byteAt b 1, byteAt b 2, byteAt b 3⟩)

/-- The quads of a unit: use 1 CXL port, 2 Catwalk link. -/
def Sections.unitQuads (ss : Sections) (use unit : Nat) : List Nat :=
  (ss.quads.zipIdx.filter (fun x => x.1.use == use && x.1.unit == unit)).map (·.2)

/-- R13: the set of quads forms an x4, x8 or x16 unit. -/
def unitShape (qs : List Nat) : Bool :=
  match qs with
  | [_] => true
  | [a, b] => a % 2 == 0 && b == a + 1
  | [a, b, c, d] => a % 4 == 0 && b == a + 1 && c == a + 2 && d == a + 3
  | _ => false

/-- R13. -/
def quadOk (ss : Sections) : Bool :=
  let qs := ss.quads
  qs.all (fun q => q.use != 3 &&
    (if q.use == 0 then q.unit == 0 && q.speed == 0 && q.rev == 0
     else if q.use == 1 then q.unit ≤ 15 && q.speed ≤ 5
     else q.unit ≤ 7 && (q.speed == 4 || q.speed == 5))) &&
  [1, 2].all (fun u => (List.range 16).all (fun n =>
    let m := ss.unitQuads u n
    m.isEmpty || (unitShape m &&
      m.all (fun i => (qs.getD i ⟨0, 0, 0, 0⟩).speed == (qs.getD (m.headD 0) ⟨0, 0, 0, 0⟩).speed &&
        (qs.getD i ⟨0, 0, 0, 0⟩).rev == (qs.getD (m.headD 0) ⟨0, 0, 0, 0⟩).rev))))

/-! ### LDL (Table 1-5) -/

/-- One LDL entry; sizes and base in 256 MiB units. -/
structure LdEntry where
  ld      : Nat
  port    : Nat
  dcCount : Nat
  mld     : Bool
  base    : Nat
  static  : Nat
  dc      : Nat
deriving DecidableEq, Repr

def Sections.ldl (ss : Sections) : List LdEntry :=
  (pieces 16 (ss.get secLDL)).map (fun b =>
    ⟨byteAt b 0, byteAt b 1, byteAt b 2, byteAt b 3 % 2 == 1, le b 4 4, le b 8 4, le b 12 4⟩)

/-- The entry of an LD. -/
def Sections.ldEntry (ss : Sections) (l : Nat) : Option LdEntry := ss.ldl.find? (·.ld == l)

/-- The entries of a port in image order: slot k of PRT_LDk is the k-th (Table 3-11). -/
def Sections.portLds (ss : Sections) (p : Nat) : List LdEntry := ss.ldl.filter (·.port == p)

/-- Logical limit in 256 MiB units (Table 1-7); zero without a TIER section. -/
def Sections.limit (ss : Sections) : Nat := le (ss.get secTIER) 4 4

/-- Pages below LOGICAL_LIMIT. -/
def Sections.pages (ss : Sections) : Nat := ss.limit * 65536

/-- R14. -/
def ldlOk (ss : Sections) : Bool :=
  let es := ss.ldl
  let n := (ss.get secLDL).length / 16
  1 ≤ n && n ≤ 64 && distinct (es.map (·.ld)) &&
  es.all (fun e => e.ld ≤ 63 && !(ss.unitQuads 1 e.port).isEmpty && e.port ≤ 15 && e.dcCount ≤ 8 &&
    (if e.dcCount == 0 then e.dc == 0 else e.dc % e.dcCount == 0) &&
    e.base + e.static + e.dc ≤ ss.limit &&
    (let ps := ss.portLds e.port
     ps.all (·.mld == e.mld) && (if e.mld then ps.length ≤ 16 else ps.length == 1)) &&
    es.all (fun f => f.ld == e.ld || e.base + e.static + e.dc ≤ f.base || f.base + f.static + f.dc ≤ e.base
      || e.static + e.dc == 0 || f.static + f.dc == 0)) &&
  (List.range 16).all (fun p => (ss.unitQuads 1 p).isEmpty || !(ss.portLds p).isEmpty)

/-! ### CHN and the rank-group layout (Table 1-6, R80 to R83) -/

/-- One CHN entry. -/
structure Chn where
  dpc   : Nat
  ranks : Nat
  width : Nat
  dens  : Nat
  rate  : Nat
  set   : Nat
  spare : Bool
deriving DecidableEq, Repr

/-- An unpopulated channel. -/
def Chn.none : Chn := ⟨0, 0, 4, 0, 0, 0, false⟩

def Sections.chns (ss : Sections) : List Chn :=
  (pieces 8 ((ss.get secCHN).drop 8)).map (fun b =>
    ⟨byteAt b 0, byteAt b 1, byteAt b 2, byteAt b 3, le b 4 2, byteAt b 6, byteAt b 7 % 2 == 1⟩)

def Sections.chn (ss : Sections) (c : Nat) : Chn := ss.chns.getD c Chn.none

/-- CHN GRAN in bytes. -/
def Sections.gran (ss : Sections) : Nat :=
  match byteAt (ss.get secCHN) 0 with
  | 0 => 4096
  | 1 => 65536
  | _ => 2097152

/-- Ranks of a channel: rank 0 to DPC × RANKS − 1. -/
def Chn.nRanks (c : Chn) : Nat := c.dpc * c.ranks

/-- Table 1-6: Gb per die of a DENS code. -/
def densGb (code : Nat) : Nat :=
  match code with
  | 0 => 16
  | 1 => 24
  | 2 => 32
  | _ => 64

/-- R248: bytes of data a rank holds, with `h` dies a package. -/
def Chn.rankBytes (c : Chn) (h : Nat) : Nat :=
  2 * (32 / c.width) * (densGb c.dens * 2 ^ 30) * h / 8

/-- A TIER record (Table 1-7). -/
structure TierRec where
  set  : Nat
  hall : Nat
  mezz : Nat
  loft : Nat
deriving DecidableEq, Repr

def Sections.tiers (ss : Sections) : List TierRec :=
  (pieces 24 ((ss.get secTIER).drop 8)).map (fun b => ⟨byteAt b 0, le b 4 4, le b 8 4, le b 16 8⟩)

/-- The TIER record of a set. -/
def Sections.tier (ss : Sections) (set : Nat) : TierRec :=
  (ss.tiers.find? (·.set == set)).getD ⟨set, 0, 0, 0⟩

/-- LOFT_RANKS names rank `r` of channel `c`. -/
def Sections.loftRank (ss : Sections) (c r : Nat) : Bool :=
  (ss.chn c).dpc != 0 && (ss.tier (ss.chn c).set).loft.testBit (4 * c + r)

/-- A rank group (R80): its channels in ascending number, the size S of R80, whether it is a Loft group (R81), and the
media address at which it starts, in chunks of 2 MiB. -/
structure Group where
  set   : Nat
  r     : Nat
  chans : List Nat
  size  : Nat
  loft  : Bool
  base  : Nat
deriving DecidableEq, Repr

/-- Index 4s + r of a rank group (R112). -/
def Group.idx (g : Group) : Nat := 4 * g.set + g.r

/-- 2 MiB chunks of a group (N × S bytes, R80). -/
def Group.chunks (g : Group) : Nat := g.chans.length * (g.size / 2097152)

/-- R80, R82: the rank groups of the populated channels that `ok` leaves in, in MA order. `h c` is the die count of
channel c. -/
def layout (ss : Sections) (h : Nat → Nat) (ok : Nat → Bool) : List Group :=
  let gs := (List.range 4).flatMap (fun set => (List.range 4).filterMap (fun r =>
    let cs := (List.range 16).filter (fun c => (ss.chn c).set == set && r < (ss.chn c).nRanks && ok c)
    match cs.map (fun c => (ss.chn c).rankBytes (h c)) with
    | [] => none
    | b :: bs =>
      let s := (bs.foldl min b) / 2097152 * 2097152
      some (⟨set, r, cs, s, cs.all (fun c => ss.loftRank c r), 0⟩ : Group)))
  (gs.foldl (fun a g => (a.1 + g.chunks, a.2 ++ [{ g with base := a.1 }])) (0, ([] : List Group))).2

/-- Every chunk of the MA space. -/
def totalChunks (gs : List Group) : Nat := (gs.map Group.chunks).sum

/-- The awake (not Loft) groups. -/
def awake (gs : List Group) : List Group := gs.filter (fun g => !g.loft)

/-- The highest-numbered awake rank of a channel, where R83 places its spare region. -/
def spareRank (gs : List Group) (c : Nat) : Option Nat :=
  ((awake gs).filter (fun g => g.chans.contains c)).map (·.r) |>.foldl (fun a r => max a (some r)) none

/-- Spare regions that fall in a group (R83). -/
def spareCount (ss : Sections) (gs : List Group) (g : Group) : Nat :=
  (g.chans.filter (fun c => (ss.chn c).spare && spareRank gs c == some g.r)).length

/-- R83: a group's share of an area of `bytes` bytes, in whole chunks. -/
def areaShare (gs : List Group) (bytes : Nat) (g : Group) : Nat :=
  let total := ((awake gs).map Group.chunks).sum
  if g.loft || total = 0 then 0 else ceilDiv (bytes * g.chunks) (total * 2097152)

/-- Bytes of the page map. -/
def Sections.mapBytes (ss : Sections) : Nat := ss.limit * 1048576

/-- R83: chunks a group must give before any excess moves: spare regions, page map, chunk table. -/
def wantReserved (ss : Sections) (gs : List Group) (g : Group) : Nat :=
  spareCount ss gs g + areaShare gs ss.mapBytes g + areaShare gs (128 * totalChunks gs) g

/-- R83: places `n` excess chunks one by one in the awake group with the most chunks left, lowest number on a tie.
The list holds (group, chunks reserved). `none`: no chunk left. -/
def placeExcess : Nat → List (Group × Nat) → Option (List (Group × Nat))
  | 0, l => some l
  | n + 1, l =>
    let left := fun (x : Group × Nat) => if x.1.loft then 0 else x.1.chunks - x.2
    let best := (l.map left).foldl max 0
    if best = 0 then none
    else
      let i := l.findIdx (fun x => left x == best)
      placeExcess n (l.modify i (fun x => (x.1, x.2 + 1)))

/-- R83: the chunks reserved at the top of each group; `none` if the areas exceed every awake chunk. -/
def reserved (ss : Sections) (gs : List Group) : Option (List (Group × Nat)) :=
  let want := gs.map (fun g => (g, if g.loft then 0 else wantReserved ss gs g))
  let excess := (want.map (fun x => x.2 - x.1.chunks)).sum
  placeExcess excess (want.map (fun x => (x.1, min x.2 x.1.chunks)))

/-- R15, with the bin's highest RATE. -/
def chnOk (ss : Sections) (maxRate : Nat) : Bool :=
  let cs := ss.chns
  byteAt (ss.get secCHN) 0 ≤ 2 &&
  cs.all (fun c => c.dpc ≤ 2 && (c.dpc == 0 ||
    ([1, 2, 4].contains c.ranks && [4, 8].contains c.width && c.dens ≤ 3 && (c.rate == 56 || c.rate == 64) &&
     c.rate ≤ maxRate && (c.dpc != 2 || c.rate ≤ 56) && c.nRanks ≤ 4 && c.set ≤ 3))) &&
  (List.range 4).all (fun set =>
    [0, 1, 2, 4, 8, 16].contains (cs.filter (fun c => c.dpc != 0 && c.set == set)).length)

/-- R17 and R81. -/
def tierOk (ss : Sections) (h : Nat → Nat) : Bool :=
  let gs := layout ss h (fun _ => true)
  let sets := (List.range 4).filter (fun set => gs.any (·.set == set))
  1 ≤ le (ss.get secTIER) 0 2 && le (ss.get secTIER) 0 2 ≤ 1000 && 1 ≤ ss.limit && ss.limit ≤ 262144 &&
  ss.tiers.all (fun t => sets.contains t.set) && distinct (ss.tiers.map (·.set)) &&
  ss.tiers.length == sets.length &&
  ss.tiers.all (fun t => (onesBelow t.loft 64).all (fun b =>
    (ss.chn (b / 4)).dpc != 0 && (ss.chn (b / 4)).set == t.set && b % 4 < (ss.chn (b / 4)).nRanks)) &&
  gs.all (fun g => g.loft || g.chans.all (fun c => !ss.loftRank c g.r)) &&
  !(awake gs).isEmpty &&
  (List.range 16).all (fun c => !((ss.chn c).dpc != 0 && (ss.chn c).spare) || (spareRank gs c).isSome) &&
  ss.tiers.all (fun t =>
    let mine := (awake gs).filter (·.set == t.set)
    t.hall + t.mezz + (mine.map (wantReserved ss gs)).sum ≤ (mine.map Group.chunks).sum)

/-! ### SPAN (Table 1-8) -/

def Sections.spanEn (ss : Sections) : Bool := byteAt (ss.get secSPAN) 0 == 1
def Sections.slot (ss : Sections) : Nat := byteAt (ss.get secSPAN) 1 % 16
/-- Span-lite. -/
def Sections.lite (ss : Sections) : Bool := byteAt (ss.get secSPAN) 2 == 1
def Sections.members (ss : Sections) : Nat := le (ss.get secSPAN) 4 2
def Sections.spanId (ss : Sections) : Nat := le (ss.get secSPAN) 8 8
/-- Peer slot of link `k`, `none` if unused. -/
def Sections.peer (ss : Sections) (k : Nat) : Option Nat :=
  let p := (slice (ss.get secSPAN) (16 + 4 * k) 1).map BitVec.toNat
  match p with
  | [x] => if x ≤ 15 then some x else none
  | _ => none
def Sections.vcs (ss : Sections) (k : Nat) : Nat := byteAt (ss.get secSPAN) (17 + 4 * k)

/-- R18. -/
def spanOk (ss : Sections) : Bool :=
  let b := ss.get secSPAN
  let links := List.range 8
  byteAt b 0 ≤ 1 && byteAt b 1 ≤ 15 && byteAt b 2 ≤ 1 &&
  links.all (fun k =>
    let p := byteAt b (16 + 4 * k)
    let v := byteAt b (17 + 4 * k)
    if p == 0xFF then v == 0
    else p ≤ 15 && 2 ≤ v && v ≤ 8 && byteAt b 0 == 1 && p != byteAt b 1 && ss.members.testBit p &&
      !(ss.unitQuads 2 k).isEmpty && (byteAt b 2 == 1 || 4 ≤ v)) &&
  (if byteAt b 0 == 1 then ss.members.testBit (byteAt b 1) else ss.members == 0 && ss.spanId == 0)

/-! ### ROUTE, PDM, TSC, CNTD, LIMO -/

/-- The runs of a ROUTE payload as (NI, NET, FIRST, entries); `none` if it does not parse. Recursion on a bound. -/
def routeRuns : Nat → Bytes → Option (List (Nat × Nat × Nat × List Nat))
  | 0, bs => if bs.isEmpty then some [] else none
  | n + 1, bs =>
    if bs.isEmpty then some []
    else
      let cnt := byteAt bs 2
      if bs.length < 8 + 8 * cnt then none
      else match routeRuns n (bs.drop (8 + 8 * cnt)) with
        | none => none
        | some rs => some ((byteAt bs 0, byteAt bs 1, byteAt bs 3,
            (pieces 8 (slice bs 8 (8 * cnt))).map leNat) :: rs)

def Sections.routes (ss : Sections) : List (Nat × Nat × Nat × List Nat) :=
  (routeRuns (ss.get secROUTE).length (ss.get secROUTE)).getD []

/-- R19, R192. -/
def routeOk (ss : Sections) : Bool :=
  ss.routes.all (fun (ni, net, first, es) => ni ≤ 40 && net ≤ 3 && 1 ≤ es.length && first + es.length ≤ 64 &&
    es.zipIdx.all (fun (e, i) => !e.testBit 40 || routeLegal ni (first + i) e))

/-- A PDM entry's (MAY_FENCE, FLOOR3_SET) for a domain; the default of Table 1-3 when the section is absent. -/
def Sections.pdm (ss : Sections) (d : Nat) : Bool × Bool :=
  if ss.has secPDM then
    let f := byteAt (ss.get secPDM) (4 * d + 1)
    (f.testBit 0, f.testBit 1)
  else (true, 24 ≤ d && d < 32)

/-- R20. -/
def pdmOk (ss : Sections) : Bool :=
  let b := ss.get secPDM
  (List.range 40).all (fun d => byteAt b (4 * d) == d && ((16 ≤ d && d < 32) || !(ss.pdm d).2)) &&
  ((List.range 40).filter (fun d => (ss.pdm d).2)).length == 8

/-- A TSC entry: master, GUAR, CEIL, LAT_NS (R21). -/
def Sections.tsc (ss : Sections) : List (Nat × Nat × Nat × Nat) :=
  (pieces 16 ((ss.get secTSC).drop 8)).map (fun b => (byteAt b 0, le b 4 4, le b 8 4, le b 12 4))

/-- Window length in µs; the default of Table 1-3 when absent. -/
def Sections.windowUs (ss : Sections) : Nat := if ss.has secTSC then le (ss.get secTSC) 0 2 else 100

/-- R21, R313. -/
def tscOk (ss : Sections) : Bool :=
  1 ≤ ss.windowUs && ss.windowUs ≤ 1000 && ss.tsc.length ≤ 96 &&
  ss.tsc.all (·.1 ≤ 90) && distinct (ss.tsc.map (·.1))

/-- Table 14-2: the event is one of the unit's. -/
def evListed (u code : Nat) : Bool :=
  code == 0 ||
    (if u < 16 then 0x40 ≤ code && code ≤ 0x48
     else if u < 32 then 0x80 ≤ code && code ≤ 0x87
     else if u < 48 then 0xC0 ≤ code && code ≤ 0xC5
     else if u < 56 then 0x100 ≤ code && code ≤ 0x104
     else if u < 60 then 0x140 ≤ code && code ≤ 0x142
     else if u = 60 then code == 0x180 || code == 0x181
     else if u = 61 then 0x1C0 ≤ code && code ≤ 0x1C2
     else if u = 62 then 0x200 ≤ code && code ≤ 0x202
     else code == 0x240 || code == 0x241)

/-- Table 14-2, column Sampling: Yes or Instruction. -/
def evSampled (code : Nat) : Bool :=
  [0x040, 0x044, 0x046, 0x047, 0x048, 0x080, 0x081, 0x0C0, 0x100, 0x101, 0x104, 0x140, 0x142, 0x180, 0x181].contains code

/-- A CNTD entry (R22). -/
structure CntEntry where
  unit   : Nat
  ctr    : Nat
  en     : Bool
  sample : Bool
  event  : Nat
  qual   : Nat
  period : Nat
deriving DecidableEq, Repr

def Sections.cntd (ss : Sections) : List CntEntry :=
  (pieces 16 (ss.get secCNTD)).map (fun b =>
    ⟨byteAt b 0, byteAt b 1, (byteAt b 2).testBit 0, (byteAt b 2).testBit 1, le b 4 2 % 1024, le b 6 2,
     le b 8 8 % 2 ^ 48⟩)

/-- R22, R328, R330. -/
def cntdOk (ss : Sections) : Bool :=
  ss.cntd.length ≤ 512 && ss.cntd.all (fun e => e.unit ≤ 63 && e.ctr ≤ 7 && evListed e.unit e.event &&
    (!e.sample || evSampled e.event)) &&
  distinct (ss.cntd.map (fun e => e.unit * 8 + e.ctr))

/-- LIMO entries: LIMIT and VALUE (R23). -/
def Sections.limo (ss : Sections) : List (Nat × Nat) :=
  (pieces 8 (ss.get secLIMO)).map (fun b => (le b 0 2, le b 4 4))

/-- The hardware bounds of Table 16-3 for the limits of Table 1-9. -/
def limoBounds (limit : Nat) : Option (Nat × Nat) :=
  match limit with
  | 1 => some (1, 336)
  | 2 => some (1, 1000)
  | 3 => some (50, 600)
  | 4 => some (50, 800)
  | 5 => some (85, 150)
  | 6 => some (1, 8000)
  | 7 => some (100, 10000)
  | _ => none

/-- Table 16-3: the default of each limit of Table 1-9, which a LIMO section may change. -/
def limitDefault (limit : Nat) : Nat :=
  match limit with
  | 1 => 336
  | 2 => 1000
  | 3 => 550
  | 4 => 800
  | 5 => 125
  | 6 => 1000
  | _ => 2000

/-- R370: the value in force of a limit of Table 1-9. -/
def Sections.limitVal (ss : Sections) (limit : Nat) : Nat :=
  match ss.limo.find? (·.1 == limit) with
  | some x => x.2
  | none => limitDefault limit

/-! ### Zero and reserved fields (check 9 of Table 1-10) -/

/-- The payload has the length and the zero fields that its type requires. -/
def payloadForm (ty : Nat) (b : Bytes) : Bool :=
  let n := b.length
  if ty = secQUAD then n == 128 && (pieces 4 b).all (fun e => byteAt e 0 < 4 && byteAt e 3 < 2)
  else if ty = secLDL then n % 16 == 0 && 16 ≤ n && n ≤ 1024 && (pieces 16 b).all (fun e => byteAt e 3 < 2)
  else if ty = secCHN then n == 136 && allZero (slice b 1 7) && 
    (pieces 8 (b.drop 8)).all (fun e => byteAt e 0 == 0 || byteAt e 7 < 2)
  else if ty = secTIER then 8 ≤ n && (n - 8) % 24 == 0 && allZero (slice b 2 2) &&
    (pieces 24 (b.drop 8)).all (fun e => allZero (slice e 1 3) && allZero (slice e 12 4))
  else if ty = secSPAN then n == 48 && byteAt b 3 == 0 && allZero (slice b 6 2) &&
    (List.range 8).all (fun k => allZero (slice b (18 + 4 * k) 2))
  else if ty = secROUTE then
    match routeRuns n b with
    | none => false
    | some rs => rs.all (fun r => r.2.2.2.all routeReservedZero) && routeHeads n b
  else if ty = secPDM then n == 160 && (pieces 4 b).all (fun e => byteAt e 1 < 4 && allZero (slice e 2 2))
  else if ty = secTSC then 8 ≤ n && (n - 8) % 16 == 0 && n ≤ 8 + 96 * 16 && allZero (slice b 2 6) &&
    (pieces 16 (b.drop 8)).all (fun e => allZero (slice e 1 3))
  else if ty = secCNTD then n % 16 == 0 && n ≤ 512 * 16 &&
    (pieces 16 b).all (fun e => byteAt e 2 < 4 && byteAt e 3 == 0 && le e 4 2 < 1024 && le e 8 8 < 2 ^ 48)
  else if ty = secLIMO then n % 8 == 0 && n ≤ 128 && (pieces 8 b).all (fun e => allZero (slice e 2 2))
  else true
where
  /-- Bytes 4–7 of every run header are zero (R19). -/
  routeHeads : Nat → Bytes → Bool
    | 0, _ => true
    | n + 1, bs => bs.isEmpty || (allZero (slice bs 4 4) && routeHeads n (bs.drop (8 + 8 * byteAt bs 2)))

/-! ### Parsing and the checks of Table 1-10 -/

/-- A section as it stands in the body. -/
structure RawSec where
  ty      : Nat
  ver     : Nat
  flags   : Nat
  payload : Bytes
deriving DecidableEq, Repr

/-- How the walk over a body ends. -/
inductive BodyEnd where
  | whole
  | badSection
  | count
deriving DecidableEq, Repr

/-- The first `n` sections of a body (`n` is SECT_COUNT), and how the walk ends: at the end of the body, at a section that
does not parse, or with sections missing or bytes left over (R24). -/
def parseBody : Nat → Bytes → List RawSec × BodyEnd
  | 0, bs => ([], if bs.isEmpty then .whole else .count)
  | n + 1, bs =>
    if bs.isEmpty then ([], .count)
    else
      let len := le bs 4 4
      if bs.length < 8 + len || len % 8 != 0 then ([], .badSection)
      else
        let r := parseBody n (bs.drop (8 + len))
        (⟨le bs 0 2, byteAt bs 2, byteAt bs 3, slice bs 8 len⟩ :: r.1, r.2)

/-- R11: the controller knows the type and the version. -/
def RawSec.known (s : RawSec) : Bool := (secClass s.ty).isSome && s.ver == 1

/-- What the checks need of the machine: the rollback floor, the bin (0x64 or 0x56), the admitted key X ‖ Y, whether
that key is the owner's, and the die counts. -/
structure ImgCtx where
  minSeq : Nat
  bin    : Nat
  key    : Bytes
  owner  : Bool
  dies   : List Nat

/-- The result of verification: code, position of the failing section, sections kept, sections skipped. -/
structure ImgResult where
  code    : Nat
  pos     : Nat
  secs    : Sections
  skipped : Nat
deriving DecidableEq, Repr

def ImgResult.bad (code : Nat) (pos : Nat := 0) : ImgResult := ⟨code, pos, [], 0⟩

/-- Highest RATE of the bin (R15). -/
def binRate (bin : Nat) : Nat := if bin = 0x64 then 64 else 56

/-- Position of the first section of a type in the body. -/
def posOf (rs : List RawSec) (ty : Nat) : Nat := rs.findIdx (·.ty == ty)

/-- Checks 9 to 12 over the parsed body. -/
def verifySecs (c : ImgCtx) (rs : List RawSec) : ImgResult :=
  match rs.findIdx? (fun r => 8 ≤ r.flags || (r.known && !payloadForm r.ty r.payload)) with
  | some i => .bad 0x20 i
  | none =>
  match rs.findIdx? (fun r => !r.known && r.flags % 2 == 0) with
  | some i => .bad 0x21 i
  | none =>
  match rs.zipIdx.findIdx? (fun x => (rs.take x.2).any (·.ty == x.1.ty)) with
  | some i => .bad 0x22 i
  | none =>
  let kept := rs.filter (·.known)
  let ss : Sections := kept.map (fun r => (r.ty, r.payload))
  if [secQUAD, secLDL, secCHN, secTIER, secSPAN].any (fun t => !ss.has t) then .bad 0x23
  else
  match rs.findIdx? (fun r => r.known && some (r.flags / 2 % 4) != secClass r.ty) with
  | some i => .bad 0x24 i
  | none =>
  let h := fun ch => c.dies.getD ch 1
  if !quadOk ss then .bad 0x30 (posOf rs secQUAD)
  else if !ldlOk ss then .bad 0x30 (posOf rs secLDL)
  else if !chnOk ss (binRate c.bin) then .bad 0x30 (posOf rs secCHN)
  else if !tierOk ss h then .bad 0x30 (posOf rs secTIER)
  else if !spanOk ss then .bad 0x30 (posOf rs secSPAN)
  else if ss.has secROUTE && !routeOk ss then .bad 0x30 (posOf rs secROUTE)
  else if ss.has secPDM && !pdmOk ss then .bad 0x30 (posOf rs secPDM)
  else if ss.has secTSC && !tscOk ss then .bad 0x30 (posOf rs secTSC)
  else if ss.has secCNTD && !cntdOk ss then .bad 0x30 (posOf rs secCNTD)
  else if ss.has secLIMO && !(distinct (ss.limo.map (·.1)) && ss.limo.all (fun x => (limoBounds x.1).isSome)) then
    .bad 0x30 (posOf rs secLIMO)
  else if ss.has secLIMO && !(c.owner && ss.limo.all (fun x =>
      match limoBounds x.1 with
      | some (lo, hi) => lo ≤ x.2 && x.2 ≤ hi
      | none => false)) then .bad 0x31 (posOf rs secLIMO)
  else ⟨0x00, 0, ss, rs.length - kept.length⟩

/-- R24: the checks of Table 1-10 in order. -/
def verifyImage (c : ImgCtx) (img : Bytes) : ImgResult :=
  let len := le img 8 4
  if slice img 0 4 != [0x59, 0x53, 0x49, 0x31] then .bad 0x10
  else if byteAt img 5 != 1 || le img 6 2 != 0x100 || 4 ≤ byteAt img 0x22 || byteAt img 0x23 != 0
      || !allZero (slice img 0x26 10) || !allZero (slice img 0xC0 64) then .bad 0x11
  else if len < 0x100 || 0x100000 < len || len % 16 != 0 || len != img.length then .bad 0x12
  else if le img 0x20 2 != 0x6416 || !(byteAt img 0x22).testBit (if c.bin = 0x64 then 0 else 1) then .bad 0x13
  else if le img 0xC 4 < c.minSeq then .bad 0x15
  else if c.key.isEmpty || slice img 0x10 16 != keyId c.key then .bad 0x16
  else
  let dig := sha384 (slice img 0 0x30 ++ img.drop 0xC0)
  if slice img 0x30 48 != dig then .bad 0x17
  else if !ecdsaVerify c.key dig (slice img 0x60 96) then .bad 0x18
  else
  let r := parseBody (le img 0x24 2) (img.drop 0x100)
  match r.2 with
  | .badSection => .bad 0x20 r.1.length
  | .count => .bad 0x20
  | .whole => verifySecs c r.1

/-- R27, R12: the section types that differ between two structures. -/
def changedSecs (a b : Sections) : List Nat :=
  [secQUAD, secLDL, secCHN, secTIER, secSPAN, secROUTE, secPDM, secTSC, secCNTD, secLIMO].filter
    (fun t => a.has t != b.has t || a.get t != b.get t)

/-- R26: the recovery structure on the strapped slot. -/
def recoverySecs (slot : Nat) : Sections :=
  let q : Bytes := [1, 0, 4, 0]
  [(secQUAD, q ++ q ++ q ++ q ++ List.replicate 112 0),
   (secLDL, List.replicate 16 0),
   (secCHN, List.replicate 136 0),
   (secTIER, [100, 0, 0, 0, 0, 0, 0, 0]),
   (secSPAN, [0, BitVec.ofNat 8 slot, 0, 0] ++ List.replicate 12 0 ++
     (List.range 8).flatMap (fun _ => [0xFF, 0, 0, 0]))]

end Sys2Proof.Machine
end

