-- ==== Sys2Proof/Machine/RegTypes.lean ====
section
/-!
DEFINITION. The shape of a register field: where it stands in BAR0, its access type (Table 0-5), its reset value and
its reset domain (Table 0-6).
-/

namespace Sys2Proof.Machine

/-- Table 0-5: the access types. -/
inductive Acc where
  | rw | ro | wo | rc | w1c | w1s | rwl | rws
deriving DecidableEq, Repr

/-- Table 0-6: the reset domains. `nvs`: the field lives in the nonvolatile store and no reset clears it.
`inlet`: the field lives on the inlet die, which R426 resets when VSTBY12 rises. -/
inductive Dom where
  | warm | cold | nvs | inlet
deriving DecidableEq, Repr

/-- What a field holds at its reset: a number, the number of its block copy (HOM_CFG.HOME), one of the two hardware
tables of R210 and R325, a hardware constant that the spec does not state, or a route of the boot ROM (R19). -/
inductive Rst where
  | val (v : Nat)
  | inst
  | wakeNs
  /-- R268: the HID of DIMM d of a channel: 2 × (c mod 4) + d. -/
  | hid
  | rtMaster
  | hardware
  | route
deriving DecidableEq, Repr

/-- The register blocks of the Register index. `span` is the part of the Catwalk block that exists in copy 0 only, and
`cntu` the 64 counter units at the start of the counter block. -/
inductive Blk where
  | gen | str | tim | prt | cwk | span | noc | hom | map | key | drc | gal | crq | tst | cntu | cnt | pwr | sec
  | dbg | fwc | ras
deriving DecidableEq, Repr

/-- BAR0 offset of the first copy of the block (Register index). -/
def Blk.base : Blk → Nat
  | .gen => 0x0000000 | .str => 0x0100000 | .tim => 0x0200000 | .prt => 0x0400000
  | .cwk => 0x0600000 | .span => 0x0600000 | .noc => 0x0800000 | .hom => 0x0A00000
  | .map => 0x0C00000 | .key => 0x0E00000 | .drc => 0x1000000 | .gal => 0x1400000
  | .crq => 0x1800000 | .tst => 0x1C00000 | .cntu => 0x1D00000 | .cnt => 0x1D00000
  | .pwr => 0x1E00000 | .sec => 0x1F00000 | .dbg => 0x1F80000 | .fwc => 0x2000000 | .ras => 0x2100000

/-- How many copies of the block there are. -/
def Blk.copies : Blk → Nat
  | .prt => 16 | .cwk => 8 | .hom => 16 | .drc => 16 | .gal => 16 | .crq => 1024 | .cntu => 64
  | _ => 1

/-- The distance between the copies of a block. -/
def Blk.stride : Blk → Nat
  | .prt => 0x10000 | .cwk => 0x10000 | .hom => 0x10000 | .drc => 0x20000 | .gal => 0x10000
  | .crq => 0x1000 | .cntu => 0x200
  | _ => 0

/-- One field of a register. A field of a register that stands `n` times in its block has the copies
`off + stride * j` for `j < n`. -/
structure Field where
  blk    : Blk
  off    : Nat
  n      : Nat
  stride : Nat
  hi     : Nat
  lo     : Nat
  acc    : Acc
  reset  : Rst
  dom    : Dom
deriving DecidableEq, Repr

end Sys2Proof.Machine
end

