-- ==== Sys2Proof/Machine/Fields.lean ====
section
/-!
DEFINITION. The field of every register of BAR0, one definition each, from the register tables of the spec's
chapters: block, offset in the block, number of copies and their stride, bit range, access type (Table 0-5),
reset value and reset domain (Table 0-6). The lists at the end are the whole register map.
-/

namespace Sys2Proof.Machine.F

/-- Table 1-16, R32: 1: mailbox loads permitted (R31) -/
def STR_CTL_MBX_LOAD_EN : Field := ⟨.str, 0x0, 1, 0x0, 1, 1, .rwl, .val 1, .warm⟩
/-- Table 1-16, R32: 1: RWL fields of the STR block locked until WARM reset -/
def STR_CTL_LOCK : Field := ⟨.str, 0x0, 1, 0x0, 0, 0, .w1s, .val 0, .warm⟩
/-- Table 1-17, R32: Body position of the failing section, 255 for position 255 or above (R24) -/
def STR_STATUS_SECTION : Field := ⟨.str, 0x8, 1, 0x0, 31, 24, .ro, .val 0, .warm⟩
/-- Table 1-17, R32: Source of the last load: 0 flash, 1 mailbox -/
def STR_STATUS_SRC : Field := ⟨.str, 0x8, 1, 0x0, 19, 19, .ro, .val 0, .warm⟩
/-- Table 1-17, R32: Slot booted at the last WARM reset: 0 A, 1 B -/
def STR_STATUS_RUN_SLOT : Field := ⟨.str, 0x8, 1, 0x0, 18, 18, .ro, .val 0, .warm⟩
/-- Table 1-17, R32: Persisted RESET changes await a WARM reset -/
def STR_STATUS_RESET_PENDING : Field := ⟨.str, 0x8, 1, 0x0, 17, 17, .ro, .val 0, .warm⟩
/-- Table 1-17, R32: Running the recovery structure (R25, R26, R83) -/
def STR_STATUS_RECOVERY : Field := ⟨.str, 0x8, 1, 0x0, 16, 16, .ro, .val 0, .warm⟩
/-- Table 1-17, R32: Result of the last load (Table 1-10 and R29 to R31) -/
def STR_STATUS_RESULT : Field := ⟨.str, 0x8, 1, 0x0, 15, 8, .ro, .val 0, .warm⟩
/-- Table 1-17, R32: 0 IDLE, 1 VERIFY, 2 DRAIN, 3 COMMIT, 4 PERSIST -/
def STR_STATUS_STATE : Field := ⟨.str, 0x8, 1, 0x0, 2, 0, .ro, .val 0, .warm⟩
/-- Table 1-18, R32: SEQ of the running image; 0 in recovery -/
def STR_RUN_SEQ_SEQ : Field := ⟨.str, 0x10, 1, 0x0, 31, 0, .ro, .val 0, .warm⟩
/-- Table 1-19, R32: DIGEST of the running image; instance n holds bytes 8n to 8n + 7 of the digest -/
def STR_RUN_DIGEST_DIGEST : Field := ⟨.str, 0x20, 6, 0x8, 63, 0, .ro, .val 0, .warm⟩
/-- Table 1-20, R32: Lowest SEQ accepted. A write that lowers the value, or that raises it above the SEQ of every valid slot, is ignored (R30) (reset: NVS) -/
def STR_MINSEQ_MINSEQ : Field := ⟨.str, 0x50, 1, 0x0, 31, 0, .rws, .val 0, .nvs⟩
/-- Table 1-21, R32: Slot B passed checks 1–12 at the last WARM reset or persist -/
def STR_BOOT_SLOT_B_VALID : Field := ⟨.str, 0x58, 1, 0x0, 2, 2, .ro, .val 0, .warm⟩
/-- Table 1-21, R32: Slot A passed checks 1–12 at the last WARM reset or persist -/
def STR_BOOT_SLOT_A_VALID : Field := ⟨.str, 0x58, 1, 0x0, 1, 1, .ro, .val 0, .warm⟩
/-- Table 1-21, R32: Slot tried first: 0 A, 1 B (reset: NVS) -/
def STR_BOOT_PREF_SLOT : Field := ⟨.str, 0x58, 1, 0x0, 0, 0, .rws, .val 0, .nvs⟩
/-- Table 1-22, R32: Drain limit in µs, 100–16,000,000; a write below 100 sets 100 -/
def STR_QTIMEOUT_QTIMEOUT : Field := ⟨.str, 0x60, 1, 0x0, 23, 0, .rwl, .val 0x2710, .warm⟩
/-- Table 1-22, R32: Optional sections skipped in the running image -/
def STR_SKIPPED_SKIPPED : Field := ⟨.str, 0x68, 1, 0x0, 7, 0, .ro, .val 0, .warm⟩
/-- Table 1-22, R32: Raise an interrupt on REJECT -/
def STR_IRQ_REJECT_EN : Field := ⟨.str, 0x70, 1, 0x0, 17, 17, .rw, .val 0, .warm⟩
/-- Table 1-22, R32: Raise an interrupt on DONE -/
def STR_IRQ_DONE_EN : Field := ⟨.str, 0x70, 1, 0x0, 16, 16, .rw, .val 0, .warm⟩
/-- Table 1-22, R32: A load ended with a RESULT other than 0x00 or 0x01 -/
def STR_IRQ_REJECT : Field := ⟨.str, 0x70, 1, 0x0, 1, 1, .w1c, .val 0, .warm⟩
/-- Table 1-22, R32: A load ended with 0x00 or 0x01 -/
def STR_IRQ_DONE : Field := ⟨.str, 0x70, 1, 0x0, 0, 0, .w1c, .val 0, .warm⟩
/-- Table 1-23, R32: Body position of the failing section, counting from 0, for every position up to SECT_COUNT − 1 (R24) -/
def STR_FAIL_POSITION : Field := ⟨.str, 0x78, 1, 0x0, 15, 0, .ro, .val 0, .warm⟩

/-- Table 2-10, R54: 1: small offsets are slewed (R47) -/
def TIM_CTL_SLEW_EN : Field := ⟨.tim, 0x0, 1, 0x0, 2, 2, .rwl, .val 1, .warm⟩
/-- Table 2-10, R54: 1: the controller die answers queries (R40) -/
def TIM_CTL_ANSWER_EN : Field := ⟨.tim, 0x0, 1, 0x0, 1, 1, .rwl, .val 1, .warm⟩
/-- Table 2-10, R54: Locks RWL fields until WARM reset -/
def TIM_CTL_LOCK : Field := ⟨.tim, 0x0, 1, 0x0, 0, 0, .w1s, .val 0, .warm⟩
/-- Table 2-11, R54: Steps since COLD reset; wraps -/
def TIM_STATUS_STEP_CNT : Field := ⟨.tim, 0x8, 1, 0x0, 31, 16, .ro, .val 0, .cold⟩
/-- Table 2-11, R54: R41 -/
def TIM_STATUS_SLOT_MISMATCH : Field := ⟨.tim, 0x8, 1, 0x0, 7, 7, .ro, .val 0, .warm⟩
/-- Table 2-11, R54: R47 -/
def TIM_STATUS_SLEWING : Field := ⟨.tim, 0x8, 1, 0x0, 6, 6, .ro, .val 0, .cold⟩
/-- Table 2-11, R54: FTYPE of the last valid frame -/
def TIM_STATUS_FTYPE : Field := ⟨.tim, 0x8, 1, 0x0, 5, 4, .ro, .val 0, .cold⟩
/-- Table 2-11, R54: 0 ABSENT, 1 ACQUIRE, 2 LOCKED, 3 HOLDOVER -/
def TIM_STATUS_SYNC : Field := ⟨.tim, 0x8, 1, 0x0, 3, 2, .ro, .val 0, .cold⟩
/-- Table 2-11, R54: TALLY_CLK edges present -/
def TIM_STATUS_TALLY_PRESENT : Field := ⟨.tim, 0x8, 1, 0x0, 1, 1, .ro, .val 0, .cold⟩
/-- Table 2-11, R54: Table 2-6 -/
def TIM_STATUS_ST_UNSYNC : Field := ⟨.tim, 0x8, 1, 0x0, 0, 0, .ro, .val 1, .cold⟩
/-- Table 2-12, R54: ST when the read reaches the block -/
def TIM_ST_ST : Field := ⟨.tim, 0x10, 1, 0x0, 63, 0, .ro, .val 0, .cold⟩
/-- Table 2-12, R54: In ABSENT only: loads ST as a step. Ignored in other states -/
def TIM_ST_LOAD_ST : Field := ⟨.tim, 0x18, 1, 0x0, 63, 0, .wo, .val 0, .cold⟩
/-- Table 2-12, R54: Factory receiver delay in ps (reset: NVS) -/
def TIM_DELAY_RECV_PS : Field := ⟨.tim, 0x20, 1, 0x0, 31, 16, .ro, .val 0, .warm⟩
/-- Table 2-12, R54: Slot propagation delay in ps (reset: NVS) -/
def TIM_DELAY_DELAY_PS : Field := ⟨.tim, 0x20, 1, 0x0, 15, 0, .rw, .val 0, .warm⟩
/-- Table 2-12, R54: Signed size of the last step in ST units -/
def TIM_LAST_STEP_D : Field := ⟨.tim, 0x28, 1, 0x0, 63, 0, .ro, .val 0, .cold⟩
/-- Table 2-12, R54: FW_BIT condition -/
def TIM_QCFG_FW_BIT : Field := ⟨.tim, 0x30, 1, 0x0, 16, 16, .rw, .val 0, .warm⟩
/-- Table 2-12, R54: THERMAL_HIGH threshold in °C -/
def TIM_QCFG_THERM_HIGH : Field := ⟨.tim, 0x30, 1, 0x0, 15, 8, .rw, .val 95, .warm⟩
/-- Table 2-12, R54: DEMAND threshold floor -/
def TIM_QCFG_DEMAND_FLOOR : Field := ⟨.tim, 0x30, 1, 0x0, 2, 0, .rw, .val 1, .warm⟩
/-- Table 2-12, R54: Last command acted on -/
def TIM_LAST_CMD_ARG : Field := ⟨.tim, 0x38, 1, 0x0, 63, 16, .ro, .val 0, .warm⟩
/-- Table 2-12, R54: -/
def TIM_LAST_CMD_BCAST : Field := ⟨.tim, 0x38, 1, 0x0, 8, 8, .ro, .val 0, .warm⟩
/-- Table 2-12, R54: -/
def TIM_LAST_CMD_TARGET : Field := ⟨.tim, 0x38, 1, 0x0, 7, 4, .ro, .val 0, .warm⟩
/-- Table 2-12, R54: -/
def TIM_LAST_CMD_OP : Field := ⟨.tim, 0x38, 1, 0x0, 3, 0, .ro, .val 0, .warm⟩
/-- Table 2-12, R54: Cap in force -/
def TIM_FLOORCAP_MIN_FLOOR : Field := ⟨.tim, 0x40, 1, 0x0, 2, 0, .ro, .val 0, .warm⟩
/-- Table 2-12, R54: Saturating count -/
def TIM_ERR_CMD_REFUSED : Field := ⟨.tim, 0x48, 1, 0x0, 63, 48, .rc, .val 0, .warm⟩
/-- Table 2-12, R54: Saturating count -/
def TIM_ERR_LOSS : Field := ⟨.tim, 0x48, 1, 0x0, 47, 32, .rc, .val 0, .warm⟩
/-- Table 2-12, R54: Saturating count -/
def TIM_ERR_HDR_MISMATCH : Field := ⟨.tim, 0x48, 1, 0x0, 31, 16, .rc, .val 0, .warm⟩
/-- Table 2-12, R54: Saturating count -/
def TIM_ERR_CMD_PARITY : Field := ⟨.tim, 0x48, 1, 0x0, 15, 0, .rc, .val 0, .warm⟩
/-- Table 2-12, R54: Interrupt enable for bits [4:0] -/
def TIM_IRQ_EN : Field := ⟨.tim, 0x50, 1, 0x0, 20, 16, .rw, .val 0, .warm⟩
/-- Table 2-12, R54: A calendar entry fired LATE -/
def TIM_IRQ_CAL_LATE : Field := ⟨.tim, 0x50, 1, 0x0, 4, 4, .w1c, .val 0, .warm⟩
/-- Table 2-12, R54: R41 -/
def TIM_IRQ_SLOT_MISMATCH : Field := ⟨.tim, 0x50, 1, 0x0, 3, 3, .w1c, .val 0, .warm⟩
/-- Table 2-12, R54: R47 -/
def TIM_IRQ_STEP : Field := ⟨.tim, 0x50, 1, 0x0, 2, 2, .w1c, .val 0, .warm⟩
/-- Table 2-12, R54: LOCKED entered -/
def TIM_IRQ_LOCKED : Field := ⟨.tim, 0x50, 1, 0x0, 1, 1, .w1c, .val 0, .warm⟩
/-- Table 2-12, R54: R48 -/
def TIM_IRQ_LOST : Field := ⟨.tim, 0x50, 1, 0x0, 0, 0, .w1c, .val 0, .warm⟩
/-- Table 2-13, R54: Window length in µs, for actions 0x02–0x04 -/
def TIM_CAL_CTL_DURATION : Field := ⟨.tim, 0x1000, 64, 0x20, 63, 32, .rw, .val 0, .warm⟩
/-- Table 2-13, R54: Table 2-9 -/
def TIM_CAL_CTL_TARGET : Field := ⟨.tim, 0x1000, 64, 0x20, 23, 16, .rw, .val 0, .warm⟩
/-- Table 2-13, R54: Table 2-9; R53 -/
def TIM_CAL_CTL_ACTION : Field := ⟨.tim, 0x1000, 64, 0x20, 15, 8, .rw, .val 0, .warm⟩
/-- Table 2-13, R54: Interrupt on firing -/
def TIM_CAL_CTL_IRQ_EN : Field := ⟨.tim, 0x1000, 64, 0x20, 2, 2, .rw, .val 0, .warm⟩
/-- Table 2-13, R54: 0 off, 1 one-shot, 2 periodic, 3 treated as off -/
def TIM_CAL_CTL_MODE : Field := ⟨.tim, 0x1000, 64, 0x20, 1, 0, .rw, .val 0, .warm⟩
/-- Table 2-13, R54: One-shot ST, or periodic PHASE below PERIOD -/
def TIM_CAL_TIME_TIME : Field := ⟨.tim, 0x1008, 64, 0x20, 63, 0, .rw, .val 0, .warm⟩
/-- Table 2-13, R54: ST units, 2,000 to 2^48 − 2; a periodic entry with PERIOD below 2,000 does not fire -/
def TIM_CAL_PERIOD_PERIOD : Field := ⟨.tim, 0x1010, 64, 0x20, 47, 0, .rw, .val 0, .warm⟩
/-- Table 2-13, R54: Occurrences skipped or suppressed (R50), and entry 63 snapshots replaced before firing (Table 2-7) -/
def TIM_CAL_STAT_MISSED : Field := ⟨.tim, 0x1018, 64, 0x20, 63, 32, .rc, .val 0, .warm⟩
/-- Table 2-13, R54: Firings, saturating -/
def TIM_CAL_STAT_FIRED : Field := ⟨.tim, 0x1018, 64, 0x20, 31, 16, .rc, .val 0, .warm⟩
/-- Table 2-13, R54: Fired late (R51, R50) -/
def TIM_CAL_STAT_LATE : Field := ⟨.tim, 0x1018, 64, 0x20, 1, 1, .w1c, .val 0, .warm⟩
/-- Table 2-13, R54: Window open -/
def TIM_CAL_STAT_OPEN : Field := ⟨.tim, 0x1018, 64, 0x20, 0, 0, .ro, .val 0, .warm⟩

/-- Table 3-5, R79: Station Pn holding the port (reset: image) -/
def PRT_CFG_STATION : Field := ⟨.prt, 0x0, 1, 0x0, 18, 16, .ro, .val 0, .warm⟩
/-- Table 3-5, R79: 0 x4, 1 x8, 2 x16 (reset: image) -/
def PRT_CFG_UNIT_WIDTH : Field := ⟨.prt, 0x0, 1, 0x0, 13, 12, .ro, .val 0, .warm⟩
/-- Table 3-5, R79: SPEED code of Table 1-4 (reset: image) -/
def PRT_CFG_SPEED_CAP : Field := ⟨.prt, 0x0, 1, 0x0, 10, 8, .ro, .val 0, .warm⟩
/-- Table 3-5, R79: From QUAD (reset: image) -/
def PRT_CFG_LANE_REV : Field := ⟨.prt, 0x0, 1, 0x0, 4, 4, .ro, .val 0, .warm⟩
/-- Table 3-5, R79: From LDL (reset: image) -/
def PRT_CFG_MLD : Field := ⟨.prt, 0x0, 1, 0x0, 1, 1, .ro, .val 0, .warm⟩
/-- Table 3-5, R79: Port defined in QUAD (reset: image) -/
def PRT_CFG_PRESENT : Field := ⟨.prt, 0x0, 1, 0x0, 0, 0, .ro, .val 0, .warm⟩
/-- Table 3-6, R79: Logical lane declared failed (R72) -/
def PRT_LINK_FAILED_LANE : Field := ⟨.prt, 0x8, 1, 0x0, 23, 20, .ro, .val 0, .warm⟩
/-- Table 3-6, R79: Running at half width after a lane failure -/
def PRT_LINK_DEGRADED : Field := ⟨.prt, 0x8, 1, 0x0, 16, 16, .ro, .val 0, .warm⟩
/-- Table 3-6, R79: L0p negotiated -/
def PRT_LINK_L0P_EN : Field := ⟨.prt, 0x8, 1, 0x0, 15, 15, .ro, .val 0, .warm⟩
/-- Table 3-6, R79: 0: 68-byte flit, 1: 256-byte flit -/
def PRT_LINK_FLIT : Field := ⟨.prt, 0x8, 1, 0x0, 14, 14, .ro, .val 0, .warm⟩
/-- Table 3-6, R79: 0 down, 1 x1, 2 x2, 3 x4, 4 x8, 5 x16 -/
def PRT_LINK_WIDTH : Field := ⟨.prt, 0x8, 1, 0x0, 11, 8, .ro, .val 0, .warm⟩
/-- Table 3-6, R79: SPEED code of Table 1-4 -/
def PRT_LINK_RATE : Field := ⟨.prt, 0x8, 1, 0x0, 6, 4, .ro, .val 0, .warm⟩
/-- Table 3-6, R79: CXL.cachemem IDE stream secure -/
def PRT_LINK_IDE_ON : Field := ⟨.prt, 0x8, 1, 0x0, 1, 1, .ro, .val 0, .warm⟩
/-- Table 3-6, R79: Link active -/
def PRT_LINK_UP : Field := ⟨.prt, 0x8, 1, 0x0, 0, 0, .ro, .val 0, .warm⟩
/-- Table 3-7, R79: 1: L0p advertised at training -/
def PRT_CTL_L0P_ALLOW : Field := ⟨.prt, 0x10, 1, 0x0, 2, 2, .rwl, .val 1, .warm⟩
/-- Table 3-7, R79: 1: R72 active; 0: a failed lane only raises LANE_FAIL -/
def PRT_CTL_LANEFAIL_EN : Field := ⟨.prt, 0x10, 1, 0x0, 1, 1, .rwl, .val 1, .warm⟩
/-- Table 3-7, R79: Locks RWL fields until WARM reset -/
def PRT_CTL_LOCK : Field := ⟨.prt, 0x10, 1, 0x0, 0, 0, .w1s, .val 0, .warm⟩
/-- Table 3-8, R79: Reads now stalled, 0–32 -/
def PRT_STALL_PEND : Field := ⟨.prt, 0x18, 1, 0x0, 23, 16, .ro, .val 0, .warm⟩
/-- Table 3-8, R79: Stall limit in ns, 100–40,000. A write below 100 sets 100, and a write above 40,000 sets 40,000 -/
def PRT_STALL_STALL_NS : Field := ⟨.prt, 0x18, 1, 0x0, 15, 0, .rw, .val 0x3E8, .warm⟩
/-- Table 3-9, R79: Decoded no-snoop half; 0xFFFF_FFFF no requirement -/
def PRT_LTR_NOSNOOP_NS : Field := ⟨.prt, 0x20, 1, 0x0, 63, 32, .ro, .val 0, .warm⟩
/-- Table 3-9, R79: Decoded snoop half; 0xFFFF_FFFF no requirement -/
def PRT_LTR_SNOOP_NS : Field := ⟨.prt, 0x20, 1, 0x0, 31, 0, .ro, .val 0, .warm⟩
/-- Table 3-10, R79: Lanes declared failed; saturating -/
def PRT_ERR_LANE_FAIL : Field := ⟨.prt, 0x30, 1, 0x0, 63, 48, .rc, .val 0, .warm⟩
/-- Table 3-10, R79: Link-layer retries; saturating -/
def PRT_ERR_REPLAY : Field := ⟨.prt, 0x30, 1, 0x0, 47, 32, .rc, .val 0, .warm⟩
/-- Table 3-10, R79: Unmapped accesses (R60); saturating -/
def PRT_ERR_UNMAPPED : Field := ⟨.prt, 0x30, 1, 0x0, 31, 16, .rc, .val 0, .warm⟩
/-- Table 3-10, R79: Protocol errors (Tables 3-2 and 3-3); saturating -/
def PRT_ERR_PROTO : Field := ⟨.prt, 0x30, 1, 0x0, 15, 0, .rc, .val 0, .warm⟩
/-- Table 3-10, R79: Interrupt enable for bits [3:0] -/
def PRT_IRQ_EN : Field := ⟨.prt, 0x38, 1, 0x0, 19, 16, .rw, .val 0, .warm⟩
/-- Table 3-10, R79: A lane was declared failed -/
def PRT_IRQ_LANE_FAIL : Field := ⟨.prt, 0x38, 1, 0x0, 3, 3, .w1c, .val 0, .warm⟩
/-- Table 3-10, R79: The link left the active state -/
def PRT_IRQ_LINK_DOWN : Field := ⟨.prt, 0x38, 1, 0x0, 2, 2, .w1c, .val 0, .warm⟩
/-- Table 3-10, R79: An unmapped access occurred -/
def PRT_IRQ_UNMAPPED : Field := ⟨.prt, 0x38, 1, 0x0, 1, 1, .w1c, .val 0, .warm⟩
/-- Table 3-10, R79: A protocol error occurred -/
def PRT_IRQ_PROTO : Field := ⟨.prt, 0x38, 1, 0x0, 0, 0, .w1c, .val 0, .warm⟩
/-- Table 3-11, R79: 1: OVR_NS is the LD's tolerance -/
def PRT_LD_OVR_OVR_EN : Field := ⟨.prt, 0x100, 16, 0x10, 32, 32, .rw, .val 0, .warm⟩
/-- Table 3-11, R79: Override tolerance in ns -/
def PRT_LD_OVR_OVR_NS : Field := ⟨.prt, 0x100, 16, 0x10, 31, 0, .rw, .val 0, .warm⟩
/-- Table 3-11, R79: LD number of the slot (reset: image) -/
def PRT_LD_STAT_LD_ID : Field := ⟨.prt, 0x108, 16, 0x10, 45, 40, .ro, .val 0, .warm⟩
/-- Table 3-11, R79: LD runs HDM-DB (R66) -/
def PRT_LD_STAT_BI_ON : Field := ⟨.prt, 0x108, 16, 0x10, 33, 33, .ro, .val 0, .warm⟩
/-- Table 3-11, R79: Active under R75 -/
def PRT_LD_STAT_ACTIVE : Field := ⟨.prt, 0x108, 16, 0x10, 32, 32, .ro, .val 0, .warm⟩
/-- Table 3-11, R79: Effective tolerance (R75) -/
def PRT_LD_STAT_TOL_NS : Field := ⟨.prt, 0x108, 16, 0x10, 31, 0, .ro, .val 0, .warm⟩

/-- Table 4-9, R112: 1: write every modified map line to DRAM -/
def MAP_CTL_FLUSH : Field := ⟨.map, 0x0, 1, 0x0, 3, 3, .wo, .val 0, .warm⟩
/-- Table 4-9, R112: R93 -/
def MAP_CTL_PARTNER_EN : Field := ⟨.map, 0x0, 1, 0x0, 2, 2, .rwl, .val 1, .warm⟩
/-- Table 4-9, R112: R91 -/
def MAP_CTL_AGE_EN : Field := ⟨.map, 0x0, 1, 0x0, 1, 1, .rw, .val 1, .warm⟩
/-- Table 4-9, R112: Locks RWL fields until WARM reset -/
def MAP_CTL_LOCK : Field := ⟨.map, 0x0, 1, 0x0, 0, 0, .w1s, .val 0, .warm⟩
/-- Table 4-10, R112: Initialisation under way (R88) -/
def MAP_STATUS_INIT_BUSY : Field := ⟨.map, 0x8, 1, 0x0, 1, 1, .ro, .val 1, .warm⟩
/-- Table 4-10, R112: Map initialised -/
def MAP_STATUS_READY : Field := ⟨.map, 0x8, 1, 0x0, 0, 0, .ro, .val 0, .warm⟩
/-- Table 4-11, R112: Writes now held -/
def MAP_HOLD_HELD : Field := ⟨.map, 0x10, 1, 0x0, 41, 32, .ro, .val 0, .warm⟩
/-- Table 4-11, R112: Space-hold limit in µs (R111) (reset: image) -/
def MAP_HOLD_HOLD_US : Field := ⟨.map, 0x10, 1, 0x0, 9, 0, .rw, .val 0, .warm⟩
/-- Table 4-11, R112: Writes dropped (R109); saturating -/
def MAP_HOLD_STAT_EXPIRED : Field := ⟨.map, 0x18, 1, 0x0, 63, 32, .rc, .val 0, .warm⟩
/-- Table 4-11, R112: Writes ever held; saturating -/
def MAP_HOLD_STAT_HELD_TOTAL : Field := ⟨.map, 0x18, 1, 0x0, 31, 0, .rc, .val 0, .warm⟩
/-- Table 4-12, R112: Sweep under way -/
def MAP_AGE_CTL_BUSY : Field := ⟨.map, 0x20, 1, 0x0, 1, 1, .ro, .val 0, .warm⟩
/-- Table 4-12, R112: Starts a sweep. Reads 1 while the sweep runs, and the hardware clears it when the sweep ends (R91) -/
def MAP_AGE_CTL_SWEEP : Field := ⟨.map, 0x20, 1, 0x0, 0, 0, .w1s, .val 0, .warm⟩
/-- Table 4-12, R112: Page index for MAP_PME_OP -/
def MAP_PME_IDX_PAGE : Field := ⟨.map, 0x30, 1, 0x0, 33, 0, .rw, .val 0, .warm⟩
/-- Table 4-12, R112: Last operation ended -/
def MAP_PME_OP_DONE : Field := ⟨.map, 0x38, 1, 0x0, 31, 31, .ro, .val 0, .warm⟩
/-- Table 4-12, R112: 0 OK, 1 beyond LOGICAL_LIMIT, 2 PME lost -/
def MAP_PME_OP_RESULT : Field := ⟨.map, 0x38, 1, 0x0, 30, 28, .ro, .val 0, .warm⟩
/-- Table 4-12, R112: Value for OP 5 -/
def MAP_PME_OP_AGE : Field := ⟨.map, 0x38, 1, 0x0, 15, 8, .rw, .val 0, .warm⟩
/-- Table 4-12, R112: 1 read, 2 set PIN, 3 clear PIN, 4 set POISON, 5 write AGE; others ignored. Passes through the page's slice -/
def MAP_PME_OP_OP : Field := ⟨.map, 0x38, 1, 0x0, 2, 0, .wo, .val 0, .warm⟩
/-- Table 4-12, R112: PME bits [63:0] of the last read -/
def MAP_PME_LO_PME : Field := ⟨.map, 0x40, 1, 0x0, 63, 0, .ro, .val 0, .warm⟩
/-- Table 4-12, R112: PME bits [127:64] of the last read -/
def MAP_PME_HI_PME : Field := ⟨.map, 0x48, 1, 0x0, 63, 0, .ro, .val 0, .warm⟩
/-- Table 4-13, R112: Twin matching enabled (R102); writable at any time (R101) -/
def MAP_TWIN_CFG_EN : Field := ⟨.map, 0x50, 1, 0x0, 16, 16, .rw, .val 0, .warm⟩
/-- Table 4-13, R112: Twin-table chunks, 0–4,096. A written value above 4,096 is taken as 4,096. Accepted and granted in full, or not at all, under R101 -/
def MAP_TWIN_CFG_CHUNKS : Field := ⟨.map, 0x50, 1, 0x0, 12, 0, .rw, .val 0, .warm⟩
/-- Table 4-13, R112: Pages made twins; saturating -/
def MAP_TWIN_STAT_MATCH : Field := ⟨.map, 0x58, 1, 0x0, 63, 32, .rc, .val 0, .warm⟩
/-- Table 4-13, R112: Insertions refused (R103); saturating -/
def MAP_TWIN_STAT_FULL : Field := ⟨.map, 0x58, 1, 0x0, 31, 0, .rc, .val 0, .warm⟩
/-- Table 4-13, R112: n: 0 unbacked, 1 zero, 2 Hall, 3 Mezzanine, 4 Loft private, 5 twin pages -/
def MAP_TIERCNT_PAGES : Field := ⟨.map, 0x60, 6, 0x8, 63, 0, .ro, .val 0, .warm⟩
/-- Table 4-13, R112: R110; saturating -/
def MAP_DROP_OVF : Field := ⟨.map, 0x90, 1, 0x0, 31, 16, .rc, .val 0, .warm⟩
/-- Table 4-13, R112: Entries in the dropped-line table -/
def MAP_DROP_USED : Field := ⟨.map, 0x90, 1, 0x0, 10, 0, .ro, .val 0, .warm⟩
/-- Table 4-13, R112: R87; saturating -/
def MAP_ERR_PME_INVALID : Field := ⟨.map, 0x98, 1, 0x0, 31, 16, .rc, .val 0, .warm⟩
/-- Table 4-13, R112: R87; saturating -/
def MAP_ERR_PME_UE : Field := ⟨.map, 0x98, 1, 0x0, 15, 0, .rc, .val 0, .warm⟩
/-- Table 4-13, R112: Last page whose VER wrapped -/
def MAP_VERWRAP_PAGE : Field := ⟨.map, 0xA8, 1, 0x0, 33, 0, .ro, .val 0, .warm⟩
/-- Table 4-14, R112: Bit k: pool k below LOW_WATER with a grant refused. Clears when F reaches LOW_WATER or a grant to the pool succeeds (R107) -/
def MAP_IRQ_POOLS : Field := ⟨.map, 0xA0, 1, 0x0, 63, 32, .ro, .val 0, .warm⟩
/-- Table 4-14, R112: Interrupt enable for bits [5:0] -/
def MAP_IRQ_EN : Field := ⟨.map, 0xA0, 1, 0x0, 21, 16, .rw, .val 0, .warm⟩
/-- Table 4-14, R112: R99 -/
def MAP_IRQ_VER_WRAP : Field := ⟨.map, 0xA0, 1, 0x0, 5, 5, .w1c, .val 0, .warm⟩
/-- Table 4-14, R112: A PME was lost (R87) -/
def MAP_IRQ_PME_ERR : Field := ⟨.map, 0xA0, 1, 0x0, 4, 4, .w1c, .val 0, .warm⟩
/-- Table 4-14, R112: A held write was dropped -/
def MAP_IRQ_EXPIRE : Field := ⟨.map, 0xA0, 1, 0x0, 3, 3, .w1c, .val 0, .warm⟩
/-- Table 4-14, R112: A write was held -/
def MAP_IRQ_HOLD : Field := ⟨.map, 0xA0, 1, 0x0, 2, 2, .w1c, .val 0, .warm⟩
/-- Table 4-14, R112: R107 -/
def MAP_IRQ_CRIT : Field := ⟨.map, 0xA0, 1, 0x0, 1, 1, .w1c, .val 0, .warm⟩
/-- Table 4-14, R112: R107 -/
def MAP_IRQ_LOW : Field := ⟨.map, 0xA0, 1, 0x0, 0, 0, .w1c, .val 0, .warm⟩
/-- Table 4-15, R112: FREE chunks, which are the chunks that no pool holds; HEAP_HELD chunks are not counted (R106) -/
def MAP_RG_CNT_CHUNKS_FREE : Field := ⟨.map, 0x400, 16, 0x10, 63, 32, .ro, .val 0, .warm⟩
/-- Table 4-15, R112: Chunks of the group, reserved areas included -/
def MAP_RG_CNT_CHUNKS_TOTAL : Field := ⟨.map, 0x400, 16, 0x10, 31, 0, .ro, .val 0, .warm⟩
/-- Table 4-15, R112: Capacity unused under R80, in MiB -/
def MAP_RG_CFG_UNUSED_MIB : Field := ⟨.map, 0x408, 16, 0x10, 47, 16, .ro, .val 0, .warm⟩
/-- Table 4-15, R112: Loft rank group (R81) (reset: image) -/
def MAP_RG_CFG_LOFT : Field := ⟨.map, 0x408, 16, 0x10, 1, 1, .ro, .val 0, .warm⟩
/-- Table 4-15, R112: Group populated -/
def MAP_RG_CFG_PRESENT : Field := ⟨.map, 0x408, 16, 0x10, 0, 0, .ro, .val 0, .warm⟩
/-- Table 4-16, R112: Free count (R107), in frames or granules -/
def MAP_POOL_F_F : Field := ⟨.map, 0x800, 32, 0x20, 63, 0, .ro, .val 0, .warm⟩
/-- Table 4-16, R112: R107 -/
def MAP_POOL_WATER_HIGH_WATER : Field := ⟨.map, 0x808, 32, 0x20, 63, 32, .rw, .val 0xFFFFFFFF, .warm⟩
/-- Table 4-16, R112: R107 -/
def MAP_POOL_WATER_LOW_WATER : Field := ⟨.map, 0x808, 32, 0x20, 31, 0, .rw, .val 0, .warm⟩
/-- Table 4-16, R112: R107 -/
def MAP_POOL_CRIT_CRIT_WATER : Field := ⟨.map, 0x810, 32, 0x20, 31, 0, .rw, .val 0, .warm⟩
/-- Table 4-16, R112: Chunks held by the pool -/
def MAP_POOL_CHUNKS_CHUNKS : Field := ⟨.map, 0x818, 32, 0x20, 31, 0, .ro, .val 0, .warm⟩

/-- Table 5-11, R132: 1: verify every image the encoder produces (R130) -/
def GAL_TRD_CTL_VERIFY_EN : Field := ⟨.gal, 0x800, 1, 0x0, 1, 1, .rwl, .val 1, .warm⟩
/-- Table 5-11, R132: Locks RWL fields until WARM reset -/
def GAL_TRD_CTL_LOCK : Field := ⟨.gal, 0x800, 1, 0x0, 0, 0, .w1s, .val 0, .warm⟩
/-- Table 5-12, R132: Verification mismatches (R130); saturating -/
def GAL_TRD_ERR_VERIFY_FAIL : Field := ⟨.gal, 0x808, 1, 0x0, 63, 48, .rc, .val 0, .warm⟩
/-- Table 5-12, R132: Blocks that failed to decode (R125); saturating -/
def GAL_TRD_ERR_DEC_ERR : Field := ⟨.gal, 0x808, 1, 0x0, 47, 16, .rc, .val 0, .warm⟩
/-- Table 5-12, R132: Error code of the last failure, Table 5-4; 0 if none -/
def GAL_TRD_ERR_LAST_CODE : Field := ⟨.gal, 0x808, 1, 0x0, 3, 0, .ro, .val 0, .warm⟩
/-- Table 5-13, R132: 1: the failing block was in the stand-alone form, and PAGE and BLOCK are zero -/
def GAL_TRD_LAST_STANDALONE : Field := ⟨.gal, 0x810, 1, 0x0, 48, 48, .ro, .val 0, .warm⟩
/-- Table 5-13, R132: Error code, Table 5-4 -/
def GAL_TRD_LAST_CODE : Field := ⟨.gal, 0x810, 1, 0x0, 47, 44, .ro, .val 0, .warm⟩
/-- Table 5-13, R132: Block number within the page -/
def GAL_TRD_LAST_BLOCK : Field := ⟨.gal, 0x810, 1, 0x0, 42, 40, .ro, .val 0, .warm⟩
/-- Table 5-13, R132: Page index of the failing block; the ORIGIN page for a twin copy -/
def GAL_TRD_LAST_PAGE : Field := ⟨.gal, 0x810, 1, 0x0, 33, 0, .ro, .val 0, .warm⟩
/-- Table 5-14, R132: n: 0 blocks encoded; 1 granules produced by encoding (sum of BSZb); 2 ZERO blocks produced; 3 PAT blocks produced; 4 RAW blocks produced; 5 blocks whose decode was attempted, failures included, which DEC_ERR also counts. Decodes made by the encoder's own verification (R130) are not counted. Saturating -/
def GAL_TRD_STAT_COUNT : Field := ⟨.gal, 0x820, 6, 0x8, 63, 0, .rc, .val 0, .warm⟩
/-- Table 5-14, R132: Words the encoder placed in class n (0b000–0b111). All 64 words of every block that it Tread-codes are counted, including blocks then stored RAW because L exceeds 448 (R123). Words of ZERO and PAT blocks are not counted. Saturating -/
def GAL_TRD_CLASS_WORDS : Field := ⟨.gal, 0x850, 8, 0x8, 63, 0, .rc, .val 0, .warm⟩
/-- Table 12-12, R312: 1: write back and invalidate every cached line -/
def GAL_CTL_FLUSH : Field := ⟨.gal, 0x0, 1, 0x0, 2, 2, .wo, .val 0, .warm⟩
/-- Table 12-12, R312: 1: LD-owned queues may be bound (R300) -/
def GAL_CTL_HOST_JOBS : Field := ⟨.gal, 0x0, 1, 0x0, 1, 1, .rwl, .val 1, .warm⟩
/-- Table 12-12, R312: Locks RWL fields until WARM reset -/
def GAL_CTL_LOCK : Field := ⟨.gal, 0x0, 1, 0x0, 0, 0, .w1s, .val 0, .warm⟩
/-- Table 12-12, R312: Valid lines, 0–32,768 -/
def GAL_STATUS_CACHE_VALID : Field := ⟨.gal, 0x8, 1, 0x0, 47, 32, .ro, .val 0, .warm⟩
/-- Table 12-12, R312: Jobs in the job table, 0–16 -/
def GAL_STATUS_FETCHED : Field := ⟨.gal, 0x8, 1, 0x0, 12, 8, .ro, .val 0, .warm⟩
/-- Table 12-12, R312: Jobs executing, 0–4 -/
def GAL_STATUS_RUNNING : Field := ⟨.gal, 0x8, 1, 0x0, 2, 0, .ro, .val 0, .warm⟩
/-- Table 12-13, R312: Saturating -/
def GAL_ERR_BAD_DESC : Field := ⟨.gal, 0x10, 1, 0x0, 63, 48, .rc, .val 0, .warm⟩
/-- Table 12-13, R312: Saturating -/
def GAL_ERR_FAULT : Field := ⟨.gal, 0x10, 1, 0x0, 47, 32, .rc, .val 0, .warm⟩
/-- Table 12-13, R312: Saturating -/
def GAL_ERR_ABORTED : Field := ⟨.gal, 0x10, 1, 0x0, 31, 16, .rc, .val 0, .warm⟩
/-- Table 12-13, R312: R304; saturating -/
def GAL_ERR_ACCESS : Field := ⟨.gal, 0x10, 1, 0x0, 15, 0, .rc, .val 0, .warm⟩
/-- Table 12-13, R312: Interrupt enable for bits [3:0] -/
def GAL_IRQ_EN : Field := ⟨.gal, 0x18, 1, 0x0, 19, 16, .rw, .val 0, .warm⟩
/-- Table 12-13, R312: A job ended FAULT -/
def GAL_IRQ_FAULT : Field := ⟨.gal, 0x18, 1, 0x0, 3, 3, .w1c, .val 0, .warm⟩
/-- Table 12-13, R312: A job ended BAD_DESC or ACCESS -/
def GAL_IRQ_BAD_DESC : Field := ⟨.gal, 0x18, 1, 0x0, 2, 2, .w1c, .val 0, .warm⟩
/-- Table 12-13, R312: A job ended ABORTED -/
def GAL_IRQ_ABORT : Field := ⟨.gal, 0x18, 1, 0x0, 1, 1, .w1c, .val 0, .warm⟩
/-- Table 12-13, R312: A job with DFLAGS.IRQ committed -/
def GAL_IRQ_JOB : Field := ⟨.gal, 0x18, 1, 0x0, 0, 0, .w1c, .val 0, .warm⟩
/-- Table 12-13, R312: n: 0 hits, 1 misses, 2 SnpF1 forwards, 3 evictions; saturating -/
def GAL_CACHE_STAT_COUNT : Field := ⟨.gal, 0x40, 4, 0x8, 63, 0, .rc, .val 0, .warm⟩
/-- Table 12-14, R312: R300 -/
def GAL_JQ_CFG_EN : Field := ⟨.gal, 0x100, 8, 0x10, 63, 63, .rw, .val 0, .warm⟩
/-- Table 12-14, R312: Last bind refused -/
def GAL_JQ_CFG_REFUSED : Field := ⟨.gal, 0x100, 8, 0x10, 62, 62, .ro, .val 0, .warm⟩
/-- Table 12-14, R312: LD 0–63, or 0x80 control complex -/
def GAL_JQ_CFG_OWNER : Field := ⟨.gal, 0x100, 8, 0x10, 55, 48, .rw, .val 0, .warm⟩
/-- Table 12-14, R312: 1–15; 0 stores 1 -/
def GAL_JQ_CFG_WEIGHT : Field := ⟨.gal, 0x100, 8, 0x10, 43, 40, .rw, .val 1, .warm⟩
/-- Table 12-14, R312: Completion queue -/
def GAL_JQ_CFG_CQ : Field := ⟨.gal, 0x100, 8, 0x10, 25, 16, .rw, .val 0, .warm⟩
/-- Table 12-14, R312: Descriptor queue -/
def GAL_JQ_CFG_DQ : Field := ⟨.gal, 0x100, 8, 0x10, 9, 0, .rw, .val 0, .warm⟩
/-- Table 12-14, R312: Summaries pushed; saturating -/
def GAL_JQ_CNT_COMMITTED : Field := ⟨.gal, 0x108, 8, 0x10, 63, 32, .rc, .val 0, .warm⟩
/-- Table 12-14, R312: Descriptors fetched; saturating -/
def GAL_JQ_CNT_FETCHED : Field := ⟨.gal, 0x108, 8, 0x10, 31, 0, .rc, .val 0, .warm⟩

/-- Table 6-5, R156: Conceal zero for pages outside every region (R137, R144) -/
def KEY_CTL_SLOT0_CONCEAL : Field := ⟨.key, 0x0, 1, 0x0, 1, 1, .rwl, .val 0, .warm⟩
/-- Table 6-5, R156: Locks RWL fields until WARM reset -/
def KEY_CTL_LOCK : Field := ⟨.key, 0x0, 1, 0x0, 0, 0, .w1s, .val 0, .warm⟩
/-- Table 6-5, R156: SLOT of the last key-programming request -/
def KEY_STATUS_LAST_SLOT : Field := ⟨.key, 0x8, 1, 0x0, 23, 16, .ro, .val 0, .warm⟩
/-- Table 6-5, R156: RESULT of the last request (R150) -/
def KEY_STATUS_LAST_RESULT : Field := ⟨.key, 0x8, 1, 0x0, 15, 8, .ro, .val 0, .warm⟩
/-- Table 6-5, R156: Slot 0 filled (R135) -/
def KEY_STATUS_SLOT0_READY : Field := ⟨.key, 0x8, 1, 0x0, 0, 0, .ro, .val 0, .warm⟩
/-- Table 6-6, R156: Failed tag checks (R148); saturating -/
def KEY_ERR_INTEG_FAIL : Field := ⟨.key, 0x10, 1, 0x0, 63, 48, .rc, .val 0, .warm⟩
/-- Table 6-6, R156: R140; saturating -/
def KEY_ERR_EMPTY_USE : Field := ⟨.key, 0x10, 1, 0x0, 47, 32, .rc, .val 0, .warm⟩
/-- Table 6-6, R156: Requests answered other than OK; saturating -/
def KEY_ERR_PROG_REFUSED : Field := ⟨.key, 0x10, 1, 0x0, 31, 16, .rc, .val 0, .warm⟩
/-- Table 6-6, R156: R138; saturating -/
def KEY_ERR_REGION_REJECT : Field := ⟨.key, 0x10, 1, 0x0, 15, 0, .rc, .val 0, .warm⟩
/-- Table 6-7, R156: Interrupt enable for bits [3:0] -/
def KEY_IRQ_EN : Field := ⟨.key, 0x18, 1, 0x0, 19, 16, .rw, .val 0, .warm⟩
/-- Table 6-7, R156: A slot left REKEY -/
def KEY_IRQ_REKEY_DONE : Field := ⟨.key, 0x18, 1, 0x0, 3, 3, .w1c, .val 0, .warm⟩
/-- Table 6-7, R156: A key-programming request completed -/
def KEY_IRQ_PROG : Field := ⟨.key, 0x18, 1, 0x0, 2, 2, .w1c, .val 0, .warm⟩
/-- Table 6-7, R156: R140 -/
def KEY_IRQ_EMPTY_USE : Field := ⟨.key, 0x18, 1, 0x0, 1, 1, .w1c, .val 0, .warm⟩
/-- Table 6-7, R156: A tag check failed -/
def KEY_IRQ_INTEG : Field := ⟨.key, 0x18, 1, 0x0, 0, 0, .w1c, .val 0, .warm⟩
/-- Table 6-7, R156: 0 read, 1 promotion, 2 RELOCATE, 3 REKEY, 4 RESLOT -/
def KEY_LAST_INTEG_SRC : Field := ⟨.key, 0x20, 1, 0x0, 50, 48, .ro, .val 0, .warm⟩
/-- Table 6-7, R156: KEY of the page -/
def KEY_LAST_INTEG_SLOT : Field := ⟨.key, 0x20, 1, 0x0, 47, 40, .ro, .val 0, .warm⟩
/-- Table 6-7, R156: Page index -/
def KEY_LAST_INTEG_PAGE : Field := ⟨.key, 0x20, 1, 0x0, 33, 0, .ro, .val 0, .warm⟩
/-- Table 6-8, R156: R154 -/
def KEY_SLOT_STATE_WRAP : Field := ⟨.key, 0x1000, 256, 0x20, 16, 16, .ro, .val 0, .warm⟩
/-- Table 6-8, R156: Generation of CUR -/
def KEY_SLOT_STATE_GEN : Field := ⟨.key, 0x1000, 256, 0x20, 15, 8, .ro, .val 0, .warm⟩
/-- Table 6-8, R156: 0 EMPTY, 1 ACTIVE, 2 REKEY; slot 0 reads 1 once SLOT0_READY is set -/
def KEY_SLOT_STATE_STATE : Field := ⟨.key, 0x1000, 256, 0x20, 1, 0, .ro, .val 0, .warm⟩
/-- Table 6-8, R156: R142, R152 -/
def KEY_SLOT_PCURSOR_PCURSOR : Field := ⟨.key, 0x1008, 256, 0x20, 34, 0, .ro, .val 0, .warm⟩
/-- Table 6-8, R156: R142, R152 -/
def KEY_SLOT_TCURSOR_TCURSOR : Field := ⟨.key, 0x1010, 256, 0x20, 31, 0, .ro, .val 0, .warm⟩
/-- Table 6-8, R156: PMEs and VALID twin entries whose KEY is n -/
def KEY_SLOT_USE_USE : Field := ⟨.key, 0x1018, 256, 0x20, 39, 0, .ro, .val 0, .warm⟩
/-- Table 6-9, R156: First page of the region -/
def KEY_REG_BASE_BASE : Field := ⟨.key, 0x10000, 1024, 0x20, 33, 0, .rws, .val 0, .warm⟩
/-- Table 6-9, R156: First page after the region -/
def KEY_REG_LIMIT_LIMIT : Field := ⟨.key, 0x10008, 1024, 0x20, 34, 0, .rws, .val 0, .warm⟩
/-- Table 6-9, R156: DLA of the tag range; a multiple of 64 -/
def KEY_REG_TAG_TAG_BASE : Field := ⟨.key, 0x10010, 1024, 0x20, 45, 0, .rws, .val 0, .warm⟩
/-- Table 6-9, R156: R138 -/
def KEY_REG_CFG_VALID : Field := ⟨.key, 0x10018, 1024, 0x20, 63, 63, .rws, .val 0, .warm⟩
/-- Table 6-9, R156: R145; value 3 is stored as 2 -/
def KEY_REG_CFG_INTEG : Field := ⟨.key, 0x10018, 1024, 0x20, 10, 9, .rws, .val 0, .warm⟩
/-- Table 6-9, R156: R144 -/
def KEY_REG_CFG_CONCEAL : Field := ⟨.key, 0x10018, 1024, 0x20, 8, 8, .rws, .val 0, .warm⟩
/-- Table 6-9, R156: Key slot -/
def KEY_REG_CFG_SLOT : Field := ⟨.key, 0x10018, 1024, 0x20, 7, 0, .rws, .val 0, .warm⟩

/-- Table 7-11, R183: 1: speculative memory read with snoops (R169) -/
def HOM_CTL_SPEC_RD : Field := ⟨.hom, 0x0, 1, 0x0, 2, 2, .rwl, .val 1, .warm⟩
/-- Table 7-11, R183: 1: F granted and SnpF1 used; 0: SF treated as S (R169) -/
def HOM_CTL_FWD_EN : Field := ⟨.hom, 0x0, 1, 0x0, 1, 1, .rwl, .val 1, .warm⟩
/-- Table 7-11, R183: Locks RWL fields until WARM reset -/
def HOM_CTL_LOCK : Field := ⟨.hom, 0x0, 1, 0x0, 0, 0, .w1s, .val 0, .warm⟩
/-- Table 7-12, R183: Proxy-filter ways per set: 0 or 4 (R178) (reset: image) -/
def HOM_CFG_PF_WAYS : Field := ⟨.hom, 0x8, 1, 0x0, 20, 16, .ro, .val 0, .warm⟩
/-- Table 7-12, R183: Home index -/
def HOM_CFG_HOME : Field := ⟨.hom, 0x8, 1, 0x0, 3, 0, .ro, .inst, .warm⟩
/-- Table 7-12, R183: Open TT entries, 0–256 -/
def HOM_STATUS_TT_USED : Field := ⟨.hom, 0x10, 1, 0x0, 40, 32, .ro, .val 0, .warm⟩
/-- Table 7-12, R183: Conflict-queue entries in use, 0–64 -/
def HOM_STATUS_CONFQ : Field := ⟨.hom, 0x10, 1, 0x0, 30, 24, .ro, .val 0, .warm⟩
/-- Table 7-12, R183: Entries in HB_ALLOC -/
def HOM_STATUS_ALLOCQ : Field := ⟨.hom, 0x10, 1, 0x0, 23, 16, .ro, .val 0, .warm⟩
/-- Table 7-12, R183: Recalls in progress, 0–16 -/
def HOM_STATUS_RECALLS : Field := ⟨.hom, 0x10, 1, 0x0, 12, 8, .ro, .val 0, .warm⟩
/-- Table 7-12, R183: Write-data buffer entries in use, 0–384 -/
def HOM_WDB_WDB_USED : Field := ⟨.hom, 0x18, 1, 0x0, 8, 0, .ro, .val 0, .warm⟩
/-- Table 7-13, R183: Lock limit in µs, 1–1,000; a write of 0 stores 1, and a write above 1,000 stores 1,000 -/
def HOM_LOCK_TMO_TMO_US : Field := ⟨.hom, 0x20, 1, 0x0, 9, 0, .rw, .val 20, .warm⟩
/-- Table 7-13, R183: Locks released on timeout (R174); saturating -/
def HOM_ERR_LOCK_TMO : Field := ⟨.hom, 0x28, 1, 0x0, 63, 48, .rc, .val 0, .warm⟩
/-- Table 7-13, R183: Unexpected DataM (R175); saturating -/
def HOM_ERR_UNEXP_DATAM : Field := ⟨.hom, 0x28, 1, 0x0, 47, 32, .rc, .val 0, .warm⟩
/-- Table 7-13, R183: PE-H events; saturating -/
def HOM_ERR_PROTO : Field := ⟨.hom, 0x28, 1, 0x0, 31, 16, .rc, .val 0, .warm⟩
/-- Table 7-13, R183: WbD from a non-owner carried out as NOOWN; saturating -/
def HOM_ERR_WBD_NOTOWN : Field := ⟨.hom, 0x28, 1, 0x0, 15, 0, .rc, .val 0, .warm⟩
/-- Table 7-13, R183: Interrupt enable for bits [3:0] -/
def HOM_IRQ_EN : Field := ⟨.hom, 0x30, 1, 0x0, 19, 16, .rw, .val 0, .warm⟩
/-- Table 7-13, R183: PE-H, internal (R175) -/
def HOM_IRQ_INTERNAL : Field := ⟨.hom, 0x30, 1, 0x0, 3, 3, .w1c, .val 0, .warm⟩
/-- Table 7-13, R183: A lock timed out -/
def HOM_IRQ_LOCK_TMO : Field := ⟨.hom, 0x30, 1, 0x0, 2, 2, .w1c, .val 0, .warm⟩
/-- Table 7-13, R183: A line was poisoned under R175 -/
def HOM_IRQ_UNEXP_DATAM : Field := ⟨.hom, 0x30, 1, 0x0, 1, 1, .w1c, .val 0, .warm⟩
/-- Table 7-13, R183: A PE-H event occurred -/
def HOM_IRQ_PROTO : Field := ⟨.hom, 0x30, 1, 0x0, 0, 0, .w1c, .val 0, .warm⟩
/-- Table 7-14, R183: n: 0 requests served; 1 snoops sent; 2 forwards by SnpF1 answered RspS or RspF; 3 RspX crossings; 4 recalls; 5 requests that entered HB_ALLOC. Saturating -/
def HOM_STAT_COUNT : Field := ⟨.hom, 0x40, 6, 0x8, 63, 0, .rc, .val 0, .warm⟩
/-- Table 7-15, R183: Set to read -/
def HOM_DIR_IDX_SET : Field := ⟨.hom, 0x80, 1, 0x0, 16, 4, .rw, .val 0, .warm⟩
/-- Table 7-15, R183: Way to read -/
def HOM_DIR_IDX_WAY : Field := ⟨.hom, 0x80, 1, 0x0, 3, 0, .rw, .val 0, .warm⟩
/-- Table 7-15, R183: Last read ended -/
def HOM_DIR_OP_DONE : Field := ⟨.hom, 0x88, 1, 0x0, 31, 31, .ro, .val 0, .warm⟩
/-- Table 7-15, R183: 1: copy the entry to HOM_DIR_LO and HOM_DIR_HI, atomically with respect to the home -/
def HOM_DIR_OP_READ : Field := ⟨.hom, 0x88, 1, 0x0, 0, 0, .wo, .val 0, .warm⟩
/-- Table 7-15, R183: Entry bits [63:0] of the last read -/
def HOM_DIR_LO_ENTRY : Field := ⟨.hom, 0x90, 1, 0x0, 63, 0, .ro, .val 0, .warm⟩
/-- Table 7-15, R183: Entry bits [127:64] of the last read -/
def HOM_DIR_HI_ENTRY : Field := ⟨.hom, 0x98, 1, 0x0, 63, 0, .ro, .val 0, .warm⟩
/-- Table 7-16, R183: Sender of the offending message -/
def HOM_LAST_PE_SRC : Field := ⟨.hom, 0xA0, 1, 0x0, 62, 56, .ro, .val 0, .warm⟩
/-- Table 7-16, R183: Opcode, Table 7-2 -/
def HOM_LAST_PE_OPC : Field := ⟨.hom, 0xA0, 1, 0x0, 52, 48, .ro, .val 0, .warm⟩
/-- Table 7-16, R183: 0 HB_ALLOC, 1 HB_DAT, 2 HB_SNP, 3 HB_WB -/
def HOM_LAST_PE_STATE : Field := ⟨.hom, 0xA0, 1, 0x0, 42, 40, .ro, .val 0, .warm⟩
/-- Table 7-16, R183: DLA line index -/
def HOM_LAST_PE_LINE : Field := ⟨.hom, 0xA0, 1, 0x0, 39, 0, .ro, .val 0, .warm⟩

/-- Table 8-8, R210: 1: detours permitted (R199) -/
def NOC_CTL_DETOUR_EN : Field := ⟨.noc, 0x0, 1, 0x0, 2, 2, .rwl, .val 1, .warm⟩
/-- Table 8-8, R210: 1: DAT data checked at every router (R197) -/
def NOC_CTL_PERHOP_ECC : Field := ⟨.noc, 0x0, 1, 0x0, 1, 1, .rwl, .val 0, .warm⟩
/-- Table 8-8, R210: Locks RWL fields until WARM reset -/
def NOC_CTL_LOCK : Field := ⟨.noc, 0x0, 1, 0x0, 0, 0, .w1s, .val 0, .warm⟩
/-- Table 8-9, R210: 0 IDLE, 1 DRAIN, 2 APPLY -/
def NOC_EPOCH_STATE : Field := ⟨.noc, 0x8, 1, 0x0, 17, 16, .ro, .val 0, .warm⟩
/-- Table 8-9, R210: Last flip refused under R203 -/
def NOC_EPOCH_BAD : Field := ⟨.noc, 0x8, 1, 0x0, 12, 12, .ro, .val 0, .warm⟩
/-- Table 8-9, R210: 1: end DRAIN at once (R204) -/
def NOC_EPOCH_FORCE : Field := ⟨.noc, 0x8, 1, 0x0, 9, 9, .wo, .val 0, .warm⟩
/-- Table 8-9, R210: 1: flip to the shadow tables -/
def NOC_EPOCH_FLIP : Field := ⟨.noc, 0x8, 1, 0x0, 8, 8, .wo, .val 0, .warm⟩
/-- Table 8-9, R210: Current epoch -/
def NOC_EPOCH_CUR : Field := ⟨.noc, 0x8, 1, 0x0, 0, 0, .ro, .val 0, .warm⟩
/-- Table 8-10, R210: Drain limit in µs, 10–60,000; writes outside store the nearer bound -/
def NOC_EPOCH_TMO_TMO_US : Field := ⟨.noc, 0x10, 1, 0x0, 15, 0, .rw, .val 0x7D0, .warm⟩
/-- Table 8-10, R210: Packets sunk; saturating -/
def NOC_ERR_SINK : Field := ⟨.noc, 0x18, 1, 0x0, 63, 48, .rc, .val 0, .warm⟩
/-- Table 8-10, R210: Replays, all links; saturating -/
def NOC_ERR_HDR_RETRY : Field := ⟨.noc, 0x18, 1, 0x0, 47, 32, .rc, .val 0, .warm⟩
/-- Table 8-10, R210: Corrected data words; saturating -/
def NOC_ERR_DAT_CE : Field := ⟨.noc, 0x18, 1, 0x0, 31, 16, .rc, .val 0, .warm⟩
/-- Table 8-10, R210: Uncorrectable data flits (R197); saturating -/
def NOC_ERR_DAT_UE : Field := ⟨.noc, 0x18, 1, 0x0, 15, 0, .rc, .val 0, .warm⟩
/-- Table 8-10, R210: Interrupt enable for bits [5:0] -/
def NOC_IRQ_EN : Field := ⟨.noc, 0x20, 1, 0x0, 21, 16, .rw, .val 0, .warm⟩
/-- Table 8-10, R210: R206 -/
def NOC_IRQ_FENCE_REFUSED : Field := ⟨.noc, 0x20, 1, 0x0, 5, 5, .w1c, .val 0, .warm⟩
/-- Table 8-10, R210: R197 -/
def NOC_IRQ_DAT_UE : Field := ⟨.noc, 0x20, 1, 0x0, 4, 4, .w1c, .val 0, .warm⟩
/-- Table 8-10, R210: R201 -/
def NOC_IRQ_SINK : Field := ⟨.noc, 0x20, 1, 0x0, 3, 3, .w1c, .val 0, .warm⟩
/-- Table 8-10, R210: R204 -/
def NOC_IRQ_DRAIN_TMO : Field := ⟨.noc, 0x20, 1, 0x0, 2, 2, .w1c, .val 0, .warm⟩
/-- Table 8-10, R210: R203 -/
def NOC_IRQ_EPOCH_DONE : Field := ⟨.noc, 0x20, 1, 0x0, 1, 1, .w1c, .val 0, .warm⟩
/-- Table 8-10, R210: R198 -/
def NOC_IRQ_LINK_FAIL : Field := ⟨.noc, 0x20, 1, 0x0, 0, 0, .w1c, .val 0, .warm⟩
/-- Table 8-11, R210: 1: request fence; cleared by a wake (R208) -/
def NOC_DOM_CTL_FENCE : Field := ⟨.noc, 0x2000, 40, 0x20, 0, 0, .rw, .val 0, .warm⟩
/-- Table 8-11, R210: Packets in the hold queues -/
def NOC_DOM_STATUS_HELD : Field := ⟨.noc, 0x2008, 40, 0x20, 63, 48, .ro, .val 0, .warm⟩
/-- Table 8-11, R210: Drain count (R207) -/
def NOC_DOM_STATUS_OUTSTANDING : Field := ⟨.noc, 0x2008, 40, 0x20, 47, 16, .ro, .val 0, .warm⟩
/-- Table 8-11, R210: Last request refused (R206) -/
def NOC_DOM_STATUS_REFUSED : Field := ⟨.noc, 0x2008, 40, 0x20, 3, 3, .ro, .val 0, .warm⟩
/-- Table 8-11, R210: 0 ON, 1 DRAINING, 2 FENCED, 3 WAKING -/
def NOC_DOM_STATUS_STATE : Field := ⟨.noc, 0x2008, 40, 0x20, 1, 0, .ro, .val 0, .warm⟩
/-- Table 8-11, R210: Wake bound in ns: 24,000 home-and-channel, 2,500 gallery, 2,800 station -/
def NOC_DOM_WAKE_WAKE_NS : Field := ⟨.noc, 0x2010, 40, 0x20, 31, 0, .ro, .wakeNs, .cold⟩
/-- Table 8-11, R210: FENCE_ACKs given; saturating -/
def NOC_DOM_CNT_FENCES : Field := ⟨.noc, 0x2018, 40, 0x20, 31, 0, .rc, .val 0, .warm⟩
/-- Table 8-12, R210: Staged link enables (R205) -/
def NOC_RTR_LINK_NEXT : Field := ⟨.noc, 0x4000, 32, 0x100, 7, 4, .rw, .val 15, .warm⟩
/-- Table 8-12, R210: Links in use -/
def NOC_RTR_LINK_LINK_EN : Field := ⟨.noc, 0x4000, 32, 0x100, 3, 0, .ro, .val 15, .warm⟩
/-- Table 8-12, R210: Failed links (R198) -/
def NOC_RTR_STAT_FAILED : Field := ⟨.noc, 0x4008, 32, 0x100, 3, 0, .ro, .val 0, .warm⟩
/-- Table 8-12, R210: Per link: X link 0 Y+, 1 Y−; Y link 0 X+, 1 X− -/
def NOC_RTR_DETOUR_SIDE : Field := ⟨.noc, 0x4010, 32, 0x100, 7, 4, .rw, .val 0, .warm⟩
/-- Table 8-12, R210: Detour permitted per link -/
def NOC_RTR_DETOUR_EN : Field := ⟨.noc, 0x4010, 32, 0x100, 3, 0, .rw, .val 15, .warm⟩
/-- Table 8-12, R210: Old-epoch packets held (R203) -/
def NOC_RTR_OLD_CNT_DAT : Field := ⟨.noc, 0x4018, 32, 0x100, 63, 48, .ro, .val 0, .warm⟩
/-- Table 8-12, R210: As DAT -/
def NOC_RTR_OLD_CNT_RSP : Field := ⟨.noc, 0x4018, 32, 0x100, 47, 32, .ro, .val 0, .warm⟩
/-- Table 8-12, R210: As DAT -/
def NOC_RTR_OLD_CNT_SNP : Field := ⟨.noc, 0x4018, 32, 0x100, 31, 16, .ro, .val 0, .warm⟩
/-- Table 8-12, R210: As DAT -/
def NOC_RTR_OLD_CNT_REQ : Field := ⟨.noc, 0x4018, 32, 0x100, 15, 0, .ro, .val 0, .warm⟩
/-- Table 8-12, R210: Replays on this router's inputs; saturating -/
def NOC_RTR_ERR_RETRY : Field := ⟨.noc, 0x4020, 32, 0x100, 63, 48, .rc, .val 0, .warm⟩
/-- Table 8-12, R210: Packets sunk here; saturating -/
def NOC_RTR_ERR_SINK : Field := ⟨.noc, 0x4020, 32, 0x100, 47, 32, .rc, .val 0, .warm⟩
/-- Table 8-12, R210: Packets detoured here; saturating -/
def NOC_RTR_ERR_DETOURED : Field := ⟨.noc, 0x4020, 32, 0x100, 15, 0, .rc, .val 0, .warm⟩
/-- Table 8-12, R210: Info bits [63:0] of the last sunk header -/
def NOC_RTR_SINK_LAST_HDR : Field := ⟨.noc, 0x4028, 32, 0x100, 63, 0, .ro, .val 0, .warm⟩
/-- Table 8-13, R210: Current-epoch table (copies 512 e + i, i < 256) -/
def NOC_RT_CUR_ENTRY : Field := ⟨.noc, 0x10000, 20992, 0x8, 63, 0, .ro, .route, .warm⟩
/-- Table 8-13, R210: Shadow table, checked at the flip (R203) (copies 512 e + i, i < 256) -/
def NOC_RT_SHADOW_ENTRY : Field := ⟨.noc, 0x10800, 20992, 0x8, 63, 0, .rwl, .route, .warm⟩

/-- Table 9-10, R245: SPEED code 4 or 5 for a planned retrain (reset: image) -/
def CWK_CTL_TGT_RATE : Field := ⟨.cwk, 0x0, 1, 0x0, 20, 18, .rw, .val 0, .warm⟩
/-- Table 9-10, R245: 0 x4, 1 x8, 2 x16 (reset: image) -/
def CWK_CTL_TGT_WIDTH : Field := ⟨.cwk, 0x0, 1, 0x0, 17, 16, .rw, .val 0, .warm⟩
/-- Table 9-10, R245: 1: planned retrain (R232) -/
def CWK_CTL_RETRAIN : Field := ⟨.cwk, 0x0, 1, 0x0, 8, 8, .wo, .val 0, .warm⟩
/-- Table 9-10, R245: 1: spill permitted (R228) -/
def CWK_CTL_SPILL_EN : Field := ⟨.cwk, 0x0, 1, 0x0, 3, 3, .rwl, .val 1, .warm⟩
/-- Table 9-10, R245: 1: relay permitted (R236) -/
def CWK_CTL_RELAY_EN : Field := ⟨.cwk, 0x0, 1, 0x0, 2, 2, .rwl, .val 1, .warm⟩
/-- Table 9-10, R245: 1: the link may train -/
def CWK_CTL_LINK_EN : Field := ⟨.cwk, 0x0, 1, 0x0, 1, 1, .rwl, .val 1, .warm⟩
/-- Table 9-10, R245: Locks RWL fields until WARM reset -/
def CWK_CTL_LOCK : Field := ⟨.cwk, 0x0, 1, 0x0, 0, 0, .w1s, .val 0, .warm⟩
/-- Table 9-11, R245: R230; 6 buffer settings (R219) -/
def CWK_STATUS_MM_CAUSE : Field := ⟨.cwk, 0x8, 1, 0x0, 47, 44, .ro, .val 0, .warm⟩
/-- Table 9-11, R245: From the last HELLO -/
def CWK_STATUS_PEER_SLOT : Field := ⟨.cwk, 0x8, 1, 0x0, 43, 40, .ro, .val 0, .warm⟩
/-- Table 9-11, R245: VC count (reset: image) -/
def CWK_STATUS_VCS : Field := ⟨.cwk, 0x8, 1, 0x0, 35, 32, .ro, .val 0, .warm⟩
/-- Table 9-11, R245: R234 -/
def CWK_STATUS_FAILED_LANE : Field := ⟨.cwk, 0x8, 1, 0x0, 27, 24, .ro, .val 0, .warm⟩
/-- Table 9-11, R245: Below the unit's width -/
def CWK_STATUS_DEGRADED : Field := ⟨.cwk, 0x8, 1, 0x0, 20, 20, .ro, .val 0, .warm⟩
/-- Table 9-11, R245: R228 -/
def CWK_STATUS_SPILL_OK : Field := ⟨.cwk, 0x8, 1, 0x0, 19, 19, .ro, .val 0, .warm⟩
/-- Table 9-11, R245: Spilled entries present -/
def CWK_STATUS_SPILLING : Field := ⟨.cwk, 0x8, 1, 0x0, 18, 18, .ro, .val 0, .warm⟩
/-- Table 9-11, R245: This end led the last training -/
def CWK_STATUS_LEAD : Field := ⟨.cwk, 0x8, 1, 0x0, 17, 17, .ro, .val 0, .warm⟩
/-- Table 9-11, R245: SPEED code -/
def CWK_STATUS_RATE : Field := ⟨.cwk, 0x8, 1, 0x0, 14, 12, .ro, .val 0, .warm⟩
/-- Table 9-11, R245: 0 down, 3 x4, 4 x8, 5 x16 -/
def CWK_STATUS_WIDTH : Field := ⟨.cwk, 0x8, 1, 0x0, 11, 8, .ro, .val 0, .warm⟩
/-- Table 9-11, R245: 0 DOWN, 1 TRAIN, 2 INIT, 3 ACTIVE, 4 RETRAIN, 5 MISMATCH -/
def CWK_STATUS_STATE : Field := ⟨.cwk, 0x8, 1, 0x0, 2, 0, .ro, .val 0, .warm⟩
/-- Table 9-12, R245: E (R225) -/
def CWK_SEQ_RX_EXPECT : Field := ⟨.cwk, 0x10, 1, 0x0, 47, 32, .ro, .val 0, .warm⟩
/-- Table 9-12, R245: Last SEQ acknowledged -/
def CWK_SEQ_TX_ACKED : Field := ⟨.cwk, 0x10, 1, 0x0, 31, 16, .ro, .val 0xFFFF, .warm⟩
/-- Table 9-12, R245: Last SEQ assigned -/
def CWK_SEQ_TX_LAST : Field := ⟨.cwk, 0x10, 1, 0x0, 15, 0, .ro, .val 0xFFFF, .warm⟩
/-- Table 9-12, R245: Unacknowledged limit in force (R227) -/
def CWK_UNACK_LIMIT : Field := ⟨.cwk, 0x18, 1, 0x0, 47, 32, .ro, .val 0x2000, .warm⟩
/-- Table 9-12, R245: Entries in the ring -/
def CWK_UNACK_SPILLED : Field := ⟨.cwk, 0x18, 1, 0x0, 31, 16, .ro, .val 0, .warm⟩
/-- Table 9-12, R245: Unacknowledged flits -/
def CWK_UNACK_UNACKED : Field := ⟨.cwk, 0x18, 1, 0x0, 15, 0, .ro, .val 0, .warm⟩
/-- Table 9-12, R245: DLA of the ring; a multiple of 2 MiB -/
def CWK_SPILL_BASE_BASE : Field := ⟨.cwk, 0x20, 1, 0x0, 45, 0, .rwl, .val 0, .warm⟩
/-- Table 9-12, R245: 0–256; 0 means no ring -/
def CWK_SPILL_SIZE_SIZE_MIB : Field := ⟨.cwk, 0x28, 1, 0x0, 8, 0, .rwl, .val 0, .warm⟩
/-- Table 9-12, R245: Signed ST units (R222) -/
def CWK_TSKEW_SKEW : Field := ⟨.cwk, 0x48, 1, 0x0, 63, 0, .ro, .val 0, .warm⟩
/-- Table 9-12, R245: One-way latency measured at INIT -/
def CWK_LAT_LAT_NS : Field := ⟨.cwk, 0x50, 1, 0x0, 15, 0, .ro, .val 0, .warm⟩
/-- Table 9-12, R245: 100–60,000; writes outside store the nearer bound -/
def CWK_RETRAIN_TMO_TMO_US : Field := ⟨.cwk, 0x58, 1, 0x0, 15, 0, .rw, .val 0x7D0, .warm⟩
/-- Table 9-13, R245: Corrected bytes; saturating -/
def CWK_ERR_FEC_CORR : Field := ⟨.cwk, 0x30, 1, 0x0, 63, 48, .rc, .val 0, .warm⟩
/-- Table 9-13, R245: Uncorrected flits; saturating -/
def CWK_ERR_UNCORR : Field := ⟨.cwk, 0x30, 1, 0x0, 47, 32, .rc, .val 0, .warm⟩
/-- Table 9-13, R245: Replays started; saturating -/
def CWK_ERR_REPLAY : Field := ⟨.cwk, 0x30, 1, 0x0, 31, 16, .rc, .val 0, .warm⟩
/-- Table 9-13, R245: Lanes failed; saturating -/
def CWK_ERR_LANE_FAIL : Field := ⟨.cwk, 0x30, 1, 0x0, 15, 8, .rc, .val 0, .warm⟩
/-- Table 9-13, R245: R221, R224, R226; saturating -/
def CWK_ERR_BAD_ACK : Field := ⟨.cwk, 0x30, 1, 0x0, 7, 0, .rc, .val 0, .warm⟩
/-- Table 9-13, R245: R236; saturating -/
def CWK_ERR2_RELAY_DROP : Field := ⟨.cwk, 0x38, 1, 0x0, 63, 48, .rc, .val 0, .warm⟩
/-- Table 9-13, R245: R238; saturating -/
def CWK_ERR2_UNEXPORTED : Field := ⟨.cwk, 0x38, 1, 0x0, 47, 32, .rc, .val 0, .warm⟩
/-- Table 9-13, R245: R242; saturating -/
def CWK_ERR2_EXCL_DROP : Field := ⟨.cwk, 0x38, 1, 0x0, 31, 16, .rc, .val 0, .warm⟩
/-- Table 9-13, R245: R216; saturating -/
def CWK_ERR2_PROTO : Field := ⟨.cwk, 0x38, 1, 0x0, 15, 0, .rc, .val 0, .warm⟩
/-- Table 9-13, R245: Interrupt enable for bits [5:0] -/
def CWK_IRQ_EN : Field := ⟨.cwk, 0x40, 1, 0x0, 21, 16, .rw, .val 0, .warm⟩
/-- Table 9-13, R245: R228 -/
def CWK_IRQ_SPILL_OFF : Field := ⟨.cwk, 0x40, 1, 0x0, 5, 5, .w1c, .val 0, .warm⟩
/-- Table 9-13, R245: MISMATCH entered -/
def CWK_IRQ_MISMATCH : Field := ⟨.cwk, 0x40, 1, 0x0, 4, 4, .w1c, .val 0, .warm⟩
/-- Table 9-13, R245: R234 -/
def CWK_IRQ_LANE_FAIL : Field := ⟨.cwk, 0x40, 1, 0x0, 3, 3, .w1c, .val 0, .warm⟩
/-- Table 9-13, R245: RETRAIN entered -/
def CWK_IRQ_RETRAIN : Field := ⟨.cwk, 0x40, 1, 0x0, 2, 2, .w1c, .val 0, .warm⟩
/-- Table 9-13, R245: DOWN entered from ACTIVE or RETRAIN -/
def CWK_IRQ_DOWN : Field := ⟨.cwk, 0x40, 1, 0x0, 1, 1, .w1c, .val 0, .warm⟩
/-- Table 9-13, R245: ACTIVE entered from INIT or MISMATCH -/
def CWK_IRQ_UP : Field := ⟨.cwk, 0x40, 1, 0x0, 0, 0, .w1c, .val 0, .warm⟩
/-- Table 9-14, R245: A packet waits for credit -/
def CWK_VC_BLOCKED : Field := ⟨.cwk, 0x100, 8, 0x8, 48, 48, .ro, .val 0, .warm⟩
/-- Table 9-14, R245: Transmit credit in slots -/
def CWK_VC_CREDIT : Field := ⟨.cwk, 0x100, 8, 0x8, 44, 32, .ro, .val 0, .warm⟩
/-- Table 9-14, R245: Receive slots (R219); applied at the next INIT (reset: 4,096 / VCS,) -/
def CWK_VC_RXBUF : Field := ⟨.cwk, 0x100, 8, 0x8, 12, 0, .rwl, .val 0, .warm⟩

/-- Table 9-15, R245: R242, R243 -/
def CWK_SPAN_STATUS_READY : Field := ⟨.span, 0x8000, 1, 0x0, 63, 48, .ro, .val 0, .warm⟩
/-- Table 9-15, R245: R241 -/
def CWK_SPAN_STATUS_EXCLUDED : Field := ⟨.span, 0x8000, 1, 0x0, 47, 32, .ro, .val 0, .warm⟩
/-- Table 9-15, R245: R239 -/
def CWK_SPAN_STATUS_COHERENT : Field := ⟨.span, 0x8000, 1, 0x0, 31, 16, .ro, .val 0, .warm⟩
/-- Table 9-15, R245: R235 -/
def CWK_SPAN_STATUS_REACHABLE : Field := ⟨.span, 0x8000, 1, 0x0, 15, 0, .ro, .val 0, .warm⟩
/-- Table 9-15, R245: Cleared at re-admission (R243) -/
def CWK_REJOIN_REJOIN : Field := ⟨.span, 0x8008, 1, 0x0, 15, 0, .w1s, .val 0, .warm⟩
/-- Table 9-15, R245: R240 -/
def CWK_SPAN_TOL_TOL_NS : Field := ⟨.span, 0x8010, 1, 0x0, 31, 0, .ro, .val 0xFFFFFFFF, .warm⟩
/-- Table 9-15, R245: Interrupt enable for bits [3:0] -/
def CWK_SPAN_IRQ_EN : Field := ⟨.span, 0x8018, 1, 0x0, 19, 16, .rw, .val 0, .warm⟩
/-- Table 9-15, R245: A PATHLOSS was received -/
def CWK_SPAN_IRQ_PATHLOSS : Field := ⟨.span, 0x8018, 1, 0x0, 3, 3, .w1c, .val 0, .warm⟩
/-- Table 9-15, R245: R243 -/
def CWK_SPAN_IRQ_REJOINED : Field := ⟨.span, 0x8018, 1, 0x0, 2, 2, .w1c, .val 0, .warm⟩
/-- Table 9-15, R245: R242 -/
def CWK_SPAN_IRQ_EXCLUDED : Field := ⟨.span, 0x8018, 1, 0x0, 1, 1, .w1c, .val 0, .warm⟩
/-- Table 9-15, R245: A CWK_PATHt changed -/
def CWK_SPAN_IRQ_PATH_CHANGE : Field := ⟨.span, 0x8018, 1, 0x0, 0, 0, .w1c, .val 0, .warm⟩
/-- Table 9-15, R245: R238; saturating -/
def CWK_SPAN_ERR_SMAP_REJECT : Field := ⟨.span, 0x8020, 1, 0x0, 15, 0, .rc, .val 0, .warm⟩
/-- Table 9-15, R245: 0 self or not a member, 1 direct, 2 relay, 3 unreachable -/
def CWK_PATH_KIND : Field := ⟨.span, 0x8100, 16, 0x8, 17, 16, .ro, .val 0, .warm⟩
/-- Table 9-15, R245: First link of the path -/
def CWK_PATH_LINK : Field := ⟨.span, 0x8100, 16, 0x8, 10, 8, .ro, .val 0, .warm⟩
/-- Table 9-15, R245: Relay slot when KIND is 2 -/
def CWK_PATH_RELAY : Field := ⟨.span, 0x8100, 16, 0x8, 3, 0, .ro, .val 0, .warm⟩
/-- Table 9-15, R245: First local unit (256 MiB) -/
def CWK_SMAP_BASE_BASE : Field := ⟨.span, 0x9000, 64, 0x20, 18, 0, .rwl, .val 0, .warm⟩
/-- Table 9-15, R245: First local unit after the entry -/
def CWK_SMAP_LIMIT_LIMIT : Field := ⟨.span, 0x9008, 64, 0x20, 18, 0, .rwl, .val 0, .warm⟩
/-- Table 9-15, R245: First remote unit (IMPORT) -/
def CWK_SMAP_RBASE_RBASE : Field := ⟨.span, 0x9010, 64, 0x20, 18, 0, .rwl, .val 0, .warm⟩
/-- Table 9-15, R245: R238 -/
def CWK_SMAP_CTL_VALID : Field := ⟨.span, 0x9018, 64, 0x20, 63, 63, .rwl, .val 0, .warm⟩
/-- Table 9-15, R245: 0 none, 1 IMPORT, 2 EXPORT -/
def CWK_SMAP_CTL_TYPE : Field := ⟨.span, 0x9018, 64, 0x20, 33, 32, .rwl, .val 0, .warm⟩
/-- Table 9-15, R245: EXPORT: slots admitted -/
def CWK_SMAP_CTL_SLOTS : Field := ⟨.span, 0x9018, 64, 0x20, 31, 16, .rwl, .val 0, .warm⟩
/-- Table 9-15, R245: IMPORT: member -/
def CWK_SMAP_CTL_SLOT : Field := ⟨.span, 0x9018, 64, 0x20, 3, 0, .rwl, .val 0, .warm⟩

/-- Table 10-5, R271: MT/s divided by 100 (reset: image) -/
def DRC_CFG_RATE : Field := ⟨.drc, 0x0, 1, 0x0, 31, 24, .ro, .val 0, .warm⟩
/-- Table 10-5, R271: Dies per package: 0 one, 1 two, 2 four (R247) -/
def DRC_CFG_DIES : Field := ⟨.drc, 0x0, 1, 0x0, 21, 20, .ro, .val 0, .warm⟩
/-- Table 10-5, R271: As CHN (reset: image) -/
def DRC_CFG_DENS : Field := ⟨.drc, 0x0, 1, 0x0, 17, 16, .ro, .val 0, .warm⟩
/-- Table 10-5, R271: 1 x8, 0 x4 (reset: image) -/
def DRC_CFG_WIDTH8 : Field := ⟨.drc, 0x0, 1, 0x0, 12, 12, .ro, .val 0, .warm⟩
/-- Table 10-5, R271: Ranks per DIMM (reset: image) -/
def DRC_CFG_RANKS : Field := ⟨.drc, 0x0, 1, 0x0, 10, 8, .ro, .val 0, .warm⟩
/-- Table 10-5, R271: DIMMs (reset: image) -/
def DRC_CFG_DPC : Field := ⟨.drc, 0x0, 1, 0x0, 5, 4, .ro, .val 0, .warm⟩
/-- Table 10-5, R271: Excluded (R16, R267, R268) -/
def DRC_CFG_EXCLUDED : Field := ⟨.drc, 0x0, 1, 0x0, 1, 1, .ro, .val 0, .warm⟩
/-- Table 10-5, R271: Trained and in use -/
def DRC_CFG_PRESENT : Field := ⟨.drc, 0x0, 1, 0x0, 0, 0, .ro, .val 0, .warm⟩
/-- Table 10-6, R271: 1: parking needs an open PARK_WINDOW (R258) -/
def DRC_CTL_PARK_WIN_REQ : Field := ⟨.drc, 0x8, 1, 0x0, 3, 3, .rwl, .val 0, .warm⟩
/-- Table 10-6, R271: 1: same-bank refresh (R263) -/
def DRC_CTL_SB_REF : Field := ⟨.drc, 0x8, 1, 0x0, 2, 2, .rwl, .val 1, .warm⟩
/-- Table 10-6, R271: 0: no rank powers down -/
def DRC_CTL_PD_EN : Field := ⟨.drc, 0x8, 1, 0x0, 1, 1, .rw, .val 1, .warm⟩
/-- Table 10-6, R271: Locks RWL fields until WARM reset -/
def DRC_CTL_LOCK : Field := ⟨.drc, 0x8, 1, 0x0, 0, 0, .w1s, .val 0, .warm⟩
/-- Table 10-7, R271: Write-drain entry, 1–64 (R254) -/
def DRC_SCHED_WR_HI : Field := ⟨.drc, 0x10, 1, 0x0, 14, 8, .rw, .val 48, .warm⟩
/-- Table 10-7, R271: Write-drain exit, below WR_HI; a larger write stores WR_HI − 1 -/
def DRC_SCHED_WR_LO : Field := ⟨.drc, 0x10, 1, 0x0, 6, 0, .rw, .val 16, .warm⟩
/-- Table 10-7, R271: 1: tREFI halved (R263) -/
def DRC_REF_SCALE : Field := ⟨.drc, 0x40, 1, 0x0, 48, 48, .rw, .val 0, .warm⟩
/-- Table 10-7, R271: tREFI in force, ST units. Reads 7,800 while any rank of the channel runs the halved interval of R263, and 15,600 otherwise. Each rank's own interval follows R263 -/
def DRC_REF_TREFI : Field := ⟨.drc, 0x40, 1, 0x0, 47, 32, .ro, .val 0x3CF0, .warm⟩
/-- Table 10-7, R271: ST units, 0–15,598. A write of 15,600 or more stores the value modulo 15,600. Bit 0 ignored (R264) -/
def DRC_REF_PHASE_OFS : Field := ⟨.drc, 0x40, 1, 0x0, 15, 0, .rw, .val 0, .warm⟩
/-- Table 10-7, R271: R262 (reset: image) -/
def DRC_PARK_PARK_MAX_MS : Field := ⟨.drc, 0x38, 1, 0x0, 47, 32, .rw, .val 0, .warm⟩
/-- Table 10-7, R271: R258 -/
def DRC_PARK_PARK_IDLE_US : Field := ⟨.drc, 0x38, 1, 0x0, 19, 0, .rw, .val 0x3E8, .warm⟩
/-- Table 10-7, R271: R265 -/
def DRC_STATUS_PHASE_STALE : Field := ⟨.drc, 0x48, 1, 0x0, 40, 40, .ro, .val 0, .warm⟩
/-- Table 10-7, R271: 0 OK; 1–6 flow of R266 that failed; 7 SPD mismatch -/
def DRC_STATUS_TRAIN_RESULT : Field := ⟨.drc, 0x48, 1, 0x0, 39, 32, .ro, .val 0, .warm⟩
/-- Table 10-7, R271: 0 none, 1 seeded, 2 full -/
def DRC_STATUS_TRAIN_MODE : Field := ⟨.drc, 0x48, 1, 0x0, 29, 28, .ro, .val 0, .warm⟩
/-- Table 10-7, R271: Duration of the last training -/
def DRC_STATUS_TRAIN_MS : Field := ⟨.drc, 0x48, 1, 0x0, 25, 16, .ro, .val 0, .warm⟩
/-- Table 10-7, R271: Suspension in force (R256) -/
def DRC_STATUS_PANIC : Field := ⟨.drc, 0x48, 1, 0x0, 0, 0, .ro, .val 0, .warm⟩
/-- Table 10-8, R271: Urgency presented (R255) -/
def DRC_RT_URG : Field := ⟨.drc, 0x20, 2, 0x8, 49, 48, .ro, .val 0, .warm⟩
/-- Table 10-8, R271: Current level -/
def DRC_RT_LEVEL : Field := ⟨.drc, 0x20, 2, 0x8, 46, 40, .ro, .val 0, .warm⟩
/-- Table 10-8, R271: Below PANIC_LVL -/
def DRC_RT_RELEASE_LVL : Field := ⟨.drc, 0x20, 2, 0x8, 30, 24, .rw, .val 24, .warm⟩
/-- Table 10-8, R271: 1–64 -/
def DRC_RT_PANIC_LVL : Field := ⟨.drc, 0x20, 2, 0x8, 22, 16, .rw, .val 48, .warm⟩
/-- Table 10-8, R271: R255 -/
def DRC_RT_U2 : Field := ⟨.drc, 0x20, 2, 0x8, 14, 8, .rw, .val 32, .warm⟩
/-- Table 10-8, R271: R255 -/
def DRC_RT_U1 : Field := ⟨.drc, 0x20, 2, 0x8, 6, 0, .rw, .val 16, .warm⟩
/-- Table 10-9, R271: 1 PARK, 2 WAKE; others ignored -/
def DRC_RANK_CTL_CMD : Field := ⟨.drc, 0x100, 4, 0x20, 33, 32, .wo, .val 0, .warm⟩
/-- Table 10-9, R271: R258; reads 0 for a rank not in LOFT_RANKS -/
def DRC_RANK_CTL_PARK_EN : Field := ⟨.drc, 0x100, 4, 0x20, 16, 16, .rw, .val 0, .warm⟩
/-- Table 10-9, R271: CCLKs (R257) -/
def DRC_RANK_CTL_PD_IDLE : Field := ⟨.drc, 0x100, 4, 0x20, 15, 0, .rw, .val 0x100, .warm⟩
/-- Table 10-9, R271: Signed refresh debt, −4 to 4 -/
def DRC_RANK_STATUS_POSTPONE : Field := ⟨.drc, 0x108, 4, 0x20, 19, 16, .ro, .val 0, .warm⟩
/-- Table 10-9, R271: Held awake by R265 -/
def DRC_RANK_STATUS_HOT : Field := ⟨.drc, 0x108, 4, 0x20, 8, 8, .ro, .val 0, .warm⟩
/-- Table 10-9, R271: Named in LOFT_RANKS (reset: image) -/
def DRC_RANK_STATUS_LOFT : Field := ⟨.drc, 0x108, 4, 0x20, 4, 4, .ro, .val 0, .warm⟩
/-- Table 10-9, R271: 0 ABSENT, 1 ACTIVE, 2 POWERDOWN, 3 PARKING, 4 PARKED, 5 WAKING, 6 CHECKING, 7 OFFLINE -/
def DRC_RANK_STATUS_STATE : Field := ⟨.drc, 0x108, 4, 0x20, 2, 0, .ro, .val 0, .warm⟩
/-- Table 10-9, R271: ST of the last park entry -/
def DRC_RANK_PARK_ST_ST : Field := ⟨.drc, 0x110, 4, 0x20, 63, 0, .ro, .val 0, .warm⟩
/-- Table 10-9, R271: Wakes; saturating -/
def DRC_RANK_CNT_WAKES : Field := ⟨.drc, 0x118, 4, 0x20, 63, 32, .rc, .val 0, .warm⟩
/-- Table 10-9, R271: Park entries; saturating -/
def DRC_RANK_CNT_PARKS : Field := ⟨.drc, 0x118, 4, 0x20, 31, 0, .rc, .val 0, .warm⟩
/-- Table 10-10, R271: Last PMIC status byte -/
def DRC_DIMM_0_PMIC_STAT : Field := ⟨.drc, 0x200, 2, 0x10, 47, 40, .ro, .val 0, .warm⟩
/-- Table 10-10, R271: Hub sensor, 0.25 °C units, signed -/
def DRC_DIMM_0_TEMP : Field := ⟨.drc, 0x200, 2, 0x10, 31, 16, .ro, .val 0, .warm⟩
/-- Table 10-10, R271: R268 -/
def DRC_DIMM_0_HID : Field := ⟨.drc, 0x200, 2, 0x10, 10, 8, .ro, .hid, .warm⟩
/-- Table 10-10, R271: Hub answered -/
def DRC_DIMM_0_PRESENT : Field := ⟨.drc, 0x200, 2, 0x10, 0, 0, .ro, .val 0, .warm⟩
/-- Table 10-10, R271: SPD module serial number -/
def DRC_DIMM_1_SERIAL : Field := ⟨.drc, 0x208, 2, 0x10, 31, 0, .ro, .val 0, .warm⟩
/-- Table 10-11, R271: Transfers not acknowledged; saturating -/
def DRC_SBUS_NAK : Field := ⟨.drc, 0x300, 1, 0x0, 31, 16, .rc, .val 0, .warm⟩
/-- Table 10-11, R271: Transfer in progress -/
def DRC_SBUS_BUSY : Field := ⟨.drc, 0x300, 1, 0x0, 1, 1, .ro, .val 0, .warm⟩
/-- Table 10-11, R271: 1: I3C SDR; 0: I2C -/
def DRC_SBUS_I3C : Field := ⟨.drc, 0x300, 1, 0x0, 0, 0, .ro, .val 0, .warm⟩
/-- Table 10-12, R271: R256; saturating -/
def DRC_ERR_PANIC_EXPIRE : Field := ⟨.drc, 0x50, 1, 0x0, 63, 48, .rc, .val 0, .warm⟩
/-- Table 10-12, R271: R263; saturating -/
def DRC_ERR_REF_URGENT : Field := ⟨.drc, 0x50, 1, 0x0, 47, 32, .rc, .val 0, .warm⟩
/-- Table 10-12, R271: R260; saturating -/
def DRC_ERR_WAKE_LATE : Field := ⟨.drc, 0x50, 1, 0x0, 31, 16, .rc, .val 0, .warm⟩
/-- Table 10-12, R271: R269; saturating -/
def DRC_ERR_PMIC_FAULT : Field := ⟨.drc, 0x50, 1, 0x0, 15, 0, .rc, .val 0, .warm⟩
/-- Table 10-12, R271: Interrupt enable for bits [4:0] -/
def DRC_IRQ_EN : Field := ⟨.drc, 0x58, 1, 0x0, 20, 16, .rw, .val 0, .warm⟩
/-- Table 10-12, R271: R269 -/
def DRC_IRQ_PMIC : Field := ⟨.drc, 0x58, 1, 0x0, 4, 4, .w1c, .val 0, .warm⟩
/-- Table 10-12, R271: R265 -/
def DRC_IRQ_DIMM_HOT : Field := ⟨.drc, 0x58, 1, 0x0, 3, 3, .w1c, .val 0, .warm⟩
/-- Table 10-12, R271: R260 -/
def DRC_IRQ_WAKE_LATE : Field := ⟨.drc, 0x58, 1, 0x0, 2, 2, .w1c, .val 0, .warm⟩
/-- Table 10-12, R271: R256 -/
def DRC_IRQ_PANIC_EXPIRE : Field := ⟨.drc, 0x58, 1, 0x0, 1, 1, .w1c, .val 0, .warm⟩
/-- Table 10-12, R271: R267 -/
def DRC_IRQ_TRAIN_FAIL : Field := ⟨.drc, 0x58, 1, 0x0, 0, 0, .w1c, .val 0, .warm⟩
/-- Table 10-13, R271: n: 0 reads; 1 writes; 2 activates; 3 column commands to an open row; 4 refresh commands; 5 PANIC events; 6 reads served from queued writes; 7 write-drain entries. Saturating -/
def DRC_STAT_COUNT : Field := ⟨.drc, 0x80, 8, 0x8, 63, 0, .rc, .val 0, .warm⟩
/-- Table 11-4, R287: 1: demand corrections are rewritten (R283) -/
def DRC_ECC_CTL_DEMAND_FIX : Field := ⟨.drc, 0x1000, 1, 0x0, 1, 1, .rwl, .val 1, .warm⟩
/-- Table 11-4, R287: Locks RWL fields until WARM reset -/
def DRC_ECC_CTL_LOCK : Field := ⟨.drc, 0x1000, 1, 0x0, 0, 0, .w1s, .val 0, .warm⟩
/-- Table 11-5, R287: CORRECTED outcomes; saturating -/
def DRC_ECC_ERR_CE : Field := ⟨.drc, 0x1008, 1, 0x0, 63, 32, .rc, .val 0, .warm⟩
/-- Table 11-5, R287: UNCORRECTABLE after retry; saturating -/
def DRC_ECC_ERR_UE : Field := ⟨.drc, 0x1008, 1, 0x0, 31, 16, .rc, .val 0, .warm⟩
/-- Table 11-5, R287: ADDRESS_FAULT after retry; saturating -/
def DRC_ECC_ERR_AF : Field := ⟨.drc, 0x1008, 1, 0x0, 15, 0, .rc, .val 0, .warm⟩
/-- Table 11-5, R287: R276; saturating -/
def DRC_ECC_ERR2_RETRY_OK : Field := ⟨.drc, 0x1010, 1, 0x0, 31, 16, .rc, .val 0, .warm⟩
/-- Table 11-5, R287: Lines written poisoned (R277); saturating -/
def DRC_ECC_ERR2_POISON_WR : Field := ⟨.drc, 0x1010, 1, 0x0, 15, 0, .rc, .val 0, .warm⟩
/-- Table 11-5, R287: Interrupt enable for bits [6:0] -/
def DRC_ECC_IRQ_EN : Field := ⟨.drc, 0x1018, 1, 0x0, 22, 16, .rw, .val 0, .warm⟩
/-- Table 11-5, R287: A repair ended -/
def DRC_ECC_IRQ_PPR_DONE : Field := ⟨.drc, 0x1018, 1, 0x0, 6, 6, .w1c, .val 0, .warm⟩
/-- Table 11-5, R287: An install or retire ended -/
def DRC_ECC_IRQ_REMAP_DONE : Field := ⟨.drc, 0x1018, 1, 0x0, 5, 5, .w1c, .val 0, .warm⟩
/-- Table 11-5, R287: R282 -/
def DRC_ECC_IRQ_SCRUB_FORCED : Field := ⟨.drc, 0x1018, 1, 0x0, 4, 4, .w1c, .val 0, .warm⟩
/-- Table 11-5, R287: R279 -/
def DRC_ECC_IRQ_MARK : Field := ⟨.drc, 0x1018, 1, 0x0, 3, 3, .w1c, .val 0, .warm⟩
/-- Table 11-5, R287: R279 -/
def DRC_ECC_IRQ_CE_THR : Field := ⟨.drc, 0x1018, 1, 0x0, 2, 2, .w1c, .val 0, .warm⟩
/-- Table 11-5, R287: An address fault after retry -/
def DRC_ECC_IRQ_AF : Field := ⟨.drc, 0x1018, 1, 0x0, 1, 1, .w1c, .val 0, .warm⟩
/-- Table 11-5, R287: An uncorrectable error after retry -/
def DRC_ECC_IRQ_UE : Field := ⟨.drc, 0x1018, 1, 0x0, 0, 0, .w1c, .val 0, .warm⟩
/-- Table 11-6, R287: 0 demand read, 1 scrubber -/
def DRC_ECC_LAST_SRC : Field := ⟨.drc, 0x1020, 1, 0x0, 44, 44, .ro, .val 0, .warm⟩
/-- Table 11-6, R287: 2 UNCORRECTABLE, 3 ADDRESS_FAULT -/
def DRC_ECC_LAST_OUTCOME : Field := ⟨.drc, 0x1020, 1, 0x0, 42, 40, .ro, .val 0, .warm⟩
/-- Table 11-6, R287: Expected CLA of the last failure -/
def DRC_ECC_LAST_CLA : Field := ⟨.drc, 0x1020, 1, 0x0, 37, 0, .ro, .val 0, .warm⟩
/-- Table 11-6, R287: A' of the last address fault (R276) -/
def DRC_ECC_LAST_AF_A_STORED : Field := ⟨.drc, 0x1028, 1, 0x0, 39, 0, .ro, .val 0, .warm⟩
/-- Table 11-7, R287: 1 on x4 ranks, 0 on x8 (R279) (reset: width) -/
def DRC_ECC_RANK_MARK_AUTO_MARK : Field := ⟨.drc, 0x1100, 4, 0x20, 16, 16, .rw, .val 0, .warm⟩
/-- Table 11-7, R287: Marked device; 0xF none (R278) -/
def DRC_ECC_RANK_MARK_MARK_DEV : Field := ⟨.drc, 0x1100, 4, 0x20, 3, 0, .rw, .val 15, .warm⟩
/-- Table 11-7, R287: Counter halving period in h, 1–255; 0 stores 1 -/
def DRC_ECC_RANK_THR_LEAK_H : Field := ⟨.drc, 0x1108, 4, 0x20, 23, 16, .rw, .val 24, .warm⟩
/-- Table 11-7, R287: Threshold, 1–63; 0 stores 1 -/
def DRC_ECC_RANK_THR_DEV_THR : Field := ⟨.drc, 0x1108, 4, 0x20, 5, 0, .rw, .val 32, .warm⟩
/-- Table 11-7, R287: Device d's counter in bits [6d+5:6d] -/
def DRC_ECC_RANK_DEVCE_DEVCE : Field := ⟨.drc, 0x1110, 4, 0x20, 59, 0, .ro, .val 0, .warm⟩
/-- Table 11-8, R287: ST units per line in windows and forced scrubs, 20–65,534; bit 0 ignored -/
def DRC_SCRUB_CTL_WIN_STEP : Field := ⟨.drc, 0x1200, 1, 0x0, 31, 16, .rw, .val 40, .warm⟩
/-- Table 11-8, R287: Target awake pass period (R281) -/
def DRC_SCRUB_CTL_PERIOD_H : Field := ⟨.drc, 0x1200, 1, 0x0, 8, 0, .rw, .val 24, .warm⟩
/-- Table 11-8, R287: ST units per line, this pass -/
def DRC_SCRUB_STAT_STEP : Field := ⟨.drc, 0x1208, 1, 0x0, 63, 32, .ro, .val 0, .warm⟩
/-- Table 11-8, R287: R283; saturating -/
def DRC_SCRUB_STAT_POISON_SEEN : Field := ⟨.drc, 0x1208, 1, 0x0, 31, 0, .rc, .val 0, .warm⟩
/-- Table 11-8, R287: Next awake line -/
def DRC_SCRUB_CUR_CLA : Field := ⟨.drc, 0x1210, 1, 0x0, 37, 0, .ro, .val 0, .warm⟩
/-- Table 11-8, R287: Awake passes completed since WARM reset -/
def DRC_SCRUB_PASS_PASSES : Field := ⟨.drc, 0x1218, 1, 0x0, 63, 32, .ro, .val 0, .warm⟩
/-- Table 11-8, R287: Duration of the last awake pass, in s -/
def DRC_SCRUB_PASS_LAST_S : Field := ⟨.drc, 0x1218, 1, 0x0, 31, 0, .ro, .val 0, .warm⟩
/-- Table 11-8, R287: R282 -/
def DRC_SCRUB_RANK_CUR_FORCED : Field := ⟨.drc, 0x1280, 4, 0x10, 63, 63, .ro, .val 0, .warm⟩
/-- Table 11-8, R287: Next Loft line, rank-local L -/
def DRC_SCRUB_RANK_CUR_CURSOR : Field := ⟨.drc, 0x1280, 4, 0x10, 35, 0, .ro, .val 0, .warm⟩
/-- Table 11-8, R287: ST at which the rank's current pass began -/
def DRC_SCRUB_RANK_ST_PASS_ST : Field := ⟨.drc, 0x1288, 4, 0x10, 63, 0, .ro, .val 0, .warm⟩
/-- Table 11-9, R287: 0 FREE, 1 COPYING, 2 ACTIVE -/
def DRC_REMAP_0_STATE : Field := ⟨.drc, 0x1400, 16, 0x10, 49, 48, .ro, .val 0, .warm⟩
/-- Table 11-9, R287: Generation of the entry (R284) -/
def DRC_REMAP_0_GEN : Field := ⟨.drc, 0x1400, 16, 0x10, 41, 40, .ro, .val 0, .warm⟩
/-- Table 11-9, R287: Original line; ignored unless STATE is FREE -/
def DRC_REMAP_0_ORIG_CLA : Field := ⟨.drc, 0x1400, 16, 0x10, 37, 0, .rw, .val 0, .warm⟩
/-- Table 11-9, R287: 0 OK, 1 refused, 2 no spare region -/
def DRC_REMAP_1_RESULT : Field := ⟨.drc, 0x1408, 16, 0x10, 26, 24, .ro, .val 0, .warm⟩
/-- Table 11-9, R287: 1 install, 2 retire -/
def DRC_REMAP_1_CMD : Field := ⟨.drc, 0x1408, 16, 0x10, 17, 16, .wo, .val 0, .warm⟩
/-- Table 11-9, R287: Spare line index; ignored unless STATE is FREE -/
def DRC_REMAP_1_SPARE : Field := ⟨.drc, 0x1408, 16, 0x10, 14, 0, .rw, .val 0, .warm⟩
/-- Table 11-9, R287: Row -/
def DRC_PPR_ROW : Field := ⟨.drc, 0x1600, 1, 0x0, 49, 32, .rw, .val 0, .warm⟩
/-- Table 11-9, R287: Devices repaired, by per-DRAM addressability -/
def DRC_PPR_DEVMASK : Field := ⟨.drc, 0x1600, 1, 0x0, 25, 16, .rw, .val 0x3FF, .warm⟩
/-- Table 11-9, R287: Bank within group -/
def DRC_PPR_BANK : Field := ⟨.drc, 0x1600, 1, 0x0, 13, 12, .rw, .val 0, .warm⟩
/-- Table 11-9, R287: Device bank group, after the row XOR -/
def DRC_PPR_BG : Field := ⟨.drc, 0x1600, 1, 0x0, 10, 8, .rw, .val 0, .warm⟩
/-- Table 11-9, R287: Chip ID -/
def DRC_PPR_CHIP : Field := ⟨.drc, 0x1600, 1, 0x0, 5, 4, .rw, .val 0, .warm⟩
/-- Table 11-9, R287: Subchannel -/
def DRC_PPR_SUB : Field := ⟨.drc, 0x1600, 1, 0x0, 2, 2, .rw, .val 0, .warm⟩
/-- Table 11-9, R287: Rank -/
def DRC_PPR_RANK : Field := ⟨.drc, 0x1600, 1, 0x0, 1, 0, .rw, .val 0, .warm⟩
/-- Table 11-9, R287: Last request ended -/
def DRC_PPR_CMD_DONE : Field := ⟨.drc, 0x1610, 1, 0x0, 31, 31, .ro, .val 0, .warm⟩
/-- Table 11-9, R287: 0 OK, 1 no spare row, 2 not permitted, 3 timeout, 4 busy -/
def DRC_PPR_CMD_RESULT : Field := ⟨.drc, 0x1610, 1, 0x0, 30, 28, .ro, .val 0, .warm⟩
/-- Table 11-9, R287: 1 soft, 2 hard; a write while a repair runs ends with RESULT 4 -/
def DRC_PPR_CMD_TYPE : Field := ⟨.drc, 0x1610, 1, 0x0, 1, 0, .wo, .val 0, .warm⟩

/-- Table 12-9, R311: Items to release; 0 none -/
def CRQ_CMD_RELEASE : Field := ⟨.crq, 0x140, 1, 0x0, 46, 32, .wo, .val 0, .warm⟩
/-- Table 12-9, R311: 1: REWIND -/
def CRQ_CMD_REWIND : Field := ⟨.crq, 0x140, 1, 0x0, 1, 1, .wo, .val 0, .warm⟩
/-- Table 12-9, R311: 1: MARK. One write acts in the order of R291 -/
def CRQ_CMD_MARK : Field := ⟨.crq, 0x140, 1, 0x0, 0, 0, .wo, .val 0, .warm⟩
/-- Table 12-9, R311: R289 -/
def CRQ_PTR0_D : Field := ⟨.crq, 0x148, 1, 0x0, 63, 32, .ro, .val 0, .warm⟩
/-- Table 12-9, R311: R289 -/
def CRQ_PTR0_W : Field := ⟨.crq, 0x148, 1, 0x0, 31, 0, .ro, .val 0, .warm⟩
/-- Table 12-9, R311: R289 -/
def CRQ_PTR1_M : Field := ⟨.crq, 0x150, 1, 0x0, 63, 32, .ro, .val 0, .warm⟩
/-- Table 12-9, R311: R289 -/
def CRQ_PTR1_L : Field := ⟨.crq, 0x150, 1, 0x0, 31, 0, .ro, .val 0, .warm⟩
/-- Table 12-10, R311: Consumer endpoint 0–40, or 0x7F host -/
def CRQ_CFG_CONS : Field := ⟨.crq, 0x158, 1, 0x0, 63, 56, .rw, .val 0, .warm⟩
/-- Table 12-10, R311: Cut-through threshold, 1 to CAP (R295) -/
def CRQ_CFG_CT : Field := ⟨.crq, 0x158, 1, 0x0, 46, 32, .rw, .val 1, .warm⟩
/-- Table 12-10, R311: First queue-RAM item (R288) -/
def CRQ_CFG_BASE : Field := ⟨.crq, 0x158, 1, 0x0, 28, 12, .rw, .val 0, .warm⟩
/-- Table 12-10, R311: 4–14; other values store the nearer bound -/
def CRQ_CFG_CAP_LOG2 : Field := ⟨.crq, 0x158, 1, 0x0, 11, 8, .rw, .val 4, .warm⟩
/-- Table 12-10, R311: Pop also releases (Table 12-1) -/
def CRQ_CFG_AUTO_REL : Field := ⟨.crq, 0x158, 1, 0x0, 2, 2, .rw, .val 0, .warm⟩
/-- Table 12-10, R311: Host pops served (R292, R294) -/
def CRQ_CFG_HOSTRD : Field := ⟨.crq, 0x158, 1, 0x0, 1, 1, .rw, .val 0, .warm⟩
/-- Table 12-10, R311: R288 -/
def CRQ_CFG_EN : Field := ⟨.crq, 0x158, 1, 0x0, 0, 0, .rw, .val 0, .warm⟩
/-- Table 12-10, R311: 0 off, otherwise 100–1,000,000; other values store the nearer bound -/
def CRQ_GAP_GAP_NS : Field := ⟨.crq, 0x160, 1, 0x0, 19, 0, .rw, .val 0, .warm⟩
/-- Table 12-11, R311: R294; saturating -/
def CRQ_STAT_DROP : Field := ⟨.crq, 0x168, 1, 0x0, 63, 48, .rc, .val 0, .warm⟩
/-- Table 12-11, R311: R296, R297; saturating -/
def CRQ_STAT_TRUNC : Field := ⟨.crq, 0x168, 1, 0x0, 47, 32, .rc, .val 0, .warm⟩
/-- Table 12-11, R311: R298; saturating -/
def CRQ_STAT_QRESETS : Field := ⟨.crq, 0x168, 1, 0x0, 31, 16, .rc, .val 0, .warm⟩
/-- Table 12-11, R311: R288, R290, R294; saturating -/
def CRQ_STAT_BAD_CMD : Field := ⟨.crq, 0x168, 1, 0x0, 15, 0, .rc, .val 0, .warm⟩
/-- Table 12-11, R311: Interrupt enable for bits [3:0] -/
def CRQ_IRQ_EN : Field := ⟨.crq, 0x170, 1, 0x0, 19, 16, .rw, .val 0, .warm⟩
/-- Table 12-11, R311: R298 -/
def CRQ_IRQ_QRESET : Field := ⟨.crq, 0x170, 1, 0x0, 3, 3, .w1c, .val 0, .warm⟩
/-- Table 12-11, R311: A packet was truncated -/
def CRQ_IRQ_TRUNC : Field := ⟨.crq, 0x170, 1, 0x0, 2, 2, .w1c, .val 0, .warm⟩
/-- Table 12-11, R311: A host push was discarded -/
def CRQ_IRQ_DROP : Field := ⟨.crq, 0x170, 1, 0x0, 1, 1, .w1c, .val 0, .warm⟩
/-- Table 12-11, R311: A push found A = 0 -/
def CRQ_IRQ_ITEM : Field := ⟨.crq, 0x170, 1, 0x0, 0, 0, .w1c, .val 0, .warm⟩
/-- Table 12-11, R311: R309; ignored unless the queue is a bound DQ -/
def CRQ_ABORT_JOB_ID : Field := ⟨.crq, 0x178, 1, 0x0, 31, 0, .wo, .val 0, .warm⟩
/-- Table 12-11, R311: Result ready -/
def CRQ_ABORT_RES_DONE : Field := ⟨.crq, 0x180, 1, 0x0, 31, 31, .ro, .val 0, .warm⟩
/-- Table 12-11, R311: 1 ABORTED, 2 ABORT_LATE, 3 NOT_FOUND, 4 BUSY -/
def CRQ_ABORT_RES_RESULT : Field := ⟨.crq, 0x180, 1, 0x0, 2, 0, .ro, .val 0, .warm⟩
/-- Table 12-11, R311: R296 -/
def CRQ_STATE_DISCARD : Field := ⟨.crq, 0x188, 1, 0x0, 2, 2, .ro, .val 0, .warm⟩
/-- Table 12-11, R311: The producer's packet lacks its EOP -/
def CRQ_STATE_PROD_OPEN : Field := ⟨.crq, 0x188, 1, 0x0, 1, 1, .ro, .val 0, .warm⟩
/-- Table 12-11, R311: The consumer is inside a packet -/
def CRQ_STATE_CONS_OPEN : Field := ⟨.crq, 0x188, 1, 0x0, 0, 0, .ro, .val 0, .warm⟩

/-- Table 13-4, R325: 1: ceilings enforced (R319) -/
def TST_CTL_CEIL_EN : Field := ⟨.tst, 0x0, 1, 0x0, 1, 1, .rwl, .val 1, .warm⟩
/-- Table 13-4, R325: Locks RWL fields until WARM reset -/
def TST_CTL_LOCK : Field := ⟨.tst, 0x0, 1, 0x0, 0, 0, .w1s, .val 0, .warm⟩
/-- Table 13-5, R325: Window length in force (reset: image) -/
def TST_WIN_WINDOW_US : Field := ⟨.tst, 0x8, 1, 0x0, 9, 0, .ro, .val 0, .warm⟩
/-- Table 13-5, R325: Deliverable budget in lines per µs; 0 unset (R318) -/
def TST_BUDGET_LPUS : Field := ⟨.tst, 0x10, 1, 0x0, 31, 0, .rw, .val 0, .warm⟩
/-- Table 13-5, R325: The last full window recorded a miss -/
def TST_STATUS_LAST_MISS : Field := ⟨.tst, 0x18, 1, 0x0, 3, 3, .ro, .val 0, .warm⟩
/-- Table 13-5, R325: The last window was short (R317) -/
def TST_STATUS_LAST_SHORT : Field := ⟨.tst, 0x18, 1, 0x0, 2, 2, .ro, .val 0, .warm⟩
/-- Table 13-5, R325: LPUS is 0 -/
def TST_STATUS_BUDGET_UNSET : Field := ⟨.tst, 0x18, 1, 0x0, 1, 1, .ro, .val 1, .warm⟩
/-- Table 13-5, R325: R318 -/
def TST_STATUS_OVERCOMMIT : Field := ⟨.tst, 0x18, 1, 0x0, 0, 0, .ro, .val 0, .warm⟩
/-- Table 13-5, R325: S′ of R318 -/
def TST_SUM_S : Field := ⟨.tst, 0x20, 1, 0x0, 63, 32, .ro, .val 0, .warm⟩
/-- Table 13-5, R325: B of R318 -/
def TST_SUM_B : Field := ⟨.tst, 0x20, 1, 0x0, 31, 0, .ro, .val 0, .warm⟩
/-- Table 13-5, R325: R318 -/
def TST_SCRUBMIN_SCRUB_MIN : Field := ⟨.tst, 0x28, 1, 0x0, 31, 0, .ro, .val 0, .warm⟩
/-- Table 13-5, R325: Windows closed; wraps -/
def TST_WINSEQ_SEQ : Field := ⟨.tst, 0x30, 1, 0x0, 31, 0, .ro, .val 0, .warm⟩
/-- Table 13-5, R325: ST of the last boundary -/
def TST_WIN_ST_ST : Field := ⟨.tst, 0x38, 1, 0x0, 63, 0, .ro, .val 0, .warm⟩
/-- Table 13-5, R325: Length of the last window in CCLKs -/
def TST_WIN_LEN_CCLKS : Field := ⟨.tst, 0x40, 1, 0x0, 31, 0, .ro, .val 0, .warm⟩
/-- Table 13-5, R325: Bit m: master m missed in the last full window -/
def TST_MISS0_MISS : Field := ⟨.tst, 0x48, 1, 0x0, 63, 0, .ro, .val 0, .warm⟩
/-- Table 13-5, R325: Bit m − 64, for masters 64–95 -/
def TST_MISS1_MISS : Field := ⟨.tst, 0x50, 1, 0x0, 31, 0, .ro, .val 0, .warm⟩
/-- Table 13-6, R325: Interrupt enable for bits [2:0] -/
def TST_IRQ_EN : Field := ⟨.tst, 0x58, 1, 0x0, 18, 16, .rw, .val 0, .warm⟩
/-- Table 13-6, R325: A boundary set OVERCOMMIT -/
def TST_IRQ_OVERCOMMIT : Field := ⟨.tst, 0x58, 1, 0x0, 2, 2, .w1c, .val 0, .warm⟩
/-- Table 13-6, R325: A short window closed -/
def TST_IRQ_SHORT : Field := ⟨.tst, 0x58, 1, 0x0, 1, 1, .w1c, .val 0, .warm⟩
/-- Table 13-6, R325: R323 -/
def TST_IRQ_MISS : Field := ⟨.tst, 0x58, 1, 0x0, 0, 0, .w1c, .val 0, .warm⟩
/-- Table 13-7, R325: Lines per window; 0 none; applied at the next boundary (reset: image) -/
def TST_M_LIM_CEIL : Field := ⟨.tst, 0x1000, 96, 0x40, 63, 32, .rw, .val 0, .warm⟩
/-- Table 13-7, R325: Lines per window; applied at the next boundary (reset: image) -/
def TST_M_LIM_GUAR : Field := ⟨.tst, 0x1000, 96, 0x40, 31, 0, .rw, .val 0, .warm⟩
/-- Table 13-7, R325: Latency-miss threshold; 0 disables (R323) -/
def TST_M_LAT_MISS_THR : Field := ⟨.tst, 0x1008, 96, 0x40, 47, 40, .rw, .val 0, .warm⟩
/-- Table 13-7, R325: Latency target in ns; 0 none (reset: image) -/
def TST_M_LAT_LAT_NS : Field := ⟨.tst, 0x1008, 96, 0x40, 31, 0, .rw, .val 0, .warm⟩
/-- Table 13-7, R325: Effective guarantee (R318) -/
def TST_M_EGUAR_EGUAR : Field := ⟨.tst, 0x1010, 96, 0x40, 31, 0, .ro, .val 0, .warm⟩
/-- Table 13-7, R325: Current window, live -/
def TST_M_LIVE_DEMAND : Field := ⟨.tst, 0x1018, 96, 0x40, 63, 32, .ro, .val 0, .warm⟩
/-- Table 13-7, R325: Current window, live -/
def TST_M_LIVE_SERVED : Field := ⟨.tst, 0x1018, 96, 0x40, 31, 0, .ro, .val 0, .warm⟩
/-- Table 13-7, R325: Last window -/
def TST_M_LAST_LDEMAND : Field := ⟨.tst, 0x1020, 96, 0x40, 63, 32, .ro, .val 0, .warm⟩
/-- Table 13-7, R325: Last window -/
def TST_M_LAST_LSERVED : Field := ⟨.tst, 0x1020, 96, 0x40, 31, 0, .ro, .val 0, .warm⟩
/-- Table 13-7, R325: Last window missed (R323) -/
def TST_M_MISS_LMISS : Field := ⟨.tst, 0x1028, 96, 0x40, 63, 63, .ro, .val 0, .warm⟩
/-- Table 13-7, R325: Latency misses in the last window -/
def TST_M_MISS_LLATMISS : Field := ⟨.tst, 0x1028, 96, 0x40, 31, 0, .ro, .val 0, .warm⟩
/-- Table 13-7, R325: Lines charged since WARM reset; wraps -/
def TST_M_TOTAL_TOTAL : Field := ⟨.tst, 0x1030, 96, 0x40, 63, 0, .ro, .val 0, .warm⟩
/-- Table 13-7, R325: Accesses held at the ceiling (R319) -/
def TST_M_STAT_HELD : Field := ⟨.tst, 0x1038, 96, 0x40, 9, 9, .ro, .val 0, .warm⟩
/-- Table 13-7, R325: Real-time master: 1 for masters 81–88 and 90, 0 for every other master. For masters 81–88, the real-time level of R321 applies only to their accesses through RT0 -/
def TST_M_STAT_RT : Field := ⟨.tst, 0x1038, 96, 0x40, 8, 8, .ro, .rtMaster, .cold⟩
/-- Table 13-7, R325: Highest urgency presented by its ports -/
def TST_M_STAT_URG : Field := ⟨.tst, 0x1038, 96, 0x40, 1, 0, .ro, .val 0, .warm⟩

/-- Table 14-6, R341: R327 -/
def CNT_CYC_CYCLES : Field := ⟨.cntu, 0x0, 1, 0x0, 63, 0, .ro, .val 0, .warm⟩
/-- Table 14-6, R341: Bit k: counter k overflowed (R329) -/
def CNT_OVF_OVF : Field := ⟨.cntu, 0x8, 1, 0x0, 7, 0, .w1c, .val 0, .warm⟩
/-- Table 14-6, R341: R339 -/
def CNT_SNAP_CYC_CYCLES : Field := ⟨.cntu, 0x10, 1, 0x0, 63, 0, .ro, .val 0, .warm⟩
/-- Table 14-6, R341: Overflow sets CNT_IRQ.OVF (reset: image) -/
def CNT_SEL_IRQ_EN : Field := ⟨.cntu, 0x20, 8, 0x8, 31, 31, .rw, .val 0, .warm⟩
/-- Table 14-6, R341: R330 (reset: image) -/
def CNT_SEL_SAMPLE : Field := ⟨.cntu, 0x20, 8, 0x8, 30, 30, .rw, .val 0, .warm⟩
/-- Table 14-6, R341: R327 (reset: image) -/
def CNT_SEL_EN : Field := ⟨.cntu, 0x20, 8, 0x8, 29, 29, .rw, .val 0, .warm⟩
/-- Table 14-6, R341: Table 14-2 (reset: image) -/
def CNT_SEL_EVENT : Field := ⟨.cntu, 0x20, 8, 0x8, 25, 16, .rw, .val 0, .warm⟩
/-- Table 14-6, R341: R328 (reset: image) -/
def CNT_SEL_QUAL : Field := ⟨.cntu, 0x20, 8, 0x8, 15, 0, .rw, .val 0, .warm⟩
/-- Table 14-6, R341: R330 (reset: image) -/
def CNT_PER_PERIOD : Field := ⟨.cntu, 0x60, 8, 0x8, 47, 0, .rw, .val 0, .warm⟩
/-- Table 14-6, R341: R327 to R331 -/
def CNT_CTR_COUNT : Field := ⟨.cntu, 0xA0, 8, 0x8, 47, 0, .rw, .val 0, .warm⟩
/-- Table 14-6, R341: R339 -/
def CNT_SNAP_COUNT : Field := ⟨.cntu, 0xE0, 8, 0x8, 47, 0, .ro, .val 0, .warm⟩

/-- Table 14-7, R341: 1: programmable counters hold; cycle counters run -/
def CNT_CTL_FREEZE : Field := ⟨.cnt, 0x8000, 1, 0x0, 1, 1, .rwl, .val 0, .warm⟩
/-- Table 14-7, R341: Locks RWL fields until WARM reset -/
def CNT_CTL_LOCK : Field := ⟨.cnt, 0x8000, 1, 0x0, 0, 0, .w1s, .val 0, .warm⟩
/-- Table 14-7, R341: 1: snapshot in the next CCLK -/
def CNT_SNAP_CTL_NOW : Field := ⟨.cnt, 0x8008, 1, 0x0, 0, 0, .wo, .val 0, .warm⟩
/-- Table 14-7, R341: Snapshots taken; wraps -/
def CNT_SNAP_SEQ_SEQ : Field := ⟨.cnt, 0x8010, 1, 0x0, 31, 0, .ro, .val 0, .warm⟩
/-- Table 14-7, R341: ST of the last snapshot -/
def CNT_SNAP_ST_ST : Field := ⟨.cnt, 0x8018, 1, 0x0, 63, 0, .ro, .val 0, .warm⟩
/-- Table 14-7, R341: Bit u: CNT_OVF of unit u is nonzero -/
def CNT_OVF_SUM_UNITS : Field := ⟨.cnt, 0x8020, 1, 0x0, 63, 0, .ro, .val 0, .warm⟩
/-- Table 14-7, R341: Interrupt enable for bits [1:0] -/
def CNT_IRQ_EN : Field := ⟨.cnt, 0x8028, 1, 0x0, 17, 16, .rw, .val 0, .warm⟩
/-- Table 14-7, R341: A snapshot was taken -/
def CNT_IRQ_SNAP : Field := ⟨.cnt, 0x8028, 1, 0x0, 1, 1, .w1c, .val 0, .warm⟩
/-- Table 14-7, R341: A counter with IRQ_EN overflowed -/
def CNT_IRQ_OVF : Field := ⟨.cnt, 0x8028, 1, 0x0, 0, 0, .w1c, .val 0, .warm⟩
/-- Table 14-8, R341: Master m's DEMAND at the snapshot -/
def CNT_TSNAP_DEMAND : Field := ⟨.cnt, 0x9000, 96, 0x8, 63, 32, .ro, .val 0, .warm⟩
/-- Table 14-8, R341: Master m's SERVED at the snapshot -/
def CNT_TSNAP_SERVED : Field := ⟨.cnt, 0x9000, 96, 0x8, 31, 0, .ro, .val 0, .warm⟩
/-- Table 14-9, R341: 1–256; 0 stores 1 -/
def SMP_CTL_FLUSH_LVL : Field := ⟨.cnt, 0xA000, 1, 0x0, 16, 8, .rw, .val 64, .warm⟩
/-- Table 14-9, R341: 1: write every buffered record -/
def SMP_CTL_FLUSH : Field := ⟨.cnt, 0xA000, 1, 0x0, 2, 2, .wo, .val 0, .warm⟩
/-- Table 14-9, R341: Ring writes outstanding -/
def SMP_CTL_BUSY : Field := ⟨.cnt, 0xA000, 1, 0x0, 1, 1, .ro, .val 0, .warm⟩
/-- Table 14-9, R341: R338 -/
def SMP_CTL_EN : Field := ⟨.cnt, 0xA000, 1, 0x0, 0, 0, .rw, .val 0, .warm⟩
/-- Table 14-9, R341: DLA of the ring; ignored while EN is 1 -/
def SMP_BASE_BASE : Field := ⟨.cnt, 0xA008, 1, 0x0, 45, 0, .rw, .val 0, .warm⟩
/-- Table 14-9, R341: 1–1,024; ignored while EN is 1 -/
def SMP_SIZE_SIZE_MIB : Field := ⟨.cnt, 0xA010, 1, 0x0, 10, 0, .rw, .val 0, .warm⟩
/-- Table 14-9, R341: R337 -/
def SMP_PTR_RPTR : Field := ⟨.cnt, 0xA018, 1, 0x0, 63, 32, .rw, .val 0, .warm⟩
/-- Table 14-9, R341: R336 -/
def SMP_PTR_WPTR : Field := ⟨.cnt, 0xA018, 1, 0x0, 31, 0, .ro, .val 0, .warm⟩
/-- Table 14-9, R341: R337; saturating -/
def SMP_STAT_LOST : Field := ⟨.cnt, 0xA020, 1, 0x0, 63, 32, .rc, .val 0, .warm⟩
/-- Table 14-9, R341: Records in the buffer, 0–256 -/
def SMP_STAT_BUFFERED : Field := ⟨.cnt, 0xA020, 1, 0x0, 24, 16, .ro, .val 0, .warm⟩
/-- Table 14-9, R341: Last enable refused (R338) -/
def SMP_STAT_REJECT : Field := ⟨.cnt, 0xA020, 1, 0x0, 0, 0, .ro, .val 0, .warm⟩

/-- Table 15-7, R360: R344, R346; 1–65,535; 0 stores 1 -/
def PWR_CTL_DWELL_US : Field := ⟨.pwr, 0x0, 1, 0x0, 31, 16, .rw, .val 100, .warm⟩
/-- Table 15-7, R360: R343; values 5–7 store 4 -/
def PWR_CTL_MAX_FLOOR : Field := ⟨.pwr, 0x0, 1, 0x0, 6, 4, .rwl, .val 4, .warm⟩
/-- Table 15-7, R360: Locks RWL fields until WARM reset -/
def PWR_CTL_LOCK : Field := ⟨.pwr, 0x0, 1, 0x0, 0, 0, .w1s, .val 0, .warm⟩
/-- Table 15-8, R360: Tmin of R343; 0xFFFF_FFFF unbounded -/
def PWR_STATUS_TMIN_NS : Field := ⟨.pwr, 0x8, 1, 0x0, 63, 32, .ro, .val 0, .warm⟩
/-- Table 15-8, R360: R343 -/
def PWR_STATUS_SEC_LIMIT : Field := ⟨.pwr, 0x8, 1, 0x0, 30, 28, .ro, .val 4, .warm⟩
/-- Table 15-8, R360: R346; 0 none -/
def PWR_STATUS_BLOCK : Field := ⟨.pwr, 0x8, 1, 0x0, 26, 24, .ro, .val 0, .warm⟩
/-- Table 15-8, R360: TIM_FLOORCAP.MIN_FLOOR -/
def PWR_STATUS_CAP : Field := ⟨.pwr, 0x8, 1, 0x0, 22, 20, .ro, .val 0, .warm⟩
/-- Table 15-8, R360: FT of R343 -/
def PWR_STATUS_TOL_FLOOR : Field := ⟨.pwr, 0x8, 1, 0x0, 18, 16, .ro, .val 0, .warm⟩
/-- Table 15-8, R360: R343 -/
def PWR_STATUS_TARGET : Field := ⟨.pwr, 0x8, 1, 0x0, 14, 12, .ro, .val 0, .warm⟩
/-- Table 15-8, R360: R344 -/
def PWR_STATUS_FLOOR : Field := ⟨.pwr, 0x8, 1, 0x0, 10, 8, .ro, .val 0, .warm⟩
/-- Table 15-8, R360: A tolerance has been stated since the last WARM reset (R343) -/
def PWR_STATUS_TOL_SEEN : Field := ⟨.pwr, 0x8, 1, 0x0, 3, 3, .ro, .val 0, .warm⟩
/-- Table 15-8, R360: R348 throttle in force -/
def PWR_STATUS_THROTTLE : Field := ⟨.pwr, 0x8, 1, 0x0, 2, 2, .ro, .val 0, .warm⟩
/-- Table 15-8, R360: R348 -/
def PWR_STATUS_CAP_UNMET : Field := ⟨.pwr, 0x8, 1, 0x0, 1, 1, .ro, .val 0, .warm⟩
/-- Table 15-8, R360: R344 -/
def PWR_STATUS_TRANS : Field := ⟨.pwr, 0x8, 1, 0x0, 0, 0, .ro, .val 0, .warm⟩
/-- Table 15-9, R360: R348; 0 no throttle -/
def PWR_CAP_LPUS_LPUS : Field := ⟨.pwr, 0x10, 1, 0x0, 31, 0, .rw, .val 0, .warm⟩
/-- Table 15-9, R360: Interrupt enable for bits [3:0] -/
def PWR_IRQ_EN : Field := ⟨.pwr, 0x18, 1, 0x0, 19, 16, .rw, .val 0, .warm⟩
/-- Table 15-9, R360: R348 -/
def PWR_IRQ_CAP_UNMET : Field := ⟨.pwr, 0x18, 1, 0x0, 3, 3, .w1c, .val 0, .warm⟩
/-- Table 15-9, R360: Floor 4 entry asks the cores to sleep (R346) -/
def PWR_IRQ_SLEEP_REQ : Field := ⟨.pwr, 0x18, 1, 0x0, 2, 2, .w1c, .val 0, .warm⟩
/-- Table 15-9, R360: A transition stalled (R346) -/
def PWR_IRQ_BLOCK : Field := ⟨.pwr, 0x18, 1, 0x0, 1, 1, .w1c, .val 0, .warm⟩
/-- Table 15-9, R360: FLOOR changed -/
def PWR_IRQ_FLOOR : Field := ⟨.pwr, 0x18, 1, 0x0, 0, 0, .w1c, .val 0, .warm⟩
/-- Table 15-9, R360: CCLKs spent with FLOOR equal to f -/
def PWR_RES_CCLKS : Field := ⟨.pwr, 0x40, 5, 0x8, 63, 0, .ro, .val 0, .warm⟩
/-- Table 15-10, R360: Bit l: LD l (R349) -/
def PWR_LOFT_LD_LD_MASK : Field := ⟨.pwr, 0x100, 8, 0x20, 63, 0, .rw, .val 0, .warm⟩
/-- Table 15-10, R360: Bit k: rank group k -/
def PWR_LOFT_RG_RG_MASK : Field := ⟨.pwr, 0x108, 8, 0x20, 15, 0, .rw, .val 0, .warm⟩
/-- Table 15-10, R360: Entry in use -/
def PWR_LOFT_NS_VALID : Field := ⟨.pwr, 0x110, 8, 0x20, 63, 63, .rw, .val 0, .warm⟩
/-- Table 15-10, R360: Loft tolerance in ns -/
def PWR_LOFT_NS_LOFT_NS : Field := ⟨.pwr, 0x110, 8, 0x20, 31, 0, .rw, .val 0, .warm⟩
/-- Table 15-10, R360: Derived tolerance of rank group k -/
def PWR_LTOL_LOFT_NS : Field := ⟨.pwr, 0x200, 16, 0x8, 31, 0, .ro, .val 0xFFFFFFFF, .warm⟩
/-- Table 15-11, R360: Ramp rate in 0.1 V/ms, 1–100; writes outside store the nearer bound -/
def INL_CH_CTL_RAMP : Field := ⟨.pwr, 0x8000, 9, 0x40, 15, 8, .rw, .val 12, .inlet⟩
/-- Table 15-11, R360: R352, R358, R359; for c = 0, reads GUARD_EN -/
def INL_CH_CTL_EN : Field := ⟨.pwr, 0x8000, 9, 0x40, 0, 0, .rw, .val 0, .inlet⟩
/-- Table 15-11, R360: R350, R355; RO for banks (reset: image) -/
def INL_CH_LIMIT_FAULT_US : Field := ⟨.pwr, 0x8008, 9, 0x40, 47, 32, .rw, .val 0, .inlet⟩
/-- Table 15-11, R360: FET temperature limit in °C (R350) (reset: image) -/
def INL_CH_LIMIT_TLIM : Field := ⟨.pwr, 0x8008, 9, 0x40, 23, 16, .rw, .val 0, .inlet⟩
/-- Table 15-11, R360: Current limit in 0.01 A (R350) (reset: image) -/
def INL_CH_LIMIT_ILIM : Field := ⟨.pwr, 0x8008, 9, 0x40, 15, 0, .rw, .val 0, .inlet⟩
/-- Table 15-11, R360: 0 model, 1 diode or on-die sensor (R356) -/
def INL_CH_STATUS_TSRC : Field := ⟨.pwr, 0x8010, 9, 0x40, 16, 16, .ro, .val 0, .inlet⟩
/-- Table 15-11, R360: Last trip: 1 fast trip, 2 FET temperature, 3 ramp fault, 4 fault time (R357) -/
def INL_CH_STATUS_CAUSE : Field := ⟨.pwr, 0x8010, 9, 0x40, 11, 8, .ro, .val 0, .inlet⟩
/-- Table 15-11, R360: Channel's trip-memory bit -/
def INL_CH_STATUS_TRIPMEM : Field := ⟨.pwr, 0x8010, 9, 0x40, 4, 4, .ro, .val 0, .inlet⟩
/-- Table 15-11, R360: 0 ABSENT, 1 QUALIFY, 2 OFF, 3 READY, 4 GRANTED, 5 RAMP, 6 ON, 7 LIMIT, 8 TRIPPED -/
def INL_CH_STATUS_STATE : Field := ⟨.pwr, 0x8010, 9, 0x40, 3, 0, .ro, .val 0, .inlet⟩
/-- Table 15-11, R360: FET temperature, 0.25 °C units, signed -/
def INL_CH_MEAS_TFET : Field := ⟨.pwr, 0x8018, 9, 0x40, 63, 48, .ro, .val 0, .inlet⟩
/-- Table 15-11, R360: Output voltage in mV -/
def INL_CH_MEAS_VOUT : Field := ⟨.pwr, 0x8018, 9, 0x40, 47, 32, .ro, .val 0, .inlet⟩
/-- Table 15-11, R360: Input voltage in mV (c = 0); zero for banks -/
def INL_CH_MEAS_VIN : Field := ⟨.pwr, 0x8018, 9, 0x40, 31, 16, .ro, .val 0, .inlet⟩
/-- Table 15-11, R360: Current in 0.01 A -/
def INL_CH_MEAS_IOUT : Field := ⟨.pwr, 0x8018, 9, 0x40, 15, 0, .ro, .val 0, .inlet⟩
/-- Table 15-11, R360: Trips; saturating -/
def INL_CH_CNT_TRIPS : Field := ⟨.pwr, 0x8020, 9, 0x40, 63, 32, .ro, .val 0, .inlet⟩
/-- Table 15-11, R360: Ramps started; saturating -/
def INL_CH_CNT_CYCLES : Field := ⟨.pwr, 0x8020, 9, 0x40, 31, 0, .ro, .val 0, .inlet⟩
/-- Table 15-11, R360: Inlet die's ST of the last trip -/
def INL_CH_TRIP_ST_ST : Field := ⟨.pwr, 0x8028, 9, 0x40, 63, 0, .ro, .val 0, .inlet⟩
/-- Table 15-11, R360: Model time constant in µs (R356) (reset: NVS) -/
def INL_CH_MODEL_TAU_US : Field := ⟨.pwr, 0x8030, 9, 0x40, 31, 16, .ro, .val 2000, .nvs⟩
/-- Table 15-11, R360: Model thermal resistance in 0.001 °C/W (reset: NVS) -/
def INL_CH_MODEL_RTH : Field := ⟨.pwr, 0x8030, 9, 0x40, 15, 0, .ro, .val 500, .nvs⟩
/-- Table 15-12, R360: Interrupt enable for bits [3:0] -/
def INL_IRQ_EN : Field := ⟨.pwr, 0x8400, 1, 0x0, 19, 16, .rw, .val 0, .warm⟩
/-- Table 15-12, R360: A bank became READY -/
def INL_IRQ_READY : Field := ⟨.pwr, 0x8400, 1, 0x0, 3, 3, .w1c, .val 0, .warm⟩
/-- Table 15-12, R360: A bank tripped -/
def INL_IRQ_TRIP : Field := ⟨.pwr, 0x8400, 1, 0x0, 2, 2, .w1c, .val 0, .warm⟩
/-- Table 15-12, R360: A channel entered LIMIT -/
def INL_IRQ_LIMIT : Field := ⟨.pwr, 0x8400, 1, 0x0, 1, 1, .w1c, .val 0, .warm⟩
/-- Table 15-12, R360: A bank reached ON -/
def INL_IRQ_ON : Field := ⟨.pwr, 0x8400, 1, 0x0, 0, 0, .w1c, .val 0, .warm⟩

/-- Table 16-7, R377: Slot for RESTART: 0 A, 1 B -/
def FWC_CTL_RESTART_SLOT : Field := ⟨.fwc, 0x0, 1, 0x0, 9, 9, .wo, .val 0, .warm⟩
/-- Table 16-7, R377: 1: online activation (R367) -/
def FWC_CTL_RESTART : Field := ⟨.fwc, 0x0, 1, 0x0, 8, 8, .wo, .val 0, .warm⟩
/-- Table 16-7, R377: Bit k: release core k (R365) -/
def FWC_CTL_CORE_RUN : Field := ⟨.fwc, 0x0, 1, 0x0, 3, 1, .w1s, .val 0, .warm⟩
/-- Table 16-7, R377: Locks RWL fields until WARM reset -/
def FWC_CTL_LOCK : Field := ⟨.fwc, 0x0, 1, 0x0, 0, 0, .w1s, .val 0, .warm⟩
/-- Table 16-7, R377: Watchdog expiries; saturating -/
def FWC_STATUS_WDT_CNT : Field := ⟨.fwc, 0x8, 1, 0x0, 31, 16, .ro, .val 0, .cold⟩
/-- Table 16-7, R377: 0 none, 1 OK, 2 fell back (R367) -/
def FWC_STATUS_RESTART_RESULT : Field := ⟨.fwc, 0x8, 1, 0x0, 9, 8, .ro, .val 0, .warm⟩
/-- Table 16-7, R377: R371 (reset: NVS) -/
def FWC_STATUS_LAST_THERMTRIP : Field := ⟨.fwc, 0x8, 1, 0x0, 6, 6, .w1c, .val 0, .nvs⟩
/-- Table 16-7, R377: KIND of the running image -/
def FWC_STATUS_KIND : Field := ⟨.fwc, 0x8, 1, 0x0, 5, 5, .ro, .val 0, .warm⟩
/-- Table 16-7, R377: Slot B accepted at the last check -/
def FWC_STATUS_SLOT_B_VALID : Field := ⟨.fwc, 0x8, 1, 0x0, 4, 4, .ro, .val 0, .warm⟩
/-- Table 16-7, R377: Slot A accepted at the last check -/
def FWC_STATUS_SLOT_A_VALID : Field := ⟨.fwc, 0x8, 1, 0x0, 3, 3, .ro, .val 0, .warm⟩
/-- Table 16-7, R377: 0 A, 1 B -/
def FWC_STATUS_RUN_SLOT : Field := ⟨.fwc, 0x8, 1, 0x0, 1, 1, .ro, .val 0, .warm⟩
/-- Table 16-7, R377: R366 -/
def FWC_STATUS_MONITOR : Field := ⟨.fwc, 0x8, 1, 0x0, 0, 0, .ro, .val 0, .warm⟩
/-- Table 16-7, R377: R365 (reset: NVS) -/
def FWC_BOOT_PREF_SLOT : Field := ⟨.fwc, 0x10, 1, 0x0, 0, 0, .rws, .val 0, .nvs⟩
/-- Table 16-7, R377: R364; a write that lowers the value is ignored (reset: NVS) -/
def FWC_MINSEQ_OWNER_MIN : Field := ⟨.fwc, 0x18, 1, 0x0, 63, 32, .rws, .val 0, .nvs⟩
/-- Table 16-7, R377: R364; a write that lowers the value is ignored (reset: NVS) -/
def FWC_MINSEQ_VENDOR_MIN : Field := ⟨.fwc, 0x18, 1, 0x0, 31, 0, .rws, .val 0, .nvs⟩
/-- Table 16-7, R377: R364 (reset: NVS) -/
def FWC_POLICY_COSIGN_REQ : Field := ⟨.fwc, 0x20, 1, 0x0, 0, 0, .rws, .val 0, .nvs⟩
/-- Table 16-7, R377: SEQ of the running image -/
def FWC_RUN_SEQ : Field := ⟨.fwc, 0x28, 1, 0x0, 63, 32, .ro, .val 0, .warm⟩
/-- Table 16-7, R377: VERSION of the running image -/
def FWC_RUN_VERSION : Field := ⟨.fwc, 0x28, 1, 0x0, 31, 0, .ro, .val 0, .warm⟩
/-- Table 16-7, R377: 10–60,000; writes outside store the nearer bound (R368) -/
def FWC_WDT_TMO_MS : Field := ⟨.fwc, 0x30, 1, 0x0, 31, 16, .rw, .val 0x3E8, .warm⟩
/-- Table 16-7, R377: 1: restart the count -/
def FWC_WDT_KICK : Field := ⟨.fwc, 0x30, 1, 0x0, 0, 0, .wo, .val 0, .warm⟩
/-- Table 16-8, R377: Bit ID + 8: ORIGIN USER, for IDs 1–5 (reset: NVS) -/
def NVS_CAL_STATUS_USER : Field := ⟨.fwc, 0x8000, 1, 0x0, 13, 9, .ro, .val 0, .nvs⟩
/-- Table 16-8, R377: Bit ID: section present and valid (R375) (reset: NVS) -/
def NVS_CAL_STATUS_VALID : Field := ⟨.fwc, 0x8000, 1, 0x0, 5, 1, .ro, .val 0, .nvs⟩
/-- Table 16-8, R377: An overwrite under R376 is in progress -/
def NVS_CAL_STATUS_BUSY : Field := ⟨.fwc, 0x8000, 1, 0x0, 0, 0, .ro, .val 0, .warm⟩

/-- Table 17-12, R396: R381 (reset: NVS) -/
def SEC_LC_PENDING : Field := ⟨.sec, 0x0, 1, 0x0, 8, 8, .ro, .val 0, .nvs⟩
/-- Table 17-12, R396: Table 17-1 (reset: NVS) -/
def SEC_LC_STATE : Field := ⟨.sec, 0x0, 1, 0x0, 1, 0, .ro, .val 0, .nvs⟩
/-- Table 17-12, R396: Owner KEY_ID, bytes 8n to 8n + 7 (reset: NVS) -/
def SEC_OWNER_ID_KEY_ID : Field := ⟨.sec, 0x8, 2, 0x8, 63, 0, .ro, .val 0, .nvs⟩
/-- Table 17-12, R396: R393 -/
def SEC_DEV_ID_DEV_ID : Field := ⟨.sec, 0x18, 2, 0x8, 63, 0, .ro, .hardware, .cold⟩
/-- Table 17-12, R396: R392 -/
def SEC_CTL_HASH_ADDR : Field := ⟨.sec, 0x28, 1, 0x0, 0, 0, .rws, .val 0, .warm⟩
/-- Table 17-12, R396: Bit l: LD l bound (R384) -/
def SEC_BIND_LDS : Field := ⟨.sec, 0x30, 1, 0x0, 63, 0, .ro, .val 0, .warm⟩
/-- Table 17-12, R396: The control complex is the security owner (R383) -/
def SEC_STATUS_CC_OWNER : Field := ⟨.sec, 0x38, 1, 0x0, 0, 0, .ro, .val 0, .warm⟩
/-- Table 17-12, R396: Last forbidden access was a write (R387) -/
def SEC_VIOL_LAST_WRITE : Field := ⟨.sec, 0x40, 1, 0x0, 62, 62, .ro, .val 0, .warm⟩
/-- Table 17-12, R396: 0–63 LD, 64 control complex, 65 debug port, 66 MCTP endpoint -/
def SEC_VIOL_LAST_INITIATOR : Field := ⟨.sec, 0x40, 1, 0x0, 54, 48, .ro, .val 0, .warm⟩
/-- Table 17-12, R396: BAR0 offset; zero for a mailbox or token event -/
def SEC_VIOL_LAST_OFFSET : Field := ⟨.sec, 0x40, 1, 0x0, 25, 0, .ro, .val 0, .warm⟩
/-- Table 17-12, R396: Interrupt enable for bits [3:0] -/
def SEC_IRQ_EN : Field := ⟨.sec, 0x48, 1, 0x0, 19, 16, .rw, .val 0, .warm⟩
/-- Table 17-12, R396: R390 -/
def SEC_IRQ_DBG_END : Field := ⟨.sec, 0x48, 1, 0x0, 3, 3, .w1c, .val 0, .warm⟩
/-- Table 17-12, R396: A session opened -/
def SEC_IRQ_DBG_OPEN : Field := ⟨.sec, 0x48, 1, 0x0, 2, 2, .w1c, .val 0, .warm⟩
/-- Table 17-12, R396: A lifecycle request succeeded -/
def SEC_IRQ_LC_CHANGE : Field := ⟨.sec, 0x48, 1, 0x0, 1, 1, .w1c, .val 0, .warm⟩
/-- Table 17-12, R396: R386 -/
def SEC_IRQ_VIOL : Field := ⟨.sec, 0x48, 1, 0x0, 0, 0, .w1c, .val 0, .warm⟩
/-- Table 17-12, R396: Forbidden accesses by initiator n; saturating (R387) -/
def SEC_VIOL_COUNT : Field := ⟨.sec, 0x100, 67, 0x8, 31, 0, .rc, .val 0, .warm⟩
/-- Table 17-12, R396: Byte k: LD owning queue 8n + k; 0xFF none (R385) -/
def SEC_QOWN_OWNER : Field := ⟨.sec, 0x1000, 128, 0x8, 63, 0, .rws, .val 0xFFFFFFFFFFFFFFFF, .warm⟩

/-- Table 17-13, R396: Sessions opened; saturating -/
def DBG_STATUS_OPENED : Field := ⟨.dbg, 0x0, 1, 0x0, 63, 32, .ro, .val 0, .cold⟩
/-- Table 17-13, R396: R390 -/
def DBG_STATUS_END_REASON : Field := ⟨.dbg, 0x0, 1, 0x0, 11, 8, .ro, .val 0, .cold⟩
/-- Table 17-13, R396: FIRMWARE awaiting Floor 2 (R389) -/
def DBG_STATUS_PENDING : Field := ⟨.dbg, 0x0, 1, 0x0, 4, 4, .ro, .val 0, .warm⟩
/-- Table 17-13, R396: 0 NONE, 1 TELEMETRY, 2 FIRMWARE, 3 FULL -/
def DBG_STATUS_LEVEL : Field := ⟨.dbg, 0x0, 1, 0x0, 2, 0, .ro, .val 0, .warm⟩
/-- Table 17-13, R396: 1: end the session (R390) -/
def DBG_CTL_CLOSE : Field := ⟨.dbg, 0x8, 1, 0x0, 0, 0, .wo, .val 0, .warm⟩
/-- Table 17-13, R396: Current nonce, bytes 8n to 8n + 7 (reset: random) -/
def DBG_NONCE_NONCE : Field := ⟨.dbg, 0x10, 4, 0x8, 63, 0, .ro, .val 0, .warm⟩
/-- Table 17-13, R396: Record to read (R392) -/
def DBG_REC_IDX_SEQ : Field := ⟨.dbg, 0x40, 1, 0x0, 31, 0, .rw, .val 0, .warm⟩
/-- Table 17-13, R396: Bytes 8k to 8k + 7 of the record, hashed form -/
def DBG_REC_DATA_DATA : Field := ⟨.dbg, 0x48, 8, 0x8, 63, 0, .ro, .val 0, .warm⟩

/-- Table 18-8, R414: Die stepping -/
def GEN_ID0_STEPPING : Field := ⟨.gen, 0x0, 1, 0x0, 47, 40, .ro, .hardware, .cold⟩
/-- Table 18-8, R414: 0x64 or 0x56 -/
def GEN_ID0_BIN : Field := ⟨.gen, 0x0, 1, 0x0, 39, 32, .ro, .hardware, .cold⟩
/-- Table 18-8, R414: Part number -/
def GEN_ID0_PART : Field := ⟨.gen, 0x0, 1, 0x0, 31, 16, .ro, .val 0x6416, .cold⟩
/-- Table 18-8, R414: Orriholt's PCI-SIG vendor ID -/
def GEN_ID0_VENDOR : Field := ⟨.gen, 0x0, 1, 0x0, 15, 0, .ro, .hardware, .cold⟩
/-- Table 18-8, R414: ASCII "ULHOREL", then a zero byte -/
def GEN_ID1_CODENAME : Field := ⟨.gen, 0x8, 1, 0x0, 63, 0, .ro, .val 0x4C45524F484C55, .cold⟩
/-- Table 18-8, R414: 0 COLD, 1 PERST_L, 2 GEN_RST, 3 RETURN, 4 end of FULL session -/
def GEN_STATUS_RESET_CAUSE : Field := ⟨.gen, 0x10, 1, 0x0, 18, 16, .ro, .val 0, .cold⟩
/-- Table 18-8, R414: Station whose PERST_L caused the last reset -/
def GEN_STATUS_STATION : Field := ⟨.gen, 0x10, 1, 0x0, 10, 8, .ro, .val 0, .cold⟩
/-- Table 18-8, R414: Memory Active reported (R88) -/
def GEN_STATUS_MEM_ACTIVE : Field := ⟨.gen, 0x10, 1, 0x0, 4, 4, .ro, .val 0, .warm⟩
/-- Table 18-8, R414: R398 -/
def GEN_STATUS_BIST_FAIL : Field := ⟨.gen, 0x10, 1, 0x0, 3, 3, .ro, .val 0, .cold⟩
/-- Table 18-8, R414: R409 -/
def GEN_STATUS_FATAL : Field := ⟨.gen, 0x10, 1, 0x0, 2, 2, .ro, .val 0, .warm⟩
/-- Table 18-8, R414: R410; stays 1 while FATAL is 1 -/
def GEN_STATUS_FAULT : Field := ⟨.gen, 0x10, 1, 0x0, 1, 1, .w1c, .val 0, .warm⟩
/-- Table 18-8, R414: Firmware or the monitor started (R397) -/
def GEN_STATUS_BOOT_DONE : Field := ⟨.gen, 0x10, 1, 0x0, 0, 0, .ro, .val 0, .warm⟩
/-- Table 18-8, R414: 0xA5C3 with GO starts a WARM reset (R402) -/
def GEN_RST_KEY : Field := ⟨.gen, 0x18, 1, 0x0, 31, 16, .wo, .val 0, .warm⟩
/-- Table 18-8, R414: Ignored without the KEY -/
def GEN_RST_GO : Field := ⟨.gen, 0x18, 1, 0x0, 0, 0, .wo, .val 0, .warm⟩

/-- Table 18-9, R414: Lowest severity that drives ALERT_L (R410) -/
def RAS_CTL_ALERT_MIN : Field := ⟨.ras, 0x0, 1, 0x0, 9, 8, .rwl, .val 2, .warm⟩
/-- Table 18-9, R414: Locks RWL fields until WARM reset -/
def RAS_CTL_LOCK : Field := ⟨.ras, 0x0, 1, 0x0, 0, 0, .w1s, .val 0, .warm⟩
/-- Table 18-9, R414: SEQ of the next record -/
def RAS_STATUS_NEXT_SEQ : Field := ⟨.ras, 0x8, 1, 0x0, 63, 32, .ro, .val 0, .cold⟩
/-- Table 18-9, R414: Records overwritten; saturating -/
def RAS_STATUS_OVF : Field := ⟨.ras, 0x8, 1, 0x0, 31, 16, .ro, .val 0, .cold⟩
/-- Table 18-9, R414: Records held, 0–1,024 -/
def RAS_STATUS_COUNT : Field := ⟨.ras, 0x8, 1, 0x0, 10, 0, .ro, .val 0, .cold⟩
/-- Table 18-9, R414: Record to read; bit 31 selects the NVS ring -/
def RAS_IDX_SEQ : Field := ⟨.ras, 0x10, 1, 0x0, 31, 0, .rw, .val 0, .warm⟩
/-- Table 18-9, R414: Bytes 8k to 8k + 7 of the record; zero if absent -/
def RAS_DATA_DATA : Field := ⟨.ras, 0x20, 8, 0x8, 63, 0, .ro, .val 0, .warm⟩
/-- Table 18-9, R414: Interrupt enable for bits [3:0] -/
def RAS_IRQ_EN : Field := ⟨.ras, 0x60, 1, 0x0, 19, 16, .rw, .val 0, .warm⟩
/-- Table 18-9, R414: A severity-3 record -/
def RAS_IRQ_FATAL : Field := ⟨.ras, 0x60, 1, 0x0, 3, 3, .w1c, .val 0, .warm⟩
/-- Table 18-9, R414: A severity-2 record -/
def RAS_IRQ_DEGRADED : Field := ⟨.ras, 0x60, 1, 0x0, 2, 2, .w1c, .val 0, .warm⟩
/-- Table 18-9, R414: A severity-1 record -/
def RAS_IRQ_CONTAINED : Field := ⟨.ras, 0x60, 1, 0x0, 1, 1, .w1c, .val 0, .warm⟩
/-- Table 18-9, R414: A severity-0 record -/
def RAS_IRQ_CORRECTED : Field := ⟨.ras, 0x60, 1, 0x0, 0, 0, .w1c, .val 0, .warm⟩
/-- Table 18-9, R414: R411; 2–20; writes outside store the nearer bound -/
def RAS_DEC_TMO_TMO_US : Field := ⟨.ras, 0x68, 1, 0x0, 4, 0, .rwl, .val 10, .warm⟩
/-- Table 18-9, R414: Bit n: gallery Gn suspect (R411) -/
def RAS_GAL_SUSPECT_GAL : Field := ⟨.ras, 0x70, 1, 0x0, 15, 0, .w1c, .val 0, .warm⟩
/-- Table 18-9, R414: Records of severity s; saturating -/
def RAS_CNT_COUNT : Field := ⟨.ras, 0x80, 4, 0x8, 63, 0, .rc, .val 0, .cold⟩

end Sys2Proof.Machine.F

namespace Sys2Proof.Machine

/-- The fields of block STR. -/
def fieldsStr : List Field :=
  [F.STR_CTL_MBX_LOAD_EN, F.STR_CTL_LOCK, F.STR_STATUS_SECTION, F.STR_STATUS_SRC, F.STR_STATUS_RUN_SLOT,
   F.STR_STATUS_RESET_PENDING, F.STR_STATUS_RECOVERY, F.STR_STATUS_RESULT, F.STR_STATUS_STATE,
   F.STR_RUN_SEQ_SEQ, F.STR_RUN_DIGEST_DIGEST, F.STR_MINSEQ_MINSEQ, F.STR_BOOT_SLOT_B_VALID,
   F.STR_BOOT_SLOT_A_VALID, F.STR_BOOT_PREF_SLOT, F.STR_QTIMEOUT_QTIMEOUT, F.STR_SKIPPED_SKIPPED,
   F.STR_IRQ_REJECT_EN, F.STR_IRQ_DONE_EN, F.STR_IRQ_REJECT, F.STR_IRQ_DONE, F.STR_FAIL_POSITION]

/-- The fields of block TIM. -/
def fieldsTim0 : List Field :=
  [F.TIM_CTL_SLEW_EN, F.TIM_CTL_ANSWER_EN, F.TIM_CTL_LOCK, F.TIM_STATUS_STEP_CNT,
   F.TIM_STATUS_SLOT_MISMATCH, F.TIM_STATUS_SLEWING, F.TIM_STATUS_FTYPE, F.TIM_STATUS_SYNC,
   F.TIM_STATUS_TALLY_PRESENT, F.TIM_STATUS_ST_UNSYNC, F.TIM_ST_ST, F.TIM_ST_LOAD_ST, F.TIM_DELAY_RECV_PS,
   F.TIM_DELAY_DELAY_PS, F.TIM_LAST_STEP_D, F.TIM_QCFG_FW_BIT, F.TIM_QCFG_THERM_HIGH,
   F.TIM_QCFG_DEMAND_FLOOR, F.TIM_LAST_CMD_ARG, F.TIM_LAST_CMD_BCAST, F.TIM_LAST_CMD_TARGET,
   F.TIM_LAST_CMD_OP, F.TIM_FLOORCAP_MIN_FLOOR, F.TIM_ERR_CMD_REFUSED, F.TIM_ERR_LOSS,
   F.TIM_ERR_HDR_MISMATCH, F.TIM_ERR_CMD_PARITY, F.TIM_IRQ_EN, F.TIM_IRQ_CAL_LATE,
   F.TIM_IRQ_SLOT_MISMATCH, F.TIM_IRQ_STEP, F.TIM_IRQ_LOCKED, F.TIM_IRQ_LOST, F.TIM_CAL_CTL_DURATION,
   F.TIM_CAL_CTL_TARGET, F.TIM_CAL_CTL_ACTION, F.TIM_CAL_CTL_IRQ_EN, F.TIM_CAL_CTL_MODE,
   F.TIM_CAL_TIME_TIME, F.TIM_CAL_PERIOD_PERIOD]

/-- The fields of block TIM. -/
def fieldsTim1 : List Field :=
  [F.TIM_CAL_STAT_MISSED, F.TIM_CAL_STAT_FIRED, F.TIM_CAL_STAT_LATE, F.TIM_CAL_STAT_OPEN]

/-- The fields of block PRT. -/
def fieldsPrt : List Field :=
  [F.PRT_CFG_STATION, F.PRT_CFG_UNIT_WIDTH, F.PRT_CFG_SPEED_CAP, F.PRT_CFG_LANE_REV, F.PRT_CFG_MLD,
   F.PRT_CFG_PRESENT, F.PRT_LINK_FAILED_LANE, F.PRT_LINK_DEGRADED, F.PRT_LINK_L0P_EN, F.PRT_LINK_FLIT,
   F.PRT_LINK_WIDTH, F.PRT_LINK_RATE, F.PRT_LINK_IDE_ON, F.PRT_LINK_UP, F.PRT_CTL_L0P_ALLOW,
   F.PRT_CTL_LANEFAIL_EN, F.PRT_CTL_LOCK, F.PRT_STALL_PEND, F.PRT_STALL_STALL_NS, F.PRT_LTR_NOSNOOP_NS,
   F.PRT_LTR_SNOOP_NS, F.PRT_ERR_LANE_FAIL, F.PRT_ERR_REPLAY, F.PRT_ERR_UNMAPPED, F.PRT_ERR_PROTO,
   F.PRT_IRQ_EN, F.PRT_IRQ_LANE_FAIL, F.PRT_IRQ_LINK_DOWN, F.PRT_IRQ_UNMAPPED, F.PRT_IRQ_PROTO,
   F.PRT_LD_OVR_OVR_EN, F.PRT_LD_OVR_OVR_NS, F.PRT_LD_STAT_LD_ID, F.PRT_LD_STAT_BI_ON,
   F.PRT_LD_STAT_ACTIVE, F.PRT_LD_STAT_TOL_NS]

/-- The fields of block MAP. -/
def fieldsMap0 : List Field :=
  [F.MAP_CTL_FLUSH, F.MAP_CTL_PARTNER_EN, F.MAP_CTL_AGE_EN, F.MAP_CTL_LOCK, F.MAP_STATUS_INIT_BUSY,
   F.MAP_STATUS_READY, F.MAP_HOLD_HELD, F.MAP_HOLD_HOLD_US, F.MAP_HOLD_STAT_EXPIRED,
   F.MAP_HOLD_STAT_HELD_TOTAL, F.MAP_AGE_CTL_BUSY, F.MAP_AGE_CTL_SWEEP, F.MAP_PME_IDX_PAGE,
   F.MAP_PME_OP_DONE, F.MAP_PME_OP_RESULT, F.MAP_PME_OP_AGE, F.MAP_PME_OP_OP, F.MAP_PME_LO_PME,
   F.MAP_PME_HI_PME, F.MAP_TWIN_CFG_EN, F.MAP_TWIN_CFG_CHUNKS, F.MAP_TWIN_STAT_MATCH,
   F.MAP_TWIN_STAT_FULL, F.MAP_TIERCNT_PAGES, F.MAP_DROP_OVF, F.MAP_DROP_USED, F.MAP_ERR_PME_INVALID,
   F.MAP_ERR_PME_UE, F.MAP_VERWRAP_PAGE, F.MAP_IRQ_POOLS, F.MAP_IRQ_EN, F.MAP_IRQ_VER_WRAP,
   F.MAP_IRQ_PME_ERR, F.MAP_IRQ_EXPIRE, F.MAP_IRQ_HOLD, F.MAP_IRQ_CRIT, F.MAP_IRQ_LOW,
   F.MAP_RG_CNT_CHUNKS_FREE, F.MAP_RG_CNT_CHUNKS_TOTAL, F.MAP_RG_CFG_UNUSED_MIB]

/-- The fields of block MAP. -/
def fieldsMap1 : List Field :=
  [F.MAP_RG_CFG_LOFT, F.MAP_RG_CFG_PRESENT, F.MAP_POOL_F_F, F.MAP_POOL_WATER_HIGH_WATER,
   F.MAP_POOL_WATER_LOW_WATER, F.MAP_POOL_CRIT_CRIT_WATER, F.MAP_POOL_CHUNKS_CHUNKS]

/-- The fields of block GAL. -/
def fieldsGal : List Field :=
  [F.GAL_TRD_CTL_VERIFY_EN, F.GAL_TRD_CTL_LOCK, F.GAL_TRD_ERR_VERIFY_FAIL, F.GAL_TRD_ERR_DEC_ERR,
   F.GAL_TRD_ERR_LAST_CODE, F.GAL_TRD_LAST_STANDALONE, F.GAL_TRD_LAST_CODE, F.GAL_TRD_LAST_BLOCK,
   F.GAL_TRD_LAST_PAGE, F.GAL_TRD_STAT_COUNT, F.GAL_TRD_CLASS_WORDS, F.GAL_CTL_FLUSH, F.GAL_CTL_HOST_JOBS,
   F.GAL_CTL_LOCK, F.GAL_STATUS_CACHE_VALID, F.GAL_STATUS_FETCHED, F.GAL_STATUS_RUNNING,
   F.GAL_ERR_BAD_DESC, F.GAL_ERR_FAULT, F.GAL_ERR_ABORTED, F.GAL_ERR_ACCESS, F.GAL_IRQ_EN,
   F.GAL_IRQ_FAULT, F.GAL_IRQ_BAD_DESC, F.GAL_IRQ_ABORT, F.GAL_IRQ_JOB, F.GAL_CACHE_STAT_COUNT,
   F.GAL_JQ_CFG_EN, F.GAL_JQ_CFG_REFUSED, F.GAL_JQ_CFG_OWNER, F.GAL_JQ_CFG_WEIGHT, F.GAL_JQ_CFG_CQ,
   F.GAL_JQ_CFG_DQ, F.GAL_JQ_CNT_COMMITTED, F.GAL_JQ_CNT_FETCHED]

/-- The fields of block KEY. -/
def fieldsKey : List Field :=
  [F.KEY_CTL_SLOT0_CONCEAL, F.KEY_CTL_LOCK, F.KEY_STATUS_LAST_SLOT, F.KEY_STATUS_LAST_RESULT,
   F.KEY_STATUS_SLOT0_READY, F.KEY_ERR_INTEG_FAIL, F.KEY_ERR_EMPTY_USE, F.KEY_ERR_PROG_REFUSED,
   F.KEY_ERR_REGION_REJECT, F.KEY_IRQ_EN, F.KEY_IRQ_REKEY_DONE, F.KEY_IRQ_PROG, F.KEY_IRQ_EMPTY_USE,
   F.KEY_IRQ_INTEG, F.KEY_LAST_INTEG_SRC, F.KEY_LAST_INTEG_SLOT, F.KEY_LAST_INTEG_PAGE,
   F.KEY_SLOT_STATE_WRAP, F.KEY_SLOT_STATE_GEN, F.KEY_SLOT_STATE_STATE, F.KEY_SLOT_PCURSOR_PCURSOR,
   F.KEY_SLOT_TCURSOR_TCURSOR, F.KEY_SLOT_USE_USE, F.KEY_REG_BASE_BASE, F.KEY_REG_LIMIT_LIMIT,
   F.KEY_REG_TAG_TAG_BASE, F.KEY_REG_CFG_VALID, F.KEY_REG_CFG_INTEG, F.KEY_REG_CFG_CONCEAL,
   F.KEY_REG_CFG_SLOT]

/-- The fields of block HOM. -/
def fieldsHom : List Field :=
  [F.HOM_CTL_SPEC_RD, F.HOM_CTL_FWD_EN, F.HOM_CTL_LOCK, F.HOM_CFG_PF_WAYS, F.HOM_CFG_HOME,
   F.HOM_STATUS_TT_USED, F.HOM_STATUS_CONFQ, F.HOM_STATUS_ALLOCQ, F.HOM_STATUS_RECALLS,
   F.HOM_WDB_WDB_USED, F.HOM_LOCK_TMO_TMO_US, F.HOM_ERR_LOCK_TMO, F.HOM_ERR_UNEXP_DATAM, F.HOM_ERR_PROTO,
   F.HOM_ERR_WBD_NOTOWN, F.HOM_IRQ_EN, F.HOM_IRQ_INTERNAL, F.HOM_IRQ_LOCK_TMO, F.HOM_IRQ_UNEXP_DATAM,
   F.HOM_IRQ_PROTO, F.HOM_STAT_COUNT, F.HOM_DIR_IDX_SET, F.HOM_DIR_IDX_WAY, F.HOM_DIR_OP_DONE,
   F.HOM_DIR_OP_READ, F.HOM_DIR_LO_ENTRY, F.HOM_DIR_HI_ENTRY, F.HOM_LAST_PE_SRC, F.HOM_LAST_PE_OPC,
   F.HOM_LAST_PE_STATE, F.HOM_LAST_PE_LINE]

/-- The fields of block NOC. -/
def fieldsNoc0 : List Field :=
  [F.NOC_CTL_DETOUR_EN, F.NOC_CTL_PERHOP_ECC, F.NOC_CTL_LOCK, F.NOC_EPOCH_STATE, F.NOC_EPOCH_BAD,
   F.NOC_EPOCH_FORCE, F.NOC_EPOCH_FLIP, F.NOC_EPOCH_CUR, F.NOC_EPOCH_TMO_TMO_US, F.NOC_ERR_SINK,
   F.NOC_ERR_HDR_RETRY, F.NOC_ERR_DAT_CE, F.NOC_ERR_DAT_UE, F.NOC_IRQ_EN, F.NOC_IRQ_FENCE_REFUSED,
   F.NOC_IRQ_DAT_UE, F.NOC_IRQ_SINK, F.NOC_IRQ_DRAIN_TMO, F.NOC_IRQ_EPOCH_DONE, F.NOC_IRQ_LINK_FAIL,
   F.NOC_DOM_CTL_FENCE, F.NOC_DOM_STATUS_HELD, F.NOC_DOM_STATUS_OUTSTANDING, F.NOC_DOM_STATUS_REFUSED,
   F.NOC_DOM_STATUS_STATE, F.NOC_DOM_WAKE_WAKE_NS, F.NOC_DOM_CNT_FENCES, F.NOC_RTR_LINK_NEXT,
   F.NOC_RTR_LINK_LINK_EN, F.NOC_RTR_STAT_FAILED, F.NOC_RTR_DETOUR_SIDE, F.NOC_RTR_DETOUR_EN,
   F.NOC_RTR_OLD_CNT_DAT, F.NOC_RTR_OLD_CNT_RSP, F.NOC_RTR_OLD_CNT_SNP, F.NOC_RTR_OLD_CNT_REQ,
   F.NOC_RTR_ERR_RETRY, F.NOC_RTR_ERR_SINK, F.NOC_RTR_ERR_DETOURED, F.NOC_RTR_SINK_LAST_HDR]

/-- The fields of block NOC. -/
def fieldsNoc1 : List Field :=
  [F.NOC_RT_CUR_ENTRY, F.NOC_RT_SHADOW_ENTRY]

/-- The fields of block CWK. -/
def fieldsCwk0 : List Field :=
  [F.CWK_CTL_TGT_RATE, F.CWK_CTL_TGT_WIDTH, F.CWK_CTL_RETRAIN, F.CWK_CTL_SPILL_EN, F.CWK_CTL_RELAY_EN,
   F.CWK_CTL_LINK_EN, F.CWK_CTL_LOCK, F.CWK_STATUS_MM_CAUSE, F.CWK_STATUS_PEER_SLOT, F.CWK_STATUS_VCS,
   F.CWK_STATUS_FAILED_LANE, F.CWK_STATUS_DEGRADED, F.CWK_STATUS_SPILL_OK, F.CWK_STATUS_SPILLING,
   F.CWK_STATUS_LEAD, F.CWK_STATUS_RATE, F.CWK_STATUS_WIDTH, F.CWK_STATUS_STATE, F.CWK_SEQ_RX_EXPECT,
   F.CWK_SEQ_TX_ACKED, F.CWK_SEQ_TX_LAST, F.CWK_UNACK_LIMIT, F.CWK_UNACK_SPILLED, F.CWK_UNACK_UNACKED,
   F.CWK_SPILL_BASE_BASE, F.CWK_SPILL_SIZE_SIZE_MIB, F.CWK_TSKEW_SKEW, F.CWK_LAT_LAT_NS,
   F.CWK_RETRAIN_TMO_TMO_US, F.CWK_ERR_FEC_CORR, F.CWK_ERR_UNCORR, F.CWK_ERR_REPLAY, F.CWK_ERR_LANE_FAIL,
   F.CWK_ERR_BAD_ACK, F.CWK_ERR2_RELAY_DROP, F.CWK_ERR2_UNEXPORTED, F.CWK_ERR2_EXCL_DROP,
   F.CWK_ERR2_PROTO, F.CWK_IRQ_EN, F.CWK_IRQ_SPILL_OFF]

/-- The fields of block CWK. -/
def fieldsCwk1 : List Field :=
  [F.CWK_IRQ_MISMATCH, F.CWK_IRQ_LANE_FAIL, F.CWK_IRQ_RETRAIN, F.CWK_IRQ_DOWN, F.CWK_IRQ_UP,
   F.CWK_VC_BLOCKED, F.CWK_VC_CREDIT, F.CWK_VC_RXBUF]

/-- The fields of block SPAN. -/
def fieldsSpan : List Field :=
  [F.CWK_SPAN_STATUS_READY, F.CWK_SPAN_STATUS_EXCLUDED, F.CWK_SPAN_STATUS_COHERENT,
   F.CWK_SPAN_STATUS_REACHABLE, F.CWK_REJOIN_REJOIN, F.CWK_SPAN_TOL_TOL_NS, F.CWK_SPAN_IRQ_EN,
   F.CWK_SPAN_IRQ_PATHLOSS, F.CWK_SPAN_IRQ_REJOINED, F.CWK_SPAN_IRQ_EXCLUDED, F.CWK_SPAN_IRQ_PATH_CHANGE,
   F.CWK_SPAN_ERR_SMAP_REJECT, F.CWK_PATH_KIND, F.CWK_PATH_LINK, F.CWK_PATH_RELAY, F.CWK_SMAP_BASE_BASE,
   F.CWK_SMAP_LIMIT_LIMIT, F.CWK_SMAP_RBASE_RBASE, F.CWK_SMAP_CTL_VALID, F.CWK_SMAP_CTL_TYPE,
   F.CWK_SMAP_CTL_SLOTS, F.CWK_SMAP_CTL_SLOT]

/-- The fields of block DRC. -/
def fieldsDrc0 : List Field :=
  [F.DRC_CFG_RATE, F.DRC_CFG_DIES, F.DRC_CFG_DENS, F.DRC_CFG_WIDTH8, F.DRC_CFG_RANKS, F.DRC_CFG_DPC,
   F.DRC_CFG_EXCLUDED, F.DRC_CFG_PRESENT, F.DRC_CTL_PARK_WIN_REQ, F.DRC_CTL_SB_REF, F.DRC_CTL_PD_EN,
   F.DRC_CTL_LOCK, F.DRC_SCHED_WR_HI, F.DRC_SCHED_WR_LO, F.DRC_REF_SCALE, F.DRC_REF_TREFI,
   F.DRC_REF_PHASE_OFS, F.DRC_PARK_PARK_MAX_MS, F.DRC_PARK_PARK_IDLE_US, F.DRC_STATUS_PHASE_STALE,
   F.DRC_STATUS_TRAIN_RESULT, F.DRC_STATUS_TRAIN_MODE, F.DRC_STATUS_TRAIN_MS, F.DRC_STATUS_PANIC,
   F.DRC_RT_URG, F.DRC_RT_LEVEL, F.DRC_RT_RELEASE_LVL, F.DRC_RT_PANIC_LVL, F.DRC_RT_U2, F.DRC_RT_U1,
   F.DRC_RANK_CTL_CMD, F.DRC_RANK_CTL_PARK_EN, F.DRC_RANK_CTL_PD_IDLE, F.DRC_RANK_STATUS_POSTPONE,
   F.DRC_RANK_STATUS_HOT, F.DRC_RANK_STATUS_LOFT, F.DRC_RANK_STATUS_STATE, F.DRC_RANK_PARK_ST_ST,
   F.DRC_RANK_CNT_WAKES, F.DRC_RANK_CNT_PARKS]

/-- The fields of block DRC. -/
def fieldsDrc1 : List Field :=
  [F.DRC_DIMM_0_PMIC_STAT, F.DRC_DIMM_0_TEMP, F.DRC_DIMM_0_HID, F.DRC_DIMM_0_PRESENT, F.DRC_DIMM_1_SERIAL,
   F.DRC_SBUS_NAK, F.DRC_SBUS_BUSY, F.DRC_SBUS_I3C, F.DRC_ERR_PANIC_EXPIRE, F.DRC_ERR_REF_URGENT,
   F.DRC_ERR_WAKE_LATE, F.DRC_ERR_PMIC_FAULT, F.DRC_IRQ_EN, F.DRC_IRQ_PMIC, F.DRC_IRQ_DIMM_HOT,
   F.DRC_IRQ_WAKE_LATE, F.DRC_IRQ_PANIC_EXPIRE, F.DRC_IRQ_TRAIN_FAIL, F.DRC_STAT_COUNT,
   F.DRC_ECC_CTL_DEMAND_FIX, F.DRC_ECC_CTL_LOCK, F.DRC_ECC_ERR_CE, F.DRC_ECC_ERR_UE, F.DRC_ECC_ERR_AF,
   F.DRC_ECC_ERR2_RETRY_OK, F.DRC_ECC_ERR2_POISON_WR, F.DRC_ECC_IRQ_EN, F.DRC_ECC_IRQ_PPR_DONE,
   F.DRC_ECC_IRQ_REMAP_DONE, F.DRC_ECC_IRQ_SCRUB_FORCED, F.DRC_ECC_IRQ_MARK, F.DRC_ECC_IRQ_CE_THR,
   F.DRC_ECC_IRQ_AF, F.DRC_ECC_IRQ_UE, F.DRC_ECC_LAST_SRC, F.DRC_ECC_LAST_OUTCOME, F.DRC_ECC_LAST_CLA,
   F.DRC_ECC_LAST_AF_A_STORED, F.DRC_ECC_RANK_MARK_AUTO_MARK, F.DRC_ECC_RANK_MARK_MARK_DEV]

/-- The fields of block DRC. -/
def fieldsDrc2 : List Field :=
  [F.DRC_ECC_RANK_THR_LEAK_H, F.DRC_ECC_RANK_THR_DEV_THR, F.DRC_ECC_RANK_DEVCE_DEVCE,
   F.DRC_SCRUB_CTL_WIN_STEP, F.DRC_SCRUB_CTL_PERIOD_H, F.DRC_SCRUB_STAT_STEP,
   F.DRC_SCRUB_STAT_POISON_SEEN, F.DRC_SCRUB_CUR_CLA, F.DRC_SCRUB_PASS_PASSES, F.DRC_SCRUB_PASS_LAST_S,
   F.DRC_SCRUB_RANK_CUR_FORCED, F.DRC_SCRUB_RANK_CUR_CURSOR, F.DRC_SCRUB_RANK_ST_PASS_ST,
   F.DRC_REMAP_0_STATE, F.DRC_REMAP_0_GEN, F.DRC_REMAP_0_ORIG_CLA, F.DRC_REMAP_1_RESULT,
   F.DRC_REMAP_1_CMD, F.DRC_REMAP_1_SPARE, F.DRC_PPR_ROW, F.DRC_PPR_DEVMASK, F.DRC_PPR_BANK, F.DRC_PPR_BG,
   F.DRC_PPR_CHIP, F.DRC_PPR_SUB, F.DRC_PPR_RANK, F.DRC_PPR_CMD_DONE, F.DRC_PPR_CMD_RESULT,
   F.DRC_PPR_CMD_TYPE]

/-- The fields of block CRQ. -/
def fieldsCrq : List Field :=
  [F.CRQ_CMD_RELEASE, F.CRQ_CMD_REWIND, F.CRQ_CMD_MARK, F.CRQ_PTR0_D, F.CRQ_PTR0_W, F.CRQ_PTR1_M,
   F.CRQ_PTR1_L, F.CRQ_CFG_CONS, F.CRQ_CFG_CT, F.CRQ_CFG_BASE, F.CRQ_CFG_CAP_LOG2, F.CRQ_CFG_AUTO_REL,
   F.CRQ_CFG_HOSTRD, F.CRQ_CFG_EN, F.CRQ_GAP_GAP_NS, F.CRQ_STAT_DROP, F.CRQ_STAT_TRUNC,
   F.CRQ_STAT_QRESETS, F.CRQ_STAT_BAD_CMD, F.CRQ_IRQ_EN, F.CRQ_IRQ_QRESET, F.CRQ_IRQ_TRUNC,
   F.CRQ_IRQ_DROP, F.CRQ_IRQ_ITEM, F.CRQ_ABORT_JOB_ID, F.CRQ_ABORT_RES_DONE, F.CRQ_ABORT_RES_RESULT,
   F.CRQ_STATE_DISCARD, F.CRQ_STATE_PROD_OPEN, F.CRQ_STATE_CONS_OPEN]

/-- The fields of block TST. -/
def fieldsTst : List Field :=
  [F.TST_CTL_CEIL_EN, F.TST_CTL_LOCK, F.TST_WIN_WINDOW_US, F.TST_BUDGET_LPUS, F.TST_STATUS_LAST_MISS,
   F.TST_STATUS_LAST_SHORT, F.TST_STATUS_BUDGET_UNSET, F.TST_STATUS_OVERCOMMIT, F.TST_SUM_S, F.TST_SUM_B,
   F.TST_SCRUBMIN_SCRUB_MIN, F.TST_WINSEQ_SEQ, F.TST_WIN_ST_ST, F.TST_WIN_LEN_CCLKS, F.TST_MISS0_MISS,
   F.TST_MISS1_MISS, F.TST_IRQ_EN, F.TST_IRQ_OVERCOMMIT, F.TST_IRQ_SHORT, F.TST_IRQ_MISS,
   F.TST_M_LIM_CEIL, F.TST_M_LIM_GUAR, F.TST_M_LAT_MISS_THR, F.TST_M_LAT_LAT_NS, F.TST_M_EGUAR_EGUAR,
   F.TST_M_LIVE_DEMAND, F.TST_M_LIVE_SERVED, F.TST_M_LAST_LDEMAND, F.TST_M_LAST_LSERVED,
   F.TST_M_MISS_LMISS, F.TST_M_MISS_LLATMISS, F.TST_M_TOTAL_TOTAL, F.TST_M_STAT_HELD, F.TST_M_STAT_RT,
   F.TST_M_STAT_URG]

/-- The fields of block CNTU. -/
def fieldsCntu : List Field :=
  [F.CNT_CYC_CYCLES, F.CNT_OVF_OVF, F.CNT_SNAP_CYC_CYCLES, F.CNT_SEL_IRQ_EN, F.CNT_SEL_SAMPLE,
   F.CNT_SEL_EN, F.CNT_SEL_EVENT, F.CNT_SEL_QUAL, F.CNT_PER_PERIOD, F.CNT_CTR_COUNT, F.CNT_SNAP_COUNT]

/-- The fields of block CNT. -/
def fieldsCnt : List Field :=
  [F.CNT_CTL_FREEZE, F.CNT_CTL_LOCK, F.CNT_SNAP_CTL_NOW, F.CNT_SNAP_SEQ_SEQ, F.CNT_SNAP_ST_ST,
   F.CNT_OVF_SUM_UNITS, F.CNT_IRQ_EN, F.CNT_IRQ_SNAP, F.CNT_IRQ_OVF, F.CNT_TSNAP_DEMAND,
   F.CNT_TSNAP_SERVED, F.SMP_CTL_FLUSH_LVL, F.SMP_CTL_FLUSH, F.SMP_CTL_BUSY, F.SMP_CTL_EN,
   F.SMP_BASE_BASE, F.SMP_SIZE_SIZE_MIB, F.SMP_PTR_RPTR, F.SMP_PTR_WPTR, F.SMP_STAT_LOST,
   F.SMP_STAT_BUFFERED, F.SMP_STAT_REJECT]

/-- The fields of block PWR. -/
def fieldsPwr0 : List Field :=
  [F.PWR_CTL_DWELL_US, F.PWR_CTL_MAX_FLOOR, F.PWR_CTL_LOCK, F.PWR_STATUS_TMIN_NS, F.PWR_STATUS_SEC_LIMIT,
   F.PWR_STATUS_BLOCK, F.PWR_STATUS_CAP, F.PWR_STATUS_TOL_FLOOR, F.PWR_STATUS_TARGET, F.PWR_STATUS_FLOOR,
   F.PWR_STATUS_TOL_SEEN, F.PWR_STATUS_THROTTLE, F.PWR_STATUS_CAP_UNMET, F.PWR_STATUS_TRANS,
   F.PWR_CAP_LPUS_LPUS, F.PWR_IRQ_EN, F.PWR_IRQ_CAP_UNMET, F.PWR_IRQ_SLEEP_REQ, F.PWR_IRQ_BLOCK,
   F.PWR_IRQ_FLOOR, F.PWR_RES_CCLKS, F.PWR_LOFT_LD_LD_MASK, F.PWR_LOFT_RG_RG_MASK, F.PWR_LOFT_NS_VALID,
   F.PWR_LOFT_NS_LOFT_NS, F.PWR_LTOL_LOFT_NS, F.INL_CH_CTL_RAMP, F.INL_CH_CTL_EN, F.INL_CH_LIMIT_FAULT_US,
   F.INL_CH_LIMIT_TLIM, F.INL_CH_LIMIT_ILIM, F.INL_CH_STATUS_TSRC, F.INL_CH_STATUS_CAUSE,
   F.INL_CH_STATUS_TRIPMEM, F.INL_CH_STATUS_STATE, F.INL_CH_MEAS_TFET, F.INL_CH_MEAS_VOUT,
   F.INL_CH_MEAS_VIN, F.INL_CH_MEAS_IOUT, F.INL_CH_CNT_TRIPS]

/-- The fields of block PWR. -/
def fieldsPwr1 : List Field :=
  [F.INL_CH_CNT_CYCLES, F.INL_CH_TRIP_ST_ST, F.INL_CH_MODEL_TAU_US, F.INL_CH_MODEL_RTH, F.INL_IRQ_EN,
   F.INL_IRQ_READY, F.INL_IRQ_TRIP, F.INL_IRQ_LIMIT, F.INL_IRQ_ON]

/-- The fields of block FWC. -/
def fieldsFwc : List Field :=
  [F.FWC_CTL_RESTART_SLOT, F.FWC_CTL_RESTART, F.FWC_CTL_CORE_RUN, F.FWC_CTL_LOCK, F.FWC_STATUS_WDT_CNT,
   F.FWC_STATUS_RESTART_RESULT, F.FWC_STATUS_LAST_THERMTRIP, F.FWC_STATUS_KIND, F.FWC_STATUS_SLOT_B_VALID,
   F.FWC_STATUS_SLOT_A_VALID, F.FWC_STATUS_RUN_SLOT, F.FWC_STATUS_MONITOR, F.FWC_BOOT_PREF_SLOT,
   F.FWC_MINSEQ_OWNER_MIN, F.FWC_MINSEQ_VENDOR_MIN, F.FWC_POLICY_COSIGN_REQ, F.FWC_RUN_SEQ,
   F.FWC_RUN_VERSION, F.FWC_WDT_TMO_MS, F.FWC_WDT_KICK, F.NVS_CAL_STATUS_USER, F.NVS_CAL_STATUS_VALID,
   F.NVS_CAL_STATUS_BUSY]

/-- The fields of block SEC. -/
def fieldsSec : List Field :=
  [F.SEC_LC_PENDING, F.SEC_LC_STATE, F.SEC_OWNER_ID_KEY_ID, F.SEC_DEV_ID_DEV_ID, F.SEC_CTL_HASH_ADDR,
   F.SEC_BIND_LDS, F.SEC_STATUS_CC_OWNER, F.SEC_VIOL_LAST_WRITE, F.SEC_VIOL_LAST_INITIATOR,
   F.SEC_VIOL_LAST_OFFSET, F.SEC_IRQ_EN, F.SEC_IRQ_DBG_END, F.SEC_IRQ_DBG_OPEN, F.SEC_IRQ_LC_CHANGE,
   F.SEC_IRQ_VIOL, F.SEC_VIOL_COUNT, F.SEC_QOWN_OWNER]

/-- The fields of block DBG. -/
def fieldsDbg : List Field :=
  [F.DBG_STATUS_OPENED, F.DBG_STATUS_END_REASON, F.DBG_STATUS_PENDING, F.DBG_STATUS_LEVEL,
   F.DBG_CTL_CLOSE, F.DBG_NONCE_NONCE, F.DBG_REC_IDX_SEQ, F.DBG_REC_DATA_DATA]

/-- The fields of block GEN. -/
def fieldsGen : List Field :=
  [F.GEN_ID0_STEPPING, F.GEN_ID0_BIN, F.GEN_ID0_PART, F.GEN_ID0_VENDOR, F.GEN_ID1_CODENAME,
   F.GEN_STATUS_RESET_CAUSE, F.GEN_STATUS_STATION, F.GEN_STATUS_MEM_ACTIVE, F.GEN_STATUS_BIST_FAIL,
   F.GEN_STATUS_FATAL, F.GEN_STATUS_FAULT, F.GEN_STATUS_BOOT_DONE, F.GEN_RST_KEY, F.GEN_RST_GO]

/-- The fields of block RAS. -/
def fieldsRas : List Field :=
  [F.RAS_CTL_ALERT_MIN, F.RAS_CTL_LOCK, F.RAS_STATUS_NEXT_SEQ, F.RAS_STATUS_OVF, F.RAS_STATUS_COUNT,
   F.RAS_IDX_SEQ, F.RAS_DATA_DATA, F.RAS_IRQ_EN, F.RAS_IRQ_FATAL, F.RAS_IRQ_DEGRADED, F.RAS_IRQ_CONTAINED,
   F.RAS_IRQ_CORRECTED, F.RAS_DEC_TMO_TMO_US, F.RAS_GAL_SUSPECT_GAL, F.RAS_CNT_COUNT]

/-- Every field of the register map. -/
def Field.all : List Field :=
  fieldsStr ++
  fieldsTim0 ++
  fieldsTim1 ++
  fieldsPrt ++
  fieldsMap0 ++
  fieldsMap1 ++
  fieldsGal ++
  fieldsKey ++
  fieldsHom ++
  fieldsNoc0 ++
  fieldsNoc1 ++
  fieldsCwk0 ++
  fieldsCwk1 ++
  fieldsSpan ++
  fieldsDrc0 ++
  fieldsDrc1 ++
  fieldsDrc2 ++
  fieldsCrq ++
  fieldsTst ++
  fieldsCntu ++
  fieldsCnt ++
  fieldsPwr0 ++
  fieldsPwr1 ++
  fieldsFwc ++
  fieldsSec ++
  fieldsDbg ++
  fieldsGen ++
  fieldsRas

end Sys2Proof.Machine
end

