-- ==== Sys2Proof/Machine/State.lean ====
section
/-!
DEFINITION. The state of the block as plain data, the reasons a step can stop, and the state after reset.
Every register field of BAR0 is in `regs`, under the key of Machine/Regs (an unlisted key holds its reset value);
the structures below hold what the spec gives the block beside its registers.
-/

namespace Sys2Proof.Machine

/-- Why the machine could stop with a fault. No meaning of this model raises one: the block has no bus error and no
missing address (R3, R386). Safe. -/
inductive Fault where
  /-- Raised by nothing; safe. -/
  | none
deriving DecidableEq, Repr

/-- Why a command could be refused. -/
inductive Refusal where
  /-- Raised by a dispatch arm whose command has no meaning yet; safe. -/
  | notModelled (mnemonic : String)
deriving DecidableEq, Repr

/-! ### Start-up, time and the logs -/

/-- Where the controller die is in its start-up (R397, R389, R371). -/
inductive Stage where
  /-- COLD reset is asserted. -/
  | coldReset
  /-- Step 3 of R397: the SRAM self-test runs. -/
  | selfTest
  /-- Steps 4 and 5 are done. -/
  | running
  /-- A FULL debug session holds the die in WARM reset with scan enabled. -/
  | fullDebug
  /-- The clocks are stopped by a thermal shutdown until the next COLD reset. -/
  | stopped
deriving DecidableEq, Repr

/-- One RAS record (Table 18-3) without its constant bytes; `detail` is bytes 32 to 47, little-endian. -/
structure RasRec where
  st     : Nat
  seq    : Nat
  cls    : Nat
  sev    : Nat
  unsync : Bool
  blk    : Nat
  inst   : Nat
  addr   : Nat
  addr2  : Nat
  detail : Nat
  slot   : Nat
deriving DecidableEq, Repr

/-- A stored calibration section (R374). `len` and `crc` are the stored header's. -/
structure CalSection where
  id      : Nat
  origin  : Nat
  version : Nat
  len     : Nat
  crc     : Nat
  payload : Bytes
deriving DecidableEq, Repr

/-- The nonvolatile store beside the fields of Dom.nvs: the PENDING word of R381 (the target state), the owner key
X ‖ Y (empty: none), the calibration set, and the NVS ring of R407, oldest first. -/
structure Nvs where
  lcPending : Option Nat := none
  ownerKey  : Bytes := []
  cal       : List CalSection := []
  ring      : List RasRec := []
deriving DecidableEq, Repr

/-- The SPI flash: the two structure-image slots and the two firmware slots; an empty slot is erased or damaged. -/
structure Flash where
  imgA : Bytes := []
  imgB : Bytes := []
  fwA  : Bytes := []
  fwB  : Bytes := []
deriving DecidableEq, Repr

/-- Shelf time beside the TIM registers. -/
structure TimeSt where
  /-- CCLKs counted since COLD reset. -/
  cclk       : Nat := 0
  /-- Consecutive valid frames in ACQUIRE. -/
  goodFrames : Nat := 0
  /-- The difference of the last mismatching MARKST (R44). -/
  lastDiff   : Option Int := none
  /-- LOCKED has been entered since COLD reset (R47). -/
  wasLocked  : Bool := false
  /-- FLOOR_CAP value to write at the next mark (R43). -/
  capNext    : Option Nat := none
  /-- DELAY_PS value to write at the next mark (R43). -/
  delayNext  : Option Nat := none
  /-- Offset still to absorb while slewing (R47). -/
  slew       : Int := 0
  /-- For each entry, the CCLK of its last firing (R50). -/
  lastFire   : SMap Nat := []
  /-- Periodic entries that a backward step may suppress once (R50). -/
  suppress   : List Nat := []
  /-- A new window length in µs for entry 62, and the ST at which it applies (R52). -/
  windowNext : Option (Nat × Nat) := none
  /-- The strapped slot that the controller die read at its last COLD reset (R426). -/
  strap      : Nat := 0
  /-- Hottest die sensor at the last frame, in °C. -/
  temp       : Nat := 0
deriving DecidableEq, Repr

/-- An open transfer sequence of STR_LOAD or CAL_WRITE (R372, R373). -/
structure Transfer where
  who     : Initiator
  cal     : Bool
  id      : Nat
  persist : Bool
  header  : Bytes
  data    : Bytes
deriving DecidableEq, Repr

/-- An image between verification and the end of persisting (R29), with the slot it is persisted to (true: B). -/
structure PendingLoad where
  who     : Initiator
  bytes   : Bytes
  secs    : List (Nat × Bytes)
  skipped : Nat
  persist : Bool
  slotB   : Bool
deriving DecidableEq, Repr

/-- An overwrite of a calibration section under way (R376): who asked for it, the section, and whether the NVS takes it. -/
structure CalWrite where
  who : Initiator
  sec : CalSection
  ok  : Bool
deriving DecidableEq, Repr

/-- The structure beside the STR registers: the sections of the running image (type, payload; skipped sections
absent), a load under way, the LDs whose new requests R27 holds, the mailbox's open transfer, and a calibration
overwrite. -/
structure StrSt where
  /-- A structure has been applied since the last COLD reset (Table 18-3, SLOT). -/
  applied : Bool := false
  secs    : List (Nat × Bytes) := []
  load    : Option PendingLoad := none
  ldHold  : List Nat := []
  xfer    : Option Transfer := none
  cal     : Option CalWrite := none
deriving DecidableEq, Repr

/-- One Ringmaster core (R361) as far as the hardware acts on it. -/
inductive CoreSt where
  | inReset
  | running
  | wfi
  | halted
deriving DecidableEq, Repr

/-- The interrupt controller (R362): for each of 32 sources its priority, and bits for pending and for claimed and not
completed; for each context (M and S mode of each core) its enable bits and its threshold. -/
structure Plic where
  prio      : List Nat := List.replicate 32 0
  pending   : Nat := 0
  claimed   : Nat := 0
  enable    : List Nat := List.replicate 8 0
  threshold : List Nat := List.replicate 8 0
deriving DecidableEq, Repr

/-- The control complex beside the FWC registers. -/
structure Cc where
  cores    : List CoreSt := [.inReset, .inReset, .inReset, .inReset]
  /-- The firmware body in SRAM: its offset and bytes (R365). -/
  sramOfs  : Nat := 0
  sram     : Bytes := []
  /-- Core 0's first instruction (Table 16-2). -/
  entry    : Nat := 0
  /-- The running image's header, for COSIG, DIGEST and KIND. -/
  header   : Bytes := []
  /-- The slot an online restart is loading (R367). -/
  restart  : Option Bool := none
  /-- The watchdog count restarted at this CCLK; it is paused while a core is halted (R368). -/
  wdtFrom  : Nat := 0
  /-- The CCLK since which a halted core holds the watchdog's count. -/
  wdtHeld  : Option Nat := none
  plic     : Plic := {}
deriving DecidableEq, Repr

/-- An SPDM session (R393): its transport, the requester's leaf key X ‖ Y if it authenticated itself (R149), whether
FINISH has completed it, and how often its keys were updated. -/
structure Session where
  id     : Nat
  t      : Initiator
  leaf   : Option Bytes
  done   : Bool
  epoch  : Nat
deriving DecidableEq, Repr

/-- A request of Table 6-3 or 17-2 at the key block: its transport, session, OP and bytes, and whether the NVS would take
it. -/
structure VdmReq where
  t      : Initiator
  sess   : Nat
  op     : Nat
  req    : Bytes
  nvsOk  : Bool
deriving DecidableEq, Repr

/-- The security block beside its registers. -/
structure SecSt where
  sessions : List Session := []
  /-- Transports on which the version, capabilities and algorithms are agreed (R393). -/
  agreed   : List (Initiator × Nat) := []
  /-- KT of R392. -/
  kt       : Nat := 0
  /-- The TAP instruction register and the last data register shifted out. -/
  ir       : Nat := 0x01
  dr       : Nat := 0
  /-- The boundary register driven by EXTEST. -/
  boundary : Nat := 0
  /-- The transport that asked for a RETURN whose steps 3 to 5 are due (Table 17-4). -/
  returning : Option Initiator := none
  /-- A reason 5 to record at the first access after the reset (R390). -/
  endLater : Bool := false
  /-- R432: captured registers: initiator, register offset, value. -/
  captures : List (Initiator × Nat × Nat) := []
  /-- R433: staged lower halves: initiator, register offset, value. -/
  staged   : List (Initiator × Nat × Nat) := []
deriving DecidableEq, Repr

/-! ### What the block drives to the outside -/

/-- Return codes of the CXL mailbox that the spec names (R372, R373, R61, R391). -/
inductive MbxCode where
  | success
  | background
  | invalidInput
  | unsupported
  | internalError
  | busy
  | invalidSecurityState
  | invalidExtentList
  | resourcesExhausted
  | invalidSlot
  | fwAuthFailed
  /-- PRESUMED, CXL 3.1: a DPA that is not mapped (log entry 102). -/
  | invalidPhysicalAddress
deriving DecidableEq, Repr

/-! ### Page map, tiers and keys -/

/-- A chunk-table entry (Table 4-1). `frames` bit i: frame i allocated. -/
structure Chunk where
  frames : Nat := 0
  live   : Nat := 0
  bump   : Nat := 0
  state  : Nat := 0
  pool   : Nat := 0xFF
deriving DecidableEq, Repr

/-- A page-map entry (Table 4-2). -/
structure Pme where
  bsz    : Nat := 0
  loc    : Nat := 0
  age    : Nat := 0
  ver    : Nat := 0
  key    : Nat := 0
  dirtyc : Bool := false
  poison : Bool := false
  pin    : Bool := false
  twin   : Bool := false
  zero   : Bool := false
  tier   : Nat := 0
deriving DecidableEq, Repr

/-- A twin-table entry (Table 4-7). -/
structure Twin where
  hash   : Nat := 0
  loc    : Nat := 0
  key    : Nat := 0
  ver    : Nat := 0
  bsz    : Nat := 0
  refcnt : Nat := 0
  valid  : Bool := false
  origin : Nat := 0
deriving DecidableEq, Repr

/-- A map-cache line (R89): a line of four PMEs, or one twin entry. -/
structure MapTag where
  twin  : Bool
  m     : Nat
  dirty : Bool
deriving DecidableEq, Repr

/-- Where a home's map request stands: on its way to the slice, in the page-wait queue of a BUSY page (R90), behind a
miss fill, waiting for a grant whose zeroing is under way (R280), held for space (R108), behind a promotion it
triggered (R96), or served. -/
inductive ReqSt where
  | flight
  | busyWait
  | fillWait
  | grantWait
  | held
  | promo
  | served
deriving DecidableEq, Repr

/-- A read or write that a home sent to a map slice for TT entry `tt`. `line` is DLA[45:6]. An update of the AGE sweep
that waits for a BUSY page (R91) stands among them as a read of home 16. -/
structure MapReq where
  home   : Nat
  tt     : Nat
  write  : Bool
  line   : Nat
  data   : Line
  mask   : BitVec 64
  poison : Bool
  master : Nat
  agent  : Nat
  st     : ReqSt
  /-- What the read has got ahead of its data's arrival at the home: its line of a block decoded for several reads
  (R131), or of a frame that a commit is leaving (R98); and the cause of R68. -/
  got    : Option (Bytes × Nat) := none
  /-- The slot that the region table gave a first write when it reached the slice (R155). -/
  slot   : Nat := 0
deriving DecidableEq, Repr

/-- Why a page is BUSY (R90). A promotion holds the frame it fills. -/
inductive BusyOp where
  | promote (frame : Nat)
  | jobStep (g job : Nat)
deriving DecidableEq, Repr

/-- The page map beside its registers. `pmes` and `twins` are the one value every reader gets (R89); `cache` says which
lines are on chip and modified. An unlisted entry is unbacked with the AGE that the sweeps since the last reset give it:
`ageBase`, one more below map line `sweepAt` of a sweep under way. -/
structure MapSt where
  groups     : List Group := []
  /-- Chunks reserved at the top of each group (R83), in the order of `groups`. -/
  resv       : List Nat := []
  chunks     : SMap Chunk := []
  pmes       : SMap Pme := []
  ageBase    : Nat := 0
  sweepAt    : Nat := 0
  twins      : SMap Twin := []
  cache      : List MapTag := []
  /-- Map lines being fetched. -/
  fills      : List MapTag := []
  /-- Pages whose PME does not decode (R87, Table 18-5), and pages whose PME has reserved bits that are not zero (R85). -/
  lost       : List Nat := []
  broken     : List Nat := []
  busy       : List (Nat × BusyOp) := []
  reqs       : List MapReq := []
  /-- Granted chunks whose zeroing is under way: chunk, pool. -/
  zeroing    : List (Nat × Nat) := []
  /-- Frames that a commit has left and that are freed once reads in flight to them have completed: the frame, and the
  home and TT index of each such read (R98). -/
  leaving    : List (Nat × List (Nat × Nat)) := []
  /-- Tag lines that galleries have asked for (R147): the tag's DLA line, the gallery, and the data once it is there. -/
  tags       : List (Nat × Nat × Option (Line × Bool)) := []
  /-- The dropped-line table: DLA line indices, oldest first (R110). -/
  dropped    : List Nat := []
  /-- Pages that a DEMOTE has read and not committed: page, job, and whether it was written since (R98). -/
  watch      : List (Nat × Nat × Bool) := []
  twinChunks : List Nat := []
  twinKey    : Nat := 0
  /-- Units of 256 MiB of DLA whose unlisted entries have ZERO set (R62, R71). -/
  zeroed     : List Nat := []
deriving DecidableEq, Repr

/-- Key material (96 bytes) as three 256-bit numbers of little-endian bytes. -/
structure KeyMat where
  k1 : Nat := 0
  k2 : Nat := 0
  km : Nat := 0
deriving DecidableEq, Repr

/-- A key slot beside KEY_SLOTn: current and previous material, and an ERASE under way (R151). -/
structure KeySlot where
  cur     : KeyMat := {}
  prev    : KeyMat := {}
  erasing : Bool := false
deriving DecidableEq, Repr

/-! ### Hosts -/

/-- Kinds of CXL event record (Table 3-1). -/
inductive EventKind where
  | generalMedia
  | dram
  | memoryModule
  | dynamicCapacity
deriving DecidableEq, Repr

/-- An event record (R68, R69): its handle, the DPA, the cause of R68 or a code of the event, the transaction type
(0 none, 1 read, 2 write), and ST. -/
structure EventRec where
  handle : Nat
  kind   : EventKind
  dpa    : Nat
  cause  : Nat
  txn    : Nat
  st     : Nat
deriving DecidableEq, Repr

/-- One event log of an LD (R69). -/
structure EventLog where
  recs     : List EventRec := []
  overflow : Bool := false
  lost     : Nat := 0
deriving DecidableEq, Repr

/-- An HDM decoder (R59): HPA base and size in bytes, ways, granularity in bytes, and the DPA at which it starts. -/
structure Hdm where
  base      : Nat := 0
  size      : Nat := 0
  ways      : Nat := 1
  gran      : Nat := 256
  dpa       : Nat := 0
  committed : Bool := false
deriving DecidableEq, Repr

/-- A BISnp outstanding to an LD (R64): line, the snoop, the home and its TT entry, and the write that has served it as
its DataM (R176). -/
structure BiSnp where
  line  : Nat
  snoop : Nat
  home  : Nat
  htag  : Nat
deriving DecidableEq, Repr

/-- A release of Dynamic Capacity under way (R62), in units of 256 MiB of DPA, with its command's initiator; none where the
command has been aborted (R71, R368). -/
structure DcRelease where
  start : Nat
  len   : Nat
  who   : Option Initiator
deriving DecidableEq, Repr

/-- A logical device beside its registers. Logs: 0 Informational, 1 Warning, 2 Failure, 3 Fatal, 4 Dynamic Capacity.
Received tolerances are in ns (R74). Extents are (start, length) in units of 256 MiB of DPA. -/
structure LdSt where
  memEnable  : Bool := false
  viral      : Bool := false
  hdm        : SMap Hdm := []
  logs       : SMap EventLog := []
  nextHandle : Nat := 1
  snoopNs    : Nat := 0
  noSnoopNs  : Nat := 0
  extents    : List (Nat × Nat) := []
  release    : Option DcRelease := none
  bisnp      : List BiSnp := []
  /-- BIConflicts answered once the home has ordered the line's conflicting request (R65): member and line. -/
  conflicts  : List (Nat × Nat) := []
  /-- A CXL Reset that waits for the LD's proxy to leave every directory, and whether Mem Clear is asked (R71). -/
  resetting  : Option Bool := none
  /-- An FLR that waits for the port to come up (Table 18-7). -/
  flrDue     : Bool := false
  /-- DPA lines into which the host has injected poison (R58). -/
  injected   : List Nat := []
  /-- The DPA range, in bytes, of the last Scan Media (R58). -/
  scanned    : Option (Nat × Nat) := none
deriving DecidableEq, Repr

/-- A host request that a port has turned into an internal one (R63): the LD, the host's tag, the internal tag, the
request's opcode, member and line, and whether it is the WbD of an owner. -/
structure HostReq where
  ld   : Nat
  tag  : Nat
  rtag : Nat
  opc  : Nat
  slot : Nat
  line : Nat
  own  : Bool
deriving DecidableEq, Repr

/-- A read of a queue that stalls (R76, R290): the port that carries it (16: none), who reads, queue, and tag. -/
structure Stalled where
  port  : Nat
  who   : QPort
  queue : Nat
  tag   : Nat
deriving DecidableEq, Repr

/-! ### DRAM channels -/

/-- One 64-byte access on its way through a channel (R251, R314): the line, who is charged, when it reached the
channel (in CCLKs), its Turnstile priority, and the real-time port it came through. -/
structure LineAcc where
  cla    : Nat
  write  : Bool
  master : Nat
  at_    : Nat
  prio   : Nat
  rt     : Option Nat
  /-- The request in whose course it is made. -/
  txn    : Option Nat
  /-- A ceiling held it when a window closed (R319). -/
  late   : Bool := false
deriving DecidableEq, Repr

/-- A PANIC event of a real-time port (R256): one is open; the level must fall below RELEASE_LVL before a new one. -/
structure Panic where
  open_ : Bool := false
  spent : Bool := false
deriving DecidableEq, Repr

/-- One channel beside its DRC registers. -/
structure ChanSt where
  /-- Accesses the Turnstile has not admitted yet. -/
  wait     : List LineAcc := []
  /-- The input queue, and the accesses in the bank queues (R251), each in arrival order. -/
  inq      : List LineAcc := []
  bq       : List LineAcc := []
  /-- Reads issued to the DRAM whose codeword has not returned. -/
  issued   : List LineAcc := []
  /-- Open row of each bank queue, by 128 × subchannel + 32 × rank + bank (R251), with the chip ID above bit 20. -/
  rows     : SMap (Option Nat) := []
  /-- Bank group of the last activate, by 4 × subchannel + rank (R253). -/
  lastBg   : SMap Nat := []
  /-- Write drain (R254). -/
  drain    : Bool := false
  panic0   : Panic := {}
  panic1   : Panic := {}
  /-- A of R264. -/
  phaseA   : Nat := 0
  /-- ST of the last reading (R265). -/
  readSt   : Nat := 0
  /-- Ranks whose highest MR4 reading is above 85 °C (R263). -/
  mr4      : List Nat := []
  /-- Die count of the channel's DIMMs, from their SPD (R247). -/
  dies     : Nat := 1
  /-- Lines in scope of the awake pass, zero between two passes, and the CCLK at which it began (R281). -/
  passN    : Nat := 0
  passFrom : Nat := 0
  /-- The Loft rank that windows scrub next, and Loft ranks whose pass is under way (R281). -/
  loftAt   : Nat := 0
  passing  : List Nat := []
  /-- The TYPE of a repair under way (R285). -/
  ppr      : Option Nat := none
  /-- Ranks in PARKING whose self-refresh entry has been issued (R259). -/
  entered  : List Nat := []
deriving DecidableEq, Repr

/-! ### Coherence -/

/-- Where a message on the torus goes: to the home of its line, or to an agent; an internal message to an endpoint. -/
inductive Dest where
  | home
  | agent (a : Nat)
  | ep (e : Nat)
deriving DecidableEq, Repr

/-- A message on its way: its opcode of Table 7-2. -/
structure Flight where
  opc : Nat
  dst : Dest
  msg : CohMsg
deriving DecidableEq, Repr

/-- Home transaction states (Table 7-6), in the order Table 7-16 codes them. -/
inductive HbSt where
  | alloc
  | dat
  | snp
  | wb
deriving DecidableEq, Repr

/-- What a TT entry does once its snoops are answered (Table 7-5). -/
inductive Plan where
  /-- RdS that needs a grant (R167). -/
  | share
  /-- RdS forwarded by the F holder with SnpF1. -/
  | forward
  /-- RdS of the F holder: Data GRANT F, nothing changes. -/
  | keepF
  /-- RdS of the owner: DataE; for an LD Data S and DSTATE S. -/
  | owner
  /-- RdS NOALLOC and RdNC: Data S, no entry for the requester. -/
  | copy
  /-- RdO, or an Upg carried out as one. -/
  | excl
  /-- Upg of a listed requester: CmpE. -/
  | upg
  /-- WbD of the owner: write, Ack. -/
  | wbOwn
  /-- WbD NOOWN: write, Cmp. -/
  | wbNo
  /-- A recall (R165). -/
  | takeBack
deriving DecidableEq, Repr

/-- Data with its byte mask and poison. -/
structure MaskedData where
  data   : Line
  mask   : BitVec 64
  poison : Bool
deriving DecidableEq, Repr

/-- A transaction-table entry. -/
structure TT where
  /-- Opcode of the request; 0 for a recall. -/
  opc     : Nat
  msg     : CohMsg
  st      : HbSt
  /-- Arrival order (R166). -/
  seq     : Nat
  plan    : Plan
  /-- The line's directory way, found or taken. -/
  way     : Option Nat := none
  /-- The way whose recall the entry waits for. -/
  victim  : Option Nat := none
  /-- The snoop sent, and the agents whose answers are awaited. -/
  snp     : Nat := 0
  await   : List Nat := []
  /-- Agents that answered RspX and whose DataM is awaited (R173). -/
  crossed : List Nat := []
  /-- Data that snoops brought. -/
  dm      : Option MaskedData := none
  /-- Memory data in hand. -/
  mem     : Option (Line × Bool) := none
  /-- A memory read is outstanding. -/
  memOut  : Bool := false
  /-- Write data in hand, for a WbD. -/
  wd      : Option MaskedData := none
  /-- A write awaits WDONE. -/
  wrOut   : Bool := false
  /-- The write of the snoop's data has been issued. -/
  wrote   : Bool := false
  /-- The grant or completion has been sent. -/
  sent    : Bool := false
  /-- CCLK at which the line was locked (R174). -/
  lockAt  : Option Nat := none
deriving DecidableEq, Repr

/-- A directory entry (Table 7-4). -/
structure DirEnt where
  tag     : Nat := 0
  dstate  : Nat := 0
  fptr    : Nat := 0
  sharers : Nat := 0
deriving DecidableEq, Repr

/-- A proxy-filter entry (Table 7-9), and whether the local copies are shared ones under PSTATE E: the remote home granted E
to a read whose requester takes S or F (R179; log entry 110, DEDUCED). -/
structure PfEnt where
  tag    : Nat := 0
  slot   : Nat := 0
  pstate : Nat := 0
  fptr   : Nat := 0
  locals : Nat := 0
  shared : Bool := false
deriving DecidableEq, Repr

/-- A write-data buffer entry of a home (R160, R173). -/
structure Wdb where
  agent    : Nat
  line     : Nat
  wd       : MaskedData
  absorbed : Bool
deriving DecidableEq, Repr

/-- A home beside its registers: requests in conflict-queue order, the write-data buffer, and holders that a CXL Reset
invalidates once their line is free (R71). -/
structure HomeSt where
  confq  : List Flight := []
  wdb    : List Wdb := []
  purges : List Flight := []
deriving DecidableEq, Repr

/-- States of an agent's line (Table 7-8), in the order R406 codes them. -/
inductive AgSt where
  | m
  | e
  | s
  | f
  | i
  | isD
  | imD
  | smA
  | fmA
  | miA
  | eiA
  | siA
  | fiA
deriving DecidableEq, Repr

/-- A local access of a caching agent (Table 7-8). -/
inductive AgOp where
  | load
  | store
  | evict
deriving DecidableEq, Repr

/-- A line of a caching agent: its data, the snoops it holds (R171), the store whose request is open, and the accesses that
stall (R160), in order. -/
structure AgLine where
  st      : AgSt := .i
  data    : Line := 0
  poison  : Bool := false
  held    : List Flight := []
  store   : Option (Line × BitVec 64) := none
  stalled : List (AgOp × CohMsg) := []
deriving DecidableEq, Repr

/-- What a proxy-filter transaction does once its local snoops are answered (R179, R180): take a way of the filter; send a
request to the remote home; nothing more, the local F holder has forwarded; give the line up; give it up and then serve the
request anew; or answer the remote snoop. -/
inductive PfNext where
  | alloc
  | ask (opc : Nat)
  | done
  | giveUp
  | again
  | answer
deriving DecidableEq, Repr

/-- A transaction of the proxy filter on a remote line: its TT index; the local request it serves, or the remote snoop; the
proxy's state toward the remote home (Table 7-8), I while it waits for local answers, or while a request that leaves the
proxy's state alone is `out`; the filter way it has taken; the local agents whose answers or crossed DataM are awaited; the
last answer; a DataM they brought; the write data of its WbD, and whether it waits for it, or for a write-data credit of the
remote home; a completion that came ahead of a local answer; remote snoops held. -/
structure PfTx where
  slot    : Nat
  line    : Nat
  e       : Option Nat := none
  req     : Option Flight := none
  snoop   : Option Flight := none
  st      : AgSt := .i
  out     : Bool := false
  next    : PfNext
  way     : Option Nat := none
  await   : List Nat := []
  crossed : List Nat := []
  ans     : Nat := 0
  dm      : Option MaskedData := none
  wd      : Option MaskedData := none
  needWd  : Bool := false
  credit  : Bool := false
  pend    : Option (Nat × CohMsg) := none
  held    : List Flight := []
deriving DecidableEq, Repr

/-- Write data of a local agent for a remote line in a home's write-data buffer (R160, R173). -/
structure PfWd where
  agent    : Nat
  slot     : Nat
  line     : Nat
  wd       : MaskedData
  absorbed : Bool
deriving DecidableEq, Repr

/-- Coherence beside the HOM registers. Keys: homes by number; TT entries by 256 × home + index; directory and
proxy-filter ways by (home × 8192 + set) × 16 + way; round-robin pointers by home × 8192 + set; agents' lines by
(agent × 16 + slot) × 2^40 + line; spent write-data credits by agent × 16 + home, where 128 + t stands for this member's
proxy at the homes of the member in slot t. `pfq` holds local requests for remote lines that wait, and `pfPurges` holders
that a CXL Reset invalidates; `pfSnoops` remote snoops that a transaction held to its end. -/
structure CohSt where
  flight  : List Flight := []
  homes   : SMap HomeSt := []
  tt      : SMap TT := []
  dir     : SMap DirEnt := []
  pf      : SMap PfEnt := []
  rr      : SMap Nat := []
  lines   : SMap AgLine := []
  spent   : SMap Nat := []
  pfTx    : List PfTx := []
  pfq     : List Flight := []
  pfSnoops : List Flight := []
  pfPurges : List Flight := []
  pfData  : List PfWd := []
  seq     : Nat := 0
deriving DecidableEq, Repr

/-! ### Torus -/

/-- What R207 and R208 hold at a domain's boundary, by network: 0 REQ, 1 SNP, 2 RSP, 3 DAT. -/
structure DomSt where
  held : List (Nat × Flight) := []
  /-- Blocks held at a gallery (R93): page, block, and the granules. -/
  blks : List (Nat × Nat × Bytes) := []
  /-- The floor logic asks for the fence (R206). -/
  want : Bool := false
deriving DecidableEq, Repr

/-- A packet on the torus (Tables 8-2 and 8-3): the message, SRCEP, the destination endpoint, EPOCH and VC; the router at
which it stands and the input that holds it (0 to 3 the links, 4 and 5 the local ports); the hops still to take; whether it
has taken a Y hop; its detour, of an X link or not; failed checks in succession of the flit being sent; whether it has been
ejected and stands at its destination's boundary; and whether a domain has held it, so that it goes ahead of later packets. -/
structure Pkt where
  flight  : Flight
  src     : Nat
  dst     : Nat
  epoch   : Nat
  at_     : Nat
  inp     : Nat
  xdir    : Nat
  xcnt    : Nat
  ydir    : Nat
  ycnt    : Nat
  ej      : Nat
  vc      : Nat := 0
  turned  : Bool := false
  detcnt  : Nat := 0
  dside   : Nat := 0
  detX    : Bool := false
  retries : Nat := 0
  ejected : Bool := false
  freed   : Bool := false
deriving DecidableEq, Repr

/-- The torus beside its registers. -/
structure NocSt where
  /-- Packets on the torus, in the order of their injection. -/
  pkts  : List Pkt := []
  /-- The input VC that each output port serves next, by (router × 6 + port) × 4 + network (R194). -/
  turns : SMap Nat := []
  /-- Internal packets whose data is poisoned (R197). -/
  bad   : List Flight := []
  /-- Held packets and floor requests, by domain. -/
  doms  : SMap DomSt := []
  /-- Routers reconfigured by the last APPLY (R205). -/
  reconf : List Nat := []
  /-- Requests that have been reinjected once (R202). -/
  again : List Flight := []
  /-- Packets that a sink absorbed and whose ERR is on its way to the source (R201). -/
  errs : List Flight := []
  /-- A detour is in use: router and link (R199). -/
  detours : List (Nat × Nat) := []
deriving DecidableEq, Repr

/-! ### Catwalk -/

/-- A flit in a spill ring (R227): its SEQ, its slot of the ring, and the header unit of its packet. -/
structure Spilled where
  seq  : Nat
  slot : Nat
  hdr  : Nat
deriving DecidableEq, Repr

/-- A replay under way (R226): the SEQ at which it began, the next SEQ to send, and the flits it has sent. -/
structure Replay where
  start : Nat
  next  : Nat
  sent  : Nat
deriving DecidableEq, Repr

/-- A Catwalk link beside its registers. -/
structure Link where
  /-- Packets that wait for credit or for the link. -/
  txq      : List CwkPacket := []
  /-- The replay buffer: SEQ and the 224 slot bytes of unacknowledged flits, oldest first. Older ones lie in the spill ring. -/
  stored   : List (Nat × Bytes) := []
  spilled  : List Spilled := []
  /-- The slot of the spill ring that the next flit takes. -/
  ringAt   : Nat := 0
  /-- The replay under way. -/
  replay   : Option Replay := none
  /-- COUNT last received of each VC (R220). -/
  lastCnt  : SMap Nat := []
  /-- Receive slots freed of each VC, and the count last reported, modulo 2^21. -/
  freed    : SMap Nat := []
  told     : SMap Nat := []
  /-- The used VC that the next return reports. -/
  turn     : Nat := 0
  /-- Units of a packet that has not ended. -/
  units    : List Bytes := []
  /-- Consecutive uncorrected flits; for each used VC, good flits since its last report. -/
  badRun   : Nat := 0
  silent   : SMap Nat := []
  /-- REPLAY_REQ(E) is due in every flit (R225), and whether the last flit carried one. -/
  asking   : Bool := false
  said     : Bool := false
  /-- The last WAKE_TOL sent, and whether TIME is due (R222). -/
  tolSent  : Option Nat := none
  timeDue  : Bool := false
  /-- The own RETRAIN_REQ that is unanswered, and the resolved target of a retrain. -/
  ask      : Option CwkTarget := none
  target   : Option CwkTarget := none
  /-- A RETRAIN_REQ that came in RETRAIN (R233). -/
  next     : Option CwkTarget := none
  /-- The peer's last accepted HELLO payload. -/
  hello    : Bytes := []
  /-- OWN and PEERS received in the last 4 µs, in ns, oldest first (R240). -/
  tols     : List (Nat × Nat) := []
  /-- Frames of the spill ring's pages, captured at INIT (R228). -/
  ring     : List (Nat × Nat) := []
  /-- RXBUF of each VC in force since INIT, and the peer's from its HELLO. -/
  rxbuf    : List Nat := []
  peerBuf  : List Nat := []
deriving DecidableEq, Repr

/-- The Span beside its registers: slots whose exclusion sweep has ended (R242), those whose sweep runs, and the latest HELLO
payload accepted from each member (R243). -/
structure SpanSt where
  swept    : Nat := 0
  sweeping : Nat := 0
  hellos   : SMap Bytes := []
deriving DecidableEq, Repr


/-! ### Queues and galleries -/

/-- An item of the queue RAM with its tag (R292): bit 0 SOP, bit 1 EOP, bit 2 TRUNC. -/
structure QItem where
  item : Line
  tag  : Nat
deriving DecidableEq, Repr

/-- A queue beside its CRQ registers: the open-packet state saved with M, the token due to the next pop (0 none, 0x06
TRUNC, 0x10 QRESET, as in byte 63 of R292), and on-chip pushes that stall: producer and item, oldest first. -/
structure Queue where
  saved : Bool := false
  token : Nat := 0
  stall : List (Nat × QItem) := []
deriving DecidableEq, Repr

/-- Where a job stands (R301): fetched, executing, or ended with its summary not pushed. -/
inductive JobSt where
  | fetched
  | running
  | ended
deriving DecidableEq, Repr

/-- What a DEMOTE or RELOCATE has ready for the commit of a page: the page, its entry as the job read it, the status it
will end with, the run allocated (first granule, granules), the entry to write, the twin entry whose REFCNT the job
holds, and the twin entry to fill with its hash; a page that takes a twin entry finds its bucket full. -/
structure PageStep where
  page   : Nat
  was    : Pme
  old    : Twin
  status : Nat
  run    : Option (Nat × Nat)
  pme    : Pme
  shared : Option Nat
  bucket : Option (Nat × Nat)
  full   : Bool := false
deriving DecidableEq, Repr

/-- A job (R301): its binding, descriptor items, the pointer at which the packet began, the DETAIL of a descriptor that
is bad, where it stands, what it has done, and what it holds between two commands. -/
structure Job where
  seq    : Nat
  jq     : Nat
  dq     : Nat
  cq     : Nat
  owner  : Nat
  items  : List Line
  at_    : Nat
  bad    : Option Nat
  st     : JobSt := .fetched
  /-- Its DQ has been reset: the release is dropped (R310). -/
  drop   : Bool := false
  /-- It has pushed an item to its CQ. -/
  opened : Bool := false
  /-- List items not pushed yet, and the entries of the one being filled (R307). -/
  list   : List Line := []
  part   : List Nat := []
  /-- Entries of the STATUS item being filled, of a job whose list items are MATCH items. -/
  stat   : List Nat := []
  /-- Bytes, blocks or pages handled; bytes read and written; the CRC register; bytes read and not used; bytes made and
  not written. -/
  pos    : Nat := 0
  taken  : Nat := 0
  put    : Nat := 0
  acc    : Nat := 0
  inBuf  : Bytes := []
  outBuf : Bytes := []
  /-- The line that a read through a home brought, and the requests the job waits for: line index. -/
  got    : Option (Line × Bool) := none
  asked  : List Nat := []
  /-- A write through a home is under way; it has been accepted. -/
  wrote  : Option Bool := none
  page   : Option PageStep := none
  progress : Nat := 0
  r0     : Nat := 0
  r1     : Nat := 0
  ok     : Nat := 0
  exc    : Nat := 0
  start  : Nat := 0
  result : Nat := 0
  detail : Nat := 0
deriving DecidableEq, Repr

/-- A gallery beside its registers: its jobs in fetch order; the packet it is fetching (job queue, items so far); the
turn of the round robin: job queue and packets left; for each job queue, the JOB_IDs of its last 64 commits; the abort
without a result yet: descriptor queue and job; job queues whose EN is being cleared. -/
structure GalSt where
  jobs    : List Job := []
  part    : Option (Nat × Nat × List QItem) := none
  turn    : Nat × Nat := (0, 0)
  recent  : SMap (List Nat) := []
  aborts  : List (Nat × Nat) := []
  back    : List Job := []
  closing : List Nat := []
  /-- The cache is being emptied (GAL_CTL.FLUSH, or the drain of the gallery's domain). -/
  flush   : Bool := false
deriving DecidableEq, Repr

/-! ### Power floors -/

/-- The floor logic beside the PWR registers: the floor after FLOOR is being entered; the domains it has fenced or is
fencing; ports in ASPM L1; ranks that Floor 4 has put into self-refresh (4 × channel + rank). A transition with
`entering` clear is an exit that waits for domains to come ON. -/
structure PwrSt where
  entering : Bool := false
  fenced   : List Nat := []
  l1       : List Nat := []
  selfRef  : List Nat := []
deriving DecidableEq, Repr

/-! ### Turnstile, counters and samples -/

/-- A request under way, as R320, R323 and R333 look at it: its source, tag, member and line; byte 30 and the HPA of its
record; its master and class (R328: 0 read, 1 write, 2 other coherence, 3 internal); ST and CCLK of its issue or
ingress; what its service has shown (TIER, TWIN, DRAM used, promoted, place, highest priority); and its first mark
(unit, counter, event). -/
structure Txn where
  id     : Nat
  agent  : Nat
  tag    : Nat
  slot   : Nat
  line   : Nat
  opc    : Nat
  hpa    : Nat := 0
  master : Nat
  cls    : Nat
  st     : Nat
  cclk   : Nat
  tier   : Nat := 0
  twin   : Bool := false
  dram   : Bool := false
  promo  : Bool := false
  prio   : Nat := 0
  place  : Option (Nat × Nat) := none
  mark   : Option (Nat × Nat × Nat) := none
  multi  : Bool := false
  /-- Its port went down, or its LD had an FLR: it ends incomplete (R340). -/
  gone   : Bool := false
deriving DecidableEq, Repr

/-- The requests under way, how many there have been, and the one in whose course a command posts accesses (none between
two commands). -/
structure TxnSt where
  reqs : List Txn := []
  seq  : Nat := 0
  cur  : Option Nat := none
deriving DecidableEq, Repr

/-- The values of a master in force in the current window (R316). -/
structure Force where
  guar : Nat := 0
  ceil : Nat := 0
  lat  : Nat := 0
  thr  : Nat := 0
deriving DecidableEq, Repr

/-- The Turnstile beside its registers: the values in force, the latency misses of the current window, the CCLK at which
it began, and whether it is short whatever comes (R317). -/
structure TstSt where
  force  : SMap Force := []
  miss   : SMap Nat := []
  began  : Nat := 0
  short  : Bool := true
  /-- R348: the µs in which throttled admissions are counted, and their count. -/
  usec   : Nat := 0
  lines  : Nat := 0
deriving DecidableEq, Repr

/-- The sample writer beside its registers (R336 to R338): the buffer, as SEQ and record; the next SEQ; records lost since
the last one written; how many buffered records a flush still owes; records on their way to DRAM; the ring's frames by
page; and the SEQs of ring records that were written in hashed form (R392). -/
structure SmpSt where
  buf    : List (Nat × Bytes) := []
  seq    : Nat := 0
  lost   : Nat := 0
  owed   : Nat := 0
  inAir  : List (Nat × Bytes) := []
  frames : List (Nat × Nat) := []
  hashed : List Nat := []
deriving DecidableEq, Repr

/-- The inlet die beside its registers (R351 to R358, R422, R426): VSTBY12 is up; both presence inputs are low; the
sampled straps; TALLY_CLK edges are present; its copy of ST at the last
mark (R43) and the units since, the start ST of a granted ramp of INLET, the valid frames since acquisition, whether it is
locked, and the difference of the last mismatch (R44); the thermal model's estimate in °C (R356); tripped channels whose
toggle has its falling half; channels with accumulated time in limit (R355); and the limits of LIMO codes 3, 4, 5 and 7
that were last applied. -/
structure InlSt where
  standby  : Bool := false
  present  : Bool := false
  slot     : Nat := 0
  auto     : Bool := false
  tally    : Bool := false
  st       : Nat := 0
  since    : Nat := 0
  grant    : Nat := 0
  good     : Nat := 0
  locked   : Bool := false
  lastDiff : Option Int := none
  temp     : Rat := 0
  armed    : List Nat := []
  limited  : List Nat := []
  lims     : List Nat := [550, 800, 125, 2000]
deriving DecidableEq, Repr

/-- What the block drives to the outside, oldest first in State.out. -/
inductive Out where
  /-- The answer to a BAR0 read (R431, R432, R386). -/
  | bar0 (who : Initiator) (off data : Nat)
  /-- A mailbox completion. -/
  | mbx (who : Initiator) (code : MbxCode) (payload : Bytes)
  /-- An SPDM response: the response code and its payload. -/
  | spdm (t : Initiator) (code : Nat) (payload : Bytes)
  /-- The response to a key-programming or lifecycle request. -/
  | vendor (t : Initiator) (payload : Bytes)
  /-- What a TAP data register shifts out. -/
  | tap (dr : Nat)
  /-- The answers of the eight query rounds of a frame, round k in bit k (R38). -/
  | tally (slot answers : Nat)
  /-- A response to a host (S2M): LD, host tag, 0 NDR Cmp, 1 NDR Cmp-E, 2 Cmp-S, 3 DRS MemData; data; poison;
  DevLoad. -/
  | s2m (ld tag kind : Nat) (data : Line) (poison : Bool) (devload : Nat)
  /-- A BISnp to a host: 0 Data, 1 Inv, 2 Cur. -/
  | bisnp (ld kind line : Nat)
  /-- A BIConflictAck to a host. -/
  | biConflictAck (ld line : Nat)
  /-- A flit on a Catwalk link. -/
  | flit (link : Nat) (bytes : Bytes)
  /-- A firmware message delivered to the receiver's firmware (Table 9-3): the sender's slot. -/
  | fwmsg (slot : Nat) (bytes : Bytes)
  /-- A host pop returns (R292, R294): who, queue, tag of the read, 64 bytes. -/
  | hostPop (who : Initiator) (q tag : Nat) (item : Line)
  /-- An on-chip pop returns: endpoint, queue, item, tag or token. -/
  | chipPop (ep q : Nat) (item : Line) (tag : Nat)
  /-- An on-chip push is discarded with QRESET status (R298). -/
  | pushReset (ep q : Nat)
  /-- The answer to a DOE request for a CDAT entry (R58). -/
  | doe (ld : Nat) (bytes : Bytes)
  /-- A CXL Reset of an LD completes (R71). -/
  | cxlResetDone (ld : Nat)
deriving DecidableEq, Repr

/-! ### The state -/

/-- The block. `pending` is the queue of commands waiting, first in, first out. -/
structure State where
  pending : List Instr := []
  /-- Every register field; an unlisted field holds its reset value. -/
  regs    : SMap Nat := []
  /-- How many free values have been drawn: the model's own field, no part of the block. -/
  free    : Nat := 0
  /-- What the block has driven to the outside: the model's own field, an observation. -/
  out     : List Out := []
  stage   : Stage := .coldReset
  nvs     : Nvs := {}
  flash   : Flash := {}
  time    : TimeSt := {}
  str     : StrSt := {}
  cc      : Cc := {}
  sec     : SecSt := {}
  /-- The on-chip RAS log, oldest first (R407). -/
  ras     : List RasRec := []
  map     : MapSt := {}
  keys    : SMap KeySlot := []
  /-- Key and lifecycle requests that wait for an ERASE or a RETURN under way (R149, R379). -/
  keyReqs : List VdmReq := []
  /-- DRAM: the stored bytes, at key (channel × 2^38 + CLA) × 128 + symbol position (R249, R273); an unlisted byte is
  that of a line of zero data (R280, log entry 8, DESIGN CHOICE). -/
  mem     : List Host.Cell := []
  /-- Lines whose last read failed, with the cause its reader reports (R276). -/
  causes  : SMap Nat := []
  /-- Logical devices, by LD number. -/
  hosts   : SMap LdSt := []
  /-- Host requests under way. -/
  reqs    : List HostReq := []
  /-- Queue-port reads that stall. -/
  stalled : List Stalled := []
  /-- M2S requests that wait at their port: for the end of a hold (R27), a tag, a write-data credit, or an earlier
  request for the line (R160). -/
  m2s     : List M2S := []
  /-- Ports whose CXL.cachemem IDE stream is in the insecure state (R70). -/
  insecure : List Nat := []
  /-- The IDE key sets of the ports' streams (R70). -/
  ide     : List (Nat × IdeKeys) := []
  /-- Lane failures under way, oldest first: port and failed logical lane (R72). -/
  lanes   : List (Nat × Nat) := []
  /-- Failed lanes that a link trains without, as port and lane of its unit (R73). -/
  badLanes : List (Nat × Nat) := []
  /-- Ports whose link runs with lane order reversed against its unit (R72). -/
  laneRev : List Nat := []
  dram    : SMap ChanSt := []
  coh     : CohSt := {}
  noc     : NocSt := {}
  links   : SMap Link := []
  span    : SpanSt := {}
  queues  : SMap Queue := []
  /-- The queue RAM, by item number. -/
  qram    : SMap QItem := []
  gals    : SMap GalSt := []
  /-- Jobs fetched so far. -/
  jobSeq  : Nat := 0
  pwr     : PwrSt := {}
  /-- Stations whose PERST_L is asserted (R55). -/
  perst   : List Nat := []
  txn     : TxnSt := {}
  tst     : TstSt := {}
  smp     : SmpSt := {}
  inl     : InlSt := {}
deriving DecidableEq, Repr

/-- The block right after COLD reset has acted: every field at its reset value, nothing loaded, no rank trained, the
inlet die without standby (log entries 4 and 9, DESIGN CHOICE). -/
def State.reset : State := {}

end Sys2Proof.Machine
end

