-- ==== Sys2Proof/Machine/Regs.lean ====
section
/-!
DEFINITION. Sparse maps, and the one home of every register field: reading, setting and counting a field.
-/

namespace Sys2Proof.Machine

/-! ### Sparse maps -/

/-- The value at key `k`, `d` where none is listed. -/
def smGet {α : Type} (d : α) : SMap α → Nat → α
  | [], _ => d
  | (k, v) :: m, x => if x = k then v else smGet d m x

/-- `m` with `v` at key `k`, in rising order of keys. -/
def smInsert {α : Type} : SMap α → Nat → α → SMap α
  | [], k, v => [(k, v)]
  | (k', v') :: m, k, v =>
    if k < k' then (k, v) :: (k', v') :: m
    else if k = k' then (k, v) :: m
    else (k', v') :: smInsert m k v

/-- `m` with nothing listed at key `k`. -/
def smErase {α : Type} (m : SMap α) (k : Nat) : SMap α := m.filter (fun x => x.1 != k)

/-- `m` with `v` at key `k`, where `d` is what an unlisted key holds. -/
def smSet {α : Type} [DecidableEq α] (d : α) (m : SMap α) (k : Nat) (v : α) : SMap α :=
  if v = d then smErase m k else smInsert m k v

/-- Keys strictly rise. -/
def smSorted {α : Type} : SMap α → Bool
  | [] => true
  | [_] => true
  | a :: b :: m => a.1 < b.1 && smSorted (b :: m)

/-! ### Register fields -/

/-- R429: the BAR0 offset of entry `j` of the field's register in copy `i` of its block. -/
def Field.addr (f : Field) (i j : Nat) : Nat := f.blk.base + f.blk.stride * i + f.off + f.stride * j

/-- The number of a field: no two fields of the Register index have the same. -/
def Field.id (f : Field) : Nat := (f.blk.base + f.off) * 64 + f.lo

/-- The key of entry `j` of a field in copy `i` of its block: no two share a key, whatever the numbers. -/
def Field.key (f : Field) (i j : Nat) : Nat :=
  f.id % 2 ^ 32 + 2 ^ 32 * (if i = 0 then 2 * j else 2 * ((i + j) * (i + j) + i) + 1)

/-- How many bits the field has. -/
def Field.width (f : Field) : Nat := f.hi + 1 - f.lo

/-- What the field holds at its reset. -/
def Field.resetAt (f : Field) (i j : Nat) : Nat :=
  match f.reset with
  | .val v => v
  | .inst => i
  | .hid => 2 * (i % 4) + j
  | .wakeNs => if j < 16 then 24000 else if j < 32 then 2500 else 2800
  | .rtMaster => b2n ((81 ≤ j && j ≤ 88) || j == 90)
  | .hardware => Config.hardware (f.key i j) % 2 ^ f.width
  | .route => defaultRoute (j / 512) (j % 512)

/-- The value of a field: entry `j` of its register in copy `i` of its block. -/
def State.rd (s : State) (f : Field) (i : Nat := 0) (j : Nat := 0) : Nat :=
  smGet (f.resetAt i j) s.regs (f.key i j)

/-- Set a field; what does not fit its width is cut off. -/
def State.wr (s : State) (f : Field) (v : Nat) (i : Nat := 0) (j : Nat := 0) : State :=
  { s with regs := smSet (f.resetAt i j) s.regs (f.key i j) (v % 2 ^ f.width) }

/-- Add to a saturating count. -/
def State.bump (s : State) (f : Field) (n : Nat := 1) (i : Nat := 0) (j : Nat := 0) : State :=
  s.wr f (satAdd f.width (s.rd f i j) n) i j

/-- Add to a count that wraps, or to a level. -/
def State.add (s : State) (f : Field) (n : Nat) (i : Nat := 0) (j : Nat := 0) : State :=
  s.wr f (s.rd f i j + n) i j

/-- Take from a level, not below zero. -/
def State.sub (s : State) (f : Field) (n : Nat) (i : Nat := 0) (j : Nat := 0) : State :=
  s.wr f (s.rd f i j - n) i j

/-- The field is not zero. -/
def State.on (s : State) (f : Field) (i : Nat := 0) (j : Nat := 0) : Bool := s.rd f i j != 0

/-- Set a one-bit field. -/
def State.set (s : State) (f : Field) (i : Nat := 0) (j : Nat := 0) : State := s.wr f 1 i j

/-- Clear a field. -/
def State.clear (s : State) (f : Field) (i : Nat := 0) (j : Nat := 0) : State := s.wr f 0 i j

/-- Set bit `k` of a field, or clear it. -/
def State.wrBit (s : State) (f : Field) (k : Nat) (b : Bool) (i : Nat := 0) (j : Nat := 0) : State :=
  s.wr f (setBit (s.rd f i j) k b) i j

/-- Bit `k` of a field. -/
def State.rdBit (s : State) (f : Field) (k : Nat) (i : Nat := 0) (j : Nat := 0) : Bool := (s.rd f i j).testBit k

/-! ### Small shared steps -/

/-- The outcome of every meaning. -/
abbrev Outcome := Host.Outcome State Fault Refusal

/-- Draw the next free value (log entry 7, DESIGN CHOICE). -/
def State.draw (s : State) : Nat × State := (Config.draw s.free, { s with free := s.free + 1 })

/-- Drive something to the outside. -/
def State.emit (s : State) (o : Out) : State := { s with out := s.out ++ [o] }

/-- Shelf time now. -/
def State.st (s : State) : Nat := s.rd F.TIM_ST_ST

/-- Do something to the state for every element of a list, in order. -/
def State.forEach {α : Type} (s : State) (l : List α) (f : State → α → State) : State := l.foldl f s

/-- Do something only if a condition holds. -/
def State.when (s : State) (b : Bool) (f : State → State) : State := if b then f s else s

/-- The clocks of the controller die run and its logic is out of reset. -/
def State.clocked (s : State) : Bool := s.stage == .running || s.stage == .selfTest

/-- The meaning of a command to the controller die once a structure is applied: a die in reset or with its clocks
stopped takes no command (log entry 3, DESIGN CHOICE). -/
def onDie (s : State) (f : State → State) : Outcome := .next (if s.stage = .running then f s else s)

/-- The meaning of an event of the controller die that can also fall in the self-test (R399). -/
def onClock (s : State) (f : State → State) : Outcome := .next (if s.clocked then f s else s)

/-- The meaning of an event of the inlet die, or of the supplies. -/
def onInlet (s : State) (f : State → State) : Outcome := .next (f s)

end Sys2Proof.Machine
end

