-- ==== Sys2Proof/Machine/Ras.lean ====
section
/-!
DEFINITION. RAS records (R404 to R410), the bytes of a record, and the quantities of the running structure that many
operations need.
-/

namespace Sys2Proof.Machine

/-- The sections of the running structure. -/
def State.secs (s : State) : Sections := s.str.secs

/-- The shelf slot of the running structure (R26, Table 1-8). -/
def State.slot (s : State) : Nat := s.secs.slot

/-- Block numbers of RAS records: the order of the BAR0 block map (Table 18-3). -/
def rasGEN : Nat := 0
def rasSTR : Nat := 1
def rasTIM : Nat := 2
def rasPRT : Nat := 3
def rasCWK : Nat := 4
def rasNOC : Nat := 5
def rasHOM : Nat := 6
def rasMAP : Nat := 7
def rasKEY : Nat := 8
def rasDRC : Nat := 9
def rasGAL : Nat := 10
def rasCRQ : Nat := 11
def rasTST : Nat := 12
def rasCNT : Nat := 13
def rasPWR : Nat := 14
def rasSEC : Nat := 15
def rasFWC : Nat := 16
def rasRAS : Nat := 17

/-- A list with one more element at its end, the oldest dropped beyond `n`. -/
def pushRing {α : Type} (n : Nat) (l : List α) (x : α) : List α := (l ++ [x]).drop (l.length + 1 - n)

/-- The interrupt bit of a severity (R410). -/
def rasIrqField (sev : Nat) : Field :=
  match sev with
  | 0 => F.RAS_IRQ_CORRECTED
  | 1 => F.RAS_IRQ_CONTAINED
  | 2 => F.RAS_IRQ_DEGRADED
  | _ => F.RAS_IRQ_FATAL

/-- R404, R407, R410: write one record. -/
def State.record (s : State) (cls sev blk inst : Nat) (addr addr2 : Nat := 0) (detail : Nat := 0) : State :=
  let r : RasRec := ⟨s.st, s.rd F.RAS_STATUS_NEXT_SEQ, cls, sev, s.on F.TIM_STATUS_ST_UNSYNC, blk, inst,
    addr % 2 ^ 64, addr2 % 2 ^ 64, detail % 2 ^ 128, if s.str.applied then s.slot else 0xFF⟩
  let full := 1024 ≤ s.ras.length
  let s := { s with ras := pushRing 1024 s.ras r }
  let s := s.add F.RAS_STATUS_NEXT_SEQ 1
  let s := if full then s.bump F.RAS_STATUS_OVF else s.wr F.RAS_STATUS_COUNT s.ras.length
  let s := (s.set (rasIrqField sev)).bump F.RAS_CNT_COUNT 1 0 sev
  if 2 ≤ sev then
    ({ s with nvs := { s.nvs with ring := pushRing 64 s.nvs.ring r } }).set F.GEN_STATUS_FAULT
  else s

/-- Table 18-3: the 64 bytes of a record, read from the NVS copy or not. -/
def RasRec.bytes (r : RasRec) (fromNvs : Bool) : Bytes :=
  toLE 8 r.st ++ toLE 4 r.seq ++ toLE 1 r.cls ++ toLE 1 (r.sev + 128 * b2n r.unsync) ++ toLE 1 r.blk ++
  toLE 1 r.inst ++ toLE 8 r.addr ++ toLE 8 r.addr2 ++ toLE 16 r.detail ++ List.replicate 12 0 ++
  toLE 1 r.slot ++ toLE 1 (b2n fromNvs) ++ [0x20, 0x00]

/-- R406: the DETAIL field of a COH_PROTO record. -/
def cohDetail (agent side st opcode action : Nat) : Nat :=
  agent + 256 * side + 65536 * st + 16777216 * opcode + 4294967296 * action

/-- R410: ALERT_L is driven low. -/
def State.alert (s : State) : Bool :=
  s.on F.GEN_STATUS_FAULT ||
    (List.range 4).any (fun v => s.rd F.RAS_CTL_ALERT_MIN ≤ v && s.rdBit F.RAS_IRQ_EN v && s.on (rasIrqField v))

/-- R407: the records that RAS_READ returns from START. -/
def State.rasFrom (s : State) (start : Nat) : List RasRec :=
  if start.testBit 31 then s.nvs.ring
  else
    if s.ras.any (fun r => r.seq == start) then s.ras.dropWhile (fun r => r.seq != start)
    else if s.ras.all (fun r => start < r.seq) then s.ras else []

/-- R69, R410: the record that RAS_IDX selects: its SEQ in the log, or its place in the NVS ring, oldest first. -/
def State.rasSelected (s : State) : Bytes :=
  let i := s.rd F.RAS_IDX_SEQ
  if i.testBit 31 then
    match s.nvs.ring[i % 2 ^ 31]? with
    | some r => r.bytes true
    | none => []
  else
    match s.ras.find? (fun r => r.seq == i) with
    | some r => r.bytes false
    | none => []

end Sys2Proof.Machine
end

