-- ==== Sys2Proof/Machine/Access.lean ====
section
/-!
DEFINITION. Who is the security owner (R383), which BAR0 accesses are permitted (Table 17-5), violations (R386), and
the end of a debug session (R390) as far as an access can cause it.
-/

namespace Sys2Proof.Machine

/-- Lifecycle codes of Table 17-1. -/
def lcBlank : Nat := 0
def lcOwned : Nat := 1
def lcSealed : Nat := 2
def lcReturned : Nat := 3

/-- The lifecycle state is OWNED or SEALED. -/
def State.owned (s : State) : Bool := s.rd F.SEC_LC_STATE == lcOwned || s.rd F.SEC_LC_STATE == lcSealed

/-- Initiator numbers of Table 17-12. -/
def initNum : Initiator → Nat
  | .ld l => l.val
  | .cc => 64
  | .dbg => 65
  | .mctp => 66

/-- R383: the running firmware was accepted as KIND 1, or as KIND 0 with a valid owner COSIG. -/
def State.ccOwner (s : State) : Bool :=
  !s.owned || (!s.cc.header.isEmpty && (fwKind s.cc.header == 1 || fwCosigOk s.nvs.ownerKey s.cc.header))

/-- R383: the initiator is the security owner. -/
def State.isOwner (s : State) (who : Initiator) : Bool :=
  !s.owned || match who with
    | .ld l => s.rdBit F.SEC_BIND_LDS l.val
    | .cc => s.ccOwner
    | .dbg => false
    | .mctp => false

/-- R386: count a violation of an initiator; `off` is the BAR0 offset, zero for a mailbox or token event. -/
def State.violate (s : State) (who : Initiator) (off : Nat) (write : Bool) : State :=
  let s := s.bump F.SEC_VIOL_COUNT 1 0 (initNum who)
  let s := s.wr F.SEC_VIOL_LAST_WRITE (b2n write)
  let s := s.wr F.SEC_VIOL_LAST_INITIATOR (initNum who)
  (s.wr F.SEC_VIOL_LAST_OFFSET off).set F.SEC_IRQ_VIOL

/-- The block whose window holds a BAR0 offset (Table 20-1); `none` from 0x0220_0000 on. -/
def regionOf (off : Nat) : Option Blk :=
  if off < 0x100000 then some .gen else if off < 0x200000 then some .str
  else if off < 0x400000 then some .tim else if off < 0x600000 then some .prt
  else if off < 0x800000 then some .cwk else if off < 0xA00000 then some .noc
  else if off < 0xC00000 then some .hom else if off < 0xE00000 then some .map
  else if off < 0x1000000 then some .key else if off < 0x1400000 then some .drc
  else if off < 0x1800000 then some .gal else if off < 0x1C00000 then some .crq
  else if off < 0x1D00000 then some .tst else if off < 0x1E00000 then some .cnt
  else if off < 0x1F00000 then some .pwr else if off < 0x1F80000 then some .sec
  else if off < 0x2000000 then some .dbg else if off < 0x2100000 then some .fwc
  else if off < 0x2200000 then some .ras else none

/-- The LD that owns queue `q` (SEC_QOWN, R385); 0xFF none. -/
def State.queueOwner (s : State) (q : Nat) : Nat :=
  bits (s.rd F.SEC_QOWN_OWNER 0 (q / 8)) (8 * (q % 8) + 7) (8 * (q % 8))

/-- SEC_VIOLn or SEC_VIOL_LAST (R387). -/
def isViolReg (off : Nat) : Bool :=
  off / 8 == 0x1F00040 / 8 || (0x1F00100 ≤ off && off < 0x1F00100 + 67 * 8)

/-- Table 17-5, the column of an LD function that is not bound. -/
def State.ldMay (s : State) (l off : Nat) (write : Bool) : Bool :=
  match regionOf off with
  | some .gen => !write
  | some .prt =>
    let p := (off - 0x400000) / 0x10000
    let o := (off - 0x400000) % 0x10000
    match s.secs.ldEntry l with
    | none => false
    | some e =>
      e.port == p && (!write ||
        (0x100 ≤ o && o < 0x200 && o % 16 < 8 &&
          (((s.secs.portLds p)[(o - 0x100) / 16]?).map (·.ld)) == some l))
  | some .crq =>
    let q := (off - 0x1800000) / 0x1000
    let o := (off - 0x1800000) % 0x1000
    s.queueOwner q == l && !(write && (o / 8 == 0x158 / 8 || o / 8 == 0x160 / 8))
  | some .tst => !write && (off - 0x1C00000) / 0x40 == 0x1000 / 0x40 + l
  | _ => false

/-- Table 17-5, the column of the owner and the control complex. -/
def State.ownerMay (s : State) (who : Initiator) (off : Nat) : Bool := !isViolReg off || s.isOwner who

/-- The debug level whose rights the debug port has: TELEMETRY while a FIRMWARE session is PENDING (Table 17-8). -/
def State.dbgLevel (s : State) : Nat :=
  if s.on F.DBG_STATUS_PENDING then 1 else s.rd F.DBG_STATUS_LEVEL

/-- Table 17-5, the debug columns. -/
def State.dbgMay (s : State) (off : Nat) (write : Bool) : Bool :=
  let lvl := s.dbgLevel
  match regionOf off with
  | some .dbg => (lvl == 1 || lvl == 2) &&
      (!write || off / 8 == 0x1F80008 / 8 || off / 8 == 0x1F80040 / 8)
  | some .gen | some .tst | some .tim | some .cnt | some .pwr => !write && (lvl == 1 || lvl == 2)
  | some .crq => !write && lvl == 2 && (off % 0x1000) / 0x40 != 0x100 / 0x40
  | some .sec | some .key => false
  | some _ => !write && lvl == 2
  | none => false

/-- R385: the access is permitted. Reserved offsets beyond the last block are no block of Table 17-5; R3 alone governs
them, but that every access of the debug port is forbidden with no session open. -/
def State.may (s : State) (who : Initiator) (off : Nat) (write : Bool) : Bool :=
  match regionOf off with
  | none => who != .dbg || s.dbgLevel == 1 || s.dbgLevel == 2
  | some _ =>
    match who with
    | .dbg => s.dbgMay off write
    | .cc => s.ownerMay who off
    | .mctp => s.isOwner who && s.ownerMay who off
    | .ld l => if s.isOwner who then s.ownerMay who off else s.ldMay l.val off write

/-- The blocks of Table 20-1: SEC and DBG are one. -/
def blockOf (off : Nat) : Option Blk := if regionOf off = some .dbg then some .sec else regionOf off

/-- R432, R433: offsets of one block. -/
def sameBlock (a b : Nat) : Bool := blockOf a == blockOf b

/-- R432, R433: an access to a block drops the initiator's captures and staged halves of that block. -/
def State.dropHalves (s : State) (who : Initiator) (off : Nat) : State :=
  let keep := fun (x : Initiator × Nat × Nat) => !(x.1 == who && sameBlock x.2.1 off)
  { s with sec := { s.sec with captures := s.sec.captures.filter keep, staged := s.sec.staged.filter keep } }

/-- R390: a session ends: reason, interrupt and record. What follows the end (cores resuming, a WARM reset) is the
caller's. -/
def State.sessionEnded (s : State) (reason : Nat) : State :=
  let s := s.wr F.DBG_STATUS_END_REASON reason
  let s := (s.clear F.DBG_STATUS_LEVEL).clear F.DBG_STATUS_PENDING
  (s.set F.SEC_IRQ_DBG_END).record 0x51 0 rasSEC 0 reason

/-- R390, R6: a reason 5 is recorded at the first access after the reset, after what the access itself does. The session
that a reset ended is no longer open, so that DBG_STATUS.LEVEL stays as it is. -/
def State.firstAccess (s : State) (due : Bool) : State :=
  if due then ((s.wr F.DBG_STATUS_END_REASON 5).set F.SEC_IRQ_DBG_END).record 0x51 0 rasSEC 0 5 else s

/-- R385, R386: judge an access. The access is permitted, and the state after the judgement. -/
def State.access (s : State) (who : Initiator) (off : Nat) (write : Bool) : Bool × State :=
  if s.may who off write then (true, s) else (false, s.violate who off write)

/-- The first access after a reset that ended a debug session is under way. -/
def State.accessing (s : State) : State := { s with sec := { s.sec with endLater := false } }

/-- The meaning of a command that is a write of one register: nothing but the violation if it is forbidden; the staged
and captured halves of its block are dropped (R433). -/
def barWrite (s : State) (who : Initiator) (off : Nat) (f : State → State) : State :=
  let due := s.sec.endLater
  let (ok, s) := s.accessing.access who off true
  let s := s.dropHalves who off
  (if ok then f s else s).firstAccess due

/-- The meaning of a write of an RWS register: ignored unless the initiator is the security owner (R5, R383). -/
def rwsWrite (s : State) (who : Initiator) (off : Nat) (f : State → State) : State :=
  barWrite s who off (fun s => if s.isOwner who then f s else s)

end Sys2Proof.Machine
end

