-- ==== Sys2Proof/Machine/Rs.lean ====
section
/-!
DEFINITION. The memory code of R272 to R275: a shortened Reed–Solomon code over GF(2^8) of 85 symbols, 16 of them check
symbols and 5 of them the address. Symbols are numbers below 256; a polynomial is the list of its coefficients, lowest
first.
-/

namespace Sys2Proof.Machine

/-- Product in GF(2^8) modulo x^8 + x^4 + x^3 + x^2 + 1, over the `n` low bits of `b`. -/
def rsMulN : Nat → Nat → Nat → Nat
  | 0, _, _ => 0
  | n + 1, a, b =>
    (if b % 2 = 1 then a else 0) ^^^
      rsMulN n (if a < 128 then 2 * a else (2 * a) ^^^ 0x11D) (b / 2)

/-- Product of two symbols. -/
def rsMul (a b : Nat) : Nat := rsMulN 8 a b

/-- α^n. -/
def rsPow : Nat → Nat
  | 0 => 1
  | n + 1 => rsMul 2 (rsPow n)

/-- α^(n mod 255). -/
def rsAlpha (n : Nat) : Nat := rsPow (n % 255)

/-- Inverse of a symbol: the 254th power. -/
def rsInv (a : Nat) : Nat :=
  let a2 := rsMul a a
  let a4 := rsMul a2 a2
  let a8 := rsMul a4 a4
  let a16 := rsMul a8 a8
  let a32 := rsMul a16 a16
  let a64 := rsMul a32 a32
  rsMul (rsMul a64 a64) (rsMul a64 (rsMul a32 (rsMul a16 (rsMul a8 (rsMul a4 a2)))))

/-- Sum of two polynomials. -/
def polyAdd : List Nat → List Nat → List Nat
  | [], q => q
  | p, [] => p
  | a :: p, b :: q => (a ^^^ b) :: polyAdd p q

/-- A polynomial times a symbol. -/
def polyScale (c : Nat) (p : List Nat) : List Nat := p.map (rsMul c)

/-- Product of two polynomials. -/
def polyMul : List Nat → List Nat → List Nat
  | [], _ => []
  | a :: p, q => polyAdd (polyScale a q) (0 :: polyMul p q)

/-- Value of a polynomial at a point. -/
def polyEval (p : List Nat) (x : Nat) : Nat := p.foldr (fun c a => c ^^^ rsMul x a) 0

/-- The generator polynomial of R272. -/
def rsGen : List Nat := (List.range 16).foldl (fun g i => polyMul g [rsAlpha i, 1]) [1]

/-- One step of division by the generator: `reg` is the remainder so far, 16 symbols, lowest first. -/
def rsShift (gen reg : List Nat) (c : Nat) : List Nat :=
  let top := reg.getLastD 0
  polyAdd (c :: reg.dropLast) ((polyScale top gen).take 16)

/-- The five virtual symbols of an address value (R274). -/
def rsVirtual (a : Nat) : List Nat := (toLE 5 a).map BitVec.toNat

/-- R272: the check symbols of 64 data symbols under the address value `a`. -/
def rsCheck (data : List Nat) (a : Nat) : List Nat :=
  let g := rsGen
  let high := (data ++ rsVirtual a).reverse
  (high ++ List.replicate 16 0).foldl (rsShift g) (List.replicate 16 0)

/-- The 80 stored bytes of a line under the address value `a`: check symbols, then data. -/
def rsEncode (data : Bytes) (a : Nat) : Bytes :=
  (rsCheck (data.map BitVec.toNat) a).map (BitVec.ofNat 8) ++ data

/-- R275: the 16 syndromes of a received word of 85 symbols. -/
def rsSyndromes (r : List Nat) : List Nat := (List.range 16).map (fun i => polyEval r (rsAlpha i))

/-- Berlekamp–Massey over the syndromes from index `k` on, started from the erasure locator: (current locator, its
length, previous locator shifted). -/
def rsBm (s : List Nat) (rho : Nat) : Nat → Nat → List Nat × Nat × List Nat → List Nat × Nat × List Nat
  | 0, _, st => st
  | n + 1, k, (lam, len, b) =>
    let d := (lam.zipIdx.map (fun x => if x.2 ≤ k then rsMul x.1 (s.getD (k - x.2) 0) else 0)).foldl (· ^^^ ·) 0
    let b := 0 :: b
    if d = 0 then rsBm s rho n (k + 1) (lam, len, b)
    else
      let lam' := polyAdd lam (polyScale d b)
      if 2 * len ≤ k + rho then rsBm s rho n (k + 1) (lam', k + 1 + rho - len, polyScale (rsInv d) lam)
      else rsBm s rho n (k + 1) (lam', len, b)

/-- Formal derivative. -/
def polyDeriv (p : List Nat) : List Nat := (p.drop 1).zipIdx.map (fun x => if x.2 % 2 = 0 then x.1 else 0)

/-- The error pattern within the bound: `er` are the erased positions. (position, value) pairs, values not zero;
`none` if no pattern within the bound has these syndromes. -/
def rsErrors (r : List Nat) (er : List Nat) : Option (List (Nat × Nat)) :=
  let s := rsSyndromes r
  if s.all (· == 0) then some []
  else
    let rho := er.length
    let g := er.foldl (fun g p => polyMul g [1, rsAlpha p]) [1]
    let (lam, len, _) := rsBm s rho (16 - rho) rho (g, rho, g)
    let pos := (List.range 85).filter (fun p => polyEval lam (rsAlpha (255 - p)) == 0)
    if pos.length != len || 2 * (len - rho) + rho > 16 then none
    else
      let om := (polyMul s lam).take 16
      let dl := polyDeriv lam
      let e := pos.map (fun p =>
        let x := rsAlpha (255 - p)
        (p, rsMul (rsAlpha p) (rsMul (polyEval om x) (rsInv (polyEval dl x)))))
      let e := e.filter (·.2 != 0)
      let fix := r.zipIdx.map (fun x => x.1 ^^^ ((e.find? (·.1 == x.2)).map (·.2)).getD 0)
      if (rsSyndromes fix).all (· == 0) then some e else none

/-- The outcomes of R275. -/
inductive EccOutcome where
  | clean
  | corrected
  | uncorrectable
  | addressFault
  | poison
deriving DecidableEq, Repr

/-- What decoding one codeword gives: the outcome, the data after correction, A' of R275, and the devices that the
located physical symbols lie on. -/
structure EccResult where
  out   : EccOutcome
  data  : Bytes
  aSeen : Nat
  devs  : List Nat
deriving DecidableEq, Repr

/-- Table 11-1: the device of a physical position. -/
def eccDevice (x8 : Bool) (p : Nat) : Nat :=
  if x8 then (if p < 16 then 4 else (p - 16) / 16)
  else if p < 16 then 8 + p / 8 else (p - 16) / 8

/-- The place of a physical symbol on its device: its number among the device's (Table 11-1). -/
def eccPlace (x8 : Bool) (p : Nat) : Nat := (if p < 16 then p else p - 16) % (if x8 then 16 else 8)

/-- `n` lanes of a beat from lane `l` on. A burst is 16 beats of 5 bytes: DQ[31:0], then CB[7:0]. -/
def burstLanes (burst : Bytes) (beat l n : Nat) : Nat := byteAt burst (5 * beat + l / 8) / 2 ^ (l % 8) % 2 ^ n

/-- Table 11-1: the 80 physical symbols that a burst carries. An x8 symbol is 8 lanes of a beat; an x4 symbol is 4 lanes of two
beats. -/
def burstSymbols (x8 : Bool) (burst : Bytes) : Bytes :=
  (List.range 80).map (fun p =>
    let k := eccDevice x8 p
    let i := eccPlace x8 p
    BitVec.ofNat 8 (if x8 then burstLanes burst i (8 * k) 8
      else burstLanes burst (2 * i) (4 * k) 4 + 16 * burstLanes burst (2 * i + 1) (4 * k) 4))

/-- The positions of a device. -/
def eccPositions (x8 : Bool) (dev : Nat) : List Nat :=
  (List.range 80).filter (fun p => eccDevice x8 p == dev)

/-- R275, R277: decode 80 stored bytes read as the line of address value `a`, on an x8 or x4 rank with a device marked
or none. -/
def eccDecode (x8 : Bool) (mark : Option Nat) (a : Nat) (raw : Bytes) : EccResult :=
  let word := raw.map BitVec.toNat
  let r := word ++ rsVirtual a
  let er := match mark with | some d => eccPositions x8 d | none => []
  let data := raw.drop 16
  let poisoned := x8 && mark.isSome &&
    (List.range 64).all (fun d => some (eccDevice true (16 + d)) == mark || data.getD d 0 == 0x5A)
  if poisoned then ⟨.poison, data, a, []⟩
  else match rsErrors r er with
  | none => ⟨.uncorrectable, data, a, []⟩
  | some e =>
    let virt := e.filter (fun x => 80 ≤ x.1)
    let a' := virt.foldl (fun a x => a ^^^ (x.2 * 2 ^ (8 * (x.1 - 80)))) a
    let phys := e.filter (fun x => x.1 < 80)
    let devs := (phys.map (fun x => eccDevice x8 x.1)).eraseDups
    let fixed := raw.zipIdx.map (fun x => x.1 ^^^ BitVec.ofNat 8 (((e.find? (·.1 == x.2)).map (·.2)).getD 0))
    let out : EccOutcome :=
      if !virt.isEmpty then
        (if bits a' 39 38 == 3 && a' % 2 ^ 38 == a % 2 ^ 38 then .poison else .addressFault)
      else if !x8 && mark.isNone && 1 < devs.length then .uncorrectable
      else if e.isEmpty then .clean else .corrected
    ⟨out, fixed.drop 16, a', devs⟩

/-- R274: the address value of a line at its own location. -/
def ownAddr (cla : Nat) : Nat := cla % 2 ^ 38

/-- R277: the 80 bytes of a line written poisoned. -/
def poisonWord (cla : Nat) : Bytes := rsEncode (List.replicate 64 0x5A) (3 * 2 ^ 38 + cla % 2 ^ 38)

/-- R280: the 80 bytes of a line of zero data symbols. -/
def zeroWord (cla : Nat) : Bytes := rsEncode (List.replicate 64 0) (ownAddr cla)

end Sys2Proof.Machine
end

