-- ==== Sys2Proof/Machine/Count.lean ====
section
/-!
DEFINITION. The channel decode of a line address (R250), the counter units (R326 to R331), and the requests under way
with their marks and records (R332 to R334).
-/

namespace Sys2Proof.Machine

/-! ### R250 -/

/-- Table 10-2: rows of a bank. -/
def Chn.rows (c : Chn) : Nat := match c.dens with | 0 => 65536 | 1 => 98304 | 2 => 131072 | _ => 262144

/-- Where a line lies (Table 10-3): subchannel, device bank group, bank within the group, row, and chip ID. -/
structure Bank where
  sub  : Nat
  bg   : Nat
  bank : Nat
  row  : Nat
  chip : Nat
  /-- Column C[10:0], or C[9:0] for x8. -/
  col  : Nat
deriving DecidableEq, Repr

/-- R250: the decode of a rank-local line index. Column bits C[3:0] are zero. -/
def Chn.bank (c : Chn) (l : Nat) : Bank :=
  let x8 := c.width == 8
  let q := if x8 then l / 2 ^ 12 else l / 2 ^ 13
  let row := q % c.rows
  ⟨bits l 3 3, bits l 6 4 ^^^ (row % 8), if x8 then bits l 11 10 else bits l 12 11, row, q / c.rows,
   bits l 2 0 * 2 ^ 4 + (if x8 then bits l 9 7 else bits l 10 7) * 2 ^ 7⟩

/-- The bank queue of a line (R251): 128 × subchannel + 32 × rank + 4 × bank group + bank. -/
def Chn.queue (c : Chn) (cla : Nat) : Nat :=
  let b := c.bank (cla % 2 ^ 36)
  128 * b.sub + 32 * bits cla 37 36 + 4 * b.bg + b.bank

/-! ### Domain states of NOC_DOMd.STATUS -/

def domON : Nat := 0
def domDRAINING : Nat := 1
def domFENCED : Nat := 2
def domWAKING : Nat := 3

/-! ### Counter units -/

/-- Events of Table 14-2. -/
def evCclk : Nat := 0x000
def evServed : Nat := 0x040
def evSnoop : Nat := 0x041
def evCross : Nat := 0x042
def evRecall : Nat := 0x043
def evAlloc : Nat := 0x044
def evMapHit : Nat := 0x045
def evMapMiss : Nat := 0x046
def evPromo : Nat := 0x047
def evHeld : Nat := 0x048
def evRead : Nat := 0x080
def evWrite : Nat := 0x081
def evAct : Nat := 0x082
def evRef : Nat := 0x083
def evPanic : Nat := 0x084
def evCorr : Nat := 0x085
def evWake : Nat := 0x086
def evParked : Nat := 0x087
def evDec : Nat := 0x0C0
def evEnc : Nat := 0x0C1
def evGran : Nat := 0x0C2
def evJob : Nat := 0x0C3
def evGHit : Nat := 0x0C4
def evGMiss : Nat := 0x0C5
def evAccept : Nat := 0x100
def evDone : Nat := 0x101
def evBISnp : Nat := 0x102
def evReplay : Nat := 0x103
def evPacket : Nat := 0x104
def evInsn : Nat := 0x140
def evKclk : Nat := 0x141
def evDMiss : Nat := 0x142
def evP3 : Nat := 0x180
def evLate : Nat := 0x181
def evSunk : Nat := 0x1C0
def evRetry : Nat := 0x1C1
def evDetour : Nat := 0x1C2
def evFrame : Nat := 0x200
def evMark : Nat := 0x201
def evFire : Nat := 0x202
def evFloor : Nat := 0x240
def evDomWake : Nat := 0x241

/-- R326: the unit's block is fenced. -/
def State.unitFenced (s : State) (u : Nat) : Bool :=
  let d := if u < 16 then u else if u < 32 then u - 16 else if u < 48 then u - 16 else if u < 56 then u - 16 else 40
  d < 40 && s.rd F.NOC_DOM_STATUS_STATE 0 d == domFENCED

/-- R328: what an event shows to the qualifier: agent or master, TIER and class, as far as its row of Table 14-2 names
them. -/
structure Qual where
  agent : Option Nat := none
  tier  : Option Nat := none
  cls   : Option Nat := none
deriving DecidableEq, Repr

/-- R328: the qualifier of a counter admits an event. -/
def qualOk (q : Nat) (x : Qual) : Bool :=
  (match x.agent with | none => true | some a => !q.testBit 7 || q % 128 == a) &&
  (match x.tier with | none => true | some t => bits q 11 8 == 0 || q.testBit (8 + t)) &&
  (match x.cls with | none => true | some c => bits q 15 12 == 0 || q.testBit (12 + c))

/-! ### Requests under way -/

/-- R320, R323: T of a master, in CCLKs. -/
def State.latT (s : State) (m : Nat) : Nat := 2 * (smGet {} s.tst.force m).lat

/-- A request under way. -/
def State.txnOf (s : State) (id : Nat) : Option Txn := s.txn.reqs.find? (·.id == id)

/-- Change a request under way. -/
def State.onTxn (s : State) (id : Option Nat) (f : Txn → Txn) : State :=
  match id with
  | none => s
  | some i => { s with txn := { s.txn with reqs := s.txn.reqs.map (fun t => if t.id == i then f t else t) } }

/-- The request under way that a source, tag, member and line name. -/
def State.txnFind (s : State) (agent tag slot line : Nat) : Option Nat :=
  (s.txn.reqs.find? (fun t => t.agent == agent && t.tag == tag && t.slot == slot && t.line == line)).map (·.id)

/-- R392: H for one kind of address. -/
def hashAddr (kt kind page : Nat) : Nat := leNat ((cmac (toLE 32 kt) (toLE 1 kind ++ toLE 8 page)).take 8)

/-- R392: a record with HPA and DLA in hashed form. -/
def hashRecord (kt : Nat) (r : Bytes) : Bytes :=
  let hpa := le r 16 8
  let dla := le r 24 6
  let hpa := hashAddr kt 1 (hpa / 4096) / 4096 * 4096 + hpa % 4096
  let dla := bits (hashAddr kt 2 (bits dla 45 12)) 45 12 * 4096 + dla % 4096
  r.take 16 ++ toLE 8 hpa ++ toLE 6 dla ++ r.drop 30

/-- R334: the six stages of a request that took `n` CCLKs, in the order QUEUE, MAP, WAKE, DRAM, DECOMP, CRYPTO: which
stage held it when is timing that the model leaves out, so they are free values that add up to `n` (log entry 7, DESIGN CHOICE). -/
def State.stages (s : State) (n : Nat) : List Nat × State :=
  let (l, left, s) := (List.range 5).foldl (fun (a : List Nat × Nat × State) _ =>
    let (v, s) := a.2.2.draw
    let v := v % (a.2.1 + 1)
    (a.1 ++ [v], a.2.1 - v, s)) ([], n, s)
  (left :: l, s)

/-- R333: the record of a request that has ended, SEQ and LOST left zero. -/
def State.txnRecord (s : State) (t : Txn) (poison complete : Bool) (m : Nat × Nat × Nat) : Bytes × State :=
  let (st, s) := s.stages (s.time.cclk - t.cclk)
  let flags := t.tier + 4 * b2n t.twin + 8 * b2n (!t.dram) + 16 * b2n poison + 32 * b2n t.promo + 64 * b2n t.multi +
    128 * b2n (!complete)
  let (c, cla) := t.place.getD (0, 0)
  let b := (s.secs.chn c).bank (cla % 2 ^ 36)
  let line := t.line
  let home := (bits line 3 0) ^^^ (bits line 7 4) ^^^ (bits line 11 8) ^^^ (bits line 15 12)
  let used := t.dram && t.place.isSome
  let place := if used then toLE 1 (home + 16 * c) ++ toLE 1 (bits cla 37 36 + 4 * b.sub + 8 * b.bg + 64 * b.bank)
    else [0, 0]
  (toLE 8 t.st ++ toLE 8 (if complete then s.st else 0) ++ toLE 8 t.hpa ++ toLE 6 (t.line * 64) ++ toLE 1 t.opc ++
    toLE 1 t.master ++ toLE 1 flags ++ place ++ toLE 1 t.prio ++ st.flatMap (fun x => toLE 2 (min x 0xFFFF)) ++
    toLE 4 0 ++ toLE 1 m.1 ++ toLE 1 m.2.1 ++ toLE 2 m.2.2 ++ toLE 4 0 ++ toLE 1 s.slot ++ [0, 0x01, 0], s)

/-- SMP_STAT.BUFFERED and SMP_CTL.BUSY. -/
def State.showSmp (s : State) : State :=
  (s.wr F.SMP_STAT_BUFFERED s.smp.buf.length).wr F.SMP_CTL_BUSY (b2n (!s.smp.inAir.isEmpty))

/-- R337: a record is lost. -/
def State.loseRecord (s : State) : State :=
  { s with smp := { s.smp with lost := satAdd 32 s.smp.lost 1 } }.bump F.SMP_STAT_LOST

/-- R336, R337: a record enters the sample buffer, or is lost. -/
def State.bufferRecord (s : State) (r : Bytes) : State :=
  if 256 ≤ s.smp.buf.length then s.loseRecord
  else
    let r := r.take 48 ++ toLE 4 s.smp.seq ++ r.drop 52
    { s with smp := { s.smp with buf := s.smp.buf ++ [(s.smp.seq, r)], seq := (s.smp.seq + 1) % 2 ^ 32 } }.showSmp

/-- R331, R332: an event marks its request. An event of a request that the model does not follow (a write-back of its
own, a packet) is written as the record of a request that ends at once. -/
def State.markTxn (s : State) (id : Option Nat) (m : Nat × Nat × Nat) (q : Qual) : State :=
  match id.bind s.txnOf with
  | some t => s.onTxn (some t.id) (fun t =>
      if t.mark.isSome then { t with multi := true } else { t with mark := some m })
  | none =>
    let t : Txn := ⟨0, 0, 0, 0, 0, 0, 0, q.agent.getD 80, 3, s.st, s.time.cclk, q.tier.getD 0, false, false, false, 0,
      none, none, false, false⟩
    let (r, s) := s.txnRecord t false true m
    s.bufferRecord r

/-! ### Instructions -/

/-- An instruction word of RV64GC reads, and writes, memory: the loads, stores and atomics of its 32-bit forms, and the loads and
stores of its compressed forms (log entry 134, PRESUMED: the encodings of the RISC-V specification). -/
def insnLoads (w : Nat) : Bool :=
  if w % 4 = 3 then w % 128 == 0x03 || w % 128 == 0x07 || (w % 128 == 0x2F && bits w 31 27 != 3)
  else w % 4 != 1 && 1 ≤ bits w 15 13 && bits w 15 13 ≤ 3

def insnStores (w : Nat) : Bool :=
  if w % 4 = 3 then w % 128 == 0x23 || w % 128 == 0x27 || (w % 128 == 0x2F && bits w 31 27 != 2)
  else w % 4 != 1 && 5 ≤ bits w 15 13

/-- R335: the record of a retired instruction, SEQ and LOST left zero. Which instruction it was is firmware's: its address, its
word, its data address, its privilege and its KCLKs are free values. -/
def State.insnRecord (s : State) (core : Nat) (m : Nat × Nat × Nat) : Bytes × State :=
  let (pc, s) := s.draw
  let (w, s) := s.draw
  let (addr, s) := s.draw
  let (x, s) := s.draw
  let w := if w % 4 = 3 then w % 2 ^ 32 else w % 2 ^ 16
  let ld := insnLoads w
  let st := insnStores w
  let priv := match x % 3 with | 0 => 0 | 1 => 1 | _ => 3
  (toLE 8 s.st ++ toLE 8 pc ++ toLE 8 (if ld || st then addr else 0) ++ toLE 4 w ++ toLE 1 (core + 4 * priv) ++
    toLE 1 (b2n ld + 2 * b2n st) ++ toLE 2 (min (x / 3) 0xFFFF) ++ List.replicate 16 0 ++
    toLE 4 0 ++ toLE 1 m.1 ++ toLE 1 m.2.1 ++ toLE 2 m.2.2 ++ toLE 4 0 ++ toLE 1 s.slot ++ [0, 0x02, 0], s)

/-- R331, R335: an event marks a retired instruction, which leaves its record. -/
def State.markInsn (s : State) (core : Nat) (m : Nat × Nat × Nat) : State :=
  let (r, s) := s.insnRecord core m
  s.bufferRecord r

/-! ### Counting -/

/-- R331: the event that carries counter `k` of unit `u` past its end is marked: an instruction of a core, or a transaction. -/
def State.markEvent (s : State) (u k : Nat) (id : Option Nat) (q : Qual) : State :=
  let code := s.rd F.CNT_SEL_EVENT u k
  if code = evInsn || code = evDMiss then s.markInsn (u - 56) (u, k, code) else s.markTxn id (u, k, code) q

/-- R329, R331: counter `k` of unit `u` counts `n` events. -/
def State.countN (s : State) (u k n : Nat) (id : Option Nat) (q : Qual) : State :=
  let v := s.rd F.CNT_CTR_COUNT u k + n
  if v < 2 ^ 48 then s.wr F.CNT_CTR_COUNT v u k
  else
    let smp := s.on F.CNT_SEL_SAMPLE u k
    let load := if smp then 2 ^ 48 - s.rd F.CNT_PER_PERIOD u k else 0
    let s := s.wr F.CNT_CTR_COUNT (load + (v - 2 ^ 48)) u k
    let s := (s.wrBit F.CNT_OVF_OVF k true u).wrBit F.CNT_OVF_SUM_UNITS u true
    let s := s.when (s.on F.CNT_SEL_IRQ_EN u k) (fun s => s.set F.CNT_IRQ_OVF)
    s.when smp (fun s => s.markEvent u k id q)

/-- R327, R328: `n` events of a code occur in a unit's block. -/
def State.counts (s : State) (u code : Nat) (q : Qual := {}) (id : Option Nat := none) (n : Nat := 1) : State :=
  if n = 0 || s.on F.CNT_CTL_FREEZE || s.unitFenced u || !evListed u code then s
  else s.forEach (List.range 8) (fun s k =>
    if s.on F.CNT_SEL_EN u k && s.rd F.CNT_SEL_EVENT u k == code && qualOk (s.rd F.CNT_SEL_QUAL u k) q then
      s.countN u k n id q
    else s)

/-! ### The course of a request -/

/-- R328: the class of a coherent request. -/
def reqClass (agent opc : Nat) : Nat :=
  if 64 ≤ agent && agent < 81 then 3
  else if opc = 0x04 then 1 else if opc = 0x01 || opc = 0x02 || opc = 0x06 then 0 else 2

/-- A request begins. One that is already followed (sent again) goes on. -/
def State.txnBegin (s : State) (t : Txn) : State :=
  if (s.txnFind t.agent t.tag t.slot t.line).isSome then s
  else { s with txn := { s.txn with reqs := s.txn.reqs ++ [{ t with id := s.txn.seq, st := s.st, cclk := s.time.cclk }],
                                    seq := s.txn.seq + 1 } }

/-- R323: a request that completes at an age of T or more counts a latency miss of its master. -/
def State.latency (s : State) (t : Txn) : State :=
  let lim := s.latT t.master
  if 0 < lim && lim ≤ s.time.cclk - t.cclk && t.master < 96 then
    { s with tst := { s.tst with miss := smSet 0 s.tst.miss t.master (smGet 0 s.tst.miss t.master + 1) } }.counts 60 evLate
      { agent := some t.master } (some t.id)
  else s

/-- R332: a marked request that has ended leaves its record. -/
def State.txnMarked (s : State) (id : Nat) (poison complete : Bool) : State :=
  match s.txnOf id with
  | none => s
  | some t =>
    let s := { s with txn := { s.txn with reqs := s.txn.reqs.filter (·.id != id) } }
    match t.mark with
    | none => s
    | some m => let (r, s) := s.txnRecord t poison complete m; s.bufferRecord r

/-- R323, R332: a request ends, complete or not. -/
def State.txnEnd (s : State) (id : Option Nat) (poison complete : Bool) : State :=
  match id.bind s.txnOf with
  | none => s
  | some t =>
    let ok := complete && !t.gone
    (s.when ok (fun s => s.latency t)).txnMarked t.id poison ok

/-- Do something in the course of a request: the accesses it posts are the request's. -/
def State.during (s : State) (id : Option Nat) (f : State → State) : State :=
  let s := f { s with txn := { s.txn with cur := id } }
  { s with txn := { s.txn with cur := none } }

end Sys2Proof.Machine
end

