-- ==== Sys2Proof/Machine/Dram.lean ====
section
/-!
DEFINITION. DRAM as storage: where a media address lies (R80, R249), which line and address value an access uses
(R274, R284), reading and writing stored lines, and what the outcome of a read does (R276, R277, R279, R283). Accesses
are also put before their channel, where the Turnstile admits and charges them (R314).
-/

namespace Sys2Proof.Machine

/-- A channel's state beside its registers. -/
def State.chan (s : State) (c : Nat) : ChanSt := smGet {} s.dram c

/-- Set a channel's state. -/
def State.setChan (s : State) (c : Nat) (x : ChanSt) : State := { s with dram := smSet {} s.dram c x }

/-- Change a channel's state. -/
def State.onChan (s : State) (c : Nat) (f : ChanSt → ChanSt) : State := s.setChan c (f (s.chan c))

/-! ### Addresses -/

/-- R80: the rank group that holds a media address. -/
def State.groupOf (s : State) (ma : Nat) : Option Group :=
  s.map.groups.find? (fun g => g.base * 2097152 ≤ ma && ma < (g.base + g.chunks) * 2097152)

/-- R249: channel and CLA of a media address. -/
def State.place (s : State) (ma : Nat) : Option (Nat × Nat) :=
  match s.groupOf ma with
  | none => none
  | some g =>
    let o := ma - g.base * 2097152
    let gran := s.secs.gran
    let u := o / gran
    let n := g.chans.length
    let r := u / n * gran + o % gran
    some (g.chans.getD (u % n) 0, g.r * 2 ^ 36 + r / 64)

/-- The rank of a CLA (R249). -/
def claRank (cla : Nat) : Nat := bits cla 37 36

/-- The media address of a line of a channel, if the layout uses it. -/
def State.maOf (s : State) (c cla : Nat) : Option Nat :=
  match s.map.groups.find? (fun g => g.r == claRank cla && g.chans.contains c) with
  | none => none
  | some g =>
    let r := cla % 2 ^ 36 * 64
    let gran := s.secs.gran
    let i := g.chans.findIdx (· == c)
    if r < g.size then
      some (g.base * 2097152 + (r / gran * g.chans.length + i) * gran + r % gran)
    else none

/-- R284: CLA of the first line of the channel's spare region: the top 2 MiB of its highest-numbered awake rank. -/
def State.spareBase (s : State) (c : Nat) : Option Nat :=
  if (s.secs.chn c).spare then
    match spareRank s.map.groups c with
    | none => none
    | some r =>
      match s.map.groups.find? (fun g => g.r == r && g.chans.contains c) with
      | none => none
      | some g => some (r * 2 ^ 36 + g.size / 64 - 32768)
  else none

/-- The ACTIVE remap entry of an original line (R284). -/
def State.remapOf (s : State) (c cla : Nat) : Option Nat :=
  (List.range 16).find? (fun k => s.rd F.DRC_REMAP_0_STATE c k == 2 && s.rd F.DRC_REMAP_0_ORIG_CLA c k == cla)

/-- R274, R284: the line that an access to `cla` really uses, and its address value A. -/
def State.target (s : State) (c cla : Nat) : Nat × Nat :=
  match s.remapOf c cla with
  | none => (cla, ownAddr cla)
  | some k => ((s.spareBase c).getD 0 + s.rd F.DRC_REMAP_1_SPARE c k,
      s.rd F.DRC_REMAP_0_GEN c k * 2 ^ 38 + cla)

/-! ### Stored bytes -/

/-- Key of symbol `p` of a stored line. -/
def memKey (c cla p : Nat) : Nat := (c * 2 ^ 38 + cla) * 128 + p

/-- What an unlisted byte of DRAM reads as: the byte of a line of zero data (R280; log entry 8, DESIGN CHOICE). -/
def memDefault (key : Nat) : Byte := (zeroWord (key / 128 % 2 ^ 38)).getD (key % 128) 0

/-- The 80 stored bytes of a line. -/
def State.rawLine (s : State) (c cla : Nat) : Bytes :=
  let z := zeroWord cla
  (List.range 80).map (fun p => smGet (z.getD p 0) s.mem (memKey c cla p))

/-- Store 80 bytes as a line. -/
def State.setRawLine (s : State) (c cla : Nat) (w : Bytes) : State :=
  let put := fun m (x : Byte × Nat) => smSet (memDefault (memKey c cla x.2)) m (memKey c cla x.2) x.1
  { s with mem := (w.take 80).zipIdx.foldl put s.mem }

/-- The canonical form of DRAM: keys strictly rise, no entry equals what an unlisted byte reads as, and every key names
a stored symbol. -/
def Memory.wf (m : List Host.Cell) : Bool :=
  smSorted m && m.all (fun x => x.2 != memDefault x.1 && x.1 % 128 < 80)

/-! ### Ranks -/

/-- The rank is x8. -/
def State.x8 (s : State) (c : Nat) : Bool := s.on F.DRC_CFG_WIDTH8 c

/-- The marked device of a rank (R278). -/
def State.markOf (s : State) (c r : Nat) : Option Nat :=
  let d := s.rd F.DRC_ECC_RANK_MARK_MARK_DEV c r
  if d = 0xF then none else some d

/-- The rank is present and not OFFLINE (R269). -/
def State.rankUp (s : State) (c r : Nat) : Bool :=
  let st := s.rd F.DRC_RANK_STATUS_STATE c r
  st != 0 && st != 7

/-- Rank states of Table 10-9. -/
def rankABSENT : Nat := 0
def rankACTIVE : Nat := 1
def rankPOWERDOWN : Nat := 2
def rankPARKING : Nat := 3
def rankPARKED : Nat := 4
def rankWAKING : Nat := 5
def rankCHECKING : Nat := 6
def rankOFFLINE : Nat := 7

/-- The tREFI of a rank is halved (R263, R265). -/
def State.halved (s : State) (c r : Nat) : Bool :=
  s.on F.DRC_REF_SCALE c || (s.chan c).mr4.contains r || s.on F.DRC_RANK_STATUS_HOT c r

/-- Table 10-7: DRC_REF.TREFI. -/
def State.showRef (s : State) (c : Nat) : State :=
  let any := (List.range 4).any (fun r => s.rankUp c r && s.halved c r)
  s.wr F.DRC_REF_TREFI (if any then 7800 else 15600) c

/-- R260: a wake of a PARKED rank begins. -/
def State.wakeRank (s : State) (c r : Nat) : State :=
  if s.rd F.DRC_RANK_STATUS_STATE c r = rankPARKED then
    ((s.wr F.DRC_RANK_STATUS_STATE rankWAKING c r).bump F.DRC_RANK_CNT_WAKES 1 c r).counts (16 + c) evWake
  else s

/-- R259: a rank in PARKING stays ACTIVE; once its self-refresh entry has been issued it is PARKED, to be woken. -/
def State.unpark (s : State) (c r : Nat) : State :=
  if s.rd F.DRC_RANK_STATUS_STATE c r != rankPARKING then s
  else if (s.chan c).entered.contains r then
    (s.onChan c (fun x => { x with entered := x.entered.filter (· != r) })).wr F.DRC_RANK_STATUS_STATE rankPARKED c r
  else s.wr F.DRC_RANK_STATUS_STATE rankACTIVE c r

/-- R259, R260: something keeps a rank awake: its parking is cancelled, or it is woken. -/
def State.rouse (s : State) (c r : Nat) : State := (s.unpark c r).wakeRank c r

/-- A request for a rank: it cancels a parking that has not reached self-refresh (R259), wakes a parked rank (R94), and
takes the rank out of the self-refresh of Floor 4 (R345). -/
def State.touchRank (s : State) (c r : Nat) : State :=
  ({ s with pwr := { s.pwr with selfRef := s.pwr.selfRef.filter (· != 4 * c + r) } }).rouse c r

/-- Accesses that a channel has admitted and not issued. -/
def ChanSt.queued (x : ChanSt) : List LineAcc := x.inq ++ x.bq

/-- R255: lines that port `k` of a channel waits for: lines in its write buffer, or read lines it awaits. -/
def ChanSt.level (x : ChanSt) (k : Nat) : Nat :=
  let mine := fun (a : LineAcc) => a.rt == some k
  let q := (x.wait ++ x.queued).filter mine
  max (q.filter (·.write)).length ((q.filter (fun a => !a.write)).length + (x.issued.filter mine).length)

/-- R256: the event of a port follows its level. -/
def Panic.follow (p : Panic) (level release panic : Nat) : Panic :=
  if level < release then { open_ := false, spent := false }
  else if panic ≤ level && !p.open_ && !p.spent then { open_ := true, spent := true }
  else p

/-- R255, R256: LEVEL, URG and the PANIC events of a channel's ports. -/
def State.showRt (s : State) (c : Nat) : State :=
  let x := s.chan c
  let f := fun (k : Nat) (p : Panic) => p.follow (x.level k) (s.rd F.DRC_RT_RELEASE_LVL c k) (s.rd F.DRC_RT_PANIC_LVL c k)
  let p0 := f 0 x.panic0
  let p1 := f 1 x.panic1
  let new := b2n (p0.open_ && !x.panic0.open_) + b2n (p1.open_ && !x.panic1.open_)
  let s := s.setChan c { x with panic0 := p0, panic1 := p1 }
  let s := s.forEach [0, 1] (fun s k =>
    let l := x.level k
    let u := if s.rd F.DRC_RT_PANIC_LVL c k ≤ l then 3 else if s.rd F.DRC_RT_U2 c k ≤ l then 2
      else if s.rd F.DRC_RT_U1 c k ≤ l then 1 else 0
    (s.wr F.DRC_RT_LEVEL l c k).wr F.DRC_RT_URG u c k)
  (s.bump F.DRC_STAT_COUNT new c 5).wr F.DRC_STATUS_PANIC (b2n (p0.open_ || p1.open_)) c

/-- Put an access before its channel (R314): it waits there for admission. A rank that is absent or offline takes none
(R269). -/
def State.postLine (s : State) (c cla : Nat) (write : Bool) (master : Nat) (rt : Option Nat := none) : State :=
  if !s.rankUp c (claRank cla) then s
  else
    let s := s.onTxn s.txn.cur (fun t => { t with dram := true })
    let a : LineAcc := { cla := cla, write := write, master := master, at_ := s.time.cclk, prio := 0, rt := rt, txn := s.txn.cur }
    let s := s.onChan c (fun x => { x with wait := x.wait ++ [a] })
    (if rt.isSome then s.showRt c else s).touchRank c (claRank cla)

/-- Put the access of a media address before its channel. -/
def State.postMa (s : State) (ma : Nat) (write : Bool) (master : Nat) : State :=
  match s.place ma with
  | none => s
  | some (c, cla) => s.postLine c cla write master

/-! ### Reading and writing lines -/

/-- R277: store a line poisoned. -/
def State.poisonLine (s : State) (c cla : Nat) : State :=
  let (t, _) := s.target c cla
  let w := if t = cla then poisonWord cla
    else rsEncode (List.replicate 64 0x5A) (3 * 2 ^ 38 + cla)
  (s.setRawLine c t w).bump F.DRC_ECC_ERR2_POISON_WR 1 c

/-- R272: store 64 bytes as a line. -/
def State.storeLine (s : State) (c cla : Nat) (data : Bytes) : State :=
  let (t, a) := s.target c cla
  s.setRawLine c t (rsEncode data a)

/-- The causes of R68: 0 none, 1 uncorrectable, 2 address fault, 3 capacity fault, 4 poisoned. -/
abbrev Cause := Nat

/-- R279: count a correction on the devices it lies on, with the threshold and the mark it may set. The DRAM Event
records of the threshold are the caller's (`thr` comes back true). -/
def State.countCe (s : State) (c r : Nat) (devs : List Nat) : State × Bool :=
  devs.foldl (fun (s, thr) d =>
    let cnt := bits (s.rd F.DRC_ECC_RANK_DEVCE_DEVCE c r) (6 * d + 5) (6 * d)
    let n := satAdd 6 cnt 1
    let s := s.wr F.DRC_ECC_RANK_DEVCE_DEVCE (setBits (s.rd F.DRC_ECC_RANK_DEVCE_DEVCE c r) (6 * d + 5) (6 * d) n) c r
    if n = s.rd F.DRC_ECC_RANK_THR_DEV_THR c r ∧ cnt < n then
      let s := s.set F.DRC_ECC_IRQ_CE_THR c
      if s.on F.DRC_ECC_RANK_MARK_AUTO_MARK c r && (s.markOf c r).isNone then
        (((s.wr F.DRC_ECC_RANK_MARK_MARK_DEV d c r).set F.DRC_ECC_IRQ_MARK c).record 0x06 2 rasDRC c r d, true)
      else (s, true)
    else (s, thr)) (s, false)

/-- R276: the access ends with a failing outcome after its retry: counts, last-failure registers, RAS record, and the
line written poisoned. `scrub`: the scrubber reads. -/
def State.eccFail (s : State) (c cla : Nat) (r : EccResult) (scrub : Bool) : State :=
  let af := r.out == .addressFault
  let s := if af then (s.bump F.DRC_ECC_ERR_AF 1 c).set F.DRC_ECC_IRQ_AF c
    else (s.bump F.DRC_ECC_ERR_UE 1 c).set F.DRC_ECC_IRQ_UE c
  let s := s.wr F.DRC_ECC_LAST_SRC (b2n scrub) c
  let s := s.wr F.DRC_ECC_LAST_OUTCOME (if af then 3 else 2) c
  let s := s.wr F.DRC_ECC_LAST_CLA cla c
  let s := if af then s.wr F.DRC_ECC_LAST_AF_A_STORED r.aSeen c else s
  let s := if af then s.record 0x02 1 rasDRC c cla r.aSeen
    else s.record 0x01 1 rasDRC c cla ((s.maOf c cla).getD 0)
  s.poisonLine c cla

/-- Decode what a read of a line returned (R275), on the channel's rank. -/
def State.decodeRaw (s : State) (c cla : Nat) (raw : Bytes) : EccResult :=
  eccDecode (s.x8 c) (s.markOf c (claRank cla)) (s.target c cla).2 raw

/-- R275, R276, R283: a read returns `raw`, and `again` if it is retried. The state after the counts, the rewrite of a
corrected line and the poisoning of a failed one; what the reader gets; and whether a DEV_THR was reached. -/
def State.takeRead (s : State) (c cla : Nat) (raw again : Bytes) (scrub : Bool) :
    EccResult × State × Bool :=
  let r1 := s.decodeRaw c cla raw
  let failed := fun (r : EccResult) => r.out == .uncorrectable || r.out == .addressFault
  let r := if failed r1 then s.decodeRaw c cla again else r1
  let s := if failed r1 && (r.out == .clean || r.out == .corrected) then s.bump F.DRC_ECC_ERR2_RETRY_OK 1 c else s
  if failed r then (r, s.eccFail c cla r scrub, false)
  else if r.out = .corrected then
    let (s, thr) := ((s.bump F.DRC_ECC_ERR_CE 1 c).counts (16 + c) evCorr).countCe c (claRank cla) r.devs
    let s := if scrub || s.on F.DRC_ECC_CTL_DEMAND_FIX c then s.storeLine c cla r.data else s
    (r, s, thr)
  else (r, s, false)

/-- What a stored line holds for a reader: its 64 bytes and the cause of R68 (0: good data). A line of a rank that is
lost reads as uncorrectable (R269). -/
def State.peekLine (s : State) (c cla : Nat) : Bytes × Cause :=
  if !s.rankUp c (claRank cla) then (List.replicate 64 0, 1)
  else
    let r := s.decodeRaw c cla (s.rawLine c (s.target c cla).1)
    match smGet 0 s.causes (c * 2 ^ 38 + cla) with
    | 0 =>
      match r.out with
      | .clean => (r.data, 0)
      | .corrected => (r.data, 0)
      | .poison => (r.data, 4)
      | .addressFault => (r.data, 2)
      | .uncorrectable => (r.data, 1)
    | k => (r.data, k)

/-- The stored line at a media address. -/
def State.peekMa (s : State) (ma : Nat) : Bytes × Cause :=
  match s.place ma with
  | none => (List.replicate 64 0, 1)
  | some (c, cla) => s.peekLine c cla

/-- The failing cause of a line at a media address has been reported to its reader (R276). -/
def State.spendCause (s : State) (ma : Nat) : State :=
  match s.place ma with
  | none => s
  | some (c, cla) => { s with causes := smErase s.causes (c * 2 ^ 38 + cla) }

/-- Store a line at a media address, poisoned or not. A line of a lost rank is not stored. -/
def State.putMa (s : State) (ma : Nat) (data : Bytes) (poison : Bool) : State :=
  match s.place ma with
  | none => s
  | some (c, cla) =>
    let s := { s with causes := smErase s.causes (c * 2 ^ 38 + cla) }
    if !s.rankUp c (claRank cla) then s
    else if poison then s.poisonLine c cla else s.storeLine c cla data

/-- R280: every line of a chunk holds zero data: its bytes are no longer listed. The writes are the scrubbers' (log entry 125,
DESIGN CHOICE). -/
def State.zeroChunk (s : State) (chunk : Nat) : State :=
  let out := fun (x : Host.Cell) =>
    match s.maOf (x.1 / 128 / 2 ^ 38) (x.1 / 128 % 2 ^ 38) with
    | some ma => ma / 2097152 != chunk
    | none => true
  let s := { s with mem := s.mem.filter out }
  (s.add F.TST_M_LIVE_SERVED 32768 0 89).add F.TST_M_TOTAL_TOTAL 32768 0 89

end Sys2Proof.Machine
end

