-- ==== Sys2Proof/Machine/Keys.lean ====
section
/-!
DEFINITION. Key slots and the region table (R134 to R146): which slot a page takes, the key and generation an access
uses, and the tweaks of Hall lines and compressed blocks.
-/

namespace Sys2Proof.Machine

/-- A key slot's material. -/
def State.keySlot (s : State) (n : Nat) : KeySlot := smGet {} s.keys n

/-- Set a key slot's material. -/
def State.setKeySlot (s : State) (n : Nat) (x : KeySlot) : State := { s with keys := smSet {} s.keys n x }

/-- R140, R151: an access can fetch the slot's material. -/
def State.keyUp (s : State) (n : Nat) : Bool :=
  s.rd F.KEY_SLOT_STATE_STATE 0 n != 0 && !(s.keySlot n).erasing

/-- R142: the key and generation for page (or twin entry) `idx` under slot `n`. -/
def State.keyFor (s : State) (n idx : Nat) (twin : Bool) : KeyMat × Nat :=
  let g := s.rd F.KEY_SLOT_STATE_GEN 0 n
  let cursor := if twin then s.rd F.KEY_SLOT_TCURSOR_TCURSOR 0 n else s.rd F.KEY_SLOT_PCURSOR_PCURSOR 0 n
  if s.rd F.KEY_SLOT_STATE_STATE 0 n = 2 ∧ cursor ≤ idx then ((s.keySlot n).prev, (g + 255) % 256)
  else ((s.keySlot n).cur, g)

/-- R137: the valid region entry that covers a page. -/
def State.region (s : State) (p : Nat) : Option Nat :=
  (List.range 1024).find? (fun n =>
    s.on F.KEY_REG_CFG_VALID 0 n && s.rd F.KEY_REG_BASE_BASE 0 n ≤ p && p < s.rd F.KEY_REG_LIMIT_LIMIT 0 n)

/-- R137: the slot, CONCEAL and INTEG of a page. -/
def State.regionSlot (s : State) (p : Nat) : Nat :=
  (s.region p).elim 0 (fun n => s.rd F.KEY_REG_CFG_SLOT 0 n)

def State.conceal (s : State) (p : Nat) : Bool :=
  (s.region p).elim (s.on F.KEY_CTL_SLOT0_CONCEAL) (fun n => s.on F.KEY_REG_CFG_CONCEAL 0 n)

def State.integ (s : State) (p : Nat) : Nat :=
  (s.region p).elim 0 (fun n => s.rd F.KEY_REG_CFG_INTEG 0 n)

/-- R146: the DLA of a page's tag. -/
def State.tagAddr (s : State) (p : Nat) : Nat :=
  (s.region p).elim 0 (fun n => s.rd F.KEY_REG_TAG_TAG_BASE 0 n + 8 * (p - s.rd F.KEY_REG_BASE_BASE 0 n))

/-- R141: the tweak of a Hall line. -/
def hallTweak (line gen : Nat) : Bytes := toLE 16 (line % 2 ^ 40 + gen % 256 * 2 ^ 120)

/-- R143: the tweak of block `b` of a run. -/
def runTweak (page b ver gen : Nat) : Bytes :=
  toLE 16 (page % 2 ^ 34 + b % 8 * 2 ^ 34 + ver % 2 ^ 16 * 2 ^ 37 + 2 ^ 64 + gen % 256 * 2 ^ 120)

/-- R133: XTS under a slot's K1 and K2. -/
def KeyMat.enc (k : KeyMat) (tweak bs : Bytes) : Bytes := xtsEnc (toLE 32 k.k1) (toLE 32 k.k2) tweak bs

def KeyMat.dec (k : KeyMat) (tweak bs : Bytes) : Bytes := xtsDec (toLE 32 k.k1) (toLE 32 k.k2) tweak bs

/-- R140: an access met an EMPTY slot. -/
def State.emptyUse (s : State) : State := (s.bump F.KEY_ERR_EMPTY_USE).set F.KEY_IRQ_EMPTY_USE

/-- R148: a tag check failed: source 0 read, 1 promotion, 2 RELOCATE, 3 REKEY, 4 RESLOT (Table 6-7). -/
def State.integFail (s : State) (src slot page : Nat) : State :=
  let s := (s.bump F.KEY_ERR_INTEG_FAIL).set F.KEY_IRQ_INTEG
  let s := s.wr F.KEY_LAST_INTEG_SRC src
  let s := s.wr F.KEY_LAST_INTEG_SLOT slot
  (s.wr F.KEY_LAST_INTEG_PAGE page).record 0x04 1 rasKEY 0 page slot

/-- Table 6-1, the end of a re-encryption: PREV is zeroed and the slot is ACTIVE. -/
def State.rekeyDone (s : State) (n : Nat) : State :=
  let s := s.setKeySlot n { s.keySlot n with prev := {} }
  (s.wr F.KEY_SLOT_STATE_STATE 1 0 n).set F.KEY_IRQ_REKEY_DONE

/-- R154: a page's VER wrapped. -/
def State.verWrap (s : State) (p slot : Nat) : State :=
  ((s.set F.MAP_IRQ_VER_WRAP).wr F.MAP_VERWRAP_PAGE p).set F.KEY_SLOT_STATE_WRAP 0 slot

end Sys2Proof.Machine
end

