-- ==== Sys2Proof/Machine/Space.lean ====
section
/-!
DEFINITION. Space: chunks, pools and grants (R83, R84, R105 to R107). The counts that MAP_RGk and MAP_POOLk show follow
every change of a chunk-table entry.
-/

namespace Sys2Proof.Machine

/-- Chunk-table STATE codes (Table 4-1). -/
def ckFREE : Nat := 0
def ckHALL : Nat := 1
def ckOPEN : Nat := 2
def ckSEALED : Nat := 3
def ckTWIN : Nat := 4
def ckRESERVED : Nat := 5
def ckUNUSED : Nat := 6
def ckHELD : Nat := 7

/-- The rank group of a chunk. -/
def State.chunkGroup (s : State) (c : Nat) : Option Group :=
  s.map.groups.find? (fun g => g.base ≤ c && c < g.base + g.chunks)

/-- Chunks reserved at the top of a group (R83). -/
def State.resvOf (s : State) (g : Group) : Nat :=
  match (s.map.groups.zip s.map.resv).find? (fun x => x.1 == g) with
  | some x => x.2
  | none => 0

/-- What an unlisted chunk-table entry is. -/
def State.chunkDflt (s : State) (c : Nat) : Chunk :=
  match s.chunkGroup c with
  | none => { state := ckUNUSED }
  | some g => if g.base + g.chunks - s.resvOf g ≤ c then { state := ckRESERVED } else {}

/-- A chunk-table entry. -/
def State.chunk (s : State) (c : Nat) : Chunk := smGet (s.chunkDflt c) s.map.chunks c

/-- R107: what a chunk adds to its pool's F. -/
def Chunk.f (x : Chunk) : Nat :=
  if x.state = ckHALL then 512 - x.live
  else if x.state = ckOPEN then 32768 - x.bump
  else if x.state = ckHELD then 32768 else 0

/-- R107: pool `k` at or above LOW_WATER clears its POOLS bit. -/
def State.poolCheck (s : State) (k : Nat) : State :=
  if s.rd F.MAP_POOL_WATER_LOW_WATER 0 k ≤ s.rd F.MAP_POOL_F_F 0 k then s.wrBit F.MAP_IRQ_POOLS k false else s

/-- Set a chunk-table entry, with the counts that show it. -/
def State.setChunk (s : State) (c : Nat) (x : Chunk) : State :=
  let o := s.chunk c
  let s := { s with map := { s.map with chunks := smSet (s.chunkDflt c) s.map.chunks c x } }
  let s := s.when (o.pool < 32) (fun s =>
    (s.sub F.MAP_POOL_F_F o.f 0 o.pool).sub F.MAP_POOL_CHUNKS_CHUNKS 1 0 o.pool)
  let s := s.when (x.pool < 32) (fun s =>
    ((s.add F.MAP_POOL_F_F x.f 0 x.pool).add F.MAP_POOL_CHUNKS_CHUNKS 1 0 x.pool).poolCheck x.pool)
  match s.chunkGroup c with
  | none => s
  | some g =>
    let s := s.when (o.state == ckFREE) (fun s => s.sub F.MAP_RG_CNT_CHUNKS_FREE 1 0 g.idx)
    s.when (x.state == ckFREE) (fun s => s.add F.MAP_RG_CNT_CHUNKS_FREE 1 0 g.idx)

/-- R107: an empty chunk of pool `k`. -/
def emptyChunk (k : Nat) (x : Nat × Chunk) : Bool :=
  x.2.pool == k && ((x.2.state == ckHALL && x.2.live == 0) || x.2.state == ckHELD)

/-- R107: while F exceeds HIGH_WATER by at least a chunk, the pool returns its highest-numbered empty chunk. The first
argument bounds the number of chunks returned. -/
def State.poolTrim : Nat → State → Nat → State
  | 0, s, _ => s
  | n + 1, s, k =>
    let unit := if k < 4 then 512 else 32768
    if s.rd F.MAP_POOL_WATER_HIGH_WATER 0 k + unit ≤ s.rd F.MAP_POOL_F_F 0 k then
      match (s.map.chunks.filter (emptyChunk k)).getLast? with
      | none => s
      | some (c, _) => State.poolTrim n (s.setChunk c {}) k
    else s

/-- R107 for one pool. -/
def State.trim (s : State) (k : Nat) : State := State.poolTrim s.map.chunks.length s k

/-! ### Grants (R84) -/

/-- R27: an image that changes TIER is draining: the migration and compaction jobs pause at descriptor boundaries, and the
free-pool allocators allocate and grant nothing. -/
def State.tierPaused (s : State) : Bool :=
  match s.str.load with
  | none => false
  | some l => l.secs.find? (fun x => x.1 == secTIER) != s.str.secs.find? (fun x => x.1 == secTIER)

/-- Who asks for chunks: the Hall pool of a set, the heap of a rank group, or the twin table. -/
inductive Claim where
  | hall (set : Nat)
  | heap (g : Group)
  | twin
deriving DecidableEq, Repr

/-- The pool index of a claim (R112); 0xFF for the twin table. -/
def Claim.pool : Claim → Nat
  | .hall set => set
  | .heap g => 16 + g.idx
  | .twin => 0xFF

/-- FREE chunks of a group that are not being zeroed for a grant already. -/
def State.freeIn (s : State) (g : Group) : Nat :=
  s.rd F.MAP_RG_CNT_CHUNKS_FREE 0 g.idx -
    (s.map.zeroing.filter (fun x => g.base ≤ x.1 && x.1 < g.base + g.chunks)).length

/-- The first number from `c` on that is not among the rising numbers `l`. -/
def firstGap (c : Nat) : List Nat → Nat
  | [] => c
  | k :: l => if k = c then firstGap (c + 1) l else if k < c then firstGap c l else c

/-- The lowest FREE chunk of a group; R84 does not say which of them a grant takes (log entry 106, DESIGN CHOICE). -/
def State.firstFree (s : State) (g : Group) : Option Nat :=
  let busy := s.map.zeroing.foldl (fun m x => smInsert m x.1 ()) (s.map.chunks.map (fun x => (x.1, ())))
  let c := firstGap g.base (busy.map (·.1))
  if c < g.base + g.chunks - s.resvOf g then some c else none

/-- Awake rank groups of a set. -/
def State.awakeOf (s : State) (set : Nat) : List Group := (awake s.map.groups).filter (fun g => g.set == set)

/-- Chunks a pool holds or is being granted. -/
def State.poolChunks (s : State) (k : Nat) : Nat :=
  s.rd F.MAP_POOL_CHUNKS_CHUNKS 0 k + (s.map.zeroing.filter (fun x => x.2 == k)).length

/-- R84: the Hall shortfall of a set. -/
def State.hallShort (s : State) (set : Nat) : Nat := (s.secs.tier set).hall - s.poolChunks set

/-- R84: the Mezzanine shortfall of a set. -/
def State.mezzShort (s : State) (set : Nat) : Nat :=
  (s.secs.tier set).mezz - ((s.awakeOf set).map (fun g => s.poolChunks (16 + g.idx))).sum

/-- R84: FREE awake chunks of a set. -/
def State.freeAwake (s : State) (set : Nat) : Nat := ((s.awakeOf set).map s.freeIn).sum

/-- The awake group of a set with the most FREE chunks, lowest rank index on a tie. -/
def State.roomiest (s : State) (set : Nat) : Option Group :=
  let gs := s.awakeOf set
  let m := (gs.map s.freeIn).foldl max 0
  if m = 0 then none else gs.find? (fun g => s.freeIn g == m)

/-- R84: the chunk that a claim would be granted now. -/
def State.grantOf (s : State) (cl : Claim) : Option Nat :=
  if s.tierPaused then none else
  match cl with
  | .hall set =>
    if s.mezzShort set + 1 ≤ s.freeAwake set then (s.roomiest set).bind s.firstFree else none
  | .heap g =>
    if g.loft || s.hallShort g.set + 1 ≤ s.freeAwake g.set then s.firstFree g else none
  | .twin =>
    if s.hallShort 0 + s.mezzShort 0 + 1 ≤ s.freeAwake 0 then (s.roomiest 0).bind s.firstFree else none

/-- A chunk leaves FREE for a claim, its lines already zero. A grant to a pool clears its POOLS bit (R107). -/
def State.giveChunk (s : State) (c pool : Nat) : State :=
  let st := if pool < 4 then ckHALL else if pool < 32 then ckHELD else ckTWIN
  let s := s.setChunk c { state := st, pool := pool }
  if pool < 32 then s.wrBit F.MAP_IRQ_POOLS pool false
  else { s with map := { s.map with twinChunks := s.map.twinChunks ++ [c] } }

/-- A grant to which nothing falls due in between: the lines are zeroed and the chunk is given (log entry 20, DESIGN CHOICE). -/
def State.grantNow (s : State) (cl : Claim) : Option State :=
  (s.grantOf cl).map (fun c => (s.zeroChunk c).giveChunk c cl.pool)

/-- A grant whose zeroing (R280) ends with CHUNK_ZERO_DONE. -/
def State.grantLater (s : State) (cl : Claim) : Option State :=
  (s.grantOf cl).map (fun c => { s with map := { s.map with zeroing := s.map.zeroing ++ [(c, cl.pool)] } })

/-! ### Frames and runs -/

/-- R105: the frame that the Hall pool of a set allocates next. -/
def State.nextFrame (s : State) (set : Nat) : Option Nat :=
  if s.tierPaused then none else
  match s.map.chunks.find? (fun x => x.2.pool == set && x.2.state == ckHALL && x.2.live < 512) with
  | none => none
  | some (c, x) => ((List.range 512).find? (fun i => !x.frames.testBit i)).map (fun i => 512 * c + i)

/-- R105: allocate a frame. -/
def State.takeFrame (s : State) (f : Nat) : State :=
  let x := s.chunk (f / 512)
  s.setChunk (f / 512) { x with frames := setBit x.frames (f % 512) true, live := x.live + 1 }

/-- R105: free a frame. -/
def State.freeFrame (s : State) (f : Nat) : State :=
  let x := s.chunk (f / 512)
  if x.state = ckHALL ∧ x.frames.testBit (f % 512) then
    (s.setChunk (f / 512) { x with frames := setBit x.frames (f % 512) false, live := x.live - 1 }).trim x.pool
  else s

/-- R98: free a frame once the reads in flight to it, by home and TT index, have completed. -/
def State.freeFrameAfter (s : State) (f : Nat) (reads : List (Nat × Nat)) : State :=
  if reads.isEmpty then s.freeFrame f
  else { s with map := { s.map with leaving := s.map.leaving ++ [(f, reads)] } }

/-- A read of a home has completed: frames that waited for it alone are free. -/
def State.readDone (s : State) (home tt : Nat) : State :=
  let l := s.map.leaving.map (fun x => (x.1, x.2.filter (· != (home, tt))))
  let s := { s with map := { s.map with leaving := l.filter (fun x => !x.2.isEmpty) } }
  s.forEach (l.filter (fun x => x.2.isEmpty)) (fun s x => s.freeFrame x.1)

/-- The set whose Hall pool owns a frame's chunk. -/
def State.frameSet (s : State) (f : Nat) : Nat := (s.chunk (f / 512)).pool

/-- R106: the open chunk of a heap. -/
def State.openChunk (s : State) (pool : Nat) : Option (Nat × Chunk) :=
  s.map.chunks.find? (fun x => x.2.pool == pool && x.2.state == ckOPEN)

/-- R106: a heap seals its open chunk and opens its lowest HEAP_HELD chunk; a sealed chunk with nothing live returns to
the rank-group pool. -/
def State.openHeld (s : State) (pool : Nat) : State :=
  let s := match s.openChunk pool with
    | none => s
    | some (c, x) => s.setChunk c (if x.live = 0 then {} else { x with state := ckSEALED })
  match s.map.chunks.find? (fun x => x.2.pool == pool && x.2.state == ckHELD) with
  | none => s
  | some (c, x) => s.setChunk c { x with state := ckOPEN, bump := 0 }

/-- Take `n` granules at BUMP of the heap's open chunk, if they fit. -/
def State.bumpRun (s : State) (pool n : Nat) : Option (Nat × State) :=
  match s.openChunk pool with
  | none => none
  | some (c, x) =>
    if x.bump + n ≤ 32768 then
      some (32768 * c + x.bump, s.setChunk c { x with live := x.live + n, bump := x.bump + n })
    else none

/-- R106: a heap allocates a run of `n` granules: its first granule, and the state. `none`: NO_SPACE. A grant that takes F
past HIGH_WATER gives back what the run left untouched (R107). -/
def State.allocRun (s : State) (g : Group) (n : Nat) : Option (Nat × State) :=
  let pool := 16 + g.idx
  if s.tierPaused then none else
  match s.bumpRun pool n with
  | some r => some r
  | none =>
    if s.map.chunks.any (fun x => x.2.pool == pool && x.2.state == ckHELD) then (s.openHeld pool).bumpRun pool n
    else match s.grantNow (.heap g) with
      | none => none
      | some s => match (s.openHeld pool).bumpRun pool n with
        | none => none
        | some (c, s) => some (c, s.trim pool)

/-- R96, R106: `n` granules of a run are no longer live. -/
def State.releaseRun (s : State) (granule n : Nat) : State :=
  let c := granule / 32768
  let x := s.chunk c
  let y := { x with live := x.live - n }
  if x.state = ckSEALED ∧ y.live = 0 then s.setChunk c {}
  else if x.state = ckSEALED ∨ x.state = ckOPEN then s.setChunk c y else s

end Sys2Proof.Machine
end

