-- ==== Sys2Proof/Machine/Tread.lean ====
section
/-!
DEFINITION. The Tread block format: decoding (R117 to R125) and the device's deterministic encoder (R127 to R129).
A block is 64 words of 64 bits; an image is a byte string.
-/

namespace Sys2Proof.Machine

/-- Decoder error codes of Table 5-4. -/
inductive TreadErr where
  | badCode
  | badRepeat
  | badIndex
  | overrun
  | badPad
  | badLength
deriving DecidableEq, Repr

/-- The code number of Table 5-4. -/
def TreadErr.code : TreadErr → Nat
  | .badCode => 1
  | .badRepeat => 2
  | .badIndex => 3
  | .overrun => 4
  | .badPad => 5
  | .badLength => 6

/-- Field width of a class (Table 5-2). -/
def treadWidth (c : Nat) : Nat :=
  match c with
  | 2 => 4 | 3 => 20 | 4 => 8 | 5 => 32 | 6 => 36 | 7 => 64 | _ => 0

/-- Sign extension to 64 bits from `w` bits. -/
def sext64 (w v : Nat) : Nat := if v.testBit (w - 1) then v + (2 ^ 64 - 2 ^ w) else v

/-- The class enters its word into the dictionary (Table 5-2). -/
def treadEnters (c : Nat) : Bool := c == 3 || c == 5 || c == 6 || c == 7

/-- The class refers to a dictionary index. -/
def treadIndexed (c : Nat) : Bool := c == 2 || c == 3 || c == 6

/-- R120: the dictionary, newest first, with a word entered. -/
def treadPush (d : List Nat) (v : Nat) : List Nat := (v :: d).take 16

/-- R119: the value of a word from its class, field, the previous word and the dictionary. -/
def treadValue (c f p : Nat) (d : List Nat) : Nat :=
  let e := d.getD (f % 16) 0
  match c with
  | 0 => 0
  | 1 => p
  | 2 => e
  | 3 => e / 2 ^ 16 * 2 ^ 16 + f / 16
  | 4 => sext64 8 f
  | 5 => sext64 32 f
  | 6 => e / 2 ^ 32 * 2 ^ 32 + f / 16
  | _ => f

/-- Checks 5 and 6 of Table 5-4 and the words, in ascending order: `img` is the image as a number, `pos` the bit at
which the next field starts. The end position comes back with the words. -/
def treadWords (img : Nat) : List Nat → Bool → Nat → Nat → List Nat → Except TreadErr (List Nat × Nat)
  | [], _, pos, _, _ => .ok ([], pos)
  | c :: cs, first, pos, p, d =>
    let f := img / 2 ^ pos % 2 ^ treadWidth c
    if c = 1 ∧ first then .error .badRepeat
    else if treadIndexed c ∧ d.length ≤ f % 16 then .error .badIndex
    else
      let v := treadValue c f p d
      match treadWords img cs false (pos + treadWidth c) v (if treadEnters c then treadPush d v else d) with
      | .error e => .error e
      | .ok (ws, e) => .ok (v :: ws, e)

/-- R122: the image length for a sum of field widths. -/
def treadLen (p : Nat) : Nat := 16 * ceilDiv (200 + p) 128

/-- The classes of a TREAD image's class map. -/
def treadClasses (img : Nat) : List Nat := (List.range 64).map (fun w => img / 2 ^ (8 + 3 * w) % 8)

/-- The bytes of 64-bit words, little-endian. -/
def wordBytes (ws : List Nat) : Bytes := ws.flatMap (toLE 8)

/-- The 64-bit words of a block. -/
def blockWords (b : Bytes) : List Nat := (List.range 64).map (fun w => le b (8 * w) 8)

/-- Table 5-4 for a PAT or TREAD image of which `n` bytes are at hand: BSZb × 64 in the stored form, the bytes left in
the stream in the stand-alone form. The 512 bytes and the image length come back. -/
def treadDecode (bs : Bytes) (n : Nat) : Except TreadErr (Bytes × Nat) :=
  let code := byteAt bs 0
  if 0x10 ≤ code ∧ code ≤ 0x13 then
    let k := 2 ^ (code - 0x10)
    if n < 16 then .error .overrun
    else if !allZero (slice bs (1 + k) (15 - k)) then .error .badPad
    else .ok ((List.range 512).map (fun i => bs.getD (1 + i % k) 0), 16)
  else if code != 0x20 then .error .badCode
  else if n < 25 then .error .overrun
  else
    let img := leNat (bs.take (min n 448))
    let cls := treadClasses img
    let len := treadLen ((cls.map treadWidth).sum)
    if 448 < len then .error .badLength
    else if n < len then .error .overrun
    else match treadWords img cls true 200 0 [] with
      | .error e => .error e
      | .ok (ws, pos) =>
        if img % 2 ^ (8 * len) / 2 ^ pos != 0 then .error .badPad else .ok (wordBytes ws, len)

/-- R115: decoding a stored block of `bsz` granules. -/
def storedDecode (bsz : Nat) (bs : Bytes) : Except TreadErr Bytes :=
  if bsz = 0 then .ok (List.replicate 512 0)
  else if bsz = 8 then .ok (bs.take 512)
  else match treadDecode bs (64 * bsz) with
    | .error e => .error e
    | .ok (b, _) => .ok b

/-- R116: decoding the image at the head of a stand-alone stream; the length consumed comes back. -/
def aloneDecode (bs : Bytes) : Except TreadErr (Bytes × Nat) :=
  let n := bs.length
  let code := byteAt bs 0
  if n = 0 then .error .overrun
  else if code = 0x00 then
    if n < 16 then .error .overrun
    else if !allZero (slice bs 1 15) then .error .badPad
    else .ok (List.replicate 512 0, 16)
  else if code = 0xF0 then
    if n < 16 then .error .overrun
    else if !allZero (slice bs 1 15) then .error .badPad
    else if n < 528 then .error .overrun
    else .ok (slice bs 16 512, 528)
  else treadDecode bs n

/-! ### Encoding -/

/-- The forms that R127 chooses among. -/
inductive TreadForm where
  | zero
  | pat (k : Nat)
  | tread
  | raw
deriving DecidableEq, Repr

/-- R128: the class, field and index of a word. -/
def treadClassOf (first : Bool) (v p : Nat) (d : List Nat) : Nat × Nat :=
  let h48 := d.findIdx (fun e => e / 2 ^ 16 == v / 2 ^ 16)
  let h32 := d.findIdx (fun e => e / 2 ^ 32 == v / 2 ^ 32)
  let dh := d.findIdx (· == v)
  if v = 0 then (0, 0)
  else if !first ∧ v = p then (1, 0)
  else if dh < d.length then (2, dh)
  else if v = sext64 8 (v % 2 ^ 8) then (4, v % 2 ^ 8)
  else if h48 < d.length then (3, h48 + 16 * (v % 2 ^ 16))
  else if v = sext64 32 (v % 2 ^ 32) then (5, v % 2 ^ 32)
  else if h32 < d.length then (6, h32 + 16 * (v % 2 ^ 32))
  else (7, v)

/-- The (class, field) of every word of a block, in ascending order. -/
def treadCode : List Nat → Bool → Nat → List Nat → List (Nat × Nat)
  | [], _, _, _ => []
  | v :: vs, first, p, d =>
    let cf := treadClassOf first v p d
    cf :: treadCode vs false v (if treadEnters cf.1 then treadPush d v else d)

/-- Fields written one after the other from bit `pos` (R121). -/
def treadPack : List (Nat × Nat) → Nat → Nat
  | [], _ => 0
  | cf :: r, pos => cf.2 * 2 ^ pos + treadPack r (pos + treadWidth cf.1)

/-- R127: the smallest pattern length 2^k that a block has. -/
def patternOf (b : Bytes) : Option Nat :=
  [0, 1, 2, 3].find? (fun k => (List.range 512).all (fun i => b.getD i 0 == b.getD (i % 2 ^ k) 0))

/-- What the encoder makes of one block: the form, BSZb, the image without slack, and the classes of its words if it
was Tread-coded (R128), stored raw or not. -/
structure Encoded where
  form    : TreadForm
  bsz     : Nat
  image   : Bytes
  classes : List Nat
deriving DecidableEq, Repr

/-- R117: a pattern image. -/
def patImage (k : Nat) (b : Bytes) : Bytes :=
  toLE 1 (0x10 + k) ++ b.take (2 ^ k) ++ List.replicate (15 - 2 ^ k) 0

/-- R127 to R129: the encoder. -/
def treadEncode (b : Bytes) : Encoded :=
  if allZero b then ⟨.zero, 0, [], []⟩
  else match patternOf b with
    | some k => ⟨.pat k, 1, patImage k b, []⟩
    | none =>
      let cfs := treadCode (blockWords b) true 0 []
      let cls := cfs.map (·.1)
      let len := treadLen ((cls.map treadWidth).sum)
      if 448 < len then ⟨.raw, 8, b, cls⟩
      else
        let mp := cls.zipIdx.foldl (fun a x => a + x.1 * 2 ^ (8 + 3 * x.2)) 0x20
        ⟨.tread, ceilDiv len 64, toLE len (mp + treadPack cfs 200), cls⟩

/-- R144: the block as a region with conceal zero stores it: a zero block becomes a PAT1 block of zeros. -/
def concealEncode (b : Bytes) : Encoded :=
  if allZero b then ⟨.pat 0, 1, patImage 0 b, []⟩ else treadEncode b

/-- R116: the stand-alone image of an encoded block whose plaintext is `b`. -/
def aloneImage (e : Encoded) (b : Bytes) : Bytes :=
  match e.form with
  | .zero => List.replicate 16 0
  | .raw => 0xF0 :: (List.replicate 15 0 ++ b)
  | _ => e.image

/-- The stored form with its slack (R115): BSZb × 64 bytes. -/
def storedImage (e : Encoded) : Bytes := e.image ++ List.replicate (64 * e.bsz - e.image.length) 0

end Sys2Proof.Machine
end

