-- ==== Sys2Proof/Machine/Page.lean ====
section
/-!
DEFINITION. Pages: page-map entries and the counts that follow them, the map cache (R89), lost entries (R87), the run
of a compressed page (R86), what a line of a page holds (R92), the tag of a page (R146), and storing lines, blocks and
whole pages.
-/

namespace Sys2Proof.Machine

/-! ### Page-map and twin-table entries -/

/-- What an unlisted entry is: unbacked, with the AGE of the sweeps that have passed it (R88, R91), and ZERO where its
unit has been released (R62). -/
def State.pmeDflt (s : State) (p : Nat) : Pme :=
  { zero := s.map.zeroed.contains (p / 65536), age := min 255 (s.map.ageBase + b2n (p / 4 < s.map.sweepAt)) }

/-- A page-map entry. -/
def State.pme (s : State) (p : Nat) : Pme := smGet (s.pmeDflt p) s.map.pmes p

/-- A twin-table entry. -/
def State.twin (s : State) (e : Nat) : Twin := smGet {} s.map.twins e

/-- MAP_TIERCNT index of a page. -/
def Pme.cls (x : Pme) : Nat :=
  if x.tier = 0 then (if x.zero then 1 else 0)
  else if x.tier = 1 then 2
  else if x.tier = 2 then 3
  else if x.twin then 5 else 4

/-- KEY_SLOTn.USE: one user of a slot fewer, and one of another more. -/
def State.moveUse (s : State) (a b : Nat) : State :=
  if a = b then s else (s.sub F.KEY_SLOT_USE_USE 1 0 a).add F.KEY_SLOT_USE_USE 1 0 b

/-- Change a page-map entry, with the counts of MAP_TIERCNT and KEY_SLOTn.USE. -/
def State.putPme (s : State) (p : Nat) (x : Pme) : State :=
  let o := s.pme p
  let s := { s with map := { s.map with pmes := smSet (s.pmeDflt p) s.map.pmes p x } }
  let s := (s.sub F.MAP_TIERCNT_PAGES 1 0 o.cls).add F.MAP_TIERCNT_PAGES 1 0 x.cls
  s.moveUse o.key x.key

/-- Change a twin-table entry, with KEY_SLOTn.USE. -/
def State.putTwin (s : State) (e : Nat) (x : Twin) : State :=
  let o := s.twin e
  let s := { s with map := { s.map with twins := smSet {} s.map.twins e x } }
  let s := s.when o.valid (fun s => s.sub F.KEY_SLOT_USE_USE 1 0 o.key)
  s.when x.valid (fun s => s.add F.KEY_SLOT_USE_USE 1 0 x.key)

/-- Table 4-2: the 128 bits of an entry. -/
def Pme.word (x : Pme) : Nat :=
  x.tier + b2n x.zero * 2 ^ 2 + b2n x.twin * 2 ^ 3 + b2n x.pin * 2 ^ 4 + b2n x.poison * 2 ^ 5 +
  b2n x.dirtyc * 2 ^ 6 + x.key * 2 ^ 8 + x.ver * 2 ^ 16 + x.age * 2 ^ 32 + x.loc * 2 ^ 40 + x.bsz * 2 ^ 78

/-- Table 4-2: the entry that 128 bits spell. -/
def Pme.ofWord (n : Nat) : Pme :=
  { bsz := bits n 109 78, loc := bits n 77 40, age := bits n 39 32, ver := bits n 31 16, key := bits n 15 8,
    dirtyc := n.testBit 6, poison := n.testBit 5, pin := n.testBit 4, twin := n.testBit 3, zero := n.testBit 2,
    tier := bits n 1 0 }

/-! ### The map cache (R89) -/

/-- Slice and set of a map-cache line. -/
def MapTag.place (t : MapTag) : Nat × Nat := (t.m % 16, t.m / 16 % 2048)

/-- A line of the map cache is the line of a tag. -/
def MapTag.same (a b : MapTag) : Bool := a.twin == b.twin && a.m == b.m

/-- A map line is cached. -/
def State.mapHit (s : State) (t : MapTag) : Bool := s.map.cache.any (fun x => x.same t)

/-- The media address of a map line for the purposes of admission: line m of the reserved chunks taken in order (log
entry 21, DESIGN CHOICE); twin entries lie in the twin table's chunks. -/
def State.mapMa (s : State) (t : MapTag) : Option Nat :=
  let cs := if t.twin then s.map.twinChunks
    else (awake s.map.groups).flatMap (fun g => (List.range (s.resvOf g)).map (fun i => g.base + g.chunks - 1 - i))
  (cs[t.m / 32768]?).map (fun c => c * 2097152 + t.m % 32768 * 64)

/-- R89, R315: write a modified line to the map, charged to the master whose access evicts it. -/
def State.mapWriteBack (s : State) (t : MapTag) (master : Nat) : State :=
  let clean := fun (x : MapTag) => if x.same t then { x with dirty := false } else x
  let s := { s with map := { s.map with cache := s.map.cache.map clean } }
  match s.mapMa t with
  | none => s
  | some ma => s.postMa ma true master

/-- R89: a line takes a way of its set. With all 16 ways taken one line leaves, which one R89 does not say (a free
value), and is written back if it is modified. -/
def State.mapFill (s : State) (t : MapTag) (master : Nat) : State :=
  if s.mapHit t then s
  else
    let mine := s.map.cache.filter (fun x => x.place == t.place)
    let s := if mine.length < 16 then s
      else
        let (v, s) := s.draw
        match mine[v % 16]? with
        | none => s
        | some o =>
          let s := if o.dirty then s.mapWriteBack o master else s
          { s with map := { s.map with cache := s.map.cache.filter (fun x => !x.same o) } }
    { s with map := { s.map with cache := s.map.cache ++ [{ t with dirty := false }] } }

/-- A reader or writer of an entry goes through its slice: a line not cached is fetched at the cost of one access. -/
def State.mapTouch (s : State) (t : MapTag) (master : Nat) : State :=
  let s := if s.mapHit t then s
    else match s.mapMa t with
      | none => s.mapFill t master
      | some ma => (s.postMa ma false master).mapFill t master
  if t.dirty then
    { s with map := { s.map with cache := s.map.cache.map (fun x => if x.same t then { x with dirty := true } else x) } }
  else s

/-- R89: set a page's entry through its slice. -/
def State.setPme (s : State) (p : Nat) (x : Pme) (master : Nat := 0) : State :=
  (s.mapTouch ⟨false, p / 4, true⟩ master).putPme p x

/-- R89: set a twin entry through its slice. -/
def State.setTwin (s : State) (e : Nat) (x : Twin) (master : Nat := 0) : State :=
  (s.mapTouch ⟨true, e, true⟩ master).putTwin e x

/-! ### Lost entries (R87) -/

/-- The block sizes of a BSZ field. -/
def bszList (bsz : Nat) : List Nat := (List.range 8).map (fun b => bits bsz (4 * b + 3) (4 * b))

/-- The BSZ field of eight block sizes. -/
def bszOf (l : List Nat) : Nat := l.zipIdx.foldl (fun a x => a + x.1 * 16 ^ x.2) 0

/-- Granules of a run. -/
def bszSum (bsz : Nat) : Nat := (bszList bsz).sum

/-- R85, R86: the entry breaks no rule of its own. -/
def Pme.formOk (x : Pme) : Bool :=
  if x.tier = 0 then x.bsz == 0 && x.loc == 0 && x.ver == 0 && x.key == 0 && !x.twin
  else if x.tier = 1 then x.bsz == 0 && !x.twin && x.loc < 2 ^ 32
  else (bszList x.bsz).all (· ≤ 8) && 1 ≤ bszSum x.bsz && (x.tier == 3 || !x.twin)

/-- A granule index lies in a chunk of a heap, of a Loft group or not. -/
def State.inHeap (s : State) (granule : Nat) (loft : Bool) : Bool :=
  let x := s.chunk (granule / 32768)
  (x.state == ckOPEN || x.state == ckSEALED || x.state == ckHELD) &&
    (s.map.groups.any (fun g => x.pool == 16 + g.idx && g.loft == loft))

/-- R87: the entry's LOC resolves. -/
def State.locOk (s : State) (x : Pme) : Bool :=
  if x.tier = 0 then true
  else if x.tier = 1 then (s.chunk (x.loc / 512)).state == ckHALL
  else if x.twin then
    x.loc < 32768 * s.rd F.MAP_TWIN_CFG_CHUNKS && (s.twin x.loc).valid && s.inHeap (s.twin x.loc).loc true
  else s.inHeap x.loc (x.tier == 3)

/-- R87: the entry of a page is lost. -/
def State.lost (s : State) (p : Nat) : Bool :=
  s.map.lost.contains p || s.map.broken.contains p || !(s.pme p).formOk || !s.locOk (s.pme p)

/-- The page's entry is read whole again, or written whole: it is lost no more. -/
def State.unlose (s : State) (p : Nat) : State :=
  { s with map := { s.map with lost := s.map.lost.filter (· != p), broken := s.map.broken.filter (· != p) } }

/-- R87: an access met a lost entry: one that does not decode, or one that decodes and breaks a rule. -/
def State.noteLost (s : State) (p : Nat) : State :=
  let s := if s.map.lost.contains p then s.bump F.MAP_ERR_PME_UE else s.bump F.MAP_ERR_PME_INVALID
  (s.set F.MAP_IRQ_PME_ERR).record 0x05 1 rasMAP 0 p

/-! ### Runs (R86) -/

/-- The stored run of a compressed page: first granule, BSZ, VER, slot, the page index of its tweak, and its twin
entry. -/
structure Run where
  loc  : Nat
  bsz  : Nat
  ver  : Nat
  key  : Nat
  page : Nat
  twin : Option Nat
deriving DecidableEq, Repr

/-- The run of a page (R92, R104). -/
def State.runOf (s : State) (p : Nat) (x : Pme) : Run :=
  if x.twin then let t := s.twin x.loc; ⟨t.loc, t.bsz, t.ver, t.key, t.origin, some x.loc⟩
  else ⟨x.loc, x.bsz, x.ver, x.key, p, none⟩

/-- Size of block `b`. -/
def Run.size (r : Run) (b : Nat) : Nat := (bszList r.bsz).getD b 0

/-- R86: first granule of block `b`. -/
def Run.start (r : Run) (b : Nat) : Nat := r.loc + ((bszList r.bsz).take b).sum

/-- Granules of the run. -/
def Run.total (r : Run) : Nat := bszSum r.bsz

/-- R142: the key of a run. -/
def State.runKey (s : State) (r : Run) : KeyMat × Nat :=
  match r.twin with
  | some e => s.keyFor r.key e true
  | none => s.keyFor r.key r.page false

/-- The stored bytes of granules, and the cause of the first that is not good. -/
def State.peekGranules (s : State) (start n : Nat) : Bytes × Cause :=
  ((List.range n).map (fun i => s.peekMa ((start + i) * 64))).foldl
    (fun (a : Bytes × Cause) x => (a.1 ++ x.1, if a.2 = 0 then x.2 else a.2)) ([], 0)

/-- What decoding a block gives. -/
inductive BlockRes where
  | ok (data : Bytes)
  | bad (cause : Cause)
  | tread (e : TreadErr)
deriving DecidableEq, Repr

/-- R143, R115: decrypt and decode block `b` of a run. -/
def State.peekBlock (s : State) (r : Run) (b : Nat) : BlockRes :=
  if r.size b = 0 then .ok (List.replicate 512 0)
  else
    let (ct, c) := s.peekGranules (r.start b) (r.size b)
    if c != 0 then .bad c
    else
      let (k, g) := s.runKey r
      match storedDecode (r.size b) (k.dec (runTweak r.page b r.ver g) ct) with
      | .ok d => .ok d
      | .error e => .tread e

/-! ### What a line holds (R92) -/

/-- DLA line index of line `l` of page `p`, and back. -/
def lineOf (p l : Nat) : Nat := 64 * p + l

/-- A zero line. -/
def zeroLine : Bytes := List.replicate 64 0

/-- R141: a Hall line: its plaintext, and the cause. -/
def State.peekHall (s : State) (x : Pme) (p l : Nat) : Bytes × Cause :=
  let (ct, c) := s.peekMa (x.loc * 4096 + 64 * l)
  if c != 0 then (zeroLine, c)
  else
    let (k, g) := s.keyFor x.key p false
    (k.dec (hallTweak (lineOf p l) g) ct, 0)

/-- R146: the tag of a page whose run holds ciphertext `ct`, as 8 bytes. -/
def State.tagOf (s : State) (p : Nat) (r : Run) (ct : Bytes) : Bytes :=
  let (k, g) := s.runKey r
  let head := toLE 5 (p % 2 ^ 34) ++ toLE 1 r.key ++ toLE 1 g ++ [0] ++ toLE 2 r.ver ++ toLE 4 r.bsz ++ [0, 0]
  (cmac (toLE 32 k.km) (head ++ ct)).take 8

/-- R92: line `l` of page `p` as memory holds it, with the cause of R68 where it reads poisoned. Tags are not checked
here. -/
def State.peekLineOf (s : State) (line : Nat) : Bytes × Cause :=
  let p := line / 64
  let x := s.pme p
  if s.lost p then (zeroLine, 1)
  else if s.map.dropped.contains line then (zeroLine, 3)
  else if x.poison then (zeroLine, 4)
  else if x.tier = 0 then (zeroLine, 0)
  else
    let r := s.runOf p x
    if !s.keyUp r.key then (zeroLine, 1)
    else if x.tier = 1 then s.peekHall x p (line % 64)
    else match s.peekBlock r (line % 64 / 8) with
      | .ok d => (slice d (line % 8 * 64) 64, 0)
      | .bad c => (zeroLine, c)
      | .tread _ => (zeroLine, 1)

/-- R146, R147: the page's tag, in its tag line, matches its run. A tag line that is poisoned counts as a failed check. -/
def State.tagOk (s : State) (p : Nat) (r : Run) (tag : Bytes × Bool) : Bool :=
  !tag.2 && slice tag.1 (s.tagAddr p % 64) 8 == s.tagOf p r (s.peekGranules r.loc r.total).1

/-! ### Storing -/

/-- R141: store a line of a Hall page, poisoned or not. -/
def State.putHall (s : State) (p l : Nat) (data : Bytes) (poison : Bool) : State :=
  let x := s.pme p
  let (k, g) := s.keyFor x.key p false
  s.putMa (x.loc * 4096 + 64 * l) (k.enc (hallTweak (lineOf p l) g) data) poison

/-- Fill the frame of a Hall page from its 64 lines: data and whether it is poisoned. -/
def State.putPage (s : State) (p : Nat) (lines : List (Bytes × Bool)) : State :=
  lines.zipIdx.foldl (fun s x => s.putHall p x.2 x.1.1 x.1.2) s

/-- Store granules. -/
def State.putGranules (s : State) (start : Nat) (bs : Bytes) : State :=
  (pieces 64 bs).zipIdx.foldl (fun s x => s.putMa ((start + x.2) * 64) x.1 false) s

/-- R110: take a line off the dropped-line table. -/
def State.undrop (s : State) (f : Nat → Bool) : State :=
  let d := s.map.dropped.filter (fun l => !f l)
  ({ s with map := { s.map with dropped := d } }).wr F.MAP_DROP_USED d.length

/-- R110: enter a line in the dropped-line table; with the table full the page's entry is marked poisoned. -/
def State.dropLine (s : State) (line : Nat) : State :=
  if s.map.dropped.contains line then s
  else if 1024 ≤ s.map.dropped.length then
    (s.bump F.MAP_DROP_OVF).setPme (line / 64) { s.pme (line / 64) with poison := true }
  else
    let d := s.map.dropped ++ [line]
    ({ s with map := { s.map with dropped := d } }).wr F.MAP_DROP_USED d.length

/-- R96, R104: the storage of a page is released: its frame, its run, or its share of a twin. -/
def State.releaseStore (s : State) (p : Nat) : State :=
  let x := s.pme p
  if s.lost p || x.tier = 0 then s
  else if x.tier = 1 then s.freeFrame x.loc
  else if x.twin then
    let t := s.twin x.loc
    if t.refcnt ≤ 1 then (s.releaseRun t.loc (bszSum t.bsz)).setTwin x.loc { t with refcnt := 0, valid := false }
    else s.setTwin x.loc { t with refcnt := t.refcnt - 1 }
  else s.releaseRun x.loc (bszSum x.bsz)

/-- R62, R71: a page becomes zero (TIER 00 with ZERO set) and its storage is free. A lost entry's storage is not
reclaimed (R87). -/
def State.zeroPage (s : State) (p : Nat) : State :=
  let s := (s.releaseStore p).unlose p
  (s.setPme p { zero := true, pin := (s.pme p).pin, age := (s.pme p).age }).undrop (fun l => l / 64 == p)

/-- R62, R71: every page of a unit of 256 MiB of DLA becomes zero. -/
def State.zeroUnit (s : State) (u : Nat) : State :=
  let here := fun (p : Nat) => p / 65536 == u
  let listed := (s.map.pmes.map (·.1)).filter here
  let gone := (s.map.lost ++ s.map.broken).eraseDups.filter (fun p => here p && !listed.contains p)
  let s := s.forEach (listed ++ gone) State.zeroPage
  if s.map.zeroed.contains u then s
  else
    let n := 65536 - ((s.map.pmes.map (·.1)).filter here).length
    let s := (s.sub F.MAP_TIERCNT_PAGES n 0 0).add F.MAP_TIERCNT_PAGES n 0 1
    let s := { s with map := { s.map with zeroed := s.map.zeroed ++ [u] } }
    { s with map := { s.map with pmes := s.map.pmes.filter (fun x => x.2 != s.pmeDflt x.1) } }

/-! ### BUSY pages (R90) -/

/-- A page is BUSY. -/
def State.busy (s : State) (p : Nat) : Bool := s.map.busy.any (fun x => x.1 == p)

/-- A page leaves BUSY. What waited for it is served next (`State.serveQueue`). -/
def State.unbusy (s : State) (p : Nat) : State :=
  { s with map := { s.map with busy := s.map.busy.filter (fun x => x.1 != p) } }

/-- An access to a page goes through its slice, and where the page is a twin through that of its twin entry (R89). -/
def State.pageTouch (s : State) (p master : Nat) : State :=
  let s := s.mapTouch ⟨false, p / 4, false⟩ master
  s.when (s.pme p).twin (fun s => s.mapTouch ⟨true, (s.pme p).loc, false⟩ master)

/-- R91: an access sets AGE to 0. -/
def State.ageZero (s : State) (p : Nat) : State :=
  if s.on F.MAP_CTL_AGE_EN && (s.pme p).age != 0 then s.setPme p { s.pme p with age := 0 } else s

end Sys2Proof.Machine
end

