-- ==== Sys2Proof/Machine/RegFile.lean ====
section
/-!
DEFINITION. Registers as words: which fields stand at a BAR0 offset (R429), the word they spell, and what a write does
to them by their access types (Table 0-5). What else a write of a particular register causes is the family's.
-/

namespace Sys2Proof.Machine

/-- Block copy and entry of a field's register that stands at BAR0 offset `off`, if one does. -/
def Field.at (f : Field) (off : Nat) : Option (Nat × Nat) :=
  let b := f.blk
  if off < b.base then none
  else
    let o := off - b.base
    let i := if b.stride = 0 then 0 else o / b.stride
    let o := o - i * b.stride
    if b.copies ≤ i || o < f.off then none
    else
      let o := o - f.off
      let j := if f.stride = 0 then 0 else o / f.stride
      -- Table 8-13: current and shadow tables alternate. Table 20-2: DRC_SBUS stands in instances 0, 4, 8 and 12
      let absent := (f.reset == .route && 256 ≤ j % 512) || (f.blk == .drc && f.off == 0x300 && i % 4 != 0)
      if o = j * f.stride ∧ j < f.n ∧ !absent then some (i, j) else none

/-- The fields of the register at an offset, with their block copy and entry. -/
def fieldsAt (off : Nat) : List (Field × Nat × Nat) :=
  Field.all.filterMap (fun f => (f.at off).map (fun x => (f, x.1, x.2)))

/-- The lock bit that governs a field's RWL access. -/
def Field.lock (f : Field) : Option Field :=
  match f.blk with
  | .str => some F.STR_CTL_LOCK
  | .tim => some F.TIM_CTL_LOCK
  | .prt => some F.PRT_CTL_LOCK
  | .cwk => some F.CWK_CTL_LOCK
  | .span => some F.CWK_CTL_LOCK
  | .noc => some F.NOC_CTL_LOCK
  | .hom => some F.HOM_CTL_LOCK
  | .map => some F.MAP_CTL_LOCK
  | .key => some F.KEY_CTL_LOCK
  | .drc => some (if F.DRC_ECC_CTL_LOCK.off ≤ f.off then F.DRC_ECC_CTL_LOCK else F.DRC_CTL_LOCK)
  | .gal => some (if F.GAL_TRD_CTL_LOCK.off ≤ f.off && f.off < 0x890 then F.GAL_TRD_CTL_LOCK else F.GAL_CTL_LOCK)
  | .tst => some F.TST_CTL_LOCK
  | .cnt => some F.CNT_CTL_LOCK
  | .pwr => some F.PWR_CTL_LOCK
  | .fwc => some F.FWC_CTL_LOCK
  | .ras => some F.RAS_CTL_LOCK
  | _ => none

/-- The field's lock bit is 1. -/
def State.locked (s : State) (f : Field) (i : Nat) : Bool :=
  match f.lock with
  | some l => s.on l i
  | none => false

/-- The bits of a register word that belong to a field. -/
def Field.of (f : Field) (v : Nat) : Nat := bits v f.hi f.lo

/-- Table 0-5: a write of `v` to one field by `who`. WO fields hold nothing. -/
def State.writeField (s : State) (who : Initiator) (f : Field) (i j v : Nat) : State :=
  let x := f.of v
  match f.acc with
  | .rw => s.wr f x i j
  | .rwl => if s.locked f i then s else s.wr f x i j
  | .rws => if s.isOwner who then s.wr f x i j else s
  | .w1c => s.wr f (Nat.land (s.rd f i j) (2 ^ f.width - 1 - x)) i j
  | .w1s => s.wr f (Nat.lor (s.rd f i j) x) i j
  | _ => s

/-- A write of a word to the fields at an offset, of which only those that `sel` takes are written. -/
def State.writeWord (s : State) (who : Initiator) (off v : Nat) (sel : Field → Bool := fun _ => true) : State :=
  (fieldsAt off).foldl (fun s x => if sel x.1 then s.writeField who x.1 x.2.1 x.2.2 v else s) s

/-- What a field shows to a read: WO reads zero (Table 0-5). -/
def State.showField (s : State) (f : Field) (i j : Nat) : Nat :=
  match f.acc with
  | .wo => 0
  | _ => s.rd f i j

/-- The word at an offset; reserved bits and offsets are zero (R3). -/
def State.readWord (s : State) (off : Nat) : Nat :=
  (fieldsAt off).foldl (fun a x => a + s.showField x.1 x.2.1 x.2.2 * 2 ^ x.1.lo) 0

/-- Table 0-5: a read clears the RC fields that `sel` takes. -/
def State.readClear (s : State) (off : Nat) (sel : Field → Bool := fun _ => true) : State :=
  (fieldsAt off).foldl (fun s x => if x.1.acc == .rc && sel x.1 then s.clear x.1 x.2.1 x.2.2 else s) s

end Sys2Proof.Machine
end

