-- ==== Sys2Proof/Machine/KeyProg.lean ====
section
/-!
DEFINITION. The commands of the key block (chapter 6): key programming (R134, R149 to R151) and the region table
(R138).
-/

namespace Sys2Proof.Machine

/-- The completed session of a transport with a number. -/
def State.session (s : State) (t : Initiator) (id : Nat) : Option Session :=
  s.sec.sessions.find? (fun x => x.id == id && x.t == t && x.done)

/-- R149, R380: the request came in a secured session whose requester authenticated with the owner key. -/
def State.ownerSession (s : State) (t : Initiator) (id : Nat) : Bool :=
  match s.session t id with
  | some x => !s.nvs.ownerKey.isEmpty && x.leaf == some s.nvs.ownerKey
  | none => false

/-- Results of R150. -/
def keyOK : Nat := 0
def keyBadSlot : Nat := 1
def keyBadState : Nat := 2
def keyGenMismatch : Nat := 3
def keyNotOwner : Nat := 4
def keyMalformed : Nat := 5

/-- R150: the request's form: length, zero byte, K1 and K2. -/
def keyFormOk (op : Nat) (req : Bytes) : Bool :=
  req.length == (if op = 3 then 4 else 100) && byteAt req 3 == 0 &&
    (op == 3 || slice req 4 32 != slice req 36 32)

/-- R134: the states in which an operation acts: 1 LOAD in EMPTY, 2 RETIRE in ACTIVE, 3 ERASE in ACTIVE or REKEY. -/
def keyFromOk (op st : Nat) : Bool := if op = 1 then st == 0 else if op = 2 then st == 1 else st == 1 || st == 2

/-- Table 6-4: a LOAD that meets the generation of the LOAD just before it: its EXPECT_GEN was that of the EMPTY slot. -/
def State.secondLoad (s : State) (n op : Nat) (req : Bytes) : Bool :=
  op == 1 && s.rd F.KEY_SLOT_STATE_STATE 0 n == 1 && (byteAt req 2 + 1) % 256 == s.rd F.KEY_SLOT_STATE_GEN 0 n

/-- R149, R150: the RESULT of a request. R150 has the state checked before EXPECT_GEN, and Table 6-4 gives the second of two
LOADs GEN_MISMATCH: the table's row is followed for that meeting (log entry 107, DEDUCED). -/
def State.keyResult (s : State) (t : Initiator) (sess op : Nat) (req : Bytes) : Nat :=
  let n := byteAt req 1
  if !s.ownerSession t sess then keyNotOwner
  else if !keyFormOk op req then keyMalformed
  else if n = 0 then keyBadSlot
  else if s.secondLoad n op req then keyGenMismatch
  else if !keyFromOk op (s.rd F.KEY_SLOT_STATE_STATE 0 n) then keyBadState
  else if byteAt req 2 != s.rd F.KEY_SLOT_STATE_GEN 0 n then keyGenMismatch
  else keyOK

/-- The material a request supplies (Table 6-3). -/
def reqMat (req : Bytes) : KeyMat := ⟨le req 4 32, le req 36 32, le req 68 32⟩

/-- Table 6-1: LOAD. -/
def State.loadSlot (s : State) (n : Nat) (m : KeyMat) : State :=
  let s := s.setKeySlot n { s.keySlot n with cur := m }
  (s.wr F.KEY_SLOT_STATE_GEN (s.rd F.KEY_SLOT_STATE_GEN 0 n + 1) 0 n).wr F.KEY_SLOT_STATE_STATE 1 0 n

/-- Table 6-1, R154: RETIRE. -/
def State.retireSlot (s : State) (n : Nat) (m : KeyMat) : State :=
  let s := s.setKeySlot n { s.keySlot n with prev := (s.keySlot n).cur, cur := m }
  let s := (s.wr F.KEY_SLOT_STATE_GEN (s.rd F.KEY_SLOT_STATE_GEN 0 n + 1) 0 n).wr F.KEY_SLOT_STATE_STATE 2 0 n
  ((s.clear F.KEY_SLOT_PCURSOR_PCURSOR 0 n).clear F.KEY_SLOT_TCURSOR_TCURSOR 0 n).clear F.KEY_SLOT_STATE_WRAP 0 n

/-- R151: ERASE begins; no access fetches the slot from now on. -/
def State.eraseSlot (s : State) (n : Nat) : State :=
  s.setKeySlot n { s.keySlot n with erasing := true }

/-- A slot's ERASE is under way. -/
def State.erasing (s : State) : Bool := s.keys.any (fun x => x.2.erasing)

/-- R134, R150, R151: what a request with RESULT OK does: OP 1 LOAD, 2 RETIRE, 3 ERASE. -/
def State.keyAct (s : State) (op n : Nat) (m : KeyMat) : State :=
  if op = 1 then s.loadSlot n m else if op = 2 then s.retireSlot n m else s.eraseSlot n

/-- R134, R149, R150: a key-programming request is carried out and answered (Table 6-3). -/
def State.keyRun (s : State) (t : Initiator) (sess op : Nat) (req : Bytes) : State :=
  let n := byteAt req 1
  let res := s.keyResult t sess op req
  let s := if res = keyOK then s.keyAct op n (reqMat req) else s.bump F.KEY_ERR_PROG_REFUSED
  let s := ((s.wr F.KEY_STATUS_LAST_SLOT n).wr F.KEY_STATUS_LAST_RESULT res).set F.KEY_IRQ_PROG
  s.emit (.vendor t (toLE 1 op ++ toLE 1 n ++ toLE 1 res ++ toLE 1 (s.rd F.KEY_SLOT_STATE_GEN 0 n)))

/-- R151: a crypto operation that has fetched the slot's material is under way: a promotion, or a step of re-encryption, of
a page stored under it. -/
def State.keyInUse (s : State) (n : Nat) : Bool :=
  s.map.busy.any (fun x => (s.runOf x.1 (s.pme x.1)).key == n || (s.pme x.1).key == n)

/-- R151: once the crypto operations in flight have completed, the slot is EMPTY and its material zero. -/
def State.keyErased (s : State) (n : Nat) : State := (s.setKeySlot n {}).wr F.KEY_SLOT_STATE_STATE 0 0 n

/-- R138: DLA ranges, in pages, of the LDL section. -/
def State.inLdRange (s : State) (lo hi : Nat) : Bool :=
  s.secs.ldl.any (fun e => lo < (e.base + e.static + e.dc) * 65536 && e.base * 65536 < hi)

/-- R138: the checks of a write that makes region entry `n` valid with an INTEG mode. -/
def State.regionOk (s : State) (n integ : Nat) : Bool :=
  let base := s.rd F.KEY_REG_BASE_BASE 0 n
  let lim := s.rd F.KEY_REG_LIMIT_LIMIT 0 n
  let tag := s.rd F.KEY_REG_TAG_TAG_BASE 0 n
  let tend := tag + 8 * (lim - base)
  let lo := tag / 4096
  let hi := ceilDiv tend 4096
  let others := (List.range 1024).filter (fun m => m != n && s.on F.KEY_REG_CFG_VALID 0 m)
  base < lim && lim ≤ s.secs.pages &&
    others.all (fun m => s.rd F.KEY_REG_LIMIT_LIMIT 0 m ≤ base || lim ≤ s.rd F.KEY_REG_BASE_BASE 0 m) &&
    (integ == 0 || (tag % 64 == 0 && tend ≤ s.secs.pages * 4096 && !s.inLdRange lo hi &&
      others.all (fun m => s.rd F.KEY_REG_CFG_INTEG 0 m == 0 ||
        s.rd F.KEY_REG_LIMIT_LIMIT 0 m * 4096 ≤ tag || tend ≤ s.rd F.KEY_REG_BASE_BASE 0 m * 4096) &&
      (lim * 4096 ≤ tag || tend ≤ base * 4096)))

/-- R138, Table 6-9: a write of KEY_REGn.CFG by the owner. INTEG 3 is stored as 2. -/
def State.regionCfg (s : State) (who : Initiator) (n v : Nat) : State :=
  if !s.isOwner who then s
  else
    let integ := min 2 (F.KEY_REG_CFG_INTEG.of v)
    let v := setBits v 10 9 integ
    if v.testBit 63 ∧ s.regionOk n integ = false then s.bump F.KEY_ERR_REGION_REJECT
    else s.writeWord who (F.KEY_REG_CFG_VALID.addr 0 n) v

/-- A write of a KEY register: its fields, and what follows. BASE, LIMIT and TAG_BASE are fixed while VALID is 1. -/
def State.writeKey (s : State) (who : Initiator) (off v : Nat) : State :=
  match F.KEY_REG_CFG_VALID.at off with
  | some (_, n) => s.regionCfg who n v
  | none =>
    match F.KEY_REG_BASE_BASE.at (off / 32 * 32) with
    | some (_, n) => if s.on F.KEY_REG_CFG_VALID 0 n then s else s.writeWord who off v
    | none => s.writeWord who off v

/-- R138: a write of KEY_REGn.CFG. -/
def execRegionEnable (who : Initiator) (n : Fin 1024) (v : BitVec 64) (s : State) : Outcome :=
  let off := F.KEY_REG_CFG_VALID.addr 0 n
  onDie s (fun s => barWrite s who off (fun s => s.writeKey who off v.toNat))

end Sys2Proof.Machine
end

