-- ==== Sys2Proof/Machine/Events.lean ====
section
/-!
DEFINITION. Event records of the LDs (R68, R69), the decoding gallery of a block and its counters (R93, R125, R126),
and the fatal state (R409).
-/

namespace Sys2Proof.Machine

/-! ### Logical devices -/

/-- A logical device. -/
def State.ld (s : State) (l : Nat) : LdSt := smGet {} s.hosts l

/-- Change a logical device. -/
def State.onLd (s : State) (l : Nat) (f : LdSt → LdSt) : State :=
  { s with hosts := smSet {} s.hosts l (f (s.ld l)) }

/-- Event logs of an LD (R69). -/
def logINFO : Nat := 0
def logWARN : Nat := 1
def logFAIL : Nat := 2
def logFATAL : Nat := 3
def logDC : Nat := 4

/-- R69: write an event record to a log of an LD; a full log drops it and counts the overflow. -/
def State.event (s : State) (l log : Nat) (kind : EventKind) (dpa cause txn : Nat) : State :=
  let st := s.st
  s.onLd l (fun d =>
    let lg : EventLog := smGet {} d.logs log
    if 64 ≤ lg.recs.length then
      { d with logs := smSet {} d.logs log { lg with overflow := true, lost := lg.lost + 1 } }
    else
      { d with logs := smSet {} d.logs log { lg with recs := lg.recs ++ [⟨d.nextHandle, kind, dpa, cause, txn, st⟩] },
               nextHandle := d.nextHandle + 1 })

/-- R69: a Memory Module event in every LD of the running structure. -/
def State.moduleEvent (s : State) (cause : Nat) : State :=
  s.forEach s.secs.ldl (fun s e => s.event e.ld logFAIL .memoryModule 0 cause 0)

/-- The LD whose DPA space contains a line, and the line's DPA (R59). -/
def State.ldOfLine (s : State) (line : Nat) : Option (Nat × Nat) :=
  let a := line * 64
  (s.secs.ldl.find? (fun e => e.base * 2 ^ 28 ≤ a && a < (e.base + e.static + e.dc) * 2 ^ 28)).map
    (fun e => (e.ld, a - e.base * 2 ^ 28))

/-- R68: a General Media record to the Failure log of the LD that issued an access; an access of another agent writes
none. -/
def State.failEvent (s : State) (agent line cause txn : Nat) : State :=
  match s.secs.ldEntry agent with
  | none => s
  | some e => if agent < 64 then s.event agent logFAIL .generalMedia (line * 64 - e.base * 2 ^ 28) cause txn else s

/-! ### Galleries that decode -/

/-- A gallery. -/
def State.gal (s : State) (g : Nat) : GalSt := smGet {} s.gals g

/-- Change a gallery beside its registers. -/
def State.onGal (s : State) (g : Nat) (f : GalSt → GalSt) : State := { s with gals := smSet {} s.gals g (f (s.gal g)) }

/-- A domain is FENCED or WAKING: what reaches it is held (R208). -/
def State.domDown (s : State) (d : Nat) : Bool :=
  let st := s.rd F.NOC_DOM_STATUS_STATE 0 d
  st == domFENCED || st == domWAKING

/-- R93, R411: a gallery counts as fenced for a home that sends a block. -/
def State.galDown (s : State) (g : Nat) : Bool := s.domDown (16 + g) || s.rdBit F.RAS_GAL_SUSPECT_GAL g

/-- R93: the gallery that decodes blocks read from channel `c`. -/
def State.galFor (s : State) (c : Nat) : Nat :=
  let b := c ^^^ 8
  if s.galDown c && s.on F.MAP_CTL_PARTNER_EN && !s.galDown b then b else c

/-- R126: a block failed to decode at gallery `g`. -/
def State.treadFail (s : State) (g page block : Nat) (alone : Bool) (e : TreadErr) : State :=
  let s := s.bump F.GAL_TRD_ERR_DEC_ERR 1 g
  let s := s.wr F.GAL_TRD_ERR_LAST_CODE e.code g
  let s := s.wr F.GAL_TRD_LAST_STANDALONE (b2n alone) g
  let s := s.wr F.GAL_TRD_LAST_CODE e.code g
  let s := s.wr F.GAL_TRD_LAST_BLOCK (if alone then 0 else block) g
  let s := s.wr F.GAL_TRD_LAST_PAGE (if alone then 0 else page) g
  s.record 0x03 1 rasGAL g page block e.code

/-- Table 5-14, Table 14-2: gallery `g` decodes a block of a tier. -/
def State.countDec (s : State) (g tier : Nat) : State :=
  (s.bump F.GAL_TRD_STAT_COUNT 1 g 5).counts (32 + g) evDec { tier := some tier } s.txn.cur

/-- Count the outcome of a decode at gallery `g` (Table 5-14). A zero block and a block that did not arrive good count
nothing. -/
def State.countDecode (s : State) (g : Nat) (r : Run) (b : Nat) (res : BlockRes) : State :=
  let tier := (s.pme r.page).tier
  if r.size b = 0 then s
  else match res with
    | .ok _ => s.countDec g tier
    | .bad _ => s
    | .tread e => (s.countDec g tier).treadFail g r.page b false e

/-- The channel from which a block of a run is read: that of its first granule. -/
def State.blockChan (s : State) (r : Run) (b : Nat) : Nat :=
  match s.place (r.start b * 64) with
  | some (c, _) => c
  | none => 0

/-- R93, R143: decode block `b` of a run at its gallery, with the counters. -/
def State.takeBlock (s : State) (r : Run) (b : Nat) : BlockRes × State :=
  let res := s.peekBlock r b
  (res, s.countDecode (s.galFor (s.blockChan r b)) r b res)

/-- Line `l` of a decoded block: its bytes, and the cause of R68. -/
def BlockRes.line (res : BlockRes) (l : Nat) : Bytes × Nat :=
  match res with
  | .ok d => (slice d (l % 8 * 64) 64, 0)
  | .bad c => (zeroLine, c)
  | .tread _ => (zeroLine, 1)

/-- R131: one decode of block `b` of a page answers every read of the block whose accesses have been made. -/
def State.shareBlock (s : State) (p b : Nat) (res : BlockRes) : State :=
  let f := fun (r : MapReq) =>
    if !r.write && r.st == .served && r.got.isNone && r.line / 8 == 8 * p + b then { r with got := some (res.line r.line) } else r
  { s with map := { s.map with reqs := s.map.reqs.map f } }

/-- R93: galleries that the blocks of a run go to and that are held up at a fenced boundary. -/
def State.galsDown (s : State) (r : Run) : List Nat :=
  (((List.range 8).filter (fun b => r.size b != 0)).map (fun b => s.galFor (s.blockChan r b))).eraseDups.filter
    (fun g => s.domDown (16 + g))

/-- R93: the block of a line that is to be read and decoded at a gallery whose domain is down: the gallery, the block,
and its granules. -/
def State.blockHeld (s : State) (line : Nat) : Option (Nat × Nat × Bytes) :=
  let p := line / 64
  let x := s.pme p
  let r := s.runOf p x
  let b := line % 64 / 8
  let g := s.galFor (s.blockChan r b)
  if s.lost p || s.map.dropped.contains line || x.poison || x.tier < 2 || r.size b == 0 || !s.keyUp r.key ||
      !s.domDown (16 + g) then none
  else some (g, b, (s.peekGranules (r.start b) (r.size b)).1)

/-! ### The fatal state (R409) -/

/-- R409, steps 1, 2 and 5: the record and the status. The excluded members of step 3 are the Catwalk chapter's; the
jobs of step 4 look at FATAL. -/
def State.fatal (s : State) (cls blk inst : Nat) (addr addr2 : Nat := 0) (detail : Nat := 0) : State :=
  ((s.set F.GEN_STATUS_FATAL).set F.GEN_STATUS_FAULT).record cls 3 blk inst addr addr2 detail

/-- R68, R409: Viral is signalled on a port: an LD of it has Viral enabled while the controller is in the fatal
state. -/
def State.viral (s : State) (port : Nat) : Bool :=
  s.on F.GEN_STATUS_FATAL && (s.secs.portLds port).any (fun e => (s.ld e.ld).viral)

end Sys2Proof.Machine
end

