-- ==== Sys2Proof/Machine/NocFlit.lean ====
section
/-!
DEFINITION. Messages and packets of the torus (R186 to R192): opcodes, networks, the header fields and flits of a packet, the
checks that protect them, and the route fields of a route-table entry's hop codes.
-/

namespace Sys2Proof.Machine

/-! ### Opcodes -/

/-- Opcodes of Table 7-2. -/
def opRdS : Nat := 0x01
def opRdO : Nat := 0x02
def opUpg : Nat := 0x03
def opWbD : Nat := 0x04
def opEvC : Nat := 0x05
def opRdNC : Nat := 0x06
def opSnpS : Nat := 0x08
def opSnpI : Nat := 0x09
def opSnpF : Nat := 0x0A
def opCmp : Nat := 0x10
def opCmpE : Nat := 0x11
def opRspI : Nat := 0x12
def opRspS : Nat := 0x13
def opRspF : Nat := 0x14
def opRspX : Nat := 0x15
def opAck : Nat := 0x16
def opData : Nat := 0x18
def opDataE : Nat := 0x19
def opDataM : Nat := 0x1A

/-- Internal messages of Table 8-4: OPC 8 + k of network n stands as 0x20 + 8 n + k. -/
def opMAPRD : Nat := 0x20
def opMAPWR : Nat := 0x21
def opMMIORD : Nat := 0x22
def opMMIOWR : Nat := 0x23
def opQPUSH : Nat := 0x24
def opMMIOCPL : Nat := 0x30
def opQCRED : Nat := 0x31
def opWDONE : Nat := 0x32
def opERR : Nat := 0x33
def opMAPLINE : Nat := 0x38
def opBLK : Nat := 0x39
def opMMIODAT : Nat := 0x3A
def opQITEM : Nat := 0x3B

/-- RTAG of a gallery's reads of tag lines (log entry 32, DESIGN CHOICE). -/
def tagTag : BitVec 8 := 64

/-- The network of an opcode (R186): 0 REQ, 1 SNP, 2 RSP, 3 DAT. -/
def opNet (opc : Nat) : Nat := if opc < 0x20 then opc / 8 else (opc - 0x20) / 8

/-- R189: OPC within its network. -/
def opCode (opc : Nat) : Nat := if opc < 0x20 then opc % 8 else 8 + opc % 8

/-- R189: Table 8-4 defines the opcode. -/
def opDefined (opc : Nat) : Bool :=
  (1 ≤ opc && opc ≤ 6) || (8 ≤ opc && opc ≤ 10) || (0x10 ≤ opc && opc ≤ 0x16) || (0x18 ≤ opc && opc ≤ 0x1A) ||
    (0x20 ≤ opc && opc ≤ 0x24) || (0x30 ≤ opc && opc ≤ 0x33) || (0x38 ≤ opc && opc ≤ 0x3B)

/-- R157: the home of a line within its controller. -/
def homeOf (line : Nat) : Nat :=
  (bits line 3 0) ^^^ (bits line 7 4) ^^^ (bits line 11 8) ^^^ (bits line 15 12)

/-! ### Header flits (R187 to R190) -/

/-- Fields side by side, from bit 0 up: (value, width). -/
def packBits : List (Nat × Nat) → Nat
  | [] => 0
  | (v, w) :: rest => v % 2 ^ w + 2 ^ w * packBits rest

/-- Table 8-5: the fields from information bit 23 on. A message of one line has one data flit. Internal messages keep their
fields in the same places (log entry 114, DESIGN CHOICE). -/
def cohFields (f : Flight) : List (Nat × Nat) :=
  let m := f.msg
  match opNet f.opc with
  | 0 => [(m.src.toNat, 7), (m.line.toNat, 40), (m.rtag.toNat, 8), (m.slot.toNat, 4), (b2n m.noalloc, 1), (b2n m.noown, 1),
      (b2n m.rcall, 1), (b2n m.lock, 1), (if f.opc = opWbD then m.mask.toNat else 0, 64)]
  | 1 => [(m.src.toNat, 7), (m.htag.toNat, 8), (m.line.toNat, 40), (m.slot.toNat, 4), (b2n m.fwd, 1), (m.reqid.toNat, 7),
      (m.rtag.toNat, 8)]
  | 2 => [(m.src.toNat, 7), (m.htag.toNat, 8), (m.rtag.toNat, 8), (m.line.toNat, 40), (m.slot.toNat, 4)]
  | _ => [(m.src.toNat, 7), (m.htag.toNat, 8), (m.rtag.toNat, 8), (m.line.toNat, 40), (m.slot.toNat, 4), (b2n m.grant, 1),
      (b2n m.poison, 1), (b2n m.write, 1), (0, 3), (if f.opc = opDataM then m.mask.toNat else 2 ^ 64 - 1, 64)]

/-- R188 to R190: the information bits of a packet's header; `route` gives [18:0], the fields that routers work on and
SRCEP. -/
def headerInfo (f : Flight) (route : Nat) : Nat := packBits ([(route, 19), (opCode f.opc, 4)] ++ cohFields f)

/-- R187: the header flit, or flits, of information bits: 31 of them and their parity bit in each of `groups` groups. -/
def headerFlit (groups info : Nat) : Nat :=
  packBits ((List.range groups).map (fun g =>
    let v := info / 2 ^ (31 * g) % 2 ^ 31
    (v + popCount v 31 % 2 * 2 ^ 31, 32)))

/-- R187, R196: every group of a header flit holds an even number of ones. -/
def headerOk (groups flit : Nat) : Bool :=
  (List.range groups).all (fun g => popCount (flit / 2 ^ (32 * g) % 2 ^ 32) 32 % 2 == 0)

/-- Table 8-2: 32-bit groups of a flit of a network: 160, 96, 96 and 576 bits. -/
def flitGroups (net : Nat) : Nat :=
  match net with
  | 0 => 5
  | 1 => 3
  | 2 => 3
  | _ => 18

/-- Table 8-2: header flits of a packet: two on SNP, else one. -/
def headerFlits (net : Nat) : Nat := if net = 1 then 2 else 1

/-- R187: header flit `k` of a packet with these information bits. -/
def flitOf (net info k : Nat) : Nat := headerFlit (flitGroups net) (info / 2 ^ (93 * k))

/-! ### Data flits (R190, R197) -/

/-- R190: a data flit: the line's bytes in [511:0], and eight check bytes, one for each 64-bit word. The (72,64) SECDED code
is the part's (log entry 6, DESIGN CHOICE). -/
def dataFlitOf (line : Line) : Nat :=
  line.toNat + 2 ^ 512 * packBits ((List.range 8).map (fun k => (Config.secded (line.toNat / 2 ^ (64 * k) % 2 ^ 64), 8)))

/-- R197: wrong bits of word `k` of a data flit, its check byte included. -/
def wordErrors (flips k : Nat) : Nat :=
  popCount (flips / 2 ^ (64 * k) % 2 ^ 64) 64 + popCount (flips / 2 ^ (512 + 8 * k) % 2 ^ 8) 8

/-- R197: words of a data flit with a single-bit error. -/
def wordsCorrected (flips : Nat) : Nat := ((List.range 8).filter (fun k => wordErrors flips k == 1)).length

/-- R197: a word of a data flit has two wrong bits, or more (log entry 115, DESIGN CHOICE). -/
def wordsBad (flips : Nat) : Bool := (List.range 8).any (fun k => 2 ≤ wordErrors flips k)

/-! ### Route fields (R188, R191 to R193) -/

/-- The route fields of a header: XDIR, XCNT, YDIR, YCNT and EJ. -/
structure RouteFields where
  xdir : Nat
  xcnt : Nat
  ydir : Nat
  ycnt : Nat
  ej   : Nat
deriving DecidableEq, Repr

/-- R192: the compact fields that a legal entry's hop codes become. -/
def routeFields (codes : List Nat) : RouteFields :=
  let n := fun (c : Nat) => (codes.filter (· == c)).length
  ⟨b2n (0 < n 1), n 0 + n 1, b2n (0 < n 3), n 2 + n 3, b2n (0 < n 5)⟩

/-- R188, R191: the route fields XDIR, XCNT, YDIR, YCNT and EJ that hop codes spell. -/
def headerRoute (codes : List Nat) : Nat :=
  let r := routeFields codes
  packBits [(r.xdir, 1), (r.xcnt, 3), (r.ydir, 1), (r.ycnt, 2), (r.ej, 1)]

/-- R193: hop `d` from router `r` crosses the dateline of its dimension. -/
def crosses (r d : Nat) : Bool :=
  match d with
  | 0 => r % 8 == 7
  | 1 => r % 8 == 0
  | 2 => r / 8 == 3
  | _ => r / 8 == 0

/-- The opposite direction of a link. -/
def backLink (d : Nat) : Nat := d ^^^ 1

/-! ### Packets -/

/-- The side direction that a packet's detour takes (R199). -/
def Pkt.side (p : Pkt) : Nat := if p.detX then 2 + p.dside else p.dside

/-- R192: the next hop of a packet's route; none where it ejects. -/
def Pkt.ahead (p : Pkt) : Option Nat :=
  if p.xcnt ≠ 0 then some p.xdir else if p.ycnt ≠ 0 then some (2 + p.ydir) else none

/-- R192, R199: the link by which a packet leaves the router next; none where it ejects. -/
def Pkt.next (p : Pkt) : Option Nat :=
  match p.detcnt with
  | 3 => some p.side
  | 1 => some (backLink p.side)
  | _ => p.ahead

/-- R193: the VC after a hop of the route. -/
def Pkt.vcAfter (p : Pkt) (d : Nat) : Nat :=
  if crosses p.at_ d then 1 else if 2 ≤ d && !p.turned then 0 else p.vc

/-- R192, R193, R199: a packet after a hop over link `d`. A side hop of a detour changes neither a count nor the VC. -/
def Pkt.hop (p : Pkt) (d : Nat) : Pkt :=
  let q := { p with at_ := neighbour p.at_ d, inp := backLink d, detcnt := p.detcnt - 1, retries := 0 }
  if p.detcnt = 3 || p.detcnt = 1 then q
  else if d < 2 then { q with xcnt := p.xcnt - 1, vc := p.vcAfter d }
  else { q with ycnt := p.ycnt - 1, vc := p.vcAfter d, turned := true }

/-- Table 8-3: information bits [18:0] of a packet's header as it stands. -/
def Pkt.route (p : Pkt) : Nat :=
  packBits [(p.xdir, 1), (p.xcnt, 3), (p.ydir, 1), (p.ycnt, 2), (p.ej, 1), (p.detcnt, 2), (p.dside, 1), (p.vc, 1),
    (p.epoch, 1), (p.src, 6)]

/-- The information bits of a packet's header as it stands. -/
def Pkt.info (p : Pkt) : Nat := headerInfo p.flight p.route

/-- The network of a packet. -/
def Pkt.net (p : Pkt) : Nat := opNet p.flight.opc

/-- The flits of a packet as it stands: its header flits, and the data flit of a line. -/
def Pkt.flits (p : Pkt) : List Nat :=
  (List.range (headerFlits p.net)).map (flitOf p.net p.info) ++ if p.net = 3 then [dataFlitOf p.flight.msg.data] else []

end Sys2Proof.Machine
end

