-- ==== Sys2Proof/Machine/Packet.lean ====
section
/-!
DEFINITION. Packets on the torus (R185, R191 to R195, R198 to R204): injection by the sender's table, hops, detours, the misroute
sink and its ERR, the order of delivery, and the arbitration of the output ports.
-/

namespace Sys2Proof.Machine

/-! ### Endpoints (Table 8-1) -/

/-- The station of a port: that of its first quad (R13). -/
def Sections.portStation (ss : Sections) (p : Nat) : Nat := (ss.unitQuads 1 p).headD 0 / 4

/-- The station of the first link to the member in slot `t`. -/
def Sections.peerStation (ss : Sections) (t : Nat) : Nat :=
  match (List.range 8).find? (fun n => ss.peer n == some t) with
  | some n => (ss.unitQuads 2 n).headD 0 / 4
  | none => 0

/-- Tables 7-1, 8-1: the endpoint of an agent: the station of an LD's port or of the link to a peer, a gallery, or the
control complex. -/
def State.agentEp (s : State) (a : Nat) : Nat :=
  if a < 64 then 32 + ((s.secs.ldEntry a).map (fun e => s.secs.portStation e.port)).getD 0
  else if a < 80 then a - 48
  else if a < 81 then 40
  else 32 + s.secs.peerStation ((s.slot + 1 + (a - 81)) % 16)

/-- The destination endpoint of a message. -/
def State.dstEp (s : State) (f : Flight) : Nat :=
  match f.dst with
  | .home => homeOf f.msg.line.toNat
  | .agent a => s.agentEp a
  | .ep e => e

/-- A message that a home sends: a snoop, an acceptance, and a completion or data that no agent forwards. -/
def fromHome (f : Flight) : Bool :=
  opNet f.opc == 1 || (f.dst != .home && f.msg.src.toNat < 64 && f.opc < 0x20)

/-- SRCEP of a message: that of the home, or of the agent, that sends it. MAPRD and WDONE carry the home in SRC, and come from it
and from the page's slice (log entry 114, DESIGN CHOICE). -/
def State.srcEp (s : State) (f : Flight) : Nat :=
  if f.opc = opMAPRD then f.msg.src.toNat
  else if f.opc = opWDONE then f.msg.line.toNat / 256 % 16
  else if fromHome f then homeOf f.msg.line.toNat
  else s.agentEp f.msg.src.toNat

/-! ### Injection (R192, R193, R203) -/

/-- R19, R192: the hop codes of the current route of a network from one endpoint to another; without a VALID entry, those of
the boot ROM (log entry 116, DESIGN CHOICE). -/
def State.routeOf (s : State) (src net dst : Nat) : List Nat :=
  let e := s.rd F.NOC_RT_CUR_ENTRY 0 (512 * src + 64 * net + dst)
  if e.testBit 40 then routeCodes e else dorCodes src dst

/-- A packet with these route fields at a router's input. -/
def mkPkt (f : Flight) (src dst epoch r inp : Nat) (codes : List Nat) : Pkt :=
  let x := routeFields codes
  { flight := f, src := src, dst := dst, epoch := epoch, at_ := r, inp := inp, xdir := x.xdir, xcnt := x.xcnt, ydir := x.ydir,
    ycnt := x.ycnt, ej := x.ej }

/-- R192, R203: the packet of a message as its NI injects it, on VC0 and with the current epoch. -/
def State.packet (s : State) (f : Flight) : Pkt :=
  let a := s.srcEp f
  let b := s.dstEp f
  mkPkt f a b (s.rd F.NOC_EPOCH_CUR) (epRouter a) (4 + (epPlace a).2.2) (s.routeOf a (opNet f.opc) b)

/-- R185: a message enters the network, unless it is between an endpoint and itself. -/
def State.inject (s : State) (f : Flight) : State :=
  { s with noc := { s.noc with pkts := if s.srcEp f = s.dstEp f then s.noc.pkts else s.noc.pkts ++ [s.packet f] } }

/-- The packet of a message. -/
def State.pktOf (s : State) (f : Flight) : Option Pkt := s.noc.pkts.find? (fun p => p.flight == f)

/-- Put a packet in the place of the first one of its message. -/
def putPkt (p : Pkt) : List Pkt → List Pkt
  | [] => []
  | q :: qs => if q.flight == p.flight then p :: qs else q :: putPkt p qs

def State.setPkt (s : State) (p : Pkt) : State := { s with noc := { s.noc with pkts := putPkt p s.noc.pkts } }

/-- Take the packet of a message away. -/
def State.dropPkt (s : State) (f : Flight) : State :=
  { s with noc := { s.noc with pkts := s.noc.pkts.eraseP (fun p => p.flight == f) } }

/-! ### Links and detours (R198 to R200) -/

/-- A link has failed, or is not in use (log entry 117, DEDUCED). -/
def State.failed (s : State) (r d : Nat) : Bool :=
  s.rdBit F.NOC_RTR_STAT_FAILED d 0 r || !s.rdBit F.NOC_RTR_LINK_LINK_EN d 0 r

/-- The ring of a link: the row of an X link, the column of a Y link. -/
def ringOf (r d : Nat) : Nat := if d < 2 then r / 8 else 4 + r % 8

/-- R199: the side direction of the detour of a link. -/
def State.sideOf (s : State) (r d : Nat) : Nat :=
  let one := b2n (s.rdBit F.NOC_RTR_DETOUR_SIDE d 0 r)
  if d < 2 then 2 + one else one

/-- R200: a hop over a failed link can be detoured. -/
def State.canDetour (s : State) (r d : Nat) : Bool :=
  let side := s.sideOf r d
  let n := neighbour r side
  s.on F.NOC_CTL_DETOUR_EN && s.rdBit F.NOC_RTR_DETOUR_EN d 0 r &&
    !s.failed r side && !s.failed n d && !s.failed (neighbour n d) (backLink side) &&
    s.noc.detours.all (fun x => ringOf x.1 x.2 != ringOf r d ||
      (x == (r, d) || x == (neighbour r d, backLink d)))

/-- R199: a packet begins the detour of its next hop, over link `d`. -/
def State.detour (s : State) (p : Pkt) (d : Nat) : Pkt × State :=
  let s := (s.bump F.NOC_RTR_ERR_DETOURED 1 0 p.at_).counts 61 evDetour
  let s := if s.noc.detours.contains (p.at_, d) then s
    else { s with noc := { s.noc with detours := s.noc.detours ++ [(p.at_, d)] } }
  ({ p with detcnt := 3, dside := b2n (s.rdBit F.NOC_RTR_DETOUR_SIDE d 0 p.at_), detX := decide (d < 2) }, s)

/-! ### The misroute sink (R201) -/

/-- R201: the fields of the ERR for a packet: its HTAG, RTAG, LINE and SLOT, and in place of SRC its network and OPC. -/
def errMsg (f : Flight) : CohMsg :=
  { src := BitVec.ofNat 7 (opNet f.opc + 4 * opCode f.opc), htag := f.msg.htag, rtag := f.msg.rtag, line := f.msg.line,
    slot := f.msg.slot }

/-- R201: the ERR that the router at which a packet stands sends to its source, on RSP, by the minimal dimension-ordered route
of its own. -/
def State.errPkt (s : State) (p : Pkt) : Pkt :=
  let (x, y, port) := epPlace p.src
  let (dx, nx) := ringHops 8 (p.at_ % 8) x
  let (dy, ny) := ringHops 4 (p.at_ / 8) y
  mkPkt ⟨opERR, .ep p.src, errMsg p.flight⟩ p.src p.src (s.rd F.NOC_EPOCH_CUR) p.at_ 4
    (List.replicate nx dx ++ List.replicate ny (2 + dy) ++ [4 + port])

/-- R201: what a router's sink counts and shows: information bits [63:0] of the header. -/
def State.sunk (s : State) (r hdr : Nat) : State :=
  let s := (s.wr F.NOC_RTR_SINK_LAST_HDR hdr 0 r).bump F.NOC_RTR_ERR_SINK 1 0 r
  ((s.bump F.NOC_ERR_SINK).set F.NOC_IRQ_SINK).counts 61 evSunk

/-- R201: the ERR of a packet is on its way. One that is sunk itself is answered by nothing. -/
def State.sendErr (s : State) (p : Pkt) : State :=
  if p.flight.opc = opERR then
    { s with noc := { s.noc with errs := s.noc.errs.eraseP (fun f => errMsg f == p.flight.msg) } }
  else { s with noc := { s.noc with errs := s.noc.errs ++ [p.flight], pkts := s.noc.pkts ++ [s.errPkt p] } }

/-- R201: the sink of the router at which a packet stands absorbs it, and sends ERR to its source. -/
def State.sink (s : State) (p : Pkt) : State :=
  let s := (s.dropPkt p.flight).sunk p.at_ (p.info % 2 ^ 64)
  ({ s with coh := { s.coh with flight := s.coh.flight.erase p.flight } }).sendErr p

/-- R201, R204: a packet of another epoch at a router whose links have been reconfigured. -/
def State.stale (s : State) (p : Pkt) : Bool := p.epoch != s.rd F.NOC_EPOCH_CUR && s.noc.reconf.contains p.at_

/-! ### Travel -/

/-- R192, R199, R200: one hop of a packet, over link `d`; `none`: the hop is unroutable. -/
def State.hopOver (s : State) (p : Pkt) (d : Nat) : Option (Pkt × State) :=
  if !s.failed p.at_ d then some (p.hop d, s)
  else if p.detcnt = 0 && s.canDetour p.at_ d then
    let (p, s) := s.detour p d
    some (p.hop p.side, s)
  else none

/-- A packet takes the hops it has still to take, and is ejected at its destination; `none`: a sink has absorbed it. The first
argument bounds the hops. -/
def State.travel : Nat → State → Pkt → Option Pkt × State
  | 0, s, p => (some p, s)
  | n + 1, s, p =>
    if p.ejected then (some p, s)
    else if s.stale p then (none, s.sink p)
    else match p.next with
      | none => let p := { p with ejected := true }; (some p, s.setPkt p)
      | some d =>
        match s.hopOver p d with
        | none => (none, s.sink p)
        | some (p, s) => State.travel n (s.setPkt p) p

/-- R195, R208: an earlier packet of the same network, source, destination and epoch has not been delivered, or one that a
domain held at this boundary. -/
def State.overtaken (s : State) (p : Pkt) : Bool :=
  (s.noc.pkts.takeWhile (fun q => q.flight != p.flight)).any (fun q =>
    q.net == p.net && q.dst == p.dst && ((q.src == p.src && q.epoch == p.epoch) || q.freed))

/-- R195: a message is brought to its destination's boundary. `false`: it is not there yet, an earlier packet comes first, or a
sink has absorbed it. What is no packet, a message that has not crossed the torus, is there. -/
def State.bring (s : State) (f : Flight) : Bool × State :=
  match s.pktOf f with
  | none => (true, s)
  | some p =>
    if s.overtaken p then (false, s)
    else
      let (q, s) := State.travel 20 s p
      (q.isSome, s)

/-! ### Output ports (R194) -/

/-- The output port that a packet asks for: a link, or 4 + EJ. -/
def Pkt.port (p : Pkt) : Nat := p.next.getD (4 + p.ej)

/-- The input VC that a packet stands in. -/
def Pkt.inVc (p : Pkt) : Nat := 2 * p.inp + p.vc

/-- The detour buffer of an input, or the buffer of a VC. -/
def Pkt.sameBuf (p q : Pkt) : Bool :=
  p.at_ == q.at_ && p.inp == q.inp && p.net == q.net && (p.detcnt == 0) == (q.detcnt == 0) &&
    (p.detcnt != 0 || p.vc == q.vc)

/-- A packet stands at the head of its buffer. -/
def State.atHead (s : State) (p : Pkt) : Bool :=
  !(s.noc.pkts.takeWhile (fun q => q.flight != p.flight)).any (fun q => !q.ejected && q.sameBuf p)

/-- R193, R199: the buffer that a packet would enter has room: that of a VC, or the one place of a detour buffer. -/
def State.hasRoom (s : State) (p : Pkt) : Bool :=
  let n := (s.noc.pkts.filter (fun q => !q.ejected && q.sameBuf p)).length
  if p.detcnt = 0 then decide (n < Config.vcDepth) else n == 0

/-- R194: the packets that may pass an output port now: at the head of their buffers, with room ahead. -/
def State.asking (s : State) (r o net : Nat) : List Pkt :=
  s.noc.pkts.filter (fun p => !p.ejected && p.at_ == r && p.net == net && p.port == o && s.atHead p &&
    (match p.next with
      | none => true
      | some d => s.failed r d || s.hasRoom (p.hop d)))

/-- R194: the packet that an output port takes: of a detour buffer first, else by round robin among the input VCs. -/
def State.granted (s : State) (r o net : Nat) : Option Pkt :=
  let ps := s.asking r o net
  match ps.find? (fun p => p.detcnt != 0) with
  | some p => some p
  | none =>
    let t := smGet 0 s.noc.turns ((r * 6 + o) * 4 + net)
    (List.range 12).findSome? (fun k => ps.find? (fun p => p.inVc == (t + k) % 12))

/-- One pass of a packet through its router. -/
def State.pass (s : State) (p : Pkt) : State :=
  let key := (p.at_ * 6 + p.port) * 4 + p.net
  let s := if p.detcnt != 0 then s
    else { s with noc := { s.noc with turns := smSet 0 s.noc.turns key ((p.inVc + 1) % 12) } }
  (State.travel 1 s p).2

/-- R194: one CCLK of the network: every output port passes one packet of each network. -/
def State.torus (s : State) : State :=
  if s.noc.pkts.all (·.ejected) then s
  else
    let won := (List.range 32).flatMap (fun r => (List.range 6).flatMap (fun o => (List.range 4).filterMap (fun k =>
      s.granted r o k)))
    s.forEach won State.pass

/-! ### The drain of an epoch (R203) -/

/-- R203: OLD_CNT: packets of the old epoch in a router's buffers and on its links. -/
def State.oldCnt (s : State) (r net : Nat) : Nat :=
  (s.noc.pkts.filter (fun p => !p.ejected && p.at_ == r && p.net == net && p.epoch != s.rd F.NOC_EPOCH_CUR)).length

/-- Show OLD_CNT of a router. -/
def State.showOld (s : State) (r : Nat) : State :=
  (((s.wr F.NOC_RTR_OLD_CNT_REQ (s.oldCnt r 0) 0 r).wr F.NOC_RTR_OLD_CNT_SNP (s.oldCnt r 1) 0 r).wr
    F.NOC_RTR_OLD_CNT_RSP (s.oldCnt r 2) 0 r).wr F.NOC_RTR_OLD_CNT_DAT (s.oldCnt r 3) 0 r

/-- R203: OLD_CNT of every router reads zero. -/
def State.oldDone (s : State) : Bool := s.noc.pkts.all (fun p => p.ejected || p.epoch == s.rd F.NOC_EPOCH_CUR)

end Sys2Proof.Machine
end

