-- ==== Sys2Proof/Machine/NocOps.lean ====
section
/-!
DEFINITION. Messages on the torus: sending one, and its arrival at an endpoint whose domain may be fenced (R207,
R208).
-/

namespace Sys2Proof.Machine

/-- The power domain of a destination (R206); `none` for what is always on. -/
def State.domOf (s : State) (f : Flight) : Option Nat :=
  match f.dst with
  | .home => some (homeOf f.msg.line.toNat)
  | .agent a =>
    if a < 64 then (s.secs.ldEntry a).map (fun e => 32 + s.secs.portStation e.port)
    else if a < 80 then some (16 + (a - 64)) else none
  | .ep e => if e < 40 then some e else none

/-- What R207 and R208 keep for a domain. -/
def State.dom (s : State) (d : Nat) : DomSt := smGet {} s.noc.doms d

/-- Change what is kept for a domain; HELD follows. -/
def State.onDom (s : State) (d : Nat) (f : DomSt → DomSt) : State :=
  let x := f (s.dom d)
  ({ s with noc := { s.noc with doms := smSet {} s.noc.doms d x } }).wr F.NOC_DOM_STATUS_HELD
    (x.held.length + x.blks.length) 0 d

/-- R208: a wake of a fenced domain is requested; it clears CTL.FENCE and the floor logic's request. -/
def State.wakeDom (s : State) (d : Nat) : State :=
  if s.rd F.NOC_DOM_STATUS_STATE 0 d = domFENCED then
    let s := ((s.wr F.NOC_DOM_STATUS_STATE domWAKING 0 d).clear F.NOC_DOM_CTL_FENCE 0 d).counts 63 evDomWake
    s.onDom d (fun x => { x with want := false })
  else s

/-- R208: room in a domain's hold queue of a network. -/
def State.holdRoom (s : State) (d net : Nat) : Bool :=
  ((s.dom d).held.filter (fun x => x.1 == net)).length + (if net = 3 then (s.dom d).blks.length else 0) <
    (if net = 0 then 32 else 16)

/-- R125, R131, R143: a gallery decrypts and decodes a block that it received, for every read that waits for it. A block
that no read waits for, because its decode has answered them, is not decoded again. -/
def State.blkDecode (s : State) (g page block : Nat) (ct : Bytes) : State :=
  let r := s.runOf page (s.pme page)
  let (k, gen) := s.runKey r
  let n := ct.length / 64
  let waits := s.map.reqs.any (fun q => !q.write && q.st == .served && q.got.isNone && q.line / 8 == 8 * page + block)
  let done := s.map.reqs.any (fun q => !q.write && q.st == .served && q.line / 8 == 8 * page + block) && !waits
  if n = 0 || done then s
  else
    let s := s.countDec g (s.pme page).tier
    match storedDecode n (k.dec (runTweak r.page block r.ver gen) ct) with
    | .ok d => s.shareBlock page block (.ok d)
    | .error e => (s.treadFail g r.page block false e).shareBlock page block (.tread e)

/-- R93, R208: a block reaches the boundary of a gallery that is down. -/
def State.holdBlk (s : State) (g page block : Nat) (ct : Bytes) : State :=
  if (s.dom (16 + g)).blks.any (fun x => x.1 == page && x.2.1 == block) then s.wakeDom (16 + g)
  else if s.holdRoom (16 + g) 3 then
    (s.onDom (16 + g) (fun x => { x with blks := x.blks ++ [(page, block, ct)] })).wakeDom (16 + g)
  else s

/-- R207, R208: a packet that has reached the domain is held there. -/
def State.holdAt (s : State) (d : Nat) (f : Flight) : State :=
  (s.onDom d (fun x => { x with held := x.held ++ [(opNet f.opc, f)] })).wakeDom d

/-- R207, R208: the domain holds a packet of this network. -/
def State.domHolds (s : State) (d net : Nat) : Bool :=
  s.domDown d || (s.rd F.NOC_DOM_STATUS_STATE 0 d == domDRAINING && net == 0)

/-- Send a message on the torus. -/
def State.send (s : State) (f : Flight) : State :=
  { s with coh := { s.coh with flight := s.coh.flight ++ [f] } }.inject f

/-- A source issues a request: it is followed until its completion (R320, R323). `opc` and `hpa` are those of its record
(Table 14-3). -/
def State.request (s : State) (f : Flight) (master : Nat) (opc : Nat := f.opc) (hpa : Nat := 0) : State :=
  let m := f.msg
  (s.txnBegin { id := 0, agent := m.src.toNat, tag := m.rtag.toNat, slot := m.slot.toNat, line := m.line.toNat, opc := opc,
                hpa := hpa, master := master, cls := reqClass m.src.toNat f.opc, st := 0, cclk := 0 }).send f

/-- Take a message off the torus, if it is there. -/
def State.unsend (s : State) (f : Flight) : State :=
  { s with coh := { s.coh with flight := s.coh.flight.erase f } }.dropPkt f

/-- R208: what a domain holds is delivered in arrival order per network, before any later packet: it stands at the boundary,
ahead of what is on the torus. -/
def State.releaseHeld (s : State) (d : Nat) : State :=
  let l := (s.dom d).held.map (·.2)
  let bs := (s.dom d).blks
  let s := s.onDom d (fun x => { x with held := [], blks := [] })
  let s := s.forEach bs (fun s b => s.blkDecode (d - 16) b.1 b.2.1 b.2.2)
  let ps := l.map (fun f => { s.packet f with ejected := true, freed := true })
  { s with coh := { s.coh with flight := l.filter (fun f => f.opc < 0x20) ++ s.coh.flight },
           noc := { s.noc with pkts := ps ++ s.noc.pkts } }

/-- R208, R209: a domain is ON. -/
def State.domGo (s : State) (d : Nat) : State :=
  (s.wr F.NOC_DOM_STATUS_STATE domON 0 d).releaseHeld d

/-- R209: the drain of a domain ends. -/
def State.endDrain (s : State) (d : Nat) : State :=
  if s.rd F.NOC_DOM_STATUS_STATE 0 d = domDRAINING then
    let s := (s.clear F.NOC_DOM_CTL_FENCE 0 d).onDom d (fun x => { x with want := false })
    let s := s.when (16 ≤ d && d < 32) (fun s => s.onGal (d - 16) (fun g => { g with flush := false }))
    s.domGo d
  else s

/-- R202: a request has reached its destination: it is no longer one that has been reinjected. -/
def State.landed (s : State) (f : Flight) : State :=
  let s := s.unsend f
  { s with noc := { s.noc with again := s.noc.again.erase f } }

/-- A message reaches its endpoint, once it has crossed the torus: held at a fenced or draining boundary, kept at the ejection
port where the hold queue is full, and otherwise acted on. -/
def State.arrive (s : State) (f : Flight) (act : State → State) : State :=
  let (there, s) := s.bring f
  if !there then s
  else match s.domOf f with
    | none => act (s.landed f)
    | some d =>
      if s.domHolds d (opNet f.opc) then
        if s.holdRoom d (opNet f.opc) then (s.landed f).holdAt d f else s
      else act (s.landed f)

end Sys2Proof.Machine
end

