-- ==== Sys2Proof/Machine/Tol.lean ====
section
/-!
DEFINITION. Latency tolerances (R74, R75): the slot of an LD in its port, its effective tolerance, whether it is active,
and the minimum over active LDs with what the Span reports (R240).
-/

namespace Sys2Proof.Machine

/-- No requirement (R74). -/
def tolNONE : Nat := 0xFFFFFFFF

/-- Table 3-11: port and slot index of an LD's entry. -/
def Sections.ldSlot (ss : Sections) (e : LdEntry) : Nat := (ss.portLds e.port).findIdx (fun x => x.ld == e.ld)

/-- R75: the effective tolerance of an LD as its STAT register shows it. -/
def State.ldTol (s : State) (e : LdEntry) : Nat := s.rd F.PRT_LD_STAT_TOL_NS e.port (s.secs.ldSlot e)

/-- R75: an LD is active: its port is up, Mem Enable is set, and an HDM decoder is committed. -/
def State.ldActive (s : State) (e : LdEntry) : Bool :=
  s.on F.PRT_LINK_UP e.port && (s.ld e.ld).memEnable && (s.ld e.ld).hdm.any (fun x => x.2.committed)

/-- R75: show an LD's activity and tolerance in its STAT register. -/
def State.showLd (s : State) (e : LdEntry) : State :=
  let k := s.secs.ldSlot e
  let d := s.ld e.ld
  let tol := if s.on F.PRT_LD_OVR_OVR_EN e.port k then s.rd F.PRT_LD_OVR_OVR_NS e.port k
    else min d.snoopNs d.noSnoopNs
  (s.wr F.PRT_LD_STAT_TOL_NS tol e.port k).wr F.PRT_LD_STAT_ACTIVE (b2n (s.ldActive e)) e.port k

/-- Show every LD of a port. -/
def State.showPort (s : State) (p : Nat) : State := s.forEach (s.secs.portLds p) State.showLd

/-- The active LDs. -/
def State.activeLds (s : State) : List LdEntry := s.secs.ldl.filter s.ldActive

/-- The smallest tolerance over the active LDs of this controller; `none` when none is active. -/
def State.ownTol (s : State) : Option Nat :=
  match s.activeLds.map s.ldTol with
  | [] => none
  | t :: ts => some (ts.foldl min t)

/-- R240: CWK_SPAN_TOL, the tolerances received over ACTIVE links in the last 4 µs; 0xFFFF_FFFF if none. -/
def State.spanTol (s : State) : Nat :=
  (List.range 8).foldl (fun a n =>
    (smGet {} s.links n).tols.foldl (fun a x => min a (min x.1 x.2)) a) tolNONE

/-- R75, R240: the minimum of R206 and the floor selection; `none` when no LD is active here and the Span reports no
requirement. -/
def State.minTol (s : State) : Option Nat :=
  let sp := s.spanTol
  match s.ownTol with
  | some t => some (min t sp)
  | none => if sp = tolNONE then none else some sp

end Sys2Proof.Machine
end

