-- ==== Sys2Proof/Machine/Floor.lean ====
section
/-!
DEFINITION. Power floors as far as a change of an input reaches them at once (R343, R344, R348, R349): the target, the
exit from floors that are too deep, and the Loft tolerances. Entry is Machine/Floors.
-/

namespace Sys2Proof.Machine

/-- Table 15-1: the wake bound of a floor, in ns. -/
def floorBound (f : Nat) : Nat :=
  match f with
  | 0 => 0
  | 1 => 50
  | 2 => 200
  | 3 => 3000
  | _ => 60000

/-- R343: Tmin; `none`: unbounded. -/
def State.tMin (s : State) : Option Nat := if s.on F.PWR_STATUS_TOL_SEEN then s.minTol else some 0

/-- A time in ns is at most 90 % of a tolerance. -/
def within (ns : Nat) (tol : Option Nat) : Bool :=
  match tol with
  | none => true
  | some t => ns * 10 ≤ t * 9

/-- R343: the tolerance floor FT. -/
def tolFloor (tol : Option Nat) : Nat := ((List.range 5).filter (fun f => within (floorBound f) tol)).foldl max 0

/-- R389: the deepest floor that the debug session permits. -/
def State.secLimit (s : State) : Nat := if s.rd F.DBG_STATUS_LEVEL = 2 then 2 else 4

/-- A station has a port or link up. -/
def State.stationUp (s : State) (p : Nat) : Bool :=
  (List.range 16).any (fun n => s.on F.PRT_LINK_UP n && s.secs.portStation n == p) ||
  (List.range 8).any (fun k => s.rd F.CWK_STATUS_STATE k == 3 && (s.secs.unitQuads 2 k).any (fun q => q / 4 == p))

/-- Table 15-2: the domains that Floor 3 fences. -/
def State.floor3Doms (s : State) : List Nat :=
  ((List.range 16).map (· + 16)).filter (fun d => (s.secs.pdm d).2) ++
    ((List.range 8).filter (fun p => !s.stationUp p)).map (· + 32)

/-- R206: a fence of the domain is refused. -/
def State.fenceRefused (s : State) (d : Nat) : Bool :=
  !(s.secs.pdm d).1 || !within (s.rd F.NOC_DOM_WAKE_WAKE_NS 0 d) s.minTol || (32 ≤ d && s.stationUp (d - 32))

/-- R343: TARGET and its inputs. -/
def State.showTarget (s : State) : State :=
  let t := s.tMin
  let ft := tolFloor t
  let cap := s.rd F.TIM_FLOORCAP_MIN_FLOOR
  let s := s.wr F.PWR_STATUS_TMIN_NS (t.getD tolNONE)
  let s := s.wr F.PWR_STATUS_TOL_FLOOR ft
  let s := s.wr F.PWR_STATUS_CAP cap
  let s := s.wr F.PWR_STATUS_SEC_LIMIT s.secLimit
  s.wr F.PWR_STATUS_TARGET (min (max (min ft (s.rd F.PWR_CTL_MAX_FLOOR)) cap) s.secLimit)

/-- R348: the cap asks for a floor that R206 does not let the controller reach. -/
def State.showCap (s : State) : State :=
  let unmet := 3 ≤ s.rd F.PWR_STATUS_CAP && s.floor3Doms.any s.fenceRefused
  let s := if unmet && !s.on F.PWR_STATUS_CAP_UNMET then s.set F.PWR_IRQ_CAP_UNMET else s
  let s := s.wr F.PWR_STATUS_CAP_UNMET (b2n unmet)
  s.wr F.PWR_STATUS_THROTTLE (b2n (unmet && s.on F.PWR_CAP_LPUS_LPUS))

/-- R344: FLOOR becomes `f`. A FIRMWARE session that waits for Floor 2 opens (R389). -/
def State.setFloor (s : State) (f : Nat) : State :=
  if s.rd F.PWR_STATUS_FLOOR = f then s else 
    let s := ((s.wr F.PWR_STATUS_FLOOR f).set F.PWR_IRQ_FLOOR).counts 63 evFloor
    if f ≤ 2 then s.clear F.DBG_STATUS_PENDING else s

/-- Every rank of the channels that are trained: (channel, rank). -/
def allRanks : List (Nat × Nat) := (List.range 16).flatMap (fun c => (List.range 4).map (fun r => (c, r)))

/-- Table 15-2: the exit steps of a floor. -/
def State.exitSteps (s : State) (f : Nat) : State :=
  match f with
  | 4 =>
    let wake := fun (c : CoreSt) => if c = .wfi then .running else c
    { s with cc := { s.cc with cores := s.cc.cores.map wake }, pwr := { s.pwr with selfRef := [] } }
  | 3 => s.forEach s.pwr.fenced (fun s d => (s.endDrain d).wakeDom d)
  | 2 => s.forEach allRanks (fun s x =>
      if s.rd F.DRC_RANK_STATUS_STATE x.1 x.2 = rankPOWERDOWN ∧ s.secs.loftRank x.1 x.2 = false then
        s.wr F.DRC_RANK_STATUS_STATE rankACTIVE x.1 x.2 else s)
  | _ => s

/-- Domains that the floor logic fenced and that are not ON yet. -/
def State.floorWaits (s : State) : Bool := s.pwr.fenced.any (fun d => s.rd F.NOC_DOM_STATUS_STATE 0 d != domON)

/-- R344, Table 15-3: run the exit steps of every floor below TARGET, from the deepest up; the exit from Floor 3 ends
when its domains are ON. The first argument bounds the steps. -/
def State.riseN : Nat → State → State
  | 0, s => s
  | n + 1, s =>
    let t := s.rd F.PWR_STATUS_TARGET
    let f := s.rd F.PWR_STATUS_FLOOR
    let deep := if s.pwr.entering then f + 1 else f
    if deep ≤ t then (if s.pwr.entering then s else s.clear F.PWR_STATUS_TRANS)
    else
      let s := (s.exitSteps deep).clear F.PWR_STATUS_BLOCK
      if deep = 3 ∧ s.floorWaits then
        { s with pwr := { s.pwr with entering := false } }.set F.PWR_STATUS_TRANS
      else
        let s := if deep = 3 then { s with pwr := { s.pwr with fenced := [] } } else s
        let s := if f < deep then s else s.setFloor (deep - 1)
        State.riseN n { s with pwr := { s.pwr with entering := false } }

/-- R344: the floor rises at once where it is deeper than TARGET. -/
def State.rise (s : State) : State := State.riseN 10 s

/-! ### Loft tolerance (R349) -/

/-- R349: the Loft tolerance of a rank group. -/
def State.loftTol (s : State) (k : Nat) : Nat :=
  let act := s.activeLds
  (List.range 8).foldl (fun a n =>
    if s.on F.PWR_LOFT_NS_VALID 0 n && s.rdBit F.PWR_LOFT_RG_RG_MASK k 0 n &&
        act.any (fun e => s.rdBit F.PWR_LOFT_LD_LD_MASK e.ld 0 n)
    then min a (s.rd F.PWR_LOFT_NS_LOFT_NS 0 n) else a) tolNONE

/-- R349: show the tolerances, and wake the parked ranks of a group whose tolerance is below 2,000 ns. -/
def State.showLoft (s : State) : State :=
  s.forEach (List.range 16) (fun s k =>
    let t := s.loftTol k
    let s := s.wr F.PWR_LTOL_LOFT_NS t 0 k
    if t < 2000 then
      match s.map.groups.find? (fun g => g.idx == k) with
      | none => s
      | some g => s.forEach g.chans (fun s c =>
          s.rouse c g.r)
    else s)

/-- R240: CWK_SPAN_TOL is the sum of what the peers report. -/
def State.showSpanTol (s : State) : State := s.wr F.CWK_SPAN_TOL_TOL_NS s.spanTol

/-- An input of R343, R348 or R349 has changed. -/
def State.retarget (s : State) : State := s.showSpanTol.showTarget.showCap.showLoft.rise

/-- R75: activity or tolerance of LDs has changed. -/
def State.showTols (s : State) : State := (s.forEach s.secs.ldl State.showLd).retarget

end Sys2Proof.Machine
end

