-- ==== Sys2Proof/Machine/CwkCode.lean ====
section
/-!
DEFINITION. The Catwalk flit as bytes (Table 9-1): CRC-64 (R212), the three-way interleaved Reed–Solomon code (R213,
R214), and the header unit (Table 9-2).
-/

namespace Sys2Proof.Machine

/-- R212: one bit of the CRC register. -/
def crcBit (r : Nat) (b : Bool) : Nat :=
  let t := r * 2 % 2 ^ 64
  if r.testBit 63 != b then t ^^^ 0x42F0E1EBA9EA3693 else t

/-- R212: one byte, bit 7 first. -/
def crcByte (r : Nat) (b : Byte) : Nat :=
  (List.range 8).foldl (fun r i => crcBit r (b.toNat.testBit (7 - i))) r

/-- R212: CRC-64 of bytes. -/
def crc64 (bs : Bytes) : Nat := (bs.foldl crcByte (2 ^ 64 - 1)) ^^^ (2 ^ 64 - 1)

/-- R213: the bytes of interleave `k`. -/
def fecLane (k : Nat) (bs : Bytes) : List Nat := (bs.zipIdx.filter (fun x => x.2 % 3 == k)).map (fun x => x.1.toNat)

/-- The value of a codeword at a point, first byte the highest power. -/
def fecEval (l : List Nat) (x : Nat) : Nat := l.foldl (fun a c => rsMul a x ^^^ c) 0

/-- R213: the two check bytes of the data bytes of one interleave: the remainder of their polynomial times x² modulo
(x + 1)(x + α). -/
def fecCheck (l : List Nat) : Nat × Nat :=
  l.foldl (fun (r : Nat × Nat) c =>
    let t := r.1 ^^^ c
    (r.2 ^^^ rsMul 3 t, rsMul 2 t)) (0, 0)

/-- R213: bytes 0 to 249 with the six check bytes. -/
def fecAdd (bs : Bytes) : Bytes :=
  let c := fun k => fecCheck (fecLane k bs)
  bs ++ ([(c 1).1, (c 2).1, (c 0).1, (c 1).2, (c 2).2, (c 0).2].map (BitVec.ofNat 8))

/-- R214: decoding one interleave: the correction as (position in the interleave, value), none if clean, or failure. -/
def fecFind (l : List Nat) : Option (Option (Nat × Nat)) :=
  let s0 := fecEval l 1
  let s1 := fecEval l 2
  if s0 = 0 ∧ s1 = 0 then some none
  else if s0 = 0 ∨ s1 = 0 then none
  else
    match (List.range l.length).find? (fun i => rsMul s0 (rsAlpha (l.length - 1 - i)) == s1) with
    | some i => some (some (i, s0))
    | none => none

/-- R214: a received flit after FEC: the bytes, how many of them were corrected, and whether every interleave is
correctable. -/
def fecDecode (bs : Bytes) : Bytes × Nat × Bool :=
  (List.range 3).foldl (fun (a : Bytes × Nat × Bool) k =>
    match fecFind (fecLane k a.1) with
    | none => (a.1, a.2.1, false)
    | some none => a
    | some (some (i, v)) =>
      let j := 3 * i + k
      (a.1.set j (BitVec.ofNat 8 ((byteAt a.1 j) ^^^ v)), a.2.1 + 1, a.2.2)) (bs, 0, true)

/-- R214: the corrections made in a received flit, and bytes 0 to 241 if it passes. -/
def flitPass (bs : Bytes) : Nat × Option Bytes :=
  let (b, n, ok) := fecDecode bs
  (n, if ok && le b 242 8 == crc64 (b.take 242) then some (b.take 242) else none)

/-- Table 9-1: the flit of 224 slot bytes, SEQ, ACK, the two credit returns (VC, COUNT) and the bypass message. -/
def flitBytes (slots : Bytes) (seq ack : Nat) (c0 c1 : Nat × Nat) (bypass : Nat) : Bytes :=
  let ret := fun (c : Nat × Nat) => toLE 3 (c.1 % 8 + c.2 % 2 ^ 21 * 8)
  let b := slots ++ toLE 2 seq ++ toLE 2 ack ++ ret c0 ++ ret c1 ++ toLE 8 bypass
  fecAdd (b ++ toLE 8 (crc64 b))

/-! ### The header unit (Table 9-2) -/

/-- The fields of a header unit. -/
structure CwkHdr where
  ut    : Nat
  vc    : Nat
  opc   : Nat
  ndu   : Nat
  src   : Nat
  sslot : Nat
  dslot : Nat
  line  : Nat
  rtag  : Nat
  htag  : Nat
  reqid : Nat
  flags : Nat
  relay : Bool
  zero  : Bool
deriving DecidableEq, Repr

/-- Table 9-2, read. `zero`: every zero field is zero. -/
def cwkHdr (h : Nat) : CwkHdr :=
  ⟨bits h 3 0, bits h 6 4, bits h 13 8, bits h 17 14, bits h 24 18, bits h 28 25, bits h 32 29, bits h 72 33,
   bits h 80 73, bits h 88 81, bits h 95 89, bits h 100 96, h.testBit 101, !h.testBit 7 && bits h 127 102 == 0⟩

/-- Table 9-2, written. -/
def CwkHdr.word (h : CwkHdr) : Nat :=
  h.ut % 16 + h.vc % 8 * 2 ^ 4 + h.opc % 64 * 2 ^ 8 + h.ndu % 16 * 2 ^ 14 + h.src % 128 * 2 ^ 18 +
  h.sslot % 16 * 2 ^ 25 + h.dslot % 16 * 2 ^ 29 + h.line % 2 ^ 40 * 2 ^ 33 + h.rtag % 256 * 2 ^ 73 +
  h.htag % 256 * 2 ^ 81 + h.reqid % 128 * 2 ^ 89 + h.flags % 32 * 2 ^ 96 + b2n h.relay * 2 ^ 101

/-- MASKX. -/
def CwkHdr.maskx (h : CwkHdr) : Bool := h.flags.testBit 4

/-- Slots that a packet costs (R219). -/
def CwkHdr.cost (h : CwkHdr) : Nat := 1 + b2n h.maskx + 4 * h.ndu

/-- The units of a packet (R215), 16 bytes each. -/
def cwkUnits (hdr : Nat) (mask : Nat) (data : Nat) : List Bytes :=
  let h := cwkHdr hdr
  [toLE 16 hdr] ++ (if h.maskx then [toLE 16 mask] else []) ++ (if h.ndu = 0 then [] else pieces16 (toLE 64 data))
where
  pieces16 (bs : Bytes) : List Bytes := (List.range 4).map (fun i => slice bs (16 * i) 16)

end Sys2Proof.Machine
end

