-- ==== Sys2Proof/Machine/CwkTx.lean ====
section
/-!
DEFINITION. The transmitting side of Catwalk: paths (R235), virtual channels and credits (R218 to R220), packets into
flits, sequence numbers, the replay buffer and the spill ring (R223 to R228), and the HELLO and bypass messages. A packet
that can start is put into flits at once; a flit leaves in the command that makes it, and those of a replay, and bypass
messages that fall due, with the ticks of the link (log entry 30, DESIGN CHOICE).
-/

namespace Sys2Proof.Machine

/-- Link states (Table 9-6). -/
def cwDOWN : Nat := 0
def cwTRAIN : Nat := 1
def cwINIT : Nat := 2
def cwACTIVE : Nat := 3
def cwRETRAIN : Nat := 4
def cwMISMATCH : Nat := 5

/-- A link. -/
def State.link (s : State) (n : Nat) : Link := smGet {} s.links n

/-- Change a link. -/
def State.onLink (s : State) (n : Nat) (f : Link → Link) : State :=
  { s with links := smSet {} s.links n (f (s.link n)) }

/-- The state of a link. -/
def State.linkSt (s : State) (n : Nat) : Nat := s.rd F.CWK_STATUS_STATE n

/-- The used VCs of a link (Table 9-4). -/
def State.usedVcs (s : State) (n : Nat) : List Nat :=
  let v := s.secs.vcs n
  if v = 8 then List.range 8 else if 5 ≤ v then List.range 5 else if v = 4 then List.range 4 else
    if 2 ≤ v then List.range 2 else []

/-- Message classes: 0 REQ, 1 SNP, 2 RSP, 3 DAT, 4 MGT. -/
def cwkClass (opc : Nat) : Option Nat :=
  if [0x01, 0x02, 0x03, 0x04, 0x05, 0x06].contains opc then some 0
  else if [0x08, 0x09, 0x0A].contains opc then some 1
  else if 0x10 ≤ opc && opc ≤ 0x16 then some 2
  else if 0x18 ≤ opc && opc ≤ 0x1A then some 3
  else if 0x30 ≤ opc && opc ≤ 0x33 then some 4 else none

/-- Table 9-4: the VC of a class at a first hop. -/
def vcOf (vcs cls : Nat) : Nat :=
  if vcs < 4 then (if cls = 2 || cls = 3 then 1 else 0)
  else if cls = 4 then (if vcs = 4 || vcs = 8 then 0 else 4)
  else cls

/-- R216: data groups that an opcode implies. -/
def opcNdu (opc : Nat) : Nat := if [0x18, 0x19, 0x1A, 0x30, 0x33].contains opc then 1 else 0

/-! ### Paths (R235) -/

/-- ACTIVE links whose peer is slot `t`, rising. -/
def State.directLinks (s : State) (t : Nat) : List Nat :=
  (List.range 8).filter (fun n => s.secs.peer n == some t && s.linkSt n == cwACTIVE)

/-- Links to slot `t` that a packet may wait for: ACTIVE ones, else those in RETRAIN (R232; log entry 119, DEDUCED). -/
def State.linksTo (s : State) (t : Nat) : List Nat :=
  match s.directLinks t with
  | [] => (List.range 8).filter (fun n => s.secs.peer n == some t && s.linkSt n == cwRETRAIN)
  | ls => ls

/-- R235: the relay path to slot `t` over a link in state `st`: link and relay slot. -/
def State.relayLink (s : State) (t st : Nat) : Option (Nat × Nat) :=
  (List.range 8).findSome? (fun n =>
    match s.secs.peer n with
    | none => none
    | some r =>
      let h := (s.link n).hello
      if s.linkSt n == st && s.secs.vcs n == 8 && s.on F.CWK_CTL_RELAY_EN n &&
          byteAt h 20 == 1 && (le h 14 2).testBit t && r != t then some (n, r) else none)

/-- R235: the relay path to slot `t`. Over a link in RETRAIN it stands where nothing else does: packets wait for the link
(R232; log entry 119, DEDUCED). -/
def State.relayTo (s : State) (t : Nat) : Option (Nat × Nat) :=
  match s.relayLink t cwACTIVE, s.linksTo t with
  | some x, _ => some x
  | none, [] => s.relayLink t cwRETRAIN
  | none, _ => none

/-- R235: the links that packets for slot `t` take: the direct ones, or the one to a relay. -/
def State.pathLinks (s : State) (t : Nat) : List Nat :=
  if !(s.directLinks t).isEmpty then s.directLinks t
  else match s.relayTo t with
    | some x => [x.1]
    | none => s.linksTo t

/-- R235, R239: the path of a slot as (KIND, LINK, RELAY). -/
def State.pathOf (s : State) (t : Nat) : Nat × Nat × Nat :=
  if !s.secs.members.testBit t || t = s.slot then (0, 0, 0)
  else match s.directLinks t, s.relayTo t, s.linksTo t with
    | n :: _, _, _ => (1, n, 0)
    | [], some (n, r), _ => (2, n, r)
    | [], none, n :: _ => (1, n, 0)
    | [], none, [] => (3, 0, 0)

/-- The link that a packet for slot `t` takes now; management packets take the lowest. -/
def State.linkTo (s : State) (t line : Nat) (mgt : Bool) : Option Nat :=
  let ls := s.pathLinks t
  ls[if mgt then 0 else line % ls.length]?

/-- R239: slot `t` is reachable, and coherent with this member. -/
def State.reachable (s : State) (t : Nat) : Bool := s.rdBit F.CWK_SPAN_STATUS_REACHABLE t
def State.excluded (s : State) (t : Nat) : Bool := s.rdBit F.CWK_SPAN_STATUS_EXCLUDED t
def State.coherent (s : State) (t : Nat) : Bool := s.rdBit F.CWK_SPAN_STATUS_COHERENT t

/-- R177: the agent ID of the member in slot `t`, seen from slot `a`, and back. -/
def proxyId (a t : Nat) : Nat := 81 + (t + 31 - a) % 16
def proxySlot (a id : Nat) : Nat := (a + 1 + (id - 81)) % 16

/-! ### Flits -/

/-- R220: the reports of one flit, and the link after it: every used VC's reported count may rise by 48 a flit. -/
def State.returns (s : State) (n : Nat) : (Nat × Nat) × (Nat × Nat) × State :=
  let vs := s.usedVcs n
  let l := s.link n
  let rise := fun (m : SMap Nat) v =>
    let d := (smGet 0 l.freed v + 2 ^ 21 - smGet 0 l.told v) % 2 ^ 21
    smSet 0 m v ((smGet 0 l.told v + min 48 d) % 2 ^ 21)
  let told := vs.foldl rise l.told
  let pick := fun k => let v := vs.getD ((l.turn + k) % max 1 vs.length) 0; (v, smGet 0 told v)
  (pick 0, pick 1, s.onLink n (fun l => { l with told := told, turn := (l.turn + 2) % max 1 vs.length }))

/-- Table 9-5: a retrain target. -/
def targetBits (t : CwkTarget) : Nat :=
  t.width.toNat * 2 ^ 8 + t.rate.toNat * 2 ^ 12 + b2n t.fault * 2 ^ 15 +
    (match t.lane with | some x => x.toNat * 2 ^ 16 + 2 ^ 20 | none => 0)

/-- R240: a tolerance in units of 16 ns. -/
def tol16 (t : Option Nat) : Nat :=
  match t with
  | none => 0xFFFFFF
  | some t => if t = tolNONE then 0xFFFFFF else min 0xFFFFFE (t / 16)

/-- R240: PEERS, the smallest OWN received over ACTIVE links in the last 4 µs. -/
def State.peersTol (s : State) : Option Nat :=
  (List.range 8).foldl (fun a n =>
    if s.linkSt n == cwACTIVE then (s.link n).tols.foldl (fun a x => some (min x.1 (a.getD x.1))) a else a) none

/-- Table 9-5: REPLAY_REQ for the flit expected. -/
def State.replayMsg (s : State) (n : Nat) : Nat := 0x01 + s.rd F.CWK_SEQ_RX_EXPECT n * 2 ^ 8

/-- Table 9-5: WAKE_TOL. -/
def State.tolMsg (s : State) : Nat := 0x04 + tol16 s.ownTol * 2 ^ 8 + tol16 s.peersTol * 2 ^ 32

/-- Table 9-5: TIME. -/
def State.timeMsg (s : State) : Nat := 0x05 + s.st % 2 ^ 56 * 2 ^ 8

/-- R222: the bypass message of the next flit: REPLAY_REQ, RETRAIN_REQ, a changed WAKE_TOL, then TIME; with nothing due,
WAKE_TOL. Where REPLAY_REQ and RETRAIN_REQ are both due, flits carry them by turns (log entry 118, DESIGN CHOICE). -/
def State.bypassDue (s : State) (n : Nat) : Nat :=
  let l := s.link n
  if l.asking && !(l.said && l.ask.isSome) then s.replayMsg n
  else match l.ask with
    | some t => 0x02 + targetBits t
    | none => if l.timeDue && l.tolSent == some s.tolMsg then s.timeMsg else s.tolMsg

/-- R222: a bypass message is due on a link. -/
def State.bypassWaits (s : State) (n : Nat) : Bool :=
  let l := s.link n
  l.asking || l.ask.isSome || l.timeDue || l.tolSent != some s.tolMsg

/-- R222: a link has sent a bypass message. -/
def Link.spoke (l : Link) (b : Nat) : Link :=
  { l with said := b % 256 == 1, tolSent := if b % 256 = 4 then some b else l.tolSent, timeDue := l.timeDue && b % 256 != 5 }

/-- Drive one flit: its slots, SEQ and bypass message. ACK is the last SEQ accepted in order (R224). -/
def State.drive (s : State) (n : Nat) (slots : Bytes) (seq bypass : Nat) : State :=
  let ack := (s.rd F.CWK_SEQ_RX_EXPECT n + 65535) % 65536
  let (c0, c1, s) := s.returns n
  (s.onLink n (fun l => l.spoke bypass)).emit (.flit n (flitBytes slots seq ack c0 c1 bypass))

/-- R223: an idle flit. -/
def State.idleFlit (s : State) (n : Nat) : State :=
  s.drive n (List.replicate 224 0) (s.rd F.CWK_SEQ_TX_LAST n) (s.bypassDue n)

/-- An idle flit with a bypass message of its own. -/
def State.bypassFlit (s : State) (n bypass : Nat) : State :=
  s.drive n (List.replicate 224 0) (s.rd F.CWK_SEQ_TX_LAST n) bypass

/-! ### The replay buffer and the spill ring (R223 to R228) -/

/-- R224: SEQ `a` is after SEQ `b`. -/
def seqAfter (a b : Nat) : Bool :=
  let d := (a + 65536 - b) % 65536
  1 ≤ d && d ≤ 32767

/-- SEQ `a` is `b`, or after it. -/
def seqFrom (a b : Nat) : Bool := a == b || seqAfter a b

/-- SEQs of the unacknowledged flits of a link, oldest first. -/
def Link.unacked (l : Link) : List Nat := l.spilled.map (·.seq) ++ l.stored.map (·.1)

/-- R228: flits that a spill ring holds. -/
def Link.slots (l : Link) : Nat := 16 * l.ring.length

/-- R227: the counts of stored flits. -/
def State.showStored (s : State) (n : Nat) : State :=
  let l := s.link n
  let sp := l.spilled.length
  ((s.wr F.CWK_UNACK_UNACKED l.unacked.length n).wr F.CWK_UNACK_SPILLED sp n).wr F.CWK_STATUS_SPILLING (b2n (sp != 0)) n

/-- R228: page and line of line `i` of slot `k` of a spill ring. -/
def Link.ringLine (l : Link) (k i : Nat) : Nat × Nat := ((l.ring.getD (k / 16) (0, 0)).1, 4 * (k % 16) + i)

/-- R228: an access to a line of a spill ring goes before its channel through RT0, charged to the link's master. -/
def State.ringPost (s : State) (n p l : Nat) (write : Bool) : State :=
  match s.place ((s.pme p).loc * 4096 + 64 * l) with
  | some (c, cla) => s.postLine c cla write (81 + n) (some 0)
  | none => s

/-- The 256 bytes that a spilled flit takes: its slots, its SEQ, and zeros (log entry 121, DESIGN CHOICE). -/
def ringBytes (seq : Nat) (slots : Bytes) : Bytes := slots ++ toLE 2 seq ++ List.replicate 30 0

/-- R227, R228: the oldest flit of the replay buffer is written to the spill ring, under Hall encryption with the page's key. A
line of a page whose key slot is EMPTY is not written (R140). -/
def State.spill (s : State) (n : Nat) : State :=
  let l := s.link n
  match l.stored with
  | [] => s
  | (seq, slots) :: rest =>
    let k := l.ringAt
    let s := s.forEach (List.range 4) (fun s i =>
      let (p, j) := l.ringLine k i
      if s.keyUp (s.pme p).key then (s.putHall p j (slice (ringBytes seq slots) (64 * i) 64) false).ringPost n p j true
      else s.emptyUse)
    let out : Spilled := ⟨seq, k, le slots 0 16⟩
    s.onLink n (fun l => { l with stored := rest, spilled := l.spilled ++ [out], ringAt := (k + 1) % max 1 l.slots })

/-- R227: a flit's slots are read back from the spill ring; `none`: uncorrectable. -/
def State.unspill (s : State) (n k : Nat) : Option Bytes × State :=
  let l := s.link n
  let ls := (List.range 4).map (fun i =>
    let (p, j) := l.ringLine k i
    if s.keyUp (s.pme p).key then s.peekHall (s.pme p) p j else (zeroLine, 1))
  let s := s.forEach (List.range 4) (fun s i =>
    let (p, j) := l.ringLine k i
    (s.ringPost n p j false).spendCause ((s.pme p).loc * 4096 + 64 * j))
  (if ls.all (fun x => x.2 == 0) then some ((ls.flatMap (·.1)).take 224) else none, s)

/-- R223, R227: a flit with units takes the next SEQ and is stored until it is acknowledged; the oldest flit of a full replay
buffer is spilled. -/
def State.dataFlit (s : State) (n : Nat) (slots : Bytes) : State :=
  let seq := (s.rd F.CWK_SEQ_TX_LAST n + 1) % 65536
  let s := s.wr F.CWK_SEQ_TX_LAST seq n
  let s := s.onLink n (fun l => { l with stored := l.stored ++ [(seq, slots)] })
  let s := s.when (8192 < (s.link n).stored.length && s.on F.CWK_STATUS_SPILL_OK n) (fun s => s.spill n)
  (s.drive n slots seq (s.bypassDue n)).showStored n

/-- R215: a packet in flits of 14 units. -/
def State.packetFlits (s : State) (n : Nat) (p : CwkPacket) : State :=
  let us := cwkUnits p.hdr.toNat p.mask.toNat p.data.toNat
  let fill := fun (l : List Bytes) => (l.flatten ++ List.replicate 224 0).take 224
  s.dataFlit n (fill us)

/-- R219, R226, R227, R229, R232: a packet may start now: only HELLO outside ACTIVE, none while a retrain is asked for or a
replay is under way. -/
def State.mayStart (s : State) (n : Nat) (p : CwkPacket) : Bool :=
  let h := cwkHdr p.hdr.toNat
  let l := s.link n
  (s.linkSt n == cwACTIVE || (h.opc == 0x30 && (s.linkSt n == cwINIT || s.linkSt n == cwMISMATCH))) &&
    l.ask.isNone && l.target.isNone && l.replay.isNone && l.unacked.length < s.rd F.CWK_UNACK_LIMIT n &&
    h.cost ≤ s.rd F.CWK_VC_CREDIT n h.vc

/-- Start every packet that can start, in order; a VC without credit holds back only its own packets (R219). -/
def State.pump (s : State) (n : Nat) : State :=
  let q := (s.link n).txq
  let s := s.onLink n (fun l => { l with txq := [] })
  let (s, rest, stuck) := q.foldl (fun (a : State × List CwkPacket × List Nat) p =>
    let (s, rest, stuck) := a
    let h := cwkHdr p.hdr.toNat
    if stuck.contains h.vc || !s.mayStart n p then (s, rest ++ [p], h.vc :: stuck)
    else ((s.sub F.CWK_VC_CREDIT h.cost n h.vc).packetFlits n p, rest, stuck)) (s, [], [])
  let s := s.onLink n (fun l => { l with txq := rest ++ l.txq })
  s.forEach (List.range 8) (fun s v =>
    s.wr F.CWK_VC_BLOCKED (b2n (stuck.contains v && rest.any (fun p =>
      (cwkHdr p.hdr.toNat).vc == v && s.rd F.CWK_VC_CREDIT n v < (cwkHdr p.hdr.toNat).cost))) n v)

/-- Queue a packet on a link. -/
def State.queueOn (s : State) (n : Nat) (p : CwkPacket) : State :=
  (s.onLink n (fun l => { l with txq := l.txq ++ [p] })).pump n

/-- Send a packet whose header lacks VC and SSLOT to slot `t`: nothing leaves for an unreachable slot. -/
def State.toSlot (s : State) (t : Nat) (h : CwkHdr) (mask : Nat) (data : Nat) : State :=
  match cwkClass h.opc with
  | none => s
  | some cls =>
    match s.linkTo t h.line (cls == 4) with
    | none => s
    | some n =>
      let h := { h with ut := 1, vc := vcOf (s.secs.vcs n) cls, sslot := s.slot, dslot := t, ndu := opcNdu h.opc }
      s.queueOn n ⟨BitVec.ofNat 128 h.word, BitVec.ofNat 64 mask, BitVec.ofNat 512 data, 0⟩

/-- Table 9-2: the header of a coherence message. -/
def cohHdr (f : Flight) : CwkHdr :=
  let m := f.msg
  let maskx := (f.opc == opWbD || f.opc == opDataM) && m.mask != BitVec.allOnes 64
  let flags := match opNet f.opc with
    | 0 => b2n m.noalloc + 2 * b2n m.noown + 4 * b2n m.rcall + 8 * b2n m.lock + 16 * b2n (f.opc == opWbD)
    | 1 => b2n m.fwd
    | 3 => b2n m.grant + 2 * b2n m.poison + 4 * b2n m.write + 16 * b2n maskx
    | _ => 0
  ⟨1, 0, f.opc, 0, m.src.toNat, 0, 0, m.line.toNat, m.rtag.toNat, m.htag.toNat,
   if f.opc = opSnpF && m.fwd then m.reqid.toNat else 0, flags, false, true⟩

/-- R242, Table 9-9: a packet is one of a coherent access. Data, Cmp and DataM serve lite accesses as well: they count as lite
(log entry 120, DESIGN CHOICE). -/
def coherentPacket (h : CwkHdr) : Bool :=
  match cwkClass h.opc with
  | some 0 => !h.flags.testBit 0 && !h.flags.testBit 1
  | some 1 => true
  | some 2 => h.opc != opCmp
  | some 3 => h.opc == opDataE
  | _ => false

/-- Send a coherence message to the member in slot `t`. A coherent packet for an excluded member is discarded
(Table 9-9). -/
def State.toMember (s : State) (t : Nat) (f : Flight) : State :=
  if s.excluded t && coherentPacket (cohHdr f) then s
  else s.toSlot t (cohHdr f) f.msg.mask.toNat f.msg.data.toNat

/-! ### HELLO (Table 9-7) -/

/-- DIRECT: slots reached over ACTIVE links. One whose links retrain stays reached: what is relayed to it waits (Table 9-9; log
entry 119, DEDUCED). -/
def State.directMask (s : State) : Nat :=
  (List.range 16).foldl (fun a t => if (s.linksTo t).isEmpty then a else a + 2 ^ t) 0

/-- The HELLO payload of a link. -/
def State.helloBytes (s : State) (n : Nat) : Bytes :=
  let relay := s.on F.CWK_CTL_RELAY_EN n && s.secs.vcs n == 8
  toLE 8 s.secs.spanId ++ toLE 1 s.slot ++ toLE 1 (b2n s.secs.lite) ++ toLE 1 (s.secs.vcs n) ++ toLE 1 n ++
  toLE 2 s.secs.members ++ toLE 2 s.directMask ++ toLE 2 (s.rd F.CWK_SPAN_STATUS_EXCLUDED) ++
  toLE 2 (s.rd F.CWK_SPAN_STATUS_READY) ++ toLE 1 (b2n relay) ++ [0, 0, 0] ++
  (List.range 8).flatMap (fun v => toLE 2 (s.rd F.CWK_VC_RXBUF n v)) ++ List.replicate 24 0

/-- Send HELLO on a link. -/
def State.sendHello (s : State) (n : Nat) : State :=
  match s.secs.peer n with
  | none => s
  | some t =>
    let h : CwkHdr := ⟨1, vcOf (s.secs.vcs n) 4, 0x30, 1, 0, s.slot, t, 0, 0, 0, 0, 0, false, true⟩
    s.queueOn n ⟨BitVec.ofNat 128 h.word, 0, BitVec.ofNat 512 (leNat (s.helloBytes n)), 0⟩

/-- Send HELLO on every link that carries it. -/
def State.helloAll (s : State) : State :=
  s.forEach ((List.range 8).filter (fun n =>
    s.linkSt n == cwACTIVE || s.linkSt n == cwINIT || s.linkSt n == cwMISMATCH)) State.sendHello

/-- R230: a change is made, and HELLO is sent on every link whose payload it has changed. -/
def State.withHello (s : State) (f : State → State) : State :=
  let before := (List.range 8).map s.helloBytes
  let s := f s
  s.forEach ((List.range 8).filter (fun n => before[n]? != some (s.helloBytes n) &&
    (s.linkSt n == cwACTIVE || s.linkSt n == cwINIT || s.linkSt n == cwMISMATCH))) State.sendHello

/-- R13: the station of a link: that of its first quad. -/
def State.linkStation (s : State) (n : Nat) : Nat := (s.secs.unitQuads 2 n).headD 0 / 4

/-- Table 13-1: the master that an agent's accesses are charged to: for a peer proxy, that of the link toward it. -/
def State.masterOf (s : State) (a line : Nat) : Nat :=
  if a < 81 then a
  else match s.linkTo (proxySlot s.slot a) line false with
    | some n => 81 + n
    | none => 81

/-- R228, R338: a page is a captured page of a spill ring or of the sample ring, which counts as pinned. -/
def State.ringPage (s : State) (p : Nat) : Bool :=
  s.links.any (fun x => x.2.ring.any (fun y => y.1 == p)) || s.smp.frames.any (fun y => y.1 == p)

/-- Send a management packet without payload to slot `t`. -/
def State.sendMgt (s : State) (t opc sslot dslot rtag : Nat) : State :=
  let h : CwkHdr := ⟨1, 0, opc, 0, 0, sslot, dslot, 0, rtag, 0, 0, 0, false, true⟩
  s.toSlot t h 0 0

/-- R409: the fatal state, with the EXCLUDE of its step 3. -/
def State.fatalAll (s : State) (cls blk inst : Nat) (addr addr2 : Nat := 0) (detail : Nat := 0) : State :=
  let s := s.fatal cls blk inst addr addr2 detail
  s.forEach ((List.range 16).filter (fun t => s.secs.members.testBit t && t != s.slot)) (fun s t =>
    s.sendMgt t 0x31 s.slot t 0)

end Sys2Proof.Machine
end

