-- ==== Sys2Proof/Machine/Place.lean ====
section
/-!
DEFINITION. Where an address lies: the lines of an LD's DPA (R59, R60), and the member and line of a DLA under the Span
address map (R237).
-/

namespace Sys2Proof.Machine

/-- R59, R60: the DPA unit (256 MiB) lies in the LD's static range or in an extent added to it. -/
def State.unitMapped (s : State) (e : LdEntry) (u : Nat) : Bool :=
  u < e.static || (s.ld e.ld).extents.any (fun x => x.1 ≤ u && u < x.1 + x.2)

/-- R59, R60: the DLA line of a DPA; `none`: an unmapped access. -/
def State.dpaLine (s : State) (e : LdEntry) (dpa : Nat) : Option Nat :=
  if dpa < (e.static + e.dc) * 2 ^ 28 && s.unitMapped e (dpa / 2 ^ 28) then some (e.base * 2 ^ 22 + dpa / 64) else none

/-- R60, R304: every byte of a range of DPA is mapped. -/
def State.dpaRange (s : State) (e : LdEntry) (a n : Nat) : Bool :=
  n == 0 || (a + n ≤ (e.static + e.dc) * 2 ^ 28 &&
    (List.range ((a + n - 1) / 2 ^ 28 + 1 - a / 2 ^ 28)).all (fun i => s.unitMapped e (a / 2 ^ 28 + i)))

/-- R237: the valid IMPORT entry that holds a DLA unit. -/
def State.importOf (s : State) (u : Nat) : Option Nat :=
  (List.range 64).find? (fun n =>
    s.on F.CWK_SMAP_CTL_VALID 0 n && s.rd F.CWK_SMAP_CTL_TYPE 0 n == 1 &&
      s.rd F.CWK_SMAP_BASE_BASE 0 n ≤ u && u < s.rd F.CWK_SMAP_LIMIT_LIMIT 0 n)

/-- R237: the member that holds a DLA line, and the line there; `none`: the member cannot be reached (R60). -/
def State.spanPlace (s : State) (line : Nat) : Option (Nat × Nat) :=
  match s.importOf (line / 2 ^ 22) with
  | none => some (s.slot, line)
  | some n =>
    let t := s.rd F.CWK_SMAP_CTL_SLOT 0 n
    if s.reachable t then
      some (t, line - s.rd F.CWK_SMAP_BASE_BASE 0 n * 2 ^ 22 + s.rd F.CWK_SMAP_RBASE_RBASE 0 n * 2 ^ 22)
    else none

/-- The DPA of an LD's line that another member holds: the IMPORT entry that leads there, read backwards. -/
def State.farDpa (s : State) (e : LdEntry) (slot line : Nat) : Option Nat :=
  (List.range 64).findSome? (fun n =>
    let far := s.rd F.CWK_SMAP_RBASE_RBASE 0 n * 2 ^ 22
    let own := s.rd F.CWK_SMAP_BASE_BASE 0 n * 2 ^ 22
    let size := (s.rd F.CWK_SMAP_LIMIT_LIMIT 0 n - s.rd F.CWK_SMAP_BASE_BASE 0 n) * 2 ^ 22
    if s.on F.CWK_SMAP_CTL_VALID 0 n && s.rd F.CWK_SMAP_CTL_TYPE 0 n == 1 && s.rd F.CWK_SMAP_CTL_SLOT 0 n == slot &&
        far ≤ line && line < far + size && e.base * 2 ^ 22 ≤ own + line - far
    then some ((own + line - far - e.base * 2 ^ 22) * 64) else none)

end Sys2Proof.Machine
end

