-- ==== Sys2Proof/Machine/PageOps.lean ====
section
/-!
DEFINITION. Reading and writing lines through the page map: reads with their errors (R68, R92, R140, R148), writes,
promotion (R95 to R97), holding for space (R108 to R110), and the map slice's requests (R90).
-/

namespace Sys2Proof.Machine

/-! ### Reading -/

/-- The causes of granules have been reported. -/
def State.spendGranules (s : State) (start n : Nat) : State :=
  s.forEach (List.range n) (fun s i => s.spendCause ((start + i) * 64))

/-- A tag line as memory holds it (R147): its bytes, and whether it is poisoned. -/
def State.tagNow (s : State) (p : Nat) : Bytes × Bool :=
  let x := s.peekLineOf (s.tagAddr p / 64)
  (x.1, x.2 != 0)

/-- R145: the tag of a page is checked on every read. -/
def State.tagOnRead (s : State) (p : Nat) : Bool := s.integ p == 2 && 2 ≤ (s.pme p).tier && !(s.pme p).twin

/-- R68, R92, R131: a line read through the page map by an agent: its data and whether it is poisoned. `got`: what the read
has got already; `tag`: the page's tag line, where a tag is checked. A block decoded here answers every read of it that
waits. -/
def State.takeLine (s : State) (line agent : Nat) (got : Option (Bytes × Nat)) (tag : Bytes × Bool) :
    (Bytes × Bool) × State :=
  let p := line / 64
  let x := s.pme p
  let bad := fun (s : State) (cause : Nat) => ((zeroLine, true), s.failEvent agent line cause 1)
  if s.lost p then bad (s.noteLost p) 1
  else if s.map.dropped.contains line then bad s 3
  else if x.poison then bad s 4
  else if x.tier = 0 && got.isNone then ((zeroLine, false), s)
  else
    let r := s.runOf p x
    if got.isNone && !s.keyUp r.key then bad s.emptyUse 1
    else if s.tagOnRead p && !s.tagOk p r tag then bad (s.integFail 0 x.key p) 1
    else match got with
      | some (d, c) => if c = 0 then ((d, false), s) else bad s c
      | none =>
        if x.tier = 1 then
          let (d, c) := s.peekHall x p (line % 64)
          let s := s.spendCause (x.loc * 4096 + 64 * (line % 64))
          if c = 0 then ((d, false), s) else bad s c
        else
          let b := line % 64 / 8
          let (res, s) := s.takeBlock r b
          let s := (s.spendGranules (r.start b) (r.size b)).shareBlock p b res
          let (d, c) := res.line line
          if c = 0 then ((d, false), s) else bad s c

/-- R92, R140, R145: the media addresses that a read of a line fetches, without its tag line: none where it reads zeros or
poisoned, or needs the key of an EMPTY slot. -/
def State.lineMas (s : State) (line : Nat) : List Nat :=
  let p := line / 64
  let x := s.pme p
  let r := s.runOf p x
  let b := line % 64 / 8
  if s.lost p || x.tier == 0 || x.poison || s.map.dropped.contains line || !s.keyUp r.key then []
  else if x.tier = 1 then [x.loc * 4096 + 64 * (line % 64)]
  else if s.integ p = 2 then (List.range r.total).map (fun i => (r.loc + i) * 64)
  else (List.range (r.size b)).map (fun i => (r.start b + i) * 64)

/-- R92, R145: the media addresses that a read of a line fetches. -/
def State.readMas (s : State) (line : Nat) : List Nat :=
  let l := s.lineMas line
  if s.tagOnRead (line / 64) && !l.isEmpty then l ++ s.lineMas (s.tagAddr (line / 64) / 64) else l

/-- R92, R145: the DRAM accesses of a read of a line. -/
def State.postRead (s : State) (line master : Nat) : State :=
  s.forEach (s.readMas line) (fun s ma => s.postMa ma false master)

/-- R94: the ranks among those of media addresses that are parked or waking, as channel and rank. -/
def State.sleepers (s : State) (mas : List Nat) : List (Nat × Nat) :=
  ((mas.filterMap s.place).map (fun x => (x.1, claRank x.2))).eraseDups.filter (fun x =>
    let st := s.rd F.DRC_RANK_STATUS_STATE x.1 x.2
    st == rankPARKED || st == rankWAKING)

/-- R94: the wake of ranks is requested. -/
def State.rouseAll (s : State) (l : List (Nat × Nat)) : State := s.forEach l (fun s x => s.rouse x.1 x.2)

/-! ### Promotion (R96, R97) -/

/-- The 64 lines of a page as a promotion writes them, and the state after the decodes. `own`: the lines that the
triggering write covers keep clear of the page's POISON. -/
def State.promoLines (s : State) (p : Nat) (own : Option Nat) (tag : Bytes × Bool) : List (Bytes × Bool) × State :=
  let x := s.pme p
  let r := s.runOf p x
  let tagBad := s.integ p != 0 && !x.twin && !s.tagOk p r tag
  let s := s.when tagBad (fun s => s.integFail 1 x.key p)
  let (ls, s) := (List.range 8).foldl (fun (a : List (Bytes × Bool) × State) b =>
    let (res, s) := a.2.takeBlock r b
    let s := s.spendGranules (r.start b) (r.size b)
    let lines := match res with
      | .ok d => if tagBad then List.replicate 8 (zeroLine, true) else (pieces 64 d).map (fun l => (l, false))
      | _ => List.replicate 8 (zeroLine, true)
    (a.1 ++ lines, s)) ([], s)
  let mark := fun (l : (Bytes × Bool) × Nat) =>
    (l.1.1, l.1.2 || (x.poison && own != some l.2) || s.map.dropped.contains (lineOf p l.2))
  (ls.zipIdx.map mark, s.undrop (fun l => l / 64 == p))

/-- R96, R97: a compressed page comes to a Hall frame. -/
def State.promote (s : State) (p frame : Nat) (dirty : Bool) (own : Option Nat) (tag : Bytes × Bool) (master : Nat) :
    State :=
  let (ls, s) := s.promoLines p own tag
  let s := s.releaseStore p
  let x := s.pme p
  let s := s.setPme p { x with tier := 1, loc := frame, bsz := 0, twin := false, dirtyc := dirty, poison := false } master
  s.putPage p ls

/-! ### Writing (R95, R110, R277) -/

/-- R98: a page that a DEMOTE has read is written. -/
def State.noteWrite (s : State) (p : Nat) : State :=
  let f := fun (w : Nat × Nat × Bool) => if w.1 == p then (w.1, w.2.1, true) else w
  { s with map := { s.map with watch := s.map.watch.map f } }

/-- R95, R110, R277: a write is applied to a Hall page: a full line replaces what is stored and takes the line off the
dropped-line table; a partial write of a line that reads poisoned or is dropped is discarded. -/
def State.writeHall (s : State) (line : Nat) (data : Line) (mask : BitVec 64) (poison : Bool) (master : Nat) : State :=
  let p := line / 64
  let s := (s.noteWrite p).ageZero p
  let s := if (s.pme p).dirtyc then s else s.setPme p { s.pme p with dirtyc := true } master
  let s := s.postMa ((s.pme p).loc * 4096 + 64 * (line % 64)) true master
  if mask = BitVec.allOnes 64 then (s.putHall p (line % 64) (lineBytes data) poison).undrop (· == line)
  else if s.map.dropped.contains line then s
  else
    let (old, c) := s.peekHall (s.pme p) p (line % 64)
    if c != 0 then s
    else s.putHall p (line % 64) (lineBytes (mergeMask (lineOfBytes old) data mask)) poison

/-- R95: a page takes a Hall frame for the first time: 64 zero lines under a slot. -/
def State.backPage (s : State) (p frame slot master : Nat) : State :=
  let x := s.pme p
  let s := s.setPme p { x with tier := 1, zero := false, loc := frame, key := slot, dirtyc := true } master
  s.putPage p (List.replicate 64 (zeroLine, false))

/-- R140: the slot that a write of a page would use. -/
def State.writeSlot (s : State) (p : Nat) : Nat :=
  let x := s.pme p
  if x.tier = 0 then s.regionSlot p else (s.runOf p x).key

/-- The sets a write of a page takes a frame from, best first (log entry 22, DESIGN CHOICE): that of a compressed page's run, or all in
rising order. -/
def State.frameSets (s : State) (p : Nat) : List Nat :=
  let x := s.pme p
  let all := (List.range 4).filter (fun k => !(s.awakeOf k).isEmpty)
  if x.tier = 0 then all
  else match s.chunkGroup ((s.runOf p x).loc / 32768) with
    | some g => if all.contains g.set then [g.set] else all
    | none => all

/-- Where a frame comes from now. -/
inductive FrameSrc where
  | frame (f : Nat)
  | zeroing
  | grant (set : Nat)
  | none
deriving DecidableEq, Repr

/-- R95, R96, R108: a frame of the first set that has one; else a chunk already being zeroed; else a grant. -/
def State.frameFrom (s : State) (sets : List Nat) : FrameSrc :=
  match sets.findSome? s.nextFrame with
  | some f => .frame f
  | none =>
    if s.map.zeroing.any (fun x => sets.contains x.2) then .zeroing
    else match sets.find? (fun k => (s.grantOf (.hall k)).isSome) with
      | some k => .grant k
      | none => .none

/-- Where a write of a page takes a frame from now. -/
def State.frameSrc (s : State) (p : Nat) : FrameSrc := s.frameFrom (s.frameSets p)

/-- R108: the sets that held writes draw on. -/
def State.heldSets (s : State) : List Nat :=
  let held := s.map.reqs.filter (fun r => r.st == .held)
  (List.range 4).filter (fun k => held.any (fun r => (s.frameSets (r.line / 64)).contains k))

/-- A frame for a job, which is never held: granted at once if it must be (log entry 20, DESIGN CHOICE). -/
def State.frameNow (s : State) (p : Nat) : Option (Nat × State) :=
  match s.frameSrc p with
  | .frame f => some (f, s.takeFrame f)
  | _ =>
    match (s.frameSets p).findSome? (fun k => s.grantNow (.hall k)) with
    | none => none
    | some s =>
      match (s.frameSets p).findSome? s.nextFrame with
      | some f => let s := s.takeFrame f; some (f, s.trim (s.frameSet f))
      | none => none

/-! ### Requests at a map slice -/

/-- A home's read or write of TT entry `tt`. -/
def State.mapReq (s : State) (home tt : Nat) (write : Bool) : Option MapReq :=
  s.map.reqs.find? (fun r => r.home == home && r.tt == tt && r.write == write)

/-- The slice of a page. -/
def pageSlice (p : Nat) : Nat := p / 4 % 16

/-- The slice is another endpoint's than the home that asks: its messages cross the torus (R185). -/
def MapReq.far (r : MapReq) : Bool := r.home < 16 && pageSlice (r.line / 64) != r.home

/-- R189: the WDONE that a slice sends to the home of a write (log entry 114, DESIGN CHOICE). -/
def wdoneFlight (r : MapReq) : Flight :=
  ⟨opWDONE, .ep r.home, { htag := BitVec.ofNat 8 r.tt, line := BitVec.ofNat 40 r.line }⟩

/-- Change where a request stands. -/
def State.markReq (s : State) (r : MapReq) (st : ReqSt) : State :=
  let upd := fun (x : MapReq) => if x.home == r.home && x.tt == r.tt && x.write == r.write then { x with st := st } else x
  { s with map := { s.map with reqs := s.map.reqs.map upd } }

/-- A slice brings a request to where it stands: a write that it has accepted is answered with WDONE (R170). -/
def State.setReq (s : State) (r : MapReq) (st : ReqSt) : State :=
  let s := s.markReq r st
  if st = .served && r.write && r.far then s.inject (wdoneFlight r) else s

/-- Take a request away. -/
def State.dropReq (s : State) (r : MapReq) : State :=
  let keep := fun (x : MapReq) => !(x.home == r.home && x.tt == r.tt && x.write == r.write)
  { s with map := { s.map with reqs := s.map.reqs.filter keep } }

/-- A request stands behind the others from now on: the order of `reqs` is the order in which requests began to wait. -/
def State.parkReq (s : State) (r : MapReq) (st : ReqSt) : State :=
  let s := s.dropReq r
  { s with map := { s.map with reqs := s.map.reqs ++ [{ r with st := st }] } }

/-- R90, R108: accesses to a page wait: it is BUSY, or a write to it waits for space. -/
def State.pageShut (s : State) (p : Nat) : Bool :=
  s.busy p || s.map.reqs.any (fun r => r.line / 64 == p && (r.st == .held || r.st == .grantWait))

/-- R90: a newcomer to a page waits: the page is shut, or earlier accesses to it wait still. -/
def State.pageWaits (s : State) (p : Nat) : Bool :=
  s.pageShut p || s.map.reqs.any (fun r => r.line / 64 == p && r.st == .busyWait)

/-- R208: a job's access to a page does not go on: it waits at the slice, or for the wake of the slice's domain. -/
def State.pageHeld (s : State) (p : Nat) : Bool := s.pageWaits p || s.domDown (pageSlice p)

/-- R208: what waits at a fenced slice requests its wake. -/
def State.wakeSlice (s : State) (p : Nat) : State := s.wakeDom (pageSlice p)

/-- Requests of a slice in one of the waiting places. -/
def State.sliceCount (s : State) (sl : Nat) (f : ReqSt → Bool) : Nat :=
  (s.map.reqs.filter (fun r => pageSlice (r.line / 64) == sl && f r.st)).length

/-- R90: 16 map requests are in flight within a slice. -/
def State.sliceFull (s : State) (sl : Nat) : Bool :=
  16 ≤ s.sliceCount sl (fun x => x == .fillWait || x == .grantWait || x == .promo)

/-- R140: a write that needs the key of an EMPTY slot is discarded. -/
def State.discardWrite (s : State) (r : MapReq) : State := (s.emptyUse.failEvent r.agent r.line 1 2).setReq r .served

/-- R95, R96: a write that has its frame proceeds: a first write is applied; a compressed page starts its promotion. -/
def State.writeWithFrame (s : State) (r : MapReq) (f : Nat) : State :=
  let p := r.line / 64
  let first := (s.pme p).tier == 0
  if !s.keyUp (if first then r.slot else s.writeSlot p) then s.discardWrite r
  else
    let s := s.takeFrame f
    if first then
      ((s.backPage p f r.slot r.master).writeHall r.line r.data r.mask r.poison r.master).setReq r .served
    else
      let run := s.runOf p (s.pme p)
      let s := s.forEach (List.range run.total) (fun s i => s.postMa ((run.loc + i) * 64) false r.master)
      let s := s.onTxn s.txn.cur (fun t => { t with promo := true })
      let s := s.counts r.home evPromo { agent := some r.agent } s.txn.cur
      ({ s with map := { s.map with busy := s.map.busy ++ [(p, BusyOp.promote f)] } }).setReq r .promo

/-- R108: a write is held for space. -/
def State.holdWrite (s : State) (r : MapReq) : State :=
  let s := (s.parkReq r .held).counts r.home evHeld { agent := some r.agent } s.txn.cur
  ((s.add F.MAP_HOLD_HELD 1).bump F.MAP_HOLD_STAT_HELD_TOTAL).set F.MAP_IRQ_HOLD

/-- R95, R96, R108: a write that needs a frame takes one, waits for a grant under way or made now, or is held. Sets that
held writes draw on are theirs. -/
def State.serveFrame (s : State) (r : MapReq) : State :=
  let theirs := s.heldSets
  match s.frameFrom ((s.frameSets (r.line / 64)).filter (fun k => !theirs.contains k)) with
  | .frame f => s.writeWithFrame r f
  | .zeroing => s.parkReq r .grantWait
  | .grant k => ((s.grantLater (.hall k)).getD s).parkReq r .grantWait
  | .none => s.holdWrite r

/-- A write is served at its slice (R87, R95, R96, R108, R110, R140). A first write takes its slot from the region table as
that stands now (R155). -/
def State.serveWrite (s : State) (r : MapReq) : State :=
  let p := r.line / 64
  let x := s.pme p
  if s.secs.pages ≤ p then s.setReq r .served
  else if s.lost p then (s.noteLost p).setReq r .served
  else if !s.keyUp (s.writeSlot p) then s.discardWrite r
  else if x.tier = 1 then (s.writeHall r.line r.data r.mask r.poison r.master).setReq r .served
  else if r.mask != BitVec.allOnes 64 && s.map.dropped.contains r.line then s.setReq r .served
  else s.serveFrame { r with slot := s.regionSlot p }

/-- The request under way that a message belongs to. -/
def State.txnOfMsg (s : State) (m : CohMsg) : Option Nat := s.txnFind m.src.toNat m.rtag.toNat m.slot.toNat m.line.toNat

/-- R333: channel and CLA of a line's Hall frame, or of the first granule of its block. -/
def State.linePlace (s : State) (line : Nat) : Option (Nat × Nat) :=
  let x := s.pme (line / 64)
  if x.tier = 0 then none
  else if x.tier = 1 then s.place (x.loc * 4096 + 64 * (line % 64))
  else s.place ((s.runOf (line / 64) x).start (line % 64 / 8) * 64)

/-- The home of the AGE sweep's updates among the map requests. -/
def sweepHome : Nat := 16

/-- R91: the sweep raises the AGE of a page, through its slice. -/
def State.sweepPage (s : State) (p : Nat) : State :=
  let x := s.pme p
  if x.age = 255 then s else s.setPme p { x with age := x.age + 1 } 80

/-- R89: a fill is under way for a map line, or is begun. -/
def State.startFill (s : State) (tag : MapTag) (master : Nat) : State :=
  if s.map.fills.any (fun t => t.same tag) then s
  else
    let s := { s with map := { s.map with fills := s.map.fills ++ [tag] } }
    match s.mapMa tag with
    | none => s
    | some ma => s.postMa ma false master

/-- R90 to R92: a request that its slice has accepted is looked up: it waits for a fill, or is served. -/
def State.lookupIn (s : State) (r : MapReq) : State :=
  let p := r.line / 64
  let sl := pageSlice p
  let tag : MapTag := ⟨false, p / 4, false⟩
  if r.home = sweepHome then (s.dropReq r).sweepPage p
  else if !s.mapHit tag then
    ((s.counts sl evMapMiss { tier := some (s.pme p).tier } s.txn.cur).startFill tag r.master).parkReq r .fillWait
  else
    let s := (s.counts sl evMapHit { tier := some (s.pme p).tier }).onTxn s.txn.cur (fun t => { t with place := s.linePlace r.line })
    let s := s.when ((s.pme p).twin) (fun s => s.mapTouch ⟨true, (s.pme p).loc, false⟩ r.master)
    if r.write then s.serveWrite r
    else ((s.ageZero p).postRead r.line r.master).setReq r .served

/-- R90, R208: a lookup reaches the slice. One whose slice is fenced waits for its wake; one that the slice does not accept
stays at its home. -/
def State.lookupNow (s : State) (r : MapReq) : State :=
  let p := r.line / 64
  let sl := pageSlice p
  if s.domDown sl then s.wakeDom sl
  else if 240 ≤ s.sliceCount sl (· == .busyWait) then s
  else if s.pageWaits p then s.parkReq r .busyWait
  else if s.sliceFull sl then s
  else s.lookupIn r

/-- The request that a home's map access belongs to. -/
def State.txnOfReq (s : State) (r : MapReq) : Option Nat :=
  ((s.coh.tt.find? (fun x => x.1 == 256 * r.home + r.tt)).map (fun x => x.2.msg)).bind s.txnOfMsg

/-- R186, R189: the MAPRD of a home's request to the slice of the page (log entry 114, DESIGN CHOICE). -/
def mapFlight (r : MapReq) : Flight :=
  let m : CohMsg := { src := BitVec.ofNat 7 r.home, htag := BitVec.ofNat 8 r.tt }
  ⟨opMAPRD, .ep (pageSlice (r.line / 64)), { m with line := BitVec.ofNat 40 r.line, write := r.write }⟩

/-- R90: the slice does not accept the lookup now. -/
def State.sliceBusy (s : State) (r : MapReq) : Bool :=
  let p := r.line / 64
  let sl := pageSlice p
  !s.domHolds sl 0 && (240 ≤ s.sliceCount sl (· == .busyWait) || (!s.pageWaits p && s.sliceFull sl))

/-- R90, R92: a lookup at the slice, in the course of the request that caused it. That of another home's slice comes over the
torus, and may be held at its boundary (R207, R208). -/
def State.lookup (s : State) (r : MapReq) : State :=
  let now := fun (s : State) => s.during (s.txnOfReq r) (fun s => s.lookupNow r)
  if !r.far then now s
  else
    let f := mapFlight r
    if s.sliceBusy r || (s.dom (pageSlice (r.line / 64))).held.any (fun x => x.2 == f) then s else s.arrive f now

/-- R90: the page-wait queue of a slice is served in arrival order, as far as pages are free. The first argument bounds the
number of accesses served. -/
def State.serveQueueN : Nat → State → Nat → State
  | 0, s, _ => s
  | n + 1, s, sl =>
    match s.map.reqs.find? (fun r => r.st == .busyWait && pageSlice (r.line / 64) == sl && !s.pageShut (r.line / 64)) with
    | none => s
    | some r =>
      if s.sliceFull sl then s
      else State.serveQueueN n (s.during (s.txnOfReq r) (fun s => s.lookupIn r)) sl

/-- R90: the page-wait queues are served. -/
def State.serveQueues (s : State) : State :=
  s.forEach (List.range 16) (fun s sl => State.serveQueueN s.map.reqs.length s sl)

/-- Bring a request as far as it gets now: a lookup, and the fill it would wait for (log entry 23, DESIGN CHOICE). -/
def State.hurry (s : State) (home tt : Nat) (write : Bool) : State :=
  match s.mapReq home tt write with
  | none => s
  | some r => if r.st = .flight then s.lookup r else s

/-- Send a home's read or write to the slice. -/
def State.sendReq (s : State) (r : MapReq) : State :=
  let s := { s with map := { s.map with reqs := s.map.reqs ++ [r] } }
  if r.far then s.inject (mapFlight r) else s

/-- R96, R97: a promotion ends: the frame is filled, the write that triggered it is applied, and the page leaves BUSY. A
run whose blocks go to a fenced gallery waits for its wake (R93). -/
def State.promotionDone (s : State) (p : Nat) (tag : Bytes × Bool) : State :=
  match s.map.busy.find? (fun x => x.1 == p) with
  | some (_, .promote f) =>
    let down := s.galsDown (s.runOf p (s.pme p))
    if !down.isEmpty then s.forEach down (fun s g => s.wakeDom (16 + g))
    else
    match s.map.reqs.find? (fun r => r.st == .promo && r.line / 64 == p) with
    | some r =>
      let own := if r.mask = BitVec.allOnes 64 then some (r.line % 64) else none
      (s.during (s.txnOfReq r) fun s =>
        ((s.promote p f true own tag r.master).writeHall r.line r.data r.mask r.poison r.master).setReq r .served |>.unbusy p
        ).serveQueues
    | none => ((s.promote p f true none tag 0).unbusy p).serveQueues
  | _ => s

/-- R108: the oldest held write for which a frame is free takes it. -/
def State.resumeHeld (s : State) : State :=
  match s.map.reqs.find? (fun r => r.st == .held && (match s.frameSrc (r.line / 64) with | .frame _ => true | _ => false)) with
  | none => s
  | some r =>
    match s.frameSrc (r.line / 64) with
    | .frame f => ((s.sub F.MAP_HOLD_HELD 1).during (s.txnOfReq r) (fun s => s.writeWithFrame r f)).serveQueues
    | _ => s

/-- A chunk's zeroing has ended: it is granted, and writes that waited for it take frames, in order. The pool returns what
it then holds in excess (R107). -/
def State.zeroDone (s : State) (c : Nat) : State :=
  match s.map.zeroing.find? (fun x => x.1 == c) with
  | none => s
  | some (_, pool) =>
    let s := { s with map := { s.map with zeroing := s.map.zeroing.filter (fun x => x.1 != c) } }
    let s := (s.zeroChunk c).giveChunk c pool
    let s := s.forEach (s.map.reqs.filter (fun r => r.st == .grantWait && (s.frameSets (r.line / 64)).contains pool)) (fun s r =>
      s.during (s.txnOfReq r) (fun s => s.serveFrame r))
    s.serveQueues.trim pool

/-- R109: a held write is dropped. -/
def State.expireHeld (s : State) (r : MapReq) : State :=
  let s := ((s.sub F.MAP_HOLD_HELD 1).bump F.MAP_HOLD_STAT_EXPIRED).set F.MAP_IRQ_EXPIRE
  let s := (s.dropLine r.line).failEvent r.agent r.line 3 2
  (s.setReq r .served).serveQueues

/-- A pool's request for a chunk in a 1 µs step (R107, R108): granted later, or refused with LOW and CRIT if
`low` is its reason. None is made while an image that changes TIER drains (R27). -/
def State.poolRequest (s : State) (k : Nat) (low : Bool) : State :=
  if s.tierPaused then s else
  let cl : Option Claim :=
    if k < 4 then some (.hall k) else (s.map.groups.find? (fun g => 16 + g.idx == k)).map .heap
  match cl with
  | none => s
  | some cl =>
    match s.grantLater cl with
    | some s => s
    | none =>
      if low then
        let s := (s.set F.MAP_IRQ_LOW).wrBit F.MAP_IRQ_POOLS k true
        s.when (s.rd F.MAP_POOL_F_F 0 k < s.rd F.MAP_POOL_CRIT_CRIT_WATER 0 k) (fun s => s.set F.MAP_IRQ_CRIT)
      else s

/-! ### Reads and writes that end within one command -/

/-- A page has a Hall frame now: it has one already, or takes one at once (log entry 20, DESIGN CHOICE). `own`: the line that the write
covers in full. `none`: no frame can be had. -/
def State.hallNow (s : State) (p : Nat) (own : Option Nat) (master : Nat) : Option State :=
  let x := s.pme p
  if x.tier = 1 then some s
  else match s.frameNow p with
    | none => none
    | some (f, s) =>
      some (if x.tier = 0 then s.backPage p f (s.regionSlot p) master else s.promote p f true own (s.tagNow p) master)

/-- A write that ends within one command. `false`: no frame could be had, and nothing was written. -/
def State.writeNow (s : State) (line : Nat) (data : Line) (mask : BitVec 64) (poison : Bool) (agent : Nat) :
    Bool × State :=
  let p := line / 64
  let own := if mask = BitVec.allOnes 64 then some (line % 64) else none
  if s.secs.pages ≤ p then (true, s)
  else if s.lost p then (true, s.noteLost p)
  else if !s.keyUp (s.writeSlot p) then (true, s.emptyUse.failEvent agent line 1 2)
  else match s.hallNow p own agent with
    | none => (false, s)
    | some s => (true, s.writeHall line data mask poison agent)

/-- A line is marked poisoned (R175, R242): it is written poisoned, or dropped where no frame can be had. -/
def State.markPoison (s : State) (line : Nat) : State :=
  let (ok, s) := s.writeNow line 0 (BitVec.allOnes 64) true 96
  if ok then s else s.dropLine line

end Sys2Proof.Machine
end

