-- ==== Sys2Proof/Machine/Home.lean ====
section
/-!
DEFINITION. Homes (R157 to R176): the directory, the transaction table, and what a home does on a request, a snoop
answer, data, and the acceptance of a write (Tables 7-5 to 7-7).
-/

namespace Sys2Proof.Machine

/-! ### Directory -/

/-- R163: directory set and tag of a line. -/
def lineSet (line : Nat) : Nat := bits line 16 4
def lineTag (line : Nat) : Nat := bits line 39 17

/-- Key of a way. -/
def wayKey (h set w : Nat) : Nat := (h * 8192 + set) * 16 + w

/-- R178: directory ways of a set: 12 in a coherent Span, else 16. -/
def State.dirWays (s : State) : Nat := if s.secs.spanEn && !s.secs.lite then 12 else 16

/-- The entry of a way of the line's set. -/
def State.dirEnt (s : State) (line w : Nat) : DirEnt := smGet {} s.coh.dir (wayKey (homeOf line) (lineSet line) w)

/-- Set the entry of a way of the line's set. -/
def State.setDir (s : State) (line w : Nat) (d : DirEnt) : State :=
  let d := if d.sharers = 0 then {} else d
  { s with coh := { s.coh with dir := smSet {} s.coh.dir (wayKey (homeOf line) (lineSet line) w) d } }

/-- R163: the way that holds a line's entry. -/
def State.dirFind (s : State) (line : Nat) : Option Nat :=
  (List.range s.dirWays).find? (fun w => (s.dirEnt line w).dstate != 0 && (s.dirEnt line w).tag == lineTag line)

/-- The agents that an entry lists. -/
def DirEnt.holders (d : DirEnt) : List Nat := onesBelow d.sharers 96

/-- An entry loses a holder (a snoop answered RspI, an EvC). -/
def DirEnt.drop (d : DirEnt) (a : Nat) : DirEnt :=
  let sh := setBit d.sharers a false
  if sh = 0 then {}
  else if d.fptr = a ∧ d.dstate = 2 then { d with sharers := sh, dstate := 1, fptr := 0 } else { d with sharers := sh }

/-- R163: the line that an entry of home `h`, set `set` names. -/
def lineAt (h set tag : Nat) : Nat :=
  let hi := tag * 2 ^ 17 + set * 2 ^ 4
  hi + (h ^^^ (bits hi 7 4) ^^^ (bits hi 11 8) ^^^ (bits hi 15 12))

/-- Table 7-4: the 128 bits of an entry. -/
def DirEnt.word (d : DirEnt) : Nat := d.sharers + d.fptr * 2 ^ 96 + d.dstate * 2 ^ 103 + d.tag * 2 ^ 105

/-! ### Homes and TT entries -/

/-- A home. -/
def State.home (s : State) (h : Nat) : HomeSt := smGet {} s.coh.homes h

/-- The open TT entries, as (key, entry). -/
def State.tts (s : State) (h : Nat) : List (Nat × TT) := s.coh.tt.filter (fun x => x.1 / 256 == h)

/-- A TT entry, if it is open. -/
def State.tt (s : State) (h e : Nat) : Option TT := (s.coh.tt.find? (fun x => x.1 == 256 * h + e)).map (·.2)

/-- R179: the transactions on remote lines that hold a TT entry of home `h`. -/
def State.pfTts (s : State) (h : Nat) : List PfTx := s.coh.pfTx.filter (fun x => x.e.isSome && homeOf x.line == h)

/-- R158: requests in the conflict queue of home `h`, those for remote lines among them. -/
def State.confUsed (s : State) (h : Nat) : Nat :=
  (s.home h).confq.length + (s.coh.pfq.filter (fun f => homeOf f.msg.line.toNat == h)).length

/-- Show a home's occupancy (Table 7-12). Recalls hold the TT entries from 240 on (R165). -/
def State.showHome (s : State) (h : Nat) : State :=
  let ts := s.tts h
  let far := s.pfTts h
  let s := s.wr F.HOM_STATUS_TT_USED (ts.length + far.length) h
  let s := s.wr F.HOM_STATUS_ALLOCQ ((ts.filter (fun x => x.2.st == .alloc)).length +
    (far.filter (fun x => x.next == .alloc)).length) h
  let s := s.wr F.HOM_STATUS_RECALLS ((ts.filter (fun x => 240 ≤ x.1 % 256)).length +
    (far.filter (fun x => 240 ≤ x.e.getD 0)).length) h
  let s := s.wr F.HOM_STATUS_CONFQ (s.confUsed h) h
  s.wr F.HOM_WDB_WDB_USED ((s.home h).wdb.length +
    (s.coh.pfData.filter (fun x => homeOf x.line == h)).length) h

/-- Change a home. -/
def State.onHome (s : State) (h : Nat) (f : HomeSt → HomeSt) : State :=
  ({ s with coh := { s.coh with homes := smSet {} s.coh.homes h (f (s.home h)) } }).showHome h

/-- Set a TT entry. -/
def State.setTT (s : State) (h e : Nat) (t : TT) : State :=
  ({ s with coh := { s.coh with tt := smInsert s.coh.tt (256 * h + e) t } }).showHome h

/-- The line of a TT entry. -/
def TT.line (t : TT) : Nat := t.msg.line.toNat

/-- The requester of a TT entry. -/
def TT.req (t : TT) : Nat := t.msg.src.toNat

/-- A free TT index in a range. -/
def State.freeTT (s : State) (h lo n : Nat) : Option Nat :=
  let far := s.pfTts h
  ((List.range n).map (· + lo)).find? (fun e => (s.tt h e).isNone && !far.any (fun x => x.e == some e))

/-- R158: the home accepts a REQ from the network: its conflict queue has room, and an ordinary TT entry is free. -/
def State.homeAccepts (s : State) (h : Nat) : Bool := s.confUsed h < 64 && (s.freeTT h 0 240).isSome

/-- Send to an agent of Table 7-1: on the torus, or over Catwalk to the member behind a peer proxy. -/
def State.sendTo (s : State) (a : Nat) (f : Flight) : State :=
  if a < 81 then s.send f else s.toMember (proxySlot s.slot a) f

/-- An answer of TT entry `e` to its requester. -/
def State.reply (s : State) (e : Nat) (t : TT) (opc : Nat) (grant : Bool) (val : Option (Line × Bool)) : State :=
  let v := val.getD (0, false)
  let m : CohMsg := { line := t.msg.line, slot := t.msg.slot, htag := BitVec.ofNat 8 e, rtag := t.msg.rtag,
                      grant := grant, poison := v.2, data := v.1,
                      mask := if opNet opc = 3 then BitVec.allOnes 64 else 0 }
  s.sendTo t.req ⟨opc, .agent t.req, m⟩

/-- Send a snoop to an agent. -/
def State.snoop (s : State) (h e : Nat) (t : TT) (a opc : Nat) (fwd : Bool) : State :=
  let m : CohMsg := { line := t.msg.line, slot := t.msg.slot, htag := BitVec.ofNat 8 e, fwd := fwd,
                      reqid := if fwd then t.msg.src else 0, rtag := if fwd then t.msg.rtag else 0 }
  ((s.bump F.HOM_STAT_COUNT 1 h 1).counts h evSnoop { agent := some a }).sendTo a ⟨opc, .agent a, m⟩

/-- Issue a read of the line through the page map. -/
def State.memRead (s : State) (h e : Nat) (t : TT) : State :=
  let s := s.setTT h e { t with memOut := true }
  s.sendReq ⟨h, e, false, t.line, 0, 0, false, s.masterOf t.req t.line, t.req, .flight, none, 0⟩

/-- Issue a write of the line through the page map. -/
def State.memWrite (s : State) (h e : Nat) (t : TT) (w : MaskedData) : State :=
  let s := s.setTT h e { t with wrOut := true }
  s.sendReq ⟨h, e, true, t.line, w.data, w.mask, w.poison, s.masterOf t.req t.line, t.req, .flight, none, 0⟩

/-! ### Protocol errors (R175) -/

/-- Table 7-16 code of a state. -/
def HbSt.code : HbSt → Nat
  | .alloc => 0
  | .dat => 1
  | .snp => 2
  | .wb => 3

/-- PE-H: the message is discarded and the entry keeps its state. -/
def State.peHome (s : State) (h : Nat) (st : HbSt) (opc src line : Nat) : State :=
  let s := (s.bump F.HOM_ERR_PROTO 1 h).set F.HOM_IRQ_PROTO h
  let s := s.wr F.HOM_LAST_PE_SRC src h
  let s := s.wr F.HOM_LAST_PE_OPC opc h
  let s := s.wr F.HOM_LAST_PE_STATE st.code h
  let s := s.wr F.HOM_LAST_PE_LINE line h
  s.record 0x10 1 rasHOM h line s.slot (cohDetail src 1 st.code opc 3)

/-- PE-H for an unexpected DataM: the line is marked poisoned. -/
def State.peDataM (s : State) (h : Nat) (st : HbSt) (src line : Nat) : State :=
  let s := s.peHome h st opDataM src line
  ((s.bump F.HOM_ERR_UNEXP_DATAM 1 h).set F.HOM_IRQ_UNEXP_DATAM h).markPoison line

/-- PE-H, internal: a hardware fault of the home (R175, R409). -/
def State.peInternal (s : State) (h : Nat) (st : HbSt) (line : Nat) : State :=
  ((s.peHome h st 0 0 line).set F.HOM_IRQ_INTERNAL h).fatalAll 0x11 rasHOM h line h

/-! ### Write-data buffers (R160, R173) -/

/-- Write-data credits that an agent has spent at a home. -/
def State.spent (s : State) (a h : Nat) : Nat := smGet 0 s.coh.spent (a * 16 + h)

/-- Spend one credit, or get one back. -/
def State.spend (s : State) (a h : Nat) : State :=
  { s with coh := { s.coh with spent := smSet 0 s.coh.spent (a * 16 + h) (s.spent a h + 1) } }
def State.unspend (s : State) (a h : Nat) : State :=
  { s with coh := { s.coh with spent := smSet 0 s.coh.spent (a * 16 + h) (s.spent a h - 1) } }

/-- The buffer entry of an agent's WbD for a line. -/
def State.wdbOf (s : State) (h a line : Nat) : Option Wdb := (s.home h).wdb.find? (fun w => w.agent == a && w.line == line)

/-- Free the buffer entry and return the credit. -/
def State.freeWdb (s : State) (h a line : Nat) : State :=
  match s.wdbOf h a line with
  | none => s
  | some w => (s.onHome h (fun x => { x with wdb := x.wdb.erase w })).unspend a h

/-- Mark the buffer entry absorbed (R173). -/
def State.absorb (s : State) (h a line : Nat) : State :=
  s.onHome h (fun x => { x with wdb := x.wdb.map (fun w =>
    if w.agent == a && w.line == line then { w with absorbed := true } else w) })

/-! ### Plans (Table 7-5) -/

/-- Table 7-5: what a request leads to in a directory state: the plan, the agents snooped, the snoop, and FWD. -/
def planOf (fwdEn : Bool) (d : DirEnt) (opc : Nat) (m : CohMsg) : Plan × List Nat × Nat × Bool :=
  let r := m.src.toNat
  let x := d.fptr
  let others := d.holders.filter (· != r)
  let excl : Plan × List Nat × Nat × Bool :=
    if d.dstate = 3 then (if x = r then (.excl, [], 0, false) else (.excl, [x], opSnpI, false))
    else (.excl, others, opSnpI, false)
  if opc = opRdS ∧ m.noalloc then
    if d.dstate = 3 ∧ x ≠ r then (.copy, [x], opSnpF, false) else (.copy, [], 0, false)
  else if opc = opRdS then
    match d.dstate with
    | 2 => if !fwdEn then (.share, [], 0, false) else if x = r then (.keepF, [], 0, false)
           else (.forward, [x], opSnpF, true)
    | 3 => if x = r then (.owner, [], 0, false) else (.share, [x], opSnpS, false)
    | _ => (.share, [], 0, false)
  else if opc = opRdO then excl
  else if opc = opUpg then
    if d.dstate = 3 then (if x = r then (.upg, [], 0, false) else excl)
    else if d.dstate != 0 && d.holders.contains r then (.upg, others, opSnpI, false) else excl
  else if opc = opWbD then
    if d.dstate = 3 then
      if x = r ∧ m.noown = false then (.wbOwn, [], 0, false) else (.wbNo, [x], opSnpI, false)
    else (.wbNo, others, opSnpI, false)
  else if d.dstate = 3 ∧ m.rcall then (.copy, [x], opSnpI, false)
  else (.copy, [], 0, false)

/-- The plan takes its data from memory unless a snoop brings it. -/
def Plan.needs : Plan → Bool
  | .share => true
  | .keepF => true
  | .owner => true
  | .copy => true
  | .excl => true
  | _ => false

/-- R165: the request needs a directory way. -/
def needsWay (d : DirEnt) (opc : Nat) (m : CohMsg) : Bool :=
  d.dstate == 0 && ((opc == opRdS && !m.noalloc) || opc == opRdO || opc == opUpg)

/-! ### Closing -/

/-- The value of the line that an entry has in hand: a DataM whole, or merged over memory data, or memory data. -/
def TT.val (t : TT) : Option (Line × Bool) :=
  match t.dm, t.mem with
  | some d, none => if d.mask = BitVec.allOnes 64 then some (d.data, d.poison) else none
  | some d, some m =>
    if d.mask = BitVec.allOnes 64 then some (d.data, d.poison) else some (mergeMask m.1 d.data d.mask, m.2 || d.poison)
  | none, m => m

/-- R169: the entry must read memory: its plan takes the line from there, or a DataM is to be merged over it. -/
def TT.lacks (t : TT) : Bool := t.val.isNone && (t.plan.needs || t.dm.isSome)

/-- R170: an entry closes once it has answered, no write of it awaits WDONE, it holds no lock, and no read of it is
outstanding. -/
def TT.closes (t : TT) : Bool := t.sent && !t.wrOut && t.lockAt.isNone && !t.memOut

/-- Take a TT entry away. -/
def State.dropTT (s : State) (h e : Nat) : State :=
  ({ s with coh := { s.coh with tt := smErase s.coh.tt (256 * h + e) } }).showHome h

/-- The line has an open TT entry at its home. -/
def State.lineBusy (s : State) (line : Nat) : Bool := (s.tts (homeOf line)).any (fun x => x.2.line == line)

/-- Grant, complete or acknowledge by the plan, and set the directory (R167, Table 7-5). `none` in `way`: the request
has no directory entry. -/
def State.conclude (s : State) (h e : Nat) (t : TT) : State :=
  let line := t.line
  let r := t.req
  let w := t.way.getD 0
  let d := match t.way with | some w => s.dirEnt line w | none => {}
  let put := fun (s : State) (d : DirEnt) => if t.way.isSome then s.setDir line w { d with tag := lineTag line } else s
  let val := t.val
  let t' := { t with sent := true }
  let s := s.setTT h e t'
  match t.plan with
  | .share =>
    let others := d.holders.filter (· != r)
    if r < 64 then
      let d' := { d with dstate := if d.dstate = 2 && s.on F.HOM_CTL_FWD_EN h then 2 else 1,
                         fptr := if d.dstate = 2 && s.on F.HOM_CTL_FWD_EN h then d.fptr else 0,
                         sharers := setBit d.sharers r true }
      (put s d').reply e t opData false val
    else if others.isEmpty then
      (put s { d with dstate := 3, fptr := r, sharers := 2 ^ r }).reply e t opDataE false val
    else if s.on F.HOM_CTL_FWD_EN h then
      (put s { d with dstate := 2, fptr := r, sharers := setBit d.sharers r true }).reply e t opData true val
    else (put s { d with dstate := 1, fptr := 0, sharers := setBit d.sharers r true }).reply e t opData false val
  | .forward => s
  | .keepF => s.reply e t opData true val
  | .owner =>
    if r < 64 then (put s { d with dstate := 1, fptr := 0, sharers := 2 ^ r }).reply e t opData false val
    else s.reply e t opDataE false val
  | .copy =>
    let s := s.reply e t opData false val
    if t.opc = opRdNC ∧ t.msg.lock then s.setTT h e { t' with lockAt := some s.time.cclk } else s
  | .excl => (put s { d with dstate := 3, fptr := r, sharers := 2 ^ r }).reply e t opDataE false val
  | .upg => (put s { d with dstate := 3, fptr := r, sharers := 2 ^ r }).reply e t opCmpE false none
  | .wbOwn => put s {}
  | .wbNo => put s {}
  | .takeBack => s

/-- R169: the write that the entry owes: the snoop's line, or a WbD's data over it. -/
def TT.toWrite (t : TT) : Option MaskedData :=
  match t.plan with
  | .wbOwn => t.wd
  | .wbNo =>
    match t.wd, t.dm, t.val with
    | some w, some _, some v => some ⟨mergeMask v.1 w.data w.mask, BitVec.allOnes 64, w.poison ||
        (v.2 && w.mask != BitVec.allOnes 64)⟩
    | w, _, _ => w
  | _ => if t.dm.isNone || t.wrote then none else t.val.map (fun v => ⟨v.1, BitVec.allOnes 64, v.2⟩)

/-- The entry waits for write data. -/
def TT.wantsWd (t : TT) : Bool := (t.plan == .wbOwn || t.plan == .wbNo) && t.wd.isNone

/-- Every snoop is answered: go on (Tables 7-5 and 7-7). -/
def State.settle (s : State) (h e : Nat) (t : TT) : State :=
  if !t.await.isEmpty || !t.crossed.isEmpty then s.setTT h e t
  else if t.lacks then
    let t := { t with st := .dat }
    if t.memOut then s.setTT h e t else s.memRead h e t
  else if t.wantsWd then s.setTT h e { t with st := .wb }
  else
    let t := { t with st := .wb }
    let wb := t.plan == .wbOwn || t.plan == .wbNo
    let s := match t.toWrite with
      | some w => s.memWrite h e t w
      | none => s.setTT h e t
    let t := { t with wrOut := t.wrOut || t.toWrite.isSome }
    if wb then (match t.way with
      | some w => s.setDir t.line w {}
      | none => s)
    else s.conclude h e t

/-- R169, Table 7-7: a DataM that a snoop brought. A whole line is written at once; a WbD of another agent is written over
it, and a part of a line once it has been merged. -/
def State.snoopData (s : State) (h e : Nat) (t : TT) (d : MaskedData) : TT × State :=
  let t := { t with dm := some d }
  if d.mask = BitVec.allOnes 64 ∧ t.plan ≠ .wbNo ∧ t.wrote = false then
    ({ t with wrote := true, wrOut := true }, s.memWrite h e { t with wrote := true } d)
  else (t, s.setTT h e t)

/-- Start the action of Table 7-5 for an entry whose way is settled. -/
def State.act (s : State) (h e : Nat) (t : TT) : State :=
  let d := match t.way with | some w => s.dirEnt t.line w | none => {}
  let (plan, tgt, snp, fwd) := planOf (s.on F.HOM_CTL_FWD_EN h) d t.opc t.msg
  -- a writer that the entry lists but does not snoop leaves it (Table 7-5, notes)
  let s := if plan == .wbNo && d.dstate != 3 then
      (match t.way with
       | some w => s.setDir t.line w (d.drop t.req)
       | none => s)
    else s
  -- R168: a WbD that neither is absorbed nor comes from the owner
  let s := if t.opc = opWbD ∧ plan = .wbNo ∧ t.msg.noown = false then
      (s.bump F.HOM_ERR_WBD_NOTOWN 1 h).record 0x10 1 rasHOM h t.line s.slot
        (cohDetail t.req 1 HbSt.wb.code opWbD 4)
    else s
  let wd := if t.opc = opWbD then (s.wdbOf h t.req t.line).map (fun w => { w.wd with mask := t.msg.mask }) else none
  let t := { t with plan := plan, snp := snp, await := tgt, st := .snp, wd := wd }
  let s := s.setTT h e t
  let s := s.forEach tgt (fun s a => s.snoop h e t a snp fwd)
  if tgt.isEmpty then s.settle h e t
  else if plan.needs && s.on F.HOM_CTL_SPEC_RD h then s.memRead h e t else s

/-! ### Directory ways (R165, R166) -/

/-- Ways of the line's set that an open entry of the home has found or taken. -/
def State.waysBusy (s : State) (h line : Nat) : List Nat :=
  (s.tts h).filterMap (fun x => if lineSet x.2.line == lineSet line then x.2.way else none)

/-- The first invalid way of the set that no open entry has taken. -/
def State.freeWay (s : State) (h line : Nat) : Option Nat :=
  let busy := s.waysBusy h line
  (List.range s.dirWays).find? (fun w => (s.dirEnt line w).dstate == 0 && !busy.contains w)

/-- R165: the victim: the eligible way with the fewest holders, from the round-robin pointer on. -/
def State.victimWay (s : State) (h line : Nat) : Option Nat :=
  let busy := s.waysBusy h line
  let n := s.dirWays
  let p := smGet 0 s.coh.rr (h * 8192 + lineSet line)
  let order := (List.range n).map (fun k => (p + k) % n)
  let ok := order.filter (fun w => !busy.contains w && (s.dirEnt line w).dstate != 0)
  let cost := fun w => (s.dirEnt line w).holders.length
  match ok.map cost with
  | [] => none
  | c :: cs => let m := cs.foldl min c; ok.find? (fun w => cost w == m)

/-- R165: start the recall of a victim under a recall entry. -/
def State.recallWay (s : State) (h line w e : Nat) : State :=
  let d := s.dirEnt line w
  let vl := lineAt h (lineSet line) d.tag
  let m : CohMsg := { line := BitVec.ofNat 40 vl, slot := BitVec.ofNat 4 s.slot }
  let t : TT := { opc := 0, msg := m, st := .snp, seq := s.coh.seq, plan := .takeBack, way := some w, snp := opSnpI,
                  await := d.holders }
  let s := { s with coh := { s.coh with
    seq := s.coh.seq + 1,
    rr := smSet 0 s.coh.rr (h * 8192 + lineSet line) ((w + 1) % s.dirWays) } }
  let s := ((s.bump F.HOM_STAT_COUNT 1 h 4).counts h evRecall).setTT h e t
  s.forEach d.holders (fun s a => s.snoop h e t a opSnpI false)

/-- R166: an older request of the set waits in HB_ALLOC. -/
def State.allocAhead (s : State) (h : Nat) (t : TT) : Bool :=
  (s.tts h).any (fun x => x.2.st == .alloc && x.2.seq < t.seq && lineSet x.2.line == lineSet t.line)

/-- R165, R166: an entry without a way takes one, or starts a recall and waits, or waits, behind the older requests of the
set. `first`: it has not entered HB_ALLOC yet. -/
def State.takeWay (s : State) (h e : Nat) (t : TT) (first : Bool) : State :=
  match s.freeWay h t.line, s.allocAhead h t with
  | some w, false => s.act h e { t with way := some w, victim := none }
  | some _, true =>
    (s.setTT h e { t with st := .alloc, victim := none }).when first (fun s =>
      (s.bump F.HOM_STAT_COUNT 1 h 5).counts h evAlloc { agent := some t.req } (s.txnOfMsg t.msg))
  | none, _ =>
    let s := s.when first (fun s => (s.bump F.HOM_STAT_COUNT 1 h 5).counts h evAlloc { agent := some t.req } (s.txnOfMsg t.msg))
    let pending := match t.victim with
      | some w => (s.tts h).any (fun x => x.2.opc == 0 && x.2.way == some w && lineSet x.2.line == lineSet t.line)
      | none => false
    if pending then s
    else match s.victimWay h t.line, s.freeTT h 240 16 with
      | some w, some re => (s.setTT h e { t with st := .alloc, victim := some w }).recallWay h t.line w re
      | _, _ => s.setTT h e { t with st := .alloc, victim := none }

/-! ### Requests -/

/-- Table 7-5, EvC: the holder is removed and Ack sent. -/
def State.evictClean (s : State) (t : TT) (e : Nat) : State :=
  let s := match s.dirFind t.line with
    | none => s
    | some w =>
      let d := s.dirEnt t.line w
      if d.dstate = 3 ∧ d.fptr ≠ t.req then s
      else if d.holders.contains t.req then s.setDir t.line w (d.drop t.req) else s
  s.reply e t opAck false none

/-- R71: the home invalidates one holder of a line by SnpI, for a CXL Reset of that LD. -/
def State.purge (s : State) (h e : Nat) (t : TT) : State :=
  match t.way with
  | none => s
  | some w =>
    if (s.dirEnt t.line w).holders.contains t.req then
      let t := { t with plan := .takeBack, snp := opSnpI, await := [t.req] }
      (s.setTT h e t).snoop h e t t.req opSnpI false
    else s

/-- R170: an entry that has answered at once closes. -/
def State.closeNow (s : State) (h e : Nat) : State :=
  match s.tt h e with
  | none => s
  | some t => if t.closes then s.dropTT h e else s

/-- R168: the home serves a request in TT entry `e`. -/
def State.serve (s : State) (h e : Nat) (opc : Nat) (m : CohMsg) : State :=
  let line := m.line.toNat
  let t : TT := { opc := opc, msg := m, st := .snp, seq := s.coh.seq, plan := .copy, way := s.dirFind line }
  let s := { s with coh := { s.coh with seq := s.coh.seq + 1 } }
  let tier := (s.pme (line / 64)).tier
  let q : Qual := { agent := some t.req, tier := some tier, cls := some (reqClass t.req opc) }
  let id := s.txnOfMsg m
  let s := s.bump F.HOM_STAT_COUNT 1 h 0
  let s := if opc = 0 then s else (s.onTxn id (fun x => { x with tier := tier, twin := (s.pme (line / 64)).twin })).counts h evServed q id
  let d := match t.way with | some w => s.dirEnt line w | none => {}
  if opc = 0 then s.purge h e t
  else if opc = opEvC then (s.evictClean t e)
  else if opc = opWbD ∧ ((s.wdbOf h t.req line).map (·.absorbed)) = some true then
    (s.freeWdb h t.req line).reply e t opAck false none
  else if needsWay d opc m then (s.setTT h e t).takeWay h e t true
  else (s.act h e t).closeNow h e

/-- R158: a request that the home has accepted: one whose line is free takes a TT entry and is served; else it waits in the
conflict queue. -/
def State.homeRequest (s : State) (f : Flight) : State :=
  let line := f.msg.line.toNat
  let h := homeOf line
  let wait := s.onHome h (fun x => { x with confq := x.confq ++ [f] })
  if s.lineBusy line || (s.home h).confq.any (fun x => x.msg.line == f.msg.line) then wait
  else match s.freeTT h 0 240 with
    | none => wait
    | some e => s.serve h e f.opc f.msg

/-- R71: a holder of a line is invalidated, once the line is free. -/
def State.homePurge (s : State) (f : Flight) : State :=
  let h := homeOf f.msg.line.toNat
  match s.lineBusy f.msg.line.toNat, s.freeTT h 0 240 with
  | false, some e => s.serve h e 0 f.msg
  | _, _ => s.onHome h (fun x => { x with purges := x.purges ++ [f] })

/-- R158, R170: of the requests that wait in a home's conflict queue, the first whose line has no open entry starts; the
holders that a CXL Reset invalidates go ahead. -/
def State.startNext (s : State) (h : Nat) : Option State :=
  let free := fun (f : Flight) => !s.lineBusy f.msg.line.toNat
  match s.freeTT h 0 240 with
  | none => none
  | some e =>
    match (s.home h).purges.find? free with
    | some f => some ((s.onHome h (fun x => { x with purges := x.purges.erase f })).serve h e 0 f.msg)
    | none => ((s.home h).confq.find? free).map (fun f =>
        (s.onHome h (fun x => { x with confq := x.confq.erase f })).serve h e f.opc f.msg)

/-- R158, R170: requests start as long as one can. The first argument bounds their number. -/
def State.startQueued : Nat → State → Nat → State
  | 0, s, _ => s
  | n + 1, s, h =>
    match s.startNext h with
    | none => s
    | some s => State.startQueued n s h

/-- R207: a home whose domain drains recalls its valid directory ways, as many as it has recall entries for. -/
def State.drainHome (s : State) (h : Nat) : State :=
  s.forEach (s.coh.dir.filter (fun x => x.1 / 131072 == h)) (fun s x =>
    let line := lineAt h (x.1 / 16 % 8192) x.2.tag
    match s.freeTT h 240 16 with
    | none => s
    | some e => if s.lineBusy line || (s.waysBusy h line).contains (x.1 % 16) then s else s.recallWay h line (x.1 % 16) e)

/-- Close an entry if it closes (R170). -/
def State.tryClose (s : State) (h e : Nat) : State :=
  match s.tt h e with
  | none => s
  | some t =>
    if t.closes then
      let s := State.startQueued 64 (s.dropTT h e) h
      if s.rd F.NOC_DOM_STATUS_STATE 0 h = domDRAINING then s.drainHome h else s
    else s

/-! ### Answers, data and acceptance (Table 7-7) -/

/-- Record a snoop answer in the directory. -/
def State.noteAnswer (s : State) (t : TT) (a opc : Nat) : State :=
  match t.way with
  | none => s
  | some w =>
    let d := s.dirEnt t.line w
    if opc = opRspI || opc = opRspX then s.setDir t.line w (d.drop a)
    else if opc = opRspS ∧ t.plan ≠ .forward then s.setDir t.line w { d with dstate := 1, fptr := 0 }
    else s

/-- R167, R171: the F holder has forwarded: the requester holds F after RspS, S after RspF. -/
def State.forwarded (s : State) (h e : Nat) (t : TT) (opc : Nat) : State :=
  let s := s.bump F.HOM_STAT_COUNT 1 h 2
  let s := match t.way with
    | none => s
    | some w =>
      let d := s.dirEnt t.line w
      let d := { d with sharers := setBit d.sharers t.req true }
      s.setDir t.line w (if opc = opRspS then { d with dstate := 2, fptr := t.req } else d)
  (s.setTT h e { t with sent := true, st := .wb }).tryClose h e

/-- R173: RspX: the agent's WbD data serves the snoop. -/
def State.crossing (s : State) (h e : Nat) (t : TT) (a : Nat) : State :=
  let s := (s.bump F.HOM_STAT_COUNT 1 h 3).counts h evCross
  match s.wdbOf h a t.line with
  | some w =>
    let (t, s) := (s.absorb h a t.line).snoopData h e t w.wd
    s.settle h e t
  | none =>
    match t.dm with
    | some d =>
      (s.onHome h (fun x => { x with wdb := x.wdb ++ [⟨a, t.line, d, true⟩] })).settle h e t
    | none => s.setTT h e { t with crossed := t.crossed ++ [a] }

/-- R170: a snoop answer reaches its TT entry. -/
def State.homeAnswer (s : State) (opc : Nat) (m : CohMsg) : State :=
  let line := m.line.toNat
  let h := homeOf line
  let e := m.htag.toNat
  let a := m.src.toNat
  match s.tt h e with
  | none => s.peHome h .alloc opc a line
  | some t =>
    if t.st != .snp || !t.await.contains a || t.line != line then s.peHome h t.st opc a line
    else
      let t := { t with await := t.await.filter (· != a) }
      let s := s.noteAnswer t a opc
      if opc = opRspX then
        let t := if t.plan = .forward then { t with plan := .share } else t
        (s.setTT h e t).crossing h e t a |>.tryClose h e
      else if t.plan = .forward then
        if opc = opRspI then s.settle h e { t with plan := .share } |>.tryClose h e
        else s.forwarded h e t opc
      else s.settle h e t |>.tryClose h e

/-- A WbD of this agent for this line is at the home or on its way. -/
def State.wbdComing (s : State) (h a : Nat) (line : Nat) : Bool :=
  let mine := fun (f : Flight) => f.opc == opWbD && f.msg.src.toNat == a && f.msg.line.toNat == line
  (s.home h).confq.any mine || s.coh.flight.any mine

/-- R170, R173, R174: a DataM reaches the home: a snoop's data, the data of a WbD, a lock release, or unexpected. -/
def State.homeDataM (s : State) (m : CohMsg) : State :=
  let line := m.line.toNat
  let h := homeOf line
  let a := m.src.toNat
  let d : MaskedData := ⟨m.data, m.mask, m.poison⟩
  match (s.tts h).find? (fun x => x.2.line == line) with
  | none =>
    if s.wbdComing h a line then s.onHome h (fun x => { x with wdb := x.wdb ++ [⟨a, line, d, false⟩] })
    else s.peDataM h .alloc a line
  | some (k, t) =>
    let e := k % 256
    if t.wantsWd && t.req == a && t.st == .wb then
      let s := s.onHome h (fun x => { x with wdb := x.wdb ++ [⟨a, line, d, false⟩] })
      (s.settle h e { t with wd := some { d with mask := t.msg.mask } }).tryClose h e
    else if t.crossed.contains a then
      let s := s.onHome h (fun x => { x with wdb := x.wdb ++ [⟨a, line, d, true⟩] })
      let (t, s) := s.snoopData h e { t with crossed := t.crossed.filter (· != a) } d
      (s.settle h e t).tryClose h e
    else if t.lockAt.isSome && t.req == a then
      let t := { t with lockAt := none }
      if m.write then
        let d : MaskedData := ⟨m.data, BitVec.allOnes 64, m.poison⟩
        -- R160: the release has spent a credit, and its data takes a buffer entry until WDONE
        let s := (s.spend a h).onHome h (fun x => { x with wdb := x.wdb ++ [⟨a, line, d, false⟩] })
        if t.wrOut then s.setTT h e { t with wd := some d } else s.memWrite h e t d
      else (s.setTT h e t).tryClose h e
    else if s.wbdComing h a line || (t.opc == opWbD && t.req == a && t.wd.isNone) then
      let s := s.onHome h (fun x => { x with wdb := x.wdb ++ [⟨a, line, d, false⟩] })
      if t.opc == opWbD && t.req == a then s.setTT h e { t with wd := some { d with mask := t.msg.mask } } else s
    else if t.st == .snp && t.await.contains a then (s.snoopData h e t d).2
    else s.peDataM h t.st a line

/-- Table 7-7, last column: a completion or data addressed to a home. -/
def State.homeStray (s : State) (opc : Nat) (m : CohMsg) : State :=
  let h := homeOf m.line.toNat
  s.peHome h (((s.tt h m.htag.toNat).map (·.st)).getD .alloc) opc m.src.toNat m.line.toNat

/-- R145, R147: the tag line of a page read through its home for gallery `g`: from memory where no agent owns the line and
no transaction on it is open, else by an RdS with NOALLOC, whose data is awaited (`none`). -/
def State.tagLine (s : State) (p g : Nat) : Option (Bytes × Bool) × State :=
  let l := s.tagAddr p / 64
  match s.map.tags.find? (fun x => x.1 == l && x.2.1 == g) with
  | some (_, _, none) => (none, s)
  | some (_, _, some v) =>
    let rest := s.map.tags.filter (fun x => !(x.1 == l && x.2.1 == g))
    (some (lineBytes v.1, v.2), { s with map := { s.map with tags := rest } })
  | none =>
    let owned := match s.dirFind l with
      | some w => (s.dirEnt l w).dstate == 3
      | none => false
    if owned || s.lineBusy l then
      let s := { s with map := { s.map with tags := s.map.tags ++ [(l, g, none)] } }
      (none, s.send ⟨opRdS, .home, { src := BitVec.ofNat 7 (64 + g), line := BitVec.ofNat 40 l, slot := BitVec.ofNat 4 s.slot,
                                      rtag := tagTag, noalloc := true }⟩)
    else
      let ((d, bad), s) := (s.postRead l (64 + g)).takeLine l (64 + g) none (s.tagNow (l / 64))
      (some (d, bad), s)

/-- R94, R170: memory data reaches the entry: not before the ranks that hold it are awake. A block for a fenced gallery waits
at its boundary (R93), and a mode 2 read waits for its tag line (R145). -/
def State.memArrives (s : State) (h e : Nat) (t : TT) (r : MapReq) : State :=
  let asleep := if r.got.isSome then [] else s.sleepers (s.readMas t.line)
  let held := if r.got.isSome then none else s.blockHeld t.line
  if !asleep.isEmpty then s.rouseAll asleep
  else match held with
    | some (g, b, ct) => s.holdBlk g (t.line / 64) b ct
    | none =>
      let p := t.line / 64
      let (tag, s) := if s.tagOnRead p && !s.lost p then s.tagLine p (s.galFor (s.blockChan (s.runOf p (s.pme p)) 0))
        else (some ([], true), s)
      match tag with
      | none => s
      | some tag =>
        let s := s.dropReq r
        let ((d, bad), s) := s.takeLine t.line t.req r.got tag
        ((s.readDone h e).settle h e { t with memOut := false, mem := some (lineOfBytes d, bad) }).tryClose h e

/-- R170: memory data reaches the entry. -/
def State.homeMemData (s : State) (h e : Nat) : State :=
  match s.tt h e with
  | none => s
  | some t =>
    if !t.memOut then s.peInternal h t.st t.line
    else
      let s := s.hurry h e false
      match s.mapReq h e false with
      | none => s
      | some r =>
        if r.st != .served then s
        else if t.st = .wb then (((s.dropReq r).readDone h e).setTT h e { t with memOut := false }).tryClose h e
        else s.memArrives h e t r

/-- R170: the map slice has accepted the entry's write: Ack or Cmp if owed. -/
def State.homeWdone (s : State) (h e : Nat) : State :=
  match s.tt h e with
  | none => s
  | some t =>
    if !t.wrOut then s.peInternal h t.st t.line
    else
      let s := s.hurry h e true
      match s.mapReq h e true with
      | none => s
      | some r =>
        let (there, s) := s.bring (wdoneFlight r)
        if r.st != .served || !there then s
        else
          let s := s.dropPkt (wdoneFlight r)
          let s := s.dropReq r
          let t := { t with wrOut := false }
          let s := match t.plan with
            | .wbOwn => (s.freeWdb h t.req t.line).reply e t opAck false none
            | .wbNo => (s.freeWdb h t.req t.line).reply e t opCmp false none
            | .copy => if t.msg.lock && t.lockAt.isNone && t.wd.isNone then s.freeWdb h t.req t.line else s
            | _ => s
          let t : TT := { t with sent := t.sent || t.plan == Plan.wbOwn || t.plan == Plan.wbNo }
          match t.plan, t.wd with
          -- R174: the release came before the snoop's data had been accepted
          | .copy, some d => s.memWrite h e { t with wd := none } d
          | _, _ => (s.setTT h e t).tryClose h e

end Sys2Proof.Machine
end

