-- ==== Sys2Proof/Machine/Agent.lean ====
section
/-!
DEFINITION. Caching agents (R171 to R173): the galleries and the control complex, by Table 7-8.
-/

namespace Sys2Proof.Machine

/-- Key of an agent's line. -/
def lineKey (a slot line : Nat) : Nat := (a * 16 + slot) * 2 ^ 40 + line

/-- An agent's line. -/
def State.agLine (s : State) (a slot line : Nat) : AgLine := smGet {} s.coh.lines (lineKey a slot line)

/-- A load hits in the state (Table 7-8). -/
def AgSt.hits : AgSt → Bool
  | .m | .e | .s | .f | .smA | .fmA => true
  | _ => false

/-- A line at a member that this one is not coherent with: its accesses are lite ones, which leave the agent's state alone
(R160, R181). -/
def State.liteLine (s : State) (sl : Nat) : Bool := sl != s.slot && !s.coherent sl

/-- RTAG of a caching agent's lite accesses (log entry 32, DESIGN CHOICE). -/
def liteTag : BitVec 8 := 65

/-- R207: a draining gallery sends no request of its own. -/
def State.mayAsk (s : State) (a : Nat) : Bool :=
  !(64 ≤ a && a < 80 && s.rd F.NOC_DOM_STATUS_STATE 0 (a - 48) == domDRAINING)

/-- The line is valid in the cache: it is there, and is not leaving. -/
def AgSt.valid : AgSt → Bool
  | .m | .e | .s | .f | .smA | .fmA => true
  | _ => false

/-- The line takes a way of the cache: one that is there or awaited. -/
def AgSt.takesWay : AgSt → Bool
  | .i | .miA | .eiA | .siA | .fiA => false
  | _ => true

/-- GAL_STATUS.CACHE_VALID counts a gallery's valid lines. -/
def State.showCache (s : State) (a : Nat) (was is_ : Bool) : State :=
  if a < 64 || 80 ≤ a || was == is_ then s
  else if is_ then s.bump F.GAL_STATUS_CACHE_VALID 1 (a - 64) else s.sub F.GAL_STATUS_CACHE_VALID 1 (a - 64)

/-- Set an agent's line; a line in I holds nothing. -/
def State.setAg (s : State) (a slot line : Nat) (x : AgLine) : State :=
  let o := s.agLine a slot line
  let x := if x.st = .i then { x with data := 0, poison := false, store := none } else x
  let s := { s with coh := { s.coh with lines := smSet {} s.coh.lines (lineKey a slot line) x } }
  s.showCache a o.st.valid x.st.valid

/-- GAL_CACHE_STATn: count for a gallery: 0 hits, 1 misses, 2 SnpF1 forwards, 3 evictions. -/
def State.galStat (s : State) (a n : Nat) : State :=
  if 64 ≤ a && a < 80 then
    let s := s.bump F.GAL_CACHE_STAT_COUNT 1 (a - 64) n
    if n = 0 then s.counts (a - 32) evGHit else if n = 1 then s.counts (a - 32) evGMiss else s
  else s

/-- R406 code of a state. -/
def AgSt.code : AgSt → Nat
  | .m => 0 | .e => 1 | .s => 2 | .f => 3 | .i => 4 | .isD => 5 | .imD => 6 | .smA => 7 | .fmA => 8
  | .miA => 9 | .eiA => 10 | .siA => 11 | .fiA => 12

/-- Block and instance of an agent's RAS records: a gallery, or the control complex. -/
def agBlock (a : Nat) : Nat × Nat := if a < 80 then (rasGAL, a - 64) else (rasFWC, 0)

/-- PE-S and PE-C: a RAS record of class COH_PROTO. -/
def State.peAgent (s : State) (a : Nat) (st : AgSt) (opc action : Nat) (m : CohMsg) : State :=
  s.record 0x10 1 (agBlock a).1 (agBlock a).2 m.line.toNat m.slot.toNat (cohDetail a 0 st.code opc action)

/-- Send to the line's home: on the torus, or over Catwalk to the member that holds it. -/
def State.toHome (s : State) (f : Flight) : State := s.send f

/-- A message of agent `a` about a line. -/
def agMsg (a : Nat) (m : CohMsg) : CohMsg := { src := BitVec.ofNat 7 a, line := m.line, slot := m.slot, htag := m.htag }

/-- Send a request for a line. -/
def State.agReq (s : State) (a opc : Nat) (m : CohMsg) : State :=
  s.request ⟨opc, .home, { agMsg a m with htag := 0, mask := if opc = opWbD then BitVec.allOnes 64 else 0 }⟩ a

/-- Answer a snoop. -/
def State.agRsp (s : State) (a opc : Nat) (m : CohMsg) : State := s.toHome ⟨opc, .home, agMsg a m⟩

/-- Send the line's data to the home. -/
def State.agData (s : State) (a : Nat) (m : CohMsg) (x : AgLine) : State :=
  s.toHome ⟨opDataM, .home, { agMsg a m with data := x.data, poison := x.poison, write := true,
                                             mask := BitVec.allOnes 64 }⟩

/-- R171: Fwd: Data to the requester that REQID names, with GRANT F and the answer RspS for an ID of 64 or above, else
GRANT S and RspF. An ID of 81 and above names a member. A snoop that a proxy filter sends for a local request names a local
agent; one of a home, or passed on from the home's member (R180), an agent of that member's numbering (log entry 31, DESIGN
CHOICE). -/
def State.agFwd (s : State) (a : Nat) (m : CohMsg) (x : AgLine) : State × Bool :=
  let hi := 64 ≤ m.reqid.toNat
  let d : CohMsg := { src := BitVec.ofNat 7 a, line := m.line, slot := m.slot, htag := m.htag, rtag := m.rtag, grant := hi,
                      poison := x.poison, mask := BitVec.allOnes 64, data := x.data }
  let r := m.reqid.toNat
  let f : Flight := ⟨opData, .agent r, d⟩
  -- a snoop that the proxy passes on carries the proxy of the home's member as SRC, and that member's REQID
  let from_ := if 81 ≤ m.src.toNat then m.slot.toNat else s.slot
  let t := if 81 ≤ r then proxySlot from_ r else from_
  let s := (if t = s.slot then s.send f else s.toMember t f).galStat a 2
  (s.agRsp a (if hi then opRspS else opRspF) m, hi)

/-- The snoops of Table 7-8: 0 SnpS, 1 SnpI, 2 SnpF0, 3 SnpF1. -/
def snpKind (opc : Nat) (m : CohMsg) : Nat :=
  if opc = opSnpS then 0 else if opc = opSnpI then 1 else if m.fwd then 3 else 2

/-- R171: a snoop at an agent, by Table 7-8. -/
def State.agSnoop (s : State) (a opc : Nat) (m : CohMsg) : State :=
  let sl := m.slot.toNat
  let ln := m.line.toNat
  let x := s.agLine a sl ln
  let k := snpKind opc m
  let set := fun (s : State) (st : AgSt) => s.setAg a sl ln { x with st := st }
  let rspI := fun (s : State) (st : AgSt) => (set s st).agRsp a opRspI m
  let pe := fun (s : State) => s.peAgent a x.st opc 1 m
  match x.st, k with
  | .m, 0 => (set (s.agData a m x) .s).agRsp a opRspS m
  | .m, 1 => rspI (s.agData a m x) .i
  | .m, 2 => (set (s.agData a m x) .e).agRsp a opRspF m
  | .m, _ => rspI (pe (s.agData a m x)) .i
  | .e, 0 => (set s .s).agRsp a opRspS m
  | .e, 1 => rspI s .i
  | .e, 2 => s.agRsp a opRspF m
  | .e, _ => rspI (pe s) .i
  | .s, 1 => rspI s .i
  | .s, _ => rspI (pe s) .i
  | .f, 1 => rspI s .i
  | .f, 3 => let (s, hi) := s.agFwd a m x; if hi then set s .s else s
  | .f, _ => rspI (pe s) .i
  | .i, _ => (pe s).agRsp a opRspI m
  | .isD, _ => s.setAg a sl ln { x with held := x.held ++ [⟨opc, .agent a, m⟩] }
  | .imD, _ => s.setAg a sl ln { x with held := x.held ++ [⟨opc, .agent a, m⟩] }
  | .smA, 3 => rspI (pe s) .imD
  | .smA, _ => rspI s .imD
  | .fmA, 3 => let (s, hi) := s.agFwd a m x; if hi then set s .smA else s
  | .fmA, _ => rspI s .imD
  | .miA, 3 => (pe s).agRsp a opRspX m
  | .miA, _ => s.agRsp a opRspX m
  | .eiA, 3 => (pe s).agRsp a opRspI m
  | .eiA, _ => s.agRsp a opRspI m
  | .siA, 1 => s.agRsp a opRspI m
  | .siA, _ => (pe s).agRsp a opRspI m
  | .fiA, 1 => s.agRsp a opRspI m
  | .fiA, 3 => (s.agFwd a m x).1
  | .fiA, _ => (pe s).agRsp a opRspI m

/-- Handle the snoops held until now, in the state reached (R171). -/
def State.agHeld (s : State) (a sl ln : Nat) : State :=
  let x := s.agLine a sl ln
  let s := s.setAg a sl ln { x with held := [] }
  s.forEach x.held (fun s f => s.agSnoop a f.opc f.msg)

/-- E, then the store; M (Table 7-8). -/
def AgLine.stored (x : AgLine) : AgLine :=
  match x.store with
  | some (d, k) => { x with st := .m, data := mergeMask x.data d k, store := none }
  | none => { x with st := .e }

/-- R171: a completion or data at an agent, by Table 7-8. -/
def State.agComplete (s : State) (a opc : Nat) (m : CohMsg) : State :=
  let sl := m.slot.toNat
  let ln := m.line.toNat
  let x := s.agLine a sl ln
  let pe := s.peAgent a x.st opc 2 m
  let fill := { x with data := m.data, poison := m.poison }
  if opc = opData then
    if x.st = .isD then (s.setAg a sl ln { fill with st := if m.grant then .f else .s }).agHeld a sl ln else pe
  else if opc = opDataE then
    if x.st = .isD then (s.setAg a sl ln { fill with st := .e }).agHeld a sl ln
    else if x.st = .imD then (s.setAg a sl ln { fill.stored with st := .m }).agHeld a sl ln else pe
  else if opc = opCmpE then
    if x.st = .imD then
      -- R172: the snoops that came before this CmpE are handled in the state reached: IM_D still holds them
      s.agReq a opRdO m
    else if x.st = .smA ∨ x.st = .fmA then (s.setAg a sl ln { x.stored with st := .m }).agHeld a sl ln else pe
  else if opc = opAck then
    match x.st with
    | .miA | .eiA | .siA | .fiA => s.setAg a sl ln { x with st := .i }
    | _ => pe
  else pe

/-- R160, R171: a local eviction. A WbD needs a write-data credit at the home, and is not made without one. -/
def State.agEvict (s : State) (a : Nat) (m : CohMsg) : State :=
  let sl := m.slot.toNat
  let ln := m.line.toNat
  let x := s.agLine a sl ln
  let clean := fun (st : AgSt) => ((s.galStat a 3).setAg a sl ln { x with st := st }).agReq a opEvC m
  match x.st with
  | .m =>
    if s.spent a (homeOf ln) < 4 then
      (((s.galStat a 3).spend a (homeOf ln)).setAg a sl ln { x with st := .miA }).agReq a opWbD m
        |>.agData a { m with htag := 0 } x
    else s
  | .e => clean .eiA
  | .s => clean .siA
  | .f => clean .fiA
  | _ => s

/-- The lines that an agent's cache holds, as (member, line). -/
def State.agLines (s : State) (a : Nat) : List (Nat × Nat) :=
  (s.coh.lines.filter (fun x => x.1 / 2 ^ 44 == a && x.2.st != .i)).map (fun x => (x.1 / 2 ^ 40 % 16, x.1 % 2 ^ 40))

/-- The lines of a gallery's cache set (Table 12-4: 2,048 sets of 16 ways; log entry 33, DESIGN CHOICE). -/
def State.galSet (s : State) (a line : Nat) : List (Nat × Nat) :=
  (s.agLines a).filter (fun x => x.2 % 2048 == line % 2048 && (s.agLine a x.1 x.2).st.takesWay)

/-- The set of a gallery's cache is full. -/
def State.galFull (s : State) (a line : Nat) : Bool := 64 ≤ a && a < 80 && 16 ≤ (s.galSet a line).length

/-- The lines of the set that can leave now: stable ones, and a modified one whose WbD has its credit (R160). -/
def State.galVictims (s : State) (a line : Nat) : List (Nat × Nat) :=
  (s.galSet a line).filter (fun x => match (s.agLine a x.1 x.2).st with
    | .m => decide (s.spent a (homeOf x.2) < 4)
    | .e | .s | .f => true
    | _ => false)

/-- A gallery whose set is full evicts a line to take another; which, the spec does not say (a free value). -/
def State.galRoom (s : State) (a line : Nat) : State :=
  let l := s.galVictims a line
  if !s.galFull a line then s
  else
    let (k, s) := s.draw
    match l[k % l.length]? with
    | none => s
    | some (sl, ln) => s.agEvict a { slot := BitVec.ofNat 4 sl, line := BitVec.ofNat 40 ln }

/-- A miss finds the set full of lines that cannot leave now: the access stalls. -/
def State.noWay (s : State) (a : Nat) (m : CohMsg) : Bool :=
  !s.liteLine m.slot.toNat && s.galFull a m.line.toNat && (s.galVictims a m.line.toNat).isEmpty

/-- R207, R312: every line of a gallery's cache is evicted; those that lack a credit follow as answers come in. -/
def State.galEvict (s : State) (g : Nat) : State :=
  let a := 64 + g
  let s := s.forEach (s.agLines a) (fun s x =>
    s.agEvict a { slot := BitVec.ofNat 4 x.1, line := BitVec.ofNat 40 x.2 })
  s.onGal g (fun x => { x with flush := !(s.agLines a).isEmpty })

/-- R171: a local load: a hit, or a miss that sends RdS. A lite one sends RdS with NOALLOC. -/
def State.agLoad (s : State) (a : Nat) (m : CohMsg) : State :=
  let x := s.agLine a m.slot.toNat m.line.toNat
  if x.st.hits then s.galStat a 0
  else if x.st != .i || s.noWay a m then s
  else if s.liteLine m.slot.toNat then
    (s.galStat a 1).request ⟨opRdS, .home, { agMsg a m with htag := 0, rtag := liteTag, noalloc := true }⟩ a
  else
    let s := (s.galStat a 1).galRoom a m.line.toNat
    (s.setAg a m.slot.toNat m.line.toNat { x with st := .isD }).agReq a opRdS m

/-- R181: a lite store: WbD with NOOWN of the bytes written. -/
def State.liteStore (s : State) (a : Nat) (m : CohMsg) : State :=
  let w : CohMsg := { agMsg a m with htag := 0, rtag := liteTag, noown := true, mask := m.mask }
  (((s.galStat a 1).spend a (homeOf m.line.toNat)).request ⟨opWbD, .home, w⟩ a).send
    ⟨opDataM, .home, { agMsg a m with htag := 0, data := m.data, mask := m.mask, write := true }⟩

/-- R171: a local store of bytes of the line: a hit, or a miss that sends Upg or RdO. -/
def State.agStore (s : State) (a : Nat) (m : CohMsg) : State :=
  let sl := m.slot.toNat
  let ln := m.line.toNat
  let x := s.agLine a sl ln
  let st : Option (Line × BitVec 64) := some (m.data, m.mask)
  let miss := s.galStat a 1
  match x.st with
  | .m => (s.galStat a 0).setAg a sl ln { x with data := mergeMask x.data m.data m.mask }
  | .e => (s.galStat a 0).setAg a sl ln { x with st := .m, data := mergeMask x.data m.data m.mask }
  | .s => (miss.setAg a sl ln { x with st := .smA, store := st }).agReq a opUpg m
  | .f => (miss.setAg a sl ln { x with st := .fmA, store := st }).agReq a opUpg m
  | .i =>
    if s.liteLine sl then s.liteStore a m
    else ((miss.galRoom a ln).setAg a sl ln { x with st := .imD, store := st }).agReq a opRdO m
  | _ => s

/-! ### Stalls (R160) -/

/-- R160, R207: the access can be made now: the line is stable (a load also hits in SM_A and FM_A), a WbD has its credit,
and a gallery that would ask is not draining. -/
def State.agReady (s : State) (a : Nat) (op : AgOp) (m : CohMsg) : Bool :=
  let st := (s.agLine a m.slot.toNat m.line.toNat).st
  let credit := decide (s.spent a (homeOf m.line.toNat) < 4)
  match op with
  | .load => st.hits || (st == .i && s.mayAsk a && !s.noWay a m)
  | .store => match st with
    | .m | .e => true
    | .s | .f => s.mayAsk a
    | .i => s.mayAsk a && !s.noWay a m && (!s.liteLine m.slot.toNat || credit)
    | _ => false
  | .evict => match st with
    | .m => credit
    | .e | .s | .f | .i => true
    | _ => false

/-- A local access by its kind. -/
def State.agDo (s : State) (a : Nat) (op : AgOp) (m : CohMsg) : State :=
  match op with
  | .load => s.agLoad a m
  | .store => s.agStore a m
  | .evict => s.agEvict a m

/-- R160: a local access: it is made, or it stalls behind those that stall already. -/
def State.agAccess (s : State) (a : Nat) (op : AgOp) (m : CohMsg) : State :=
  let x := s.agLine a m.slot.toNat m.line.toNat
  if x.stalled.isEmpty && s.agReady a op m then s.agDo a op m
  else s.setAg a m.slot.toNat m.line.toNat { x with stalled := x.stalled ++ [(op, m)] }

/-- R160: the accesses of an agent that stall are tried again, in order for each line. -/
def State.agRetry (s : State) (a : Nat) : State :=
  let ls := (s.coh.lines.filter (fun x => x.1 / 2 ^ 44 == a && !x.2.stalled.isEmpty)).map (fun x =>
    (x.1 / 2 ^ 40 % 16, x.1 % 2 ^ 40))
  s.forEach ls (fun s l =>
    let x := s.agLine a l.1 l.2
    (s.setAg a l.1 l.2 { x with stalled := [] }).forEach x.stalled (fun s y => s.agAccess a y.1 y.2))

end Sys2Proof.Machine
end

