-- ==== Sys2Proof/Machine/Proxy.lean ====
section
/-!
DEFINITION. The proxy filter (R177 to R181): local requests for lines homed at another member, the remote home's
snoops, and its answers. Local agents see the proxy filter as the home of the line.
-/

namespace Sys2Proof.Machine

/-! ### Entries (Table 7-9) -/

/-- R178: the ways of the proxy filter. -/
def pfWays : List Nat := [12, 13, 14, 15]

/-- The entry of way `w` of the line's set. -/
def State.pfEnt (s : State) (line w : Nat) : PfEnt := smGet {} s.coh.pf (wayKey (homeOf line) (lineSet line) w)

/-- Set a proxy-filter entry; one in PSTATE 0 is free. -/
def State.setPf (s : State) (line w : Nat) (x : PfEnt) : State :=
  let x := if x.pstate = 0 then {} else x
  { s with coh := { s.coh with pf := smSet {} s.coh.pf (wayKey (homeOf line) (lineSet line) w) x } }

/-- The way that holds the entry of a remote line. -/
def State.pfFind (s : State) (slot line : Nat) : Option Nat :=
  pfWays.find? (fun w =>
    let x := s.pfEnt line w
    x.pstate != 0 && x.slot == slot && x.tag == lineTag line)

/-- The entry of a remote line, empty if there is none. -/
def State.pfOf (s : State) (slot line : Nat) : PfEnt :=
  match s.pfFind slot line with
  | some w => s.pfEnt line w
  | none => {}

/-- Change the entry of a remote line, if there is one. -/
def State.onPf (s : State) (slot line : Nat) (f : PfEnt → PfEnt) : State :=
  match s.pfFind slot line with
  | some w => s.setPf line w (f (s.pfEnt line w))
  | none => s

/-- The local agents that an entry lists. -/
def PfEnt.holders (x : PfEnt) : List Nat := onesBelow x.locals 81

/-- An entry loses a local holder. -/
def PfEnt.drop (x : PfEnt) (a : Nat) : PfEnt :=
  { x with locals := setBit x.locals a false, fptr := if x.fptr = a then 0 else x.fptr }

/-- Table 7-9: the local owner under PSTATE E or M. FPTR zero names no owner, or LD 0 if it holds a copy (log entry 38,
DEDUCED). -/
def PfEnt.owner (x : PfEnt) : Option Nat :=
  if x.pstate < 3 || x.shared then none
  else if x.fptr ≠ 0 then some x.fptr
  else if x.locals.testBit 0 then some 0 else none

/-- The requester holds a copy in the entry. -/
def PfEnt.has (x : PfEnt) (a : Nat) : Bool := x.locals.testBit a

/-- The proxy's stable state at the remote home (Table 7-9). -/
def PfEnt.st (x : PfEnt) : AgSt :=
  match x.pstate with
  | 1 => .s
  | 2 => .f
  | 3 => .e
  | 4 => .m
  | _ => .i

/-! ### Transactions -/

/-- The open transaction of a local request, or of a recall, on a remote line. -/
def State.pfTxOf (s : State) (slot line : Nat) : Option PfTx :=
  s.coh.pfTx.find? (fun t => t.slot == slot && t.line == line && t.next != .answer)

/-- A transaction on the line is open. -/
def State.pfBusy (s : State) (slot line : Nat) : Bool := s.coh.pfTx.any (fun t => t.slot == slot && t.line == line)

/-- The same transaction: a local request's or a recall's, or that of a remote snoop. -/
def PfTx.same (t u : PfTx) : Bool :=
  t.slot == u.slot && t.line == u.line && (t.next == .answer) == (u.next == .answer)

/-- Set a transaction. -/
def State.setPfTx (s : State) (t : PfTx) : State :=
  ({ s with coh := { s.coh with pfTx := s.coh.pfTx.filter (fun (x : PfTx) => !x.same t) ++ [t] } }).showHome (homeOf t.line)

/-- Take a transaction away; the remote snoops it held are acted on next. -/
def State.dropPfTx (s : State) (t : PfTx) : State :=
  ({ s with coh := { s.coh with pfTx := s.coh.pfTx.filter (fun (x : PfTx) => !x.same t),
                                pfSnoops := s.coh.pfSnoops ++ t.held } }).showHome (homeOf t.line)

/-- Send to the remote home as this member's proxy. -/
def State.pfSend (s : State) (t : PfTx) (opc : Nat) (m : CohMsg) : State :=
  s.toMember t.slot ⟨opc, .home, { m with line := BitVec.ofNat 40 t.line, slot := BitVec.ofNat 4 t.slot }⟩

/-- Send write data to the remote home. -/
def State.pfSendData (s : State) (t : PfTx) (htag : BitVec 8) (d : MaskedData) : State :=
  s.pfSend t opDataM { htag := htag, data := d.data, mask := d.mask, poison := d.poison, write := true }

/-- Answer the local requester of a request in TT entry `e`; the buffer entry of a WbD is freed, and its credit returns. -/
def State.pfReply (s : State) (e : Nat) (f : Flight) (opc : Nat) (grant : Bool) (val : Line) (poison : Bool) : State :=
  let a := f.msg.src.toNat
  let line := f.msg.line.toNat
  let m : CohMsg := { line := f.msg.line, slot := f.msg.slot, htag := BitVec.ofNat 8 e, rtag := f.msg.rtag, grant := grant,
                      poison := poison, data := val, mask := if opNet opc = 3 then BitVec.allOnes 64 else 0 }
  let s := s.when (f.opc = opWbD) (fun s =>
    (({ s with coh := { s.coh with pfData := s.coh.pfData.eraseP (fun x =>
        x.agent == a && x.slot == f.msg.slot.toNat && x.line == line) } }).unspend a (homeOf line)).showHome (homeOf line))
  s.send ⟨opc, .agent a, m⟩

/-- Snoop a local agent for a remote line. A snoop passed on from the remote home carries that home's member as SRC, its HTAG,
REQID and RTAG (R180). -/
def State.pfSnoop (s : State) (t : PfTx) (a opc : Nat) (fwd : Bool) : State :=
  let q : CohMsg := match t.snoop, t.req with
    | some f, _ => f.msg
    | none, some f => { f.msg with htag := BitVec.ofNat 8 (t.e.getD 0), reqid := f.msg.src, src := 0 }
    | none, none => { htag := BitVec.ofNat 8 (t.e.getD 0) }
  let m : CohMsg := { src := q.src, line := BitVec.ofNat 40 t.line, slot := BitVec.ofNat 4 t.slot, htag := q.htag, fwd := fwd,
                      reqid := if fwd then q.reqid else 0, rtag := if fwd then q.rtag else 0 }
  ((s.bump F.HOM_STAT_COUNT 1 (homeOf t.line) 1).counts (homeOf t.line) evSnoop { agent := some a }).send ⟨opc, .agent a, m⟩

/-- Send SnpI to local holders, whose answers the transaction then awaits. -/
def State.pfSnoopAll (s : State) (t : PfTx) (l : List Nat) : PfTx × State :=
  ({ t with await := l }, s.forEach l (fun s b => s.pfSnoop t b opSnpI false))

/-- The write data of an agent for a remote line that the buffer holds. -/
def State.pfWdOf (s : State) (a slot line : Nat) : Option PfWd :=
  s.coh.pfData.find? (fun x => x.agent == a && x.slot == slot && x.line == line)

/-- Hold write data of an agent. -/
def State.pfKeep (s : State) (x : PfWd) : State :=
  ({ s with coh := { s.coh with pfData := s.coh.pfData ++ [x] } }).showHome (homeOf x.line)

/-- R173: write data that has served as a snoop's. -/
def State.pfAbsorb (s : State) (a slot line : Nat) : State :=
  { s with coh := { s.coh with pfData := s.coh.pfData.map (fun x =>
    if x.agent == a && x.slot == slot && x.line == line then { x with absorbed := true } else x) } }

/-! ### Toward the remote home -/

/-- R175: a protocol error of this member's proxy: 1 PE-S, 2 PE-C. -/
def State.pfPe (s : State) (slot line : Nat) (st : AgSt) (opc action : Nat) : State :=
  s.record 0x10 1 rasHOM (homeOf line) line slot (cohDetail (proxyId slot s.slot) 0 st.code opc action)

/-- The agent whose credits the proxy toward slot `t` spends (R160). -/
def pfSpender (t : Nat) : Nat := 128 + t

/-- R180: the answer to a remote snoop that has met the proxy's own Upg: after RspI the proxy holds nothing, and awaits data
(Table 7-8). A CmpE that came meanwhile causes a new RdO (R172). After a forward the Upg stays. -/
def State.pfAnswerMid (s : State) (t : PfTx) : State :=
  match t.snoop with
  | none => s.setPfTx t
  | some f =>
    let u := { t with snoop := none, ans := 0 }
    if t.st = .fmA ∧ snpKind f.opc f.msg = 3 ∧ (t.ans = opRspS ∨ t.ans = opRspF) then
      let s := s.pfSend t t.ans { htag := f.msg.htag }
      if t.ans = opRspS then
        (s.onPf t.slot t.line (fun x => { x with pstate := 1, fptr := 0 })).setPfTx { u with st := .smA }
      else s.setPfTx u
    else
      let s := match t.dm with
        | some d => s.pfSendData t f.msg.htag d
        | none => s
      let s := (s.pfSend t opRspI { htag := f.msg.htag }).onPf t.slot t.line (fun _ => {})
      let u := { u with st := .imD, dm := none, pend := none }
      match t.pend, t.req with
      | some _, some r => (s.setPfTx u).pfSend u opRdO r.msg
      | _, _ => s.setPfTx u

/-- Table 7-8: the cells of an own request open in which a snoop is PE-S. -/
def midPe (st : AgSt) (k : Nat) : Bool :=
  match st with
  | .smA | .miA | .eiA => k == 3
  | .siA => k != 1
  | .fiA => k == 0 || k == 2
  | _ => false

/-- R171, R180: a remote snoop meets the proxy's own request, by Table 7-8: local copies are acted on first. In an eviction
state the proxy has no local copy, and nothing to forward. In every other state the snoop is held until the grant, or until
the request has been sent to the remote home (log entry 113, DEDUCED). -/
def State.pfSnoopMid (s : State) (t : PfTx) (f : Flight) : State :=
  let k := snpKind f.opc f.msg
  let s := if midPe t.st k then s.pfPe t.slot t.line t.st f.opc 1 else s
  match t.st with
  | .smA | .fmA =>
    let x := s.pfOf t.slot t.line
    let u := { t with snoop := some f }
    if t.st = .fmA ∧ k = 3 ∧ x.fptr ≠ 0 then
      (s.setPfTx { u with await := [x.fptr] }).pfSnoop u x.fptr opSnpF true
    else
      let (u, s) := s.pfSnoopAll u x.holders
      if u.await.isEmpty then s.pfAnswerMid u else s.setPfTx u
  | .miA => s.pfSend t opRspX { htag := f.msg.htag }
  | .eiA | .siA | .fiA => s.pfSend t opRspI { htag := f.msg.htag }
  | _ => s.setPfTx { t with held := t.held ++ [f] }

/-- The proxy's request to the remote home has been sent: snoops held until now meet it (R162, R180). -/
def State.pfEnter (s : State) (t : PfTx) : State :=
  (s.setPfTx { t with held := [] }).forEach t.held (fun s f =>
    match s.pfTxOf t.slot t.line with
    | some t => s.pfSnoopMid t f
    | none => s)

/-- R160: a write-data credit of the remote home is spent; without one the transaction waits (`none`). -/
def State.pfCredit (s : State) (t : PfTx) : Option State :=
  if 4 ≤ s.spent (pfSpender t.slot) (homeOf t.line) then none else some (s.spend (pfSpender t.slot) (homeOf t.line))

/-- Send the request of a transaction to the remote home; the proxy enters the state of Table 7-8. A WbD leaves no local
copy, and needs its data and a credit. -/
def State.pfAsk (s : State) (t : PfTx) (opc : Nat) : State :=
  match t.req with
  | none => s
  | some f =>
    let t := { t with next := .ask opc }
    if opc = opWbD then
      match t.wd, s.pfCredit t with
      | some d, some s =>
        let s := s.onPf t.slot t.line (fun _ => {})
        ((s.pfSend t opWbD { f.msg with noown := true }).pfSendData t 0 d).pfEnter { t with out := true }
      | none, _ => s.setPfTx { t with needWd := true }
      | _, none => s.setPfTx { t with credit := true }
    else
      let up := if (s.pfOf t.slot t.line).pstate = 2 then AgSt.fmA else AgSt.smA
      let st := if opc = opRdS && !f.msg.noalloc then AgSt.isD else if opc = opRdO then AgSt.imD else if opc = opUpg then up
        else AgSt.i
      (s.pfSend t opc f.msg).pfEnter { t with st := st, out := st == .i }

/-- R179: the proxy gives the line up: WbD with the data it has, else EvC. -/
def State.pfGiveUp (s : State) (t : PfTx) : State :=
  match t.dm, s.pfCredit t with
  | some d, some s =>
    ((s.pfSend t opWbD { mask := d.mask }).pfSendData t 0 d).pfEnter { t with st := .miA }
  | some _, none => s.setPfTx { t with credit := true }
  | none, _ =>
    let st : AgSt := match (s.pfOf t.slot t.line).pstate with
      | 1 => .siA
      | 2 => .fiA
      | _ => .eiA
    (s.pfSend t opEvC {}).pfEnter { t with st := st }

/-- R180: the answer to the remote snoop, with any DataM. -/
def State.pfAnswerSnoop (s : State) (t : PfTx) : State :=
  match t.snoop with
  | none => s.dropPfTx t
  | some f =>
    let k := snpKind f.opc f.msg
    let opc := if k = 1 || t.ans = 0 then opRspI else if t.ans = opRspX then opRspI else t.ans
    let s := match t.dm with
      | some d => s.pfSendData t f.msg.htag d
      | none => s
    let s := s.pfSend t opc { htag := f.msg.htag }
    let s := s.onPf t.slot t.line (fun x =>
      if opc = opRspI then {}
      else if opc = opRspS then { x with pstate := 1, fptr := if x.shared then x.fptr else 0, shared := false }
      else if k = 2 then { x with pstate := 3 } else x)
    s.dropPfTx t

/-- R179: the local F holder has forwarded: the requester holds F after RspS, S after RspF. -/
def State.pfForwarded (s : State) (t : PfTx) (a : Nat) : State :=
  ((s.bump F.HOM_STAT_COUNT 1 (homeOf t.line) 2).onPf t.slot t.line (fun x =>
    { x with locals := setBit x.locals a true, fptr := if t.ans = opRspS then a else x.fptr })).dropPfTx t

/-- Every local answer is in: go on. -/
def State.pfProceed (s : State) (t : PfTx) : State :=
  if !t.await.isEmpty || !t.crossed.isEmpty then s.setPfTx t
  else if t.st != .i then s.pfAnswerMid t
  else match t.next with
    | .answer => s.pfAnswerSnoop t
    | .giveUp => s.pfGiveUp t
    | .again => s.pfGiveUp t
    | .ask opc => s.pfAsk t opc
    | .alloc => s.setPfTx t
    | .done =>
      match t.req with
      | none =>
        -- R242: what a purged holder brought is discarded
        (if t.dm.isSome then s.record 0x21 2 rasCWK 0 0 t.slot else s).dropPfTx t
      | some f => if t.ans = opRspI || t.ans = opRspX then s.pfAsk t opRdS else s.pfForwarded t f.msg.src.toNat

/-! ### Local requests (R179, R181) -/

/-- R181: a lite access carries NOALLOC or NOOWN. -/
def liteMsg (f : Flight) : CohMsg :=
  if f.opc = opWbD then { f.msg with noown := true } else { f.msg with noalloc := true, rcall := false, lock := false }

/-- R237: the local DLA line of a line at another member, through the IMPORT entry that holds it. -/
def State.localLine (s : State) (t line : Nat) : Option Nat :=
  (List.range 64).findSome? (fun n =>
    let b := s.rd F.CWK_SMAP_BASE_BASE 0 n
    let r := s.rd F.CWK_SMAP_RBASE_RBASE 0 n
    let u := line / 2 ^ 22
    if s.on F.CWK_SMAP_CTL_VALID 0 n && s.rd F.CWK_SMAP_CTL_TYPE 0 n == 1 && s.rd F.CWK_SMAP_CTL_SLOT 0 n == t &&
        r ≤ u && u < r + s.rd F.CWK_SMAP_LIMIT_LIMIT 0 n - b
    then some (line - r * 2 ^ 22 + b * 2 ^ 22) else none)

/-- The data or completion that a request is answered with. -/
def grantOpc (opc : Nat) : Nat := if opc = opRdO then opDataE else if opc = opUpg then opCmpE else opData

/-- R242, R60: a request for a member that cannot be reached: a read returns poisoned, with a General Media record; a
write completes and is discarded. -/
def State.pfFail (s : State) (e : Nat) (f : Flight) : State :=
  let a := f.msg.src.toNat
  if f.opc = opWbD then s.pfReply e f (if f.msg.noown then opCmp else opAck) false 0 false
  else if f.opc = opEvC then s.pfReply e f opAck false 0 false
  else
    let s := match s.localLine f.msg.slot.toNat f.msg.line.toNat with
      | some l => s.failEvent a l 1 1
      | none => s
    s.pfReply e f (grantOpc f.opc) false 0 (f.opc != opUpg)

/-- Go on with a transaction whose write data is needed: that of the buffer, or once it arrives. -/
def State.pfWithData (s : State) (t : PfTx) (f : Flight) (use : PfTx → MaskedData → PfTx) : State :=
  match s.pfWdOf f.msg.src.toNat t.slot t.line with
  | some w => s.pfProceed (use t { w.wd with mask := f.msg.mask })
  | none => s.setPfTx { t with needWd := true }

/-- The write data of a WbD is that of its transaction: what the owner had, or what is to be written. -/
def PfTx.useWd (t : PfTx) (d : MaskedData) : PfTx :=
  if t.next == .giveUp then { t with dm := some d, needWd := false } else { t with wd := some d, needWd := false }

/-- R181: a request for a line of a member that this one is not coherent with. -/
def State.pfLite (s : State) (t : PfTx) (f : Flight) : State :=
  let t := { t with req := some { f with msg := liteMsg f } }
  if f.opc = opEvC then s.pfReply (t.e.getD 0) f opAck false 0 false
  else if f.opc = opWbD then s.pfWithData { t with next := .ask opWbD } f PfTx.useWd
  else s.pfProceed { t with next := .ask opRdS }

/-- R179: a local EvC: the copy is removed, and with the last one the proxy gives the line up. -/
def State.pfEvict (s : State) (t : PfTx) (f : Flight) (x : PfEnt) : State :=
  let a := f.msg.src.toNat
  let ack := fun (s : State) => s.pfReply (t.e.getD 0) f opAck false 0 false
  if !x.has a then ack s
  else if (x.holders.filter (· != a)).isEmpty then s.pfProceed { t with next := .giveUp }
  else ack (s.onPf t.slot t.line (fun x => x.drop a))

/-- R168, R173, R179: a local WbD: absorbed; the owner's, which gives the line up; or carried out as a WbD with NOOWN, with a
RAS record unless it is one. -/
def State.pfWrite (s : State) (t : PfTx) (f : Flight) (x : PfEnt) : State :=
  let a := f.msg.src.toNat
  let h := homeOf t.line
  if !f.msg.noown && (s.pfWdOf a t.slot t.line).any (·.absorbed) then s.pfReply (t.e.getD 0) f opAck false 0 false
  else if !f.msg.noown && x.owner == some a then s.pfWithData { t with next := .giveUp } f PfTx.useWd
  else
    let s := if f.msg.noown then s else
      (s.bump F.HOM_ERR_WBD_NOTOWN 1 h).record 0x10 1 rasHOM h t.line t.slot (cohDetail a 1 HbSt.wb.code opWbD 4)
    let f := { f with msg := { f.msg with noown := true } }
    let t := { t with req := some f }
    if 3 ≤ x.pstate then
      let (t, s) := s.pfSnoopAll { t with next := .again } x.holders
      s.pfProceed t
    else
      let s := s.onPf t.slot t.line (fun x => x.drop a)
      let (t, s) := s.pfSnoopAll { t with next := .ask opWbD } (x.holders.filter (· != a))
      s.pfWithData t f PfTx.useWd

/-- The first free way of the filter in the line's set that no transaction has taken. -/
def State.pfFreeWay (s : State) (line : Nat) : Option Nat :=
  let taken := s.coh.pfTx.filterMap (fun t => if homeOf t.line == homeOf line && lineSet t.line == lineSet line then t.way else none)
  pfWays.find? (fun w => (s.pfEnt line w).pstate == 0 && !taken.contains w)

/-- The line that an entry of the line's set names. -/
def pfLineOf (line : Nat) (x : PfEnt) : Nat := lineAt (homeOf line) (lineSet line) x.tag

/-- R165, R179: the victim: the way with the fewest holders on whose line no transaction is open, from the set's round-robin
pointer on. -/
def State.pfVictim (s : State) (line : Nat) : Option Nat :=
  let p := smGet 0 s.coh.rr (131072 + homeOf line * 8192 + lineSet line)
  let ok := ((List.range 4).map (fun k => 12 + (p + k) % 4)).filter (fun w =>
    let x := s.pfEnt line w
    x.pstate != 0 && !s.pfBusy x.slot (pfLineOf line x))
  let cost := fun w => (s.pfEnt line w).holders.length
  match ok.map cost with
  | [] => none
  | c :: cs => let m := cs.foldl min c; ok.find? (fun w => cost w == m)

/-- R165, R179: recall an entry of the filter under TT entry `e`. -/
def State.pfRecallWay (s : State) (line w e : Nat) : State :=
  let x := s.pfEnt line w
  let h := homeOf line
  let key := 131072 + h * 8192 + lineSet line
  let s := { s with coh := { s.coh with rr := smSet 0 s.coh.rr key ((w - 12 + 1) % 4) } }
  let (t, s) := ((s.bump F.HOM_STAT_COUNT 1 h 4).counts h evRecall).pfSnoopAll
    { slot := x.slot, line := pfLineOf line x, e := some e, next := .giveUp } x.holders
  s.pfProceed t

/-- R166: an older request of the set waits for a way of the filter. -/
def State.pfAllocAhead (s : State) (t : PfTx) : Bool :=
  (s.coh.pfTx.takeWhile (fun u => !u.same t)).any (fun u =>
    u.next == .alloc && homeOf u.line == homeOf t.line && lineSet u.line == lineSet t.line)

/-- R165, R166: a request without an entry takes a way of the filter, or waits for one. `first`: it does not wait yet. -/
def State.pfAlloc (s : State) (t : PfTx) (f : Flight) (first : Bool) : State :=
  let h := homeOf t.line
  match s.pfFreeWay t.line, s.pfAllocAhead t with
  | some w, false => s.pfProceed { t with way := some w, next := .ask f.opc }
  | free, _ =>
    let s := s.when first (fun s => (s.bump F.HOM_STAT_COUNT 1 h 5).counts h evAlloc { agent := some f.msg.src.toNat })
    let s := s.when first (fun s => s.setPfTx { t with next := .alloc })
    match free, s.pfVictim t.line, s.freeTT h 240 16 with
    | none, some w, some e => s.pfRecallWay t.line w e
    | _, _, _ => s

/-- R179: a local read or Upg. -/
def State.pfRead (s : State) (t : PfTx) (f : Flight) (x : PfEnt) : State :=
  let a := f.msg.src.toNat
  let grants := (f.opc == opRdS && !f.msg.noalloc) || f.opc == opRdO || f.opc == opUpg
  let shares := f.opc == opRdS && grants && (x.pstate < 3 || x.shared)
  if 3 ≤ x.pstate && x.owner != some a && !shares then
    let (t, s) := s.pfSnoopAll { t with next := .again } x.holders
    s.pfProceed t
  else if !grants then s.pfProceed t
  else if x.pstate = 0 then s.pfAlloc t f true
  else if f.opc = opRdS then
    if x.fptr = 0 || x.fptr = a || !s.on F.HOM_CTL_FWD_EN (homeOf t.line) then s.pfProceed t
    else (s.setPfTx { t with next := .done, await := [x.fptr] }).pfSnoop t x.fptr opSnpF true
  else
    let (t, s) := s.pfSnoopAll { t with next := .ask (if x.has a then opUpg else opRdO) } (x.holders.filter (· != a))
    s.pfProceed t

/-- Serve a local request for a remote line that has no open transaction, in TT entry `e`. -/
def State.pfStart (s : State) (f : Flight) (e : Nat) : State :=
  let slot := f.msg.slot.toNat
  let line := f.msg.line.toNat
  let h := homeOf line
  let x := s.pfOf slot line
  let t : PfTx := { slot := slot, line := line, e := some e, req := some f, next := .ask f.opc }
  let s := (s.bump F.HOM_STAT_COUNT 1 h 0).counts h evServed
    { agent := some f.msg.src.toNat, cls := some (reqClass f.msg.src.toNat f.opc) } (s.txnOfMsg f.msg)
  -- R242: the data of this write went with the invalidation of its holder's copy
  if f.opc = opWbD && !f.msg.noown && (s.pfWdOf f.msg.src.toNat slot line).any (·.absorbed) then s.pfReply e f opAck false 0 false
  else if !s.reachable slot then s.pfFail e f
  else if !s.coherent slot then s.pfLite t f
  else if f.opc = opEvC then s.pfEvict t f x
  else if f.opc = opWbD then s.pfWrite t f x
  else s.pfRead t f x

/-- R71: a local agent's copy of a remote line is invalidated; the line is given up if no other agent holds it. -/
def State.pfPurge (s : State) (f : Flight) : State :=
  let slot := f.msg.slot.toNat
  let line := f.msg.line.toNat
  let a := f.msg.src.toNat
  let x := s.pfOf slot line
  if s.pfBusy slot line then { s with coh := { s.coh with pfPurges := s.coh.pfPurges ++ [f] } }
  else if x.has a then
    let (t, s) := s.pfSnoopAll { slot := slot, line := line, e := s.freeTT (homeOf line) 0 240,
                                 next := if (x.holders.filter (· != a)).isEmpty then .giveUp else .done } [a]
    s.setPfTx t
  else s

/-- A local request for a remote line: it waits behind an open transaction on the line, as in a home's conflict queue
(R158). -/
def State.pfRequest (s : State) (f : Flight) : State :=
  let h := homeOf f.msg.line.toNat
  let wait := ({ s with coh := { s.coh with pfq := s.coh.pfq ++ [f] } }).showHome h
  let same := fun (g : Flight) => g.msg.slot == f.msg.slot && g.msg.line == f.msg.line
  if s.pfBusy f.msg.slot.toNat f.msg.line.toNat || s.coh.pfq.any same then wait
  else match s.freeTT h 0 240 with
    | none => wait
    | some e => s.pfStart f e

/-! ### The remote home (R180) -/

/-- Table 7-8: the snoop is PE-S in the proxy's stable state. -/
def stablePe (st : AgSt) (k : Nat) : Bool :=
  match st with
  | .m | .e => k == 3
  | .s => k != 1
  | .f => k == 0 || k == 2
  | _ => true

/-- R175, R180: a remote snoop is acted on for a line on which the proxy has no request of its own. One that its state cannot
receive is answered as SnpI, with a record. -/
def State.pfSnooped (s : State) (f : Flight) : State :=
  let slot := f.msg.slot.toNat
  let line := f.msg.line.toNat
  let x := s.pfOf slot line
  let k := snpKind f.opc f.msg
  let t : PfTx := { slot := slot, line := line, snoop := some f, next := .answer }
  let pe := stablePe x.st k
  let s := if pe then s.pfPe slot line x.st f.opc 1 else s
  if !pe && k = 3 && x.fptr != 0 && s.on F.HOM_CTL_FWD_EN (homeOf line) then
    (s.setPfTx { t with await := [x.fptr] }).pfSnoop t x.fptr opSnpF true
  else if !pe && (k = 0 || k = 2) then
    match x.owner with
    | none => s.pfProceed { t with ans := if k = 0 then opRspS else opRspF }
    | some a => (s.setPfTx { t with await := [a] }).pfSnoop t a f.opc false
  else
    let (t, s) := s.pfSnoopAll { t with ans := opRspI } x.holders
    s.pfProceed t

/-- R180: a remote snoop: held while a local transaction is open, but answered by Table 7-8 where the proxy's own request is
one that a snoop overtakes. A request that leaves the proxy's state alone does not hold it (R160). -/
def State.pfRemoteSnoop (s : State) (f : Flight) : State :=
  match s.pfTxOf f.msg.slot.toNat f.msg.line.toNat with
  | none => s.pfSnooped f
  | some t => if t.out then s.pfSnooped f else s.pfSnoopMid t f

/-- What waits goes on: remote snoops held to the end of a transaction, transactions without a credit, purges, and the queued
requests whose line is free, in order. -/
def State.pfNextQueued (s : State) : State :=
  let sn := s.coh.pfSnoops
  let s := ({ s with coh := { s.coh with pfSnoops := [] } }).forEach sn State.pfRemoteSnoop
  let s := s.forEach (s.coh.pfTx.filter (·.credit)) (fun s t => s.pfProceed { t with credit := false })
  let pu := s.coh.pfPurges
  let s := ({ s with coh := { s.coh with pfPurges := [] } }).forEach pu State.pfPurge
  let q := s.coh.pfq
  ({ s with coh := { s.coh with pfq := [] } }).forEach q State.pfRequest

/-- A transaction ends: the remote snoops it held are acted on, and queued requests start. -/
def State.pfEnd (s : State) (t : PfTx) : State := (s.dropPfTx t).pfNextQueued

/-- Change the entry of a transaction's line, in the way it has or has taken. -/
def State.pfGrant (s : State) (t : PfTx) (f : PfEnt → PfEnt) : State :=
  match s.pfFind t.slot t.line, t.way with
  | some w, _ => s.setPf t.line w (f (s.pfEnt t.line w))
  | none, some w => s.setPf t.line w (f { tag := lineTag t.line, slot := t.slot })
  | none, none => s

/-- R167, R179: what the remote home granted becomes the proxy's state, and the local requester's grant follows: an LD takes S,
and so does the requester whose local sharers stay; another takes F with them. -/
def State.pfGranted (s : State) (t : PfTx) (f : Flight) (opc : Nat) (m : CohMsg) : State :=
  let a := f.msg.src.toNat
  let ld := decide (a < 64)
  let takesF := !ld && s.on F.HOM_CTL_FWD_EN (homeOf t.line)
  let others := !((s.pfOf t.slot t.line).holders.filter (· != a)).isEmpty
  let e := t.e.getD 0
  let share := fun (s : State) (p : Nat) => s.pfGrant t (fun x =>
    { x with pstate := p, locals := setBit x.locals a true, fptr := if takesF then a else x.fptr, shared := p == 3 })
  if opc = opData then ((share s (if m.grant then 2 else 1)).pfReply e f opData takesF m.data m.poison).pfEnd t
  else if opc = opDataE ∧ t.st = .isD ∧ (ld ∨ others) then
    ((share s 3).pfReply e f opData takesF m.data m.poison).pfEnd t
  else
    let s := s.pfGrant t (fun x => { x with pstate := 3, locals := 2 ^ a, fptr := a, shared := false })
    (s.pfReply e f opc false m.data m.poison).pfEnd t

/-- A credit of the remote home returns. -/
def State.pfUnspend (s : State) (t : PfTx) : State := s.unspend (pfSpender t.slot) (homeOf t.line)

/-- R165, R207: a way of the filter is recalled, if a recall entry is free. -/
def State.pfRecall (s : State) (k : Nat) (x : PfEnt) : State :=
  let line := lineAt (k / 131072) (k / 16 % 8192) x.tag
  match s.freeTT (k / 131072) 240 16 with
  | none => s
  | some e => if s.pfBusy x.slot line then s else s.pfRecallWay line (k % 16) e

/-- R207: a home whose domain drains recalls the ways of its filter. -/
def State.pfDrain (s : State) (h : Nat) : State :=
  s.forEach (s.coh.pf.filter (fun x => x.1 / 131072 == h)) (fun s x => s.pfRecall x.1 x.2)

/-- R179: the proxy has given the line up: the request that did so is answered, or the request that waited is served anew, ahead
of those queued. -/
def State.pfGone (s : State) (t : PfTx) : State :=
  let s := (if t.st = .miA then s.pfUnspend t else s).onPf t.slot t.line (fun _ => {})
  match t.req with
  | none =>
    let s := s.pfEnd t
    if s.rd F.NOC_DOM_STATUS_STATE 0 (homeOf t.line) = domDRAINING then s.pfDrain (homeOf t.line) else s
  | some f =>
    if t.next == .again then
      let s := s.dropPfTx t
      { s with coh := { s.coh with pfq := f :: s.coh.pfq } }.pfNextQueued
    else (s.pfReply (t.e.getD 0) f opAck false 0 false).pfEnd t

/-- A completion or data of the remote home, or data that another member forwarded, reaches the proxy. -/
def State.pfRemoteResp (s : State) (opc : Nat) (m : CohMsg) : State :=
  let slot := m.slot.toNat
  let line := m.line.toNat
  match s.pfTxOf slot line with
  | none => s.pfPe slot line (s.pfOf slot line).st opc 2
  | some t =>
    let pe := s.pfPe slot line t.st opc 2
    match t.st, t.req with
    | .isD, some f => if opc = opData || opc = opDataE then s.pfGranted t f opc m else pe
    | .imD, some f =>
      if opc = opDataE then s.pfGranted t f opc m
      else if opc = opCmpE then s.pfSend t opRdO f.msg else pe
    | .smA, some f | .fmA, some f =>
      if opc != opCmpE then pe
      else if t.await.isEmpty && t.crossed.isEmpty then s.pfGranted t f opc m
      else s.setPfTx { t with pend := some (opc, m) }
    | .i, some f =>
      if !t.out then pe
      else if opc = opData && f.opc != opWbD then
        (s.pfReply (t.e.getD 0) f (grantOpc f.opc) false m.data m.poison).pfEnd t
      else if (opc = opCmp || opc = opAck) && f.opc = opWbD then
        ((s.pfUnspend t).pfReply (t.e.getD 0) f opc false 0 false).pfEnd t
      else pe
    | .miA, _ | .eiA, _ | .siA, _ | .fiA, _ => if opc = opAck then s.pfGone t else pe
    | _, _ => pe

/-! ### Local answers -/

/-- A transaction goes on with a local answer: with it what came too early. -/
def State.pfLocalStep (s : State) (t : PfTx) : State :=
  let s := s.pfProceed t
  let s := match s.pfTxOf t.slot t.line with
    | some u =>
      match u.pend with
      | some (opc, m) =>
        if u.await.isEmpty && u.crossed.isEmpty then (s.setPfTx { u with pend := none }).pfRemoteResp opc m else s
      | none => s
    | none => s
  s.pfNextQueued

/-- A local snoop answer for a remote line. -/
def State.pfLocalAnswer (s : State) (opc : Nat) (m : CohMsg) : State :=
  let slot := m.slot.toNat
  let line := m.line.toNat
  let a := m.src.toNat
  match s.coh.pfTx.find? (fun t => t.slot == slot && t.line == line && t.await.contains a) with
  | none => s.peHome (homeOf line) (if s.pfBusy slot line then .snp else .alloc) opc a line
  | some t =>
    let s := if opc = opRspI || opc = opRspX then s.onPf slot line (fun x => x.drop a) else s
    let t := { t with await := t.await.erase a, ans := opc }
    if opc = opRspX && (t.next != .done || t.req.isNone) then
      let s := (s.bump F.HOM_STAT_COUNT 1 (homeOf line) 3).counts (homeOf line) evCross
      match s.pfWdOf a slot line with
      | some w => (s.pfAbsorb a slot line).pfLocalStep { t with dm := some w.wd }
      | none => s.setPfTx { t with crossed := t.crossed ++ [a] }
    else s.pfLocalStep t

/-- A WbD of this agent for this remote line waits, or is on its way. -/
def State.pfWbdComing (s : State) (a slot line : Nat) : Bool :=
  let mine := fun (f : Flight) =>
    f.opc == opWbD && f.msg.src.toNat == a && f.msg.line.toNat == line && f.msg.slot.toNat == slot
  s.coh.pfq.any mine || s.coh.flight.any mine || s.coh.pfTx.any (fun t => t.req.any mine)

/-- A local DataM for a remote line: a snoop's data, crossed data, or the data of a WbD. One that nothing expects is
discarded as PE-H; the line's own member is not told of it (log entry 111, DESIGN CHOICE). -/
def State.pfLocalData (s : State) (m : CohMsg) : State :=
  let slot := m.slot.toNat
  let line := m.line.toNat
  let a := m.src.toNat
  let h := homeOf line
  let d : MaskedData := ⟨m.data, m.mask, m.poison⟩
  let here := s.coh.pfTx.filter (fun t => t.slot == slot && t.line == line)
  match here.find? (fun t => t.crossed.contains a) with
  | some t =>
    (s.pfKeep ⟨a, slot, line, d, true⟩).pfLocalStep { t with dm := some d, crossed := t.crossed.filter (· != a) }
  | none =>
    match here.find? (fun t => t.needWd && t.req.any (fun f => f.msg.src.toNat == a)) with
    | some t =>
      let mask := (t.req.map (·.msg.mask)).getD 0
      (s.pfKeep ⟨a, slot, line, d, false⟩).pfLocalStep (t.useWd { d with mask := mask })
    | none =>
      if s.pfWbdComing a slot line then s.pfKeep ⟨a, slot, line, d, false⟩
      else match here.find? (fun t => t.await.contains a) with
        | some t => s.setPfTx { t with dm := some d }
        | none =>
          ((s.peHome h (if here.isEmpty then .alloc else .snp) opDataM a line).bump F.HOM_ERR_UNEXP_DATAM 1 h).set
            F.HOM_IRQ_UNEXP_DATAM h

end Sys2Proof.Machine
end

