-- ==== Sys2Proof/Machine/HostReq.lean ====
section
/-!
DEFINITION. Host requests (R59, R60, R63 to R66): from an M2S request to the internal request of Table 3-2, and from a
home's answer back to the host.
-/

namespace Sys2Proof.Machine

/-! ### Addresses -/

/-- R59: the DPA that a committed decoder gives an HPA. -/
def Hdm.dpaOf (d : Hdm) (hpa : Nat) : Option Nat :=
  if d.committed ∧ d.base ≤ hpa ∧ hpa < d.base + d.size then
    let o := hpa - d.base
    some (d.dpa + o / (d.gran * d.ways) * d.gran + o % d.gran)
  else none

/-- The DPA of an HPA at an LD; `none`: no committed decoder holds it. -/
def State.hpaDpa (s : State) (l hpa : Nat) : Option Nat := (s.ld l).hdm.findSome? (fun x => x.2.dpaOf hpa)

/-- The member and line that an LD's HPA names; `none`: an unmapped access. -/
def State.hpaLine (s : State) (e : LdEntry) (hpa : Nat) : Option (Nat × Nat) :=
  ((s.hpaDpa e.ld hpa).bind (s.dpaLine e)).bind s.spanPlace

/-! ### Errors -/

/-- R63, R64: a protocol error on a port. -/
def State.portProto (s : State) (p : Nat) : State :=
  ((s.bump F.PRT_ERR_PROTO 1 p).set F.PRT_IRQ_PROTO p).record 0x20 1 rasPRT p p

/-- R58, R67: a response to a host, with its DevLoad; nothing leaves on a link that is down. -/
def State.toHost (s : State) (l tag kind : Nat) (data : Line) (poison : Bool) (load : Nat := 0) : State :=
  match s.secs.ldEntry l with
  | none => s
  | some e =>
    if s.on F.PRT_LINK_UP e.port then s.emit (.s2m l tag kind data poison load) else s

/-- The request reads. -/
def m2sReads : M2SOp → Bool
  | .memRd => true
  | .memRdData => true
  | _ => false

/-- R60: an unmapped access. -/
def State.unmapped (s : State) (e : LdEntry) (r : M2S) : State :=
  let s := (s.bump F.PRT_ERR_UNMAPPED 1 e.port).set F.PRT_IRQ_UNMAPPED e.port
  let s := s.event e.ld logWARN .generalMedia ((s.hpaDpa e.ld r.hpa.toNat).getD 0) 0 (if m2sReads r.op then 1 else 2)
  if m2sReads r.op then s.toHost e.ld r.tag.toNat 3 0 true
  else s.toHost e.ld r.tag.toNat (if r.op = .memInv then 1 else 0) 0 false

/-! ### Table 3-2 -/

/-- Table 3-2, R66: the internal request of an M2S request on a port with or without Back-Invalidate, and NOALLOC;
`none`: a protocol error. A write of an owner of the line carries I; that of an LD in S or I may carry any value. On a port
without Back-Invalidate, MemInv and MemClnEvct are protocol errors (log entry 104, DESIGN CHOICE). -/
def m2sMap (bi owns : Bool) (r : M2S) : Option (Nat × Bool) :=
  match r.op with
  | .memRd =>
    if !bi then some (opRdS, true)
    else match r.snp, r.mv with
      | .inv, .any => some (opRdO, false)
      | .data, .shared => some (opRdS, false)
      | .cur, .invalid => some (opRdS, true)
      | .noOp, .invalid => some (opRdS, true)
      | _, _ => none
  | .memRdData => some (opRdS, !bi)
  | .memInv => if bi && r.snp == .inv && r.mv == .any then some (opUpg, false) else none
  | .memWr => if !bi || !owns || r.mv == .invalid then some (opWbD, false) else none
  | .memWrPtl => if !bi || !owns || r.mv == .invalid then some (opWbD, false) else none
  | .memClnEvct => if bi && r.mv == .invalid then some (opEvC, false) else none

/-- The byte mask of a write. -/
def m2sBytes (r : M2S) : BitVec 64 := if r.op = .memWrPtl then r.mask else BitVec.allOnes 64

/-- Table 3-2: the LD holds the line in E or M, as its home's directory or the proxy filter shows it. -/
def State.hostOwns (s : State) (l slot line : Nat) : Bool :=
  if slot = s.slot then
    match s.dirFind line with
    | none => false
    | some w => (s.dirEnt line w).dstate == 3 && (s.dirEnt line w).fptr == l
  else
    (s.pfOf slot line).owner == some l

/-- The lowest internal tag that no request of the LD uses. -/
def State.freeTag (s : State) (l : Nat) : Option Nat :=
  (List.range 256).find? (fun t => !s.reqs.any (fun r => r.ld == l && r.rtag == t))

/-- Table 14-3: the OPC of an M2S request. -/
def m2sOpc (op : M2SOp) : Nat :=
  0x80 + match op with
    | .memRd => 1
    | .memRdData => 2
    | .memInv => 3
    | .memWr => 4
    | .memWrPtl => 5
    | .memClnEvct => 6

/-- R328: the class of an M2S request. -/
def m2sClass (op : M2SOp) : Nat :=
  match op with
  | .memRd | .memRdData => 0
  | .memWr | .memWrPtl => 1
  | .memInv | .memClnEvct => 2

/-- R322: the ingress stamp of an M2S request is taken; until its internal request is sent it is followed under the
host's tag. -/
def State.ingress (s : State) (r : M2S) : State :=
  s.txnBegin { id := 0, agent := r.ld.val, tag := 512 + r.tag.toNat, slot := 16, line := 0, opc := m2sOpc r.op,
               hpa := r.hpa.toNat, master := r.ld.val, cls := m2sClass r.op, st := 0, cclk := 0 }

/-- The request under way of an M2S request at its port. -/
def State.ingressOf (s : State) (r : M2S) : Option Nat := s.txnFind r.ld.val (512 + r.tag.toNat) 16 0

/-- Table 14-2: a request is accepted at its port. -/
def State.accepted (s : State) (r : M2S) (tag slot line : Nat) : State :=
  let id := s.ingressOf r
  let s := s.onTxn id (fun t => { t with tag := tag, slot := slot, line := line })
  match s.secs.ldEntry r.ld.val with
  | none => s
  | some e =>
    s.counts (48 + s.secs.portStation e.port) evAccept { agent := some r.ld.val, cls := some (m2sClass r.op) } id

/-- Send the internal request of an M2S request. `none`: it waits, for an earlier request to the line (R160), a tag, or
a write-data credit. -/
def State.m2sSend (s : State) (r : M2S) (opc : Nat) (noalloc : Bool) (slot line : Nat) : Option State :=
  let l := r.ld.val
  let own := opc == opWbD && s.on F.PRT_LINK_FLIT (((s.secs.ldEntry l).map (·.port)).getD 0) && s.hostOwns l slot line
  if s.reqs.any (fun x => x.ld == l && x.slot == slot && x.line == line) then none
  else if opc = opWbD ∧ 4 ≤ s.spent l (homeOf line) then none
  else match s.freeTag l with
    | none => none
    | some t =>
      let m : CohMsg := { src := BitVec.ofNat 7 l, line := BitVec.ofNat 40 line, slot := BitVec.ofNat 4 slot,
                          rtag := BitVec.ofNat 8 t, noalloc := noalloc, noown := opc == opWbD && !own,
                          mask := if opc = opWbD then m2sBytes r else 0 }
      let q : HostReq := ⟨l, r.tag.toNat, t, opc, slot, line, own⟩
      let s := ({ s with reqs := s.reqs ++ [q] }.accepted r t slot line).send ⟨opc, .home, m⟩
      if opc = opWbD then
        some ((s.spend l (homeOf line)).send
          ⟨opDataM, .home, { m with rtag := 0, noown := false, write := true, data := r.data, poison := r.poison }⟩)
      else some s

/-- R176: a write for which a BISnp to its LD and line is outstanding goes to the home as that snoop's DataM. -/
def State.m2sDataM (s : State) (r : M2S) (b : BiSnp) : State :=
  let l := r.ld.val
  let m : CohMsg := { src := BitVec.ofNat 7 l, line := BitVec.ofNat 40 b.line, slot := BitVec.ofNat 4 b.home,
                      htag := BitVec.ofNat 8 b.htag, write := true, mask := m2sBytes r, data := r.data, poison := r.poison }
  let q : HostReq := ⟨l, r.tag.toNat, 256, opDataM, b.home, b.line, false⟩
  ({ s with reqs := s.reqs ++ [q] }.accepted r 256 b.home b.line).send ⟨opDataM, .home, m⟩

/-- R60, R63: an M2S request at its port. `none`: it waits. A port that is down or insecure (R70), or an LD with Mem
Enable clear, takes none. -/
def State.m2sTry (s : State) (r : M2S) : Option State :=
  let l := r.ld.val
  match s.secs.ldEntry l with
  | none => some s
  | some e =>
    if !s.on F.PRT_LINK_UP e.port || s.insecure.contains e.port || !(s.ld l).memEnable then some s
    else if s.str.ldHold.contains l then none
    else
    let at_ := s.hpaLine e r.hpa.toNat
    match m2sMap (s.on F.PRT_LINK_FLIT e.port) (at_.any (fun x => s.hostOwns l x.1 x.2)) r with
      | none => some (s.portProto e.port)
      | some (opc, noalloc) =>
        match at_ with
        | none => some (s.unmapped e r)
        | some (slot, line) =>
          match (s.ld l).bisnp.find? (fun b => opc == opWbD && b.line == line && b.home == slot) with
          | some b => some (s.m2sDataM r b)
          | none => s.m2sSend r opc noalloc slot line

/-- A request that its port has not sent on is no longer followed. -/
def State.notSent (s : State) (r : M2S) : State :=
  match s.ingressOf r with
  | none => s
  | some id => { s with txn := { s.txn with reqs := s.txn.reqs.filter (·.id != id) } }

/-- An M2S request comes in: it is sent on, or waits behind those that wait for its line. -/
def State.m2sIn (s : State) (r : M2S) : State :=
  let s := s.ingress r
  let wait := { s with m2s := s.m2s ++ [r] }
  if s.m2s.any (fun x => x.ld == r.ld && x.hpa.toNat / 64 == r.hpa.toNat / 64) then wait
  else match s.m2sTry r with
    | none => wait
    | some s' => s'.notSent r

/-- R65: a request of the LD for the line is at its port, or on its way to the home. -/
def State.conflictComing (s : State) (l slot line : Nat) : Bool :=
  s.m2s.any (fun r => r.ld.val == l &&
    (((s.secs.ldEntry l).bind (fun e => s.hpaLine e r.hpa.toNat)) == some (slot, line))) ||
  s.coh.flight.any (fun f => opNet f.opc == 0 && f.msg.src.toNat == l && f.msg.line.toNat == line &&
    f.msg.slot.toNat == slot)

/-- R65: BIConflicts that nothing of the LD is on its way for any more are answered. -/
def State.conflictsEnd (s : State) (l : Nat) : State :=
  s.forEach ((s.ld l).conflicts.filter (fun c => !s.conflictComing l c.1 c.2)) (fun s c =>
    (s.onLd l (fun d => { d with conflicts := d.conflicts.erase c })).emit (.biConflictAck l c.2))

/-- Requests of an LD that wait are tried again in order. -/
def State.m2sAgain (s : State) (l : Nat) : State :=
  let mine := s.m2s.filter (fun r => r.ld.val == l)
  (({ s with m2s := s.m2s.filter (fun r => r.ld.val != l) }).forEach mine State.m2sIn).conflictsEnd l

/-! ### Answers -/

/-- R58: the kind of S2M answer: 0 Cmp, 1 Cmp-E, 3 MemData. -/
def s2mKind (opc : Nat) : Nat := if opNet opc = 3 then 3 else if opc = opCmpE then 1 else 0

/-- R58, R67, R332: a host request completes: the response leaves, with the highest priority of its DRAM accesses as its
DevLoad. -/
def State.hostEnd (s : State) (r : HostReq) (kind : Nat) (data : Line) (poison : Bool) : State :=
  let id := s.txnFind r.ld r.rtag r.slot r.line
  let t := id.bind s.txnOf
  let s := s.toHost r.ld r.tag kind data poison ((t.map (·.prio)).getD 0)
  match t, s.secs.ldEntry r.ld with
  | some t, some e =>
    let q : Qual := { agent := some r.ld, tier := some t.tier, cls := some t.cls }
    (s.counts (48 + s.secs.portStation e.port) evDone q id).txnEnd id poison true
  | _, _ => s

/-- R68: poisoned data of a line that another member holds: a record in the LD's Failure log. What poisoned the line is known
to its member alone, and the cause is 0x04 (log entry 105, DESIGN CHOICE). -/
def State.farPoison (s : State) (r : HostReq) (m : CohMsg) : State :=
  match s.secs.ldEntry r.ld with
  | some e =>
    if m.poison && r.slot != s.slot then s.event r.ld logFAIL .generalMedia ((s.farDpa e r.slot r.line).getD 0) 4 1 else s
  | none => s

/-- A completion or data reaches an LD's port: the host request that it answers is completed. -/
def State.hostDone (s : State) (l opc : Nat) (m : CohMsg) : State :=
  match s.reqs.find? (fun r => r.ld == l && r.rtag == m.rtag.toNat && r.line == m.line.toNat && r.slot == m.slot.toNat) with
  | none => s
  | some r =>
    ((({ s with reqs := s.reqs.erase r }).farPoison r m).hostEnd r (s2mKind opc) m.data m.poison).m2sAgain l

/-- R176: the home has accepted a DataM that a host write became. -/
def State.hostWrote (s : State) (m : CohMsg) : State :=
  let l := m.src.toNat
  match s.reqs.find? (fun r => r.ld == l && r.opc == opDataM && r.line == m.line.toNat && r.slot == m.slot.toNat) with
  | none => s
  | some r => ({ s with reqs := s.reqs.erase r }.hostEnd r 0 0 false).m2sAgain l

/-- R65: the request has been ordered: a BIConflict that waited for it is answered. -/
def State.conflictAck (s : State) (m : CohMsg) : State :=
  let l := m.src.toNat
  let c := (m.slot.toNat, m.line.toNat)
  if l < 64 && (s.ld l).conflicts.contains c then
    (s.onLd l (fun d => { d with conflicts := d.conflicts.erase c })).emit (.biConflictAck l m.line.toNat)
  else s

/-- An answer of an LD to a snoop. -/
def State.biAnswer (s : State) (l opc slot line htag : Nat) : State :=
  s.send ⟨opc, .home, { src := BitVec.ofNat 7 l, line := BitVec.ofNat 40 line, slot := BitVec.ofNat 4 slot,
                        htag := BitVec.ofNat 8 htag }⟩

/-- R64: a snoop reaches an LD's port and goes to the host as a single-line BISnp. An LD whose WbD of the line is open
has given it up, and answers RspX (R173). A port that is up in 68-byte flit mode has no channel for it, and its LD no copy
(R66). -/
def State.biSnoop (s : State) (l opc : Nat) (m : CohMsg) : State :=
  let line := m.line.toNat
  let slot := m.slot.toNat
  if s.reqs.any (fun r => r.ld == l && r.slot == slot && r.line == line && r.opc == opWbD && r.own) then
    s.biAnswer l opRspX slot line m.htag.toNat
  else if (s.secs.ldEntry l).any (fun e => s.on F.PRT_LINK_UP e.port && !s.on F.PRT_LINK_FLIT e.port) then
    s.biAnswer l opRspI slot line m.htag.toNat
  else
    let kind := if opc = opSnpS then 0 else if opc = opSnpI then 1 else 2
    let b : BiSnp := ⟨line, opc, slot, m.htag.toNat⟩
    let s := match s.secs.ldEntry l with
      | none => s
      | some e => s.counts (48 + s.secs.portStation e.port) evBISnp { agent := some l }
    (s.onLd l (fun d => { d with bisnp := d.bisnp ++ [b] })).emit (.bisnp l kind line)

end Sys2Proof.Machine
end

