-- ==== Sys2Proof/Machine/Coherence.lean ====
section
/-!
DEFINITION. The commands of coherence (chapter 7): messages that reach a home, an agent or a proxy filter, memory data
and acceptance at a home, local accesses of caching agents, and the directory read.
-/

namespace Sys2Proof.Machine

/-- The line's home is at this member. -/
def State.homed (s : State) (m : CohMsg) : Bool := m.slot.toNat == s.slot

/-! ### Requests at a home -/

/-- R158: the home does not take the request from the network now. What reaches a home whose domain is down or draining is
held instead (R207, R208). -/
def State.notTaken (s : State) (f : Flight) : Bool :=
  let h := homeOf f.msg.line.toNat
  !s.domHolds h 0 && !s.homeAccepts h

/-- R158, R159, R168, R179: a REQ reaches the home of its line, or the proxy filter of a remote line. An ID of 96 and above is
a protocol error. -/
def State.cohReq (s : State) (opc : Nat) (m : CohMsg) : State :=
  let f : Flight := ⟨opc, .home, m⟩
  if s.notTaken f then s
  else s.arrive f (fun s =>
    if 96 ≤ m.src.toNat then s.peHome (homeOf m.line.toNat) .alloc opc m.src.toNat m.line.toNat
    else (if s.homed m then s.homeRequest f else s.pfRequest f).conflictAck m)

def execRds (m : CohMsg) (s : State) : Outcome := onDie s (fun s => s.cohReq opRdS m)
def execRdo (m : CohMsg) (s : State) : Outcome := onDie s (fun s => s.cohReq opRdO m)
def execUpg (m : CohMsg) (s : State) : Outcome := onDie s (fun s => s.cohReq opUpg m)
def execWbd (m : CohMsg) (s : State) : Outcome := onDie s (fun s => s.cohReq opWbD m)
def execEvc (m : CohMsg) (s : State) : Outcome := onDie s (fun s => s.cohReq opEvC m)
def execRdnc (m : CohMsg) (s : State) : Outcome := onDie s (fun s => s.cohReq opRdNC m)

/-- R166: the oldest request of a set in HB_ALLOC. -/
def State.allocOldest (s : State) (h set : Nat) : Option (Nat × TT) :=
  ((s.tts h).filter (fun x => x.2.st == .alloc && lineSet x.2.line == set)).foldl (fun a x =>
    match a with
    | none => some x
    | some y => if x.2.seq < y.2.seq then some x else some y) none

/-- R166, R179: the oldest request for a remote line that waits for a way of the set's filter. -/
def State.pfAllocOldest (s : State) (h set : Nat) : Option PfTx :=
  s.coh.pfTx.find? (fun t => t.next == .alloc && homeOf t.line == h && lineSet t.line == set)

/-- R166: a way of a set, of the directory or of the proxy filter, may have become eligible: the oldest request in HB_ALLOC
takes it. -/
def execWayEligible (home : Fin 16) (set : BitVec 13) (s : State) : Outcome :=
  onDie s (fun s =>
    let s := match s.allocOldest home set.toNat with
      | none => s
      | some (k, t) => (s.takeWay home (k % 256) t false).tryClose home (k % 256)
    match s.pfAllocOldest home set.toNat with
    | some t => match t.req with
      | some f => (s.pfAlloc t f false).pfNextQueued
      | none => s
    | none => s)

/-! ### Snoops at an agent -/

/-- R171, R177: a SNP reaches an agent: an LD's port, a caching agent, or the member behind a peer proxy. -/
def State.cohSnp (s : State) (a opc : Nat) (m : CohMsg) : State :=
  let f : Flight := ⟨opc, .agent a, m⟩
  s.arrive f (fun s =>
    if a < 64 then s.biSnoop a opc m
    else if a < 81 then s.agSnoop a opc m
    else s.toMember (proxySlot s.slot a) f)

def execSnps (agent : Fin 96) (m : CohMsg) (s : State) : Outcome := onDie s (fun s => s.cohSnp agent opSnpS m)
def execSnpi (agent : Fin 96) (m : CohMsg) (s : State) : Outcome := onDie s (fun s => s.cohSnp agent opSnpI m)
def execSnpf (agent : Fin 96) (m : CohMsg) (s : State) : Outcome := onDie s (fun s => s.cohSnp agent opSnpF m)

/-! ### Answers and data at a home -/

/-- R170, R173: a snoop answer reaches the home's TT entry, or the proxy filter. -/
def State.cohRsp (s : State) (opc : Nat) (m : CohMsg) : State :=
  s.arrive ⟨opc, .home, m⟩ (fun s => if s.homed m then s.homeAnswer opc m else s.pfLocalAnswer opc m)

def execRspi (m : CohMsg) (s : State) : Outcome := onDie s (fun s => s.cohRsp opRspI m)
def execRsps (m : CohMsg) (s : State) : Outcome := onDie s (fun s => s.cohRsp opRspS m)
def execRspf (m : CohMsg) (s : State) : Outcome := onDie s (fun s => s.cohRsp opRspF m)
def execRspx (m : CohMsg) (s : State) : Outcome := onDie s (fun s => s.cohRsp opRspX m)


/-- R170. -/
def execMemoryData (home : Fin 16) (tt : BitVec 8) (s : State) : Outcome :=
  onDie s (fun s => s.homeMemData home tt.toNat)

/-- R170. -/
def execWdone (home : Fin 16) (tt : BitVec 8) (s : State) : Outcome :=
  onDie s (fun s => s.homeWdone home tt.toNat)

/-- R174: a lock that has lasted TMO_US is released without a write. -/
def execLockTimeout (home : Fin 16) (tt : BitVec 8) (s : State) : Outcome :=
  onDie s (fun s =>
    match s.tt home tt.toNat with
    | none => s
    | some t =>
      if t.lockAt.isNone then s
      else
        let s := (s.bump F.HOM_ERR_LOCK_TMO 1 home).set F.HOM_IRQ_LOCK_TMO home
        let s := s.record 0x12 1 rasHOM home t.line
        (s.setTT home tt.toNat { t with lockAt := none }).tryClose home tt.toNat)

/-! ### Completions at an agent -/

/-- The job of a gallery whose requests carry this RTAG (log entry 32, DESIGN CHOICE). -/
def State.jobOfTag (s : State) (g tag : Nat) : Option Job :=
  (s.gal g).jobs.find? (fun j => 128 + j.seq % 128 == tag)

/-- R305: data or a completion reaches the job that asked. -/
def State.jobAnswer (s : State) (g opc : Nat) (m : CohMsg) : State :=
  match s.jobOfTag g m.rtag.toNat with
  | none => s
  | some j =>
    let left := j.asked.erase m.line.toNat
    let j' : Job := if opc = opData then { j with got := some (m.data, m.poison), asked := left }
      else { j with wrote := some true }
    s.onGal g (fun x => { x with jobs := x.jobs.map (fun y => if y.seq = j.seq then j' else y) })

/-- R147: a tag line reaches the gallery that asked for it. -/
def State.tagArrives (s : State) (g : Nat) (m : CohMsg) : State :=
  let f := fun (x : Nat × Nat × Option (Line × Bool)) =>
    if x.1 == m.line.toNat && x.2.1 == g && x.2.2.isNone then (x.1, x.2.1, some (m.data, m.poison)) else x
  { s with map := { s.map with tags := s.map.tags.map f } }

/-- R171, R305: a completion or data reaches a caching agent: it is a job's, a tag line, that of a lite access, or the
cache's. Accesses that stalled are tried again (R160). -/
def State.agTake (s : State) (a opc : Nat) (m : CohMsg) : State :=
  let s :=
    if a < 80 && 128 ≤ m.rtag.toNat && (opc == opData || opc == opCmp) then s.jobAnswer (a - 64) opc m
    else if a < 80 && m.rtag == tagTag && opc == opData then s.tagArrives (a - 64) m
    else if m.rtag == liteTag && (opc == opData || opc == opCmp) then s
    else
      let s := s.agComplete a opc m
      if a < 80 && (s.gal (a - 64)).flush then s.galEvict (a - 64) else s
  s.agRetry a

/-- R171: a completion or data reaches an agent. -/
def State.cohCpl (s : State) (a opc : Nat) (m : CohMsg) : State :=
  let f : Flight := ⟨opc, .agent a, m⟩
  s.arrive f (fun s =>
    if a < 64 then s.hostDone a opc m
    else
      let s := s.txnEnd (s.txnFind a m.rtag.toNat m.slot.toNat m.line.toNat) m.poison true
      if a < 81 then s.agTake a opc m else s.toMember (proxySlot s.slot a) f)

/-- R170, R171: a completion or data reaches the agent that it goes to; one addressed to a home is an error there. -/
def State.cohTo (s : State) (agent : Option (Fin 96)) (opc : Nat) (m : CohMsg) : State :=
  match agent with
  | some a => s.cohCpl a opc m
  | none => s.arrive ⟨opc, .home, m⟩ (fun s => s.homeStray opc m)

def execData (agent : Option (Fin 96)) (m : CohMsg) (s : State) : Outcome := onDie s (fun s => s.cohTo agent opData m)
def execDatae (agent : Option (Fin 96)) (m : CohMsg) (s : State) : Outcome := onDie s (fun s => s.cohTo agent opDataE m)
def execCmp (agent : Option (Fin 96)) (m : CohMsg) (s : State) : Outcome := onDie s (fun s => s.cohTo agent opCmp m)
def execCmpe (agent : Option (Fin 96)) (m : CohMsg) (s : State) : Outcome := onDie s (fun s => s.cohTo agent opCmpE m)
def execAck (agent : Option (Fin 96)) (m : CohMsg) (s : State) : Outcome := onDie s (fun s => s.cohTo agent opAck m)

/-- R169, R173, R174: a DataM reaches the home, or the proxy filter, of its line. -/
def State.cohDataM (s : State) (m : CohMsg) : State :=
  s.arrive ⟨opDataM, .home, m⟩ (fun s =>
    (if s.homed m then s.homeDataM m else s.pfLocalData m).when (m.src.toNat < 64) (fun s => s.hostWrote m))

/-- The agents that run Table 7-8 here: galleries and the control complex. -/
def caches (a : Nat) : Bool := 64 ≤ a && a < 81

/-- R171: a DataM that reaches an agent is PE-C there; an LD's port and a peer proxy expect none either. -/
def execDatam (d : DataMsg) (s : State) : Outcome :=
  onDie s (fun s =>
    match d.agent with
    | none => s.cohDataM d.m
    | some a => s.arrive ⟨opDataM, .agent a, d.m⟩ (fun s =>
        if caches a then s.peAgent a (s.agLine a d.m.slot.toNat d.m.line.toNat).st opDataM 2 d.m
        else s.record 0x10 1 rasHOM (homeOf d.m.line.toNat) d.m.line.toNat d.m.slot.toNat (cohDetail a 0 AgSt.i.code opDataM 2)))

/-! ### Local accesses of a caching agent -/

/-- R237: an access of a local agent as it goes out: one in an IMPORT entry goes to its member. `none`: the member cannot be reached,
and the access is unmapped (R60). -/
def State.spanMsg (s : State) (m : CohMsg) : Option CohMsg :=
  if m.slot.toNat = s.slot then
    (s.spanPlace m.line.toNat).map (fun x => { m with slot := BitVec.ofNat 4 x.1, line := BitVec.ofNat 40 x.2 })
  else some m

/-- R391: a core's access to the DLA window, which a FIRMWARE session forbids. -/
def State.dlaForbidden (s : State) (a : Nat) (op : AgOp) : Bool :=
  a == 80 && op != .evict && s.rd F.DBG_STATUS_LEVEL == 2

/-- An access of a caching agent. One that R391 forbids counts under R386, with a zero offset, since it has none in BAR0 (log
entry 132, DESIGN CHOICE). -/
def agentAccess (agent : Fin 96) (op : AgOp) (m : CohMsg) (s : State) : Outcome :=
  onDie s (fun s =>
    if s.dlaForbidden agent op then s.violate .cc 0 (op == .store)
    else match s.spanMsg m with
      | some m => if caches agent then s.agAccess agent op m else s
      | none => s)

def execLoad (agent : Fin 96) (m : CohMsg) (s : State) : Outcome := agentAccess agent .load m s

def execStore (agent : Fin 96) (m : CohMsg) (s : State) : Outcome := agentAccess agent .store m s

def execEvict (agent : Fin 96) (m : CohMsg) (s : State) : Outcome := agentAccess agent .evict m s

/-! ### HOM registers -/

/-- Table 7-9: the 128 bits of a proxy-filter entry. -/
def PfEnt.word (x : PfEnt) : Nat :=
  x.locals + x.fptr * 2 ^ 81 + x.pstate * 2 ^ 88 + x.slot * 2 ^ 91 + x.tag * 2 ^ 95

/-- R183: copy the entry that HOM_DIR_IDX names. -/
def State.dirRead (s : State) (h : Nat) : State :=
  let k := wayKey h (s.rd F.HOM_DIR_IDX_SET h) (s.rd F.HOM_DIR_IDX_WAY h)
  let w := if s.rd F.HOM_DIR_IDX_WAY h < s.dirWays then (smGet {} s.coh.dir k).word else (smGet {} s.coh.pf k).word
  ((s.wr F.HOM_DIR_LO_ENTRY w h).wr F.HOM_DIR_HI_ENTRY (w / 2 ^ 64) h).set F.HOM_DIR_OP_DONE h

/-- A write of a HOM register: its fields, and what follows. -/
def State.writeHom (s : State) (who : Initiator) (off v : Nat) : State :=
  match F.HOM_DIR_OP_READ.at off, F.HOM_LOCK_TMO_TMO_US.at off with
  | some (h, _), _ => s.when (v.testBit 0) (fun s => s.dirRead h)
  | _, some (h, _) => s.wr F.HOM_LOCK_TMO_TMO_US (clamp 1 1000 (v % 1024)) h
  | _, _ => s.writeWord who off v

/-- R183: a write of HOM_DIR_OP. -/
def execDirRead (who : Initiator) (home : Fin 16) (v : BitVec 64) (s : State) : Outcome :=
  let off := F.HOM_DIR_OP_READ.addr home 0
  onDie s (fun s => barWrite s who off (fun s => s.writeHom who off v.toNat))

end Sys2Proof.Machine
end

