-- ==== Sys2Proof/Machine/Queue.lean ====
section
/-!
DEFINITION. Carousel queues (R288 to R298): pointers, tags and tokens, pushes and pops with their stalls, marks and
rewinds, truncation and reset.
-/

namespace Sys2Proof.Machine

/-! ### Pointers (R289) -/

/-- Tag bits (R292). -/
def tagSOP : Nat := 1
def tagEOP : Nat := 2
def tagTRUNC : Nat := 4

/-- Byte 63 of the tokens (R292). -/
def tokEMPTY : Nat := 0x08
def tokTRUNC : Nat := 0x06
def tokQRESET : Nat := 0x10

/-- A queue beside its registers. -/
def State.queue (s : State) (q : Nat) : Queue := smGet {} s.queues q

/-- Change a queue beside its registers. -/
def State.onQueue (s : State) (q : Nat) (f : Queue → Queue) : State :=
  { s with queues := smSet {} s.queues q (f (s.queue q)) }

def State.qW (s : State) (q : Nat) : Nat := s.rd F.CRQ_PTR0_W q
def State.qD (s : State) (q : Nat) : Nat := s.rd F.CRQ_PTR0_D q
def State.qL (s : State) (q : Nat) : Nat := s.rd F.CRQ_PTR1_L q
def State.qM (s : State) (q : Nat) : Nat := s.rd F.CRQ_PTR1_M q

/-- The distance from pointer `a` up to pointer `b`, modulo 2^32. -/
def ptrDist (a b : Nat) : Nat := (b + 2 ^ 32 - a) % 2 ^ 32

/-- CAP. -/
def State.qCap (s : State) (q : Nat) : Nat := 2 ^ s.rd F.CRQ_CFG_CAP_LOG2 q

/-- A: items available. -/
def State.qAvail (s : State) (q : Nat) : Nat := ptrDist (s.qD q) (s.qW q)

/-- U: items used. -/
def State.qUsed (s : State) (q : Nat) : Nat := ptrDist (s.qL q) (s.qW q)

/-- The queue-RAM item of a pointer value. -/
def State.qSlot (s : State) (q p : Nat) : Nat := s.rd F.CRQ_CFG_BASE q + p % s.qCap q

/-- The item at a pointer value. -/
def State.qItem (s : State) (q p : Nat) : QItem := smGet ⟨0, 0⟩ s.qram (s.qSlot q p)

/-- Store an item at a pointer value. -/
def State.setItem (s : State) (q p : Nat) (x : QItem) : State :=
  { s with qram := smSet ⟨0, 0⟩ s.qram (s.qSlot q p) x }

/-- R289: L ≤ M ≤ D ≤ W and W − L ≤ CAP, as distances from L. -/
def State.qOrdered (s : State) (q : Nat) : Bool :=
  ptrDist (s.qL q) (s.qM q) ≤ ptrDist (s.qL q) (s.qD q) && ptrDist (s.qL q) (s.qD q) ≤ s.qUsed q &&
    s.qUsed q ≤ s.qCap q

/-! ### Pushing -/

/-- The tag of the item at W − 1 takes TRUNC and EOP (R296, R297). -/
def State.truncLast (s : State) (q : Nat) : State :=
  let p := (s.qW q + 2 ^ 32 - 1) % 2 ^ 32
  let x := s.qItem q p
  let s := s.setItem q p { x with tag := Nat.lor x.tag (tagTRUNC + tagEOP) }
  (s.bump F.CRQ_STAT_TRUNC 1 q).set F.CRQ_IRQ_TRUNC q

/-- R297: the producer's open packet is truncated; the consumer that has popped all of it gets TRUNC next. -/
def State.truncOpen (s : State) (q : Nat) : State :=
  let s := s.truncLast q
  if s.qAvail q = 0 then (s.onQueue q (fun x => { x with token := tokTRUNC })).clear F.CRQ_STATE_CONS_OPEN q else s

/-- Table 12-1: an item for which there is room is stored, or discarded under DISCARD (R296). -/
def State.qStore (s : State) (q : Nat) (x : QItem) : State :=
  let sop := x.tag.testBit 0
  let eop := x.tag.testBit 1
  if s.on F.CRQ_STATE_DISCARD q && !sop then (if eop then s.clear F.CRQ_STATE_DISCARD q else s)
  else
    let s := s.clear F.CRQ_STATE_DISCARD q
    let s := s.when (sop && s.on F.CRQ_STATE_PROD_OPEN q) (fun s => s.truncOpen q)
    let s := s.when (s.qAvail q == 0) (fun s => s.set F.CRQ_IRQ_ITEM q)
    let s := s.setItem q (s.qW q) x
    (s.wr F.CRQ_PTR0_W (s.qW q + 1) q).wr F.CRQ_STATE_PROD_OPEN (b2n (!eop)) q

/-- A push finds room: below CAP, or discarded whatever the room (R296). -/
def State.qRoom (s : State) (q : Nat) (tag : Nat) : Bool :=
  s.qUsed q < s.qCap q || (s.on F.CRQ_STATE_DISCARD q && !tag.testBit 0)

/-! ### Popping -/

/-- R295: the item at D may be started. Only an SOP waits: for CT items of its packet, or its EOP. -/
def State.startable (s : State) (q : Nat) : Bool :=
  let d := s.qD q
  if !(s.qItem q d).tag.testBit 0 then true
  else
    let n := s.qAvail q
    s.rd F.CRQ_CFG_CT q ≤ n ||
      (List.range n).any (fun i => (s.qItem q (d + i)).tag.testBit 1)

/-- What a pop gets: an item with its tag, or a token. -/
inductive Popped where
  | item (x : QItem)
  | token (t : Nat)
deriving DecidableEq, Repr

/-- Table 12-1, R292: what a pop gets now; `none`: it waits. A cleared EN ends the wait with EMPTY (R293). -/
def State.qTake (s : State) (q : Nat) : Option (Popped × State) :=
  let t := (s.queue q).token
  if t != 0 then some (.token t, s.onQueue q (fun x => { x with token := 0 }))
  else if !s.on F.CRQ_CFG_EN q then some (.token tokEMPTY, s)
  else if 0 < s.qAvail q && s.startable q then
    let x := s.qItem q (s.qD q)
    let s := (s.wr F.CRQ_PTR0_D (s.qD q + 1) q).wr F.CRQ_STATE_CONS_OPEN (b2n (!x.tag.testBit 1)) q
    let s := s.when (s.on F.CRQ_CFG_AUTO_REL q) (fun s =>
      (s.wr F.CRQ_PTR1_L (s.qD q) q).wr F.CRQ_PTR1_M (s.qD q) q)
    some (.item x, s)
  else none

/-- R292: byte 63 of what a host reads is the tag byte. -/
def hostItem (p : Popped) : Line :=
  match p with
  | .item x => BitVec.ofNat 512 (x.item.toNat % 2 ^ 504 + x.tag % 8 * 2 ^ 504)
  | .token t => BitVec.ofNat 512 (t * 2 ^ 504)

/-- Answer a pop. -/
def State.answerPop (s : State) (who : QPort) (q tag : Nat) (p : Popped) : State :=
  match who with
  | .host w => s.emit (.hostPop w q tag (hostItem p))
  | .chip ep =>
    match p with
    | .item x => s.emit (.chipPop ep.val q x.item x.tag)
    | .token t => s.emit (.chipPop ep.val q 0 t)

/-- PRT_STALL.PEND counts the stalled reads of a port (Table 3-8). -/
def State.showPend (s : State) (port : Nat) : State :=
  if port < 16 then s.wr F.PRT_STALL_PEND (s.stalled.filter (fun r => r.port == port)).length port else s

/-- Take a stalled read away. -/
def State.unstall (s : State) (r : Stalled) : State :=
  ({ s with stalled := s.stalled.erase r }).showPend r.port

/-- R76, R78: a stalled read ends with the EMPTY token. -/
def State.endStall (s : State) (r : Stalled) : State :=
  (s.unstall r).answerPop r.who r.queue r.tag (.token tokEMPTY)

/-- R290: the stalled push that is accepted next: of the producers that wait, the one of the lowest endpoint number. -/
def Queue.nextPush (x : Queue) : Option (Nat × QItem) :=
  x.stall.foldl (fun a y => match a with
    | none => some y
    | some z => if y.1 < z.1 then some y else a) none

/-- One stalled push goes on, if it can. -/
def State.goPush (s : State) (q : Nat) : Option State :=
  match (s.queue q).nextPush with
  | none => none
  | some x =>
    if s.on F.CRQ_CFG_EN q && s.qRoom q x.2.tag then
      some ((s.onQueue q (fun y => { y with stall := y.stall.erase x })).qStore q x.2)
    else none

/-- The oldest stalled pop goes on, if it can. -/
def State.goPop (s : State) (q : Nat) : Option State :=
  match s.stalled.find? (fun r => r.queue == q), s.qTake q with
  | some r, some (p, s) => some ((s.unstall r).answerPop r.who q r.tag p)
  | _, _ => none

/-- What waits on a queue goes on as far as it can: in each CCLK one push, then one pop (R290, R291). The first argument
bounds the CCLKs. -/
def State.qServe : Nat → State → Nat → State
  | 0, s, _ => s
  | n + 1, s, q =>
    let a := s.goPush q
    let s := a.getD s
    let b := s.goPop q
    if a.isNone && b.isNone then s else State.qServe n (b.getD s) q

/-- Let everything that waits on a queue go on. -/
def State.qGo (s : State) (q : Nat) : State :=
  State.qServe (s.stalled.length + (s.queue q).stall.length) s q

/-- R300: a push to a descriptor queue of a FENCED gallery requests the gallery's wake. -/
def State.dqWake (s : State) (q : Nat) : State :=
  s.forEach (List.range 16) (fun s g =>
    if (List.range 8).any (fun k => s.on F.GAL_JQ_CFG_EN g k && s.rd F.GAL_JQ_CFG_DQ g k == q) then s.wakeDom (16 + g)
    else s)

/-- A push is stored, and what waited goes on. -/
def State.qPush (s : State) (q : Nat) (x : QItem) : State := ((s.qStore q x).qGo q).dqWake q

/-- R290, R308: an on-chip push: it stalls while there is no room or EN is 0. -/
def State.chipPush (s : State) (q ep : Nat) (x : QItem) : State :=
  if (s.queue q).stall.isEmpty && s.on F.CRQ_CFG_EN q && s.qRoom q x.tag then s.qPush q x
  else s.onQueue q (fun y => { y with stall := y.stall ++ [(ep, x)] })

/-- R294: a host push of 64 bytes. -/
def State.hostPush (s : State) (q : Nat) (bs : Bytes) (tag : Nat) : State :=
  if bs.length ≠ 64 || !s.on F.CRQ_CFG_EN q then s.bump F.CRQ_STAT_BAD_CMD 1 q
  else if s.qRoom q tag then s.qPush q ⟨lineOfBytes bs, tag⟩
  else (s.bump F.CRQ_STAT_DROP 1 q).set F.CRQ_IRQ_DROP q

/-! ### Release, mark, rewind -/

/-- Table 12-1: RELEASE n: up to D, and M takes the later of M and L. -/
def State.qRelease (s : State) (q n : Nat) : State :=
  if n = 0 then s
  else
    let d := ptrDist (s.qL q) (s.qD q)
    let s := s.when (d < n) (fun s => s.bump F.CRQ_STAT_BAD_CMD 1 q)
    let m := ptrDist (s.qL q) (s.qM q)
    let n := min n d
    let l := s.qL q + n
    (s.wr F.CRQ_PTR1_L l q).when (m < n) (fun s => s.wr F.CRQ_PTR1_M l q)

/-- Table 12-1: MARK. -/
def State.qMark (s : State) (q : Nat) : State :=
  let o := s.on F.CRQ_STATE_CONS_OPEN q
  (s.wr F.CRQ_PTR1_M (s.qD q) q).onQueue q (fun x => { x with saved := o })

/-- Table 12-1: REWIND. -/
def State.qRewind (s : State) (q : Nat) : State :=
  (s.wr F.CRQ_PTR0_D (s.qM q) q).wr F.CRQ_STATE_CONS_OPEN (b2n (s.queue q).saved) q

/-! ### Truncation and reset -/

/-- R296: the gap timer reaches GAP_NS: it runs only while a consumer waits inside an open packet. -/
def State.gapTruncate (s : State) (q : Nat) : State :=
  if s.on F.CRQ_CFG_EN q && s.on F.CRQ_GAP_GAP_NS q && s.on F.CRQ_STATE_CONS_OPEN q && s.qAvail q == 0 then
    let s := (s.truncLast q).onQueue q (fun x => { x with token := tokTRUNC })
    let s := ((s.clear F.CRQ_STATE_CONS_OPEN q).clear F.CRQ_STATE_PROD_OPEN q).set F.CRQ_STATE_DISCARD q
    s.qGo q
  else s

/-- Pointers zero, contents and packet state gone (R288, R298). -/
def State.qEmpty (s : State) (q : Nat) : State :=
  let s := ((s.clear F.CRQ_PTR0_W q).clear F.CRQ_PTR0_D q)
  let s := ((s.clear F.CRQ_PTR1_L q).clear F.CRQ_PTR1_M q)
  let s := ((s.clear F.CRQ_STATE_DISCARD q).clear F.CRQ_STATE_PROD_OPEN q).clear F.CRQ_STATE_CONS_OPEN q
  s.onQueue q (fun x => { x with saved := false, token := 0 })

/-- R310: fetched jobs of a descriptor queue that is reset keep running; their releases are dropped, and a packet half
fetched is gone. -/
def State.dropReleases (s : State) (q : Nat) : State :=
  s.forEach (List.range 16) (fun s g =>
    let mine := match (s.gal g).part with
      | some (k, _, _) => s.rd F.GAL_JQ_CFG_DQ g k == q
      | none => false
    let mark := fun (j : Job) => if j.dq == q then { j with drop := true } else j
    let kept := fun (j : Job) => j.dq != q
    s.onGal g (fun x => { x with jobs := x.jobs.map mark, part := if mine then none else x.part, back := x.back.filter kept }))

/-- R298: the queue is reset. -/
def State.qReset (s : State) (q : Nat) : State :=
  let lost := (s.queue q).stall
  let s := (s.qEmpty q).dropReleases q
  let s := s.onQueue q (fun x => { x with token := tokQRESET, stall := [] })
  let s := s.forEach lost (fun s x => s.emit (.pushReset x.1 q))
  let s := (s.bump F.CRQ_STAT_QRESETS 1 q).set F.CRQ_IRQ_QRESET q
  (s.record 0x16 1 rasCRQ q q).qGo q

/-! ### Configuration (R288) -/

/-- R288: the checks of a write that enables the queue with its configuration as stored. -/
def State.qCfgOk (s : State) (q : Nat) : Bool :=
  let cap := s.qCap q
  let b := s.rd F.CRQ_CFG_BASE q
  let apart := fun k =>
    k == q || !s.on F.CRQ_CFG_EN k || s.rd F.CRQ_CFG_BASE k + s.qCap k ≤ b || b + cap ≤ s.rd F.CRQ_CFG_BASE k
  b % cap == 0 && b + cap ≤ 131072 && s.rd F.CRQ_CFG_CT q ≤ cap && (List.range 1024).all apart

/-- R288: EN is cleared: stalled pops end with EMPTY (R293). -/
def State.qDisable (s : State) (q : Nat) : State := (s.clear F.CRQ_CFG_EN q).qGo q

/-- R288, Table 12-10: a write of CRQ_CFG. An enabling write that fails a check stores its other fields (log entry 126,
DEDUCED). -/
def State.writeCfg (s : State) (who : Initiator) (q v : Nat) : State :=
  if s.on F.CRQ_CFG_EN q then (if v.testBit 0 then s else s.qDisable q)
  else
    let cap := clamp 4 14 (F.CRQ_CFG_CAP_LOG2.of v)
    let s := s.writeWord who (F.CRQ_CFG_EN.addr q 0) (setBits v 11 8 cap / 2 * 2)
    if !v.testBit 0 then s
    else if s.qCfgOk q then ((s.set F.CRQ_CFG_EN q).qEmpty q).qGo q
    else s.bump F.CRQ_STAT_BAD_CMD 1 q

/-- R291: a write of CRQ_CMD: RELEASE, then a push that waits, REWIND, MARK and then a pop that waits. -/
def State.writeCmd (s : State) (q v : Nat) : State :=
  let s := s.qRelease q (F.CRQ_CMD_RELEASE.of v)
  let s := (s.goPush q).getD s
  let s := s.when (v.testBit 1) (fun s => s.qRewind q)
  (s.when (v.testBit 0) (fun s => s.qMark q)).qGo q

/-! ### Commands -/

/-- The BAR0 offset of a place in a queue's port page (R294). -/
def portPage (q o : Nat) : Nat := 0x1800000 + q * 0x1000 + o

/-- R294: a host push through a window of the port page. -/
def State.portPush (s : State) (q : Nat) (who : Initiator) (o : Nat) (item : Bytes) (tag : Nat) : State :=
  barWrite s who (portPage q o) (fun s => s.hostPush q item tag)

/-- Table 12-1, PUSH: one item with SOP and EOP. -/
def execPush (q : Fin 1024) (from_ : QPort) (item : Bytes) (s : State) : Outcome :=
  onDie s (fun s =>
    match from_ with
    | .host who => s.portPush q who 0x000 item (tagSOP + tagEOP)
    | .chip ep => s.chipPush q ep.val { item := lineOfBytes item, tag := tagSOP + tagEOP })

def execPushSop (q : Fin 1024) (who : Initiator) (item : Bytes) (s : State) : Outcome :=
  onDie s (fun s => s.portPush q who 0x040 item tagSOP)

def execPushMid (q : Fin 1024) (who : Initiator) (item : Bytes) (s : State) : Outcome :=
  onDie s (fun s => s.portPush q who 0x080 item 0)

def execPushEop (q : Fin 1024) (who : Initiator) (item : Bytes) (s : State) : Outcome :=
  onDie s (fun s => s.portPush q who 0x0C0 item tagEOP)

/-- R76, R77, R294: a pop that finds nothing stalls; on a port that holds 32 stalled reads it gets EMPTY at once. -/
def State.stallPop (s : State) (q : Nat) (who : QPort) (port tag : Nat) : State :=
  if port < 16 && 32 ≤ (s.stalled.filter (fun r => r.port == port)).length then
    s.answerPop who q tag (.token tokEMPTY)
  else
    let r : Stalled := ⟨port, who, q, tag⟩
    ({ s with stalled := s.stalled ++ [r] }).showPend port

/-- A pop by a consumer whose reads are served. Pops that stall on the queue already come first. -/
def State.qPop (s : State) (q : Nat) (who : QPort) (port tag : Nat) : State :=
  if s.stalled.any (fun r => r.queue == q) then s.stallPop q who port tag
  else match s.qTake q with
    | some (p, s) => (s.answerPop who q tag p).qGo q
    | none => s.stallPop q who port tag

/-- R294: a host read of POP of `size` bytes. -/
def State.hostPop (s : State) (q : Nat) (who : Initiator) (size tag : Nat) : State :=
  if size ≠ 64 || !s.on F.CRQ_CFG_HOSTRD q then
    (s.bump F.CRQ_STAT_BAD_CMD 1 q).emit (.hostPop who q tag 0)
  else if !s.on F.CRQ_CFG_EN q then
    (s.bump F.CRQ_STAT_BAD_CMD 1 q).answerPop (.host who) q tag (.token tokEMPTY)
  else
    let port := match who with
      | .ld l => ((s.secs.ldEntry l.val).map (·.port)).getD 16
      | _ => 16
    s.qPop q (.host who) port tag

/-- Table 12-1, POP. A read that Table 17-5 forbids returns zero (R386). -/
def execPop (q : Fin 1024) (from_ : QPort) (size : BitVec 8) (tag : BitVec 16) (s : State) : Outcome :=
  onDie s (fun s =>
    match from_ with
    | .chip ep => s.qPop q (.chip ep) 16 tag.toNat
    | .host who =>
      let due := s.sec.endLater
      let (ok, s) := (s.accessing.dropHalves who (portPage q 0x100)).access who (portPage q 0x100) false
      (if ok then s.hostPop q who size.toNat tag.toNat else s.emit (.hostPop who q tag.toNat 0)).firstAccess due)

/-- A command of Table 12-1 through CRQ_CMD, or of an on-chip consumer. -/
def State.qCmd (s : State) (q : Nat) (from_ : QPort) (v : Nat) : State :=
  match from_ with
  | .host who => barWrite s who (portPage q 0x140) (fun s => s.writeCmd q v)
  | .chip _ => s.writeCmd q v

def execRelease (q : Fin 1024) (from_ : QPort) (n : BitVec 15) (s : State) : Outcome :=
  onDie s (fun s => s.qCmd q from_ (n.toNat * 2 ^ 32))

def execMark (q : Fin 1024) (from_ : QPort) (s : State) : Outcome := onDie s (fun s => s.qCmd q from_ 1)

def execRewind (q : Fin 1024) (from_ : QPort) (s : State) : Outcome := onDie s (fun s => s.qCmd q from_ 2)

/-- R296. -/
def execGapTruncate (q : Fin 1024) (s : State) : Outcome := onDie s (fun s => s.gapTruncate q)

/-- R298: the copies of a pointer differ, which the comparison finds. -/
def execQreset (q : Fin 1024) (s : State) : Outcome := onDie s (fun s => s.qReset q)

/-- R288: a write of CRQ_CFG with EN 1. -/
def execQueueEnable (q : Fin 1024) (who : Initiator) (v : BitVec 64) (s : State) : Outcome :=
  onDie s (fun s => barWrite s who (portPage q 0x158) (fun s => s.writeCfg who q (setBit v.toNat 0 true)))

/-- R288: a write of CRQ_CFG with EN 0. -/
def execQueueDisable (q : Fin 1024) (who : Initiator) (v : BitVec 64) (s : State) : Outcome :=
  onDie s (fun s => barWrite s who (portPage q 0x158) (fun s => s.writeCfg who q (setBit v.toNat 0 false)))

end Sys2Proof.Machine
end

