-- ==== Sys2Proof/Machine/Gallery.lean ====
section
/-!
DEFINITION. Galleries (R299 to R310): binding, descriptors, starting jobs, reads and writes of a job's lines through
their homes, list items, commit and abort.
-/

namespace Sys2Proof.Machine

/-! ### Descriptors (Tables 12-5 and 12-6) -/

/-- The first item as bytes. -/
def Job.desc (j : Job) : Bytes := lineBytes (j.items.headD 0)

def Job.op (j : Job) : Nat := byteAt j.desc 0
def Job.flags (j : Job) : Nat := byteAt j.desc 1
def Job.jobId (j : Job) : Nat := le j.desc 4 4

/-- Argument k. -/
def Job.arg (j : Job) (k : Nat) : Nat := le j.desc (8 + 8 * k) 8

/-- DFLAGS bits. -/
def Job.irq (j : Job) : Bool := j.flags.testBit 0
def Job.order (j : Job) : Bool := j.flags.testBit 1
def Job.lists (j : Job) : Bool := j.flags.testBit 2
def Job.allStatus (j : Job) : Bool := j.flags.testBit 3
def Job.twin (j : Job) : Bool := j.flags.testBit 4
def Job.alloc (j : Job) : Bool := j.flags.testBit 5

/-- The operation works on pages that A0 and A1, or a LIST, name. -/
def pageOp (op : Nat) : Bool := op == 0x10 || op == 0x11 || op == 0x12 || op == 0x15

/-- Operations of the control complex alone (Table 12-6). -/
def ccOp (op : Nat) : Bool := op == 0x07 || op == 0x0A || op == 0x0B || (0x10 ≤ op && op ≤ 0x15)

/-- The page indices of a LIST, up to the entry of all ones. -/
def Job.listed (j : Job) : List Nat :=
  let es := (j.items.drop 1).flatMap (fun l => (List.range 7).map (fun i => lineWord l i))
  (es.take (j.arg 1)).takeWhile (· != 2 ^ 64 - 1)

/-- How many pages the job names. -/
def Job.count (j : Job) : Nat := if j.lists then j.listed.length else j.arg 1

/-- The i-th page that the job names. -/
def Job.pageAt (j : Job) (i : Nat) : Option Nat :=
  if j.lists then j.listed[i]? else if i < j.arg 1 then some (j.arg 0 + i) else none

/-- Continuation items that the OP and DFLAGS imply (R302). -/
def Job.needs (j : Job) : Nat :=
  (if j.lists && pageOp j.op then ceilDiv (j.arg 1) 7 else 0) + (if j.op = 0x05 then 1 else 0)

/-- R306: the control bytes and word indices of a SCAN. -/
def Job.term (j : Job) (t : Nat) : Nat × Nat × Nat × Nat :=
  let c := lineBytes (j.items.getD 1 0)
  (byteAt c (48 + t), le c (51 + 2 * t) 2, le c (16 * t) 8, le c (16 * t + 8) 8)

/-- R302: a reserved byte or bit is not zero. -/
def Job.reserved (j : Job) : Bool :=
  let d := j.desc
  let cont := j.items.drop 1
  64 ≤ j.flags || !allZero (slice d 2 2) || !allZero (slice d 56 8) ||
  (j.lists && cont.any (fun l => lineWord l 7 != 0 ||
    (List.range 7).any (fun i => lineWord l i != 2 ^ 64 - 1 && 2 ^ 34 ≤ lineWord l i))) ||
  (j.op == 0x05 && (!allZero (slice (lineBytes (j.items.getD 1 0)) 57 7) || bits (j.arg 3) 63 9 != 0 ||
    bits (j.arg 3) 7 4 != 0 || [0, 1, 2].any (fun t => 16 ≤ (j.term t).1))) ||
  ((j.op == 0x0A || j.op == 0x0B) && (bits (j.arg 3) 15 8 != 0 || bits (j.arg 3) 63 29 != 0)) ||
  (j.op == 0x10 && (bits (j.arg 2) 7 2 != 0 || bits (j.arg 2) 63 13 != 0)) ||
  (j.op == 0x11 && (bits (j.arg 2) 7 0 != 0 || bits (j.arg 2) 63 13 != 0)) ||
  (j.op == 0x13 && (bits (j.arg 2) 7 4 != 0 || bits (j.arg 2) 63 16 != 0))

/-- Multiples of 64. -/
def al64 (l : List Nat) : Bool := l.all (· % 64 == 0)

/-- Two byte ranges of one length do not overlap. -/
def apart (a b n : Nat) : Bool := n == 0 || a + n ≤ b || b + n ≤ a

/-- The rank group of an A2 field: it exists and is of the tier. -/
def State.rankGroup (s : State) (k : Nat) (loft : Bool) : Option Group :=
  s.map.groups.find? (fun g => g.idx == k && g.loft == loft)

/-- Table 12-6, R303, R306: the arguments keep their limits. -/
def State.argsOk (s : State) (j : Job) : Bool :=
  let a := j.arg
  let pages := s.secs.pages
  let below := if j.lists then j.listed.all (· < pages) else a 1 == 0 || a 0 + a 1 ≤ pages
  match j.op with
  | 0x01 => al64 [a 0, a 1, a 2] && a 2 ≤ 2 ^ 40 && apart (a 0) (a 1) (a 2)
  | 0x02 => al64 [a 1, a 2]
  | 0x03 => al64 [a 0, a 2]
  | 0x04 => al64 [a 0, a 2]
  | 0x05 =>
    let rsz := a 3 % 16
    al64 [a 0, a 2] && 3 ≤ rsz && rsz ≤ 12 && a 0 % 2 ^ rsz == 0 && a 2 % 2 ^ rsz == 0 &&
      [0, 1, 2].all (fun t => (j.term t).2.1 < 2 ^ rsz / 8 && (!(j.term t).1.testBit 3 || (j.term t).1 % 8 ≤ 5))
  | 0x06 => al64 [a 0, a 2]
  | 0x07 => a 0 < pages
  | 0x08 => al64 [a 0, a 1]
  | 0x09 => al64 [a 0, a 1]
  | 0x0A => aes
  | 0x0B => aes
  | 0x10 =>
    let k := bits (a 2) 12 8
    (a 2 % 4 == 2 || a 2 % 4 == 3) && (k == 0x1F || (s.rankGroup k (a 2 % 4 == 3)).isSome) && below
  | 0x11 => s.map.groups.any (fun g => g.idx == bits (a 2) 12 8) && below
  | 0x12 => below
  | 0x13 => !j.lists && below
  | 0x14 => 1 ≤ a 0 && a 0 ≤ 255
  | 0x15 => below
  | _ => true
where
  aes : Bool :=
    let a := j.arg
    let u := bits (a 3) 28 16
    al64 [a 0, a 1] && a 2 % 16 == 0 && 16 ≤ u && u ≤ 4096 && a 3 % 256 != 0 &&
      s.rd F.KEY_SLOT_STATE_STATE 0 (a 3 % 256) == 1

/-- R302, R303: the DETAIL of a descriptor that is bad. The order of the checks is the model's (log entry 34, DESIGN CHOICE). -/
def State.descBad (s : State) (j : Job) (sop trunc : Bool) : Option Nat :=
  if trunc || !sop then some 4
  else if j.op = 0 || (0x0B < j.op && j.op < 0x10) || 0x15 < j.op then some 1
  else if j.owner ≠ 0x80 && ccOp j.op then some 2
  else if j.items.length ≠ 1 + j.needs then some 4
  else if j.reserved then some 3
  else if (j.lists && !pageOp j.op) || !s.argsOk j then some 5
  else none

/-! ### The job table -/

/-- GAL_STATUS (Table 12-12). -/
def State.showGal (s : State) (g : Nat) : State :=
  let js := (s.gal g).jobs
  (s.wr F.GAL_STATUS_FETCHED js.length g).wr F.GAL_STATUS_RUNNING (js.filter (·.st == .running)).length g

/-- Replace a job. -/
def State.setJob (s : State) (g : Nat) (j : Job) : State :=
  (s.onGal g (fun x => { x with jobs := x.jobs.map (fun y => if y.seq = j.seq then j else y) })).showGal g

/-- A job by its number. -/
def State.jobBySeq (s : State) (g seq : Nat) : Option Job := (s.gal g).jobs.find? (·.seq == seq)

/-- The job queue is bound. -/
def State.jqOn (s : State) (g k : Nat) : Bool := s.on F.GAL_JQ_CFG_EN g k && !(s.gal g).closing.contains k

/-- R301: M stands at the first fetched job of the queue that has not started, or at the packet being fetched. -/
def State.keepMark (s : State) (g k : Nat) : State :=
  let q := s.rd F.GAL_JQ_CFG_DQ g k
  let waiting := (s.gal g).jobs.find? (fun j => j.jq == k && j.st == .fetched && !j.drop)
  let at_ := match waiting, (s.gal g).part with
    | some j, _ => j.at_
    | none, some (k', p, _) => if k' = k then p else s.qD q
    | none, none => s.qD q
  (s.wr F.CRQ_PTR1_M at_ q).onQueue q (fun x => { x with saved := false })

/-- A page step of a job gives back what it holds (Table 12-8). -/
def State.undoStep (s : State) (j : Job) : State :=
  match j.page with
  | none => s
  | some p =>
    let s := match p.run with
      | some (g, n) => s.releaseRun g n
      | none => s
    let s := match p.shared with
      | some e =>
        let t := s.twin e
        if t.refcnt ≤ 1 then (s.releaseRun t.loc (bszSum t.bsz)).setTwin e { t with refcnt := 0, valid := false }
        else s.setTwin e { t with refcnt := t.refcnt - 1 }
      | none => s
    { s with map := { s.map with watch := s.map.watch.filter (fun w => w.2.1 != j.seq) } }

/-- A step of a job on a page ends or is given up: the page leaves BUSY, and what waited for it is served (R90). -/
def State.stepEnds (s : State) (j : Job) : State :=
  let mine := fun (x : Nat × BusyOp) => match x.2 with | .jobStep _ q => q == j.seq | _ => false
  if s.map.busy.any mine then
    ({ s with map := { s.map with busy := s.map.busy.filter (fun x => !mine x) } }).serveQueues
  else s

/-- A list item of Table 12-7's packet: type and up to seven entries; the rest is all ones. -/
def listItem (typ : Nat) (es : List Nat) : Line :=
  let body := (List.range 7).flatMap (fun i => toLE 8 (es.getD i (2 ^ 64 - 1)))
  lineOfBytes (body ++ List.replicate 6 0 ++ toLE 1 typ ++ [0])

/-- The TYPE of a job's list items. -/
def Job.itemType (j : Job) : Nat := if j.op = 0x05 || j.op = 0x13 then 0x83 else 0x82

/-- R307: one more entry of a list item. -/
def Job.addEntry (j : Job) (e : Nat) : Job :=
  let p := j.part ++ [e]
  if p.length = 7 then { j with list := j.list ++ [listItem j.itemType p], part := [] } else { j with part := p }

/-- R307: a STATUS entry of a job whose other list items are MATCH items. -/
def Job.addStat (j : Job) (e : Nat) : Job :=
  let p := j.stat ++ [e]
  if p.length = 7 then { j with list := j.list ++ [listItem 0x82 p], stat := [] } else { j with stat := p }

/-- R307: a page of a tier job ends with a status. -/
def Job.status (j : Job) (p code : Nat) : Job :=
  let j := { j with pos := j.pos + 1, progress := j.pos + 1, page := none, asked := [], got := none, wrote := none,
                    ok := j.ok + b2n (code < 0x10), exc := j.exc + b2n (0x10 ≤ code) }
  if !(j.allStatus || 0x10 ≤ code) then j
  else if j.op = 0x13 then j.addStat (p + code * 2 ^ 40) else j.addEntry (p + code * 2 ^ 40)

/-- RESULT codes (Table 12-7). -/
def resDONE : Nat := 0
def resEXC : Nat := 1
def resABORTED : Nat := 2
def resBAD : Nat := 3
def resFAULT : Nat := 4
def resLIMIT : Nat := 5
def resACCESS : Nat := 6

/-- A job ends; its summary is pushed at its commit. -/
def State.endJob (s : State) (g : Nat) (j : Job) (result detail : Nat) : State :=
  let s := (s.undoStep j).stepEnds j
  let s := { s with map := { s.map with tags := s.map.tags.filter (fun x => x.2.1 != g) } }
  let list := if j.part.isEmpty then j.list else j.list ++ [listItem j.itemType j.part]
  let list := if j.stat.isEmpty then list else list ++ [listItem 0x82 j.stat]
  let r := if result = resDONE ∧ 0 < j.exc then resEXC else result
  s.setJob g { j with st := .ended, result := r, detail := detail, list := list, part := [], stat := [], page := none }

/-- R304: the byte ranges that a job addresses. An ENCODE may write up to 528 bytes a block; a last line that is written
in part counts to its last byte. -/
def Job.ranges (j : Job) : List (Nat × Nat) :=
  let a := j.arg
  match j.op with
  | 0x01 => [(a 0, a 2), (a 1, a 2)]
  | 0x02 => [(a 1, a 2)]
  | 0x03 => [(a 0, a 2)]
  | 0x04 => [(a 0, a 2)]
  | 0x05 => [(a 0, a 2)]
  | 0x06 => [(a 0, a 2)]
  | 0x08 => [(a 0, 512 * a 2), (a 1, 528 * a 2)]
  | 0x09 => [(a 0, a 3), (a 1, 512 * a 2)]
  | _ => []

/-- R304: the check of an LD-owned job before it takes any action. -/
def State.mayAccess (s : State) (j : Job) : Bool :=
  if j.owner = 0x80 then true
  else match s.secs.ldEntry j.owner with
    | none => false
    | some e => j.ranges.all (fun x => s.dpaRange e x.1 x.2)

/-- What a job starts with. -/
def Job.init (j : Job) (st : Nat) : Job :=
  { j with st := .running, start := st, r1 := if j.op = 0x03 then 2 ^ 64 - 1 else 0,
           acc := if j.op = 0x04 then 2 ^ 64 - 1 else 0 }

/-- R301: the job may start now: four execute at most, and an ORDER job waits for the earlier jobs of its queue. -/
def State.mayStartJob (s : State) (g : Nat) (j : Job) : Bool :=
  let js := (s.gal g).jobs
  (js.filter (·.st == .running)).length < 4 &&
    !(j.order && (js.takeWhile (·.seq != j.seq)).any (·.jq == j.jq)) &&
    !(s.tierPaused && 0x10 ≤ j.op && j.op ≤ 0x12) &&
    s.rd F.NOC_DOM_STATUS_STATE 0 (16 + g) == domON

/-- R301: start fetched jobs in fetch order. The first argument bounds their number. -/
def State.startJobs : Nat → State → Nat → State
  | 0, s, _ => s
  | n + 1, s, g =>
    match (s.gal g).jobs.find? (·.st == .fetched) with
    | none => s
    | some j =>
      if !s.mayStartJob g j then s
      else
        let j' := j.init s.st
        let s := (s.setJob g j').keepMark g j.jq
        let s := match j.bad with
          | some d => s.endJob g j' resBAD d
          | none => if s.mayAccess j then s else s.endJob g j' resACCESS 0
        State.startJobs n s g

/-! ### Binding (R300) -/

/-- R300: the checks of a binding. -/
def State.bindOk (s : State) (g dq cq owner : Nat) : Bool :=
  let taken := (List.range 16).any (fun g' => (List.range 8).any (fun k =>
    s.on F.GAL_JQ_CFG_EN g' k && s.rd F.GAL_JQ_CFG_DQ g' k == dq))
  s.on F.CRQ_CFG_EN dq && s.rd F.CRQ_CFG_CONS dq == 16 + g && !taken && s.on F.CRQ_CFG_EN cq &&
    (owner == 0x80 || (owner < 64 && s.on F.GAL_CTL_HOST_JOBS g)) && !s.rdBit F.RAS_GAL_SUSPECT_GAL g

/-- Table 12-14: the clearing of EN takes effect once no fetched job of the queue is left. -/
def State.closeJq (s : State) (g k : Nat) : State :=
  let busy := (s.gal g).jobs.any (·.jq == k) || (match (s.gal g).part with | some (k', _, _) => k' == k | none => false)
  if (s.gal g).closing.contains k && !busy then
    (s.onGal g (fun x => { x with closing := x.closing.filter (· != k) })).clear F.GAL_JQ_CFG_EN g k
  else s

/-- Table 12-14: a write of GAL_JQk. An enabling write that is refused stores its other fields (log entry 126, DEDUCED). -/
def State.writeJq (s : State) (who : Initiator) (g k v : Nat) : State :=
  let s := s.wr F.GAL_JQ_CFG_WEIGHT (max 1 (F.GAL_JQ_CFG_WEIGHT.of v)) g k
  if s.on F.GAL_JQ_CFG_EN g k then
    if v.testBit 63 then s
    else (s.onGal g (fun x => { x with closing := x.closing.filter (· != k) ++ [k] })).closeJq g k
  else
    let s := s.writeWord who (F.GAL_JQ_CFG_EN.addr g k) v (fun f => f != F.GAL_JQ_CFG_EN && f != F.GAL_JQ_CFG_WEIGHT)
    if !v.testBit 63 then s
    else if s.bindOk g (F.GAL_JQ_CFG_DQ.of v) (F.GAL_JQ_CFG_CQ.of v) (F.GAL_JQ_CFG_OWNER.of v) then
      (s.clear F.GAL_JQ_CFG_REFUSED g k).set F.GAL_JQ_CFG_EN g k
    else s.set F.GAL_JQ_CFG_REFUSED g k

/-! ### Fetching (R301) -/

/-- Pop the items of a packet that are there. The items so far, and whether the packet has ended and was truncated;
`none`: the packet is gone with a reset or a cleared EN. The first argument bounds the pops. -/
def State.popPacket : Nat → State → Nat → List QItem → Option (List QItem × Option Bool) × State
  | 0, s, _, l => (some (l, none), s)
  | n + 1, s, q, l =>
    match s.qTake q with
    | none => (some (l, none), s)
    | some (.token t, s) =>
      if t = tokTRUNC then (if l.isEmpty then State.popPacket n s q l else (some (l, some true), s)) else (none, s)
    | some (.item x, s) =>
      let l := l ++ [x]
      if x.tag.testBit 1 then (some (l, some (x.tag.testBit 2)), s) else State.popPacket n s q l

/-- R301: the queue whose turn it is: the one in turn while packets are left to it, else the next that has something. -/
def State.turnOf (s : State) (g : Nat) : Option (Nat × Nat) :=
  let (k0, left) := (s.gal g).turn
  let has := fun k => s.jqOn g k &&
    (let q := s.rd F.GAL_JQ_CFG_DQ g k
     (s.queue q).token != 0 || (s.on F.CRQ_CFG_EN q && 0 < s.qAvail q && s.startable q))
  if 0 < left && has k0 then some (k0, left - 1)
  else
    match (List.range 8).find? (fun i => has ((k0 + 1 + i) % 8)) with
    | none => none
    | some i =>
      let k := (k0 + 1 + i) % 8
      some (k, s.rd F.GAL_JQ_CFG_WEIGHT g k - 1)

/-- R301, R302: what job queue `k` makes of what `popPacket` answers from queue `q`: a job, the part of one, or nothing. -/
def State.fetched (s : State) (g k p q : Nat) (r : Option (List QItem × Option Bool)) : State :=
  match r with
  | none => (s.onGal g (fun x => { x with part := none })).closeJq g k
  | some (l, none) =>
    if l.isEmpty then s.onGal g (fun x => { x with part := none })
    else (s.onGal g (fun x => { x with part := some (k, p, l) })).keepMark g k
  | some (l, some trunc) =>
    let j : Job := { seq := s.jobSeq, jq := k, dq := q, cq := s.rd F.GAL_JQ_CFG_CQ g k,
                     owner := s.rd F.GAL_JQ_CFG_OWNER g k, items := l.map (·.item), at_ := p, bad := none }
    let sop := match l.head? with | some x => x.tag.testBit 0 | none => false
    let j := ((s.gal g).back.find? (fun y => y.dq == q && y.at_ == p)).getD { j with bad := s.descBad j sop trunc }
    let s : State := { s with jobSeq := s.jobSeq + 1 }
    let other := fun (y : Job) => y.seq != j.seq
    let s := s.onGal g (fun x => { x with part := none, jobs := x.jobs ++ [j], back := x.back.filter other })
    let s := (s.bump F.GAL_JQ_CNT_FETCHED 1 g k).showGal g
    State.startJobs 16 (s.keepMark g k) g

/-- Go on fetching queue `k`'s packet, of which `l` is at hand and which begins at item `p`. -/
def State.fetchFrom (s : State) (g k p : Nat) (l : List QItem) : State :=
  let q := s.rd F.GAL_JQ_CFG_DQ g k
  let x := State.popPacket (s.qAvail q + 2) s q l
  x.2.fetched g k p q x.1

/-- R301: fetch one packet, as far as it has arrived. -/
def State.fetchJob (s : State) (g : Nat) : State :=
  if s.rd F.NOC_DOM_STATUS_STATE 0 (16 + g) != domON || s.on F.GEN_STATUS_FATAL || 16 ≤ (s.gal g).jobs.length then s
  else match (s.gal g).part with
    | some (k, p, l) => s.fetchFrom g k p l
    | none =>
      match s.turnOf g with
      | none => s
      | some t =>
        let s := s.onGal g (fun x => { x with turn := t })
        s.fetchFrom g t.1 (s.qD (s.rd F.GAL_JQ_CFG_DQ g t.1)) []

/-- A job that an abort ended before it started, behind a job of its queue that has not started. -/
def GalSt.behind (x : GalSt) (j : Job) : Bool :=
  j.st == .ended && !j.drop && (x.jobs.takeWhile (·.seq != j.seq)).any (fun y => y.jq == j.jq && y.st == .fetched && !y.drop)

/-- R301, R310: before the gallery fences, its queues rewind to M and the jobs not started leave the table. One that an
abort has ended meanwhile is fetched again as ended, so that the summaries keep their order. -/
def State.galRewind (s : State) (g : Nat) : State :=
  let s := s.forEach ((List.range 8).filter (fun k => s.on F.GAL_JQ_CFG_EN g k)) (fun s k =>
    (s.keepMark g k).qRewind (s.rd F.GAL_JQ_CFG_DQ g k))
  let stays := fun (x : GalSt) (j : Job) => j.st != .fetched && !x.behind j
  (s.onGal g (fun x =>
    { x with part := none, back := x.back ++ x.jobs.filter x.behind, jobs := x.jobs.filter (stays x) })).showGal g

/-! ### Lines of a job (R305) -/

/-- The master that a job's traffic is charged to (R301): its owner LD, or the gallery's own. -/
def Job.master (j : Job) (g : Nat) : Nat := if j.owner = 0x80 then 64 + g else j.owner

/-- The DLA line of a job's byte address; `none`: unmapped. -/
def State.jobLine (s : State) (j : Job) (addr : Nat) : Option Nat :=
  if j.owner = 0x80 then
    (if addr < 2 ^ 46 && (addr / 4096 < s.secs.pages || (s.importOf (addr / 2 ^ 28)).isSome) then some (addr / 64) else none)
  else (s.secs.ldEntry j.owner).bind (fun e => s.dpaLine e addr)

/-- The member and line of a job's byte address. -/
def State.jobPlace (s : State) (j : Job) (addr : Nat) : Option (Nat × Nat) :=
  (s.jobLine j addr).bind s.spanPlace

/-- Nothing holds a line of this controller up: no open transaction, its home's domain is ON (R207, R208), and its page is
free at a slice that is up. -/
def State.quiet (s : State) (line : Nat) : Bool :=
  !s.lineBusy line && !(s.home (homeOf line)).confq.any (fun f => f.msg.line.toNat == line) &&
    s.rd F.NOC_DOM_STATUS_STATE 0 (homeOf line) == domON && !s.pageHeld (line / 64)

/-- A read of a line needs nothing that is asleep, fenced or to be asked for: no parked rank (R94), no fenced gallery (R93),
no tag (R145). -/
def State.readyRead (s : State) (line : Nat) : Bool :=
  (s.sleepers (s.readMas line)).isEmpty && (s.blockHeld line).isNone && !s.tagOnRead (line / 64)

/-- The directory's state of a line. -/
def State.dirState (s : State) (line : Nat) : Nat :=
  match s.dirFind line with
  | some w => (s.dirEnt line w).dstate
  | none => 0

/-- RTAG of a job's requests (log entry 32, DESIGN CHOICE). -/
def Job.rtag (j : Job) : Nat := 128 + j.seq % 128

/-- The message of a job about a line. -/
def jobMsg (g : Nat) (j : Job) (slot line : Nat) : CohMsg :=
  { src := BitVec.ofNat 7 (64 + g), line := BitVec.ofNat 40 line, slot := BitVec.ofNat 4 slot, rtag := BitVec.ofNat 8 j.rtag }

/-- What a job's read of a line comes to. -/
inductive Fetched where
  | data (d : Line) (bad : Bool)
  | wait
  | fault
deriving DecidableEq, Repr

/-- R305: a job reads the line at a byte address: from its gallery's cache, from memory where no agent owns the line, or
by a request to the line's home. -/
def State.jobFetch (s : State) (g : Nat) (j : Job) (addr : Nat) : Fetched × Job × State :=
  match j.got with
  | some (d, p) => (.data d p, j, s)
  | none =>
    match s.jobPlace j addr with
    | none => (.fault, j, s)
    | some (sl, line) =>
      let x := s.agLine (64 + g) sl line
      let m := jobMsg g j sl line
      if x.st.hits then (.data x.data x.poison, j, s.galStat (64 + g) 0)
      else if j.alloc && !s.liteLine sl && s.mayAsk (64 + g) then (.wait, j, s.agLoad (64 + g) { m with rtag := 0 })
      else if !j.asked.isEmpty then (.wait, j, s)
      else if sl = s.slot && s.quiet line && s.dirState line != 3 && s.readyRead line then
        let s := (s.pageTouch (line / 64) (j.master g)).postRead line (j.master g)
        let ((d, p), s) := s.takeLine line (j.master g) none ([], true)
        (.data (lineOfBytes d) p, j, s)
      else (.wait, { j with asked := [line] }, s.request ⟨opRdS, .home, { m with noalloc := true }⟩ (j.master g))

/-- What a job's write of a line comes to. -/
inductive Stored where
  | done
  | wait
  | fault
deriving DecidableEq, Repr

/-- R305: a job writes the line at a byte address with WbD and NOOWN: at once where no agent holds the line and a frame
can be had, else by a request to the line's home. -/
def State.jobStore (s : State) (g : Nat) (j : Job) (addr : Nat) (d : Line) (mask : BitVec 64) (bad : Bool) :
    Stored × Job × State :=
  match j.wrote with
  | some true => (.done, { j with wrote := none }, s)
  | some false => (.wait, j, s)
  | none =>
    match s.jobPlace j addr with
    | none => (.fault, j, s)
    | some (sl, line) =>
      let m := jobMsg g j sl line
      let a := 64 + g
      let now := if sl = s.slot && s.quiet line && s.dirState line == 0 then
          s.writeNow line d mask bad (j.master g) else (false, s)
      if now.1 then (.done, j, now.2)
      else if 4 ≤ s.spent a (homeOf line) then (.wait, j, s)
      else
        let s := (s.spend a (homeOf line)).request ⟨opWbD, .home, { m with noown := true, mask := mask }⟩ (j.master g)
        let s := s.send ⟨opDataM, .home, { m with data := d, mask := mask, poison := bad, write := true }⟩
        (.wait, { j with wrote := some false }, s)

/-! ### Running a job -/

/-- The gallery is suspect: its jobs end FAULT at their next boundary (R411). -/
def State.suspect (s : State) (g : Nat) : Bool := s.rdBit F.RAS_GAL_SUSPECT_GAL g

/-- R307: list items of a job go to its CQ while it has room. A packet of another job in the queue comes first, and so
do earlier jobs of the same job queue (log entry 35, DESIGN CHOICE). -/
def State.mayPush (s : State) (g : Nat) (j : Job) : Bool :=
  let other := (List.range 16).any (fun g' => (s.gal g').jobs.any (fun x => x.cq == j.cq && x.opened && x.seq != j.seq))
  let first := !((s.gal g).jobs.takeWhile (·.seq != j.seq)).any (·.jq == j.jq)
  !other && first && s.on F.CRQ_CFG_EN j.cq && (s.queue j.cq).stall.isEmpty && s.qUsed j.cq < s.qCap j.cq

/-- Push one item of a job's completion. -/
def State.pushItem (s : State) (j : Job) (x : Line) (last : Bool) : State :=
  s.qPush j.cq ⟨x, (if j.opened then 0 else tagSOP) + (if last then tagEOP else 0)⟩

/-- Push list items as far as they go. The first argument bounds their number. -/
def State.pushList : Nat → State → Nat → Nat → State
  | 0, s, _, _ => s
  | n + 1, s, g, seq =>
    match s.jobBySeq g seq with
    | none => s
    | some j =>
      match j.list with
      | [] => s
      | x :: rest =>
        if s.mayPush g j then
          State.pushList n ((s.pushItem j x false).setJob g { j with list := rest, opened := true }) g seq
        else s

/-- Run `n` units of a job: `unit` handles one line, block, page or step of a running job, and says whether to go on. A
job whose list items wait does not go on. -/
def State.jobRun (unit : State → Nat → Job → State × Bool) : Nat → State → Nat → Nat → State
  | 0, s, _, _ => s
  | n + 1, s, g, seq =>
    let s := State.pushList 64 s g seq
    match s.jobBySeq g seq with
    | none => s
    | some j =>
      if j.st != .running || !j.list.isEmpty then s
      else if j.wrote.isNone && s.suspect g then s.endJob g j resFAULT 0
      else if j.wrote.isNone && (s.gal g).aborts.contains (j.dq, j.seq) then s.endJob g j resABORTED 0
      else
        let (s, go) := unit s g j
        if go then State.jobRun unit n s g seq else s

/-- The meaning of a job's row: the i-th job of the gallery's table runs `n` units, if it is of this operation. -/
def State.jobRow (s : State) (g i op n : Nat) (unit : State → Nat → Job → State × Bool) : State :=
  match (s.gal g).jobs[i]? with
  | none => s
  | some j => if j.op = op then State.startJobs 16 (State.jobRun unit n s g j.seq) g else s

/-! ### Commit (R308) -/

/-- Table 12-7: the summary item. -/
def Job.summary (j : Job) (st : Nat) : Line :=
  lineOfBytes (toLE 1 j.result ++ toLE 1 j.op ++ toLE 1 j.detail ++ [0] ++ toLE 4 j.jobId ++ toLE 8 j.progress ++
    toLE 8 j.r0 ++ toLE 8 j.r1 ++ toLE 4 j.ok ++ toLE 4 j.exc ++ toLE 8 j.start ++ toLE 8 st ++
    List.replicate 5 0 ++ [1, 0x81, 0])

/-- Table 12-13: what the result of a job counts and raises. -/
def State.countResult (s : State) (g : Nat) (j : Job) : State :=
  let s := s.when (j.result == resBAD) (fun s => (s.bump F.GAL_ERR_BAD_DESC 1 g).set F.GAL_IRQ_BAD_DESC g)
  let s := s.when (j.result == resACCESS) (fun s => (s.bump F.GAL_ERR_ACCESS 1 g).set F.GAL_IRQ_BAD_DESC g)
  let s := s.when (j.result == resFAULT) (fun s => (s.bump F.GAL_ERR_FAULT 1 g).set F.GAL_IRQ_FAULT g)
  let s := s.when (j.result == resABORTED) (fun s => (s.bump F.GAL_ERR_ABORTED 1 g).set F.GAL_IRQ_ABORT g)
  s.when (j.irq && j.result != resBAD) (fun s => s.set F.GAL_IRQ_JOB g)

/-- Table 12-8: the result of an abort, once the job commits. -/
def State.abortDone (s : State) (g : Nat) (j : Job) : State :=
  if (s.gal g).aborts.contains (j.dq, j.seq) then
    let s := s.onGal g (fun x => { x with aborts := x.aborts.erase (j.dq, j.seq) })
    (s.wr F.CRQ_ABORT_RES_RESULT (if j.result = resABORTED then 1 else 2) j.dq).set F.CRQ_ABORT_RES_DONE j.dq
  else s

/-- R301, R308, R310: what follows the push of the summary. -/
def State.committed (s : State) (g : Nat) (j : Job) : State :=
  let s := s.onGal g (fun x =>
    { x with jobs := x.jobs.filter (·.seq != j.seq),
             recent := smSet [] x.recent j.dq (pushRing 64 (smGet [] x.recent j.dq) j.jobId) })
  let s := s.when (!j.drop) (fun s => (s.qRelease j.dq j.items.length).qGo j.dq)
  let s := (s.bump F.GAL_JQ_CNT_COMMITTED 1 g j.jq).counts (32 + g) evJob { agent := some (j.master g) }
  let s := (s.countResult g j).abortDone g j
  State.startJobs 16 ((s.showGal g).closeJq g j.jq) g

/-- R308: a job that has ended commits, if its CQ takes its items. -/
def State.commitJob (s : State) (g i : Nat) : State :=
  match (s.gal g).jobs[i]? with
  | none => s
  | some j =>
    if j.st != .ended then s
    else
      let s := State.pushList (j.list.length + 1) s g j.seq
      match s.jobBySeq g j.seq with
      | none => s
      | some j =>
        if j.list.isEmpty && s.mayPush g j then (s.pushItem j (j.summary s.st) true).committed g j else s

/-! ### Abort (R309) -/

/-- The gallery and job queue to which a descriptor queue is bound. -/
def State.boundTo (s : State) (q : Nat) : Option (Nat × Nat) :=
  ((List.range 128).map (fun i => (i / 8, i % 8))).find? (fun x =>
    s.on F.GAL_JQ_CFG_EN x.1 x.2 && s.rd F.GAL_JQ_CFG_DQ x.1 x.2 == q)

/-- Table 12-8: a write of a JOB_ID to CRQ_ABORT. A running job that waits for the acceptance of a write (a page's commit
among them) stops after it (jobRun). -/
def State.abortJob (s : State) (q id : Nat) : State :=
  match s.boundTo q with
  | none => s
  | some (g, k) =>
    let res := fun (s : State) r => (s.wr F.CRQ_ABORT_RES_RESULT r q).set F.CRQ_ABORT_RES_DONE q
    if (s.gal g).aborts.any (·.1 == q) then res s 4
    else match (s.gal g).jobs.find? (fun j => j.jq == k && j.jobId == id) with
      | none => res s (if (smGet [] (s.gal g).recent q).contains id then 2 else 3)
      | some j =>
        let s := (s.clear F.CRQ_ABORT_RES_DONE q).clear F.CRQ_ABORT_RES_RESULT q
        let s := s.onGal g (fun x => { x with aborts := x.aborts ++ [(q, j.seq)] })
        match j.st with
        | .fetched => s.endJob g { j with start := s.st } resABORTED 0 |>.keepMark g k
        | .running => if j.wrote.isSome then s else State.startJobs 16 (s.endJob g j resABORTED 0) g
        | .ended => s

/-! ### Register hooks -/

/-- A write of a CRQ register, or a wrong write of a window of the port page (R294). -/
def State.writeCrq (s : State) (who : Initiator) (off v : Nat) : State :=
  let q := (off - 0x1800000) / 0x1000
  let o := (off - 0x1800000) % 0x1000
  if o < 0x100 then s.bump F.CRQ_STAT_BAD_CMD 1 q
  else if o = 0x140 then s.writeCmd q v
  else if o = 0x158 then s.writeCfg who q v
  else if o = 0x160 then
    let n := F.CRQ_GAP_GAP_NS.of v
    s.wr F.CRQ_GAP_GAP_NS (if n = 0 then 0 else clamp 100 1000000 n) q
  else if o = 0x178 then s.abortJob q (v % 2 ^ 32)
  else s.writeWord who off v

/-- GAL_CTL.FLUSH (Table 12-12). -/
def State.galFlush (s : State) (g : Nat) : State :=
  (s.onGal g (fun x => { x with flush := true })).galEvict g

/-- A write of a GAL register. -/
def State.writeGal (s : State) (who : Initiator) (off v : Nat) : State :=
  match F.GAL_JQ_CFG_EN.at off, F.GAL_CTL_FLUSH.at off with
  | some (g, k), _ => s.writeJq who g k v
  | _, some (g, _) => (s.writeWord who off v).when (v.testBit 2) (fun s => s.galFlush g)
  | _, _ => s.writeWord who off v

/-! ### Commands -/

/-- R300: a write of GAL_JQk with EN 1. -/
def execJobQueueBind (who : Initiator) (g : Fin 16) (k : Fin 8) (v : BitVec 64) (s : State) : Outcome :=
  let off := F.GAL_JQ_CFG_EN.addr g k
  onDie s (fun s => barWrite s who off (fun s => s.writeGal who off (setBit v.toNat 63 true)))

/-- R312: a write of GAL_JQk with EN 0. -/
def execJobQueueUnbind (who : Initiator) (g : Fin 16) (k : Fin 8) (v : BitVec 64) (s : State) : Outcome :=
  let off := F.GAL_JQ_CFG_EN.addr g k
  onDie s (fun s => barWrite s who off (fun s => s.writeGal who off (setBit v.toNat 63 false)))

/-- R312: a write of GAL_CTL with FLUSH 1. -/
def execGalFlush (who : Initiator) (g : Fin 16) (v : BitVec 64) (s : State) : Outcome :=
  let off := F.GAL_CTL_FLUSH.addr g 0
  onDie s (fun s => barWrite s who off (fun s => s.writeGal who off (setBit v.toNat 2 true)))

/-- R301. -/
def execDescriptorFetch (g : Fin 16) (s : State) : Outcome := onDie s (fun s => s.fetchJob g)

/-- R308. -/
def execJobCommit (g : Fin 16) (job : Fin 16) (s : State) : Outcome := onDie s (fun s => s.commitJob g job)

/-- R309: a write of CRQ_ABORT. -/
def execAbort (who : Initiator) (q : Fin 1024) (id : BitVec 32) (s : State) : Outcome :=
  onDie s (fun s => barWrite s who (portPage q 0x178) (fun s => s.abortJob q id.toNat))

end Sys2Proof.Machine
end

