-- ==== Sys2Proof/Machine/Ports.lean ====
section
/-!
DEFINITION. The commands of the host ports (chapter 3): links, M2S requests, snoop answers, Dynamic Capacity, resets of
an LD, IDE, lane failure, latency tolerance and configuration writes.
-/

namespace Sys2Proof.Machine

/-! ### Links -/

/-- Lanes of a WIDTH code. -/
def widthLanes (w : Nat) : Nat := if w = 0 then 0 else 2 ^ (w - 1)

/-- Lanes of a port's unit. -/
def State.physLanes (s : State) (p : Nat) : Nat := 4 * 2 ^ s.rd F.PRT_CFG_UNIT_WIDTH p

/-- R73: the link trains to `w` lanes without a failed lane, with its lane order reversed or not. -/
def State.trainsWithout (s : State) (p w : Nat) (rev : Bool) : Bool :=
  !s.badLanes.any (fun x => x.1 == p && (if rev then s.physLanes p - w ≤ x.2 else x.2 < w))

/-- R66: the LDs of a port that trains without Back-Invalidate are no holders: the directories and the proxy filters drop
them, and snoops outstanding to them count as answered RspI (log entry 112, DEDUCED). -/
def State.unhold (s : State) (l : Nat) : State :=
  let open_ := (s.ld l).bisnp
  let s := s.onLd l (fun d => { d with bisnp := [] })
  let s := s.forEach open_ (fun s b => s.biAnswer l opRspI b.home b.line b.htag)
  let s := s.forEach (s.coh.dir.filter (fun x => x.2.sharers.testBit l)) (fun s x =>
    s.setDir (lineAt (x.1 / 131072) (x.1 / 16 % 8192) x.2.tag) (x.1 % 16) (x.2.drop l))
  s.forEach (s.coh.pf.filter (fun x => x.2.locals.testBit l)) (fun s x =>
    let line := lineAt (x.1 / 131072) (x.1 / 16 % 8192) x.2.tag
    s.pfPurge ⟨0, .home, { src := BitVec.ofNat 7 l, line := BitVec.ofNat 40 line, slot := BitVec.ofNat 4 x.2.slot }⟩)

/-- R57, R73: a port's link comes up, without the lanes that have failed. Codes: RATE of Table 1-4, WIDTH of Table 3-6. -/
def State.linkUp (s : State) (p rate width : Nat) (l0p : Bool) : State :=
  let w := widthLanes width
  if !s.on F.PRT_CFG_PRESENT p || s.perst.contains (s.secs.portStation p) || s.on F.PRT_LINK_UP p ||
      s.rd F.PRT_CFG_SPEED_CAP p < rate || width = 0 || s.rd F.PRT_CFG_UNIT_WIDTH p + 3 < width ||
      !(s.trainsWithout p w false || s.trainsWithout p w true) then s
  else
    let flit := rate == 5
    let rev := s.laneRev.filter (· != p)
    let s := { s with laneRev := if s.trainsWithout p w false then rev else rev ++ [p] }
    let s := (s.set F.PRT_LINK_UP p).wr F.PRT_LINK_RATE rate p
    let s := (s.wr F.PRT_LINK_WIDTH width p).wr F.PRT_LINK_FLIT (b2n flit) p
    let s := s.wr F.PRT_LINK_L0P_EN (b2n (flit && l0p && s.on F.PRT_CTL_L0P_ALLOW p)) p
    let s := s.forEach (List.range (s.secs.portLds p).length) (fun s k => s.wr F.PRT_LD_STAT_BI_ON (b2n flit) p k)
    let s := s.when (!flit) (fun s => s.forEach (s.secs.portLds p) (fun s e => s.unhold e.ld))
    s.showTols

/-- R340: requests of LDs end incomplete. -/
def State.abandon (s : State) (lds : Nat → Bool) : State :=
  { s with txn := { s.txn with reqs := s.txn.reqs.map (fun t => if t.agent < 64 && lds t.agent then { t with gone := true } else t) } }

/-- R72, R78: a port's link leaves the active state: its stalled reads end without an answer. A stream in the insecure state
stays in it until the host re-keys it (R70). -/
def State.linkDown (s : State) (p : Nat) : State :=
  if !s.on F.PRT_LINK_UP p then s
  else
    let s := (s.clear F.PRT_LINK_UP p).set F.PRT_IRQ_LINK_DOWN p
    let s := (s.clear F.PRT_LINK_WIDTH p).clear F.PRT_LINK_RATE p
    let s := (s.clear F.PRT_LINK_FLIT p).clear F.PRT_LINK_L0P_EN p
    let s := (s.clear F.PRT_LINK_IDE_ON p).clear F.PRT_LINK_DEGRADED p
    let s := s.forEach (s.stalled.filter (fun r => r.port == p)) State.unstall
    let s := s.forEach (List.range (s.secs.portLds p).length) (fun s k => s.clear F.PRT_LD_STAT_BI_ON p k)
    let s := s.abandon (fun l => (s.secs.portLds p).any (·.ld == l))
    { s with lanes := s.lanes.filter (fun x => x.1 != p), ide := s.ide.filter (fun x => x.1 != p),
             pwr := { s.pwr with l1 := s.pwr.l1.filter (· != p) } }.showTols

def execPortLinkDown (port : Fin 16) (s : State) : Outcome := onDie s (fun s => s.linkDown port)

/-! ### M2S requests (Table 3-2) -/

def execM2sMemrd (ld : Fin 64) (tag : BitVec 16) (hpa : BitVec 64) (snp : SnpType) (mv : MetaVal) (s : State) : Outcome :=
  onDie s (fun s => s.m2sIn { ld := ld, op := .memRd, tag := tag, hpa := hpa, snp := snp, mv := mv })

def execM2sMemrddata (ld : Fin 64) (tag : BitVec 16) (hpa : BitVec 64) (s : State) : Outcome :=
  onDie s (fun s => s.m2sIn { ld := ld, op := .memRdData, tag := tag, hpa := hpa })

def execM2sMeminv (ld : Fin 64) (tag : BitVec 16) (hpa : BitVec 64) (snp : SnpType) (mv : MetaVal) (s : State) : Outcome :=
  onDie s (fun s => s.m2sIn { ld := ld, op := .memInv, tag := tag, hpa := hpa, snp := snp, mv := mv })

def execM2sMemwr (ld : Fin 64) (tag : BitVec 16) (hpa : BitVec 64) (mv : MetaVal) (data : BitVec 512) (poison : Bool)
    (s : State) : Outcome :=
  onDie s (fun s => s.m2sIn { ld := ld, op := .memWr, tag := tag, hpa := hpa, mv := mv, data := data, poison := poison })

def execM2sMemwrptl (ld : Fin 64) (tag : BitVec 16) (hpa : BitVec 64) (mv : MetaVal) (data : BitVec 512)
    (mask : BitVec 64) (poison : Bool) (s : State) : Outcome :=
  onDie s (fun s => s.m2sIn
    { ld := ld, op := .memWrPtl, tag := tag, hpa := hpa, mv := mv, data := data, mask := mask, poison := poison })

def execM2sMemclnevct (ld : Fin 64) (tag : BitVec 16) (hpa : BitVec 64) (mv : MetaVal) (s : State) : Outcome :=
  onDie s (fun s => s.m2sIn { ld := ld, op := .memClnEvct, tag := tag, hpa := hpa, mv := mv })

/-- Table 3-2, MemSpecRd: the map lookup and the DRAM accesses of a read, where the page can be looked up at once; else
the hint is dropped. -/
def execM2sMemspecrd (ld : Fin 64) (hpa : BitVec 64) (s : State) : Outcome :=
  onDie s (fun s =>
    match (s.secs.ldEntry ld).bind (fun e => s.hpaLine e hpa.toNat) with
    | none => s
    | some (slot, line) =>
      if slot = s.slot && !s.pageWaits (line / 64) && s.mapHit ⟨false, line / 256, false⟩ then s.postRead line ld else s)

/-- Table 3-2, any other opcode. -/
def execM2sOther (ld : Fin 64) (_opcode : BitVec 4) (s : State) : Outcome :=
  onDie s (fun s =>
    match s.secs.ldEntry ld with
    | none => s
    | some e => if s.on F.PRT_LINK_UP e.port then s.portProto e.port else s)

/-! ### Back-Invalidate (Table 3-3) -/

/-- Table 3-3: the internal answer; `none`: an answer that the BISnp does not have. -/
def biMap (snoop : Nat) (ans : BiAns) : Option Nat :=
  match ans with
  | .i => some opRspI
  | .s => if snoop = opSnpI then none else some opRspS
  | .e => if snoop = opSnpF then some opRspF else none

/-- R64: a BIRsp. One that answers no BISnp is a protocol error with nothing to answer. -/
def State.biRsp (s : State) (l slot line : Nat) (ans : BiAns) : State :=
  let port := ((s.secs.ldEntry l).map (·.port)).getD 0
  match (s.ld l).bisnp.find? (fun b => b.line == line && b.home == slot) with
  | none => s.portProto port
  | some b =>
    let s := s.onLd l (fun d => { d with bisnp := d.bisnp.erase b })
    match biMap b.snoop ans with
    | some opc => s.biAnswer l opc slot line b.htag
    | none => (s.portProto port).biAnswer l opRspI slot line b.htag

def execBirsp (ld : Fin 64) (slot : BitVec 4) (line : BitVec 40) (ans : BiAns) (s : State) : Outcome :=
  onDie s (fun s => if (s.secs.ldEntry ld).isSome then s.biRsp ld slot.toNat line.toNat ans else s)

/-- R65: a BIConflict is answered once the LD's request for the line has been ordered: at once where none waits at the port
or is on its way to the home. -/
def execBiconflict (ld : Fin 64) (slot : BitVec 4) (line : BitVec 40) (s : State) : Outcome :=
  onDie s (fun s =>
    if s.conflictComing ld slot.toNat line.toNat then
      s.onLd ld (fun d => { d with conflicts := d.conflicts ++ [(slot.toNat, line.toNat)] })
    else s.emit (.biConflictAck ld line.toNat))

/-! ### Dynamic Capacity (R61, R62) -/

/-- An extent in units of 256 MiB of DPA, if start and length are multiples of it. -/
def extentUnits (start len : Nat) : Option (Nat × Nat) :=
  if start % 2 ^ 28 = 0 ∧ len % 2 ^ 28 = 0 ∧ len ≠ 0 then some (start / 2 ^ 28, len / 2 ^ 28) else none

/-- R61: the extent lies in one Dynamic Capacity region of the LD. -/
def LdEntry.inRegion (e : LdEntry) (u n : Nat) : Bool :=
  e.dcCount != 0 && e.static ≤ u && u + n ≤ e.static + e.dc &&
    (u - e.static) / (e.dc / e.dcCount) == (u + n - 1 - e.static) / (e.dc / e.dcCount)

/-- Two ranges meet. -/
def meets (a b : Nat × Nat) : Bool := a.1 < b.1 + b.2 && b.1 < a.1 + a.2

/-- R61: add an extent. -/
def State.dcAdd (s : State) (who : Initiator) (l start len : Nat) : State :=
  match s.secs.ldEntry l, extentUnits start len with
  | some e, some x =>
    let busy := (s.ld l).release.any (fun r => meets x (r.start, r.len))
    if !e.inRegion x.1 x.2 || (s.ld l).extents.any (meets x) || busy then s.emit (.mbx who .invalidExtentList [])
    else if 512 ≤ (s.ld l).extents.length then s.emit (.mbx who .resourcesExhausted [])
    else
      let s := s.onLd l (fun d => { d with extents := d.extents ++ [x] })
      (s.event l logDC .dynamicCapacity start 0 0).emit (.mbx who .success [])
  | _, _ => s.emit (.mbx who .invalidExtentList [])

def execDcAddExtent (who : Initiator) (ld : Fin 64) (start len : BitVec 64) (s : State) : Outcome :=
  onDie s (fun s => s.dcAdd who ld start.toNat len.toNat)

/-- R61: what a release leaves of an extent. -/
def trimExtent (r x : Nat × Nat) : List (Nat × Nat) :=
  if !meets r x then [x]
  else
    let left := if x.1 < r.1 then [(x.1, r.1 - x.1)] else []
    let right := if r.1 + r.2 < x.1 + x.2 then [(r.1 + r.2, x.1 + x.2 - (r.1 + r.2))] else []
    left ++ right

/-- R61, R62: a release is accepted: from now on accesses to the range are unmapped. One release of an LD runs at a
time. -/
def State.dcRelease (s : State) (who : Initiator) (l start len : Nat) : State :=
  match s.secs.ldEntry l, extentUnits start len with
  | some _, some x =>
    let ext := (s.ld l).extents
    let all := (ext.filter (meets x)).map (fun y => min (x.1 + x.2) (y.1 + y.2) - max x.1 y.1)
    let left := ext.flatMap (trimExtent x)
    if all.sum != x.2 then s.emit (.mbx who .invalidExtentList [])
    else if (s.ld l).release.isSome then s.emit (.mbx who .busy [])
    else if 512 < left.length then s.emit (.mbx who .resourcesExhausted [])
    else s.onLd l (fun d => { d with extents := left, release := some ⟨x.1, x.2, some who⟩ })
  | _, _ => s.emit (.mbx who .invalidExtentList [])

def execDcReleaseExtent (who : Initiator) (ld : Fin 64) (start len : BitVec 64) (s : State) : Outcome :=
  onDie s (fun s => s.dcRelease who ld start.toNat len.toNat)

/-- Something accepted before still works on a DLA unit: an LD's request, a request at a map slice, or a BUSY page. -/
def State.unitBusy (s : State) (u : Nat) : Bool :=
  s.reqs.any (fun r => r.slot == s.slot && r.line / 2 ^ 22 == u) ||
    s.map.reqs.any (fun r => r.line / 2 ^ 22 == u) || s.map.busy.any (fun x => x.1 / 65536 == u)

/-- R62: the release completes, once the requests accepted before it have: every page of the range becomes zero. -/
def State.dcDone (s : State) (l : Nat) : State :=
  match s.secs.ldEntry l, (s.ld l).release with
  | some e, some r =>
    let us := (List.range r.len).map (fun i => e.base + r.start + i)
    if us.any s.unitBusy then s
    else
      let s := s.forEach us State.zeroUnit
      let s := s.onLd l (fun d => { d with release := none })
      let s := s.event l logDC .dynamicCapacity (r.start * 2 ^ 28) 1 0
      match r.who with
      | some w => s.emit (.mbx w .success [])
      | none => s
  | _, _ => s

def execDcReleaseDone (ld : Fin 64) (s : State) : Outcome := onDie s (fun s => s.dcDone ld)

/-! ### Resets of an LD (R71) -/

/-- R71, R384: an FLR, but for the LD's mailbox. -/
def State.flrLd (s : State) (l : Fin 64) : State :=
  let s := (s.onLd l (fun d => { d with memEnable := false, viral := false, scanned := none, flrDue := false })).abandon
    (· == l.val)
  let s := s.forEach (s.stalled.filter (fun r => decide (r.who = .host (.ld l)))) State.endStall
  (s.wrBit F.SEC_BIND_LDS l false).showTols

/-- R71: the LD's proxy is invalidated by SnpI at every home, and in the proxy filter. -/
def State.purgeLd (s : State) (l : Nat) : State :=
  let ask := fun (slot line : Nat) => (⟨0, .home, { src := BitVec.ofNat 7 l, line := BitVec.ofNat 40 line,
                                                    slot := BitVec.ofNat 4 slot }⟩ : Flight)
  let place := fun (k : Nat) (tag : Nat) => lineAt (k / 16 / 8192) (k / 16 % 8192) tag
  let mine := s.coh.dir.filter (fun x => x.2.sharers.testBit l)
  let far := s.coh.pf.filter (fun x => x.2.locals.testBit l)
  let s := s.forEach mine (fun s x => s.homePurge (ask s.slot (place x.1 x.2.tag)))
  s.forEach far (fun s x => s.pfPurge (ask x.2.slot (place x.1 x.2.tag)))

/-! ### IDE (R70) -/

/-- R70: the transport is the DOE mailbox of an LD of the port. -/
def State.portDoe (s : State) (p : Nat) (t : Initiator) : Bool :=
  match t with
  | .ld l => (s.secs.ldEntry l).any (·.port == p)
  | _ => false

/-- The key sets of a port's streams but for one. -/
def State.ideWithout (s : State) (p : Nat) (mem : Bool) : List (Nat × IdeKeys) :=
  s.ide.filter (fun x => !(x.1 == p && x.2.mem == mem))

/-- R70: IDE_KM within a completed SPDM session through the port's DOE mailbox sets or refreshes the key set of one of the
port's streams, which serves all its LDs. New keys of the CXL.cachemem stream end its insecure state. -/
def execIdeKm (port : Fin 16) (t : Initiator) (km : IdeKm) (s : State) : Outcome :=
  onDie s (fun s =>
    if (s.session t km.session.toNat).any (·.done) && s.portDoe port t && s.on F.PRT_LINK_UP port then
      let s := { s with ide := s.ideWithout port km.keys.mem ++ [(port.val, km.keys)] }
      if km.keys.mem then { s with insecure := s.insecure.filter (· != port.val) }.set F.PRT_LINK_IDE_ON port else s
    else s)

/-- R70: an integrity failure: the stream is insecure until the host re-keys it. -/
def execIdeIntegrityFail (port : Fin 16) (s : State) : Outcome :=
  onDie s (fun s =>
    if s.on F.PRT_LINK_IDE_ON port then
      ({ s with insecure := s.insecure ++ [port.val], ide := s.ideWithout port true }.clear F.PRT_LINK_IDE_ON port).record
        0x20 2 rasPRT port port
    else s)

/-! ### Lane failure (R72, R73) -/

/-- The lane of the unit that a logical lane of a port's link is. -/
def State.unitLane (s : State) (p lane : Nat) : Nat := if s.laneRev.contains p then s.physLanes p - 1 - lane else lane

/-- R73, R72: a failed lane that the width no longer covers, or may not halve for: the link goes down, and trains again
without it. -/
def State.laneDown (s : State) (p lane : Nat) : State :=
  { s with badLanes := (s.badLanes ++ [(p, s.unitLane p lane)]).eraseDups }.linkDown p

/-- R72, R73: a lane is declared failed. One that fails while the width changes waits for the change to end (Table 3-4). -/
def State.laneFailed (s : State) (p lane : Nat) : State :=
  let w := widthLanes (s.rd F.PRT_LINK_WIDTH p)
  if !s.on F.PRT_LINK_UP p || w ≤ lane then s
  else
    let s := (s.bump F.PRT_ERR_LANE_FAIL 1 p).set F.PRT_IRQ_LANE_FAIL p
    if !s.on F.PRT_CTL_LANEFAIL_EN p then s
    else if s.lanes.any (fun x => x.1 == p) then { s with lanes := s.lanes ++ [(p, lane)] }
    else if !s.on F.PRT_LINK_FLIT p || !s.on F.PRT_LINK_L0P_EN p || s.on F.PRT_LINK_DEGRADED p then s.laneDown p lane
    else { s with lanes := s.lanes ++ [(p, lane)] }

def execLaneFail (port : Fin 16) (lane : BitVec 4) (s : State) : Outcome :=
  onDie s (fun s => s.laneFailed port lane.toNat)

/-- R72, Table 3-4: what a width change that keeps the half without `failed` leaves of a lane that failed in it, of `w`
lanes before: its logical lane in the new width, if it lies there. A failed lower half is left by reversing the lanes. -/
def laneKept (w failed lane : Nat) : Option Nat :=
  let n := if failed < w / 2 then w - 1 - lane else lane
  if n < w / 2 then some n else none

/-- Lane failures of port `p` after a width change for `failed`. -/
def State.lanesKept (s : State) (p w failed : Nat) : List (Nat × Nat) :=
  s.lanes.filterMap (fun x => if x.1 = p then (laneKept w failed x.2).map (fun n => (p, n)) else some x)

/-- R72: the lane order of a port's link is turned round. -/
def State.turnLanes (s : State) (p : Nat) : State :=
  let rest := s.laneRev.filter (· != p)
  { s with laneRev := if s.laneRev.contains p then rest else rest ++ [p] }

/-- R72: the port resumes at half width; a lane that failed during the change is then treated alike (Table 3-4). A link at
x1 stays at x1 and is marked DEGRADED (log entry 19, DESIGN CHOICE). -/
def execLaneRecoveryDone (port : Fin 16) (s : State) : Outcome :=
  onDie s (fun s =>
    match s.lanes.find? (fun x => x.1 == port.val) with
    | none => s
    | some x =>
      let w := widthLanes (s.rd F.PRT_LINK_WIDTH port)
      let s := { s with lanes := s.lanes.erase x, badLanes := (s.badLanes ++ [(port.val, s.unitLane port x.2)]).eraseDups }
      let s := { s with lanes := s.lanesKept port w x.2 }
      let s := s.when (x.2 < w / 2) (fun s => s.turnLanes port)
      let s := (s.wr F.PRT_LINK_WIDTH (max 1 (s.rd F.PRT_LINK_WIDTH port - 1)) port).set F.PRT_LINK_DEGRADED port
      let s := (s.wr F.PRT_LINK_FAILED_LANE x.2 port).bump F.PRT_ERR_REPLAY 1 port
      s.record 0x20 2 rasPRT port port x.2)

/-! ### Latency tolerance (R74, R75) -/

/-- R74: a half of an LTR message in ns: value [9:0], scale [12:10] in steps of 2^5, requirement [15]. A value that does
not fit 32 bits saturates (log entry 103, DESIGN CHOICE). -/
def ltrNs (h : BitVec 16) : Nat :=
  if h.toNat.testBit 15 then min tolNONE (bits h.toNat 9 0 * 2 ^ (5 * bits h.toNat 12 10)) else tolNONE

/-- R74: an LTR message. The LD-ID k names the port's k-th LDL entry (log entry 103, DESIGN CHOICE). -/
def State.ltr (s : State) (p : Nat) (ldid : Option (BitVec 4)) (a b : Nat) : State :=
  let s := (s.wr F.PRT_LTR_SNOOP_NS a p).wr F.PRT_LTR_NOSNOOP_NS b p
  let lds := s.secs.portLds p
  let named := match ldid with
    | some k => if s.on F.PRT_CFG_MLD p then lds[k.toNat]?.toList else lds
    | none => lds
  let s := s.forEach named (fun s e => s.onLd e.ld (fun d => { d with snoopNs := a, noSnoopNs := b }))
  (s.set F.PWR_STATUS_TOL_SEEN).showTols

def execLtrReceived (port : Fin 16) (ldid : Option (BitVec 4)) (snoop noSnoop : BitVec 16) (s : State) : Outcome :=
  onDie s (fun s => if s.on F.PRT_LINK_UP port then s.ltr port ldid (ltrNs snoop) (ltrNs noSnoop) else s)

/-- A write of a PRT register: its fields, and what follows. -/
def State.writePrt (s : State) (who : Initiator) (off v : Nat) : State :=
  match F.PRT_STALL_STALL_NS.at off, F.PRT_LD_OVR_OVR_EN.at off with
  | some (p, _), _ => s.wr F.PRT_STALL_STALL_NS (clamp 100 40000 (F.PRT_STALL_STALL_NS.of v)) p
  | _, some _ =>
    let s := s.writeWord who off v
    (s.when (v.testBit 32) (fun s => s.set F.PWR_STATUS_TOL_SEEN)).showTols
  | _, _ => s.writeWord who off v

/-- R75: a write of an LD slot's override. -/
def execPrtLdOvrWrite (who : Initiator) (port : Fin 16) (k : Fin 16) (v : BitVec 64) (s : State) : Outcome :=
  let off := F.PRT_LD_OVR_OVR_EN.addr port k
  onDie s (fun s => barWrite s who off (fun s => s.writePrt who off v.toNat))

/-- R76: a stalled read has stalled for STALL_NS. -/
def execQportStallExpire (q : Fin 1024) (from_ : QPort) (tag : BitVec 16) (s : State) : Outcome :=
  onDie s (fun s =>
    match s.stalled.find? (fun r => r.queue == q.val && decide (r.who = from_) && r.tag == tag.toNat) with
    | none => s
    | some r => s.endStall r)

/-! ### Configuration and logs -/

/-- R58, R59: interleave ways and granularities that a decoder can have. -/
def Hdm.legal (d : Hdm) : Bool :=
  [1, 2, 3, 4, 6, 8, 12, 16].contains d.ways && [256, 512, 1024, 2048, 4096, 8192, 16384].contains d.gran &&
    d.size % (d.ways * d.gran) == 0

/-- R59: set decoder `k`. Its DPA starts where the decoder below it ends, plus the skip. A decoder is committed only
with legal values and with the one below it committed. -/
def LdSt.decoder (d : LdSt) (k : Nat) (h : Hdm) (skip : Nat) : LdSt :=
  let below : Hdm := smGet {} d.hdm (k - 1)
  let start := if k = 0 then skip else below.dpa + below.size / max 1 below.ways + skip
  let ok := h.committed && h.legal && (k == 0 || below.committed)
  { d with hdm := smSet {} d.hdm k { h with dpa := start, committed := ok } }

/-- R69: records are cleared from an event log, the named ones or all, and its overflow state is reset. -/
def execClearEventRecords (ld : Fin 64) (log : Fin 5) (handles : Option (List (BitVec 16))) (s : State) : Outcome :=
  onDie s (fun s =>
    let keep := fun (r : EventRec) =>
      match handles with
      | none => false
      | some hs => !hs.any (fun h => h.toNat == r.handle)
    (s.onLd ld (fun d =>
      let lg : EventLog := smGet {} d.logs log
      { d with logs := smSet {} d.logs log { recs := lg.recs.filter keep } })).emit (.mbx (.ld ld) .success []))

end Sys2Proof.Machine
end

