-- ==== Sys2Proof/Machine/Plic.lean ====
section
/-!
DEFINITION. The platform-level interrupt controller (R362): the interrupt outputs of the blocks, and the gateways, priorities,
enables, thresholds, claims and completions of the RISC-V PLIC specification 1.0.
-/

namespace Sys2Proof.Machine

/-! ### The interrupt outputs of the blocks -/

/-- The interrupt registers: the source of their block (in the order of the BAR0 block map, with GEN as 1), the enable field, and
the status fields that it enables. GEN and FWC have no such register. -/
def irqRegs : List (Nat × Field × List Field) :=
  [(2, F.STR_IRQ_DONE_EN, [F.STR_IRQ_DONE]), (2, F.STR_IRQ_REJECT_EN, [F.STR_IRQ_REJECT]),
   (3, F.TIM_IRQ_EN, [F.TIM_IRQ_CAL_LATE, F.TIM_IRQ_SLOT_MISMATCH, F.TIM_IRQ_STEP, F.TIM_IRQ_LOCKED, F.TIM_IRQ_LOST]),
   (4, F.PRT_IRQ_EN, [F.PRT_IRQ_LANE_FAIL, F.PRT_IRQ_LINK_DOWN, F.PRT_IRQ_UNMAPPED, F.PRT_IRQ_PROTO]),
   (5, F.CWK_IRQ_EN, [F.CWK_IRQ_SPILL_OFF, F.CWK_IRQ_MISMATCH, F.CWK_IRQ_LANE_FAIL, F.CWK_IRQ_RETRAIN, F.CWK_IRQ_DOWN,
     F.CWK_IRQ_UP]),
   (5, F.CWK_SPAN_IRQ_EN, [F.CWK_SPAN_IRQ_PATHLOSS, F.CWK_SPAN_IRQ_REJOINED, F.CWK_SPAN_IRQ_EXCLUDED,
     F.CWK_SPAN_IRQ_PATH_CHANGE]),
   (6, F.NOC_IRQ_EN, [F.NOC_IRQ_FENCE_REFUSED, F.NOC_IRQ_DAT_UE, F.NOC_IRQ_SINK, F.NOC_IRQ_DRAIN_TMO, F.NOC_IRQ_EPOCH_DONE,
     F.NOC_IRQ_LINK_FAIL]),
   (7, F.HOM_IRQ_EN, [F.HOM_IRQ_INTERNAL, F.HOM_IRQ_LOCK_TMO, F.HOM_IRQ_UNEXP_DATAM, F.HOM_IRQ_PROTO]),
   (8, F.MAP_IRQ_EN, [F.MAP_IRQ_VER_WRAP, F.MAP_IRQ_PME_ERR, F.MAP_IRQ_EXPIRE, F.MAP_IRQ_HOLD, F.MAP_IRQ_CRIT, F.MAP_IRQ_LOW]),
   (9, F.KEY_IRQ_EN, [F.KEY_IRQ_REKEY_DONE, F.KEY_IRQ_PROG, F.KEY_IRQ_EMPTY_USE, F.KEY_IRQ_INTEG]),
   (10, F.DRC_IRQ_EN, [F.DRC_IRQ_PMIC, F.DRC_IRQ_DIMM_HOT, F.DRC_IRQ_WAKE_LATE, F.DRC_IRQ_PANIC_EXPIRE, F.DRC_IRQ_TRAIN_FAIL]),
   (10, F.DRC_ECC_IRQ_EN, [F.DRC_ECC_IRQ_PPR_DONE, F.DRC_ECC_IRQ_REMAP_DONE, F.DRC_ECC_IRQ_SCRUB_FORCED, F.DRC_ECC_IRQ_MARK,
     F.DRC_ECC_IRQ_CE_THR, F.DRC_ECC_IRQ_AF, F.DRC_ECC_IRQ_UE]),
   (11, F.GAL_IRQ_EN, [F.GAL_IRQ_FAULT, F.GAL_IRQ_BAD_DESC, F.GAL_IRQ_ABORT, F.GAL_IRQ_JOB]),
   (12, F.CRQ_IRQ_EN, [F.CRQ_IRQ_QRESET, F.CRQ_IRQ_TRUNC, F.CRQ_IRQ_DROP, F.CRQ_IRQ_ITEM]),
   (13, F.TST_IRQ_EN, [F.TST_IRQ_OVERCOMMIT, F.TST_IRQ_SHORT, F.TST_IRQ_MISS]),
   (14, F.CNT_IRQ_EN, [F.CNT_IRQ_SNAP, F.CNT_IRQ_OVF]),
   (15, F.PWR_IRQ_EN, [F.PWR_IRQ_CAP_UNMET, F.PWR_IRQ_SLEEP_REQ, F.PWR_IRQ_BLOCK, F.PWR_IRQ_FLOOR]),
   (15, F.INL_IRQ_EN, [F.INL_IRQ_READY, F.INL_IRQ_TRIP, F.INL_IRQ_LIMIT, F.INL_IRQ_ON]),
   (16, F.SEC_IRQ_EN, [F.SEC_IRQ_DBG_END, F.SEC_IRQ_DBG_OPEN, F.SEC_IRQ_LC_CHANGE, F.SEC_IRQ_VIOL]),
   (18, F.RAS_IRQ_EN, [F.RAS_IRQ_FATAL, F.RAS_IRQ_DEGRADED, F.RAS_IRQ_CONTAINED, F.RAS_IRQ_CORRECTED])]

/-- An enable field of some copy of the block holds something: only then can one of its registers interrupt. -/
def State.irqEnabled (s : State) (en : Field) : Bool := s.regs.any (fun x => x.1 % 2 ^ 32 == en.id % 2 ^ 32 && x.2 != 0)

/-- A register of copy `i` of its block asks for an interrupt: a status bit stands whose enable bit is set. -/
def State.irqAsks (s : State) (en : Field) (sts : List Field) (i : Nat) : Bool :=
  sts.any (fun f => s.on f i && (s.rd en i).testBit (f.lo + 16 - en.lo))

/-- The interrupt output of the block behind a source. -/
def State.irqLine (s : State) (src : Nat) : Bool :=
  irqRegs.any (fun x => x.1 == src && s.irqEnabled x.2.1 &&
    (List.range x.2.1.blk.copies).any (fun i => s.irqAsks x.2.1 x.2.2 i))

/-! ### The controller -/

/-- A gateway passes on one request of its source; the next one once that is complete. -/
def Plic.request (p : Plic) (src : Nat) : Plic :=
  if p.claimed.testBit src then p else { p with pending := setBit p.pending src true }

/-- What a context sees of a source: pending, enabled for it, and of a priority other than 0. -/
def Plic.offers (p : Plic) (ctx src : Nat) : Bool :=
  p.pending.testBit src && (p.enable.getD ctx 0).testBit src && p.prio.getD src 0 != 0

/-- The source that a claim of a context gets: the highest priority, and of those the lowest number; 0: none. -/
def Plic.best (p : Plic) (ctx : Nat) : Nat :=
  (List.range 32).foldl (fun b x => if p.offers ctx x && (b == 0 || p.prio.getD b 0 < p.prio.getD x 0) then x else b) 0

/-- The interrupt of a context: a source that it may claim has a priority above its threshold. -/
def Plic.eip (p : Plic) (ctx : Nat) : Bool :=
  (List.range 32).any (fun x => p.offers ctx x && p.threshold.getD ctx 0 < p.prio.getD x 0)

/-- A claim: the source, no longer pending; its gateway waits for the completion. -/
def Plic.claim (p : Plic) (ctx : Nat) : Nat × Plic :=
  let x := p.best ctx
  if x = 0 then (0, p)
  else (x, { p with pending := setBit p.pending x false, claimed := setBit p.claimed x true })

/-- A completion: ignored unless the source is enabled for the context. -/
def Plic.complete (p : Plic) (ctx src : Nat) : Plic :=
  if (p.enable.getD ctx 0).testBit src then { p with claimed := setBit p.claimed src false } else p

/-- A write of a source's priority, one of 8 levels. Source 0 does not exist. -/
def Plic.setPrio (p : Plic) (src v : Nat) : Plic := if src = 0 then p else { p with prio := p.prio.set src (v % 8) }

/-- A write of a context's enable bits. -/
def Plic.setEnable (p : Plic) (ctx v : Nat) : Plic := { p with enable := p.enable.set ctx (v % 2 ^ 32 / 2 * 2) }

/-- A write of a context's threshold. -/
def Plic.setThreshold (p : Plic) (ctx v : Nat) : Plic := { p with threshold := p.threshold.set ctx (v % 8) }

/-- Contexts of a core: M mode, then S mode (log entry 128, PRESUMED). -/
def mContext (core : Nat) : Nat := 2 * core
def sContext (core : Nat) : Nat := 2 * core + 1

/-- An interrupt of a core is pending. -/
def Plic.wakes (p : Plic) (core : Nat) : Bool := p.eip (mContext core) || p.eip (sContext core)

/-- Change the interrupt controller. -/
def State.onPlic (s : State) (f : Plic → Plic) : State := { s with cc := { s.cc with plic := f s.cc.plic } }

/-- A pulse of a source: a calendar entry with IRQ_EN fires (Table 2-9). -/
def State.irqPulse (s : State) (src : Nat) : State := s.onPlic (fun p => p.request src)

/-- The gateways take the outputs of the blocks. -/
def State.gateways (s : State) : State :=
  let up := (List.range 19).filter s.irqLine
  s.onPlic (fun p => up.foldl Plic.request p)

/-- What the firmware of a core does to the controller: nothing, a write of a priority, an enable or a threshold, a claim, or a
completion. The spec gives the registers of the controller no address (Table 16-1), and no command carries them, so a free value
decides (log entry 133, DESIGN CHOICE). -/
def Plic.act (p : Plic) (core v : Nat) : Plic :=
  let ctx := 2 * core + v / 8 % 2
  let a := v / 16
  match v % 8 with
  | 1 => p.setPrio (a % 32) (a / 32)
  | 2 => p.setEnable ctx a
  | 3 => p.setThreshold ctx a
  | 4 => (p.claim ctx).2
  | 5 => p.complete ctx (a % 32)
  | _ => p

end Sys2Proof.Machine
end

