-- ==== Sys2Proof/Machine/Cores.lean ====
section
/-!
DEFINITION. What the Ringmaster cores do of themselves in a CCLK: they retire instructions (R328, R335), use the interrupt
controller (R362), and leave WFI when an interrupt comes (R346). Which instructions is firmware's, and so a free value.
-/

namespace Sys2Proof.Machine

/-- A running core in one CCLK: up to seven instructions retired, some of them after a data-cache miss, and at most one access of
the interrupt controller (log entry 13, DESIGN CHOICE). -/
def State.coreRuns (s : State) (core : Nat) : State :=
  let (v, s) := s.draw
  let n := v % 8
  let s := s.counts (56 + core) evInsn {} none n
  let s := s.counts (56 + core) evDMiss {} none (v / 8 % (n + 1))
  let (a, s) := s.draw
  s.onPlic (fun p => p.act core a)

/-- R346: an interrupt restarts the KCLK of a core in WFI. -/
def State.coreWakes (s : State) (core : Nat) : State :=
  if s.cc.plic.wakes core then { s with cc := { s.cc with cores := s.cc.cores.set core .running } } else s

/-- What the cores do of themselves. -/
def State.coresGo (s : State) : State :=
  s.gateways.forEach (List.range 4) (fun s c =>
    match s.cc.cores[c]? with
    | some .running => s.coreRuns c
    | some .wfi => s.coreWakes c
    | _ => s)

end Sys2Proof.Machine
end

