-- ==== Sys2Proof/Machine/Fence.lean ====
section
/-!
DEFINITION. Fencing a power domain (R206, R207): the request, the drain, and what OUTSTANDING counts.
-/

namespace Sys2Proof.Machine

/-- A line of an agent that awaits a completion. -/
def AgSt.waits : AgSt → Bool
  | .m => false
  | .e => false
  | .s => false
  | .f => false
  | .i => false
  | _ => true

/-- R207: the drain count of a domain. -/
def State.outstanding (s : State) (d : Nat) : Nat :=
  if d < 16 then
    (s.tts d).length + (s.pfTts d).length + (s.coh.dir.filter (fun x => x.1 / 131072 == d)).length +
      (s.coh.pf.filter (fun x => x.1 / 131072 == d)).length +
      (s.map.cache.filter (fun t => t.dirty && t.m % 16 == d)).length
  else if d < 32 then
    let g := d - 16
    (s.gal g).jobs.length + s.rd F.GAL_STATUS_CACHE_VALID g +
      (s.coh.lines.filter (fun x => x.1 / 2 ^ 44 == 64 + g && x.2.st.waits)).length
  else (s.reqs.filter (fun r => (s.secs.ldEntry r.ld).any (fun e => s.secs.portStation e.port == d - 32))).length

/-- Show the drain count. -/
def State.showDom (s : State) (d : Nat) : State := s.wr F.NOC_DOM_STATUS_OUTSTANDING (s.outstanding d) 0 d

/-- R207: the drain work of a domain begins. -/
def State.drain (s : State) (d : Nat) : State :=
  if d < 16 then
    let s := s.drainHome d
    let s := s.pfDrain d
    s.forEach (s.map.cache.filter (fun t => t.dirty && t.m % 16 == d)) (fun s t => s.mapWriteBack t 80)
  else if d < 32 then ((s.galRewind (d - 16)).onGal (d - 16) (fun g => { g with flush := true })).galEvict (d - 16)
  else s

/-- R206: a fence of a domain is requested: it drains, or is refused. -/
def State.fence (s : State) (d : Nat) : State :=
  if s.rd F.NOC_DOM_STATUS_STATE 0 d != domON then s
  else if s.fenceRefused d then (s.set F.NOC_DOM_STATUS_REFUSED 0 d).set F.NOC_IRQ_FENCE_REFUSED
  else (((s.clear F.NOC_DOM_STATUS_REFUSED 0 d).wr F.NOC_DOM_STATUS_STATE domDRAINING 0 d).drain d).showDom d

/-- R207, R209: FENCE_ACK: the domain is FENCED, and what it holds requests its wake at once. A home's ranks are in
self-refresh. -/
def State.fenceDone (s : State) (d : Nat) : State :=
  let s := (s.wr F.NOC_DOM_STATUS_STATE domFENCED 0 d).bump F.NOC_DOM_CNT_FENCES 1 0 d
  let s := if d < 16 then
      { s with pwr := { s.pwr with selfRef := s.pwr.selfRef ++ (List.range 4).map (fun r => 4 * d + r) } }
    else s
  if (s.dom d).held.isEmpty && (s.dom d).blks.isEmpty then s else s.wakeDom d

end Sys2Proof.Machine
end

