-- ==== Sys2Proof/Machine/Floors.lean ====
section
/-!
DEFINITION. Entry into deeper power floors (R344, R346) and the commands of the floor logic.
-/

namespace Sys2Proof.Machine

/-- R346: entry stalls. -/
def State.block (s : State) (cause : Nat) : State := (s.wr F.PWR_STATUS_BLOCK cause).set F.PWR_IRQ_BLOCK

/-- Table 15-2: the fences of Floor 3 are requested; one that is refused stalls the entry. -/
def State.floorFences (s : State) : State :=
  s.forEach s.floor3Doms (fun s d =>
    if s.rd F.NOC_DOM_STATUS_STATE 0 d != domON then s
    else if s.fenceRefused d then (s.fence d).block 3
    else
      let s := { s with pwr := { s.pwr with fenced := s.pwr.fenced.filter (· != d) ++ [d] } }
      (s.onDom d (fun x => { x with want := true })).fence d)

/-- Ports that are up. -/
def State.portsUp (s : State) : List Nat := (List.range 16).filter (fun p => s.on F.PRT_LINK_UP p)

/-- R346: a core that executes nothing: asleep, or held in reset. -/
def CoreSt.quiet : CoreSt → Bool
  | .wfi => true
  | .inReset => true
  | _ => false

/-- Table 15-2, Floor 4: self-refresh entry is issued to every rank that is not parked. -/
def State.selfRefresh (s : State) : State :=
  let up := allRanks.filter (fun x =>
    let st := s.rd F.DRC_RANK_STATUS_STATE x.1 x.2
    st == rankACTIVE || st == rankPOWERDOWN)
  { s with pwr := { s.pwr with selfRef := up.map (fun x => 4 * x.1 + x.2) } }

/-- R389: the end of Floor 4 entry ends a TELEMETRY session. -/
def State.floor4Done (s : State) : State :=
  let s := (s.setFloor 4).clear F.PWR_STATUS_TRANS
  if s.rd F.DBG_STATUS_LEVEL = 1 then (s.sessionEnded 3).retarget else s

/-- R344, Table 15-2: the floors are entered one after the other as far as their steps complete. The first argument
bounds the number of floors. -/
def State.enterN : Nat → State → State
  | 0, s => s
  | n + 1, s =>
    let f := s.rd F.PWR_STATUS_FLOOR
    if !s.pwr.entering then s
    else if s.rd F.PWR_STATUS_TARGET ≤ f then { s with pwr := { s.pwr with entering := false } }.clear F.PWR_STATUS_TRANS
    else match f with
      | 0 => State.enterN n (s.setFloor 1)
      | 1 => State.enterN n (s.setFloor 2)
      | 2 =>
        if s.floor3Doms.all (fun d => s.rd F.NOC_DOM_STATUS_STATE 0 d == domFENCED) then State.enterN n (s.setFloor 3) else s
      | _ =>
        if !s.portsUp.all s.pwr.l1.contains then s
        else
          let s := s.selfRefresh.set F.PWR_IRQ_SLEEP_REQ
          if s.cc.cores.all CoreSt.quiet then
            { s with pwr := { s.pwr with entering := false } }.floor4Done
          else s

/-- Go on with an entry under way. -/
def State.enter (s : State) : State :=
  let s := State.enterN 5 s
  if s.pwr.entering && s.rd F.PWR_STATUS_FLOOR == 2 then State.enterN 5 s.floorFences else s

/-- R344, R346: TARGET has been deeper for DWELL_US, or a stalled step is retried; a domain that was woken and has been
idle for DWELL_US is fenced again (Table 15-3). -/
def execFloorDwellExpire (d : Option (Fin 40)) (s : State) : Outcome :=
  onDie s (fun s =>
    match d with
    | some d =>
      if 3 ≤ s.rd F.PWR_STATUS_FLOOR && s.floor3Doms.contains d.val then
        ({ s with pwr := { s.pwr with fenced := s.pwr.fenced.filter (· != d.val) ++ [d.val] } }).fence d
      else s
    | none =>
      if s.rd F.PWR_STATUS_TARGET ≤ s.rd F.PWR_STATUS_FLOOR then s
      else ({ s with pwr := { s.pwr with entering := true } }.set F.PWR_STATUS_TRANS).clear F.PWR_STATUS_BLOCK |>.enter)

/-- R346: a running core executes WFI; with an interrupt pending it goes on. -/
def execCoreWfi (core : Fin 4) (s : State) : Outcome :=
  onDie s (fun s =>
    if s.cc.cores[core.val]? = some .running ∧ s.cc.plic.wakes core = false then
      { s with cc := { s.cc with cores := s.cc.cores.set core .wfi } }.enter
    else s)

/-- The entry of Floor 4 is under way. -/
def State.entering4 (s : State) : Bool := s.pwr.entering && s.rd F.PWR_STATUS_FLOOR == 3

/-- R346. -/
def execCoreSleepTimeout (core : Fin 4) (s : State) : Outcome :=
  onDie s (fun s =>
    if s.entering4 && s.portsUp.all s.pwr.l1.contains && !(s.cc.cores[core.val]?).any CoreSt.quiet then s.block 2 else s)

/-- R346: a port requested into L1 reaches it, or its host refuses or has not enabled it. -/
def execAspmL1Entry (port : Fin 16) (ok : Bool) (s : State) : Outcome :=
  onDie s (fun s =>
    if !s.entering4 || !s.on F.PRT_LINK_UP port then s
    else if ok then
      { s with pwr := { s.pwr with l1 := s.pwr.l1.filter (· != port.val) ++ [port.val] } }.enter
    else s.block 1)

/-- Table 15-2. -/
def execAspmL1Exit (port : Fin 16) (s : State) : Outcome :=
  onDie s (fun s => { s with pwr := { s.pwr with l1 := s.pwr.l1.filter (· != port.val) } })

/-- A write of a PWR register: its fields, and what follows (R343, R348, R349). -/
def State.writePwr (s : State) (who : Initiator) (off v : Nat) : State :=
  let s := s.writeWord who off v
  let s := s.wr F.PWR_CTL_DWELL_US (max 1 (s.rd F.PWR_CTL_DWELL_US))
  (s.wr F.PWR_CTL_MAX_FLOOR (min 4 (s.rd F.PWR_CTL_MAX_FLOOR))).retarget

end Sys2Proof.Machine
end

