-- ==== Sys2Proof/Machine/Turnstile.lean ====
section
/-!
DEFINITION. The Turnstile (R313 to R325): charging and priority of DRAM accesses, ceilings and the throttle of a cap
(R348), effective guarantees, and the close of a window.
-/

namespace Sys2Proof.Machine

/-! ### Priority, ceilings and charges -/

/-- The values of a master in force. -/
def State.force (s : State) (m : Nat) : Force := smGet {} s.tst.force m

/-- Table 13-2. -/
def ageLevel (age t : Nat) : Nat :=
  if t = 0 then 0 else if t ≤ age then 3 else if 3 * t ≤ 4 * age then 2 else if t ≤ 2 * age then 1 else 0

/-- R320: the CCLK from which an access ages. -/
def State.bornAt (s : State) (a : LineAcc) : Nat :=
  match a.txn.bind s.txnOf with
  | some t => t.cclk
  | none => a.at_

/-- R321: the priority of an access at a channel. -/
def State.prioOf (s : State) (c : Nat) (a : LineAcc) : Nat :=
  let age := ageLevel (s.time.cclk - s.bornAt a) (s.latT a.master)
  let guar := if s.rd F.TST_M_LIVE_SERVED 0 a.master < s.rd F.TST_M_EGUAR_EGUAR 0 a.master then 1 else 0
  let rt := match a.rt with | some k => s.rd F.DRC_RT_URG c k | none => 0
  max age (max guar rt)

/-- R319: the ceiling in force of a master; zero: none. -/
def State.ceilOf (s : State) (m : Nat) : Nat :=
  let c := (s.force m).ceil
  if c = 0 then 0 else if m = 89 then max c (s.rd F.TST_SCRUBMIN_SCRUB_MIN) else c

/-- The µs of the CCLK count. -/
def State.usecNow (s : State) : Nat := s.time.cclk / 2000

/-- R348: the throttle holds the access. Lines are counted in fixed µs of the CCLK count (log entry 130, DESIGN CHOICE). -/
def State.throttled (s : State) (m : Nat) : Bool :=
  s.on F.PWR_STATUS_THROTTLE && m ≤ 88 && s.tst.usec == s.usecNow && s.rd F.PWR_CAP_LPUS_LPUS ≤ s.tst.lines

/-- R319: the ceiling of a master is reached. -/
def State.atCeil (s : State) (m : Nat) : Bool :=
  s.on F.TST_CTL_CEIL_EN && s.ceilOf m != 0 && s.ceilOf m ≤ s.rd F.TST_M_LIVE_SERVED 0 m

/-- R319, R348: an access of a master that would be charged is held at its sender. -/
def State.heldAt (s : State) (m : Nat) : Bool := s.atCeil m || s.throttled m

/-- R314: one line is charged to a master. -/
def State.charge (s : State) (m : Nat) : State :=
  if 96 ≤ m then s
  else
    let s := (s.add F.TST_M_LIVE_SERVED 1 0 m).add F.TST_M_TOTAL_TOTAL 1 0 m
    if s.on F.PWR_STATUS_THROTTLE && m ≤ 88 then
      let n := if s.tst.usec = s.usecNow then s.tst.lines else 0
      { s with tst := { s.tst with usec := s.usecNow, lines := n + 1 } }
    else s

/-! ### What the registers show -/

/-- Accesses of a master that wait for admission. -/
def State.waiting (s : State) (m : Nat) : Nat := (s.dram.map (fun x => (x.2.wait.filter (·.master == m)).length)).sum

/-- R323: DEMAND of a master now. -/
def State.demand (s : State) (m : Nat) : Nat := s.rd F.TST_M_LIVE_SERVED 0 m + s.waiting m

/-- Table 13-7: the live fields of a master: DEMAND, HELD and URG. -/
def State.showMaster (s : State) (m : Nat) : State :=
  let urg := fun (x : Nat × ChanSt) => ((x.2.wait ++ x.2.queued).filter (·.master == m)).map (fun a =>
    match a.rt with | some k => s.rd F.DRC_RT_URG x.1 k | none => 0)
  let s' := (s.wr F.TST_M_LIVE_DEMAND (s.demand m) 0 m).wr F.TST_M_STAT_HELD (b2n (s.atCeil m && s.waiting m != 0)) 0 m
  s'.wr F.TST_M_STAT_URG ((s.dram.flatMap urg).foldl max 0) 0 m

/-! ### Windows -/

/-- R318: RAW in half lines per µs: 25 × RATE for each present channel. -/
def State.rawHalf (s : State) : Nat :=
  ((List.range 16).map (fun c => if s.on F.DRC_CFG_PRESENT c then 25 * s.rd F.DRC_CFG_RATE c else 0)).sum

/-- R318: the effective guarantees, with the values in force. Of S′ and B the registers show the low 32 bits (log entry 127,
DESIGN CHOICE). -/
def State.effective (s : State) : State :=
  let w := s.rd F.TST_WIN_WINDOW_US
  let lpus := s.rd F.TST_BUDGET_LPUS
  let smin := s.rawHalf * w / 256
  let b := lpus * w
  let e89 := max (s.force 89).guar smin
  let rest := (List.range 96).filter (· != 89)
  let sum := (rest.map (fun m => (s.force m).guar)).sum
  let left := b - e89
  let excess := lpus != 0 && b < e89 + sum
  let s := (s.wr F.TST_SCRUBMIN_SCRUB_MIN smin).wr F.TST_STATUS_BUDGET_UNSET (b2n (lpus == 0))
  let s := (s.wr F.TST_SUM_S sum).wr F.TST_SUM_B b
  let s := (s.wr F.TST_STATUS_OVERCOMMIT (b2n excess)).when excess (fun s => s.set F.TST_IRQ_OVERCOMMIT)
  let s := s.wr F.TST_M_EGUAR_EGUAR e89 0 89
  s.forEach rest (fun s m =>
    let f := s.force m
    let g := if excess then f.guar * left / sum else f.guar
    s.wr F.TST_M_EGUAR_EGUAR (if f.ceil = 0 then g else min g f.ceil) 0 m)

/-- R316: load what has been written to the masters' registers. -/
def State.loadForce (s : State) : State :=
  let f := fun (m : Nat) => (⟨s.rd F.TST_M_LIM_GUAR 0 m, s.rd F.TST_M_LIM_CEIL 0 m, s.rd F.TST_M_LAT_LAT_NS 0 m,
    s.rd F.TST_M_LAT_MISS_THR 0 m⟩ : Force)
  { s with tst := { s.tst with force := (List.range 91).foldl (fun a m => smSet {} a m (f m)) [] } }

/-- R323: a master has missed its guarantee in a full window. -/
def State.missed (s : State) (m : Nat) : Bool :=
  let e := s.rd F.TST_M_EGUAR_EGUAR 0 m
  let late := smGet 0 s.tst.miss m
  (0 < e && e ≤ s.demand m && s.rd F.TST_M_LIVE_SERVED 0 m < e) || (0 < (s.force m).thr && (s.force m).thr < late)

/-- R316, R317: copy one master's live counts to its last-window fields, and clear them. -/
def State.closeMaster (s : State) (m : Nat) (short : Bool) : State :=
  let miss := !short && s.missed m
  let d := s.demand m
  let s := (s.wr F.TST_M_LAST_LSERVED (s.rd F.TST_M_LIVE_SERVED 0 m) 0 m).wr F.TST_M_LAST_LDEMAND d 0 m
  let s := (s.wr F.TST_M_MISS_LLATMISS (smGet 0 s.tst.miss m) 0 m).wr F.TST_M_MISS_LMISS (b2n miss) 0 m
  let s := if short then s
    else if m < 64 then s.wrBit F.TST_MISS0_MISS m miss else s.wrBit F.TST_MISS1_MISS (m - 64) miss
  let s := s.when miss (fun s => (s.set F.TST_STATUS_LAST_MISS).set F.TST_IRQ_MISS)
  s.clear F.TST_M_LIVE_SERVED 0 m

/-- R319: what a ceiling holds at the end of a window is late from then on. -/
def State.markLate (s : State) : State :=
  let f := fun (a : LineAcc) => { a with late := a.late || s.atCeil a.master }
  s.forEach (List.range 16) (fun s c =>
    if (s.chan c).wait.isEmpty then s else s.onChan c (fun x => { x with wait := x.wait.map f }))

/-- R316, R317: a window closes and the next one opens. `short`: the window that closes ends early or at a step. -/
def State.closeWindow (s : State) (short : Bool) : State :=
  let short := short || s.tst.short
  let s := s.markLate
  let s := if short then s else s.clear F.TST_STATUS_LAST_MISS
  let s := s.forEach (List.range 91) (fun s m => s.closeMaster m short)
  let s := { s with tst := { s.tst with miss := [] } }.loadForce.effective
  let s := (s.add F.TST_WINSEQ_SEQ 1).wr F.TST_WIN_ST_ST s.st
  let s := s.wr F.TST_WIN_LEN_CCLKS (s.time.cclk - s.tst.began)
  let s := (s.wr F.TST_STATUS_LAST_SHORT (b2n short)).when short (fun s => s.set F.TST_IRQ_SHORT)
  { s with tst := { s.tst with began := s.time.cclk, short := false } }

/-- R49, R317: a step of shelf time closes the window short, and the next one is short too. -/
def State.stepWindow (s : State) : State :=
  let s := s.closeWindow true
  { s with tst := { s.tst with short := true } }

/-- R313, R325: a write of a TST register; those of a reserved master are ignored. -/
def State.writeTst (s : State) (who : Initiator) (off v : Nat) : State :=
  if 0x1C026C0 ≤ off && off < 0x1C02800 then s
  else
    let s := s.writeWord who off v
    if off = 0x1C00010 then s.wr F.TST_STATUS_BUDGET_UNSET (b2n (s.rd F.TST_BUDGET_LPUS == 0)) else s

end Sys2Proof.Machine
end

