-- ==== Sys2Proof/Machine/Channel.lean ====
section
/-!
DEFINITION. A channel at work (R251 to R263, R275 to R279): admission, the choice of the next command, read data, power-down,
parking and wake, and refresh.
-/

namespace Sys2Proof.Machine

/-! ### Admission (R314, R319, R322) -/

/-- The better of two accesses for admission: the higher level, then the older. -/
def State.ahead (s : State) (c : Nat) (a : LineAcc) (best : Option LineAcc) : Option LineAcc :=
  match best with
  | none => some a
  | some b =>
    let pa := s.prioOf c a
    let pb := s.prioOf c b
    if pb < pa || (pb == pa && s.bornAt a < s.bornAt b) then some a else best

/-- The bank queue of an access. -/
def State.bankOf (s : State) (c : Nat) (a : LineAcc) : Nat := (s.secs.chn c).queue (s.target c a.cla).1

/-- R251: entries of a bank queue that are taken. -/
def State.bankUsed (s : State) (c q : Nat) : Nat := ((s.chan c).bq.filter (fun b => s.bankOf c b == q)).length

/-- R251: accesses move on to their bank queues in arrival order; entry 7 is kept for real-time ports. -/
def State.fillBanks (s : State) (c : Nat) : State :=
  s.forEach (s.chan c).inq (fun s a =>
    if s.bankUsed c (s.bankOf c a) < 7 then s.onChan c (fun x => { x with inq := x.inq.erase a, bq := x.bq ++ [a] }) else s)

/-- R284, step 3: a line is being copied to a spare line: what came later waits. -/
def State.copying (s : State) (c cla : Nat) : Bool :=
  (List.range 16).any (fun k => s.rd F.DRC_REMAP_0_STATE c k == 1 && s.rd F.DRC_REMAP_0_ORIG_CLA c k == cla)

/-- R251: the channel has room for an access: in its input queue of 64 reads, or among the 64 lines of its write-data buffer
(log entry 122, DEDUCED); for one of a real-time port, in its bank queue, behind every access to its line. -/
def State.canEnter (s : State) (c : Nat) (a : LineAcc) : Bool :=
  let x := s.chan c
  if s.copying c a.cla then false
  else if a.rt.isSome then s.bankUsed c (s.bankOf c a) < 8 && !x.inq.any (fun b => b.cla == a.cla)
  else ((if a.write then x.queued else x.inq).filter (fun b => b.write == a.write && b.rt.isNone)).length < 64

/-- R251: a read matches a queued write, from which it takes its data. -/
def ChanSt.hits (x : ChanSt) (a : LineAcc) : Bool := !a.write && x.queued.any (fun b => b.write && b.cla == a.cla)

/-- R319: no late access of the master comes before this one. -/
def ChanSt.inTurn (x : ChanSt) (a : LineAcc) : Bool :=
  (x.wait.find? (fun b => b.late && b.master == a.master)).all (· == a)

/-- An access may be admitted now: it is not held, its turn has come, and there is room. -/
def State.mayEnter (s : State) (c : Nat) (a : LineAcc) : Bool :=
  ((s.chan c).hits a || !s.heldAt a.master) && (s.chan c).inTurn a && s.canEnter c a

/-- R322: the access that the channel admits next to its read or write queue. -/
def State.nextAdmit (s : State) (c : Nat) (write : Bool) : Option LineAcc :=
  ((s.chan c).wait.filter (fun a => a.write == write && s.mayEnter c a)).foldl (fun b a => s.ahead c a b) none

/-- R254: write drain follows the number of queued writes. -/
def State.showDrain (s : State) (c : Nat) : State :=
  let x := s.chan c
  let n := (x.queued.filter (·.write)).length
  if !x.drain && s.rd F.DRC_SCHED_WR_HI c ≤ n && n != 0 then
    (s.setChan c { x with drain := true }).bump F.DRC_STAT_COUNT 1 c 7
  else if x.drain && n ≤ s.rd F.DRC_SCHED_WR_LO c then s.setChan c { x with drain := false }
  else s

/-- R314: the channel admits an access. A read that matches a queued write takes its data without DRAM and without a
charge (R251). -/
def State.takeIn (s : State) (c : Nat) (a : LineAcc) : State :=
  let p := s.prioOf c a
  let x := s.chan c
  let q : Qual := { agent := some a.master }
  let hit := x.hits a
  let b : LineAcc := { a with prio := p }
  let s := s.setChan c { x with wait := x.wait.erase a, inq := if hit || a.rt.isSome then x.inq else x.inq ++ [b],
                                bq := if hit || a.rt.isNone then x.bq else x.bq ++ [b] }
  let s := s.onTxn a.txn (fun t => { t with prio := max t.prio p })
  let s := s.counts (16 + c) (if a.write then evWrite else evRead) q a.txn
  let s := if p = 3 then s.counts 60 evP3 q a.txn else s
  let s := if hit then s.bump F.DRC_STAT_COUNT 1 c 6 else s.charge a.master
  ((s.fillBanks c).showDrain c).showRt c

/-- R251, R314: the channel admits the next access to its queue of 64 reads or 64 writes; a real-time port reaches the
bank queues directly. -/
def execChannelAdmit (c : Fin 16) (write : Bool) (s : State) : Outcome :=
  onDie s (fun s =>
    match s.nextAdmit c write with
    | none => s
    | some a => s.takeIn c a)

/-! ### The scheduler (R252 to R254) -/

/-- The next command of a queued access: 0 column, 1 activate, 2 precharge of another row. -/
structure Cand where
  acc   : LineAcc
  kind  : Nat
  queue : Nat
  bank  : Bank
deriving DecidableEq, Repr

/-- The row that an access needs, with its chip ID. -/
def Bank.openRow (b : Bank) : Nat := b.row + 2 ^ 20 * b.chip

/-- An access may be picked: no earlier one is for its line or, of those considered, for its bank queue; its rank
answers. -/
def State.pickable (s : State) (c : Nat) (before : List LineAcc) (seen : List Nat) (a : LineAcc) (q : Nat) : Bool :=
  let r := claRank (s.target c a.cla).1
  let st := s.rd F.DRC_RANK_STATUS_STATE c r
  (st == rankACTIVE || st == rankPOWERDOWN) && !before.any (fun b => b.cla == a.cla) && !seen.contains q

/-- The bank queue that a soft repair holds (R285). -/
def State.pprQueue (s : State) (c : Nat) : Option Nat :=
  if (s.chan c).ppr = some 1 then
    some (128 * s.rd F.DRC_PPR_SUB c + 32 * s.rd F.DRC_PPR_RANK c + 4 * s.rd F.DRC_PPR_BG c + s.rd F.DRC_PPR_BANK c)
  else none

/-- R252, R254: the candidates of a subchannel among the accesses considered: the heads of the bank queues. -/
def State.cands (s : State) (c sub : Nat) : List Cand :=
  let x := s.chan c
  let chn := s.secs.chn c
  let considered := fun (a : LineAcc) => if s.on F.DRC_STATUS_PANIC c then a.rt.isSome else !x.drain || a.write || a.rt.isSome
  (x.bq.foldl (fun (acc : List LineAcc × List Nat × List Cand) a =>
    let (before, seen, out) := acc
    let cla := (s.target c a.cla).1
    let q := chn.queue cla
    if q / 128 != sub || !considered a then (before ++ [a], seen, out)
    else
      let b := chn.bank (cla % 2 ^ 36)
      let kind := match smGet none x.rows q with
        | none => 1
        | some r => if r = b.openRow then 0 else 2
      let ok := s.pickable c before seen a q && (s.pprQueue c != some q || a.master == 80)
      (before ++ [a], q :: seen, if ok then out ++ [⟨a, kind, q, b⟩] else out)) ([], [], [])).2.2

/-- R253: how far a bank group is from the one after the last activate. -/
def State.rotation (s : State) (c sub : Nat) (x : Cand) : Nat :=
  (x.bank.bg + 7 - smGet 7 (s.chan c).lastBg (4 * sub + claRank x.acc.cla)) % 8

/-- R252, rule 3, and R253: the first candidate is picked before the second. -/
def State.before (s : State) (c sub : Nat) (x y : Cand) : Bool :=
  let px := s.prioOf c x.acc
  let py := s.prioOf c y.acc
  let cx := min x.kind 1
  let cy := min y.kind 1
  if px != py then py < px
  else if cx != cy then cx < cy
  else if s.bornAt x.acc != s.bornAt y.acc then s.bornAt x.acc < s.bornAt y.acc
  else cx == 1 && s.rotation c sub x < s.rotation c sub y

/-- R263: a refresh command is issued to a rank. -/
def State.refresh (s : State) (c r : Nat) : State :=
  let d := signed 4 (s.rd F.DRC_RANK_STATUS_POSTPONE c r)
  let s := s.wr F.DRC_RANK_STATUS_POSTPONE (unsigned 4 (d - 1)) c r
  let s := s.onChan c (fun x => { x with rows := x.rows.filter (fun y => y.1 / 32 % 4 != r) })
  (s.bump F.DRC_STAT_COUNT 1 c 4).counts (16 + c) evRef

/-- R263: the refresh of a rank with 4 postponed goes ahead of every other command. -/
def State.urgentRefresh (s : State) (c r : Nat) : State := (s.bump F.DRC_ERR_REF_URGENT 1 c).refresh c r

/-- The command of a candidate is issued. A rank in power-down leaves it (R257). -/
def State.issue (s : State) (c sub : Nat) (x : Cand) : State :=
  let r := claRank (s.target c x.acc.cla).1
  let s := if s.rd F.DRC_RANK_STATUS_STATE c r = rankPOWERDOWN then s.wr F.DRC_RANK_STATUS_STATE rankACTIVE c r else s
  let ch := s.chan c
  match x.kind with
  | 0 =>
    let s := s.setChan c { ch with bq := ch.bq.erase x.acc,
                                   issued := if x.acc.write then ch.issued else ch.issued ++ [x.acc] }
    let s := (s.bump F.DRC_STAT_COUNT 1 c (b2n x.acc.write)).bump F.DRC_STAT_COUNT 1 c 3
    ((s.fillBanks c).showDrain c).showRt c
  | 1 =>
    let s := s.setChan c { ch with rows := smSet none ch.rows x.queue (some x.bank.openRow),
                                   lastBg := smInsert ch.lastBg (4 * sub + r) x.bank.bg }
    (s.bump F.DRC_STAT_COUNT 1 c 2).counts (16 + c) evAct
  | _ => s.setChan c { ch with rows := smErase ch.rows x.queue }

/-- Close every row of a rank. -/
def State.precharge (s : State) (c r : Nat) : State :=
  s.onChan c (fun x => { x with rows := x.rows.filter (fun y => y.1 / 32 % 4 != r) })

/-- R259, steps 2 and 3: with nothing else to issue, a rank in PARKING is precharged and enters self-refresh. -/
def State.enterRefresh (s : State) (c ranks : Nat) : State :=
  match (List.range 4).find? (fun r => ranks.testBit r && s.rd F.DRC_RANK_STATUS_STATE c r == rankPARKING &&
      !(s.chan c).entered.contains r) with
  | some r => (s.precharge c r).onChan c (fun x => { x with entered := x.entered ++ [r] })
  | none => s

/-- R252: the command that the scheduler of a subchannel issues. `banks` and `ranks`: the bank queues and ranks whose
next command meets every JEDEC timing. -/
def execDramCommandIssue (c : Fin 16) (sub : Fin 2) (banks : BitVec 128) (ranks : BitVec 4) (s : State) : Outcome :=
  onDie s (fun s =>
    let ready := (List.range 4).filter (fun r => ranks.toNat.testBit r &&
      (s.rd F.DRC_RANK_STATUS_STATE c r == rankACTIVE || s.rd F.DRC_RANK_STATUS_STATE c r == rankPOWERDOWN))
    let debt := fun r => signed 4 (s.rd F.DRC_RANK_STATUS_POSTPONE c r)
    match ready.find? (fun r => debt r = 4) with
    | some r => s.urgentRefresh c r
    | none =>
      let all := s.cands c sub
      let ok := all.filter (fun x => banks.toNat.testBit (x.queue % 128))
      match ok.foldl (fun b x => match b with
          | none => some x
          | some y => if s.before c sub x y then some x else some y) none with
      | some x => s.issue c sub x
      | none =>
        -- rule 4: a due refresh of a rank without an eligible request
        match ready.find? (fun r => 0 < debt r && !all.any (fun x => claRank x.acc.cla == r)) with
        | some r => if s.on F.DRC_STATUS_PANIC c then s else s.refresh c r
        | none => s.enterRefresh c ranks.toNat)

/-! ### Read data (R275 to R279, R283) -/

/-- R69, R279: a device of a rank has reached DEV_THR: a DRAM Event record to every LD. -/
def State.dramEvent (s : State) (c r : Nat) : State :=
  s.forEach s.secs.ldl (fun s e => s.event e.ld logWARN .dram 0 (4 * c + r) 0)

/-- The cause of R68 that a failing outcome gives its reader. -/
def eccCause (o : EccOutcome) : Nat :=
  match o with
  | .uncorrectable => 1
  | .addressFault => 2
  | _ => 0

/-- R69, R283: the first lines of what pages hold at a media address: the line of a Hall page, or the block of a compressed
one. -/
def State.linesAt (s : State) (ma : Nat) : List Nat :=
  s.map.pmes.filterMap (fun y =>
    let (p, x) := y
    let r := s.runOf p x
    if x.tier = 0 then none
    else if x.tier = 1 then (if ma / 4096 = x.loc then some (lineOf p (ma % 4096 / 64)) else none)
    else ((List.range 8).find? (fun b => r.start b ≤ ma / 64 && ma / 64 < r.start b + r.size b)).map (fun b => lineOf p (8 * b)))

/-- R69, R283: the scrubber has met an error: the LD whose DPA space holds the line gets the record; one that belongs to no LD is
reported in the RAS record alone. The block does at once what the control complex does with its MAP_SCAN (log entry 124,
DESIGN CHOICE). -/
def State.scrubEvent (s : State) (c cla cause : Nat) : State :=
  match s.maOf c cla with
  | none => s
  | some ma => s.forEach ((s.linesAt ma).filterMap s.ldOfLine) (fun s x => s.event x.1 logFAIL .generalMedia x.2 cause 0)

/-- R275, R276: a read's codeword returns: `raw`, and `again` if it is retried. What the DRAM shows is what it holds,
unless a later write to the line waits in the channel. -/
def State.readData (s : State) (c : Nat) (a : LineAcc) (raw again : Bytes) : State :=
  let x := s.chan c
  let s := s.setChan c { x with issued := x.issued.erase a }
  let later := (x.wait ++ x.queued).any (fun b => b.write && b.cla == a.cla)
  let scrub := a.master == 89
  let r1 := s.decodeRaw c a.cla raw
  let shown := if r1.out == .uncorrectable || r1.out == .addressFault then again else raw
  let mem := s.mem
  let (r, s, thr) := (s.setRawLine c (s.target c a.cla).1 shown).takeRead c a.cla raw again scrub
  let s := if later then { s with mem := mem } else s
  let s := s.when thr (fun s => s.dramEvent c (claRank a.cla))
  let s := s.when (scrub && r.out == .poison) (fun s => s.bump F.DRC_SCRUB_STAT_POISON_SEEN 1 c)
  let k := c * 2 ^ 38 + a.cla
  let s := s.when (scrub && eccCause r.out != 0) (fun s => s.scrubEvent c a.cla (eccCause r.out))
  let s := if scrub || eccCause r.out = 0 then s
    else { s with causes := smInsert s.causes k (eccCause r.out) }
  s.showRt c

/-- R275: the oldest read of a subchannel returns its burst, and that of the retry of R276; their symbols lie as Table 11-1
states. -/
def execDramReadData (c : Fin 16) (sub : Fin 2) (raw again : Bytes) (s : State) : Outcome :=
  onDie s (fun s =>
    match (s.chan c).issued.find? (fun a => (s.secs.chn c).queue (s.target c a.cla).1 / 128 == sub.val) with
    | none => s
    | some a => s.readData c a (burstSymbols (s.x8 c) raw) (burstSymbols (s.x8 c) again))

/-! ### PANIC (R256) -/

/-- R256: the suspension has lasted 2 µs: every open event ends. -/
def execPanicExpire (c : Fin 16) (s : State) : Outcome :=
  onDie s (fun s =>
    let x := s.chan c
    let n := b2n x.panic0.open_ + b2n x.panic1.open_
    if n = 0 then s
    else
      let s := s.setChan c { x with panic0 := { x.panic0 with open_ := false }, panic1 := { x.panic1 with open_ := false } }
      ((s.bump F.DRC_ERR_PANIC_EXPIRE n c).set F.DRC_IRQ_PANIC_EXPIRE c).showRt c)

/-! ### Power-down (R257, R345) -/

/-- A rank has no request in its channel's queues. -/
def State.rankIdle (s : State) (c r : Nat) : Bool :=
  !((s.chan c).wait ++ (s.chan c).queued).any (fun a => claRank (s.target c a.cla).1 == r)

/-- R257, R345: a rank without a request for PD_IDLE CCLKs powers down; at Floor 4 it goes back into self-refresh. -/
def execPowerDownEntry (c : Fin 16) (r : Fin 4) (s : State) : Outcome :=
  onDie s (fun s =>
    let loft := s.secs.loftRank c r
    let floor := s.rd F.PWR_STATUS_FLOOR
    if s.rd F.DRC_RANK_STATUS_STATE c r != rankACTIVE || !s.rankIdle c r || s.rd F.DRC_RANK_CTL_PD_IDLE c r == 0 then s
    else if floor = 4 ∧ loft = false then
      let id := 4 * c.val + r.val
      { s.precharge c r with pwr := { s.pwr with selfRef := s.pwr.selfRef.filter (· != id) ++ [id] } }
    else if s.on F.DRC_CTL_PD_EN c && (loft || 2 ≤ floor) then
      (s.precharge c r).wr F.DRC_RANK_STATUS_STATE rankPOWERDOWN c r
    else s)

/-! ### Parking (R258, R259) -/

/-- A calendar window of an action is open for a channel. -/
def State.windowOpen (s : State) (action c : Nat) : Bool :=
  (List.range 64).any (fun n => s.on F.TIM_CAL_STAT_OPEN 0 n && s.rd F.TIM_CAL_CTL_ACTION 0 n == action &&
    (s.rd F.TIM_CAL_CTL_TARGET 0 n == c || s.rd F.TIM_CAL_CTL_TARGET 0 n == 0xFF))

/-- The DIMM of a rank. -/
def State.dimmOf (s : State) (c r : Nat) : Nat := r / max 1 (s.secs.chn c).ranks

/-- The sensor of a DIMM, in 0.25 °C. -/
def State.dimmTemp (s : State) (c d : Nat) : Int := signed 16 (s.rd F.DRC_DIMM_0_TEMP c d)

/-- R349: the Loft tolerance of a rank. -/
def State.rankTol (s : State) (c r : Nat) : Nat := s.loftTol (4 * (s.secs.chn c).set + r)

/-- R258: every condition for parking a rank but PARK_IDLE_US. -/
def State.mayPark (s : State) (c r : Nat) : Bool :=
  s.secs.loftRank c r && s.on F.DRC_RANK_CTL_PARK_EN c r && s.rankIdle c r && !s.windowOpen 4 c && !s.windowOpen 2 c &&
    (s.windowOpen 3 c || !s.on F.DRC_CTL_PARK_WIN_REQ c) && 2000 ≤ s.rankTol c r &&
    !s.on F.DRC_RANK_STATUS_HOT c r && s.dimmTemp c (s.dimmOf c r) < 380 && !s.on F.DRC_SCRUB_RANK_CUR_FORCED c r

/-- R259, step 1. -/
def State.park (s : State) (c r : Nat) : State :=
  let st := s.rd F.DRC_RANK_STATUS_STATE c r
  if (st == rankACTIVE || st == rankPOWERDOWN) && s.mayPark c r then
    s.wr F.DRC_RANK_STATUS_STATE rankPARKING c r
  else s

/-- R258: PARK_IDLE_US is over, or does not apply. -/
def execParkStart (c : Fin 16) (r : Fin 4) (s : State) : Outcome := onDie s (fun s => s.park c r)

/-- R259: self-refresh is entered and the lane group stopped. -/
def execParkDone (c : Fin 16) (r : Fin 4) (s : State) : Outcome :=
  onDie s (fun s =>
    if s.rd F.DRC_RANK_STATUS_STATE c r = rankPARKING then
      let s := ((s.precharge c r).onChan c (fun x => { x with entered := x.entered.filter (· != r.val) })).wr
        F.DRC_RANK_STATUS_STATE rankPARKED c r
      let s := (s.wr F.DRC_RANK_PARK_ST_ST s.st c r).bump F.DRC_RANK_CNT_PARKS 1 c r
      -- Table 10-4: a rank that became hot while PARKING is woken
      if s.on F.DRC_RANK_STATUS_HOT c r then s.wakeRank c r else s
    else s)

/-- R260: a wake ends after `ns`: the rank is ACTIVE with no postponement debt; MR4 has been read; a refresh check has
refreshed it and parks it again as soon as it may (R262). -/
def execWakeDone (c : Fin 16) (r : Fin 4) (ns : BitVec 16) (hot : Bool) (s : State) : Outcome :=
  onDie s (fun s =>
    let st := s.rd F.DRC_RANK_STATUS_STATE c r
    if st != rankWAKING && st != rankCHECKING then s
    else
      let s := (s.wr F.DRC_RANK_STATUS_STATE rankACTIVE c r).clear F.DRC_RANK_STATUS_POSTPONE c r
      let rest := (s.chan c).mr4.filter (· != r.val)
      let s := (s.onChan c (fun x => { x with mr4 := if hot then rest ++ [r.val] else rest })).showRef c
      let s := if 2000 < ns.toNat then
          ((s.bump F.DRC_ERR_WAKE_LATE 1 c).set F.DRC_IRQ_WAKE_LATE c).record 0x40 2 rasDRC c c r
        else s
      if st = rankCHECKING then
        let s := (s.bump F.DRC_STAT_COUNT 1 c 4).counts (16 + c.val) evRef
        s.park c r
      else s)

/-! ### Refresh (R262, R263) -/

/-- R262: a rank has been PARKED for PARK_MAX_MS. -/
def execRefreshCheck (c : Fin 16) (r : Fin 4) (s : State) : Outcome :=
  onDie s (fun s =>
    if s.rd F.DRC_RANK_STATUS_STATE c r = rankPARKED then
      (s.wakeRank c r).wr F.DRC_RANK_STATUS_STATE rankCHECKING c r
    else s)

/-- R263: a rank's refresh falls due: consumed by one pulled in, forced at 4 postponed, issued while the rank has no
request, or postponed. -/
def execRefreshDue (c : Fin 16) (r : Fin 4) (s : State) : Outcome :=
  onDie s (fun s =>
    let st := s.rd F.DRC_RANK_STATUS_STATE c r
    if (st != rankACTIVE && st != rankPOWERDOWN) || s.pwr.selfRef.contains (4 * c.val + r.val) then s
    else
      let d := signed 4 (s.rd F.DRC_RANK_STATUS_POSTPONE c r)
      if 4 ≤ d then (s.bump F.DRC_ERR_REF_URGENT 1 c).refresh c r |>.wr F.DRC_RANK_STATUS_POSTPONE 4 c r
      else
        let s' := s.wr F.DRC_RANK_STATUS_POSTPONE (unsigned 4 (d + 1)) c r
        if 0 ≤ d ∧ s.rankIdle c r = true then s'.refresh c r else s')

end Sys2Proof.Machine
end

