-- ==== Sys2Proof/Machine/Drc.lean ====
section
/-!
DEFINITION. The channels beside the scheduler: readings and refresh phase (R264, R265), training and PMIC faults (R266 to
R269), the scrubber (R280 to R283), remap and repair (R284, R285), and the DRC registers.
-/

namespace Sys2Proof.Machine

/-! ### Readings and refresh phase (R264, R265) -/

/-- R265: the sensor of a DIMM: at 95 °C or more its Loft ranks are held awake; below 90 °C they no longer are. -/
def State.dimmReading (s : State) (c d : Nat) (t : BitVec 16) (pmic : Nat) : State :=
  let s := (s.wr F.DRC_DIMM_0_TEMP t.toNat c d).wr F.DRC_DIMM_0_PMIC_STAT pmic c d
  let deg := signed 16 t.toNat
  let mine := (List.range 4).filter (fun r => s.rankUp c r && s.dimmOf c r == d && s.secs.loftRank c r)
  if 380 ≤ deg then
    (s.forEach mine (fun s r =>
      let s := s.set F.DRC_RANK_STATUS_HOT c r
      -- Table 10-4: a rank in PARKING finishes it and is then woken
      s.wakeRank c r)).set F.DRC_IRQ_DIMM_HOT c
  else if deg < 360 then s.forEach mine (fun s r => s.clear F.DRC_RANK_STATUS_HOT c r)
  else s

/-- R265: MR4 of every ACTIVE rank and the sensor of every DIMM's hub are read. -/
def State.reading (s : State) (c : Nat) (x : ChanReading) : State :=
  let act := (List.range 4).filter (fun r =>
    let st := s.rd F.DRC_RANK_STATUS_STATE c r
    st == rankACTIVE || st == rankPOWERDOWN)
  let hot := act.filter (fun r => x.hot.toNat.testBit r)
  let s := s.onChan c (fun y => { y with mr4 := y.mr4.filter (fun r => !act.contains r) ++ hot, readSt := s.st })
  let s := s.when (s.on F.DRC_DIMM_0_PRESENT c 0) (fun s => s.dimmReading c 0 x.temp0 x.pmic0.toNat)
  (s.when (s.on F.DRC_DIMM_0_PRESENT c 1) (fun s => s.dimmReading c 1 x.temp1 x.pmic1.toNat)).showRef c

/-- R264: the shift of a rank's due instants between two values of A, in (−tREFI / 2, tREFI / 2]. -/
def phaseShift (trefi old new : Nat) : Int :=
  let d : Int := ((new : Int) - old) % trefi
  if 2 * d ≤ trefi then d else d - trefi

/-- R264: a REFRESH_PHASE entry fires for a channel: the shift is absorbed by one refresh postponed or pulled in; with 4
postponed they are issued first and the shift is pulled in (Table 10-4). -/
def State.phaseFire (s : State) (c : Nat) : State :=
  let old := (s.chan c).phaseA
  let s := s.onChan c (fun x => { x with phaseA := s.st })
  let s := s.clear F.DRC_STATUS_PHASE_STALE c
  s.forEach (List.range 4) (fun s r =>
    let st := s.rd F.DRC_RANK_STATUS_STATE c r
    if st != rankACTIVE && st != rankPOWERDOWN then s
    else
      let sh := phaseShift (if s.halved c r then 7800 else 15600) old s.st
      let d := signed 4 (s.rd F.DRC_RANK_STATUS_POSTPONE c r)
      if sh = 0 then s
      else if 4 ≤ d then (List.range 5).foldl (fun s _ => s.refresh c r) s
      else if 0 < sh then s.wr F.DRC_RANK_STATUS_POSTPONE (unsigned 4 (d + 1)) c r
      else if -4 < d then s.refresh c r else s)

/-- R265: no REFRESH_PHASE firing came within 2^27 units: the channel reads at once. -/
def execPhaseStaleRead (c : Fin 16) (x : ChanReading) (s : State) : Outcome :=
  onDie s (fun s => if s.on F.DRC_CFG_PRESENT c then (s.reading c x).set F.DRC_STATUS_PHASE_STALE c else s)

/-- R261: an UNPARK_WINDOW opens: every PARKED rank of the channel is woken. -/
def State.unparkAll (s : State) (c : Nat) : State := s.forEach (List.range 4) (fun s r => s.rouse c r)

/-! ### Training (R266 to R268) -/

/-- R16, R267, R268: a channel is excluded. -/
def State.exclChan (s : State) (c result : Nat) : State :=
  let s := ((s.clear F.DRC_CFG_PRESENT c).set F.DRC_CFG_EXCLUDED c).wr F.DRC_STATUS_TRAIN_RESULT result c
  let s := s.forEach (List.range 4) (fun s r => s.wr F.DRC_RANK_STATUS_STATE rankABSENT c r)
  (s.set F.DRC_IRQ_TRAIN_FAIL c).record 0x31 2 rasDRC c c

/-- R266: the calibration set holds training seeds. -/
def State.seeds (s : State) : Bool := s.rdBit F.NVS_CAL_STATUS_VALID 0

/-- R247: the controller accepts a DIMM for a channel: the five conditions on its SPD. -/
def spdAccepted (d : Spd) (chn : Chn) : Bool :=
  d.rdimm && [4, 8].contains d.width.toNat && [16, 24, 32, 64].contains d.dens.toNat && [1, 2, 4].contains d.dies.toNat &&
    d.ranks.toNat * (2 * (32 / d.width.toNat) * (d.dens.toNat * 2 ^ 30) * d.dies.toNat / 8) ≤ 2 ^ 39 && chn.rate ≤ d.rate.toNat

/-- R16: the SPD of a DIMM agrees with the channel's CHN entry. -/
def spdAgrees (d : Spd) (chn : Chn) : Bool :=
  d.ranks.toNat == chn.ranks && d.width.toNat == chn.width && d.dens.toNat == densGb chn.dens

/-- R16, R247, R268: the DIMMs of a channel are those of its CHN entry, are accepted, and report one die count. -/
def dimmsOk (chn : Chn) (d0 d1 : Option Spd) : Bool :=
  let ds := d0.toList ++ d1.toList
  d0.isSome == decide (1 ≤ chn.dpc) && d1.isSome == decide (2 ≤ chn.dpc) &&
    ds.all (fun d => spdAccepted d chn && spdAgrees d chn) && ds.all (fun d => some d.dies == (ds.head?.map (·.dies)))

/-- R268: a bus is switched to I3C once every hub on it has been read; a hub that does not answer is a transfer that is not
acknowledged (log entry 123, DEDUCED). -/
def State.sideband (s : State) (c absent : Nat) : State :=
  let k := c / 4 * 4
  let read := fun (d : Nat) => d == c || (s.secs.chn d).dpc == 0 || s.on F.DRC_CFG_PRESENT d || s.on F.DRC_CFG_EXCLUDED d
  (s.bump F.DRC_SBUS_NAK absent k).when ((List.range 4).all (fun i => read (k + i))) (fun s => s.set F.DRC_SBUS_I3C k)

/-- R247, R266: a channel whose DIMM bank is powered finishes training. -/
def State.trained (s : State) (c : Nat) (t : TrainReport) (x : ChanReading) : State :=
  let chn := s.secs.chn c
  let s := s.wr F.DRC_STATUS_TRAIN_MS t.ms.toNat c
  let s := s.wr F.DRC_STATUS_TRAIN_MODE (if t.seeded && s.seeds then 1 else 2) c
  let dimm := fun (s : State) (d : Nat) (x : Option Spd) =>
    (s.wr F.DRC_DIMM_0_PRESENT (b2n x.isSome) c d).wr F.DRC_DIMM_1_SERIAL ((x.map (·.serial.toNat)).getD 0) c d
  let s := (dimm (dimm s 0 t.dimm0) 1 t.dimm1).sideband c (b2n t.dimm0.isNone + b2n t.dimm1.isNone)
  if !dimmsOk chn t.dimm0 t.dimm1 then s.exclChan c 7
  else if t.result != 0 then s.exclChan c t.result.toNat
  else
    let dies := (t.dimm0.map (·.dies.toNat)).getD 1
    let s := (s.set F.DRC_CFG_PRESENT c).wr F.DRC_CFG_DIES (dies / 2) c
    let s := s.onChan c (fun y => { y with dies := dies, phaseA := s.st })
    let s := s.forEach (List.range chn.nRanks) (fun s r => s.wr F.DRC_RANK_STATUS_STATE rankACTIVE c r)
    s.reading c x

/-- R397: the DIMM bank of a channel is ON. -/
def State.bankOn (s : State) (c : Nat) : Bool :=
  let st := s.rd F.INL_CH_STATUS_STATE 0 (1 + c / 2)
  st == 6 || st == 7

/-- R266: a channel whose DIMM bank is powered trains. -/
def State.training (s : State) (c : Nat) : Bool :=
  (s.secs.chn c).dpc != 0 && s.bankOn c && !s.on F.DRC_CFG_PRESENT c && !s.on F.DRC_CFG_EXCLUDED c

/-- R266: training of a channel ends. -/
def execChannelTrainDone (c : Fin 16) (t : TrainReport) (x : ChanReading) (s : State) : Outcome :=
  onDie s (fun s =>
    if s.training c then s.trained c t x else s)

/-- R267: a rank is retracked, with no interruption to traffic: no state of the block that the spec names changes. -/
def execRetrack (_c : Fin 16) (_r : Fin 4) (s : State) : Outcome := onDie s (fun s => s)

/-- R269: a PMIC fault or power-good loss of a DIMM: its ranks go offline, and their requests fail. A wake under way is
abandoned. -/
def State.pmicFault (s : State) (c d : Nat) : State :=
  let mine := (List.range 4).filter (fun r => s.rankUp c r && s.dimmOf c r == d)
  if mine.isEmpty then s
  else
    let keep := fun (a : LineAcc) => !mine.contains (claRank (s.target c a.cla).1)
    let s := s.onChan c (fun x => { x with wait := x.wait.filter keep, inq := x.inq.filter keep, bq := x.bq.filter keep,
                                           issued := x.issued.filter keep })
    let s := s.forEach mine (fun s r =>
      (s.wr F.DRC_RANK_STATUS_STATE rankOFFLINE c r).record 0x40 2 rasDRC c c r)
    let s := (s.moduleEvent 0).bump F.DRC_ERR_PMIC_FAULT 1 c
    (((s.set F.DRC_IRQ_PMIC c).showDrain c).showRef c).showRt c

def execPmicFault (c : Fin 16) (d : Fin 2) (s : State) : Outcome := onDie s (fun s => s.pmicFault c d)

/-! ### Error counters (R279) -/

/-- R279: every device counter of a rank is halved. -/
def execCeLeak (c : Fin 16) (r : Fin 4) (s : State) : Outcome :=
  onDie s (fun s =>
    let v := s.rd F.DRC_ECC_RANK_DEVCE_DEVCE c r
    s.wr F.DRC_ECC_RANK_DEVCE_DEVCE ((List.range 10).foldl (fun a d => a + bits v (6 * d + 5) (6 * d) / 2 * 2 ^ (6 * d)) 0) c r)

/-! ### The scrubber (R280 to R283) -/

/-- R280: a chunk is in scrub scope: it is reserved, or neither FREE nor UNUSED. -/
def State.chunkScrubbed (s : State) (g : Group) (k : Nat) : Bool :=
  g.chunks - s.resvOf g ≤ k || (let st := (s.chunk (g.base + k)).state; st != ckFREE && st != ckUNUSED)

/-- R280: the lines of one unit of CHN GRAN at rank-local offset `u` × GRAN of a channel are in scope. -/
def State.unitScrubbed (s : State) (g : Group) (c u : Nat) : Bool :=
  let gran := s.secs.gran
  let o := (u * g.chans.length + g.chans.findIdx (· == c)) * gran
  s.chunkScrubbed g (o / 2097152)

/-- The first unit from `u` on that is in scope; the first argument bounds the search. -/
def State.nextUnit (s : State) (g : Group) (c : Nat) : Nat → Nat → Option Nat
  | 0, _ => none
  | n + 1, u => if s.unitScrubbed g c u then some u else s.nextUnit g c n (u + 1)

/-- R281: the first line in scope from rank-local line `l` of a rank on; spare lines are not visited (R284). -/
def State.nextLine (s : State) (c : Nat) (g : Group) (l : Nat) : Option Nat :=
  let per := s.secs.gran / 64
  let top := match s.spareBase c with
    | some b => if b / 2 ^ 36 = g.r then b % 2 ^ 36 else g.size / 64
    | none => g.size / 64
  if top ≤ l then none
  else if s.unitScrubbed g c (l / per) then some l
  else match s.nextUnit g c (g.size / s.secs.gran - (l / per + 1)) (l / per + 1) with
    | none => none
    | some u => if u * per < top then some (u * per) else none

/-- R281: lines in scope of a rank of a channel. -/
def State.scopeLines (s : State) (c : Nat) (g : Group) : Nat :=
  ((List.range (g.size / s.secs.gran)).filter (fun u => s.unitScrubbed g c u)).length * (s.secs.gran / 64)

/-- The awake ranks of a channel, rising. -/
def State.awakeRanks (s : State) (c : Nat) : List Group :=
  (List.range 4).filterMap (fun r => (awake s.map.groups).find? (fun g => g.r == r && g.chans.contains c))

/-- R281: the first awake line in scope from a CLA on. -/
def State.nextAwake (s : State) (c cla : Nat) : Option Nat :=
  (s.awakeRanks c).findSome? (fun g =>
    if g.r < cla / 2 ^ 36 then none
    else (s.nextLine c g (if g.r = cla / 2 ^ 36 then cla % 2 ^ 36 else 0)).map (fun l => g.r * 2 ^ 36 + l))

/-- R281: a pass over the awake ranks begins. -/
def State.startPass (s : State) (c : Nat) : State :=
  let n := ((s.awakeRanks c).map (s.scopeLines c)).sum
  let step := if n = 0 then 0 else s.rd F.DRC_SCRUB_CTL_PERIOD_H c * 14400000000000 / n / 2 * 2
  let s := s.onChan c (fun x => { x with passN := n, passFrom := s.time.cclk })
  (s.wr F.DRC_SCRUB_STAT_STEP step c).wr F.DRC_SCRUB_CUR_CLA ((s.nextAwake c 0).getD 0) c

/-- R281: a pass over the awake ranks ends. -/
def State.endPass (s : State) (c : Nat) : State :=
  let secs := (s.time.cclk - (s.chan c).passFrom) / 2000000000
  let s := (s.add F.DRC_SCRUB_PASS_PASSES 1 c).wr F.DRC_SCRUB_PASS_LAST_S secs c
  (s.onChan c (fun x => { x with passN := 0 })).clear F.DRC_SCRUB_CUR_CLA c

/-- R281, R347: the scrubber checks the next awake line in scope; not at Floor 4. -/
def execScrubStep (c : Fin 16) (s : State) : Outcome :=
  onDie s (fun s =>
    if !s.on F.DRC_CFG_PRESENT c || s.rd F.PWR_STATUS_FLOOR == 4 then s
    else
      let s := if (s.chan c).passN = 0 then s.startPass c else s
      match s.nextAwake c (s.rd F.DRC_SCRUB_CUR_CLA c) with
      | none => s.endPass c
      | some cla =>
        let s := s.postLine c cla false 89
        match s.nextAwake c (cla + 1) with
        | some n => s.wr F.DRC_SCRUB_CUR_CLA n c
        | none => s.endPass c)

/-- The Loft ranks of a channel, rising. -/
def State.loftRanks (s : State) (c : Nat) : List Group :=
  (List.range 4).filterMap (fun r => s.map.groups.find? (fun g => g.r == r && g.loft && g.chans.contains c))

/-- R281, R282: a Loft rank's cursor advances over one line; at the end of the pass FORCED clears. -/
def State.loftStep (s : State) (c : Nat) (g : Group) : State :=
  let begin := fun (s : State) =>
    if (s.chan c).passing.contains g.r then s
    else (s.wr F.DRC_SCRUB_RANK_ST_PASS_ST s.st c g.r).onChan c (fun x => { x with passing := x.passing ++ [g.r] })
  let done := fun (s : State) =>
    let s := (s.clear F.DRC_SCRUB_RANK_CUR_CURSOR c g.r).clear F.DRC_SCRUB_RANK_CUR_FORCED c g.r
    let later := ((s.loftRanks c).map (·.r)).find? (fun r => g.r < r)
    s.onChan c (fun x => { x with passing := x.passing.filter (· != g.r),
                                  loftAt := if x.loftAt = g.r then later.getD (((s.loftRanks c).map (·.r)).headD 0) else x.loftAt })
  let s := begin s
  match s.nextLine c g (s.rd F.DRC_SCRUB_RANK_CUR_CURSOR c g.r) with
  | none => done s
  | some l =>
    let s := (s.rouse c g.r).postLine c (g.r * 2 ^ 36 + l) false 89
    match s.nextLine c g (l + 1) with
    | some n => s.wr F.DRC_SCRUB_RANK_CUR_CURSOR n c g.r
    | none => done s

/-- R281, R282: every WIN_STEP: the rank under a forced scrub goes on, else the rank that the open window has reached. -/
def execScrubWindowStep (c : Fin 16) (s : State) : Outcome :=
  onDie s (fun s =>
    let ranks := s.loftRanks c
    match ranks.find? (fun g => s.on F.DRC_SCRUB_RANK_CUR_FORCED c g.r) with
    | some g => s.loftStep c g
    | none =>
      if !s.windowOpen 2 c then s
      else match ranks.find? (fun g => (s.chan c).loftAt ≤ g.r) with
        | some g => s.loftStep c g
        | none => match ranks with
          | [] => s
          | g :: _ => s.loftStep c g)

/-- R282: a rank's pass has run for 90 % of the maximum period. -/
def execScrubForce (c : Fin 16) (r : Fin 4) (s : State) : Outcome :=
  onDie s (fun s =>
    if (s.loftRanks c).any (fun g => g.r == r.val) then
      ((s.rouse c r).set F.DRC_SCRUB_RANK_CUR_FORCED c r).set F.DRC_ECC_IRQ_SCRUB_FORCED c
    else s)

/-! ### Remap (R284) -/

/-- States of a remap entry. -/
def rmFREE : Nat := 0
def rmCOPYING : Nat := 1
def rmACTIVE : Nat := 2

/-- R284: a line lies in the channel's spare region. -/
def State.inSpare (s : State) (c cla : Nat) : Bool :=
  match s.spareBase c with
  | none => false
  | some b => b ≤ cla && cla < b + 32768

/-- R284: another entry uses the original line or the spare line. -/
def State.remapTaken (s : State) (c k : Nat) : Bool :=
  (List.range 16).any (fun j => j != k && s.rd F.DRC_REMAP_0_STATE c j != rmFREE &&
    (s.rd F.DRC_REMAP_0_ORIG_CLA c j == s.rd F.DRC_REMAP_0_ORIG_CLA c k ||
      s.rd F.DRC_REMAP_1_SPARE c j == s.rd F.DRC_REMAP_1_SPARE c k))

/-- R284, steps 1 to 4: the copy's read follows the requests to the line that were accepted earlier. -/
def State.install (s : State) (c k : Nat) : State :=
  let orig := s.rd F.DRC_REMAP_0_ORIG_CLA c k
  match s.spareBase c with
  | none => s.wr F.DRC_REMAP_1_RESULT 2 c k
  | some b =>
    if s.inSpare c orig || s.remapTaken c k || s.rd F.DRC_REMAP_0_STATE c k != rmFREE then s.wr F.DRC_REMAP_1_RESULT 1 c k
    else
      let s := (s.wr F.DRC_REMAP_0_GEN (if s.rd F.DRC_REMAP_0_GEN c k = 1 then 2 else 1) c k).wr F.DRC_REMAP_0_STATE rmCOPYING c k
      let read : LineAcc := { cla := orig, write := false, master := 80, at_ := s.time.cclk, prio := 0, rt := none, txn := none }
      let s := (s.touchRank c (claRank orig)).touchRank c (claRank b)
      (s.onChan c (fun x => { x with inq := x.inq ++ [read] })).charge 80 |>.fillBanks c

/-- R284, steps 4 and 5: the original line has been read, and the copy ends, good or poisoned. -/
def execRemapInstallDone (c : Fin 16) (k : Fin 16) (s : State) : Outcome :=
  onDie s (fun s =>
    let orig := s.rd F.DRC_REMAP_0_ORIG_CLA c k
    if s.rd F.DRC_REMAP_0_STATE c k != rmCOPYING || (s.chan c).queued.any (fun a => a.cla == orig) then s
    else
      let s := s.postLine c ((s.spareBase c).getD 0 + s.rd F.DRC_REMAP_1_SPARE c k) true 80
      let (d, cause) := s.peekLine c orig
      let s := s.wr F.DRC_REMAP_0_STATE rmACTIVE c k
      let s := if cause = 0 then s.storeLine c orig d else s.poisonLine c orig
      (s.wr F.DRC_REMAP_1_RESULT 0 c k).set F.DRC_ECC_IRQ_REMAP_DONE c)

/-- R284: an ACTIVE entry is retired: the spare line is copied back with GEN 0. -/
def State.retire (s : State) (c k : Nat) : State :=
  if s.rd F.DRC_REMAP_0_STATE c k != rmACTIVE then s
  else
    let orig := s.rd F.DRC_REMAP_0_ORIG_CLA c k
    let (d, cause) := s.peekLine c orig
    let s := s.postLine c orig false 80
    let s := (s.wr F.DRC_REMAP_0_STATE rmFREE c k).postLine c orig true 80
    let s := if cause = 0 then s.storeLine c orig d else s.poisonLine c orig
    (s.wr F.DRC_REMAP_1_RESULT 0 c k).set F.DRC_ECC_IRQ_REMAP_DONE c

/-! ### Post-package repair (R285) -/

/-- The rank-local lines of the row that DRC_PPR names, by the inverse of R250. -/
def State.pprLines (s : State) (c : Nat) : List Nat :=
  let chn := s.secs.chn c
  let row := s.rd F.DRC_PPR_ROW c
  let q := s.rd F.DRC_PPR_CHIP c * chn.rows + row
  let bgr := s.rd F.DRC_PPR_BG c ^^^ (row % 8)
  let low := s.rd F.DRC_PPR_SUB c * 8 + bgr * 16
  if chn.width = 8 then
    (List.range 8).flatMap (fun h => (List.range 8).map (fun l =>
      q * 2 ^ 12 + s.rd F.DRC_PPR_BANK c * 2 ^ 10 + h * 2 ^ 7 + low + l))
  else
    (List.range 16).flatMap (fun h => (List.range 8).map (fun l =>
      q * 2 ^ 13 + s.rd F.DRC_PPR_BANK c * 2 ^ 11 + h * 2 ^ 7 + low + l))

/-- A repair ends with a result. -/
def State.pprEnd (s : State) (c result : Nat) : State :=
  ((s.wr F.DRC_PPR_CMD_RESULT result c).set F.DRC_PPR_CMD_DONE c).set F.DRC_ECC_IRQ_PPR_DONE c

/-- R285: a repair is requested: 1 soft, 2 hard. A hard repair runs only while the channel trains. -/
def State.repair (s : State) (c type : Nat) : State :=
  if (s.chan c).ppr.isSome then s.wr F.DRC_PPR_CMD_RESULT 4 c
  else if type = 2 && !s.training c then s.pprEnd c 2
  else
    let s := (s.clear F.DRC_PPR_CMD_DONE c).clear F.DRC_PPR_CMD_RESULT c
    let s := s.onChan c (fun x => { x with ppr := some type })
    if type = 1 then
      let r := s.rd F.DRC_PPR_RANK c * 2 ^ 36
      s.forEach (s.pprLines c) (fun s l =>
        if (s.remapOf c (r + l)).isSome then s else (s.postLine c (r + l) false 80).postLine c (r + l) true 80)
    else s

/-- R285: a repair ends. After a soft one, lines of the row that failed to decode are written back poisoned. -/
def execPprDone (c : Fin 16) (result : BitVec 2) (s : State) : Outcome :=
  onDie s (fun s =>
    match (s.chan c).ppr with
    | none => s
    | some type =>
      let r := s.rd F.DRC_PPR_RANK c * 2 ^ 36
      let line := fun (s : State) (l : Nat) =>
        let cla := r + l
        if (s.remapOf c cla).isSome then s
        else
          let o := (s.decodeRaw c cla (s.rawLine c cla)).out
          if o = .uncorrectable ∨ o = .addressFault then s.poisonLine c cla else s
      -- 1 no spare row: nothing changes; 3 timeout
      let code := if result = 1 then 1 else if result = 3 then 3 else 0
      let s := if type = 1 && code != 1 then s.forEach (s.pprLines c) line else s
      (s.onChan c (fun x => { x with ppr := none })).pprEnd c code)

/-! ### The DRC registers -/

/-- R281: the maximum scrub period in force. -/
def State.maxPeriod (s : State) : Nat := s.secs.limitVal 1

/-- The fields of a DRC register after a write, in their ranges. -/
def State.drcRanges (s : State) (off : Nat) (was : State) : State :=
  let fix := fun (s : State) (f : Field) (g : Nat → Nat) =>
    match f.at off with
    | some (c, j) => s.wr f (g (s.rd f c j)) c j
    | none => s
  let s := match F.DRC_SCHED_WR_LO.at off with
    | some (c, _) => if s.rd F.DRC_SCHED_WR_HI c ≤ s.rd F.DRC_SCHED_WR_LO c then
        s.wr F.DRC_SCHED_WR_LO (s.rd F.DRC_SCHED_WR_HI c - 1) c else s
    | none => s
  let s := fix s F.DRC_REF_PHASE_OFS (fun v => v % 15600 / 2 * 2)
  let s := fix s F.DRC_PARK_PARK_MAX_MS (fun v => clamp 1 (((s.secs.limo.find? (·.1 == 6)).map (·.2)).getD 8000) v)
  let s := fix s F.DRC_SCRUB_CTL_WIN_STEP (fun v => clamp 20 65534 (v / 2 * 2))
  let s := fix s F.DRC_SCRUB_CTL_PERIOD_H (fun v => clamp 1 s.maxPeriod v)
  let s := fix s F.DRC_ECC_RANK_THR_LEAK_H (fun v => max 1 v)
  let s := fix s F.DRC_ECC_RANK_THR_DEV_THR (fun v => max 1 v)
  let s := match F.DRC_ECC_RANK_MARK_MARK_DEV.at off with
    | some (c, r) => if (if s.x8 c then 5 else 10) ≤ s.rd F.DRC_ECC_RANK_MARK_MARK_DEV c r then
        s.wr F.DRC_ECC_RANK_MARK_MARK_DEV 0xF c r else s
    | none => s
  let s := match F.DRC_RANK_CTL_PARK_EN.at off with
    | some (c, r) => if s.secs.loftRank c r then s else s.clear F.DRC_RANK_CTL_PARK_EN c r
    | none => s
  let s := match F.DRC_REMAP_0_ORIG_CLA.at off with
    | some (c, k) => if s.rd F.DRC_REMAP_0_STATE c k = rmFREE then s
        else s.wr F.DRC_REMAP_0_ORIG_CLA (was.rd F.DRC_REMAP_0_ORIG_CLA c k) c k
    | none => s
  match F.DRC_REMAP_1_SPARE.at off with
  | some (c, k) => if s.rd F.DRC_REMAP_0_STATE c k = rmFREE then s
      else s.wr F.DRC_REMAP_1_SPARE (was.rd F.DRC_REMAP_1_SPARE c k) c k
  | none => s

/-- R271, R287: a write of a DRC register: its fields in their ranges, and the command that it carries. -/
def State.writeDrc (s : State) (who : Initiator) (off v : Nat) : State :=
  let s := (s.writeWord who off v).drcRanges off s
  let s := match F.DRC_REF_SCALE.at off, F.DRC_RT_U1.at off, F.DRC_SCHED_WR_HI.at off with
    | some (c, _), _, _ => s.showRef c
    | _, some (c, _), _ => s.showRt c
    | _, _, some (c, _) => s.showDrain c
    | _, _, _ => s
  match F.DRC_RANK_CTL_CMD.at off, F.DRC_REMAP_1_CMD.at off, F.DRC_PPR_CMD_TYPE.at off with
  | some (c, r), _, _ =>
    match bits v 33 32 with
    | 1 => s.park c r
    | 2 => s.rouse c r
    | _ => s
  | _, some (c, k), _ =>
    match bits v 17 16 with
    | 1 => s.install c k
    | 2 => s.retire c k
    | _ => s
  | _, _, some (c, _) => if v % 4 = 1 || v % 4 = 2 then s.repair c (v % 4) else s
  | _, _, _ => s

/-- R258: a write of PARK to CTL.CMD. -/
def execRankPark (who : Initiator) (c : Fin 16) (r : Fin 4) (v : BitVec 64) (s : State) : Outcome :=
  let off := F.DRC_RANK_CTL_CMD.addr c r
  onDie s (fun s => barWrite s who off (fun s => s.writeDrc who off (setBits v.toNat 33 32 1)))

/-- R260: a write of WAKE to CTL.CMD. -/
def execRankWake (who : Initiator) (c : Fin 16) (r : Fin 4) (v : BitVec 64) (s : State) : Outcome :=
  let off := F.DRC_RANK_CTL_CMD.addr c r
  onDie s (fun s => barWrite s who off (fun s => s.writeDrc who off (setBits v.toNat 33 32 2)))

/-- R284: a write of 1 to DRC_REMAPk.CMD. -/
def execRemapInstall (who : Initiator) (c : Fin 16) (k : Fin 16) (v : BitVec 64) (s : State) : Outcome :=
  let off := F.DRC_REMAP_1_CMD.addr c k
  onDie s (fun s => barWrite s who off (fun s => s.writeDrc who off (setBits v.toNat 17 16 1)))

/-- R284: a write of 2 to DRC_REMAPk.CMD. -/
def execRemapRetire (who : Initiator) (c : Fin 16) (k : Fin 16) (v : BitVec 64) (s : State) : Outcome :=
  let off := F.DRC_REMAP_1_CMD.addr c k
  onDie s (fun s => barWrite s who off (fun s => s.writeDrc who off (setBits v.toNat 17 16 2)))

/-- R285: a write of TYPE 1 to DRC_PPR_CMD. -/
def execPprSoft (who : Initiator) (c : Fin 16) (s : State) : Outcome :=
  let off := F.DRC_PPR_CMD_TYPE.addr c 0
  onDie s (fun s => barWrite s who off (fun s => s.writeDrc who off 1))

/-- R285: a write of TYPE 2 to DRC_PPR_CMD. -/
def execPprHard (who : Initiator) (c : Fin 16) (s : State) : Outcome :=
  let off := F.DRC_PPR_CMD_TYPE.addr c 0
  onDie s (fun s => barWrite s who off (fun s => s.writeDrc who off 2))

end Sys2Proof.Machine
end

