-- ==== Sys2Proof/Machine/Inlet.lean ====
section
/-!
DEFINITION. The inlet guard (R350 to R360, R422, R426, R427): its nine channels, and what the controller die makes of
their changes (R359).
-/

namespace Sys2Proof.Machine

/-! ### States of INL_CHc.STATUS.STATE (Table 15-5) -/

def inABSENT : Nat := 0
def inQUALIFY : Nat := 1
def inOFF : Nat := 2
def inREADY : Nat := 3
def inGRANTED : Nat := 4
def inRAMP : Nat := 5
def inON : Nat := 6
def inLIMIT : Nat := 7
def inTRIPPED : Nat := 8

def State.inlSt (s : State) (c : Nat) : Nat := s.rd F.INL_CH_STATUS_STATE 0 c

/-- The gate is on. -/
def State.gateOn (s : State) (c : Nat) : Bool := inRAMP ≤ s.inlSt c && s.inlSt c ≤ inLIMIT

/-- The output is up: ON, or an episode of LIMIT in it (log entry 40, DEDUCED). -/
def State.inlUp (s : State) (c : Nat) : Bool := s.inlSt c == inON || s.inlSt c == inLIMIT

/-- R352: a channel is enabled. -/
def State.inlEnabled (s : State) (c : Nat) : Bool := s.on F.INL_CH_CTL_EN 0 c && (c == 0 || s.inlUp 0)

def inlChans : List Nat := List.range 9
def inlBanks : List Nat := (List.range 8).map (· + 1)

/-- R352: the next channel becomes READY, if one may. -/
def State.inlNext (s : State) : State :=
  if inlChans.any (fun c => let st := s.inlSt c; st == inREADY || st == inGRANTED || st == inRAMP) then s
  else
    match inlChans.find? (fun c => s.inlEnabled c && s.inlSt c == inOFF) with
    | none => s
    | some c =>
      if c = 0 || s.inlSt 0 = inON then
        let s := s.wr F.INL_CH_STATUS_STATE inREADY 0 c
        if c != 0 && s.clocked then s.set F.INL_IRQ_READY else s
      else s

/-- R359: a bank's output is lost: the power-good loss of R269 on the DIMMs of its two channels. -/
def State.bankLost (s : State) (c : Nat) : State :=
  if s.stage = .running then
    s.forEach [2 * c - 2, 2 * c - 1] (fun s ch => (s.pmicFault ch 0).pmicFault ch 1)
  else s

/-- A channel takes a state with its gate off. -/
def State.gateOff (s : State) (c st : Nat) : State :=
  let up := s.inlUp c
  let s := s.wr F.INL_CH_STATUS_STATE st 0 c
  if up && c != 0 then s.bankLost c else s

/-- R352: INLET is down: banks that are not tripped go to OFF, and every bank's EN is cleared. -/
def State.banksDown (s : State) : State :=
  s.forEach inlBanks (fun s c =>
    (if s.inlSt c = inTRIPPED then s else s.gateOff c inOFF).clear F.INL_CH_CTL_EN 0 c)

/-- INLET takes a state with its gate off. -/
def State.inletOff (s : State) (st : Nat) : State :=
  let up := s.inlUp 0
  let s := s.gateOff 0 st
  if up then s.banksDown else s

/-- R43: the inlet die's copy of ST, at TALLY_CLK resolution (160 units). -/
def State.inletSt (s : State) : Nat := (s.inl.st + s.inl.since / 160 * 160) % 2 ^ 64

/-- R357: a channel trips; who is next in turn is not looked at. -/
def State.tripNow (s : State) (c cause : Nat) : State :=
  if !s.gateOn c then s
  else
    let s := if c = 0 then s.inletOff inTRIPPED else s.gateOff c inTRIPPED
    let s := (s.wr F.INL_CH_STATUS_CAUSE cause 0 c).set F.INL_CH_STATUS_TRIPMEM 0 c
    let s := (s.bump F.INL_CH_CNT_TRIPS 1 0 c).wr F.INL_CH_TRIP_ST_ST s.inletSt 0 c
    let armed := s.inl.armed.filter (· != c)
    let s := { s with inl := { s.inl with armed := armed, limited := s.inl.limited.filter (· != c) } }
    if s.clocked then
      let s := s.record 0x41 2 rasPWR c c cause
      if c = 0 then s else (s.moduleEvent 0).set F.INL_IRQ_TRIP
    else s

/-- R357: a channel trips. -/
def State.trip (s : State) (c cause : Nat) : State := (s.tripNow c cause).inlNext

/-- R351: a ramp starts. -/
def State.rampStart (s : State) (c : Nat) : State :=
  (s.wr F.INL_CH_STATUS_STATE inRAMP 0 c).bump F.INL_CH_CNT_CYCLES 1 0 c

/-- R358: the rising half of a toggle of a TRIPPED channel; `rested`: at least 1 s has passed since the trip, or since the
end of the qualification that found it tripped. -/
def State.toggleUp (s : State) (c : Nat) (rested : Bool) : State :=
  if !s.inl.armed.contains c then s
  else
    let s := { s with inl := { s.inl with armed := s.inl.armed.filter (· != c) } }
    if rested then (s.wr F.INL_CH_STATUS_STATE inOFF 0 c).clear F.INL_CH_STATUS_TRIPMEM 0 c else s

/-- R351, R352, R358: an enable goes on or off. -/
def State.inlEnable (s : State) (c : Nat) (on rested : Bool) : State :=
  let was := s.on F.INL_CH_CTL_EN 0 c
  let s := s.wr F.INL_CH_CTL_EN (b2n on) 0 c
  let st := s.inlSt c
  let s := if st = inTRIPPED then
      if on && !was then s.toggleUp c rested
      else if !on && was then { s with inl := { s.inl with armed := s.inl.armed.filter (· != c) ++ [c] } }
      else s
    else if on || st < inREADY then s
    else if c = 0 then s.inletOff inOFF else s.gateOff c inOFF
  s.inlNext

/-! ### Limits (R350) -/

/-- R350: a limit of Table 1-9 in force, in the units of the INL registers. -/
def State.inlMax (s : State) (limit : Nat) : Nat :=
  let v := s.secs.limitVal limit
  if limit = 3 then 10 * v else v

/-- R350: what a channel's LIMIT takes when the limits of a structure come into force. -/
def State.inlLimits (s : State) : State :=
  let now := [3, 4, 5, 7].map s.secs.limitVal
  let new := fun (k : Nat) => now.getD k 0 != s.inl.lims.getD k 0
  let s := s.forEach inlChans (fun s c =>
    let s := if new (if c = 0 then 0 else 1) then s.wr F.INL_CH_LIMIT_ILIM (s.inlMax (if c = 0 then 3 else 4)) 0 c else s
    let s := if new 2 then s.wr F.INL_CH_LIMIT_TLIM (s.inlMax 5) 0 c else s
    if c = 0 && new 3 then s.wr F.INL_CH_LIMIT_FAULT_US (s.inlMax 7) 0 c else s)
  { s with inl := { s.inl with lims := now } }

/-! ### Presence, standby and straps -/

/-- R426, R351: INLET enters QUALIFY, and the straps are sampled. -/
def State.qualify (s : State) (slot : Nat) (auto : Bool) : State :=
  if s.inl.standby && s.inl.present && s.inlSt 0 == inABSENT then
    ({ s with inl := { s.inl with slot := slot, auto := auto } }).wr F.INL_CH_STATUS_STATE inQUALIFY 0 0
  else s

def execPresenceLow (slot : BitVec 4) (auto : Bool) (s : State) : Outcome :=
  onInlet s (fun s => ({ s with inl := { s.inl with present := true } }).qualify slot.toNat auto)

/-- R351: 100 ms of qualification are over. `diode`: a remote pair reads well; `ta`: the inlet die's temperature in
0.25 °C (R356). -/
def execQualifyDone (diode : Bool) (ta : BitVec 16) (s : State) : Outcome :=
  onInlet s (fun s =>
    if s.inlSt 0 != inQUALIFY || !s.inl.present then s
    else
      let s := { s with inl := { s.inl with temp := (signed 16 ta.toNat : Rat) / 4, armed := [] } }
      let s := s.wr F.INL_CH_STATUS_TSRC (b2n diode) 0 0
      let s := s.forEach inlBanks (fun s c => s.set F.INL_CH_STATUS_TSRC 0 c)
      let s := s.forEach inlChans (fun s c =>
        if s.on F.INL_CH_STATUS_TRIPMEM 0 c then s.wr F.INL_CH_STATUS_STATE inTRIPPED 0 c
        else if c = 0 then s.wr F.INL_CH_STATUS_STATE inOFF 0 c else s)
      s.inlNext)

/-- R352, R422: every gate goes off and INLET returns to ABSENT; `st` is where banks go. -/
def State.inletAbsent (s : State) : State :=
  let s := s.inletOff inABSENT
  s.forEach inlBanks (fun s c => if s.inlSt c = inTRIPPED then s else s.gateOff c inOFF)

/-- R351, R352: in QUALIFY the input only restarts the time. -/
def execPresenceHigh (s : State) : Outcome :=
  onInlet s (fun s =>
    let s := { s with inl := { s.inl with present := false } }
    if s.inlSt 0 = inABSENT || s.inlSt 0 = inQUALIFY then s else s.inletAbsent)

/-- R358: the GUARD_EN pin changes. -/
def execGuardEnChange (level rested : Bool) (s : State) : Outcome :=
  onInlet s (fun s => s.inlEnable 0 level rested)

def execStandbyLoss (s : State) : Outcome :=
  onInlet s (fun s =>
    let s := s.inletAbsent
    let s := s.forEach inlBanks (fun s c => s.wr F.INL_CH_STATUS_STATE inOFF 0 c)
    { s with inl := { s.inl with standby := false, tally := false, locked := false, good := 0 } })

/-- R360: the INL fields take their reset values; trip memory stays if the cell has held it (R357). -/
def State.inlReset (s : State) (retained : Bool) : State :=
  let mem := inlChans.filter (fun c => retained && s.on F.INL_CH_STATUS_TRIPMEM 0 c)
  let en := s.rd F.INL_CH_CTL_EN 0 0
  let fs := Field.all.filter (fun f => f.dom == .inlet)
  let s := s.forEach fs (fun s f => s.forEach inlChans (fun s c => s.wr f (f.resetAt 0 c) 0 c))
  let s := s.wr F.INL_CH_CTL_EN en 0 0
  let s := s.forEach mem (fun s c => s.set F.INL_CH_STATUS_TRIPMEM 0 c)
  let s := s.forEach inlChans (fun s c =>
    let s := (s.wr F.INL_CH_LIMIT_ILIM (s.inlMax (if c = 0 then 3 else 4)) 0 c).wr F.INL_CH_LIMIT_TLIM (s.inlMax 5) 0 c
    let s := s.wr F.INL_CH_LIMIT_FAULT_US (if c = 0 then s.inlMax 7 else 2000) 0 c
    if c = 0 then s else s.wr F.INL_CH_STATUS_STATE inOFF 0 c)
  { s with inl := { s.inl with lims := [3, 4, 5, 7].map s.secs.limitVal, limited := [], armed := [] } }

def execStandbyRise (slot : BitVec 4) (auto retained : Bool) (s : State) : Outcome :=
  onInlet s (fun s =>
    if s.inl.standby then s
    else
      let s := s.inlReset retained
      let s := { s with inl := { s.inl with standby := true, slot := slot.toNat, auto := auto, st := 0, since := 0, lastDiff := none } }
      s.qualify slot.toNat auto)

/-! ### Ramps, limits and trips -/

/-- R353, R43: a TALLY_CLK rising edge whose ST is at or after the granted start of INLET. -/
def execInletRampStart (s : State) : Outcome :=
  onInlet s (fun s =>
    if s.inlSt 0 = inGRANTED ∧ 0 ≤ signed 64 ((s.inletSt + 2 ^ 64 - s.inl.grant % 2 ^ 64) % 2 ^ 64) then s.rampStart 0 else s)

/-- R353: with GUARD_AUTO and no Tally, a READY channel starts its own ramp. -/
def execAutoRamp (c : Fin 9) (s : State) : Outcome :=
  onInlet s (fun s => if s.inlSt c = inREADY ∧ s.inl.auto ∧ s.inl.tally = false then s.rampStart c else s)

def execRampDone (c : Fin 9) (s : State) : Outcome :=
  onInlet s (fun s =>
    if s.inlSt c != inRAMP then s
    else
      let s := s.wr F.INL_CH_STATUS_STATE inON 0 c
      (s.when (c.val != 0 && s.clocked) (fun s => s.set F.INL_IRQ_ON)).inlNext)

def execRampFault (c : Fin 9) (s : State) : Outcome :=
  onInlet s (fun s => if s.inlSt c = inRAMP then s.trip c 3 else s)

/-- R351, R355: the current reaches the limit. -/
def execCurrentLimit (c : Fin 9) (s : State) : Outcome :=
  onInlet s (fun s =>
    if s.inlSt c != inON then s
    else
      let s := { s with inl := { s.inl with limited := s.inl.limited.filter (· != c.val) ++ [c.val] } }
      let s := s.wr F.INL_CH_STATUS_STATE inLIMIT 0 c
      s.when s.clocked (fun s => s.set F.INL_IRQ_LIMIT))

def execLimitExit (c : Fin 9) (s : State) : Outcome :=
  onInlet s (fun s => if s.inlSt c = inLIMIT then (s.wr F.INL_CH_STATUS_STATE inON 0 c).inlNext else s)

def execFaultTimeExpire (c : Fin 9) (s : State) : Outcome :=
  onInlet s (fun s => if s.inlSt c = inLIMIT ∧ s.inl.limited.contains c.val then s.trip c 4 else s)

def execFaultTimerClear (c : Fin 9) (s : State) : Outcome :=
  onInlet s (fun s =>
    if s.inlSt c = inON then { s with inl := { s.inl with limited := s.inl.limited.filter (· != c.val) } } else s)

def execFastTrip (c : Fin 9) (s : State) : Outcome := onInlet s (fun s => s.trip c 1)

def execFetOvertemp (c : Fin 9) (s : State) : Outcome := onInlet s (fun s => s.trip c 2)

/-- R427: INLET and every bank with its gate on trip. -/
def execInletDieOvertemp (s : State) : Outcome :=
  onInlet s (fun s => (s.forEach (inlBanks ++ [0]) (fun s c => s.tripNow c 2)).inlNext)

/-- R356: one update of the thermal model of INLET, from the current in 0.01 A, the voltages in mV, and the inlet die's
temperature in 0.25 °C. With TAU_US 0 the rule gives no value: it is a free one. -/
def execThermalModelUpdate (iout vin vout ta : BitVec 16) (s : State) : Outcome :=
  onInlet s (fun s =>
    let s := (s.wr F.INL_CH_MEAS_IOUT iout.toNat 0 0).wr F.INL_CH_MEAS_VIN vin.toNat 0 0
    let s := s.wr F.INL_CH_MEAS_VOUT vout.toNat 0 0
    if !s.inl.standby || s.on F.INL_CH_STATUS_TSRC 0 0 then s
    else
      let t := s.inl.temp
      let p : Rat := (iout.toNat : Rat) * ((vin.toNat : Rat) - vout.toNat) / 100000
      let rth : Rat := (s.rd F.INL_CH_MODEL_RTH 0 0 : Rat) / 1000
      let tau := s.rd F.INL_CH_MODEL_TAU_US 0 0
      let (free, s) := if tau = 0 then s.draw else (0, s)
      let t := if tau = 0 then (free : Rat)
        else t + (p * rth - (t - (signed 16 ta.toNat : Rat) / 4)) * 10 / tau
      let s := { s with inl := { s.inl with temp := t } }
      let s := s.wr F.INL_CH_MEAS_TFET (unsigned 16 (t * 4).floor) 0 0
      if (s.rd F.INL_CH_LIMIT_TLIM 0 0 : Rat) ≤ t then s.trip 0 2 else s)

/-- Table 15-11: what INL_CHc.MEAS shows besides what the thermal model was last given is what the sensors measure: free
values. -/
def State.showMeas (s : State) (c : Nat) : State :=
  let (i, s) := s.draw
  let (v, s) := s.draw
  let (w, s) := s.draw
  let (t, s) := s.draw
  let s := (s.wr F.INL_CH_MEAS_IOUT i 0 c).wr F.INL_CH_MEAS_VOUT v 0 c
  let s := if c = 0 then s.wr F.INL_CH_MEAS_VIN w 0 c else s
  if s.on F.INL_CH_STATUS_TSRC 0 c then s.wr F.INL_CH_MEAS_TFET t 0 c else s

/-! ### The INL registers -/

/-- R359: a write of 0 to EN takes effect. -/
def State.mayDisable (s : State) (c : Nat) : Bool :=
  !s.inlUp c || (!s.on F.DRC_CFG_PRESENT (2 * c - 2) && !s.on F.DRC_CFG_PRESENT (2 * c - 1))

/-- Tables 15-11 and 15-12: a write of an INL register. -/
def State.writeInl (s : State) (who : Initiator) (off v : Nat) (rested : Bool) : State :=
  match F.INL_CH_CTL_EN.at off, F.INL_CH_LIMIT_ILIM.at off with
  | some (_, c), _ =>
    let s := s.wr F.INL_CH_CTL_RAMP (clamp 1 100 (F.INL_CH_CTL_RAMP.of v)) 0 c
    if c = 0 then s
    else if v.testBit 0 || s.mayDisable c then s.inlEnable c (v.testBit 0) rested
    else s
  | _, some (_, c) =>
    let s := s.wr F.INL_CH_LIMIT_ILIM (clamp (if c = 0 then 500 else 50) (s.inlMax (if c = 0 then 3 else 4))
      (F.INL_CH_LIMIT_ILIM.of v)) 0 c
    let s := s.wr F.INL_CH_LIMIT_TLIM (clamp 85 (s.inlMax 5) (F.INL_CH_LIMIT_TLIM.of v)) 0 c
    if c = 0 then s.wr F.INL_CH_LIMIT_FAULT_US (clamp 100 (s.inlMax 7) (F.INL_CH_LIMIT_FAULT_US.of v)) 0 c else s
  | _, _ => s.writeWord who off v

/-- R359: a write of CTL of a bank. `rested`: at least 1 s has passed since its trip (R358). -/
def execBankEnWrite (who : Initiator) (bank : Fin 8) (v : BitVec 64) (rested : Bool) (s : State) : Outcome :=
  let off := F.INL_CH_CTL_EN.addr 0 (bank + 1)
  onDie s (fun s => barWrite s who off (fun s => s.writeInl who off v.toNat rested))

end Sys2Proof.Machine
end

