-- ==== Sys2Proof/Machine/PageMap.lean ====
section
/-!
DEFINITION. The commands of the page map (chapter 4): lookups and fills at the map slices, the AGE sweep, promotion,
space exhaustion, page access through MAP_PME_OP, and the twin table's configuration.
-/

namespace Sys2Proof.Machine

/-! ### Map slices -/

/-- R90: the lookup of TT entry `tt` of a home reaches the slice. -/
def execMaprd (home : Fin 16) (tt : BitVec 8) (s : State) : Outcome :=
  onDie s (fun s =>
    match s.map.reqs.find? (fun r => r.home == home.val && r.tt == tt.toNat && r.st == .flight) with
    | none => s
    | some r => s.lookup r)

/-- R189: the MAPWR of an entry (log entry 114, DESIGN CHOICE). -/
def mapwrFlight (p pme : Nat) : Flight :=
  ⟨opMAPWR, .ep (pageSlice p), { line := BitVec.ofNat 40 (64 * p), data := BitVec.ofNat 512 pme }⟩

/-- R89: an entry's new bits are written at the page's slice, once its domain takes them (R207, R208). Reserved bits that are
not zero make the entry lost (R87). -/
def execMapwr (page : BitVec 34) (pme : BitVec 128) (s : State) : Outcome :=
  onDie s (fun s =>
    let f := mapwrFlight page.toNat pme.toNat
    if s.secs.pages ≤ page.toNat || (s.dom (pageSlice page.toNat)).held.any (fun x => x.2 == f) then s
    else s.arrive f (fun s =>
      let x := Pme.ofWord pme.toNat
      let s := (s.setPme page.toNat x).unlose page.toNat
      s.when (x.word != pme.toNat) (fun s => { s with map := { s.map with broken := s.map.broken ++ [page.toNat] } })))

/-- R189: the MAPLINE of a line of the map or of the twin table (log entry 114, DESIGN CHOICE). -/
def maplineFlight (twin : Bool) (m : Nat) : Flight := ⟨opMAPLINE, .ep (m % 16), { line := BitVec.ofNat 40 m, noown := twin }⟩

/-- R89: a map line arrives at its slice, readable or not; the lookups that waited for it proceed in arrival order. A
twin entry that does not decode is taken as invalid (log entry 24, DESIGN CHOICE). -/
def execMapline (twin : Bool) (m : BitVec 34) (ok : Bool) (s : State) : Outcome :=
  onDie s (fun s =>
    let tag : MapTag := ⟨twin, m.toNat, false⟩
    let f := maplineFlight twin m.toNat
    let ok := ok && !s.noc.bad.contains f
    if !s.map.fills.any (fun t => t.same tag) then s
    else
      let s := { s with noc := { s.noc with bad := s.noc.bad.erase f } }
      let s := { s with map := { s.map with fills := s.map.fills.filter (fun t => !t.same tag) } }
      let master := ((s.map.reqs.find? (fun r => r.st == .fillWait && r.line / 256 == m.toNat)).map (·.master)).getD 80
      let s := s.mapFill tag master
      let s := if ok then s
        else if twin then s.putTwin m.toNat { s.twin m.toNat with valid := false }
        else
          let ps := ((List.range 4).map (fun i => 4 * m.toNat + i)).filter (fun p => !s.map.lost.contains p)
          { s with map := { s.map with lost := s.map.lost ++ ps } }
      let waiting := s.map.reqs.filter (fun r => r.st == .fillWait && r.line / 256 == m.toNat && !twin)
      (s.forEach waiting (fun s r =>
        if s.pageWaits (r.line / 64) then s.parkReq r .busyWait
        else s.during (s.txnOfReq r) (fun s => s.lookupIn r))).serveQueues)

/-! ### MAP registers with effects -/

/-- R89: write back every modified line. -/
def State.mapFlushAll (s : State) : State :=
  s.forEach (s.map.cache.filter (·.dirty)) (fun s t => s.mapWriteBack t 80)

/-- R101: the twin table takes `n` chunks, in full or not at all. -/
def State.twinChunks (s : State) (n : Nat) : State :=
  if s.on F.MAP_TIERCNT_PAGES 0 5 then s
  else
    let back := s.forEach s.map.twinChunks (fun s c => s.setChunk c {})
    let tags := back.map.cache.filter (fun t => !t.twin)
    let back := { back with map := { back.map with twinChunks := [], twins := [], cache := tags } }
    match (List.range (min n 4096)).foldl (fun (a : Option State) _ => a.bind (fun s => s.grantNow .twin)) (some back) with
    | none => s
    | some s =>
      let (k, s) := s.draw
      let s := { s with map := { s.map with twinKey := k % 2 ^ 256 } }
      s.wr F.MAP_TWIN_CFG_CHUNKS (min n 4096)

/-- R91: start a sweep. -/
def State.sweepStart (s : State) : State :=
  if s.on F.MAP_AGE_CTL_BUSY then s else (s.set F.MAP_AGE_CTL_BUSY).set F.MAP_AGE_CTL_SWEEP

/-- R91: the sweep's update of a BUSY page waits in the page-wait queue, and the sweep with it. -/
def State.sweepHeld (s : State) : Bool := s.map.reqs.any (fun r => r.home == sweepHome)

/-- R91: the sweep visits one map line, through its slice: a page is raised, or its update waits behind what waits for the
page. Unlisted entries rise as `sweepAt` passes them. -/
def State.sweepLine (s : State) : State :=
  if s.sweepHeld then s
  else
    let m := s.map.sweepAt
    let olds := (List.range 4).map (fun i => (4 * m + i, s.pme (4 * m + i)))
    let s := (s.mapTouch ⟨false, m, true⟩ 80)
    let s := { s with map := { s.map with sweepAt := m + 1 } }
    s.forEach olds (fun s x =>
      if s.pageWaits x.1 then
        (s.putPme x.1 x.2).sendReq { home := sweepHome, tt := x.1 % 4, write := false, line := 64 * x.1, data := 0, mask := 0,
                                     poison := false, master := 80, agent := 80, st := .busyWait }
      else s.putPme x.1 { x.2 with age := min 255 (x.2.age + 1) })

/-- R91: the sweep passes, without stopping, over map lines up to line `m` whose pages are all unlisted. -/
def State.sweepSkip (s : State) (m : Nat) : State :=
  if s.map.sweepAt < m then { s with map := { s.map with sweepAt := m } } else s

/-- R91: the sweep goes on over the map lines given, in rising order, until an update waits. -/
def State.sweepOver : List Nat → State → State
  | [], s => s
  | m :: rest, s =>
    if s.sweepHeld then s
    else if m < s.map.sweepAt then State.sweepOver rest s
    else State.sweepOver rest (s.sweepSkip m).sweepLine

/-- R91: the sweep ends: every line it has not visited is raised, those with listed entries through their slices (log entry
108, DESIGN CHOICE). It goes on later where an update waits for a BUSY page. -/
def State.sweepEnd (s : State) : State :=
  let busy := (s.map.busy.map (·.1)) ++ (s.map.reqs.map (fun r => r.line / 64))
  let lines := ((s.map.pmes.map (·.1)) ++ busy).map (· / 4)
  let rising := (lines.foldl (fun m x => smInsert m x ()) []).map (·.1)
  let s := State.sweepOver rising s
  if s.sweepHeld then s
  else
    let base := min 255 (s.map.ageBase + 1)
    let s := { s with map := { s.map with ageBase := base, sweepAt := 0 } }
    let s := { s with map := { s.map with pmes := s.map.pmes.filter (fun x => x.2 != s.pmeDflt x.1) } }
    (s.clear F.MAP_AGE_CTL_BUSY).clear F.MAP_AGE_CTL_SWEEP

/-- R112: an operation of MAP_PME_OP on the page of MAP_PME_IDX. -/
def State.pmeOp (s : State) (op : Nat) : State :=
  if op = 0 || 5 < op then s
  else
    let p := s.rd F.MAP_PME_IDX_PAGE
    let s := s.set F.MAP_PME_OP_DONE
    if s.secs.pages ≤ p then s.wr F.MAP_PME_OP_RESULT 1
    else if s.lost p then (s.noteLost p).wr F.MAP_PME_OP_RESULT 2
    else
      let s := s.wr F.MAP_PME_OP_RESULT 0
      let x := s.pme p
      match op with
      | 1 =>
        let s := s.mapTouch ⟨false, p / 4, false⟩ 80
        (s.wr F.MAP_PME_LO_PME x.word).wr F.MAP_PME_HI_PME (x.word / 2 ^ 64)
      | 2 => s.setPme p { x with pin := true } 80
      | 3 => s.setPme p { x with pin := false } 80
      | 4 => s.setPme p { x with poison := true } 80
      | _ => s.setPme p { x with age := s.rd F.MAP_PME_OP_AGE } 80

/-- A write of a MAP register: its fields, and what follows (Tables 4-9 to 4-16). -/
def State.writeMap (s : State) (who : Initiator) (off v : Nat) : State :=
  if off = F.MAP_CTL_FLUSH.addr 0 0 then
    let s := s.writeWord who off v
    s.when (v.testBit 3) State.mapFlushAll
  else if off = F.MAP_HOLD_HOLD_US.addr 0 0 then
    s.wr F.MAP_HOLD_HOLD_US (clamp 1 (s.secs.limitVal 2) (F.MAP_HOLD_HOLD_US.of v))
  else if off = F.MAP_AGE_CTL_SWEEP.addr 0 0 then s.when (v.testBit 0) State.sweepStart
  else if off = F.MAP_PME_OP_OP.addr 0 0 then (s.writeWord who off v).pmeOp (F.MAP_PME_OP_OP.of v)
  else if off = F.MAP_TWIN_CFG_EN.addr 0 0 then
    (s.wr F.MAP_TWIN_CFG_EN (F.MAP_TWIN_CFG_EN.of v)).twinChunks (F.MAP_TWIN_CFG_CHUNKS.of v)
  else match (F.MAP_POOL_F_F.at (off / 32 * 32)) with
    | some (_, k) =>
      if 4 ≤ k && k < 16 then s else (((s.writeWord who off v).poolCheck k).trim k)
    | none => s.writeWord who off v

/-- R89, a write of MAP_CTL. -/
def execMapFlush (who : Initiator) (v : BitVec 64) (s : State) : Outcome :=
  onDie s (fun s => barWrite s who 0xC00000 (fun s => s.writeMap who 0xC00000 v.toNat))

/-- R91, a write of MAP_AGE_CTL. -/
def execAgeSweep (who : Initiator) (v : BitVec 64) (s : State) : Outcome :=
  onDie s (fun s => barWrite s who 0xC00020 (fun s => s.writeMap who 0xC00020 v.toNat))

/-- R91: the sweep under way ends. -/
def execAgeSweepDone (s : State) : Outcome :=
  onDie s (fun s => if s.on F.MAP_AGE_CTL_BUSY then s.sweepEnd else s)

/-- R112: a write of MAP_PME_OP with an operation and an AGE. -/
def State.pmeCmd (s : State) (who : Initiator) (op : Nat) (age : BitVec 8) : State :=
  barWrite s who 0xC00038 (fun s => s.writeMap who 0xC00038 (op + 256 * age.toNat))

def execPmeRead (who : Initiator) (age : BitVec 8) (s : State) : Outcome :=
  onDie s (fun s => s.pmeCmd who 1 age)

def execPmeSetPin (who : Initiator) (age : BitVec 8) (s : State) : Outcome :=
  onDie s (fun s => s.pmeCmd who 2 age)

def execPmeClearPin (who : Initiator) (age : BitVec 8) (s : State) : Outcome :=
  onDie s (fun s => s.pmeCmd who 3 age)

def execPmeSetPoison (who : Initiator) (age : BitVec 8) (s : State) : Outcome :=
  onDie s (fun s => s.pmeCmd who 4 age)

def execPmeWriteAge (who : Initiator) (age : BitVec 8) (s : State) : Outcome :=
  onDie s (fun s => s.pmeCmd who 5 age)

/-- R101, a write of MAP_TWIN_CFG. -/
def execTwinCfgWrite (who : Initiator) (v : BitVec 64) (s : State) : Outcome :=
  onDie s (fun s => barWrite s who 0xC00050 (fun s => s.writeMap who 0xC00050 v.toNat))

/-! ### Promotion and space -/

/-- R96, R145, R147: the promotion of a page ends, once its tag line, where its region asks for a tag, has been read
through its home. -/
def State.promotionStep (s : State) (p : Nat) : State :=
  if s.integ p = 0 || (s.pme p).twin then s.promotionDone p ([], true)
  else match s.tagLine p (s.galFor (s.blockChan (s.runOf p (s.pme p)) 0)) with
    | (none, s) => s
    | (some tag, s) => s.promotionDone p tag

/-- R96: the promotion of a page ends. -/
def execPromotionDone (page : BitVec 34) (s : State) : Outcome :=
  onDie s (fun s => s.promotionStep page.toNat)

/-- R108. -/
def execHeldWriteResume (s : State) : Outcome := onDie s State.resumeHeld

/-- R109: the hold time of a held write reaches HOLD_US. A frame that is free in the same CCLK is taken instead. No hold
time counts while an image that changes TIER drains (R28). -/
def execHoldExpire (home : Fin 16) (tt : BitVec 8) (s : State) : Outcome :=
  onDie s (fun s =>
    match s.mapReq home.val tt.toNat true with
    | none => s
    | some r =>
      if r.st != .held || s.tierPaused then s
      else match s.frameSrc (r.line / 64) with
        | .frame f => ((s.sub F.MAP_HOLD_HELD 1).writeWithFrame r f).serveQueues
        | _ => s.expireHeld r)

/-- R108: while writes are held, the Hall pools they draw on request a chunk. -/
def execHallGrantTick (s : State) : Outcome :=
  onDie s (fun s =>
    s.forEach s.heldSets (fun s k => s.poolRequest k false))

/-- R107: pool `k` below LOW_WATER requests a chunk. -/
def execPoolLowTick (k : Fin 32) (s : State) : Outcome :=
  onDie s (fun s =>
    if s.rd F.MAP_POOL_F_F 0 k < s.rd F.MAP_POOL_WATER_LOW_WATER 0 k then s.poolRequest k true else s)

/-- R280: the zeroing of a chunk ends. -/
def execChunkZeroDone (chunk : BitVec 32) (s : State) : Outcome :=
  onDie s (fun s => s.zeroDone chunk.toNat)

end Sys2Proof.Machine
end

