-- ==== Sys2Proof/Machine/CwkRx.lean ====
section
/-!
DEFINITION. Catwalk reception: exclusion (R241, R242), links going down, what packets do (R216, R217, R236, R238), HELLO
(R230), credits and acknowledgement (R220, R224), bypass messages, and retrains (R231 to R234).
-/

namespace Sys2Proof.Machine

/-! ### Exclusion (R241, R242) -/

/-- R242, step 3: an open TT entry of a home: snoops open to the proxy count as RspI; a DataM that the entry awaited from
the proxy is replaced by a poisoned line. -/
def State.excludeTT (s : State) (a : Nat) (k : Nat) (t : TT) : State :=
  let h := k / 256
  let e := k % 256
  let bad : MaskedData := ⟨0, BitVec.allOnes 64, true⟩
  if t.st = .snp ∧ t.await.contains a then
    s.homeAnswer opRspI { src := BitVec.ofNat 7 a, line := t.msg.line, slot := t.msg.slot, htag := BitVec.ofNat 8 e }
  else if t.crossed.contains a then
    (s.settle h e { t with dm := some bad, crossed := t.crossed.filter (· != a) }).tryClose h e
  else if t.req = a ∧ t.wantsWd ∧ !(t.msg.noown && s.reachable (proxySlot s.slot a)) then
    (s.settle h e { t with wd := some bad }).tryClose h e
  else if t.req = a ∧ t.lockAt.isSome then
    ((s.markPoison t.line).setTT h e { t with lockAt := none }).tryClose h e
  else s

/-- R242, step 3: a directory entry that lists the proxy. -/
def State.excludeDir (s : State) (a k : Nat) (d : DirEnt) : State :=
  let line := lineAt (k / 131072) (k / 16 % 8192) d.tag
  if d.dstate = 3 ∧ d.fptr = a then (s.markPoison line).setDir line (k % 16) {}
  else s.setDir line (k % 16) (d.drop a)

/-- R242, step 4: the lines of the filter's ways for slot `t`, and of transactions that await local answers, with the holders to
invalidate and the answers awaited already: snoops and crossed data. -/
def State.pfHeld (s : State) (t : Nat) : List (Nat × List Nat × List Nat × List Nat) :=
  let txs := s.coh.pfTx.filter (fun x => x.slot == t && (!x.await.isEmpty || !x.crossed.isEmpty))
  let ways := (s.coh.pf.filter (fun x => x.2.slot == t)).map (fun x => (lineAt (x.1 / 131072) (x.1 / 16 % 8192) x.2.tag, x.2.holders))
  let lines := (ways.map (·.1) ++ txs.map (·.line)).eraseDups
  lines.map (fun l =>
    let mine := txs.filter (fun x => x.line == l)
    (l, (ways.filter (fun x => x.1 == l)).flatMap (·.2), mine.flatMap (·.await), mine.flatMap (·.crossed)))

/-- A WbD of a holder of the line: the invalidation of its copy meets it. -/
def State.pfHolderWbd (s : State) (f : Flight) : Bool :=
  f.opc == opWbD && !f.msg.noown && (s.pfOf f.msg.slot.toNat f.msg.line.toNat).has f.msg.src.toNat

/-- R242, step 4: the proxy filter: local transactions waiting on the member end, its ways are invalidated by SnpI to the local
holders, and what those bring is discarded. The WbD of a holder ends with that. -/
def State.excludePf (s : State) (t : Nat) : State :=
  let here := fun (f : Flight) => f.msg.slot.toNat == t
  let held := s.pfHeld t
  let txs := s.coh.pfTx.filter (fun x => x.slot == t)
  let late := s.coh.pfq.filter (fun f => here f && !s.pfHolderWbd f)
  let s := { s with coh := { s.coh with pfq := s.coh.pfq.filter (fun f => !(late.contains f)),
                                        pfSnoops := s.coh.pfSnoops.filter (fun f => !here f),
                                        pfPurges := s.coh.pfPurges.filter (fun f => !here f) } }
  let s := s.forEach txs (fun s x =>
    let s := s.dropPfTx { x with held := [] }
    match x.req with
    | some f => s.pfFail (x.e.getD 0) f
    | none => s)
  let s := s.forEach late (fun s f => s.pfFail 0 f)
  let s := { s with coh := { s.coh with pf := s.coh.pf.filter (fun x => x.2.slot != t) } }
  s.forEach held (fun s x =>
    let (tx, s) := s.pfSnoopAll { slot := t, line := x.1, next := .done } x.2.1
    s.pfProceed { tx with await := x.2.2.1 ++ tx.await, crossed := x.2.2.2 })

/-- R242, Table 9-9: a message of a coherent access of the excluded member's, not yet served. -/
def lateCoherent (a : Nat) (f : Flight) : Bool :=
  opNet f.opc == 0 && f.msg.src.toNat == a && !f.msg.noalloc && !f.msg.noown

/-- R242, Table 9-9: what this member still holds of coherent accesses: packets queued for the member in slot `t`, and its
proxy's requests that no home has started. -/
def State.excludeQueued (s : State) (t a : Nat) : State :=
  let mine := fun (p : CwkPacket) => let h := cwkHdr p.hdr.toNat; h.dslot == t && coherentPacket h
  let s := s.forEach (List.range 8) (fun s n =>
    s.when ((s.link n).txq.any mine) (fun s => s.onLink n (fun l => { l with txq := l.txq.filter (fun p => !mine p) })))
  let s := s.forEach (s.coh.flight.filter (lateCoherent a)) State.unsend
  s.forEach (List.range 16) (fun s h =>
    s.when ((s.home h).confq.any (lateCoherent a)) (fun s =>
      (s.onHome h (fun x => { x with confq := x.confq.filter (fun f => !lateCoherent a f) })).showHome h))

/-- R242, step 3: directory entries that list the proxy. -/
def State.excludeDirs (s : State) (a : Nat) : State :=
  s.forEach (s.coh.dir.filter (fun x => x.2.sharers.testBit a)) (fun s x => s.excludeDir a x.1 x.2)

/-- R241, R242: exclude the member in slot `t`. -/
def State.excludeNow (s : State) (t : Nat) : State :=
  if s.excluded t || t = s.slot || !s.secs.members.testBit t then s
  else
    let a := proxyId s.slot t
    let s := (s.wrBit F.CWK_SPAN_STATUS_EXCLUDED t true).set F.CWK_SPAN_IRQ_EXCLUDED
    let s := s.wrBit F.CWK_SPAN_STATUS_COHERENT t false
    let s := s.sendMgt t 0x31 s.slot t 0
    let s := { s with span := { s.span with sweeping := setBit s.span.sweeping t true,
                                            swept := setBit s.span.swept t false } }
    let s := s.excludeQueued t a
    let s := s.forEach s.coh.tt (fun s x =>
      match s.tt (x.1 / 256) (x.1 % 256) with
      | some tt => s.excludeTT a x.1 tt
      | none => s)
    (s.excludeDirs a).excludePf t

/-- R241, R242: exclude the member in slot `t`; the peers are told (R230). -/
def State.exclude (s : State) (t : Nat) : State := s.withHello (fun s => s.excludeNow t)

/-- R235, R239: recompute paths; a member that has become unreachable is excluded (R241), and a change of DIRECT is told
to the peers. -/
def State.showPaths (s : State) : State :=
  s.withHello (fun s => s.forEach (List.range 16) (fun s t =>
    let (k, n, r) := s.pathOf t
    let was := (s.rd F.CWK_PATH_KIND 0 t, s.rd F.CWK_PATH_LINK 0 t, s.rd F.CWK_PATH_RELAY 0 t)
    let s := ((s.wr F.CWK_PATH_KIND k 0 t).wr F.CWK_PATH_LINK n 0 t).wr F.CWK_PATH_RELAY r 0 t
    let s := if was = (k, n, r) then s else s.set F.CWK_SPAN_IRQ_PATH_CHANGE
    let lost := s.reachable t && k == 3
    let s := s.wrBit F.CWK_SPAN_STATUS_REACHABLE t (k == 1 || k == 2)
    let s := s.wrBit F.CWK_SPAN_STATUS_COHERENT t ((k == 1 || k == 2) && !s.secs.lite && !s.excluded t)
    if lost then s.excludeNow t else s))

/-! ### Links going down (R229, R236, R241) -/

/-- The headers of a link's unacknowledged packets, oldest first. -/
def Link.headers (l : Link) : List CwkHdr := l.spilled.map (fun x => cwkHdr x.hdr) ++ l.stored.map (fun f => cwkHdr (le f.2 0 16))

/-- R236: PATHLOSS for a pair goes to both members. -/
def State.pathLoss (s : State) (a b : Nat) : State :=
  let tell := fun (s : State) (t : Nat) => if t = s.slot then s else s.sendMgt t 0x32 s.slot t (a + 16 * b)
  tell (tell s a) b

/-- R229: a link enters DOWN. Unacknowledged packets are lost, and the members they concern are excluded; packets that
wait for the link go by another path. -/
def State.cwkDown (s : State) (n : Nat) : State :=
  let st := s.linkSt n
  if st = cwDOWN then s
  else
    let l := s.link n
    let peer := (s.secs.peer n).getD 0
    let s := if st = cwACTIVE || st = cwRETRAIN then s.set F.CWK_IRQ_DOWN n else s
    let s := { s with links := smErase s.links n }
    let s := (s.wr F.CWK_STATUS_STATE cwDOWN n).clear F.CWK_STATUS_WIDTH n
    let s := (((s.clear F.CWK_STATUS_RATE n).clear F.CWK_STATUS_SPILL_OK n).wr F.CWK_UNACK_LIMIT 8192 n).showStored n
    let s := ((s.wr F.CWK_SEQ_TX_LAST 0xFFFF n).wr F.CWK_SEQ_TX_ACKED 0xFFFF n).clear F.CWK_SEQ_RX_EXPECT n
    let s := s.forEach (List.range 8) (fun s v => (s.clear F.CWK_VC_CREDIT n v).clear F.CWK_VC_BLOCKED n v)
    let s := s.showPaths
    let s := s.forEach l.headers (fun s h =>
      if h.relay then s.pathLoss h.sslot h.dslot
      else
        let s := s.exclude h.dslot
        if h.dslot = peer then s else s.exclude peer)
    let s := s.forEach l.txq (fun s p =>
      let h := cwkHdr p.hdr.toNat
      if h.opc = 0x30 then s
      else if h.relay then s.pathLoss h.sslot h.dslot
      else s.toSlot h.dslot h p.mask.toNat p.data.toNat)
    s.showTols

/-! ### Packets -/

/-- R216: a protocol error on a link. -/
def State.cwkProto (s : State) (n : Nat) : State :=
  (s.bump F.CWK_ERR2_PROTO 1 n).record 0x21 2 rasCWK n n ((s.secs.peer n).getD 0)

/-- Table 9-2: flags that an opcode may carry. -/
def flagsOk (h : CwkHdr) : Bool :=
  let ok := match cwkClass h.opc with
    | some 0 => if h.opc = opWbD then 0x1F else 0x0F
    | some 1 => 0x01
    | some 3 => if h.opc = opDataM then 0x17 else 0x07
    | _ => 0
  Nat.land h.flags ok == h.flags

/-- Table 9-7: the zero bytes of a HELLO are zero. -/
def helloZero (b : Bytes) : Bool := le b 21 3 == 0 && le b 40 24 == 0

/-- R215, R216: the zero bytes of a packet's mask unit and payload are zero. -/
def zeroesOk (h : CwkHdr) (p : CwkPacket) : Bool :=
  (!h.maskx || p.pad == 0) && (h.opc != 0x30 || helloZero (lineBytes p.data))

/-- R216, R239: the packet is a protocol error on a link with this VC count. `own`: DSLOT is the receiver's slot. -/
def badPacket (vcs : Nat) (h : CwkHdr) (own : Bool) : Bool :=
  match cwkClass h.opc with
  | none => true
  | some cls =>
    let first := vcOf vcs cls
    let vcOk := if h.relay then vcs == 8 && h.vc == first + 4 && own else h.vc == first
    let lite := vcs == 2 && (cls == 1 || (cls == 0 && !h.flags.testBit 0 && !h.flags.testBit 1))
    h.ut != 1 || !vcOk || !h.zero || h.ndu != opcNdu h.opc || !flagsOk h || lite ||
      (h.reqid != 0 && !(h.opc == opSnpF && h.flags.testBit 0))

/-- R236: forward a packet for another member, or drop it with PATHLOSS. -/
def State.relay (s : State) (n : Nat) (h : CwkHdr) (p : CwkPacket) : State :=
  let out := (s.linksTo h.dslot).find? (fun m => s.secs.vcs m == 8)
  match s.on F.CWK_CTL_RELAY_EN n, out with
  | true, some m =>
    let h := { h with vc := vcOf 8 ((cwkClass h.opc).getD 0) + 4, relay := true }
    s.queueOn m { p with hdr := BitVec.ofNat 128 h.word }
  | _, _ => (s.bump F.CWK_ERR2_RELAY_DROP 1 n).pathLoss h.sslot h.dslot

/-- R238: a valid EXPORT entry for slot `t` holds the line. -/
def State.exported (s : State) (t line : Nat) : Bool :=
  (List.range 64).any (fun n =>
    s.on F.CWK_SMAP_CTL_VALID 0 n && s.rd F.CWK_SMAP_CTL_TYPE 0 n == 2 && s.rdBit F.CWK_SMAP_CTL_SLOTS t 0 n &&
      s.rd F.CWK_SMAP_BASE_BASE 0 n ≤ line / 2 ^ 22 && line / 2 ^ 22 < s.rd F.CWK_SMAP_LIMIT_LIMIT 0 n)

/-- R238: the answer to a request that is not exported. -/
def State.unexported (s : State) (n t opc : Nat) (m : CohMsg) : State :=
  let s := (s.bump F.CWK_ERR2_UNEXPORTED 1 n).record 0x21 2 rasCWK n n t
  let done := if opc = opWbD then (if m.noown then opCmp else opAck) else if opc = opEvC then opAck else opData
  s.toMember t ⟨done, .agent (proxyId s.slot t), { line := m.line, slot := m.slot, rtag := m.rtag,
                                                   poison := done == opData, mask := BitVec.allOnes 64 }⟩

/-- The write data of a lite WbD of the proxy is expected at the line's home. -/
def State.liteData (s : State) (a line : Nat) : Bool :=
  let mine := fun (f : Flight) => f.opc == opWbD && f.msg.src.toNat == a && f.msg.line.toNat == line && f.msg.noown
  s.coh.flight.any mine || (s.home (homeOf line)).confq.any mine ||
    (s.tts (homeOf line)).any (fun x => x.2.opc == opWbD && x.2.req == a && x.2.line == line && x.2.msg.noown)

/-- R238: a home awaits write data of the proxy for a line: of a write accepted, of a snoop, or of a lock. -/
def State.awaitsData (s : State) (a line : Nat) : Bool :=
  let mine := fun (f : Flight) => f.opc == opWbD && f.msg.src.toNat == a && f.msg.line.toNat == line
  s.coh.flight.any mine || (s.home (homeOf line)).confq.any mine ||
    (s.tts (homeOf line)).any (fun x => x.2.line == line &&
      ((x.2.req == a && (x.2.opc == opWbD || x.2.lockAt.isSome)) || x.2.await.contains a || x.2.crossed.contains a))

/-- R242, step 5: the message belongs to a lite access. -/
def State.isLite (s : State) (a t opc : Nat) (m : CohMsg) : Bool :=
  match opNet opc with
  | 0 => m.noalloc || m.noown
  | 1 => false
  | _ =>
    if opc = opDataM then s.liteData a m.line.toNat
    else if opc = opData || opc = opCmp then (s.pfTxOf t m.line.toNat).any (·.out)
    else false

/-- R217: the message that a packet carries, with the sender's proxy as SRC. SLOT is that of the line's home: this
member's for a REQ, an answer to a snoop and a DataM, the sender's otherwise; for data that a third member forwards, that
of the transaction it answers. -/
def State.packetMsg (s : State) (h : CwkHdr) (p : CwkPacket) : CohMsg :=
  let own := opNet h.opc == 0 || (opRspI ≤ h.opc && h.opc ≤ opRspX) || h.opc == opDataM
  let third := (s.coh.pfTx.find? (fun t => t.line == h.line && t.st == .isD &&
    t.req.any (fun f => f.msg.rtag.toNat == h.rtag))).map (·.slot)
  let slot := if own then s.slot else if (s.pfTxOf h.sslot h.line).isSome then h.sslot else third.getD h.sslot
  { src := BitVec.ofNat 7 (proxyId s.slot h.sslot), line := BitVec.ofNat 40 h.line,
    slot := BitVec.ofNat 4 (if opNet h.opc = 1 then h.sslot else slot),
    htag := BitVec.ofNat 8 h.htag, rtag := BitVec.ofNat 8 h.rtag, reqid := BitVec.ofNat 7 h.reqid,
    noalloc := opNet h.opc == 0 && h.flags.testBit 0, noown := opNet h.opc == 0 && h.flags.testBit 1,
    rcall := opNet h.opc == 0 && h.flags.testBit 2, lock := opNet h.opc == 0 && h.flags.testBit 3,
    fwd := opNet h.opc == 1 && h.flags.testBit 0,
    grant := opNet h.opc == 3 && h.flags.testBit 0, poison := opNet h.opc == 3 && h.flags.testBit 1,
    write := opNet h.opc == 3 && h.flags.testBit 2,
    mask := if h.maskx then p.mask else if h.opc = opWbD || opNet h.opc = 3 then BitVec.allOnes 64 else 0,
    data := if opNet h.opc = 3 then p.data else 0 }

/-- R217, R238, R242: a coherence packet for this member enters the torus, or reaches the proxy filter. -/
def State.cohPacket (s : State) (n : Nat) (h : CwkHdr) (p : CwkPacket) : State :=
  let t := h.sslot
  let a := proxyId s.slot t
  let m := s.packetMsg h p
  if s.linkSt n != cwACTIVE || t = s.slot || !s.secs.members.testBit t then s.cwkProto n
  else if s.excluded t && !s.isLite a t h.opc m then s.bump F.CWK_ERR2_EXCL_DROP 1 n
  else match opNet h.opc with
    | 0 => if s.exported t h.line then s.request ⟨h.opc, .home, m⟩ (81 + n) else s.unexported n t h.opc m
    | 1 => (s.pfRemoteSnoop ⟨h.opc, .home, m⟩).pfNextQueued
    | 2 =>
      if opRspI ≤ h.opc ∧ h.opc ≤ opRspX then s.send ⟨h.opc, .home, m⟩ else s.pfRemoteResp h.opc m
    | _ =>
      if h.opc = opDataM then (if s.exported t h.line || s.awaitsData a h.line then s.send ⟨opDataM, .home, m⟩ else s)
      else s.pfRemoteResp h.opc m

/-- R230: the first check of Table 9-6 that a HELLO fails; 0 none. -/
def State.helloCause (s : State) (n : Nat) (b : Bytes) : Nat :=
  if le b 0 8 ≠ s.secs.spanId then 1
  else if some (byteAt b 8) ≠ s.secs.peer n then 2
  else if le b 12 2 ≠ s.secs.members then 3
  else if byteAt b 9 ≠ b2n s.secs.lite then 4
  else if byteAt b 10 ≠ s.secs.vcs n then 5 else 0

/-- R230: a HELLO is accepted or refused. In ACTIVE one that fails a check changes nothing but MM_CAUSE. -/
def State.helloRx (s : State) (n : Nat) (b : Bytes) : State :=
  let st := s.linkSt n
  if st != cwINIT && st != cwACTIVE && st != cwMISMATCH then s
  else
    let c := s.helloCause n b
    let s := s.wr F.CWK_STATUS_MM_CAUSE c n
    if c ≠ 0 then
      if st = cwINIT then
        ((s.wr F.CWK_STATUS_STATE cwMISMATCH n).set F.CWK_IRQ_MISMATCH n).record 0x21 2 rasCWK n n (byteAt b 8)
      else s
    else
      let bufs := (List.range 8).map (fun v => le b (24 + 2 * v) 2)
      let s := (s.onLink n (fun l => { l with hello := b.take 64, peerBuf := bufs })).wr F.CWK_STATUS_PEER_SLOT (byteAt b 8) n
      let s := { s with span := { s.span with hellos := smSet [] s.span.hellos (byteAt b 8) (b.take 64) } }
      let s := if st = cwACTIVE then s else (s.wr F.CWK_STATUS_STATE cwACTIVE n).set F.CWK_IRQ_UP n
      (s.showPaths.pump n).showTols

/-- R241: an EXCLUDE of slot `t`. -/
def State.excludeRx (s : State) (t : Nat) : State := s.exclude t

/-- R241: a PATHLOSS naming a pair. -/
def State.pathlossRx (s : State) (a b : Nat) : State :=
  let s := s.set F.CWK_SPAN_IRQ_PATHLOSS
  if a = s.slot then s.exclude b else if b = s.slot then s.exclude a else s

/-- R328: the class of a packet. -/
def packetClass (opc : Nat) : Nat :=
  if 0x30 ≤ opc then 3
  else if opc = opRdS || opc = opRdO || opc = opRdNC || opc = opData || opc = opDataE then 0
  else if opc = opWbD || opc = opDataM then 1 else 2

/-- R215 to R217, R236: a packet has arrived on a link; its receive slots are free. -/
def State.rxPacket (s : State) (n : Nat) (p : CwkPacket) : State :=
  let h := cwkHdr p.hdr.toNat
  let s := s.counts (48 + s.linkStation n) evPacket { cls := some (packetClass h.opc) }
  let s := s.onLink n (fun l => { l with freed := smSet 0 l.freed h.vc ((smGet 0 l.freed h.vc + h.cost) % 2 ^ 21) })
  let own := decide (h.dslot = s.slot)
  if badPacket (s.secs.vcs n) h own || !zeroesOk h p then s.cwkProto n
  else if !own then (if s.linkSt n = cwACTIVE then s.relay n h p else s.cwkProto n)
  else if h.opc = 0x30 then s.helloRx n (lineBytes p.data)
  else if s.linkSt n != cwACTIVE then s.cwkProto n
  else if h.opc = 0x31 then s.excludeRx h.sslot
  else if h.opc = 0x32 then s.pathlossRx (h.rtag % 16) (h.rtag / 16)
  else if h.opc = 0x33 then s.emit (.fwmsg h.sslot (lineBytes p.data))
  else s.cohPacket n h p

/-- R215: the packet that a list of units begins with, if they are all there, and the units after it. -/
def takePacket (us : List Bytes) : Option (CwkPacket × List Bytes) :=
  match us with
  | [] => none
  | u :: rest =>
    let h := cwkHdr (leNat u)
    let nm := b2n h.maskx
    if rest.length < nm + 4 * h.ndu then none
    else
      let data := (rest.drop nm).take (4 * h.ndu)
      let mask := if h.maskx then rest.headD [] else []
      some (⟨BitVec.ofNat 128 (leNat u), BitVec.ofNat 64 (le mask 0 8), BitVec.ofNat 512 (leNat data.flatten),
        BitVec.ofNat 64 (le mask 8 8)⟩, rest.drop (nm + 4 * h.ndu))

/-- R215, R216: take packets and NULL slots off the units received; a unit with a reserved UT goes with the units that its NDU and
MASKX imply. The first argument bounds the steps. -/
def State.rxUnits : Nat → State → Nat → List Bytes → State
  | 0, s, n, us => s.onLink n (fun l => { l with units := us })
  | k + 1, s, n, us =>
    match us with
    | [] => s.onLink n (fun l => { l with units := [] })
    | u :: rest =>
      if byteAt u 0 % 16 = 0 then State.rxUnits k s n rest
      else match takePacket us with
        | none => s.onLink n (fun l => { l with units := us })
        | some (p, rest) => State.rxUnits k (s.rxPacket n p) n rest

/-! ### Acknowledgement, credits and replay -/

/-- R224: an ACK. -/
def State.ackRx (s : State) (n a : Nat) : State :=
  if seqAfter a (s.rd F.CWK_SEQ_TX_LAST n) || seqAfter (s.rd F.CWK_SEQ_TX_ACKED n) a then s.bump F.CWK_ERR_BAD_ACK 1 n
  else
    let s := (s.onLink n (fun l => { l with stored := l.stored.filter (fun f => seqAfter f.1 a),
                                            spilled := l.spilled.filter (fun f => seqAfter f.seq a) })).wr F.CWK_SEQ_TX_ACKED a n
    (s.showStored n).pump n

/-- R220: the two returns of a flit; a credit beyond the peer's RXBUF is a credit error. -/
def State.creditRx (s : State) (n : Nat) (rs : List Nat) : State :=
  let used := s.usedVcs n
  let seen := rs.map (· % 8)
  let s := s.onLink n (fun l => { l with silent := used.foldl (fun m v =>
    smSet 0 m v (if seen.contains v then 0 else smGet 0 m v + 1)) l.silent })
  let s := s.forEach (rs.filter (fun r => used.contains (r % 8))) (fun s r =>
    let v := r % 8
    let c := r / 8 % 2 ^ 21
    let d := (c + 2 ^ 21 - smGet 0 (s.link n).lastCnt v) % 2 ^ 21
    (s.onLink n (fun l => { l with lastCnt := smSet 0 l.lastCnt v c })).wr F.CWK_VC_CREDIT
      (min 8191 (s.rd F.CWK_VC_CREDIT n v + d)) n v)
  let buf := (s.link n).peerBuf
  if !buf.isEmpty && used.any (fun v => buf.getD v 0 < s.rd F.CWK_VC_CREDIT n v) then s.cwkDown n else s.pump n

/-- R226: a replay goes on after a flit has been sent; it ends with the newest stored one. -/
def State.resent (s : State) (n q : Nat) : State :=
  let go := (s.link n).unacked.any (fun x => seqAfter x q)
  let s := s.onLink n (fun l => { l with replay := if go then l.replay.map (fun r =>
    { r with next := (q + 1) % 65536, sent := r.sent + 1 }) else none })
  if go then s else s.pump n

/-- R226, R227: the next flit of the replay under way is sent, with a fresh trailer; one that reads back uncorrectable from the
spill ring takes the link to DOWN. -/
def State.replayStep (s : State) (n : Nat) (r : Replay) : State :=
  let l := s.link n
  match l.spilled.find? (fun x => seqFrom x.seq r.next), l.stored.find? (fun f => seqFrom f.1 r.next) with
  | some x, _ =>
    match s.unspill n x.slot with
    | (some slots, s) => (s.drive n slots x.seq (s.bypassDue n)).resent n x.seq
    | (none, s) => s.cwkDown n
  | none, some f => (s.drive n f.2 f.1 (s.bypassDue n)).resent n f.1
  | none, none => (s.onLink n (fun l => { l with replay := none })).pump n

/-- The next flit of a link: of the replay under way, or an idle one. -/
def State.txFlit (s : State) (n : Nat) : State :=
  match (s.link n).replay with
  | some r => s.replayStep n r
  | none => s.idleFlit n

/-- R226: resend the stored flits from SEQ `e` on, one with each flit time. -/
def State.resend (s : State) (n e : Nat) : State :=
  let s := (s.bump F.CWK_ERR_REPLAY 1 n).counts (48 + s.linkStation n) evReplay
  (s.onLink n (fun l => { l with replay := some ⟨e, e, 0⟩ })).txFlit n

/-- R226: the replay under way began at SEQ `e`, and has neither sent 64 flits nor ended. -/
def State.replaying (s : State) (n e : Nat) : Bool := (s.link n).replay.any (fun r => r.start == e && r.sent < 64)

/-- R226: a REPLAY_REQ. -/
def State.replayRx (s : State) (n e : Nat) : State :=
  if s.replaying n e then s
  else if (s.link n).unacked.contains e then s.resend n e else s.bump F.CWK_ERR_BAD_ACK 1 n

/-- R225: ask for the flit expected. -/
def State.askReplay (s : State) (n : Nat) : State := (s.onLink n (fun l => { l with asking := true })).txFlit n

/-! ### Retrains (R231 to R234) -/

/-- Lanes of a target width. -/
def targetLanes (w : BitVec 2) : Nat := if w.toNat = 0 then 4 else if w.toNat = 1 then 8 else 16

/-- R244: the width at one end of the order of the `unit` lanes in use that avoids both failed lanes; `none`: there is none. -/
def avoid (w : BitVec 2) (unit a b : Nat) : Option (BitVec 2) :=
  let free := fun (k : Nat) => (k ≤ a && k ≤ b) || (a < unit - k && b < unit - k)
  if targetLanes w ≤ unit ∧ free (targetLanes w) then some w
  else if 8 ≤ targetLanes w ∧ 8 ≤ unit ∧ free 8 ∧ targetLanes w ≠ 8 then some 1
  else if free 4 then some 0 else none

/-- R233: the target that both ends resolve, with `unit` lanes in use; `none`: no width avoids the failed lanes. -/
def resolve (unit : Nat) (own : Option CwkTarget) (t : CwkTarget) : Option CwkTarget :=
  match own with
  | none => some t
  | some o =>
    let w := if o.width.toNat ≤ t.width.toNat then o.width else t.width
    let r : CwkTarget := ⟨w, if o.rate.toNat ≤ t.rate.toNat then o.rate else t.rate, o.fault || t.fault,
      match o.lane with | some l => some l | none => t.lane⟩
    match o.lane, t.lane with
    | some a, some b => (avoid w unit a.toNat b.toNat).map (fun w => { r with width := w })
    | _, _ => some r

/-- Lanes of a link's unit. -/
def State.unitLanes (s : State) (n : Nat) : Nat := 4 * (s.secs.unitQuads 2 n).length

/-- Lanes of a link in use. -/
def State.lanesUsed (s : State) (n : Nat) : Nat := 2 ^ (s.rd F.CWK_STATUS_WIDTH n - 1)

/-- R222: a message that is to leave now: after REPLAY_REQ, if that is due. -/
def State.bypassNow (s : State) (n b : Nat) : State :=
  (s.when (s.link n).asking (fun s => s.bypassFlit n (s.replayMsg n))).bypassFlit n b

/-- R232: an end asks for a retrain. -/
def State.askRetrain (s : State) (n : Nat) (t : CwkTarget) : State :=
  if s.linkSt n = cwACTIVE ∧ (s.link n).ask.isNone then
    (s.onLink n (fun l => { l with ask := some t })).bypassNow n (0x02 + targetBits t)
  else s

/-- The link's present width and rate as a target. -/
def State.nowTarget (s : State) (n : Nat) (fault : Bool) : CwkTarget :=
  ⟨BitVec.ofNat 2 (s.rd F.CWK_STATUS_WIDTH n - 3), BitVec.ofNat 3 (s.rd F.CWK_STATUS_RATE n), fault, none⟩

/-- R232: an end sends RETRAIN_ACK and enters RETRAIN. -/
def State.enterRetrain (s : State) (n : Nat) (t : CwkTarget) : State :=
  let s := s.onLink n (fun l => { l with ask := none, target := some t, replay := none })
  (((s.bypassNow n (0x03 + targetBits t)).wr F.CWK_STATUS_STATE cwRETRAIN n).set F.CWK_IRQ_RETRAIN n).showPaths

/-- R232, R233: a RETRAIN_REQ. -/
def State.retrainReqRx (s : State) (n : Nat) (t : CwkTarget) : State :=
  if s.linkSt n = cwRETRAIN then s.onLink n (fun l => { l with next := some t })
  else if s.linkSt n ≠ cwACTIVE then s
  else match resolve (s.lanesUsed n) (s.link n).ask t with
    | some r => s.enterRetrain n r
    | none => s.cwkDown n

/-- R232: a RETRAIN_ACK with the resolved target. -/
def State.retrainAckRx (s : State) (n : Nat) (t : CwkTarget) : State :=
  if s.linkSt n = cwACTIVE ∧ (s.link n).ask.isSome then s.enterRetrain n t else s

/-! ### Bypass messages (R221) -/

/-- R240: WAKE_TOL in units of 16 ns. -/
def State.wakeTolRx (s : State) (n own peers : Nat) : State :=
  let ns := fun (x : Nat) => if x = 0xFFFFFF then tolNONE else x * 16
  (s.onLink n (fun l => { l with tols := l.tols ++ [(ns own, ns peers)] })).retarget

/-- R222: TIME: the peer's ST, plus the latency in ST units (4 a ns), minus the own ST. -/
def State.timeRx (s : State) (n st : Nat) : State :=
  let d := (st + 4 * s.rd F.CWK_LAT_LAT_NS n + 2 ^ 56 - s.st % 2 ^ 56) % 2 ^ 56
  s.wr F.CWK_TSKEW_SKEW (if d < 2 ^ 55 then d else d + 2 ^ 64 - 2 ^ 56) n

/-- The target of a RETRAIN_REQ or RETRAIN_ACK. -/
def bypassTarget (b : Nat) : CwkTarget :=
  ⟨BitVec.ofNat 2 (bits b 9 8), BitVec.ofNat 3 (bits b 14 12), b.testBit 15,
   if b.testBit 20 then some (BitVec.ofNat 4 (bits b 19 16)) else none⟩

/-- R221: a bypass message. -/
def State.bypassRx (s : State) (n b : Nat) : State :=
  match b % 256 with
  | 0 => s
  | 1 => s.replayRx n (bits b 23 8)
  | 2 => s.retrainReqRx n (bypassTarget b)
  | 3 => s.retrainAckRx n (bypassTarget b)
  | 4 => s.wakeTolRx n (bits b 31 8) (bits b 55 32)
  | 5 => s.timeRx n (bits b 63 8)
  | _ => s.bump F.CWK_ERR_BAD_ACK 1 n

/-! ### Flits (R214, R225) -/

/-- R211: flits are exchanged in the link's state. -/
def State.flitsFlow (s : State) (n : Nat) : Bool :=
  s.linkSt n == cwTRAIN || s.linkSt n == cwINIT || s.linkSt n == cwACTIVE || s.linkSt n == cwMISMATCH

/-- R225: the units of a flit, by its SEQ. -/
def State.seqRx (s : State) (n seq : Nat) (slots : Bytes) : State :=
  let e := s.rd F.CWK_SEQ_RX_EXPECT n
  if seq = e then
    let s := (s.wr F.CWK_SEQ_RX_EXPECT ((e + 1) % 65536) n).onLink n (fun l => { l with asking := false })
    let us := (s.link n).units ++ pieces 16 slots
    let s := State.rxUnits (us.length + 1) s n us
    if s.flitsFlow n then s.txFlit n else s
  else if seqAfter seq e then s.askReplay n
  else s

/-- R214, R224, R225: a flit arrives. In TRAIN its units are not taken: the sequence begins at INIT (log entry 119, DEDUCED). -/
def State.flitRx (s : State) (n : Nat) (bytes : Bytes) : State :=
  if !s.flitsFlow n then s
  else
    let (k, good) := flitPass bytes
    let s := s.bump F.CWK_ERR_FEC_CORR k n
    match good with
    | none => ((s.bump F.CWK_ERR_UNCORR 1 n).onLink n (fun l => { l with badRun := l.badRun + 1 })).askReplay n
    | some b =>
      let s := s.onLink n (fun l => { l with badRun := 0 })
      let s := (s.ackRx n (le b 226 2)).creditRx n [le b 228 3, le b 231 3]
      let s := if s.flitsFlow n then s.bypassRx n (le b 234 8) else s
      if s.flitsFlow n && s.linkSt n != cwTRAIN then s.seqRx n (le b 224 2) (b.take 224) else s

/-- A flit time of a link: the replay under way goes on, or a bypass message that is due is sent (R222, R226). -/
def State.linkTick (s : State) (n : Nat) : State :=
  if s.flitsFlow n && ((s.link n).replay.isSome || s.bypassWaits n) then s.txFlit n else s

end Sys2Proof.Machine
end

