-- ==== Sys2Proof/Machine/Catwalk.lean ====
section
/-!
DEFINITION. The commands of Catwalk and the Span (chapter 9).
-/

namespace Sys2Proof.Machine

/-! ### Training (R219, R228, R229) -/

/-- R219: the receive buffers obey the rule. -/
def State.buffersOk (s : State) (n : Nat) : Bool :=
  let used := s.usedVcs n
  used.all (fun v => 64 ≤ s.rd F.CWK_VC_RXBUF n v) && (used.map (fun v => s.rd F.CWK_VC_RXBUF n v)).sum ≤ 4096

/-- R229, R400: receivers are detected. -/
def execCwkLinkDetect (link : Fin 8) (lower upper : Bool) (s : State) : Outcome :=
  onDie s (fun s =>
    let n := link.val
    let held := (s.secs.unitQuads 2 n).any (fun q => s.perst.contains (q / 4))
    if s.linkSt n != cwDOWN || !s.on F.CWK_CTL_LINK_EN n || (s.secs.peer n).isNone || !(lower || upper) || held ||
        !s.on F.MAP_STATUS_READY then s
    else if !s.buffersOk n then s.wr F.CWK_STATUS_MM_CAUSE 6 n
    else (s.clear F.CWK_STATUS_MM_CAUSE n).wr F.CWK_STATUS_STATE cwTRAIN n)

/-- R228: pages of the spill ring. -/
def State.ringPages (s : State) (n : Nat) : List Nat :=
  (List.range (256 * s.rd F.CWK_SPILL_SIZE_SIZE_MIB n)).map (fun i => s.rd F.CWK_SPILL_BASE_BASE n / 4096 + i)

/-- R228: the page can serve a spill ring: TIER 01 with PIN, outside every LD range and every tag range. -/
def State.ringOk (s : State) (p : Nat) : Bool :=
  let x := s.pme p
  let inLd := s.secs.ldl.any (fun e => e.base * 65536 ≤ p && p < (e.base + e.static + e.dc) * 65536)
  let inTag := (List.range 1024).any (fun n =>
    s.on F.KEY_REG_CFG_VALID 0 n && s.rd F.KEY_REG_CFG_INTEG 0 n != 0 &&
      s.rd F.KEY_REG_TAG_TAG_BASE 0 n ≤ 4096 * p + 4095 &&
      4096 * p < s.rd F.KEY_REG_TAG_TAG_BASE 0 n + 8 * (s.rd F.KEY_REG_LIMIT_LIMIT 0 n - s.rd F.KEY_REG_BASE_BASE 0 n))
  p < s.secs.pages && !s.lost p && x.tier == 1 && x.pin && !inLd && !inTag

/-- R228: the check of the spill ring at INIT. A ring of size 0, or with SPILL_EN 0, is none. -/
def State.spillCheck (s : State) (n : Nat) : State :=
  let ps := s.ringPages n
  if ps.isEmpty || !s.on F.CWK_CTL_SPILL_EN n then s.wr F.CWK_UNACK_LIMIT 8192 n
  else if ps.all s.ringOk then
    let s := s.onLink n (fun l => { l with ring := ps.map (fun p => (p, (s.pme p).loc)) })
    (s.set F.CWK_STATUS_SPILL_OK n).wr F.CWK_UNACK_LIMIT (min 32768 (8192 + 16 * ps.length)) n
  else (s.set F.CWK_IRQ_SPILL_OFF n).wr F.CWK_UNACK_LIMIT 8192 n

/-- Table 9-11: width code of a target width, and whether it is below the unit's. -/
def State.showWidth (s : State) (n : Nat) (w : BitVec 2) (rate : BitVec 3) : State :=
  let s := (s.wr F.CWK_STATUS_WIDTH (w.toNat + 3) n).wr F.CWK_STATUS_RATE rate.toNat n
  let s := s.wr F.CWK_STATUS_DEGRADED (b2n (targetLanes w < s.unitLanes n)) n
  s.wr F.CWK_STATUS_LEAD (b2n (s.slot < (s.secs.peer n).getD 0)) n

/-- R220, R229: training ends: counts are cleared, credits granted, and HELLO is sent. -/
def execCwkTrained (link : Fin 8) (width : BitVec 2) (rate : BitVec 3) (latNs : BitVec 16) (s : State) : Outcome :=
  onDie s (fun s =>
    let n := link.val
    if s.linkSt n != cwTRAIN then s
    else
      let bufs := (List.range 8).map (fun v => s.rd F.CWK_VC_RXBUF n v)
      let freed := (s.usedVcs n).foldl (fun m v => smSet 0 m v (bufs.getD v 0)) []
      let s := { s with links := smSet {} s.links n { freed := freed, rxbuf := bufs } }
      let s := s.forEach (List.range 8) (fun s v => (s.clear F.CWK_VC_CREDIT n v).clear F.CWK_VC_BLOCKED n v)
      let s := (s.wr F.CWK_STATUS_STATE cwINIT n).wr F.CWK_LAT_LAT_NS latNs.toNat n
      (((s.showWidth n width rate).spillCheck n).sendHello n).idleFlit n)

def execCwkTrainTimeout (link : Fin 8) (s : State) : Outcome :=
  onDie s (fun s => if s.linkSt link = cwTRAIN then s.cwkDown link else s)

def execCwkInitTimeout (link : Fin 8) (s : State) : Outcome :=
  onDie s (fun s => if s.linkSt link = cwINIT then s.cwkDown link else s)

/-! ### Flits and bypass messages -/

def execFlitReceive (link : Fin 8) (bytes : Bytes) (s : State) : Outcome :=
  onDie s (fun s => if bytes.length = 256 then s.flitRx link bytes else s)

/-- R220: 1,024 good flits without a report of some VC. -/
def execCreditReportMissing (link : Fin 8) (s : State) : Outcome :=
  onDie s (fun s =>
    if (s.usedVcs link).any (fun v => 1024 ≤ smGet 0 (s.link link).silent v) then s.askRetrain link (s.nowTarget link true)
    else s)

/-- R234: the link runs on fewer lanes than its unit has because a lane failed. -/
def State.laneLost (s : State) (n lane : Nat) : State :=
  ((s.wr F.CWK_STATUS_FAILED_LANE lane n).set F.CWK_STATUS_DEGRADED n).record 0x21 2 rasCWK n n ((s.secs.peer n).getD 0)

/-- R231: eight consecutive uncorrected flits, or block lock lost on all lanes. -/
def execFaultRetrain (link : Fin 8) (lock : Bool) (s : State) : Outcome :=
  onDie s (fun s => if lock || 8 ≤ (s.link link).badRun then s.askRetrain link (s.nowTarget link true) else s)

/-- R234: a lane has failed: half width, or DOWN from x4. -/
def execCwkLaneFail (link : Fin 8) (lane : BitVec 4) (s : State) : Outcome :=
  onDie s (fun s =>
    let n := link.val
    let w := s.rd F.CWK_STATUS_WIDTH n
    if s.linkSt n != cwACTIVE || 2 ^ (w - 1) ≤ lane.toNat then s
    else
      let s := (s.set F.CWK_IRQ_LANE_FAIL n).bump F.CWK_ERR_LANE_FAIL 1 n
      if w ≤ 3 then (s.laneLost n lane.toNat).cwkDown n
      else
        let t : CwkTarget := ⟨BitVec.ofNat 2 (w - 4), BitVec.ofNat 3 (s.rd F.CWK_STATUS_RATE n), true, some lane⟩
        (s.onLink n (fun l => { l with ask := none })).askRetrain n t)

def execReplayReq (link : Fin 8) (seq : BitVec 16) (s : State) : Outcome :=
  onDie s (fun s => if s.flitsFlow link then s.replayRx link seq.toNat else s)

def execRetrainReq (link : Fin 8) (target : CwkTarget) (s : State) : Outcome :=
  onDie s (fun s => s.retrainReqRx link target)

def execRetrainAck (link : Fin 8) (target : CwkTarget) (s : State) : Outcome :=
  onDie s (fun s => s.retrainAckRx link target)

def execWakeTol (link : Fin 8) (own peers : BitVec 24) (s : State) : Outcome :=
  onDie s (fun s => if s.flitsFlow link then s.wakeTolRx link own.toNat peers.toNat else s)

def execTime (link : Fin 8) (st : BitVec 56) (s : State) : Outcome :=
  onDie s (fun s => if s.flitsFlow link then s.timeRx link st.toNat else s)

/-- R240: the oldest tolerances received over a link are 4 µs old. -/
def execWakeTolAgeExpire (link : Fin 8) (s : State) : Outcome :=
  onDie s (fun s => (s.onLink link (fun l => { l with tols := l.tols.tail })).retarget)

/-! ### Management packets and coherence packets -/

/-- R216, R230: a HELLO; one with a zero byte that is not zero is a protocol error. -/
def execHello (link : Fin 8) (payload : BitVec 512) (s : State) : Outcome :=
  onDie s (fun s =>
    let b := lineBytes payload
    if helloZero b then s.helloRx link b else s.cwkProto link)

/-- R230: a HELLO falls due. -/
def execHelloTimer (link : Fin 8) (s : State) : Outcome :=
  onDie s (fun s => if s.flitsFlow link && s.linkSt link != cwTRAIN then s.sendHello link else s)

def execExclude (link : Fin 8) (sslot : BitVec 4) (s : State) : Outcome :=
  onDie s (fun s => if s.linkSt link = cwACTIVE then s.excludeRx sslot.toNat else s)

def execPathloss (link : Fin 8) (src dst : BitVec 4) (s : State) : Outcome :=
  onDie s (fun s => if s.linkSt link = cwACTIVE then s.pathlossRx src.toNat dst.toNat else s)

def execFwmsg (link : Fin 8) (sslot : BitVec 4) (payload : BitVec 512) (s : State) : Outcome :=
  onDie s (fun s => if s.linkSt link = cwACTIVE then s.emit (.fwmsg sslot.toNat (lineBytes payload)) else s)

def execCatwalkPacket (link : Fin 8) (p : CwkPacket) (s : State) : Outcome :=
  onDie s (fun s => if s.flitsFlow link then s.rxPacket link p else s)

/-! ### Retrains -/

/-- A write of an entry of the Span address map (R238): `n` is the entry. -/
def State.writeSmap (s : State) (who : Initiator) (n off v : Nat) : State :=
  let ctl := decide (off = F.CWK_SMAP_CTL_VALID.addr 0 n)
  let valid := s.on F.CWK_SMAP_CTL_VALID 0 n
  if s.on F.CWK_CTL_LOCK then s
  else if valid then
    if ctl && !v.testBit 63 then s.writeWord who off v else s
  else if !ctl || !v.testBit 63 then s.writeWord who off v
  else
    let ty := F.CWK_SMAP_CTL_TYPE.of v
    let b := s.rd F.CWK_SMAP_BASE_BASE 0 n
    let l := s.rd F.CWK_SMAP_LIMIT_LIMIT 0 n
    let clear := (List.range 64).all (fun k =>
      !s.on F.CWK_SMAP_CTL_VALID 0 k || s.rd F.CWK_SMAP_CTL_TYPE 0 k != ty ||
        s.rd F.CWK_SMAP_LIMIT_LIMIT 0 k ≤ b || l ≤ s.rd F.CWK_SMAP_BASE_BASE 0 k)
    if b < l && l ≤ s.secs.limit && clear && (ty != 1 || s.rd F.CWK_SMAP_RBASE_RBASE 0 n + l - b ≤ 262144) then
      s.writeWord who off v
    else (s.writeWord who off (setBit v 63 false)).bump F.CWK_SPAN_ERR_SMAP_REJECT

/-- A write of a CWK register: its fields, what follows, and the HELLO of a payload that it changes (R230). -/
def State.writeCwk (s : State) (who : Initiator) (off v : Nat) : State :=
  s.withHello (fun s => match F.CWK_CTL_RETRAIN.at off, F.CWK_RETRAIN_TMO_TMO_US.at off, F.CWK_SMAP_BASE_BASE.at (off / 32 * 32) with
  | some (n, _), _, _ =>
    let s := s.writeWord who off v
    let s := if s.linkSt n = cwMISMATCH ∧ s.on F.CWK_CTL_LINK_EN n = false then s.cwkDown n else s
    let t : CwkTarget := ⟨BitVec.ofNat 2 (min 2 (s.rd F.CWK_CTL_TGT_WIDTH n)), BitVec.ofNat 3 (s.rd F.CWK_CTL_TGT_RATE n),
      false, none⟩
    s.when (v.testBit 8) (fun s => s.askRetrain n t)
  | _, some (n, _), _ => s.wr F.CWK_RETRAIN_TMO_TMO_US (clamp 100 60000 (F.CWK_RETRAIN_TMO_TMO_US.of v)) n
  | _, _, some (_, n) => s.writeSmap who n off v
  | _, _, _ =>
    let s := s.writeWord who off v
    if off = F.CWK_REJOIN_REJOIN.addr 0 0 then
      s.wr F.CWK_SPAN_STATUS_READY (Nat.land s.span.swept (s.rd F.CWK_REJOIN_REJOIN))
    else s)

/-- R232: a write of 1 to CWK_CTL.RETRAIN. -/
def execPlannedRetrain (who : Initiator) (link : Fin 8) (v : BitVec 64) (s : State) : Outcome :=
  let off := F.CWK_CTL_RETRAIN.addr link 0
  onDie s (fun s => barWrite s who off (fun s => s.writeCwk who off (setBit v.toNat 8 true)))

/-- R232, R234: the retrain ends; the transmitter replays from the peer's E. -/
def State.retrainEnds (s : State) (n e : Nat) : State :=
  match (s.link n).target with
  | none => s
  | some t =>
    let later := (s.link n).next
    let s := s.onLink n (fun l => { l with target := none, next := none, badRun := 0, silent := [] })
    let s := (s.showWidth n t.width t.rate).wr F.CWK_STATUS_STATE cwACTIVE n
    let s := match t.lane with
      | some x => s.laneLost n x.toNat
      | none => s
    let s := s.showPaths.bypassFlit n (s.replayMsg n)
    let s := if (s.link n).unacked.any (fun q => seqFrom q e) then s.resend n e else s
    let s := s.pump n
    match later with
    | some r => s.retrainReqRx n r
    | none => s

def execRetrainDone (link : Fin 8) (e : BitVec 16) (s : State) : Outcome :=
  onDie s (fun s => if s.linkSt link = cwRETRAIN then s.retrainEnds link e.toNat else s)

def execRetrainTimeout (link : Fin 8) (s : State) : Outcome :=
  onDie s (fun s => if s.linkSt link = cwRETRAIN then s.cwkDown link else s)

/-! ### Rejoin (R242, R243) -/

/-- R242: the sweep over the directory for an excluded member ends. -/
def execExclusionSweepDone (t : Fin 16) (s : State) : Outcome :=
  onDie s (fun s =>
    if s.span.sweeping.testBit t then
      let s := { s with span := { s.span with sweeping := setBit s.span.sweeping t false,
                                              swept := setBit s.span.swept t true } }
      let s := s.excludeDirs (proxyId s.slot t)
      (s.wrBit F.CWK_SPAN_STATUS_READY t (s.rdBit F.CWK_REJOIN_REJOIN t)).helloAll
    else s)

/-- R243: the latest HELLO of the member lists this one in READY, or does not list it in EXCLUDED. -/
def State.peerReady (s : State) (t : Nat) : Bool :=
  let b := smGet [] s.span.hellos t
  !b.isEmpty && ((le b 18 2).testBit s.slot || !(le b 16 2).testBit s.slot)

def execReadmit (t : Fin 16) (s : State) : Outcome :=
  onDie s (fun s =>
    if s.excluded t && s.rdBit F.CWK_REJOIN_REJOIN t && s.reachable t && s.span.swept.testBit t && s.peerReady t then
      let s := s.wrBit F.CWK_SPAN_STATUS_EXCLUDED t false
      let s := (s.wrBit F.CWK_SPAN_STATUS_READY t false).wrBit F.CWK_REJOIN_REJOIN t false
      let s := { s with span := { s.span with swept := setBit s.span.swept t false } }
      ((s.set F.CWK_SPAN_IRQ_REJOINED).showPaths).helloAll
    else s)

/-! ### The Span address map (R238) -/

/-- A write of an entry's VALID 1. -/
def execSmapEnable (who : Initiator) (n : Fin 64) (v : BitVec 64) (s : State) : Outcome :=
  let off := F.CWK_SMAP_CTL_VALID.addr 0 n
  onDie s (fun s => barWrite s who off (fun s => s.writeCwk who off (setBit v.toNat 63 true)))

/-- A write of an entry's VALID 0. -/
def execSmapDisable (who : Initiator) (n : Fin 64) (v : BitVec 64) (s : State) : Outcome :=
  let off := F.CWK_SMAP_CTL_VALID.addr 0 n
  onDie s (fun s => barWrite s who off (fun s => s.writeCwk who off (setBit v.toNat 63 false)))

end Sys2Proof.Machine
end

