-- ==== Sys2Proof/Machine/Sampling.lean ====
section
/-!
DEFINITION. Snapshots (R339), the sample ring and its writer (R336 to R338), and writes of the counter registers (R330).
-/

namespace Sys2Proof.Machine

/-! ### Snapshots -/

/-- R339: the copies of a snapshot. -/
def State.snapshot (s : State) : State :=
  let old := s
  let s := s.forEach (List.range 64) (fun s u =>
    let s := s.wr F.CNT_SNAP_CYC_CYCLES (old.rd F.CNT_CYC_CYCLES u) u
    s.forEach (List.range 8) (fun s k => s.wr F.CNT_SNAP_COUNT (old.rd F.CNT_CTR_COUNT u k) u k))
  let s := s.forEach (List.range 96) (fun s m =>
    (s.wr F.CNT_TSNAP_SERVED (old.rd F.TST_M_LIVE_SERVED 0 m) 0 m).wr F.CNT_TSNAP_DEMAND (old.demand m) 0 m)
  ((s.wr F.CNT_SNAP_ST_ST s.st).add F.CNT_SNAP_SEQ_SEQ 1).set F.CNT_IRQ_SNAP

/-! ### The ring -/

/-- R338: the ring's pages. -/
def State.smpPages (s : State) : List Nat :=
  (List.range (256 * s.rd F.SMP_SIZE_SIZE_MIB)).map (fun i => s.rd F.SMP_BASE_BASE / 4096 + i)

/-- R338: a page lies in a spill ring. -/
def State.inSpill (s : State) (p : Nat) : Bool :=
  s.links.any (fun x => x.2.ring.any (fun y => y.1 == p)) ||
    (List.range 8).any (fun n => s.on F.CWK_CTL_SPILL_EN n && (s.ringPages n).contains p)

/-- R338: every check of an enable passes. -/
def State.smpOk (s : State) : Bool :=
  let n := s.rd F.SMP_SIZE_SIZE_MIB
  1 ≤ n && n ≤ 1024 && s.rd F.SMP_BASE_BASE % 2 ^ 21 == 0 &&
    s.smpPages.all (fun p => s.ringOk p && !s.inSpill p)

/-- R336: the ring: its first line, and how many records it holds. From the enable until the last write is done it is
what was captured. -/
def State.smpRing (s : State) : Nat × Nat :=
  match s.smp.frames with
  | [] => (s.rd F.SMP_BASE_BASE / 64, 16384 * s.rd F.SMP_SIZE_SIZE_MIB)
  | (p, _) :: _ => (64 * p, 64 * s.smp.frames.length)

/-- R336: the line of a record. -/
def State.smpLine (s : State) (seq : Nat) : Nat := s.smpRing.1 + seq % max 1 s.smpRing.2

/-- R337: WPTR − RPTR = N, counting the writes under way. -/
def State.smpFull (s : State) : Bool :=
  s.smpRing.2 ≤ (s.rd F.SMP_PTR_WPTR + s.smp.inAir.length + 2 ^ 32 - s.rd F.SMP_PTR_RPTR) % 2 ^ 32

/-- R338: the writer holds a record whose line lies on a rank that Floor 4 has put into self-refresh. -/
def State.smpHeld (s : State) (seq : Nat) : Bool :=
  let l := s.smpLine seq
  s.rd F.PWR_STATUS_FLOOR == 4 &&
    match s.place ((s.pme (l / 64)).loc * 4096 + l % 64 * 64) with
    | some (c, cla) => s.pwr.selfRef.contains (4 * c + claRank cla)
    | none => false

/-- R392: records are written in hashed form. -/
def State.hashing (s : State) : Bool :=
  s.rd F.DBG_STATUS_LEVEL == 1 || s.rd F.DBG_STATUS_LEVEL == 2 || s.on F.SEC_CTL_HASH_ADDR

/-- R337: the oldest buffered record is lost: it consumes no SEQ, so those behind it move up. -/
def State.loseOldest (s : State) : State :=
  let move := fun (x : Nat × Bytes) =>
    let n := (x.1 + 2 ^ 32 - 1) % 2 ^ 32
    (n, x.2.take 48 ++ toLE 4 n ++ x.2.drop 52)
  ({ s with smp := { s.smp with buf := s.smp.buf.tail.map move, seq := (s.smp.seq + 2 ^ 32 - 1) % 2 ^ 32 } }).loseRecord

/-- R336, R392: the writer takes the oldest record: LOST and the form of its addresses are settled, and its write goes
out through RT1 as master 90. -/
def State.takeRecord (s : State) (seq : Nat) (r : Bytes) : State :=
  let r := r.take 56 ++ toLE 4 s.smp.lost ++ r.drop 60
  let h := s.hashing && byteAt r 62 == 1
  let r := if h then hashRecord s.sec.kt r else r
  let hashed := (s.smp.hashed.filter (· != seq)) ++ (if h then [seq] else [])
  let smp : SmpSt := { s.smp with buf := s.smp.buf.tail, lost := 0, owed := s.smp.owed - 1,
                                  inAir := s.smp.inAir ++ [(seq, r)], hashed := hashed }
  let l := s.smpLine seq
  let s := { s with smp := smp }
  match s.place ((s.pme (l / 64)).loc * 4096 + l % 64 * 64) with
  | some (c, cla) => s.postLine c cla true 90 (some 1)
  | none => s

/-- R336, R337: one turn of the writer, if it has one. -/
def State.smpTurn (s : State) : State :=
  match s.smp.buf with
  | [] => s
  | (seq, r) :: _ =>
    let level := s.rd F.SMP_CTL_FLUSH_LVL ≤ s.smp.buf.length
    if !s.on F.SMP_CTL_EN || (!level && s.smp.owed = 0) || s.smpHeld seq then s
    else if s.smpFull then (if level then s.loseOldest else s)
    else s.takeRecord seq r

/-- The writer goes on as far as it can. -/
def State.smpPump (s : State) : State := ((List.range 256).foldl (fun s _ => s.smpTurn) s).showSmp

/-- R336: write every buffered record. -/
def State.smpFlush (s : State) : State :=
  ({ s with smp := { s.smp with owed := s.smp.buf.length } }).smpPump

/-- R338: a write that sets EN. -/
def State.smpEnable (s : State) : State :=
  if s.smpOk then
    let seq := ((s.smp.buf.head?).map (·.1)).getD s.smp.seq
    let frames := s.smpPages.map (fun p => (p, (s.pme p).loc))
    let s := { s with smp := { s.smp with frames := frames, owed := 0 } }
    (((s.set F.SMP_CTL_EN).clear F.SMP_STAT_REJECT).wr F.SMP_PTR_WPTR seq).wr F.SMP_PTR_RPTR seq
  else s.set F.SMP_STAT_REJECT

/-- R338, R340: with EN clear and no write outstanding, the frames are released. -/
def State.smpRelease (s : State) : State :=
  if !s.on F.SMP_CTL_EN && s.smp.inAir.isEmpty then { s with smp := { s.smp with frames := [] } } else s

/-- R336: the write of a record waits before its channel. -/
def State.smpWaits (s : State) (seq : Nat) : Bool :=
  let l := s.smpLine seq
  match s.place ((s.pme (l / 64)).loc * 4096 + l % 64 * 64) with
  | some (c, cla) => (s.chan c).wait.any (fun a => a.write && a.rt == some 1 && a.cla == cla)
  | none => false

/-- R336: the channel has accepted the oldest outstanding write. -/
def State.smpAccepted (s : State) : State :=
  match s.smp.inAir with
  | [] => s
  | (seq, r) :: rest =>
    let l := s.smpLine seq
    if s.smpWaits seq then s else
    let s := s.putHall (l / 64) (l % 64) r false
    let s := { s with smp := { s.smp with inAir := rest } }
    (s.wr F.SMP_PTR_WPTR (seq + 1)).smpRelease.showSmp

def execSampleWriteDone (s : State) : Outcome :=
  onDie s (fun s => s.smpPump.smpAccepted.smpPump)

/-! ### Register writes -/

/-- R330: load a sampling counter. -/
def State.loadSampling (s : State) (u k : Nat) : State :=
  if s.on F.CNT_SEL_SAMPLE u k then s.wr F.CNT_CTR_COUNT (2 ^ 48 - s.rd F.CNT_PER_PERIOD u k) u k else s

/-- R330: what a written selection keeps of SAMPLE. -/
def State.fixSample (s : State) (u k : Nat) : State :=
  let e := s.rd F.CNT_SEL_EVENT u k
  if evListed u e && evSampled e then s else s.clear F.CNT_SEL_SAMPLE u k

/-- R337: RPTR may move to `v`. -/
def State.rptrOk (s : State) (v : Nat) : Bool :=
  let r := s.rd F.SMP_PTR_RPTR
  (v + 2 ^ 32 - r) % 2 ^ 32 ≤ (s.rd F.SMP_PTR_WPTR + 2 ^ 32 - r) % 2 ^ 32

/-- Tables 14-6 to 14-9: a write of a register of the CNT and SMP block. -/
def State.writeCnt (s : State) (who : Initiator) (off v : Nat) : State :=
  let was := s
  if off = F.SMP_PTR_RPTR.addr 0 0 then
    let r := F.SMP_PTR_RPTR.of v
    if s.rptrOk r then (s.wr F.SMP_PTR_RPTR r).smpPump else s
  else if off = F.SMP_BASE_BASE.addr 0 0 || off = F.SMP_SIZE_SIZE_MIB.addr 0 0 then
    if s.on F.SMP_CTL_EN then s else s.writeWord who off v
  else if off = F.SMP_CTL_EN.addr 0 0 then
    let s := s.wr F.SMP_CTL_FLUSH_LVL (clamp 1 256 (F.SMP_CTL_FLUSH_LVL.of v))
    let en := v.testBit 0
    let s := if en && !was.on F.SMP_CTL_EN then s.smpEnable
      else if !en then (s.clear F.SMP_CTL_EN).smpRelease else s
    if v.testBit 2 then s.smpFlush else s.smpPump
  else if off = F.CNT_SNAP_CTL_NOW.addr 0 0 then
    if v.testBit 0 then s.snapshot else s
  else
    let s := s.writeWord who off v
    match F.CNT_SEL_SAMPLE.at off, F.CNT_PER_PERIOD.at off, F.CNT_OVF_OVF.at off with
    | some (u, k), _, _ => (s.fixSample u k).loadSampling u k
    | _, some (u, k), _ =>
      let s := s.wr F.CNT_PER_PERIOD (max 1024 (s.rd F.CNT_PER_PERIOD u k)) u k
      if s.rd F.CNT_PER_PERIOD u k = was.rd F.CNT_PER_PERIOD u k then s else s.loadSampling u k
    | _, _, some (u, _) => s.wrBit F.CNT_OVF_SUM_UNITS u (s.on F.CNT_OVF_OVF u)
    | _, _, _ => s

/-- R330: a write of CNT_SELk. -/
def execCntSelWrite (who : Initiator) (u : Fin 64) (k : Fin 8) (v : BitVec 64) (s : State) : Outcome :=
  let off := F.CNT_SEL_SAMPLE.addr u k
  onDie s (fun s => barWrite s who off (fun s => s.writeCnt who off v.toNat))

/-- R330: a write of CNT_PERk. -/
def execCntPerWrite (who : Initiator) (u : Fin 64) (k : Fin 8) (v : BitVec 64) (s : State) : Outcome :=
  let off := F.CNT_PER_PERIOD.addr u k
  onDie s (fun s => barWrite s who off (fun s => s.writeCnt who off v.toNat))

/-- R339: a write of 1 to CNT_SNAP_CTL.NOW. -/
def execSnapNow (who : Initiator) (s : State) : Outcome :=
  let off := F.CNT_SNAP_CTL_NOW.addr 0 0
  onDie s (fun s => barWrite s who off (fun s => s.writeCnt who off 1))

/-- R336: a write of SMP_CTL with FLUSH set. -/
def execSmpFlush (who : Initiator) (v : BitVec 64) (s : State) : Outcome :=
  let off := F.SMP_CTL_EN.addr 0 0
  onDie s (fun s => barWrite s who off (fun s => s.writeCnt who off (setBits v.toNat 2 2 1)))

/-- R338: a write of SMP_CTL with EN set. -/
def execSampleRingEnable (who : Initiator) (v : BitVec 64) (s : State) : Outcome :=
  let off := F.SMP_CTL_EN.addr 0 0
  onDie s (fun s => barWrite s who off (fun s => s.writeCnt who off (setBits v.toNat 0 0 1)))

/-- R338, R340: a write of SMP_CTL with EN clear. -/
def execSampleRingDisable (who : Initiator) (v : BitVec 64) (s : State) : Outcome :=
  let off := F.SMP_CTL_EN.addr 0 0
  onDie s (fun s => barWrite s who off (fun s => s.writeCnt who off (setBits v.toNat 0 0 0)))

/-- R337: a write of RPTR. -/
def execRptrWrite (who : Initiator) (v : BitVec 64) (s : State) : Outcome :=
  let off := F.SMP_PTR_RPTR.addr 0 0
  onDie s (fun s => barWrite s who off (fun s => s.writeCnt who off v.toNat))

end Sys2Proof.Machine
end

