-- ==== Sys2Proof/Machine/Calendar.lean ====
section
/-!
DEFINITION. The event calendar (R51 to R53), the passing of CCLKs, and steps of shelf time (R49, R50).
-/

namespace Sys2Proof.Machine

/-! ### When entries fire -/

/-- R34: an ST value or a period as programmed; bit 0 is ignored. -/
def even (n : Nat) : Nat := n / 2 * 2

/-- The difference of two ST values, modulo 2^64, as a signed number. -/
def stDiff (a b : Nat) : Int := signed 64 ((a + 2 ^ 64 - b % 2 ^ 64) % 2 ^ 64)

def State.calMode (s : State) (n : Nat) : Nat := s.rd F.TIM_CAL_CTL_MODE 0 n
def State.calTime (s : State) (n : Nat) : Nat := even (s.rd F.TIM_CAL_TIME_TIME 0 n)
def State.calPeriod (s : State) (n : Nat) : Nat := even (s.rd F.TIM_CAL_PERIOD_PERIOD 0 n)

/-- R51: the entry is periodic with a period that fires. -/
def State.calPeriodic (s : State) (n : Nat) : Bool := s.calMode n == 2 && 2000 ≤ s.calPeriod n

/-- R51: (ST − PHASE) mod PERIOD, the difference being a signed number. -/
def State.calPhase (s : State) (n st : Nat) : Nat :=
  (((st : Int) - (s.calTime n : Int)) % (s.calPeriod n : Int)).toNat

/-- R51: how many phase matches of a periodic entry are ST values below `x`. -/
def State.calBelow (s : State) (n x : Nat) : Nat :=
  (x + s.calPeriod n - 1 - s.calTime n % s.calPeriod n) / s.calPeriod n

/-- R51, R33: ST units from `st` to the next phase match of a periodic entry; ST wraps at 2^64. -/
def State.calAhead (s : State) (n st : Nat) : Nat :=
  let d := s.calPeriod n - s.calPhase n st
  if st + d < 2 ^ 64 then d else 2 ^ 64 - st + s.calTime n % s.calPeriod n

/-- R51, R52: ST units to the next firing of an entry, and whether it is late; `none`: it does not fire. -/
def State.calDist (s : State) (n : Nat) : Option (Nat × Bool) :=
  let st := s.st
  let p : Option (Nat × Bool) :=
    if s.calMode n = 1 then
      let d := stDiff (s.calTime n) st
      if d ≤ 0 then some (2, true) else some (d.toNat, false)
    else if s.calPeriodic n then some (s.calAhead n st, false)
    else none
  match if n = 62 then s.time.windowNext else none, p with
  | some (_, at_), some (d, l) => some (min d (max 2 (stDiff at_ st).toNat), l)
  | _, p => p

/-- The entries that fire next, in ascending order with LATE, and the CCLKs until then. -/
def State.calNext (s : State) : Nat × List (Nat × Bool) :=
  let ds := (List.range 64).filterMap (fun n => (s.calDist n).map (fun x => (n, x)))
  match ds.map (·.2.1) with
  | [] => (0, [])
  | d :: r =>
    let m := r.foldl min d
    (m / 2, (ds.filter (·.2.1 == m)).map (fun x => (x.1, x.2.2)))

/-! ### Firing -/

/-- Channels that a TARGET names. -/
def calChans (target : Nat) : List Nat := if target = 0xFF then List.range 16 else if target < 16 then [target] else []

/-- What a channel reads under R265 where no command says it: free values. -/
def State.freeReading (s : State) : ChanReading × State :=
  let (v, s) := s.draw
  (⟨BitVec.ofNat 4 v, BitVec.ofNat 16 (v / 2 ^ 4), BitVec.ofNat 16 (v / 2 ^ 20), BitVec.ofNat 8 (v / 2 ^ 36),
    BitVec.ofNat 8 (v / 2 ^ 44)⟩, s)

/-- R264, R265: a REFRESH_PHASE entry fires for a channel. -/
def State.firePhase (s : State) (rs : List (Fin 16 × ChanReading)) (c : Nat) : State :=
  if !s.on F.DRC_CFG_PRESENT c then s
  else
    let s := s.phaseFire c
    match rs.find? (fun x => x.1.val == c) with
    | some x => s.reading c x.2
    | none => let (x, s) := s.freeReading; s.reading c x

/-- R316, R52: entry 62 fires; a new length may come into force. `stepped`: the step has closed the window itself. -/
def State.fireBoundary (s : State) (stepped : Bool) : State :=
  let full := s.calPhase 62 s.st == 0
  let s := match s.time.windowNext with
    | some (us, at_) =>
      if stDiff at_ s.st ≤ 0 then
        let s := ({ s with time := { s.time with windowNext := none } }).wr F.TST_WIN_WINDOW_US us
        s.wr F.TIM_CAL_PERIOD_PERIOD (4000 * us) 0 62
      else s
    | none => s
  if stepped then s else s.closeWindow (!full)

/-- Table 2-9: the action of an entry. -/
def State.calAct (s : State) (rs : List (Fin 16 × ChanReading)) (n : Nat) (stepped : Bool) : State :=
  let t := s.rd F.TIM_CAL_CTL_TARGET 0 n
  match s.rd F.TIM_CAL_CTL_ACTION 0 n with
  | 1 => s.forEach (calChans t) (fun s c => s.firePhase rs c)
  | 2 | 3 => if s.on F.TIM_CAL_CTL_DURATION 0 n then s.set F.TIM_CAL_STAT_OPEN 0 n else s
  | 4 =>
    let s := if s.on F.TIM_CAL_CTL_DURATION 0 n then s.set F.TIM_CAL_STAT_OPEN 0 n else s
    s.forEach (calChans t) State.unparkAll
  | 5 => s.fireBoundary stepped
  | 6 => s.snapshot
  | 7 => s.smpFlush
  | 8 => if t < 8 && s.inlSt (t + 1) == inGRANTED then s.rampStart (t + 1) else s
  | _ => s

/-- R50: after a backward step, an occurrence less than half a period after the previous firing is suppressed. -/
def State.calSuppressed (s : State) (n : Nat) : Bool :=
  s.calMode n == 2 && s.time.suppress.contains n && (s.time.lastFire.any (·.1 == n)) &&
    4 * (s.time.cclk - smGet 0 s.time.lastFire n) < s.calPeriod n

/-- R51: an entry fires. -/
def State.calFire (s : State) (rs : List (Fin 16 × ChanReading)) (n : Nat) (late stepped : Bool) : State :=
  if s.calSuppressed n then s.bump F.TIM_CAL_STAT_MISSED 1 0 n
  else
    let s := { s with time := { s.time with suppress := s.time.suppress.filter (· != n),
                                            lastFire := smInsert s.time.lastFire n s.time.cclk } }
    let s := if s.calMode n = 1 then s.clear F.TIM_CAL_CTL_MODE 0 n else s
    let s := s.bump F.TIM_CAL_STAT_FIRED 1 0 n
    let s := if late then (s.set F.TIM_CAL_STAT_LATE 0 n).set F.TIM_IRQ_CAL_LATE else s
    let s := s.when (s.on F.TIM_CAL_CTL_IRQ_EN 0 n) (fun s => s.irqPulse 3)
    (s.counts 62 evFire).calAct rs n stepped

def State.calFireAll (s : State) (rs : List (Fin 16 × ChanReading)) (l : List (Nat × Bool)) : State :=
  s.forEach l (fun s x => s.calFire rs x.1 x.2 false)

/-! ### CCLKs pass -/

/-- Events of Table 14-2 that come every CCLK, for `k` CCLKs. -/
def State.countCclks (s : State) (k : Nat) : State :=
  let s := s.forEach (List.range 64) (fun s u => (s.add F.CNT_CYC_CYCLES k u).counts u evCclk {} none k)
  let s := s.forEach (List.range 16) (fun s c =>
    let x := s.chan c
    let parked := ((List.range 4).filter (fun r => s.rd F.DRC_RANK_STATUS_STATE c r == rankPARKED)).length
    (s.counts (16 + c) evPanic {} none (if x.panic0.open_ || x.panic1.open_ then k else 0)).counts (16 + c) evParked {}
      none (parked * k))
  -- KCLK is 1.6 GHz: four KCLKs in five CCLKs
  let kclk := (s.time.cclk + k) * 4 / 5 - s.time.cclk * 4 / 5
  s.forEach (List.range 4) (fun s c =>
    if s.cc.cores[c]? = some .running ∨ s.cc.cores[c]? = some .halted then s.counts (56 + c) evKclk {} none kclk else s)

/-- `k` CCLKs pass with nothing else in them. -/
def State.advance (s : State) (k : Nat) : State :=
  let s := s.countCclks k
  let s := s.add F.PWR_RES_CCLKS k 0 (s.rd F.PWR_STATUS_FLOOR)
  let s := s.wr F.TIM_ST_ST (s.st + 2 * k)
  { s with time := { s.time with cclk := s.time.cclk + k }, inl := { s.inl with since := s.inl.since + 2 * k } }

/-- What the block does of itself in a CCLK beside the calendar: a sweep visits a map line (R91), the sample writer goes on
(R336), and so do the cores. -/
def State.background (s : State) : State :=
  ((if s.on F.MAP_AGE_CTL_BUSY then s.sweepLine else s).smpPump).coresGo

/-- One CCLK passes (log entry 1, DESIGN CHOICE). -/
def State.tick (s : State) : State :=
  if s.stage = .running then
    let (k, l) := s.calNext
    let s := s.advance 1
    (if k = 1 then s.calFireAll [] l else s).background
  else if s.stage = .selfTest then s.advance 1
  else s

/-- R51: shelf time runs on to the next CCLK in which entries fire, and they fire. -/
def execCalendarFire (readings : List (Fin 16 × ChanReading)) (s : State) : Outcome :=
  onDie s (fun s =>
    let (k, l) := s.calNext
    if l.isEmpty then s else ((s.advance k).calFireAll readings l).background)

/-- R53: a window closes DURATION after its last firing. -/
def execCalendarWindowClose (n : Fin 64) (s : State) : Outcome :=
  onDie s (fun s => s.clear F.TIM_CAL_STAT_OPEN 0 n)

/-! ### Steps -/

/-- R50: what a step makes of an entry: occurrences missed, and whether it fires in the step CCLK and is late. -/
def State.calStep (s : State) (n old : Nat) (d : Int) : Nat × Option Bool :=
  let new := s.st
  if s.calMode n = 1 then
    let t := s.calTime n
    let e := stDiff t old
    (0, if t = new then some false else if 0 < e ∧ e < d then some true else none)
  else if s.calPeriodic n then
    let hit := s.calPhase n new = 0
    let missed := if d ≤ 0 then 0
      else if old < new then s.calBelow n new - s.calBelow n (old + 1)
      else s.calBelow n (2 ^ 64) - s.calBelow n (old + 1) + s.calBelow n new
    (missed, if hit then some false else none)
  else (0, none)

/-- R50: the entries that fire in the step CCLK, with LATE. -/
def State.stepHits (s : State) (old : Nat) (d : Int) : List (Nat × Bool) :=
  (List.range 64).filterMap (fun n => ((s.calStep n old d).2).map (fun l => (n, l)))

/-- R50: occurrences that a step passes over. -/
def State.stepMissed (s : State) (old : Nat) (d : Int) : State :=
  s.forEach (List.range 64) (fun s n => s.bump F.TIM_CAL_STAT_MISSED (s.calStep n old d).1 0 n)

/-- R50: a backward step lets each periodic entry suppress one occurrence. Entry 62 is not one of them, since R49 ends the
next window at the first boundary after the new ST (log entry 100, DEDUCED). -/
def State.stepBack (s : State) (d : Int) : State :=
  let back := if d < 0 then (List.range 64).filter (fun n => n != 62 && s.calPeriodic n) else s.time.suppress
  { s with time := { s.time with suppress := back } }

/-- R52: a step passes the instant at which a new window length applies. -/
def State.stepLength (s : State) : State :=
  match s.time.windowNext with
  | some (_, at_) => if stDiff at_ s.st ≤ 0 then s.fireBoundary true else s
  | none => s

/-- R47, R49, R50: shelf time steps. In ABSENT, ST_UNSYNC stays 1 (Table 2-6). -/
def State.stepTo (s : State) (new : Nat) : State :=
  let old := s.st
  let d := stDiff new old
  let s := ((s.wr F.TIM_ST_ST new).wr F.TIM_LAST_STEP_D (unsigned 64 d)).add F.TIM_STATUS_STEP_CNT 1
  let s := s.set F.TIM_IRQ_STEP
  let s := if s.rd F.TIM_STATUS_SYNC = 0 then s else s.clear F.TIM_STATUS_ST_UNSYNC
  if d = 0 then s.stepWindow
  else
    let s := s.stepWindow
    let hits := s.stepHits old d
    let s := ((s.stepMissed old d).stepBack d).stepLength
    s.forEach hits (fun s x => s.calFire [] x.1 x.2 true)

/-! ### Entries of the hardware (R52) -/

/-- Load a one-shot entry of the hardware. -/
def State.calOneShot (s : State) (n action target st : Nat) : State :=
  let s := (s.wr F.TIM_CAL_CTL_ACTION action 0 n).wr F.TIM_CAL_CTL_TARGET target 0 n
  (s.wr F.TIM_CAL_TIME_TIME st 0 n).wr F.TIM_CAL_CTL_MODE 1 0 n

/-- R52: entry 62 gets a new window length: it applies from the first multiple of the new PERIOD at or after the next
mark. -/
def State.newWindow (s : State) (us : Nat) : State :=
  let p := 4000 * us
  if s.rd F.TIM_CAL_PERIOD_PERIOD 0 62 = p then { s with time := { s.time with windowNext := none } }
  else
    let mark := (s.st / 40000 + 1) * 40000
    { s with time := { s.time with windowNext := some (us, ceilDiv mark p * p % 2 ^ 64) } }

/-- R52, R317: entry 62 after a reset; the first window is short. -/
def State.firstWindow (s : State) (us : Nat) : State :=
  let s := (s.wr F.TIM_CAL_CTL_ACTION 5 0 62).wr F.TIM_CAL_CTL_MODE 2 0 62
  let s := (s.wr F.TIM_CAL_PERIOD_PERIOD (4000 * us) 0 62).wr F.TST_WIN_WINDOW_US us
  { s with tst := { s.tst with began := s.time.cclk, short := true }, time := { s.time with windowNext := none } }

/-- Table 2-13, R52, R53: a write of a TIM register. Every write of TIM_ST_LOAD in ABSENT steps ST, not the first alone (log
entry 101, DESIGN CHOICE). -/
def State.writeTim (s : State) (who : Initiator) (off v : Nat) : State :=
  if off = F.TIM_ST_LOAD_ST.addr 0 0 then
    if s.rd F.TIM_STATUS_SYNC = 0 then s.stepTo (even v) else s
  else if 0x201780 ≤ off && off < 0x201800 then
    -- entries 60 to 63: STAT only
    if off % 32 = 0x18 then s.writeWord who off v else s
  else
    let s := s.writeWord who off v
    match F.TIM_CAL_CTL_ACTION.at off with
    | some (_, n) =>
      let a := s.rd F.TIM_CAL_CTL_ACTION 0 n
      if a = 5 ∨ 8 ≤ a then s.clear F.TIM_CAL_CTL_ACTION 0 n else s
    | none => s

end Sys2Proof.Machine
end

