-- ==== Sys2Proof/Machine/Tally.lean ====
section
/-!
DEFINITION. Shelf time on the Tally bus: synchronisation (R44 to R48), the query rounds (R38 to R41), and the commands of
the shelf manager (R42, R43, Table 2-5).
-/

namespace Sys2Proof

/-- Table 2-2: FTYPE, in cycles 1 and 2. -/
def TallyFrame.ftype (f : TallyFrame) : BitVec 2 := f.q.extractLsb' 1 2

/-- Table 2-2: MARKST, bits [63:6] of the ST of the next mark, in cycles 6 to 63. -/
def TallyFrame.markst (f : TallyFrame) : BitVec 58 := f.q.extractLsb' 6 58

/-- Table 2-2: the query code of round k: QCODE0 in cycles 3 to 5, the others in the first cycles of the round before. -/
def TallyFrame.code (f : TallyFrame) (k : Nat) : Nat :=
  if k = 0 then (f.q.extractLsb' 3 3).toNat else (f.q.extractLsb' (64 + 16 * (k - 1)) 3).toNat

/-- R37: TALLY_FRM is high in cycle 0 and low in cycles 1 to 249, START is 1, and the next mark follows exactly 250 cycles
after this one. -/
def TallyFrame.ok (f : TallyFrame) : Bool := f.frm == 1 && f.q.getLsbD 0 && f.cycles == 250

end Sys2Proof

namespace Sys2Proof.Machine

/-! ### Synchronisation states of TIM_STATUS.SYNC (Table 2-6) -/

def syABSENT : Nat := 0
def syACQUIRE : Nat := 1
def syLOCKED : Nat := 2
def syHOLDOVER : Nat := 3

def State.sync (s : State) : Nat := s.rd F.TIM_STATUS_SYNC

/-- Table 2-6: ACQUIRE is entered. -/
def State.acquire (s : State) : State :=
  let s := (s.wr F.TIM_STATUS_SYNC syACQUIRE).set F.TIM_STATUS_ST_UNSYNC
  { s with time := { s.time with goodFrames := 0, lastDiff := none } }.clear F.TIM_STATUS_SLEWING

/-- Table 2-6: sixteen good cycles, or a framing error while LOCKED; on both dies. -/
def execTallyAcquire (why : AcquireCause) (s : State) : Outcome :=
  onInlet s (fun s =>
    let s := match why with
      | .goodCycles => { s with inl := { s.inl with tally := s.inl.standby } }
      | .framingError => { s with inl := { s.inl with locked := false, good := 0, lastDiff := none } }
    if !s.clocked then s
    else match why with
      | .goodCycles =>
        if s.sync = syABSENT ∨ s.sync = syHOLDOVER then s.acquire.set F.TIM_STATUS_TALLY_PRESENT else s
      | .framingError => if s.sync = syLOCKED then s.acquire else s)

/-- R48. -/
def execHoldover (s : State) : Outcome :=
  onInlet s (fun s =>
    let s := { s with inl := { s.inl with tally := false, locked := false, good := 0, lastDiff := none } }
    if s.clocked && (s.sync == syACQUIRE || s.sync == syLOCKED) then
      let s := ((s.wr F.TIM_STATUS_SYNC syHOLDOVER).set F.TIM_STATUS_ST_UNSYNC).clear F.TIM_STATUS_TALLY_PRESENT
      let s := ({ s with time := { s.time with goodFrames := 0, lastDiff := none } }).clear F.TIM_STATUS_SLEWING
      (s.bump F.TIM_ERR_LOSS).set F.TIM_IRQ_LOST
    else s)

/-- R47: the offset is absorbed. -/
def execStSlewDone (s : State) : Outcome :=
  onClock s (fun s =>
    if s.on F.TIM_STATUS_SLEWING then (s.clear F.TIM_STATUS_SLEWING).clear F.TIM_STATUS_ST_UNSYNC else s)

/-- R47: a received ST is loaded: it is slewed to, or stepped to. -/
def State.loadSt (s : State) (new : Nat) : State :=
  let d := stDiff new s.st
  if s.on F.TIM_CTL_SLEW_EN && s.time.wasLocked && d.natAbs ≤ 64 then
    if d = 0 then s.clear F.TIM_STATUS_ST_UNSYNC
    else
      ({ s with time := { s.time with slew := d } }.set F.TIM_STATUS_SLEWING).set F.TIM_STATUS_ST_UNSYNC
  else (s.clear F.TIM_STATUS_SLEWING).stepTo new

/-- R45: the ST that a mark's MARKST stands for at the converter. -/
def State.markSt (s : State) (f : TallyFrame) : Nat :=
  even ((64 * f.markst.toNat + (s.rd F.TIM_DELAY_DELAY_PS + s.rd F.TIM_DELAY_RECV_PS) / 250) % 2 ^ 64)

/-- R43: what commands have put off to the mark. Whether DELAY_PS is new. -/
def State.atMark (s : State) : Bool × State :=
  let s := match s.time.capNext with
    | some v => ({ s with time := { s.time with capNext := none } }.wr F.TIM_FLOORCAP_MIN_FLOOR v).retarget
    | none => s
  match s.time.delayNext with
  | some v => (true, { s with time := { s.time with delayNext := none } }.wr F.TIM_DELAY_DELAY_PS v)
  | none => (false, s)

/-- R222: with a Tally frame, TIME falls due on every link. -/
def State.timesDue (s : State) : State :=
  s.forEach ((List.range 8).filter s.flitsFlow) (fun s n => s.onLink n (fun l => { l with timeDue := true }))

/-- R44, R47: the controller die at the mark that ends a valid frame. -/
def State.frameEnd (s : State) (f : TallyFrame) : State :=
  let s := ((s.wr F.TIM_STATUS_FTYPE f.ftype.toNat).counts 62 evFrame).timesDue
  let (fresh, s) := s.atMark
  let usable := f.ftype.toNat ≤ 1
  if s.sync = syACQUIRE then
    let n := s.time.goodFrames + 1
    let s := { s with time := { s.time with goodFrames := n } }
    if 2 ≤ n && usable then
      let s := s.wr F.TIM_STATUS_SYNC syLOCKED
      let s := (s.loadSt (s.markSt f)).set F.TIM_IRQ_LOCKED
      { s with time := { s.time with wasLocked := true, goodFrames := 0, lastDiff := none } }
    else s
  else if s.sync != syLOCKED then s
  else if !usable then { s with time := { s.time with lastDiff := none } }
  else
    let new := s.markSt f
    let d := stDiff new s.st
    let s := if d = 0 || fresh then s else (s.bump F.TIM_ERR_HDR_MISMATCH).counts 62 evMark
    if f.ftype = 1 || (d ≠ 0 && (fresh || s.time.lastDiff == some d)) then
      ({ s with time := { s.time with lastDiff := none } }).loadSt new
    else { s with time := { s.time with lastDiff := if d = 0 then none else some d } }

/-- R43, R44: the inlet die's copy of ST at the mark that ends a valid frame. -/
def State.inletMark (s : State) (f : TallyFrame) : State :=
  let own := (s.inl.st + 40000) % 2 ^ 64
  let got := 64 * f.markst.toNat
  let d := stDiff got own
  let usable := f.ftype.toNat ≤ 1
  let i := { s.inl with since := 0, st := own }
  if !i.locked then
    let load := 2 ≤ i.good + 1 && usable
    { s with inl := { i with good := i.good + 1, locked := load, st := if load then got else own, lastDiff := none } }
  else if !usable then { s with inl := { i with lastDiff := none } }
  else if f.ftype = 1 || (d ≠ 0 && i.lastDiff == some d) then { s with inl := { i with st := got, lastDiff := none } }
  else { s with inl := { i with lastDiff := if d = 0 then none else some d } }

/-! ### Query rounds -/

/-- Table 2-3: the condition of a query code, on the controller die. -/
def State.condition (s : State) (code : Nat) : Bool :=
  let f := s.rd F.PWR_STATUS_FLOOR
  let t := s.rd F.PWR_STATUS_TARGET
  let trans := s.on F.PWR_STATUS_TRANS
  match code with
  | 0 => f ≤ s.rd F.TIM_QCFG_DEMAND_FLOOR || (trans && t ≤ s.rd F.TIM_QCFG_DEMAND_FLOOR)
  | 1 => (trans && t < f) || allRanks.any (fun x => s.rd F.DRC_RANK_STATUS_STATE x.1 x.2 == rankWAKING)
  | 3 => s.on F.GEN_STATUS_FAULT
  | 4 => s.rd F.TIM_QCFG_THERM_HIGH ≤ s.time.temp
  | 5 => s.on F.TST_STATUS_LAST_MISS
  | 6 => (List.range 8).any (fun n => (s.secs.peer n).isSome && s.rd F.CWK_STATUS_STATE n != 3)
  | 7 => s.on F.TIM_QCFG_FW_BIT
  | _ => false

/-- Table 2-3: the conditions of the inlet die. -/
def State.inletCondition (s : State) (code : Nat) : Bool :=
  match code with
  | 2 => inlChans.any (fun c => s.inlSt c == inREADY)
  | 3 => inlChans.any (fun c => s.inlSt c == inTRIPPED)
  | _ => false

/-- The answers of the eight rounds: bit k for round k. -/
def answers (f : TallyFrame) (cond : Nat → Bool) : Nat :=
  ((List.range 8).map (fun k => if cond (f.code k) then 2 ^ k else 0)).sum

/-- R40, R41, R399: the controller die drives TALLY_A. -/
def State.answering (s : State) : Bool :=
  s.stage == .running && s.sync == syLOCKED && s.on F.TIM_CTL_ANSWER_EN && !s.on F.STR_STATUS_RECOVERY &&
    !s.on F.TIM_STATUS_SLOT_MISMATCH

/-- R37 to R45: a frame, to the mark that ends it. A frame that fails R37 is a framing error in LOCKED. -/
def execTallyFrame (f : TallyFrame) (s : State) : Outcome :=
  onInlet s (fun s =>
    let s := if s.clocked then { s with time := { s.time with temp := f.temp.toNat } } else s
    if f.ok then
      let s := s.when s.answering (fun s => s.emit (.tally s.slot (answers f s.condition)))
      let s := s.when (s.inl.standby && s.inl.tally) (fun s =>
        s.emit (.tally s.inl.slot (answers f s.inletCondition)))
      let s := s.when s.clocked (fun s => s.frameEnd f)
      s.when (s.inl.standby && s.inl.tally) (fun s => s.inletMark f)
    else
      let s := s.when s.clocked (fun s =>
        if s.sync = syLOCKED then s.acquire else { s with time := { s.time with goodFrames := 0 } })
      { s with inl := { s.inl with locked := false, good := 0, lastDiff := none } })

/-! ### Commands -/

/-- Table 2-4: the ones of cycles 192 to 249. -/
def tallyOnes (op : Nat) (c : TallyCmd) : Nat :=
  popCount op 4 + popCount c.target.toNat 4 + b2n c.bcast + popCount c.arg.toNat 48 + b2n c.parity

/-- R42: the frame and the parity let the command through. -/
def tallyWhole (op : Nat) (c : TallyCmd) : Bool := c.frame && tallyOnes op c % 2 == 0

/-- R42: the command is addressed to a slot. -/
def tallyTo (slot : Nat) (c : TallyCmd) : Bool := c.bcast || c.target.toNat == slot

/-- R43: a refused command. -/
def State.refuseCmd (s : State) : State := s.bump F.TIM_ERR_CMD_REFUSED

/-- R42: the controller acts on a command. -/
def State.actCmd (s : State) (op : Nat) (c : TallyCmd) : State :=
  let s := (s.wr F.TIM_LAST_CMD_OP op).wr F.TIM_LAST_CMD_TARGET c.target.toNat
  (s.wr F.TIM_LAST_CMD_BCAST (b2n c.bcast)).wr F.TIM_LAST_CMD_ARG c.arg.toNat

/-- R41, R42, R399: a command reaches the controller die: what `f` answers is done, or the command is refused. A parity
failure is counted if the frame is valid and the die LOCKED, whether or not the command is addressed to its slot, and
otherwise not (log entry 72, DESIGN CHOICE). -/
def State.command (s : State) (op : Nat) (c : TallyCmd) (f : State → Option State) : State :=
  if s.stage != .running || s.on F.STR_STATUS_RECOVERY || s.sync != syLOCKED || !c.frame then s
  else if tallyOnes op c % 2 != 0 then s.bump F.TIM_ERR_CMD_PARITY
  else if !(c.bcast || (tallyTo s.slot c && !s.on F.TIM_STATUS_SLOT_MISMATCH)) then s
  else match f s with
    | some s => s.actCmd op c
    | none => s.refuseCmd

/-- R43: the full ST of an ARG that holds its low 40 bits. -/
def fullSt (now arg : Nat) : Nat :=
  let low := arg % 2 ^ 40
  let d := (low + 2 ^ 40 - now % 2 ^ 40) % 2 ^ 40
  if d < 2 ^ 39 then (now + d) % 2 ^ 64 else (now + d + 2 ^ 64 - 2 ^ 40) % 2 ^ 64

def execNop (c : TallyCmd) (s : State) : Outcome := onClock s (fun s => s.command 0 c some)

/-- R353: the grant of a bank, by the controller die. A grant of INLET is the inlet die's. -/
def State.grantBank (s : State) (c : TallyCmd) : Option State :=
  let ch := bits c.arg.toNat 43 40
  if c.bcast || ch = 0 || 9 ≤ ch || s.inlSt ch != inREADY || s.calMode 60 == 1 then none
  else some ((s.calOneShot 60 8 (ch - 1) (fullSt s.st c.arg.toNat)).wr F.INL_CH_STATUS_STATE inGRANTED 0 ch)

/-- R353, R43: INRUSH_GRANT. The inlet die keeps the start of the grant of INLET, a full ST of its own copy. -/
def execInrushGrant (c : TallyCmd) (s : State) : Outcome :=
  onInlet s (fun s =>
    let ch := bits c.arg.toNat 43 40
    let mine := s.inl.standby && s.inl.locked && tallyWhole 1 c && !c.bcast && tallyTo s.inl.slot c && ch == 0 &&
      s.inlSt 0 == inREADY
    if mine then
      { s with inl := { s.inl with grant := fullSt s.inletSt c.arg.toNat } }.wr F.INL_CH_STATUS_STATE inGRANTED 0 0
    else s.command 1 c (fun s => s.grantBank c))

def execFloorCap (c : TallyCmd) (s : State) : Outcome :=
  onClock s (fun s => s.command 2 c (fun s =>
    let v := c.arg.toNat % 8
    if 4 < v then none else some { s with time := { s.time with capNext := some v } }))

/-- Table 2-7: a pending snapshot that is replaced counts as missed. -/
def execSnapshot (c : TallyCmd) (s : State) : Outcome :=
  onClock s (fun s => s.command 3 c (fun s =>
    let s := if s.calMode 63 = 1 then s.bump F.TIM_CAL_STAT_MISSED 1 0 63 else s
    some (s.calOneShot 63 6 0 (fullSt s.st c.arg.toNat))))

def execWindow (c : TallyCmd) (s : State) : Outcome :=
  onClock s (fun s => s.command 4 c (fun s =>
    let us := c.arg.toNat % 1024
    if us = 0 || 1000 < us then none else some (s.newWindow us)))

def execDelay (c : TallyCmd) (s : State) : Outcome :=
  onClock s (fun s => s.command 5 c (fun s =>
    some { s with time := { s.time with delayNext := some (c.arg.toNat % 65536) } }))

/-- Table 2-5: opcodes 0x6 to 0xF. -/
def execTallyRefusedOpcode (op : BitVec 4) (c : TallyCmd) (s : State) : Outcome :=
  onClock s (fun s => if op.toNat < 6 then s else s.command op.toNat c (fun _ => none))

/-- Table 2-12: a write of TIM_ST_LOAD. -/
def execTimStLoad (who : Initiator) (v : BitVec 64) (s : State) : Outcome :=
  let off := F.TIM_ST_LOAD_ST.addr 0 0
  onDie s (fun s => barWrite s who off (fun s => s.writeTim who off v.toNat))

end Sys2Proof.Machine
end

