-- ==== Sys2Proof/Machine/Boot.lean ====
section
/-!
DEFINITION. Resets and start-up (chapter 18): the reset domains, the boot ROM's steps (R397), and applying a structure.
-/

namespace Sys2Proof.Machine

/-! ### Reset domains (Table 0-6, R403) -/

/-- The reset domain of a register key. -/
def regDom (key : Nat) : Dom :=
  match Field.all.find? (fun f => f.id == key % 2 ^ 32) with
  | some f => f.dom
  | none => .warm

/-- R403, R402: what a WARM reset leaves: the NVS, the inlet die, shelf time, the on-chip log, pins, and DRAM contents. -/
def State.clearWarm (s : State) : State :=
  let t := { s.time with capNext := none, delayNext := none, lastFire := [], suppress := [], windowNext := none }
  let sec : SecSt := { ir := s.sec.ir, dr := s.sec.dr, boundary := s.sec.boundary,
                       endLater := s.sec.endLater || s.on F.DBG_STATUS_LEVEL }
  { pending := s.pending, regs := s.regs.filter (fun x => regDom x.1 != .warm), free := s.free, out := s.out,
    stage := s.stage, nvs := s.nvs, flash := s.flash, time := t, str := { applied := s.str.applied, secs := s.str.secs },
    sec := sec, ras := s.ras, mem := s.mem, perst := s.perst, inl := s.inl }

/-- R403: a COLD reset clears the COLD fields, the on-chip log and shelf time besides. That it ended a debug session is
recorded after it too (R390). -/
def State.clearCold (s : State) : State :=
  let s := s.clearWarm
  { s with regs := s.regs.filter (fun x => regDom x.1 != .cold), ras := [], time := {}, str := {},
           sec := { endLater := s.sec.endLater } }

/-! ### Steps 1 and 2 of R397 -/

/-- R381, R382: the zeroisation and the state word of a lifecycle transition that the reset completes. -/
def State.enterLc (s : State) (lc : Nat) : State :=
  let s := if lc = lcReturned then
      let s := { s with nvs := { s.nvs with ownerKey := [] } }
      ((s.clear F.FWC_MINSEQ_OWNER_MIN).clear F.FWC_POLICY_COSIGN_REQ)
    else s
  let id := if s.nvs.ownerKey.isEmpty then List.replicate 16 0 else keyId s.nvs.ownerKey
  let s := (s.wr F.SEC_OWNER_ID_KEY_ID (le id 0 8) 0 0).wr F.SEC_OWNER_ID_KEY_ID (le id 8 8) 0 1
  ({ s with nvs := { s.nvs with lcPending := none } }.wr F.SEC_LC_STATE lc).clear F.SEC_LC_PENDING

/-- Table 16-5: LEN of a calibration section. -/
def calLen (id : Nat) : Nat :=
  match id with
  | 1 => 65536
  | 2 => 64
  | 3 => 64
  | 4 => 528
  | _ => 2048

/-- R375: the section is present, and its LEN, VERSION and CRC are right. -/
def State.calSec (s : State) (id : Nat) : Option CalSection :=
  (s.nvs.cal.find? (·.id == id)).filter (fun x =>
    x.version == 1 && x.len == calLen id && x.payload.length == x.len && x.crc == crc64 x.payload)

/-- R375: the calibration set is read. -/
def State.readCal (s : State) : State :=
  let s := s.forEach [1, 2, 3, 4, 5] (fun s id =>
    match s.calSec id with
    | some x => (s.wrBit F.NVS_CAL_STATUS_VALID (id - 1) true).wrBit F.NVS_CAL_STATUS_USER (id - 1) (x.origin == 1)
    | none =>
      ((s.wrBit F.NVS_CAL_STATUS_VALID (id - 1) false).wrBit F.NVS_CAL_STATUS_USER (id - 1) false).record 0x52 2 rasFWC 0 id)
  let tally := ((s.calSec 4).map (·.payload)).getD []
  let s := (s.wr F.TIM_DELAY_DELAY_PS (le tally 0 2)).wr F.TIM_DELAY_RECV_PS (le tally 2 2)
  match s.calSec 2 with
  | some x => s.forEach inlChans (fun s c =>
      (s.wr F.INL_CH_MODEL_RTH (Config.inletModel x.payload c 0) 0 c).wr F.INL_CH_MODEL_TAU_US
        (Config.inletModel x.payload c 1) 0 c)
  | none => s.forEach inlChans (fun s c => (s.wr F.INL_CH_MODEL_RTH 500 0 c).wr F.INL_CH_MODEL_TAU_US 2000 0 c)

/-- Table 17-13: DBG_NONCE is random. -/
def State.newNonce (s : State) : State :=
  s.forEach (List.range 4) (fun s n => let (v, s) := s.draw; s.wr F.DBG_NONCE_NONCE v 0 n)

/-- R135: slot 0 is filled from the random source. -/
def State.fillSlot0 (s : State) : State :=
  let (a, s) := s.draw
  let (b, s) := s.draw
  let (c, s) := s.draw
  let s := s.setKeySlot 0 { cur := ⟨a % 2 ^ 256, b % 2 ^ 256, c % 2 ^ 256⟩ }
  ((s.clear F.KEY_SLOT_STATE_GEN 0 0).wr F.KEY_SLOT_STATE_STATE 1 0 0).set F.KEY_STATUS_SLOT0_READY

/-! ### Applying a structure -/

/-- What the LDL section shows in the port registers: MLD and LD_ID (Tables 3-5 and 3-11). -/
def State.applyLds (s : State) : State :=
  s.forEach (List.range 16) (fun s p =>
    let lds := s.secs.portLds p
    let s := s.wr F.PRT_CFG_MLD (b2n (lds.any (·.mld))) p
    s.forEach (List.range 16) (fun s k => s.wr F.PRT_LD_STAT_LD_ID ((lds[k]?.map (·.ld)).getD 0) p k))

/-- The ports (Table 3-5). -/
def State.applyPorts (s : State) : State :=
  s.forEach (List.range 16) (fun s p =>
    let qs := s.secs.unitQuads 1 p
    match qs with
    | [] => s
    | q :: _ =>
      let x := s.secs.quads.getD q ⟨0, 0, 0, 0⟩
      let s := ((s.set F.PRT_CFG_PRESENT p).wr F.PRT_CFG_STATION (q / 4) p).wr F.PRT_CFG_UNIT_WIDTH (qs.length / 2) p
      (s.wr F.PRT_CFG_SPEED_CAP x.speed p).wr F.PRT_CFG_LANE_REV x.rev p) |>.applyLds

/-- The channels: Tables 10-5, 10-7, 10-9 and 11-7. -/
def State.applyChans (s : State) : State :=
  s.forEach (List.range 16) (fun s c =>
    let x := s.secs.chn c
    let s := s.wr F.DRC_PARK_PARK_MAX_MS (s.secs.limitVal 6) c
    if x.dpc = 0 then s
    else
      let s := ((s.wr F.DRC_CFG_RATE x.rate c).wr F.DRC_CFG_DENS x.dens c).wr F.DRC_CFG_WIDTH8 (b2n (x.width == 8)) c
      let s := (s.wr F.DRC_CFG_RANKS x.ranks c).wr F.DRC_CFG_DPC x.dpc c
      s.forEach (List.range 4) (fun s r =>
        (s.wr F.DRC_RANK_STATUS_LOFT (b2n (s.secs.loftRank c r)) c r).wr F.DRC_ECC_RANK_MARK_AUTO_MARK
          (b2n (x.width != 8)) c r))

/-- The Span and its links: Tables 9-10, 9-11 and 9-14, and HOM_CFG.PF_WAYS (R178). -/
def State.applySpan (s : State) : State :=
  let s := s.forEach (List.range 8) (fun s n =>
    let qs := s.secs.unitQuads 2 n
    let v := s.secs.vcs n
    let s := s.wr F.CWK_STATUS_VCS v n
    let s := match qs with
      | [] => s
      | q :: _ => (s.wr F.CWK_CTL_TGT_RATE (s.secs.quads.getD q ⟨0, 0, 0, 0⟩).speed n).wr F.CWK_CTL_TGT_WIDTH (qs.length / 2) n
    s.forEach (s.usedVcs n) (fun s k => s.wr F.CWK_VC_RXBUF (4096 / v / 16 * 16) n k))
  let pf := s.secs.spanEn && !s.secs.lite
  s.forEach (List.range 16) (fun s h => s.wr F.HOM_CFG_PF_WAYS (if pf then 4 else 0) h)

/-- R19: the runs of the ROUTE section, written to a table. -/
def State.applyRoutes (s : State) (table : Field) : State :=
  s.forEach s.secs.routes (fun s r =>
    s.forEach (r.2.2.2.zipIdx) (fun s x => s.wr table x.1 0 (512 * r.1 + 64 * r.2.1 + r.2.2.1 + x.2)))

/-- R21: the masters that a TSC section names get its values; `gone` return to the defaults of Table 1-3. -/
def State.applyTsc (s : State) (gone : List Nat) : State :=
  let put := fun (s : State) (m g c l : Nat) =>
    ((s.wr F.TST_M_LIM_GUAR g 0 m).wr F.TST_M_LIM_CEIL c 0 m).wr F.TST_M_LAT_LAT_NS l 0 m
  let s := s.forEach gone (fun s m => put s m 0 0 0)
  s.forEach s.secs.tsc (fun s e => put s e.1 e.2.1 e.2.2.1 e.2.2.2)

/-- R22, R330, Table 1-11: the counters that a CNTD section names are programmed and cleared; `gone` are disabled and
cleared. A CNTD entry has no IRQ_EN bit, and programming clears IRQ_EN, at a live commit too (log entry 96, DESIGN CHOICE). -/
def State.applyCntd (s : State) (gone : List (Nat × Nat)) : State :=
  let s := s.forEach gone (fun s x =>
    let s := (s.clear F.CNT_SEL_EN x.1 x.2).clear F.CNT_SEL_SAMPLE x.1 x.2
    let s := ((s.clear F.CNT_SEL_IRQ_EN x.1 x.2).clear F.CNT_SEL_EVENT x.1 x.2).clear F.CNT_SEL_QUAL x.1 x.2
    (s.clear F.CNT_PER_PERIOD x.1 x.2).clear F.CNT_CTR_COUNT x.1 x.2)
  s.forEach s.secs.cntd (fun s e =>
    let s := (s.wr F.CNT_SEL_EN (b2n e.en) e.unit e.ctr).wr F.CNT_SEL_SAMPLE (b2n e.sample) e.unit e.ctr
    let s := ((s.clear F.CNT_SEL_IRQ_EN e.unit e.ctr).wr F.CNT_SEL_EVENT e.event e.unit e.ctr).wr F.CNT_SEL_QUAL e.qual
      e.unit e.ctr
    ((s.wr F.CNT_PER_PERIOD (max 1024 e.period) e.unit e.ctr).clear F.CNT_CTR_COUNT e.unit e.ctr).loadSampling e.unit e.ctr)

/-- R41: the slot of the image against the strapped slot. -/
def State.slotCheck (s : State) : State :=
  if s.slot = s.time.strap then s
  else ((s.set F.TIM_STATUS_SLOT_MISMATCH).set F.TIM_IRQ_SLOT_MISMATCH).record 0x30 2 rasTIM 0 s.time.strap s.slot

/-- Step 4 of R397: a structure is applied whole, after a reset. -/
def State.applyStructure (s : State) (ss : Sections) : State :=
  let s := { s with str := { s.str with applied := true, secs := ss } }
  let s := ((s.applyPorts.applyChans.applySpan.showPaths.applyRoutes F.NOC_RT_CUR_ENTRY).applyRoutes F.NOC_RT_SHADOW_ENTRY)
  let s := s.wr F.MAP_HOLD_HOLD_US (min (le (ss.get secTIER) 0 2) (ss.limitVal 2))
  let s := s.forEach (layout ss (fun _ => 1) (fun _ => true)) (fun s g => s.wr F.MAP_RG_CFG_LOFT (b2n g.loft) 0 g.idx)
  let s := ((s.applyTsc []).firstWindow ss.windowUs).loadForce.effective
  ((s.applyCntd []).inlLimits.slotCheck).showTols

/-- R88: the map is initialised; Memory Active is reported. -/
def State.mapReady (s : State) : State :=
  let s := (s.set F.MAP_STATUS_READY).clear F.MAP_STATUS_INIT_BUSY
  ((s.wr F.MAP_TIERCNT_PAGES s.secs.pages 0 0).wr F.KEY_SLOT_USE_USE s.secs.pages 0 0).set F.GEN_STATUS_MEM_ACTIVE

/-- The register fields that hold what a structure sets. -/
def structFields : List Field :=
  [F.PRT_CFG_STATION, F.PRT_CFG_UNIT_WIDTH, F.PRT_CFG_SPEED_CAP, F.PRT_CFG_LANE_REV, F.PRT_CFG_MLD, F.PRT_CFG_PRESENT,
   F.PRT_LD_STAT_LD_ID, F.DRC_CFG_RATE, F.DRC_CFG_DIES, F.DRC_CFG_DENS, F.DRC_CFG_WIDTH8, F.DRC_CFG_RANKS, F.DRC_CFG_DPC,
   F.DRC_CFG_EXCLUDED, F.DRC_CFG_PRESENT, F.DRC_PARK_PARK_MAX_MS, F.DRC_RANK_STATUS_LOFT, F.DRC_RANK_STATUS_STATE,
   F.DRC_ECC_RANK_MARK_AUTO_MARK, F.CWK_STATUS_VCS, F.CWK_CTL_TGT_RATE, F.CWK_CTL_TGT_WIDTH, F.CWK_VC_RXBUF,
   F.HOM_CFG_PF_WAYS, F.NOC_RT_CUR_ENTRY, F.NOC_RT_SHADOW_ENTRY, F.MAP_HOLD_HOLD_US, F.MAP_RG_CFG_LOFT,
   F.MAP_RG_CFG_PRESENT, F.MAP_RG_CFG_UNUSED_MIB, F.MAP_RG_CNT_CHUNKS_TOTAL, F.MAP_RG_CNT_CHUNKS_FREE, F.TST_M_LIM_GUAR,
   F.TST_M_LIM_CEIL, F.TST_M_LAT_LAT_NS, F.CNT_SEL_EN, F.CNT_SEL_SAMPLE, F.CNT_SEL_IRQ_EN, F.CNT_SEL_EVENT,
   F.CNT_SEL_QUAL, F.CNT_PER_PERIOD, F.CNT_CTR_COUNT, F.STR_RUN_SEQ_SEQ, F.STR_RUN_DIGEST_DIGEST, F.STR_SKIPPED_SKIPPED,
   F.TIM_STATUS_SLOT_MISMATCH]

/-- Nothing of a structure is in force: its ports go down, its channels are untrained, and the fields that it set are at
their reset values (R26, R83). -/
def State.dropStructure (s : State) : State :=
  let s := s.forEach (List.range 16) (fun s p => if s.on F.PRT_LINK_UP p then s.linkDown p else s)
  { s with regs := s.regs.filter (fun x => !structFields.any (fun f => f.id == x.1 % 2 ^ 32)), dram := [], map := {} }

/-- R26: the recovery structure, in place of a structure that is in force. -/
def State.recover (s : State) : State :=
  let s := s.dropStructure
  (((s.applyStructure (recoverySecs s.time.strap)).set F.STR_STATUS_RECOVERY).clear F.STR_RUN_SEQ_SEQ).mapReady

/-! ### Step 4: the structure image -/

/-- The public key that R10 admits, X ‖ Y; empty: none. -/
def State.imageKey (s : State) : Bytes := if s.owned then s.nvs.ownerKey else toBE 96 Config.romImageKey

/-- The die counts that R17 is checked with: as trained, else as the SPD reports (log entry 6, DESIGN CHOICE). -/
def State.dieCounts (s : State) : List Nat :=
  (List.range 16).map (fun c => if s.on F.DRC_CFG_PRESENT c then (s.chan c).dies else 2 ^ (Config.spdDies c % 3))

/-- What verification needs of the machine. -/
def State.imgCtx (s : State) : ImgCtx :=
  ⟨s.rd F.STR_MINSEQ_MINSEQ, s.rd F.GEN_ID0_BIN, s.imageKey, s.owned, s.dieCounts⟩

/-- R24: RESULT, SECTION and POSITION of a load. After a load that succeeds, and after RESULT 0x40, 0x41, 0x43 and 0x44,
SECTION and POSITION are 0 (log entry 97, DESIGN CHOICE). -/
def State.showResult (s : State) (r : ImgResult) (mailbox : Bool) : State :=
  let s := (s.wr F.STR_STATUS_RESULT r.code).wr F.STR_STATUS_SECTION (min 255 r.pos)
  (s.wr F.STR_FAIL_POSITION r.pos).wr F.STR_STATUS_SRC (b2n mailbox)

/-- STR_RUN_SEQ and STR_RUN_DIGEST of an image, and the sections it skipped (R11). STR_SKIPPED saturates at 255 (log entry
98, DESIGN CHOICE). -/
def State.showImage (s : State) (img : Bytes) (skipped : Nat) : State :=
  let s := (s.wr F.STR_RUN_SEQ_SEQ (le img 0xC 4)).wr F.STR_SKIPPED_SKIPPED (min 255 skipped)
  s.forEach (List.range 6) (fun s n => s.wr F.STR_RUN_DIGEST_DIGEST (le img (0x30 + 8 * n) 8) 0 n)

/-- R25: the boot ROM verifies the two slots and runs the first image that passes. -/
def State.bootStructure (s : State) : State :=
  let pref := s.on F.STR_BOOT_PREF_SLOT
  let a := verifyImage s.imgCtx s.flash.imgA
  let b := verifyImage s.imgCtx s.flash.imgB
  let s := (s.wr F.STR_BOOT_SLOT_A_VALID (b2n (a.code == 0))).wr F.STR_BOOT_SLOT_B_VALID (b2n (b.code == 0))
  if s.on F.GEN_STATUS_BIST_FAIL then s.recover
  else
    let order := if pref then [(true, b), (false, a)] else [(false, a), (true, b)]
    match order.find? (fun x => x.2.code == 0) with
    | some (isB, r) =>
      let s := (s.showResult r false).wr F.STR_STATUS_RUN_SLOT (b2n isB)
      (s.showImage (if isB then s.flash.imgB else s.flash.imgA) r.skipped).applyStructure r.secs
    | none => (s.showResult (if pref then a else b) false).recover

/-! ### Step 5: firmware -/

/-- What R364 needs of the machine. -/
def State.fwCtx (s : State) : FwCtx :=
  ⟨s.owned, s.nvs.ownerKey, s.rd F.FWC_MINSEQ_VENDOR_MIN, s.rd F.FWC_MINSEQ_OWNER_MIN, s.on F.FWC_POLICY_COSIGN_REQ⟩

/-- The firmware image of a slot; true: B. -/
def State.fwSlot (s : State) (b : Bool) : Bytes := if b then s.flash.fwB else s.flash.fwA

/-- R364: the firmware of a slot is accepted. -/
def State.fwOk (s : State) (b : Bool) : Bool := fwAccept s.fwCtx (s.fwSlot b)

/-- SEC_STATUS.CC_OWNER follows the firmware and the lifecycle (R383). -/
def State.showCc (s : State) : State := s.wr F.SEC_STATUS_CC_OWNER (b2n s.ccOwner)

/-- R365: core 0 starts the firmware of a slot, and the watchdog starts with TMO_MS = 1,000 (R368). Cores 1 to 3 are in reset,
with CORE_RUN clear, after an online restart too (log entry 129, DESIGN CHOICE). -/
def State.fwStart (s : State) (b : Bool) : State :=
  let img := (s.fwSlot b).take (le (s.fwSlot b) 8 4)
  let cc : Cc := { cores := [.running, .inReset, .inReset, .inReset], sramOfs := le img 0x24 4, sram := img.drop 0x200,
                   entry := le img 0x28 4, header := img.take 0x200, restart := none, wdtFrom := s.time.cclk,
                   plic := s.cc.plic }
  let s := { s with cc := cc }.wr F.FWC_WDT_TMO_MS 1000
  let s := ((s.wr F.FWC_STATUS_RUN_SLOT (b2n b)).wr F.FWC_STATUS_KIND (fwKind img)).clear F.FWC_STATUS_MONITOR
  ((s.wr F.FWC_RUN_SEQ (fwSeq img)).wr F.FWC_RUN_VERSION (fwVersion img)).clear F.FWC_CTL_CORE_RUN |>.showCc

/-- R366: the boot ROM's monitor. -/
def State.monitor (s : State) : State :=
  let cc : Cc := { cores := [.running, .inReset, .inReset, .inReset], wdtFrom := s.time.cclk,
                   plic := s.cc.plic }
  (({ s with cc := cc }.wr F.FWC_WDT_TMO_MS 1000).set F.FWC_STATUS_MONITOR).showCc

/-- R365, R366: firmware is selected and started. -/
def State.bootFirmware (s : State) : State :=
  let a := s.fwOk false
  let b := s.fwOk true
  let s := (s.wr F.FWC_STATUS_SLOT_A_VALID (b2n a)).wr F.FWC_STATUS_SLOT_B_VALID (b2n b)
  let pref := s.on F.FWC_BOOT_PREF_SLOT
  let s := if s.on F.GEN_STATUS_BIST_FAIL then s.monitor
    else if if pref then b else a then s.fwStart pref
    else if if pref then a else b then s.fwStart !pref
    else s.monitor
  s.set F.GEN_STATUS_BOOT_DONE

/-! ### Resets -/

/-- Table 1-12: an image write that a reset cuts short leaves a slot that does not verify. -/
def State.cutWrites (s : State) : State :=
  match s.str.load with
  | none => s
  | some l =>
    if s.rd F.STR_STATUS_STATE != 4 then s
    else if l.slotB then { s with flash := { s.flash with imgB := [] } }
    else { s with flash := { s.flash with imgA := [] } }

/-- R397, steps 1 and 2; slot 0 is filled (R135). -/
def State.bootWords (s : State) : State :=
  let s := match s.nvs.lcPending with
    | some lc => s.enterLc lc
    | none => s
  s.readCal.newNonce.fillSlot0

/-- R397, steps 4 and 5. -/
def State.boot (s : State) : State := ({ s with stage := .running }).bootStructure.bootFirmware

/-- R402: a WARM reset. -/
def State.warmReset (s : State) (cause station : Nat) : State :=
  let s := (s.wr F.GEN_STATUS_RESET_CAUSE cause).wr F.GEN_STATUS_STATION station
  let s := s.record 0x53 0 rasGEN 0 cause station
  s.cutWrites.clearWarm.bootWords.boot

/-- R420: COLD reset is asserted. -/
def execSupplyLoss (s : State) : Outcome :=
  onInlet s (fun s => { s.cutWrites.clearCold with stage := .coldReset })

/-- R397: COLD reset is released; steps 1 and 2, and the self-test begins. -/
def execColdResetRelease (s : State) : Outcome :=
  onInlet s (fun s =>
    if s.stage != .coldReset then s
    else
      let s := s.clearCold
      ({ s with time := { s.time with strap := s.inl.slot }, stage := .selfTest }).bootWords)

/-- R397, R398: the self-test ends. -/
def execSelfTestDone (bad : Option BadRow) (s : State) : Outcome :=
  onInlet s (fun s =>
    if s.stage != .selfTest then s
    else match bad with
      | none => s.boot
      | some b => ((s.set F.GEN_STATUS_BIST_FAIL).record 0x61 3 rasGEN 0 b.structure_.toNat b.row.toNat).boot)

/-- R55, R401: PERST_L of a station falls. -/
def execPerstLFall (station : Fin 8) (s : State) : Outcome :=
  onInlet s (fun s =>
    if s.perst.contains station.val then s
    else
      let s := { s with perst := s.perst ++ [station.val] }
      if s.clocked || s.stage == .fullDebug then s.warmReset 1 station else s)

/-- R401: PERST_L of a station rises. -/
def execPerstLRise (station : Fin 8) (s : State) : Outcome :=
  onInlet s (fun s => { s with perst := s.perst.filter (· != station.val) })

/-- R402: a write of GEN_RST. -/
def State.genRst (s : State) (v : Nat) : State :=
  if F.GEN_RST_KEY.of v = 0xA5C3 && v % 2 = 1 then s.warmReset 2 0 else s

def execGenRst (who : Initiator) (v : BitVec 32) (s : State) : Outcome :=
  onDie s (fun s => barWrite s who (F.GEN_RST_GO.addr 0 0) (fun s => s.genRst v.toNat))

/-- R371, R428: THERMTRIP_L is driven low: until the supplies go. -/
def State.thermtrip (s : State) : Bool := s.stage == .stopped

/-- R371: a die sensor reads 115 °C: the clocks stop until the next COLD reset. -/
def execThermalShutdown (s : State) : Outcome :=
  onClock s (fun s => { s.selfRefresh.set F.FWC_STATUS_LAST_THERMTRIP with stage := .stopped })

/-! ### The map (R82, R83, R88) -/

/-- R82: every populated channel has been trained or excluded. -/
def State.allTrained (s : State) : Bool :=
  (List.range 16).all (fun c => (s.secs.chn c).dpc == 0 || s.on F.DRC_CFG_PRESENT c || s.on F.DRC_CFG_EXCLUDED c)

/-- R80: capacity of a group that its layout leaves unused, in MiB. -/
def State.unusedMib (s : State) (g : Group) : Nat :=
  (g.chans.map (fun c => ((s.secs.chn c).rankBytes (s.chan c).dies - g.size) / 1048576)).sum

/-- R88: initialisation ends: the layout as trained, the reserved areas, and a map with nothing backed. If the areas
exceed every awake chunk, the recovery structure is applied (R83). -/
def State.mapInit (s : State) : State :=
  let gs := layout s.secs (fun c => (s.chan c).dies) (fun c => s.on F.DRC_CFG_PRESENT c)
  let fits : Option (List (Group × Nat)) :=
    if (awake gs).isEmpty && s.secs.limit != 0 then none else reserved s.secs gs
  match fits with
  | none => (s.record 0x31 2 rasMAP 0 0).recover
  | some rs =>
    let s := { s with map := { groups := gs, resv := rs.map Prod.snd }, mem := [], causes := [] }
    let s := s.forEach rs (fun s x =>
      let g := x.1
      let s := (s.wr F.MAP_RG_CNT_CHUNKS_TOTAL g.chunks 0 g.idx).wr F.MAP_RG_CNT_CHUNKS_FREE (g.chunks - x.2) 0 g.idx
      ((s.set F.MAP_RG_CFG_PRESENT 0 g.idx).wr F.MAP_RG_CFG_LOFT (b2n g.loft) 0 g.idx).wr F.MAP_RG_CFG_UNUSED_MIB
        (s.unusedMib g) 0 g.idx)
    s.mapReady.retarget

def execMapInitDone (s : State) : Outcome :=
  onDie s (fun s => if s.on F.MAP_STATUS_READY || !s.allTrained then s else s.mapInit)

end Sys2Proof.Machine
end

