-- ==== Sys2Proof/Machine/Noc.lean ====
section
/-!
DEFINITION. The commands of the torus (R196 to R208): link faults, detours, the misroute sink and ERR, route epochs,
fences, and blocks sent to a gallery.
-/

namespace Sys2Proof.Machine

/-- The message of a command as it stands on the torus. -/
def nocFlight (p : NocMsg) : Flight :=
  ⟨p.opc.toNat, match p.ep with
    | some e => .ep e.val
    | none => match p.agent with
      | some a => .agent a.val
      | none => .home, p.m⟩

/-- A packet takes the hops before the one from router `r` over link `d`; `none`: its way does not lead there, or meets a fault
first. The first argument bounds the hops. -/
def State.reachHop : Nat → State → Pkt → Nat → Nat → Option Pkt
  | 0, _, _, _, _ => none
  | n + 1, s, p, r, d =>
    match p.next with
    | none => none
    | some e =>
      if p.ejected then none
      else if p.at_ = r ∧ e = d then some p
      else if s.failed p.at_ e || s.stale p then none
      else State.reachHop n s (p.hop e) r d

/-- A packet takes the hops up to router `r`, where its next hop cannot be taken; `none`: it meets no such place there. The first
argument bounds the hops. -/
def State.reachSink : Nat → State → Pkt → Nat → Option Pkt
  | 0, _, _, _ => none
  | n + 1, s, p, r =>
    if p.ejected then none
    else if p.at_ = r ∧ s.stale p then some p
    else match p.next with
      | none => none
      | some e =>
        match s.hopOver p e with
        | none => if p.at_ = r then some p else none
        | some (q, _) => State.reachSink n s q r

/-! ### Faults of links (R196 to R198) -/

/-- R198: a link fails, in both directions. -/
def State.linkFails (s : State) (r d : Nat) : State :=
  if s.rdBit F.NOC_RTR_STAT_FAILED d 0 r then s
  else
    let s := s.wrBit F.NOC_RTR_STAT_FAILED d true 0 r
    let s := s.wrBit F.NOC_RTR_STAT_FAILED (backLink d) true 0 (neighbour r d)
    (s.set F.NOC_IRQ_LINK_FAIL).record 0x13 2 rasNOC 0 r (2 ^ d)

def execNocLinkFail (router : Fin 32) (link : Fin 4) (s : State) : Outcome :=
  onDie s (fun s => s.linkFails router link)

/-- R197: a data flit has a double-bit error: the line it carries is poisoned. -/
def State.datUe (s : State) (f : Flight) : State :=
  let bad : Flight := { f with msg := { f.msg with poison := true } }
  let s := (s.bump F.NOC_ERR_DAT_UE).set F.NOC_IRQ_DAT_UE
  let s := { s with coh := { s.coh with flight := s.coh.flight.map (fun x => if x = f then bad else x) },
                    noc := { s.noc with
                      pkts := s.noc.pkts.map (fun (p : Pkt) => if p.flight = f then { p with flight := bad } else p),
                      bad := if f.opc < 0x20 then s.noc.bad else s.noc.bad ++ [f] } }
  s.record 0x15 1 rasNOC 0 f.msg.line.toNat

/-- R187, R196, R197: what the check of a flit finds, with these bits wrong: a header flit that a router's input refuses; a data
flit with correctable words; one with a word that is not. -/
inductive FlitCheck where
  | good
  | failed
  | words (n : Nat)
  | double (n : Nat)
deriving DecidableEq, Repr

/-- R187, R196, R197: flit `k` of a packet as sent, checked with the bits of `flips` wrong. An even number of wrong bits in a group
of a header flit escapes its parity (log entry 115, DESIGN CHOICE). -/
def Pkt.check (p : Pkt) (k flips : Nat) : FlitCheck :=
  if k < headerFlits p.net then
    let g := flitGroups p.net
    if headerOk g ((p.flits.getD k 0) ^^^ flips % 2 ^ (32 * g)) then .good else .failed
  else if p.net != 3 then .good
  else if wordsBad flips then .double (wordsCorrected flips)
  else if wordsCorrected flips = 0 then .good else .words (wordsCorrected flips)

/-- R196, R198: a check fails at the input of router `r` from link `d`: the sender replays. After four failed replays of the flit
the link has failed. -/
def State.replayFlit (s : State) (r d : Nat) (p : Option Pkt) : State :=
  if s.rdBit F.NOC_RTR_STAT_FAILED d 0 r then s
  else
    let s := ((s.bump F.NOC_RTR_ERR_RETRY 1 0 r).bump F.NOC_ERR_HDR_RETRY).counts 61 evRetry
    match p with
    | none => s
    | some p =>
      let s := s.setPkt { p with retries := p.retries + 1 }
      if p.retries + 1 = 5 then s.linkFails r d else s

/-- R196, R197: flit `flit` of a packet comes with bits wrong: at the input of a router from a link, or, for a data flit without
PERHOP_ECC, at the packet's destination. -/
def execNack (router : Fin 32) (link : Fin 4) (p : NocMsg) (e : FlitError) (s : State) : Outcome :=
  onDie s (fun s =>
    let f := nocFlight p
    let known := s.pktOf f
    let at_ := known.bind (fun q => s.reachHop 20 q (neighbour router link) (backLink link))
    if known.isSome && at_.isNone && (opNet f.opc != 3 || e.flit == 0 || s.on F.NOC_CTL_PERHOP_ECC) then s
    else match ((at_.orElse (fun _ => known)).getD (s.packet f)).check e.flit.toNat e.flips.toNat with
      | .good => s
      | .failed => s.replayFlit router link at_
      | .words n => s.bump F.NOC_ERR_DAT_CE n
      | .double n =>
        if s.on F.NOC_CTL_PERHOP_ECC then s.replayFlit router link at_
        else (if n = 0 then s else s.bump F.NOC_ERR_DAT_CE n).datUe f)

/-! ### Detours (R199, R200) -/

/-- R199: a packet whose next hop uses a failed link takes the detour, three hops. One that cannot goes to the sink (R200). -/
def execDetour (l : TorusLink) (p : NocMsg) (s : State) : Outcome :=
  onDie s (fun s =>
    match (s.pktOf (nocFlight p)).bind (fun q => s.reachHop 20 q l.router l.link) with
    | none => s
    | some q => if s.failed l.router l.link then (State.travel 3 (s.setPkt q) q).2 else s)

/-! ### The sink and ERR (R201, R202) -/

/-- R201: what SINK_LAST shows: information bits [63:0] of the header as the router holds it, where its check failed; else those of
the packet. -/
def sunkHeader (hdr : BitVec 64) (parity : Bool) (q : Pkt) : Nat := if parity then q.info % 2 ^ 64 else hdr.toNat

/-- R201: a packet whose header check still fails after a link of the router has failed: the sink absorbs it, and nothing
answers. -/
def State.sinkBad (s : State) (r : Nat) (hdr : BitVec 64) (f : Flight) : State :=
  if (List.range 4).any (s.failed r) then (s.unsend f).sunk r hdr.toNat else s

/-- R201: a router's sink absorbs a packet that cannot be routed there or is of an old epoch, and ERR goes to its source; or one
whose header, `hdr`, fails its check. -/
def execMisrouteSink (router : Fin 32) (hdr : BitVec 64) (parity : Bool) (p : NocMsg) (s : State) : Outcome :=
  onDie s (fun s =>
    let f := nocFlight p
    if !parity then s.sinkBad router hdr f
    else match (s.pktOf f).bind (fun q => s.reachSink 20 q router) with
      | none => s
      | some q => s.sink q)

/-- R202: what ends a request that could not be delivered: the answer it awaits, poisoned if it is data. -/
def lostAnswer (f : Flight) : Flight :=
  let opc :=
    if f.opc = opRdO then opDataE
    else if f.opc = opUpg then opCmpE
    else if f.opc = opWbD then (if f.msg.noown then opCmp else opAck)
    else if f.opc = opEvC then opAck else opData
  ⟨opc, .agent f.msg.src.toNat, { line := f.msg.line, slot := f.msg.slot, rtag := f.msg.rtag, poison := opNet opc == 3,
                                  mask := if opNet opc = 3 then BitVec.allOnes 64 else 0 }⟩

/-- R202: a lookup of a home is lost: its read brings a poisoned line, its write is discarded. -/
def State.lookupLost (s : State) (f : Flight) : State :=
  let h := f.msg.src.toNat
  let tt := f.msg.htag.toNat
  match s.map.reqs.find? (fun r => r.home == h && r.tt == tt && r.st == .flight) with
  | none => s
  | some r =>
    let s := s.failEvent r.agent r.line 1 (if r.write then 2 else 1)
    let s := s.dropReq r
    let r : MapReq := { r with st := .served, got := if r.write then none else some (zeroLine, 1) }
    { s with map := { s.map with reqs := s.map.reqs ++ [r] } }

/-- R202: an internal request is lost: an MMIO read returns zero to the initiator whose agent ID is in SRC, of the register at LINE
× 8 (log entry 114, DESIGN CHOICE); a write and a push are discarded. -/
def State.internalLost (s : State) (f : Flight) : State :=
  let a := f.msg.src.toNat
  let s := s.record 0x15 1 rasNOC 0 f.msg.line.toNat
  if f.opc = opMMIORD then
    s.emit (.bar0 (if h : a < 64 then .ld ⟨a, h⟩ else .cc) (8 * f.msg.line.toNat) 0)
  else if f.opc = opMAPRD then s.lookupLost f
  else s

/-- R202: a request ends as an uncorrectable error. The data of a write goes with it. -/
def State.requestLost (s : State) (f : Flight) : State :=
  let a := f.msg.src.toNat
  let line := f.msg.line.toNat
  let s := s.record 0x15 1 rasNOC 0 line
  let s := s.failEvent a line 1 (if f.opc = opWbD then 2 else 1)
  let s := if f.opc = opWbD then
      match s.coh.flight.find? (fun x => x.opc == opDataM && x.msg.src == f.msg.src && x.msg.line == f.msg.line) with
      | some d => (s.unsend d).unspend a (homeOf line)
      | none => s.unspend a (homeOf line)
    else s
  s.send (lostAnswer f)

/-- R202: a request is injected again, on the current epoch's route. -/
def State.again (s : State) (f : Flight) : State :=
  let s := { s with noc := { s.noc with again := s.noc.again ++ [f] } }
  if f.opc < 0x20 then s.send f else s.inject f

/-- R202: the source of a packet acts on its ERR. -/
def State.errActs (s : State) (f : Flight) : State :=
  let s := { s with noc := { s.noc with errs := s.noc.errs.erase f } }
  if opNet f.opc != 0 then s.fatalAll 0x14 rasNOC 0 f.msg.line.toNat (s.srcEp f)
  else if !s.noc.again.contains f then s.again f
  else
    let s := { s with noc := { s.noc with again := s.noc.again.erase f } }
    if f.opc < 0x20 then s.requestLost f else s.internalLost f

/-- R202: the ERR of a packet reaches its source. -/
def execErr (p : NocMsg) (s : State) : Outcome :=
  onDie s (fun s =>
    let f := nocFlight p
    if !s.noc.errs.contains f then s
    else match s.noc.pkts.find? (fun q => q.flight.opc == opERR && q.flight.msg == errMsg f) with
      | none => s.errActs f
      | some q =>
        let (there, s) := s.bring q.flight
        if there then (s.dropPkt q.flight).errActs f else s)

/-! ### Route epochs (R203 to R205) -/

def epIDLE : Nat := 0
def epDRAIN : Nat := 1

/-- Route-table entries that hold something other than the default route, as 512 × endpoint + entry. -/
def State.routesSet (s : State) : List Nat :=
  let js := s.regs.filterMap (fun x =>
    let n := x.1 % 2 ^ 32
    let k := x.1 / 2 ^ 32
    if (n == F.NOC_RT_CUR_ENTRY.id || n == F.NOC_RT_SHADOW_ENTRY.id) && k % 2 == 0 then some (k / 2) else none)
  js.eraseDups

/-- R192: a shadow entry passes the check of the flip. -/
def State.shadowOk (s : State) (j : Nat) : Bool :=
  let e := s.rd F.NOC_RT_SHADOW_ENTRY 0 j
  !e.testBit 40 || (j % 64 ≤ 40 && routeLegal (j / 512) (j % 64) e)

/-- R203: a flip: refused for a bad entry, ignored unless STATE is IDLE. -/
def State.flip (s : State) : State :=
  if s.rd F.NOC_EPOCH_STATE != epIDLE then s
  else
    let js := s.routesSet
    if !js.all s.shadowOk then s.set F.NOC_EPOCH_BAD
    else
      let s := s.forEach js (fun s j =>
        let a := s.rd F.NOC_RT_CUR_ENTRY 0 j
        let b := s.rd F.NOC_RT_SHADOW_ENTRY 0 j
        (s.wr F.NOC_RT_CUR_ENTRY b 0 j).wr F.NOC_RT_SHADOW_ENTRY a 0 j)
      ((s.clear F.NOC_EPOCH_BAD).wr F.NOC_EPOCH_CUR (1 - s.rd F.NOC_EPOCH_CUR)).wr F.NOC_EPOCH_STATE epDRAIN

/-- A route of the current tables takes link `d` of router `r`. -/
def State.routed (s : State) (r d : Nat) : Bool :=
  (List.range 41).any (fun e => (List.range 256).any (fun i =>
    let x := s.rd F.NOC_RT_CUR_ENTRY 0 (512 * e + i)
    let cs := (routeCodes x).filter (· < 4)
    x.testBit 40 && (List.range cs.length).any (fun k => cs[k]? == some d && walk (epRouter e) (cs.take k) == r)))

/-- R198, R205: the staged link enables take effect in every router. A link that is disabled with no route using it
fails. -/
def State.applyLinks (s : State) : State :=
  let changed := (List.range 32).filter (fun r => s.rd F.NOC_RTR_LINK_NEXT 0 r != s.rd F.NOC_RTR_LINK_LINK_EN 0 r)
  let off := changed.flatMap (fun r => ((List.range 4).filter (fun d =>
    s.rdBit F.NOC_RTR_LINK_LINK_EN d 0 r && !s.rdBit F.NOC_RTR_LINK_NEXT d 0 r)).map (fun d => (r, d)))
  let s := s.forEach changed (fun s r => s.wr F.NOC_RTR_LINK_LINK_EN (s.rd F.NOC_RTR_LINK_NEXT 0 r) 0 r)
  let s := { s with noc := { s.noc with reconf := changed } }
  s.forEach off (fun s x => if s.routed x.1 x.2 then s else s.linkFails x.1 x.2)

/-- R203: STATE becomes APPLY: the link changes apply, EPOCH_DONE is set, and STATE returns to IDLE. -/
def State.epochApply (s : State) : State :=
  (s.applyLinks.set F.NOC_IRQ_EPOCH_DONE).wr F.NOC_EPOCH_STATE epIDLE

/-- A domain goes on: the accesses of a gallery that stalled while it drained are tried again (R160, R207). -/
def State.domAgain (s : State) (d : Nat) : State := if 16 ≤ d && d < 32 then s.agRetry (d + 48) else s

/-- A write of a NOC register: its fields, and what follows. -/
def State.writeNoc (s : State) (who : Initiator) (off v : Nat) : State :=
  if off = 0x800008 then
    let s := s.when (v.testBit 8) State.flip
    s.when (v.testBit 9 && s.rd F.NOC_EPOCH_STATE == epDRAIN) State.epochApply
  else if off = 0x800010 then s.wr F.NOC_EPOCH_TMO_TMO_US (clamp 10 60000 (F.NOC_EPOCH_TMO_TMO_US.of v))
  else match F.NOC_DOM_CTL_FENCE.at off with
    | some (_, d) =>
      let was := s.on F.NOC_DOM_CTL_FENCE 0 d
      let s := s.writeWord who off v
      if v.testBit 0 then (if was then s else s.fence d) else (s.endDrain d).domAgain d
    | none => s.writeWord who off v

/-- R203: a write of 1 to NOC_EPOCH.FLIP. -/
def execEpochFlip (who : Initiator) (v : BitVec 64) (s : State) : Outcome :=
  onDie s (fun s => barWrite s who 0x800008 (fun s => s.writeNoc who 0x800008 (setBit v.toNat 8 true)))

/-- R203: OLD_CNT of every router reads zero. -/
def execEpochDrainDone (s : State) : Outcome :=
  onDie s (fun s => if s.rd F.NOC_EPOCH_STATE = epDRAIN ∧ s.oldDone = true then s.epochApply else s)

/-- R204. -/
def execEpochDrainTimeout (s : State) : Outcome :=
  onDie s (fun s => if s.rd F.NOC_EPOCH_STATE = epDRAIN then s.set F.NOC_IRQ_DRAIN_TMO else s)

/-- R204: a write of 1 to NOC_EPOCH.FORCE. -/
def execEpochForce (who : Initiator) (v : BitVec 64) (s : State) : Outcome :=
  onDie s (fun s => barWrite s who 0x800008 (fun s => s.writeNoc who 0x800008 (setBit v.toNat 9 true)))

/-! ### Fences (R206 to R209) -/

/-- BAR0 offset of NOC_DOMd.CTL. -/
def domCtl (d : Nat) : Nat := 0x802000 + 0x20 * d

/-- R206: a write of 1 to CTL.FENCE. -/
def execFenceRequest (who : Initiator) (d : Fin 40) (v : BitVec 64) (s : State) : Outcome :=
  onDie s (fun s => barWrite s who (domCtl d) (fun s => s.writeNoc who (domCtl d) (setBit v.toNat 0 true)))

/-- R209: a write of 0 to CTL.FENCE. -/
def execFenceCancel (who : Initiator) (d : Fin 40) (v : BitVec 64) (s : State) : Outcome :=
  onDie s (fun s => barWrite s who (domCtl d) (fun s => s.writeNoc who (domCtl d) (setBit v.toNat 0 false)))

/-- R207: OUTSTANDING reaches zero. -/
def execFenceAck (d : Fin 40) (s : State) : Outcome :=
  onDie s (fun s =>
    let s := s.showDom d
    if s.rd F.NOC_DOM_STATUS_STATE 0 d = domDRAINING ∧ s.outstanding d = 0 then (s.fenceDone d).enter else s)

/-- R189: a packet with an opcode that Table 8-4 does not define is discarded at its endpoint, with a RAS record. -/
def State.badPacket (s : State) (f : Flight) : State := (s.unsend f).record 0x15 1 rasNOC 0 f.msg.line.toNat

/-- R208: a packet reaches a domain that is FENCED or WAKING, and is held there once. One that no rule defines is discarded by a
domain that is not (R189). -/
def execFencedArrival (p : NocMsg) (s : State) : Outcome :=
  onDie s (fun s =>
    let f := nocFlight p
    let (there, s) := s.bring f
    if !there then s
    else match s.domOf f with
      | none => if opDefined f.opc then s else s.badPacket f
      | some d =>
        if s.domDown d then (if s.holdRoom d (opNet f.opc) then (s.landed f).holdAt d f else s)
        else if opDefined f.opc then s else s.badPacket f)

/-- R208: a waking domain is ON. -/
def execDomainOn (d : Fin 40) (s : State) : Outcome :=
  onDie s (fun s =>
    if s.rd F.NOC_DOM_STATUS_STATE 0 d = domWAKING then
      let s := (s.domGo d).domAgain d
      let s := if d.val < 16 then
          { s with pwr := { s.pwr with selfRef := s.pwr.selfRef.filter (fun x => x / 4 != d.val) } }
        else s
      s.when (s.on F.PWR_STATUS_TRANS && !s.pwr.entering) State.rise
    else s)

/-! ### Blocks (R93, R125) -/

/-- R125, R189: the BLK of a block of a page. -/
def blkFlight (g page block : Nat) : Flight := ⟨opBLK, .ep (16 + g), { line := BitVec.ofNat 40 (8 * page + block) }⟩

/-- A home's block reaches a gallery, or is held at its boundary. One that an uncorrectable flit has poisoned is bad for every
read that waits for it (R197). -/
def execBlk (g : Fin 16) (page : BitVec 34) (block : Fin 8) (granules : Bytes) (s : State) : Outcome :=
  onDie s (fun s =>
    let d := 16 + g.val
    let f := blkFlight g page.toNat block
    if s.domDown d then s.holdBlk g page.toNat block granules
    else if s.noc.bad.contains f then
      { s with noc := { s.noc with bad := s.noc.bad.erase f } }.shareBlock page.toNat block (.bad 1)
    else s.blkDecode g page.toNat block granules)

end Sys2Proof.Machine
end

