-- ==== Sys2Proof/WellFormed.lean ====
section
/-!
DEFINITION. Which commands are well-formed: the lengths that the spec fixes for what a command carries, and who can send
it. The meanings are total and do not rest on it.
-/

namespace Sys2Proof

/-- R372, R393: the functions that have a mailbox and an SPDM responder: an LD and the MCTP endpoint. -/
def hasSpdm : Initiator → Bool
  | .ld _ => true
  | .mctp => true
  | _ => false

/-- R372: a mailbox payload holds at most 64 KiB. -/
def mailboxInput (who : Initiator) (input : Bytes) : Bool := hasSpdm who && input.length ≤ 65536

/-- At most one reading of every channel. -/
def onePerChannel : List (Fin 16 × ChanReading) → Bool
  | [] => true
  | r :: rs => !(rs.any (fun x => x.1 == r.1)) && onePerChannel rs

/-- Table 17-6: the IR values that select an instruction other than BYPASS. -/
def tapCode (ir : Nat) : Bool := [0x01, 0x02, 0x03, 0x10, 0x11, 0x12, 0x13, 0x14, 0x15].contains ir

/-- The command is well-formed. -/
def Instr.wellFormed (i : Instr) : Bool :=
  match i with
  | .push _ _ item => item.length == 64
  | .pushSop _ _ item => item.length == 64
  | .pushMid _ _ item => item.length == 64
  | .pushEop _ _ item => item.length == 64
  | .token bytes => bytes.length == 168
  | .flitReceive _ bytes => bytes.length == 256
  | .blk _ _ _ granules => granules.length % 64 == 0 && granules.length ≤ 512
  | .dramReadData _ _ raw again => raw.length == 80 && again.length == 80
  | .calendarFire readings => onePerChannel readings
  | .keyExchange t _ leafKey => hasSpdm t && (leafKey.all (fun k => k.length == 96))
  | .transferFw who _ image => hasSpdm who && image.length ≤ 4194304
  | .vendorUnsupported who opcode input => mailboxInput who input && 0xC007 ≤ opcode.toNat && opcode.toNat ≤ 0xC0FF
  | .tallyRefusedOpcode op _ => 5 < op.toNat
  | .bypass ir => !tapCode ir.toNat
  | .strLoadStart who input => mailboxInput who input
  | .strLoadContinue who input => mailboxInput who input
  | .strLoadEnd who input => mailboxInput who input
  | .strLoadAbandon who input => mailboxInput who input
  | .identify who input => mailboxInput who input
  | .strInfo who input => mailboxInput who input
  | .rasRead who input => mailboxInput who input
  | .calInfo who input => mailboxInput who input
  | .calExport who input => mailboxInput who input
  | .calWriteStart who input => mailboxInput who input
  | .calWriteContinue who input => mailboxInput who input
  | .calWriteAbandon who input => mailboxInput who input
  | .calWriteEnd who input _ => mailboxInput who input
  | .getFwInfo who => hasSpdm who
  | .activateFwOffline who _ => hasSpdm who
  | .activateFwOnline who _ => hasSpdm who
  | .getVersion t => hasSpdm t
  | .getCapabilities t => hasSpdm t
  | .negotiateAlgorithms t => hasSpdm t
  | .getDigests t => hasSpdm t
  | .setOwner t _ _ _ => hasSpdm t
  | .seal t _ _ _ => hasSpdm t
  | .lcReturn t _ _ _ => hasSpdm t
  | .bind t _ _ => hasSpdm t
  | .unbind t _ _ => hasSpdm t
  | .keyLoad t _ _ => hasSpdm t
  | .keyRetire t _ _ => hasSpdm t
  | .keyErase t _ _ => hasSpdm t
  | .getCertificate t _ _ => hasSpdm t
  | .challenge t _ => hasSpdm t
  | .getMeasurements t _ => hasSpdm t
  | .keyUpdate t _ => hasSpdm t
  | .heartbeat t _ => hasSpdm t
  | .endSession t _ => hasSpdm t
  | .spdmUnsupported t _ => hasSpdm t
  | .finish t _ _ => hasSpdm t
  | .registerWrite .. | .rcRead .. | .halfReadCapture .. | .lowerHalfWrite .. | .upperHalfWrite .. | .supplyLoss ..
  | .coldResetRelease .. | .selfTestDone .. | .perstLFall .. | .perstLRise .. | .genRst .. | .mapInitDone ..
  | .imageCommit .. | .quiesceTimeout .. | .ldHoldRelease .. | .imagePersistDone .. | .strMinseqWrite ..
  | .tallyAcquire .. | .tallyFrame .. | .stSlewDone .. | .holdover .. | .timStLoad .. | .nop .. | .inrushGrant ..
  | .floorCap .. | .snapshot .. | .window .. | .delay .. | .calendarWindowClose .. | .portLinkUp ..
  | .portLinkDown .. | .m2sMemrd .. | .m2sMemrddata .. | .m2sMeminv .. | .m2sMemwr .. | .m2sMemwrptl ..
  | .m2sMemclnevct .. | .m2sMemspecrd .. | .m2sOther .. | .birsp .. | .biconflict .. | .dcAddExtent ..
  | .dcReleaseExtent .. | .dcReleaseDone .. | .flr .. | .cxlReset .. | .ideKm .. | .ideIntegrityFail ..
  | .laneFail .. | .laneRecoveryDone .. | .ltrReceived .. | .prtLdOvrWrite .. | .qportStallExpire .. | .maprd ..
  | .mapwr .. | .mapline .. | .mapFlush .. | .ageSweep .. | .ageSweepDone .. | .promotionDone ..
  | .heldWriteResume .. | .holdExpire .. | .hallGrantTick .. | .poolLowTick .. | .chunkZeroDone .. | .pmeRead ..
  | .pmeSetPin .. | .pmeClearPin .. | .pmeSetPoison .. | .pmeWriteAge .. | .twinCfgWrite .. | .keyEraseDone ..
  | .regionEnable .. | .rds .. | .rdo .. | .upg .. | .wbd .. | .evc .. | .rdnc .. | .wayEligible .. | .snps ..
  | .snpi .. | .snpf .. | .rspi .. | .rsps .. | .rspf .. | .rspx .. | .datam .. | .memoryData .. | .wdone ..
  | .lockTimeout .. | .data .. | .datae .. | .cmp .. | .cmpe .. | .ack .. | .load .. | .store .. | .evict ..
  | .dirRead .. | .nack .. | .nocLinkFail .. | .detour .. | .misrouteSink .. | .err .. | .epochFlip ..
  | .epochDrainDone .. | .epochDrainTimeout .. | .epochForce .. | .fenceRequest .. | .fenceCancel .. | .fenceAck ..
  | .fencedArrival .. | .domainOn .. | .creditReportMissing .. | .faultRetrain .. | .cwkLaneFail .. | .replayReq ..
  | .retrainReq .. | .retrainAck .. | .wakeTol .. | .time .. | .wakeTolAgeExpire .. | .hello .. | .helloTimer ..
  | .exclude .. | .pathloss .. | .fwmsg .. | .catwalkPacket .. | .cwkLinkDetect .. | .cwkTrained ..
  | .cwkTrainTimeout .. | .cwkInitTimeout .. | .plannedRetrain .. | .retrainDone .. | .retrainTimeout ..
  | .exclusionSweepDone .. | .readmit .. | .smapEnable .. | .smapDisable .. | .channelAdmit .. | .dramCommandIssue ..
  | .panicExpire .. | .powerDownEntry .. | .parkStart .. | .parkDone .. | .rankPark .. | .rankWake .. | .wakeDone ..
  | .refreshCheck .. | .refreshDue .. | .phaseStaleRead .. | .channelTrainDone .. | .retrack .. | .pmicFault ..
  | .ceLeak .. | .scrubStep .. | .scrubWindowStep .. | .scrubForce .. | .remapInstall .. | .remapInstallDone ..
  | .remapRetire .. | .pprSoft .. | .pprHard .. | .pprDone .. | .pop .. | .release .. | .mark .. | .rewind ..
  | .gapTruncate .. | .qreset .. | .queueEnable .. | .queueDisable .. | .jobQueueBind .. | .jobQueueUnbind ..
  | .galFlush .. | .descriptorFetch .. | .copy .. | .fill .. | .zdetect .. | .crc .. | .scan .. | .touch ..
  | .twinhash .. | .encode .. | .decode .. | .aesEnc .. | .aesDec .. | .demote .. | .demoteCommit .. | .relocate ..
  | .relocateCommit .. | .promote .. | .mapScan .. | .rekey .. | .reslot .. | .jobCommit .. | .abort ..
  | .cntSelWrite .. | .cntPerWrite .. | .snapNow .. | .smpFlush .. | .sampleWriteDone .. | .sampleRingEnable ..
  | .sampleRingDisable .. | .rptrWrite .. | .floorDwellExpire .. | .coreWfi .. | .coreSleepTimeout ..
  | .presenceLow .. | .qualifyDone .. | .presenceHigh .. | .guardEnChange .. | .bankEnWrite .. | .inletRampStart ..
  | .autoRamp .. | .rampDone .. | .rampFault .. | .currentLimit .. | .limitExit .. | .faultTimeExpire ..
  | .faultTimerClear .. | .fastTrip .. | .fetOvertemp .. | .thermalModelUpdate .. | .standbyLoss .. | .standbyRise ..
  | .coreRun .. | .activationDone .. | .kick .. | .watchdogExpire .. | .thermalShutdown .. | .lastThermtripClear ..
  | .fwcMinseqWrite .. | .transferIdleTimeout .. | .idcode .. | .samplePreload .. | .extest .. | .nonce ..
  | .dbgstat .. | .bar0 .. | .dtm .. | .scanChains .. | .tapReset .. | .close .. | .hashAddrSet .. | .sramError ..
  | .decodeTimeout .. | .configurationSpaceWrite .. | .aspmL1Entry .. | .aspmL1Exit .. | .inletDieOvertemp ..
  | .clearEventRecords .. => true

end Sys2Proof
end

