-- ==== Sys2Proof/Machine/Load.lean ====
section
/-!
DEFINITION. Loading a structure image through the mailbox (R24, R27 to R31): the transfer sequence, draining, the commit
and persisting.
-/

namespace Sys2Proof.Machine

/-! ### The mailbox (R372, R373) -/

/-- A mailbox completion. -/
def State.answer (s : State) (who : Initiator) (c : MbxCode) (payload : Bytes := []) : State := s.emit (.mbx who c payload)

/-- R366, R372: a mailbox command. In the monitor only the commands marked ROM are served. -/
def onMailbox (who : Initiator) (rom : Bool) (input : Bytes) (s : State) (f : State → State) : Outcome :=
  onDie s (fun s =>
    if !hasSpdm who then s
    else if s.on F.FWC_STATUS_MONITOR && !rom then s.answer who .unsupported
    else if 65536 < input.length then s.answer who .invalidInput
    else f s)

/-- A background command runs (R373). -/
def State.inBackground (s : State) : Bool := s.str.load.isSome || s.str.cal.isSome

/-- The open transfer sequence belongs to another function, or is of the other command (R373). -/
def State.transferTaken (s : State) (who : Initiator) (cal : Bool) : Bool :=
  s.str.xfer.any (fun x => x.who != who || x.cal != cal)

/-- Open, change or close the transfer sequence. -/
def State.setTransfer (s : State) (x : Option Transfer) : State := { s with str := { s.str with xfer := x } }

/-- Table 16-4: the fixed part of an item of a transfer sequence: ACTION, FLAGS or ID, zero, OFFSET. -/
def itemOk (action : Nat) (input : Bytes) : Bool := 8 ≤ input.length && byteAt input 0 == action && le input 2 2 == 0

/-- R372: a continue item: DATA at OFFSET, in ascending order with no gaps. -/
def State.transferData (s : State) (who : Initiator) (cal : Bool) (input : Bytes) : State :=
  match s.str.xfer with
  | none => s.answer who .invalidInput
  | some x =>
    if s.transferTaken who cal then s.answer who .busy
    else if le input 4 4 != x.data.length || input.length ≤ 8 then s.answer who .invalidInput
    else (s.setTransfer (some { x with data := x.data ++ input.drop 8 })).answer who .success

/-- R372: an abandon item. -/
def State.transferDrop (s : State) (who : Initiator) (cal : Bool) : State :=
  if s.transferTaken who cal then s.answer who .busy else (s.setTransfer none).answer who .success

/-! ### The end of a load -/

def ldIDLE : Nat := 0
def ldVERIFY : Nat := 1
def ldDRAIN : Nat := 2
def ldCOMMIT : Nat := 3
def ldPERSIST : Nat := 4

/-- The output of STR_LOAD: RESULT, SECTION, zero. -/
def loadOutput (code sec : Nat) : Bytes := toLE 1 code ++ toLE 1 sec ++ [0, 0]

/-- R24, Table 1-22: a load ends with a RESULT. -/
def State.loadEnds (s : State) (who : Initiator) (r : ImgResult) : State :=
  let s := { s with str := { s.str with load := none } }
  let s := (s.showResult r true).wr F.STR_STATUS_STATE ldIDLE
  let s := s.set (if r.code ≤ 1 then F.STR_IRQ_DONE else F.STR_IRQ_REJECT)
  s.answer who .success (loadOutput r.code (s.rd F.STR_STATUS_SECTION))

/-- Galleries fetch and start what was paused (R27). -/
def State.resumeJobs (s : State) : State := s.forEach (List.range 16) (fun s g => State.startJobs 16 s g)

/-- R27, R28: the hold on LDs ends. -/
def State.releaseLds (s : State) : State :=
  let l := s.str.ldHold
  ({ s with str := { s.str with ldHold := [] } }).forEach l State.m2sAgain

/-! ### Draining (R27) -/

/-- The LDs whose LDL entries differ. -/
def changedLds (a b : Sections) : List Nat := (List.range 64).filter (fun l => a.ldEntry l != b.ldEntry l)

/-- The domains whose PDM entries differ. -/
def changedDoms (a b : Sections) : List Nat := (List.range 40).filter (fun d => a.pdm d != b.pdm d)

/-- R27: draining begins. -/
def State.drainBegin (s : State) (l : PendingLoad) : State :=
  let s := { s with str := { s.str with load := some l, ldHold := (s.str.ldHold ++ changedLds s.secs l.secs).eraseDups } }
  s.forEach (changedDoms s.secs l.secs) (fun s d => (s.endDrain d).wakeDom d)

/-- R27, R204: draining has completed. -/
def State.drained (s : State) (l : PendingLoad) : Bool :=
  let ch := changedSecs s.secs l.secs
  (!ch.contains secLDL || !s.reqs.any (fun r => (changedLds s.secs l.secs).contains r.ld)) &&
  (!ch.contains secTIER || (s.map.zeroing.isEmpty && (List.range 16).all (fun g =>
    (s.gal g).jobs.all (fun j => !(j.st == .running && 0x10 ≤ j.op && j.op ≤ 0x12))))) &&
  (changedDoms s.secs l.secs).all (fun d => s.rd F.NOC_DOM_STATUS_STATE 0 d == domON) &&
  (!ch.contains secROUTE || s.rd F.NOC_EPOCH_STATE == epIDLE)

/-! ### The commit (R28, Table 1-11) -/

/-- R19, R203: a changed ROUTE section: its runs over a copy of the current tables, and the flip. An image without the
section brings back the routes of the boot ROM (R12). -/
def State.commitRoute (s : State) : State :=
  let s := s.forEach s.routesSet (fun s j =>
    s.wr F.NOC_RT_SHADOW_ENTRY
      (if s.secs.has secROUTE then s.rd F.NOC_RT_CUR_ENTRY 0 j else defaultRoute (j / 512) (j % 512)) 0 j)
  (s.applyRoutes F.NOC_RT_SHADOW_ENTRY).flip

/-- A changed TIER section: the map's length, and which rank groups are Loft. -/
def State.commitTier (s : State) (old : Sections) : State :=
  let s := s.wr F.MAP_TIERCNT_PAGES (s.rd F.MAP_TIERCNT_PAGES 0 0 + s.secs.pages - old.pages) 0 0
  let s := s.wr F.KEY_SLOT_USE_USE (s.rd F.KEY_SLOT_USE_USE 0 0 + s.secs.pages - old.pages) 0 0
  let gs := s.map.groups.map (fun g => { g with loft := s.secs.loftRank (g.chans.headD 0) g.r })
  let s := { s with map := { s.map with groups := gs } }
  let s := s.forEach gs (fun s g => s.wr F.MAP_RG_CFG_LOFT (b2n g.loft) 0 g.idx)
  s.forEach allRanks (fun s x => s.wr F.DRC_RANK_STATUS_LOFT (b2n (s.secs.loftRank x.1 x.2)) x.1 x.2)

/-- R21, R22: the TSC entries, and the CNTD entries, that the old section names and the new one does not. -/
def goneTsc (old new : Sections) : List Nat := (old.tsc.map (·.1)).filter (fun m => !(new.tsc.map (·.1)).contains m)
def goneCntd (old new : Sections) : List (Nat × Nat) :=
  (old.cntd.map (fun e => (e.unit, e.ctr))).filter (fun x => !(new.cntd.map (fun e => (e.unit, e.ctr))).contains x)

/-- The sections in force after the commit: the changed LIVE and QUIESCE sections replace the running ones. -/
def committedSecs (old new : Sections) : Sections :=
  old.filter (fun x => secClass x.1 == some 2) ++ new.filter (fun x => secClass x.1 != some 2)

/-- R28: the commit instant. The released galleries and what follows from the new values come last. STR_RUN_SEQ,
STR_RUN_DIGEST and STR_SKIPPED take the image's values here, also where RESET sections wait for a reset, and keep them if
the flash write then fails (log entry 99, DESIGN CHOICE). -/
def State.commit (s : State) (l : PendingLoad) : State :=
  let old := s.secs
  let ch := changedSecs old l.secs
  let s := { s with str := { s.str with secs := committedSecs old l.secs } }
  let s := s.when (ch.contains secLDL) State.applyLds
  let s := s.when (ch.contains secTIER) (fun s => s.commitTier old)
  let s := s.when (ch.contains secTSC) (fun s => (s.applyTsc (goneTsc old l.secs)).newWindow s.secs.windowUs)
  let s := s.when (ch.contains secCNTD) (fun s => s.applyCntd (goneCntd old l.secs))
  let s := s.when (ch.contains secROUTE) State.commitRoute
  let s := if s.on F.STR_STATUS_RECOVERY then s else s.showImage l.bytes l.skipped
  s.showTols.resumeJobs

/-- R29: what follows the commit: persisting, or the end of the load. -/
def State.afterCommit (s : State) (l : PendingLoad) : State :=
  if l.persist then
    { s with str := { s.str with load := some { l with slotB := !s.on F.STR_BOOT_PREF_SLOT } } }.wr F.STR_STATUS_STATE ldPERSIST
  else s.loadEnds l.who ⟨0, 0, [], 0⟩

/-! ### The commands of STR_LOAD -/

/-- R31: mailbox loads are permitted. -/
def State.loadAllowed (s : State) : Bool := s.on F.STR_CTL_MBX_LOAD_EN || s.on F.STR_STATUS_RECOVERY

/-- R372, R31, Table 1-12: the start of a sequence. -/
def execStrLoadStart (who : Initiator) (input : Bytes) (s : State) : Outcome :=
  onMailbox who true input s (fun s =>
    if !itemOk 0 input || input.length != 8 || 1 < byteAt input 1 then s.answer who .invalidInput
    else if s.str.load.isSome then s.answer who .success (loadOutput 0x42 0)
    else if s.transferTaken who false || s.inBackground then s.answer who .busy
    else if !s.loadAllowed then s.loadEnds who (.bad 0x44)
    else (s.setTransfer (some ⟨who, false, 0, (byteAt input 1).testBit 0, [], []⟩)).answer who .success)

def execStrLoadContinue (who : Initiator) (input : Bytes) (s : State) : Outcome :=
  onMailbox who true input s (fun s =>
    if !itemOk 1 input || 1 < byteAt input 1 then s.answer who .invalidInput else s.transferData who false input)

/-- R24, R29: the image is verified; what has changed decides how the load goes on. -/
def State.loadImage (s : State) (x : Transfer) : State :=
  let r := verifyImage s.imgCtx x.data
  let ch := changedSecs s.secs r.secs
  let l : PendingLoad := ⟨x.who, x.data, r.secs, r.skipped, x.persist, false⟩
  if r.code != 0 then s.loadEnds x.who r
  else if ch.isEmpty then s.loadEnds x.who (.bad 0x01)
  else if !x.persist && ch.any (fun t => secClass t == some 2) then s.loadEnds x.who (.bad 0x40)
  else if ch.any (fun t => secClass t == some 1 || t == secROUTE) then (s.drainBegin l).wr F.STR_STATUS_STATE ldDRAIN
  else { s with str := { s.str with load := some l } }.wr F.STR_STATUS_STATE ldCOMMIT

/-- R372: the end item runs as a background operation; R31 judges the load at its start and at its end. -/
def execStrLoadEnd (who : Initiator) (input : Bytes) (s : State) : Outcome :=
  onMailbox who true input s (fun s =>
    if !itemOk 2 input || input.length != 8 || 1 < byteAt input 1 then s.answer who .invalidInput
    else if s.transferTaken who false || s.inBackground then s.answer who .busy
    else match s.str.xfer with
      | none => s.answer who .invalidInput
      | some x =>
        if !s.loadAllowed then (s.setTransfer none).loadEnds who (.bad 0x44)
        else ((s.setTransfer none).answer who .background).loadImage x)

def execStrLoadAbandon (who : Initiator) (input : Bytes) (s : State) : Outcome :=
  onMailbox who true input s (fun s =>
    if !itemOk 3 input || input.length != 8 || 1 < byteAt input 1 then s.answer who .invalidInput
    else s.transferDrop who false)

/-- R28: the first CCLK after draining, or after verification. -/
def execImageCommit (s : State) : Outcome :=
  onDie s (fun s =>
    match s.str.load with
    | none => s
    | some l =>
      if (s.rd F.STR_STATUS_STATE = ldDRAIN && s.drained l) || s.rd F.STR_STATUS_STATE = ldCOMMIT then
        (s.commit l).afterCommit l
      else s)

/-- R27: draining has not finished within STR_QTIMEOUT. -/
def execQuiesceTimeout (s : State) : Outcome :=
  onDie s (fun s =>
    match s.str.load with
    | none => s
    | some l =>
      if s.rd F.STR_STATUS_STATE = ldDRAIN && !s.drained l then ((s.loadEnds l.who (.bad 0x41)).releaseLds).resumeJobs
      else s)

/-- R28: the hold on LDs ends, no later than 20 µs after the commit instant. -/
def execLdHoldRelease (s : State) : Outcome :=
  onDie s (fun s => if s.rd F.STR_STATUS_STATE = ldDRAIN then s else s.releaseLds)

/-- R29: the image has been written to its slot and read back. -/
def State.persisted (s : State) (l : PendingLoad) (ok : Bool) : State :=
  let img := if ok then l.bytes else []
  let s := if l.slotB then
      { s with flash := { s.flash with imgB := img } }.wr F.STR_BOOT_SLOT_B_VALID (b2n ok)
    else { s with flash := { s.flash with imgA := img } }.wr F.STR_BOOT_SLOT_A_VALID (b2n ok)
  if !ok then s.loadEnds l.who (.bad 0x43)
  else
    let s := s.wr F.STR_BOOT_PREF_SLOT (b2n l.slotB)
    let s := s.when (!(changedSecs s.secs l.secs).isEmpty) (fun s => s.set F.STR_STATUS_RESET_PENDING)
    s.loadEnds l.who ⟨0, 0, [], 0⟩

def execImagePersistDone (ok : Bool) (s : State) : Outcome :=
  onDie s (fun s =>
    match s.str.load with
    | none => s
    | some l => if s.rd F.STR_STATUS_STATE = ldPERSIST then s.persisted l ok else s)

/-! ### Registers of the STR block -/

/-- R30: the highest SEQ of the slots that STR_BOOT shows valid. -/
def State.slotSeqs (s : State) : List Nat :=
  (if s.on F.STR_BOOT_SLOT_A_VALID then [le s.flash.imgA 0xC 4] else []) ++
    (if s.on F.STR_BOOT_SLOT_B_VALID then [le s.flash.imgB 0xC 4] else [])

/-- R30: a write of STR_MINSEQ by the owner that neither lowers it nor passes every valid slot. -/
def State.strMinseq (s : State) (v : Nat) : State :=
  if s.rd F.STR_MINSEQ_MINSEQ ≤ v && s.slotSeqs.any (v ≤ ·) then s.wr F.STR_MINSEQ_MINSEQ v else s

/-- A write of an STR register: its fields, and what follows. -/
def State.writeStr (s : State) (who : Initiator) (off v : Nat) : State :=
  if off = 0x100050 then (if s.isOwner who then s.strMinseq (F.STR_MINSEQ_MINSEQ.of v) else s)
  else if off = 0x100060 then
    s.writeWord who off (clamp 100 16000000 (F.STR_QTIMEOUT_QTIMEOUT.of v))
  else s.writeWord who off v

def execStrMinseqWrite (who : Initiator) (v : BitVec 32) (s : State) : Outcome :=
  onDie s (fun s => barWrite s who 0x100050 (fun s => s.writeStr who 0x100050 v.toNat))

end Sys2Proof.Machine
end

