-- ==== Sys2Proof/Machine/Mailbox.lean ====
section
/-!
DEFINITION. The vendor mailbox (R372, R373, Table 16-4) but for STR_LOAD, calibration (R374 to R376), and the firmware
commands and registers of the control complex (R365, R367, R368, R371, R377).
-/

namespace Sys2Proof.Machine

/-! ### Answers that only report -/

/-- A command without input. -/
def onQuery (who : Initiator) (input : Bytes) (s : State) (f : State → Bytes) : Outcome :=
  onMailbox who true input s (fun s => if input.isEmpty then s.answer who .success (f s) else s.answer who .invalidInput)

/-- 0xC000. -/
def execIdentify (who : Initiator) (input : Bytes) (s : State) : Outcome :=
  onQuery who input s (fun s =>
    toLE 8 (s.readWord 0x0) ++ toLE 8 (s.readWord 0x8) ++ toLE 1 (s.rd F.SEC_LC_STATE) ++ [0, 0, 0] ++
      toLE 4 (s.rd F.FWC_RUN_VERSION) ++ toLE 4 (s.rd F.FWC_RUN_SEQ) ++ toLE 4 (s.rd F.STR_RUN_SEQ_SEQ))

/-- 0xC001. -/
def execStrInfo (who : Initiator) (input : Bytes) (s : State) : Outcome :=
  onQuery who input s (fun s =>
    toLE 4 (s.readWord 0x100008) ++ toLE 4 (s.readWord 0x100058) ++ toLE 4 (s.readWord 0x100068) ++ [0, 0, 0, 0] ++
      (List.range 6).flatMap (fun n => toLE 8 (s.rd F.STR_RUN_DIGEST_DIGEST 0 n)))

/-- 0xC003: records from START on, at most COUNT and what the payload size of 64 KiB holds. -/
def execRasRead (who : Initiator) (input : Bytes) (s : State) : Outcome :=
  onMailbox who false input s (fun s =>
    if input.length != 8 || le input 6 2 != 0 then s.answer who .invalidInput
    else
      let start := le input 0 4
      s.answer who .success
        (((s.rasFrom start).take (min 1024 (le input 4 2))).flatMap (fun r => r.bytes (start.testBit 31))))

/-- R374: the header of a stored section. -/
def CalSection.header (x : CalSection) : Bytes :=
  toLE 1 x.id ++ toLE 1 x.origin ++ toLE 2 x.version ++ toLE 4 x.len ++ toLE 8 x.crc

/-- 0xC004. -/
def execCalInfo (who : Initiator) (input : Bytes) (s : State) : Outcome :=
  onQuery who input s (fun s => ([1, 2, 3, 4, 5].filterMap s.calSec).flatMap CalSection.header)

/-! ### Calibration -/

/-- R372: a command marked Owner. A refusal counts as a violation (R386). -/
def State.asOwner (s : State) (who : Initiator) (f : State → State) : State :=
  if s.isOwner who then f s else (s.violate who 0 false).answer who .invalidSecurityState

/-- 0xC005; R391. -/
def execCalExport (who : Initiator) (input : Bytes) (s : State) : Outcome :=
  onMailbox who true input s (fun s => s.asOwner who (fun s =>
    if s.rd F.DBG_STATUS_LEVEL = 2 then s.answer who .invalidSecurityState
    else if input.length != 8 || le input 1 3 != 0 then s.answer who .invalidInput
    else match s.calSec (byteAt input 0) with
      | none => s.answer who .invalidInput
      | some x => s.answer who .success (x.header ++ slice x.payload (le input 4 4) 65520)))

/-- 0xC006, start: the header is the item's DATA. -/
def execCalWriteStart (who : Initiator) (input : Bytes) (s : State) : Outcome :=
  onMailbox who true input s (fun s => s.asOwner who (fun s =>
    if !itemOk 0 input || input.length != 24 then s.answer who .invalidInput
    else if s.transferTaken who true || s.inBackground then s.answer who .busy
    else (s.setTransfer (some ⟨who, true, byteAt input 1, false, input.drop 8, []⟩)).answer who .success))

/-- The item names the section of the open sequence. -/
def State.calItem (s : State) (input : Bytes) : Bool :=
  s.str.xfer.all (fun x => !x.cal || x.id == byteAt input 1)

def execCalWriteContinue (who : Initiator) (input : Bytes) (s : State) : Outcome :=
  onMailbox who true input s (fun s => s.asOwner who (fun s =>
    if !itemOk 1 input || !s.calItem input then s.answer who .invalidInput else s.transferData who true input))

/-- R376: the checks of the end item: 0 OK, 1 bad ID, 2 bad length, 3 bad CRC. -/
def calCheck (x : Transfer) : Nat :=
  if !([1, 2, 3, 4, 5].contains x.id) || byteAt x.header 0 != x.id then 1
  else if le x.header 4 4 != calLen x.id || x.data.length != calLen x.id then 2
  else if le x.header 8 8 != crc64 x.data then 3
  else 0

/-- R376: the section that an end item stores. -/
def Transfer.section_ (x : Transfer) : CalSection :=
  ⟨x.id, 1, le x.header 2 2, le x.header 4 4, le x.header 8 8, x.data⟩

/-- The stored set without a section. -/
def State.dropCal (s : State) (id : Nat) : State :=
  { s with nvs := { s.nvs with cal := s.nvs.cal.filter (fun x => x.id != id) } }

/-- R376: the end item: the checks, and the overwrite begins. From now on the old section is gone. `ok`: the NVS takes
the new one. -/
def execCalWriteEnd (who : Initiator) (input : Bytes) (nvsOk : Bool) (s : State) : Outcome :=
  onMailbox who true input s (fun s => s.asOwner who (fun s =>
    if !itemOk 2 input || input.length != 8 || !s.calItem input then s.answer who .invalidInput
    else if s.transferTaken who true || s.inBackground then s.answer who .busy
    else match s.str.xfer with
      | none => s.answer who .invalidInput
      | some x =>
        let s := (s.setTransfer none).answer who .background
        let r := calCheck x
        if r != 0 then s.answer who .success (toLE 4 r)
        else
          let s := (s.dropCal x.id).set F.NVS_CAL_STATUS_BUSY
          { s with str := { s.str with cal := some ⟨who, x.section_, nvsOk⟩ } }))

/-- R376: the overwrite ends. -/
def State.calWritten (s : State) : State :=
  match s.str.cal with
  | none => s
  | some w =>
    let s := { s with str := { s.str with cal := none } }.clear F.NVS_CAL_STATUS_BUSY
    let id := w.sec.id
    if w.ok then
      let s := { s with nvs := { s.nvs with cal := s.nvs.cal ++ [w.sec] } }
      let s := (s.wrBit F.NVS_CAL_STATUS_VALID (id - 1) (w.sec.version == 1)).wrBit F.NVS_CAL_STATUS_USER (id - 1) true
      s.answer w.who .success [0, 0, 0, 0]
    else
      let s := (s.wrBit F.NVS_CAL_STATUS_VALID (id - 1) false).wrBit F.NVS_CAL_STATUS_USER (id - 1) false
      s.answer w.who .success [4, 0, 0, 0]

def execCalWriteAbandon (who : Initiator) (input : Bytes) (s : State) : Outcome :=
  onMailbox who true input s (fun s => s.asOwner who (fun s =>
    if !itemOk 3 input || input.length != 8 || !s.calItem input then s.answer who .invalidInput
    else s.transferDrop who true))

/-- R372: every other opcode of 0xC000 to 0xC0FF. -/
def execVendorUnsupported (who : Initiator) (_opcode : BitVec 16) (_input : Bytes) (s : State) : Outcome :=
  onMailbox who true [] s (fun s => s.answer who .unsupported)

/-- R373: a sequence has had no item for 10 s. -/
def execTransferIdleTimeout (s : State) : Outcome := onDie s (fun s => s.setTransfer none)

/-! ### Firmware -/

/-- R367, log entry 50, PRESUMED: the fields of Get FW Info: two slots, the active and the staged one, online activation, the
revisions. -/
def State.fwInfo (s : State) : Bytes :=
  let run := s.on F.FWC_STATUS_RUN_SLOT
  let pref := s.on F.FWC_BOOT_PREF_SLOT
  let rev := fun (b : Bool) => if (s.fwSlot b).isEmpty then List.replicate 16 0
    else toLE 4 (fwVersion (s.fwSlot b)) ++ List.replicate 12 0
  [2] ++ toLE 1 ((if s.on F.FWC_STATUS_MONITOR then 0 else b2n run + 1) + (if pref = run then 0 else 8 * (b2n pref + 1))) ++
    [1] ++ List.replicate 13 0 ++ rev false ++ rev true ++ List.replicate 32 0

def execGetFwInfo (who : Initiator) (s : State) : Outcome :=
  onMailbox who false [] s (fun s => s.answer who .success s.fwInfo)

/-- R364: SLOT_A_VALID or SLOT_B_VALID after a check. -/
def State.showSlot (s : State) (b : Bool) : State :=
  s.wr (if b then F.FWC_STATUS_SLOT_B_VALID else F.FWC_STATUS_SLOT_A_VALID) (b2n (s.fwOk b))

/-- R367: the slot that does not hold the running image is written and verified. -/
def execTransferFw (who : Initiator) (slotB : Bool) (image : Bytes) (s : State) : Outcome :=
  onMailbox who false [] s (fun s =>
    if s.cc.restart.isSome || s.inBackground then s.answer who .busy
    else if slotB == s.on F.FWC_STATUS_RUN_SLOT then s.answer who .invalidSlot
    else if 4194304 < image.length then s.answer who .invalidInput
    else
      let s := { s with flash := if slotB then { s.flash with fwB := image } else { s.flash with fwA := image } }
      let s := s.showSlot slotB
      s.answer who (if s.fwOk slotB then .success else .fwAuthFailed))

/-- R367: offline: PREF_SLOT, for the next WARM reset. -/
def execActivateFwOffline (who : Initiator) (slotB : Bool) (s : State) : Outcome :=
  onMailbox who false [] s (fun s => (s.wr F.FWC_BOOT_PREF_SLOT (b2n slotB)).answer who .success)

/-- R367: the cores are halted and a slot is loaded. -/
def State.restart (s : State) (slotB : Bool) : State :=
  if s.cc.restart.isSome then s
  else { s with cc := { s.cc with restart := some slotB, cores := List.replicate 4 .halted } }

/-- R367, R373: online. -/
def execActivateFwOnline (who : Initiator) (slotB : Bool) (s : State) : Outcome :=
  onMailbox who false [] s (fun s =>
    if s.str.xfer.isSome || s.cc.restart.isSome then s.answer who .busy
    else (s.answer who .success).restart slotB)

/-- R367: the restart ends: the named slot runs, or the one that was running. -/
def execActivationDone (s : State) : Outcome :=
  onDie s (fun s =>
    match s.cc.restart with
    | none => s
    | some b =>
      let s := s.showSlot b
      if s.fwOk b then (s.fwStart b).wr F.FWC_STATUS_RESTART_RESULT 1
      else (if s.on F.FWC_STATUS_MONITOR then s.monitor else s.fwStart (s.on F.FWC_STATUS_RUN_SLOT)).wr
        F.FWC_STATUS_RESTART_RESULT 2)

/-- The completion of a mailbox command that ends early; none: it has none. -/
def State.said (s : State) (who : Initiator) (say : Option MbxCode) : State :=
  match say with
  | some c => s.answer who c
  | none => s

/-- A load that runs in the background ends; what it has committed stands. -/
def State.cutLoad (s : State) (l : PendingLoad) (say : Option MbxCode) : State :=
  let s := s.cutWrites
  let s := { s with str := { s.str with load := none } }.wr F.STR_STATUS_STATE ldIDLE
  (s.said l.who say).releaseLds.resumeJobs

/-- An overwrite of a calibration section ends: the section is invalid. -/
def State.cutCal (s : State) (w : CalWrite) (say : Option MbxCode) : State :=
  let s := { s with str := { s.str with cal := none } }.clear F.NVS_CAL_STATUS_BUSY
  let s := (s.wrBit F.NVS_CAL_STATUS_VALID (w.sec.id - 1) false).wrBit F.NVS_CAL_STATUS_USER (w.sec.id - 1) false
  s.said w.who say

/-- The command of a release of Dynamic Capacity ends; the release itself goes on, so that no data passes to another LD (R62). -/
def State.cutRelease (s : State) (mine : Initiator → Bool) (say : Option MbxCode) (l : Nat) : State :=
  match (s.ld l).release with
  | some ⟨a, n, some w⟩ =>
    if mine w then (s.onLd l (fun d => { d with release := some ⟨a, n, none⟩ })).said w say else s
  | _ => s

/-- R71, R368: the mailbox commands in progress of some initiators end, with a completion or none; what has been committed
stands. -/
def State.endCommands (s : State) (mine : Initiator → Bool) (say : Option MbxCode) : State :=
  let s := match s.str.load with
    | some l => if mine l.who then s.cutLoad l say else s
    | none => s
  let s := match s.str.cal with
    | some w => if mine w.who then s.cutCal w say else s
    | none => s
  let s := s.forEach (List.range 64) (fun s l => s.cutRelease mine say l)
  if s.str.xfer.any (fun x => mine x.who) then s.setTransfer none else s

/-- R368: the watchdog expires; its count pauses while a core is halted. -/
def execWatchdogExpire (s : State) : Outcome :=
  onDie s (fun s =>
    if s.cc.cores.contains .halted then s
    else
      let s := s.bump F.FWC_STATUS_WDT_CNT
      let s := s.record 0x50 1 rasFWC 0 (s.rd F.FWC_STATUS_WDT_CNT)
      (s.endCommands (fun _ => true) (some .internalError)).restart (s.on F.FWC_STATUS_RUN_SLOT))

/-! ### FWC registers -/

/-- R365: bits k of CORE_RUN release cores k = 1 to 3. -/
def State.coreRun (s : State) (v : Nat) : State :=
  let s := s.wr F.FWC_CTL_CORE_RUN (Nat.lor (s.rd F.FWC_CTL_CORE_RUN) v)
  { s with cc := { s.cc with cores := s.cc.cores.zipIdx.map (fun x =>
      if 1 ≤ x.2 && v.testBit (x.2 - 1) && x.1 == .inReset then .running else x.1) } }

/-- R364: a write of one rollback floor that lowers it is ignored. -/
def State.raise (s : State) (f : Field) (v : Nat) : State := if s.rd f ≤ v then s.wr f v else s

/-- R368: KICK. -/
def State.kick (s : State) : State :=
  { s with cc := { s.cc with wdtFrom := s.time.cclk, wdtHeld := s.cc.wdtHeld.map (fun _ => s.time.cclk) } }

/-- A write of an FWC register: its fields, and what follows. -/
def State.writeFwc (s : State) (who : Initiator) (off v : Nat) : State :=
  if off = 0x2000000 then
    let s := (s.coreRun (F.FWC_CTL_CORE_RUN.of v)).wr F.FWC_CTL_LOCK (Nat.lor (s.rd F.FWC_CTL_LOCK) (v % 2))
    s.when (v.testBit 8) (fun s => s.restart (v.testBit 9))
  else if off = 0x2000018 then
    if s.isOwner who then
      (s.raise F.FWC_MINSEQ_OWNER_MIN (F.FWC_MINSEQ_OWNER_MIN.of v)).raise F.FWC_MINSEQ_VENDOR_MIN
        (F.FWC_MINSEQ_VENDOR_MIN.of v)
    else s
  else if off = 0x2000030 then
    let s := s.wr F.FWC_WDT_TMO_MS (clamp 10 60000 (F.FWC_WDT_TMO_MS.of v))
    s.when (v.testBit 0) State.kick
  else s.writeWord who off v

/-- R365. -/
def execCoreRun (who : Initiator) (v : BitVec 3) (s : State) : Outcome :=
  onDie s (fun s => barWrite s who 0x2000000 (fun s => s.writeFwc who 0x2000000 (2 * v.toNat)))

/-- R368: KICK, with TMO_MS as it is. -/
def execKick (who : Initiator) (s : State) : Outcome :=
  onDie s (fun s => barWrite s who 0x2000030 (fun s =>
    s.writeFwc who 0x2000030 (65536 * s.rd F.FWC_WDT_TMO_MS + 1)))

/-- R371. -/
def execLastThermtripClear (who : Initiator) (s : State) : Outcome :=
  onDie s (fun s => barWrite s who 0x2000008 (fun s => s.writeFwc who 0x2000008 64))

/-- R364. -/
def execFwcMinseqWrite (who : Initiator) (v : BitVec 64) (s : State) : Outcome :=
  onDie s (fun s => barWrite s who 0x2000018 (fun s => s.writeFwc who 0x2000018 v.toNat))

end Sys2Proof.Machine
end

