-- ==== Sys2Proof/Machine/Security.lean ====
section
/-!
DEFINITION. The lifecycle (R378 to R384), the end of a debug session (R390), and the address-hashing key (R392).
-/

namespace Sys2Proof.Machine

/-! ### Debug sessions -/

/-- R368: the watchdog's count pauses while a debug session holds a core halted, and goes on from there. -/
def State.wdtPause (s : State) : State :=
  let now := s.time.cclk
  if s.cc.cores.contains .halted then { s with cc := { s.cc with wdtHeld := some (s.cc.wdtHeld.getD now) } }
  else match s.cc.wdtHeld with
    | none => s
    | some t => { s with cc := { s.cc with wdtFrom := s.cc.wdtFrom + (now - t), wdtHeld := none } }

/-- R390: halted cores resume, unless a restart holds them. -/
def State.resumeCores (s : State) : State :=
  if s.cc.restart.isSome then s
  else
    let wake := fun (c : CoreSt) => if c = .halted then .running else c
    { s with cc := { s.cc with cores := s.cc.cores.map wake } }.wdtPause

/-- R390: an open session ends for a reason. The end of a FULL session is followed by a WARM reset. -/
def State.closeSession (s : State) (reason : Nat) : State :=
  let lvl := s.rd F.DBG_STATUS_LEVEL
  if lvl = 0 then s
  else
    let s := s.sessionEnded reason
    if lvl = 2 then s.resumeCores.retarget
    else if lvl = 3 then s.warmReset 4 0
    else s.retarget

/-- R392: KT is drawn anew. -/
def State.newKt (s : State) : State := let (v, s) := s.draw; { s with sec := { s.sec with kt := v % 2 ^ 256 } }

/-- A write of a SEC register: its fields, and what follows. -/
def State.writeSec (s : State) (who : Initiator) (off v : Nat) : State :=
  let was := s.on F.SEC_CTL_HASH_ADDR
  let s := s.writeWord who off v
  if !was && s.on F.SEC_CTL_HASH_ADDR then s.newKt else s

/-- R392: HASH_ADDR goes from 0 to 1. -/
def execHashAddrSet (who : Initiator) (s : State) : Outcome :=
  onDie s (fun s => barWrite s who 0x1F00028 (fun s => s.writeSec who 0x1F00028 1))

/-! ### Lifecycle requests (R379, R380) -/

/-- Results of R380. -/
def lcOk : Nat := 0x00
def lcBadState : Nat := 0x02
def lcNotOwner : Nat := 0x04
def lcMalformed : Nat := 0x05
def lcWrongTransport : Nat := 0x06
def lcNvsFault : Nat := 0x07

/-- Opcodes of Table 17-2. -/
def lcSET : Nat := 0x10
def lcSEAL : Nat := 0x11
def lcRETURN : Nat := 0x12
def lcBIND : Nat := 0x13
def lcUNBIND : Nat := 0x14

/-- R380: the request's form: length, zero fields, CONFIRM, LD number, owner key. -/
def lcFormOk (op : Nat) (req : Bytes) : Bool :=
  le req 2 2 == 0 &&
    (if op = lcSET then
      req.length == 104 && byteAt req 1 == 0 && le req 4 4 == 0 && onP384 (beNat (slice req 8 48)) (beNat (slice req 56 48))
     else if op = lcSEAL then req.length == 8 && byteAt req 1 == 0 && slice req 4 4 == [0x53, 0x45, 0x41, 0x4C]
     else if op = lcRETURN then req.length == 8 && byteAt req 1 == 0 && slice req 4 4 == [0x52, 0x54, 0x52, 0x4E]
     else req.length == 4 && byteAt req 1 < 64)

/-- Table 17-2: the states from which a request is admitted. -/
def lcFromOk (op lc : Nat) : Bool :=
  if op = lcSET then lc == lcBlank || lc == lcReturned
  else if op = lcSEAL then lc == lcOwned
  else lc == lcOwned || lc == lcSealed

/-- R380: the RESULT of a request. Where several apply, the order of the tests is the model's (log entry 131, DESIGN
CHOICE). -/
def State.lcResult (s : State) (t : Initiator) (sess op : Nat) (req : Bytes) (nvsOk : Bool) : Nat :=
  if op = lcSET ∧ t ≠ .mctp then lcWrongTransport
  else if (if op = lcSET then (s.session t sess).isNone else !s.ownerSession t sess) then lcNotOwner
  else if !lcFormOk op req then lcMalformed
  else if !lcFromOk op (s.rd F.SEC_LC_STATE) then lcBadState
  else if !nvsOk then lcNvsFault
  else lcOk

/-- The response of Table 17-3. -/
def State.lcAnswer (s : State) (t : Initiator) (op res : Nat) : State :=
  s.emit (.vendor t (toLE 1 op ++ toLE 1 res ++ toLE 1 (s.rd F.SEC_LC_STATE) ++ [0]))

/-- A request that is carried out at once has succeeded. -/
def State.lcDone (s : State) (t : Initiator) (op : Nat) : State := (s.set F.SEC_IRQ_LC_CHANGE).lcAnswer t op lcOk

/-- R384, R390: what every lifecycle change brings with it. -/
def State.lcChange (s : State) (lc : Nat) : State :=
  ((((s.clear F.SEC_BIND_LDS).enterLc lc).closeSession 4).showCc)

/-- Table 17-4, step 2: every key slot is erased, slot 0's material overwritten with zero. -/
def State.eraseKeys (s : State) : State :=
  ({ s with keys := [] }).forEach (List.range 255) (fun s n => s.clear F.KEY_SLOT_STATE_STATE 0 (n + 1))

/-- R382, Table 17-4: steps 1 and 2 of a RETURN; its steps 3 to 5 follow when the queue is empty (log entry 1, DESIGN CHOICE). -/
def State.returnBegin (s : State) (t : Initiator) : State :=
  let s := { s with nvs := { s.nvs with lcPending := some lcReturned }, sec := { s.sec with returning := some t } }
  let s := ((s.set F.SEC_LC_PENDING).closeSession 4).clear F.SEC_BIND_LDS
  s.eraseKeys

/-- Table 17-4, steps 3 to 5. -/
def State.returnEnd (s : State) : State :=
  match s.sec.returning with
  | none => s
  | some t =>
    let s := { s with sec := { s.sec with returning := none } }
    ((s.enterLc lcReturned).lcDone t lcRETURN).warmReset 3 0

/-- Table 17-2: what a request that is admitted does. -/
def State.lcAct (s : State) (t : Initiator) (op : Nat) (req : Bytes) : State :=
  if op = lcSET then
    (({ s with nvs := { s.nvs with ownerKey := slice req 8 96 } }).lcChange lcOwned).lcDone t op
  else if op = lcSEAL then (s.lcChange lcSealed).lcDone t op
  else if op = lcRETURN then s.returnBegin t
  else (s.wrBit F.SEC_BIND_LDS (byteAt req 1) (op == lcBIND)).lcDone t op

/-- R379: a lifecycle request: refused with nothing changed, or carried out. -/
def State.lcRun (s : State) (t : Initiator) (sess op : Nat) (req : Bytes) (nvsOk : Bool) : State :=
  let res := s.lcResult t sess op req nvsOk
  if res = lcOk then s.lcAct t op req else s.lcAnswer t op res

/-! ### Requests one at a time (R149, R379) -/

/-- An ERASE or a RETURN is under way. -/
def State.vdmBusy (s : State) : Bool := s.erasing || s.sec.returning.isSome

/-- A request of Table 6-3 or 17-2 is carried out. -/
def State.vdmRun (s : State) (x : VdmReq) : State :=
  if x.op < lcSET then s.keyRun x.t x.sess x.op x.req else s.lcRun x.t x.sess x.op x.req x.nvsOk

/-- R149, R379: requests are carried out one at a time, in order of arrival: one that arrives while another is under way
waits. -/
def State.vdm (s : State) (x : VdmReq) : State :=
  if s.vdmBusy then { s with keyReqs := s.keyReqs ++ [x] } else s.vdmRun x

/-- Requests that waited are carried out in order of arrival, up to the next that takes its time. -/
def State.vdmPump : List VdmReq → State → State
  | [], s => s
  | x :: rest, s =>
    if s.vdmBusy then s else State.vdmPump rest ({ s with keyReqs := s.keyReqs.drop 1 }.vdmRun x)

/-- R134: LOAD. -/
def execKeyLoad (t : Initiator) (session : BitVec 32) (req : Bytes) (s : State) : Outcome :=
  onDie s (fun s => s.vdm ⟨t, session.toNat, 1, req, true⟩)

/-- R134: RETIRE. -/
def execKeyRetire (t : Initiator) (session : BitVec 32) (req : Bytes) (s : State) : Outcome :=
  onDie s (fun s => s.vdm ⟨t, session.toNat, 2, req, true⟩)

/-- R151: ERASE. -/
def execKeyErase (t : Initiator) (session : BitVec 32) (req : Bytes) (s : State) : Outcome :=
  onDie s (fun s => s.vdm ⟨t, session.toNat, 3, req, true⟩)

/-- R151: an ERASE takes effect. -/
def execKeyEraseDone (slot : Fin 256) (s : State) : Outcome :=
  onDie s (fun s =>
    if (s.keySlot slot).erasing && !s.keyInUse slot then let s := s.keyErased slot; State.vdmPump s.keyReqs s else s)

/-- R380, R381: SET_OWNER. -/
def execSetOwner (t : Initiator) (session : BitVec 32) (req : Bytes) (nvsOk : Bool) (s : State) : Outcome :=
  onDie s (fun s => s.vdm ⟨t, session.toNat, lcSET, req, nvsOk⟩)

/-- R379: SEAL. -/
def execSeal (t : Initiator) (session : BitVec 32) (req : Bytes) (nvsOk : Bool) (s : State) : Outcome :=
  onDie s (fun s => s.vdm ⟨t, session.toNat, lcSEAL, req, nvsOk⟩)

/-- R382: RETURN. -/
def execLcReturn (t : Initiator) (session : BitVec 32) (req : Bytes) (nvsOk : Bool) (s : State) : Outcome :=
  onDie s (fun s => s.vdm ⟨t, session.toNat, lcRETURN, req, nvsOk⟩)

/-- R384: BIND. -/
def execBind (t : Initiator) (session : BitVec 32) (req : Bytes) (s : State) : Outcome :=
  onDie s (fun s => s.vdm ⟨t, session.toNat, lcBIND, req, true⟩)

/-- R384: UNBIND. -/
def execUnbind (t : Initiator) (session : BitVec 32) (req : Bytes) (s : State) : Outcome :=
  onDie s (fun s => s.vdm ⟨t, session.toNat, lcUNBIND, req, true⟩)

end Sys2Proof.Machine
end

