-- ==== Sys2Proof/Machine/Attest.lean ====
section
/-!
DEFINITION. The SPDM responder (R393, R394). Codes and layouts of messages are those of SPDM 1.2, which Table 17-9 names
(log entry 52, PRESUMED); signatures, exchange data and authentication codes are free values (log entry 7, DESIGN CHOICE).
-/

namespace Sys2Proof.Machine

/-! ### Responses -/

/-- R393: SPDM travels over the DOE capability of an LD, or over MCTP. -/
def onSpdm (t : Initiator) (s : State) (f : State → State) : Outcome := onDie s (fun s => if hasSpdm t then f s else s)

/-- A response. -/
def State.spdm (s : State) (t : Initiator) (code : Nat) (payload : Bytes := []) : State := s.emit (.spdm t code payload)

/-- Error codes of SPDM. -/
def spInvalid : Nat := 0x01
def spSession : Nat := 0x02
def spUnexpected : Nat := 0x04
def spDecrypt : Nat := 0x06
def spUnsupported : Nat := 0x07
def spLimit : Nat := 0x0A

/-- ERROR. -/
def State.spdmError (s : State) (t : Initiator) (e d : Nat) : State := s.spdm t 0x7F (toLE 1 e ++ toLE 1 d)

/-- How far the transport's negotiation has come: 1 version, 2 capabilities, 3 algorithms. -/
def State.agreed (s : State) (t : Initiator) : Nat :=
  match s.sec.agreed.find? (fun x => x.1 == t) with
  | some x => x.2
  | none => 0

/-- The negotiation has come to a step. -/
def State.agree (s : State) (t : Initiator) (n : Nat) : State :=
  { s with sec := { s.sec with agreed := s.sec.agreed.filter (fun x => x.1 != t) ++ [(t, n)] } }

/-- A request that needs the negotiation to have come to step `n`. -/
def State.spdmAfter (s : State) (t : Initiator) (n : Nat) (f : State → State) : State :=
  if s.agreed t < n then s.spdmError t spUnexpected 0 else f s

/-- `n` bytes of a free value. -/
def State.freeBytes (s : State) (n : Nat) : Bytes × State := let (v, s) := s.draw; (toLE n (v % 256 ^ n), s)

/-! ### Negotiation -/

/-- VERSION: 1.2. -/
def execGetVersion (t : Initiator) (s : State) : Outcome :=
  onSpdm t s (fun s => (s.agree t 1).spdm t 0x04 [0x00, 0x01, 0x00, 0x12])

/-- CAPABILITIES: certificates, challenge, signed measurements, encryption, authentication, mutual authentication, key
exchange, heartbeat and key update. -/
def execGetCapabilities (t : Initiator) (s : State) : Outcome :=
  onSpdm t s (fun s => s.spdmAfter t 1 (fun s => (s.agree t 2).spdm t 0x61 (toLE 4 0x63D6)))

/-- ALGORITHMS (Table 17-9): DMTF measurements, ECDSA P-384, SHA-384, secp384r1, AES-256-GCM, the SPDM key schedule. -/
def execNegotiateAlgorithms (t : Initiator) (s : State) : Outcome :=
  onSpdm t s (fun s => s.spdmAfter t 2 (fun s =>
    (s.agree t 3).spdm t 0x63 (toLE 4 0x80 ++ toLE 4 0x02 ++ toLE 2 0x10 ++ toLE 2 0x02 ++ toLE 2 0x01)))

/-! ### Identity -/

/-- DIGESTS: slot 0. -/
def execGetDigests (t : Initiator) (s : State) : Outcome :=
  onSpdm t s (fun s => s.spdmAfter t 3 (fun s => s.spdm t 0x01 ([0x01] ++ sha384 Config.certChain)))

/-- CERTIFICATE: portion length, what remains, the portion. -/
def execGetCertificate (t : Initiator) (off len : BitVec 16) (s : State) : Outcome :=
  onSpdm t s (fun s => s.spdmAfter t 3 (fun s =>
    let p := slice Config.certChain off.toNat len.toNat
    s.spdm t 0x02 (toLE 2 p.length ++ toLE 2 (Config.certChain.length - off.toNat - p.length) ++ p)))

/-- CHALLENGE_AUTH: chain digest, nonce, signature. -/
def execChallenge (t : Initiator) (nonce : BitVec 256) (s : State) : Outcome :=
  onSpdm t s (fun s => s.spdmAfter t 3 (fun s =>
    let _ := nonce
    let (n, s) := s.freeBytes 32
    let (sig, s) := s.freeBytes 96
    s.spdm t 0x03 (sha384 Config.certChain ++ n ++ sig)))

/-! ### Measurements (R394) -/

/-- Table 17-10: the value of a block. -/
def State.measurement (s : State) (i : Nat) : Bytes :=
  match i with
  | 1 => toBE 48 Config.bootRomDigest
  | 2 => if s.cc.header.isEmpty then List.replicate 48 0 else slice s.cc.header 0x30 48
  | 3 => (List.range 6).flatMap (fun n => toLE 8 (s.rd F.STR_RUN_DIGEST_DIGEST 0 n))
  | 4 => toLE 1 (s.rd F.SEC_LC_STATE) ++ toLE 1 (s.rd F.DBG_STATUS_LEVEL) ++ toLE 1 (s.rd F.FWC_STATUS_KIND) ++
      toLE 1 (s.rd F.SEC_CTL_HASH_ADDR)
  | 5 => toLE 8 (s.rd F.SEC_OWNER_ID_KEY_ID 0 0) ++ toLE 8 (s.rd F.SEC_OWNER_ID_KEY_ID 0 1)
  | _ => [1, 2, 3, 4, 5].flatMap (fun id =>
      match s.calSec id with
      | some x => toLE 8 x.crc ++ toLE 1 x.origin
      | none => List.replicate 9 0)

/-- DMTFSpecMeasurementValueType: immutable ROM, mutable firmware, configuration; bit 7 a raw bit stream. -/
def measurementType (i : Nat) : Nat :=
  match i with
  | 1 => 0x00
  | 2 => 0x01
  | 3 => 0x03
  | _ => 0x83

/-- A block in the DMTF measurement format. -/
def State.measurementBlock (s : State) (i : Nat) : Bytes :=
  let v := s.measurement i
  toLE 1 i ++ [0x01] ++ toLE 2 (v.length + 3) ++ toLE 1 (measurementType i) ++ toLE 2 v.length ++ v

/-- MEASUREMENTS: index 0 the number of blocks, 1 to 6 one block, 0xFF all. -/
def execGetMeasurements (t : Initiator) (index : BitVec 8) (s : State) : Outcome :=
  onSpdm t s (fun s => s.spdmAfter t 3 (fun s =>
    let i := index.toNat
    let l := if i = 0 then [] else if i = 0xFF then [1, 2, 3, 4, 5, 6] else [i]
    if !(l.all (· ≤ 6)) then s.spdmError t spInvalid 0
    else
      let (sig, s) := s.freeBytes 96
      s.spdm t 0x60 (toLE 1 (if i = 0 then 6 else l.length) ++ l.flatMap s.measurementBlock ++ sig)))

/-! ### Sessions -/

/-- R393: KEY_EXCHANGE: at most 8 sessions. The session number is what both sides have put together; one that is open
already is not put together again. -/
def execKeyExchange (t : Initiator) (session : BitVec 32) (leafKey : Option Bytes) (s : State) : Outcome :=
  onSpdm t s (fun s => s.spdmAfter t 3 (fun s =>
    if 8 ≤ s.sec.sessions.length then s.spdmError t spLimit 0
    else if s.sec.sessions.any (fun x => x.id == session.toNat) then s.spdmError t spInvalid 0
    else
      let x : Session := ⟨session.toNat, t, leafKey, false, 0⟩
      let s := { s with sec := { s.sec with sessions := s.sec.sessions ++ [x] } }
      let (x, s) := s.freeBytes 96
      let (sig, s) := s.freeBytes 96
      s.spdm t 0x64 (toLE 4 session.toNat ++ x ++ sig)))

/-- An open session of a transport is changed or closed; its response. -/
def State.inSession (s : State) (t : Initiator) (id : Nat) (done : Bool) (f : Session → Option Session) (code : Nat) :
    State :=
  match s.sec.sessions.find? (fun x => x.id == id && x.t == t && x.done == done) with
  | none => s.spdmError t spSession 0
  | some x =>
    let l := s.sec.sessions.flatMap (fun y => if y.id = x.id then (f y).toList else [y])
    ({ s with sec := { s.sec with sessions := l } }).spdm t code

/-- FINISH; `verified`: its signature and authentication code verify. -/
def execFinish (t : Initiator) (session : BitVec 32) (verified : Bool) (s : State) : Outcome :=
  onSpdm t s (fun s =>
    if verified then s.inSession t session.toNat false (fun x => some { x with done := true }) 0x65
    else
      let l := s.sec.sessions.filter (fun x => !(x.id == session.toNat && x.t == t && !x.done))
      ({ s with sec := { s.sec with sessions := l } }).spdmError t spDecrypt 0)

def execKeyUpdate (t : Initiator) (session : BitVec 32) (s : State) : Outcome :=
  onSpdm t s (fun s => s.inSession t session.toNat true (fun x => some { x with epoch := x.epoch + 1 }) 0x69)

def execHeartbeat (t : Initiator) (session : BitVec 32) (s : State) : Outcome :=
  onSpdm t s (fun s => s.inSession t session.toNat true some 0x68)

def execEndSession (t : Initiator) (session : BitVec 32) (s : State) : Outcome :=
  onSpdm t s (fun s => s.inSession t session.toNat true (fun _ => none) 0x6C)

/-- R393: any other request. -/
def execSpdmUnsupported (t : Initiator) (code : BitVec 8) (s : State) : Outcome :=
  onSpdm t s (fun s => s.spdmError t spUnsupported code.toNat)

end Sys2Proof.Machine
end

