-- ==== Sys2Proof/Machine/Debug.lean ====
section
/-!
DEFINITION. The debug port (R388 to R391): the TAP instructions of Table 17-6 but for BAR0, the debug token, and the end
of a session.
-/

namespace Sys2Proof.Machine

/-- The TAP runs on TCK while the die has its supplies and its clocks have not been stopped. -/
def onTap (s : State) (f : State → State) : Outcome :=
  .next (if s.stage = .coldReset ∨ s.stage = .stopped then s else f s)

/-! ### The instruction register (Table 17-6) -/

def irIDCODE : Nat := 0x01
def irSAMPLE : Nat := 0x02
def irEXTEST : Nat := 0x03
def irNONCE : Nat := 0x10
def irTOKEN : Nat := 0x11
def irDBGSTAT : Nat := 0x12
def irBAR0 : Nat := 0x13
def irDTM : Nat := 0x14
def irSCAN : Nat := 0x15
def irBYPASS : Nat := 0x3F

/-- An instruction is selected, and its data register shifts `v` out. -/
def State.shift (s : State) (ir v : Nat) : State :=
  ({ s with sec := { s.sec with ir := ir, dr := v } }).emit (.tap v)

/-- BYPASS: its one bit is captured as zero. -/
def State.bypass (s : State) : State := s.shift irBYPASS 0

def execIdcode (s : State) : Outcome := onTap s (fun s => s.shift irIDCODE (Config.idcode % 2 ^ 32))

/-- The pins' values are not the controller's to state: a free value. -/
def execSamplePreload (s : State) : Outcome := onTap s (fun s => let (v, s) := s.draw; s.shift irSAMPLE v)

/-- Available in BLANK and RETURNED: the boundary register drives the pins. -/
def execExtest (v : BitVec 64) (s : State) : Outcome :=
  onTap s (fun s =>
    if s.owned then s.bypass
    else let (x, s) := s.draw; ({ s with sec := { s.sec with boundary := v.toNat } }).shift irEXTEST x)

/-- The nonce as a 256-bit number of little-endian bytes. -/
def State.nonce (s : State) : Nat :=
  (List.range 4).foldl (fun a n => a + s.rd F.DBG_NONCE_NONCE 0 n * 2 ^ (64 * n)) 0

def execNonce (s : State) : Outcome := onTap s (fun s => s.shift irNONCE s.nonce)

def execDbgstat (s : State) : Outcome := onTap s (fun s => s.shift irDBGSTAT (s.readWord 0x1F80000 % 2 ^ 32))

def execBypass (ir : BitVec 6) (s : State) : Outcome :=
  onTap s (fun s => let _ := ir; s.bypass)

/-! ### Tokens (R388, R389) -/

/-- Table 17-1: the state admits a debug level. -/
def levelAdmitted (lc lvl : Nat) : Bool :=
  if lc = lcOwned then lvl ≤ 2 else if lc = lcSealed then lvl ≤ 1 else lvl ≤ 3

/-- Table 17-7: the key that a token must be signed with; empty: none is at hand. -/
def State.tokenKey (s : State) : Bytes := if s.owned then s.nvs.ownerKey else toBE 96 Config.romDebugKey

/-- SEC_DEV_ID as 16 bytes. -/
def State.devId (s : State) : Bytes := toLE 8 (s.rd F.SEC_DEV_ID_DEV_ID 0 0) ++ toLE 8 (s.rd F.SEC_DEV_ID_DEV_ID 0 1)

/-- Table 17-7, Table 17-8: every check of a token passes. -/
def State.tokenOk (s : State) (b : Bytes) : Bool :=
  let lvl := byteAt b 4
  let lc := s.rd F.SEC_LC_STATE
  let key := s.tokenKey
  b.length == 168 && slice b 0 4 == [0x59, 0x44, 0x54, 0x31] && levelAdmitted lc lvl && le b 5 3 == 0 &&
    slice b 8 16 == s.devId && le b 0x18 32 == s.nonce &&
    (lc == lcBlank || (!key.isEmpty && slice b 0x38 16 == keyId key &&
      ecdsaVerify key (sha384 (slice b 0 0x48)) (slice b 0x48 96))) &&
    !(lvl == 1 && s.rd F.PWR_STATUS_FLOOR == 4)

/-- R388, R389: a session of a level opens. A FULL session holds the die in WARM reset. -/
def State.openSession (s : State) (lvl : Nat) : State :=
  let s := ((s.bump F.DBG_STATUS_OPENED).set F.SEC_IRQ_DBG_OPEN).newKt
  if lvl = 3 then ({ s.cutWrites.clearWarm with stage := .fullDebug }).wr F.DBG_STATUS_LEVEL 3
  else
    let s := s.wr F.DBG_STATUS_LEVEL lvl
    let s := s.wr F.DBG_STATUS_PENDING (b2n (lvl == 2 && 2 < s.rd F.PWR_STATUS_FLOOR))
    s.retarget

/-- R388: a token is checked; whatever the outcome, the nonce is replaced. -/
def State.takeToken (s : State) (b : Bytes) : State :=
  let lvl := byteAt b 4
  if !s.tokenOk b then (s.violate .dbg 0 true).newNonce
  else if lvl = 0 then (s.closeSession 1).newNonce
  else
    let s := if s.rd F.DBG_STATUS_LEVEL = 3 then s.sessionEnded 6 else s.closeSession 6
    (s.openSession lvl).newNonce

def execToken (bytes : Bytes) (s : State) : Outcome :=
  onTap s (fun s => (s.shift irTOKEN 0).takeToken bytes)

/-- R390: TRST_L or a TAP reset: the session ends, and IDCODE is selected. -/
def execTapReset (s : State) : Outcome :=
  onTap s (fun s => ({ s with sec := { s.sec with ir := irIDCODE } }).closeSession 2)

/-- Table 17-13: a write of a DBG register. -/
def State.writeDbg (s : State) (who : Initiator) (off v : Nat) : State :=
  if off = 0x1F80008 then s.when (v.testBit 0) (fun s => s.closeSession 1) else s.writeWord who off v

/-- R390: DBG_CTL.CLOSE. -/
def execClose (who : Initiator) (s : State) : Outcome :=
  onDie s (fun s => barWrite s who 0x1F80008 (fun s => s.writeDbg who 0x1F80008 1))

/-! ### DTM and SCAN -/

/-- R391, log entry 51, PRESUMED: dmcontrol of the RISC-V Debug Module: haltreq (bit 31) and resumereq (bit 30) of hart hartsello
(bits [25:16]). -/
def State.dmcontrol (s : State) (d : Nat) : State :=
  let h := bits d 25 16
  let f := fun (c : CoreSt) =>
    if d.testBit 31 then (if c = .inReset then c else .halted)
    else if d.testBit 30 ∧ c = .halted then .running else c
  if s.cc.restart.isSome then s
  else
    let cores := s.cc.cores.zipIdx.map (fun x => if x.2 = h then f x.1 else x.1)
    { s with cc := { s.cc with cores := cores } }.wdtPause

/-- R391: an access of the Debug Module Interface: [1:0] op, [33:2] data, [40:34] address. What a read returns is not
the model's to state: a free value. -/
def execDtm (v : BitVec 64) (s : State) : Outcome :=
  onTap s (fun s =>
    if s.rd F.DBG_STATUS_LEVEL != 2 || s.on F.DBG_STATUS_PENDING then s.bypass
    else
      let v := v.toNat
      let (x, s) := s.draw
      let s := if bits v 1 0 = 2 ∧ bits v 40 34 = 0x10 then s.dmcontrol (bits v 33 2) else s
      s.shift irDTM x)

/-- R389: the scan chains, in a FULL session; the die's state is rebuilt afterwards (R390). -/
def execScanChains (v : BitVec 64) (s : State) : Outcome :=
  onTap s (fun s =>
    if s.rd F.DBG_STATUS_LEVEL != 3 then s.bypass else let (x, s) := s.draw; let _ := v; s.shift irSCAN x)

end Sys2Proof.Machine
end

