-- ==== Sys2Proof/Machine/Faults.lean ====
section
/-!
DEFINITION. SRAM errors (R408, Table 18-5), the decode timeout (R411), and the RAS registers.
-/

namespace Sys2Proof.Machine

/-! ### SRAM errors -/

/-- Block and instance of an SRAM record. -/
def sramBlock : SramSite → Nat × Nat
  | .home h => (rasHOM, h)
  | .mapLine _ _ => (rasMAP, 0)
  | .galLine g _ _ => (rasGAL, g)
  | .replay n => (rasCWK, n)
  | .queue q => (rasCRQ, q % 256)
  | .core => (rasFWC, 0)
  | .master _ => (rasTST, 0)
  | .counter _ _ => (rasCNT, 0)
  | .other => (rasGEN, 0)

/-- Table 18-5: the severity of an uncorrectable word. -/
def sramSeverity : SramSite → Nat
  | .replay _ => 2
  | _ => 1

/-- Table 18-5: a map-cache line: discarded and refetched, or lost. -/
def State.sramMapLine (s : State) (twin : Bool) (m : Nat) : State :=
  let tag : MapTag := ⟨twin, m, false⟩
  match s.map.cache.find? (fun x => x.same tag) with
  | none => s
  | some x =>
    if !x.dirty then
      match s.mapMa tag with
      | none => s
      | some ma => s.postMa ma false 80
    else if twin then s.putTwin m { s.twin m with valid := false }
    else
      let ps := ((List.range 4).map (fun i => 4 * m + i)).filter (fun p => !s.map.lost.contains p)
      { s with map := { s.map with lost := s.map.lost ++ ps } }

/-- Table 18-5: a line of a gallery's cache: a modified one is poisoned from now on. -/
def State.sramGalLine (s : State) (g slot line : Nat) : State :=
  let a := s.agLine (64 + g) slot line
  if a.st = .m then s.setAg (64 + g) slot line { a with poison := true } else s

/-- Table 18-5. -/
def State.sramHard (s : State) (site : SramSite) (w : BadRow) : State :=
  let (blk, inst) := sramBlock site
  match site with
  | .home h => s.fatalAll 0x60 rasHOM h w.structure_.toNat w.row.toNat
  | _ =>
    let s := s.record 0x60 (sramSeverity site) blk inst w.structure_.toNat w.row.toNat
    match site with
    | .mapLine twin m => s.sramMapLine twin m.toNat
    | .galLine g slot line => s.sramGalLine g slot.toNat line.toNat
    | .replay n => s.cwkDown n
    | .queue q => s.qReset q
    | .master m =>
      let s := { s with tst := { s.tst with miss := smSet 0 s.tst.miss m.val 0 } }
      (s.clear F.TST_M_LIVE_SERVED 0 m).clear F.TST_M_LIVE_DEMAND 0 m
    | .counter u k => s.clear F.CNT_CTR_COUNT u k
    | _ => s

/-- R408: a single-bit error is corrected and written back. -/
def execSramError (hard : Bool) (site : SramSite) (word : BadRow) (s : State) : Outcome :=
  onDie s (fun s =>
    if hard then s.sramHard site word
    else s.record 0x60 0 (sramBlock site).1 (sramBlock site).2 word.structure_.toNat word.row.toNat)

/-! ### Decode timeout (R411) -/

/-- The read returns its line poisoned. -/
def State.decodeLost (s : State) (h e : Nat) (t : TT) (r : MapReq) : State :=
  let s := (s.dropReq r).readDone h e
  let t := { t with memOut := false }
  if t.st = .wb then (s.setTT h e t).tryClose h e
  else ((s.failEvent t.req t.line 1 1).settle h e { t with mem := some (0, true) }).tryClose h e

/-- R411: the gallery to which the home has sent the line's block. -/
def State.decoderOf (s : State) (line : Nat) : Option Nat :=
  let x := s.pme (line / 64)
  if x.tier < 2 then none
  else
    let r := s.runOf (line / 64) x
    let b := line % 64 / 8
    if r.size b = 0 then none else some (s.galFor (s.blockChan r b))

/-- R411, Table 18-7: a gallery becomes suspect; the blocks held at its boundary go to the partner, where it can take them. -/
def State.suspectGal (s : State) (g : Nat) : State :=
  let s := s.wrBit F.RAS_GAL_SUSPECT_GAL g true
  let bs := (s.dom (16 + g)).blks
  if !s.on F.MAP_CTL_PARTNER_EN || s.galDown (g ^^^ 8) then s
  else (s.onDom (16 + g) (fun x => { x with blks := [] })).forEach bs (fun s b =>
    s.blkDecode (g ^^^ 8) b.1 b.2.1 b.2.2)

/-- R411: no result within TMO_US: the gallery is suspect and its partner is asked; if the partner has timed out too, the
line is poisoned. -/
def execDecodeTimeout (home : Fin 16) (tt : BitVec 8) (s : State) : Outcome :=
  onDie s (fun s =>
    match s.tt home tt.toNat, s.mapReq home tt.toNat false with
    | some t, some r =>
      if !t.memOut || r.st != .served then s
      else match s.decoderOf t.line with
        | none => s
        | some g =>
          let again := s.suspect g
          let s := (s.record 0x42 2 rasGAL g g (t.line / 64)).suspectGal g
          if again || s.suspect (g ^^^ 8) then s.decodeLost home tt.toNat t r else s
    | _, _ => s)

/-! ### RAS registers -/

/-- A write of a RAS register: its fields, and what follows (Table 18-9). -/
def State.writeRas (s : State) (who : Initiator) (off v : Nat) : State :=
  if off = F.RAS_DEC_TMO_TMO_US.addr 0 0 then s.writeWord who off (clamp 2 20 (F.RAS_DEC_TMO_TMO_US.of v))
  else s.writeWord who off v

end Sys2Proof.Machine
end

