-- ==== Sys2Proof/Machine/Jobs.lean ====
section
/-!
DEFINITION. The gallery jobs that move, examine, code and encrypt lines (Table 12-6, 0x01 to 0x0B), and the encoder and
decoder of a gallery with their counters (R125 to R132).
-/

namespace Sys2Proof.Machine

/-! ### The encoder of a gallery (R127 to R132) -/

/-- R132: the counters of one block encoded. -/
def State.countEncode (s : State) (g : Nat) (e : Encoded) : State :=
  let stat := fun (s : State) n k => s.bump F.GAL_TRD_STAT_COUNT k g n
  let s := ((stat (stat s 0 1) 1 e.bsz).counts (32 + g) evEnc).counts (32 + g) evGran {} none e.bsz
  let s := match e.form with
    | .zero => stat s 2 1
    | .pat _ => stat s 3 1
    | .raw => stat s 4 1
    | .tread => s
  s.forEach e.classes (fun s c => s.bump F.GAL_TRD_CLASS_WORDS 1 g c)

/-- R130: the encoder's own check of a PAT or TREAD image. -/
def encodedOk (e : Encoded) (b : Bytes) : Bool :=
  match e.form with
  | .zero => true
  | .raw => true
  | _ => match treadDecode e.image e.image.length with
    | .ok (d, _) => d == b
    | .error _ => false

/-- R127, R130: gallery `g` encodes a block of a page (or of a stream, with `page` and `block` zero). -/
def State.encodeBlock (s : State) (g page block : Nat) (conceal : Bool) (b : Bytes) : Encoded × State :=
  let e := if conceal then concealEncode b else treadEncode b
  if s.on F.GAL_TRD_CTL_VERIFY_EN g && !encodedOk e b then
    let e : Encoded := { e with form := .raw, bsz := 8, image := b }
    (e, ((s.countEncode g e).bump F.GAL_TRD_ERR_VERIFY_FAIL 1 g).record 0x03 2 rasGAL g page block 0)
  else (e, s.countEncode g e)

/-! ### Common shapes of a unit -/

/-- A mask of the first n bytes. -/
def maskTo (n : Nat) : BitVec 64 := BitVec.ofNat 64 (2 ^ min n 64 - 1)

/-- The job waits: keep what it holds. -/
def State.jobWait (s : State) (g : Nat) (j : Job) : State × Bool := (s.setJob g j, false)

/-- The job ends. -/
def State.jobEnd (s : State) (g : Nat) (j : Job) (res detail : Nat) : State × Bool := (s.endJob g j res detail, false)

/-- The job goes on. -/
def State.jobNext (s : State) (g : Nat) (j : Job) : State × Bool := (s.setJob g j, true)

/-- Write the head of what the job has made, at most a line, at its place in the destination `base`. -/
def State.jobPut (s : State) (g : Nat) (j : Job) (base : Nat) (after : Job → Job) : State × Bool :=
  let b := j.outBuf.take 64
  let n := b.length
  match s.jobStore g j (base + j.put) (lineOfBytes b) (maskTo n) false with
  | (.fault, j, s) => s.jobEnd g j resFAULT 0
  | (.wait, j, s) => s.jobWait g j
  | (.done, j, s) => s.jobNext g (after { j with outBuf := j.outBuf.drop n, put := j.put + n })

/-- Read the next line of the source `base`. `bad`: what a poisoned line leads to. -/
def State.jobGet (s : State) (g : Nat) (j : Job) (base : Nat) (keep : Nat) : State × Bool :=
  match s.jobFetch g j (base + j.taken) with
  | (.fault, j, s) => s.jobEnd g j resFAULT 0
  | (.wait, j, s) => s.jobWait g j
  | (.data d bad, j, s) =>
    let j := { j with got := none, asked := [] }
    if bad then s.jobEnd g j resFAULT 0
    else s.jobNext g { j with inBuf := j.inBuf ++ (lineBytes d).take keep, taken := j.taken + 64 }

/-! ### COPY and FILL -/

/-- R303, R305: COPY of one line; a poisoned line is written poisoned. -/
def copyUnit (s : State) (g : Nat) (j : Job) : State × Bool :=
  if j.arg 2 ≤ j.pos then s.jobEnd g j resDONE 0
  else
    match s.jobFetch g j (j.arg 0 + j.pos) with
    | (.fault, j, s) => s.jobEnd g j resFAULT 0
    | (.wait, j, s) => s.jobWait g j
    | (.data d bad, j, s) =>
      match s.jobStore g j (j.arg 1 + j.pos) d (BitVec.allOnes 64) bad with
      | (.fault, j, s) => s.jobEnd g j resFAULT 0
      | (.wait, j, s) => s.jobWait g { j with got := some (d, bad) }
      | (.done, j, s) =>
        s.jobNext g { j with got := none, asked := [], pos := j.pos + 64, progress := j.pos + 64, r1 := j.r1 + b2n bad }

/-- R303: FILL of one line with the 8-byte pattern. -/
def fillUnit (s : State) (g : Nat) (j : Job) : State × Bool :=
  if j.arg 2 ≤ j.pos then s.jobEnd g j resDONE 0
  else
    let d := lineOfBytes ((List.range 8).flatMap (fun _ => toLE 8 (j.arg 3)))
    match s.jobStore g j (j.arg 1 + j.pos) d (BitVec.allOnes 64) false with
    | (.fault, j, s) => s.jobEnd g j resFAULT 0
    | (.wait, j, s) => s.jobWait g j
    | (.done, j, s) => s.jobNext g { j with pos := j.pos + 64, progress := j.pos + 64 }

/-! ### Jobs that examine lines -/

/-- R305: a job that reads its source line by line: what one line does to it, and what its end does. PROGRESS counts the
bytes examined: those of a record begun and not ended do not count. -/
def examine (f : Job → Line → Job) (fin : Job → Job) (s : State) (g : Nat) (j : Job) : State × Bool :=
  if j.arg 2 ≤ j.pos then s.jobEnd g (fin j) resDONE 0
  else
    match s.jobFetch g j (j.arg 0 + j.pos) with
    | (.fault, j, s) => s.jobEnd g j resFAULT 0
    | (.wait, j, s) => s.jobWait g j
    | (.data d bad, j, s) =>
      let j := { j with got := none, asked := [] }
      if bad then s.jobEnd g { j with progress := j.pos } resFAULT 0
      else
        let j := f j d
        let j := { j with pos := j.pos + 64, progress := if j.result = resLIMIT then j.progress else j.pos + 64 - j.inBuf.length }
        if j.result = resLIMIT then s.jobEnd g j resLIMIT 0 else s.jobNext g j

/-- ZDETECT of one line. -/
def zdetectLine (j : Job) (d : Line) : Job :=
  if d = 0 then j else { j with r0 := j.r0 + 1, r1 := if j.r0 = 0 then j.pos else j.r1 }

/-- CRC of one line. -/
def crcLine (j : Job) (d : Line) : Job := { j with acc := (lineBytes d).foldl crcByte j.acc }

/-- The CRC's result (R212). -/
def crcEnd (j : Job) : Job := { j with r0 := j.acc ^^^ (2 ^ 64 - 1) }

/-- R306: a term holds of a record. -/
def termHolds (rec_ : Bytes) (t : Nat × Nat × Nat × Nat) : Bool :=
  let (ctl, idx, mask, value) := t
  let w := Nat.land (le rec_ (8 * idx) 8) mask
  let v := Nat.land value mask
  match ctl % 8 with
  | 0 => w == v
  | 1 => w != v
  | 2 => w < v
  | 3 => v ≤ w
  | 4 => signed 64 w < signed 64 v
  | _ => signed 64 v ≤ signed 64 w

/-- R306: a record matches. -/
def Job.matches (j : Job) (rec_ : Bytes) : Bool :=
  let ts := ([0, 1, 2].map j.term).filter (fun t => t.1.testBit 3)
  !ts.isEmpty && (if (j.arg 3).testBit 8 then ts.any (termHolds rec_) else ts.all (termHolds rec_))

/-- R306: the complete records in hand, one after the other, up to the match limit. `at_` is the offset of the first. -/
def scanRecords : Nat → Job → Nat → Bytes → Job
  | 0, j, _, bs => { j with inBuf := bs }
  | n + 1, j, at_, bs =>
    let size := 2 ^ (j.arg 3 % 16)
    if bs.length < size then { j with inBuf := bs }
    else if j.matches (bs.take size) then
      let j := { j.addEntry (j.arg 0 + at_) with r0 := j.r0 + 1 }
      if j.arg 4 != 0 && j.arg 4 ≤ j.r0 then { j with result := resLIMIT, progress := at_ + size, inBuf := [] }
      else scanRecords n j (at_ + size) (bs.drop size)
    else scanRecords n j (at_ + size) (bs.drop size)

/-- R306: SCAN of one line. -/
def scanLine (j : Job) (d : Line) : Job :=
  scanRecords 8 { j with inBuf := [] } (j.pos - j.inBuf.length) (j.inBuf ++ lineBytes d)

/-- TOUCH of one line: requested by RdS and, once it has come, cached. A line that the gallery may not cache (R181) is only
requested. A draining gallery still makes the requests of its job, which its drain needs (R207). -/
def touchUnit (s : State) (g : Nat) (j : Job) : State × Bool :=
  if j.arg 2 ≤ j.pos then s.jobEnd g j resDONE 0
  else
    match s.jobPlace j (j.arg 0 + j.pos) with
    | none => s.jobEnd g j resFAULT 0
    | some (sl, line) =>
      let st := (s.agLine (64 + g) sl line).st
      let came := st.hits || (j.asked == [line] && st != .isD)
      let s := s.when (j.asked.isEmpty) (fun s => s.agLoad (64 + g) { jobMsg g j sl line with rtag := 0 })
      if came || s.liteLine sl then s.jobNext g { j with asked := [], pos := j.pos + 64, progress := j.pos + 64 }
      else if (s.agLine (64 + g) sl line).st == .isD then s.jobWait g { j with asked := [line] }
      else s.jobWait g j

/-- R101: the twin hash of a page, as a number of little-endian bytes. -/
def State.twinHash (s : State) (slot : Nat) (page : Bytes) : Nat :=
  leNat (cmac (toLE 32 s.map.twinKey) (toLE 1 slot ++ page))

/-- TWINHASH: one line of the page. -/
def twinhashUnit (s : State) (g : Nat) (j : Job) : State × Bool :=
  if 4096 ≤ j.taken then
    let h := s.twinHash (s.pme (j.arg 0)).key j.inBuf
    s.jobEnd g { j with r0 := h % 2 ^ 64, r1 := h / 2 ^ 64, inBuf := [] } resDONE 0
  else
    let (s, go) := s.jobGet g j (j.arg 0 * 4096) 64
    match s.jobBySeq g j.seq with
    | some j => if go then s.jobNext g { j with progress := j.taken } else (s, false)
    | none => (s, false)

/-! ### Codec jobs -/

/-- ENCODE: write a full line of the stream, or its tail, or read a line, coding a block when eight are in hand. -/
def encodeUnit (s : State) (g : Nat) (j : Job) : State × Bool :=
  if 64 ≤ j.outBuf.length || (j.arg 2 ≤ j.pos && !j.outBuf.isEmpty) then s.jobPut g j (j.arg 1) id
  else if j.arg 2 ≤ j.pos then s.jobEnd g j resDONE 0
  else if j.inBuf.length < 512 then s.jobGet g j (j.arg 0) 64
  else
    let (e, s) := s.encodeBlock g 0 0 false j.inBuf
    let img := aloneImage e j.inBuf
    s.jobNext g { j with inBuf := [], outBuf := j.outBuf ++ img, r0 := j.r0 + img.length, pos := j.pos + 1,
                         progress := j.pos + 1 }

/-- DECODE: write a line of the plaintext, or read a line of the stream, or decode the next image. -/
def decodeUnit (s : State) (g : Nat) (j : Job) : State × Bool :=
  if !j.outBuf.isEmpty then
    s.jobPut g j (j.arg 1) (fun j => if j.outBuf.isEmpty then { j with progress := j.pos } else j)
  else if j.arg 2 ≤ j.pos then s.jobEnd g j resDONE 0
  else if j.inBuf.length < 528 && j.taken < j.arg 3 then s.jobGet g j (j.arg 0) (j.arg 3 - j.taken)
  else
    let s := s.countDec g 0
    match aloneDecode j.inBuf with
    | .ok (b, n) =>
      s.jobNext g { j with outBuf := b, inBuf := j.inBuf.drop n, r0 := j.r0 + n, pos := j.pos + 1 }
    | .error e => (s.treadFail g 0 0 true e).jobEnd g j resFAULT e.code

/-! ### AES jobs -/

/-- R133, R303: unit k of an AES job. A rest of fewer than 16 bytes has no form in IEEE 1619: its bytes are a free value
(log entry 36, DESIGN CHOICE). -/
def State.aesUnitBytes (s : State) (j : Job) (dec : Bool) (k : Nat) (bs : Bytes) : Bytes × State :=
  if bs.length < 16 then
    let (v, s) := s.draw
    (toLE bs.length v, s)
  else
    let m := (s.keySlot (j.arg 3 % 256)).cur
    let tweak := toLE 16 ((j.arg 4 + j.arg 5 * 2 ^ 64 + k) % 2 ^ 128)
    let f := if dec then aesDec (toLE 32 m.k1) else aesEnc (toLE 32 m.k1)
    (xtsUnit f dec (aesEnc (toLE 32 m.k2) tweak) bs, s)

/-- AES_ENC, AES_DEC: write what is made, or read a line, or code one data unit. -/
def aesJobUnit (dec : Bool) (s : State) (g : Nat) (j : Job) : State × Bool :=
  let len := j.arg 2
  let unit := bits (j.arg 3) 28 16
  let made := j.pos * unit
  let need := min unit (len - made)
  if 64 ≤ j.outBuf.length || (len ≤ made && !j.outBuf.isEmpty) then
    s.jobPut g j (j.arg 1) (fun j => { j with progress := j.put })
  else if len ≤ made then s.jobEnd g j resDONE 0
  else if j.inBuf.length < need then s.jobGet g j (j.arg 0) (len - j.taken)
  else if !s.keyUp (j.arg 3 % 256) then (s.emptyUse).jobEnd g j resFAULT 0
  else
    let (b, s) := s.aesUnitBytes j dec j.pos (j.inBuf.take need)
    s.jobNext g { j with inBuf := j.inBuf.drop need, outBuf := j.outBuf ++ b, pos := j.pos + 1 }

/-! ### Rows -/

def execCopy (g : Fin 16) (job : Fin 16) (n : BitVec 16) (s : State) : Outcome :=
  onDie s (fun s => s.jobRow g job 0x01 n.toNat copyUnit)

def execFill (g : Fin 16) (job : Fin 16) (n : BitVec 16) (s : State) : Outcome :=
  onDie s (fun s => s.jobRow g job 0x02 n.toNat fillUnit)

def execZdetect (g : Fin 16) (job : Fin 16) (n : BitVec 16) (s : State) : Outcome :=
  onDie s (fun s => s.jobRow g job 0x03 n.toNat (examine zdetectLine id))

def execCrc (g : Fin 16) (job : Fin 16) (n : BitVec 16) (s : State) : Outcome :=
  onDie s (fun s => s.jobRow g job 0x04 n.toNat (examine crcLine crcEnd))

def execScan (g : Fin 16) (job : Fin 16) (n : BitVec 16) (s : State) : Outcome :=
  onDie s (fun s => s.jobRow g job 0x05 n.toNat (examine scanLine id))

def execTouch (g : Fin 16) (job : Fin 16) (n : BitVec 16) (s : State) : Outcome :=
  onDie s (fun s => s.jobRow g job 0x06 n.toNat touchUnit)

def execTwinhash (g : Fin 16) (job : Fin 16) (n : BitVec 16) (s : State) : Outcome :=
  onDie s (fun s => s.jobRow g job 0x07 n.toNat twinhashUnit)

def execEncode (g : Fin 16) (job : Fin 16) (n : BitVec 16) (s : State) : Outcome :=
  onDie s (fun s => s.jobRow g job 0x08 n.toNat encodeUnit)

def execDecode (g : Fin 16) (job : Fin 16) (n : BitVec 16) (s : State) : Outcome :=
  onDie s (fun s => s.jobRow g job 0x09 n.toNat decodeUnit)

def execAesEnc (g : Fin 16) (job : Fin 16) (n : BitVec 16) (s : State) : Outcome :=
  onDie s (fun s => s.jobRow g job 0x0A n.toNat (aesJobUnit false))

def execAesDec (g : Fin 16) (job : Fin 16) (n : BitVec 16) (s : State) : Outcome :=
  onDie s (fun s => s.jobRow g job 0x0B n.toNat (aesJobUnit true))

end Sys2Proof.Machine
end

