-- ==== Sys2Proof/Machine/Bar0.lean ====
section
/-!
DEFINITION. Register accesses (R3 to R6, R429 to R433, R385): reads, writes, and their 4-byte halves.
-/

namespace Sys2Proof.Machine

/-! ### Which registers there are -/

/-- R79, R429: the port, link or channel of an instance is defined. -/
def State.defined (s : State) (f : Field) (i : Nat) : Bool :=
  match f.blk with
  | .prt => !(s.secs.unitQuads 1 i).isEmpty
  | .cwk => !(s.secs.unitQuads 2 i).isEmpty
  | .drc => (s.secs.chn i).dpc != 0
  | _ => true

/-- R112: pools 4 to 15 are reserved, and their registers read as zero. -/
def Field.reservedPool (f : Field) (j : Nat) : Bool :=
  f.blk == .map && 0x800 ≤ f.off && f.off < 0x820 && 4 ≤ j && j < 16

/-- The register at an offset reads as more than zero, and takes writes. -/
def State.liveReg (s : State) (off : Nat) : Bool :=
  (fieldsAt off).all (fun x => s.defined x.1 x.2.1 && !x.1.reservedPool x.2.2)

/-- R294: the offset lies in a queue's PUSH or POP windows: the queue, and whether it is POP. -/
def window (off : Nat) : Option (Nat × Bool) :=
  if 0x1800000 ≤ off && off < 0x1C00000 && off % 0x1000 < 0x140 then
    some ((off - 0x1800000) / 0x1000, 0x100 ≤ off % 0x1000)
  else none

/-- R432, R433: a field spans bit 32. -/
def Field.spans (f : Field) : Bool := f.lo < 32 && 32 ≤ f.hi

/-! ### Reads -/

/-- R392: DBG_REC_DATA: the ring's record with SEQ DBG_REC_IDX, in hashed form; zero outside the ring. -/
def State.ringRecord (s : State) : Bytes :=
  let seq := s.rd F.DBG_REC_IDX_SEQ
  let r := s.rd F.SMP_PTR_RPTR
  if (seq + 2 ^ 32 - r) % 2 ^ 32 < (s.rd F.SMP_PTR_WPTR + 2 ^ 32 - r) % 2 ^ 32 then
    let l := s.smpLine seq
    let b := (s.peekHall (s.pme (l / 64)) (l / 64) (l % 64)).1
    if s.smp.hashed.contains seq || byteAt b 62 != 1 then b else hashRecord s.sec.kt b
  else []

/-- The fields that a read shows as they are at that moment. -/
def State.latest (s : State) (off : Nat) : State :=
  match regionOf off with
  | some .noc =>
    match F.NOC_DOM_STATUS_OUTSTANDING.at off with
    | some (_, d) => s.showDom d
    | none => match F.NOC_RTR_OLD_CNT_REQ.at off with
      | some (_, r) => s.showOld r
      | none => s
  | some .tst =>
    if 0x1C01000 ≤ off && off < 0x1C01000 + 96 * 0x40 then s.showMaster ((off - 0x1C01000) / 0x40) else s
  | some .pwr =>
    match F.INL_CH_MEAS_IOUT.at off with
    | some (_, c) => s.showMeas c
    | none => s
  | some .dbg =>
    match F.DBG_REC_DATA_DATA.at off with
    | some (_, k) => s.wr F.DBG_REC_DATA_DATA (le s.ringRecord (8 * k) 8) 0 k
    | none => s
  | some .ras =>
    match F.RAS_DATA_DATA.at off with
    | some (_, k) => s.wr F.RAS_DATA_DATA (le s.rasSelected (8 * k) 8) 0 k
    | none => s
  | _ => s

/-- The whole register at an 8-byte offset. -/
def State.show (s : State) (off : Nat) : Nat × State :=
  if s.liveReg off then let s := s.latest off; (s.readWord off, s) else (0, s)

/-- R431: an 8-byte read. -/
def State.readWhole (s : State) (who : Initiator) (off : Nat) : Nat × State :=
  let s := s.dropHalves who off
  let (v, s) := s.show off
  (v, s.readClear off)

/-- R432: a read of bits [31:0]: the register is captured. -/
def State.readLower (s : State) (who : Initiator) (off : Nat) : Nat × State :=
  let s := s.dropHalves who off
  let (v, s) := s.show off
  let s := s.readClear off (fun f => f.hi < 32)
  (v % 2 ^ 32, { s with sec := { s.sec with captures := s.sec.captures ++ [(who, off, v)] } })

/-- R432: a read of bits [63:32]: what was captured, or the live half. -/
def State.readUpper (s : State) (who : Initiator) (off : Nat) : Nat × State :=
  let old := s.sec.captures.find? (fun x => x.1 == who && x.2.1 == off)
  let s := s.dropHalves who off
  match old with
  | some x => (x.2.2 / 2 ^ 32, s.readClear off (fun f => 32 ≤ f.hi))
  | none => let (v, s) := s.show off; (v / 2 ^ 32, s.readClear off (fun f => 32 ≤ f.lo))

/-- A read of `size` bytes but for what R390 records at it. -/
def State.readAccess (s : State) (who : Initiator) (off size : Nat) : Nat × State :=
  match window off with
  | some (q, pop) =>
    let (ok, s) := (s.dropHalves who off).access who off false
    (0, if ok && pop then s.hostPop q who size 0 else s)
  | none =>
    if !((size == 8 && off % 8 == 0) || (size == 4 && off % 4 == 0)) then (0, s.dropHalves who off)
    else
      let (ok, s) := s.access who off false
      let at_ := off / 8 * 8
      if !ok then (0, s.dropHalves who at_)
      else if size = 8 then s.readWhole who at_
      else if off % 8 = 0 then s.readLower who at_
      else s.readUpper who at_

/-- R385, R386, R430: a read of `size` bytes: zero where it is forbidden, misaligned or of another size. -/
def State.barRead (s : State) (who : Initiator) (off size : Nat) : Nat × State :=
  let (v, t) := s.accessing.readAccess who off size
  (v, t.firstAccess s.sec.endLater)

/-! ### Writes -/

/-- Table 18-8: a write of a GEN register. FAULT stays 1 while FATAL is 1. -/
def State.writeGen (s : State) (who : Initiator) (off v : Nat) : State :=
  if off = F.GEN_RST_GO.addr 0 0 then s.genRst v
  else if s.on F.GEN_STATUS_FATAL then s
  else s.writeWord who off v

/-- A write of a whole register: its fields, and what follows, as its chapter says. -/
def State.writeReg (s : State) (who : Initiator) (off v : Nat) : State :=
  if !s.liveReg off then s
  else match regionOf off with
  | some .gen => s.writeGen who off v
  | some .str => s.writeStr who off v
  | some .tim => s.writeTim who off v
  | some .prt => s.writePrt who off v
  | some .cwk => s.writeCwk who off v
  | some .noc => s.writeNoc who off v
  | some .hom => s.writeHom who off v
  | some .map => s.writeMap who off v
  | some .key => s.writeKey who off v
  | some .drc => s.writeDrc who off v
  | some .gal => s.writeGal who off v
  | some .crq => s.writeCrq who off v
  | some .tst => s.writeTst who off v
  | some .cnt => s.writeCnt who off v
  | some .pwr =>
    if 0x1E08000 ≤ off then let (r, s) := s.draw; s.writeInl who off v (r % 2 == 1) else s.writePwr who off v
  | some .sec => s.writeSec who off v
  | some .dbg => s.writeDbg who off v
  | some .fwc => s.writeFwc who off v
  | some .ras => s.writeRas who off v
  | _ => s

/-- R433: the value of a whole register that writes only the fields that `sel` takes: the others keep their value. -/
def State.halfValue (s : State) (off v : Nat) (sel : Field → Bool) : Nat :=
  (fieldsAt off).foldl (fun a x =>
    let f := x.1
    let y := if sel f then f.of v
      else match f.acc with
        | .rw | .rwl | .rws => s.rd f x.2.1 x.2.2
        | _ => 0
    a + y * 2 ^ f.lo) 0

/-- R431: an 8-byte write. -/
def State.writeWhole (s : State) (who : Initiator) (off v : Nat) : State := (s.dropHalves who off).writeReg who off v

/-- R433: a write of bits [31:0]: staged if a field spans bit 32. -/
def State.writeLower (s : State) (who : Initiator) (off v : Nat) : State :=
  let s := s.dropHalves who off
  if (fieldsAt off).any (fun x => x.1.spans) then
    { s with sec := { s.sec with staged := s.sec.staged ++ [(who, off, v)] } }
  else if (fieldsAt off).any (fun x => x.1.hi < 32) then
    s.writeReg who off (s.halfValue off v (fun f => f.hi < 32))
  else s

/-- R433: a write of bits [63:32]: with the staged half, or of the fields wholly within them. -/
def State.writeUpper (s : State) (who : Initiator) (off v : Nat) : State :=
  let old := s.sec.staged.find? (fun x => x.1 == who && x.2.1 == off)
  let s := s.dropHalves who off
  match old with
  | some x => s.writeReg who off (x.2.2 + v * 2 ^ 32)
  | none =>
    if (fieldsAt off).any (fun x => 32 ≤ x.1.lo) then
      s.writeReg who off (s.halfValue off (v * 2 ^ 32) (fun f => 32 ≤ f.lo))
    else s

/-- A write of `size` bytes but for what R390 records at it. -/
def State.writeAccess (s : State) (who : Initiator) (off size v : Nat) : State :=
  match window off with
  | some _ =>
    let (ok, s) := (s.dropHalves who off).access who off true
    if ok then s.writeCrq who off v else s
  | none =>
    if !((size == 8 && off % 8 == 0) || (size == 4 && off % 4 == 0)) then s.dropHalves who off
    else
      let (ok, s) := s.access who off true
      let at_ := off / 8 * 8
      if !ok then s.dropHalves who at_
      else if size = 8 then s.writeWhole who at_ v
      else if off % 8 = 0 then s.writeLower who at_ v
      else s.writeUpper who at_ v

/-- R385, R386, R430: a write of `size` bytes. In a queue's windows it has the wrong size (R294). -/
def State.barStore (s : State) (who : Initiator) (off size v : Nat) : State :=
  (s.accessing.writeAccess who off size v).firstAccess s.sec.endLater

/-! ### The commands -/

/-- An 8-byte write. -/
def execRegisterWrite (who : Initiator) (off : BitVec 26) (data : BitVec 64) (s : State) : Outcome :=
  onDie s (fun s => s.barStore who off.toNat 8 data.toNat)

/-- A read and its answer. -/
def State.answerRead (s : State) (who : Initiator) (off size : Nat) : State :=
  let (v, s) := s.barRead who off size
  s.emit (.bar0 who off v)

/-- R4: a read, of 8 bytes or of 4; its RC fields clear. -/
def execRcRead (who : Initiator) (off : BitVec 26) (wide : Bool) (s : State) : Outcome :=
  onDie s (fun s => s.answerRead who off.toNat (if wide then 8 else 4))

/-- R432: a 4-byte read of bits [31:0]. -/
def execHalfReadCapture (who : Initiator) (off : BitVec 26) (s : State) : Outcome :=
  onDie s (fun s => s.answerRead who (off.toNat / 8 * 8) 4)

/-- R433. -/
def execLowerHalfWrite (who : Initiator) (off : BitVec 26) (data : BitVec 32) (s : State) : Outcome :=
  onDie s (fun s => s.barStore who (off.toNat / 8 * 8) 4 data.toNat)

/-- R433. -/
def execUpperHalfWrite (who : Initiator) (off : BitVec 26) (data : BitVec 32) (s : State) : Outcome :=
  onDie s (fun s => s.barStore who (off.toNat / 8 * 8 + 4) 4 data.toNat)

/-- Table 17-6, BAR0: [25:0] offset, [26] write, [27] 64-bit, [91:28] data; a read shifts its data out. -/
def execBar0 (dr : BitVec 92) (s : State) : Outcome :=
  onTap s (fun s =>
    let d := dr.toNat
    let off := bits d 25 0
    let size := if d.testBit 27 then 8 else 4
    if d.testBit 26 then (s.barStore .dbg off size (bits d 91 28 % 2 ^ (8 * size))).shift irBAR0 0
    else
      let (v, s) := s.barRead .dbg off size
      s.shift irBAR0 (v * 2 ^ 28))

end Sys2Proof.Machine
end

