-- ==== Sys2Proof/Machine/LdReset.lean ====
section
/-!
DEFINITION. What a logical device's configuration space and mailbox do beyond the vendor commands: resets of an LD (R71, R413), configuration
writes (R59, R68, R75), and the media commands and the CDAT of Table 3-1 (R58). Opcodes and layouts of the media commands
and of the CDAT are those of CXL 3.1, which R58 names (log entry 102, PRESUMED).
-/

namespace Sys2Proof.Machine

/-! ### Resets (R71) -/

/-- R71: an FLR: the LD's mailbox command in progress is aborted, with no completion. -/
def State.flrAll (s : State) (l : Fin 64) : State :=
  (s.flrLd l).endCommands (fun w => decide (w = .ld l)) none

/-- R71, R413: an FLR. One that arrives before the port has come up is applied when it does. -/
def execFlr (ld : Fin 64) (s : State) : Outcome :=
  let later := s.onLd ld (fun d => { d with flrDue := true })
  if s.stage = .selfTest then .next later
  else onDie s (fun s =>
    match s.secs.ldEntry ld with
    | none => s
    | some e => if s.on F.PRT_LINK_UP e.port then s.flrAll ld else later)

/-- R57, R413: a port's link comes up; FLRs that waited for it are applied. -/
def execPortLinkUp (port : Fin 16) (rate width : BitVec 3) (l0p : Bool) (s : State) : Outcome :=
  onDie s (fun s =>
    let s := s.linkUp port rate.toNat width.toNat l0p
    let due := (s.secs.portLds port).filter (fun e => (s.ld e.ld).flrDue)
    s.when (s.on F.PRT_LINK_UP port) (fun s => s.forEach due (fun s e => s.flrAll (Fin.ofNat 64 e.ld))))

/-- R71: something still holds lines for the LD at a home: a directory or filter entry, or an open or waiting purge; or one of
its requests is outstanding. -/
def State.ldHolds (s : State) (l : Nat) : Bool :=
  s.coh.dir.any (fun x => x.2.sharers.testBit l) || s.coh.pf.any (fun x => x.2.locals.testBit l)

/-- A purge of the LD's lines, or a request of the LD, is open. -/
def State.ldOpen (s : State) (l : Nat) : Bool :=
  s.reqs.any (fun r => r.ld == l) || s.coh.pfPurges.any (fun f => f.msg.src.toNat == l) ||
    (List.range 16).any (fun h => (s.home h).purges.any (fun f => f.msg.src.toNat == l) ||
      (s.tts h).any (fun x => x.2.opc == 0 && x.2.msg.src.toNat == l)) ||
    s.coh.pfTx.any (fun t => t.await.contains l || t.crossed.contains l)

/-- R71: a CXL Reset completes once the LD's proxy is invalid in every directory. Mem Clear sets every PME of the LD's
static range and added extents to zero just before. -/
def State.resetGoes (s : State) (l : Nat) : State :=
  match (s.ld l).resetting, s.secs.ldEntry l with
  | some clear, some e =>
    if s.ldOpen l then s
    else if s.ldHolds l then s.purgeLd l
    else
      let ext := (s.ld l).extents.flatMap (fun x => (List.range x.2).map (· + x.1))
      let s := s.when clear (fun s => s.forEach ((List.range e.static ++ ext).map (· + e.base)) State.zeroUnit)
      (s.onLd l (fun d => { d with resetting := none })).emit (.cxlResetDone l)
  | _, _ => s

/-- R71: the CXL Resets under way. -/
def State.resetsGo (s : State) : State := s.forEach (List.range 64) State.resetGoes

/-- R71: a CXL Reset, with Mem Clear or not. -/
def State.cxlRst (s : State) (l : Fin 64) (clear : Bool) : State :=
  let s := (s.flrAll l).onLd l (fun d => { d with hdm := [], resetting := some clear })
  (s.purgeLd l).showTols.resetGoes l

def execCxlReset (ld : Fin 64) (clear : Bool) (s : State) : Outcome :=
  onDie s (fun s => if (s.secs.ldEntry ld).isSome then s.cxlRst ld clear else s)

/-! ### Media commands (R58) -/

/-- PRESUMED, CXL 3.1: opcodes of the media commands. -/
def opGetPoison : Nat := 0x4300
def opInjectPoison : Nat := 0x4301
def opClearPoison : Nat := 0x4302
def opScanCaps : Nat := 0x4303
def opScanMedia : Nat := 0x4304
def opScanResults : Nat := 0x4305
def opSanitize : Nat := 0x4400
def opSecureErase : Nat := 0x4401

/-- The DPA of a line of an LD's own DLA range. -/
def dpaOfLine (e : LdEntry) (line : Nat) : Nat := (line - e.base * 2 ^ 22) * 64

/-- The poisoned lines of an LD's DPA range of `n` bytes from `a`: the DPA of each, and the source that CXL 3.1 codes: 1 external,
2 internal, 3 injected. -/
def State.poisonList (s : State) (e : LdEntry) (a n : Nat) : List (Nat × Nat) :=
  let pages : List Nat := (s.map.pmes.map Prod.fst ++ s.map.lost ++ s.map.dropped.map (· / 64)).eraseDups
  let lines := pages.flatMap (fun p => (List.range 64).map (fun l => 64 * p + l))
  let mine := lines.filter (fun x => e.base * 2 ^ 22 ≤ x && a ≤ dpaOfLine e x && dpaOfLine e x < a + n &&
    s.dpaLine e (dpaOfLine e x) == some x && (s.peekLineOf x).2 != 0)
  mine.map (fun x =>
    let d := dpaOfLine e x
    (d, if (s.ld e.ld).injected.contains d then 3 else if (s.peekLineOf x).2 == 4 then 1 else 2))

/-- A record of the poison list. -/
def poisonRecord (x : Nat × Nat) : Bytes := toLE 8 (x.1 + x.2) ++ toLE 4 1 ++ toLE 4 0

/-- Get Poison List. -/
def State.getPoison (s : State) (e : LdEntry) (a n : Nat) : Bytes :=
  let l := s.poisonList e a n
  List.replicate 10 0 ++ toLE 2 l.length ++ List.replicate 20 0 ++ l.flatMap poisonRecord

/-- Get Scan Media Results. -/
def State.scanResults (s : State) (e : LdEntry) : Bytes :=
  let l := (s.ld e.ld).scanned.elim [] (fun r => s.poisonList e r.1 r.2)
  List.replicate 18 0 ++ toLE 2 l.length ++ List.replicate 12 0 ++ l.flatMap poisonRecord

/-- Inject Poison: the line is written poisoned. -/
def State.injectPoison (s : State) (l line dpa : Nat) : State :=
  (s.markPoison line).onLd l (fun d => { d with injected := (d.injected ++ [dpa]).eraseDups })

/-- Clear Poison: the line is written with the data supplied. -/
def State.clearPoison (s : State) (l line dpa : Nat) (data : Bytes) : State :=
  ((s.writeNow line (lineOfBytes data) (BitVec.allOnes 64) false l).2).onLd l (fun d =>
    { d with injected := d.injected.filter (· != dpa) })

/-- Sanitize, Secure Erase: no data of the LD can be read any more: every page of its static range and added extents is zero. -/
def State.sanitize (s : State) (e : LdEntry) : State :=
  let ext := (s.ld e.ld).extents.flatMap (fun x => (List.range x.2).map (· + x.1))
  (s.forEach ((List.range e.static ++ ext).map (· + e.base)) State.zeroUnit).onLd e.ld (fun d => { d with injected := [] })

/-- A mailbox command whose input has `n` bytes. -/
def State.ofLength (s : State) (who : Initiator) (input : Bytes) (n : Nat) (f : State → State) : State :=
  if input.length = n then f s else s.answer who .invalidInput

/-- A mailbox command about the line at a DPA; none: the DPA is not mapped. -/
def State.atDpa (s : State) (who : Initiator) (at_ : Option Nat) (f : State → Nat → State) : State :=
  match at_ with
  | some line => (f s line).answer who .success
  | none => s.answer who .invalidPhysicalAddress

/-- A background command that ends within the command: its start and its completion. -/
def State.mediaBackground (s : State) (who : Initiator) (f : State → State) : State :=
  if s.inBackground || s.str.xfer.any (fun x => x.who != who) then s.answer who .busy
  else (f (s.answer who .background)).answer who .success

/-- R58: the media commands of Table 3-1. Any other opcode is not supported. -/
def State.media (s : State) (who : Initiator) (e : LdEntry) (op : Nat) (input : Bytes) : State :=
  let a := le input 0 8
  let n := 64 * le input 8 8
  if op = opGetPoison then s.ofLength who input 16 (fun s => s.answer who .success (s.getPoison e a n))
  else if op = opInjectPoison then
    s.ofLength who input 8 (fun s => s.atDpa who (s.dpaLine e a) (fun s line => s.injectPoison e.ld line (a / 64 * 64)))
  else if op = opClearPoison then
    s.ofLength who input 72 (fun s => s.atDpa who (s.dpaLine e a) (fun s line => s.clearPoison e.ld line (a / 64 * 64) (input.drop 8)))
  else if op = opScanCaps then
    s.ofLength who input 16 (fun s => let (v, s) := s.draw; s.answer who .success (toLE 4 (v % 2 ^ 32)))
  else if op = opScanMedia then
    s.ofLength who input 17 (fun s => s.mediaBackground who (fun s => s.onLd e.ld (fun d => { d with scanned := some (a, n) })))
  else if op = opScanResults then s.ofLength who input 0 (fun s => s.answer who .success (s.scanResults e))
  else if op = opSanitize ∨ op = opSecureErase then
    s.ofLength who input 0 (fun s => s.mediaBackground who (fun s => s.sanitize e))
  else s.answer who .unsupported

/-! ### CDAT (R58) -/

/-- The ranges of an LD that have a DSMAS: the static range, then the Dynamic Capacity regions, as DPA base and length in
bytes. -/
def LdEntry.ranges (e : LdEntry) : List (Nat × Nat) :=
  let size := if e.dcCount = 0 then 0 else e.dc / e.dcCount
  let all : List (Nat × Nat) := (if e.static = 0 then [] else [(0, e.static)]) ++
    (List.range e.dcCount).map (fun k => (e.static + k * size, size))
  all.map (fun x => (x.1 * 2 ^ 28, x.2 * 2 ^ 28))

/-- A DSMAS: type 0, length 24, handle, flags (bit 3: sharable, clear; region 0 is not dynamic), DPA base and length. -/
def dsmas (k : Nat) (r : Nat × Nat) : Bytes := [0, 0] ++ toLE 2 24 ++ toLE 1 k ++ [0, 0, 0] ++ toLE 8 r.1 ++ toLE 8 r.2

/-- The CDAT of an LD but for its header. -/
def LdEntry.cdat (e : LdEntry) : List Bytes := e.ranges.zipIdx.map (fun x => dsmas x.2 x.1)

/-- The header: length of the table, revision, a checksum that makes all bytes sum to zero, sequence. -/
def LdEntry.cdatHeader (e : LdEntry) : Bytes :=
  let len := toLE 4 (16 + 24 * e.ranges.length)
  let sum := (len ++ e.cdat.flatten).foldl (fun a b => a + b.toNat) 1
  len ++ [1] ++ toLE 1 ((256 - sum % 256) % 256) ++ List.replicate 10 0

/-- An entry through DOE: 0 the header; then the DSMASes: the handle of the next entry (0xFFFF: none), and the entry. -/
def LdEntry.cdatEntry (e : LdEntry) (k : Nat) : Bytes :=
  let all := e.cdatHeader :: e.cdat
  match all[k]? with
  | none => []
  | some b => toLE 2 (if k + 1 < all.length then k + 1 else 0xFFFF) ++ b

/-! ### Configuration writes -/

/-- R58, R68, R75: a CXL.io configuration write of an LD. -/
def State.cfgWrite (s : State) (l : Fin 64) (e : LdEntry) (w : CfgWrite) : State :=
  match w with
  | .memEnable on => (s.onLd l (fun d => { d with memEnable := on })).showTols
  | .viral on => (s.onLd l (fun d => { d with viral := on })).showTols
  | .decoder k base size ways gran skip commit =>
    let h : Hdm := { base := base.toNat, size := size.toNat, ways := ways.toNat, gran := gran.toNat, committed := commit }
    (s.onLd l (fun d => d.decoder k h skip.toNat)).showTols
  | .mailbox op input =>
    if s.on F.FWC_STATUS_MONITOR then s.answer (.ld l) .unsupported else s.media (.ld l) e op.toNat input
  | .cdat k => s.emit (.doe l (e.cdatEntry k.toNat))

def execConfigurationSpaceWrite (ld : Fin 64) (w : CfgWrite) (s : State) : Outcome :=
  onDie s (fun s =>
    match s.secs.ldEntry ld with
    | some e => s.cfgWrite ld e w
    | none => s)

end Sys2Proof.Machine
end

