-- ==== Sys2Proof/Machine/TierJobs.lean ====
section
/-!
DEFINITION. The tier jobs (R96 to R104, Table 4-5), MAP_SCAN, and the re-encryption jobs REKEY and RESLOT (R152, R153).
-/

namespace Sys2Proof.Machine

/-- Page status codes (Table 4-6). -/
def psDONE : Nat := 0x00
def psZERO : Nat := 0x01
def psTWINNED : Nat := 0x02
def psPINNED : Nat := 0x10
def psWRITTEN : Nat := 0x11
def psWRONGTIER : Nat := 0x12
def psNOSPACE : Nat := 0x13
def psPOISON : Nat := 0x14
def psUNCORR : Nat := 0x15
def psLOST : Nat := 0x16

/-- The job ends a page with a status. -/
def State.pageEnds (s : State) (g : Nat) (j : Job) (p code : Nat) : State × Bool :=
  let s : State := { s with map := { s.map with watch := s.map.watch.filter (fun w => w.2.1 != j.seq) } }
  (s.stepEnds j).jobNext g (j.status p code)

/-- R90: the page of a step is BUSY for something else, or its slice is down. -/
def State.stepHeld (s : State) (g : Nat) (j : Job) (p : Nat) : Bool :=
  s.pageHeld p && !s.map.busy.contains (p, .jobStep g j.seq)

/-- A step does not go on. -/
def State.stepWaits (s : State) (p : Nat) : State × Bool := (s.wakeSlice p, false)

/-- R90: a step that waits for an answer holds its page BUSY. -/
def State.stepBusy (s : State) (g : Nat) (j : Job) (p : Nat) : State :=
  if s.map.busy.contains (p, .jobStep g j.seq) then s
  else { s with map := { s.map with busy := s.map.busy ++ [(p, .jobStep g j.seq)] } }

/-- The media addresses of a run. -/
def Run.mas (r : Run) : List Nat := (List.range r.total).map (fun i => (r.loc + i) * 64)

/-- R93, R94: ranks and galleries that a step needs and that sleep are woken. `true`: there are some. -/
def State.stepRouse (s : State) (mas : List Nat) (gals : List Nat) : Bool × State :=
  let z := s.sleepers mas
  (!z.isEmpty || !gals.isEmpty, s.forEach gals (fun s g => s.wakeDom (16 + g)) |>.rouseAll z)

/-- R237: a page of an IMPORT window. -/
def State.imported (s : State) (p : Nat) : Bool := (s.importOf (p / 65536)).isSome

/-! ### DEMOTE (R98) -/

/-- R98, step 1: the lines of a page whose owner must be recalled, or on which a transaction is open. -/
def State.heldLines (s : State) (p : Nat) : List Nat :=
  ((List.range 64).map (lineOf p)).filter (fun l => s.dirState l == 3 || s.lineBusy l ||
    (s.home (homeOf l)).confq.any (fun f => f.msg.line.toNat == l))

/-- R98, step 1: send RdNC with RECALL for the lines owned that the job has not asked for. -/
def State.recallLines (s : State) (g : Nat) (j : Job) (ls : List Nat) : State × Job :=
  let owned := ls.filter (fun l => s.dirState l == 3 && !j.asked.contains l)
  let s := s.forEach owned (fun s l =>
    s.send ⟨opRdNC, .home, { jobMsg g j s.slot l with noalloc := true, rcall := true }⟩)
  (s, { j with asked := j.asked ++ owned })

/-- The 64 lines of a page read through their homes: data, and whether one is poisoned. -/
def State.readPage (s : State) (p master : Nat) : (Bytes × Bool) × State :=
  (List.range 64).foldl (fun (a : (Bytes × Bool) × State) l =>
    let ((d, bad), s) := (a.2.postRead (lineOf p l) master).takeLine (lineOf p l) master none ([], true)
    ((a.1.1 ++ d, a.1.2 || bad), s)) (([], false), s)

/-- R103: the stored copy of a twin entry decodes to these bytes at gallery `g`. -/
def State.twinEqual (s : State) (g e : Nat) (page : Bytes) (master : Nat) : Bool × State :=
  let t := s.twin e
  let r : Run := ⟨t.loc, t.bsz, t.ver, t.key, t.origin, some e⟩
  let s := s.forEach (List.range r.total) (fun s i => s.postMa ((r.loc + i) * 64) false master)
  (List.range 8).foldl (fun (a : Bool × State) b =>
    if !a.1 then a
    else
      let res := a.2.peekBlock r b
      let s := a.2.countDecode g r b res
      match res with
      | .ok d => (d == slice page (512 * b) 512, s)
      | _ => (false, s)) (true, s)

/-- R89: the entries of a bucket are read through their slices. -/
def State.touchBucket (s : State) (bucket master : Nat) : State :=
  s.forEach (List.range 8) (fun s i => s.mapTouch ⟨true, 8 * bucket + i, false⟩ master)

/-- A twin entry that a job has sealed a run for and not filled yet. -/
def State.reserved (s : State) (e : Nat) : Bool :=
  (List.range 16).any (fun g => (s.gal g).jobs.any (fun j => match j.page with
    | some st => match st.bucket with | some b => b.1 == e | none => false
    | none => false))

/-- R103: the lowest invalid entry of a bucket, among those that no job has reserved (log entry 109, DESIGN CHOICE). -/
def State.freeEntry (s : State) (bucket : Nat) : Option Nat :=
  ((List.range 8).map (· + 8 * bucket)).find? (fun e => !(s.twin e).valid && !s.reserved e)

/-- R102: entries of the twin table. -/
def State.twinEntries (s : State) : Nat := 32768 * s.rd F.MAP_TWIN_CFG_CHUNKS

/-- R102, R103: an entry that matches: VALID, equal HASH and KEY, and REFCNT below its limit. -/
def State.twinMatch (s : State) (bucket hash slot : Nat) : Option Nat :=
  ((List.range 8).map (· + 8 * bucket)).find? (fun e =>
    let t := s.twin e
    t.valid && t.hash == hash && t.key == slot && t.refcnt < 0xFFFFFF)

/-- R98, Table 12-6: the heap a DEMOTE allocates from: the rank group named, or one of the target's groups where ANY
leaves it open (a free value, log entry 37, DESIGN CHOICE). -/
def State.demoteGroup (s : State) (j : Job) (loft : Bool) : Option Group × State :=
  let k := bits (j.arg 2) 12 8
  if k != 0x1F then (s.rankGroup k loft, s)
  else
    let gs := s.map.groups.filter (·.loft == loft)
    if gs.isEmpty then (none, s)
    else
      let (v, s) := s.draw
      (gs[v % gs.length]?, s)

/-- R143: the ciphertext of the eight blocks of a run. -/
def State.sealRun (s : State) (r : Run) (es : List Encoded) : Bytes :=
  let (k, gen) := s.runKey r
  es.zipIdx.flatMap (fun x => k.enc (runTweak r.page x.2 r.ver gen) (storedImage x.1))

/-- Write a run, with its DRAM accesses. -/
def State.writeRun (s : State) (start : Nat) (bs : Bytes) (master : Nat) : State :=
  (s.forEach (List.range (bs.length / 64)) (fun s i => s.postMa ((start + i) * 64) true master)).putGranules start bs

/-- R98, step 3: the run of a page in the target heap. `twin`: the twin entry that the run is for, whose number decides
the key (R142). -/
def State.demoteRun (s : State) (j : Job) (p slot : Nat) (es : List Encoded) (twin : Option Nat) (master : Nat) :
    Option (Run × State) :=
  let loft := j.arg 2 % 4 == 3
  let bsz := bszOf (es.map (·.bsz))
  match s.demoteGroup j loft with
  | (none, _) => none
  | (some grp, s) =>
    match s.allocRun grp (bszSum bsz) with
    | none => none
    | some (loc, s) =>
      let r : Run := ⟨loc, bsz, ((s.pme p).ver + 1) % 2 ^ 16, slot, p, twin⟩
      some (r, s.writeRun loc (s.sealRun r es) master)

/-- R98, R102, R103: the page has been read and is good: what its commit will do. -/
def State.demoteStep (s : State) (g : Nat) (j : Job) (p : Nat) (page : Bytes) : State × Bool :=
  let x := s.pme p
  let m := j.master g
  let slot := s.regionSlot p
  let ready := fun (s : State) (st : PageStep) =>
    let s : State := { s with map := { s.map with watch := s.map.watch ++ [(p, j.seq, false)] } }
    s.jobNext g { j with page := some st }
  if !s.conceal p && allZero page then ready s ⟨p, x, {}, psZERO, none, { zero := true }, none, none, false⟩
  else
    let (es, s) := (List.range 8).foldl (fun (a : List Encoded × State) b =>
      let (e, s) := a.2.encodeBlock g p b (a.2.conceal p) (slice page (512 * b) 512)
      (a.1 ++ [e], s)) ([], s)
    let loft := j.arg 2 % 4 == 3
    let twin := loft && j.twin && s.on F.MAP_TWIN_CFG_EN && s.twinEntries != 0 && s.integ p == 0
    let hash := s.twinHash slot page
    let bucket := hash % 2 ^ 64 % max 1 (s.twinEntries / 8)
    let (shared, s) := if !twin then (none, s)
      else
        let s := s.touchBucket bucket m
        match s.twinMatch bucket hash slot with
        | none => (none, s)
        | some e =>
          let (eq, s) := s.twinEqual g e page m
          (if eq then some e else none, s)
    match shared with
    | some e =>
      let t := s.twin e
      let s := s.setTwin e { t with refcnt := t.refcnt + 1 } m
      ready s ⟨p, x, t, psTWINNED, none,
        { tier := 3, twin := true, loc := e, bsz := t.bsz, ver := t.ver, key := slot }, some e, none, false⟩
    | none =>
      let entry := if twin then s.freeEntry bucket else none
      match s.demoteRun j p slot es entry m with
      | none => s.pageEnds g j p psNOSPACE
      | some (r, s) =>
        ready s { page := p, was := x, old := {}, status := psDONE, run := some (r.loc, r.total),
                  pme := { tier := if loft then 3 else 2, loc := r.loc, bsz := r.bsz, ver := r.ver, key := slot },
                  shared := none, bucket := entry.map (fun e => (e, hash)), full := twin && entry.isNone }

/-- R98, R140: DEMOTE of the next page, up to its commit. -/
def demoteUnit (s : State) (g : Nat) (j : Job) : State × Bool :=
  match j.pageAt j.pos with
  | none => s.jobEnd g j resDONE 0
  | some p =>
    if j.page.isSome || s.pageHeld p || s.on F.GEN_STATUS_FATAL then s.stepWaits p
    else
      let x := s.pme p
      let s := s.mapTouch ⟨false, p / 4, false⟩ (j.master g)
      let (asleep, s) := s.stepRouse ((List.range 64).map (fun l => x.loc * 4096 + 64 * l)) []
      if s.imported p then s.pageEnds g j p psWRONGTIER
      else if s.lost p then (s.noteLost p).pageEnds g j p psLOST
      else if x.tier != 1 then s.pageEnds g j p psWRONGTIER
      else if x.poison || s.map.dropped.any (· / 64 == p) then s.pageEnds g j p psPOISON
      else if !s.keyUp x.key || !s.keyUp (s.regionSlot p) then s.emptyUse.pageEnds g j p psLOST
      else if asleep then (s, false)
      else
        let held := s.heldLines p
        if !held.isEmpty then
          let (s, j) := s.recallLines g j held
          s.jobWait g j
        else
          let ((page, bad), s) := s.readPage p (j.master g)
          if bad then s.pageEnds g j p psPOISON else s.demoteStep g { j with got := none, asked := [] } p page

/-- R146, R147: the tag of a page whose run `r` holds `ct` is written as a write through the home of its line. `none`: it
needs a Hall frame and none can be had. -/
def State.tagStore (s : State) (g : Nat) (j : Job) (p : Nat) (r : Run) (ct : Bytes) : Option (Stored × Job × State) :=
  let a := s.tagAddr p
  let off := a % 64
  let x := s.pme (a / 4096)
  if j.wrote.isNone && x.tier != 1 && !s.lost (a / 4096) && (s.frameNow (a / 4096)).isNone then none
  else some (s.jobStore g j (a / 64 * 64) (BitVec.ofNat 512 (leNat (s.tagOf p r ct) * 2 ^ (8 * off)))
    (BitVec.ofNat 64 (0xFF * 2 ^ off)) false)

/-- R103: a page whose run is written with the TWIN flag fills the entry it was sealed for. -/
def State.fillBucket (s : State) (st : PageStep) (master : Nat) : Pme × State :=
  match st.bucket with
  | none => (st.pme, s.when st.full (fun s => s.bump F.MAP_TWIN_STAT_FULL))
  | some (e, hash) =>
    let t : Twin := { hash := hash, loc := st.pme.loc, key := st.pme.key, ver := st.pme.ver, bsz := st.pme.bsz,
                      refcnt := 1, valid := true, origin := st.page }
    ({ st.pme with twin := true, loc := e }, s.setTwin e t master)

/-- R98: reads of a page's lines whose accesses have gone to its frame take what the frame holds. -/
def State.readsLeave (s : State) (p : Nat) : State :=
  let f := fun (r : MapReq) =>
    if !r.write && r.st == .served && r.line / 64 == p && r.got.isNone then { r with got := some (s.peekLineOf r.line) } else r
  { s with map := { s.map with reqs := s.map.reqs.map f } }

/-- R98, step 4: the commit of a page that no rule stops: TIER, LOC, BSZ, KEY, VER and DIRTYC change, and the frame is free
once the reads in flight to it have completed. -/
def State.demoteDone (s : State) (g : Nat) (j : Job) (st : PageStep) : State :=
  let m := j.master g
  let now := s.pme st.page
  let reads := (s.map.reqs.filter (fun r => !r.write && r.st == .served && r.line / 64 == st.page)).map (fun r => (r.home, r.tt))
  let (x, s) := (s.readsLeave st.page).fillBucket st m
  let s := s.setPme st.page { x with age := now.age, poison := now.poison, pin := now.pin } m
  let s := s.when (st.status == psTWINNED) (fun s => s.bump F.MAP_TWIN_STAT_MATCH)
  let s := s.when (st.status == psDONE && st.was.ver == 0xFFFF) (fun s => s.verWrap st.page st.pme.key)
  s.freeFrameAfter st.was.loc reads

/-- R98, Table 4-4: the commit of the page that a DEMOTE has ready. Its tag is written first (R147), under a key that is
there (R140). -/
def demoteCommitUnit (s : State) (g : Nat) (j : Job) : State × Bool :=
  match j.page with
  | none => (s, false)
  | some st =>
    let p := st.page
    if s.stepHeld g j p then s.stepWaits p
    else
      let now := s.pme p
      let written := s.map.watch.any (fun w => w.1 == p && w.2.1 == j.seq && w.2.2)
      let stop := fun (s : State) code => (s.undoStep j).pageEnds g { j with page := none } p code
      if written then stop s psWRITTEN
      else if s.lost p then stop (s.noteLost p) psLOST
      else if now.tier != 1 || now.loc != st.was.loc then stop s psWRONGTIER
      else if now.pin || s.ringPage p then stop s psPINNED
      else if st.run.isSome && s.integ p != 0 then
        let r : Run := ⟨st.pme.loc, st.pme.bsz, st.pme.ver, st.pme.key, p, none⟩
        if !s.keyUp st.pme.key then stop s.emptyUse psLOST
        else match s.tagStore g j p r (s.peekGranules r.loc r.total).1 with
          | none => stop s psNOSPACE
          | some (.done, j, s) => (s.demoteDone g j st).pageEnds g { j with page := none } p st.status
          | some (_, j, s) => (s.stepBusy g j p).jobWait g j
      else (s.demoteDone g j st).pageEnds g { j with page := none } p st.status

/-! ### RELOCATE (R100) -/

/-- R100: copy granules as read; whether one was not good. -/
def State.copyRun (s : State) (src dst n master : Nat) : Bool × State :=
  (List.range n).foldl (fun (a : Bool × State) i =>
    let s := (a.2.postMa ((src + i) * 64) false master).postMa ((dst + i) * 64) true master
    let (d, c) := s.peekMa ((src + i) * 64)
    let s := s.spendCause ((src + i) * 64)
    (a.1 || c != 0, s.putMa ((dst + i) * 64) d (c != 0))) (false, s)

/-- R145, R147: the check of a compressed page's tag. `none`: the tag line is awaited. -/
def State.tagCheck (s : State) (g : Nat) (p : Nat) (x : Pme) : Option Bool × State :=
  if x.tier < 2 || s.integ p == 0 || x.twin then (some true, s)
  else match s.tagLine p g with
    | (none, s) => (none, s)
    | (some tag, s) => (some (s.tagOk p (s.runOf p x) tag), s)

/-- R100: RELOCATE of a page into a rank group, up to its commit. -/
def State.relocateTo (s : State) (g : Nat) (j : Job) (p : Nat) (grp : Group) : State × Bool :=
  let x := s.pme p
  let r := s.runOf p x
  let (asleep, s) := s.stepRouse r.mas []
  if asleep then (s, false)
  else if s.integ p != 0 && !x.twin && !s.keyUp x.key then s.emptyUse.pageEnds g j p psLOST
  else match s.tagCheck g p x with
    | (none, s) => s.jobWait g j
    | (some good, s) =>
      match s.allocRun grp r.total with
      | none => s.pageEnds g j p psNOSPACE
      | some (loc, s) =>
        let s := s.when (!good) (fun s => s.integFail 2 x.key p)
        let (bad, s) := s.copyRun r.loc loc r.total (j.master g)
        let st := if bad || !good then psUNCORR else psDONE
        s.jobNext g { j with page := some ⟨p, x, s.twin x.loc, st, some (loc, r.total), x, none, none, false⟩ }

/-- R100: RELOCATE of the next page, up to its commit. -/
def relocateUnit (s : State) (g : Nat) (j : Job) : State × Bool :=
  match j.pageAt j.pos with
  | none => s.jobEnd g j resDONE 0
  | some p =>
    if j.page.isSome || s.pageHeld p || s.on F.GEN_STATUS_FATAL then s.stepWaits p
    else
      let s := s.pageTouch p (j.master g)
      let x := s.pme p
      if s.imported p then s.pageEnds g j p psWRONGTIER
      else if s.lost p then (s.noteLost p).pageEnds g j p psLOST
      else match s.rankGroup (bits (j.arg 2) 12 8) (x.tier == 3) with
        | none => s.pageEnds g j p psWRONGTIER
        | some grp => if x.tier < 2 then s.pageEnds g j p psWRONGTIER else s.relocateTo g j p grp

/-- R100: every page that shares a twin entry reads poisoned. -/
def State.poisonSharers (s : State) (e : Nat) : State :=
  s.forEach (s.map.pmes.filter (fun y => y.2.twin && y.2.loc == e)) (fun s y => s.setPme y.1 { y.2 with poison := true })

/-- R100: the commit of the page that a RELOCATE has copied. -/
def relocateCommitUnit (s : State) (g : Nat) (j : Job) : State × Bool :=
  match j.page with
  | none => (s, false)
  | some st =>
    let p := st.page
    if s.pageHeld p then s.stepWaits p
    else
      let now := s.pme p
      let loc := match st.run with | some (l, _) => l | none => 0
      let same := now.tier == st.was.tier && now.twin == st.was.twin && now.loc == st.was.loc &&
        (!now.twin || (s.twin now.loc).loc == st.old.loc)
      let bad := st.status == psUNCORR
      if !same then (s.undoStep j).pageEnds g { j with page := none } p psWRONGTIER
      else
        let old := s.runOf p now
        let s := if now.twin then
            let s := s.setTwin now.loc { s.twin now.loc with loc := loc } (j.master g)
            s.when bad (fun s => s.poisonSharers now.loc)
          else s.setPme p { now with loc := loc, poison := now.poison || bad } (j.master g)
        (s.releaseRun old.loc old.total).pageEnds g { j with page := none } p st.status

/-! ### PROMOTE and MAP_SCAN -/

/-- R96, Table 4-5: PROMOTE of the next page, with DIRTYC left 0. -/
def promoteUnit (s : State) (g : Nat) (j : Job) : State × Bool :=
  match j.pageAt j.pos with
  | none => s.jobEnd g j resDONE 0
  | some p =>
    if s.pageHeld p then s.stepWaits p
    else
      let s := s.pageTouch p (j.master g)
      let x := s.pme p
      let r := s.runOf p x
      let (asleep, s) := if x.tier < 2 then (false, s) else s.stepRouse r.mas (s.galsDown r)
      if s.imported p then s.pageEnds g j p psWRONGTIER
      else if s.lost p then (s.noteLost p).pageEnds g j p psLOST
      else if x.tier < 2 then s.pageEnds g j p psWRONGTIER
      else if !s.keyUp r.key then s.emptyUse.pageEnds g j p psLOST
      else if asleep then (s, false)
      else
        let need := s.integ p != 0 && !x.twin
        match if need then s.tagLine p g else (some ([], true), s) with
        | (none, s) => s.jobWait g j
        | (some tag, s) =>
          match s.frameNow p with
          | none => s.pageEnds g j p psNOSPACE
          | some (f, s) => (s.promote p f false none tag (j.master g)).pageEnds g j p psDONE

/-- The chunk in which an entry's LOC lies. TIER 00 holds LOC 0 (R86). -/
def State.locChunk (s : State) (x : Pme) : Nat :=
  if x.tier < 2 then x.loc / 512 else if x.twin then (s.twin x.loc).loc / 32768 else x.loc / 32768

/-- Table 4-5: MAP_SCAN of the next page. A lost entry matches nothing. -/
def mapScanUnit (s : State) (g : Nat) (j : Job) : State × Bool :=
  match j.pageAt j.pos with
  | none => s.jobEnd g j resDONE 0
  | some p =>
    if s.imported p then s.pageEnds g j p psWRONGTIER
    else if s.pageHeld p then s.stepWaits p
    else
      let s := s.pageTouch p (j.master g)
      let x := s.pme p
      let c := s.locChunk x
      let s := s.when (s.lost p) (fun s => s.noteLost p)
      let hit := !s.lost p && (j.arg 2).testBit x.tier && bits (j.arg 2) 15 8 ≤ x.age && j.arg 3 ≤ c && c < j.arg 4
      let j := if hit then j.addEntry p else j
      s.jobNext g { j with pos := j.pos + 1, progress := j.pos + 1 }

/-! ### Re-encryption (R152, R153) -/

/-- The lines of a Hall page as read, and whether each is poisoned. -/
def State.hallLines (s : State) (p master : Nat) : List (Bytes × Bool) × State :=
  (List.range 64).foldl (fun (a : List (Bytes × Bool) × State) l =>
    let x := a.2.pme p
    let s := a.2.postMa (x.loc * 4096 + 64 * l) false master
    let (d, c) := s.peekHall x p l
    (a.1 ++ [(d, c != 0)], (s.spendCause (x.loc * 4096 + 64 * l)).postMa (x.loc * 4096 + 64 * l) true master)) ([], s)

/-- The plaintext of the data units of a run under the key it is stored under: each granule with whether it is good. -/
def State.openRun (s : State) (r : Run) : List (Bytes × Bool) :=
  let (k, gen) := s.runKey r
  (List.range 8).flatMap (fun b =>
    let (ct, _) := s.peekGranules (r.start b) (r.size b)
    let good := fun i => (s.peekMa ((r.start b + i) * 64)).2 == 0
    (pieces 64 (k.dec (runTweak r.page b r.ver gen) ct)).zipIdx.map (fun x => (x.1, good x.2)))

/-- Store a run's plaintext under the key it now has; a granule that was not good is stored poisoned. -/
def State.sealAgain (s : State) (r : Run) (gs : List (Bytes × Bool)) (master : Nat) : State :=
  let (k, gen) := s.runKey r
  let units := (List.range 8).flatMap (fun b =>
    let skip := r.start b - r.loc
    k.enc (runTweak r.page b r.ver gen) (((gs.drop skip).take (r.size b)).flatMap (·.1)))
  (pieces 64 units).zipIdx.foldl (fun s x =>
    let ma := (r.loc + x.2) * 64
    ((s.postMa ma false master).postMa ma true master).putMa ma x.1 (((gs[x.2]?).map (·.2)) != some true)) s

/-- What a step of re-encryption comes to: it waits for its page's tag line or for the acceptance of its new tag; it has no
frame for the tag, and nothing changes; or it has ended with a status. -/
inductive Recoded where
  | wait
  | noSpace
  | ended (code : Nat)

/-- R152, R153: re-encrypt a stored page: `change` makes the new key the one in force. The tag is checked first and the new
one written before the page changes (R145, R147). `src` is of Table 6-7. -/
def State.recode (s : State) (g : Nat) (j : Job) (p src : Nat) (change : State → State) :
    Recoded × Job × State :=
  let x := s.pme p
  let m := j.master g
  let writing := j.wrote.isSome
  match if writing then (some true, s) else s.tagCheck g p x with
  | (none, s) => (.wait, j, s.stepBusy g j p)
  | (some false, s) =>
    (.ended psUNCORR, j, ((s.integFail src x.key p).setPme p { x with poison := true } m).when (src == 3) change)
  | (some true, s) =>
    if x.tier = 1 then
      let (ls, s) := s.hallLines p m
      (.ended psDONE, j, ((change s).putPage p ls).noteWrite p)
    else
      let gs := s.openRun (s.runOf p x)
      let s' := change s
      let r := s'.runOf p (s'.pme p)
      let s' := s'.sealAgain r gs m
      if s'.integ p = 0 || x.twin then (.ended psDONE, j, s')
      else match s.tagStore g j p r (s'.peekGranules r.loc r.total).1 with
        | none => (.noSpace, j, s)
        | some (.done, j, s) => (.ended psDONE, j, (change s).sealAgain r gs m)
        | some (_, j, s) => (.wait, j, s.stepBusy g j p)

/-- R152: one step of a REKEY job on page PCURSOR of slot `n`. -/
def State.rekeyPage (s : State) (g : Nat) (j : Job) (n p : Nat) : State × Bool :=
  let s := s.pageTouch p (j.master g)
  let x := s.pme p
  let next := fun (s : State) => s.wr F.KEY_SLOT_PCURSOR_PCURSOR (p + 1) 0 n
  let step := fun (j : Job) => { j with pos := j.pos + 1, progress := j.pos + 1, wrote := none }
  if s.lost p || x.tier = 0 || x.twin || x.key != n then (next s).jobNext g (step j)
  else
    let (asleep, s) := s.stepRouse (if x.tier = 1 then [x.loc * 4096] else (s.runOf p x).mas) []
    if asleep then (s, false)
    else match s.recode g j p 3 next with
      | (.wait, j, s) => s.jobWait g j
      | (.noSpace, _, s) => (s.stepEnds j).jobEnd g (j.status p psNOSPACE) resDONE 0
      | (.ended code, j, s) => if code = psDONE then (s.stepEnds j).jobNext g (step j) else s.pageEnds g j p code

/-- R152: one step on twin entry TCURSOR of slot `n`; past the last entry the slot is ACTIVE. -/
def State.rekeyTwin (s : State) (n e master : Nat) : State :=
  let s := s.mapTouch ⟨true, e, false⟩ master
  let t := s.twin e
  let next := fun (s : State) => s.wr F.KEY_SLOT_TCURSOR_TCURSOR (e + 1) 0 n
  let s := if t.valid && t.key == n && e < s.twinEntries then
      let r : Run := ⟨t.loc, t.bsz, t.ver, t.key, t.origin, some e⟩
      let gs := s.openRun r
      (next s).sealAgain r gs master
    else if e < s.twinEntries then next s else s
  if s.twinEntries ≤ s.rd F.KEY_SLOT_TCURSOR_TCURSOR 0 n then s.rekeyDone n else s

/-- Table 6-4: the next stored page of an EMPTY slot that a REKEY job has not ended LOST_PME yet; `taken` of the job is where
it looks on. -/
def State.lostPage (s : State) (j : Job) (n : Nat) : Option Nat :=
  let from_ := max j.taken (s.rd F.KEY_SLOT_PCURSOR_PCURSOR 0 n)
  (s.map.pmes.find? (fun y => y.2.key == n && y.2.tier != 0 && from_ ≤ y.1)).map (·.1)

/-- R152: one step of a REKEY job. A slot that is EMPTY ends the remaining pages LOST_PME (Table 6-4); a slot that is
ACTIVE has nothing left to do. A twin entry that a DEMOTE has sealed a run for is waited for. -/
def rekeyUnit (s : State) (g : Nat) (j : Job) : State × Bool :=
  let n := j.arg 0
  let p := s.rd F.KEY_SLOT_PCURSOR_PCURSOR 0 n
  let e := s.rd F.KEY_SLOT_TCURSOR_TCURSOR 0 n
  let st := s.rd F.KEY_SLOT_STATE_STATE 0 n
  if j.arg 1 ≤ j.pos then s.jobEnd g j resDONE 0
  else if s.on F.GEN_STATUS_FATAL || (s.keySlot n).erasing then (s, false)
  else if st = 0 then
    match s.lostPage j n with
    | some q => s.emptyUse.pageEnds g { j with taken := q + 1 } q psLOST
    | none => s.jobEnd g j resDONE 0
  else if st != 2 then s.jobEnd g j resDONE 0
  else if p < s.secs.pages then (if s.stepHeld g j p then s.stepWaits p else s.rekeyPage g j n p)
  else if s.reserved e then (s, false)
  else (s.rekeyTwin n e (j.master g)).jobNext g { j with pos := j.pos + 1, progress := j.pos + 1 }

/-- R153: RESLOT of the next page. -/
def reslotUnit (s : State) (g : Nat) (j : Job) : State × Bool :=
  match j.pageAt j.pos with
  | none => s.jobEnd g j resDONE 0
  | some p =>
    if s.stepHeld g j p || s.on F.GEN_STATUS_FATAL then s.stepWaits p
    else
      let s := s.pageTouch p (j.master g)
      let x := s.pme p
      let n := s.regionSlot p
      let (asleep, s) := if x.tier = 0 then (false, s)
        else s.stepRouse (if x.tier = 1 then [x.loc * 4096] else (s.runOf p x).mas) []
      if s.imported p then s.pageEnds g j p psWRONGTIER
      else if s.lost p then (s.noteLost p).pageEnds g j p psLOST
      else if x.twin then s.pageEnds g j p psWRONGTIER
      else if x.tier = 0 || x.key = n then s.pageEnds g j p psDONE
      else if !s.keyUp x.key || !s.keyUp n then s.emptyUse.pageEnds g j p psLOST
      else if asleep then (s, false)
      else match s.recode g j p 4 (fun s => s.setPme p { s.pme p with key := n } (j.master g)) with
        | (.wait, j, s) => s.jobWait g j
        | (.noSpace, _, s) => s.pageEnds g j p psNOSPACE
        | (.ended code, j, s) => s.pageEnds g j p code

/-! ### Rows -/

def execDemote (g : Fin 16) (job : Fin 16) (s : State) : Outcome :=
  onDie s (fun s => s.jobRow g job 0x10 1 demoteUnit)

def execDemoteCommit (g : Fin 16) (job : Fin 16) (s : State) : Outcome :=
  onDie s (fun s => s.jobRow g job 0x10 1 demoteCommitUnit)

def execRelocate (g : Fin 16) (job : Fin 16) (s : State) : Outcome :=
  onDie s (fun s => s.jobRow g job 0x11 1 relocateUnit)

def execRelocateCommit (g : Fin 16) (job : Fin 16) (s : State) : Outcome :=
  onDie s (fun s => s.jobRow g job 0x11 1 relocateCommitUnit)

def execPromote (g : Fin 16) (job : Fin 16) (n : BitVec 16) (s : State) : Outcome :=
  onDie s (fun s => s.jobRow g job 0x12 n.toNat promoteUnit)

def execMapScan (g : Fin 16) (job : Fin 16) (n : BitVec 16) (s : State) : Outcome :=
  onDie s (fun s => s.jobRow g job 0x13 n.toNat mapScanUnit)

def execRekey (g : Fin 16) (job : Fin 16) (n : BitVec 16) (s : State) : Outcome :=
  onDie s (fun s => s.jobRow g job 0x14 n.toNat rekeyUnit)

def execReslot (g : Fin 16) (job : Fin 16) (n : BitVec 16) (s : State) : Outcome :=
  onDie s (fun s => s.jobRow g job 0x15 n.toNat reslotUnit)

end Sys2Proof.Machine
end

