-- ==== Sys2Proof/Machine/Dispatch.lean ====
section
/-!
DEFINITION. The one dispatch: every command of the opcode table to its meaning.
-/

namespace Sys2Proof.Machine

def exec (i : Instr) (s : State) : Host.Outcome State Fault Refusal :=
  match i with
  | .registerWrite who off data => Sys2Proof.Machine.execRegisterWrite who off data s
  | .rcRead who off wide => Sys2Proof.Machine.execRcRead who off wide s
  | .halfReadCapture who off => Sys2Proof.Machine.execHalfReadCapture who off s
  | .lowerHalfWrite who off data => Sys2Proof.Machine.execLowerHalfWrite who off data s
  | .upperHalfWrite who off data => Sys2Proof.Machine.execUpperHalfWrite who off data s
  | .supplyLoss => Sys2Proof.Machine.execSupplyLoss s
  | .coldResetRelease => Sys2Proof.Machine.execColdResetRelease s
  | .selfTestDone bad => Sys2Proof.Machine.execSelfTestDone bad s
  | .perstLFall station => Sys2Proof.Machine.execPerstLFall station s
  | .perstLRise station => Sys2Proof.Machine.execPerstLRise station s
  | .genRst who v => Sys2Proof.Machine.execGenRst who v s
  | .mapInitDone => Sys2Proof.Machine.execMapInitDone s
  | .strLoadStart who input => Sys2Proof.Machine.execStrLoadStart who input s
  | .strLoadContinue who input => Sys2Proof.Machine.execStrLoadContinue who input s
  | .strLoadEnd who input => Sys2Proof.Machine.execStrLoadEnd who input s
  | .strLoadAbandon who input => Sys2Proof.Machine.execStrLoadAbandon who input s
  | .imageCommit => Sys2Proof.Machine.execImageCommit s
  | .quiesceTimeout => Sys2Proof.Machine.execQuiesceTimeout s
  | .ldHoldRelease => Sys2Proof.Machine.execLdHoldRelease s
  | .imagePersistDone ok => Sys2Proof.Machine.execImagePersistDone ok s
  | .strMinseqWrite who v => Sys2Proof.Machine.execStrMinseqWrite who v s
  | .tallyAcquire why => Sys2Proof.Machine.execTallyAcquire why s
  | .tallyFrame f => Sys2Proof.Machine.execTallyFrame f s
  | .stSlewDone => Sys2Proof.Machine.execStSlewDone s
  | .holdover => Sys2Proof.Machine.execHoldover s
  | .timStLoad who v => Sys2Proof.Machine.execTimStLoad who v s
  | .nop c => Sys2Proof.Machine.execNop c s
  | .inrushGrant c => Sys2Proof.Machine.execInrushGrant c s
  | .floorCap c => Sys2Proof.Machine.execFloorCap c s
  | .snapshot c => Sys2Proof.Machine.execSnapshot c s
  | .window c => Sys2Proof.Machine.execWindow c s
  | .delay c => Sys2Proof.Machine.execDelay c s
  | .tallyRefusedOpcode op c => Sys2Proof.Machine.execTallyRefusedOpcode op c s
  | .calendarFire readings => Sys2Proof.Machine.execCalendarFire readings s
  | .calendarWindowClose n => Sys2Proof.Machine.execCalendarWindowClose n s
  | .portLinkUp port rate width l0p => Sys2Proof.Machine.execPortLinkUp port rate width l0p s
  | .portLinkDown port => Sys2Proof.Machine.execPortLinkDown port s
  | .m2sMemrd ld tag hpa snp mv => Sys2Proof.Machine.execM2sMemrd ld tag hpa snp mv s
  | .m2sMemrddata ld tag hpa => Sys2Proof.Machine.execM2sMemrddata ld tag hpa s
  | .m2sMeminv ld tag hpa snp mv => Sys2Proof.Machine.execM2sMeminv ld tag hpa snp mv s
  | .m2sMemwr ld tag hpa mv data poison => Sys2Proof.Machine.execM2sMemwr ld tag hpa mv data poison s
  | .m2sMemwrptl ld tag hpa mv data mask poison => Sys2Proof.Machine.execM2sMemwrptl ld tag hpa mv data mask poison s
  | .m2sMemclnevct ld tag hpa mv => Sys2Proof.Machine.execM2sMemclnevct ld tag hpa mv s
  | .m2sMemspecrd ld hpa => Sys2Proof.Machine.execM2sMemspecrd ld hpa s
  | .m2sOther ld opcode => Sys2Proof.Machine.execM2sOther ld opcode s
  | .birsp ld slot line ans => Sys2Proof.Machine.execBirsp ld slot line ans s
  | .biconflict ld slot line => Sys2Proof.Machine.execBiconflict ld slot line s
  | .dcAddExtent who ld start len => Sys2Proof.Machine.execDcAddExtent who ld start len s
  | .dcReleaseExtent who ld start len => Sys2Proof.Machine.execDcReleaseExtent who ld start len s
  | .dcReleaseDone ld => Sys2Proof.Machine.execDcReleaseDone ld s
  | .flr ld => Sys2Proof.Machine.execFlr ld s
  | .cxlReset ld clear => Sys2Proof.Machine.execCxlReset ld clear s
  | .ideKm port t km => Sys2Proof.Machine.execIdeKm port t km s
  | .ideIntegrityFail port => Sys2Proof.Machine.execIdeIntegrityFail port s
  | .laneFail port lane => Sys2Proof.Machine.execLaneFail port lane s
  | .laneRecoveryDone port => Sys2Proof.Machine.execLaneRecoveryDone port s
  | .ltrReceived port ldid snoop noSnoop => Sys2Proof.Machine.execLtrReceived port ldid snoop noSnoop s
  | .prtLdOvrWrite who port k v => Sys2Proof.Machine.execPrtLdOvrWrite who port k v s
  | .qportStallExpire q from_ tag => Sys2Proof.Machine.execQportStallExpire q from_ tag s
  | .maprd home tt => Sys2Proof.Machine.execMaprd home tt s
  | .mapwr page pme => Sys2Proof.Machine.execMapwr page pme s
  | .mapline twin m ok => Sys2Proof.Machine.execMapline twin m ok s
  | .mapFlush who v => Sys2Proof.Machine.execMapFlush who v s
  | .ageSweep who v => Sys2Proof.Machine.execAgeSweep who v s
  | .ageSweepDone => Sys2Proof.Machine.execAgeSweepDone s
  | .promotionDone page => Sys2Proof.Machine.execPromotionDone page s
  | .heldWriteResume => Sys2Proof.Machine.execHeldWriteResume s
  | .holdExpire home tt => Sys2Proof.Machine.execHoldExpire home tt s
  | .hallGrantTick => Sys2Proof.Machine.execHallGrantTick s
  | .poolLowTick k => Sys2Proof.Machine.execPoolLowTick k s
  | .chunkZeroDone chunk => Sys2Proof.Machine.execChunkZeroDone chunk s
  | .pmeRead who age => Sys2Proof.Machine.execPmeRead who age s
  | .pmeSetPin who age => Sys2Proof.Machine.execPmeSetPin who age s
  | .pmeClearPin who age => Sys2Proof.Machine.execPmeClearPin who age s
  | .pmeSetPoison who age => Sys2Proof.Machine.execPmeSetPoison who age s
  | .pmeWriteAge who age => Sys2Proof.Machine.execPmeWriteAge who age s
  | .twinCfgWrite who v => Sys2Proof.Machine.execTwinCfgWrite who v s
  | .blk g page block granules => Sys2Proof.Machine.execBlk g page block granules s
  | .keyLoad t session req => Sys2Proof.Machine.execKeyLoad t session req s
  | .keyRetire t session req => Sys2Proof.Machine.execKeyRetire t session req s
  | .keyErase t session req => Sys2Proof.Machine.execKeyErase t session req s
  | .keyEraseDone slot => Sys2Proof.Machine.execKeyEraseDone slot s
  | .regionEnable who n v => Sys2Proof.Machine.execRegionEnable who n v s
  | .rds m => Sys2Proof.Machine.execRds m s
  | .rdo m => Sys2Proof.Machine.execRdo m s
  | .upg m => Sys2Proof.Machine.execUpg m s
  | .wbd m => Sys2Proof.Machine.execWbd m s
  | .evc m => Sys2Proof.Machine.execEvc m s
  | .rdnc m => Sys2Proof.Machine.execRdnc m s
  | .wayEligible home set => Sys2Proof.Machine.execWayEligible home set s
  | .snps agent m => Sys2Proof.Machine.execSnps agent m s
  | .snpi agent m => Sys2Proof.Machine.execSnpi agent m s
  | .snpf agent m => Sys2Proof.Machine.execSnpf agent m s
  | .rspi m => Sys2Proof.Machine.execRspi m s
  | .rsps m => Sys2Proof.Machine.execRsps m s
  | .rspf m => Sys2Proof.Machine.execRspf m s
  | .rspx m => Sys2Proof.Machine.execRspx m s
  | .datam d => Sys2Proof.Machine.execDatam d s
  | .memoryData home tt => Sys2Proof.Machine.execMemoryData home tt s
  | .wdone home tt => Sys2Proof.Machine.execWdone home tt s
  | .lockTimeout home tt => Sys2Proof.Machine.execLockTimeout home tt s
  | .data agent m => Sys2Proof.Machine.execData agent m s
  | .datae agent m => Sys2Proof.Machine.execDatae agent m s
  | .cmp agent m => Sys2Proof.Machine.execCmp agent m s
  | .cmpe agent m => Sys2Proof.Machine.execCmpe agent m s
  | .ack agent m => Sys2Proof.Machine.execAck agent m s
  | .load agent m => Sys2Proof.Machine.execLoad agent m s
  | .store agent m => Sys2Proof.Machine.execStore agent m s
  | .evict agent m => Sys2Proof.Machine.execEvict agent m s
  | .dirRead who home v => Sys2Proof.Machine.execDirRead who home v s
  | .nack router link p e => Sys2Proof.Machine.execNack router link p e s
  | .nocLinkFail router link => Sys2Proof.Machine.execNocLinkFail router link s
  | .detour l p => Sys2Proof.Machine.execDetour l p s
  | .misrouteSink router hdr parity p => Sys2Proof.Machine.execMisrouteSink router hdr parity p s
  | .err p => Sys2Proof.Machine.execErr p s
  | .epochFlip who v => Sys2Proof.Machine.execEpochFlip who v s
  | .epochDrainDone => Sys2Proof.Machine.execEpochDrainDone s
  | .epochDrainTimeout => Sys2Proof.Machine.execEpochDrainTimeout s
  | .epochForce who v => Sys2Proof.Machine.execEpochForce who v s
  | .fenceRequest who d v => Sys2Proof.Machine.execFenceRequest who d v s
  | .fenceCancel who d v => Sys2Proof.Machine.execFenceCancel who d v s
  | .fenceAck d => Sys2Proof.Machine.execFenceAck d s
  | .fencedArrival p => Sys2Proof.Machine.execFencedArrival p s
  | .domainOn d => Sys2Proof.Machine.execDomainOn d s
  | .flitReceive link bytes => Sys2Proof.Machine.execFlitReceive link bytes s
  | .creditReportMissing link => Sys2Proof.Machine.execCreditReportMissing link s
  | .faultRetrain link lock => Sys2Proof.Machine.execFaultRetrain link lock s
  | .cwkLaneFail link lane => Sys2Proof.Machine.execCwkLaneFail link lane s
  | .replayReq link seq => Sys2Proof.Machine.execReplayReq link seq s
  | .retrainReq link target => Sys2Proof.Machine.execRetrainReq link target s
  | .retrainAck link target => Sys2Proof.Machine.execRetrainAck link target s
  | .wakeTol link own peers => Sys2Proof.Machine.execWakeTol link own peers s
  | .time link st => Sys2Proof.Machine.execTime link st s
  | .wakeTolAgeExpire link => Sys2Proof.Machine.execWakeTolAgeExpire link s
  | .hello link payload => Sys2Proof.Machine.execHello link payload s
  | .helloTimer link => Sys2Proof.Machine.execHelloTimer link s
  | .exclude link sslot => Sys2Proof.Machine.execExclude link sslot s
  | .pathloss link src dst => Sys2Proof.Machine.execPathloss link src dst s
  | .fwmsg link sslot payload => Sys2Proof.Machine.execFwmsg link sslot payload s
  | .catwalkPacket link p => Sys2Proof.Machine.execCatwalkPacket link p s
  | .cwkLinkDetect link lower upper => Sys2Proof.Machine.execCwkLinkDetect link lower upper s
  | .cwkTrained link width rate latNs => Sys2Proof.Machine.execCwkTrained link width rate latNs s
  | .cwkTrainTimeout link => Sys2Proof.Machine.execCwkTrainTimeout link s
  | .cwkInitTimeout link => Sys2Proof.Machine.execCwkInitTimeout link s
  | .plannedRetrain who link v => Sys2Proof.Machine.execPlannedRetrain who link v s
  | .retrainDone link e => Sys2Proof.Machine.execRetrainDone link e s
  | .retrainTimeout link => Sys2Proof.Machine.execRetrainTimeout link s
  | .exclusionSweepDone t => Sys2Proof.Machine.execExclusionSweepDone t s
  | .readmit t => Sys2Proof.Machine.execReadmit t s
  | .smapEnable who n v => Sys2Proof.Machine.execSmapEnable who n v s
  | .smapDisable who n v => Sys2Proof.Machine.execSmapDisable who n v s
  | .channelAdmit c write => Sys2Proof.Machine.execChannelAdmit c write s
  | .dramCommandIssue c sub banks ranks => Sys2Proof.Machine.execDramCommandIssue c sub banks ranks s
  | .dramReadData c sub raw again => Sys2Proof.Machine.execDramReadData c sub raw again s
  | .panicExpire c => Sys2Proof.Machine.execPanicExpire c s
  | .powerDownEntry c r => Sys2Proof.Machine.execPowerDownEntry c r s
  | .parkStart c r => Sys2Proof.Machine.execParkStart c r s
  | .parkDone c r => Sys2Proof.Machine.execParkDone c r s
  | .rankPark who c r v => Sys2Proof.Machine.execRankPark who c r v s
  | .rankWake who c r v => Sys2Proof.Machine.execRankWake who c r v s
  | .wakeDone c r ns hot => Sys2Proof.Machine.execWakeDone c r ns hot s
  | .refreshCheck c r => Sys2Proof.Machine.execRefreshCheck c r s
  | .refreshDue c r => Sys2Proof.Machine.execRefreshDue c r s
  | .phaseStaleRead c x => Sys2Proof.Machine.execPhaseStaleRead c x s
  | .channelTrainDone c t x => Sys2Proof.Machine.execChannelTrainDone c t x s
  | .retrack c r => Sys2Proof.Machine.execRetrack c r s
  | .pmicFault c d => Sys2Proof.Machine.execPmicFault c d s
  | .ceLeak c r => Sys2Proof.Machine.execCeLeak c r s
  | .scrubStep c => Sys2Proof.Machine.execScrubStep c s
  | .scrubWindowStep c => Sys2Proof.Machine.execScrubWindowStep c s
  | .scrubForce c r => Sys2Proof.Machine.execScrubForce c r s
  | .remapInstall who c k v => Sys2Proof.Machine.execRemapInstall who c k v s
  | .remapInstallDone c k => Sys2Proof.Machine.execRemapInstallDone c k s
  | .remapRetire who c k v => Sys2Proof.Machine.execRemapRetire who c k v s
  | .pprSoft who c => Sys2Proof.Machine.execPprSoft who c s
  | .pprHard who c => Sys2Proof.Machine.execPprHard who c s
  | .pprDone c result => Sys2Proof.Machine.execPprDone c result s
  | .push q from_ item => Sys2Proof.Machine.execPush q from_ item s
  | .pushSop q who item => Sys2Proof.Machine.execPushSop q who item s
  | .pushMid q who item => Sys2Proof.Machine.execPushMid q who item s
  | .pushEop q who item => Sys2Proof.Machine.execPushEop q who item s
  | .pop q from_ size tag => Sys2Proof.Machine.execPop q from_ size tag s
  | .release q from_ n => Sys2Proof.Machine.execRelease q from_ n s
  | .mark q from_ => Sys2Proof.Machine.execMark q from_ s
  | .rewind q from_ => Sys2Proof.Machine.execRewind q from_ s
  | .gapTruncate q => Sys2Proof.Machine.execGapTruncate q s
  | .qreset q => Sys2Proof.Machine.execQreset q s
  | .queueEnable q who v => Sys2Proof.Machine.execQueueEnable q who v s
  | .queueDisable q who v => Sys2Proof.Machine.execQueueDisable q who v s
  | .jobQueueBind who g k v => Sys2Proof.Machine.execJobQueueBind who g k v s
  | .jobQueueUnbind who g k v => Sys2Proof.Machine.execJobQueueUnbind who g k v s
  | .galFlush who g v => Sys2Proof.Machine.execGalFlush who g v s
  | .descriptorFetch g => Sys2Proof.Machine.execDescriptorFetch g s
  | .copy g job n => Sys2Proof.Machine.execCopy g job n s
  | .fill g job n => Sys2Proof.Machine.execFill g job n s
  | .zdetect g job n => Sys2Proof.Machine.execZdetect g job n s
  | .crc g job n => Sys2Proof.Machine.execCrc g job n s
  | .scan g job n => Sys2Proof.Machine.execScan g job n s
  | .touch g job n => Sys2Proof.Machine.execTouch g job n s
  | .twinhash g job n => Sys2Proof.Machine.execTwinhash g job n s
  | .encode g job n => Sys2Proof.Machine.execEncode g job n s
  | .decode g job n => Sys2Proof.Machine.execDecode g job n s
  | .aesEnc g job n => Sys2Proof.Machine.execAesEnc g job n s
  | .aesDec g job n => Sys2Proof.Machine.execAesDec g job n s
  | .demote g job => Sys2Proof.Machine.execDemote g job s
  | .demoteCommit g job => Sys2Proof.Machine.execDemoteCommit g job s
  | .relocate g job => Sys2Proof.Machine.execRelocate g job s
  | .relocateCommit g job => Sys2Proof.Machine.execRelocateCommit g job s
  | .promote g job n => Sys2Proof.Machine.execPromote g job n s
  | .mapScan g job n => Sys2Proof.Machine.execMapScan g job n s
  | .rekey g job n => Sys2Proof.Machine.execRekey g job n s
  | .reslot g job n => Sys2Proof.Machine.execReslot g job n s
  | .jobCommit g job => Sys2Proof.Machine.execJobCommit g job s
  | .abort who q id => Sys2Proof.Machine.execAbort who q id s
  | .cntSelWrite who u k v => Sys2Proof.Machine.execCntSelWrite who u k v s
  | .cntPerWrite who u k v => Sys2Proof.Machine.execCntPerWrite who u k v s
  | .snapNow who => Sys2Proof.Machine.execSnapNow who s
  | .smpFlush who v => Sys2Proof.Machine.execSmpFlush who v s
  | .sampleWriteDone => Sys2Proof.Machine.execSampleWriteDone s
  | .sampleRingEnable who v => Sys2Proof.Machine.execSampleRingEnable who v s
  | .sampleRingDisable who v => Sys2Proof.Machine.execSampleRingDisable who v s
  | .rptrWrite who v => Sys2Proof.Machine.execRptrWrite who v s
  | .floorDwellExpire d => Sys2Proof.Machine.execFloorDwellExpire d s
  | .coreWfi core => Sys2Proof.Machine.execCoreWfi core s
  | .coreSleepTimeout core => Sys2Proof.Machine.execCoreSleepTimeout core s
  | .presenceLow slot auto => Sys2Proof.Machine.execPresenceLow slot auto s
  | .qualifyDone diode ta => Sys2Proof.Machine.execQualifyDone diode ta s
  | .presenceHigh => Sys2Proof.Machine.execPresenceHigh s
  | .guardEnChange level rested => Sys2Proof.Machine.execGuardEnChange level rested s
  | .bankEnWrite who bank v rested => Sys2Proof.Machine.execBankEnWrite who bank v rested s
  | .inletRampStart => Sys2Proof.Machine.execInletRampStart s
  | .autoRamp c => Sys2Proof.Machine.execAutoRamp c s
  | .rampDone c => Sys2Proof.Machine.execRampDone c s
  | .rampFault c => Sys2Proof.Machine.execRampFault c s
  | .currentLimit c => Sys2Proof.Machine.execCurrentLimit c s
  | .limitExit c => Sys2Proof.Machine.execLimitExit c s
  | .faultTimeExpire c => Sys2Proof.Machine.execFaultTimeExpire c s
  | .faultTimerClear c => Sys2Proof.Machine.execFaultTimerClear c s
  | .fastTrip c => Sys2Proof.Machine.execFastTrip c s
  | .fetOvertemp c => Sys2Proof.Machine.execFetOvertemp c s
  | .thermalModelUpdate iout vin vout ta => Sys2Proof.Machine.execThermalModelUpdate iout vin vout ta s
  | .standbyLoss => Sys2Proof.Machine.execStandbyLoss s
  | .standbyRise slot auto retained => Sys2Proof.Machine.execStandbyRise slot auto retained s
  | .coreRun who v => Sys2Proof.Machine.execCoreRun who v s
  | .getFwInfo who => Sys2Proof.Machine.execGetFwInfo who s
  | .transferFw who slotB image => Sys2Proof.Machine.execTransferFw who slotB image s
  | .activateFwOffline who slotB => Sys2Proof.Machine.execActivateFwOffline who slotB s
  | .activateFwOnline who slotB => Sys2Proof.Machine.execActivateFwOnline who slotB s
  | .activationDone => Sys2Proof.Machine.execActivationDone s
  | .kick who => Sys2Proof.Machine.execKick who s
  | .watchdogExpire => Sys2Proof.Machine.execWatchdogExpire s
  | .thermalShutdown => Sys2Proof.Machine.execThermalShutdown s
  | .lastThermtripClear who => Sys2Proof.Machine.execLastThermtripClear who s
  | .fwcMinseqWrite who v => Sys2Proof.Machine.execFwcMinseqWrite who v s
  | .identify who input => Sys2Proof.Machine.execIdentify who input s
  | .strInfo who input => Sys2Proof.Machine.execStrInfo who input s
  | .rasRead who input => Sys2Proof.Machine.execRasRead who input s
  | .calInfo who input => Sys2Proof.Machine.execCalInfo who input s
  | .calExport who input => Sys2Proof.Machine.execCalExport who input s
  | .calWriteStart who input => Sys2Proof.Machine.execCalWriteStart who input s
  | .calWriteContinue who input => Sys2Proof.Machine.execCalWriteContinue who input s
  | .calWriteEnd who input nvsOk => Sys2Proof.Machine.execCalWriteEnd who input nvsOk s
  | .calWriteAbandon who input => Sys2Proof.Machine.execCalWriteAbandon who input s
  | .vendorUnsupported who opcode input => Sys2Proof.Machine.execVendorUnsupported who opcode input s
  | .transferIdleTimeout => Sys2Proof.Machine.execTransferIdleTimeout s
  | .setOwner t session req nvsOk => Sys2Proof.Machine.execSetOwner t session req nvsOk s
  | .seal t session req nvsOk => Sys2Proof.Machine.execSeal t session req nvsOk s
  | .lcReturn t session req nvsOk => Sys2Proof.Machine.execLcReturn t session req nvsOk s
  | .bind t session req => Sys2Proof.Machine.execBind t session req s
  | .unbind t session req => Sys2Proof.Machine.execUnbind t session req s
  | .idcode => Sys2Proof.Machine.execIdcode s
  | .samplePreload => Sys2Proof.Machine.execSamplePreload s
  | .extest v => Sys2Proof.Machine.execExtest v s
  | .nonce => Sys2Proof.Machine.execNonce s
  | .token bytes => Sys2Proof.Machine.execToken bytes s
  | .dbgstat => Sys2Proof.Machine.execDbgstat s
  | .bar0 dr => Sys2Proof.Machine.execBar0 dr s
  | .dtm v => Sys2Proof.Machine.execDtm v s
  | .scanChains v => Sys2Proof.Machine.execScanChains v s
  | .bypass ir => Sys2Proof.Machine.execBypass ir s
  | .tapReset => Sys2Proof.Machine.execTapReset s
  | .close who => Sys2Proof.Machine.execClose who s
  | .hashAddrSet who => Sys2Proof.Machine.execHashAddrSet who s
  | .getVersion t => Sys2Proof.Machine.execGetVersion t s
  | .getCapabilities t => Sys2Proof.Machine.execGetCapabilities t s
  | .negotiateAlgorithms t => Sys2Proof.Machine.execNegotiateAlgorithms t s
  | .getDigests t => Sys2Proof.Machine.execGetDigests t s
  | .getCertificate t off len => Sys2Proof.Machine.execGetCertificate t off len s
  | .challenge t nonce => Sys2Proof.Machine.execChallenge t nonce s
  | .getMeasurements t index => Sys2Proof.Machine.execGetMeasurements t index s
  | .keyExchange t session leafKey => Sys2Proof.Machine.execKeyExchange t session leafKey s
  | .finish t session verified => Sys2Proof.Machine.execFinish t session verified s
  | .keyUpdate t session => Sys2Proof.Machine.execKeyUpdate t session s
  | .heartbeat t session => Sys2Proof.Machine.execHeartbeat t session s
  | .endSession t session => Sys2Proof.Machine.execEndSession t session s
  | .spdmUnsupported t code => Sys2Proof.Machine.execSpdmUnsupported t code s
  | .sramError hard site word => Sys2Proof.Machine.execSramError hard site word s
  | .decodeTimeout home tt => Sys2Proof.Machine.execDecodeTimeout home tt s
  | .configurationSpaceWrite ld w => Sys2Proof.Machine.execConfigurationSpaceWrite ld w s
  | .aspmL1Entry port ok => Sys2Proof.Machine.execAspmL1Entry port ok s
  | .aspmL1Exit port => Sys2Proof.Machine.execAspmL1Exit port s
  | .inletDieOvertemp => Sys2Proof.Machine.execInletDieOvertemp s
  | .clearEventRecords ld log handles => Sys2Proof.Machine.execClearEventRecords ld log handles s

end Sys2Proof.Machine
end

