-- ==== Sys2Proof/Machine/Idle.lean ====
section
/-!
DEFINITION. What the block does when no command waits (log entry 1, DESIGN CHOICE): what it has in hand ends, and one CCLK passes.
-/

namespace Sys2Proof.Machine

/-- What a CCLK brings to a running block: every output port of the torus passes a packet (R194), and every link sends what is
due (R222, R226). -/
def State.flows (s : State) : State := s.torus.forEach (List.range 8) State.linkTick

/-- The end of an NVS overwrite (R376), of a CXL Reset (R71), steps 3 to 5 of a RETURN (Table 17-4), and one CCLK. -/
def State.idle (s : State) : State := if s.stage = .running then s.calWritten.resetsGo.returnEnd.tick.flows else s.tick

/-- The queue with a command put at its front. -/
def State.pushFront (s : State) (c : Instr) : State := { s with pending := c :: s.pending }

end Sys2Proof.Machine
end

