-- ==== Sys2Proof/Safety.lean ====
section
/-!
DEFINITION. The terms in which the statements speak: when a sparse map and the memory are in canonical form, that a
command answers a next state with a property, and when a register access is let through.
-/

namespace Sys2Proof.Machine

/-- A sparse map is in canonical form: its keys strictly rise, and it lists no entry equal to what an unlisted key
holds. -/
def smWf {α : Type} [DecidableEq α] (d : Nat → α) (m : SMap α) : Bool := smSorted m && m.all (fun x => x.2 != d x.1)

/-- The command answers a next state, and that state has property `P`. -/
def Does (c : Instr) (s : State) (P : State → Prop) : Prop := ∃ t, exec c s = .next t ∧ P t

/-- The die runs, no debug session's end waits to be recorded (R390), and Table 17-5 permits the access. -/
def Permitted (s : State) (who : Initiator) (off : Nat) (write : Bool) : Prop :=
  s.stage = .running ∧ s.sec.endLater = false ∧ s.may who off write = true

/-- The parts of the block that hold memory and its map, coherence, keys and the nonvolatile store are unchanged. -/
def SameStore (s t : State) : Prop :=
  t.mem = s.mem ∧ t.map = s.map ∧ t.coh = s.coh ∧ t.keys = s.keys ∧ t.nvs = s.nvs ∧ t.flash = s.flash

/-- What every step keeps: the stored bytes of DRAM are in their one canonical form (log entry 8, DESIGN CHOICE). -/
def Inv (s : State) : Prop := Memory.wf s.mem = true

/-- The fields of the register at `off` written by their access types (Table 0-5), the initiator's halves dropped. -/
def State.written (s : State) (who : Initiator) (off v : Nat) : State := (s.dropHalves who off).writeWord who off v

/-- R60, R63, R160: an M2S request that its port sends on at once: the link is up and secure, the LD is enabled and not
held, its address decodes, nothing of the LD is in its way, and internal tag `tg` is the first free one. -/
def PortTakes (s : State) (r : M2S) (e : LdEntry) (slot line tg : Nat) : Prop :=
  s.stage = .running ∧ s.secs.ldEntry r.ld = some e ∧ s.on F.PRT_LINK_UP e.port = true ∧
  s.insecure.contains e.port = false ∧ (s.ld r.ld).memEnable = true ∧ s.str.ldHold.contains r.ld.val = false ∧
  s.m2s.any (fun x => x.ld == r.ld && x.hpa.toNat / 64 == r.hpa.toNat / 64) = false ∧
  s.hpaLine e r.hpa.toNat = some (slot, line) ∧ (∀ b ∈ (s.ld r.ld).bisnp, ¬(b.line = line ∧ b.home = slot)) ∧
  (∀ x ∈ s.reqs, ¬(x.ld = r.ld.val ∧ x.slot = slot ∧ x.line = line)) ∧ s.freeTag r.ld = some tg

/-- The command that brings an M2S request to its port: one for each opcode of Table 3-2 that has an internal request. -/
def m2sCommands (r : M2S) : List Instr :=
  match r.op with
  | .memRd => [.m2sMemrd r.ld r.tag r.hpa r.snp r.mv]
  | .memRdData => [.m2sMemrddata r.ld r.tag r.hpa]
  | .memInv => [.m2sMeminv r.ld r.tag r.hpa r.snp r.mv]
  | .memWr => [.m2sMemwr r.ld r.tag r.hpa r.mv r.data r.poison]
  | .memWrPtl => [.m2sMemwrptl r.ld r.tag r.hpa r.mv r.data r.mask r.poison]
  | .memClnEvct => [.m2sMemclnevct r.ld r.tag r.hpa r.mv]

/-- R195: the message has crossed the torus to its destination's boundary, and `w` is the state once it has been taken off. -/
def Brought (s : State) (f : Flight) (w : State) : Prop := (s.bring f).1 = true ∧ w = (s.bring f).2.landed f

/-- R158: a request whose home, of this member, accepts it, and that has reached it; taken off the torus it finds the home's
domain open and no transaction on its line open or queued, no BIConflict waits for it, and `e` is the first free TT entry. -/
def HomeFree (s w : State) (opc : Nat) (m : CohMsg) (e : Nat) : Prop :=
  let h := homeOf m.line.toNat
  s.stage = .running ∧ s.homeAccepts h = true ∧ Brought s ⟨opc, .home, m⟩ w ∧ w.domHolds h 0 = false ∧
  m.src.toNat < 96 ∧ m.slot.toNat = s.slot ∧ w.lineBusy m.line.toNat = false ∧
  (w.home h).confq.any (fun x => x.msg.line == m.line) = false ∧ w.freeTT h 0 240 = some e ∧
  (m.src.toNat < 64 → (w.ld m.src.toNat).conflicts.contains (m.slot.toNat, m.line.toNat) = false)

/-- R201, R202: an ERR is owed to the source of packet `f`, and it has crossed the torus back to it, or has no way to cross; `w` is
the state once it is taken off. -/
def ErrBack (s : State) (f : Flight) (w : State) : Prop :=
  s.noc.errs.contains f = true ∧
    match s.noc.pkts.find? (fun q => q.flight.opc == opERR && q.flight.msg == errMsg f) with
    | none => w = s
    | some q => (s.bring q.flight).1 = true ∧ w = (s.bring q.flight).2.dropPkt q.flight

/-- R90, R208: the lookup of request `r` has reached its map slice, whose domain is not fenced and, from another home, not
draining; `w` is the state once its message, where it has one, is taken off the torus. -/
def AtSlice (s : State) (r : MapReq) (w : State) : Prop :=
  let sl := pageSlice (r.line / 64)
  if r.far then
    s.sliceBusy r = false ∧ (s.dom sl).held.any (fun x => x.2 == mapFlight r) = false ∧ Brought s (mapFlight r) w ∧
      w.domHolds sl 0 = false
  else w = s ∧ s.domDown sl = false

/-- Nothing waits on queue `q`, and no read of a queue stalls. -/
def QueueQuiet (s : State) (q : Nat) : Prop := s.stalled = [] ∧ (s.queue q).stall = []

/-- R305: the i-th job of gallery `g` runs, is of operation `op`, and has no list items to push; unless it waits for the
acceptance of a write, its gallery is not suspect and no abort of it is open: its next unit may be handled. -/
def JobReady (s : State) (g i op : Nat) (j : Job) : Prop :=
  s.stage = .running ∧ (s.gal g).jobs[i]? = some j ∧ s.jobBySeq g j.seq = some j ∧ j.op = op ∧ j.st = .running ∧
  j.list = [] ∧ (j.wrote = none → s.suspect g = false ∧ (s.gal g).aborts.contains (j.dq, j.seq) = false)

/-- R372, R366: the vendor mailbox serves a command of this length from this function now. -/
def Served (s : State) (who : Initiator) (rom : Bool) (input : Bytes) : Prop :=
  s.stage = .running ∧ hasSpdm who = true ∧ (s.on F.FWC_STATUS_MONITOR = false ∨ rom = true) ∧ input.length ≤ 65536

end Sys2Proof.Machine
end

