-- ==== Sys2Proof/Certificates/Slice0/Obligations.lean ====
section
/-!
DEFINITION. The statements for the provers.
-/

open Sys2Proof Sys2Proof.Machine

/-- A step runs the command at the front of the queue on the rest of the state. Rests on ISA_SPEC.md, opcode table.
Where a clause touches them, these are the model's choices and no rule: log entry 1, DESIGN CHOICE. -/
def Obligations.StepRunsTheFrontCommand : Prop :=
  ∀ (c : Instr) (rest : List Instr) (s : State),
    step { s with pending := c :: rest } = exec c { s with pending := rest }

/-- No command faults or is refused: every command answers a next state in every state. Rests on R3, R386, R430. Where
a clause touches them, these are the model's choices and no rule: log entry 11, DESIGN CHOICE. -/
def Obligations.EveryCommandAnswers : Prop :=
  ∀ (c : Instr) (s : State), ∃ t, exec c s = .next t

/-- No command changes the queue of waiting commands. Rests on ISA_SPEC.md, opcode table. Where a clause touches them,
these are the model's choices and no rule: log entry 11, DESIGN CHOICE. -/
def Obligations.CommandsLeaveTheQueue : Prop :=
  ∀ (c : Instr) (s t : State), exec c s = .next t → t.pending = s.pending

/-- The memory of the state after reset is in canonical form. Rests on R280. Where a clause touches them, these are
the model's choices and no rule: log entry 8, DESIGN CHOICE. -/
def Obligations.ResetMeetsInvariant : Prop :=
  Inv State.reset

/-- Every step keeps the stored bytes of DRAM in canonical form. Rests on R273, R280. Where a clause touches them,
these are the model's choices and no rule: log entry 1, DESIGN CHOICE, log entry 8, DESIGN CHOICE. -/
def Obligations.StepKeepsInvariant : Prop :=
  ∀ s t : State, Inv s → step s = .next t → Inv t

/-- A forbidden register write has no effect but the violation it counts. Rests on R386, R385. Where a clause touches
them, these are the model's choices and no rule: log entry 93, DESIGN CHOICE. -/
def Obligations.ForbiddenWriteIsOnlyCounted : Prop :=
  ∀ (who : Initiator) (off : BitVec 26) (data : BitVec 64) (s : State),
    s.stage = .running → s.sec.endLater = false → window off.toNat = none → off.toNat % 8 = 0 →
    s.may who off.toNat true = false →
    Does (.registerWrite who off data) s (fun t =>
      t.rd F.SEC_VIOL_COUNT 0 (initNum who) =
        min (s.rd F.SEC_VIOL_COUNT 0 (initNum who) + 1) (2 ^ F.SEC_VIOL_COUNT.width - 1) ∧
      t.rd F.SEC_VIOL_LAST_OFFSET = off.toNat ∧ t.rd F.SEC_VIOL_LAST_INITIATOR = initNum who ∧
      t.rd F.SEC_VIOL_LAST_WRITE = 1 ∧ t.rd F.SEC_IRQ_VIOL = 1 ∧
      (∀ f i j, f.key i j ≠ F.SEC_VIOL_COUNT.key 0 (initNum who) → f.key i j ≠ F.SEC_VIOL_LAST_OFFSET.key 0 0 →
        f.key i j ≠ F.SEC_VIOL_LAST_INITIATOR.key 0 0 → f.key i j ≠ F.SEC_VIOL_LAST_WRITE.key 0 0 →
        f.key i j ≠ F.SEC_IRQ_VIOL.key 0 0 → t.rd f i j = s.rd f i j) ∧
      SameStore s t ∧ t.out = s.out)

/-- SEC_VIOLn and SEC_VIOL_LAST are readable only by the security owner. Formalises R387. -/
def Obligations.ViolationRegistersHidden : Prop :=
  ∀ (who : Initiator) (off : BitVec 26) (s : State),
    s.stage = .running → s.sec.endLater = false → isViolReg off.toNat = true → off.toNat % 8 = 0 →
    (s.isOwner who = false →
      Does (.rcRead who off true) s (fun t =>
        t.out = s.out ++ [.bar0 who off.toNat 0] ∧
        t.rd F.SEC_VIOL_COUNT 0 (initNum who) =
          min (s.rd F.SEC_VIOL_COUNT 0 (initNum who) + 1) (2 ^ F.SEC_VIOL_COUNT.width - 1) ∧
        t.rd F.SEC_VIOL_LAST_OFFSET = off.toNat ∧ t.rd F.SEC_VIOL_LAST_INITIATOR = initNum who ∧
        t.rd F.SEC_VIOL_LAST_WRITE = 0 ∧ t.rd F.SEC_IRQ_VIOL = 1)) ∧
    (s.isOwner who = true → who ≠ .dbg →
      Does (.rcRead who off true) s (fun t => t.out = s.out ++ [.bar0 who off.toNat (s.readWord off.toNat)]))

/-- Whole and half accesses to registers: access types, RC fields, captures and staged halves. Rests on R4, R431,
R432, R433. Where a clause touches them, these are the model's choices and no rule: log entry 88, DESIGN CHOICE, log
entry 93, DESIGN CHOICE. -/
def Obligations.RegisterAccesses : Prop :=
  (∀ (who : Initiator) (data : BitVec 64) (s : State), Permitted s who 0xE00000 true →
    Does (.registerWrite who 0xE00000 data) s (fun t =>
      t.rd F.KEY_CTL_SLOT0_CONCEAL =
        (if s.rd F.KEY_CTL_LOCK = 0 then data.toNat / 2 % 2 else s.rd F.KEY_CTL_SLOT0_CONCEAL) ∧
      (data.toNat % 2 = 1 → s.rd F.KEY_CTL_LOCK ≤ 1 → t.rd F.KEY_CTL_LOCK = 1) ∧
      (data.toNat % 2 = 0 → s.rd F.KEY_CTL_LOCK ≤ 1 → t.rd F.KEY_CTL_LOCK = s.rd F.KEY_CTL_LOCK))) ∧
  (∀ (who : Initiator) (data : BitVec 64) (s : State), Permitted s who 0xE00018 true →
    Does (.registerWrite who 0xE00018 data) s (fun t => t.rd F.KEY_IRQ_EN = data.toNat / 2 ^ 16 % 16 ∧
      ∀ x ∈ [(0, F.KEY_IRQ_INTEG), (1, F.KEY_IRQ_EMPTY_USE), (2, F.KEY_IRQ_PROG), (3, F.KEY_IRQ_REKEY_DONE)], s.rd x.2 ≤ 1 →
        t.rd x.2 = if data.toNat.testBit x.1 then 0 else s.rd x.2)) ∧
  (∀ (who : Initiator) (s : State), Permitted s who 0xE00010 false →
    Does (.rcRead who 0xE00010 true) s (fun t =>
      t.out = s.out ++ [.bar0 who 0xE00010 (s.readWord 0xE00010)] ∧
      t.rd F.KEY_ERR_INTEG_FAIL = 0 ∧ t.rd F.KEY_ERR_EMPTY_USE = 0 ∧ t.rd F.KEY_ERR_PROG_REFUSED = 0 ∧
      t.rd F.KEY_ERR_REGION_REJECT = 0)) ∧
  (∀ (who : Initiator) (off : BitVec 26) (s : State), Permitted s who off.toNat false → off.toNat % 8 = 0 →
    window off.toNat = none →
    (s.liveReg off.toNat = true → ∀ w, w = (s.dropHalves who off.toNat).latest off.toNat →
      Does (.halfReadCapture who off) s (fun t =>
        t.out = s.out ++ [.bar0 who off.toNat (w.readWord off.toNat % 2 ^ 32)] ∧
        t.sec.captures = w.sec.captures ++ [(who, off.toNat, w.readWord off.toNat)] ∧
        t.regs = (w.readClear off.toNat (fun f => f.hi < 32)).regs)) ∧
    (s.liveReg off.toNat = false → Does (.halfReadCapture who off) s (fun t =>
      t.out = s.out ++ [.bar0 who off.toNat 0] ∧ SameStore s t))) ∧
  (∀ (who : Initiator) (off : BitVec 26) (data : BitVec 32) (s w : State), Permitted s who off.toNat true →
    off.toNat % 8 = 0 → window off.toNat = none → w = s.dropHalves who off.toNat →
    ((fieldsAt off.toNat).any (fun x => x.1.spans) = true → Does (.lowerHalfWrite who off data) s (fun t =>
      t.sec.staged = w.sec.staged ++ [(who, off.toNat, data.toNat)] ∧ t.regs = s.regs ∧ SameStore s t ∧ t.out = s.out)) ∧
    ((fieldsAt off.toNat).any (fun x => x.1.spans) = false → (fieldsAt off.toNat).any (fun x => x.1.hi < 32) = true →
      Does (.lowerHalfWrite who off data) s (fun t =>
        t = w.writeReg who off.toNat (w.halfValue off.toNat data.toNat (fun f => f.hi < 32))))) ∧
  (∀ (who : Initiator) (off : BitVec 26) (data : BitVec 32) (s w : State), s.stage = .running → s.sec.endLater = false →
    s.may who (off.toNat + 4) true = true → off.toNat % 8 = 0 → window off.toNat = none → window (off.toNat + 4) = none →
    w = s.dropHalves who off.toNat →
    (∀ lower : BitVec 32, s.sec.staged.find? (fun x => x.1 == who && x.2.1 == off.toNat) = some (who, off.toNat, lower.toNat) →
      Does (.upperHalfWrite who off data) s (fun t => t = w.writeReg who off.toNat (lower.toNat + data.toNat * 2 ^ 32)) ∧
      (s.may who off.toNat true = true →
        exec (.upperHalfWrite who off data) s = exec (.registerWrite who off (data ++ lower)) s)) ∧
    (s.sec.staged.find? (fun x => x.1 == who && x.2.1 == off.toNat) = none →
      (fieldsAt off.toNat).any (fun x => 32 ≤ x.1.lo) = true → Does (.upperHalfWrite who off data) s (fun t =>
        t = w.writeReg who off.toNat (w.halfValue off.toNat (data.toNat * 2 ^ 32) (fun f => 32 ≤ f.lo))))) ∧
  (∀ (who : Initiator) (off : BitVec 26) (data : BitVec 32) (s : State), s.stage = .running → s.sec.endLater = false →
    off.toNat % 8 = 0 → window off.toNat = none → s.may who off.toNat true = false →
    Does (.lowerHalfWrite who off data) s (fun t => t.rd F.SEC_VIOL_LAST_OFFSET = off.toNat ∧
      t.rd F.SEC_VIOL_LAST_INITIATOR = initNum who ∧ t.rd F.SEC_IRQ_VIOL = 1 ∧ SameStore s t ∧ t.out = s.out))

/-- Where COLD reset, start-up, WARM reset, PERST_L and a thermal shutdown leave the die. Rests on R55, R371, R397,
R398, R401, R402, R403, R420. Where a clause touches them, these are the model's choices and no rule: log entry 76,
DESIGN CHOICE, log entry 77, DESIGN CHOICE. -/
def Obligations.Resets : Prop :=
  (∀ s : State, Does .supplyLoss s (fun t => t.stage = .coldReset ∧ t.map = {} ∧ t.coh = {} ∧ t.keys = [] ∧
    t.mem = s.mem ∧ t.nvs = s.nvs ∧ t.inl = s.inl ∧ t.ras = [] ∧ t.flash.fwA = s.flash.fwA ∧ t.flash.fwB = s.flash.fwB)) ∧
  (∀ s : State, s.stage = .coldReset → Does .coldResetRelease s (fun t =>
    t.stage = .selfTest ∧ t.time.strap = s.inl.slot ∧ t.rd F.KEY_STATUS_SLOT0_READY = 1)) ∧
  (∀ (bad : Option BadRow) (s : State), s.stage = .selfTest → Does (.selfTestDone bad) s (fun t =>
    t.stage = .running ∧ t.rd F.GEN_STATUS_BOOT_DONE = 1)) ∧
  (∀ (st : Fin 8) (s : State), s.stage = .running → s.perst.contains st.val = false →
    Does (.perstLFall st) s (fun t => t.stage = .running ∧ t.rd F.GEN_STATUS_BOOT_DONE = 1 ∧
      t.perst = s.perst ++ [st.val] ∧ t.coh = {} ∧ t.reqs = [])) ∧
  (∀ (st : Fin 8) (s : State), Does (.perstLRise st) s (fun t =>
    t = { s with perst := s.perst.filter (· != st.val) })) ∧
  (∀ (who : Initiator) (v : BitVec 32) (s : State), Permitted s who 0x18 true → v.toNat / 2 ^ 16 = 0xA5C3 →
    v.toNat % 2 = 1 → Does (.genRst who v) s (fun t => t.stage = .running ∧ t.rd F.GEN_STATUS_BOOT_DONE = 1 ∧
      t.coh = {} ∧ t.reqs = [])) ∧
  (∀ s : State, s.clocked = true → Does .thermalShutdown s (fun t =>
    t.stage = .stopped ∧ t.rd F.FWC_STATUS_LAST_THERMTRIP = 1)) ∧
  (∀ s : State, s.stage = .running → s.rd F.MAP_STATUS_READY = 0 → s.allTrained = true →
    Does .mapInitDone s (fun t => t.rd F.MAP_STATUS_READY = 1 ∧ t.rd F.GEN_STATUS_MEM_ACTIVE = 1))

/-- What the spec gives for reset: empty registers, queues and logs, and the field values of the tables. Rests on R4,
R403, R183, R311, R312. Where a clause touches them, these are the model's choices and no rule: log entry 4, DESIGN
CHOICE, log entry 9, DESIGN CHOICE. -/
def Obligations.ResetValues : Prop :=
  State.reset.stage = .coldReset ∧ State.reset.regs = [] ∧ State.reset.pending = [] ∧ State.reset.ras = [] ∧
  State.reset.mem = [] ∧ State.reset.rd F.GEN_ID0_PART = 0x6416 ∧
  (∀ h < 16, State.reset.rd F.HOM_CTL_SPEC_RD h = 1 ∧ State.reset.rd F.HOM_CFG_HOME h = h ∧
    State.reset.rd F.HOM_LOCK_TMO_TMO_US h = 20 ∧ State.reset.rd F.GAL_CTL_HOST_JOBS h = 1) ∧
  (∀ q < 1024, State.reset.rd F.CRQ_CFG_CT q = 1 ∧ State.reset.rd F.CRQ_CFG_CAP_LOG2 q = 4 ∧
    State.reset.rd F.CRQ_CFG_EN q = 0) ∧
  State.reset.rd F.SEC_LC_STATE = 0 ∧ State.reset.rd F.KEY_SLOT_STATE_STATE 0 0 = 0 ∧
  State.reset.rd F.SEC_QOWN_OWNER 0 0 = 2 ^ 64 - 1 ∧ State.reset.rd F.GEN_STATUS_BOOT_DONE = 0

/-- A mailbox load while loading is disabled is rejected with 0x44. Formalises R31. -/
def Obligations.MailboxLoadDisabled : Prop :=
  ∀ (who : Initiator) (input : Bytes) (s : State),
    s.stage = .running → hasSpdm who = true → itemOk 0 input = true → input.length = 8 → byteAt input 1 ≤ 1 →
    s.str.load = none → s.str.cal = none → s.str.xfer = none →
    s.rd F.STR_CTL_MBX_LOAD_EN = 0 → s.rd F.STR_STATUS_RECOVERY = 0 →
    Does (.strLoadStart who input) s (fun t =>
      t.rd F.STR_STATUS_RESULT = 0x44 ∧ t.str.xfer = none ∧ t.str.load = none ∧ t.str.secs = s.str.secs ∧
      t.out = s.out ++ [.mbx who .success [0x44, 0, 0, 0]]) ∧
    (∀ x : Transfer, x.who = who → x.cal = false →
      Does (.strLoadEnd who (2 :: input.drop 1)) { s with str := { s.str with xfer := some x } } (fun t =>
        t.rd F.STR_STATUS_RESULT = 0x44 ∧ t.str.xfer = none ∧ t.str.load = none ∧ t.str.secs = s.str.secs ∧
        t.out = s.out ++ [.mbx who .success [0x44, 0, 0, 0]]))

/-- A structure load: its transfer sequence, verification, commit, time-out and persisting. Rests on R24, R27, R28,
R29, R30, R372. Where a clause touches them, these are the model's choices and no rule: log entry 5, DEDUCED, log
entry 78, DESIGN CHOICE, log entry 79, DESIGN CHOICE, log entry 80, DESIGN CHOICE, log entry 97, DESIGN CHOICE, log
entry 98, DESIGN CHOICE, log entry 99, DESIGN CHOICE. -/
def Obligations.StructureLoad : Prop :=
  (∀ (who : Initiator) (input : Bytes) (s : State), s.stage = .running → hasSpdm who = true → itemOk 0 input = true →
    input.length = 8 → byteAt input 1 ≤ 1 → s.str.load = none → s.str.cal = none → s.str.xfer = none →
    s.loadAllowed = true → Does (.strLoadStart who input) s (fun t =>
      t.str.xfer = some ⟨who, false, 0, byteAt input 1 == 1, [], []⟩ ∧ t.out = s.out ++ [.mbx who .success []] ∧
      t.regs = s.regs)) ∧
  (∀ (who : Initiator) (input : Bytes) (x : Transfer) (s : State), s.stage = .running → hasSpdm who = true →
    itemOk 1 input = true → byteAt input 1 ≤ 1 → 8 < input.length → input.length ≤ 65536 → s.str.xfer = some x →
    x.who = who → x.cal = false → le input 4 4 = x.data.length →
    Does (.strLoadContinue who input) s (fun t =>
      t.str.xfer = some { x with data := x.data ++ input.drop 8 } ∧ t.out = s.out ++ [.mbx who .success []])) ∧
  (∀ (who : Initiator) (input : Bytes) (x : Transfer) (s : State), s.stage = .running → hasSpdm who = true →
    itemOk 2 input = true → input.length = 8 → byteAt input 1 ≤ 1 → s.str.xfer = some x → x.who = who → x.cal = false →
    s.str.load = none → s.str.cal = none → s.loadAllowed = true → Does (.strLoadEnd who input) s (fun t =>
      t.str.xfer = none ∧
      ((verifyImage s.imgCtx x.data).code ≠ 0 → t.str.load = none ∧
        t.rd F.STR_STATUS_RESULT = (verifyImage s.imgCtx x.data).code % 2 ^ F.STR_STATUS_RESULT.width ∧
        t.str.secs = s.str.secs) ∧
      ((verifyImage s.imgCtx x.data).code = 0 →
        (changedSecs s.secs (verifyImage s.imgCtx x.data).secs).isEmpty = false → x.persist = true →
        t.str.load.isSome = true))) ∧
  (∀ (who : Initiator) (input : Bytes) (s : State), s.stage = .running → hasSpdm who = true → itemOk 3 input = true →
    input.length = 8 → byteAt input 1 ≤ 1 → s.transferTaken who false = false →
    Does (.strLoadAbandon who input) s (fun t =>
      t = { s with str := { s.str with xfer := none }, out := s.out ++ [.mbx who .success []] })) ∧
  (∀ (l : PendingLoad) (s : State), s.stage = .running → s.str.load = some l → s.rd F.STR_STATUS_STATE = ldCOMMIT →
    Does .imageCommit s (fun t => t.str.secs = committedSecs s.secs l.secs ∧
      (l.persist = false → t.str.load = none ∧ t.rd F.STR_STATUS_RESULT = 0 ∧ t.rd F.STR_STATUS_STATE = ldIDLE) ∧
      (l.persist = true → t.str.load.isSome = true ∧ t.rd F.STR_STATUS_STATE = ldPERSIST))) ∧
  (∀ (l : PendingLoad) (s : State), s.stage = .running → s.str.load = some l → s.rd F.STR_STATUS_STATE = ldDRAIN →
    s.drained l = false → Does .quiesceTimeout s (fun t =>
      t = ((s.loadEnds l.who (.bad 0x41)).releaseLds).resumeJobs)) ∧
  (∀ s : State, s.stage = .running → s.rd F.STR_STATUS_STATE ≠ ldDRAIN → Does .ldHoldRelease s (fun t =>
    t = ({ s with str := { s.str with ldHold := [] } }).forEach s.str.ldHold State.m2sAgain)) ∧
  (∀ (l : PendingLoad) (s : State), s.stage = .running → s.str.load = some l → s.rd F.STR_STATUS_STATE = ldPERSIST →
    (Does (.imagePersistDone true) s (fun t => t.str.load = none ∧ t.rd F.STR_STATUS_RESULT = 0 ∧
      t.rd F.STR_BOOT_PREF_SLOT = b2n l.slotB ∧
      (l.slotB = true → t.flash.imgB = l.bytes ∧ t.flash.imgA = s.flash.imgA ∧ t.rd F.STR_BOOT_SLOT_B_VALID = 1) ∧
      (l.slotB = false → t.flash.imgA = l.bytes ∧ t.flash.imgB = s.flash.imgB ∧ t.rd F.STR_BOOT_SLOT_A_VALID = 1))) ∧
    (Does (.imagePersistDone false) s (fun t => t.str.load = none ∧ t.rd F.STR_STATUS_RESULT = 0x43 ∧
      (l.slotB = true → t.rd F.STR_BOOT_SLOT_B_VALID = 0 ∧ t.flash.imgA = s.flash.imgA) ∧
      (l.slotB = false → t.rd F.STR_BOOT_SLOT_A_VALID = 0 ∧ t.flash.imgB = s.flash.imgB)))) ∧
  (∀ (who : Initiator) (v : BitVec 32) (s : State), Permitted s who 0x100050 true → s.isOwner who = true →
    s.rd F.STR_MINSEQ_MINSEQ ≤ v.toNat → s.slotSeqs.any (v.toNat ≤ ·) = true →
    Does (.strMinseqWrite who v) s (fun t => t.rd F.STR_MINSEQ_MINSEQ = v.toNat))

/-- Shelf time: acquiring, locking, holdover, slewing and loading. Rests on R44, R47, R48, Table 2-6, Table 2-12.
Where a clause touches them, these are the model's choices and no rule: log entry 73, DESIGN CHOICE, log entry 100,
DEDUCED, log entry 101, DESIGN CHOICE. -/
def Obligations.TallySynchronisation : Prop :=
  (∀ s : State, s.stage = .running → s.sync = syABSENT ∨ s.sync = syHOLDOVER →
    Does (.tallyAcquire .goodCycles) s (fun t => t.sync = syACQUIRE ∧ t.rd F.TIM_STATUS_ST_UNSYNC = 1 ∧
      t.rd F.TIM_STATUS_TALLY_PRESENT = 1 ∧ t.rd F.TIM_ST_ST = s.rd F.TIM_ST_ST)) ∧
  (∀ s : State, s.stage = .running → s.sync = syLOCKED →
    Does (.tallyAcquire .framingError) s (fun t => t.sync = syACQUIRE ∧ t.rd F.TIM_STATUS_ST_UNSYNC = 1)) ∧
  (∀ s : State, s.stage = .running → s.sync = syACQUIRE ∨ s.sync = syLOCKED → Does .holdover s (fun t =>
    t.sync = syHOLDOVER ∧ t.rd F.TIM_STATUS_ST_UNSYNC = 1 ∧ t.rd F.TIM_STATUS_TALLY_PRESENT = 0 ∧
    t.rd F.TIM_ERR_LOSS = min (s.rd F.TIM_ERR_LOSS + 1) (2 ^ F.TIM_ERR_LOSS.width - 1) ∧ t.rd F.TIM_IRQ_LOST = 1 ∧
    t.inl.tally = false ∧ t.inl.locked = false)) ∧
  (∀ (f : TallyFrame) (s : State), s.stage = .running → s.sync = syLOCKED → f.ok = false →
    Does (.tallyFrame f) s (fun t => t.sync = syACQUIRE ∧ t.rd F.TIM_STATUS_ST_UNSYNC = 1 ∧ t.inl.locked = false)) ∧
  (∀ (f : TallyFrame) (s : State), s.stage = .running → s.sync = syACQUIRE → f.ok = true → s.time.capNext = none →
    s.time.delayNext = none → s.time.goodFrames = 0 →
    Does (.tallyFrame f) s (fun t => t.sync = syACQUIRE ∧ t.time.goodFrames = 1)) ∧
  (∀ (f : TallyFrame) (s : State), s.stage = .running → s.sync = syLOCKED → f.ok = true → s.time.capNext = none →
    s.time.delayNext = none → f.ftype = 0 → s.markSt f = s.st → Does (.tallyFrame f) s (fun t => t.sync = syLOCKED ∧
      t.rd F.TIM_STATUS_FTYPE = 0 ∧ t.st = s.st ∧ t.time.lastDiff = none ∧
      t.rd F.TIM_ERR_HDR_MISMATCH = s.rd F.TIM_ERR_HDR_MISMATCH)) ∧
  (∀ s : State, s.stage = .running → s.rd F.TIM_STATUS_SLEWING = 1 → Does .stSlewDone s (fun t =>
    t.rd F.TIM_STATUS_SLEWING = 0 ∧ t.rd F.TIM_STATUS_ST_UNSYNC = 0)) ∧
  (∀ (who : Initiator) (v : BitVec 64) (s : State), Permitted s who (F.TIM_ST_LOAD_ST.addr 0 0) true →
    s.sync ≠ syABSENT → Does (.timStLoad who v) s (fun t => t.regs = s.regs ∧ t.time = s.time)) ∧
  (∀ (who : Initiator) (v : BitVec 64) (s : State), Permitted s who (F.TIM_ST_LOAD_ST.addr 0 0) true →
    s.sync = syABSENT → Does (.timStLoad who v) s (fun t =>
      t = (s.dropHalves who (F.TIM_ST_LOAD_ST.addr 0 0)).stepTo (v.toNat / 2 * 2)))

/-- The commands of the shelf manager, accepted, refused and ignored. Rests on R41, R42, R43, R353, Table 2-5. Where a
clause touches them, these are the model's choices and no rule: log entry 72, DESIGN CHOICE. -/
def Obligations.TallyCommands : Prop :=
  (∀ (c : TallyCmd) (s : State), s.stage = .running → s.rd F.STR_STATUS_RECOVERY = 0 → s.sync = syLOCKED →
    c.frame = true → c.bcast = false → c.target.toNat = s.slot → s.rd F.TIM_STATUS_SLOT_MISMATCH = 0 →
    (tallyOnes 0 c % 2 = 0 → Does (.nop c) s (fun t => t.rd F.TIM_LAST_CMD_OP = 0 ∧
      t.rd F.TIM_LAST_CMD_ARG = c.arg.toNat ∧ t.rd F.TIM_LAST_CMD_TARGET = c.target.toNat ∧ t.time = s.time)) ∧
    (tallyOnes 0 c % 2 = 1 → Does (.nop c) s (fun t => t.rd F.TIM_LAST_CMD_OP = s.rd F.TIM_LAST_CMD_OP ∧
      t.rd F.TIM_ERR_CMD_PARITY = min (s.rd F.TIM_ERR_CMD_PARITY + 1) (2 ^ F.TIM_ERR_CMD_PARITY.width - 1))) ∧
    (∀ ch : Fin 9, 0 < ch.val → bits c.arg.toNat 43 40 = ch.val → s.inlSt ch.val = inREADY → s.calMode 60 ≠ 1 →
      tallyOnes 1 c % 2 = 0 → Does (.inrushGrant c) s (fun t => t.inlSt ch.val = inGRANTED ∧ t.calMode 60 = 1 ∧
        t.rd F.TIM_CAL_TIME_TIME 0 60 = fullSt s.st c.arg.toNat ∧ t.rd F.TIM_LAST_CMD_OP = 1)) ∧
    (tallyOnes 2 c % 2 = 0 → c.arg.toNat % 8 ≤ 4 → Does (.floorCap c) s (fun t =>
      t.time.capNext = some (c.arg.toNat % 8) ∧ t.rd F.TIM_LAST_CMD_OP = 2)) ∧
    (tallyOnes 2 c % 2 = 0 → 4 < c.arg.toNat % 8 → Does (.floorCap c) s (fun t => t.time = s.time ∧
      t.rd F.TIM_LAST_CMD_OP = s.rd F.TIM_LAST_CMD_OP ∧
      t.rd F.TIM_ERR_CMD_REFUSED = min (s.rd F.TIM_ERR_CMD_REFUSED + 1) (2 ^ F.TIM_ERR_CMD_REFUSED.width - 1))) ∧
    (tallyOnes 3 c % 2 = 0 → Does (.snapshot c) s (fun t => t.calMode 63 = 1 ∧
      t.rd F.TIM_CAL_CTL_ACTION 0 63 = 6 ∧ t.rd F.TIM_CAL_TIME_TIME 0 63 = fullSt s.st c.arg.toNat)) ∧
    (tallyOnes 4 c % 2 = 0 → 0 < c.arg.toNat % 1024 → c.arg.toNat % 1024 ≤ 1000 →
      4000 * (c.arg.toNat % 1024) ≠ s.rd F.TIM_CAL_PERIOD_PERIOD 0 62 → Does (.window c) s (fun t =>
        (t.time.windowNext.map (·.1)) = some (c.arg.toNat % 1024) ∧ t.rd F.TIM_LAST_CMD_OP = 4)) ∧
    (tallyOnes 5 c % 2 = 0 → Does (.delay c) s (fun t => t.time.delayNext = some (c.arg.toNat % 65536) ∧
      t.rd F.TIM_LAST_CMD_OP = 5)) ∧
    (∀ op : BitVec 4, 5 < op.toNat → tallyOnes op.toNat c % 2 = 0 → Does (.tallyRefusedOpcode op c) s (fun t =>
      t.rd F.TIM_LAST_CMD_OP = s.rd F.TIM_LAST_CMD_OP ∧ t.time = s.time ∧
      t.rd F.TIM_ERR_CMD_REFUSED = min (s.rd F.TIM_ERR_CMD_REFUSED + 1) (2 ^ F.TIM_ERR_CMD_REFUSED.width - 1))))

/-- When the calendar fires, what a firing entry does, and the closing of a window. Rests on R50, R51, R53. Where a
clause touches them, these are the model's choices and no rule: log entry 12, DESIGN CHOICE, log entry 74, DESIGN
CHOICE, log entry 100, DEDUCED. -/
def Obligations.Calendar : Prop :=
  (∀ (rs : List (Fin 16 × ChanReading)) (s : State), s.stage = .running →
    (∀ k l, s.calNext = (k, l) → l ≠ [] → Does (.calendarFire rs) s (fun t =>
      t = ((s.advance k).calFireAll rs l).background ∧ (s.advance k).st = (s.st + 2 * k) % 2 ^ 64 ∧
      (s.advance k).time.cclk = s.time.cclk + k)) ∧
    (s.calNext.2 = [] → Does (.calendarFire rs) s (fun t => t = s)) ∧
    (∀ x ∈ s.calNext.2, ∃ d, s.calDist x.1 = some (d, x.2) ∧ s.calNext.1 = d / 2 ∧
      ∀ n < 64, ∀ e, s.calDist n = some e → d ≤ e.1) ∧
    (∀ n, n ≠ 62 → s.calMode n = 1 → s.calDist n = (if stDiff (s.calTime n) s.st ≤ 0 then some (2, true)
      else some ((stDiff (s.calTime n) s.st).toNat, false)))) ∧
  (∀ (n : Fin 64) (s : State), s.stage = .running → Does (.calendarWindowClose n) s (fun t =>
    t.rd F.TIM_CAL_STAT_OPEN 0 n = 0 ∧ SameStore s t ∧ t.out = s.out ∧ t.time = s.time ∧
    (∀ f i j, f.key i j ≠ F.TIM_CAL_STAT_OPEN.key 0 n → t.rd f i j = s.rd f i j))) ∧
  (∀ (rs : List (Fin 16 × ChanReading)) (n : Nat) (late stepped : Bool) (s t : State), n < 64 →
    s.calFire rs n late stepped = t →
    (s.calSuppressed n = true → t.rd F.TIM_CAL_STAT_MISSED 0 n = min (s.rd F.TIM_CAL_STAT_MISSED 0 n + 1) (2 ^ F.TIM_CAL_STAT_MISSED.width - 1) ∧ t.calMode n = s.calMode n ∧ t.time = s.time) ∧
    (s.calSuppressed n = false → s.rd F.TIM_CAL_CTL_ACTION 0 n = 0 →
      t.rd F.TIM_CAL_STAT_FIRED 0 n = min (s.rd F.TIM_CAL_STAT_FIRED 0 n + 1) (2 ^ F.TIM_CAL_STAT_FIRED.width - 1) ∧ (s.calMode n = 1 → t.calMode n = 0) ∧ t.mem = s.mem ∧
      (late = true → t.rd F.TIM_CAL_STAT_LATE 0 n = 1 ∧ t.rd F.TIM_IRQ_CAL_LATE = 1)))

/-- A port's link: training, going down, lane failure and recovery, IDE, latency tolerance. Rests on R57, R70, R72,
R73, R74, R75, R78. Where a clause touches them, these are the model's choices and no rule: log entry 17, DESIGN
CHOICE, log entry 19, DESIGN CHOICE, log entry 103, DESIGN CHOICE, log entry 112, DEDUCED. -/
def Obligations.PortLinks : Prop :=
  (∀ (p : Fin 16) (rate width : BitVec 3) (l0p : Bool) (s : State), s.stage = .running →
    s.on F.PRT_CFG_PRESENT p = true → s.perst.contains (s.secs.portStation p) = false → s.rd F.PRT_LINK_UP p = 0 →
    rate.toNat ≤ s.rd F.PRT_CFG_SPEED_CAP p → 0 < width.toNat → width.toNat ≤ s.rd F.PRT_CFG_UNIT_WIDTH p + 3 →
    s.trainsWithout p (widthLanes width.toNat) false = true ∨ s.trainsWithout p (widthLanes width.toNat) true = true →
    (s.secs.portLds p).all (fun e => !(s.ld e.ld).flrDue) = true →
    Does (.portLinkUp p rate width l0p) s (fun t => ∃ u : State, t = u.showTols ∧ u.rd F.PRT_LINK_UP p = 1 ∧
      u.rd F.PRT_LINK_RATE p = rate.toNat ∧ u.rd F.PRT_LINK_WIDTH p = width.toNat ∧
      u.rd F.PRT_LINK_FLIT p = b2n (rate.toNat == 5) ∧
      u.rd F.PRT_LINK_L0P_EN p = b2n (rate.toNat == 5 && l0p && s.on F.PRT_CTL_L0P_ALLOW p) ∧ u.mem = s.mem ∧
      (∀ k < (s.secs.portLds p).length, u.rd F.PRT_LD_STAT_BI_ON p k = b2n (rate.toNat == 5)) ∧
      (rate.toNat = 5 → SameStore s u))) ∧
  (∀ (p : Fin 16) (s : State), s.stage = .running → s.on F.PRT_LINK_UP p = true →
    Does (.portLinkDown p) s (fun t => ∃ u : State, t = u.showTols ∧ u.rd F.PRT_LINK_UP p = 0 ∧
      u.rd F.PRT_IRQ_LINK_DOWN p = 1 ∧ u.rd F.PRT_LINK_RATE p = 0 ∧ u.rd F.PRT_LINK_WIDTH p = 0 ∧
      u.rd F.PRT_LINK_FLIT p = 0 ∧ u.rd F.PRT_LINK_IDE_ON p = 0 ∧ SameStore s u)) ∧
  (∀ (p : Fin 16) (lane : BitVec 4) (s : State), s.stage = .running → s.on F.PRT_LINK_UP p = true →
    lane.toNat < widthLanes (s.rd F.PRT_LINK_WIDTH p) →
    (s.rd F.PRT_CTL_LANEFAIL_EN p = 0 → Does (.laneFail p lane) s (fun t =>
      t.rd F.PRT_ERR_LANE_FAIL p = min (s.rd F.PRT_ERR_LANE_FAIL p + 1) (2 ^ F.PRT_ERR_LANE_FAIL.width - 1) ∧ t.rd F.PRT_IRQ_LANE_FAIL p = 1 ∧ t.lanes = s.lanes ∧ SameStore s t)) ∧
    (s.on F.PRT_CTL_LANEFAIL_EN p = true → s.on F.PRT_LINK_FLIT p = true → s.on F.PRT_LINK_L0P_EN p = true →
      s.rd F.PRT_LINK_DEGRADED p = 0 → s.lanes.find? (fun x => x.1 == p.val) = none →
      Does (.laneFail p lane) s (fun t => t.lanes = s.lanes ++ [(p.val, lane.toNat)] ∧ t.rd F.PRT_IRQ_LANE_FAIL p = 1 ∧
        t.rd F.PRT_ERR_LANE_FAIL p = min (s.rd F.PRT_ERR_LANE_FAIL p + 1) (2 ^ F.PRT_ERR_LANE_FAIL.width - 1) ∧ SameStore s t)) ∧
    (s.on F.PRT_CTL_LANEFAIL_EN p = true → s.rd F.PRT_LINK_L0P_EN p = 0 → s.lanes.find? (fun x => x.1 == p.val) = none →
      Does (.laneFail p lane) s (fun t => ∃ u : State, t = u.linkDown p ∧ u.rd F.PRT_IRQ_LANE_FAIL p = 1 ∧
        (p.val, s.unitLane p lane.toNat) ∈ u.badLanes ∧
        u.rd F.PRT_ERR_LANE_FAIL p = min (s.rd F.PRT_ERR_LANE_FAIL p + 1) (2 ^ F.PRT_ERR_LANE_FAIL.width - 1)))) ∧
  (∀ (p : Fin 16) (x : Nat × Nat) (s : State), s.stage = .running → s.lanes.find? (fun x => x.1 == p.val) = some x →
    Does (.laneRecoveryDone p) s (fun t =>
      t.lanes = { s with lanes := s.lanes.erase x }.lanesKept p (widthLanes (s.rd F.PRT_LINK_WIDTH p)) x.2 ∧
      (p.val, s.unitLane p x.2) ∈ t.badLanes ∧ t.rd F.PRT_ERR_REPLAY p = min (s.rd F.PRT_ERR_REPLAY p + 1) (2 ^ F.PRT_ERR_REPLAY.width - 1) ∧
      t.rd F.PRT_LINK_WIDTH p = max 1 (s.rd F.PRT_LINK_WIDTH p - 1) % 2 ^ F.PRT_LINK_WIDTH.width ∧
      t.rd F.PRT_LINK_DEGRADED p = 1 ∧ t.rd F.PRT_LINK_FAILED_LANE p = x.2 % 2 ^ F.PRT_LINK_FAILED_LANE.width ∧
      (t.ras.getLast?.map (fun r => (r.cls, r.sev, r.blk, r.inst))) = some (0x20, 2, rasPRT, p.val))) ∧
  (∀ (p : Fin 16) (who : Initiator) (id : BitVec 32) (ks : IdeKeys) (s : State), s.stage = .running →
    (s.session who id.toNat).any (·.done) = true → s.portDoe p who = true → s.on F.PRT_LINK_UP p = true →
    Does (.ideKm p who ⟨id, ks⟩) s (fun t => (p.val, ks) ∈ t.ide ∧ SameStore s t ∧ t.out = s.out ∧
      (ks.mem = true → t.rd F.PRT_LINK_IDE_ON p = 1 ∧ t.insecure.contains p.val = false) ∧
      (ks.mem = false → t.regs = s.regs ∧ t.insecure = s.insecure))) ∧
  (∀ (p : Fin 16) (s : State), s.stage = .running → s.on F.PRT_LINK_IDE_ON p = true →
    Does (.ideIntegrityFail p) s (fun t => t.rd F.PRT_LINK_IDE_ON p = 0 ∧ t.insecure.contains p.val = true ∧
      (t.ras.getLast?.map (fun r => (r.cls, r.sev, r.blk, r.inst))) = some (0x20, 2, rasPRT, p.val) ∧ t.out = s.out)) ∧
  (∀ (p : Fin 16) (k : Option (BitVec 4)) (a b : BitVec 16) (s : State), s.stage = .running →
    s.on F.PRT_LINK_UP p = true → Does (.ltrReceived p k a b) s (fun t => ∃ u : State, t = u.showTols ∧
      u.rd F.PWR_STATUS_TOL_SEEN = 1 ∧ u.rd F.PRT_LTR_SNOOP_NS p = ltrNs a ∧ u.rd F.PRT_LTR_NOSNOOP_NS p = ltrNs b ∧
      SameStore s u)) ∧
  (∀ (who : Initiator) (p k : Fin 16) (v : BitVec 64) (s : State), Permitted s who (F.PRT_LD_OVR_OVR_EN.addr p k) true →
    Does (.prtLdOvrWrite who p k v) s (fun t =>
      (v.toNat.testBit 32 = true →
        t = ((s.written who (F.PRT_LD_OVR_OVR_EN.addr p k) v.toNat).set F.PWR_STATUS_TOL_SEEN).showTols) ∧
      (v.toNat.testBit 32 = false → t = (s.written who (F.PRT_LD_OVR_OVR_EN.addr p k) v.toNat).showTols)))

/-- Host requests become the internal requests of Table 3-2. Rests on R59, R63, R160, Table 3-2. Where a clause
touches them, these are the model's choices and no rule: log entry 16, DESIGN CHOICE, log entry 17, DESIGN CHOICE, log
entry 18, DESIGN CHOICE, log entry 104, DESIGN CHOICE. -/
def Obligations.HostRequests : Prop :=
  (∀ (r : M2S) (s : State) (e : LdEntry) (slot line tg opc : Nat) (na : Bool), PortTakes s r e slot line tg →
    m2sMap (s.on F.PRT_LINK_FLIT e.port) (s.hostOwns r.ld slot line) r = some (opc, na) → opc ≠ opWbD →
    ∀ c ∈ m2sCommands r, Does c s (fun t =>
      t.reqs = s.reqs ++ [⟨r.ld, r.tag.toNat, tg, opc, slot, line, false⟩] ∧
      t.coh.flight = s.coh.flight ++ [⟨opc, .home,
        { src := BitVec.ofNat 7 r.ld, line := BitVec.ofNat 40 line, slot := BitVec.ofNat 4 slot,
           rtag := BitVec.ofNat 8 tg, noalloc := na }⟩] ∧
      t.mem = s.mem ∧ t.map = s.map ∧ t.out = s.out)) ∧
  (∀ (r : M2S) (s : State) (e : LdEntry) (slot line tg : Nat) (na : Bool), PortTakes s r e slot line tg →
    m2sMap (s.on F.PRT_LINK_FLIT e.port) (s.hostOwns r.ld slot line) r = some (opWbD, na) → s.spent r.ld (homeOf line) < 4 →
    ∀ c ∈ m2sCommands r, Does c s (fun t =>
      (∃ own, t.reqs = s.reqs ++ [⟨r.ld, r.tag.toNat, tg, opWbD, slot, line, own⟩] ∧
        own = (s.on F.PRT_LINK_FLIT e.port && s.hostOwns r.ld slot line)) ∧
      (∃ m d : CohMsg, t.coh.flight = s.coh.flight ++ [⟨opWbD, .home, m⟩, ⟨opDataM, .home, d⟩] ∧
        m.src = BitVec.ofNat 7 r.ld ∧ m.line = BitVec.ofNat 40 line ∧ m.mask = m2sBytes r ∧
        m.noown = !(s.on F.PRT_LINK_FLIT e.port && s.hostOwns r.ld slot line) ∧
        d.src = m.src ∧ d.line = m.line ∧ d.data = r.data ∧ d.poison = r.poison ∧ d.mask = m2sBytes r) ∧
      t.spent r.ld (homeOf line) = s.spent r.ld (homeOf line) + 1 ∧ t.mem = s.mem ∧ t.map = s.map ∧ t.out = s.out)) ∧
  (∀ (ld : Fin 64) (hpa : BitVec 64) (s : State), s.stage = .running → Does (.m2sMemspecrd ld hpa) s (fun t =>
    t.mem = s.mem ∧ t.map = s.map ∧ t.coh = s.coh ∧ t.reqs = s.reqs ∧ t.out = s.out ∧ t.hosts = s.hosts)) ∧
  (∀ (ld : Fin 64) (op : BitVec 4) (e : LdEntry) (s : State), s.stage = .running → s.secs.ldEntry ld = some e →
    s.on F.PRT_LINK_UP e.port = true → Does (.m2sOther ld op) s (fun t =>
      t.rd F.PRT_ERR_PROTO e.port = min (s.rd F.PRT_ERR_PROTO e.port + 1) (2 ^ F.PRT_ERR_PROTO.width - 1) ∧ t.rd F.PRT_IRQ_PROTO e.port = 1 ∧ t.mem = s.mem ∧ t.map = s.map ∧
      t.coh = s.coh ∧ t.reqs = s.reqs ∧ t.out = s.out)) ∧
  (∀ (r : M2S) (o : Bool),
    (r.op = .memRd → m2sMap false o r = some (opRdS, true) ∧
      (r.snp = .inv → r.mv = .any → m2sMap true o r = some (opRdO, false)) ∧
      (r.snp = .data → r.mv = .shared → m2sMap true o r = some (opRdS, false)) ∧
      (r.snp = .cur → r.mv = .invalid → m2sMap true o r = some (opRdS, true)) ∧
      (r.snp = .noOp → r.mv = .invalid → m2sMap true o r = some (opRdS, true))) ∧
    (r.op = .memRdData → m2sMap true o r = some (opRdS, false) ∧ m2sMap false o r = some (opRdS, true)) ∧
    (r.op = .memInv → r.snp = .inv → r.mv = .any → m2sMap true o r = some (opUpg, false)) ∧
    (r.op = .memWr ∨ r.op = .memWrPtl → m2sMap false o r = some (opWbD, false) ∧ m2sMap true false r = some (opWbD, false) ∧
      (r.mv = .invalid → m2sMap true o r = some (opWbD, false)) ∧ (r.mv ≠ .invalid → m2sMap true true r = none)) ∧
    (r.op = .memClnEvct → r.mv = .invalid → m2sMap true o r = some (opEvC, false)))

/-- Answers of hosts to Back-Invalidate snoops, and BIConflict. Rests on R64, R65, Table 3-3. Where a clause touches
them, these are the model's choices and no rule: log entry 39, DEDUCED. -/
def Obligations.SnoopsOfHosts : Prop :=
  (∀ (ld : Fin 64) (slot : BitVec 4) (line : BitVec 40) (ans : BiAns) (e : LdEntry) (b : BiSnp) (s : State),
    s.stage = .running → s.secs.ldEntry ld = some e →
    (s.ld ld).bisnp.find? (fun b => b.line == line.toNat && b.home == slot.toNat) = some b →
    Does (.birsp ld slot line ans) s (fun t => (t.ld ld).bisnp = (s.ld ld).bisnp.erase b ∧ t.mem = s.mem ∧
      t.out = s.out ∧
      t.coh.flight = s.coh.flight ++ [⟨(biMap b.snoop ans).getD opRspI, .home,
          { src := BitVec.ofNat 7 ld, line := line, slot := slot, htag := BitVec.ofNat 8 b.htag }⟩] ∧
      (biMap b.snoop ans = none → t.rd F.PRT_IRQ_PROTO e.port = 1))) ∧
  (∀ (ld : Fin 64) (slot : BitVec 4) (line : BitVec 40) (ans : BiAns) (e : LdEntry) (s : State),
    s.stage = .running → s.secs.ldEntry ld = some e →
    (s.ld ld).bisnp.find? (fun b => b.line == line.toNat && b.home == slot.toNat) = none →
    Does (.birsp ld slot line ans) s (fun t => t.rd F.PRT_ERR_PROTO e.port = min (s.rd F.PRT_ERR_PROTO e.port + 1) (2 ^ F.PRT_ERR_PROTO.width - 1) ∧ t.coh = s.coh ∧ t.hosts = s.hosts ∧
      t.mem = s.mem ∧ t.out = s.out)) ∧
  (∀ (ld : Fin 64) (slot : BitVec 4) (line : BitVec 40) (s : State), s.stage = .running →
    (s.conflictComing ld slot.toNat line.toNat = false → Does (.biconflict ld slot line) s (fun t =>
      t.out = s.out ++ [.biConflictAck ld line.toNat] ∧ t.coh = s.coh ∧ t.hosts = s.hosts ∧ t.regs = s.regs)) ∧
    (s.conflictComing ld slot.toNat line.toNat = true → Does (.biconflict ld slot line) s (fun t =>
      t.out = s.out ∧ t.coh = s.coh ∧ t.regs = s.regs ∧
      (t.ld ld).conflicts = (s.ld ld).conflicts ++ [(slot.toNat, line.toNat)])))

/-- Dynamic Capacity, resets, configuration and event logs of an LD. Rests on R59, R61, R62, R69, R71, R75, R76. Where
a clause touches them, these are the model's choices and no rule: log entry 11, DESIGN CHOICE, log entry 19, DESIGN
CHOICE, log entry 102, PRESUMED. -/
def Obligations.LogicalDevices : Prop :=
  (∀ (who : Initiator) (ld : Fin 64) (start len : BitVec 64) (e : LdEntry) (x : Nat × Nat) (s : State),
    s.stage = .running → s.secs.ldEntry ld = some e → extentUnits start.toNat len.toNat = some x →
    (e.inRegion x.1 x.2 = true → (s.ld ld).extents.any (meets x) = false → (s.ld ld).release = none →
      (s.ld ld).extents.length < 512 → Does (.dcAddExtent who ld start len) s (fun t =>
        (t.ld ld).extents = (s.ld ld).extents ++ [x] ∧ t.out = s.out ++ [.mbx who .success []] ∧ t.mem = s.mem ∧
        t.map = s.map ∧ t.regs = s.regs)) ∧
    (e.inRegion x.1 x.2 = false ∨ (s.ld ld).extents.any (meets x) = true → Does (.dcAddExtent who ld start len) s (fun t =>
      t.hosts = s.hosts ∧ t.out = s.out ++ [.mbx who .invalidExtentList []])) ∧
    ((((s.ld ld).extents.filter (meets x)).map (fun y => min (x.1 + x.2) (y.1 + y.2) - max x.1 y.1)).sum = x.2 →
      (s.ld ld).release = none → ((s.ld ld).extents.flatMap (trimExtent x)).length ≤ 512 →
      Does (.dcReleaseExtent who ld start len) s (fun t =>
        (t.ld ld).extents = (s.ld ld).extents.flatMap (trimExtent x) ∧ (t.ld ld).release = some ⟨x.1, x.2, some who⟩ ∧
        t.out = s.out ∧ t.mem = s.mem ∧ t.map = s.map)) ∧
    ((((s.ld ld).extents.filter (meets x)).map (fun y => min (x.1 + x.2) (y.1 + y.2) - max x.1 y.1)).sum ≠ x.2 →
      Does (.dcReleaseExtent who ld start len) s (fun t => t.hosts = s.hosts ∧
        t.out = s.out ++ [.mbx who .invalidExtentList []]))) ∧
  (∀ (ld : Fin 64) (e : LdEntry) (r : DcRelease) (s : State), s.stage = .running → s.secs.ldEntry ld = some e →
    (s.ld ld).release = some r →
    ((List.range r.len).any (fun i => s.unitBusy (e.base + r.start + i)) = false → Does (.dcReleaseDone ld) s (fun t =>
      (t.ld ld).release = none ∧ t.out = s.out ++ r.who.toList.map (fun w => Out.mbx w .success []) ∧ t.mem = s.mem ∧
      t.coh = s.coh)) ∧
    ((List.range r.len).any (fun i => s.unitBusy (e.base + r.start + i)) = true → Does (.dcReleaseDone ld) s (fun t => t = s))) ∧
  (∀ (ld : Fin 64) (e : LdEntry) (s : State), s.stage = .running → s.secs.ldEntry ld = some e →
    (s.on F.PRT_LINK_UP e.port = true → Does (.flr ld) s (fun t => ∃ u : State,
      t = u.showTols.endCommands (fun w => decide (w = .ld ld)) none ∧ (u.ld ld).memEnable = false ∧ (u.ld ld).viral = false ∧
      (u.ld ld).hdm = (s.ld ld).hdm ∧ u.rdBit F.SEC_BIND_LDS ld = false ∧ SameStore s u)) ∧
    (s.on F.PRT_LINK_UP e.port = false → Does (.flr ld) s (fun t => t = s.onLd ld (fun d => { d with flrDue := true }))) ∧
    (∀ clear, Does (.cxlReset ld clear) s (fun t =>
      t = ((((s.flrAll ld).onLd ld (fun d => { d with hdm := [], resetting := some clear })).purgeLd ld).showTols).resetGoes ld)) ∧
    (∀ clear, (s.ld ld).resetting = some clear → s.ldOpen ld = false → s.ldHolds ld = false →
      ((s.resetGoes ld).ld ld).resetting = none ∧ (s.resetGoes ld).out = s.out ++ [.cxlResetDone ld] ∧
      (clear = false → SameStore s (s.resetGoes ld))) ∧
    (∀ clear, (s.ld ld).resetting = some clear → s.ldOpen ld = true → s.resetGoes ld = s) ∧
    (∀ k, Does (.configurationSpaceWrite ld (.cdat k)) s (fun t =>
      t = { s with out := s.out ++ [.doe ld (e.cdatEntry k.toNat)] })) ∧
    (∀ op input, s.rd F.FWC_STATUS_MONITOR = 0 → Does (.configurationSpaceWrite ld (.mailbox op input)) s (fun t =>
      t = s.media (.ld ld) e op.toNat input)) ∧
    (∀ op input, s.on F.FWC_STATUS_MONITOR = true → Does (.configurationSpaceWrite ld (.mailbox op input)) s (fun t =>
      t = { s with out := s.out ++ [.mbx (.ld ld) .unsupported []] })) ∧
    (∀ on, Does (.configurationSpaceWrite ld (.memEnable on)) s (fun t =>
      t = (s.onLd ld (fun d => { d with memEnable := on })).showTols)) ∧
    (∀ on, Does (.configurationSpaceWrite ld (.viral on)) s (fun t =>
      t = (s.onLd ld (fun d => { d with viral := on })).showTols)) ∧
    (∀ k base size ways gran skip commit, ∀ h : Hdm,
      h = { base := base.toNat, size := size.toNat, ways := ways.toNat, gran := gran.toNat, committed := commit } →
      Does (.configurationSpaceWrite ld (.decoder k base size ways gran skip commit)) s (fun t =>
        t = (s.onLd ld (fun d => d.decoder k h skip.toNat)).showTols ∧
        (smGet {} ((s.ld ld).decoder k h skip.toNat).hdm k).base = base.toNat ∧
        (smGet {} ((s.ld ld).decoder k h skip.toNat).hdm k).size = size.toNat))) ∧
  (∀ (ld : Fin 64) (log : Fin 5) (hs : Option (List (BitVec 16))) (s : State), s.stage = .running →
    Does (.clearEventRecords ld log hs) s (fun t =>
      (smGet {} (t.ld ld).logs log).overflow = false ∧ (smGet {} (t.ld ld).logs log).lost = 0 ∧
      (∀ r, r ∈ (smGet {} (t.ld ld).logs log).recs ↔ r ∈ (smGet {} (s.ld ld).logs log).recs ∧
        ∃ l, hs = some l ∧ ∀ h ∈ l, h.toNat ≠ r.handle) ∧ t.out = s.out ++ [.mbx (.ld ld) .success []] ∧ t.regs = s.regs)) ∧
  (∀ (q : Fin 1024) (from_ : QPort) (tag : BitVec 16) (r : Stalled) (s : State), s.stage = .running →
    s.stalled.find? (fun r => r.queue == q.val && decide (r.who = from_) && r.tag == tag.toNat) = some r →
    Does (.qportStallExpire q from_ tag) s (fun t => t.stalled = s.stalled.erase r ∧ t.queues = s.queues ∧
      t.qram = s.qram ∧ ∃ o, t.out = s.out ++ [o] ∧ (∀ who, r.who = .host who → o = .hostPop who r.queue r.tag
        (hostItem (.token tokEMPTY)))))

/-- Lookups, updates, fills, flushes and the AGE sweep at the map slices. Rests on R87, R89, R90, R91, R195, R207,
R208. Where a clause touches them, these are the model's choices and no rule: log entry 28, DESIGN CHOICE, log entry
108, DESIGN CHOICE, log entry 114, DESIGN CHOICE. -/
def Obligations.MapSlices : Prop :=
  (∀ (h : Fin 16) (tt : BitVec 8) (r : MapReq) (s w : State), s.stage = .running →
    s.map.reqs.find? (fun r => r.home == h.val && r.tt == tt.toNat && r.st == .flight) = some r → AtSlice s r w →
    (w.pageWaits (r.line / 64) = true → w.sliceCount (pageSlice (r.line / 64)) (· == .busyWait) < 240 →
      Does (.maprd h tt) s (fun t => t.map = (w.parkReq r .busyWait).map ∧ t.regs = w.regs ∧ t.mem = s.mem)) ∧
    (w.pageWaits (r.line / 64) = false → w.sliceCount (pageSlice (r.line / 64)) (· == .busyWait) < 240 →
      w.sliceFull (pageSlice (r.line / 64)) = false →
      (w.mapHit ⟨false, r.line / 64 / 4, false⟩ = false →
        Does (.maprd h tt) s (fun t => t.map.reqs = (w.parkReq r .fillWait).map.reqs ∧
          t.map.fills.any (fun x => x.same ⟨false, r.line / 64 / 4, false⟩) = true ∧ t.mem = s.mem)) ∧
      (w.mapHit ⟨false, r.line / 64 / 4, false⟩ = true → r.write = false →
        Does (.maprd h tt) s (fun t => t.map.reqs = (w.setReq r .served).map.reqs ∧ t.mem = s.mem)))) ∧
  (∀ (p : BitVec 34) (x : BitVec 128) (s w : State), s.stage = .running → p.toNat < s.secs.pages →
    (s.dom (pageSlice p.toNat)).held.any (fun y => y.2 == mapwrFlight p.toNat x.toNat) = false →
    Brought s (mapwrFlight p.toNat x.toNat) w → w.domHolds (pageSlice p.toNat) (opNet opMAPWR) = false →
    Does (.mapwr p x) s (fun t => t.pme p.toNat = Pme.ofWord x.toNat ∧ t.map.lost.contains p.toNat = false ∧
      (t.map.broken.contains p.toNat = decide ((Pme.ofWord x.toNat).word ≠ x.toNat)) ∧
      (∀ q, q ≠ p.toNat → t.pme q = s.pme q) ∧ t.mem = s.mem)) ∧
  (∀ (twin : Bool) (m : BitVec 34) (ok : Bool) (s : State), s.stage = .running →
    s.map.fills.any (fun t => t.same ⟨twin, m.toNat, false⟩) = true → Does (.mapline twin m ok) s (fun t =>
      ∃ u : State, t = (u.forEach (s.map.reqs.filter (fun r => r.st == .fillWait && r.line / 256 == m.toNat && !twin))
          (fun s r => if s.pageWaits (r.line / 64) then s.parkReq r .busyWait
            else s.during (s.txnOfReq r) (fun s => s.lookupIn r))).serveQueues ∧
        u.map.fills = s.map.fills.filter (fun t => !t.same ⟨twin, m.toNat, false⟩) ∧ u.map.reqs = s.map.reqs ∧
        u.mapHit ⟨twin, m.toNat, false⟩ = true ∧ u.mem = s.mem ∧
        (ok = true → s.noc.bad.contains (maplineFlight twin m.toNat) = false → u.map.lost = s.map.lost ∧
          u.map.twins = s.map.twins) ∧
        (ok = false ∨ s.noc.bad.contains (maplineFlight twin m.toNat) = true →
          (twin = false → ∀ i < 4, u.lost (4 * m.toNat + i) = true) ∧
          (twin = true → (u.twin m.toNat).valid = false)))) ∧
  (∀ (who : Initiator) (v : BitVec 64) (s : State), Permitted s who 0xC00000 true →
    Does (.mapFlush who v) s (fun t => t.mem = s.mem ∧ (v.toNat.testBit 3 = false → t.map = s.map) ∧
      (v.toNat.testBit 3 = true → ∀ x ∈ t.map.cache, x.dirty = false))) ∧
  (∀ (who : Initiator) (v : BitVec 64) (s : State), Permitted s who 0xC00020 true → v.toNat.testBit 0 = true →
    Does (.ageSweep who v) s (fun t => t.map = s.map ∧ t.mem = s.mem ∧
      (s.rd F.MAP_AGE_CTL_BUSY = 0 → t.rd F.MAP_AGE_CTL_BUSY = 1 ∧ t.rd F.MAP_AGE_CTL_SWEEP = 1))) ∧
  (∀ s : State, s.stage = .running → s.on F.MAP_AGE_CTL_BUSY = true →
    (s.sweepHeld = true → Does .ageSweepDone s (fun t => t = s)) ∧
    (smSorted s.map.pmes = true → s.map.busy = [] → s.map.reqs = [] →
      Does .ageSweepDone s (fun t => t.rd F.MAP_AGE_CTL_BUSY = 0 ∧ t.rd F.MAP_AGE_CTL_SWEEP = 0 ∧ t.map.sweepAt = 0 ∧
      t.mem = s.mem ∧ ∀ p, t.pme p =
        { s.pme p with age := if p / 4 < s.map.sweepAt then (s.pme p).age else min 255 ((s.pme p).age + 1) })))

/-- Promotion, held writes, grants and the zeroing of chunks. Rests on R27, R28, R84, R93, R96, R107, R108, R109,
R145, R280. Where a clause touches them, these are the model's choices and no rule: log entry 11, DESIGN CHOICE, log
entry 20, DESIGN CHOICE, log entry 22, DESIGN CHOICE, log entry 106, DESIGN CHOICE, log entry 125, DESIGN CHOICE. -/
def Obligations.SpaceForWrites : Prop :=
  (∀ (p : BitVec 34) (f : Nat) (s w : State) (known : Bool), s.stage = .running →
    s.map.busy.find? (fun x => x.1 == p.toNat) = some (p.toNat, .promote f) →
    (known, w) = (if s.integ p.toNat = 0 ∨ (s.pme p.toNat).twin = true then (true, s) else
      ((s.tagLine p.toNat (s.galFor (s.blockChan (s.runOf p.toNat (s.pme p.toNat)) 0))).1.isSome,
       (s.tagLine p.toNat (s.galFor (s.blockChan (s.runOf p.toNat (s.pme p.toNat)) 0))).2)) →
    (known = false → Does (.promotionDone p) s (fun t => t = w)) ∧
    (known = true → w.galsDown (w.runOf p.toNat (w.pme p.toNat)) = [] → Does (.promotionDone p) s (fun t =>
      t.busy p.toNat = false ∧ (t.pme p.toNat).tier = 1 ∧ (t.pme p.toNat).loc = f ∧ (t.pme p.toNat).dirtyc = true)) ∧
    (known = true → w.galsDown (w.runOf p.toNat (w.pme p.toNat)) ≠ [] → Does (.promotionDone p) s (fun t =>
      t = w.forEach (w.galsDown (w.runOf p.toNat (w.pme p.toNat))) (fun s g => s.wakeDom (16 + g)) ∧
        t.busy p.toNat = true))) ∧
  (∀ (older rest : List MapReq) (r : MapReq) (f : Nat) (s : State), s.stage = .running → s.map.reqs = older ++ r :: rest →
    (∀ x ∈ older, x.st = .held → ∀ g, s.frameSrc (x.line / 64) ≠ .frame g) → r.st = .held →
    s.frameSrc (r.line / 64) = .frame f → Does .heldWriteResume s (fun t =>
      t = ((s.sub F.MAP_HOLD_HELD 1).during (s.txnOfReq r) (fun s => s.writeWithFrame r f)).serveQueues ∧
      ((s.pme (r.line / 64)).tier = 0 → s.keyUp r.slot = true →
        (t.pme (r.line / 64)).tier = 1 ∧ (t.pme (r.line / 64)).loc = f ∧ (t.pme (r.line / 64)).key = r.slot))) ∧
  (∀ s : State, s.stage = .running → (∀ r ∈ s.map.reqs, r.st = .held → ∀ g, s.frameSrc (r.line / 64) ≠ .frame g) →
    Does .heldWriteResume s (fun t => t = s)) ∧
  (∀ (h : Fin 16) (tt : BitVec 8) (r : MapReq) (s : State), s.stage = .running →
    s.mapReq h tt.toNat true = some r → r.st = .held →
    (s.tierPaused = true → Does (.holdExpire h tt) s (fun t => t = s)) ∧
    (s.tierPaused = false → (∀ g, s.frameSrc (r.line / 64) ≠ .frame g) →
      Does (.holdExpire h tt) s (fun t => ∃ u : State,
        t = (((u.dropLine r.line).failEvent r.agent r.line 3 2).setReq r .served).serveQueues ∧
        u.rd F.MAP_HOLD_STAT_EXPIRED = min (s.rd F.MAP_HOLD_STAT_EXPIRED + 1) (2 ^ F.MAP_HOLD_STAT_EXPIRED.width - 1) ∧ u.rd F.MAP_HOLD_HELD = s.rd F.MAP_HOLD_HELD - 1 ∧
        u.rd F.MAP_IRQ_EXPIRE = 1 ∧ SameStore s u))) ∧
  (∀ s : State, s.stage = .running → Does .hallGrantTick s (fun t => t.regs = s.regs ∧ t.mem = s.mem ∧
    t.map.reqs = s.map.reqs ∧ t.map.pmes = s.map.pmes ∧ t.map.chunks = s.map.chunks ∧
    (s.map.reqs.any (fun r => r.st == .held) = false → t = s) ∧ (∀ x ∈ s.map.zeroing, x ∈ t.map.zeroing) ∧
    (∀ k c, s.heldSets = [k] → s.grantOf (.hall k) = some c → t.map.zeroing = s.map.zeroing ++ [(c, k)]))) ∧
  (∀ (k : Fin 32) (s : State) (cl : Claim), s.stage = .running →
    cl ∈ (if k.val < 4 then [.hall k] else ((s.map.groups.find? (fun g => 16 + g.idx == k.val)).map .heap).toList) →
    s.rd F.MAP_POOL_F_F 0 k < s.rd F.MAP_POOL_WATER_LOW_WATER 0 k →
    (s.tierPaused = true → Does (.poolLowTick k) s (fun t => t = s)) ∧
    (∀ c, s.tierPaused = false → s.grantOf cl = some c → Does (.poolLowTick k) s (fun t =>
      t.map.zeroing = s.map.zeroing ++ [(c, k.val)] ∧ t.regs = s.regs ∧ t.mem = s.mem)) ∧
    (s.tierPaused = false → s.grantOf cl = none → Does (.poolLowTick k) s (fun t => t.map = s.map ∧ t.rd F.MAP_IRQ_LOW = 1 ∧
      t.rdBit F.MAP_IRQ_POOLS k = true ∧
      (s.rd F.MAP_POOL_F_F 0 k < s.rd F.MAP_POOL_CRIT_CRIT_WATER 0 k → t.rd F.MAP_IRQ_CRIT = 1)))) ∧
  (∀ (c : BitVec 32) (pool : Nat) (s : State), s.stage = .running →
    s.map.zeroing.find? (fun x => x.1 == c.toNat) = some (c.toNat, pool) → Does (.chunkZeroDone c) s (fun t =>
      ∃ u : State, t = ((u.forEach (u.map.reqs.filter (fun r => r.st == .grantWait &&
          (u.frameSets (r.line / 64)).contains pool)) (fun s r =>
            s.during (s.txnOfReq r) (fun s => s.serveFrame r))).serveQueues).trim pool ∧
        u.map.zeroing = s.map.zeroing.filter (fun x => x.1 != c.toNat) ∧ u.map.reqs = s.map.reqs ∧
        u.chunk c.toNat = { state := if pool < 4 then ckHALL else if pool < 32 then ckHELD else ckTWIN, pool := pool }))

/-- MAP_PME_OP: reading and changing one page's entry, and the twin table's configuration. Rests on R87, R101, R112.
Where a clause touches them, these are the model's choices and no rule: log entry 20, DESIGN CHOICE, log entry 27,
DESIGN CHOICE. -/
def Obligations.PageAccess : Prop :=
  (∀ (who : Initiator) (age : BitVec 8) (s : State), Permitted s who 0xC00038 true →
    (s.rd F.MAP_PME_IDX_PAGE < s.secs.pages → s.lost (s.rd F.MAP_PME_IDX_PAGE) = false →
      Does (.pmeRead who age) s (fun t => t.rd F.MAP_PME_LO_PME = (s.pme (s.rd F.MAP_PME_IDX_PAGE)).word % 2 ^ 64 ∧
        t.rd F.MAP_PME_HI_PME = (s.pme (s.rd F.MAP_PME_IDX_PAGE)).word / 2 ^ 64 % 2 ^ 64 ∧
        t.rd F.MAP_PME_OP_DONE = 1 ∧ t.rd F.MAP_PME_OP_RESULT = 0 ∧ ∀ p, t.pme p = s.pme p) ∧
      Does (.pmeSetPin who age) s (fun t => ∀ p, t.pme p =
        if p = s.rd F.MAP_PME_IDX_PAGE then { s.pme p with pin := true } else s.pme p) ∧
      Does (.pmeClearPin who age) s (fun t => ∀ p, t.pme p =
        if p = s.rd F.MAP_PME_IDX_PAGE then { s.pme p with pin := false } else s.pme p) ∧
      Does (.pmeSetPoison who age) s (fun t => ∀ p, t.pme p =
        if p = s.rd F.MAP_PME_IDX_PAGE then { s.pme p with poison := true } else s.pme p) ∧
      Does (.pmeWriteAge who age) s (fun t => ∀ p, t.pme p =
        if p = s.rd F.MAP_PME_IDX_PAGE then { s.pme p with age := age.toNat } else s.pme p)) ∧
    (∀ c ∈ [Instr.pmeRead who age, .pmeSetPin who age, .pmeClearPin who age, .pmeSetPoison who age, .pmeWriteAge who age],
      (s.secs.pages ≤ s.rd F.MAP_PME_IDX_PAGE → Does c s (fun t => t.rd F.MAP_PME_OP_DONE = 1 ∧
        t.rd F.MAP_PME_OP_RESULT = 1 ∧ SameStore s t)) ∧
      (s.rd F.MAP_PME_IDX_PAGE < s.secs.pages → s.lost (s.rd F.MAP_PME_IDX_PAGE) = true → Does c s (fun t =>
        t.rd F.MAP_PME_OP_DONE = 1 ∧ t.rd F.MAP_PME_OP_RESULT = 2 ∧ t.map = s.map ∧ t.mem = s.mem)))) ∧
  (∀ (who : Initiator) (v : BitVec 64) (s : State), Permitted s who 0xC00050 true →
    Does (.twinCfgWrite who v) s (fun t =>
      (t = ((s.dropHalves who 0xC00050).wr F.MAP_TWIN_CFG_EN (F.MAP_TWIN_CFG_EN.of v.toNat)).twinChunks
        (F.MAP_TWIN_CFG_CHUNKS.of v.toNat)) ∧
      (s.on F.MAP_TIERCNT_PAGES 0 5 = true → t.map = s.map ∧ t.rd F.MAP_TWIN_CFG_EN = F.MAP_TWIN_CFG_EN.of v.toNat)))

/-- Key programming requests: LOAD, RETIRE, ERASE, their refusals, and the end of an ERASE. Rests on R134, R149, R150,
R151. Where a clause touches them, these are the model's choices and no rule: log entry 90, DESIGN CHOICE, log entry
107, DEDUCED. -/
def Obligations.KeyProgramming : Prop :=
  (∀ (who : Initiator) (id : BitVec 32) (req : Bytes) (s : State), s.stage = .running →
    (s.vdmBusy = true → ∀ c ∈ [(1, Instr.keyLoad who id req), (2, .keyRetire who id req), (3, .keyErase who id req)],
      Does c.2 s (fun t => t = { s with keyReqs := s.keyReqs ++ [⟨who, id.toNat, c.1, req, true⟩] })) ∧
    (s.vdmBusy = false →
    (s.keyResult who id.toNat 1 req = keyOK → Does (.keyLoad who id req) s (fun t =>
      (t.keySlot (byteAt req 1)).cur = reqMat req ∧ t.rd F.KEY_SLOT_STATE_STATE 0 (byteAt req 1) = 1 ∧
      t.rd F.KEY_SLOT_STATE_GEN 0 (byteAt req 1) = (s.rd F.KEY_SLOT_STATE_GEN 0 (byteAt req 1) + 1) % 256 ∧
      t.rd F.KEY_STATUS_LAST_RESULT = 0 ∧ t.rd F.KEY_IRQ_PROG = 1 ∧ t.mem = s.mem ∧ t.map = s.map ∧
      (∀ n, n ≠ byteAt req 1 → t.keySlot n = s.keySlot n))) ∧
    (s.keyResult who id.toNat 2 req = keyOK → Does (.keyRetire who id req) s (fun t =>
      (t.keySlot (byteAt req 1)).cur = reqMat req ∧ (t.keySlot (byteAt req 1)).prev = (s.keySlot (byteAt req 1)).cur ∧
      t.rd F.KEY_SLOT_STATE_STATE 0 (byteAt req 1) = 2 ∧ t.rd F.KEY_SLOT_PCURSOR_PCURSOR 0 (byteAt req 1) = 0 ∧
      t.rd F.KEY_SLOT_TCURSOR_TCURSOR 0 (byteAt req 1) = 0 ∧
      t.rd F.KEY_SLOT_STATE_GEN 0 (byteAt req 1) = (s.rd F.KEY_SLOT_STATE_GEN 0 (byteAt req 1) + 1) % 256 ∧
      t.mem = s.mem ∧ t.map = s.map ∧ (∀ n, n ≠ byteAt req 1 → t.keySlot n = s.keySlot n))) ∧
    (s.keyResult who id.toNat 3 req = keyOK → Does (.keyErase who id req) s (fun t =>
      t.keySlot (byteAt req 1) = { s.keySlot (byteAt req 1) with erasing := true } ∧ t.keyUp (byteAt req 1) = false ∧
      t.mem = s.mem ∧ t.map = s.map ∧ (∀ n, n ≠ byteAt req 1 → t.keySlot n = s.keySlot n))) ∧
    (∀ c ∈ [(1, Instr.keyLoad who id req), (2, .keyRetire who id req), (3, .keyErase who id req)],
      s.keyResult who id.toNat c.1 req ≠ keyOK → Does c.2 s (fun t => t.keys = s.keys ∧
        t.rd F.KEY_ERR_PROG_REFUSED = min (s.rd F.KEY_ERR_PROG_REFUSED + 1) (2 ^ F.KEY_ERR_PROG_REFUSED.width - 1) ∧ t.rd F.KEY_STATUS_LAST_RESULT = s.keyResult who id.toNat c.1 req ∧
        t.rd F.KEY_IRQ_PROG = 1 ∧ (∀ n, t.rd F.KEY_SLOT_STATE_STATE 0 n = s.rd F.KEY_SLOT_STATE_STATE 0 n))))) ∧
  (∀ (n : Fin 256) (s : State), s.stage = .running → (s.keySlot n).erasing = true →
    (s.keyInUse n = true → Does (.keyEraseDone n) s (fun t => t = s)) ∧
    (s.keyInUse n = false → Does (.keyEraseDone n) s (fun t => ∃ u : State, t = State.vdmPump s.keyReqs u ∧
      (s.keyReqs = [] → t = u) ∧ u.keySlot n = {} ∧ u.rd F.KEY_SLOT_STATE_STATE 0 n = 0 ∧ u.keyUp n = false ∧
      u.mem = s.mem ∧ u.map = s.map ∧ (∀ m, m ≠ n.val → u.keySlot m = s.keySlot m)))) ∧
  (∀ (who : Initiator) (id : Nat) (req : Bytes) (s : State) (op : Nat), s.ownerSession who id = false →
    s.keyResult who id op req = keyNotOwner)

/-- A write that makes a region entry valid takes effect only if its checks pass. Rests on R138, Table 6-9. Where a
clause touches them, these are the model's choices and no rule: log entry 90, DESIGN CHOICE. -/
def Obligations.RegionTable : Prop :=
  ∀ (who : Initiator) (n : Fin 1024) (v : BitVec 64) (s : State), Permitted s who (F.KEY_REG_CFG_VALID.addr 0 n) true →
    (s.isOwner who = false → Does (.regionEnable who n v) s (fun t => t.regs = s.regs ∧ SameStore s t)) ∧
    (s.isOwner who = true → v.toNat.testBit 63 = true → s.regionOk n (min 2 (F.KEY_REG_CFG_INTEG.of v.toNat)) = false →
      Does (.regionEnable who n v) s (fun t => t.rd F.KEY_ERR_REGION_REJECT = min (s.rd F.KEY_ERR_REGION_REJECT + 1) (2 ^ F.KEY_ERR_REGION_REJECT.width - 1) ∧
        (∀ m, t.rd F.KEY_REG_CFG_VALID 0 m = s.rd F.KEY_REG_CFG_VALID 0 m ∧
          t.rd F.KEY_REG_CFG_SLOT 0 m = s.rd F.KEY_REG_CFG_SLOT 0 m) ∧ SameStore s t)) ∧
    (s.isOwner who = true → (v.toNat.testBit 63 = true → s.regionOk n (min 2 (F.KEY_REG_CFG_INTEG.of v.toNat)) = true) →
      Does (.regionEnable who n v) s (fun t => SameStore s t ∧ t.regs = (s.written who (F.KEY_REG_CFG_VALID.addr 0 n)
        (setBits v.toNat 10 9 (min 2 (F.KEY_REG_CFG_INTEG.of v.toNat)))).regs))

/-- Requests that reach a home: lines that no directory entry lists, lines that are busy, and ways. Rests on R158,
R159, R166, R168, R195, Table 7-5. Where a clause touches them, these are the model's choices and no rule: log entry
11, DESIGN CHOICE, log entry 91, DESIGN CHOICE. -/
def Obligations.HomeRequests : Prop :=
  (∀ (m : CohMsg) (e : Nat) (s w : State),
    (∀ c ∈ [(opRdNC, m, Instr.rdnc m), (opRdS, { m with noalloc := true }, .rds { m with noalloc := true })],
      HomeFree s w c.1 c.2.1 e → w.dirFind m.line.toNat = none →
      Does c.2.2 s (fun t => (∃ x, t.tt (homeOf m.line.toNat) e = some x ∧ x.memOut = true ∧ x.plan = .copy ∧
          x.msg.src = m.src ∧ x.msg.line = m.line) ∧
        (∃ q, t.map.reqs = w.map.reqs ++ [q] ∧ q.home = homeOf m.line.toNat ∧ q.tt = e ∧ q.write = false ∧
          q.line = m.line.toNat ∧ q.agent = m.src.toNat) ∧ t.mem = s.mem ∧ t.out = w.out)) ∧
    (∀ v, m.noalloc = false → w.freeWay (homeOf m.line.toNat) m.line.toNat = some v →
      (w.dirEnt m.line.toNat v).sharers = 0 → w.dirFind m.line.toNat = none →
      (w.tts (homeOf m.line.toNat)).all (fun x => !(x.2.st == .alloc && lineSet x.2.line == lineSet m.line.toNat)) = true →
      ∀ c ∈ [(opRdS, Instr.rds m), (opRdO, .rdo m), (opUpg, .upg m)], HomeFree s w c.1 m e → Does c.2 s (fun t =>
        (∃ x, t.tt (homeOf m.line.toNat) e = some x ∧ x.memOut = true ∧ x.way = some v ∧ x.msg = m) ∧
        (∃ q, t.map.reqs = w.map.reqs ++ [q] ∧ q.home = homeOf m.line.toNat ∧ q.tt = e ∧ q.write = false ∧
          q.line = m.line.toNat) ∧ t.mem = s.mem ∧ t.out = w.out)) ∧
    (HomeFree s w opEvC m e → w.dirFind m.line.toNat = none → m.src.toNat < 81 → Does (.evc m) s (fun t =>
      t.coh.tt = w.coh.tt ∧ t.coh.dir = w.coh.dir ∧ t.mem = s.mem ∧
      t.coh.flight = w.coh.flight ++ [⟨opAck, .agent m.src.toNat,
        { line := m.line, slot := m.slot, htag := BitVec.ofNat 8 e, rtag := m.rtag }⟩])) ∧
    (∀ v, HomeFree s w opWbD m e → w.dirFind m.line.toNat = none →
      w.wdbOf (homeOf m.line.toNat) m.src.toNat m.line.toNat = some v → v.absorbed = false → m.noown = true →
      Does (.wbd m) s (fun t => (∃ x, t.tt (homeOf m.line.toNat) e = some x ∧ x.plan = .wbNo ∧ x.wrOut = true) ∧
        (∃ q, t.map.reqs = w.map.reqs ++ [q] ∧ q.write = true ∧ q.line = m.line.toNat ∧ q.data = v.wd.data ∧
          q.mask = m.mask ∧ q.poison = v.wd.poison) ∧ t.mem = s.mem ∧ t.out = w.out))) ∧
  (∀ (m : CohMsg) (s w : State), s.stage = .running → m.src.toNat < 96 → m.slot.toNat = s.slot →
    (m.src.toNat < 64 → (w.ld m.src.toNat).conflicts.contains (m.slot.toNat, m.line.toNat) = false) →
    ∀ c ∈ [(opRdS, Instr.rds m), (opRdO, .rdo m), (opUpg, .upg m), (opWbD, .wbd m), (opEvC, .evc m), (opRdNC, .rdnc m)],
      (s.homeAccepts (homeOf m.line.toNat) = true → Brought s ⟨c.1, .home, m⟩ w →
        w.domHolds (homeOf m.line.toNat) 0 = false → w.lineBusy m.line.toNat = true → Does c.2 s (fun t =>
          (t.home (homeOf m.line.toNat)).confq = (w.home (homeOf m.line.toNat)).confq ++ [⟨c.1, .home, m⟩] ∧
          t.coh.tt = w.coh.tt ∧ t.map = w.map ∧ t.mem = s.mem)) ∧
      (s.homeAccepts (homeOf m.line.toNat) = false → s.domHolds (homeOf m.line.toNat) 0 = false →
        Does c.2 s (fun t => t = s))) ∧
  (∀ (h : Fin 16) (set : BitVec 13) (s : State), s.stage = .running →
    (s.allocOldest h set.toNat = none → s.pfAllocOldest h set.toNat = none → Does (.wayEligible h set) s (fun t => t = s)) ∧
    (∀ k x u, (s.tts h).filter (fun x => x.2.st == .alloc && lineSet x.2.line == set.toNat) = [(k, x)] →
      u = (s.takeWay h (k % 256) x false).tryClose h (k % 256) → u.pfAllocOldest h set.toNat = none →
      Does (.wayEligible h set) s (fun t => t = u)) ∧
    (∀ x f, s.allocOldest h set.toNat = none → s.pfAllocOldest h set.toNat = some x → x.req = some f →
      Does (.wayEligible h set) s (fun t => t = (s.pfAlloc x f false).pfNextQueued)))

/-- Snoop answers, data, memory data, acceptance and lock time-outs at a home. Rests on R94, R170, R171, R173, R174,
R175. Where a clause touches them, these are the model's choices and no rule: log entry 39, DEDUCED. -/
def Obligations.HomeAnswers : Prop :=
  (∀ (m : CohMsg) (x y : TT) (s w : State), s.stage = .running → m.slot.toNat = s.slot →
    w.domHolds (homeOf m.line.toNat) 2 = false → w.tt (homeOf m.line.toNat) m.htag.toNat = some x → x.st = .snp →
    x.await.contains m.src.toNat = true → x.line = m.line.toNat → y = { x with await := x.await.filter (· != m.src.toNat) } →
    (x.plan ≠ .forward → ∀ c ∈ [(opRspI, Instr.rspi m), (opRspS, .rsps m), (opRspF, .rspf m)], Brought s ⟨c.1, .home, m⟩ w →
      Does c.2 s (fun t => t = ((w.noteAnswer y m.src.toNat c.1).settle (homeOf m.line.toNat) m.htag.toNat y).tryClose
        (homeOf m.line.toNat) m.htag.toNat)) ∧
    (x.plan = .forward → ∀ c ∈ [(opRspS, Instr.rsps m), (opRspF, .rspf m)], Brought s ⟨c.1, .home, m⟩ w →
      Does c.2 s (fun t => t = (w.noteAnswer y m.src.toNat c.1).forwarded (homeOf m.line.toNat) m.htag.toNat y c.1)) ∧
    (w.wdbOf (homeOf m.line.toNat) m.src.toNat m.line.toNat = none → x.dm = none → x.sent = false →
      Brought s ⟨opRspX, .home, m⟩ w →
      Does (.rspx m) s (fun t => (t.tt (homeOf m.line.toNat) m.htag.toNat).map (·.crossed) = some (x.crossed ++ [m.src.toNat]) ∧
        t.mem = s.mem ∧ t.map = w.map))) ∧
  (∀ (m : CohMsg) (s w : State), s.stage = .running → m.slot.toNat = s.slot → w.domHolds (homeOf m.line.toNat) 2 = false →
    w.tt (homeOf m.line.toNat) m.htag.toNat = none →
    ∀ c ∈ [(opRspI, Instr.rspi m), (opRspS, .rsps m), (opRspF, .rspf m), (opRspX, .rspx m)],
      Brought s ⟨c.1, .home, m⟩ w → Does c.2 s (fun t =>
        t.rd F.HOM_ERR_PROTO (homeOf m.line.toNat) = min (w.rd F.HOM_ERR_PROTO (homeOf m.line.toNat) + 1) (2 ^ F.HOM_ERR_PROTO.width - 1) ∧ t.rd F.HOM_IRQ_PROTO (homeOf m.line.toNat) = 1 ∧
        t.rd F.HOM_LAST_PE_SRC (homeOf m.line.toNat) = m.src.toNat ∧ t.rd F.HOM_LAST_PE_OPC (homeOf m.line.toNat) = c.1 ∧
        t.rd F.HOM_LAST_PE_LINE (homeOf m.line.toNat) = m.line.toNat ∧ t.coh.tt = w.coh.tt ∧ t.coh.dir = w.coh.dir ∧
        t.mem = s.mem)) ∧
  (∀ (m : CohMsg) (s w : State), s.stage = .running →
    (Brought s ⟨opDataM, .home, m⟩ w → w.domHolds (homeOf m.line.toNat) 3 = false → m.slot.toNat = s.slot →
      (∀ r ∈ w.reqs, ¬(r.ld = m.src.toNat ∧ r.opc = opDataM ∧ r.line = m.line.toNat)) → w.lineBusy m.line.toNat = false →
      w.wbdComing (homeOf m.line.toNat) m.src.toNat m.line.toNat = true → Does (.datam ⟨none, m⟩) s (fun t =>
        (t.home (homeOf m.line.toNat)).wdb = (w.home (homeOf m.line.toNat)).wdb ++
          [⟨m.src.toNat, m.line.toNat, ⟨m.data, m.mask, m.poison⟩, false⟩] ∧ t.coh.tt = w.coh.tt ∧ t.mem = s.mem)) ∧
    (∀ a : Fin 96, Brought s ⟨opDataM, .agent a, m⟩ w → caches a = true → (a.val < 80 → w.domHolds (a.val - 48) 3 = false) →
      Does (.datam ⟨some a, m⟩) s (fun t => t.coh = w.coh ∧ t.mem = s.mem ∧ t.out = w.out ∧
        (t.ras.getLast?.map (fun r => (r.cls, r.sev))) = some (0x10, 1)))) ∧
  (∀ (h : Fin 16) (e : BitVec 8) (x : TT) (r : MapReq) (s : State), s.stage = .running → s.tt h e.toNat = some x →
    (x.memOut = true → s.mapReq h e.toNat false = some r → r.st = .served →
      (x.st ≠ .wb → r.got.isSome = true ∨ s.sleepers (s.readMas x.line) = [] ∧ s.blockHeld x.line = none →
        s.tagOnRead (x.line / 64) = false ∨ s.lost (x.line / 64) = true → Does (.memoryData h e) s (fun t =>
          ∃ d, d = (s.dropReq r).takeLine x.line x.req r.got ([], true) ∧ t = ((d.2.readDone h e.toNat).settle h e.toNat
            { x with memOut := false, mem := some (lineOfBytes d.1.1, d.1.2) }).tryClose h e.toNat)) ∧
      (x.st ≠ .wb → r.got = none → s.sleepers (s.readMas x.line) ≠ [] → Does (.memoryData h e) s (fun t =>
        t = s.rouseAll (s.sleepers (s.readMas x.line)))) ∧
      (x.st = .wb → Does (.memoryData h e) s (fun t =>
        t = (((s.dropReq r).readDone h e.toNat).setTT h e.toNat { x with memOut := false }).tryClose h e.toNat))) ∧
    (∀ w, x.wrOut = true → s.mapReq h e.toNat true = some r → r.st = .served → s.bring (wdoneFlight r) = (true, w) →
      (x.plan = .copy → x.wd = none) → Does (.wdone h e) s (fun t => ∃ u : State,
        t = (u.setTT h e.toNat { x with wrOut := false, sent := x.sent || x.plan == .wbOwn || x.plan == .wbNo }).tryClose
          h e.toNat ∧ u.map.reqs = (w.dropReq r).map.reqs ∧ u.mem = s.mem)) ∧
    (x.lockAt ≠ none → Does (.lockTimeout h e) s (fun t => ∃ u : State,
      t = (u.setTT h e.toNat { x with lockAt := none }).tryClose h e.toNat ∧ u.rd F.HOM_ERR_LOCK_TMO h = min (s.rd F.HOM_ERR_LOCK_TMO h + 1) (2 ^ F.HOM_ERR_LOCK_TMO.width - 1) ∧
      u.rd F.HOM_IRQ_LOCK_TMO h = 1 ∧ u.coh = s.coh ∧
      (u.ras.getLast?.map (fun r => (r.cls, r.sev, r.blk, r.inst, r.addr))) = some (0x12, 1, rasHOM, h.val, x.line % 2 ^ 64))))

/-- Snoops at a caching agent (Table 7-8), at an LD's port and at a peer proxy. Rests on R64, R66, R171, R175, R177,
Table 7-8. Where a clause touches them, these are the model's choices and no rule: log entry 39, DEDUCED, log entry
111, DESIGN CHOICE, log entry 113, DEDUCED. -/
def Obligations.AgentSnoops : Prop :=
  (∀ (a : Fin 96) (m : CohMsg) (s w : State), s.stage = .running → 64 ≤ a.val → a.val < 81 →
    (a.val < 80 → w.domHolds (a.val - 48) 1 = false) →
    (∀ sl ln x, sl = m.slot.toNat → ln = m.line.toNat → x = w.agLine a sl ln →
      (x.st = .m → (Brought s ⟨opSnpI, .agent a, m⟩ w → Does (.snpi a m) s (fun t => (t.agLine a sl ln).st = .i ∧
          t.mem = s.mem ∧ t.coh.flight = w.coh.flight ++
            [⟨opDataM, .home, { agMsg a m with data := x.data, poison := x.poison, write := true, mask := BitVec.allOnes 64 }⟩,
             ⟨opRspI, .home, agMsg a m⟩])) ∧
        (Brought s ⟨opSnpS, .agent a, m⟩ w → Does (.snps a m) s (fun t => (t.agLine a sl ln).st = .s ∧ t.mem = s.mem ∧
          t.coh.flight = w.coh.flight ++
            [⟨opDataM, .home, { agMsg a m with data := x.data, poison := x.poison, write := true, mask := BitVec.allOnes 64 }⟩,
             ⟨opRspS, .home, agMsg a m⟩])) ∧
        (m.fwd = false → Brought s ⟨opSnpF, .agent a, m⟩ w → Does (.snpf a m) s (fun t => (t.agLine a sl ln).st = .e ∧
          t.mem = s.mem ∧ t.coh.flight = w.coh.flight ++
            [⟨opDataM, .home, { agMsg a m with data := x.data, poison := x.poison, write := true, mask := BitVec.allOnes 64 }⟩,
             ⟨opRspF, .home, agMsg a m⟩]))) ∧
      (x.st = .e → (Brought s ⟨opSnpS, .agent a, m⟩ w → Does (.snps a m) s (fun t => (t.agLine a sl ln).st = .s ∧
          t.coh.flight = w.coh.flight ++ [⟨opRspS, .home, agMsg a m⟩])) ∧
        (m.fwd = false → Brought s ⟨opSnpF, .agent a, m⟩ w → Does (.snpf a m) s (fun t => (t.agLine a sl ln).st = .e ∧
          t.coh.flight = w.coh.flight ++ [⟨opRspF, .home, agMsg a m⟩]))) ∧
      (x.st = .e ∨ x.st = .s ∨ x.st = .f → Brought s ⟨opSnpI, .agent a, m⟩ w → Does (.snpi a m) s (fun t =>
        (t.agLine a sl ln).st = .i ∧ t.coh.flight = w.coh.flight ++ [⟨opRspI, .home, agMsg a m⟩])) ∧
      (x.st = .i → ∀ c ∈ [(opSnpS, Instr.snps a m), (opSnpI, .snpi a m), (opSnpF, .snpf a m)],
        Brought s ⟨c.1, .agent a, m⟩ w → Does c.2 s (fun t =>
          t.coh.lines = w.coh.lines ∧ t.coh.flight = w.coh.flight ++ [⟨opRspI, .home, agMsg a m⟩] ∧
          (t.ras.getLast?.map (fun r => (r.cls, r.sev))) = some (0x10, 1))))) ∧
  (∀ (a : Fin 96) (m : CohMsg) (s w : State) (mute : Bool), s.stage = .running → a.val < 64 →
    (∀ d, w.domOf ⟨opSnpI, .agent a, m⟩ = some d → w.domHolds d 1 = false) →
    w.reqs.any (fun r => r.ld == a.val && r.slot == m.slot.toNat && r.line == m.line.toNat && r.opc == opWbD && r.own) = false →
    mute = (w.secs.ldEntry a).any (fun e => w.on F.PRT_LINK_UP e.port && !w.on F.PRT_LINK_FLIT e.port) →
    ∀ c ∈ [(0, opSnpS, Instr.snps a m), (1, opSnpI, .snpi a m), (2, opSnpF, .snpf a m)], Brought s ⟨c.2.1, .agent a, m⟩ w →
      (mute = false → Does c.2.2 s (fun t => t.out = w.out ++ [.bisnp a c.1 m.line.toNat] ∧ t.mem = s.mem ∧
        (t.ld a).bisnp = (w.ld a).bisnp ++ [⟨m.line.toNat, c.2.1, m.slot.toNat, m.htag.toNat⟩])) ∧
      (mute = true → Does c.2.2 s (fun t => t.hosts = w.hosts ∧ t.out = w.out ∧ t.mem = s.mem ∧
        t.coh.flight = w.coh.flight ++ [⟨opRspI, .home,
          { src := BitVec.ofNat 7 a, line := m.line, slot := m.slot, htag := m.htag }⟩]))) ∧
  (∀ (a : Fin 96) (m : CohMsg) (s w : State), s.stage = .running → 81 ≤ a.val →
    ∀ c ∈ [(opSnpS, Instr.snps a m), (opSnpI, .snpi a m), (opSnpF, .snpf a m)], Brought s ⟨c.1, .agent a, m⟩ w →
      Does c.2 s (fun t => t = w.toMember (proxySlot w.slot a) ⟨c.1, .agent a, m⟩))

/-- An answer of a home completes the host request that it answers. Rests on R58, R63, R170, R171. Where a clause
touches them, these are the model's choices and no rule: log entry 18, DESIGN CHOICE, log entry 105, DESIGN CHOICE. -/
def Obligations.HostCompletions : Prop :=
  (∀ (a : Fin 96) (m : CohMsg) (r : HostReq) (e : LdEntry) (s w : State), s.stage = .running → a.val < 64 →
    (∀ d, w.domOf ⟨opData, .agent a, m⟩ = some d → w.domHolds d 2 = false ∧ w.domHolds d 3 = false) →
    w.reqs.find? (fun r => r.ld == a.val && r.rtag == m.rtag.toNat && r.line == m.line.toNat && r.slot == m.slot.toNat) =
      some r → w.m2s.any (fun x => x.ld.val == a.val) = false → (w.ld a).conflicts = [] → w.secs.ldEntry r.ld = some e →
    w.on F.PRT_LINK_UP e.port = true →
    ∀ c ∈ [(opData, 3, Instr.data (some a) m), (opDataE, 3, .datae (some a) m), (opCmp, 0, .cmp (some a) m),
      (opCmpE, 1, .cmpe (some a) m), (opAck, 0, .ack (some a) m)], Brought s ⟨c.1, .agent a, m⟩ w →
      Does c.2.2 s (fun t => t.reqs = w.reqs.erase r ∧ t.mem = s.mem ∧ t.map = w.map ∧ t.coh.flight = w.coh.flight ∧
        ∃ load, t.out = w.out ++ [.s2m r.ld r.tag c.2.1 m.data m.poison load])) ∧
  (∀ (m : CohMsg) (s w : State), s.stage = .running → w.domHolds (homeOf m.line.toNat) 2 = false →
    w.domHolds (homeOf m.line.toNat) 3 = false →
    ∀ c ∈ [(opData, Instr.data none m), (opDataE, .datae none m), (opCmp, .cmp none m), (opCmpE, .cmpe none m),
      (opAck, .ack none m)], Brought s ⟨c.1, .home, m⟩ w → Does c.2 s (fun t =>
        t.rd F.HOM_ERR_PROTO (homeOf m.line.toNat) = min (w.rd F.HOM_ERR_PROTO (homeOf m.line.toNat) + 1) (2 ^ F.HOM_ERR_PROTO.width - 1) ∧ t.rd F.HOM_LAST_PE_OPC (homeOf m.line.toNat) = c.1 ∧
        t.coh.tt = w.coh.tt ∧ t.mem = s.mem))

/-- Loads, stores and evictions of caching agents, and the directory read. Rests on R160, R171, R181, R183, R237,
R391, Table 7-8. Where a clause touches them, these are the model's choices and no rule: log entry 33, DESIGN CHOICE,
log entry 132, DESIGN CHOICE. -/
def Obligations.AgentAccesses : Prop :=
  (∀ (a : Fin 96) (m0 m : CohMsg) (s : State), s.stage = .running → caches a = true → s.spanMsg m0 = some m →
    ∀ sl ln x, sl = m.slot.toNat → ln = m.line.toNat → x = s.agLine a sl ln →
    (x.stalled = [] → s.dlaForbidden a .load = false → s.agReady a .load m = true →
      (x.st = .i → s.liteLine sl = false → Does (.load a m0) s (fun t => (t.agLine a sl ln).st = .isD ∧ t.mem = s.mem ∧
        t.coh.flight.getLast? = some ⟨opRdS, .home, { agMsg a m with htag := 0 }⟩)) ∧
      (x.st = .i → s.liteLine sl = true → Does (.load a m0) s (fun t => t.coh.lines = s.coh.lines ∧ t.mem = s.mem ∧
        t.coh.flight = s.coh.flight ++ [⟨opRdS, .home, { agMsg a m with htag := 0, rtag := liteTag, noalloc := true }⟩])) ∧
      (x.st.valid = true → Does (.load a m0) s (fun t => t.coh = s.coh ∧ t.mem = s.mem ∧ t.out = s.out))) ∧
    (x.stalled = [] → s.dlaForbidden a .store = false → s.agReady a .store m = true →
      (x.st = .m ∨ x.st = .e → Does (.store a m0) s (fun t => t.coh.flight = s.coh.flight ∧ t.mem = s.mem ∧
        t.agLine a sl ln = { x with st := .m, data := mergeMask x.data m.data m.mask })) ∧
      (x.st = .s ∨ x.st = .f → Does (.store a m0) s (fun t => t.mem = s.mem ∧
        t.agLine a sl ln = { x with st := if x.st = .s then .smA else .fmA, store := some (m.data, m.mask) } ∧
        t.coh.flight = s.coh.flight ++ [⟨opUpg, .home, { agMsg a m with htag := 0 }⟩])) ∧
      (x.st = .i → s.liteLine sl = false → Does (.store a m0) s (fun t => t.mem = s.mem ∧
        t.agLine a sl ln = { x with st := .imD, store := some (m.data, m.mask) } ∧
        t.coh.flight.getLast? = some ⟨opRdO, .home, { agMsg a m with htag := 0 }⟩)) ∧
      (x.st = .i → s.liteLine sl = true → Does (.store a m0) s (fun t => t.coh.lines = s.coh.lines ∧ t.mem = s.mem ∧
        t.spent a (homeOf ln) = s.spent a (homeOf ln) + 1 ∧ t.coh.flight = s.coh.flight ++
          [⟨opWbD, .home, { agMsg a m with htag := 0, rtag := liteTag, noown := true, mask := m.mask }⟩,
           ⟨opDataM, .home, { agMsg a m with htag := 0, data := m.data, mask := m.mask, write := true }⟩]))) ∧
    (x.stalled = [] → x.st = .m → s.spent a (homeOf ln) < 4 → Does (.evict a m0) s (fun t => t.mem = s.mem ∧
      (t.agLine a sl ln).st = .miA ∧ t.spent a (homeOf ln) = s.spent a (homeOf ln) + 1 ∧
      t.coh.flight = s.coh.flight ++ [⟨opWbD, .home, { agMsg a m with htag := 0, mask := BitVec.allOnes 64 }⟩,
        ⟨opDataM, .home, { agMsg a m with htag := 0, data := x.data, poison := x.poison, write := true, mask := BitVec.allOnes 64 }⟩])) ∧
    (x.stalled = [] → x.st = .e ∨ x.st = .s ∨ x.st = .f → Does (.evict a m0) s (fun t => t.mem = s.mem ∧
      (t.agLine a sl ln).st = (if x.st = .e then .eiA else if x.st = .s then .siA else .fiA) ∧
      t.coh.flight = s.coh.flight ++ [⟨opEvC, .home, { agMsg a m with htag := 0 }⟩])) ∧
    (∀ c ∈ [(AgOp.load, Instr.load a m0), (.store, .store a m0), (.evict, .evict a m0)], s.dlaForbidden a c.1 = false →
      x.stalled ≠ [] ∨ s.agReady a c.1 m = false → x.st ≠ .i → Does c.2 s (fun t => t.mem = s.mem ∧
        t.agLine a sl ln = { x with stalled := x.stalled ++ [(c.1, m)] } ∧ t.coh.flight = s.coh.flight))) ∧
  (∀ (m : CohMsg) (s : State), s.stage = .running → s.rd F.DBG_STATUS_LEVEL = 2 →
    ∀ c ∈ [(0, Instr.load 80 m), (1, .store 80 m)], Does c.2 s (fun t => SameStore s t ∧ t.out = s.out ∧
      t.rd F.SEC_VIOL_COUNT 0 64 = min (s.rd F.SEC_VIOL_COUNT 0 64 + 1) (2 ^ F.SEC_VIOL_COUNT.width - 1) ∧ t.rd F.SEC_VIOL_LAST_INITIATOR = 64 ∧ t.rd F.SEC_VIOL_LAST_WRITE = c.1 ∧
      t.rd F.SEC_IRQ_VIOL = 1)) ∧
  (∀ (who : Initiator) (h : Fin 16) (v : BitVec 64) (s : State), Permitted s who (F.HOM_DIR_OP_READ.addr h 0) true →
    v.toNat.testBit 0 = true → Does (.dirRead who h v) s (fun t => t.rd F.HOM_DIR_OP_DONE h = 1 ∧ t.coh = s.coh ∧
      t.mem = s.mem ∧ ∃ w, t.rd F.HOM_DIR_LO_ENTRY h = w % 2 ^ 64 ∧ t.rd F.HOM_DIR_HI_ENTRY h = w / 2 ^ 64 % 2 ^ 64 ∧
        w = if s.rd F.HOM_DIR_IDX_WAY h < s.dirWays
          then (smGet {} s.coh.dir (wayKey h (s.rd F.HOM_DIR_IDX_SET h) (s.rd F.HOM_DIR_IDX_WAY h))).word
          else (smGet {} s.coh.pf (wayKey h (s.rd F.HOM_DIR_IDX_SET h) (s.rd F.HOM_DIR_IDX_WAY h))).word))

/-- Counter selection, snapshots, and the sample ring. Rests on R330, R336, R337, R338, R339. Where a clause touches
them, these are the model's choices and no rule: log entry 69, DESIGN CHOICE, log entry 70, DESIGN CHOICE. -/
def Obligations.CountersAndSamples : Prop :=
  (∀ (who : Initiator) (u : Fin 64) (k : Fin 8) (v : BitVec 64) (s : State),
    Permitted s who (F.CNT_SEL_SAMPLE.addr u k) true → Does (.cntSelWrite who u k v) s (fun t => ∃ w : State,
      w = s.written who (F.CNT_SEL_SAMPLE.addr u k) v.toNat ∧ t = (w.fixSample u k).loadSampling u k ∧ t.mem = s.mem ∧
      (t.on F.CNT_SEL_SAMPLE u k = true → t.rd F.CNT_CTR_COUNT u k = (2 ^ 48 - w.rd F.CNT_PER_PERIOD u k) % 2 ^ 48) ∧
      (evSampled (w.rd F.CNT_SEL_EVENT u k) = false → t.rd F.CNT_SEL_SAMPLE u k = 0))) ∧
  (∀ (who : Initiator) (u : Fin 64) (k : Fin 8) (v : BitVec 64) (s : State),
    Permitted s who (F.CNT_PER_PERIOD.addr u k) true → Does (.cntPerWrite who u k v) s (fun t => ∃ w : State,
      w = s.written who (F.CNT_PER_PERIOD.addr u k) v.toNat ∧ t.mem = s.mem ∧
      t.rd F.CNT_PER_PERIOD u k = max 1024 (w.rd F.CNT_PER_PERIOD u k) % 2 ^ 48 ∧
      (t.rd F.CNT_PER_PERIOD u k ≠ s.rd F.CNT_PER_PERIOD u k → w.on F.CNT_SEL_SAMPLE u k = true →
        t.rd F.CNT_CTR_COUNT u k = (2 ^ 48 - t.rd F.CNT_PER_PERIOD u k) % 2 ^ 48))) ∧
  (∀ (who : Initiator) (s : State), Permitted s who (F.CNT_SNAP_CTL_NOW.addr 0 0) true → Does (.snapNow who) s (fun t =>
    t.rd F.CNT_SNAP_SEQ_SEQ = (s.rd F.CNT_SNAP_SEQ_SEQ + 1) % 2 ^ F.CNT_SNAP_SEQ_SEQ.width ∧
    t.rd F.CNT_SNAP_ST_ST = s.st % 2 ^ 64 ∧ t.rd F.CNT_IRQ_SNAP = 1 ∧ SameStore s t ∧ t.out = s.out)) ∧
  (∀ (who : Initiator) (v : BitVec 64) (s : State), Permitted s who (F.SMP_CTL_EN.addr 0 0) true → s.smp.buf = [] →
    s.smp.inAir = [] →
    Does (.smpFlush who v) s (fun t => t.smp.buf = [] ∧ t.smp.owed = 0 ∧ t.mem = s.mem ∧
      t.rd F.SMP_CTL_FLUSH_LVL = clamp 1 256 (F.SMP_CTL_FLUSH_LVL.of v.toNat)) ∧
    (s.rd F.SMP_CTL_EN = 0 → Does (.sampleRingEnable who v) s (fun t => t.rd F.SMP_CTL_EN = b2n s.smpOk ∧
      t.rd F.SMP_STAT_REJECT = b2n (!s.smpOk) ∧ (s.smpOk = true → t.rd F.SMP_PTR_WPTR = t.rd F.SMP_PTR_RPTR) ∧
      t.smp.frames = (if s.smpOk then s.smpPages.map (fun p => (p, (s.pme p).loc)) else s.smp.frames) ∧ t.mem = s.mem)) ∧
    Does (.sampleRingDisable who v) s (fun t => t.rd F.SMP_CTL_EN = 0 ∧ t.smp.frames = [] ∧ t.mem = s.mem)) ∧
  (∀ (who : Initiator) (v : BitVec 64) (s : State), Permitted s who (F.SMP_PTR_RPTR.addr 0 0) true → s.smp.buf = [] →
    (s.rptrOk (F.SMP_PTR_RPTR.of v.toNat) = true → Does (.rptrWrite who v) s (fun t =>
      t.rd F.SMP_PTR_RPTR = F.SMP_PTR_RPTR.of v.toNat ∧ t.rd F.SMP_PTR_WPTR = s.rd F.SMP_PTR_WPTR ∧ t.mem = s.mem)) ∧
    (s.rptrOk (F.SMP_PTR_RPTR.of v.toNat) = false → Does (.rptrWrite who v) s (fun t => t.regs = s.regs ∧ t.mem = s.mem))) ∧
  (∀ (seq : Nat) (r : Bytes) (rest : List (Nat × Bytes)) (s : State), s.stage = .running → s.smp.buf = [] →
    s.smp.inAir = (seq, r) :: rest →
    (s.smpWaits seq = false → Does .sampleWriteDone s (fun t => t.smp.inAir = rest ∧
      t.rd F.SMP_PTR_WPTR = (seq + 1) % 2 ^ 32 ∧ t.map = s.map ∧ t.coh = s.coh)) ∧
    (s.smpWaits seq = true → Does .sampleWriteDone s (fun t => t.smp = s.smp ∧ SameStore s t ∧
      t.rd F.SMP_PTR_WPTR = s.rd F.SMP_PTR_WPTR)))

/-- Faults of flits and links on the torus, detours, the misroute sink and ERR. Rests on R187, R188, R189, R190, R196,
R197, R198, R199, R200, R201, R202. Where a clause touches them, these are the model's choices and no rule: log entry
11, DESIGN CHOICE, log entry 45, DEDUCED, log entry 46, DESIGN CHOICE, log entry 114, DESIGN CHOICE, log entry 115,
DESIGN CHOICE, log entry 117, DEDUCED. -/
def Obligations.TorusFaults : Prop :=
  (∀ (r : Fin 32) (d : Fin 4) (p : NocMsg) (flit : BitVec 4) (flips : BitVec 576) (s : State), s.stage = .running →
    (∀ q x : Pkt, s.pktOf (nocFlight p) = some q → s.reachHop 20 q (neighbour r d) (backLink d) = some x →
      (x.check flit.toNat flips.toNat = .failed ∨
        (s.rd F.NOC_CTL_PERHOP_ECC = 1 ∧ ∃ n, x.check flit.toNat flips.toNat = .double n)) →
      s.rdBit F.NOC_RTR_STAT_FAILED d 0 r = false →
      (x.retries ≠ 4 → Does (.nack r d p ⟨flit, flips⟩) s (fun t =>
        t.rd F.NOC_RTR_ERR_RETRY 0 r = min (s.rd F.NOC_RTR_ERR_RETRY 0 r + 1) (2 ^ F.NOC_RTR_ERR_RETRY.width - 1) ∧ t.rd F.NOC_ERR_HDR_RETRY = min (s.rd F.NOC_ERR_HDR_RETRY + 1) (2 ^ F.NOC_ERR_HDR_RETRY.width - 1) ∧ SameStore s t ∧
        t.noc.pkts = putPkt { x with retries := x.retries + 1 } s.noc.pkts)) ∧
      (x.retries = 4 → Does (.nack r d p ⟨flit, flips⟩) s (fun t =>
        t.rdBit F.NOC_RTR_STAT_FAILED d 0 r = true ∧ t.rdBit F.NOC_RTR_STAT_FAILED (backLink d) 0 (neighbour r d) = true ∧
        t.rd F.NOC_IRQ_LINK_FAIL = 1 ∧ t.coh = s.coh ∧ t.mem = s.mem ∧ t.map = s.map))) ∧
    (opNet p.opc.toNat = 3 → flit.toNat ≠ 0 → s.rd F.NOC_CTL_PERHOP_ECC = 0 →
      (wordsBad flips.toNat = false → wordsCorrected flips.toNat ≠ 0 → Does (.nack r d p ⟨flit, flips⟩) s (fun t =>
        t.rd F.NOC_ERR_DAT_CE = min (s.rd F.NOC_ERR_DAT_CE + wordsCorrected flips.toNat) (2 ^ F.NOC_ERR_DAT_CE.width - 1) ∧ SameStore s t ∧ t.out = s.out)) ∧
      (wordsBad flips.toNat = true → Does (.nack r d p ⟨flit, flips⟩) s (fun t =>
        t.rd F.NOC_ERR_DAT_UE = min (s.rd F.NOC_ERR_DAT_UE + 1) (2 ^ F.NOC_ERR_DAT_UE.width - 1) ∧ t.rd F.NOC_IRQ_DAT_UE = 1 ∧ t.mem = s.mem ∧
        t.coh.flight = s.coh.flight.map (fun x => if x = nocFlight p then { x with msg := { x.msg with poison := true } } else x) ∧
        (t.ras.getLast?.map (fun x => (x.cls, x.sev, x.blk, x.addr))) = some (0x15, 1, rasNOC, p.m.line.toNat))))) ∧
  (∀ (r : Fin 32) (d : Fin 4) (s : State), s.stage = .running → s.rdBit F.NOC_RTR_STAT_FAILED d 0 r = false →
    Does (.nocLinkFail r d) s (fun t =>
      t.rdBit F.NOC_RTR_STAT_FAILED d 0 r = true ∧ t.rdBit F.NOC_RTR_STAT_FAILED (backLink d) 0 (neighbour r d) = true ∧
      t.rd F.NOC_IRQ_LINK_FAIL = 1 ∧ t.coh = s.coh ∧ t.mem = s.mem ∧ t.map = s.map ∧
      (t.ras.getLast?.map (fun x => (x.cls, x.sev, x.blk, x.addr))) = some (0x13, 2, rasNOC, r.val))) ∧
  (∀ (r : Fin 32) (d : Fin 4) (p : NocMsg) (s : State), s.stage = .running →
    (∀ q x : Pkt, s.pktOf (nocFlight p) = some q → s.reachHop 20 q r d = some x → s.failed r d = true →
      (x.detcnt = 0 → s.stale x = false → s.canDetour r d = true → Does (.detour ⟨r, d⟩ p) s (fun t =>
        t.rd F.NOC_RTR_ERR_DETOURED 0 r = min (s.rd F.NOC_RTR_ERR_DETOURED 0 r + 1) (2 ^ F.NOC_RTR_ERR_DETOURED.width - 1) ∧ (r.val, d.val) ∈ t.noc.detours ∧ t.mem = s.mem ∧ t.map = s.map ∧
        (x.epoch = s.rd F.NOC_EPOCH_CUR → t.coh = s.coh ∧
          ∃ y, t.pktOf (nocFlight p) = some y ∧ y.at_ = neighbour r d ∧ y.detcnt = 0))) ∧
      (x.detcnt = 0 → s.canDetour r d = false → p.opc.toNat ≠ opERR → Does (.detour ⟨r, d⟩ p) s (fun t =>
        t.coh.flight = s.coh.flight.erase (nocFlight p) ∧ t.noc.errs = s.noc.errs ++ [nocFlight p] ∧
        t.rd F.NOC_RTR_ERR_SINK 0 r = min (s.rd F.NOC_RTR_ERR_SINK 0 r + 1) (2 ^ F.NOC_RTR_ERR_SINK.width - 1) ∧ t.mem = s.mem ∧ t.map = s.map))) ∧
    (s.failed r d = false → Does (.detour ⟨r, d⟩ p) s (fun t => t = s))) ∧
  (∀ (r : Fin 32) (hdr : BitVec 64) (p : NocMsg) (s : State), s.stage = .running →
    (∀ q x : Pkt, s.pktOf (nocFlight p) = some q → s.reachSink 20 q r = some x →
      Does (.misrouteSink r hdr true p) s (fun t => t.coh.flight = s.coh.flight.erase (nocFlight p) ∧
        t.rd F.NOC_RTR_SINK_LAST_HDR 0 r = x.info % 2 ^ 64 ∧ t.rd F.NOC_RTR_ERR_SINK 0 r = min (s.rd F.NOC_RTR_ERR_SINK 0 r + 1) (2 ^ F.NOC_RTR_ERR_SINK.width - 1) ∧ t.rd F.NOC_ERR_SINK = min (s.rd F.NOC_ERR_SINK + 1) (2 ^ F.NOC_ERR_SINK.width - 1) ∧
        t.rd F.NOC_IRQ_SINK = 1 ∧ t.mem = s.mem ∧ (p.opc.toNat ≠ opERR → t.noc.errs = s.noc.errs ++ [nocFlight p]))) ∧
    ((s.pktOf (nocFlight p)).bind (fun q => s.reachSink 20 q r) = none →
      Does (.misrouteSink r hdr true p) s (fun t => t = s)) ∧
    ((∃ d < 4, s.failed r d = true) → Does (.misrouteSink r hdr false p) s (fun t =>
      t.coh.flight = s.coh.flight.erase (nocFlight p) ∧ t.rd F.NOC_RTR_SINK_LAST_HDR 0 r = hdr.toNat ∧
      t.rd F.NOC_RTR_ERR_SINK 0 r = min (s.rd F.NOC_RTR_ERR_SINK 0 r + 1) (2 ^ F.NOC_RTR_ERR_SINK.width - 1) ∧ t.rd F.NOC_ERR_SINK = min (s.rd F.NOC_ERR_SINK + 1) (2 ^ F.NOC_ERR_SINK.width - 1) ∧ t.rd F.NOC_IRQ_SINK = 1 ∧ t.noc.errs = s.noc.errs ∧
      t.mem = s.mem))) ∧
  (∀ (p : NocMsg) (s w : State), s.stage = .running → ErrBack s (nocFlight p) w →
    (opNet p.opc.toNat = 0 → w.noc.again.contains (nocFlight p) = false → Does (.err p) s (fun t =>
      t.coh.flight = w.coh.flight ++ (if p.opc.toNat < 0x20 then [nocFlight p] else []) ∧
      t.noc.again = w.noc.again ++ [nocFlight p] ∧ t.noc.errs = w.noc.errs.erase (nocFlight p) ∧ t.mem = s.mem)) ∧
    (opNet p.opc.toNat = 0 → w.noc.again.contains (nocFlight p) = true → Does (.err p) s (fun t =>
      (p.opc.toNat < 0x20 → t.coh.flight.getLast? = some (lostAnswer (nocFlight p))) ∧
      t.noc.again = w.noc.again.erase (nocFlight p) ∧ t.noc.errs = w.noc.errs.erase (nocFlight p) ∧ t.mem = s.mem)) ∧
    (opNet p.opc.toNat ≠ 0 → Does (.err p) s (fun t => t.rd F.GEN_STATUS_FATAL = 1 ∧ t.rd F.GEN_STATUS_FAULT = 1)))

/-- Route epochs: flip, drain, time-out and force. Rests on R203, R204, R205. -/
def Obligations.RouteEpochs : Prop :=
  (∀ (who : Initiator) (v : BitVec 64) (s : State), Permitted s who 0x800008 true →
    (v.toNat.testBit 9 = false → s.rd F.NOC_EPOCH_STATE = epIDLE → s.routesSet.all s.shadowOk = true →
      Does (.epochFlip who v) s (fun t => t.rd F.NOC_EPOCH_STATE = epDRAIN ∧ t.rd F.NOC_EPOCH_BAD = 0 ∧
        t.rd F.NOC_EPOCH_CUR = (1 - s.rd F.NOC_EPOCH_CUR) % 2 ∧ SameStore s t ∧
        (∀ j < 20992, t.rd F.NOC_RT_CUR_ENTRY 0 j = s.rd F.NOC_RT_SHADOW_ENTRY 0 j % 2 ^ 64 ∧
          t.rd F.NOC_RT_SHADOW_ENTRY 0 j = s.rd F.NOC_RT_CUR_ENTRY 0 j % 2 ^ 64))) ∧
    (v.toNat.testBit 9 = false → s.rd F.NOC_EPOCH_STATE = epIDLE → s.routesSet.all s.shadowOk = false →
      Does (.epochFlip who v) s (fun t => t.rd F.NOC_EPOCH_BAD = 1 ∧ t.rd F.NOC_EPOCH_STATE = epIDLE ∧
        (∀ j, t.rd F.NOC_RT_CUR_ENTRY 0 j = s.rd F.NOC_RT_CUR_ENTRY 0 j) ∧ SameStore s t)) ∧
    (v.toNat.testBit 9 = false → s.rd F.NOC_EPOCH_STATE ≠ epIDLE → Does (.epochFlip who v) s (fun t => t.regs = s.regs)) ∧
    (v.toNat.testBit 8 = false → s.rd F.NOC_EPOCH_STATE = epDRAIN → Does (.epochForce who v) s (fun t =>
      t.rd F.NOC_EPOCH_STATE = epIDLE ∧ t.rd F.NOC_IRQ_EPOCH_DONE = 1 ∧ t.coh = s.coh ∧ t.mem = s.mem)) ∧
    (v.toNat.testBit 8 = false → s.rd F.NOC_EPOCH_STATE ≠ epDRAIN → Does (.epochForce who v) s (fun t => t.regs = s.regs))) ∧
  (∀ s : State, s.stage = .running → s.rd F.NOC_EPOCH_STATE = epDRAIN →
    (s.oldDone = true → Does .epochDrainDone s (fun t => t.rd F.NOC_EPOCH_STATE = epIDLE ∧
      t.rd F.NOC_IRQ_EPOCH_DONE = 1 ∧ t.coh = s.coh ∧ t.mem = s.mem)) ∧
    (s.oldDone = false → Does .epochDrainDone s (fun t => t = s)) ∧
    Does .epochDrainTimeout s (fun t => t.rd F.NOC_IRQ_DRAIN_TMO = 1 ∧ t.rd F.NOC_EPOCH_STATE = epDRAIN ∧ SameStore s t))

/-- Fencing, draining and waking a power domain. Rests on R93, R125, R131, R189, R197, R206, R207, R208, R209. Where a
clause touches them, these are the model's choices and no rule: log entry 11, DESIGN CHOICE, log entry 47, DESIGN
CHOICE, log entry 114, DESIGN CHOICE. -/
def Obligations.Fences : Prop :=
  (∀ (who : Initiator) (d : Fin 40) (v : BitVec 64) (s w : State), Permitted s who (domCtl d) true →
    (w = s.written who (domCtl d) (setBit v.toNat 0 true) → s.rd F.NOC_DOM_CTL_FENCE 0 d = 0 →
      w.rd F.NOC_DOM_STATUS_STATE 0 d = domON →
      (w.fenceRefused d = true → Does (.fenceRequest who d v) s (fun t => t.rd F.NOC_DOM_STATUS_REFUSED 0 d = 1 ∧
        t.rd F.NOC_IRQ_FENCE_REFUSED = 1 ∧ t.rd F.NOC_DOM_STATUS_STATE 0 d = domON ∧ SameStore s t)) ∧
      (w.fenceRefused d = false → ∀ u, u = (w.clear F.NOC_DOM_STATUS_REFUSED 0 d).wr F.NOC_DOM_STATUS_STATE domDRAINING 0 d →
        Does (.fenceRequest who d v) s (fun t => t = (u.drain d).showDom d ∧ SameStore s u ∧
          u.rd F.NOC_DOM_STATUS_STATE 0 d = domDRAINING ∧ u.rd F.NOC_DOM_STATUS_REFUSED 0 d = 0))) ∧
    (w = s.written who (domCtl d) (setBit v.toNat 0 false) →
      (w.rd F.NOC_DOM_STATUS_STATE 0 d = domDRAINING → Does (.fenceCancel who d v) s (fun t =>
        t = (w.endDrain d).domAgain d ∧ t.rd F.NOC_DOM_STATUS_STATE 0 d = domON ∧ t.rd F.NOC_DOM_CTL_FENCE 0 d = 0)) ∧
      (w.rd F.NOC_DOM_STATUS_STATE 0 d ≠ domDRAINING → Does (.fenceCancel who d v) s (fun t =>
        t = w.domAgain d ∧ (d.val < 16 ∨ 32 ≤ d.val → SameStore s t))))) ∧
  (∀ (d : Fin 40) (s : State), s.stage = .running →
    (s.rd F.NOC_DOM_STATUS_STATE 0 d = domDRAINING → s.outstanding d = 0 → Does (.fenceAck d) s (fun t =>
      ∃ u : State, t = u.enter ∧ u.rd F.NOC_DOM_CNT_FENCES 0 d = min (s.rd F.NOC_DOM_CNT_FENCES 0 d + 1) (2 ^ F.NOC_DOM_CNT_FENCES.width - 1) ∧ u.mem = s.mem ∧ u.coh = s.coh ∧
        u.rd F.NOC_DOM_STATUS_STATE 0 d = (if (s.dom d).held = [] ∧ (s.dom d).blks = [] then domFENCED else domWAKING))) ∧
    (s.rd F.NOC_DOM_STATUS_STATE 0 d ≠ domDRAINING ∨ s.outstanding d ≠ 0 → Does (.fenceAck d) s (fun t => t = s.showDom d)) ∧
    (s.rd F.NOC_DOM_STATUS_STATE 0 d = domWAKING → s.rd F.PWR_STATUS_TRANS = 0 →
      ∀ u, u = s.domGo d → Does (.domainOn d) s (fun t => u.rd F.NOC_DOM_STATUS_STATE 0 d = domON ∧ (u.dom d).held = [] ∧
        (u.dom d).blks = [] ∧ u.mem = s.mem ∧
        u.coh.flight = ((s.dom d).held.map (·.2)).filter (fun f => f.opc < 0x20) ++ s.coh.flight ∧
        (d.val < 16 → t.coh = u.coh ∧ t.map = u.map ∧ t.regs = u.regs ∧ t.mem = u.mem ∧
          ∀ k < 4, t.pwr.selfRef.contains (4 * d.val + k) = false) ∧
        (16 ≤ d.val → t = u.domAgain d))) ∧
    (s.rd F.NOC_DOM_STATUS_STATE 0 d ≠ domWAKING → Does (.domainOn d) s (fun t => t = s))) ∧
  (∀ (p : NocMsg) (d : Nat) (s w : State), s.stage = .running → s.bring (nocFlight p) = (true, w) →
    w.domOf (nocFlight p) = some d → d < 40 →
    (w.domDown d = true → w.holdRoom d (opNet p.opc.toNat) = true → Does (.fencedArrival p) s (fun t =>
      (t.dom d).held = (w.dom d).held ++ [(opNet p.opc.toNat, nocFlight p)] ∧ t.mem = s.mem ∧
      t.coh.flight = w.coh.flight.erase (nocFlight p) ∧ t.rd F.NOC_DOM_STATUS_STATE 0 d = domWAKING)) ∧
    (w.domDown d = true → w.holdRoom d (opNet p.opc.toNat) = false → Does (.fencedArrival p) s (fun t => t = w)) ∧
    (w.domDown d = false → opDefined p.opc.toNat = true → Does (.fencedArrival p) s (fun t => t = w)) ∧
    (w.domDown d = false → opDefined p.opc.toNat = false → Does (.fencedArrival p) s (fun t =>
      t.coh.flight = w.coh.flight.erase (nocFlight p) ∧ t.mem = s.mem ∧
      (t.ras.getLast?.map (fun x => (x.cls, x.sev, x.blk, x.addr))) = some (0x15, 1, rasNOC, p.m.line.toNat)))) ∧
  (∀ (g : Fin 16) (page : BitVec 34) (block : Fin 8) (bs : Bytes) (s : State), s.stage = .running →
    (s.domDown (16 + g.val) = true → s.holdRoom (16 + g.val) 3 = true →
      (s.dom (16 + g.val)).blks.any (fun x => x.1 == page.toNat && x.2.1 == block.val) = false →
      Does (.blk g page block bs) s (fun t =>
        (t.dom (16 + g.val)).blks = (s.dom (16 + g.val)).blks ++ [(page.toNat, block.val, bs)] ∧ t.mem = s.mem)) ∧
    (s.domDown (16 + g.val) = false → s.noc.bad.contains (blkFlight g page.toNat block) = false →
      Does (.blk g page block bs) s (fun t => t = s.blkDecode g page.toNat block bs ∧ t.mem = s.mem ∧ t.coh = s.coh ∧
        t.map.reqs.length = s.map.reqs.length)) ∧
    (s.domDown (16 + g.val) = false → s.noc.bad.contains (blkFlight g page.toNat block) = true →
      Does (.blk g page block bs) s (fun t => t.regs = s.regs ∧ t.mem = s.mem ∧ t.coh = s.coh ∧
        t.map.reqs = s.map.reqs.map (fun r =>
          if !r.write && r.st == .served && r.got.isNone && r.line / 8 == 8 * page.toNat + block.val then
            { r with got := some (zeroLine, 1) } else r))))

/-- Entry into floors, its stalls, WFI and ASPM L1. Rests on R344, R346, Table 15-2. Where a clause touches them,
these are the model's choices and no rule: log entry 11, DESIGN CHOICE, log entry 49, DESIGN CHOICE. -/
def Obligations.PowerFloors : Prop :=
  (∀ (k : Nat) (s : State), s.stage = .running → s.rd F.PWR_STATUS_TARGET = k → k = 1 ∨ k = 2 → s.rd F.PWR_STATUS_FLOOR < k →
    Does (.floorDwellExpire none) s (fun t => t.rd F.PWR_STATUS_FLOOR = k ∧ t.rd F.PWR_STATUS_TRANS = 0 ∧
      t.pwr.entering = false ∧ t.rd F.PWR_IRQ_FLOOR = 1 ∧ t.mem = s.mem ∧ t.coh = s.coh ∧ t.map = s.map)) ∧
  (∀ s : State, s.stage = .running → s.rd F.PWR_STATUS_TARGET ≤ s.rd F.PWR_STATUS_FLOOR →
    Does (.floorDwellExpire none) s (fun t => t = s)) ∧
  (∀ (d : Fin 40) (s : State), s.stage = .running →
    (s.rd F.PWR_STATUS_FLOOR < 3 ∨ s.floor3Doms.contains d.val = false →
      Does (.floorDwellExpire (some d)) s (fun t => t = s)) ∧
    (3 ≤ s.rd F.PWR_STATUS_FLOOR → s.floor3Doms.contains d.val = true → Does (.floorDwellExpire (some d)) s (fun t =>
      t = ({ s with pwr := { s.pwr with fenced := s.pwr.fenced.filter (· != d.val) ++ [d.val] } }).fence d))) ∧
  (∀ (c : Fin 4) (s : State), s.stage = .running → s.cc.cores[c.val]? ≠ some .running ∨ s.cc.plic.wakes c = true →
    Does (.coreWfi c) s (fun t => t = s)) ∧
  (∀ (c : Fin 4) (s : State), s.stage = .running → s.cc.cores[c.val]? = some .running → s.cc.plic.wakes c = false →
    s.pwr.entering = false →
    Does (.coreWfi c) s (fun t => t = { s with cc := { s.cc with cores := s.cc.cores.set c .wfi } })) ∧
  (∀ (c : Fin 4) (s : State), s.stage = .running → s.cc.cores[c.val]? = some .running → s.cc.plic.wakes c = false →
    s.pwr.entering = true →
    Does (.coreWfi c) s (fun t => t = ({ s with cc := { s.cc with cores := s.cc.cores.set c .wfi } }).enter)) ∧
  (∀ (c : Fin 4) (s : State), s.stage = .running → s.entering4 = true → s.portsUp.all s.pwr.l1.contains = true →
    (s.cc.cores[c.val]?).any CoreSt.quiet = false → Does (.coreSleepTimeout c) s (fun t =>
      t.rd F.PWR_STATUS_BLOCK = 2 ∧ t.rd F.PWR_IRQ_BLOCK = 1 ∧ SameStore s t ∧ t.pwr = s.pwr)) ∧
  (∀ (p : Fin 16) (s : State), s.stage = .running → s.entering4 = true → s.on F.PRT_LINK_UP p = true →
    Does (.aspmL1Entry p false) s (fun t => t.rd F.PWR_STATUS_BLOCK = 1 ∧ t.rd F.PWR_IRQ_BLOCK = 1 ∧ t.pwr = s.pwr) ∧
    Does (.aspmL1Entry p true) s (fun t =>
      t = ({ s with pwr := { s.pwr with l1 := s.pwr.l1.filter (· != p.val) ++ [p.val] } }).enter)) ∧
  (∀ (p : Fin 16) (s : State), s.stage = .running → Does (.aspmL1Exit p) s (fun t =>
    t.pwr.l1.contains p.val = false ∧ t.regs = s.regs ∧ SameStore s t ∧ t.out = s.out))

/-- A Catwalk link: detection, training, going down, and retrains. Rests on R219, R220, R229, R231, R232, R233, R234.
Where a clause touches them, these are the model's choices and no rule: log entry 11, DESIGN CHOICE, log entry 30,
DESIGN CHOICE, log entry 55, DESIGN CHOICE. -/
def Obligations.CatwalkLinks : Prop :=
  (∀ (n : Fin 8) (lo hi : Bool) (s : State), s.stage = .running → s.linkSt n = cwDOWN → s.on F.CWK_CTL_LINK_EN n = true →
    (s.secs.peer n).isSome = true → (lo || hi) = true → (∀ q ∈ s.secs.unitQuads 2 n, s.perst.contains (q / 4) = false) →
    s.on F.MAP_STATUS_READY = true →
    (s.buffersOk n = true → Does (.cwkLinkDetect n lo hi) s (fun t => t.linkSt n = cwTRAIN ∧
      t.rd F.CWK_STATUS_MM_CAUSE n = 0 ∧ SameStore s t)) ∧
    (s.buffersOk n = false → Does (.cwkLinkDetect n lo hi) s (fun t => t.linkSt n = cwDOWN ∧
      t.rd F.CWK_STATUS_MM_CAUSE n = 6 ∧ SameStore s t))) ∧
  (∀ (n : Fin 8) (w : BitVec 2) (rate : BitVec 3) (lat : BitVec 16) (s : State), s.stage = .running → s.linkSt n = cwTRAIN →
    Does (.cwkTrained n w rate lat) s (fun t => ∃ u : State, t = ((u.spillCheck n).sendHello n).idleFlit n ∧
      u.linkSt n = cwINIT ∧ u.rd F.CWK_LAT_LAT_NS n = lat.toNat ∧ u.rd F.CWK_STATUS_RATE n = rate.toNat ∧
      u.rd F.CWK_STATUS_WIDTH n = w.toNat + 3 ∧ (u.link n).stored = [] ∧ SameStore s u)) ∧
  (∀ (n : Fin 8) (s : State), s.stage = .running →
    (∀ c ∈ [(cwTRAIN, Instr.cwkTrainTimeout n), (cwINIT, .cwkInitTimeout n), (cwRETRAIN, .retrainTimeout n)],
      (s.linkSt n = c.1 → Does c.2 s (fun t => t = s.cwkDown n)) ∧ (s.linkSt n ≠ c.1 → Does c.2 s (fun t => t = s))) ∧
    (s.linkSt n ≠ cwDOWN → (s.link n).stored = [] → (s.link n).spilled = [] → (s.link n).txq = [] → ∃ u : State, s.cwkDown n = u.showPaths.showTols ∧
      u.linkSt n = cwDOWN ∧ u.link n = {} ∧ SameStore s u)) ∧
  (∀ (n : Fin 8) (s : State), s.stage = .running → s.linkSt n = cwACTIVE → (s.link n).ask = none →
    ((s.usedVcs n).any (fun v => 1024 ≤ smGet 0 (s.link n).silent v) = true → Does (.creditReportMissing n) s (fun t =>
      (t.link n).ask = some (s.nowTarget n true) ∧ t.linkSt n = cwACTIVE ∧
        t.out.length = s.out.length + (if (s.link n).asking then 2 else 1))) ∧
    (∀ lock, lock = true ∨ 8 ≤ (s.link n).badRun → Does (.faultRetrain n lock) s (fun t =>
      (t.link n).ask = some (s.nowTarget n true) ∧ t.linkSt n = cwACTIVE ∧
        t.out.length = s.out.length + (if (s.link n).asking then 2 else 1))) ∧
    (∀ (who : Initiator) (v : BitVec 64) (w : State), Permitted s who (F.CWK_CTL_RETRAIN.addr n 0) true →
      w = s.written who (F.CWK_CTL_RETRAIN.addr n 0) (setBit v.toNat 8 true) → w.linkSt n = cwACTIVE →
      Does (.plannedRetrain who n v) s (fun t => (t.link n).ask = some ⟨BitVec.ofNat 2 (min 2 (w.rd F.CWK_CTL_TGT_WIDTH n)),
        BitVec.ofNat 3 (w.rd F.CWK_CTL_TGT_RATE n), false, none⟩ ∧
        t.out.length = s.out.length + (if (s.link n).asking then 2 else 1)))) ∧
  (∀ (n : Fin 8) (lane : BitVec 4) (s : State), s.stage = .running → s.linkSt n = cwACTIVE →
    lane.toNat < 2 ^ (s.rd F.CWK_STATUS_WIDTH n - 1) →
    (3 < s.rd F.CWK_STATUS_WIDTH n → Does (.cwkLaneFail n lane) s (fun t => t.rd F.CWK_ERR_LANE_FAIL n = min (s.rd F.CWK_ERR_LANE_FAIL n + 1) (2 ^ F.CWK_ERR_LANE_FAIL.width - 1) ∧
      t.rd F.CWK_IRQ_LANE_FAIL n = 1 ∧ (t.link n).ask = some ⟨BitVec.ofNat 2 (s.rd F.CWK_STATUS_WIDTH n - 4),
        BitVec.ofNat 3 (s.rd F.CWK_STATUS_RATE n), true, some lane⟩)) ∧
    (s.rd F.CWK_STATUS_WIDTH n ≤ 3 → Does (.cwkLaneFail n lane) s (fun t => ∃ u : State, t = u.cwkDown n ∧
      u.linkSt n = cwACTIVE ∧
      u.rd F.CWK_IRQ_LANE_FAIL n = 1 ∧ u.rd F.CWK_ERR_LANE_FAIL n = min (s.rd F.CWK_ERR_LANE_FAIL n + 1) (2 ^ F.CWK_ERR_LANE_FAIL.width - 1) ∧ u.rd F.CWK_STATUS_FAILED_LANE n = lane.toNat ∧
      u.rd F.CWK_STATUS_DEGRADED n = 1 ∧ (u.ras.getLast?.map (fun x => (x.cls, x.sev, x.blk, x.inst))) = some (0x21, 2, rasCWK, n.val)))) ∧
  (∀ (n : Fin 8) (x : CwkTarget) (s : State), s.stage = .running →
    (∀ r, s.linkSt n = cwACTIVE → resolve (s.lanesUsed n) (s.link n).ask x = some r → Does (.retrainReq n x) s (fun t =>
      t.linkSt n = cwRETRAIN ∧ (t.link n).target = some r ∧ (t.link n).ask = none ∧ t.rd F.CWK_IRQ_RETRAIN n = 1)) ∧
    (s.linkSt n = cwACTIVE → resolve (s.lanesUsed n) (s.link n).ask x = none → Does (.retrainReq n x) s (fun t =>
      t = s.cwkDown n)) ∧
    (s.linkSt n ≠ cwACTIVE → s.linkSt n ≠ cwRETRAIN → Does (.retrainReq n x) s (fun t => t = s)) ∧
    (s.linkSt n = cwRETRAIN → Does (.retrainReq n x) s (fun t => (t.link n).next = some x ∧ t.regs = s.regs ∧ t.out = s.out)) ∧
    (s.linkSt n = cwACTIVE → (s.link n).ask.isSome = true → Does (.retrainAck n x) s (fun t =>
      t.linkSt n = cwRETRAIN ∧ (t.link n).target = some x ∧ (t.link n).ask = none)) ∧
    ((s.link n).ask = none ∨ s.linkSt n ≠ cwACTIVE → Does (.retrainAck n x) s (fun t => t = s))) ∧
  (∀ (n : Fin 8) (e : BitVec 16) (x : CwkTarget) (s : State), s.stage = .running → s.linkSt n = cwRETRAIN →
    (s.link n).target = some x → x.lane = none → (s.link n).next = none → (s.link n).stored = [] → (s.link n).spilled = [] →
    (s.link n).txq = [] → Does (.retrainDone n e) s (fun t => t.linkSt n = cwACTIVE ∧ (t.link n).target = none ∧
      t.rd F.CWK_STATUS_WIDTH n = x.width.toNat + 3 ∧ t.rd F.CWK_STATUS_RATE n = x.rate.toNat))

/-- Flits, bypass messages and packets on a Catwalk link. Rests on R211, R214, R216, R222, R224, R225, R226, R230,
R240, Table 9-7. Where a clause touches them, these are the model's choices and no rule: log entry 11, DESIGN CHOICE,
log entry 30, DESIGN CHOICE, log entry 55, DESIGN CHOICE, log entry 58, DESIGN CHOICE, log entry 118, DESIGN CHOICE,
log entry 119, DEDUCED, log entry 121, DESIGN CHOICE. -/
def Obligations.CatwalkMessages : Prop :=
  (∀ (n : Fin 8) (bs : Bytes) (k : Nat) (s : State), s.stage = .running → bs.length = 256 →
    (s.flitsFlow n = true → flitPass bs = (k, none) → (s.link n).replay = none → Does (.flitReceive n bs) s (fun t =>
      t.rd F.CWK_ERR_UNCORR n = min (s.rd F.CWK_ERR_UNCORR n + 1) (2 ^ F.CWK_ERR_UNCORR.width - 1) ∧ t.rd F.CWK_ERR_FEC_CORR n = min (s.rd F.CWK_ERR_FEC_CORR n + k) (2 ^ F.CWK_ERR_FEC_CORR.width - 1) ∧
      (t.link n).badRun = (s.link n).badRun + 1 ∧ (t.link n).asking = true ∧ t.out.length = s.out.length + 1 ∧
      t.mem = s.mem ∧ t.coh = s.coh)) ∧
    (∀ b, s.flitsFlow n = true → flitPass bs = (k, some b) → Does (.flitReceive n bs) s (fun t => ∃ u : State,
      u.rd F.CWK_ERR_FEC_CORR n = min (s.rd F.CWK_ERR_FEC_CORR n + k) (2 ^ F.CWK_ERR_FEC_CORR.width - 1) ∧ (u.link n).badRun = 0 ∧ u.linkSt n = s.linkSt n ∧ SameStore s u ∧
      ∀ v, v = (u.ackRx n (le b 226 2)).creditRx n [le b 228 3, le b 231 3] →
      ∀ w, w = (if v.flitsFlow n then v.bypassRx n (le b 234 8) else v) →
      t = (if w.flitsFlow n ∧ w.linkSt n ≠ cwTRAIN then w.seqRx n (le b 224 2) (b.take 224) else w))) ∧
    (s.flitsFlow n = false → Does (.flitReceive n bs) s (fun t => t = s))) ∧
  (∀ (n : Fin 8) (e : BitVec 16) (older later : List (Nat × Bytes)) (slots : Bytes) (s : State), s.stage = .running →
    s.flitsFlow n = true →
    ((s.link n).replay.any (fun r => r.start == e.toNat && r.sent < 64) = true → Does (.replayReq n e) s (fun t => t = s)) ∧
    ((s.link n).replay.any (fun r => r.start == e.toNat && r.sent < 64) = false →
      ((s.link n).spilled = [] → (s.link n).stored = older ++ (e.toNat, slots) :: later →
        (∀ x ∈ older, seqFrom x.1 e.toNat = false) → (∃ x ∈ later, seqAfter x.1 e.toNat = true) →
        Does (.replayReq n e) s (fun t => t.rd F.CWK_ERR_REPLAY n = min (s.rd F.CWK_ERR_REPLAY n + 1) (2 ^ F.CWK_ERR_REPLAY.width - 1) ∧ t.out.length = s.out.length + 1 ∧
          (t.link n).replay = some ⟨e.toNat, (e.toNat + 1) % 65536, 1⟩ ∧ (t.link n).stored = (s.link n).stored ∧
          SameStore s t)) ∧
      ((s.link n).unacked.contains e.toNat = false → Does (.replayReq n e) s (fun t =>
        t.rd F.CWK_ERR_BAD_ACK n = min (s.rd F.CWK_ERR_BAD_ACK n + 1) (2 ^ F.CWK_ERR_BAD_ACK.width - 1) ∧ t.out = s.out ∧ t.links = s.links)))) ∧
  (∀ (n : Fin 8) (a b : BitVec 24) (s : State), s.stage = .running → s.flitsFlow n = true →
    Does (.wakeTol n a b) s (fun t => t = (s.onLink n (fun l => { l with tols := l.tols ++
      [(if a.toNat = 0xFFFFFF then tolNONE else a.toNat * 16, if b.toNat = 0xFFFFFF then tolNONE else b.toNat * 16)] })).retarget)) ∧
  (∀ (n : Fin 8) (s : State), s.stage = .running → Does (.wakeTolAgeExpire n) s (fun t =>
    t = (s.onLink n (fun l => { l with tols := l.tols.tail })).retarget)) ∧
  (∀ (n : Fin 8) (st : BitVec 56) (s : State), s.stage = .running → s.flitsFlow n = true → Does (.time n st) s (fun t =>
    t.rd F.CWK_TSKEW_SKEW n % 2 ^ 56 = (st.toNat + 4 * s.rd F.CWK_LAT_LAT_NS n + 2 ^ 56 - s.st % 2 ^ 56) % 2 ^ 56 ∧
    t.links = s.links ∧ SameStore s t ∧ t.out = s.out)) ∧
  (∀ (n : Fin 8) (x : BitVec 512) (s : State), s.stage = .running → helloZero (lineBytes x) = false →
    Does (.hello n x) s (fun t => t.rd F.CWK_ERR2_PROTO n = min (s.rd F.CWK_ERR2_PROTO n + 1) (2 ^ F.CWK_ERR2_PROTO.width - 1) ∧ t.links = s.links ∧ t.mem = s.mem ∧ t.map = s.map ∧
      t.coh = s.coh ∧ t.keys = s.keys ∧ t.out = s.out)) ∧
  (∀ (n : Fin 8) (x : BitVec 512) (s : State), s.stage = .running → s.linkSt n = cwINIT → helloZero (lineBytes x) = true →
    (s.helloCause n (lineBytes x) = 0 → Does (.hello n x) s (fun t => ∃ u : State, t = (u.showPaths.pump n).showTols ∧
      u.linkSt n = cwACTIVE ∧ u.rd F.CWK_IRQ_UP n = 1 ∧ u.rd F.CWK_STATUS_MM_CAUSE n = 0 ∧
      u.rd F.CWK_STATUS_PEER_SLOT n = byteAt (lineBytes x) 8 % 16 ∧ (u.link n).hello = lineBytes x ∧ SameStore s u)) ∧
    (s.helloCause n (lineBytes x) ≠ 0 → Does (.hello n x) s (fun t => t.linkSt n = cwMISMATCH ∧
      t.rd F.CWK_STATUS_MM_CAUSE n = s.helloCause n (lineBytes x) ∧ t.rd F.CWK_IRQ_MISMATCH n = 1 ∧ t.links = s.links))) ∧
  (∀ (n : Fin 8) (s : State), s.stage = .running →
    (s.flitsFlow n = true → s.linkSt n ≠ cwTRAIN → Does (.helloTimer n) s (fun t =>
      t = s.sendHello n ∧ t.map = s.map ∧ t.coh = s.coh ∧ (s.rd F.CWK_STATUS_SPILL_OK n = 0 → t.mem = s.mem))) ∧
    (s.linkSt n = cwTRAIN ∨ s.flitsFlow n = false → Does (.helloTimer n) s (fun t => t = s))) ∧
  (∀ (n : Fin 8) (sl : BitVec 4) (x : BitVec 512) (s : State), s.stage = .running → s.linkSt n = cwACTIVE →
    Does (.fwmsg n sl x) s (fun t => t.out = s.out ++ [.fwmsg sl.toNat (lineBytes x)] ∧ t.regs = s.regs ∧ SameStore s t)) ∧
  (∀ (n : Fin 8) (p : CwkPacket) (s : State), s.stage = .running → s.flitsFlow n = true →
    Does (.catwalkPacket n p) s (fun t => t = s.rxPacket n p ∧
      (badPacket (s.secs.vcs n) (cwkHdr p.hdr.toNat) (decide ((cwkHdr p.hdr.toNat).dslot = s.slot)) = true ∨
          zeroesOk (cwkHdr p.hdr.toNat) p = false →
        t.rd F.CWK_ERR2_PROTO n = min (s.rd F.CWK_ERR2_PROTO n + 1) (2 ^ F.CWK_ERR2_PROTO.width - 1) ∧ t.coh = s.coh ∧ t.mem = s.mem ∧ t.out = s.out) ∧
      (badPacket (s.secs.vcs n) (cwkHdr p.hdr.toNat) true = false → zeroesOk (cwkHdr p.hdr.toNat) p = true →
        (cwkHdr p.hdr.toNat).dslot = s.slot → (cwkHdr p.hdr.toNat).opc = 0x33 → s.linkSt n = cwACTIVE →
        t.out = s.out ++ [.fwmsg (cwkHdr p.hdr.toNat).sslot (lineBytes p.data)] ∧ SameStore s t)))

/-- Exclusion, rejoining and the Span address map. Rests on R238, R241, R242, R243. Where a clause touches them, these
are the model's choices and no rule: log entry 11, DESIGN CHOICE, log entry 57, DESIGN CHOICE, log entry 119, DEDUCED,
log entry 120, DESIGN CHOICE. -/
def Obligations.SpanMembership : Prop :=
  (∀ (n : Fin 8) (sl : BitVec 4) (s : State), s.stage = .running → s.linkSt n = cwACTIVE →
    Does (.exclude n sl) s (fun t => t = s.exclude sl.toNat ∧
      (s.excluded sl.toNat = true ∨ sl.toNat = s.slot ∨ s.secs.members.testBit sl.toNat = false → t = s))) ∧
  (∀ (n : Fin 8) (a b : BitVec 4) (s : State), s.stage = .running → s.linkSt n = cwACTIVE →
    (a.toNat ≠ s.slot → b.toNat ≠ s.slot → Does (.pathloss n a b) s (fun t => t.rd F.CWK_SPAN_IRQ_PATHLOSS = 1 ∧
      SameStore s t ∧ t.out = s.out)) ∧
    (a.toNat = s.slot → Does (.pathloss n a b) s (fun t =>
      t = (s.set F.CWK_SPAN_IRQ_PATHLOSS).exclude b.toNat)) ∧
    (a.toNat ≠ s.slot → b.toNat = s.slot → Does (.pathloss n a b) s (fun t =>
      t = (s.set F.CWK_SPAN_IRQ_PATHLOSS).exclude a.toNat))) ∧
  (∀ (k : Fin 16) (s : State), s.stage = .running →
    (s.span.sweeping.testBit k = true → Does (.exclusionSweepDone k) s (fun t => ∃ u : State,
      (∀ v, v = u.excludeDirs (proxyId s.slot k) →
        t = (v.wrBit F.CWK_SPAN_STATUS_READY k (v.rdBit F.CWK_REJOIN_REJOIN k)).helloAll) ∧ u.span.sweeping.testBit k = false ∧ u.span.swept.testBit k = true ∧
      u.regs = s.regs ∧ SameStore s u)) ∧
    (s.span.sweeping.testBit k = false → Does (.exclusionSweepDone k) s (fun t => t = s)) ∧
    (s.excluded k = true → s.rdBit F.CWK_REJOIN_REJOIN k = true → s.reachable k = true → s.span.swept.testBit k = true →
      s.peerReady k = true → Does (.readmit k) s (fun t => ∃ u : State, t = u.showPaths.helloAll ∧ u.excluded k = false ∧
        u.rd F.CWK_SPAN_IRQ_REJOINED = 1 ∧ u.rdBit F.CWK_SPAN_STATUS_READY k = false ∧ SameStore s u)) ∧
    (s.excluded k = false ∨ s.rdBit F.CWK_REJOIN_REJOIN k = false ∨ s.reachable k = false ∨
      s.span.swept.testBit k = false ∨ s.peerReady k = false → Does (.readmit k) s (fun t => t = s))) ∧
  (∀ (who : Initiator) (n : Fin 64) (v : BitVec 64) (s : State) (ok : Prop), Permitted s who (F.CWK_SMAP_CTL_VALID.addr 0 n) true →
    (ok ↔ s.rd F.CWK_SMAP_BASE_BASE 0 n < s.rd F.CWK_SMAP_LIMIT_LIMIT 0 n ∧ s.rd F.CWK_SMAP_LIMIT_LIMIT 0 n ≤ s.secs.limit ∧
      (∀ k < 64, s.rd F.CWK_SMAP_CTL_VALID 0 k ≠ 0 → s.rd F.CWK_SMAP_CTL_TYPE 0 k = F.CWK_SMAP_CTL_TYPE.of v.toNat →
        s.rd F.CWK_SMAP_LIMIT_LIMIT 0 k ≤ s.rd F.CWK_SMAP_BASE_BASE 0 n ∨
        s.rd F.CWK_SMAP_LIMIT_LIMIT 0 n ≤ s.rd F.CWK_SMAP_BASE_BASE 0 k) ∧
      (F.CWK_SMAP_CTL_TYPE.of v.toNat = 1 → s.rd F.CWK_SMAP_RBASE_RBASE 0 n + s.rd F.CWK_SMAP_LIMIT_LIMIT 0 n -
        s.rd F.CWK_SMAP_BASE_BASE 0 n ≤ 262144)) →
    (s.rd F.CWK_CTL_LOCK = 0 → s.rd F.CWK_SMAP_CTL_VALID 0 n = 0 →
      (ok → Does (.smapEnable who n v) s (fun t =>
          t.regs = (s.written who (F.CWK_SMAP_CTL_VALID.addr 0 n) (setBit v.toNat 63 true)).regs ∧ SameStore s t)) ∧
      (¬ok → Does (.smapEnable who n v) s (fun t =>
        ∃ w : State, w = s.written who (F.CWK_SMAP_CTL_VALID.addr 0 n) (setBit (setBit v.toNat 63 true) 63 false) ∧
          t.rd F.CWK_SPAN_ERR_SMAP_REJECT = min (w.rd F.CWK_SPAN_ERR_SMAP_REJECT + 1) 65535 ∧
          t.rd F.CWK_SMAP_CTL_VALID 0 n = w.rd F.CWK_SMAP_CTL_VALID 0 n ∧ SameStore s t))) ∧
    (s.rd F.CWK_CTL_LOCK = 0 → Does (.smapDisable who n v) s (fun t =>
      t.regs = (s.written who (F.CWK_SMAP_CTL_VALID.addr 0 n) (setBit v.toNat 63 false)).regs ∧ SameStore s t)) ∧
    (s.on F.CWK_CTL_LOCK = true ∨ s.on F.CWK_SMAP_CTL_VALID 0 n = true → Does (.smapEnable who n v) s (fun t =>
      t.regs = s.regs)) ∧
    (s.on F.CWK_CTL_LOCK = true → Does (.smapDisable who n v) s (fun t => t.regs = s.regs)))

/-- Pushes to a Carousel queue. Rests on R289, R290, R294, Table 12-1. Where a clause touches them, these are the
model's choices and no rule: log entry 67, DESIGN CHOICE. -/
def Obligations.QueuePushes : Prop :=
  (∀ (q : Fin 1024) (who : Initiator) (item : Bytes) (s : State), s.stage = .running → item.length = 64 →
    ∀ c ∈ [(0x000, tagSOP + tagEOP, Instr.push q (.host who) item), (0x040, tagSOP, .pushSop q who item),
      (0x080, 0, .pushMid q who item), (0x0C0, tagEOP, .pushEop q who item)],
    Permitted s who (portPage q c.1) true →
    (QueueQuiet s q → s.on F.CRQ_CFG_EN q = true → s.qUsed q < s.qCap q → s.rd F.CRQ_STATE_DISCARD q = 0 →
      (c.2.1.testBit 0 = true → s.rd F.CRQ_STATE_PROD_OPEN q = 0) → Does c.2.2 s (fun t =>
        t.qW q = (s.qW q + 1) % 2 ^ 32 ∧ t.qItem q (s.qW q) = ⟨lineOfBytes item, c.2.1⟩ ∧ t.qD q = s.qD q ∧ t.qL q = s.qL q ∧
        t.qM q = s.qM q ∧ t.rd F.CRQ_STATE_PROD_OPEN q = b2n (!c.2.1.testBit 1) ∧ SameStore s t ∧ t.out = s.out)) ∧
    (s.on F.CRQ_CFG_EN q = true → s.qCap q ≤ s.qUsed q → s.rd F.CRQ_STATE_DISCARD q = 0 → Does c.2.2 s (fun t =>
      t.rd F.CRQ_STAT_DROP q = min (s.rd F.CRQ_STAT_DROP q + 1) (2 ^ F.CRQ_STAT_DROP.width - 1) ∧ t.rd F.CRQ_IRQ_DROP q = 1 ∧ t.qram = s.qram ∧ t.qW q = s.qW q ∧ SameStore s t)) ∧
    (s.rd F.CRQ_CFG_EN q = 0 → Does c.2.2 s (fun t => t.rd F.CRQ_STAT_BAD_CMD q = min (s.rd F.CRQ_STAT_BAD_CMD q + 1) (2 ^ F.CRQ_STAT_BAD_CMD.width - 1) ∧ t.qram = s.qram ∧
      t.queues = s.queues ∧ SameStore s t))) ∧
  (∀ (q : Fin 1024) (who : Initiator) (item : Bytes) (s : State), item.length ≠ 64 →
    ∀ c ∈ [(0x000, Instr.push q (.host who) item), (0x040, .pushSop q who item), (0x080, .pushMid q who item),
      (0x0C0, .pushEop q who item)], Permitted s who (portPage q c.1) true → Does c.2 s (fun t =>
        t.rd F.CRQ_STAT_BAD_CMD q = min (s.rd F.CRQ_STAT_BAD_CMD q + 1) (2 ^ F.CRQ_STAT_BAD_CMD.width - 1) ∧ t.qram = s.qram ∧ t.queues = s.queues ∧ SameStore s t)) ∧
  (∀ (q : Fin 1024) (ep : Fin 41) (item : Bytes) (s : State), s.stage = .running →
    (QueueQuiet s q → s.on F.CRQ_CFG_EN q = true → s.qUsed q < s.qCap q → s.rd F.CRQ_STATE_DISCARD q = 0 →
      s.rd F.CRQ_STATE_PROD_OPEN q = 0 → Does (.push q (.chip ep) item) s (fun t => t.qW q = (s.qW q + 1) % 2 ^ 32 ∧
        t.qItem q (s.qW q) = ⟨lineOfBytes item, tagSOP + tagEOP⟩ ∧ t.qD q = s.qD q ∧ t.qL q = s.qL q ∧ SameStore s t)) ∧
    (s.rd F.CRQ_CFG_EN q = 0 ∨ (s.qCap q ≤ s.qUsed q ∧ s.rd F.CRQ_STATE_DISCARD q = 0) →
      Does (.push q (.chip ep) item) s (fun t => t.regs = s.regs ∧ t.qram = s.qram ∧
      (t.queue q).stall = (s.queue q).stall ++ [(ep.val, ⟨lineOfBytes item, tagSOP + tagEOP⟩)])))

/-- Pops, releases, marks, rewinds, truncation, reset and configuration of a Carousel queue. Rests on R288, R289,
R292, R293, R295, R296, R298, Table 12-1. Where a clause touches them, these are the model's choices and no rule: log
entry 11, DESIGN CHOICE, log entry 67, DESIGN CHOICE, log entry 126, DEDUCED. -/
def Obligations.QueuePops : Prop :=
  (∀ (q : Fin 1024) (ep : Fin 41) (size : BitVec 8) (tag : BitVec 16) (s : State), s.stage = .running → QueueQuiet s q →
    ((s.queue q).token ≠ 0 → Does (.pop q (.chip ep) size tag) s (fun t => (t.queue q).token = 0 ∧ t.regs = s.regs ∧
      t.out = s.out ++ [.chipPop ep q 0 (s.queue q).token])) ∧
    ((s.queue q).token = 0 → s.on F.CRQ_CFG_EN q = true → 0 < s.qAvail q → s.startable q = true →
      Does (.pop q (.chip ep) size tag) s (fun t =>
        t.out = s.out ++ [.chipPop ep q (s.qItem q (s.qD q)).item (s.qItem q (s.qD q)).tag] ∧
        t.qD q = (s.qD q + 1) % 2 ^ 32 ∧ t.qW q = s.qW q ∧ SameStore s t ∧
        (s.rd F.CRQ_CFG_AUTO_REL q = 0 → t.qL q = s.qL q ∧ t.qM q = s.qM q) ∧
        (s.rd F.CRQ_CFG_AUTO_REL q ≠ 0 → t.qL q = t.qD q ∧ t.qM q = t.qD q))) ∧
    ((s.queue q).token = 0 → s.rd F.CRQ_CFG_EN q = 0 → Does (.pop q (.chip ep) size tag) s (fun t => t.regs = s.regs ∧
      t.out = s.out ++ [.chipPop ep q 0 tokEMPTY])) ∧
    ((s.queue q).token = 0 → s.on F.CRQ_CFG_EN q = true → s.qAvail q = 0 → Does (.pop q (.chip ep) size tag) s (fun t =>
      t.stalled = s.stalled ++ [⟨16, .chip ep, q, tag.toNat⟩] ∧ t.out = s.out ∧ t.regs = s.regs)) ∧
    (∀ who, Permitted s who (portPage q 0x100) false → (s.queue q).token = 0 → s.on F.CRQ_CFG_EN q = true →
      s.on F.CRQ_CFG_HOSTRD q = true → 0 < s.qAvail q → s.startable q = true → size.toNat = 64 →
      s.rd F.CRQ_CFG_AUTO_REL q = 0 → Does (.pop q (.host who) size tag) s (fun t =>
        t.out = s.out ++ [.hostPop who q tag.toNat (hostItem (.item (s.qItem q (s.qD q))))] ∧
        t.qD q = (s.qD q + 1) % 2 ^ 32 ∧ SameStore s t))) ∧
  (∀ (q : Fin 1024) (from_ : QPort) (n : BitVec 15) (s : State), s.stage = .running → QueueQuiet s q →
    (∀ who, from_ = .host who → Permitted s who (portPage q 0x140) true) →
    (0 < n.toNat → n.toNat ≤ ptrDist (s.qL q) (s.qD q) → Does (.release q from_ n) s (fun t =>
      t.qL q = (s.qL q + n.toNat) % 2 ^ 32 ∧ t.qD q = s.qD q ∧ t.qW q = s.qW q ∧
      (ptrDist (s.qL q) (s.qM q) < n.toNat → t.qM q = t.qL q) ∧ (n.toNat ≤ ptrDist (s.qL q) (s.qM q) → t.qM q = s.qM q) ∧
      SameStore s t)) ∧
    (ptrDist (s.qL q) (s.qD q) < n.toNat → Does (.release q from_ n) s (fun t => t.rd F.CRQ_STAT_BAD_CMD q = min (s.rd F.CRQ_STAT_BAD_CMD q + 1) (2 ^ F.CRQ_STAT_BAD_CMD.width - 1) ∧
      t.qL q = (s.qL q + ptrDist (s.qL q) (s.qD q)) % 2 ^ 32 ∧ t.qD q = s.qD q)) ∧
    Does (.mark q from_) s (fun t => t.qM q = s.qD q % 2 ^ 32 ∧ t.qD q = s.qD q ∧ t.qW q = s.qW q ∧ t.qL q = s.qL q ∧
      SameStore s t) ∧
    Does (.rewind q from_) s (fun t => t.qD q = s.qM q % 2 ^ 32 ∧ t.qM q = s.qM q ∧ t.qW q = s.qW q ∧ t.qL q = s.qL q ∧
      SameStore s t)) ∧
  (∀ (q : Fin 1024) (s : State), s.stage = .running → s.stalled = [] →
    (s.on F.CRQ_CFG_EN q = true → s.on F.CRQ_GAP_GAP_NS q = true → s.on F.CRQ_STATE_CONS_OPEN q = true → s.qAvail q = 0 →
      (s.queue q).stall = [] → Does (.gapTruncate q) s (fun t => (t.queue q).token = tokTRUNC ∧
        t.rd F.CRQ_STAT_TRUNC q = min (s.rd F.CRQ_STAT_TRUNC q + 1) (2 ^ F.CRQ_STAT_TRUNC.width - 1) ∧ t.rd F.CRQ_IRQ_TRUNC q = 1 ∧ t.rd F.CRQ_STATE_DISCARD q = 1 ∧
        t.rd F.CRQ_STATE_PROD_OPEN q = 0 ∧ t.rd F.CRQ_STATE_CONS_OPEN q = 0 ∧ SameStore s t)) ∧
    (s.rd F.CRQ_STATE_CONS_OPEN q = 0 ∨ s.qAvail q ≠ 0 → Does (.gapTruncate q) s (fun t => t = s)) ∧
    Does (.qreset q) s (fun t => t.qW q = 0 ∧ t.qD q = 0 ∧ t.qL q = 0 ∧ t.qM q = 0 ∧ (t.queue q).token = tokQRESET ∧
      (t.queue q).stall = [] ∧ t.rd F.CRQ_STAT_QRESETS q = min (s.rd F.CRQ_STAT_QRESETS q + 1) (2 ^ F.CRQ_STAT_QRESETS.width - 1) ∧ t.rd F.CRQ_IRQ_QRESET q = 1 ∧ t.mem = s.mem ∧
      (t.ras.getLast?.map (fun x => (x.cls, x.sev, x.blk, x.inst))) = some (0x16, 1, rasCRQ, q.val))) ∧
  (∀ (q : Fin 1024) (who : Initiator) (v : BitVec 64) (s : State), Permitted s who (portPage q 0x158) true →
    QueueQuiet s q →
    (∀ w, w = s.written who (portPage q 0x158) (setBits (setBit v.toNat 0 true) 11 8
        (clamp 4 14 (F.CRQ_CFG_CAP_LOG2.of (setBit v.toNat 0 true))) / 2 * 2) → s.rd F.CRQ_CFG_EN q = 0 →
      (w.qCfgOk q = true → Does (.queueEnable q who v) s (fun t => t.rd F.CRQ_CFG_EN q = 1 ∧ t.qW q = 0 ∧ t.qD q = 0 ∧
        t.qL q = 0 ∧ t.qM q = 0 ∧ SameStore s t)) ∧
      (w.qCfgOk q = false → Does (.queueEnable q who v) s (fun t => t.queues = s.queues ∧ SameStore s t ∧
        t.regs = (w.bump F.CRQ_STAT_BAD_CMD 1 q).regs))) ∧
    (s.on F.CRQ_CFG_EN q = true → Does (.queueEnable q who v) s (fun t => t.regs = s.regs) ∧
      Does (.queueDisable q who v) s (fun t => t.rd F.CRQ_CFG_EN q = 0 ∧ t.qW q = s.qW q ∧ SameStore s t)))

/-- A channel: admission, the scheduler's choice, its commands, read data, and the end of PANIC. Rests on R251, R252,
R253, R254, R256, R259, R275, R314, R322. Where a clause touches them, these are the model's choices and no rule: log
entry 11, DESIGN CHOICE, log entry 59, DESIGN CHOICE, log entry 66, DESIGN CHOICE, log entry 122, DEDUCED, log entry
130, DESIGN CHOICE. -/
def Obligations.ChannelQueues : Prop :=
  (∀ (c : Fin 16) (write : Bool) (s : State), s.stage = .running →
    (∀ a : LineAcc, s.nextAdmit c write = some a →
      (a ∈ (s.chan c).wait ∧ a.write = write ∧ s.mayEnter c a = true ∧
        ∀ b ∈ (s.chan c).wait, b.write = write → s.mayEnter c b = true →
          s.prioOf c b < s.prioOf c a ∨ s.prioOf c b = s.prioOf c a ∧ s.bornAt a ≤ s.bornAt b) ∧
      Does (.channelAdmit c write) s (fun t => ∃ u : State, t = ((u.fillBanks c).showDrain c).showRt c ∧
        (u.chan c).wait = (s.chan c).wait.erase a ∧ (u.chan c).issued = (s.chan c).issued ∧ u.mem = s.mem ∧
        (a.write = false ∧ (∃ b ∈ (s.chan c).inq ++ (s.chan c).bq, b.write = true ∧ b.cla = a.cla) →
          (u.chan c).inq = (s.chan c).inq ∧ (u.chan c).bq = (s.chan c).bq ∧
          u.rd F.DRC_STAT_COUNT c 6 = min (s.rd F.DRC_STAT_COUNT c 6 + 1) (2 ^ F.DRC_STAT_COUNT.width - 1) ∧ u.rd F.TST_M_TOTAL_TOTAL 0 a.master = s.rd F.TST_M_TOTAL_TOTAL 0 a.master) ∧
        (a.write = true ∨ (∀ b ∈ (s.chan c).inq ++ (s.chan c).bq, b.write = false ∨ b.cla ≠ a.cla) →
          (a.rt = none → (u.chan c).inq = (s.chan c).inq ++ [{ a with prio := s.prioOf c a }] ∧
            (u.chan c).bq = (s.chan c).bq) ∧
          (a.rt ≠ none → (u.chan c).bq = (s.chan c).bq ++ [{ a with prio := s.prioOf c a }] ∧
            (u.chan c).inq = (s.chan c).inq) ∧
          (a.master < 96 → u.rd F.TST_M_TOTAL_TOTAL 0 a.master =
            (s.rd F.TST_M_TOTAL_TOTAL 0 a.master + 1) % 2 ^ F.TST_M_TOTAL_TOTAL.width)))) ∧
    (s.nextAdmit c write = none → Does (.channelAdmit c write) s (fun t => t = s))) ∧
  (∀ (c : Fin 16) (sub : Fin 2) (banks : BitVec 128) (ranks : BitVec 4) (s : State), s.stage = .running →
    (∀ r : Fin 4, ranks.getLsbD r = true →
      s.rd F.DRC_RANK_STATUS_STATE c r = rankACTIVE ∨ s.rd F.DRC_RANK_STATUS_STATE c r = rankPOWERDOWN →
      s.rd F.DRC_RANK_STATUS_POSTPONE c r = 4 →
      (∀ r' : Fin 4, r'.val < r.val → ranks.getLsbD r' = false) →
      Does (.dramCommandIssue c sub banks ranks) s (fun t => t = s.urgentRefresh c r ∧
        t.rd F.DRC_ERR_REF_URGENT c = min (s.rd F.DRC_ERR_REF_URGENT c + 1) (2 ^ F.DRC_ERR_REF_URGENT.width - 1) ∧ t.rd F.DRC_RANK_STATUS_POSTPONE c r = 3 ∧ SameStore s t)) ∧
    ((∀ r : Fin 4, signed 4 (s.rd F.DRC_RANK_STATUS_POSTPONE c r) ≠ 4) →
      ∀ x ∈ (s.cands c sub).filter (fun x => banks.toNat.testBit (x.queue % 128)),
        (∀ y ∈ (s.cands c sub).filter (fun x => banks.toNat.testBit (x.queue % 128)), y ≠ x →
          s.before c sub x y = true ∧ s.before c sub y x = false) →
        Does (.dramCommandIssue c sub banks ranks) s (fun t => t = s.issue c sub x)) ∧
    ((∀ r : Fin 4, signed 4 (s.rd F.DRC_RANK_STATUS_POSTPONE c r) ≤ 0) →
      (s.cands c sub).filter (fun x => banks.toNat.testBit (x.queue % 128)) = [] →
      (∀ r : Fin 4, ranks.getLsbD r = true → s.rd F.DRC_RANK_STATUS_STATE c r = rankPARKING →
        (s.chan c).entered.contains r.val = false → (∀ r' : Fin 4, r'.val < r.val → ranks.getLsbD r' = false) →
        Does (.dramCommandIssue c sub banks ranks) s (fun t => (t.chan c).entered = (s.chan c).entered ++ [r.val] ∧
          t.regs = s.regs ∧ SameStore s t ∧ ∀ q, q / 32 % 4 = r.val → smGet none (t.chan c).rows q = none)) ∧
      ((∀ r : Fin 4, ranks.getLsbD r = true → s.rd F.DRC_RANK_STATUS_STATE c r ≠ rankPARKING ∨
          (s.chan c).entered.contains r.val = true) →
        Does (.dramCommandIssue c sub banks ranks) s (fun t => t = s)))) ∧
  (∀ (c : Fin 16) (sub : Nat) (x : Cand) (s t : State), s.issue c sub x = t →
    (x.kind = 0 → t.mem = s.mem ∧
      (t.chan c).issued = (if x.acc.write then (s.chan c).issued else (s.chan c).issued ++ [x.acc]) ∧
      ∃ u : State, t = ((u.fillBanks c).showDrain c).showRt c ∧ (u.chan c).bq = (s.chan c).bq.erase x.acc ∧
        (u.chan c).inq = (s.chan c).inq ∧ u.rd F.DRC_STAT_COUNT c 3 = min (s.rd F.DRC_STAT_COUNT c 3 + 1) (2 ^ F.DRC_STAT_COUNT.width - 1)) ∧
    (x.kind = 1 → smGet none (t.chan c).rows x.queue = some x.bank.openRow ∧ (t.chan c).inq = (s.chan c).inq ∧
      (t.chan c).bq = (s.chan c).bq ∧ t.rd F.DRC_STAT_COUNT c 2 = min (s.rd F.DRC_STAT_COUNT c 2 + 1) (2 ^ F.DRC_STAT_COUNT.width - 1)) ∧
    (2 ≤ x.kind → smGet none (t.chan c).rows x.queue = none ∧ (t.chan c).inq = (s.chan c).inq ∧
      (t.chan c).bq = (s.chan c).bq)) ∧
  (∀ (c : Fin 16) (sub : Fin 2) (raw again : Bytes) (s : State), s.stage = .running →
    (∀ a, (s.chan c).issued.find? (fun a => (s.secs.chn c).queue (s.target c a.cla).1 / 128 == sub.val) = some a →
      Does (.dramReadData c sub raw again) s (fun t =>
        t = s.readData c a (burstSymbols (s.x8 c) raw) (burstSymbols (s.x8 c) again) ∧
        (t.chan c).issued = (s.chan c).issued.erase a ∧ (t.chan c).wait = (s.chan c).wait ∧
        (t.chan c).inq = (s.chan c).inq ∧ (t.chan c).bq = (s.chan c).bq)) ∧
    ((s.chan c).issued = [] → Does (.dramReadData c sub raw again) s (fun t => t = s))) ∧
  (∀ (c : Fin 16) (s : State), s.stage = .running →
    ((s.chan c).panic0.open_ = true ∨ (s.chan c).panic1.open_ = true → Does (.panicExpire c) s (fun t =>
      ∃ u : State, t = u.showRt c ∧ (u.chan c).panic0.open_ = false ∧ (u.chan c).panic1.open_ = false ∧
        u.rd F.DRC_IRQ_PANIC_EXPIRE c = 1 ∧ SameStore s u ∧
        u.rd F.DRC_ERR_PANIC_EXPIRE c = min (s.rd F.DRC_ERR_PANIC_EXPIRE c + (b2n (s.chan c).panic0.open_ + b2n (s.chan c).panic1.open_)) (2 ^ F.DRC_ERR_PANIC_EXPIRE.width - 1))) ∧
    ((s.chan c).panic0.open_ = false → (s.chan c).panic1.open_ = false → Does (.panicExpire c) s (fun t => t = s)))

/-- A rank powers down, is parked, woken, checked and refreshed. Rests on R257, R258, R259, R260, R262, R263, R345.
Where a clause touches them, these are the model's choices and no rule: log entry 11, DESIGN CHOICE, log entry 60,
DESIGN CHOICE, log entry 64, DESIGN CHOICE. -/
def Obligations.RankStates : Prop :=
  (∀ (c : Fin 16) (r : Fin 4) (s : State), s.stage = .running →
    (s.rd F.DRC_RANK_STATUS_STATE c r = rankACTIVE → s.rankIdle c r = true → s.on F.DRC_RANK_CTL_PD_IDLE c r = true →
      (s.rd F.PWR_STATUS_FLOOR ≠ 4 → s.on F.DRC_CTL_PD_EN c = true →
        s.secs.loftRank c r = true ∨ 2 ≤ s.rd F.PWR_STATUS_FLOOR → Does (.powerDownEntry c r) s (fun t =>
          t.rd F.DRC_RANK_STATUS_STATE c r = rankPOWERDOWN ∧ SameStore s t ∧ t.out = s.out ∧
          ∀ q, q / 32 % 4 = r.val → smGet none (t.chan c).rows q = none)) ∧
      (s.rd F.PWR_STATUS_FLOOR = 4 → s.secs.loftRank c r = false → Does (.powerDownEntry c r) s (fun t =>
        4 * c.val + r.val ∈ t.pwr.selfRef ∧ t.regs = s.regs ∧ SameStore s t))) ∧
    (s.rd F.DRC_RANK_STATUS_STATE c r ≠ rankACTIVE ∨ s.rankIdle c r = false → Does (.powerDownEntry c r) s (fun t => t = s)) ∧
    (s.rd F.DRC_RANK_STATUS_STATE c r = rankACTIVE ∨ s.rd F.DRC_RANK_STATUS_STATE c r = rankPOWERDOWN →
      s.mayPark c r = true → Does (.parkStart c r) s (fun t => t = s.park c r ∧
        t.rd F.DRC_RANK_STATUS_STATE c r = rankPARKING ∧ SameStore s t ∧ t.out = s.out)) ∧
    (s.mayPark c r = false → Does (.parkStart c r) s (fun t => t = s)) ∧
    (s.rd F.DRC_RANK_STATUS_STATE c r = rankPARKING → s.rd F.DRC_RANK_STATUS_HOT c r = 0 →
      Does (.parkDone c r) s (fun t => t.rd F.DRC_RANK_STATUS_STATE c r = rankPARKED ∧
        t.rd F.DRC_RANK_PARK_ST_ST c r = s.st % 2 ^ F.DRC_RANK_PARK_ST_ST.width ∧ t.rd F.DRC_RANK_CNT_PARKS c r = min (s.rd F.DRC_RANK_CNT_PARKS c r + 1) (2 ^ F.DRC_RANK_CNT_PARKS.width - 1) ∧
        SameStore s t)) ∧
    (s.rd F.DRC_RANK_STATUS_STATE c r ≠ rankPARKING → Does (.parkDone c r) s (fun t => t = s)) ∧
    (s.rd F.DRC_RANK_STATUS_STATE c r = rankPARKED → Does (.refreshCheck c r) s (fun t =>
      t.rd F.DRC_RANK_STATUS_STATE c r = rankCHECKING ∧ t.rd F.DRC_RANK_CNT_WAKES c r = min (s.rd F.DRC_RANK_CNT_WAKES c r + 1) (2 ^ F.DRC_RANK_CNT_WAKES.width - 1) ∧ SameStore s t)) ∧
    (s.rd F.DRC_RANK_STATUS_STATE c r ≠ rankPARKED → Does (.refreshCheck c r) s (fun t => t = s))) ∧
  (∀ (who : Initiator) (c : Fin 16) (r : Fin 4) (v : BitVec 64) (s w : State) (n off : Nat),
    off = F.DRC_RANK_CTL_CMD.addr c r → Permitted s who off true →
    w = (s.written who off (setBits v.toNat 33 32 n)).drcRanges off (s.dropHalves who off) →
    (n = 1 → Does (.rankPark who c r v) s (fun t => t = w.park c r)) ∧
    (n = 2 → Does (.rankWake who c r v) s (fun t => t = w.rouse c r ∧
      (w.rd F.DRC_RANK_STATUS_STATE c r = rankPARKED → t.rd F.DRC_RANK_STATUS_STATE c r = rankWAKING) ∧
      (w.rd F.DRC_RANK_STATUS_STATE c r = rankPARKING → t.rd F.DRC_RANK_STATUS_STATE c r =
        (if (w.chan c).entered.contains r.val then rankWAKING else rankACTIVE))))) ∧
  (∀ (c : Fin 16) (r : Fin 4) (ns : BitVec 16) (hot : Bool) (s : State), s.stage = .running →
    (s.rd F.DRC_RANK_STATUS_STATE c r = rankWAKING → Does (.wakeDone c r ns hot) s (fun t =>
      t.rd F.DRC_RANK_STATUS_STATE c r = rankACTIVE ∧ t.rd F.DRC_RANK_STATUS_POSTPONE c r = 0 ∧ t.mem = s.mem ∧
      (r.val ∈ (t.chan c).mr4 ↔ hot = true) ∧
      (ns.toNat ≤ 2000 → SameStore s t ∧ t.rd F.DRC_ERR_WAKE_LATE c = s.rd F.DRC_ERR_WAKE_LATE c) ∧
      (2000 < ns.toNat → t.rd F.DRC_ERR_WAKE_LATE c = min (s.rd F.DRC_ERR_WAKE_LATE c + 1) (2 ^ F.DRC_ERR_WAKE_LATE.width - 1) ∧ t.rd F.DRC_IRQ_WAKE_LATE c = 1 ∧
        (t.ras.getLast?.map (fun x => (x.cls, x.sev, x.blk, x.inst))) = some (0x40, 2, rasDRC, c.val)))) ∧
    (s.rd F.DRC_RANK_STATUS_STATE c r = rankCHECKING → Does (.wakeDone c r ns hot) s (fun t => ∃ u : State, t = u.park c r ∧
      u.rd F.DRC_RANK_STATUS_STATE c r = rankACTIVE ∧ u.rd F.DRC_RANK_STATUS_POSTPONE c r = 0 ∧
      u.rd F.DRC_STAT_COUNT c 4 = min (s.rd F.DRC_STAT_COUNT c 4 + 1) (2 ^ F.DRC_STAT_COUNT.width - 1))) ∧
    (s.rd F.DRC_RANK_STATUS_STATE c r ≠ rankWAKING → s.rd F.DRC_RANK_STATUS_STATE c r ≠ rankCHECKING →
      Does (.wakeDone c r ns hot) s (fun t => t = s)) ∧
    (s.rd F.DRC_RANK_STATUS_STATE c r = rankACTIVE → s.pwr.selfRef.contains (4 * c.val + r.val) = false →
      (signed 4 (s.rd F.DRC_RANK_STATUS_POSTPONE c r) < 4 →
        signed 4 (s.rd F.DRC_RANK_STATUS_POSTPONE c r) < 0 ∨ s.rankIdle c r = false → Does (.refreshDue c r) s (fun t =>
          signed 4 (t.rd F.DRC_RANK_STATUS_POSTPONE c r) = signed 4 (s.rd F.DRC_RANK_STATUS_POSTPONE c r) + 1 ∧
          SameStore s t ∧ t.dram = s.dram)) ∧
      (0 ≤ signed 4 (s.rd F.DRC_RANK_STATUS_POSTPONE c r) → signed 4 (s.rd F.DRC_RANK_STATUS_POSTPONE c r) < 4 →
        s.rankIdle c r = true → Does (.refreshDue c r) s (fun t => t.rd F.DRC_STAT_COUNT c 4 = min (s.rd F.DRC_STAT_COUNT c 4 + 1) (2 ^ F.DRC_STAT_COUNT.width - 1) ∧ SameStore s t ∧
          signed 4 (t.rd F.DRC_RANK_STATUS_POSTPONE c r) = signed 4 (s.rd F.DRC_RANK_STATUS_POSTPONE c r))) ∧
      (4 ≤ signed 4 (s.rd F.DRC_RANK_STATUS_POSTPONE c r) → Does (.refreshDue c r) s (fun t =>
        t.rd F.DRC_ERR_REF_URGENT c = min (s.rd F.DRC_ERR_REF_URGENT c + 1) (2 ^ F.DRC_ERR_REF_URGENT.width - 1) ∧ t.rd F.DRC_STAT_COUNT c 4 = min (s.rd F.DRC_STAT_COUNT c 4 + 1) (2 ^ F.DRC_STAT_COUNT.width - 1) ∧ t.rd F.DRC_RANK_STATUS_POSTPONE c r = 4))) ∧
    (s.rd F.DRC_RANK_STATUS_STATE c r = rankPARKED → Does (.refreshDue c r) s (fun t => t = s)))

/-- Training, readings, retracking, PMIC faults and the leak of the error counters. Rests on R16, R247, R265, R266,
R267, R268, R269, R279. Where a clause touches them, these are the model's choices and no rule: log entry 11, DESIGN
CHOICE, log entry 60, DESIGN CHOICE, log entry 123, DEDUCED. -/
def Obligations.ChannelCare : Prop :=
  (∀ (c : Fin 16) (t0 : TrainReport) (x : ChanReading) (s : State), s.stage = .running →
    ((s.secs.chn c).dpc ≠ 0 → s.bankOn c = true → s.rd F.DRC_CFG_PRESENT c = 0 → s.rd F.DRC_CFG_EXCLUDED c = 0 →
      (∀ d, dimmsOk (s.secs.chn c) t0.dimm0 t0.dimm1 = true → t0.dimm0 = some d → t0.result = 0 →
        Does (.channelTrainDone c t0 x) s (fun t => ∃ u : State, t = u.reading c x ∧ u.rd F.DRC_CFG_PRESENT c = 1 ∧
          u.rd F.DRC_CFG_DIES c = d.dies.toNat / 2 % 2 ^ F.DRC_CFG_DIES.width ∧ (u.chan c).dies = d.dies.toNat ∧
          u.rd F.DRC_STATUS_TRAIN_MS c = t0.ms.toNat % 2 ^ F.DRC_STATUS_TRAIN_MS.width ∧ SameStore s u ∧
          ∀ r, r < (s.secs.chn c).nRanks → u.rd F.DRC_RANK_STATUS_STATE c r = rankACTIVE)) ∧
      (dimmsOk (s.secs.chn c) t0.dimm0 t0.dimm1 = false ∨ t0.result ≠ 0 → Does (.channelTrainDone c t0 x) s (fun t =>
        t.rd F.DRC_CFG_PRESENT c = 0 ∧ t.rd F.DRC_CFG_EXCLUDED c = 1 ∧ t.rd F.DRC_IRQ_TRAIN_FAIL c = 1 ∧
        t.rd F.DRC_STATUS_TRAIN_RESULT c = (if dimmsOk (s.secs.chn c) t0.dimm0 t0.dimm1 then t0.result.toNat else 7) ∧
        t.mem = s.mem ∧ (∀ r : Fin 4, t.rd F.DRC_RANK_STATUS_STATE c r = rankABSENT) ∧
        (t.ras.getLast?.map (fun x => (x.cls, x.sev, x.blk, x.inst))) = some (0x31, 2, rasDRC, c.val)))) ∧
    ((s.secs.chn c).dpc = 0 ∨ s.bankOn c = false ∨ s.on F.DRC_CFG_PRESENT c = true ∨ s.on F.DRC_CFG_EXCLUDED c = true →
      Does (.channelTrainDone c t0 x) s (fun t => t = s)) ∧
    (s.on F.DRC_CFG_PRESENT c = true → Does (.phaseStaleRead c x) s (fun t => t = (s.reading c x).set F.DRC_STATUS_PHASE_STALE c ∧
      t.rd F.DRC_STATUS_PHASE_STALE c = 1)) ∧
    (s.rd F.DRC_CFG_PRESENT c = 0 → Does (.phaseStaleRead c x) s (fun t => t = s))) ∧
  (∀ (c : Fin 16) (r : Fin 4) (s : State), s.stage = .running → Does (.retrack c r) s (fun t => t = s) ∧
    Does (.ceLeak c r) s (fun t => SameStore s t ∧ t.out = s.out ∧ ∀ d, d < 10 →
      bits (t.rd F.DRC_ECC_RANK_DEVCE_DEVCE c r) (6 * d + 5) (6 * d) =
        bits (s.rd F.DRC_ECC_RANK_DEVCE_DEVCE c r) (6 * d + 5) (6 * d) / 2)) ∧
  (∀ (c : Fin 16) (d : Fin 2) (s : State), s.stage = .running →
    (∀ r0 : Fin 4, s.rankUp c r0 = true → s.dimmOf c r0 = d.val → Does (.pmicFault c d) s (fun t =>
      (∀ r : Fin 4, s.rankUp c r = true → s.dimmOf c r = d.val → t.rd F.DRC_RANK_STATUS_STATE c r = rankOFFLINE) ∧
      t.rd F.DRC_ERR_PMIC_FAULT c = min (s.rd F.DRC_ERR_PMIC_FAULT c + 1) (2 ^ F.DRC_ERR_PMIC_FAULT.width - 1) ∧ t.rd F.DRC_IRQ_PMIC c = 1 ∧ t.mem = s.mem ∧
      (∀ a ∈ (t.chan c).wait ++ (t.chan c).inq ++ (t.chan c).bq ++ (t.chan c).issued,
        ∀ r : Fin 4, s.rankUp c r = true → s.dimmOf c r = d.val → claRank (s.target c a.cla).1 ≠ r.val))) ∧
    ((∀ r : Fin 4, s.rankUp c r = false ∨ s.dimmOf c r ≠ d.val) → Does (.pmicFault c d) s (fun t => t = s)))

/-- The scrubber, line remaps and post-package repair. Rests on R280, R281, R282, R284, R285, R347. Where a clause
touches them, these are the model's choices and no rule: log entry 11, DESIGN CHOICE, log entry 62, DESIGN CHOICE, log
entry 124, DESIGN CHOICE. -/
def Obligations.ScrubAndRepair : Prop :=
  (∀ (c : Fin 16) (s : State), s.stage = .running →
    (∀ w : State, s.on F.DRC_CFG_PRESENT c = true → s.rd F.PWR_STATUS_FLOOR ≠ 4 →
      w = (if (s.chan c).passN = 0 then s.startPass c else s) →
      (∀ cla, w.nextAwake c (w.rd F.DRC_SCRUB_CUR_CLA c) = some cla → Does (.scrubStep c) s (fun t => ∃ u : State,
        u = w.postLine c cla false 89 ∧ SameStore s u ∧
        (∀ n, u.nextAwake c (cla + 1) = some n → t = u.wr F.DRC_SCRUB_CUR_CLA n c) ∧
        (u.nextAwake c (cla + 1) = none → t = u.endPass c ∧ t.rd F.DRC_SCRUB_CUR_CLA c = 0))) ∧
      (w.nextAwake c (w.rd F.DRC_SCRUB_CUR_CLA c) = none → Does (.scrubStep c) s (fun t => t = w.endPass c ∧
        t.rd F.DRC_SCRUB_CUR_CLA c = 0 ∧ SameStore s t))) ∧
    (s.rd F.PWR_STATUS_FLOOR = 4 ∨ s.rd F.DRC_CFG_PRESENT c = 0 → Does (.scrubStep c) s (fun t => t = s)) ∧
    (∀ g, (s.loftRanks c).find? (fun g => s.on F.DRC_SCRUB_RANK_CUR_FORCED c g.r) = some g →
      Does (.scrubWindowStep c) s (fun t => t = s.loftStep c g ∧
        ((s.chan c).passing.contains g.r = true → s.nextLine c g (s.rd F.DRC_SCRUB_RANK_CUR_CURSOR c g.r) = none →
          t.rd F.DRC_SCRUB_RANK_CUR_CURSOR c g.r = 0 ∧ t.rd F.DRC_SCRUB_RANK_CUR_FORCED c g.r = 0 ∧ SameStore s t))) ∧
    ((∀ g ∈ s.loftRanks c, s.rd F.DRC_SCRUB_RANK_CUR_FORCED c g.r = 0) →
      (s.windowOpen 2 c = false → Does (.scrubWindowStep c) s (fun t => t = s)) ∧
      (∀ g, s.windowOpen 2 c = true → (s.loftRanks c).find? (fun g => (s.chan c).loftAt ≤ g.r) = some g →
        Does (.scrubWindowStep c) s (fun t => t = s.loftStep c g)) ∧
      (s.windowOpen 2 c = true → (s.loftRanks c).find? (fun g => (s.chan c).loftAt ≤ g.r) = none →
        Does (.scrubWindowStep c) s (fun t => t = (match s.loftRanks c with | [] => s | g :: _ => s.loftStep c g))))) ∧
  (∀ (c : Fin 16) (r : Fin 4) (s : State), s.stage = .running →
    ((s.loftRanks c).any (fun g => g.r == r.val) = true → Does (.scrubForce c r) s (fun t =>
      t.rd F.DRC_SCRUB_RANK_CUR_FORCED c r = 1 ∧ t.rd F.DRC_ECC_IRQ_SCRUB_FORCED c = 1 ∧ SameStore s t)) ∧
    ((s.loftRanks c).any (fun g => g.r == r.val) = false → Does (.scrubForce c r) s (fun t => t = s))) ∧
  (∀ (who : Initiator) (c : Fin 16) (k : Fin 16) (v : BitVec 64) (s w : State) (n off : Nat),
    off = F.DRC_REMAP_1_CMD.addr c k → Permitted s who off true →
    w = (s.written who off (setBits v.toNat 17 16 n)).drcRanges off (s.dropHalves who off) →
    (n = 1 → Does (.remapInstall who c k v) s (fun t => t = w.install c k ∧ t.mem = s.mem ∧
      (w.spareBase c = none → t.rd F.DRC_REMAP_1_RESULT c k = 2) ∧
      (w.spareBase c ≠ none → w.inSpare c (w.rd F.DRC_REMAP_0_ORIG_CLA c k) = true ∨ w.remapTaken c k = true ∨
          w.rd F.DRC_REMAP_0_STATE c k ≠ rmFREE →
        t.rd F.DRC_REMAP_1_RESULT c k = 1) ∧
      (w.spareBase c ≠ none → w.inSpare c (w.rd F.DRC_REMAP_0_ORIG_CLA c k) = false → w.remapTaken c k = false →
        w.rd F.DRC_REMAP_0_STATE c k = rmFREE → t.rd F.DRC_REMAP_0_STATE c k = rmCOPYING))) ∧
    (n = 2 → Does (.remapRetire who c k v) s (fun t => t = w.retire c k ∧
      (w.rd F.DRC_REMAP_0_STATE c k = rmACTIVE → t.rd F.DRC_REMAP_0_STATE c k = rmFREE ∧
        t.rd F.DRC_REMAP_1_RESULT c k = 0 ∧ t.rd F.DRC_ECC_IRQ_REMAP_DONE c = 1)))) ∧
  (∀ (c k : Fin 16) (s : State), s.stage = .running →
    (s.rd F.DRC_REMAP_0_STATE c k = rmCOPYING →
      (∀ a ∈ (s.chan c).inq ++ (s.chan c).bq, a.cla ≠ s.rd F.DRC_REMAP_0_ORIG_CLA c k) → Does (.remapInstallDone c k) s (fun t =>
      t.rd F.DRC_REMAP_0_STATE c k = rmACTIVE ∧ t.rd F.DRC_REMAP_1_RESULT c k = 0 ∧
      t.rd F.DRC_ECC_IRQ_REMAP_DONE c = 1 ∧ t.coh = s.coh ∧ t.map = s.map)) ∧
    (s.rd F.DRC_REMAP_0_STATE c k ≠ rmCOPYING ∨
      (∃ a ∈ (s.chan c).inq ++ (s.chan c).bq, a.cla = s.rd F.DRC_REMAP_0_ORIG_CLA c k) → Does (.remapInstallDone c k) s (fun t => t = s))) ∧
  (∀ (who : Initiator) (c : Fin 16) (s w : State) (n off : Nat), off = F.DRC_PPR_CMD_TYPE.addr c 0 →
    Permitted s who off true → w = (s.written who off n).drcRanges off (s.dropHalves who off) →
    (n = 1 → Does (.pprSoft who c) s (fun t => t = w.repair c 1 ∧
      ((w.chan c).ppr = none → (t.chan c).ppr = some 1 ∧ t.rd F.DRC_PPR_CMD_DONE c = 0 ∧ t.mem = s.mem) ∧
      ((w.chan c).ppr ≠ none → t.rd F.DRC_PPR_CMD_RESULT c = 4 ∧ t.dram = s.dram))) ∧
    (n = 2 → Does (.pprHard who c) s (fun t => t = w.repair c 2 ∧
      ((w.chan c).ppr ≠ none → t.rd F.DRC_PPR_CMD_RESULT c = 4 ∧ t.dram = s.dram) ∧
      ((w.chan c).ppr = none → w.training c = false → t.rd F.DRC_PPR_CMD_RESULT c = 2 ∧
        t.rd F.DRC_PPR_CMD_DONE c = 1 ∧ t.rd F.DRC_ECC_IRQ_PPR_DONE c = 1 ∧ t.dram = s.dram) ∧
      ((w.chan c).ppr = none → w.training c = true → (t.chan c).ppr = some 2)))) ∧
  (∀ (c : Fin 16) (result : BitVec 2) (s : State), s.stage = .running →
    (∀ k, (s.chan c).ppr = some k → Does (.pprDone c result) s (fun t => (t.chan c).ppr = none ∧
      t.rd F.DRC_PPR_CMD_RESULT c = (if result = 1 then 1 else if result = 3 then 3 else 0) ∧
      t.rd F.DRC_PPR_CMD_DONE c = 1 ∧ t.rd F.DRC_ECC_IRQ_PPR_DONE c = 1 ∧ (k = 2 → t.mem = s.mem))) ∧
    ((s.chan c).ppr = none → Does (.pprDone c result) s (fun t => t = s)))

/-- Each of the 19 job commands completes, and handles the next units of the job it names, if the job is of its
operation. Rests on R301, R303, R305, R307, R309, R411. Where a clause touches them, these are the model's choices and
no rule: log entry 11, DESIGN CHOICE, log entry 34, DESIGN CHOICE. -/
def Obligations.JobRows : Prop :=
  (∀ (g i : Fin 16) (n : BitVec 16) (s : State)
    (x : (BitVec 16 → Instr) × (BitVec 16 → Nat) × Nat × (State → Nat → Job → State × Bool)), x ∈ ([(fun n => .copy g i n, fun n => n.toNat, 0x01, copyUnit),
      (fun n => .fill g i n, fun n => n.toNat, 0x02, fillUnit),
      (fun n => .zdetect g i n, fun n => n.toNat, 0x03, examine zdetectLine id),
      (fun n => .crc g i n, fun n => n.toNat, 0x04, examine crcLine crcEnd),
      (fun n => .scan g i n, fun n => n.toNat, 0x05, examine scanLine id),
      (fun n => .touch g i n, fun n => n.toNat, 0x06, touchUnit),
      (fun n => .twinhash g i n, fun n => n.toNat, 0x07, twinhashUnit),
      (fun n => .encode g i n, fun n => n.toNat, 0x08, encodeUnit),
      (fun n => .decode g i n, fun n => n.toNat, 0x09, decodeUnit),
      (fun n => .aesEnc g i n, fun n => n.toNat, 0x0A, aesJobUnit false),
      (fun n => .aesDec g i n, fun n => n.toNat, 0x0B, aesJobUnit true),
      (fun _ => .demote g i, fun _ => 1, 0x10, demoteUnit),
      (fun _ => .demoteCommit g i, fun _ => 1, 0x10, demoteCommitUnit),
      (fun _ => .relocate g i, fun _ => 1, 0x11, relocateUnit),
      (fun _ => .relocateCommit g i, fun _ => 1, 0x11, relocateCommitUnit),
      (fun n => .promote g i n, fun n => n.toNat, 0x12, promoteUnit),
      (fun n => .mapScan g i n, fun n => n.toNat, 0x13, mapScanUnit),
      (fun n => .rekey g i n, fun n => n.toNat, 0x14, rekeyUnit),
      (fun n => .reslot g i n, fun n => n.toNat, 0x15, reslotUnit)] :
      List ((BitVec 16 → Instr) × (BitVec 16 → Nat) × Nat × (State → Nat → Job → State × Bool))) → s.stage = .running →
    ((s.gal g).jobs[i.val]? = none → Does (x.1 n) s (fun t => t = s)) ∧
    (∀ j : Job, (s.gal g).jobs[i.val]? = some j →
      (j.op ≠ x.2.2.1 → Does (x.1 n) s (fun t => t = s)) ∧
      (j.op = x.2.2.1 → Does (x.1 n) s (fun t => t = State.startJobs 16 (State.jobRun x.2.2.2 (x.2.1 n) s g j.seq) g)) ∧
      (x.2.1 n = 1 → JobReady s g i x.2.2.1 j → Does (x.1 n) s (fun t => t = State.startJobs 16 (x.2.2.2 s g j).1 g)) ∧
      (0 < x.2.1 n → s.jobBySeq g j.seq = some j → j.op = x.2.2.1 → j.st = .running → j.list = [] → j.wrote = none →
        (s.suspect g = true → Does (x.1 n) s (fun t => t = State.startJobs 16 (s.endJob g j resFAULT 0) g)) ∧
        (s.suspect g = false → (s.gal g).aborts.contains (j.dq, j.seq) = true →
          Does (x.1 n) s (fun t => t = State.startJobs 16 (s.endJob g j resABORTED 0) g))))) ∧
  (∀ (unit : State → Nat → Job → State × Bool) (n g : Nat) (s : State) (j : Job), s.jobBySeq g j.seq = some j →
    j.st = .running → j.list = [] →
    (j.wrote = none → s.suspect g = false ∧ (s.gal g).aborts.contains (j.dq, j.seq) = false) →
    State.jobRun unit (n + 1) s g j.seq =
      (if (unit s g j).2 then State.jobRun unit n (unit s g j).1 g j.seq else (unit s g j).1))

/-- What one line does to COPY, FILL, ZDETECT, CRC, SCAN, TOUCH, TWINHASH and the codec and AES jobs. Rests on R212,
R303, R305, R306, R101, R126, R133, Table 12-6. Where a clause touches them, these are the model's choices and no
rule: log entry 36, DESIGN CHOICE. -/
def Obligations.LineJobs : Prop :=
  ∀ (s s1 s2 : State) (g : Nat) (j j1 j2 : Job) (d : Line) (bad : Bool),
    (j.arg 2 ≤ j.pos → copyUnit s g j = (s.endJob g j resDONE 0, false) ∧ fillUnit s g j = (s.endJob g j resDONE 0, false) ∧
      touchUnit s g j = (s.endJob g j resDONE 0, false) ∧
      examine zdetectLine id s g j = (s.endJob g j resDONE 0, false) ∧
      examine scanLine id s g j = (s.endJob g j resDONE 0, false) ∧
      examine crcLine crcEnd s g j = (s.endJob g { j with r0 := j.acc ^^^ (2 ^ 64 - 1) } resDONE 0, false)) ∧
    (4096 ≤ j.taken → twinhashUnit s g j = (s.endJob g { j with
      r0 := s.twinHash (s.pme (j.arg 0)).key j.inBuf % 2 ^ 64, r1 := s.twinHash (s.pme (j.arg 0)).key j.inBuf / 2 ^ 64,
      inBuf := [] } resDONE 0, false)) ∧
    (j.pos < j.arg 2 → s.jobFetch g j (j.arg 0 + j.pos) = (.wait, j1, s1) →
      copyUnit s g j = (s1.setJob g j1, false) ∧ examine zdetectLine id s g j = (s1.setJob g j1, false) ∧
      examine crcLine crcEnd s g j = (s1.setJob g j1, false) ∧ examine scanLine id s g j = (s1.setJob g j1, false)) ∧
    (j.pos < j.arg 2 → s.jobFetch g j (j.arg 0 + j.pos) = (.data d bad, j1, s1) →
      (s1.jobStore g j1 (j1.arg 1 + j1.pos) d (BitVec.allOnes 64) bad = (.done, j2, s2) →
        copyUnit s g j = (s2.setJob g { j2 with
          got := none, asked := [], pos := j2.pos + 64, progress := j2.pos + 64, r1 := j2.r1 + b2n bad }, true)) ∧
      (bad = true → examine zdetectLine id s g j =
          (s1.endJob g { j1 with got := none, asked := [], progress := j1.pos } resFAULT 0, false) ∧
        examine crcLine crcEnd s g j =
          (s1.endJob g { j1 with got := none, asked := [], progress := j1.pos } resFAULT 0, false) ∧
        examine scanLine id s g j =
          (s1.endJob g { j1 with got := none, asked := [], progress := j1.pos } resFAULT 0, false)) ∧
      (bad = false → j1.inBuf = [] → j1.result = 0 →
        examine zdetectLine id s g j = (s1.setJob g { j1 with
          got := none, asked := [], pos := j1.pos + 64, progress := j1.pos + 64,
          r0 := if d = 0 then j1.r0 else j1.r0 + 1, r1 := if d = 0 ∨ j1.r0 ≠ 0 then j1.r1 else j1.pos }, true) ∧
        examine crcLine crcEnd s g j = (s1.setJob g { j1 with
          got := none, asked := [], pos := j1.pos + 64, progress := j1.pos + 64,
          acc := (lineBytes d).foldl crcByte j1.acc }, true) ∧
        (64 < 2 ^ (j1.arg 3 % 16) → examine scanLine id s g j = (s1.setJob g { j1 with
          got := none, asked := [], pos := j1.pos + 64, progress := j1.pos, inBuf := lineBytes d }, true)) ∧
        (2 ^ (j1.arg 3 % 16) = 64 →
          (j1.matches (lineBytes d) = false → examine scanLine id s g j = (s1.setJob g { j1 with
            got := none, asked := [], pos := j1.pos + 64, progress := j1.pos + 64 }, true)) ∧
          (j1.matches (lineBytes d) = true → ∀ k : Job, k = ({ j1 with got := none, asked := [] }).addEntry (j1.arg 0 + j1.pos) →
            (j1.arg 4 = 0 ∨ j1.r0 + 1 < j1.arg 4 → examine scanLine id s g j = (s1.setJob g { k with
              r0 := j1.r0 + 1, pos := j1.pos + 64, progress := j1.pos + 64 }, true)) ∧
            (j1.arg 4 ≠ 0 → j1.arg 4 ≤ j1.r0 + 1 → examine scanLine id s g j = (s1.endJob g { k with
              r0 := j1.r0 + 1, result := resLIMIT, pos := j1.pos + 64, progress := j1.pos + 64 } resLIMIT 0, false)))))) ∧
    (j.pos < j.arg 2 → s.jobStore g j (j.arg 1 + j.pos) (lineOfBytes ((List.range 8).flatMap (fun _ => toLE 8 (j.arg 3))))
      (BitVec.allOnes 64) false = (.done, j1, s1) →
      fillUnit s g j = (s1.setJob g { j1 with pos := j1.pos + 64, progress := j1.pos + 64 }, true)) ∧
    (j.pos < j.arg 2 → j.wrote = none → s.jobPlace j (j.arg 1 + j.pos) = none →
      fillUnit s g j = (s.endJob g j resFAULT 0, false)) ∧
    (j.pos < j.arg 2 → s.jobPlace j (j.arg 0 + j.pos) = none → touchUnit s g j = (s.endJob g j resFAULT 0, false)) ∧
    (j.pos < j.arg 2 → j.got = none → s.jobPlace j (j.arg 0 + j.pos) = none →
      copyUnit s g j = (s.endJob g j resFAULT 0, false) ∧ examine zdetectLine id s g j = (s.endJob g j resFAULT 0, false) ∧
      examine crcLine crcEnd s g j = (s.endJob g j resFAULT 0, false) ∧
      examine scanLine id s g j = (s.endJob g j resFAULT 0, false)) ∧
    (∀ sl line, j.pos < j.arg 2 → s.jobPlace j (j.arg 0 + j.pos) = some (sl, line) → (s.agLine (64 + g) sl line).st.hits = true →
      j.asked ≠ [] → touchUnit s g j = (s.setJob g { j with asked := [], pos := j.pos + 64, progress := j.pos + 64 }, true)) ∧
    (j.outBuf = [] → j.pos < j.arg 2 → 512 ≤ j.inBuf.length →
      encodeUnit s g j = ((s.encodeBlock g 0 0 false j.inBuf).2.setJob g { j with
        inBuf := [], outBuf := aloneImage (s.encodeBlock g 0 0 false j.inBuf).1 j.inBuf,
        r0 := j.r0 + (aloneImage (s.encodeBlock g 0 0 false j.inBuf).1 j.inBuf).length, pos := j.pos + 1,
        progress := j.pos + 1 }, true)) ∧
    (j.outBuf = [] → j.pos < j.arg 2 → 528 ≤ j.inBuf.length ∨ j.arg 3 ≤ j.taken →
      (∀ b n, aloneDecode j.inBuf = .ok (b, n) → decodeUnit s g j =
        ((s.countDec g 0).setJob g { j with outBuf := b, inBuf := j.inBuf.drop n, r0 := j.r0 + n, pos := j.pos + 1 }, true)) ∧
      (∀ e, aloneDecode j.inBuf = .error e →
        decodeUnit s g j = (((s.countDec g 0).treadFail g 0 0 true e).endJob g j resFAULT e.code, false))) ∧
    (∀ dec unit need, unit = bits (j.arg 3) 28 16 → need = min unit (j.arg 2 - j.pos * unit) → j.outBuf = [] →
      j.pos * unit < j.arg 2 → need ≤ j.inBuf.length →
      (s.keyUp (j.arg 3 % 256) = false → aesJobUnit dec s g j = (s.emptyUse.endJob g j resFAULT 0, false)) ∧
      (s.keyUp (j.arg 3 % 256) = true → 16 ≤ need → aesJobUnit dec s g j = (s.setJob g { j with
        inBuf := j.inBuf.drop need, pos := j.pos + 1,
        outBuf := xtsUnit (if dec then aesDec (toLE 32 (s.keySlot (j.arg 3 % 256)).cur.k1)
            else aesEnc (toLE 32 (s.keySlot (j.arg 3 % 256)).cur.k1)) dec
          (aesEnc (toLE 32 (s.keySlot (j.arg 3 % 256)).cur.k2)
            (toLE 16 ((j.arg 4 + j.arg 5 * 2 ^ 64 + j.pos) % 2 ^ 128))) (j.inBuf.take need) }, true)))

/-- What one page does to DEMOTE, RELOCATE, PROMOTE, MAP_SCAN, REKEY and RESLOT, and to their commits. Rests on R93,
R94, R96, R98, R100, R140, R152, R153, R237, Table 4-4, Table 4-5. Where a clause touches them, these are the model's
choices and no rule: log entry 29, DESIGN CHOICE, log entry 37, DESIGN CHOICE, log entry 109, DESIGN CHOICE. -/
def Obligations.PageJobs : Prop :=
  ∀ (s w : State) (g p : Nat) (j : Job) (a : Bool × State),
    (j.pageAt j.pos = none → demoteUnit s g j = (s.endJob g j resDONE 0, false) ∧
      relocateUnit s g j = (s.endJob g j resDONE 0, false) ∧ promoteUnit s g j = (s.endJob g j resDONE 0, false) ∧
      mapScanUnit s g j = (s.endJob g j resDONE 0, false) ∧ reslotUnit s g j = (s.endJob g j resDONE 0, false)) ∧
    (j.pageAt j.pos = some p → s.pageHeld p = true → demoteUnit s g j = (s.wakeSlice p, false) ∧
      relocateUnit s g j = (s.wakeSlice p, false) ∧ promoteUnit s g j = (s.wakeSlice p, false) ∧
      (s.imported p = false → mapScanUnit s g j = (s.wakeSlice p, false))) ∧
    (j.pageAt j.pos = some p → s.pageHeld p = false → w = s.pageTouch p (j.master g) →
      a = (if (w.pme p).tier < 2 then (false, w)
        else w.stepRouse (w.runOf p (w.pme p)).mas (w.galsDown (w.runOf p (w.pme p)))) →
      (a.2.imported p = true → promoteUnit s g j = a.2.pageEnds g j p psWRONGTIER) ∧
      (a.2.imported p = false → a.2.lost p = true → promoteUnit s g j = (a.2.noteLost p).pageEnds g j p psLOST) ∧
      (a.2.imported p = false → a.2.lost p = false →
        ((w.pme p).tier < 2 → promoteUnit s g j = a.2.pageEnds g j p psWRONGTIER) ∧
        (2 ≤ (w.pme p).tier →
          (a.2.keyUp (w.runOf p (w.pme p)).key = false → promoteUnit s g j = a.2.emptyUse.pageEnds g j p psLOST) ∧
          (a.2.keyUp (w.runOf p (w.pme p)).key = true →
            (a.1 = true → promoteUnit s g j = (a.2, false)) ∧
            (a.1 = false → a.2.integ p = 0 ∨ (w.pme p).twin = true →
              (a.2.frameNow p = none → promoteUnit s g j = a.2.pageEnds g j p psNOSPACE) ∧
              (∀ f u, a.2.frameNow p = some (f, u) → promoteUnit s g j =
                (u.promote p f false none ([], true) (j.master g)).pageEnds g j p psDONE)))))) ∧
    (j.pageAt j.pos = some p → s.pageHeld p = false → j.page = none → s.on F.GEN_STATUS_FATAL = false →
      a = (s.mapTouch ⟨false, p / 4, false⟩ (j.master g)).stepRouse
        ((List.range 64).map (fun l => (s.pme p).loc * 4096 + 64 * l)) [] →
      (a.2.imported p = true → demoteUnit s g j = a.2.pageEnds g j p psWRONGTIER) ∧
      (a.2.imported p = false → a.2.lost p = true → demoteUnit s g j = (a.2.noteLost p).pageEnds g j p psLOST) ∧
      (a.2.imported p = false → a.2.lost p = false →
        ((s.pme p).tier ≠ 1 → demoteUnit s g j = a.2.pageEnds g j p psWRONGTIER) ∧
        ((s.pme p).tier = 1 → (s.pme p).poison = true → demoteUnit s g j = a.2.pageEnds g j p psPOISON) ∧
        ((s.pme p).tier = 1 → (s.pme p).poison = false → a.2.map.dropped.any (· / 64 == p) = false →
          (a.2.keyUp (s.pme p).key = false ∨ a.2.keyUp (a.2.regionSlot p) = false →
            demoteUnit s g j = a.2.emptyUse.pageEnds g j p psLOST) ∧
          (a.2.keyUp (s.pme p).key = true → a.2.keyUp (a.2.regionSlot p) = true →
            (a.1 = true → demoteUnit s g j = (a.2, false)) ∧
            (a.1 = false → a.2.heldLines p ≠ [] → demoteUnit s g j =
              ((a.2.recallLines g j (a.2.heldLines p)).1.setJob g (a.2.recallLines g j (a.2.heldLines p)).2, false)) ∧
            (a.1 = false → a.2.heldLines p = [] → ∀ page bad u, a.2.readPage p (j.master g) = ((page, bad), u) →
              demoteUnit s g j = (if bad then u.pageEnds g j p psPOISON
                else u.demoteStep g { j with got := none, asked := [] } p page)))))) ∧
    (∀ page, s.conceal p = false → allZero page = true → s.demoteStep g j p page =
      (({ s with map := { s.map with watch := s.map.watch ++ [(p, j.seq, false)] } } : State).setJob g { j with
        page := some ⟨p, s.pme p, {}, psZERO, none, { zero := true }, none, none, false⟩ }, true)) ∧
    (j.pageAt j.pos = some p → s.pageHeld p = false → j.page = none → s.on F.GEN_STATUS_FATAL = false →
      w = s.pageTouch p (j.master g) →
      (w.imported p = true → relocateUnit s g j = w.pageEnds g j p psWRONGTIER) ∧
      (w.imported p = false → w.lost p = true → relocateUnit s g j = (w.noteLost p).pageEnds g j p psLOST) ∧
      (w.imported p = false → w.lost p = false →
        ((w.pme p).tier < 2 → relocateUnit s g j = w.pageEnds g j p psWRONGTIER) ∧
        (2 ≤ (w.pme p).tier → ∀ grp, w.rankGroup (bits (j.arg 2) 12 8) ((w.pme p).tier == 3) = some grp →
          a = w.stepRouse (w.runOf p (w.pme p)).mas [] →
          (a.1 = true → relocateUnit s g j = (a.2, false)) ∧
          (a.1 = false → a.2.integ p = 0 ∨ (w.pme p).twin = true →
            (a.2.allocRun grp (w.runOf p (w.pme p)).total = none → relocateUnit s g j = a.2.pageEnds g j p psNOSPACE) ∧
            (∀ loc u bad v, a.2.allocRun grp (w.runOf p (w.pme p)).total = some (loc, u) →
              u.copyRun (w.runOf p (w.pme p)).loc loc (w.runOf p (w.pme p)).total (j.master g) = (bad, v) →
              relocateUnit s g j = (v.setJob g { j with page := some ⟨p, w.pme p, a.2.twin (w.pme p).loc,
                (if bad then psUNCORR else psDONE), some (loc, (w.runOf p (w.pme p)).total), w.pme p, none, none, false⟩ },
                true)))))) ∧
    (∀ st : PageStep, j.page = some st → s.stepHeld g j st.page = false →
      (s.map.watch.any (fun x => x.1 == st.page && x.2.1 == j.seq && x.2.2) = true →
        demoteCommitUnit s g j = (s.undoStep j).pageEnds g { j with page := none } st.page psWRITTEN) ∧
      (s.map.watch.any (fun x => x.1 == st.page && x.2.1 == j.seq && x.2.2) = false → s.lost st.page = false →
        (s.pme st.page).tier = 1 → (s.pme st.page).loc = st.was.loc →
        ((s.pme st.page).pin = true ∨ s.ringPage st.page = true →
          demoteCommitUnit s g j = (s.undoStep j).pageEnds g { j with page := none } st.page psPINNED) ∧
        ((s.pme st.page).pin = false → s.ringPage st.page = false → st.run = none ∨ s.integ st.page = 0 →
          demoteCommitUnit s g j = (s.demoteDone g j st).pageEnds g { j with page := none } st.page st.status))) ∧
    (∀ st : PageStep, j.page = some st → s.pageHeld st.page = false →
      ((s.pme st.page).tier ≠ st.was.tier → relocateCommitUnit s g j =
        (s.undoStep j).pageEnds g { j with page := none } st.page psWRONGTIER) ∧
      (∀ l n, st.run = some (l, n) → (s.pme st.page).tier = st.was.tier → (s.pme st.page).twin = false →
        st.was.twin = false → (s.pme st.page).loc = st.was.loc → relocateCommitUnit s g j =
          ((s.setPme st.page { s.pme st.page with
              loc := l, poison := (s.pme st.page).poison || st.status == psUNCORR } (j.master g)).releaseRun
            (s.runOf st.page (s.pme st.page)).loc (s.runOf st.page (s.pme st.page)).total).pageEnds
              g { j with page := none } st.page st.status)) ∧
    (j.pageAt j.pos = some p →
      (s.imported p = true → mapScanUnit s g j = s.pageEnds g j p psWRONGTIER) ∧
      (s.imported p = false → s.pageHeld p = false → w = s.pageTouch p (j.master g) → w.lost p = false →
        mapScanUnit s g j = (w.setJob g { (if (j.arg 2).testBit (w.pme p).tier = true ∧ bits (j.arg 2) 15 8 ≤ (w.pme p).age ∧
          j.arg 3 ≤ w.locChunk (w.pme p) ∧ w.locChunk (w.pme p) < j.arg 4 then j.addEntry p else j) with
          pos := j.pos + 1, progress := j.pos + 1 }, true))) ∧
    (∀ n, j.arg 0 = n → j.pos < j.arg 1 → s.on F.GEN_STATUS_FATAL = false → (s.keySlot n).erasing = false →
      (s.rd F.KEY_SLOT_STATE_STATE 0 n = 0 →
        (s.lostPage j n = none → rekeyUnit s g j = (s.endJob g j resDONE 0, false)) ∧
        (∀ q, s.lostPage j n = some q → rekeyUnit s g j = s.emptyUse.pageEnds g { j with taken := q + 1 } q psLOST)) ∧
      (s.rd F.KEY_SLOT_STATE_STATE 0 n = 2 → s.rd F.KEY_SLOT_PCURSOR_PCURSOR 0 n = p → p < s.secs.pages →
        s.stepHeld g j p = false → w = s.pageTouch p (j.master g) →
        (w.lost p = true ∨ (w.pme p).tier = 0 ∨ (w.pme p).twin = true ∨ (w.pme p).key ≠ n →
          rekeyUnit s g j = ((w.wr F.KEY_SLOT_PCURSOR_PCURSOR (p + 1) 0 n).setJob g { j with
            pos := j.pos + 1, progress := j.pos + 1, wrote := none }, true)) ∧
        (w.lost p = false → (w.pme p).tier = 1 → (w.pme p).twin = false → (w.pme p).key = n →
          a = w.stepRouse [(w.pme p).loc * 4096] [] →
          (a.1 = true → rekeyUnit s g j = (a.2, false)) ∧
          (a.1 = false → j.wrote = none → (a.2.pme p).tier = 1 → ∀ ls u, a.2.hallLines p (j.master g) = (ls, u) →
            rekeyUnit s g j = (((((u.wr F.KEY_SLOT_PCURSOR_PCURSOR (p + 1) 0 n).putPage p ls).noteWrite p).stepEnds j).setJob g
              { j with pos := j.pos + 1, progress := j.pos + 1, wrote := none }, true))))) ∧
    (j.pageAt j.pos = some p → s.stepHeld g j p = false → s.on F.GEN_STATUS_FATAL = false →
      w = s.pageTouch p (j.master g) →
      a = (if (w.pme p).tier = 0 then (false, w)
        else w.stepRouse (if (w.pme p).tier = 1 then [(w.pme p).loc * 4096] else (w.runOf p (w.pme p)).mas) []) →
      (a.2.imported p = true → reslotUnit s g j = a.2.pageEnds g j p psWRONGTIER) ∧
      (a.2.imported p = false → a.2.lost p = true → reslotUnit s g j = (a.2.noteLost p).pageEnds g j p psLOST) ∧
      (a.2.imported p = false → a.2.lost p = false →
        ((w.pme p).twin = true → reslotUnit s g j = a.2.pageEnds g j p psWRONGTIER) ∧
        ((w.pme p).twin = false → (w.pme p).tier = 0 ∨ (w.pme p).key = w.regionSlot p →
          reslotUnit s g j = a.2.pageEnds g j p psDONE) ∧
        ((w.pme p).twin = false → (w.pme p).tier = 1 → (w.pme p).key ≠ w.regionSlot p →
          (a.2.keyUp (w.pme p).key = false ∨ a.2.keyUp (w.regionSlot p) = false →
            reslotUnit s g j = a.2.emptyUse.pageEnds g j p psLOST) ∧
          (a.2.keyUp (w.pme p).key = true → a.2.keyUp (w.regionSlot p) = true →
            (a.1 = true → reslotUnit s g j = (a.2, false)) ∧
            (a.1 = false → j.wrote = none → (a.2.pme p).tier = 1 → ∀ ls u, a.2.hallLines p (j.master g) = (ls, u) →
              reslotUnit s g j = (((u.setPme p { u.pme p with key := w.regionSlot p } (j.master g)).putPage p ls).noteWrite
                p).pageEnds g j p psDONE)))))

/-- Job queues are bound and unbound, descriptors fetched, jobs committed and aborted, and a gallery's cache flushed.
Rests on R300, R301, R302, R308, R309, R312. Where a clause touches them, these are the model's choices and no rule:
log entry 11, DESIGN CHOICE, log entry 35, DESIGN CHOICE, log entry 65, DESIGN CHOICE, log entry 126, DEDUCED. -/
def Obligations.JobQueues : Prop :=
  (∀ (who : Initiator) (g : Fin 16) (k : Fin 8) (v : BitVec 64) (s w : State) (off x : Nat),
    off = F.GAL_JQ_CFG_EN.addr g k → Permitted s who off true →
    w = ((s.dropHalves who off).wr F.GAL_JQ_CFG_WEIGHT (max 1 (F.GAL_JQ_CFG_WEIGHT.of x)) g k).writeWord who off x
      (fun f => f != F.GAL_JQ_CFG_EN && f != F.GAL_JQ_CFG_WEIGHT) →
    (x = setBit v.toNat 63 true → s.rd F.GAL_JQ_CFG_EN g k = 0 →
      (w.bindOk g (F.GAL_JQ_CFG_DQ.of x) (F.GAL_JQ_CFG_CQ.of x) (F.GAL_JQ_CFG_OWNER.of x) = true →
        Does (.jobQueueBind who g k v) s (fun t => t.rd F.GAL_JQ_CFG_EN g k = 1 ∧ t.rd F.GAL_JQ_CFG_REFUSED g k = 0 ∧
          SameStore s t ∧ t.gals = s.gals)) ∧
      (w.bindOk g (F.GAL_JQ_CFG_DQ.of x) (F.GAL_JQ_CFG_CQ.of x) (F.GAL_JQ_CFG_OWNER.of x) = false →
        Does (.jobQueueBind who g k v) s (fun t => t.rd F.GAL_JQ_CFG_EN g k = 0 ∧ t.rd F.GAL_JQ_CFG_REFUSED g k = 1 ∧
          SameStore s t ∧ t.gals = s.gals))) ∧
    (x = setBit v.toNat 63 true → s.on F.GAL_JQ_CFG_EN g k = true → Does (.jobQueueBind who g k v) s (fun t =>
      t.rd F.GAL_JQ_CFG_DQ g k = s.rd F.GAL_JQ_CFG_DQ g k ∧ t.rd F.GAL_JQ_CFG_OWNER g k = s.rd F.GAL_JQ_CFG_OWNER g k ∧
      t.on F.GAL_JQ_CFG_EN g k = true ∧ SameStore s t)) ∧
    (x = setBit v.toNat 63 false → s.rd F.GAL_JQ_CFG_EN g k = 0 → Does (.jobQueueUnbind who g k v) s (fun t =>
      t.rd F.GAL_JQ_CFG_EN g k = 0 ∧ SameStore s t ∧ t.gals = s.gals)) ∧
    (x = setBit v.toNat 63 false → s.on F.GAL_JQ_CFG_EN g k = true → (s.gal g).part = none →
      ((s.gal g).jobs.any (·.jq == k.val) = false → Does (.jobQueueUnbind who g k v) s (fun t =>
        t.rd F.GAL_JQ_CFG_EN g k = 0 ∧ SameStore s t)) ∧
      ((s.gal g).jobs.any (·.jq == k.val) = true → Does (.jobQueueUnbind who g k v) s (fun t =>
        t.on F.GAL_JQ_CFG_EN g k = true ∧ k.val ∈ (t.gal g).closing ∧ (t.gal g).jobs = (s.gal g).jobs ∧ SameStore s t)))) ∧
  (∀ (who : Initiator) (g : Fin 16) (v : BitVec 64) (s : State) (off : Nat), off = F.GAL_CTL_FLUSH.addr g 0 →
    Permitted s who off true → Does (.galFlush who g v) s (fun t => ∃ u : State, t = u.galEvict g ∧
      (u.gal g).flush = true ∧ SameStore s u ∧
      u = (s.written who off (setBit v.toNat 2 true)).onGal g (fun y => { y with flush := true }))) ∧
  (∀ (g : Fin 16) (s : State), s.stage = .running →
    (s.rd F.NOC_DOM_STATUS_STATE 0 (16 + g) ≠ domON ∨ s.on F.GEN_STATUS_FATAL = true ∨ 16 ≤ (s.gal g).jobs.length ∨
        ((s.gal g).part = none ∧ s.turnOf g = none) →
      Does (.descriptorFetch g) s (fun t => t = s)) ∧
    (∀ (x : Nat × Nat) (l : List QItem) (trunc : Bool) (u w : State), s.rd F.NOC_DOM_STATUS_STATE 0 (16 + g) = domON →
      s.on F.GEN_STATUS_FATAL = false → (s.gal g).jobs.length < 16 → (s.gal g).part = none → s.turnOf g = some x →
      w = s.onGal g (fun y => { y with turn := x }) →
      State.popPacket (w.qAvail (s.rd F.GAL_JQ_CFG_DQ g x.1) + 2) w (s.rd F.GAL_JQ_CFG_DQ g x.1) [] =
        (some (l, some trunc), u) → Does (.descriptorFetch g) s (fun t => ∃ (n : State) (j : Job),
          t = State.startJobs 16 (n.keepMark g x.1) g ∧ (n.gal g).jobs = (u.gal g).jobs ++ [j] ∧ j.items = l.map (·.item) ∧
          j.jq = x.1 ∧ j.st = .fetched ∧ j.seq = u.jobSeq ∧ n.jobSeq = u.jobSeq + 1 ∧ (trunc = true → j.bad = some 4)))) ∧
  (∀ (g i : Fin 16) (s : State) (j : Job), s.stage = .running → (s.gal g).jobs[i.val]? = some j →
    (j.st = .ended → j.list = [] → s.jobBySeq g j.seq = some j →
      (s.mayPush g j = true → Does (.jobCommit g i) s (fun t =>
        t = (s.pushItem j (j.summary s.st) true).committed g j ∧ (∀ x ∈ (t.gal g).jobs, x.seq ≠ j.seq) ∧
        t.rd F.GAL_JQ_CNT_COMMITTED g j.jq = min (s.rd F.GAL_JQ_CNT_COMMITTED g j.jq + 1) (2 ^ F.GAL_JQ_CNT_COMMITTED.width - 1))) ∧
      (s.mayPush g j = false → Does (.jobCommit g i) s (fun t => t = s))) ∧
    (j.st ≠ .ended → Does (.jobCommit g i) s (fun t => t = s))) ∧
  (∀ (who : Initiator) (q : Fin 1024) (id : BitVec 32) (s : State), Permitted s who (portPage q 0x178) true →
    (s.boundTo q = none → Does (.abort who q id) s (fun t => t.regs = s.regs ∧ t.gals = s.gals ∧ SameStore s t)) ∧
    (∀ x : Nat × Nat, s.boundTo q = some x →
      ((s.gal x.1).aborts.any (·.1 == q.val) = true → Does (.abort who q id) s (fun t =>
        t.rd F.CRQ_ABORT_RES_RESULT q = 4 ∧ t.rd F.CRQ_ABORT_RES_DONE q = 1 ∧ t.gals = s.gals ∧ SameStore s t)) ∧
      ((s.gal x.1).aborts.any (·.1 == q.val) = false →
        ((s.gal x.1).jobs.find? (fun j => j.jq == x.2 && j.jobId == id.toNat) = none → Does (.abort who q id) s (fun t =>
          t.rd F.CRQ_ABORT_RES_RESULT q = (if (smGet [] (s.gal x.1).recent q).contains id.toNat then 2 else 3) ∧
          t.rd F.CRQ_ABORT_RES_DONE q = 1 ∧ t.gals = s.gals ∧ SameStore s t)) ∧
        (∀ j, (s.gal x.1).jobs.find? (fun j => j.jq == x.2 && j.jobId == id.toNat) = some j → Does (.abort who q id) s
          (fun t => ∃ u : State, (u.gal x.1).aborts = (s.gal x.1).aborts ++ [(q.val, j.seq)] ∧
            u.rd F.CRQ_ABORT_RES_DONE q = 0 ∧ SameStore s u ∧
            (j.st = .running → j.wrote = none → t = State.startJobs 16 (u.endJob x.1 j resABORTED 0) x.1) ∧
            (j.st = .running → j.wrote ≠ none → t = u) ∧
            (j.st = .fetched → t = (u.endJob x.1 { j with start := s.st } resABORTED 0).keepMark x.1 x.2) ∧
            (j.st = .ended → t = u))))))

/-- Presence, qualification, enables, ramps and standby of the inlet guard. Rests on R351, R352, R353, R357, R358,
R359, R360, R422, R426. Where a clause touches them, these are the model's choices and no rule: log entry 11, DESIGN
CHOICE, log entry 42, DESIGN CHOICE. -/
def Obligations.InletSequence : Prop :=
  (∀ (slot : BitVec 4) (auto : Bool) (s : State),
    (s.inl.standby = true → s.inlSt 0 = inABSENT → Does (.presenceLow slot auto) s (fun t => t.inlSt 0 = inQUALIFY ∧
      t.inl = { s.inl with present := true, slot := slot.toNat, auto := auto } ∧
      (∀ c, 1 ≤ c → c < 9 → t.inlSt c = s.inlSt c) ∧ SameStore s t ∧ t.out = s.out)) ∧
    (s.inl.standby = false ∨ s.inlSt 0 ≠ inABSENT → Does (.presenceLow slot auto) s (fun t =>
      t = { s with inl := { s.inl with present := true } })) ∧
    (∀ retained, s.inl.standby = false → Does (.standbyRise slot auto retained) s (fun t => t.inl.standby = true ∧
      t.inl.slot = slot.toNat ∧ t.inl.auto = auto ∧ t.inlSt 0 = (if s.inl.present then inQUALIFY else inABSENT) ∧
      SameStore s t ∧ t.out = s.out ∧ (∀ c, 1 ≤ c → c < 9 → t.inlSt c = inOFF) ∧
      (∀ c, c < 9 → t.rd F.INL_CH_STATUS_TRIPMEM 0 c = b2n (retained && s.on F.INL_CH_STATUS_TRIPMEM 0 c)))) ∧
    (∀ retained, s.inl.standby = true → Does (.standbyRise slot auto retained) s (fun t => t = s))) ∧
  (∀ (diode : Bool) (ta : BitVec 16) (s : State),
    (s.inlSt 0 = inQUALIFY → s.inl.present = true → Does (.qualifyDone diode ta) s (fun t => ∃ u : State, t = u.inlNext ∧
      u.rd F.INL_CH_STATUS_TSRC 0 0 = b2n diode ∧ u.inl.armed = [] ∧ SameStore s u ∧
      (s.on F.INL_CH_STATUS_TRIPMEM 0 0 = false → u.inlSt 0 = inOFF) ∧
      (∀ c, c < 9 → s.on F.INL_CH_STATUS_TRIPMEM 0 c = true → u.inlSt c = inTRIPPED))) ∧
    (s.inlSt 0 ≠ inQUALIFY ∨ s.inl.present = false → Does (.qualifyDone diode ta) s (fun t => t = s)) ∧
    (inQUALIFY < s.inlSt 0 → Does .presenceHigh s (fun t => t.inl.present = false ∧ t.inlSt 0 = inABSENT ∧ t.mem = s.mem ∧
      ∀ c, 1 ≤ c → c < 9 → t.inlSt c = (if s.inlSt c = inTRIPPED then inTRIPPED else inOFF))) ∧
    (s.inlSt 0 ≤ inQUALIFY → Does .presenceHigh s (fun t => t = { s with inl := { s.inl with present := false } })) ∧
    Does .standbyLoss s (fun t => t.inl.standby = false ∧ t.inl.locked = false ∧ t.inlSt 0 = inABSENT ∧ t.mem = s.mem ∧
      ∀ c, 1 ≤ c → c < 9 → t.inlSt c = inOFF)) ∧
  (∀ (level rested : Bool) (s : State),
    (s.inlSt 0 ≠ inTRIPPED → level = true → Does (.guardEnChange level rested) s (fun t => ∃ u : State, t = u.inlNext ∧
      u.rd F.INL_CH_CTL_EN 0 0 = 1 ∧ u.inlSt 0 = s.inlSt 0 ∧ SameStore s u)) ∧
    (inREADY ≤ s.inlSt 0 → s.inlSt 0 ≠ inTRIPPED → level = false → Does (.guardEnChange level rested) s (fun t =>
      ∃ u : State, t = u.inlNext ∧ u.rd F.INL_CH_CTL_EN 0 0 = 0 ∧ u.inlSt 0 = inOFF ∧ u.mem = s.mem)) ∧
    (s.inlSt 0 = inTRIPPED → level = true → s.rd F.INL_CH_CTL_EN 0 0 = 0 → s.inl.armed.contains 0 = true →
      Does (.guardEnChange level rested) s (fun t => ∃ u : State, t = u.inlNext ∧ u.inl.armed = s.inl.armed.filter (· != 0) ∧
        u.inlSt 0 = (if rested then inOFF else inTRIPPED) ∧ (rested = true → u.rd F.INL_CH_STATUS_TRIPMEM 0 0 = 0))) ∧
    (s.inlSt 0 = inTRIPPED → level = false → s.on F.INL_CH_CTL_EN 0 0 = true → Does (.guardEnChange level rested) s
      (fun t => ∃ u : State, t = u.inlNext ∧ 0 ∈ u.inl.armed ∧ u.inlSt 0 = inTRIPPED))) ∧
  (∀ (who : Initiator) (bank : Fin 8) (v : BitVec 64) (rested : Bool) (s w : State) (off : Nat),
    off = F.INL_CH_CTL_EN.addr 0 (bank.val + 1) → Permitted s who off true →
    w = (s.dropHalves who off).wr F.INL_CH_CTL_RAMP (clamp 1 100 (F.INL_CH_CTL_RAMP.of v.toNat)) 0 (bank.val + 1) →
    (v.toNat.testBit 0 = true ∨ w.mayDisable (bank.val + 1) = true → Does (.bankEnWrite who bank v rested) s (fun t =>
      t = w.inlEnable (bank.val + 1) (v.toNat.testBit 0) rested ∧
      t.rd F.INL_CH_CTL_EN 0 (bank.val + 1) = b2n (v.toNat.testBit 0))) ∧
    (v.toNat.testBit 0 = false → w.mayDisable (bank.val + 1) = false → Does (.bankEnWrite who bank v rested) s (fun t =>
      t = w))) ∧
  (∀ (c : Fin 9) (s : State),
    (s.inlSt 0 = inGRANTED → 0 ≤ signed 64 ((s.inletSt + 2 ^ 64 - s.inl.grant % 2 ^ 64) % 2 ^ 64) →
      Does .inletRampStart s (fun t => t.inlSt 0 = inRAMP ∧ t.rd F.INL_CH_CNT_CYCLES 0 0 = min (s.rd F.INL_CH_CNT_CYCLES 0 0 + 1) (2 ^ F.INL_CH_CNT_CYCLES.width - 1) ∧
      SameStore s t ∧ t.inl = s.inl)) ∧
    (s.inlSt 0 ≠ inGRANTED ∨ signed 64 ((s.inletSt + 2 ^ 64 - s.inl.grant % 2 ^ 64) % 2 ^ 64) < 0 →
      Does .inletRampStart s (fun t => t = s)) ∧
    (s.inlSt c = inREADY → s.inl.auto = true → s.inl.tally = false → Does (.autoRamp c) s (fun t => t.inlSt c = inRAMP ∧
      t.rd F.INL_CH_CNT_CYCLES 0 c = min (s.rd F.INL_CH_CNT_CYCLES 0 c + 1) (2 ^ F.INL_CH_CNT_CYCLES.width - 1) ∧ SameStore s t ∧ t.inl = s.inl)) ∧
    (s.inlSt c ≠ inREADY ∨ s.inl.auto = false ∨ s.inl.tally = true → Does (.autoRamp c) s (fun t => t = s)) ∧
    (s.inlSt c = inRAMP → Does (.rampDone c) s (fun t => ∃ u : State, t = u.inlNext ∧ u.inlSt c = inON ∧ SameStore s u ∧
      (c.val ≠ 0 → s.clocked = true → u.rd F.INL_IRQ_ON = 1))) ∧
    (s.inlSt c ≠ inRAMP → Does (.rampDone c) s (fun t => t = s))) ∧
  (∀ (c : Nat) (s : State), c < 9 → (∀ d, d < 9 → s.inlSt d < inREADY ∨ inRAMP < s.inlSt d) → s.inlEnabled c = true →
    s.inlSt c = inOFF → (∀ d, d < c → ¬(s.inlEnabled d = true ∧ s.inlSt d = inOFF)) → c = 0 ∨ s.inlSt 0 = inON →
    s.inlNext.inlSt c = inREADY ∧ ∀ d, d < 9 → d ≠ c → s.inlNext.inlSt d = s.inlSt d)

/-- Current limits, trips and the thermal model of the inlet guard. Rests on R350, R355, R356, R357, R427. Where a
clause touches them, these are the model's choices and no rule: log entry 11, DESIGN CHOICE, log entry 42, DESIGN
CHOICE, log entry 43, DESIGN CHOICE. -/
def Obligations.InletTrips : Prop :=
  (∀ (c cause : Nat) (s u : State), c < 9 → 1 ≤ cause → cause ≤ 4 → s.tripNow c cause = u →
    (s.gateOn c = true → u.inlSt c = inTRIPPED ∧ u.rd F.INL_CH_STATUS_CAUSE 0 c = cause ∧
      u.rd F.INL_CH_STATUS_TRIPMEM 0 c = 1 ∧ u.rd F.INL_CH_CNT_TRIPS 0 c = min (s.rd F.INL_CH_CNT_TRIPS 0 c + 1) (2 ^ F.INL_CH_CNT_TRIPS.width - 1) ∧ u.mem = s.mem ∧
      u.inl.armed = s.inl.armed.filter (· != c) ∧ u.inl.limited = s.inl.limited.filter (· != c) ∧
      (s.clocked = true → c ≠ 0 → u.rd F.INL_IRQ_TRIP = 1) ∧
      (s.clocked = true → u.ras.getLast?.map (fun x => (x.cls, x.sev, x.blk, x.inst)) = some (0x41, 2, rasPWR, c))) ∧
    (s.gateOn c = false → u = s)) ∧
  (∀ (c : Fin 9) (s : State),
    (s.inlSt c = inRAMP → Does (.rampFault c) s (fun t => t = (s.tripNow c 3).inlNext)) ∧
    (s.inlSt c ≠ inRAMP → Does (.rampFault c) s (fun t => t = s)) ∧
    Does (.fastTrip c) s (fun t => t = (s.tripNow c 1).inlNext) ∧
    Does (.fetOvertemp c) s (fun t => t = (s.tripNow c 2).inlNext) ∧
    Does .inletDieOvertemp s (fun t => ∃ u : State, t = u.inlNext ∧ u.mem = s.mem ∧ ∀ d, d < 9 → s.gateOn d = true →
      u.inlSt d = inTRIPPED ∧ u.rd F.INL_CH_STATUS_CAUSE 0 d = 2) ∧
    (s.inlSt c = inON → Does (.currentLimit c) s (fun t => t.inlSt c = inLIMIT ∧ c.val ∈ t.inl.limited ∧ SameStore s t ∧
      (s.clocked = true → t.rd F.INL_IRQ_LIMIT = 1) ∧ ∀ d, d < 9 → d ≠ c.val → t.inlSt d = s.inlSt d)) ∧
    (s.inlSt c ≠ inON → Does (.currentLimit c) s (fun t => t = s)) ∧
    (s.inlSt c = inLIMIT → Does (.limitExit c) s (fun t => ∃ u : State, t = u.inlNext ∧ u.inlSt c = inON ∧ u.inl = s.inl ∧
      SameStore s u)) ∧
    (s.inlSt c ≠ inLIMIT → Does (.limitExit c) s (fun t => t = s)) ∧
    (s.inlSt c = inLIMIT → s.inl.limited.contains c.val = true → Does (.faultTimeExpire c) s (fun t =>
      t = (s.tripNow c 4).inlNext)) ∧
    (s.inlSt c ≠ inLIMIT ∨ s.inl.limited.contains c.val = false → Does (.faultTimeExpire c) s (fun t => t = s)) ∧
    (s.inlSt c = inON → Does (.faultTimerClear c) s (fun t =>
      t = { s with inl := { s.inl with limited := s.inl.limited.filter (· != c.val) } })) ∧
    (s.inlSt c ≠ inON → Does (.faultTimerClear c) s (fun t => t = s))) ∧
  (∀ (iout vin vout ta : BitVec 16) (s : State),
    Does (.thermalModelUpdate iout vin vout ta) s (fun t => t.rd F.INL_CH_MEAS_IOUT 0 0 = iout.toNat ∧
      t.rd F.INL_CH_MEAS_VIN 0 0 = vin.toNat ∧ t.rd F.INL_CH_MEAS_VOUT 0 0 = vout.toNat ∧ t.mem = s.mem) ∧
    (s.inl.standby = true → s.rd F.INL_CH_STATUS_TSRC 0 0 = 0 → s.rd F.INL_CH_MODEL_TAU_US 0 0 ≠ 0 → ∀ T : Rat,
      T = s.inl.temp + ((iout.toNat : Rat) * ((vin.toNat : Rat) - vout.toNat) / 100000 *
        ((s.rd F.INL_CH_MODEL_RTH 0 0 : Rat) / 1000) - (s.inl.temp - (signed 16 ta.toNat : Rat) / 4)) * 10 /
        s.rd F.INL_CH_MODEL_TAU_US 0 0 →
      Does (.thermalModelUpdate iout vin vout ta) s (fun t => t.inl.temp = T ∧
        (T < (s.rd F.INL_CH_LIMIT_TLIM 0 0 : Rat) → t.inlSt 0 = s.inlSt 0 ∧ SameStore s t ∧
          t.rd F.INL_CH_MEAS_TFET 0 0 = unsigned 16 (T * 4).floor) ∧
        ((s.rd F.INL_CH_LIMIT_TLIM 0 0 : Rat) ≤ T → s.gateOn 0 = true →
          t.inlSt 0 = inTRIPPED ∧ t.rd F.INL_CH_STATUS_CAUSE 0 0 = 2))))

/-- Firmware transfer and activation, restarts, the watchdog, cores, floors and the thermal-trip flag. Rests on R364,
R365, R367, R368, R371, R373. Where a clause touches them, these are the model's choices and no rule: log entry 11,
DESIGN CHOICE, log entry 83, DESIGN CHOICE, log entry 129, DESIGN CHOICE. -/
def Obligations.FirmwareControl : Prop :=
  (∀ (who : Initiator) (slotB : Bool) (image : Bytes) (s : State), Served s who false [] →
    Does (.getFwInfo who) s (fun t => t = { s with out := s.out ++ [.mbx who .success s.fwInfo] }) ∧
    (s.cc.restart.isSome = true ∨ s.str.load.isSome = true ∨ s.str.cal.isSome = true →
      Does (.transferFw who slotB image) s (fun t => t = { s with out := s.out ++ [.mbx who .busy []] })) ∧
    (s.cc.restart = none → s.str.load = none → s.str.cal = none →
      (s.rd F.FWC_STATUS_RUN_SLOT = b2n (!slotB) → 4194304 < image.length → Does (.transferFw who slotB image) s (fun t =>
        t = { s with out := s.out ++ [.mbx who .invalidInput []] })) ∧
      (s.rd F.FWC_STATUS_RUN_SLOT = b2n (!slotB) → image.length ≤ 4194304 → ∀ w : State,
        w = { s with flash := if slotB then { s.flash with fwB := image } else { s.flash with fwA := image } } →
        Does (.transferFw who slotB image) s (fun t => t.flash = w.flash ∧ t.nvs = s.nvs ∧ t.cc = s.cc ∧ t.mem = s.mem ∧
          t.rd (if slotB then F.FWC_STATUS_SLOT_B_VALID else F.FWC_STATUS_SLOT_A_VALID) = b2n (w.fwOk slotB) ∧
          t.out = s.out ++ [.mbx who (if w.fwOk slotB then .success else .fwAuthFailed) []])) ∧
      (s.rd F.FWC_STATUS_RUN_SLOT = b2n slotB → Does (.transferFw who slotB image) s (fun t =>
        t = { s with out := s.out ++ [.mbx who .invalidSlot []] }))) ∧
    Does (.activateFwOffline who slotB) s (fun t => t.rd F.FWC_BOOT_PREF_SLOT = b2n slotB ∧ SameStore s t ∧ t.cc = s.cc ∧
      t.out = s.out ++ [.mbx who .success []]) ∧
    (s.str.xfer = none → s.cc.restart = none → Does (.activateFwOnline who slotB) s (fun t =>
      t.cc.restart = some slotB ∧ t.cc.cores = List.replicate 4 .halted ∧ t.regs = s.regs ∧ SameStore s t ∧
      t.out = s.out ++ [.mbx who .success []])) ∧
    (s.str.xfer.isSome = true ∨ s.cc.restart.isSome = true → Does (.activateFwOnline who slotB) s (fun t =>
      t = { s with out := s.out ++ [.mbx who .busy []] }))) ∧
  (∀ s : State, s.stage = .running →
    (∀ b, s.cc.restart = some b →
      Does .activationDone s (fun t => t.rd F.FWC_STATUS_RESTART_RESULT = (if s.fwOk b then 1 else 2) ∧ t.cc.restart = none ∧
        (s.fwOk b = true → t.rd F.FWC_STATUS_RUN_SLOT = b2n b ∧ t.rd F.FWC_STATUS_MONITOR = 0 ∧ t.rd F.FWC_CTL_CORE_RUN = 0) ∧
        t.cc.cores = [.running, .inReset, .inReset, .inReset] ∧ SameStore s t ∧ t.out = s.out)) ∧
    (s.cc.restart = none → Does .activationDone s (fun t => t = s)) ∧
    (s.cc.cores.contains .halted = true → Does .watchdogExpire s (fun t => t = s)) ∧
    (s.cc.cores.contains .halted = false → s.cc.restart = none →
      Does .watchdogExpire s (fun t => t.rd F.FWC_STATUS_WDT_CNT = min (s.rd F.FWC_STATUS_WDT_CNT + 1) (2 ^ F.FWC_STATUS_WDT_CNT.width - 1) ∧ t.cc.restart = some (s.on F.FWC_STATUS_RUN_SLOT) ∧
        t.cc.cores = List.replicate 4 .halted ∧ t.str.xfer = none ∧ t.str.load = none ∧ t.str.cal = none ∧
        (s.str.load = none → s.str.cal = none → SameStore s t ∧
          (t.ras.getLast?.map (fun x => (x.cls, x.sev, x.blk))) = some (0x50, 1, rasFWC))))) ∧
  (∀ (who : Initiator) (s : State),
    (∀ v : BitVec 3, Permitted s who 0x2000000 true → Does (.coreRun who v) s (fun t => SameStore s t ∧
      t.rd F.FWC_CTL_CORE_RUN = Nat.lor (s.rd F.FWC_CTL_CORE_RUN) v.toNat % 8 ∧ t.cc.cores[0]? = s.cc.cores[0]? ∧
      ∀ k : Fin 3, t.cc.cores[k.val + 1]? = s.cc.cores[k.val + 1]?.map (fun x =>
        if v.getLsbD k && x == .inReset then .running else x))) ∧
    (Permitted s who 0x2000030 true → Does (.kick who) s (fun t => t.cc = { s.cc with
      wdtFrom := s.time.cclk, wdtHeld := s.cc.wdtHeld.map (fun _ => s.time.cclk) } ∧
      SameStore s t ∧ t.out = s.out)) ∧
    (Permitted s who 0x2000008 true → Does (.lastThermtripClear who) s (fun t => t.rd F.FWC_STATUS_LAST_THERMTRIP = 0 ∧
      t.rd F.FWC_STATUS_WDT_CNT = s.rd F.FWC_STATUS_WDT_CNT ∧ t.rd F.FWC_STATUS_RUN_SLOT = s.rd F.FWC_STATUS_RUN_SLOT ∧
      SameStore s t ∧ t.cc = s.cc)) ∧
    (∀ v : BitVec 64, Permitted s who 0x2000018 true →
      (s.isOwner who = true → Does (.fwcMinseqWrite who v) s (fun t => SameStore s t ∧
        t.rd F.FWC_MINSEQ_OWNER_MIN = max (s.rd F.FWC_MINSEQ_OWNER_MIN) (v.toNat / 2 ^ 32) ∧
        t.rd F.FWC_MINSEQ_VENDOR_MIN = max (s.rd F.FWC_MINSEQ_VENDOR_MIN) (v.toNat % 2 ^ 32))) ∧
      (s.isOwner who = false → Does (.fwcMinseqWrite who v) s (fun t => t.regs = s.regs ∧ SameStore s t))))

/-- The mailbox reports and the calibration commands. Rests on R366, R372, R373, R374, R375, R376. Where a clause
touches them, these are the model's choices and no rule: log entry 50, PRESUMED, log entry 78, DESIGN CHOICE, log
entry 82, DESIGN CHOICE. -/
def Obligations.MailboxCommands : Prop :=
  (∀ (who : Initiator) (input : Bytes) (s : State),
    (Served s who true [] →
      Does (.identify who []) s (fun t => t = { s with out := s.out ++ [.mbx who .success (toLE 8 (s.readWord 0x0) ++
        toLE 8 (s.readWord 0x8) ++ toLE 1 (s.rd F.SEC_LC_STATE) ++ [0, 0, 0] ++ toLE 4 (s.rd F.FWC_RUN_VERSION) ++
        toLE 4 (s.rd F.FWC_RUN_SEQ) ++ toLE 4 (s.rd F.STR_RUN_SEQ_SEQ))] }) ∧
      Does (.strInfo who []) s (fun t => t = { s with out := s.out ++ [.mbx who .success (toLE 4 (s.readWord 0x100008) ++
        toLE 4 (s.readWord 0x100058) ++ toLE 4 (s.readWord 0x100068) ++ [0, 0, 0, 0] ++
        (List.range 6).flatMap (fun n => toLE 8 (s.rd F.STR_RUN_DIGEST_DIGEST 0 n)))] }) ∧
      Does (.calInfo who []) s (fun t => t = { s with out := s.out ++ [.mbx who .success
        (([1, 2, 3, 4, 5].filterMap s.calSec).flatMap CalSection.header)] })) ∧
    (∀ x ∈ [Instr.identify who input, .strInfo who input, .calInfo who input], Served s who true input → input ≠ [] →
      Does x s (fun t => t = { s with out := s.out ++ [.mbx who .invalidInput []] })) ∧
    (Served s who false input → input.length ≠ 8 ∨ le input 6 2 ≠ 0 → Does (.rasRead who input) s (fun t =>
      t = { s with out := s.out ++ [.mbx who .invalidInput []] })) ∧
    (Served s who false input → input.length = 8 → le input 6 2 = 0 → Does (.rasRead who input) s (fun t =>
      t = { s with out := s.out ++ [.mbx who .success (((s.rasFrom (le input 0 4)).take (min 1024 (le input 4 2))).flatMap
        (fun r => r.bytes ((le input 0 4).testBit 31)))] })) ∧
    (s.stage = .running → hasSpdm who = true → s.on F.FWC_STATUS_MONITOR = true → Does (.rasRead who input) s (fun t =>
      t = { s with out := s.out ++ [.mbx who .unsupported []] })) ∧
    (∀ op, s.stage = .running → hasSpdm who = true → Does (.vendorUnsupported who op input) s (fun t =>
      t = { s with out := s.out ++ [.mbx who .unsupported []] }))) ∧
  (∀ (who : Initiator) (input : Bytes) (nvsOk : Bool) (s : State), Served s who true input →
    (s.isOwner who = false → ∀ x ∈ [Instr.calExport who input, .calWriteStart who input, .calWriteContinue who input,
        .calWriteEnd who input nvsOk, .calWriteAbandon who input],
      Does x s (fun t => t.out = s.out ++ [.mbx who .invalidSecurityState []] ∧ t.nvs = s.nvs ∧ t.str = s.str ∧
        t.rd F.SEC_VIOL_COUNT 0 (initNum who) = min (s.rd F.SEC_VIOL_COUNT 0 (initNum who) + 1) (2 ^ F.SEC_VIOL_COUNT.width - 1) ∧ t.rd F.SEC_IRQ_VIOL = 1)) ∧
    (s.isOwner who = true →
      (s.rd F.DBG_STATUS_LEVEL = 2 → Does (.calExport who input) s (fun t => t = { s with
        out := s.out ++ [.mbx who .invalidSecurityState []] })) ∧
      (input.length = 8 → le input 1 3 = 0 → s.rd F.DBG_STATUS_LEVEL ≠ 2 →
        (∀ x, s.calSec (byteAt input 0) = some x → Does (.calExport who input) s (fun t => t = { s with
          out := s.out ++ [.mbx who .success (x.header ++ slice x.payload (le input 4 4) 65520)] })) ∧
        (s.calSec (byteAt input 0) = none → Does (.calExport who input) s (fun t => t = { s with
          out := s.out ++ [.mbx who .invalidInput []] }))) ∧
      (itemOk 0 input = true → input.length = 24 → s.transferTaken who true = false → s.str.load = none → s.str.cal = none →
        Does (.calWriteStart who input) s (fun t => t.out = s.out ++ [.mbx who .success []] ∧ t.nvs = s.nvs ∧
          t.str.xfer = some ⟨who, true, byteAt input 1, false, input.drop 8, []⟩ ∧ t.regs = s.regs)) ∧
      (∀ x, s.str.xfer = some x → x.who = who → x.cal = true → x.id = byteAt input 1 →
        (itemOk 1 input = true → 8 < input.length → le input 4 4 = x.data.length →
          Does (.calWriteContinue who input) s (fun t => t.out = s.out ++ [.mbx who .success []] ∧ t.nvs = s.nvs ∧
            t.str.xfer = some { x with data := x.data ++ input.drop 8 } ∧ t.regs = s.regs)) ∧
        (itemOk 2 input = true → input.length = 8 → s.str.load = none → s.str.cal = none →
          (calCheck x ≠ 0 → Does (.calWriteEnd who input nvsOk) s (fun t => t.str.xfer = none ∧ t.nvs = s.nvs ∧
            t.out = s.out ++ [.mbx who .background [], .mbx who .success (toLE 4 (calCheck x))] ∧ t.regs = s.regs)) ∧
          (calCheck x = 0 → Does (.calWriteEnd who input nvsOk) s (fun t => t.str.xfer = none ∧
            t.nvs.cal = s.nvs.cal.filter (fun y => y.id != x.id) ∧ t.rd F.NVS_CAL_STATUS_BUSY = 1 ∧
            t.str.cal.isSome = true ∧ t.out = s.out ++ [.mbx who .background []]))) ∧
        (itemOk 3 input = true → input.length = 8 → Does (.calWriteAbandon who input) s (fun t =>
          t = { s with str := { s.str with xfer := none }, out := s.out ++ [.mbx who .success []] }))))) ∧
  (∀ s : State, s.stage = .running → Does .transferIdleTimeout s (fun t => t = { s with str := { s.str with xfer := none } }))

/-- Lifecycle requests are carried out or refused, and address hashing draws its key. Rests on R149, R378, R379, R380,
R381, R382, R384, R390, R392. Where a clause touches them, these are the model's choices and no rule: log entry 11,
DESIGN CHOICE, log entry 84, DESIGN CHOICE, log entry 131, DESIGN CHOICE. -/
def Obligations.Lifecycle : Prop :=
  (∀ (who : Initiator) (session : BitVec 32) (req : Bytes) (nvsOk : Bool) (s : State), s.stage = .running →
    (∀ x ∈ [(Instr.setOwner who session req nvsOk, lcSET, nvsOk), (.seal who session req nvsOk, lcSEAL, nvsOk),
        (.lcReturn who session req nvsOk, lcRETURN, nvsOk), (.bind who session req, lcBIND, true),
        (.unbind who session req, lcUNBIND, true)],
      (s.vdmBusy = true → Does x.1 s (fun t =>
        t = { s with keyReqs := s.keyReqs ++ [⟨who, session.toNat, x.2.1, req, x.2.2⟩] })) ∧
      (s.vdmBusy = false → s.lcResult who session.toNat x.2.1 req x.2.2 ≠ lcOk → Does x.1 s (fun t =>
        t = s.lcAnswer who x.2.1 (s.lcResult who session.toNat x.2.1 req x.2.2)))) ∧
    (s.vdmBusy = false →
      (s.rd F.DBG_STATUS_LEVEL ≠ 3 →
        (s.lcResult who session.toNat lcSET req nvsOk = lcOk → Does (.setOwner who session req nvsOk) s (fun t =>
          t.nvs.ownerKey = slice req 8 96 ∧ t.rd F.SEC_LC_STATE = lcOwned ∧ t.rd F.SEC_LC_PENDING = 0 ∧
          t.rd F.SEC_BIND_LDS = 0 ∧ t.rd F.DBG_STATUS_LEVEL = 0 ∧ t.rd F.SEC_IRQ_LC_CHANGE = 1)) ∧
        (s.lcResult who session.toNat lcSEAL req nvsOk = lcOk → Does (.seal who session req nvsOk) s (fun t =>
          t.nvs.ownerKey = s.nvs.ownerKey ∧ t.rd F.SEC_LC_STATE = lcSealed ∧ t.rd F.SEC_LC_PENDING = 0 ∧
          t.rd F.SEC_BIND_LDS = 0 ∧ t.rd F.DBG_STATUS_LEVEL = 0 ∧ t.rd F.SEC_IRQ_LC_CHANGE = 1))) ∧
      (s.rd F.DBG_STATUS_LEVEL = 0 → s.lcResult who session.toNat lcSET req nvsOk = lcOk →
        Does (.setOwner who session req nvsOk) s (fun t => t.nvs.ownerKey = slice req 8 96 ∧
          t.rd F.SEC_LC_STATE = lcOwned ∧ t.rd F.SEC_LC_PENDING = 0 ∧ t.rd F.SEC_BIND_LDS = 0 ∧
          t.rd F.SEC_IRQ_LC_CHANGE = 1 ∧ t.mem = s.mem ∧ t.keys = s.keys ∧
          t.out = s.out ++ [.vendor who [0x10, 0, 1, 0]])) ∧
      (s.rd F.DBG_STATUS_LEVEL = 0 → s.lcResult who session.toNat lcSEAL req nvsOk = lcOk →
        Does (.seal who session req nvsOk) s (fun t => t.nvs.ownerKey = s.nvs.ownerKey ∧ t.rd F.SEC_LC_STATE = lcSealed ∧
          t.rd F.SEC_LC_PENDING = 0 ∧ t.rd F.SEC_BIND_LDS = 0 ∧ t.rd F.SEC_IRQ_LC_CHANGE = 1 ∧ t.mem = s.mem ∧
          t.keys = s.keys ∧ t.out = s.out ++ [.vendor who [0x11, 0, 2, 0]])) ∧
      (s.rd F.DBG_STATUS_LEVEL = 0 → s.lcResult who session.toNat lcRETURN req nvsOk = lcOk →
        Does (.lcReturn who session req nvsOk) s (fun t => t.keys = [] ∧ t.sec.returning = some who ∧
          t.nvs.lcPending = some lcReturned ∧ t.rd F.SEC_LC_PENDING = 1 ∧ t.rd F.SEC_BIND_LDS = 0 ∧ t.out = s.out ∧
          ∀ n, 1 ≤ n → n < 256 → t.rd F.KEY_SLOT_STATE_STATE 0 n = 0)) ∧
      (s.lcResult who session.toNat lcBIND req true = lcOk → Does (.bind who session req) s (fun t =>
        t.rdBit F.SEC_BIND_LDS (byteAt req 1) = true ∧ t.rd F.SEC_IRQ_LC_CHANGE = 1 ∧ SameStore s t ∧
        t.out = s.out ++ [.vendor who ([0x13, 0] ++ toLE 1 (s.rd F.SEC_LC_STATE) ++ [0])])) ∧
      (s.lcResult who session.toNat lcUNBIND req true = lcOk → Does (.unbind who session req) s (fun t =>
        t.rdBit F.SEC_BIND_LDS (byteAt req 1) = false ∧ t.rd F.SEC_IRQ_LC_CHANGE = 1 ∧ SameStore s t ∧
        t.out = s.out ++ [.vendor who ([0x14, 0] ++ toLE 1 (s.rd F.SEC_LC_STATE) ++ [0])])))) ∧
  (∀ (who : Initiator) (s : State), Permitted s who 0x1F00028 true →
    (s.isOwner who = true → s.rd F.SEC_CTL_HASH_ADDR = 0 → Does (.hashAddrSet who) s (fun t =>
      t.rd F.SEC_CTL_HASH_ADDR = 1 ∧ t.sec.kt = Config.draw s.free % 2 ^ 256 ∧ t.free = s.free + 1 ∧ SameStore s t)) ∧
    (s.isOwner who = true → s.rd F.SEC_CTL_HASH_ADDR = 1 → Does (.hashAddrSet who) s (fun t =>
      t.rd F.SEC_CTL_HASH_ADDR = 1 ∧ t.sec.kt = s.sec.kt ∧ SameStore s t)) ∧
    (s.isOwner who = false → Does (.hashAddrSet who) s (fun t => t.regs = s.regs ∧ t.sec.kt = s.sec.kt ∧ SameStore s t)))

/-- The TAP instructions, debug tokens, and the end of a session. Rests on R388, R389, R390, R391, Table 17-6. Where a
clause touches them, these are the model's choices and no rule: log entry 51, PRESUMED, log entry 53, DEDUCED, log
entry 86, DESIGN CHOICE. -/
def Obligations.DebugPort : Prop :=
  (∀ s : State, s.stage ≠ .coldReset → s.stage ≠ .stopped →
    Does .idcode s (fun t => t.out = s.out ++ [.tap (Config.idcode % 2 ^ 32)] ∧ t.sec.ir = 0x01 ∧ t.regs = s.regs ∧ SameStore s t) ∧
    Does .nonce s (fun t => t.out = s.out ++ [.tap s.nonce] ∧ t.sec.ir = 0x10 ∧ t.regs = s.regs ∧ SameStore s t) ∧
    Does .dbgstat s (fun t => t.out = s.out ++ [.tap (s.readWord 0x1F80000 % 2 ^ 32)] ∧ t.sec.ir = 0x12 ∧
      t.regs = s.regs ∧ SameStore s t) ∧
    Does .samplePreload s (fun t => t.out = s.out ++ [.tap (Config.draw s.free)] ∧ t.sec.ir = 0x02 ∧ t.regs = s.regs ∧
      SameStore s t) ∧
    (∀ ir, Does (.bypass ir) s (fun t => t = s.bypass ∧ t.out = s.out ++ [.tap 0] ∧ t.sec.ir = 0x3F ∧ t.regs = s.regs)) ∧
    (∀ v, s.owned = false → Does (.extest v) s (fun t => t.sec.boundary = v.toNat ∧ t.sec.ir = 0x03 ∧ t.regs = s.regs ∧
      SameStore s t)) ∧
    (∀ v, s.owned = true → Does (.extest v) s (fun t => t = s.bypass)) ∧
    (∀ v, s.rd F.DBG_STATUS_LEVEL = 2 → s.rd F.DBG_STATUS_PENDING = 0 → Does (.dtm v) s (fun t =>
      t.out = s.out ++ [.tap (Config.draw s.free)] ∧ t.sec.ir = 0x14 ∧ t.regs = s.regs ∧ SameStore s t ∧
      (v.toNat % 4 ≠ 2 → t.cc = s.cc) ∧
      (∀ h : Fin 4, v.toNat = 2 + 4 * (2 ^ 31 + h.val * 2 ^ 16) + 2 ^ 34 * 0x10 → s.cc.restart = none →
        s.cc.cores[h.val]? = some .running → t.cc.cores[h.val]? = some .halted))) ∧
    (∀ v, s.rd F.DBG_STATUS_LEVEL ≠ 2 ∨ s.on F.DBG_STATUS_PENDING = true → Does (.dtm v) s (fun t => t = s.bypass)) ∧
    (∀ v, s.rd F.DBG_STATUS_LEVEL = 3 → Does (.scanChains v) s (fun t => t.out = s.out ++ [.tap (Config.draw s.free)] ∧
      t.sec.ir = 0x15 ∧ t.regs = s.regs ∧ SameStore s t)) ∧
    (∀ v, s.rd F.DBG_STATUS_LEVEL ≠ 3 → Does (.scanChains v) s (fun t => t = s.bypass)) ∧
    (s.rd F.DBG_STATUS_LEVEL = 0 → Does .tapReset s (fun t => t = { s with sec := { s.sec with ir := 0x01 } })) ∧
    (s.rd F.DBG_STATUS_LEVEL = 1 → Does .tapReset s (fun t => ∃ u : State, t = u.retarget ∧ u.sec.ir = 0x01 ∧
      u.rd F.DBG_STATUS_LEVEL = 0 ∧ u.rd F.DBG_STATUS_END_REASON = 2 ∧ u.rd F.SEC_IRQ_DBG_END = 1 ∧ SameStore s u)) ∧
    (s.rd F.DBG_STATUS_LEVEL = 2 → Does .tapReset s (fun t => ∃ u : State, t = u.resumeCores.retarget ∧ u.sec.ir = 0x01 ∧
      u.rd F.DBG_STATUS_LEVEL = 0 ∧ u.rd F.DBG_STATUS_END_REASON = 2 ∧ u.rd F.SEC_IRQ_DBG_END = 1 ∧ SameStore s u)) ∧
    (s.rd F.DBG_STATUS_LEVEL = 3 → Does .tapReset s (fun t => ∃ u : State, t = u.warmReset 4 0 ∧ u.sec.ir = 0x01 ∧
      u.rd F.DBG_STATUS_LEVEL = 0 ∧ u.rd F.DBG_STATUS_END_REASON = 2 ∧ SameStore s u))) ∧
  (∀ (b : Bytes) (s w : State), s.stage ≠ .coldReset → s.stage ≠ .stopped → w = s.shift 0x11 0 →
    (s.tokenOk b = false → Does (.token b) s (fun t => ∃ u : State, t = u.newNonce ∧
      u.rd F.SEC_VIOL_COUNT 0 65 = min (s.rd F.SEC_VIOL_COUNT 0 65 + 1) (2 ^ F.SEC_VIOL_COUNT.width - 1) ∧ u.rd F.SEC_IRQ_VIOL = 1 ∧ u.rd F.DBG_STATUS_LEVEL = s.rd F.DBG_STATUS_LEVEL ∧
      SameStore s u)) ∧
    (s.tokenOk b = true → byteAt b 4 = 0 → Does (.token b) s (fun t => t = (w.closeSession 1).newNonce)) ∧
    (s.tokenOk b = true → byteAt b 4 ≠ 0 → s.rd F.DBG_STATUS_LEVEL ≠ 3 → Does (.token b) s (fun t =>
      t = ((w.closeSession 6).openSession (byteAt b 4)).newNonce)) ∧
    (s.tokenOk b = true → byteAt b 4 ≠ 0 → s.rd F.DBG_STATUS_LEVEL = 3 → Does (.token b) s (fun t =>
      t = ((w.sessionEnded 6).openSession (byteAt b 4)).newNonce)) ∧
    (s.tokenOk b = true → byteAt b 4 ≠ 0 → Does (.token b) s (fun t => t.rd F.DBG_STATUS_LEVEL = byteAt b 4 ∧
      (byteAt b 4 = 3 → t.stage = .fullDebug)))) ∧
  (∀ (who : Initiator) (s : State), Permitted s who 0x1F80008 true →
    (s.rd F.DBG_STATUS_LEVEL = 0 → Does (.close who) s (fun t => t.regs = s.regs ∧ t.ras = s.ras ∧ SameStore s t)) ∧
    (s.rd F.DBG_STATUS_LEVEL = 2 → Does (.close who) s (fun t => ∃ u : State, t = u.resumeCores.retarget ∧
      u.rd F.DBG_STATUS_LEVEL = 0 ∧ u.rd F.DBG_STATUS_END_REASON = 1 ∧ u.rd F.SEC_IRQ_DBG_END = 1 ∧ SameStore s u ∧
      (u.ras.getLast?.map (fun x => (x.cls, x.sev, x.blk, x.addr))) = some (0x51, 0, rasSEC, 1))) ∧
    (s.rd F.DBG_STATUS_LEVEL = 1 → Does (.close who) s (fun t => ∃ u : State, t = u.retarget ∧ u.rd F.DBG_STATUS_LEVEL = 0 ∧
      u.rd F.DBG_STATUS_END_REASON = 1 ∧ u.rd F.SEC_IRQ_DBG_END = 1 ∧ SameStore s u ∧
      (u.ras.getLast?.map (fun x => (x.cls, x.sev, x.blk, x.addr))) = some (0x51, 0, rasSEC, 1))))

/-- The SPDM responder: negotiation, identity, measurements and sessions (message layouts: log entry 52, PRESUMED).
Rests on R393, R394, Table 17-9, Table 17-10. Where a clause touches them, these are the model's choices and no rule:
log entry 52, PRESUMED, log entry 85, DESIGN CHOICE. -/
def Obligations.SpdmResponder : Prop :=
  (∀ (x : Initiator) (nonce : BitVec 256) (off len : BitVec 16) (index code : BitVec 8) (s : State), s.stage = .running →
    hasSpdm x = true →
    Does (.getVersion x) s (fun t => t.agreed x = 1 ∧ t.out = s.out ++ [.spdm x 0x04 [0x00, 0x01, 0x00, 0x12]] ∧
      t.regs = s.regs ∧ SameStore s t) ∧
    (1 ≤ s.agreed x → Does (.getCapabilities x) s (fun t => t.agreed x = 2 ∧ t.out = s.out ++ [.spdm x 0x61 (toLE 4 0x63D6)] ∧
      t.regs = s.regs ∧ SameStore s t)) ∧
    (s.agreed x < 1 → Does (.getCapabilities x) s (fun t => t = s.spdmError x spUnexpected 0)) ∧
    (s.agreed x < 2 → Does (.negotiateAlgorithms x) s (fun t => t = s.spdmError x spUnexpected 0)) ∧
    (2 ≤ s.agreed x → Does (.negotiateAlgorithms x) s (fun t => t.agreed x = 3 ∧ t.regs = s.regs ∧ SameStore s t)) ∧
    (3 ≤ s.agreed x →
      Does (.getDigests x) s (fun t => t = s.spdm x 0x01 ([0x01] ++ sha384 Config.certChain)) ∧
      Does (.getCertificate x off len) s (fun t => t = s.spdm x 0x02
        (toLE 2 (slice Config.certChain off.toNat len.toNat).length ++
          toLE 2 (Config.certChain.length - off.toNat - (slice Config.certChain off.toNat len.toNat).length) ++
          slice Config.certChain off.toNat len.toNat)) ∧
      Does (.challenge x nonce) s (fun t => t.free = s.free + 2 ∧ t.regs = s.regs ∧ SameStore s t ∧
        ∃ n sig : Bytes, t.out = s.out ++ [.spdm x 0x03 (sha384 Config.certChain ++ n ++ sig)]) ∧
      (1 ≤ index.toNat → index.toNat ≤ 6 → Does (.getMeasurements x index) s (fun t => t.regs = s.regs ∧ SameStore s t ∧
        ∃ sig : Bytes, t.out = s.out ++ [.spdm x 0x60 ([1] ++ s.measurementBlock index.toNat ++ sig)])) ∧
      (index.toNat = 0 → Does (.getMeasurements x index) s (fun t => t.regs = s.regs ∧ SameStore s t ∧
        ∃ sig : Bytes, t.out = s.out ++ [.spdm x 0x60 ([6] ++ sig)])) ∧
      (index.toNat = 0xFF → Does (.getMeasurements x index) s (fun t => t.regs = s.regs ∧ SameStore s t ∧
        ∃ sig : Bytes, t.out = s.out ++ [.spdm x 0x60 ([6] ++ [1, 2, 3, 4, 5, 6].flatMap s.measurementBlock ++ sig)])) ∧
      (6 < index.toNat → index.toNat ≠ 0xFF → Does (.getMeasurements x index) s (fun t =>
        t = s.spdmError x spInvalid 0))) ∧
    (s.agreed x < 3 → ∀ c ∈ [Instr.getDigests x, .getCertificate x off len, .challenge x nonce, .getMeasurements x index],
      Does c s (fun t => t = s.spdmError x spUnexpected 0)) ∧
    Does (.spdmUnsupported x code) s (fun t => t = s.spdmError x spUnsupported code.toNat)) ∧
  (∀ (x : Initiator) (id : BitVec 32) (key : Option Bytes) (s : State), s.stage = .running → hasSpdm x = true →
    (3 ≤ s.agreed x → s.sec.sessions.length < 8 → s.sec.sessions.any (fun y => y.id == id.toNat) = false →
      Does (.keyExchange x id key) s (fun t => t.sec.sessions = s.sec.sessions ++ [⟨id.toNat, x, key, false, 0⟩] ∧
        t.regs = s.regs ∧ SameStore s t)) ∧
    (s.agreed x < 3 → Does (.keyExchange x id key) s (fun t => t = s.spdmError x spUnexpected 0)) ∧
    (3 ≤ s.agreed x → s.sec.sessions.length < 8 → s.sec.sessions.any (fun y => y.id == id.toNat) = true →
      Does (.keyExchange x id key) s (fun t => t = s.spdmError x spInvalid 0)) ∧
    (3 ≤ s.agreed x → 8 ≤ s.sec.sessions.length → Does (.keyExchange x id key) s (fun t => t = s.spdmError x spLimit 0)) ∧
    (Does (.finish x id false) s (fun t => t.regs = s.regs ∧ SameStore s t ∧ t.out = s.out ++ [.spdm x 0x7F [6, 0]] ∧
      ∀ y ∈ t.sec.sessions, ¬(y.id = id.toNat ∧ y.t = x ∧ y.done = false))) ∧
    (∀ (k l : List Session) (y : Session), s.sec.sessions = k ++ y :: l → y.id = id.toNat → y.t = x →
      (∀ z ∈ k ++ l, z.id ≠ id.toNat) →
      (y.done = false → Does (.finish x id true) s (fun t => t.sec.sessions = k ++ { y with done := true } :: l ∧
        t.out = s.out ++ [.spdm x 0x65 []] ∧ t.regs = s.regs ∧ SameStore s t)) ∧
      (y.done = true →
        Does (.keyUpdate x id) s (fun t => t.sec.sessions = k ++ { y with epoch := y.epoch + 1 } :: l ∧
          t.out = s.out ++ [.spdm x 0x69 []] ∧ t.regs = s.regs ∧ SameStore s t) ∧
        Does (.heartbeat x id) s (fun t => t.sec.sessions = s.sec.sessions ∧ t.out = s.out ++ [.spdm x 0x68 []] ∧
          t.regs = s.regs ∧ SameStore s t) ∧
        Does (.endSession x id) s (fun t => t.sec.sessions = k ++ l ∧ t.out = s.out ++ [.spdm x 0x6C []] ∧ t.regs = s.regs ∧
          SameStore s t))) ∧
    ((∀ y ∈ s.sec.sessions, ¬(y.id = id.toNat ∧ y.t = x ∧ y.done = false)) →
      Does (.finish x id true) s (fun t => t = s.spdmError x spSession 0)) ∧
    ((∀ y ∈ s.sec.sessions, ¬(y.id = id.toNat ∧ y.t = x ∧ y.done = true)) → ∀ c ∈ [Instr.keyUpdate x id, .heartbeat x id,
      .endSession x id], Does c s (fun t => t = s.spdmError x spSession 0)))

/-- SRAM errors and decode time-outs. Rests on R408, R409, R411, Table 18-5. Where a clause touches them, these are
the model's choices and no rule: log entry 11, DESIGN CHOICE, log entry 87, DESIGN CHOICE. -/
def Obligations.SramAndDecodeFaults : Prop :=
  (∀ (site : SramSite) (w : BadRow) (s : State), s.stage = .running →
    Does (.sramError false site w) s (fun t => SameStore s t ∧ t.out = s.out ∧
      (t.ras.getLast?.map (fun x => (x.cls, x.sev, x.addr, x.addr2))) = some (0x60, 0, w.structure_.toNat, w.row.toNat)) ∧
    (∀ h, site = .home h → Does (.sramError true site w) s (fun t => t.rd F.GEN_STATUS_FATAL = 1 ∧
      t.rd F.GEN_STATUS_FAULT = 1)) ∧
    (∀ q, site = .queue q → Does (.sramError true site w) s (fun t => ∃ u : State, t = u.qReset q ∧ SameStore s u ∧
      (u.ras.getLast?.map (fun x => (x.cls, x.sev, x.blk))) = some (0x60, 1, rasCRQ))) ∧
    (∀ n, site = .replay n → Does (.sramError true site w) s (fun t => ∃ u : State, t = u.cwkDown n ∧ u.mem = s.mem ∧
      (u.ras.getLast?.map (fun x => (x.cls, x.sev, x.blk, x.inst))) = some (0x60, 2, rasCWK, n.val))) ∧
    (∀ m, site = .master m → Does (.sramError true site w) s (fun t => t.rd F.TST_M_LIVE_SERVED 0 m = 0 ∧
      t.rd F.TST_M_LIVE_DEMAND 0 m = 0 ∧ SameStore s t)) ∧
    (∀ u k, site = .counter u k → Does (.sramError true site w) s (fun t => t.rd F.CNT_CTR_COUNT u k = 0 ∧ SameStore s t)) ∧
    (∀ g slot line, site = .galLine g slot line → Does (.sramError true site w) s (fun t => t.mem = s.mem ∧
      ((s.agLine (64 + g) slot.toNat line.toNat).st = .m → t.agLine (64 + g) slot.toNat line.toNat =
        { s.agLine (64 + g) slot.toNat line.toNat with poison := true }) ∧
      ((s.agLine (64 + g) slot.toNat line.toNat).st ≠ .m → SameStore s t))) ∧
    (∀ twin m, site = .mapLine twin m →
      (s.map.cache.find? (fun x => x.same ⟨twin, m.toNat, false⟩) = none → Does (.sramError true site w) s (fun t =>
        SameStore s t)) ∧
      (∀ y, s.map.cache.find? (fun x => x.same ⟨twin, m.toNat, false⟩) = some y →
        (y.dirty = false → ∀ ma, s.mapMa ⟨twin, m.toNat, false⟩ = some ma → Does (.sramError true site w) s (fun t =>
          ∃ u : State, t = u.postMa ma false 80 ∧ SameStore s u)) ∧
        (y.dirty = true → twin = true → Does (.sramError true site w) s (fun t => ∃ u : State, SameStore s u ∧
          t = u.putTwin m.toNat { s.twin m.toNat with valid := false })) ∧
        (y.dirty = true → twin = false → Does (.sramError true site w) s (fun t => t.mem = s.mem ∧
          ∀ i, i < 4 → (4 * m.toNat + i) ∈ t.map.lost)))) ∧
    (site = .core ∨ site = .other → Does (.sramError true site w) s (fun t => SameStore s t ∧ t.cc = s.cc ∧
      (t.ras.getLast?.map (fun x => (x.cls, x.sev, x.addr))) = some (0x60, 1, w.structure_.toNat)))) ∧
  (∀ (h : Fin 16) (e : BitVec 8) (s : State), s.stage = .running →
    (s.tt h e.toNat = none ∨ s.mapReq h e.toNat false = none → Does (.decodeTimeout h e) s (fun t => t = s)) ∧
    (∀ x r, s.tt h e.toNat = some x → s.mapReq h e.toNat false = some r →
      x.memOut = false ∨ r.st ≠ .served ∨ s.decoderOf x.line = none → Does (.decodeTimeout h e) s (fun t => t = s)) ∧
    (∀ x r g, s.tt h e.toNat = some x → s.mapReq h e.toNat false = some r → x.memOut = true → r.st = .served →
      s.decoderOf x.line = some g → g < 16 →
      (s.suspect g = false → s.suspect (g ^^^ 8) = false → Does (.decodeTimeout h e) s (fun t =>
        t = (s.record 0x42 2 rasGAL g g (x.line / 64)).suspectGal g ∧
        ((s.dom (16 + g)).blks = [] → t.suspect g = true ∧ t.coh = s.coh ∧ t.mem = s.mem ∧
          (t.ras.getLast?.map (fun x => (x.cls, x.sev, x.blk, x.inst))) = some (0x42, 2, rasGAL, g)))) ∧
      (s.suspect g = true ∨ s.suspect (g ^^^ 8) = true → (s.dom (16 + g)).blks = [] →
        Does (.decodeTimeout h e) s (fun t => ∃ u : State, u = (s.record 0x42 2 rasGAL g g (x.line / 64)).suspectGal g ∧
          t = u.decodeLost h e.toNat x r ∧ u.suspect g = true ∧ u.coh = s.coh ∧ u.mem = s.mem))))

/-- A bit of SEC_BIND is set by BIND and cleared by UNBIND, FLR, CXL Reset, WARM reset and lifecycle changes.
Formalises R384. -/
def Obligations.SecBindBits : Prop :=
  (∀ (who : Initiator) (id : BitVec 32) (req : Bytes) (nvsOk : Bool) (s : State), s.stage = .running →
    s.vdmBusy = false →
    (s.lcResult who id.toNat lcBIND req true = lcOk → Does (.bind who id req) s (fun t =>
      byteAt req 1 < 64 ∧ t.rdBit F.SEC_BIND_LDS (byteAt req 1) = true ∧
      ∀ k, k ≠ byteAt req 1 → k < 64 → t.rdBit F.SEC_BIND_LDS k = s.rdBit F.SEC_BIND_LDS k)) ∧
    (s.lcResult who id.toNat lcUNBIND req true = lcOk → Does (.unbind who id req) s (fun t =>
      byteAt req 1 < 64 ∧ t.rdBit F.SEC_BIND_LDS (byteAt req 1) = false ∧
      ∀ k, k ≠ byteAt req 1 → k < 64 → t.rdBit F.SEC_BIND_LDS k = s.rdBit F.SEC_BIND_LDS k)) ∧
    (s.lcResult who id.toNat lcSET req nvsOk = lcOk → Does (.setOwner who id req nvsOk) s (fun t =>
      t.rd F.SEC_BIND_LDS = 0)) ∧
    (s.lcResult who id.toNat lcSEAL req nvsOk = lcOk → Does (.seal who id req nvsOk) s (fun t =>
      t.rd F.SEC_BIND_LDS = 0)) ∧
    (s.lcResult who id.toNat lcRETURN req nvsOk = lcOk → Does (.lcReturn who id req nvsOk) s (fun t =>
      t.rd F.SEC_BIND_LDS = 0))) ∧
  (∀ (l : Fin 64) (clear : Bool) (s : State), s.stage = .running → (s.secs.ldEntry l).isSome = true →
    (∀ e, s.secs.ldEntry l = some e → s.on F.PRT_LINK_UP e.port = true →
      Does (.flr l) s (fun t => t.rdBit F.SEC_BIND_LDS l = false)) ∧
    (∀ e, s.secs.ldEntry l = some e → s.on F.PRT_LINK_UP e.port = false → Does (.flr l) s (fun t =>
      (t.ld l).flrDue = true)) ∧
    Does (.cxlReset l clear) s (fun t => t.rdBit F.SEC_BIND_LDS l = false)) ∧
  (∀ (port : Fin 16) (rate width : BitVec 3) (l0p : Bool) (s : State), s.stage = .running →
    Does (.portLinkUp port rate width l0p) s (fun t => t.on F.PRT_LINK_UP port = true → ∀ e ∈ s.secs.portLds port, e.ld < 64 →
      (s.ld e.ld).flrDue = true → t.rdBit F.SEC_BIND_LDS e.ld = false)) ∧
  (∀ (who : Initiator) (v : BitVec 32) (s : State), Permitted s who (F.GEN_RST_GO.addr 0 0) true →
    F.GEN_RST_KEY.of v.toNat = 0xA5C3 → v.toNat % 2 = 1 → Does (.genRst who v) s (fun t => t.rd F.SEC_BIND_LDS = 0)) ∧
  (∀ (station : Fin 8) (s : State), s.stage = .running → s.perst.contains station.val = false →
    Does (.perstLFall station) s (fun t => t.rd F.SEC_BIND_LDS = 0))

/-- Write drain begins at WR_HI queued writes, lasts until WR_LO, and leaves only writes to rule 3. Formalises R254.
-/
def Obligations.WriteDrain : Prop :=
  (∀ (c n : Nat) (s : State), n = ((s.chan c).queued.filter (·.write)).length →
    s.rd F.DRC_SCHED_WR_LO c < s.rd F.DRC_SCHED_WR_HI c →
    (s.rd F.DRC_SCHED_WR_HI c ≤ n → ((s.showDrain c).chan c).drain = true) ∧
    (n ≤ s.rd F.DRC_SCHED_WR_LO c → ((s.showDrain c).chan c).drain = false) ∧
    (s.rd F.DRC_SCHED_WR_LO c < n → n < s.rd F.DRC_SCHED_WR_HI c →
      ((s.showDrain c).chan c).drain = (s.chan c).drain)) ∧
  (∀ (c : Fin 16) (sub : Nat) (s : State), (s.chan c).drain = true → s.rd F.DRC_STATUS_PANIC c = 0 →
    ∀ x ∈ s.cands c sub, x.acc.write = true ∨ x.acc.rt.isSome = true) ∧
  (∀ (c : Fin 16) (sub : Fin 2) (banks : BitVec 128) (ranks : BitVec 4) (r : Fin 4) (s : State), s.stage = .running →
    ranks.getLsbD r = true → s.rd F.DRC_RANK_STATUS_STATE c r = rankACTIVE → s.rd F.DRC_RANK_STATUS_POSTPONE c r = 4 →
    (∀ r' : Fin 4, r'.val < r.val → ranks.getLsbD r' = false) →
    Does (.dramCommandIssue c sub banks ranks) s (fun t => t = s.urgentRefresh c r)) ∧
  (∀ (c : Fin 16) (sub : Nat) (s u : State), u = s.onChan c (fun y => { y with drain := true }) →
    (s.chan c).bq.all (fun a => a.rt.isSome) = true → u.cands c sub = s.cands c sub)

/-- HOLD_US: its reset value, its range, and a write outside the range. Formalises R111. -/
def Obligations.HoldTime : Prop :=
  (∀ (ss : Sections) (s : State), le (ss.get secTIER) 0 2 ≤ ss.limitVal 2 → ss.limitVal 2 ≤ 1000 →
    (s.applyStructure ss).rd F.MAP_HOLD_HOLD_US = le (ss.get secTIER) 0 2) ∧
  (∀ ss : Sections, (∀ x ∈ ss.limo, x.1 ≠ 2) → ss.limitVal 2 = 1000) ∧
  (∀ (ss : Sections) (m : Nat), ss.limo.find? (·.1 == 2) = some (2, m) → ss.limitVal 2 = m) ∧
  (∀ (who : Initiator) (data : BitVec 64) (s : State) (off : BitVec 26), off.toNat = F.MAP_HOLD_HOLD_US.addr 0 0 →
    Permitted s who off.toNat true → 1 ≤ s.secs.limitVal 2 → s.secs.limitVal 2 ≤ 1000 →
    Does (.registerWrite who off data) s (fun t =>
      (data.toNat % 2 ^ 10 < 1 → t.rd F.MAP_HOLD_HOLD_US = 1) ∧
      (1 ≤ data.toNat % 2 ^ 10 → data.toNat % 2 ^ 10 ≤ s.secs.limitVal 2 → t.rd F.MAP_HOLD_HOLD_US = data.toNat % 2 ^ 10) ∧
      (s.secs.limitVal 2 < data.toNat % 2 ^ 10 → t.rd F.MAP_HOLD_HOLD_US = s.secs.limitVal 2)))
end

