-- ==== Sys2Proof/Laws/Sparse.lean ====
section
/-!
SUPPORT. Laws of the sparse maps and of DRAM's stored bytes: reading after writing, and that every operation keeps the
canonical form.
-/

namespace Sys2Proof.Machine

/-! ### Reading after writing -/

theorem smGet_smInsert_same {α : Type} (d : α) (m : SMap α) (k : Nat) (v : α) : smGet d (smInsert m k v) k = v := by
  induction m with
  | nil => simp [smInsert, smGet]
  | cons x m ih =>
    obtain ⟨k', v'⟩ := x
    unfold smInsert
    split
    · simp [smGet]
    · split
      · simp [smGet]
      · rw [smGet, if_neg (by assumption)]; exact ih

theorem smGet_smInsert_ne {α : Type} (d : α) (m : SMap α) {k x : Nat} (v : α) (h : x ≠ k) :
    smGet d (smInsert m k v) x = smGet d m x := by
  induction m with
  | nil => simp [smInsert, smGet, h]
  | cons y m ih =>
    obtain ⟨k', v'⟩ := y
    unfold smInsert
    split
    · rw [smGet, if_neg h]
    · split
      · subst_vars; rw [smGet, if_neg h, smGet, if_neg h]
      · rw [smGet, smGet, ih]

theorem smGet_smErase_same {α : Type} (d : α) (m : SMap α) (k : Nat) : smGet d (smErase m k) k = d := by
  induction m with
  | nil => rfl
  | cons x m ih =>
    obtain ⟨k', v'⟩ := x
    by_cases h : k' = k
    · subst h; simpa [smErase] using ih
    · have : (k' != k) = true := by simpa using h
      simp only [smErase, List.filter_cons, this, if_true, smGet, if_neg (Ne.symm h)]
      exact ih

theorem smGet_smErase_ne {α : Type} (d : α) (m : SMap α) {k x : Nat} (h : x ≠ k) :
    smGet d (smErase m k) x = smGet d m x := by
  induction m with
  | nil => rfl
  | cons y m ih =>
    obtain ⟨k', v'⟩ := y
    by_cases hk : k' = k
    · subst hk; simp only [smErase, List.filter_cons, bne_self_eq_false, smGet, if_neg h]; exact ih
    · have : (k' != k) = true := by simpa using hk
      simp only [smErase, List.filter_cons, this, if_true, smGet]
      split
      · rfl
      · exact ih

/-- A key that has been set holds what it was set to. -/
theorem smGet_smSet_same {α : Type} [DecidableEq α] (d : α) (m : SMap α) (k : Nat) (v : α) :
    smGet d (smSet d m k v) k = v := by
  unfold smSet
  split
  · subst_vars; exact smGet_smErase_same _ m k
  · exact smGet_smInsert_same d m k v

/-- Setting a key leaves every other key as it was. -/
theorem smGet_smSet_ne {α : Type} [DecidableEq α] (d d' : α) (m : SMap α) {k x : Nat} (v : α) (h : x ≠ k) :
    smGet d (smSet d' m k v) x = smGet d m x := by
  unfold smSet
  split
  · exact smGet_smErase_ne d m h
  · exact smGet_smInsert_ne d m v h

/-! ### Rising keys -/

theorem smSorted_cons {α : Type} (a : Nat × α) (m : SMap α) :
    smSorted (a :: m) = true ↔ (∀ b ∈ m, a.1 < b.1) ∧ smSorted m = true := by
  induction m generalizing a with
  | nil => simp [smSorted]
  | cons b m ih =>
    simp only [smSorted, Bool.and_eq_true, decide_eq_true_eq, ih b, List.mem_cons, forall_eq_or_imp]
    exact ⟨fun ⟨h, k, w⟩ => ⟨⟨h, fun c hc => Nat.lt_trans h (k c hc)⟩, k, w⟩, fun ⟨⟨h, _⟩, k, w⟩ => ⟨h, k, w⟩⟩

theorem smSorted_filter {α : Type} (m : SMap α) (p : Nat × α → Bool) (h : smSorted m = true) :
    smSorted (m.filter p) = true := by
  induction m with
  | nil => rfl
  | cons a m ih =>
    obtain ⟨ha, hm⟩ := (smSorted_cons a m).1 h
    rw [List.filter_cons]
    split
    · exact (smSorted_cons _ _).2 ⟨fun b hb => ha b (List.mem_filter.1 hb).1, ih hm⟩
    · exact ih hm

theorem mem_smInsert {α : Type} {m : SMap α} {k : Nat} {v : α} {x : Nat × α} (h : x ∈ smInsert m k v) :
    x = (k, v) ∨ x ∈ m := by
  induction m with
  | nil => exact .inl (List.mem_singleton.1 h)
  | cons a m ih =>
    unfold smInsert at h
    split at h
    · exact List.mem_cons.1 h
    · split at h
      · rcases List.mem_cons.1 h with h | h
        · exact .inl h
        · exact .inr (List.mem_cons_of_mem _ h)
      · rcases List.mem_cons.1 h with h | h
        · exact .inr (h ▸ List.mem_cons_self ..)
        · exact (ih h).imp id (List.mem_cons_of_mem _)

theorem smSorted_smInsert {α : Type} (m : SMap α) (k : Nat) (v : α) (h : smSorted m = true) :
    smSorted (smInsert m k v) = true := by
  induction m with
  | nil => rfl
  | cons a m ih =>
    obtain ⟨ha, hm⟩ := (smSorted_cons a m).1 h
    unfold smInsert
    split
    next hk =>
      exact (smSorted_cons _ _).2 ⟨fun b hb => by
        rcases List.mem_cons.1 hb with rfl | hb
        · exact hk
        · exact Nat.lt_trans hk (ha b hb), h⟩
    next hk =>
      split
      next he => exact (smSorted_cons _ _).2 ⟨fun b hb => he ▸ ha b hb, hm⟩
      next hn =>
        refine (smSorted_cons _ _).2 ⟨fun b hb => ?_, ih hm⟩
        rcases mem_smInsert hb with rfl | hb
        · exact Nat.lt_of_le_of_ne (Nat.le_of_not_lt hk) (Ne.symm hn)
        · exact ha b hb

/-! ### The canonical form -/

theorem smWf_smSet {α : Type} [DecidableEq α] (d : Nat → α) (m : SMap α) (k : Nat) (v : α) (h : smWf d m = true) :
    smWf d (smSet (d k) m k v) = true := by
  simp only [smWf, Bool.and_eq_true, List.all_eq_true] at h ⊢
  unfold smSet
  split
  · exact ⟨smSorted_filter _ _ h.1, fun x hx => h.2 x (List.mem_filter.1 hx).1⟩
  next hv =>
    refine ⟨smSorted_smInsert _ _ _ h.1, fun x hx => ?_⟩
    rcases mem_smInsert hx with rfl | hx
    · simpa using hv
    · exact h.2 x hx

theorem Memory.wf_nil : Memory.wf [] = true := rfl

theorem Memory.wf_filter {m : List Host.Cell} (p : Host.Cell → Bool) (h : Memory.wf m = true) :
    Memory.wf (m.filter p) = true := by
  simp only [Memory.wf, Bool.and_eq_true, List.all_eq_true] at h ⊢
  exact ⟨smSorted_filter _ _ h.1, fun x hx => h.2 x (List.mem_filter.1 hx).1⟩

/-- Storing a byte at a symbol's place keeps DRAM's canonical form. -/
theorem Memory.wf_set {m : List Host.Cell} {k : Nat} (b : Byte) (hk : k % 128 < 80) (h : Memory.wf m = true) :
    Memory.wf (smSet (memDefault k) m k b) = true := by
  simp only [Memory.wf, Bool.and_eq_true, List.all_eq_true] at h ⊢
  unfold smSet
  split
  · exact ⟨smSorted_filter _ _ h.1, fun x hx => h.2 x (List.mem_filter.1 hx).1⟩
  next hv =>
    refine ⟨smSorted_smInsert _ _ _ h.1, fun x hx => ?_⟩
    rcases mem_smInsert hx with rfl | hx
    · simpa using ⟨hv, hk⟩
    · exact h.2 x hx

/-- R280: `zeroChunk` keeps DRAM's canonical form. -/
theorem State.zeroChunk_wf {s : State} (c : Nat) (h : Memory.wf s.mem = true) : Memory.wf (s.zeroChunk c).mem = true :=
  Memory.wf_filter _ h

/-- R249: storing a line keeps DRAM's canonical form. -/
theorem State.setRawLine_wf {s : State} (c cla : Nat) (w : Bytes) (h : Memory.wf s.mem = true) :
    Memory.wf (s.setRawLine c cla w).mem = true := by
  have key : ∀ (l : List (Byte × Nat)) (m : List Host.Cell), (∀ x ∈ l, x.2 < 80) → Memory.wf m = true →
      Memory.wf (l.foldl (fun m x => smSet (memDefault (memKey c cla x.2)) m (memKey c cla x.2) x.1) m) = true := by
    intro l
    induction l with
    | nil => intro m _ hm; exact hm
    | cons x l ih =>
      intro m hl hm
      refine ih _ (fun y hy => hl y (List.mem_cons_of_mem _ hy)) (Memory.wf_set _ ?_ hm)
      have := hl x (List.mem_cons_self ..)
      unfold memKey; omega
  refine key _ _ (fun x hx => ?_) h
  have := List.mem_zipIdx hx
  have hlen : (w.take 80).length ≤ 80 := List.length_take_le ..
  omega

end Sys2Proof.Machine
end

