-- ==== Sys2Proof/Laws/State.lean ====
section
/-!
SUPPORT. One lemma for every field that a primitive update leaves as it was, the laws of register fields (reading after
setting), and the wrappers of the meanings.
-/

namespace Sys2Proof.Machine

/-! ### Register fields -/

section
variable (s : State) (f g : Field) (v n i j k l : Nat)

@[simp] theorem State.bump_eq : s.bump f n i j = s.wr f (satAdd f.width (s.rd f i j) n) i j := rfl
@[simp] theorem State.add_eq : s.add f n i j = s.wr f (s.rd f i j + n) i j := rfl
@[simp] theorem State.sub_eq : s.sub f n i j = s.wr f (s.rd f i j - n) i j := rfl
@[simp] theorem State.set_eq : s.set f i j = s.wr f 1 i j := rfl
@[simp] theorem State.clear_eq : s.clear f i j = s.wr f 0 i j := rfl
@[simp] theorem State.wrBit_eq (b : Bool) : s.wrBit f k b i j = s.wr f (setBit (s.rd f i j) k b) i j := rfl

/-- A field that has been set holds what was set, cut to its width. -/
@[simp] theorem State.rd_wr_same : (s.wr f v i j).rd f i j = v % 2 ^ f.width := smGet_smSet_same _ _ _ _

variable {f g i j k l}

/-- Setting a field leaves every field with another key as it was. -/
theorem State.rd_wr_ne (h : g.key k l ≠ f.key i j) : (s.wr f v i j).rd g k l = s.rd g k l := smGet_smSet_ne _ _ _ _ h

theorem State.on_wr_ne (h : g.key k l ≠ f.key i j) : (s.wr f v i j).on g k l = s.on g k l := by
  unfold State.on; rw [State.rd_wr_ne s v h]

theorem State.rdBit_wr_ne (h : g.key k l ≠ f.key i j) : (s.wr f v i j).rdBit g n k l = s.rdBit g n k l := by
  unfold State.rdBit; rw [State.rd_wr_ne s v h]

/-- Different fields have different keys, whichever entries. -/
theorem Field.key_ne_of_id (h : g.id % 2 ^ 32 ≠ f.id % 2 ^ 32) : g.key k l ≠ f.key i j := by
  intro e
  have := congrArg (· % 2 ^ 32) e
  simp only [Field.key, Nat.add_mul_mod_self_left, Nat.mod_mod] at this
  exact h this

/-- Entries of one field have different keys. -/
theorem Field.key_inj (h : f.key i j = f.key k l) : i = k ∧ j = l := by
  unfold Field.key at h
  have h : (if i = 0 then 2 * j else 2 * ((i + j) * (i + j) + i) + 1) = (if k = 0 then 2 * l else 2 * ((k + l) * (k + l) + k) + 1) := by
    omega
  have step : ∀ a b c d : Nat, (a + b) * (a + b) + a = (c + d) * (c + d) + c → a + b ≤ c + d := by
    intro a b c d e
    refine Nat.le_of_not_lt (fun hlt => ?_)
    have h1 : (c + d + 1) * (c + d + 1) ≤ (a + b) * (a + b) := Nat.mul_le_mul hlt hlt
    have h2 : (c + d + 1) * (c + d + 1) = (c + d) * (c + d) + 2 * (c + d) + 1 := by
      generalize c + d = n
      simp only [Nat.add_mul, Nat.mul_add]
      omega
    omega
  split at h <;> split at h
  · omega
  · omega
  · omega
  · have e : (i + j) * (i + j) + i = (k + l) * (k + l) + k := by omega
    have h1 := step _ _ _ _ e
    have h2 := step _ _ _ _ e.symm
    have h3 : i + j = k + l := by omega
    rw [h3] at e
    omega

end

/-- A saturating count cut to its width. -/
@[simp] theorem satAdd_mod (w a n : Nat) : satAdd w a n % 2 ^ w = min (a + n) (2 ^ w - 1) := by
  have := Nat.two_pow_pos w
  exact Nat.mod_eq_of_lt (by unfold satAdd; omega)

theorem State.rd_bump_same (s : State) (f : Field) (n i j : Nat) :
    (s.bump f n i j).rd f i j = min (s.rd f i j + n) (2 ^ f.width - 1) := by simp

/-! ### Small shared steps -/

@[simp] theorem State.when_true (s : State) (f : State → State) : s.when true f = f s := rfl
@[simp] theorem State.when_false (s : State) (f : State → State) : s.when false f = s := rfl
@[simp] theorem State.forEach_nil {α : Type} (s : State) (f : State → α → State) : s.forEach [] f = s := rfl
@[simp] theorem State.forEach_cons {α : Type} (s : State) (x : α) (l : List α) (f : State → α → State) :
    s.forEach (x :: l) f = (f s x).forEach l f := rfl

/-- What holds of a state and is kept by each round holds after all rounds. -/
theorem State.forEach_induct {α : Type} {P : State → Prop} {l : List α} {f : State → α → State} {s : State} (h : P s)
    (hf : ∀ t, ∀ x ∈ l, P t → P (f t x)) : P (s.forEach l f) := by
  induction l generalizing s with
  | nil => exact h
  | cons x l ih => exact ih (hf _ _ (List.mem_cons_self ..) h) (fun t y hy => hf t y (List.mem_cons_of_mem _ hy))

/-! ### The wrappers of the meanings -/

theorem onDie_running {s : State} {f : State → State} (h : s.stage = .running) : onDie s f = .next (f s) := by
  unfold onDie; rw [if_pos h]

theorem onDie_not_running {s : State} {f : State → State} (h : s.stage ≠ .running) : onDie s f = .next s := by
  unfold onDie; rw [if_neg h]

theorem onClock_running {s : State} {f : State → State} (h : s.stage = .running) : onClock s f = .next (f s) := by
  unfold onClock State.clocked; simp [h]

theorem onTap_running {s : State} {f : State → State} (h : s.stage = .running) : onTap s f = .next (f s) := by
  unfold onTap; simp [h]

theorem onMailbox_served {s : State} {who : Initiator} {rom : Bool} {input : Bytes} {f : State → State}
    (h : Served s who rom input) : onMailbox who rom input s f = .next (f s) := by
  obtain ⟨hs, hw, hm, hl⟩ := h
  rw [onMailbox, onDie_running hs]
  rcases hm with hm | hm <;> simp [hw, hm, Nat.not_lt.2 hl]

/-- With no end of a session to record, an access begins from the state as it is. -/
theorem State.accessing_self {s : State} (h : s.sec.endLater = false) : s.accessing = s := by
  unfold State.accessing; rw [← h]

/-- R386: a permitted register write does what it does, once the initiator's halves of the block are dropped. -/
theorem barWrite_permitted {s : State} {who : Initiator} {off : Nat} {f : State → State} (h : Permitted s who off true) :
    barWrite s who off f = f (s.dropHalves who off) := by
  obtain ⟨_, he, hm⟩ := h
  simp [barWrite, State.access, State.firstAccess, State.accessing_self he, he, hm]

/-- R386: a forbidden register write is counted and nothing more. -/
theorem barWrite_forbidden {s : State} {who : Initiator} {off : Nat} {f : State → State} (he : s.sec.endLater = false)
    (hm : s.may who off true = false) : barWrite s who off f = (s.violate who off true).dropHalves who off := by
  simp [barWrite, State.access, State.firstAccess, State.accessing_self he, he, hm]

/-! ### State.emit -/

section
variable (s : State) (a1 : Out)

@[simp] theorem State.emit_pending : (s.emit a1).pending = s.pending := rfl
@[simp] theorem State.emit_regs : (s.emit a1).regs = s.regs := rfl
@[simp] theorem State.emit_free : (s.emit a1).free = s.free := rfl
@[simp] theorem State.emit_stage : (s.emit a1).stage = s.stage := rfl
@[simp] theorem State.emit_nvs : (s.emit a1).nvs = s.nvs := rfl
@[simp] theorem State.emit_flash : (s.emit a1).flash = s.flash := rfl
@[simp] theorem State.emit_time : (s.emit a1).time = s.time := rfl
@[simp] theorem State.emit_str : (s.emit a1).str = s.str := rfl
@[simp] theorem State.emit_cc : (s.emit a1).cc = s.cc := rfl
@[simp] theorem State.emit_sec : (s.emit a1).sec = s.sec := rfl
@[simp] theorem State.emit_ras : (s.emit a1).ras = s.ras := rfl
@[simp] theorem State.emit_map : (s.emit a1).map = s.map := rfl
@[simp] theorem State.emit_keys : (s.emit a1).keys = s.keys := rfl
@[simp] theorem State.emit_keyReqs : (s.emit a1).keyReqs = s.keyReqs := rfl
@[simp] theorem State.emit_mem : (s.emit a1).mem = s.mem := rfl
@[simp] theorem State.emit_causes : (s.emit a1).causes = s.causes := rfl
@[simp] theorem State.emit_hosts : (s.emit a1).hosts = s.hosts := rfl
@[simp] theorem State.emit_reqs : (s.emit a1).reqs = s.reqs := rfl
@[simp] theorem State.emit_stalled : (s.emit a1).stalled = s.stalled := rfl
@[simp] theorem State.emit_m2s : (s.emit a1).m2s = s.m2s := rfl
@[simp] theorem State.emit_insecure : (s.emit a1).insecure = s.insecure := rfl
@[simp] theorem State.emit_ide : (s.emit a1).ide = s.ide := rfl
@[simp] theorem State.emit_lanes : (s.emit a1).lanes = s.lanes := rfl
@[simp] theorem State.emit_badLanes : (s.emit a1).badLanes = s.badLanes := rfl
@[simp] theorem State.emit_laneRev : (s.emit a1).laneRev = s.laneRev := rfl
@[simp] theorem State.emit_dram : (s.emit a1).dram = s.dram := rfl
@[simp] theorem State.emit_coh : (s.emit a1).coh = s.coh := rfl
@[simp] theorem State.emit_noc : (s.emit a1).noc = s.noc := rfl
@[simp] theorem State.emit_links : (s.emit a1).links = s.links := rfl
@[simp] theorem State.emit_span : (s.emit a1).span = s.span := rfl
@[simp] theorem State.emit_queues : (s.emit a1).queues = s.queues := rfl
@[simp] theorem State.emit_qram : (s.emit a1).qram = s.qram := rfl
@[simp] theorem State.emit_gals : (s.emit a1).gals = s.gals := rfl
@[simp] theorem State.emit_jobSeq : (s.emit a1).jobSeq = s.jobSeq := rfl
@[simp] theorem State.emit_pwr : (s.emit a1).pwr = s.pwr := rfl
@[simp] theorem State.emit_perst : (s.emit a1).perst = s.perst := rfl
@[simp] theorem State.emit_txn : (s.emit a1).txn = s.txn := rfl
@[simp] theorem State.emit_tst : (s.emit a1).tst = s.tst := rfl
@[simp] theorem State.emit_smp : (s.emit a1).smp = s.smp := rfl
@[simp] theorem State.emit_inl : (s.emit a1).inl = s.inl := rfl
@[simp] theorem State.emit_rd (f : Field) (i j : Nat) : (s.emit a1).rd f i j = s.rd f i j := rfl
@[simp] theorem State.emit_on (f : Field) (i j : Nat) : (s.emit a1).on f i j = s.on f i j := rfl

end

/-! ### State.draw -/

section
variable (s : State)

@[simp] theorem State.draw_pending : s.draw.2.pending = s.pending := rfl
@[simp] theorem State.draw_regs : s.draw.2.regs = s.regs := rfl
@[simp] theorem State.draw_out : s.draw.2.out = s.out := rfl
@[simp] theorem State.draw_stage : s.draw.2.stage = s.stage := rfl
@[simp] theorem State.draw_nvs : s.draw.2.nvs = s.nvs := rfl
@[simp] theorem State.draw_flash : s.draw.2.flash = s.flash := rfl
@[simp] theorem State.draw_time : s.draw.2.time = s.time := rfl
@[simp] theorem State.draw_str : s.draw.2.str = s.str := rfl
@[simp] theorem State.draw_cc : s.draw.2.cc = s.cc := rfl
@[simp] theorem State.draw_sec : s.draw.2.sec = s.sec := rfl
@[simp] theorem State.draw_ras : s.draw.2.ras = s.ras := rfl
@[simp] theorem State.draw_map : s.draw.2.map = s.map := rfl
@[simp] theorem State.draw_keys : s.draw.2.keys = s.keys := rfl
@[simp] theorem State.draw_keyReqs : s.draw.2.keyReqs = s.keyReqs := rfl
@[simp] theorem State.draw_mem : s.draw.2.mem = s.mem := rfl
@[simp] theorem State.draw_causes : s.draw.2.causes = s.causes := rfl
@[simp] theorem State.draw_hosts : s.draw.2.hosts = s.hosts := rfl
@[simp] theorem State.draw_reqs : s.draw.2.reqs = s.reqs := rfl
@[simp] theorem State.draw_stalled : s.draw.2.stalled = s.stalled := rfl
@[simp] theorem State.draw_m2s : s.draw.2.m2s = s.m2s := rfl
@[simp] theorem State.draw_insecure : s.draw.2.insecure = s.insecure := rfl
@[simp] theorem State.draw_ide : s.draw.2.ide = s.ide := rfl
@[simp] theorem State.draw_lanes : s.draw.2.lanes = s.lanes := rfl
@[simp] theorem State.draw_badLanes : s.draw.2.badLanes = s.badLanes := rfl
@[simp] theorem State.draw_laneRev : s.draw.2.laneRev = s.laneRev := rfl
@[simp] theorem State.draw_dram : s.draw.2.dram = s.dram := rfl
@[simp] theorem State.draw_coh : s.draw.2.coh = s.coh := rfl
@[simp] theorem State.draw_noc : s.draw.2.noc = s.noc := rfl
@[simp] theorem State.draw_links : s.draw.2.links = s.links := rfl
@[simp] theorem State.draw_span : s.draw.2.span = s.span := rfl
@[simp] theorem State.draw_queues : s.draw.2.queues = s.queues := rfl
@[simp] theorem State.draw_qram : s.draw.2.qram = s.qram := rfl
@[simp] theorem State.draw_gals : s.draw.2.gals = s.gals := rfl
@[simp] theorem State.draw_jobSeq : s.draw.2.jobSeq = s.jobSeq := rfl
@[simp] theorem State.draw_pwr : s.draw.2.pwr = s.pwr := rfl
@[simp] theorem State.draw_perst : s.draw.2.perst = s.perst := rfl
@[simp] theorem State.draw_txn : s.draw.2.txn = s.txn := rfl
@[simp] theorem State.draw_tst : s.draw.2.tst = s.tst := rfl
@[simp] theorem State.draw_smp : s.draw.2.smp = s.smp := rfl
@[simp] theorem State.draw_inl : s.draw.2.inl = s.inl := rfl
@[simp] theorem State.draw_rd (f : Field) (i j : Nat) : s.draw.2.rd f i j = s.rd f i j := rfl
@[simp] theorem State.draw_on (f : Field) (i j : Nat) : s.draw.2.on f i j = s.on f i j := rfl

end

/-! ### State.setRawLine -/

section
variable (s : State) (a1 : Nat) (a2 : Nat) (a3 : Bytes)

@[simp] theorem State.setRawLine_pending : (s.setRawLine a1 a2 a3).pending = s.pending := rfl
@[simp] theorem State.setRawLine_regs : (s.setRawLine a1 a2 a3).regs = s.regs := rfl
@[simp] theorem State.setRawLine_free : (s.setRawLine a1 a2 a3).free = s.free := rfl
@[simp] theorem State.setRawLine_out : (s.setRawLine a1 a2 a3).out = s.out := rfl
@[simp] theorem State.setRawLine_stage : (s.setRawLine a1 a2 a3).stage = s.stage := rfl
@[simp] theorem State.setRawLine_nvs : (s.setRawLine a1 a2 a3).nvs = s.nvs := rfl
@[simp] theorem State.setRawLine_flash : (s.setRawLine a1 a2 a3).flash = s.flash := rfl
@[simp] theorem State.setRawLine_time : (s.setRawLine a1 a2 a3).time = s.time := rfl
@[simp] theorem State.setRawLine_str : (s.setRawLine a1 a2 a3).str = s.str := rfl
@[simp] theorem State.setRawLine_cc : (s.setRawLine a1 a2 a3).cc = s.cc := rfl
@[simp] theorem State.setRawLine_sec : (s.setRawLine a1 a2 a3).sec = s.sec := rfl
@[simp] theorem State.setRawLine_ras : (s.setRawLine a1 a2 a3).ras = s.ras := rfl
@[simp] theorem State.setRawLine_map : (s.setRawLine a1 a2 a3).map = s.map := rfl
@[simp] theorem State.setRawLine_keys : (s.setRawLine a1 a2 a3).keys = s.keys := rfl
@[simp] theorem State.setRawLine_keyReqs : (s.setRawLine a1 a2 a3).keyReqs = s.keyReqs := rfl
@[simp] theorem State.setRawLine_causes : (s.setRawLine a1 a2 a3).causes = s.causes := rfl
@[simp] theorem State.setRawLine_hosts : (s.setRawLine a1 a2 a3).hosts = s.hosts := rfl
@[simp] theorem State.setRawLine_reqs : (s.setRawLine a1 a2 a3).reqs = s.reqs := rfl
@[simp] theorem State.setRawLine_stalled : (s.setRawLine a1 a2 a3).stalled = s.stalled := rfl
@[simp] theorem State.setRawLine_m2s : (s.setRawLine a1 a2 a3).m2s = s.m2s := rfl
@[simp] theorem State.setRawLine_insecure : (s.setRawLine a1 a2 a3).insecure = s.insecure := rfl
@[simp] theorem State.setRawLine_ide : (s.setRawLine a1 a2 a3).ide = s.ide := rfl
@[simp] theorem State.setRawLine_lanes : (s.setRawLine a1 a2 a3).lanes = s.lanes := rfl
@[simp] theorem State.setRawLine_badLanes : (s.setRawLine a1 a2 a3).badLanes = s.badLanes := rfl
@[simp] theorem State.setRawLine_laneRev : (s.setRawLine a1 a2 a3).laneRev = s.laneRev := rfl
@[simp] theorem State.setRawLine_dram : (s.setRawLine a1 a2 a3).dram = s.dram := rfl
@[simp] theorem State.setRawLine_coh : (s.setRawLine a1 a2 a3).coh = s.coh := rfl
@[simp] theorem State.setRawLine_noc : (s.setRawLine a1 a2 a3).noc = s.noc := rfl
@[simp] theorem State.setRawLine_links : (s.setRawLine a1 a2 a3).links = s.links := rfl
@[simp] theorem State.setRawLine_span : (s.setRawLine a1 a2 a3).span = s.span := rfl
@[simp] theorem State.setRawLine_queues : (s.setRawLine a1 a2 a3).queues = s.queues := rfl
@[simp] theorem State.setRawLine_qram : (s.setRawLine a1 a2 a3).qram = s.qram := rfl
@[simp] theorem State.setRawLine_gals : (s.setRawLine a1 a2 a3).gals = s.gals := rfl
@[simp] theorem State.setRawLine_jobSeq : (s.setRawLine a1 a2 a3).jobSeq = s.jobSeq := rfl
@[simp] theorem State.setRawLine_pwr : (s.setRawLine a1 a2 a3).pwr = s.pwr := rfl
@[simp] theorem State.setRawLine_perst : (s.setRawLine a1 a2 a3).perst = s.perst := rfl
@[simp] theorem State.setRawLine_txn : (s.setRawLine a1 a2 a3).txn = s.txn := rfl
@[simp] theorem State.setRawLine_tst : (s.setRawLine a1 a2 a3).tst = s.tst := rfl
@[simp] theorem State.setRawLine_smp : (s.setRawLine a1 a2 a3).smp = s.smp := rfl
@[simp] theorem State.setRawLine_inl : (s.setRawLine a1 a2 a3).inl = s.inl := rfl
@[simp] theorem State.setRawLine_rd (f : Field) (i j : Nat) : (s.setRawLine a1 a2 a3).rd f i j = s.rd f i j := rfl
@[simp] theorem State.setRawLine_on (f : Field) (i j : Nat) : (s.setRawLine a1 a2 a3).on f i j = s.on f i j := rfl

end

/-! ### State.setChan -/

section
variable (s : State) (a1 : Nat) (a2 : ChanSt)

@[simp] theorem State.setChan_pending : (s.setChan a1 a2).pending = s.pending := rfl
@[simp] theorem State.setChan_regs : (s.setChan a1 a2).regs = s.regs := rfl
@[simp] theorem State.setChan_free : (s.setChan a1 a2).free = s.free := rfl
@[simp] theorem State.setChan_out : (s.setChan a1 a2).out = s.out := rfl
@[simp] theorem State.setChan_stage : (s.setChan a1 a2).stage = s.stage := rfl
@[simp] theorem State.setChan_nvs : (s.setChan a1 a2).nvs = s.nvs := rfl
@[simp] theorem State.setChan_flash : (s.setChan a1 a2).flash = s.flash := rfl
@[simp] theorem State.setChan_time : (s.setChan a1 a2).time = s.time := rfl
@[simp] theorem State.setChan_str : (s.setChan a1 a2).str = s.str := rfl
@[simp] theorem State.setChan_cc : (s.setChan a1 a2).cc = s.cc := rfl
@[simp] theorem State.setChan_sec : (s.setChan a1 a2).sec = s.sec := rfl
@[simp] theorem State.setChan_ras : (s.setChan a1 a2).ras = s.ras := rfl
@[simp] theorem State.setChan_map : (s.setChan a1 a2).map = s.map := rfl
@[simp] theorem State.setChan_keys : (s.setChan a1 a2).keys = s.keys := rfl
@[simp] theorem State.setChan_keyReqs : (s.setChan a1 a2).keyReqs = s.keyReqs := rfl
@[simp] theorem State.setChan_mem : (s.setChan a1 a2).mem = s.mem := rfl
@[simp] theorem State.setChan_causes : (s.setChan a1 a2).causes = s.causes := rfl
@[simp] theorem State.setChan_hosts : (s.setChan a1 a2).hosts = s.hosts := rfl
@[simp] theorem State.setChan_reqs : (s.setChan a1 a2).reqs = s.reqs := rfl
@[simp] theorem State.setChan_stalled : (s.setChan a1 a2).stalled = s.stalled := rfl
@[simp] theorem State.setChan_m2s : (s.setChan a1 a2).m2s = s.m2s := rfl
@[simp] theorem State.setChan_insecure : (s.setChan a1 a2).insecure = s.insecure := rfl
@[simp] theorem State.setChan_ide : (s.setChan a1 a2).ide = s.ide := rfl
@[simp] theorem State.setChan_lanes : (s.setChan a1 a2).lanes = s.lanes := rfl
@[simp] theorem State.setChan_badLanes : (s.setChan a1 a2).badLanes = s.badLanes := rfl
@[simp] theorem State.setChan_laneRev : (s.setChan a1 a2).laneRev = s.laneRev := rfl
@[simp] theorem State.setChan_coh : (s.setChan a1 a2).coh = s.coh := rfl
@[simp] theorem State.setChan_noc : (s.setChan a1 a2).noc = s.noc := rfl
@[simp] theorem State.setChan_links : (s.setChan a1 a2).links = s.links := rfl
@[simp] theorem State.setChan_span : (s.setChan a1 a2).span = s.span := rfl
@[simp] theorem State.setChan_queues : (s.setChan a1 a2).queues = s.queues := rfl
@[simp] theorem State.setChan_qram : (s.setChan a1 a2).qram = s.qram := rfl
@[simp] theorem State.setChan_gals : (s.setChan a1 a2).gals = s.gals := rfl
@[simp] theorem State.setChan_jobSeq : (s.setChan a1 a2).jobSeq = s.jobSeq := rfl
@[simp] theorem State.setChan_pwr : (s.setChan a1 a2).pwr = s.pwr := rfl
@[simp] theorem State.setChan_perst : (s.setChan a1 a2).perst = s.perst := rfl
@[simp] theorem State.setChan_txn : (s.setChan a1 a2).txn = s.txn := rfl
@[simp] theorem State.setChan_tst : (s.setChan a1 a2).tst = s.tst := rfl
@[simp] theorem State.setChan_smp : (s.setChan a1 a2).smp = s.smp := rfl
@[simp] theorem State.setChan_inl : (s.setChan a1 a2).inl = s.inl := rfl
@[simp] theorem State.setChan_rd (f : Field) (i j : Nat) : (s.setChan a1 a2).rd f i j = s.rd f i j := rfl
@[simp] theorem State.setChan_on (f : Field) (i j : Nat) : (s.setChan a1 a2).on f i j = s.on f i j := rfl

end

/-! ### State.onChan -/

section
variable (s : State) (a1 : Nat) (a2 : ChanSt → ChanSt)

@[simp] theorem State.onChan_pending : (s.onChan a1 a2).pending = s.pending := rfl
@[simp] theorem State.onChan_regs : (s.onChan a1 a2).regs = s.regs := rfl
@[simp] theorem State.onChan_free : (s.onChan a1 a2).free = s.free := rfl
@[simp] theorem State.onChan_out : (s.onChan a1 a2).out = s.out := rfl
@[simp] theorem State.onChan_stage : (s.onChan a1 a2).stage = s.stage := rfl
@[simp] theorem State.onChan_nvs : (s.onChan a1 a2).nvs = s.nvs := rfl
@[simp] theorem State.onChan_flash : (s.onChan a1 a2).flash = s.flash := rfl
@[simp] theorem State.onChan_time : (s.onChan a1 a2).time = s.time := rfl
@[simp] theorem State.onChan_str : (s.onChan a1 a2).str = s.str := rfl
@[simp] theorem State.onChan_cc : (s.onChan a1 a2).cc = s.cc := rfl
@[simp] theorem State.onChan_sec : (s.onChan a1 a2).sec = s.sec := rfl
@[simp] theorem State.onChan_ras : (s.onChan a1 a2).ras = s.ras := rfl
@[simp] theorem State.onChan_map : (s.onChan a1 a2).map = s.map := rfl
@[simp] theorem State.onChan_keys : (s.onChan a1 a2).keys = s.keys := rfl
@[simp] theorem State.onChan_keyReqs : (s.onChan a1 a2).keyReqs = s.keyReqs := rfl
@[simp] theorem State.onChan_mem : (s.onChan a1 a2).mem = s.mem := rfl
@[simp] theorem State.onChan_causes : (s.onChan a1 a2).causes = s.causes := rfl
@[simp] theorem State.onChan_hosts : (s.onChan a1 a2).hosts = s.hosts := rfl
@[simp] theorem State.onChan_reqs : (s.onChan a1 a2).reqs = s.reqs := rfl
@[simp] theorem State.onChan_stalled : (s.onChan a1 a2).stalled = s.stalled := rfl
@[simp] theorem State.onChan_m2s : (s.onChan a1 a2).m2s = s.m2s := rfl
@[simp] theorem State.onChan_insecure : (s.onChan a1 a2).insecure = s.insecure := rfl
@[simp] theorem State.onChan_ide : (s.onChan a1 a2).ide = s.ide := rfl
@[simp] theorem State.onChan_lanes : (s.onChan a1 a2).lanes = s.lanes := rfl
@[simp] theorem State.onChan_badLanes : (s.onChan a1 a2).badLanes = s.badLanes := rfl
@[simp] theorem State.onChan_laneRev : (s.onChan a1 a2).laneRev = s.laneRev := rfl
@[simp] theorem State.onChan_coh : (s.onChan a1 a2).coh = s.coh := rfl
@[simp] theorem State.onChan_noc : (s.onChan a1 a2).noc = s.noc := rfl
@[simp] theorem State.onChan_links : (s.onChan a1 a2).links = s.links := rfl
@[simp] theorem State.onChan_span : (s.onChan a1 a2).span = s.span := rfl
@[simp] theorem State.onChan_queues : (s.onChan a1 a2).queues = s.queues := rfl
@[simp] theorem State.onChan_qram : (s.onChan a1 a2).qram = s.qram := rfl
@[simp] theorem State.onChan_gals : (s.onChan a1 a2).gals = s.gals := rfl
@[simp] theorem State.onChan_jobSeq : (s.onChan a1 a2).jobSeq = s.jobSeq := rfl
@[simp] theorem State.onChan_pwr : (s.onChan a1 a2).pwr = s.pwr := rfl
@[simp] theorem State.onChan_perst : (s.onChan a1 a2).perst = s.perst := rfl
@[simp] theorem State.onChan_txn : (s.onChan a1 a2).txn = s.txn := rfl
@[simp] theorem State.onChan_tst : (s.onChan a1 a2).tst = s.tst := rfl
@[simp] theorem State.onChan_smp : (s.onChan a1 a2).smp = s.smp := rfl
@[simp] theorem State.onChan_inl : (s.onChan a1 a2).inl = s.inl := rfl
@[simp] theorem State.onChan_rd (f : Field) (i j : Nat) : (s.onChan a1 a2).rd f i j = s.rd f i j := rfl
@[simp] theorem State.onChan_on (f : Field) (i j : Nat) : (s.onChan a1 a2).on f i j = s.on f i j := rfl

end

/-! ### State.setKeySlot -/

section
variable (s : State) (a1 : Nat) (a2 : KeySlot)

@[simp] theorem State.setKeySlot_pending : (s.setKeySlot a1 a2).pending = s.pending := rfl
@[simp] theorem State.setKeySlot_regs : (s.setKeySlot a1 a2).regs = s.regs := rfl
@[simp] theorem State.setKeySlot_free : (s.setKeySlot a1 a2).free = s.free := rfl
@[simp] theorem State.setKeySlot_out : (s.setKeySlot a1 a2).out = s.out := rfl
@[simp] theorem State.setKeySlot_stage : (s.setKeySlot a1 a2).stage = s.stage := rfl
@[simp] theorem State.setKeySlot_nvs : (s.setKeySlot a1 a2).nvs = s.nvs := rfl
@[simp] theorem State.setKeySlot_flash : (s.setKeySlot a1 a2).flash = s.flash := rfl
@[simp] theorem State.setKeySlot_time : (s.setKeySlot a1 a2).time = s.time := rfl
@[simp] theorem State.setKeySlot_str : (s.setKeySlot a1 a2).str = s.str := rfl
@[simp] theorem State.setKeySlot_cc : (s.setKeySlot a1 a2).cc = s.cc := rfl
@[simp] theorem State.setKeySlot_sec : (s.setKeySlot a1 a2).sec = s.sec := rfl
@[simp] theorem State.setKeySlot_ras : (s.setKeySlot a1 a2).ras = s.ras := rfl
@[simp] theorem State.setKeySlot_map : (s.setKeySlot a1 a2).map = s.map := rfl
@[simp] theorem State.setKeySlot_keyReqs : (s.setKeySlot a1 a2).keyReqs = s.keyReqs := rfl
@[simp] theorem State.setKeySlot_mem : (s.setKeySlot a1 a2).mem = s.mem := rfl
@[simp] theorem State.setKeySlot_causes : (s.setKeySlot a1 a2).causes = s.causes := rfl
@[simp] theorem State.setKeySlot_hosts : (s.setKeySlot a1 a2).hosts = s.hosts := rfl
@[simp] theorem State.setKeySlot_reqs : (s.setKeySlot a1 a2).reqs = s.reqs := rfl
@[simp] theorem State.setKeySlot_stalled : (s.setKeySlot a1 a2).stalled = s.stalled := rfl
@[simp] theorem State.setKeySlot_m2s : (s.setKeySlot a1 a2).m2s = s.m2s := rfl
@[simp] theorem State.setKeySlot_insecure : (s.setKeySlot a1 a2).insecure = s.insecure := rfl
@[simp] theorem State.setKeySlot_ide : (s.setKeySlot a1 a2).ide = s.ide := rfl
@[simp] theorem State.setKeySlot_lanes : (s.setKeySlot a1 a2).lanes = s.lanes := rfl
@[simp] theorem State.setKeySlot_badLanes : (s.setKeySlot a1 a2).badLanes = s.badLanes := rfl
@[simp] theorem State.setKeySlot_laneRev : (s.setKeySlot a1 a2).laneRev = s.laneRev := rfl
@[simp] theorem State.setKeySlot_dram : (s.setKeySlot a1 a2).dram = s.dram := rfl
@[simp] theorem State.setKeySlot_coh : (s.setKeySlot a1 a2).coh = s.coh := rfl
@[simp] theorem State.setKeySlot_noc : (s.setKeySlot a1 a2).noc = s.noc := rfl
@[simp] theorem State.setKeySlot_links : (s.setKeySlot a1 a2).links = s.links := rfl
@[simp] theorem State.setKeySlot_span : (s.setKeySlot a1 a2).span = s.span := rfl
@[simp] theorem State.setKeySlot_queues : (s.setKeySlot a1 a2).queues = s.queues := rfl
@[simp] theorem State.setKeySlot_qram : (s.setKeySlot a1 a2).qram = s.qram := rfl
@[simp] theorem State.setKeySlot_gals : (s.setKeySlot a1 a2).gals = s.gals := rfl
@[simp] theorem State.setKeySlot_jobSeq : (s.setKeySlot a1 a2).jobSeq = s.jobSeq := rfl
@[simp] theorem State.setKeySlot_pwr : (s.setKeySlot a1 a2).pwr = s.pwr := rfl
@[simp] theorem State.setKeySlot_perst : (s.setKeySlot a1 a2).perst = s.perst := rfl
@[simp] theorem State.setKeySlot_txn : (s.setKeySlot a1 a2).txn = s.txn := rfl
@[simp] theorem State.setKeySlot_tst : (s.setKeySlot a1 a2).tst = s.tst := rfl
@[simp] theorem State.setKeySlot_smp : (s.setKeySlot a1 a2).smp = s.smp := rfl
@[simp] theorem State.setKeySlot_inl : (s.setKeySlot a1 a2).inl = s.inl := rfl
@[simp] theorem State.setKeySlot_rd (f : Field) (i j : Nat) : (s.setKeySlot a1 a2).rd f i j = s.rd f i j := rfl
@[simp] theorem State.setKeySlot_on (f : Field) (i j : Nat) : (s.setKeySlot a1 a2).on f i j = s.on f i j := rfl

end

/-! ### State.onLd -/

section
variable (s : State) (a1 : Nat) (a2 : LdSt → LdSt)

@[simp] theorem State.onLd_pending : (s.onLd a1 a2).pending = s.pending := rfl
@[simp] theorem State.onLd_regs : (s.onLd a1 a2).regs = s.regs := rfl
@[simp] theorem State.onLd_free : (s.onLd a1 a2).free = s.free := rfl
@[simp] theorem State.onLd_out : (s.onLd a1 a2).out = s.out := rfl
@[simp] theorem State.onLd_stage : (s.onLd a1 a2).stage = s.stage := rfl
@[simp] theorem State.onLd_nvs : (s.onLd a1 a2).nvs = s.nvs := rfl
@[simp] theorem State.onLd_flash : (s.onLd a1 a2).flash = s.flash := rfl
@[simp] theorem State.onLd_time : (s.onLd a1 a2).time = s.time := rfl
@[simp] theorem State.onLd_str : (s.onLd a1 a2).str = s.str := rfl
@[simp] theorem State.onLd_cc : (s.onLd a1 a2).cc = s.cc := rfl
@[simp] theorem State.onLd_sec : (s.onLd a1 a2).sec = s.sec := rfl
@[simp] theorem State.onLd_ras : (s.onLd a1 a2).ras = s.ras := rfl
@[simp] theorem State.onLd_map : (s.onLd a1 a2).map = s.map := rfl
@[simp] theorem State.onLd_keys : (s.onLd a1 a2).keys = s.keys := rfl
@[simp] theorem State.onLd_keyReqs : (s.onLd a1 a2).keyReqs = s.keyReqs := rfl
@[simp] theorem State.onLd_mem : (s.onLd a1 a2).mem = s.mem := rfl
@[simp] theorem State.onLd_causes : (s.onLd a1 a2).causes = s.causes := rfl
@[simp] theorem State.onLd_reqs : (s.onLd a1 a2).reqs = s.reqs := rfl
@[simp] theorem State.onLd_stalled : (s.onLd a1 a2).stalled = s.stalled := rfl
@[simp] theorem State.onLd_m2s : (s.onLd a1 a2).m2s = s.m2s := rfl
@[simp] theorem State.onLd_insecure : (s.onLd a1 a2).insecure = s.insecure := rfl
@[simp] theorem State.onLd_ide : (s.onLd a1 a2).ide = s.ide := rfl
@[simp] theorem State.onLd_lanes : (s.onLd a1 a2).lanes = s.lanes := rfl
@[simp] theorem State.onLd_badLanes : (s.onLd a1 a2).badLanes = s.badLanes := rfl
@[simp] theorem State.onLd_laneRev : (s.onLd a1 a2).laneRev = s.laneRev := rfl
@[simp] theorem State.onLd_dram : (s.onLd a1 a2).dram = s.dram := rfl
@[simp] theorem State.onLd_coh : (s.onLd a1 a2).coh = s.coh := rfl
@[simp] theorem State.onLd_noc : (s.onLd a1 a2).noc = s.noc := rfl
@[simp] theorem State.onLd_links : (s.onLd a1 a2).links = s.links := rfl
@[simp] theorem State.onLd_span : (s.onLd a1 a2).span = s.span := rfl
@[simp] theorem State.onLd_queues : (s.onLd a1 a2).queues = s.queues := rfl
@[simp] theorem State.onLd_qram : (s.onLd a1 a2).qram = s.qram := rfl
@[simp] theorem State.onLd_gals : (s.onLd a1 a2).gals = s.gals := rfl
@[simp] theorem State.onLd_jobSeq : (s.onLd a1 a2).jobSeq = s.jobSeq := rfl
@[simp] theorem State.onLd_pwr : (s.onLd a1 a2).pwr = s.pwr := rfl
@[simp] theorem State.onLd_perst : (s.onLd a1 a2).perst = s.perst := rfl
@[simp] theorem State.onLd_txn : (s.onLd a1 a2).txn = s.txn := rfl
@[simp] theorem State.onLd_tst : (s.onLd a1 a2).tst = s.tst := rfl
@[simp] theorem State.onLd_smp : (s.onLd a1 a2).smp = s.smp := rfl
@[simp] theorem State.onLd_inl : (s.onLd a1 a2).inl = s.inl := rfl
@[simp] theorem State.onLd_rd (f : Field) (i j : Nat) : (s.onLd a1 a2).rd f i j = s.rd f i j := rfl
@[simp] theorem State.onLd_on (f : Field) (i j : Nat) : (s.onLd a1 a2).on f i j = s.on f i j := rfl

end

/-! ### State.onGal -/

section
variable (s : State) (a1 : Nat) (a2 : GalSt → GalSt)

@[simp] theorem State.onGal_pending : (s.onGal a1 a2).pending = s.pending := rfl
@[simp] theorem State.onGal_regs : (s.onGal a1 a2).regs = s.regs := rfl
@[simp] theorem State.onGal_free : (s.onGal a1 a2).free = s.free := rfl
@[simp] theorem State.onGal_out : (s.onGal a1 a2).out = s.out := rfl
@[simp] theorem State.onGal_stage : (s.onGal a1 a2).stage = s.stage := rfl
@[simp] theorem State.onGal_nvs : (s.onGal a1 a2).nvs = s.nvs := rfl
@[simp] theorem State.onGal_flash : (s.onGal a1 a2).flash = s.flash := rfl
@[simp] theorem State.onGal_time : (s.onGal a1 a2).time = s.time := rfl
@[simp] theorem State.onGal_str : (s.onGal a1 a2).str = s.str := rfl
@[simp] theorem State.onGal_cc : (s.onGal a1 a2).cc = s.cc := rfl
@[simp] theorem State.onGal_sec : (s.onGal a1 a2).sec = s.sec := rfl
@[simp] theorem State.onGal_ras : (s.onGal a1 a2).ras = s.ras := rfl
@[simp] theorem State.onGal_map : (s.onGal a1 a2).map = s.map := rfl
@[simp] theorem State.onGal_keys : (s.onGal a1 a2).keys = s.keys := rfl
@[simp] theorem State.onGal_keyReqs : (s.onGal a1 a2).keyReqs = s.keyReqs := rfl
@[simp] theorem State.onGal_mem : (s.onGal a1 a2).mem = s.mem := rfl
@[simp] theorem State.onGal_causes : (s.onGal a1 a2).causes = s.causes := rfl
@[simp] theorem State.onGal_hosts : (s.onGal a1 a2).hosts = s.hosts := rfl
@[simp] theorem State.onGal_reqs : (s.onGal a1 a2).reqs = s.reqs := rfl
@[simp] theorem State.onGal_stalled : (s.onGal a1 a2).stalled = s.stalled := rfl
@[simp] theorem State.onGal_m2s : (s.onGal a1 a2).m2s = s.m2s := rfl
@[simp] theorem State.onGal_insecure : (s.onGal a1 a2).insecure = s.insecure := rfl
@[simp] theorem State.onGal_ide : (s.onGal a1 a2).ide = s.ide := rfl
@[simp] theorem State.onGal_lanes : (s.onGal a1 a2).lanes = s.lanes := rfl
@[simp] theorem State.onGal_badLanes : (s.onGal a1 a2).badLanes = s.badLanes := rfl
@[simp] theorem State.onGal_laneRev : (s.onGal a1 a2).laneRev = s.laneRev := rfl
@[simp] theorem State.onGal_dram : (s.onGal a1 a2).dram = s.dram := rfl
@[simp] theorem State.onGal_coh : (s.onGal a1 a2).coh = s.coh := rfl
@[simp] theorem State.onGal_noc : (s.onGal a1 a2).noc = s.noc := rfl
@[simp] theorem State.onGal_links : (s.onGal a1 a2).links = s.links := rfl
@[simp] theorem State.onGal_span : (s.onGal a1 a2).span = s.span := rfl
@[simp] theorem State.onGal_queues : (s.onGal a1 a2).queues = s.queues := rfl
@[simp] theorem State.onGal_qram : (s.onGal a1 a2).qram = s.qram := rfl
@[simp] theorem State.onGal_jobSeq : (s.onGal a1 a2).jobSeq = s.jobSeq := rfl
@[simp] theorem State.onGal_pwr : (s.onGal a1 a2).pwr = s.pwr := rfl
@[simp] theorem State.onGal_perst : (s.onGal a1 a2).perst = s.perst := rfl
@[simp] theorem State.onGal_txn : (s.onGal a1 a2).txn = s.txn := rfl
@[simp] theorem State.onGal_tst : (s.onGal a1 a2).tst = s.tst := rfl
@[simp] theorem State.onGal_smp : (s.onGal a1 a2).smp = s.smp := rfl
@[simp] theorem State.onGal_inl : (s.onGal a1 a2).inl = s.inl := rfl
@[simp] theorem State.onGal_rd (f : Field) (i j : Nat) : (s.onGal a1 a2).rd f i j = s.rd f i j := rfl
@[simp] theorem State.onGal_on (f : Field) (i j : Nat) : (s.onGal a1 a2).on f i j = s.on f i j := rfl

end

/-! ### State.send -/

section
variable (s : State) (a1 : Flight)

@[simp] theorem State.send_pending : (s.send a1).pending = s.pending := rfl
@[simp] theorem State.send_regs : (s.send a1).regs = s.regs := rfl
@[simp] theorem State.send_free : (s.send a1).free = s.free := rfl
@[simp] theorem State.send_out : (s.send a1).out = s.out := rfl
@[simp] theorem State.send_stage : (s.send a1).stage = s.stage := rfl
@[simp] theorem State.send_nvs : (s.send a1).nvs = s.nvs := rfl
@[simp] theorem State.send_flash : (s.send a1).flash = s.flash := rfl
@[simp] theorem State.send_time : (s.send a1).time = s.time := rfl
@[simp] theorem State.send_str : (s.send a1).str = s.str := rfl
@[simp] theorem State.send_cc : (s.send a1).cc = s.cc := rfl
@[simp] theorem State.send_sec : (s.send a1).sec = s.sec := rfl
@[simp] theorem State.send_ras : (s.send a1).ras = s.ras := rfl
@[simp] theorem State.send_map : (s.send a1).map = s.map := rfl
@[simp] theorem State.send_keys : (s.send a1).keys = s.keys := rfl
@[simp] theorem State.send_keyReqs : (s.send a1).keyReqs = s.keyReqs := rfl
@[simp] theorem State.send_mem : (s.send a1).mem = s.mem := rfl
@[simp] theorem State.send_causes : (s.send a1).causes = s.causes := rfl
@[simp] theorem State.send_hosts : (s.send a1).hosts = s.hosts := rfl
@[simp] theorem State.send_reqs : (s.send a1).reqs = s.reqs := rfl
@[simp] theorem State.send_stalled : (s.send a1).stalled = s.stalled := rfl
@[simp] theorem State.send_m2s : (s.send a1).m2s = s.m2s := rfl
@[simp] theorem State.send_insecure : (s.send a1).insecure = s.insecure := rfl
@[simp] theorem State.send_ide : (s.send a1).ide = s.ide := rfl
@[simp] theorem State.send_lanes : (s.send a1).lanes = s.lanes := rfl
@[simp] theorem State.send_badLanes : (s.send a1).badLanes = s.badLanes := rfl
@[simp] theorem State.send_laneRev : (s.send a1).laneRev = s.laneRev := rfl
@[simp] theorem State.send_dram : (s.send a1).dram = s.dram := rfl
@[simp] theorem State.send_links : (s.send a1).links = s.links := rfl
@[simp] theorem State.send_span : (s.send a1).span = s.span := rfl
@[simp] theorem State.send_queues : (s.send a1).queues = s.queues := rfl
@[simp] theorem State.send_qram : (s.send a1).qram = s.qram := rfl
@[simp] theorem State.send_gals : (s.send a1).gals = s.gals := rfl
@[simp] theorem State.send_jobSeq : (s.send a1).jobSeq = s.jobSeq := rfl
@[simp] theorem State.send_pwr : (s.send a1).pwr = s.pwr := rfl
@[simp] theorem State.send_perst : (s.send a1).perst = s.perst := rfl
@[simp] theorem State.send_txn : (s.send a1).txn = s.txn := rfl
@[simp] theorem State.send_tst : (s.send a1).tst = s.tst := rfl
@[simp] theorem State.send_smp : (s.send a1).smp = s.smp := rfl
@[simp] theorem State.send_inl : (s.send a1).inl = s.inl := rfl
@[simp] theorem State.send_rd (f : Field) (i j : Nat) : (s.send a1).rd f i j = s.rd f i j := rfl
@[simp] theorem State.send_on (f : Field) (i j : Nat) : (s.send a1).on f i j = s.on f i j := rfl

end

/-! ### State.inject -/

section
variable (s : State) (a1 : Flight)

@[simp] theorem State.inject_pending : (s.inject a1).pending = s.pending := rfl
@[simp] theorem State.inject_regs : (s.inject a1).regs = s.regs := rfl
@[simp] theorem State.inject_free : (s.inject a1).free = s.free := rfl
@[simp] theorem State.inject_out : (s.inject a1).out = s.out := rfl
@[simp] theorem State.inject_stage : (s.inject a1).stage = s.stage := rfl
@[simp] theorem State.inject_nvs : (s.inject a1).nvs = s.nvs := rfl
@[simp] theorem State.inject_flash : (s.inject a1).flash = s.flash := rfl
@[simp] theorem State.inject_time : (s.inject a1).time = s.time := rfl
@[simp] theorem State.inject_str : (s.inject a1).str = s.str := rfl
@[simp] theorem State.inject_cc : (s.inject a1).cc = s.cc := rfl
@[simp] theorem State.inject_sec : (s.inject a1).sec = s.sec := rfl
@[simp] theorem State.inject_ras : (s.inject a1).ras = s.ras := rfl
@[simp] theorem State.inject_map : (s.inject a1).map = s.map := rfl
@[simp] theorem State.inject_keys : (s.inject a1).keys = s.keys := rfl
@[simp] theorem State.inject_keyReqs : (s.inject a1).keyReqs = s.keyReqs := rfl
@[simp] theorem State.inject_mem : (s.inject a1).mem = s.mem := rfl
@[simp] theorem State.inject_causes : (s.inject a1).causes = s.causes := rfl
@[simp] theorem State.inject_hosts : (s.inject a1).hosts = s.hosts := rfl
@[simp] theorem State.inject_reqs : (s.inject a1).reqs = s.reqs := rfl
@[simp] theorem State.inject_stalled : (s.inject a1).stalled = s.stalled := rfl
@[simp] theorem State.inject_m2s : (s.inject a1).m2s = s.m2s := rfl
@[simp] theorem State.inject_insecure : (s.inject a1).insecure = s.insecure := rfl
@[simp] theorem State.inject_ide : (s.inject a1).ide = s.ide := rfl
@[simp] theorem State.inject_lanes : (s.inject a1).lanes = s.lanes := rfl
@[simp] theorem State.inject_badLanes : (s.inject a1).badLanes = s.badLanes := rfl
@[simp] theorem State.inject_laneRev : (s.inject a1).laneRev = s.laneRev := rfl
@[simp] theorem State.inject_dram : (s.inject a1).dram = s.dram := rfl
@[simp] theorem State.inject_coh : (s.inject a1).coh = s.coh := rfl
@[simp] theorem State.inject_links : (s.inject a1).links = s.links := rfl
@[simp] theorem State.inject_span : (s.inject a1).span = s.span := rfl
@[simp] theorem State.inject_queues : (s.inject a1).queues = s.queues := rfl
@[simp] theorem State.inject_qram : (s.inject a1).qram = s.qram := rfl
@[simp] theorem State.inject_gals : (s.inject a1).gals = s.gals := rfl
@[simp] theorem State.inject_jobSeq : (s.inject a1).jobSeq = s.jobSeq := rfl
@[simp] theorem State.inject_pwr : (s.inject a1).pwr = s.pwr := rfl
@[simp] theorem State.inject_perst : (s.inject a1).perst = s.perst := rfl
@[simp] theorem State.inject_txn : (s.inject a1).txn = s.txn := rfl
@[simp] theorem State.inject_tst : (s.inject a1).tst = s.tst := rfl
@[simp] theorem State.inject_smp : (s.inject a1).smp = s.smp := rfl
@[simp] theorem State.inject_inl : (s.inject a1).inl = s.inl := rfl
@[simp] theorem State.inject_rd (f : Field) (i j : Nat) : (s.inject a1).rd f i j = s.rd f i j := rfl
@[simp] theorem State.inject_on (f : Field) (i j : Nat) : (s.inject a1).on f i j = s.on f i j := rfl

end

/-! ### State.dropPkt -/

section
variable (s : State) (a1 : Flight)

@[simp] theorem State.dropPkt_pending : (s.dropPkt a1).pending = s.pending := rfl
@[simp] theorem State.dropPkt_regs : (s.dropPkt a1).regs = s.regs := rfl
@[simp] theorem State.dropPkt_free : (s.dropPkt a1).free = s.free := rfl
@[simp] theorem State.dropPkt_out : (s.dropPkt a1).out = s.out := rfl
@[simp] theorem State.dropPkt_stage : (s.dropPkt a1).stage = s.stage := rfl
@[simp] theorem State.dropPkt_nvs : (s.dropPkt a1).nvs = s.nvs := rfl
@[simp] theorem State.dropPkt_flash : (s.dropPkt a1).flash = s.flash := rfl
@[simp] theorem State.dropPkt_time : (s.dropPkt a1).time = s.time := rfl
@[simp] theorem State.dropPkt_str : (s.dropPkt a1).str = s.str := rfl
@[simp] theorem State.dropPkt_cc : (s.dropPkt a1).cc = s.cc := rfl
@[simp] theorem State.dropPkt_sec : (s.dropPkt a1).sec = s.sec := rfl
@[simp] theorem State.dropPkt_ras : (s.dropPkt a1).ras = s.ras := rfl
@[simp] theorem State.dropPkt_map : (s.dropPkt a1).map = s.map := rfl
@[simp] theorem State.dropPkt_keys : (s.dropPkt a1).keys = s.keys := rfl
@[simp] theorem State.dropPkt_keyReqs : (s.dropPkt a1).keyReqs = s.keyReqs := rfl
@[simp] theorem State.dropPkt_mem : (s.dropPkt a1).mem = s.mem := rfl
@[simp] theorem State.dropPkt_causes : (s.dropPkt a1).causes = s.causes := rfl
@[simp] theorem State.dropPkt_hosts : (s.dropPkt a1).hosts = s.hosts := rfl
@[simp] theorem State.dropPkt_reqs : (s.dropPkt a1).reqs = s.reqs := rfl
@[simp] theorem State.dropPkt_stalled : (s.dropPkt a1).stalled = s.stalled := rfl
@[simp] theorem State.dropPkt_m2s : (s.dropPkt a1).m2s = s.m2s := rfl
@[simp] theorem State.dropPkt_insecure : (s.dropPkt a1).insecure = s.insecure := rfl
@[simp] theorem State.dropPkt_ide : (s.dropPkt a1).ide = s.ide := rfl
@[simp] theorem State.dropPkt_lanes : (s.dropPkt a1).lanes = s.lanes := rfl
@[simp] theorem State.dropPkt_badLanes : (s.dropPkt a1).badLanes = s.badLanes := rfl
@[simp] theorem State.dropPkt_laneRev : (s.dropPkt a1).laneRev = s.laneRev := rfl
@[simp] theorem State.dropPkt_dram : (s.dropPkt a1).dram = s.dram := rfl
@[simp] theorem State.dropPkt_coh : (s.dropPkt a1).coh = s.coh := rfl
@[simp] theorem State.dropPkt_links : (s.dropPkt a1).links = s.links := rfl
@[simp] theorem State.dropPkt_span : (s.dropPkt a1).span = s.span := rfl
@[simp] theorem State.dropPkt_queues : (s.dropPkt a1).queues = s.queues := rfl
@[simp] theorem State.dropPkt_qram : (s.dropPkt a1).qram = s.qram := rfl
@[simp] theorem State.dropPkt_gals : (s.dropPkt a1).gals = s.gals := rfl
@[simp] theorem State.dropPkt_jobSeq : (s.dropPkt a1).jobSeq = s.jobSeq := rfl
@[simp] theorem State.dropPkt_pwr : (s.dropPkt a1).pwr = s.pwr := rfl
@[simp] theorem State.dropPkt_perst : (s.dropPkt a1).perst = s.perst := rfl
@[simp] theorem State.dropPkt_txn : (s.dropPkt a1).txn = s.txn := rfl
@[simp] theorem State.dropPkt_tst : (s.dropPkt a1).tst = s.tst := rfl
@[simp] theorem State.dropPkt_smp : (s.dropPkt a1).smp = s.smp := rfl
@[simp] theorem State.dropPkt_inl : (s.dropPkt a1).inl = s.inl := rfl
@[simp] theorem State.dropPkt_rd (f : Field) (i j : Nat) : (s.dropPkt a1).rd f i j = s.rd f i j := rfl
@[simp] theorem State.dropPkt_on (f : Field) (i j : Nat) : (s.dropPkt a1).on f i j = s.on f i j := rfl

end

/-! ### State.unsend -/

section
variable (s : State) (a1 : Flight)

@[simp] theorem State.unsend_pending : (s.unsend a1).pending = s.pending := rfl
@[simp] theorem State.unsend_regs : (s.unsend a1).regs = s.regs := rfl
@[simp] theorem State.unsend_free : (s.unsend a1).free = s.free := rfl
@[simp] theorem State.unsend_out : (s.unsend a1).out = s.out := rfl
@[simp] theorem State.unsend_stage : (s.unsend a1).stage = s.stage := rfl
@[simp] theorem State.unsend_nvs : (s.unsend a1).nvs = s.nvs := rfl
@[simp] theorem State.unsend_flash : (s.unsend a1).flash = s.flash := rfl
@[simp] theorem State.unsend_time : (s.unsend a1).time = s.time := rfl
@[simp] theorem State.unsend_str : (s.unsend a1).str = s.str := rfl
@[simp] theorem State.unsend_cc : (s.unsend a1).cc = s.cc := rfl
@[simp] theorem State.unsend_sec : (s.unsend a1).sec = s.sec := rfl
@[simp] theorem State.unsend_ras : (s.unsend a1).ras = s.ras := rfl
@[simp] theorem State.unsend_map : (s.unsend a1).map = s.map := rfl
@[simp] theorem State.unsend_keys : (s.unsend a1).keys = s.keys := rfl
@[simp] theorem State.unsend_keyReqs : (s.unsend a1).keyReqs = s.keyReqs := rfl
@[simp] theorem State.unsend_mem : (s.unsend a1).mem = s.mem := rfl
@[simp] theorem State.unsend_causes : (s.unsend a1).causes = s.causes := rfl
@[simp] theorem State.unsend_hosts : (s.unsend a1).hosts = s.hosts := rfl
@[simp] theorem State.unsend_reqs : (s.unsend a1).reqs = s.reqs := rfl
@[simp] theorem State.unsend_stalled : (s.unsend a1).stalled = s.stalled := rfl
@[simp] theorem State.unsend_m2s : (s.unsend a1).m2s = s.m2s := rfl
@[simp] theorem State.unsend_insecure : (s.unsend a1).insecure = s.insecure := rfl
@[simp] theorem State.unsend_ide : (s.unsend a1).ide = s.ide := rfl
@[simp] theorem State.unsend_lanes : (s.unsend a1).lanes = s.lanes := rfl
@[simp] theorem State.unsend_badLanes : (s.unsend a1).badLanes = s.badLanes := rfl
@[simp] theorem State.unsend_laneRev : (s.unsend a1).laneRev = s.laneRev := rfl
@[simp] theorem State.unsend_dram : (s.unsend a1).dram = s.dram := rfl
@[simp] theorem State.unsend_links : (s.unsend a1).links = s.links := rfl
@[simp] theorem State.unsend_span : (s.unsend a1).span = s.span := rfl
@[simp] theorem State.unsend_queues : (s.unsend a1).queues = s.queues := rfl
@[simp] theorem State.unsend_qram : (s.unsend a1).qram = s.qram := rfl
@[simp] theorem State.unsend_gals : (s.unsend a1).gals = s.gals := rfl
@[simp] theorem State.unsend_jobSeq : (s.unsend a1).jobSeq = s.jobSeq := rfl
@[simp] theorem State.unsend_pwr : (s.unsend a1).pwr = s.pwr := rfl
@[simp] theorem State.unsend_perst : (s.unsend a1).perst = s.perst := rfl
@[simp] theorem State.unsend_txn : (s.unsend a1).txn = s.txn := rfl
@[simp] theorem State.unsend_tst : (s.unsend a1).tst = s.tst := rfl
@[simp] theorem State.unsend_smp : (s.unsend a1).smp = s.smp := rfl
@[simp] theorem State.unsend_inl : (s.unsend a1).inl = s.inl := rfl
@[simp] theorem State.unsend_rd (f : Field) (i j : Nat) : (s.unsend a1).rd f i j = s.rd f i j := rfl
@[simp] theorem State.unsend_on (f : Field) (i j : Nat) : (s.unsend a1).on f i j = s.on f i j := rfl

end

/-! ### State.markReq -/

section
variable (s : State) (a1 : MapReq) (a2 : ReqSt)

@[simp] theorem State.markReq_pending : (s.markReq a1 a2).pending = s.pending := rfl
@[simp] theorem State.markReq_regs : (s.markReq a1 a2).regs = s.regs := rfl
@[simp] theorem State.markReq_free : (s.markReq a1 a2).free = s.free := rfl
@[simp] theorem State.markReq_out : (s.markReq a1 a2).out = s.out := rfl
@[simp] theorem State.markReq_stage : (s.markReq a1 a2).stage = s.stage := rfl
@[simp] theorem State.markReq_nvs : (s.markReq a1 a2).nvs = s.nvs := rfl
@[simp] theorem State.markReq_flash : (s.markReq a1 a2).flash = s.flash := rfl
@[simp] theorem State.markReq_time : (s.markReq a1 a2).time = s.time := rfl
@[simp] theorem State.markReq_str : (s.markReq a1 a2).str = s.str := rfl
@[simp] theorem State.markReq_cc : (s.markReq a1 a2).cc = s.cc := rfl
@[simp] theorem State.markReq_sec : (s.markReq a1 a2).sec = s.sec := rfl
@[simp] theorem State.markReq_ras : (s.markReq a1 a2).ras = s.ras := rfl
@[simp] theorem State.markReq_keys : (s.markReq a1 a2).keys = s.keys := rfl
@[simp] theorem State.markReq_keyReqs : (s.markReq a1 a2).keyReqs = s.keyReqs := rfl
@[simp] theorem State.markReq_mem : (s.markReq a1 a2).mem = s.mem := rfl
@[simp] theorem State.markReq_causes : (s.markReq a1 a2).causes = s.causes := rfl
@[simp] theorem State.markReq_hosts : (s.markReq a1 a2).hosts = s.hosts := rfl
@[simp] theorem State.markReq_reqs : (s.markReq a1 a2).reqs = s.reqs := rfl
@[simp] theorem State.markReq_stalled : (s.markReq a1 a2).stalled = s.stalled := rfl
@[simp] theorem State.markReq_m2s : (s.markReq a1 a2).m2s = s.m2s := rfl
@[simp] theorem State.markReq_insecure : (s.markReq a1 a2).insecure = s.insecure := rfl
@[simp] theorem State.markReq_ide : (s.markReq a1 a2).ide = s.ide := rfl
@[simp] theorem State.markReq_lanes : (s.markReq a1 a2).lanes = s.lanes := rfl
@[simp] theorem State.markReq_badLanes : (s.markReq a1 a2).badLanes = s.badLanes := rfl
@[simp] theorem State.markReq_laneRev : (s.markReq a1 a2).laneRev = s.laneRev := rfl
@[simp] theorem State.markReq_dram : (s.markReq a1 a2).dram = s.dram := rfl
@[simp] theorem State.markReq_coh : (s.markReq a1 a2).coh = s.coh := rfl
@[simp] theorem State.markReq_noc : (s.markReq a1 a2).noc = s.noc := rfl
@[simp] theorem State.markReq_links : (s.markReq a1 a2).links = s.links := rfl
@[simp] theorem State.markReq_span : (s.markReq a1 a2).span = s.span := rfl
@[simp] theorem State.markReq_queues : (s.markReq a1 a2).queues = s.queues := rfl
@[simp] theorem State.markReq_qram : (s.markReq a1 a2).qram = s.qram := rfl
@[simp] theorem State.markReq_gals : (s.markReq a1 a2).gals = s.gals := rfl
@[simp] theorem State.markReq_jobSeq : (s.markReq a1 a2).jobSeq = s.jobSeq := rfl
@[simp] theorem State.markReq_pwr : (s.markReq a1 a2).pwr = s.pwr := rfl
@[simp] theorem State.markReq_perst : (s.markReq a1 a2).perst = s.perst := rfl
@[simp] theorem State.markReq_txn : (s.markReq a1 a2).txn = s.txn := rfl
@[simp] theorem State.markReq_tst : (s.markReq a1 a2).tst = s.tst := rfl
@[simp] theorem State.markReq_smp : (s.markReq a1 a2).smp = s.smp := rfl
@[simp] theorem State.markReq_inl : (s.markReq a1 a2).inl = s.inl := rfl
@[simp] theorem State.markReq_rd (f : Field) (i j : Nat) : (s.markReq a1 a2).rd f i j = s.rd f i j := rfl
@[simp] theorem State.markReq_on (f : Field) (i j : Nat) : (s.markReq a1 a2).on f i j = s.on f i j := rfl

end

/-! ### State.setReq -/

section
variable (s : State) (a1 : MapReq) (a2 : ReqSt)

@[simp] theorem State.setReq_pending : (s.setReq a1 a2).pending = s.pending := by unfold State.setReq; split <;> rfl
@[simp] theorem State.setReq_regs : (s.setReq a1 a2).regs = s.regs := by unfold State.setReq; split <;> rfl
@[simp] theorem State.setReq_free : (s.setReq a1 a2).free = s.free := by unfold State.setReq; split <;> rfl
@[simp] theorem State.setReq_out : (s.setReq a1 a2).out = s.out := by unfold State.setReq; split <;> rfl
@[simp] theorem State.setReq_stage : (s.setReq a1 a2).stage = s.stage := by unfold State.setReq; split <;> rfl
@[simp] theorem State.setReq_nvs : (s.setReq a1 a2).nvs = s.nvs := by unfold State.setReq; split <;> rfl
@[simp] theorem State.setReq_flash : (s.setReq a1 a2).flash = s.flash := by unfold State.setReq; split <;> rfl
@[simp] theorem State.setReq_time : (s.setReq a1 a2).time = s.time := by unfold State.setReq; split <;> rfl
@[simp] theorem State.setReq_str : (s.setReq a1 a2).str = s.str := by unfold State.setReq; split <;> rfl
@[simp] theorem State.setReq_cc : (s.setReq a1 a2).cc = s.cc := by unfold State.setReq; split <;> rfl
@[simp] theorem State.setReq_sec : (s.setReq a1 a2).sec = s.sec := by unfold State.setReq; split <;> rfl
@[simp] theorem State.setReq_ras : (s.setReq a1 a2).ras = s.ras := by unfold State.setReq; split <;> rfl
@[simp] theorem State.setReq_keys : (s.setReq a1 a2).keys = s.keys := by unfold State.setReq; split <;> rfl
@[simp] theorem State.setReq_keyReqs : (s.setReq a1 a2).keyReqs = s.keyReqs := by unfold State.setReq; split <;> rfl
@[simp] theorem State.setReq_mem : (s.setReq a1 a2).mem = s.mem := by unfold State.setReq; split <;> rfl
@[simp] theorem State.setReq_causes : (s.setReq a1 a2).causes = s.causes := by unfold State.setReq; split <;> rfl
@[simp] theorem State.setReq_hosts : (s.setReq a1 a2).hosts = s.hosts := by unfold State.setReq; split <;> rfl
@[simp] theorem State.setReq_reqs : (s.setReq a1 a2).reqs = s.reqs := by unfold State.setReq; split <;> rfl
@[simp] theorem State.setReq_stalled : (s.setReq a1 a2).stalled = s.stalled := by unfold State.setReq; split <;> rfl
@[simp] theorem State.setReq_m2s : (s.setReq a1 a2).m2s = s.m2s := by unfold State.setReq; split <;> rfl
@[simp] theorem State.setReq_insecure : (s.setReq a1 a2).insecure = s.insecure := by unfold State.setReq; split <;> rfl
@[simp] theorem State.setReq_ide : (s.setReq a1 a2).ide = s.ide := by unfold State.setReq; split <;> rfl
@[simp] theorem State.setReq_lanes : (s.setReq a1 a2).lanes = s.lanes := by unfold State.setReq; split <;> rfl
@[simp] theorem State.setReq_badLanes : (s.setReq a1 a2).badLanes = s.badLanes := by unfold State.setReq; split <;> rfl
@[simp] theorem State.setReq_laneRev : (s.setReq a1 a2).laneRev = s.laneRev := by unfold State.setReq; split <;> rfl
@[simp] theorem State.setReq_dram : (s.setReq a1 a2).dram = s.dram := by unfold State.setReq; split <;> rfl
@[simp] theorem State.setReq_coh : (s.setReq a1 a2).coh = s.coh := by unfold State.setReq; split <;> rfl
@[simp] theorem State.setReq_links : (s.setReq a1 a2).links = s.links := by unfold State.setReq; split <;> rfl
@[simp] theorem State.setReq_span : (s.setReq a1 a2).span = s.span := by unfold State.setReq; split <;> rfl
@[simp] theorem State.setReq_queues : (s.setReq a1 a2).queues = s.queues := by unfold State.setReq; split <;> rfl
@[simp] theorem State.setReq_qram : (s.setReq a1 a2).qram = s.qram := by unfold State.setReq; split <;> rfl
@[simp] theorem State.setReq_gals : (s.setReq a1 a2).gals = s.gals := by unfold State.setReq; split <;> rfl
@[simp] theorem State.setReq_jobSeq : (s.setReq a1 a2).jobSeq = s.jobSeq := by unfold State.setReq; split <;> rfl
@[simp] theorem State.setReq_pwr : (s.setReq a1 a2).pwr = s.pwr := by unfold State.setReq; split <;> rfl
@[simp] theorem State.setReq_perst : (s.setReq a1 a2).perst = s.perst := by unfold State.setReq; split <;> rfl
@[simp] theorem State.setReq_txn : (s.setReq a1 a2).txn = s.txn := by unfold State.setReq; split <;> rfl
@[simp] theorem State.setReq_tst : (s.setReq a1 a2).tst = s.tst := by unfold State.setReq; split <;> rfl
@[simp] theorem State.setReq_smp : (s.setReq a1 a2).smp = s.smp := by unfold State.setReq; split <;> rfl
@[simp] theorem State.setReq_inl : (s.setReq a1 a2).inl = s.inl := by unfold State.setReq; split <;> rfl
@[simp] theorem State.setReq_rd (f : Field) (i j : Nat) : (s.setReq a1 a2).rd f i j = s.rd f i j := by unfold State.setReq; split <;> rfl
@[simp] theorem State.setReq_on (f : Field) (i j : Nat) : (s.setReq a1 a2).on f i j = s.on f i j := by unfold State.setReq; split <;> rfl

end

/-! ### State.dropReq -/

section
variable (s : State) (a1 : MapReq)

@[simp] theorem State.dropReq_pending : (s.dropReq a1).pending = s.pending := rfl
@[simp] theorem State.dropReq_regs : (s.dropReq a1).regs = s.regs := rfl
@[simp] theorem State.dropReq_free : (s.dropReq a1).free = s.free := rfl
@[simp] theorem State.dropReq_out : (s.dropReq a1).out = s.out := rfl
@[simp] theorem State.dropReq_stage : (s.dropReq a1).stage = s.stage := rfl
@[simp] theorem State.dropReq_nvs : (s.dropReq a1).nvs = s.nvs := rfl
@[simp] theorem State.dropReq_flash : (s.dropReq a1).flash = s.flash := rfl
@[simp] theorem State.dropReq_time : (s.dropReq a1).time = s.time := rfl
@[simp] theorem State.dropReq_str : (s.dropReq a1).str = s.str := rfl
@[simp] theorem State.dropReq_cc : (s.dropReq a1).cc = s.cc := rfl
@[simp] theorem State.dropReq_sec : (s.dropReq a1).sec = s.sec := rfl
@[simp] theorem State.dropReq_ras : (s.dropReq a1).ras = s.ras := rfl
@[simp] theorem State.dropReq_keys : (s.dropReq a1).keys = s.keys := rfl
@[simp] theorem State.dropReq_keyReqs : (s.dropReq a1).keyReqs = s.keyReqs := rfl
@[simp] theorem State.dropReq_mem : (s.dropReq a1).mem = s.mem := rfl
@[simp] theorem State.dropReq_causes : (s.dropReq a1).causes = s.causes := rfl
@[simp] theorem State.dropReq_hosts : (s.dropReq a1).hosts = s.hosts := rfl
@[simp] theorem State.dropReq_reqs : (s.dropReq a1).reqs = s.reqs := rfl
@[simp] theorem State.dropReq_stalled : (s.dropReq a1).stalled = s.stalled := rfl
@[simp] theorem State.dropReq_m2s : (s.dropReq a1).m2s = s.m2s := rfl
@[simp] theorem State.dropReq_insecure : (s.dropReq a1).insecure = s.insecure := rfl
@[simp] theorem State.dropReq_ide : (s.dropReq a1).ide = s.ide := rfl
@[simp] theorem State.dropReq_lanes : (s.dropReq a1).lanes = s.lanes := rfl
@[simp] theorem State.dropReq_badLanes : (s.dropReq a1).badLanes = s.badLanes := rfl
@[simp] theorem State.dropReq_laneRev : (s.dropReq a1).laneRev = s.laneRev := rfl
@[simp] theorem State.dropReq_dram : (s.dropReq a1).dram = s.dram := rfl
@[simp] theorem State.dropReq_coh : (s.dropReq a1).coh = s.coh := rfl
@[simp] theorem State.dropReq_noc : (s.dropReq a1).noc = s.noc := rfl
@[simp] theorem State.dropReq_links : (s.dropReq a1).links = s.links := rfl
@[simp] theorem State.dropReq_span : (s.dropReq a1).span = s.span := rfl
@[simp] theorem State.dropReq_queues : (s.dropReq a1).queues = s.queues := rfl
@[simp] theorem State.dropReq_qram : (s.dropReq a1).qram = s.qram := rfl
@[simp] theorem State.dropReq_gals : (s.dropReq a1).gals = s.gals := rfl
@[simp] theorem State.dropReq_jobSeq : (s.dropReq a1).jobSeq = s.jobSeq := rfl
@[simp] theorem State.dropReq_pwr : (s.dropReq a1).pwr = s.pwr := rfl
@[simp] theorem State.dropReq_perst : (s.dropReq a1).perst = s.perst := rfl
@[simp] theorem State.dropReq_txn : (s.dropReq a1).txn = s.txn := rfl
@[simp] theorem State.dropReq_tst : (s.dropReq a1).tst = s.tst := rfl
@[simp] theorem State.dropReq_smp : (s.dropReq a1).smp = s.smp := rfl
@[simp] theorem State.dropReq_inl : (s.dropReq a1).inl = s.inl := rfl
@[simp] theorem State.dropReq_rd (f : Field) (i j : Nat) : (s.dropReq a1).rd f i j = s.rd f i j := rfl
@[simp] theorem State.dropReq_on (f : Field) (i j : Nat) : (s.dropReq a1).on f i j = s.on f i j := rfl

end

/-! ### State.onLink -/

section
variable (s : State) (a1 : Nat) (a2 : Link → Link)

@[simp] theorem State.onLink_pending : (s.onLink a1 a2).pending = s.pending := rfl
@[simp] theorem State.onLink_regs : (s.onLink a1 a2).regs = s.regs := rfl
@[simp] theorem State.onLink_free : (s.onLink a1 a2).free = s.free := rfl
@[simp] theorem State.onLink_out : (s.onLink a1 a2).out = s.out := rfl
@[simp] theorem State.onLink_stage : (s.onLink a1 a2).stage = s.stage := rfl
@[simp] theorem State.onLink_nvs : (s.onLink a1 a2).nvs = s.nvs := rfl
@[simp] theorem State.onLink_flash : (s.onLink a1 a2).flash = s.flash := rfl
@[simp] theorem State.onLink_time : (s.onLink a1 a2).time = s.time := rfl
@[simp] theorem State.onLink_str : (s.onLink a1 a2).str = s.str := rfl
@[simp] theorem State.onLink_cc : (s.onLink a1 a2).cc = s.cc := rfl
@[simp] theorem State.onLink_sec : (s.onLink a1 a2).sec = s.sec := rfl
@[simp] theorem State.onLink_ras : (s.onLink a1 a2).ras = s.ras := rfl
@[simp] theorem State.onLink_map : (s.onLink a1 a2).map = s.map := rfl
@[simp] theorem State.onLink_keys : (s.onLink a1 a2).keys = s.keys := rfl
@[simp] theorem State.onLink_keyReqs : (s.onLink a1 a2).keyReqs = s.keyReqs := rfl
@[simp] theorem State.onLink_mem : (s.onLink a1 a2).mem = s.mem := rfl
@[simp] theorem State.onLink_causes : (s.onLink a1 a2).causes = s.causes := rfl
@[simp] theorem State.onLink_hosts : (s.onLink a1 a2).hosts = s.hosts := rfl
@[simp] theorem State.onLink_reqs : (s.onLink a1 a2).reqs = s.reqs := rfl
@[simp] theorem State.onLink_stalled : (s.onLink a1 a2).stalled = s.stalled := rfl
@[simp] theorem State.onLink_m2s : (s.onLink a1 a2).m2s = s.m2s := rfl
@[simp] theorem State.onLink_insecure : (s.onLink a1 a2).insecure = s.insecure := rfl
@[simp] theorem State.onLink_ide : (s.onLink a1 a2).ide = s.ide := rfl
@[simp] theorem State.onLink_lanes : (s.onLink a1 a2).lanes = s.lanes := rfl
@[simp] theorem State.onLink_badLanes : (s.onLink a1 a2).badLanes = s.badLanes := rfl
@[simp] theorem State.onLink_laneRev : (s.onLink a1 a2).laneRev = s.laneRev := rfl
@[simp] theorem State.onLink_dram : (s.onLink a1 a2).dram = s.dram := rfl
@[simp] theorem State.onLink_coh : (s.onLink a1 a2).coh = s.coh := rfl
@[simp] theorem State.onLink_noc : (s.onLink a1 a2).noc = s.noc := rfl
@[simp] theorem State.onLink_span : (s.onLink a1 a2).span = s.span := rfl
@[simp] theorem State.onLink_queues : (s.onLink a1 a2).queues = s.queues := rfl
@[simp] theorem State.onLink_qram : (s.onLink a1 a2).qram = s.qram := rfl
@[simp] theorem State.onLink_gals : (s.onLink a1 a2).gals = s.gals := rfl
@[simp] theorem State.onLink_jobSeq : (s.onLink a1 a2).jobSeq = s.jobSeq := rfl
@[simp] theorem State.onLink_pwr : (s.onLink a1 a2).pwr = s.pwr := rfl
@[simp] theorem State.onLink_perst : (s.onLink a1 a2).perst = s.perst := rfl
@[simp] theorem State.onLink_txn : (s.onLink a1 a2).txn = s.txn := rfl
@[simp] theorem State.onLink_tst : (s.onLink a1 a2).tst = s.tst := rfl
@[simp] theorem State.onLink_smp : (s.onLink a1 a2).smp = s.smp := rfl
@[simp] theorem State.onLink_inl : (s.onLink a1 a2).inl = s.inl := rfl
@[simp] theorem State.onLink_rd (f : Field) (i j : Nat) : (s.onLink a1 a2).rd f i j = s.rd f i j := rfl
@[simp] theorem State.onLink_on (f : Field) (i j : Nat) : (s.onLink a1 a2).on f i j = s.on f i j := rfl

end

/-! ### State.setDir -/

section
variable (s : State) (a1 : Nat) (a2 : Nat) (a3 : DirEnt)

@[simp] theorem State.setDir_pending : (s.setDir a1 a2 a3).pending = s.pending := rfl
@[simp] theorem State.setDir_regs : (s.setDir a1 a2 a3).regs = s.regs := rfl
@[simp] theorem State.setDir_free : (s.setDir a1 a2 a3).free = s.free := rfl
@[simp] theorem State.setDir_out : (s.setDir a1 a2 a3).out = s.out := rfl
@[simp] theorem State.setDir_stage : (s.setDir a1 a2 a3).stage = s.stage := rfl
@[simp] theorem State.setDir_nvs : (s.setDir a1 a2 a3).nvs = s.nvs := rfl
@[simp] theorem State.setDir_flash : (s.setDir a1 a2 a3).flash = s.flash := rfl
@[simp] theorem State.setDir_time : (s.setDir a1 a2 a3).time = s.time := rfl
@[simp] theorem State.setDir_str : (s.setDir a1 a2 a3).str = s.str := rfl
@[simp] theorem State.setDir_cc : (s.setDir a1 a2 a3).cc = s.cc := rfl
@[simp] theorem State.setDir_sec : (s.setDir a1 a2 a3).sec = s.sec := rfl
@[simp] theorem State.setDir_ras : (s.setDir a1 a2 a3).ras = s.ras := rfl
@[simp] theorem State.setDir_map : (s.setDir a1 a2 a3).map = s.map := rfl
@[simp] theorem State.setDir_keys : (s.setDir a1 a2 a3).keys = s.keys := rfl
@[simp] theorem State.setDir_keyReqs : (s.setDir a1 a2 a3).keyReqs = s.keyReqs := rfl
@[simp] theorem State.setDir_mem : (s.setDir a1 a2 a3).mem = s.mem := rfl
@[simp] theorem State.setDir_causes : (s.setDir a1 a2 a3).causes = s.causes := rfl
@[simp] theorem State.setDir_hosts : (s.setDir a1 a2 a3).hosts = s.hosts := rfl
@[simp] theorem State.setDir_reqs : (s.setDir a1 a2 a3).reqs = s.reqs := rfl
@[simp] theorem State.setDir_stalled : (s.setDir a1 a2 a3).stalled = s.stalled := rfl
@[simp] theorem State.setDir_m2s : (s.setDir a1 a2 a3).m2s = s.m2s := rfl
@[simp] theorem State.setDir_insecure : (s.setDir a1 a2 a3).insecure = s.insecure := rfl
@[simp] theorem State.setDir_ide : (s.setDir a1 a2 a3).ide = s.ide := rfl
@[simp] theorem State.setDir_lanes : (s.setDir a1 a2 a3).lanes = s.lanes := rfl
@[simp] theorem State.setDir_badLanes : (s.setDir a1 a2 a3).badLanes = s.badLanes := rfl
@[simp] theorem State.setDir_laneRev : (s.setDir a1 a2 a3).laneRev = s.laneRev := rfl
@[simp] theorem State.setDir_dram : (s.setDir a1 a2 a3).dram = s.dram := rfl
@[simp] theorem State.setDir_noc : (s.setDir a1 a2 a3).noc = s.noc := rfl
@[simp] theorem State.setDir_links : (s.setDir a1 a2 a3).links = s.links := rfl
@[simp] theorem State.setDir_span : (s.setDir a1 a2 a3).span = s.span := rfl
@[simp] theorem State.setDir_queues : (s.setDir a1 a2 a3).queues = s.queues := rfl
@[simp] theorem State.setDir_qram : (s.setDir a1 a2 a3).qram = s.qram := rfl
@[simp] theorem State.setDir_gals : (s.setDir a1 a2 a3).gals = s.gals := rfl
@[simp] theorem State.setDir_jobSeq : (s.setDir a1 a2 a3).jobSeq = s.jobSeq := rfl
@[simp] theorem State.setDir_pwr : (s.setDir a1 a2 a3).pwr = s.pwr := rfl
@[simp] theorem State.setDir_perst : (s.setDir a1 a2 a3).perst = s.perst := rfl
@[simp] theorem State.setDir_txn : (s.setDir a1 a2 a3).txn = s.txn := rfl
@[simp] theorem State.setDir_tst : (s.setDir a1 a2 a3).tst = s.tst := rfl
@[simp] theorem State.setDir_smp : (s.setDir a1 a2 a3).smp = s.smp := rfl
@[simp] theorem State.setDir_inl : (s.setDir a1 a2 a3).inl = s.inl := rfl
@[simp] theorem State.setDir_rd (f : Field) (i j : Nat) : (s.setDir a1 a2 a3).rd f i j = s.rd f i j := rfl
@[simp] theorem State.setDir_on (f : Field) (i j : Nat) : (s.setDir a1 a2 a3).on f i j = s.on f i j := rfl

end

/-! ### State.setPf -/

section
variable (s : State) (a1 : Nat) (a2 : Nat) (a3 : PfEnt)

@[simp] theorem State.setPf_pending : (s.setPf a1 a2 a3).pending = s.pending := rfl
@[simp] theorem State.setPf_regs : (s.setPf a1 a2 a3).regs = s.regs := rfl
@[simp] theorem State.setPf_free : (s.setPf a1 a2 a3).free = s.free := rfl
@[simp] theorem State.setPf_out : (s.setPf a1 a2 a3).out = s.out := rfl
@[simp] theorem State.setPf_stage : (s.setPf a1 a2 a3).stage = s.stage := rfl
@[simp] theorem State.setPf_nvs : (s.setPf a1 a2 a3).nvs = s.nvs := rfl
@[simp] theorem State.setPf_flash : (s.setPf a1 a2 a3).flash = s.flash := rfl
@[simp] theorem State.setPf_time : (s.setPf a1 a2 a3).time = s.time := rfl
@[simp] theorem State.setPf_str : (s.setPf a1 a2 a3).str = s.str := rfl
@[simp] theorem State.setPf_cc : (s.setPf a1 a2 a3).cc = s.cc := rfl
@[simp] theorem State.setPf_sec : (s.setPf a1 a2 a3).sec = s.sec := rfl
@[simp] theorem State.setPf_ras : (s.setPf a1 a2 a3).ras = s.ras := rfl
@[simp] theorem State.setPf_map : (s.setPf a1 a2 a3).map = s.map := rfl
@[simp] theorem State.setPf_keys : (s.setPf a1 a2 a3).keys = s.keys := rfl
@[simp] theorem State.setPf_keyReqs : (s.setPf a1 a2 a3).keyReqs = s.keyReqs := rfl
@[simp] theorem State.setPf_mem : (s.setPf a1 a2 a3).mem = s.mem := rfl
@[simp] theorem State.setPf_causes : (s.setPf a1 a2 a3).causes = s.causes := rfl
@[simp] theorem State.setPf_hosts : (s.setPf a1 a2 a3).hosts = s.hosts := rfl
@[simp] theorem State.setPf_reqs : (s.setPf a1 a2 a3).reqs = s.reqs := rfl
@[simp] theorem State.setPf_stalled : (s.setPf a1 a2 a3).stalled = s.stalled := rfl
@[simp] theorem State.setPf_m2s : (s.setPf a1 a2 a3).m2s = s.m2s := rfl
@[simp] theorem State.setPf_insecure : (s.setPf a1 a2 a3).insecure = s.insecure := rfl
@[simp] theorem State.setPf_ide : (s.setPf a1 a2 a3).ide = s.ide := rfl
@[simp] theorem State.setPf_lanes : (s.setPf a1 a2 a3).lanes = s.lanes := rfl
@[simp] theorem State.setPf_badLanes : (s.setPf a1 a2 a3).badLanes = s.badLanes := rfl
@[simp] theorem State.setPf_laneRev : (s.setPf a1 a2 a3).laneRev = s.laneRev := rfl
@[simp] theorem State.setPf_dram : (s.setPf a1 a2 a3).dram = s.dram := rfl
@[simp] theorem State.setPf_noc : (s.setPf a1 a2 a3).noc = s.noc := rfl
@[simp] theorem State.setPf_links : (s.setPf a1 a2 a3).links = s.links := rfl
@[simp] theorem State.setPf_span : (s.setPf a1 a2 a3).span = s.span := rfl
@[simp] theorem State.setPf_queues : (s.setPf a1 a2 a3).queues = s.queues := rfl
@[simp] theorem State.setPf_qram : (s.setPf a1 a2 a3).qram = s.qram := rfl
@[simp] theorem State.setPf_gals : (s.setPf a1 a2 a3).gals = s.gals := rfl
@[simp] theorem State.setPf_jobSeq : (s.setPf a1 a2 a3).jobSeq = s.jobSeq := rfl
@[simp] theorem State.setPf_pwr : (s.setPf a1 a2 a3).pwr = s.pwr := rfl
@[simp] theorem State.setPf_perst : (s.setPf a1 a2 a3).perst = s.perst := rfl
@[simp] theorem State.setPf_txn : (s.setPf a1 a2 a3).txn = s.txn := rfl
@[simp] theorem State.setPf_tst : (s.setPf a1 a2 a3).tst = s.tst := rfl
@[simp] theorem State.setPf_smp : (s.setPf a1 a2 a3).smp = s.smp := rfl
@[simp] theorem State.setPf_inl : (s.setPf a1 a2 a3).inl = s.inl := rfl
@[simp] theorem State.setPf_rd (f : Field) (i j : Nat) : (s.setPf a1 a2 a3).rd f i j = s.rd f i j := rfl
@[simp] theorem State.setPf_on (f : Field) (i j : Nat) : (s.setPf a1 a2 a3).on f i j = s.on f i j := rfl

end

/-! ### State.setPfTx -/

section
variable (s : State) (a1 : PfTx)

@[simp] theorem State.setPfTx_pending : (s.setPfTx a1).pending = s.pending := rfl
@[simp] theorem State.setPfTx_free : (s.setPfTx a1).free = s.free := rfl
@[simp] theorem State.setPfTx_out : (s.setPfTx a1).out = s.out := rfl
@[simp] theorem State.setPfTx_stage : (s.setPfTx a1).stage = s.stage := rfl
@[simp] theorem State.setPfTx_nvs : (s.setPfTx a1).nvs = s.nvs := rfl
@[simp] theorem State.setPfTx_flash : (s.setPfTx a1).flash = s.flash := rfl
@[simp] theorem State.setPfTx_time : (s.setPfTx a1).time = s.time := rfl
@[simp] theorem State.setPfTx_str : (s.setPfTx a1).str = s.str := rfl
@[simp] theorem State.setPfTx_cc : (s.setPfTx a1).cc = s.cc := rfl
@[simp] theorem State.setPfTx_sec : (s.setPfTx a1).sec = s.sec := rfl
@[simp] theorem State.setPfTx_ras : (s.setPfTx a1).ras = s.ras := rfl
@[simp] theorem State.setPfTx_map : (s.setPfTx a1).map = s.map := rfl
@[simp] theorem State.setPfTx_keys : (s.setPfTx a1).keys = s.keys := rfl
@[simp] theorem State.setPfTx_keyReqs : (s.setPfTx a1).keyReqs = s.keyReqs := rfl
@[simp] theorem State.setPfTx_mem : (s.setPfTx a1).mem = s.mem := rfl
@[simp] theorem State.setPfTx_causes : (s.setPfTx a1).causes = s.causes := rfl
@[simp] theorem State.setPfTx_hosts : (s.setPfTx a1).hosts = s.hosts := rfl
@[simp] theorem State.setPfTx_reqs : (s.setPfTx a1).reqs = s.reqs := rfl
@[simp] theorem State.setPfTx_stalled : (s.setPfTx a1).stalled = s.stalled := rfl
@[simp] theorem State.setPfTx_m2s : (s.setPfTx a1).m2s = s.m2s := rfl
@[simp] theorem State.setPfTx_insecure : (s.setPfTx a1).insecure = s.insecure := rfl
@[simp] theorem State.setPfTx_ide : (s.setPfTx a1).ide = s.ide := rfl
@[simp] theorem State.setPfTx_lanes : (s.setPfTx a1).lanes = s.lanes := rfl
@[simp] theorem State.setPfTx_badLanes : (s.setPfTx a1).badLanes = s.badLanes := rfl
@[simp] theorem State.setPfTx_laneRev : (s.setPfTx a1).laneRev = s.laneRev := rfl
@[simp] theorem State.setPfTx_dram : (s.setPfTx a1).dram = s.dram := rfl
@[simp] theorem State.setPfTx_noc : (s.setPfTx a1).noc = s.noc := rfl
@[simp] theorem State.setPfTx_links : (s.setPfTx a1).links = s.links := rfl
@[simp] theorem State.setPfTx_span : (s.setPfTx a1).span = s.span := rfl
@[simp] theorem State.setPfTx_queues : (s.setPfTx a1).queues = s.queues := rfl
@[simp] theorem State.setPfTx_qram : (s.setPfTx a1).qram = s.qram := rfl
@[simp] theorem State.setPfTx_gals : (s.setPfTx a1).gals = s.gals := rfl
@[simp] theorem State.setPfTx_jobSeq : (s.setPfTx a1).jobSeq = s.jobSeq := rfl
@[simp] theorem State.setPfTx_pwr : (s.setPfTx a1).pwr = s.pwr := rfl
@[simp] theorem State.setPfTx_perst : (s.setPfTx a1).perst = s.perst := rfl
@[simp] theorem State.setPfTx_txn : (s.setPfTx a1).txn = s.txn := rfl
@[simp] theorem State.setPfTx_tst : (s.setPfTx a1).tst = s.tst := rfl
@[simp] theorem State.setPfTx_smp : (s.setPfTx a1).smp = s.smp := rfl
@[simp] theorem State.setPfTx_inl : (s.setPfTx a1).inl = s.inl := rfl

end

/-! ### State.spend -/

section
variable (s : State) (a1 : Nat) (a2 : Nat)

@[simp] theorem State.spend_pending : (s.spend a1 a2).pending = s.pending := rfl
@[simp] theorem State.spend_regs : (s.spend a1 a2).regs = s.regs := rfl
@[simp] theorem State.spend_free : (s.spend a1 a2).free = s.free := rfl
@[simp] theorem State.spend_out : (s.spend a1 a2).out = s.out := rfl
@[simp] theorem State.spend_stage : (s.spend a1 a2).stage = s.stage := rfl
@[simp] theorem State.spend_nvs : (s.spend a1 a2).nvs = s.nvs := rfl
@[simp] theorem State.spend_flash : (s.spend a1 a2).flash = s.flash := rfl
@[simp] theorem State.spend_time : (s.spend a1 a2).time = s.time := rfl
@[simp] theorem State.spend_str : (s.spend a1 a2).str = s.str := rfl
@[simp] theorem State.spend_cc : (s.spend a1 a2).cc = s.cc := rfl
@[simp] theorem State.spend_sec : (s.spend a1 a2).sec = s.sec := rfl
@[simp] theorem State.spend_ras : (s.spend a1 a2).ras = s.ras := rfl
@[simp] theorem State.spend_map : (s.spend a1 a2).map = s.map := rfl
@[simp] theorem State.spend_keys : (s.spend a1 a2).keys = s.keys := rfl
@[simp] theorem State.spend_keyReqs : (s.spend a1 a2).keyReqs = s.keyReqs := rfl
@[simp] theorem State.spend_mem : (s.spend a1 a2).mem = s.mem := rfl
@[simp] theorem State.spend_causes : (s.spend a1 a2).causes = s.causes := rfl
@[simp] theorem State.spend_hosts : (s.spend a1 a2).hosts = s.hosts := rfl
@[simp] theorem State.spend_reqs : (s.spend a1 a2).reqs = s.reqs := rfl
@[simp] theorem State.spend_stalled : (s.spend a1 a2).stalled = s.stalled := rfl
@[simp] theorem State.spend_m2s : (s.spend a1 a2).m2s = s.m2s := rfl
@[simp] theorem State.spend_insecure : (s.spend a1 a2).insecure = s.insecure := rfl
@[simp] theorem State.spend_ide : (s.spend a1 a2).ide = s.ide := rfl
@[simp] theorem State.spend_lanes : (s.spend a1 a2).lanes = s.lanes := rfl
@[simp] theorem State.spend_badLanes : (s.spend a1 a2).badLanes = s.badLanes := rfl
@[simp] theorem State.spend_laneRev : (s.spend a1 a2).laneRev = s.laneRev := rfl
@[simp] theorem State.spend_dram : (s.spend a1 a2).dram = s.dram := rfl
@[simp] theorem State.spend_noc : (s.spend a1 a2).noc = s.noc := rfl
@[simp] theorem State.spend_links : (s.spend a1 a2).links = s.links := rfl
@[simp] theorem State.spend_span : (s.spend a1 a2).span = s.span := rfl
@[simp] theorem State.spend_queues : (s.spend a1 a2).queues = s.queues := rfl
@[simp] theorem State.spend_qram : (s.spend a1 a2).qram = s.qram := rfl
@[simp] theorem State.spend_gals : (s.spend a1 a2).gals = s.gals := rfl
@[simp] theorem State.spend_jobSeq : (s.spend a1 a2).jobSeq = s.jobSeq := rfl
@[simp] theorem State.spend_pwr : (s.spend a1 a2).pwr = s.pwr := rfl
@[simp] theorem State.spend_perst : (s.spend a1 a2).perst = s.perst := rfl
@[simp] theorem State.spend_txn : (s.spend a1 a2).txn = s.txn := rfl
@[simp] theorem State.spend_tst : (s.spend a1 a2).tst = s.tst := rfl
@[simp] theorem State.spend_smp : (s.spend a1 a2).smp = s.smp := rfl
@[simp] theorem State.spend_inl : (s.spend a1 a2).inl = s.inl := rfl
@[simp] theorem State.spend_rd (f : Field) (i j : Nat) : (s.spend a1 a2).rd f i j = s.rd f i j := rfl
@[simp] theorem State.spend_on (f : Field) (i j : Nat) : (s.spend a1 a2).on f i j = s.on f i j := rfl

end

/-! ### State.setItem -/

section
variable (s : State) (a1 : Nat) (a2 : Nat) (a3 : QItem)

@[simp] theorem State.setItem_pending : (s.setItem a1 a2 a3).pending = s.pending := rfl
@[simp] theorem State.setItem_regs : (s.setItem a1 a2 a3).regs = s.regs := rfl
@[simp] theorem State.setItem_free : (s.setItem a1 a2 a3).free = s.free := rfl
@[simp] theorem State.setItem_out : (s.setItem a1 a2 a3).out = s.out := rfl
@[simp] theorem State.setItem_stage : (s.setItem a1 a2 a3).stage = s.stage := rfl
@[simp] theorem State.setItem_nvs : (s.setItem a1 a2 a3).nvs = s.nvs := rfl
@[simp] theorem State.setItem_flash : (s.setItem a1 a2 a3).flash = s.flash := rfl
@[simp] theorem State.setItem_time : (s.setItem a1 a2 a3).time = s.time := rfl
@[simp] theorem State.setItem_str : (s.setItem a1 a2 a3).str = s.str := rfl
@[simp] theorem State.setItem_cc : (s.setItem a1 a2 a3).cc = s.cc := rfl
@[simp] theorem State.setItem_sec : (s.setItem a1 a2 a3).sec = s.sec := rfl
@[simp] theorem State.setItem_ras : (s.setItem a1 a2 a3).ras = s.ras := rfl
@[simp] theorem State.setItem_map : (s.setItem a1 a2 a3).map = s.map := rfl
@[simp] theorem State.setItem_keys : (s.setItem a1 a2 a3).keys = s.keys := rfl
@[simp] theorem State.setItem_keyReqs : (s.setItem a1 a2 a3).keyReqs = s.keyReqs := rfl
@[simp] theorem State.setItem_mem : (s.setItem a1 a2 a3).mem = s.mem := rfl
@[simp] theorem State.setItem_causes : (s.setItem a1 a2 a3).causes = s.causes := rfl
@[simp] theorem State.setItem_hosts : (s.setItem a1 a2 a3).hosts = s.hosts := rfl
@[simp] theorem State.setItem_reqs : (s.setItem a1 a2 a3).reqs = s.reqs := rfl
@[simp] theorem State.setItem_stalled : (s.setItem a1 a2 a3).stalled = s.stalled := rfl
@[simp] theorem State.setItem_m2s : (s.setItem a1 a2 a3).m2s = s.m2s := rfl
@[simp] theorem State.setItem_insecure : (s.setItem a1 a2 a3).insecure = s.insecure := rfl
@[simp] theorem State.setItem_ide : (s.setItem a1 a2 a3).ide = s.ide := rfl
@[simp] theorem State.setItem_lanes : (s.setItem a1 a2 a3).lanes = s.lanes := rfl
@[simp] theorem State.setItem_badLanes : (s.setItem a1 a2 a3).badLanes = s.badLanes := rfl
@[simp] theorem State.setItem_laneRev : (s.setItem a1 a2 a3).laneRev = s.laneRev := rfl
@[simp] theorem State.setItem_dram : (s.setItem a1 a2 a3).dram = s.dram := rfl
@[simp] theorem State.setItem_coh : (s.setItem a1 a2 a3).coh = s.coh := rfl
@[simp] theorem State.setItem_noc : (s.setItem a1 a2 a3).noc = s.noc := rfl
@[simp] theorem State.setItem_links : (s.setItem a1 a2 a3).links = s.links := rfl
@[simp] theorem State.setItem_span : (s.setItem a1 a2 a3).span = s.span := rfl
@[simp] theorem State.setItem_queues : (s.setItem a1 a2 a3).queues = s.queues := rfl
@[simp] theorem State.setItem_gals : (s.setItem a1 a2 a3).gals = s.gals := rfl
@[simp] theorem State.setItem_jobSeq : (s.setItem a1 a2 a3).jobSeq = s.jobSeq := rfl
@[simp] theorem State.setItem_pwr : (s.setItem a1 a2 a3).pwr = s.pwr := rfl
@[simp] theorem State.setItem_perst : (s.setItem a1 a2 a3).perst = s.perst := rfl
@[simp] theorem State.setItem_txn : (s.setItem a1 a2 a3).txn = s.txn := rfl
@[simp] theorem State.setItem_tst : (s.setItem a1 a2 a3).tst = s.tst := rfl
@[simp] theorem State.setItem_smp : (s.setItem a1 a2 a3).smp = s.smp := rfl
@[simp] theorem State.setItem_inl : (s.setItem a1 a2 a3).inl = s.inl := rfl
@[simp] theorem State.setItem_rd (f : Field) (i j : Nat) : (s.setItem a1 a2 a3).rd f i j = s.rd f i j := rfl
@[simp] theorem State.setItem_on (f : Field) (i j : Nat) : (s.setItem a1 a2 a3).on f i j = s.on f i j := rfl

end

/-! ### State.onQueue -/

section
variable (s : State) (a1 : Nat) (a2 : Queue → Queue)

@[simp] theorem State.onQueue_pending : (s.onQueue a1 a2).pending = s.pending := rfl
@[simp] theorem State.onQueue_regs : (s.onQueue a1 a2).regs = s.regs := rfl
@[simp] theorem State.onQueue_free : (s.onQueue a1 a2).free = s.free := rfl
@[simp] theorem State.onQueue_out : (s.onQueue a1 a2).out = s.out := rfl
@[simp] theorem State.onQueue_stage : (s.onQueue a1 a2).stage = s.stage := rfl
@[simp] theorem State.onQueue_nvs : (s.onQueue a1 a2).nvs = s.nvs := rfl
@[simp] theorem State.onQueue_flash : (s.onQueue a1 a2).flash = s.flash := rfl
@[simp] theorem State.onQueue_time : (s.onQueue a1 a2).time = s.time := rfl
@[simp] theorem State.onQueue_str : (s.onQueue a1 a2).str = s.str := rfl
@[simp] theorem State.onQueue_cc : (s.onQueue a1 a2).cc = s.cc := rfl
@[simp] theorem State.onQueue_sec : (s.onQueue a1 a2).sec = s.sec := rfl
@[simp] theorem State.onQueue_ras : (s.onQueue a1 a2).ras = s.ras := rfl
@[simp] theorem State.onQueue_map : (s.onQueue a1 a2).map = s.map := rfl
@[simp] theorem State.onQueue_keys : (s.onQueue a1 a2).keys = s.keys := rfl
@[simp] theorem State.onQueue_keyReqs : (s.onQueue a1 a2).keyReqs = s.keyReqs := rfl
@[simp] theorem State.onQueue_mem : (s.onQueue a1 a2).mem = s.mem := rfl
@[simp] theorem State.onQueue_causes : (s.onQueue a1 a2).causes = s.causes := rfl
@[simp] theorem State.onQueue_hosts : (s.onQueue a1 a2).hosts = s.hosts := rfl
@[simp] theorem State.onQueue_reqs : (s.onQueue a1 a2).reqs = s.reqs := rfl
@[simp] theorem State.onQueue_stalled : (s.onQueue a1 a2).stalled = s.stalled := rfl
@[simp] theorem State.onQueue_m2s : (s.onQueue a1 a2).m2s = s.m2s := rfl
@[simp] theorem State.onQueue_insecure : (s.onQueue a1 a2).insecure = s.insecure := rfl
@[simp] theorem State.onQueue_ide : (s.onQueue a1 a2).ide = s.ide := rfl
@[simp] theorem State.onQueue_lanes : (s.onQueue a1 a2).lanes = s.lanes := rfl
@[simp] theorem State.onQueue_badLanes : (s.onQueue a1 a2).badLanes = s.badLanes := rfl
@[simp] theorem State.onQueue_laneRev : (s.onQueue a1 a2).laneRev = s.laneRev := rfl
@[simp] theorem State.onQueue_dram : (s.onQueue a1 a2).dram = s.dram := rfl
@[simp] theorem State.onQueue_coh : (s.onQueue a1 a2).coh = s.coh := rfl
@[simp] theorem State.onQueue_noc : (s.onQueue a1 a2).noc = s.noc := rfl
@[simp] theorem State.onQueue_links : (s.onQueue a1 a2).links = s.links := rfl
@[simp] theorem State.onQueue_span : (s.onQueue a1 a2).span = s.span := rfl
@[simp] theorem State.onQueue_qram : (s.onQueue a1 a2).qram = s.qram := rfl
@[simp] theorem State.onQueue_gals : (s.onQueue a1 a2).gals = s.gals := rfl
@[simp] theorem State.onQueue_jobSeq : (s.onQueue a1 a2).jobSeq = s.jobSeq := rfl
@[simp] theorem State.onQueue_pwr : (s.onQueue a1 a2).pwr = s.pwr := rfl
@[simp] theorem State.onQueue_perst : (s.onQueue a1 a2).perst = s.perst := rfl
@[simp] theorem State.onQueue_txn : (s.onQueue a1 a2).txn = s.txn := rfl
@[simp] theorem State.onQueue_tst : (s.onQueue a1 a2).tst = s.tst := rfl
@[simp] theorem State.onQueue_smp : (s.onQueue a1 a2).smp = s.smp := rfl
@[simp] theorem State.onQueue_inl : (s.onQueue a1 a2).inl = s.inl := rfl
@[simp] theorem State.onQueue_rd (f : Field) (i j : Nat) : (s.onQueue a1 a2).rd f i j = s.rd f i j := rfl
@[simp] theorem State.onQueue_on (f : Field) (i j : Nat) : (s.onQueue a1 a2).on f i j = s.on f i j := rfl

end

/-! ### State.dropHalves -/

section
variable (s : State) (a1 : Initiator) (a2 : Nat)

@[simp] theorem State.dropHalves_pending : (s.dropHalves a1 a2).pending = s.pending := rfl
@[simp] theorem State.dropHalves_regs : (s.dropHalves a1 a2).regs = s.regs := rfl
@[simp] theorem State.dropHalves_free : (s.dropHalves a1 a2).free = s.free := rfl
@[simp] theorem State.dropHalves_out : (s.dropHalves a1 a2).out = s.out := rfl
@[simp] theorem State.dropHalves_stage : (s.dropHalves a1 a2).stage = s.stage := rfl
@[simp] theorem State.dropHalves_nvs : (s.dropHalves a1 a2).nvs = s.nvs := rfl
@[simp] theorem State.dropHalves_flash : (s.dropHalves a1 a2).flash = s.flash := rfl
@[simp] theorem State.dropHalves_time : (s.dropHalves a1 a2).time = s.time := rfl
@[simp] theorem State.dropHalves_str : (s.dropHalves a1 a2).str = s.str := rfl
@[simp] theorem State.dropHalves_cc : (s.dropHalves a1 a2).cc = s.cc := rfl
@[simp] theorem State.dropHalves_ras : (s.dropHalves a1 a2).ras = s.ras := rfl
@[simp] theorem State.dropHalves_map : (s.dropHalves a1 a2).map = s.map := rfl
@[simp] theorem State.dropHalves_keys : (s.dropHalves a1 a2).keys = s.keys := rfl
@[simp] theorem State.dropHalves_keyReqs : (s.dropHalves a1 a2).keyReqs = s.keyReqs := rfl
@[simp] theorem State.dropHalves_mem : (s.dropHalves a1 a2).mem = s.mem := rfl
@[simp] theorem State.dropHalves_causes : (s.dropHalves a1 a2).causes = s.causes := rfl
@[simp] theorem State.dropHalves_hosts : (s.dropHalves a1 a2).hosts = s.hosts := rfl
@[simp] theorem State.dropHalves_reqs : (s.dropHalves a1 a2).reqs = s.reqs := rfl
@[simp] theorem State.dropHalves_stalled : (s.dropHalves a1 a2).stalled = s.stalled := rfl
@[simp] theorem State.dropHalves_m2s : (s.dropHalves a1 a2).m2s = s.m2s := rfl
@[simp] theorem State.dropHalves_insecure : (s.dropHalves a1 a2).insecure = s.insecure := rfl
@[simp] theorem State.dropHalves_ide : (s.dropHalves a1 a2).ide = s.ide := rfl
@[simp] theorem State.dropHalves_lanes : (s.dropHalves a1 a2).lanes = s.lanes := rfl
@[simp] theorem State.dropHalves_badLanes : (s.dropHalves a1 a2).badLanes = s.badLanes := rfl
@[simp] theorem State.dropHalves_laneRev : (s.dropHalves a1 a2).laneRev = s.laneRev := rfl
@[simp] theorem State.dropHalves_dram : (s.dropHalves a1 a2).dram = s.dram := rfl
@[simp] theorem State.dropHalves_coh : (s.dropHalves a1 a2).coh = s.coh := rfl
@[simp] theorem State.dropHalves_noc : (s.dropHalves a1 a2).noc = s.noc := rfl
@[simp] theorem State.dropHalves_links : (s.dropHalves a1 a2).links = s.links := rfl
@[simp] theorem State.dropHalves_span : (s.dropHalves a1 a2).span = s.span := rfl
@[simp] theorem State.dropHalves_queues : (s.dropHalves a1 a2).queues = s.queues := rfl
@[simp] theorem State.dropHalves_qram : (s.dropHalves a1 a2).qram = s.qram := rfl
@[simp] theorem State.dropHalves_gals : (s.dropHalves a1 a2).gals = s.gals := rfl
@[simp] theorem State.dropHalves_jobSeq : (s.dropHalves a1 a2).jobSeq = s.jobSeq := rfl
@[simp] theorem State.dropHalves_pwr : (s.dropHalves a1 a2).pwr = s.pwr := rfl
@[simp] theorem State.dropHalves_perst : (s.dropHalves a1 a2).perst = s.perst := rfl
@[simp] theorem State.dropHalves_txn : (s.dropHalves a1 a2).txn = s.txn := rfl
@[simp] theorem State.dropHalves_tst : (s.dropHalves a1 a2).tst = s.tst := rfl
@[simp] theorem State.dropHalves_smp : (s.dropHalves a1 a2).smp = s.smp := rfl
@[simp] theorem State.dropHalves_inl : (s.dropHalves a1 a2).inl = s.inl := rfl
@[simp] theorem State.dropHalves_rd (f : Field) (i j : Nat) : (s.dropHalves a1 a2).rd f i j = s.rd f i j := rfl
@[simp] theorem State.dropHalves_on (f : Field) (i j : Nat) : (s.dropHalves a1 a2).on f i j = s.on f i j := rfl

end

/-! ### State.wr -/

section
variable (s : State) (a1 : Field) (a2 : Nat) (a3 : Nat) (a4 : Nat)

@[simp] theorem State.wr_pending : (s.wr a1 a2 a3 a4).pending = s.pending := rfl
@[simp] theorem State.wr_free : (s.wr a1 a2 a3 a4).free = s.free := rfl
@[simp] theorem State.wr_out : (s.wr a1 a2 a3 a4).out = s.out := rfl
@[simp] theorem State.wr_stage : (s.wr a1 a2 a3 a4).stage = s.stage := rfl
@[simp] theorem State.wr_nvs : (s.wr a1 a2 a3 a4).nvs = s.nvs := rfl
@[simp] theorem State.wr_flash : (s.wr a1 a2 a3 a4).flash = s.flash := rfl
@[simp] theorem State.wr_time : (s.wr a1 a2 a3 a4).time = s.time := rfl
@[simp] theorem State.wr_str : (s.wr a1 a2 a3 a4).str = s.str := rfl
@[simp] theorem State.wr_cc : (s.wr a1 a2 a3 a4).cc = s.cc := rfl
@[simp] theorem State.wr_sec : (s.wr a1 a2 a3 a4).sec = s.sec := rfl
@[simp] theorem State.wr_ras : (s.wr a1 a2 a3 a4).ras = s.ras := rfl
@[simp] theorem State.wr_map : (s.wr a1 a2 a3 a4).map = s.map := rfl
@[simp] theorem State.wr_keys : (s.wr a1 a2 a3 a4).keys = s.keys := rfl
@[simp] theorem State.wr_keyReqs : (s.wr a1 a2 a3 a4).keyReqs = s.keyReqs := rfl
@[simp] theorem State.wr_mem : (s.wr a1 a2 a3 a4).mem = s.mem := rfl
@[simp] theorem State.wr_causes : (s.wr a1 a2 a3 a4).causes = s.causes := rfl
@[simp] theorem State.wr_hosts : (s.wr a1 a2 a3 a4).hosts = s.hosts := rfl
@[simp] theorem State.wr_reqs : (s.wr a1 a2 a3 a4).reqs = s.reqs := rfl
@[simp] theorem State.wr_stalled : (s.wr a1 a2 a3 a4).stalled = s.stalled := rfl
@[simp] theorem State.wr_m2s : (s.wr a1 a2 a3 a4).m2s = s.m2s := rfl
@[simp] theorem State.wr_insecure : (s.wr a1 a2 a3 a4).insecure = s.insecure := rfl
@[simp] theorem State.wr_ide : (s.wr a1 a2 a3 a4).ide = s.ide := rfl
@[simp] theorem State.wr_lanes : (s.wr a1 a2 a3 a4).lanes = s.lanes := rfl
@[simp] theorem State.wr_badLanes : (s.wr a1 a2 a3 a4).badLanes = s.badLanes := rfl
@[simp] theorem State.wr_laneRev : (s.wr a1 a2 a3 a4).laneRev = s.laneRev := rfl
@[simp] theorem State.wr_dram : (s.wr a1 a2 a3 a4).dram = s.dram := rfl
@[simp] theorem State.wr_coh : (s.wr a1 a2 a3 a4).coh = s.coh := rfl
@[simp] theorem State.wr_noc : (s.wr a1 a2 a3 a4).noc = s.noc := rfl
@[simp] theorem State.wr_links : (s.wr a1 a2 a3 a4).links = s.links := rfl
@[simp] theorem State.wr_span : (s.wr a1 a2 a3 a4).span = s.span := rfl
@[simp] theorem State.wr_queues : (s.wr a1 a2 a3 a4).queues = s.queues := rfl
@[simp] theorem State.wr_qram : (s.wr a1 a2 a3 a4).qram = s.qram := rfl
@[simp] theorem State.wr_gals : (s.wr a1 a2 a3 a4).gals = s.gals := rfl
@[simp] theorem State.wr_jobSeq : (s.wr a1 a2 a3 a4).jobSeq = s.jobSeq := rfl
@[simp] theorem State.wr_pwr : (s.wr a1 a2 a3 a4).pwr = s.pwr := rfl
@[simp] theorem State.wr_perst : (s.wr a1 a2 a3 a4).perst = s.perst := rfl
@[simp] theorem State.wr_txn : (s.wr a1 a2 a3 a4).txn = s.txn := rfl
@[simp] theorem State.wr_tst : (s.wr a1 a2 a3 a4).tst = s.tst := rfl
@[simp] theorem State.wr_smp : (s.wr a1 a2 a3 a4).smp = s.smp := rfl
@[simp] theorem State.wr_inl : (s.wr a1 a2 a3 a4).inl = s.inl := rfl

end

end Sys2Proof.Machine
end

