-- ==== Sys2Proof/Laws/Arrive.lean ====
section
/-!
SUPPORT. What bringing a message to its endpoint can do (`State.arrive`), once for the commands that deliver one: it waits on its
way, it is acted on off the torus, it is held at a domain's boundary, or it stays where it is because the hold queue is full.
-/

namespace Sys2Proof.Machine

section
variable (s : State) (f : Flight) (d n : Nat)

@[simp] theorem State.landed_regs : (s.landed f).regs = s.regs := rfl
@[simp] theorem State.landed_str : (s.landed f).str = s.str := rfl
@[simp] theorem State.landed_mem : (s.landed f).mem = s.mem := rfl
@[simp] theorem State.landed_map : (s.landed f).map = s.map := rfl
@[simp] theorem State.landed_flight : (s.landed f).coh.flight = s.coh.flight.erase f := rfl

/-- Taking a message off the torus moves no domain. -/
@[simp] theorem State.landed_domHolds : (s.landed f).domHolds d n = s.domHolds d n := rfl
@[simp] theorem State.landed_domOf (g : Flight) : (s.landed f).domOf g = s.domOf g := rfl

end

variable {s w : State} {f : Flight} {act : State → State}

/-- A message that has crossed the torus, and that no domain holds back, is acted on in the state without it. -/
theorem State.arrive_of_brought (h : Brought s f w) (ho : ∀ d, w.domOf f = some d → w.domHolds d (opNet f.opc) = false) :
    s.arrive f act = act w := by
  obtain ⟨hb, rfl⟩ := h
  unfold State.arrive
  simp only [State.landed_domOf, State.landed_domHolds] at ho
  generalize s.bring f = b at hb ho ⊢
  obtain ⟨there, u⟩ := b
  obtain rfl : there = true := hb
  cases hd : u.domOf f with
  | none => simp [hd]
  | some d => simp [hd, ho d hd]

/-- A message that has not crossed the torus stays on it. -/
theorem State.arrive_of_not_there (h : (s.bring f).1 = false) : s.arrive f act = (s.bring f).2 := by
  unfold State.arrive
  generalize s.bring f = b at h ⊢
  obtain ⟨there, u⟩ := b
  obtain rfl : there = false := h
  rfl

/-- A message that a domain holds back is kept at the boundary while there is room, and else stays at the ejection port. -/
theorem State.arrive_of_held {d : Nat} (h : Brought s f w) (hd : w.domOf f = some d)
    (ho : w.domHolds d (opNet f.opc) = true) :
    s.arrive f act = if (s.bring f).2.holdRoom d (opNet f.opc) then w.holdAt d f else (s.bring f).2 := by
  obtain ⟨hb, rfl⟩ := h
  unfold State.arrive
  simp only [State.landed_domOf, State.landed_domHolds] at hd ho
  generalize s.bring f = b at hb hd ho ⊢
  obtain ⟨there, u⟩ := b
  obtain rfl : there = true := hb
  simp [hd, ho]

end Sys2Proof.Machine
end

