-- ==== Sys2Proof/Laws/Keeps.lean ====
section
/-!
SUPPORT. What every operation keeps: the queue of waiting commands as it is, and the canonical form of DRAM's stored
bytes. The combinators, and the primitive operations; the files Keeps<Part> say it of each shared operation in turn.
-/

namespace Sys2Proof.Machine

/-- `t` has the queue of `s`, and DRAM in canonical form if `s` has. -/
structure Keeps (s t : State) : Prop where
  pending : t.pending = s.pending
  wf : Memory.wf s.mem = true → Memory.wf t.mem = true

/-- The next state that an outcome has keeps. -/
def KeepsX (s : State) (o : Outcome) : Prop := ∀ u, o = .next u → Keeps s u

/-- The state in an answer keeps, if there is an answer. -/
def KeepsO {α : Type} (s : State) (π : α → State) (o : Option α) : Prop := ∀ u, o = some u → Keeps s (π u)

/-! ### Combinators -/

theorem Keeps.refl (s : State) : Keeps s s := ⟨rfl, id⟩

theorem Keeps.trans {a b c : State} (h : Keeps a b) (k : Keeps b c) : Keeps a c :=
  ⟨k.1.trans h.1, fun w => k.2 (h.2 w)⟩

theorem Keeps.same {a b c : State} (h : Keeps a b) (hp : c.pending = b.pending) (hm : c.mem = b.mem) : Keeps a c :=
  ⟨hp.trans h.1, fun w => hm ▸ h.2 w⟩

theorem Keeps.ite {s a b : State} {c : Prop} [Decidable c] (h : c → Keeps s a) (k : ¬c → Keeps s b) :
    Keeps s (if c then a else b) := by
  split
  · exact h ‹_›
  · exact k ‹_›

/-- A record update of other fields. -/
theorem Keeps.upd {s b : State} {regs : SMap Nat} {free : Nat} {out : List Out} {stage : Stage} {nvs : Nvs} {flash : Flash}
    {time : TimeSt} {str : StrSt} {cc : Cc} {sec : SecSt} {ras : List RasRec} {map : MapSt} {keys : SMap KeySlot}
    {keyReqs : List VdmReq} {causes : SMap Nat} {hosts : SMap LdSt} {reqs : List HostReq} {stalled : List Stalled}
    {m2s : List M2S} {insecure : List Nat} {ide : List (Nat × IdeKeys)} {lanes badLanes : List (Nat × Nat)}
    {laneRev : List Nat} {dram : SMap ChanSt} {coh : CohSt} {noc : NocSt} {links : SMap Link}
    {span : SpanSt} {queues : SMap Queue} {qram : SMap QItem} {gals : SMap GalSt} {jobSeq : Nat} {pwr : PwrSt}
    {perst : List Nat} {txn : TxnSt} {tst : TstSt} {smp : SmpSt} {inl : InlSt} (h : Keeps s b) :
    Keeps s ⟨b.pending, regs, free, out, stage, nvs, flash, time, str, cc, sec, ras, map, keys, keyReqs, b.mem, causes, hosts,
      reqs, stalled, m2s, insecure, ide, lanes, badLanes, laneRev, dram, coh, noc, links, span, queues, qram, gals, jobSeq,
      pwr, perst, txn, tst, smp, inl⟩ := h.same rfl rfl

theorem Keeps.foldlP {β γ : Type} {s : State} (π : β → State) {f : β → γ → β} {l : List γ} {b : β} (h : Keeps s (π b))
    (hf : ∀ b x, Keeps s (π b) → Keeps s (π (f b x))) : Keeps s (π (l.foldl f b)) := by
  induction l generalizing b with
  | nil => exact h
  | cons x l ih => exact ih (hf _ _ h)

theorem Keeps.foldl {γ : Type} {s t : State} {f : State → γ → State} {l : List γ} (h : Keeps s t)
    (hf : ∀ t x, Keeps s t → Keeps s (f t x)) : Keeps s (l.foldl f t) := Keeps.foldlP id h hf

theorem Keeps.foldl1 {α γ : Type} {s : State} {f : State × α → γ → State × α} {l : List γ} {b : State × α}
    (h : Keeps s b.1) (hf : ∀ b x, Keeps s b.1 → Keeps s (f b x).1) : Keeps s (l.foldl f b).1 := Keeps.foldlP (fun b : State × α => b.1) h hf

theorem Keeps.foldl2 {α γ : Type} {s : State} {f : α × State → γ → α × State} {l : List γ} {b : α × State}
    (h : Keeps s b.2) (hf : ∀ b x, Keeps s b.2 → Keeps s (f b x).2) : Keeps s (l.foldl f b).2 := Keeps.foldlP (fun b : α × State => b.2) h hf

theorem Keeps.foldl22 {α β γ : Type} {s : State} {f : α × β × State → γ → α × β × State} {l : List γ} {b : α × β × State}
    (h : Keeps s b.2.2) (hf : ∀ b x, Keeps s b.2.2 → Keeps s (f b x).2.2) : Keeps s (l.foldl f b).2.2 :=
  Keeps.foldlP (fun b : α × β × State => b.2.2) h hf

theorem Keeps.forEach {α : Type} {s t : State} {l : List α} {f : State → α → State} (h : Keeps s t)
    (hf : ∀ t x, Keeps s t → Keeps s (f t x)) : Keeps s (t.forEach l f) := Keeps.foldl h hf

theorem Keeps.when {s t : State} {b : Bool} {f : State → State} (h : Keeps s t) (hf : ∀ t, Keeps s t → Keeps s (f t)) :
    Keeps s (t.when b f) := Keeps.ite (fun _ => hf _ h) (fun _ => h)

theorem Keeps.pr1 {α : Type} {s u : State} {a : α} (h : Keeps s u) : Keeps s (u, a).1 := h

theorem Keeps.pr2 {α : Type} {s u : State} {a : α} (h : Keeps s u) : Keeps s (a, u).2 := h

theorem Keeps.pr21 {α β : Type} {s u : State} {a : α} {b : β} (h : Keeps s u) : Keeps s (a, u, b).2.1 := h

theorem Keeps.pr22 {α β : Type} {s u : State} {a : α} {b : β} (h : Keeps s u) : Keeps s (a, b, u).2.2 := h

theorem Keeps.eq1 {α : Type} {s u : State} {a : α} {p : State × α} (e : p = (u, a)) (h : Keeps s p.1) : Keeps s u := by
  subst e; exact h

theorem Keeps.eq2 {α : Type} {s u : State} {a : α} {p : α × State} (e : p = (a, u)) (h : Keeps s p.2) : Keeps s u := by
  subst e; exact h

theorem Keeps.eq21 {α β : Type} {s u : State} {a : α} {b : β} {p : α × State × β} (e : p = (a, u, b)) (h : Keeps s p.2.1) :
    Keeps s u := by
  subst e; exact h

theorem Keeps.eq22 {α β : Type} {s u : State} {a : α} {b : β} {p : α × β × State} (e : p = (a, b, u)) (h : Keeps s p.2.2) :
    Keeps s u := by
  subst e; exact h

theorem KeepsO.none {α : Type} {s : State} {π : α → State} : KeepsO s π (.none : Option α) := fun _ h => nomatch h

theorem KeepsO.some {α : Type} {s : State} {π : α → State} {a : α} (h : Keeps s (π a)) : KeepsO s π (.some a) :=
  fun _ e => Option.some.inj e ▸ h

theorem KeepsO.ite {α : Type} {s : State} {π : α → State} {c : Prop} [Decidable c] {a b : Option α}
    (h : c → KeepsO s π a) (k : ¬c → KeepsO s π b) : KeepsO s π (if c then a else b) := by
  split
  · exact h ‹_›
  · exact k ‹_›

theorem KeepsO.use {α : Type} {s : State} {π : α → State} {o : Option α} {u : α} (h : KeepsO s π o) (e : o = .some u) :
    Keeps s (π u) := h u e

theorem KeepsO.getD {α : Type} {s : State} {π : α → State} {o : Option α} {d : α} (h : KeepsO s π o) (k : Keeps s (π d)) :
    Keeps s (π (o.getD d)) := by
  cases o with
  | none => exact k
  | some a => exact h a rfl

theorem KeepsO.map {α β : Type} {s : State} {π : β → State} {o : Option α} {f : α → β} (h : ∀ a, Keeps s (π (f a))) :
    KeepsO s π (o.map f) := by
  cases o with
  | none => exact KeepsO.none
  | some a => exact KeepsO.some (h a)

theorem KeepsO.bind {α β : Type} {s : State} {π : β → State} {o : Option α} {f : α → Option β} (h : ∀ a, KeepsO s π (f a)) :
    KeepsO s π (o.bind f) := by
  cases o with
  | none => exact KeepsO.none
  | some a => exact h a

theorem KeepsO.findSome {α β : Type} {s : State} {π : β → State} {l : List α} {f : α → Option β} (h : ∀ a, KeepsO s π (f a)) :
    KeepsO s π (l.findSome? f) := by
  induction l with
  | nil => exact KeepsO.none
  | cons a l ih =>
    rw [List.findSome?_cons]
    split
    · exact fun u e => h a u (Option.some.inj e ▸ ‹_›)
    · exact ih

/-! ### Outcomes -/

theorem KeepsX.next {s u : State} (h : Keeps s u) : KeepsX s (.next u) := fun _ e => Host.Outcome.next.inj e ▸ h

theorem KeepsX.ite {s : State} {c : Prop} [Decidable c] {a b : Outcome} (h : c → KeepsX s a) (k : ¬c → KeepsX s b) :
    KeepsX s (if c then a else b) := by
  split
  · exact h ‹_›
  · exact k ‹_›

theorem KeepsX.onDie {s t : State} {f : State → State} (h : Keeps s t) (hf : ∀ t, Keeps s t → Keeps s (f t)) :
    KeepsX s (onDie t f) := KeepsX.next (Keeps.ite (fun _ => hf _ h) (fun _ => h))

theorem KeepsX.onClock {s t : State} {f : State → State} (h : Keeps s t) (hf : ∀ t, Keeps s t → Keeps s (f t)) :
    KeepsX s (onClock t f) := KeepsX.next (Keeps.ite (fun _ => hf _ h) (fun _ => h))

theorem KeepsX.onInlet {s t : State} {f : State → State} (h : Keeps s t) (hf : ∀ t, Keeps s t → Keeps s (f t)) :
    KeepsX s (onInlet t f) := KeepsX.next (hf _ h)

theorem KeepsX.onTap {s t : State} {f : State → State} (h : Keeps s t) (hf : ∀ t, Keeps s t → Keeps s (f t)) :
    KeepsX s (onTap t f) := KeepsX.next (Keeps.ite (fun _ => h) (fun _ => hf _ h))

/-! ### Primitive operations -/

theorem Keeps.wr {s t : State} {f : Field} {v i j : Nat} (h : Keeps s t) : Keeps s (t.wr f v i j) := h.same rfl rfl
theorem Keeps.bump {s t : State} {f : Field} {v i j : Nat} (h : Keeps s t) : Keeps s (t.bump f v i j) := h.wr
theorem Keeps.add {s t : State} {f : Field} {v i j : Nat} (h : Keeps s t) : Keeps s (t.add f v i j) := h.wr
theorem Keeps.sub {s t : State} {f : Field} {v i j : Nat} (h : Keeps s t) : Keeps s (t.sub f v i j) := h.wr
theorem Keeps.set {s t : State} {f : Field} {i j : Nat} (h : Keeps s t) : Keeps s (t.set f i j) := h.wr
theorem Keeps.clear {s t : State} {f : Field} {i j : Nat} (h : Keeps s t) : Keeps s (t.clear f i j) := h.wr
theorem Keeps.wrBit {s t : State} {f : Field} {k : Nat} {b : Bool} {i j : Nat} (h : Keeps s t) :
    Keeps s (t.wrBit f k b i j) := h.wr
theorem Keeps.draw {s t : State} (h : Keeps s t) : Keeps s t.draw.2 := h.same rfl rfl
theorem Keeps.emit {s t : State} {o : Out} (h : Keeps s t) : Keeps s (t.emit o) := h.same rfl rfl
theorem Keeps.zeroChunk {s t : State} {c : Nat} (h : Keeps s t) : Keeps s (t.zeroChunk c) := by
  unfold State.zeroChunk
  exact Keeps.add (Keeps.add ⟨h.1, fun w => Memory.wf_filter _ (h.2 w)⟩)
theorem Keeps.setRawLine {s t : State} {c cla : Nat} {w : Bytes} (h : Keeps s t) : Keeps s (t.setRawLine c cla w) :=
  ⟨h.1, fun k => State.setRawLine_wf c cla w (h.2 k)⟩

end Sys2Proof.Machine
end

