-- ==== Sys2Proof/Laws/KeepsRasToTol.lean ====
section
/-!
SUPPORT. What the operations and meanings of Ras, Access, Count, Dram, Keys, Space, Page, Events, Packet, NocOps, Tol keep (Laws/Keeps).
-/

namespace Sys2Proof.Machine

theorem Keeps.record {s t : State} {a1 a2 a3 a4 a5 a6 a7 : Nat} (h : Keeps s t) :
    Keeps s (State.record t a1 a2 a3 a4 a5 a6 a7) := by
  unfold State.record
  extract_lets +onlyGivenNames -underBinder -merge x1 x2 x3
  have h3 : Keeps s x3 := Keeps.upd h
  try clear_value x3
  extract_lets +onlyGivenNames -underBinder -merge x4
  have h4 : Keeps s x4 := Keeps.add h3
  try clear_value x4
  extract_lets +onlyGivenNames -underBinder -merge x5
  have h5 : Keeps s x5 := Keeps.ite (fun _ => Keeps.bump h4) (fun _ => Keeps.wr h4)
  try clear_value x5
  extract_lets +onlyGivenNames -underBinder -merge x6
  have h6 : Keeps s x6 := Keeps.bump (Keeps.set h5)
  try clear_value x6
  exact Keeps.ite (fun _ => Keeps.set (Keeps.upd h6)) (fun _ => h6)

theorem Keeps.violate {s t : State} {a1 : Initiator} {a2 : Nat} {a3 : Bool} (h : Keeps s t) :
    Keeps s (State.violate t a1 a2 a3) := by
  unfold State.violate
  extract_lets +onlyGivenNames -underBinder -merge x1
  have h1 : Keeps s x1 := Keeps.bump h
  try clear_value x1
  extract_lets +onlyGivenNames -underBinder -merge x2
  have h2 : Keeps s x2 := Keeps.wr h1
  try clear_value x2
  extract_lets +onlyGivenNames -underBinder -merge x3
  have h3 : Keeps s x3 := Keeps.wr h2
  try clear_value x3
  exact Keeps.set (Keeps.wr h3)

theorem Keeps.dropHalves {s t : State} {a1 : Initiator} {a2 : Nat} (h : Keeps s t) :
    Keeps s (State.dropHalves t a1 a2) := by
  unfold State.dropHalves
  extract_lets +onlyGivenNames -underBinder -merge x1
  exact Keeps.upd h

theorem Keeps.sessionEnded {s t : State} {a1 : Nat} (h : Keeps s t) :
    Keeps s (State.sessionEnded t a1) := by
  unfold State.sessionEnded
  extract_lets +onlyGivenNames -underBinder -merge x1
  have h1 : Keeps s x1 := Keeps.wr h
  try clear_value x1
  extract_lets +onlyGivenNames -underBinder -merge x2
  have h2 : Keeps s x2 := Keeps.clear (Keeps.clear h1)
  try clear_value x2
  exact Keeps.record (Keeps.set h2)

theorem Keeps.firstAccess {s t : State} {a1 : Bool} (h : Keeps s t) :
    Keeps s (State.firstAccess t a1) := by
  unfold State.firstAccess
  exact Keeps.ite (fun _ => Keeps.record (Keeps.set (Keeps.wr h))) (fun _ => h)

theorem Keeps.access {s t : State} {a1 : Initiator} {a2 : Nat} {a3 : Bool} (h : Keeps s t) :
    Keeps s (State.access t a1 a2 a3).2 := by
  unfold State.access
  split
  · exact Keeps.pr2 h
  · exact Keeps.pr2 (Keeps.violate h)

theorem Keeps.accessing {s t : State} (h : Keeps s t) :
    Keeps s (State.accessing t) := by
  unfold State.accessing
  exact Keeps.upd h

theorem Keeps.barWrite {s t : State} {a1 : Initiator} {a2 : Nat} {a3 : State → State} (h : Keeps s t)
    (k3 : ∀ y0, Keeps s y0 → Keeps s (a3 y0)) :
    Keeps s (Machine.barWrite t a1 a2 a3) := by
  unfold Machine.barWrite
  extract_lets +onlyGivenNames -underBinder -merge x1
  split
  · rename_i e2_0
    have h2 : Keeps s _ := Keeps.eq2 e2_0 (Keeps.access (Keeps.accessing h))
    extract_lets +onlyGivenNames -underBinder -merge x3
    have h3 : Keeps s x3 := Keeps.dropHalves h2
    try clear_value x3
    exact Keeps.firstAccess (Keeps.ite (fun _ => k3 _ h3) (fun _ => h3))

theorem Keeps.rwsWrite {s t : State} {a1 : Initiator} {a2 : Nat} {a3 : State → State} (h : Keeps s t)
    (k3 : ∀ y0, Keeps s y0 → Keeps s (a3 y0)) :
    Keeps s (Machine.rwsWrite t a1 a2 a3) := by
  unfold Machine.rwsWrite
  exact Keeps.barWrite h (fun _ h1 => Keeps.ite (fun _ => k3 _ h1) (fun _ => h1))

theorem Keeps.onTxn {s t : State} {a1 : Option Nat} {a2 : Txn → Txn} (h : Keeps s t) :
    Keeps s (State.onTxn t a1 a2) := by
  unfold State.onTxn
  split
  · exact h
  · exact Keeps.upd h

theorem Keeps.stages {s t : State} {a1 : Nat} (h : Keeps s t) :
    Keeps s (State.stages t a1).2 := by
  unfold State.stages
  split
  · rename_i e5_0
    have h5 : Keeps s _ := Keeps.eq22 e5_0 (Keeps.foldl22 (Keeps.pr22 h) (fun _ _ h1 => by
        beta_reduce
        split
        · rename_i e3_0
          have h3 : Keeps s _ := Keeps.eq2 e3_0 (Keeps.draw h1)
          extract_lets +onlyGivenNames -underBinder -merge x4
          exact Keeps.pr22 h3))
    exact Keeps.pr2 h5

theorem Keeps.txnRecord {s t : State} {a1 : Txn} {a2 a3 : Bool} {a4 : Nat × Nat × Nat} (h : Keeps s t) :
    Keeps s (State.txnRecord t a1 a2 a3 a4).2 := by
  unfold State.txnRecord
  split
  · rename_i e1_0
    have h1 : Keeps s _ := Keeps.eq2 e1_0 (Keeps.stages h)
    extract_lets +onlyGivenNames -underBinder -merge x2
    split
    · extract_lets +onlyGivenNames -underBinder -merge x3
      extract_lets +onlyGivenNames -underBinder -merge x4 x5 x6 x7
      exact Keeps.pr2 h1

theorem Keeps.showSmp {s t : State} (h : Keeps s t) :
    Keeps s (State.showSmp t) := by
  unfold State.showSmp
  exact Keeps.wr (Keeps.wr h)

theorem Keeps.loseRecord {s t : State} (h : Keeps s t) :
    Keeps s (State.loseRecord t) := by
  unfold State.loseRecord
  exact Keeps.bump (Keeps.upd h)

theorem Keeps.bufferRecord {s t : State} {a1 : Bytes} (h : Keeps s t) :
    Keeps s (State.bufferRecord t a1) := by
  unfold State.bufferRecord
  refine Keeps.ite (fun _ => ?_) (fun _ => ?_)
  · exact Keeps.loseRecord h
  · extract_lets +onlyGivenNames -underBinder -merge x1
    exact Keeps.showSmp (Keeps.upd h)

theorem Keeps.markTxn {s t : State} {a1 : Option Nat} {a2 : Nat × Nat × Nat} {a3 : Qual} (h : Keeps s t) :
    Keeps s (State.markTxn t a1 a2 a3) := by
  unfold State.markTxn
  split
  · exact Keeps.onTxn h
  · extract_lets +onlyGivenNames -underBinder -merge x1
    split
    · rename_i e2_0
      have h2 : Keeps s _ := Keeps.eq2 e2_0 (Keeps.txnRecord h)
      exact Keeps.bufferRecord h2

theorem Keeps.insnRecord {s t : State} {a1 : Nat} {a2 : Nat × Nat × Nat} (h : Keeps s t) :
    Keeps s (State.insnRecord t a1 a2).2 := by
  unfold State.insnRecord
  split
  · rename_i e1_0
    have h1 : Keeps s _ := Keeps.eq2 e1_0 (Keeps.draw h)
    split
    · rename_i e2_0
      have h2 : Keeps s _ := Keeps.eq2 e2_0 (Keeps.draw h1)
      split
      · rename_i e3_0
        have h3 : Keeps s _ := Keeps.eq2 e3_0 (Keeps.draw h2)
        split
        · rename_i e4_0
          have h4 : Keeps s _ := Keeps.eq2 e4_0 (Keeps.draw h3)
          extract_lets +onlyGivenNames -underBinder -merge x5 x6 x7 x8
          exact Keeps.pr2 h4

theorem Keeps.markInsn {s t : State} {a1 : Nat} {a2 : Nat × Nat × Nat} (h : Keeps s t) :
    Keeps s (State.markInsn t a1 a2) := by
  unfold State.markInsn
  split
  · rename_i e1_0
    have h1 : Keeps s _ := Keeps.eq2 e1_0 (Keeps.insnRecord h)
    exact Keeps.bufferRecord h1

theorem Keeps.markEvent {s t : State} {a1 a2 : Nat} {a3 : Option Nat} {a4 : Qual} (h : Keeps s t) :
    Keeps s (State.markEvent t a1 a2 a3 a4) := by
  unfold State.markEvent
  extract_lets +onlyGivenNames -underBinder -merge x1
  exact Keeps.ite (fun _ => Keeps.markInsn h) (fun _ => Keeps.markTxn h)

theorem Keeps.countN {s t : State} {a1 a2 a3 : Nat} {a4 : Option Nat} {a5 : Qual} (h : Keeps s t) :
    Keeps s (State.countN t a1 a2 a3 a4 a5) := by
  unfold State.countN
  extract_lets +onlyGivenNames -underBinder -merge x1
  refine Keeps.ite (fun _ => ?_) (fun _ => ?_)
  · exact Keeps.wr h
  · extract_lets +onlyGivenNames -underBinder -merge x2
    extract_lets +onlyGivenNames -underBinder -merge x3 x4
    have h4 : Keeps s x4 := Keeps.wr h
    try clear_value x4
    extract_lets +onlyGivenNames -underBinder -merge x5
    have h5 : Keeps s x5 := Keeps.wrBit (Keeps.wrBit h4)
    try clear_value x5
    extract_lets +onlyGivenNames -underBinder -merge x6
    have h6 : Keeps s x6 := Keeps.when h5 (fun _ h7 => Keeps.set h7)
    try clear_value x6
    exact Keeps.when h6 (fun _ h8 => Keeps.markEvent h8)

theorem Keeps.counts {s t : State} {a1 a2 : Nat} {a3 : Qual} {a4 : Option Nat} {a5 : Nat} (h : Keeps s t) :
    Keeps s (State.counts t a1 a2 a3 a4 a5) := by
  unfold State.counts
  exact Keeps.ite (fun _ => h) (fun _ => Keeps.forEach h (fun _ _ h1 => Keeps.ite (fun _ => Keeps.countN h1) (fun _ => h1)))

theorem Keeps.txnBegin {s t : State} {a1 : Txn} (h : Keeps s t) :
    Keeps s (State.txnBegin t a1) := by
  unfold State.txnBegin
  exact Keeps.ite (fun _ => h) (fun _ => Keeps.upd h)

theorem Keeps.latency {s t : State} {a1 : Txn} (h : Keeps s t) :
    Keeps s (State.latency t a1) := by
  unfold State.latency
  extract_lets +onlyGivenNames -underBinder -merge x1
  exact Keeps.ite (fun _ => Keeps.counts (Keeps.upd h)) (fun _ => h)

theorem Keeps.txnMarked {s t : State} {a1 : Nat} {a2 a3 : Bool} (h : Keeps s t) :
    Keeps s (State.txnMarked t a1 a2 a3) := by
  unfold State.txnMarked
  split
  · exact h
  · extract_lets +onlyGivenNames -underBinder -merge x1
    extract_lets +onlyGivenNames -underBinder -merge x2
    have h2 : Keeps s x2 := Keeps.upd h
    try clear_value x2
    split
    · exact h2
    · split
      · rename_i e3_0
        have h3 : Keeps s _ := Keeps.eq2 e3_0 (Keeps.txnRecord h2)
        exact Keeps.bufferRecord h3

theorem Keeps.txnEnd {s t : State} {a1 : Option Nat} {a2 a3 : Bool} (h : Keeps s t) :
    Keeps s (State.txnEnd t a1 a2 a3) := by
  unfold State.txnEnd
  split
  · exact h
  · extract_lets +onlyGivenNames -underBinder -merge x1
    exact Keeps.txnMarked (Keeps.when h (fun _ h2 => Keeps.latency h2))

theorem Keeps.during {s t : State} {a1 : Option Nat} {a2 : State → State} (h : Keeps s t)
    (k2 : ∀ y0, Keeps s y0 → Keeps s (a2 y0)) :
    Keeps s (State.during t a1 a2) := by
  unfold State.during
  extract_lets +onlyGivenNames -underBinder -merge x1 x2
  have h2 : Keeps s x2 := k2 _ (Keeps.upd h)
  try clear_value x2
  exact Keeps.upd h2

theorem Keeps.setChan {s t : State} {a1 : Nat} {a2 : ChanSt} (h : Keeps s t) :
    Keeps s (State.setChan t a1 a2) := by
  unfold State.setChan
  exact Keeps.upd h

theorem Keeps.onChan {s t : State} {a1 : Nat} {a2 : ChanSt → ChanSt} (h : Keeps s t) :
    Keeps s (State.onChan t a1 a2) := by
  unfold State.onChan
  exact Keeps.setChan h

theorem Keeps.showRef {s t : State} {a1 : Nat} (h : Keeps s t) :
    Keeps s (State.showRef t a1) := by
  unfold State.showRef
  extract_lets +onlyGivenNames -underBinder -merge x1
  exact Keeps.wr h

theorem Keeps.wakeRank {s t : State} {a1 a2 : Nat} (h : Keeps s t) :
    Keeps s (State.wakeRank t a1 a2) := by
  unfold State.wakeRank
  exact Keeps.ite (fun _ => Keeps.counts (Keeps.bump (Keeps.wr h))) (fun _ => h)

theorem Keeps.unpark {s t : State} {a1 a2 : Nat} (h : Keeps s t) :
    Keeps s (State.unpark t a1 a2) := by
  unfold State.unpark
  exact Keeps.ite (fun _ => h) (fun _ => Keeps.ite (fun _ => Keeps.wr (Keeps.onChan h)) (fun _ => Keeps.wr h))

theorem Keeps.rouse {s t : State} {a1 a2 : Nat} (h : Keeps s t) :
    Keeps s (State.rouse t a1 a2) := by
  unfold State.rouse
  exact Keeps.wakeRank (Keeps.unpark h)

theorem Keeps.touchRank {s t : State} {a1 a2 : Nat} (h : Keeps s t) :
    Keeps s (State.touchRank t a1 a2) := by
  unfold State.touchRank
  exact Keeps.rouse (Keeps.upd h)

theorem Keeps.showRt {s t : State} {a1 : Nat} (h : Keeps s t) :
    Keeps s (State.showRt t a1) := by
  unfold State.showRt
  extract_lets +onlyGivenNames -underBinder -merge x1 x2 x3 x4 x5 x6
  have h6 : Keeps s x6 := Keeps.setChan h
  try clear_value x6
  extract_lets +onlyGivenNames -underBinder -merge x7
  have h7 : Keeps s x7 := Keeps.forEach h6 (fun _ _ h8 => by
      extract_lets +onlyGivenNames -underBinder -merge x10 x11
      exact Keeps.wr (Keeps.wr h8))
  try clear_value x7
  exact Keeps.wr (Keeps.bump h7)

theorem Keeps.postLine {s t : State} {a1 a2 : Nat} {a3 : Bool} {a4 : Nat} {a5 : Option Nat} (h : Keeps s t) :
    Keeps s (State.postLine t a1 a2 a3 a4 a5) := by
  unfold State.postLine
  refine Keeps.ite (fun _ => ?_) (fun _ => ?_)
  · exact h
  · extract_lets +onlyGivenNames -underBinder -merge x1
    have h1 : Keeps s x1 := Keeps.onTxn h
    try clear_value x1
    extract_lets +onlyGivenNames -underBinder -merge x2 x3
    have h3 : Keeps s x3 := Keeps.onChan h1
    try clear_value x3
    exact Keeps.touchRank (Keeps.ite (fun _ => Keeps.showRt h3) (fun _ => h3))

theorem Keeps.postMa {s t : State} {a1 : Nat} {a2 : Bool} {a3 : Nat} (h : Keeps s t) :
    Keeps s (State.postMa t a1 a2 a3) := by
  unfold State.postMa
  split
  · exact h
  · exact Keeps.postLine h

theorem Keeps.poisonLine {s t : State} {a1 a2 : Nat} (h : Keeps s t) :
    Keeps s (State.poisonLine t a1 a2) := by
  unfold State.poisonLine
  split
  · extract_lets +onlyGivenNames -underBinder -merge x1
    exact Keeps.bump (Keeps.setRawLine h)

theorem Keeps.storeLine {s t : State} {a1 a2 : Nat} {a3 : Bytes} (h : Keeps s t) :
    Keeps s (State.storeLine t a1 a2 a3) := by
  unfold State.storeLine
  split
  · exact Keeps.setRawLine h

theorem Keeps.countCe {s t : State} {a1 a2 : Nat} {a3 : List Nat} (h : Keeps s t) :
    Keeps s (State.countCe t a1 a2 a3).1 := by
  unfold State.countCe
  exact Keeps.foldl1 (Keeps.pr1 h) (fun _ _ h1 => by
    beta_reduce
    split
    · rename_i e3_0
      have h3 : Keeps s _ := h1
      extract_lets +onlyGivenNames -underBinder -merge x4 x5 x6
      have h6 : Keeps s x6 := Keeps.wr h3
      try clear_value x6
      split
      · extract_lets +onlyGivenNames -underBinder -merge x7
        have h7 : Keeps s x7 := Keeps.set h6
        try clear_value x7
        split
        · exact Keeps.pr1 (Keeps.record (Keeps.set (Keeps.wr h7)))
        · exact Keeps.pr1 h7
      · exact Keeps.pr1 h6)

theorem Keeps.eccFail {s t : State} {a1 a2 : Nat} {a3 : EccResult} {a4 : Bool} (h : Keeps s t) :
    Keeps s (State.eccFail t a1 a2 a3 a4) := by
  unfold State.eccFail
  extract_lets +onlyGivenNames -underBinder -merge x1 x2
  have h2 : Keeps s x2 := Keeps.ite (fun _ => Keeps.set (Keeps.bump h)) (fun _ => Keeps.set (Keeps.bump h))
  try clear_value x2
  extract_lets +onlyGivenNames -underBinder -merge x3
  have h3 : Keeps s x3 := Keeps.wr h2
  try clear_value x3
  extract_lets +onlyGivenNames -underBinder -merge x4
  have h4 : Keeps s x4 := Keeps.wr h3
  try clear_value x4
  extract_lets +onlyGivenNames -underBinder -merge x5
  have h5 : Keeps s x5 := Keeps.wr h4
  try clear_value x5
  extract_lets +onlyGivenNames -underBinder -merge x6
  have h6 : Keeps s x6 := Keeps.ite (fun _ => Keeps.wr h5) (fun _ => h5)
  try clear_value x6
  extract_lets +onlyGivenNames -underBinder -merge x7
  have h7 : Keeps s x7 := Keeps.ite (fun _ => Keeps.record h6) (fun _ => Keeps.record h6)
  try clear_value x7
  exact Keeps.poisonLine h7

theorem Keeps.takeRead {s t : State} {a1 a2 : Nat} {a3 a4 : Bytes} {a5 : Bool} (h : Keeps s t) :
    Keeps s (State.takeRead t a1 a2 a3 a4 a5).2.1 := by
  unfold State.takeRead
  extract_lets +onlyGivenNames -underBinder -merge x1 x2 x3 x4
  have h4 : Keeps s x4 := Keeps.ite (fun _ => Keeps.bump h) (fun _ => h)
  try clear_value x4
  split
  · exact Keeps.pr21 (Keeps.eccFail h4)
  · split
    · split
      · rename_i e5_0
        have h5 : Keeps s _ := Keeps.eq1 e5_0 (Keeps.countCe (Keeps.counts (Keeps.bump h4)))
        extract_lets +onlyGivenNames -underBinder -merge x6
        have h6 : Keeps s x6 := Keeps.ite (fun _ => Keeps.storeLine h5) (fun _ => h5)
        try clear_value x6
        exact Keeps.pr21 h6
    · exact Keeps.pr21 h4

theorem Keeps.spendCause {s t : State} {a1 : Nat} (h : Keeps s t) :
    Keeps s (State.spendCause t a1) := by
  unfold State.spendCause
  split
  · exact h
  · exact Keeps.upd h

theorem Keeps.putMa {s t : State} {a1 : Nat} {a2 : Bytes} {a3 : Bool} (h : Keeps s t) :
    Keeps s (State.putMa t a1 a2 a3) := by
  unfold State.putMa
  split
  · exact h
  · extract_lets +onlyGivenNames -underBinder -merge x1
    have h1 : Keeps s x1 := Keeps.upd h
    try clear_value x1
    exact Keeps.ite (fun _ => h1) (fun _ => Keeps.ite (fun _ => Keeps.poisonLine h1) (fun _ => Keeps.storeLine h1))

theorem Keeps.setKeySlot {s t : State} {a1 : Nat} {a2 : KeySlot} (h : Keeps s t) :
    Keeps s (State.setKeySlot t a1 a2) := by
  unfold State.setKeySlot
  exact Keeps.upd h

theorem Keeps.emptyUse {s t : State} (h : Keeps s t) :
    Keeps s (State.emptyUse t) := by
  unfold State.emptyUse
  exact Keeps.set (Keeps.bump h)

theorem Keeps.integFail {s t : State} {a1 a2 a3 : Nat} (h : Keeps s t) :
    Keeps s (State.integFail t a1 a2 a3) := by
  unfold State.integFail
  extract_lets +onlyGivenNames -underBinder -merge x1
  have h1 : Keeps s x1 := Keeps.set (Keeps.bump h)
  try clear_value x1
  extract_lets +onlyGivenNames -underBinder -merge x2
  have h2 : Keeps s x2 := Keeps.wr h1
  try clear_value x2
  extract_lets +onlyGivenNames -underBinder -merge x3
  have h3 : Keeps s x3 := Keeps.wr h2
  try clear_value x3
  exact Keeps.record (Keeps.wr h3)

theorem Keeps.rekeyDone {s t : State} {a1 : Nat} (h : Keeps s t) :
    Keeps s (State.rekeyDone t a1) := by
  unfold State.rekeyDone
  extract_lets +onlyGivenNames -underBinder -merge x1 x2
  have h2 : Keeps s x2 := Keeps.setKeySlot h
  try clear_value x2
  exact Keeps.set (Keeps.wr h2)

theorem Keeps.verWrap {s t : State} {a1 a2 : Nat} (h : Keeps s t) :
    Keeps s (State.verWrap t a1 a2) := by
  unfold State.verWrap
  exact Keeps.set (Keeps.wr (Keeps.set h))

theorem Keeps.poolCheck {s t : State} {a1 : Nat} (h : Keeps s t) :
    Keeps s (State.poolCheck t a1) := by
  unfold State.poolCheck
  exact Keeps.ite (fun _ => Keeps.wrBit h) (fun _ => h)

theorem Keeps.setChunk {s t : State} {a1 : Nat} {a2 : Chunk} (h : Keeps s t) :
    Keeps s (State.setChunk t a1 a2) := by
  unfold State.setChunk
  extract_lets +onlyGivenNames -underBinder -merge x1 x2 x3
  have h3 : Keeps s x3 := Keeps.upd h
  try clear_value x3
  extract_lets +onlyGivenNames -underBinder -merge x4
  have h4 : Keeps s x4 := Keeps.when h3 (fun _ h5 => Keeps.sub (Keeps.sub h5))
  try clear_value x4
  extract_lets +onlyGivenNames -underBinder -merge x6
  have h6 : Keeps s x6 := Keeps.when h4 (fun _ h7 => Keeps.poolCheck (Keeps.add (Keeps.add h7)))
  try clear_value x6
  split
  · exact h6
  · extract_lets +onlyGivenNames -underBinder -merge x8
    have h8 : Keeps s x8 := Keeps.when h6 (fun _ h9 => Keeps.sub h9)
    try clear_value x8
    exact Keeps.when h8 (fun _ h10 => Keeps.add h10)

theorem Keeps.poolTrim {s t : State} {a0 a2 : Nat} (h : Keeps s t) :
    Keeps s (State.poolTrim a0 t a2) := by
  induction a0 generalizing t a2 with
  | zero => exact h
  | succ _ ih =>
    rw [State.poolTrim.eq_2]
    refine Keeps.ite (fun _ => ?_) (fun _ => ?_)
    · split
      · exact h
      · exact ih (Keeps.setChunk h)
    · exact h

theorem Keeps.trim {s t : State} {a1 : Nat} (h : Keeps s t) :
    Keeps s (State.trim t a1) := by
  unfold State.trim
  exact Keeps.poolTrim h

theorem Keeps.giveChunk {s t : State} {a1 a2 : Nat} (h : Keeps s t) :
    Keeps s (State.giveChunk t a1 a2) := by
  unfold State.giveChunk
  extract_lets +onlyGivenNames -underBinder -merge x1 x2
  have h2 : Keeps s x2 := Keeps.setChunk h
  try clear_value x2
  exact Keeps.ite (fun _ => Keeps.wrBit h2) (fun _ => Keeps.upd h2)

theorem Keeps.grantNow {s t : State} {a1 : Claim} (h : Keeps s t) :
    KeepsO s (fun p => p) (State.grantNow t a1) := by
  unfold State.grantNow
  exact KeepsO.map (fun _ => Keeps.giveChunk (Keeps.zeroChunk h))

theorem Keeps.grantLater {s t : State} {a1 : Claim} (h : Keeps s t) :
    KeepsO s (fun p => p) (State.grantLater t a1) := by
  unfold State.grantLater
  exact KeepsO.map (fun _ => Keeps.upd h)

theorem Keeps.takeFrame {s t : State} {a1 : Nat} (h : Keeps s t) :
    Keeps s (State.takeFrame t a1) := by
  unfold State.takeFrame
  extract_lets +onlyGivenNames -underBinder -merge x1
  exact Keeps.setChunk h

theorem Keeps.freeFrame {s t : State} {a1 : Nat} (h : Keeps s t) :
    Keeps s (State.freeFrame t a1) := by
  unfold State.freeFrame
  extract_lets +onlyGivenNames -underBinder -merge x1
  exact Keeps.ite (fun _ => Keeps.trim (Keeps.setChunk h)) (fun _ => h)

theorem Keeps.freeFrameAfter {s t : State} {a1 : Nat} {a2 : List (Nat × Nat)} (h : Keeps s t) :
    Keeps s (State.freeFrameAfter t a1 a2) := by
  unfold State.freeFrameAfter
  exact Keeps.ite (fun _ => Keeps.freeFrame h) (fun _ => Keeps.upd h)

theorem Keeps.readDone {s t : State} {a1 a2 : Nat} (h : Keeps s t) :
    Keeps s (State.readDone t a1 a2) := by
  unfold State.readDone
  extract_lets +onlyGivenNames -underBinder -merge x1 x2 x3
  have h3 : Keeps s x3 := Keeps.upd h
  try clear_value x3
  exact Keeps.forEach h3 (fun _ _ h4 => Keeps.freeFrame h4)

theorem Keeps.openHeld {s t : State} {a1 : Nat} (h : Keeps s t) :
    Keeps s (State.openHeld t a1) := by
  unfold State.openHeld
  extract_lets +onlyGivenNames -underBinder -merge x1
  have h1 : Keeps s x1 := by
    unfold x1
    split
    · exact h
    · exact Keeps.setChunk h
  try clear_value x1
  split
  · exact h1
  · exact Keeps.setChunk h1

theorem Keeps.bumpRun {s t : State} {a1 a2 : Nat} (h : Keeps s t) :
    KeepsO s (fun p => p.2) (State.bumpRun t a1 a2) := by
  unfold State.bumpRun
  split
  · exact KeepsO.none
  · exact KeepsO.ite (fun _ => KeepsO.some (Keeps.pr2 (Keeps.setChunk h))) (fun _ => KeepsO.none)

theorem Keeps.allocRun {s t : State} {a1 : Group} {a2 : Nat} (h : Keeps s t) :
    KeepsO s (fun p => p.2) (State.allocRun t a1 a2) := by
  unfold State.allocRun
  extract_lets +onlyGivenNames -underBinder -merge x1
  refine KeepsO.ite (fun _ => ?_) (fun _ => ?_)
  · exact KeepsO.none
  · split
    · rename_i e2_0
      have h2 := KeepsO.use (Keeps.bumpRun h) e2_0
      exact KeepsO.some h2
    · refine KeepsO.ite (fun _ => ?_) (fun _ => ?_)
      · exact Keeps.bumpRun (Keeps.openHeld h)
      · split
        · exact KeepsO.none
        · rename_i e3_0
          have h3 := KeepsO.use (Keeps.grantNow h) e3_0
          split
          · exact KeepsO.none
          · rename_i e4_0
            have h4 := KeepsO.use (Keeps.bumpRun (Keeps.openHeld h3)) e4_0
            exact KeepsO.some (Keeps.pr2 (Keeps.trim h4))

theorem Keeps.releaseRun {s t : State} {a1 a2 : Nat} (h : Keeps s t) :
    Keeps s (State.releaseRun t a1 a2) := by
  unfold State.releaseRun
  extract_lets +onlyGivenNames -underBinder -merge x1 x2 x3
  exact Keeps.ite (fun _ => Keeps.setChunk h) (fun _ => Keeps.ite (fun _ => Keeps.setChunk h) (fun _ => h))

theorem Keeps.moveUse {s t : State} {a1 a2 : Nat} (h : Keeps s t) :
    Keeps s (State.moveUse t a1 a2) := by
  unfold State.moveUse
  exact Keeps.ite (fun _ => h) (fun _ => Keeps.add (Keeps.sub h))

theorem Keeps.putPme {s t : State} {a1 : Nat} {a2 : Pme} (h : Keeps s t) :
    Keeps s (State.putPme t a1 a2) := by
  unfold State.putPme
  extract_lets +onlyGivenNames -underBinder -merge x1 x2 x3
  have h3 : Keeps s x3 := Keeps.upd h
  try clear_value x3
  extract_lets +onlyGivenNames -underBinder -merge x4
  have h4 : Keeps s x4 := Keeps.add (Keeps.sub h3)
  try clear_value x4
  exact Keeps.moveUse h4

theorem Keeps.putTwin {s t : State} {a1 : Nat} {a2 : Twin} (h : Keeps s t) :
    Keeps s (State.putTwin t a1 a2) := by
  unfold State.putTwin
  extract_lets +onlyGivenNames -underBinder -merge x1 x2 x3
  have h3 : Keeps s x3 := Keeps.upd h
  try clear_value x3
  extract_lets +onlyGivenNames -underBinder -merge x4
  have h4 : Keeps s x4 := Keeps.when h3 (fun _ h5 => Keeps.sub h5)
  try clear_value x4
  exact Keeps.when h4 (fun _ h6 => Keeps.add h6)

theorem Keeps.mapWriteBack {s t : State} {a1 : MapTag} {a2 : Nat} (h : Keeps s t) :
    Keeps s (State.mapWriteBack t a1 a2) := by
  unfold State.mapWriteBack
  extract_lets +onlyGivenNames -underBinder -merge x1 x2 x3
  have h3 : Keeps s x3 := Keeps.upd h
  try clear_value x3
  split
  · exact h3
  · exact Keeps.postMa h3

theorem Keeps.mapFill {s t : State} {a1 : MapTag} {a2 : Nat} (h : Keeps s t) :
    Keeps s (State.mapFill t a1 a2) := by
  unfold State.mapFill
  refine Keeps.ite (fun _ => ?_) (fun _ => ?_)
  · exact h
  · extract_lets +onlyGivenNames -underBinder -merge x1
    extract_lets +onlyGivenNames -underBinder -merge x2
    have h2 : Keeps s x2 := by
      unfold x2
      refine Keeps.ite (fun _ => ?_) (fun _ => ?_)
      · exact h
      · split
        · rename_i e3_0
          have h3 : Keeps s _ := Keeps.eq2 e3_0 (Keeps.draw h)
          split
          · exact h3
          · extract_lets +onlyGivenNames -underBinder -merge x4
            have h4 : Keeps s x4 := Keeps.ite (fun _ => Keeps.mapWriteBack h3) (fun _ => h3)
            try clear_value x4
            exact Keeps.upd h4
    try clear_value x2
    exact Keeps.upd h2

theorem Keeps.mapTouch {s t : State} {a1 : MapTag} {a2 : Nat} (h : Keeps s t) :
    Keeps s (State.mapTouch t a1 a2) := by
  unfold State.mapTouch
  extract_lets +onlyGivenNames -underBinder -merge x1
  have h1 : Keeps s x1 := by
    unfold x1
    refine Keeps.ite (fun _ => ?_) (fun _ => ?_)
    · exact h
    · split
      · exact Keeps.mapFill h
      · exact Keeps.mapFill (Keeps.postMa h)
  try clear_value x1
  exact Keeps.ite (fun _ => Keeps.upd h1) (fun _ => h1)

theorem Keeps.setPme {s t : State} {a1 : Nat} {a2 : Pme} {a3 : Nat} (h : Keeps s t) :
    Keeps s (State.setPme t a1 a2 a3) := by
  unfold State.setPme
  exact Keeps.putPme (Keeps.mapTouch h)

theorem Keeps.setTwin {s t : State} {a1 : Nat} {a2 : Twin} {a3 : Nat} (h : Keeps s t) :
    Keeps s (State.setTwin t a1 a2 a3) := by
  unfold State.setTwin
  exact Keeps.putTwin (Keeps.mapTouch h)

theorem Keeps.unlose {s t : State} {a1 : Nat} (h : Keeps s t) :
    Keeps s (State.unlose t a1) := by
  unfold State.unlose
  exact Keeps.upd h

theorem Keeps.noteLost {s t : State} {a1 : Nat} (h : Keeps s t) :
    Keeps s (State.noteLost t a1) := by
  unfold State.noteLost
  extract_lets +onlyGivenNames -underBinder -merge x1
  have h1 : Keeps s x1 := Keeps.ite (fun _ => Keeps.bump h) (fun _ => Keeps.bump h)
  try clear_value x1
  exact Keeps.record (Keeps.set h1)

theorem Keeps.putHall {s t : State} {a1 a2 : Nat} {a3 : Bytes} {a4 : Bool} (h : Keeps s t) :
    Keeps s (State.putHall t a1 a2 a3 a4) := by
  unfold State.putHall
  extract_lets +onlyGivenNames -underBinder -merge x1
  split
  · exact Keeps.putMa h

theorem Keeps.putPage {s t : State} {a1 : Nat} {a2 : List (Bytes × Bool)} (h : Keeps s t) :
    Keeps s (State.putPage t a1 a2) := by
  unfold State.putPage
  exact Keeps.foldl h (fun _ _ h1 => Keeps.putHall h1)

theorem Keeps.putGranules {s t : State} {a1 : Nat} {a2 : Bytes} (h : Keeps s t) :
    Keeps s (State.putGranules t a1 a2) := by
  unfold State.putGranules
  exact Keeps.foldl h (fun _ _ h1 => Keeps.putMa h1)

theorem Keeps.undrop {s t : State} {a1 : Nat → Bool} (h : Keeps s t) :
    Keeps s (State.undrop t a1) := by
  unfold State.undrop
  extract_lets +onlyGivenNames -underBinder -merge x1
  exact Keeps.wr (Keeps.upd h)

theorem Keeps.dropLine {s t : State} {a1 : Nat} (h : Keeps s t) :
    Keeps s (State.dropLine t a1) := by
  unfold State.dropLine
  refine Keeps.ite (fun _ => ?_) (fun _ => ?_)
  · exact h
  · refine Keeps.ite (fun _ => ?_) (fun _ => ?_)
    · exact Keeps.setPme (Keeps.bump h)
    · extract_lets +onlyGivenNames -underBinder -merge x1
      exact Keeps.wr (Keeps.upd h)

theorem Keeps.releaseStore {s t : State} {a1 : Nat} (h : Keeps s t) :
    Keeps s (State.releaseStore t a1) := by
  unfold State.releaseStore
  extract_lets +onlyGivenNames -underBinder -merge x1
  refine Keeps.ite (fun _ => ?_) (fun _ => ?_)
  · exact h
  · refine Keeps.ite (fun _ => ?_) (fun _ => ?_)
    · exact Keeps.freeFrame h
    · refine Keeps.ite (fun _ => ?_) (fun _ => ?_)
      · extract_lets +onlyGivenNames -underBinder -merge x2
        exact Keeps.ite (fun _ => Keeps.setTwin (Keeps.releaseRun h)) (fun _ => Keeps.setTwin h)
      · exact Keeps.releaseRun h

theorem Keeps.zeroPage {s t : State} {a1 : Nat} (h : Keeps s t) :
    Keeps s (State.zeroPage t a1) := by
  unfold State.zeroPage
  extract_lets +onlyGivenNames -underBinder -merge x1
  have h1 : Keeps s x1 := Keeps.unlose (Keeps.releaseStore h)
  try clear_value x1
  exact Keeps.undrop (Keeps.setPme h1)

theorem Keeps.zeroUnit {s t : State} {a1 : Nat} (h : Keeps s t) :
    Keeps s (State.zeroUnit t a1) := by
  unfold State.zeroUnit
  extract_lets +onlyGivenNames -underBinder -merge x1 x2 x3 x4
  have h4 : Keeps s x4 := Keeps.forEach h (fun _ _ h5 => Keeps.zeroPage h5)
  try clear_value x4
  refine Keeps.ite (fun _ => ?_) (fun _ => ?_)
  · exact h4
  · extract_lets +onlyGivenNames -underBinder -merge x7
    extract_lets +onlyGivenNames -underBinder -merge x8
    have h8 : Keeps s x8 := Keeps.add (Keeps.sub h4)
    try clear_value x8
    extract_lets +onlyGivenNames -underBinder -merge x9 x10
    have h10 : Keeps s x10 := Keeps.upd h8
    try clear_value x10
    exact Keeps.upd h10

theorem Keeps.unbusy {s t : State} {a1 : Nat} (h : Keeps s t) :
    Keeps s (State.unbusy t a1) := by
  unfold State.unbusy
  exact Keeps.upd h

theorem Keeps.pageTouch {s t : State} {a1 a2 : Nat} (h : Keeps s t) :
    Keeps s (State.pageTouch t a1 a2) := by
  unfold State.pageTouch
  extract_lets +onlyGivenNames -underBinder -merge x1
  have h1 : Keeps s x1 := Keeps.mapTouch h
  try clear_value x1
  exact Keeps.when h1 (fun _ h2 => Keeps.mapTouch h2)

theorem Keeps.ageZero {s t : State} {a1 : Nat} (h : Keeps s t) :
    Keeps s (State.ageZero t a1) := by
  unfold State.ageZero
  exact Keeps.ite (fun _ => Keeps.setPme h) (fun _ => h)

theorem Keeps.onLd {s t : State} {a1 : Nat} {a2 : LdSt → LdSt} (h : Keeps s t) :
    Keeps s (State.onLd t a1 a2) := by
  unfold State.onLd
  exact Keeps.upd h

theorem Keeps.event {s t : State} {a1 a2 : Nat} {a3 : EventKind} {a4 a5 a6 : Nat} (h : Keeps s t) :
    Keeps s (State.event t a1 a2 a3 a4 a5 a6) := by
  unfold State.event
  extract_lets +onlyGivenNames -underBinder -merge x1
  exact Keeps.onLd h

theorem Keeps.moduleEvent {s t : State} {a1 : Nat} (h : Keeps s t) :
    Keeps s (State.moduleEvent t a1) := by
  unfold State.moduleEvent
  exact Keeps.forEach h (fun _ _ h1 => Keeps.event h1)

theorem Keeps.failEvent {s t : State} {a1 a2 a3 a4 : Nat} (h : Keeps s t) :
    Keeps s (State.failEvent t a1 a2 a3 a4) := by
  unfold State.failEvent
  split
  · exact h
  · exact Keeps.ite (fun _ => Keeps.event h) (fun _ => h)

theorem Keeps.onGal {s t : State} {a1 : Nat} {a2 : GalSt → GalSt} (h : Keeps s t) :
    Keeps s (State.onGal t a1 a2) := by
  unfold State.onGal
  exact Keeps.upd h

theorem Keeps.treadFail {s t : State} {a1 a2 a3 : Nat} {a4 : Bool} {a5 : TreadErr} (h : Keeps s t) :
    Keeps s (State.treadFail t a1 a2 a3 a4 a5) := by
  unfold State.treadFail
  extract_lets +onlyGivenNames -underBinder -merge x1
  have h1 : Keeps s x1 := Keeps.bump h
  try clear_value x1
  extract_lets +onlyGivenNames -underBinder -merge x2
  have h2 : Keeps s x2 := Keeps.wr h1
  try clear_value x2
  extract_lets +onlyGivenNames -underBinder -merge x3
  have h3 : Keeps s x3 := Keeps.wr h2
  try clear_value x3
  extract_lets +onlyGivenNames -underBinder -merge x4
  have h4 : Keeps s x4 := Keeps.wr h3
  try clear_value x4
  extract_lets +onlyGivenNames -underBinder -merge x5
  have h5 : Keeps s x5 := Keeps.wr h4
  try clear_value x5
  extract_lets +onlyGivenNames -underBinder -merge x6
  have h6 : Keeps s x6 := Keeps.wr h5
  try clear_value x6
  exact Keeps.record h6

theorem Keeps.countDec {s t : State} {a1 a2 : Nat} (h : Keeps s t) :
    Keeps s (State.countDec t a1 a2) := by
  unfold State.countDec
  exact Keeps.counts (Keeps.bump h)

theorem Keeps.countDecode {s t : State} {a1 : Nat} {a2 : Run} {a3 : Nat} {a4 : BlockRes} (h : Keeps s t) :
    Keeps s (State.countDecode t a1 a2 a3 a4) := by
  unfold State.countDecode
  extract_lets +onlyGivenNames -underBinder -merge x1
  refine Keeps.ite (fun _ => ?_) (fun _ => ?_)
  · exact h
  · split
    · exact Keeps.countDec h
    · exact h
    · exact Keeps.treadFail (Keeps.countDec h)

theorem Keeps.takeBlock {s t : State} {a1 : Run} {a2 : Nat} (h : Keeps s t) :
    Keeps s (State.takeBlock t a1 a2).2 := by
  unfold State.takeBlock
  extract_lets +onlyGivenNames -underBinder -merge x1
  exact Keeps.pr2 (Keeps.countDecode h)

theorem Keeps.shareBlock {s t : State} {a1 a2 : Nat} {a3 : BlockRes} (h : Keeps s t) :
    Keeps s (State.shareBlock t a1 a2 a3) := by
  unfold State.shareBlock
  extract_lets +onlyGivenNames -underBinder -merge x1
  exact Keeps.upd h

theorem Keeps.fatal {s t : State} {a1 a2 a3 a4 a5 a6 : Nat} (h : Keeps s t) :
    Keeps s (State.fatal t a1 a2 a3 a4 a5 a6) := by
  unfold State.fatal
  exact Keeps.record (Keeps.set (Keeps.set h))

theorem Keeps.inject {s t : State} {a1 : Flight} (h : Keeps s t) :
    Keeps s (State.inject t a1) := by
  unfold State.inject
  exact Keeps.upd h

theorem Keeps.setPkt {s t : State} {a1 : Pkt} (h : Keeps s t) :
    Keeps s (State.setPkt t a1) := by
  unfold State.setPkt
  exact Keeps.upd h

theorem Keeps.dropPkt {s t : State} {a1 : Flight} (h : Keeps s t) :
    Keeps s (State.dropPkt t a1) := by
  unfold State.dropPkt
  exact Keeps.upd h

theorem Keeps.detour {s t : State} {a1 : Pkt} {a2 : Nat} (h : Keeps s t) :
    Keeps s (State.detour t a1 a2).2 := by
  unfold State.detour
  extract_lets +onlyGivenNames -underBinder -merge x1
  have h1 : Keeps s x1 := Keeps.counts (Keeps.bump h)
  try clear_value x1
  extract_lets +onlyGivenNames -underBinder -merge x2 x3
  have h3 : Keeps s x3 := Keeps.ite (fun _ => h1) (fun _ => Keeps.upd h1)
  try clear_value x3
  exact Keeps.pr2 h3

theorem Keeps.sunk {s t : State} {a1 a2 : Nat} (h : Keeps s t) :
    Keeps s (State.sunk t a1 a2) := by
  unfold State.sunk
  extract_lets +onlyGivenNames -underBinder -merge x1
  have h1 : Keeps s x1 := Keeps.bump (Keeps.wr h)
  try clear_value x1
  exact Keeps.counts (Keeps.set (Keeps.bump h1))

theorem Keeps.sendErr {s t : State} {a1 : Pkt} (h : Keeps s t) :
    Keeps s (State.sendErr t a1) := by
  unfold State.sendErr
  exact Keeps.ite (fun _ => Keeps.upd h) (fun _ => Keeps.upd h)

theorem Keeps.sink {s t : State} {a1 : Pkt} (h : Keeps s t) :
    Keeps s (State.sink t a1) := by
  unfold State.sink
  extract_lets +onlyGivenNames -underBinder -merge x1
  have h1 : Keeps s x1 := Keeps.sunk (Keeps.dropPkt h)
  try clear_value x1
  exact Keeps.sendErr (Keeps.upd h1)

theorem Keeps.hopOver {s t : State} {a1 : Pkt} {a2 : Nat} (h : Keeps s t) :
    KeepsO s (fun p => p.2) (State.hopOver t a1 a2) := by
  unfold State.hopOver
  refine KeepsO.ite (fun _ => ?_) (fun _ => ?_)
  · exact KeepsO.some (Keeps.pr2 h)
  · refine KeepsO.ite (fun _ => ?_) (fun _ => ?_)
    · split
      · rename_i e1_0
        have h1 : Keeps s _ := Keeps.eq2 e1_0 (Keeps.detour h)
        exact KeepsO.some (Keeps.pr2 h1)
    · exact KeepsO.none

theorem Keeps.travel {s t : State} {a0 : Nat} {a2 : Pkt} (h : Keeps s t) :
    Keeps s (State.travel a0 t a2).2 := by
  induction a0 generalizing t a2 with
  | zero => exact h
  | succ _ ih =>
    rw [State.travel.eq_2]
    split
    · exact Keeps.pr2 h
    · split
      · exact Keeps.pr2 (Keeps.sink h)
      · split
        · extract_lets +onlyGivenNames -underBinder -merge x1
          exact Keeps.pr2 (Keeps.setPkt h)
        · split
          · exact Keeps.pr2 (Keeps.sink h)
          · rename_i e2_0
            have h2 := KeepsO.use (Keeps.hopOver h) e2_0
            exact ih (Keeps.setPkt h2)

theorem Keeps.bring {s t : State} {a1 : Flight} (h : Keeps s t) :
    Keeps s (State.bring t a1).2 := by
  unfold State.bring
  split
  · exact Keeps.pr2 h
  · split
    · exact Keeps.pr2 h
    · split
      · rename_i e1_0
        have h1 : Keeps s _ := Keeps.eq2 e1_0 (Keeps.travel h)
        exact Keeps.pr2 h1

theorem Keeps.pass {s t : State} {a1 : Pkt} (h : Keeps s t) :
    Keeps s (State.pass t a1) := by
  unfold State.pass
  extract_lets +onlyGivenNames -underBinder -merge x1 x2 x3
  have h3 : Keeps s x3 := Keeps.ite (fun _ => h) (fun _ => Keeps.upd h)
  try clear_value x3
  exact Keeps.travel h3

theorem Keeps.torus {s t : State} (h : Keeps s t) :
    Keeps s (State.torus t) := by
  unfold State.torus
  refine Keeps.ite (fun _ => ?_) (fun _ => ?_)
  · exact h
  · extract_lets +onlyGivenNames -underBinder -merge x1
    exact Keeps.forEach h (fun _ _ h2 => Keeps.pass h2)

theorem Keeps.showOld {s t : State} {a1 : Nat} (h : Keeps s t) :
    Keeps s (State.showOld t a1) := by
  unfold State.showOld
  exact Keeps.wr (Keeps.wr (Keeps.wr (Keeps.wr h)))

theorem Keeps.onDom {s t : State} {a1 : Nat} {a2 : DomSt → DomSt} (h : Keeps s t) :
    Keeps s (State.onDom t a1 a2) := by
  unfold State.onDom
  extract_lets +onlyGivenNames -underBinder -merge x1
  exact Keeps.wr (Keeps.upd h)

theorem Keeps.wakeDom {s t : State} {a1 : Nat} (h : Keeps s t) :
    Keeps s (State.wakeDom t a1) := by
  unfold State.wakeDom
  refine Keeps.ite (fun _ => ?_) (fun _ => ?_)
  · extract_lets +onlyGivenNames -underBinder -merge x1
    have h1 : Keeps s x1 := Keeps.counts (Keeps.clear (Keeps.wr h))
    try clear_value x1
    exact Keeps.onDom h1
  · exact h

theorem Keeps.blkDecode {s t : State} {a1 a2 a3 : Nat} {a4 : Bytes} (h : Keeps s t) :
    Keeps s (State.blkDecode t a1 a2 a3 a4) := by
  unfold State.blkDecode
  extract_lets +onlyGivenNames -underBinder -merge x1
  split
  · extract_lets +onlyGivenNames -underBinder -merge x2
    extract_lets +onlyGivenNames -underBinder -merge x3 x4
    refine Keeps.ite (fun _ => ?_) (fun _ => ?_)
    · exact h
    · extract_lets +onlyGivenNames -underBinder -merge x5
      have h5 : Keeps s x5 := Keeps.countDec h
      try clear_value x5
      split
      · exact Keeps.shareBlock h5
      · exact Keeps.shareBlock (Keeps.treadFail h5)

theorem Keeps.holdBlk {s t : State} {a1 a2 a3 : Nat} {a4 : Bytes} (h : Keeps s t) :
    Keeps s (State.holdBlk t a1 a2 a3 a4) := by
  unfold State.holdBlk
  exact Keeps.ite (fun _ => Keeps.wakeDom h) (fun _ => Keeps.ite (fun _ => Keeps.wakeDom (Keeps.onDom h)) (fun _ => h))

theorem Keeps.holdAt {s t : State} {a1 : Nat} {a2 : Flight} (h : Keeps s t) :
    Keeps s (State.holdAt t a1 a2) := by
  unfold State.holdAt
  exact Keeps.wakeDom (Keeps.onDom h)

theorem Keeps.send {s t : State} {a1 : Flight} (h : Keeps s t) :
    Keeps s (State.send t a1) := by
  unfold State.send
  exact Keeps.inject (Keeps.upd h)

theorem Keeps.request {s t : State} {a1 : Flight} {a2 a3 a4 : Nat} (h : Keeps s t) :
    Keeps s (State.request t a1 a2 a3 a4) := by
  unfold State.request
  extract_lets +onlyGivenNames -underBinder -merge x1
  exact Keeps.send (Keeps.txnBegin h)

theorem Keeps.unsend {s t : State} {a1 : Flight} (h : Keeps s t) :
    Keeps s (State.unsend t a1) := by
  unfold State.unsend
  exact Keeps.dropPkt (Keeps.upd h)

theorem Keeps.releaseHeld {s t : State} {a1 : Nat} (h : Keeps s t) :
    Keeps s (State.releaseHeld t a1) := by
  unfold State.releaseHeld
  extract_lets +onlyGivenNames -underBinder -merge x1 x2 x3
  have h3 : Keeps s x3 := Keeps.onDom h
  try clear_value x3
  extract_lets +onlyGivenNames -underBinder -merge x4
  have h4 : Keeps s x4 := Keeps.forEach h3 (fun _ _ h5 => Keeps.blkDecode h5)
  try clear_value x4
  extract_lets +onlyGivenNames -underBinder -merge x7
  exact Keeps.upd h4

theorem Keeps.domGo {s t : State} {a1 : Nat} (h : Keeps s t) :
    Keeps s (State.domGo t a1) := by
  unfold State.domGo
  exact Keeps.releaseHeld (Keeps.wr h)

theorem Keeps.endDrain {s t : State} {a1 : Nat} (h : Keeps s t) :
    Keeps s (State.endDrain t a1) := by
  unfold State.endDrain
  refine Keeps.ite (fun _ => ?_) (fun _ => ?_)
  · extract_lets +onlyGivenNames -underBinder -merge x1
    have h1 : Keeps s x1 := Keeps.onDom (Keeps.clear h)
    try clear_value x1
    extract_lets +onlyGivenNames -underBinder -merge x2
    have h2 : Keeps s x2 := Keeps.when h1 (fun _ h3 => Keeps.onGal h3)
    try clear_value x2
    exact Keeps.domGo h2
  · exact h

theorem Keeps.landed {s t : State} {a1 : Flight} (h : Keeps s t) :
    Keeps s (State.landed t a1) := by
  unfold State.landed
  extract_lets +onlyGivenNames -underBinder -merge x1
  have h1 : Keeps s x1 := Keeps.unsend h
  try clear_value x1
  exact Keeps.upd h1

theorem Keeps.arrive {s t : State} {a1 : Flight} {a2 : State → State} (h : Keeps s t)
    (k2 : ∀ y0, Keeps s y0 → Keeps s (a2 y0)) :
    Keeps s (State.arrive t a1 a2) := by
  unfold State.arrive
  split
  · rename_i e1_0
    have h1 : Keeps s _ := Keeps.eq2 e1_0 (Keeps.bring h)
    refine Keeps.ite (fun _ => ?_) (fun _ => ?_)
    · exact h1
    · split
      · exact k2 _ (Keeps.landed h1)
      · exact Keeps.ite (fun _ => Keeps.ite (fun _ => Keeps.holdAt (Keeps.landed h1)) (fun _ => h1)) (fun _ => k2 _ (Keeps.landed h1))

theorem Keeps.showLd {s t : State} {a1 : LdEntry} (h : Keeps s t) :
    Keeps s (State.showLd t a1) := by
  unfold State.showLd
  extract_lets +onlyGivenNames -underBinder -merge x1 x2 x3
  exact Keeps.wr (Keeps.wr h)

theorem Keeps.showPort {s t : State} {a1 : Nat} (h : Keeps s t) :
    Keeps s (State.showPort t a1) := by
  unfold State.showPort
  exact Keeps.forEach h (fun _ _ h1 => Keeps.showLd h1)

end Sys2Proof.Machine
end

