-- ==== Sys2Proof/Laws/KeepsFloorToCwkTx.lean ====
section
/-!
SUPPORT. What the operations and meanings of Floor, PageOps, CwkTx keep (Laws/Keeps).
-/

namespace Sys2Proof.Machine

theorem Keeps.showTarget {s t : State} (h : Keeps s t) :
    Keeps s (State.showTarget t) := by
  unfold State.showTarget
  extract_lets +onlyGivenNames -underBinder -merge x1 x2 x3 x4
  have h4 : Keeps s x4 := Keeps.wr h
  try clear_value x4
  extract_lets +onlyGivenNames -underBinder -merge x5
  have h5 : Keeps s x5 := Keeps.wr h4
  try clear_value x5
  extract_lets +onlyGivenNames -underBinder -merge x6
  have h6 : Keeps s x6 := Keeps.wr h5
  try clear_value x6
  extract_lets +onlyGivenNames -underBinder -merge x7
  have h7 : Keeps s x7 := Keeps.wr h6
  try clear_value x7
  exact Keeps.wr h7

theorem Keeps.showCap {s t : State} (h : Keeps s t) :
    Keeps s (State.showCap t) := by
  unfold State.showCap
  extract_lets +onlyGivenNames -underBinder -merge x1 x2
  have h2 : Keeps s x2 := Keeps.ite (fun _ => Keeps.set h) (fun _ => h)
  try clear_value x2
  extract_lets +onlyGivenNames -underBinder -merge x3
  have h3 : Keeps s x3 := Keeps.wr h2
  try clear_value x3
  exact Keeps.wr h3

theorem Keeps.setFloor {s t : State} {a1 : Nat} (h : Keeps s t) :
    Keeps s (State.setFloor t a1) := by
  unfold State.setFloor
  refine Keeps.ite (fun _ => ?_) (fun _ => ?_)
  · exact h
  · extract_lets +onlyGivenNames -underBinder -merge x1
    have h1 : Keeps s x1 := Keeps.counts (Keeps.set (Keeps.wr h))
    try clear_value x1
    exact Keeps.ite (fun _ => Keeps.clear h1) (fun _ => h1)

theorem Keeps.exitSteps {s t : State} {a1 : Nat} (h : Keeps s t) :
    Keeps s (State.exitSteps t a1) := by
  unfold State.exitSteps
  split
  · extract_lets +onlyGivenNames -underBinder -merge x1
    exact Keeps.upd h
  · exact Keeps.forEach h (fun _ _ h2 => Keeps.wakeDom (Keeps.endDrain h2))
  · exact Keeps.forEach h (fun _ _ h4 => Keeps.ite (fun _ => Keeps.wr h4) (fun _ => h4))
  · exact h

theorem Keeps.riseN {s t : State} {a0 : Nat} (h : Keeps s t) :
    Keeps s (State.riseN a0 t) := by
  induction a0 generalizing t with
  | zero => exact h
  | succ _ ih =>
    rw [State.riseN.eq_2]
    refine Keeps.ite (fun _ => ?_) (fun _ => ?_)
    · exact Keeps.ite (fun _ => h) (fun _ => Keeps.clear h)
    · extract_lets +onlyGivenNames -underBinder -merge x1
      have h1 : Keeps s x1 := Keeps.clear (Keeps.exitSteps h)
      try clear_value x1
      refine Keeps.ite (fun _ => ?_) (fun _ => ?_)
      · exact Keeps.set (Keeps.upd h1)
      · extract_lets +onlyGivenNames -underBinder -merge x2
        extract_lets +onlyGivenNames -underBinder -merge x3
        have h3 : Keeps s x3 := Keeps.ite (fun _ => Keeps.upd h1) (fun _ => h1)
        try clear_value x3
        extract_lets +onlyGivenNames -underBinder -merge x4
        have h4 : Keeps s x4 := Keeps.ite (fun _ => h3) (fun _ => Keeps.setFloor h3)
        try clear_value x4
        exact ih (Keeps.upd h4)

theorem Keeps.rise {s t : State} (h : Keeps s t) :
    Keeps s (State.rise t) := by
  unfold State.rise
  exact Keeps.riseN h

theorem Keeps.showLoft {s t : State} (h : Keeps s t) :
    Keeps s (State.showLoft t) := by
  unfold State.showLoft
  exact Keeps.forEach h (fun _ _ h1 => by
    extract_lets +onlyGivenNames -underBinder -merge x3 x4
    have h4 : Keeps s x4 := Keeps.wr h1
    try clear_value x4
    refine Keeps.ite (fun _ => ?_) (fun _ => ?_)
    · split
      · exact h4
      · exact Keeps.forEach h4 (fun _ _ h5 => Keeps.rouse h5)
    · exact h4)

theorem Keeps.showSpanTol {s t : State} (h : Keeps s t) :
    Keeps s (State.showSpanTol t) := by
  unfold State.showSpanTol
  exact Keeps.wr h

theorem Keeps.retarget {s t : State} (h : Keeps s t) :
    Keeps s (State.retarget t) := by
  unfold State.retarget
  exact Keeps.rise (Keeps.showLoft (Keeps.showCap (Keeps.showTarget (Keeps.showSpanTol h))))

theorem Keeps.showTols {s t : State} (h : Keeps s t) :
    Keeps s (State.showTols t) := by
  unfold State.showTols
  exact Keeps.retarget (Keeps.forEach h (fun _ _ h1 => Keeps.showLd h1))

theorem Keeps.spendGranules {s t : State} {a1 a2 : Nat} (h : Keeps s t) :
    Keeps s (State.spendGranules t a1 a2) := by
  unfold State.spendGranules
  exact Keeps.forEach h (fun _ _ h1 => Keeps.spendCause h1)

theorem Keeps.takeLine {s t : State} {a1 a2 : Nat} {a3 : Option (Bytes × Nat)} {a4 : Bytes × Bool} (h : Keeps s t) :
    Keeps s (State.takeLine t a1 a2 a3 a4).2 := by
  unfold State.takeLine
  extract_lets +onlyGivenNames -underBinder -merge x1 x2 x3
  split
  · exact Keeps.pr2 (Keeps.failEvent (Keeps.noteLost h))
  · split
    · exact Keeps.pr2 (Keeps.failEvent h)
    · split
      · exact Keeps.pr2 (Keeps.failEvent h)
      · split
        · exact Keeps.pr2 h
        · extract_lets +onlyGivenNames -underBinder -merge x4
          split
          · exact Keeps.pr2 (Keeps.failEvent (Keeps.emptyUse h))
          · split
            · exact Keeps.pr2 (Keeps.failEvent (Keeps.integFail h))
            · split
              · split
                · exact Keeps.pr2 h
                · exact Keeps.pr2 (Keeps.failEvent h)
              · split
                · split
                  · extract_lets +onlyGivenNames -underBinder -merge x5
                    have h5 : Keeps s x5 := Keeps.spendCause h
                    try clear_value x5
                    split
                    · exact Keeps.pr2 h5
                    · exact Keeps.pr2 (Keeps.failEvent h5)
                · extract_lets +onlyGivenNames -underBinder -merge x6
                  split
                  · rename_i e7_0
                    have h7 : Keeps s _ := Keeps.eq2 e7_0 (Keeps.takeBlock h)
                    extract_lets +onlyGivenNames -underBinder -merge x8
                    have h8 : Keeps s x8 := Keeps.shareBlock (Keeps.spendGranules h7)
                    try clear_value x8
                    split
                    · split
                      · exact Keeps.pr2 h8
                      · exact Keeps.pr2 (Keeps.failEvent h8)

theorem Keeps.postRead {s t : State} {a1 a2 : Nat} (h : Keeps s t) :
    Keeps s (State.postRead t a1 a2) := by
  unfold State.postRead
  exact Keeps.forEach h (fun _ _ h1 => Keeps.postMa h1)

theorem Keeps.rouseAll {s t : State} {a1 : List (Nat × Nat)} (h : Keeps s t) :
    Keeps s (State.rouseAll t a1) := by
  unfold State.rouseAll
  exact Keeps.forEach h (fun _ _ h1 => Keeps.rouse h1)

theorem Keeps.promoLines {s t : State} {a1 : Nat} {a2 : Option Nat} {a3 : Bytes × Bool} (h : Keeps s t) :
    Keeps s (State.promoLines t a1 a2 a3).2 := by
  unfold State.promoLines
  extract_lets +onlyGivenNames -underBinder -merge x1 x2 x3 x4
  have h4 : Keeps s x4 := Keeps.when h (fun _ h5 => Keeps.integFail h5)
  try clear_value x4
  split
  · rename_i e11_0
    have h11 : Keeps s _ := Keeps.eq2 e11_0 (Keeps.foldl2 (Keeps.pr2 h4) (fun _ _ h6 => by
        beta_reduce
        split
        · rename_i e8_0
          have h8 : Keeps s _ := Keeps.eq2 e8_0 (Keeps.takeBlock h6)
          extract_lets +onlyGivenNames -underBinder -merge x9
          have h9 : Keeps s x9 := Keeps.spendGranules h8
          try clear_value x9
          extract_lets +onlyGivenNames -underBinder -merge x10
          exact Keeps.pr2 h9))
    extract_lets +onlyGivenNames -underBinder -merge x12
    exact Keeps.pr2 (Keeps.undrop h11)

theorem Keeps.promote {s t : State} {a1 a2 : Nat} {a3 : Bool} {a4 : Option Nat} {a5 : Bytes × Bool} {a6 : Nat} (h : Keeps s t) :
    Keeps s (State.promote t a1 a2 a3 a4 a5 a6) := by
  unfold State.promote
  split
  · rename_i e1_0
    have h1 : Keeps s _ := Keeps.eq2 e1_0 (Keeps.promoLines h)
    extract_lets +onlyGivenNames -underBinder -merge x2
    have h2 : Keeps s x2 := Keeps.releaseStore h1
    try clear_value x2
    extract_lets +onlyGivenNames -underBinder -merge x3 x4
    have h4 : Keeps s x4 := Keeps.setPme h2
    try clear_value x4
    exact Keeps.putPage h4

theorem Keeps.noteWrite {s t : State} {a1 : Nat} (h : Keeps s t) :
    Keeps s (State.noteWrite t a1) := by
  unfold State.noteWrite
  extract_lets +onlyGivenNames -underBinder -merge x1
  exact Keeps.upd h

theorem Keeps.writeHall {s t : State} {a1 : Nat} {a2 : Line} {a3 : BitVec 64} {a4 : Bool} {a5 : Nat} (h : Keeps s t) :
    Keeps s (State.writeHall t a1 a2 a3 a4 a5) := by
  unfold State.writeHall
  extract_lets +onlyGivenNames -underBinder -merge x1 x2
  have h2 : Keeps s x2 := Keeps.ageZero (Keeps.noteWrite h)
  try clear_value x2
  extract_lets +onlyGivenNames -underBinder -merge x3 x4
  have h4 : Keeps s x4 := Keeps.ite (fun _ => h2) (fun _ => Keeps.setPme h2)
  try clear_value x4
  extract_lets +onlyGivenNames -underBinder -merge x5
  have h5 : Keeps s x5 := Keeps.postMa h4
  try clear_value x5
  refine Keeps.ite (fun _ => ?_) (fun _ => ?_)
  · exact Keeps.undrop (Keeps.putHall h5)
  · refine Keeps.ite (fun _ => ?_) (fun _ => ?_)
    · exact h5
    · split
      · exact Keeps.ite (fun _ => h5) (fun _ => Keeps.putHall h5)

theorem Keeps.backPage {s t : State} {a1 a2 a3 a4 : Nat} (h : Keeps s t) :
    Keeps s (State.backPage t a1 a2 a3 a4) := by
  unfold State.backPage
  extract_lets +onlyGivenNames -underBinder -merge x1 x2
  have h2 : Keeps s x2 := Keeps.setPme h
  try clear_value x2
  exact Keeps.putPage h2

theorem Keeps.frameNow {s t : State} {a1 : Nat} (h : Keeps s t) : KeepsO s (fun p => p.2) (State.frameNow t a1) := by
  unfold State.frameNow
  split
  · exact KeepsO.some (Keeps.pr2 (Keeps.takeFrame h))
  · split
    · exact KeepsO.none
    · rename_i e1_0
      have h1 := KeepsO.use (KeepsO.findSome fun _ => Keeps.grantNow h) e1_0
      split
      · exact KeepsO.some (Keeps.pr2 (Keeps.trim (Keeps.takeFrame h1)))
      · exact KeepsO.none

theorem Keeps.markReq {s t : State} {a1 : MapReq} {a2 : ReqSt} (h : Keeps s t) :
    Keeps s (State.markReq t a1 a2) := by
  unfold State.markReq
  extract_lets +onlyGivenNames -underBinder -merge x1
  exact Keeps.upd h

theorem Keeps.setReq {s t : State} {a1 : MapReq} {a2 : ReqSt} (h : Keeps s t) :
    Keeps s (State.setReq t a1 a2) := by
  unfold State.setReq
  extract_lets +onlyGivenNames -underBinder -merge x1
  have h1 : Keeps s x1 := Keeps.markReq h
  try clear_value x1
  exact Keeps.ite (fun _ => Keeps.inject h1) (fun _ => h1)

theorem Keeps.dropReq {s t : State} {a1 : MapReq} (h : Keeps s t) :
    Keeps s (State.dropReq t a1) := by
  unfold State.dropReq
  extract_lets +onlyGivenNames -underBinder -merge x1
  exact Keeps.upd h

theorem Keeps.parkReq {s t : State} {a1 : MapReq} {a2 : ReqSt} (h : Keeps s t) :
    Keeps s (State.parkReq t a1 a2) := by
  unfold State.parkReq
  extract_lets +onlyGivenNames -underBinder -merge x1
  have h1 : Keeps s x1 := Keeps.dropReq h
  try clear_value x1
  exact Keeps.upd h1

theorem Keeps.wakeSlice {s t : State} {a1 : Nat} (h : Keeps s t) :
    Keeps s (State.wakeSlice t a1) := by
  unfold State.wakeSlice
  exact Keeps.wakeDom h

theorem Keeps.discardWrite {s t : State} {a1 : MapReq} (h : Keeps s t) :
    Keeps s (State.discardWrite t a1) := by
  unfold State.discardWrite
  exact Keeps.setReq (Keeps.failEvent (Keeps.emptyUse h))

theorem Keeps.writeWithFrame {s t : State} {a1 : MapReq} {a2 : Nat} (h : Keeps s t) :
    Keeps s (State.writeWithFrame t a1 a2) := by
  unfold State.writeWithFrame
  extract_lets +onlyGivenNames -underBinder -merge x1 x2
  refine Keeps.ite (fun _ => ?_) (fun _ => ?_)
  · exact Keeps.discardWrite h
  · extract_lets +onlyGivenNames -underBinder -merge x3
    have h3 : Keeps s x3 := Keeps.takeFrame h
    try clear_value x3
    refine Keeps.ite (fun _ => ?_) (fun _ => ?_)
    · exact Keeps.setReq (Keeps.writeHall (Keeps.backPage h3))
    · extract_lets +onlyGivenNames -underBinder -merge x4
      extract_lets +onlyGivenNames -underBinder -merge x5
      have h5 : Keeps s x5 := Keeps.forEach h3 (fun _ _ h6 => Keeps.postMa h6)
      try clear_value x5
      extract_lets +onlyGivenNames -underBinder -merge x8
      have h8 : Keeps s x8 := Keeps.onTxn h5
      try clear_value x8
      extract_lets +onlyGivenNames -underBinder -merge x9
      have h9 : Keeps s x9 := Keeps.counts h8
      try clear_value x9
      exact Keeps.setReq (Keeps.upd h9)

theorem Keeps.holdWrite {s t : State} {a1 : MapReq} (h : Keeps s t) :
    Keeps s (State.holdWrite t a1) := by
  unfold State.holdWrite
  extract_lets +onlyGivenNames -underBinder -merge x1
  have h1 : Keeps s x1 := Keeps.counts (Keeps.parkReq h)
  try clear_value x1
  exact Keeps.set (Keeps.bump (Keeps.add h1))

theorem Keeps.serveFrame {s t : State} {a1 : MapReq} (h : Keeps s t) :
    Keeps s (State.serveFrame t a1) := by
  unfold State.serveFrame
  extract_lets +onlyGivenNames -underBinder -merge x1
  split
  · exact Keeps.writeWithFrame h
  · exact Keeps.parkReq h
  · exact Keeps.parkReq (KeepsO.getD (Keeps.grantLater h) h)
  · exact Keeps.holdWrite h

theorem Keeps.serveWrite {s t : State} {a1 : MapReq} (h : Keeps s t) :
    Keeps s (State.serveWrite t a1) := by
  unfold State.serveWrite
  extract_lets +onlyGivenNames -underBinder -merge x1 x2
  exact Keeps.ite (fun _ => Keeps.setReq h) (fun _ => Keeps.ite (fun _ => Keeps.setReq (Keeps.noteLost h)) (fun _ => Keeps.ite (fun _ => Keeps.discardWrite h) (fun _ => Keeps.ite (fun _ => Keeps.setReq (Keeps.writeHall h)) (fun _ => Keeps.ite (fun _ => Keeps.setReq h) (fun _ => Keeps.serveFrame h)))))

theorem Keeps.sweepPage {s t : State} {a1 : Nat} (h : Keeps s t) :
    Keeps s (State.sweepPage t a1) := by
  unfold State.sweepPage
  extract_lets +onlyGivenNames -underBinder -merge x1
  exact Keeps.ite (fun _ => h) (fun _ => Keeps.setPme h)

theorem Keeps.startFill {s t : State} {a1 : MapTag} {a2 : Nat} (h : Keeps s t) :
    Keeps s (State.startFill t a1 a2) := by
  unfold State.startFill
  refine Keeps.ite (fun _ => ?_) (fun _ => ?_)
  · exact h
  · extract_lets +onlyGivenNames -underBinder -merge x1
    extract_lets +onlyGivenNames -underBinder -merge x2
    have h2 : Keeps s x2 := Keeps.upd h
    try clear_value x2
    split
    · exact h2
    · exact Keeps.postMa h2

theorem Keeps.lookupIn {s t : State} {a1 : MapReq} (h : Keeps s t) :
    Keeps s (State.lookupIn t a1) := by
  unfold State.lookupIn
  extract_lets +onlyGivenNames -underBinder -merge x1 x2 x3
  refine Keeps.ite (fun _ => ?_) (fun _ => ?_)
  · exact Keeps.sweepPage (Keeps.dropReq h)
  · refine Keeps.ite (fun _ => ?_) (fun _ => ?_)
    · exact Keeps.parkReq (Keeps.startFill (Keeps.counts h))
    · extract_lets +onlyGivenNames -underBinder -merge x4
      have h4 : Keeps s x4 := Keeps.onTxn (Keeps.counts h)
      try clear_value x4
      extract_lets +onlyGivenNames -underBinder -merge x5
      have h5 : Keeps s x5 := Keeps.when h4 (fun _ h6 => Keeps.mapTouch h6)
      try clear_value x5
      exact Keeps.ite (fun _ => Keeps.serveWrite h5) (fun _ => Keeps.setReq (Keeps.postRead (Keeps.ageZero h5)))

theorem Keeps.lookupNow {s t : State} {a1 : MapReq} (h : Keeps s t) :
    Keeps s (State.lookupNow t a1) := by
  unfold State.lookupNow
  extract_lets +onlyGivenNames -underBinder -merge x1 x2
  exact Keeps.ite (fun _ => Keeps.wakeDom h) (fun _ => Keeps.ite (fun _ => h) (fun _ => Keeps.ite (fun _ => Keeps.parkReq h) (fun _ => Keeps.ite (fun _ => h) (fun _ => Keeps.lookupIn h))))

theorem Keeps.lookup {s t : State} {a1 : MapReq} (h : Keeps s t) :
    Keeps s (State.lookup t a1) := by
  unfold State.lookup
  extract_lets +onlyGivenNames -underBinder -merge x1
  refine Keeps.ite (fun _ => ?_) (fun _ => ?_)
  · exact Keeps.during h (fun _ h2 => Keeps.lookupNow h2)
  · extract_lets +onlyGivenNames -underBinder -merge x3
    exact Keeps.ite (fun _ => h) (fun _ => Keeps.arrive h (fun _ h4 => Keeps.during h4 (fun _ h5 => Keeps.lookupNow h5)))

theorem Keeps.serveQueueN {s t : State} {a0 a2 : Nat} (h : Keeps s t) :
    Keeps s (State.serveQueueN a0 t a2) := by
  induction a0 generalizing t a2 with
  | zero => exact h
  | succ _ ih =>
    rw [State.serveQueueN.eq_2]
    split
    · exact h
    · exact Keeps.ite (fun _ => h) (fun _ => ih (Keeps.during h (fun _ h1 => Keeps.lookupIn h1)))

theorem Keeps.serveQueues {s t : State} (h : Keeps s t) :
    Keeps s (State.serveQueues t) := by
  unfold State.serveQueues
  exact Keeps.forEach h (fun _ _ h1 => Keeps.serveQueueN h1)

theorem Keeps.hurry {s t : State} {a1 a2 : Nat} {a3 : Bool} (h : Keeps s t) :
    Keeps s (State.hurry t a1 a2 a3) := by
  unfold State.hurry
  split
  · exact h
  · exact Keeps.ite (fun _ => Keeps.lookup h) (fun _ => h)

theorem Keeps.sendReq {s t : State} {a1 : MapReq} (h : Keeps s t) :
    Keeps s (State.sendReq t a1) := by
  unfold State.sendReq
  extract_lets +onlyGivenNames -underBinder -merge x1 x2
  have h2 : Keeps s x2 := Keeps.upd h
  try clear_value x2
  exact Keeps.ite (fun _ => Keeps.inject h2) (fun _ => h2)

theorem Keeps.promotionDone {s t : State} {a1 : Nat} {a2 : Bytes × Bool} (h : Keeps s t) :
    Keeps s (State.promotionDone t a1 a2) := by
  unfold State.promotionDone
  split
  · extract_lets +onlyGivenNames -underBinder -merge x1
    refine Keeps.ite (fun _ => ?_) (fun _ => ?_)
    · exact Keeps.forEach h (fun _ _ h2 => Keeps.wakeDom h2)
    · split
      · extract_lets +onlyGivenNames -underBinder -merge x4
        exact Keeps.serveQueues (Keeps.during h (fun _ h5 => Keeps.unbusy (Keeps.setReq (Keeps.writeHall (Keeps.promote h5)))))
      · exact Keeps.serveQueues (Keeps.unbusy (Keeps.promote h))
  · exact h

theorem Keeps.resumeHeld {s t : State} (h : Keeps s t) :
    Keeps s (State.resumeHeld t) := by
  unfold State.resumeHeld
  split
  · exact h
  · split
    · exact Keeps.serveQueues (Keeps.during (Keeps.sub h) (fun _ h1 => Keeps.writeWithFrame h1))
    · exact h

theorem Keeps.zeroDone {s t : State} {a1 : Nat} (h : Keeps s t) :
    Keeps s (State.zeroDone t a1) := by
  unfold State.zeroDone
  split
  · exact h
  · extract_lets +onlyGivenNames -underBinder -merge x1
    extract_lets +onlyGivenNames -underBinder -merge x2
    have h2 : Keeps s x2 := Keeps.upd h
    try clear_value x2
    extract_lets +onlyGivenNames -underBinder -merge x3
    have h3 : Keeps s x3 := Keeps.giveChunk (Keeps.zeroChunk h2)
    try clear_value x3
    extract_lets +onlyGivenNames -underBinder -merge x4
    have h4 : Keeps s x4 := Keeps.forEach h3 (fun _ _ h5 => Keeps.during h5 (fun _ h7 => Keeps.serveFrame h7))
    try clear_value x4
    exact Keeps.trim (Keeps.serveQueues h4)

theorem Keeps.expireHeld {s t : State} {a1 : MapReq} (h : Keeps s t) :
    Keeps s (State.expireHeld t a1) := by
  unfold State.expireHeld
  extract_lets +onlyGivenNames -underBinder -merge x1
  have h1 : Keeps s x1 := Keeps.set (Keeps.bump (Keeps.sub h))
  try clear_value x1
  extract_lets +onlyGivenNames -underBinder -merge x2
  have h2 : Keeps s x2 := Keeps.failEvent (Keeps.dropLine h1)
  try clear_value x2
  exact Keeps.serveQueues (Keeps.setReq h2)

theorem Keeps.poolRequest {s t : State} {a1 : Nat} {a2 : Bool} (h : Keeps s t) :
    Keeps s (State.poolRequest t a1 a2) := by
  unfold State.poolRequest
  refine Keeps.ite (fun _ => ?_) (fun _ => ?_)
  · exact h
  · extract_lets +onlyGivenNames -underBinder -merge x1
    try clear_value x1
    split
    · exact h
    · split
      · rename_i e2_0
        have h2 := KeepsO.use (Keeps.grantLater h) e2_0
        exact h2
      · refine Keeps.ite (fun _ => ?_) (fun _ => ?_)
        · extract_lets +onlyGivenNames -underBinder -merge x3
          have h3 : Keeps s x3 := Keeps.wrBit (Keeps.set h)
          try clear_value x3
          exact Keeps.when h3 (fun _ h4 => Keeps.set h4)
        · exact h

theorem Keeps.hallNow {s t : State} {a1 : Nat} {a2 : Option Nat} {a3 : Nat} (h : Keeps s t) :
    KeepsO s (fun p => p) (State.hallNow t a1 a2 a3) := by
  unfold State.hallNow
  extract_lets +onlyGivenNames -underBinder -merge x1
  refine KeepsO.ite (fun _ => ?_) (fun _ => ?_)
  · exact KeepsO.some h
  · split
    · exact KeepsO.none
    · rename_i e2_0
      have h2 := KeepsO.use (Keeps.frameNow h) e2_0
      exact KeepsO.some (Keeps.ite (fun _ => Keeps.backPage h2) (fun _ => Keeps.promote h2))

theorem Keeps.writeNow {s t : State} {a1 : Nat} {a2 : Line} {a3 : BitVec 64} {a4 : Bool} {a5 : Nat} (h : Keeps s t) :
    Keeps s (State.writeNow t a1 a2 a3 a4 a5).2 := by
  unfold State.writeNow
  extract_lets +onlyGivenNames -underBinder -merge x1 x2
  split
  · exact Keeps.pr2 h
  · split
    · exact Keeps.pr2 (Keeps.noteLost h)
    · split
      · exact Keeps.pr2 (Keeps.failEvent (Keeps.emptyUse h))
      · split
        · exact Keeps.pr2 h
        · rename_i e3_0
          have h3 := KeepsO.use (Keeps.hallNow h) e3_0
          exact Keeps.pr2 (Keeps.writeHall h3)

theorem Keeps.markPoison {s t : State} {a1 : Nat} (h : Keeps s t) :
    Keeps s (State.markPoison t a1) := by
  unfold State.markPoison
  split
  · rename_i e1_0
    have h1 : Keeps s _ := Keeps.eq2 e1_0 (Keeps.writeNow h)
    exact Keeps.ite (fun _ => h1) (fun _ => Keeps.dropLine h1)

theorem Keeps.onLink {s t : State} {a1 : Nat} {a2 : Link → Link} (h : Keeps s t) :
    Keeps s (State.onLink t a1 a2) := by
  unfold State.onLink
  exact Keeps.upd h

theorem Keeps.returns {s t : State} {a1 : Nat} (h : Keeps s t) :
    Keeps s (State.returns t a1).2.2 := by
  unfold State.returns
  extract_lets +onlyGivenNames -underBinder -merge x1 x2 x3 x4 x5
  exact Keeps.pr22 (Keeps.onLink h)

theorem Keeps.drive {s t : State} {a1 : Nat} {a2 : Bytes} {a3 a4 : Nat} (h : Keeps s t) :
    Keeps s (State.drive t a1 a2 a3 a4) := by
  unfold State.drive
  extract_lets +onlyGivenNames -underBinder -merge x1
  split
  · rename_i e2_0
    have h2 : Keeps s _ := Keeps.eq22 e2_0 (Keeps.returns h)
    exact Keeps.emit (Keeps.onLink h2)

theorem Keeps.idleFlit {s t : State} {a1 : Nat} (h : Keeps s t) :
    Keeps s (State.idleFlit t a1) := by
  unfold State.idleFlit
  exact Keeps.drive h

theorem Keeps.bypassFlit {s t : State} {a1 a2 : Nat} (h : Keeps s t) :
    Keeps s (State.bypassFlit t a1 a2) := by
  unfold State.bypassFlit
  exact Keeps.drive h

theorem Keeps.showStored {s t : State} {a1 : Nat} (h : Keeps s t) :
    Keeps s (State.showStored t a1) := by
  unfold State.showStored
  extract_lets +onlyGivenNames -underBinder -merge x1 x2
  exact Keeps.wr (Keeps.wr (Keeps.wr h))

theorem Keeps.ringPost {s t : State} {a1 a2 a3 : Nat} {a4 : Bool} (h : Keeps s t) :
    Keeps s (State.ringPost t a1 a2 a3 a4) := by
  unfold State.ringPost
  split
  · exact Keeps.postLine h
  · exact h

theorem Keeps.spill {s t : State} {a1 : Nat} (h : Keeps s t) :
    Keeps s (State.spill t a1) := by
  unfold State.spill
  extract_lets +onlyGivenNames -underBinder -merge x1
  split
  · exact h
  · extract_lets +onlyGivenNames -underBinder -merge x2
    extract_lets +onlyGivenNames -underBinder -merge x3
    have h3 : Keeps s x3 := Keeps.forEach h (fun _ _ h4 => by
        split
        · exact Keeps.ite (fun _ => Keeps.ringPost (Keeps.putHall h4)) (fun _ => Keeps.emptyUse h4))
    try clear_value x3
    extract_lets +onlyGivenNames -underBinder -merge x6
    exact Keeps.onLink h3

theorem Keeps.unspill {s t : State} {a1 a2 : Nat} (h : Keeps s t) :
    Keeps s (State.unspill t a1 a2).2 := by
  unfold State.unspill
  extract_lets +onlyGivenNames -underBinder -merge x1 x2 x3
  have h3 : Keeps s x3 := Keeps.forEach h (fun _ _ h4 => by
      split
      · exact Keeps.spendCause (Keeps.ringPost h4))
  try clear_value x3
  exact Keeps.pr2 h3

theorem Keeps.dataFlit {s t : State} {a1 : Nat} {a2 : Bytes} (h : Keeps s t) :
    Keeps s (State.dataFlit t a1 a2) := by
  unfold State.dataFlit
  extract_lets +onlyGivenNames -underBinder -merge x1 x2
  have h2 : Keeps s x2 := Keeps.wr h
  try clear_value x2
  extract_lets +onlyGivenNames -underBinder -merge x3
  have h3 : Keeps s x3 := Keeps.onLink h2
  try clear_value x3
  extract_lets +onlyGivenNames -underBinder -merge x4
  have h4 : Keeps s x4 := Keeps.when h3 (fun _ h5 => Keeps.spill h5)
  try clear_value x4
  exact Keeps.showStored (Keeps.drive h4)

theorem Keeps.packetFlits {s t : State} {a1 : Nat} {a2 : CwkPacket} (h : Keeps s t) :
    Keeps s (State.packetFlits t a1 a2) := by
  unfold State.packetFlits
  extract_lets +onlyGivenNames -underBinder -merge x1 x2
  exact Keeps.dataFlit h

theorem Keeps.pump {s t : State} {a1 : Nat} (h : Keeps s t) :
    Keeps s (State.pump t a1) := by
  unfold State.pump
  extract_lets +onlyGivenNames -underBinder -merge x1 x2
  have h2 : Keeps s x2 := Keeps.onLink h
  try clear_value x2
  split
  · rename_i e7_0
    have h7 : Keeps s _ := Keeps.eq1 e7_0 (Keeps.foldl1 (Keeps.pr1 h2) (fun _ _ h3 => by
        beta_reduce
        split
        · rename_i e5_0
          have h5 : Keeps s _ := h3
          extract_lets +onlyGivenNames -underBinder -merge x6
          split
          · exact Keeps.pr1 h5
          · exact Keeps.pr1 (Keeps.packetFlits (Keeps.sub h5))))
    extract_lets +onlyGivenNames -underBinder -merge x8
    have h8 : Keeps s x8 := Keeps.onLink h7
    try clear_value x8
    exact Keeps.forEach h8 (fun _ _ h9 => Keeps.wr h9)

theorem Keeps.queueOn {s t : State} {a1 : Nat} {a2 : CwkPacket} (h : Keeps s t) :
    Keeps s (State.queueOn t a1 a2) := by
  unfold State.queueOn
  exact Keeps.pump (Keeps.onLink h)

theorem Keeps.toSlot {s t : State} {a1 : Nat} {a2 : CwkHdr} {a3 a4 : Nat} (h : Keeps s t) :
    Keeps s (State.toSlot t a1 a2 a3 a4) := by
  unfold State.toSlot
  split
  · exact h
  · split
    · exact h
    · extract_lets +onlyGivenNames -underBinder -merge x1
      exact Keeps.queueOn h

theorem Keeps.toMember {s t : State} {a1 : Nat} {a2 : Flight} (h : Keeps s t) :
    Keeps s (State.toMember t a1 a2) := by
  unfold State.toMember
  exact Keeps.ite (fun _ => h) (fun _ => Keeps.toSlot h)

theorem Keeps.sendHello {s t : State} {a1 : Nat} (h : Keeps s t) :
    Keeps s (State.sendHello t a1) := by
  unfold State.sendHello
  split
  · exact h
  · extract_lets +onlyGivenNames -underBinder -merge x1
    exact Keeps.queueOn h

theorem Keeps.helloAll {s t : State} (h : Keeps s t) :
    Keeps s (State.helloAll t) := by
  unfold State.helloAll
  exact Keeps.forEach h (fun _ _ h1 => Keeps.sendHello h1)

theorem Keeps.withHello {s t : State} {a1 : State → State} (h : Keeps s t)
    (k1 : ∀ y0, Keeps s y0 → Keeps s (a1 y0)) :
    Keeps s (State.withHello t a1) := by
  unfold State.withHello
  extract_lets +onlyGivenNames -underBinder -merge x1 x2
  have h2 : Keeps s x2 := k1 _ h
  try clear_value x2
  exact Keeps.forEach h2 (fun _ _ h3 => Keeps.sendHello h3)

theorem Keeps.sendMgt {s t : State} {a1 a2 a3 a4 a5 : Nat} (h : Keeps s t) :
    Keeps s (State.sendMgt t a1 a2 a3 a4 a5) := by
  unfold State.sendMgt
  extract_lets +onlyGivenNames -underBinder -merge x1
  exact Keeps.toSlot h

theorem Keeps.fatalAll {s t : State} {a1 a2 a3 a4 a5 a6 : Nat} (h : Keeps s t) :
    Keeps s (State.fatalAll t a1 a2 a3 a4 a5 a6) := by
  unfold State.fatalAll
  extract_lets +onlyGivenNames -underBinder -merge x1
  have h1 : Keeps s x1 := Keeps.fatal h
  try clear_value x1
  exact Keeps.forEach h1 (fun _ _ h2 => Keeps.sendMgt h2)

end Sys2Proof.Machine
end

