-- ==== Sys2Proof/Laws/KeepsHomeToAgent.lean ====
section
/-!
SUPPORT. What the operations and meanings of Home, Agent keep (Laws/Keeps).
-/

namespace Sys2Proof.Machine

theorem Keeps.setDir {s t : State} {a1 a2 : Nat} {a3 : DirEnt} (h : Keeps s t) :
    Keeps s (State.setDir t a1 a2 a3) := by
  unfold State.setDir
  extract_lets +onlyGivenNames -underBinder -merge x1
  exact Keeps.upd h

theorem Keeps.showHome {s t : State} {a1 : Nat} (h : Keeps s t) :
    Keeps s (State.showHome t a1) := by
  unfold State.showHome
  extract_lets +onlyGivenNames -underBinder -merge x1 x2 x3
  have h3 : Keeps s x3 := Keeps.wr h
  try clear_value x3
  extract_lets +onlyGivenNames -underBinder -merge x4
  have h4 : Keeps s x4 := Keeps.wr h3
  try clear_value x4
  extract_lets +onlyGivenNames -underBinder -merge x5
  have h5 : Keeps s x5 := Keeps.wr h4
  try clear_value x5
  extract_lets +onlyGivenNames -underBinder -merge x6
  have h6 : Keeps s x6 := Keeps.wr h5
  try clear_value x6
  exact Keeps.wr h6

theorem Keeps.onHome {s t : State} {a1 : Nat} {a2 : HomeSt → HomeSt} (h : Keeps s t) :
    Keeps s (State.onHome t a1 a2) := by
  unfold State.onHome
  exact Keeps.showHome (Keeps.upd h)

theorem Keeps.setTT {s t : State} {a1 a2 : Nat} {a3 : TT} (h : Keeps s t) :
    Keeps s (State.setTT t a1 a2 a3) := by
  unfold State.setTT
  exact Keeps.showHome (Keeps.upd h)

theorem Keeps.sendTo {s t : State} {a1 : Nat} {a2 : Flight} (h : Keeps s t) :
    Keeps s (State.sendTo t a1 a2) := by
  unfold State.sendTo
  exact Keeps.ite (fun _ => Keeps.send h) (fun _ => Keeps.toMember h)

theorem Keeps.reply {s t : State} {a1 : Nat} {a2 : TT} {a3 : Nat} {a4 : Bool} {a5 : Option (Line × Bool)} (h : Keeps s t) :
    Keeps s (State.reply t a1 a2 a3 a4 a5) := by
  unfold State.reply
  extract_lets +onlyGivenNames -underBinder -merge x1 x2
  exact Keeps.sendTo h

theorem Keeps.snoop {s t : State} {a1 a2 : Nat} {a3 : TT} {a4 a5 : Nat} {a6 : Bool} (h : Keeps s t) :
    Keeps s (State.snoop t a1 a2 a3 a4 a5 a6) := by
  unfold State.snoop
  extract_lets +onlyGivenNames -underBinder -merge x1
  exact Keeps.sendTo (Keeps.counts (Keeps.bump h))

theorem Keeps.memRead {s t : State} {a1 a2 : Nat} {a3 : TT} (h : Keeps s t) :
    Keeps s (State.memRead t a1 a2 a3) := by
  unfold State.memRead
  extract_lets +onlyGivenNames -underBinder -merge x1
  have h1 : Keeps s x1 := Keeps.setTT h
  try clear_value x1
  exact Keeps.sendReq h1

theorem Keeps.memWrite {s t : State} {a1 a2 : Nat} {a3 : TT} {a4 : MaskedData} (h : Keeps s t) :
    Keeps s (State.memWrite t a1 a2 a3 a4) := by
  unfold State.memWrite
  extract_lets +onlyGivenNames -underBinder -merge x1
  have h1 : Keeps s x1 := Keeps.setTT h
  try clear_value x1
  exact Keeps.sendReq h1

theorem Keeps.peHome {s t : State} {a1 : Nat} {a2 : HbSt} {a3 a4 a5 : Nat} (h : Keeps s t) :
    Keeps s (State.peHome t a1 a2 a3 a4 a5) := by
  unfold State.peHome
  extract_lets +onlyGivenNames -underBinder -merge x1
  have h1 : Keeps s x1 := Keeps.set (Keeps.bump h)
  try clear_value x1
  extract_lets +onlyGivenNames -underBinder -merge x2
  have h2 : Keeps s x2 := Keeps.wr h1
  try clear_value x2
  extract_lets +onlyGivenNames -underBinder -merge x3
  have h3 : Keeps s x3 := Keeps.wr h2
  try clear_value x3
  extract_lets +onlyGivenNames -underBinder -merge x4
  have h4 : Keeps s x4 := Keeps.wr h3
  try clear_value x4
  extract_lets +onlyGivenNames -underBinder -merge x5
  have h5 : Keeps s x5 := Keeps.wr h4
  try clear_value x5
  exact Keeps.record h5

theorem Keeps.peDataM {s t : State} {a1 : Nat} {a2 : HbSt} {a3 a4 : Nat} (h : Keeps s t) :
    Keeps s (State.peDataM t a1 a2 a3 a4) := by
  unfold State.peDataM
  extract_lets +onlyGivenNames -underBinder -merge x1
  have h1 : Keeps s x1 := Keeps.peHome h
  try clear_value x1
  exact Keeps.markPoison (Keeps.set (Keeps.bump h1))

theorem Keeps.peInternal {s t : State} {a1 : Nat} {a2 : HbSt} {a3 : Nat} (h : Keeps s t) :
    Keeps s (State.peInternal t a1 a2 a3) := by
  unfold State.peInternal
  exact Keeps.fatalAll (Keeps.set (Keeps.peHome h))

theorem Keeps.spend {s t : State} {a1 a2 : Nat} (h : Keeps s t) :
    Keeps s (State.spend t a1 a2) := by
  unfold State.spend
  exact Keeps.upd h

theorem Keeps.unspend {s t : State} {a1 a2 : Nat} (h : Keeps s t) :
    Keeps s (State.unspend t a1 a2) := by
  unfold State.unspend
  exact Keeps.upd h

theorem Keeps.freeWdb {s t : State} {a1 a2 a3 : Nat} (h : Keeps s t) :
    Keeps s (State.freeWdb t a1 a2 a3) := by
  unfold State.freeWdb
  split
  · exact h
  · exact Keeps.unspend (Keeps.onHome h)

theorem Keeps.absorb {s t : State} {a1 a2 a3 : Nat} (h : Keeps s t) :
    Keeps s (State.absorb t a1 a2 a3) := by
  unfold State.absorb
  exact Keeps.onHome h

theorem Keeps.dropTT {s t : State} {a1 a2 : Nat} (h : Keeps s t) :
    Keeps s (State.dropTT t a1 a2) := by
  unfold State.dropTT
  exact Keeps.showHome (Keeps.upd h)

theorem Keeps.conclude {s t : State} {a1 a2 : Nat} {a3 : TT} (h : Keeps s t) :
    Keeps s (State.conclude t a1 a2 a3) := by
  unfold State.conclude
  extract_lets +onlyGivenNames -underBinder -merge x1 x2 x3 x4 x5 x6 x7 x8
  have h8 : Keeps s x8 := Keeps.setTT h
  try clear_value x8
  split
  · extract_lets +onlyGivenNames -underBinder -merge x9
    refine Keeps.ite (fun _ => ?_) (fun _ => ?_)
    · extract_lets +onlyGivenNames -underBinder -merge x10
      exact Keeps.reply (Keeps.ite (fun _ => Keeps.setDir h8) (fun _ => h8))
    · exact Keeps.ite (fun _ => Keeps.reply (Keeps.ite (fun _ => Keeps.setDir h8) (fun _ => h8))) (fun _ => Keeps.ite (fun _ => Keeps.reply (Keeps.ite (fun _ => Keeps.setDir h8) (fun _ => h8))) (fun _ => Keeps.reply (Keeps.ite (fun _ => Keeps.setDir h8) (fun _ => h8))))
  · exact h8
  · exact Keeps.reply h8
  · exact Keeps.ite (fun _ => Keeps.reply (Keeps.ite (fun _ => Keeps.setDir h8) (fun _ => h8))) (fun _ => Keeps.reply h8)
  · extract_lets +onlyGivenNames -underBinder -merge x11
    have h11 : Keeps s x11 := Keeps.reply h8
    try clear_value x11
    exact Keeps.ite (fun _ => Keeps.setTT h11) (fun _ => h11)
  · exact Keeps.reply (Keeps.ite (fun _ => Keeps.setDir h8) (fun _ => h8))
  · exact Keeps.reply (Keeps.ite (fun _ => Keeps.setDir h8) (fun _ => h8))
  · exact Keeps.ite (fun _ => Keeps.setDir h8) (fun _ => h8)
  · exact Keeps.ite (fun _ => Keeps.setDir h8) (fun _ => h8)
  · exact h8

theorem Keeps.settle {s t : State} {a1 a2 : Nat} {a3 : TT} (h : Keeps s t) :
    Keeps s (State.settle t a1 a2 a3) := by
  unfold State.settle
  refine Keeps.ite (fun _ => ?_) (fun _ => ?_)
  · exact Keeps.setTT h
  · refine Keeps.ite (fun _ => ?_) (fun _ => ?_)
    · extract_lets +onlyGivenNames -underBinder -merge x1
      exact Keeps.ite (fun _ => Keeps.setTT h) (fun _ => Keeps.memRead h)
    · refine Keeps.ite (fun _ => ?_) (fun _ => ?_)
      · exact Keeps.setTT h
      · extract_lets +onlyGivenNames -underBinder -merge x2
        extract_lets +onlyGivenNames -underBinder -merge x3 x4
        have h4 : Keeps s x4 := by
          unfold x4
          split
          · exact Keeps.memWrite h
          · exact Keeps.setTT h
        try clear_value x4
        extract_lets +onlyGivenNames -underBinder -merge x5
        refine Keeps.ite (fun _ => ?_) (fun _ => ?_)
        · split
          · exact Keeps.setDir h4
          · exact h4
        · exact Keeps.conclude h4

theorem Keeps.snoopData {s t : State} {a1 a2 : Nat} {a3 : TT} {a4 : MaskedData} (h : Keeps s t) :
    Keeps s (State.snoopData t a1 a2 a3 a4).2 := by
  unfold State.snoopData
  extract_lets +onlyGivenNames -underBinder -merge x1
  split
  · exact Keeps.pr2 (Keeps.memWrite h)
  · exact Keeps.pr2 (Keeps.setTT h)

theorem Keeps.act {s t : State} {a1 a2 : Nat} {a3 : TT} (h : Keeps s t) :
    Keeps s (State.act t a1 a2 a3) := by
  unfold State.act
  extract_lets +onlyGivenNames -underBinder -merge x1
  split
  · extract_lets +onlyGivenNames -underBinder -merge x2
    have h2 : Keeps s x2 := by
      unfold x2
      refine Keeps.ite (fun _ => ?_) (fun _ => ?_)
      · split
        · exact Keeps.setDir h
        · exact h
      · exact h
    try clear_value x2
    extract_lets +onlyGivenNames -underBinder -merge x3
    have h3 : Keeps s x3 := Keeps.ite (fun _ => Keeps.record (Keeps.bump h2)) (fun _ => h2)
    try clear_value x3
    extract_lets +onlyGivenNames -underBinder -merge x4 x5 x6
    have h6 : Keeps s x6 := Keeps.setTT h3
    try clear_value x6
    extract_lets +onlyGivenNames -underBinder -merge x7
    have h7 : Keeps s x7 := Keeps.forEach h6 (fun _ _ h8 => Keeps.snoop h8)
    try clear_value x7
    exact Keeps.ite (fun _ => Keeps.settle h7) (fun _ => Keeps.ite (fun _ => Keeps.memRead h7) (fun _ => h7))

theorem Keeps.recallWay {s t : State} {a1 a2 a3 a4 : Nat} (h : Keeps s t) :
    Keeps s (State.recallWay t a1 a2 a3 a4) := by
  unfold State.recallWay
  extract_lets +onlyGivenNames -underBinder -merge x1 x2 x3 x4 x5 x6
  have h6 : Keeps s x6 := Keeps.upd h
  try clear_value x6
  extract_lets +onlyGivenNames -underBinder -merge x7
  have h7 : Keeps s x7 := Keeps.setTT (Keeps.counts (Keeps.bump h6))
  try clear_value x7
  exact Keeps.forEach h7 (fun _ _ h8 => Keeps.snoop h8)

theorem Keeps.takeWay {s t : State} {a1 a2 : Nat} {a3 : TT} {a4 : Bool} (h : Keeps s t) :
    Keeps s (State.takeWay t a1 a2 a3 a4) := by
  unfold State.takeWay
  split
  · exact Keeps.act h
  · exact Keeps.when (Keeps.setTT h) (fun _ h1 => Keeps.counts (Keeps.bump h1))
  · extract_lets +onlyGivenNames -underBinder -merge x2
    have h2 : Keeps s x2 := Keeps.when h (fun _ h3 => Keeps.counts (Keeps.bump h3))
    try clear_value x2
    extract_lets +onlyGivenNames -underBinder -merge x4
    refine Keeps.ite (fun _ => ?_) (fun _ => ?_)
    · exact h2
    · split
      · exact Keeps.recallWay (Keeps.setTT h2)
      · exact Keeps.setTT h2

theorem Keeps.evictClean {s t : State} {a1 : TT} {a2 : Nat} (h : Keeps s t) :
    Keeps s (State.evictClean t a1 a2) := by
  unfold State.evictClean
  extract_lets +onlyGivenNames -underBinder -merge x1
  have h1 : Keeps s x1 := by
    unfold x1
    split
    · exact h
    · extract_lets +onlyGivenNames -underBinder -merge x2
      exact Keeps.ite (fun _ => h) (fun _ => Keeps.ite (fun _ => Keeps.setDir h) (fun _ => h))
  try clear_value x1
  exact Keeps.reply h1

theorem Keeps.purge {s t : State} {a1 a2 : Nat} {a3 : TT} (h : Keeps s t) :
    Keeps s (State.purge t a1 a2 a3) := by
  unfold State.purge
  split
  · exact h
  · refine Keeps.ite (fun _ => ?_) (fun _ => ?_)
    · extract_lets +onlyGivenNames -underBinder -merge x1
      exact Keeps.snoop (Keeps.setTT h)
    · exact h

theorem Keeps.closeNow {s t : State} {a1 a2 : Nat} (h : Keeps s t) :
    Keeps s (State.closeNow t a1 a2) := by
  unfold State.closeNow
  split
  · exact h
  · exact Keeps.ite (fun _ => Keeps.dropTT h) (fun _ => h)

theorem Keeps.serve {s t : State} {a1 a2 a3 : Nat} {a4 : CohMsg} (h : Keeps s t) :
    Keeps s (State.serve t a1 a2 a3 a4) := by
  unfold State.serve
  extract_lets +onlyGivenNames -underBinder -merge x1 x2 x3 x4
  have h4 : Keeps s x4 := Keeps.upd h
  try clear_value x4
  extract_lets +onlyGivenNames -underBinder -merge x5 x6 x7 x8
  have h8 : Keeps s x8 := Keeps.bump h4
  try clear_value x8
  extract_lets +onlyGivenNames -underBinder -merge x9
  have h9 : Keeps s x9 := Keeps.ite (fun _ => h8) (fun _ => Keeps.counts (Keeps.onTxn h8))
  try clear_value x9
  extract_lets +onlyGivenNames -underBinder -merge x10
  exact Keeps.ite (fun _ => Keeps.purge h9) (fun _ => Keeps.ite (fun _ => Keeps.evictClean h9) (fun _ => Keeps.ite (fun _ => Keeps.reply (Keeps.freeWdb h9)) (fun _ => Keeps.ite (fun _ => Keeps.takeWay (Keeps.setTT h9)) (fun _ => Keeps.closeNow (Keeps.act h9)))))

theorem Keeps.homeRequest {s t : State} {a1 : Flight} (h : Keeps s t) :
    Keeps s (State.homeRequest t a1) := by
  unfold State.homeRequest
  extract_lets +onlyGivenNames -underBinder -merge x1 x2 x3
  have h3 : Keeps s x3 := Keeps.onHome h
  try clear_value x3
  refine Keeps.ite (fun _ => ?_) (fun _ => ?_)
  · exact h3
  · split
    · exact h3
    · exact Keeps.serve h

theorem Keeps.homePurge {s t : State} {a1 : Flight} (h : Keeps s t) :
    Keeps s (State.homePurge t a1) := by
  unfold State.homePurge
  extract_lets +onlyGivenNames -underBinder -merge x1
  split
  · exact Keeps.serve h
  · exact Keeps.onHome h

theorem Keeps.startNext {s t : State} {a1 : Nat} (h : Keeps s t) :
    KeepsO s (fun p => p) (State.startNext t a1) := by
  unfold State.startNext
  extract_lets +onlyGivenNames -underBinder -merge x1
  split
  · exact KeepsO.none
  · split
    · exact KeepsO.some (Keeps.serve (Keeps.onHome h))
    · exact KeepsO.map (fun _ => Keeps.serve (Keeps.onHome h))

theorem Keeps.startQueued {s t : State} {a0 a2 : Nat} (h : Keeps s t) :
    Keeps s (State.startQueued a0 t a2) := by
  induction a0 generalizing t a2 with
  | zero => exact h
  | succ _ ih =>
    rw [State.startQueued.eq_2]
    split
    · exact h
    · rename_i e1_0
      have h1 := KeepsO.use (Keeps.startNext h) e1_0
      exact ih h1

theorem Keeps.drainHome {s t : State} {a1 : Nat} (h : Keeps s t) :
    Keeps s (State.drainHome t a1) := by
  unfold State.drainHome
  exact Keeps.forEach h (fun _ _ h1 => by
    extract_lets +onlyGivenNames -underBinder -merge x3
    split
    · exact h1
    · exact Keeps.ite (fun _ => h1) (fun _ => Keeps.recallWay h1))

theorem Keeps.tryClose {s t : State} {a1 a2 : Nat} (h : Keeps s t) :
    Keeps s (State.tryClose t a1 a2) := by
  unfold State.tryClose
  split
  · exact h
  · refine Keeps.ite (fun _ => ?_) (fun _ => ?_)
    · extract_lets +onlyGivenNames -underBinder -merge x1
      have h1 : Keeps s x1 := Keeps.startQueued (Keeps.dropTT h)
      try clear_value x1
      exact Keeps.ite (fun _ => Keeps.drainHome h1) (fun _ => h1)
    · exact h

theorem Keeps.noteAnswer {s t : State} {a1 : TT} {a2 a3 : Nat} (h : Keeps s t) :
    Keeps s (State.noteAnswer t a1 a2 a3) := by
  unfold State.noteAnswer
  split
  · exact h
  · extract_lets +onlyGivenNames -underBinder -merge x1
    exact Keeps.ite (fun _ => Keeps.setDir h) (fun _ => Keeps.ite (fun _ => Keeps.setDir h) (fun _ => h))

theorem Keeps.forwarded {s t : State} {a1 a2 : Nat} {a3 : TT} {a4 : Nat} (h : Keeps s t) :
    Keeps s (State.forwarded t a1 a2 a3 a4) := by
  unfold State.forwarded
  extract_lets +onlyGivenNames -underBinder -merge x1
  have h1 : Keeps s x1 := Keeps.bump h
  try clear_value x1
  extract_lets +onlyGivenNames -underBinder -merge x2
  have h2 : Keeps s x2 := by
    unfold x2
    split
    · exact h1
    · extract_lets +onlyGivenNames -underBinder -merge x3
      extract_lets +onlyGivenNames -underBinder -merge x4
      exact Keeps.setDir h1
  try clear_value x2
  exact Keeps.tryClose (Keeps.setTT h2)

theorem Keeps.crossing {s t : State} {a1 a2 : Nat} {a3 : TT} {a4 : Nat} (h : Keeps s t) :
    Keeps s (State.crossing t a1 a2 a3 a4) := by
  unfold State.crossing
  extract_lets +onlyGivenNames -underBinder -merge x1
  have h1 : Keeps s x1 := Keeps.counts (Keeps.bump h)
  try clear_value x1
  split
  · split
    · rename_i e2_0
      have h2 : Keeps s _ := Keeps.eq2 e2_0 (Keeps.snoopData (Keeps.absorb h1))
      exact Keeps.settle h2
  · split
    · exact Keeps.settle (Keeps.onHome h1)
    · exact Keeps.setTT h1

theorem Keeps.homeAnswer {s t : State} {a1 : Nat} {a2 : CohMsg} (h : Keeps s t) :
    Keeps s (State.homeAnswer t a1 a2) := by
  unfold State.homeAnswer
  extract_lets +onlyGivenNames -underBinder -merge x1 x2 x3 x4
  split
  · exact Keeps.peHome h
  · refine Keeps.ite (fun _ => ?_) (fun _ => ?_)
    · exact Keeps.peHome h
    · extract_lets +onlyGivenNames -underBinder -merge x5
      extract_lets +onlyGivenNames -underBinder -merge x6
      have h6 : Keeps s x6 := Keeps.noteAnswer h
      try clear_value x6
      refine Keeps.ite (fun _ => ?_) (fun _ => ?_)
      · extract_lets +onlyGivenNames -underBinder -merge x7
        exact Keeps.tryClose (Keeps.crossing (Keeps.setTT h6))
      · exact Keeps.ite (fun _ => Keeps.ite (fun _ => Keeps.tryClose (Keeps.settle h6)) (fun _ => Keeps.forwarded h6)) (fun _ => Keeps.tryClose (Keeps.settle h6))

theorem Keeps.homeDataM {s t : State} {a1 : CohMsg} (h : Keeps s t) :
    Keeps s (State.homeDataM t a1) := by
  unfold State.homeDataM
  extract_lets +onlyGivenNames -underBinder -merge x1 x2 x3 x4
  split
  · exact Keeps.ite (fun _ => Keeps.onHome h) (fun _ => Keeps.peDataM h)
  · extract_lets +onlyGivenNames -underBinder -merge x5
    refine Keeps.ite (fun _ => ?_) (fun _ => ?_)
    · extract_lets +onlyGivenNames -underBinder -merge x6
      have h6 : Keeps s x6 := Keeps.onHome h
      try clear_value x6
      exact Keeps.tryClose (Keeps.settle h6)
    · refine Keeps.ite (fun _ => ?_) (fun _ => ?_)
      · extract_lets +onlyGivenNames -underBinder -merge x7
        have h7 : Keeps s x7 := Keeps.onHome h
        try clear_value x7
        split
        · rename_i e8_0
          have h8 : Keeps s _ := Keeps.eq2 e8_0 (Keeps.snoopData h7)
          exact Keeps.tryClose (Keeps.settle h8)
      · refine Keeps.ite (fun _ => ?_) (fun _ => ?_)
        · extract_lets +onlyGivenNames -underBinder -merge x9
          refine Keeps.ite (fun _ => ?_) (fun _ => ?_)
          · extract_lets +onlyGivenNames -underBinder -merge x10
            extract_lets +onlyGivenNames -underBinder -merge x11
            have h11 : Keeps s x11 := Keeps.onHome (Keeps.spend h)
            try clear_value x11
            exact Keeps.ite (fun _ => Keeps.setTT h11) (fun _ => Keeps.memWrite h11)
          · exact Keeps.tryClose (Keeps.setTT h)
        · refine Keeps.ite (fun _ => ?_) (fun _ => ?_)
          · extract_lets +onlyGivenNames -underBinder -merge x12
            have h12 : Keeps s x12 := Keeps.onHome h
            try clear_value x12
            exact Keeps.ite (fun _ => Keeps.setTT h12) (fun _ => h12)
          · exact Keeps.ite (fun _ => Keeps.snoopData h) (fun _ => Keeps.peDataM h)

theorem Keeps.homeStray {s t : State} {a1 : Nat} {a2 : CohMsg} (h : Keeps s t) :
    Keeps s (State.homeStray t a1 a2) := by
  unfold State.homeStray
  extract_lets +onlyGivenNames -underBinder -merge x1
  exact Keeps.peHome h

theorem Keeps.tagLine {s t : State} {a1 a2 : Nat} (h : Keeps s t) :
    Keeps s (State.tagLine t a1 a2).2 := by
  unfold State.tagLine
  extract_lets +onlyGivenNames -underBinder -merge x1
  split
  · exact Keeps.pr2 h
  · extract_lets +onlyGivenNames -underBinder -merge x2
    exact Keeps.pr2 (Keeps.upd h)
  · extract_lets +onlyGivenNames -underBinder -merge x3
    split
    · extract_lets +onlyGivenNames -underBinder -merge x4
      extract_lets +onlyGivenNames -underBinder -merge x5
      have h5 : Keeps s x5 := Keeps.upd h
      try clear_value x5
      exact Keeps.pr2 (Keeps.send h5)
    · split
      · rename_i e6_0
        have h6 : Keeps s _ := Keeps.eq2 e6_0 (Keeps.takeLine (Keeps.postRead h))
        exact Keeps.pr2 h6

theorem Keeps.memArrives {s t : State} {a1 a2 : Nat} {a3 : TT} {a4 : MapReq} (h : Keeps s t) :
    Keeps s (State.memArrives t a1 a2 a3 a4) := by
  unfold State.memArrives
  extract_lets +onlyGivenNames -underBinder -merge x1 x2
  try clear_value x2
  refine Keeps.ite (fun _ => ?_) (fun _ => ?_)
  · exact Keeps.rouseAll h
  · split
    · exact Keeps.holdBlk h
    · extract_lets +onlyGivenNames -underBinder -merge x3
      split
      · rename_i e4_0
        have h4 : Keeps s _ := Keeps.eq2 e4_0 (by
            split
            · exact Keeps.tagLine h
            · exact Keeps.pr2 h)
        split
        · exact h4
        · extract_lets +onlyGivenNames -underBinder -merge x5
          have h5 : Keeps s x5 := Keeps.dropReq h4
          try clear_value x5
          split
          · rename_i e6_0
            have h6 : Keeps s _ := Keeps.eq2 e6_0 (Keeps.takeLine h5)
            exact Keeps.tryClose (Keeps.settle (Keeps.readDone h6))

theorem Keeps.homeMemData {s t : State} {a1 a2 : Nat} (h : Keeps s t) :
    Keeps s (State.homeMemData t a1 a2) := by
  unfold State.homeMemData
  split
  · exact h
  · refine Keeps.ite (fun _ => ?_) (fun _ => ?_)
    · exact Keeps.peInternal h
    · extract_lets +onlyGivenNames -underBinder -merge x1
      have h1 : Keeps s x1 := Keeps.hurry h
      try clear_value x1
      split
      · exact h1
      · exact Keeps.ite (fun _ => h1) (fun _ => Keeps.ite (fun _ => Keeps.tryClose (Keeps.setTT (Keeps.readDone (Keeps.dropReq h1)))) (fun _ => Keeps.memArrives h1))

theorem Keeps.homeWdone {s t : State} {a1 a2 : Nat} (h : Keeps s t) :
    Keeps s (State.homeWdone t a1 a2) := by
  unfold State.homeWdone
  split
  · exact h
  · refine Keeps.ite (fun _ => ?_) (fun _ => ?_)
    · exact Keeps.peInternal h
    · extract_lets +onlyGivenNames -underBinder -merge x1
      have h1 : Keeps s x1 := Keeps.hurry h
      try clear_value x1
      split
      · exact h1
      · split
        · rename_i e2_0
          have h2 : Keeps s _ := Keeps.eq2 e2_0 (Keeps.bring h1)
          refine Keeps.ite (fun _ => ?_) (fun _ => ?_)
          · exact h2
          · extract_lets +onlyGivenNames -underBinder -merge x3
            have h3 : Keeps s x3 := Keeps.dropPkt h2
            try clear_value x3
            extract_lets +onlyGivenNames -underBinder -merge x4
            have h4 : Keeps s x4 := Keeps.dropReq h3
            try clear_value x4
            extract_lets +onlyGivenNames -underBinder -merge x5 x6
            have h6 : Keeps s x6 := by
              unfold x6
              split
              · exact Keeps.reply (Keeps.freeWdb h4)
              · exact Keeps.reply (Keeps.freeWdb h4)
              · exact Keeps.ite (fun _ => Keeps.freeWdb h4) (fun _ => h4)
              · exact h4
            try clear_value x6
            extract_lets +onlyGivenNames -underBinder -merge x7
            split
            · exact Keeps.memWrite h6
            · exact Keeps.tryClose (Keeps.setTT h6)

theorem Keeps.showCache {s t : State} {a1 : Nat} {a2 a3 : Bool} (h : Keeps s t) :
    Keeps s (State.showCache t a1 a2 a3) := by
  unfold State.showCache
  exact Keeps.ite (fun _ => h) (fun _ => Keeps.ite (fun _ => Keeps.bump h) (fun _ => Keeps.sub h))

theorem Keeps.setAg {s t : State} {a1 a2 a3 : Nat} {a4 : AgLine} (h : Keeps s t) :
    Keeps s (State.setAg t a1 a2 a3 a4) := by
  unfold State.setAg
  extract_lets +onlyGivenNames -underBinder -merge x1 x2 x3 x4
  have h4 : Keeps s x4 := Keeps.upd h
  try clear_value x4
  exact Keeps.showCache h4

theorem Keeps.galStat {s t : State} {a1 a2 : Nat} (h : Keeps s t) :
    Keeps s (State.galStat t a1 a2) := by
  unfold State.galStat
  refine Keeps.ite (fun _ => ?_) (fun _ => ?_)
  · extract_lets +onlyGivenNames -underBinder -merge x1
    have h1 : Keeps s x1 := Keeps.bump h
    try clear_value x1
    exact Keeps.ite (fun _ => Keeps.counts h1) (fun _ => Keeps.ite (fun _ => Keeps.counts h1) (fun _ => h1))
  · exact h

theorem Keeps.peAgent {s t : State} {a1 : Nat} {a2 : AgSt} {a3 a4 : Nat} {a5 : CohMsg} (h : Keeps s t) :
    Keeps s (State.peAgent t a1 a2 a3 a4 a5) := by
  unfold State.peAgent
  exact Keeps.record h

theorem Keeps.toHome {s t : State} {a1 : Flight} (h : Keeps s t) :
    Keeps s (State.toHome t a1) := by
  unfold State.toHome
  exact Keeps.send h

theorem Keeps.agReq {s t : State} {a1 a2 : Nat} {a3 : CohMsg} (h : Keeps s t) :
    Keeps s (State.agReq t a1 a2 a3) := by
  unfold State.agReq
  exact Keeps.request h

theorem Keeps.agRsp {s t : State} {a1 a2 : Nat} {a3 : CohMsg} (h : Keeps s t) :
    Keeps s (State.agRsp t a1 a2 a3) := by
  unfold State.agRsp
  exact Keeps.toHome h

theorem Keeps.agData {s t : State} {a1 : Nat} {a2 : CohMsg} {a3 : AgLine} (h : Keeps s t) :
    Keeps s (State.agData t a1 a2 a3) := by
  unfold State.agData
  exact Keeps.toHome h

theorem Keeps.agFwd {s t : State} {a1 : Nat} {a2 : CohMsg} {a3 : AgLine} (h : Keeps s t) :
    Keeps s (State.agFwd t a1 a2 a3).1 := by
  unfold State.agFwd
  extract_lets +onlyGivenNames -underBinder -merge x1 x2 x3 x4 x5 x6 x7
  have h7 : Keeps s x7 := Keeps.galStat (Keeps.ite (fun _ => Keeps.send h) (fun _ => Keeps.toMember h))
  try clear_value x7
  exact Keeps.pr1 (Keeps.agRsp h7)

theorem Keeps.agSnoop {s t : State} {a1 a2 : Nat} {a3 : CohMsg} (h : Keeps s t) :
    Keeps s (State.agSnoop t a1 a2 a3) := by
  unfold State.agSnoop
  extract_lets +onlyGivenNames -underBinder -merge x1 x2 x3 x4
  try clear_value x4
  extract_lets +onlyGivenNames -underBinder -merge x5 x6 x7
  split
  · exact Keeps.agRsp (Keeps.setAg (Keeps.agData h))
  · exact Keeps.agRsp (Keeps.setAg (Keeps.agData h))
  · exact Keeps.agRsp (Keeps.setAg (Keeps.agData h))
  · exact Keeps.agRsp (Keeps.setAg (Keeps.peAgent (Keeps.agData h)))
  · exact Keeps.agRsp (Keeps.setAg h)
  · exact Keeps.agRsp (Keeps.setAg h)
  · exact Keeps.agRsp h
  · exact Keeps.agRsp (Keeps.setAg (Keeps.peAgent h))
  · exact Keeps.agRsp (Keeps.setAg h)
  · exact Keeps.agRsp (Keeps.setAg (Keeps.peAgent h))
  · exact Keeps.agRsp (Keeps.setAg h)
  · split
    · rename_i e8_0
      have h8 : Keeps s _ := Keeps.eq1 e8_0 (Keeps.agFwd h)
      exact Keeps.ite (fun _ => Keeps.setAg h8) (fun _ => h8)
  · exact Keeps.agRsp (Keeps.setAg (Keeps.peAgent h))
  · exact Keeps.agRsp (Keeps.peAgent h)
  · exact Keeps.setAg h
  · exact Keeps.setAg h
  · exact Keeps.agRsp (Keeps.setAg (Keeps.peAgent h))
  · exact Keeps.agRsp (Keeps.setAg h)
  · split
    · rename_i e9_0
      have h9 : Keeps s _ := Keeps.eq1 e9_0 (Keeps.agFwd h)
      exact Keeps.ite (fun _ => Keeps.setAg h9) (fun _ => h9)
  · exact Keeps.agRsp (Keeps.setAg h)
  · exact Keeps.agRsp (Keeps.peAgent h)
  · exact Keeps.agRsp h
  · exact Keeps.agRsp (Keeps.peAgent h)
  · exact Keeps.agRsp h
  · exact Keeps.agRsp h
  · exact Keeps.agRsp (Keeps.peAgent h)
  · exact Keeps.agRsp h
  · exact Keeps.agFwd h
  · exact Keeps.agRsp (Keeps.peAgent h)

theorem Keeps.agHeld {s t : State} {a1 a2 a3 : Nat} (h : Keeps s t) :
    Keeps s (State.agHeld t a1 a2 a3) := by
  unfold State.agHeld
  extract_lets +onlyGivenNames -underBinder -merge x1 x2
  have h2 : Keeps s x2 := Keeps.setAg h
  try clear_value x2
  exact Keeps.forEach h2 (fun _ _ h3 => Keeps.agSnoop h3)

theorem Keeps.agComplete {s t : State} {a1 a2 : Nat} {a3 : CohMsg} (h : Keeps s t) :
    Keeps s (State.agComplete t a1 a2 a3) := by
  unfold State.agComplete
  extract_lets +onlyGivenNames -underBinder -merge x1 x2 x3 x4
  have h4 : Keeps s x4 := Keeps.peAgent h
  try clear_value x4
  extract_lets +onlyGivenNames -underBinder -merge x5
  refine Keeps.ite (fun _ => ?_) (fun _ => ?_)
  · exact Keeps.ite (fun _ => Keeps.agHeld (Keeps.setAg h)) (fun _ => h4)
  · refine Keeps.ite (fun _ => ?_) (fun _ => ?_)
    · exact Keeps.ite (fun _ => Keeps.agHeld (Keeps.setAg h)) (fun _ => Keeps.ite (fun _ => Keeps.agHeld (Keeps.setAg h)) (fun _ => h4))
    · refine Keeps.ite (fun _ => ?_) (fun _ => ?_)
      · exact Keeps.ite (fun _ => Keeps.agReq h) (fun _ => Keeps.ite (fun _ => Keeps.agHeld (Keeps.setAg h)) (fun _ => h4))
      · refine Keeps.ite (fun _ => ?_) (fun _ => ?_)
        · split
          · exact Keeps.setAg h
          · exact Keeps.setAg h
          · exact Keeps.setAg h
          · exact Keeps.setAg h
          · exact h4
        · exact h4

theorem Keeps.agEvict {s t : State} {a1 : Nat} {a2 : CohMsg} (h : Keeps s t) :
    Keeps s (State.agEvict t a1 a2) := by
  unfold State.agEvict
  extract_lets +onlyGivenNames -underBinder -merge x1 x2 x3 x4
  split
  · exact Keeps.ite (fun _ => Keeps.agData (Keeps.agReq (Keeps.setAg (Keeps.spend (Keeps.galStat h))))) (fun _ => h)
  · exact Keeps.agReq (Keeps.setAg (Keeps.galStat h))
  · exact Keeps.agReq (Keeps.setAg (Keeps.galStat h))
  · exact Keeps.agReq (Keeps.setAg (Keeps.galStat h))
  · exact h

theorem Keeps.galRoom {s t : State} {a1 a2 : Nat} (h : Keeps s t) :
    Keeps s (State.galRoom t a1 a2) := by
  unfold State.galRoom
  extract_lets +onlyGivenNames -underBinder -merge x1
  refine Keeps.ite (fun _ => ?_) (fun _ => ?_)
  · exact h
  · split
    · rename_i e2_0
      have h2 : Keeps s _ := Keeps.eq2 e2_0 (Keeps.draw h)
      split
      · exact h2
      · exact Keeps.agEvict h2

theorem Keeps.galEvict {s t : State} {a1 : Nat} (h : Keeps s t) :
    Keeps s (State.galEvict t a1) := by
  unfold State.galEvict
  extract_lets +onlyGivenNames -underBinder -merge x1 x2
  have h2 : Keeps s x2 := Keeps.forEach h (fun _ _ h3 => Keeps.agEvict h3)
  try clear_value x2
  exact Keeps.onGal h2

theorem Keeps.agLoad {s t : State} {a1 : Nat} {a2 : CohMsg} (h : Keeps s t) :
    Keeps s (State.agLoad t a1 a2) := by
  unfold State.agLoad
  extract_lets +onlyGivenNames -underBinder -merge x1
  refine Keeps.ite (fun _ => ?_) (fun _ => ?_)
  · exact Keeps.galStat h
  · refine Keeps.ite (fun _ => ?_) (fun _ => ?_)
    · exact h
    · refine Keeps.ite (fun _ => ?_) (fun _ => ?_)
      · exact Keeps.request (Keeps.galStat h)
      · extract_lets +onlyGivenNames -underBinder -merge x2
        have h2 : Keeps s x2 := Keeps.galRoom (Keeps.galStat h)
        try clear_value x2
        exact Keeps.agReq (Keeps.setAg h2)

theorem Keeps.liteStore {s t : State} {a1 : Nat} {a2 : CohMsg} (h : Keeps s t) :
    Keeps s (State.liteStore t a1 a2) := by
  unfold State.liteStore
  extract_lets +onlyGivenNames -underBinder -merge x1 x2
  exact Keeps.send (Keeps.request (Keeps.spend (Keeps.galStat h)))

theorem Keeps.agStore {s t : State} {a1 : Nat} {a2 : CohMsg} (h : Keeps s t) :
    Keeps s (State.agStore t a1 a2) := by
  unfold State.agStore
  extract_lets +onlyGivenNames -underBinder -merge x1 x2 x3 x4 x5
  have h5 : Keeps s x5 := Keeps.galStat h
  try clear_value x5
  split
  · exact Keeps.setAg (Keeps.galStat h)
  · exact Keeps.setAg (Keeps.galStat h)
  · exact Keeps.agReq (Keeps.setAg h5)
  · exact Keeps.agReq (Keeps.setAg h5)
  · exact Keeps.ite (fun _ => Keeps.liteStore h) (fun _ => Keeps.agReq (Keeps.setAg (Keeps.galRoom h5)))
  · exact h

theorem Keeps.agDo {s t : State} {a1 : Nat} {a2 : AgOp} {a3 : CohMsg} (h : Keeps s t) :
    Keeps s (State.agDo t a1 a2 a3) := by
  unfold State.agDo
  split
  · exact Keeps.agLoad h
  · exact Keeps.agStore h
  · exact Keeps.agEvict h

theorem Keeps.agAccess {s t : State} {a1 : Nat} {a2 : AgOp} {a3 : CohMsg} (h : Keeps s t) :
    Keeps s (State.agAccess t a1 a2 a3) := by
  unfold State.agAccess
  extract_lets +onlyGivenNames -underBinder -merge x1
  exact Keeps.ite (fun _ => Keeps.agDo h) (fun _ => Keeps.setAg h)

theorem Keeps.agRetry {s t : State} {a1 : Nat} (h : Keeps s t) :
    Keeps s (State.agRetry t a1) := by
  unfold State.agRetry
  extract_lets +onlyGivenNames -underBinder -merge x1
  exact Keeps.forEach h (fun _ _ h2 => by
      extract_lets +onlyGivenNames -underBinder -merge x4
      exact Keeps.forEach (Keeps.setAg h2) (fun _ _ h5 => Keeps.agAccess h5))

end Sys2Proof.Machine
end

