-- ==== Sys2Proof/Laws/KeepsProxyToCoherence.lean ====
section
/-!
SUPPORT. What the operations and meanings of Proxy, HostReq, RegFile, Coherence keep (Laws/Keeps).
-/

namespace Sys2Proof.Machine

theorem Keeps.setPf {s t : State} {a1 a2 : Nat} {a3 : PfEnt} (h : Keeps s t) :
    Keeps s (State.setPf t a1 a2 a3) := by
  unfold State.setPf
  extract_lets +onlyGivenNames -underBinder -merge x1
  exact Keeps.upd h

theorem Keeps.onPf {s t : State} {a1 a2 : Nat} {a3 : PfEnt → PfEnt} (h : Keeps s t) :
    Keeps s (State.onPf t a1 a2 a3) := by
  unfold State.onPf
  split
  · exact Keeps.setPf h
  · exact h

theorem Keeps.setPfTx {s t : State} {a1 : PfTx} (h : Keeps s t) :
    Keeps s (State.setPfTx t a1) := by
  unfold State.setPfTx
  exact Keeps.showHome (Keeps.upd h)

theorem Keeps.dropPfTx {s t : State} {a1 : PfTx} (h : Keeps s t) :
    Keeps s (State.dropPfTx t a1) := by
  unfold State.dropPfTx
  exact Keeps.showHome (Keeps.upd h)

theorem Keeps.pfSend {s t : State} {a1 : PfTx} {a2 : Nat} {a3 : CohMsg} (h : Keeps s t) :
    Keeps s (State.pfSend t a1 a2 a3) := by
  unfold State.pfSend
  exact Keeps.toMember h

theorem Keeps.pfSendData {s t : State} {a1 : PfTx} {a2 : BitVec 8} {a3 : MaskedData} (h : Keeps s t) :
    Keeps s (State.pfSendData t a1 a2 a3) := by
  unfold State.pfSendData
  exact Keeps.pfSend h

theorem Keeps.pfReply {s t : State} {a1 : Nat} {a2 : Flight} {a3 : Nat} {a4 : Bool} {a5 : Line} {a6 : Bool} (h : Keeps s t) :
    Keeps s (State.pfReply t a1 a2 a3 a4 a5 a6) := by
  unfold State.pfReply
  extract_lets +onlyGivenNames -underBinder -merge x1 x2 x3 x4
  have h4 : Keeps s x4 := Keeps.when h (fun _ h5 => Keeps.showHome (Keeps.unspend (Keeps.upd h5)))
  try clear_value x4
  exact Keeps.send h4

theorem Keeps.pfSnoop {s t : State} {a1 : PfTx} {a2 a3 : Nat} {a4 : Bool} (h : Keeps s t) :
    Keeps s (State.pfSnoop t a1 a2 a3 a4) := by
  unfold State.pfSnoop
  extract_lets +onlyGivenNames -underBinder -merge x1 x2
  exact Keeps.send (Keeps.counts (Keeps.bump h))

theorem Keeps.pfSnoopAll {s t : State} {a1 : PfTx} {a2 : List Nat} (h : Keeps s t) :
    Keeps s (State.pfSnoopAll t a1 a2).2 := by
  unfold State.pfSnoopAll
  exact Keeps.pr2 (Keeps.forEach h (fun _ _ h1 => Keeps.pfSnoop h1))

theorem Keeps.pfKeep {s t : State} {a1 : PfWd} (h : Keeps s t) :
    Keeps s (State.pfKeep t a1) := by
  unfold State.pfKeep
  exact Keeps.showHome (Keeps.upd h)

theorem Keeps.pfAbsorb {s t : State} {a1 a2 a3 : Nat} (h : Keeps s t) :
    Keeps s (State.pfAbsorb t a1 a2 a3) := by
  unfold State.pfAbsorb
  exact Keeps.upd h

theorem Keeps.pfPe {s t : State} {a1 a2 : Nat} {a3 : AgSt} {a4 a5 : Nat} (h : Keeps s t) :
    Keeps s (State.pfPe t a1 a2 a3 a4 a5) := by
  unfold State.pfPe
  exact Keeps.record h

theorem Keeps.pfAnswerMid {s t : State} {a1 : PfTx} (h : Keeps s t) :
    Keeps s (State.pfAnswerMid t a1) := by
  unfold State.pfAnswerMid
  split
  · exact Keeps.setPfTx h
  · extract_lets +onlyGivenNames -underBinder -merge x1
    refine Keeps.ite (fun _ => ?_) (fun _ => ?_)
    · extract_lets +onlyGivenNames -underBinder -merge x2
      have h2 : Keeps s x2 := Keeps.pfSend h
      try clear_value x2
      exact Keeps.ite (fun _ => Keeps.setPfTx (Keeps.onPf h2)) (fun _ => Keeps.setPfTx h2)
    · extract_lets +onlyGivenNames -underBinder -merge x3
      have h3 : Keeps s x3 := by
        unfold x3
        split
        · exact Keeps.pfSendData h
        · exact h
      try clear_value x3
      extract_lets +onlyGivenNames -underBinder -merge x4
      have h4 : Keeps s x4 := Keeps.onPf (Keeps.pfSend h3)
      try clear_value x4
      extract_lets +onlyGivenNames -underBinder -merge x5
      split
      · exact Keeps.pfSend (Keeps.setPfTx h4)
      · exact Keeps.setPfTx h4

theorem Keeps.pfSnoopMid {s t : State} {a1 : PfTx} {a2 : Flight} (h : Keeps s t) :
    Keeps s (State.pfSnoopMid t a1 a2) := by
  unfold State.pfSnoopMid
  extract_lets +onlyGivenNames -underBinder -merge x1 x2
  have h2 : Keeps s x2 := Keeps.ite (fun _ => Keeps.pfPe h) (fun _ => h)
  try clear_value x2
  split
  · extract_lets +onlyGivenNames -underBinder -merge x3
    extract_lets +onlyGivenNames -underBinder -merge x4
    refine Keeps.ite (fun _ => ?_) (fun _ => ?_)
    · exact Keeps.pfSnoop (Keeps.setPfTx h2)
    · split
      · rename_i e5_0
        have h5 : Keeps s _ := Keeps.eq2 e5_0 (Keeps.pfSnoopAll h2)
        exact Keeps.ite (fun _ => Keeps.pfAnswerMid h5) (fun _ => Keeps.setPfTx h5)
  · extract_lets +onlyGivenNames -underBinder -merge x6
    extract_lets +onlyGivenNames -underBinder -merge x7
    refine Keeps.ite (fun _ => ?_) (fun _ => ?_)
    · exact Keeps.pfSnoop (Keeps.setPfTx h2)
    · split
      · rename_i e8_0
        have h8 : Keeps s _ := Keeps.eq2 e8_0 (Keeps.pfSnoopAll h2)
        exact Keeps.ite (fun _ => Keeps.pfAnswerMid h8) (fun _ => Keeps.setPfTx h8)
  · exact Keeps.pfSend h2
  · exact Keeps.pfSend h2
  · exact Keeps.pfSend h2
  · exact Keeps.pfSend h2
  · exact Keeps.setPfTx h2

theorem Keeps.pfEnter {s t : State} {a1 : PfTx} (h : Keeps s t) :
    Keeps s (State.pfEnter t a1) := by
  unfold State.pfEnter
  exact Keeps.forEach (Keeps.setPfTx h) (fun _ _ h1 => by
    split
    · exact Keeps.pfSnoopMid h1
    · exact h1)

theorem Keeps.pfCredit {s t : State} {a1 : PfTx} (h : Keeps s t) :
    KeepsO s (fun p => p) (State.pfCredit t a1) := by
  unfold State.pfCredit
  exact KeepsO.ite (fun _ => KeepsO.none) (fun _ => KeepsO.some (Keeps.spend h))

theorem Keeps.pfAsk {s t : State} {a1 : PfTx} {a2 : Nat} (h : Keeps s t) :
    Keeps s (State.pfAsk t a1 a2) := by
  unfold State.pfAsk
  split
  · exact h
  · extract_lets +onlyGivenNames -underBinder -merge x1
    refine Keeps.ite (fun _ => ?_) (fun _ => ?_)
    · split
      · rename_i e2_0 e2_1
        have h2 := KeepsO.use (Keeps.pfCredit h) e2_1
        extract_lets +onlyGivenNames -underBinder -merge x3
        have h3 : Keeps s x3 := Keeps.onPf h2
        try clear_value x3
        exact Keeps.pfEnter (Keeps.pfSendData (Keeps.pfSend h3))
      · exact Keeps.setPfTx h
      · exact Keeps.setPfTx h
    · extract_lets +onlyGivenNames -underBinder -merge x4
      extract_lets +onlyGivenNames -underBinder -merge x5
      exact Keeps.pfEnter (Keeps.pfSend h)

theorem Keeps.pfGiveUp {s t : State} {a1 : PfTx} (h : Keeps s t) :
    Keeps s (State.pfGiveUp t a1) := by
  unfold State.pfGiveUp
  split
  · rename_i e1_0 e1_1
    have h1 := KeepsO.use (Keeps.pfCredit h) e1_1
    exact Keeps.pfEnter (Keeps.pfSendData (Keeps.pfSend h1))
  · exact Keeps.setPfTx h
  · extract_lets +onlyGivenNames -underBinder -merge x2
    exact Keeps.pfEnter (Keeps.pfSend h)

theorem Keeps.pfAnswerSnoop {s t : State} {a1 : PfTx} (h : Keeps s t) :
    Keeps s (State.pfAnswerSnoop t a1) := by
  unfold State.pfAnswerSnoop
  split
  · exact Keeps.dropPfTx h
  · extract_lets +onlyGivenNames -underBinder -merge x1
    extract_lets +onlyGivenNames -underBinder -merge x2 x3
    have h3 : Keeps s x3 := by
      unfold x3
      split
      · exact Keeps.pfSendData h
      · exact h
    try clear_value x3
    extract_lets +onlyGivenNames -underBinder -merge x4
    have h4 : Keeps s x4 := Keeps.pfSend h3
    try clear_value x4
    extract_lets +onlyGivenNames -underBinder -merge x5
    have h5 : Keeps s x5 := Keeps.onPf h4
    try clear_value x5
    exact Keeps.dropPfTx h5

theorem Keeps.pfForwarded {s t : State} {a1 : PfTx} {a2 : Nat} (h : Keeps s t) :
    Keeps s (State.pfForwarded t a1 a2) := by
  unfold State.pfForwarded
  exact Keeps.dropPfTx (Keeps.onPf (Keeps.bump h))

theorem Keeps.pfProceed {s t : State} {a1 : PfTx} (h : Keeps s t) :
    Keeps s (State.pfProceed t a1) := by
  unfold State.pfProceed
  refine Keeps.ite (fun _ => ?_) (fun _ => ?_)
  · exact Keeps.setPfTx h
  · refine Keeps.ite (fun _ => ?_) (fun _ => ?_)
    · exact Keeps.pfAnswerMid h
    · split
      · exact Keeps.pfAnswerSnoop h
      · exact Keeps.pfGiveUp h
      · exact Keeps.pfGiveUp h
      · exact Keeps.pfAsk h
      · exact Keeps.setPfTx h
      · split
        · exact Keeps.dropPfTx (Keeps.ite (fun _ => Keeps.record h) (fun _ => h))
        · exact Keeps.ite (fun _ => Keeps.pfAsk h) (fun _ => Keeps.pfForwarded h)

theorem Keeps.pfFail {s t : State} {a1 : Nat} {a2 : Flight} (h : Keeps s t) :
    Keeps s (State.pfFail t a1 a2) := by
  unfold State.pfFail
  extract_lets +onlyGivenNames -underBinder -merge x1
  refine Keeps.ite (fun _ => ?_) (fun _ => ?_)
  · exact Keeps.pfReply h
  · refine Keeps.ite (fun _ => ?_) (fun _ => ?_)
    · exact Keeps.pfReply h
    · extract_lets +onlyGivenNames -underBinder -merge x2
      have h2 : Keeps s x2 := by
        unfold x2
        split
        · exact Keeps.failEvent h
        · exact h
      try clear_value x2
      exact Keeps.pfReply h2

theorem Keeps.pfWithData {s t : State} {a1 : PfTx} {a2 : Flight} {a3 : PfTx → MaskedData → PfTx} (h : Keeps s t) :
    Keeps s (State.pfWithData t a1 a2 a3) := by
  unfold State.pfWithData
  split
  · exact Keeps.pfProceed h
  · exact Keeps.setPfTx h

theorem Keeps.pfLite {s t : State} {a1 : PfTx} {a2 : Flight} (h : Keeps s t) :
    Keeps s (State.pfLite t a1 a2) := by
  unfold State.pfLite
  extract_lets +onlyGivenNames -underBinder -merge x1
  exact Keeps.ite (fun _ => Keeps.pfReply h) (fun _ => Keeps.ite (fun _ => Keeps.pfWithData h) (fun _ => Keeps.pfProceed h))

theorem Keeps.pfEvict {s t : State} {a1 : PfTx} {a2 : Flight} {a3 : PfEnt} (h : Keeps s t) :
    Keeps s (State.pfEvict t a1 a2 a3) := by
  unfold State.pfEvict
  extract_lets +onlyGivenNames -underBinder -merge x1 x2
  exact Keeps.ite (fun _ => Keeps.pfReply h) (fun _ => Keeps.ite (fun _ => Keeps.pfProceed h) (fun _ => Keeps.pfReply (Keeps.onPf h)))

theorem Keeps.pfWrite {s t : State} {a1 : PfTx} {a2 : Flight} {a3 : PfEnt} (h : Keeps s t) :
    Keeps s (State.pfWrite t a1 a2 a3) := by
  unfold State.pfWrite
  extract_lets +onlyGivenNames -underBinder -merge x1 x2
  refine Keeps.ite (fun _ => ?_) (fun _ => ?_)
  · exact Keeps.pfReply h
  · refine Keeps.ite (fun _ => ?_) (fun _ => ?_)
    · exact Keeps.pfWithData h
    · extract_lets +onlyGivenNames -underBinder -merge x3
      have h3 : Keeps s x3 := Keeps.ite (fun _ => h) (fun _ => Keeps.record (Keeps.bump h))
      try clear_value x3
      extract_lets +onlyGivenNames -underBinder -merge x4 x5 x6
      refine Keeps.ite (fun _ => ?_) (fun _ => ?_)
      · split
        · rename_i e7_0
          have h7 : Keeps s _ := Keeps.eq2 e7_0 (Keeps.pfSnoopAll h3)
          exact Keeps.pfProceed h7
      · extract_lets +onlyGivenNames -underBinder -merge x8
        have h8 : Keeps s x8 := Keeps.onPf h3
        try clear_value x8
        split
        · rename_i e9_0
          have h9 : Keeps s _ := Keeps.eq2 e9_0 (Keeps.pfSnoopAll h8)
          exact Keeps.pfWithData h9

theorem Keeps.pfRecallWay {s t : State} {a1 a2 a3 : Nat} (h : Keeps s t) :
    Keeps s (State.pfRecallWay t a1 a2 a3) := by
  unfold State.pfRecallWay
  extract_lets +onlyGivenNames -underBinder -merge x1 x2 x3 x4 x5
  have h5 : Keeps s x5 := Keeps.upd h
  try clear_value x5
  split
  · rename_i e6_0
    have h6 : Keeps s _ := Keeps.eq2 e6_0 (Keeps.pfSnoopAll (Keeps.counts (Keeps.bump h5)))
    exact Keeps.pfProceed h6

theorem Keeps.pfAlloc {s t : State} {a1 : PfTx} {a2 : Flight} {a3 : Bool} (h : Keeps s t) :
    Keeps s (State.pfAlloc t a1 a2 a3) := by
  unfold State.pfAlloc
  extract_lets +onlyGivenNames -underBinder -merge x1
  split
  · exact Keeps.pfProceed h
  · extract_lets +onlyGivenNames -underBinder -merge x2
    have h2 : Keeps s x2 := Keeps.when h (fun _ h3 => Keeps.counts (Keeps.bump h3))
    try clear_value x2
    extract_lets +onlyGivenNames -underBinder -merge x4
    have h4 : Keeps s x4 := Keeps.when h2 (fun _ h5 => Keeps.setPfTx h5)
    try clear_value x4
    split
    · exact Keeps.pfRecallWay h4
    · exact h4

theorem Keeps.pfRead {s t : State} {a1 : PfTx} {a2 : Flight} {a3 : PfEnt} (h : Keeps s t) :
    Keeps s (State.pfRead t a1 a2 a3) := by
  unfold State.pfRead
  extract_lets +onlyGivenNames -underBinder -merge x1 x2 x3
  refine Keeps.ite (fun _ => ?_) (fun _ => ?_)
  · split
    · rename_i e4_0
      have h4 : Keeps s _ := Keeps.eq2 e4_0 (Keeps.pfSnoopAll h)
      exact Keeps.pfProceed h4
  · refine Keeps.ite (fun _ => ?_) (fun _ => ?_)
    · exact Keeps.pfProceed h
    · refine Keeps.ite (fun _ => ?_) (fun _ => ?_)
      · exact Keeps.pfAlloc h
      · refine Keeps.ite (fun _ => ?_) (fun _ => ?_)
        · exact Keeps.ite (fun _ => Keeps.pfProceed h) (fun _ => Keeps.pfSnoop (Keeps.setPfTx h))
        · split
          · rename_i e5_0
            have h5 : Keeps s _ := Keeps.eq2 e5_0 (Keeps.pfSnoopAll h)
            exact Keeps.pfProceed h5

theorem Keeps.pfStart {s t : State} {a1 : Flight} {a2 : Nat} (h : Keeps s t) :
    Keeps s (State.pfStart t a1 a2) := by
  unfold State.pfStart
  extract_lets +onlyGivenNames -underBinder -merge x1 x2 x3 x4 x5 x6
  have h6 : Keeps s x6 := Keeps.counts (Keeps.bump h)
  try clear_value x6
  exact Keeps.ite (fun _ => Keeps.pfReply h6) (fun _ => Keeps.ite (fun _ => Keeps.pfFail h6) (fun _ => Keeps.ite (fun _ => Keeps.pfLite h6) (fun _ => Keeps.ite (fun _ => Keeps.pfEvict h6) (fun _ => Keeps.ite (fun _ => Keeps.pfWrite h6) (fun _ => Keeps.pfRead h6)))))

theorem Keeps.pfPurge {s t : State} {a1 : Flight} (h : Keeps s t) :
    Keeps s (State.pfPurge t a1) := by
  unfold State.pfPurge
  extract_lets +onlyGivenNames -underBinder -merge x1 x2 x3 x4
  refine Keeps.ite (fun _ => ?_) (fun _ => ?_)
  · exact Keeps.upd h
  · refine Keeps.ite (fun _ => ?_) (fun _ => ?_)
    · split
      · rename_i e5_0
        have h5 : Keeps s _ := Keeps.eq2 e5_0 (Keeps.pfSnoopAll h)
        exact Keeps.setPfTx h5
    · exact h

theorem Keeps.pfRequest {s t : State} {a1 : Flight} (h : Keeps s t) :
    Keeps s (State.pfRequest t a1) := by
  unfold State.pfRequest
  extract_lets +onlyGivenNames -underBinder -merge x1 x2 x3
  have h3 : Keeps s x3 := Keeps.showHome (Keeps.upd h)
  try clear_value x3
  extract_lets +onlyGivenNames -underBinder -merge x4
  refine Keeps.ite (fun _ => ?_) (fun _ => ?_)
  · exact h3
  · split
    · exact h3
    · exact Keeps.pfStart h

theorem Keeps.pfSnooped {s t : State} {a1 : Flight} (h : Keeps s t) :
    Keeps s (State.pfSnooped t a1) := by
  unfold State.pfSnooped
  extract_lets +onlyGivenNames -underBinder -merge x1 x2 x3 x4 x5 x6 x7
  have h7 : Keeps s x7 := Keeps.ite (fun _ => Keeps.pfPe h) (fun _ => h)
  try clear_value x7
  refine Keeps.ite (fun _ => ?_) (fun _ => ?_)
  · exact Keeps.pfSnoop (Keeps.setPfTx h7)
  · refine Keeps.ite (fun _ => ?_) (fun _ => ?_)
    · split
      · exact Keeps.pfProceed h7
      · exact Keeps.pfSnoop (Keeps.setPfTx h7)
    · split
      · rename_i e8_0
        have h8 : Keeps s _ := Keeps.eq2 e8_0 (Keeps.pfSnoopAll h7)
        exact Keeps.pfProceed h8

theorem Keeps.pfRemoteSnoop {s t : State} {a1 : Flight} (h : Keeps s t) :
    Keeps s (State.pfRemoteSnoop t a1) := by
  unfold State.pfRemoteSnoop
  split
  · exact Keeps.pfSnooped h
  · exact Keeps.ite (fun _ => Keeps.pfSnooped h) (fun _ => Keeps.pfSnoopMid h)

theorem Keeps.pfNextQueued {s t : State} (h : Keeps s t) :
    Keeps s (State.pfNextQueued t) := by
  unfold State.pfNextQueued
  extract_lets +onlyGivenNames -underBinder -merge x1 x2 x3
  have h3 : Keeps s x3 := Keeps.forEach (Keeps.upd h) (fun _ _ h4 => Keeps.pfRemoteSnoop h4)
  try clear_value x3
  extract_lets +onlyGivenNames -underBinder -merge x6
  have h6 : Keeps s x6 := Keeps.forEach h3 (fun _ _ h7 => Keeps.pfProceed h7)
  try clear_value x6
  extract_lets +onlyGivenNames -underBinder -merge x9 x10 x11
  have h11 : Keeps s x11 := Keeps.forEach (Keeps.upd h6) (fun _ _ h12 => Keeps.pfPurge h12)
  try clear_value x11
  extract_lets +onlyGivenNames -underBinder -merge x14
  exact Keeps.forEach (Keeps.upd h11) (fun _ _ h15 => Keeps.pfRequest h15)

theorem Keeps.pfEnd {s t : State} {a1 : PfTx} (h : Keeps s t) :
    Keeps s (State.pfEnd t a1) := by
  unfold State.pfEnd
  exact Keeps.pfNextQueued (Keeps.dropPfTx h)

theorem Keeps.pfGrant {s t : State} {a1 : PfTx} {a2 : PfEnt → PfEnt} (h : Keeps s t) :
    Keeps s (State.pfGrant t a1 a2) := by
  unfold State.pfGrant
  split
  · exact Keeps.setPf h
  · exact Keeps.setPf h
  · exact h

theorem Keeps.pfGranted {s t : State} {a1 : PfTx} {a2 : Flight} {a3 : Nat} {a4 : CohMsg} (h : Keeps s t) :
    Keeps s (State.pfGranted t a1 a2 a3 a4) := by
  unfold State.pfGranted
  extract_lets +onlyGivenNames -underBinder -merge x1 x2 x3 x4 x5 x6
  refine Keeps.ite (fun _ => ?_) (fun _ => ?_)
  · exact Keeps.pfEnd (Keeps.pfReply (Keeps.pfGrant h))
  · refine Keeps.ite (fun _ => ?_) (fun _ => ?_)
    · exact Keeps.pfEnd (Keeps.pfReply (Keeps.pfGrant h))
    · extract_lets +onlyGivenNames -underBinder -merge x7
      have h7 : Keeps s x7 := Keeps.pfGrant h
      try clear_value x7
      exact Keeps.pfEnd (Keeps.pfReply h7)

theorem Keeps.pfUnspend {s t : State} {a1 : PfTx} (h : Keeps s t) :
    Keeps s (State.pfUnspend t a1) := by
  unfold State.pfUnspend
  exact Keeps.unspend h

theorem Keeps.pfRecall {s t : State} {a1 : Nat} {a2 : PfEnt} (h : Keeps s t) :
    Keeps s (State.pfRecall t a1 a2) := by
  unfold State.pfRecall
  extract_lets +onlyGivenNames -underBinder -merge x1
  split
  · exact h
  · exact Keeps.ite (fun _ => h) (fun _ => Keeps.pfRecallWay h)

theorem Keeps.pfDrain {s t : State} {a1 : Nat} (h : Keeps s t) :
    Keeps s (State.pfDrain t a1) := by
  unfold State.pfDrain
  exact Keeps.forEach h (fun _ _ h1 => Keeps.pfRecall h1)

theorem Keeps.pfGone {s t : State} {a1 : PfTx} (h : Keeps s t) :
    Keeps s (State.pfGone t a1) := by
  unfold State.pfGone
  extract_lets +onlyGivenNames -underBinder -merge x1
  have h1 : Keeps s x1 := Keeps.onPf (Keeps.ite (fun _ => Keeps.pfUnspend h) (fun _ => h))
  try clear_value x1
  split
  · extract_lets +onlyGivenNames -underBinder -merge x2
    have h2 : Keeps s x2 := Keeps.pfEnd h1
    try clear_value x2
    exact Keeps.ite (fun _ => Keeps.pfDrain h2) (fun _ => h2)
  · refine Keeps.ite (fun _ => ?_) (fun _ => ?_)
    · extract_lets +onlyGivenNames -underBinder -merge x3
      have h3 : Keeps s x3 := Keeps.dropPfTx h1
      try clear_value x3
      exact Keeps.pfNextQueued (Keeps.upd h3)
    · exact Keeps.pfEnd (Keeps.pfReply h1)

theorem Keeps.pfRemoteResp {s t : State} {a1 : Nat} {a2 : CohMsg} (h : Keeps s t) :
    Keeps s (State.pfRemoteResp t a1 a2) := by
  unfold State.pfRemoteResp
  extract_lets +onlyGivenNames -underBinder -merge x1 x2
  split
  · exact Keeps.pfPe h
  · extract_lets +onlyGivenNames -underBinder -merge x3
    have h3 : Keeps s x3 := Keeps.pfPe h
    try clear_value x3
    split
    · exact Keeps.ite (fun _ => Keeps.pfGranted h) (fun _ => h3)
    · exact Keeps.ite (fun _ => Keeps.pfGranted h) (fun _ => Keeps.ite (fun _ => Keeps.pfSend h) (fun _ => h3))
    · exact Keeps.ite (fun _ => h3) (fun _ => Keeps.ite (fun _ => Keeps.pfGranted h) (fun _ => Keeps.setPfTx h))
    · exact Keeps.ite (fun _ => h3) (fun _ => Keeps.ite (fun _ => Keeps.pfGranted h) (fun _ => Keeps.setPfTx h))
    · exact Keeps.ite (fun _ => h3) (fun _ => Keeps.ite (fun _ => Keeps.pfEnd (Keeps.pfReply h)) (fun _ => Keeps.ite (fun _ => Keeps.pfEnd (Keeps.pfReply (Keeps.pfUnspend h))) (fun _ => h3)))
    · exact Keeps.ite (fun _ => Keeps.pfGone h) (fun _ => h3)
    · exact Keeps.ite (fun _ => Keeps.pfGone h) (fun _ => h3)
    · exact Keeps.ite (fun _ => Keeps.pfGone h) (fun _ => h3)
    · exact Keeps.ite (fun _ => Keeps.pfGone h) (fun _ => h3)
    · exact h3

theorem Keeps.pfLocalStep {s t : State} {a1 : PfTx} (h : Keeps s t) :
    Keeps s (State.pfLocalStep t a1) := by
  unfold State.pfLocalStep
  extract_lets +onlyGivenNames -underBinder -merge x1
  have h1 : Keeps s x1 := Keeps.pfProceed h
  try clear_value x1
  extract_lets +onlyGivenNames -underBinder -merge x2
  have h2 : Keeps s x2 := by
    unfold x2
    split
    · split
      · exact Keeps.ite (fun _ => Keeps.pfRemoteResp (Keeps.setPfTx h1)) (fun _ => h1)
      · exact h1
    · exact h1
  try clear_value x2
  exact Keeps.pfNextQueued h2

theorem Keeps.pfLocalAnswer {s t : State} {a1 : Nat} {a2 : CohMsg} (h : Keeps s t) :
    Keeps s (State.pfLocalAnswer t a1 a2) := by
  unfold State.pfLocalAnswer
  extract_lets +onlyGivenNames -underBinder -merge x1 x2 x3
  split
  · exact Keeps.peHome h
  · extract_lets +onlyGivenNames -underBinder -merge x4
    have h4 : Keeps s x4 := Keeps.ite (fun _ => Keeps.onPf h) (fun _ => h)
    try clear_value x4
    extract_lets +onlyGivenNames -underBinder -merge x5
    refine Keeps.ite (fun _ => ?_) (fun _ => ?_)
    · extract_lets +onlyGivenNames -underBinder -merge x6
      have h6 : Keeps s x6 := Keeps.counts (Keeps.bump h4)
      try clear_value x6
      split
      · exact Keeps.pfLocalStep (Keeps.pfAbsorb h6)
      · exact Keeps.setPfTx h6
    · exact Keeps.pfLocalStep h4

theorem Keeps.pfLocalData {s t : State} {a1 : CohMsg} (h : Keeps s t) :
    Keeps s (State.pfLocalData t a1) := by
  unfold State.pfLocalData
  extract_lets +onlyGivenNames -underBinder -merge x1 x2 x3 x4 x5 x6
  split
  · exact Keeps.pfLocalStep (Keeps.pfKeep h)
  · split
    · extract_lets +onlyGivenNames -underBinder -merge x7
      exact Keeps.pfLocalStep (Keeps.pfKeep h)
    · refine Keeps.ite (fun _ => ?_) (fun _ => ?_)
      · exact Keeps.pfKeep h
      · split
        · exact Keeps.setPfTx h
        · exact Keeps.set (Keeps.bump (Keeps.peHome h))

theorem Keeps.portProto {s t : State} {a1 : Nat} (h : Keeps s t) :
    Keeps s (State.portProto t a1) := by
  unfold State.portProto
  exact Keeps.record (Keeps.set (Keeps.bump h))

theorem Keeps.toHost {s t : State} {a1 a2 a3 : Nat} {a4 : Line} {a5 : Bool} {a6 : Nat} (h : Keeps s t) :
    Keeps s (State.toHost t a1 a2 a3 a4 a5 a6) := by
  unfold State.toHost
  split
  · exact h
  · exact Keeps.ite (fun _ => Keeps.emit h) (fun _ => h)

theorem Keeps.unmapped {s t : State} {a1 : LdEntry} {a2 : M2S} (h : Keeps s t) :
    Keeps s (State.unmapped t a1 a2) := by
  unfold State.unmapped
  extract_lets +onlyGivenNames -underBinder -merge x1
  have h1 : Keeps s x1 := Keeps.set (Keeps.bump h)
  try clear_value x1
  extract_lets +onlyGivenNames -underBinder -merge x2
  have h2 : Keeps s x2 := Keeps.event h1
  try clear_value x2
  exact Keeps.ite (fun _ => Keeps.toHost h2) (fun _ => Keeps.toHost h2)

theorem Keeps.ingress {s t : State} {a1 : M2S} (h : Keeps s t) :
    Keeps s (State.ingress t a1) := by
  unfold State.ingress
  exact Keeps.txnBegin h

theorem Keeps.accepted {s t : State} {a1 : M2S} {a2 a3 a4 : Nat} (h : Keeps s t) :
    Keeps s (State.accepted t a1 a2 a3 a4) := by
  unfold State.accepted
  extract_lets +onlyGivenNames -underBinder -merge x1 x2
  have h2 : Keeps s x2 := Keeps.onTxn h
  try clear_value x2
  split
  · exact h2
  · exact Keeps.counts h2

theorem Keeps.m2sSend {s t : State} {a1 : M2S} {a2 : Nat} {a3 : Bool} {a4 a5 : Nat} (h : Keeps s t) :
    KeepsO s (fun p => p) (State.m2sSend t a1 a2 a3 a4 a5) := by
  unfold State.m2sSend
  extract_lets +onlyGivenNames -underBinder -merge x1 x2
  refine KeepsO.ite (fun _ => ?_) (fun _ => ?_)
  · exact KeepsO.none
  · refine KeepsO.ite (fun _ => ?_) (fun _ => ?_)
    · exact KeepsO.none
    · split
      · exact KeepsO.none
      · extract_lets +onlyGivenNames -underBinder -merge x3
        extract_lets +onlyGivenNames -underBinder -merge x4 x5
        have h5 : Keeps s x5 := Keeps.send (Keeps.accepted (Keeps.upd h))
        try clear_value x5
        exact KeepsO.ite (fun _ => KeepsO.some (Keeps.send (Keeps.spend h5))) (fun _ => KeepsO.some h5)

theorem Keeps.m2sDataM {s t : State} {a1 : M2S} {a2 : BiSnp} (h : Keeps s t) :
    Keeps s (State.m2sDataM t a1 a2) := by
  unfold State.m2sDataM
  extract_lets +onlyGivenNames -underBinder -merge x1 x2 x3
  exact Keeps.send (Keeps.accepted (Keeps.upd h))

theorem Keeps.m2sTry {s t : State} {a1 : M2S} (h : Keeps s t) :
    KeepsO s (fun p => p) (State.m2sTry t a1) := by
  unfold State.m2sTry
  extract_lets +onlyGivenNames -underBinder -merge x1
  split
  · exact KeepsO.some h
  · refine KeepsO.ite (fun _ => ?_) (fun _ => ?_)
    · exact KeepsO.some h
    · refine KeepsO.ite (fun _ => ?_) (fun _ => ?_)
      · exact KeepsO.none
      · extract_lets +onlyGivenNames -underBinder -merge x2
        try clear_value x2
        split
        · exact KeepsO.some (Keeps.portProto h)
        · split
          · exact KeepsO.some (Keeps.unmapped h)
          · split
            · exact KeepsO.some (Keeps.m2sDataM h)
            · exact Keeps.m2sSend h

theorem Keeps.notSent {s t : State} {a1 : M2S} (h : Keeps s t) :
    Keeps s (State.notSent t a1) := by
  unfold State.notSent
  split
  · exact h
  · exact Keeps.upd h

theorem Keeps.m2sIn {s t : State} {a1 : M2S} (h : Keeps s t) :
    Keeps s (State.m2sIn t a1) := by
  unfold State.m2sIn
  extract_lets +onlyGivenNames -underBinder -merge x1
  have h1 : Keeps s x1 := Keeps.ingress h
  try clear_value x1
  extract_lets +onlyGivenNames -underBinder -merge x2
  have h2 : Keeps s x2 := Keeps.upd h1
  try clear_value x2
  refine Keeps.ite (fun _ => ?_) (fun _ => ?_)
  · exact h2
  · split
    · exact h2
    · rename_i e3_0
      have h3 := KeepsO.use (Keeps.m2sTry h1) e3_0
      exact Keeps.notSent h3

theorem Keeps.conflictsEnd {s t : State} {a1 : Nat} (h : Keeps s t) :
    Keeps s (State.conflictsEnd t a1) := by
  unfold State.conflictsEnd
  exact Keeps.forEach h (fun _ _ h1 => Keeps.emit (Keeps.onLd h1))

theorem Keeps.m2sAgain {s t : State} {a1 : Nat} (h : Keeps s t) :
    Keeps s (State.m2sAgain t a1) := by
  unfold State.m2sAgain
  extract_lets +onlyGivenNames -underBinder -merge x1
  exact Keeps.conflictsEnd (Keeps.forEach (Keeps.upd h) (fun _ _ h2 => Keeps.m2sIn h2))

theorem Keeps.hostEnd {s t : State} {a1 : HostReq} {a2 : Nat} {a3 : Line} {a4 : Bool} (h : Keeps s t) :
    Keeps s (State.hostEnd t a1 a2 a3 a4) := by
  unfold State.hostEnd
  extract_lets +onlyGivenNames -underBinder -merge x1 x2
  try clear_value x2
  extract_lets +onlyGivenNames -underBinder -merge x3
  have h3 : Keeps s x3 := Keeps.toHost h
  try clear_value x3
  split
  · extract_lets +onlyGivenNames -underBinder -merge x4
    exact Keeps.txnEnd (Keeps.counts h3)
  · exact h3

theorem Keeps.farPoison {s t : State} {a1 : HostReq} {a2 : CohMsg} (h : Keeps s t) :
    Keeps s (State.farPoison t a1 a2) := by
  unfold State.farPoison
  split
  · exact Keeps.ite (fun _ => Keeps.event h) (fun _ => h)
  · exact h

theorem Keeps.hostDone {s t : State} {a1 a2 : Nat} {a3 : CohMsg} (h : Keeps s t) :
    Keeps s (State.hostDone t a1 a2 a3) := by
  unfold State.hostDone
  split
  · exact h
  · exact Keeps.m2sAgain (Keeps.hostEnd (Keeps.farPoison (Keeps.upd h)))

theorem Keeps.hostWrote {s t : State} {a1 : CohMsg} (h : Keeps s t) :
    Keeps s (State.hostWrote t a1) := by
  unfold State.hostWrote
  extract_lets +onlyGivenNames -underBinder -merge x1
  split
  · exact h
  · exact Keeps.m2sAgain (Keeps.hostEnd (Keeps.upd h))

theorem Keeps.conflictAck {s t : State} {a1 : CohMsg} (h : Keeps s t) :
    Keeps s (State.conflictAck t a1) := by
  unfold State.conflictAck
  extract_lets +onlyGivenNames -underBinder -merge x1 x2
  exact Keeps.ite (fun _ => Keeps.emit (Keeps.onLd h)) (fun _ => h)

theorem Keeps.biAnswer {s t : State} {a1 a2 a3 a4 a5 : Nat} (h : Keeps s t) :
    Keeps s (State.biAnswer t a1 a2 a3 a4 a5) := by
  unfold State.biAnswer
  exact Keeps.send h

theorem Keeps.biSnoop {s t : State} {a1 a2 : Nat} {a3 : CohMsg} (h : Keeps s t) :
    Keeps s (State.biSnoop t a1 a2 a3) := by
  unfold State.biSnoop
  extract_lets +onlyGivenNames -underBinder -merge x1 x2
  refine Keeps.ite (fun _ => ?_) (fun _ => ?_)
  · exact Keeps.biAnswer h
  · refine Keeps.ite (fun _ => ?_) (fun _ => ?_)
    · exact Keeps.biAnswer h
    · extract_lets +onlyGivenNames -underBinder -merge x3
      extract_lets +onlyGivenNames -underBinder -merge x4 x5
      have h5 : Keeps s x5 := by
        unfold x5
        split
        · exact h
        · exact Keeps.counts h
      try clear_value x5
      exact Keeps.emit (Keeps.onLd h5)

theorem Keeps.writeField {s t : State} {a1 : Initiator} {a2 : Field} {a3 a4 a5 : Nat} (h : Keeps s t) :
    Keeps s (State.writeField t a1 a2 a3 a4 a5) := by
  unfold State.writeField
  extract_lets +onlyGivenNames -underBinder -merge x1
  split
  · exact Keeps.wr h
  · exact Keeps.ite (fun _ => h) (fun _ => Keeps.wr h)
  · exact Keeps.ite (fun _ => Keeps.wr h) (fun _ => h)
  · exact Keeps.wr h
  · exact Keeps.wr h
  · exact h

theorem Keeps.writeWord {s t : State} {a1 : Initiator} {a2 a3 : Nat} {a4 : Field → Bool} (h : Keeps s t) :
    Keeps s (State.writeWord t a1 a2 a3 a4) := by
  unfold State.writeWord
  exact Keeps.foldl h (fun _ _ h1 => Keeps.ite (fun _ => Keeps.writeField h1) (fun _ => h1))

theorem Keeps.readClear {s t : State} {a1 : Nat} {a2 : Field → Bool} (h : Keeps s t) :
    Keeps s (State.readClear t a1 a2) := by
  unfold State.readClear
  exact Keeps.foldl h (fun _ _ h1 => Keeps.ite (fun _ => Keeps.clear h1) (fun _ => h1))

theorem Keeps.cohReq {s t : State} {a1 : Nat} {a2 : CohMsg} (h : Keeps s t) :
    Keeps s (State.cohReq t a1 a2) := by
  unfold State.cohReq
  extract_lets +onlyGivenNames -underBinder -merge x1
  exact Keeps.ite (fun _ => h) (fun _ => Keeps.arrive h (fun _ h2 => Keeps.ite (fun _ => Keeps.peHome h2) (fun _ => Keeps.conflictAck (Keeps.ite (fun _ => Keeps.homeRequest h2) (fun _ => Keeps.pfRequest h2)))))

theorem Keeps.execRds {s t : State} {a0 : CohMsg} (h : Keeps s t) :
    KeepsX s (Machine.execRds a0 t) := by
  unfold Machine.execRds
  exact KeepsX.onDie h (fun _ h1 => Keeps.cohReq h1)

theorem Keeps.execRdo {s t : State} {a0 : CohMsg} (h : Keeps s t) :
    KeepsX s (Machine.execRdo a0 t) := by
  unfold Machine.execRdo
  exact KeepsX.onDie h (fun _ h1 => Keeps.cohReq h1)

theorem Keeps.execUpg {s t : State} {a0 : CohMsg} (h : Keeps s t) :
    KeepsX s (Machine.execUpg a0 t) := by
  unfold Machine.execUpg
  exact KeepsX.onDie h (fun _ h1 => Keeps.cohReq h1)

theorem Keeps.execWbd {s t : State} {a0 : CohMsg} (h : Keeps s t) :
    KeepsX s (Machine.execWbd a0 t) := by
  unfold Machine.execWbd
  exact KeepsX.onDie h (fun _ h1 => Keeps.cohReq h1)

theorem Keeps.execEvc {s t : State} {a0 : CohMsg} (h : Keeps s t) :
    KeepsX s (Machine.execEvc a0 t) := by
  unfold Machine.execEvc
  exact KeepsX.onDie h (fun _ h1 => Keeps.cohReq h1)

theorem Keeps.execRdnc {s t : State} {a0 : CohMsg} (h : Keeps s t) :
    KeepsX s (Machine.execRdnc a0 t) := by
  unfold Machine.execRdnc
  exact KeepsX.onDie h (fun _ h1 => Keeps.cohReq h1)

theorem Keeps.execWayEligible {s t : State} {a0 : Fin 16} {a1 : BitVec 13} (h : Keeps s t) :
    KeepsX s (Machine.execWayEligible a0 a1 t) := by
  unfold Machine.execWayEligible
  exact KeepsX.onDie h (fun _ h1 => by
    extract_lets +onlyGivenNames -underBinder -merge x2
    have h2 : Keeps s x2 := by
      unfold x2
      split
      · exact h1
      · exact Keeps.tryClose (Keeps.takeWay h1)
    try clear_value x2
    split
    · split
      · exact Keeps.pfNextQueued (Keeps.pfAlloc h2)
      · exact h2
    · exact h2)

theorem Keeps.cohSnp {s t : State} {a1 a2 : Nat} {a3 : CohMsg} (h : Keeps s t) :
    Keeps s (State.cohSnp t a1 a2 a3) := by
  unfold State.cohSnp
  extract_lets +onlyGivenNames -underBinder -merge x1
  exact Keeps.arrive h (fun _ h2 => Keeps.ite (fun _ => Keeps.biSnoop h2) (fun _ => Keeps.ite (fun _ => Keeps.agSnoop h2) (fun _ => Keeps.toMember h2)))

theorem Keeps.execSnps {s t : State} {a0 : Fin 96} {a1 : CohMsg} (h : Keeps s t) :
    KeepsX s (Machine.execSnps a0 a1 t) := by
  unfold Machine.execSnps
  exact KeepsX.onDie h (fun _ h1 => Keeps.cohSnp h1)

theorem Keeps.execSnpi {s t : State} {a0 : Fin 96} {a1 : CohMsg} (h : Keeps s t) :
    KeepsX s (Machine.execSnpi a0 a1 t) := by
  unfold Machine.execSnpi
  exact KeepsX.onDie h (fun _ h1 => Keeps.cohSnp h1)

theorem Keeps.execSnpf {s t : State} {a0 : Fin 96} {a1 : CohMsg} (h : Keeps s t) :
    KeepsX s (Machine.execSnpf a0 a1 t) := by
  unfold Machine.execSnpf
  exact KeepsX.onDie h (fun _ h1 => Keeps.cohSnp h1)

theorem Keeps.cohRsp {s t : State} {a1 : Nat} {a2 : CohMsg} (h : Keeps s t) :
    Keeps s (State.cohRsp t a1 a2) := by
  unfold State.cohRsp
  exact Keeps.arrive h (fun _ h1 => Keeps.ite (fun _ => Keeps.homeAnswer h1) (fun _ => Keeps.pfLocalAnswer h1))

theorem Keeps.execRspi {s t : State} {a0 : CohMsg} (h : Keeps s t) :
    KeepsX s (Machine.execRspi a0 t) := by
  unfold Machine.execRspi
  exact KeepsX.onDie h (fun _ h1 => Keeps.cohRsp h1)

theorem Keeps.execRsps {s t : State} {a0 : CohMsg} (h : Keeps s t) :
    KeepsX s (Machine.execRsps a0 t) := by
  unfold Machine.execRsps
  exact KeepsX.onDie h (fun _ h1 => Keeps.cohRsp h1)

theorem Keeps.execRspf {s t : State} {a0 : CohMsg} (h : Keeps s t) :
    KeepsX s (Machine.execRspf a0 t) := by
  unfold Machine.execRspf
  exact KeepsX.onDie h (fun _ h1 => Keeps.cohRsp h1)

theorem Keeps.execRspx {s t : State} {a0 : CohMsg} (h : Keeps s t) :
    KeepsX s (Machine.execRspx a0 t) := by
  unfold Machine.execRspx
  exact KeepsX.onDie h (fun _ h1 => Keeps.cohRsp h1)

theorem Keeps.execMemoryData {s t : State} {a0 : Fin 16} {a1 : BitVec 8} (h : Keeps s t) :
    KeepsX s (Machine.execMemoryData a0 a1 t) := by
  unfold Machine.execMemoryData
  exact KeepsX.onDie h (fun _ h1 => Keeps.homeMemData h1)

theorem Keeps.execWdone {s t : State} {a0 : Fin 16} {a1 : BitVec 8} (h : Keeps s t) :
    KeepsX s (Machine.execWdone a0 a1 t) := by
  unfold Machine.execWdone
  exact KeepsX.onDie h (fun _ h1 => Keeps.homeWdone h1)

theorem Keeps.execLockTimeout {s t : State} {a0 : Fin 16} {a1 : BitVec 8} (h : Keeps s t) :
    KeepsX s (Machine.execLockTimeout a0 a1 t) := by
  unfold Machine.execLockTimeout
  exact KeepsX.onDie h (fun _ h1 => by
    split
    · exact h1
    · refine Keeps.ite (fun _ => ?_) (fun _ => ?_)
      · exact h1
      · extract_lets +onlyGivenNames -underBinder -merge x2
        have h2 : Keeps s x2 := Keeps.set (Keeps.bump h1)
        try clear_value x2
        extract_lets +onlyGivenNames -underBinder -merge x3
        have h3 : Keeps s x3 := Keeps.record h2
        try clear_value x3
        exact Keeps.tryClose (Keeps.setTT h3))

theorem Keeps.jobAnswer {s t : State} {a1 a2 : Nat} {a3 : CohMsg} (h : Keeps s t) :
    Keeps s (State.jobAnswer t a1 a2 a3) := by
  unfold State.jobAnswer
  split
  · exact h
  · extract_lets +onlyGivenNames -underBinder -merge x1
    extract_lets +onlyGivenNames -underBinder -merge x2
    exact Keeps.onGal h

theorem Keeps.tagArrives {s t : State} {a1 : Nat} {a2 : CohMsg} (h : Keeps s t) :
    Keeps s (State.tagArrives t a1 a2) := by
  unfold State.tagArrives
  extract_lets +onlyGivenNames -underBinder -merge x1
  exact Keeps.upd h

theorem Keeps.agTake {s t : State} {a1 a2 : Nat} {a3 : CohMsg} (h : Keeps s t) :
    Keeps s (State.agTake t a1 a2 a3) := by
  unfold State.agTake
  extract_lets +onlyGivenNames -underBinder -merge x1
  have h1 : Keeps s x1 := Keeps.agComplete h
  try clear_value x1
  extract_lets +onlyGivenNames -underBinder -merge x2
  have h2 : Keeps s x2 := Keeps.ite (fun _ => Keeps.jobAnswer h) (fun _ => Keeps.ite (fun _ => Keeps.tagArrives h) (fun _ => Keeps.ite (fun _ => h) (fun _ => Keeps.ite (fun _ => Keeps.galEvict h1) (fun _ => h1))))
  try clear_value x2
  exact Keeps.agRetry h2

theorem Keeps.cohCpl {s t : State} {a1 a2 : Nat} {a3 : CohMsg} (h : Keeps s t) :
    Keeps s (State.cohCpl t a1 a2 a3) := by
  unfold State.cohCpl
  extract_lets +onlyGivenNames -underBinder -merge x1
  exact Keeps.arrive h (fun _ h2 => by
      refine Keeps.ite (fun _ => ?_) (fun _ => ?_)
      · exact Keeps.hostDone h2
      · extract_lets +onlyGivenNames -underBinder -merge x3
        have h3 : Keeps s x3 := Keeps.txnEnd h2
        try clear_value x3
        exact Keeps.ite (fun _ => Keeps.agTake h3) (fun _ => Keeps.toMember h3))

theorem Keeps.cohTo {s t : State} {a1 : Option (Fin 96)} {a2 : Nat} {a3 : CohMsg} (h : Keeps s t) :
    Keeps s (State.cohTo t a1 a2 a3) := by
  unfold State.cohTo
  split
  · exact Keeps.cohCpl h
  · exact Keeps.arrive h (fun _ h1 => Keeps.homeStray h1)

theorem Keeps.execData {s t : State} {a0 : Option (Fin 96)} {a1 : CohMsg} (h : Keeps s t) :
    KeepsX s (Machine.execData a0 a1 t) := by
  unfold Machine.execData
  exact KeepsX.onDie h (fun _ h1 => Keeps.cohTo h1)

theorem Keeps.execDatae {s t : State} {a0 : Option (Fin 96)} {a1 : CohMsg} (h : Keeps s t) :
    KeepsX s (Machine.execDatae a0 a1 t) := by
  unfold Machine.execDatae
  exact KeepsX.onDie h (fun _ h1 => Keeps.cohTo h1)

theorem Keeps.execCmp {s t : State} {a0 : Option (Fin 96)} {a1 : CohMsg} (h : Keeps s t) :
    KeepsX s (Machine.execCmp a0 a1 t) := by
  unfold Machine.execCmp
  exact KeepsX.onDie h (fun _ h1 => Keeps.cohTo h1)

theorem Keeps.execCmpe {s t : State} {a0 : Option (Fin 96)} {a1 : CohMsg} (h : Keeps s t) :
    KeepsX s (Machine.execCmpe a0 a1 t) := by
  unfold Machine.execCmpe
  exact KeepsX.onDie h (fun _ h1 => Keeps.cohTo h1)

theorem Keeps.execAck {s t : State} {a0 : Option (Fin 96)} {a1 : CohMsg} (h : Keeps s t) :
    KeepsX s (Machine.execAck a0 a1 t) := by
  unfold Machine.execAck
  exact KeepsX.onDie h (fun _ h1 => Keeps.cohTo h1)

theorem Keeps.cohDataM {s t : State} {a1 : CohMsg} (h : Keeps s t) :
    Keeps s (State.cohDataM t a1) := by
  unfold State.cohDataM
  exact Keeps.arrive h (fun _ h1 => Keeps.when (Keeps.ite (fun _ => Keeps.homeDataM h1) (fun _ => Keeps.pfLocalData h1)) (fun _ h2 => Keeps.hostWrote h2))

theorem Keeps.execDatam {s t : State} {a0 : DataMsg} (h : Keeps s t) :
    KeepsX s (Machine.execDatam a0 t) := by
  unfold Machine.execDatam
  exact KeepsX.onDie h (fun _ h1 => by
    split
    · exact Keeps.cohDataM h1
    · exact Keeps.arrive h1 (fun _ h2 => Keeps.ite (fun _ => Keeps.peAgent h2) (fun _ => Keeps.record h2)))

theorem Keeps.agentAccess {s t : State} {a0 : Fin 96} {a1 : AgOp} {a2 : CohMsg} (h : Keeps s t) :
    KeepsX s (Machine.agentAccess a0 a1 a2 t) := by
  unfold Machine.agentAccess
  exact KeepsX.onDie h (fun _ h1 => by
    refine Keeps.ite (fun _ => ?_) (fun _ => ?_)
    · exact Keeps.violate h1
    · split
      · exact Keeps.ite (fun _ => Keeps.agAccess h1) (fun _ => h1)
      · exact h1)

theorem Keeps.execLoad {s t : State} {a0 : Fin 96} {a1 : CohMsg} (h : Keeps s t) :
    KeepsX s (Machine.execLoad a0 a1 t) := by
  unfold Machine.execLoad
  exact Keeps.agentAccess h

theorem Keeps.execStore {s t : State} {a0 : Fin 96} {a1 : CohMsg} (h : Keeps s t) :
    KeepsX s (Machine.execStore a0 a1 t) := by
  unfold Machine.execStore
  exact Keeps.agentAccess h

theorem Keeps.execEvict {s t : State} {a0 : Fin 96} {a1 : CohMsg} (h : Keeps s t) :
    KeepsX s (Machine.execEvict a0 a1 t) := by
  unfold Machine.execEvict
  exact Keeps.agentAccess h

theorem Keeps.dirRead {s t : State} {a1 : Nat} (h : Keeps s t) :
    Keeps s (State.dirRead t a1) := by
  unfold State.dirRead
  extract_lets +onlyGivenNames -underBinder -merge x1 x2
  exact Keeps.set (Keeps.wr (Keeps.wr h))

theorem Keeps.writeHom {s t : State} {a1 : Initiator} {a2 a3 : Nat} (h : Keeps s t) :
    Keeps s (State.writeHom t a1 a2 a3) := by
  unfold State.writeHom
  split
  · exact Keeps.when h (fun _ h1 => Keeps.dirRead h1)
  · exact Keeps.wr h
  · exact Keeps.writeWord h

theorem Keeps.execDirRead {s t : State} {a0 : Initiator} {a1 : Fin 16} {a2 : BitVec 64} (h : Keeps s t) :
    KeepsX s (Machine.execDirRead a0 a1 a2 t) := by
  unfold Machine.execDirRead
  extract_lets +onlyGivenNames -underBinder -merge x1
  exact KeepsX.onDie h (fun _ h2 => Keeps.barWrite h2 (fun _ h3 => Keeps.writeHom h3))

end Sys2Proof.Machine
end

