-- ==== Sys2Proof/Laws/KeepsQueueToTurnstile.lean ====
section
/-!
SUPPORT. What the operations and meanings of Queue, Gallery, Fence, Plic, Floors, Turnstile keep (Laws/Keeps).
-/

namespace Sys2Proof.Machine

theorem Keeps.onQueue {s t : State} {a1 : Nat} {a2 : Queue → Queue} (h : Keeps s t) :
    Keeps s (State.onQueue t a1 a2) := by
  unfold State.onQueue
  exact Keeps.upd h

theorem Keeps.setItem {s t : State} {a1 a2 : Nat} {a3 : QItem} (h : Keeps s t) :
    Keeps s (State.setItem t a1 a2 a3) := by
  unfold State.setItem
  exact Keeps.upd h

theorem Keeps.truncLast {s t : State} {a1 : Nat} (h : Keeps s t) :
    Keeps s (State.truncLast t a1) := by
  unfold State.truncLast
  extract_lets +onlyGivenNames -underBinder -merge x1 x2 x3
  have h3 : Keeps s x3 := Keeps.setItem h
  try clear_value x3
  exact Keeps.set (Keeps.bump h3)

theorem Keeps.truncOpen {s t : State} {a1 : Nat} (h : Keeps s t) :
    Keeps s (State.truncOpen t a1) := by
  unfold State.truncOpen
  extract_lets +onlyGivenNames -underBinder -merge x1
  have h1 : Keeps s x1 := Keeps.truncLast h
  try clear_value x1
  exact Keeps.ite (fun _ => Keeps.clear (Keeps.onQueue h1)) (fun _ => h1)

theorem Keeps.qStore {s t : State} {a1 : Nat} {a2 : QItem} (h : Keeps s t) :
    Keeps s (State.qStore t a1 a2) := by
  unfold State.qStore
  extract_lets +onlyGivenNames -underBinder -merge x1 x2
  refine Keeps.ite (fun _ => ?_) (fun _ => ?_)
  · exact Keeps.ite (fun _ => Keeps.clear h) (fun _ => h)
  · extract_lets +onlyGivenNames -underBinder -merge x3
    have h3 : Keeps s x3 := Keeps.clear h
    try clear_value x3
    extract_lets +onlyGivenNames -underBinder -merge x4
    have h4 : Keeps s x4 := Keeps.when h3 (fun _ h5 => Keeps.truncOpen h5)
    try clear_value x4
    extract_lets +onlyGivenNames -underBinder -merge x6
    have h6 : Keeps s x6 := Keeps.when h4 (fun _ h7 => Keeps.set h7)
    try clear_value x6
    extract_lets +onlyGivenNames -underBinder -merge x8
    have h8 : Keeps s x8 := Keeps.setItem h6
    try clear_value x8
    exact Keeps.wr (Keeps.wr h8)

theorem Keeps.qTake {s t : State} {a1 : Nat} (h : Keeps s t) :
    KeepsO s (fun p => p.2) (State.qTake t a1) := by
  unfold State.qTake
  extract_lets +onlyGivenNames -underBinder -merge x1
  refine KeepsO.ite (fun _ => ?_) (fun _ => ?_)
  · exact KeepsO.some (Keeps.pr2 (Keeps.onQueue h))
  · refine KeepsO.ite (fun _ => ?_) (fun _ => ?_)
    · exact KeepsO.some (Keeps.pr2 h)
    · refine KeepsO.ite (fun _ => ?_) (fun _ => ?_)
      · extract_lets +onlyGivenNames -underBinder -merge x2
        extract_lets +onlyGivenNames -underBinder -merge x3
        have h3 : Keeps s x3 := Keeps.wr (Keeps.wr h)
        try clear_value x3
        extract_lets +onlyGivenNames -underBinder -merge x4
        have h4 : Keeps s x4 := Keeps.when h3 (fun _ h5 => Keeps.wr (Keeps.wr h5))
        try clear_value x4
        exact KeepsO.some (Keeps.pr2 h4)
      · exact KeepsO.none

theorem Keeps.answerPop {s t : State} {a1 : QPort} {a2 a3 : Nat} {a4 : Popped} (h : Keeps s t) :
    Keeps s (State.answerPop t a1 a2 a3 a4) := by
  unfold State.answerPop
  split
  · exact Keeps.emit h
  · split
    · exact Keeps.emit h
    · exact Keeps.emit h

theorem Keeps.showPend {s t : State} {a1 : Nat} (h : Keeps s t) :
    Keeps s (State.showPend t a1) := by
  unfold State.showPend
  exact Keeps.ite (fun _ => Keeps.wr h) (fun _ => h)

theorem Keeps.unstall {s t : State} {a1 : Stalled} (h : Keeps s t) :
    Keeps s (State.unstall t a1) := by
  unfold State.unstall
  exact Keeps.showPend (Keeps.upd h)

theorem Keeps.endStall {s t : State} {a1 : Stalled} (h : Keeps s t) :
    Keeps s (State.endStall t a1) := by
  unfold State.endStall
  exact Keeps.answerPop (Keeps.unstall h)

theorem Keeps.goPush {s t : State} {a1 : Nat} (h : Keeps s t) :
    KeepsO s (fun p => p) (State.goPush t a1) := by
  unfold State.goPush
  split
  · exact KeepsO.none
  · exact KeepsO.ite (fun _ => KeepsO.some (Keeps.qStore (Keeps.onQueue h))) (fun _ => KeepsO.none)

theorem Keeps.goPop {s t : State} {a1 : Nat} (h : Keeps s t) :
    KeepsO s (fun p => p) (State.goPop t a1) := by
  unfold State.goPop
  split
  · rename_i e1_0 e1_1
    have h1 := KeepsO.use (Keeps.qTake h) e1_1
    exact KeepsO.some (Keeps.answerPop (Keeps.unstall h1))
  · exact KeepsO.none

theorem Keeps.qServe {s t : State} {a0 a2 : Nat} (h : Keeps s t) : Keeps s (State.qServe a0 t a2) := by
  induction a0 generalizing t a2 with
  | zero => exact h
  | succ _ ih =>
    have h1 : Keeps s ((t.goPush a2).getD t) := KeepsO.getD (π := fun p => p) (Keeps.goPush h) h
    exact Keeps.ite (fun _ => h1) (fun _ => ih (KeepsO.getD (π := fun p => p) (Keeps.goPop h1) h1))

theorem Keeps.qGo {s t : State} {a1 : Nat} (h : Keeps s t) :
    Keeps s (State.qGo t a1) := by
  unfold State.qGo
  exact Keeps.qServe h

theorem Keeps.dqWake {s t : State} {a1 : Nat} (h : Keeps s t) :
    Keeps s (State.dqWake t a1) := by
  unfold State.dqWake
  exact Keeps.forEach h (fun _ _ h1 => Keeps.ite (fun _ => Keeps.wakeDom h1) (fun _ => h1))

theorem Keeps.qPush {s t : State} {a1 : Nat} {a2 : QItem} (h : Keeps s t) :
    Keeps s (State.qPush t a1 a2) := by
  unfold State.qPush
  exact Keeps.dqWake (Keeps.qGo (Keeps.qStore h))

theorem Keeps.chipPush {s t : State} {a1 a2 : Nat} {a3 : QItem} (h : Keeps s t) :
    Keeps s (State.chipPush t a1 a2 a3) := by
  unfold State.chipPush
  exact Keeps.ite (fun _ => Keeps.qPush h) (fun _ => Keeps.onQueue h)

theorem Keeps.hostPush {s t : State} {a1 : Nat} {a2 : Bytes} {a3 : Nat} (h : Keeps s t) :
    Keeps s (State.hostPush t a1 a2 a3) := by
  unfold State.hostPush
  exact Keeps.ite (fun _ => Keeps.bump h) (fun _ => Keeps.ite (fun _ => Keeps.qPush h) (fun _ => Keeps.set (Keeps.bump h)))

theorem Keeps.qRelease {s t : State} {a1 a2 : Nat} (h : Keeps s t) :
    Keeps s (State.qRelease t a1 a2) := by
  unfold State.qRelease
  refine Keeps.ite (fun _ => ?_) (fun _ => ?_)
  · exact h
  · extract_lets +onlyGivenNames -underBinder -merge x1
    extract_lets +onlyGivenNames -underBinder -merge x2
    have h2 : Keeps s x2 := Keeps.when h (fun _ h3 => Keeps.bump h3)
    try clear_value x2
    extract_lets +onlyGivenNames -underBinder -merge x4 x5 x6
    exact Keeps.when (Keeps.wr h2) (fun _ h7 => Keeps.wr h7)

theorem Keeps.qMark {s t : State} {a1 : Nat} (h : Keeps s t) :
    Keeps s (State.qMark t a1) := by
  unfold State.qMark
  extract_lets +onlyGivenNames -underBinder -merge x1
  exact Keeps.onQueue (Keeps.wr h)

theorem Keeps.qRewind {s t : State} {a1 : Nat} (h : Keeps s t) :
    Keeps s (State.qRewind t a1) := by
  unfold State.qRewind
  exact Keeps.wr (Keeps.wr h)

theorem Keeps.gapTruncate {s t : State} {a1 : Nat} (h : Keeps s t) :
    Keeps s (State.gapTruncate t a1) := by
  unfold State.gapTruncate
  refine Keeps.ite (fun _ => ?_) (fun _ => ?_)
  · extract_lets +onlyGivenNames -underBinder -merge x1
    have h1 : Keeps s x1 := Keeps.onQueue (Keeps.truncLast h)
    try clear_value x1
    extract_lets +onlyGivenNames -underBinder -merge x2
    have h2 : Keeps s x2 := Keeps.set (Keeps.clear (Keeps.clear h1))
    try clear_value x2
    exact Keeps.qGo h2
  · exact h

theorem Keeps.qEmpty {s t : State} {a1 : Nat} (h : Keeps s t) :
    Keeps s (State.qEmpty t a1) := by
  unfold State.qEmpty
  extract_lets +onlyGivenNames -underBinder -merge x1
  have h1 : Keeps s x1 := Keeps.clear (Keeps.clear h)
  try clear_value x1
  extract_lets +onlyGivenNames -underBinder -merge x2
  have h2 : Keeps s x2 := Keeps.clear (Keeps.clear h1)
  try clear_value x2
  extract_lets +onlyGivenNames -underBinder -merge x3
  have h3 : Keeps s x3 := Keeps.clear (Keeps.clear (Keeps.clear h2))
  try clear_value x3
  exact Keeps.onQueue h3

theorem Keeps.dropReleases {s t : State} {a1 : Nat} (h : Keeps s t) :
    Keeps s (State.dropReleases t a1) := by
  unfold State.dropReleases
  exact Keeps.forEach h (fun _ _ h1 => by
    extract_lets +onlyGivenNames -underBinder -merge x3 x4 x5
    exact Keeps.onGal h1)

theorem Keeps.qReset {s t : State} {a1 : Nat} (h : Keeps s t) :
    Keeps s (State.qReset t a1) := by
  unfold State.qReset
  extract_lets +onlyGivenNames -underBinder -merge x1 x2
  have h2 : Keeps s x2 := Keeps.dropReleases (Keeps.qEmpty h)
  try clear_value x2
  extract_lets +onlyGivenNames -underBinder -merge x3
  have h3 : Keeps s x3 := Keeps.onQueue h2
  try clear_value x3
  extract_lets +onlyGivenNames -underBinder -merge x4
  have h4 : Keeps s x4 := Keeps.forEach h3 (fun _ _ h5 => Keeps.emit h5)
  try clear_value x4
  extract_lets +onlyGivenNames -underBinder -merge x7
  have h7 : Keeps s x7 := Keeps.set (Keeps.bump h4)
  try clear_value x7
  exact Keeps.qGo (Keeps.record h7)

theorem Keeps.qDisable {s t : State} {a1 : Nat} (h : Keeps s t) :
    Keeps s (State.qDisable t a1) := by
  unfold State.qDisable
  exact Keeps.qGo (Keeps.clear h)

theorem Keeps.writeCfg {s t : State} {a1 : Initiator} {a2 a3 : Nat} (h : Keeps s t) :
    Keeps s (State.writeCfg t a1 a2 a3) := by
  unfold State.writeCfg
  refine Keeps.ite (fun _ => ?_) (fun _ => ?_)
  · exact Keeps.ite (fun _ => h) (fun _ => Keeps.qDisable h)
  · extract_lets +onlyGivenNames -underBinder -merge x1
    extract_lets +onlyGivenNames -underBinder -merge x2
    have h2 : Keeps s x2 := Keeps.writeWord h
    try clear_value x2
    exact Keeps.ite (fun _ => h2) (fun _ => Keeps.ite (fun _ => Keeps.qGo (Keeps.qEmpty (Keeps.set h2))) (fun _ => Keeps.bump h2))

theorem Keeps.writeCmd {s t : State} {a1 a2 : Nat} (h : Keeps s t) :
    Keeps s (State.writeCmd t a1 a2) := by
  unfold State.writeCmd
  extract_lets +onlyGivenNames -underBinder -merge x1
  have h1 : Keeps s x1 := Keeps.qRelease h
  try clear_value x1
  extract_lets +onlyGivenNames -underBinder -merge x2
  have h2 : Keeps s x2 := KeepsO.getD (Keeps.goPush h1) h1
  try clear_value x2
  extract_lets +onlyGivenNames -underBinder -merge x3
  have h3 : Keeps s x3 := Keeps.when h2 (fun _ h4 => Keeps.qRewind h4)
  try clear_value x3
  exact Keeps.qGo (Keeps.when h3 (fun _ h5 => Keeps.qMark h5))

theorem Keeps.portPush {s t : State} {a1 : Nat} {a2 : Initiator} {a3 : Nat} {a4 : Bytes} {a5 : Nat} (h : Keeps s t) :
    Keeps s (State.portPush t a1 a2 a3 a4 a5) := by
  unfold State.portPush
  exact Keeps.barWrite h (fun _ h1 => Keeps.hostPush h1)

theorem Keeps.execPush {s t : State} {a0 : Fin 1024} {a1 : QPort} {a2 : Bytes} (h : Keeps s t) :
    KeepsX s (Machine.execPush a0 a1 a2 t) := by
  unfold Machine.execPush
  exact KeepsX.onDie h (fun _ h1 => by
    split
    · exact Keeps.portPush h1
    · exact Keeps.chipPush h1)

theorem Keeps.execPushSop {s t : State} {a0 : Fin 1024} {a1 : Initiator} {a2 : Bytes} (h : Keeps s t) :
    KeepsX s (Machine.execPushSop a0 a1 a2 t) := by
  unfold Machine.execPushSop
  exact KeepsX.onDie h (fun _ h1 => Keeps.portPush h1)

theorem Keeps.execPushMid {s t : State} {a0 : Fin 1024} {a1 : Initiator} {a2 : Bytes} (h : Keeps s t) :
    KeepsX s (Machine.execPushMid a0 a1 a2 t) := by
  unfold Machine.execPushMid
  exact KeepsX.onDie h (fun _ h1 => Keeps.portPush h1)

theorem Keeps.execPushEop {s t : State} {a0 : Fin 1024} {a1 : Initiator} {a2 : Bytes} (h : Keeps s t) :
    KeepsX s (Machine.execPushEop a0 a1 a2 t) := by
  unfold Machine.execPushEop
  exact KeepsX.onDie h (fun _ h1 => Keeps.portPush h1)

theorem Keeps.stallPop {s t : State} {a1 : Nat} {a2 : QPort} {a3 a4 : Nat} (h : Keeps s t) :
    Keeps s (State.stallPop t a1 a2 a3 a4) := by
  unfold State.stallPop
  refine Keeps.ite (fun _ => ?_) (fun _ => ?_)
  · exact Keeps.answerPop h
  · extract_lets +onlyGivenNames -underBinder -merge x1
    exact Keeps.showPend (Keeps.upd h)

theorem Keeps.qPop {s t : State} {a1 : Nat} {a2 : QPort} {a3 a4 : Nat} (h : Keeps s t) :
    Keeps s (State.qPop t a1 a2 a3 a4) := by
  unfold State.qPop
  refine Keeps.ite (fun _ => ?_) (fun _ => ?_)
  · exact Keeps.stallPop h
  · split
    · rename_i e1_0
      have h1 := KeepsO.use (Keeps.qTake h) e1_0
      exact Keeps.qGo (Keeps.answerPop h1)
    · exact Keeps.stallPop h

theorem Keeps.hostPop {s t : State} {a1 : Nat} {a2 : Initiator} {a3 a4 : Nat} (h : Keeps s t) :
    Keeps s (State.hostPop t a1 a2 a3 a4) := by
  unfold State.hostPop
  refine Keeps.ite (fun _ => ?_) (fun _ => ?_)
  · exact Keeps.emit (Keeps.bump h)
  · refine Keeps.ite (fun _ => ?_) (fun _ => ?_)
    · exact Keeps.answerPop (Keeps.bump h)
    · extract_lets +onlyGivenNames -underBinder -merge x1
      exact Keeps.qPop h

theorem Keeps.execPop {s t : State} {a0 : Fin 1024} {a1 : QPort} {a2 : BitVec 8} {a3 : BitVec 16} (h : Keeps s t) :
    KeepsX s (Machine.execPop a0 a1 a2 a3 t) := by
  unfold Machine.execPop
  exact KeepsX.onDie h (fun _ h1 => by
    split
    · exact Keeps.qPop h1
    · extract_lets +onlyGivenNames -underBinder -merge x2
      split
      · rename_i e3_0
        have h3 : Keeps s _ := Keeps.eq2 e3_0 (Keeps.access (Keeps.dropHalves (Keeps.accessing h1)))
        exact Keeps.firstAccess (Keeps.ite (fun _ => Keeps.hostPop h3) (fun _ => Keeps.emit h3)))

theorem Keeps.qCmd {s t : State} {a1 : Nat} {a2 : QPort} {a3 : Nat} (h : Keeps s t) :
    Keeps s (State.qCmd t a1 a2 a3) := by
  unfold State.qCmd
  split
  · exact Keeps.barWrite h (fun _ h1 => Keeps.writeCmd h1)
  · exact Keeps.writeCmd h

theorem Keeps.execRelease {s t : State} {a0 : Fin 1024} {a1 : QPort} {a2 : BitVec 15} (h : Keeps s t) :
    KeepsX s (Machine.execRelease a0 a1 a2 t) := by
  unfold Machine.execRelease
  exact KeepsX.onDie h (fun _ h1 => Keeps.qCmd h1)

theorem Keeps.execMark {s t : State} {a0 : Fin 1024} {a1 : QPort} (h : Keeps s t) :
    KeepsX s (Machine.execMark a0 a1 t) := by
  unfold Machine.execMark
  exact KeepsX.onDie h (fun _ h1 => Keeps.qCmd h1)

theorem Keeps.execRewind {s t : State} {a0 : Fin 1024} {a1 : QPort} (h : Keeps s t) :
    KeepsX s (Machine.execRewind a0 a1 t) := by
  unfold Machine.execRewind
  exact KeepsX.onDie h (fun _ h1 => Keeps.qCmd h1)

theorem Keeps.execGapTruncate {s t : State} {a0 : Fin 1024} (h : Keeps s t) :
    KeepsX s (Machine.execGapTruncate a0 t) := by
  unfold Machine.execGapTruncate
  exact KeepsX.onDie h (fun _ h1 => Keeps.gapTruncate h1)

theorem Keeps.execQreset {s t : State} {a0 : Fin 1024} (h : Keeps s t) :
    KeepsX s (Machine.execQreset a0 t) := by
  unfold Machine.execQreset
  exact KeepsX.onDie h (fun _ h1 => Keeps.qReset h1)

theorem Keeps.execQueueEnable {s t : State} {a0 : Fin 1024} {a1 : Initiator} {a2 : BitVec 64} (h : Keeps s t) :
    KeepsX s (Machine.execQueueEnable a0 a1 a2 t) := by
  unfold Machine.execQueueEnable
  exact KeepsX.onDie h (fun _ h1 => Keeps.barWrite h1 (fun _ h2 => Keeps.writeCfg h2))

theorem Keeps.execQueueDisable {s t : State} {a0 : Fin 1024} {a1 : Initiator} {a2 : BitVec 64} (h : Keeps s t) :
    KeepsX s (Machine.execQueueDisable a0 a1 a2 t) := by
  unfold Machine.execQueueDisable
  exact KeepsX.onDie h (fun _ h1 => Keeps.barWrite h1 (fun _ h2 => Keeps.writeCfg h2))

theorem Keeps.showGal {s t : State} {a1 : Nat} (h : Keeps s t) :
    Keeps s (State.showGal t a1) := by
  unfold State.showGal
  extract_lets +onlyGivenNames -underBinder -merge x1
  exact Keeps.wr (Keeps.wr h)

theorem Keeps.setJob {s t : State} {a1 : Nat} {a2 : Job} (h : Keeps s t) :
    Keeps s (State.setJob t a1 a2) := by
  unfold State.setJob
  exact Keeps.showGal (Keeps.onGal h)

theorem Keeps.keepMark {s t : State} {a1 a2 : Nat} (h : Keeps s t) :
    Keeps s (State.keepMark t a1 a2) := by
  unfold State.keepMark
  extract_lets +onlyGivenNames -underBinder -merge x1 x2
  try clear_value x2
  extract_lets +onlyGivenNames -underBinder -merge x3
  exact Keeps.onQueue (Keeps.wr h)

theorem Keeps.undoStep {s t : State} {a1 : Job} (h : Keeps s t) :
    Keeps s (State.undoStep t a1) := by
  unfold State.undoStep
  split
  · exact h
  · extract_lets +onlyGivenNames -underBinder -merge x1
    have h1 : Keeps s x1 := by
      unfold x1
      split
      · exact Keeps.releaseRun h
      · exact h
    try clear_value x1
    extract_lets +onlyGivenNames -underBinder -merge x2
    have h2 : Keeps s x2 := by
      unfold x2
      split
      · extract_lets +onlyGivenNames -underBinder -merge x3
        exact Keeps.ite (fun _ => Keeps.setTwin (Keeps.releaseRun h1)) (fun _ => Keeps.setTwin h1)
      · exact h1
    try clear_value x2
    exact Keeps.upd h2

theorem Keeps.stepEnds {s t : State} {a1 : Job} (h : Keeps s t) :
    Keeps s (State.stepEnds t a1) := by
  unfold State.stepEnds
  extract_lets +onlyGivenNames -underBinder -merge x1
  exact Keeps.ite (fun _ => Keeps.serveQueues (Keeps.upd h)) (fun _ => h)

theorem Keeps.endJob {s t : State} {a1 : Nat} {a2 : Job} {a3 a4 : Nat} (h : Keeps s t) :
    Keeps s (State.endJob t a1 a2 a3 a4) := by
  unfold State.endJob
  extract_lets +onlyGivenNames -underBinder -merge x1
  have h1 : Keeps s x1 := Keeps.stepEnds (Keeps.undoStep h)
  try clear_value x1
  extract_lets +onlyGivenNames -underBinder -merge x2 x3
  have h3 : Keeps s x3 := Keeps.upd h1
  try clear_value x3
  extract_lets +onlyGivenNames -underBinder -merge x4 x5 x6
  exact Keeps.setJob h3

theorem Keeps.startJobs {s t : State} {a0 a2 : Nat} (h : Keeps s t) :
    Keeps s (State.startJobs a0 t a2) := by
  induction a0 generalizing t a2 with
  | zero => exact h
  | succ _ ih =>
    rw [State.startJobs.eq_2]
    split
    · exact h
    · refine Keeps.ite (fun _ => ?_) (fun _ => ?_)
      · exact h
      · extract_lets +onlyGivenNames -underBinder -merge x1
        extract_lets +onlyGivenNames -underBinder -merge x2
        have h2 : Keeps s x2 := Keeps.keepMark (Keeps.setJob h)
        try clear_value x2
        extract_lets +onlyGivenNames -underBinder -merge x3
        have h3 : Keeps s x3 := by
          unfold x3
          split
          · exact Keeps.endJob h2
          · exact Keeps.ite (fun _ => h2) (fun _ => Keeps.endJob h2)
        try clear_value x3
        exact ih h3

theorem Keeps.closeJq {s t : State} {a1 a2 : Nat} (h : Keeps s t) :
    Keeps s (State.closeJq t a1 a2) := by
  unfold State.closeJq
  extract_lets +onlyGivenNames -underBinder -merge x1
  exact Keeps.ite (fun _ => Keeps.clear (Keeps.onGal h)) (fun _ => h)

theorem Keeps.writeJq {s t : State} {a1 : Initiator} {a2 a3 a4 : Nat} (h : Keeps s t) :
    Keeps s (State.writeJq t a1 a2 a3 a4) := by
  unfold State.writeJq
  extract_lets +onlyGivenNames -underBinder -merge x1
  have h1 : Keeps s x1 := Keeps.wr h
  try clear_value x1
  refine Keeps.ite (fun _ => ?_) (fun _ => ?_)
  · exact Keeps.ite (fun _ => h1) (fun _ => Keeps.closeJq (Keeps.onGal h1))
  · extract_lets +onlyGivenNames -underBinder -merge x2
    have h2 : Keeps s x2 := Keeps.writeWord h1
    try clear_value x2
    exact Keeps.ite (fun _ => h2) (fun _ => Keeps.ite (fun _ => Keeps.set (Keeps.clear h2)) (fun _ => Keeps.set h2))

theorem Keeps.popPacket {s t : State} {a0 a2 : Nat} {a3 : List QItem} (h : Keeps s t) :
    Keeps s (State.popPacket a0 t a2 a3).2 := by
  induction a0 generalizing t a2 a3 with
  | zero => exact h
  | succ _ ih =>
    rw [State.popPacket.eq_2]
    split
    · exact Keeps.pr2 h
    · rename_i e1_0
      have h1 := KeepsO.use (Keeps.qTake h) e1_0
      split
      · split
        · exact ih h1
        · exact Keeps.pr2 h1
      · exact Keeps.pr2 h1
    · rename_i e2_0
      have h2 := KeepsO.use (Keeps.qTake h) e2_0
      extract_lets +onlyGivenNames -underBinder -merge x3
      split
      · exact Keeps.pr2 h2
      · exact ih h2

theorem Keeps.fetched {s t : State} {a1 a2 a3 a4 : Nat} {a5 : Option (List QItem × Option Bool)} (h : Keeps s t) :
    Keeps s (State.fetched t a1 a2 a3 a4 a5) := by
  unfold State.fetched
  split
  · exact Keeps.closeJq (Keeps.onGal h)
  · exact Keeps.ite (fun _ => Keeps.onGal h) (fun _ => Keeps.keepMark (Keeps.onGal h))
  · extract_lets +onlyGivenNames -underBinder -merge x1
    extract_lets +onlyGivenNames -underBinder -merge x2 x3 x4
    have h4 : Keeps s x4 := Keeps.upd h
    try clear_value x4
    extract_lets +onlyGivenNames -underBinder -merge x5 x6
    have h6 : Keeps s x6 := Keeps.onGal h4
    try clear_value x6
    extract_lets +onlyGivenNames -underBinder -merge x7
    have h7 : Keeps s x7 := Keeps.showGal (Keeps.bump h6)
    try clear_value x7
    exact Keeps.startJobs (Keeps.keepMark h7)

theorem Keeps.fetchFrom {s t : State} {a1 a2 a3 : Nat} {a4 : List QItem} (h : Keeps s t) :
    Keeps s (State.fetchFrom t a1 a2 a3 a4) := Keeps.fetched (Keeps.popPacket h)

theorem Keeps.fetchJob {s t : State} {a1 : Nat} (h : Keeps s t) :
    Keeps s (State.fetchJob t a1) := by
  unfold State.fetchJob
  refine Keeps.ite (fun _ => ?_) (fun _ => ?_)
  · exact h
  · split
    · exact Keeps.fetchFrom h
    · split
      · exact h
      · extract_lets +onlyGivenNames -underBinder -merge x1
        have h1 : Keeps s x1 := Keeps.onGal h
        try clear_value x1
        exact Keeps.fetchFrom h1

theorem Keeps.galRewind {s t : State} {a1 : Nat} (h : Keeps s t) :
    Keeps s (State.galRewind t a1) := by
  unfold State.galRewind
  extract_lets +onlyGivenNames -underBinder -merge x1
  have h1 : Keeps s x1 := Keeps.forEach h (fun _ _ h2 => Keeps.qRewind (Keeps.keepMark h2))
  try clear_value x1
  extract_lets +onlyGivenNames -underBinder -merge x4
  exact Keeps.showGal (Keeps.onGal h1)

theorem Keeps.jobFetch {s t : State} {a1 : Nat} {a2 : Job} {a3 : Nat} (h : Keeps s t) :
    Keeps s (State.jobFetch t a1 a2 a3).2.2 := by
  unfold State.jobFetch
  split
  · exact Keeps.pr22 h
  · split
    · exact Keeps.pr22 h
    · extract_lets +onlyGivenNames -underBinder -merge x1
      extract_lets +onlyGivenNames -underBinder -merge x2
      split
      · exact Keeps.pr22 (Keeps.galStat h)
      · split
        · exact Keeps.pr22 (Keeps.agLoad h)
        · split
          · exact Keeps.pr22 h
          · split
            · extract_lets +onlyGivenNames -underBinder -merge x3
              have h3 : Keeps s x3 := Keeps.postRead (Keeps.pageTouch h)
              try clear_value x3
              split
              · rename_i e4_0
                have h4 : Keeps s _ := Keeps.eq2 e4_0 (Keeps.takeLine h3)
                exact Keeps.pr22 h4
            · exact Keeps.pr22 (Keeps.request h)

theorem Keeps.jobStore {s t : State} {a1 : Nat} {a2 : Job} {a3 : Nat} {a4 : Line} {a5 : BitVec 64} {a6 : Bool} (h : Keeps s t) :
    Keeps s (State.jobStore t a1 a2 a3 a4 a5 a6).2.2 := by
  unfold State.jobStore
  split
  · exact Keeps.pr22 h
  · exact Keeps.pr22 h
  · split
    · exact Keeps.pr22 h
    · extract_lets +onlyGivenNames -underBinder -merge x1
      extract_lets +onlyGivenNames -underBinder -merge x2 x3
      have h3 : Keeps s x3.2 := by
        unfold x3
        split
        · exact Keeps.writeNow h
        · exact Keeps.pr2 h
      try clear_value x3
      split
      · exact Keeps.pr22 h3
      · split
        · exact Keeps.pr22 h
        · extract_lets +onlyGivenNames -underBinder -merge x4
          have h4 : Keeps s x4 := Keeps.request (Keeps.spend h)
          try clear_value x4
          extract_lets +onlyGivenNames -underBinder -merge x5
          have h5 : Keeps s x5 := Keeps.send h4
          try clear_value x5
          exact Keeps.pr22 h5

theorem Keeps.pushItem {s t : State} {a1 : Job} {a2 : Line} {a3 : Bool} (h : Keeps s t) :
    Keeps s (State.pushItem t a1 a2 a3) := by
  unfold State.pushItem
  exact Keeps.qPush h

theorem Keeps.pushList {s t : State} {a0 a2 a3 : Nat} (h : Keeps s t) :
    Keeps s (State.pushList a0 t a2 a3) := by
  induction a0 generalizing t a2 a3 with
  | zero => exact h
  | succ _ ih =>
    rw [State.pushList.eq_2]
    split
    · exact h
    · split
      · exact h
      · exact Keeps.ite (fun _ => ih (Keeps.setJob (Keeps.pushItem h))) (fun _ => h)

theorem Keeps.jobRun {s t : State} {a0 : State → Nat → Job → State × Bool} {a1 a3 a4 : Nat} (h : Keeps s t)
    (k0 : ∀ y0 y1 y2, Keeps s y0 → Keeps s (a0 y0 y1 y2).1) :
    Keeps s (State.jobRun a0 a1 t a3 a4) := by
  induction a1 generalizing t a3 a4 with
  | zero => exact h
  | succ _ ih =>
    rw [State.jobRun.eq_2]
    split
    · exact Keeps.pushList h
    · refine Keeps.ite (fun _ => ?_) (fun _ => ?_)
      · exact Keeps.pushList h
      · refine Keeps.ite (fun _ => ?_) (fun _ => ?_)
        · exact Keeps.endJob (Keeps.pushList h)
        · refine Keeps.ite (fun _ => ?_) (fun _ => ?_)
          · exact Keeps.endJob (Keeps.pushList h)
          · split
            · rename_i e1_0
              have h1 : Keeps s _ := Keeps.eq1 e1_0 (k0 _ _ _ (Keeps.pushList h))
              exact Keeps.ite (fun _ => ih h1) (fun _ => h1)

theorem Keeps.jobRow {s t : State} {a1 a2 a3 a4 : Nat} {a5 : State → Nat → Job → State × Bool} (h : Keeps s t)
    (k5 : ∀ y0 y1 y2, Keeps s y0 → Keeps s (a5 y0 y1 y2).1) :
    Keeps s (State.jobRow t a1 a2 a3 a4 a5) := by
  unfold State.jobRow
  split
  · exact h
  · exact Keeps.ite (fun _ => Keeps.startJobs (Keeps.jobRun h (fun _ _ _ h1 => k5 _ _ _ h1))) (fun _ => h)

theorem Keeps.countResult {s t : State} {a1 : Nat} {a2 : Job} (h : Keeps s t) :
    Keeps s (State.countResult t a1 a2) := by
  unfold State.countResult
  extract_lets +onlyGivenNames -underBinder -merge x1
  have h1 : Keeps s x1 := Keeps.when h (fun _ h2 => Keeps.set (Keeps.bump h2))
  try clear_value x1
  extract_lets +onlyGivenNames -underBinder -merge x3
  have h3 : Keeps s x3 := Keeps.when h1 (fun _ h4 => Keeps.set (Keeps.bump h4))
  try clear_value x3
  extract_lets +onlyGivenNames -underBinder -merge x5
  have h5 : Keeps s x5 := Keeps.when h3 (fun _ h6 => Keeps.set (Keeps.bump h6))
  try clear_value x5
  extract_lets +onlyGivenNames -underBinder -merge x7
  have h7 : Keeps s x7 := Keeps.when h5 (fun _ h8 => Keeps.set (Keeps.bump h8))
  try clear_value x7
  exact Keeps.when h7 (fun _ h9 => Keeps.set h9)

theorem Keeps.abortDone {s t : State} {a1 : Nat} {a2 : Job} (h : Keeps s t) :
    Keeps s (State.abortDone t a1 a2) := by
  unfold State.abortDone
  refine Keeps.ite (fun _ => ?_) (fun _ => ?_)
  · extract_lets +onlyGivenNames -underBinder -merge x1
    have h1 : Keeps s x1 := Keeps.onGal h
    try clear_value x1
    exact Keeps.set (Keeps.wr h1)
  · exact h

theorem Keeps.committed {s t : State} {a1 : Nat} {a2 : Job} (h : Keeps s t) :
    Keeps s (State.committed t a1 a2) := by
  unfold State.committed
  extract_lets +onlyGivenNames -underBinder -merge x1
  have h1 : Keeps s x1 := Keeps.onGal h
  try clear_value x1
  extract_lets +onlyGivenNames -underBinder -merge x2
  have h2 : Keeps s x2 := Keeps.when h1 (fun _ h3 => Keeps.qGo (Keeps.qRelease h3))
  try clear_value x2
  extract_lets +onlyGivenNames -underBinder -merge x4
  have h4 : Keeps s x4 := Keeps.counts (Keeps.bump h2)
  try clear_value x4
  extract_lets +onlyGivenNames -underBinder -merge x5
  have h5 : Keeps s x5 := Keeps.abortDone (Keeps.countResult h4)
  try clear_value x5
  exact Keeps.startJobs (Keeps.closeJq (Keeps.showGal h5))

theorem Keeps.commitJob {s t : State} {a1 a2 : Nat} (h : Keeps s t) :
    Keeps s (State.commitJob t a1 a2) := by
  unfold State.commitJob
  split
  · exact h
  · refine Keeps.ite (fun _ => ?_) (fun _ => ?_)
    · exact h
    · extract_lets +onlyGivenNames -underBinder -merge x1
      have h1 : Keeps s x1 := Keeps.pushList h
      try clear_value x1
      split
      · exact h1
      · exact Keeps.ite (fun _ => Keeps.committed (Keeps.pushItem h1)) (fun _ => h1)

theorem Keeps.abortJob {s t : State} {a1 a2 : Nat} (h : Keeps s t) :
    Keeps s (State.abortJob t a1 a2) := by
  unfold State.abortJob
  split
  · exact h
  · extract_lets +onlyGivenNames -underBinder -merge x1
    refine Keeps.ite (fun _ => ?_) (fun _ => ?_)
    · exact Keeps.set (Keeps.wr h)
    · split
      · exact Keeps.set (Keeps.wr h)
      · extract_lets +onlyGivenNames -underBinder -merge x2
        have h2 : Keeps s x2 := Keeps.clear (Keeps.clear h)
        try clear_value x2
        extract_lets +onlyGivenNames -underBinder -merge x3
        have h3 : Keeps s x3 := Keeps.onGal h2
        try clear_value x3
        split
        · exact Keeps.keepMark (Keeps.endJob h3)
        · exact Keeps.ite (fun _ => h3) (fun _ => Keeps.startJobs (Keeps.endJob h3))
        · exact h3

theorem Keeps.writeCrq {s t : State} {a1 : Initiator} {a2 a3 : Nat} (h : Keeps s t) :
    Keeps s (State.writeCrq t a1 a2 a3) := by
  unfold State.writeCrq
  extract_lets +onlyGivenNames -underBinder -merge x1 x2
  refine Keeps.ite (fun _ => ?_) (fun _ => ?_)
  · exact Keeps.bump h
  · refine Keeps.ite (fun _ => ?_) (fun _ => ?_)
    · exact Keeps.writeCmd h
    · refine Keeps.ite (fun _ => ?_) (fun _ => ?_)
      · exact Keeps.writeCfg h
      · refine Keeps.ite (fun _ => ?_) (fun _ => ?_)
        · extract_lets +onlyGivenNames -underBinder -merge x3
          exact Keeps.wr h
        · exact Keeps.ite (fun _ => Keeps.abortJob h) (fun _ => Keeps.writeWord h)

theorem Keeps.galFlush {s t : State} {a1 : Nat} (h : Keeps s t) :
    Keeps s (State.galFlush t a1) := by
  unfold State.galFlush
  exact Keeps.galEvict (Keeps.onGal h)

theorem Keeps.writeGal {s t : State} {a1 : Initiator} {a2 a3 : Nat} (h : Keeps s t) :
    Keeps s (State.writeGal t a1 a2 a3) := by
  unfold State.writeGal
  split
  · exact Keeps.writeJq h
  · exact Keeps.when (Keeps.writeWord h) (fun _ h1 => Keeps.galFlush h1)
  · exact Keeps.writeWord h

theorem Keeps.execJobQueueBind {s t : State} {a0 : Initiator} {a1 : Fin 16} {a2 : Fin 8} {a3 : BitVec 64} (h : Keeps s t) :
    KeepsX s (Machine.execJobQueueBind a0 a1 a2 a3 t) := by
  unfold Machine.execJobQueueBind
  extract_lets +onlyGivenNames -underBinder -merge x1
  exact KeepsX.onDie h (fun _ h2 => Keeps.barWrite h2 (fun _ h3 => Keeps.writeGal h3))

theorem Keeps.execJobQueueUnbind {s t : State} {a0 : Initiator} {a1 : Fin 16} {a2 : Fin 8} {a3 : BitVec 64} (h : Keeps s t) :
    KeepsX s (Machine.execJobQueueUnbind a0 a1 a2 a3 t) := by
  unfold Machine.execJobQueueUnbind
  extract_lets +onlyGivenNames -underBinder -merge x1
  exact KeepsX.onDie h (fun _ h2 => Keeps.barWrite h2 (fun _ h3 => Keeps.writeGal h3))

theorem Keeps.execGalFlush {s t : State} {a0 : Initiator} {a1 : Fin 16} {a2 : BitVec 64} (h : Keeps s t) :
    KeepsX s (Machine.execGalFlush a0 a1 a2 t) := by
  unfold Machine.execGalFlush
  extract_lets +onlyGivenNames -underBinder -merge x1
  exact KeepsX.onDie h (fun _ h2 => Keeps.barWrite h2 (fun _ h3 => Keeps.writeGal h3))

theorem Keeps.execDescriptorFetch {s t : State} {a0 : Fin 16} (h : Keeps s t) :
    KeepsX s (Machine.execDescriptorFetch a0 t) := by
  unfold Machine.execDescriptorFetch
  exact KeepsX.onDie h (fun _ h1 => Keeps.fetchJob h1)

theorem Keeps.execJobCommit {s t : State} {a0 a1 : Fin 16} (h : Keeps s t) :
    KeepsX s (Machine.execJobCommit a0 a1 t) := by
  unfold Machine.execJobCommit
  exact KeepsX.onDie h (fun _ h1 => Keeps.commitJob h1)

theorem Keeps.execAbort {s t : State} {a0 : Initiator} {a1 : Fin 1024} {a2 : BitVec 32} (h : Keeps s t) :
    KeepsX s (Machine.execAbort a0 a1 a2 t) := by
  unfold Machine.execAbort
  exact KeepsX.onDie h (fun _ h1 => Keeps.barWrite h1 (fun _ h2 => Keeps.abortJob h2))

theorem Keeps.showDom {s t : State} {a1 : Nat} (h : Keeps s t) :
    Keeps s (State.showDom t a1) := by
  unfold State.showDom
  exact Keeps.wr h

theorem Keeps.drain {s t : State} {a1 : Nat} (h : Keeps s t) :
    Keeps s (State.drain t a1) := by
  unfold State.drain
  refine Keeps.ite (fun _ => ?_) (fun _ => ?_)
  · extract_lets +onlyGivenNames -underBinder -merge x1
    have h1 : Keeps s x1 := Keeps.drainHome h
    try clear_value x1
    extract_lets +onlyGivenNames -underBinder -merge x2
    have h2 : Keeps s x2 := Keeps.pfDrain h1
    try clear_value x2
    exact Keeps.forEach h2 (fun _ _ h3 => Keeps.mapWriteBack h3)
  · exact Keeps.ite (fun _ => Keeps.galEvict (Keeps.onGal (Keeps.galRewind h))) (fun _ => h)

theorem Keeps.fence {s t : State} {a1 : Nat} (h : Keeps s t) :
    Keeps s (State.fence t a1) := by
  unfold State.fence
  exact Keeps.ite (fun _ => h) (fun _ => Keeps.ite (fun _ => Keeps.set (Keeps.set h)) (fun _ => Keeps.showDom (Keeps.drain (Keeps.wr (Keeps.clear h)))))

theorem Keeps.fenceDone {s t : State} {a1 : Nat} (h : Keeps s t) :
    Keeps s (State.fenceDone t a1) := by
  unfold State.fenceDone
  extract_lets +onlyGivenNames -underBinder -merge x1
  have h1 : Keeps s x1 := Keeps.bump (Keeps.wr h)
  try clear_value x1
  extract_lets +onlyGivenNames -underBinder -merge x2 x3
  have h3 : Keeps s x3 := Keeps.ite (fun _ => Keeps.upd h1) (fun _ => h1)
  try clear_value x3
  exact Keeps.ite (fun _ => h3) (fun _ => Keeps.wakeDom h3)

theorem Keeps.onPlic {s t : State} {a1 : Plic → Plic} (h : Keeps s t) :
    Keeps s (State.onPlic t a1) := by
  unfold State.onPlic
  exact Keeps.upd h

theorem Keeps.irqPulse {s t : State} {a1 : Nat} (h : Keeps s t) :
    Keeps s (State.irqPulse t a1) := by
  unfold State.irqPulse
  exact Keeps.onPlic h

theorem Keeps.gateways {s t : State} (h : Keeps s t) :
    Keeps s (State.gateways t) := by
  unfold State.gateways
  extract_lets +onlyGivenNames -underBinder -merge x1
  exact Keeps.onPlic h

theorem Keeps.block {s t : State} {a1 : Nat} (h : Keeps s t) :
    Keeps s (State.block t a1) := by
  unfold State.block
  exact Keeps.set (Keeps.wr h)

theorem Keeps.floorFences {s t : State} (h : Keeps s t) :
    Keeps s (State.floorFences t) := by
  unfold State.floorFences
  exact Keeps.forEach h (fun _ _ h1 => by
    refine Keeps.ite (fun _ => ?_) (fun _ => ?_)
    · exact h1
    · refine Keeps.ite (fun _ => ?_) (fun _ => ?_)
      · exact Keeps.block (Keeps.fence h1)
      · extract_lets +onlyGivenNames -underBinder -merge x3
        extract_lets +onlyGivenNames -underBinder -merge x4
        have h4 : Keeps s x4 := Keeps.upd h1
        try clear_value x4
        exact Keeps.fence (Keeps.onDom h4))

theorem Keeps.selfRefresh {s t : State} (h : Keeps s t) :
    Keeps s (State.selfRefresh t) := by
  unfold State.selfRefresh
  extract_lets +onlyGivenNames -underBinder -merge x1
  exact Keeps.upd h

theorem Keeps.floor4Done {s t : State} (h : Keeps s t) :
    Keeps s (State.floor4Done t) := by
  unfold State.floor4Done
  extract_lets +onlyGivenNames -underBinder -merge x1
  have h1 : Keeps s x1 := Keeps.clear (Keeps.setFloor h)
  try clear_value x1
  exact Keeps.ite (fun _ => Keeps.retarget (Keeps.sessionEnded h1)) (fun _ => h1)

theorem Keeps.enterN {s t : State} {a0 : Nat} (h : Keeps s t) :
    Keeps s (State.enterN a0 t) := by
  induction a0 generalizing t with
  | zero => exact h
  | succ _ ih =>
    rw [State.enterN.eq_2]
    refine Keeps.ite (fun _ => ?_) (fun _ => ?_)
    · exact h
    · refine Keeps.ite (fun _ => ?_) (fun _ => ?_)
      · exact Keeps.clear (Keeps.upd h)
      · split
        · exact ih (Keeps.setFloor h)
        · exact ih (Keeps.setFloor h)
        · exact Keeps.ite (fun _ => ih (Keeps.setFloor h)) (fun _ => h)
        · refine Keeps.ite (fun _ => ?_) (fun _ => ?_)
          · exact h
          · extract_lets +onlyGivenNames -underBinder -merge x1
            have h1 : Keeps s x1 := Keeps.set (Keeps.selfRefresh h)
            try clear_value x1
            exact Keeps.ite (fun _ => Keeps.floor4Done (Keeps.upd h1)) (fun _ => h1)

theorem Keeps.enter {s t : State} (h : Keeps s t) :
    Keeps s (State.enter t) := by
  unfold State.enter
  extract_lets +onlyGivenNames -underBinder -merge x1
  have h1 : Keeps s x1 := Keeps.enterN h
  try clear_value x1
  exact Keeps.ite (fun _ => Keeps.enterN (Keeps.floorFences h1)) (fun _ => h1)

theorem Keeps.execFloorDwellExpire {s t : State} {a0 : Option (Fin 40)} (h : Keeps s t) :
    KeepsX s (Machine.execFloorDwellExpire a0 t) := by
  unfold Machine.execFloorDwellExpire
  exact KeepsX.onDie h (fun _ h1 => by
    split
    · exact Keeps.ite (fun _ => Keeps.fence (Keeps.upd h1)) (fun _ => h1)
    · exact Keeps.ite (fun _ => h1) (fun _ => Keeps.enter (Keeps.clear (Keeps.set (Keeps.upd h1)))))

theorem Keeps.execCoreWfi {s t : State} {a0 : Fin 4} (h : Keeps s t) :
    KeepsX s (Machine.execCoreWfi a0 t) := by
  unfold Machine.execCoreWfi
  exact KeepsX.onDie h (fun _ h1 => Keeps.ite (fun _ => Keeps.enter (Keeps.upd h1)) (fun _ => h1))

theorem Keeps.execCoreSleepTimeout {s t : State} {a0 : Fin 4} (h : Keeps s t) :
    KeepsX s (Machine.execCoreSleepTimeout a0 t) := by
  unfold Machine.execCoreSleepTimeout
  exact KeepsX.onDie h (fun _ h1 => Keeps.ite (fun _ => Keeps.block h1) (fun _ => h1))

theorem Keeps.execAspmL1Entry {s t : State} {a0 : Fin 16} {a1 : Bool} (h : Keeps s t) :
    KeepsX s (Machine.execAspmL1Entry a0 a1 t) := by
  unfold Machine.execAspmL1Entry
  exact KeepsX.onDie h (fun _ h1 => Keeps.ite (fun _ => h1) (fun _ => Keeps.ite (fun _ => Keeps.enter (Keeps.upd h1)) (fun _ => Keeps.block h1)))

theorem Keeps.execAspmL1Exit {s t : State} {a0 : Fin 16} (h : Keeps s t) :
    KeepsX s (Machine.execAspmL1Exit a0 t) := by
  unfold Machine.execAspmL1Exit
  exact KeepsX.onDie h (fun _ h1 => Keeps.upd h1)

theorem Keeps.writePwr {s t : State} {a1 : Initiator} {a2 a3 : Nat} (h : Keeps s t) :
    Keeps s (State.writePwr t a1 a2 a3) := by
  unfold State.writePwr
  extract_lets +onlyGivenNames -underBinder -merge x1
  have h1 : Keeps s x1 := Keeps.writeWord h
  try clear_value x1
  extract_lets +onlyGivenNames -underBinder -merge x2
  have h2 : Keeps s x2 := Keeps.wr h1
  try clear_value x2
  exact Keeps.retarget (Keeps.wr h2)

theorem Keeps.charge {s t : State} {a1 : Nat} (h : Keeps s t) :
    Keeps s (State.charge t a1) := by
  unfold State.charge
  refine Keeps.ite (fun _ => ?_) (fun _ => ?_)
  · exact h
  · extract_lets +onlyGivenNames -underBinder -merge x1
    have h1 : Keeps s x1 := Keeps.add (Keeps.add h)
    try clear_value x1
    refine Keeps.ite (fun _ => ?_) (fun _ => ?_)
    · extract_lets +onlyGivenNames -underBinder -merge x2
      exact Keeps.upd h1
    · exact h1

theorem Keeps.showMaster {s t : State} {a1 : Nat} (h : Keeps s t) :
    Keeps s (State.showMaster t a1) := by
  unfold State.showMaster
  extract_lets +onlyGivenNames -underBinder -merge x1 x2
  have h2 : Keeps s x2 := Keeps.wr (Keeps.wr h)
  try clear_value x2
  exact Keeps.wr h2

theorem Keeps.effective {s t : State} (h : Keeps s t) :
    Keeps s (State.effective t) := by
  unfold State.effective
  extract_lets +onlyGivenNames -underBinder -merge x1 x2 x3 x4 x5 x6 x7 x8 x9 x10
  have h10 : Keeps s x10 := Keeps.wr (Keeps.wr h)
  try clear_value x10
  extract_lets +onlyGivenNames -underBinder -merge x11
  have h11 : Keeps s x11 := Keeps.wr (Keeps.wr h10)
  try clear_value x11
  extract_lets +onlyGivenNames -underBinder -merge x12
  have h12 : Keeps s x12 := Keeps.when (Keeps.wr h11) (fun _ h13 => Keeps.set h13)
  try clear_value x12
  extract_lets +onlyGivenNames -underBinder -merge x14
  have h14 : Keeps s x14 := Keeps.wr h12
  try clear_value x14
  exact Keeps.forEach h14 (fun _ _ h15 => by
      extract_lets +onlyGivenNames -underBinder -merge x17 x18
      exact Keeps.wr h15)

theorem Keeps.loadForce {s t : State} (h : Keeps s t) :
    Keeps s (State.loadForce t) := by
  unfold State.loadForce
  extract_lets +onlyGivenNames -underBinder -merge x1
  exact Keeps.upd h

theorem Keeps.closeMaster {s t : State} {a1 : Nat} {a2 : Bool} (h : Keeps s t) :
    Keeps s (State.closeMaster t a1 a2) := by
  unfold State.closeMaster
  extract_lets +onlyGivenNames -underBinder -merge x1 x2 x3
  have h3 : Keeps s x3 := Keeps.wr (Keeps.wr h)
  try clear_value x3
  extract_lets +onlyGivenNames -underBinder -merge x4
  have h4 : Keeps s x4 := Keeps.wr (Keeps.wr h3)
  try clear_value x4
  extract_lets +onlyGivenNames -underBinder -merge x5
  have h5 : Keeps s x5 := Keeps.ite (fun _ => h4) (fun _ => Keeps.ite (fun _ => Keeps.wrBit h4) (fun _ => Keeps.wrBit h4))
  try clear_value x5
  extract_lets +onlyGivenNames -underBinder -merge x6
  have h6 : Keeps s x6 := Keeps.when h5 (fun _ h7 => Keeps.set (Keeps.set h7))
  try clear_value x6
  exact Keeps.clear h6

theorem Keeps.markLate {s t : State} (h : Keeps s t) :
    Keeps s (State.markLate t) := by
  unfold State.markLate
  extract_lets +onlyGivenNames -underBinder -merge x1
  exact Keeps.forEach h (fun _ _ h2 => Keeps.ite (fun _ => h2) (fun _ => Keeps.onChan h2))

theorem Keeps.closeWindow {s t : State} {a1 : Bool} (h : Keeps s t) :
    Keeps s (State.closeWindow t a1) := by
  unfold State.closeWindow
  extract_lets +onlyGivenNames -underBinder -merge x1 x2
  have h2 : Keeps s x2 := Keeps.markLate h
  try clear_value x2
  extract_lets +onlyGivenNames -underBinder -merge x3
  have h3 : Keeps s x3 := Keeps.ite (fun _ => h2) (fun _ => Keeps.clear h2)
  try clear_value x3
  extract_lets +onlyGivenNames -underBinder -merge x4
  have h4 : Keeps s x4 := Keeps.forEach h3 (fun _ _ h5 => Keeps.closeMaster h5)
  try clear_value x4
  extract_lets +onlyGivenNames -underBinder -merge x7 x8
  have h8 : Keeps s x8 := Keeps.effective (Keeps.loadForce (Keeps.upd h4))
  try clear_value x8
  extract_lets +onlyGivenNames -underBinder -merge x9
  have h9 : Keeps s x9 := Keeps.wr (Keeps.add h8)
  try clear_value x9
  extract_lets +onlyGivenNames -underBinder -merge x10
  have h10 : Keeps s x10 := Keeps.wr h9
  try clear_value x10
  extract_lets +onlyGivenNames -underBinder -merge x11
  have h11 : Keeps s x11 := Keeps.when (Keeps.wr h10) (fun _ h12 => Keeps.set h12)
  try clear_value x11
  exact Keeps.upd h11

theorem Keeps.stepWindow {s t : State} (h : Keeps s t) :
    Keeps s (State.stepWindow t) := by
  unfold State.stepWindow
  extract_lets +onlyGivenNames -underBinder -merge x1
  have h1 : Keeps s x1 := Keeps.closeWindow h
  try clear_value x1
  exact Keeps.upd h1

theorem Keeps.writeTst {s t : State} {a1 : Initiator} {a2 a3 : Nat} (h : Keeps s t) :
    Keeps s (State.writeTst t a1 a2 a3) := by
  unfold State.writeTst
  refine Keeps.ite (fun _ => ?_) (fun _ => ?_)
  · exact h
  · extract_lets +onlyGivenNames -underBinder -merge x1
    have h1 : Keeps s x1 := Keeps.writeWord h
    try clear_value x1
    exact Keeps.ite (fun _ => Keeps.wr h1) (fun _ => h1)

end Sys2Proof.Machine
end

