-- ==== Sys2Proof/Laws/KeepsChannelToDrc.lean ====
section
/-!
SUPPORT. What the operations and meanings of Channel, Drc keep (Laws/Keeps).
-/

namespace Sys2Proof.Machine

theorem Keeps.fillBanks {s t : State} {a1 : Nat} (h : Keeps s t) :
    Keeps s (State.fillBanks t a1) := by
  unfold State.fillBanks
  exact Keeps.forEach h (fun _ _ h1 => Keeps.ite (fun _ => Keeps.onChan h1) (fun _ => h1))

theorem Keeps.showDrain {s t : State} {a1 : Nat} (h : Keeps s t) :
    Keeps s (State.showDrain t a1) := by
  unfold State.showDrain
  extract_lets +onlyGivenNames -underBinder -merge x1 x2
  exact Keeps.ite (fun _ => Keeps.bump (Keeps.setChan h)) (fun _ => Keeps.ite (fun _ => Keeps.setChan h) (fun _ => h))

theorem Keeps.takeIn {s t : State} {a1 : Nat} {a2 : LineAcc} (h : Keeps s t) :
    Keeps s (State.takeIn t a1 a2) := by
  unfold State.takeIn
  extract_lets +onlyGivenNames -underBinder -merge x1 x2 x3 x4 x5 x6
  have h6 : Keeps s x6 := Keeps.setChan h
  try clear_value x6
  extract_lets +onlyGivenNames -underBinder -merge x7
  have h7 : Keeps s x7 := Keeps.onTxn h6
  try clear_value x7
  extract_lets +onlyGivenNames -underBinder -merge x8
  have h8 : Keeps s x8 := Keeps.counts h7
  try clear_value x8
  extract_lets +onlyGivenNames -underBinder -merge x9
  have h9 : Keeps s x9 := Keeps.ite (fun _ => Keeps.counts h8) (fun _ => h8)
  try clear_value x9
  extract_lets +onlyGivenNames -underBinder -merge x10
  have h10 : Keeps s x10 := Keeps.ite (fun _ => Keeps.bump h9) (fun _ => Keeps.charge h9)
  try clear_value x10
  exact Keeps.showRt (Keeps.showDrain (Keeps.fillBanks h10))

theorem Keeps.execChannelAdmit {s t : State} {a0 : Fin 16} {a1 : Bool} (h : Keeps s t) :
    KeepsX s (Machine.execChannelAdmit a0 a1 t) := by
  unfold Machine.execChannelAdmit
  exact KeepsX.onDie h (fun _ h1 => by
    split
    · exact h1
    · exact Keeps.takeIn h1)

theorem Keeps.refresh {s t : State} {a1 a2 : Nat} (h : Keeps s t) :
    Keeps s (State.refresh t a1 a2) := by
  unfold State.refresh
  extract_lets +onlyGivenNames -underBinder -merge x1 x2
  have h2 : Keeps s x2 := Keeps.wr h
  try clear_value x2
  extract_lets +onlyGivenNames -underBinder -merge x3
  have h3 : Keeps s x3 := Keeps.onChan h2
  try clear_value x3
  exact Keeps.counts (Keeps.bump h3)

theorem Keeps.urgentRefresh {s t : State} {a1 a2 : Nat} (h : Keeps s t) :
    Keeps s (State.urgentRefresh t a1 a2) := by
  unfold State.urgentRefresh
  exact Keeps.refresh (Keeps.bump h)

theorem Keeps.issue {s t : State} {a1 a2 : Nat} {a3 : Cand} (h : Keeps s t) :
    Keeps s (State.issue t a1 a2 a3) := by
  unfold State.issue
  extract_lets +onlyGivenNames -underBinder -merge x1 x2
  have h2 : Keeps s x2 := Keeps.ite (fun _ => Keeps.wr h) (fun _ => h)
  try clear_value x2
  extract_lets +onlyGivenNames -underBinder -merge x3
  split
  · extract_lets +onlyGivenNames -underBinder -merge x4
    have h4 : Keeps s x4 := Keeps.setChan h2
    try clear_value x4
    extract_lets +onlyGivenNames -underBinder -merge x5
    have h5 : Keeps s x5 := Keeps.bump (Keeps.bump h4)
    try clear_value x5
    exact Keeps.showRt (Keeps.showDrain (Keeps.fillBanks h5))
  · extract_lets +onlyGivenNames -underBinder -merge x6
    have h6 : Keeps s x6 := Keeps.setChan h2
    try clear_value x6
    exact Keeps.counts (Keeps.bump h6)
  · exact Keeps.setChan h2

theorem Keeps.precharge {s t : State} {a1 a2 : Nat} (h : Keeps s t) :
    Keeps s (State.precharge t a1 a2) := by
  unfold State.precharge
  exact Keeps.onChan h

theorem Keeps.enterRefresh {s t : State} {a1 a2 : Nat} (h : Keeps s t) :
    Keeps s (State.enterRefresh t a1 a2) := by
  unfold State.enterRefresh
  split
  · exact Keeps.onChan (Keeps.precharge h)
  · exact h

theorem Keeps.execDramCommandIssue {s t : State} {a0 : Fin 16} {a1 : Fin 2} {a2 : BitVec 128} {a3 : BitVec 4} (h : Keeps s t) :
    KeepsX s (Machine.execDramCommandIssue a0 a1 a2 a3 t) := by
  unfold Machine.execDramCommandIssue
  exact KeepsX.onDie h (fun _ h1 => by
    extract_lets +onlyGivenNames -underBinder -merge x2 x3
    split
    · exact Keeps.urgentRefresh h1
    · extract_lets +onlyGivenNames -underBinder -merge x4
      extract_lets +onlyGivenNames -underBinder -merge x5
      split
      · exact Keeps.issue h1
      · split
        · exact Keeps.ite (fun _ => h1) (fun _ => Keeps.refresh h1)
        · exact Keeps.enterRefresh h1)

theorem Keeps.dramEvent {s t : State} {a1 a2 : Nat} (h : Keeps s t) :
    Keeps s (State.dramEvent t a1 a2) := by
  unfold State.dramEvent
  exact Keeps.forEach h (fun _ _ h1 => Keeps.event h1)

theorem Keeps.scrubEvent {s t : State} {a1 a2 a3 : Nat} (h : Keeps s t) :
    Keeps s (State.scrubEvent t a1 a2 a3) := by
  unfold State.scrubEvent
  split
  · exact h
  · exact Keeps.forEach h (fun _ _ h1 => Keeps.event h1)

theorem Keeps.readData {s t : State} {a1 : Nat} {a2 : LineAcc} {a3 a4 : Bytes} (h : Keeps s t) :
    Keeps s (State.readData t a1 a2 a3 a4) := by
  unfold State.readData
  extract_lets +onlyGivenNames -underBinder -merge x1 x2
  have h2 : Keeps s x2 := Keeps.setChan h
  clear_value x2
  extract_lets +onlyGivenNames -underBinder -merge x3 x4 x5 x6 x7
  split
  rename_i e8_0
  have h8 : Keeps s _ := Keeps.eq21 e8_0 (Keeps.takeRead (Keeps.setRawLine h2))
  extract_lets +onlyGivenNames -underBinder -merge x9
  have h9 : Keeps s x9 := Keeps.ite (fun _ => ⟨h8.1, h2.2⟩) (fun _ => h8)
  clear_value x9
  extract_lets +onlyGivenNames -underBinder -merge x10
  have h10 : Keeps s x10 := Keeps.when h9 (fun _ h => Keeps.dramEvent h)
  clear_value x10
  extract_lets +onlyGivenNames -underBinder -merge x11
  have h11 : Keeps s x11 := Keeps.when h10 (fun _ h => Keeps.bump h)
  clear_value x11
  extract_lets +onlyGivenNames -underBinder -merge x12 x13
  have h13 : Keeps s x13 := Keeps.when h11 (fun _ h => Keeps.scrubEvent h)
  clear_value x13
  extract_lets +onlyGivenNames -underBinder -merge x14
  have h14 : Keeps s x14 := Keeps.ite (fun _ => h13) (fun _ => Keeps.upd h13)
  exact Keeps.showRt h14

theorem Keeps.execDramReadData {s t : State} {a0 : Fin 16} {a1 : Fin 2} {a2 a3 : Bytes} (h : Keeps s t) :
    KeepsX s (Machine.execDramReadData a0 a1 a2 a3 t) := by
  unfold Machine.execDramReadData
  exact KeepsX.onDie h (fun _ h1 => by
    split
    · exact h1
    · exact Keeps.readData h1)

theorem Keeps.execPanicExpire {s t : State} {a0 : Fin 16} (h : Keeps s t) :
    KeepsX s (Machine.execPanicExpire a0 t) := by
  unfold Machine.execPanicExpire
  exact KeepsX.onDie h (fun _ h1 => by
    extract_lets +onlyGivenNames -underBinder -merge x2 x3
    refine Keeps.ite (fun _ => ?_) (fun _ => ?_)
    · exact h1
    · extract_lets +onlyGivenNames -underBinder -merge x4
      extract_lets +onlyGivenNames -underBinder -merge x5 x6
      have h6 : Keeps s x6 := Keeps.setChan h1
      try clear_value x6
      exact Keeps.showRt (Keeps.set (Keeps.bump h6)))

theorem Keeps.execPowerDownEntry {s t : State} {a0 : Fin 16} {a1 : Fin 4} (h : Keeps s t) :
    KeepsX s (Machine.execPowerDownEntry a0 a1 t) := by
  unfold Machine.execPowerDownEntry
  exact KeepsX.onDie h (fun _ h1 => by
    extract_lets +onlyGivenNames -underBinder -merge x2 x3
    refine Keeps.ite (fun _ => ?_) (fun _ => ?_)
    · exact h1
    · refine Keeps.ite (fun _ => ?_) (fun _ => ?_)
      · extract_lets +onlyGivenNames -underBinder -merge x4
        extract_lets +onlyGivenNames -underBinder -merge x5
        have h5 : Keeps s x5 := Keeps.precharge h1
        try clear_value x5
        exact Keeps.upd h5
      · exact Keeps.ite (fun _ => Keeps.wr (Keeps.precharge h1)) (fun _ => h1))

theorem Keeps.park {s t : State} {a1 a2 : Nat} (h : Keeps s t) :
    Keeps s (State.park t a1 a2) := by
  unfold State.park
  extract_lets +onlyGivenNames -underBinder -merge x1
  exact Keeps.ite (fun _ => Keeps.wr h) (fun _ => h)

theorem Keeps.execParkStart {s t : State} {a0 : Fin 16} {a1 : Fin 4} (h : Keeps s t) :
    KeepsX s (Machine.execParkStart a0 a1 t) := by
  unfold Machine.execParkStart
  exact KeepsX.onDie h (fun _ h1 => Keeps.park h1)

theorem Keeps.execParkDone {s t : State} {a0 : Fin 16} {a1 : Fin 4} (h : Keeps s t) :
    KeepsX s (Machine.execParkDone a0 a1 t) := by
  unfold Machine.execParkDone
  exact KeepsX.onDie h (fun _ h1 => by
    refine Keeps.ite (fun _ => ?_) (fun _ => ?_)
    · extract_lets +onlyGivenNames -underBinder -merge x2
      have h2 : Keeps s x2 := Keeps.wr (Keeps.onChan (Keeps.precharge h1))
      try clear_value x2
      extract_lets +onlyGivenNames -underBinder -merge x3
      have h3 : Keeps s x3 := Keeps.bump (Keeps.wr h2)
      try clear_value x3
      exact Keeps.ite (fun _ => Keeps.wakeRank h3) (fun _ => h3)
    · exact h1)

theorem Keeps.execWakeDone {s t : State} {a0 : Fin 16} {a1 : Fin 4} {a2 : BitVec 16} {a3 : Bool} (h : Keeps s t) :
    KeepsX s (Machine.execWakeDone a0 a1 a2 a3 t) := by
  unfold Machine.execWakeDone
  exact KeepsX.onDie h (fun _ h1 => by
    extract_lets +onlyGivenNames -underBinder -merge x2
    refine Keeps.ite (fun _ => ?_) (fun _ => ?_)
    · exact h1
    · extract_lets +onlyGivenNames -underBinder -merge x3
      have h3 : Keeps s x3 := Keeps.clear (Keeps.wr h1)
      try clear_value x3
      extract_lets +onlyGivenNames -underBinder -merge x4 x5
      have h5 : Keeps s x5 := Keeps.showRef (Keeps.onChan h3)
      try clear_value x5
      extract_lets +onlyGivenNames -underBinder -merge x6
      have h6 : Keeps s x6 := Keeps.ite (fun _ => Keeps.record (Keeps.set (Keeps.bump h5))) (fun _ => h5)
      try clear_value x6
      refine Keeps.ite (fun _ => ?_) (fun _ => ?_)
      · extract_lets +onlyGivenNames -underBinder -merge x7
        have h7 : Keeps s x7 := Keeps.counts (Keeps.bump h6)
        try clear_value x7
        exact Keeps.park h7
      · exact h6)

theorem Keeps.execRefreshCheck {s t : State} {a0 : Fin 16} {a1 : Fin 4} (h : Keeps s t) :
    KeepsX s (Machine.execRefreshCheck a0 a1 t) := by
  unfold Machine.execRefreshCheck
  exact KeepsX.onDie h (fun _ h1 => Keeps.ite (fun _ => Keeps.wr (Keeps.wakeRank h1)) (fun _ => h1))

theorem Keeps.execRefreshDue {s t : State} {a0 : Fin 16} {a1 : Fin 4} (h : Keeps s t) :
    KeepsX s (Machine.execRefreshDue a0 a1 t) := by
  unfold Machine.execRefreshDue
  exact KeepsX.onDie h (fun _ h1 => by
    extract_lets +onlyGivenNames -underBinder -merge x2
    refine Keeps.ite (fun _ => ?_) (fun _ => ?_)
    · exact h1
    · extract_lets +onlyGivenNames -underBinder -merge x3
      refine Keeps.ite (fun _ => ?_) (fun _ => ?_)
      · exact Keeps.wr (Keeps.refresh (Keeps.bump h1))
      · extract_lets +onlyGivenNames -underBinder -merge x4
        have h4 : Keeps s x4 := Keeps.wr h1
        try clear_value x4
        exact Keeps.ite (fun _ => Keeps.refresh h4) (fun _ => h4))

theorem Keeps.dimmReading {s t : State} {a1 a2 : Nat} {a3 : BitVec 16} {a4 : Nat} (h : Keeps s t) :
    Keeps s (State.dimmReading t a1 a2 a3 a4) := by
  unfold State.dimmReading
  extract_lets +onlyGivenNames -underBinder -merge x1
  have h1 : Keeps s x1 := Keeps.wr (Keeps.wr h)
  try clear_value x1
  extract_lets +onlyGivenNames -underBinder -merge x2 x3
  exact Keeps.ite (fun _ => Keeps.set (Keeps.forEach h1 (fun _ _ h4 => by
      extract_lets +onlyGivenNames -underBinder -merge x6
      have h6 : Keeps s x6 := Keeps.set h4
      try clear_value x6
      exact Keeps.wakeRank h6))) (fun _ => Keeps.ite (fun _ => Keeps.forEach h1 (fun _ _ h7 => Keeps.clear h7)) (fun _ => h1))

theorem Keeps.reading {s t : State} {a1 : Nat} {a2 : ChanReading} (h : Keeps s t) :
    Keeps s (State.reading t a1 a2) := by
  unfold State.reading
  extract_lets +onlyGivenNames -underBinder -merge x1 x2 x3
  have h3 : Keeps s x3 := Keeps.onChan h
  try clear_value x3
  extract_lets +onlyGivenNames -underBinder -merge x4
  have h4 : Keeps s x4 := Keeps.when h3 (fun _ h5 => Keeps.dimmReading h5)
  try clear_value x4
  exact Keeps.showRef (Keeps.when h4 (fun _ h6 => Keeps.dimmReading h6))

theorem Keeps.phaseFire {s t : State} {a1 : Nat} (h : Keeps s t) :
    Keeps s (State.phaseFire t a1) := by
  unfold State.phaseFire
  extract_lets +onlyGivenNames -underBinder -merge x1 x2
  have h2 : Keeps s x2 := Keeps.onChan h
  try clear_value x2
  extract_lets +onlyGivenNames -underBinder -merge x3
  have h3 : Keeps s x3 := Keeps.clear h2
  try clear_value x3
  exact Keeps.forEach h3 (fun _ _ h4 => by
      extract_lets +onlyGivenNames -underBinder -merge x6
      refine Keeps.ite (fun _ => ?_) (fun _ => ?_)
      · exact h4
      · extract_lets +onlyGivenNames -underBinder -merge x7
        extract_lets +onlyGivenNames -underBinder -merge x8
        exact Keeps.ite (fun _ => h4) (fun _ => Keeps.ite (fun _ => Keeps.foldl h4 (fun _ _ h9 => Keeps.refresh h9)) (fun _ => Keeps.ite (fun _ => Keeps.wr h4) (fun _ => Keeps.ite (fun _ => Keeps.refresh h4) (fun _ => h4)))))

theorem Keeps.execPhaseStaleRead {s t : State} {a0 : Fin 16} {a1 : ChanReading} (h : Keeps s t) :
    KeepsX s (Machine.execPhaseStaleRead a0 a1 t) := by
  unfold Machine.execPhaseStaleRead
  exact KeepsX.onDie h (fun _ h1 => Keeps.ite (fun _ => Keeps.set (Keeps.reading h1)) (fun _ => h1))

theorem Keeps.unparkAll {s t : State} {a1 : Nat} (h : Keeps s t) :
    Keeps s (State.unparkAll t a1) := by
  unfold State.unparkAll
  exact Keeps.forEach h (fun _ _ h1 => Keeps.rouse h1)

theorem Keeps.exclChan {s t : State} {a1 a2 : Nat} (h : Keeps s t) :
    Keeps s (State.exclChan t a1 a2) := by
  unfold State.exclChan
  extract_lets +onlyGivenNames -underBinder -merge x1
  have h1 : Keeps s x1 := Keeps.wr (Keeps.set (Keeps.clear h))
  try clear_value x1
  extract_lets +onlyGivenNames -underBinder -merge x2
  have h2 : Keeps s x2 := Keeps.forEach h1 (fun _ _ h3 => Keeps.wr h3)
  try clear_value x2
  exact Keeps.record (Keeps.set h2)

theorem Keeps.sideband {s t : State} {a1 a2 : Nat} (h : Keeps s t) :
    Keeps s (State.sideband t a1 a2) := by
  unfold State.sideband
  extract_lets +onlyGivenNames -underBinder -merge x1 x2
  exact Keeps.when (Keeps.bump h) (fun _ h3 => Keeps.set h3)

theorem Keeps.trained {s t : State} {a1 : Nat} {a2 : TrainReport} {a3 : ChanReading} (h : Keeps s t) :
    Keeps s (State.trained t a1 a2 a3) := by
  unfold State.trained
  extract_lets +onlyGivenNames -underBinder -merge x1 x2
  have h2 : Keeps s x2 := Keeps.wr h
  try clear_value x2
  extract_lets +onlyGivenNames -underBinder -merge x3
  have h3 : Keeps s x3 := Keeps.wr h2
  try clear_value x3
  extract_lets +onlyGivenNames -underBinder -merge x4 x5
  have h5 : Keeps s x5 := Keeps.sideband (Keeps.wr (Keeps.wr (Keeps.wr (Keeps.wr h3))))
  try clear_value x5
  refine Keeps.ite (fun _ => ?_) (fun _ => ?_)
  · exact Keeps.exclChan h5
  · refine Keeps.ite (fun _ => ?_) (fun _ => ?_)
    · exact Keeps.exclChan h5
    · extract_lets +onlyGivenNames -underBinder -merge x6
      extract_lets +onlyGivenNames -underBinder -merge x7
      have h7 : Keeps s x7 := Keeps.wr (Keeps.set h5)
      try clear_value x7
      extract_lets +onlyGivenNames -underBinder -merge x8
      have h8 : Keeps s x8 := Keeps.onChan h7
      try clear_value x8
      extract_lets +onlyGivenNames -underBinder -merge x9
      have h9 : Keeps s x9 := Keeps.forEach h8 (fun _ _ h10 => Keeps.wr h10)
      try clear_value x9
      exact Keeps.reading h9

theorem Keeps.execChannelTrainDone {s t : State} {a0 : Fin 16} {a1 : TrainReport} {a2 : ChanReading} (h : Keeps s t) :
    KeepsX s (Machine.execChannelTrainDone a0 a1 a2 t) := by
  unfold Machine.execChannelTrainDone
  exact KeepsX.onDie h (fun _ h1 => Keeps.ite (fun _ => Keeps.trained h1) (fun _ => h1))

theorem Keeps.execRetrack {s t : State} {a0 : Fin 16} {a1 : Fin 4} (h : Keeps s t) :
    KeepsX s (Machine.execRetrack a0 a1 t) := by
  unfold Machine.execRetrack
  exact KeepsX.onDie h (fun _ h1 => h1)

theorem Keeps.pmicFault {s t : State} {a1 a2 : Nat} (h : Keeps s t) :
    Keeps s (State.pmicFault t a1 a2) := by
  unfold State.pmicFault
  extract_lets +onlyGivenNames -underBinder -merge x1
  refine Keeps.ite (fun _ => ?_) (fun _ => ?_)
  · exact h
  · extract_lets +onlyGivenNames -underBinder -merge x2
    extract_lets +onlyGivenNames -underBinder -merge x3
    have h3 : Keeps s x3 := Keeps.onChan h
    try clear_value x3
    extract_lets +onlyGivenNames -underBinder -merge x4
    have h4 : Keeps s x4 := Keeps.forEach h3 (fun _ _ h5 => Keeps.record (Keeps.wr h5))
    try clear_value x4
    extract_lets +onlyGivenNames -underBinder -merge x7
    have h7 : Keeps s x7 := Keeps.bump (Keeps.moduleEvent h4)
    try clear_value x7
    exact Keeps.showRt (Keeps.showRef (Keeps.showDrain (Keeps.set h7)))

theorem Keeps.execPmicFault {s t : State} {a0 : Fin 16} {a1 : Fin 2} (h : Keeps s t) :
    KeepsX s (Machine.execPmicFault a0 a1 t) := by
  unfold Machine.execPmicFault
  exact KeepsX.onDie h (fun _ h1 => Keeps.pmicFault h1)

theorem Keeps.execCeLeak {s t : State} {a0 : Fin 16} {a1 : Fin 4} (h : Keeps s t) :
    KeepsX s (Machine.execCeLeak a0 a1 t) := by
  unfold Machine.execCeLeak
  exact KeepsX.onDie h (fun _ h1 => by
    extract_lets +onlyGivenNames -underBinder -merge x2
    exact Keeps.wr h1)

theorem Keeps.startPass {s t : State} {a1 : Nat} (h : Keeps s t) :
    Keeps s (State.startPass t a1) := by
  unfold State.startPass
  extract_lets +onlyGivenNames -underBinder -merge x1 x2 x3
  have h3 : Keeps s x3 := Keeps.onChan h
  try clear_value x3
  exact Keeps.wr (Keeps.wr h3)

theorem Keeps.endPass {s t : State} {a1 : Nat} (h : Keeps s t) :
    Keeps s (State.endPass t a1) := by
  unfold State.endPass
  extract_lets +onlyGivenNames -underBinder -merge x1 x2
  have h2 : Keeps s x2 := Keeps.wr (Keeps.add h)
  try clear_value x2
  exact Keeps.clear (Keeps.onChan h2)

theorem Keeps.execScrubStep {s t : State} {a0 : Fin 16} (h : Keeps s t) :
    KeepsX s (Machine.execScrubStep a0 t) := by
  unfold Machine.execScrubStep
  exact KeepsX.onDie h (fun _ h1 => by
    refine Keeps.ite (fun _ => ?_) (fun _ => ?_)
    · exact h1
    · extract_lets +onlyGivenNames -underBinder -merge x2
      have h2 : Keeps s x2 := Keeps.ite (fun _ => Keeps.startPass h1) (fun _ => h1)
      try clear_value x2
      split
      · exact Keeps.endPass h2
      · extract_lets +onlyGivenNames -underBinder -merge x3
        have h3 : Keeps s x3 := Keeps.postLine h2
        try clear_value x3
        split
        · exact Keeps.wr h3
        · exact Keeps.endPass h3)

theorem Keeps.loftStep {s t : State} {a1 : Nat} {a2 : Group} (h : Keeps s t) :
    Keeps s (State.loftStep t a1 a2) := by
  unfold State.loftStep
  extract_lets +onlyGivenNames -underBinder -merge x1 x2 x3
  have h3 : Keeps s x3 := Keeps.ite (fun _ => h) (fun _ => Keeps.onChan (Keeps.wr h))
  try clear_value x3
  split
  · unfold x2
    beta_reduce
    extract_lets +onlyGivenNames -underBinder -merge x4
    have h4 : Keeps s x4 := Keeps.clear (Keeps.clear h3)
    try clear_value x4
    extract_lets +onlyGivenNames -underBinder -merge x5
    exact Keeps.onChan h4
  · extract_lets +onlyGivenNames -underBinder -merge x6
    have h6 : Keeps s x6 := Keeps.postLine (Keeps.rouse h3)
    try clear_value x6
    split
    · exact Keeps.wr h6
    · unfold x2
      beta_reduce
      extract_lets +onlyGivenNames -underBinder -merge x7
      have h7 : Keeps s x7 := Keeps.clear (Keeps.clear h6)
      try clear_value x7
      extract_lets +onlyGivenNames -underBinder -merge x8
      exact Keeps.onChan h7

theorem Keeps.execScrubWindowStep {s t : State} {a0 : Fin 16} (h : Keeps s t) :
    KeepsX s (Machine.execScrubWindowStep a0 t) := by
  unfold Machine.execScrubWindowStep
  exact KeepsX.onDie h (fun _ h1 => by
    extract_lets +onlyGivenNames -underBinder -merge x2
    try clear_value x2
    split
    · exact Keeps.loftStep h1
    · refine Keeps.ite (fun _ => ?_) (fun _ => ?_)
      · exact h1
      · split
        · exact Keeps.loftStep h1
        · split
          · exact h1
          · exact Keeps.loftStep h1)

theorem Keeps.execScrubForce {s t : State} {a0 : Fin 16} {a1 : Fin 4} (h : Keeps s t) :
    KeepsX s (Machine.execScrubForce a0 a1 t) := by
  unfold Machine.execScrubForce
  exact KeepsX.onDie h (fun _ h1 => Keeps.ite (fun _ => Keeps.set (Keeps.set (Keeps.rouse h1))) (fun _ => h1))

theorem Keeps.install {s t : State} {a1 a2 : Nat} (h : Keeps s t) :
    Keeps s (State.install t a1 a2) := by
  unfold State.install
  extract_lets +onlyGivenNames -underBinder -merge x1
  split
  · exact Keeps.wr h
  · refine Keeps.ite (fun _ => ?_) (fun _ => ?_)
    · exact Keeps.wr h
    · extract_lets +onlyGivenNames -underBinder -merge x2
      have h2 : Keeps s x2 := Keeps.wr (Keeps.wr h)
      try clear_value x2
      extract_lets +onlyGivenNames -underBinder -merge x3 x4
      have h4 : Keeps s x4 := Keeps.touchRank (Keeps.touchRank h2)
      try clear_value x4
      exact Keeps.fillBanks (Keeps.charge (Keeps.onChan h4))

theorem Keeps.execRemapInstallDone {s t : State} {a0 a1 : Fin 16} (h : Keeps s t) :
    KeepsX s (Machine.execRemapInstallDone a0 a1 t) := by
  unfold Machine.execRemapInstallDone
  exact KeepsX.onDie h (fun _ h1 => by
    extract_lets +onlyGivenNames -underBinder -merge x2
    refine Keeps.ite (fun _ => ?_) (fun _ => ?_)
    · exact h1
    · extract_lets +onlyGivenNames -underBinder -merge x3
      have h3 : Keeps s x3 := Keeps.postLine h1
      try clear_value x3
      split
      · extract_lets +onlyGivenNames -underBinder -merge x4
        have h4 : Keeps s x4 := Keeps.wr h3
        try clear_value x4
        extract_lets +onlyGivenNames -underBinder -merge x5
        have h5 : Keeps s x5 := Keeps.ite (fun _ => Keeps.storeLine h4) (fun _ => Keeps.poisonLine h4)
        try clear_value x5
        exact Keeps.set (Keeps.wr h5))

theorem Keeps.retire {s t : State} {a1 a2 : Nat} (h : Keeps s t) :
    Keeps s (State.retire t a1 a2) := by
  unfold State.retire
  refine Keeps.ite (fun _ => ?_) (fun _ => ?_)
  · exact h
  · extract_lets +onlyGivenNames -underBinder -merge x1
    split
    · extract_lets +onlyGivenNames -underBinder -merge x2
      have h2 : Keeps s x2 := Keeps.postLine h
      try clear_value x2
      extract_lets +onlyGivenNames -underBinder -merge x3
      have h3 : Keeps s x3 := Keeps.postLine (Keeps.wr h2)
      try clear_value x3
      extract_lets +onlyGivenNames -underBinder -merge x4
      have h4 : Keeps s x4 := Keeps.ite (fun _ => Keeps.storeLine h3) (fun _ => Keeps.poisonLine h3)
      try clear_value x4
      exact Keeps.set (Keeps.wr h4)

theorem Keeps.pprEnd {s t : State} {a1 a2 : Nat} (h : Keeps s t) :
    Keeps s (State.pprEnd t a1 a2) := by
  unfold State.pprEnd
  exact Keeps.set (Keeps.set (Keeps.wr h))

theorem Keeps.repair {s t : State} {a1 a2 : Nat} (h : Keeps s t) :
    Keeps s (State.repair t a1 a2) := by
  unfold State.repair
  refine Keeps.ite (fun _ => ?_) (fun _ => ?_)
  · exact Keeps.wr h
  · refine Keeps.ite (fun _ => ?_) (fun _ => ?_)
    · exact Keeps.pprEnd h
    · extract_lets +onlyGivenNames -underBinder -merge x1
      have h1 : Keeps s x1 := Keeps.clear (Keeps.clear h)
      try clear_value x1
      extract_lets +onlyGivenNames -underBinder -merge x2
      have h2 : Keeps s x2 := Keeps.onChan h1
      try clear_value x2
      refine Keeps.ite (fun _ => ?_) (fun _ => ?_)
      · extract_lets +onlyGivenNames -underBinder -merge x3
        exact Keeps.forEach h2 (fun _ _ h4 => Keeps.ite (fun _ => h4) (fun _ => Keeps.postLine (Keeps.postLine h4)))
      · exact h2

theorem Keeps.execPprDone {s t : State} {a0 : Fin 16} {a1 : BitVec 2} (h : Keeps s t) :
    KeepsX s (Machine.execPprDone a0 a1 t) := by
  unfold Machine.execPprDone
  exact KeepsX.onDie h (fun _ h1 => by
    split
    · exact h1
    · extract_lets +onlyGivenNames -underBinder -merge x2
      extract_lets +onlyGivenNames -underBinder -merge x3 x4 x5
      have h5 : Keeps s x5 := Keeps.ite (fun _ => Keeps.forEach h1 (fun _ _ h6 => by
          unfold x3
          beta_reduce
          extract_lets +onlyGivenNames -underBinder -merge x8
          refine Keeps.ite (fun _ => ?_) (fun _ => ?_)
          · exact h6
          · extract_lets +onlyGivenNames -underBinder -merge x9
            exact Keeps.ite (fun _ => Keeps.poisonLine h6) (fun _ => h6))) (fun _ => h1)
      try clear_value x5
      exact Keeps.pprEnd (Keeps.onChan h5))

theorem Keeps.drcRanges {s t : State} {a1 : Nat} {a2 : State} (h : Keeps s t) :
    Keeps s (State.drcRanges t a1 a2) := by
  unfold State.drcRanges
  extract_lets +onlyGivenNames -underBinder -merge x1 x2
  have h2 : Keeps s x2 := by
    unfold x2
    split
    · exact Keeps.ite (fun _ => Keeps.wr h) (fun _ => h)
    · exact h
  try clear_value x2
  extract_lets +onlyGivenNames -underBinder -merge x3
  have h3 : Keeps s x3 := by
    unfold x3
    unfold x1
    beta_reduce
    split
    · exact Keeps.wr h2
    · exact h2
  try clear_value x3
  extract_lets +onlyGivenNames -underBinder -merge x4
  have h4 : Keeps s x4 := by
    unfold x4
    unfold x1
    beta_reduce
    split
    · exact Keeps.wr h3
    · exact h3
  try clear_value x4
  extract_lets +onlyGivenNames -underBinder -merge x5
  have h5 : Keeps s x5 := by
    unfold x5
    unfold x1
    beta_reduce
    split
    · exact Keeps.wr h4
    · exact h4
  try clear_value x5
  extract_lets +onlyGivenNames -underBinder -merge x6
  have h6 : Keeps s x6 := by
    unfold x6
    unfold x1
    beta_reduce
    split
    · exact Keeps.wr h5
    · exact h5
  try clear_value x6
  extract_lets +onlyGivenNames -underBinder -merge x7
  have h7 : Keeps s x7 := by
    unfold x7
    unfold x1
    beta_reduce
    split
    · exact Keeps.wr h6
    · exact h6
  try clear_value x7
  extract_lets +onlyGivenNames -underBinder -merge x8
  have h8 : Keeps s x8 := by
    unfold x8
    unfold x1
    beta_reduce
    split
    · exact Keeps.wr h7
    · exact h7
  try clear_value x8
  extract_lets +onlyGivenNames -underBinder -merge x9
  have h9 : Keeps s x9 := by
    unfold x9
    split
    · exact Keeps.ite (fun _ => Keeps.wr h8) (fun _ => h8)
    · exact h8
  try clear_value x9
  extract_lets +onlyGivenNames -underBinder -merge x10
  have h10 : Keeps s x10 := by
    unfold x10
    split
    · exact Keeps.ite (fun _ => h9) (fun _ => Keeps.clear h9)
    · exact h9
  try clear_value x10
  extract_lets +onlyGivenNames -underBinder -merge x11
  have h11 : Keeps s x11 := by
    unfold x11
    split
    · exact Keeps.ite (fun _ => h10) (fun _ => Keeps.wr h10)
    · exact h10
  try clear_value x11
  split
  · exact Keeps.ite (fun _ => h11) (fun _ => Keeps.wr h11)
  · exact h11

theorem Keeps.writeDrc {s t : State} {a1 : Initiator} {a2 a3 : Nat} (h : Keeps s t) :
    Keeps s (State.writeDrc t a1 a2 a3) := by
  unfold State.writeDrc
  extract_lets +onlyGivenNames -underBinder -merge x1
  have h1 : Keeps s x1 := Keeps.drcRanges (Keeps.writeWord h)
  try clear_value x1
  extract_lets +onlyGivenNames -underBinder -merge x2
  have h2 : Keeps s x2 := by
    unfold x2
    split
    · exact Keeps.showRef h1
    · exact Keeps.showRt h1
    · exact Keeps.showDrain h1
    · exact h1
  try clear_value x2
  split
  · split
    · exact Keeps.park h2
    · exact Keeps.rouse h2
    · exact h2
  · split
    · exact Keeps.install h2
    · exact Keeps.retire h2
    · exact h2
  · exact Keeps.ite (fun _ => Keeps.repair h2) (fun _ => h2)
  · exact h2

theorem Keeps.execRankPark {s t : State} {a0 : Initiator} {a1 : Fin 16} {a2 : Fin 4} {a3 : BitVec 64} (h : Keeps s t) :
    KeepsX s (Machine.execRankPark a0 a1 a2 a3 t) := by
  unfold Machine.execRankPark
  extract_lets +onlyGivenNames -underBinder -merge x1
  exact KeepsX.onDie h (fun _ h2 => Keeps.barWrite h2 (fun _ h3 => Keeps.writeDrc h3))

theorem Keeps.execRankWake {s t : State} {a0 : Initiator} {a1 : Fin 16} {a2 : Fin 4} {a3 : BitVec 64} (h : Keeps s t) :
    KeepsX s (Machine.execRankWake a0 a1 a2 a3 t) := by
  unfold Machine.execRankWake
  extract_lets +onlyGivenNames -underBinder -merge x1
  exact KeepsX.onDie h (fun _ h2 => Keeps.barWrite h2 (fun _ h3 => Keeps.writeDrc h3))

theorem Keeps.execRemapInstall {s t : State} {a0 : Initiator} {a1 a2 : Fin 16} {a3 : BitVec 64} (h : Keeps s t) :
    KeepsX s (Machine.execRemapInstall a0 a1 a2 a3 t) := by
  unfold Machine.execRemapInstall
  extract_lets +onlyGivenNames -underBinder -merge x1
  exact KeepsX.onDie h (fun _ h2 => Keeps.barWrite h2 (fun _ h3 => Keeps.writeDrc h3))

theorem Keeps.execRemapRetire {s t : State} {a0 : Initiator} {a1 a2 : Fin 16} {a3 : BitVec 64} (h : Keeps s t) :
    KeepsX s (Machine.execRemapRetire a0 a1 a2 a3 t) := by
  unfold Machine.execRemapRetire
  extract_lets +onlyGivenNames -underBinder -merge x1
  exact KeepsX.onDie h (fun _ h2 => Keeps.barWrite h2 (fun _ h3 => Keeps.writeDrc h3))

theorem Keeps.execPprSoft {s t : State} {a0 : Initiator} {a1 : Fin 16} (h : Keeps s t) :
    KeepsX s (Machine.execPprSoft a0 a1 t) := by
  unfold Machine.execPprSoft
  extract_lets +onlyGivenNames -underBinder -merge x1
  exact KeepsX.onDie h (fun _ h2 => Keeps.barWrite h2 (fun _ h3 => Keeps.writeDrc h3))

theorem Keeps.execPprHard {s t : State} {a0 : Initiator} {a1 : Fin 16} (h : Keeps s t) :
    KeepsX s (Machine.execPprHard a0 a1 t) := by
  unfold Machine.execPprHard
  extract_lets +onlyGivenNames -underBinder -merge x1
  exact KeepsX.onDie h (fun _ h2 => Keeps.barWrite h2 (fun _ h3 => Keeps.writeDrc h3))

end Sys2Proof.Machine
end

