-- ==== Sys2Proof/Laws/KeepsCwkRxToCores.lean ====
section
/-!
SUPPORT. What the operations and meanings of CwkRx, Catwalk, Sampling, Cores keep (Laws/Keeps).
-/

namespace Sys2Proof.Machine

theorem Keeps.excludeTT {s t : State} {a1 a2 : Nat} {a3 : TT} (h : Keeps s t) :
    Keeps s (State.excludeTT t a1 a2 a3) := by
  unfold State.excludeTT
  extract_lets +onlyGivenNames -underBinder -merge x1 x2 x3
  exact Keeps.ite (fun _ => Keeps.homeAnswer h) (fun _ => Keeps.ite (fun _ => Keeps.tryClose (Keeps.settle h)) (fun _ => Keeps.ite (fun _ => Keeps.tryClose (Keeps.settle h)) (fun _ => Keeps.ite (fun _ => Keeps.tryClose (Keeps.setTT (Keeps.markPoison h))) (fun _ => h))))

theorem Keeps.excludeDir {s t : State} {a1 a2 : Nat} {a3 : DirEnt} (h : Keeps s t) :
    Keeps s (State.excludeDir t a1 a2 a3) := by
  unfold State.excludeDir
  extract_lets +onlyGivenNames -underBinder -merge x1
  exact Keeps.ite (fun _ => Keeps.setDir (Keeps.markPoison h)) (fun _ => Keeps.setDir h)

theorem Keeps.excludePf {s t : State} {a1 : Nat} (h : Keeps s t) :
    Keeps s (State.excludePf t a1) := by
  unfold State.excludePf
  extract_lets +onlyGivenNames -underBinder -merge x1 x2 x3 x4 x5 x6
  have h6 : Keeps s x6 := Keeps.upd h
  try clear_value x6
  extract_lets +onlyGivenNames -underBinder -merge x7
  have h7 : Keeps s x7 := Keeps.forEach h6 (fun _ _ h8 => by
      extract_lets +onlyGivenNames -underBinder -merge x10
      have h10 : Keeps s x10 := Keeps.dropPfTx h8
      try clear_value x10
      split
      · exact Keeps.pfFail h10
      · exact h10)
  try clear_value x7
  extract_lets +onlyGivenNames -underBinder -merge x11
  have h11 : Keeps s x11 := Keeps.forEach h7 (fun _ _ h12 => Keeps.pfFail h12)
  try clear_value x11
  extract_lets +onlyGivenNames -underBinder -merge x14 x15
  have h15 : Keeps s x15 := Keeps.upd h11
  try clear_value x15
  exact Keeps.forEach h15 (fun _ _ h16 => by
      split
      · rename_i e18_0
        have h18 : Keeps s _ := Keeps.eq2 e18_0 (Keeps.pfSnoopAll h16)
        exact Keeps.pfProceed h18)

theorem Keeps.excludeQueued {s t : State} {a1 a2 : Nat} (h : Keeps s t) :
    Keeps s (State.excludeQueued t a1 a2) := by
  unfold State.excludeQueued
  extract_lets +onlyGivenNames -underBinder -merge x1 x2
  have h2 : Keeps s x2 := Keeps.forEach h (fun _ _ h3 => Keeps.when h3 (fun _ h5 => Keeps.onLink h5))
  try clear_value x2
  extract_lets +onlyGivenNames -underBinder -merge x6
  have h6 : Keeps s x6 := Keeps.forEach h2 (fun _ _ h7 => Keeps.unsend h7)
  try clear_value x6
  exact Keeps.forEach h6 (fun _ _ h9 => Keeps.when h9 (fun _ h11 => Keeps.showHome (Keeps.onHome h11)))

theorem Keeps.excludeDirs {s t : State} {a1 : Nat} (h : Keeps s t) :
    Keeps s (State.excludeDirs t a1) := by
  unfold State.excludeDirs
  exact Keeps.forEach h (fun _ _ h1 => Keeps.excludeDir h1)

theorem Keeps.excludeNow {s t : State} {a1 : Nat} (h : Keeps s t) :
    Keeps s (State.excludeNow t a1) := by
  unfold State.excludeNow
  refine Keeps.ite (fun _ => ?_) (fun _ => ?_)
  · exact h
  · extract_lets +onlyGivenNames -underBinder -merge x1
    extract_lets +onlyGivenNames -underBinder -merge x2
    have h2 : Keeps s x2 := Keeps.set (Keeps.wrBit h)
    try clear_value x2
    extract_lets +onlyGivenNames -underBinder -merge x3
    have h3 : Keeps s x3 := Keeps.wrBit h2
    try clear_value x3
    extract_lets +onlyGivenNames -underBinder -merge x4
    have h4 : Keeps s x4 := Keeps.sendMgt h3
    try clear_value x4
    extract_lets +onlyGivenNames -underBinder -merge x5 x6
    have h6 : Keeps s x6 := Keeps.upd h4
    try clear_value x6
    extract_lets +onlyGivenNames -underBinder -merge x7
    have h7 : Keeps s x7 := Keeps.excludeQueued h6
    try clear_value x7
    extract_lets +onlyGivenNames -underBinder -merge x8
    have h8 : Keeps s x8 := Keeps.forEach h7 (fun _ _ h9 => by
        split
        · exact Keeps.excludeTT h9
        · exact h9)
    try clear_value x8
    exact Keeps.excludePf (Keeps.excludeDirs h8)

theorem Keeps.exclude {s t : State} {a1 : Nat} (h : Keeps s t) :
    Keeps s (State.exclude t a1) := by
  unfold State.exclude
  exact Keeps.withHello h (fun _ h1 => Keeps.excludeNow h1)

theorem Keeps.showPaths {s t : State} (h : Keeps s t) :
    Keeps s (State.showPaths t) := by
  unfold State.showPaths
  exact Keeps.withHello h (fun _ h1 => Keeps.forEach h1 (fun _ _ h2 => by
    split
    · extract_lets +onlyGivenNames -underBinder -merge x4
      extract_lets +onlyGivenNames -underBinder -merge x5
      have h5 : Keeps s x5 := Keeps.wr (Keeps.wr (Keeps.wr h2))
      try clear_value x5
      extract_lets +onlyGivenNames -underBinder -merge x6
      have h6 : Keeps s x6 := Keeps.ite (fun _ => h5) (fun _ => Keeps.set h5)
      try clear_value x6
      extract_lets +onlyGivenNames -underBinder -merge x7 x8
      have h8 : Keeps s x8 := Keeps.wrBit h6
      try clear_value x8
      extract_lets +onlyGivenNames -underBinder -merge x9
      have h9 : Keeps s x9 := Keeps.wrBit h8
      try clear_value x9
      exact Keeps.ite (fun _ => Keeps.excludeNow h9) (fun _ => h9)))

theorem Keeps.pathLoss {s t : State} {a1 a2 : Nat} (h : Keeps s t) :
    Keeps s (State.pathLoss t a1 a2) := by
  unfold State.pathLoss
  extract_lets +onlyGivenNames -underBinder -merge x1
  exact Keeps.ite (fun _ => Keeps.ite (fun _ => h) (fun _ => Keeps.sendMgt h)) (fun _ => Keeps.sendMgt (Keeps.ite (fun _ => h) (fun _ => Keeps.sendMgt h)))

theorem Keeps.cwkDown {s t : State} {a1 : Nat} (h : Keeps s t) :
    Keeps s (State.cwkDown t a1) := by
  unfold State.cwkDown
  extract_lets +onlyGivenNames -underBinder -merge x1
  refine Keeps.ite (fun _ => ?_) (fun _ => ?_)
  · exact h
  · extract_lets +onlyGivenNames -underBinder -merge x2
    extract_lets +onlyGivenNames -underBinder -merge x3 x4
    have h4 : Keeps s x4 := Keeps.ite (fun _ => Keeps.set h) (fun _ => h)
    try clear_value x4
    extract_lets +onlyGivenNames -underBinder -merge x5
    have h5 : Keeps s x5 := Keeps.upd h4
    try clear_value x5
    extract_lets +onlyGivenNames -underBinder -merge x6
    have h6 : Keeps s x6 := Keeps.clear (Keeps.wr h5)
    try clear_value x6
    extract_lets +onlyGivenNames -underBinder -merge x7
    have h7 : Keeps s x7 := Keeps.showStored (Keeps.wr (Keeps.clear (Keeps.clear h6)))
    try clear_value x7
    extract_lets +onlyGivenNames -underBinder -merge x8
    have h8 : Keeps s x8 := Keeps.clear (Keeps.wr (Keeps.wr h7))
    try clear_value x8
    extract_lets +onlyGivenNames -underBinder -merge x9
    have h9 : Keeps s x9 := Keeps.forEach h8 (fun _ _ h10 => Keeps.clear (Keeps.clear h10))
    try clear_value x9
    extract_lets +onlyGivenNames -underBinder -merge x12
    have h12 : Keeps s x12 := Keeps.showPaths h9
    try clear_value x12
    extract_lets +onlyGivenNames -underBinder -merge x13
    have h13 : Keeps s x13 := Keeps.forEach h12 (fun _ _ h14 => by
        refine Keeps.ite (fun _ => ?_) (fun _ => ?_)
        · exact Keeps.pathLoss h14
        · extract_lets +onlyGivenNames -underBinder -merge x16
          have h16 : Keeps s x16 := Keeps.exclude h14
          try clear_value x16
          exact Keeps.ite (fun _ => h16) (fun _ => Keeps.exclude h16))
    try clear_value x13
    extract_lets +onlyGivenNames -underBinder -merge x17
    have h17 : Keeps s x17 := Keeps.forEach h13 (fun _ _ h18 => by
        extract_lets +onlyGivenNames -underBinder -merge x20
        exact Keeps.ite (fun _ => h18) (fun _ => Keeps.ite (fun _ => Keeps.pathLoss h18) (fun _ => Keeps.toSlot h18)))
    try clear_value x17
    exact Keeps.showTols h17

theorem Keeps.cwkProto {s t : State} {a1 : Nat} (h : Keeps s t) :
    Keeps s (State.cwkProto t a1) := by
  unfold State.cwkProto
  exact Keeps.record (Keeps.bump h)

theorem Keeps.relay {s t : State} {a1 : Nat} {a2 : CwkHdr} {a3 : CwkPacket} (h : Keeps s t) :
    Keeps s (State.relay t a1 a2 a3) := by
  unfold State.relay
  extract_lets +onlyGivenNames -underBinder -merge x1
  try clear_value x1
  split
  · extract_lets +onlyGivenNames -underBinder -merge x2
    exact Keeps.queueOn h
  · exact Keeps.pathLoss (Keeps.bump h)

theorem Keeps.unexported {s t : State} {a1 a2 a3 : Nat} {a4 : CohMsg} (h : Keeps s t) :
    Keeps s (State.unexported t a1 a2 a3 a4) := by
  unfold State.unexported
  extract_lets +onlyGivenNames -underBinder -merge x1
  have h1 : Keeps s x1 := Keeps.record (Keeps.bump h)
  try clear_value x1
  extract_lets +onlyGivenNames -underBinder -merge x2
  exact Keeps.toMember h1

theorem Keeps.cohPacket {s t : State} {a1 : Nat} {a2 : CwkHdr} {a3 : CwkPacket} (h : Keeps s t) :
    Keeps s (State.cohPacket t a1 a2 a3) := by
  unfold State.cohPacket
  extract_lets +onlyGivenNames -underBinder -merge x1 x2 x3
  refine Keeps.ite (fun _ => ?_) (fun _ => ?_)
  · exact Keeps.cwkProto h
  · refine Keeps.ite (fun _ => ?_) (fun _ => ?_)
    · exact Keeps.bump h
    · split
      · exact Keeps.ite (fun _ => Keeps.request h) (fun _ => Keeps.unexported h)
      · exact Keeps.pfNextQueued (Keeps.pfRemoteSnoop h)
      · exact Keeps.ite (fun _ => Keeps.send h) (fun _ => Keeps.pfRemoteResp h)
      · exact Keeps.ite (fun _ => Keeps.ite (fun _ => Keeps.send h) (fun _ => h)) (fun _ => Keeps.pfRemoteResp h)

theorem Keeps.helloRx {s t : State} {a1 : Nat} {a2 : Bytes} (h : Keeps s t) :
    Keeps s (State.helloRx t a1 a2) := by
  unfold State.helloRx
  extract_lets +onlyGivenNames -underBinder -merge x1
  refine Keeps.ite (fun _ => ?_) (fun _ => ?_)
  · exact h
  · extract_lets +onlyGivenNames -underBinder -merge x2
    extract_lets +onlyGivenNames -underBinder -merge x3
    have h3 : Keeps s x3 := Keeps.wr h
    try clear_value x3
    refine Keeps.ite (fun _ => ?_) (fun _ => ?_)
    · exact Keeps.ite (fun _ => Keeps.record (Keeps.set (Keeps.wr h3))) (fun _ => h3)
    · extract_lets +onlyGivenNames -underBinder -merge x4
      extract_lets +onlyGivenNames -underBinder -merge x5
      have h5 : Keeps s x5 := Keeps.wr (Keeps.onLink h3)
      try clear_value x5
      extract_lets +onlyGivenNames -underBinder -merge x6 x7
      have h7 : Keeps s x7 := Keeps.upd h5
      try clear_value x7
      extract_lets +onlyGivenNames -underBinder -merge x8
      have h8 : Keeps s x8 := Keeps.ite (fun _ => h7) (fun _ => Keeps.set (Keeps.wr h7))
      try clear_value x8
      exact Keeps.showTols (Keeps.pump (Keeps.showPaths h8))

theorem Keeps.excludeRx {s t : State} {a1 : Nat} (h : Keeps s t) :
    Keeps s (State.excludeRx t a1) := by
  unfold State.excludeRx
  exact Keeps.exclude h

theorem Keeps.pathlossRx {s t : State} {a1 a2 : Nat} (h : Keeps s t) :
    Keeps s (State.pathlossRx t a1 a2) := by
  unfold State.pathlossRx
  extract_lets +onlyGivenNames -underBinder -merge x1
  have h1 : Keeps s x1 := Keeps.set h
  try clear_value x1
  exact Keeps.ite (fun _ => Keeps.exclude h1) (fun _ => Keeps.ite (fun _ => Keeps.exclude h1) (fun _ => h1))

theorem Keeps.rxPacket {s t : State} {a1 : Nat} {a2 : CwkPacket} (h : Keeps s t) :
    Keeps s (State.rxPacket t a1 a2) := by
  unfold State.rxPacket
  extract_lets +onlyGivenNames -underBinder -merge x1 x2
  have h2 : Keeps s x2 := Keeps.counts h
  try clear_value x2
  extract_lets +onlyGivenNames -underBinder -merge x3
  have h3 : Keeps s x3 := Keeps.onLink h2
  try clear_value x3
  extract_lets +onlyGivenNames -underBinder -merge x4
  exact Keeps.ite (fun _ => Keeps.cwkProto h3) (fun _ => Keeps.ite (fun _ => Keeps.ite (fun _ => Keeps.relay h3) (fun _ => Keeps.cwkProto h3)) (fun _ => Keeps.ite (fun _ => Keeps.helloRx h3) (fun _ => Keeps.ite (fun _ => Keeps.cwkProto h3) (fun _ => Keeps.ite (fun _ => Keeps.excludeRx h3) (fun _ => Keeps.ite (fun _ => Keeps.pathlossRx h3) (fun _ => Keeps.ite (fun _ => Keeps.emit h3) (fun _ => Keeps.cohPacket h3)))))))

theorem Keeps.rxUnits {s t : State} {k n : Nat} {us : List Bytes} (h : Keeps s t) :
    Keeps s (State.rxUnits k t n us) := by
  induction k generalizing t us with
  | zero => unfold State.rxUnits; exact Keeps.onLink h
  | succ k ih =>
    unfold State.rxUnits
    split
    · exact Keeps.onLink h
    · refine Keeps.ite (fun _ => ih h) (fun _ => ?_)
      split
      · exact Keeps.onLink h
      · exact ih (Keeps.rxPacket h)

theorem Keeps.ackRx {s t : State} {a1 a2 : Nat} (h : Keeps s t) :
    Keeps s (State.ackRx t a1 a2) := by
  unfold State.ackRx
  refine Keeps.ite (fun _ => ?_) (fun _ => ?_)
  · exact Keeps.bump h
  · extract_lets +onlyGivenNames -underBinder -merge x1
    have h1 : Keeps s x1 := Keeps.wr (Keeps.onLink h)
    try clear_value x1
    exact Keeps.pump (Keeps.showStored h1)

theorem Keeps.creditRx {s t : State} {a1 : Nat} {a2 : List Nat} (h : Keeps s t) :
    Keeps s (State.creditRx t a1 a2) := by
  unfold State.creditRx
  extract_lets +onlyGivenNames -underBinder -merge x1 x2 x3
  have h3 : Keeps s x3 := Keeps.onLink h
  try clear_value x3
  extract_lets +onlyGivenNames -underBinder -merge x4
  have h4 : Keeps s x4 := Keeps.forEach h3 (fun _ _ h5 => by
      extract_lets +onlyGivenNames -underBinder -merge x7 x8 x9
      exact Keeps.wr (Keeps.onLink h5))
  try clear_value x4
  extract_lets +onlyGivenNames -underBinder -merge x10
  exact Keeps.ite (fun _ => Keeps.cwkDown h4) (fun _ => Keeps.pump h4)

theorem Keeps.resent {s t : State} {a1 a2 : Nat} (h : Keeps s t) :
    Keeps s (State.resent t a1 a2) := by
  unfold State.resent
  extract_lets +onlyGivenNames -underBinder -merge x1 x2
  have h2 : Keeps s x2 := Keeps.onLink h
  try clear_value x2
  exact Keeps.ite (fun _ => h2) (fun _ => Keeps.pump h2)

theorem Keeps.replayStep {s t : State} {a1 : Nat} {a2 : Replay} (h : Keeps s t) :
    Keeps s (State.replayStep t a1 a2) := by
  unfold State.replayStep
  extract_lets +onlyGivenNames -underBinder -merge x1
  split
  · split
    · rename_i e2_0
      have h2 : Keeps s _ := Keeps.eq2 e2_0 (Keeps.unspill h)
      exact Keeps.resent (Keeps.drive h2)
    · rename_i e3_0
      have h3 : Keeps s _ := Keeps.eq2 e3_0 (Keeps.unspill h)
      exact Keeps.cwkDown h3
  · exact Keeps.resent (Keeps.drive h)
  · exact Keeps.pump (Keeps.onLink h)

theorem Keeps.txFlit {s t : State} {a1 : Nat} (h : Keeps s t) :
    Keeps s (State.txFlit t a1) := by
  unfold State.txFlit
  split
  · exact Keeps.replayStep h
  · exact Keeps.idleFlit h

theorem Keeps.resend {s t : State} {a1 a2 : Nat} (h : Keeps s t) :
    Keeps s (State.resend t a1 a2) := by
  unfold State.resend
  extract_lets +onlyGivenNames -underBinder -merge x1
  have h1 : Keeps s x1 := Keeps.counts (Keeps.bump h)
  try clear_value x1
  exact Keeps.txFlit (Keeps.onLink h1)

theorem Keeps.replayRx {s t : State} {a1 a2 : Nat} (h : Keeps s t) :
    Keeps s (State.replayRx t a1 a2) := by
  unfold State.replayRx
  exact Keeps.ite (fun _ => h) (fun _ => Keeps.ite (fun _ => Keeps.resend h) (fun _ => Keeps.bump h))

theorem Keeps.askReplay {s t : State} {a1 : Nat} (h : Keeps s t) :
    Keeps s (State.askReplay t a1) := by
  unfold State.askReplay
  exact Keeps.txFlit (Keeps.onLink h)

theorem Keeps.bypassNow {s t : State} {a1 a2 : Nat} (h : Keeps s t) :
    Keeps s (State.bypassNow t a1 a2) := by
  unfold State.bypassNow
  exact Keeps.bypassFlit (Keeps.when h (fun _ h1 => Keeps.bypassFlit h1))

theorem Keeps.askRetrain {s t : State} {a1 : Nat} {a2 : CwkTarget} (h : Keeps s t) :
    Keeps s (State.askRetrain t a1 a2) := by
  unfold State.askRetrain
  exact Keeps.ite (fun _ => Keeps.bypassNow (Keeps.onLink h)) (fun _ => h)

theorem Keeps.enterRetrain {s t : State} {a1 : Nat} {a2 : CwkTarget} (h : Keeps s t) :
    Keeps s (State.enterRetrain t a1 a2) := by
  unfold State.enterRetrain
  extract_lets +onlyGivenNames -underBinder -merge x1
  have h1 : Keeps s x1 := Keeps.onLink h
  try clear_value x1
  exact Keeps.showPaths (Keeps.set (Keeps.wr (Keeps.bypassNow h1)))

theorem Keeps.retrainReqRx {s t : State} {a1 : Nat} {a2 : CwkTarget} (h : Keeps s t) :
    Keeps s (State.retrainReqRx t a1 a2) := by
  unfold State.retrainReqRx
  refine Keeps.ite (fun _ => ?_) (fun _ => ?_)
  · exact Keeps.onLink h
  · refine Keeps.ite (fun _ => ?_) (fun _ => ?_)
    · exact h
    · split
      · exact Keeps.enterRetrain h
      · exact Keeps.cwkDown h

theorem Keeps.retrainAckRx {s t : State} {a1 : Nat} {a2 : CwkTarget} (h : Keeps s t) :
    Keeps s (State.retrainAckRx t a1 a2) := by
  unfold State.retrainAckRx
  exact Keeps.ite (fun _ => Keeps.enterRetrain h) (fun _ => h)

theorem Keeps.wakeTolRx {s t : State} {a1 a2 a3 : Nat} (h : Keeps s t) :
    Keeps s (State.wakeTolRx t a1 a2 a3) := by
  unfold State.wakeTolRx
  extract_lets +onlyGivenNames -underBinder -merge x1
  exact Keeps.retarget (Keeps.onLink h)

theorem Keeps.timeRx {s t : State} {a1 a2 : Nat} (h : Keeps s t) :
    Keeps s (State.timeRx t a1 a2) := by
  unfold State.timeRx
  extract_lets +onlyGivenNames -underBinder -merge x1
  exact Keeps.wr h

theorem Keeps.bypassRx {s t : State} {a1 a2 : Nat} (h : Keeps s t) :
    Keeps s (State.bypassRx t a1 a2) := by
  unfold State.bypassRx
  split
  · exact h
  · exact Keeps.replayRx h
  · exact Keeps.retrainReqRx h
  · exact Keeps.retrainAckRx h
  · exact Keeps.wakeTolRx h
  · exact Keeps.timeRx h
  · exact Keeps.bump h

theorem Keeps.seqRx {s t : State} {a1 a2 : Nat} {a3 : Bytes} (h : Keeps s t) :
    Keeps s (State.seqRx t a1 a2 a3) := by
  unfold State.seqRx
  extract_lets +onlyGivenNames -underBinder -merge x1
  refine Keeps.ite (fun _ => ?_) (fun _ => ?_)
  · extract_lets +onlyGivenNames -underBinder -merge x2
    have h2 : Keeps s x2 := Keeps.onLink (Keeps.wr h)
    try clear_value x2
    extract_lets +onlyGivenNames -underBinder -merge x3 x4
    have h4 : Keeps s x4 := Keeps.rxUnits h2
    try clear_value x4
    exact Keeps.ite (fun _ => Keeps.txFlit h4) (fun _ => h4)
  · exact Keeps.ite (fun _ => Keeps.askReplay h) (fun _ => h)

theorem Keeps.flitRx {s t : State} {a1 : Nat} {a2 : Bytes} (h : Keeps s t) :
    Keeps s (State.flitRx t a1 a2) := by
  unfold State.flitRx
  refine Keeps.ite (fun _ => ?_) (fun _ => ?_)
  · exact h
  · split
    · extract_lets +onlyGivenNames -underBinder -merge x1
      have h1 : Keeps s x1 := Keeps.bump h
      try clear_value x1
      split
      · exact Keeps.askReplay (Keeps.onLink (Keeps.bump h1))
      · extract_lets +onlyGivenNames -underBinder -merge x2
        have h2 : Keeps s x2 := Keeps.onLink h1
        try clear_value x2
        extract_lets +onlyGivenNames -underBinder -merge x3
        have h3 : Keeps s x3 := Keeps.creditRx (Keeps.ackRx h2)
        try clear_value x3
        extract_lets +onlyGivenNames -underBinder -merge x4
        have h4 : Keeps s x4 := Keeps.ite (fun _ => Keeps.bypassRx h3) (fun _ => h3)
        try clear_value x4
        exact Keeps.ite (fun _ => Keeps.seqRx h4) (fun _ => h4)

theorem Keeps.linkTick {s t : State} {a1 : Nat} (h : Keeps s t) :
    Keeps s (State.linkTick t a1) := by
  unfold State.linkTick
  exact Keeps.ite (fun _ => Keeps.txFlit h) (fun _ => h)

theorem Keeps.execCwkLinkDetect {s t : State} {a0 : Fin 8} {a1 a2 : Bool} (h : Keeps s t) :
    KeepsX s (Machine.execCwkLinkDetect a0 a1 a2 t) := by
  unfold Machine.execCwkLinkDetect
  exact KeepsX.onDie h (fun _ h1 => by
    extract_lets +onlyGivenNames -underBinder -merge x2 x3
    exact Keeps.ite (fun _ => h1) (fun _ => Keeps.ite (fun _ => Keeps.wr h1) (fun _ => Keeps.wr (Keeps.clear h1))))

theorem Keeps.spillCheck {s t : State} {a1 : Nat} (h : Keeps s t) :
    Keeps s (State.spillCheck t a1) := by
  unfold State.spillCheck
  extract_lets +onlyGivenNames -underBinder -merge x1
  refine Keeps.ite (fun _ => ?_) (fun _ => ?_)
  · exact Keeps.wr h
  · refine Keeps.ite (fun _ => ?_) (fun _ => ?_)
    · extract_lets +onlyGivenNames -underBinder -merge x2
      have h2 : Keeps s x2 := Keeps.onLink h
      try clear_value x2
      exact Keeps.wr (Keeps.set h2)
    · exact Keeps.wr (Keeps.set h)

theorem Keeps.showWidth {s t : State} {a1 : Nat} {a2 : BitVec 2} {a3 : BitVec 3} (h : Keeps s t) :
    Keeps s (State.showWidth t a1 a2 a3) := by
  unfold State.showWidth
  extract_lets +onlyGivenNames -underBinder -merge x1
  have h1 : Keeps s x1 := Keeps.wr (Keeps.wr h)
  try clear_value x1
  extract_lets +onlyGivenNames -underBinder -merge x2
  have h2 : Keeps s x2 := Keeps.wr h1
  try clear_value x2
  exact Keeps.wr h2

theorem Keeps.execCwkTrained {s t : State} {a0 : Fin 8} {a1 : BitVec 2} {a2 : BitVec 3} {a3 : BitVec 16} (h : Keeps s t) :
    KeepsX s (Machine.execCwkTrained a0 a1 a2 a3 t) := by
  unfold Machine.execCwkTrained
  exact KeepsX.onDie h (fun _ h1 => by
    extract_lets +onlyGivenNames -underBinder -merge x2
    refine Keeps.ite (fun _ => ?_) (fun _ => ?_)
    · exact h1
    · extract_lets +onlyGivenNames -underBinder -merge x3
      extract_lets +onlyGivenNames -underBinder -merge x4 x5
      have h5 : Keeps s x5 := Keeps.upd h1
      try clear_value x5
      extract_lets +onlyGivenNames -underBinder -merge x6
      have h6 : Keeps s x6 := Keeps.forEach h5 (fun _ _ h7 => Keeps.clear (Keeps.clear h7))
      try clear_value x6
      extract_lets +onlyGivenNames -underBinder -merge x9
      have h9 : Keeps s x9 := Keeps.wr (Keeps.wr h6)
      try clear_value x9
      exact Keeps.idleFlit (Keeps.sendHello (Keeps.spillCheck (Keeps.showWidth h9))))

theorem Keeps.execCwkTrainTimeout {s t : State} {a0 : Fin 8} (h : Keeps s t) :
    KeepsX s (Machine.execCwkTrainTimeout a0 t) := by
  unfold Machine.execCwkTrainTimeout
  exact KeepsX.onDie h (fun _ h1 => Keeps.ite (fun _ => Keeps.cwkDown h1) (fun _ => h1))

theorem Keeps.execCwkInitTimeout {s t : State} {a0 : Fin 8} (h : Keeps s t) :
    KeepsX s (Machine.execCwkInitTimeout a0 t) := by
  unfold Machine.execCwkInitTimeout
  exact KeepsX.onDie h (fun _ h1 => Keeps.ite (fun _ => Keeps.cwkDown h1) (fun _ => h1))

theorem Keeps.execFlitReceive {s t : State} {a0 : Fin 8} {a1 : Bytes} (h : Keeps s t) :
    KeepsX s (Machine.execFlitReceive a0 a1 t) := by
  unfold Machine.execFlitReceive
  exact KeepsX.onDie h (fun _ h1 => Keeps.ite (fun _ => Keeps.flitRx h1) (fun _ => h1))

theorem Keeps.execCreditReportMissing {s t : State} {a0 : Fin 8} (h : Keeps s t) :
    KeepsX s (Machine.execCreditReportMissing a0 t) := by
  unfold Machine.execCreditReportMissing
  exact KeepsX.onDie h (fun _ h1 => Keeps.ite (fun _ => Keeps.askRetrain h1) (fun _ => h1))

theorem Keeps.laneLost {s t : State} {a1 a2 : Nat} (h : Keeps s t) :
    Keeps s (State.laneLost t a1 a2) := by
  unfold State.laneLost
  exact Keeps.record (Keeps.set (Keeps.wr h))

theorem Keeps.execFaultRetrain {s t : State} {a0 : Fin 8} {a1 : Bool} (h : Keeps s t) :
    KeepsX s (Machine.execFaultRetrain a0 a1 t) := by
  unfold Machine.execFaultRetrain
  exact KeepsX.onDie h (fun _ h1 => Keeps.ite (fun _ => Keeps.askRetrain h1) (fun _ => h1))

theorem Keeps.execCwkLaneFail {s t : State} {a0 : Fin 8} {a1 : BitVec 4} (h : Keeps s t) :
    KeepsX s (Machine.execCwkLaneFail a0 a1 t) := by
  unfold Machine.execCwkLaneFail
  exact KeepsX.onDie h (fun _ h1 => by
    extract_lets +onlyGivenNames -underBinder -merge x2 x3
    refine Keeps.ite (fun _ => ?_) (fun _ => ?_)
    · exact h1
    · extract_lets +onlyGivenNames -underBinder -merge x4
      have h4 : Keeps s x4 := Keeps.bump (Keeps.set h1)
      try clear_value x4
      refine Keeps.ite (fun _ => ?_) (fun _ => ?_)
      · exact Keeps.cwkDown (Keeps.laneLost h4)
      · extract_lets +onlyGivenNames -underBinder -merge x5
        exact Keeps.askRetrain (Keeps.onLink h4))

theorem Keeps.execReplayReq {s t : State} {a0 : Fin 8} {a1 : BitVec 16} (h : Keeps s t) :
    KeepsX s (Machine.execReplayReq a0 a1 t) := by
  unfold Machine.execReplayReq
  exact KeepsX.onDie h (fun _ h1 => Keeps.ite (fun _ => Keeps.replayRx h1) (fun _ => h1))

theorem Keeps.execRetrainReq {s t : State} {a0 : Fin 8} {a1 : CwkTarget} (h : Keeps s t) :
    KeepsX s (Machine.execRetrainReq a0 a1 t) := by
  unfold Machine.execRetrainReq
  exact KeepsX.onDie h (fun _ h1 => Keeps.retrainReqRx h1)

theorem Keeps.execRetrainAck {s t : State} {a0 : Fin 8} {a1 : CwkTarget} (h : Keeps s t) :
    KeepsX s (Machine.execRetrainAck a0 a1 t) := by
  unfold Machine.execRetrainAck
  exact KeepsX.onDie h (fun _ h1 => Keeps.retrainAckRx h1)

theorem Keeps.execWakeTol {s t : State} {a0 : Fin 8} {a1 a2 : BitVec 24} (h : Keeps s t) :
    KeepsX s (Machine.execWakeTol a0 a1 a2 t) := by
  unfold Machine.execWakeTol
  exact KeepsX.onDie h (fun _ h1 => Keeps.ite (fun _ => Keeps.wakeTolRx h1) (fun _ => h1))

theorem Keeps.execTime {s t : State} {a0 : Fin 8} {a1 : BitVec 56} (h : Keeps s t) :
    KeepsX s (Machine.execTime a0 a1 t) := by
  unfold Machine.execTime
  exact KeepsX.onDie h (fun _ h1 => Keeps.ite (fun _ => Keeps.timeRx h1) (fun _ => h1))

theorem Keeps.execWakeTolAgeExpire {s t : State} {a0 : Fin 8} (h : Keeps s t) :
    KeepsX s (Machine.execWakeTolAgeExpire a0 t) := by
  unfold Machine.execWakeTolAgeExpire
  exact KeepsX.onDie h (fun _ h1 => Keeps.retarget (Keeps.onLink h1))

theorem Keeps.execHello {s t : State} {a0 : Fin 8} {a1 : BitVec 512} (h : Keeps s t) :
    KeepsX s (Machine.execHello a0 a1 t) := by
  unfold Machine.execHello
  exact KeepsX.onDie h (fun _ h1 => by
    extract_lets +onlyGivenNames -underBinder -merge x2
    exact Keeps.ite (fun _ => Keeps.helloRx h1) (fun _ => Keeps.cwkProto h1))

theorem Keeps.execHelloTimer {s t : State} {a0 : Fin 8} (h : Keeps s t) :
    KeepsX s (Machine.execHelloTimer a0 t) := by
  unfold Machine.execHelloTimer
  exact KeepsX.onDie h (fun _ h1 => Keeps.ite (fun _ => Keeps.sendHello h1) (fun _ => h1))

theorem Keeps.execExclude {s t : State} {a0 : Fin 8} {a1 : BitVec 4} (h : Keeps s t) :
    KeepsX s (Machine.execExclude a0 a1 t) := by
  unfold Machine.execExclude
  exact KeepsX.onDie h (fun _ h1 => Keeps.ite (fun _ => Keeps.excludeRx h1) (fun _ => h1))

theorem Keeps.execPathloss {s t : State} {a0 : Fin 8} {a1 a2 : BitVec 4} (h : Keeps s t) :
    KeepsX s (Machine.execPathloss a0 a1 a2 t) := by
  unfold Machine.execPathloss
  exact KeepsX.onDie h (fun _ h1 => Keeps.ite (fun _ => Keeps.pathlossRx h1) (fun _ => h1))

theorem Keeps.execFwmsg {s t : State} {a0 : Fin 8} {a1 : BitVec 4} {a2 : BitVec 512} (h : Keeps s t) :
    KeepsX s (Machine.execFwmsg a0 a1 a2 t) := by
  unfold Machine.execFwmsg
  exact KeepsX.onDie h (fun _ h1 => Keeps.ite (fun _ => Keeps.emit h1) (fun _ => h1))

theorem Keeps.execCatwalkPacket {s t : State} {a0 : Fin 8} {a1 : CwkPacket} (h : Keeps s t) :
    KeepsX s (Machine.execCatwalkPacket a0 a1 t) := by
  unfold Machine.execCatwalkPacket
  exact KeepsX.onDie h (fun _ h1 => Keeps.ite (fun _ => Keeps.rxPacket h1) (fun _ => h1))

theorem Keeps.writeSmap {s t : State} {a1 : Initiator} {a2 a3 a4 : Nat} (h : Keeps s t) :
    Keeps s (State.writeSmap t a1 a2 a3 a4) := by
  unfold State.writeSmap
  extract_lets +onlyGivenNames -underBinder -merge x1 x2
  refine Keeps.ite (fun _ => ?_) (fun _ => ?_)
  · exact h
  · refine Keeps.ite (fun _ => ?_) (fun _ => ?_)
    · exact Keeps.ite (fun _ => Keeps.writeWord h) (fun _ => h)
    · refine Keeps.ite (fun _ => ?_) (fun _ => ?_)
      · exact Keeps.writeWord h
      · extract_lets +onlyGivenNames -underBinder -merge x3
        extract_lets +onlyGivenNames -underBinder -merge x4 x5 x6
        exact Keeps.ite (fun _ => Keeps.writeWord h) (fun _ => Keeps.bump (Keeps.writeWord h))

theorem Keeps.writeCwk {s t : State} {a1 : Initiator} {a2 a3 : Nat} (h : Keeps s t) :
    Keeps s (State.writeCwk t a1 a2 a3) := by
  unfold State.writeCwk
  exact Keeps.withHello h (fun _ h1 => by
    split
    · extract_lets +onlyGivenNames -underBinder -merge x2
      have h2 : Keeps s x2 := Keeps.writeWord h1
      try clear_value x2
      extract_lets +onlyGivenNames -underBinder -merge x3
      have h3 : Keeps s x3 := Keeps.ite (fun _ => Keeps.cwkDown h2) (fun _ => h2)
      try clear_value x3
      extract_lets +onlyGivenNames -underBinder -merge x4
      exact Keeps.when h3 (fun _ h5 => Keeps.askRetrain h5)
    · exact Keeps.wr h1
    · exact Keeps.writeSmap h1
    · extract_lets +onlyGivenNames -underBinder -merge x6
      have h6 : Keeps s x6 := Keeps.writeWord h1
      try clear_value x6
      exact Keeps.ite (fun _ => Keeps.wr h6) (fun _ => h6))

theorem Keeps.execPlannedRetrain {s t : State} {a0 : Initiator} {a1 : Fin 8} {a2 : BitVec 64} (h : Keeps s t) :
    KeepsX s (Machine.execPlannedRetrain a0 a1 a2 t) := by
  unfold Machine.execPlannedRetrain
  extract_lets +onlyGivenNames -underBinder -merge x1
  exact KeepsX.onDie h (fun _ h2 => Keeps.barWrite h2 (fun _ h3 => Keeps.writeCwk h3))

theorem Keeps.retrainEnds {s t : State} {a1 a2 : Nat} (h : Keeps s t) :
    Keeps s (State.retrainEnds t a1 a2) := by
  unfold State.retrainEnds
  split
  · exact h
  · extract_lets +onlyGivenNames -underBinder -merge x1
    try clear_value x1
    extract_lets +onlyGivenNames -underBinder -merge x2
    have h2 : Keeps s x2 := Keeps.onLink h
    try clear_value x2
    extract_lets +onlyGivenNames -underBinder -merge x3
    have h3 : Keeps s x3 := Keeps.wr (Keeps.showWidth h2)
    try clear_value x3
    extract_lets +onlyGivenNames -underBinder -merge x4
    have h4 : Keeps s x4 := by
      unfold x4
      split
      · exact Keeps.laneLost h3
      · exact h3
    try clear_value x4
    extract_lets +onlyGivenNames -underBinder -merge x5
    have h5 : Keeps s x5 := Keeps.bypassFlit (Keeps.showPaths h4)
    try clear_value x5
    extract_lets +onlyGivenNames -underBinder -merge x6
    have h6 : Keeps s x6 := Keeps.ite (fun _ => Keeps.resend h5) (fun _ => h5)
    try clear_value x6
    extract_lets +onlyGivenNames -underBinder -merge x7
    have h7 : Keeps s x7 := Keeps.pump h6
    try clear_value x7
    split
    · exact Keeps.retrainReqRx h7
    · exact h7

theorem Keeps.execRetrainDone {s t : State} {a0 : Fin 8} {a1 : BitVec 16} (h : Keeps s t) :
    KeepsX s (Machine.execRetrainDone a0 a1 t) := by
  unfold Machine.execRetrainDone
  exact KeepsX.onDie h (fun _ h1 => Keeps.ite (fun _ => Keeps.retrainEnds h1) (fun _ => h1))

theorem Keeps.execRetrainTimeout {s t : State} {a0 : Fin 8} (h : Keeps s t) :
    KeepsX s (Machine.execRetrainTimeout a0 t) := by
  unfold Machine.execRetrainTimeout
  exact KeepsX.onDie h (fun _ h1 => Keeps.ite (fun _ => Keeps.cwkDown h1) (fun _ => h1))

theorem Keeps.execExclusionSweepDone {s t : State} {a0 : Fin 16} (h : Keeps s t) :
    KeepsX s (Machine.execExclusionSweepDone a0 t) := by
  unfold Machine.execExclusionSweepDone
  exact KeepsX.onDie h (fun _ h1 => by
    refine Keeps.ite (fun _ => ?_) (fun _ => ?_)
    · extract_lets +onlyGivenNames -underBinder -merge x2
      extract_lets +onlyGivenNames -underBinder -merge x3
      have h3 : Keeps s x3 := Keeps.upd h1
      try clear_value x3
      extract_lets +onlyGivenNames -underBinder -merge x4
      have h4 : Keeps s x4 := Keeps.excludeDirs h3
      try clear_value x4
      exact Keeps.helloAll (Keeps.wrBit h4)
    · exact h1)

theorem Keeps.execReadmit {s t : State} {a0 : Fin 16} (h : Keeps s t) :
    KeepsX s (Machine.execReadmit a0 t) := by
  unfold Machine.execReadmit
  exact KeepsX.onDie h (fun _ h1 => by
    refine Keeps.ite (fun _ => ?_) (fun _ => ?_)
    · extract_lets +onlyGivenNames -underBinder -merge x2
      have h2 : Keeps s x2 := Keeps.wrBit h1
      try clear_value x2
      extract_lets +onlyGivenNames -underBinder -merge x3
      have h3 : Keeps s x3 := Keeps.wrBit (Keeps.wrBit h2)
      try clear_value x3
      extract_lets +onlyGivenNames -underBinder -merge x4 x5
      have h5 : Keeps s x5 := Keeps.upd h3
      try clear_value x5
      exact Keeps.helloAll (Keeps.showPaths (Keeps.set h5))
    · exact h1)

theorem Keeps.execSmapEnable {s t : State} {a0 : Initiator} {a1 : Fin 64} {a2 : BitVec 64} (h : Keeps s t) :
    KeepsX s (Machine.execSmapEnable a0 a1 a2 t) := by
  unfold Machine.execSmapEnable
  extract_lets +onlyGivenNames -underBinder -merge x1
  exact KeepsX.onDie h (fun _ h2 => Keeps.barWrite h2 (fun _ h3 => Keeps.writeCwk h3))

theorem Keeps.execSmapDisable {s t : State} {a0 : Initiator} {a1 : Fin 64} {a2 : BitVec 64} (h : Keeps s t) :
    KeepsX s (Machine.execSmapDisable a0 a1 a2 t) := by
  unfold Machine.execSmapDisable
  extract_lets +onlyGivenNames -underBinder -merge x1
  exact KeepsX.onDie h (fun _ h2 => Keeps.barWrite h2 (fun _ h3 => Keeps.writeCwk h3))

theorem Keeps.snapshot {s t : State} (h : Keeps s t) :
    Keeps s (State.snapshot t) := by
  unfold State.snapshot
  extract_lets +onlyGivenNames -underBinder -merge x1
  have h1 : Keeps s x1 := h
  try clear_value x1
  extract_lets +onlyGivenNames -underBinder -merge x2
  have h2 : Keeps s x2 := Keeps.forEach h (fun _ _ h3 => by
      extract_lets +onlyGivenNames -underBinder -merge x5
      have h5 : Keeps s x5 := Keeps.wr h3
      try clear_value x5
      exact Keeps.forEach h5 (fun _ _ h6 => Keeps.wr h6))
  try clear_value x2
  extract_lets +onlyGivenNames -underBinder -merge x8
  have h8 : Keeps s x8 := Keeps.forEach h2 (fun _ _ h9 => Keeps.wr (Keeps.wr h9))
  try clear_value x8
  exact Keeps.set (Keeps.add (Keeps.wr h8))

theorem Keeps.loseOldest {s t : State} (h : Keeps s t) :
    Keeps s (State.loseOldest t) := by
  unfold State.loseOldest
  extract_lets +onlyGivenNames -underBinder -merge x1
  exact Keeps.loseRecord (Keeps.upd h)

theorem Keeps.takeRecord {s t : State} {a1 : Nat} {a2 : Bytes} (h : Keeps s t) :
    Keeps s (State.takeRecord t a1 a2) := by
  unfold State.takeRecord
  extract_lets +onlyGivenNames -underBinder -merge x1 x2 x3 x4 x5 x6 x7 x8
  have h8 : Keeps s x8 := Keeps.upd h
  try clear_value x8
  split
  · exact Keeps.postLine h8
  · exact h8

theorem Keeps.smpTurn {s t : State} (h : Keeps s t) :
    Keeps s (State.smpTurn t) := by
  unfold State.smpTurn
  split
  · exact h
  · extract_lets +onlyGivenNames -underBinder -merge x1
    exact Keeps.ite (fun _ => h) (fun _ => Keeps.ite (fun _ => Keeps.ite (fun _ => Keeps.loseOldest h) (fun _ => h)) (fun _ => Keeps.takeRecord h))

theorem Keeps.smpPump {s t : State} (h : Keeps s t) :
    Keeps s (State.smpPump t) := by
  unfold State.smpPump
  exact Keeps.showSmp (Keeps.foldl h (fun _ _ h1 => Keeps.smpTurn h1))

theorem Keeps.smpFlush {s t : State} (h : Keeps s t) :
    Keeps s (State.smpFlush t) := by
  unfold State.smpFlush
  exact Keeps.smpPump (Keeps.upd h)

theorem Keeps.smpEnable {s t : State} (h : Keeps s t) :
    Keeps s (State.smpEnable t) := by
  unfold State.smpEnable
  refine Keeps.ite (fun _ => ?_) (fun _ => ?_)
  · extract_lets +onlyGivenNames -underBinder -merge x1
    extract_lets +onlyGivenNames -underBinder -merge x2 x3 x4
    have h4 : Keeps s x4 := Keeps.upd h
    try clear_value x4
    exact Keeps.wr (Keeps.wr (Keeps.clear (Keeps.set h4)))
  · exact Keeps.set h

theorem Keeps.smpRelease {s t : State} (h : Keeps s t) :
    Keeps s (State.smpRelease t) := by
  unfold State.smpRelease
  exact Keeps.ite (fun _ => Keeps.upd h) (fun _ => h)

theorem Keeps.smpAccepted {s t : State} (h : Keeps s t) :
    Keeps s (State.smpAccepted t) := by
  unfold State.smpAccepted
  split
  · exact h
  · extract_lets +onlyGivenNames -underBinder -merge x1
    refine Keeps.ite (fun _ => ?_) (fun _ => ?_)
    · exact h
    · extract_lets +onlyGivenNames -underBinder -merge x2
      have h2 : Keeps s x2 := Keeps.putHall h
      try clear_value x2
      extract_lets +onlyGivenNames -underBinder -merge x3 x4
      have h4 : Keeps s x4 := Keeps.upd h2
      try clear_value x4
      exact Keeps.showSmp (Keeps.smpRelease (Keeps.wr h4))

theorem Keeps.execSampleWriteDone {s t : State} (h : Keeps s t) :
    KeepsX s (Machine.execSampleWriteDone t) := by
  unfold Machine.execSampleWriteDone
  exact KeepsX.onDie h (fun _ h1 => Keeps.smpPump (Keeps.smpAccepted (Keeps.smpPump h1)))

theorem Keeps.loadSampling {s t : State} {a1 a2 : Nat} (h : Keeps s t) :
    Keeps s (State.loadSampling t a1 a2) := by
  unfold State.loadSampling
  exact Keeps.ite (fun _ => Keeps.wr h) (fun _ => h)

theorem Keeps.fixSample {s t : State} {a1 a2 : Nat} (h : Keeps s t) :
    Keeps s (State.fixSample t a1 a2) := by
  unfold State.fixSample
  extract_lets +onlyGivenNames -underBinder -merge x1
  exact Keeps.ite (fun _ => h) (fun _ => Keeps.clear h)

theorem Keeps.writeCnt {s t : State} {a1 : Initiator} {a2 a3 : Nat} (h : Keeps s t) :
    Keeps s (State.writeCnt t a1 a2 a3) := by
  unfold State.writeCnt
  extract_lets +onlyGivenNames -underBinder -merge x1
  have h1 : Keeps s x1 := h
  try clear_value x1
  refine Keeps.ite (fun _ => ?_) (fun _ => ?_)
  · extract_lets +onlyGivenNames -underBinder -merge x2
    exact Keeps.ite (fun _ => Keeps.smpPump (Keeps.wr h)) (fun _ => h)
  · refine Keeps.ite (fun _ => ?_) (fun _ => ?_)
    · exact Keeps.ite (fun _ => h) (fun _ => Keeps.writeWord h)
    · refine Keeps.ite (fun _ => ?_) (fun _ => ?_)
      · extract_lets +onlyGivenNames -underBinder -merge x3
        have h3 : Keeps s x3 := Keeps.wr h
        try clear_value x3
        extract_lets +onlyGivenNames -underBinder -merge x4 x5
        have h5 : Keeps s x5 := Keeps.ite (fun _ => Keeps.smpEnable h3) (fun _ => Keeps.ite (fun _ => Keeps.smpRelease (Keeps.clear h3)) (fun _ => h3))
        try clear_value x5
        exact Keeps.ite (fun _ => Keeps.smpFlush h5) (fun _ => Keeps.smpPump h5)
      · refine Keeps.ite (fun _ => ?_) (fun _ => ?_)
        · exact Keeps.ite (fun _ => Keeps.snapshot h) (fun _ => h)
        · extract_lets +onlyGivenNames -underBinder -merge x6
          have h6 : Keeps s x6 := Keeps.writeWord h
          try clear_value x6
          split
          · exact Keeps.loadSampling (Keeps.fixSample h6)
          · extract_lets +onlyGivenNames -underBinder -merge x7
            have h7 : Keeps s x7 := Keeps.wr h6
            try clear_value x7
            exact Keeps.ite (fun _ => h7) (fun _ => Keeps.loadSampling h7)
          · exact Keeps.wrBit h6
          · exact h6

theorem Keeps.execCntSelWrite {s t : State} {a0 : Initiator} {a1 : Fin 64} {a2 : Fin 8} {a3 : BitVec 64} (h : Keeps s t) :
    KeepsX s (Machine.execCntSelWrite a0 a1 a2 a3 t) := by
  unfold Machine.execCntSelWrite
  extract_lets +onlyGivenNames -underBinder -merge x1
  exact KeepsX.onDie h (fun _ h2 => Keeps.barWrite h2 (fun _ h3 => Keeps.writeCnt h3))

theorem Keeps.execCntPerWrite {s t : State} {a0 : Initiator} {a1 : Fin 64} {a2 : Fin 8} {a3 : BitVec 64} (h : Keeps s t) :
    KeepsX s (Machine.execCntPerWrite a0 a1 a2 a3 t) := by
  unfold Machine.execCntPerWrite
  extract_lets +onlyGivenNames -underBinder -merge x1
  exact KeepsX.onDie h (fun _ h2 => Keeps.barWrite h2 (fun _ h3 => Keeps.writeCnt h3))

theorem Keeps.execSnapNow {s t : State} {a0 : Initiator} (h : Keeps s t) :
    KeepsX s (Machine.execSnapNow a0 t) := by
  unfold Machine.execSnapNow
  extract_lets +onlyGivenNames -underBinder -merge x1
  exact KeepsX.onDie h (fun _ h2 => Keeps.barWrite h2 (fun _ h3 => Keeps.writeCnt h3))

theorem Keeps.execSmpFlush {s t : State} {a0 : Initiator} {a1 : BitVec 64} (h : Keeps s t) :
    KeepsX s (Machine.execSmpFlush a0 a1 t) := by
  unfold Machine.execSmpFlush
  extract_lets +onlyGivenNames -underBinder -merge x1
  exact KeepsX.onDie h (fun _ h2 => Keeps.barWrite h2 (fun _ h3 => Keeps.writeCnt h3))

theorem Keeps.execSampleRingEnable {s t : State} {a0 : Initiator} {a1 : BitVec 64} (h : Keeps s t) :
    KeepsX s (Machine.execSampleRingEnable a0 a1 t) := by
  unfold Machine.execSampleRingEnable
  extract_lets +onlyGivenNames -underBinder -merge x1
  exact KeepsX.onDie h (fun _ h2 => Keeps.barWrite h2 (fun _ h3 => Keeps.writeCnt h3))

theorem Keeps.execSampleRingDisable {s t : State} {a0 : Initiator} {a1 : BitVec 64} (h : Keeps s t) :
    KeepsX s (Machine.execSampleRingDisable a0 a1 t) := by
  unfold Machine.execSampleRingDisable
  extract_lets +onlyGivenNames -underBinder -merge x1
  exact KeepsX.onDie h (fun _ h2 => Keeps.barWrite h2 (fun _ h3 => Keeps.writeCnt h3))

theorem Keeps.execRptrWrite {s t : State} {a0 : Initiator} {a1 : BitVec 64} (h : Keeps s t) :
    KeepsX s (Machine.execRptrWrite a0 a1 t) := by
  unfold Machine.execRptrWrite
  extract_lets +onlyGivenNames -underBinder -merge x1
  exact KeepsX.onDie h (fun _ h2 => Keeps.barWrite h2 (fun _ h3 => Keeps.writeCnt h3))

theorem Keeps.coreRuns {s t : State} {a1 : Nat} (h : Keeps s t) :
    Keeps s (State.coreRuns t a1) := by
  unfold State.coreRuns
  split
  · rename_i e1_0
    have h1 : Keeps s _ := Keeps.eq2 e1_0 (Keeps.draw h)
    extract_lets +onlyGivenNames -underBinder -merge x2 x3
    have h3 : Keeps s x3 := Keeps.counts h1
    try clear_value x3
    extract_lets +onlyGivenNames -underBinder -merge x4
    have h4 : Keeps s x4 := Keeps.counts h3
    try clear_value x4
    split
    · rename_i e5_0
      have h5 : Keeps s _ := Keeps.eq2 e5_0 (Keeps.draw h4)
      exact Keeps.onPlic h5

theorem Keeps.coreWakes {s t : State} {a1 : Nat} (h : Keeps s t) :
    Keeps s (State.coreWakes t a1) := by
  unfold State.coreWakes
  exact Keeps.ite (fun _ => Keeps.upd h) (fun _ => h)

theorem Keeps.coresGo {s t : State} (h : Keeps s t) :
    Keeps s (State.coresGo t) := by
  unfold State.coresGo
  exact Keeps.forEach (Keeps.gateways h) (fun _ _ h1 => by
    split
    · exact Keeps.coreRuns h1
    · exact Keeps.coreWakes h1
    · exact h1)

end Sys2Proof.Machine
end

