-- ==== Sys2Proof/Laws/KeepsInletToCalendar.lean ====
section
/-!
SUPPORT. What the operations and meanings of Inlet, PageMap, Calendar keep (Laws/Keeps).
-/

namespace Sys2Proof.Machine

theorem Keeps.inlNext {s t : State} (h : Keeps s t) :
    Keeps s (State.inlNext t) := by
  unfold State.inlNext
  refine Keeps.ite (fun _ => ?_) (fun _ => ?_)
  · exact h
  · split
    · exact h
    · refine Keeps.ite (fun _ => ?_) (fun _ => ?_)
      · extract_lets +onlyGivenNames -underBinder -merge x1
        have h1 : Keeps s x1 := Keeps.wr h
        try clear_value x1
        exact Keeps.ite (fun _ => Keeps.set h1) (fun _ => h1)
      · exact h

theorem Keeps.bankLost {s t : State} {a1 : Nat} (h : Keeps s t) :
    Keeps s (State.bankLost t a1) := by
  unfold State.bankLost
  exact Keeps.ite (fun _ => Keeps.forEach h (fun _ _ h1 => Keeps.pmicFault (Keeps.pmicFault h1))) (fun _ => h)

theorem Keeps.gateOff {s t : State} {a1 a2 : Nat} (h : Keeps s t) :
    Keeps s (State.gateOff t a1 a2) := by
  unfold State.gateOff
  extract_lets +onlyGivenNames -underBinder -merge x1 x2
  have h2 : Keeps s x2 := Keeps.wr h
  try clear_value x2
  exact Keeps.ite (fun _ => Keeps.bankLost h2) (fun _ => h2)

theorem Keeps.banksDown {s t : State} (h : Keeps s t) :
    Keeps s (State.banksDown t) := by
  unfold State.banksDown
  exact Keeps.forEach h (fun _ _ h1 => Keeps.clear (Keeps.ite (fun _ => h1) (fun _ => Keeps.gateOff h1)))

theorem Keeps.inletOff {s t : State} {a1 : Nat} (h : Keeps s t) :
    Keeps s (State.inletOff t a1) := by
  unfold State.inletOff
  extract_lets +onlyGivenNames -underBinder -merge x1 x2
  have h2 : Keeps s x2 := Keeps.gateOff h
  try clear_value x2
  exact Keeps.ite (fun _ => Keeps.banksDown h2) (fun _ => h2)

theorem Keeps.tripNow {s t : State} {a1 a2 : Nat} (h : Keeps s t) :
    Keeps s (State.tripNow t a1 a2) := by
  unfold State.tripNow
  refine Keeps.ite (fun _ => ?_) (fun _ => ?_)
  · exact h
  · extract_lets +onlyGivenNames -underBinder -merge x1
    have h1 : Keeps s x1 := Keeps.ite (fun _ => Keeps.inletOff h) (fun _ => Keeps.gateOff h)
    try clear_value x1
    extract_lets +onlyGivenNames -underBinder -merge x2
    have h2 : Keeps s x2 := Keeps.set (Keeps.wr h1)
    try clear_value x2
    extract_lets +onlyGivenNames -underBinder -merge x3
    have h3 : Keeps s x3 := Keeps.wr (Keeps.bump h2)
    try clear_value x3
    extract_lets +onlyGivenNames -underBinder -merge x4 x5 x6
    have h6 : Keeps s x6 := Keeps.upd h3
    try clear_value x6
    refine Keeps.ite (fun _ => ?_) (fun _ => ?_)
    · extract_lets +onlyGivenNames -underBinder -merge x7
      have h7 : Keeps s x7 := Keeps.record h6
      try clear_value x7
      exact Keeps.ite (fun _ => h7) (fun _ => Keeps.set (Keeps.moduleEvent h7))
    · exact h6

theorem Keeps.trip {s t : State} {a1 a2 : Nat} (h : Keeps s t) :
    Keeps s (State.trip t a1 a2) := by
  unfold State.trip
  exact Keeps.inlNext (Keeps.tripNow h)

theorem Keeps.rampStart {s t : State} {a1 : Nat} (h : Keeps s t) :
    Keeps s (State.rampStart t a1) := by
  unfold State.rampStart
  exact Keeps.bump (Keeps.wr h)

theorem Keeps.toggleUp {s t : State} {a1 : Nat} {a2 : Bool} (h : Keeps s t) :
    Keeps s (State.toggleUp t a1 a2) := by
  unfold State.toggleUp
  refine Keeps.ite (fun _ => ?_) (fun _ => ?_)
  · exact h
  · extract_lets +onlyGivenNames -underBinder -merge x1
    extract_lets +onlyGivenNames -underBinder -merge x2
    have h2 : Keeps s x2 := Keeps.upd h
    try clear_value x2
    exact Keeps.ite (fun _ => Keeps.clear (Keeps.wr h2)) (fun _ => h2)

theorem Keeps.inlEnable {s t : State} {a1 : Nat} {a2 a3 : Bool} (h : Keeps s t) :
    Keeps s (State.inlEnable t a1 a2 a3) := by
  unfold State.inlEnable
  extract_lets +onlyGivenNames -underBinder -merge x1 x2
  have h2 : Keeps s x2 := Keeps.wr h
  try clear_value x2
  extract_lets +onlyGivenNames -underBinder -merge x3 x4 x5
  have h5 : Keeps s x5 := Keeps.ite (fun _ => Keeps.ite (fun _ => Keeps.toggleUp h2) (fun _ => Keeps.ite (fun _ => Keeps.upd h2) (fun _ => h2))) (fun _ => Keeps.ite (fun _ => h2) (fun _ => Keeps.ite (fun _ => Keeps.inletOff h2) (fun _ => Keeps.gateOff h2)))
  try clear_value x5
  exact Keeps.inlNext h5

theorem Keeps.inlLimits {s t : State} (h : Keeps s t) :
    Keeps s (State.inlLimits t) := by
  unfold State.inlLimits
  extract_lets +onlyGivenNames -underBinder -merge x1 x2 x3
  have h3 : Keeps s x3 := Keeps.forEach h (fun _ _ h4 => by
      extract_lets +onlyGivenNames -underBinder -merge x6
      have h6 : Keeps s x6 := Keeps.ite (fun _ => Keeps.wr h4) (fun _ => h4)
      try clear_value x6
      extract_lets +onlyGivenNames -underBinder -merge x7
      have h7 : Keeps s x7 := Keeps.ite (fun _ => Keeps.wr h6) (fun _ => h6)
      try clear_value x7
      exact Keeps.ite (fun _ => Keeps.wr h7) (fun _ => h7))
  try clear_value x3
  exact Keeps.upd h3

theorem Keeps.qualify {s t : State} {a1 : Nat} {a2 : Bool} (h : Keeps s t) :
    Keeps s (State.qualify t a1 a2) := by
  unfold State.qualify
  exact Keeps.ite (fun _ => Keeps.wr (Keeps.upd h)) (fun _ => h)

theorem Keeps.execPresenceLow {s t : State} {a0 : BitVec 4} {a1 : Bool} (h : Keeps s t) :
    KeepsX s (Machine.execPresenceLow a0 a1 t) := by
  unfold Machine.execPresenceLow
  exact KeepsX.onInlet h (fun _ h1 => Keeps.qualify (Keeps.upd h1))

theorem Keeps.execQualifyDone {s t : State} {a0 : Bool} {a1 : BitVec 16} (h : Keeps s t) :
    KeepsX s (Machine.execQualifyDone a0 a1 t) := by
  unfold Machine.execQualifyDone
  exact KeepsX.onInlet h (fun _ h1 => by
    refine Keeps.ite (fun _ => ?_) (fun _ => ?_)
    · exact h1
    · extract_lets +onlyGivenNames -underBinder -merge x2
      extract_lets +onlyGivenNames -underBinder -merge x3
      have h3 : Keeps s x3 := Keeps.upd h1
      try clear_value x3
      extract_lets +onlyGivenNames -underBinder -merge x4
      have h4 : Keeps s x4 := Keeps.wr h3
      try clear_value x4
      extract_lets +onlyGivenNames -underBinder -merge x5
      have h5 : Keeps s x5 := Keeps.forEach h4 (fun _ _ h6 => Keeps.set h6)
      try clear_value x5
      extract_lets +onlyGivenNames -underBinder -merge x8
      have h8 : Keeps s x8 := Keeps.forEach h5 (fun _ _ h9 => Keeps.ite (fun _ => Keeps.wr h9) (fun _ => Keeps.ite (fun _ => Keeps.wr h9) (fun _ => h9)))
      try clear_value x8
      exact Keeps.inlNext h8)

theorem Keeps.inletAbsent {s t : State} (h : Keeps s t) :
    Keeps s (State.inletAbsent t) := by
  unfold State.inletAbsent
  extract_lets +onlyGivenNames -underBinder -merge x1
  have h1 : Keeps s x1 := Keeps.inletOff h
  try clear_value x1
  exact Keeps.forEach h1 (fun _ _ h2 => Keeps.ite (fun _ => h2) (fun _ => Keeps.gateOff h2))

theorem Keeps.execPresenceHigh {s t : State} (h : Keeps s t) :
    KeepsX s (Machine.execPresenceHigh t) := by
  unfold Machine.execPresenceHigh
  exact KeepsX.onInlet h (fun _ h1 => by
    extract_lets +onlyGivenNames -underBinder -merge x2 x3
    have h3 : Keeps s x3 := Keeps.upd h1
    try clear_value x3
    exact Keeps.ite (fun _ => h3) (fun _ => Keeps.inletAbsent h3))

theorem Keeps.execGuardEnChange {s t : State} {a0 a1 : Bool} (h : Keeps s t) :
    KeepsX s (Machine.execGuardEnChange a0 a1 t) := by
  unfold Machine.execGuardEnChange
  exact KeepsX.onInlet h (fun _ h1 => Keeps.inlEnable h1)

theorem Keeps.execStandbyLoss {s t : State} (h : Keeps s t) :
    KeepsX s (Machine.execStandbyLoss t) := by
  unfold Machine.execStandbyLoss
  exact KeepsX.onInlet h (fun _ h1 => by
    extract_lets +onlyGivenNames -underBinder -merge x2
    have h2 : Keeps s x2 := Keeps.inletAbsent h1
    try clear_value x2
    extract_lets +onlyGivenNames -underBinder -merge x3
    have h3 : Keeps s x3 := Keeps.forEach h2 (fun _ _ h4 => Keeps.wr h4)
    try clear_value x3
    exact Keeps.upd h3)

theorem Keeps.inlReset {s t : State} {a1 : Bool} (h : Keeps s t) :
    Keeps s (State.inlReset t a1) := by
  unfold State.inlReset
  extract_lets +onlyGivenNames -underBinder -merge x1 x2 x3 x4
  have h4 : Keeps s x4 := Keeps.forEach h (fun _ _ h5 => Keeps.forEach h5 (fun _ _ h7 => Keeps.wr h7))
  try clear_value x4
  extract_lets +onlyGivenNames -underBinder -merge x9
  have h9 : Keeps s x9 := Keeps.wr h4
  try clear_value x9
  extract_lets +onlyGivenNames -underBinder -merge x10
  have h10 : Keeps s x10 := Keeps.forEach h9 (fun _ _ h11 => Keeps.set h11)
  try clear_value x10
  extract_lets +onlyGivenNames -underBinder -merge x13
  have h13 : Keeps s x13 := Keeps.forEach h10 (fun _ _ h14 => by
      extract_lets +onlyGivenNames -underBinder -merge x16
      have h16 : Keeps s x16 := Keeps.wr (Keeps.wr h14)
      try clear_value x16
      extract_lets +onlyGivenNames -underBinder -merge x17
      have h17 : Keeps s x17 := Keeps.wr h16
      try clear_value x17
      exact Keeps.ite (fun _ => h17) (fun _ => Keeps.wr h17))
  try clear_value x13
  exact Keeps.upd h13

theorem Keeps.execStandbyRise {s t : State} {a0 : BitVec 4} {a1 a2 : Bool} (h : Keeps s t) :
    KeepsX s (Machine.execStandbyRise a0 a1 a2 t) := by
  unfold Machine.execStandbyRise
  exact KeepsX.onInlet h (fun _ h1 => by
    refine Keeps.ite (fun _ => ?_) (fun _ => ?_)
    · exact h1
    · extract_lets +onlyGivenNames -underBinder -merge x2
      have h2 : Keeps s x2 := Keeps.inlReset h1
      try clear_value x2
      extract_lets +onlyGivenNames -underBinder -merge x3 x4
      have h4 : Keeps s x4 := Keeps.upd h2
      try clear_value x4
      exact Keeps.qualify h4)

theorem Keeps.execInletRampStart {s t : State} (h : Keeps s t) :
    KeepsX s (Machine.execInletRampStart t) := by
  unfold Machine.execInletRampStart
  exact KeepsX.onInlet h (fun _ h1 => Keeps.ite (fun _ => Keeps.rampStart h1) (fun _ => h1))

theorem Keeps.execAutoRamp {s t : State} {a0 : Fin 9} (h : Keeps s t) :
    KeepsX s (Machine.execAutoRamp a0 t) := by
  unfold Machine.execAutoRamp
  exact KeepsX.onInlet h (fun _ h1 => Keeps.ite (fun _ => Keeps.rampStart h1) (fun _ => h1))

theorem Keeps.execRampDone {s t : State} {a0 : Fin 9} (h : Keeps s t) :
    KeepsX s (Machine.execRampDone a0 t) := by
  unfold Machine.execRampDone
  exact KeepsX.onInlet h (fun _ h1 => by
    refine Keeps.ite (fun _ => ?_) (fun _ => ?_)
    · exact h1
    · extract_lets +onlyGivenNames -underBinder -merge x2
      have h2 : Keeps s x2 := Keeps.wr h1
      try clear_value x2
      exact Keeps.inlNext (Keeps.when h2 (fun _ h3 => Keeps.set h3)))

theorem Keeps.execRampFault {s t : State} {a0 : Fin 9} (h : Keeps s t) :
    KeepsX s (Machine.execRampFault a0 t) := by
  unfold Machine.execRampFault
  exact KeepsX.onInlet h (fun _ h1 => Keeps.ite (fun _ => Keeps.trip h1) (fun _ => h1))

theorem Keeps.execCurrentLimit {s t : State} {a0 : Fin 9} (h : Keeps s t) :
    KeepsX s (Machine.execCurrentLimit a0 t) := by
  unfold Machine.execCurrentLimit
  exact KeepsX.onInlet h (fun _ h1 => by
    refine Keeps.ite (fun _ => ?_) (fun _ => ?_)
    · exact h1
    · extract_lets +onlyGivenNames -underBinder -merge x2
      extract_lets +onlyGivenNames -underBinder -merge x3
      have h3 : Keeps s x3 := Keeps.upd h1
      try clear_value x3
      extract_lets +onlyGivenNames -underBinder -merge x4
      have h4 : Keeps s x4 := Keeps.wr h3
      try clear_value x4
      exact Keeps.when h4 (fun _ h5 => Keeps.set h5))

theorem Keeps.execLimitExit {s t : State} {a0 : Fin 9} (h : Keeps s t) :
    KeepsX s (Machine.execLimitExit a0 t) := by
  unfold Machine.execLimitExit
  exact KeepsX.onInlet h (fun _ h1 => Keeps.ite (fun _ => Keeps.inlNext (Keeps.wr h1)) (fun _ => h1))

theorem Keeps.execFaultTimeExpire {s t : State} {a0 : Fin 9} (h : Keeps s t) :
    KeepsX s (Machine.execFaultTimeExpire a0 t) := by
  unfold Machine.execFaultTimeExpire
  exact KeepsX.onInlet h (fun _ h1 => Keeps.ite (fun _ => Keeps.trip h1) (fun _ => h1))

theorem Keeps.execFaultTimerClear {s t : State} {a0 : Fin 9} (h : Keeps s t) :
    KeepsX s (Machine.execFaultTimerClear a0 t) := by
  unfold Machine.execFaultTimerClear
  exact KeepsX.onInlet h (fun _ h1 => Keeps.ite (fun _ => Keeps.upd h1) (fun _ => h1))

theorem Keeps.execFastTrip {s t : State} {a0 : Fin 9} (h : Keeps s t) :
    KeepsX s (Machine.execFastTrip a0 t) := by
  unfold Machine.execFastTrip
  exact KeepsX.onInlet h (fun _ h1 => Keeps.trip h1)

theorem Keeps.execFetOvertemp {s t : State} {a0 : Fin 9} (h : Keeps s t) :
    KeepsX s (Machine.execFetOvertemp a0 t) := by
  unfold Machine.execFetOvertemp
  exact KeepsX.onInlet h (fun _ h1 => Keeps.trip h1)

theorem Keeps.execInletDieOvertemp {s t : State} (h : Keeps s t) :
    KeepsX s (Machine.execInletDieOvertemp t) := by
  unfold Machine.execInletDieOvertemp
  exact KeepsX.onInlet h (fun _ h1 => Keeps.inlNext (Keeps.forEach h1 (fun _ _ h2 => Keeps.tripNow h2)))

theorem Keeps.execThermalModelUpdate {s t : State} {a0 a1 a2 a3 : BitVec 16} (h : Keeps s t) :
    KeepsX s (Machine.execThermalModelUpdate a0 a1 a2 a3 t) := by
  unfold Machine.execThermalModelUpdate
  exact KeepsX.onInlet h (fun _ h1 => by
    extract_lets +onlyGivenNames -underBinder -merge x2
    have h2 : Keeps s x2 := Keeps.wr (Keeps.wr h1)
    try clear_value x2
    extract_lets +onlyGivenNames -underBinder -merge x3
    have h3 : Keeps s x3 := Keeps.wr h2
    try clear_value x3
    refine Keeps.ite (fun _ => ?_) (fun _ => ?_)
    · exact h3
    · extract_lets +onlyGivenNames -underBinder -merge x4
      extract_lets +onlyGivenNames -underBinder -merge x5 x6 x7
      split
      · rename_i e8_0
        have h8 : Keeps s _ := Keeps.eq2 e8_0 (by
            split
            · exact Keeps.draw h3
            · exact Keeps.pr2 h3)
        extract_lets +onlyGivenNames -underBinder -merge x9 x10 x11
        have h11 : Keeps s x11 := Keeps.upd h8
        try clear_value x11
        extract_lets +onlyGivenNames -underBinder -merge x12
        have h12 : Keeps s x12 := Keeps.wr h11
        try clear_value x12
        exact Keeps.ite (fun _ => Keeps.trip h12) (fun _ => h12))

theorem Keeps.showMeas {s t : State} {a1 : Nat} (h : Keeps s t) :
    Keeps s (State.showMeas t a1) := by
  unfold State.showMeas
  split
  · rename_i e1_0
    have h1 : Keeps s _ := Keeps.eq2 e1_0 (Keeps.draw h)
    split
    · rename_i e2_0
      have h2 : Keeps s _ := Keeps.eq2 e2_0 (Keeps.draw h1)
      split
      · rename_i e3_0
        have h3 : Keeps s _ := Keeps.eq2 e3_0 (Keeps.draw h2)
        split
        · rename_i e4_0
          have h4 : Keeps s _ := Keeps.eq2 e4_0 (Keeps.draw h3)
          extract_lets +onlyGivenNames -underBinder -merge x5
          have h5 : Keeps s x5 := Keeps.wr (Keeps.wr h4)
          try clear_value x5
          extract_lets +onlyGivenNames -underBinder -merge x6
          have h6 : Keeps s x6 := Keeps.ite (fun _ => Keeps.wr h5) (fun _ => h5)
          try clear_value x6
          exact Keeps.ite (fun _ => Keeps.wr h6) (fun _ => h6)

theorem Keeps.writeInl {s t : State} {a1 : Initiator} {a2 a3 : Nat} {a4 : Bool} (h : Keeps s t) :
    Keeps s (State.writeInl t a1 a2 a3 a4) := by
  unfold State.writeInl
  split
  · extract_lets +onlyGivenNames -underBinder -merge x1
    have h1 : Keeps s x1 := Keeps.wr h
    try clear_value x1
    exact Keeps.ite (fun _ => h1) (fun _ => Keeps.ite (fun _ => Keeps.inlEnable h1) (fun _ => h1))
  · extract_lets +onlyGivenNames -underBinder -merge x2
    have h2 : Keeps s x2 := Keeps.wr h
    try clear_value x2
    extract_lets +onlyGivenNames -underBinder -merge x3
    have h3 : Keeps s x3 := Keeps.wr h2
    try clear_value x3
    exact Keeps.ite (fun _ => Keeps.wr h3) (fun _ => h3)
  · exact Keeps.writeWord h

theorem Keeps.execBankEnWrite {s t : State} {a0 : Initiator} {a1 : Fin 8} {a2 : BitVec 64} {a3 : Bool} (h : Keeps s t) :
    KeepsX s (Machine.execBankEnWrite a0 a1 a2 a3 t) := by
  unfold Machine.execBankEnWrite
  extract_lets +onlyGivenNames -underBinder -merge x1
  exact KeepsX.onDie h (fun _ h2 => Keeps.barWrite h2 (fun _ h3 => Keeps.writeInl h3))

theorem Keeps.execMaprd {s t : State} {a0 : Fin 16} {a1 : BitVec 8} (h : Keeps s t) :
    KeepsX s (Machine.execMaprd a0 a1 t) := by
  unfold Machine.execMaprd
  exact KeepsX.onDie h (fun _ h1 => by
    split
    · exact h1
    · exact Keeps.lookup h1)

theorem Keeps.execMapwr {s t : State} {a0 : BitVec 34} {a1 : BitVec 128} (h : Keeps s t) :
    KeepsX s (Machine.execMapwr a0 a1 t) := by
  unfold Machine.execMapwr
  exact KeepsX.onDie h (fun _ h1 => by
    extract_lets +onlyGivenNames -underBinder -merge x2
    exact Keeps.ite (fun _ => h1) (fun _ => Keeps.arrive h1 (fun _ h3 => by
        extract_lets +onlyGivenNames -underBinder -merge x4 x5
        have h5 : Keeps s x5 := Keeps.unlose (Keeps.setPme h3)
        try clear_value x5
        exact Keeps.when h5 (fun _ h6 => Keeps.upd h6))))

theorem Keeps.execMapline {s t : State} {a0 : Bool} {a1 : BitVec 34} {a2 : Bool} (h : Keeps s t) :
    KeepsX s (Machine.execMapline a0 a1 a2 t) := by
  unfold Machine.execMapline
  exact KeepsX.onDie h (fun _ h1 => by
    extract_lets +onlyGivenNames -underBinder -merge x2 x3 x4
    refine Keeps.ite (fun _ => ?_) (fun _ => ?_)
    · exact h1
    · extract_lets +onlyGivenNames -underBinder -merge x5
      extract_lets +onlyGivenNames -underBinder -merge x6
      have h6 : Keeps s x6 := Keeps.upd h1
      try clear_value x6
      extract_lets +onlyGivenNames -underBinder -merge x7 x8
      have h8 : Keeps s x8 := Keeps.upd h6
      try clear_value x8
      extract_lets +onlyGivenNames -underBinder -merge x9 x10
      have h10 : Keeps s x10 := Keeps.mapFill h8
      try clear_value x10
      extract_lets +onlyGivenNames -underBinder -merge x11 x12 x13 x14
      have h14 : Keeps s x14 := Keeps.ite (fun _ => h10) (fun _ => Keeps.ite (fun _ => Keeps.putTwin h10) (fun _ => Keeps.upd h10))
      try clear_value x14
      extract_lets +onlyGivenNames -underBinder -merge x15
      exact Keeps.serveQueues (Keeps.forEach h14 (fun _ _ h16 => Keeps.ite (fun _ => Keeps.parkReq h16) (fun _ => Keeps.during h16 (fun _ h18 => Keeps.lookupIn h18)))))

theorem Keeps.mapFlushAll {s t : State} (h : Keeps s t) :
    Keeps s (State.mapFlushAll t) := by
  unfold State.mapFlushAll
  exact Keeps.forEach h (fun _ _ h1 => Keeps.mapWriteBack h1)

theorem Keeps.twinChunks {s t : State} {a1 : Nat} (h : Keeps s t) : Keeps s (State.twinChunks t a1) := by
  unfold State.twinChunks
  have hf : ∀ (l : List Nat) (o : Option State), KeepsO s (fun p => p) o →
      KeepsO s (fun p => p) (l.foldl (fun (a : Option State) _ => a.bind (fun s => s.grantNow .twin)) o) := by
    intro l
    induction l with
    | nil => exact fun _ ho => ho
    | cons _ l ih =>
      refine fun o ho => ih _ ?_
      cases o with
      | none => exact KeepsO.none
      | some a => exact Keeps.grantNow (ho a rfl)
  refine Keeps.ite (fun _ => h) (fun _ => ?_)
  extract_lets +onlyGivenNames -underBinder -merge x1
  have h1 : Keeps s x1 := Keeps.forEach h (fun _ _ h2 => Keeps.setChunk h2)
  clear_value x1
  extract_lets +onlyGivenNames -underBinder -merge x4 x5 x6
  have h6 : Keeps s x6 := Keeps.upd h1
  clear_value x6
  split
  · exact h
  · rename_i e7_0
    have h7 := KeepsO.use (hf _ _ (KeepsO.some h6)) e7_0
    exact Keeps.wr (Keeps.upd (Keeps.draw h7))

theorem Keeps.sweepStart {s t : State} (h : Keeps s t) :
    Keeps s (State.sweepStart t) := by
  unfold State.sweepStart
  exact Keeps.ite (fun _ => h) (fun _ => Keeps.set (Keeps.set h))

theorem Keeps.sweepLine {s t : State} (h : Keeps s t) :
    Keeps s (State.sweepLine t) := by
  unfold State.sweepLine
  refine Keeps.ite (fun _ => ?_) (fun _ => ?_)
  · exact h
  · extract_lets +onlyGivenNames -underBinder -merge x1
    extract_lets +onlyGivenNames -underBinder -merge x2 x3
    have h3 : Keeps s x3 := Keeps.mapTouch h
    try clear_value x3
    extract_lets +onlyGivenNames -underBinder -merge x4 x5
    have h5 : Keeps s x5 := Keeps.upd h3
    try clear_value x5
    exact Keeps.forEach h5 (fun _ _ h6 => Keeps.ite (fun _ => Keeps.sendReq (Keeps.putPme h6)) (fun _ => Keeps.putPme h6))

theorem Keeps.sweepSkip {s t : State} {a1 : Nat} (h : Keeps s t) :
    Keeps s (State.sweepSkip t a1) := by
  unfold State.sweepSkip
  exact Keeps.ite (fun _ => Keeps.upd h) (fun _ => h)

theorem Keeps.sweepOver {s t : State} {a0 : List Nat} (h : Keeps s t) : Keeps s (State.sweepOver a0 t) := by
  induction a0 generalizing t with
  | nil => exact h
  | cons _ _ ih =>
    exact Keeps.ite (fun _ => h) (fun _ => Keeps.ite (fun _ => ih h) (fun _ => ih (Keeps.sweepLine (Keeps.sweepSkip h))))

theorem Keeps.sweepEnd {s t : State} (h : Keeps s t) :
    Keeps s (State.sweepEnd t) := by
  unfold State.sweepEnd
  extract_lets +onlyGivenNames -underBinder -merge x1 x2 x3 x4
  have h4 : Keeps s x4 := Keeps.sweepOver h
  try clear_value x4
  refine Keeps.ite (fun _ => ?_) (fun _ => ?_)
  · exact h4
  · extract_lets +onlyGivenNames -underBinder -merge x5
    extract_lets +onlyGivenNames -underBinder -merge x6 x7
    have h7 : Keeps s x7 := Keeps.upd h4
    try clear_value x7
    extract_lets +onlyGivenNames -underBinder -merge x8 x9
    have h9 : Keeps s x9 := Keeps.upd h7
    try clear_value x9
    exact Keeps.clear (Keeps.clear h9)

theorem Keeps.pmeOp {s t : State} {a1 : Nat} (h : Keeps s t) :
    Keeps s (State.pmeOp t a1) := by
  unfold State.pmeOp
  refine Keeps.ite (fun _ => ?_) (fun _ => ?_)
  · exact h
  · extract_lets +onlyGivenNames -underBinder -merge x1
    extract_lets +onlyGivenNames -underBinder -merge x2
    have h2 : Keeps s x2 := Keeps.set h
    try clear_value x2
    refine Keeps.ite (fun _ => ?_) (fun _ => ?_)
    · exact Keeps.wr h2
    · refine Keeps.ite (fun _ => ?_) (fun _ => ?_)
      · exact Keeps.wr (Keeps.noteLost h2)
      · extract_lets +onlyGivenNames -underBinder -merge x3
        have h3 : Keeps s x3 := Keeps.wr h2
        try clear_value x3
        extract_lets +onlyGivenNames -underBinder -merge x4
        split
        · extract_lets +onlyGivenNames -underBinder -merge x5
          have h5 : Keeps s x5 := Keeps.mapTouch h3
          try clear_value x5
          exact Keeps.wr (Keeps.wr h5)
        · exact Keeps.setPme h3
        · exact Keeps.setPme h3
        · exact Keeps.setPme h3
        · exact Keeps.setPme h3

theorem Keeps.writeMap {s t : State} {a1 : Initiator} {a2 a3 : Nat} (h : Keeps s t) :
    Keeps s (State.writeMap t a1 a2 a3) := by
  unfold State.writeMap
  refine Keeps.ite (fun _ => ?_) (fun _ => ?_)
  · extract_lets +onlyGivenNames -underBinder -merge x1
    have h1 : Keeps s x1 := Keeps.writeWord h
    try clear_value x1
    exact Keeps.when h1 (fun _ h2 => Keeps.mapFlushAll h2)
  · refine Keeps.ite (fun _ => ?_) (fun _ => ?_)
    · exact Keeps.wr h
    · refine Keeps.ite (fun _ => ?_) (fun _ => ?_)
      · exact Keeps.when h (fun _ h3 => Keeps.sweepStart h3)
      · refine Keeps.ite (fun _ => ?_) (fun _ => ?_)
        · exact Keeps.pmeOp (Keeps.writeWord h)
        · refine Keeps.ite (fun _ => ?_) (fun _ => ?_)
          · exact Keeps.twinChunks (Keeps.wr h)
          · split
            · exact Keeps.ite (fun _ => h) (fun _ => Keeps.trim (Keeps.poolCheck (Keeps.writeWord h)))
            · exact Keeps.writeWord h

theorem Keeps.execMapFlush {s t : State} {a0 : Initiator} {a1 : BitVec 64} (h : Keeps s t) :
    KeepsX s (Machine.execMapFlush a0 a1 t) := by
  unfold Machine.execMapFlush
  exact KeepsX.onDie h (fun _ h1 => Keeps.barWrite h1 (fun _ h2 => Keeps.writeMap h2))

theorem Keeps.execAgeSweep {s t : State} {a0 : Initiator} {a1 : BitVec 64} (h : Keeps s t) :
    KeepsX s (Machine.execAgeSweep a0 a1 t) := by
  unfold Machine.execAgeSweep
  exact KeepsX.onDie h (fun _ h1 => Keeps.barWrite h1 (fun _ h2 => Keeps.writeMap h2))

theorem Keeps.execAgeSweepDone {s t : State} (h : Keeps s t) :
    KeepsX s (Machine.execAgeSweepDone t) := by
  unfold Machine.execAgeSweepDone
  exact KeepsX.onDie h (fun _ h1 => Keeps.ite (fun _ => Keeps.sweepEnd h1) (fun _ => h1))

theorem Keeps.pmeCmd {s t : State} {a1 : Initiator} {a2 : Nat} {a3 : BitVec 8} (h : Keeps s t) :
    Keeps s (State.pmeCmd t a1 a2 a3) := by
  unfold State.pmeCmd
  exact Keeps.barWrite h (fun _ h1 => Keeps.writeMap h1)

theorem Keeps.execPmeRead {s t : State} {a0 : Initiator} {a1 : BitVec 8} (h : Keeps s t) :
    KeepsX s (Machine.execPmeRead a0 a1 t) := by
  unfold Machine.execPmeRead
  exact KeepsX.onDie h (fun _ h1 => Keeps.pmeCmd h1)

theorem Keeps.execPmeSetPin {s t : State} {a0 : Initiator} {a1 : BitVec 8} (h : Keeps s t) :
    KeepsX s (Machine.execPmeSetPin a0 a1 t) := by
  unfold Machine.execPmeSetPin
  exact KeepsX.onDie h (fun _ h1 => Keeps.pmeCmd h1)

theorem Keeps.execPmeClearPin {s t : State} {a0 : Initiator} {a1 : BitVec 8} (h : Keeps s t) :
    KeepsX s (Machine.execPmeClearPin a0 a1 t) := by
  unfold Machine.execPmeClearPin
  exact KeepsX.onDie h (fun _ h1 => Keeps.pmeCmd h1)

theorem Keeps.execPmeSetPoison {s t : State} {a0 : Initiator} {a1 : BitVec 8} (h : Keeps s t) :
    KeepsX s (Machine.execPmeSetPoison a0 a1 t) := by
  unfold Machine.execPmeSetPoison
  exact KeepsX.onDie h (fun _ h1 => Keeps.pmeCmd h1)

theorem Keeps.execPmeWriteAge {s t : State} {a0 : Initiator} {a1 : BitVec 8} (h : Keeps s t) :
    KeepsX s (Machine.execPmeWriteAge a0 a1 t) := by
  unfold Machine.execPmeWriteAge
  exact KeepsX.onDie h (fun _ h1 => Keeps.pmeCmd h1)

theorem Keeps.execTwinCfgWrite {s t : State} {a0 : Initiator} {a1 : BitVec 64} (h : Keeps s t) :
    KeepsX s (Machine.execTwinCfgWrite a0 a1 t) := by
  unfold Machine.execTwinCfgWrite
  exact KeepsX.onDie h (fun _ h1 => Keeps.barWrite h1 (fun _ h2 => Keeps.writeMap h2))

theorem Keeps.promotionStep {s t : State} {a1 : Nat} (h : Keeps s t) :
    Keeps s (State.promotionStep t a1) := by
  unfold State.promotionStep
  refine Keeps.ite (fun _ => ?_) (fun _ => ?_)
  · exact Keeps.promotionDone h
  · split
    · rename_i e1_0
      have h1 : Keeps s _ := Keeps.eq2 e1_0 (Keeps.tagLine h)
      exact h1
    · rename_i e2_0
      have h2 : Keeps s _ := Keeps.eq2 e2_0 (Keeps.tagLine h)
      exact Keeps.promotionDone h2

theorem Keeps.execPromotionDone {s t : State} {a0 : BitVec 34} (h : Keeps s t) :
    KeepsX s (Machine.execPromotionDone a0 t) := by
  unfold Machine.execPromotionDone
  exact KeepsX.onDie h (fun _ h1 => Keeps.promotionStep h1)

theorem Keeps.execHeldWriteResume {s t : State} (h : Keeps s t) :
    KeepsX s (Machine.execHeldWriteResume t) := by
  unfold Machine.execHeldWriteResume
  exact KeepsX.onDie h (fun _ h1 => Keeps.resumeHeld h1)

theorem Keeps.execHoldExpire {s t : State} {a0 : Fin 16} {a1 : BitVec 8} (h : Keeps s t) :
    KeepsX s (Machine.execHoldExpire a0 a1 t) := by
  unfold Machine.execHoldExpire
  exact KeepsX.onDie h (fun _ h1 => by
    split
    · exact h1
    · refine Keeps.ite (fun _ => ?_) (fun _ => ?_)
      · exact h1
      · split
        · exact Keeps.serveQueues (Keeps.writeWithFrame (Keeps.sub h1))
        · exact Keeps.expireHeld h1)

theorem Keeps.execHallGrantTick {s t : State} (h : Keeps s t) :
    KeepsX s (Machine.execHallGrantTick t) := by
  unfold Machine.execHallGrantTick
  exact KeepsX.onDie h (fun _ h1 => Keeps.forEach h1 (fun _ _ h2 => Keeps.poolRequest h2))

theorem Keeps.execPoolLowTick {s t : State} {a0 : Fin 32} (h : Keeps s t) :
    KeepsX s (Machine.execPoolLowTick a0 t) := by
  unfold Machine.execPoolLowTick
  exact KeepsX.onDie h (fun _ h1 => Keeps.ite (fun _ => Keeps.poolRequest h1) (fun _ => h1))

theorem Keeps.execChunkZeroDone {s t : State} {a0 : BitVec 32} (h : Keeps s t) :
    KeepsX s (Machine.execChunkZeroDone a0 t) := by
  unfold Machine.execChunkZeroDone
  exact KeepsX.onDie h (fun _ h1 => Keeps.zeroDone h1)

theorem Keeps.freeReading {s t : State} (h : Keeps s t) :
    Keeps s (State.freeReading t).2 := by
  unfold State.freeReading
  split
  · rename_i e1_0
    have h1 : Keeps s _ := Keeps.eq2 e1_0 (Keeps.draw h)
    exact Keeps.pr2 h1

theorem Keeps.firePhase {s t : State} {a1 : List (Fin 16 × ChanReading)} {a2 : Nat} (h : Keeps s t) :
    Keeps s (State.firePhase t a1 a2) := by
  unfold State.firePhase
  refine Keeps.ite (fun _ => ?_) (fun _ => ?_)
  · exact h
  · extract_lets +onlyGivenNames -underBinder -merge x1
    have h1 : Keeps s x1 := Keeps.phaseFire h
    try clear_value x1
    split
    · exact Keeps.reading h1
    · split
      · rename_i e2_0
        have h2 : Keeps s _ := Keeps.eq2 e2_0 (Keeps.freeReading h1)
        exact Keeps.reading h2

theorem Keeps.fireBoundary {s t : State} {a1 : Bool} (h : Keeps s t) :
    Keeps s (State.fireBoundary t a1) := by
  unfold State.fireBoundary
  extract_lets +onlyGivenNames -underBinder -merge x1 x2
  have h2 : Keeps s x2 := by
    unfold x2
    split
    · refine Keeps.ite (fun _ => ?_) (fun _ => ?_)
      · extract_lets +onlyGivenNames -underBinder -merge x3
        extract_lets +onlyGivenNames -underBinder -merge x4
        have h4 : Keeps s x4 := Keeps.wr (Keeps.upd h)
        try clear_value x4
        exact Keeps.wr h4
      · exact h
    · exact h
  try clear_value x2
  exact Keeps.ite (fun _ => h2) (fun _ => Keeps.closeWindow h2)

theorem Keeps.calAct {s t : State} {a1 : List (Fin 16 × ChanReading)} {a2 : Nat} {a3 : Bool} (h : Keeps s t) :
    Keeps s (State.calAct t a1 a2 a3) := by
  unfold State.calAct
  extract_lets +onlyGivenNames -underBinder -merge x1
  split
  · exact Keeps.forEach h (fun _ _ h2 => Keeps.firePhase h2)
  · exact Keeps.ite (fun _ => Keeps.set h) (fun _ => h)
  · exact Keeps.ite (fun _ => Keeps.set h) (fun _ => h)
  · extract_lets +onlyGivenNames -underBinder -merge x4
    have h4 : Keeps s x4 := Keeps.ite (fun _ => Keeps.set h) (fun _ => h)
    try clear_value x4
    exact Keeps.forEach h4 (fun _ _ h5 => Keeps.unparkAll h5)
  · exact Keeps.fireBoundary h
  · exact Keeps.snapshot h
  · exact Keeps.smpFlush h
  · exact Keeps.ite (fun _ => Keeps.rampStart h) (fun _ => h)
  · exact h

theorem Keeps.calFire {s t : State} {a1 : List (Fin 16 × ChanReading)} {a2 : Nat} {a3 a4 : Bool} (h : Keeps s t) :
    Keeps s (State.calFire t a1 a2 a3 a4) := by
  unfold State.calFire
  refine Keeps.ite (fun _ => ?_) (fun _ => ?_)
  · exact Keeps.bump h
  · extract_lets +onlyGivenNames -underBinder -merge x1
    extract_lets +onlyGivenNames -underBinder -merge x2
    have h2 : Keeps s x2 := Keeps.upd h
    try clear_value x2
    extract_lets +onlyGivenNames -underBinder -merge x3
    have h3 : Keeps s x3 := Keeps.ite (fun _ => Keeps.clear h2) (fun _ => h2)
    try clear_value x3
    extract_lets +onlyGivenNames -underBinder -merge x4
    have h4 : Keeps s x4 := Keeps.bump h3
    try clear_value x4
    extract_lets +onlyGivenNames -underBinder -merge x5
    have h5 : Keeps s x5 := Keeps.ite (fun _ => Keeps.set (Keeps.set h4)) (fun _ => h4)
    try clear_value x5
    extract_lets +onlyGivenNames -underBinder -merge x6
    have h6 : Keeps s x6 := Keeps.when h5 (fun _ h7 => Keeps.irqPulse h7)
    try clear_value x6
    exact Keeps.calAct (Keeps.counts h6)

theorem Keeps.calFireAll {s t : State} {a1 : List (Fin 16 × ChanReading)} {a2 : List (Nat × Bool)} (h : Keeps s t) :
    Keeps s (State.calFireAll t a1 a2) := by
  unfold State.calFireAll
  exact Keeps.forEach h (fun _ _ h1 => Keeps.calFire h1)

theorem Keeps.countCclks {s t : State} {a1 : Nat} (h : Keeps s t) :
    Keeps s (State.countCclks t a1) := by
  unfold State.countCclks
  extract_lets +onlyGivenNames -underBinder -merge x1
  have h1 : Keeps s x1 := Keeps.forEach h (fun _ _ h2 => Keeps.counts (Keeps.add h2))
  try clear_value x1
  extract_lets +onlyGivenNames -underBinder -merge x4
  have h4 : Keeps s x4 := Keeps.forEach h1 (fun _ _ h5 => by
      extract_lets +onlyGivenNames -underBinder -merge x7 x8
      exact Keeps.counts (Keeps.counts h5))
  try clear_value x4
  extract_lets +onlyGivenNames -underBinder -merge x9
  exact Keeps.forEach h4 (fun _ _ h10 => Keeps.ite (fun _ => Keeps.counts h10) (fun _ => h10))

theorem Keeps.advance {s t : State} {a1 : Nat} (h : Keeps s t) :
    Keeps s (State.advance t a1) := by
  unfold State.advance
  extract_lets +onlyGivenNames -underBinder -merge x1
  have h1 : Keeps s x1 := Keeps.countCclks h
  try clear_value x1
  extract_lets +onlyGivenNames -underBinder -merge x2
  have h2 : Keeps s x2 := Keeps.add h1
  try clear_value x2
  extract_lets +onlyGivenNames -underBinder -merge x3
  have h3 : Keeps s x3 := Keeps.wr h2
  try clear_value x3
  exact Keeps.upd h3

theorem Keeps.background {s t : State} (h : Keeps s t) :
    Keeps s (State.background t) := by
  unfold State.background
  exact Keeps.coresGo (Keeps.smpPump (Keeps.ite (fun _ => Keeps.sweepLine h) (fun _ => h)))

theorem Keeps.tick {s t : State} (h : Keeps s t) :
    Keeps s (State.tick t) := by
  unfold State.tick
  refine Keeps.ite (fun _ => ?_) (fun _ => ?_)
  · split
    · extract_lets +onlyGivenNames -underBinder -merge x1
      have h1 : Keeps s x1 := Keeps.advance h
      try clear_value x1
      exact Keeps.background (Keeps.ite (fun _ => Keeps.calFireAll h1) (fun _ => h1))
  · exact Keeps.ite (fun _ => Keeps.advance h) (fun _ => h)

theorem Keeps.execCalendarFire {s t : State} {a0 : List (Fin 16 × ChanReading)} (h : Keeps s t) :
    KeepsX s (Machine.execCalendarFire a0 t) := by
  unfold Machine.execCalendarFire
  exact KeepsX.onDie h (fun _ h1 => by
    split
    · exact Keeps.ite (fun _ => h1) (fun _ => Keeps.background (Keeps.calFireAll (Keeps.advance h1))))

theorem Keeps.execCalendarWindowClose {s t : State} {a0 : Fin 64} (h : Keeps s t) :
    KeepsX s (Machine.execCalendarWindowClose a0 t) := by
  unfold Machine.execCalendarWindowClose
  exact KeepsX.onDie h (fun _ h1 => Keeps.clear h1)

theorem Keeps.stepMissed {s t : State} {a1 : Nat} {a2 : ℤ} (h : Keeps s t) :
    Keeps s (State.stepMissed t a1 a2) := by
  unfold State.stepMissed
  exact Keeps.forEach h (fun _ _ h1 => Keeps.bump h1)

theorem Keeps.stepBack {s t : State} {a1 : ℤ} (h : Keeps s t) :
    Keeps s (State.stepBack t a1) := by
  unfold State.stepBack
  extract_lets +onlyGivenNames -underBinder -merge x1
  exact Keeps.upd h

theorem Keeps.stepLength {s t : State} (h : Keeps s t) :
    Keeps s (State.stepLength t) := by
  unfold State.stepLength
  split
  · exact Keeps.ite (fun _ => Keeps.fireBoundary h) (fun _ => h)
  · exact h

theorem Keeps.stepTo {s t : State} {a1 : Nat} (h : Keeps s t) :
    Keeps s (State.stepTo t a1) := by
  unfold State.stepTo
  extract_lets +onlyGivenNames -underBinder -merge x1 x2 x3
  have h3 : Keeps s x3 := Keeps.add (Keeps.wr (Keeps.wr h))
  try clear_value x3
  extract_lets +onlyGivenNames -underBinder -merge x4
  have h4 : Keeps s x4 := Keeps.set h3
  try clear_value x4
  extract_lets +onlyGivenNames -underBinder -merge x5
  have h5 : Keeps s x5 := Keeps.ite (fun _ => h4) (fun _ => Keeps.clear h4)
  try clear_value x5
  refine Keeps.ite (fun _ => ?_) (fun _ => ?_)
  · exact Keeps.stepWindow h5
  · extract_lets +onlyGivenNames -underBinder -merge x6
    have h6 : Keeps s x6 := Keeps.stepWindow h5
    try clear_value x6
    extract_lets +onlyGivenNames -underBinder -merge x7 x8
    have h8 : Keeps s x8 := Keeps.stepLength (Keeps.stepBack (Keeps.stepMissed h6))
    try clear_value x8
    exact Keeps.forEach h8 (fun _ _ h9 => Keeps.calFire h9)

theorem Keeps.calOneShot {s t : State} {a1 a2 a3 a4 : Nat} (h : Keeps s t) :
    Keeps s (State.calOneShot t a1 a2 a3 a4) := by
  unfold State.calOneShot
  extract_lets +onlyGivenNames -underBinder -merge x1
  have h1 : Keeps s x1 := Keeps.wr (Keeps.wr h)
  try clear_value x1
  exact Keeps.wr (Keeps.wr h1)

theorem Keeps.newWindow {s t : State} {a1 : Nat} (h : Keeps s t) :
    Keeps s (State.newWindow t a1) := by
  unfold State.newWindow
  extract_lets +onlyGivenNames -underBinder -merge x1
  refine Keeps.ite (fun _ => ?_) (fun _ => ?_)
  · exact Keeps.upd h
  · extract_lets +onlyGivenNames -underBinder -merge x2
    exact Keeps.upd h

theorem Keeps.firstWindow {s t : State} {a1 : Nat} (h : Keeps s t) :
    Keeps s (State.firstWindow t a1) := by
  unfold State.firstWindow
  extract_lets +onlyGivenNames -underBinder -merge x1
  have h1 : Keeps s x1 := Keeps.wr (Keeps.wr h)
  try clear_value x1
  extract_lets +onlyGivenNames -underBinder -merge x2
  have h2 : Keeps s x2 := Keeps.wr (Keeps.wr h1)
  try clear_value x2
  exact Keeps.upd h2

theorem Keeps.writeTim {s t : State} {a1 : Initiator} {a2 a3 : Nat} (h : Keeps s t) :
    Keeps s (State.writeTim t a1 a2 a3) := by
  unfold State.writeTim
  refine Keeps.ite (fun _ => ?_) (fun _ => ?_)
  · exact Keeps.ite (fun _ => Keeps.stepTo h) (fun _ => h)
  · refine Keeps.ite (fun _ => ?_) (fun _ => ?_)
    · exact Keeps.ite (fun _ => Keeps.writeWord h) (fun _ => h)
    · extract_lets +onlyGivenNames -underBinder -merge x1
      have h1 : Keeps s x1 := Keeps.writeWord h
      try clear_value x1
      split
      · extract_lets +onlyGivenNames -underBinder -merge x2
        exact Keeps.ite (fun _ => Keeps.clear h1) (fun _ => h1)
      · exact h1

end Sys2Proof.Machine
end

