-- ==== Sys2Proof/Laws/KeepsTallyToPorts.lean ====
section
/-!
SUPPORT. What the operations and meanings of Tally, KeyProg, Ports keep (Laws/Keeps).
-/

namespace Sys2Proof.Machine

theorem Keeps.acquire {s t : State} (h : Keeps s t) :
    Keeps s (State.acquire t) := by
  unfold State.acquire
  extract_lets +onlyGivenNames -underBinder -merge x1
  have h1 : Keeps s x1 := Keeps.set (Keeps.wr h)
  try clear_value x1
  exact Keeps.clear (Keeps.upd h1)

theorem Keeps.execTallyAcquire {s t : State} {a0 : AcquireCause} (h : Keeps s t) :
    KeepsX s (Machine.execTallyAcquire a0 t) := by
  unfold Machine.execTallyAcquire
  exact KeepsX.onInlet h (fun _ h1 => by
    extract_lets +onlyGivenNames -underBinder -merge x2
    have h2 : Keeps s x2 := by
      unfold x2
      split
      · exact Keeps.upd h1
      · exact Keeps.upd h1
    try clear_value x2
    refine Keeps.ite (fun _ => ?_) (fun _ => ?_)
    · exact h2
    · split
      · exact Keeps.ite (fun _ => Keeps.set (Keeps.acquire h2)) (fun _ => h2)
      · exact Keeps.ite (fun _ => Keeps.acquire h2) (fun _ => h2))

theorem Keeps.execHoldover {s t : State} (h : Keeps s t) :
    KeepsX s (Machine.execHoldover t) := by
  unfold Machine.execHoldover
  exact KeepsX.onInlet h (fun _ h1 => by
    extract_lets +onlyGivenNames -underBinder -merge x2 x3
    have h3 : Keeps s x3 := Keeps.upd h1
    try clear_value x3
    refine Keeps.ite (fun _ => ?_) (fun _ => ?_)
    · extract_lets +onlyGivenNames -underBinder -merge x4
      have h4 : Keeps s x4 := Keeps.clear (Keeps.set (Keeps.wr h3))
      try clear_value x4
      extract_lets +onlyGivenNames -underBinder -merge x5 x6
      have h6 : Keeps s x6 := Keeps.clear (Keeps.upd h4)
      try clear_value x6
      exact Keeps.set (Keeps.bump h6)
    · exact h3)

theorem Keeps.execStSlewDone {s t : State} (h : Keeps s t) :
    KeepsX s (Machine.execStSlewDone t) := by
  unfold Machine.execStSlewDone
  exact KeepsX.onClock h (fun _ h1 => Keeps.ite (fun _ => Keeps.clear (Keeps.clear h1)) (fun _ => h1))

theorem Keeps.loadSt {s t : State} {a1 : Nat} (h : Keeps s t) :
    Keeps s (State.loadSt t a1) := by
  unfold State.loadSt
  extract_lets +onlyGivenNames -underBinder -merge x1
  exact Keeps.ite (fun _ => Keeps.ite (fun _ => Keeps.clear h) (fun _ => Keeps.set (Keeps.set (Keeps.upd h)))) (fun _ => Keeps.stepTo (Keeps.clear h))

theorem Keeps.atMark {s t : State} (h : Keeps s t) :
    Keeps s (State.atMark t).2 := by
  unfold State.atMark
  extract_lets +onlyGivenNames -underBinder -merge x1
  have h1 : Keeps s x1 := by
    unfold x1
    split
    · exact Keeps.retarget (Keeps.wr (Keeps.upd h))
    · exact h
  try clear_value x1
  split
  · exact Keeps.pr2 (Keeps.wr (Keeps.upd h1))
  · exact Keeps.pr2 h1

theorem Keeps.timesDue {s t : State} (h : Keeps s t) :
    Keeps s (State.timesDue t) := by
  unfold State.timesDue
  exact Keeps.forEach h (fun _ _ h1 => Keeps.onLink h1)

theorem Keeps.frameEnd {s t : State} {a1 : TallyFrame} (h : Keeps s t) :
    Keeps s (State.frameEnd t a1) := by
  unfold State.frameEnd
  extract_lets +onlyGivenNames -underBinder -merge x1
  have h1 : Keeps s x1 := Keeps.timesDue (Keeps.counts (Keeps.wr h))
  try clear_value x1
  split
  · rename_i e2_0
    have h2 : Keeps s _ := Keeps.eq2 e2_0 (Keeps.atMark h1)
    extract_lets +onlyGivenNames -underBinder -merge x3
    refine Keeps.ite (fun _ => ?_) (fun _ => ?_)
    · extract_lets +onlyGivenNames -underBinder -merge x4
      extract_lets +onlyGivenNames -underBinder -merge x5 x6
      have h6 : Keeps s x6 := Keeps.upd h2
      try clear_value x6
      refine Keeps.ite (fun _ => ?_) (fun _ => ?_)
      · extract_lets +onlyGivenNames -underBinder -merge x7
        have h7 : Keeps s x7 := Keeps.wr h6
        try clear_value x7
        extract_lets +onlyGivenNames -underBinder -merge x8
        have h8 : Keeps s x8 := Keeps.set (Keeps.loadSt h7)
        try clear_value x8
        exact Keeps.upd h8
      · exact h6
    · refine Keeps.ite (fun _ => ?_) (fun _ => ?_)
      · exact h2
      · refine Keeps.ite (fun _ => ?_) (fun _ => ?_)
        · exact Keeps.upd h2
        · extract_lets +onlyGivenNames -underBinder -merge x9
          extract_lets +onlyGivenNames -underBinder -merge x10 x11
          have h11 : Keeps s x11 := Keeps.ite (fun _ => h2) (fun _ => Keeps.counts (Keeps.bump h2))
          try clear_value x11
          exact Keeps.ite (fun _ => Keeps.loadSt (Keeps.upd h11)) (fun _ => Keeps.upd h11)

theorem Keeps.inletMark {s t : State} {a1 : TallyFrame} (h : Keeps s t) :
    Keeps s (State.inletMark t a1) := by
  unfold State.inletMark
  extract_lets +onlyGivenNames -underBinder -merge x1 x2 x3 x4 x5 x6
  refine Keeps.ite (fun _ => ?_) (fun _ => ?_)
  · extract_lets +onlyGivenNames -underBinder -merge x7
    exact Keeps.upd h
  · exact Keeps.ite (fun _ => Keeps.upd h) (fun _ => Keeps.ite (fun _ => Keeps.upd h) (fun _ => Keeps.upd h))

theorem Keeps.execTallyFrame {s t : State} {a0 : TallyFrame} (h : Keeps s t) :
    KeepsX s (Machine.execTallyFrame a0 t) := by
  unfold Machine.execTallyFrame
  exact KeepsX.onInlet h (fun _ h1 => by
    extract_lets +onlyGivenNames -underBinder -merge x2 x3
    have h3 : Keeps s x3 := Keeps.ite (fun _ => Keeps.upd h1) (fun _ => h1)
    try clear_value x3
    refine Keeps.ite (fun _ => ?_) (fun _ => ?_)
    · extract_lets +onlyGivenNames -underBinder -merge x4
      have h4 : Keeps s x4 := Keeps.when h3 (fun _ h5 => Keeps.emit h5)
      try clear_value x4
      extract_lets +onlyGivenNames -underBinder -merge x6
      have h6 : Keeps s x6 := Keeps.when h4 (fun _ h7 => Keeps.emit h7)
      try clear_value x6
      extract_lets +onlyGivenNames -underBinder -merge x8
      have h8 : Keeps s x8 := Keeps.when h6 (fun _ h9 => Keeps.frameEnd h9)
      try clear_value x8
      exact Keeps.when h8 (fun _ h10 => Keeps.inletMark h10)
    · extract_lets +onlyGivenNames -underBinder -merge x11
      have h11 : Keeps s x11 := Keeps.when h3 (fun _ h12 => Keeps.ite (fun _ => Keeps.acquire h12) (fun _ => Keeps.upd h12))
      try clear_value x11
      exact Keeps.upd h11)

theorem Keeps.refuseCmd {s t : State} (h : Keeps s t) :
    Keeps s (State.refuseCmd t) := by
  unfold State.refuseCmd
  exact Keeps.bump h

theorem Keeps.actCmd {s t : State} {a1 : Nat} {a2 : TallyCmd} (h : Keeps s t) :
    Keeps s (State.actCmd t a1 a2) := by
  unfold State.actCmd
  extract_lets +onlyGivenNames -underBinder -merge x1
  have h1 : Keeps s x1 := Keeps.wr (Keeps.wr h)
  try clear_value x1
  exact Keeps.wr (Keeps.wr h1)

theorem Keeps.command {s t : State} {a1 : Nat} {a2 : TallyCmd} {a3 : State → Option State} (h : Keeps s t)
    (k3 : ∀ y0, Keeps s y0 → KeepsO s (fun p => p) (a3 y0)) :
    Keeps s (State.command t a1 a2 a3) := by
  unfold State.command
  refine Keeps.ite (fun _ => ?_) (fun _ => ?_)
  · exact h
  · refine Keeps.ite (fun _ => ?_) (fun _ => ?_)
    · exact Keeps.bump h
    · refine Keeps.ite (fun _ => ?_) (fun _ => ?_)
      · exact h
      · split
        · rename_i e1_0
          have h1 := KeepsO.use (k3 _ h) e1_0
          exact Keeps.actCmd h1
        · exact Keeps.refuseCmd h

theorem Keeps.execNop {s t : State} {a0 : TallyCmd} (h : Keeps s t) :
    KeepsX s (Machine.execNop a0 t) := by
  unfold Machine.execNop
  exact KeepsX.onClock h (fun _ h1 => Keeps.command h1 (fun _ h2 => KeepsO.some h2))

theorem Keeps.grantBank {s t : State} {a1 : TallyCmd} (h : Keeps s t) :
    KeepsO s (fun p => p) (State.grantBank t a1) := by
  unfold State.grantBank
  extract_lets +onlyGivenNames -underBinder -merge x1
  exact KeepsO.ite (fun _ => KeepsO.none) (fun _ => KeepsO.some (Keeps.wr (Keeps.calOneShot h)))

theorem Keeps.execInrushGrant {s t : State} {a0 : TallyCmd} (h : Keeps s t) :
    KeepsX s (Machine.execInrushGrant a0 t) := by
  unfold Machine.execInrushGrant
  exact KeepsX.onInlet h (fun _ h1 => by
    extract_lets +onlyGivenNames -underBinder -merge x2 x3
    exact Keeps.ite (fun _ => Keeps.wr (Keeps.upd h1)) (fun _ => Keeps.command h1 (fun _ h4 => Keeps.grantBank h4)))

theorem Keeps.execFloorCap {s t : State} {a0 : TallyCmd} (h : Keeps s t) :
    KeepsX s (Machine.execFloorCap a0 t) := by
  unfold Machine.execFloorCap
  exact KeepsX.onClock h (fun _ h1 => Keeps.command h1 (fun _ h2 => by
    extract_lets +onlyGivenNames -underBinder -merge x3
    exact KeepsO.ite (fun _ => KeepsO.none) (fun _ => KeepsO.some (Keeps.upd h2))))

theorem Keeps.execSnapshot {s t : State} {a0 : TallyCmd} (h : Keeps s t) :
    KeepsX s (Machine.execSnapshot a0 t) := by
  unfold Machine.execSnapshot
  exact KeepsX.onClock h (fun _ h1 => Keeps.command h1 (fun _ h2 => by
    extract_lets +onlyGivenNames -underBinder -merge x3
    have h3 : Keeps s x3 := Keeps.ite (fun _ => Keeps.bump h2) (fun _ => h2)
    try clear_value x3
    exact KeepsO.some (Keeps.calOneShot h3)))

theorem Keeps.execWindow {s t : State} {a0 : TallyCmd} (h : Keeps s t) :
    KeepsX s (Machine.execWindow a0 t) := by
  unfold Machine.execWindow
  exact KeepsX.onClock h (fun _ h1 => Keeps.command h1 (fun _ h2 => by
    extract_lets +onlyGivenNames -underBinder -merge x3
    exact KeepsO.ite (fun _ => KeepsO.none) (fun _ => KeepsO.some (Keeps.newWindow h2))))

theorem Keeps.execDelay {s t : State} {a0 : TallyCmd} (h : Keeps s t) :
    KeepsX s (Machine.execDelay a0 t) := by
  unfold Machine.execDelay
  exact KeepsX.onClock h (fun _ h1 => Keeps.command h1 (fun _ h2 => KeepsO.some (Keeps.upd h2)))

theorem Keeps.execTallyRefusedOpcode {s t : State} {a0 : BitVec 4} {a1 : TallyCmd} (h : Keeps s t) :
    KeepsX s (Machine.execTallyRefusedOpcode a0 a1 t) := by
  unfold Machine.execTallyRefusedOpcode
  exact KeepsX.onClock h (fun _ h1 => Keeps.ite (fun _ => h1) (fun _ => Keeps.command h1 (fun _ h2 => KeepsO.none)))

theorem Keeps.execTimStLoad {s t : State} {a0 : Initiator} {a1 : BitVec 64} (h : Keeps s t) :
    KeepsX s (Machine.execTimStLoad a0 a1 t) := by
  unfold Machine.execTimStLoad
  extract_lets +onlyGivenNames -underBinder -merge x1
  exact KeepsX.onDie h (fun _ h2 => Keeps.barWrite h2 (fun _ h3 => Keeps.writeTim h3))

theorem Keeps.loadSlot {s t : State} {a1 : Nat} {a2 : KeyMat} (h : Keeps s t) :
    Keeps s (State.loadSlot t a1 a2) := by
  unfold State.loadSlot
  extract_lets +onlyGivenNames -underBinder -merge x1 x2
  have h2 : Keeps s x2 := Keeps.setKeySlot h
  try clear_value x2
  exact Keeps.wr (Keeps.wr h2)

theorem Keeps.retireSlot {s t : State} {a1 : Nat} {a2 : KeyMat} (h : Keeps s t) :
    Keeps s (State.retireSlot t a1 a2) := by
  unfold State.retireSlot
  extract_lets +onlyGivenNames -underBinder -merge x1 x2
  have h2 : Keeps s x2 := Keeps.setKeySlot h
  try clear_value x2
  extract_lets +onlyGivenNames -underBinder -merge x3
  have h3 : Keeps s x3 := Keeps.wr (Keeps.wr h2)
  try clear_value x3
  exact Keeps.clear (Keeps.clear (Keeps.clear h3))

theorem Keeps.eraseSlot {s t : State} {a1 : Nat} (h : Keeps s t) :
    Keeps s (State.eraseSlot t a1) := by
  unfold State.eraseSlot
  exact Keeps.setKeySlot h

theorem Keeps.keyAct {s t : State} {a1 a2 : Nat} {a3 : KeyMat} (h : Keeps s t) :
    Keeps s (State.keyAct t a1 a2 a3) := by
  unfold State.keyAct
  exact Keeps.ite (fun _ => Keeps.loadSlot h) (fun _ => Keeps.ite (fun _ => Keeps.retireSlot h) (fun _ => Keeps.eraseSlot h))

theorem Keeps.keyRun {s t : State} {a1 : Initiator} {a2 a3 : Nat} {a4 : Bytes} (h : Keeps s t) :
    Keeps s (State.keyRun t a1 a2 a3 a4) := by
  unfold State.keyRun
  extract_lets +onlyGivenNames -underBinder -merge x1 x2 x3
  have h3 : Keeps s x3 := Keeps.ite (fun _ => Keeps.keyAct h) (fun _ => Keeps.bump h)
  try clear_value x3
  extract_lets +onlyGivenNames -underBinder -merge x4
  have h4 : Keeps s x4 := Keeps.set (Keeps.wr (Keeps.wr h3))
  try clear_value x4
  exact Keeps.emit h4

theorem Keeps.keyErased {s t : State} {a1 : Nat} (h : Keeps s t) :
    Keeps s (State.keyErased t a1) := by
  unfold State.keyErased
  exact Keeps.wr (Keeps.setKeySlot h)

theorem Keeps.regionCfg {s t : State} {a1 : Initiator} {a2 a3 : Nat} (h : Keeps s t) :
    Keeps s (State.regionCfg t a1 a2 a3) := by
  unfold State.regionCfg
  refine Keeps.ite (fun _ => ?_) (fun _ => ?_)
  · exact h
  · extract_lets +onlyGivenNames -underBinder -merge x1
    extract_lets +onlyGivenNames -underBinder -merge x2
    exact Keeps.ite (fun _ => Keeps.bump h) (fun _ => Keeps.writeWord h)

theorem Keeps.writeKey {s t : State} {a1 : Initiator} {a2 a3 : Nat} (h : Keeps s t) :
    Keeps s (State.writeKey t a1 a2 a3) := by
  unfold State.writeKey
  split
  · exact Keeps.regionCfg h
  · split
    · exact Keeps.ite (fun _ => h) (fun _ => Keeps.writeWord h)
    · exact Keeps.writeWord h

theorem Keeps.execRegionEnable {s t : State} {a0 : Initiator} {a1 : Fin 1024} {a2 : BitVec 64} (h : Keeps s t) :
    KeepsX s (Machine.execRegionEnable a0 a1 a2 t) := by
  unfold Machine.execRegionEnable
  extract_lets +onlyGivenNames -underBinder -merge x1
  exact KeepsX.onDie h (fun _ h2 => Keeps.barWrite h2 (fun _ h3 => Keeps.writeKey h3))

theorem Keeps.unhold {s t : State} {a1 : Nat} (h : Keeps s t) :
    Keeps s (State.unhold t a1) := by
  unfold State.unhold
  extract_lets +onlyGivenNames -underBinder -merge x1 x2
  have h2 : Keeps s x2 := Keeps.onLd h
  try clear_value x2
  extract_lets +onlyGivenNames -underBinder -merge x3
  have h3 : Keeps s x3 := Keeps.forEach h2 (fun _ _ h4 => Keeps.biAnswer h4)
  try clear_value x3
  extract_lets +onlyGivenNames -underBinder -merge x6
  have h6 : Keeps s x6 := Keeps.forEach h3 (fun _ _ h7 => Keeps.setDir h7)
  try clear_value x6
  exact Keeps.forEach h6 (fun _ _ h9 => by
      extract_lets +onlyGivenNames -underBinder -merge x11
      exact Keeps.pfPurge h9)

theorem Keeps.linkUp {s t : State} {a1 a2 a3 : Nat} {a4 : Bool} (h : Keeps s t) :
    Keeps s (State.linkUp t a1 a2 a3 a4) := by
  unfold State.linkUp
  extract_lets +onlyGivenNames -underBinder -merge x1
  refine Keeps.ite (fun _ => ?_) (fun _ => ?_)
  · exact h
  · extract_lets +onlyGivenNames -underBinder -merge x2
    extract_lets +onlyGivenNames -underBinder -merge x3 x4
    have h4 : Keeps s x4 := Keeps.upd h
    try clear_value x4
    extract_lets +onlyGivenNames -underBinder -merge x5
    have h5 : Keeps s x5 := Keeps.wr (Keeps.set h4)
    try clear_value x5
    extract_lets +onlyGivenNames -underBinder -merge x6
    have h6 : Keeps s x6 := Keeps.wr (Keeps.wr h5)
    try clear_value x6
    extract_lets +onlyGivenNames -underBinder -merge x7
    have h7 : Keeps s x7 := Keeps.wr h6
    try clear_value x7
    extract_lets +onlyGivenNames -underBinder -merge x8
    have h8 : Keeps s x8 := Keeps.forEach h7 (fun _ _ h9 => Keeps.wr h9)
    try clear_value x8
    extract_lets +onlyGivenNames -underBinder -merge x11
    have h11 : Keeps s x11 := Keeps.when h8 (fun _ h12 => Keeps.forEach h12 (fun _ _ h13 => Keeps.unhold h13))
    try clear_value x11
    exact Keeps.showTols h11

theorem Keeps.abandon {s t : State} {a1 : Nat → Bool} (h : Keeps s t) :
    Keeps s (State.abandon t a1) := by
  unfold State.abandon
  exact Keeps.upd h

theorem Keeps.linkDown {s t : State} {a1 : Nat} (h : Keeps s t) :
    Keeps s (State.linkDown t a1) := by
  unfold State.linkDown
  refine Keeps.ite (fun _ => ?_) (fun _ => ?_)
  · exact h
  · extract_lets +onlyGivenNames -underBinder -merge x1
    have h1 : Keeps s x1 := Keeps.set (Keeps.clear h)
    try clear_value x1
    extract_lets +onlyGivenNames -underBinder -merge x2
    have h2 : Keeps s x2 := Keeps.clear (Keeps.clear h1)
    try clear_value x2
    extract_lets +onlyGivenNames -underBinder -merge x3
    have h3 : Keeps s x3 := Keeps.clear (Keeps.clear h2)
    try clear_value x3
    extract_lets +onlyGivenNames -underBinder -merge x4
    have h4 : Keeps s x4 := Keeps.clear (Keeps.clear h3)
    try clear_value x4
    extract_lets +onlyGivenNames -underBinder -merge x5
    have h5 : Keeps s x5 := Keeps.forEach h4 (fun _ _ h6 => Keeps.unstall h6)
    try clear_value x5
    extract_lets +onlyGivenNames -underBinder -merge x8
    have h8 : Keeps s x8 := Keeps.forEach h5 (fun _ _ h9 => Keeps.clear h9)
    try clear_value x8
    extract_lets +onlyGivenNames -underBinder -merge x11
    have h11 : Keeps s x11 := Keeps.abandon h8
    try clear_value x11
    exact Keeps.showTols (Keeps.upd h11)

theorem Keeps.execPortLinkDown {s t : State} {a0 : Fin 16} (h : Keeps s t) :
    KeepsX s (Machine.execPortLinkDown a0 t) := by
  unfold Machine.execPortLinkDown
  exact KeepsX.onDie h (fun _ h1 => Keeps.linkDown h1)

theorem Keeps.execM2sMemrd {s t : State} {a0 : Fin 64} {a1 : BitVec 16} {a2 : BitVec 64} {a3 : SnpType} {a4 : MetaVal} (h : Keeps s t) :
    KeepsX s (Machine.execM2sMemrd a0 a1 a2 a3 a4 t) := by
  unfold Machine.execM2sMemrd
  exact KeepsX.onDie h (fun _ h1 => Keeps.m2sIn h1)

theorem Keeps.execM2sMemrddata {s t : State} {a0 : Fin 64} {a1 : BitVec 16} {a2 : BitVec 64} (h : Keeps s t) :
    KeepsX s (Machine.execM2sMemrddata a0 a1 a2 t) := by
  unfold Machine.execM2sMemrddata
  exact KeepsX.onDie h (fun _ h1 => Keeps.m2sIn h1)

theorem Keeps.execM2sMeminv {s t : State} {a0 : Fin 64} {a1 : BitVec 16} {a2 : BitVec 64} {a3 : SnpType} {a4 : MetaVal} (h : Keeps s t) :
    KeepsX s (Machine.execM2sMeminv a0 a1 a2 a3 a4 t) := by
  unfold Machine.execM2sMeminv
  exact KeepsX.onDie h (fun _ h1 => Keeps.m2sIn h1)

theorem Keeps.execM2sMemwr {s t : State} {a0 : Fin 64} {a1 : BitVec 16} {a2 : BitVec 64} {a3 : MetaVal} {a4 : BitVec 512} {a5 : Bool} (h : Keeps s t) :
    KeepsX s (Machine.execM2sMemwr a0 a1 a2 a3 a4 a5 t) := by
  unfold Machine.execM2sMemwr
  exact KeepsX.onDie h (fun _ h1 => Keeps.m2sIn h1)

theorem Keeps.execM2sMemwrptl {s t : State} {a0 : Fin 64} {a1 : BitVec 16} {a2 : BitVec 64} {a3 : MetaVal} {a4 : BitVec 512} {a5 : BitVec 64} {a6 : Bool} (h : Keeps s t) :
    KeepsX s (Machine.execM2sMemwrptl a0 a1 a2 a3 a4 a5 a6 t) := by
  unfold Machine.execM2sMemwrptl
  exact KeepsX.onDie h (fun _ h1 => Keeps.m2sIn h1)

theorem Keeps.execM2sMemclnevct {s t : State} {a0 : Fin 64} {a1 : BitVec 16} {a2 : BitVec 64} {a3 : MetaVal} (h : Keeps s t) :
    KeepsX s (Machine.execM2sMemclnevct a0 a1 a2 a3 t) := by
  unfold Machine.execM2sMemclnevct
  exact KeepsX.onDie h (fun _ h1 => Keeps.m2sIn h1)

theorem Keeps.execM2sMemspecrd {s t : State} {a0 : Fin 64} {a1 : BitVec 64} (h : Keeps s t) :
    KeepsX s (Machine.execM2sMemspecrd a0 a1 t) := by
  unfold Machine.execM2sMemspecrd
  exact KeepsX.onDie h (fun _ h1 => by
    split
    · exact h1
    · exact Keeps.ite (fun _ => Keeps.postRead h1) (fun _ => h1))

theorem Keeps.execM2sOther {s t : State} {a0 : Fin 64} {a1 : BitVec 4} (h : Keeps s t) :
    KeepsX s (Machine.execM2sOther a0 a1 t) := by
  unfold Machine.execM2sOther
  exact KeepsX.onDie h (fun _ h1 => by
    split
    · exact h1
    · exact Keeps.ite (fun _ => Keeps.portProto h1) (fun _ => h1))

theorem Keeps.biRsp {s t : State} {a1 a2 a3 : Nat} {a4 : BiAns} (h : Keeps s t) :
    Keeps s (State.biRsp t a1 a2 a3 a4) := by
  unfold State.biRsp
  extract_lets +onlyGivenNames -underBinder -merge x1
  split
  · exact Keeps.portProto h
  · extract_lets +onlyGivenNames -underBinder -merge x2
    have h2 : Keeps s x2 := Keeps.onLd h
    try clear_value x2
    split
    · exact Keeps.biAnswer h2
    · exact Keeps.biAnswer (Keeps.portProto h2)

theorem Keeps.execBirsp {s t : State} {a0 : Fin 64} {a1 : BitVec 4} {a2 : BitVec 40} {a3 : BiAns} (h : Keeps s t) :
    KeepsX s (Machine.execBirsp a0 a1 a2 a3 t) := by
  unfold Machine.execBirsp
  exact KeepsX.onDie h (fun _ h1 => Keeps.ite (fun _ => Keeps.biRsp h1) (fun _ => h1))

theorem Keeps.execBiconflict {s t : State} {a0 : Fin 64} {a1 : BitVec 4} {a2 : BitVec 40} (h : Keeps s t) :
    KeepsX s (Machine.execBiconflict a0 a1 a2 t) := by
  unfold Machine.execBiconflict
  exact KeepsX.onDie h (fun _ h1 => Keeps.ite (fun _ => Keeps.onLd h1) (fun _ => Keeps.emit h1))

theorem Keeps.dcAdd {s t : State} {a1 : Initiator} {a2 a3 a4 : Nat} (h : Keeps s t) :
    Keeps s (State.dcAdd t a1 a2 a3 a4) := by
  unfold State.dcAdd
  split
  · extract_lets +onlyGivenNames -underBinder -merge x1
    refine Keeps.ite (fun _ => ?_) (fun _ => ?_)
    · exact Keeps.emit h
    · refine Keeps.ite (fun _ => ?_) (fun _ => ?_)
      · exact Keeps.emit h
      · extract_lets +onlyGivenNames -underBinder -merge x2
        have h2 : Keeps s x2 := Keeps.onLd h
        try clear_value x2
        exact Keeps.emit (Keeps.event h2)
  · exact Keeps.emit h

theorem Keeps.execDcAddExtent {s t : State} {a0 : Initiator} {a1 : Fin 64} {a2 a3 : BitVec 64} (h : Keeps s t) :
    KeepsX s (Machine.execDcAddExtent a0 a1 a2 a3 t) := by
  unfold Machine.execDcAddExtent
  exact KeepsX.onDie h (fun _ h1 => Keeps.dcAdd h1)

theorem Keeps.dcRelease {s t : State} {a1 : Initiator} {a2 a3 a4 : Nat} (h : Keeps s t) :
    Keeps s (State.dcRelease t a1 a2 a3 a4) := by
  unfold State.dcRelease
  split
  · extract_lets +onlyGivenNames -underBinder -merge x1
    extract_lets +onlyGivenNames -underBinder -merge x2 x3
    exact Keeps.ite (fun _ => Keeps.emit h) (fun _ => Keeps.ite (fun _ => Keeps.emit h) (fun _ => Keeps.ite (fun _ => Keeps.emit h) (fun _ => Keeps.onLd h)))
  · exact Keeps.emit h

theorem Keeps.execDcReleaseExtent {s t : State} {a0 : Initiator} {a1 : Fin 64} {a2 a3 : BitVec 64} (h : Keeps s t) :
    KeepsX s (Machine.execDcReleaseExtent a0 a1 a2 a3 t) := by
  unfold Machine.execDcReleaseExtent
  exact KeepsX.onDie h (fun _ h1 => Keeps.dcRelease h1)

theorem Keeps.dcDone {s t : State} {a1 : Nat} (h : Keeps s t) :
    Keeps s (State.dcDone t a1) := by
  unfold State.dcDone
  split
  · extract_lets +onlyGivenNames -underBinder -merge x1
    refine Keeps.ite (fun _ => ?_) (fun _ => ?_)
    · exact h
    · extract_lets +onlyGivenNames -underBinder -merge x2
      have h2 : Keeps s x2 := Keeps.forEach h (fun _ _ h3 => Keeps.zeroUnit h3)
      try clear_value x2
      extract_lets +onlyGivenNames -underBinder -merge x5
      have h5 : Keeps s x5 := Keeps.onLd h2
      try clear_value x5
      extract_lets +onlyGivenNames -underBinder -merge x6
      have h6 : Keeps s x6 := Keeps.event h5
      try clear_value x6
      split
      · exact Keeps.emit h6
      · exact h6
  · exact h

theorem Keeps.execDcReleaseDone {s t : State} {a0 : Fin 64} (h : Keeps s t) :
    KeepsX s (Machine.execDcReleaseDone a0 t) := by
  unfold Machine.execDcReleaseDone
  exact KeepsX.onDie h (fun _ h1 => Keeps.dcDone h1)

theorem Keeps.flrLd {s t : State} {a1 : Fin 64} (h : Keeps s t) :
    Keeps s (State.flrLd t a1) := by
  unfold State.flrLd
  extract_lets +onlyGivenNames -underBinder -merge x1
  have h1 : Keeps s x1 := Keeps.abandon (Keeps.onLd h)
  try clear_value x1
  extract_lets +onlyGivenNames -underBinder -merge x2
  have h2 : Keeps s x2 := Keeps.forEach h1 (fun _ _ h3 => Keeps.endStall h3)
  try clear_value x2
  exact Keeps.showTols (Keeps.wrBit h2)

theorem Keeps.purgeLd {s t : State} {a1 : Nat} (h : Keeps s t) :
    Keeps s (State.purgeLd t a1) := by
  unfold State.purgeLd
  extract_lets +onlyGivenNames -underBinder -merge x1 x2 x3 x4 x5
  have h5 : Keeps s x5 := Keeps.forEach h (fun _ _ h6 => Keeps.homePurge h6)
  try clear_value x5
  exact Keeps.forEach h5 (fun _ _ h8 => Keeps.pfPurge h8)

theorem Keeps.execIdeKm {s t : State} {a0 : Fin 16} {a1 : Initiator} {a2 : IdeKm} (h : Keeps s t) :
    KeepsX s (Machine.execIdeKm a0 a1 a2 t) := by
  unfold Machine.execIdeKm
  exact KeepsX.onDie h (fun _ h1 => by
    refine Keeps.ite (fun _ => ?_) (fun _ => ?_)
    · extract_lets +onlyGivenNames -underBinder -merge x2
      have h2 : Keeps s x2 := Keeps.upd h1
      try clear_value x2
      exact Keeps.ite (fun _ => Keeps.set (Keeps.upd h2)) (fun _ => h2)
    · exact h1)

theorem Keeps.execIdeIntegrityFail {s t : State} {a0 : Fin 16} (h : Keeps s t) :
    KeepsX s (Machine.execIdeIntegrityFail a0 t) := by
  unfold Machine.execIdeIntegrityFail
  exact KeepsX.onDie h (fun _ h1 => Keeps.ite (fun _ => Keeps.record (Keeps.clear (Keeps.upd h1))) (fun _ => h1))

theorem Keeps.laneDown {s t : State} {a1 a2 : Nat} (h : Keeps s t) :
    Keeps s (State.laneDown t a1 a2) := by
  unfold State.laneDown
  exact Keeps.linkDown (Keeps.upd h)

theorem Keeps.laneFailed {s t : State} {a1 a2 : Nat} (h : Keeps s t) :
    Keeps s (State.laneFailed t a1 a2) := by
  unfold State.laneFailed
  extract_lets +onlyGivenNames -underBinder -merge x1
  refine Keeps.ite (fun _ => ?_) (fun _ => ?_)
  · exact h
  · extract_lets +onlyGivenNames -underBinder -merge x2
    have h2 : Keeps s x2 := Keeps.set (Keeps.bump h)
    try clear_value x2
    exact Keeps.ite (fun _ => h2) (fun _ => Keeps.ite (fun _ => Keeps.upd h2) (fun _ => Keeps.ite (fun _ => Keeps.laneDown h2) (fun _ => Keeps.upd h2)))

theorem Keeps.execLaneFail {s t : State} {a0 : Fin 16} {a1 : BitVec 4} (h : Keeps s t) :
    KeepsX s (Machine.execLaneFail a0 a1 t) := by
  unfold Machine.execLaneFail
  exact KeepsX.onDie h (fun _ h1 => Keeps.laneFailed h1)

theorem Keeps.turnLanes {s t : State} {a1 : Nat} (h : Keeps s t) :
    Keeps s (State.turnLanes t a1) := by
  unfold State.turnLanes
  extract_lets +onlyGivenNames -underBinder -merge x1
  exact Keeps.upd h

theorem Keeps.execLaneRecoveryDone {s t : State} {a0 : Fin 16} (h : Keeps s t) :
    KeepsX s (Machine.execLaneRecoveryDone a0 t) := by
  unfold Machine.execLaneRecoveryDone
  exact KeepsX.onDie h (fun _ h1 => by
    split
    · exact h1
    · extract_lets +onlyGivenNames -underBinder -merge x2
      extract_lets +onlyGivenNames -underBinder -merge x3
      have h3 : Keeps s x3 := Keeps.upd h1
      try clear_value x3
      extract_lets +onlyGivenNames -underBinder -merge x4
      have h4 : Keeps s x4 := Keeps.upd h3
      try clear_value x4
      extract_lets +onlyGivenNames -underBinder -merge x5
      have h5 : Keeps s x5 := Keeps.when h4 (fun _ h6 => Keeps.turnLanes h6)
      try clear_value x5
      extract_lets +onlyGivenNames -underBinder -merge x7
      have h7 : Keeps s x7 := Keeps.set (Keeps.wr h5)
      try clear_value x7
      extract_lets +onlyGivenNames -underBinder -merge x8
      have h8 : Keeps s x8 := Keeps.bump (Keeps.wr h7)
      try clear_value x8
      exact Keeps.record h8)

theorem Keeps.ltr {s t : State} {a1 : Nat} {a2 : Option (BitVec 4)} {a3 a4 : Nat} (h : Keeps s t) :
    Keeps s (State.ltr t a1 a2 a3 a4) := by
  unfold State.ltr
  extract_lets +onlyGivenNames -underBinder -merge x1
  have h1 : Keeps s x1 := Keeps.wr (Keeps.wr h)
  try clear_value x1
  extract_lets +onlyGivenNames -underBinder -merge x2 x3 x4
  have h4 : Keeps s x4 := Keeps.forEach h1 (fun _ _ h5 => Keeps.onLd h5)
  try clear_value x4
  exact Keeps.showTols (Keeps.set h4)

theorem Keeps.execLtrReceived {s t : State} {a0 : Fin 16} {a1 : Option (BitVec 4)} {a2 a3 : BitVec 16} (h : Keeps s t) :
    KeepsX s (Machine.execLtrReceived a0 a1 a2 a3 t) := by
  unfold Machine.execLtrReceived
  exact KeepsX.onDie h (fun _ h1 => Keeps.ite (fun _ => Keeps.ltr h1) (fun _ => h1))

theorem Keeps.writePrt {s t : State} {a1 : Initiator} {a2 a3 : Nat} (h : Keeps s t) :
    Keeps s (State.writePrt t a1 a2 a3) := by
  unfold State.writePrt
  split
  · exact Keeps.wr h
  · extract_lets +onlyGivenNames -underBinder -merge x1
    have h1 : Keeps s x1 := Keeps.writeWord h
    try clear_value x1
    exact Keeps.showTols (Keeps.when h1 (fun _ h2 => Keeps.set h2))
  · exact Keeps.writeWord h

theorem Keeps.execPrtLdOvrWrite {s t : State} {a0 : Initiator} {a1 a2 : Fin 16} {a3 : BitVec 64} (h : Keeps s t) :
    KeepsX s (Machine.execPrtLdOvrWrite a0 a1 a2 a3 t) := by
  unfold Machine.execPrtLdOvrWrite
  extract_lets +onlyGivenNames -underBinder -merge x1
  exact KeepsX.onDie h (fun _ h2 => Keeps.barWrite h2 (fun _ h3 => Keeps.writePrt h3))

theorem Keeps.execQportStallExpire {s t : State} {a0 : Fin 1024} {a1 : QPort} {a2 : BitVec 16} (h : Keeps s t) :
    KeepsX s (Machine.execQportStallExpire a0 a1 a2 t) := by
  unfold Machine.execQportStallExpire
  exact KeepsX.onDie h (fun _ h1 => by
    split
    · exact h1
    · exact Keeps.endStall h1)

theorem Keeps.execClearEventRecords {s t : State} {a0 : Fin 64} {a1 : Fin 5} {a2 : Option (List (BitVec 16))} (h : Keeps s t) :
    KeepsX s (Machine.execClearEventRecords a0 a1 a2 t) := by
  unfold Machine.execClearEventRecords
  exact KeepsX.onDie h (fun _ h1 => by
    extract_lets +onlyGivenNames -underBinder -merge x2
    exact Keeps.emit (Keeps.onLd h1))

end Sys2Proof.Machine
end

