-- ==== Sys2Proof/Laws/KeepsBootToLoad.lean ====
section
/-!
SUPPORT. What the operations and meanings of Boot, Noc, Load keep (Laws/Keeps).
-/

namespace Sys2Proof.Machine

theorem Keeps.clearWarm {s t : State} (h : Keeps s t) :
    Keeps s (State.clearWarm t) := by
  unfold State.clearWarm
  extract_lets +onlyGivenNames -underBinder -merge x1 x2 x3
  exact Keeps.upd h

theorem Keeps.clearCold {s t : State} (h : Keeps s t) :
    Keeps s (State.clearCold t) := by
  unfold State.clearCold
  extract_lets +onlyGivenNames -underBinder -merge x1
  have h1 : Keeps s x1 := Keeps.clearWarm h
  try clear_value x1
  exact Keeps.upd h1

theorem Keeps.enterLc {s t : State} {a1 : Nat} (h : Keeps s t) :
    Keeps s (State.enterLc t a1) := by
  unfold State.enterLc
  extract_lets +onlyGivenNames -underBinder -merge x1 x2
  have h2 : Keeps s x2 := Keeps.upd h
  try clear_value x2
  extract_lets +onlyGivenNames -underBinder -merge x3
  have h3 : Keeps s x3 := Keeps.ite (fun _ => Keeps.clear (Keeps.clear h2)) (fun _ => h)
  try clear_value x3
  extract_lets +onlyGivenNames -underBinder -merge x4 x5
  have h5 : Keeps s x5 := Keeps.wr (Keeps.wr h3)
  try clear_value x5
  exact Keeps.clear (Keeps.wr (Keeps.upd h5))

theorem Keeps.readCal {s t : State} (h : Keeps s t) :
    Keeps s (State.readCal t) := by
  unfold State.readCal
  extract_lets +onlyGivenNames -underBinder -merge x1
  have h1 : Keeps s x1 := Keeps.forEach h (fun _ _ h2 => by
      split
      · exact Keeps.wrBit (Keeps.wrBit h2)
      · exact Keeps.record (Keeps.wrBit (Keeps.wrBit h2)))
  try clear_value x1
  extract_lets +onlyGivenNames -underBinder -merge x4 x5
  have h5 : Keeps s x5 := Keeps.wr (Keeps.wr h1)
  try clear_value x5
  split
  · exact Keeps.forEach h5 (fun _ _ h6 => Keeps.wr (Keeps.wr h6))
  · exact Keeps.forEach h5 (fun _ _ h8 => Keeps.wr (Keeps.wr h8))

theorem Keeps.newNonce {s t : State} (h : Keeps s t) :
    Keeps s (State.newNonce t) := by
  unfold State.newNonce
  exact Keeps.forEach h (fun _ _ h1 => by
    split
    · rename_i e3_0
      have h3 : Keeps s _ := Keeps.eq2 e3_0 (Keeps.draw h1)
      exact Keeps.wr h3)

theorem Keeps.fillSlot0 {s t : State} (h : Keeps s t) :
    Keeps s (State.fillSlot0 t) := by
  unfold State.fillSlot0
  split
  · rename_i e1_0
    have h1 : Keeps s _ := Keeps.eq2 e1_0 (Keeps.draw h)
    split
    · rename_i e2_0
      have h2 : Keeps s _ := Keeps.eq2 e2_0 (Keeps.draw h1)
      split
      · rename_i e3_0
        have h3 : Keeps s _ := Keeps.eq2 e3_0 (Keeps.draw h2)
        extract_lets +onlyGivenNames -underBinder -merge x4
        have h4 : Keeps s x4 := Keeps.setKeySlot h3
        try clear_value x4
        exact Keeps.set (Keeps.wr (Keeps.clear h4))

theorem Keeps.applyLds {s t : State} (h : Keeps s t) :
    Keeps s (State.applyLds t) := by
  unfold State.applyLds
  exact Keeps.forEach h (fun _ _ h1 => by
    extract_lets +onlyGivenNames -underBinder -merge x3 x4
    have h4 : Keeps s x4 := Keeps.wr h1
    try clear_value x4
    exact Keeps.forEach h4 (fun _ _ h5 => Keeps.wr h5))

theorem Keeps.applyPorts {s t : State} (h : Keeps s t) :
    Keeps s (State.applyPorts t) := by
  unfold State.applyPorts
  exact Keeps.applyLds (Keeps.forEach h (fun _ _ h1 => by
    extract_lets +onlyGivenNames -underBinder -merge x3
    try clear_value x3
    split
    · exact h1
    · extract_lets +onlyGivenNames -underBinder -merge x4
      extract_lets +onlyGivenNames -underBinder -merge x5
      have h5 : Keeps s x5 := Keeps.wr (Keeps.wr (Keeps.set h1))
      try clear_value x5
      exact Keeps.wr (Keeps.wr h5)))

theorem Keeps.applyChans {s t : State} (h : Keeps s t) :
    Keeps s (State.applyChans t) := by
  unfold State.applyChans
  exact Keeps.forEach h (fun _ _ h1 => by
    extract_lets +onlyGivenNames -underBinder -merge x3 x4
    have h4 : Keeps s x4 := Keeps.wr h1
    try clear_value x4
    refine Keeps.ite (fun _ => ?_) (fun _ => ?_)
    · exact h4
    · extract_lets +onlyGivenNames -underBinder -merge x5
      have h5 : Keeps s x5 := Keeps.wr (Keeps.wr (Keeps.wr h4))
      try clear_value x5
      extract_lets +onlyGivenNames -underBinder -merge x6
      have h6 : Keeps s x6 := Keeps.wr (Keeps.wr h5)
      try clear_value x6
      exact Keeps.forEach h6 (fun _ _ h7 => Keeps.wr (Keeps.wr h7)))

theorem Keeps.applySpan {s t : State} (h : Keeps s t) :
    Keeps s (State.applySpan t) := by
  unfold State.applySpan
  extract_lets +onlyGivenNames -underBinder -merge x1
  have h1 : Keeps s x1 := Keeps.forEach h (fun _ _ h2 => by
      extract_lets +onlyGivenNames -underBinder -merge x4
      try clear_value x4
      extract_lets +onlyGivenNames -underBinder -merge x5 x6
      have h6 : Keeps s x6 := Keeps.wr h2
      try clear_value x6
      extract_lets +onlyGivenNames -underBinder -merge x7
      have h7 : Keeps s x7 := by
        unfold x7
        split
        · exact h6
        · exact Keeps.wr (Keeps.wr h6)
      try clear_value x7
      exact Keeps.forEach h7 (fun _ _ h8 => Keeps.wr h8))
  try clear_value x1
  extract_lets +onlyGivenNames -underBinder -merge x10
  exact Keeps.forEach h1 (fun _ _ h11 => Keeps.wr h11)

theorem Keeps.applyRoutes {s t : State} {a1 : Field} (h : Keeps s t) :
    Keeps s (State.applyRoutes t a1) := by
  unfold State.applyRoutes
  exact Keeps.forEach h (fun _ _ h1 => Keeps.forEach h1 (fun _ _ h3 => Keeps.wr h3))

theorem Keeps.applyTsc {s t : State} {a1 : List Nat} (h : Keeps s t) :
    Keeps s (State.applyTsc t a1) := by
  unfold State.applyTsc
  extract_lets +onlyGivenNames -underBinder -merge x1 x2
  have h2 : Keeps s x2 := Keeps.forEach h (fun _ _ h3 => Keeps.wr (Keeps.wr (Keeps.wr h3)))
  try clear_value x2
  exact Keeps.forEach h2 (fun _ _ h5 => Keeps.wr (Keeps.wr (Keeps.wr h5)))

theorem Keeps.applyCntd {s t : State} {a1 : List (Nat × Nat)} (h : Keeps s t) :
    Keeps s (State.applyCntd t a1) := by
  unfold State.applyCntd
  extract_lets +onlyGivenNames -underBinder -merge x1
  have h1 : Keeps s x1 := Keeps.forEach h (fun _ _ h2 => by
      extract_lets +onlyGivenNames -underBinder -merge x4
      have h4 : Keeps s x4 := Keeps.clear (Keeps.clear h2)
      try clear_value x4
      extract_lets +onlyGivenNames -underBinder -merge x5
      have h5 : Keeps s x5 := Keeps.clear (Keeps.clear (Keeps.clear h4))
      try clear_value x5
      exact Keeps.clear (Keeps.clear h5))
  try clear_value x1
  exact Keeps.forEach h1 (fun _ _ h6 => by
      extract_lets +onlyGivenNames -underBinder -merge x8
      have h8 : Keeps s x8 := Keeps.wr (Keeps.wr h6)
      try clear_value x8
      extract_lets +onlyGivenNames -underBinder -merge x9
      have h9 : Keeps s x9 := Keeps.wr (Keeps.wr (Keeps.clear h8))
      try clear_value x9
      exact Keeps.loadSampling (Keeps.clear (Keeps.wr h9)))

theorem Keeps.slotCheck {s t : State} (h : Keeps s t) :
    Keeps s (State.slotCheck t) := by
  unfold State.slotCheck
  exact Keeps.ite (fun _ => h) (fun _ => Keeps.record (Keeps.set (Keeps.set h)))

theorem Keeps.applyStructure {s t : State} {a1 : Sections} (h : Keeps s t) :
    Keeps s (State.applyStructure t a1) := by
  unfold State.applyStructure
  extract_lets +onlyGivenNames -underBinder -merge x1 x2
  have h2 : Keeps s x2 := Keeps.upd h
  try clear_value x2
  extract_lets +onlyGivenNames -underBinder -merge x3
  have h3 : Keeps s x3 := Keeps.applyRoutes (Keeps.applyRoutes (Keeps.showPaths (Keeps.applySpan (Keeps.applyChans (Keeps.applyPorts h2)))))
  try clear_value x3
  extract_lets +onlyGivenNames -underBinder -merge x4
  have h4 : Keeps s x4 := Keeps.wr h3
  try clear_value x4
  extract_lets +onlyGivenNames -underBinder -merge x5
  have h5 : Keeps s x5 := Keeps.forEach h4 (fun _ _ h6 => Keeps.wr h6)
  try clear_value x5
  extract_lets +onlyGivenNames -underBinder -merge x8
  have h8 : Keeps s x8 := Keeps.effective (Keeps.loadForce (Keeps.firstWindow (Keeps.applyTsc h5)))
  try clear_value x8
  exact Keeps.showTols (Keeps.slotCheck (Keeps.inlLimits (Keeps.applyCntd h8)))

theorem Keeps.mapReady {s t : State} (h : Keeps s t) :
    Keeps s (State.mapReady t) := by
  unfold State.mapReady
  extract_lets +onlyGivenNames -underBinder -merge x1
  have h1 : Keeps s x1 := Keeps.clear (Keeps.set h)
  try clear_value x1
  exact Keeps.set (Keeps.wr (Keeps.wr h1))

theorem Keeps.dropStructure {s t : State} (h : Keeps s t) :
    Keeps s (State.dropStructure t) := by
  unfold State.dropStructure
  extract_lets +onlyGivenNames -underBinder -merge x1
  have h1 : Keeps s x1 := Keeps.forEach h (fun _ _ h2 => Keeps.ite (fun _ => Keeps.linkDown h2) (fun _ => h2))
  try clear_value x1
  exact Keeps.upd h1

theorem Keeps.recover {s t : State} (h : Keeps s t) :
    Keeps s (State.recover t) := by
  unfold State.recover
  extract_lets +onlyGivenNames -underBinder -merge x1
  have h1 : Keeps s x1 := Keeps.dropStructure h
  try clear_value x1
  exact Keeps.mapReady (Keeps.clear (Keeps.set (Keeps.applyStructure h1)))

theorem Keeps.showResult {s t : State} {a1 : ImgResult} {a2 : Bool} (h : Keeps s t) :
    Keeps s (State.showResult t a1 a2) := by
  unfold State.showResult
  extract_lets +onlyGivenNames -underBinder -merge x1
  have h1 : Keeps s x1 := Keeps.wr (Keeps.wr h)
  try clear_value x1
  exact Keeps.wr (Keeps.wr h1)

theorem Keeps.showImage {s t : State} {a1 : Bytes} {a2 : Nat} (h : Keeps s t) :
    Keeps s (State.showImage t a1 a2) := by
  unfold State.showImage
  extract_lets +onlyGivenNames -underBinder -merge x1
  have h1 : Keeps s x1 := Keeps.wr (Keeps.wr h)
  try clear_value x1
  exact Keeps.forEach h1 (fun _ _ h2 => Keeps.wr h2)

theorem Keeps.bootStructure {s t : State} (h : Keeps s t) :
    Keeps s (State.bootStructure t) := by
  unfold State.bootStructure
  extract_lets +onlyGivenNames -underBinder -merge x1 x2 x3 x4
  have h4 : Keeps s x4 := Keeps.wr (Keeps.wr h)
  try clear_value x4
  refine Keeps.ite (fun _ => ?_) (fun _ => ?_)
  · exact Keeps.recover h4
  · extract_lets +onlyGivenNames -underBinder -merge x5
    split
    · extract_lets +onlyGivenNames -underBinder -merge x6
      have h6 : Keeps s x6 := Keeps.wr (Keeps.showResult h4)
      try clear_value x6
      exact Keeps.applyStructure (Keeps.showImage h6)
    · exact Keeps.recover (Keeps.showResult h4)

theorem Keeps.showCc {s t : State} (h : Keeps s t) :
    Keeps s (State.showCc t) := by
  unfold State.showCc
  exact Keeps.wr h

theorem Keeps.fwStart {s t : State} {a1 : Bool} (h : Keeps s t) :
    Keeps s (State.fwStart t a1) := by
  unfold State.fwStart
  extract_lets +onlyGivenNames -underBinder -merge x1 x2 x3
  have h3 : Keeps s x3 := Keeps.wr (Keeps.upd h)
  try clear_value x3
  extract_lets +onlyGivenNames -underBinder -merge x4
  have h4 : Keeps s x4 := Keeps.clear (Keeps.wr (Keeps.wr h3))
  try clear_value x4
  exact Keeps.showCc (Keeps.clear (Keeps.wr (Keeps.wr h4)))

theorem Keeps.monitor {s t : State} (h : Keeps s t) :
    Keeps s (State.monitor t) := by
  unfold State.monitor
  extract_lets +onlyGivenNames -underBinder -merge x1
  exact Keeps.showCc (Keeps.set (Keeps.wr (Keeps.upd h)))

theorem Keeps.bootFirmware {s t : State} (h : Keeps s t) :
    Keeps s (State.bootFirmware t) := by
  unfold State.bootFirmware
  extract_lets +onlyGivenNames -underBinder -merge x1 x2 x3
  have h3 : Keeps s x3 := Keeps.wr (Keeps.wr h)
  try clear_value x3
  extract_lets +onlyGivenNames -underBinder -merge x4 x5
  have h5 : Keeps s x5 := Keeps.ite (fun _ => Keeps.monitor h3) (fun _ => Keeps.ite (fun _ => Keeps.fwStart h3) (fun _ => Keeps.ite (fun _ => Keeps.fwStart h3) (fun _ => Keeps.monitor h3)))
  try clear_value x5
  exact Keeps.set h5

theorem Keeps.cutWrites {s t : State} (h : Keeps s t) :
    Keeps s (State.cutWrites t) := by
  unfold State.cutWrites
  split
  · exact h
  · exact Keeps.ite (fun _ => h) (fun _ => Keeps.ite (fun _ => Keeps.upd h) (fun _ => Keeps.upd h))

theorem Keeps.bootWords {s t : State} (h : Keeps s t) :
    Keeps s (State.bootWords t) := by
  unfold State.bootWords
  extract_lets +onlyGivenNames -underBinder -merge x1
  have h1 : Keeps s x1 := by
    unfold x1
    split
    · exact Keeps.enterLc h
    · exact h
  try clear_value x1
  exact Keeps.fillSlot0 (Keeps.newNonce (Keeps.readCal h1))

theorem Keeps.boot {s t : State} (h : Keeps s t) :
    Keeps s (State.boot t) := by
  unfold State.boot
  exact Keeps.bootFirmware (Keeps.bootStructure (Keeps.upd h))

theorem Keeps.warmReset {s t : State} {a1 a2 : Nat} (h : Keeps s t) :
    Keeps s (State.warmReset t a1 a2) := by
  unfold State.warmReset
  extract_lets +onlyGivenNames -underBinder -merge x1
  have h1 : Keeps s x1 := Keeps.wr (Keeps.wr h)
  try clear_value x1
  extract_lets +onlyGivenNames -underBinder -merge x2
  have h2 : Keeps s x2 := Keeps.record h1
  try clear_value x2
  exact Keeps.boot (Keeps.bootWords (Keeps.clearWarm (Keeps.cutWrites h2)))

theorem Keeps.execSupplyLoss {s t : State} (h : Keeps s t) :
    KeepsX s (Machine.execSupplyLoss t) := by
  unfold Machine.execSupplyLoss
  exact KeepsX.onInlet h (fun _ h1 => by
    extract_lets +onlyGivenNames -underBinder -merge x2
    have h2 : Keeps s x2 := Keeps.clearCold (Keeps.cutWrites h1)
    try clear_value x2
    exact Keeps.upd h2)

theorem Keeps.execColdResetRelease {s t : State} (h : Keeps s t) :
    KeepsX s (Machine.execColdResetRelease t) := by
  unfold Machine.execColdResetRelease
  exact KeepsX.onInlet h (fun _ h1 => by
    refine Keeps.ite (fun _ => ?_) (fun _ => ?_)
    · exact h1
    · extract_lets +onlyGivenNames -underBinder -merge x2
      have h2 : Keeps s x2 := Keeps.clearCold h1
      try clear_value x2
      exact Keeps.bootWords (Keeps.upd h2))

theorem Keeps.execSelfTestDone {s t : State} {a0 : Option BadRow} (h : Keeps s t) :
    KeepsX s (Machine.execSelfTestDone a0 t) := by
  unfold Machine.execSelfTestDone
  exact KeepsX.onInlet h (fun _ h1 => by
    refine Keeps.ite (fun _ => ?_) (fun _ => ?_)
    · exact h1
    · split
      · exact Keeps.boot h1
      · exact Keeps.boot (Keeps.record (Keeps.set h1)))

theorem Keeps.execPerstLFall {s t : State} {a0 : Fin 8} (h : Keeps s t) :
    KeepsX s (Machine.execPerstLFall a0 t) := by
  unfold Machine.execPerstLFall
  exact KeepsX.onInlet h (fun _ h1 => by
    refine Keeps.ite (fun _ => ?_) (fun _ => ?_)
    · exact h1
    · extract_lets +onlyGivenNames -underBinder -merge x2
      have h2 : Keeps s x2 := Keeps.upd h1
      try clear_value x2
      exact Keeps.ite (fun _ => Keeps.warmReset h2) (fun _ => h2))

theorem Keeps.execPerstLRise {s t : State} {a0 : Fin 8} (h : Keeps s t) :
    KeepsX s (Machine.execPerstLRise a0 t) := by
  unfold Machine.execPerstLRise
  exact KeepsX.onInlet h (fun _ h1 => Keeps.upd h1)

theorem Keeps.genRst {s t : State} {a1 : Nat} (h : Keeps s t) :
    Keeps s (State.genRst t a1) := by
  unfold State.genRst
  exact Keeps.ite (fun _ => Keeps.warmReset h) (fun _ => h)

theorem Keeps.execGenRst {s t : State} {a0 : Initiator} {a1 : BitVec 32} (h : Keeps s t) :
    KeepsX s (Machine.execGenRst a0 a1 t) := by
  unfold Machine.execGenRst
  exact KeepsX.onDie h (fun _ h1 => Keeps.barWrite h1 (fun _ h2 => Keeps.genRst h2))

theorem Keeps.execThermalShutdown {s t : State} (h : Keeps s t) :
    KeepsX s (Machine.execThermalShutdown t) := by
  unfold Machine.execThermalShutdown
  exact KeepsX.onClock h (fun _ h1 => by
    extract_lets +onlyGivenNames -underBinder -merge x2
    have h2 : Keeps s x2 := Keeps.set (Keeps.selfRefresh h1)
    try clear_value x2
    exact Keeps.upd h2)

theorem Keeps.mapInit {s t : State} (h : Keeps s t) : Keeps s (State.mapInit t) := by
  unfold State.mapInit
  extract_lets +onlyGivenNames -underBinder -merge x1 x2
  clear_value x2
  split
  · exact Keeps.recover (Keeps.record h)
  · extract_lets +onlyGivenNames -underBinder -merge x3
    have h3 : Keeps s x3 := ⟨h.1, fun _ => Memory.wf_nil⟩
    clear_value x3
    extract_lets +onlyGivenNames -underBinder -merge x4
    have h4 : Keeps s x4 := Keeps.forEach h3 (fun _ _ h => Keeps.wr (Keeps.wr (Keeps.set (Keeps.wr (Keeps.wr h)))))
    exact Keeps.retarget (Keeps.mapReady h4)

theorem Keeps.execMapInitDone {s t : State} (h : Keeps s t) :
    KeepsX s (Machine.execMapInitDone t) := by
  unfold Machine.execMapInitDone
  exact KeepsX.onDie h (fun _ h1 => Keeps.ite (fun _ => h1) (fun _ => Keeps.mapInit h1))

theorem Keeps.linkFails {s t : State} {a1 a2 : Nat} (h : Keeps s t) :
    Keeps s (State.linkFails t a1 a2) := by
  unfold State.linkFails
  refine Keeps.ite (fun _ => ?_) (fun _ => ?_)
  · exact h
  · extract_lets +onlyGivenNames -underBinder -merge x1
    have h1 : Keeps s x1 := Keeps.wrBit h
    try clear_value x1
    extract_lets +onlyGivenNames -underBinder -merge x2
    have h2 : Keeps s x2 := Keeps.wrBit h1
    try clear_value x2
    exact Keeps.record (Keeps.set h2)

theorem Keeps.execNocLinkFail {s t : State} {a0 : Fin 32} {a1 : Fin 4} (h : Keeps s t) :
    KeepsX s (Machine.execNocLinkFail a0 a1 t) := by
  unfold Machine.execNocLinkFail
  exact KeepsX.onDie h (fun _ h1 => Keeps.linkFails h1)

theorem Keeps.datUe {s t : State} {a1 : Flight} (h : Keeps s t) :
    Keeps s (State.datUe t a1) := by
  unfold State.datUe
  extract_lets +onlyGivenNames -underBinder -merge x1 x2 x3
  have h3 : Keeps s x3 := Keeps.set (Keeps.bump h)
  try clear_value x3
  extract_lets +onlyGivenNames -underBinder -merge x4 x5 x6
  have h6 : Keeps s x6 := Keeps.upd h3
  try clear_value x6
  exact Keeps.record h6

theorem Keeps.replayFlit {s t : State} {a1 a2 : Nat} {a3 : Option Pkt} (h : Keeps s t) :
    Keeps s (State.replayFlit t a1 a2 a3) := by
  unfold State.replayFlit
  refine Keeps.ite (fun _ => ?_) (fun _ => ?_)
  · exact h
  · extract_lets +onlyGivenNames -underBinder -merge x1
    have h1 : Keeps s x1 := Keeps.counts (Keeps.bump (Keeps.bump h))
    try clear_value x1
    split
    · exact h1
    · extract_lets +onlyGivenNames -underBinder -merge x2
      have h2 : Keeps s x2 := Keeps.setPkt h1
      try clear_value x2
      exact Keeps.ite (fun _ => Keeps.linkFails h2) (fun _ => h2)

theorem Keeps.execNack {s t : State} {a0 : Fin 32} {a1 : Fin 4} {a2 : NocMsg} {a3 : FlitError} (h : Keeps s t) :
    KeepsX s (Machine.execNack a0 a1 a2 a3 t) := by
  unfold Machine.execNack
  exact KeepsX.onDie h (fun _ h1 => by
    extract_lets +onlyGivenNames -underBinder -merge x2 x3 x4
    refine Keeps.ite (fun _ => ?_) (fun _ => ?_)
    · exact h1
    · split
      · exact h1
      · exact Keeps.replayFlit h1
      · exact Keeps.bump h1
      · exact Keeps.ite (fun _ => Keeps.replayFlit h1) (fun _ => Keeps.datUe (Keeps.ite (fun _ => h1) (fun _ => Keeps.bump h1))))

theorem Keeps.execDetour {s t : State} {a0 : TorusLink} {a1 : NocMsg} (h : Keeps s t) :
    KeepsX s (Machine.execDetour a0 a1 t) := by
  unfold Machine.execDetour
  exact KeepsX.onDie h (fun _ h1 => by
    split
    · exact h1
    · exact Keeps.ite (fun _ => Keeps.travel (Keeps.setPkt h1)) (fun _ => h1))

theorem Keeps.sinkBad {s t : State} {a1 : Nat} {a2 : BitVec 64} {a3 : Flight} (h : Keeps s t) :
    Keeps s (State.sinkBad t a1 a2 a3) := by
  unfold State.sinkBad
  exact Keeps.ite (fun _ => Keeps.sunk (Keeps.unsend h)) (fun _ => h)

theorem Keeps.execMisrouteSink {s t : State} {a0 : Fin 32} {a1 : BitVec 64} {a2 : Bool} {a3 : NocMsg} (h : Keeps s t) :
    KeepsX s (Machine.execMisrouteSink a0 a1 a2 a3 t) := by
  unfold Machine.execMisrouteSink
  exact KeepsX.onDie h (fun _ h1 => by
    extract_lets +onlyGivenNames -underBinder -merge x2
    refine Keeps.ite (fun _ => ?_) (fun _ => ?_)
    · exact Keeps.sinkBad h1
    · split
      · exact h1
      · exact Keeps.sink h1)

theorem Keeps.lookupLost {s t : State} {a1 : Flight} (h : Keeps s t) :
    Keeps s (State.lookupLost t a1) := by
  unfold State.lookupLost
  extract_lets +onlyGivenNames -underBinder -merge x1 x2
  split
  · exact h
  · extract_lets +onlyGivenNames -underBinder -merge x3
    have h3 : Keeps s x3 := Keeps.failEvent h
    try clear_value x3
    extract_lets +onlyGivenNames -underBinder -merge x4
    have h4 : Keeps s x4 := Keeps.dropReq h3
    try clear_value x4
    extract_lets +onlyGivenNames -underBinder -merge x5
    exact Keeps.upd h4

theorem Keeps.internalLost {s t : State} {a1 : Flight} (h : Keeps s t) :
    Keeps s (State.internalLost t a1) := by
  unfold State.internalLost
  extract_lets +onlyGivenNames -underBinder -merge x1 x2
  have h2 : Keeps s x2 := Keeps.record h
  try clear_value x2
  exact Keeps.ite (fun _ => Keeps.emit h2) (fun _ => Keeps.ite (fun _ => Keeps.lookupLost h2) (fun _ => h2))

theorem Keeps.requestLost {s t : State} {a1 : Flight} (h : Keeps s t) :
    Keeps s (State.requestLost t a1) := by
  unfold State.requestLost
  extract_lets +onlyGivenNames -underBinder -merge x1 x2 x3
  have h3 : Keeps s x3 := Keeps.record h
  try clear_value x3
  extract_lets +onlyGivenNames -underBinder -merge x4
  have h4 : Keeps s x4 := Keeps.failEvent h3
  try clear_value x4
  extract_lets +onlyGivenNames -underBinder -merge x5
  have h5 : Keeps s x5 := by
    unfold x5
    refine Keeps.ite (fun _ => ?_) (fun _ => ?_)
    · split
      · exact Keeps.unspend (Keeps.unsend h4)
      · exact Keeps.unspend h4
    · exact h4
  try clear_value x5
  exact Keeps.send h5

theorem Keeps.again {s t : State} {a1 : Flight} (h : Keeps s t) :
    Keeps s (State.again t a1) := by
  unfold State.again
  extract_lets +onlyGivenNames -underBinder -merge x1 x2
  have h2 : Keeps s x2 := Keeps.upd h
  try clear_value x2
  exact Keeps.ite (fun _ => Keeps.send h2) (fun _ => Keeps.inject h2)

theorem Keeps.errActs {s t : State} {a1 : Flight} (h : Keeps s t) :
    Keeps s (State.errActs t a1) := by
  unfold State.errActs
  extract_lets +onlyGivenNames -underBinder -merge x1 x2
  have h2 : Keeps s x2 := Keeps.upd h
  try clear_value x2
  refine Keeps.ite (fun _ => ?_) (fun _ => ?_)
  · exact Keeps.fatalAll h2
  · refine Keeps.ite (fun _ => ?_) (fun _ => ?_)
    · exact Keeps.again h2
    · extract_lets +onlyGivenNames -underBinder -merge x3
      extract_lets +onlyGivenNames -underBinder -merge x4
      have h4 : Keeps s x4 := Keeps.upd h2
      try clear_value x4
      exact Keeps.ite (fun _ => Keeps.requestLost h4) (fun _ => Keeps.internalLost h4)

theorem Keeps.execErr {s t : State} {a0 : NocMsg} (h : Keeps s t) :
    KeepsX s (Machine.execErr a0 t) := by
  unfold Machine.execErr
  exact KeepsX.onDie h (fun _ h1 => by
    extract_lets +onlyGivenNames -underBinder -merge x2
    refine Keeps.ite (fun _ => ?_) (fun _ => ?_)
    · exact h1
    · split
      · exact Keeps.errActs h1
      · split
        · rename_i e3_0
          have h3 : Keeps s _ := Keeps.eq2 e3_0 (Keeps.bring h1)
          exact Keeps.ite (fun _ => Keeps.errActs (Keeps.dropPkt h3)) (fun _ => h3))

theorem Keeps.flip {s t : State} (h : Keeps s t) :
    Keeps s (State.flip t) := by
  unfold State.flip
  refine Keeps.ite (fun _ => ?_) (fun _ => ?_)
  · exact h
  · extract_lets +onlyGivenNames -underBinder -merge x1
    refine Keeps.ite (fun _ => ?_) (fun _ => ?_)
    · exact Keeps.set h
    · extract_lets +onlyGivenNames -underBinder -merge x2
      have h2 : Keeps s x2 := Keeps.forEach h (fun _ _ h3 => by
          extract_lets +onlyGivenNames -underBinder -merge x5 x6
          exact Keeps.wr (Keeps.wr h3))
      try clear_value x2
      exact Keeps.wr (Keeps.wr (Keeps.clear h2))

theorem Keeps.applyLinks {s t : State} (h : Keeps s t) :
    Keeps s (State.applyLinks t) := by
  unfold State.applyLinks
  extract_lets +onlyGivenNames -underBinder -merge x1 x2 x3
  have h3 : Keeps s x3 := Keeps.forEach h (fun _ _ h4 => Keeps.wr h4)
  try clear_value x3
  extract_lets +onlyGivenNames -underBinder -merge x6 x7
  have h7 : Keeps s x7 := Keeps.upd h3
  try clear_value x7
  exact Keeps.forEach h7 (fun _ _ h8 => Keeps.ite (fun _ => h8) (fun _ => Keeps.linkFails h8))

theorem Keeps.epochApply {s t : State} (h : Keeps s t) :
    Keeps s (State.epochApply t) := by
  unfold State.epochApply
  exact Keeps.wr (Keeps.set (Keeps.applyLinks h))

theorem Keeps.domAgain {s t : State} {a1 : Nat} (h : Keeps s t) :
    Keeps s (State.domAgain t a1) := by
  unfold State.domAgain
  exact Keeps.ite (fun _ => Keeps.agRetry h) (fun _ => h)

theorem Keeps.writeNoc {s t : State} {a1 : Initiator} {a2 a3 : Nat} (h : Keeps s t) :
    Keeps s (State.writeNoc t a1 a2 a3) := by
  unfold State.writeNoc
  refine Keeps.ite (fun _ => ?_) (fun _ => ?_)
  · extract_lets +onlyGivenNames -underBinder -merge x1
    have h1 : Keeps s x1 := Keeps.when h (fun _ h2 => Keeps.flip h2)
    try clear_value x1
    exact Keeps.when h1 (fun _ h3 => Keeps.epochApply h3)
  · refine Keeps.ite (fun _ => ?_) (fun _ => ?_)
    · exact Keeps.wr h
    · split
      · extract_lets +onlyGivenNames -underBinder -merge x4
        extract_lets +onlyGivenNames -underBinder -merge x5
        have h5 : Keeps s x5 := Keeps.writeWord h
        try clear_value x5
        exact Keeps.ite (fun _ => Keeps.ite (fun _ => h5) (fun _ => Keeps.fence h5)) (fun _ => Keeps.domAgain (Keeps.endDrain h5))
      · exact Keeps.writeWord h

theorem Keeps.execEpochFlip {s t : State} {a0 : Initiator} {a1 : BitVec 64} (h : Keeps s t) :
    KeepsX s (Machine.execEpochFlip a0 a1 t) := by
  unfold Machine.execEpochFlip
  exact KeepsX.onDie h (fun _ h1 => Keeps.barWrite h1 (fun _ h2 => Keeps.writeNoc h2))

theorem Keeps.execEpochDrainDone {s t : State} (h : Keeps s t) :
    KeepsX s (Machine.execEpochDrainDone t) := by
  unfold Machine.execEpochDrainDone
  exact KeepsX.onDie h (fun _ h1 => Keeps.ite (fun _ => Keeps.epochApply h1) (fun _ => h1))

theorem Keeps.execEpochDrainTimeout {s t : State} (h : Keeps s t) :
    KeepsX s (Machine.execEpochDrainTimeout t) := by
  unfold Machine.execEpochDrainTimeout
  exact KeepsX.onDie h (fun _ h1 => Keeps.ite (fun _ => Keeps.set h1) (fun _ => h1))

theorem Keeps.execEpochForce {s t : State} {a0 : Initiator} {a1 : BitVec 64} (h : Keeps s t) :
    KeepsX s (Machine.execEpochForce a0 a1 t) := by
  unfold Machine.execEpochForce
  exact KeepsX.onDie h (fun _ h1 => Keeps.barWrite h1 (fun _ h2 => Keeps.writeNoc h2))

theorem Keeps.execFenceRequest {s t : State} {a0 : Initiator} {a1 : Fin 40} {a2 : BitVec 64} (h : Keeps s t) :
    KeepsX s (Machine.execFenceRequest a0 a1 a2 t) := by
  unfold Machine.execFenceRequest
  exact KeepsX.onDie h (fun _ h1 => Keeps.barWrite h1 (fun _ h2 => Keeps.writeNoc h2))

theorem Keeps.execFenceCancel {s t : State} {a0 : Initiator} {a1 : Fin 40} {a2 : BitVec 64} (h : Keeps s t) :
    KeepsX s (Machine.execFenceCancel a0 a1 a2 t) := by
  unfold Machine.execFenceCancel
  exact KeepsX.onDie h (fun _ h1 => Keeps.barWrite h1 (fun _ h2 => Keeps.writeNoc h2))

theorem Keeps.execFenceAck {s t : State} {a0 : Fin 40} (h : Keeps s t) :
    KeepsX s (Machine.execFenceAck a0 t) := by
  unfold Machine.execFenceAck
  exact KeepsX.onDie h (fun _ h1 => by
    extract_lets +onlyGivenNames -underBinder -merge x2
    have h2 : Keeps s x2 := Keeps.showDom h1
    try clear_value x2
    exact Keeps.ite (fun _ => Keeps.enter (Keeps.fenceDone h2)) (fun _ => h2))

theorem Keeps.badPacket {s t : State} {a1 : Flight} (h : Keeps s t) :
    Keeps s (State.badPacket t a1) := by
  unfold State.badPacket
  exact Keeps.record (Keeps.unsend h)

theorem Keeps.execFencedArrival {s t : State} {a0 : NocMsg} (h : Keeps s t) :
    KeepsX s (Machine.execFencedArrival a0 t) := by
  unfold Machine.execFencedArrival
  exact KeepsX.onDie h (fun _ h1 => by
    extract_lets +onlyGivenNames -underBinder -merge x2
    split
    · rename_i e3_0
      have h3 : Keeps s _ := Keeps.eq2 e3_0 (Keeps.bring h1)
      refine Keeps.ite (fun _ => ?_) (fun _ => ?_)
      · exact h3
      · split
        · exact Keeps.ite (fun _ => h3) (fun _ => Keeps.badPacket h3)
        · exact Keeps.ite (fun _ => Keeps.ite (fun _ => Keeps.holdAt (Keeps.landed h3)) (fun _ => h3)) (fun _ => Keeps.ite (fun _ => h3) (fun _ => Keeps.badPacket h3)))

theorem Keeps.execDomainOn {s t : State} {a0 : Fin 40} (h : Keeps s t) :
    KeepsX s (Machine.execDomainOn a0 t) := by
  unfold Machine.execDomainOn
  exact KeepsX.onDie h (fun _ h1 => by
    refine Keeps.ite (fun _ => ?_) (fun _ => ?_)
    · extract_lets +onlyGivenNames -underBinder -merge x2
      have h2 : Keeps s x2 := Keeps.domAgain (Keeps.domGo h1)
      try clear_value x2
      extract_lets +onlyGivenNames -underBinder -merge x3 x4
      have h4 : Keeps s x4 := Keeps.ite (fun _ => Keeps.upd h2) (fun _ => h2)
      try clear_value x4
      exact Keeps.when h4 (fun _ h5 => Keeps.rise h5)
    · exact h1)

theorem Keeps.execBlk {s t : State} {a0 : Fin 16} {a1 : BitVec 34} {a2 : Fin 8} {a3 : Bytes} (h : Keeps s t) :
    KeepsX s (Machine.execBlk a0 a1 a2 a3 t) := by
  unfold Machine.execBlk
  exact KeepsX.onDie h (fun _ h1 => by
    extract_lets +onlyGivenNames -underBinder -merge x2 x3
    exact Keeps.ite (fun _ => Keeps.holdBlk h1) (fun _ => Keeps.ite (fun _ => Keeps.shareBlock (Keeps.upd h1)) (fun _ => Keeps.blkDecode h1)))

theorem Keeps.answer {s t : State} {a1 : Initiator} {a2 : MbxCode} {a3 : Bytes} (h : Keeps s t) :
    Keeps s (State.answer t a1 a2 a3) := by
  unfold State.answer
  exact Keeps.emit h

theorem Keeps.onMailbox {s t : State} {a0 : Initiator} {a1 : Bool} {a2 : Bytes} {a4 : State → State} (h : Keeps s t)
    (k4 : ∀ y0, Keeps s y0 → Keeps s (a4 y0)) :
    KeepsX s (Machine.onMailbox a0 a1 a2 t a4) := by
  unfold Machine.onMailbox
  exact KeepsX.onDie h (fun _ h1 => Keeps.ite (fun _ => h1) (fun _ => Keeps.ite (fun _ => Keeps.answer h1) (fun _ => Keeps.ite (fun _ => Keeps.answer h1) (fun _ => k4 _ h1))))

theorem Keeps.setTransfer {s t : State} {a1 : Option Transfer} (h : Keeps s t) :
    Keeps s (State.setTransfer t a1) := by
  unfold State.setTransfer
  exact Keeps.upd h

theorem Keeps.transferData {s t : State} {a1 : Initiator} {a2 : Bool} {a3 : Bytes} (h : Keeps s t) :
    Keeps s (State.transferData t a1 a2 a3) := by
  unfold State.transferData
  split
  · exact Keeps.answer h
  · exact Keeps.ite (fun _ => Keeps.answer h) (fun _ => Keeps.ite (fun _ => Keeps.answer h) (fun _ => Keeps.answer (Keeps.setTransfer h)))

theorem Keeps.transferDrop {s t : State} {a1 : Initiator} {a2 : Bool} (h : Keeps s t) :
    Keeps s (State.transferDrop t a1 a2) := by
  unfold State.transferDrop
  exact Keeps.ite (fun _ => Keeps.answer h) (fun _ => Keeps.answer (Keeps.setTransfer h))

theorem Keeps.loadEnds {s t : State} {a1 : Initiator} {a2 : ImgResult} (h : Keeps s t) :
    Keeps s (State.loadEnds t a1 a2) := by
  unfold State.loadEnds
  extract_lets +onlyGivenNames -underBinder -merge x1 x2
  have h2 : Keeps s x2 := Keeps.upd h
  try clear_value x2
  extract_lets +onlyGivenNames -underBinder -merge x3
  have h3 : Keeps s x3 := Keeps.wr (Keeps.showResult h2)
  try clear_value x3
  extract_lets +onlyGivenNames -underBinder -merge x4
  have h4 : Keeps s x4 := Keeps.set h3
  try clear_value x4
  exact Keeps.answer h4

theorem Keeps.resumeJobs {s t : State} (h : Keeps s t) :
    Keeps s (State.resumeJobs t) := by
  unfold State.resumeJobs
  exact Keeps.forEach h (fun _ _ h1 => Keeps.startJobs h1)

theorem Keeps.releaseLds {s t : State} (h : Keeps s t) :
    Keeps s (State.releaseLds t) := by
  unfold State.releaseLds
  extract_lets +onlyGivenNames -underBinder -merge x1
  exact Keeps.forEach (Keeps.upd h) (fun _ _ h2 => Keeps.m2sAgain h2)

theorem Keeps.drainBegin {s t : State} {a1 : PendingLoad} (h : Keeps s t) :
    Keeps s (State.drainBegin t a1) := by
  unfold State.drainBegin
  extract_lets +onlyGivenNames -underBinder -merge x1 x2
  have h2 : Keeps s x2 := Keeps.upd h
  try clear_value x2
  exact Keeps.forEach h2 (fun _ _ h3 => Keeps.wakeDom (Keeps.endDrain h3))

theorem Keeps.commitRoute {s t : State} (h : Keeps s t) :
    Keeps s (State.commitRoute t) := by
  unfold State.commitRoute
  extract_lets +onlyGivenNames -underBinder -merge x1
  have h1 : Keeps s x1 := Keeps.forEach h (fun _ _ h2 => Keeps.wr h2)
  try clear_value x1
  exact Keeps.flip (Keeps.applyRoutes h1)

theorem Keeps.commitTier {s t : State} {a1 : Sections} (h : Keeps s t) :
    Keeps s (State.commitTier t a1) := by
  unfold State.commitTier
  extract_lets +onlyGivenNames -underBinder -merge x1
  have h1 : Keeps s x1 := Keeps.wr h
  try clear_value x1
  extract_lets +onlyGivenNames -underBinder -merge x2
  have h2 : Keeps s x2 := Keeps.wr h1
  try clear_value x2
  extract_lets +onlyGivenNames -underBinder -merge x3 x4 x5
  have h5 : Keeps s x5 := Keeps.upd h2
  try clear_value x5
  extract_lets +onlyGivenNames -underBinder -merge x6
  have h6 : Keeps s x6 := Keeps.forEach h5 (fun _ _ h7 => Keeps.wr h7)
  try clear_value x6
  exact Keeps.forEach h6 (fun _ _ h9 => Keeps.wr h9)

theorem Keeps.commit {s t : State} {a1 : PendingLoad} (h : Keeps s t) :
    Keeps s (State.commit t a1) := by
  unfold State.commit
  extract_lets +onlyGivenNames -underBinder -merge x1 x2 x3 x4
  have h4 : Keeps s x4 := Keeps.upd h
  try clear_value x4
  extract_lets +onlyGivenNames -underBinder -merge x5
  have h5 : Keeps s x5 := Keeps.when h4 (fun _ h6 => Keeps.applyLds h6)
  try clear_value x5
  extract_lets +onlyGivenNames -underBinder -merge x7
  have h7 : Keeps s x7 := Keeps.when h5 (fun _ h8 => Keeps.commitTier h8)
  try clear_value x7
  extract_lets +onlyGivenNames -underBinder -merge x9
  have h9 : Keeps s x9 := Keeps.when h7 (fun _ h10 => Keeps.newWindow (Keeps.applyTsc h10))
  try clear_value x9
  extract_lets +onlyGivenNames -underBinder -merge x11
  have h11 : Keeps s x11 := Keeps.when h9 (fun _ h12 => Keeps.applyCntd h12)
  try clear_value x11
  extract_lets +onlyGivenNames -underBinder -merge x13
  have h13 : Keeps s x13 := Keeps.when h11 (fun _ h14 => Keeps.commitRoute h14)
  try clear_value x13
  extract_lets +onlyGivenNames -underBinder -merge x15
  have h15 : Keeps s x15 := Keeps.ite (fun _ => h13) (fun _ => Keeps.showImage h13)
  try clear_value x15
  exact Keeps.resumeJobs (Keeps.showTols h15)

theorem Keeps.afterCommit {s t : State} {a1 : PendingLoad} (h : Keeps s t) :
    Keeps s (State.afterCommit t a1) := by
  unfold State.afterCommit
  exact Keeps.ite (fun _ => Keeps.wr (Keeps.upd h)) (fun _ => Keeps.loadEnds h)

theorem Keeps.execStrLoadStart {s t : State} {a0 : Initiator} {a1 : Bytes} (h : Keeps s t) :
    KeepsX s (Machine.execStrLoadStart a0 a1 t) := by
  unfold Machine.execStrLoadStart
  exact Keeps.onMailbox h (fun _ h1 => Keeps.ite (fun _ => Keeps.answer h1) (fun _ => Keeps.ite (fun _ => Keeps.answer h1) (fun _ => Keeps.ite (fun _ => Keeps.answer h1) (fun _ => Keeps.ite (fun _ => Keeps.loadEnds h1) (fun _ => Keeps.answer (Keeps.setTransfer h1))))))

theorem Keeps.execStrLoadContinue {s t : State} {a0 : Initiator} {a1 : Bytes} (h : Keeps s t) :
    KeepsX s (Machine.execStrLoadContinue a0 a1 t) := by
  unfold Machine.execStrLoadContinue
  exact Keeps.onMailbox h (fun _ h1 => Keeps.ite (fun _ => Keeps.answer h1) (fun _ => Keeps.transferData h1))

theorem Keeps.loadImage {s t : State} {a1 : Transfer} (h : Keeps s t) :
    Keeps s (State.loadImage t a1) := by
  unfold State.loadImage
  extract_lets +onlyGivenNames -underBinder -merge x1 x2 x3
  exact Keeps.ite (fun _ => Keeps.loadEnds h) (fun _ => Keeps.ite (fun _ => Keeps.loadEnds h) (fun _ => Keeps.ite (fun _ => Keeps.loadEnds h) (fun _ => Keeps.ite (fun _ => Keeps.wr (Keeps.drainBegin h)) (fun _ => Keeps.wr (Keeps.upd h)))))

theorem Keeps.execStrLoadEnd {s t : State} {a0 : Initiator} {a1 : Bytes} (h : Keeps s t) :
    KeepsX s (Machine.execStrLoadEnd a0 a1 t) := by
  unfold Machine.execStrLoadEnd
  exact Keeps.onMailbox h (fun _ h1 => by
    refine Keeps.ite (fun _ => ?_) (fun _ => ?_)
    · exact Keeps.answer h1
    · refine Keeps.ite (fun _ => ?_) (fun _ => ?_)
      · exact Keeps.answer h1
      · split
        · exact Keeps.answer h1
        · exact Keeps.ite (fun _ => Keeps.loadEnds (Keeps.setTransfer h1)) (fun _ => Keeps.loadImage (Keeps.answer (Keeps.setTransfer h1))))

theorem Keeps.execStrLoadAbandon {s t : State} {a0 : Initiator} {a1 : Bytes} (h : Keeps s t) :
    KeepsX s (Machine.execStrLoadAbandon a0 a1 t) := by
  unfold Machine.execStrLoadAbandon
  exact Keeps.onMailbox h (fun _ h1 => Keeps.ite (fun _ => Keeps.answer h1) (fun _ => Keeps.transferDrop h1))

theorem Keeps.execImageCommit {s t : State} (h : Keeps s t) :
    KeepsX s (Machine.execImageCommit t) := by
  unfold Machine.execImageCommit
  exact KeepsX.onDie h (fun _ h1 => by
    split
    · exact h1
    · exact Keeps.ite (fun _ => Keeps.afterCommit (Keeps.commit h1)) (fun _ => h1))

theorem Keeps.execQuiesceTimeout {s t : State} (h : Keeps s t) :
    KeepsX s (Machine.execQuiesceTimeout t) := by
  unfold Machine.execQuiesceTimeout
  exact KeepsX.onDie h (fun _ h1 => by
    split
    · exact h1
    · exact Keeps.ite (fun _ => Keeps.resumeJobs (Keeps.releaseLds (Keeps.loadEnds h1))) (fun _ => h1))

theorem Keeps.execLdHoldRelease {s t : State} (h : Keeps s t) :
    KeepsX s (Machine.execLdHoldRelease t) := by
  unfold Machine.execLdHoldRelease
  exact KeepsX.onDie h (fun _ h1 => Keeps.ite (fun _ => h1) (fun _ => Keeps.releaseLds h1))

theorem Keeps.persisted {s t : State} {a1 : PendingLoad} {a2 : Bool} (h : Keeps s t) :
    Keeps s (State.persisted t a1 a2) := by
  unfold State.persisted
  extract_lets +onlyGivenNames -underBinder -merge x1 x2 x3 x4
  have h4 : Keeps s x4 := Keeps.ite (fun _ => Keeps.wr (Keeps.upd h)) (fun _ => Keeps.wr (Keeps.upd h))
  try clear_value x4
  refine Keeps.ite (fun _ => ?_) (fun _ => ?_)
  · exact Keeps.loadEnds h4
  · extract_lets +onlyGivenNames -underBinder -merge x5
    have h5 : Keeps s x5 := Keeps.wr h4
    try clear_value x5
    extract_lets +onlyGivenNames -underBinder -merge x6
    have h6 : Keeps s x6 := Keeps.when h5 (fun _ h7 => Keeps.set h7)
    try clear_value x6
    exact Keeps.loadEnds h6

theorem Keeps.execImagePersistDone {s t : State} {a0 : Bool} (h : Keeps s t) :
    KeepsX s (Machine.execImagePersistDone a0 t) := by
  unfold Machine.execImagePersistDone
  exact KeepsX.onDie h (fun _ h1 => by
    split
    · exact h1
    · exact Keeps.ite (fun _ => Keeps.persisted h1) (fun _ => h1))

theorem Keeps.strMinseq {s t : State} {a1 : Nat} (h : Keeps s t) :
    Keeps s (State.strMinseq t a1) := by
  unfold State.strMinseq
  exact Keeps.ite (fun _ => Keeps.wr h) (fun _ => h)

theorem Keeps.writeStr {s t : State} {a1 : Initiator} {a2 a3 : Nat} (h : Keeps s t) :
    Keeps s (State.writeStr t a1 a2 a3) := by
  unfold State.writeStr
  exact Keeps.ite (fun _ => Keeps.ite (fun _ => Keeps.strMinseq h) (fun _ => h)) (fun _ => Keeps.ite (fun _ => Keeps.writeWord h) (fun _ => Keeps.writeWord h))

theorem Keeps.execStrMinseqWrite {s t : State} {a0 : Initiator} {a1 : BitVec 32} (h : Keeps s t) :
    KeepsX s (Machine.execStrMinseqWrite a0 a1 t) := by
  unfold Machine.execStrMinseqWrite
  exact KeepsX.onDie h (fun _ h1 => Keeps.barWrite h1 (fun _ h2 => Keeps.writeStr h2))

end Sys2Proof.Machine
end

