-- ==== Sys2Proof/Laws/KeepsMailboxToFaults.lean ====
section
/-!
SUPPORT. What the operations and meanings of Mailbox, Security, Attest, Debug, Faults keep (Laws/Keeps).
-/

namespace Sys2Proof.Machine

theorem Keeps.onQuery {s t : State} {a0 : Initiator} {a1 : Bytes} {a3 : State → Bytes} (h : Keeps s t) :
    KeepsX s (Machine.onQuery a0 a1 t a3) := by
  unfold Machine.onQuery
  exact Keeps.onMailbox h (fun _ h1 => Keeps.ite (fun _ => Keeps.answer h1) (fun _ => Keeps.answer h1))

theorem Keeps.execIdentify {s t : State} {a0 : Initiator} {a1 : Bytes} (h : Keeps s t) :
    KeepsX s (Machine.execIdentify a0 a1 t) := by
  unfold Machine.execIdentify
  exact Keeps.onQuery h

theorem Keeps.execStrInfo {s t : State} {a0 : Initiator} {a1 : Bytes} (h : Keeps s t) :
    KeepsX s (Machine.execStrInfo a0 a1 t) := by
  unfold Machine.execStrInfo
  exact Keeps.onQuery h

theorem Keeps.execRasRead {s t : State} {a0 : Initiator} {a1 : Bytes} (h : Keeps s t) :
    KeepsX s (Machine.execRasRead a0 a1 t) := by
  unfold Machine.execRasRead
  exact Keeps.onMailbox h (fun _ h1 => by
    refine Keeps.ite (fun _ => ?_) (fun _ => ?_)
    · exact Keeps.answer h1
    · extract_lets +onlyGivenNames -underBinder -merge x2
      exact Keeps.answer h1)

theorem Keeps.execCalInfo {s t : State} {a0 : Initiator} {a1 : Bytes} (h : Keeps s t) :
    KeepsX s (Machine.execCalInfo a0 a1 t) := by
  unfold Machine.execCalInfo
  exact Keeps.onQuery h

theorem Keeps.asOwner {s t : State} {a1 : Initiator} {a2 : State → State} (h : Keeps s t)
    (k2 : ∀ y0, Keeps s y0 → Keeps s (a2 y0)) :
    Keeps s (State.asOwner t a1 a2) := by
  unfold State.asOwner
  exact Keeps.ite (fun _ => k2 _ h) (fun _ => Keeps.answer (Keeps.violate h))

theorem Keeps.execCalExport {s t : State} {a0 : Initiator} {a1 : Bytes} (h : Keeps s t) :
    KeepsX s (Machine.execCalExport a0 a1 t) := by
  unfold Machine.execCalExport
  exact Keeps.onMailbox h (fun _ h1 => Keeps.asOwner h1 (fun _ h2 => by
    refine Keeps.ite (fun _ => ?_) (fun _ => ?_)
    · exact Keeps.answer h2
    · refine Keeps.ite (fun _ => ?_) (fun _ => ?_)
      · exact Keeps.answer h2
      · split
        · exact Keeps.answer h2
        · exact Keeps.answer h2))

theorem Keeps.execCalWriteStart {s t : State} {a0 : Initiator} {a1 : Bytes} (h : Keeps s t) :
    KeepsX s (Machine.execCalWriteStart a0 a1 t) := by
  unfold Machine.execCalWriteStart
  exact Keeps.onMailbox h (fun _ h1 => Keeps.asOwner h1 (fun _ h2 => Keeps.ite (fun _ => Keeps.answer h2) (fun _ => Keeps.ite (fun _ => Keeps.answer h2) (fun _ => Keeps.answer (Keeps.setTransfer h2)))))

theorem Keeps.execCalWriteContinue {s t : State} {a0 : Initiator} {a1 : Bytes} (h : Keeps s t) :
    KeepsX s (Machine.execCalWriteContinue a0 a1 t) := by
  unfold Machine.execCalWriteContinue
  exact Keeps.onMailbox h (fun _ h1 => Keeps.asOwner h1 (fun _ h2 => Keeps.ite (fun _ => Keeps.answer h2) (fun _ => Keeps.transferData h2)))

theorem Keeps.dropCal {s t : State} {a1 : Nat} (h : Keeps s t) :
    Keeps s (State.dropCal t a1) := by
  unfold State.dropCal
  exact Keeps.upd h

theorem Keeps.execCalWriteEnd {s t : State} {a0 : Initiator} {a1 : Bytes} {a2 : Bool} (h : Keeps s t) :
    KeepsX s (Machine.execCalWriteEnd a0 a1 a2 t) := by
  unfold Machine.execCalWriteEnd
  exact Keeps.onMailbox h (fun _ h1 => Keeps.asOwner h1 (fun _ h2 => by
    refine Keeps.ite (fun _ => ?_) (fun _ => ?_)
    · exact Keeps.answer h2
    · refine Keeps.ite (fun _ => ?_) (fun _ => ?_)
      · exact Keeps.answer h2
      · split
        · exact Keeps.answer h2
        · extract_lets +onlyGivenNames -underBinder -merge x3
          have h3 : Keeps s x3 := Keeps.answer (Keeps.setTransfer h2)
          try clear_value x3
          extract_lets +onlyGivenNames -underBinder -merge x4
          refine Keeps.ite (fun _ => ?_) (fun _ => ?_)
          · exact Keeps.answer h3
          · extract_lets +onlyGivenNames -underBinder -merge x5
            have h5 : Keeps s x5 := Keeps.set (Keeps.dropCal h3)
            try clear_value x5
            exact Keeps.upd h5))

theorem Keeps.calWritten {s t : State} (h : Keeps s t) :
    Keeps s (State.calWritten t) := by
  unfold State.calWritten
  split
  · exact h
  · extract_lets +onlyGivenNames -underBinder -merge x1
    extract_lets +onlyGivenNames -underBinder -merge x2
    have h2 : Keeps s x2 := Keeps.clear (Keeps.upd h)
    try clear_value x2
    extract_lets +onlyGivenNames -underBinder -merge x3
    refine Keeps.ite (fun _ => ?_) (fun _ => ?_)
    · extract_lets +onlyGivenNames -underBinder -merge x4
      extract_lets +onlyGivenNames -underBinder -merge x5
      have h5 : Keeps s x5 := Keeps.upd h2
      try clear_value x5
      extract_lets +onlyGivenNames -underBinder -merge x6
      have h6 : Keeps s x6 := Keeps.wrBit (Keeps.wrBit h5)
      try clear_value x6
      exact Keeps.answer h6
    · extract_lets +onlyGivenNames -underBinder -merge x7
      have h7 : Keeps s x7 := Keeps.wrBit (Keeps.wrBit h2)
      try clear_value x7
      exact Keeps.answer h7

theorem Keeps.execCalWriteAbandon {s t : State} {a0 : Initiator} {a1 : Bytes} (h : Keeps s t) :
    KeepsX s (Machine.execCalWriteAbandon a0 a1 t) := by
  unfold Machine.execCalWriteAbandon
  exact Keeps.onMailbox h (fun _ h1 => Keeps.asOwner h1 (fun _ h2 => Keeps.ite (fun _ => Keeps.answer h2) (fun _ => Keeps.transferDrop h2)))

theorem Keeps.execVendorUnsupported {s t : State} {a0 : Initiator} {a1 : BitVec 16} {a2 : Bytes} (h : Keeps s t) :
    KeepsX s (Machine.execVendorUnsupported a0 a1 a2 t) := by
  unfold Machine.execVendorUnsupported
  exact Keeps.onMailbox h (fun _ h1 => Keeps.answer h1)

theorem Keeps.execTransferIdleTimeout {s t : State} (h : Keeps s t) :
    KeepsX s (Machine.execTransferIdleTimeout t) := by
  unfold Machine.execTransferIdleTimeout
  exact KeepsX.onDie h (fun _ h1 => Keeps.setTransfer h1)

theorem Keeps.execGetFwInfo {s t : State} {a0 : Initiator} (h : Keeps s t) :
    KeepsX s (Machine.execGetFwInfo a0 t) := by
  unfold Machine.execGetFwInfo
  exact Keeps.onMailbox h (fun _ h1 => Keeps.answer h1)

theorem Keeps.showSlot {s t : State} {a1 : Bool} (h : Keeps s t) :
    Keeps s (State.showSlot t a1) := by
  unfold State.showSlot
  exact Keeps.wr h

theorem Keeps.execTransferFw {s t : State} {a0 : Initiator} {a1 : Bool} {a2 : Bytes} (h : Keeps s t) :
    KeepsX s (Machine.execTransferFw a0 a1 a2 t) := by
  unfold Machine.execTransferFw
  exact Keeps.onMailbox h (fun _ h1 => by
    refine Keeps.ite (fun _ => ?_) (fun _ => ?_)
    · exact Keeps.answer h1
    · refine Keeps.ite (fun _ => ?_) (fun _ => ?_)
      · exact Keeps.answer h1
      · refine Keeps.ite (fun _ => ?_) (fun _ => ?_)
        · exact Keeps.answer h1
        · extract_lets +onlyGivenNames -underBinder -merge x2
          extract_lets +onlyGivenNames -underBinder -merge x3 x4
          have h4 : Keeps s x4 := Keeps.upd h1
          try clear_value x4
          extract_lets +onlyGivenNames -underBinder -merge x5
          have h5 : Keeps s x5 := Keeps.showSlot h4
          try clear_value x5
          exact Keeps.answer h5)

theorem Keeps.execActivateFwOffline {s t : State} {a0 : Initiator} {a1 : Bool} (h : Keeps s t) :
    KeepsX s (Machine.execActivateFwOffline a0 a1 t) := by
  unfold Machine.execActivateFwOffline
  exact Keeps.onMailbox h (fun _ h1 => Keeps.answer (Keeps.wr h1))

theorem Keeps.restart {s t : State} {a1 : Bool} (h : Keeps s t) :
    Keeps s (State.restart t a1) := by
  unfold State.restart
  exact Keeps.ite (fun _ => h) (fun _ => Keeps.upd h)

theorem Keeps.execActivateFwOnline {s t : State} {a0 : Initiator} {a1 : Bool} (h : Keeps s t) :
    KeepsX s (Machine.execActivateFwOnline a0 a1 t) := by
  unfold Machine.execActivateFwOnline
  exact Keeps.onMailbox h (fun _ h1 => Keeps.ite (fun _ => Keeps.answer h1) (fun _ => Keeps.restart (Keeps.answer h1)))

theorem Keeps.execActivationDone {s t : State} (h : Keeps s t) :
    KeepsX s (Machine.execActivationDone t) := by
  unfold Machine.execActivationDone
  exact KeepsX.onDie h (fun _ h1 => by
    split
    · exact h1
    · extract_lets +onlyGivenNames -underBinder -merge x2
      have h2 : Keeps s x2 := Keeps.showSlot h1
      try clear_value x2
      exact Keeps.ite (fun _ => Keeps.wr (Keeps.fwStart h2)) (fun _ => Keeps.wr (Keeps.ite (fun _ => Keeps.monitor h2) (fun _ => Keeps.fwStart h2))))

theorem Keeps.said {s t : State} {a1 : Initiator} {a2 : Option MbxCode} (h : Keeps s t) :
    Keeps s (State.said t a1 a2) := by
  unfold State.said
  split
  · exact Keeps.answer h
  · exact h

theorem Keeps.cutLoad {s t : State} {a1 : PendingLoad} {a2 : Option MbxCode} (h : Keeps s t) :
    Keeps s (State.cutLoad t a1 a2) := by
  unfold State.cutLoad
  extract_lets +onlyGivenNames -underBinder -merge x1
  have h1 : Keeps s x1 := Keeps.cutWrites h
  try clear_value x1
  extract_lets +onlyGivenNames -underBinder -merge x2 x3
  have h3 : Keeps s x3 := Keeps.wr (Keeps.upd h1)
  try clear_value x3
  exact Keeps.resumeJobs (Keeps.releaseLds (Keeps.said h3))

theorem Keeps.cutCal {s t : State} {a1 : CalWrite} {a2 : Option MbxCode} (h : Keeps s t) :
    Keeps s (State.cutCal t a1 a2) := by
  unfold State.cutCal
  extract_lets +onlyGivenNames -underBinder -merge x1 x2
  have h2 : Keeps s x2 := Keeps.clear (Keeps.upd h)
  try clear_value x2
  extract_lets +onlyGivenNames -underBinder -merge x3
  have h3 : Keeps s x3 := Keeps.wrBit (Keeps.wrBit h2)
  try clear_value x3
  exact Keeps.said h3

theorem Keeps.cutRelease {s t : State} {a1 : Initiator → Bool} {a2 : Option MbxCode} {a3 : Nat} (h : Keeps s t) :
    Keeps s (State.cutRelease t a1 a2 a3) := by
  unfold State.cutRelease
  split
  · exact Keeps.ite (fun _ => Keeps.said (Keeps.onLd h)) (fun _ => h)
  · exact h

theorem Keeps.endCommands {s t : State} {a1 : Initiator → Bool} {a2 : Option MbxCode} (h : Keeps s t) :
    Keeps s (State.endCommands t a1 a2) := by
  unfold State.endCommands
  extract_lets +onlyGivenNames -underBinder -merge x1
  have h1 : Keeps s x1 := by
    unfold x1
    split
    · exact Keeps.ite (fun _ => Keeps.cutLoad h) (fun _ => h)
    · exact h
  try clear_value x1
  extract_lets +onlyGivenNames -underBinder -merge x2
  have h2 : Keeps s x2 := by
    unfold x2
    split
    · exact Keeps.ite (fun _ => Keeps.cutCal h1) (fun _ => h1)
    · exact h1
  try clear_value x2
  extract_lets +onlyGivenNames -underBinder -merge x3
  have h3 : Keeps s x3 := Keeps.forEach h2 (fun _ _ h4 => Keeps.cutRelease h4)
  try clear_value x3
  exact Keeps.ite (fun _ => Keeps.setTransfer h3) (fun _ => h3)

theorem Keeps.execWatchdogExpire {s t : State} (h : Keeps s t) :
    KeepsX s (Machine.execWatchdogExpire t) := by
  unfold Machine.execWatchdogExpire
  exact KeepsX.onDie h (fun _ h1 => by
    refine Keeps.ite (fun _ => ?_) (fun _ => ?_)
    · exact h1
    · extract_lets +onlyGivenNames -underBinder -merge x2
      have h2 : Keeps s x2 := Keeps.bump h1
      try clear_value x2
      extract_lets +onlyGivenNames -underBinder -merge x3
      have h3 : Keeps s x3 := Keeps.record h2
      try clear_value x3
      exact Keeps.restart (Keeps.endCommands h3))

theorem Keeps.coreRun {s t : State} {a1 : Nat} (h : Keeps s t) :
    Keeps s (State.coreRun t a1) := by
  unfold State.coreRun
  extract_lets +onlyGivenNames -underBinder -merge x1
  have h1 : Keeps s x1 := Keeps.wr h
  try clear_value x1
  exact Keeps.upd h1

theorem Keeps.raise {s t : State} {a1 : Field} {a2 : Nat} (h : Keeps s t) :
    Keeps s (State.raise t a1 a2) := by
  unfold State.raise
  exact Keeps.ite (fun _ => Keeps.wr h) (fun _ => h)

theorem Keeps.kick {s t : State} (h : Keeps s t) :
    Keeps s (State.kick t) := by
  unfold State.kick
  exact Keeps.upd h

theorem Keeps.writeFwc {s t : State} {a1 : Initiator} {a2 a3 : Nat} (h : Keeps s t) :
    Keeps s (State.writeFwc t a1 a2 a3) := by
  unfold State.writeFwc
  refine Keeps.ite (fun _ => ?_) (fun _ => ?_)
  · extract_lets +onlyGivenNames -underBinder -merge x1
    have h1 : Keeps s x1 := Keeps.wr (Keeps.coreRun h)
    try clear_value x1
    exact Keeps.when h1 (fun _ h2 => Keeps.restart h2)
  · refine Keeps.ite (fun _ => ?_) (fun _ => ?_)
    · exact Keeps.ite (fun _ => Keeps.raise (Keeps.raise h)) (fun _ => h)
    · refine Keeps.ite (fun _ => ?_) (fun _ => ?_)
      · extract_lets +onlyGivenNames -underBinder -merge x3
        have h3 : Keeps s x3 := Keeps.wr h
        try clear_value x3
        exact Keeps.when h3 (fun _ h4 => Keeps.kick h4)
      · exact Keeps.writeWord h

theorem Keeps.execCoreRun {s t : State} {a0 : Initiator} {a1 : BitVec 3} (h : Keeps s t) :
    KeepsX s (Machine.execCoreRun a0 a1 t) := by
  unfold Machine.execCoreRun
  exact KeepsX.onDie h (fun _ h1 => Keeps.barWrite h1 (fun _ h2 => Keeps.writeFwc h2))

theorem Keeps.execKick {s t : State} {a0 : Initiator} (h : Keeps s t) :
    KeepsX s (Machine.execKick a0 t) := by
  unfold Machine.execKick
  exact KeepsX.onDie h (fun _ h1 => Keeps.barWrite h1 (fun _ h2 => Keeps.writeFwc h2))

theorem Keeps.execLastThermtripClear {s t : State} {a0 : Initiator} (h : Keeps s t) :
    KeepsX s (Machine.execLastThermtripClear a0 t) := by
  unfold Machine.execLastThermtripClear
  exact KeepsX.onDie h (fun _ h1 => Keeps.barWrite h1 (fun _ h2 => Keeps.writeFwc h2))

theorem Keeps.execFwcMinseqWrite {s t : State} {a0 : Initiator} {a1 : BitVec 64} (h : Keeps s t) :
    KeepsX s (Machine.execFwcMinseqWrite a0 a1 t) := by
  unfold Machine.execFwcMinseqWrite
  exact KeepsX.onDie h (fun _ h1 => Keeps.barWrite h1 (fun _ h2 => Keeps.writeFwc h2))

theorem Keeps.wdtPause {s t : State} (h : Keeps s t) :
    Keeps s (State.wdtPause t) := by
  unfold State.wdtPause
  extract_lets +onlyGivenNames -underBinder -merge x1
  refine Keeps.ite (fun _ => ?_) (fun _ => ?_)
  · exact Keeps.upd h
  · split
    · exact h
    · exact Keeps.upd h

theorem Keeps.resumeCores {s t : State} (h : Keeps s t) :
    Keeps s (State.resumeCores t) := by
  unfold State.resumeCores
  refine Keeps.ite (fun _ => ?_) (fun _ => ?_)
  · exact h
  · extract_lets +onlyGivenNames -underBinder -merge x1
    exact Keeps.wdtPause (Keeps.upd h)

theorem Keeps.closeSession {s t : State} {a1 : Nat} (h : Keeps s t) :
    Keeps s (State.closeSession t a1) := by
  unfold State.closeSession
  extract_lets +onlyGivenNames -underBinder -merge x1
  refine Keeps.ite (fun _ => ?_) (fun _ => ?_)
  · exact h
  · extract_lets +onlyGivenNames -underBinder -merge x2
    have h2 : Keeps s x2 := Keeps.sessionEnded h
    try clear_value x2
    exact Keeps.ite (fun _ => Keeps.retarget (Keeps.resumeCores h2)) (fun _ => Keeps.ite (fun _ => Keeps.warmReset h2) (fun _ => Keeps.retarget h2))

theorem Keeps.newKt {s t : State} (h : Keeps s t) :
    Keeps s (State.newKt t) := by
  unfold State.newKt
  split
  · rename_i e1_0
    have h1 : Keeps s _ := Keeps.eq2 e1_0 (Keeps.draw h)
    exact Keeps.upd h1

theorem Keeps.writeSec {s t : State} {a1 : Initiator} {a2 a3 : Nat} (h : Keeps s t) :
    Keeps s (State.writeSec t a1 a2 a3) := by
  unfold State.writeSec
  extract_lets +onlyGivenNames -underBinder -merge x1 x2
  have h2 : Keeps s x2 := Keeps.writeWord h
  try clear_value x2
  exact Keeps.ite (fun _ => Keeps.newKt h2) (fun _ => h2)

theorem Keeps.execHashAddrSet {s t : State} {a0 : Initiator} (h : Keeps s t) :
    KeepsX s (Machine.execHashAddrSet a0 t) := by
  unfold Machine.execHashAddrSet
  exact KeepsX.onDie h (fun _ h1 => Keeps.barWrite h1 (fun _ h2 => Keeps.writeSec h2))

theorem Keeps.lcAnswer {s t : State} {a1 : Initiator} {a2 a3 : Nat} (h : Keeps s t) :
    Keeps s (State.lcAnswer t a1 a2 a3) := by
  unfold State.lcAnswer
  exact Keeps.emit h

theorem Keeps.lcDone {s t : State} {a1 : Initiator} {a2 : Nat} (h : Keeps s t) :
    Keeps s (State.lcDone t a1 a2) := by
  unfold State.lcDone
  exact Keeps.lcAnswer (Keeps.set h)

theorem Keeps.lcChange {s t : State} {a1 : Nat} (h : Keeps s t) :
    Keeps s (State.lcChange t a1) := by
  unfold State.lcChange
  exact Keeps.showCc (Keeps.closeSession (Keeps.enterLc (Keeps.clear h)))

theorem Keeps.eraseKeys {s t : State} (h : Keeps s t) :
    Keeps s (State.eraseKeys t) := by
  unfold State.eraseKeys
  exact Keeps.forEach (Keeps.upd h) (fun _ _ h1 => Keeps.clear h1)

theorem Keeps.returnBegin {s t : State} {a1 : Initiator} (h : Keeps s t) :
    Keeps s (State.returnBegin t a1) := by
  unfold State.returnBegin
  extract_lets +onlyGivenNames -underBinder -merge x1 x2 x3
  have h3 : Keeps s x3 := Keeps.upd h
  try clear_value x3
  extract_lets +onlyGivenNames -underBinder -merge x4
  have h4 : Keeps s x4 := Keeps.clear (Keeps.closeSession (Keeps.set h3))
  try clear_value x4
  exact Keeps.eraseKeys h4

theorem Keeps.returnEnd {s t : State} (h : Keeps s t) :
    Keeps s (State.returnEnd t) := by
  unfold State.returnEnd
  split
  · exact h
  · extract_lets +onlyGivenNames -underBinder -merge x1
    extract_lets +onlyGivenNames -underBinder -merge x2
    have h2 : Keeps s x2 := Keeps.upd h
    try clear_value x2
    exact Keeps.warmReset (Keeps.lcDone (Keeps.enterLc h2))

theorem Keeps.lcAct {s t : State} {a1 : Initiator} {a2 : Nat} {a3 : Bytes} (h : Keeps s t) :
    Keeps s (State.lcAct t a1 a2 a3) := by
  unfold State.lcAct
  exact Keeps.ite (fun _ => Keeps.lcDone (Keeps.lcChange (Keeps.upd h))) (fun _ => Keeps.ite (fun _ => Keeps.lcDone (Keeps.lcChange h)) (fun _ => Keeps.ite (fun _ => Keeps.returnBegin h) (fun _ => Keeps.lcDone (Keeps.wrBit h))))

theorem Keeps.lcRun {s t : State} {a1 : Initiator} {a2 a3 : Nat} {a4 : Bytes} {a5 : Bool} (h : Keeps s t) :
    Keeps s (State.lcRun t a1 a2 a3 a4 a5) := by
  unfold State.lcRun
  extract_lets +onlyGivenNames -underBinder -merge x1
  exact Keeps.ite (fun _ => Keeps.lcAct h) (fun _ => Keeps.lcAnswer h)

theorem Keeps.vdmRun {s t : State} {a1 : VdmReq} (h : Keeps s t) :
    Keeps s (State.vdmRun t a1) := by
  unfold State.vdmRun
  exact Keeps.ite (fun _ => Keeps.keyRun h) (fun _ => Keeps.lcRun h)

theorem Keeps.vdm {s t : State} {a1 : VdmReq} (h : Keeps s t) :
    Keeps s (State.vdm t a1) := by
  unfold State.vdm
  exact Keeps.ite (fun _ => Keeps.upd h) (fun _ => Keeps.vdmRun h)

theorem Keeps.vdmPump {s t : State} {a0 : List VdmReq} (h : Keeps s t) : Keeps s (State.vdmPump a0 t) := by
  induction a0 generalizing t with
  | nil => exact h
  | cons _ _ ih => exact Keeps.ite (fun _ => h) (fun _ => ih (Keeps.vdmRun (Keeps.upd h)))

theorem Keeps.execKeyLoad {s t : State} {a0 : Initiator} {a1 : BitVec 32} {a2 : Bytes} (h : Keeps s t) :
    KeepsX s (Machine.execKeyLoad a0 a1 a2 t) := by
  unfold Machine.execKeyLoad
  exact KeepsX.onDie h (fun _ h1 => Keeps.vdm h1)

theorem Keeps.execKeyRetire {s t : State} {a0 : Initiator} {a1 : BitVec 32} {a2 : Bytes} (h : Keeps s t) :
    KeepsX s (Machine.execKeyRetire a0 a1 a2 t) := by
  unfold Machine.execKeyRetire
  exact KeepsX.onDie h (fun _ h1 => Keeps.vdm h1)

theorem Keeps.execKeyErase {s t : State} {a0 : Initiator} {a1 : BitVec 32} {a2 : Bytes} (h : Keeps s t) :
    KeepsX s (Machine.execKeyErase a0 a1 a2 t) := by
  unfold Machine.execKeyErase
  exact KeepsX.onDie h (fun _ h1 => Keeps.vdm h1)

theorem Keeps.execKeyEraseDone {s t : State} {a0 : Fin 256} (h : Keeps s t) :
    KeepsX s (Machine.execKeyEraseDone a0 t) := by
  unfold Machine.execKeyEraseDone
  exact KeepsX.onDie h (fun _ h1 => by
    refine Keeps.ite (fun _ => ?_) (fun _ => ?_)
    · extract_lets +onlyGivenNames -underBinder -merge x2
      have h2 : Keeps s x2 := Keeps.keyErased h1
      try clear_value x2
      exact Keeps.vdmPump h2
    · exact h1)

theorem Keeps.execSetOwner {s t : State} {a0 : Initiator} {a1 : BitVec 32} {a2 : Bytes} {a3 : Bool} (h : Keeps s t) :
    KeepsX s (Machine.execSetOwner a0 a1 a2 a3 t) := by
  unfold Machine.execSetOwner
  exact KeepsX.onDie h (fun _ h1 => Keeps.vdm h1)

theorem Keeps.execSeal {s t : State} {a0 : Initiator} {a1 : BitVec 32} {a2 : Bytes} {a3 : Bool} (h : Keeps s t) :
    KeepsX s (Machine.execSeal a0 a1 a2 a3 t) := by
  unfold Machine.execSeal
  exact KeepsX.onDie h (fun _ h1 => Keeps.vdm h1)

theorem Keeps.execLcReturn {s t : State} {a0 : Initiator} {a1 : BitVec 32} {a2 : Bytes} {a3 : Bool} (h : Keeps s t) :
    KeepsX s (Machine.execLcReturn a0 a1 a2 a3 t) := by
  unfold Machine.execLcReturn
  exact KeepsX.onDie h (fun _ h1 => Keeps.vdm h1)

theorem Keeps.execBind {s t : State} {a0 : Initiator} {a1 : BitVec 32} {a2 : Bytes} (h : Keeps s t) :
    KeepsX s (Machine.execBind a0 a1 a2 t) := by
  unfold Machine.execBind
  exact KeepsX.onDie h (fun _ h1 => Keeps.vdm h1)

theorem Keeps.execUnbind {s t : State} {a0 : Initiator} {a1 : BitVec 32} {a2 : Bytes} (h : Keeps s t) :
    KeepsX s (Machine.execUnbind a0 a1 a2 t) := by
  unfold Machine.execUnbind
  exact KeepsX.onDie h (fun _ h1 => Keeps.vdm h1)

theorem Keeps.onSpdm {s t : State} {a0 : Initiator} {a2 : State → State} (h : Keeps s t)
    (k2 : ∀ y0, Keeps s y0 → Keeps s (a2 y0)) :
    KeepsX s (Machine.onSpdm a0 t a2) := by
  unfold Machine.onSpdm
  exact KeepsX.onDie h (fun _ h1 => Keeps.ite (fun _ => k2 _ h1) (fun _ => h1))

theorem Keeps.spdm {s t : State} {a1 : Initiator} {a2 : Nat} {a3 : Bytes} (h : Keeps s t) :
    Keeps s (State.spdm t a1 a2 a3) := by
  unfold State.spdm
  exact Keeps.emit h

theorem Keeps.spdmError {s t : State} {a1 : Initiator} {a2 a3 : Nat} (h : Keeps s t) :
    Keeps s (State.spdmError t a1 a2 a3) := by
  unfold State.spdmError
  exact Keeps.spdm h

theorem Keeps.agree {s t : State} {a1 : Initiator} {a2 : Nat} (h : Keeps s t) :
    Keeps s (State.agree t a1 a2) := by
  unfold State.agree
  exact Keeps.upd h

theorem Keeps.spdmAfter {s t : State} {a1 : Initiator} {a2 : Nat} {a3 : State → State} (h : Keeps s t)
    (k3 : ∀ y0, Keeps s y0 → Keeps s (a3 y0)) :
    Keeps s (State.spdmAfter t a1 a2 a3) := by
  unfold State.spdmAfter
  exact Keeps.ite (fun _ => Keeps.spdmError h) (fun _ => k3 _ h)

theorem Keeps.freeBytes {s t : State} {a1 : Nat} (h : Keeps s t) :
    Keeps s (State.freeBytes t a1).2 := by
  unfold State.freeBytes
  split
  · rename_i e1_0
    have h1 : Keeps s _ := Keeps.eq2 e1_0 (Keeps.draw h)
    exact Keeps.pr2 h1

theorem Keeps.execGetVersion {s t : State} {a0 : Initiator} (h : Keeps s t) :
    KeepsX s (Machine.execGetVersion a0 t) := by
  unfold Machine.execGetVersion
  exact Keeps.onSpdm h (fun _ h1 => Keeps.spdm (Keeps.agree h1))

theorem Keeps.execGetCapabilities {s t : State} {a0 : Initiator} (h : Keeps s t) :
    KeepsX s (Machine.execGetCapabilities a0 t) := by
  unfold Machine.execGetCapabilities
  exact Keeps.onSpdm h (fun _ h1 => Keeps.spdmAfter h1 (fun _ h2 => Keeps.spdm (Keeps.agree h2)))

theorem Keeps.execNegotiateAlgorithms {s t : State} {a0 : Initiator} (h : Keeps s t) :
    KeepsX s (Machine.execNegotiateAlgorithms a0 t) := by
  unfold Machine.execNegotiateAlgorithms
  exact Keeps.onSpdm h (fun _ h1 => Keeps.spdmAfter h1 (fun _ h2 => Keeps.spdm (Keeps.agree h2)))

theorem Keeps.execGetDigests {s t : State} {a0 : Initiator} (h : Keeps s t) :
    KeepsX s (Machine.execGetDigests a0 t) := by
  unfold Machine.execGetDigests
  exact Keeps.onSpdm h (fun _ h1 => Keeps.spdmAfter h1 (fun _ h2 => Keeps.spdm h2))

theorem Keeps.execGetCertificate {s t : State} {a0 : Initiator} {a1 a2 : BitVec 16} (h : Keeps s t) :
    KeepsX s (Machine.execGetCertificate a0 a1 a2 t) := by
  unfold Machine.execGetCertificate
  exact Keeps.onSpdm h (fun _ h1 => Keeps.spdmAfter h1 (fun _ h2 => by
    extract_lets +onlyGivenNames -underBinder -merge x3
    exact Keeps.spdm h2))

theorem Keeps.execChallenge {s t : State} {a0 : Initiator} {a1 : BitVec 256} (h : Keeps s t) :
    KeepsX s (Machine.execChallenge a0 a1 t) := by
  unfold Machine.execChallenge
  exact Keeps.onSpdm h (fun _ h1 => Keeps.spdmAfter h1 (fun _ h2 => by
    extract_lets +onlyGivenNames -underBinder -merge x3
    split
    · rename_i e4_0
      have h4 : Keeps s _ := Keeps.eq2 e4_0 (Keeps.freeBytes h2)
      split
      · rename_i e5_0
        have h5 : Keeps s _ := Keeps.eq2 e5_0 (Keeps.freeBytes h4)
        exact Keeps.spdm h5))

theorem Keeps.execGetMeasurements {s t : State} {a0 : Initiator} {a1 : BitVec 8} (h : Keeps s t) :
    KeepsX s (Machine.execGetMeasurements a0 a1 t) := by
  unfold Machine.execGetMeasurements
  exact Keeps.onSpdm h (fun _ h1 => Keeps.spdmAfter h1 (fun _ h2 => by
    extract_lets +onlyGivenNames -underBinder -merge x3 x4
    refine Keeps.ite (fun _ => ?_) (fun _ => ?_)
    · exact Keeps.spdmError h2
    · split
      · rename_i e5_0
        have h5 : Keeps s _ := Keeps.eq2 e5_0 (Keeps.freeBytes h2)
        exact Keeps.spdm h5))

theorem Keeps.execKeyExchange {s t : State} {a0 : Initiator} {a1 : BitVec 32} {a2 : Option Bytes} (h : Keeps s t) :
    KeepsX s (Machine.execKeyExchange a0 a1 a2 t) := by
  unfold Machine.execKeyExchange
  exact Keeps.onSpdm h (fun _ h1 => Keeps.spdmAfter h1 (fun _ h2 => by
    refine Keeps.ite (fun _ => ?_) (fun _ => ?_)
    · exact Keeps.spdmError h2
    · refine Keeps.ite (fun _ => ?_) (fun _ => ?_)
      · exact Keeps.spdmError h2
      · extract_lets +onlyGivenNames -underBinder -merge x3
        extract_lets +onlyGivenNames -underBinder -merge x4 x5
        have h5 : Keeps s x5 := Keeps.upd h2
        try clear_value x5
        split
        · rename_i e6_0
          have h6 : Keeps s _ := Keeps.eq2 e6_0 (Keeps.freeBytes h5)
          split
          · rename_i e7_0
            have h7 : Keeps s _ := Keeps.eq2 e7_0 (Keeps.freeBytes h6)
            exact Keeps.spdm h7))

theorem Keeps.inSession {s t : State} {a1 : Initiator} {a2 : Nat} {a3 : Bool} {a4 : Session → Option Session} {a5 : Nat} (h : Keeps s t) :
    Keeps s (State.inSession t a1 a2 a3 a4 a5) := by
  unfold State.inSession
  split
  · exact Keeps.spdmError h
  · extract_lets +onlyGivenNames -underBinder -merge x1
    exact Keeps.spdm (Keeps.upd h)

theorem Keeps.execFinish {s t : State} {a0 : Initiator} {a1 : BitVec 32} {a2 : Bool} (h : Keeps s t) :
    KeepsX s (Machine.execFinish a0 a1 a2 t) := by
  unfold Machine.execFinish
  exact Keeps.onSpdm h (fun _ h1 => by
    refine Keeps.ite (fun _ => ?_) (fun _ => ?_)
    · exact Keeps.inSession h1
    · extract_lets +onlyGivenNames -underBinder -merge x2
      exact Keeps.spdmError (Keeps.upd h1))

theorem Keeps.execKeyUpdate {s t : State} {a0 : Initiator} {a1 : BitVec 32} (h : Keeps s t) :
    KeepsX s (Machine.execKeyUpdate a0 a1 t) := by
  unfold Machine.execKeyUpdate
  exact Keeps.onSpdm h (fun _ h1 => Keeps.inSession h1)

theorem Keeps.execHeartbeat {s t : State} {a0 : Initiator} {a1 : BitVec 32} (h : Keeps s t) :
    KeepsX s (Machine.execHeartbeat a0 a1 t) := by
  unfold Machine.execHeartbeat
  exact Keeps.onSpdm h (fun _ h1 => Keeps.inSession h1)

theorem Keeps.execEndSession {s t : State} {a0 : Initiator} {a1 : BitVec 32} (h : Keeps s t) :
    KeepsX s (Machine.execEndSession a0 a1 t) := by
  unfold Machine.execEndSession
  exact Keeps.onSpdm h (fun _ h1 => Keeps.inSession h1)

theorem Keeps.execSpdmUnsupported {s t : State} {a0 : Initiator} {a1 : BitVec 8} (h : Keeps s t) :
    KeepsX s (Machine.execSpdmUnsupported a0 a1 t) := by
  unfold Machine.execSpdmUnsupported
  exact Keeps.onSpdm h (fun _ h1 => Keeps.spdmError h1)

theorem Keeps.shift {s t : State} {a1 a2 : Nat} (h : Keeps s t) :
    Keeps s (State.shift t a1 a2) := by
  unfold State.shift
  exact Keeps.emit (Keeps.upd h)

theorem Keeps.bypass {s t : State} (h : Keeps s t) :
    Keeps s (State.bypass t) := by
  unfold State.bypass
  exact Keeps.shift h

theorem Keeps.execIdcode {s t : State} (h : Keeps s t) :
    KeepsX s (Machine.execIdcode t) := by
  unfold Machine.execIdcode
  exact KeepsX.onTap h (fun _ h1 => Keeps.shift h1)

theorem Keeps.execSamplePreload {s t : State} (h : Keeps s t) :
    KeepsX s (Machine.execSamplePreload t) := by
  unfold Machine.execSamplePreload
  exact KeepsX.onTap h (fun _ h1 => by
    split
    · rename_i e2_0
      have h2 : Keeps s _ := Keeps.eq2 e2_0 (Keeps.draw h1)
      exact Keeps.shift h2)

theorem Keeps.execExtest {s t : State} {a0 : BitVec 64} (h : Keeps s t) :
    KeepsX s (Machine.execExtest a0 t) := by
  unfold Machine.execExtest
  exact KeepsX.onTap h (fun _ h1 => by
    refine Keeps.ite (fun _ => ?_) (fun _ => ?_)
    · exact Keeps.bypass h1
    · split
      · rename_i e2_0
        have h2 : Keeps s _ := Keeps.eq2 e2_0 (Keeps.draw h1)
        exact Keeps.shift (Keeps.upd h2))

theorem Keeps.execNonce {s t : State} (h : Keeps s t) :
    KeepsX s (Machine.execNonce t) := by
  unfold Machine.execNonce
  exact KeepsX.onTap h (fun _ h1 => Keeps.shift h1)

theorem Keeps.execDbgstat {s t : State} (h : Keeps s t) :
    KeepsX s (Machine.execDbgstat t) := by
  unfold Machine.execDbgstat
  exact KeepsX.onTap h (fun _ h1 => Keeps.shift h1)

theorem Keeps.execBypass {s t : State} {a0 : BitVec 6} (h : Keeps s t) :
    KeepsX s (Machine.execBypass a0 t) := by
  unfold Machine.execBypass
  exact KeepsX.onTap h (fun _ h1 => by
    extract_lets +onlyGivenNames -underBinder -merge x2
    exact Keeps.bypass h1)

theorem Keeps.openSession {s t : State} {a1 : Nat} (h : Keeps s t) :
    Keeps s (State.openSession t a1) := by
  unfold State.openSession
  extract_lets +onlyGivenNames -underBinder -merge x1
  have h1 : Keeps s x1 := Keeps.newKt (Keeps.set (Keeps.bump h))
  try clear_value x1
  refine Keeps.ite (fun _ => ?_) (fun _ => ?_)
  · exact Keeps.wr (by
        extract_lets +onlyGivenNames -underBinder -merge x2
        have h2 : Keeps s x2 := Keeps.clearWarm (Keeps.cutWrites h1)
        try clear_value x2
        exact Keeps.upd h2)
  · extract_lets +onlyGivenNames -underBinder -merge x3
    have h3 : Keeps s x3 := Keeps.wr h1
    try clear_value x3
    extract_lets +onlyGivenNames -underBinder -merge x4
    have h4 : Keeps s x4 := Keeps.wr h3
    try clear_value x4
    exact Keeps.retarget h4

theorem Keeps.takeToken {s t : State} {a1 : Bytes} (h : Keeps s t) :
    Keeps s (State.takeToken t a1) := by
  unfold State.takeToken
  extract_lets +onlyGivenNames -underBinder -merge x1
  refine Keeps.ite (fun _ => ?_) (fun _ => ?_)
  · exact Keeps.newNonce (Keeps.violate h)
  · refine Keeps.ite (fun _ => ?_) (fun _ => ?_)
    · exact Keeps.newNonce (Keeps.closeSession h)
    · extract_lets +onlyGivenNames -underBinder -merge x2
      have h2 : Keeps s x2 := Keeps.ite (fun _ => Keeps.sessionEnded h) (fun _ => Keeps.closeSession h)
      try clear_value x2
      exact Keeps.newNonce (Keeps.openSession h2)

theorem Keeps.execToken {s t : State} {a0 : Bytes} (h : Keeps s t) :
    KeepsX s (Machine.execToken a0 t) := by
  unfold Machine.execToken
  exact KeepsX.onTap h (fun _ h1 => Keeps.takeToken (Keeps.shift h1))

theorem Keeps.execTapReset {s t : State} (h : Keeps s t) :
    KeepsX s (Machine.execTapReset t) := by
  unfold Machine.execTapReset
  exact KeepsX.onTap h (fun _ h1 => Keeps.closeSession (Keeps.upd h1))

theorem Keeps.writeDbg {s t : State} {a1 : Initiator} {a2 a3 : Nat} (h : Keeps s t) :
    Keeps s (State.writeDbg t a1 a2 a3) := by
  unfold State.writeDbg
  exact Keeps.ite (fun _ => Keeps.when h (fun _ h1 => Keeps.closeSession h1)) (fun _ => Keeps.writeWord h)

theorem Keeps.execClose {s t : State} {a0 : Initiator} (h : Keeps s t) :
    KeepsX s (Machine.execClose a0 t) := by
  unfold Machine.execClose
  exact KeepsX.onDie h (fun _ h1 => Keeps.barWrite h1 (fun _ h2 => Keeps.writeDbg h2))

theorem Keeps.dmcontrol {s t : State} {a1 : Nat} (h : Keeps s t) :
    Keeps s (State.dmcontrol t a1) := by
  unfold State.dmcontrol
  extract_lets +onlyGivenNames -underBinder -merge x1 x2
  refine Keeps.ite (fun _ => ?_) (fun _ => ?_)
  · exact h
  · extract_lets +onlyGivenNames -underBinder -merge x3
    exact Keeps.wdtPause (Keeps.upd h)

theorem Keeps.execDtm {s t : State} {a0 : BitVec 64} (h : Keeps s t) :
    KeepsX s (Machine.execDtm a0 t) := by
  unfold Machine.execDtm
  exact KeepsX.onTap h (fun _ h1 => by
    refine Keeps.ite (fun _ => ?_) (fun _ => ?_)
    · exact Keeps.bypass h1
    · extract_lets +onlyGivenNames -underBinder -merge x2
      split
      · rename_i e3_0
        have h3 : Keeps s _ := Keeps.eq2 e3_0 (Keeps.draw h1)
        extract_lets +onlyGivenNames -underBinder -merge x4
        have h4 : Keeps s x4 := Keeps.ite (fun _ => Keeps.dmcontrol h3) (fun _ => h3)
        try clear_value x4
        exact Keeps.shift h4)

theorem Keeps.execScanChains {s t : State} {a0 : BitVec 64} (h : Keeps s t) :
    KeepsX s (Machine.execScanChains a0 t) := by
  unfold Machine.execScanChains
  exact KeepsX.onTap h (fun _ h1 => by
    refine Keeps.ite (fun _ => ?_) (fun _ => ?_)
    · exact Keeps.bypass h1
    · split
      · rename_i e2_0
        have h2 : Keeps s _ := Keeps.eq2 e2_0 (Keeps.draw h1)
        extract_lets +onlyGivenNames -underBinder -merge x3
        exact Keeps.shift h2)

theorem Keeps.sramMapLine {s t : State} {a1 : Bool} {a2 : Nat} (h : Keeps s t) :
    Keeps s (State.sramMapLine t a1 a2) := by
  unfold State.sramMapLine
  extract_lets +onlyGivenNames -underBinder -merge x1
  split
  · exact h
  · refine Keeps.ite (fun _ => ?_) (fun _ => ?_)
    · split
      · exact h
      · exact Keeps.postMa h
    · refine Keeps.ite (fun _ => ?_) (fun _ => ?_)
      · exact Keeps.putTwin h
      · extract_lets +onlyGivenNames -underBinder -merge x2
        exact Keeps.upd h

theorem Keeps.sramGalLine {s t : State} {a1 a2 a3 : Nat} (h : Keeps s t) :
    Keeps s (State.sramGalLine t a1 a2 a3) := by
  unfold State.sramGalLine
  extract_lets +onlyGivenNames -underBinder -merge x1
  exact Keeps.ite (fun _ => Keeps.setAg h) (fun _ => h)

theorem Keeps.sramHard {s t : State} {a1 : SramSite} {a2 : BadRow} (h : Keeps s t) :
    Keeps s (State.sramHard t a1 a2) := by
  unfold State.sramHard
  split
  · split
    · exact Keeps.fatalAll h
    · extract_lets +onlyGivenNames -underBinder -merge x1
      have h1 : Keeps s x1 := Keeps.record h
      try clear_value x1
      split
      · exact Keeps.sramMapLine h1
      · exact Keeps.sramGalLine h1
      · exact Keeps.cwkDown h1
      · exact Keeps.qReset h1
      · extract_lets +onlyGivenNames -underBinder -merge x2
        extract_lets +onlyGivenNames -underBinder -merge x3
        have h3 : Keeps s x3 := Keeps.upd h1
        try clear_value x3
        exact Keeps.clear (Keeps.clear h3)
      · exact Keeps.clear h1
      · exact h1

theorem Keeps.execSramError {s t : State} {a0 : Bool} {a1 : SramSite} {a2 : BadRow} (h : Keeps s t) :
    KeepsX s (Machine.execSramError a0 a1 a2 t) := by
  unfold Machine.execSramError
  exact KeepsX.onDie h (fun _ h1 => Keeps.ite (fun _ => Keeps.sramHard h1) (fun _ => Keeps.record h1))

theorem Keeps.decodeLost {s t : State} {a1 a2 : Nat} {a3 : TT} {a4 : MapReq} (h : Keeps s t) :
    Keeps s (State.decodeLost t a1 a2 a3 a4) := by
  unfold State.decodeLost
  extract_lets +onlyGivenNames -underBinder -merge x1
  have h1 : Keeps s x1 := Keeps.readDone (Keeps.dropReq h)
  try clear_value x1
  extract_lets +onlyGivenNames -underBinder -merge x2
  exact Keeps.ite (fun _ => Keeps.tryClose (Keeps.setTT h1)) (fun _ => Keeps.tryClose (Keeps.settle (Keeps.failEvent h1)))

theorem Keeps.suspectGal {s t : State} {a1 : Nat} (h : Keeps s t) :
    Keeps s (State.suspectGal t a1) := by
  unfold State.suspectGal
  extract_lets +onlyGivenNames -underBinder -merge x1
  have h1 : Keeps s x1 := Keeps.wrBit h
  try clear_value x1
  extract_lets +onlyGivenNames -underBinder -merge x2
  exact Keeps.ite (fun _ => h1) (fun _ => Keeps.forEach (Keeps.onDom h1) (fun _ _ h3 => Keeps.blkDecode h3))

theorem Keeps.execDecodeTimeout {s t : State} {a0 : Fin 16} {a1 : BitVec 8} (h : Keeps s t) :
    KeepsX s (Machine.execDecodeTimeout a0 a1 t) := by
  unfold Machine.execDecodeTimeout
  exact KeepsX.onDie h (fun _ h1 => by
    split
    · refine Keeps.ite (fun _ => ?_) (fun _ => ?_)
      · exact h1
      · split
        · exact h1
        · extract_lets +onlyGivenNames -underBinder -merge x2
          extract_lets +onlyGivenNames -underBinder -merge x3
          have h3 : Keeps s x3 := Keeps.suspectGal (Keeps.record h1)
          try clear_value x3
          exact Keeps.ite (fun _ => Keeps.decodeLost h3) (fun _ => h3)
    · exact h1)

theorem Keeps.writeRas {s t : State} {a1 : Initiator} {a2 a3 : Nat} (h : Keeps s t) :
    Keeps s (State.writeRas t a1 a2 a3) := by
  unfold State.writeRas
  exact Keeps.ite (fun _ => Keeps.writeWord h) (fun _ => Keeps.writeWord h)

end Sys2Proof.Machine
end

