-- ==== Sys2Proof/Laws/KeepsJobsToLdReset.lean ====
section
/-!
SUPPORT. What the operations and meanings of Jobs, Bar0, LdReset keep (Laws/Keeps).
-/

namespace Sys2Proof.Machine

theorem Keeps.countEncode {s t : State} {a1 : Nat} {a2 : Encoded} (h : Keeps s t) :
    Keeps s (State.countEncode t a1 a2) := by
  unfold State.countEncode
  extract_lets +onlyGivenNames -underBinder -merge x1 x2
  have h2 : Keeps s x2 := Keeps.counts (Keeps.counts (Keeps.bump (Keeps.bump h)))
  try clear_value x2
  extract_lets +onlyGivenNames -underBinder -merge x3
  have h3 : Keeps s x3 := by
    unfold x3
    split
    · exact Keeps.bump h2
    · exact Keeps.bump h2
    · exact Keeps.bump h2
    · exact h2
  try clear_value x3
  exact Keeps.forEach h3 (fun _ _ h4 => Keeps.bump h4)

theorem Keeps.encodeBlock {s t : State} {a1 a2 a3 : Nat} {a4 : Bool} {a5 : Bytes} (h : Keeps s t) :
    Keeps s (State.encodeBlock t a1 a2 a3 a4 a5).2 := by
  unfold State.encodeBlock
  extract_lets +onlyGivenNames -underBinder -merge x1
  split
  · extract_lets +onlyGivenNames -underBinder -merge x2
    exact Keeps.pr2 (Keeps.record (Keeps.bump (Keeps.countEncode h)))
  · exact Keeps.pr2 (Keeps.countEncode h)

theorem Keeps.jobWait {s t : State} {a1 : Nat} {a2 : Job} (h : Keeps s t) :
    Keeps s (State.jobWait t a1 a2).1 := by
  unfold State.jobWait
  exact Keeps.pr1 (Keeps.setJob h)

theorem Keeps.jobEnd {s t : State} {a1 : Nat} {a2 : Job} {a3 a4 : Nat} (h : Keeps s t) :
    Keeps s (State.jobEnd t a1 a2 a3 a4).1 := by
  unfold State.jobEnd
  exact Keeps.pr1 (Keeps.endJob h)

theorem Keeps.jobNext {s t : State} {a1 : Nat} {a2 : Job} (h : Keeps s t) :
    Keeps s (State.jobNext t a1 a2).1 := by
  unfold State.jobNext
  exact Keeps.pr1 (Keeps.setJob h)

theorem Keeps.jobPut {s t : State} {a1 : Nat} {a2 : Job} {a3 : Nat} {a4 : Job → Job} (h : Keeps s t) :
    Keeps s (State.jobPut t a1 a2 a3 a4).1 := by
  unfold State.jobPut
  extract_lets +onlyGivenNames -underBinder -merge x1 x2
  split
  · rename_i e3_0
    have h3 : Keeps s _ := Keeps.eq22 e3_0 (Keeps.jobStore h)
    exact Keeps.jobEnd h3
  · rename_i e4_0
    have h4 : Keeps s _ := Keeps.eq22 e4_0 (Keeps.jobStore h)
    exact Keeps.jobWait h4
  · rename_i e5_0
    have h5 : Keeps s _ := Keeps.eq22 e5_0 (Keeps.jobStore h)
    exact Keeps.jobNext h5

theorem Keeps.jobGet {s t : State} {a1 : Nat} {a2 : Job} {a3 a4 : Nat} (h : Keeps s t) :
    Keeps s (State.jobGet t a1 a2 a3 a4).1 := by
  unfold State.jobGet
  split
  · rename_i e1_0
    have h1 : Keeps s _ := Keeps.eq22 e1_0 (Keeps.jobFetch h)
    exact Keeps.jobEnd h1
  · rename_i e2_0
    have h2 : Keeps s _ := Keeps.eq22 e2_0 (Keeps.jobFetch h)
    exact Keeps.jobWait h2
  · rename_i e3_0
    have h3 : Keeps s _ := Keeps.eq22 e3_0 (Keeps.jobFetch h)
    extract_lets +onlyGivenNames -underBinder -merge x4
    split
    · exact Keeps.jobEnd h3
    · exact Keeps.jobNext h3

theorem Keeps.copyUnit {s t : State} {a1 : Nat} {a2 : Job} (h : Keeps s t) :
    Keeps s (Machine.copyUnit t a1 a2).1 := by
  unfold Machine.copyUnit
  split
  · exact Keeps.jobEnd h
  · split
    · rename_i e1_0
      have h1 : Keeps s _ := Keeps.eq22 e1_0 (Keeps.jobFetch h)
      exact Keeps.jobEnd h1
    · rename_i e2_0
      have h2 : Keeps s _ := Keeps.eq22 e2_0 (Keeps.jobFetch h)
      exact Keeps.jobWait h2
    · rename_i e3_0
      have h3 : Keeps s _ := Keeps.eq22 e3_0 (Keeps.jobFetch h)
      split
      · rename_i e4_0
        have h4 : Keeps s _ := Keeps.eq22 e4_0 (Keeps.jobStore h3)
        exact Keeps.jobEnd h4
      · rename_i e5_0
        have h5 : Keeps s _ := Keeps.eq22 e5_0 (Keeps.jobStore h3)
        exact Keeps.jobWait h5
      · rename_i e6_0
        have h6 : Keeps s _ := Keeps.eq22 e6_0 (Keeps.jobStore h3)
        exact Keeps.jobNext h6

theorem Keeps.fillUnit {s t : State} {a1 : Nat} {a2 : Job} (h : Keeps s t) :
    Keeps s (Machine.fillUnit t a1 a2).1 := by
  unfold Machine.fillUnit
  split
  · exact Keeps.jobEnd h
  · extract_lets +onlyGivenNames -underBinder -merge x1
    split
    · rename_i e2_0
      have h2 : Keeps s _ := Keeps.eq22 e2_0 (Keeps.jobStore h)
      exact Keeps.jobEnd h2
    · rename_i e3_0
      have h3 : Keeps s _ := Keeps.eq22 e3_0 (Keeps.jobStore h)
      exact Keeps.jobWait h3
    · rename_i e4_0
      have h4 : Keeps s _ := Keeps.eq22 e4_0 (Keeps.jobStore h)
      exact Keeps.jobNext h4

theorem Keeps.examine {s t : State} {a0 : Job → Line → Job} {a1 : Job → Job} {a3 : Nat} {a4 : Job} (h : Keeps s t) :
    Keeps s (Machine.examine a0 a1 t a3 a4).1 := by
  unfold Machine.examine
  split
  · exact Keeps.jobEnd h
  · split
    · rename_i e1_0
      have h1 : Keeps s _ := Keeps.eq22 e1_0 (Keeps.jobFetch h)
      exact Keeps.jobEnd h1
    · rename_i e2_0
      have h2 : Keeps s _ := Keeps.eq22 e2_0 (Keeps.jobFetch h)
      exact Keeps.jobWait h2
    · rename_i e3_0
      have h3 : Keeps s _ := Keeps.eq22 e3_0 (Keeps.jobFetch h)
      extract_lets +onlyGivenNames -underBinder -merge x4
      split
      · exact Keeps.jobEnd h3
      · extract_lets +onlyGivenNames -underBinder -merge x5
        extract_lets +onlyGivenNames -underBinder -merge x6
        split
        · exact Keeps.jobEnd h3
        · exact Keeps.jobNext h3

theorem Keeps.touchUnit {s t : State} {a1 : Nat} {a2 : Job} (h : Keeps s t) :
    Keeps s (Machine.touchUnit t a1 a2).1 := by
  unfold Machine.touchUnit
  split
  · exact Keeps.jobEnd h
  · split
    · exact Keeps.jobEnd h
    · extract_lets +onlyGivenNames -underBinder -merge x1
      extract_lets +onlyGivenNames -underBinder -merge x2 x3
      have h3 : Keeps s x3 := Keeps.when h (fun _ h4 => Keeps.agLoad h4)
      try clear_value x3
      split
      · exact Keeps.jobNext h3
      · split
        · exact Keeps.jobWait h3
        · exact Keeps.jobWait h3

theorem Keeps.twinhashUnit {s t : State} {a1 : Nat} {a2 : Job} (h : Keeps s t) :
    Keeps s (Machine.twinhashUnit t a1 a2).1 := by
  unfold Machine.twinhashUnit
  split
  · extract_lets +onlyGivenNames -underBinder -merge x1
    exact Keeps.jobEnd h
  · split
    · rename_i e2_0
      have h2 : Keeps s _ := Keeps.eq1 e2_0 (Keeps.jobGet h)
      split
      · split
        · exact Keeps.jobNext h2
        · exact Keeps.pr1 h2
      · exact Keeps.pr1 h2

theorem Keeps.encodeUnit {s t : State} {a1 : Nat} {a2 : Job} (h : Keeps s t) :
    Keeps s (Machine.encodeUnit t a1 a2).1 := by
  unfold Machine.encodeUnit
  split
  · exact Keeps.jobPut h
  · split
    · exact Keeps.jobEnd h
    · split
      · exact Keeps.jobGet h
      · split
        · rename_i e1_0
          have h1 : Keeps s _ := Keeps.eq2 e1_0 (Keeps.encodeBlock h)
          extract_lets +onlyGivenNames -underBinder -merge x2
          exact Keeps.jobNext h1

theorem Keeps.decodeUnit {s t : State} {a1 : Nat} {a2 : Job} (h : Keeps s t) :
    Keeps s (Machine.decodeUnit t a1 a2).1 := by
  unfold Machine.decodeUnit
  split
  · exact Keeps.jobPut h
  · split
    · exact Keeps.jobEnd h
    · split
      · exact Keeps.jobGet h
      · extract_lets +onlyGivenNames -underBinder -merge x1
        have h1 : Keeps s x1 := Keeps.countDec h
        try clear_value x1
        split
        · exact Keeps.jobNext h1
        · exact Keeps.jobEnd (Keeps.treadFail h1)

theorem Keeps.aesUnitBytes {s t : State} {a1 : Job} {a2 : Bool} {a3 : Nat} {a4 : Bytes} (h : Keeps s t) :
    Keeps s (State.aesUnitBytes t a1 a2 a3 a4).2 := by
  unfold State.aesUnitBytes
  split
  · split
    · rename_i e1_0
      have h1 : Keeps s _ := Keeps.eq2 e1_0 (Keeps.draw h)
      exact Keeps.pr2 h1
  · extract_lets +onlyGivenNames -underBinder -merge x2
    extract_lets +onlyGivenNames -underBinder -merge x3 x4
    exact Keeps.pr2 h

theorem Keeps.aesJobUnit {s t : State} {a0 : Bool} {a2 : Nat} {a3 : Job} (h : Keeps s t) :
    Keeps s (Machine.aesJobUnit a0 t a2 a3).1 := by
  unfold Machine.aesJobUnit
  extract_lets +onlyGivenNames -underBinder -merge x1 x2 x3 x4
  split
  · exact Keeps.jobPut h
  · split
    · exact Keeps.jobEnd h
    · split
      · exact Keeps.jobGet h
      · split
        · exact Keeps.jobEnd (Keeps.emptyUse h)
        · split
          · rename_i e5_0
            have h5 : Keeps s _ := Keeps.eq2 e5_0 (Keeps.aesUnitBytes h)
            exact Keeps.jobNext h5

theorem Keeps.execCopy {s t : State} {a0 a1 : Fin 16} {a2 : BitVec 16} (h : Keeps s t) :
    KeepsX s (Machine.execCopy a0 a1 a2 t) := by
  unfold Machine.execCopy
  exact KeepsX.onDie h (fun _ h1 => Keeps.jobRow h1 (fun _ _ _ h2 => Keeps.copyUnit h2))

theorem Keeps.execFill {s t : State} {a0 a1 : Fin 16} {a2 : BitVec 16} (h : Keeps s t) :
    KeepsX s (Machine.execFill a0 a1 a2 t) := by
  unfold Machine.execFill
  exact KeepsX.onDie h (fun _ h1 => Keeps.jobRow h1 (fun _ _ _ h2 => Keeps.fillUnit h2))

theorem Keeps.execZdetect {s t : State} {a0 a1 : Fin 16} {a2 : BitVec 16} (h : Keeps s t) :
    KeepsX s (Machine.execZdetect a0 a1 a2 t) := by
  unfold Machine.execZdetect
  exact KeepsX.onDie h (fun _ h1 => Keeps.jobRow h1 (fun _ _ _ h2 => Keeps.examine h2))

theorem Keeps.execCrc {s t : State} {a0 a1 : Fin 16} {a2 : BitVec 16} (h : Keeps s t) :
    KeepsX s (Machine.execCrc a0 a1 a2 t) := by
  unfold Machine.execCrc
  exact KeepsX.onDie h (fun _ h1 => Keeps.jobRow h1 (fun _ _ _ h2 => Keeps.examine h2))

theorem Keeps.execScan {s t : State} {a0 a1 : Fin 16} {a2 : BitVec 16} (h : Keeps s t) :
    KeepsX s (Machine.execScan a0 a1 a2 t) := by
  unfold Machine.execScan
  exact KeepsX.onDie h (fun _ h1 => Keeps.jobRow h1 (fun _ _ _ h2 => Keeps.examine h2))

theorem Keeps.execTouch {s t : State} {a0 a1 : Fin 16} {a2 : BitVec 16} (h : Keeps s t) :
    KeepsX s (Machine.execTouch a0 a1 a2 t) := by
  unfold Machine.execTouch
  exact KeepsX.onDie h (fun _ h1 => Keeps.jobRow h1 (fun _ _ _ h2 => Keeps.touchUnit h2))

theorem Keeps.execTwinhash {s t : State} {a0 a1 : Fin 16} {a2 : BitVec 16} (h : Keeps s t) :
    KeepsX s (Machine.execTwinhash a0 a1 a2 t) := by
  unfold Machine.execTwinhash
  exact KeepsX.onDie h (fun _ h1 => Keeps.jobRow h1 (fun _ _ _ h2 => Keeps.twinhashUnit h2))

theorem Keeps.execEncode {s t : State} {a0 a1 : Fin 16} {a2 : BitVec 16} (h : Keeps s t) :
    KeepsX s (Machine.execEncode a0 a1 a2 t) := by
  unfold Machine.execEncode
  exact KeepsX.onDie h (fun _ h1 => Keeps.jobRow h1 (fun _ _ _ h2 => Keeps.encodeUnit h2))

theorem Keeps.execDecode {s t : State} {a0 a1 : Fin 16} {a2 : BitVec 16} (h : Keeps s t) :
    KeepsX s (Machine.execDecode a0 a1 a2 t) := by
  unfold Machine.execDecode
  exact KeepsX.onDie h (fun _ h1 => Keeps.jobRow h1 (fun _ _ _ h2 => Keeps.decodeUnit h2))

theorem Keeps.execAesEnc {s t : State} {a0 a1 : Fin 16} {a2 : BitVec 16} (h : Keeps s t) :
    KeepsX s (Machine.execAesEnc a0 a1 a2 t) := by
  unfold Machine.execAesEnc
  exact KeepsX.onDie h (fun _ h1 => Keeps.jobRow h1 (fun _ _ _ h2 => Keeps.aesJobUnit h2))

theorem Keeps.execAesDec {s t : State} {a0 a1 : Fin 16} {a2 : BitVec 16} (h : Keeps s t) :
    KeepsX s (Machine.execAesDec a0 a1 a2 t) := by
  unfold Machine.execAesDec
  exact KeepsX.onDie h (fun _ h1 => Keeps.jobRow h1 (fun _ _ _ h2 => Keeps.aesJobUnit h2))

theorem Keeps.latest {s t : State} {a1 : Nat} (h : Keeps s t) :
    Keeps s (State.latest t a1) := by
  unfold State.latest
  split
  · split
    · exact Keeps.showDom h
    · split
      · exact Keeps.showOld h
      · exact h
  · exact Keeps.ite (fun _ => Keeps.showMaster h) (fun _ => h)
  · split
    · exact Keeps.showMeas h
    · exact h
  · split
    · exact Keeps.wr h
    · exact h
  · split
    · exact Keeps.wr h
    · exact h
  · exact h

theorem Keeps.show {s t : State} {a1 : Nat} (h : Keeps s t) :
    Keeps s (State.show t a1).2 := by
  unfold State.show
  split
  · extract_lets +onlyGivenNames -underBinder -merge x1
    have h1 : Keeps s x1 := Keeps.latest h
    try clear_value x1
    exact Keeps.pr2 h1
  · exact Keeps.pr2 h

theorem Keeps.readWhole {s t : State} {a1 : Initiator} {a2 : Nat} (h : Keeps s t) :
    Keeps s (State.readWhole t a1 a2).2 := by
  unfold State.readWhole
  extract_lets +onlyGivenNames -underBinder -merge x1
  have h1 : Keeps s x1 := Keeps.dropHalves h
  try clear_value x1
  split
  · rename_i e2_0
    have h2 : Keeps s _ := Keeps.eq2 e2_0 (Keeps.show h1)
    exact Keeps.pr2 (Keeps.readClear h2)

theorem Keeps.readLower {s t : State} {a1 : Initiator} {a2 : Nat} (h : Keeps s t) :
    Keeps s (State.readLower t a1 a2).2 := by
  unfold State.readLower
  extract_lets +onlyGivenNames -underBinder -merge x1
  have h1 : Keeps s x1 := Keeps.dropHalves h
  try clear_value x1
  split
  · rename_i e2_0
    have h2 : Keeps s _ := Keeps.eq2 e2_0 (Keeps.show h1)
    extract_lets +onlyGivenNames -underBinder -merge x3
    have h3 : Keeps s x3 := Keeps.readClear h2
    try clear_value x3
    exact Keeps.pr2 (Keeps.upd h3)

theorem Keeps.readUpper {s t : State} {a1 : Initiator} {a2 : Nat} (h : Keeps s t) :
    Keeps s (State.readUpper t a1 a2).2 := by
  unfold State.readUpper
  extract_lets +onlyGivenNames -underBinder -merge x1
  try clear_value x1
  extract_lets +onlyGivenNames -underBinder -merge x2
  have h2 : Keeps s x2 := Keeps.dropHalves h
  try clear_value x2
  split
  · exact Keeps.pr2 (Keeps.readClear h2)
  · split
    · rename_i e3_0
      have h3 : Keeps s _ := Keeps.eq2 e3_0 (Keeps.show h2)
      exact Keeps.pr2 (Keeps.readClear h3)

theorem Keeps.readAccess {s t : State} {a1 : Initiator} {a2 a3 : Nat} (h : Keeps s t) :
    Keeps s (State.readAccess t a1 a2 a3).2 := by
  unfold State.readAccess
  split
  · split
    · rename_i e1_0
      have h1 : Keeps s _ := Keeps.eq2 e1_0 (Keeps.access (Keeps.dropHalves h))
      exact Keeps.pr2 (Keeps.ite (fun _ => Keeps.hostPop h1) (fun _ => h1))
  · split
    · exact Keeps.pr2 (Keeps.dropHalves h)
    · split
      · rename_i e2_0
        have h2 : Keeps s _ := Keeps.eq2 e2_0 (Keeps.access h)
        extract_lets +onlyGivenNames -underBinder -merge x3
        split
        · exact Keeps.pr2 (Keeps.dropHalves h2)
        · split
          · exact Keeps.readWhole h2
          · split
            · exact Keeps.readLower h2
            · exact Keeps.readUpper h2

theorem Keeps.barRead {s t : State} {a1 : Initiator} {a2 a3 : Nat} (h : Keeps s t) :
    Keeps s (State.barRead t a1 a2 a3).2 := by
  unfold State.barRead
  split
  · rename_i e1_0
    have h1 : Keeps s _ := Keeps.eq2 e1_0 (Keeps.readAccess (Keeps.accessing h))
    exact Keeps.pr2 (Keeps.firstAccess h1)

theorem Keeps.writeGen {s t : State} {a1 : Initiator} {a2 a3 : Nat} (h : Keeps s t) :
    Keeps s (State.writeGen t a1 a2 a3) := by
  unfold State.writeGen
  exact Keeps.ite (fun _ => Keeps.genRst h) (fun _ => Keeps.ite (fun _ => h) (fun _ => Keeps.writeWord h))

theorem Keeps.writeReg {s t : State} {a1 : Initiator} {a2 a3 : Nat} (h : Keeps s t) :
    Keeps s (State.writeReg t a1 a2 a3) := by
  unfold State.writeReg
  refine Keeps.ite (fun _ => ?_) (fun _ => ?_)
  · exact h
  · split
    · exact Keeps.writeGen h
    · exact Keeps.writeStr h
    · exact Keeps.writeTim h
    · exact Keeps.writePrt h
    · exact Keeps.writeCwk h
    · exact Keeps.writeNoc h
    · exact Keeps.writeHom h
    · exact Keeps.writeMap h
    · exact Keeps.writeKey h
    · exact Keeps.writeDrc h
    · exact Keeps.writeGal h
    · exact Keeps.writeCrq h
    · exact Keeps.writeTst h
    · exact Keeps.writeCnt h
    · refine Keeps.ite (fun _ => ?_) (fun _ => ?_)
      · split
        · rename_i e1_0
          have h1 : Keeps s _ := Keeps.eq2 e1_0 (Keeps.draw h)
          exact Keeps.writeInl h1
      · exact Keeps.writePwr h
    · exact Keeps.writeSec h
    · exact Keeps.writeDbg h
    · exact Keeps.writeFwc h
    · exact Keeps.writeRas h
    · exact h

theorem Keeps.writeWhole {s t : State} {a1 : Initiator} {a2 a3 : Nat} (h : Keeps s t) :
    Keeps s (State.writeWhole t a1 a2 a3) := by
  unfold State.writeWhole
  exact Keeps.writeReg (Keeps.dropHalves h)

theorem Keeps.writeLower {s t : State} {a1 : Initiator} {a2 a3 : Nat} (h : Keeps s t) :
    Keeps s (State.writeLower t a1 a2 a3) := by
  unfold State.writeLower
  extract_lets +onlyGivenNames -underBinder -merge x1
  have h1 : Keeps s x1 := Keeps.dropHalves h
  try clear_value x1
  exact Keeps.ite (fun _ => Keeps.upd h1) (fun _ => Keeps.ite (fun _ => Keeps.writeReg h1) (fun _ => h1))

theorem Keeps.writeUpper {s t : State} {a1 : Initiator} {a2 a3 : Nat} (h : Keeps s t) :
    Keeps s (State.writeUpper t a1 a2 a3) := by
  unfold State.writeUpper
  extract_lets +onlyGivenNames -underBinder -merge x1
  try clear_value x1
  extract_lets +onlyGivenNames -underBinder -merge x2
  have h2 : Keeps s x2 := Keeps.dropHalves h
  try clear_value x2
  split
  · exact Keeps.writeReg h2
  · exact Keeps.ite (fun _ => Keeps.writeReg h2) (fun _ => h2)

theorem Keeps.writeAccess {s t : State} {a1 : Initiator} {a2 a3 a4 : Nat} (h : Keeps s t) :
    Keeps s (State.writeAccess t a1 a2 a3 a4) := by
  unfold State.writeAccess
  split
  · split
    · rename_i e1_0
      have h1 : Keeps s _ := Keeps.eq2 e1_0 (Keeps.access (Keeps.dropHalves h))
      exact Keeps.ite (fun _ => Keeps.writeCrq h1) (fun _ => h1)
  · refine Keeps.ite (fun _ => ?_) (fun _ => ?_)
    · exact Keeps.dropHalves h
    · split
      · rename_i e2_0
        have h2 : Keeps s _ := Keeps.eq2 e2_0 (Keeps.access h)
        extract_lets +onlyGivenNames -underBinder -merge x3
        exact Keeps.ite (fun _ => Keeps.dropHalves h2) (fun _ => Keeps.ite (fun _ => Keeps.writeWhole h2) (fun _ => Keeps.ite (fun _ => Keeps.writeLower h2) (fun _ => Keeps.writeUpper h2)))

theorem Keeps.barStore {s t : State} {a1 : Initiator} {a2 a3 a4 : Nat} (h : Keeps s t) :
    Keeps s (State.barStore t a1 a2 a3 a4) := by
  unfold State.barStore
  exact Keeps.firstAccess (Keeps.writeAccess (Keeps.accessing h))

theorem Keeps.execRegisterWrite {s t : State} {a0 : Initiator} {a1 : BitVec 26} {a2 : BitVec 64} (h : Keeps s t) :
    KeepsX s (Machine.execRegisterWrite a0 a1 a2 t) := by
  unfold Machine.execRegisterWrite
  exact KeepsX.onDie h (fun _ h1 => Keeps.barStore h1)

theorem Keeps.answerRead {s t : State} {a1 : Initiator} {a2 a3 : Nat} (h : Keeps s t) :
    Keeps s (State.answerRead t a1 a2 a3) := by
  unfold State.answerRead
  split
  · rename_i e1_0
    have h1 : Keeps s _ := Keeps.eq2 e1_0 (Keeps.barRead h)
    exact Keeps.emit h1

theorem Keeps.execRcRead {s t : State} {a0 : Initiator} {a1 : BitVec 26} {a2 : Bool} (h : Keeps s t) :
    KeepsX s (Machine.execRcRead a0 a1 a2 t) := by
  unfold Machine.execRcRead
  exact KeepsX.onDie h (fun _ h1 => Keeps.answerRead h1)

theorem Keeps.execHalfReadCapture {s t : State} {a0 : Initiator} {a1 : BitVec 26} (h : Keeps s t) :
    KeepsX s (Machine.execHalfReadCapture a0 a1 t) := by
  unfold Machine.execHalfReadCapture
  exact KeepsX.onDie h (fun _ h1 => Keeps.answerRead h1)

theorem Keeps.execLowerHalfWrite {s t : State} {a0 : Initiator} {a1 : BitVec 26} {a2 : BitVec 32} (h : Keeps s t) :
    KeepsX s (Machine.execLowerHalfWrite a0 a1 a2 t) := by
  unfold Machine.execLowerHalfWrite
  exact KeepsX.onDie h (fun _ h1 => Keeps.barStore h1)

theorem Keeps.execUpperHalfWrite {s t : State} {a0 : Initiator} {a1 : BitVec 26} {a2 : BitVec 32} (h : Keeps s t) :
    KeepsX s (Machine.execUpperHalfWrite a0 a1 a2 t) := by
  unfold Machine.execUpperHalfWrite
  exact KeepsX.onDie h (fun _ h1 => Keeps.barStore h1)

theorem Keeps.execBar0 {s t : State} {a0 : BitVec 92} (h : Keeps s t) :
    KeepsX s (Machine.execBar0 a0 t) := by
  unfold Machine.execBar0
  exact KeepsX.onTap h (fun _ h1 => by
    extract_lets +onlyGivenNames -underBinder -merge x2 x3 x4
    refine Keeps.ite (fun _ => ?_) (fun _ => ?_)
    · exact Keeps.shift (Keeps.barStore h1)
    · split
      · rename_i e5_0
        have h5 : Keeps s _ := Keeps.eq2 e5_0 (Keeps.barRead h1)
        exact Keeps.shift h5)

theorem Keeps.flrAll {s t : State} {a1 : Fin 64} (h : Keeps s t) :
    Keeps s (State.flrAll t a1) := by
  unfold State.flrAll
  exact Keeps.endCommands (Keeps.flrLd h)

theorem Keeps.execFlr {s t : State} {a0 : Fin 64} (h : Keeps s t) :
    KeepsX s (Machine.execFlr a0 t) := by
  unfold Machine.execFlr
  extract_lets +onlyGivenNames -underBinder -merge x1
  have h1 : Keeps s x1 := Keeps.onLd h
  try clear_value x1
  exact KeepsX.ite (fun _ => KeepsX.next h1) (fun _ => KeepsX.onDie h (fun _ h2 => by
      split
      · exact h2
      · exact Keeps.ite (fun _ => Keeps.flrAll h2) (fun _ => h1)))

theorem Keeps.execPortLinkUp {s t : State} {a0 : Fin 16} {a1 a2 : BitVec 3} {a3 : Bool} (h : Keeps s t) :
    KeepsX s (Machine.execPortLinkUp a0 a1 a2 a3 t) := by
  unfold Machine.execPortLinkUp
  exact KeepsX.onDie h (fun _ h1 => by
    extract_lets +onlyGivenNames -underBinder -merge x2
    have h2 : Keeps s x2 := Keeps.linkUp h1
    try clear_value x2
    extract_lets +onlyGivenNames -underBinder -merge x3
    exact Keeps.when h2 (fun _ h4 => Keeps.forEach h4 (fun _ _ h5 => Keeps.flrAll h5)))

theorem Keeps.resetGoes {s t : State} {a1 : Nat} (h : Keeps s t) :
    Keeps s (State.resetGoes t a1) := by
  unfold State.resetGoes
  split
  · refine Keeps.ite (fun _ => ?_) (fun _ => ?_)
    · exact h
    · refine Keeps.ite (fun _ => ?_) (fun _ => ?_)
      · exact Keeps.purgeLd h
      · extract_lets +onlyGivenNames -underBinder -merge x1
        extract_lets +onlyGivenNames -underBinder -merge x2
        have h2 : Keeps s x2 := Keeps.when h (fun _ h3 => Keeps.forEach h3 (fun _ _ h4 => Keeps.zeroUnit h4))
        try clear_value x2
        exact Keeps.emit (Keeps.onLd h2)
  · exact h

theorem Keeps.resetsGo {s t : State} (h : Keeps s t) :
    Keeps s (State.resetsGo t) := by
  unfold State.resetsGo
  exact Keeps.forEach h (fun _ _ h1 => Keeps.resetGoes h1)

theorem Keeps.cxlRst {s t : State} {a1 : Fin 64} {a2 : Bool} (h : Keeps s t) :
    Keeps s (State.cxlRst t a1 a2) := by
  unfold State.cxlRst
  extract_lets +onlyGivenNames -underBinder -merge x1
  have h1 : Keeps s x1 := Keeps.onLd (Keeps.flrAll h)
  try clear_value x1
  exact Keeps.resetGoes (Keeps.showTols (Keeps.purgeLd h1))

theorem Keeps.execCxlReset {s t : State} {a0 : Fin 64} {a1 : Bool} (h : Keeps s t) :
    KeepsX s (Machine.execCxlReset a0 a1 t) := by
  unfold Machine.execCxlReset
  exact KeepsX.onDie h (fun _ h1 => Keeps.ite (fun _ => Keeps.cxlRst h1) (fun _ => h1))

theorem Keeps.injectPoison {s t : State} {a1 a2 a3 : Nat} (h : Keeps s t) :
    Keeps s (State.injectPoison t a1 a2 a3) := by
  unfold State.injectPoison
  exact Keeps.onLd (Keeps.markPoison h)

theorem Keeps.clearPoison {s t : State} {a1 a2 a3 : Nat} {a4 : Bytes} (h : Keeps s t) :
    Keeps s (State.clearPoison t a1 a2 a3 a4) := by
  unfold State.clearPoison
  exact Keeps.onLd (Keeps.writeNow h)

theorem Keeps.sanitize {s t : State} {a1 : LdEntry} (h : Keeps s t) :
    Keeps s (State.sanitize t a1) := by
  unfold State.sanitize
  extract_lets +onlyGivenNames -underBinder -merge x1
  exact Keeps.onLd (Keeps.forEach h (fun _ _ h2 => Keeps.zeroUnit h2))

theorem Keeps.ofLength {s t : State} {a1 : Initiator} {a2 : Bytes} {a3 : Nat} {a4 : State → State} (h : Keeps s t)
    (k4 : ∀ y0, Keeps s y0 → Keeps s (a4 y0)) :
    Keeps s (State.ofLength t a1 a2 a3 a4) := by
  unfold State.ofLength
  exact Keeps.ite (fun _ => k4 _ h) (fun _ => Keeps.answer h)

theorem Keeps.atDpa {s t : State} {a1 : Initiator} {a2 : Option Nat} {a3 : State → Nat → State} (h : Keeps s t)
    (k3 : ∀ y0 y1, Keeps s y0 → Keeps s (a3 y0 y1)) :
    Keeps s (State.atDpa t a1 a2 a3) := by
  unfold State.atDpa
  split
  · exact Keeps.answer (k3 _ _ h)
  · exact Keeps.answer h

theorem Keeps.mediaBackground {s t : State} {a1 : Initiator} {a2 : State → State} (h : Keeps s t)
    (k2 : ∀ y0, Keeps s y0 → Keeps s (a2 y0)) :
    Keeps s (State.mediaBackground t a1 a2) := by
  unfold State.mediaBackground
  exact Keeps.ite (fun _ => Keeps.answer h) (fun _ => Keeps.answer (k2 _ (Keeps.answer h)))

theorem Keeps.media {s t : State} {a1 : Initiator} {a2 : LdEntry} {a3 : Nat} {a4 : Bytes} (h : Keeps s t) :
    Keeps s (State.media t a1 a2 a3 a4) := by
  unfold State.media
  extract_lets +onlyGivenNames -underBinder -merge x1 x2
  exact Keeps.ite (fun _ => Keeps.ofLength h (fun _ h3 => Keeps.answer h3)) (fun _ => Keeps.ite (fun _ => Keeps.ofLength h (fun _ h4 => Keeps.atDpa h4 (fun _ _ h5 => Keeps.injectPoison h5))) (fun _ => Keeps.ite (fun _ => Keeps.ofLength h (fun _ h7 => Keeps.atDpa h7 (fun _ _ h8 => Keeps.clearPoison h8))) (fun _ => Keeps.ite (fun _ => Keeps.ofLength h (fun _ h10 => by
      split
      · rename_i e11_0
        have h11 : Keeps s _ := Keeps.eq2 e11_0 (Keeps.draw h10)
        exact Keeps.answer h11)) (fun _ => Keeps.ite (fun _ => Keeps.ofLength h (fun _ h12 => Keeps.mediaBackground h12 (fun _ h13 => Keeps.onLd h13))) (fun _ => Keeps.ite (fun _ => Keeps.ofLength h (fun _ h14 => Keeps.answer h14)) (fun _ => Keeps.ite (fun _ => Keeps.ofLength h (fun _ h15 => Keeps.mediaBackground h15 (fun _ h16 => Keeps.sanitize h16))) (fun _ => Keeps.answer h)))))))

theorem Keeps.cfgWrite {s t : State} {a1 : Fin 64} {a2 : LdEntry} {a3 : CfgWrite} (h : Keeps s t) :
    Keeps s (State.cfgWrite t a1 a2 a3) := by
  unfold State.cfgWrite
  split
  · exact Keeps.showTols (Keeps.onLd h)
  · exact Keeps.showTols (Keeps.onLd h)
  · extract_lets +onlyGivenNames -underBinder -merge x1
    exact Keeps.showTols (Keeps.onLd h)
  · exact Keeps.ite (fun _ => Keeps.answer h) (fun _ => Keeps.media h)
  · exact Keeps.emit h

theorem Keeps.execConfigurationSpaceWrite {s t : State} {a0 : Fin 64} {a1 : CfgWrite} (h : Keeps s t) :
    KeepsX s (Machine.execConfigurationSpaceWrite a0 a1 t) := by
  unfold Machine.execConfigurationSpaceWrite
  exact KeepsX.onDie h (fun _ h1 => by
    split
    · exact Keeps.cfgWrite h1
    · exact h1)

end Sys2Proof.Machine
end

