-- ==== Sys2Proof/Laws/KeepsTierJobs.lean ====
section
/-!
SUPPORT. What the operations and meanings of TierJobs keep (Laws/Keeps).
-/

namespace Sys2Proof.Machine

theorem Keeps.pageEnds {s t : State} {a1 : Nat} {a2 : Job} {a3 a4 : Nat} (h : Keeps s t) :
    Keeps s (State.pageEnds t a1 a2 a3 a4).1 := by
  unfold State.pageEnds
  extract_lets +onlyGivenNames -underBinder -merge x1 x2
  have h2 : Keeps s x2 := Keeps.upd h
  try clear_value x2
  exact Keeps.jobNext (Keeps.stepEnds h2)

theorem Keeps.stepWaits {s t : State} {a1 : Nat} (h : Keeps s t) :
    Keeps s (State.stepWaits t a1).1 := by
  unfold State.stepWaits
  exact Keeps.pr1 (Keeps.wakeSlice h)

theorem Keeps.stepBusy {s t : State} {a1 : Nat} {a2 : Job} {a3 : Nat} (h : Keeps s t) :
    Keeps s (State.stepBusy t a1 a2 a3) := by
  unfold State.stepBusy
  exact Keeps.ite (fun _ => h) (fun _ => Keeps.upd h)

theorem Keeps.stepRouse {s t : State} {a1 a2 : List Nat} (h : Keeps s t) :
    Keeps s (State.stepRouse t a1 a2).2 := by
  unfold State.stepRouse
  extract_lets +onlyGivenNames -underBinder -merge x1
  exact Keeps.pr2 (Keeps.rouseAll (Keeps.forEach h (fun _ _ h2 => Keeps.wakeDom h2)))

theorem Keeps.recallLines {s t : State} {a1 : Nat} {a2 : Job} {a3 : List Nat} (h : Keeps s t) :
    Keeps s (State.recallLines t a1 a2 a3).1 := by
  unfold State.recallLines
  extract_lets +onlyGivenNames -underBinder -merge x1 x2
  have h2 : Keeps s x2 := Keeps.forEach h (fun _ _ h3 => Keeps.send h3)
  try clear_value x2
  exact Keeps.pr1 h2

theorem Keeps.readPage {s t : State} {a1 a2 : Nat} (h : Keeps s t) :
    Keeps s (State.readPage t a1 a2).2 := by
  unfold State.readPage
  exact Keeps.foldl2 (Keeps.pr2 h) (fun _ _ h1 => by
    beta_reduce
    split
    · rename_i e3_0
      have h3 : Keeps s _ := Keeps.eq2 e3_0 (Keeps.takeLine (Keeps.postRead h1))
      exact Keeps.pr2 h3)

theorem Keeps.twinEqual {s t : State} {a1 a2 : Nat} {a3 : Bytes} {a4 : Nat} (h : Keeps s t) :
    Keeps s (State.twinEqual t a1 a2 a3 a4).2 := by
  unfold State.twinEqual
  extract_lets +onlyGivenNames -underBinder -merge x1 x2 x3
  have h3 : Keeps s x3 := Keeps.forEach h (fun _ _ h4 => Keeps.postMa h4)
  try clear_value x3
  exact Keeps.foldl2 (Keeps.pr2 h3) (fun _ _ h6 => by
      beta_reduce
      split
      · exact h6
      · extract_lets +onlyGivenNames -underBinder -merge x8
        try clear_value x8
        extract_lets +onlyGivenNames -underBinder -merge x9
        have h9 : Keeps s x9 := Keeps.countDecode h6
        try clear_value x9
        split
        · exact Keeps.pr2 h9
        · exact Keeps.pr2 h9)

theorem Keeps.touchBucket {s t : State} {a1 a2 : Nat} (h : Keeps s t) :
    Keeps s (State.touchBucket t a1 a2) := by
  unfold State.touchBucket
  exact Keeps.forEach h (fun _ _ h1 => Keeps.mapTouch h1)

theorem Keeps.demoteGroup {s t : State} {a1 : Job} {a2 : Bool} (h : Keeps s t) :
    Keeps s (State.demoteGroup t a1 a2).2 := by
  unfold State.demoteGroup
  extract_lets +onlyGivenNames -underBinder -merge x1
  split
  · exact Keeps.pr2 h
  · extract_lets +onlyGivenNames -underBinder -merge x2
    split
    · exact Keeps.pr2 h
    · split
      · rename_i e3_0
        have h3 : Keeps s _ := Keeps.eq2 e3_0 (Keeps.draw h)
        exact Keeps.pr2 h3

theorem Keeps.writeRun {s t : State} {a1 : Nat} {a2 : Bytes} {a3 : Nat} (h : Keeps s t) :
    Keeps s (State.writeRun t a1 a2 a3) := by
  unfold State.writeRun
  exact Keeps.putGranules (Keeps.forEach h (fun _ _ h1 => Keeps.postMa h1))

theorem Keeps.demoteRun {s t : State} {a1 : Job} {a2 a3 : Nat} {a4 : List Encoded} {a5 : Option Nat} {a6 : Nat} (h : Keeps s t) :
    KeepsO s (fun p => p.2) (State.demoteRun t a1 a2 a3 a4 a5 a6) := by
  unfold State.demoteRun
  extract_lets +onlyGivenNames -underBinder -merge x1 x2
  split
  · rename_i e3_0
    have h3 : Keeps s _ := Keeps.eq2 e3_0 (Keeps.demoteGroup h)
    exact KeepsO.none
  · rename_i e4_0
    have h4 : Keeps s _ := Keeps.eq2 e4_0 (Keeps.demoteGroup h)
    split
    · exact KeepsO.none
    · rename_i e5_0
      have h5 := KeepsO.use (Keeps.allocRun h4) e5_0
      extract_lets +onlyGivenNames -underBinder -merge x6
      exact KeepsO.some (Keeps.pr2 (Keeps.writeRun h5))

theorem Keeps.demoteStep {s t : State} {a1 : Nat} {a2 : Job} {a3 : Nat} {a4 : Bytes} (h : Keeps s t) :
    Keeps s (State.demoteStep t a1 a2 a3 a4).1 := by
  unfold State.demoteStep
  extract_lets +onlyGivenNames -underBinder -merge x1 x2 x3 x4
  split
  · unfold x4
    beta_reduce
    extract_lets +onlyGivenNames -underBinder -merge x5 x6
    have h6 : Keeps s x6 := Keeps.upd h
    try clear_value x6
    exact Keeps.jobNext h6
  · split
    · rename_i e10_0
      have h10 : Keeps s _ := Keeps.eq2 e10_0 (Keeps.foldl2 (Keeps.pr2 h) (fun _ _ h7 => by
          beta_reduce
          split
          · rename_i e9_0
            have h9 : Keeps s _ := Keeps.eq2 e9_0 (Keeps.encodeBlock h7)
            exact Keeps.pr2 h9))
      extract_lets +onlyGivenNames -underBinder -merge x11 x12 x13 x14
      split
      · rename_i e17_0
        have h17 : Keeps s _ := Keeps.eq2 e17_0 (by
            split
            · exact Keeps.pr2 h10
            · extract_lets +onlyGivenNames -underBinder -merge x15
              have h15 : Keeps s x15 := Keeps.touchBucket h10
              try clear_value x15
              split
              · exact Keeps.pr2 h15
              · split
                · rename_i e16_0
                  have h16 : Keeps s _ := Keeps.eq2 e16_0 (Keeps.twinEqual h15)
                  exact Keeps.pr2 h16)
        split
        · extract_lets +onlyGivenNames -underBinder -merge x18
          extract_lets +onlyGivenNames -underBinder -merge x19
          have h19 : Keeps s x19 := Keeps.setTwin h17
          try clear_value x19
          unfold x4
          beta_reduce
          extract_lets +onlyGivenNames -underBinder -merge x20 x21
          have h21 : Keeps s x21 := Keeps.upd h19
          try clear_value x21
          exact Keeps.jobNext h21
        · extract_lets +onlyGivenNames -underBinder -merge x22
          split
          · exact Keeps.pageEnds h17
          · rename_i e23_0
            have h23 := KeepsO.use (Keeps.demoteRun h17) e23_0
            unfold x4
            beta_reduce
            extract_lets +onlyGivenNames -underBinder -merge x24 x25
            have h25 : Keeps s x25 := Keeps.upd h23
            try clear_value x25
            exact Keeps.jobNext h25

theorem Keeps.demoteUnit {s t : State} {a1 : Nat} {a2 : Job} (h : Keeps s t) :
    Keeps s (Machine.demoteUnit t a1 a2).1 := by
  unfold Machine.demoteUnit
  split
  · exact Keeps.jobEnd h
  · split
    · exact Keeps.stepWaits h
    · extract_lets +onlyGivenNames -underBinder -merge x1
      extract_lets +onlyGivenNames -underBinder -merge x2
      have h2 : Keeps s x2 := Keeps.mapTouch h
      try clear_value x2
      split
      · rename_i e3_0
        have h3 : Keeps s _ := Keeps.eq2 e3_0 (Keeps.stepRouse h2)
        split
        · exact Keeps.pageEnds h3
        · split
          · exact Keeps.pageEnds (Keeps.noteLost h3)
          · split
            · exact Keeps.pageEnds h3
            · split
              · exact Keeps.pageEnds h3
              · split
                · exact Keeps.pageEnds (Keeps.emptyUse h3)
                · split
                  · exact Keeps.pr1 h3
                  · extract_lets +onlyGivenNames -underBinder -merge x4
                    split
                    · split
                      · rename_i e5_0
                        have h5 : Keeps s _ := Keeps.eq1 e5_0 (Keeps.recallLines h3)
                        exact Keeps.jobWait h5
                    · split
                      · rename_i e6_0
                        have h6 : Keeps s _ := Keeps.eq2 e6_0 (Keeps.readPage h3)
                        split
                        · exact Keeps.pageEnds h6
                        · exact Keeps.demoteStep h6

theorem Keeps.tagStore {s t : State} {a1 : Nat} {a2 : Job} {a3 : Nat} {a4 : Run} {a5 : Bytes} (h : Keeps s t) :
    KeepsO s (fun p => p.2.2) (State.tagStore t a1 a2 a3 a4 a5) := by
  unfold State.tagStore
  extract_lets +onlyGivenNames -underBinder -merge x1 x2 x3
  exact KeepsO.ite (fun _ => KeepsO.none) (fun _ => KeepsO.some (Keeps.jobStore h))

theorem Keeps.fillBucket {s t : State} {a1 : PageStep} {a2 : Nat} (h : Keeps s t) :
    Keeps s (State.fillBucket t a1 a2).2 := by
  unfold State.fillBucket
  split
  · exact Keeps.pr2 (Keeps.when h (fun _ h1 => Keeps.bump h1))
  · extract_lets +onlyGivenNames -underBinder -merge x2
    exact Keeps.pr2 (Keeps.setTwin h)

theorem Keeps.readsLeave {s t : State} {a1 : Nat} (h : Keeps s t) :
    Keeps s (State.readsLeave t a1) := by
  unfold State.readsLeave
  extract_lets +onlyGivenNames -underBinder -merge x1
  exact Keeps.upd h

theorem Keeps.demoteDone {s t : State} {a1 : Nat} {a2 : Job} {a3 : PageStep} (h : Keeps s t) :
    Keeps s (State.demoteDone t a1 a2 a3) := by
  unfold State.demoteDone
  extract_lets +onlyGivenNames -underBinder -merge x1 x2 x3
  split
  · rename_i e4_0
    have h4 : Keeps s _ := Keeps.eq2 e4_0 (Keeps.fillBucket (Keeps.readsLeave h))
    extract_lets +onlyGivenNames -underBinder -merge x5
    have h5 : Keeps s x5 := Keeps.setPme h4
    try clear_value x5
    extract_lets +onlyGivenNames -underBinder -merge x6
    have h6 : Keeps s x6 := Keeps.when h5 (fun _ h7 => Keeps.bump h7)
    try clear_value x6
    extract_lets +onlyGivenNames -underBinder -merge x8
    have h8 : Keeps s x8 := Keeps.when h6 (fun _ h9 => Keeps.verWrap h9)
    try clear_value x8
    exact Keeps.freeFrameAfter h8

theorem Keeps.demoteCommitUnit {s t : State} {a1 : Nat} {a2 : Job} (h : Keeps s t) :
    Keeps s (Machine.demoteCommitUnit t a1 a2).1 := by
  unfold Machine.demoteCommitUnit
  split
  · exact Keeps.pr1 h
  · extract_lets +onlyGivenNames -underBinder -merge x1
    split
    · exact Keeps.stepWaits h
    · extract_lets +onlyGivenNames -underBinder -merge x2
      extract_lets +onlyGivenNames -underBinder -merge x3 x4
      split
      · exact Keeps.pageEnds (Keeps.undoStep h)
      · split
        · exact Keeps.pageEnds (Keeps.undoStep (Keeps.noteLost h))
        · split
          · exact Keeps.pageEnds (Keeps.undoStep h)
          · split
            · exact Keeps.pageEnds (Keeps.undoStep h)
            · split
              · extract_lets +onlyGivenNames -underBinder -merge x5
                split
                · exact Keeps.pageEnds (Keeps.undoStep (Keeps.emptyUse h))
                · split
                  · exact Keeps.pageEnds (Keeps.undoStep h)
                  · rename_i e6_0
                    have h6 := KeepsO.use (Keeps.tagStore h) e6_0
                    exact Keeps.pageEnds (Keeps.demoteDone h6)
                  · rename_i e7_0
                    have h7 := KeepsO.use (Keeps.tagStore h) e7_0
                    exact Keeps.jobWait (Keeps.stepBusy h7)
              · exact Keeps.pageEnds (Keeps.demoteDone h)

theorem Keeps.copyRun {s t : State} {a1 a2 a3 a4 : Nat} (h : Keeps s t) :
    Keeps s (State.copyRun t a1 a2 a3 a4).2 := by
  unfold State.copyRun
  exact Keeps.foldl2 (Keeps.pr2 h) (fun _ _ h1 => by
    beta_reduce
    extract_lets +onlyGivenNames -underBinder -merge x3
    have h3 : Keeps s x3 := Keeps.postMa (Keeps.postMa h1)
    try clear_value x3
    split
    · extract_lets +onlyGivenNames -underBinder -merge x4
      have h4 : Keeps s x4 := Keeps.spendCause h3
      try clear_value x4
      exact Keeps.pr2 (Keeps.putMa h4))

theorem Keeps.tagCheck {s t : State} {a1 a2 : Nat} {a3 : Pme} (h : Keeps s t) :
    Keeps s (State.tagCheck t a1 a2 a3).2 := by
  unfold State.tagCheck
  split
  · exact Keeps.pr2 h
  · split
    · rename_i e1_0
      have h1 : Keeps s _ := Keeps.eq2 e1_0 (Keeps.tagLine h)
      exact Keeps.pr2 h1
    · rename_i e2_0
      have h2 : Keeps s _ := Keeps.eq2 e2_0 (Keeps.tagLine h)
      exact Keeps.pr2 h2

theorem Keeps.relocateTo {s t : State} {a1 : Nat} {a2 : Job} {a3 : Nat} {a4 : Group} (h : Keeps s t) :
    Keeps s (State.relocateTo t a1 a2 a3 a4).1 := by
  unfold State.relocateTo
  extract_lets +onlyGivenNames -underBinder -merge x1 x2
  split
  · rename_i e3_0
    have h3 : Keeps s _ := Keeps.eq2 e3_0 (Keeps.stepRouse h)
    split
    · exact Keeps.pr1 h3
    · split
      · exact Keeps.pageEnds (Keeps.emptyUse h3)
      · split
        · rename_i e4_0
          have h4 : Keeps s _ := Keeps.eq2 e4_0 (Keeps.tagCheck h3)
          exact Keeps.jobWait h4
        · rename_i e5_0
          have h5 : Keeps s _ := Keeps.eq2 e5_0 (Keeps.tagCheck h3)
          split
          · exact Keeps.pageEnds h5
          · rename_i e6_0
            have h6 := KeepsO.use (Keeps.allocRun h5) e6_0
            extract_lets +onlyGivenNames -underBinder -merge x7
            have h7 : Keeps s x7 := Keeps.when h6 (fun _ h8 => Keeps.integFail h8)
            try clear_value x7
            split
            · rename_i e9_0
              have h9 : Keeps s _ := Keeps.eq2 e9_0 (Keeps.copyRun h7)
              extract_lets +onlyGivenNames -underBinder -merge x10
              exact Keeps.jobNext h9

theorem Keeps.relocateUnit {s t : State} {a1 : Nat} {a2 : Job} (h : Keeps s t) :
    Keeps s (Machine.relocateUnit t a1 a2).1 := by
  unfold Machine.relocateUnit
  split
  · exact Keeps.jobEnd h
  · split
    · exact Keeps.stepWaits h
    · extract_lets +onlyGivenNames -underBinder -merge x1
      have h1 : Keeps s x1 := Keeps.pageTouch h
      try clear_value x1
      extract_lets +onlyGivenNames -underBinder -merge x2
      split
      · exact Keeps.pageEnds h1
      · split
        · exact Keeps.pageEnds (Keeps.noteLost h1)
        · split
          · exact Keeps.pageEnds h1
          · split
            · exact Keeps.pageEnds h1
            · exact Keeps.relocateTo h1

theorem Keeps.poisonSharers {s t : State} {a1 : Nat} (h : Keeps s t) :
    Keeps s (State.poisonSharers t a1) := by
  unfold State.poisonSharers
  exact Keeps.forEach h (fun _ _ h1 => Keeps.setPme h1)

theorem Keeps.relocateCommitUnit {s t : State} {a1 : Nat} {a2 : Job} (h : Keeps s t) :
    Keeps s (Machine.relocateCommitUnit t a1 a2).1 := by
  unfold Machine.relocateCommitUnit
  split
  · exact Keeps.pr1 h
  · extract_lets +onlyGivenNames -underBinder -merge x1
    split
    · exact Keeps.stepWaits h
    · extract_lets +onlyGivenNames -underBinder -merge x2
      extract_lets +onlyGivenNames -underBinder -merge x3 x4 x5
      split
      · exact Keeps.pageEnds (Keeps.undoStep h)
      · extract_lets +onlyGivenNames -underBinder -merge x6
        extract_lets +onlyGivenNames -underBinder -merge x7 x8
        have h8 : Keeps s x8 := Keeps.setTwin h
        try clear_value x8
        extract_lets +onlyGivenNames -underBinder -merge x9
        have h9 : Keeps s x9 := Keeps.ite (fun _ => Keeps.when h8 (fun _ h10 => Keeps.poisonSharers h10)) (fun _ => Keeps.setPme h)
        try clear_value x9
        exact Keeps.pageEnds (Keeps.releaseRun h9)

theorem Keeps.promoteUnit {s t : State} {a1 : Nat} {a2 : Job} (h : Keeps s t) :
    Keeps s (Machine.promoteUnit t a1 a2).1 := by
  unfold Machine.promoteUnit
  split
  · exact Keeps.jobEnd h
  · split
    · exact Keeps.stepWaits h
    · extract_lets +onlyGivenNames -underBinder -merge x1
      have h1 : Keeps s x1 := Keeps.pageTouch h
      try clear_value x1
      extract_lets +onlyGivenNames -underBinder -merge x2 x3
      split
      · rename_i e4_0
        have h4 : Keeps s _ := Keeps.eq2 e4_0 (by
            split
            · exact Keeps.pr2 h1
            · exact Keeps.stepRouse h1)
        split
        · exact Keeps.pageEnds h4
        · split
          · exact Keeps.pageEnds (Keeps.noteLost h4)
          · split
            · exact Keeps.pageEnds h4
            · split
              · exact Keeps.pageEnds (Keeps.emptyUse h4)
              · split
                · exact Keeps.pr1 h4
                · extract_lets +onlyGivenNames -underBinder -merge x5
                  split
                  · rename_i e6_0
                    have h6 : Keeps s _ := Keeps.eq2 e6_0 (by
                        split
                        · exact Keeps.tagLine h4
                        · exact Keeps.pr2 h4)
                    exact Keeps.jobWait h6
                  · rename_i e7_0
                    have h7 : Keeps s _ := Keeps.eq2 e7_0 (by
                        split
                        · exact Keeps.tagLine h4
                        · exact Keeps.pr2 h4)
                    split
                    · exact Keeps.pageEnds h7
                    · rename_i e8_0
                      have h8 := KeepsO.use (Keeps.frameNow h7) e8_0
                      exact Keeps.pageEnds (Keeps.promote h8)

theorem Keeps.mapScanUnit {s t : State} {a1 : Nat} {a2 : Job} (h : Keeps s t) :
    Keeps s (Machine.mapScanUnit t a1 a2).1 := by
  unfold Machine.mapScanUnit
  split
  · exact Keeps.jobEnd h
  · split
    · exact Keeps.pageEnds h
    · split
      · exact Keeps.stepWaits h
      · extract_lets +onlyGivenNames -underBinder -merge x1
        have h1 : Keeps s x1 := Keeps.pageTouch h
        try clear_value x1
        extract_lets +onlyGivenNames -underBinder -merge x2 x3 x4
        have h4 : Keeps s x4 := Keeps.when h1 (fun _ h5 => Keeps.noteLost h5)
        try clear_value x4
        extract_lets +onlyGivenNames -underBinder -merge x6 x7
        exact Keeps.jobNext h4

theorem Keeps.hallLines {s t : State} {a1 a2 : Nat} (h : Keeps s t) :
    Keeps s (State.hallLines t a1 a2).2 := by
  unfold State.hallLines
  exact Keeps.foldl2 (Keeps.pr2 h) (fun _ _ h1 => by
    beta_reduce
    extract_lets +onlyGivenNames -underBinder -merge x3 x4
    have h4 : Keeps s x4 := Keeps.postMa h1
    try clear_value x4
    split
    · exact Keeps.pr2 (Keeps.postMa (Keeps.spendCause h4)))

theorem Keeps.sealAgain {s t : State} {a1 : Run} {a2 : List (Bytes × Bool)} {a3 : Nat} (h : Keeps s t) :
    Keeps s (State.sealAgain t a1 a2 a3) := by
  unfold State.sealAgain
  split
  · extract_lets +onlyGivenNames -underBinder -merge x1
    exact Keeps.foldl h (fun _ _ h2 => by
        extract_lets +onlyGivenNames -underBinder -merge x4
        exact Keeps.putMa (Keeps.postMa (Keeps.postMa h2)))

theorem Keeps.recode {s t : State} {a1 : Nat} {a2 : Job} {a3 a4 : Nat} {a5 : State → State} (h : Keeps s t)
    (k5 : ∀ y0, Keeps s y0 → Keeps s (a5 y0)) :
    Keeps s (State.recode t a1 a2 a3 a4 a5).2.2 := by
  unfold State.recode
  extract_lets +onlyGivenNames -underBinder -merge x1 x2 x3
  split
  · rename_i e4_0
    have h4 : Keeps s _ := Keeps.eq2 e4_0 (by
        split
        · exact Keeps.pr2 h
        · exact Keeps.tagCheck h)
    exact Keeps.pr22 (Keeps.stepBusy h4)
  · rename_i e5_0
    have h5 : Keeps s _ := Keeps.eq2 e5_0 (by
        split
        · exact Keeps.pr2 h
        · exact Keeps.tagCheck h)
    exact Keeps.pr22 (Keeps.when (Keeps.setPme (Keeps.integFail h5)) (fun _ h6 => k5 _ h6))
  · rename_i e7_0
    have h7 : Keeps s _ := Keeps.eq2 e7_0 (by
        split
        · exact Keeps.pr2 h
        · exact Keeps.tagCheck h)
    split
    · split
      · rename_i e8_0
        have h8 : Keeps s _ := Keeps.eq2 e8_0 (Keeps.hallLines h7)
        exact Keeps.pr22 (Keeps.noteWrite (Keeps.putPage (k5 _ h8)))
    · extract_lets +onlyGivenNames -underBinder -merge x9
      extract_lets +onlyGivenNames -underBinder -merge x10
      have h10 : Keeps s x10 := k5 _ h7
      try clear_value x10
      extract_lets +onlyGivenNames -underBinder -merge x11 x12
      have h12 : Keeps s x12 := Keeps.sealAgain h10
      try clear_value x12
      split
      · exact Keeps.pr22 h12
      · split
        · exact Keeps.pr22 h7
        · rename_i e13_0
          have h13 := KeepsO.use (Keeps.tagStore h7) e13_0
          exact Keeps.pr22 (Keeps.sealAgain (k5 _ h13))
        · rename_i e14_0
          have h14 := KeepsO.use (Keeps.tagStore h7) e14_0
          exact Keeps.pr22 (Keeps.stepBusy h14)

theorem Keeps.rekeyPage {s t : State} {a1 : Nat} {a2 : Job} {a3 a4 : Nat} (h : Keeps s t) :
    Keeps s (State.rekeyPage t a1 a2 a3 a4).1 := by
  unfold State.rekeyPage
  extract_lets +onlyGivenNames -underBinder -merge x1
  have h1 : Keeps s x1 := Keeps.pageTouch h
  try clear_value x1
  extract_lets +onlyGivenNames -underBinder -merge x2 x3 x4
  split
  · exact Keeps.jobNext (Keeps.wr h1)
  · split
    · rename_i e5_0
      have h5 : Keeps s _ := Keeps.eq2 e5_0 (Keeps.stepRouse h1)
      split
      · exact Keeps.pr1 h5
      · split
        · rename_i e7_0
          have h7 : Keeps s _ := Keeps.eq22 e7_0 (Keeps.recode h5 (fun _ h6 => Keeps.wr h6))
          exact Keeps.jobWait h7
        · rename_i e8_0
          have h8 : Keeps s _ := Keeps.eq22 e8_0 (Keeps.recode h5 (fun _ h6 => Keeps.wr h6))
          exact Keeps.jobEnd (Keeps.stepEnds h8)
        · rename_i e9_0
          have h9 : Keeps s _ := Keeps.eq22 e9_0 (Keeps.recode h5 (fun _ h6 => Keeps.wr h6))
          split
          · exact Keeps.jobNext (Keeps.stepEnds h9)
          · exact Keeps.pageEnds h9

theorem Keeps.rekeyTwin {s t : State} {a1 a2 a3 : Nat} (h : Keeps s t) :
    Keeps s (State.rekeyTwin t a1 a2 a3) := by
  unfold State.rekeyTwin
  extract_lets +onlyGivenNames -underBinder -merge x1
  have h1 : Keeps s x1 := Keeps.mapTouch h
  try clear_value x1
  extract_lets +onlyGivenNames -underBinder -merge x2 x3 x4 x5 x6
  have h6 : Keeps s x6 := Keeps.ite (fun _ => Keeps.sealAgain (Keeps.wr h1)) (fun _ => Keeps.ite (fun _ => Keeps.wr h1) (fun _ => h1))
  try clear_value x6
  exact Keeps.ite (fun _ => Keeps.rekeyDone h6) (fun _ => h6)

theorem Keeps.rekeyUnit {s t : State} {a1 : Nat} {a2 : Job} (h : Keeps s t) :
    Keeps s (Machine.rekeyUnit t a1 a2).1 := by
  unfold Machine.rekeyUnit
  extract_lets +onlyGivenNames -underBinder -merge x1 x2 x3 x4
  split
  · exact Keeps.jobEnd h
  · split
    · exact Keeps.pr1 h
    · split
      · split
        · exact Keeps.pageEnds (Keeps.emptyUse h)
        · exact Keeps.jobEnd h
      · split
        · exact Keeps.jobEnd h
        · split
          · split
            · exact Keeps.stepWaits h
            · exact Keeps.rekeyPage h
          · split
            · exact Keeps.pr1 h
            · exact Keeps.jobNext (Keeps.rekeyTwin h)

theorem Keeps.reslotUnit {s t : State} {a1 : Nat} {a2 : Job} (h : Keeps s t) :
    Keeps s (Machine.reslotUnit t a1 a2).1 := by
  unfold Machine.reslotUnit
  split
  · exact Keeps.jobEnd h
  · split
    · exact Keeps.stepWaits h
    · extract_lets +onlyGivenNames -underBinder -merge x1
      have h1 : Keeps s x1 := Keeps.pageTouch h
      try clear_value x1
      extract_lets +onlyGivenNames -underBinder -merge x2 x3
      split
      · rename_i e4_0
        have h4 : Keeps s _ := Keeps.eq2 e4_0 (by
            split
            · exact Keeps.pr2 h1
            · exact Keeps.stepRouse h1)
        split
        · exact Keeps.pageEnds h4
        · split
          · exact Keeps.pageEnds (Keeps.noteLost h4)
          · split
            · exact Keeps.pageEnds h4
            · split
              · exact Keeps.pageEnds h4
              · split
                · exact Keeps.pageEnds (Keeps.emptyUse h4)
                · split
                  · exact Keeps.pr1 h4
                  · split
                    · rename_i e6_0
                      have h6 : Keeps s _ := Keeps.eq22 e6_0 (Keeps.recode h4 (fun _ h5 => Keeps.setPme h5))
                      exact Keeps.jobWait h6
                    · rename_i e7_0
                      have h7 : Keeps s _ := Keeps.eq22 e7_0 (Keeps.recode h4 (fun _ h5 => Keeps.setPme h5))
                      exact Keeps.pageEnds h7
                    · rename_i e8_0
                      have h8 : Keeps s _ := Keeps.eq22 e8_0 (Keeps.recode h4 (fun _ h5 => Keeps.setPme h5))
                      exact Keeps.pageEnds h8

theorem Keeps.execDemote {s t : State} {a0 a1 : Fin 16} (h : Keeps s t) :
    KeepsX s (Machine.execDemote a0 a1 t) := by
  unfold Machine.execDemote
  exact KeepsX.onDie h (fun _ h1 => Keeps.jobRow h1 (fun _ _ _ h2 => Keeps.demoteUnit h2))

theorem Keeps.execDemoteCommit {s t : State} {a0 a1 : Fin 16} (h : Keeps s t) :
    KeepsX s (Machine.execDemoteCommit a0 a1 t) := by
  unfold Machine.execDemoteCommit
  exact KeepsX.onDie h (fun _ h1 => Keeps.jobRow h1 (fun _ _ _ h2 => Keeps.demoteCommitUnit h2))

theorem Keeps.execRelocate {s t : State} {a0 a1 : Fin 16} (h : Keeps s t) :
    KeepsX s (Machine.execRelocate a0 a1 t) := by
  unfold Machine.execRelocate
  exact KeepsX.onDie h (fun _ h1 => Keeps.jobRow h1 (fun _ _ _ h2 => Keeps.relocateUnit h2))

theorem Keeps.execRelocateCommit {s t : State} {a0 a1 : Fin 16} (h : Keeps s t) :
    KeepsX s (Machine.execRelocateCommit a0 a1 t) := by
  unfold Machine.execRelocateCommit
  exact KeepsX.onDie h (fun _ h1 => Keeps.jobRow h1 (fun _ _ _ h2 => Keeps.relocateCommitUnit h2))

theorem Keeps.execPromote {s t : State} {a0 a1 : Fin 16} {a2 : BitVec 16} (h : Keeps s t) :
    KeepsX s (Machine.execPromote a0 a1 a2 t) := by
  unfold Machine.execPromote
  exact KeepsX.onDie h (fun _ h1 => Keeps.jobRow h1 (fun _ _ _ h2 => Keeps.promoteUnit h2))

theorem Keeps.execMapScan {s t : State} {a0 a1 : Fin 16} {a2 : BitVec 16} (h : Keeps s t) :
    KeepsX s (Machine.execMapScan a0 a1 a2 t) := by
  unfold Machine.execMapScan
  exact KeepsX.onDie h (fun _ h1 => Keeps.jobRow h1 (fun _ _ _ h2 => Keeps.mapScanUnit h2))

theorem Keeps.execRekey {s t : State} {a0 a1 : Fin 16} {a2 : BitVec 16} (h : Keeps s t) :
    KeepsX s (Machine.execRekey a0 a1 a2 t) := by
  unfold Machine.execRekey
  exact KeepsX.onDie h (fun _ h1 => Keeps.jobRow h1 (fun _ _ _ h2 => Keeps.rekeyUnit h2))

theorem Keeps.execReslot {s t : State} {a0 a1 : Fin 16} {a2 : BitVec 16} (h : Keeps s t) :
    KeepsX s (Machine.execReslot a0 a1 a2 t) := by
  unfold Machine.execReslot
  exact KeepsX.onDie h (fun _ h1 => Keeps.jobRow h1 (fun _ _ _ h2 => Keeps.reslotUnit h2))

end Sys2Proof.Machine
end

