-- ==== Sys2Proof/Tests/Slice0.lean ====
section
/-! SUPPORT. Tests: ill-formed commands that `Instr.wellFormed` refuses, the spec's worked examples and the test vectors of the
standards it names, and for each obligation with hypotheses one theorem `wit_<obligation>` that shows, clause by clause, a concrete
state and operands that meet them together. Expected values come from the spec's examples or the standards, not from the model. -/

namespace Sys2Proof.Tests
open Sys2Proof Sys2Proof.Machine
set_option maxRecDepth 100000
set_option Elab.async false

/-- A structure for tests: port 0 on quad 0, Catwalk link 0 on quad 4; LDs 0 and 3 of port 0 as an MLD; channels 0 and 1 with two
ranks, rank 1 of each Loft; slot 2 of a Span with member 5 behind link 0. -/
def secs : Sections :=
  [(secQUAD, [1, 0, 5, 0] ++ List.replicate 12 0 ++ [2, 0, 5, 0] ++ List.replicate 108 0),
   (secLDL, [0, 0, 1, 1, 0, 0, 0, 0, 2, 0, 0, 0, 2, 0, 0, 0] ++ [3, 0, 1, 1, 4, 0, 0, 0, 2, 0, 0, 0, 2, 0, 0, 0]),
   (secCHN, List.replicate 8 0 ++ [1, 2, 4, 0, 64, 0, 0, 0] ++ [1, 2, 4, 0, 64, 0, 0, 0] ++ List.replicate 112 0),
   (secTIER, [100, 0, 0, 0, 9, 0, 0, 0] ++ [0, 0, 0, 0, 4, 0, 0, 0, 4, 0, 0, 0, 0, 0, 0, 0, 0x22, 0, 0, 0, 0, 0, 0, 0]),
   (secSPAN, [1, 2, 0, 0, 0x24, 0, 0, 0, 7, 0, 0, 0, 0, 0, 0, 0] ++ [5, 8, 0, 0] ++ (List.replicate 7 [0xFF, 0, 0, 0]).flatten)]

/-- The die running, with no structure. -/
def run0 : State := { State.reset with stage := .running }

/-- The die running with the structure `secs`. -/
def run1 : State := { run0 with str := { applied := true, secs := secs } }

/-- `run1` with channels 0 and 1 trained and the map initialised. -/
def run2 : State := ((run1.wr F.DRC_CFG_PRESENT 1 0).wr F.DRC_CFG_PRESENT 1 1).mapInit

/-- `run2` with port 0 up in flit mode and a committed decoder of LD 3 at HPA 0. -/
def run3 : State :=
  ((run2.wr F.PRT_LINK_UP 1 0).wr F.PRT_LINK_FLIT 1 0).onLd 3
    (fun l => { l with memEnable := true, hdm := [(0, { size := 2 ^ 29, committed := true })] })

/-- A command of the Tally bus for slot 2. -/
def cmd (arg : BitVec 48) (parity : Bool) : TallyCmd := ⟨2, false, arg, parity, true⟩

/-- Shelf time is locked. -/
def lockd : State := run1.wr F.TIM_STATUS_SYNC syLOCKED

/-- The die OWNED, LD 3 bound. -/
def own0 : State := (run1.wr F.SEC_LC_STATE lcOwned).wrBit F.SEC_BIND_LDS 3 true

/-- A held write of home 1 for page 3. -/
def rq : MapReq := ⟨1, 5, true, 200, 7, 1, false, 80, 80, .held, none, 0⟩

/-- With `rq` waiting. -/
def heldReq (s : State) : State := { s with map := { s.map with reqs := [rq] } }

/-- Chunk 0 is in the Hall pool of set 0, its frame 0 allocated. -/
def hall1 : State := run2.setChunk 0 { frames := 1, live := 1, state := ckHALL, pool := 0 }

/-- An owner key, and a session of LD 3 authenticated by it. -/
def key0 : State :=
  { own0 with nvs := { ownerKey := List.replicate 96 5 }, sec := { sessions := [⟨9, .ld 3, some (List.replicate 96 5), true, 0⟩] } }

/-- A LOAD (1) or RETIRE (2) request for slot 7. -/
def keyReq (op : Nat) : Bytes := [BitVec.ofNat 8 op, 7, 0, 0] ++ List.replicate 48 3 ++ List.replicate 48 4

/-- A message of agent `a` on line 5 of slot 2, at TT entry 3. -/
def msg (a : BitVec 7) : CohMsg := { src := a, line := 5, slot := 2, htag := 3, rtag := 9 }

/-- TT entry 3 of home 5. -/
def withTT (x : TT) : State := { run2 with coh := { tt := [(256 * 5 + 3, x)] } }

/-- An RdO of agent 80 that awaits an answer of agent 81. -/
def tt0 : TT := { opc := opRdO, msg := msg 80, st := .snp, seq := 0, plan := .excl, way := some 0, snp := opSnpI, await := [81] }

/-- A request of home 5 for TT entry 3 that the map slice has served. -/
def servedReq (write : Bool) : MapReq := ⟨5, 3, write, 5, 7, 1, false, 80, 80, .served, none, 0⟩

/-- Agent `a` has line 5 of slot 2. -/
def withLine (a : Nat) (st : AgSt) : State := { run2 with coh := { lines := [(lineKey a 2 5, { st := st, data := 7 })] } }

/-- Link 0 in a state. -/
def link0 (st : Nat) (l : Link := {}) : State :=
  ({ run2 with links := [(0, l)] }.wr F.CWK_STATUS_STATE st 0).wr F.CWK_CTL_LINK_EN 1 0

/-- Channel 0. -/
def chan0 (x : ChanSt := {}) : State := { run2 with dram := [(0, x)] }

/-- A read of line 3 of channel 0. -/
def acc0 : LineAcc := ⟨3, false, 80, 0, 0, none, none, false⟩

/-- Rank `r` of channel 0 in a state. -/
def rank0 (r st : Nat) : State := (chan0.wr F.DRC_RANK_STATUS_STATE st 0 r)

/-- Queue 9, enabled, with an item. -/
def queue9 : State := ({ run1 with qram := [(0, ⟨7, 3⟩)] }.wr F.CRQ_CFG_EN 1 9).wr F.CRQ_PTR0_W 1 9

/-- 64 bytes. -/
def item : Bytes := List.replicate 64 6

/-- Channel 0 with `acc0` in its input queue. -/
def chanQ : State := (chan0 { inq := [acc0] }).wr F.DRC_RANK_STATUS_STATE rankACTIVE 0 0

/-- The next command of `acc0`. -/
def cand0 : Cand :=
  ⟨acc0, 1, (secs.chn 0).queue (chanQ.target 0 3).1, (secs.chn 0).bank ((chanQ.target 0 3).1 % 2 ^ 36)⟩

/-- What a channel finds when it trains. -/
def train (result : BitVec 3) : TrainReport := ⟨result, true, 20, some ⟨true, 4, 16, 1, 2, 6400, 77⟩, none⟩

/-- The state that a command gives. -/
def after (c : Instr) (s : State) : State := match exec c s with | .next t => t | _ => s

/-- A running job of gallery 1 with an operation and arguments. -/
def job (op : Nat) (args : List Nat) : Job :=
  let d := [BitVec.ofNat 8 op, 0, 0, 0] ++ toLE 4 9 ++ args.flatMap (toLE 8)
  { seq := 4, jq := 0, dq := 9, cq := 10, owner := 0x80, items := [lineOfBytes (d ++ List.replicate (64 - d.length) 0)],
    at_ := 0, bad := none, st := .running }

/-- Gallery 1 holds a job. -/
def galJob (j : Job) (s : State := run2) : State := s.onGal 1 (fun x => { x with jobs := [j] })

/-- Page 3 has an entry. -/
def pageIs (x : Pme) (s : State := run2) : State := { s with map := { s.map with pmes := [(3, x)] } }

/-- A page step of a job at page 3. -/
def pstep (was : Pme) (run : Option (Nat × Nat)) (pme : Pme) : PageStep := ⟨3, was, {}, 0, run, pme, none, none, false⟩

/-- `hall1` with a chunk of a compressed heap, and slot 7 loaded and in force for the first pages. -/
def keyed : State :=
  (((((hall1.setChunk 4 { state := ckOPEN, bump := 64, live := 64, pool := 16 }).setKeySlot 7 { cur := ⟨1, 2, 3⟩ }).wr
    F.KEY_SLOT_STATE_STATE 1 0 7).wr F.KEY_REG_CFG_VALID 1 0 5).wr F.KEY_REG_CFG_SLOT 7 0 5).wr F.KEY_REG_LIMIT_LIMIT 9 0 5

/-- Page 3 in frame 0 of the Hall. -/
def hallPage : State :=
  ((pageIs { tier := 1, key := 7 } keyed).wr F.DRC_RANK_STATUS_STATE rankACTIVE 0 0).wr F.DRC_RANK_STATUS_STATE rankACTIVE 1 0

/-- A DEMOTE of page 3. -/
def demote3 : Job := job 0x10 [3, 1, 2]

/-- The next page of a job finds its map entry. -/
def touched (s : State) : State := s.mapTouch ⟨false, 0, false⟩ 65

/-- Channel `c` of the inlet die in a state, with the standby supply up and the module present. -/
def inlet (c st : Nat) (s : State := run1) : State :=
  ({ s with inl := { s.inl with standby := true, present := true } }).wr F.INL_CH_STATUS_STATE st 0 c

/-- A debug session of a level is open. -/
def dbg (l : Nat) (s : State := run1) : State := s.wr F.DBG_STATUS_LEVEL l

/-- A token of a level for device 0 and nonce 0. -/
def tok (l : Nat) : Bytes := [0x59, 0x44, 0x54, 0x31, BitVec.ofNat 8 l] ++ List.replicate 163 0

/-- Device 0, in lifecycle state BLANK. -/
def tokS : State := { run1 with regs := [(F.SEC_DEV_ID_DEV_ID.key 0 0, 0), (F.SEC_DEV_ID_DEV_ID.key 0 1, 0)] }

/-- LD 3 has negotiated up to a step. -/
def agr (n : Nat) (s : State := run1) : State := { s with sec := { s.sec with agreed := [(.ld 3, n)] } }

/-- Home 5 waits for a read of line 5 that a gallery decodes. -/
def dtmo : State :=
  { keyed with map := { keyed.map with pmes := [(0, { tier := 2, loc := 131072, bsz := 1, key := 7 })], reqs := [servedReq false] },
               coh := { tt := [(256 * 5 + 3, { tt0 with memOut := true })] } }

/-- `run1` with queues 9 and 10 enabled, queue 9 read by gallery 1. -/
def galQ : State := (((run1.wr F.CRQ_CFG_EN 1 9).wr F.CRQ_CFG_EN 1 10).wr F.CRQ_CFG_CONS 17 9)

/-- `galQ` with job queue 2 of gallery 1 bound to it. -/
def galB : State := (((galQ.wr F.GAL_JQ_CFG_EN 1 1 2).wr F.GAL_JQ_CFG_DQ 9 1 2).wr F.GAL_JQ_CFG_CQ 10 1 2).wr F.GAL_JQ_CFG_OWNER 0x80 1 2

/-- The entry of LD 3. -/
def e3 : LdEntry := ⟨3, 0, 1, true, 4, 2, 2⟩

/-- A message taken off the torus at its destination. -/
def off (f : Flight) (s : State) : State := (s.bring f).2.landed f

/-- The lookup of `rq`, at its slice. -/
def look (write : Bool) : MapReq := { rq with write := write, st := .flight }

/-- The lookup of `rq` on its way. -/
def looking (write : Bool) (s : State := run2) : State := { s with map := { s.map with reqs := [look write] } }

/-- A load that changes TIER drains. -/
def paused (s : State) : State :=
  { s with str := { s.str with load := some ⟨.cc, [1], [(secTIER, [1])], 0, false, false⟩ } }.wr F.STR_STATUS_STATE 2

/-- The RdS of the control complex for line 5, on the torus. -/
def rdsFlight : Flight := ⟨opRdS, .home, msg 80⟩

/-- The packet of a message on the torus. -/
def pk (f : Flight) (s : State) : Pkt := (s.pktOf f).getD (s.packet f)

/-- `rdsFlight` as a command names it. -/
def rdsMsg : NocMsg := { opc := BitVec.ofNat 8 opRdS, agent := none, m := msg 80 }

/-- The die with `rdsFlight` on the torus, at router 16, its next hop over link 1. -/
def torus : State := run1.send rdsFlight

/-- `torus` with that link failed and no detours. -/
def torusCut : State := (torus.linkFails 16 1).wr F.NOC_CTL_DETOUR_EN 0

/-- What holds of the one value that an option may hold. -/
theorem of_all {P : Nat → Prop} [DecidablePred P] {o : Option Nat} (h : o.all (fun d => decide (P d)) = true) :
    ∀ d, o = some d → P d := by
  intro d e; subst e; simpa using h

theorem triple {α β γ : Type} (x : (α × β) × γ) : x = ((x.1.1, x.1.2), x.2) := rfl

/-! ### Ill-formed commands are refused (one for each check of WellFormed) -/

theorem illformed_push : Instr.wellFormed (.push 9 (.chip 16) [1, 2]) = false := by decide
theorem illformed_push_sop : Instr.wellFormed (.pushSop 9 .cc [1, 2]) = false := by decide
theorem illformed_push_mid : Instr.wellFormed (.pushMid 9 .cc []) = false := by decide
theorem illformed_push_eop : Instr.wellFormed (.pushEop 9 .cc (List.replicate 65 0)) = false := by decide
theorem illformed_token : Instr.wellFormed (.token (List.replicate 167 0)) = false := by decide +kernel
theorem illformed_flit : Instr.wellFormed (.flitReceive 0 (List.replicate 255 0)) = false := by decide +kernel
theorem illformed_blk : Instr.wellFormed (.blk 0 9 0 (List.replicate 65 0)) = false := by decide
theorem illformed_read_data : Instr.wellFormed (.dramReadData 0 9 (List.replicate 80 0) (List.replicate 79 0)) = false := by decide
theorem illformed_session_key : Instr.wellFormed (.keyExchange .mctp 9 (some [1])) = false := by decide
theorem illformed_firmware : Instr.wellFormed (.transferFw .cc true []) = false := by decide
theorem illformed_vendor_opcode : Instr.wellFormed (.vendorUnsupported .mctp 0xC006 []) = false := by decide
theorem illformed_tally_opcode : Instr.wellFormed (.tallyRefusedOpcode 5 ⟨2, false, 0, false, true⟩) = false := by decide
theorem illformed_bypass : Instr.wellFormed (.bypass 0x15) = false := by decide
theorem illformed_mailbox : Instr.wellFormed (.identify .cc []) = false := by decide
theorem illformed_spdm : Instr.wellFormed (.getVersion .dbg) = false := by decide
theorem illformed_calendar (r : ChanReading) : Instr.wellFormed (.calendarFire [(3, r), (3, r)]) = false := rfl

/-! ### The spec's worked examples -/

/-- Tables 5-7 to 5-9: the block coded by hand, and its decode. -/
def handBlock : Bytes :=
  [0x7F3A00001000, 0x7F3A00001040, 5, 0xFFFFFFFFFFFFFFF0, 0x186A0, 0x186A0, 0x7F3A00001000, 0x7F3A9C400000].flatMap (toLE 8) ++
    List.replicate 192 0 ++ [0x7F3A00001040, 0xFFFFFFFF80000000, 0xFFFFFFFF80000000, 0xFFFFFFFF80000000].flatMap (toLE 8) ++
    List.replicate 216 0 ++ toLE 8 0x0123456789ABCDEF

def handImage : Bytes :=
  [0x201FD9C80000000000000000006A0200, 0x0000000000000000E0001000003A7F00, 0x00000451000F6A180020010000C42900, 0x000080EFCDAB89674523010000000000].flatMap (toBE 16)

theorem example_tread_encode : treadEncode handBlock = ⟨.tread, 1, handImage, [7, 3, 4, 4, 5, 1, 2, 6] ++ List.replicate 24 0 ++
    [2, 5, 1, 1] ++ List.replicate 27 0 ++ [7]⟩ := by decide +kernel

theorem example_tread_decode : treadDecode handImage 64 = .ok (handBlock, 64) := by decide +kernel

/-- Chapter 5: the 4-byte pattern. -/
theorem example_pattern : treadEncode (List.replicate 128 [0x3C, 0, 0xA5, 0]).flatten =
    ⟨.pat 2, 1, [0x12, 0x3C, 0, 0xA5] ++ List.replicate 12 0, []⟩ := by decide +kernel

/-- Chapter 6: two tweaks. -/
theorem example_tweaks : hallTweak 0x6400002451 3 = toBE 16 0x51240000640000000000000000000003 ∧
    runTweak 0x190000091 2 7 3 = toBE 16 0x91000090E90000000100000000000003 := by decide +kernel

/-- Chapter 7: placing a line. -/
theorem example_home : homeOf 0x6400002451 = 2 ∧ lineSet 0x6400002451 = 581 := by decide

/-- Chapter 3: HPA to DPA. -/
theorem example_hpa : Hdm.dpaOf { base := 0x200000000000, size := 2 ^ 34, ways := 2, gran := 4096, committed := true }
    0x200000123440 = some 0x91440 := by decide +kernel

/-- Chapter 8: a route from P0 to H11, and its route fields (R188). -/
theorem example_route : routeEntry [0, 0, 0, 2, 2, 4] = 0x10180022400 ∧ routeCodes 0x10180022400 = [0, 0, 0, 2, 2, 4] ∧
    headerRoute [0, 0, 0, 2, 2, 4] = 3 * 2 + 2 * 32 := by decide +kernel

/-- Chapter 9: a header unit. -/
theorem example_header_unit : (CwkHdr.mk 1 0 1 0 2 3 5 0x6400002451 0x2A 0 0 0 false true).word =
    0x54C8000048A2A6080101 ∧ cwkHdr 0x54C8000048A2A6080101 = ⟨1, 0, 1, 0, 2, 3, 5, 0x6400002451, 0x2A, 0, 0, 0, false, true⟩ := by
  decide +kernel

/-- Chapter 10: decoding an MA. -/
theorem example_bank : Chn.bank ⟨1, 2, 4, 3, 8, 0, false⟩ 0x48D159E7 = ⟨0, 4, 3, 0x2468A, 0, 0x1F0⟩ := by decide +kernel

/-- Chapter 11: a wrong row. -/
theorem example_wrong_row : (eccDecode false none 0x48D159E7 (rsEncode (List.replicate 64 0) 0x48D059E7)).out = .addressFault := by
  decide +kernel

/-- Chapter 20: locating replicated registers. -/
theorem example_addresses : F.DRC_SCRUB_RANK_CUR_FORCED.addr 11 3 = 0x11612B0 ∧ F.KEY_REG_CFG_VALID.addr 0 1023 = 0xE17FF8 ∧
    F.CNT_CTR_COUNT.addr 48 0 = 0x1D060A0 := by decide +kernel

/-! ### Test vectors of the standards: SHA-384 of R9 (FIPS 180-4) and AES-256 (FIPS 197) -/

theorem vector_sha384 : sha384 [0x61, 0x62, 0x63] = toBE 48
    0xCB00753F45A35E8BB5A03D699AC65007272C32AB0EDED1631A8B605A43FF5BED8086072BA1E7CC2358BAECA134C825A7 := by decide +kernel

theorem vector_aes : aesEnc (toBE 32 0x000102030405060708090A0B0C0D0E0F101112131415161718191A1B1C1D1E1F)
    (toBE 16 0x00112233445566778899AABBCCDDEEFF) = toBE 16 0x8EA2B7CA516745BFEAFC49904B496089 := by decide +kernel

/-! ### Witnesses: what meets the hypotheses of each obligation, clause by clause -/

theorem wit_commands_leave_the_queue :
    (∃ (c : Instr) (s : Machine.State) (t : Machine.State), exec c s = Host.Outcome.next t) :=
  ⟨.supplyLoss, run1, _, rfl⟩

theorem wit_step_keeps_invariant :
    (∃ (s : Machine.State) (t : Machine.State), (Machine.Inv s) ∧ step s = Host.Outcome.next t) :=
  ⟨{ run1 with pending := [.supplyLoss] }, _, by unfold Machine.Inv; decide +kernel, rfl⟩

theorem wit_forbidden_write_is_only_counted :
    (∃ (who : Initiator) (off : BitVec 26) (s : Machine.State), s.stage = Stage.running ∧ s.sec.endLater = false ∧ window
      off.toNat = none ∧ (off.toNat % 8 = 0) ∧ s.may who off.toNat true = false) :=
  ⟨.ld 0, 0xE00000#26, own0, by decide +kernel⟩

theorem wit_violation_registers_hidden :
    (∃ (who : Initiator) (off : BitVec 26) (s : Machine.State), s.stage = Stage.running ∧ s.sec.endLater = false ∧ isViolReg
      off.toNat = true ∧ (off.toNat % 8 = 0) ∧ s.isOwner who = false) ∧
    (∃ (who : Initiator) (off : BitVec 26) (s : Machine.State), s.stage = Stage.running ∧ s.sec.endLater = false ∧ isViolReg
      off.toNat = true ∧ (off.toNat % 8 = 0) ∧ s.isOwner who = true ∧ who ≠ Initiator.dbg) :=
  ⟨⟨.ld 0, 0x1F00100#26, own0, by decide +kernel⟩,
   ⟨.ld 3, 0x1F00100#26, own0, by decide +kernel⟩⟩

theorem wit_register_accesses :
    (∃ (who : Initiator) (s : Machine.State), (Permitted s who 14680064 true)) ∧
    (∃ (who : Initiator) (s : Machine.State), (Permitted s who 14680088 true)) ∧
    (∃ (who : Initiator) (s : Machine.State), (Permitted s who 14680080 false)) ∧
    (∃ (who : Initiator) (off : BitVec 26) (s : Machine.State) (w : Machine.State), (Permitted s who off.toNat false) ∧
      (off.toNat % 8 = 0) ∧ window off.toNat = none ∧ s.liveReg off.toNat = true ∧ w = (s.dropHalves who off.toNat).latest
      off.toNat) ∧
    (∃ (who : Initiator) (off : BitVec 26) (s : Machine.State), (Permitted s who off.toNat false) ∧ (off.toNat % 8 = 0) ∧ window
      off.toNat = none ∧ s.liveReg off.toNat = false) ∧
    (∃ (who : Initiator) (off : BitVec 26) (s : Machine.State) (w : Machine.State), (Permitted s who off.toNat true) ∧
      (off.toNat % 8 = 0) ∧ window off.toNat = none ∧ w = s.dropHalves who off.toNat ∧ (((fieldsAt off.toNat).any fun x =>
      x.1.spans) = true)) ∧
    (∃ (who : Initiator) (off : BitVec 26) (s : Machine.State) (w : Machine.State), (Permitted s who off.toNat true) ∧
      (off.toNat % 8 = 0) ∧ window off.toNat = none ∧ w = s.dropHalves who off.toNat ∧ (((fieldsAt off.toNat).any fun x =>
      x.1.spans) = false) ∧ (((fieldsAt off.toNat).any fun x => decide (x.1.hi < 32)) = true)) ∧
    (∃ (who : Initiator) (off : BitVec 26) (s : Machine.State) (w : Machine.State) (lower : BitVec 32), s.stage = Stage.running
      ∧ s.sec.endLater = false ∧ (s.may who (off.toNat + 4) true = true) ∧ (off.toNat % 8 = 0) ∧ window off.toNat = none ∧
      (window (off.toNat + 4) = none) ∧ w = s.dropHalves who off.toNat ∧ (List.find? (fun x => x.1 == who && x.2.1 == off.toNat)
      s.sec.staged = some (who, off.toNat, lower.toNat)) ∧ s.may who off.toNat true = true) ∧
    (∃ (who : Initiator) (off : BitVec 26) (s : Machine.State) (w : Machine.State), s.stage = Stage.running ∧ s.sec.endLater =
      false ∧ (s.may who (off.toNat + 4) true = true) ∧ (off.toNat % 8 = 0) ∧ window off.toNat = none ∧ (window (off.toNat + 4)
      = none) ∧ w = s.dropHalves who off.toNat ∧ (List.find? (fun x => x.1 == who && x.2.1 == off.toNat) s.sec.staged = none) ∧
      (((fieldsAt off.toNat).any fun x => decide (32 ≤ x.1.lo)) = true)) ∧
    (∃ (who : Initiator) (off : BitVec 26) (s : Machine.State), s.stage = Stage.running ∧ s.sec.endLater = false ∧ (off.toNat %
      8 = 0) ∧ window off.toNat = none ∧ s.may who off.toNat true = false) :=
  ⟨⟨.cc, run0, by unfold Permitted; decide +kernel⟩,
   ⟨.cc, run0.wr F.KEY_IRQ_REKEY_DONE 1, by unfold Permitted; decide +kernel⟩,
   ⟨.cc, run0.wr F.KEY_ERR_INTEG_FAIL 9, by unfold Permitted; decide +kernel⟩,
   ⟨.cc, 0xE00010#26, run0.wr F.KEY_ERR_INTEG_FAIL 9, ((run0.wr F.KEY_ERR_INTEG_FAIL 9).dropHalves .cc 0xE00010).latest 0xE00010, by refine ⟨?_, ?_, ?_, ?_, ?_⟩ <;> first | with_reducible rfl | decide +kernel | (unfold Permitted; decide +kernel)⟩,
   ⟨.cc, 12585128#26, run0, by unfold Permitted; decide +kernel⟩,
   ⟨.cc, 0x200018#26, run0, run0, by refine ⟨?_, ?_, ?_, ?_, ?_⟩ <;> first | with_reducible rfl | decide +kernel | (unfold Permitted; decide +kernel)⟩,
   ⟨.cc, 0x800000#26, run0, run0, by refine ⟨?_, ?_, ?_, ?_, ?_, ?_⟩ <;> first | with_reducible rfl | decide +kernel | (unfold Permitted; decide +kernel)⟩,
   ⟨.cc, 0x1F00040#26, { run0 with sec := { staged := [(.cc, 0x1F00040, 7)] } }, run0, 7#32, by refine ⟨?_, ?_, ?_, ?_, ?_, ?_, ?_, ?_, ?_⟩ <;> first | with_reducible rfl | decide +kernel⟩,
   ⟨.cc, 0x201000#26, run0, run0, by refine ⟨?_, ?_, ?_, ?_, ?_, ?_, ?_, ?_, ?_⟩ <;> first | with_reducible rfl | decide +kernel⟩,
   ⟨.ld 0, 0xE00000#26, own0, by decide +kernel⟩⟩

theorem wit_resets :
    (∃ (s : Machine.State), s.stage = Stage.coldReset) ∧
    (∃ (s : Machine.State), s.stage = Stage.selfTest) ∧
    (∃ (st : Fin 8) (s : Machine.State), s.stage = Stage.running ∧ s.perst.contains ↑st = false) ∧
    (∃ (who : Initiator) (v : BitVec 32) (s : Machine.State), (Permitted s who 24 true) ∧ (v.toNat / 2 ^ 16 = 42435) ∧ (v.toNat
      % 2 = 1)) ∧
    (∃ (s : Machine.State), s.clocked = true) ∧
    (∃ (s : Machine.State), s.stage = Stage.running ∧ s.rd F.MAP_STATUS_READY = 0 ∧ s.allTrained = true) :=
  ⟨⟨State.reset, by decide +kernel⟩,
   ⟨{ State.reset with stage := .selfTest }, by decide +kernel⟩,
   ⟨3, run1, by decide +kernel⟩,
   ⟨.ld 3, 0xA5C30001#32, own0, by unfold Permitted; decide +kernel⟩,
   ⟨run1, by decide +kernel⟩,
   ⟨(run1.wr F.DRC_CFG_PRESENT 1 0).wr F.DRC_CFG_EXCLUDED 1 1, by decide +kernel⟩⟩

theorem wit_reset_values :
    (∃ (h : ℕ), h < 16) ∧
    (∃ (q : ℕ), q < 1024) :=
  ⟨⟨15, by decide +kernel⟩,
   ⟨1023, by decide +kernel⟩⟩

theorem wit_mailbox_load_disabled :
    (∃ (who : Initiator) (input : Bytes) (s : Machine.State) (x : Transfer), s.stage = Stage.running ∧ hasSpdm who = true ∧
      itemOk 0 input = true ∧ List.length input = 8 ∧ byteAt input 1 ≤ 1 ∧ s.str.load = none ∧ s.str.cal = none ∧ s.str.xfer =
      none ∧ s.rd F.STR_CTL_MBX_LOAD_EN = 0 ∧ s.rd F.STR_STATUS_RECOVERY = 0 ∧ x.who = who ∧ x.cal = false) :=
  ⟨.ld 3, [0, 1, 0, 0, 0, 0, 0, 0], run1.wr F.STR_CTL_MBX_LOAD_EN 0, ⟨.ld 3, false, 0, false, [], [7]⟩, by decide +kernel⟩

theorem wit_structure_load :
    (∃ (who : Initiator) (input : Bytes) (s : Machine.State), s.stage = Stage.running ∧ hasSpdm who = true ∧ itemOk 0 input =
      true ∧ List.length input = 8 ∧ byteAt input 1 ≤ 1 ∧ s.str.load = none ∧ s.str.cal = none ∧ s.str.xfer = none ∧
      s.loadAllowed = true) ∧
    (∃ (who : Initiator) (input : Bytes) (x : Transfer) (s : Machine.State), s.stage = Stage.running ∧ hasSpdm who = true ∧
      itemOk 1 input = true ∧ byteAt input 1 ≤ 1 ∧ 8 < List.length input ∧ List.length input ≤ 65536 ∧ s.str.xfer = some x ∧
      x.who = who ∧ x.cal = false ∧ le input 4 4 = List.length x.data) ∧
    (∃ (who : Initiator) (input : Bytes) (x : Transfer) (s : Machine.State), s.stage = Stage.running ∧ hasSpdm who = true ∧
      itemOk 2 input = true ∧ List.length input = 8 ∧ byteAt input 1 ≤ 1 ∧ s.str.xfer = some x ∧ x.who = who ∧ x.cal = false ∧
      s.str.load = none ∧ s.str.cal = none ∧ s.loadAllowed = true) ∧
    (∃ (who : Initiator) (input : Bytes) (s : Machine.State), s.stage = Stage.running ∧ hasSpdm who = true ∧ itemOk 3 input =
      true ∧ List.length input = 8 ∧ byteAt input 1 ≤ 1 ∧ s.transferTaken who false = false) ∧
    (∃ (l : PendingLoad) (s : Machine.State), s.stage = Stage.running ∧ s.str.load = some l ∧ s.rd F.STR_STATUS_STATE =
      ldCOMMIT) ∧
    (∃ (l : PendingLoad) (s : Machine.State), s.stage = Stage.running ∧ s.str.load = some l ∧ s.rd F.STR_STATUS_STATE = ldDRAIN
      ∧ s.drained l = false) ∧
    (∃ (s : Machine.State), s.stage = Stage.running ∧ s.rd F.STR_STATUS_STATE ≠ ldDRAIN) ∧
    (∃ (l : PendingLoad) (s : Machine.State), s.stage = Stage.running ∧ s.str.load = some l ∧ s.rd F.STR_STATUS_STATE =
      ldPERSIST) ∧
    (∃ (who : Initiator) (v : BitVec 32) (s : Machine.State), (Permitted s who 1048656 true) ∧ s.isOwner who = true ∧ s.rd
      F.STR_MINSEQ_MINSEQ ≤ v.toNat ∧ ((s.slotSeqs.any fun x => decide (v.toNat ≤ x)) = true)) :=
  ⟨⟨.ld 3, [0, 1, 0, 0, 0, 0, 0, 0], run1.wr F.STR_CTL_MBX_LOAD_EN 1, by decide +kernel⟩,
   ⟨.mctp, [1, 0, 0, 0, 1, 0, 0, 0, 9], ⟨.mctp, false, 0, false, [], [7]⟩, { run1 with str := { run1.str with xfer := some ⟨.mctp, false, 0, false, [], [7]⟩ } }, by decide +kernel⟩,
   ⟨.mctp, [2, 0, 0, 0, 0, 0, 0, 0], ⟨.mctp, false, 0, false, [], [7]⟩, { run1 with str := { run1.str with xfer := some ⟨.mctp, false, 0, false, [], [7]⟩ } }.wr F.STR_CTL_MBX_LOAD_EN 1, by decide +kernel⟩,
   ⟨.mctp, [3, 0, 0, 0, 0, 0, 0, 0], run1, by decide +kernel⟩,
   ⟨⟨.mctp, [1], [], 0, false, false⟩, { run1 with str := { run1.str with load := some ⟨.mctp, [1], [], 0, false, false⟩ } }.wr F.STR_STATUS_STATE ldCOMMIT, by decide +kernel⟩,
   ⟨⟨.mctp, [1], [], 0, false, false⟩, { run1 with reqs := [⟨3, 0, 0, opRdS, 2, 0, false⟩], str := { run1.str with load := some ⟨.mctp, [1], [], 0, false, false⟩ } }.wr F.STR_STATUS_STATE ldDRAIN, by decide +kernel⟩,
   ⟨{ run1 with str := { run1.str with ldHold := [3] } }, by decide +kernel⟩,
   ⟨⟨.mctp, [1], [], 0, true, false⟩, { run1 with str := { run1.str with load := some ⟨.mctp, [1], [], 0, true, false⟩ } }.wr F.STR_STATUS_STATE ldPERSIST, by decide +kernel⟩,
   ⟨.ld 3, 5#32, ({ own0 with flash := { imgB := List.replicate 12 0 ++ [9, 0, 0, 0] } }.wr F.STR_BOOT_SLOT_B_VALID 1).wr F.STR_MINSEQ_MINSEQ 4, by unfold Permitted; decide +kernel⟩⟩

theorem wit_tally_synchronisation :
    (∃ (s : Machine.State), s.stage = Stage.running ∧ (s.sync = syABSENT ∨ s.sync = syHOLDOVER)) ∧
    (∃ (s : Machine.State), s.stage = Stage.running ∧ (s.sync = syACQUIRE ∨ s.sync = syLOCKED)) ∧
    (∃ (f : TallyFrame) (s : Machine.State), s.stage = Stage.running ∧ s.sync = syLOCKED ∧ f.ok = false) ∧
    (∃ (f : TallyFrame) (s : Machine.State), s.stage = Stage.running ∧ s.sync = syACQUIRE ∧ f.ok = true ∧ s.time.capNext = none
      ∧ s.time.delayNext = none ∧ s.time.goodFrames = 0) ∧
    (∃ (f : TallyFrame) (s : Machine.State), s.stage = Stage.running ∧ s.sync = syLOCKED ∧ f.ok = true ∧ s.time.capNext = none ∧
      s.time.delayNext = none ∧ f.ftype = 0 ∧ s.markSt f = s.st) ∧
    (∃ (s : Machine.State), s.stage = Stage.running ∧ s.rd F.TIM_STATUS_SLEWING = 1) ∧
    (∃ (who : Initiator) (s : Machine.State), (Permitted s who (F.TIM_ST_LOAD_ST.addr 0 0) true) ∧ s.sync ≠ syABSENT) ∧
    (∃ (who : Initiator) (s : Machine.State), (Permitted s who (F.TIM_ST_LOAD_ST.addr 0 0) true) ∧ s.sync = syABSENT) :=
  ⟨⟨run1.wr F.TIM_STATUS_SYNC syHOLDOVER, by decide +kernel⟩,
   ⟨run1.wr F.TIM_STATUS_SYNC syLOCKED, by decide +kernel⟩,
   ⟨⟨1, 0, 250, 0⟩, run1.wr F.TIM_STATUS_SYNC syLOCKED, by decide +kernel⟩,
   ⟨⟨1, 1, 250, 0⟩, run1.wr F.TIM_STATUS_SYNC syACQUIRE, by decide +kernel⟩,
   ⟨⟨1, 1, 250, 0⟩, run1.wr F.TIM_STATUS_SYNC syLOCKED, by decide +kernel⟩,
   ⟨run1.wr F.TIM_STATUS_SLEWING 1, by decide +kernel⟩,
   ⟨.cc, run1.wr F.TIM_STATUS_SYNC syLOCKED, by unfold Permitted; decide +kernel⟩,
   ⟨.cc, run1, by unfold Permitted; decide +kernel⟩⟩

theorem wit_tally_commands :
    (∃ (c : TallyCmd) (s : Machine.State), s.stage = Stage.running ∧ s.rd F.STR_STATUS_RECOVERY = 0 ∧ s.sync = syLOCKED ∧
      c.frame = true ∧ c.bcast = false ∧ c.target.toNat = s.slot ∧ s.rd F.TIM_STATUS_SLOT_MISMATCH = 0 ∧ (tallyOnes 0 c % 2 =
      0)) ∧
    (∃ (c : TallyCmd) (s : Machine.State), s.stage = Stage.running ∧ s.rd F.STR_STATUS_RECOVERY = 0 ∧ s.sync = syLOCKED ∧
      c.frame = true ∧ c.bcast = false ∧ c.target.toNat = s.slot ∧ s.rd F.TIM_STATUS_SLOT_MISMATCH = 0 ∧ (tallyOnes 0 c % 2 =
      1)) ∧
    (∃ (c : TallyCmd) (s : Machine.State) (ch : Fin 9), s.stage = Stage.running ∧ s.rd F.STR_STATUS_RECOVERY = 0 ∧ s.sync =
      syLOCKED ∧ c.frame = true ∧ c.bcast = false ∧ c.target.toNat = s.slot ∧ s.rd F.TIM_STATUS_SLOT_MISMATCH = 0 ∧ 0 < ↑ch ∧
      bits c.arg.toNat 43 40 = ↑ch ∧ s.inlSt ↑ch = inREADY ∧ s.calMode 60 ≠ 1 ∧ (tallyOnes 1 c % 2 = 0)) ∧
    (∃ (c : TallyCmd) (s : Machine.State), s.stage = Stage.running ∧ s.rd F.STR_STATUS_RECOVERY = 0 ∧ s.sync = syLOCKED ∧
      c.frame = true ∧ c.bcast = false ∧ c.target.toNat = s.slot ∧ s.rd F.TIM_STATUS_SLOT_MISMATCH = 0 ∧ (tallyOnes 2 c % 2 = 0)
      ∧ (c.arg.toNat % 8 ≤ 4)) ∧
    (∃ (c : TallyCmd) (s : Machine.State), s.stage = Stage.running ∧ s.rd F.STR_STATUS_RECOVERY = 0 ∧ s.sync = syLOCKED ∧
      c.frame = true ∧ c.bcast = false ∧ c.target.toNat = s.slot ∧ s.rd F.TIM_STATUS_SLOT_MISMATCH = 0 ∧ (tallyOnes 2 c % 2 = 0)
      ∧ (4 < c.arg.toNat % 8)) ∧
    (∃ (c : TallyCmd) (s : Machine.State), s.stage = Stage.running ∧ s.rd F.STR_STATUS_RECOVERY = 0 ∧ s.sync = syLOCKED ∧
      c.frame = true ∧ c.bcast = false ∧ c.target.toNat = s.slot ∧ s.rd F.TIM_STATUS_SLOT_MISMATCH = 0 ∧ (tallyOnes 3 c % 2 =
      0)) ∧
    (∃ (c : TallyCmd) (s : Machine.State), s.stage = Stage.running ∧ s.rd F.STR_STATUS_RECOVERY = 0 ∧ s.sync = syLOCKED ∧
      c.frame = true ∧ c.bcast = false ∧ c.target.toNat = s.slot ∧ s.rd F.TIM_STATUS_SLOT_MISMATCH = 0 ∧ (tallyOnes 4 c % 2 = 0)
      ∧ (0 < c.arg.toNat % 1024) ∧ (c.arg.toNat % 1024 ≤ 1000) ∧ (4000 * (c.arg.toNat % 1024) ≠ s.rd F.TIM_CAL_PERIOD_PERIOD 0
      62)) ∧
    (∃ (c : TallyCmd) (s : Machine.State), s.stage = Stage.running ∧ s.rd F.STR_STATUS_RECOVERY = 0 ∧ s.sync = syLOCKED ∧
      c.frame = true ∧ c.bcast = false ∧ c.target.toNat = s.slot ∧ s.rd F.TIM_STATUS_SLOT_MISMATCH = 0 ∧ (tallyOnes 5 c % 2 =
      0)) ∧
    (∃ (c : TallyCmd) (s : Machine.State) (op : BitVec 4), s.stage = Stage.running ∧ s.rd F.STR_STATUS_RECOVERY = 0 ∧ s.sync =
      syLOCKED ∧ c.frame = true ∧ c.bcast = false ∧ c.target.toNat = s.slot ∧ s.rd F.TIM_STATUS_SLOT_MISMATCH = 0 ∧ 5 < op.toNat
      ∧ (tallyOnes op.toNat c % 2 = 0)) :=
  ⟨⟨cmd 0 true, lockd, by decide +kernel⟩,
   ⟨cmd 0 false, lockd, by decide +kernel⟩,
   ⟨cmd 0x10000000005 true, lockd.wr F.INL_CH_STATUS_STATE inREADY 0 1, 1, by decide +kernel⟩,
   ⟨cmd 4 true, lockd, by decide +kernel⟩,
   ⟨cmd 5 false, lockd, by decide +kernel⟩,
   ⟨cmd 1 false, lockd, by decide +kernel⟩,
   ⟨cmd 1000 false, lockd, by decide +kernel⟩,
   ⟨cmd 0xFFFF true, lockd, by decide +kernel⟩,
   ⟨cmd 0 true, lockd, 6#4, by decide +kernel⟩⟩

theorem wit_calendar :
    (∃ (s : Machine.State) (k : ℕ) (l : List (ℕ × Bool)), s.stage = Stage.running ∧ (s.calNext = (k, l)) ∧ (l ≠ [])) ∧
    (∃ (s : Machine.State), s.stage = Stage.running ∧ (s.calNext.2 = [])) ∧
    (∃ (s : Machine.State) (x : ℕ × Bool), s.stage = Stage.running ∧ (x ∈ s.calNext.2)) ∧
    (∃ (s : Machine.State) (n : ℕ), s.stage = Stage.running ∧ n ≠ 62 ∧ s.calMode n = 1) ∧
    (∃ (rs : List (Fin 16 × ChanReading)) (n : ℕ) (late : Bool) (stepped : Bool) (s : Machine.State) (t : Machine.State), n < 64
      ∧ s.calFire rs n late stepped = t ∧ s.calSuppressed n = true) ∧
    (∃ (rs : List (Fin 16 × ChanReading)) (n : ℕ) (late : Bool) (stepped : Bool) (s : Machine.State) (t : Machine.State), n < 64
      ∧ s.calFire rs n late stepped = t ∧ s.calSuppressed n = false ∧ s.rd F.TIM_CAL_CTL_ACTION 0 n = 0 ∧ s.calMode n = 1) ∧
    (∃ (rs : List (Fin 16 × ChanReading)) (n : ℕ) (late : Bool) (stepped : Bool) (s : Machine.State) (t : Machine.State), n < 64
      ∧ s.calFire rs n late stepped = t ∧ s.calSuppressed n = false ∧ s.rd F.TIM_CAL_CTL_ACTION 0 n = 0 ∧ late = true) :=
  ⟨⟨(run1.wr F.TIM_CAL_CTL_MODE 1 0 5).wr F.TIM_CAL_TIME_TIME 8 0 5, 4, [(5, false)], by refine ⟨?_, ?_, ?_⟩ <;> first | with_reducible rfl | decide +kernel⟩,
   ⟨run1, by decide +kernel⟩,
   ⟨(run1.wr F.TIM_CAL_CTL_MODE 1 0 5).wr F.TIM_CAL_TIME_TIME 8 0 5, (5, false), by decide +kernel⟩,
   ⟨(run1.wr F.TIM_CAL_CTL_MODE 1 0 5).wr F.TIM_CAL_TIME_TIME 8 0 5, 5, by decide +kernel⟩,
   ⟨[], 5, true, false, ({ run1 with time := { suppress := [5], lastFire := [(5, 0)] } }.wr F.TIM_CAL_PERIOD_PERIOD 2000 0 5).wr F.TIM_CAL_CTL_MODE 2 0 5, (({ run1 with time := { suppress := [5], lastFire := [(5, 0)] } }.wr F.TIM_CAL_PERIOD_PERIOD 2000 0 5).wr F.TIM_CAL_CTL_MODE 2 0 5).calFire [] 5 true false, by decide +kernel⟩,
   ⟨[], 5, true, false, run1.wr F.TIM_CAL_CTL_MODE 1 0 5, (run1.wr F.TIM_CAL_CTL_MODE 1 0 5).calFire [] 5 true false, by decide +kernel⟩,
   ⟨[], 5, true, false, run1.wr F.TIM_CAL_CTL_MODE 1 0 5, (run1.wr F.TIM_CAL_CTL_MODE 1 0 5).calFire [] 5 true false, by refine ⟨?_, ?_, ?_, ?_, ?_⟩ <;> first | with_reducible rfl | decide +kernel⟩⟩

theorem wit_port_links :
    (∃ (p : Fin 16) (rate : BitVec 3) (width : BitVec 3) (s : Machine.State), s.stage = Stage.running ∧ s.on F.PRT_CFG_PRESENT
      ↑p = true ∧ s.perst.contains (s.secs.portStation ↑p) = false ∧ s.rd F.PRT_LINK_UP ↑p = 0 ∧ rate.toNat ≤ s.rd
      F.PRT_CFG_SPEED_CAP ↑p ∧ 0 < width.toNat ∧ (width.toNat ≤ s.rd F.PRT_CFG_UNIT_WIDTH ↑p + 3) ∧ (s.trainsWithout (↑p)
      (widthLanes width.toNat) false = true ∨ s.trainsWithout (↑p) (widthLanes width.toNat) true = true) ∧ (((s.secs.portLds
      ↑p).all fun e => !(s.ld e.ld).flrDue) = true)) ∧
    (∃ (p : Fin 16) (lane : BitVec 4) (s : Machine.State), s.stage = Stage.running ∧ s.on F.PRT_LINK_UP ↑p = true ∧ lane.toNat <
      widthLanes (s.rd F.PRT_LINK_WIDTH ↑p) ∧ s.rd F.PRT_CTL_LANEFAIL_EN ↑p = 0) ∧
    (∃ (p : Fin 16) (lane : BitVec 4) (s : Machine.State), s.stage = Stage.running ∧ s.on F.PRT_LINK_UP ↑p = true ∧ lane.toNat <
      widthLanes (s.rd F.PRT_LINK_WIDTH ↑p) ∧ s.on F.PRT_CTL_LANEFAIL_EN ↑p = true ∧ s.on F.PRT_LINK_FLIT ↑p = true ∧ s.on
      F.PRT_LINK_L0P_EN ↑p = true ∧ s.rd F.PRT_LINK_DEGRADED ↑p = 0 ∧ (List.find? (fun x => x.1 == ↑p) s.lanes = none)) ∧
    (∃ (p : Fin 16) (lane : BitVec 4) (s : Machine.State), s.stage = Stage.running ∧ s.on F.PRT_LINK_UP ↑p = true ∧ lane.toNat <
      widthLanes (s.rd F.PRT_LINK_WIDTH ↑p) ∧ s.on F.PRT_CTL_LANEFAIL_EN ↑p = true ∧ s.rd F.PRT_LINK_L0P_EN ↑p = 0 ∧ (List.find?
      (fun x => x.1 == ↑p) s.lanes = none)) ∧
    (∃ (p : Fin 16) (x : ℕ × ℕ) (s : Machine.State), s.stage = Stage.running ∧ (List.find? (fun x => x.1 == ↑p) s.lanes = some
      x)) ∧
    (∃ (p : Fin 16) (who : Initiator) (id : BitVec 32) (s : Machine.State), s.stage = Stage.running ∧ (Option.any (fun x =>
      x.done) (s.session who id.toNat) = true) ∧ s.portDoe (↑p) who = true ∧ s.on F.PRT_LINK_UP ↑p = true) ∧
    (∃ (p : Fin 16) (s : Machine.State), s.stage = Stage.running ∧ s.on F.PRT_LINK_IDE_ON ↑p = true) ∧
    (∃ (who : Initiator) (p : Fin 16) (k : Fin 16) (s : Machine.State), (Permitted s who (F.PRT_LD_OVR_OVR_EN.addr ↑p ↑k) true)) :=
  ⟨⟨0, 5#3, 3#3, (run1.wr F.PRT_CFG_PRESENT 1 0).wr F.PRT_CFG_SPEED_CAP 5 0, by decide +kernel⟩,
   ⟨0, 3#4, (run3.wr F.PRT_CTL_LANEFAIL_EN 0 0).wr F.PRT_LINK_WIDTH 3 0, by decide +kernel⟩,
   ⟨0, 3#4, ((run3.wr F.PRT_LINK_WIDTH 3 0).wr F.PRT_CTL_LANEFAIL_EN 1 0).wr F.PRT_LINK_L0P_EN 1 0, by decide +kernel⟩,
   ⟨0, 3#4, (run3.wr F.PRT_LINK_WIDTH 3 0).wr F.PRT_CTL_LANEFAIL_EN 1 0, by decide +kernel⟩,
   ⟨0, (0, 3), { run3.wr F.PRT_LINK_WIDTH 3 0 with lanes := [(0, 3)] }, by decide +kernel⟩,
   ⟨0, .ld 3, 9#32, { run3 with sec := { sessions := [⟨9, .ld 3, none, true, 0⟩] }, insecure := [0] }, by decide +kernel⟩,
   ⟨0, run3.wr F.PRT_LINK_IDE_ON 1 0, by decide +kernel⟩,
   ⟨.ld 3, 0, 1, run3, by unfold Permitted; decide +kernel⟩⟩

theorem wit_host_requests :
    (∃ (r : M2S) (s : Machine.State) (e : LdEntry) (slot : ℕ) (line : ℕ) (tg : ℕ) (opc : ℕ) (na : Bool) (c : Instr), (PortTakes
      s r e slot line tg) ∧ (m2sMap (s.on F.PRT_LINK_FLIT e.port) (s.hostOwns (↑r.ld) slot line) r = some (opc, na)) ∧ opc ≠
      opWbD ∧ (c ∈ m2sCommands r)) ∧
    (∃ (r : M2S) (s : Machine.State) (e : LdEntry) (slot : ℕ) (line : ℕ) (tg : ℕ) (na : Bool) (c : Instr), (PortTakes s r e slot
      line tg) ∧ (m2sMap (s.on F.PRT_LINK_FLIT e.port) (s.hostOwns (↑r.ld) slot line) r = some (opWbD, na)) ∧ s.spent (↑r.ld)
      (homeOf line) < 4 ∧ (c ∈ m2sCommands r)) ∧
    (∃ (ld : Fin 64) (e : LdEntry) (s : Machine.State), s.stage = Stage.running ∧ s.secs.ldEntry ↑ld = some e ∧ s.on
      F.PRT_LINK_UP e.port = true) ∧
    (∃ (r : M2S), r.op = M2SOp.memRd ∧ r.snp = SnpType.inv ∧ r.mv = MetaVal.any) ∧
    (∃ (r : M2S), r.op = M2SOp.memRd ∧ r.snp = SnpType.data ∧ r.mv = MetaVal.shared) ∧
    (∃ (r : M2S), r.op = M2SOp.memRd ∧ r.snp = SnpType.cur ∧ r.mv = MetaVal.invalid) ∧
    (∃ (r : M2S), r.op = M2SOp.memRd ∧ r.snp = SnpType.noOp ∧ r.mv = MetaVal.invalid) ∧
    (∃ (r : M2S), r.op = M2SOp.memRdData) ∧
    (∃ (r : M2S), r.op = M2SOp.memInv ∧ r.snp = SnpType.inv ∧ r.mv = MetaVal.any) ∧
    (∃ (r : M2S), (r.op = M2SOp.memWr ∨ r.op = M2SOp.memWrPtl) ∧ r.mv = MetaVal.invalid) ∧
    (∃ (r : M2S), (r.op = M2SOp.memWr ∨ r.op = M2SOp.memWrPtl) ∧ r.mv ≠ MetaVal.invalid) ∧
    (∃ (r : M2S), r.op = M2SOp.memClnEvct ∧ r.mv = MetaVal.invalid) :=
  ⟨⟨{ ld := 3, op := .memRd, tag := 7, hpa := 64, snp := .inv, mv := .any }, run3, e3, 2, 0x1000001, 0, opRdO, false, .m2sMemrd 3 7 64 .inv .any, by unfold PortTakes; decide +kernel⟩,
   ⟨{ ld := 3, op := .memWr, tag := 7, hpa := 64, data := 5 }, run3, e3, 2, 0x1000001, 0, false, .m2sMemwr 3 7 64 .invalid 5 false, by unfold PortTakes; decide +kernel⟩,
   ⟨3, e3, run3, by decide +kernel⟩,
   ⟨{ ld := 3, op := .memRd, tag := 7, hpa := 64, snp := .inv, mv := .any }, by decide +kernel⟩,
   ⟨{ ld := 3, op := .memRd, tag := 7, hpa := 64, snp := .data, mv := .shared }, by decide +kernel⟩,
   ⟨{ ld := 3, op := .memRd, tag := 7, hpa := 64, snp := .cur }, by decide +kernel⟩,
   ⟨{ ld := 3, op := .memRd, tag := 7, hpa := 64 }, by decide +kernel⟩,
   ⟨{ ld := 3, op := .memRdData, tag := 7, hpa := 64 }, by decide +kernel⟩,
   ⟨{ ld := 3, op := .memInv, tag := 7, hpa := 64, snp := .inv, mv := .any }, by decide +kernel⟩,
   ⟨{ ld := 3, op := .memWr, tag := 7, hpa := 64 }, by decide +kernel⟩,
   ⟨{ ld := 3, op := .memWr, tag := 7, hpa := 64, mv := .any }, by decide +kernel⟩,
   ⟨{ ld := 3, op := .memClnEvct, tag := 7, hpa := 64 }, by decide +kernel⟩⟩

theorem wit_snoops_of_hosts :
    (∃ (ld : Fin 64) (slot : BitVec 4) (line : BitVec 40) (e : LdEntry) (b : BiSnp) (s : Machine.State), s.stage = Stage.running
      ∧ s.secs.ldEntry ↑ld = some e ∧ (List.find? (fun b => b.line == line.toNat && b.home == slot.toNat) (s.ld ↑ld).bisnp =
      some b)) ∧
    (∃ (ld : Fin 64) (slot : BitVec 4) (line : BitVec 40) (e : LdEntry) (s : Machine.State), s.stage = Stage.running ∧
      s.secs.ldEntry ↑ld = some e ∧ (List.find? (fun b => b.line == line.toNat && b.home == slot.toNat) (s.ld ↑ld).bisnp =
      none)) ∧
    (∃ (ld : Fin 64) (slot : BitVec 4) (line : BitVec 40) (s : Machine.State), s.stage = Stage.running ∧ s.conflictComing (↑ld)
      slot.toNat line.toNat = false) ∧
    (∃ (ld : Fin 64) (slot : BitVec 4) (line : BitVec 40) (s : Machine.State), s.stage = Stage.running ∧ s.conflictComing (↑ld)
      slot.toNat line.toNat = true) :=
  ⟨⟨3, 2, 9, e3, ⟨9, 1, 2, 5⟩, run3.onLd 3 (fun l => { l with bisnp := [⟨9, 1, 2, 5⟩] }), by decide +kernel⟩,
   ⟨3, 2, 9, e3, run3, by decide +kernel⟩,
   ⟨3, 2, 9, run3, by decide +kernel⟩,
   ⟨3, 2, 9, { run3 with coh := { flight := [⟨opRdS, .home, { src := 3, line := 9, slot := 2 }⟩] } }, by decide +kernel⟩⟩

theorem wit_logical_devices :
    (∃ (ld : Fin 64) (start : BitVec 64) (len : BitVec 64) (e : LdEntry) (x : ℕ × ℕ) (s : Machine.State), s.stage =
      Stage.running ∧ s.secs.ldEntry ↑ld = some e ∧ extentUnits start.toNat len.toNat = some x ∧ e.inRegion x.1 x.2 = true ∧
      (s.ld ↑ld).extents.any (meets x) = false ∧ (s.ld ↑ld).release = none ∧ (s.ld ↑ld).extents.length < 512) ∧
    (∃ (ld : Fin 64) (start : BitVec 64) (len : BitVec 64) (e : LdEntry) (x : ℕ × ℕ) (s : Machine.State), s.stage =
      Stage.running ∧ s.secs.ldEntry ↑ld = some e ∧ extentUnits start.toNat len.toNat = some x ∧ (e.inRegion x.1 x.2 = false ∨
      (s.ld ↑ld).extents.any (meets x) = true)) ∧
    (∃ (ld : Fin 64) (start : BitVec 64) (len : BitVec 64) (e : LdEntry) (x : ℕ × ℕ) (s : Machine.State), s.stage =
      Stage.running ∧ s.secs.ldEntry ↑ld = some e ∧ extentUnits start.toNat len.toNat = some x ∧ ((List.map (fun y => min (x.1 +
      x.2) (y.1 + y.2) - max x.1 y.1) (List.filter (meets x) (s.ld ↑ld).extents)).sum = x.2) ∧ (s.ld ↑ld).release = none ∧
      (List.flatMap (trimExtent x) (s.ld ↑ld).extents).length ≤ 512) ∧
    (∃ (ld : Fin 64) (start : BitVec 64) (len : BitVec 64) (e : LdEntry) (x : ℕ × ℕ) (s : Machine.State), s.stage =
      Stage.running ∧ s.secs.ldEntry ↑ld = some e ∧ extentUnits start.toNat len.toNat = some x ∧ ((List.map (fun y => min (x.1 +
      x.2) (y.1 + y.2) - max x.1 y.1) (List.filter (meets x) (s.ld ↑ld).extents)).sum ≠ x.2)) ∧
    (∃ (ld : Fin 64) (e : LdEntry) (r : DcRelease) (s : Machine.State), s.stage = Stage.running ∧ s.secs.ldEntry ↑ld = some e ∧
      (s.ld ↑ld).release = some r ∧ (((List.range r.len).any fun i => s.unitBusy (e.base + r.start + i)) = false)) ∧
    (∃ (ld : Fin 64) (e : LdEntry) (r : DcRelease) (s : Machine.State), s.stage = Stage.running ∧ s.secs.ldEntry ↑ld = some e ∧
      (s.ld ↑ld).release = some r ∧ (((List.range r.len).any fun i => s.unitBusy (e.base + r.start + i)) = true)) ∧
    (∃ (ld : Fin 64) (e : LdEntry) (s : Machine.State), s.stage = Stage.running ∧ s.secs.ldEntry ↑ld = some e ∧ s.on
      F.PRT_LINK_UP e.port = true) ∧
    (∃ (ld : Fin 64) (e : LdEntry) (s : Machine.State), s.stage = Stage.running ∧ s.secs.ldEntry ↑ld = some e ∧ s.on
      F.PRT_LINK_UP e.port = false) ∧
    (∃ (ld : Fin 64) (e : LdEntry) (s : Machine.State) (clear : Bool), s.stage = Stage.running ∧ s.secs.ldEntry ↑ld = some e ∧
      (s.ld ↑ld).resetting = some clear ∧ s.ldOpen ↑ld = false ∧ s.ldHolds ↑ld = false ∧ clear = false) ∧
    (∃ (ld : Fin 64) (e : LdEntry) (s : Machine.State) (clear : Bool), s.stage = Stage.running ∧ s.secs.ldEntry ↑ld = some e ∧
      (s.ld ↑ld).resetting = some clear ∧ s.ldOpen ↑ld = true) ∧
    (∃ (ld : Fin 64) (e : LdEntry) (s : Machine.State), s.stage = Stage.running ∧ s.secs.ldEntry ↑ld = some e ∧ s.rd
      F.FWC_STATUS_MONITOR = 0) ∧
    (∃ (ld : Fin 64) (e : LdEntry) (s : Machine.State), s.stage = Stage.running ∧ s.secs.ldEntry ↑ld = some e ∧ s.on
      F.FWC_STATUS_MONITOR = true) ∧
    (∃ (ld : Fin 64) (e : LdEntry) (s : Machine.State) (base : BitVec 64) (size : BitVec 64) (ways : BitVec 8) (gran : BitVec
      16) (commit : Bool) (h : Hdm), s.stage = Stage.running ∧ s.secs.ldEntry ↑ld = some e ∧ (h =
      { base := base.toNat, size := size.toNat, ways := ways.toNat, gran := gran.toNat, committed := commit })) ∧
    (∃ (q : Fin 1024) (from_ : QPort) (tag : BitVec 16) (r : Stalled) (s : Machine.State), s.stage = Stage.running ∧ (List.find?
      (fun r => r.queue == ↑q && decide (r.who = from_) && r.tag == tag.toNat) s.stalled = some r)) :=
  ⟨⟨3, 0x20000000#64, 0x20000000#64, e3, (2, 2), run3, by decide +kernel⟩,
   ⟨3, 0x10000000#64, 0x20000000#64, e3, (1, 2), run3, by decide +kernel⟩,
   ⟨3, 0x30000000#64, 0x10000000#64, e3, (3, 1), run3.onLd 3 (fun l => { l with extents := [(2, 2)] }), by decide +kernel⟩,
   ⟨3, 0x30000000#64, 0x10000000#64, e3, (3, 1), run3, by decide +kernel⟩,
   ⟨3, e3, ⟨3, 1, some .cc⟩, run3.onLd 3 (fun l => { l with release := some ⟨3, 1, some .cc⟩ }), by decide +kernel⟩,
   ⟨3, e3, ⟨3, 1, some .cc⟩, { run3.onLd 3 (fun l => { l with release := some ⟨3, 1, some .cc⟩ }) with reqs := [⟨3, 0, 0, opRdS, 2, 7 * 2 ^ 22, false⟩] }, by decide +kernel⟩,
   ⟨3, e3, run3, by decide +kernel⟩,
   ⟨3, e3, run2, by decide +kernel⟩,
   ⟨3, e3, run3.onLd 3 (fun l => { l with resetting := some false }), false, by refine ⟨?_, ?_, ?_, ?_, ?_, ?_⟩ <;> first | with_reducible rfl | decide +kernel⟩,
   ⟨3, e3, { run3.onLd 3 (fun l => { l with resetting := some false }) with reqs := [⟨3, 0, 0, opRdS, 2, 7 * 2 ^ 22, false⟩] }, false, by decide +kernel⟩,
   ⟨3, e3, run3, by decide +kernel⟩,
   ⟨3, e3, run3.wr F.FWC_STATUS_MONITOR 1, by decide +kernel⟩,
   ⟨3, e3, run3, 0x40000000#64, 0x10000000#64, 2, 256, true, { base := 0x40000000, size := 0x10000000, ways := 2, gran := 256, committed := true }, by refine ⟨?_, ?_, ?_⟩ <;> first | with_reducible rfl | decide +kernel⟩,
   ⟨9, .host (.ld 3), 5, ⟨0, .host (.ld 3), 9, 5⟩, { run3 with stalled := [⟨0, .host (.ld 3), 9, 5⟩] }, by decide +kernel⟩⟩

abbrev busy3 (s : State) : State := { s with map := { s.map with busy := [(3, .promote 0)] } }

theorem wit_map_slices :
    (∃ (h : Fin 16) (tt : BitVec 8) (r : MapReq) (s : Machine.State) (w : Machine.State), s.stage = Stage.running ∧ (List.find?
      (fun r => r.home == ↑h && r.tt == tt.toNat && r.st == ReqSt.flight) s.map.reqs = some r) ∧ (AtSlice s r w) ∧ (w.pageWaits
      (r.line / 64) = true) ∧ ((w.sliceCount (pageSlice (r.line / 64)) fun x => x == ReqSt.busyWait) < 240)) ∧
    (∃ (h : Fin 16) (tt : BitVec 8) (r : MapReq) (s : Machine.State) (w : Machine.State), s.stage = Stage.running ∧ (List.find?
      (fun r => r.home == ↑h && r.tt == tt.toNat && r.st == ReqSt.flight) s.map.reqs = some r) ∧ (AtSlice s r w) ∧ (w.pageWaits
      (r.line / 64) = false) ∧ ((w.sliceCount (pageSlice (r.line / 64)) fun x => x == ReqSt.busyWait) < 240) ∧ (w.sliceFull
      (pageSlice (r.line / 64)) = false) ∧ (w.mapHit { twin := false, m := r.line / 64 / 4, dirty := false } = false)) ∧
    (∃ (h : Fin 16) (tt : BitVec 8) (r : MapReq) (s : Machine.State) (w : Machine.State), s.stage = Stage.running ∧ (List.find?
      (fun r => r.home == ↑h && r.tt == tt.toNat && r.st == ReqSt.flight) s.map.reqs = some r) ∧ (AtSlice s r w) ∧ (w.pageWaits
      (r.line / 64) = false) ∧ ((w.sliceCount (pageSlice (r.line / 64)) fun x => x == ReqSt.busyWait) < 240) ∧ (w.sliceFull
      (pageSlice (r.line / 64)) = false) ∧ (w.mapHit { twin := false, m := r.line / 64 / 4, dirty := false } = true) ∧ r.write =
      false) ∧
    (∃ (p : BitVec 34) (x : BitVec 128) (s : Machine.State) (w : Machine.State), s.stage = Stage.running ∧ p.toNat <
      s.secs.pages ∧ (((s.dom (pageSlice p.toNat)).held.any fun y => y.2 == mapwrFlight p.toNat x.toNat) = false) ∧ (Brought s
      (mapwrFlight p.toNat x.toNat) w) ∧ w.domHolds (pageSlice p.toNat) (opNet opMAPWR) = false) ∧
    (∃ (twin : Bool) (m : BitVec 34) (s : Machine.State), s.stage = Stage.running ∧ ((s.map.fills.any fun t => t.same
      { twin := twin, m := m.toNat, dirty := false }) = true)) ∧
    (∃ (who : Initiator) (s : Machine.State), (Permitted s who 12582912 true)) ∧
    (∃ (who : Initiator) (v : BitVec 64) (s : Machine.State), (Permitted s who 12582944 true) ∧ v.toNat.testBit 0 = true) ∧
    (∃ (s : Machine.State), s.stage = Stage.running ∧ s.on F.MAP_AGE_CTL_BUSY = true ∧ s.sweepHeld = true) ∧
    (∃ (s : Machine.State), s.stage = Stage.running ∧ s.on F.MAP_AGE_CTL_BUSY = true ∧ smSorted s.map.pmes = true ∧ (s.map.busy
      = []) ∧ (s.map.reqs = [])) :=
  ⟨⟨1, 5, look true, busy3 (looking true), off (mapFlight (look true)) (busy3 (looking true)), by refine ⟨?_, ?_, ?_, ?_, ?_⟩ <;> first | with_reducible rfl | decide +kernel | (unfold AtSlice; decide +kernel) | (unfold AtSlice Brought; refine Eq.mpr (if_pos (by decide +kernel)) ?_; decide +kernel) | (unfold AtSlice; refine Eq.mpr (if_neg (by decide +kernel)) ?_; decide +kernel)⟩,
   ⟨1, 5, look true, looking true, off (mapFlight (look true)) (looking true), by refine ⟨?_, ?_, ?_, ?_, ?_, ?_, ?_⟩ <;> first | with_reducible rfl | decide +kernel | (unfold AtSlice; decide +kernel) | (unfold AtSlice Brought; refine Eq.mpr (if_pos (by decide +kernel)) ?_; decide +kernel) | (unfold AtSlice; refine Eq.mpr (if_neg (by decide +kernel)) ?_; decide +kernel)⟩,
   ⟨1, 5, look false, { looking false with map := { (looking false).map with cache := [⟨false, 0, false⟩] } }, off (mapFlight (look false)) { looking false with map := { (looking false).map with cache := [⟨false, 0, false⟩] } }, by refine ⟨?_, ?_, ?_, ?_, ?_, ?_, ?_, ?_⟩ <;> first | with_reducible rfl | decide +kernel | (unfold AtSlice; decide +kernel) | (unfold AtSlice Brought; refine Eq.mpr (if_pos (by decide +kernel)) ?_; decide +kernel) | (unfold AtSlice; refine Eq.mpr (if_neg (by decide +kernel)) ?_; decide +kernel)⟩,
   ⟨3, 0x4000000000000001, run2, off (mapwrFlight 3 0x4000000000000001) run2, by unfold Brought; decide +kernel⟩,
   ⟨false, 0, { run2 with map := { run2.map with reqs := [{ rq with st := .fillWait }], fills := [⟨false, 0, false⟩] } }, by decide +kernel⟩,
   ⟨.cc, { run2 with map := { run2.map with cache := [⟨false, 0, true⟩, ⟨true, 3, true⟩] } }, by unfold Permitted; decide +kernel⟩,
   ⟨.cc, 1#64, run2, by unfold Permitted; decide +kernel⟩,
   ⟨({ run2 with map := { run2.map with pmes := [(3, { tier := 1, age := 255 })], busy := [(3, .promote 0)], reqs := [{ rq with home := sweepHome, st := .busyWait }] } }.wr F.MAP_AGE_CTL_BUSY 1).wr F.MAP_AGE_CTL_SWEEP 1, by decide +kernel⟩,
   ⟨(run2.wr F.MAP_AGE_CTL_BUSY 1).wr F.MAP_AGE_CTL_SWEEP 1, by decide +kernel⟩⟩

abbrev blockPage : State := { keyed with map := { keyed.map with pmes := [(0, { tier := 2, loc := 131072, bsz := 1, key := 7 })], busy := [(0, .promote 5)] } }
abbrev tagged0 : State := blockPage.wr F.KEY_REG_CFG_INTEG 1 0 5
abbrev tagged : State := { tagged0 with map := { tagged0.map with tags := [(0, tagged0.galFor (tagged0.blockChan (tagged0.runOf 0 (tagged0.pme 0)) 0), none)] } }
abbrev prom4 : State := { run2 with map := { run2.map with busy := [(3, .promote 5)] } }
abbrev fenceAll (s : State) : State := s.forEach (List.range 16) (fun s g => s.wr F.NOC_DOM_STATUS_STATE domFENCED 0 (16 + g))

theorem wit_space_for_writes :
    (∃ (p : BitVec 34) (f : ℕ) (s : Machine.State) (w : Machine.State) (known : Bool), s.stage = Stage.running ∧ (List.find?
      (fun x => x.1 == p.toNat) s.map.busy = some (p.toNat, BusyOp.promote f)) ∧ ((known, w) = if s.integ p.toNat = 0 ∨ (s.pme
      p.toNat).twin = true then (true, s) else ((s.tagLine p.toNat (s.galFor (s.blockChan (s.runOf p.toNat (s.pme p.toNat))
      0))).1.isSome, (s.tagLine p.toNat (s.galFor (s.blockChan (s.runOf p.toNat (s.pme p.toNat)) 0))).2)) ∧ known = false) ∧
    (∃ (p : BitVec 34) (f : ℕ) (s : Machine.State) (w : Machine.State) (known : Bool), s.stage = Stage.running ∧ (List.find?
      (fun x => x.1 == p.toNat) s.map.busy = some (p.toNat, BusyOp.promote f)) ∧ ((known, w) = if s.integ p.toNat = 0 ∨ (s.pme
      p.toNat).twin = true then (true, s) else ((s.tagLine p.toNat (s.galFor (s.blockChan (s.runOf p.toNat (s.pme p.toNat))
      0))).1.isSome, (s.tagLine p.toNat (s.galFor (s.blockChan (s.runOf p.toNat (s.pme p.toNat)) 0))).2)) ∧ known = true ∧
      (w.galsDown (w.runOf p.toNat (w.pme p.toNat)) = [])) ∧
    (∃ (p : BitVec 34) (f : ℕ) (s : Machine.State) (w : Machine.State) (known : Bool), s.stage = Stage.running ∧ (List.find?
      (fun x => x.1 == p.toNat) s.map.busy = some (p.toNat, BusyOp.promote f)) ∧ ((known, w) = if s.integ p.toNat = 0 ∨ (s.pme
      p.toNat).twin = true then (true, s) else ((s.tagLine p.toNat (s.galFor (s.blockChan (s.runOf p.toNat (s.pme p.toNat))
      0))).1.isSome, (s.tagLine p.toNat (s.galFor (s.blockChan (s.runOf p.toNat (s.pme p.toNat)) 0))).2)) ∧ known = true ∧
      (w.galsDown (w.runOf p.toNat (w.pme p.toNat)) ≠ [])) ∧
    (∃ (older : List MapReq) (rest : List MapReq) (r : MapReq) (f : ℕ) (s : Machine.State), s.stage = Stage.running ∧
      (s.map.reqs = older ++ r :: rest) ∧ (∀ x ∈ older, x.st = ReqSt.held → ∀ (g : ℕ), s.frameSrc (x.line / 64) ≠ FrameSrc.frame
      g) ∧ r.st = ReqSt.held ∧ (s.frameSrc (r.line / 64) = FrameSrc.frame f)) ∧
    (∃ (s : Machine.State), s.stage = Stage.running ∧ (∀ r ∈ s.map.reqs, r.st = ReqSt.held → ∀ (g : ℕ), s.frameSrc (r.line / 64)
      ≠ FrameSrc.frame g)) ∧
    (∃ (h : Fin 16) (tt : BitVec 8) (r : MapReq) (s : Machine.State), s.stage = Stage.running ∧ s.mapReq (↑h) tt.toNat true =
      some r ∧ r.st = ReqSt.held ∧ s.tierPaused = true) ∧
    (∃ (h : Fin 16) (tt : BitVec 8) (r : MapReq) (s : Machine.State), s.stage = Stage.running ∧ s.mapReq (↑h) tt.toNat true =
      some r ∧ r.st = ReqSt.held ∧ s.tierPaused = false ∧ (∀ (g : ℕ), s.frameSrc (r.line / 64) ≠ FrameSrc.frame g)) ∧
    (∃ (k : Fin 32) (s : Machine.State) (cl : Claim), s.stage = Stage.running ∧ (cl ∈ if ↑k < 4 then [Claim.hall ↑k] else
      (Option.map Claim.heap (List.find? (fun g => 16 + g.idx == ↑k) s.map.groups)).toList) ∧ s.rd F.MAP_POOL_F_F 0 ↑k < s.rd
      F.MAP_POOL_WATER_LOW_WATER 0 ↑k ∧ s.tierPaused = true) ∧
    (∃ (k : Fin 32) (s : Machine.State) (cl : Claim) (c : ℕ), s.stage = Stage.running ∧ (cl ∈ if ↑k < 4 then [Claim.hall ↑k]
      else (Option.map Claim.heap (List.find? (fun g => 16 + g.idx == ↑k) s.map.groups)).toList) ∧ s.rd F.MAP_POOL_F_F 0 ↑k <
      s.rd F.MAP_POOL_WATER_LOW_WATER 0 ↑k ∧ s.tierPaused = false ∧ s.grantOf cl = some c) ∧
    (∃ (k : Fin 32) (s : Machine.State) (cl : Claim), s.stage = Stage.running ∧ (cl ∈ if ↑k < 4 then [Claim.hall ↑k] else
      (Option.map Claim.heap (List.find? (fun g => 16 + g.idx == ↑k) s.map.groups)).toList) ∧ s.rd F.MAP_POOL_F_F 0 ↑k < s.rd
      F.MAP_POOL_WATER_LOW_WATER 0 ↑k ∧ s.tierPaused = false ∧ s.grantOf cl = none) ∧
    (∃ (c : BitVec 32) (pool : ℕ) (s : Machine.State), s.stage = Stage.running ∧ (List.find? (fun x => x.1 == c.toNat)
      s.map.zeroing = some (c.toNat, pool))) :=
  ⟨⟨0, 5, tagged, (tagged.tagLine 0 (tagged.galFor (tagged.blockChan (tagged.runOf 0 (tagged.pme 0)) 0))).2, false, by refine ⟨?_, ?_, ?_, ?_⟩ <;> first | with_reducible rfl | decide +kernel⟩,
   ⟨3, 5, prom4, prom4, true, by refine ⟨?_, ?_, ?_, ?_, ?_⟩ <;> first | with_reducible rfl | decide +kernel⟩,
   ⟨0, 5, fenceAll blockPage, fenceAll blockPage, true, by refine ⟨?_, ?_, ?_, ?_, ?_⟩ <;> first | with_reducible rfl | decide +kernel⟩,
   ⟨[], [], rq, 1, heldReq hall1, by refine ⟨?_, ?_, ?_, ?_, ?_⟩ <;> first | with_reducible rfl | decide +kernel | (intro _ h; cases h) | (intro r h; rw [show run2.map.reqs = [] by decide +kernel] at h; cases h) | (intro g h; rw [show (heldReq run1).frameSrc (rq.line / 64) = .none by decide +kernel] at h; cases h)⟩,
   ⟨run2, by refine ⟨?_, ?_⟩ <;> first | with_reducible rfl | decide +kernel | (intro _ h; cases h) | (intro r h; rw [show run2.map.reqs = [] by decide +kernel] at h; cases h) | (intro g h; rw [show (heldReq run1).frameSrc (rq.line / 64) = .none by decide +kernel] at h; cases h)⟩,
   ⟨1, 5, rq, paused (heldReq run2), by decide +kernel⟩,
   ⟨1, 5, rq, heldReq run1, by refine ⟨?_, ?_, ?_, ?_, ?_⟩ <;> first | with_reducible rfl | decide +kernel | (intro _ h; cases h) | (intro r h; rw [show run2.map.reqs = [] by decide +kernel] at h; cases h) | (intro g h; rw [show (heldReq run1).frameSrc (rq.line / 64) = .none by decide +kernel] at h; cases h)⟩,
   ⟨0, paused (run2.wr F.MAP_POOL_WATER_LOW_WATER 9 0 0), .hall 0, by decide +kernel⟩,
   ⟨0, run2.wr F.MAP_POOL_WATER_LOW_WATER 9 0 0, .hall 0, 0, by decide +kernel⟩,
   ⟨0, run1.wr F.MAP_POOL_WATER_LOW_WATER 9 0 0, .hall 0, by decide +kernel⟩,
   ⟨9, 0, { run2 with map := { run2.map with zeroing := [(9, 0)] } }, by decide +kernel⟩⟩

theorem wit_page_access :
    (∃ (who : Initiator) (s : Machine.State), (Permitted s who 12582968 true) ∧ s.rd F.MAP_PME_IDX_PAGE < s.secs.pages ∧ s.lost
      (s.rd F.MAP_PME_IDX_PAGE) = false) ∧
    (∃ (who : Initiator) (age : BitVec 8) (s : Machine.State) (c : Instr), (Permitted s who 12582968 true) ∧ (c ∈ [Instr.pmeRead
      who age, Instr.pmeSetPin who age, Instr.pmeClearPin who age, Instr.pmeSetPoison who age, Instr.pmeWriteAge who age]) ∧
      s.secs.pages ≤ s.rd F.MAP_PME_IDX_PAGE) ∧
    (∃ (who : Initiator) (age : BitVec 8) (s : Machine.State) (c : Instr), (Permitted s who 12582968 true) ∧ (c ∈ [Instr.pmeRead
      who age, Instr.pmeSetPin who age, Instr.pmeClearPin who age, Instr.pmeSetPoison who age, Instr.pmeWriteAge who age]) ∧
      s.rd F.MAP_PME_IDX_PAGE < s.secs.pages ∧ s.lost (s.rd F.MAP_PME_IDX_PAGE) = true) ∧
    (∃ (who : Initiator) (s : Machine.State), (Permitted s who 12582992 true)) :=
  ⟨⟨.cc, run2.wr F.MAP_PME_IDX_PAGE 3, by unfold Permitted; decide +kernel⟩,
   ⟨.cc, 77, run2.wr F.MAP_PME_IDX_PAGE 0x90000, .pmeRead .cc 77, by unfold Permitted; decide +kernel⟩,
   ⟨.cc, 77, { run2 with map := { run2.map with lost := [3] } }.wr F.MAP_PME_IDX_PAGE 3, .pmeSetPin .cc 77, by unfold Permitted; decide +kernel⟩,
   ⟨.cc, run2, by unfold Permitted; decide +kernel⟩⟩

abbrev erasing : State := key0.setKeySlot 7 { cur := ⟨1, 2, 3⟩, erasing := true }

theorem wit_key_programming :
    (∃ (who : Initiator) (id : BitVec 32) (req : Bytes) (s : Machine.State) (c : ℕ × Instr), s.stage = Stage.running ∧ s.vdmBusy
      = true ∧ (c ∈ [(1, Instr.keyLoad who id req), (2, Instr.keyRetire who id req), (3, Instr.keyErase who id req)])) ∧
    (∃ (who : Initiator) (id : BitVec 32) (req : Bytes) (s : Machine.State), s.stage = Stage.running ∧ s.vdmBusy = false ∧
      s.keyResult who id.toNat 1 req = keyOK) ∧
    (∃ (who : Initiator) (id : BitVec 32) (req : Bytes) (s : Machine.State), s.stage = Stage.running ∧ s.vdmBusy = false ∧
      s.keyResult who id.toNat 2 req = keyOK) ∧
    (∃ (who : Initiator) (id : BitVec 32) (req : Bytes) (s : Machine.State), s.stage = Stage.running ∧ s.vdmBusy = false ∧
      s.keyResult who id.toNat 3 req = keyOK) ∧
    (∃ (who : Initiator) (id : BitVec 32) (req : Bytes) (s : Machine.State) (c : ℕ × Instr), s.stage = Stage.running ∧ s.vdmBusy
      = false ∧ (c ∈ [(1, Instr.keyLoad who id req), (2, Instr.keyRetire who id req), (3, Instr.keyErase who id req)]) ∧
      s.keyResult who id.toNat c.1 req ≠ keyOK) ∧
    (∃ (n : Fin 256) (s : Machine.State), s.stage = Stage.running ∧ (s.keySlot ↑n).erasing = true ∧ s.keyInUse ↑n = true) ∧
    (∃ (n : Fin 256) (s : Machine.State), s.stage = Stage.running ∧ (s.keySlot ↑n).erasing = true ∧ s.keyInUse ↑n = false) ∧
    (∃ (who : Initiator) (id : ℕ) (s : Machine.State), s.ownerSession who id = false) :=
  ⟨⟨.ld 3, 9, keyReq 1, erasing, (2, .keyRetire (.ld 3) 9 (keyReq 1)), by decide +kernel⟩,
   ⟨.ld 3, 9, keyReq 1, key0, by decide +kernel⟩,
   ⟨.ld 3, 9, keyReq 2, (key0.wr F.KEY_SLOT_STATE_STATE 1 0 7), by decide +kernel⟩,
   ⟨.ld 3, 9, [3, 7, 0, 0], (key0.wr F.KEY_SLOT_STATE_STATE 1 0 7), by decide +kernel⟩,
   ⟨.ld 3, 9, keyReq 1, key0.wr F.KEY_SLOT_STATE_STATE 1 0 7, (1, .keyLoad (.ld 3) 9 (keyReq 1)), by decide +kernel⟩,
   ⟨7, { erasing with map := { erasing.map with busy := [(3, .promote 0)], pmes := [(3, { tier := 2, key := 7 })] } }, by decide +kernel⟩,
   ⟨7, erasing, by decide +kernel⟩,
   ⟨.ld 3, 5, key0, by decide +kernel⟩⟩

theorem wit_region_table :
    (∃ (who : Initiator) (n : Fin 1024) (s : Machine.State), (Permitted s who (F.KEY_REG_CFG_VALID.addr 0 ↑n) true) ∧ s.isOwner
      who = false) ∧
    (∃ (who : Initiator) (n : Fin 1024) (v : BitVec 64) (s : Machine.State), (Permitted s who (F.KEY_REG_CFG_VALID.addr 0 ↑n)
      true) ∧ s.isOwner who = true ∧ v.toNat.testBit 63 = true ∧ s.regionOk (↑n) (min 2 (F.KEY_REG_CFG_INTEG.of v.toNat)) =
      false) ∧
    (∃ (who : Initiator) (n : Fin 1024) (v : BitVec 64) (s : Machine.State), (Permitted s who (F.KEY_REG_CFG_VALID.addr 0 ↑n)
      true) ∧ s.isOwner who = true ∧ (v.toNat.testBit 63 = true → s.regionOk (↑n) (min 2 (F.KEY_REG_CFG_INTEG.of v.toNat)) =
      true)) :=
  ⟨⟨.cc, 5, own0, by unfold Permitted; decide +kernel⟩,
   ⟨.ld 3, 5, 0x8000000000000000#64, own0, by unfold Permitted; decide +kernel⟩,
   ⟨.ld 3, 5, 0x8000000000000007#64, (own0.wr F.KEY_REG_LIMIT_LIMIT 8 0 5).setKeySlot 7 { cur := ⟨1, 2, 3⟩ } |>.wr F.KEY_SLOT_STATE_STATE 1 0 7, by unfold Permitted; decide +kernel⟩⟩

abbrev nown : CohMsg := { msg 80 with noown := true }
abbrev wbs : State := { run2 with coh := { homes := [(5, { wdb := [⟨80, 5, ⟨7, 1, false⟩, false⟩] })] } }
abbrev full5 : State := { run2 with coh := { homes := [(5, { confq := List.replicate 64 ⟨opRdS, .home, msg 81⟩ })] } }
abbrev al : TT := { tt0 with st := .alloc }
abbrev far5 : Flight := ⟨opRdS, .home, { msg 80 with slot := 5 }⟩
abbrev pfa : PfTx := { slot := 5, line := 5, req := some far5, next := .alloc }

theorem wit_home_requests :
    (∃ (m : CohMsg) (e : ℕ) (s : Machine.State) (w : Machine.State) (c : ℕ × CohMsg × Instr), (c ∈ [(opRdNC, m, Instr.rdnc m),
      (opRdS,
      { src := m.src, line := m.line, slot := m.slot, htag := m.htag, rtag := m.rtag, noalloc := true, noown := m.noown, rcall := m.rcall, lock := m.lock, fwd := m.fwd, grant := m.grant, poison := m.poison, write := m.write, reqid := m.reqid, mask := m.mask, data := m.data },
      Instr.rds
      { src := m.src, line := m.line, slot := m.slot, htag := m.htag, rtag := m.rtag, noalloc := true, noown := m.noown, rcall := m.rcall, lock := m.lock, fwd := m.fwd, grant := m.grant, poison := m.poison, write := m.write, reqid := m.reqid, mask := m.mask, data := m.data })])
      ∧ (HomeFree s w c.1 c.2.1 e) ∧ w.dirFind m.line.toNat = none) ∧
    (∃ (m : CohMsg) (e : ℕ) (s : Machine.State) (w : Machine.State) (v : ℕ) (c : ℕ × Instr), m.noalloc = false ∧ w.freeWay
      (homeOf m.line.toNat) m.line.toNat = some v ∧ (w.dirEnt m.line.toNat v).sharers = 0 ∧ w.dirFind m.line.toNat = none ∧
      (((w.tts (homeOf m.line.toNat)).all fun x => !(x.2.st == HbSt.alloc && lineSet x.2.line == lineSet m.line.toNat)) = true)
      ∧ (c ∈ [(opRdS, Instr.rds m), (opRdO, Instr.rdo m), (opUpg, Instr.upg m)]) ∧ (HomeFree s w c.1 m e)) ∧
    (∃ (m : CohMsg) (e : ℕ) (s : Machine.State) (w : Machine.State), (HomeFree s w opEvC m e) ∧ w.dirFind m.line.toNat = none ∧
      m.src.toNat < 81) ∧
    (∃ (m : CohMsg) (e : ℕ) (s : Machine.State) (w : Machine.State) (v : Wdb), (HomeFree s w opWbD m e) ∧ w.dirFind m.line.toNat
      = none ∧ w.wdbOf (homeOf m.line.toNat) m.src.toNat m.line.toNat = some v ∧ v.absorbed = false ∧ m.noown = true) ∧
    (∃ (m : CohMsg) (s : Machine.State) (w : Machine.State) (c : ℕ × Instr), s.stage = Stage.running ∧ m.src.toNat < 96 ∧
      m.slot.toNat = s.slot ∧ (m.src.toNat < 64 → (w.ld m.src.toNat).conflicts.contains (m.slot.toNat, m.line.toNat) = false) ∧
      (c ∈ [(opRdS, Instr.rds m), (opRdO, Instr.rdo m), (opUpg, Instr.upg m), (opWbD, Instr.wbd m), (opEvC, Instr.evc m),
      (opRdNC, Instr.rdnc m)]) ∧ s.homeAccepts (homeOf m.line.toNat) = true ∧ (Brought s
      { opc := c.1, dst := Dest.home, msg := m } w) ∧ w.domHolds (homeOf m.line.toNat) 0 = false ∧ w.lineBusy m.line.toNat =
      true) ∧
    (∃ (m : CohMsg) (s : Machine.State) (w : Machine.State) (c : ℕ × Instr), s.stage = Stage.running ∧ m.src.toNat < 96 ∧
      m.slot.toNat = s.slot ∧ (m.src.toNat < 64 → (w.ld m.src.toNat).conflicts.contains (m.slot.toNat, m.line.toNat) = false) ∧
      (c ∈ [(opRdS, Instr.rds m), (opRdO, Instr.rdo m), (opUpg, Instr.upg m), (opWbD, Instr.wbd m), (opEvC, Instr.evc m),
      (opRdNC, Instr.rdnc m)]) ∧ s.homeAccepts (homeOf m.line.toNat) = false ∧ s.domHolds (homeOf m.line.toNat) 0 = false) ∧
    (∃ (h : Fin 16) (set : BitVec 13) (s : Machine.State), s.stage = Stage.running ∧ s.allocOldest (↑h) set.toNat = none ∧
      s.pfAllocOldest (↑h) set.toNat = none) ∧
    (∃ (h : Fin 16) (set : BitVec 13) (s : Machine.State) (k : ℕ) (x : TT) (u : Machine.State), s.stage = Stage.running ∧
      (List.filter (fun x => x.2.st == HbSt.alloc && lineSet x.2.line == set.toNat) (s.tts ↑h) = [(k, x)]) ∧ (u = (s.takeWay
      (↑h) (k % 256) x false).tryClose (↑h) (k % 256)) ∧ u.pfAllocOldest (↑h) set.toNat = none) ∧
    (∃ (h : Fin 16) (set : BitVec 13) (s : Machine.State) (x : PfTx) (f : Flight), s.stage = Stage.running ∧ s.allocOldest (↑h)
      set.toNat = none ∧ s.pfAllocOldest (↑h) set.toNat = some x ∧ x.req = some f) :=
  ⟨⟨msg 80, 0, run2, off ⟨opRdNC, .home, msg 80⟩ run2, (opRdNC, msg 80, .rdnc (msg 80)), by refine ⟨?_, ?_, ?_⟩ <;> first | with_reducible rfl | decide +kernel | (unfold HomeFree; decide +kernel) | (unfold HomeFree Brought; decide +kernel)⟩,
   ⟨msg 80, 0, run2, off ⟨opRdS, .home, msg 80⟩ run2, 0, (opRdS, .rds (msg 80)), by refine ⟨?_, ?_, ?_, ?_, ?_, ?_, ?_⟩ <;> first | with_reducible rfl | decide +kernel | (unfold HomeFree; decide +kernel) | (unfold HomeFree Brought; decide +kernel)⟩,
   ⟨msg 80, 0, run2, off ⟨opEvC, .home, msg 80⟩ run2, by refine ⟨?_, ?_, ?_⟩ <;> first | with_reducible rfl | decide +kernel | (unfold HomeFree; decide +kernel) | (unfold HomeFree Brought; decide +kernel)⟩,
   ⟨nown, 0, wbs, off ⟨opWbD, .home, nown⟩ wbs, ⟨80, 5, ⟨7, 1, false⟩, false⟩, by refine ⟨?_, ?_, ?_, ?_, ?_⟩ <;> first | with_reducible rfl | decide +kernel | (unfold HomeFree; decide +kernel) | (unfold HomeFree Brought; decide +kernel)⟩,
   ⟨msg 80, withTT tt0, off ⟨opRdO, .home, msg 80⟩ (withTT tt0), (opRdO, .rdo (msg 80)), by unfold Brought; decide +kernel⟩,
   ⟨msg 80, full5, full5, (opRdO, .rdo (msg 80)), by decide +kernel⟩,
   ⟨5, 0, run2, by decide +kernel⟩,
   ⟨5, 0, withTT al, 256 * 5 + 3, al, ((withTT al).takeWay 5 3 al false).tryClose 5 3, by refine ⟨?_, ?_, ?_, ?_⟩ <;> first | with_reducible rfl | decide +kernel⟩,
   ⟨5, 0, { run2 with coh := { pfTx := [pfa] } }, pfa, far5, by decide +kernel⟩⟩

abbrev wbc : State := { run2 with coh := { flight := [⟨opWbD, .home, msg 81⟩] } }
abbrev memo : State := { withTT { tt0 with memOut := true } with map := { run2.map with reqs := [servedReq false] } }
abbrev tthall : State := { hallPage with coh := { tt := [(256 * 5 + 3, { tt0 with memOut := true, msg := { msg 80 with line := 197 } })] }, map := { hallPage.map with reqs := [{ servedReq false with line := 197 }] } }
abbrev wbp : State := { withTT { tt0 with memOut := true, st := .wb } with map := { run2.map with reqs := [servedReq false] } }
abbrev wro : State := { withTT { tt0 with wrOut := true, st := .wb } with map := { run2.map with reqs := [servedReq true] } }
abbrev lk : State := withTT { tt0 with lockAt := some 0 }

theorem wit_home_answers :
    (∃ (m : CohMsg) (x : TT) (y : TT) (s : Machine.State) (w : Machine.State) (c : ℕ × Instr), s.stage = Stage.running ∧
      m.slot.toNat = s.slot ∧ w.domHolds (homeOf m.line.toNat) 2 = false ∧ w.tt (homeOf m.line.toNat) m.htag.toNat = some x ∧
      x.st = HbSt.snp ∧ x.await.contains m.src.toNat = true ∧ x.line = m.line.toNat ∧ (y =
      { opc := x.opc, msg := x.msg, st := x.st, seq := x.seq, plan := x.plan, way := x.way, victim := x.victim, snp := x.snp, await := List.filter (fun x => x != m.src.toNat) x.await, crossed := x.crossed, dm := x.dm, mem := x.mem, memOut := x.memOut, wd := x.wd, wrOut := x.wrOut, wrote := x.wrote, sent := x.sent, lockAt := x.lockAt })
      ∧ x.plan ≠ Plan.forward ∧ (c ∈ [(opRspI, Instr.rspi m), (opRspS, Instr.rsps m), (opRspF, Instr.rspf m)]) ∧ (Brought s
      { opc := c.1, dst := Dest.home, msg := m } w)) ∧
    (∃ (m : CohMsg) (x : TT) (y : TT) (s : Machine.State) (w : Machine.State) (c : ℕ × Instr), s.stage = Stage.running ∧
      m.slot.toNat = s.slot ∧ w.domHolds (homeOf m.line.toNat) 2 = false ∧ w.tt (homeOf m.line.toNat) m.htag.toNat = some x ∧
      x.st = HbSt.snp ∧ x.await.contains m.src.toNat = true ∧ x.line = m.line.toNat ∧ (y =
      { opc := x.opc, msg := x.msg, st := x.st, seq := x.seq, plan := x.plan, way := x.way, victim := x.victim, snp := x.snp, await := List.filter (fun x => x != m.src.toNat) x.await, crossed := x.crossed, dm := x.dm, mem := x.mem, memOut := x.memOut, wd := x.wd, wrOut := x.wrOut, wrote := x.wrote, sent := x.sent, lockAt := x.lockAt })
      ∧ x.plan = Plan.forward ∧ (c ∈ [(opRspS, Instr.rsps m), (opRspF, Instr.rspf m)]) ∧ (Brought s
      { opc := c.1, dst := Dest.home, msg := m } w)) ∧
    (∃ (m : CohMsg) (x : TT) (y : TT) (s : Machine.State) (w : Machine.State), s.stage = Stage.running ∧ m.slot.toNat = s.slot ∧
      w.domHolds (homeOf m.line.toNat) 2 = false ∧ w.tt (homeOf m.line.toNat) m.htag.toNat = some x ∧ x.st = HbSt.snp ∧
      x.await.contains m.src.toNat = true ∧ x.line = m.line.toNat ∧ (y =
      { opc := x.opc, msg := x.msg, st := x.st, seq := x.seq, plan := x.plan, way := x.way, victim := x.victim, snp := x.snp, await := List.filter (fun x => x != m.src.toNat) x.await, crossed := x.crossed, dm := x.dm, mem := x.mem, memOut := x.memOut, wd := x.wd, wrOut := x.wrOut, wrote := x.wrote, sent := x.sent, lockAt := x.lockAt })
      ∧ w.wdbOf (homeOf m.line.toNat) m.src.toNat m.line.toNat = none ∧ x.dm = none ∧ x.sent = false ∧ (Brought s
      { opc := opRspX, dst := Dest.home, msg := m } w)) ∧
    (∃ (m : CohMsg) (s : Machine.State) (w : Machine.State) (c : ℕ × Instr), s.stage = Stage.running ∧ m.slot.toNat = s.slot ∧
      w.domHolds (homeOf m.line.toNat) 2 = false ∧ w.tt (homeOf m.line.toNat) m.htag.toNat = none ∧ (c ∈ [(opRspI, Instr.rspi
      m), (opRspS, Instr.rsps m), (opRspF, Instr.rspf m), (opRspX, Instr.rspx m)]) ∧ (Brought s
      { opc := c.1, dst := Dest.home, msg := m } w)) ∧
    (∃ (m : CohMsg) (s : Machine.State) (w : Machine.State), s.stage = Stage.running ∧ (Brought s
      { opc := opDataM, dst := Dest.home, msg := m } w) ∧ w.domHolds (homeOf m.line.toNat) 3 = false ∧ m.slot.toNat = s.slot ∧
      (∀ r ∈ w.reqs, ¬(r.ld = m.src.toNat ∧ r.opc = opDataM ∧ r.line = m.line.toNat)) ∧ w.lineBusy m.line.toNat = false ∧
      w.wbdComing (homeOf m.line.toNat) m.src.toNat m.line.toNat = true) ∧
    (∃ (m : CohMsg) (s : Machine.State) (w : Machine.State) (a : Fin 96), s.stage = Stage.running ∧ (Brought s
      { opc := opDataM, dst := Dest.agent ↑a, msg := m } w) ∧ caches ↑a = true ∧ (↑a < 80 → w.domHolds (↑a - 48) 3 = false)) ∧
    (∃ (h : Fin 16) (e : BitVec 8) (x : TT) (r : MapReq) (s : Machine.State), s.stage = Stage.running ∧ s.tt (↑h) e.toNat = some
      x ∧ x.memOut = true ∧ s.mapReq (↑h) e.toNat false = some r ∧ r.st = ReqSt.served ∧ x.st ≠ HbSt.wb ∧ (r.got.isSome = true ∨
      s.sleepers (s.readMas x.line) = [] ∧ s.blockHeld x.line = none) ∧ (s.tagOnRead (x.line / 64) = false ∨ s.lost (x.line /
      64) = true)) ∧
    (∃ (h : Fin 16) (e : BitVec 8) (x : TT) (r : MapReq) (s : Machine.State), s.stage = Stage.running ∧ s.tt (↑h) e.toNat = some
      x ∧ x.memOut = true ∧ s.mapReq (↑h) e.toNat false = some r ∧ r.st = ReqSt.served ∧ x.st ≠ HbSt.wb ∧ r.got = none ∧
      (s.sleepers (s.readMas x.line) ≠ [])) ∧
    (∃ (h : Fin 16) (e : BitVec 8) (x : TT) (r : MapReq) (s : Machine.State), s.stage = Stage.running ∧ s.tt (↑h) e.toNat = some
      x ∧ x.memOut = true ∧ s.mapReq (↑h) e.toNat false = some r ∧ r.st = ReqSt.served ∧ x.st = HbSt.wb) ∧
    (∃ (h : Fin 16) (e : BitVec 8) (x : TT) (r : MapReq) (s : Machine.State) (w : Machine.State), s.stage = Stage.running ∧ s.tt
      (↑h) e.toNat = some x ∧ x.wrOut = true ∧ s.mapReq (↑h) e.toNat true = some r ∧ r.st = ReqSt.served ∧ (s.bring (wdoneFlight
      r) = (true, w)) ∧ (x.plan = Plan.copy → x.wd = none)) ∧
    (∃ (h : Fin 16) (e : BitVec 8) (x : TT) (s : Machine.State), s.stage = Stage.running ∧ s.tt (↑h) e.toNat = some x ∧ x.lockAt
      ≠ none) :=
  ⟨⟨msg 81, tt0, { tt0 with await := [] }, withTT tt0, off ⟨opRspI, .home, msg 81⟩ (withTT tt0), (opRspI, .rspi (msg 81)), by refine ⟨?_, ?_, ?_, ?_, ?_, ?_, ?_, ?_, ?_, ?_, ?_⟩ <;> first | with_reducible rfl | decide +kernel | (unfold Brought; decide +kernel)⟩,
   ⟨msg 81, { tt0 with plan := .forward, opc := opRdS }, { tt0 with plan := .forward, await := [], opc := opRdS }, withTT { tt0 with plan := .forward, opc := opRdS }, off ⟨opRspF, .home, msg 81⟩ (withTT { tt0 with plan := .forward, opc := opRdS }), (opRspF, .rspf (msg 81)), by refine ⟨?_, ?_, ?_, ?_, ?_, ?_, ?_, ?_, ?_, ?_, ?_⟩ <;> first | with_reducible rfl | decide +kernel | (unfold Brought; decide +kernel)⟩,
   ⟨msg 81, tt0, { tt0 with await := [] }, withTT tt0, off ⟨opRspX, .home, msg 81⟩ (withTT tt0), by refine ⟨?_, ?_, ?_, ?_, ?_, ?_, ?_, ?_, ?_, ?_, ?_, ?_⟩ <;> first | with_reducible rfl | decide +kernel | (unfold Brought; decide +kernel)⟩,
   ⟨msg 81, run2, off ⟨opRspX, .home, msg 81⟩ run2, (opRspX, .rspx (msg 81)), by unfold Brought; decide +kernel⟩,
   ⟨msg 81, wbc, off ⟨opDataM, .home, msg 81⟩ wbc, by unfold Brought; decide +kernel⟩,
   ⟨msg 81, run2, off ⟨opDataM, .agent 70, msg 81⟩ run2, 70, by unfold Brought; decide +kernel⟩,
   ⟨5, 3, { tt0 with memOut := true }, servedReq false, memo, by decide +kernel⟩,
   ⟨5, 3, { tt0 with memOut := true, msg := { msg 80 with line := 197 } }, { servedReq false with line := 197 }, (tthall.wr F.DRC_RANK_STATUS_STATE rankPARKED 0 0).wr F.DRC_RANK_STATUS_STATE rankPARKED 1 0, by decide +kernel⟩,
   ⟨5, 3, { tt0 with memOut := true, st := .wb }, servedReq false, wbp, by decide +kernel⟩,
   ⟨5, 3, { tt0 with wrOut := true, st := .wb }, servedReq true, wro, wro, by refine ⟨?_, ?_, ?_, ?_, ?_, ?_, ?_⟩ <;> first | with_reducible rfl | decide +kernel⟩,
   ⟨5, 3, { tt0 with lockAt := some 0 }, lk, by decide +kernel⟩⟩

abbrev sn (o a : Nat) (m : CohMsg) : Flight := ⟨o, .agent a, m⟩
abbrev mz : AgLine := { st := .m, data := 7 }
abbrev ez : AgLine := { st := .e, data := 7 }
abbrev run68 : State := run3.clear F.PRT_LINK_FLIT 0

theorem wit_agent_snoops :
    (∃ (a : Fin 96) (m : CohMsg) (s : Machine.State) (w : Machine.State) (sl : ℕ) (ln : ℕ) (x : AgLine), s.stage = Stage.running
      ∧ 64 ≤ ↑a ∧ ↑a < 81 ∧ (↑a < 80 → w.domHolds (↑a - 48) 1 = false) ∧ sl = m.slot.toNat ∧ ln = m.line.toNat ∧ x = w.agLine
      (↑a) sl ln ∧ x.st = AgSt.m ∧ (Brought s { opc := opSnpI, dst := Dest.agent ↑a, msg := m } w)) ∧
    (∃ (a : Fin 96) (m : CohMsg) (s : Machine.State) (w : Machine.State) (sl : ℕ) (ln : ℕ) (x : AgLine), s.stage = Stage.running
      ∧ 64 ≤ ↑a ∧ ↑a < 81 ∧ (↑a < 80 → w.domHolds (↑a - 48) 1 = false) ∧ sl = m.slot.toNat ∧ ln = m.line.toNat ∧ x = w.agLine
      (↑a) sl ln ∧ x.st = AgSt.m ∧ (Brought s { opc := opSnpS, dst := Dest.agent ↑a, msg := m } w)) ∧
    (∃ (a : Fin 96) (m : CohMsg) (s : Machine.State) (w : Machine.State) (sl : ℕ) (ln : ℕ) (x : AgLine), s.stage = Stage.running
      ∧ 64 ≤ ↑a ∧ ↑a < 81 ∧ (↑a < 80 → w.domHolds (↑a - 48) 1 = false) ∧ sl = m.slot.toNat ∧ ln = m.line.toNat ∧ x = w.agLine
      (↑a) sl ln ∧ x.st = AgSt.m ∧ m.fwd = false ∧ (Brought s { opc := opSnpF, dst := Dest.agent ↑a, msg := m } w)) ∧
    (∃ (a : Fin 96) (m : CohMsg) (s : Machine.State) (w : Machine.State) (sl : ℕ) (ln : ℕ) (x : AgLine), s.stage = Stage.running
      ∧ 64 ≤ ↑a ∧ ↑a < 81 ∧ (↑a < 80 → w.domHolds (↑a - 48) 1 = false) ∧ sl = m.slot.toNat ∧ ln = m.line.toNat ∧ x = w.agLine
      (↑a) sl ln ∧ x.st = AgSt.e ∧ (Brought s { opc := opSnpS, dst := Dest.agent ↑a, msg := m } w)) ∧
    (∃ (a : Fin 96) (m : CohMsg) (s : Machine.State) (w : Machine.State) (sl : ℕ) (ln : ℕ) (x : AgLine), s.stage = Stage.running
      ∧ 64 ≤ ↑a ∧ ↑a < 81 ∧ (↑a < 80 → w.domHolds (↑a - 48) 1 = false) ∧ sl = m.slot.toNat ∧ ln = m.line.toNat ∧ x = w.agLine
      (↑a) sl ln ∧ x.st = AgSt.e ∧ m.fwd = false ∧ (Brought s { opc := opSnpF, dst := Dest.agent ↑a, msg := m } w)) ∧
    (∃ (a : Fin 96) (m : CohMsg) (s : Machine.State) (w : Machine.State) (sl : ℕ) (ln : ℕ) (x : AgLine), s.stage = Stage.running
      ∧ 64 ≤ ↑a ∧ ↑a < 81 ∧ (↑a < 80 → w.domHolds (↑a - 48) 1 = false) ∧ sl = m.slot.toNat ∧ ln = m.line.toNat ∧ x = w.agLine
      (↑a) sl ln ∧ (x.st = AgSt.e ∨ x.st = AgSt.s ∨ x.st = AgSt.f) ∧ (Brought s
      { opc := opSnpI, dst := Dest.agent ↑a, msg := m } w)) ∧
    (∃ (a : Fin 96) (m : CohMsg) (s : Machine.State) (w : Machine.State) (sl : ℕ) (ln : ℕ) (x : AgLine) (c : ℕ × Instr), s.stage
      = Stage.running ∧ 64 ≤ ↑a ∧ ↑a < 81 ∧ (↑a < 80 → w.domHolds (↑a - 48) 1 = false) ∧ sl = m.slot.toNat ∧ ln = m.line.toNat ∧
      x = w.agLine (↑a) sl ln ∧ x.st = AgSt.i ∧ (c ∈ [(opSnpS, Instr.snps a m), (opSnpI, Instr.snpi a m), (opSnpF, Instr.snpf a
      m)]) ∧ (Brought s { opc := c.1, dst := Dest.agent ↑a, msg := m } w)) ∧
    (∃ (a : Fin 96) (m : CohMsg) (s : Machine.State) (w : Machine.State) (mute : Bool) (c : ℕ × ℕ × Instr), s.stage =
      Stage.running ∧ ↑a < 64 ∧ (∀ (d : ℕ), w.domOf { opc := opSnpI, dst := Dest.agent ↑a, msg := m } = some d → w.domHolds d 1
      = false) ∧ ((w.reqs.any fun r => r.ld == ↑a && r.slot == m.slot.toNat && r.line == m.line.toNat && r.opc == opWbD &&
      r.own) = false) ∧ (mute = Option.any (fun e => w.on F.PRT_LINK_UP e.port && !w.on F.PRT_LINK_FLIT e.port) (w.secs.ldEntry
      ↑a)) ∧ (c ∈ [(0, opSnpS, Instr.snps a m), (1, opSnpI, Instr.snpi a m), (2, opSnpF, Instr.snpf a m)]) ∧ (Brought s
      { opc := c.2.1, dst := Dest.agent ↑a, msg := m } w) ∧ mute = false) ∧
    (∃ (a : Fin 96) (m : CohMsg) (s : Machine.State) (w : Machine.State) (mute : Bool) (c : ℕ × ℕ × Instr), s.stage =
      Stage.running ∧ ↑a < 64 ∧ (∀ (d : ℕ), w.domOf { opc := opSnpI, dst := Dest.agent ↑a, msg := m } = some d → w.domHolds d 1
      = false) ∧ ((w.reqs.any fun r => r.ld == ↑a && r.slot == m.slot.toNat && r.line == m.line.toNat && r.opc == opWbD &&
      r.own) = false) ∧ (mute = Option.any (fun e => w.on F.PRT_LINK_UP e.port && !w.on F.PRT_LINK_FLIT e.port) (w.secs.ldEntry
      ↑a)) ∧ (c ∈ [(0, opSnpS, Instr.snps a m), (1, opSnpI, Instr.snpi a m), (2, opSnpF, Instr.snpf a m)]) ∧ (Brought s
      { opc := c.2.1, dst := Dest.agent ↑a, msg := m } w) ∧ mute = true) ∧
    (∃ (a : Fin 96) (m : CohMsg) (s : Machine.State) (w : Machine.State) (c : ℕ × Instr), s.stage = Stage.running ∧ 81 ≤ ↑a ∧ (c
      ∈ [(opSnpS, Instr.snps a m), (opSnpI, Instr.snpi a m), (opSnpF, Instr.snpf a m)]) ∧ (Brought s
      { opc := c.1, dst := Dest.agent ↑a, msg := m } w)) :=
  ⟨⟨64, msg 80, withLine 64 .m, off (sn opSnpI 64 (msg 80)) (withLine 64 .m), 2, 5, mz, by refine ⟨?_, ?_, ?_, ?_, ?_, ?_, ?_, ?_, ?_⟩ <;> first | with_reducible rfl | decide +kernel | (unfold Brought; decide +kernel)⟩,
   ⟨80, msg 64, withLine 80 .m, off (sn opSnpS 80 (msg 64)) (withLine 80 .m), 2, 5, mz, by refine ⟨?_, ?_, ?_, ?_, ?_, ?_, ?_, ?_, ?_⟩ <;> first | with_reducible rfl | decide +kernel | (unfold Brought; decide +kernel)⟩,
   ⟨80, msg 64, withLine 80 .m, off (sn opSnpF 80 (msg 64)) (withLine 80 .m), 2, 5, mz, by refine ⟨?_, ?_, ?_, ?_, ?_, ?_, ?_, ?_, ?_, ?_⟩ <;> first | with_reducible rfl | decide +kernel | (unfold Brought; decide +kernel)⟩,
   ⟨64, msg 80, withLine 64 .e, off (sn opSnpS 64 (msg 80)) (withLine 64 .e), 2, 5, ez, by refine ⟨?_, ?_, ?_, ?_, ?_, ?_, ?_, ?_, ?_⟩ <;> first | with_reducible rfl | decide +kernel | (unfold Brought; decide +kernel)⟩,
   ⟨64, msg 80, withLine 64 .e, off (sn opSnpF 64 (msg 80)) (withLine 64 .e), 2, 5, ez, by refine ⟨?_, ?_, ?_, ?_, ?_, ?_, ?_, ?_, ?_, ?_⟩ <;> first | with_reducible rfl | decide +kernel | (unfold Brought; decide +kernel)⟩,
   ⟨64, msg 80, withLine 64 .f, off (sn opSnpI 64 (msg 80)) (withLine 64 .f), 2, 5, { st := .f, data := 7 }, by refine ⟨?_, ?_, ?_, ?_, ?_, ?_, ?_, ?_, ?_⟩ <;> first | with_reducible rfl | decide +kernel | (unfold Brought; decide +kernel)⟩,
   ⟨64, msg 80, run2, off (sn opSnpF 64 (msg 80)) run2, 2, 5, {}, (opSnpF, .snpf 64 (msg 80)), by refine ⟨?_, ?_, ?_, ?_, ?_, ?_, ?_, ?_, ?_, ?_⟩ <;> first | with_reducible rfl | decide +kernel | (unfold Brought; decide +kernel)⟩,
   ⟨3, msg 80, run3, off (sn opSnpI 3 (msg 80)) run3, false, (1, opSnpI, .snpi 3 (msg 80)), by refine ⟨?_, ?_, ?_, ?_, ?_, ?_, ?_, ?_⟩ <;> first | with_reducible rfl | decide +kernel | (unfold Brought; decide +kernel)⟩,
   ⟨3, msg 80, run68, off (sn opSnpI 3 (msg 80)) run68, true, (1, opSnpI, .snpi 3 (msg 80)), by refine ⟨?_, ?_, ?_, ?_, ?_, ?_, ?_, ?_⟩ <;> first | with_reducible rfl | decide +kernel | (unfold Brought; decide +kernel)⟩,
   ⟨83, msg 80, run3, off (sn opSnpI 83 (msg 80)) run3, (opSnpI, .snpi 83 (msg 80)), by unfold Brought; decide +kernel⟩⟩

abbrev hc : State := { run3 with reqs := [⟨3, 7, 9, opRdO, 2, 5, false⟩] }

theorem wit_host_completions :
    (∃ (a : Fin 96) (m : CohMsg) (r : HostReq) (e : LdEntry) (s : Machine.State) (w : Machine.State) (c : ℕ × ℕ × Instr),
      s.stage = Stage.running ∧ ↑a < 64 ∧ (∀ (d : ℕ), w.domOf { opc := opData, dst := Dest.agent ↑a, msg := m } = some d →
      w.domHolds d 2 = false ∧ w.domHolds d 3 = false) ∧ (List.find? (fun r => r.ld == ↑a && r.rtag == m.rtag.toNat && r.line ==
      m.line.toNat && r.slot == m.slot.toNat) w.reqs = some r) ∧ ((w.m2s.any fun x => x.ld.val == a.val) = false) ∧ ((w.ld
      ↑a).conflicts = []) ∧ w.secs.ldEntry r.ld = some e ∧ w.on F.PRT_LINK_UP e.port = true ∧ (c ∈ [(opData, 3, Instr.data (some
      a) m), (opDataE, 3, Instr.datae (some a) m), (opCmp, 0, Instr.cmp (some a) m), (opCmpE, 1, Instr.cmpe (some a) m), (opAck,
      0, Instr.ack (some a) m)]) ∧ (Brought s { opc := c.1, dst := Dest.agent ↑a, msg := m } w)) ∧
    (∃ (m : CohMsg) (s : Machine.State) (w : Machine.State) (c : ℕ × Instr), s.stage = Stage.running ∧ w.domHolds (homeOf
      m.line.toNat) 2 = false ∧ w.domHolds (homeOf m.line.toNat) 3 = false ∧ (c ∈ [(opData, Instr.data none m), (opDataE,
      Instr.datae none m), (opCmp, Instr.cmp none m), (opCmpE, Instr.cmpe none m), (opAck, Instr.ack none m)]) ∧ (Brought s
      { opc := c.1, dst := Dest.home, msg := m } w)) :=
  ⟨⟨3, msg 80, ⟨3, 7, 9, opRdO, 2, 5, false⟩, e3, hc, off (sn opDataE 3 (msg 80)) hc, (opDataE, 3, .datae (some 3) (msg 80)), by refine ⟨?_, ?_, ?_, ?_, ?_, ?_, ?_, ?_, ?_, ?_⟩ <;> first | with_reducible rfl | decide +kernel | (unfold Brought; decide +kernel) | (refine of_all ?_; decide +kernel)⟩,
   ⟨msg 80, run2, off ⟨opData, .home, msg 80⟩ run2, (opData, .data none (msg 80)), by unfold Brought; decide +kernel⟩⟩

abbrev m5 : CohMsg := { msg 0 with slot := 5 }

theorem wit_agent_accesses :
    (∃ (a : Fin 96) (m0 : CohMsg) (m : CohMsg) (s : Machine.State) (sl : ℕ) (ln : ℕ) (x : AgLine), s.stage = Stage.running ∧
      caches ↑a = true ∧ s.spanMsg m0 = some m ∧ sl = m.slot.toNat ∧ ln = m.line.toNat ∧ x = s.agLine (↑a) sl ln ∧ (x.stalled =
      []) ∧ s.dlaForbidden (↑a) AgOp.load = false ∧ s.agReady (↑a) AgOp.load m = true ∧ x.st = AgSt.i ∧ s.liteLine sl = false) ∧
    (∃ (a : Fin 96) (m0 : CohMsg) (m : CohMsg) (s : Machine.State) (sl : ℕ) (ln : ℕ) (x : AgLine), s.stage = Stage.running ∧
      caches ↑a = true ∧ s.spanMsg m0 = some m ∧ sl = m.slot.toNat ∧ ln = m.line.toNat ∧ x = s.agLine (↑a) sl ln ∧ (x.stalled =
      []) ∧ s.dlaForbidden (↑a) AgOp.load = false ∧ s.agReady (↑a) AgOp.load m = true ∧ x.st = AgSt.i ∧ s.liteLine sl = true) ∧
    (∃ (a : Fin 96) (m0 : CohMsg) (m : CohMsg) (s : Machine.State) (sl : ℕ) (ln : ℕ) (x : AgLine), s.stage = Stage.running ∧
      caches ↑a = true ∧ s.spanMsg m0 = some m ∧ sl = m.slot.toNat ∧ ln = m.line.toNat ∧ x = s.agLine (↑a) sl ln ∧ (x.stalled =
      []) ∧ s.dlaForbidden (↑a) AgOp.load = false ∧ s.agReady (↑a) AgOp.load m = true ∧ x.st.valid = true) ∧
    (∃ (a : Fin 96) (m0 : CohMsg) (m : CohMsg) (s : Machine.State) (sl : ℕ) (ln : ℕ) (x : AgLine), s.stage = Stage.running ∧
      caches ↑a = true ∧ s.spanMsg m0 = some m ∧ sl = m.slot.toNat ∧ ln = m.line.toNat ∧ x = s.agLine (↑a) sl ln ∧ (x.stalled =
      []) ∧ s.dlaForbidden (↑a) AgOp.store = false ∧ s.agReady (↑a) AgOp.store m = true ∧ (x.st = AgSt.m ∨ x.st = AgSt.e)) ∧
    (∃ (a : Fin 96) (m0 : CohMsg) (m : CohMsg) (s : Machine.State) (sl : ℕ) (ln : ℕ) (x : AgLine), s.stage = Stage.running ∧
      caches ↑a = true ∧ s.spanMsg m0 = some m ∧ sl = m.slot.toNat ∧ ln = m.line.toNat ∧ x = s.agLine (↑a) sl ln ∧ (x.stalled =
      []) ∧ s.dlaForbidden (↑a) AgOp.store = false ∧ s.agReady (↑a) AgOp.store m = true ∧ (x.st = AgSt.s ∨ x.st = AgSt.f)) ∧
    (∃ (a : Fin 96) (m0 : CohMsg) (m : CohMsg) (s : Machine.State) (sl : ℕ) (ln : ℕ) (x : AgLine), s.stage = Stage.running ∧
      caches ↑a = true ∧ s.spanMsg m0 = some m ∧ sl = m.slot.toNat ∧ ln = m.line.toNat ∧ x = s.agLine (↑a) sl ln ∧ (x.stalled =
      []) ∧ s.dlaForbidden (↑a) AgOp.store = false ∧ s.agReady (↑a) AgOp.store m = true ∧ x.st = AgSt.i ∧ s.liteLine sl = false) ∧
    (∃ (a : Fin 96) (m0 : CohMsg) (m : CohMsg) (s : Machine.State) (sl : ℕ) (ln : ℕ) (x : AgLine), s.stage = Stage.running ∧
      caches ↑a = true ∧ s.spanMsg m0 = some m ∧ sl = m.slot.toNat ∧ ln = m.line.toNat ∧ x = s.agLine (↑a) sl ln ∧ (x.stalled =
      []) ∧ s.dlaForbidden (↑a) AgOp.store = false ∧ s.agReady (↑a) AgOp.store m = true ∧ x.st = AgSt.i ∧ s.liteLine sl = true) ∧
    (∃ (a : Fin 96) (m0 : CohMsg) (m : CohMsg) (s : Machine.State) (sl : ℕ) (ln : ℕ) (x : AgLine), s.stage = Stage.running ∧
      caches ↑a = true ∧ s.spanMsg m0 = some m ∧ sl = m.slot.toNat ∧ ln = m.line.toNat ∧ x = s.agLine (↑a) sl ln ∧ (x.stalled =
      []) ∧ x.st = AgSt.m ∧ s.spent (↑a) (homeOf ln) < 4) ∧
    (∃ (a : Fin 96) (m0 : CohMsg) (m : CohMsg) (s : Machine.State) (sl : ℕ) (ln : ℕ) (x : AgLine), s.stage = Stage.running ∧
      caches ↑a = true ∧ s.spanMsg m0 = some m ∧ sl = m.slot.toNat ∧ ln = m.line.toNat ∧ x = s.agLine (↑a) sl ln ∧ (x.stalled =
      []) ∧ (x.st = AgSt.e ∨ x.st = AgSt.s ∨ x.st = AgSt.f)) ∧
    (∃ (a : Fin 96) (m0 : CohMsg) (m : CohMsg) (s : Machine.State) (sl : ℕ) (ln : ℕ) (x : AgLine) (c : AgOp × Instr), s.stage =
      Stage.running ∧ caches ↑a = true ∧ s.spanMsg m0 = some m ∧ sl = m.slot.toNat ∧ ln = m.line.toNat ∧ x = s.agLine (↑a) sl ln
      ∧ (c ∈ [(AgOp.load, Instr.load a m0), (AgOp.store, Instr.store a m0), (AgOp.evict, Instr.evict a m0)]) ∧ s.dlaForbidden
      (↑a) c.1 = false ∧ (x.stalled ≠ [] ∨ s.agReady (↑a) c.1 m = false) ∧ x.st ≠ AgSt.i) ∧
    (∃ (m : CohMsg) (s : Machine.State) (c : ℕ × Instr), s.stage = Stage.running ∧ s.rd F.DBG_STATUS_LEVEL = 2 ∧ (c ∈ [(0,
      Instr.load 80 m), (1, Instr.store 80 m)])) ∧
    (∃ (who : Initiator) (h : Fin 16) (v : BitVec 64) (s : Machine.State), (Permitted s who (F.HOM_DIR_OP_READ.addr (↑h) 0)
      true) ∧ v.toNat.testBit 0 = true) :=
  ⟨⟨80, msg 0, msg 0, run2, 2, 5, {}, by refine ⟨?_, ?_, ?_, ?_, ?_, ?_, ?_, ?_, ?_, ?_, ?_⟩ <;> first | with_reducible rfl | decide +kernel⟩,
   ⟨80, m5, m5, run2, 5, 5, {}, by refine ⟨?_, ?_, ?_, ?_, ?_, ?_, ?_, ?_, ?_, ?_, ?_⟩ <;> first | with_reducible rfl | decide +kernel⟩,
   ⟨64, msg 0, msg 0, withLine 64 .s, 2, 5, { st := .s, data := 7 }, by refine ⟨?_, ?_, ?_, ?_, ?_, ?_, ?_, ?_, ?_, ?_⟩ <;> first | with_reducible rfl | decide +kernel⟩,
   ⟨64, msg 0, msg 0, withLine 64 .e, 2, 5, { st := .e, data := 7 }, by refine ⟨?_, ?_, ?_, ?_, ?_, ?_, ?_, ?_, ?_, ?_⟩ <;> first | with_reducible rfl | decide +kernel⟩,
   ⟨64, msg 0, msg 0, withLine 64 .f, 2, 5, { st := .f, data := 7 }, by refine ⟨?_, ?_, ?_, ?_, ?_, ?_, ?_, ?_, ?_, ?_⟩ <;> first | with_reducible rfl | decide +kernel⟩,
   ⟨64, msg 0, msg 0, run2, 2, 5, {}, by refine ⟨?_, ?_, ?_, ?_, ?_, ?_, ?_, ?_, ?_, ?_, ?_⟩ <;> first | with_reducible rfl | decide +kernel⟩,
   ⟨64, m5, m5, run2, 5, 5, {}, by refine ⟨?_, ?_, ?_, ?_, ?_, ?_, ?_, ?_, ?_, ?_, ?_⟩ <;> first | with_reducible rfl | decide +kernel⟩,
   ⟨64, msg 0, msg 0, withLine 64 .m, 2, 5, { st := .m, data := 7 }, by refine ⟨?_, ?_, ?_, ?_, ?_, ?_, ?_, ?_, ?_⟩ <;> first | with_reducible rfl | decide +kernel⟩,
   ⟨64, msg 0, msg 0, withLine 64 .s, 2, 5, { st := .s, data := 7 }, by refine ⟨?_, ?_, ?_, ?_, ?_, ?_, ?_, ?_⟩ <;> first | with_reducible rfl | decide +kernel⟩,
   ⟨64, msg 0, msg 0, withLine 64 .miA, 2, 5, { st := .miA, data := 7 }, (.load, .load 64 (msg 0)), by refine ⟨?_, ?_, ?_, ?_, ?_, ?_, ?_, ?_, ?_, ?_⟩ <;> first | with_reducible rfl | decide +kernel⟩,
   ⟨msg 0, dbg 2, (0, .load 80 (msg 0)), by decide +kernel⟩,
   ⟨.cc, 5, 1, run2, by unfold Permitted; decide +kernel⟩⟩

abbrev air : State := { run1 with smp := { inAir := [(5, List.replicate 64 1)] } }
abbrev airw : State := { chan0 { wait := [⟨0, true, 80, 0, 0, some 1, none, false⟩] } with smp := { inAir := [(5, List.replicate 64 1)] }, map := { run2.map with pmes := [((chan0 {}).smpLine 5 / 64, { tier := 1, loc := 0 })] } }

theorem wit_counters_and_samples :
    (∃ (who : Initiator) (u : Fin 64) (k : Fin 8) (s : Machine.State), (Permitted s who (F.CNT_SEL_SAMPLE.addr ↑u ↑k) true)) ∧
    (∃ (who : Initiator) (u : Fin 64) (k : Fin 8) (s : Machine.State), (Permitted s who (F.CNT_PER_PERIOD.addr ↑u ↑k) true)) ∧
    (∃ (who : Initiator) (s : Machine.State), (Permitted s who (F.CNT_SNAP_CTL_NOW.addr 0 0) true)) ∧
    (∃ (who : Initiator) (s : Machine.State), (Permitted s who (F.SMP_CTL_EN.addr 0 0) true) ∧ (s.smp.buf = []) ∧ (s.smp.inAir =
      []) ∧ s.rd F.SMP_CTL_EN = 0) ∧
    (∃ (who : Initiator) (v : BitVec 64) (s : Machine.State), (Permitted s who (F.SMP_PTR_RPTR.addr 0 0) true) ∧ (s.smp.buf =
      []) ∧ s.rptrOk (F.SMP_PTR_RPTR.of v.toNat) = true) ∧
    (∃ (who : Initiator) (v : BitVec 64) (s : Machine.State), (Permitted s who (F.SMP_PTR_RPTR.addr 0 0) true) ∧ (s.smp.buf =
      []) ∧ s.rptrOk (F.SMP_PTR_RPTR.of v.toNat) = false) ∧
    (∃ (seq : ℕ) (r : Bytes) (rest : List (ℕ × Bytes)) (s : Machine.State), s.stage = Stage.running ∧ (s.smp.buf = []) ∧
      (s.smp.inAir = (seq, r) :: rest) ∧ s.smpWaits seq = false) ∧
    (∃ (seq : ℕ) (r : Bytes) (rest : List (ℕ × Bytes)) (s : Machine.State), s.stage = Stage.running ∧ (s.smp.buf = []) ∧
      (s.smp.inAir = (seq, r) :: rest) ∧ s.smpWaits seq = true) :=
  ⟨⟨.cc, 3, 2, run1, by unfold Permitted; decide +kernel⟩,
   ⟨.cc, 3, 2, run1.wr F.CNT_SEL_SAMPLE 1 3 2, by unfold Permitted; decide +kernel⟩,
   ⟨.cc, run1, by unfold Permitted; decide +kernel⟩,
   ⟨.cc, run1, by unfold Permitted; decide +kernel⟩,
   ⟨.cc, 0x500000000#64, run1.wr F.SMP_PTR_WPTR 5, by unfold Permitted; decide +kernel⟩,
   ⟨.cc, 0x600000000#64, run1.wr F.SMP_PTR_WPTR 5, by unfold Permitted; decide +kernel⟩,
   ⟨5, List.replicate 64 1, [], air, by decide +kernel⟩,
   ⟨5, List.replicate 64 1, [], airw, by decide +kernel⟩⟩

abbrev pk0 : Pkt := pk rdsFlight torus
abbrev pk4 : Pkt := { pk0 with retries := 4 }
abbrev dm : NocMsg := { opc := BitVec.ofNat 8 opDataM, agent := none, m := msg 80 }
abbrev nohop : State := (run1.wr F.NOC_CTL_PERHOP_ECC 0).send (nocFlight dm)
abbrev owed : State := { run1 with noc := { errs := [rdsFlight] } }
abbrev owed2 : State := { run1 with noc := { errs := [rdsFlight], again := [rdsFlight] } }
abbrev owed3 : State := { run1 with noc := { errs := [nocFlight dm] } }

theorem wit_torus_faults :
    (∃ (r : Fin 32) (d : Fin 4) (p : NocMsg) (flit : BitVec 4) (flips : BitVec 576) (s : Machine.State) (q : Pkt) (x : Pkt),
      s.stage = Stage.running ∧ s.pktOf (nocFlight p) = some q ∧ State.reachHop 20 s q (neighbour ↑r ↑d) (backLink ↑d) = some x
      ∧ (x.check flit.toNat flips.toNat = FlitCheck.failed ∨ s.rd F.NOC_CTL_PERHOP_ECC = 1 ∧ ∃ n, x.check flit.toNat flips.toNat
      = FlitCheck.double n) ∧ s.rdBit F.NOC_RTR_STAT_FAILED (↑d) 0 ↑r = false ∧ x.retries ≠ 4) ∧
    (∃ (r : Fin 32) (d : Fin 4) (p : NocMsg) (flit : BitVec 4) (flips : BitVec 576) (s : Machine.State) (q : Pkt) (x : Pkt),
      s.stage = Stage.running ∧ s.pktOf (nocFlight p) = some q ∧ State.reachHop 20 s q (neighbour ↑r ↑d) (backLink ↑d) = some x
      ∧ (x.check flit.toNat flips.toNat = FlitCheck.failed ∨ s.rd F.NOC_CTL_PERHOP_ECC = 1 ∧ ∃ n, x.check flit.toNat flips.toNat
      = FlitCheck.double n) ∧ s.rdBit F.NOC_RTR_STAT_FAILED (↑d) 0 ↑r = false ∧ x.retries = 4) ∧
    (∃ (p : NocMsg) (flit : BitVec 4) (flips : BitVec 576) (s : Machine.State), s.stage = Stage.running ∧ opNet p.opc.toNat = 3
      ∧ flit.toNat ≠ 0 ∧ s.rd F.NOC_CTL_PERHOP_ECC = 0 ∧ wordsBad flips.toNat = false ∧ wordsCorrected flips.toNat ≠ 0) ∧
    (∃ (p : NocMsg) (flit : BitVec 4) (flips : BitVec 576) (s : Machine.State), s.stage = Stage.running ∧ opNet p.opc.toNat = 3
      ∧ flit.toNat ≠ 0 ∧ s.rd F.NOC_CTL_PERHOP_ECC = 0 ∧ wordsBad flips.toNat = true) ∧
    (∃ (r : Fin 32) (d : Fin 4) (p : NocMsg) (s : Machine.State) (q : Pkt) (x : Pkt), s.stage = Stage.running ∧ s.pktOf
      (nocFlight p) = some q ∧ State.reachHop 20 s q ↑r ↑d = some x ∧ s.failed ↑r ↑d = true ∧ x.detcnt = 0 ∧ s.stale x = false ∧
      s.canDetour ↑r ↑d = true) ∧
    (∃ (r : Fin 32) (d : Fin 4) (p : NocMsg) (s : Machine.State) (q : Pkt) (x : Pkt), s.stage = Stage.running ∧ s.pktOf
      (nocFlight p) = some q ∧ State.reachHop 20 s q ↑r ↑d = some x ∧ s.failed ↑r ↑d = true ∧ x.detcnt = 0 ∧ s.canDetour ↑r ↑d =
      false ∧ p.opc.toNat ≠ opERR) ∧
    (∃ (r : Fin 32) (d : Fin 4) (s : Machine.State), s.stage = Stage.running ∧ s.failed ↑r ↑d = false) ∧
    (∃ (r : Fin 32) (p : NocMsg) (s : Machine.State) (q : Pkt) (x : Pkt), s.stage = Stage.running ∧ s.pktOf (nocFlight p) = some
      q ∧ State.reachSink 20 s q ↑r = some x) ∧
    (∃ (r : Fin 32) (p : NocMsg) (s : Machine.State), s.stage = Stage.running ∧ (((s.pktOf (nocFlight p)).bind fun q =>
      State.reachSink 20 s q ↑r) = none)) ∧
    (∃ (r : Fin 32) (s : Machine.State), s.stage = Stage.running ∧ (∃ d < 4, s.failed (↑r) d = true)) ∧
    (∃ (p : NocMsg) (s : Machine.State) (w : Machine.State), s.stage = Stage.running ∧ (ErrBack s (nocFlight p) w) ∧ opNet
      p.opc.toNat = 0 ∧ w.noc.again.contains (nocFlight p) = false) ∧
    (∃ (p : NocMsg) (s : Machine.State) (w : Machine.State), s.stage = Stage.running ∧ (ErrBack s (nocFlight p) w) ∧ opNet
      p.opc.toNat = 0 ∧ w.noc.again.contains (nocFlight p) = true) ∧
    (∃ (p : NocMsg) (s : Machine.State) (w : Machine.State), s.stage = Stage.running ∧ (ErrBack s (nocFlight p) w) ∧ opNet
      p.opc.toNat ≠ 0) :=
  ⟨⟨23, 0, rdsMsg, 0, 1, torus, pk0, pk0, by refine ⟨?_, ?_, ?_, ?_, ?_, ?_⟩ <;> first | with_reducible rfl | decide +kernel | exact Or.inl (by decide +kernel) | exact ⟨by decide +kernel, rfl⟩⟩,
   ⟨23, 0, rdsMsg, 0, 1, torus.setPkt pk4, pk4, pk4, by refine ⟨?_, ?_, ?_, ?_, ?_, ?_⟩ <;> first | with_reducible rfl | decide +kernel | exact Or.inl (by decide +kernel) | exact ⟨by decide +kernel, rfl⟩⟩,
   ⟨dm, 1, 1, nohop, by decide +kernel⟩,
   ⟨dm, 1, 3, nohop, by decide +kernel⟩,
   ⟨16, 1, rdsMsg, torus.linkFails 16 1, pk0, pk0, by decide +kernel⟩,
   ⟨16, 1, rdsMsg, torusCut, pk0, pk0, by decide +kernel⟩,
   ⟨16, 1, torus, by decide +kernel⟩,
   ⟨16, rdsMsg, torusCut, pk0, pk0, by decide +kernel⟩,
   ⟨16, rdsMsg, torus, by decide +kernel⟩,
   ⟨16, torusCut, by decide +kernel⟩,
   ⟨rdsMsg, owed, owed, by refine ⟨?_, ?_, ?_, ?_⟩ <;> first | with_reducible rfl | decide +kernel | (unfold ErrBack; decide +kernel) | exact Or.inl (by decide +kernel) | exact ⟨by decide +kernel, rfl⟩⟩,
   ⟨rdsMsg, owed2, owed2, by refine ⟨?_, ?_, ?_, ?_⟩ <;> first | with_reducible rfl | decide +kernel | (unfold ErrBack; decide +kernel) | exact Or.inl (by decide +kernel) | exact ⟨by decide +kernel, rfl⟩⟩,
   ⟨dm, owed3, owed3, by refine ⟨?_, ?_, ?_⟩ <;> first | with_reducible rfl | decide +kernel | (unfold ErrBack; decide +kernel) | exact Or.inl (by decide +kernel) | exact ⟨by decide +kernel, rfl⟩⟩⟩

theorem wit_route_epochs :
    (∃ (who : Initiator) (v : BitVec 64) (s : Machine.State), (Permitted s who 8388616 true) ∧ v.toNat.testBit 9 = false ∧ s.rd
      F.NOC_EPOCH_STATE = epIDLE ∧ s.routesSet.all s.shadowOk = true) ∧
    (∃ (who : Initiator) (v : BitVec 64) (s : Machine.State), (Permitted s who 8388616 true) ∧ v.toNat.testBit 9 = false ∧ s.rd
      F.NOC_EPOCH_STATE = epIDLE ∧ s.routesSet.all s.shadowOk = false) ∧
    (∃ (who : Initiator) (v : BitVec 64) (s : Machine.State), (Permitted s who 8388616 true) ∧ v.toNat.testBit 9 = false ∧ s.rd
      F.NOC_EPOCH_STATE ≠ epIDLE) ∧
    (∃ (who : Initiator) (v : BitVec 64) (s : Machine.State), (Permitted s who 8388616 true) ∧ v.toNat.testBit 8 = false ∧ s.rd
      F.NOC_EPOCH_STATE = epDRAIN) ∧
    (∃ (who : Initiator) (v : BitVec 64) (s : Machine.State), (Permitted s who 8388616 true) ∧ v.toNat.testBit 8 = false ∧ s.rd
      F.NOC_EPOCH_STATE ≠ epDRAIN) ∧
    (∃ (s : Machine.State), s.stage = Stage.running ∧ s.rd F.NOC_EPOCH_STATE = epDRAIN ∧ s.oldDone = true) ∧
    (∃ (s : Machine.State), s.stage = Stage.running ∧ s.rd F.NOC_EPOCH_STATE = epDRAIN ∧ s.oldDone = false) :=
  ⟨⟨.cc, 0x100#64, run1, by unfold Permitted; decide +kernel⟩,
   ⟨.cc, 0x100#64, run1.wr F.NOC_RT_SHADOW_ENTRY 0x10000000007 0 45, by unfold Permitted; decide +kernel⟩,
   ⟨.cc, 0x100#64, run1.wr F.NOC_EPOCH_STATE epDRAIN, by unfold Permitted; decide +kernel⟩,
   ⟨.cc, 0x200#64, run1.wr F.NOC_EPOCH_STATE epDRAIN, by unfold Permitted; decide +kernel⟩,
   ⟨.cc, 0x200#64, run1, by unfold Permitted; decide +kernel⟩,
   ⟨run1.wr F.NOC_EPOCH_STATE epDRAIN, by decide +kernel⟩,
   ⟨(torus.wr F.NOC_EPOCH_STATE epDRAIN).wr F.NOC_EPOCH_CUR 1, by decide +kernel⟩⟩

abbrev sn68 : NocMsg := { opc := BitVec.ofNat 8 opSnpI, agent := some 68, m := msg 68 }
abbrev fen : State := run1.wr F.NOC_DOM_STATUS_STATE domFENCED 0 20
abbrev fenf : State := fen.onDom 20 (fun x => { x with held := List.replicate 16 (1, nocFlight sn68) })
abbrev badb : State := { dtmo with noc := { bad := [blkFlight 4 0 0] }, map := { dtmo.map with reqs := [servedReq false] } }

theorem wit_fences_1 :
    (∃ (who : Initiator) (d : Fin 40) (v : BitVec 64) (s : Machine.State) (w : Machine.State), (Permitted s who (domCtl ↑d)
      true) ∧ w = s.written who (domCtl ↑d) (setBit v.toNat 0 true) ∧ s.rd F.NOC_DOM_CTL_FENCE 0 ↑d = 0 ∧ w.rd
      F.NOC_DOM_STATUS_STATE 0 ↑d = domON ∧ w.fenceRefused ↑d = true) ∧
    (∃ (who : Initiator) (d : Fin 40) (v : BitVec 64) (s : Machine.State) (w : Machine.State) (u : Machine.State), (Permitted s
      who (domCtl ↑d) true) ∧ w = s.written who (domCtl ↑d) (setBit v.toNat 0 true) ∧ s.rd F.NOC_DOM_CTL_FENCE 0 ↑d = 0 ∧ w.rd
      F.NOC_DOM_STATUS_STATE 0 ↑d = domON ∧ w.fenceRefused ↑d = false ∧ u = (w.clear F.NOC_DOM_STATUS_REFUSED 0 ↑d).wr
      F.NOC_DOM_STATUS_STATE domDRAINING 0 ↑d) ∧
    (∃ (who : Initiator) (d : Fin 40) (v : BitVec 64) (s : Machine.State) (w : Machine.State), (Permitted s who (domCtl ↑d)
      true) ∧ w = s.written who (domCtl ↑d) (setBit v.toNat 0 false) ∧ w.rd F.NOC_DOM_STATUS_STATE 0 ↑d = domDRAINING) ∧
    (∃ (who : Initiator) (d : Fin 40) (v : BitVec 64) (s : Machine.State) (w : Machine.State), (Permitted s who (domCtl ↑d)
      true) ∧ w = s.written who (domCtl ↑d) (setBit v.toNat 0 false) ∧ w.rd F.NOC_DOM_STATUS_STATE 0 ↑d ≠ domDRAINING) ∧
    (∃ (d : Fin 40) (s : Machine.State), s.stage = Stage.running ∧ s.rd F.NOC_DOM_STATUS_STATE 0 ↑d = domDRAINING ∧
      s.outstanding ↑d = 0) ∧
    (∃ (d : Fin 40) (s : Machine.State), s.stage = Stage.running ∧ (s.rd F.NOC_DOM_STATUS_STATE 0 ↑d ≠ domDRAINING ∨
      s.outstanding ↑d ≠ 0)) ∧
    (∃ (d : Fin 40) (s : Machine.State) (u : Machine.State), s.stage = Stage.running ∧ s.rd F.NOC_DOM_STATUS_STATE 0 ↑d =
      domWAKING ∧ s.rd F.PWR_STATUS_TRANS = 0 ∧ u = s.domGo ↑d) :=
  ⟨⟨.cc, 32, 0#64, run3, run3.written .cc (domCtl 32) 1, by refine ⟨?_, ?_, ?_, ?_, ?_⟩ <;> first | with_reducible rfl | decide +kernel | (unfold Permitted; decide +kernel)⟩,
   ⟨.cc, 20, 0#64, run1, run1.written .cc (domCtl 20) 1, ((run1.written .cc (domCtl 20) 1).clear F.NOC_DOM_STATUS_REFUSED 0 20).wr F.NOC_DOM_STATUS_STATE domDRAINING 0 20, by refine ⟨?_, ?_, ?_, ?_, ?_, ?_⟩ <;> first | with_reducible rfl | decide +kernel | (unfold Permitted; decide +kernel)⟩,
   ⟨.cc, 20, 1#64, (run1.wr F.NOC_DOM_CTL_FENCE 1 0 20).wr F.NOC_DOM_STATUS_STATE domDRAINING 0 20, ((run1.wr F.NOC_DOM_CTL_FENCE 1 0 20).wr F.NOC_DOM_STATUS_STATE domDRAINING 0 20).written .cc (domCtl 20) 0, by refine ⟨?_, ?_, ?_⟩ <;> first | with_reducible rfl | decide +kernel | (unfold Permitted; decide +kernel)⟩,
   ⟨.cc, 20, 1#64, run1.wr F.NOC_DOM_CTL_FENCE 1 0 20, (run1.wr F.NOC_DOM_CTL_FENCE 1 0 20).written .cc (domCtl 20) 0, by refine ⟨?_, ?_, ?_⟩ <;> first | with_reducible rfl | decide +kernel | (unfold Permitted; decide +kernel)⟩,
   ⟨20, run1.wr F.NOC_DOM_STATUS_STATE domDRAINING 0 20, by decide +kernel⟩,
   ⟨20, (run1.wr F.GAL_STATUS_CACHE_VALID 1 4).wr F.NOC_DOM_STATUS_STATE domDRAINING 0 20, by decide +kernel⟩,
   ⟨20, run1.wr F.NOC_DOM_STATUS_STATE domWAKING 0 20, (run1.wr F.NOC_DOM_STATUS_STATE domWAKING 0 20).domGo 20, by refine ⟨?_, ?_, ?_, ?_⟩ <;> first | with_reducible rfl | decide +kernel⟩⟩

theorem wit_fences_2 :
    (∃ (d : Fin 40) (s : Machine.State), s.stage = Stage.running ∧ s.rd F.NOC_DOM_STATUS_STATE 0 ↑d ≠ domWAKING) ∧
    (∃ (p : NocMsg) (d : ℕ) (s : Machine.State) (w : Machine.State), s.stage = Stage.running ∧ (s.bring (nocFlight p) = (true,
      w)) ∧ w.domOf (nocFlight p) = some d ∧ d < 40 ∧ w.domDown d = true ∧ w.holdRoom d (opNet p.opc.toNat) = true) ∧
    (∃ (p : NocMsg) (d : ℕ) (s : Machine.State) (w : Machine.State), s.stage = Stage.running ∧ (s.bring (nocFlight p) = (true,
      w)) ∧ w.domOf (nocFlight p) = some d ∧ d < 40 ∧ w.domDown d = true ∧ w.holdRoom d (opNet p.opc.toNat) = false) ∧
    (∃ (p : NocMsg) (d : ℕ) (s : Machine.State) (w : Machine.State), s.stage = Stage.running ∧ (s.bring (nocFlight p) = (true,
      w)) ∧ w.domOf (nocFlight p) = some d ∧ d < 40 ∧ w.domDown d = false ∧ opDefined p.opc.toNat = true) ∧
    (∃ (p : NocMsg) (d : ℕ) (s : Machine.State) (w : Machine.State), s.stage = Stage.running ∧ (s.bring (nocFlight p) = (true,
      w)) ∧ w.domOf (nocFlight p) = some d ∧ d < 40 ∧ w.domDown d = false ∧ opDefined p.opc.toNat = false) ∧
    (∃ (g : Fin 16) (page : BitVec 34) (block : Fin 8) (s : Machine.State), s.stage = Stage.running ∧ (s.domDown (16 + ↑g) =
      true) ∧ (s.holdRoom (16 + ↑g) 3 = true) ∧ (((s.dom (16 + ↑g)).blks.any fun x => x.1 == page.toNat && x.2.1 == ↑block) =
      false)) ∧
    (∃ (g : Fin 16) (page : BitVec 34) (block : Fin 8) (s : Machine.State), s.stage = Stage.running ∧ (s.domDown (16 + ↑g) =
      false) ∧ s.noc.bad.contains (blkFlight (↑g) page.toNat ↑block) = false) ∧
    (∃ (g : Fin 16) (page : BitVec 34) (block : Fin 8) (s : Machine.State), s.stage = Stage.running ∧ (s.domDown (16 + ↑g) =
      false) ∧ s.noc.bad.contains (blkFlight (↑g) page.toNat ↑block) = true) :=
  ⟨⟨20, run1, by decide +kernel⟩,
   ⟨sn68, 20, fen, fen, by refine ⟨?_, ?_, ?_, ?_, ?_, ?_⟩ <;> first | with_reducible rfl | decide +kernel⟩,
   ⟨sn68, 20, fenf, fenf, by refine ⟨?_, ?_, ?_, ?_, ?_, ?_⟩ <;> first | with_reducible rfl | decide +kernel⟩,
   ⟨sn68, 20, run1, run1, by refine ⟨?_, ?_, ?_, ?_, ?_, ?_⟩ <;> first | with_reducible rfl | decide +kernel⟩,
   ⟨{ sn68 with opc := 0x3F }, 20, run1, run1, by refine ⟨?_, ?_, ?_, ?_, ?_, ?_⟩ <;> first | with_reducible rfl | decide +kernel⟩,
   ⟨4, 9, 3, fen, by decide +kernel⟩,
   ⟨4, 9, 3, run2, by decide +kernel⟩,
   ⟨4, 0, 0, badb, by decide +kernel⟩⟩

abbrev cores2 : State := { run1 with cc := { cores := [.running, .running, .inReset, .inReset] } }

theorem wit_power_floors :
    (∃ (k : ℕ) (s : Machine.State), s.stage = Stage.running ∧ s.rd F.PWR_STATUS_TARGET = k ∧ (k = 1 ∨ k = 2) ∧ s.rd
      F.PWR_STATUS_FLOOR < k) ∧
    (∃ (s : Machine.State), s.stage = Stage.running ∧ s.rd F.PWR_STATUS_TARGET ≤ s.rd F.PWR_STATUS_FLOOR) ∧
    (∃ (d : Fin 40) (s : Machine.State), s.stage = Stage.running ∧ (s.rd F.PWR_STATUS_FLOOR < 3 ∨ s.floor3Doms.contains ↑d =
      false)) ∧
    (∃ (d : Fin 40) (s : Machine.State), s.stage = Stage.running ∧ 3 ≤ s.rd F.PWR_STATUS_FLOOR ∧ s.floor3Doms.contains ↑d =
      true) ∧
    (∃ (c : Fin 4) (s : Machine.State), s.stage = Stage.running ∧ (s.cc.cores[↑c]? ≠ some CoreSt.running ∨ s.cc.plic.wakes ↑c =
      true)) ∧
    (∃ (c : Fin 4) (s : Machine.State), s.stage = Stage.running ∧ (s.cc.cores[↑c]? = some CoreSt.running) ∧ s.cc.plic.wakes ↑c =
      false ∧ s.pwr.entering = false) ∧
    (∃ (c : Fin 4) (s : Machine.State), s.stage = Stage.running ∧ (s.cc.cores[↑c]? = some CoreSt.running) ∧ s.cc.plic.wakes ↑c =
      false ∧ s.pwr.entering = true) ∧
    (∃ (c : Fin 4) (s : Machine.State), s.stage = Stage.running ∧ s.entering4 = true ∧ s.portsUp.all s.pwr.l1.contains = true ∧
      (Option.any CoreSt.quiet s.cc.cores[↑c]? = false)) ∧
    (∃ (p : Fin 16) (s : Machine.State), s.stage = Stage.running ∧ s.entering4 = true ∧ s.on F.PRT_LINK_UP ↑p = true) :=
  ⟨⟨2, run1.wr F.PWR_STATUS_TARGET 2, by refine ⟨?_, ?_, ?_, ?_⟩ <;> first | with_reducible rfl | decide +kernel⟩,
   ⟨run1, by decide +kernel⟩,
   ⟨4, run1, by decide +kernel⟩,
   ⟨36, run1.wr F.PWR_STATUS_FLOOR 3, by decide +kernel⟩,
   ⟨2, cores2, by decide +kernel⟩,
   ⟨1, cores2, by decide +kernel⟩,
   ⟨1, { cores2 with pwr := { entering := true } }.wr F.PWR_STATUS_FLOOR 3, by decide +kernel⟩,
   ⟨0, { cores2 with pwr := { entering := true } }.wr F.PWR_STATUS_FLOOR 3, by decide +kernel⟩,
   ⟨0, { run3 with cc := { cores := [.running, .inReset, .inReset, .inReset] }, pwr := { entering := true } }.wr F.PWR_STATUS_FLOOR 3, by decide +kernel⟩⟩

abbrev bufs : State := link0 cwDOWN |>.wr F.CWK_VC_RXBUF 512 0 0 |>.wr F.CWK_VC_RXBUF 512 0 1 |>.wr F.CWK_VC_RXBUF 512 0 2 |>.wr F.CWK_VC_RXBUF 512 0 3 |>.wr F.CWK_VC_RXBUF 512 0 4 |>.wr F.CWK_VC_RXBUF 512 0 5 |>.wr F.CWK_VC_RXBUF 512 0 6 |>.wr F.CWK_VC_RXBUF 512 0 7
abbrev wide : State := (link0 cwACTIVE).wr F.CWK_STATUS_WIDTH 5 0

theorem wit_catwalk_links_1 :
    (∃ (n : Fin 8) (lo : Bool) (hi : Bool) (s : Machine.State), s.stage = Stage.running ∧ s.linkSt ↑n = cwDOWN ∧ s.on
      F.CWK_CTL_LINK_EN ↑n = true ∧ (s.secs.peer ↑n).isSome = true ∧ ((lo || hi) = true) ∧ (∀ q ∈ s.secs.unitQuads 2 ↑n,
      s.perst.contains (q / 4) = false) ∧ s.on F.MAP_STATUS_READY = true ∧ s.buffersOk ↑n = true) ∧
    (∃ (n : Fin 8) (lo : Bool) (hi : Bool) (s : Machine.State), s.stage = Stage.running ∧ s.linkSt ↑n = cwDOWN ∧ s.on
      F.CWK_CTL_LINK_EN ↑n = true ∧ (s.secs.peer ↑n).isSome = true ∧ ((lo || hi) = true) ∧ (∀ q ∈ s.secs.unitQuads 2 ↑n,
      s.perst.contains (q / 4) = false) ∧ s.on F.MAP_STATUS_READY = true ∧ s.buffersOk ↑n = false) ∧
    (∃ (n : Fin 8) (s : Machine.State), s.stage = Stage.running ∧ s.linkSt ↑n = cwTRAIN) ∧
    (∃ (n : Fin 8) (s : Machine.State) (c : ℕ × Instr), s.stage = Stage.running ∧ (c ∈ [(cwTRAIN, Instr.cwkTrainTimeout n),
      (cwINIT, Instr.cwkInitTimeout n), (cwRETRAIN, Instr.retrainTimeout n)]) ∧ s.linkSt ↑n = c.1) ∧
    (∃ (n : Fin 8) (s : Machine.State) (c : ℕ × Instr), s.stage = Stage.running ∧ (c ∈ [(cwTRAIN, Instr.cwkTrainTimeout n),
      (cwINIT, Instr.cwkInitTimeout n), (cwRETRAIN, Instr.retrainTimeout n)]) ∧ s.linkSt ↑n ≠ c.1) ∧
    (∃ (n : Fin 8) (s : Machine.State), s.stage = Stage.running ∧ s.linkSt ↑n ≠ cwDOWN ∧ ((s.link ↑n).stored = []) ∧ ((s.link
      ↑n).spilled = []) ∧ ((s.link ↑n).txq = [])) ∧
    (∃ (n : Fin 8) (s : Machine.State), s.stage = Stage.running ∧ s.linkSt ↑n = cwACTIVE ∧ (s.link ↑n).ask = none ∧ (((s.usedVcs
      ↑n).any fun v => decide (1024 ≤ smGet 0 (s.link ↑n).silent v)) = true)) ∧
    (∃ (n : Fin 8) (s : Machine.State) (lock : Bool), s.stage = Stage.running ∧ s.linkSt ↑n = cwACTIVE ∧ (s.link ↑n).ask = none
      ∧ (lock = true ∨ 8 ≤ (s.link ↑n).badRun)) :=
  ⟨⟨0, true, false, bufs.wr F.MAP_STATUS_READY 1, by decide +kernel⟩,
   ⟨0, true, true, (link0 cwDOWN).wr F.MAP_STATUS_READY 1, by decide +kernel⟩,
   ⟨0, link0 cwTRAIN, by decide +kernel⟩,
   ⟨0, link0 cwRETRAIN, (cwRETRAIN, .retrainTimeout 0), by decide +kernel⟩,
   ⟨0, link0 cwACTIVE, (cwRETRAIN, .retrainTimeout 0), by decide +kernel⟩,
   ⟨0, link0 cwACTIVE, by decide +kernel⟩,
   ⟨0, link0 cwACTIVE { silent := [(7, 1024)] }, by decide +kernel⟩,
   ⟨0, link0 cwACTIVE { badRun := 8 }, false, by refine ⟨?_, ?_, ?_, ?_⟩ <;> first | with_reducible rfl | decide +kernel⟩⟩

theorem wit_catwalk_links_2 :
    (∃ (n : Fin 8) (s : Machine.State) (who : Initiator) (v : BitVec 64) (w : Machine.State), s.stage = Stage.running ∧ s.linkSt
      ↑n = cwACTIVE ∧ (s.link ↑n).ask = none ∧ (Permitted s who (F.CWK_CTL_RETRAIN.addr (↑n) 0) true) ∧ w = s.written who
      (F.CWK_CTL_RETRAIN.addr (↑n) 0) (setBit v.toNat 8 true) ∧ w.linkSt ↑n = cwACTIVE) ∧
    (∃ (n : Fin 8) (lane : BitVec 4) (s : Machine.State), s.stage = Stage.running ∧ s.linkSt ↑n = cwACTIVE ∧ (lane.toNat < 2 ^
      (s.rd F.CWK_STATUS_WIDTH ↑n - 1)) ∧ 3 < s.rd F.CWK_STATUS_WIDTH ↑n) ∧
    (∃ (n : Fin 8) (lane : BitVec 4) (s : Machine.State), s.stage = Stage.running ∧ s.linkSt ↑n = cwACTIVE ∧ (lane.toNat < 2 ^
      (s.rd F.CWK_STATUS_WIDTH ↑n - 1)) ∧ s.rd F.CWK_STATUS_WIDTH ↑n ≤ 3) ∧
    (∃ (n : Fin 8) (x : CwkTarget) (s : Machine.State) (r : CwkTarget), s.stage = Stage.running ∧ s.linkSt ↑n = cwACTIVE ∧
      resolve (s.lanesUsed ↑n) (s.link ↑n).ask x = some r) ∧
    (∃ (n : Fin 8) (x : CwkTarget) (s : Machine.State), s.stage = Stage.running ∧ s.linkSt ↑n = cwACTIVE ∧ resolve (s.lanesUsed
      ↑n) (s.link ↑n).ask x = none) ∧
    (∃ (n : Fin 8) (s : Machine.State), s.stage = Stage.running ∧ s.linkSt ↑n ≠ cwACTIVE ∧ s.linkSt ↑n ≠ cwRETRAIN) ∧
    (∃ (n : Fin 8) (s : Machine.State), s.stage = Stage.running ∧ s.linkSt ↑n = cwACTIVE ∧ (s.link ↑n).ask.isSome = true) ∧
    (∃ (n : Fin 8) (s : Machine.State), s.stage = Stage.running ∧ ((s.link ↑n).ask = none ∨ s.linkSt ↑n ≠ cwACTIVE)) ∧
    (∃ (n : Fin 8) (x : CwkTarget) (s : Machine.State), s.stage = Stage.running ∧ s.linkSt ↑n = cwRETRAIN ∧ (s.link ↑n).target =
      some x ∧ x.lane = none ∧ (s.link ↑n).next = none ∧ ((s.link ↑n).stored = []) ∧ ((s.link ↑n).spilled = []) ∧ ((s.link
      ↑n).txq = [])) :=
  ⟨⟨0, link0 cwACTIVE, .cc, 1#64, (link0 cwACTIVE).written .cc (F.CWK_CTL_RETRAIN.addr 0 0) (setBit 1 8 true), by refine ⟨?_, ?_, ?_, ?_, ?_, ?_⟩ <;> first | with_reducible rfl | decide +kernel | (unfold Permitted; decide +kernel)⟩,
   ⟨0, 2, link0 cwACTIVE |>.wr F.CWK_STATUS_WIDTH 4 0, by decide +kernel⟩,
   ⟨0, 2, link0 cwACTIVE |>.wr F.CWK_STATUS_WIDTH 3 0, by decide +kernel⟩,
   ⟨0, ⟨0, 5, false, none⟩, wide, ⟨0, 5, false, none⟩, by decide +kernel⟩,
   ⟨0, ⟨0, 5, true, some 2⟩, (link0 cwACTIVE { ask := some ⟨0, 4, true, some 1⟩ }).wr F.CWK_STATUS_WIDTH 3 0, by decide +kernel⟩,
   ⟨0, link0 cwINIT, by decide +kernel⟩,
   ⟨0, link0 cwACTIVE { ask := some ⟨0, 4, true, some 1⟩ }, by decide +kernel⟩,
   ⟨0, link0 cwACTIVE, by decide +kernel⟩,
   ⟨0, ⟨0, 5, false, none⟩, link0 cwRETRAIN { target := some ⟨0, 5, false, none⟩ }, by decide +kernel⟩⟩

abbrev fl : Bytes := flitBytes (List.replicate 224 0) 0 0xFFFF (0, 0) (0, 0) 0
abbrev hel : BitVec 512 := 0x24#512 <<< 96 ||| 8#512 <<< 80 ||| 5#512 <<< 64 ||| 7#512

theorem wit_catwalk_messages :
    (∃ (n : Fin 8) (bs : Bytes) (k : ℕ) (s : Machine.State), s.stage = Stage.running ∧ List.length bs = 256 ∧ s.flitsFlow ↑n =
      true ∧ (flitPass bs = (k, none)) ∧ (s.link ↑n).replay = none) ∧
    (∃ (n : Fin 8) (bs : Bytes) (k : ℕ) (s : Machine.State) (b : Bytes), s.stage = Stage.running ∧ List.length bs = 256 ∧
      s.flitsFlow ↑n = true ∧ (flitPass bs = (k, some b))) ∧
    (∃ (n : Fin 8) (bs : Bytes) (s : Machine.State), s.stage = Stage.running ∧ List.length bs = 256 ∧ s.flitsFlow ↑n = false) ∧
    (∃ (n : Fin 8) (e : BitVec 16) (s : Machine.State), s.stage = Stage.running ∧ s.flitsFlow ↑n = true ∧ (Option.any (fun r =>
      r.start == e.toNat && decide (r.sent < 64)) (s.link ↑n).replay = true)) ∧
    (∃ (n : Fin 8) (e : BitVec 16) (older : List (ℕ × Bytes)) (later : List (ℕ × Bytes)) (slots : Bytes) (s : Machine.State),
      s.stage = Stage.running ∧ s.flitsFlow ↑n = true ∧ (Option.any (fun r => r.start == e.toNat && decide (r.sent < 64))
      (s.link ↑n).replay = false) ∧ ((s.link ↑n).spilled = []) ∧ ((s.link ↑n).stored = older ++ (e.toNat, slots) :: later) ∧ (∀
      x ∈ older, seqFrom x.1 e.toNat = false) ∧ (∃ x ∈ later, seqAfter x.1 e.toNat = true)) ∧
    (∃ (n : Fin 8) (e : BitVec 16) (s : Machine.State), s.stage = Stage.running ∧ s.flitsFlow ↑n = true ∧ (Option.any (fun r =>
      r.start == e.toNat && decide (r.sent < 64)) (s.link ↑n).replay = false) ∧ (s.link ↑n).unacked.contains e.toNat = false) ∧
    (∃ (x : BitVec 512) (s : Machine.State), s.stage = Stage.running ∧ helloZero (lineBytes x) = false) ∧
    (∃ (n : Fin 8) (x : BitVec 512) (s : Machine.State), s.stage = Stage.running ∧ s.linkSt ↑n = cwINIT ∧ helloZero (lineBytes
      x) = true ∧ s.helloCause (↑n) (lineBytes x) = 0) ∧
    (∃ (n : Fin 8) (x : BitVec 512) (s : Machine.State), s.stage = Stage.running ∧ s.linkSt ↑n = cwINIT ∧ helloZero (lineBytes
      x) = true ∧ s.helloCause (↑n) (lineBytes x) ≠ 0) ∧
    (∃ (n : Fin 8) (s : Machine.State), s.stage = Stage.running ∧ s.flitsFlow ↑n = true ∧ s.linkSt ↑n ≠ cwTRAIN) ∧
    (∃ (n : Fin 8) (s : Machine.State), s.stage = Stage.running ∧ (s.linkSt ↑n = cwTRAIN ∨ s.flitsFlow ↑n = false)) ∧
    (∃ (n : Fin 8) (s : Machine.State), s.stage = Stage.running ∧ s.linkSt ↑n = cwACTIVE) :=
  ⟨⟨0, [1] ++ List.replicate 255 0, (flitPass ([1] ++ List.replicate 255 0)).1, link0 cwACTIVE, by refine ⟨?_, ?_, ?_, ?_, ?_⟩ <;> first | with_reducible rfl | decide +kernel⟩,
   ⟨0, fl, 0, link0 cwACTIVE { badRun := 3 }, fl.take 242, by refine ⟨?_, ?_, ?_, ?_⟩ <;> first | with_reducible rfl | decide +kernel⟩,
   ⟨0, List.replicate 256 0, link0 cwDOWN, by decide +kernel⟩,
   ⟨0, 9, link0 cwACTIVE { stored := [(9, List.replicate 224 0)], replay := some ⟨9, 10, 1⟩ }, by decide +kernel⟩,
   ⟨0, 9, [], [(10, List.replicate 224 0)], List.replicate 224 0, link0 cwACTIVE { stored := [(9, List.replicate 224 0), (10, List.replicate 224 0)] }, by decide +kernel⟩,
   ⟨0, 9, link0 cwACTIVE, by decide +kernel⟩,
   ⟨1#512 <<< 511, link0 cwINIT, by decide +kernel⟩,
   ⟨0, hel, link0 cwINIT, by decide +kernel⟩,
   ⟨0, 7#512, link0 cwINIT, by decide +kernel⟩,
   ⟨0, link0 cwACTIVE, by decide +kernel⟩,
   ⟨0, link0 cwTRAIN, by decide +kernel⟩,
   ⟨0, link0 cwACTIVE, by decide +kernel⟩⟩

abbrev rejoin : State := ({ link0 cwACTIVE with span := { swept := 32, hellos := [(5, List.replicate 64 0)] } }.wrBit F.CWK_SPAN_STATUS_EXCLUDED 5 true).wrBit F.CWK_REJOIN_REJOIN 5 true |>.wrBit F.CWK_SPAN_STATUS_REACHABLE 5 true

theorem wit_span_membership :
    (∃ (n : Fin 8) (a : BitVec 4) (b : BitVec 4) (s : Machine.State), s.stage = Stage.running ∧ s.linkSt ↑n = cwACTIVE ∧ a.toNat
      ≠ s.slot ∧ b.toNat ≠ s.slot) ∧
    (∃ (n : Fin 8) (a : BitVec 4) (s : Machine.State), s.stage = Stage.running ∧ s.linkSt ↑n = cwACTIVE ∧ a.toNat = s.slot) ∧
    (∃ (n : Fin 8) (a : BitVec 4) (b : BitVec 4) (s : Machine.State), s.stage = Stage.running ∧ s.linkSt ↑n = cwACTIVE ∧ a.toNat
      ≠ s.slot ∧ b.toNat = s.slot) ∧
    (∃ (k : Fin 16) (s : Machine.State), s.stage = Stage.running ∧ s.span.sweeping.testBit ↑k = true) ∧
    (∃ (k : Fin 16) (s : Machine.State), s.stage = Stage.running ∧ s.span.sweeping.testBit ↑k = false) ∧
    (∃ (k : Fin 16) (s : Machine.State), s.stage = Stage.running ∧ s.excluded ↑k = true ∧ s.rdBit F.CWK_REJOIN_REJOIN ↑k = true
      ∧ s.reachable ↑k = true ∧ s.span.swept.testBit ↑k = true ∧ s.peerReady ↑k = true) ∧
    (∃ (k : Fin 16) (s : Machine.State), s.stage = Stage.running ∧ (s.excluded ↑k = false ∨ s.rdBit F.CWK_REJOIN_REJOIN ↑k =
      false ∨ s.reachable ↑k = false ∨ s.span.swept.testBit ↑k = false ∨ s.peerReady ↑k = false)) ∧
    (∃ (who : Initiator) (n : Fin 64) (v : BitVec 64) (s : Machine.State) (ok : Prop), (Permitted s who
      (F.CWK_SMAP_CTL_VALID.addr 0 ↑n) true) ∧ (ok ↔ s.rd F.CWK_SMAP_BASE_BASE 0 ↑n < s.rd F.CWK_SMAP_LIMIT_LIMIT 0 ↑n ∧ s.rd
      F.CWK_SMAP_LIMIT_LIMIT 0 ↑n ≤ s.secs.limit ∧ (∀ k < 64, s.rd F.CWK_SMAP_CTL_VALID 0 k ≠ 0 → s.rd F.CWK_SMAP_CTL_TYPE 0 k =
      F.CWK_SMAP_CTL_TYPE.of v.toNat → s.rd F.CWK_SMAP_LIMIT_LIMIT 0 k ≤ s.rd F.CWK_SMAP_BASE_BASE 0 ↑n ∨ s.rd
      F.CWK_SMAP_LIMIT_LIMIT 0 ↑n ≤ s.rd F.CWK_SMAP_BASE_BASE 0 k) ∧ (F.CWK_SMAP_CTL_TYPE.of v.toNat = 1 → s.rd
      F.CWK_SMAP_RBASE_RBASE 0 ↑n + s.rd F.CWK_SMAP_LIMIT_LIMIT 0 ↑n - s.rd F.CWK_SMAP_BASE_BASE 0 ↑n ≤ 262144)) ∧ s.rd
      F.CWK_CTL_LOCK = 0 ∧ s.rd F.CWK_SMAP_CTL_VALID 0 ↑n = 0 ∧ (ok)) ∧
    (∃ (who : Initiator) (n : Fin 64) (v : BitVec 64) (s : Machine.State) (ok : Prop), (Permitted s who
      (F.CWK_SMAP_CTL_VALID.addr 0 ↑n) true) ∧ (ok ↔ s.rd F.CWK_SMAP_BASE_BASE 0 ↑n < s.rd F.CWK_SMAP_LIMIT_LIMIT 0 ↑n ∧ s.rd
      F.CWK_SMAP_LIMIT_LIMIT 0 ↑n ≤ s.secs.limit ∧ (∀ k < 64, s.rd F.CWK_SMAP_CTL_VALID 0 k ≠ 0 → s.rd F.CWK_SMAP_CTL_TYPE 0 k =
      F.CWK_SMAP_CTL_TYPE.of v.toNat → s.rd F.CWK_SMAP_LIMIT_LIMIT 0 k ≤ s.rd F.CWK_SMAP_BASE_BASE 0 ↑n ∨ s.rd
      F.CWK_SMAP_LIMIT_LIMIT 0 ↑n ≤ s.rd F.CWK_SMAP_BASE_BASE 0 k) ∧ (F.CWK_SMAP_CTL_TYPE.of v.toNat = 1 → s.rd
      F.CWK_SMAP_RBASE_RBASE 0 ↑n + s.rd F.CWK_SMAP_LIMIT_LIMIT 0 ↑n - s.rd F.CWK_SMAP_BASE_BASE 0 ↑n ≤ 262144)) ∧ s.rd
      F.CWK_CTL_LOCK = 0 ∧ s.rd F.CWK_SMAP_CTL_VALID 0 ↑n = 0 ∧ (¬ok)) ∧
    (∃ (who : Initiator) (n : Fin 64) (v : BitVec 64) (s : Machine.State) (ok : Prop), (Permitted s who
      (F.CWK_SMAP_CTL_VALID.addr 0 ↑n) true) ∧ (ok ↔ s.rd F.CWK_SMAP_BASE_BASE 0 ↑n < s.rd F.CWK_SMAP_LIMIT_LIMIT 0 ↑n ∧ s.rd
      F.CWK_SMAP_LIMIT_LIMIT 0 ↑n ≤ s.secs.limit ∧ (∀ k < 64, s.rd F.CWK_SMAP_CTL_VALID 0 k ≠ 0 → s.rd F.CWK_SMAP_CTL_TYPE 0 k =
      F.CWK_SMAP_CTL_TYPE.of v.toNat → s.rd F.CWK_SMAP_LIMIT_LIMIT 0 k ≤ s.rd F.CWK_SMAP_BASE_BASE 0 ↑n ∨ s.rd
      F.CWK_SMAP_LIMIT_LIMIT 0 ↑n ≤ s.rd F.CWK_SMAP_BASE_BASE 0 k) ∧ (F.CWK_SMAP_CTL_TYPE.of v.toNat = 1 → s.rd
      F.CWK_SMAP_RBASE_RBASE 0 ↑n + s.rd F.CWK_SMAP_LIMIT_LIMIT 0 ↑n - s.rd F.CWK_SMAP_BASE_BASE 0 ↑n ≤ 262144)) ∧ (s.on
      F.CWK_CTL_LOCK = true ∨ s.on F.CWK_SMAP_CTL_VALID 0 ↑n = true)) ∧
    (∃ (who : Initiator) (n : Fin 64) (v : BitVec 64) (s : Machine.State) (ok : Prop), (Permitted s who
      (F.CWK_SMAP_CTL_VALID.addr 0 ↑n) true) ∧ (ok ↔ s.rd F.CWK_SMAP_BASE_BASE 0 ↑n < s.rd F.CWK_SMAP_LIMIT_LIMIT 0 ↑n ∧ s.rd
      F.CWK_SMAP_LIMIT_LIMIT 0 ↑n ≤ s.secs.limit ∧ (∀ k < 64, s.rd F.CWK_SMAP_CTL_VALID 0 k ≠ 0 → s.rd F.CWK_SMAP_CTL_TYPE 0 k =
      F.CWK_SMAP_CTL_TYPE.of v.toNat → s.rd F.CWK_SMAP_LIMIT_LIMIT 0 k ≤ s.rd F.CWK_SMAP_BASE_BASE 0 ↑n ∨ s.rd
      F.CWK_SMAP_LIMIT_LIMIT 0 ↑n ≤ s.rd F.CWK_SMAP_BASE_BASE 0 k) ∧ (F.CWK_SMAP_CTL_TYPE.of v.toNat = 1 → s.rd
      F.CWK_SMAP_RBASE_RBASE 0 ↑n + s.rd F.CWK_SMAP_LIMIT_LIMIT 0 ↑n - s.rd F.CWK_SMAP_BASE_BASE 0 ↑n ≤ 262144)) ∧ s.on
      F.CWK_CTL_LOCK = true) :=
  ⟨⟨0, 5, 6, link0 cwACTIVE, by decide +kernel⟩,
   ⟨0, 2, link0 cwACTIVE, by decide +kernel⟩,
   ⟨0, 5, 2, link0 cwACTIVE, by decide +kernel⟩,
   ⟨5, { run1 with span := { sweeping := 32 } }, by decide +kernel⟩,
   ⟨5, run1, by decide +kernel⟩,
   ⟨5, rejoin, by decide +kernel⟩,
   ⟨5, run1, by decide +kernel⟩,
   ⟨.cc, 3, 0x8000000000000000#64, run1.wr F.CWK_SMAP_LIMIT_LIMIT 9 0 3, True, by unfold Permitted; decide +kernel⟩,
   ⟨.cc, 3, 0#64, run1, False, by unfold Permitted; decide +kernel⟩,
   ⟨.cc, 3, 0#64, run1.wr F.CWK_SMAP_CTL_VALID 1 0 3, False, by unfold Permitted; decide +kernel⟩,
   ⟨.cc, 3, 0#64, run1.wr F.CWK_CTL_LOCK 1, False, by unfold Permitted; decide +kernel⟩⟩

theorem wit_queue_pushes :
    (∃ (q : Fin 1024) (who : Initiator) (item : Bytes) (s : Machine.State) (c : ℕ × ℕ × Instr), s.stage = Stage.running ∧
      List.length item = 64 ∧ (c ∈ [(0, tagSOP + tagEOP, Instr.push q (QPort.host who) item), (64, tagSOP, Instr.pushSop q who
      item), (128, 0, Instr.pushMid q who item), (192, tagEOP, Instr.pushEop q who item)]) ∧ (Permitted s who (portPage (↑q)
      c.1) true) ∧ (QueueQuiet s ↑q) ∧ s.on F.CRQ_CFG_EN ↑q = true ∧ s.qUsed ↑q < s.qCap ↑q ∧ s.rd F.CRQ_STATE_DISCARD ↑q = 0 ∧
      (c.2.1.testBit 0 = true → s.rd F.CRQ_STATE_PROD_OPEN ↑q = 0)) ∧
    (∃ (q : Fin 1024) (who : Initiator) (item : Bytes) (s : Machine.State) (c : ℕ × ℕ × Instr), s.stage = Stage.running ∧
      List.length item = 64 ∧ (c ∈ [(0, tagSOP + tagEOP, Instr.push q (QPort.host who) item), (64, tagSOP, Instr.pushSop q who
      item), (128, 0, Instr.pushMid q who item), (192, tagEOP, Instr.pushEop q who item)]) ∧ (Permitted s who (portPage (↑q)
      c.1) true) ∧ s.on F.CRQ_CFG_EN ↑q = true ∧ s.qCap ↑q ≤ s.qUsed ↑q ∧ s.rd F.CRQ_STATE_DISCARD ↑q = 0) ∧
    (∃ (q : Fin 1024) (who : Initiator) (item : Bytes) (s : Machine.State) (c : ℕ × ℕ × Instr), s.stage = Stage.running ∧
      List.length item = 64 ∧ (c ∈ [(0, tagSOP + tagEOP, Instr.push q (QPort.host who) item), (64, tagSOP, Instr.pushSop q who
      item), (128, 0, Instr.pushMid q who item), (192, tagEOP, Instr.pushEop q who item)]) ∧ (Permitted s who (portPage (↑q)
      c.1) true) ∧ s.rd F.CRQ_CFG_EN ↑q = 0) ∧
    (∃ (q : Fin 1024) (who : Initiator) (item : Bytes) (s : Machine.State) (c : ℕ × Instr), List.length item ≠ 64 ∧ (c ∈ [(0,
      Instr.push q (QPort.host who) item), (64, Instr.pushSop q who item), (128, Instr.pushMid q who item), (192, Instr.pushEop
      q who item)]) ∧ (Permitted s who (portPage (↑q) c.1) true)) ∧
    (∃ (q : Fin 1024) (s : Machine.State), s.stage = Stage.running ∧ (QueueQuiet s ↑q) ∧ s.on F.CRQ_CFG_EN ↑q = true ∧ s.qUsed
      ↑q < s.qCap ↑q ∧ s.rd F.CRQ_STATE_DISCARD ↑q = 0 ∧ s.rd F.CRQ_STATE_PROD_OPEN ↑q = 0) ∧
    (∃ (q : Fin 1024) (s : Machine.State), s.stage = Stage.running ∧ (s.rd F.CRQ_CFG_EN ↑q = 0 ∨ s.qCap ↑q ≤ s.qUsed ↑q ∧ s.rd
      F.CRQ_STATE_DISCARD ↑q = 0)) :=
  ⟨⟨9, .cc, item, run1.wr F.CRQ_CFG_EN 1 9, (0, tagSOP + tagEOP, .push 9 (.host .cc) item), by unfold Permitted QueueQuiet; decide +kernel⟩,
   ⟨9, .cc, item, (run1.wr F.CRQ_CFG_EN 1 9).wr F.CRQ_PTR0_W 16 9, (128, 0, .pushMid 9 .cc item), by unfold Permitted; decide +kernel⟩,
   ⟨9, .cc, item, run1, (64, tagSOP, .pushSop 9 .cc item), by unfold Permitted; decide +kernel⟩,
   ⟨9, .cc, [1], run1.wr F.CRQ_CFG_EN 1 9, (128, .pushMid 9 .cc [1]), by unfold Permitted; decide +kernel⟩,
   ⟨9, run1.wr F.CRQ_CFG_EN 1 9, by unfold QueueQuiet; decide +kernel⟩,
   ⟨9, run1, by decide +kernel⟩⟩

theorem wit_queue_pops :
    (∃ (q : Fin 1024) (s : Machine.State), s.stage = Stage.running ∧ (QueueQuiet s ↑q) ∧ (s.queue ↑q).token ≠ 0) ∧
    (∃ (q : Fin 1024) (s : Machine.State), s.stage = Stage.running ∧ (QueueQuiet s ↑q) ∧ (s.queue ↑q).token = 0 ∧ s.rd
      F.CRQ_CFG_EN ↑q = 0) ∧
    (∃ (q : Fin 1024) (s : Machine.State), s.stage = Stage.running ∧ (QueueQuiet s ↑q) ∧ (s.queue ↑q).token = 0 ∧ s.on
      F.CRQ_CFG_EN ↑q = true ∧ s.qAvail ↑q = 0) ∧
    (∃ (q : Fin 1024) (size : BitVec 8) (s : Machine.State) (who : Initiator), s.stage = Stage.running ∧ (QueueQuiet s ↑q) ∧
      (Permitted s who (portPage (↑q) 256) false) ∧ (s.queue ↑q).token = 0 ∧ s.on F.CRQ_CFG_EN ↑q = true ∧ s.on F.CRQ_CFG_HOSTRD
      ↑q = true ∧ 0 < s.qAvail ↑q ∧ s.startable ↑q = true ∧ size.toNat = 64 ∧ s.rd F.CRQ_CFG_AUTO_REL ↑q = 0) ∧
    (∃ (q : Fin 1024) (from_ : QPort) (n : BitVec 15) (s : Machine.State), s.stage = Stage.running ∧ (QueueQuiet s ↑q) ∧ (∀ (who
      : Initiator), from_ = QPort.host who → Permitted s who (portPage (↑q) 320) true) ∧ 0 < n.toNat ∧ n.toNat ≤ ptrDist (s.qL
      ↑q) (s.qD ↑q)) ∧
    (∃ (q : Fin 1024) (from_ : QPort) (n : BitVec 15) (s : Machine.State), s.stage = Stage.running ∧ (QueueQuiet s ↑q) ∧ (∀ (who
      : Initiator), from_ = QPort.host who → Permitted s who (portPage (↑q) 320) true) ∧ ptrDist (s.qL ↑q) (s.qD ↑q) < n.toNat) ∧
    (∃ (q : Fin 1024) (s : Machine.State), s.stage = Stage.running ∧ (s.stalled = []) ∧ s.on F.CRQ_CFG_EN ↑q = true ∧ s.on
      F.CRQ_GAP_GAP_NS ↑q = true ∧ s.on F.CRQ_STATE_CONS_OPEN ↑q = true ∧ s.qAvail ↑q = 0 ∧ ((s.queue ↑q).stall = [])) ∧
    (∃ (q : Fin 1024) (s : Machine.State), s.stage = Stage.running ∧ (s.stalled = []) ∧ (s.rd F.CRQ_STATE_CONS_OPEN ↑q = 0 ∨
      s.qAvail ↑q ≠ 0)) ∧
    (∃ (q : Fin 1024) (who : Initiator) (v : BitVec 64) (s : Machine.State) (w : Machine.State), (Permitted s who (portPage (↑q)
      344) true) ∧ (QueueQuiet s ↑q) ∧ (w = s.written who (portPage (↑q) 344) (setBits (setBit v.toNat 0 true) 11 8 (clamp 4 14
      (F.CRQ_CFG_CAP_LOG2.of (setBit v.toNat 0 true))) / 2 * 2)) ∧ s.rd F.CRQ_CFG_EN ↑q = 0 ∧ w.qCfgOk ↑q = true) ∧
    (∃ (q : Fin 1024) (who : Initiator) (v : BitVec 64) (s : Machine.State) (w : Machine.State), (Permitted s who (portPage (↑q)
      344) true) ∧ (QueueQuiet s ↑q) ∧ (w = s.written who (portPage (↑q) 344) (setBits (setBit v.toNat 0 true) 11 8 (clamp 4 14
      (F.CRQ_CFG_CAP_LOG2.of (setBit v.toNat 0 true))) / 2 * 2)) ∧ s.rd F.CRQ_CFG_EN ↑q = 0 ∧ w.qCfgOk ↑q = false) ∧
    (∃ (q : Fin 1024) (who : Initiator) (s : Machine.State), (Permitted s who (portPage (↑q) 344) true) ∧ (QueueQuiet s ↑q) ∧
      s.on F.CRQ_CFG_EN ↑q = true) :=
  ⟨⟨9, { run1 with queues := [(9, { token := 0x10 })] }, by unfold QueueQuiet; decide +kernel⟩,
   ⟨9, run1, by unfold QueueQuiet; decide +kernel⟩,
   ⟨9, run1.wr F.CRQ_CFG_EN 1 9, by unfold QueueQuiet; decide +kernel⟩,
   ⟨9, 64, queue9.wr F.CRQ_CFG_HOSTRD 1 9, .cc, by unfold Permitted QueueQuiet; decide +kernel⟩,
   ⟨9, .host .cc, 1, queue9.wr F.CRQ_PTR0_D 1 9, by refine ⟨?_, ?_, ?_, ?_, ?_⟩ <;> first | with_reducible rfl | decide +kernel | (unfold Permitted; decide +kernel) | (unfold QueueQuiet; decide +kernel) | (intro _ h; cases h <;> (unfold Permitted; decide +kernel))⟩,
   ⟨9, .chip 16, 2, queue9.wr F.CRQ_PTR0_D 1 9, by refine ⟨?_, ?_, ?_, ?_⟩ <;> first | with_reducible rfl | decide +kernel | (unfold Permitted; decide +kernel) | (unfold QueueQuiet; decide +kernel) | (intro _ h; cases h <;> (unfold Permitted; decide +kernel))⟩,
   ⟨9, ((run1.wr F.CRQ_CFG_EN 1 9).wr F.CRQ_GAP_GAP_NS 500 9).wr F.CRQ_STATE_CONS_OPEN 1 9, by decide +kernel⟩,
   ⟨9, queue9, by decide +kernel⟩,
   ⟨9, .cc, 0x400#64, run1, run1.written .cc (portPage 9 344) (setBits (setBit 0x400 0 true) 11 8 (clamp 4 14 (F.CRQ_CFG_CAP_LOG2.of (setBit 0x400 0 true))) / 2 * 2), by refine ⟨?_, ?_, ?_, ?_, ?_⟩ <;> first | with_reducible rfl | decide +kernel | (unfold Permitted; decide +kernel) | (unfold QueueQuiet; decide +kernel)⟩,
   ⟨9, .cc, 0xFFFFFFFFFFFFFFFF#64, run1, run1.written .cc (portPage 9 344) (setBits (setBit 0xFFFFFFFFFFFFFFFF 0 true) 11 8 (clamp 4 14 (F.CRQ_CFG_CAP_LOG2.of (setBit 0xFFFFFFFFFFFFFFFF 0 true))) / 2 * 2), by refine ⟨?_, ?_, ?_, ?_, ?_⟩ <;> first | with_reducible rfl | decide +kernel | (unfold Permitted; decide +kernel) | (unfold QueueQuiet; decide +kernel)⟩,
   ⟨9, .cc, queue9, by unfold Permitted QueueQuiet; decide +kernel⟩⟩

abbrev urg : State := rank0 0 rankACTIVE |>.wr F.DRC_RANK_STATUS_POSTPONE 4 0 0
abbrev chanB : State := (chan0 { bq := [acc0] }).wr F.DRC_RANK_STATUS_STATE rankACTIVE 0 0
abbrev cand1 : Cand := ⟨acc0, 1, (secs.chn 0).queue (chanQ.target 0 3).1, (secs.chn 0).bank ((chanQ.target 0 3).1 % 2 ^ 36)⟩
abbrev c0 : Cand := { cand1 with kind := 0 }
abbrev pnc : State := chan0 { panic1 := { open_ := true } }

theorem wit_channel_queues :
    (∃ (c : Fin 16) (write : Bool) (s : Machine.State) (a : LineAcc) (b : LineAcc), s.stage = Stage.running ∧ s.nextAdmit (↑c)
      write = some a ∧ (b ∈ (s.chan ↑c).wait) ∧ b.write = write ∧ s.mayEnter (↑c) b = true) ∧
    (∃ (c : Fin 16) (write : Bool) (s : Machine.State), s.stage = Stage.running ∧ s.nextAdmit (↑c) write = none) ∧
    (∃ (c : Fin 16) (ranks : BitVec 4) (s : Machine.State) (r : Fin 4), s.stage = Stage.running ∧ ranks.getLsbD ↑r = true ∧
      (s.rd F.DRC_RANK_STATUS_STATE ↑c ↑r = rankACTIVE ∨ s.rd F.DRC_RANK_STATUS_STATE ↑c ↑r = rankPOWERDOWN) ∧ s.rd
      F.DRC_RANK_STATUS_POSTPONE ↑c ↑r = 4 ∧ (∀ (r' : Fin 4), ↑r' < ↑r → ranks.getLsbD ↑r' = false)) ∧
    (∃ (c : Fin 16) (sub : Fin 2) (banks : BitVec 128) (s : Machine.State) (x : Cand), s.stage = Stage.running ∧ (∀ (r : Fin 4),
      signed 4 (s.rd F.DRC_RANK_STATUS_POSTPONE ↑c ↑r) ≠ 4) ∧ (x ∈ List.filter (fun x => banks.toNat.testBit (x.queue % 128))
      (s.cands ↑c ↑sub)) ∧ (∀ y ∈ List.filter (fun x => banks.toNat.testBit (x.queue % 128)) (s.cands ↑c ↑sub), y ≠ x → s.before
      (↑c) (↑sub) x y = true ∧ s.before (↑c) (↑sub) y x = false)) ∧
    (∃ (c : Fin 16) (sub : Fin 2) (banks : BitVec 128) (ranks : BitVec 4) (s : Machine.State) (r : Fin 4), s.stage =
      Stage.running ∧ (∀ (r : Fin 4), signed 4 (s.rd F.DRC_RANK_STATUS_POSTPONE ↑c ↑r) ≤ 0) ∧ (List.filter (fun x =>
      banks.toNat.testBit (x.queue % 128)) (s.cands ↑c ↑sub) = []) ∧ ranks.getLsbD ↑r = true ∧ s.rd F.DRC_RANK_STATUS_STATE ↑c
      ↑r = rankPARKING ∧ (s.chan ↑c).entered.contains ↑r = false ∧ (∀ (r' : Fin 4), ↑r' < ↑r → ranks.getLsbD ↑r' = false)) ∧
    (∃ (c : Fin 16) (sub : Fin 2) (banks : BitVec 128) (ranks : BitVec 4) (s : Machine.State), s.stage = Stage.running ∧ (∀ (r :
      Fin 4), signed 4 (s.rd F.DRC_RANK_STATUS_POSTPONE ↑c ↑r) ≤ 0) ∧ (List.filter (fun x => banks.toNat.testBit (x.queue %
      128)) (s.cands ↑c ↑sub) = []) ∧ (∀ (r : Fin 4), ranks.getLsbD ↑r = true → s.rd F.DRC_RANK_STATUS_STATE ↑c ↑r ≠ rankPARKING
      ∨ (s.chan ↑c).entered.contains ↑r = true)) ∧
    (∃ (c : Fin 16) (sub : ℕ) (x : Cand) (s : Machine.State) (t : Machine.State), s.issue (↑c) sub x = t ∧ x.kind = 0) ∧
    (∃ (c : Fin 16) (sub : ℕ) (x : Cand) (s : Machine.State) (t : Machine.State), s.issue (↑c) sub x = t ∧ x.kind = 1) ∧
    (∃ (c : Fin 16) (sub : ℕ) (x : Cand) (s : Machine.State) (t : Machine.State), s.issue (↑c) sub x = t ∧ 2 ≤ x.kind) ∧
    (∃ (c : Fin 16) (sub : Fin 2) (s : Machine.State) (a : LineAcc), s.stage = Stage.running ∧ (List.find? (fun a => (s.secs.chn
      ↑c).queue (s.target (↑c) a.cla).1 / 128 == ↑sub) (s.chan ↑c).issued = some a)) ∧
    (∃ (c : Fin 16) (s : Machine.State), s.stage = Stage.running ∧ ((s.chan ↑c).issued = [])) ∧
    (∃ (c : Fin 16) (s : Machine.State), s.stage = Stage.running ∧ ((s.chan ↑c).panic0.open_ = true ∨ (s.chan ↑c).panic1.open_ =
      true)) ∧
    (∃ (c : Fin 16) (s : Machine.State), s.stage = Stage.running ∧ (s.chan ↑c).panic0.open_ = false ∧ (s.chan ↑c).panic1.open_ =
      false) :=
  ⟨⟨0, false, chan0 { wait := [acc0] }, acc0, acc0, by decide +kernel⟩,
   ⟨0, true, chan0 { wait := [acc0] }, by decide +kernel⟩,
   ⟨0, 3#4, urg, 0, by decide +kernel⟩,
   ⟨0, 0, -1, chanB, cand1, by decide +kernel⟩,
   ⟨0, 0, 0, 3#4, rank0 0 rankPARKING, 0, by decide +kernel⟩,
   ⟨0, 0, 0, 0, chan0, by decide +kernel⟩,
   ⟨0, 0, c0, chanB, chanB.issue 0 0 c0, by decide +kernel⟩,
   ⟨0, 0, cand1, chanB, chanB.issue 0 0 cand1, by decide +kernel⟩,
   ⟨0, 0, { cand1 with kind := 2 }, chanB, chanB.issue 0 0 { cand1 with kind := 2 }, by decide +kernel⟩,
   ⟨0, 0, chan0 { issued := [acc0] }, acc0, by decide +kernel⟩,
   ⟨0, chan0, by decide +kernel⟩,
   ⟨0, pnc, by decide +kernel⟩,
   ⟨0, chan0, by decide +kernel⟩⟩

abbrev rk (s : State) (n : Nat) : State := (s.written .cc (F.DRC_RANK_CTL_CMD.addr 0 1) (setBits 5 33 32 n)).drcRanges (F.DRC_RANK_CTL_CMD.addr 0 1) (s.dropHalves .cc (F.DRC_RANK_CTL_CMD.addr 0 1))
abbrev chk : State := rank0 1 rankCHECKING

theorem wit_rank_states_1 :
    (∃ (c : Fin 16) (r : Fin 4) (s : Machine.State), s.stage = Stage.running ∧ s.rd F.DRC_RANK_STATUS_STATE ↑c ↑r = rankACTIVE ∧
      s.rankIdle ↑c ↑r = true ∧ s.on F.DRC_RANK_CTL_PD_IDLE ↑c ↑r = true ∧ s.rd F.PWR_STATUS_FLOOR ≠ 4 ∧ s.on F.DRC_CTL_PD_EN ↑c
      = true ∧ (s.secs.loftRank ↑c ↑r = true ∨ 2 ≤ s.rd F.PWR_STATUS_FLOOR)) ∧
    (∃ (c : Fin 16) (r : Fin 4) (s : Machine.State), s.stage = Stage.running ∧ s.rd F.DRC_RANK_STATUS_STATE ↑c ↑r = rankACTIVE ∧
      s.rankIdle ↑c ↑r = true ∧ s.on F.DRC_RANK_CTL_PD_IDLE ↑c ↑r = true ∧ s.rd F.PWR_STATUS_FLOOR = 4 ∧ s.secs.loftRank ↑c ↑r =
      false) ∧
    (∃ (c : Fin 16) (r : Fin 4) (s : Machine.State), s.stage = Stage.running ∧ (s.rd F.DRC_RANK_STATUS_STATE ↑c ↑r ≠ rankACTIVE
      ∨ s.rankIdle ↑c ↑r = false)) ∧
    (∃ (c : Fin 16) (r : Fin 4) (s : Machine.State), s.stage = Stage.running ∧ (s.rd F.DRC_RANK_STATUS_STATE ↑c ↑r = rankACTIVE
      ∨ s.rd F.DRC_RANK_STATUS_STATE ↑c ↑r = rankPOWERDOWN) ∧ s.mayPark ↑c ↑r = true) ∧
    (∃ (c : Fin 16) (r : Fin 4) (s : Machine.State), s.stage = Stage.running ∧ s.mayPark ↑c ↑r = false) ∧
    (∃ (c : Fin 16) (r : Fin 4) (s : Machine.State), s.stage = Stage.running ∧ s.rd F.DRC_RANK_STATUS_STATE ↑c ↑r = rankPARKING
      ∧ s.rd F.DRC_RANK_STATUS_HOT ↑c ↑r = 0) ∧
    (∃ (c : Fin 16) (r : Fin 4) (s : Machine.State), s.stage = Stage.running ∧ s.rd F.DRC_RANK_STATUS_STATE ↑c ↑r ≠ rankPARKING) ∧
    (∃ (c : Fin 16) (r : Fin 4) (s : Machine.State), s.stage = Stage.running ∧ s.rd F.DRC_RANK_STATUS_STATE ↑c ↑r = rankPARKED) :=
  ⟨⟨0, 1, rank0 1 rankACTIVE |>.wr F.DRC_CTL_PD_EN 1 0 |>.wr F.DRC_RANK_CTL_PD_IDLE 5 0 1, by decide +kernel⟩,
   ⟨0, 0, rank0 0 rankACTIVE |>.wr F.PWR_STATUS_FLOOR 4 |>.wr F.DRC_RANK_CTL_PD_IDLE 5 0 0, by decide +kernel⟩,
   ⟨0, 0, rank0 0 rankPARKED, by decide +kernel⟩,
   ⟨0, 1, rank0 1 rankPOWERDOWN |>.wr F.DRC_RANK_CTL_PARK_EN 1 0 1, by decide +kernel⟩,
   ⟨0, 0, rank0 0 rankACTIVE, by decide +kernel⟩,
   ⟨0, 1, rank0 1 rankPARKING, by decide +kernel⟩,
   ⟨0, 1, rank0 1 rankPARKED, by decide +kernel⟩,
   ⟨0, 1, rank0 1 rankPARKED, by decide +kernel⟩⟩

theorem wit_rank_states_2 :
    (∃ (c : Fin 16) (r : Fin 4) (s : Machine.State), s.stage = Stage.running ∧ s.rd F.DRC_RANK_STATUS_STATE ↑c ↑r ≠ rankPARKED) ∧
    (∃ (who : Initiator) (c : Fin 16) (r : Fin 4) (v : BitVec 64) (s : Machine.State) (w : Machine.State) (n : ℕ) (off : ℕ), off
      = F.DRC_RANK_CTL_CMD.addr ↑c ↑r ∧ (Permitted s who off true) ∧ w = (s.written who off (setBits v.toNat 33 32 n)).drcRanges
      off (s.dropHalves who off) ∧ n = 1) ∧
    (∃ (who : Initiator) (c : Fin 16) (r : Fin 4) (v : BitVec 64) (s : Machine.State) (w : Machine.State) (n : ℕ) (off : ℕ), off
      = F.DRC_RANK_CTL_CMD.addr ↑c ↑r ∧ (Permitted s who off true) ∧ w = (s.written who off (setBits v.toNat 33 32 n)).drcRanges
      off (s.dropHalves who off) ∧ n = 2) ∧
    (∃ (c : Fin 16) (r : Fin 4) (s : Machine.State), s.stage = Stage.running ∧ s.rd F.DRC_RANK_STATUS_STATE ↑c ↑r = rankWAKING) ∧
    (∃ (c : Fin 16) (r : Fin 4) (s : Machine.State), s.stage = Stage.running ∧ s.rd F.DRC_RANK_STATUS_STATE ↑c ↑r =
      rankCHECKING) ∧
    (∃ (c : Fin 16) (r : Fin 4) (s : Machine.State), s.stage = Stage.running ∧ s.rd F.DRC_RANK_STATUS_STATE ↑c ↑r ≠ rankWAKING ∧
      s.rd F.DRC_RANK_STATUS_STATE ↑c ↑r ≠ rankCHECKING) ∧
    (∃ (c : Fin 16) (r : Fin 4) (s : Machine.State), s.stage = Stage.running ∧ s.rd F.DRC_RANK_STATUS_STATE ↑c ↑r = rankACTIVE ∧
      (s.pwr.selfRef.contains (4 * ↑c + ↑r) = false) ∧ signed 4 (s.rd F.DRC_RANK_STATUS_POSTPONE ↑c ↑r) < 4 ∧ (signed 4 (s.rd
      F.DRC_RANK_STATUS_POSTPONE ↑c ↑r) < 0 ∨ s.rankIdle ↑c ↑r = false)) ∧
    (∃ (c : Fin 16) (r : Fin 4) (s : Machine.State), s.stage = Stage.running ∧ s.rd F.DRC_RANK_STATUS_STATE ↑c ↑r = rankACTIVE ∧
      (s.pwr.selfRef.contains (4 * ↑c + ↑r) = false) ∧ 0 ≤ signed 4 (s.rd F.DRC_RANK_STATUS_POSTPONE ↑c ↑r) ∧ signed 4 (s.rd
      F.DRC_RANK_STATUS_POSTPONE ↑c ↑r) < 4 ∧ s.rankIdle ↑c ↑r = true) ∧
    (∃ (c : Fin 16) (r : Fin 4) (s : Machine.State), s.stage = Stage.running ∧ s.rd F.DRC_RANK_STATUS_STATE ↑c ↑r = rankACTIVE ∧
      (s.pwr.selfRef.contains (4 * ↑c + ↑r) = false) ∧ 4 ≤ signed 4 (s.rd F.DRC_RANK_STATUS_POSTPONE ↑c ↑r)) :=
  ⟨⟨0, 1, rank0 1 rankACTIVE, by decide +kernel⟩,
   ⟨.cc, 0, 1, 5, rank0 1 rankACTIVE, rk (rank0 1 rankACTIVE) 1, 1, F.DRC_RANK_CTL_CMD.addr 0 1, by refine ⟨?_, ?_, ?_, ?_⟩ <;> first | with_reducible rfl | decide +kernel | (unfold Permitted; decide +kernel)⟩,
   ⟨.cc, 0, 1, 5, rank0 1 rankPARKED, rk (rank0 1 rankPARKED) 2, 2, F.DRC_RANK_CTL_CMD.addr 0 1, by refine ⟨?_, ?_, ?_, ?_⟩ <;> first | with_reducible rfl | decide +kernel | (unfold Permitted; decide +kernel)⟩,
   ⟨0, 1, rank0 1 rankWAKING, by decide +kernel⟩,
   ⟨0, 1, chk, by decide +kernel⟩,
   ⟨0, 1, rank0 1 rankPARKED, by decide +kernel⟩,
   ⟨0, 1, rank0 1 rankACTIVE |>.wr F.DRC_RANK_STATUS_POSTPONE 15 0 1, by decide +kernel⟩,
   ⟨0, 1, rank0 1 rankACTIVE |>.wr F.DRC_RANK_STATUS_POSTPONE 3 0 1, by decide +kernel⟩,
   ⟨0, 1, rank0 1 rankACTIVE |>.wr F.DRC_RANK_STATUS_POSTPONE 4 0 1, by decide +kernel⟩⟩

abbrev untr : State := run1.wr F.INL_CH_STATUS_STATE inON 0 1
abbrev spd0 : Spd := ⟨true, 4, 16, 1, 2, 6400, 77⟩

theorem wit_channel_care :
    (∃ (c : Fin 16) (t0 : TrainReport) (s : Machine.State) (d : Spd), s.stage = Stage.running ∧ (s.secs.chn ↑c).dpc ≠ 0 ∧
      s.bankOn ↑c = true ∧ s.rd F.DRC_CFG_PRESENT ↑c = 0 ∧ s.rd F.DRC_CFG_EXCLUDED ↑c = 0 ∧ dimmsOk (s.secs.chn ↑c) t0.dimm0
      t0.dimm1 = true ∧ t0.dimm0 = some d ∧ t0.result = 0) ∧
    (∃ (c : Fin 16) (t0 : TrainReport) (s : Machine.State), s.stage = Stage.running ∧ (s.secs.chn ↑c).dpc ≠ 0 ∧ s.bankOn ↑c =
      true ∧ s.rd F.DRC_CFG_PRESENT ↑c = 0 ∧ s.rd F.DRC_CFG_EXCLUDED ↑c = 0 ∧ (dimmsOk (s.secs.chn ↑c) t0.dimm0 t0.dimm1 = false
      ∨ t0.result ≠ 0)) ∧
    (∃ (c : Fin 16) (s : Machine.State), s.stage = Stage.running ∧ ((s.secs.chn ↑c).dpc = 0 ∨ s.bankOn ↑c = false ∨ s.on
      F.DRC_CFG_PRESENT ↑c = true ∨ s.on F.DRC_CFG_EXCLUDED ↑c = true)) ∧
    (∃ (c : Fin 16) (s : Machine.State), s.stage = Stage.running ∧ s.on F.DRC_CFG_PRESENT ↑c = true) ∧
    (∃ (c : Fin 16) (d : Fin 2) (s : Machine.State) (r0 : Fin 4), s.stage = Stage.running ∧ s.rankUp ↑c ↑r0 = true ∧ s.dimmOf ↑c
      ↑r0 = ↑d) ∧
    (∃ (c : Fin 16) (d : Fin 2) (s : Machine.State), s.stage = Stage.running ∧ (∀ (r : Fin 4), s.rankUp ↑c ↑r = false ∨ s.dimmOf
      ↑c ↑r ≠ ↑d)) :=
  ⟨⟨0, train 0, untr, spd0, by decide +kernel⟩,
   ⟨0, train 3, untr, by decide +kernel⟩,
   ⟨0, run2, by decide +kernel⟩,
   ⟨0, run2, by decide +kernel⟩,
   ⟨0, 0, rank0 1 rankACTIVE, 1, by decide +kernel⟩,
   ⟨0, 1, rank0 1 rankACTIVE, by decide +kernel⟩⟩

abbrev scr : State := { hall1 with dram := [(0, { passN := 5 })] }
abbrev scrP : State := { scr with map := { scr.map with groups := [] } }
abbrev g1 : Group := ⟨0, 1, [0, 1], 34359738368, true, 32768⟩
abbrev wind : State := chan0.wr F.TIM_CAL_STAT_OPEN 1 0 5 |>.wr F.TIM_CAL_CTL_ACTION 2 0 5
abbrev rmp (n : Nat) : State := (run2.written .cc (F.DRC_REMAP_1_CMD.addr 0 3) (setBits 5 17 16 n)).drcRanges (F.DRC_REMAP_1_CMD.addr 0 3) (run2.dropHalves .cc (F.DRC_REMAP_1_CMD.addr 0 3))
abbrev ppr (n : Nat) : State := (run2.written .cc (F.DRC_PPR_CMD_TYPE.addr 0 0) n).drcRanges (F.DRC_PPR_CMD_TYPE.addr 0 0) (run2.dropHalves .cc (F.DRC_PPR_CMD_TYPE.addr 0 0))

theorem wit_scrub_and_repair_1 :
    (∃ (c : Fin 16) (s : Machine.State) (w : Machine.State) (cla : ℕ), s.stage = Stage.running ∧ s.on F.DRC_CFG_PRESENT ↑c =
      true ∧ s.rd F.PWR_STATUS_FLOOR ≠ 4 ∧ (w = if (s.chan ↑c).passN = 0 then s.startPass ↑c else s) ∧ w.nextAwake (↑c) (w.rd
      F.DRC_SCRUB_CUR_CLA ↑c) = some cla) ∧
    (∃ (c : Fin 16) (s : Machine.State) (w : Machine.State), s.stage = Stage.running ∧ s.on F.DRC_CFG_PRESENT ↑c = true ∧ s.rd
      F.PWR_STATUS_FLOOR ≠ 4 ∧ (w = if (s.chan ↑c).passN = 0 then s.startPass ↑c else s) ∧ w.nextAwake (↑c) (w.rd
      F.DRC_SCRUB_CUR_CLA ↑c) = none) ∧
    (∃ (c : Fin 16) (s : Machine.State), s.stage = Stage.running ∧ (s.rd F.PWR_STATUS_FLOOR = 4 ∨ s.rd F.DRC_CFG_PRESENT ↑c =
      0)) ∧
    (∃ (c : Fin 16) (s : Machine.State) (g : Machine.Group), s.stage = Stage.running ∧ (List.find? (fun g => s.on
      F.DRC_SCRUB_RANK_CUR_FORCED (↑c) g.r) (s.loftRanks ↑c) = some g)) ∧
    (∃ (c : Fin 16) (s : Machine.State), s.stage = Stage.running ∧ (∀ g ∈ s.loftRanks ↑c, s.rd F.DRC_SCRUB_RANK_CUR_FORCED (↑c)
      g.r = 0) ∧ s.windowOpen 2 ↑c = false) ∧
    (∃ (c : Fin 16) (s : Machine.State) (g : Machine.Group), s.stage = Stage.running ∧ (∀ g ∈ s.loftRanks ↑c, s.rd
      F.DRC_SCRUB_RANK_CUR_FORCED (↑c) g.r = 0) ∧ s.windowOpen 2 ↑c = true ∧ (List.find? (fun g => decide ((s.chan ↑c).loftAt ≤
      g.r)) (s.loftRanks ↑c) = some g)) ∧
    (∃ (c : Fin 16) (s : Machine.State), s.stage = Stage.running ∧ (∀ g ∈ s.loftRanks ↑c, s.rd F.DRC_SCRUB_RANK_CUR_FORCED (↑c)
      g.r = 0) ∧ s.windowOpen 2 ↑c = true ∧ (List.find? (fun g => decide ((s.chan ↑c).loftAt ≤ g.r)) (s.loftRanks ↑c) = none)) ∧
    (∃ (c : Fin 16) (r : Fin 4) (s : Machine.State), s.stage = Stage.running ∧ (((s.loftRanks ↑c).any fun g => g.r == ↑r) =
      true)) :=
  ⟨⟨0, scr, scr, 0, by refine ⟨?_, ?_, ?_, ?_, ?_⟩ <;> first | with_reducible rfl | decide +kernel⟩,
   ⟨0, scrP, scrP, by refine ⟨?_, ?_, ?_, ?_, ?_⟩ <;> first | with_reducible rfl | decide +kernel⟩,
   ⟨0, run1, by decide +kernel⟩,
   ⟨0, chan0.wr F.DRC_SCRUB_RANK_CUR_FORCED 1 0 1, g1, by decide +kernel⟩,
   ⟨0, chan0, by decide +kernel⟩,
   ⟨0, wind, g1, by decide +kernel⟩,
   ⟨0, wind.onChan 0 (fun x => { x with loftAt := 2 }), by decide +kernel⟩,
   ⟨0, 1, rank0 1 rankPARKED, by decide +kernel⟩⟩

theorem wit_scrub_and_repair_2 :
    (∃ (c : Fin 16) (r : Fin 4) (s : Machine.State), s.stage = Stage.running ∧ (((s.loftRanks ↑c).any fun g => g.r == ↑r) =
      false)) ∧
    (∃ (who : Initiator) (c : Fin 16) (k : Fin 16) (v : BitVec 64) (s : Machine.State) (w : Machine.State) (n : ℕ) (off : ℕ),
      off = F.DRC_REMAP_1_CMD.addr ↑c ↑k ∧ (Permitted s who off true) ∧ w = (s.written who off (setBits v.toNat 17 16
      n)).drcRanges off (s.dropHalves who off) ∧ n = 1) ∧
    (∃ (who : Initiator) (c : Fin 16) (k : Fin 16) (v : BitVec 64) (s : Machine.State) (w : Machine.State) (n : ℕ) (off : ℕ),
      off = F.DRC_REMAP_1_CMD.addr ↑c ↑k ∧ (Permitted s who off true) ∧ w = (s.written who off (setBits v.toNat 17 16
      n)).drcRanges off (s.dropHalves who off) ∧ n = 2) ∧
    (∃ (c : Fin 16) (k : Fin 16) (s : Machine.State), s.stage = Stage.running ∧ s.rd F.DRC_REMAP_0_STATE ↑c ↑k = rmCOPYING ∧ (∀
      a ∈ (s.chan ↑c).inq ++ (s.chan ↑c).bq, a.cla ≠ s.rd F.DRC_REMAP_0_ORIG_CLA ↑c ↑k)) ∧
    (∃ (c : Fin 16) (k : Fin 16) (s : Machine.State), s.stage = Stage.running ∧ (s.rd F.DRC_REMAP_0_STATE ↑c ↑k ≠ rmCOPYING ∨ ∃
      a ∈ (s.chan ↑c).inq ++ (s.chan ↑c).bq, a.cla = s.rd F.DRC_REMAP_0_ORIG_CLA ↑c ↑k)) ∧
    (∃ (who : Initiator) (c : Fin 16) (s : Machine.State) (w : Machine.State) (n : ℕ) (off : ℕ), off = F.DRC_PPR_CMD_TYPE.addr
      (↑c) 0 ∧ (Permitted s who off true) ∧ w = (s.written who off n).drcRanges off (s.dropHalves who off) ∧ n = 1) ∧
    (∃ (who : Initiator) (c : Fin 16) (s : Machine.State) (w : Machine.State) (n : ℕ) (off : ℕ), off = F.DRC_PPR_CMD_TYPE.addr
      (↑c) 0 ∧ (Permitted s who off true) ∧ w = (s.written who off n).drcRanges off (s.dropHalves who off) ∧ n = 2) ∧
    (∃ (c : Fin 16) (s : Machine.State) (k : ℕ), s.stage = Stage.running ∧ (s.chan ↑c).ppr = some k) ∧
    (∃ (c : Fin 16) (s : Machine.State), s.stage = Stage.running ∧ (s.chan ↑c).ppr = none) :=
  ⟨⟨0, 0, run2, by decide +kernel⟩,
   ⟨.cc, 0, 3, 5, run2, rmp 1, 1, F.DRC_REMAP_1_CMD.addr 0 3, by refine ⟨?_, ?_, ?_, ?_⟩ <;> first | with_reducible rfl | decide +kernel | (unfold Permitted; decide +kernel)⟩,
   ⟨.cc, 0, 3, 5, run2, rmp 2, 2, F.DRC_REMAP_1_CMD.addr 0 3, by refine ⟨?_, ?_, ?_, ?_⟩ <;> first | with_reducible rfl | decide +kernel | (unfold Permitted; decide +kernel)⟩,
   ⟨0, 3, run2.wr F.DRC_REMAP_0_STATE rmCOPYING 0 3, by decide +kernel⟩,
   ⟨0, 3, run2, by decide +kernel⟩,
   ⟨.cc, 0, run2, ppr 1, 1, F.DRC_PPR_CMD_TYPE.addr 0 0, by refine ⟨?_, ?_, ?_, ?_⟩ <;> first | with_reducible rfl | decide +kernel | (unfold Permitted; decide +kernel)⟩,
   ⟨.cc, 0, run2, ppr 2, 2, F.DRC_PPR_CMD_TYPE.addr 0 0, by refine ⟨?_, ?_, ?_, ?_⟩ <;> first | with_reducible rfl | decide +kernel | (unfold Permitted; decide +kernel)⟩,
   ⟨0, chan0 { ppr := some 1 }, 1, by decide +kernel⟩,
   ⟨0, chan0, by decide +kernel⟩⟩

abbrev JR : Type := (BitVec 16 → Instr) × (BitVec 16 → Nat) × Nat × (State → Nat → Job → State × Bool)
abbrev cpy : JR := (fun n => .copy 1 0 n, fun n => n.toNat, 1, copyUnit)
abbrev j64 : Job := job 1 [0, 4096, 64]

theorem wit_job_rows :
    (∃ (g : Fin 16) (i : Fin 16) (s : Machine.State) (x : (BitVec 16 → Instr) × (BitVec 16 → ℕ) × ℕ × (Machine.State → ℕ → Job →
      Machine.State × Bool)), (x ∈ [(fun n => Instr.copy g i n, fun n => n.toNat, 1, copyUnit), (fun n => Instr.fill g i n, fun
      n => n.toNat, 2, fillUnit), (fun n => Instr.zdetect g i n, fun n => n.toNat, 3, examine zdetectLine id), (fun n =>
      Instr.crc g i n, fun n => n.toNat, 4, examine crcLine crcEnd), (fun n => Instr.scan g i n, fun n => n.toNat, 5, examine
      scanLine id), (fun n => Instr.touch g i n, fun n => n.toNat, 6, touchUnit), (fun n => Instr.twinhash g i n, fun n =>
      n.toNat, 7, twinhashUnit), (fun n => Instr.encode g i n, fun n => n.toNat, 8, encodeUnit), (fun n => Instr.decode g i n,
      fun n => n.toNat, 9, decodeUnit), (fun n => Instr.aesEnc g i n, fun n => n.toNat, 10, aesJobUnit false), (fun n =>
      Instr.aesDec g i n, fun n => n.toNat, 11, aesJobUnit true), (fun x => Instr.demote g i, fun x => 1, 16, demoteUnit), (fun
      x => Instr.demoteCommit g i, fun x => 1, 16, demoteCommitUnit), (fun x => Instr.relocate g i, fun x => 1, 17,
      relocateUnit), (fun x => Instr.relocateCommit g i, fun x => 1, 17, relocateCommitUnit), (fun n => Instr.promote g i n, fun
      n => n.toNat, 18, promoteUnit), (fun n => Instr.mapScan g i n, fun n => n.toNat, 19, mapScanUnit), (fun n => Instr.rekey g
      i n, fun n => n.toNat, 20, rekeyUnit), (fun n => Instr.reslot g i n, fun n => n.toNat, 21, reslotUnit)]) ∧ s.stage =
      Stage.running ∧ ((s.gal ↑g).jobs[↑i]? = none)) ∧
    (∃ (g : Fin 16) (i : Fin 16) (s : Machine.State) (x : (BitVec 16 → Instr) × (BitVec 16 → ℕ) × ℕ × (Machine.State → ℕ → Job →
      Machine.State × Bool)) (j : Job), (x ∈ [(fun n => Instr.copy g i n, fun n => n.toNat, 1, copyUnit), (fun n => Instr.fill g
      i n, fun n => n.toNat, 2, fillUnit), (fun n => Instr.zdetect g i n, fun n => n.toNat, 3, examine zdetectLine id), (fun n
      => Instr.crc g i n, fun n => n.toNat, 4, examine crcLine crcEnd), (fun n => Instr.scan g i n, fun n => n.toNat, 5, examine
      scanLine id), (fun n => Instr.touch g i n, fun n => n.toNat, 6, touchUnit), (fun n => Instr.twinhash g i n, fun n =>
      n.toNat, 7, twinhashUnit), (fun n => Instr.encode g i n, fun n => n.toNat, 8, encodeUnit), (fun n => Instr.decode g i n,
      fun n => n.toNat, 9, decodeUnit), (fun n => Instr.aesEnc g i n, fun n => n.toNat, 10, aesJobUnit false), (fun n =>
      Instr.aesDec g i n, fun n => n.toNat, 11, aesJobUnit true), (fun x => Instr.demote g i, fun x => 1, 16, demoteUnit), (fun
      x => Instr.demoteCommit g i, fun x => 1, 16, demoteCommitUnit), (fun x => Instr.relocate g i, fun x => 1, 17,
      relocateUnit), (fun x => Instr.relocateCommit g i, fun x => 1, 17, relocateCommitUnit), (fun n => Instr.promote g i n, fun
      n => n.toNat, 18, promoteUnit), (fun n => Instr.mapScan g i n, fun n => n.toNat, 19, mapScanUnit), (fun n => Instr.rekey g
      i n, fun n => n.toNat, 20, rekeyUnit), (fun n => Instr.reslot g i n, fun n => n.toNat, 21, reslotUnit)]) ∧ s.stage =
      Stage.running ∧ ((s.gal ↑g).jobs[↑i]? = some j) ∧ j.op ≠ x.2.2.1) ∧
    (∃ (g : Fin 16) (i : Fin 16) (n : BitVec 16) (s : Machine.State) (x : (BitVec 16 → Instr) × (BitVec 16 → ℕ) × ℕ ×
      (Machine.State → ℕ → Job → Machine.State × Bool)) (j : Job), (x ∈ [(fun n => Instr.copy g i n, fun n => n.toNat, 1,
      copyUnit), (fun n => Instr.fill g i n, fun n => n.toNat, 2, fillUnit), (fun n => Instr.zdetect g i n, fun n => n.toNat, 3,
      examine zdetectLine id), (fun n => Instr.crc g i n, fun n => n.toNat, 4, examine crcLine crcEnd), (fun n => Instr.scan g i
      n, fun n => n.toNat, 5, examine scanLine id), (fun n => Instr.touch g i n, fun n => n.toNat, 6, touchUnit), (fun n =>
      Instr.twinhash g i n, fun n => n.toNat, 7, twinhashUnit), (fun n => Instr.encode g i n, fun n => n.toNat, 8, encodeUnit),
      (fun n => Instr.decode g i n, fun n => n.toNat, 9, decodeUnit), (fun n => Instr.aesEnc g i n, fun n => n.toNat, 10,
      aesJobUnit false), (fun n => Instr.aesDec g i n, fun n => n.toNat, 11, aesJobUnit true), (fun x => Instr.demote g i, fun x
      => 1, 16, demoteUnit), (fun x => Instr.demoteCommit g i, fun x => 1, 16, demoteCommitUnit), (fun x => Instr.relocate g i,
      fun x => 1, 17, relocateUnit), (fun x => Instr.relocateCommit g i, fun x => 1, 17, relocateCommitUnit), (fun n =>
      Instr.promote g i n, fun n => n.toNat, 18, promoteUnit), (fun n => Instr.mapScan g i n, fun n => n.toNat, 19,
      mapScanUnit), (fun n => Instr.rekey g i n, fun n => n.toNat, 20, rekeyUnit), (fun n => Instr.reslot g i n, fun n =>
      n.toNat, 21, reslotUnit)]) ∧ s.stage = Stage.running ∧ ((s.gal ↑g).jobs[↑i]? = some j) ∧ x.2.1 n = 1 ∧ (JobReady s (↑g)
      (↑i) x.2.2.1 j)) ∧
    (∃ (g : Fin 16) (i : Fin 16) (n : BitVec 16) (s : Machine.State) (x : (BitVec 16 → Instr) × (BitVec 16 → ℕ) × ℕ ×
      (Machine.State → ℕ → Job → Machine.State × Bool)) (j : Job), (x ∈ [(fun n => Instr.copy g i n, fun n => n.toNat, 1,
      copyUnit), (fun n => Instr.fill g i n, fun n => n.toNat, 2, fillUnit), (fun n => Instr.zdetect g i n, fun n => n.toNat, 3,
      examine zdetectLine id), (fun n => Instr.crc g i n, fun n => n.toNat, 4, examine crcLine crcEnd), (fun n => Instr.scan g i
      n, fun n => n.toNat, 5, examine scanLine id), (fun n => Instr.touch g i n, fun n => n.toNat, 6, touchUnit), (fun n =>
      Instr.twinhash g i n, fun n => n.toNat, 7, twinhashUnit), (fun n => Instr.encode g i n, fun n => n.toNat, 8, encodeUnit),
      (fun n => Instr.decode g i n, fun n => n.toNat, 9, decodeUnit), (fun n => Instr.aesEnc g i n, fun n => n.toNat, 10,
      aesJobUnit false), (fun n => Instr.aesDec g i n, fun n => n.toNat, 11, aesJobUnit true), (fun x => Instr.demote g i, fun x
      => 1, 16, demoteUnit), (fun x => Instr.demoteCommit g i, fun x => 1, 16, demoteCommitUnit), (fun x => Instr.relocate g i,
      fun x => 1, 17, relocateUnit), (fun x => Instr.relocateCommit g i, fun x => 1, 17, relocateCommitUnit), (fun n =>
      Instr.promote g i n, fun n => n.toNat, 18, promoteUnit), (fun n => Instr.mapScan g i n, fun n => n.toNat, 19,
      mapScanUnit), (fun n => Instr.rekey g i n, fun n => n.toNat, 20, rekeyUnit), (fun n => Instr.reslot g i n, fun n =>
      n.toNat, 21, reslotUnit)]) ∧ s.stage = Stage.running ∧ ((s.gal ↑g).jobs[↑i]? = some j) ∧ 0 < x.2.1 n ∧ s.jobBySeq (↑g)
      j.seq = some j ∧ j.op = x.2.2.1 ∧ j.st = JobSt.running ∧ (j.list = []) ∧ j.wrote = none ∧ s.suspect ↑g = true) ∧
    (∃ (g : Fin 16) (i : Fin 16) (n : BitVec 16) (s : Machine.State) (x : (BitVec 16 → Instr) × (BitVec 16 → ℕ) × ℕ ×
      (Machine.State → ℕ → Job → Machine.State × Bool)) (j : Job), (x ∈ [(fun n => Instr.copy g i n, fun n => n.toNat, 1,
      copyUnit), (fun n => Instr.fill g i n, fun n => n.toNat, 2, fillUnit), (fun n => Instr.zdetect g i n, fun n => n.toNat, 3,
      examine zdetectLine id), (fun n => Instr.crc g i n, fun n => n.toNat, 4, examine crcLine crcEnd), (fun n => Instr.scan g i
      n, fun n => n.toNat, 5, examine scanLine id), (fun n => Instr.touch g i n, fun n => n.toNat, 6, touchUnit), (fun n =>
      Instr.twinhash g i n, fun n => n.toNat, 7, twinhashUnit), (fun n => Instr.encode g i n, fun n => n.toNat, 8, encodeUnit),
      (fun n => Instr.decode g i n, fun n => n.toNat, 9, decodeUnit), (fun n => Instr.aesEnc g i n, fun n => n.toNat, 10,
      aesJobUnit false), (fun n => Instr.aesDec g i n, fun n => n.toNat, 11, aesJobUnit true), (fun x => Instr.demote g i, fun x
      => 1, 16, demoteUnit), (fun x => Instr.demoteCommit g i, fun x => 1, 16, demoteCommitUnit), (fun x => Instr.relocate g i,
      fun x => 1, 17, relocateUnit), (fun x => Instr.relocateCommit g i, fun x => 1, 17, relocateCommitUnit), (fun n =>
      Instr.promote g i n, fun n => n.toNat, 18, promoteUnit), (fun n => Instr.mapScan g i n, fun n => n.toNat, 19,
      mapScanUnit), (fun n => Instr.rekey g i n, fun n => n.toNat, 20, rekeyUnit), (fun n => Instr.reslot g i n, fun n =>
      n.toNat, 21, reslotUnit)]) ∧ s.stage = Stage.running ∧ ((s.gal ↑g).jobs[↑i]? = some j) ∧ 0 < x.2.1 n ∧ s.jobBySeq (↑g)
      j.seq = some j ∧ j.op = x.2.2.1 ∧ j.st = JobSt.running ∧ (j.list = []) ∧ j.wrote = none ∧ s.suspect ↑g = false ∧ ((s.gal
      ↑g).aborts.contains (j.dq, j.seq) = true)) ∧
    (∃ (g : ℕ) (s : Machine.State) (j : Job), s.jobBySeq g j.seq = some j ∧ j.st = JobSt.running ∧ (j.list = []) ∧ (j.wrote =
      none → s.suspect g = false ∧ (s.gal g).aborts.contains (j.dq, j.seq) = false)) :=
  ⟨⟨1, 0, run1, cpy, by refine ⟨?_, ?_, ?_⟩ <;> first | with_reducible rfl | decide +kernel | (repeat first | exact List.mem_cons_self .. | apply List.mem_cons_of_mem)⟩,
   ⟨1, 0, galJob (job 2 [0, 4096, 64]), cpy, job 2 [0, 4096, 64], by refine ⟨?_, ?_, ?_, ?_⟩ <;> first | with_reducible rfl | decide +kernel | (repeat first | exact List.mem_cons_self .. | apply List.mem_cons_of_mem)⟩,
   ⟨1, 0, 1, galJob j64, cpy, j64, by refine ⟨?_, ?_, ?_, ?_, ?_⟩ <;> first | with_reducible rfl | decide +kernel | (unfold JobReady; decide +kernel) | (repeat first | exact List.mem_cons_self .. | apply List.mem_cons_of_mem)⟩,
   ⟨1, 0, 1, (galJob j64).wr F.RAS_GAL_SUSPECT_GAL 2, cpy, j64, by refine ⟨?_, ?_, ?_, ?_, ?_, ?_, ?_, ?_, ?_, ?_⟩ <;> first | with_reducible rfl | decide +kernel | (repeat first | exact List.mem_cons_self .. | apply List.mem_cons_of_mem)⟩,
   ⟨1, 0, 3, (galJob j64).onGal 1 (fun x => { x with aborts := [(9, 4)] }), cpy, j64, by refine ⟨?_, ?_, ?_, ?_, ?_, ?_, ?_, ?_, ?_, ?_, ?_⟩ <;> first | with_reducible rfl | decide +kernel | (repeat first | exact List.mem_cons_self .. | apply List.mem_cons_of_mem)⟩,
   ⟨1, galJob j64, j64, by decide +kernel⟩⟩

abbrev jz (b : Bool) : Job := { job 3 [0, 0, 64] with got := some (5, b) }
abbrev js (a : List Nat) : Job := { job 5 a with got := some (5, false) }
abbrev jm (a : List Nat) : Job :=
  let j := job 5 a
  { j with items := j.items ++ [lineOfBytes (List.replicate 48 0 ++ [8] ++ List.replicate 15 0)], got := some (0, false) }

abbrev jf : Job := job 2 [0, 4096, 64, 9]
abbrev ja : Job := { job 10 [0, 0, 16, 16 <<< 16 ||| 5] with inBuf := List.replicate 16 7 }

theorem wit_line_jobs_1 :
    (∃ (j : Job), j.arg 2 ≤ j.pos) ∧
    (∃ (j : Job), 4096 ≤ j.taken) ∧
    (∃ (s : Machine.State) (s1 : Machine.State) (g : ℕ) (j : Job) (j1 : Job), j.pos < j.arg 2 ∧ (s.jobFetch g j (j.arg 0 +
      j.pos) = (Fetched.wait, j1, s1))) ∧
    (∃ (s : Machine.State) (s1 : Machine.State) (s2 : Machine.State) (g : ℕ) (j : Job) (j1 : Job) (j2 : Job) (d : Line) (bad :
      Bool), j.pos < j.arg 2 ∧ (s.jobFetch g j (j.arg 0 + j.pos) = (Fetched.data d bad, j1, s1)) ∧ (s1.jobStore g j1 (j1.arg 1 +
      j1.pos) d (BitVec.allOnes 64) bad = (Stored.done, j2, s2))) ∧
    (∃ (s : Machine.State) (s1 : Machine.State) (g : ℕ) (j : Job) (j1 : Job) (d : Line) (bad : Bool), j.pos < j.arg 2 ∧
      (s.jobFetch g j (j.arg 0 + j.pos) = (Fetched.data d bad, j1, s1)) ∧ bad = true) ∧
    (∃ (s : Machine.State) (s1 : Machine.State) (g : ℕ) (j : Job) (j1 : Job) (d : Line) (bad : Bool), j.pos < j.arg 2 ∧
      (s.jobFetch g j (j.arg 0 + j.pos) = (Fetched.data d bad, j1, s1)) ∧ bad = false ∧ (j1.inBuf = []) ∧ j1.result = 0 ∧ (64 <
      2 ^ (j1.arg 3 % 16))) ∧
    (∃ (s : Machine.State) (s1 : Machine.State) (g : ℕ) (j : Job) (j1 : Job) (d : Line) (bad : Bool), j.pos < j.arg 2 ∧
      (s.jobFetch g j (j.arg 0 + j.pos) = (Fetched.data d bad, j1, s1)) ∧ bad = false ∧ (j1.inBuf = []) ∧ j1.result = 0 ∧ (2 ^
      (j1.arg 3 % 16) = 64) ∧ j1.matches (lineBytes d) = false) ∧
    (∃ (s : Machine.State) (s1 : Machine.State) (g : ℕ) (j : Job) (j1 : Job) (d : Line) (bad : Bool) (k : Job), j.pos < j.arg 2
      ∧ (s.jobFetch g j (j.arg 0 + j.pos) = (Fetched.data d bad, j1, s1)) ∧ bad = false ∧ (j1.inBuf = []) ∧ j1.result = 0 ∧ (2 ^
      (j1.arg 3 % 16) = 64) ∧ j1.matches (lineBytes d) = true ∧ (k = ({ j1 with got := none, asked := [] } : Job).addEntry
      (j1.arg 0 + j1.pos)) ∧ (j1.arg 4 = 0 ∨ j1.r0 + 1 < j1.arg 4)) ∧
    (∃ (s : Machine.State) (s1 : Machine.State) (g : ℕ) (j : Job) (j1 : Job) (d : Line) (bad : Bool) (k : Job), j.pos < j.arg 2
      ∧ (s.jobFetch g j (j.arg 0 + j.pos) = (Fetched.data d bad, j1, s1)) ∧ bad = false ∧ (j1.inBuf = []) ∧ j1.result = 0 ∧ (2 ^
      (j1.arg 3 % 16) = 64) ∧ j1.matches (lineBytes d) = true ∧ (k = ({ j1 with got := none, asked := [] } : Job).addEntry
      (j1.arg 0 + j1.pos)) ∧ j1.arg 4 ≠ 0 ∧ (j1.arg 4 ≤ j1.r0 + 1)) :=
  ⟨⟨job 1 [0, 4096, 0], by decide +kernel⟩,
   ⟨{ job 7 [3] with taken := 4096, inBuf := List.replicate 4096 0 }, by decide +kernel⟩,
   ⟨galJob { j64 with asked := [0] }, galJob { j64 with asked := [0] }, 1, { j64 with asked := [0] }, { j64 with asked := [0] }, by refine ⟨?_, ?_⟩ <;> first | with_reducible rfl | decide +kernel⟩,
   ⟨galJob (job 1 [0, 4096, 64]), ((galJob (job 1 [0, 4096, 64])).jobFetch 1 (job 1 [0, 4096, 64]) 0).2.2, (((galJob (job 1 [0, 4096, 64])).jobFetch 1 (job 1 [0, 4096, 64]) 0).2.2.jobStore 1 (job 1 [0, 4096, 64]) 4096 0 (BitVec.allOnes 64) false).2.2, 1, job 1 [0, 4096, 64], job 1 [0, 4096, 64], job 1 [0, 4096, 64], 0, false, by refine ⟨?_, ?_, ?_⟩ <;> first | with_reducible rfl | decide +kernel⟩,
   ⟨run1, run1, 1, jz true, jz true, 5, true, by refine ⟨?_, ?_, ?_⟩ <;> first | with_reducible rfl | decide +kernel⟩,
   ⟨run1, run1, 1, js [0, 0, 128, 7], js [0, 0, 128, 7], 5, false, by refine ⟨?_, ?_, ?_, ?_, ?_, ?_⟩ <;> first | with_reducible rfl | decide +kernel⟩,
   ⟨run1, run1, 1, js [0, 0, 64, 6], js [0, 0, 64, 6], 5, false, by refine ⟨?_, ?_, ?_, ?_, ?_, ?_, ?_⟩ <;> first | with_reducible rfl | decide +kernel⟩,
   ⟨run1, run1, 1, jm [0, 0, 64, 6], jm [0, 0, 64, 6], 0, false, ({ jm [0, 0, 64, 6] with got := none, asked := [] } : Job).addEntry 0, by refine ⟨?_, ?_, ?_, ?_, ?_, ?_, ?_, ?_, ?_⟩ <;> first | with_reducible rfl | decide +kernel⟩,
   ⟨run1, run1, 1, jm [0, 0, 64, 6, 1], jm [0, 0, 64, 6, 1], 0, false, ({ jm [0, 0, 64, 6, 1] with got := none, asked := [] } : Job).addEntry 0, by refine ⟨?_, ?_, ?_, ?_, ?_, ?_, ?_, ?_, ?_, ?_⟩ <;> first | with_reducible rfl | decide +kernel⟩⟩

theorem wit_line_jobs_2 :
    (∃ (s : Machine.State) (s1 : Machine.State) (g : ℕ) (j : Job) (j1 : Job), j.pos < j.arg 2 ∧ (s.jobStore g j (j.arg 1 +
      j.pos) (lineOfBytes (List.flatMap (fun _ => toLE 8 (j.arg 3)) (List.range 8))) (BitVec.allOnes 64) false = (Stored.done,
      j1, s1))) ∧
    (∃ (s : Machine.State) (j : Job), j.pos < j.arg 2 ∧ j.wrote = none ∧ (s.jobPlace j (j.arg 1 + j.pos) = none)) ∧
    (∃ (s : Machine.State) (j : Job), j.pos < j.arg 2 ∧ j.got = none ∧ (s.jobPlace j (j.arg 0 + j.pos) = none)) ∧
    (∃ (s : Machine.State) (g : ℕ) (j : Job) (sl : ℕ) (line : ℕ), j.pos < j.arg 2 ∧ (s.jobPlace j (j.arg 0 + j.pos) = some (sl,
      line)) ∧ ((s.agLine (64 + g) sl line).st.hits = true) ∧ (j.asked ≠ [])) ∧
    (∃ (j : Job), (j.outBuf = []) ∧ j.pos < j.arg 2 ∧ 512 ≤ List.length j.inBuf) ∧
    (∃ (j : Job) (b : Bytes) (n : ℕ), (j.outBuf = []) ∧ j.pos < j.arg 2 ∧ (528 ≤ List.length j.inBuf ∨ j.arg 3 ≤ j.taken) ∧
      (aloneDecode j.inBuf = Except.ok (b, n))) ∧
    (∃ (j : Job) (e : TreadErr), (j.outBuf = []) ∧ j.pos < j.arg 2 ∧ (528 ≤ List.length j.inBuf ∨ j.arg 3 ≤ j.taken) ∧
      aloneDecode j.inBuf = Except.error e) ∧
    (∃ (s : Machine.State) (j : Job) (unit : ℕ) (need : ℕ), unit = bits (j.arg 3) 28 16 ∧ (need = min unit (j.arg 2 - j.pos *
      unit)) ∧ (j.outBuf = []) ∧ (j.pos * unit < j.arg 2) ∧ need ≤ List.length j.inBuf ∧ (s.keyUp (j.arg 3 % 256) = false)) ∧
    (∃ (s : Machine.State) (j : Job) (unit : ℕ) (need : ℕ), unit = bits (j.arg 3) 28 16 ∧ (need = min unit (j.arg 2 - j.pos *
      unit)) ∧ (j.outBuf = []) ∧ (j.pos * unit < j.arg 2) ∧ need ≤ List.length j.inBuf ∧ (s.keyUp (j.arg 3 % 256) = true) ∧ 16 ≤
      need) :=
  ⟨⟨run2, (run2.jobStore 1 jf 4096 (lineOfBytes ((List.range 8).flatMap (fun _ => toLE 8 9))) (BitVec.allOnes 64) false).2.2, 1, jf, jf, by refine ⟨?_, ?_⟩ <;> first | with_reducible rfl | decide +kernel⟩,
   ⟨run1, job 2 [0, 2 ^ 46, 64], by decide +kernel⟩,
   ⟨run1, job 1 [2 ^ 46, 0, 64], by decide +kernel⟩,
   ⟨withLine 65 .e, 1, { job 6 [320, 0, 64] with asked := [5] }, 2, 5, by decide +kernel⟩,
   ⟨{ job 8 [0, 0, 1] with inBuf := List.replicate 512 0 }, by decide +kernel⟩,
   ⟨{ job 9 [0, 0, 1] with inBuf := List.replicate 16 0 }, List.replicate 512 0, 16, by decide +kernel⟩,
   ⟨{ job 9 [0, 0, 1] with inBuf := List.replicate 16 7 }, match aloneDecode (List.replicate 16 7) with | .error e => e | _ => .badPad, by decide +kernel⟩,
   ⟨run1, ja, 16, 16, by refine ⟨?_, ?_, ?_, ?_, ?_, ?_⟩ <;> first | with_reducible rfl | decide +kernel⟩,
   ⟨run1.setKeySlot 5 { cur := ⟨1, 2, 3⟩ } |>.wr F.KEY_SLOT_STATE_STATE 1 0 5, ja, 16, 16, by refine ⟨?_, ?_, ?_, ?_, ?_, ?_, ?_⟩ <;> first | with_reducible rfl | decide +kernel⟩⟩

abbrev busy32x (s : State) : State := { s with map := { s.map with reqs := [{ rq with line := 200, st := .busyWait }] } }
abbrev imp (s : State) : State := (s.wr F.CWK_SMAP_CTL_VALID 1 0 0 |>.wr F.CWK_SMAP_CTL_TYPE 1 0 0).wr F.CWK_SMAP_LIMIT_LIMIT 1 0 0
abbrev tw (s : State) (j : Job) : State := s.pageTouch 3 (j.master 1)
abbrev jp : Job := job 0x12 [3, 1]
abbrev aPro (s : State) : Bool × State := if ((tw s jp).pme 3).tier < 2 then (false, tw s jp) else (tw s jp).stepRouse ((tw s jp).runOf 3 ((tw s jp).pme 3)).mas ((tw s jp).galsDown ((tw s jp).runOf 3 ((tw s jp).pme 3)))
abbrev gone (s : State) : State := { s with map := { s.map with lost := [3] } }
abbrev nok (s : State) : State := s.wr F.KEY_SLOT_STATE_STATE 0 0 7
abbrev lof : State := pageIs { tier := 2, loc := 131072, bsz := 1, key := 7 } keyed
abbrev asleep (s : State) : State := (s.wr F.DRC_RANK_STATUS_STATE rankPARKED 0 0 |>.wr F.DRC_RANK_STATUS_STATE rankPARKED 1 0).wr F.DRC_RANK_STATUS_STATE rankPARKED 0 1 |>.wr F.DRC_RANK_STATUS_STATE rankPARKED 1 1
abbrev paus (s : State) : State := { s with str := { s.str with load := some ⟨.cc, [], [], 0, false, false⟩ } }
abbrev nofr : State := paus lof
abbrev jd : Job := job 0x10 [3, 1, 2]
abbrev aDem (s : State) : Bool × State := (s.mapTouch ⟨false, 3 / 4, false⟩ (jd.master 1)).stepRouse ((List.range 64).map (fun l => (s.pme 3).loc * 4096 + 64 * l)) []
abbrev hpo : State := pageIs { tier := 1, key := 7, poison := true } hallPage
abbrev owned : State := hallPage.setDir 200 0 ⟨lineTag 200, 3, 0, 2 ^ 80⟩
abbrev jr : Job := job 0x11 [3, 1, 0]
abbrev aRel (s : State) : Bool × State := (tw s jr).stepRouse ((tw s jr).runOf 3 ((tw s jr).pme 3)).mas []
abbrev gr (s : State) : Machine.Group := (s.rankGroup 0 false).getD ⟨0, 0, [], 0, false, 0⟩
abbrev al2 : Nat × State := ((aRel lof).2.allocRun (gr run2) ((tw lof jr).runOf 3 ((tw lof jr).pme 3)).total).getD (0, run0)
abbrev cp : Bool × State := al2.2.copyRun ((tw lof jr).runOf 3 ((tw lof jr).pme 3)).loc al2.1 ((tw lof jr).runOf 3 ((tw lof jr).pme 3)).total (jr.master 1)
abbrev wat : State := { run2 with map := { run2.map with watch := [(3, 4, true)] } }
abbrev jst (op : Nat) (st : PageStep) : Job := { job op [3, 1, 2] with page := some st }
abbrev st1 : PageStep := pstep { tier := 1 } none {}
abbrev hpin : State := pageIs { tier := 1, key := 7, pin := true } hallPage
abbrev st2 : PageStep := pstep { tier := 2 } none {}
abbrev st3 : PageStep := pstep { tier := 2, loc := 131072, bsz := 1, key := 7 } (some (131080, 8)) { tier := 2, loc := 131072, bsz := 1, key := 7 }
abbrev jms : Job := job 0x13 [3, 1, 1, 0, 9]
abbrev rks (n : Nat) (s : State) : State := (s.wr F.KEY_SLOT_STATE_STATE n 0 7).setKeySlot 7 { cur := ⟨1, 2, 3⟩ }
abbrev jk : Job := job 0x14 [7, 9]
abbrev cur3 (s : State) : State := s.wr F.KEY_SLOT_PCURSOR_PCURSOR 3 0 7
abbrev rkp : State := cur3 (rks 2 hallPage)
abbrev aRek (s : State) : Bool × State := (tw s jk).stepRouse [((tw s jk).pme 3).loc * 4096] []
abbrev jl : Job := job 0x15 [3, 1]
abbrev aRes (s : State) : Bool × State := if ((tw s jl).pme 3).tier = 0 then (false, tw s jl) else (tw s jl).stepRouse (if ((tw s jl).pme 3).tier = 1 then [((tw s jl).pme 3).loc * 4096] else ((tw s jl).runOf 3 ((tw s jl).pme 3)).mas) []
abbrev twi : State := (((pageIs { tier := 3, twin := true, loc := 0, bsz := 1 } lof).wr F.MAP_TWIN_CFG_CHUNKS 1).setTwin 0 { valid := true, loc := 2 ^ 30, bsz := 1, key := 7 }).setChunk 32768 { state := ckOPEN, bump := 64, live := 64, pool := 17 }
abbrev sl8 (s : State) : State := (s.wr F.KEY_REG_CFG_SLOT 8 0 5).wr F.KEY_SLOT_STATE_STATE 1 0 8

theorem wit_page_jobs_1 :
    (∃ (j : Job), j.pageAt j.pos = none) ∧
    (∃ (s : Machine.State) (p : ℕ) (j : Job), j.pageAt j.pos = some p ∧ s.pageHeld p = true ∧ s.imported p = false) ∧
    (∃ (s : Machine.State) (w : Machine.State) (g : ℕ) (p : ℕ) (j : Job) (a : Bool × Machine.State), j.pageAt j.pos = some p ∧
      s.pageHeld p = false ∧ w = s.pageTouch p (j.master g) ∧ (a = if (w.pme p).tier < 2 then (false, w) else w.stepRouse
      (w.runOf p (w.pme p)).mas (w.galsDown (w.runOf p (w.pme p)))) ∧ a.2.imported p = true) ∧
    (∃ (s : Machine.State) (w : Machine.State) (g : ℕ) (p : ℕ) (j : Job) (a : Bool × Machine.State), j.pageAt j.pos = some p ∧
      s.pageHeld p = false ∧ w = s.pageTouch p (j.master g) ∧ (a = if (w.pme p).tier < 2 then (false, w) else w.stepRouse
      (w.runOf p (w.pme p)).mas (w.galsDown (w.runOf p (w.pme p)))) ∧ a.2.imported p = false ∧ a.2.lost p = true) ∧
    (∃ (s : Machine.State) (w : Machine.State) (g : ℕ) (p : ℕ) (j : Job) (a : Bool × Machine.State), j.pageAt j.pos = some p ∧
      s.pageHeld p = false ∧ w = s.pageTouch p (j.master g) ∧ (a = if (w.pme p).tier < 2 then (false, w) else w.stepRouse
      (w.runOf p (w.pme p)).mas (w.galsDown (w.runOf p (w.pme p)))) ∧ a.2.imported p = false ∧ a.2.lost p = false ∧ (w.pme
      p).tier < 2) ∧
    (∃ (s : Machine.State) (w : Machine.State) (g : ℕ) (p : ℕ) (j : Job) (a : Bool × Machine.State), j.pageAt j.pos = some p ∧
      s.pageHeld p = false ∧ w = s.pageTouch p (j.master g) ∧ (a = if (w.pme p).tier < 2 then (false, w) else w.stepRouse
      (w.runOf p (w.pme p)).mas (w.galsDown (w.runOf p (w.pme p)))) ∧ a.2.imported p = false ∧ a.2.lost p = false ∧ 2 ≤ (w.pme
      p).tier ∧ a.2.keyUp (w.runOf p (w.pme p)).key = false) ∧
    (∃ (s : Machine.State) (w : Machine.State) (g : ℕ) (p : ℕ) (j : Job) (a : Bool × Machine.State), j.pageAt j.pos = some p ∧
      s.pageHeld p = false ∧ w = s.pageTouch p (j.master g) ∧ (a = if (w.pme p).tier < 2 then (false, w) else w.stepRouse
      (w.runOf p (w.pme p)).mas (w.galsDown (w.runOf p (w.pme p)))) ∧ a.2.imported p = false ∧ a.2.lost p = false ∧ 2 ≤ (w.pme
      p).tier ∧ a.2.keyUp (w.runOf p (w.pme p)).key = true ∧ a.1 = true) ∧
    (∃ (s : Machine.State) (w : Machine.State) (g : ℕ) (p : ℕ) (j : Job) (a : Bool × Machine.State), j.pageAt j.pos = some p ∧
      s.pageHeld p = false ∧ w = s.pageTouch p (j.master g) ∧ (a = if (w.pme p).tier < 2 then (false, w) else w.stepRouse
      (w.runOf p (w.pme p)).mas (w.galsDown (w.runOf p (w.pme p)))) ∧ a.2.imported p = false ∧ a.2.lost p = false ∧ 2 ≤ (w.pme
      p).tier ∧ a.2.keyUp (w.runOf p (w.pme p)).key = true ∧ a.1 = false ∧ (a.2.integ p = 0 ∨ (w.pme p).twin = true) ∧
      a.2.frameNow p = none) ∧
    (∃ (s : Machine.State) (w : Machine.State) (g : ℕ) (p : ℕ) (j : Job) (a : Bool × Machine.State) (f : ℕ) (u : Machine.State),
      j.pageAt j.pos = some p ∧ s.pageHeld p = false ∧ w = s.pageTouch p (j.master g) ∧ (a = if (w.pme p).tier < 2 then (false,
      w) else w.stepRouse (w.runOf p (w.pme p)).mas (w.galsDown (w.runOf p (w.pme p)))) ∧ a.2.imported p = false ∧ a.2.lost p =
      false ∧ 2 ≤ (w.pme p).tier ∧ a.2.keyUp (w.runOf p (w.pme p)).key = true ∧ a.1 = false ∧ (a.2.integ p = 0 ∨ (w.pme p).twin
      = true) ∧ (a.2.frameNow p = some (f, u))) ∧
    (∃ (s : Machine.State) (g : ℕ) (p : ℕ) (j : Job) (a : Bool × Machine.State), j.pageAt j.pos = some p ∧ s.pageHeld p = false
      ∧ j.page = none ∧ s.on F.GEN_STATUS_FATAL = false ∧ (a = (s.mapTouch { twin := false, m := p / 4, dirty := false }
      (j.master g)).stepRouse (List.map (fun l => (s.pme p).loc * 4096 + 64 * l) (List.range 64)) []) ∧ a.2.imported p = true) :=
  ⟨⟨job 0x10 [0, 0], by decide +kernel⟩,
   ⟨busy32x run2, 3, job 0x13 [3, 1], by decide +kernel⟩,
   ⟨imp run2, tw (imp run2) jp, 1, 3, jp, aPro (imp run2), by refine ⟨?_, ?_, ?_, ?_, ?_⟩ <;> first | with_reducible rfl | decide +kernel⟩,
   ⟨gone run2, tw (gone run2) jp, 1, 3, jp, aPro (gone run2), by refine ⟨?_, ?_, ?_, ?_, ?_, ?_⟩ <;> first | with_reducible rfl | decide +kernel⟩,
   ⟨run2, tw run2 jp, 1, 3, jp, aPro run2, by refine ⟨?_, ?_, ?_, ?_, ?_, ?_, ?_⟩ <;> first | with_reducible rfl | decide +kernel⟩,
   ⟨nok lof, tw (nok lof) jp, 1, 3, jp, aPro (nok lof), by refine ⟨?_, ?_, ?_, ?_, ?_, ?_, ?_, ?_⟩ <;> first | with_reducible rfl | decide +kernel⟩,
   ⟨asleep lof, tw (asleep lof) jp, 1, 3, jp, aPro (asleep lof), by refine ⟨?_, ?_, ?_, ?_, ?_, ?_, ?_, ?_, ?_⟩ <;> first | with_reducible rfl | decide +kernel⟩,
   ⟨nofr, tw nofr jp, 1, 3, jp, aPro nofr, by refine ⟨?_, ?_, ?_, ?_, ?_, ?_, ?_, ?_, ?_, ?_, ?_⟩ <;> first | with_reducible rfl | decide +kernel⟩,
   ⟨lof, tw lof jp, 1, 3, jp, aPro lof, (((aPro lof).2.frameNow 3).getD (0, run0)).1, (((aPro lof).2.frameNow 3).getD (0, run0)).2, by refine ⟨?_, ?_, ?_, ?_, ?_, ?_, ?_, ?_, ?_, ?_, ?_⟩ <;> first | with_reducible rfl | decide +kernel⟩,
   ⟨imp run2, 1, 3, jd, aDem (imp run2), by refine ⟨?_, ?_, ?_, ?_, ?_, ?_⟩ <;> first | with_reducible rfl | decide +kernel⟩⟩

theorem wit_page_jobs_2 :
    (∃ (s : Machine.State) (g : ℕ) (p : ℕ) (j : Job) (a : Bool × Machine.State), j.pageAt j.pos = some p ∧ s.pageHeld p = false
      ∧ j.page = none ∧ s.on F.GEN_STATUS_FATAL = false ∧ (a = (s.mapTouch { twin := false, m := p / 4, dirty := false }
      (j.master g)).stepRouse (List.map (fun l => (s.pme p).loc * 4096 + 64 * l) (List.range 64)) []) ∧ a.2.imported p = false ∧
      a.2.lost p = true) ∧
    (∃ (s : Machine.State) (g : ℕ) (p : ℕ) (j : Job) (a : Bool × Machine.State), j.pageAt j.pos = some p ∧ s.pageHeld p = false
      ∧ j.page = none ∧ s.on F.GEN_STATUS_FATAL = false ∧ (a = (s.mapTouch { twin := false, m := p / 4, dirty := false }
      (j.master g)).stepRouse (List.map (fun l => (s.pme p).loc * 4096 + 64 * l) (List.range 64)) []) ∧ a.2.imported p = false ∧
      a.2.lost p = false ∧ (s.pme p).tier ≠ 1) ∧
    (∃ (s : Machine.State) (g : ℕ) (p : ℕ) (j : Job) (a : Bool × Machine.State), j.pageAt j.pos = some p ∧ s.pageHeld p = false
      ∧ j.page = none ∧ s.on F.GEN_STATUS_FATAL = false ∧ (a = (s.mapTouch { twin := false, m := p / 4, dirty := false }
      (j.master g)).stepRouse (List.map (fun l => (s.pme p).loc * 4096 + 64 * l) (List.range 64)) []) ∧ a.2.imported p = false ∧
      a.2.lost p = false ∧ (s.pme p).tier = 1 ∧ (s.pme p).poison = true) ∧
    (∃ (s : Machine.State) (g : ℕ) (p : ℕ) (j : Job) (a : Bool × Machine.State), j.pageAt j.pos = some p ∧ s.pageHeld p = false
      ∧ j.page = none ∧ s.on F.GEN_STATUS_FATAL = false ∧ (a = (s.mapTouch { twin := false, m := p / 4, dirty := false }
      (j.master g)).stepRouse (List.map (fun l => (s.pme p).loc * 4096 + 64 * l) (List.range 64)) []) ∧ a.2.imported p = false ∧
      a.2.lost p = false ∧ (s.pme p).tier = 1 ∧ (s.pme p).poison = false ∧ ((a.2.map.dropped.any fun x => x / 64 == p) = false)
      ∧ (a.2.keyUp (s.pme p).key = false ∨ a.2.keyUp (a.2.regionSlot p) = false)) ∧
    (∃ (s : Machine.State) (g : ℕ) (p : ℕ) (j : Job) (a : Bool × Machine.State), j.pageAt j.pos = some p ∧ s.pageHeld p = false
      ∧ j.page = none ∧ s.on F.GEN_STATUS_FATAL = false ∧ (a = (s.mapTouch { twin := false, m := p / 4, dirty := false }
      (j.master g)).stepRouse (List.map (fun l => (s.pme p).loc * 4096 + 64 * l) (List.range 64)) []) ∧ a.2.imported p = false ∧
      a.2.lost p = false ∧ (s.pme p).tier = 1 ∧ (s.pme p).poison = false ∧ ((a.2.map.dropped.any fun x => x / 64 == p) = false)
      ∧ a.2.keyUp (s.pme p).key = true ∧ a.2.keyUp (a.2.regionSlot p) = true ∧ a.1 = true) ∧
    (∃ (s : Machine.State) (g : ℕ) (p : ℕ) (j : Job) (a : Bool × Machine.State), j.pageAt j.pos = some p ∧ s.pageHeld p = false
      ∧ j.page = none ∧ s.on F.GEN_STATUS_FATAL = false ∧ (a = (s.mapTouch { twin := false, m := p / 4, dirty := false }
      (j.master g)).stepRouse (List.map (fun l => (s.pme p).loc * 4096 + 64 * l) (List.range 64)) []) ∧ a.2.imported p = false ∧
      a.2.lost p = false ∧ (s.pme p).tier = 1 ∧ (s.pme p).poison = false ∧ ((a.2.map.dropped.any fun x => x / 64 == p) = false)
      ∧ a.2.keyUp (s.pme p).key = true ∧ a.2.keyUp (a.2.regionSlot p) = true ∧ a.1 = false ∧ (a.2.heldLines p ≠ [])) ∧
    (∃ (s : Machine.State) (g : ℕ) (p : ℕ) (j : Job) (a : Bool × Machine.State) (page : Bytes) (bad : Bool) (u : Machine.State),
      j.pageAt j.pos = some p ∧ s.pageHeld p = false ∧ j.page = none ∧ s.on F.GEN_STATUS_FATAL = false ∧ (a = (s.mapTouch
      { twin := false, m := p / 4, dirty := false } (j.master g)).stepRouse (List.map (fun l => (s.pme p).loc * 4096 + 64 * l)
      (List.range 64)) []) ∧ a.2.imported p = false ∧ a.2.lost p = false ∧ (s.pme p).tier = 1 ∧ (s.pme p).poison = false ∧
      ((a.2.map.dropped.any fun x => x / 64 == p) = false) ∧ a.2.keyUp (s.pme p).key = true ∧ a.2.keyUp (a.2.regionSlot p) =
      true ∧ a.1 = false ∧ (a.2.heldLines p = []) ∧ (a.2.readPage p (j.master g) = ((page, bad), u))) ∧
    (∃ (s : Machine.State) (p : ℕ) (page : Bytes), s.conceal p = false ∧ allZero page = true) ∧
    (∃ (s : Machine.State) (w : Machine.State) (g : ℕ) (p : ℕ) (j : Job), j.pageAt j.pos = some p ∧ s.pageHeld p = false ∧
      j.page = none ∧ s.on F.GEN_STATUS_FATAL = false ∧ w = s.pageTouch p (j.master g) ∧ w.imported p = true) ∧
    (∃ (s : Machine.State) (w : Machine.State) (g : ℕ) (p : ℕ) (j : Job), j.pageAt j.pos = some p ∧ s.pageHeld p = false ∧
      j.page = none ∧ s.on F.GEN_STATUS_FATAL = false ∧ w = s.pageTouch p (j.master g) ∧ w.imported p = false ∧ w.lost p = true) ∧
    (∃ (s : Machine.State) (w : Machine.State) (g : ℕ) (p : ℕ) (j : Job), j.pageAt j.pos = some p ∧ s.pageHeld p = false ∧
      j.page = none ∧ s.on F.GEN_STATUS_FATAL = false ∧ w = s.pageTouch p (j.master g) ∧ w.imported p = false ∧ w.lost p = false
      ∧ (w.pme p).tier < 2) :=
  ⟨⟨gone run2, 1, 3, jd, aDem (gone run2), by refine ⟨?_, ?_, ?_, ?_, ?_, ?_, ?_⟩ <;> first | with_reducible rfl | decide +kernel⟩,
   ⟨run2, 1, 3, jd, aDem run2, by refine ⟨?_, ?_, ?_, ?_, ?_, ?_, ?_, ?_⟩ <;> first | with_reducible rfl | decide +kernel⟩,
   ⟨hpo, 1, 3, jd, aDem hpo, by refine ⟨?_, ?_, ?_, ?_, ?_, ?_, ?_, ?_, ?_⟩ <;> first | with_reducible rfl | decide +kernel⟩,
   ⟨nok hallPage, 1, 3, jd, aDem (nok hallPage), by refine ⟨?_, ?_, ?_, ?_, ?_, ?_, ?_, ?_, ?_, ?_, ?_⟩ <;> first | with_reducible rfl | decide +kernel⟩,
   ⟨asleep hallPage, 1, 3, jd, aDem (asleep hallPage), by refine ⟨?_, ?_, ?_, ?_, ?_, ?_, ?_, ?_, ?_, ?_, ?_, ?_, ?_⟩ <;> first | with_reducible rfl | decide +kernel⟩,
   ⟨owned, 1, 3, jd, aDem owned, by refine ⟨?_, ?_, ?_, ?_, ?_, ?_, ?_, ?_, ?_, ?_, ?_, ?_, ?_, ?_⟩ <;> first | with_reducible rfl | decide +kernel⟩,
   ⟨hallPage, 1, 3, jd, aDem hallPage, _, _, _, by first | with_reducible rfl | decide +kernel, by first | with_reducible rfl | decide +kernel, by first | with_reducible rfl | decide +kernel, by first | with_reducible rfl | decide +kernel, by first | with_reducible rfl | decide +kernel, by first | with_reducible rfl | decide +kernel, by first | with_reducible rfl | decide +kernel, by first | with_reducible rfl | decide +kernel, by first | with_reducible rfl | decide +kernel, by first | with_reducible rfl | decide +kernel, by first | with_reducible rfl | decide +kernel, by first | with_reducible rfl | decide +kernel, by first | with_reducible rfl | decide +kernel, by first | with_reducible rfl | decide +kernel, triple _⟩,
   ⟨run2, 3, List.replicate 4096 0, by decide +kernel⟩,
   ⟨imp run2, tw (imp run2) jr, 1, 3, jr, by refine ⟨?_, ?_, ?_, ?_, ?_, ?_⟩ <;> first | with_reducible rfl | decide +kernel⟩,
   ⟨gone run2, tw (gone run2) jr, 1, 3, jr, by refine ⟨?_, ?_, ?_, ?_, ?_, ?_, ?_⟩ <;> first | with_reducible rfl | decide +kernel⟩,
   ⟨run2, tw run2 jr, 1, 3, jr, by refine ⟨?_, ?_, ?_, ?_, ?_, ?_, ?_, ?_⟩ <;> first | with_reducible rfl | decide +kernel⟩⟩

theorem wit_page_jobs_3 :
    (∃ (s : Machine.State) (w : Machine.State) (g : ℕ) (p : ℕ) (j : Job) (a : Bool × Machine.State) (grp : Machine.Group),
      j.pageAt j.pos = some p ∧ s.pageHeld p = false ∧ j.page = none ∧ s.on F.GEN_STATUS_FATAL = false ∧ w = s.pageTouch p
      (j.master g) ∧ w.imported p = false ∧ w.lost p = false ∧ 2 ≤ (w.pme p).tier ∧ (w.rankGroup (bits (j.arg 2) 12 8) ((w.pme
      p).tier == 3) = some grp) ∧ (a = w.stepRouse (w.runOf p (w.pme p)).mas []) ∧ a.1 = true) ∧
    (∃ (s : Machine.State) (w : Machine.State) (g : ℕ) (p : ℕ) (j : Job) (a : Bool × Machine.State) (grp : Machine.Group),
      j.pageAt j.pos = some p ∧ s.pageHeld p = false ∧ j.page = none ∧ s.on F.GEN_STATUS_FATAL = false ∧ w = s.pageTouch p
      (j.master g) ∧ w.imported p = false ∧ w.lost p = false ∧ 2 ≤ (w.pme p).tier ∧ (w.rankGroup (bits (j.arg 2) 12 8) ((w.pme
      p).tier == 3) = some grp) ∧ (a = w.stepRouse (w.runOf p (w.pme p)).mas []) ∧ a.1 = false ∧ (a.2.integ p = 0 ∨ (w.pme
      p).twin = true) ∧ a.2.allocRun grp (w.runOf p (w.pme p)).total = none) ∧
    (∃ (s : Machine.State) (w : Machine.State) (g : ℕ) (p : ℕ) (j : Job) (a : Bool × Machine.State) (grp : Machine.Group) (loc :
      ℕ) (u : Machine.State) (bad : Bool) (v : Machine.State), j.pageAt j.pos = some p ∧ s.pageHeld p = false ∧ j.page = none ∧
      s.on F.GEN_STATUS_FATAL = false ∧ w = s.pageTouch p (j.master g) ∧ w.imported p = false ∧ w.lost p = false ∧ 2 ≤ (w.pme
      p).tier ∧ (w.rankGroup (bits (j.arg 2) 12 8) ((w.pme p).tier == 3) = some grp) ∧ (a = w.stepRouse (w.runOf p (w.pme
      p)).mas []) ∧ a.1 = false ∧ (a.2.integ p = 0 ∨ (w.pme p).twin = true) ∧ (a.2.allocRun grp (w.runOf p (w.pme p)).total =
      some (loc, u)) ∧ (u.copyRun (w.runOf p (w.pme p)).loc loc (w.runOf p (w.pme p)).total (j.master g) = (bad, v))) ∧
    (∃ (s : Machine.State) (g : ℕ) (j : Job) (st : PageStep), j.page = some st ∧ s.stepHeld g j st.page = false ∧
      ((s.map.watch.any fun x => x.1 == st.page && x.2.1 == j.seq && x.2.2) = true)) ∧
    (∃ (s : Machine.State) (g : ℕ) (j : Job) (st : PageStep), j.page = some st ∧ s.stepHeld g j st.page = false ∧
      ((s.map.watch.any fun x => x.1 == st.page && x.2.1 == j.seq && x.2.2) = false) ∧ s.lost st.page = false ∧ (s.pme
      st.page).tier = 1 ∧ (s.pme st.page).loc = st.was.loc ∧ ((s.pme st.page).pin = true ∨ s.ringPage st.page = true)) ∧
    (∃ (s : Machine.State) (g : ℕ) (j : Job) (st : PageStep), j.page = some st ∧ s.stepHeld g j st.page = false ∧
      ((s.map.watch.any fun x => x.1 == st.page && x.2.1 == j.seq && x.2.2) = false) ∧ s.lost st.page = false ∧ (s.pme
      st.page).tier = 1 ∧ (s.pme st.page).loc = st.was.loc ∧ (s.pme st.page).pin = false ∧ s.ringPage st.page = false ∧ (st.run
      = none ∨ s.integ st.page = 0)) ∧
    (∃ (s : Machine.State) (j : Job) (st : PageStep), j.page = some st ∧ s.pageHeld st.page = false ∧ (s.pme st.page).tier ≠
      st.was.tier) ∧
    (∃ (s : Machine.State) (j : Job) (st : PageStep) (l : ℕ) (n : ℕ), j.page = some st ∧ s.pageHeld st.page = false ∧ (st.run =
      some (l, n)) ∧ (s.pme st.page).tier = st.was.tier ∧ (s.pme st.page).twin = false ∧ st.was.twin = false ∧ (s.pme
      st.page).loc = st.was.loc) ∧
    (∃ (s : Machine.State) (p : ℕ) (j : Job), j.pageAt j.pos = some p ∧ s.imported p = true) ∧
    (∃ (s : Machine.State) (w : Machine.State) (g : ℕ) (p : ℕ) (j : Job), j.pageAt j.pos = some p ∧ s.imported p = false ∧
      s.pageHeld p = false ∧ w = s.pageTouch p (j.master g) ∧ w.lost p = false) ∧
    (∃ (s : Machine.State) (j : Job) (n : ℕ), j.arg 0 = n ∧ j.pos < j.arg 1 ∧ s.on F.GEN_STATUS_FATAL = false ∧ (s.keySlot
      n).erasing = false ∧ s.rd F.KEY_SLOT_STATE_STATE 0 n = 0 ∧ s.lostPage j n = none) :=
  ⟨⟨asleep lof, tw (asleep lof) jr, 1, 3, jr, aRel (asleep lof), gr run2, by refine ⟨?_, ?_, ?_, ?_, ?_, ?_, ?_, ?_, ?_, ?_, ?_⟩ <;> first | with_reducible rfl | decide +kernel⟩,
   ⟨paus lof, tw (paus lof) jr, 1, 3, jr, aRel (paus lof), gr run2, by refine ⟨?_, ?_, ?_, ?_, ?_, ?_, ?_, ?_, ?_, ?_, ?_, ?_, ?_⟩ <;> first | with_reducible rfl | decide +kernel⟩,
   ⟨lof, tw lof jr, 1, 3, jr, aRel lof, gr run2, al2.1, al2.2, cp.1, cp.2, by refine ⟨?_, ?_, ?_, ?_, ?_, ?_, ?_, ?_, ?_, ?_, ?_, ?_, ?_, ?_⟩ <;> first | with_reducible rfl | decide +kernel⟩,
   ⟨wat, 1, jst 0x10 st1, st1, by decide +kernel⟩,
   ⟨hpin, 1, jst 0x10 st1, st1, by decide +kernel⟩,
   ⟨hallPage, 1, jst 0x10 st1, st1, by decide +kernel⟩,
   ⟨hallPage, jst 0x11 st2, st2, by decide +kernel⟩,
   ⟨lof, jst 0x11 st3, st3, 131080, 8, by decide +kernel⟩,
   ⟨imp run2, 3, jms, by decide +kernel⟩,
   ⟨run2, tw run2 jms, 1, 3, jms, by refine ⟨?_, ?_, ?_, ?_, ?_⟩ <;> first | with_reducible rfl | decide +kernel⟩,
   ⟨rks 0 run2, jk, 7, by decide +kernel⟩⟩

theorem wit_page_jobs_4 :
    (∃ (s : Machine.State) (j : Job) (n : ℕ) (q : ℕ), j.arg 0 = n ∧ j.pos < j.arg 1 ∧ s.on F.GEN_STATUS_FATAL = false ∧
      (s.keySlot n).erasing = false ∧ s.rd F.KEY_SLOT_STATE_STATE 0 n = 0 ∧ s.lostPage j n = some q) ∧
    (∃ (s : Machine.State) (w : Machine.State) (g : ℕ) (p : ℕ) (j : Job) (n : ℕ), j.arg 0 = n ∧ j.pos < j.arg 1 ∧ s.on
      F.GEN_STATUS_FATAL = false ∧ (s.keySlot n).erasing = false ∧ s.rd F.KEY_SLOT_STATE_STATE 0 n = 2 ∧ s.rd
      F.KEY_SLOT_PCURSOR_PCURSOR 0 n = p ∧ p < s.secs.pages ∧ s.stepHeld g j p = false ∧ w = s.pageTouch p (j.master g) ∧
      (w.lost p = true ∨ (w.pme p).tier = 0 ∨ (w.pme p).twin = true ∨ (w.pme p).key ≠ n)) ∧
    (∃ (s : Machine.State) (w : Machine.State) (g : ℕ) (p : ℕ) (j : Job) (a : Bool × Machine.State) (n : ℕ), j.arg 0 = n ∧ j.pos
      < j.arg 1 ∧ s.on F.GEN_STATUS_FATAL = false ∧ (s.keySlot n).erasing = false ∧ s.rd F.KEY_SLOT_STATE_STATE 0 n = 2 ∧ s.rd
      F.KEY_SLOT_PCURSOR_PCURSOR 0 n = p ∧ p < s.secs.pages ∧ s.stepHeld g j p = false ∧ w = s.pageTouch p (j.master g) ∧ w.lost
      p = false ∧ (w.pme p).tier = 1 ∧ (w.pme p).twin = false ∧ (w.pme p).key = n ∧ (a = w.stepRouse [(w.pme p).loc * 4096] [])
      ∧ a.1 = true) ∧
    (∃ (s : Machine.State) (w : Machine.State) (g : ℕ) (p : ℕ) (j : Job) (a : Bool × Machine.State) (n : ℕ) (ls : List (Bytes ×
      Bool)) (u : Machine.State), j.arg 0 = n ∧ j.pos < j.arg 1 ∧ s.on F.GEN_STATUS_FATAL = false ∧ (s.keySlot n).erasing =
      false ∧ s.rd F.KEY_SLOT_STATE_STATE 0 n = 2 ∧ s.rd F.KEY_SLOT_PCURSOR_PCURSOR 0 n = p ∧ p < s.secs.pages ∧ s.stepHeld g j
      p = false ∧ w = s.pageTouch p (j.master g) ∧ w.lost p = false ∧ (w.pme p).tier = 1 ∧ (w.pme p).twin = false ∧ (w.pme
      p).key = n ∧ (a = w.stepRouse [(w.pme p).loc * 4096] []) ∧ a.1 = false ∧ j.wrote = none ∧ (a.2.pme p).tier = 1 ∧
      (a.2.hallLines p (j.master g) = (ls, u))) ∧
    (∃ (s : Machine.State) (w : Machine.State) (g : ℕ) (p : ℕ) (j : Job) (a : Bool × Machine.State), j.pageAt j.pos = some p ∧
      s.stepHeld g j p = false ∧ s.on F.GEN_STATUS_FATAL = false ∧ w = s.pageTouch p (j.master g) ∧ (a = if (w.pme p).tier = 0
      then (false, w) else w.stepRouse (if (w.pme p).tier = 1 then [(w.pme p).loc * 4096] else (w.runOf p (w.pme p)).mas) []) ∧
      a.2.imported p = true) ∧
    (∃ (s : Machine.State) (w : Machine.State) (g : ℕ) (p : ℕ) (j : Job) (a : Bool × Machine.State), j.pageAt j.pos = some p ∧
      s.stepHeld g j p = false ∧ s.on F.GEN_STATUS_FATAL = false ∧ w = s.pageTouch p (j.master g) ∧ (a = if (w.pme p).tier = 0
      then (false, w) else w.stepRouse (if (w.pme p).tier = 1 then [(w.pme p).loc * 4096] else (w.runOf p (w.pme p)).mas) []) ∧
      a.2.imported p = false ∧ a.2.lost p = true) ∧
    (∃ (s : Machine.State) (w : Machine.State) (g : ℕ) (p : ℕ) (j : Job) (a : Bool × Machine.State), j.pageAt j.pos = some p ∧
      s.stepHeld g j p = false ∧ s.on F.GEN_STATUS_FATAL = false ∧ w = s.pageTouch p (j.master g) ∧ (a = if (w.pme p).tier = 0
      then (false, w) else w.stepRouse (if (w.pme p).tier = 1 then [(w.pme p).loc * 4096] else (w.runOf p (w.pme p)).mas) []) ∧
      a.2.imported p = false ∧ a.2.lost p = false ∧ (w.pme p).twin = true) ∧
    (∃ (s : Machine.State) (w : Machine.State) (g : ℕ) (p : ℕ) (j : Job) (a : Bool × Machine.State), j.pageAt j.pos = some p ∧
      s.stepHeld g j p = false ∧ s.on F.GEN_STATUS_FATAL = false ∧ w = s.pageTouch p (j.master g) ∧ (a = if (w.pme p).tier = 0
      then (false, w) else w.stepRouse (if (w.pme p).tier = 1 then [(w.pme p).loc * 4096] else (w.runOf p (w.pme p)).mas) []) ∧
      a.2.imported p = false ∧ a.2.lost p = false ∧ (w.pme p).twin = false ∧ ((w.pme p).tier = 0 ∨ (w.pme p).key = w.regionSlot
      p)) ∧
    (∃ (s : Machine.State) (w : Machine.State) (g : ℕ) (p : ℕ) (j : Job) (a : Bool × Machine.State), j.pageAt j.pos = some p ∧
      s.stepHeld g j p = false ∧ s.on F.GEN_STATUS_FATAL = false ∧ w = s.pageTouch p (j.master g) ∧ (a = if (w.pme p).tier = 0
      then (false, w) else w.stepRouse (if (w.pme p).tier = 1 then [(w.pme p).loc * 4096] else (w.runOf p (w.pme p)).mas) []) ∧
      a.2.imported p = false ∧ a.2.lost p = false ∧ (w.pme p).twin = false ∧ (w.pme p).tier = 1 ∧ (w.pme p).key ≠ w.regionSlot p
      ∧ (a.2.keyUp (w.pme p).key = false ∨ a.2.keyUp (w.regionSlot p) = false)) ∧
    (∃ (s : Machine.State) (w : Machine.State) (g : ℕ) (p : ℕ) (j : Job) (a : Bool × Machine.State), j.pageAt j.pos = some p ∧
      s.stepHeld g j p = false ∧ s.on F.GEN_STATUS_FATAL = false ∧ w = s.pageTouch p (j.master g) ∧ (a = if (w.pme p).tier = 0
      then (false, w) else w.stepRouse (if (w.pme p).tier = 1 then [(w.pme p).loc * 4096] else (w.runOf p (w.pme p)).mas) []) ∧
      a.2.imported p = false ∧ a.2.lost p = false ∧ (w.pme p).twin = false ∧ (w.pme p).tier = 1 ∧ (w.pme p).key ≠ w.regionSlot p
      ∧ a.2.keyUp (w.pme p).key = true ∧ a.2.keyUp (w.regionSlot p) = true ∧ a.1 = true) ∧
    (∃ (s : Machine.State) (w : Machine.State) (g : ℕ) (p : ℕ) (j : Job) (a : Bool × Machine.State) (ls : List (Bytes × Bool))
      (u : Machine.State), j.pageAt j.pos = some p ∧ s.stepHeld g j p = false ∧ s.on F.GEN_STATUS_FATAL = false ∧ w =
      s.pageTouch p (j.master g) ∧ (a = if (w.pme p).tier = 0 then (false, w) else w.stepRouse (if (w.pme p).tier = 1 then
      [(w.pme p).loc * 4096] else (w.runOf p (w.pme p)).mas) []) ∧ a.2.imported p = false ∧ a.2.lost p = false ∧ (w.pme p).twin
      = false ∧ (w.pme p).tier = 1 ∧ (w.pme p).key ≠ w.regionSlot p ∧ a.2.keyUp (w.pme p).key = true ∧ a.2.keyUp (w.regionSlot
      p) = true ∧ a.1 = false ∧ j.wrote = none ∧ (a.2.pme p).tier = 1 ∧ (a.2.hallLines p (j.master g) = (ls, u))) :=
  ⟨⟨rks 0 hallPage, jk, 7, 3, by decide +kernel⟩,
   ⟨rks 2 run2, (rks 2 run2).pageTouch 0 (jk.master 1), 1, 0, jk, 7, by refine ⟨?_, ?_, ?_, ?_, ?_, ?_, ?_, ?_, ?_, ?_⟩ <;> first | with_reducible rfl | decide +kernel⟩,
   ⟨asleep rkp, tw (asleep rkp) jk, 1, 3, jk, aRek (asleep rkp), 7, by refine ⟨?_, ?_, ?_, ?_, ?_, ?_, ?_, ?_, ?_, ?_, ?_, ?_, ?_, ?_, ?_⟩ <;> first | with_reducible rfl | decide +kernel⟩,
   ⟨rkp, tw rkp jk, 1, 3, jk, aRek rkp, 7, _, _, by first | with_reducible rfl | decide +kernel, by first | with_reducible rfl | decide +kernel, by first | with_reducible rfl | decide +kernel, by first | with_reducible rfl | decide +kernel, by first | with_reducible rfl | decide +kernel, by first | with_reducible rfl | decide +kernel, by first | with_reducible rfl | decide +kernel, by first | with_reducible rfl | decide +kernel, by first | with_reducible rfl | decide +kernel, by first | with_reducible rfl | decide +kernel, by first | with_reducible rfl | decide +kernel, by first | with_reducible rfl | decide +kernel, by first | with_reducible rfl | decide +kernel, by first | with_reducible rfl | decide +kernel, by first | with_reducible rfl | decide +kernel, by first | with_reducible rfl | decide +kernel, by first | with_reducible rfl | decide +kernel, (Prod.eta _).symm⟩,
   ⟨imp run2, tw (imp run2) jl, 1, 3, jl, aRes (imp run2), by refine ⟨?_, ?_, ?_, ?_, ?_, ?_⟩ <;> first | with_reducible rfl | decide +kernel⟩,
   ⟨gone run2, tw (gone run2) jl, 1, 3, jl, aRes (gone run2), by refine ⟨?_, ?_, ?_, ?_, ?_, ?_, ?_⟩ <;> first | with_reducible rfl | decide +kernel⟩,
   ⟨twi, tw twi jl, 1, 3, jl, aRes twi, by refine ⟨?_, ?_, ?_, ?_, ?_, ?_, ?_, ?_⟩ <;> first | with_reducible rfl | decide +kernel⟩,
   ⟨run2, tw run2 jl, 1, 3, jl, aRes run2, by refine ⟨?_, ?_, ?_, ?_, ?_, ?_, ?_, ?_, ?_⟩ <;> first | with_reducible rfl | decide +kernel⟩,
   ⟨nok (sl8 hallPage), tw (nok (sl8 hallPage)) jl, 1, 3, jl, aRes (nok (sl8 hallPage)), by refine ⟨?_, ?_, ?_, ?_, ?_, ?_, ?_, ?_, ?_, ?_, ?_⟩ <;> first | with_reducible rfl | decide +kernel⟩,
   ⟨asleep (sl8 hallPage), tw (asleep (sl8 hallPage)) jl, 1, 3, jl, aRes (asleep (sl8 hallPage)), by refine ⟨?_, ?_, ?_, ?_, ?_, ?_, ?_, ?_, ?_, ?_, ?_, ?_, ?_⟩ <;> first | with_reducible rfl | decide +kernel⟩,
   ⟨sl8 hallPage, tw (sl8 hallPage) jl, 1, 3, jl, aRes (sl8 hallPage), _, _, by first | with_reducible rfl | decide +kernel, by first | with_reducible rfl | decide +kernel, by first | with_reducible rfl | decide +kernel, by first | with_reducible rfl | decide +kernel, by first | with_reducible rfl | decide +kernel, by first | with_reducible rfl | decide +kernel, by first | with_reducible rfl | decide +kernel, by first | with_reducible rfl | decide +kernel, by first | with_reducible rfl | decide +kernel, by first | with_reducible rfl | decide +kernel, by first | with_reducible rfl | decide +kernel, by first | with_reducible rfl | decide +kernel, by first | with_reducible rfl | decide +kernel, by first | with_reducible rfl | decide +kernel, by first | with_reducible rfl | decide +kernel, (Prod.eta _).symm⟩⟩

theorem wit_job_queues_1 :
    (∃ (who : Initiator) (g : Fin 16) (k : Fin 8) (v : BitVec 64) (s : Machine.State) (w : Machine.State) (off : ℕ) (x : ℕ), off
      = F.GAL_JQ_CFG_EN.addr ↑g ↑k ∧ (Permitted s who off true) ∧ (w = ((s.dropHalves who off).wr F.GAL_JQ_CFG_WEIGHT (max 1
      (F.GAL_JQ_CFG_WEIGHT.of x)) ↑g ↑k).writeWord who off x fun f => f != F.GAL_JQ_CFG_EN && f != F.GAL_JQ_CFG_WEIGHT) ∧ x =
      setBit v.toNat 63 true ∧ s.rd F.GAL_JQ_CFG_EN ↑g ↑k = 0 ∧ w.bindOk (↑g) (F.GAL_JQ_CFG_DQ.of x) (F.GAL_JQ_CFG_CQ.of x)
      (F.GAL_JQ_CFG_OWNER.of x) = true) ∧
    (∃ (who : Initiator) (g : Fin 16) (k : Fin 8) (v : BitVec 64) (s : Machine.State) (w : Machine.State) (off : ℕ) (x : ℕ), off
      = F.GAL_JQ_CFG_EN.addr ↑g ↑k ∧ (Permitted s who off true) ∧ (w = ((s.dropHalves who off).wr F.GAL_JQ_CFG_WEIGHT (max 1
      (F.GAL_JQ_CFG_WEIGHT.of x)) ↑g ↑k).writeWord who off x fun f => f != F.GAL_JQ_CFG_EN && f != F.GAL_JQ_CFG_WEIGHT) ∧ x =
      setBit v.toNat 63 true ∧ s.rd F.GAL_JQ_CFG_EN ↑g ↑k = 0 ∧ w.bindOk (↑g) (F.GAL_JQ_CFG_DQ.of x) (F.GAL_JQ_CFG_CQ.of x)
      (F.GAL_JQ_CFG_OWNER.of x) = false) ∧
    (∃ (who : Initiator) (g : Fin 16) (k : Fin 8) (v : BitVec 64) (s : Machine.State) (w : Machine.State) (off : ℕ) (x : ℕ), off
      = F.GAL_JQ_CFG_EN.addr ↑g ↑k ∧ (Permitted s who off true) ∧ (w = ((s.dropHalves who off).wr F.GAL_JQ_CFG_WEIGHT (max 1
      (F.GAL_JQ_CFG_WEIGHT.of x)) ↑g ↑k).writeWord who off x fun f => f != F.GAL_JQ_CFG_EN && f != F.GAL_JQ_CFG_WEIGHT) ∧ x =
      setBit v.toNat 63 true ∧ s.on F.GAL_JQ_CFG_EN ↑g ↑k = true) ∧
    (∃ (who : Initiator) (g : Fin 16) (k : Fin 8) (v : BitVec 64) (s : Machine.State) (w : Machine.State) (off : ℕ) (x : ℕ), off
      = F.GAL_JQ_CFG_EN.addr ↑g ↑k ∧ (Permitted s who off true) ∧ (w = ((s.dropHalves who off).wr F.GAL_JQ_CFG_WEIGHT (max 1
      (F.GAL_JQ_CFG_WEIGHT.of x)) ↑g ↑k).writeWord who off x fun f => f != F.GAL_JQ_CFG_EN && f != F.GAL_JQ_CFG_WEIGHT) ∧ x =
      setBit v.toNat 63 false ∧ s.rd F.GAL_JQ_CFG_EN ↑g ↑k = 0) ∧
    (∃ (who : Initiator) (g : Fin 16) (k : Fin 8) (v : BitVec 64) (s : Machine.State) (w : Machine.State) (off : ℕ) (x : ℕ), off
      = F.GAL_JQ_CFG_EN.addr ↑g ↑k ∧ (Permitted s who off true) ∧ (w = ((s.dropHalves who off).wr F.GAL_JQ_CFG_WEIGHT (max 1
      (F.GAL_JQ_CFG_WEIGHT.of x)) ↑g ↑k).writeWord who off x fun f => f != F.GAL_JQ_CFG_EN && f != F.GAL_JQ_CFG_WEIGHT) ∧ x =
      setBit v.toNat 63 false ∧ s.on F.GAL_JQ_CFG_EN ↑g ↑k = true ∧ (s.gal ↑g).part = none ∧ (((s.gal ↑g).jobs.any fun x => x.jq
      == ↑k) = false)) ∧
    (∃ (who : Initiator) (g : Fin 16) (k : Fin 8) (v : BitVec 64) (s : Machine.State) (w : Machine.State) (off : ℕ) (x : ℕ), off
      = F.GAL_JQ_CFG_EN.addr ↑g ↑k ∧ (Permitted s who off true) ∧ (w = ((s.dropHalves who off).wr F.GAL_JQ_CFG_WEIGHT (max 1
      (F.GAL_JQ_CFG_WEIGHT.of x)) ↑g ↑k).writeWord who off x fun f => f != F.GAL_JQ_CFG_EN && f != F.GAL_JQ_CFG_WEIGHT) ∧ x =
      setBit v.toNat 63 false ∧ s.on F.GAL_JQ_CFG_EN ↑g ↑k = true ∧ (s.gal ↑g).part = none ∧ (((s.gal ↑g).jobs.any fun x => x.jq
      == ↑k) = true)) ∧
    (∃ (who : Initiator) (g : Fin 16) (s : Machine.State) (off : ℕ), off = F.GAL_CTL_FLUSH.addr (↑g) 0 ∧ (Permitted s who off
      true)) ∧
    (∃ (g : Fin 16) (s : Machine.State), s.stage = Stage.running ∧ (s.rd F.NOC_DOM_STATUS_STATE 0 (16 + ↑g) ≠ domON ∨ s.on
      F.GEN_STATUS_FATAL = true ∨ 16 ≤ (s.gal ↑g).jobs.length ∨ (s.gal ↑g).part = none ∧ s.turnOf ↑g = none)) :=
  ⟨⟨.cc, 1, 2, 0x800000000A0009, galQ, ((galQ.dropHalves .cc (F.GAL_JQ_CFG_EN.addr 1 2)).wr F.GAL_JQ_CFG_WEIGHT (max 1 (F.GAL_JQ_CFG_WEIGHT.of (setBit (0x800000000A0009) 63 true))) 1 2).writeWord .cc (F.GAL_JQ_CFG_EN.addr 1 2) (setBit (0x800000000A0009) 63 true) fun f => f != F.GAL_JQ_CFG_EN && f != F.GAL_JQ_CFG_WEIGHT, F.GAL_JQ_CFG_EN.addr 1 2, setBit (0x800000000A0009) 63 true, by refine ⟨?_, ?_, ?_, ?_, ?_, ?_⟩ <;> first | with_reducible rfl | decide +kernel | (unfold Permitted; decide +kernel)⟩,
   ⟨.cc, 1, 2, 0, galQ, ((galQ.dropHalves .cc (F.GAL_JQ_CFG_EN.addr 1 2)).wr F.GAL_JQ_CFG_WEIGHT (max 1 (F.GAL_JQ_CFG_WEIGHT.of (setBit 0 63 true))) 1 2).writeWord .cc (F.GAL_JQ_CFG_EN.addr 1 2) (setBit 0 63 true) fun f => f != F.GAL_JQ_CFG_EN && f != F.GAL_JQ_CFG_WEIGHT, F.GAL_JQ_CFG_EN.addr 1 2, setBit 0 63 true, by refine ⟨?_, ?_, ?_, ?_, ?_, ?_⟩ <;> first | with_reducible rfl | decide +kernel | (unfold Permitted; decide +kernel)⟩,
   ⟨.cc, 1, 2, 0, galB, ((galB.dropHalves .cc (F.GAL_JQ_CFG_EN.addr 1 2)).wr F.GAL_JQ_CFG_WEIGHT (max 1 (F.GAL_JQ_CFG_WEIGHT.of (setBit 0 63 true))) 1 2).writeWord .cc (F.GAL_JQ_CFG_EN.addr 1 2) (setBit 0 63 true) fun f => f != F.GAL_JQ_CFG_EN && f != F.GAL_JQ_CFG_WEIGHT, F.GAL_JQ_CFG_EN.addr 1 2, setBit 0 63 true, by refine ⟨?_, ?_, ?_, ?_, ?_⟩ <;> first | with_reducible rfl | decide +kernel | (unfold Permitted; decide +kernel)⟩,
   ⟨.cc, 1, 2, 0, galQ, ((galQ.dropHalves .cc (F.GAL_JQ_CFG_EN.addr 1 2)).wr F.GAL_JQ_CFG_WEIGHT (max 1 (F.GAL_JQ_CFG_WEIGHT.of (setBit 0 63 false))) 1 2).writeWord .cc (F.GAL_JQ_CFG_EN.addr 1 2) (setBit 0 63 false) fun f => f != F.GAL_JQ_CFG_EN && f != F.GAL_JQ_CFG_WEIGHT, F.GAL_JQ_CFG_EN.addr 1 2, setBit 0 63 false, by refine ⟨?_, ?_, ?_, ?_, ?_⟩ <;> first | with_reducible rfl | decide +kernel | (unfold Permitted; decide +kernel)⟩,
   ⟨.cc, 1, 2, 0, galB, ((galB.dropHalves .cc (F.GAL_JQ_CFG_EN.addr 1 2)).wr F.GAL_JQ_CFG_WEIGHT (max 1 (F.GAL_JQ_CFG_WEIGHT.of (setBit 0 63 false))) 1 2).writeWord .cc (F.GAL_JQ_CFG_EN.addr 1 2) (setBit 0 63 false) fun f => f != F.GAL_JQ_CFG_EN && f != F.GAL_JQ_CFG_WEIGHT, F.GAL_JQ_CFG_EN.addr 1 2, setBit 0 63 false, by refine ⟨?_, ?_, ?_, ?_, ?_, ?_, ?_⟩ <;> first | with_reducible rfl | decide +kernel | (unfold Permitted; decide +kernel)⟩,
   ⟨.cc, 1, 0, 0, galJob (job 1 []) (galB.wr F.GAL_JQ_CFG_EN 1 1 0), (((galJob (job 1 []) (galB.wr F.GAL_JQ_CFG_EN 1 1 0)).dropHalves .cc (F.GAL_JQ_CFG_EN.addr 1 0)).wr F.GAL_JQ_CFG_WEIGHT (max 1 (F.GAL_JQ_CFG_WEIGHT.of (setBit 0 63 false))) 1 0).writeWord .cc (F.GAL_JQ_CFG_EN.addr 1 0) (setBit 0 63 false) fun f => f != F.GAL_JQ_CFG_EN && f != F.GAL_JQ_CFG_WEIGHT, F.GAL_JQ_CFG_EN.addr 1 0, setBit 0 63 false, by refine ⟨?_, ?_, ?_, ?_, ?_, ?_, ?_⟩ <;> first | with_reducible rfl | decide +kernel | (unfold Permitted; decide +kernel)⟩,
   ⟨.cc, 1, run1, F.GAL_CTL_FLUSH.addr 1 0, by refine ⟨?_, ?_⟩ <;> first | with_reducible rfl | decide +kernel | (unfold Permitted; decide +kernel)⟩,
   ⟨1, run1.wr F.NOC_DOM_STATUS_STATE 2 0 17, by decide +kernel⟩⟩

theorem wit_job_queues_2 :
    (∃ (g : Fin 16) (s : Machine.State) (x : ℕ × ℕ) (l : List QItem) (trunc : Bool) (u : Machine.State) (w : Machine.State),
      s.stage = Stage.running ∧ (s.rd F.NOC_DOM_STATUS_STATE 0 (16 + ↑g) = domON) ∧ s.on F.GEN_STATUS_FATAL = false ∧ (s.gal
      ↑g).jobs.length < 16 ∧ (s.gal ↑g).part = none ∧ s.turnOf ↑g = some x ∧ (w = s.onGal ↑g fun y =>
      { jobs := y.jobs, part := y.part, turn := x, recent := y.recent, aborts := y.aborts, back := y.back, closing := y.closing, flush := y.flush })
      ∧ (State.popPacket (w.qAvail (s.rd F.GAL_JQ_CFG_DQ (↑g) x.1) + 2) w (s.rd F.GAL_JQ_CFG_DQ (↑g) x.1) [] = (some (l, some
      trunc), u))) ∧
    (∃ (g : Fin 16) (i : Fin 16) (s : Machine.State) (j : Job), s.stage = Stage.running ∧ ((s.gal ↑g).jobs[↑i]? = some j) ∧ j.st
      = JobSt.ended ∧ (j.list = []) ∧ s.jobBySeq (↑g) j.seq = some j ∧ s.mayPush (↑g) j = true) ∧
    (∃ (g : Fin 16) (i : Fin 16) (s : Machine.State) (j : Job), s.stage = Stage.running ∧ ((s.gal ↑g).jobs[↑i]? = some j) ∧ j.st
      = JobSt.ended ∧ (j.list = []) ∧ s.jobBySeq (↑g) j.seq = some j ∧ s.mayPush (↑g) j = false) ∧
    (∃ (g : Fin 16) (i : Fin 16) (s : Machine.State) (j : Job), s.stage = Stage.running ∧ ((s.gal ↑g).jobs[↑i]? = some j) ∧ j.st
      ≠ JobSt.ended) ∧
    (∃ (who : Initiator) (q : Fin 1024) (s : Machine.State), (Permitted s who (portPage (↑q) 376) true) ∧ s.boundTo ↑q = none) ∧
    (∃ (who : Initiator) (q : Fin 1024) (s : Machine.State) (x : ℕ × ℕ), (Permitted s who (portPage (↑q) 376) true) ∧ s.boundTo
      ↑q = some x ∧ (((s.gal x.1).aborts.any fun x => x.1 == ↑q) = true)) ∧
    (∃ (who : Initiator) (q : Fin 1024) (id : BitVec 32) (s : Machine.State) (x : ℕ × ℕ), (Permitted s who (portPage (↑q) 376)
      true) ∧ s.boundTo ↑q = some x ∧ (((s.gal x.1).aborts.any fun x => x.1 == ↑q) = false) ∧ (List.find? (fun j => j.jq == x.2
      && j.jobId == id.toNat) (s.gal x.1).jobs = none)) ∧
    (∃ (who : Initiator) (q : Fin 1024) (id : BitVec 32) (s : Machine.State) (x : ℕ × ℕ) (j : Job), (Permitted s who (portPage
      (↑q) 376) true) ∧ s.boundTo ↑q = some x ∧ (((s.gal x.1).aborts.any fun x => x.1 == ↑q) = false) ∧ (List.find? (fun j =>
      j.jq == x.2 && j.jobId == id.toNat) (s.gal x.1).jobs = some j)) :=
  ⟨⟨1, ({ galB with qram := [(0, ⟨7, 3⟩)] }.wr F.CRQ_PTR0_W 1 9).wr F.NOC_DOM_STATUS_STATE domON 0 17, (2, 0), [⟨7, 3⟩], false, let s := ({ galB with qram := [(0, ⟨7, 3⟩)] }.wr F.CRQ_PTR0_W 1 9).wr F.NOC_DOM_STATUS_STATE domON 0 17
  let w := s.onGal 1 fun y => { y with turn := (2, 0) }
  (State.popPacket (w.qAvail (s.rd F.GAL_JQ_CFG_DQ 1 2) + 2) w 9 []).2, let s := ({ galB with qram := [(0, ⟨7, 3⟩)] }.wr F.CRQ_PTR0_W 1 9).wr F.NOC_DOM_STATUS_STATE domON 0 17
  s.onGal 1 fun y => { y with turn := (2, 0) }, by refine ⟨?_, ?_, ?_, ?_, ?_, ?_, ?_, ?_⟩ <;> first | with_reducible rfl | decide +kernel⟩,
   ⟨1, 0, galJob { job 1 [] with st := .ended } galB, { job 1 [] with st := .ended }, by decide +kernel⟩,
   ⟨1, 0, galJob { job 1 [] with st := .ended }, { job 1 [] with st := .ended }, by decide +kernel⟩,
   ⟨1, 0, galJob (job 1 []), job 1 [], by decide +kernel⟩,
   ⟨.cc, 9, galQ, by unfold Permitted; decide +kernel⟩,
   ⟨.cc, 9, galB.onGal 1 (fun x => { x with aborts := [(9, 4)] }), (1, 2), by unfold Permitted; decide +kernel⟩,
   ⟨.cc, 9, 9, galB, (1, 2), by unfold Permitted; decide +kernel⟩,
   ⟨.cc, 9, 9, galJob { job 1 [] with jq := 2 } galB, (1, 2), { job 1 [] with jq := 2 }, by unfold Permitted; decide +kernel⟩⟩

theorem wit_inlet_sequence_1 :
    (∃ (s : Machine.State), s.inl.standby = true ∧ s.inlSt 0 = inABSENT) ∧
    (∃ (s : Machine.State), (s.inl.standby = false ∨ s.inlSt 0 ≠ inABSENT)) ∧
    (∃ (s : Machine.State), s.inl.standby = false) ∧
    (∃ (s : Machine.State), s.inlSt 0 = inQUALIFY ∧ s.inl.present = true) ∧
    (∃ (s : Machine.State), (s.inlSt 0 ≠ inQUALIFY ∨ s.inl.present = false)) ∧
    (∃ (s : Machine.State), inQUALIFY < s.inlSt 0) ∧
    (∃ (s : Machine.State), s.inlSt 0 ≤ inQUALIFY) ∧
    (∃ (level : Bool) (s : Machine.State), s.inlSt 0 ≠ inTRIPPED ∧ level = true) ∧
    (∃ (level : Bool) (s : Machine.State), inREADY ≤ s.inlSt 0 ∧ s.inlSt 0 ≠ inTRIPPED ∧ level = false) ∧
    (∃ (level : Bool) (s : Machine.State), s.inlSt 0 = inTRIPPED ∧ level = true ∧ s.rd F.INL_CH_CTL_EN = 0 ∧
      s.inl.armed.contains 0 = true) :=
  ⟨⟨{ State.reset with inl := { State.reset.inl with standby := true } }, by decide +kernel⟩,
   ⟨State.reset, by decide +kernel⟩,
   ⟨State.reset, by decide +kernel⟩,
   ⟨inlet 0 inQUALIFY, by decide +kernel⟩,
   ⟨inlet 0 inON, by decide +kernel⟩,
   ⟨inlet 0 inON, by decide +kernel⟩,
   ⟨inlet 0 inQUALIFY, by decide +kernel⟩,
   ⟨true, inlet 0 inOFF, by refine ⟨?_, ?_⟩ <;> first | with_reducible rfl | decide +kernel⟩,
   ⟨false, inlet 0 inON, by refine ⟨?_, ?_, ?_⟩ <;> first | with_reducible rfl | decide +kernel⟩,
   ⟨true, { inlet 0 inTRIPPED with inl := { (inlet 0 inTRIPPED).inl with armed := [0] } }, by refine ⟨?_, ?_, ?_, ?_⟩ <;> first | with_reducible rfl | decide +kernel⟩⟩

theorem wit_inlet_sequence_2 :
    (∃ (level : Bool) (s : Machine.State), s.inlSt 0 = inTRIPPED ∧ level = false ∧ s.on F.INL_CH_CTL_EN = true) ∧
    (∃ (who : Initiator) (bank : Fin 8) (v : BitVec 64) (s : Machine.State) (w : Machine.State) (off : ℕ), (off =
      F.INL_CH_CTL_EN.addr 0 (↑bank + 1)) ∧ (Permitted s who off true) ∧ (w = (s.dropHalves who off).wr F.INL_CH_CTL_RAMP (clamp
      1 100 (F.INL_CH_CTL_RAMP.of v.toNat)) 0 (↑bank + 1)) ∧ (v.toNat.testBit 0 = true ∨ w.mayDisable (↑bank + 1) = true)) ∧
    (∃ (who : Initiator) (bank : Fin 8) (v : BitVec 64) (s : Machine.State) (w : Machine.State) (off : ℕ), (off =
      F.INL_CH_CTL_EN.addr 0 (↑bank + 1)) ∧ (Permitted s who off true) ∧ (w = (s.dropHalves who off).wr F.INL_CH_CTL_RAMP (clamp
      1 100 (F.INL_CH_CTL_RAMP.of v.toNat)) 0 (↑bank + 1)) ∧ v.toNat.testBit 0 = false ∧ (w.mayDisable (↑bank + 1) = false)) ∧
    (∃ (s : Machine.State), s.inlSt 0 = inGRANTED ∧ (0 ≤ signed 64 ((s.inletSt + 2 ^ 64 - s.inl.grant % 2 ^ 64) % 2 ^ 64))) ∧
    (∃ (s : Machine.State), (s.inlSt 0 ≠ inGRANTED ∨ signed 64 ((s.inletSt + 2 ^ 64 - s.inl.grant % 2 ^ 64) % 2 ^ 64) < 0)) ∧
    (∃ (c : Fin 9) (s : Machine.State), s.inlSt ↑c = inREADY ∧ s.inl.auto = true ∧ s.inl.tally = false) ∧
    (∃ (c : Fin 9) (s : Machine.State), (s.inlSt ↑c ≠ inREADY ∨ s.inl.auto = false ∨ s.inl.tally = true)) ∧
    (∃ (c : Fin 9) (s : Machine.State), s.inlSt ↑c = inRAMP) ∧
    (∃ (c : Fin 9) (s : Machine.State), s.inlSt ↑c ≠ inRAMP) ∧
    (∃ (c : ℕ) (s : Machine.State) (d : ℕ), c < 9 ∧ (∀ d < 9, s.inlSt d < inREADY ∨ inRAMP < s.inlSt d) ∧ s.inlEnabled c = true
      ∧ s.inlSt c = inOFF ∧ (∀ d < c, ¬(s.inlEnabled d = true ∧ s.inlSt d = inOFF)) ∧ (c = 0 ∨ s.inlSt 0 = inON) ∧ d < 9 ∧ d ≠
      c) :=
  ⟨⟨false, (inlet 0 inTRIPPED).wr F.INL_CH_CTL_EN 1 0 0, by refine ⟨?_, ?_, ?_⟩ <;> first | with_reducible rfl | decide +kernel⟩,
   ⟨.cc, 2, 1, inlet 0 inON, ((inlet 0 inON).dropHalves .cc (F.INL_CH_CTL_EN.addr 0 3)).wr F.INL_CH_CTL_RAMP 1 0 3, F.INL_CH_CTL_EN.addr 0 3, by refine ⟨?_, ?_, ?_, ?_⟩ <;> first | with_reducible rfl | decide +kernel | (unfold Permitted; decide +kernel)⟩,
   ⟨.cc, 2, 0, (inlet 3 inON).wr F.DRC_CFG_PRESENT 1 4, (((inlet 3 inON).wr F.DRC_CFG_PRESENT 1 4).dropHalves .cc (F.INL_CH_CTL_EN.addr 0 3)).wr F.INL_CH_CTL_RAMP 1 0 3, F.INL_CH_CTL_EN.addr 0 3, by refine ⟨?_, ?_, ?_, ?_, ?_⟩ <;> first | with_reducible rfl | decide +kernel | (unfold Permitted; decide +kernel)⟩,
   ⟨inlet 0 inGRANTED, by decide +kernel⟩,
   ⟨inlet 0 inON, by decide +kernel⟩,
   ⟨3, { inlet 3 inREADY with inl := { (inlet 3 inREADY).inl with auto := true } }, by decide +kernel⟩,
   ⟨3, inlet 3 inREADY, by decide +kernel⟩,
   ⟨3, inlet 3 inRAMP, by decide +kernel⟩,
   ⟨3, inlet 3 inON, by decide +kernel⟩,
   ⟨3, (inlet 3 inOFF (inlet 0 inON)).wr F.INL_CH_CTL_EN 1 0 3, 8, by refine ⟨?_, ?_, ?_, ?_, ?_, ?_, ?_, ?_⟩ <;> first | with_reducible rfl | decide +kernel⟩⟩

theorem wit_inlet_trips :
    (∃ (c : ℕ) (cause : ℕ) (s : Machine.State) (u : Machine.State), c < 9 ∧ 1 ≤ cause ∧ cause ≤ 4 ∧ s.tripNow c cause = u ∧
      s.gateOn c = true ∧ s.clocked = true ∧ c ≠ 0) ∧
    (∃ (c : ℕ) (cause : ℕ) (s : Machine.State) (u : Machine.State), c < 9 ∧ 1 ≤ cause ∧ cause ≤ 4 ∧ s.tripNow c cause = u ∧
      s.gateOn c = false) ∧
    (∃ (c : Fin 9) (s : Machine.State), s.inlSt ↑c = inRAMP) ∧
    (∃ (c : Fin 9) (s : Machine.State), s.inlSt ↑c ≠ inRAMP) ∧
    (∃ (c : Fin 9) (s : Machine.State), s.inlSt ↑c = inON) ∧
    (∃ (c : Fin 9) (s : Machine.State), s.inlSt ↑c ≠ inON) ∧
    (∃ (c : Fin 9) (s : Machine.State), s.inlSt ↑c ≠ inLIMIT) ∧
    (∃ (c : Fin 9) (s : Machine.State), s.inlSt ↑c = inLIMIT ∧ s.inl.limited.contains ↑c = true) ∧
    (∃ (c : Fin 9) (s : Machine.State), (s.inlSt ↑c ≠ inLIMIT ∨ s.inl.limited.contains ↑c = false)) ∧
    (∃ (iout : BitVec 16) (vin : BitVec 16) (vout : BitVec 16) (ta : BitVec 16) (s : Machine.State) (T : ℚ), s.inl.standby =
      true ∧ s.rd F.INL_CH_STATUS_TSRC = 0 ∧ s.rd F.INL_CH_MODEL_TAU_US ≠ 0 ∧ (T = s.inl.temp + (↑iout.toNat * (↑vin.toNat -
      ↑vout.toNat) / 100000 * (↑(s.rd F.INL_CH_MODEL_RTH) / 1000) - (s.inl.temp - ↑(signed 16 ta.toNat) / 4)) * 10 / ↑(s.rd
      F.INL_CH_MODEL_TAU_US))) :=
  ⟨⟨3, 4, inlet 3 inON, (inlet 3 inON).tripNow 3 4, by decide +kernel⟩,
   ⟨3, 4, inlet 0 inON, (inlet 0 inON).tripNow 3 4, by decide +kernel⟩,
   ⟨3, inlet 3 inRAMP, by decide +kernel⟩,
   ⟨3, inlet 3 inON, by decide +kernel⟩,
   ⟨3, inlet 3 inON, by decide +kernel⟩,
   ⟨3, inlet 3 inOFF, by decide +kernel⟩,
   ⟨3, inlet 3 inON, by decide +kernel⟩,
   ⟨3, { inlet 3 inLIMIT with inl := { (inlet 3 inLIMIT).inl with limited := [3] } }, by decide +kernel⟩,
   ⟨3, inlet 3 inLIMIT, by decide +kernel⟩,
   ⟨100, 200, 100, 40, (inlet 0 inON).wr F.INL_CH_MODEL_TAU_US 50, (inlet 0 inON).inl.temp + ((100 : Rat) * (200 - 100) / 100000 * ((((inlet 0 inON).wr F.INL_CH_MODEL_TAU_US 50).rd F.INL_CH_MODEL_RTH : Rat) / 1000) - ((inlet 0 inON).inl.temp - (40 : Rat) / 4)) * 10 / 50, by decide +kernel⟩⟩

abbrev bigFw : Bytes := List.replicate 4194305 0

theorem wit_firmware_control :
    (∃ (who : Initiator) (s : Machine.State), (Served s who false []) ∧ (s.cc.restart.isSome = true ∨ s.str.load.isSome = true ∨
      s.str.cal.isSome = true)) ∧
    (∃ (who : Initiator) (slotB : Bool) (image : Bytes) (s : Machine.State), (Served s who false []) ∧ s.cc.restart = none ∧
      s.str.load = none ∧ s.str.cal = none ∧ (s.rd F.FWC_STATUS_RUN_SLOT = b2n !slotB) ∧ 4194304 < List.length image) ∧
    (∃ (who : Initiator) (slotB : Bool) (image : Bytes) (s : Machine.State) (w : Machine.State), (Served s who false []) ∧
      s.cc.restart = none ∧ s.str.load = none ∧ s.str.cal = none ∧ (s.rd F.FWC_STATUS_RUN_SLOT = b2n !slotB) ∧ List.length image
      ≤ 4194304 ∧ (w =
      { pending := s.pending, regs := s.regs, free := s.free, out := s.out, stage := s.stage, nvs := s.nvs, flash := if slotB = true then have __src := s.flash; { imgA := __src.imgA, imgB := __src.imgB, fwA := __src.fwA, fwB := image } else have __src := s.flash; { imgA := __src.imgA, imgB := __src.imgB, fwA := image, fwB := __src.fwB }, time := s.time, str := s.str, cc := s.cc, sec := s.sec, ras := s.ras, map := s.map, keys := s.keys, keyReqs := s.keyReqs, mem := s.mem, causes := s.causes, hosts := s.hosts, reqs := s.reqs, stalled := s.stalled, m2s := s.m2s, insecure := s.insecure, ide := s.ide, lanes := s.lanes, badLanes := s.badLanes, laneRev := s.laneRev, dram := s.dram, coh := s.coh, noc := s.noc, links := s.links, span := s.span, queues := s.queues, qram := s.qram, gals := s.gals, jobSeq := s.jobSeq, pwr := s.pwr, perst := s.perst, txn := s.txn, tst := s.tst, smp := s.smp, inl := s.inl })) ∧
    (∃ (who : Initiator) (slotB : Bool) (s : Machine.State), (Served s who false []) ∧ s.cc.restart = none ∧ s.str.load = none ∧
      s.str.cal = none ∧ s.rd F.FWC_STATUS_RUN_SLOT = b2n slotB) ∧
    (∃ (who : Initiator) (s : Machine.State), (Served s who false []) ∧ s.str.xfer = none ∧ s.cc.restart = none) ∧
    (∃ (who : Initiator) (s : Machine.State), (Served s who false []) ∧ (s.str.xfer.isSome = true ∨ s.cc.restart.isSome = true)) ∧
    (∃ (s : Machine.State) (b : Bool), s.stage = Stage.running ∧ s.cc.restart = some b) ∧
    (∃ (s : Machine.State), s.stage = Stage.running ∧ s.cc.cores.contains CoreSt.halted = true) ∧
    (∃ (s : Machine.State), s.stage = Stage.running ∧ s.cc.cores.contains CoreSt.halted = false ∧ s.cc.restart = none) ∧
    (∃ (who : Initiator) (s : Machine.State), (Permitted s who 33554432 true)) ∧
    (∃ (who : Initiator) (s : Machine.State), (Permitted s who 33554480 true)) ∧
    (∃ (who : Initiator) (s : Machine.State), (Permitted s who 33554440 true)) ∧
    (∃ (who : Initiator) (s : Machine.State), (Permitted s who 33554456 true) ∧ s.isOwner who = true) ∧
    (∃ (who : Initiator) (s : Machine.State), (Permitted s who 33554456 true) ∧ s.isOwner who = false) :=
  ⟨⟨.ld 3, { run1 with cc := { restart := some true } }, by unfold Served; decide +kernel⟩,
   ⟨.ld 3, true, bigFw, run1, by refine ⟨?_, ?_, ?_, ?_, ?_, ?_⟩ <;> first | (rw [List.length_replicate]; decide) | (unfold Served; decide +kernel) | decide +kernel⟩,
   ⟨.ld 3, true, [1, 2], run1, { run1 with flash := { run1.flash with fwB := [1, 2] } }, by refine ⟨?_, ?_, ?_, ?_, ?_, ?_, ?_⟩ <;> first | with_reducible rfl | decide +kernel | (unfold Served; decide +kernel)⟩,
   ⟨.ld 3, false, run1, by unfold Served; decide +kernel⟩,
   ⟨.ld 3, run1, by unfold Served; decide +kernel⟩,
   ⟨.ld 3, { run1 with cc := { restart := some true } }, by unfold Served; decide +kernel⟩,
   ⟨{ run1 with cc := { restart := some true } }, true, by decide +kernel⟩,
   ⟨{ run1 with cc := { cores := [.halted] } }, by decide +kernel⟩,
   ⟨{ run1 with cc := { cores := [.running, .inReset] } }, by decide +kernel⟩,
   ⟨.cc, { run1 with cc := { cores := [.running, .inReset, .running, .inReset] } }, by unfold Permitted; decide +kernel⟩,
   ⟨.cc, run1, by unfold Permitted; decide +kernel⟩,
   ⟨.cc, run1.wr F.FWC_STATUS_LAST_THERMTRIP 1, by unfold Permitted; decide +kernel⟩,
   ⟨.cc, run1, by unfold Permitted; decide +kernel⟩,
   ⟨.cc, own0, by unfold Permitted; decide +kernel⟩⟩

abbrev cal7 : CalSection := ⟨2, 0, 1, 64, crc64 (List.replicate 64 7), List.replicate 64 7⟩
abbrev xf (d : Bytes) (h : Bytes) : Transfer := ⟨.ld 3, true, 2, false, h, d⟩
abbrev ownX (d h : Bytes) : State := { own0 with str := { own0.str with xfer := some (xf d h) } }
abbrev ch : Bytes := [2, 0, 1, 0, 64, 0, 0, 0] ++ toLE 8 (crc64 (List.replicate 64 7))

theorem wit_mailbox_commands :
    (∃ (who : Initiator) (s : Machine.State), (Served s who true [])) ∧
    (∃ (who : Initiator) (input : Bytes) (s : Machine.State) (x : Instr), (x ∈ [Instr.identify who input, Instr.strInfo who
      input, Instr.calInfo who input]) ∧ (Served s who true input) ∧ (input ≠ [])) ∧
    (∃ (who : Initiator) (input : Bytes) (s : Machine.State), (Served s who false input) ∧ (List.length input ≠ 8 ∨ le input 6 2
      ≠ 0)) ∧
    (∃ (who : Initiator) (input : Bytes) (s : Machine.State), (Served s who false input) ∧ List.length input = 8 ∧ le input 6 2
      = 0) ∧
    (∃ (who : Initiator) (s : Machine.State), s.stage = Stage.running ∧ hasSpdm who = true ∧ s.on F.FWC_STATUS_MONITOR = true) ∧
    (∃ (who : Initiator) (input : Bytes) (nvsOk : Bool) (s : Machine.State) (x : Instr), (Served s who true input) ∧ s.isOwner
      who = false ∧ (x ∈ [Instr.calExport who input, Instr.calWriteStart who input, Instr.calWriteContinue who input,
      Instr.calWriteEnd who input nvsOk, Instr.calWriteAbandon who input])) ∧
    (∃ (who : Initiator) (input : Bytes) (s : Machine.State), (Served s who true input) ∧ s.isOwner who = true ∧ s.rd
      F.DBG_STATUS_LEVEL = 2) ∧
    (∃ (who : Initiator) (input : Bytes) (s : Machine.State) (x : CalSection), (Served s who true input) ∧ s.isOwner who = true
      ∧ List.length input = 8 ∧ le input 1 3 = 0 ∧ s.rd F.DBG_STATUS_LEVEL ≠ 2 ∧ s.calSec (byteAt input 0) = some x) ∧
    (∃ (who : Initiator) (input : Bytes) (s : Machine.State), (Served s who true input) ∧ s.isOwner who = true ∧ List.length
      input = 8 ∧ le input 1 3 = 0 ∧ s.rd F.DBG_STATUS_LEVEL ≠ 2 ∧ s.calSec (byteAt input 0) = none) ∧
    (∃ (who : Initiator) (input : Bytes) (s : Machine.State), (Served s who true input) ∧ s.isOwner who = true ∧ itemOk 0 input
      = true ∧ List.length input = 24 ∧ s.transferTaken who true = false ∧ s.str.load = none ∧ s.str.cal = none) ∧
    (∃ (who : Initiator) (input : Bytes) (s : Machine.State) (x : Transfer), (Served s who true input) ∧ s.isOwner who = true ∧
      s.str.xfer = some x ∧ x.who = who ∧ x.cal = true ∧ x.id = byteAt input 1 ∧ itemOk 1 input = true ∧ 8 < List.length input ∧
      le input 4 4 = List.length x.data) ∧
    (∃ (who : Initiator) (input : Bytes) (s : Machine.State) (x : Transfer), (Served s who true input) ∧ s.isOwner who = true ∧
      s.str.xfer = some x ∧ x.who = who ∧ x.cal = true ∧ x.id = byteAt input 1 ∧ itemOk 2 input = true ∧ List.length input = 8 ∧
      s.str.load = none ∧ s.str.cal = none ∧ calCheck x ≠ 0) ∧
    (∃ (who : Initiator) (input : Bytes) (s : Machine.State) (x : Transfer), (Served s who true input) ∧ s.isOwner who = true ∧
      s.str.xfer = some x ∧ x.who = who ∧ x.cal = true ∧ x.id = byteAt input 1 ∧ itemOk 2 input = true ∧ List.length input = 8 ∧
      s.str.load = none ∧ s.str.cal = none ∧ calCheck x = 0) ∧
    (∃ (who : Initiator) (input : Bytes) (s : Machine.State) (x : Transfer), (Served s who true input) ∧ s.isOwner who = true ∧
      s.str.xfer = some x ∧ x.who = who ∧ x.cal = true ∧ x.id = byteAt input 1 ∧ itemOk 3 input = true ∧ List.length input = 8) :=
  ⟨⟨.ld 3, run1, by unfold Served; decide +kernel⟩,
   ⟨.ld 3, [1], run1, .identify (.ld 3) [1], by unfold Served; decide +kernel⟩,
   ⟨.ld 3, [0, 0, 0, 0, 5, 0, 0, 0, 0], run1, by unfold Served; decide +kernel⟩,
   ⟨.ld 3, [0, 0, 0, 0, 5, 0, 0, 0], run1, by unfold Served; decide +kernel⟩,
   ⟨.ld 3, run1.wr F.FWC_STATUS_MONITOR 1, by decide +kernel⟩,
   ⟨.mctp, [1], true, own0, .calExport .mctp [1], by unfold Served; decide +kernel⟩,
   ⟨.ld 3, [1], own0.wr F.DBG_STATUS_LEVEL 2, by unfold Served; decide +kernel⟩,
   ⟨.ld 3, [2, 0, 0, 0, 0, 0, 0, 0], { own0 with nvs := { cal := [cal7] } }, cal7, by unfold Served; decide +kernel⟩,
   ⟨.ld 3, [2, 0, 0, 0, 0, 0, 0, 0], own0, by unfold Served; decide +kernel⟩,
   ⟨.ld 3, [0, 2, 0, 0, 0, 0, 0, 0] ++ List.replicate 16 3, own0, by unfold Served; decide +kernel⟩,
   ⟨.ld 3, [1, 2, 0, 0, 2, 0, 0, 0, 9, 9], ownX [7, 7] [], xf [7, 7] [], by unfold Served; decide +kernel⟩,
   ⟨.ld 3, [2, 2, 0, 0, 2, 0, 0, 0], ownX [7, 7] [], xf [7, 7] [], by unfold Served; decide +kernel⟩,
   ⟨.ld 3, [2, 2, 0, 0, 2, 0, 0, 0], ownX (List.replicate 64 7) ch, xf (List.replicate 64 7) ch, by unfold Served; decide +kernel⟩,
   ⟨.ld 3, [3, 2, 0, 0, 2, 0, 0, 0], ownX [7, 7] [], xf [7, 7] [], by unfold Served; decide +kernel⟩⟩

abbrev setReq : Bytes := [0x10, 0, 0, 0, 0, 0, 0, 0] ++ toBE 48 p384G.1 ++ toBE 48 p384G.2
abbrev blankS : State := { run1 with sec := { sessions := [⟨9, .mctp, none, true, 0⟩] } }

theorem wit_lifecycle :
    (∃ (who : Initiator) (session : BitVec 32) (req : Bytes) (nvsOk : Bool) (s : Machine.State) (x : Instr × ℕ × Bool), s.stage
      = Stage.running ∧ (x ∈ [(Instr.setOwner who session req nvsOk, lcSET, nvsOk), (Instr.seal who session req nvsOk, lcSEAL,
      nvsOk), (Instr.lcReturn who session req nvsOk, lcRETURN, nvsOk), (Instr.bind who session req, lcBIND, true), (Instr.unbind
      who session req, lcUNBIND, true)]) ∧ s.vdmBusy = true) ∧
    (∃ (who : Initiator) (session : BitVec 32) (req : Bytes) (nvsOk : Bool) (s : Machine.State) (x : Instr × ℕ × Bool), s.stage
      = Stage.running ∧ (x ∈ [(Instr.setOwner who session req nvsOk, lcSET, nvsOk), (Instr.seal who session req nvsOk, lcSEAL,
      nvsOk), (Instr.lcReturn who session req nvsOk, lcRETURN, nvsOk), (Instr.bind who session req, lcBIND, true), (Instr.unbind
      who session req, lcUNBIND, true)]) ∧ s.vdmBusy = false ∧ s.lcResult who session.toNat x.2.1 req x.2.2 ≠ lcOk) ∧
    (∃ (who : Initiator) (session : BitVec 32) (req : Bytes) (nvsOk : Bool) (s : Machine.State), s.stage = Stage.running ∧
      s.vdmBusy = false ∧ s.rd F.DBG_STATUS_LEVEL ≠ 3 ∧ s.lcResult who session.toNat lcSET req nvsOk = lcOk) ∧
    (∃ (who : Initiator) (session : BitVec 32) (req : Bytes) (nvsOk : Bool) (s : Machine.State), s.stage = Stage.running ∧
      s.vdmBusy = false ∧ s.rd F.DBG_STATUS_LEVEL ≠ 3 ∧ s.lcResult who session.toNat lcSEAL req nvsOk = lcOk) ∧
    (∃ (who : Initiator) (session : BitVec 32) (req : Bytes) (nvsOk : Bool) (s : Machine.State), s.stage = Stage.running ∧
      s.vdmBusy = false ∧ s.rd F.DBG_STATUS_LEVEL = 0 ∧ s.lcResult who session.toNat lcSET req nvsOk = lcOk) ∧
    (∃ (who : Initiator) (session : BitVec 32) (req : Bytes) (nvsOk : Bool) (s : Machine.State), s.stage = Stage.running ∧
      s.vdmBusy = false ∧ s.rd F.DBG_STATUS_LEVEL = 0 ∧ s.lcResult who session.toNat lcSEAL req nvsOk = lcOk) ∧
    (∃ (who : Initiator) (session : BitVec 32) (req : Bytes) (nvsOk : Bool) (s : Machine.State), s.stage = Stage.running ∧
      s.vdmBusy = false ∧ s.rd F.DBG_STATUS_LEVEL = 0 ∧ s.lcResult who session.toNat lcRETURN req nvsOk = lcOk) ∧
    (∃ (who : Initiator) (session : BitVec 32) (req : Bytes) (s : Machine.State), s.stage = Stage.running ∧ s.vdmBusy = false ∧
      s.lcResult who session.toNat lcBIND req true = lcOk) ∧
    (∃ (who : Initiator) (session : BitVec 32) (req : Bytes) (s : Machine.State), s.stage = Stage.running ∧ s.vdmBusy = false ∧
      s.lcResult who session.toNat lcUNBIND req true = lcOk) ∧
    (∃ (who : Initiator) (s : Machine.State), (Permitted s who 32505896 true) ∧ s.isOwner who = true ∧ s.rd F.SEC_CTL_HASH_ADDR
      = 0) ∧
    (∃ (who : Initiator) (s : Machine.State), (Permitted s who 32505896 true) ∧ s.isOwner who = true ∧ s.rd F.SEC_CTL_HASH_ADDR
      = 1) ∧
    (∃ (who : Initiator) (s : Machine.State), (Permitted s who 32505896 true) ∧ s.isOwner who = false) :=
  ⟨⟨.ld 3, 9, [], true, { own0 with sec := { returning := some .cc } }, (.bind (.ld 3) 9 [], lcBIND, true), by decide +kernel⟩,
   ⟨.ld 3, 9, [], true, own0, (.bind (.ld 3) 9 [], lcBIND, true), by decide +kernel⟩,
   ⟨.mctp, 9, setReq, true, blankS, by decide +kernel⟩,
   ⟨.ld 3, 9, [0x11, 0, 0, 0, 0x53, 0x45, 0x41, 0x4C], true, key0, by decide +kernel⟩,
   ⟨.mctp, 9, setReq, true, blankS, by decide +kernel⟩,
   ⟨.ld 3, 9, [0x11, 0, 0, 0, 0x53, 0x45, 0x41, 0x4C], true, key0, by decide +kernel⟩,
   ⟨.ld 3, 9, [0x12, 0, 0, 0, 0x52, 0x54, 0x52, 0x4E], true, key0, by decide +kernel⟩,
   ⟨.ld 3, 9, [0x13, 63, 0, 0], key0, by decide +kernel⟩,
   ⟨.ld 3, 9, [0x14, 3, 0, 0], key0, by decide +kernel⟩,
   ⟨.ld 3, own0, by unfold Permitted; decide +kernel⟩,
   ⟨.ld 3, own0.wr F.SEC_CTL_HASH_ADDR 1, by unfold Permitted; decide +kernel⟩,
   ⟨.cc, own0, by unfold Permitted; decide +kernel⟩⟩

abbrev tok3S : State := tokS.wr F.DBG_STATUS_LEVEL 3

theorem wit_debug_port :
    (∃ (s : Machine.State), s.stage ≠ Stage.coldReset ∧ s.stage ≠ Stage.stopped ∧ s.owned = false) ∧
    (∃ (s : Machine.State), s.stage ≠ Stage.coldReset ∧ s.stage ≠ Stage.stopped ∧ s.owned = true) ∧
    (∃ (s : Machine.State), s.stage ≠ Stage.coldReset ∧ s.stage ≠ Stage.stopped ∧ s.rd F.DBG_STATUS_LEVEL = 2 ∧ s.rd
      F.DBG_STATUS_PENDING = 0) ∧
    (∃ (s : Machine.State), s.stage ≠ Stage.coldReset ∧ s.stage ≠ Stage.stopped ∧ (s.rd F.DBG_STATUS_LEVEL ≠ 2 ∨ s.on
      F.DBG_STATUS_PENDING = true)) ∧
    (∃ (s : Machine.State), s.stage ≠ Stage.coldReset ∧ s.stage ≠ Stage.stopped ∧ s.rd F.DBG_STATUS_LEVEL = 0) ∧
    (∃ (s : Machine.State), s.stage ≠ Stage.coldReset ∧ s.stage ≠ Stage.stopped ∧ s.rd F.DBG_STATUS_LEVEL = 1) ∧
    (∃ (b : Bytes) (s : Machine.State) (w : Machine.State), s.stage ≠ Stage.coldReset ∧ s.stage ≠ Stage.stopped ∧ w = s.shift 17
      0 ∧ s.tokenOk b = false) ∧
    (∃ (b : Bytes) (s : Machine.State) (w : Machine.State), s.stage ≠ Stage.coldReset ∧ s.stage ≠ Stage.stopped ∧ w = s.shift 17
      0 ∧ s.tokenOk b = true ∧ byteAt b 4 = 0) ∧
    (∃ (b : Bytes) (s : Machine.State) (w : Machine.State), s.stage ≠ Stage.coldReset ∧ s.stage ≠ Stage.stopped ∧ w = s.shift 17
      0 ∧ s.tokenOk b = true ∧ byteAt b 4 ≠ 0 ∧ s.rd F.DBG_STATUS_LEVEL ≠ 3) ∧
    (∃ (b : Bytes) (s : Machine.State) (w : Machine.State), s.stage ≠ Stage.coldReset ∧ s.stage ≠ Stage.stopped ∧ w = s.shift 17
      0 ∧ s.tokenOk b = true ∧ byteAt b 4 ≠ 0 ∧ s.rd F.DBG_STATUS_LEVEL = 3) ∧
    (∃ (who : Initiator) (s : Machine.State), (Permitted s who 33030152 true) ∧ s.rd F.DBG_STATUS_LEVEL = 0) ∧
    (∃ (who : Initiator) (s : Machine.State), (Permitted s who 33030152 true) ∧ s.rd F.DBG_STATUS_LEVEL = 2) ∧
    (∃ (who : Initiator) (s : Machine.State), (Permitted s who 33030152 true) ∧ s.rd F.DBG_STATUS_LEVEL = 1) :=
  ⟨⟨run1, by decide +kernel⟩,
   ⟨own0, by decide +kernel⟩,
   ⟨dbg 2, by decide +kernel⟩,
   ⟨run1, by decide +kernel⟩,
   ⟨run1, by decide +kernel⟩,
   ⟨dbg 1, by decide +kernel⟩,
   ⟨[], own0, own0.shift 0x11 0, by refine ⟨?_, ?_, ?_, ?_⟩ <;> first | with_reducible rfl | decide +kernel⟩,
   ⟨tok 0, tokS, tokS.shift 0x11 0, by refine ⟨?_, ?_, ?_, ?_, ?_⟩ <;> first | with_reducible rfl | decide +kernel⟩,
   ⟨tok 1, tokS, tokS.shift 0x11 0, by refine ⟨?_, ?_, ?_, ?_, ?_, ?_⟩ <;> first | with_reducible rfl | decide +kernel⟩,
   ⟨tok 3, tok3S, tok3S.shift 0x11 0, by refine ⟨?_, ?_, ?_, ?_, ?_, ?_⟩ <;> first | with_reducible rfl | decide +kernel⟩,
   ⟨.cc, run1, by unfold Permitted; decide +kernel⟩,
   ⟨.cc, dbg 2, by unfold Permitted; decide +kernel⟩,
   ⟨.cc, dbg 1, by unfold Permitted; decide +kernel⟩⟩

abbrev ses (l : List Session) (n : Nat := 3) : State := agr n { run1 with sec := { sessions := l } }
abbrev s9 (d : Bool) : Session := ⟨9, .ld 3, none, d, 0⟩
abbrev s4 : Session := ⟨4, .mctp, none, true, 0⟩

theorem wit_spdm_responder_1 :
    (∃ (x : Initiator) (s : Machine.State), s.stage = Stage.running ∧ hasSpdm x = true ∧ 1 ≤ s.agreed x) ∧
    (∃ (x : Initiator) (s : Machine.State), s.stage = Stage.running ∧ hasSpdm x = true ∧ s.agreed x < 1) ∧
    (∃ (x : Initiator) (s : Machine.State), s.stage = Stage.running ∧ hasSpdm x = true ∧ s.agreed x < 2) ∧
    (∃ (x : Initiator) (s : Machine.State), s.stage = Stage.running ∧ hasSpdm x = true ∧ 2 ≤ s.agreed x) ∧
    (∃ (x : Initiator) (index : BitVec 8) (s : Machine.State), s.stage = Stage.running ∧ hasSpdm x = true ∧ 3 ≤ s.agreed x ∧ 1 ≤
      index.toNat ∧ index.toNat ≤ 6) ∧
    (∃ (x : Initiator) (index : BitVec 8) (s : Machine.State), s.stage = Stage.running ∧ hasSpdm x = true ∧ 3 ≤ s.agreed x ∧
      index.toNat = 0) ∧
    (∃ (x : Initiator) (index : BitVec 8) (s : Machine.State), s.stage = Stage.running ∧ hasSpdm x = true ∧ 3 ≤ s.agreed x ∧
      index.toNat = 255) ∧
    (∃ (x : Initiator) (index : BitVec 8) (s : Machine.State), s.stage = Stage.running ∧ hasSpdm x = true ∧ 3 ≤ s.agreed x ∧ 6 <
      index.toNat ∧ index.toNat ≠ 255) :=
  ⟨⟨.ld 3, agr 1, by decide +kernel⟩,
   ⟨.ld 3, run1, by decide +kernel⟩,
   ⟨.ld 3, agr 1, by decide +kernel⟩,
   ⟨.ld 3, agr 2, by decide +kernel⟩,
   ⟨.ld 3, 6, agr 3, by decide +kernel⟩,
   ⟨.ld 3, 0, agr 3, by decide +kernel⟩,
   ⟨.ld 3, 255, agr 3, by decide +kernel⟩,
   ⟨.ld 3, 7, agr 3, by decide +kernel⟩⟩

theorem wit_spdm_responder_2 :
    (∃ (x : Initiator) (nonce : BitVec 256) (off : BitVec 16) (len : BitVec 16) (index : BitVec 8) (s : Machine.State) (c :
      Instr), s.stage = Stage.running ∧ hasSpdm x = true ∧ s.agreed x < 3 ∧ (c ∈ [Instr.getDigests x, Instr.getCertificate x off
      len, Instr.challenge x nonce, Instr.getMeasurements x index])) ∧
    (∃ (x : Initiator) (id : BitVec 32) (s : Machine.State), s.stage = Stage.running ∧ hasSpdm x = true ∧ 3 ≤ s.agreed x ∧
      s.sec.sessions.length < 8 ∧ ((s.sec.sessions.any fun y => y.id == id.toNat) = false)) ∧
    (∃ (x : Initiator) (id : BitVec 32) (s : Machine.State), s.stage = Stage.running ∧ hasSpdm x = true ∧ 3 ≤ s.agreed x ∧
      s.sec.sessions.length < 8 ∧ ((s.sec.sessions.any fun y => y.id == id.toNat) = true)) ∧
    (∃ (x : Initiator) (s : Machine.State), s.stage = Stage.running ∧ hasSpdm x = true ∧ 3 ≤ s.agreed x ∧ 8 ≤
      s.sec.sessions.length) ∧
    (∃ (x : Initiator) (id : BitVec 32) (s : Machine.State) (k : List Session) (l : List Session) (y : Session), s.stage =
      Stage.running ∧ hasSpdm x = true ∧ (s.sec.sessions = k ++ y :: l) ∧ y.id = id.toNat ∧ y.t = x ∧ (∀ z ∈ k ++ l, z.id ≠
      id.toNat) ∧ y.done = false) ∧
    (∃ (x : Initiator) (id : BitVec 32) (s : Machine.State) (k : List Session) (l : List Session) (y : Session), s.stage =
      Stage.running ∧ hasSpdm x = true ∧ (s.sec.sessions = k ++ y :: l) ∧ y.id = id.toNat ∧ y.t = x ∧ (∀ z ∈ k ++ l, z.id ≠
      id.toNat) ∧ y.done = true) ∧
    (∃ (x : Initiator) (id : BitVec 32) (s : Machine.State), s.stage = Stage.running ∧ hasSpdm x = true ∧ (∀ y ∈ s.sec.sessions,
      ¬(y.id = id.toNat ∧ y.t = x ∧ y.done = false))) ∧
    (∃ (x : Initiator) (id : BitVec 32) (s : Machine.State) (c : Instr), s.stage = Stage.running ∧ hasSpdm x = true ∧ (∀ y ∈
      s.sec.sessions, ¬(y.id = id.toNat ∧ y.t = x ∧ y.done = true)) ∧ (c ∈ [Instr.keyUpdate x id, Instr.heartbeat x id,
      Instr.endSession x id])) :=
  ⟨⟨.ld 3, 9, 0, 5, 7, agr 2, .getDigests (.ld 3), by decide +kernel⟩,
   ⟨.ld 3, 9, agr 3, by decide +kernel⟩,
   ⟨.ld 3, 9, ses [s9 true], by decide +kernel⟩,
   ⟨.ld 3, ses (List.replicate 8 s4), by decide +kernel⟩,
   ⟨.ld 3, 9, ses [s9 false, s4], [], [s4], s9 false, by decide +kernel⟩,
   ⟨.ld 3, 9, ses [s9 true, s4], [], [s4], s9 true, by decide +kernel⟩,
   ⟨.ld 3, 7, ses [s9 false, s4], by decide +kernel⟩,
   ⟨.ld 3, 7, ses [s9 true, s4], .keyUpdate (.ld 3) 7, by decide +kernel⟩⟩

abbrev cached (d t : Bool) : State := { run2 with map := { run2.map with cache := [⟨t, 0, d⟩] } }
abbrev ttm : TT := { tt0 with memOut := true }

theorem wit_sram_and_decode_faults_1 :
    (∃ (site : SramSite) (s : Machine.State) (h : Fin 16), s.stage = Stage.running ∧ site = SramSite.home h) ∧
    (∃ (site : SramSite) (s : Machine.State) (q : Fin 1024), s.stage = Stage.running ∧ site = SramSite.queue q) ∧
    (∃ (site : SramSite) (s : Machine.State) (n : Fin 8), s.stage = Stage.running ∧ site = SramSite.replay n) ∧
    (∃ (site : SramSite) (s : Machine.State) (m : Fin 96), s.stage = Stage.running ∧ site = SramSite.master m) ∧
    (∃ (site : SramSite) (s : Machine.State) (u : Fin 64) (k : Fin 8), s.stage = Stage.running ∧ site = SramSite.counter u k) ∧
    (∃ (site : SramSite) (s : Machine.State) (g : Fin 16) (slot : BitVec 4) (line : BitVec 40), s.stage = Stage.running ∧ site =
      SramSite.galLine g slot line) ∧
    (∃ (site : SramSite) (s : Machine.State) (twin : Bool) (m : BitVec 34), s.stage = Stage.running ∧ site = SramSite.mapLine
      twin m ∧ (List.find? (fun x => x.same { twin := twin, m := m.toNat, dirty := false }) s.map.cache = none)) :=
  ⟨⟨.home 5, run1, 5, by refine ⟨?_, ?_⟩ <;> first | with_reducible rfl | decide +kernel⟩,
   ⟨.queue 9, queue9, 9, by refine ⟨?_, ?_⟩ <;> first | with_reducible rfl | decide +kernel⟩,
   ⟨.replay 0, link0 cwACTIVE, 0, by refine ⟨?_, ?_⟩ <;> first | with_reducible rfl | decide +kernel⟩,
   ⟨.master 7, run1, 7, by refine ⟨?_, ?_⟩ <;> first | with_reducible rfl | decide +kernel⟩,
   ⟨.counter 7 1, run1, 7, 1, by refine ⟨?_, ?_⟩ <;> first | with_reducible rfl | decide +kernel⟩,
   ⟨.galLine 1 2 5, withLine 65 .e, 1, 2, 5, by refine ⟨?_, ?_⟩ <;> first | with_reducible rfl | decide +kernel⟩,
   ⟨.mapLine false 0, run2, false, 0, by refine ⟨?_, ?_, ?_⟩ <;> first | with_reducible rfl | decide +kernel⟩⟩

theorem wit_sram_and_decode_faults_2 :
    (∃ (site : SramSite) (s : Machine.State) (twin : Bool) (m : BitVec 34) (y : MapTag) (ma : ℕ), s.stage = Stage.running ∧ site
      = SramSite.mapLine twin m ∧ (List.find? (fun x => x.same { twin := twin, m := m.toNat, dirty := false }) s.map.cache =
      some y) ∧ y.dirty = false ∧ (s.mapMa { twin := twin, m := m.toNat, dirty := false } = some ma)) ∧
    (∃ (site : SramSite) (s : Machine.State) (twin : Bool) (m : BitVec 34) (y : MapTag), s.stage = Stage.running ∧ site =
      SramSite.mapLine twin m ∧ (List.find? (fun x => x.same { twin := twin, m := m.toNat, dirty := false }) s.map.cache = some
      y) ∧ y.dirty = true ∧ twin = true) ∧
    (∃ (site : SramSite) (s : Machine.State) (twin : Bool) (m : BitVec 34) (y : MapTag), s.stage = Stage.running ∧ site =
      SramSite.mapLine twin m ∧ (List.find? (fun x => x.same { twin := twin, m := m.toNat, dirty := false }) s.map.cache = some
      y) ∧ y.dirty = true ∧ twin = false) ∧
    (∃ (site : SramSite) (s : Machine.State), s.stage = Stage.running ∧ (site = SramSite.core ∨ site = SramSite.other)) ∧
    (∃ (h : Fin 16) (e : BitVec 8) (s : Machine.State), s.stage = Stage.running ∧ (s.tt (↑h) e.toNat = none ∨ s.mapReq (↑h)
      e.toNat false = none)) ∧
    (∃ (h : Fin 16) (e : BitVec 8) (s : Machine.State) (x : TT) (r : MapReq), s.stage = Stage.running ∧ s.tt (↑h) e.toNat = some
      x ∧ s.mapReq (↑h) e.toNat false = some r ∧ (x.memOut = false ∨ r.st ≠ ReqSt.served ∨ s.decoderOf x.line = none)) ∧
    (∃ (h : Fin 16) (e : BitVec 8) (s : Machine.State) (x : TT) (r : MapReq) (g : ℕ), s.stage = Stage.running ∧ s.tt (↑h)
      e.toNat = some x ∧ s.mapReq (↑h) e.toNat false = some r ∧ x.memOut = true ∧ r.st = ReqSt.served ∧ s.decoderOf x.line =
      some g ∧ g < 16 ∧ s.suspect g = false ∧ (s.suspect (g ^^^ 8) = false)) ∧
    (∃ (h : Fin 16) (e : BitVec 8) (s : Machine.State) (x : TT) (r : MapReq) (g : ℕ), s.stage = Stage.running ∧ s.tt (↑h)
      e.toNat = some x ∧ s.mapReq (↑h) e.toNat false = some r ∧ x.memOut = true ∧ r.st = ReqSt.served ∧ s.decoderOf x.line =
      some g ∧ g < 16 ∧ (s.suspect g = true ∨ s.suspect (g ^^^ 8) = true) ∧ ((s.dom (16 + g)).blks = [])) :=
  ⟨⟨.mapLine false 0, cached false false, false, 0, ⟨false, 0, false⟩, ((run2.mapMa ⟨false, 0, false⟩).getD 0), by refine ⟨?_, ?_, ?_, ?_, ?_⟩ <;> first | with_reducible rfl | decide +kernel⟩,
   ⟨.mapLine true 0, cached true true, true, 0, ⟨true, 0, true⟩, by refine ⟨?_, ?_, ?_, ?_, ?_⟩ <;> first | with_reducible rfl | decide +kernel⟩,
   ⟨.mapLine false 0, cached true false, false, 0, ⟨false, 0, true⟩, by refine ⟨?_, ?_, ?_, ?_, ?_⟩ <;> first | with_reducible rfl | decide +kernel⟩,
   ⟨.other, run1, by refine ⟨?_, ?_⟩ <;> first | with_reducible rfl | decide +kernel⟩,
   ⟨5, 3, run1, by decide +kernel⟩,
   ⟨5, 3, dtmo.setTT 5 3 tt0, tt0, servedReq false, by decide +kernel⟩,
   ⟨5, 3, dtmo, ttm, servedReq false, (dtmo.decoderOf 5).getD 0, by decide +kernel⟩,
   ⟨5, 3, dtmo.wr F.RAS_GAL_SUSPECT_GAL 65535, ttm, servedReq false, (dtmo.decoderOf 5).getD 0, by decide +kernel⟩⟩

abbrev ent3 : LdEntry := (own0.secs.ldEntry 3).getD ⟨0, 0, 0, false, 0, 0, 0⟩

theorem wit_sec_bind_bits :
    (∃ (who : Initiator) (id : BitVec 32) (req : Bytes) (s : Machine.State), s.stage = Stage.running ∧ s.vdmBusy = false ∧
      s.lcResult who id.toNat lcBIND req true = lcOk) ∧
    (∃ (who : Initiator) (id : BitVec 32) (req : Bytes) (s : Machine.State), s.stage = Stage.running ∧ s.vdmBusy = false ∧
      s.lcResult who id.toNat lcUNBIND req true = lcOk) ∧
    (∃ (who : Initiator) (id : BitVec 32) (req : Bytes) (nvsOk : Bool) (s : Machine.State), s.stage = Stage.running ∧ s.vdmBusy
      = false ∧ s.lcResult who id.toNat lcSET req nvsOk = lcOk) ∧
    (∃ (who : Initiator) (id : BitVec 32) (req : Bytes) (nvsOk : Bool) (s : Machine.State), s.stage = Stage.running ∧ s.vdmBusy
      = false ∧ s.lcResult who id.toNat lcSEAL req nvsOk = lcOk) ∧
    (∃ (who : Initiator) (id : BitVec 32) (req : Bytes) (nvsOk : Bool) (s : Machine.State), s.stage = Stage.running ∧ s.vdmBusy
      = false ∧ s.lcResult who id.toNat lcRETURN req nvsOk = lcOk) ∧
    (∃ (l : Fin 64) (s : Machine.State) (e : LdEntry), s.stage = Stage.running ∧ (s.secs.ldEntry ↑l).isSome = true ∧
      s.secs.ldEntry ↑l = some e ∧ s.on F.PRT_LINK_UP e.port = true) ∧
    (∃ (l : Fin 64) (s : Machine.State) (e : LdEntry), s.stage = Stage.running ∧ (s.secs.ldEntry ↑l).isSome = true ∧
      s.secs.ldEntry ↑l = some e ∧ s.on F.PRT_LINK_UP e.port = false) ∧
    (∃ (who : Initiator) (v : BitVec 32) (s : Machine.State), (Permitted s who (F.GEN_RST_GO.addr 0 0) true) ∧ F.GEN_RST_KEY.of
      v.toNat = 42435 ∧ (v.toNat % 2 = 1)) ∧
    (∃ (station : Fin 8) (s : Machine.State), s.stage = Stage.running ∧ s.perst.contains ↑station = false) :=
  ⟨⟨.ld 3, 9, [0x13, 63, 0, 0], key0, by decide +kernel⟩,
   ⟨.ld 3, 9, [0x14, 3, 0, 0], key0, by decide +kernel⟩,
   ⟨.mctp, 9, setReq, true, blankS, by decide +kernel⟩,
   ⟨.ld 3, 9, [0x11, 0, 0, 0, 0x53, 0x45, 0x41, 0x4C], true, key0, by decide +kernel⟩,
   ⟨.ld 3, 9, [0x12, 0, 0, 0, 0x52, 0x54, 0x52, 0x4E], true, key0, by decide +kernel⟩,
   ⟨3, own0.wr F.PRT_LINK_UP 1 0, ent3, by decide +kernel⟩,
   ⟨3, own0, ent3, by decide +kernel⟩,
   ⟨.cc, 0xA5C30001, run1, by unfold Permitted; decide +kernel⟩,
   ⟨0, own0, by decide +kernel⟩⟩

abbrev wa : LineAcc := { acc0 with write := true }
abbrev drn : State := (chan0 { inq := [wa], drain := true }).wr F.DRC_RANK_STATUS_STATE rankACTIVE 0 0 |>.fillBanks 0

theorem wit_write_drain :
    (∃ (c : ℕ) (n : ℕ) (s : Machine.State), (n = (List.filter (fun x => x.write) (s.chan c).queued).length) ∧ s.rd
      F.DRC_SCHED_WR_LO c < s.rd F.DRC_SCHED_WR_HI c ∧ s.rd F.DRC_SCHED_WR_HI c ≤ n) ∧
    (∃ (c : ℕ) (n : ℕ) (s : Machine.State), (n = (List.filter (fun x => x.write) (s.chan c).queued).length) ∧ s.rd
      F.DRC_SCHED_WR_LO c < s.rd F.DRC_SCHED_WR_HI c ∧ n ≤ s.rd F.DRC_SCHED_WR_LO c) ∧
    (∃ (c : ℕ) (n : ℕ) (s : Machine.State), (n = (List.filter (fun x => x.write) (s.chan c).queued).length) ∧ s.rd
      F.DRC_SCHED_WR_LO c < s.rd F.DRC_SCHED_WR_HI c ∧ s.rd F.DRC_SCHED_WR_LO c < n ∧ n < s.rd F.DRC_SCHED_WR_HI c) ∧
    (∃ (c : Fin 16) (sub : ℕ) (s : Machine.State) (x : Cand), (s.chan ↑c).drain = true ∧ s.rd F.DRC_STATUS_PANIC ↑c = 0 ∧ (x ∈
      s.cands (↑c) sub)) ∧
    (∃ (c : Fin 16) (ranks : BitVec 4) (r : Fin 4) (s : Machine.State), s.stage = Stage.running ∧ ranks.getLsbD ↑r = true ∧ s.rd
      F.DRC_RANK_STATUS_STATE ↑c ↑r = rankACTIVE ∧ s.rd F.DRC_RANK_STATUS_POSTPONE ↑c ↑r = 4 ∧ (∀ (r' : Fin 4), ↑r' < ↑r →
      ranks.getLsbD ↑r' = false)) ∧
    (∃ (c : Fin 16) (s : Machine.State) (u : Machine.State), (u = s.onChan ↑c fun y =>
      { wait := y.wait, inq := y.inq, bq := y.bq, issued := y.issued, rows := y.rows, lastBg := y.lastBg, drain := true, panic0 := y.panic0, panic1 := y.panic1, phaseA := y.phaseA, readSt := y.readSt, mr4 := y.mr4, dies := y.dies, passN := y.passN, passFrom := y.passFrom, loftAt := y.loftAt, passing := y.passing, ppr := y.ppr, entered := y.entered })
      ∧ (((s.chan ↑c).bq.all fun a => a.rt.isSome) = true)) :=
  ⟨⟨0, 48, chan0 { inq := List.replicate 48 wa }, by refine ⟨?_, ?_, ?_⟩ <;> first | with_reducible rfl | decide +kernel⟩,
   ⟨0, 16, chan0 { inq := List.replicate 16 wa }, by refine ⟨?_, ?_, ?_⟩ <;> first | with_reducible rfl | decide +kernel⟩,
   ⟨0, 17, chan0 { inq := List.replicate 17 wa }, by refine ⟨?_, ?_, ?_, ?_⟩ <;> first | with_reducible rfl | decide +kernel⟩,
   ⟨0, 0, drn, (drn.cands 0 0).headD cand0, by decide +kernel⟩,
   ⟨0, 1, 0, (chanQ.wr F.DRC_RANK_STATUS_POSTPONE 4 0 0), by decide +kernel⟩,
   ⟨0, chan0 {}, chan0 { drain := true }, by refine ⟨?_, ?_⟩ <;> first | with_reducible rfl | decide +kernel⟩⟩

theorem wit_hold_time :
    (∃ (ss : Sections), le (ss.get secTIER) 0 2 ≤ ss.limitVal 2 ∧ ss.limitVal 2 ≤ 1000) ∧
    (∃ (ss : Sections), (∀ x ∈ ss.limo, x.1 ≠ 2)) ∧
    (∃ (ss : Sections) (m : ℕ), (List.find? (fun x => x.1 == 2) ss.limo = some (2, m))) ∧
    (∃ (who : Initiator) (s : Machine.State) (off : BitVec 26), off.toNat = F.MAP_HOLD_HOLD_US.addr 0 0 ∧ (Permitted s who
      off.toNat true) ∧ 1 ≤ s.secs.limitVal 2 ∧ s.secs.limitVal 2 ≤ 1000) :=
  ⟨⟨secs, by decide +kernel⟩,
   ⟨secs, by decide +kernel⟩,
   ⟨(secLIMO, [2, 0, 0, 0, 44, 0, 0, 0]) :: secs, 44, by decide +kernel⟩,
   ⟨.cc, run1, BitVec.ofNat 26 (F.MAP_HOLD_HOLD_US.addr 0 0), by unfold Permitted; decide +kernel⟩⟩

end Sys2Proof.Tests
end

/-!
# Every command answers a next state (R3, R386, R430)

No meaning can stop the block: each is a transformer of the state behind one of the gates `onDie`, `onClock`, `onInlet` and
`onTap`, and a gate answers a next state whether it lets the transformer through or not. FLR alone looks at the stage before
its gate.
-/

namespace Sys2Proof.Machine

/-- The outcome is a next state: neither a fault nor a refusal. -/
def Answers (o : Outcome) : Prop := ∃ t, o = .next t

theorem onDie_answers (s : State) (f : State → State) : Answers (onDie s f) := ⟨_, rfl⟩

/-- An FLR in the self-test only falls due; at any other time it is a command to the die. -/
theorem execFlr_answers (ld : Fin 64) (s : State) : Answers (execFlr ld s) := by
  unfold execFlr
  split
  · exact ⟨_, rfl⟩
  · exact onDie_answers ..

/-- Every meaning but that of FLR computes to the answer of its gate, whatever the state is. -/
theorem exec_answers (c : Instr) (s : State) : Answers (exec c s) := by
  cases c with
  | flr ld => exact execFlr_answers ld s
  | _ => exact ⟨_, rfl⟩

/-- Settles O2, by the gate that each command's meaning stands behind. -/
theorem everyCommandAnswers : Obligations.EveryCommandAnswers := by
  unfold Obligations.EveryCommandAnswers
  exact exec_answers

/-! # Reset values (R4, R403) -/

/-- After reset every field reads its reset value. -/
@[simp] theorem State.rd_reset (f : Field) (i j : Nat) : State.reset.rd f i j = f.resetAt i j := rfl

/-- Settles O10: after reset nothing is written, so every field reads the value that its table gives for reset. -/
theorem resetValues : Obligations.ResetValues := by
  unfold Obligations.ResetValues
  simp only [State.rd_reset]
  exact ⟨rfl, rfl, rfl, rfl, rfl, rfl, fun _ _ => ⟨rfl, rfl, rfl, rfl⟩, fun _ _ => ⟨rfl, rfl, rfl⟩, rfl, rfl, rfl, rfl⟩

end Sys2Proof.Machine

/-!
# Register accesses (R4, R431 to R433)

A BAR0 access that is aligned, outside the queues' windows and made while no session's end waits to be recorded is one of
`writeWhole`, `writeLower`, `writeUpper`, `readWhole` and `readLower`, or a counted violation: one rule for each, and one
for what a write does to a field of each access type.
-/

namespace Sys2Proof.Machine

/-! ### Fields -/

theorem Field.of_lt (f : Field) (v : Nat) : f.of v < 2 ^ f.width := Nat.mod_lt _ (Nat.two_pow_pos _)

@[simp] theorem Field.of_mod (f : Field) (v : Nat) : f.of v % 2 ^ f.width = f.of v := Nat.mod_eq_of_lt (f.of_lt v)

/-- A one-bit field's part of a word. -/
theorem Field.of_bit {f : Field} {k : Nat} (hhi : f.hi = k) (hlo : f.lo = k) (v : Nat) : f.of v = v / 2 ^ k % 2 := by
  simp [Field.of, bits, hhi, hlo]

section
variable {s : State} {who : Initiator} {f g : Field} {i j k l v : Nat}

/-- A write of a field leaves every field with another key as it was. -/
theorem State.rd_writeField_ne (h : g.key k l ≠ f.key i j) : (s.writeField who f i j v).rd g k l = s.rd g k l := by
  unfold State.writeField
  split
  case h_2 => split <;> simp [State.rd_wr_ne _ _ h]
  case h_3 => split <;> simp [State.rd_wr_ne _ _ h]
  all_goals simp [State.rd_wr_ne _ _ h]

theorem State.rd_writeField_rw (h : f.acc = .rw) : (s.writeField who f i j v).rd f i j = f.of v := by
  simp [State.writeField, h]

theorem State.rd_writeField_rwl (h : f.acc = .rwl) :
    (s.writeField who f i j v).rd f i j = if s.locked f i then s.rd f i j else f.of v := by
  simp only [State.writeField, h]
  split <;> simp

theorem State.rd_writeField_w1s (h : f.acc = .w1s) :
    (s.writeField who f i j v).rd f i j = Nat.lor (s.rd f i j) (f.of v) % 2 ^ f.width := by
  simp [State.writeField, h]

theorem State.rd_writeField_w1c (h : f.acc = .w1c) :
    (s.writeField who f i j v).rd f i j = Nat.land (s.rd f i j) (2 ^ f.width - 1 - f.of v) % 2 ^ f.width := by
  simp [State.writeField, h]

/-- W1S on one bit `a`: a 1 sets it, a 0 leaves it. -/
theorem lor_bit {a x : Nat} (ha : a ≤ 1) (hx : x ≤ 1) : Nat.lor a x % 2 ^ 1 = if x = 1 then 1 else a := by
  interval_cases a <;> interval_cases x <;> rfl

/-- W1C on one bit `a`: a 1 clears it, a 0 leaves it. -/
theorem land_not_bit {a x : Nat} (ha : a ≤ 1) (hx : x ≤ 1) :
    Nat.land a (2 ^ 1 - 1 - x) % 2 ^ 1 = if x = 1 then 0 else a := by
  interval_cases a <;> interval_cases x <;> rfl

/-- The listed fields have different keys. -/
abbrev KeysApart (l : List (Field × Nat × Nat)) : Prop := l.Pairwise (fun x y => x.1.key x.2.1 x.2.2 ≠ y.1.key y.2.1 y.2.2)

/-- An update of one field after another leaves a field that is not listed as it was. -/
theorem State.rd_foldl_ne {l : List (Field × Nat × Nat)} {upd : State → Field × Nat × Nat → State}
    (hne : ∀ t x, f.key i j ≠ x.1.key x.2.1 x.2.2 → (upd t x).rd f i j = t.rd f i j)
    (hl : ∀ x ∈ l, f.key i j ≠ x.1.key x.2.1 x.2.2) : (l.foldl upd s).rd f i j = s.rd f i j := by
  induction l generalizing s with
  | nil => rfl
  | cons x l ih =>
    obtain ⟨hx, hl⟩ := List.forall_mem_cons.1 hl
    rw [List.foldl_cons, ih hl, hne s x hx]

/-- An update of one field after another changes a listed field once: from its old value to `φ` of it. -/
theorem State.rd_foldl_mem {l : List (Field × Nat × Nat)} {upd : State → Field × Nat × Nat → State} {φ : Nat → Nat}
    (hne : ∀ t x, f.key i j ≠ x.1.key x.2.1 x.2.2 → (upd t x).rd f i j = t.rd f i j)
    (hφ : ∀ t, (upd t (f, i, j)).rd f i j = φ (t.rd f i j)) (hm : (f, i, j) ∈ l) (hd : KeysApart l) :
    (l.foldl upd s).rd f i j = φ (s.rd f i j) := by
  induction l generalizing s with
  | nil => cases hm
  | cons x l ih =>
    obtain ⟨hx, hd⟩ := List.pairwise_cons.1 hd
    rw [List.foldl_cons]
    rcases List.mem_cons.1 hm with rfl | hm
    · rw [State.rd_foldl_ne hne hx, hφ]
    · rw [ih hm hd, hne s x (hx _ hm).symm]

/-- A field of a written register whose new value hangs on its old one alone takes that value. -/
theorem State.rd_writeWord {off : Nat} {φ : Nat → Nat} (hm : (f, i, j) ∈ fieldsAt off) (hd : KeysApart (fieldsAt off))
    (hφ : ∀ t : State, (t.writeField who f i j v).rd f i j = φ (t.rd f i j)) :
    (s.writeWord who off v).rd f i j = φ (s.rd f i j) :=
  State.rd_foldl_mem (fun _ _ h => State.rd_writeField_ne h) hφ hm hd

/-- Table 0-5: a one-bit W1C field of a register is cleared by a 1 and keeps its value at a 0. -/
theorem State.rd_writeWord_w1c_bit {off n : Nat} (hm : (f, i, j) ∈ fieldsAt off) (hd : KeysApart (fieldsAt off))
    (hacc : f.acc = .w1c) (hhi : f.hi = n) (hlo : f.lo = n) (hs : s.rd f i j ≤ 1) :
    (s.writeWord who off v).rd f i j = if v.testBit n then 0 else s.rd f i j := by
  have hw : f.width = 1 := by simp [Field.width, hhi, hlo]
  have hx : v / 2 ^ n % 2 ≤ 1 := by omega
  rw [State.rd_writeWord (φ := fun a => Nat.land a (2 ^ f.width - 1 - f.of v) % 2 ^ f.width) hm hd
    (fun t => State.rd_writeField_w1c hacc), hw, Field.of_bit hhi hlo, land_not_bit hs hx,
    Nat.testBit_eq_decide_div_mod_eq]
  simp

/-- R4: an RC field that the read takes reads zero afterwards. -/
theorem State.rd_readClear {off : Nat} {sel : Field → Bool} (hm : (f, i, j) ∈ fieldsAt off) (hd : KeysApart (fieldsAt off))
    (hacc : f.acc = .rc) (hsel : sel f = true) : (s.readClear off sel).rd f i j = 0 := by
  refine State.rd_foldl_mem (φ := fun _ => 0) (fun t x h => ?_) (fun t => ?_) hm hd
  · split
    · exact State.rd_wr_ne _ _ h
    · rfl
  · simp [hacc, hsel]

end

/-! ### What an access leaves unchanged -/

/-- The RC fields that a read clears are all that it changes. -/
theorem State.readClear_eq (s : State) (off : Nat) (sel : Field → Bool) :
    s.readClear off sel = { s with regs := (s.readClear off sel).regs } := by
  unfold State.readClear
  generalize fieldsAt off = l
  induction l generalizing s with
  | nil => rfl
  | cons x l ih =>
    rw [List.foldl_cons, ih]
    split <;> rfl

theorem State.readClear_out (s : State) (off : Nat) (sel : Field → Bool) : (s.readClear off sel).out = s.out :=
  (congrArg State.out (s.readClear_eq off sel) :)

theorem State.readClear_sec (s : State) (off : Nat) (sel : Field → Bool) : (s.readClear off sel).sec = s.sec :=
  (congrArg State.sec (s.readClear_eq off sel) :)

theorem State.readClear_sameStore (s : State) (off : Nat) (sel : Field → Bool) : SameStore s (s.readClear off sel) := by
  rw [s.readClear_eq off sel]
  exact ⟨rfl, rfl, rfl, rfl, rfl, rfl⟩

theorem State.showMeas_out (s : State) (c : Nat) : (s.showMeas c).out = s.out := by
  unfold State.showMeas
  dsimp only
  split <;> split <;> rfl

/-- A read that brings what it shows up to date drives nothing to the outside. -/
theorem State.latest_out (s : State) (off : Nat) : (s.latest off).out = s.out := by
  unfold State.latest
  split
  case h_1 =>
    split
    · rfl
    · split <;> rfl
  case h_3 =>
    split
    · exact State.showMeas_out ..
    · rfl
  case h_6 => rfl
  all_goals split <;> rfl

/-- What a read of a live register shows. -/
theorem State.show_live (s : State) {off : Nat} (h : s.liveReg off = true) :
    s.show off = ((s.latest off).readWord off, s.latest off) := if_pos h

/-- R3: a reserved offset reads as zero. -/
theorem State.show_reserved (s : State) {off : Nat} (h : s.liveReg off = false) : s.show off = (0, s) :=
  if_neg (by simp [h])

/-- R386: what a violation leaves in SEC_VIOL_LAST and SEC_IRQ. -/
theorem State.rd_violate (s : State) (who : Initiator) (off : BitVec 26) (write : Bool) :
    (s.violate who off.toNat write).rd F.SEC_VIOL_LAST_OFFSET = off.toNat ∧
    (s.violate who off.toNat write).rd F.SEC_VIOL_LAST_INITIATOR = initNum who ∧
    (s.violate who off.toNat write).rd F.SEC_IRQ_VIOL = 1 := by
  have hw : initNum who < 2 ^ F.SEC_VIOL_LAST_INITIATOR.width := by
    cases who with
    | ld l => exact Nat.lt_trans l.isLt (by decide)
    | _ => decide
  have ho : off.toNat < 2 ^ F.SEC_VIOL_LAST_OFFSET.width := off.isLt
  unfold State.violate
  refine ⟨?_, ?_, ?_⟩
  · rw [State.set_eq, State.rd_wr_ne _ _ (by decide), State.rd_wr_same, Nat.mod_eq_of_lt ho]
  · rw [State.set_eq, State.rd_wr_ne _ _ (by decide), State.rd_wr_ne _ _ (by decide), State.rd_wr_same, Nat.mod_eq_of_lt hw]
  · rw [State.set_eq, State.rd_wr_same]; rfl

/-! ### The accesses

Each is stated of the access to an aligned BAR0 offset, and then of the command that makes it. -/

section
variable {s : State} {who : Initiator} {off : Nat}

/-- With no end of a session to record, a write is its access alone (R390). -/
theorem State.barStore_eq (he : s.sec.endLater = false) (size v : Nat) :
    s.barStore who off size v = s.writeAccess who off size v := by
  simp [State.barStore, State.accessing_self he, he, State.firstAccess]

/-- With no end of a session to record, a read is its access alone (R390). -/
theorem State.barRead_eq (he : s.sec.endLater = false) (size : Nat) :
    s.barRead who off size = s.readAccess who off size := by
  simp [State.barRead, State.accessing_self he, he, State.firstAccess]

theorem State.access_permitted {write : Bool} (hm : s.may who off write = true) :
    s.access who off write = (true, s) := if_pos hm

theorem State.access_forbidden {write : Bool} (hm : s.may who off write = false) :
    s.access who off write = (false, s.violate who off write) := if_neg (by simp [hm])

/-- R431: a permitted 8-byte write. -/
theorem State.barStore_whole (v : Nat) (h : Permitted s who off true) (ha : off % 8 = 0) (hw : window off = none) :
    s.barStore who off 8 v = (s.dropHalves who off).writeReg who off v := by
  obtain ⟨_, he, hm⟩ := h
  have hat : off / 8 * 8 = off := by omega
  simp [State.barStore_eq he, State.writeAccess, State.access_permitted hm, State.writeWhole, hw, ha, hat]

/-- R433: a permitted write of bits 31 to 0. -/
theorem State.barStore_lower (v : Nat) (h : Permitted s who off true) (ha : off % 8 = 0) (hw : window off = none) :
    s.barStore who off 4 v = s.writeLower who off v := by
  obtain ⟨_, he, hm⟩ := h
  have hat : off / 8 * 8 = off := by omega
  have h4 : off % 4 = 0 := by omega
  simp [State.barStore_eq he, State.writeAccess, State.access_permitted hm, hw, ha, h4, hat]

/-- R386, R433: a forbidden write of bits 31 to 0. -/
theorem State.barStore_lower_forbidden (v : Nat) (he : s.sec.endLater = false) (hm : s.may who off true = false)
    (ha : off % 8 = 0) (hw : window off = none) :
    s.barStore who off 4 v = (s.violate who off true).dropHalves who off := by
  have hat : off / 8 * 8 = off := by omega
  have h4 : off % 4 = 0 := by omega
  simp [State.barStore_eq he, State.writeAccess, State.access_forbidden hm, hw, h4, hat]

/-- R433: a permitted write of bits 63 to 32. -/
theorem State.barStore_upper (v : Nat) (h : Permitted s who (off + 4) true) (ha : off % 8 = 0)
    (hw : window (off + 4) = none) : s.barStore who (off + 4) 4 v = s.writeUpper who off v := by
  obtain ⟨_, he, hm⟩ := h
  have hat : (off + 4) / 8 * 8 = off := by omega
  have h4 : (off + 4) % 4 = 0 := by omega
  have h8 : (off + 4) % 8 ≠ 0 := by omega
  simp [State.barStore_eq he, State.writeAccess, State.access_permitted hm, hw, h4, h8, hat]

/-- R431: a permitted 8-byte read. -/
theorem State.barRead_whole (h : Permitted s who off false) (ha : off % 8 = 0) (hw : window off = none) :
    s.barRead who off 8 = s.readWhole who off := by
  obtain ⟨_, he, hm⟩ := h
  have hat : off / 8 * 8 = off := by omega
  simp [State.barRead_eq he, State.readAccess, State.access_permitted hm, hw, ha, hat]

/-- R432: a permitted read of bits 31 to 0. -/
theorem State.barRead_lower (h : Permitted s who off false) (ha : off % 8 = 0) (hw : window off = none) :
    s.barRead who off 4 = s.readLower who off := by
  obtain ⟨_, he, hm⟩ := h
  have hat : off / 8 * 8 = off := by omega
  have h4 : off % 4 = 0 := by omega
  simp [State.barRead_eq he, State.readAccess, State.access_permitted hm, hw, ha, h4, hat]

end

section
variable {s : State} {who : Initiator} {off : BitVec 26}

theorem exec_registerWrite (data : BitVec 64) (h : Permitted s who off.toNat true) (ha : off.toNat % 8 = 0)
    (hw : window off.toNat = none) :
    exec (.registerWrite who off data) s = .next ((s.dropHalves who off.toNat).writeReg who off.toNat data.toNat) := by
  change execRegisterWrite who off data s = _
  rw [execRegisterWrite, onDie_running h.1, State.barStore_whole _ h ha hw]

theorem exec_lowerHalfWrite (data : BitVec 32) (h : Permitted s who off.toNat true) (ha : off.toNat % 8 = 0)
    (hw : window off.toNat = none) :
    exec (.lowerHalfWrite who off data) s = .next (s.writeLower who off.toNat data.toNat) := by
  have hat : off.toNat / 8 * 8 = off.toNat := by omega
  change execLowerHalfWrite who off data s = _
  rw [execLowerHalfWrite, onDie_running h.1, hat, State.barStore_lower _ h ha hw]

theorem exec_lowerHalfWrite_forbidden (data : BitVec 32) (hs : s.stage = .running) (he : s.sec.endLater = false)
    (ha : off.toNat % 8 = 0) (hw : window off.toNat = none) (hm : s.may who off.toNat true = false) :
    exec (.lowerHalfWrite who off data) s = .next ((s.violate who off.toNat true).dropHalves who off.toNat) := by
  have hat : off.toNat / 8 * 8 = off.toNat := by omega
  change execLowerHalfWrite who off data s = _
  rw [execLowerHalfWrite, onDie_running hs, hat, State.barStore_lower_forbidden _ he hm ha hw]

theorem exec_upperHalfWrite (data : BitVec 32) (h : Permitted s who (off.toNat + 4) true) (ha : off.toNat % 8 = 0)
    (hw : window (off.toNat + 4) = none) :
    exec (.upperHalfWrite who off data) s = .next (s.writeUpper who off.toNat data.toNat) := by
  have hat : off.toNat / 8 * 8 = off.toNat := by omega
  change execUpperHalfWrite who off data s = _
  rw [execUpperHalfWrite, onDie_running h.1, hat, State.barStore_upper _ h ha hw]

theorem exec_rcRead (h : Permitted s who off.toNat false) (ha : off.toNat % 8 = 0) (hw : window off.toNat = none) :
    exec (.rcRead who off true) s =
      .next ((s.readWhole who off.toNat).2.emit (.bar0 who off.toNat (s.readWhole who off.toNat).1)) := by
  change execRcRead who off true s = _
  rw [execRcRead, onDie_running h.1, if_pos rfl, State.answerRead, State.barRead_whole h ha hw]

theorem exec_halfReadCapture (h : Permitted s who off.toNat false) (ha : off.toNat % 8 = 0)
    (hw : window off.toNat = none) :
    exec (.halfReadCapture who off) s =
      .next ((s.readLower who off.toNat).2.emit (.bar0 who off.toNat (s.readLower who off.toNat).1)) := by
  have hat : off.toNat / 8 * 8 = off.toNat := by omega
  change execHalfReadCapture who off s = _
  rw [execHalfReadCapture, onDie_running h.1, hat, State.answerRead, State.barRead_lower h ha hw]

end

/-! ### Three registers of the KEY block (Table 0-5) -/

/-- KEY_CTL. -/
theorem fieldsAt_keyCtl : fieldsAt 0xE00000 = [(F.KEY_CTL_SLOT0_CONCEAL, 0, 0), (F.KEY_CTL_LOCK, 0, 0)] := by
  decide +kernel

/-- KEY_ERR. -/
theorem fieldsAt_keyErr : fieldsAt 0xE00010 = [(F.KEY_ERR_INTEG_FAIL, 0, 0), (F.KEY_ERR_EMPTY_USE, 0, 0),
    (F.KEY_ERR_PROG_REFUSED, 0, 0), (F.KEY_ERR_REGION_REJECT, 0, 0)] := by decide +kernel

/-- KEY_IRQ. -/
theorem fieldsAt_keyIrq : fieldsAt 0xE00018 = [(F.KEY_IRQ_EN, 0, 0), (F.KEY_IRQ_REKEY_DONE, 0, 0),
    (F.KEY_IRQ_PROG, 0, 0), (F.KEY_IRQ_EMPTY_USE, 0, 0), (F.KEY_IRQ_INTEG, 0, 0)] := by decide +kernel

/-- In a block of one copy, no offset below a field's register is one of that field. -/
theorem Field.at_below {f : Field} {off : Nat} (hs : f.blk.stride = 0) (h : off < f.blk.base + f.off) : f.at off = none := by
  unfold Field.at
  dsimp only
  split
  · rfl
  · rw [if_pos]
    simp only [hs, Nat.zero_mul, Nat.sub_zero, Bool.or_eq_true, decide_eq_true_eq]
    omega

/-- A write of a live register of the KEY block below its slots and regions is a write of its fields. -/
theorem State.writeReg_key {off : Nat} (s : State) (who : Initiator) (v : Nat) (hl : s.liveReg off = true)
    (ho : 0xE00000 ≤ off ∧ off < 0xE01000) : s.writeReg who off v = s.writeWord who off v := by
  have hr : regionOf off = some .key := by
    unfold regionOf
    repeat rw [if_neg (by omega)]
    rw [if_pos (by omega)]
  have hcfg : F.KEY_REG_CFG_VALID.at off = none :=
    Field.at_below rfl (by simp only [F.KEY_REG_CFG_VALID, Blk.base]; omega)
  have hbase : F.KEY_REG_BASE_BASE.at (off / 32 * 32) = none :=
    Field.at_below rfl (by simp only [F.KEY_REG_BASE_BASE, Blk.base]; omega)
  simp only [State.writeReg, hl, hr, State.writeKey, hcfg, hbase]
  rfl

theorem State.writeReg_keyCtl (s : State) (who : Initiator) (v : Nat) :
    s.writeReg who 0xE00000 v =
      (s.writeField who F.KEY_CTL_SLOT0_CONCEAL 0 0 v).writeField who F.KEY_CTL_LOCK 0 0 v := by
  have hl : s.liveReg 0xE00000 = true := by simp only [State.liveReg, fieldsAt_keyCtl]; rfl
  rw [State.writeReg_key s who v hl (by decide), State.writeWord, fieldsAt_keyCtl]
  rfl

/-- R4: a write of KEY_CTL. The lock is looked at before the same write sets it. -/
theorem State.rd_writeReg_keyCtl (s : State) (who : Initiator) (v : Nat) :
    (s.writeReg who 0xE00000 v).rd F.KEY_CTL_SLOT0_CONCEAL =
      (if s.rd F.KEY_CTL_LOCK = 0 then v / 2 % 2 else s.rd F.KEY_CTL_SLOT0_CONCEAL) ∧
    (s.rd F.KEY_CTL_LOCK ≤ 1 →
      (s.writeReg who 0xE00000 v).rd F.KEY_CTL_LOCK = if v % 2 = 1 then 1 else s.rd F.KEY_CTL_LOCK) := by
  rw [State.writeReg_keyCtl]
  constructor
  · have hlock : s.locked F.KEY_CTL_SLOT0_CONCEAL 0 = (s.rd F.KEY_CTL_LOCK != 0) := rfl
    rw [State.rd_writeField_ne (by decide), State.rd_writeField_rwl rfl, Field.of_bit (k := 1) rfl rfl, hlock]
    simp
  · intro hb
    have hx : v / 2 ^ 0 % 2 ≤ 1 := by omega
    rw [State.rd_writeField_w1s rfl, State.rd_writeField_ne (by decide), Field.of_bit (k := 0) rfl rfl]
    exact (lor_bit hb hx).trans (by simp)

/-- R4: a write of KEY_IRQ. -/
theorem State.rd_writeReg_keyIrq (s : State) (who : Initiator) (v : Nat) :
    (s.writeReg who 0xE00018 v).rd F.KEY_IRQ_EN = v / 2 ^ 16 % 16 ∧
    ∀ x ∈ [(0, F.KEY_IRQ_INTEG), (1, F.KEY_IRQ_EMPTY_USE), (2, F.KEY_IRQ_PROG), (3, F.KEY_IRQ_REKEY_DONE)], s.rd x.2 ≤ 1 →
      (s.writeReg who 0xE00018 v).rd x.2 = if v.testBit x.1 then 0 else s.rd x.2 := by
  have hl : s.liveReg 0xE00018 = true := by simp only [State.liveReg, fieldsAt_keyIrq]; rfl
  have hd : KeysApart (fieldsAt 0xE00018) := by rw [fieldsAt_keyIrq]; decide
  have hbits : ∀ x ∈ [(0, F.KEY_IRQ_INTEG), (1, F.KEY_IRQ_EMPTY_USE), (2, F.KEY_IRQ_PROG), (3, F.KEY_IRQ_REKEY_DONE)],
      (x.2, 0, 0) ∈ fieldsAt 0xE00018 ∧ x.2.acc = .w1c ∧ x.2.hi = x.1 ∧ x.2.lo = x.1 := by
    rw [fieldsAt_keyIrq]; decide
  rw [State.writeReg_key s who v hl (by decide)]
  constructor
  · exact State.rd_writeWord (φ := fun _ => _) (by rw [fieldsAt_keyIrq]; decide) hd (fun t => State.rd_writeField_rw rfl)
  · intro x hx hb
    obtain ⟨hm, hacc, hhi, hlo⟩ := hbits x hx
    exact State.rd_writeWord_w1c_bit hm hd hacc hhi hlo hb

theorem State.readWhole_keyErr (s : State) (who : Initiator) :
    s.readWhole who 0xE00010 = (s.readWord 0xE00010, (s.dropHalves who 0xE00010).readClear 0xE00010) := by
  have hl : s.liveReg 0xE00010 = true := by simp only [State.liveReg, fieldsAt_keyErr]; rfl
  rw [State.readWhole, State.show_live (s.dropHalves who 0xE00010) hl]
  rfl

/-- R4: a read of KEY_ERR clears its four counts. -/
theorem State.rd_readClear_keyErr (s : State) : ∀ f ∈ [F.KEY_ERR_INTEG_FAIL, F.KEY_ERR_EMPTY_USE, F.KEY_ERR_PROG_REFUSED,
    F.KEY_ERR_REGION_REJECT], (s.readClear 0xE00010).rd f = 0 := by
  have hd : KeysApart (fieldsAt 0xE00010) := by rw [fieldsAt_keyErr]; decide
  have hrc : ∀ f ∈ [F.KEY_ERR_INTEG_FAIL, F.KEY_ERR_EMPTY_USE, F.KEY_ERR_PROG_REFUSED, F.KEY_ERR_REGION_REJECT],
      (f, 0, 0) ∈ fieldsAt 0xE00010 ∧ f.acc = .rc := by
    rw [fieldsAt_keyErr]; decide
  intro f hf
  obtain ⟨hm, hacc⟩ := hrc f hf
  exact State.rd_readClear hm hd hacc rfl

theorem exec_rcRead_keyErr {s : State} {who : Initiator} (h : Permitted s who 0xE00010 false) :
    exec (.rcRead who 0xE00010 true) s =
      .next (((s.dropHalves who 0xE00010).readClear 0xE00010).emit (.bar0 who 0xE00010 (s.readWord 0xE00010))) := by
  have hoff : (0xE00010 : BitVec 26).toNat = 0xE00010 := rfl
  rw [exec_rcRead h rfl rfl, hoff, State.readWhole_keyErr]

/-! ### Halves (R432, R433) -/

section
variable {s : State} {who : Initiator} {off v : Nat}

/-- R432: a read of the lower half of a live register answers it, clears its RC fields and captures the register. -/
theorem State.readLower_live (h : s.liveReg off = true) {w : State} (hw : w = (s.dropHalves who off).latest off) :
    s.readLower who off = (w.readWord off % 2 ^ 32,
      { w.readClear off (fun f => f.hi < 32) with
        sec := { w.sec with captures := w.sec.captures ++ [(who, off, w.readWord off)] } }) := by
  subst hw
  rw [State.readLower, State.show_live (s.dropHalves who off) h]
  simp only [State.readClear_sec]

/-- R3, R432: a read of the lower half of a reserved offset. -/
theorem State.readLower_reserved (h : s.liveReg off = false) :
    s.readLower who off = (0, { (s.dropHalves who off).readClear off (fun f => f.hi < 32) with
      sec := { (s.dropHalves who off).sec with captures := (s.dropHalves who off).sec.captures ++ [(who, off, 0)] } }) := by
  rw [State.readLower, State.show_reserved (s.dropHalves who off) h]
  simp only [State.readClear_sec, Nat.zero_mod]

/-- R433: a lower half of a register with a field across bit 32 is staged. -/
theorem State.writeLower_staged (h : (fieldsAt off).any (fun x => x.1.spans) = true) :
    s.writeLower who off v = { s.dropHalves who off with
      sec := { (s.dropHalves who off).sec with staged := (s.dropHalves who off).sec.staged ++ [(who, off, v)] } } :=
  if_pos h

/-- R433: with no field across bit 32, a lower half writes the fields wholly within it. -/
theorem State.writeLower_direct (h : (fieldsAt off).any (fun x => x.1.spans) = false)
    (hf : (fieldsAt off).any (fun x => x.1.hi < 32) = true) :
    s.writeLower who off v = (s.dropHalves who off).writeReg who off
      ((s.dropHalves who off).halfValue off v (fun f => f.hi < 32)) :=
  (if_neg (by simp [h])).trans (if_pos hf)

/-- R433: an upper half joins the staged lower half. -/
theorem State.writeUpper_staged {lower : Nat}
    (h : s.sec.staged.find? (fun x => x.1 == who && x.2.1 == off) = some (who, off, lower)) :
    s.writeUpper who off v = (s.dropHalves who off).writeReg who off (lower + v * 2 ^ 32) := by
  simp only [State.writeUpper, h]

/-- R433: with no lower half staged, an upper half writes the fields wholly within it. -/
theorem State.writeUpper_direct (h : s.sec.staged.find? (fun x => x.1 == who && x.2.1 == off) = none)
    (hf : (fieldsAt off).any (fun x => 32 ≤ x.1.lo) = true) :
    s.writeUpper who off v = (s.dropHalves who off).writeReg who off
      ((s.dropHalves who off).halfValue off (v * 2 ^ 32) (fun f => 32 ≤ f.lo)) := by
  simp only [State.writeUpper, h, if_pos hf]

/-- R433: staging a lower half and writing the upper half is writing the register whole. -/
theorem exec_upperHalfWrite_eq_registerWrite {off : BitVec 26} {data lower : BitVec 32}
    (hp : Permitted s who off.toNat true) (hm4 : s.may who (off.toNat + 4) true = true) (ha : off.toNat % 8 = 0)
    (hw : window off.toNat = none) (hw4 : window (off.toNat + 4) = none)
    (h : s.sec.staged.find? (fun x => x.1 == who && x.2.1 == off.toNat) = some (who, off.toNat, lower.toNat)) :
    exec (.upperHalfWrite who off data) s = exec (.registerWrite who off (data ++ lower)) s := by
  have hv : lower.toNat + data.toNat * 2 ^ 32 = (data ++ lower).toNat := by
    rw [BitVec.toNat_append, ← Nat.shiftLeft_add_eq_or_of_lt lower.isLt, Nat.shiftLeft_eq, Nat.add_comm]
  have ⟨hs, he, _⟩ := hp
  rw [exec_upperHalfWrite data ⟨hs, he, hm4⟩ ha hw4, exec_registerWrite _ hp ha hw, State.writeUpper_staged h, hv]

end

/-- Settles O8: each access by its rule above. -/
theorem registerAccesses : Obligations.RegisterAccesses := by
  unfold Obligations.RegisterAccesses
  refine ⟨?keyCtl, ?keyIrq, ?keyErr, ?capture, ?lower, ?upper, ?forbidden⟩
  case keyCtl =>
    intro who data s h
    obtain ⟨hc, hlock⟩ := State.rd_writeReg_keyCtl (s.dropHalves who 0xE00000) who data.toNat
    exact ⟨_, exec_registerWrite data h rfl rfl, hc, fun h1 hb => (hlock hb).trans (if_pos h1),
      fun h0 hb => (hlock hb).trans (if_neg (by omega))⟩
  case keyIrq =>
    intro who data s h
    exact ⟨_, exec_registerWrite data h rfl rfl, State.rd_writeReg_keyIrq (s.dropHalves who 0xE00018) who data.toNat⟩
  case keyErr =>
    intro who s h
    have hout : ((s.dropHalves who 0xE00010).readClear 0xE00010).out = s.out := State.readClear_out ..
    have hclear := (s.dropHalves who 0xE00010).rd_readClear_keyErr
    refine ⟨_, exec_rcRead_keyErr h, by rw [State.emit, hout], ?_⟩
    simp only [List.forall_mem_cons] at hclear
    obtain ⟨hinteg, hempty, hprog, hregion, _⟩ := hclear
    simp only [State.emit_rd]
    exact ⟨hinteg, hempty, hprog, hregion⟩
  case capture =>
    intro who off s h ha hw
    constructor
    · intro hl w hwd
      refine ⟨_, exec_halfReadCapture h ha hw, ?_⟩
      have hout : w.out = s.out := hwd ▸ State.latest_out ..
      rw [State.readLower_live hl hwd]
      exact ⟨congrArg (· ++ _) ((State.readClear_out ..).trans hout), rfl, rfl⟩
    · intro hl
      refine ⟨_, exec_halfReadCapture h ha hw, ?_⟩
      rw [State.readLower_reserved hl]
      exact ⟨congrArg (· ++ _) (State.readClear_out ..), State.readClear_sameStore (s.dropHalves who off.toNat) ..⟩
  case lower =>
    rintro who off data s w h ha hw rfl
    constructor
    · intro hsp
      refine ⟨_, exec_lowerHalfWrite data h ha hw, ?_⟩
      rw [State.writeLower_staged hsp]
      exact ⟨rfl, rfl, ⟨rfl, rfl, rfl, rfl, rfl, rfl⟩, rfl⟩
    · intro hsp hlo
      exact ⟨_, exec_lowerHalfWrite data h ha hw, State.writeLower_direct hsp hlo⟩
  case upper =>
    rintro who off data s w hs he hm ha hw hw4 rfl
    have hp : Permitted s who (off.toNat + 4) true := ⟨hs, he, hm⟩
    constructor
    · intro lower hst
      exact ⟨⟨_, exec_upperHalfWrite data hp ha hw4, State.writeUpper_staged hst⟩,
        fun hm0 => exec_upperHalfWrite_eq_registerWrite ⟨hs, he, hm0⟩ hm ha hw hw4 hst⟩
    · intro hst hhi
      exact ⟨_, exec_upperHalfWrite data hp ha hw4, State.writeUpper_direct hst hhi⟩
  case forbidden =>
    intro who off data s hs he ha hw hm
    obtain ⟨hoff, hini, hirq⟩ := s.rd_violate who off true
    exact ⟨_, exec_lowerHalfWrite_forbidden data hs he ha hw hm, hoff, hini, hirq, ⟨rfl, rfl, rfl, rfl, rfl, rfl⟩, rfl⟩

end Sys2Proof.Machine

/-!
# What leaves the sections and the load as they are

Only the commands of a structure load, a reset and the end of a background command change `State.str`. Everything that a commit,
a drain's end or a wake sets off leaves it: one lemma for each shared operation, in the order of the model.
-/

namespace Sys2Proof.Machine

section
variable {α : Type} {s a b : State} {x : StrSt}

theorem State.forEach_str {l : List α} {f : State → α → State} (h : ∀ t y, (f t y).str = t.str) :
    (s.forEach l f).str = s.str :=
  State.forEach_induct (P := fun t => t.str = s.str) rfl (fun t y _ ht => (h t y).trans ht)

theorem State.ite_str {c : Prop} [Decidable c] (ha : a.str = x) (hb : b.str = x) : (if c then a else b).str = x := by
  split
  · exact ha
  · exact hb

theorem State.when_str {c : Bool} {f : State → State} (h : ∀ t, (f t).str = t.str) : (s.when c f).str = s.str :=
  State.ite_str (h s) rfl

end

section
variable (s : State)

/-! ### Counters and records -/

theorem State.onTxn_str (id : Option Nat) (f : Txn → Txn) : (s.onTxn id f).str = s.str := by
  cases id <;> rfl

theorem State.bufferRecord_str (r : Bytes) : (s.bufferRecord r).str = s.str := State.ite_str rfl rfl

theorem State.markTxn_str (id : Option Nat) (m : Nat × Nat × Nat) (q : Qual) : (s.markTxn id m q).str = s.str := by
  unfold State.markTxn
  split
  · exact State.onTxn_str ..
  · exact State.bufferRecord_str ..

theorem State.markEvent_str (u k : Nat) (id : Option Nat) (q : Qual) : (s.markEvent u k id q).str = s.str :=
  State.ite_str (State.bufferRecord_str ..) (State.markTxn_str ..)

theorem State.set_str (f : Field) (i j : Nat) : (s.set f i j).str = s.str := rfl

theorem State.bump_str (f : Field) (n i j : Nat) : (s.bump f n i j).str = s.str := rfl

theorem State.add_str (f : Field) (n i j : Nat) : (s.add f n i j).str = s.str := rfl

theorem State.wrBit_str (f : Field) (k : Nat) (b : Bool) (i j : Nat) : (s.wrBit f k b i j).str = s.str := rfl

theorem State.countN_str (u k n : Nat) (id : Option Nat) (q : Qual) : (s.countN u k n id q).str = s.str := by
  unfold State.countN
  dsimp only
  split
  · exact State.wr_str ..
  · exact Eq.trans (State.when_str fun _ => State.markEvent_str ..) <| Eq.trans (State.when_str fun _ => State.wr_str ..) <|
      Eq.trans (State.wrBit_str ..) (Eq.trans (State.wrBit_str ..) (State.wr_str ..))

theorem State.counts_str (u code : Nat) (q : Qual) (id : Option Nat) (n : Nat) : (s.counts u code q id n).str = s.str :=
  State.ite_str rfl (State.forEach_str (fun _ _ => State.ite_str (State.countN_str ..) rfl))

theorem State.record_str (cls sev blk inst a1 a2 d : Nat) : (s.record cls sev blk inst a1 a2 d).str = s.str := by
  unfold State.record
  dsimp only
  split <;> split <;> simp

/-! ### Channels -/

theorem State.wakeRank_str (c r : Nat) : (s.wakeRank c r).str = s.str := State.ite_str (State.counts_str ..) rfl

theorem State.rouse_str (c r : Nat) : (s.rouse c r).str = s.str :=
  (State.wakeRank_str ..).trans (State.ite_str rfl (State.ite_str rfl rfl))

theorem State.showRt_str (c : Nat) : (s.showRt c).str = s.str :=
  State.forEach_str (s := s.setChan c _) (fun _ _ => rfl)

theorem State.postLine_str (c cla : Nat) (w : Bool) (m : Nat) (rt : Option Nat) : (s.postLine c cla w m rt).str = s.str := by
  have hrt : ∀ t : State, (if rt.isSome then t.showRt c else t).str = t.str := fun _ => State.ite_str (State.showRt_str ..) rfl
  exact State.ite_str rfl ((State.rouse_str ..).trans ((hrt _).trans (State.onTxn_str ..)))

theorem State.postMa_str (ma : Nat) (w : Bool) (m : Nat) : (s.postMa ma w m).str = s.str := by
  unfold State.postMa
  split
  · rfl
  · exact State.postLine_str ..

theorem State.putMa_str (ma : Nat) (d : Bytes) (p : Bool) : (s.putMa ma d p).str = s.str := by
  unfold State.putMa
  split
  · rfl
  · exact State.ite_str rfl (State.ite_str rfl rfl)

/-! ### Chunks and pages -/

theorem State.setChunk_str (c : Nat) (x : Chunk) : (s.setChunk c x).str = s.str := by
  have hpool : ∀ t : State, (t.poolCheck x.pool).str = t.str := fun _ => State.ite_str rfl rfl
  unfold State.setChunk
  dsimp only
  split
  · exact Eq.trans (State.when_str fun _ => hpool _) (State.when_str fun _ => rfl)
  · exact Eq.trans (State.when_str fun _ => rfl) <| Eq.trans (State.when_str fun _ => rfl) <|
      Eq.trans (State.when_str fun _ => hpool _) (State.when_str fun _ => rfl)

theorem State.takeFrame_str (f : Nat) : (s.takeFrame f).str = s.str := State.setChunk_str ..

theorem State.releaseRun_str (g n : Nat) : (s.releaseRun g n).str = s.str :=
  State.ite_str (State.setChunk_str ..) (State.ite_str (State.setChunk_str ..) rfl)

theorem State.moveUse_str (a b : Nat) : (s.moveUse a b).str = s.str := State.ite_str rfl rfl

theorem State.putPme_str (p : Nat) (x : Pme) : (s.putPme p x).str = s.str := by
  unfold State.putPme
  exact (State.moveUse_str ..).trans rfl

theorem State.putTwin_str (e : Nat) (x : Twin) : (s.putTwin e x).str = s.str :=
  Eq.trans (State.when_str fun _ => rfl) (State.when_str fun _ => rfl)

theorem State.mapWriteBack_str (t : MapTag) (m : Nat) : (s.mapWriteBack t m).str = s.str := by
  unfold State.mapWriteBack
  dsimp only
  split
  · rfl
  · exact State.postMa_str ..

theorem State.mapFill_str (t : MapTag) (m : Nat) : (s.mapFill t m).str = s.str := by
  unfold State.mapFill
  dsimp only
  refine State.ite_str rfl (State.ite_str (x := s.str) rfl ?_)
  split
  · rfl
  · exact State.ite_str (a := State.mapWriteBack ..) (State.mapWriteBack_str ..) rfl

theorem State.mapTouch_str (t : MapTag) (m : Nat) : (s.mapTouch t m).str = s.str := by
  have hfill : (if s.mapHit t then s else match s.mapMa t with
      | none => s.mapFill t m
      | some ma => (s.postMa ma false m).mapFill t m).str = s.str := by
    refine State.ite_str rfl ?_
    split
    · exact State.mapFill_str ..
    · exact (State.mapFill_str ..).trans (State.postMa_str ..)
  exact State.ite_str hfill hfill

theorem State.setPme_str (p : Nat) (x : Pme) (m : Nat) : (s.setPme p x m).str = s.str :=
  (State.putPme_str ..).trans (State.mapTouch_str ..)

theorem State.setTwin_str (e : Nat) (x : Twin) (m : Nat) : (s.setTwin e x m).str = s.str :=
  (State.putTwin_str ..).trans (State.mapTouch_str ..)

theorem State.noteLost_str (p : Nat) : (s.noteLost p).str = s.str :=
  (State.record_str ..).trans (State.ite_str (a := State.bump ..) rfl rfl)

theorem State.putHall_str (p l : Nat) (d : Bytes) (b : Bool) : (s.putHall p l d b).str = s.str := State.putMa_str ..

theorem State.putPage_str (p : Nat) (ls : List (Bytes × Bool)) : (s.putPage p ls).str = s.str :=
  State.forEach_str (f := fun s (x : (Bytes × Bool) × Nat) => s.putHall p x.2 x.1.1 x.1.2) (fun _ _ => State.putHall_str ..)

theorem State.ageZero_str (p : Nat) : (s.ageZero p).str = s.str := State.ite_str (State.setPme_str ..) rfl

theorem State.failEvent_str (a l c t : Nat) : (s.failEvent a l c t).str = s.str := by
  unfold State.failEvent
  split
  · rfl
  · exact State.ite_str rfl rfl

theorem State.treadFail_str (g p b : Nat) (alone : Bool) (e : TreadErr) : (s.treadFail g p b alone e).str = s.str := by
  unfold State.treadFail
  simp only [State.record_str, State.wr_str, State.bump_eq]

theorem State.countDec_str (g t : Nat) : (s.countDec g t).str = s.str := State.counts_str ..

theorem State.shareBlock_str (p b : Nat) (res : BlockRes) : (s.shareBlock p b res).str = s.str := rfl

/-! ### Domains -/

theorem State.onDom_str (d : Nat) (f : DomSt → DomSt) : (s.onDom d f).str = s.str := rfl

theorem State.wakeDom_str (d : Nat) : (s.wakeDom d).str = s.str := by
  unfold State.wakeDom
  exact State.ite_str ((State.onDom_str ..).trans (State.counts_str ..)) rfl

theorem State.blkDecode_str (g p b : Nat) (ct : Bytes) : (s.blkDecode g p b ct).str = s.str := by
  unfold State.blkDecode
  dsimp only
  refine State.ite_str rfl ?_
  split
  · exact (State.shareBlock_str ..).trans (State.countDec_str ..)
  · exact (State.shareBlock_str ..).trans <| (State.treadFail_str ..).trans (State.countDec_str ..)

theorem State.domGo_str (d : Nat) : (s.domGo d).str = s.str :=
  State.forEach_str (s := State.onDom ..) (fun _ _ => State.blkDecode_str ..)

theorem State.endDrain_str (d : Nat) : (s.endDrain d).str = s.str :=
  State.ite_str (Eq.trans (State.domGo_str ..) (State.when_str fun _ => rfl)) rfl

/-! ### Tolerances and floors -/

theorem State.showLd_str (e : LdEntry) : (s.showLd e).str = s.str := rfl

theorem State.showTarget_str : s.showTarget.str = s.str := by
  unfold State.showTarget
  simp only [State.wr_str]

theorem State.showCap_str : s.showCap.str = s.str := State.ite_str (a := State.set ..) rfl rfl

theorem State.setFloor_str (f : Nat) : (s.setFloor f).str = s.str :=
  State.ite_str rfl (State.ite_str (State.counts_str ..) (State.counts_str ..))

theorem State.exitSteps_str (f : Nat) : (s.exitSteps f).str = s.str := by
  unfold State.exitSteps
  split
  · rfl
  · exact State.forEach_str fun _ _ => (State.wakeDom_str ..).trans (State.endDrain_str ..)
  · exact State.forEach_str fun _ _ => State.ite_str rfl rfl
  · rfl

theorem State.riseN_str (n : Nat) : (State.riseN n s).str = s.str := by
  induction n generalizing s with
  | zero => rfl
  | succ n ih =>
    unfold State.riseN
    dsimp only
    refine State.ite_str (State.ite_str rfl rfl) (State.ite_str (State.exitSteps_str ..) ((ih _).trans ?_))
    have hfenced : ∀ (c : Prop) [Decidable c] (t : State),
        (if c then { t with pwr := { t.pwr with fenced := [] } } else t).str = t.str := fun _ _ _ => State.ite_str rfl rfl
    exact State.ite_str ((hfenced ..).trans (State.exitSteps_str ..))
      ((State.setFloor_str ..).trans ((hfenced ..).trans (State.exitSteps_str ..)))

theorem State.showLoft_str : s.showLoft.str = s.str := by
  refine State.forEach_str fun t k => State.ite_str ?_ rfl
  split
  · rfl
  · exact Eq.trans (State.forEach_str fun _ _ => State.rouse_str ..) (State.wr_str ..)

theorem State.showTols_str : s.showTols.str = s.str := by
  unfold State.showTols State.retarget State.rise
  exact (State.riseN_str ..).trans <| (State.showLoft_str ..).trans <| (State.showCap_str ..).trans <|
    (State.showTarget_str ..).trans <| Eq.trans (State.wr_str ..) (State.forEach_str fun _ _ => State.showLd_str ..)

/-! ### Map slices -/

theorem State.postRead_str (l m : Nat) : (s.postRead l m).str = s.str := State.forEach_str fun _ _ => State.postMa_str ..

theorem State.parkReq_str (r : MapReq) (st : ReqSt) : (s.parkReq r st).str = s.str := rfl

theorem State.undrop_str (f : Nat → Bool) : (s.undrop f).str = s.str := rfl

theorem State.noteWrite_str (p : Nat) : (s.noteWrite p).str = s.str := rfl

theorem State.during_str {f : State → State} (id : Option Nat) (h : ∀ t, (f t).str = t.str) : (s.during id f).str = s.str :=
  h _

theorem State.writeHall_str (l : Nat) (d : Line) (mask : BitVec 64) (b : Bool) (m : Nat) :
    (s.writeHall l d mask b m).str = s.str := by
  have hdirty : ∀ (c : Prop) [Decidable c] (t : State) (p : Nat) (x : Pme), (if c then t else t.setPme p x m).str = t.str :=
    fun _ _ _ _ _ => State.ite_str rfl (State.setPme_str ..)
  have hpost : ∀ (c : Prop) [Decidable c] (t : State) (p : Nat) (x : Pme) (a : Nat),
      ((if c then t else t.setPme p x m).postMa a true m).str = t.str :=
    fun _ _ _ _ _ _ => (State.postMa_str ..).trans (hdirty ..)
  have hnote : ∀ p, ((s.noteWrite p).ageZero p).str = s.str := fun _ => (State.ageZero_str ..).trans (State.noteWrite_str ..)
  unfold State.writeHall
  dsimp only
  refine State.ite_str ?_ (State.ite_str ((hpost ..).trans (hnote _)) (State.ite_str ((hpost ..).trans (hnote _)) ?_))
  · exact (State.undrop_str ..).trans <| (State.putHall_str ..).trans ((hpost ..).trans (hnote _))
  · exact (State.putHall_str ..).trans ((hpost ..).trans (hnote _))

theorem State.backPage_str (p f slot m : Nat) : (s.backPage p f slot m).str = s.str := by
  unfold State.backPage
  exact (State.putPage_str ..).trans (State.setPme_str ..)

theorem State.emptyUse_str : s.emptyUse.str = s.str := rfl

theorem State.discardWrite_str (r : MapReq) : (s.discardWrite r).str = s.str := by
  unfold State.discardWrite
  exact (State.setReq_str ..).trans <| (State.failEvent_str ..).trans (State.emptyUse_str ..)

theorem State.writeWithFrame_str (r : MapReq) (f : Nat) : (s.writeWithFrame r f).str = s.str := by
  unfold State.writeWithFrame
  dsimp only
  refine State.ite_str (State.discardWrite_str ..) (State.ite_str ?_ ?_)
  · exact (State.setReq_str ..).trans <| (State.writeHall_str ..).trans <| (State.backPage_str ..).trans (State.takeFrame_str ..)
  · refine (State.setReq_str ..).trans ?_
    dsimp only
    exact (State.counts_str ..).trans <| (State.onTxn_str ..).trans <|
      Eq.trans (State.forEach_str fun _ _ => State.postMa_str ..) (State.takeFrame_str ..)

theorem State.holdWrite_str (r : MapReq) : (s.holdWrite r).str = s.str := by
  unfold State.holdWrite
  exact (State.set_str ..).trans <| (State.bump_str ..).trans <| (State.add_str ..).trans <|
    (State.counts_str ..).trans (State.parkReq_str ..)

theorem State.grantLater_str (cl : Claim) : ((s.grantLater cl).getD s).str = s.str := by
  unfold State.grantLater
  cases s.grantOf cl <;> rfl

theorem State.serveFrame_str (r : MapReq) : (s.serveFrame r).str = s.str := by
  unfold State.serveFrame
  dsimp only
  split
  · exact State.writeWithFrame_str ..
  · exact State.parkReq_str ..
  · exact (State.parkReq_str ..).trans (State.grantLater_str ..)
  · exact State.holdWrite_str ..

theorem State.serveWrite_str (r : MapReq) : (s.serveWrite r).str = s.str := by
  unfold State.serveWrite
  refine State.ite_str (State.setReq_str ..) (State.ite_str ?_ (State.ite_str (State.discardWrite_str ..)
    (State.ite_str ?_ (State.ite_str (State.setReq_str ..) (State.serveFrame_str ..)))))
  · exact (State.setReq_str ..).trans (State.noteLost_str ..)
  · exact (State.setReq_str ..).trans (State.writeHall_str ..)

theorem State.startFill_str (t : MapTag) (m : Nat) : (s.startFill t m).str = s.str := by
  unfold State.startFill
  dsimp only
  refine State.ite_str rfl ?_
  split
  · dsimp only
  · exact (State.postMa_str ..).trans rfl

theorem State.sweepPage_str (p : Nat) : (s.sweepPage p).str = s.str := State.ite_str rfl (State.setPme_str ..)

theorem State.lookupIn_str (r : MapReq) : (s.lookupIn r).str = s.str := by
  unfold State.lookupIn
  dsimp only
  refine State.ite_str ((State.sweepPage_str ..).trans (State.dropReq_str ..)) (State.ite_str ?_ (State.ite_str ?_ ?_))
  · exact (State.parkReq_str ..).trans <| (State.startFill_str ..).trans (State.counts_str ..)
  · exact (State.serveWrite_str ..).trans <| Eq.trans (State.when_str fun _ => State.mapTouch_str ..) <|
      (State.onTxn_str ..).trans (State.counts_str ..)
  · exact (State.setReq_str ..).trans <| (State.postRead_str ..).trans <| (State.ageZero_str ..).trans <|
      Eq.trans (State.when_str fun _ => State.mapTouch_str ..) <| (State.onTxn_str ..).trans (State.counts_str ..)

theorem State.serveQueueN_str (n sl : Nat) : (State.serveQueueN n s sl).str = s.str := by
  induction n generalizing s with
  | zero => rfl
  | succ n ih =>
    unfold State.serveQueueN
    split
    · rfl
    · exact State.ite_str rfl ((ih _).trans (State.during_str _ _ fun _ => State.lookupIn_str ..))

theorem State.serveQueues_str : s.serveQueues.str = s.str := State.forEach_str fun _ _ => State.serveQueueN_str ..

/-! ### Jobs that start -/

theorem State.showGal_str (g : Nat) : (s.showGal g).str = s.str := rfl

theorem State.setJob_str (g : Nat) (j : Job) : (s.setJob g j).str = s.str := rfl

theorem State.keepMark_str (g k : Nat) : (s.keepMark g k).str = s.str := rfl

theorem State.undoStep_str (j : Job) : (s.undoStep j).str = s.str := by
  unfold State.undoStep
  split
  · rfl
  next p _ =>
    have hrun : (match p.run with | some (g, n) => s.releaseRun g n | none => s).str = s.str := by
      split
      · exact State.releaseRun_str ..
      · rfl
    dsimp only
    split
    · exact State.ite_str ((State.setTwin_str ..).trans ((State.releaseRun_str ..).trans hrun)) ((State.setTwin_str ..).trans hrun)
    · exact hrun

theorem State.stepEnds_str (j : Job) : (s.stepEnds j).str = s.str := by
  unfold State.stepEnds
  exact State.ite_str (State.serveQueues_str ..) rfl

theorem State.endJob_str (g : Nat) (j : Job) (r d : Nat) : (s.endJob g j r d).str = s.str := by
  unfold State.endJob
  exact (State.setJob_str ..).trans ((State.stepEnds_str ..).trans (State.undoStep_str ..))

theorem State.startJobs_str (n g : Nat) : (State.startJobs n s g).str = s.str := by
  induction n generalizing s with
  | zero => rfl
  | succ n ih =>
    unfold State.startJobs
    split
    · rfl
    next j _ =>
      refine State.ite_str rfl ((ih _).trans ?_)
      split
      · exact (State.endJob_str ..).trans ((State.keepMark_str ..).trans (State.setJob_str ..))
      · exact State.ite_str ((State.keepMark_str ..).trans (State.setJob_str ..))
          ((State.endJob_str ..).trans ((State.keepMark_str ..).trans (State.setJob_str ..)))

theorem State.resumeJobs_str : s.resumeJobs.str = s.str := State.forEach_str fun _ _ => State.startJobs_str ..

/-! ### What a commit applies -/

theorem State.applyLds_str : s.applyLds.str = s.str :=
  State.forEach_str fun _ _ => Eq.trans (State.forEach_str fun _ _ => State.wr_str ..) (State.wr_str ..)

theorem State.commitTier_str (old : Sections) : (s.commitTier old).str = s.str := by
  unfold State.commitTier
  dsimp only
  refine Eq.trans (State.forEach_str fun _ _ => State.wr_str ..) (Eq.trans (State.forEach_str fun _ _ => State.wr_str ..) ?_)
  dsimp only
  exact (State.wr_str ..).trans (State.wr_str ..)

theorem State.applyTsc_str (gone : List Nat) : (s.applyTsc gone).str = s.str := by
  unfold State.applyTsc
  exact Eq.trans (State.forEach_str fun _ _ => rfl) (State.forEach_str fun _ _ => rfl)

theorem State.newWindow_str (us : Nat) : (s.newWindow us).str = s.str := by
  unfold State.newWindow
  exact State.ite_str rfl rfl

theorem State.applyCntd_str (gone : List (Nat × Nat)) : (s.applyCntd gone).str = s.str := by
  have hload : ∀ (t : State) (u k : Nat), (t.loadSampling u k).str = t.str := fun _ _ _ => State.ite_str rfl rfl
  unfold State.applyCntd
  exact Eq.trans (State.forEach_str fun _ _ => (hload ..).trans (by simp)) (State.forEach_str fun _ _ => by simp)

theorem State.applyRoutes_str (t : Field) : (s.applyRoutes t).str = s.str :=
  State.forEach_str fun _ _ => State.forEach_str fun _ _ => State.wr_str ..

theorem State.flip_str : s.flip.str = s.str := by
  unfold State.flip
  dsimp only
  exact State.ite_str rfl (State.ite_str rfl (Eq.trans rfl (State.forEach_str fun _ _ => rfl)))

theorem State.commitRoute_str : s.commitRoute.str = s.str := by
  unfold State.commitRoute
  exact (State.flip_str ..).trans <| (State.applyRoutes_str ..).trans (State.forEach_str fun _ _ => State.wr_str ..)

theorem State.showImage_str (img : Bytes) (n : Nat) : (s.showImage img n).str = s.str := by
  unfold State.showImage
  exact Eq.trans (State.forEach_str fun _ _ => State.wr_str ..) ((State.wr_str ..).trans (State.wr_str ..))

/-- R28, Table 1-11: the commit puts its sections in force and leaves the load. -/
theorem State.commit_str (l : PendingLoad) : (s.commit l).str = { s.str with secs := committedSecs s.secs l.secs } := by
  unfold State.commit
  dsimp only
  refine (State.resumeJobs_str ..).trans <| (State.showTols_str ..).trans <|
    Eq.trans (State.ite_str rfl (State.showImage_str ..)) ?_
  exact Eq.trans (State.when_str State.commitRoute_str) <| Eq.trans (State.when_str fun _ => State.applyCntd_str ..) <|
    Eq.trans (State.when_str fun _ => (State.newWindow_str ..).trans (State.applyTsc_str ..)) <|
    Eq.trans (State.when_str fun _ => State.commitTier_str ..) (State.when_str State.applyLds_str)

end
end Sys2Proof.Machine

/-!
# Loading a structure image through the mailbox (R24, R27 to R31, R372)

A load ends in one way, `State.loadEnds`: what it shows, answers and leaves is said once. Every clause about a load then takes
the state in which the load ends, or the state in which it goes on to draining, to the commit or to persisting.
-/

namespace Sys2Proof.Machine

/-! ### The end of a load -/

section
variable (s : State) (who : Initiator) (r : ImgResult)

@[simp] theorem State.loadEnds_str : (s.loadEnds who r).str = { s.str with load := none } := rfl
@[simp] theorem State.loadEnds_flash : (s.loadEnds who r).flash = s.flash := rfl

/-- The registers in which a load that ends shows itself. -/
def loadEndFields : List Field :=
  [F.STR_STATUS_RESULT, F.STR_STATUS_SECTION, F.STR_FAIL_POSITION, F.STR_STATUS_SRC, F.STR_STATUS_STATE, F.STR_IRQ_DONE,
   F.STR_IRQ_REJECT]

/-- The end of a load before its interrupt is raised and its completion is sent. -/
theorem State.rd_loadEnds (f : Field) (hf : ∀ g ∈ [F.STR_IRQ_DONE, F.STR_IRQ_REJECT], f.key 0 0 ≠ g.key 0 0) :
    (s.loadEnds who r).rd f = ((s.showResult r true).wr F.STR_STATUS_STATE ldIDLE).rd f := by
  simp only [State.loadEnds, State.answer, State.emit_rd, State.set_eq]
  exact State.rd_wr_ne _ _ (hf _ (by split <;> simp))

/-- R24: RESULT takes the code of the load. -/
@[simp] theorem State.rd_loadEnds_result :
    (s.loadEnds who r).rd F.STR_STATUS_RESULT = r.code % 2 ^ F.STR_STATUS_RESULT.width := by
  rw [State.rd_loadEnds _ _ _ _ (by decide)]
  simp (disch := decide) [State.showResult, State.rd_wr_ne]

@[simp] theorem State.rd_loadEnds_state : (s.loadEnds who r).rd F.STR_STATUS_STATE = ldIDLE := by
  rw [State.rd_loadEnds _ _ _ _ (by decide), State.rd_wr_same]
  rfl

/-- The end of a load leaves every register in which it does not show itself. -/
theorem State.rd_loadEnds_ne {f : Field} (hf : ∀ g ∈ loadEndFields, f.key 0 0 ≠ g.key 0 0) :
    (s.loadEnds who r).rd f = s.rd f := by
  simp only [loadEndFields, List.forall_mem_cons] at hf
  obtain ⟨hresult, hsection, hposition, hsrc, hstate, hirq⟩ := hf
  rw [State.rd_loadEnds _ _ _ _ (by simpa using hirq)]
  simp [State.showResult, State.rd_wr_ne, *]

@[simp] theorem State.rd_loadEnds_section : (s.loadEnds who r).rd F.STR_STATUS_SECTION = min 255 r.pos := by
  have hlt : min 255 r.pos < 2 ^ F.STR_STATUS_SECTION.width := Nat.lt_of_le_of_lt (Nat.min_le_left ..) (by decide)
  rw [State.rd_loadEnds _ _ _ _ (by decide)]
  simp (disch := decide) [State.showResult, State.rd_wr_ne, Nat.mod_eq_of_lt hlt]

/-- Table 1-22: the completion of a load holds its RESULT and SECTION. -/
@[simp] theorem State.loadEnds_out :
    (s.loadEnds who r).out = s.out ++ [.mbx who .success (loadOutput r.code (min 255 r.pos))] := by
  rw [← State.rd_loadEnds_section s who r]
  rfl

theorem State.rd_loadEnds_bad {code : Nat} (h : code < 256) :
    (s.loadEnds who (.bad code)).rd F.STR_STATUS_RESULT = code :=
  (State.rd_loadEnds_result ..).trans (Nat.mod_eq_of_lt h)

end

/-! ### The commands of STR_LOAD -/

/-- Table 16-4: an item of STR_LOAD with ACTION `action` and no DATA. -/
structure LoadItem (action : Nat) (input : Bytes) : Prop where
  ok : itemOk action input = true
  length : input.length = 8
  flags : byteAt input 1 ≤ 1

/-- The checks of such an item find no fault. -/
theorem LoadItem.passes {action : Nat} {input : Bytes} (h : LoadItem action input) :
    (!itemOk action input || input.length != 8 || decide (1 < byteAt input 1)) = false := by
  simp [h.ok, h.length, h.flags]

/-- R366, R372: a command marked ROM is served in the monitor too. -/
theorem LoadItem.served {action : Nat} {input : Bytes} {s : State} {who : Initiator} (h : LoadItem action input)
    (hs : s.stage = .running) (hw : hasSpdm who = true) : Served s who true input :=
  ⟨hs, hw, .inr rfl, by have := h.length; omega⟩

section
variable {s : State} {who : Initiator} {input : Bytes} {x : Transfer}

/-- An item of the function and the command of the open sequence is not turned away. -/
theorem State.transferTaken_own (hx : s.str.xfer = some x) (hwho : x.who = who) (hcal : x.cal = false) :
    s.transferTaken who false = false := by
  simp [State.transferTaken, hx, hwho, hcal]

theorem State.transferTaken_none (hx : s.str.xfer = none) : s.transferTaken who false = false := by
  simp [State.transferTaken, hx]

theorem State.inBackground_idle (hl : s.str.load = none) (hc : s.str.cal = none) : s.inBackground = false := by
  simp [State.inBackground, hl, hc]

/-- R31, R372: the start of a sequence where none is open and no background command runs. -/
theorem exec_strLoadStart_idle (hs : s.stage = .running) (hw : hasSpdm who = true) (hi : LoadItem 0 input)
    (hl : s.str.load = none) (hc : s.str.cal = none) (hx : s.str.xfer = none) :
    exec (.strLoadStart who input) s = .next (if !s.loadAllowed then s.loadEnds who (.bad 0x44)
      else (s.setTransfer (some ⟨who, false, 0, (byteAt input 1).testBit 0, [], []⟩)).answer who .success) := by
  change execStrLoadStart who input s = _
  rw [execStrLoadStart, onMailbox_served (hi.served hs hw), hi.passes, State.transferTaken_none hx,
    State.inBackground_idle hl hc, hl]
  rfl

/-- R31, R372: the end of the function's own sequence where no background command runs. -/
theorem exec_strLoadEnd_own (hs : s.stage = .running) (hw : hasSpdm who = true) (hi : LoadItem 2 input)
    (hl : s.str.load = none) (hc : s.str.cal = none) (hx : s.str.xfer = some x) (hwho : x.who = who) (hcal : x.cal = false) :
    exec (.strLoadEnd who input) s = .next (if !s.loadAllowed then (s.setTransfer none).loadEnds who (.bad 0x44)
      else ((s.setTransfer none).answer who .background).loadImage x) := by
  change execStrLoadEnd who input s = _
  rw [execStrLoadEnd, onMailbox_served (hi.served hs hw), hi.passes, State.transferTaken_own hx hwho hcal,
    State.inBackground_idle hl hc, hx]
  rfl

/-- R31: while loading is disabled, both come to the end of a load with 0x44. -/
theorem exec_strLoadStart_disabled (hs : s.stage = .running) (hw : hasSpdm who = true) (hi : LoadItem 0 input)
    (hl : s.str.load = none) (hc : s.str.cal = none) (hx : s.str.xfer = none) (hno : s.loadAllowed = false) :
    exec (.strLoadStart who input) s = .next (s.loadEnds who (.bad 0x44)) := by
  rw [exec_strLoadStart_idle hs hw hi hl hc hx, hno]
  rfl

theorem exec_strLoadEnd_disabled (hs : s.stage = .running) (hw : hasSpdm who = true) (hi : LoadItem 2 input)
    (hl : s.str.load = none) (hc : s.str.cal = none) (hx : s.str.xfer = some x) (hwho : x.who = who) (hcal : x.cal = false)
    (hno : s.loadAllowed = false) :
    exec (.strLoadEnd who input) s = .next ((s.setTransfer none).loadEnds who (.bad 0x44)) := by
  rw [exec_strLoadEnd_own hs hw hi hl hc hx hwho hcal, hno]
  rfl

/-- R372: a continue item of the function's own sequence whose OFFSET is the length so far. -/
theorem exec_strLoadContinue_own (hs : Served s who true input) (hok : itemOk 1 input = true) (hflags : byteAt input 1 ≤ 1)
    (hdata : 8 < input.length) (hx : s.str.xfer = some x) (hwho : x.who = who) (hcal : x.cal = false)
    (hoff : le input 4 4 = x.data.length) :
    exec (.strLoadContinue who input) s =
      .next ((s.setTransfer (some { x with data := x.data ++ input.drop 8 })).answer who .success) := by
  change execStrLoadContinue who input s = _
  rw [execStrLoadContinue, onMailbox_served hs]
  simp [hok, Nat.not_lt.2 hflags, State.transferData, hx, State.transferTaken_own hx hwho hcal, hoff, Nat.not_le.2 hdata]

theorem exec_strLoadAbandon (hs : s.stage = .running) (hw : hasSpdm who = true) (hi : LoadItem 3 input)
    (hx : s.transferTaken who false = false) :
    exec (.strLoadAbandon who input) s = .next ((s.setTransfer none).answer who .success) := by
  change execStrLoadAbandon who input s = _
  rw [execStrLoadAbandon, onMailbox_served (hi.served hs hw), hi.passes]
  simp [State.transferDrop, hx]

/-- Another ACTION in the first byte makes another item of the same length and FLAGS. -/
theorem LoadItem.withAction {action : Nat} (h : LoadItem action input) (a : Byte) :
    LoadItem a.toNat (a :: input.drop 1) := by
  obtain ⟨hok, hlen, hflags⟩ := h
  match input, hlen with
  | b :: rest, hlen =>
    refine ⟨?_, hlen, hflags⟩
    simp only [itemOk, Bool.and_eq_true] at hok ⊢
    exact ⟨⟨hok.1.1, by simp [byteAt]⟩, hok.2⟩

end

/-- R31: with MBX_LOAD_EN and RECOVERY clear no load is permitted. -/
theorem State.loadAllowed_disabled {s : State} (hen : s.rd F.STR_CTL_MBX_LOAD_EN = 0) (hrec : s.rd F.STR_STATUS_RECOVERY = 0) :
    s.loadAllowed = false := by
  simp [State.loadAllowed, State.on, hen, hrec]

/-- Settles O11: start and end alike come to the end of a load with 0x44. -/
theorem mailboxLoadDisabled : Obligations.MailboxLoadDisabled := by
  unfold Obligations.MailboxLoadDisabled
  intro who input s hs hw hok hlen hflags hl hc hx hen hrec
  have hitem : LoadItem 0 input := ⟨hok, hlen, hflags⟩
  constructor
  · have hno := State.loadAllowed_disabled hen hrec
    exact ⟨_, exec_strLoadStart_disabled hs hw hitem hl hc hx hno, State.rd_loadEnds_bad _ _ (by decide), hx, rfl, rfl,
      State.loadEnds_out ..⟩
  · intro x hwho hcal
    have hend := hitem.withAction 2
    exact ⟨_, exec_strLoadEnd_disabled hs hw hend hl hc rfl hwho hcal (State.loadAllowed_disabled hen hrec),
      State.rd_loadEnds_bad _ _ (by decide), rfl, rfl, rfl, State.loadEnds_out ..⟩

/-! ### From the end item to persisting -/

section
variable {s : State} {who : Initiator} {input : Bytes} {x : Transfer} {l : PendingLoad}

/-- R372: the end of the function's own sequence where loads are permitted: the image is verified in the background. -/
theorem exec_strLoadEnd_allowed (hs : s.stage = .running) (hw : hasSpdm who = true) (hi : LoadItem 2 input)
    (hl : s.str.load = none) (hc : s.str.cal = none) (hx : s.str.xfer = some x) (hwho : x.who = who) (hcal : x.cal = false)
    (hok : s.loadAllowed = true) :
    exec (.strLoadEnd who input) s = .next (((s.setTransfer none).answer who .background).loadImage x) := by
  rw [exec_strLoadEnd_own hs hw hi hl hc hx hwho hcal, hok]
  rfl

/-- R24: an image that fails a check ends the load with its RESULT. -/
theorem State.loadImage_bad (h : (verifyImage s.imgCtx x.data).code ≠ 0) :
    s.loadImage x = s.loadEnds x.who (verifyImage s.imgCtx x.data) := by
  simp [State.loadImage, h]

theorem State.drainBegin_load (s : State) (l : PendingLoad) : (s.drainBegin l).str.load = some l := by
  unfold State.drainBegin
  exact (congrArg StrSt.load (State.forEach_str fun _ _ => (State.wakeDom_str ..).trans (State.endDrain_str ..)) :)

/-- R24, R29: an image that passes, changes a section and may be persisted is under load. -/
theorem State.loadImage_good (h : (verifyImage s.imgCtx x.data).code = 0)
    (hch : (changedSecs s.secs (verifyImage s.imgCtx x.data).secs).isEmpty = false) (hp : x.persist = true) :
    (s.loadImage x).str.load.isSome = true := by
  unfold State.loadImage
  simp only [h, hch, hp, bne_self_eq_false, Bool.false_eq_true, Bool.not_true, Bool.false_and, if_false]
  split
  · rw [State.wr_str, State.drainBegin_load]; rfl
  · rfl

theorem State.loadImage_xfer (s : State) (x : Transfer) : (s.loadImage x).str.xfer = s.str.xfer := by
  unfold State.loadImage State.drainBegin
  dsimp only
  split
  · rfl
  split
  · rfl
  split
  · rfl
  split
  · exact (congrArg StrSt.xfer (State.forEach_str fun _ _ => (State.wakeDom_str ..).trans (State.endDrain_str ..)) :)
  · rfl

/-- R28: the commit of an image that needed no draining. -/
theorem exec_imageCommit (hs : s.stage = .running) (hl : s.str.load = some l) (hst : s.rd F.STR_STATUS_STATE = ldCOMMIT) :
    exec .imageCommit s = .next ((s.commit l).afterCommit l) := by
  change execImageCommit s = _
  rw [execImageCommit, onDie_running hs]
  simp [hl, hst]

/-- R27: draining that has not finished in time. -/
theorem exec_quiesceTimeout (hs : s.stage = .running) (hl : s.str.load = some l) (hst : s.rd F.STR_STATUS_STATE = ldDRAIN)
    (hd : s.drained l = false) :
    exec .quiesceTimeout s = .next (((s.loadEnds l.who (.bad 0x41)).releaseLds).resumeJobs) := by
  change execQuiesceTimeout s = _
  rw [execQuiesceTimeout, onDie_running hs]
  simp [hl, hst, hd]

theorem exec_ldHoldRelease (hs : s.stage = .running) (hst : s.rd F.STR_STATUS_STATE ≠ ldDRAIN) :
    exec .ldHoldRelease s = .next s.releaseLds := by
  change execLdHoldRelease s = _
  rw [execLdHoldRelease, onDie_running hs, if_neg hst]

theorem exec_imagePersistDone (ok : Bool) (hs : s.stage = .running) (hl : s.str.load = some l)
    (hst : s.rd F.STR_STATUS_STATE = ldPERSIST) : exec (.imagePersistDone ok) s = .next (s.persisted l ok) := by
  change execImagePersistDone ok s = _
  rw [execImagePersistDone, onDie_running hs]
  simp [hl, hst]

end

/-! ### Persisting (R29) -/

/-- The slot with the image written to it, and whether STR_BOOT shows it valid. -/
def State.slotWritten (s : State) (l : PendingLoad) (ok : Bool) : State :=
  let img := if ok then l.bytes else []
  if l.slotB then { s with flash := { s.flash with imgB := img } }.wr F.STR_BOOT_SLOT_B_VALID (b2n ok)
  else { s with flash := { s.flash with imgA := img } }.wr F.STR_BOOT_SLOT_A_VALID (b2n ok)

section
variable (s : State) (l : PendingLoad)

theorem State.persisted_failed : s.persisted l false = (s.slotWritten l false).loadEnds l.who (.bad 0x43) := rfl

theorem State.persisted_ok : s.persisted l true =
    (((s.slotWritten l true).wr F.STR_BOOT_PREF_SLOT (b2n l.slotB)).when
      (!(changedSecs (s.slotWritten l true).secs l.secs).isEmpty) (fun s => s.set F.STR_STATUS_RESET_PENDING)).loadEnds l.who
        ⟨0, 0, [], 0⟩ := rfl

theorem b2n_lt (b : Bool) : b2n b < 2 := by cases b <;> decide

/-- What follows the slot in a load that is persisted touches no flash and neither VALID bit. -/
theorem State.persisted_slot (ok : Bool) : (s.persisted l ok).flash = (s.slotWritten l ok).flash ∧
    ∀ f ∈ [F.STR_BOOT_SLOT_A_VALID, F.STR_BOOT_SLOT_B_VALID], (s.persisted l ok).rd f = (s.slotWritten l ok).rd f := by
  have hend : ∀ f ∈ [F.STR_BOOT_SLOT_A_VALID, F.STR_BOOT_SLOT_B_VALID], ∀ g ∈ loadEndFields, f.key 0 0 ≠ g.key 0 0 := by decide
  have hkey : ∀ f ∈ [F.STR_BOOT_SLOT_A_VALID, F.STR_BOOT_SLOT_B_VALID],
      f.key 0 0 ≠ F.STR_BOOT_PREF_SLOT.key 0 0 ∧ f.key 0 0 ≠ F.STR_STATUS_RESET_PENDING.key 0 0 := by decide
  cases ok with
  | false => exact ⟨rfl, fun f hf => State.rd_loadEnds_ne _ _ _ (hend f hf)⟩
  | true =>
    rw [State.persisted_ok]
    constructor
    · unfold State.when
      split <;> rfl
    · intro f hf
      rw [State.rd_loadEnds_ne _ _ _ (hend f hf), State.when, apply_ite (State.rd · f 0 0), State.set_eq,
        State.rd_wr_ne _ _ (hkey f hf).2, State.rd_wr_ne _ _ (hkey f hf).1, ite_self]

theorem State.rd_persisted_pref : (s.persisted l true).rd F.STR_BOOT_PREF_SLOT = b2n l.slotB := by
  rw [State.persisted_ok, State.rd_loadEnds_ne _ _ _ (by decide), State.when, apply_ite (State.rd · F.STR_BOOT_PREF_SLOT 0 0),
    State.set_eq, State.rd_wr_ne _ _ (by decide), ite_self, State.rd_wr_same]
  exact Nat.mod_eq_of_lt (b2n_lt _)

theorem State.slotWritten_b (ok : Bool) (hb : l.slotB = true) :
    (s.slotWritten l ok).flash = { s.flash with imgB := if ok then l.bytes else [] } ∧
    (s.slotWritten l ok).rd F.STR_BOOT_SLOT_B_VALID = b2n ok := by
  unfold State.slotWritten
  rw [if_pos hb]
  exact ⟨rfl, (State.rd_wr_same ..).trans (Nat.mod_eq_of_lt (b2n_lt _))⟩

theorem State.slotWritten_a (ok : Bool) (hb : l.slotB = false) :
    (s.slotWritten l ok).flash = { s.flash with imgA := if ok then l.bytes else [] } ∧
    (s.slotWritten l ok).rd F.STR_BOOT_SLOT_A_VALID = b2n ok := by
  unfold State.slotWritten
  rw [if_neg (by simp [hb])]
  exact ⟨rfl, (State.rd_wr_same ..).trans (Nat.mod_eq_of_lt (b2n_lt _))⟩

/-- R29: the slot that the image is written to, and the other one. -/
theorem State.persisted_b (ok : Bool) (hb : l.slotB = true) :
    (s.persisted l ok).flash.imgB = (if ok then l.bytes else []) ∧ (s.persisted l ok).flash.imgA = s.flash.imgA ∧
    (s.persisted l ok).rd F.STR_BOOT_SLOT_B_VALID = b2n ok := by
  obtain ⟨hflash, hvalid⟩ := s.persisted_slot l ok
  obtain ⟨himg, hv⟩ := s.slotWritten_b l ok hb
  rw [hvalid _ (by simp), hflash, himg, hv]
  exact ⟨rfl, rfl, rfl⟩

theorem State.persisted_a (ok : Bool) (hb : l.slotB = false) :
    (s.persisted l ok).flash.imgA = (if ok then l.bytes else []) ∧ (s.persisted l ok).flash.imgB = s.flash.imgB ∧
    (s.persisted l ok).rd F.STR_BOOT_SLOT_A_VALID = b2n ok := by
  obtain ⟨hflash, hvalid⟩ := s.persisted_slot l ok
  obtain ⟨himg, hv⟩ := s.slotWritten_a l ok hb
  rw [hvalid _ (by simp), hflash, himg, hv]
  exact ⟨rfl, rfl, rfl⟩

end

/-! ### STR_MINSEQ (R30) -/

/-- R30, R386: the owner's write of a value that neither lowers MINSEQ nor passes every valid slot. -/
theorem exec_strMinseqWrite_owner {s : State} {who : Initiator} {v : BitVec 32} (h : Permitted s who 0x100050 true)
    (ho : s.isOwner who = true) (hlow : s.rd F.STR_MINSEQ_MINSEQ ≤ v.toNat) (hslots : s.slotSeqs.any (v.toNat ≤ ·) = true) :
    exec (.strMinseqWrite who v) s = .next ((s.dropHalves who 0x100050).wr F.STR_MINSEQ_MINSEQ v.toNat) := by
  have hv : F.STR_MINSEQ_MINSEQ.of v.toNat = v.toNat := by
    have hlt : v.toNat < 4294967296 := v.isLt
    simpa [Field.of, bits, F.STR_MINSEQ_MINSEQ] using hlt
  change execStrMinseqWrite who v s = _
  rw [execStrMinseqWrite, onDie_running h.1, barWrite_permitted h, State.writeStr, if_pos rfl, hv]
  have hown : (s.dropHalves who 0x100050).isOwner who = true := ho
  have hok : ((s.dropHalves who 0x100050).rd F.STR_MINSEQ_MINSEQ ≤ v.toNat &&
      (s.dropHalves who 0x100050).slotSeqs.any (v.toNat ≤ ·)) = true :=
    Bool.and_eq_true_iff.2 ⟨decide_eq_true hlow, hslots⟩
  rw [if_pos hown, State.strMinseq, if_pos hok]

/-- R29: what follows the commit of an image that is not persisted, and of one that is. -/
theorem State.afterCommit_done (s : State) {l : PendingLoad} (hp : l.persist = false) :
    s.afterCommit l = s.loadEnds l.who ⟨0, 0, [], 0⟩ := if_neg (by simp [hp])

theorem State.afterCommit_persist (s : State) {l : PendingLoad} (hp : l.persist = true) :
    s.afterCommit l = { s with str := { s.str with load := some { l with slotB := !s.on F.STR_BOOT_PREF_SLOT } } }.wr
      F.STR_STATUS_STATE ldPERSIST := if_pos hp

/-- Neither puts other sections in force. -/
theorem State.afterCommit_secs (s : State) (l : PendingLoad) : (s.afterCommit l).str.secs = s.str.secs := by
  unfold State.afterCommit
  split <;> rfl

/-- Settles O12: each command of a load by its rule above. -/
theorem structureLoad : Obligations.StructureLoad := by
  unfold Obligations.StructureLoad
  refine ⟨?begins, ?more, ?ends, ?abandon, ?commit, ?timeout, ?release, ?persist, ?minseq⟩
  case begins =>
    intro who input s hs hw hok hlen hflags hl hc hx hallow
    have hbit : (byteAt input 1).testBit 0 = (byteAt input 1 == 1) := by
      interval_cases byteAt input 1 <;> rfl
    refine ⟨_, exec_strLoadStart_idle hs hw ⟨hok, hlen, hflags⟩ hl hc hx, ?_⟩
    rw [hallow, hbit]
    exact ⟨rfl, rfl, rfl⟩
  case more =>
    intro who input x s hs hw hok hflags hdata hlen hx hwho hcal hoff
    exact ⟨_, exec_strLoadContinue_own ⟨hs, hw, .inr rfl, hlen⟩ hok hflags hdata hx hwho hcal hoff, rfl, rfl⟩
  case ends =>
    intro who input x s hs hw hok hlen hflags hx hwho hcal hl hc hallow
    have hctx : ((s.setTransfer none).answer who .background).imgCtx = s.imgCtx := rfl
    have hsecs : ((s.setTransfer none).answer who .background).secs = s.secs := rfl
    refine ⟨_, exec_strLoadEnd_allowed hs hw ⟨hok, hlen, hflags⟩ hl hc hx hwho hcal hallow, ?_, ?_, ?_⟩
    · exact State.loadImage_xfer ..
    · intro hbad
      rw [← hctx] at hbad ⊢
      rw [State.loadImage_bad hbad]
      exact ⟨rfl, State.rd_loadEnds_result .., rfl⟩
    · intro hgood hchanged hp
      rw [← hctx] at hgood hchanged
      exact State.loadImage_good hgood (by rw [hsecs]; exact hchanged) hp
  case abandon =>
    intro who input s hs hw hok hlen hflags htaken
    exact ⟨_, exec_strLoadAbandon hs hw ⟨hok, hlen, hflags⟩ htaken, rfl⟩
  case commit =>
    intro l s hs hl hst
    refine ⟨_, exec_imageCommit hs hl hst, ?_, ?_, ?_⟩
    · rw [State.afterCommit_secs, State.commit_str]
    · intro hp
      rw [State.afterCommit_done _ hp]
      exact ⟨rfl, State.rd_loadEnds_result .., State.rd_loadEnds_state ..⟩
    · intro hp
      rw [State.afterCommit_persist _ hp]
      exact ⟨rfl, State.rd_wr_same ..⟩
  case timeout =>
    intro l s hs hl hst hd
    exact ⟨_, exec_quiesceTimeout hs hl hst hd, rfl⟩
  case release =>
    intro s hs hst
    exact ⟨_, exec_ldHoldRelease hs hst, rfl⟩
  case persist =>
    intro l s hs hl hst
    constructor
    · refine ⟨_, exec_imagePersistDone true hs hl hst, ?_, ?_, s.rd_persisted_pref l, s.persisted_b l true, s.persisted_a l true⟩
      · rfl
      · exact State.rd_loadEnds_result ..
    · refine ⟨_, exec_imagePersistDone false hs hl hst, rfl, State.rd_loadEnds_bad _ _ (by decide), fun hb => ?_, fun hb => ?_⟩
      · obtain ⟨_, hother, hvalid⟩ := s.persisted_b l false hb
        exact ⟨hvalid, hother⟩
      · obtain ⟨_, hother, hvalid⟩ := s.persisted_a l false hb
        exact ⟨hvalid, hother⟩
  case minseq =>
    intro who v s hp ho hlow hslots
    exact ⟨_, exec_strMinseqWrite_owner hp ho hlow hslots, (State.rd_wr_same ..).trans (Nat.mod_eq_of_lt v.isLt)⟩

end Sys2Proof.Machine

/-!
# The level of held writes (R108, R109)

O21 says of HOLD_EXPIRE that MAP_HOLD.HELD falls by one, whatever it reads. HELD has ten bits, and `State.wr` cuts what is set to
the width of its field: in a state whose HELD reads more than ten bits hold, which the statement does not leave out, HELD is then
not one less but what is left of that in ten bits.
-/

namespace Sys2Proof.Machine

section
variable (s : State)

/-- R68: what is no LD has no event log. -/
theorem State.failEvent_notLd {agent : Nat} (line cause txn : Nat) (h : 64 ≤ agent) : s.failEvent agent line cause txn = s := by
  unfold State.failEvent
  split
  · rfl
  · exact if_neg (Nat.not_lt.2 h)

/-- R110: a line that is not in a table with room is entered in it. -/
theorem State.dropLine_new {line : Nat} (hnew : s.map.dropped.contains line = false) (hroom : s.map.dropped.length < 1024) :
    s.dropLine line = ({ s with map := { s.map with dropped := s.map.dropped ++ [line] } }).wr F.MAP_DROP_USED
      (s.map.dropped ++ [line]).length := by
  unfold State.dropLine
  rw [if_neg (by rw [hnew]; exact Bool.false_ne_true), if_neg (Nat.not_le.2 hroom)]

/-- R90: with no access in a page-wait queue there is nothing to serve. -/
theorem State.serveQueueN_idle (h : ∀ r ∈ s.map.reqs, r.st ≠ .busyWait) (n sl : Nat) : State.serveQueueN n s sl = s := by
  have hfind : s.map.reqs.find? (fun r => r.st == .busyWait && pageSlice (r.line / 64) == sl && !s.pageShut (r.line / 64))
      = none := List.find?_eq_none.2 fun r hr => by simp [h r hr]
  cases n with
  | zero => rfl
  | succ n => simp only [State.serveQueueN, hfind]

theorem State.serveQueues_idle (h : ∀ r ∈ s.map.reqs, r.st ≠ .busyWait) : s.serveQueues = s :=
  State.forEach_induct (P := fun t => t = s) rfl fun _ sl _ ht => by
    subst ht
    exact State.serveQueueN_idle _ h _ sl

theorem State.setReq_map (r : MapReq) (st : ReqSt) : (s.setReq r st).map = (s.markReq r st).map := by
  unfold State.setReq
  split <;> rfl

/-- R109: the expiry of a held write for which no frame is free. -/
theorem exec_holdExpire_dropped {s : State} {h : Fin 16} {tt : BitVec 8} {r : MapReq} (hs : s.stage = .running)
    (hr : s.mapReq h tt.toNat true = some r) (hheld : r.st = .held) (hp : s.tierPaused = false)
    (hf : ∀ g, s.frameSrc (r.line / 64) ≠ .frame g) : exec (.holdExpire h tt) s = .next (s.expireHeld r) := by
  change execHoldExpire h tt s = _
  rw [execHoldExpire, onDie_running hs, hr]
  dsimp only
  rw [if_neg (by simp [hheld, hp])]
  split
  next f hframe => exact absurd hframe (hf f)
  · rfl

end

/-- A write of TT entry 0 of home 0 to line 0, held for space; its agent is no LD. -/
def heldWrite : MapReq :=
  { home := 0, tt := 0, write := true, line := 0, data := 0, mask := 0, poison := false, master := 80, agent := 80, st := .held }

/-- A running die with that write held, no frame anywhere, and a value in MAP_HOLD.HELD that its ten bits do not hold. -/
def overfullHold : State :=
  { stage := .running, regs := [(F.MAP_HOLD_HELD.key 0 0, 2 ^ 10 + 1)], map := { reqs := [heldWrite] } }

theorem overfullHold_rd : overfullHold.rd F.MAP_HOLD_HELD = 2 ^ 10 + 1 := by decide

theorem overfullHold_mapReq : overfullHold.mapReq (0 : Fin 16) (0 : BitVec 8).toNat true = some heldWrite := by
  simp [State.mapReq, overfullHold, heldWrite]

theorem overfullHold_frameSrc : overfullHold.frameSrc (heldWrite.line / 64) = .none := by decide +kernel

/-- Once the level has been counted down, the expiry of that write leaves it. -/
theorem rd_held_expireHeld {u : State} (hmap : u.map = overfullHold.map) :
    ((((u.dropLine heldWrite.line).failEvent heldWrite.agent heldWrite.line 3 2).setReq heldWrite .served).serveQueues).rd
      F.MAP_HOLD_HELD = u.rd F.MAP_HOLD_HELD := by
  have hfar : heldWrite.far = false := by decide
  have hdropped : u.map.dropped = [] := by rw [hmap]; rfl
  have hreqs : u.map.reqs = [heldWrite] := by rw [hmap]; rfl
  rw [State.failEvent_notLd _ _ _ _ (by decide), State.dropLine_new u (by rw [hdropped]; rfl) (by rw [hdropped]; decide)]
  rw [State.serveQueues_idle, State.setReq_rd, State.rd_wr_ne _ _ (by decide)]
  · rfl
  · rw [State.setReq_map]
    change ∀ r ∈ u.map.reqs.map _, _
    rw [hreqs]
    simp [heldWrite]

/-- Refutes O21, at the clause on HOLD_EXPIRE: HELD reads 1025, in ten bits it is counted down to 0, and the statement says 1024. -/
theorem not_spaceForWrites : ¬ Obligations.SpaceForWrites := by
  unfold Obligations.SpaceForWrites
  rintro ⟨-, -, -, hexpire, -⟩
  have hframe : ∀ g, overfullHold.frameSrc (heldWrite.line / 64) ≠ .frame g := by
    intro g
    rw [overfullHold_frameSrc]
    exact FrameSrc.noConfusion
  obtain ⟨-, hdrop⟩ := hexpire 0 0 heldWrite overfullHold rfl overfullHold_mapReq rfl
  obtain ⟨t, ht, u, htu, -, hheld, -, -, hmap, -⟩ := hdrop rfl hframe
  rw [exec_holdExpire_dropped rfl overfullHold_mapReq rfl rfl hframe] at ht
  have hlevel : (overfullHold.expireHeld heldWrite).rd F.MAP_HOLD_HELD = 0 :=
    (rd_held_expireHeld (u := ((overfullHold.sub F.MAP_HOLD_HELD 1).bump F.MAP_HOLD_STAT_EXPIRED).set F.MAP_IRQ_EXPIRE) rfl).trans
      (by decide)
  have hsame : overfullHold.expireHeld heldWrite = t := Host.Outcome.next.inj ht
  rw [hsame, htu, rd_held_expireHeld hmap, hheld, overfullHold_rd] at hlevel
  exact absurd hlevel (by decide)

end Sys2Proof.Machine

/-!
# Training, readings, PMIC faults and error counters of a channel

What a record, a round over ranks and a change of a channel leave as they are, then what the end of a training (R266, R268), a PMIC
fault (R269) and a leak of the device counters (R279) make of a channel.
-/

namespace Sys2Proof.Machine

/-! ### Rounds over a list -/

section
variable {α β : Type} {s : State} {l : List α} {f : State → α → State}

/-- What no round changes is the same after all rounds. -/
theorem State.forEach_keeps {p : State → β} (h : ∀ t y, p (f t y) = p t) : p (s.forEach l f) = p s :=
  State.forEach_induct (P := fun t => p t = p s) rfl fun t y _ ht => (h t y).trans ht

/-- What one round of the list sets to a value, and every other round sets to it or keeps, has that value after all rounds. -/
theorem State.forEach_sets {p : State → β} {v : β} {x : α} (hx : x ∈ l) (hset : ∀ t, p (f t x) = v)
    (hkeep : ∀ t y, p t = v → p (f t y) = v) : p (s.forEach l f) = v := by
  induction l generalizing s with
  | nil => cases hx
  | cons y l ih =>
    rw [State.forEach_cons]
    rcases List.mem_cons.1 hx with rfl | hx
    · exact State.forEach_induct (P := fun t => p t = v) (hset s) fun t y _ ht => hkeep t y ht
    · exact ih hx

/-- Writing one value into an entry of a field for each of a list leaves that value in each. -/
theorem State.rd_forEach_wr {s : State} {l : List Nat} {r : Nat} (g : Field) (v i : Nat) (hr : r ∈ l) :
    (s.forEach l (fun s r => s.wr g v i r)).rd g i r = v % 2 ^ g.width :=
  State.forEach_sets (p := fun t => t.rd g i r) hr (fun t => State.rd_wr_same t g v i r) fun t q ht => by
    rcases eq_or_ne (g.key i r) (g.key i q) with e | e
    · obtain ⟨-, rfl⟩ := Field.key_inj e
      exact State.rd_wr_same t g v i r
    · exact (State.rd_wr_ne t v e).trans ht

end

/-! ### Records and module events -/

section
variable (s : State) (cls sev blk inst a1 a2 d : Nat)

theorem pushRing_getLast? {α : Type} (n : Nat) (l : List α) (x : α) (hn : 0 < n) : (pushRing n l x).getLast? = some x := by
  unfold pushRing
  rw [List.getLast?_drop, if_neg (by simp; omega), List.getLast?_concat]

/-- The fields that the writing of a record changes (R404, R410). -/
def recordFields (sev : Nat) : List Field :=
  [F.RAS_STATUS_NEXT_SEQ, F.RAS_STATUS_OVF, F.RAS_STATUS_COUNT, F.RAS_CNT_COUNT, rasIrqField sev, F.GEN_STATUS_FAULT]

/-- What neither the ring, the nonvolatile store nor one of those fields changes, a record leaves. -/
theorem State.record_keeps {β : Type} {p : State → β} (hras : ∀ t l, p { t with ras := l } = p t)
    (hnvs : ∀ t n, p { t with nvs := n } = p t) (hwr : ∀ f ∈ recordFields sev, ∀ t v i j, p (State.wr t f v i j) = p t) :
    p (s.record cls sev blk inst a1 a2 d) = p s := by
  have hfault : ∀ (t : State) (n : Nvs), p (if 2 ≤ sev then ({ t with nvs := n }).set F.GEN_STATUS_FAULT else t) = p t := by
    intro t n
    split
    · exact (hwr _ (by simp [recordFields]) ..).trans (hnvs t n)
    · rfl
  have hcount : ∀ (c : Prop) [Decidable c] (t : State) (n : Nat),
      p (if c then t.bump F.RAS_STATUS_OVF else t.wr F.RAS_STATUS_COUNT n) = p t := by
    intro c _ t n
    split
    · exact hwr _ (by simp [recordFields]) ..
    · exact hwr _ (by simp [recordFields]) ..
  unfold State.record
  extract_lets r full s1 s2 s3 s4
  calc p _ = p s4 := hfault ..
    _ = p s3 := (hwr F.RAS_CNT_COUNT (by simp [recordFields]) ..).trans (hwr _ (by simp [recordFields]) ..)
    _ = p s2 := hcount ..
    _ = p s1 := hwr F.RAS_STATUS_NEXT_SEQ (by simp [recordFields]) ..
    _ = p s := hras ..

theorem State.rd_record_ne {g : Field} {k m : Nat} (h : ∀ f ∈ recordFields sev, g.id % 2 ^ 32 ≠ f.id % 2 ^ 32) :
    (s.record cls sev blk inst a1 a2 d).rd g k m = s.rd g k m :=
  State.record_keeps (p := fun t => t.rd g k m) _ _ _ _ _ _ _ _ (fun _ _ => rfl) (fun _ _ => rfl)
    fun f hf t v _ _ => State.rd_wr_ne t v (Field.key_ne_of_id (h f hf))

theorem State.record_mem : (s.record cls sev blk inst a1 a2 d).mem = s.mem :=
  State.record_keeps (p := State.mem) _ _ _ _ _ _ _ _ (fun _ _ => rfl) (fun _ _ => rfl) fun _ _ _ _ _ _ => rfl

theorem State.record_dram : (s.record cls sev blk inst a1 a2 d).dram = s.dram :=
  State.record_keeps (p := State.dram) _ _ _ _ _ _ _ _ (fun _ _ => rfl) (fun _ _ => rfl) fun _ _ _ _ _ _ => rfl

/-- R404: the record written is the last of the ring. -/
theorem State.record_last : (s.record cls sev blk inst a1 a2 d).ras.getLast?.map (fun x => (x.cls, x.sev, x.blk, x.inst)) =
    some (cls, sev, blk, inst) := by
  unfold State.record
  extract_lets r full s1 s2 s3 s4
  have hcount : s3.ras = s2.ras := by
    change (if full then _ else _ : State).ras = _
    split
    · exact State.wr_ras ..
    · exact State.wr_ras ..
  have hring : s4.ras = pushRing 1024 s.ras r := by
    simp only [s4, State.bump_eq, State.set_eq, State.wr_ras, hcount]
    simp only [s2, s1, State.add_eq, State.wr_ras]
  have hlast : (if 2 ≤ sev then ({ s4 with nvs := { s4.nvs with ring := pushRing 64 s4.nvs.ring r } }).set F.GEN_STATUS_FAULT
      else s4).ras = pushRing 1024 s.ras r := by
    split
    · simp only [State.set_eq, State.wr_ras, hring]
    · exact hring
  rw [hlast, pushRing_getLast? _ _ _ (by decide)]
  rfl

end

/-- R69: a Memory Module event changes nothing but the LDs. -/
theorem State.moduleEvent_keeps {β : Type} {p : State → β} (hp : ∀ t l f, p (State.onLd t l f) = p t) (s : State) (cause : Nat) :
    p (s.moduleEvent cause) = p s :=
  State.forEach_keeps fun t e => by
    unfold State.event
    exact hp t e.ld _

/-! ### A channel's accesses -/

/-- Every access that a channel holds: waiting, admitted or issued. -/
def ChanSt.accs (x : ChanSt) : List LineAcc := x.wait ++ x.inq ++ x.bq ++ x.issued

section
variable (s : State) (c : Nat)

@[simp] theorem State.chan_setChan (x : ChanSt) : (s.setChan c x).chan c = x := smGet_smSet_same _ _ _ _

theorem State.chan_of_dram {s t : State} (h : t.dram = s.dram) : t.chan c = s.chan c := by
  unfold State.chan; rw [h]

/-- R254: the write-drain mode moves no access. -/
theorem State.showDrain_accs : ((s.showDrain c).chan c).accs = (s.chan c).accs := by
  have hset : ∀ b, ((s.setChan c { s.chan c with drain := b }).chan c).accs = (s.chan c).accs := fun b => by
    rw [State.chan_setChan]; rfl
  unfold State.showDrain
  dsimp only
  split
  · exact hset true
  · split
    · exact hset false
    · rfl

theorem State.showDrain_mem : (s.showDrain c).mem = s.mem := by
  unfold State.showDrain
  dsimp only
  split
  · rfl
  · split <;> rfl

theorem State.rd_showDrain_ne {g : Field} {k m : Nat} (h : g.id % 2 ^ 32 ≠ F.DRC_STAT_COUNT.id % 2 ^ 32) :
    (s.showDrain c).rd g k m = s.rd g k m := by
  unfold State.showDrain
  dsimp only
  split
  · exact State.rd_wr_ne _ _ (Field.key_ne_of_id h)
  · split <;> rfl

/-- The fields in which a channel shows its real-time ports (R255, R256). -/
def rtFields : List Field := [F.DRC_RT_LEVEL, F.DRC_RT_URG, F.DRC_STAT_COUNT, F.DRC_STATUS_PANIC]

/-- What neither the channel's real-time events nor those fields change, `State.showRt` leaves. -/
theorem State.showRt_keeps {β : Type} {p : State → β}
    (hchan : ∀ p0 p1, p (s.setChan c { s.chan c with panic0 := p0, panic1 := p1 }) = p s)
    (hwr : ∀ f ∈ rtFields, ∀ t v i j, p (State.wr t f v i j) = p t) : p (s.showRt c) = p s := by
  unfold State.showRt
  extract_lets x f p0 p1 new s1 s2
  have hports : p s2 = p s1 := State.forEach_keeps fun t k =>
    (hwr F.DRC_RT_URG (by simp [rtFields]) ..).trans (hwr F.DRC_RT_LEVEL (by simp [rtFields]) ..)
  exact (hwr F.DRC_STATUS_PANIC (by simp [rtFields]) ..).trans <|
    (hwr F.DRC_STAT_COUNT (by simp [rtFields]) ..).trans <| hports.trans (hchan p0 p1)

theorem State.showRt_accs : ((s.showRt c).chan c).accs = (s.chan c).accs :=
  State.showRt_keeps (p := fun t => (t.chan c).accs) s c (fun _ _ => by rw [State.chan_setChan]; rfl) fun _ _ _ _ _ _ => rfl

theorem State.showRt_mem : (s.showRt c).mem = s.mem :=
  State.showRt_keeps (p := State.mem) s c (fun _ _ => rfl) fun _ _ _ _ _ _ => rfl

theorem State.rd_showRt_ne {g : Field} {k m : Nat} (h : ∀ f ∈ rtFields, g.id % 2 ^ 32 ≠ f.id % 2 ^ 32) :
    (s.showRt c).rd g k m = s.rd g k m :=
  State.showRt_keeps (p := fun t => t.rd g k m) s c (fun _ _ => rfl)
    fun f hf t v _ _ => State.rd_wr_ne t v (Field.key_ne_of_id (h f hf))

end

/-! ### What keeps the stores -/

theorem SameStore.refl (s : State) : SameStore s s := ⟨rfl, rfl, rfl, rfl, rfl, rfl⟩

section
variable {s t : State}

theorem SameStore.wr {f : Field} {v i j : Nat} (h : SameStore s t) : SameStore s (t.wr f v i j) := h

theorem SameStore.onChan {c : Nat} {f : ChanSt → ChanSt} (h : SameStore s t) : SameStore s (t.onChan c f) := h

theorem SameStore.when {b : Bool} {f : State → State} (h : SameStore s t) (hf : SameStore s (f t)) :
    SameStore s (t.when b f) := by
  cases b
  · exact h
  · exact hf

theorem SameStore.forEach {α : Type} {l : List α} {f : State → α → State} (h : SameStore s t)
    (hf : ∀ u y, SameStore s u → SameStore s (f u y)) : SameStore s (t.forEach l f) :=
  State.forEach_induct h fun u y _ hu => hf u y hu

end

/-! ### PMIC faults (R269) -/

section
variable (s : State) (c d : Nat)

/-- The ranks of a DIMM that are up. -/
def State.upRanks : List Nat := (List.range 4).filter (fun r => s.rankUp c r && s.dimmOf c r == d)

theorem State.mem_upRanks {r : Fin 4} : r.val ∈ s.upRanks c d ↔ s.rankUp c r = true ∧ s.dimmOf c r = d := by
  simp [State.upRanks]

/-- R269: the fault takes the ranks' accesses off the channel. -/
def State.dropAccs (l : List Nat) : State :=
  let keep := fun (a : LineAcc) => !l.contains (claRank (s.target c a.cla).1)
  s.onChan c (fun x => { x with wait := x.wait.filter keep, inq := x.inq.filter keep, bq := x.bq.filter keep,
                                issued := x.issued.filter keep })

/-- R269: the fault takes the ranks offline. -/
def State.ranksOff (l : List Nat) : State :=
  s.forEach l (fun s r => (s.wr F.DRC_RANK_STATUS_STATE rankOFFLINE c r).record 0x40 2 rasDRC c c r)

/-- R269: the fault is reported, and what the channel shows follows. -/
def State.reportPmic : State :=
  (((((s.moduleEvent 0).bump F.DRC_ERR_PMIC_FAULT 1 c).set F.DRC_IRQ_PMIC c).showDrain c).showRef c).showRt c

theorem State.pmicFault_none (h : s.upRanks c d = []) : s.pmicFault c d = s := if_pos (List.isEmpty_iff.2 h)

theorem State.pmicFault_some (h : s.upRanks c d ≠ []) :
    s.pmicFault c d = ((s.dropAccs c (s.upRanks c d)).ranksOff c (s.upRanks c d)).reportPmic c :=
  if_neg fun he => h (List.isEmpty_iff.1 he)

/-- No access left on the channel is to one of those ranks. -/
theorem State.dropAccs_accs (l : List Nat) :
    ∀ a ∈ ((s.dropAccs c l).chan c).accs, claRank (s.target c a.cla).1 ∉ l := by
  intro a ha
  simp only [State.dropAccs, State.onChan, State.chan_setChan, ChanSt.accs, ← List.filter_append] at ha
  simpa using (List.mem_filter.1 ha).2

/-! The ranks go offline. -/

theorem State.ranksOff_mem (l : List Nat) : (s.ranksOff c l).mem = s.mem :=
  State.forEach_keeps (p := State.mem) fun _ _ => State.record_mem ..

theorem State.ranksOff_dram (l : List Nat) : (s.ranksOff c l).dram = s.dram :=
  State.forEach_keeps (p := State.dram) fun _ _ => State.record_dram ..

theorem State.rd_ranksOff_ne {l : List Nat} {g : Field} {k m : Nat}
    (h : ∀ f ∈ F.DRC_RANK_STATUS_STATE :: recordFields 2, g.id % 2 ^ 32 ≠ f.id % 2 ^ 32) :
    (s.ranksOff c l).rd g k m = s.rd g k m :=
  State.forEach_keeps (p := fun t => t.rd g k m) fun t _ =>
    (State.rd_record_ne _ _ _ _ _ _ _ _ fun f hf => h f (List.mem_cons_of_mem _ hf)).trans
      (State.rd_wr_ne t _ (Field.key_ne_of_id (h _ (List.mem_cons_self ..))))

theorem State.rd_ranksOff_state {l : List Nat} {r : Nat} (hr : r ∈ l) :
    (s.ranksOff c l).rd F.DRC_RANK_STATUS_STATE c r = rankOFFLINE := by
  have hrec : ∀ (t : State) (q : Nat), (t.record 0x40 2 rasDRC c c q).rd F.DRC_RANK_STATUS_STATE c r =
      t.rd F.DRC_RANK_STATUS_STATE c r := fun t q => State.rd_record_ne _ _ _ _ _ _ _ _ (by decide)
  refine State.forEach_sets (p := fun t => t.rd F.DRC_RANK_STATUS_STATE c r) hr (fun t => ?_) fun t q ht => ?_
  · exact (hrec ..).trans (State.rd_wr_same ..)
  · refine (hrec ..).trans ?_
    rcases eq_or_ne (F.DRC_RANK_STATUS_STATE.key c r) (F.DRC_RANK_STATUS_STATE.key c q) with e | e
    · obtain ⟨-, rfl⟩ := Field.key_inj e
      exact State.rd_wr_same ..
    · exact (State.rd_wr_ne t _ e).trans ht

/-! The fault is reported. -/

theorem State.reportPmic_mem : (s.reportPmic c).mem = s.mem :=
  (State.showRt_mem ..).trans <| (State.wr_mem ..).trans <| (State.showDrain_mem ..).trans <| (State.wr_mem ..).trans <|
    (State.wr_mem ..).trans (State.moduleEvent_keeps (p := State.mem) (fun _ _ _ => rfl) ..)

theorem State.reportPmic_accs : ((s.reportPmic c).chan c).accs = (s.chan c).accs :=
  (State.showRt_accs ..).trans <| Eq.trans (congrArg ChanSt.accs (State.chan_of_dram c (State.wr_dram ..))) <|
    (State.showDrain_accs ..).trans <| congrArg ChanSt.accs <| State.chan_of_dram c <|
      (State.wr_dram ..).trans <| (State.wr_dram ..).trans (State.moduleEvent_keeps (p := State.dram) (fun _ _ _ => rfl) ..)

/-- The fields in which a channel shows its queues and its refresh interval. -/
def shownFields : List Field := F.DRC_STAT_COUNT :: F.DRC_REF_TREFI :: rtFields

theorem State.rd_moduleEvent {g : Field} {k m : Nat} (cause : Nat) : (s.moduleEvent cause).rd g k m = s.rd g k m :=
  State.moduleEvent_keeps (p := fun t => t.rd g k m) (fun _ _ _ => rfl) ..

theorem State.rd_reportPmic {g : Field} {k m : Nat} (h : ∀ f ∈ shownFields, g.id % 2 ^ 32 ≠ f.id % 2 ^ 32) :
    (s.reportPmic c).rd g k m = (((s.moduleEvent 0).bump F.DRC_ERR_PMIC_FAULT 1 c).set F.DRC_IRQ_PMIC c).rd g k m :=
  (State.rd_showRt_ne _ _ fun f hf => h f (by simp [shownFields, hf])).trans <|
    (State.rd_wr_ne _ _ (Field.key_ne_of_id (h F.DRC_REF_TREFI (by simp [shownFields])))).trans <|
      State.rd_showDrain_ne _ _ (h F.DRC_STAT_COUNT (by simp [shownFields]))

theorem State.rd_reportPmic_irq : (s.reportPmic c).rd F.DRC_IRQ_PMIC c = 1 :=
  (State.rd_reportPmic _ _ (by decide)).trans (State.rd_wr_same ..)

theorem State.rd_reportPmic_err :
    (s.reportPmic c).rd F.DRC_ERR_PMIC_FAULT c = min (s.rd F.DRC_ERR_PMIC_FAULT c + 1) (2 ^ F.DRC_ERR_PMIC_FAULT.width - 1) := by
  rw [State.rd_reportPmic _ _ (by decide), State.set_eq, State.rd_wr_ne _ _ (Field.key_ne_of_id (by decide)),
    State.rd_bump_same, State.rd_moduleEvent]

theorem State.rd_reportPmic_state (r : Nat) : (s.reportPmic c).rd F.DRC_RANK_STATUS_STATE c r = s.rd F.DRC_RANK_STATUS_STATE c r :=
  (State.rd_reportPmic _ _ (by decide)).trans <| (State.rd_wr_ne _ _ (Field.key_ne_of_id (by decide))).trans <|
    (State.rd_wr_ne _ _ (Field.key_ne_of_id (by decide))).trans (State.rd_moduleEvent ..)

end

theorem exec_pmicFault {s : State} (c : Fin 16) (d : Fin 2) (hs : s.stage = .running) :
    exec (.pmicFault c d) s = .next (s.pmicFault c d) := by
  change execPmicFault c d s = _
  rw [execPmicFault, onDie_running hs]

/-- R269: what a PMIC fault of a DIMM with a rank that is up does. -/
theorem pmicFault_offline (c : Fin 16) (d : Fin 2) {s : State} (h : s.upRanks c d ≠ []) :
    (∀ r : Fin 4, s.rankUp c r = true → s.dimmOf c r = d.val → (s.pmicFault c d).rd F.DRC_RANK_STATUS_STATE c r = rankOFFLINE) ∧
    (s.pmicFault c d).rd F.DRC_ERR_PMIC_FAULT c = min (s.rd F.DRC_ERR_PMIC_FAULT c + 1) (2 ^ F.DRC_ERR_PMIC_FAULT.width - 1) ∧
    (s.pmicFault c d).rd F.DRC_IRQ_PMIC c = 1 ∧ (s.pmicFault c d).mem = s.mem ∧
    ∀ a ∈ ((s.pmicFault c d).chan c).accs, ∀ r : Fin 4, s.rankUp c r = true → s.dimmOf c r = d.val →
      claRank (s.target c a.cla).1 ≠ r.val := by
  rw [State.pmicFault_some _ _ _ h]
  refine ⟨fun r hup hd => ?_, ?_, State.rd_reportPmic_irq .., ?_, fun a ha r hup hd he => ?_⟩
  · exact (State.rd_reportPmic_state ..).trans (State.rd_ranksOff_state _ _ ((s.mem_upRanks c d).2 ⟨hup, hd⟩))
  · rw [State.rd_reportPmic_err, State.rd_ranksOff_ne _ _ (by decide)]
    rfl
  · exact (State.reportPmic_mem ..).trans (State.ranksOff_mem ..)
  · rw [State.reportPmic_accs, State.chan_of_dram _ (State.ranksOff_dram ..)] at ha
    exact State.dropAccs_accs _ _ _ a ha (he ▸ (s.mem_upRanks c d).2 ⟨hup, hd⟩)

/-! ### The leak of the error counters (R279) -/

/-- The number whose digit `d`, of six bits each and the lowest first, is `f d`, for the first `n`. -/
def sixBitNum (f : Nat → Nat) (n : Nat) : Nat := (List.range n).foldl (fun a d => a + f d * 2 ^ (6 * d)) 0

theorem sixBitNum_succ (f : Nat → Nat) (n : Nat) : sixBitNum f (n + 1) = sixBitNum f n + f n * 2 ^ (6 * n) := by
  simp [sixBitNum, List.range_succ]

section
variable {f : Nat → Nat} (hf : ∀ d, f d < 64)
include hf

theorem sixBitNum_lt (n : Nat) : sixBitNum f n < 2 ^ (6 * n) := by
  induction n with
  | zero => exact Nat.one_pos
  | succ n ih =>
    have hd : f n * 2 ^ (6 * n) ≤ 63 * 2 ^ (6 * n) := Nat.mul_le_mul_right _ (Nat.le_of_lt_succ (hf n))
    rw [sixBitNum_succ, Nat.mul_succ, Nat.pow_add]
    omega

theorem sixBitNum_digit {n d : Nat} (hd : d < n) : sixBitNum f n / 2 ^ (6 * d) % 64 = f d := by
  induction n with
  | zero => omega
  | succ n ih =>
    rw [sixBitNum_succ]
    rcases Nat.lt_succ_iff_lt_or_eq.1 hd with hlt | rfl
    · have hpow : f n * 2 ^ (6 * n) = 64 * (f n * 2 ^ (6 * (n - d - 1))) * 2 ^ (6 * d) := by
        have hn : 6 * n = 6 + 6 * (n - d - 1) + 6 * d := by omega
        rw [hn, Nat.pow_add, Nat.pow_add]
        ring
      rw [hpow, Nat.add_mul_div_right _ _ (Nat.two_pow_pos _), Nat.add_mul_mod_self_left, ih hlt]
    · rw [Nat.add_mul_div_right _ _ (Nat.two_pow_pos _), Nat.div_eq_of_lt (sixBitNum_lt hf d), Nat.zero_add,
        Nat.mod_eq_of_lt (hf d)]

end

theorem bits_six (v d : Nat) : bits v (6 * d + 5) (6 * d) = v / 2 ^ (6 * d) % 64 := by
  have h : 6 * d + 5 + 1 - 6 * d = 6 := by omega
  rw [bits, h]
  rfl

theorem exec_ceLeak {s : State} (c : Fin 16) (r : Fin 4) (hs : s.stage = .running) :
    exec (.ceLeak c r) s = .next (s.wr F.DRC_ECC_RANK_DEVCE_DEVCE
      (sixBitNum (fun d => bits (s.rd F.DRC_ECC_RANK_DEVCE_DEVCE c r) (6 * d + 5) (6 * d) / 2) 10) c r) := by
  change execCeLeak c r s = _
  rw [execCeLeak, onDie_running hs, sixBitNum]

/-- R279: each device counter is half of what it was. -/
theorem ceLeak_halves (c : Fin 16) (r : Fin 4) {s : State} (hs : s.stage = .running) :
    Does (.ceLeak c r) s (fun t => SameStore s t ∧ t.out = s.out ∧ ∀ d, d < 10 →
      bits (t.rd F.DRC_ECC_RANK_DEVCE_DEVCE c r) (6 * d + 5) (6 * d) =
        bits (s.rd F.DRC_ECC_RANK_DEVCE_DEVCE c r) (6 * d + 5) (6 * d) / 2) := by
  refine ⟨_, exec_ceLeak c r hs, (SameStore.refl s).wr, State.wr_out .., fun d hd => ?_⟩
  have hhalf : ∀ k, bits (s.rd F.DRC_ECC_RANK_DEVCE_DEVCE c r) (6 * k + 5) (6 * k) / 2 < 64 := fun k => by
    rw [bits_six]; omega
  have hfits : F.DRC_ECC_RANK_DEVCE_DEVCE.width = 6 * 10 := by decide
  rw [State.rd_wr_same, hfits, Nat.mod_eq_of_lt (sixBitNum_lt hhalf 10), bits_six, sixBitNum_digit hhalf hd]

/-! ### Training (R266, R268) -/

/-- R266, R268: what the end of a training shows of a channel before its DIMMs are judged. -/
def State.probed (s : State) (c : Nat) (t : TrainReport) : State :=
  let dimm := fun (s : State) (d : Nat) (x : Option Spd) =>
    (s.wr F.DRC_DIMM_0_PRESENT (b2n x.isSome) c d).wr F.DRC_DIMM_1_SERIAL ((x.map (·.serial.toNat)).getD 0) c d
  (dimm (dimm ((s.wr F.DRC_STATUS_TRAIN_MS t.ms.toNat c).wr F.DRC_STATUS_TRAIN_MODE
    (if t.seeded && (s.wr F.DRC_STATUS_TRAIN_MS t.ms.toNat c).seeds then 1 else 2) c) 0 t.dimm0) 1 t.dimm1).sideband c
      (b2n t.dimm0.isNone + b2n t.dimm1.isNone)

/-- R247, R266: a channel becomes PRESENT, with its dies and its ranks. -/
def State.joined (s : State) (c dies nRanks : Nat) : State :=
  let s := (s.set F.DRC_CFG_PRESENT c).wr F.DRC_CFG_DIES (dies / 2) c
  let s := s.onChan c (fun y => { y with dies := dies, phaseA := s.st })
  s.forEach (List.range nRanks) (fun s r => s.wr F.DRC_RANK_STATUS_STATE rankACTIVE c r)

section
variable (s : State) (c : Nat) (t : TrainReport) (x : ChanReading)

/-- R266, R268: a training ends in an exclusion or with the channel present. -/
theorem State.trained_eq : s.trained c t x =
    if !dimmsOk (s.secs.chn c) t.dimm0 t.dimm1 then (s.probed c t).exclChan c 7
    else if t.result != 0 then (s.probed c t).exclChan c t.result.toNat
    else ((s.probed c t).joined c ((t.dimm0.map (·.dies.toNat)).getD 1) (s.secs.chn c).nRanks).reading c x := rfl

/-! The training's report. -/

theorem State.probed_sameStore : SameStore s (s.probed c t) :=
  have h : ∀ u : State, SameStore s u → ∀ n, SameStore s (u.sideband c n) := fun _ hu _ => SameStore.when hu.wr hu.wr.wr
  h _ (SameStore.refl s).wr.wr.wr.wr.wr.wr _

theorem State.rd_sideband_ne {absent : Nat} {g : Field} {k m : Nat}
    (h : ∀ f ∈ [F.DRC_SBUS_NAK, F.DRC_SBUS_I3C], g.id % 2 ^ 32 ≠ f.id % 2 ^ 32) : (s.sideband c absent).rd g k m = s.rd g k m := by
  have hnak : ∀ n i, (s.bump F.DRC_SBUS_NAK n i).rd g k m = s.rd g k m := fun n i =>
    State.rd_wr_ne _ _ (Field.key_ne_of_id (h _ (by simp)))
  unfold State.sideband State.when
  dsimp only
  split
  · exact (State.rd_wr_ne _ _ (Field.key_ne_of_id (h _ (by simp)))).trans (hnak ..)
  · exact hnak ..

theorem State.rd_probed_ms : (s.probed c t).rd F.DRC_STATUS_TRAIN_MS c = t.ms.toNat % 2 ^ F.DRC_STATUS_TRAIN_MS.width := by
  have hne : ∀ (u : State) (f : Field) (v i j : Nat), F.DRC_STATUS_TRAIN_MS.id % 2 ^ 32 ≠ f.id % 2 ^ 32 →
      (u.wr f v i j).rd F.DRC_STATUS_TRAIN_MS c = u.rd F.DRC_STATUS_TRAIN_MS c := fun u f v i j h =>
    State.rd_wr_ne u v (Field.key_ne_of_id h)
  exact (State.rd_sideband_ne _ _ (by decide)).trans <| (hne _ _ _ _ _ (by decide)).trans <| (hne _ _ _ _ _ (by decide)).trans <|
    (hne _ _ _ _ _ (by decide)).trans <| (hne _ _ _ _ _ (by decide)).trans <| (hne _ _ _ _ _ (by decide)).trans (State.rd_wr_same ..)

/-! The channel joins. -/

theorem State.joined_sameStore {u : State} (dies n : Nat) (h : SameStore s u) : SameStore s (u.joined c dies n) :=
  SameStore.forEach (SameStore.onChan h.wr.wr) fun _ _ hv => hv.wr

theorem State.rd_joined_ne {dies n k m : Nat} {g : Field}
    (h : ∀ f ∈ [F.DRC_RANK_STATUS_STATE, F.DRC_CFG_DIES, F.DRC_CFG_PRESENT], g.id % 2 ^ 32 ≠ f.id % 2 ^ 32) :
    (s.joined c dies n).rd g k m = s.rd g k m := by
  have hwr : ∀ f ∈ [F.DRC_RANK_STATUS_STATE, F.DRC_CFG_DIES, F.DRC_CFG_PRESENT], ∀ (u : State) (v i j : Nat),
      (u.wr f v i j).rd g k m = u.rd g k m := fun f hf u v _ _ => State.rd_wr_ne u v (Field.key_ne_of_id (h f hf))
  unfold State.joined
  exact (State.forEach_keeps (p := fun u => u.rd g k m) fun u r => hwr _ (by simp) u ..).trans <|
    Eq.trans (hwr F.DRC_CFG_DIES (by simp) _ ..) (hwr F.DRC_CFG_PRESENT (by simp) s ..)

theorem State.rd_joined_ranks (dies n : Nat) (i : Nat) {g : Field} (h : g.id % 2 ^ 32 ≠ F.DRC_RANK_STATUS_STATE.id % 2 ^ 32) :
    (s.joined c dies n).rd g i = ((s.set F.DRC_CFG_PRESENT c).wr F.DRC_CFG_DIES (dies / 2) c).rd g i :=
  State.forEach_keeps (p := fun u => u.rd g i) fun u _ => State.rd_wr_ne u _ (Field.key_ne_of_id h)

theorem State.rd_joined_present (dies n : Nat) : (s.joined c dies n).rd F.DRC_CFG_PRESENT c = 1 :=
  (State.rd_joined_ranks _ _ _ _ _ (by decide)).trans <| (State.rd_wr_ne _ _ (Field.key_ne_of_id (by decide))).trans
    (State.rd_wr_same ..)

theorem State.rd_joined_dies (dies n : Nat) :
    (s.joined c dies n).rd F.DRC_CFG_DIES c = dies / 2 % 2 ^ F.DRC_CFG_DIES.width :=
  (State.rd_joined_ranks _ _ _ _ _ (by decide)).trans (State.rd_wr_same ..)

theorem State.joined_dies (dies n : Nat) : ((s.joined c dies n).chan c).dies = dies := by
  unfold State.joined
  rw [State.chan_of_dram c (State.forEach_keeps (p := State.dram) fun _ _ => State.wr_dram ..), State.onChan, State.chan_setChan]

theorem State.rd_joined_rank (dies n : Nat) {r : Nat} (hr : r < n) :
    (s.joined c dies n).rd F.DRC_RANK_STATUS_STATE c r = rankACTIVE :=
  State.rd_forEach_wr _ _ _ (List.mem_range.2 hr)

/-! The channel is excluded. -/

/-- R16, R267: a channel leaves the running channels; its ranks are absent. -/
def State.left (s : State) (c result : Nat) : State :=
  (((s.clear F.DRC_CFG_PRESENT c).set F.DRC_CFG_EXCLUDED c).wr F.DRC_STATUS_TRAIN_RESULT result c).forEach (List.range 4)
    (fun s r => s.wr F.DRC_RANK_STATUS_STATE rankABSENT c r)

theorem State.exclChan_eq (result : Nat) :
    s.exclChan c result = ((s.left c result).set F.DRC_IRQ_TRAIN_FAIL c).record 0x31 2 rasDRC c c := rfl

theorem State.rd_exclChan {result k m : Nat} {g : Field} (h : ∀ f ∈ recordFields 2, g.id % 2 ^ 32 ≠ f.id % 2 ^ 32) :
    (s.exclChan c result).rd g k m = ((s.left c result).set F.DRC_IRQ_TRAIN_FAIL c).rd g k m :=
  State.rd_record_ne _ _ _ _ _ _ _ _ h

/-- The fields of `State.left` read, after the record, what it wrote to them. -/
theorem State.rd_exclChan_left {result : Nat} {g : Field}
    (h : ∀ f ∈ F.DRC_RANK_STATUS_STATE :: F.DRC_IRQ_TRAIN_FAIL :: recordFields 2, g.id % 2 ^ 32 ≠ f.id % 2 ^ 32) :
    (s.exclChan c result).rd g c =
      (((s.clear F.DRC_CFG_PRESENT c).set F.DRC_CFG_EXCLUDED c).wr F.DRC_STATUS_TRAIN_RESULT result c).rd g c :=
  (State.rd_exclChan _ _ fun f hf => h f (by simp [hf])).trans <|
    (State.rd_wr_ne _ _ (Field.key_ne_of_id (h _ (by simp)))).trans <|
      State.forEach_keeps (p := fun u => u.rd g c) fun u _ => State.rd_wr_ne u _ (Field.key_ne_of_id (h _ (by simp)))

/-- R16, R267, R268: what the exclusion of a channel shows. -/
theorem State.exclChan_shows (result : Nat) :
    (s.exclChan c result).rd F.DRC_CFG_PRESENT c = 0 ∧ (s.exclChan c result).rd F.DRC_CFG_EXCLUDED c = 1 ∧
    (s.exclChan c result).rd F.DRC_IRQ_TRAIN_FAIL c = 1 ∧
    (s.exclChan c result).rd F.DRC_STATUS_TRAIN_RESULT c = result % 2 ^ F.DRC_STATUS_TRAIN_RESULT.width ∧
    (s.exclChan c result).mem = s.mem ∧ (∀ r : Fin 4, (s.exclChan c result).rd F.DRC_RANK_STATUS_STATE c r = rankABSENT) ∧
    ((s.exclChan c result).ras.getLast?.map (fun x => (x.cls, x.sev, x.blk, x.inst))) = some (0x31, 2, rasDRC, c) := by
  refine ⟨?_, ?_, ?_, ?_, ?_, fun r => ?_, State.record_last ..⟩
  · rw [State.rd_exclChan_left _ _ (by decide), State.rd_wr_ne _ _ (Field.key_ne_of_id (by decide)), State.set_eq,
      State.rd_wr_ne _ _ (Field.key_ne_of_id (by decide))]
    exact State.rd_wr_same ..
  · rw [State.rd_exclChan_left _ _ (by decide), State.rd_wr_ne _ _ (Field.key_ne_of_id (by decide))]
    exact State.rd_wr_same ..
  · rw [State.rd_exclChan _ _ (by decide)]
    exact State.rd_wr_same ..
  · rw [State.rd_exclChan_left _ _ (by decide)]
    exact State.rd_wr_same ..
  · exact (State.record_mem ..).trans <| (State.wr_mem ..).trans <|
      State.forEach_keeps (p := State.mem) fun _ _ => State.wr_mem ..
  · rw [State.rd_exclChan _ _ (by decide), State.set_eq, State.rd_wr_ne _ _ (Field.key_ne_of_id (by decide))]
    exact State.rd_forEach_wr _ _ _ (List.mem_range.2 r.isLt)

end

/-! ### The end of a training, by its report -/

section
variable {s : State} (c : Fin 16) (t : TrainReport) (x : ChanReading)

theorem State.on_eq_false {f : Field} {i j : Nat} (h : s.rd f i j = 0) : s.on f i j = false := by
  simp [State.on, h]

theorem exec_channelTrainDone (hs : s.stage = .running) :
    exec (.channelTrainDone c t x) s = .next (if s.training c then s.trained c t x else s) := by
  change execChannelTrainDone c t x s = _
  rw [execChannelTrainDone, onDie_running hs]

theorem exec_phaseStaleRead (hs : s.stage = .running) : exec (.phaseStaleRead c x) s =
    .next (if s.on F.DRC_CFG_PRESENT c then (s.reading c x).set F.DRC_STATUS_PHASE_STALE c else s) := by
  change execPhaseStaleRead c x s = _
  rw [execPhaseStaleRead, onDie_running hs]

theorem exec_channelTrainDone_training (hs : s.stage = .running) (ht : s.training c = true) :
    exec (.channelTrainDone c t x) s = .next (s.trained c t x) := by
  rw [exec_channelTrainDone _ _ _ hs, if_pos ht]

/-- R266: DIMMs that are accepted, and a result of 0: the channel joins and takes its first readings. -/
theorem State.trained_accepted {d : Spd} (hok : dimmsOk (s.secs.chn c) t.dimm0 t.dimm1 = true) (hd : t.dimm0 = some d)
    (hr : t.result = 0) : s.trained c t x = ((s.probed c t).joined c d.dies.toNat (s.secs.chn c).nRanks).reading c x := by
  rw [State.trained_eq, hok, hd, hr]
  rfl

/-- R16, R267, R268: a mismatch, or a result that is not 0: the channel is excluded. -/
theorem State.trained_rejected (h : dimmsOk (s.secs.chn c) t.dimm0 t.dimm1 = false ∨ t.result ≠ 0) : s.trained c t x =
    (s.probed c t).exclChan c (if dimmsOk (s.secs.chn c) t.dimm0 t.dimm1 then t.result.toNat else 7) := by
  rw [State.trained_eq]
  cases hok : dimmsOk (s.secs.chn c) t.dimm0 t.dimm1 with
  | false => rfl
  | true =>
    have hr : t.result ≠ 0 := h.resolve_left (by simp [hok])
    rw [if_neg (by simp), if_pos (by simpa using hr), if_pos rfl]

theorem trainResult_fits (b : Bool) : (if b then t.result.toNat else 7) % 2 ^ F.DRC_STATUS_TRAIN_RESULT.width =
    if b then t.result.toNat else 7 := by
  have hwidth : F.DRC_STATUS_TRAIN_RESULT.width = 8 := rfl
  have := t.result.isLt
  rw [hwidth]
  split <;> omega

end

/-- Settles O42: what each end of a training, each reading, each PMIC fault and each leak makes of the channel. -/
theorem channelCare : Obligations.ChannelCare := by
  unfold Obligations.ChannelCare
  refine ⟨fun c t0 x s hs => ⟨fun hdpc hbank hpres hexcl => ?_, fun hnot => ?_, fun hpres => ?_, fun hpres => ?_⟩,
    fun c r s hs => ⟨⟨s, ?_, rfl⟩, ceLeak_halves c r hs⟩, fun c d s hs => ⟨fun r0 hup hd => ?_, fun hnone => ?_⟩⟩
  · have htrain : s.training c = true := by
      simp [State.training, hdpc, hbank, State.on_eq_false hpres, State.on_eq_false hexcl]
    refine ⟨fun d hok hd hr => ⟨_, exec_channelTrainDone_training c t0 x hs htrain, _, State.trained_accepted c t0 x hok hd hr,
      ?_⟩, fun hbad => ⟨_, exec_channelTrainDone_training c t0 x hs htrain, ?_⟩⟩
    · exact ⟨State.rd_joined_present .., State.rd_joined_dies .., State.joined_dies ..,
        (State.rd_joined_ne _ _ (by decide)).trans (State.rd_probed_ms ..),
        State.joined_sameStore _ _ _ _ (State.probed_sameStore ..), fun r hr => State.rd_joined_rank _ _ _ _ hr⟩
    · obtain ⟨hp, he, hirq, hres, hmem, hranks, hras⟩ := (s.probed c t0).exclChan_shows c
        (if dimmsOk (s.secs.chn c) t0.dimm0 t0.dimm1 then t0.result.toNat else 7)
      obtain ⟨hsame, -⟩ := s.probed_sameStore c t0
      rw [State.trained_rejected c t0 x hbad]
      exact ⟨hp, he, hirq, hres.trans (trainResult_fits t0 _), hmem.trans hsame, hranks, hras⟩
  · have htrain : s.training c = false := by
      rcases hnot with h | h | h | h <;> simp [State.training, h]
    exact ⟨s, by rw [exec_channelTrainDone _ _ _ hs, htrain]; rfl, rfl⟩
  · exact ⟨_, by rw [exec_phaseStaleRead _ _ hs, if_pos hpres], rfl, State.rd_wr_same ..⟩
  · exact ⟨s, by rw [exec_phaseStaleRead _ _ hs, State.on_eq_false hpres]; rfl, rfl⟩
  · change execRetrack c r s = _
    rw [execRetrack, onDie_running hs]
  · have hup : s.upRanks c d ≠ [] := List.ne_nil_of_mem ((s.mem_upRanks c d).2 ⟨hup, hd⟩)
    exact ⟨_, exec_pmicFault c d hs, pmicFault_offline c d hup⟩
  · refine ⟨_, exec_pmicFault c d hs, State.pmicFault_none _ _ _ (List.eq_nil_iff_forall_not_mem.2 fun r hr => ?_)⟩
    obtain ⟨hup, hd⟩ := (s.mem_upRanks c d (r := ⟨r, List.mem_range.1 (List.mem_filter.1 hr).1⟩)).1 hr
    rcases hnone ⟨r, List.mem_range.1 (List.mem_filter.1 hr).1⟩ with h | h
    · exact Bool.false_ne_true (h.symm.trans hup)
    · exact h hd

end Sys2Proof.Machine

/-!
# What counting leaves as it is (R326 to R337)

An event that is counted may wrap a counter, mark a request or an instruction, and leave a sample. It changes counters and
samples, and nothing else of the block.
-/

namespace Sys2Proof.Machine

/-! ### Reading a field after others are set -/

section
variable (s : State) {f g : Field} (v : Nat) {i j k m : Nat}

/-- Setting a field leaves the fields of every other number as they were. -/
theorem State.rd_wr_of_id (h : g.id % 2 ^ 32 ≠ f.id % 2 ^ 32) : (s.wr f v i j).rd g k m = s.rd g k m :=
  State.rd_wr_ne s v (Field.key_ne_of_id h)

theorem State.rd_of_regs {s t : State} (h : t.regs = s.regs) : t.rd g k m = s.rd g k m := by
  unfold State.rd
  rw [h]

theorem State.rd_withTime (x : TimeSt) : ({ s with time := x } : State).rd g k m = s.rd g k m := rfl

theorem State.clocked_of_running {s : State} (h : s.stage = .running) : s.clocked = true := by
  simp [State.clocked, h]

end

/-! ### What counting leaves as it is (R326 to R337) -/

/-- The fields that the counting of events changes. -/
def countFields : List Field :=
  [F.CNT_CYC_CYCLES, F.CNT_CTR_COUNT, F.CNT_OVF_OVF, F.CNT_OVF_SUM_UNITS, F.CNT_IRQ_OVF, F.SMP_STAT_BUFFERED, F.SMP_CTL_BUSY,
   F.SMP_STAT_LOST]

/-- What hangs on no count, no sample, no request under way and no free value: nothing that counting changes. -/
structure CountBlind {β : Type} (p : State → β) : Prop where
  wr : ∀ f ∈ countFields, ∀ (t : State) (v i j : Nat), p (t.wr f v i j) = p t
  smp : ∀ (t : State) x, p { t with smp := x } = p t
  txn : ∀ (t : State) x, p { t with txn := x } = p t
  free : ∀ (t : State) n, p { t with free := n } = p t

theorem countBlind_rd {g : Field} {k m : Nat} (h : ∀ f ∈ countFields, g.id % 2 ^ 32 ≠ f.id % 2 ^ 32) :
    CountBlind (fun t => t.rd g k m) where
  wr f hf t v _ _ := State.rd_wr_of_id t v (h f hf)
  smp _ _ := rfl
  txn _ _ := rfl
  free _ _ := rfl

theorem countBlind_time : CountBlind State.time := ⟨fun _ _ _ _ _ _ => rfl, fun _ _ => rfl, fun _ _ => rfl, fun _ _ => rfl⟩

theorem countBlind_mem : CountBlind State.mem := ⟨fun _ _ _ _ _ _ => rfl, fun _ _ => rfl, fun _ _ => rfl, fun _ _ => rfl⟩

namespace CountBlind

variable {β : Type} {p : State → β} (hp : CountBlind p) (s : State)
include hp

theorem bufferRecord (r : Bytes) : p (s.bufferRecord r) = p s := by
  unfold State.bufferRecord
  split
  · exact (hp.wr F.SMP_STAT_LOST (by simp [countFields]) ..).trans (hp.smp ..)
  · exact (hp.wr F.SMP_CTL_BUSY (by simp [countFields]) ..).trans <|
      (hp.wr F.SMP_STAT_BUFFERED (by simp [countFields]) ..).trans (hp.smp ..)

theorem onTxn (id : Option Nat) (f : Txn → Txn) : p (s.onTxn id f) = p s := by
  cases id with
  | none => rfl
  | some i => exact hp.txn ..

/-- R334: the record of a request draws five free values. -/
theorem markTxn (id : Option Nat) (m : Nat × Nat × Nat) (q : Qual) : p (s.markTxn id m q) = p s := by
  unfold State.markTxn
  split
  · exact hp.onTxn ..
  · exact (hp.bufferRecord ..).trans <| hp.free s (s.free + 5)

/-- R335: the record of an instruction draws four free values. -/
theorem markEvent (u k : Nat) (id : Option Nat) (q : Qual) : p (s.markEvent u k id q) = p s := by
  unfold State.markEvent
  dsimp only
  split
  · exact (hp.bufferRecord ..).trans <| hp.free s (s.free + 4)
  · exact hp.markTxn ..

theorem countN (u k n : Nat) (id : Option Nat) (q : Qual) : p (s.countN u k n id q) = p s := by
  have hwhen : ∀ (b : Bool) (f : State → State) (t : State), p (f t) = p t → p (t.when b f) = p t := fun b _ _ h => by
    cases b
    · rfl
    · exact h
  unfold State.countN
  dsimp only
  split
  · exact hp.wr F.CNT_CTR_COUNT (by simp [countFields]) ..
  · exact (hwhen _ _ _ (hp.markEvent ..)).trans <|
      (hwhen _ _ _ (hp.wr F.CNT_IRQ_OVF (by simp [countFields]) ..)).trans <|
        (hp.wr F.CNT_OVF_SUM_UNITS (by simp [countFields]) ..).trans <|
          (hp.wr F.CNT_OVF_OVF (by simp [countFields]) ..).trans (hp.wr F.CNT_CTR_COUNT (by simp [countFields]) ..)

theorem counts (u code : Nat) (q : Qual) (id : Option Nat) (n : Nat) : p (s.counts u code q id n) = p s := by
  unfold State.counts
  split
  · rfl
  · refine State.forEach_keeps fun t k => ?_
    split
    · exact hp.countN ..
    · rfl

theorem countCclks (k : Nat) : p (s.countCclks k) = p s := by
  unfold State.countCclks
  refine (State.forEach_keeps fun t c => ?_).trans <| (State.forEach_keeps fun t c => ?_).trans <|
    State.forEach_keeps fun t u => ?_
  · dsimp only
    split
    · exact hp.counts ..
    · rfl
  · exact (hp.counts ..).trans (hp.counts ..)
  · exact (hp.counts ..).trans (hp.wr F.CNT_CYC_CYCLES (by simp [countFields]) ..)

end CountBlind

end Sys2Proof.Machine

/-!
# Synchronisation to the Tally bus (R37, R44 to R48, Table 2-6)

What ACQUIRE and HOLDOVER change, what a frame does up to the mark that ends it, and the loading of TIM_ST_LOAD.
-/

namespace Sys2Proof.Machine

/-! ### ACQUIRE and HOLDOVER -/

section
variable (s : State)

theorem State.acquire_sync : s.acquire.sync = syACQUIRE := by
  simp (disch := decide) only [State.sync, State.acquire, State.clear_eq, State.set_eq, State.rd_wr_of_id, State.rd_withTime,
    State.rd_wr_same]
  rfl

theorem State.rd_acquire_unsync : s.acquire.rd F.TIM_STATUS_ST_UNSYNC = 1 := by
  simp (disch := decide) only [State.acquire, State.clear_eq, State.set_eq, State.rd_wr_of_id, State.rd_withTime,
    State.rd_wr_same]
  rfl

theorem State.rd_acquire_st : s.acquire.rd F.TIM_ST_ST = s.rd F.TIM_ST_ST := by
  simp (disch := decide) only [State.acquire, State.clear_eq, State.set_eq, State.rd_wr_of_id, State.rd_withTime]

/-- R48: what a LOCKED or acquiring controller die makes of the loss of TALLY_CLK. -/
def State.lose : State :=
  let s := ((s.wr F.TIM_STATUS_SYNC syHOLDOVER).set F.TIM_STATUS_ST_UNSYNC).clear F.TIM_STATUS_TALLY_PRESENT
  let s := ({ s with time := { s.time with goodFrames := 0, lastDiff := none } }).clear F.TIM_STATUS_SLEWING
  (s.bump F.TIM_ERR_LOSS).set F.TIM_IRQ_LOST

theorem State.lose_shows : s.lose.sync = syHOLDOVER ∧ s.lose.rd F.TIM_STATUS_ST_UNSYNC = 1 ∧
    s.lose.rd F.TIM_STATUS_TALLY_PRESENT = 0 ∧
    s.lose.rd F.TIM_ERR_LOSS = min (s.rd F.TIM_ERR_LOSS + 1) (2 ^ F.TIM_ERR_LOSS.width - 1) ∧
    s.lose.rd F.TIM_IRQ_LOST = 1 := by
  simp (disch := decide) only [State.sync, State.lose, State.clear_eq, State.set_eq, State.bump_eq, State.rd_wr_of_id,
    State.rd_withTime, State.rd_wr_same, satAdd_mod]
  exact ⟨rfl, rfl, rfl, trivial, rfl⟩

end

section
variable {s : State}

theorem exec_tallyAcquire_goodCycles (hs : s.stage = .running) (h : s.sync = syABSENT ∨ s.sync = syHOLDOVER) :
    exec (.tallyAcquire .goodCycles) s = .next
      (State.set (State.acquire { s with inl := { s.inl with tally := s.inl.standby } }) F.TIM_STATUS_TALLY_PRESENT) :=
  congrArg Host.Outcome.next ((if_neg (by simp [State.clocked, hs])).trans (if_pos h))

theorem exec_tallyAcquire_framingError (hs : s.stage = .running) (h : s.sync = syLOCKED) :
    exec (.tallyAcquire .framingError) s =
      .next (State.acquire { s with inl := { s.inl with locked := false, good := 0, lastDiff := none } }) :=
  congrArg Host.Outcome.next ((if_neg (by simp [State.clocked, hs])).trans (if_pos h))

theorem exec_holdover (hs : s.stage = .running) (h : s.sync = syACQUIRE ∨ s.sync = syLOCKED) :
    exec .holdover s =
      .next (State.lose { s with inl := { s.inl with tally := false, locked := false, good := 0, lastDiff := none } }) := by
  have hcond : (s.clocked && (s.sync == syACQUIRE || s.sync == syLOCKED)) = true := by
    simp [State.clocked_of_running hs, h]
  exact congrArg Host.Outcome.next (if_pos hcond)

theorem exec_stSlewDone (hs : s.stage = .running) (h : s.rd F.TIM_STATUS_SLEWING = 1) :
    exec .stSlewDone s = .next ((s.clear F.TIM_STATUS_SLEWING).clear F.TIM_STATUS_ST_UNSYNC) := by
  change execStSlewDone s = _
  rw [execStSlewDone, onClock_running hs, if_pos (by simp [State.on, h])]

/-- Table 2-12: TIM_ST_LOAD steps shelf time in ABSENT, and is ignored in any other state. -/
theorem exec_timStLoad {who : Initiator} {v : BitVec 64} (h : Permitted s who (F.TIM_ST_LOAD_ST.addr 0 0) true) :
    exec (.timStLoad who v) s = .next (if s.sync = syABSENT
      then (s.dropHalves who (F.TIM_ST_LOAD_ST.addr 0 0)).stepTo (v.toNat / 2 * 2)
      else s.dropHalves who (F.TIM_ST_LOAD_ST.addr 0 0)) := by
  change execTimStLoad who v s = _
  rw [execTimStLoad, onDie_running h.1, barWrite_permitted h, State.writeTim, if_pos rfl]
  rfl

end

/-! ### A frame on its way to its mark (R37 to R41) -/

section
variable (s : State) (f : TallyFrame)

/-- R38, Table 2-3: the controller die takes the hottest sensor's reading for the conditions of the frame. -/
def State.atFrame : State := { s with time := { s.time with temp := f.temp.toNat } }

/-- R38 to R41: both dies answer the rounds of a frame. -/
def State.answered : State :=
  let s := s.when s.answering (fun s => s.emit (.tally s.slot (answers f s.condition)))
  s.when (s.inl.standby && s.inl.tally) (fun s => s.emit (.tally s.inl.slot (answers f s.inletCondition)))

theorem State.when_emit (b : Bool) (o : State → Out) : ∃ l, s.when b (fun s => s.emit (o s)) = { s with out := l } := by
  cases b
  · exact ⟨s.out, rfl⟩
  · exact ⟨s.out ++ [o s], rfl⟩

/-- Answers are driven, and change nothing of the block. -/
theorem State.answered_eq : ∃ l, s.answered f = { s with out := l } := by
  unfold State.answered
  obtain ⟨l, hl⟩ := s.when_emit s.answering (fun s => .tally s.slot (answers f s.condition))
  rw [hl]
  exact State.when_emit { s with out := l } (s.inl.standby && s.inl.tally) _

/-- R43, R44: what a mark does on the inlet die changes nothing else. -/
theorem State.when_inletMark_eq (b : Bool) : ∃ i, s.when b (fun s => s.inletMark f) = { s with inl := i } := by
  cases b
  · exact ⟨s.inl, rfl⟩
  · refine ⟨(s.inletMark f).inl, ?_⟩
    change s.inletMark f = _
    unfold State.inletMark
    dsimp only
    repeat' split
    all_goals rfl

/-- R37 to R45: a valid frame is answered, and its mark acts on both dies. -/
def State.frameOk : State :=
  let s := s.answered f
  let s := s.when s.clocked (fun s => s.frameEnd f)
  s.when (s.inl.standby && s.inl.tally) (fun s => s.inletMark f)

/-- R37, R44: a frame that is not valid. -/
def State.frameBad : State :=
  let s := s.when s.clocked (fun s =>
    if s.sync = syLOCKED then s.acquire else { s with time := { s.time with goodFrames := 0 } })
  { s with inl := { s.inl with locked := false, good := 0, lastDiff := none } }

variable {s f}

theorem exec_tallyFrame (hs : s.stage = .running) : exec (.tallyFrame f) s =
    .next (if f.ok then (s.atFrame f).frameOk f else (s.atFrame f).frameBad) := by
  have hclk : (if s.clocked then s.atFrame f else s) = s.atFrame f := if_pos (State.clocked_of_running hs)
  rw [← hclk]
  rfl

/-- R44: a framing error in LOCKED. -/
theorem State.frameBad_locked (hs : s.stage = .running) (h : s.sync = syLOCKED) :
    s.frameBad = { s.acquire with inl := { s.inl with locked := false, good := 0, lastDiff := none } } := by
  simp only [State.frameBad, State.clocked_of_running hs, State.when_true, if_pos h]
  rfl

/-- R37: a valid frame is, for the controller die, its mark: the answers and what the inlet die does leave
its registers and its time. -/
theorem State.frameOk_mark (hs : s.stage = .running) : ∃ u : State, u.regs = s.regs ∧ u.time = s.time ∧
    (s.frameOk f).regs = (u.frameEnd f).regs ∧ (s.frameOk f).time = (u.frameEnd f).time := by
  obtain ⟨l, hl⟩ := s.answered_eq f
  have hclk : (s.answered f).clocked = true := by
    rw [hl]
    exact State.clocked_of_running hs
  obtain ⟨i, hi⟩ := ((s.answered f).frameEnd f).when_inletMark_eq f
    (((s.answered f).frameEnd f).inl.standby && ((s.answered f).frameEnd f).inl.tally)
  refine ⟨s.answered f, by rw [hl], by rw [hl], ?_⟩
  simp only [State.frameOk, hclk, State.when_true, hi, and_self]

end

/-! ### The mark of a valid frame (R43, R44) -/

section
variable (s : State) (f : TallyFrame)

/-- R222: what the mark of a valid frame shows and counts, whatever the state. -/
def State.frameShown : State := ((s.wr F.TIM_STATUS_FTYPE f.ftype.toNat).counts 62 evFrame).timesDue

/-- What is no part of the links, of TIM_STATUS.FTYPE or of the counts, `State.frameShown` leaves. -/
theorem State.frameShown_keeps {β : Type} {p : State → β} (hp : CountBlind p)
    (hlink : ∀ t n l, p (State.onLink t n l) = p t) :
    p (s.frameShown f) = p (s.wr F.TIM_STATUS_FTYPE f.ftype.toNat) :=
  (State.forEach_keeps fun t n => hlink t n _).trans (hp.counts ..)

theorem State.frameShown_time : (s.frameShown f).time = s.time :=
  s.frameShown_keeps f countBlind_time fun _ _ _ => rfl

theorem State.rd_frameShown {g : Field} {k m : Nat}
    (h : ∀ c ∈ F.TIM_STATUS_FTYPE :: countFields, g.id % 2 ^ 32 ≠ c.id % 2 ^ 32) :
    (s.frameShown f).rd g k m = s.rd g k m := by
  obtain ⟨hftype, hcount⟩ := List.forall_mem_cons.1 h
  exact (s.frameShown_keeps f (countBlind_rd hcount) fun _ _ _ => rfl).trans (State.rd_wr_of_id _ _ hftype)

theorem State.rd_frameShown_ftype : (s.frameShown f).rd F.TIM_STATUS_FTYPE = f.ftype.toNat :=
  (s.frameShown_keeps f (countBlind_rd (by decide)) fun _ _ _ => rfl).trans <|
    (State.rd_wr_same ..).trans (Nat.mod_eq_of_lt f.ftype.isLt)

theorem State.frameShown_markSt : (s.frameShown f).markSt f = s.markSt f := by
  unfold State.markSt
  rw [State.rd_frameShown _ _ (by decide), State.rd_frameShown _ _ (by decide)]

theorem stDiff_self (a : Nat) : stDiff a a = 0 := by
  have h : (a + 2 ^ 64 - a % 2 ^ 64) % 2 ^ 64 = 0 := by omega
  rw [stDiff, h]
  rfl

variable {s f}

/-- R43: with nothing put off, the mark brings nothing into force. -/
theorem State.atMark_none (hcap : s.time.capNext = none) (hdelay : s.time.delayNext = none) : s.atMark = (false, s) := by
  simp only [State.atMark, hcap, hdelay]

variable (hcap : s.time.capNext = none) (hdelay : s.time.delayNext = none)
include hcap hdelay

theorem State.frameShown_atMark : (s.frameShown f).atMark = (false, s.frameShown f) :=
  State.atMark_none (by rw [State.frameShown_time, hcap]) (by rw [State.frameShown_time, hdelay])

/-- Table 2-6: the first valid frame in ACQUIRE is counted. -/
theorem State.frameEnd_first (hsync : s.sync = syACQUIRE) (hgood : s.time.goodFrames = 0) :
    (s.frameEnd f).sync = syACQUIRE ∧ (s.frameEnd f).time.goodFrames = 1 := by
  unfold State.frameEnd
  extract_lets u
  have hmark : u.atMark = (false, u) := State.frameShown_atMark hcap hdelay
  have hshown : u.sync = syACQUIRE := (State.rd_frameShown _ _ (by decide)).trans hsync
  have hnone : u.time.goodFrames = 0 := (congrArg TimeSt.goodFrames (s.frameShown_time f)).trans hgood
  have hone : ¬ 2 ≤ 0 + 1 := by decide
  simp only [hmark, hshown, hnone, hone, if_true, decide_false, Bool.false_and, Bool.false_eq_true, if_false]
  exact ⟨hshown, trivial⟩

/-- R44: in LOCKED, a MARKST of FTYPE 0 that agrees with shelf time is neither loaded nor counted. -/
theorem State.frameEnd_agrees (hsync : s.sync = syLOCKED) (hf : f.ftype = 0) (hst : s.markSt f = s.st) :
    (s.frameEnd f).time.lastDiff = none ∧ (s.frameEnd f).regs = (s.frameShown f).regs := by
  unfold State.frameEnd
  extract_lets u usable
  have hmark : u.atMark = (false, u) := State.frameShown_atMark hcap hdelay
  have hshown : u.sync = syLOCKED := (State.rd_frameShown _ _ (by decide)).trans hsync
  have hd : stDiff (u.markSt f) u.st = 0 := by
    have hthen : u.markSt f = s.markSt f := s.frameShown_markSt f
    have hnow : u.st = s.st := State.rd_frameShown _ _ (by decide)
    rw [hthen, hst, hnow, stDiff_self]
  have husable : usable := by simp [usable, hf]
  have hacquire : syLOCKED ≠ syACQUIRE := by decide
  simp only [hmark, hshown, hacquire, hd, hf, husable, if_false, bne_self_eq_false, Bool.false_eq_true, decide_true,
    Bool.not_true, BitVec.ofNat_eq_ofNat, BitVec.zero_eq_one_iff, OfNat.ofNat_ne_zero, decide_false, ne_eq,
    not_true_eq_false, Bool.or_false, Bool.false_and, Bool.or_self, if_true, true_and]
  rfl

end

section
variable {s : State} {f : TallyFrame} (hs : s.stage = .running) (hf : f.ok = true)
  (hcap : s.time.capNext = none) (hdelay : s.time.delayNext = none)
include hs hf hcap hdelay

/-- Table 2-6: one valid frame does not lock a controller die that acquires. -/
theorem tallyFrame_first (h : s.sync = syACQUIRE) (hgood : s.time.goodFrames = 0) :
    Does (.tallyFrame f) s (fun t => t.sync = syACQUIRE ∧ t.time.goodFrames = 1) := by
  obtain ⟨u, hregs, htime, hregs', htime'⟩ := (s.atFrame f).frameOk_mark (f := f) hs
  obtain ⟨hsync, hcount⟩ := State.frameEnd_first (s := u) (f := f) ((congrArg TimeSt.capNext htime).trans hcap)
    ((congrArg TimeSt.delayNext htime).trans hdelay) ((State.rd_of_regs hregs).trans h)
    ((congrArg TimeSt.goodFrames htime).trans hgood)
  refine ⟨_, exec_tallyFrame hs, ?_⟩
  rw [if_pos hf]
  exact ⟨(State.rd_of_regs hregs').trans hsync, (congrArg TimeSt.goodFrames htime').trans hcount⟩

/-- R44: a mark of FTYPE 0 that agrees with shelf time keeps LOCKED, shelf time and the count of mismatches. -/
theorem tallyFrame_agrees (h : s.sync = syLOCKED) (htype : f.ftype = 0) (hst : s.markSt f = s.st) :
    Does (.tallyFrame f) s (fun t => t.sync = syLOCKED ∧ t.rd F.TIM_STATUS_FTYPE = 0 ∧ t.st = s.st ∧
      t.time.lastDiff = none ∧ t.rd F.TIM_ERR_HDR_MISMATCH = s.rd F.TIM_ERR_HDR_MISMATCH) := by
  obtain ⟨u, hregs, htime, hregs', htime'⟩ := (s.atFrame f).frameOk_mark (f := f) hs
  have hu : ∀ {g : Field} {k m : Nat}, u.rd g k m = s.rd g k m := State.rd_of_regs hregs
  have hmark : u.markSt f = u.st := by
    have hthen : u.markSt f = s.markSt f := by
      unfold State.markSt
      rw [hu, hu]
    rw [hthen, hst]
    exact hu.symm
  obtain ⟨hdiff, hshown⟩ := State.frameEnd_agrees (s := u) (f := f) ((congrArg TimeSt.capNext htime).trans hcap)
    ((congrArg TimeSt.delayNext htime).trans hdelay) (hu.trans h) htype hmark
  have hrd : ∀ {g : Field} {k m : Nat}, ((s.atFrame f).frameOk f).rd g k m = (u.frameShown f).rd g k m :=
    State.rd_of_regs (hregs'.trans hshown)
  refine ⟨_, exec_tallyFrame hs, ?_⟩
  rw [if_pos hf]
  refine ⟨?_, ?_, ?_, (congrArg TimeSt.lastDiff htime').trans hdiff, ?_⟩
  · exact hrd.trans ((State.rd_frameShown _ _ (by decide)).trans (hu.trans h))
  · rw [hrd, State.rd_frameShown_ftype, htype]
    rfl
  · exact hrd.trans ((State.rd_frameShown _ _ (by decide)).trans hu)
  · exact hrd.trans ((State.rd_frameShown _ _ (by decide)).trans hu)

end

/-- Settles O13: each cause of a change of SYNC, and the marks that change none. -/
theorem tallySynchronisation : Obligations.TallySynchronisation := by
  unfold Obligations.TallySynchronisation
  refine ⟨fun s hs h => ⟨_, exec_tallyAcquire_goodCycles hs h, ?good⟩,
    fun s hs h => ⟨_, exec_tallyAcquire_framingError hs h, State.acquire_sync _, State.rd_acquire_unsync _⟩,
    fun s hs h => ⟨_, exec_holdover hs h, ?holdover⟩, fun f s hs h hf => ?bad,
    fun f s hs h hf hcap hdelay hgood => tallyFrame_first hs hf hcap hdelay h hgood,
    fun f s hs h hf hcap hdelay htype hst => tallyFrame_agrees hs hf hcap hdelay h htype hst,
    fun s hs h => ⟨_, exec_stSlewDone hs h, ?slew⟩,
    fun who v s h hsync => ⟨_, exec_timStLoad h, ?ignored⟩, fun who v s h hsync => ⟨_, exec_timStLoad h, if_pos hsync⟩⟩
  case good =>
    exact ⟨(State.rd_wr_of_id _ _ (by decide)).trans (State.acquire_sync _),
      (State.rd_wr_of_id _ _ (by decide)).trans (State.rd_acquire_unsync _), State.rd_wr_same ..,
      (State.rd_wr_of_id _ _ (by decide)).trans (State.rd_acquire_st _)⟩
  case holdover =>
    obtain ⟨hsync, hunsync, hpresent, hloss, hlost⟩ := State.lose_shows
      { s with inl := { s.inl with tally := false, locked := false, good := 0, lastDiff := none } }
    exact ⟨hsync, hunsync, hpresent, hloss, hlost, rfl, rfl⟩
  case bad =>
    refine ⟨_, exec_tallyFrame hs, ?_⟩
    rw [if_neg (by simp [hf]), State.frameBad_locked (s := s.atFrame f) hs h]
    exact ⟨State.acquire_sync _, State.rd_acquire_unsync _, rfl⟩
  case slew =>
    exact ⟨(State.rd_wr_of_id _ _ (by decide)).trans (State.rd_wr_same ..), State.rd_wr_same ..⟩
  case ignored =>
    rw [if_neg hsync]
    exact ⟨rfl, rfl⟩

end Sys2Proof.Machine

/-!
# The commands of the shelf manager (R41 to R43, R353, Table 2-5)

What becomes of a command that reaches the controller die is said once, of `State.command`: it is acted on, refused, or
dropped for its parity. Each opcode then adds what it does.
-/

namespace Sys2Proof.Machine

/-! ### A command is acted on, refused, or dropped for its parity -/

/-- R41, R42, R399: a command in a valid frame, addressed to the slot of a LOCKED die that runs its own structure. -/
def Heard (s : State) (c : TallyCmd) : Prop :=
  s.stage = .running ∧ s.rd F.STR_STATUS_RECOVERY = 0 ∧ s.sync = syLOCKED ∧ c.frame = true ∧ c.bcast = false ∧
  c.target.toNat = s.slot ∧ s.rd F.TIM_STATUS_SLOT_MISMATCH = 0

section
variable {s t : State} {c : TallyCmd} {op : Nat} {f : State → Option State} (h : Heard s c)
include h

theorem Heard.parity (hp : tallyOnes op c % 2 = 1) : s.command op c f = s.bump F.TIM_ERR_CMD_PARITY := by
  obtain ⟨hs, hrec, hsync, hframe, -, -, -⟩ := h
  simp [State.command, hs, State.on_eq_false hrec, hsync, hframe, hp]

theorem Heard.acts (hp : tallyOnes op c % 2 = 0) (hf : f s = some t) : s.command op c f = t.actCmd op c := by
  obtain ⟨hs, hrec, hsync, hframe, hb, hslot, hmis⟩ := h
  simp [State.command, hs, State.on_eq_false hrec, hsync, hframe, hp, hb, tallyTo, hslot, State.on_eq_false hmis, hf]

theorem Heard.acts_some {g : State → State} (hp : tallyOnes op c % 2 = 0) :
    s.command op c (fun u => some (g u)) = (g s).actCmd op c := h.acts hp rfl

theorem Heard.refused (hp : tallyOnes op c % 2 = 0) (hf : f s = none) : s.command op c f = s.refuseCmd := by
  obtain ⟨hs, hrec, hsync, hframe, hb, hslot, hmis⟩ := h
  simp [State.command, hs, State.on_eq_false hrec, hsync, hframe, hp, hb, tallyTo, hslot, State.on_eq_false hmis, hf]

end

/-! ### TIM_LAST_CMD and TIM_ERR -/

section
variable (s : State) (op : Nat) (c : TallyCmd)

theorem State.rd_actCmd_op (h : op < 16) : (s.actCmd op c).rd F.TIM_LAST_CMD_OP = op := by
  simp (disch := decide) only [State.actCmd, State.rd_wr_of_id, State.rd_wr_same]
  exact Nat.mod_eq_of_lt h

theorem State.rd_actCmd_target : (s.actCmd op c).rd F.TIM_LAST_CMD_TARGET = c.target.toNat := by
  simp (disch := decide) only [State.actCmd, State.rd_wr_of_id, State.rd_wr_same]
  exact Nat.mod_eq_of_lt c.target.isLt

theorem State.rd_actCmd_arg : (s.actCmd op c).rd F.TIM_LAST_CMD_ARG = c.arg.toNat := by
  simp only [State.actCmd, State.rd_wr_same]
  exact Nat.mod_eq_of_lt c.arg.isLt

/-- R42: an acted-on command changes TIM_LAST_CMD alone by being copied. -/
theorem State.rd_actCmd_ne {g : Field} {k m : Nat} (h : ∀ f ∈ [F.TIM_LAST_CMD_OP, F.TIM_LAST_CMD_TARGET,
    F.TIM_LAST_CMD_BCAST, F.TIM_LAST_CMD_ARG], g.id % 2 ^ 32 ≠ f.id % 2 ^ 32) :
    (s.actCmd op c).rd g k m = s.rd g k m := by
  simp only [List.forall_mem_cons] at h
  obtain ⟨hop, htarget, hbcast, harg, -⟩ := h
  simp only [State.actCmd, State.rd_wr_of_id, hop, htarget, hbcast, harg, ne_eq, not_false_eq_true]

theorem State.actCmd_time : (s.actCmd op c).time = s.time := rfl

/-- R43: a refused command is counted and changes nothing else. -/
theorem State.refuseCmd_counts : s.refuseCmd.time = s.time ∧ s.refuseCmd.rd F.TIM_LAST_CMD_OP = s.rd F.TIM_LAST_CMD_OP ∧
    s.refuseCmd.rd F.TIM_ERR_CMD_REFUSED =
      min (s.rd F.TIM_ERR_CMD_REFUSED + 1) (2 ^ F.TIM_ERR_CMD_REFUSED.width - 1) :=
  ⟨rfl, State.rd_wr_of_id _ _ (by decide), State.rd_bump_same ..⟩

end

/-! ### One-shot entries of the hardware (R52) -/

theorem fullSt_lt (now arg : Nat) : fullSt now arg < 2 ^ 64 := by
  unfold fullSt
  dsimp only
  split <;> exact Nat.mod_lt _ (Nat.two_pow_pos _)

section
variable (s : State) (n action target st : Nat)

theorem State.calOneShot_mode : (s.calOneShot n action target st).calMode n = 1 := State.rd_wr_same ..

theorem State.rd_calOneShot_action (h : action < 256) :
    (s.calOneShot n action target st).rd F.TIM_CAL_CTL_ACTION 0 n = action := by
  simp (disch := decide) only [State.calOneShot, State.rd_wr_of_id, State.rd_wr_same]
  exact Nat.mod_eq_of_lt h

theorem State.rd_calOneShot_time (h : st < 2 ^ 64) :
    (s.calOneShot n action target st).rd F.TIM_CAL_TIME_TIME 0 n = st := by
  simp (disch := decide) only [State.calOneShot, State.rd_wr_of_id, State.rd_wr_same]
  exact Nat.mod_eq_of_lt h

end

/-! ### The opcodes -/

section
variable {s : State} {c : TallyCmd}

theorem exec_nop (h : s.stage = .running) : exec (.nop c) s = .next (s.command 0 c some) := by
  change execNop c s = _
  rw [execNop, onClock_running h]

/-- R353: the grant of a bank is not the inlet die's. -/
theorem exec_inrushGrant_bank (h : bits c.arg.toNat 43 40 ≠ 0) :
    exec (.inrushGrant c) s = .next (s.command 1 c (fun s => s.grantBank c)) := by
  change execInrushGrant c s = _
  simp [execInrushGrant, onInlet, h]

theorem exec_floorCap (h : s.stage = .running) : exec (.floorCap c) s = .next (s.command 2 c (fun s =>
    if 4 < c.arg.toNat % 8 then none else some { s with time := { s.time with capNext := some (c.arg.toNat % 8) } })) := by
  change execFloorCap c s = _
  rw [execFloorCap, onClock_running h]

/-- Table 2-7: a snapshot that entry 63 holds and that is replaced counts as missed. -/
def State.missSnapshot (s : State) : State := if s.calMode 63 = 1 then s.bump F.TIM_CAL_STAT_MISSED 1 0 63 else s

theorem State.missSnapshot_st (s : State) : s.missSnapshot.st = s.st := by
  unfold State.missSnapshot
  split
  · exact State.rd_wr_of_id _ _ (by decide)
  · rfl

theorem exec_snapshot (h : s.stage = .running) : exec (.snapshot c) s = .next (s.command 3 c (fun s =>
    some (s.missSnapshot.calOneShot 63 6 0 (fullSt s.missSnapshot.st c.arg.toNat)))) := by
  change execSnapshot c s = _
  rw [execSnapshot, onClock_running h]
  rfl

theorem exec_window (h : s.stage = .running) (h0 : 0 < c.arg.toNat % 1024) (hmax : c.arg.toNat % 1024 ≤ 1000) :
    exec (.window c) s = .next (s.command 4 c (fun s => some (s.newWindow (c.arg.toNat % 1024)))) := by
  have hus : ¬(c.arg.toNat % 1024 = 0 || 1000 < c.arg.toNat % 1024) = true := by simp; omega
  change execWindow c s = _
  rw [execWindow, onClock_running h]
  simp only [if_neg hus]

theorem exec_delay (h : s.stage = .running) : exec (.delay c) s = .next (s.command 5 c (fun s =>
    some { s with time := { s.time with delayNext := some (c.arg.toNat % 65536) } })) := by
  change execDelay c s = _
  rw [execDelay, onClock_running h]

theorem exec_tallyRefusedOpcode {op : BitVec 4} (h : s.stage = .running) (hop : 5 < op.toNat) :
    exec (.tallyRefusedOpcode op c) s = .next (s.command op.toNat c (fun _ => none)) := by
  change execTallyRefusedOpcode op c s = _
  rw [execTallyRefusedOpcode, onClock_running h, if_neg (by omega)]

/-- R353: a READY bank is granted if entry 60 holds no other start. -/
theorem State.grantBank_ready (hb : c.bcast = false) {ch : Nat} (h0 : 0 < ch) (h9 : ch < 9)
    (hch : bits c.arg.toNat 43 40 = ch) (hready : s.inlSt ch = inREADY) (hfree : s.calMode 60 ≠ 1) :
    s.grantBank c =
      some ((s.calOneShot 60 8 (ch - 1) (fullSt s.st c.arg.toNat)).wr F.INL_CH_STATUS_STATE inGRANTED 0 ch) := by
  have h0 : ch ≠ 0 := by omega
  have h9 : ¬ 9 ≤ ch := by omega
  simp [State.grantBank, hb, hch, h0, h9, hready, hfree]

/-- Table 2-5, R353: an INRUSH_GRANT of a READY bank. -/
theorem inrushGrant_ready (h : Heard s c) (hp : tallyOnes 1 c % 2 = 0) {ch : Nat} (h0 : 0 < ch) (h9 : ch < 9)
    (hch : bits c.arg.toNat 43 40 = ch) (hready : s.inlSt ch = inREADY) (hfree : s.calMode 60 ≠ 1) :
    Does (.inrushGrant c) s (fun t => t.inlSt ch = inGRANTED ∧ t.calMode 60 = 1 ∧
      t.rd F.TIM_CAL_TIME_TIME 0 60 = fullSt s.st c.arg.toNat ∧ t.rd F.TIM_LAST_CMD_OP = 1) := by
  have ⟨_, _, _, _, hb, _, _⟩ := h
  refine ⟨_, exec_inrushGrant_bank (by omega), ?_⟩
  rw [h.acts hp (State.grantBank_ready hb h0 h9 hch hready hfree)]
  refine ⟨?_, ?_, ?_, State.rd_actCmd_op _ _ _ (by decide)⟩
  · exact (State.rd_actCmd_ne _ _ _ (by decide)).trans (State.rd_wr_same ..)
  · exact (State.rd_actCmd_ne _ _ _ (by decide)).trans <| (State.rd_wr_of_id _ _ (by decide)).trans
      (State.calOneShot_mode ..)
  · exact (State.rd_actCmd_ne _ _ _ (by decide)).trans <| (State.rd_wr_of_id _ _ (by decide)).trans
      (State.rd_calOneShot_time _ _ _ _ _ (fullSt_lt ..))

/-- Table 2-5: SNAPSHOT loads entry 63, whether or not it held one. -/
theorem snapshot_loads (h : Heard s c) (hp : tallyOnes 3 c % 2 = 0) : Does (.snapshot c) s (fun t => t.calMode 63 = 1 ∧
    t.rd F.TIM_CAL_CTL_ACTION 0 63 = 6 ∧ t.rd F.TIM_CAL_TIME_TIME 0 63 = fullSt s.st c.arg.toNat) := by
  refine ⟨_, exec_snapshot h.1, ?_⟩
  rw [h.acts_some hp, State.missSnapshot_st]
  refine ⟨?_, ?_, ?_⟩
  · exact (State.rd_actCmd_ne _ _ _ (by decide)).trans (State.calOneShot_mode ..)
  · exact (State.rd_actCmd_ne _ _ _ (by decide)).trans (State.rd_calOneShot_action _ _ _ _ _ (by decide))
  · exact (State.rd_actCmd_ne _ _ _ (by decide)).trans (State.rd_calOneShot_time _ _ _ _ _ (fullSt_lt ..))

/-- R52: a length other than the one in force is taken. -/
theorem State.newWindow_next {us : Nat} (h : 4000 * us ≠ s.rd F.TIM_CAL_PERIOD_PERIOD 0 62) :
    (s.newWindow us).time.windowNext.map (·.1) = some us := by
  unfold State.newWindow
  dsimp only
  rw [if_neg h.symm]
  rfl

/-- R43: an opcode that Table 2-5 reserves is refused. -/
theorem reservedOpcode_refused (h : Heard s c) {op : BitVec 4} (hop : 5 < op.toNat) (hp : tallyOnes op.toNat c % 2 = 0) :
    exec (.tallyRefusedOpcode op c) s = .next s.refuseCmd := by
  rw [exec_tallyRefusedOpcode h.1 hop, h.refused hp rfl]

end

/-- Settles O14: each opcode by what `State.command` makes of it. -/
theorem tallyCommands : Obligations.TallyCommands := by
  unfold Obligations.TallyCommands
  intro c s hs hrec hsync hframe hb hslot hmis
  have h : Heard s c := ⟨hs, hrec, hsync, hframe, hb, hslot, hmis⟩
  refine ⟨fun hp => ?nop, fun hp => ?parity, fun ch h0 hch hready hfree hp => ?grant, fun hp hv => ?floorCap,
    fun hp hv => ?floorCapHigh, fun hp => snapshot_loads h hp, fun hp h0 hmax hne => ?window, fun hp => ?delay,
    fun op hop hp => ?reserved⟩
  case nop =>
    refine ⟨_, exec_nop hs, ?_⟩
    rw [h.acts hp rfl]
    exact ⟨State.rd_actCmd_op _ _ _ (by decide), State.rd_actCmd_arg .., State.rd_actCmd_target .., rfl⟩
  case parity =>
    refine ⟨_, exec_nop hs, ?_⟩
    rw [h.parity hp]
    exact ⟨State.rd_wr_of_id _ _ (by decide), State.rd_bump_same ..⟩
  case grant => exact inrushGrant_ready h hp h0 ch.isLt hch hready hfree
  case floorCap =>
    refine ⟨_, exec_floorCap hs, ?_⟩
    rw [h.acts hp (if_neg (by omega))]
    exact ⟨rfl, State.rd_actCmd_op _ _ _ (by decide)⟩
  case floorCapHigh =>
    refine ⟨_, exec_floorCap hs, ?_⟩
    rw [h.refused hp (if_pos hv)]
    exact s.refuseCmd_counts
  case window =>
    refine ⟨_, exec_window hs h0 hmax, ?_⟩
    rw [h.acts_some hp]
    exact ⟨State.newWindow_next hne, State.rd_actCmd_op _ _ _ (by decide)⟩
  case delay =>
    refine ⟨_, exec_delay hs, ?_⟩
    rw [h.acts_some hp]
    exact ⟨rfl, State.rd_actCmd_op _ _ _ (by decide)⟩
  case reserved =>
    obtain ⟨htime, hop', hcount⟩ := s.refuseCmd_counts
    exact ⟨_, reservedOpcode_refused h hop hp, hop', htime, hcount⟩

end Sys2Proof.Machine

/-!
# The event calendar (R50 to R53)

When the next entries are due, what the passing of CCLKs makes of shelf time, and what a firing entry writes.
-/

namespace Sys2Proof.Machine

/-! ### When the calendar fires (R51, R52) -/

section
variable (s : State)

/-- R51: a one-shot entry of firmware is due at its TIME, or in the next CCLK if TIME has passed. -/
theorem State.calDist_oneShot {n : Nat} (hn : n ≠ 62) (hm : s.calMode n = 1) :
    s.calDist n = if stDiff (s.calTime n) s.st ≤ 0 then some (2, true)
      else some ((stDiff (s.calTime n) s.st).toNat, false) := by
  unfold State.calDist
  simp only [if_neg hn, if_pos hm]

/-- The entries that are to fire, in ascending order, with the ST units to their firing and LATE. -/
def State.calDues : List (Nat × Nat × Bool) := (List.range 64).filterMap (fun n => (s.calDist n).map (fun x => (n, x)))

theorem State.mem_calDues {x : Nat × Nat × Bool} : x ∈ s.calDues ↔ x.1 < 64 ∧ s.calDist x.1 = some x.2 := by
  obtain ⟨n, y⟩ := x
  simp [State.calDues]

/-- The entries that fire next are those at the least distance. -/
theorem State.calNext_eq : s.calNext = match (s.calDues.map (·.2.1)).min? with
    | none => (0, [])
    | some m => (m / 2, (s.calDues.filter (·.2.1 == m)).map (fun x => (x.1, x.2.2))) := by
  unfold State.calNext
  change (match s.calDues.map (·.2.1) with | [] => _ | _ :: _ => _) = _
  cases s.calDues.map (·.2.1) <;> rfl

/-- R51: an entry that fires next is due in as many CCLKs as pass, and no entry is due before it. -/
theorem State.calNext_first {x : Nat × Bool} (hx : x ∈ s.calNext.2) : ∃ d, s.calDist x.1 = some (d, x.2) ∧
    s.calNext.1 = d / 2 ∧ ∀ n < 64, ∀ e, s.calDist n = some e → d ≤ e.1 := by
  rw [State.calNext_eq] at hx ⊢
  cases hm : (s.calDues.map (·.2.1)).min? with
  | none => simp [hm] at hx
  | some m =>
    simp only [hm, List.mem_map, List.mem_filter, beq_iff_eq] at hx ⊢
    obtain ⟨⟨n, d, late⟩, ⟨hy, rfl⟩, rfl⟩ := hx
    refine ⟨d, (s.mem_calDues.1 hy).2, rfl, fun k hk e he => ?_⟩
    exact (List.min?_eq_some_iff.1 hm).2 _ (List.mem_map.2 ⟨(k, e), s.mem_calDues.2 ⟨hk, he⟩, rfl⟩)

/-! ### CCLKs pass -/

/-- R33, R34: shelf time advances by two units a CCLK, and wraps. -/
theorem State.advance_st (k : Nat) : (s.advance k).st = (s.st + 2 * k) % 2 ^ 64 := by
  unfold State.advance
  extract_lets u w x
  have hw : w.st = s.st :=
    (State.rd_wr_of_id u _ (by decide)).trans ((countBlind_rd (by decide)).countCclks s k)
  have hx : x.st = (w.st + 2 * k) % 2 ^ 64 := State.rd_wr_same ..
  rw [← hw, ← hx]
  exact State.rd_of_regs (s := x) (by rfl)

theorem State.advance_cclk (k : Nat) : (s.advance k).time.cclk = s.time.cclk + k := by
  unfold State.advance
  simp only [State.add_eq, State.wr_time, countBlind_time.countCclks s k]

end

section
variable {s : State} (rs : List (Fin 16 × ChanReading))

theorem exec_calendarFire (hs : s.stage = .running) : exec (.calendarFire rs) s =
    .next (if s.calNext.2.isEmpty then s else ((s.advance s.calNext.1).calFireAll rs s.calNext.2).background) := by
  change execCalendarFire rs s = _
  rw [execCalendarFire, onDie_running hs]

theorem exec_calendarWindowClose (n : Fin 64) (hs : s.stage = .running) :
    exec (.calendarWindowClose n) s = .next (s.wr F.TIM_CAL_STAT_OPEN 0 0 n) := by
  change execCalendarWindowClose n s = _
  rw [execCalendarWindowClose, onDie_running hs, State.clear_eq]

end

/-! ### An entry fires (R50, R51) -/

section
variable (s : State) (rs : List (Fin 16 × ChanReading)) (n : Nat) (late stepped : Bool)

/-- R50: the CCLK of the firing is kept. -/
def State.calNoted : State :=
  { s with time := { s.time with suppress := s.time.suppress.filter (· != n),
                                 lastFire := smInsert s.time.lastFire n s.time.cclk } }

/-- R51: a one-shot entry is switched off. -/
def State.calOff : State := if s.calMode n = 1 then s.clear F.TIM_CAL_CTL_MODE 0 n else s

/-- R51: a late firing is shown. -/
def State.calLate : State := if late then (s.set F.TIM_CAL_STAT_LATE 0 n).set F.TIM_IRQ_CAL_LATE else s

/-- R51: what the firing of an entry writes to the entry itself. -/
def State.calMark : State := (((s.calNoted n).calOff n).bump F.TIM_CAL_STAT_FIRED 1 0 n).calLate n late

/-- Table 2-9, Table 14-2: the firing of an entry is signalled and counted. -/
def State.calSignal : State := (s.when (s.on F.TIM_CAL_CTL_IRQ_EN 0 n) (fun s => s.irqPulse 3)).counts 62 evFire

theorem State.calFire_suppressed (h : s.calSuppressed n = true) :
    s.calFire rs n late stepped = s.bump F.TIM_CAL_STAT_MISSED 1 0 n := if_pos h

theorem State.calFire_fires (h : s.calSuppressed n = false) :
    s.calFire rs n late stepped = ((s.calMark n late).calSignal n).calAct rs n stepped := if_neg (by simp [h])

/-- Table 2-9: ACTION 0 does nothing more. -/
theorem State.calAct_none (h : s.rd F.TIM_CAL_CTL_ACTION 0 n = 0) : s.calAct rs n stepped = s := by
  unfold State.calAct
  simp only [h]

theorem State.rd_calSignal {g : Field} {k m : Nat} (h : ∀ f ∈ countFields, g.id % 2 ^ 32 ≠ f.id % 2 ^ 32) :
    (s.calSignal n).rd g k m = s.rd g k m := by
  refine ((countBlind_rd h).counts ..).trans ?_
  cases s.on F.TIM_CAL_CTL_IRQ_EN 0 n <;> rfl

theorem State.calSignal_mem : (s.calSignal n).mem = s.mem := by
  refine (countBlind_mem.counts ..).trans ?_
  cases s.on F.TIM_CAL_CTL_IRQ_EN 0 n <;> rfl

/-- The fields that `State.calMark` writes. -/
def markFields : List Field := [F.TIM_CAL_CTL_MODE, F.TIM_CAL_STAT_FIRED, F.TIM_CAL_STAT_LATE, F.TIM_IRQ_CAL_LATE]

/-- What MODE is not part of, the end of a one-shot entry leaves. -/
theorem State.calOff_keeps {β : Type} {p : State → β} (hmode : ∀ t v i j, p (State.wr t F.TIM_CAL_CTL_MODE v i j) = p t) :
    p (s.calOff n) = p s := by
  unfold State.calOff
  split
  · exact hmode ..
  · rfl

/-- What the two LATE bits are not part of, the showing of a late firing leaves. -/
theorem State.calLate_keeps {β : Type} {p : State → β} (hlate : ∀ t v i j, p (State.wr t F.TIM_CAL_STAT_LATE v i j) = p t)
    (hirq : ∀ t v i j, p (State.wr t F.TIM_IRQ_CAL_LATE v i j) = p t) : p (s.calLate n late) = p s := by
  unfold State.calLate
  split
  · exact (hirq ..).trans (hlate ..)
  · rfl

/-- What neither the times of the last firings nor those fields change, `State.calMark` leaves. -/
theorem State.calMark_keeps {β : Type} {p : State → β} (htime : ∀ t x, p { t with time := x } = p t)
    (hwr : ∀ f ∈ markFields, ∀ t v i j, p (State.wr t f v i j) = p t) : p (s.calMark n late) = p s :=
  (State.calLate_keeps _ _ _ (hwr F.TIM_CAL_STAT_LATE (by simp [markFields]))
    (hwr F.TIM_IRQ_CAL_LATE (by simp [markFields]))).trans <|
  (hwr F.TIM_CAL_STAT_FIRED (by simp [markFields]) ..).trans <|
  (State.calOff_keeps _ _ (hwr F.TIM_CAL_CTL_MODE (by simp [markFields]))).trans (htime ..)

theorem State.calMark_mem : (s.calMark n late).mem = s.mem :=
  State.calMark_keeps (p := State.mem) _ _ _ (fun _ _ => rfl) fun _ _ _ _ _ _ => rfl

theorem State.rd_calMark_ne {g : Field} {k m : Nat} (h : ∀ f ∈ markFields, g.id % 2 ^ 32 ≠ f.id % 2 ^ 32) :
    (s.calMark n late).rd g k m = s.rd g k m :=
  State.calMark_keeps (p := fun t => t.rd g k m) _ _ _ (fun _ _ => rfl) fun f hf t v _ _ => State.rd_wr_of_id t v (h f hf)

theorem State.rd_calLate {g : Field} {k m : Nat}
    (h : ∀ f ∈ [F.TIM_CAL_STAT_LATE, F.TIM_IRQ_CAL_LATE], g.id % 2 ^ 32 ≠ f.id % 2 ^ 32) :
    (s.calLate n late).rd g k m = s.rd g k m :=
  State.calLate_keeps (p := fun t => t.rd g k m) _ _ _ (fun t v _ _ => State.rd_wr_of_id t v (h _ (by simp)))
    fun t v _ _ => State.rd_wr_of_id t v (h _ (by simp))

/-- R51: a firing is counted. -/
theorem State.rd_calMark_fired : (s.calMark n late).rd F.TIM_CAL_STAT_FIRED 0 n =
    min (s.rd F.TIM_CAL_STAT_FIRED 0 n + 1) (2 ^ F.TIM_CAL_STAT_FIRED.width - 1) := by
  have hoff : ((s.calNoted n).calOff n).rd F.TIM_CAL_STAT_FIRED 0 n = s.rd F.TIM_CAL_STAT_FIRED 0 n :=
    State.calOff_keeps (p := fun t => t.rd F.TIM_CAL_STAT_FIRED 0 n) _ _ fun t v _ _ => State.rd_wr_of_id t v (by decide)
  rw [State.calMark, State.rd_calLate _ _ _ (by decide), State.rd_bump_same, hoff]

/-- R51: a one-shot entry that fires is switched off. -/
theorem State.calMark_mode (h : s.calMode n = 1) : (s.calMark n late).calMode n = 0 := by
  have hoff : (s.calNoted n).calOff n = (s.calNoted n).wr F.TIM_CAL_CTL_MODE 0 0 n := if_pos h
  refine (State.rd_calLate _ _ _ (by decide)).trans ((State.rd_wr_of_id _ _ (by decide)).trans ?_)
  rw [hoff]
  exact State.rd_wr_same ..

/-- R51: a late firing shows in the entry and in TIM_IRQ. -/
theorem State.rd_calMark_late : (s.calMark n true).rd F.TIM_CAL_STAT_LATE 0 n = 1 ∧
    (s.calMark n true).rd F.TIM_IRQ_CAL_LATE = 1 :=
  ⟨(State.rd_wr_of_id _ _ (by decide)).trans (State.rd_wr_same ..), State.rd_wr_same ..⟩

end

section
variable {s : State} (rs : List (Fin 16 × ChanReading)) {n : Nat} (late stepped : Bool)

/-- R50: a suppressed occurrence is counted as missed and nothing more. -/
theorem calFire_missed (h : s.calSuppressed n = true) :
    (s.calFire rs n late stepped).rd F.TIM_CAL_STAT_MISSED 0 n =
      min (s.rd F.TIM_CAL_STAT_MISSED 0 n + 1) (2 ^ F.TIM_CAL_STAT_MISSED.width - 1) ∧
    (s.calFire rs n late stepped).calMode n = s.calMode n ∧ (s.calFire rs n late stepped).time = s.time := by
  rw [State.calFire_suppressed _ _ _ _ _ h]
  exact ⟨State.rd_bump_same .., State.rd_wr_of_id _ _ (by decide), rfl⟩

/-- Table 2-9: an entry without an action only marks its firing and signals it. -/
theorem State.calFire_noAction (h : s.calSuppressed n = false) (ha : s.rd F.TIM_CAL_CTL_ACTION 0 n = 0) :
    s.calFire rs n late stepped = (s.calMark n late).calSignal n := by
  have hact : ((s.calMark n late).calSignal n).rd F.TIM_CAL_CTL_ACTION 0 n = 0 :=
    (State.rd_calSignal _ _ (by decide)).trans ((State.rd_calMark_ne _ _ _ (by decide)).trans ha)
  rw [State.calFire_fires _ _ _ _ _ h, State.calAct_none _ _ _ _ hact]

end

/-- Settles O15: the least distance of the calendar, the passing of the CCLKs, and the marks of a firing entry. -/
theorem calendar : Obligations.Calendar := by
  unfold Obligations.Calendar
  refine ⟨fun rs s hs => ⟨?fires, ?idle, fun x => s.calNext_first, fun n => s.calDist_oneShot⟩, fun n s hs => ?close,
    fun rs n late stepped s t _ ht => ?entry⟩
  case fires =>
    rintro k l hkl hl
    refine ⟨_, exec_calendarFire rs hs, ?_, s.advance_st k, s.advance_cclk k⟩
    rw [hkl, if_neg (by simpa using hl)]
  case idle =>
    intro hnone
    exact ⟨s, by rw [exec_calendarFire rs hs, hnone]; rfl, rfl⟩
  case close =>
    exact ⟨_, exec_calendarWindowClose n hs, State.rd_wr_same .., (SameStore.refl s).wr, rfl, rfl,
      fun f i j h => State.rd_wr_ne s 0 h⟩
  case entry =>
    subst ht
    refine ⟨calFire_missed rs late stepped, fun h ha => ?_⟩
    rw [State.calFire_noAction rs late stepped h ha]
    refine ⟨(State.rd_calSignal _ _ (by decide)).trans (State.rd_calMark_fired ..), fun hm => ?_, ?_, ?_⟩
    · exact (State.rd_calSignal _ _ (by decide)).trans (State.calMark_mode _ _ _ hm)
    · exact (State.calSignal_mem ..).trans (State.calMark_mem ..)
    · rintro rfl
      obtain ⟨hlate, hirq⟩ := s.rd_calMark_late n
      exact ⟨(State.rd_calSignal _ _ (by decide)).trans hlate, (State.rd_calSignal _ _ (by decide)).trans hirq⟩

end Sys2Proof.Machine

/-!
# Records, protocol errors and messages (R63, R64, R175, R404)

A record changes registers, the logs and the nonvolatile ring, and a message on the torus changes coherence and the network:
what each leaves, and what a protocol error at a port or at a home shows.
-/

namespace Sys2Proof.Machine

/-! ### Records (R404) -/

section
variable (s : State) (cls sev blk inst a1 a2 d : Nat)

@[simp] theorem State.record_coh : (s.record cls sev blk inst a1 a2 d).coh = s.coh :=
  State.record_keeps (p := State.coh) _ _ _ _ _ _ _ _ (fun _ _ => rfl) (fun _ _ => rfl) fun _ _ _ _ _ _ => rfl

@[simp] theorem State.record_map : (s.record cls sev blk inst a1 a2 d).map = s.map :=
  State.record_keeps (p := State.map) _ _ _ _ _ _ _ _ (fun _ _ => rfl) (fun _ _ => rfl) fun _ _ _ _ _ _ => rfl

@[simp] theorem State.record_out : (s.record cls sev blk inst a1 a2 d).out = s.out :=
  State.record_keeps (p := State.out) _ _ _ _ _ _ _ _ (fun _ _ => rfl) (fun _ _ => rfl) fun _ _ _ _ _ _ => rfl

@[simp] theorem State.record_hosts : (s.record cls sev blk inst a1 a2 d).hosts = s.hosts :=
  State.record_keeps (p := State.hosts) _ _ _ _ _ _ _ _ (fun _ _ => rfl) (fun _ _ => rfl) fun _ _ _ _ _ _ => rfl

@[simp] theorem State.record_reqs : (s.record cls sev blk inst a1 a2 d).reqs = s.reqs :=
  State.record_keeps (p := State.reqs) _ _ _ _ _ _ _ _ (fun _ _ => rfl) (fun _ _ => rfl) fun _ _ _ _ _ _ => rfl

end

/-! ### Protocol errors of a port (R63, R64) -/

section
variable (s : State) (p : Nat)

theorem State.portProto_frame : (s.portProto p).mem = s.mem ∧ (s.portProto p).map = s.map ∧ (s.portProto p).coh = s.coh ∧
    (s.portProto p).reqs = s.reqs ∧ (s.portProto p).out = s.out ∧ (s.portProto p).hosts = s.hosts := by
  simp [State.portProto, State.record_mem]

theorem State.rd_portProto_err :
    (s.portProto p).rd F.PRT_ERR_PROTO p = min (s.rd F.PRT_ERR_PROTO p + 1) (2 ^ F.PRT_ERR_PROTO.width - 1) := by
  rw [State.portProto, State.rd_record_ne _ _ _ _ _ _ _ _ (by decide), State.set_eq, State.rd_wr_of_id _ _ (by decide),
    State.rd_bump_same]

theorem State.rd_portProto_irq : (s.portProto p).rd F.PRT_IRQ_PROTO p = 1 := by
  rw [State.portProto, State.rd_record_ne _ _ _ _ _ _ _ _ (by decide), State.set_eq, State.rd_wr_same]
  rfl

end

/-! ### Messages and logical devices -/

section
variable (s : State) (f : Flight) (l : Nat) (g : LdSt → LdSt)

@[simp] theorem State.send_flight : (s.send f).coh.flight = s.coh.flight ++ [f] := rfl
@[simp] theorem State.ld_send : (s.send f).ld l = s.ld l := rfl

@[simp] theorem State.ld_onLd_same : (s.onLd l g).ld l = g (s.ld l) := smGet_smSet_same _ _ _ _

theorem State.ld_of_hosts {s t : State} (h : t.hosts = s.hosts) : t.ld l = s.ld l := by
  unfold State.ld
  rw [h]

end

end Sys2Proof.Machine

/-!
# Answers of hosts to snoops (R64, R65, Table 3-3)
-/

namespace Sys2Proof.Machine

section
variable {s : State}

theorem exec_birsp {ld : Fin 64} {e : LdEntry} (slot : BitVec 4) (line : BitVec 40) (ans : BiAns) (hs : s.stage = .running)
    (he : s.secs.ldEntry ld = some e) :
    exec (.birsp ld slot line ans) s = .next (s.biRsp ld slot.toNat line.toNat ans) := by
  change execBirsp ld slot line ans s = _
  rw [execBirsp, onDie_running hs, if_pos (by rw [he]; rfl)]

theorem exec_biconflict (ld : Fin 64) (slot : BitVec 4) (line : BitVec 40) (hs : s.stage = .running) :
    exec (.biconflict ld slot line) s = .next (if s.conflictComing ld slot.toNat line.toNat
      then s.onLd ld (fun d => { d with conflicts := d.conflicts ++ [(slot.toNat, line.toNat)] })
      else s.emit (.biConflictAck ld line.toNat)) := by
  change execBiconflict ld slot line s = _
  rw [execBiconflict, onDie_running hs]

variable {l slot line : Nat} {ans : BiAns} {e : LdEntry}

/-- R64: an answer to no BISnp. -/
theorem State.biRsp_stray (he : s.secs.ldEntry l = some e)
    (hb : (s.ld l).bisnp.find? (fun b => b.line == line && b.home == slot) = none) :
    s.biRsp l slot line ans = s.portProto e.port := by
  simp only [State.biRsp, hb, he, Option.map_some, Option.getD_some]

variable {b : BiSnp} (hb : (s.ld l).bisnp.find? (fun b => b.line == line && b.home == slot) = some b)
include hb

/-- Table 3-3: an answer that the BISnp has. -/
theorem State.biRsp_mapped {opc : Nat} (hm : biMap b.snoop ans = some opc) :
    s.biRsp l slot line ans = (s.onLd l (fun d => { d with bisnp := d.bisnp.erase b })).biAnswer l opc slot line b.htag := by
  simp only [State.biRsp, hb, hm]

/-- Table 3-3: an answer that the BISnp does not have goes as RspI. -/
theorem State.biRsp_unmapped (he : s.secs.ldEntry l = some e) (hm : biMap b.snoop ans = none) :
    s.biRsp l slot line ans =
      ((s.onLd l (fun d => { d with bisnp := d.bisnp.erase b })).portProto e.port).biAnswer l opRspI slot line b.htag := by
  simp only [State.biRsp, hb, hm, he, Option.map_some, Option.getD_some]

end

/-- Settles O18: a BIRsp by whether a BISnp is outstanding and has that answer, a BIConflict by what is on its way. -/
theorem snoopsOfHosts : Obligations.SnoopsOfHosts := by
  unfold Obligations.SnoopsOfHosts
  refine ⟨?answer, ?stray, ?conflict⟩
  case answer =>
    intro ld slot line ans e b s hs he hb
    refine ⟨_, exec_birsp slot line ans hs he, ?_⟩
    cases hm : biMap b.snoop ans with
    | some opc =>
      rw [State.biRsp_mapped hb hm]
      refine ⟨?_, rfl, rfl, ?_, nofun⟩
      · simp [State.biAnswer]
      · simp [State.biAnswer]
    | none =>
      rw [State.biRsp_unmapped hb he hm]
      obtain ⟨hmem, -, hcoh, -, hout, hhosts⟩ :=
        (s.onLd ld (fun d => { d with bisnp := d.bisnp.erase b })).portProto_frame e.port
      refine ⟨?_, hmem, hout, ?_, fun _ => State.rd_portProto_irq ..⟩
      · exact congrArg LdSt.bisnp ((State.ld_of_hosts _ hhosts).trans (State.ld_onLd_same ..))
      · simp [State.biAnswer, hcoh]
  case stray =>
    intro ld slot line ans e s hs he hb
    obtain ⟨hmem, -, hcoh, -, hout, hhosts⟩ := s.portProto_frame e.port
    refine ⟨_, exec_birsp slot line ans hs he, ?_⟩
    rw [State.biRsp_stray he hb]
    exact ⟨State.rd_portProto_err .., hcoh, hhosts, hmem, hout⟩
  case conflict =>
    intro ld slot line s hs
    refine ⟨fun h => ⟨_, exec_biconflict ld slot line hs, ?_⟩, fun h => ⟨_, exec_biconflict ld slot line hs, ?_⟩⟩
    · rw [if_neg (by rw [h]; exact Bool.false_ne_true)]
      exact ⟨rfl, rfl, rfl, rfl⟩
    · rw [if_pos h]
      exact ⟨rfl, rfl, rfl, congrArg LdSt.conflicts (State.ld_onLd_same ..)⟩

end Sys2Proof.Machine

/-!
# Messages that cross the torus, and requests that end (R195, R199, R201, R323, R332)

What the way over the torus and the end of a request that is followed leave as they are.
-/

namespace Sys2Proof.Machine

/-! ### The torus (R195 to R201) -/

/-- The fields that the hops, the detours and the sinks of a packet change. -/
def torusFields : List Field :=
  [F.NOC_RTR_ERR_DETOURED, F.NOC_RTR_SINK_LAST_HDR, F.NOC_RTR_ERR_SINK, F.NOC_ERR_SINK, F.NOC_IRQ_SINK]

/-- What hangs on no count, no packet and no message on its way: nothing that the way of a packet changes. -/
structure TorusBlind {β : Type} (p : State → β) : Prop extends CountBlind p where
  torus : ∀ f ∈ torusFields, ∀ (t : State) (v i j : Nat), p (t.wr f v i j) = p t
  noc : ∀ (t : State) x, p { t with noc := x } = p t
  coh : ∀ (t : State) x, p { t with coh := x } = p t

theorem torusBlind_mem : TorusBlind State.mem where
  toCountBlind := countBlind_mem
  torus _ _ _ _ _ _ := rfl
  noc _ _ := rfl
  coh _ _ := rfl

namespace TorusBlind

variable {β : Type} {p : State → β} (hp : TorusBlind p) (s : State)
include hp

theorem detour (q : Pkt) (d : Nat) : p (s.detour q d).2 = p s := by
  have hcount : p ((s.bump F.NOC_RTR_ERR_DETOURED 1 0 q.at_).counts 61 evDetour) = p s :=
    (hp.counts ..).trans (hp.torus F.NOC_RTR_ERR_DETOURED (by simp [torusFields]) ..)
  unfold State.detour
  dsimp only
  split
  · exact hcount
  · exact (hp.noc ..).trans hcount

theorem sunk (r hdr : Nat) : p (s.sunk r hdr) = p s := by
  unfold State.sunk
  exact (hp.counts ..).trans <| (hp.torus F.NOC_IRQ_SINK (by simp [torusFields]) ..).trans <|
    (hp.torus F.NOC_ERR_SINK (by simp [torusFields]) ..).trans <|
      (hp.torus F.NOC_RTR_ERR_SINK (by simp [torusFields]) ..).trans <|
        hp.torus F.NOC_RTR_SINK_LAST_HDR (by simp [torusFields]) ..

theorem sendErr (q : Pkt) : p (s.sendErr q) = p s := by
  unfold State.sendErr
  split
  · exact hp.noc ..
  · exact hp.noc ..

theorem sink (q : Pkt) : p (s.sink q) = p s := by
  unfold State.sink
  exact (hp.sendErr ..).trans <| (hp.coh ..).trans <| (hp.sunk ..).trans (hp.noc ..)

theorem hopOver {q : Pkt} {d : Nat} {x : Pkt × State} (h : s.hopOver q d = some x) : p x.2 = p s := by
  unfold State.hopOver at h
  split at h
  · cases h
    rfl
  · split at h
    · cases h
      exact hp.detour ..
    · cases h

theorem travel (n : Nat) (q : Pkt) : p (State.travel n s q).2 = p s := by
  induction n generalizing s q with
  | zero => rfl
  | succ n ih =>
    unfold State.travel
    split
    · rfl
    · split
      · exact hp.sink ..
      · split
        · exact hp.noc ..
        · split
          · exact hp.sink ..
          next h => exact (ih ..).trans <| (hp.noc ..).trans (hp.hopOver s h)

theorem bring (f : Flight) : p (s.bring f).2 = p s := by
  unfold State.bring
  split
  · rfl
  · split
    · rfl
    · exact hp.travel ..

/-- R195: what a message that is brought and taken off the torus leaves. -/
theorem brought {f : Flight} {w : State} (h : Brought s f w) : p w = p s := by
  obtain ⟨-, rfl⟩ := h
  exact (hp.noc ..).trans <| (hp.noc ..).trans <| (hp.coh ..).trans (hp.bring ..)

end TorusBlind

theorem Brought.mem {s w : State} {f : Flight} (h : Brought s f w) : w.mem = s.mem := torusBlind_mem.brought s h

/-! ### The end of a request (R323, R332) -/

/-- R333: the record of a request draws five free values. -/
theorem State.txnRecord_state (s : State) (t : Txn) (poison complete : Bool) (m : Nat × Nat × Nat) :
    (s.txnRecord t poison complete m).2 = { s with free := s.free + 5 } := rfl

/-- What hangs on no count, sample, request or latency miss: nothing that the end of a request changes. -/
structure EndBlind {β : Type} (p : State → β) : Prop extends CountBlind p where
  tst : ∀ (t : State) x, p { t with tst := x } = p t

theorem endBlind_hosts : EndBlind State.hosts :=
  ⟨⟨fun _ _ _ _ _ _ => rfl, fun _ _ => rfl, fun _ _ => rfl, fun _ _ => rfl⟩, fun _ _ => rfl⟩

theorem endBlind_m2s : EndBlind State.m2s :=
  ⟨⟨fun _ _ _ _ _ _ => rfl, fun _ _ => rfl, fun _ _ => rfl, fun _ _ => rfl⟩, fun _ _ => rfl⟩

namespace EndBlind

variable {β : Type} {p : State → β} (hp : EndBlind p) (s : State)
include hp

theorem latency (t : Txn) : p (s.latency t) = p s := by
  unfold State.latency
  dsimp only
  split
  · exact (hp.counts ..).trans (hp.tst ..)
  · rfl

theorem txnMarked (id : Nat) (poison complete : Bool) : p (s.txnMarked id poison complete) = p s := by
  unfold State.txnMarked
  split
  · rfl
  · dsimp only
    split
    · exact hp.txn ..
    · rw [State.txnRecord_state]
      exact (hp.bufferRecord ..).trans <| (hp.free ..).trans (hp.txn ..)

theorem txnEnd (id : Option Nat) (poison complete : Bool) : p (s.txnEnd id poison complete) = p s := by
  unfold State.txnEnd
  split
  · rfl
  next t _ =>
    refine (hp.txnMarked ..).trans ?_
    cases complete && !t.gone
    · exact rfl
    · exact hp.latency ..

end EndBlind

end Sys2Proof.Machine

/-!
# Completions of host requests (R58, R63, R170, R171)
-/

namespace Sys2Proof.Machine

/-! ### Event records (R69) -/

section
variable (s : State)

theorem State.ld_onLd_ne {k l : Nat} (h : k ≠ l) (f : LdSt → LdSt) : (s.onLd l f).ld k = s.ld k := smGet_smSet_ne _ _ _ _ h

/-- An event record changes nothing of an LD but its logs. -/
theorem State.ld_event {β : Type} {g : LdSt → β} (hg : ∀ d x n, g { d with logs := x, nextHandle := n } = g d)
    (k l log : Nat) (kind : EventKind) (dpa cause txn : Nat) :
    g ((s.event l log kind dpa cause txn).ld k) = g (s.ld k) := by
  unfold State.event
  dsimp only
  rcases eq_or_ne k l with rfl | h
  · rw [State.ld_onLd_same]
    split
    · exact hg (s.ld k) _ (s.ld k).nextHandle
    · exact hg (s.ld k) _ ((s.ld k).nextHandle + 1)
  · rw [State.ld_onLd_ne _ h]

/-- R68: a record of poisoned data of another member changes nothing but the logs of an LD. -/
theorem State.farPoison_eq (r : HostReq) (m : CohMsg) :
    s.farPoison r m = { s with hosts := (s.farPoison r m).hosts } := by
  unfold State.farPoison
  split
  · split <;> rfl
  · rfl

theorem State.conflicts_farPoison (r : HostReq) (m : CohMsg) (l : Nat) :
    ((s.farPoison r m).ld l).conflicts = (s.ld l).conflicts := by
  unfold State.farPoison
  split
  · split
    · exact s.ld_event (g := LdSt.conflicts) (fun _ _ _ => rfl) ..
    · rfl
  · rfl

end

/-! ### The response (R58, R67) -/

/-- R67: the DevLoad of a host request: the highest priority of its DRAM accesses. -/
def State.devLoad (s : State) (r : HostReq) : Nat :=
  (((s.txnFind r.ld r.rtag r.slot r.line).bind s.txnOf).map (·.prio)).getD 0

section
variable (s : State)

/-- R58, R332: a host request that ends leaves what hangs on no count or request as its response does. -/
theorem EndBlind.hostEnd {β : Type} {p : State → β} (hp : EndBlind p) (r : HostReq) (kind : Nat) (data : Line)
    (poison : Bool) : p (s.hostEnd r kind data poison) = p (s.toHost r.ld r.tag kind data poison (s.devLoad r)) := by
  unfold State.hostEnd
  dsimp only
  split
  · exact (hp.txnEnd ..).trans (hp.counts ..)
  · rfl

variable {s}

theorem State.toHost_up {l : Nat} {e : LdEntry} (he : s.secs.ldEntry l = some e) (hup : s.on F.PRT_LINK_UP e.port = true)
    (tag kind : Nat) (data : Line) (poison : Bool) (load : Nat) :
    s.toHost l tag kind data poison load = s.emit (.s2m l tag kind data poison load) := by
  unfold State.toHost
  simp only [he, hup, if_true]

/-- R160: with no request of the LD at its port, and no BIConflict that waits, nothing is tried again. -/
theorem State.m2sAgain_idle {l : Nat} (hm : s.m2s.any (fun x => x.ld.val == l) = false) (hc : (s.ld l).conflicts = []) :
    s.m2sAgain l = { s with m2s := s.m2s.filter (fun r => r.ld.val != l) } := by
  have hnone : s.m2s.filter (fun r => r.ld.val == l) = [] := by
    simpa [List.filter_eq_nil_iff] using hm
  unfold State.m2sAgain State.conflictsEnd
  simp only [hnone, State.forEach_nil]
  have hc' : (State.ld { s with m2s := s.m2s.filter (fun r => r.ld.val != l) } l).conflicts = [] := hc
  rw [hc']
  rfl

end

end Sys2Proof.Machine

namespace Sys2Proof.Machine

section
variable {s w : State} {m : CohMsg}

/-! ### Completions at a port -/

/-- R171: a completion or data that its domain does not hold back reaches the LD. -/
theorem State.cohTo_ld {a : Fin 96} {opc : Nat} (ha : a.val < 64) (hb : Brought s ⟨opc, .agent a, m⟩ w)
    (ho : ∀ d, w.domOf ⟨opc, .agent a, m⟩ = some d → w.domHolds d (opNet opc) = false) :
    s.cohTo (some a) opc m = w.hostDone a opc m := by
  rw [State.cohTo, State.cohCpl, State.arrive_of_brought hb ho, if_pos ha]

/-- What the end of a host request may change only in its response and its list of requests. -/
structure DoneBlind {β : Type} (p : State → β) : Prop extends EndBlind p where
  hosts : ∀ (t : State) x, p { t with hosts := x } = p t
  m2s : ∀ (t : State) x, p { t with m2s := x } = p t

/-- R58: the request that the completion answers ends, with one response to the host. -/
theorem DoneBlind.hostDone {β : Type} {p : State → β} (hp : DoneBlind p) {l : Nat} (opc : Nat) {r : HostReq} {e : LdEntry}
    (hr : s.reqs.find? (fun r => r.ld == l && r.rtag == m.rtag.toNat && r.line == m.line.toNat && r.slot == m.slot.toNat) =
      some r)
    (hm : s.m2s.any (fun x => x.ld.val == l) = false) (hc : (s.ld l).conflicts = []) (he : s.secs.ldEntry r.ld = some e)
    (hup : s.on F.PRT_LINK_UP e.port = true) : p (s.hostDone l opc m) =
      p (State.emit { s with reqs := s.reqs.erase r } (.s2m r.ld r.tag (s2mKind opc) m.data m.poison (s.devLoad r))) := by
  obtain ⟨u, hu⟩ : ∃ u, u = State.farPoison { s with reqs := s.reqs.erase r } r m := ⟨_, rfl⟩
  have heq : u = { s with reqs := s.reqs.erase r, hosts := u.hosts } := hu ▸ State.farPoison_eq ..
  have hsent : ∀ {γ : Type} {q : State → γ}, EndBlind q → q (u.hostEnd r (s2mKind opc) m.data m.poison) =
      q (u.emit (.s2m r.ld r.tag (s2mKind opc) m.data m.poison (u.devLoad r))) := by
    intro γ q hq
    rw [hq.hostEnd, State.toHost_up (e := e) (by rw [heq]; exact he) (by rw [heq]; exact hup)]
  have hwait : (u.hostEnd r (s2mKind opc) m.data m.poison).m2s = s.m2s :=
    (hsent endBlind_m2s).trans (by rw [heq]; rfl)
  have hnone : ((u.hostEnd r (s2mKind opc) m.data m.poison).ld l).conflicts = [] := by
    rw [State.ld_of_hosts _ (hsent endBlind_hosts), State.ld_of_hosts _ (State.emit_hosts ..), hu, State.conflicts_farPoison]
    exact hc
  have hdone : s.hostDone l opc m = (u.hostEnd r (s2mKind opc) m.data m.poison).m2sAgain l := by
    simp only [State.hostDone, hr, hu]
  have hload : u.devLoad r = s.devLoad r := by
    rw [heq]
    rfl
  rw [hdone, State.m2sAgain_idle (by rw [hwait]; exact hm) hnone, hp.m2s, hsent hp.toEndBlind, hload, heq]
  exact hp.hosts (State.emit { s with reqs := s.reqs.erase r } _) _

/-- What a host sees of the end of its request, and what stays. -/
def State.hostView (s : State) : List HostReq × List Host.Cell × MapSt × CohSt × List Out :=
  (s.reqs, s.mem, s.map, s.coh, s.out)

theorem doneBlind_hostView : DoneBlind State.hostView where
  wr _ _ _ _ _ _ := rfl
  smp _ _ := rfl
  txn _ _ := rfl
  free _ _ := rfl
  tst _ _ := rfl
  hosts _ _ := rfl
  m2s _ _ := rfl

/-- R170: a completion or data that is addressed to a home is a protocol error there. -/
theorem State.cohTo_home {opc : Nat} (hb : Brought s ⟨opc, .home, m⟩ w)
    (ho : w.domHolds (homeOf m.line.toNat) (opNet opc) = false) : s.cohTo none opc m = w.homeStray opc m := by
  rw [State.cohTo, State.arrive_of_brought hb fun d hd => ?_]
  obtain rfl : homeOf m.line.toNat = d := Option.some.inj hd
  exact ho

end

/-! ### Protocol errors of a home (R175) -/

section
variable (s : State) (h : Nat) (st : HbSt) (opc src line : Nat)

theorem State.rd_peHome_err : (s.peHome h st opc src line).rd F.HOM_ERR_PROTO h =
    min (s.rd F.HOM_ERR_PROTO h + 1) (2 ^ F.HOM_ERR_PROTO.width - 1) := by
  unfold State.peHome
  simp (disch := decide) only [State.rd_record_ne, State.rd_wr_of_id, State.set_eq, State.rd_bump_same]

theorem State.rd_peHome_opc (hopc : opc < 32) : (s.peHome h st opc src line).rd F.HOM_LAST_PE_OPC h = opc := by
  unfold State.peHome
  simp (disch := decide) only [State.rd_record_ne, State.rd_wr_of_id, State.rd_wr_same]
  exact Nat.mod_eq_of_lt hopc

theorem State.peHome_frame : (s.peHome h st opc src line).coh = s.coh ∧ (s.peHome h st opc src line).mem = s.mem := by
  simp [State.peHome, State.record_mem]

end

/-- The commands that bring a completion or data to an agent, or to a home. -/
def completions (a : Option (Fin 96)) (m : CohMsg) : List (Nat × Instr) :=
  [(opData, .data a m), (opDataE, .datae a m), (opCmp, .cmp a m), (opCmpE, .cmpe a m), (opAck, .ack a m)]

/-- R58: the kind of the S2M response to each. -/
theorem completions_kinds (a : Option (Fin 96)) (m : CohMsg) :
    [(opData, 3, Instr.data a m), (opDataE, 3, .datae a m), (opCmp, 0, .cmp a m), (opCmpE, 1, .cmpe a m), (opAck, 0, .ack a m)] =
      (completions a m).map (fun c => (c.1, s2mKind c.1, c.2)) := by
  have hkind : s2mKind opData = 3 ∧ s2mKind opDataE = 3 ∧ s2mKind opCmp = 0 ∧ s2mKind opCmpE = 1 ∧ s2mKind opAck = 0 := by
    decide
  simp only [completions, List.map_cons, List.map_nil, hkind]

theorem exec_completion {s : State} {a : Option (Fin 96)} {m : CohMsg} (hs : s.stage = .running) :
    ∀ c ∈ completions a m, exec c.2 s = .next (s.cohTo a c.1 m) ∧ (opNet c.1 = 2 ∨ opNet c.1 = 3) ∧ c.1 < 32 := by
  simp only [completions, List.forall_mem_cons, List.not_mem_nil, false_implies, implies_true, and_true]
  have hdie : ∀ opc, onDie s (fun s => s.cohTo a opc m) = .next (s.cohTo a opc m) := fun _ => onDie_running hs
  exact ⟨⟨hdie opData, by decide⟩, ⟨hdie opDataE, by decide⟩, ⟨hdie opCmp, by decide⟩, ⟨hdie opCmpE, by decide⟩,
    ⟨hdie opAck, by decide⟩⟩

/-- Settles O28: at an LD's port by the request that the completion ends, at a home by PE-H. -/
theorem hostCompletions : Obligations.HostCompletions := by
  unfold Obligations.HostCompletions
  refine ⟨?port, ?home⟩
  case port =>
    intro a m r e s w hs ha hgate hr hm hconf he hup c hin
    rw [completions_kinds] at hin
    obtain ⟨c, hc, rfl⟩ := List.mem_map.1 hin
    intro hb
    obtain ⟨hexec, hnet, -⟩ := exec_completion hs c hc
    have hopen : ∀ d, w.domOf ⟨c.1, .agent a, m⟩ = some d → w.domHolds d (opNet c.1) = false := fun d hd => by
      obtain ⟨h2, h3⟩ := hgate d hd
      rcases hnet with h | h <;> rw [h] <;> assumption
    refine ⟨_, hexec, ?_⟩
    rw [State.cohTo_ld ha hb hopen]
    have hview := doneBlind_hostView.hostDone c.1 hr hm hconf he hup
    simp only [State.hostView, Prod.mk.injEq] at hview
    obtain ⟨hreqs, hmem, hmap, hcoh, hout⟩ := hview
    exact ⟨hreqs, hmem.trans hb.mem, hmap, congrArg CohSt.flight hcoh, _, hout⟩
  case home =>
    intro m s w hs h2 h3 c hin hb
    obtain ⟨hexec, hnet, hopc⟩ := exec_completion hs c hin
    have hopen : w.domHolds (homeOf m.line.toNat) (opNet c.1) = false := by
      rcases hnet with h | h <;> rw [h] <;> assumption
    refine ⟨_, hexec, ?_⟩
    rw [State.cohTo_home hb hopen]
    obtain ⟨hcoh, hmem⟩ := w.peHome_frame (homeOf m.line.toNat) (((w.tt (homeOf m.line.toNat) m.htag.toNat).map (·.st)).getD .alloc)
      c.1 m.src.toNat m.line.toNat
    exact ⟨State.rd_peHome_err .., State.rd_peHome_opc _ _ _ _ _ _ hopc, congrArg CohSt.tt hcoh, hmem.trans hb.mem⟩

end Sys2Proof.Machine

/-!
# Snoops at an agent (R64, R66, R171, R175, R177, Table 7-8)

A snoop that its domain does not hold back reaches a caching agent, an LD's port or a peer proxy. What a caching agent does is one
cell of Table 7-8, which is a change of the line, messages to the home, and at most a record.
-/

namespace Sys2Proof.Machine

/-- The commands that bring a snoop to agent `a`. -/
def snoops (a : Fin 96) (m : CohMsg) : List (Nat × Instr) := [(opSnpS, .snps a m), (opSnpI, .snpi a m), (opSnpF, .snpf a m)]

theorem exec_snoop {s : State} {a : Fin 96} {m : CohMsg} (hs : s.stage = .running) :
    ∀ c ∈ snoops a m, exec c.2 s = .next (s.cohSnp a c.1 m) ∧ opNet c.1 = 1 := by
  simp only [snoops, List.forall_mem_cons, List.not_mem_nil, false_implies, implies_true, and_true]
  have hdie : ∀ opc, onDie s (fun s => s.cohSnp a opc m) = .next (s.cohSnp a opc m) := fun _ => onDie_running hs
  exact ⟨⟨hdie opSnpS, by decide⟩, ⟨hdie opSnpI, by decide⟩, ⟨hdie opSnpF, by decide⟩⟩

section
variable {s w : State} {a opc : Nat} {m : CohMsg}

/-- R64, R171, R177: what a snoop that is not held back does. -/
theorem State.cohSnp_open (hb : Brought s ⟨opc, .agent a, m⟩ w) (hn : opNet opc = 1)
    (ho : ∀ d, w.domOf ⟨opc, .agent a, m⟩ = some d → w.domHolds d 1 = false) :
    s.cohSnp a opc m = if a < 64 then w.biSnoop a opc m else if a < 81 then w.agSnoop a opc m
      else w.toMember (proxySlot w.slot a) ⟨opc, .agent a, m⟩ := by
  rw [State.cohSnp, State.arrive_of_brought hb (by rw [hn]; exact ho)]

/-- R206: a caching agent other than a gallery lies in no domain. -/
theorem State.cohSnp_cache (hb : Brought s ⟨opc, .agent a, m⟩ w) (hn : opNet opc = 1) (h64 : 64 ≤ a) (h81 : a < 81)
    (ho : a < 80 → w.domHolds (a - 48) 1 = false) : s.cohSnp a opc m = w.agSnoop a opc m := by
  rw [State.cohSnp_open hb hn, if_neg (by omega), if_pos h81]
  intro d hd
  simp only [State.domOf, if_neg (show ¬ a < 64 by omega)] at hd
  split at hd
  next h80 =>
    obtain rfl := Option.some.inj hd
    rw [show 16 + (a - 64) = a - 48 by omega]
    exact ho h80
  · cases hd

/-- R177: a peer proxy lies in no domain. -/
theorem State.cohSnp_proxy (hb : Brought s ⟨opc, .agent a, m⟩ w) (hn : opNet opc = 1) (h81 : 81 ≤ a) :
    s.cohSnp a opc m = w.toMember (proxySlot w.slot a) ⟨opc, .agent a, m⟩ := by
  rw [State.cohSnp_open hb hn, if_neg (by omega), if_neg (by omega)]
  intro d hd
  simp only [State.domOf, if_neg (show ¬ a < 64 by omega), if_neg (show ¬ a < 80 by omega)] at hd
  cases hd

end

/-! ### Lines of a caching agent -/

section
variable (s : State) (a sl ln : Nat) (x : AgLine)

/-- The counting of valid lines changes registers alone. -/
theorem State.showCache_eq (was is_ : Bool) : s.showCache a was is_ = { s with regs := (s.showCache a was is_).regs } := by
  unfold State.showCache
  split
  · rfl
  · split <;> rfl

theorem State.setAg_mem : (s.setAg a sl ln x).mem = s.mem := by
  unfold State.setAg
  rw [State.showCache_eq]

theorem State.setAg_flight : (s.setAg a sl ln x).coh.flight = s.coh.flight := by
  unfold State.setAg
  rw [State.showCache_eq]

/-- A line of a caching agent is in the state it was set to. -/
theorem State.setAg_st : ((s.setAg a sl ln x).agLine a sl ln).st = x.st := by
  unfold State.setAg State.agLine
  dsimp only
  rw [State.showCache_eq]
  dsimp only
  rw [smGet_smSet_same]
  split <;> rfl

end

section
variable (s : State) (a opc : Nat) (m : CohMsg) (x : AgLine) (st : AgSt)

/-- Messages to the home change no line. -/
@[simp] theorem State.agLine_send (f : Flight) (b sl ln : Nat) : (s.send f).agLine b sl ln = s.agLine b sl ln := rfl
@[simp] theorem State.send_lines (f : Flight) : (s.send f).coh.lines = s.coh.lines := rfl

/-- The DataM that a snooped agent sends. -/
def agDataM : Flight :=
  ⟨opDataM, .home, { agMsg a m with data := x.data, poison := x.poison, write := true, mask := BitVec.allOnes 64 }⟩

/-- Table 7-8: a cell that answers and changes the line's state. -/
def State.snoopCell (opc : Nat) : State :=
  (s.setAg a m.slot.toNat m.line.toNat { x with st := st }).send ⟨opc, .home, agMsg a m⟩

theorem State.snoopCell_st : ((s.snoopCell a m x st opc).agLine a m.slot.toNat m.line.toNat).st = st := State.setAg_st ..

theorem State.snoopCell_mem : (s.snoopCell a m x st opc).mem = s.mem := State.setAg_mem ..

theorem State.snoopCell_flight :
    (s.snoopCell a m x st opc).coh.flight = s.coh.flight ++ [⟨opc, .home, agMsg a m⟩] :=
  congrArg (· ++ _) (State.setAg_flight ..)

variable {t w : State}

/-- What such a cell leaves. -/
theorem State.snoopCell_spec (ht : t = w.snoopCell a m x st opc) : (t.agLine a m.slot.toNat m.line.toNat).st = st ∧
    t.coh.flight = w.coh.flight ++ [⟨opc, .home, agMsg a m⟩] := by
  subst ht
  exact ⟨State.snoopCell_st .., State.snoopCell_flight ..⟩

/-- What such a cell leaves behind the line's data. -/
theorem State.snoopCell_data (hmem : w.mem = s.mem) (ht : t = (w.send (agDataM a m x)).snoopCell a m x st opc) :
    (t.agLine a m.slot.toNat m.line.toNat).st = st ∧ t.mem = s.mem ∧
    t.coh.flight = w.coh.flight ++ [agDataM a m x, ⟨opc, .home, agMsg a m⟩] := by
  subst ht
  refine ⟨State.snoopCell_st .., (State.snoopCell_mem ..).trans hmem, ?_⟩
  rw [State.snoopCell_flight, State.send_flight, List.append_assoc]
  rfl

end

section
variable {s : State} {a opc : Nat} {m : CohMsg}

theorem snpKind_snpF (h : m.fwd = false) : snpKind opSnpF m = 2 := by simp [snpKind, opSnpF, opSnpS, opSnpI, h]

/-- Table 7-8, row M: SnpS, SnpI, and SnpF without FWD. -/
theorem State.agSnoop_m {x : AgLine} (hx : s.agLine a m.slot.toNat m.line.toNat = x) (hst : x.st = .m) :
    s.agSnoop a opSnpS m = (s.send (agDataM a m x)).snoopCell a m x .s opRspS ∧
    s.agSnoop a opSnpI m = (s.send (agDataM a m x)).snoopCell a m x .i opRspI ∧
    (m.fwd = false → s.agSnoop a opSnpF m = (s.send (agDataM a m x)).snoopCell a m x .e opRspF) := by
  subst hx
  refine ⟨?_, ?_, fun h => ?_⟩
  · simp only [State.agSnoop, hst]
    rfl
  · simp only [State.agSnoop, hst]
    rfl
  · simp only [State.agSnoop, hst, snpKind_snpF h]
    rfl

/-- Table 7-8, row E: SnpS, and SnpF without FWD. -/
theorem State.agSnoop_e {x : AgLine} (hx : s.agLine a m.slot.toNat m.line.toNat = x) (hst : x.st = .e) :
    s.agSnoop a opSnpS m = s.snoopCell a m x .s opRspS ∧
    (m.fwd = false → s.agSnoop a opSnpF m = s.send ⟨opRspF, .home, agMsg a m⟩) := by
  subst hx
  refine ⟨?_, fun h => ?_⟩
  · simp only [State.agSnoop, hst]
    rfl
  · simp only [State.agSnoop, hst, snpKind_snpF h]
    rfl

/-- Table 7-8, rows E, S and F: SnpI. -/
theorem State.agSnoop_snpI {x : AgLine} (hx : s.agLine a m.slot.toNat m.line.toNat = x)
    (hst : x.st = .e ∨ x.st = .s ∨ x.st = .f) : s.agSnoop a opSnpI m = s.snoopCell a m x .i opRspI := by
  subst hx
  rcases hst with hst | hst | hst
  all_goals
    simp only [State.agSnoop, hst]
    rfl

/-- Table 7-8, row I: any snoop is PE-S. -/
theorem State.agSnoop_i (hst : (s.agLine a m.slot.toNat m.line.toNat).st = .i) :
    s.agSnoop a opc m = (s.peAgent a .i opc 1 m).send ⟨opRspI, .home, agMsg a m⟩ := by
  simp only [State.agSnoop, hst]
  rfl

/-- R175: PE-S leaves a record of class COH_PROTO. -/
theorem State.peAgent_last (st : AgSt) (action : Nat) :
    (s.peAgent a st opc action m).ras.getLast?.map (fun r => (r.cls, r.sev)) = some (0x10, 1) := by
  have h := congrArg (Option.map (fun x : Nat × Nat × Nat × Nat => (x.1, x.2.1)))
    (s.record_last 0x10 1 (agBlock a).1 (agBlock a).2 m.line.toNat m.slot.toNat (cohDetail a 0 st.code opc action))
  rw [Option.map_map] at h
  exact h

theorem State.peAgent_coh (st : AgSt) (action : Nat) : (s.peAgent a st opc action m).coh = s.coh := State.record_coh ..

end

/-! ### Snoops at an LD's port (R64, R66) -/

section
variable {s : State} {a opc : Nat} {m : CohMsg}

/-- R66: the port is up without a channel for Back-Invalidate. -/
def State.muteLd (s : State) (a : Nat) : Bool :=
  (s.secs.ldEntry a).any (fun e => s.on F.PRT_LINK_UP e.port && !s.on F.PRT_LINK_FLIT e.port)

variable (hown : s.reqs.any (fun r => r.ld == a && r.slot == m.slot.toNat && r.line == m.line.toNat && r.opc == opWbD && r.own)
  = false)
include hown

/-- R66: with no channel for it, a snoop is answered RspI. -/
theorem State.biSnoop_mute (hm : s.muteLd a = true) :
    s.biSnoop a opc m = s.biAnswer a opRspI m.slot.toNat m.line.toNat m.htag.toNat := by
  unfold State.muteLd at hm
  simp only [State.biSnoop, hown, hm, Bool.false_eq_true, if_false, if_true]

/-- R64: a snoop goes to the host as a BISnp of the kind of Table 3-3. -/
theorem State.biSnoop_sent (hm : s.muteLd a = false) : ∃ u : State, (u.hosts = s.hosts ∧ u.out = s.out ∧ u.mem = s.mem) ∧
    s.biSnoop a opc m =
      (u.onLd a (fun d => { d with bisnp := d.bisnp ++ [⟨m.line.toNat, opc, m.slot.toNat, m.htag.toNat⟩] })).emit
        (.bisnp a (if opc = opSnpS then 0 else if opc = opSnpI then 1 else 2) m.line.toNat) := by
  unfold State.muteLd at hm
  simp only [State.biSnoop, hown, hm, Bool.false_eq_true, if_false]
  refine ⟨_, ?_, rfl⟩
  have hview : CountBlind (fun t : State => (t.hosts, t.out, t.mem)) :=
    ⟨fun _ _ _ _ _ _ => rfl, fun _ _ => rfl, fun _ _ => rfl, fun _ _ => rfl⟩
  split
  · exact ⟨rfl, rfl, rfl⟩
  · simpa only [Prod.mk.injEq] using hview.counts s _ _ _ _ _

end

/-- The kinds of Table 3-3. -/
theorem snoops_kinds (a : Fin 96) (m : CohMsg) :
    [(0, opSnpS, Instr.snps a m), (1, opSnpI, .snpi a m), (2, opSnpF, .snpf a m)] =
      (snoops a m).map (fun c => (if c.1 = opSnpS then 0 else if c.1 = opSnpI then 1 else 2, c.1, c.2)) := by
  have hne : opSnpI ≠ opSnpS ∧ opSnpF ≠ opSnpS ∧ opSnpF ≠ opSnpI := by decide
  simp only [snoops, List.map_cons, List.map_nil, hne, if_true, if_false]

/-- Settles O27: a caching agent by its cell of Table 7-8, an LD's port by whether it has Back-Invalidate, a peer proxy by its
path. -/
theorem agentSnoops : Obligations.AgentSnoops := by
  unfold Obligations.AgentSnoops
  refine ⟨?cache, ?port, ?proxy⟩
  case cache =>
    intro a m s w hs h64 h81 hopen sl ln x hsl hln hx
    subst hsl hln
    have hcmd : ∀ c ∈ snoops a m, Brought s ⟨c.1, .agent a, m⟩ w → exec c.2 s = .next (w.agSnoop a c.1 m) := by
      intro c hc hb
      obtain ⟨hexec, hnet⟩ := exec_snoop hs c hc
      rw [hexec, State.cohSnp_cache hb hnet h64 h81 hopen]
    have hS := hcmd (opSnpS, .snps a m) (by simp [snoops])
    have hI := hcmd (opSnpI, .snpi a m) (by simp [snoops])
    have hF := hcmd (opSnpF, .snpf a m) (by simp [snoops])
    refine ⟨fun hst => ?m, fun hst => ?e, fun hst hb => ?snpI, fun hst c hc hb => ?i⟩
    case m =>
      obtain ⟨h1, h2, h3⟩ := State.agSnoop_m hx.symm hst
      exact ⟨fun hb => ⟨_, hI hb, State.snoopCell_data _ _ _ _ _ _ hb.mem h2⟩,
        fun hb => ⟨_, hS hb, State.snoopCell_data _ _ _ _ _ _ hb.mem h1⟩,
        fun hf hb => ⟨_, hF hb, State.snoopCell_data _ _ _ _ _ _ hb.mem (h3 hf)⟩⟩
    case e =>
      obtain ⟨h1, h2⟩ := State.agSnoop_e hx.symm hst
      refine ⟨fun hb => ⟨_, hS hb, State.snoopCell_spec _ _ _ _ _ h1⟩, fun hf hb => ⟨_, hF hb, ?_⟩⟩
      rw [h2 hf]
      exact ⟨(congrArg AgLine.st hx.symm).trans hst, State.send_flight ..⟩
    case snpI => exact ⟨_, hI hb, State.snoopCell_spec _ _ _ _ _ (State.agSnoop_snpI hx.symm hst)⟩
    case i =>
      have hpe := State.agSnoop_i (opc := c.1) (hx ▸ hst)
      have hcoh : (w.peAgent a .i c.1 1 m).coh = w.coh := State.peAgent_coh ..
      refine ⟨_, hcmd c hc hb, ?_⟩
      rw [hpe]
      refine ⟨(State.send_lines ..).trans (congrArg CohSt.lines hcoh), ?_, State.peAgent_last ..⟩
      rw [State.send_flight, hcoh]
  case port =>
    intro a m s w mute hs h64 hopen hown hmute c hin
    rw [snoops_kinds] at hin
    obtain ⟨c, hc, rfl⟩ := List.mem_map.1 hin
    intro hb
    obtain ⟨hexec, hnet⟩ := exec_snoop hs c hc
    have hport : s.cohSnp a c.1 m = w.biSnoop a c.1 m := (State.cohSnp_open hb hnet hopen).trans (if_pos h64)
    refine ⟨fun hm => ⟨_, hexec, ?_⟩, fun hm => ⟨_, hexec, ?_⟩⟩
    · obtain ⟨u, ⟨hhosts, hout, hmem⟩, hsent⟩ := State.biSnoop_sent (opc := c.1) hown (hmute.symm.trans hm)
      rw [hport, hsent]
      refine ⟨congrArg (· ++ _) hout, hmem.trans hb.mem, ?_⟩
      rw [State.ld_of_hosts _ (State.emit_hosts ..), State.ld_onLd_same, State.ld_of_hosts _ hhosts]
    · rw [hport, State.biSnoop_mute hown (hmute.symm.trans hm)]
      exact ⟨rfl, rfl, hb.mem, by simp [State.biAnswer]⟩
  case proxy =>
    intro a m s w hs h81 c hc hb
    obtain ⟨hexec, hnet⟩ := exec_snoop hs c hc
    exact ⟨_, hexec, State.cohSnp_proxy hb hnet h81⟩

end Sys2Proof.Machine

/-!
# Accesses put before their channel (R94, R255, R259, R260, R314)
-/

namespace Sys2Proof.Machine

/-- The fields that an access put before its channel changes. -/
def postFields : List Field := rtFields ++ [F.DRC_RANK_STATUS_STATE, F.DRC_RANK_CNT_WAKES]

/-- What hangs on none of those fields, no count, channel and power state: nothing that an access put before its channel
changes. -/
structure PostBlind {β : Type} (p : State → β) : Prop extends CountBlind p where
  post : ∀ f ∈ postFields, ∀ (t : State) (v i j : Nat), p (t.wr f v i j) = p t
  dram : ∀ (t : State) x, p { t with dram := x } = p t
  pwr : ∀ (t : State) x, p { t with pwr := x } = p t

namespace PostBlind

variable {β : Type} {p : State → β} (hp : PostBlind p) (s : State)
include hp

theorem showRt (c : Nat) : p (s.showRt c) = p s :=
  State.showRt_keeps (p := p) s c (fun _ _ => hp.dram ..) fun f hf => hp.post f (by simp [postFields, hf])

theorem rankState (v c r : Nat) : p (s.wr F.DRC_RANK_STATUS_STATE v c r) = p s := hp.post _ (by simp [postFields]) ..

theorem wakeRank (c r : Nat) : p (s.wakeRank c r) = p s := by
  unfold State.wakeRank
  split
  · exact (hp.counts ..).trans <| (hp.post F.DRC_RANK_CNT_WAKES (by simp [postFields]) ..).trans (hp.rankState ..)
  · rfl

theorem unpark (c r : Nat) : p (s.unpark c r) = p s := by
  unfold State.unpark
  split
  · rfl
  · split
    · exact (hp.rankState ..).trans (hp.dram ..)
    · exact hp.rankState ..

theorem rouse (c r : Nat) : p (s.rouse c r) = p s := (hp.wakeRank ..).trans (hp.unpark ..)

theorem postLine (c cla : Nat) (w : Bool) (m : Nat) (rt : Option Nat) : p (s.postLine c cla w m rt) = p s := by
  have hrt : ∀ t : State, p (if rt.isSome then t.showRt c else t) = p t := by
    intro t
    split
    · exact hp.showRt ..
    · rfl
  unfold State.postLine
  split
  · rfl
  · exact (hp.rouse ..).trans <| (hp.pwr ..).trans <| (hrt _).trans <| (hp.dram ..).trans (hp.onTxn ..)

theorem postMa (ma : Nat) (w : Bool) (m : Nat) : p (s.postMa ma w m) = p s := by
  unfold State.postMa
  split
  · rfl
  · exact hp.postLine ..

theorem postRead (line m : Nat) : p (s.postRead line m) = p s := State.forEach_keeps (p := p) fun _ _ => hp.postMa ..

end PostBlind

end Sys2Proof.Machine

/-!
# Requests of hosts (R59, R63, R160, Table 3-2)
-/

namespace Sys2Proof.Machine

/-! ### The commands -/

/-- What the port makes of an M2S request is the same for both. -/
structure SameRequest (r q : M2S) : Prop where
  ld : q.ld = r.ld
  tag : q.tag = r.tag
  hpa : q.hpa = r.hpa
  map : ∀ bi owns, m2sMap bi owns q = m2sMap bi owns r
  written : ∀ bi owns na, m2sMap bi owns r = some (opWbD, na) →
    q.data = r.data ∧ q.poison = r.poison ∧ m2sBytes q = m2sBytes r

theorem m2sMap_wbD {bi owns na : Bool} {r : M2S} (h : m2sMap bi owns r = some (opWbD, na)) : r.op = .memWr ∨ r.op = .memWrPtl := by
  have hne : opRdS ≠ opWbD ∧ opRdO ≠ opWbD ∧ opUpg ≠ opWbD ∧ opEvC ≠ opWbD := by decide
  obtain ⟨h1, h2, h3, h4⟩ := hne
  unfold m2sMap at h
  split at h
  case h_1 => split at h <;> (try split at h) <;> simp [h1, h2] at h
  case h_2 => simp [h1] at h
  case h_3 => split at h <;> simp [h3] at h
  case h_4 hop => exact .inl hop
  case h_5 hop => exact .inr hop
  case h_6 => split at h <;> simp [h4] at h

/-- What a command carries of its request. -/
def m2sCarried (r : M2S) : M2S :=
  match r.op with
  | .memRd | .memInv => { ld := r.ld, op := r.op, tag := r.tag, hpa := r.hpa, snp := r.snp, mv := r.mv }
  | .memRdData => { ld := r.ld, op := r.op, tag := r.tag, hpa := r.hpa }
  | .memWr => { ld := r.ld, op := r.op, tag := r.tag, hpa := r.hpa, mv := r.mv, data := r.data, poison := r.poison }
  | .memWrPtl => { r with snp := .noOp }
  | .memClnEvct => { ld := r.ld, op := r.op, tag := r.tag, hpa := r.hpa, mv := r.mv }

theorem exec_m2s {s : State} (r : M2S) (hs : s.stage = .running) : ∀ c ∈ m2sCommands r,
    exec c s = .next (s.m2sIn (m2sCarried r)) := by
  have hdie : ∀ q : M2S, onDie s (fun s => s.m2sIn q) = .next (s.m2sIn q) := fun _ => onDie_running hs
  obtain ⟨ld, op, tag, hpa, snp, mv, data, mask, poison⟩ := r
  cases op
  all_goals
    simp only [m2sCommands, List.forall_mem_singleton]
    exact hdie _

theorem sameRequest_m2sCarried (r : M2S) : SameRequest r (m2sCarried r) := by
  obtain ⟨ld, op, tag, hpa, snp, mv, data, mask, poison⟩ := r
  cases op with
  | memRd | memRdData | memInv | memClnEvct =>
    exact ⟨rfl, rfl, rfl, fun _ _ => rfl, fun _ _ _ h => (m2sMap_wbD h).elim nofun nofun⟩
  | memWr | memWrPtl => exact ⟨rfl, rfl, rfl, fun _ _ => rfl, fun _ _ _ _ => ⟨rfl, rfl, rfl⟩⟩

theorem PortTakes.same {s : State} {r q : M2S} {e : LdEntry} {slot line tg : Nat} (h : PortTakes s r e slot line tg)
    (hq : SameRequest r q) : PortTakes s q e slot line tg := by
  unfold PortTakes at h ⊢
  rw [hq.ld, hq.hpa]
  exact h

/-! ### A request that is sent on -/

section
variable {s : State} {r : M2S} {e : LdEntry} {slot line tg : Nat}

/-- R322: the ingress of a request only has it followed. -/
theorem State.ingress_eq (s : State) (r : M2S) : s.ingress r = { s with txn := (s.ingress r).txn } := by
  unfold State.ingress State.txnBegin
  split <;> rfl

theorem State.m2sTry_takes (h : PortTakes s r e slot line tg) {opc : Nat} {na : Bool}
    (hm : m2sMap (s.on F.PRT_LINK_FLIT e.port) (s.hostOwns r.ld slot line) r = some (opc, na)) :
    s.m2sTry r = s.m2sSend r opc na slot line := by
  obtain ⟨-, he, hup, hsec, hen, hhold, -, hat, hbi, -⟩ := h
  have hfree : (s.ld r.ld).bisnp.find? (fun b => opc == opWbD && b.line == line && b.home == slot) = none := by
    refine List.find?_eq_none.2 fun b hb => ?_
    have := hbi b hb
    simp only [Bool.and_eq_true, beq_iff_eq]
    tauto
  unfold State.m2sTry
  simp only [he, hup, hsec, hen, hhold, hat, hm, hfree, Bool.not_true, Bool.or_self, Bool.false_eq_true, if_false,
    Option.any_some]

/-- The internal request of an M2S request (R160, Table 3-2). -/
def m2sMsg (r : M2S) (slot line tg : Nat) (na own : Bool) (opc : Nat) : CohMsg :=
  { src := BitVec.ofNat 7 r.ld, line := BitVec.ofNat 40 line, slot := BitVec.ofNat 4 slot, rtag := BitVec.ofNat 8 tg,
    noalloc := na, noown := opc == opWbD && !own, mask := if opc = opWbD then m2sBytes r else 0 }

/-- The data of a write, which follows its request (Table 3-2). -/
def m2sDataMsg (r : M2S) (slot line : Nat) (na : Bool) : CohMsg :=
  { src := BitVec.ofNat 7 r.ld, line := BitVec.ofNat 40 line, slot := BitVec.ofNat 4 slot, noalloc := na, write := true,
    mask := m2sBytes r, data := r.data, poison := r.poison }

/-- R63: the request is followed, and its internal request sent. -/
def State.taken (s : State) (r : M2S) (slot line tg : Nat) (na own : Bool) (opc : Nat) : State :=
  (State.accepted { s with reqs := s.reqs ++ [⟨r.ld, r.tag.toNat, tg, opc, slot, line, own⟩] } r tg slot line).send
    ⟨opc, .home, m2sMsg r slot line tg na own opc⟩

theorem State.m2sSend_takes (h : PortTakes s r e slot line tg) {opc : Nat} {na : Bool} (hopc : opc ≠ opWbD) :
    s.m2sSend r opc na slot line = some (s.taken r slot line tg na false opc) := by
  obtain ⟨-, he, -, -, -, -, -, -, -, hreq, htag⟩ := h
  have hnone : s.reqs.any (fun x => x.ld == r.ld.val && x.slot == slot && x.line == line) = false := by
    simpa [and_assoc] using hreq
  unfold State.m2sSend
  simp only [hnone, hopc, htag, Bool.false_eq_true, if_false, false_and, State.taken, m2sMsg, beq_eq_false_iff_ne.2 hopc,
    Bool.false_and]

theorem State.m2sSend_write (h : PortTakes s r e slot line tg) {na : Bool} (hsp : s.spent r.ld (homeOf line) < 4) :
    let own := s.on F.PRT_LINK_FLIT e.port && s.hostOwns r.ld slot line
    s.m2sSend r opWbD na slot line = some (((s.taken r slot line tg na own opWbD).spend r.ld (homeOf line)).send
      ⟨opDataM, .home, m2sDataMsg r slot line na⟩) := by
  obtain ⟨-, he, -, -, -, -, -, -, -, hreq, htag⟩ := h
  have hnone : s.reqs.any (fun x => x.ld == r.ld.val && x.slot == slot && x.line == line) = false := by
    simpa [and_assoc] using hreq
  unfold State.m2sSend
  simp only [hnone, hsp.not_ge, he, htag, Bool.false_eq_true, if_false, and_false, State.taken, m2sMsg, m2sDataMsg, Option.map_some,
    Option.getD_some, if_true, beq_self_eq_true, Bool.true_and]

/-- What the acceptance of a request (Table 14-2) and its way into the table of requests leave. -/
theorem CountBlind.accepted {β : Type} {p : State → β} (hp : CountBlind p) (s : State) (r : M2S) (tg slot line : Nat) :
    p (s.accepted r tg slot line) = p s := by
  unfold State.accepted
  dsimp only
  split
  · exact hp.onTxn ..
  · exact (hp.counts ..).trans (hp.onTxn ..)

theorem CountBlind.notSent {β : Type} {p : State → β} (hp : CountBlind p) (s : State) (r : M2S) : p (s.notSent r) = p s := by
  unfold State.notSent
  split
  · rfl
  · exact hp.txn ..

/-- What the port's acceptance of a request must show, and must leave. -/
def State.portView (s : State) : List HostReq × CohSt × List Host.Cell × MapSt × List Out :=
  (s.reqs, s.coh, s.mem, s.map, s.out)

theorem countBlind_portView : CountBlind State.portView :=
  ⟨fun _ _ _ _ _ _ => rfl, fun _ _ => rfl, fun _ _ => rfl, fun _ _ => rfl⟩

/-- R322: while it is at its port the request is followed, which has no part in what the port does with it. -/
theorem State.m2sIn_takes (h : PortTakes s r e slot line tg) {opc : Nat} {na : Bool}
    (hm : m2sMap (s.on F.PRT_LINK_FLIT e.port) (s.hostOwns r.ld slot line) r = some (opc, na)) :
    ∃ u : State, PortTakes u r e slot line tg ∧ u.portView = s.portView ∧
      (u.on F.PRT_LINK_FLIT e.port && u.hostOwns r.ld slot line) = (s.on F.PRT_LINK_FLIT e.port && s.hostOwns r.ld slot line) ∧
      ∀ t, u.m2sSend r opc na slot line = some t → s.m2sIn r = t.notSent r := by
  obtain ⟨u, hu⟩ : ∃ u, u = s.ingress r := ⟨_, rfl⟩
  have heq : u = { s with txn := u.txn } := by
    rw [hu]
    exact State.ingress_eq s r
  have htakes : PortTakes u r e slot line tg := by
    rw [heq]
    exact h
  have hmap : m2sMap (u.on F.PRT_LINK_FLIT e.port) (u.hostOwns r.ld slot line) r = some (opc, na) := by
    rw [heq]
    exact hm
  refine ⟨u, htakes, by rw [heq]; rfl, by rw [heq]; rfl, fun t ht => ?_⟩
  have htry := (State.m2sTry_takes htakes hmap).trans ht
  obtain ⟨-, -, -, -, -, -, hwait, -⟩ := htakes
  unfold State.m2sIn
  simp [← hu, hwait, htry]

theorem State.taken_portView (na own : Bool) (opc : Nat) : (s.taken r slot line tg na own opc).portView =
    (s.reqs ++ [⟨r.ld, r.tag.toNat, tg, opc, slot, line, own⟩],
      { s.coh with flight := s.coh.flight ++ [⟨opc, .home, m2sMsg r slot line tg na own opc⟩] }, s.mem, s.map, s.out) := by
  have h := countBlind_portView.accepted { s with reqs := s.reqs ++ [⟨r.ld, r.tag.toNat, tg, opc, slot, line, own⟩] } r tg slot line
  simp only [State.portView, Prod.mk.injEq] at h ⊢
  obtain ⟨hreqs, hcoh, hrest⟩ := h
  refine ⟨hreqs, ?_, hrest⟩
  rw [← hcoh]
  rfl

theorem State.spend_send_portView (s : State) (a h : Nat) (f : Flight) : ((s.spend a h).send f).portView =
    (s.reqs, { s.coh with flight := s.coh.flight ++ [f],
                          spent := smSet 0 s.coh.spent (a * 16 + h) (smGet 0 s.coh.spent (a * 16 + h) + 1) },
      s.mem, s.map, s.out) :=
  rfl

/-- Table 3-2: a write is followed by its data, and spends a write-data credit. -/
theorem State.written_portView (na own : Bool) (d : CohMsg) (a h : Nat) :
    (((s.taken r slot line tg na own opWbD).spend a h).send ⟨opDataM, .home, d⟩).portView =
      (s.reqs ++ [⟨r.ld, r.tag.toNat, tg, opWbD, slot, line, own⟩],
        { s.coh with flight := s.coh.flight ++ [⟨opWbD, .home, m2sMsg r slot line tg na own opWbD⟩, ⟨opDataM, .home, d⟩],
                     spent := smSet 0 s.coh.spent (a * 16 + h) (s.spent a h + 1) }, s.mem, s.map, s.out) := by
  have hview := s.taken_portView (r := r) (slot := slot) (line := line) (tg := tg) na own opWbD
  rw [State.spend_send_portView]
  simp only [State.portView, Prod.mk.injEq] at hview
  obtain ⟨hreqs, hcoh, hmem, hmap, hout⟩ := hview
  rw [hreqs, hcoh, hmem, hmap, hout, State.spent]
  simp only [List.append_assoc, List.singleton_append]

theorem State.spent_of_coh {s t : State} (h : t.coh = s.coh) (a k : Nat) : t.spent a k = s.spent a k := by
  unfold State.spent
  rw [h]

end

/-! ### Table 3-2 -/

/-- Table 3-2, row by row. -/
theorem m2sMap_table (r : M2S) (o : Bool) :
    (r.op = .memRd → m2sMap false o r = some (opRdS, true) ∧
      (r.snp = .inv → r.mv = .any → m2sMap true o r = some (opRdO, false)) ∧
      (r.snp = .data → r.mv = .shared → m2sMap true o r = some (opRdS, false)) ∧
      (r.snp = .cur → r.mv = .invalid → m2sMap true o r = some (opRdS, true)) ∧
      (r.snp = .noOp → r.mv = .invalid → m2sMap true o r = some (opRdS, true))) ∧
    (r.op = .memRdData → m2sMap true o r = some (opRdS, false) ∧ m2sMap false o r = some (opRdS, true)) ∧
    (r.op = .memInv → r.snp = .inv → r.mv = .any → m2sMap true o r = some (opUpg, false)) ∧
    (r.op = .memWr ∨ r.op = .memWrPtl → m2sMap false o r = some (opWbD, false) ∧ m2sMap true false r = some (opWbD, false) ∧
      (r.mv = .invalid → m2sMap true o r = some (opWbD, false)) ∧ (r.mv ≠ .invalid → m2sMap true true r = none)) ∧
    (r.op = .memClnEvct → r.mv = .invalid → m2sMap true o r = some (opEvC, false)) := by
  refine ⟨fun hop => ?memRd, fun hop => ?memRdData, fun hop hsnp hmv => ?memInv, fun hop => ?write, fun hop hmv => ?memClnEvct⟩
  case memRd => refine ⟨?_, fun h h' => ?_, fun h h' => ?_, fun h h' => ?_, fun h h' => ?_⟩ <;> simp [m2sMap, *]
  case memRdData => simp [m2sMap, hop]
  case memInv => simp [m2sMap, hop, hsnp, hmv]
  case write => rcases hop with hop | hop <;> simp +contextual [m2sMap, hop]
  case memClnEvct => simp [m2sMap, hop, hmv]

/-- Table 3-2, MemSpecRd: the read's accesses put before their channels, or nothing. -/
theorem PostBlind.memspecrd {β : Type} {p : State → β} (hp : PostBlind p) {s : State} (hs : s.stage = .running) (ld : Fin 64)
    (hpa : BitVec 64) : Does (.m2sMemspecrd ld hpa) s (fun t => p t = p s) := by
  refine ⟨_, (onDie_running hs : execM2sMemspecrd ld hpa s = _), ?_⟩
  dsimp only
  split
  · rfl
  · split
    · exact hp.postRead ..
    · rfl

/-- What a hint of a read must leave. -/
def State.hintView (s : State) : List Host.Cell × MapSt × CohSt × List HostReq × List Out × SMap LdSt :=
  (s.mem, s.map, s.coh, s.reqs, s.out, s.hosts)

theorem postBlind_hintView : PostBlind State.hintView where
  wr _ _ _ _ _ _ := rfl
  smp _ _ := rfl
  txn _ _ := rfl
  free _ _ := rfl
  post _ _ _ _ _ _ := rfl
  dram _ _ := rfl
  pwr _ _ := rfl

/-- Settles O17: what the port's acceptance and the message it sends leave of the state, MemSpecRd by what its accesses leave,
any other opcode by the protocol error, and Table 3-2 by its rows. -/
theorem hostRequests : Obligations.HostRequests := by
  unfold Obligations.HostRequests
  refine ⟨?sent, ?written, ?hint, ?other, m2sMap_table⟩
  case sent =>
    intro r s e slot line tg opc na h hm hopc c hc
    have hq := sameRequest_m2sCarried r
    obtain ⟨u, hu, hsame, -, hin⟩ := State.m2sIn_takes (h.same hq) ((hq.map _ _).trans (hq.ld ▸ hm))
    refine ⟨_, exec_m2s r h.1 c hc, ?_⟩
    rw [hin _ (State.m2sSend_takes hu hopc)]
    have hview := (countBlind_portView.notSent _ (m2sCarried r)).trans
      (State.taken_portView (s := u) (r := m2sCarried r) (slot := slot) (line := line) (tg := tg) na false opc)
    simp only [State.portView, Prod.mk.injEq] at hsame hview
    obtain ⟨hreqs, hcoh, hmem, hmap, hout⟩ := hsame
    rw [hreqs, hcoh, hmem, hmap, hout] at hview
    obtain ⟨hreqs, hcoh, hmem, hmap, hout⟩ := hview
    refine ⟨?_, ?_, hmem, hmap, hout⟩
    · rw [hreqs, hq.ld, hq.tag]
    · rw [hcoh]
      simp only [m2sMsg, hopc, beq_eq_false_iff_ne.2 hopc, Bool.false_and, if_false, hq.ld]
  case written =>
    intro r s e slot line tg na h hm hsp c hc
    have hq := sameRequest_m2sCarried r
    obtain ⟨hdata, hpoison, hbytes⟩ := hq.written _ _ _ hm
    obtain ⟨u, hu, hsame, hown, hin⟩ := State.m2sIn_takes (h.same hq) ((hq.map _ _).trans (hq.ld ▸ hm))
    have hucoh : u.coh = s.coh := congrArg (fun v => v.2.1) hsame
    refine ⟨_, exec_m2s r h.1 c hc, ?_⟩
    rw [hin _ (State.m2sSend_write hu (by rw [State.spent_of_coh hucoh, hq.ld]; exact hsp)), hown]
    have hview := (countBlind_portView.notSent _ (m2sCarried r)).trans
      (State.written_portView (s := u) (r := m2sCarried r) (slot := slot) (line := line) (tg := tg) na
        (s.on F.PRT_LINK_FLIT e.port && s.hostOwns (m2sCarried r).ld slot line)
        (m2sDataMsg (m2sCarried r) slot line na) (m2sCarried r).ld (homeOf line))
    simp only [State.portView, Prod.mk.injEq] at hsame hview
    obtain ⟨hreqs, hcoh, hmem, hmap, hout⟩ := hsame
    rw [hreqs, hcoh, hmem, hmap, hout, State.spent_of_coh hcoh] at hview
    obtain ⟨hreqs, hcoh, hmem, hmap, hout⟩ := hview
    refine ⟨⟨_, ?_, rfl⟩, ⟨_, _, congrArg CohSt.flight hcoh, ?_⟩, ?_, hmem, hmap, hout⟩
    · rw [hreqs, hq.ld, hq.tag]
    · simp [m2sMsg, m2sDataMsg, hq.ld, hdata, hpoison, hbytes]
    · rw [State.spent, hcoh, hq.ld]
      dsimp only
      rw [smGet_smSet_same]
  case hint =>
    intro ld hpa s hs
    obtain ⟨t, ht, hview⟩ := postBlind_hintView.memspecrd hs ld hpa
    simp only [State.hintView, Prod.mk.injEq] at hview
    exact ⟨t, ht, hview⟩
  case other =>
    intro ld op e s hs he hup
    obtain ⟨hmem, hmap, hcoh, hreqs, hout, -⟩ := s.portProto_frame e.port
    refine ⟨s.portProto e.port, ?_, s.rd_portProto_err _, s.rd_portProto_irq _, hmem, hmap, hcoh, hreqs, hout⟩
    change execM2sOther ld op s = _
    rw [execM2sOther, onDie_running hs]
    simp only [he, hup, if_true]

end Sys2Proof.Machine

/-!
# Latency tolerances and floors (R74, R75, R208, R343 to R349)

What the tolerances shown anew, and the floor that rises with them, leave: a domain that the floor logic releases delivers
what it holds, and its gallery decodes the blocks that it received meanwhile.
-/

namespace Sys2Proof.Machine

/-- The fields that the tolerances, the target and the exit from a floor show. -/
def floorFields : List Field :=
  [F.PRT_LD_STAT_TOL_NS, F.PRT_LD_STAT_ACTIVE, F.CWK_SPAN_TOL_TOL_NS, F.PWR_STATUS_TMIN_NS, F.PWR_STATUS_TOL_FLOOR,
   F.PWR_STATUS_CAP, F.PWR_STATUS_SEC_LIMIT, F.PWR_STATUS_TARGET, F.PWR_IRQ_CAP_UNMET, F.PWR_STATUS_CAP_UNMET,
   F.PWR_STATUS_THROTTLE, F.PWR_STATUS_FLOOR, F.PWR_IRQ_FLOOR, F.DBG_STATUS_PENDING, F.PWR_LTOL_LOFT_NS,
   F.PWR_STATUS_TRANS, F.PWR_STATUS_BLOCK]

/-- The fields that a domain's wake, the end of its drain, and a block decoded at a gallery change. -/
def domFields : List Field :=
  [F.NOC_DOM_STATUS_STATE, F.NOC_DOM_CTL_FENCE, F.NOC_DOM_STATUS_HELD, F.GAL_TRD_STAT_COUNT, F.GAL_TRD_ERR_DEC_ERR,
   F.GAL_TRD_ERR_LAST_CODE, F.GAL_TRD_LAST_STANDALONE, F.GAL_TRD_LAST_CODE, F.GAL_TRD_LAST_BLOCK, F.GAL_TRD_LAST_PAGE] ++
    recordFields 1

/-- What hangs on none of those fields, no channel, message, map request, gallery, core, record and power state: nothing that
the floors change. -/
structure FloorBlind {β : Type} (p : State → β) : Prop extends PostBlind p where
  floor : ∀ f ∈ floorFields, ∀ (t : State) (v i j : Nat), p (t.wr f v i j) = p t
  dom : ∀ f ∈ domFields, ∀ (t : State) (v i j : Nat), p (t.wr f v i j) = p t
  coh : ∀ (t : State) x, p { t with coh := x } = p t
  noc : ∀ (t : State) x, p { t with noc := x } = p t
  map : ∀ (t : State) x, p { t with map := x } = p t
  gals : ∀ (t : State) x, p { t with gals := x } = p t
  cc : ∀ (t : State) x, p { t with cc := x } = p t
  ras : ∀ (t : State) x, p { t with ras := x } = p t
  nvs : ∀ (t : State) x, p { t with nvs := x } = p t

theorem State.when_keeps {β : Type} {p : State → β} (s : State) (b : Bool) {f : State → State} (h : p (f s) = p s) :
    p (s.when b f) = p s := by
  cases b
  · rfl
  · exact h

theorem ite_keeps {β : Type} {p : State → β} {s a b : State} (c : Prop) [Decidable c] (ha : p a = p s) (hb : p b = p s) :
    p (if c then a else b) = p s := by
  split
  · exact ha
  · exact hb

namespace FloorBlind

variable {β : Type} {p : State → β} (hp : FloorBlind p) (s : State)
include hp

/-! ### Domains -/

theorem onDom (d : Nat) (f : DomSt → DomSt) : p (s.onDom d f) = p s :=
  (hp.dom F.NOC_DOM_STATUS_HELD (by simp [domFields]) ..).trans (hp.noc ..)

theorem domState (v d : Nat) : p (s.wr F.NOC_DOM_STATUS_STATE v 0 d) = p s := hp.dom _ (by simp [domFields]) ..

theorem domFence (d : Nat) : p (s.clear F.NOC_DOM_CTL_FENCE 0 d) = p s := hp.dom F.NOC_DOM_CTL_FENCE (by simp [domFields]) ..

theorem wakeDom (d : Nat) : p (s.wakeDom d) = p s :=
  ite_keeps _ ((hp.onDom ..).trans <| (hp.counts ..).trans <| (hp.domFence ..).trans (hp.domState ..)) rfl

theorem treadFail (g page b : Nat) (alone : Bool) (e : TreadErr) : p (s.treadFail g page b alone e) = p s := by
  unfold State.treadFail
  exact (State.record_keeps (p := p) _ _ _ _ _ _ _ _ hp.ras hp.nvs fun f hf => hp.dom f (by simp [domFields, hf])).trans <|
    (hp.dom F.GAL_TRD_LAST_PAGE (by simp [domFields]) ..).trans <|
      (hp.dom F.GAL_TRD_LAST_BLOCK (by simp [domFields]) ..).trans <|
        (hp.dom F.GAL_TRD_LAST_CODE (by simp [domFields]) ..).trans <|
          (hp.dom F.GAL_TRD_LAST_STANDALONE (by simp [domFields]) ..).trans <|
            (hp.dom F.GAL_TRD_ERR_LAST_CODE (by simp [domFields]) ..).trans
              (hp.dom F.GAL_TRD_ERR_DEC_ERR (by simp [domFields]) ..)

theorem countDec (g tier : Nat) : p (s.countDec g tier) = p s :=
  (hp.counts ..).trans (hp.dom F.GAL_TRD_STAT_COUNT (by simp [domFields]) ..)

theorem shareBlock (page b : Nat) (res : BlockRes) : p (s.shareBlock page b res) = p s := hp.map ..

theorem blkDecode (g page b : Nat) (ct : Bytes) : p (s.blkDecode g page b ct) = p s := by
  unfold State.blkDecode
  dsimp only
  refine ite_keeps _ rfl ?_
  split
  · exact (hp.shareBlock ..).trans (hp.countDec ..)
  · exact (hp.shareBlock ..).trans <| (hp.treadFail ..).trans (hp.countDec ..)

theorem releaseHeld (d : Nat) : p (s.releaseHeld d) = p s := by
  unfold State.releaseHeld
  extract_lets l bs s1 s2 ps
  have hblks : p s2 = p s1 := State.forEach_keeps fun _ _ => hp.blkDecode ..
  have hmsgs : ∀ x y, p { s2 with coh := x, noc := y } = p s2 := fun x y => (hp.noc { s2 with coh := x } y).trans (hp.coh s2 x)
  exact (hmsgs _ _).trans <| hblks.trans (hp.onDom ..)

theorem domGo (d : Nat) : p (s.domGo d) = p s := (hp.releaseHeld ..).trans (hp.domState ..)

theorem endDrain (d : Nat) : p (s.endDrain d) = p s :=
  ite_keeps _ ((hp.domGo ..).trans <| (State.when_keeps _ _ (hp.gals ..)).trans <| (hp.onDom ..).trans (hp.domFence ..)) rfl

/-! ### Floors -/

theorem exitSteps (f : Nat) : p (s.exitSteps f) = p s := by
  have hcores : ∀ x y, p { s with cc := x, pwr := y } = p s := fun x y => (hp.pwr { s with cc := x } y).trans (hp.cc s x)
  unfold State.exitSteps
  split
  · exact hcores ..
  · exact State.forEach_keeps (p := p) fun _ _ => (hp.wakeDom ..).trans (hp.endDrain ..)
  · exact State.forEach_keeps (p := p) fun _ _ => ite_keeps _ (hp.rankState ..) rfl
  · rfl

theorem setFloor (f : Nat) : p (s.setFloor f) = p s := by
  have hset : p (((s.wr F.PWR_STATUS_FLOOR f).set F.PWR_IRQ_FLOOR).counts 63 evFloor) = p s :=
    (hp.counts ..).trans <| (hp.floor F.PWR_IRQ_FLOOR (by simp [floorFields]) ..).trans
      (hp.floor F.PWR_STATUS_FLOOR (by simp [floorFields]) ..)
  exact ite_keeps _ rfl (ite_keeps _ ((hp.floor F.DBG_STATUS_PENDING (by simp [floorFields]) ..).trans hset) hset)

theorem riseN (n : Nat) : p (State.riseN n s) = p s := by
  induction n generalizing s with
  | zero => rfl
  | succ n ih =>
    have hexit : ∀ f, p ((s.exitSteps f).clear F.PWR_STATUS_BLOCK) = p s := fun _ =>
      (hp.floor F.PWR_STATUS_BLOCK (by simp [floorFields]) ..).trans (hp.exitSteps ..)
    have hfenced : ∀ (c : Prop) [Decidable c] (t : State), p (if c then { t with pwr := { t.pwr with fenced := [] } } else t) = p t :=
      fun _ _ _ => ite_keeps _ (hp.pwr ..) rfl
    unfold State.riseN
    dsimp only
    refine ite_keeps _ (ite_keeps _ rfl (hp.floor F.PWR_STATUS_TRANS (by simp [floorFields]) ..)) (ite_keeps _ ?_ ?_)
    · exact (hp.floor F.PWR_STATUS_TRANS (by simp [floorFields]) ..).trans <| (hp.pwr ..).trans (hexit _)
    · refine (ih _).trans <| (hp.pwr ..).trans (ite_keeps _ ?_ ?_)
      · exact (hfenced ..).trans (hexit _)
      · exact (hp.setFloor ..).trans <| (hfenced ..).trans (hexit _)

/-! ### Tolerances -/

theorem showLoft : p s.showLoft = p s := by
  refine State.forEach_keeps (p := p) fun t k => ?_
  have hwr : ∀ v, p (t.wr F.PWR_LTOL_LOFT_NS v 0 k) = p t := fun _ => hp.floor _ (by simp [floorFields]) ..
  refine ite_keeps _ ?_ (hwr _)
  split
  · exact hwr _
  · exact (State.forEach_keeps (p := p) fun _ _ => hp.rouse ..).trans (hwr _)

theorem showTarget : p s.showTarget = p s := by
  unfold State.showTarget
  exact (hp.floor F.PWR_STATUS_TARGET (by simp [floorFields]) ..).trans <|
    (hp.floor F.PWR_STATUS_SEC_LIMIT (by simp [floorFields]) ..).trans <|
      (hp.floor F.PWR_STATUS_CAP (by simp [floorFields]) ..).trans <|
        (hp.floor F.PWR_STATUS_TOL_FLOOR (by simp [floorFields]) ..).trans
          (hp.floor F.PWR_STATUS_TMIN_NS (by simp [floorFields]) ..)

theorem showCap : p s.showCap = p s := by
  unfold State.showCap
  exact (hp.floor F.PWR_STATUS_THROTTLE (by simp [floorFields]) ..).trans <|
    (hp.floor F.PWR_STATUS_CAP_UNMET (by simp [floorFields]) ..).trans <|
      ite_keeps _ (hp.floor F.PWR_IRQ_CAP_UNMET (by simp [floorFields]) ..) rfl

/-- R343, R348, R349: the target and what hangs on it, shown anew. -/
theorem retarget : p s.retarget = p s :=
  (hp.riseN ..).trans <| (hp.showLoft ..).trans <| (hp.showCap ..).trans <| (hp.showTarget ..).trans
    (hp.floor F.CWK_SPAN_TOL_TOL_NS (by simp [floorFields]) ..)

theorem showLd (e : LdEntry) : p (s.showLd e) = p s :=
  (hp.floor F.PRT_LD_STAT_ACTIVE (by simp [floorFields]) ..).trans (hp.floor F.PRT_LD_STAT_TOL_NS (by simp [floorFields]) ..)

/-- R75: the tolerances shown anew. -/
theorem showTols : p s.showTols = p s := (hp.retarget ..).trans (State.forEach_keeps (p := p) fun _ _ => hp.showLd ..)

end FloorBlind

end Sys2Proof.Machine

/-!
# Links of ports (R57, R66, R70, R72 to R78)
-/

namespace Sys2Proof.Machine

/-! ### Holders that a link without Back-Invalidate drops (R66, R71) -/

/-- The fields that a home's occupancy and its snoops change. -/
def homeFields : List Field :=
  [F.HOM_STAT_COUNT, F.HOM_STATUS_TT_USED, F.HOM_STATUS_ALLOCQ, F.HOM_STATUS_RECALLS, F.HOM_STATUS_CONFQ, F.HOM_WDB_WDB_USED]

/-- What hangs on no count, message, directory and home: nothing that the purge of a line of the proxy filter changes. -/
structure PurgeBlind {β : Type} (p : State → β) : Prop extends CountBlind p where
  home : ∀ f ∈ homeFields, ∀ (t : State) (v i j : Nat), p (t.wr f v i j) = p t
  coh : ∀ (t : State) x, p { t with coh := x } = p t
  noc : ∀ (t : State) x, p { t with noc := x } = p t

theorem purgeBlind_rd {g : Field} {k m : Nat} (h : ∀ f ∈ countFields ++ homeFields, g.id % 2 ^ 32 ≠ f.id % 2 ^ 32) :
    PurgeBlind (fun t => t.rd g k m) where
  toCountBlind := countBlind_rd fun f hf => h f (List.mem_append_left _ hf)
  home f hf t v _ _ := State.rd_wr_of_id t v (h f (List.mem_append_right _ hf))
  coh _ _ := rfl
  noc _ _ := rfl

namespace PurgeBlind

variable {β : Type} {p : State → β} (hp : PurgeBlind p) (s : State)
include hp

theorem send (f : Flight) : p (s.send f) = p s := (hp.noc { s with coh := _ } _).trans (hp.coh s _)

theorem showHome (h : Nat) : p (s.showHome h) = p s := by
  unfold State.showHome
  exact (hp.home F.HOM_WDB_WDB_USED (by simp [homeFields]) ..).trans <|
    (hp.home F.HOM_STATUS_CONFQ (by simp [homeFields]) ..).trans <|
      (hp.home F.HOM_STATUS_RECALLS (by simp [homeFields]) ..).trans <|
        (hp.home F.HOM_STATUS_ALLOCQ (by simp [homeFields]) ..).trans
          (hp.home F.HOM_STATUS_TT_USED (by simp [homeFields]) ..)

theorem setPfTx (t : PfTx) : p (s.setPfTx t) = p s := (hp.showHome ..).trans (hp.coh s _)

theorem pfSnoop (t : PfTx) (a opc : Nat) (fwd : Bool) : p (s.pfSnoop t a opc fwd) = p s :=
  (hp.send ..).trans <| (hp.counts ..).trans (hp.home F.HOM_STAT_COUNT (by simp [homeFields]) ..)

theorem pfPurge (f : Flight) : p (s.pfPurge f) = p s :=
  ite_keeps _ (hp.coh s _) (ite_keeps _ ((hp.setPfTx ..).trans (State.forEach_keeps (p := p) fun _ _ => hp.pfSnoop ..)) rfl)

/-- R66: the LDs of a port that trains without Back-Invalidate are dropped as holders. -/
theorem unhold (hbi : ∀ (t : State) l, p (t.onLd l (fun d => { d with bisnp := [] })) = p t) (l : Nat) :
    p (s.unhold l) = p s := by
  unfold State.unhold
  extract_lets open_ s1 s2 s3
  have hans : p s2 = p s1 := State.forEach_keeps fun _ _ => hp.send ..
  have hdir : p s3 = p s2 := State.forEach_keeps fun t _ => hp.coh t _
  exact (State.forEach_keeps (p := p) fun _ _ => hp.pfPurge ..).trans <| hdir.trans <| hans.trans (hbi s l)

end PurgeBlind

/-- The DRAM, the structure, and for every LD whether an FLR waits for its port. -/
def State.dueView (s : State) : List Host.Cell × StrSt × (Nat → Bool) := (s.mem, s.str, fun l => (s.ld l).flrDue)

theorem purgeBlind_dueView : PurgeBlind State.dueView where
  wr _ _ _ _ _ _ := rfl
  smp _ _ := rfl
  txn _ _ := rfl
  free _ _ := rfl
  home _ _ _ _ _ _ := rfl
  coh _ _ := rfl
  noc _ _ := rfl

theorem State.dueView_bisnp (s : State) (l : Nat) : (s.onLd l (fun d => { d with bisnp := [] })).dueView = s.dueView := by
  have hdue : ∀ k, ((s.onLd l (fun d => { d with bisnp := [] })).ld k).flrDue = (s.ld k).flrDue := fun k => by
    rcases eq_or_ne k l with rfl | h
    · rw [State.ld_onLd_same]
    · rw [State.ld_onLd_ne _ h]
  simp only [State.dueView, hdue]
  rfl

/-! ### A link comes up (R57, R73) -/

theorem floorBlind_hosts : FloorBlind State.hosts where
  wr _ _ _ _ _ _ := rfl
  smp _ _ := rfl
  txn _ _ := rfl
  free _ _ := rfl
  post _ _ _ _ _ _ := rfl
  dram _ _ := rfl
  pwr _ _ := rfl
  floor _ _ _ _ _ _ := rfl
  dom _ _ _ _ _ _ := rfl
  coh _ _ := rfl
  noc _ _ := rfl
  map _ _ := rfl
  gals _ _ := rfl
  cc _ _ := rfl
  ras _ _ := rfl
  nvs _ _ := rfl

section
variable {s : State} {p : Nat}

theorem State.secs_of_str {s t : State} (h : t.str = s.str) : t.secs = s.secs := by
  unfold State.secs
  rw [h]

/-- What a link that is up shows (Table 3-6). -/
structure LinkShows (s u : State) (p rate width : Nat) (l0p : Bool) : Prop where
  isUp : u.rd F.PRT_LINK_UP p = 1
  hasRate : u.rd F.PRT_LINK_RATE p = rate
  hasWidth : u.rd F.PRT_LINK_WIDTH p = width
  isFlit : u.rd F.PRT_LINK_FLIT p = b2n (rate == 5)
  isL0p : u.rd F.PRT_LINK_L0P_EN p = b2n (rate == 5 && l0p && s.on F.PRT_CTL_L0P_ALLOW p)
  biOn : ∀ k < (s.secs.portLds p).length, u.rd F.PRT_LD_STAT_BI_ON p k = b2n (rate == 5)
  due : u.dueView = s.dueView
  store : rate = 5 → SameStore s u

/-- R57: a link that may come up does. -/
theorem State.linkUp_shows {rate width : Nat} (l0p : Bool) (hpres : s.on F.PRT_CFG_PRESENT p = true)
    (hperst : s.perst.contains (s.secs.portStation p) = false) (hdown : s.rd F.PRT_LINK_UP p = 0)
    (hrate : rate ≤ s.rd F.PRT_CFG_SPEED_CAP p) (hpos : 0 < width) (hwidth : width ≤ s.rd F.PRT_CFG_UNIT_WIDTH p + 3)
    (htrain : s.trainsWithout p (widthLanes width) false = true ∨ s.trainsWithout p (widthLanes width) true = true)
    (hr8 : rate < 8) (hw8 : width < 8) :
    ∃ u, s.linkUp p rate width l0p = u.showTols ∧ LinkShows s u p rate width l0p := by
  unfold State.linkUp
  have hfits : (s.trainsWithout p (widthLanes width) false || s.trainsWithout p (widthLanes width) true) = true := by
    rcases htrain with h | h <;> simp [h]
  rw [if_neg (by simp only [hpres, hperst, State.on_eq_false hdown, hrate.not_gt, hpos.ne', hwidth.not_gt, hfits, Bool.not_true,
    Bool.or_self, decide_false, Bool.false_eq_true, not_false_eq_true])]
  extract_lets flit rev s1 s2 s3 s4 s5 s6
  refine ⟨s6, rfl, ?_⟩
  have hrd : ∀ {g : Field} {k : Nat}, (∀ f ∈ countFields ++ homeFields, g.id % 2 ^ 32 ≠ f.id % 2 ^ 32) →
      s6.rd g p k = s5.rd g p k := fun h => State.when_keeps (p := fun t => t.rd _ p _) _ _ <|
    State.forEach_keeps (p := fun t => t.rd _ p _) fun _ _ => (purgeBlind_rd h).unhold _ (fun _ _ => rfl) _
  have hbi : ∀ {g : Field}, g.id % 2 ^ 32 ≠ F.PRT_LD_STAT_BI_ON.id % 2 ^ 32 → s5.rd g p = s4.rd g p := fun h =>
    State.forEach_keeps (p := fun t => t.rd _ p) fun t _ => State.rd_wr_of_id t _ h
  constructor
  case isUp =>
    rw [hrd (by decide), hbi (by decide)]
    simp (disch := decide) only [s4, s3, s2, State.set_eq, State.rd_wr_of_id, State.rd_wr_same]
    rfl
  case hasRate =>
    rw [hrd (by decide), hbi (by decide)]
    simp (disch := decide) only [s4, s3, s2, State.set_eq, State.rd_wr_of_id, State.rd_wr_same]
    exact Nat.mod_eq_of_lt hr8
  case hasWidth =>
    rw [hrd (by decide), hbi (by decide)]
    simp (disch := decide) only [s4, s3, s2, State.set_eq, State.rd_wr_of_id, State.rd_wr_same]
    exact Nat.mod_eq_of_lt (hw8.trans (by decide))
  case isFlit =>
    rw [hrd (by decide), hbi (by decide)]
    simp (disch := decide) only [s4, s3, s2, State.set_eq, State.rd_wr_of_id, State.rd_wr_same]
    exact Nat.mod_eq_of_lt (b2n_lt _)
  case isL0p =>
    rw [hrd (by decide), hbi (by decide)]
    simp (disch := decide) only [s4, State.rd_wr_same]
    have hallow : s3.on F.PRT_CTL_L0P_ALLOW p = s.on F.PRT_CTL_L0P_ALLOW p := by
      simp (disch := decide) only [State.on, s3, s2, State.set_eq, State.rd_wr_of_id]
      rfl
    exact (Nat.mod_eq_of_lt (b2n_lt _)).trans (by rw [hallow])
  case biOn =>
    intro k hk
    rw [hrd (by decide)]
    exact (State.rd_forEach_wr _ _ _ (List.mem_range.2 hk)).trans (Nat.mod_eq_of_lt (b2n_lt _))
  case due =>
    have h5 : s5.dueView = s4.dueView := State.forEach_keeps (p := State.dueView) fun _ _ => rfl
    have h6 : s6.dueView = s5.dueView := State.when_keeps (p := State.dueView) _ _ <|
      State.forEach_keeps (p := State.dueView) fun t e => purgeBlind_dueView.unhold t State.dueView_bisnp e.ld
    exact h6.trans h5
  case store =>
    intro h
    have hflit : flit = true := beq_iff_eq.2 h
    have h6 : s6 = s5 := by
      simp only [s6, hflit]
      rfl
    rw [h6]
    exact SameStore.forEach (SameStore.refl s) fun _ _ h => h.wr

/-- R413: with no FLR that waits for the port, nothing but the link's coming up happens. -/
theorem State.linkUp_due {u : State} {l : List LdEntry} (hdue : l.all (fun e => !(s.ld e.ld).flrDue) = true)
    (hu : u.dueView = s.dueView) : l.filter (fun e => (u.showTols.ld e.ld).flrDue) = [] := by
  have hld : ∀ k, (u.showTols.ld k).flrDue = (s.ld k).flrDue := fun k =>
    (congrArg LdSt.flrDue (State.ld_of_hosts k (floorBlind_hosts.showTols u))).trans (congrArg (fun v => v.2.2 k) hu)
  simpa [hld, List.filter_eq_nil_iff] using hdue

theorem exec_portLinkUp {port : Fin 16} {rate width : BitVec 3} {l0p : Bool} {u : State} (hs : s.stage = .running)
    (hup : s.linkUp port rate.toNat width.toNat l0p = u.showTols) (hu : u.dueView = s.dueView)
    (hdue : (s.secs.portLds port).all (fun e => !(s.ld e.ld).flrDue) = true) :
    exec (.portLinkUp port rate width l0p) s = .next u.showTols := by
  change execPortLinkUp port rate width l0p s = _
  rw [execPortLinkUp, onDie_running hs]
  dsimp only
  have hsecs : u.showTols.secs = s.secs := (State.secs_of_str u.showTols_str).trans (State.secs_of_str (congrArg (·.2.1) hu))
  rw [hup, hsecs, State.linkUp_due hdue hu]
  simp only [State.forEach_nil, State.when, ite_self]

/-! ### A link goes down (R72, R78) -/

theorem State.unstall_keeps {β : Type} {q : State → β} (hstalled : ∀ (t : State) x, q { t with stalled := x } = q t)
    (hwr : ∀ (t : State) v i j, q (t.wr F.PRT_STALL_PEND v i j) = q t) (t : State) (r : Stalled) : q (t.unstall r) = q t := by
  unfold State.unstall State.showPend
  exact ite_keeps _ ((hwr ..).trans (hstalled ..)) (hstalled ..)

/-- R72: what a link that has gone down shows. -/
theorem State.linkDown_shows (hup : s.on F.PRT_LINK_UP p = true) : ∃ u, s.linkDown p = u.showTols ∧ u.rd F.PRT_LINK_UP p = 0 ∧
    u.rd F.PRT_IRQ_LINK_DOWN p = 1 ∧ u.rd F.PRT_LINK_RATE p = 0 ∧ u.rd F.PRT_LINK_WIDTH p = 0 ∧ u.rd F.PRT_LINK_FLIT p = 0 ∧
    u.rd F.PRT_LINK_IDE_ON p = 0 ∧ SameStore s u := by
  unfold State.linkDown
  rw [if_neg (by simp [hup])]
  extract_lets s1 s2 s3 s4 s5 s6 s7
  have hrd : ∀ {g : Field}, (∀ f ∈ [F.PRT_LD_STAT_BI_ON, F.PRT_STALL_PEND], g.id % 2 ^ 32 ≠ f.id % 2 ^ 32) →
      s7.rd g p = s4.rd g p := fun {g} h =>
    (State.forEach_keeps (p := fun t => t.rd g p) fun t _ => State.rd_wr_of_id t _ (h _ (by simp))).trans <|
      State.forEach_keeps (p := fun t => t.rd g p) fun t r => State.unstall_keeps (q := fun t => t.rd g p) (fun _ _ => rfl)
        (fun t v i j => State.rd_wr_of_id t v (h _ (by simp))) t r
  have hstore : SameStore s s7 := SameStore.forEach (SameStore.forEach (SameStore.refl s) fun t r h => by
    unfold State.unstall State.showPend
    split <;> exact h) fun _ _ h => h.wr
  refine ⟨_, rfl, (hrd (by decide)).trans ?_, (hrd (by decide)).trans ?_, (hrd (by decide)).trans ?_, (hrd (by decide)).trans ?_,
    (hrd (by decide)).trans ?_, (hrd (by decide)).trans ?_, hstore⟩
  all_goals
    simp (disch := decide) only [s4, s3, s2, s1, State.set_eq, State.clear_eq, State.rd_wr_of_id, State.rd_wr_same]
    rfl

/-! ### Lanes that fail (R72, R73) -/

/-- R72: a lane failure as it is counted. -/
def State.laneNoted (s : State) (p : Nat) : State := (s.bump F.PRT_ERR_LANE_FAIL 1 p).set F.PRT_IRQ_LANE_FAIL p

theorem State.rd_laneNoted_err : (s.laneNoted p).rd F.PRT_ERR_LANE_FAIL p =
    min (s.rd F.PRT_ERR_LANE_FAIL p + 1) (2 ^ F.PRT_ERR_LANE_FAIL.width - 1) := by
  rw [State.laneNoted, State.set_eq, State.rd_wr_of_id _ _ (by decide), State.rd_bump_same]

theorem State.rd_laneNoted_irq : (s.laneNoted p).rd F.PRT_IRQ_LANE_FAIL p = 1 := State.rd_wr_same ..

theorem State.on_laneNoted {g : Field} (h : ∀ f ∈ [F.PRT_ERR_LANE_FAIL, F.PRT_IRQ_LANE_FAIL], g.id % 2 ^ 32 ≠ f.id % 2 ^ 32) :
    (s.laneNoted p).on g p = s.on g p := by
  simp only [State.on, State.laneNoted, State.set_eq, State.bump_eq, State.rd_wr_of_id _ _ (h F.PRT_ERR_LANE_FAIL (by simp)),
    State.rd_wr_of_id _ _ (h F.PRT_IRQ_LANE_FAIL (by simp))]

theorem State.unitLane_laneNoted (lane : Nat) : (s.laneNoted p).unitLane p lane = s.unitLane p lane := by
  simp (disch := decide) only [State.unitLane, State.physLanes, State.laneNoted, State.set_eq, State.bump_eq, State.rd_wr_of_id]
  rfl

section
variable {lane : Nat} (hup : s.on F.PRT_LINK_UP p = true) (hlane : lane < widthLanes (s.rd F.PRT_LINK_WIDTH p))
include hup hlane

/-- R72: what a lane of a link that is up does when it fails. -/
theorem State.laneFailed_up : s.laneFailed p lane =
    if s.on F.PRT_CTL_LANEFAIL_EN p = false then s.laneNoted p
    else if s.lanes.any (fun x => x.1 == p) then { s.laneNoted p with lanes := s.lanes ++ [(p, lane)] }
    else if s.on F.PRT_LINK_FLIT p = false ∨ s.on F.PRT_LINK_L0P_EN p = false ∨ s.on F.PRT_LINK_DEGRADED p = true then
      (s.laneNoted p).laneDown p lane
    else { s.laneNoted p with lanes := s.lanes ++ [(p, lane)] } := by
  unfold State.laneFailed
  dsimp only
  rw [if_neg (by simp [hup, hlane])]
  change (if (!(s.laneNoted p).on F.PRT_CTL_LANEFAIL_EN p) = true then s.laneNoted p else if s.lanes.any (fun x => x.1 == p) then _
    else if (!(s.laneNoted p).on F.PRT_LINK_FLIT p || !(s.laneNoted p).on F.PRT_LINK_L0P_EN p ||
      (s.laneNoted p).on F.PRT_LINK_DEGRADED p) = true then _ else _) = _
  simp only [State.on_laneNoted (g := F.PRT_CTL_LANEFAIL_EN) (by decide), State.on_laneNoted (g := F.PRT_LINK_FLIT) (by decide),
    State.on_laneNoted (g := F.PRT_LINK_L0P_EN) (by decide), State.on_laneNoted (g := F.PRT_LINK_DEGRADED) (by decide),
    Bool.not_eq_true', Bool.or_eq_true, or_assoc]
  rfl

end

/-- R72: a lane failure under way ends at half width, with a record. -/
theorem State.exec_laneRecoveryDone {port : Fin 16} {x : Nat × Nat} (hs : s.stage = .running)
    (hx : s.lanes.find? (fun x => x.1 == port.val) = some x) : Does (.laneRecoveryDone port) s (fun t =>
      t.lanes = { s with lanes := s.lanes.erase x }.lanesKept port (widthLanes (s.rd F.PRT_LINK_WIDTH port)) x.2 ∧
      (port.val, s.unitLane port x.2) ∈ t.badLanes ∧
      t.rd F.PRT_ERR_REPLAY port = min (s.rd F.PRT_ERR_REPLAY port + 1) (2 ^ F.PRT_ERR_REPLAY.width - 1) ∧
      t.rd F.PRT_LINK_WIDTH port = max 1 (s.rd F.PRT_LINK_WIDTH port - 1) % 2 ^ F.PRT_LINK_WIDTH.width ∧
      t.rd F.PRT_LINK_DEGRADED port = 1 ∧ t.rd F.PRT_LINK_FAILED_LANE port = x.2 % 2 ^ F.PRT_LINK_FAILED_LANE.width ∧
      t.ras.getLast?.map (fun r => (r.cls, r.sev, r.blk, r.inst)) = some (0x20, 2, rasPRT, port.val)) := by
  refine ⟨_, (onDie_running hs : execLaneRecoveryDone port s = _), ?_⟩
  simp -zeta only [hx]
  extract_lets w s1 s2 s3 s4 s5
  have hturn : ∀ {β : Type} {q : State → β}, (∀ (t : State) l, q { t with laneRev := l } = q t) → q s3 = q s2 := fun h =>
    State.when_keeps s2 _ (h _ _)
  have hkeep : ∀ {β : Type} {q : State → β}, (∀ t l, q { t with ras := l } = q t) → (∀ t n, q { t with nvs := n } = q t) →
      (∀ t f v i j, q (State.wr t f v i j) = q t) → (∀ (t : State) l, q { t with laneRev := l } = q t) →
      q (s5.record 0x20 2 rasPRT port port x.2) = q s2 := fun hras hnvs hwr hrev =>
    (State.record_keeps _ _ _ _ _ _ _ _ hras hnvs fun _ _ _ _ _ _ => hwr ..).trans <|
      (hwr ..).trans <| (hwr ..).trans <| (hwr ..).trans <| (hwr ..).trans (hturn hrev)
  refine ⟨?_, ?_, ?_, ?_, ?_, ?_, State.record_last ..⟩
  · exact hkeep (q := State.lanes) (fun _ _ => rfl) (fun _ _ => rfl) (fun _ _ _ _ _ => rfl) fun _ _ => rfl
  · rw [hkeep (q := State.badLanes) (fun _ _ => rfl) (fun _ _ => rfl) (fun _ _ _ _ _ => rfl) fun _ _ => rfl]
    exact List.mem_eraseDups.2 (List.mem_append_right _ (List.mem_singleton.2 rfl))
  all_goals rw [State.rd_record_ne _ _ _ _ _ _ _ _ (by decide)]
  · have hbase : State.rd (s4.wr F.PRT_LINK_FAILED_LANE x.2 port) F.PRT_ERR_REPLAY port = s.rd F.PRT_ERR_REPLAY port := by
      simp (disch := decide) only [s4, State.set_eq, State.rd_wr_of_id]
      exact hturn (q := fun t => t.rd F.PRT_ERR_REPLAY port) fun _ _ => rfl
    rw [State.rd_bump_same, hbase]
  · simp (disch := decide) only [s5, s4, State.bump_eq, State.set_eq, State.rd_wr_of_id, State.rd_wr_same]
    rw [hturn (q := fun t => t.rd F.PRT_LINK_WIDTH port) fun _ _ => rfl]
    rfl
  · simp (disch := decide) only [s5, s4, State.bump_eq, State.set_eq, State.rd_wr_of_id, State.rd_wr_same]
    rfl
  · simp (disch := decide) only [s5, State.bump_eq, State.rd_wr_of_id, State.rd_wr_same]

/-! ### Latency tolerance (R74, R75) -/

theorem ltrNs_lt (h : BitVec 16) : ltrNs h < 2 ^ 32 := by
  have htol : tolNONE < 2 ^ 32 := by decide
  unfold ltrNs
  split
  · exact (Nat.min_le_left ..).trans_lt htol
  · exact htol

/-- R74: what an LTR message shows. -/
theorem State.ltr_shows (k : Option (BitVec 4)) {a b : Nat} (ha : a < 2 ^ 32) (hb : b < 2 ^ 32) : ∃ u, s.ltr p k a b = u.showTols ∧
    u.rd F.PWR_STATUS_TOL_SEEN = 1 ∧ u.rd F.PRT_LTR_SNOOP_NS p = a ∧ u.rd F.PRT_LTR_NOSNOOP_NS p = b ∧ SameStore s u := by
  unfold State.ltr
  extract_lets s1 lds named s2
  have hrd : ∀ g, s2.rd g p = s1.rd g p := fun g => State.forEach_keeps (p := fun t => t.rd g p) fun _ _ => rfl
  refine ⟨_, rfl, State.rd_wr_same .., ?_, ?_, SameStore.forEach (SameStore.refl s) fun _ _ h => h⟩
  · rw [State.set_eq, State.rd_wr_of_id _ _ (by decide), hrd]
    simp (disch := decide) only [s1, State.rd_wr_of_id, State.rd_wr_same]
    exact Nat.mod_eq_of_lt ha
  · rw [State.set_eq, State.rd_wr_of_id _ _ (by decide), hrd]
    exact (State.rd_wr_same ..).trans (Nat.mod_eq_of_lt hb)

/-- Table 3-11: the overrides lie in registers of their own. -/
theorem at_ldOvr : ∀ p k : Fin 16, F.PRT_STALL_STALL_NS.at (F.PRT_LD_OVR_OVR_EN.addr p k) = none ∧
    (F.PRT_LD_OVR_OVR_EN.at (F.PRT_LD_OVR_OVR_EN.addr p k)).isSome = true := by
  decide

theorem State.writePrt_ldOvr (who : Initiator) (p k : Fin 16) (v : Nat) : s.writePrt who (F.PRT_LD_OVR_OVR_EN.addr p k) v =
    ((s.writeWord who (F.PRT_LD_OVR_OVR_EN.addr p k) v).when (v.testBit 32) (fun s => s.set F.PWR_STATUS_TOL_SEEN)).showTols := by
  obtain ⟨hstall, hovr⟩ := at_ldOvr p k
  obtain ⟨x, hx⟩ := Option.isSome_iff_exists.1 hovr
  simp only [State.writePrt, hstall, hx]

end

/-- Settles O16: a link that comes up and one that goes down by what they show, a lane failure by its branches, IDE by the keys
and the insecure streams, latency tolerance by the fields before the tolerances are shown anew. -/
theorem portLinks : Obligations.PortLinks := by
  unfold Obligations.PortLinks
  refine ⟨?linkUp, ?linkDown, ?laneFail, fun p x s hs hx => State.exec_laneRecoveryDone hs hx, ?ideKm, ?ideFail, ?ltr, ?ldOvr⟩
  case linkUp =>
    intro p rate width l0p s hs hpres hperst hdown hrate hpos hwidth htrain hdue
    obtain ⟨u, hu, hshow⟩ := State.linkUp_shows l0p hpres hperst hdown hrate hpos hwidth htrain rate.isLt width.isLt
    exact ⟨_, exec_portLinkUp hs hu hshow.due hdue, u, rfl, hshow.isUp, hshow.hasRate, hshow.hasWidth, hshow.isFlit, hshow.isL0p,
      congrArg (·.1) hshow.due, hshow.biOn, hshow.store⟩
  case linkDown =>
    intro p s hs hup
    exact ⟨_, (onDie_running hs : execPortLinkDown p s = _), State.linkDown_shows hup⟩
  case laneFail =>
    intro p lane s hs hup hlane
    have hexec : exec (.laneFail p lane) s = .next (s.laneFailed p lane.toNat) := (onDie_running hs : execLaneFail p lane s = _)
    have hnone : s.lanes.find? (fun x => x.1 == p.val) = none → s.lanes.any (fun x => x.1 == p.val) = false := by
      simp [List.find?_eq_none]
    have hstore : SameStore s (s.laneNoted p) := (SameStore.refl s).wr.wr
    rw [State.laneFailed_up hup hlane] at hexec
    refine ⟨fun hen => ⟨_, hexec, ?_⟩, fun hen hflit hl0p hdeg hl => ⟨_, hexec, ?_⟩, fun hen hl0p hl => ⟨_, hexec, ?_⟩⟩
    · rw [if_pos (State.on_eq_false hen)]
      exact ⟨State.rd_laneNoted_err, State.rd_laneNoted_irq, rfl, hstore⟩
    · rw [if_neg (by simp [hen]), if_neg (by simp [hnone hl]), if_neg (by simp [hflit, hl0p, State.on_eq_false hdeg])]
      exact ⟨rfl, State.rd_laneNoted_irq, State.rd_laneNoted_err, hstore⟩
    · rw [if_neg (by simp [hen]), if_neg (by simp [hnone hl]), if_pos (.inr (.inl (State.on_eq_false hl0p)))]
      refine ⟨_, rfl, State.rd_laneNoted_irq, List.mem_eraseDups.2 (List.mem_append_right _ ?_), State.rd_laneNoted_err⟩
      rw [State.unitLane_laneNoted]
      exact List.mem_singleton.2 rfl
  case ideKm =>
    intro p who id ks s hs hdone hdoe hup
    refine ⟨_, (onDie_running hs : execIdeKm p who ⟨id, ks⟩ s = _), ?_⟩
    dsimp only
    rw [if_pos (by simp [hdone, hdoe, hup])]
    cases hmem : ks.mem with
    | true =>
      refine ⟨List.mem_append_right _ (List.mem_singleton.2 rfl), SameStore.refl s, rfl, fun _ => ⟨State.rd_wr_same .., ?_⟩, nofun⟩
      simp [State.set_eq]
    | false =>
      exact ⟨List.mem_append_right _ (List.mem_singleton.2 rfl), SameStore.refl s, rfl, nofun, fun _ => ⟨rfl, rfl⟩⟩
  case ideFail =>
    intro p s hs hon
    refine ⟨_, (onDie_running hs : execIdeIntegrityFail p s = _), ?_⟩
    rw [if_pos hon]
    refine ⟨?_, ?_, State.record_last .., State.record_out ..⟩
    · rw [State.rd_record_ne _ _ _ _ _ _ _ _ (by decide), State.clear_eq, State.rd_wr_same]
      rfl
    · rw [State.record_keeps (p := State.insecure) _ _ _ _ _ _ _ _ (fun _ _ => rfl) (fun _ _ => rfl) fun _ _ _ _ _ _ => rfl]
      simp [State.clear_eq]
  case ltr =>
    intro p k a b s hs hup
    refine ⟨_, (onDie_running hs : execLtrReceived p k a b s = _), ?_⟩
    rw [if_pos hup]
    exact State.ltr_shows k (ltrNs_lt a) (ltrNs_lt b)
  case ldOvr =>
    intro who p k v s hperm
    have hexec : exec (.prtLdOvrWrite who p k v) s = .next (barWrite s who (F.PRT_LD_OVR_OVR_EN.addr p k)
        (fun s => s.writePrt who (F.PRT_LD_OVR_OVR_EN.addr p k) v.toNat)) := by
      change execPrtLdOvrWrite who p k v s = _
      rw [execPrtLdOvrWrite, onDie_running hperm.1]
    rw [barWrite_permitted hperm, State.writePrt_ldOvr] at hexec
    refine ⟨_, hexec, ?_⟩
    refine ⟨fun h => ?_, fun h => ?_⟩
    · rw [h]
      rfl
    · rw [h]
      rfl

end Sys2Proof.Machine

/-!
# Pages that become zero (R62, R71, R96, R105, R107)

A page that becomes zero frees its frame or its run and is entered anew in the page map: the map and its counts change, and
accesses to map lines are put before their channels.
-/

namespace Sys2Proof.Machine

/-- What hangs on no register, no map and nothing that an access put before its channel changes. -/
structure MapBlind {β : Type} (p : State → β) : Prop where
  reg : ∀ (t : State) (f : Field) (v i j : Nat), p (t.wr f v i j) = p t
  smp : ∀ (t : State) x, p { t with smp := x } = p t
  txn : ∀ (t : State) x, p { t with txn := x } = p t
  free : ∀ (t : State) n, p { t with free := n } = p t
  dram : ∀ (t : State) x, p { t with dram := x } = p t
  pwr : ∀ (t : State) x, p { t with pwr := x } = p t
  map : ∀ (t : State) x, p { t with map := x } = p t

namespace MapBlind

variable {β : Type} {p : State → β} (hp : MapBlind p) (s : State)
include hp

theorem toPostBlind : PostBlind p where
  wr f _ t v i j := hp.reg t f v i j
  smp := hp.smp
  txn := hp.txn
  free := hp.free
  post f _ t v i j := hp.reg t f v i j
  dram := hp.dram
  pwr := hp.pwr

theorem postMa (ma : Nat) (w : Bool) (m : Nat) : p (s.postMa ma w m) = p s := hp.toPostBlind.postMa ..

/-! ### Chunks -/

theorem poolCheck (k : Nat) : p (s.poolCheck k) = p s := ite_keeps _ (hp.reg ..) rfl

theorem setChunk (c : Nat) (x : Chunk) : p (s.setChunk c x) = p s := by
  unfold State.setChunk
  extract_lets o src s1 s2 s3
  have h1 : p s1 = p s := hp.map s _
  have h2 : p s2 = p s1 := State.when_keeps _ _ ((hp.reg ..).trans (hp.reg ..))
  have h3 : p s3 = p s2 := State.when_keeps _ _ ((hp.poolCheck ..).trans <| (hp.reg ..).trans (hp.reg ..))
  split
  · exact h3.trans (h2.trans h1)
  next g _ =>
    have h4 : p (s3.when (o.state == ckFREE) (fun s => s.sub F.MAP_RG_CNT_CHUNKS_FREE 1 0 g.idx)) = p s3 :=
      State.when_keeps _ _ (hp.reg ..)
    exact (State.when_keeps _ _ (hp.reg ..)).trans (h4.trans (h3.trans (h2.trans h1)))

theorem poolTrim (n k : Nat) : p (State.poolTrim n s k) = p s := by
  induction n generalizing s with
  | zero => rfl
  | succ n ih =>
    unfold State.poolTrim
    dsimp only
    refine ite_keeps _ ?_ rfl
    split
    · rfl
    · exact (ih _).trans (hp.setChunk ..)

theorem freeFrame (f : Nat) : p (s.freeFrame f) = p s := ite_keeps _ ((hp.poolTrim ..).trans (hp.setChunk ..)) rfl

theorem releaseRun (g n : Nat) : p (s.releaseRun g n) = p s :=
  ite_keeps _ (hp.setChunk ..) (ite_keeps _ (hp.setChunk ..) rfl)

/-! ### Map lines -/

theorem mapWriteBack (t : MapTag) (m : Nat) : p (s.mapWriteBack t m) = p s := by
  unfold State.mapWriteBack
  dsimp only
  split
  · exact hp.map s _
  · exact (hp.postMa ..).trans (hp.map s _)

theorem mapFill (t : MapTag) (m : Nat) : p (s.mapFill t m) = p s := by
  unfold State.mapFill
  dsimp only
  refine ite_keeps _ rfl ((hp.map _ _).trans (ite_keeps _ rfl ?_))
  split
  · exact hp.free s _
  · exact (hp.map _ _).trans (ite_keeps _ ((hp.mapWriteBack ..).trans (hp.free s _)) (hp.free s _))

theorem mapTouch (t : MapTag) (m : Nat) : p (s.mapTouch t m) = p s := by
  unfold State.mapTouch
  extract_lets s1
  have h1 : p s1 = p s := by
    refine ite_keeps _ rfl ?_
    split
    · exact hp.mapFill ..
    · exact (hp.mapFill ..).trans (hp.postMa ..)
  exact (ite_keeps (s := s1) _ (hp.map s1 _) rfl).trans h1

/-! ### Entries -/

theorem setPme (q : Nat) (x : Pme) (m : Nat) : p (s.setPme q x m) = p s := by
  have huse : ∀ (t : State) a b, p (t.moveUse a b) = p t := fun _ _ _ => ite_keeps _ rfl ((hp.reg ..).trans (hp.reg ..))
  unfold State.setPme State.putPme
  exact (huse ..).trans <| (hp.reg ..).trans <| (hp.reg ..).trans <| (hp.map _ _).trans (hp.mapTouch ..)

theorem setTwin (e : Nat) (x : Twin) (m : Nat) : p (s.setTwin e x m) = p s := by
  unfold State.setTwin State.putTwin
  exact (State.when_keeps _ _ (hp.reg ..)).trans <| (State.when_keeps _ _ (hp.reg ..)).trans <| (hp.map _ _).trans (hp.mapTouch ..)

theorem releaseStore (q : Nat) : p (s.releaseStore q) = p s :=
  ite_keeps _ rfl <| ite_keeps _ (hp.freeFrame ..) <| ite_keeps _
    (ite_keeps _ ((hp.setTwin ..).trans (hp.releaseRun ..)) (hp.setTwin ..)) (hp.releaseRun ..)

theorem zeroPage (q : Nat) : p (s.zeroPage q) = p s := by
  unfold State.zeroPage
  exact (hp.reg ..).trans <| (hp.map _ _).trans <| (hp.setPme ..).trans <| (hp.map _ _).trans (hp.releaseStore ..)

/-- R62: a unit of 256 MiB becomes zero. -/
theorem zeroUnit (u : Nat) : p (s.zeroUnit u) = p s := by
  unfold State.zeroUnit
  extract_lets here listed gone s1
  have h1 : p s1 = p s := State.forEach_keeps fun _ _ => hp.zeroPage ..
  refine ite_keeps _ h1 ?_
  exact (hp.map _ _).trans <| (hp.map _ _).trans <| (hp.reg ..).trans <| (hp.reg ..).trans h1

end MapBlind

end Sys2Proof.Machine

/-!
# Logical devices (R59, R61, R62, R69, R71, R75, R76)
-/

namespace Sys2Proof.Machine

/-! ### Fields of bits -/

theorem testBit_setBit_false (n k : Nat) : (setBit n k false).testBit k = false := by
  unfold setBit
  cases h : n.testBit k with
  | false => simpa using h
  | true =>
    simp only [Nat.testBit_eq_decide_div_mod_eq, decide_eq_true_eq] at h
    have hdiv : (n - 2 ^ k) / 2 ^ k = n / 2 ^ k - 1 := by simpa using Nat.sub_mul_div n (2 ^ k) 1
    simp only [Bool.true_beq, Bool.false_eq_true, if_false, Nat.testBit_eq_decide_div_mod_eq, hdiv, decide_eq_false_iff_not]
    omega

theorem State.rdBit_wrBit_false (s : State) (f : Field) (k i j : Nat) : (s.wrBit f k false i j).rdBit f k i j = false := by
  rw [State.rdBit, State.wrBit_eq, State.rd_wr_same, Nat.testBit_mod_two_pow, testBit_setBit_false, Bool.and_false]

/-! ### Dynamic Capacity (R61, R62) -/

section
variable {s : State} {ld : Fin 64} {start len : BitVec 64} {who : Initiator} {e : LdEntry} {x : Nat × Nat}
  (he : s.secs.ldEntry ld = some e) (hx : extentUnits start.toNat len.toNat = some x)
include he hx

/-- R61: an extent that is added. -/
theorem State.dcAdd_added (hin : e.inRegion x.1 x.2 = true) (hmeet : (s.ld ld).extents.any (meets x) = false)
    (hrel : (s.ld ld).release = none) (hroom : (s.ld ld).extents.length < 512) : s.dcAdd who ld start.toNat len.toNat =
      ((s.onLd ld (fun d => { d with extents := d.extents ++ [x] })).event ld logDC .dynamicCapacity start.toNat 0 0).emit
        (.mbx who .success []) := by
  simp only [State.dcAdd, he, hx, hin, hmeet, hrel, hroom.not_ge, Option.any_none, Bool.not_true, Bool.or_self,
    Bool.false_eq_true, if_false]

/-- R61: an extent that lies in no one region, or meets another, is refused. -/
theorem State.dcAdd_refused (h : e.inRegion x.1 x.2 = false ∨ (s.ld ld).extents.any (meets x) = true) :
    s.dcAdd who ld start.toNat len.toNat = s.emit (.mbx who .invalidExtentList []) := by
  have hno : (!e.inRegion x.1 x.2 || (s.ld ld).extents.any (meets x)) = true := by
    rcases h with h | h <;> simp [h]
  simp only [State.dcAdd, he, hx, hno, Bool.true_or, if_true]

/-- R61: a release of what the extents cover is accepted. -/
theorem State.dcRelease_accepted
    (hsum : (((s.ld ld).extents.filter (meets x)).map (fun y => min (x.1 + x.2) (y.1 + y.2) - max x.1 y.1)).sum = x.2)
    (hrel : (s.ld ld).release = none) (hleft : ((s.ld ld).extents.flatMap (trimExtent x)).length ≤ 512) :
    s.dcRelease who ld start.toNat len.toNat = s.onLd ld (fun d =>
      { d with extents := (s.ld ld).extents.flatMap (trimExtent x), release := some ⟨x.1, x.2, some who⟩ }) := by
  simp only [State.dcRelease, he, hx, hsum, hrel, hleft.not_gt, bne_self_eq_false, Option.isSome_none, Bool.false_eq_true, if_false]

/-- R61: a release of what the extents do not cover is refused. -/
theorem State.dcRelease_refused
    (hsum : (((s.ld ld).extents.filter (meets x)).map (fun y => min (x.1 + x.2) (y.1 + y.2) - max x.1 y.1)).sum ≠ x.2) :
    s.dcRelease who ld start.toNat len.toNat = s.emit (.mbx who .invalidExtentList []) := by
  simp only [State.dcRelease, he, hx, bne_iff_ne.2 hsum, if_true]

end

/-- What the end of a release must leave, but for the LD. -/
def State.releaseView (s : State) : List Host.Cell × CohSt × List Out := (s.mem, s.coh, s.out)

theorem mapBlind_releaseView : MapBlind State.releaseView where
  reg _ _ _ _ _ := rfl
  smp _ _ := rfl
  txn _ _ := rfl
  free _ _ := rfl
  dram _ _ := rfl
  pwr _ _ := rfl
  map _ _ := rfl

/-- The state in which a release is over, and its command not yet answered. -/
def State.released (s : State) (l : Nat) (e : LdEntry) (r : DcRelease) : State :=
  ((s.forEach ((List.range r.len).map (fun i => e.base + r.start + i)) State.zeroUnit).onLd l
    (fun d => { d with release := none })).event l logDC .dynamicCapacity (r.start * 2 ^ 28) 1 0

section
variable {s : State} {l : Nat} {e : LdEntry} {r : DcRelease} (he : s.secs.ldEntry l = some e) (hr : (s.ld l).release = some r)
include he hr

/-- R62: a release ends once nothing works on its range. -/
theorem State.dcDone_over (hfree : (List.range r.len).any (fun i => s.unitBusy (e.base + r.start + i)) = false) :
    s.dcDone l = match r.who with
      | some w => (s.released l e r).emit (.mbx w .success [])
      | none => s.released l e r := by
  simp only [State.dcDone, he, hr, List.any_map, Function.comp_def, hfree, Bool.false_eq_true, if_false]
  rfl

theorem State.dcDone_waits (hbusy : (List.range r.len).any (fun i => s.unitBusy (e.base + r.start + i)) = true) : s.dcDone l = s := by
  simp only [State.dcDone, he, hr, List.any_map, Function.comp_def, hbusy, if_true]

end

theorem State.released_release (s : State) (l : Nat) (e : LdEntry) (r : DcRelease) : ((s.released l e r).ld l).release = none := by
  unfold State.released
  rw [State.ld_event _ (g := LdSt.release) (fun _ _ _ => rfl), State.ld_onLd_same]

theorem State.released_view (s : State) (l : Nat) (e : LdEntry) (r : DcRelease) : (s.released l e r).releaseView = s.releaseView :=
  State.forEach_keeps (p := State.releaseView) fun _ _ => mapBlind_releaseView.zeroUnit ..

/-! ### Resets (R71) -/

theorem State.endStall_keeps {β : Type} {q : State → β} (hstalled : ∀ (t : State) x, q { t with stalled := x } = q t)
    (hwr : ∀ (t : State) v i j, q (t.wr F.PRT_STALL_PEND v i j) = q t) (hout : ∀ (t : State) o, q { t with out := o } = q t)
    (t : State) (r : Stalled) : q (t.endStall r) = q t := by
  refine Eq.trans ?_ (State.unstall_keeps hstalled hwr t r)
  unfold State.endStall State.answerPop
  split
  · exact hout ..
  · exact hout ..

/-- R71: what an FLR leaves of the LD before the tolerances are shown anew. -/
theorem State.flrLd_shows (s : State) (l : Fin 64) : ∃ u, s.flrLd l = u.showTols ∧ (u.ld l).memEnable = false ∧
    (u.ld l).viral = false ∧ (u.ld l).hdm = (s.ld l).hdm ∧ u.rdBit F.SEC_BIND_LDS l = false ∧ SameStore s u := by
  unfold State.flrLd
  extract_lets s1 s2
  have hhosts : (s2.wrBit F.SEC_BIND_LDS l false).hosts = s1.hosts :=
    State.forEach_keeps (p := State.hosts) fun t r => State.endStall_keeps (q := State.hosts) (fun _ _ => rfl)
      (fun _ _ _ _ => rfl) (fun _ _ => rfl) t r
  have hld : (s2.wrBit F.SEC_BIND_LDS l false).ld l =
      { s.ld l with memEnable := false, viral := false, scanned := none, flrDue := false } :=
    (State.ld_of_hosts _ hhosts).trans (State.ld_onLd_same s l
      (fun d => { d with memEnable := false, viral := false, scanned := none, flrDue := false }))
  have hstore : ∀ {β : Type} {q : State → β}, (∀ (t : State) x, q { t with stalled := x } = q t) →
      (∀ (t : State) v i j, q (t.wr F.PRT_STALL_PEND v i j) = q t) → (∀ (t : State) o, q { t with out := o } = q t) →
      q s2 = q s1 := fun h1 h2 h3 => State.forEach_keeps fun t r => State.endStall_keeps h1 h2 h3 t r
  refine ⟨_, rfl, ?_, ?_, ?_, State.rdBit_wrBit_false .., ?_⟩
  · rw [hld]
  · rw [hld]
  · rw [hld]
  · exact ⟨hstore (q := State.mem) (fun _ _ => rfl) (fun _ _ _ _ => rfl) fun _ _ => rfl,
      hstore (q := State.map) (fun _ _ => rfl) (fun _ _ _ _ => rfl) fun _ _ => rfl,
      hstore (q := State.coh) (fun _ _ => rfl) (fun _ _ _ _ => rfl) fun _ _ => rfl,
      hstore (q := State.keys) (fun _ _ => rfl) (fun _ _ _ _ => rfl) fun _ _ => rfl,
      hstore (q := State.nvs) (fun _ _ => rfl) (fun _ _ _ _ => rfl) fun _ _ => rfl,
      hstore (q := State.flash) (fun _ _ => rfl) (fun _ _ _ _ => rfl) fun _ _ => rfl⟩

/-! ### CXL Reset (R71) -/

section
variable {s : State} {l : Nat} {e : LdEntry} {clear : Bool} (he : s.secs.ldEntry l = some e)
  (hr : (s.ld l).resetting = some clear)
include he hr

/-- The state in which Mem Clear has been done, if it is asked. -/
def State.memCleared (s : State) (l : Nat) (e : LdEntry) (clear : Bool) : State :=
  s.when clear (fun s' => s'.forEach ((List.range e.static ++ (s.ld l).extents.flatMap (fun x => (List.range x.2).map (· + x.1))).map
    (· + e.base)) State.zeroUnit)

/-- R71: a CXL Reset completes once no home holds a line for the LD. -/
theorem State.resetGoes_done (hopen : s.ldOpen l = false) (hhold : s.ldHolds l = false) : s.resetGoes l =
    ((s.memCleared l e clear).onLd l (fun d => { d with resetting := none })).emit (.cxlResetDone l) := by
  simp only [State.resetGoes, he, hr, hopen, hhold, Bool.false_eq_true, if_false]
  rfl

theorem State.resetGoes_waits (hopen : s.ldOpen l = true) : s.resetGoes l = s := by
  simp only [State.resetGoes, he, hr, hopen, if_true]

end

theorem State.memCleared_view (s : State) (l : Nat) (e : LdEntry) (clear : Bool) :
    (s.memCleared l e clear).releaseView = s.releaseView :=
  State.when_keeps _ _ <| State.forEach_keeps (p := State.releaseView) fun _ _ => mapBlind_releaseView.zeroUnit ..

/-! ### Configuration, logs and stalled reads (R59, R69, R76) -/

/-- R71, R413: an FLR, on a link that is up or at once due. -/
theorem exec_flr {s : State} {ld : Fin 64} {e : LdEntry} (hs : s.stage = .running) (he : s.secs.ldEntry ld = some e) :
    exec (.flr ld) s =
      .next (if s.on F.PRT_LINK_UP e.port then s.flrAll ld else s.onLd ld (fun d => { d with flrDue := true })) := by
  change execFlr ld s = _
  unfold execFlr
  rw [if_neg (by simp [hs]), onDie_running hs]
  simp only [he]

/-- A configuration write of an LD that the structure has. -/
theorem exec_cfgWrite {s : State} {ld : Fin 64} {e : LdEntry} (hs : s.stage = .running) (he : s.secs.ldEntry ld = some e)
    (w : CfgWrite) : exec (.configurationSpaceWrite ld w) s = .next (s.cfgWrite ld e w) := by
  change execConfigurationSpaceWrite ld w s = _
  rw [execConfigurationSpaceWrite, onDie_running hs]
  simp only [he]

theorem hdm_decoder (d : LdSt) (k : Nat) (h : Hdm) (skip : Nat) :
    (smGet {} (d.decoder k h skip).hdm k).base = h.base ∧ (smGet {} (d.decoder k h skip).hdm k).size = h.size := by
  unfold LdSt.decoder
  dsimp only
  rw [smGet_smSet_same]
  exact ⟨rfl, rfl⟩

/-- R69: the records that a clearing of an event log leaves. -/
def keptRecord (handles : Option (List (BitVec 16))) (r : EventRec) : Bool :=
  match handles with
  | none => false
  | some hs => !hs.any (fun h => h.toNat == r.handle)

theorem keptRecord_iff (handles : Option (List (BitVec 16))) (r : EventRec) : keptRecord handles r = true ↔
    ∃ l, handles = some l ∧ ∀ h ∈ l, h.toNat ≠ r.handle := by
  cases handles with
  | none => simp [keptRecord]
  | some hs => simp [keptRecord]

/-- R69: what a clearing leaves of an event log. -/
def clearedLog (lg : EventLog) (handles : Option (List (BitVec 16))) : EventLog := { recs := lg.recs.filter (keptRecord handles) }

theorem exec_clearEventRecords {s : State} (ld : Fin 64) (log : Fin 5) (handles : Option (List (BitVec 16)))
    (hs : s.stage = .running) : exec (.clearEventRecords ld log handles) s = .next ((s.onLd ld (fun d =>
      { d with logs := smSet {} d.logs log (clearedLog (smGet {} d.logs log) handles) })).emit (.mbx (.ld ld) .success [])) :=
  (onDie_running hs : execClearEventRecords ld log handles s = _)

/-- R76: the read that stalls ends with the EMPTY token. -/
theorem State.endStall_answer (s : State) (r : Stalled) : ∃ o, (s.endStall r).out = s.out ++ [o] ∧
    ∀ who, r.who = .host who → o = .hostPop who r.queue r.tag (hostItem (.token tokEMPTY)) := by
  have hout : (s.unstall r).out = s.out := State.unstall_keeps (q := State.out) (fun _ _ => rfl) (fun _ _ _ _ => rfl) s r
  unfold State.endStall State.answerPop
  cases r.who with
  | host w => exact ⟨_, congrArg (· ++ _) hout, fun who h => by cases h; rfl⟩
  | chip ep => exact ⟨_, congrArg (· ++ _) hout, nofun⟩

theorem State.endStall_stalled (s : State) (r : Stalled) : (s.endStall r).stalled = s.stalled.erase r ∧
    (s.endStall r).queues = s.queues ∧ (s.endStall r).qram = s.qram := by
  have hstall : (s.unstall r).stalled = s.stalled.erase r := by
    unfold State.unstall State.showPend
    split <;> rfl
  have hkeep : ∀ {β : Type} {q : State → β}, (∀ (t : State) x, q { t with stalled := x } = q t) →
      (∀ (t : State) v i j, q (t.wr F.PRT_STALL_PEND v i j) = q t) → (∀ (t : State) o, q { t with out := o } = q t) →
      q (s.endStall r) = q s := fun h1 h2 h3 => State.endStall_keeps h1 h2 h3 s r
  refine ⟨?_, hkeep (q := State.queues) (fun _ _ => rfl) (fun _ _ _ _ => rfl) fun _ _ => rfl,
    hkeep (q := State.qram) (fun _ _ => rfl) (fun _ _ _ _ => rfl) fun _ _ => rfl⟩
  unfold State.endStall State.answerPop
  split <;> exact hstall

/-- Settles O19: Dynamic Capacity by its branches and what pages that become zero leave, resets by what the LD shows before the
tolerances are shown anew, configuration writes and event logs by their one change, a stalled read by its end. -/
theorem logicalDevices : Obligations.LogicalDevices := by
  unfold Obligations.LogicalDevices
  refine ⟨?capacity, ?releaseDone, ?resets, ?records, ?stall⟩
  case capacity =>
    intro who ld start len e x s hs he hx
    have hadd : exec (.dcAddExtent who ld start len) s = .next (s.dcAdd who ld start.toNat len.toNat) :=
      (onDie_running hs : execDcAddExtent who ld start len s = _)
    have hrelease : exec (.dcReleaseExtent who ld start len) s = .next (s.dcRelease who ld start.toNat len.toNat) :=
      (onDie_running hs : execDcReleaseExtent who ld start len s = _)
    refine ⟨fun hin hmeet hrel hroom => ⟨_, hadd, ?_⟩, fun h => ⟨_, hadd, ?_⟩, fun hsum hrel hleft => ⟨_, hrelease, ?_⟩,
      fun hsum => ⟨_, hrelease, ?_⟩⟩
    · rw [State.dcAdd_added he hx hin hmeet hrel hroom]
      refine ⟨?_, rfl, rfl, rfl, rfl⟩
      rw [State.ld_of_hosts _ (State.emit_hosts ..), State.ld_event _ (g := LdSt.extents) (fun _ _ _ => rfl), State.ld_onLd_same]
    · rw [State.dcAdd_refused he hx h]
      exact ⟨rfl, rfl⟩
    · rw [State.dcRelease_accepted he hx hsum hrel hleft]
      exact ⟨congrArg LdSt.extents (State.ld_onLd_same ..), congrArg LdSt.release (State.ld_onLd_same ..), rfl, rfl, rfl⟩
    · rw [State.dcRelease_refused he hx hsum]
      exact ⟨rfl, rfl⟩
  case releaseDone =>
    intro ld e r s hs he hr
    have hexec : exec (.dcReleaseDone ld) s = .next (s.dcDone ld) := (onDie_running hs : execDcReleaseDone ld s = _)
    refine ⟨fun hfree => ⟨_, hexec, ?_⟩, fun hbusy => ⟨_, hexec, State.dcDone_waits he hr hbusy⟩⟩
    have hview := s.released_view ld e r
    simp only [State.releaseView, Prod.mk.injEq] at hview
    obtain ⟨hmem, hcoh, hout⟩ := hview
    rw [State.dcDone_over he hr hfree]
    cases r.who with
    | none => exact ⟨State.released_release .., by simpa using hout, hmem, hcoh⟩
    | some w =>
      exact ⟨(congrArg LdSt.release (State.ld_of_hosts _ (State.emit_hosts ..))).trans (State.released_release ..),
        congrArg (· ++ _) hout, hmem, hcoh⟩
  case resets =>
    intro ld e s hs he
    have hcfg := exec_cfgWrite hs he
    refine ⟨fun hup => ?flr, fun hdown => ?flrDue, fun clear => ?cxlReset, fun clear hr hopen hhold => ?resetDone,
      fun clear hr hopen => State.resetGoes_waits he hr hopen, fun k => ⟨_, hcfg _, rfl⟩, fun op input hmon => ⟨_, hcfg _, ?media⟩,
      fun op input hmon => ⟨_, hcfg _, ?monitor⟩, fun on => ⟨_, hcfg _, rfl⟩, fun on => ⟨_, hcfg _, rfl⟩,
      fun k base size ways gran skip commit h hh => ⟨_, hcfg _, ?decoder⟩⟩
    case flr =>
      obtain ⟨u, hu, hshows⟩ := s.flrLd_shows ld
      refine ⟨_, exec_flr hs he, u, ?_, hshows⟩
      rw [if_pos hup, State.flrAll, hu]
    case flrDue => exact ⟨_, exec_flr hs he, if_neg (by simp [hdown])⟩
    case cxlReset =>
      refine ⟨_, (onDie_running hs : execCxlReset ld clear s = _), ?_⟩
      exact if_pos (by simp [he])
    case resetDone =>
      have hview := s.memCleared_view ld e clear
      simp only [State.releaseView, Prod.mk.injEq] at hview
      obtain ⟨-, -, hout⟩ := hview
      rw [State.resetGoes_done he hr hopen hhold]
      refine ⟨?_, congrArg (· ++ _) hout, ?_⟩
      · rw [State.ld_of_hosts _ (State.emit_hosts ..), State.ld_onLd_same]
      · rintro rfl
        exact SameStore.refl s
    case media => exact if_neg (by simp [State.on_eq_false hmon])
    case monitor => exact if_pos hmon
    case decoder =>
      subst hh
      exact ⟨rfl, hdm_decoder ..⟩
  case records =>
    intro ld log handles s hs
    refine ⟨_, exec_clearEventRecords ld log handles hs, ?_⟩
    have hlog : smGet {} ((State.emit (s.onLd ld (fun d =>
        { d with logs := smSet {} d.logs log (clearedLog (smGet {} d.logs log) handles) })) (.mbx (.ld ld) .success [])).ld ld).logs
          log = clearedLog (smGet {} (s.ld ld).logs log) handles := by
      rw [State.ld_of_hosts _ (State.emit_hosts ..), State.ld_onLd_same, smGet_smSet_same]
    refine ⟨?_, ?_, fun r => ?_, rfl, rfl⟩
    · rw [hlog]
      rfl
    · rw [hlog]
      rfl
    · rw [hlog, clearedLog, List.mem_filter, keptRecord_iff]
  case stall =>
    intro q from_ tag r s hs hr
    obtain ⟨hstall, hqueues, hqram⟩ := s.endStall_stalled r
    refine ⟨s.endStall r, ?_, hstall, hqueues, hqram, s.endStall_answer r⟩
    change execQportStallExpire q from_ tag s = _
    rw [execQportStallExpire, onDie_running hs]
    simp only [hr]

end Sys2Proof.Machine

/-!
# What writes of pages and packets on links leave (R92 to R98, R110, R215 to R228)

A restart of the die (R397) shows the paths of the Span anew, which may send packets and exclude members. None of that
changes the stage, the stations in reset and the host requests; what pages and links do changes no coherence and no message
on the torus either.
-/

namespace Sys2Proof.Machine

/-- What no round of a fold changes is the same after it. -/
theorem foldl_keeps {α β γ : Type} {q : β → γ} {f : β → α → β} (h : ∀ a x, q (f a x) = q a) {l : List α} {a b : β}
    (hb : l.foldl f a = b) : q b = q a := by
  subst hb
  induction l generalizing a with
  | nil => rfl
  | cons x l ih => exact ih.trans (h a x)

/-- What a restart must leave, or find empty. -/
def State.bootView (s : State) : Stage × List Nat × List HostReq × CohSt × NocSt := (s.stage, s.perst, s.reqs, s.coh, s.noc)

theorem State.stage_of_bootView {s t : State} (h : t.bootView = s.bootView) : t.stage = s.stage := congrArg (·.1) h

theorem mapBlind_bootView : MapBlind State.bootView where
  reg _ _ _ _ _ := rfl
  smp _ _ := rfl
  txn _ _ := rfl
  free _ _ := rfl
  dram _ _ := rfl
  pwr _ _ := rfl
  map _ _ := rfl

section
variable (s : State)

theorem State.counts_bootView (u code : Nat) (q : Qual) (id : Option Nat) (n : Nat) :
    (s.counts u code q id n).bootView = s.bootView := mapBlind_bootView.toPostBlind.counts ..

theorem State.record_bootView (cls sev blk inst a1 a2 d : Nat) : (s.record cls sev blk inst a1 a2 d).bootView = s.bootView :=
  State.record_keeps (p := State.bootView) _ _ _ _ _ _ _ _ (fun _ _ => rfl) (fun _ _ => rfl) fun _ _ _ _ _ _ => rfl

theorem State.forEach_bootView {α : Type} {l : List α} {f : State → α → State} (h : ∀ t x, (f t x).bootView = t.bootView) :
    (s.forEach l f).bootView = s.bootView := State.forEach_keeps (p := State.bootView) h

theorem State.when_bootView (b : Bool) {f : State → State} (h : (f s).bootView = s.bootView) :
    (s.when b f).bootView = s.bootView := State.when_keeps (p := State.bootView) s b h

theorem State.ite_bootView {a b : State} (c : Prop) [Decidable c] (ha : a.bootView = s.bootView) (hb : b.bootView = s.bootView) :
    (if c then a else b).bootView = s.bootView := ite_keeps (p := State.bootView) c ha hb

/-! ### Stored lines and pages -/

theorem State.putMa_bootView (ma : Nat) (d : Bytes) (poison : Bool) : (s.putMa ma d poison).bootView = s.bootView := by
  unfold State.putMa
  split
  · rfl
  · exact State.ite_bootView _ _ rfl (State.ite_bootView _ _ rfl rfl)

theorem State.putHall_bootView (q l : Nat) (d : Bytes) (poison : Bool) : (s.putHall q l d poison).bootView = s.bootView := by
  unfold State.putHall
  exact State.putMa_bootView ..

theorem State.putPage_bootView (q : Nat) (ls : List (Bytes × Bool)) : (s.putPage q ls).bootView = s.bootView :=
  State.forEach_bootView (f := fun s (x : (Bytes × Bool) × Nat) => s.putHall q x.2 x.1.1 x.1.2) s fun _ _ =>
    State.putHall_bootView ..

theorem State.setPme_bootView (q : Nat) (x : Pme) (m : Nat) : (s.setPme q x m).bootView = s.bootView := mapBlind_bootView.setPme ..

theorem State.dropLine_bootView (line : Nat) : (s.dropLine line).bootView = s.bootView :=
  State.ite_bootView _ _ rfl (State.ite_bootView _ _ (State.setPme_bootView ..) rfl)

theorem State.failEvent_bootView (a l c t : Nat) : (s.failEvent a l c t).bootView = s.bootView := by
  unfold State.failEvent
  split
  · rfl
  · exact State.ite_bootView _ _ rfl rfl

theorem State.backPage_bootView (q f slot m : Nat) : (s.backPage q f slot m).bootView = s.bootView :=
  (State.putPage_bootView ..).trans (State.setPme_bootView ..)

theorem State.takeFrame_bootView (f : Nat) : (s.takeFrame f).bootView = s.bootView := by
  unfold State.takeFrame
  exact mapBlind_bootView.setChunk ..

/-! ### Frames that are taken at once -/

theorem State.giveChunk_bootView (c pool : Nat) : (s.giveChunk c pool).bootView = s.bootView :=
  State.ite_bootView _ _ (mapBlind_bootView.setChunk ..) (mapBlind_bootView.setChunk ..)

theorem State.zeroChunk_bootView (c : Nat) : (s.zeroChunk c).bootView = s.bootView := by
  unfold State.zeroChunk
  exact (mapBlind_bootView.reg ..).trans ((mapBlind_bootView.reg ..).trans rfl)

theorem State.grantNow_bootView {cl : Claim} {t : State} (h : s.grantNow cl = some t) : t.bootView = s.bootView := by
  obtain ⟨c, -, rfl⟩ := Option.map_eq_some_iff.1 h
  exact (State.giveChunk_bootView ..).trans (State.zeroChunk_bootView ..)

theorem State.frameNow_bootView {q f : Nat} {t : State} (h : s.frameNow q = some (f, t)) : t.bootView = s.bootView := by
  unfold State.frameNow at h
  split at h
  · cases h
    exact State.takeFrame_bootView ..
  · split at h
    · cases h
    next u hu =>
      obtain ⟨k, -, hk⟩ := List.exists_of_findSome?_eq_some hu
      split at h
      · cases h
        exact (mapBlind_bootView.poolTrim ..).trans <| (State.takeFrame_bootView ..).trans (State.grantNow_bootView s hk)
      · cases h

/-! ### Promotion -/

theorem State.treadFail_bootView (g q b : Nat) (alone : Bool) (e : TreadErr) :
    (s.treadFail g q b alone e).bootView = s.bootView := by
  unfold State.treadFail
  exact (State.record_bootView ..).trans rfl

theorem State.countDecode_bootView (g : Nat) (r : Run) (b : Nat) (res : BlockRes) :
    (s.countDecode g r b res).bootView = s.bootView := by
  have hdec : ∀ t : State, ∀ tier, (t.countDec g tier).bootView = t.bootView := fun _ _ => State.counts_bootView ..
  unfold State.countDecode
  dsimp only
  refine State.ite_bootView _ _ rfl ?_
  split
  · exact hdec ..
  · rfl
  · exact (State.treadFail_bootView ..).trans (hdec ..)

theorem State.spendGranules_bootView (g n : Nat) : (s.spendGranules g n).bootView = s.bootView :=
  State.forEach_bootView s fun t _ => by
    unfold State.spendCause
    split <;> rfl

theorem State.takeBlock_bootView (r : Run) (b : Nat) : (s.takeBlock r b).2.bootView = s.bootView := by
  unfold State.takeBlock
  exact State.countDecode_bootView ..

theorem State.undrop_bootView (f : Nat → Bool) : (s.undrop f).bootView = s.bootView := rfl

theorem State.promoLines_bootView (q : Nat) (own : Option Nat) (tag : Bytes × Bool) :
    (s.promoLines q own tag).2.bootView = s.bootView := by
  unfold State.promoLines
  extract_lets x r tagBad s1
  have h1 : s1.bootView = s.bootView := State.when_bootView s _ (State.record_bootView ..)
  refine Eq.trans ?_ h1
  split
  next ls u hu =>
    have hround := foldl_keeps (q := fun a : List (Bytes × Bool) × State => a.2.bootView) (h := fun a b => by
      dsimp only
      rw [State.spendGranules_bootView, State.takeBlock_bootView]) hu
    dsimp only at hround
    exact (State.undrop_bootView u _).trans hround

theorem State.promote_bootView (q f : Nat) (dirty : Bool) (own : Option Nat) (tag : Bytes × Bool) (m : Nat) :
    (s.promote q f dirty own tag m).bootView = s.bootView :=
  (State.putPage_bootView ..).trans <| (State.setPme_bootView ..).trans <| (mapBlind_bootView.releaseStore ..).trans
    (State.promoLines_bootView s q own tag)

theorem State.hallNow_bootView {q : Nat} {own : Option Nat} {m : Nat} {t : State} (h : s.hallNow q own m = some t) :
    t.bootView = s.bootView := by
  unfold State.hallNow at h
  dsimp only at h
  split at h
  · cases h
    rfl
  · split at h
    · cases h
    next f u hu =>
      cases h
      refine Eq.trans ?_ (State.frameNow_bootView s hu)
      exact State.ite_bootView _ _ (State.backPage_bootView ..) (State.promote_bootView ..)

/-! ### Writes and poison -/

theorem State.writeHall_bootView (line : Nat) (d : Line) (mask : BitVec 64) (poison : Bool) (m : Nat) :
    (s.writeHall line d mask poison m).bootView = s.bootView := by
  have hnote : ∀ q, ((s.noteWrite q).ageZero q).bootView = s.bootView := fun _ =>
    State.ite_bootView s _ (State.setPme_bootView ..) rfl
  have hdirty : ∀ (t : State) (c : Prop) [Decidable c] (q : Nat) (x : Pme), (if c then t else t.setPme q x m).bootView = t.bootView :=
    fun t _ _ _ _ => State.ite_bootView t _ rfl (State.setPme_bootView ..)
  have hpost : ∀ (t : State) (c : Prop) [Decidable c] (q : Nat) (x : Pme) (a : Nat),
      ((if c then t else t.setPme q x m).postMa a true m).bootView = t.bootView :=
    fun t _ _ _ _ _ => (mapBlind_bootView.postMa ..).trans (hdirty t ..)
  unfold State.writeHall
  dsimp only
  refine State.ite_bootView s _ ?_ <| State.ite_bootView s _ ?_ <| State.ite_bootView s _ ?_ ?_
  · exact (State.undrop_bootView ..).trans <| (State.putHall_bootView ..).trans ((hpost ..).trans (hnote _))
  · exact (hpost ..).trans (hnote _)
  · exact (hpost ..).trans (hnote _)
  · exact (State.putHall_bootView ..).trans ((hpost ..).trans (hnote _))

theorem State.writeNow_bootView (line : Nat) (d : Line) (mask : BitVec 64) (poison : Bool) (a : Nat) :
    (s.writeNow line d mask poison a).2.bootView = s.bootView := by
  have hlost : (s.noteLost (line / 64)).bootView = s.bootView :=
    (State.record_bootView ..).trans (State.ite_bootView (a := State.bump ..) s _ rfl rfl)
  unfold State.writeNow
  dsimp only
  split
  · rfl
  · split
    · exact hlost
    · split
      · exact State.failEvent_bootView ..
      · split
        · rfl
        next t ht => exact (State.writeHall_bootView ..).trans (State.hallNow_bootView s ht)

/-- R175, R177: a line that is marked poisoned. -/
theorem State.markPoison_bootView (line : Nat) : (s.markPoison line).bootView = s.bootView :=
  (State.ite_bootView _ _ rfl (State.dropLine_bootView ..)).trans (State.writeNow_bootView ..)

/-! ### Packets on a link -/

theorem State.ringPost_bootView (n q l : Nat) (w : Bool) : (s.ringPost n q l w).bootView = s.bootView := by
  unfold State.ringPost
  split
  · exact mapBlind_bootView.toPostBlind.postLine ..
  · rfl

theorem State.onLink_bootView (n : Nat) (f : Link → Link) : (s.onLink n f).bootView = s.bootView := rfl

theorem State.spill_bootView (n : Nat) : (s.spill n).bootView = s.bootView := by
  unfold State.spill
  dsimp only
  split
  · rfl
  · refine (State.onLink_bootView ..).trans (State.forEach_bootView s fun t i => ?_)
    exact State.ite_bootView t _ ((State.ringPost_bootView ..).trans (State.putHall_bootView ..)) rfl

theorem State.returns_bootView (n : Nat) : (s.returns n).2.2.bootView = s.bootView := State.onLink_bootView ..

theorem State.drive_bootView (n : Nat) (slots : Bytes) (seq bypass : Nat) : (s.drive n slots seq bypass).bootView = s.bootView :=
  State.returns_bootView s n

theorem State.showStored_bootView (n : Nat) : (s.showStored n).bootView = s.bootView := rfl

theorem State.dataFlit_bootView (n : Nat) (slots : Bytes) : (s.dataFlit n slots).bootView = s.bootView := by
  unfold State.dataFlit
  exact (State.showStored_bootView ..).trans <| (State.drive_bootView ..).trans <|
    (State.when_bootView _ _ (State.spill_bootView ..)).trans <| (State.onLink_bootView ..).trans rfl

theorem State.pump_bootView (n : Nat) : (s.pump n).bootView = s.bootView := by
  unfold State.pump
  extract_lets q s1
  split
  next u rest stuck hu =>
    have hround : u.bootView = s1.bootView :=
      foldl_keeps (q := fun a : State × List CwkPacket × List Nat => a.1.bootView) (fun a x => by
        dsimp only
        split
        · rfl
        · exact State.dataFlit_bootView ..) hu
    exact (State.forEach_bootView _ fun _ _ => mapBlind_bootView.reg ..).trans <| (State.onLink_bootView ..).trans hround

theorem State.queueOn_bootView (n : Nat) (q : CwkPacket) : (s.queueOn n q).bootView = s.bootView := State.pump_bootView ..

theorem State.toSlot_bootView (t : Nat) (h : CwkHdr) (mask data : Nat) : (s.toSlot t h mask data).bootView = s.bootView := by
  unfold State.toSlot
  split
  · rfl
  · split
    · rfl
    · exact State.queueOn_bootView ..

theorem State.sendHello_bootView (n : Nat) : (s.sendHello n).bootView = s.bootView := by
  unfold State.sendHello
  split
  · rfl
  · exact State.queueOn_bootView ..

theorem State.sendMgt_bootView (t opc a d tag : Nat) : (s.sendMgt t opc a d tag).bootView = s.bootView := State.toSlot_bootView ..

end

end Sys2Proof.Machine

/-!
# What homes and proxies do leaves the stage as it is (R160 to R178, R242)

An excluded member's requests and lines are taken from the homes (R242), which may go through most of the protocol. Each
operation of a home or of a peer proxy leaves the die in its stage.
-/

namespace Sys2Proof.Machine

section
variable (s : State)

@[simp] theorem State.forEach_stage {α : Type} {l : List α} {f : State → α → State} (h : ∀ t x, (f t x).stage = t.stage) :
    (s.forEach l f).stage = s.stage := State.forEach_keeps (p := State.stage) h

@[simp] theorem State.when_stage (b : Bool) {f : State → State} (h : ∀ t, (f t).stage = t.stage) :
    (s.when b f).stage = s.stage := State.when_keeps (p := State.stage) s b (h s)

@[simp] theorem ite_stage (c : Prop) [Decidable c] (a b : State) :
    (if c then a else b).stage = if c then a.stage else b.stage := apply_ite ..

/-! ### What a home or a proxy touches at once -/

@[simp] theorem State.record_stage (cls sev blk inst a1 a2 d : Nat) :
    (s.record cls sev blk inst a1 a2 d).stage = s.stage := State.stage_of_bootView (State.record_bootView ..)

@[simp] theorem State.counts_stage (u code : Nat) (q : Qual) (id : Option Nat) (n : Nat) :
    (s.counts u code q id n).stage = s.stage := State.stage_of_bootView (State.counts_bootView ..)

@[simp] theorem State.onTxn_stage (id : Option Nat) (f : Txn → Txn) :
    (s.onTxn id f).stage = s.stage := State.stage_of_bootView (mapBlind_bootView.toPostBlind.onTxn ..)

@[simp] theorem State.markPoison_stage (line : Nat) :
    (s.markPoison line).stage = s.stage := State.stage_of_bootView (State.markPoison_bootView ..)

@[simp] theorem State.failEvent_stage (a l c t : Nat) :
    (s.failEvent a l c t).stage = s.stage := State.stage_of_bootView (State.failEvent_bootView ..)

@[simp] theorem State.toSlot_stage (t : Nat) (h : CwkHdr) (mask data : Nat) :
    (s.toSlot t h mask data).stage = s.stage := State.stage_of_bootView (State.toSlot_bootView ..)

@[simp] theorem State.sendMgt_stage (t o a d g : Nat) :
    (s.sendMgt t o a d g).stage = s.stage := State.stage_of_bootView (State.sendMgt_bootView ..)

@[simp] theorem State.showHome_stage (h : Nat) : (s.showHome h).stage = s.stage := rfl

@[simp] theorem State.onHome_stage (h : Nat) (f : HomeSt → HomeSt) : (s.onHome h f).stage = s.stage := rfl

@[simp] theorem State.unspend_stage (a h : Nat) : (s.unspend a h).stage = s.stage := rfl

@[simp] theorem State.setTT_stage (h e : Nat) (t : TT) : (s.setTT h e t).stage = s.stage := rfl

@[simp] theorem State.dropTT_stage (h e : Nat) : (s.dropTT h e).stage = s.stage := rfl

@[simp] theorem State.dropPfTx_stage (t : PfTx) : (s.dropPfTx t).stage = s.stage := rfl

@[simp] theorem State.absorb_stage (h a line : Nat) : (s.absorb h a line).stage = s.stage := rfl

/-! ### Peer proxies -/

@[simp] theorem State.toMember_stage (t : Nat) (f : Flight) : (s.toMember t f).stage = s.stage := by
  unfold State.toMember
  simp

@[simp] theorem State.pfSend_stage (t : PfTx) (o : Nat) (m : CohMsg) :
    (s.pfSend t o m).stage = s.stage := State.toMember_stage ..

@[simp] theorem State.pfSendData_stage (t : PfTx) (g : BitVec 8) (d : MaskedData) :
    (s.pfSendData t g d).stage = s.stage := State.pfSend_stage ..

@[simp] theorem State.pfReply_stage (e : Nat) (f : Flight) (o : Nat) (g : Bool) (v : Line) (b : Bool) :
    (s.pfReply e f o g v b).stage = s.stage := by
  unfold State.pfReply
  exact State.when_stage s _ fun _ => rfl

@[simp] theorem State.pfFail_stage (e : Nat) (f : Flight) : (s.pfFail e f).stage = s.stage := by
  unfold State.pfFail
  split
  · simp
  · split
    · simp
    · simp only [State.pfReply_stage]
      split <;> simp

@[simp] theorem State.onPf_stage (slot line : Nat) (f : PfEnt → PfEnt) : (s.onPf slot line f).stage = s.stage := by
  unfold State.onPf
  split <;> simp

@[simp] theorem State.pfSnoop_stage (t : PfTx) (a o : Nat) (fwd : Bool) : (s.pfSnoop t a o fwd).stage = s.stage := by
  unfold State.pfSnoop
  exact (State.send_stage ..).trans (State.counts_stage ..)

@[simp] theorem State.pfSnoopAll_stage (t : PfTx) (l : List Nat) : (s.pfSnoopAll t l).2.stage = s.stage := by
  unfold State.pfSnoopAll
  simp

@[simp] theorem State.pfPe_stage (slot line : Nat) (st : AgSt) (o act : Nat) :
    (s.pfPe slot line st o act).stage = s.stage := State.record_stage ..

theorem State.pfCredit_stage {t : PfTx} {u : State} (h : s.pfCredit t = some u) : u.stage = s.stage := by
  unfold State.pfCredit at h
  split at h
  · cases h
  · cases h
    rfl

@[simp] theorem State.pfAnswerMid_stage (t : PfTx) : (s.pfAnswerMid t).stage = s.stage := by
  unfold State.pfAnswerMid
  split
  · rfl
  · split
    · simp only [ite_stage, State.setPfTx_stage, State.onPf_stage, State.pfSend_stage, ite_self]
    · dsimp only
      split <;> simp only [State.setPfTx_stage, State.pfSend_stage, State.onPf_stage] <;> split <;> simp

@[simp] theorem State.pfAnswerSnoop_stage (t : PfTx) : (s.pfAnswerSnoop t).stage = s.stage := by
  unfold State.pfAnswerSnoop
  split
  · rfl
  · simp only [State.dropPfTx_stage, State.onPf_stage, State.pfSend_stage]
    split <;> simp

@[simp] theorem State.pfSnoopMid_stage (t : PfTx) (f : Flight) : (s.pfSnoopMid t f).stage = s.stage := by
  unfold State.pfSnoopMid
  split <;> simp

@[simp] theorem State.pfEnter_stage (t : PfTx) : (s.pfEnter t).stage = s.stage := by
  unfold State.pfEnter
  refine (State.forEach_stage _ fun u f => ?_).trans (State.setPfTx_stage ..)
  split <;> simp

@[simp] theorem State.pfAsk_stage (t : PfTx) (o : Nat) : (s.pfAsk t o).stage = s.stage := by
  unfold State.pfAsk
  split
  · rfl
  · split
    · dsimp only
      split
      next hu => simp [State.pfCredit_stage s hu]
      · rfl
      · rfl
    · simp

@[simp] theorem State.pfForwarded_stage (t : PfTx) (a : Nat) : (s.pfForwarded t a).stage = s.stage := by
  unfold State.pfForwarded
  simp

@[simp] theorem State.pfGiveUp_stage (t : PfTx) : (s.pfGiveUp t).stage = s.stage := by
  unfold State.pfGiveUp
  split
  next hu => simp [State.pfCredit_stage s hu]
  · rfl
  · simp

@[simp] theorem State.pfProceed_stage (t : PfTx) : (s.pfProceed t).stage = s.stage := by
  unfold State.pfProceed
  split
  · rfl
  · split
    · exact State.pfAnswerMid_stage ..
    · repeat' split
      all_goals simp

@[simp] theorem State.excludePf_stage (t : Nat) : (s.excludePf t).stage = s.stage := by
  unfold State.excludePf
  dsimp only
  rw [State.forEach_stage _ fun u x => by simp]
  change (State.forEach _ _ _).stage = _
  rw [State.forEach_stage _ fun u f => by simp]
  exact State.forEach_stage _ fun u x => by split <;> simp

/-! ### Homes -/

@[simp] theorem State.sendTo_stage (a : Nat) (f : Flight) : (s.sendTo a f).stage = s.stage := by
  unfold State.sendTo
  simp

@[simp] theorem State.reply_stage (e : Nat) (t : TT) (o : Nat) (g : Bool) (v : Option (Line × Bool)) :
    (s.reply e t o g v).stage = s.stage := State.sendTo_stage ..

@[simp] theorem State.conclude_stage (h e : Nat) (t : TT) : (s.conclude h e t).stage = s.stage := by
  unfold State.conclude
  dsimp only
  split <;> simp

@[simp] theorem State.sendReq_stage (r : MapReq) : (s.sendReq r).stage = s.stage := by
  unfold State.sendReq
  simp

@[simp] theorem State.memRead_stage (h e : Nat) (t : TT) : (s.memRead h e t).stage = s.stage := State.sendReq_stage ..

@[simp] theorem State.memWrite_stage (h e : Nat) (t : TT) (w : MaskedData) :
    (s.memWrite h e t w).stage = s.stage := State.sendReq_stage ..

@[simp] theorem State.settle_stage (h e : Nat) (t : TT) : (s.settle h e t).stage = s.stage := by
  unfold State.settle
  dsimp only
  repeat' split
  all_goals simp

@[simp] theorem State.snoopData_stage (h e : Nat) (t : TT) (d : MaskedData) : (s.snoopData h e t d).2.stage = s.stage := by
  unfold State.snoopData
  dsimp only
  split <;> simp

@[simp] theorem State.crossing_stage (h e : Nat) (t : TT) (a : Nat) : (s.crossing h e t a).stage = s.stage := by
  unfold State.crossing
  dsimp only
  repeat' split
  all_goals simp

@[simp] theorem State.snoop_stage (h e : Nat) (t : TT) (a o : Nat) (fwd : Bool) : (s.snoop h e t a o fwd).stage = s.stage := by
  unfold State.snoop
  simp

@[simp] theorem State.recallWay_stage (h line w e : Nat) : (s.recallWay h line w e).stage = s.stage := by
  unfold State.recallWay
  simp

@[simp] theorem State.drainHome_stage (h : Nat) : (s.drainHome h).stage = s.stage := by
  unfold State.drainHome
  refine State.forEach_stage s fun u x => ?_
  split <;> simp

@[simp] theorem State.act_stage (h e : Nat) (t : TT) : (s.act h e t).stage = s.stage := by
  unfold State.act
  split <;> simp

@[simp] theorem State.closeNow_stage (h e : Nat) : (s.closeNow h e).stage = s.stage := by
  unfold State.closeNow
  split <;> simp

@[simp] theorem State.freeWdb_stage (h a line : Nat) : (s.freeWdb h a line).stage = s.stage := by
  unfold State.freeWdb
  split <;> simp

@[simp] theorem State.evictClean_stage (t : TT) (e : Nat) : (s.evictClean t e).stage = s.stage := by
  unfold State.evictClean
  split <;> simp

@[simp] theorem State.purge_stage (h e : Nat) (t : TT) : (s.purge h e t).stage = s.stage := by
  unfold State.purge
  split <;> simp

@[simp] theorem State.takeWay_stage (h e : Nat) (t : TT) (first : Bool) : (s.takeWay h e t first).stage = s.stage := by
  unfold State.takeWay
  dsimp only
  repeat' split
  all_goals simp

@[simp] theorem State.serve_stage (h e o : Nat) (m : CohMsg) : (s.serve h e o m).stage = s.stage := by
  unfold State.serve
  extract_lets line t coh s1 tier q id s2 s3 d
  have h3 : s3.stage = s.stage := by
    dsimp only [s3]
    split <;> simp [s2, s1]
  clear_value d
  repeat' split
  all_goals simp [h3]

@[simp] theorem State.peHome_stage (h : Nat) (st : HbSt) (o src line : Nat) : (s.peHome h st o src line).stage = s.stage := by
  unfold State.peHome
  simp

theorem State.startNext_stage {h : Nat} {u : State} (hu : s.startNext h = some u) : u.stage = s.stage := by
  unfold State.startNext at hu
  dsimp only at hu
  split at hu
  · cases hu
  · split at hu
    · cases hu
      simp
    · obtain ⟨f, -, rfl⟩ := Option.map_eq_some_iff.1 hu
      simp

@[simp] theorem State.startQueued_stage (n : Nat) (h : Nat) : (State.startQueued n s h).stage = s.stage := by
  induction n generalizing s with
  | zero => rfl
  | succ n ih =>
    unfold State.startQueued
    split
    · rfl
    next u hu => exact (ih u).trans (State.startNext_stage s hu)

@[simp] theorem State.tryClose_stage (h e : Nat) : (s.tryClose h e).stage = s.stage := by
  unfold State.tryClose
  split <;> simp

@[simp] theorem State.forwarded_stage (h e : Nat) (t : TT) (o : Nat) : (s.forwarded h e t o).stage = s.stage := by
  unfold State.forwarded
  split <;> simp

@[simp] theorem State.noteAnswer_stage (t : TT) (a o : Nat) : (s.noteAnswer t a o).stage = s.stage := by
  unfold State.noteAnswer
  split <;> simp

@[simp] theorem State.homeAnswer_stage (o : Nat) (m : CohMsg) : (s.homeAnswer o m).stage = s.stage := by
  unfold State.homeAnswer
  dsimp only
  split
  · simp
  next t _ =>
    simp only [ite_stage]
    repeat' split
    all_goals simp

/-! ### An excluded member -/

@[simp] theorem State.excludeTT_stage (a k : Nat) (t : TT) : (s.excludeTT a k t).stage = s.stage := by
  unfold State.excludeTT
  simp only [ite_stage, State.homeAnswer_stage, State.tryClose_stage, State.settle_stage, State.setTT_stage,
    State.markPoison_stage, ite_self]

@[simp] theorem State.excludeDir_stage (a k : Nat) (d : DirEnt) : (s.excludeDir a k d).stage = s.stage := by
  unfold State.excludeDir
  simp

@[simp] theorem State.excludeDirs_stage (a : Nat) : (s.excludeDirs a).stage = s.stage := by
  unfold State.excludeDirs
  simp

@[simp] theorem State.excludeQueued_stage (t a : Nat) : (s.excludeQueued t a).stage = s.stage := by
  unfold State.excludeQueued
  refine (State.forEach_stage _ fun u h => ?_).trans <|
    (State.forEach_stage _ fun u f => ?_).trans (State.forEach_stage s fun u n => ?_)
  · exact State.when_stage u _ fun v => (State.showHome_stage ..).trans (State.onHome_stage ..)
  · exact State.unsend_stage ..
  · exact State.when_stage u _ fun v => State.onLink_stage ..

/-- R242: the stage does not change when a member is excluded. -/
@[simp] theorem State.excludeNow_stage (t : Nat) : (s.excludeNow t).stage = s.stage := by
  unfold State.excludeNow
  split
  · rfl
  · simp only [State.excludePf_stage, State.excludeDirs_stage]
    refine (State.forEach_stage _ fun u x => ?_).trans (by simp)
    split <;> simp

end

end Sys2Proof.Machine

/-!
# What starting the functional part keeps (R397, R398)

`BootStable` collects what a condition on the stage, the stations in reset, the host requests, the coherence and the torus
must survive; every part of the start then keeps it.
-/

namespace Sys2Proof.Machine

/-- A condition on the view of a restart that the wake and the end of the drain of a domain (R208, R209) and the exclusion
of a member (R241, R242) keep. -/
structure BootStable (P : State → Prop) : Prop where
  same : ∀ {t u : State}, P t → u.bootView = t.bootView → P u
  wakeDom : ∀ {t : State} (d : Nat), P t → P (t.wakeDom d)
  endDrain : ∀ {t : State} (d : Nat), P t → P (t.endDrain d)
  excludeNow : ∀ {t : State} (m : Nat), P t → P (t.excludeNow m)

/-! ### Parts of the start that the view does not show -/

section
variable (s : State)

@[simp] theorem State.wr_bootView (f : Field) (v i j : Nat) : (s.wr f v i j).bootView = s.bootView := rfl

theorem State.setFloor_bootView (f : Nat) : (s.setFloor f).bootView = s.bootView := by
  have hset : (((s.wr F.PWR_STATUS_FLOOR f).set F.PWR_IRQ_FLOOR).counts 63 evFloor).bootView = s.bootView :=
    State.counts_bootView ..
  exact State.ite_bootView _ _ rfl (State.ite_bootView _ _ ((State.wr_bootView ..).trans hset) hset)

theorem State.showLoft_bootView : s.showLoft.bootView = s.bootView := by
  refine State.forEach_bootView s fun t k => State.ite_bootView t _ ?_ (State.wr_bootView ..)
  split
  · exact State.wr_bootView ..
  · exact (State.forEach_bootView _ fun _ _ => mapBlind_bootView.toPostBlind.rouse ..).trans (State.wr_bootView ..)

theorem State.showTarget_bootView : s.showTarget.bootView = s.bootView := by
  unfold State.showTarget
  exact (State.wr_bootView ..).trans <| (State.wr_bootView ..).trans <| (State.wr_bootView ..).trans <|
    (State.wr_bootView ..).trans (State.wr_bootView ..)

theorem State.showCap_bootView : s.showCap.bootView = s.bootView := by
  unfold State.showCap
  exact (State.wr_bootView ..).trans <| (State.wr_bootView ..).trans <| State.ite_bootView s _ (State.wr_bootView ..) rfl

theorem State.showLd_bootView (e : LdEntry) : (s.showLd e).bootView = s.bootView := rfl

theorem State.applyLds_bootView : s.applyLds.bootView = s.bootView :=
  State.forEach_bootView s fun t _ => (State.forEach_bootView _ fun _ _ => State.wr_bootView ..).trans (State.wr_bootView t ..)

theorem State.applyPorts_bootView : s.applyPorts.bootView = s.bootView := by
  refine (State.applyLds_bootView _).trans (State.forEach_bootView s fun t p => ?_)
  dsimp only
  split <;> rfl

theorem State.applyChans_bootView : s.applyChans.bootView = s.bootView := by
  refine State.forEach_bootView s fun t c => ?_
  refine State.ite_bootView t _ (State.wr_bootView ..) ?_
  refine (State.forEach_bootView _ fun u r => ?_).trans rfl
  exact (State.wr_bootView ..).trans (State.wr_bootView ..)

theorem State.applySpan_bootView : s.applySpan.bootView = s.bootView := by
  unfold State.applySpan
  refine (State.forEach_bootView _ fun _ _ => State.wr_bootView ..).trans (State.forEach_bootView s fun t n => ?_)
  refine (State.forEach_bootView _ fun _ _ => State.wr_bootView ..).trans ?_
  split <;> rfl

theorem State.applyRoutes_bootView (f : Field) : (s.applyRoutes f).bootView = s.bootView :=
  State.forEach_bootView s fun t _ => State.forEach_bootView t fun _ _ => State.wr_bootView ..

theorem State.applyTsc_bootView (gone : List Nat) : (s.applyTsc gone).bootView = s.bootView := by
  refine (State.forEach_bootView _ fun t x => ?_).trans (State.forEach_bootView s fun t x => ?_) <;> rfl

theorem State.loadForce_bootView : s.loadForce.bootView = s.bootView := rfl

theorem State.firstWindow_bootView (us : Nat) : (s.firstWindow us).bootView = s.bootView := rfl

theorem State.effective_bootView : s.effective.bootView = s.bootView := by
  unfold State.effective
  refine (State.forEach_bootView _ fun _ _ => State.wr_bootView ..).trans ?_
  refine (State.wr_bootView ..).trans <| (State.when_bootView _ _ (State.wr_bootView ..)).trans ?_
  exact (State.wr_bootView ..).trans <| (State.wr_bootView ..).trans <| (State.wr_bootView ..).trans <|
    (State.wr_bootView ..).trans (State.wr_bootView ..)

theorem State.loadSampling_bootView (u k : Nat) : (s.loadSampling u k).bootView = s.bootView := State.ite_bootView s _ rfl rfl

theorem State.applyCntd_bootView (gone : List (Nat × Nat)) : (s.applyCntd gone).bootView = s.bootView := by
  refine (State.forEach_bootView _ fun t x => ?_).trans (State.forEach_bootView s fun t x => ?_)
  · exact (State.loadSampling_bootView ..).trans rfl
  · rfl

theorem State.inlLimits_bootView : s.inlLimits.bootView = s.bootView := by
  unfold State.inlLimits
  extract_lets now new t
  refine Eq.trans rfl (State.forEach_bootView s fun u c => ?_ : t.bootView = s.bootView)
  extract_lets u1 u2
  have h1 : u1.bootView = u.bootView := State.ite_bootView u _ rfl rfl
  have h2 : u2.bootView = u1.bootView := State.ite_bootView u1 _ rfl rfl
  refine Eq.trans ?_ (h2.trans h1)
  exact State.ite_bootView u2 _ rfl rfl

theorem State.slotCheck_bootView : s.slotCheck.bootView = s.bootView :=
  State.ite_bootView s _ rfl ((State.record_bootView ..).trans rfl)

theorem State.unstall_bootView (r : Stalled) : (s.unstall r).bootView = s.bootView := State.ite_bootView s _ rfl rfl

theorem State.showResult_bootView (r : ImgResult) (mailbox : Bool) : (s.showResult r mailbox).bootView = s.bootView := rfl

theorem State.showImage_bootView (img : Bytes) (skipped : Nat) : (s.showImage img skipped).bootView = s.bootView :=
  (State.forEach_bootView _ fun _ _ => State.wr_bootView ..).trans rfl

theorem State.mapReady_bootView : s.mapReady.bootView = s.bootView := rfl

theorem State.fwStart_bootView (b : Bool) : (s.fwStart b).bootView = s.bootView := by
  unfold State.fwStart State.showCc
  simp only [State.clear_eq, State.wr_bootView]
  rfl

theorem State.monitor_bootView : s.monitor.bootView = s.bootView := rfl

theorem State.bootFirmware_bootView : s.bootFirmware.bootView = s.bootView := by
  unfold State.bootFirmware
  extract_lets a b s1 pref s2
  have h2 : s2.bootView = s1.bootView := State.ite_bootView s1 _ (State.monitor_bootView ..) <|
    State.ite_bootView s1 _ (State.fwStart_bootView ..) <| State.ite_bootView s1 _ (State.fwStart_bootView ..)
      (State.monitor_bootView ..)
  exact (State.wr_bootView ..).trans (h2.trans rfl)

end

/-! ### Parts that show floors, paths and the structure anew -/

namespace BootStable

variable {P : State → Prop} (hp : BootStable P) {s : State}
include hp

theorem exitSteps (f : Nat) (h : P s) : P (s.exitSteps f) := by
  unfold State.exitSteps
  split
  · exact hp.same h rfl
  · exact State.forEach_induct h fun t d _ ht => hp.wakeDom d (hp.endDrain d ht)
  · exact hp.same h (State.forEach_bootView s fun t _ => State.ite_bootView t _ rfl rfl)
  · exact h

/-- R344: a rise through the floors. -/
theorem riseN (n : Nat) (h : P s) : P (State.riseN n s) := by
  induction n generalizing s with
  | zero => exact h
  | succ n ih =>
    unfold State.riseN
    extract_lets t f deep s1 _ s2 s3
    have h1 : P s1 := hp.same (hp.exitSteps deep h) (State.wr_bootView ..)
    have h2 : P s2 := hp.same h1 (State.ite_bootView s1 _ rfl rfl)
    have h3 : P s3 := hp.same h2 (State.ite_bootView s2 _ rfl (State.setFloor_bootView ..))
    split
    · exact hp.same h (State.ite_bootView s _ rfl (State.wr_bootView ..))
    · split
      · exact hp.same h1 rfl
      · exact ih (hp.same h3 rfl)

theorem retarget (h : P s) : P s.retarget := by
  have hshown : P s.showSpanTol.showTarget := hp.same h ((State.showTarget_bootView _).trans (State.wr_bootView ..))
  unfold State.retarget State.rise
  exact hp.riseN 10 (hp.same (hp.same hshown (State.showCap_bootView _)) (State.showLoft_bootView _))

/-- R75: the tolerances shown anew. -/
theorem showTols (h : P s) : P s.showTols :=
  hp.retarget (hp.same h (State.forEach_bootView s fun t _ => State.showLd_bootView t _))

/-- R235, R241: the paths shown anew, with the members that they lose excluded. -/
theorem showPaths (h : P s) : P s.showPaths := by
  refine hp.same (State.forEach_induct h fun t m _ ht => ?_) (State.forEach_bootView _ fun t _ => State.sendHello_bootView t _)
  split
  extract_lets was s1 s2 lost s3 s4
  have h2 : s2.bootView = t.bootView := State.ite_bootView t _ rfl rfl
  have h4 : P s4 := hp.same ht h2
  split
  · exact hp.excludeNow m h4
  · exact h4

/-- R72, R78: a link goes down. -/
theorem linkDown (p : Nat) (h : P s) : P (s.linkDown p) := by
  unfold State.linkDown
  split
  · exact h
  · extract_lets s1 s2 s3 s4 s5 s6 s7
    have h5 : P s5 := hp.same (hp.same h rfl : P s4) (State.forEach_bootView s4 fun t _ => State.unstall_bootView t _)
    have h6 : P s6 := hp.same h5 (State.forEach_bootView s5 fun _ _ => State.wr_bootView ..)
    exact hp.showTols (hp.same h6 rfl)

theorem dropStructure (h : P s) : P s.dropStructure := by
  unfold State.dropStructure
  extract_lets u
  have hu : P u := State.forEach_induct h fun t p _ ht => by
    split
    · exact hp.linkDown p ht
    · exact ht
  clear_value u
  exact hp.same hu rfl

theorem applyStructure (ss : Sections) (h : P s) : P (s.applyStructure ss) := by
  unfold State.applyStructure
  extract_lets _ s1 s2 s3 s4 s5
  have h0 : P s1.applyPorts.applyChans.applySpan := hp.same (hp.same h rfl : P s1)
    ((State.applySpan_bootView _).trans <| (State.applyChans_bootView _).trans (State.applyPorts_bootView _))
  have h2 : P s2 := hp.same (hp.showPaths h0) ((State.applyRoutes_bootView ..).trans (State.applyRoutes_bootView ..))
  clear_value s2
  have h4 : P s4 := hp.same (hp.same h2 rfl : P s3) (State.forEach_bootView s3 fun _ _ => State.wr_bootView ..)
  have h5 : P s5 := hp.same h4 <| (State.effective_bootView _).trans <| (State.loadForce_bootView _).trans <|
    (State.firstWindow_bootView ..).trans (State.applyTsc_bootView ..)
  clear_value s5
  have h6 : (s5.applyCntd []).inlLimits.slotCheck.bootView = s5.bootView := by
    rw [State.slotCheck_bootView, State.inlLimits_bootView, State.applyCntd_bootView]
  exact hp.showTols (hp.same h5 h6)

/-- R26: the recovery structure in force. -/
theorem recover (h : P s) : P s.recover := by
  unfold State.recover
  exact hp.same (hp.applyStructure _ (hp.dropStructure h)) 
    ((State.mapReady_bootView _).trans <| (State.wr_bootView ..).trans (State.wr_bootView ..))

theorem bootStructure (h : P s) : P s.bootStructure := by
  unfold State.bootStructure
  extract_lets pref a b s1 order
  have h1 : P s1 := hp.same h rfl
  split
  · exact hp.recover h1
  · split
    · exact hp.applyStructure _ (hp.same h1 ((State.showImage_bootView ..).trans rfl))
    · exact hp.recover (hp.same h1 (State.showResult_bootView ..))

/-- R397: the start of the functional part. -/
theorem boot (h : P { s with stage := .running }) : P s.boot := hp.same (hp.bootStructure h) (State.bootFirmware_bootView _)

end BootStable

end Sys2Proof.Machine

/-!
# Starting with no coherence and no message (R397)

A restart clears the coherence and the torus first. Then a domain holds nothing, no line has a holder and no request waits,
so neither a domain's wake nor an exclusion touches either.
-/

namespace Sys2Proof.Machine

/-! ### A torus that holds nothing -/

section
variable {s : State} (hn : s.noc = {})
include hn

theorem State.dom_of_noc (d : Nat) : s.dom d = {} := by
  unfold State.dom
  rw [hn]
  rfl

theorem State.onDom_bootView_of_noc (d : Nat) {f : DomSt → DomSt} (hf : f {} = {}) : (s.onDom d f).bootView = s.bootView := by
  have hsame : ({ s.noc with doms := smSet {} s.noc.doms d (f (s.dom d)) } : NocSt) = s.noc := by
    rw [State.dom_of_noc hn, hf, hn]
    rfl
  unfold State.onDom
  dsimp only
  rw [hsame, State.wr_bootView]

theorem State.releaseHeld_bootView_of_noc (d : Nat) : (s.releaseHeld d).bootView = s.bootView := by
  refine Eq.trans ?_ (State.onDom_bootView_of_noc hn d (f := fun x => { x with held := [], blks := [] }) rfl)
  unfold State.releaseHeld
  rw [State.dom_of_noc hn]
  rfl

end

/-- What a restart leaves where only the stations `ps` are in reset: the die runs with no host request, no coherence and
nothing on the torus. -/
def State.Quiet (ps : List Nat) (s : State) : Prop := s.bootView = (.running, ps, [], {}, {})

namespace State.Quiet

variable {ps : List Nat} {s t : State}

theorem same (h : s.Quiet ps) (ht : t.bootView = s.bootView) : t.Quiet ps := ht.trans h

theorem stage (h : s.Quiet ps) : s.stage = .running := congrArg (·.1) h
theorem perst (h : s.Quiet ps) : s.perst = ps := congrArg (·.2.1) h
theorem reqs (h : s.Quiet ps) : s.reqs = [] := congrArg (·.2.2.1) h
theorem coh (h : s.Quiet ps) : s.coh = {} := congrArg (·.2.2.2.1) h
theorem noc (h : s.Quiet ps) : s.noc = {} := congrArg (·.2.2.2.2) h

/-! ### Domains -/

theorem onDom (h : s.Quiet ps) (d : Nat) : (s.onDom d (fun x => { x with want := false })).Quiet ps :=
  h.same (State.onDom_bootView_of_noc h.noc d rfl)

theorem wakeDom (h : s.Quiet ps) (d : Nat) : (s.wakeDom d).Quiet ps := by
  unfold State.wakeDom
  split
  · exact (h.same ((State.counts_bootView ..).trans <| (State.wr_bootView ..).trans (State.wr_bootView ..))).onDom d
  · exact h

theorem endDrain (h : s.Quiet ps) (d : Nat) : (s.endDrain d).Quiet ps := by
  unfold State.endDrain
  split
  · extract_lets s1 s2
    have h1 : s1.Quiet ps := (h.same (State.wr_bootView ..)).onDom d
    have h2 : s2.Quiet ps := h1.same (State.when_bootView s1 _ rfl)
    clear_value s2
    have h3 : (s2.wr F.NOC_DOM_STATUS_STATE domON 0 d).Quiet ps := h2.same (State.wr_bootView ..)
    exact h3.same (State.releaseHeld_bootView_of_noc h3.noc d)
  · exact h

/-! ### An excluded member -/

theorem excludeQueued (h : s.Quiet ps) (m a : Nat) : (s.excludeQueued m a).Quiet ps := by
  unfold State.excludeQueued
  extract_lets mine s1 s2
  have h1 : s1.Quiet ps := h.same (State.forEach_bootView s fun t _ => State.when_bootView t _ (State.onLink_bootView ..))
  clear_value s1
  have h2 : s2.Quiet ps := by
    dsimp only [s2]
    rw [h1.coh]
    exact h1
  refine State.forEach_induct h2 fun t k _ ht => ?_
  have hhome : t.home k = {} := by
    unfold State.home
    rw [ht.coh]
    rfl
  rw [hhome]
  exact ht

theorem excludeDirs (h : s.Quiet ps) (a : Nat) : (s.excludeDirs a).Quiet ps := by
  unfold State.excludeDirs
  rw [h.coh]
  exact h

theorem excludePf (h : s.Quiet ps) (m : Nat) : (s.excludePf m).Quiet ps := by
  unfold State.excludePf State.pfHeld
  rw [h.coh]
  exact h.same (by
    have := h.coh
    simp [State.bootView, this])

theorem excludeNow (h : s.Quiet ps) (m : Nat) : (s.excludeNow m).Quiet ps := by
  unfold State.excludeNow
  split
  · exact h
  · extract_lets a s1 s2 s3 _ s4 s5 s6
    have h3 : s3.Quiet ps := h.same ((State.sendMgt_bootView ..).trans <| (State.wr_bootView ..).trans <|
      (State.wr_bootView ..).trans (State.wr_bootView ..))
    have h5 : s5.Quiet ps := (h3.same rfl : s4.Quiet ps).excludeQueued m a
    clear_value s5
    have h6 : s6.Quiet ps := by
      dsimp only [s6]
      rw [h5.coh]
      exact h5
    exact (h6.excludeDirs a).excludePf m

end State.Quiet

/-- R397: a start from a cleared torus and coherence leaves them so. -/
theorem bootStable_quiet (ps : List Nat) : BootStable (State.Quiet ps) where
  same h ht := h.same ht
  wakeDom d h := h.wakeDom d
  endDrain d h := h.endDrain d
  excludeNow m h := h.excludeNow m

theorem floorBlind_stage : FloorBlind State.stage where
  wr _ _ _ _ _ _ := rfl
  smp _ _ := rfl
  txn _ _ := rfl
  free _ _ := rfl
  post _ _ _ _ _ _ := rfl
  dram _ _ := rfl
  pwr _ _ := rfl
  floor _ _ _ _ _ _ := rfl
  dom _ _ _ _ _ _ := rfl
  coh _ _ := rfl
  noc _ _ := rfl
  map _ _ := rfl
  gals _ _ := rfl
  cc _ _ := rfl
  ras _ _ := rfl
  nvs _ _ := rfl

/-- R397: a start from any state leaves the die running. -/
theorem bootStable_running : BootStable (fun s => s.stage = .running) where
  same h ht := (State.stage_of_bootView ht).trans h
  wakeDom d h := (floorBlind_stage.wakeDom _ d).trans h
  endDrain d h := (floorBlind_stage.endDrain _ d).trans h
  excludeNow m h := (State.excludeNow_stage _ m).trans h

end Sys2Proof.Machine

/-!
# Resets (R55, R371, R397 to R403, R420)
-/

namespace Sys2Proof.Machine

/-! ### What a reset clears and reads again -/

theorem State.perst_of_bootView {s t : State} (h : t.bootView = s.bootView) : t.perst = s.perst := congrArg (·.2.1) h

theorem State.Quiet.of_running {t : State} {st : Stage} {ps : List Nat} (h : t.bootView = (st, ps, [], {}, {})) :
    ({ t with stage := .running } : State).Quiet ps :=
  congrArg (fun v : Stage × List Nat × List HostReq × CohSt × NocSt => (Stage.running, v.2)) h

section
variable (s : State)

/-- A reset cuts an image write and nothing else of the flash. -/
theorem State.cutWrites_eq : ∃ a b, s.cutWrites = { s with flash := { s.flash with imgA := a, imgB := b } } := by
  unfold State.cutWrites
  split
  · exact ⟨s.flash.imgA, s.flash.imgB, rfl⟩
  · split
    · exact ⟨s.flash.imgA, s.flash.imgB, rfl⟩
    · split
      · exact ⟨s.flash.imgA, [], rfl⟩
      · exact ⟨[], s.flash.imgB, rfl⟩

/-- The view of a restart, and the time. -/
def State.wordsView : (Stage × List Nat × List HostReq × CohSt × NocSt) × TimeSt := (s.bootView, s.time)

theorem State.wr_wordsView (f : Field) (v i j : Nat) : (s.wr f v i j).wordsView = s.wordsView := rfl

theorem State.enterLc_wordsView (lc : Nat) : (s.enterLc lc).wordsView = s.wordsView := by
  unfold State.enterLc
  dsimp only
  split <;> rfl

theorem State.readCal_wordsView : s.readCal.wordsView = s.wordsView := by
  unfold State.readCal
  extract_lets s1 tally s2
  have h1 : s1.wordsView = s.wordsView := State.forEach_keeps (p := State.wordsView) fun t x => by
    split
    · rfl
    · exact (State.record_keeps (p := State.wordsView) _ _ _ _ _ _ _ _ (fun _ _ => rfl) (fun _ _ => rfl)
        fun _ _ _ _ _ _ => rfl).trans rfl
  have h2 : s2.wordsView = s1.wordsView := (State.wr_wordsView ..).trans (State.wr_wordsView ..)
  split
  · refine (State.forEach_keeps (p := State.wordsView) fun _ _ => ?_).trans (h2.trans h1)
    exact (State.wr_wordsView ..).trans (State.wr_wordsView ..)
  · refine (State.forEach_keeps (p := State.wordsView) fun _ _ => ?_).trans (h2.trans h1)
    exact (State.wr_wordsView ..).trans (State.wr_wordsView ..)

theorem State.newNonce_wordsView : s.newNonce.wordsView = s.wordsView :=
  State.forEach_keeps (p := State.wordsView) fun t _ => (State.wr_wordsView t.draw.2 ..).trans rfl

theorem State.fillSlot0_wordsView : s.fillSlot0.wordsView = s.wordsView := rfl

/-- R397: the words of the nonvolatile store read at a reset change neither the view of a restart nor the time. -/
theorem State.bootWords_wordsView : s.bootWords.wordsView = s.wordsView := by
  unfold State.bootWords
  refine (State.fillSlot0_wordsView _).trans <| (State.newNonce_wordsView _).trans <| (State.readCal_wordsView _).trans ?_
  split
  · exact State.enterLc_wordsView ..
  · rfl

theorem State.bootWords_slot0Ready : s.bootWords.rd F.KEY_STATUS_SLOT0_READY = 1 := by
  unfold State.bootWords State.fillSlot0
  exact State.rd_wr_same ..

theorem State.boot_bootDone : s.boot.rd F.GEN_STATUS_BOOT_DONE = 1 := by
  unfold State.boot State.bootFirmware
  exact State.rd_wr_same ..

theorem State.boot_stage : s.boot.stage = .running := bootStable_running.boot rfl

/-- R402: a WARM reset leaves the die running with no coherence, host request and message. -/
theorem State.warmReset_quiet (cause station : Nat) : (s.warmReset cause station).Quiet s.perst := by
  unfold State.warmReset
  extract_lets s1 s2
  have h2 : s2.perst = s.perst := State.perst_of_bootView ((State.record_bootView s1 ..).trans rfl)
  have hcleared : s2.cutWrites.clearWarm.bootView = (s2.cutWrites.stage, s.perst, [], {}, {}) := by
    obtain ⟨a, b, hcut⟩ := s2.cutWrites_eq
    rw [hcut, ← h2]
    rfl
  have hwords : s2.cutWrites.clearWarm.bootWords.bootView = _ := (congrArg (·.1) (State.bootWords_wordsView _)).trans hcleared
  exact (bootStable_quiet s.perst).boot (State.Quiet.of_running hwords)

theorem State.warmReset_bootDone (cause station : Nat) : (s.warmReset cause station).rd F.GEN_STATUS_BOOT_DONE = 1 :=
  State.boot_bootDone _

end

/-! ### The map's set-up -/

/-- A field that neither counts, an access put before its channel, the floors nor a domain change hangs on none of what the
floors change. -/
theorem floorBlind_rd {f : Field}
    (h : ∀ g ∈ countFields ++ postFields ++ floorFields ++ domFields, f.id % 2 ^ 32 ≠ g.id % 2 ^ 32) :
    FloorBlind (fun t => t.rd f) where
  wr g hg t v _ _ := State.rd_wr_of_id t v (h g (by simp [hg]))
  smp _ _ := rfl
  txn _ _ := rfl
  free _ _ := rfl
  post g hg t v _ _ := State.rd_wr_of_id t v (h g (by simp [hg]))
  dram _ _ := rfl
  pwr _ _ := rfl
  floor g hg t v _ _ := State.rd_wr_of_id t v (h g (by simp [hg]))
  dom g hg t v _ _ := State.rd_wr_of_id t v (h g (by simp [hg]))
  coh _ _ := rfl
  noc _ _ := rfl
  map _ _ := rfl
  gals _ _ := rfl
  cc _ _ := rfl
  ras _ _ := rfl
  nvs _ _ := rfl

section
variable (s : State)

theorem State.mapReady_memActive : s.mapReady.rd F.GEN_STATUS_MEM_ACTIVE = 1 := State.rd_wr_same ..

theorem State.mapReady_ready : s.mapReady.rd F.MAP_STATUS_READY = 1 := by
  unfold State.mapReady
  simp only [State.set_eq, State.clear_eq]
  rw [State.rd_wr_of_id _ _ (by decide), State.rd_wr_of_id _ _ (by decide), State.rd_wr_of_id _ _ (by decide),
    State.rd_wr_of_id _ _ (by decide)]
  exact State.rd_wr_same ..

/-- R83, R88: whether or not the structure's groups fit, the map ends ready. -/
theorem State.mapInit_cases : (∃ u : State, s.mapInit = u.mapReady) ∨ ∃ u : State, s.mapInit = u.mapReady.retarget := by
  unfold State.mapInit
  extract_lets gs fits
  clear_value fits
  cases fits with
  | none => exact .inl ⟨_, rfl⟩
  | some rs => exact .inr ⟨_, rfl⟩

theorem State.mapInit_ready : s.mapInit.rd F.MAP_STATUS_READY = 1 := by
  obtain ⟨u, hu⟩ | ⟨u, hu⟩ := s.mapInit_cases
  · rw [hu, State.mapReady_ready]
  · rw [hu]
    exact ((floorBlind_rd (f := F.MAP_STATUS_READY) (by decide)).retarget _).trans u.mapReady_ready

theorem State.mapInit_memActive : s.mapInit.rd F.GEN_STATUS_MEM_ACTIVE = 1 := by
  obtain ⟨u, hu⟩ | ⟨u, hu⟩ := s.mapInit_cases
  · rw [hu, State.mapReady_memActive]
  · rw [hu]
    exact ((floorBlind_rd (f := F.GEN_STATUS_MEM_ACTIVE) (by decide)).retarget _).trans u.mapReady_memActive

end

/-! ### The obligation -/

theorem exec_supplyLoss (s : State) :
    exec .supplyLoss s = .next { s.cutWrites.clearCold with stage := .coldReset } := rfl

theorem exec_coldResetRelease {s : State} (hs : s.stage = .coldReset) :
    exec .coldResetRelease s =
      .next ({ s.clearCold with time := { s.clearCold.time with strap := s.inl.slot }, stage := .selfTest } : State).bootWords := by
  change execColdResetRelease s = _
  unfold execColdResetRelease onInlet
  simp [hs]
  rfl

theorem exec_selfTestDone (bad : Option BadRow) {s : State} (hs : s.stage = .selfTest) :
    ∃ u : State, exec (.selfTestDone bad) s = .next u.boot := by
  change ∃ u : State, execSelfTestDone bad s = .next u.boot
  unfold execSelfTestDone onInlet
  cases bad <;> simp only [hs, bne_self_eq_false, Bool.false_eq_true, if_false] <;> exact ⟨_, rfl⟩

theorem exec_perstLFall {station : Fin 8} {s : State} (hs : s.stage = .running) (hp : s.perst.contains station.val = false) :
    exec (.perstLFall station) s = .next (({ s with perst := s.perst ++ [station.val] } : State).warmReset 1 station) := by
  change execPerstLFall station s = _
  unfold execPerstLFall onInlet
  dsimp only
  rw [if_neg (by rw [hp]; decide), if_pos (by simp [State.clocked, hs])]

theorem exec_genRst {who : Initiator} {v : BitVec 32} {s : State} (hs : Permitted s who 0x18 true)
    (hkey : v.toNat / 2 ^ 16 = 0xA5C3) (hgo : v.toNat % 2 = 1) :
    exec (.genRst who v) s = .next ((s.dropHalves who (F.GEN_RST_GO.addr 0 0)).warmReset 2 0) := by
  have hof : F.GEN_RST_KEY.of v.toNat = 0xA5C3 := by
    change v.toNat / 2 ^ 16 % 2 ^ 16 = _
    rw [hkey]
    decide
  change execGenRst who v s = _
  unfold execGenRst
  rw [onDie_running hs.1, barWrite_permitted (off := F.GEN_RST_GO.addr 0 0) hs]
  unfold State.genRst
  rw [hof, hgo]
  rfl

theorem exec_thermalShutdown {s : State} (hs : s.clocked = true) :
    exec .thermalShutdown s = .next { s.selfRefresh.set F.FWC_STATUS_LAST_THERMTRIP with stage := .stopped } := by
  change execThermalShutdown s = _
  unfold execThermalShutdown onClock
  rw [if_pos hs]

theorem exec_mapInitDone {s : State} (hs : s.stage = .running) (hr : s.rd F.MAP_STATUS_READY = 0) (ht : s.allTrained = true) :
    exec .mapInitDone s = .next s.mapInit := by
  change execMapInitDone s = _
  unfold execMapInitDone
  rw [onDie_running hs]
  simp [State.on, hr, ht]

/-- Settles O9: a restart goes through the start from a cleared torus and coherence, and every part of the start keeps them
and the stage. -/
theorem resets : Obligations.Resets := by
  refine ⟨fun s => ?_, fun s hs => ?_, fun bad s hs => ?_, fun st s hs hp => ?_, fun st s => ⟨_, rfl, rfl⟩,
    fun who v s hs hkey hgo => ?_, fun s hs => ?_, fun s hs hr ht => ?_⟩
  · refine ⟨_, exec_supplyLoss s, ?_⟩
    obtain ⟨a, b, hcut⟩ := s.cutWrites_eq
    rw [hcut]
    exact ⟨rfl, rfl, rfl, rfl, rfl, rfl, rfl, rfl, rfl, rfl⟩
  · have hview := State.bootWords_wordsView
      { s.clearCold with time := { s.clearCold.time with strap := s.inl.slot }, stage := .selfTest }
    exact ⟨_, exec_coldResetRelease hs, congrArg (·.1.1) hview, congrArg (·.2.strap) hview, State.bootWords_slot0Ready _⟩
  · obtain ⟨u, hu⟩ := exec_selfTestDone bad hs
    exact ⟨_, hu, u.boot_stage, u.boot_bootDone⟩
  · have hq := State.warmReset_quiet { s with perst := s.perst ++ [st.val] } 1 st
    exact ⟨_, exec_perstLFall hs hp, hq.stage, State.warmReset_bootDone .., hq.perst, hq.coh, hq.reqs⟩
  · have hq := State.warmReset_quiet (s.dropHalves who (F.GEN_RST_GO.addr 0 0)) 2 0
    exact ⟨_, exec_genRst hs hkey hgo, hq.stage, State.warmReset_bootDone .., hq.coh, hq.reqs⟩
  · have hset : (s.selfRefresh.set F.FWC_STATUS_LAST_THERMTRIP).rd F.FWC_STATUS_LAST_THERMTRIP = 1 := State.rd_wr_same ..
    exact ⟨_, exec_thermalShutdown hs, rfl, hset⟩
  · exact ⟨_, exec_mapInitDone hs hr ht, s.mapInit_ready, s.mapInit_memActive⟩

end Sys2Proof.Machine

/-!
# The space-hold limit (R111)

Applying a structure sets HOLD_US before the Turnstile, the counters, the inlet die and the floors show it: what they set
leaves HOLD_US.
-/

namespace Sys2Proof.Machine

/-- The fields that the last steps of applying a structure set, the floors apart. -/
def appliedFields : List Field :=
  [F.TST_M_LIM_GUAR, F.TST_M_LIM_CEIL, F.TST_M_LAT_LAT_NS, F.TIM_CAL_CTL_ACTION, F.TIM_CAL_CTL_MODE, F.TIM_CAL_PERIOD_PERIOD,
   F.TST_WIN_WINDOW_US, F.TST_SCRUBMIN_SCRUB_MIN, F.TST_STATUS_BUDGET_UNSET, F.TST_SUM_S, F.TST_SUM_B, F.TST_STATUS_OVERCOMMIT,
   F.TST_IRQ_OVERCOMMIT, F.TST_M_EGUAR_EGUAR, F.CNT_SEL_EN, F.CNT_SEL_SAMPLE, F.CNT_SEL_IRQ_EN, F.CNT_SEL_EVENT,
   F.CNT_SEL_QUAL, F.CNT_PER_PERIOD, F.CNT_CTR_COUNT, F.INL_CH_LIMIT_ILIM, F.INL_CH_LIMIT_TLIM, F.INL_CH_LIMIT_FAULT_US,
   F.TIM_STATUS_SLOT_MISMATCH, F.TIM_IRQ_SLOT_MISMATCH]

theorem State.rd_loadForce (s : State) {g : Field} {i j : Nat} : s.loadForce.rd g i j = s.rd g i j := rfl

section
variable {g : Field} {i j : Nat} (h : ∀ f ∈ appliedFields, g.id % 2 ^ 32 ≠ f.id % 2 ^ 32) (s : State)
include h

theorem State.rd_wr_applied {f : Field} (hf : f ∈ appliedFields) (v k l : Nat) : (s.wr f v k l).rd g i j = s.rd g i j :=
  State.rd_wr_of_id s v (h f hf)

theorem State.rd_applyTsc : (s.applyTsc []).rd g i j = s.rd g i j := by
  unfold State.applyTsc
  refine State.forEach_keeps (p := fun t : State => t.rd g i j) fun t e => ?_
  exact (State.rd_wr_applied h _ (by simp [appliedFields]) ..).trans <|
    (State.rd_wr_applied h _ (by simp [appliedFields]) ..).trans (State.rd_wr_applied h t (by simp [appliedFields]) ..)

theorem State.rd_firstWindow (us : Nat) : (s.firstWindow us).rd g i j = s.rd g i j :=
  (State.rd_wr_applied h _ (f := F.TST_WIN_WINDOW_US) (by simp [appliedFields]) ..).trans <|
    (State.rd_wr_applied h _ (by simp [appliedFields]) ..).trans <|
      (State.rd_wr_applied h _ (by simp [appliedFields]) ..).trans (State.rd_wr_applied h s (by simp [appliedFields]) ..)

theorem State.rd_effective : s.effective.rd g i j = s.rd g i j := by
  unfold State.effective
  extract_lets w lpus smin b e89 rest sum left excess s1 s2 s3 s4
  have h1 : s1.rd g i j = s.rd g i j :=
    (State.rd_wr_applied h _ (by simp [appliedFields]) ..).trans (State.rd_wr_applied h s (by simp [appliedFields]) ..)
  have h2 : s2.rd g i j = s1.rd g i j :=
    (State.rd_wr_applied h _ (by simp [appliedFields]) ..).trans (State.rd_wr_applied h s1 (by simp [appliedFields]) ..)
  have h3 : s3.rd g i j = s2.rd g i j :=
    (State.when_keeps (p := fun t : State => t.rd g i j) _ _ (State.rd_wr_applied h _ (by simp [appliedFields]) ..)).trans
      (State.rd_wr_applied h s2 (by simp [appliedFields]) ..)
  have h4 : s4.rd g i j = s3.rd g i j := State.rd_wr_applied h s3 (by simp [appliedFields]) ..
  refine (State.forEach_keeps (p := fun t : State => t.rd g i j) fun t m => ?_).trans (h4.trans (h3.trans (h2.trans h1)))
  exact State.rd_wr_applied h t (by simp [appliedFields]) ..

theorem State.rd_loadSampling (u k : Nat) : (s.loadSampling u k).rd g i j = s.rd g i j :=
  ite_keeps (p := fun t : State => t.rd g i j) _ (State.rd_wr_applied h s (by simp [appliedFields]) ..) rfl

theorem State.rd_applyCntd : (s.applyCntd []).rd g i j = s.rd g i j := by
  unfold State.applyCntd
  refine State.forEach_keeps (p := fun t : State => t.rd g i j) fun t e => ?_
  have hwr : ∀ (u : State) (f : Field) (v k l : Nat), f ∈ appliedFields → (u.wr f v k l).rd g i j = u.rd g i j :=
    fun u _ v k l hf => State.rd_wr_applied h u hf v k l
  exact (State.rd_loadSampling h ..).trans <| (hwr _ F.CNT_CTR_COUNT _ _ _ (by simp [appliedFields])).trans <|
    (hwr _ F.CNT_PER_PERIOD _ _ _ (by simp [appliedFields])).trans <| (hwr _ F.CNT_SEL_QUAL _ _ _ (by simp [appliedFields])).trans <|
      (hwr _ F.CNT_SEL_EVENT _ _ _ (by simp [appliedFields])).trans <|
        (hwr _ F.CNT_SEL_IRQ_EN _ _ _ (by simp [appliedFields])).trans <|
          (hwr _ F.CNT_SEL_SAMPLE _ _ _ (by simp [appliedFields])).trans (hwr t F.CNT_SEL_EN _ _ _ (by simp [appliedFields]))

theorem State.rd_inlLimits : s.inlLimits.rd g i j = s.rd g i j := by
  unfold State.inlLimits
  extract_lets now new t
  refine Eq.trans rfl (State.forEach_keeps (p := fun t : State => t.rd g i j) fun u c => ?_ : t.rd g i j = s.rd g i j)
  extract_lets u1 u2
  have h1 : u1.rd g i j = u.rd g i j :=
    ite_keeps (p := fun t : State => t.rd g i j) _ (State.rd_wr_applied h u (by simp [appliedFields]) ..) rfl
  have h2 : u2.rd g i j = u1.rd g i j :=
    ite_keeps (p := fun t : State => t.rd g i j) _ (State.rd_wr_applied h u1 (by simp [appliedFields]) ..) rfl
  exact (ite_keeps (p := fun t : State => t.rd g i j) _ (State.rd_wr_applied h u2 (by simp [appliedFields]) ..) rfl).trans
    (h2.trans h1)

theorem State.rd_slotCheck (hrec : ∀ f ∈ recordFields 2, g.id % 2 ^ 32 ≠ f.id % 2 ^ 32) : s.slotCheck.rd g i j = s.rd g i j := by
  refine ite_keeps (p := fun t : State => t.rd g i j) _ rfl ((State.rd_record_ne _ _ _ _ _ _ _ _ hrec).trans ?_)
  exact (State.rd_wr_applied h _ (f := F.TIM_IRQ_SLOT_MISMATCH) (by simp [appliedFields]) ..).trans
    (State.rd_wr_applied h s (by simp [appliedFields]) ..)

end

/-- R111: HOLD_US after a structure has been applied. -/
theorem State.rd_applyStructure_holdUs (s : State) (ss : Sections) : (s.applyStructure ss).rd F.MAP_HOLD_HOLD_US =
    min (le (ss.get secTIER) 0 2) (ss.limitVal 2) % 2 ^ F.MAP_HOLD_HOLD_US.width := by
  have happlied : ∀ f ∈ appliedFields, F.MAP_HOLD_HOLD_US.id % 2 ^ 32 ≠ f.id % 2 ^ 32 := by decide +kernel
  unfold State.applyStructure
  extract_lets s1 s2 s3 s4 s5 s6
  calc _ = s6.rd F.MAP_HOLD_HOLD_US := ((floorBlind_rd (by decide)).showTols _).trans <|
        (State.rd_slotCheck happlied _ (by decide)).trans <| (State.rd_inlLimits happlied _).trans (State.rd_applyCntd happlied _)
    _ = s5.rd F.MAP_HOLD_HOLD_US := (State.rd_effective happlied (State.loadForce _)).trans <|
        (State.rd_loadForce _).trans <| (State.rd_firstWindow happlied ..).trans (State.rd_applyTsc happlied _)
    _ = s4.rd F.MAP_HOLD_HOLD_US := State.forEach_keeps (p := fun t : State => t.rd F.MAP_HOLD_HOLD_US) fun t x =>
        State.rd_wr_of_id t _ (by decide)
    _ = _ := State.rd_wr_same ..

/-- R112: a write of MAP_HOLD. -/
theorem State.writeReg_mapHold (s : State) (who : Initiator) (v : Nat) : s.writeReg who (F.MAP_HOLD_HOLD_US.addr 0 0) v =
    s.wr F.MAP_HOLD_HOLD_US (clamp 1 (s.secs.limitVal 2) (v % 2 ^ 10)) := by
  have hfields : fieldsAt (F.MAP_HOLD_HOLD_US.addr 0 0) = [(F.MAP_HOLD_HELD, 0, 0), (F.MAP_HOLD_HOLD_US, 0, 0)] := by
    decide +kernel
  have hlive : s.liveReg (F.MAP_HOLD_HOLD_US.addr 0 0) = true := by simp only [State.liveReg, hfields]; rfl
  have hof : F.MAP_HOLD_HOLD_US.of v = v % 2 ^ 10 := congrArg (· % 2 ^ 10) (Nat.div_one v)
  have hmap : s.writeReg who (F.MAP_HOLD_HOLD_US.addr 0 0) v = s.writeMap who (F.MAP_HOLD_HOLD_US.addr 0 0) v := by
    simp only [State.writeReg, hlive]
    rfl
  rw [hmap, ← hof]
  rfl

/-- Settles O58: what a structure's application leaves of HOLD_US, and the clamp of a write. -/
theorem holdTime : Obligations.HoldTime := by
  refine ⟨fun ss s hle hmax => ?_, fun ss hnone => ?_, fun ss m hm => ?_, fun who data s off hoff hp hlo hhi => ?_⟩
  · have hlt : le (ss.get secTIER) 0 2 < 2 ^ F.MAP_HOLD_HOLD_US.width :=
      Nat.lt_of_le_of_lt (hle.trans hmax) (by decide)
    rw [State.rd_applyStructure_holdUs, min_eq_left hle, Nat.mod_eq_of_lt hlt]
  · have hfind : ss.limo.find? (·.1 == 2) = none := List.find?_eq_none.2 fun x hx => by simpa using hnone x hx
    rw [Sections.limitVal, hfind]
    rfl
  · rw [Sections.limitVal, hm]
  · have hrd : ∀ v ≤ 1000, v % 2 ^ F.MAP_HOLD_HOLD_US.width = v := fun v hv =>
      Nat.mod_eq_of_lt (Nat.lt_of_le_of_lt hv (by decide))
    refine ⟨_, exec_registerWrite data hp (by rw [hoff]; decide) (by rw [hoff]; decide), ?_⟩
    have hsecs : (s.dropHalves who off.toNat).secs = s.secs := rfl
    have hclamp : clamp 1 (s.secs.limitVal 2) (data.toNat % 2 ^ 10) ≤ 1000 := by unfold clamp; omega
    dsimp only
    rw [hoff, State.writeReg_mapHold, State.rd_wr_same, ← hoff, hsecs, hrd _ hclamp]
    unfold clamp
    omega

end Sys2Proof.Machine

/-!
# Accesses through the map cache (R87, R89, R101, R112)
-/

namespace Sys2Proof.Machine

/-! ### What a line taken into the map cache leaves -/

/-- What hangs on nothing that an access put before its channel changes and not on the map cache: nothing that bringing a line
into the cache, or writing one back, changes. -/
structure CacheBlind {β : Type} (p : State → β) : Prop extends PostBlind p where
  cache : ∀ (t : State) l, p { t with map := { t.map with cache := l } } = p t

namespace CacheBlind

variable {β : Type} {p : State → β} (hp : CacheBlind p) (s : State)
include hp

theorem mapWriteBack (t : MapTag) (m : Nat) : p (s.mapWriteBack t m) = p s := by
  unfold State.mapWriteBack
  dsimp only
  split
  · exact hp.cache s _
  · exact (hp.postMa ..).trans (hp.cache s _)

theorem mapFill (t : MapTag) (m : Nat) : p (s.mapFill t m) = p s := by
  unfold State.mapFill
  dsimp only
  refine ite_keeps _ rfl ((hp.cache _ _).trans (ite_keeps _ rfl ?_))
  split
  · exact hp.free s _
  · exact (hp.cache _ _).trans (ite_keeps _ ((hp.mapWriteBack ..).trans (hp.free s _)) (hp.free s _))

theorem mapTouch (t : MapTag) (m : Nat) : p (s.mapTouch t m) = p s := by
  unfold State.mapTouch
  extract_lets s1
  have h1 : p s1 = p s := by
    refine ite_keeps _ rfl ?_
    split
    · exact hp.mapFill ..
    · exact (hp.mapFill ..).trans (hp.postMa ..)
  exact (ite_keeps (s := s1) _ (hp.cache s1 _) rfl).trans h1

end CacheBlind

/-- The map but for its cache, and DRAM. -/
def State.entriesView (s : State) : MapSt × List Host.Cell := ({ s.map with cache := [] }, s.mem)

theorem cacheBlind_entriesView : CacheBlind State.entriesView where
  wr _ _ _ _ _ _ := rfl
  smp _ _ := rfl
  txn _ _ := rfl
  free _ _ := rfl
  post _ _ _ _ _ _ := rfl
  dram _ _ := rfl
  pwr _ _ := rfl
  cache _ _ := rfl

theorem cacheBlind_rd {f : Field} (h : ∀ g ∈ countFields ++ postFields, f.id % 2 ^ 32 ≠ g.id % 2 ^ 32) {i j : Nat} :
    CacheBlind (fun t => t.rd f i j) where
  wr g hg t v _ _ := State.rd_wr_of_id t v (h g (by simp [hg]))
  smp _ _ := rfl
  txn _ _ := rfl
  free _ _ := rfl
  post g hg t v _ _ := State.rd_wr_of_id t v (h g (by simp [hg]))
  dram _ _ := rfl
  pwr _ _ := rfl
  cache _ _ := rfl

section
variable {s t : State}

/-- A page's entry is what the map lists for it, and what the map holds for a page that it does not list. -/
theorem State.pme_of_entriesView (h : t.entriesView = s.entriesView) (p : Nat) : t.pme p = s.pme p :=
  congrArg (fun v : MapSt × List Host.Cell => ({ s with map := v.1 } : State).pme p) h

theorem State.pme_of_map (h : t.map = s.map) (p : Nat) : t.pme p = s.pme p := by
  unfold State.pme State.pmeDflt
  rw [h]

/-- R87: whether an entry is lost hangs on the map and on the size of the twin table. -/
theorem State.lost_of_map (h : t.map = s.map) (hc : t.rd F.MAP_TWIN_CFG_CHUNKS = s.rd F.MAP_TWIN_CFG_CHUNKS) (p : Nat) :
    t.lost p = s.lost p := by
  unfold State.lost State.locOk State.inHeap State.chunk State.chunkDflt State.chunkGroup State.resvOf State.twin
  rw [State.pme_of_map h, h, hc]

/-! ### Entries -/

theorem State.moveUse_map (s : State) (a b : Nat) : (s.moveUse a b).map = s.map := by
  unfold State.moveUse
  split <;> rfl

theorem State.putPme_map (s : State) (p : Nat) (x : Pme) :
    (s.putPme p x).map = { s.map with pmes := smSet (s.pmeDflt p) s.map.pmes p x } := by
  unfold State.putPme
  exact State.moveUse_map ..

/-- An entry that is put is the page's entry then, and no other page's entry changes. -/
theorem State.pme_putPme (s : State) (p q : Nat) (x : Pme) : (s.putPme p x).pme q = if q = p then x else s.pme q := by
  rw [State.pme, State.pmeDflt, State.putPme_map]
  split
  · subst q
    exact smGet_smSet_same ..
  · exact smGet_smSet_ne _ _ _ _ (by assumption)

theorem State.pme_mapTouch (s : State) (g : MapTag) (m q : Nat) : (s.mapTouch g m).pme q = s.pme q :=
  State.pme_of_entriesView (cacheBlind_entriesView.mapTouch ..) q

/-- R89: an entry set through its slice. -/
theorem State.pme_setPme (s : State) (p q : Nat) (x : Pme) (m : Nat) : (s.setPme p x m).pme q = if q = p then x else s.pme q := by
  unfold State.setPme
  rw [State.pme_putPme, State.pme_mapTouch]

end

/-! ### MAP_PME_OP (R112) -/

/-- MAP_PME_OP. -/
theorem fieldsAt_pmeOp : fieldsAt 0xC00038 =
    [(F.MAP_PME_OP_DONE, 0, 0), (F.MAP_PME_OP_RESULT, 0, 0), (F.MAP_PME_OP_AGE, 0, 0), (F.MAP_PME_OP_OP, 0, 0)] := by
  decide +kernel

section
variable {s : State} {who : Initiator} {op p : Nat} {age : BitVec 8}

/-- The state in which an operation of MAP_PME_OP begins: its AGE is written, and DONE is set. -/
def State.pmeBegun (s : State) (who : Initiator) (age : BitVec 8) : State :=
  ((s.dropHalves who 0xC00038).wr F.MAP_PME_OP_AGE age.toNat).set F.MAP_PME_OP_DONE

/-- What an operation of MAP_PME_OP does to page `p`, whose entry can be read. -/
def State.pmeAct (s : State) (op p : Nat) : State :=
  match op with
  | 1 => ((s.mapTouch ⟨false, p / 4, false⟩ 80).wr F.MAP_PME_LO_PME (s.pme p).word).wr F.MAP_PME_HI_PME ((s.pme p).word / 2 ^ 64)
  | 2 => s.setPme p { s.pme p with pin := true } 80
  | 3 => s.setPme p { s.pme p with pin := false } 80
  | 4 => s.setPme p { s.pme p with poison := true } 80
  | _ => s.setPme p { s.pme p with age := s.rd F.MAP_PME_OP_AGE } 80

theorem State.rd_pmeBegun {f : Field} (h : ∀ g ∈ [F.MAP_PME_OP_AGE, F.MAP_PME_OP_DONE], f.id % 2 ^ 32 ≠ g.id % 2 ^ 32) :
    (s.pmeBegun who age).rd f = s.rd f :=
  (State.rd_wr_of_id _ _ (h F.MAP_PME_OP_DONE (by simp))).trans
    (State.rd_wr_of_id (s.dropHalves who 0xC00038) _ (h F.MAP_PME_OP_AGE (by simp)))

theorem State.rd_pmeBegun_age : (s.pmeBegun who age).rd F.MAP_PME_OP_AGE = age.toNat :=
  (State.rd_wr_of_id _ _ (by decide)).trans <| (State.rd_wr_same ..).trans (Nat.mod_eq_of_lt age.isLt)

theorem State.rd_pmeBegun_done : (s.pmeBegun who age).rd F.MAP_PME_OP_DONE = 1 := State.rd_wr_same ..

theorem State.lost_pmeBegun : (s.pmeBegun who age).lost p = s.lost p :=
  State.lost_of_map (s := s) (t := s.pmeBegun who age) rfl (State.rd_pmeBegun (f := F.MAP_TWIN_CFG_CHUNKS) (by decide)) p

/-- The commands that write MAP_PME_OP, each with its OP. -/
def pmeCommands (who : Initiator) (age : BitVec 8) : List (Nat × Instr) :=
  [(1, .pmeRead who age), (2, .pmeSetPin who age), (3, .pmeClearPin who age), (4, .pmeSetPoison who age),
    (5, .pmeWriteAge who age)]

theorem mem_ops_of_mem_pmeCommands {c : Nat × Instr} (hc : c ∈ pmeCommands who age) : c.1 ∈ [1, 2, 3, 4, 5] :=
  List.mem_map_of_mem (f := Prod.fst) hc

/-- A write of MAP_PME_OP sets AGE, and its operation follows. -/
theorem State.writeMap_pmeOp (hop : op < 8) : s.writeMap who 0xC00038 (op + 256 * age.toNat) =
    (s.wr F.MAP_PME_OP_AGE age.toNat).pmeOp op := by
  have hage := age.isLt
  have hofOp : F.MAP_PME_OP_OP.of (op + 256 * age.toNat) = op := by
    change (op + 256 * age.toNat) / 2 ^ 0 % 2 ^ 3 = op
    omega
  have hofAge : F.MAP_PME_OP_AGE.of (op + 256 * age.toNat) = age.toNat := by
    change (op + 256 * age.toNat) / 2 ^ 8 % 2 ^ 8 = age.toNat
    omega
  have hword : s.writeWord who 0xC00038 (op + 256 * age.toNat) =
      s.wr F.MAP_PME_OP_AGE (F.MAP_PME_OP_AGE.of (op + 256 * age.toNat)) := by
    rw [State.writeWord, fieldsAt_pmeOp]
    rfl
  calc s.writeMap who 0xC00038 (op + 256 * age.toNat)
    _ = (s.writeWord who 0xC00038 (op + 256 * age.toNat)).pmeOp (F.MAP_PME_OP_OP.of (op + 256 * age.toNat)) := rfl
    _ = _ := by rw [hword, hofAge, hofOp]

/-- R112: an operation of MAP_PME_OP, by the page. -/
theorem exec_pmeCommand (h : Permitted s who 0xC00038 true) : ∀ c ∈ pmeCommands who age, exec c.2 s = .next
    (if s.secs.pages ≤ s.rd F.MAP_PME_IDX_PAGE then (s.pmeBegun who age).wr F.MAP_PME_OP_RESULT 1
    else if s.lost (s.rd F.MAP_PME_IDX_PAGE) then
      ((s.pmeBegun who age).noteLost (s.rd F.MAP_PME_IDX_PAGE)).wr F.MAP_PME_OP_RESULT 2
    else ((s.pmeBegun who age).wr F.MAP_PME_OP_RESULT 0).pmeAct c.1 (s.rd F.MAP_PME_IDX_PAGE)) := by
  have hidx : ((s.dropHalves who 0xC00038).wr F.MAP_PME_OP_AGE age.toNat).rd F.MAP_PME_IDX_PAGE = s.rd F.MAP_PME_IDX_PAGE :=
    State.rd_wr_of_id (s.dropHalves who 0xC00038) _ (by decide)
  have hcmd : ∀ op ∈ [1, 2, 3, 4, 5], s.pmeCmd who op age =
      ((s.dropHalves who 0xC00038).wr F.MAP_PME_OP_AGE age.toNat).pmeOp op := fun op hop => by
    rw [State.pmeCmd, barWrite_permitted h, State.writeMap_pmeOp (by simp at hop; omega)]
  have hop : ∀ op ∈ [1, 2, 3, 4, 5], s.pmeCmd who op age =
      (if s.secs.pages ≤ s.rd F.MAP_PME_IDX_PAGE then (s.pmeBegun who age).wr F.MAP_PME_OP_RESULT 1
      else if s.lost (s.rd F.MAP_PME_IDX_PAGE) then
        ((s.pmeBegun who age).noteLost (s.rd F.MAP_PME_IDX_PAGE)).wr F.MAP_PME_OP_RESULT 2
      else ((s.pmeBegun who age).wr F.MAP_PME_OP_RESULT 0).pmeAct op (s.rd F.MAP_PME_IDX_PAGE)) := fun op hop => by
    rw [hcmd op hop, State.pmeOp, if_neg (by simp at hop ⊢; omega), hidx]
    have hlost : (((s.dropHalves who 0xC00038).wr F.MAP_PME_OP_AGE age.toNat).set F.MAP_PME_OP_DONE).lost
        (s.rd F.MAP_PME_IDX_PAGE) = s.lost (s.rd F.MAP_PME_IDX_PAGE) := State.lost_pmeBegun
    rw [← hlost]
    fin_cases hop <;> rfl
  have hdie : ∀ op ∈ [1, 2, 3, 4, 5], onDie s (fun s => s.pmeCmd who op age) = .next _ := fun op ho =>
    (onDie_running h.1).trans (congrArg Host.Outcome.next (hop op ho))
  intro c hc
  simp only [pmeCommands, List.mem_cons, List.not_mem_nil, or_false] at hc
  obtain rfl | rfl | rfl | rfl | rfl := hc
  · exact hdie 1 (by simp)
  · exact hdie 2 (by simp)
  · exact hdie 3 (by simp)
  · exact hdie 4 (by simp)
  · exact hdie 5 (by simp)

/-! ### What the operations leave (Table 4-12) -/

theorem State.pme_pmeBegun (q : Nat) : ((s.pmeBegun who age).wr F.MAP_PME_OP_RESULT 0).pme q = s.pme q :=
  State.pme_of_map (s := s) rfl q

theorem State.pmeAct_read : s.pmeAct 1 p =
    ((s.mapTouch ⟨false, p / 4, false⟩ 80).wr F.MAP_PME_LO_PME (s.pme p).word).wr F.MAP_PME_HI_PME ((s.pme p).word / 2 ^ 64) :=
  rfl

/-- What an operation of MAP_PME_OP makes of its page's entry. -/
def Pme.operated (x : Pme) (op age : Nat) : Pme :=
  match op with
  | 1 => x
  | 2 => { x with pin := true }
  | 3 => { x with pin := false }
  | 4 => { x with poison := true }
  | _ => { x with age := age }

/-- R112: an operation changes its page's entry alone, and a read no entry. -/
theorem State.pme_pmeAct (s : State) (p q : Nat) {op : Nat} (hop : op ∈ [1, 2, 3, 4, 5]) :
    (s.pmeAct op p).pme q = if q = p then (s.pme q).operated op (s.rd F.MAP_PME_OP_AGE) else s.pme q := by
  have hset : ∀ x, (s.setPme p x 80).pme q = if q = p then x else s.pme q := fun x => State.pme_setPme ..
  have hread : (s.pmeAct 1 p).pme q = s.pme q := by
    rw [State.pmeAct_read, State.pme_of_map ((State.wr_map ..).trans (State.wr_map ..)), State.pme_mapTouch]
  simp only [List.mem_cons, List.not_mem_nil, or_false] at hop
  obtain rfl | rfl | rfl | rfl | rfl := hop
  · exact hread.trans (ite_self _).symm
  all_goals
    refine (hset _).trans ?_
    split
    · subst q
      rfl
    · rfl

/-- R112: a read shows the entry's 128 bits. -/
theorem State.rd_pmeAct_read : (s.pmeAct 1 p).rd F.MAP_PME_LO_PME = (s.pme p).word % 2 ^ 64 ∧
    (s.pmeAct 1 p).rd F.MAP_PME_HI_PME = (s.pme p).word / 2 ^ 64 % 2 ^ 64 := by
  have hlo : F.MAP_PME_LO_PME.width = 64 := rfl
  have hhi : F.MAP_PME_HI_PME.width = 64 := rfl
  rw [State.pmeAct_read]
  exact ⟨by rw [State.rd_wr_of_id _ _ (by decide), State.rd_wr_same, hlo], by rw [State.rd_wr_same, hhi]⟩

theorem State.rd_pmeAct_read_ne {f : Field}
    (h : ∀ g ∈ countFields ++ postFields ++ [F.MAP_PME_LO_PME, F.MAP_PME_HI_PME], f.id % 2 ^ 32 ≠ g.id % 2 ^ 32) :
    (s.pmeAct 1 p).rd f = s.rd f := by
  rw [State.pmeAct_read]
  exact (State.rd_wr_of_id _ _ (h F.MAP_PME_HI_PME (by simp))).trans <|
    (State.rd_wr_of_id _ _ (h F.MAP_PME_LO_PME (by simp))).trans <|
      (cacheBlind_rd fun g hg => h g (List.mem_append_left _ hg)).mapTouch s _ _

theorem State.noteLost_frame (s : State) (p : Nat) : (s.noteLost p).map = s.map ∧ (s.noteLost p).mem = s.mem ∧
    (s.noteLost p).rd F.MAP_PME_OP_DONE = s.rd F.MAP_PME_OP_DONE := by
  have hbump : ∀ t : State, (t.map = s.map ∧ t.mem = s.mem ∧ t.rd F.MAP_PME_OP_DONE = s.rd F.MAP_PME_OP_DONE) →
      ((t.set F.MAP_IRQ_PME_ERR).record 0x05 1 rasMAP 0 p).map = s.map ∧
      ((t.set F.MAP_IRQ_PME_ERR).record 0x05 1 rasMAP 0 p).mem = s.mem ∧
      ((t.set F.MAP_IRQ_PME_ERR).record 0x05 1 rasMAP 0 p).rd F.MAP_PME_OP_DONE = s.rd F.MAP_PME_OP_DONE :=
    fun t ⟨hmap, hmem, hdone⟩ => ⟨(State.record_map ..).trans hmap, (State.record_mem ..).trans hmem,
      (State.rd_record_ne _ _ _ _ _ _ _ _ (by decide)).trans <| (State.rd_wr_of_id t _ (by decide)).trans hdone⟩
  refine hbump _ ?_
  split <;> exact ⟨rfl, rfl, State.rd_wr_of_id s _ (by decide)⟩

/-! ### MAP_TWIN_CFG (R101) -/

theorem exec_twinCfgWrite {v : BitVec 64} (h : Permitted s who 0xC00050 true) : exec (.twinCfgWrite who v) s =
    .next (((s.dropHalves who 0xC00050).wr F.MAP_TWIN_CFG_EN (F.MAP_TWIN_CFG_EN.of v.toNat)).twinChunks
      (F.MAP_TWIN_CFG_CHUNKS.of v.toNat)) := by
  change execTwinCfgWrite who v s = _
  rw [execTwinCfgWrite, onDie_running h.1, barWrite_permitted h]
  rfl

/-- R101: while there is a twinned page the table stays. -/
theorem State.twinChunks_twinned (h : s.on F.MAP_TIERCNT_PAGES 0 5 = true) (n : Nat) : s.twinChunks n = s := if_pos h

end

/-- Settles O22: each operation by what it does to an entry that can be read, and by its RESULT otherwise. -/
theorem pageAccess : Obligations.PageAccess := by
  refine ⟨fun who age s hp => ⟨fun hin hlost => ?page, ?stopped⟩, fun who v s hp => ?twin⟩
  case page =>
    have hexec := exec_pmeCommand (age := age) hp
    simp only [if_neg (Nat.not_le.2 hin), hlost, Bool.false_eq_true, if_false] at hexec
    have hentry : ∀ c ∈ pmeCommands who age, Does c.2 s (fun t => ∀ q, t.pme q =
        if q = s.rd F.MAP_PME_IDX_PAGE then (s.pme q).operated c.1 age.toNat else s.pme q) := fun c hc =>
      ⟨_, hexec c hc, fun q => by
        rw [State.pme_pmeAct _ _ _ (mem_ops_of_mem_pmeCommands hc), State.pme_pmeBegun, State.rd_wr_of_id _ _ (by decide),
          State.rd_pmeBegun_age]⟩
    obtain ⟨hlo, hhi⟩ := State.rd_pmeAct_read (s := (s.pmeBegun who age).wr F.MAP_PME_OP_RESULT 0) (p := s.rd F.MAP_PME_IDX_PAGE)
    rw [State.pme_pmeBegun] at hlo hhi
    refine ⟨⟨_, hexec (1, .pmeRead who age) (by simp [pmeCommands]), hlo, hhi, ?_, ?_, fun q => ?_⟩,
      hentry (2, _) (by simp [pmeCommands]), hentry (3, _) (by simp [pmeCommands]), hentry (4, _) (by simp [pmeCommands]),
      hentry (5, _) (by simp [pmeCommands])⟩
    · rw [State.rd_pmeAct_read_ne (by decide), State.rd_wr_of_id _ _ (by decide), State.rd_pmeBegun_done]
    · rw [State.rd_pmeAct_read_ne (by decide)]
      exact State.rd_wr_same ..
    · rw [State.pme_pmeAct _ _ _ (by simp), State.pme_pmeBegun]
      exact ite_self _
  case stopped =>
    intro c hc
    obtain ⟨op, hop⟩ : ∃ op, (op, c) ∈ pmeCommands who age := by
      simp only [List.mem_cons, List.not_mem_nil, or_false] at hc
      obtain rfl | rfl | rfl | rfl | rfl := hc
      exacts [⟨1, by simp [pmeCommands]⟩, ⟨2, by simp [pmeCommands]⟩, ⟨3, by simp [pmeCommands]⟩,
        ⟨4, by simp [pmeCommands]⟩, ⟨5, by simp [pmeCommands]⟩]
    have hexec := exec_pmeCommand (age := age) hp _ hop
    constructor
    · intro hout
      rw [if_pos hout] at hexec
      exact ⟨_, hexec, (State.rd_wr_of_id _ _ (by decide)).trans State.rd_pmeBegun_done, State.rd_wr_same ..,
        ⟨rfl, rfl, rfl, rfl, rfl, rfl⟩⟩
    · intro hin hlost
      rw [if_neg (Nat.not_le.2 hin), if_pos hlost] at hexec
      obtain ⟨hmap, hmem, hdone⟩ := State.noteLost_frame (s.pmeBegun who age) (s.rd F.MAP_PME_IDX_PAGE)
      exact ⟨_, hexec, (State.rd_wr_of_id _ _ (by decide)).trans <| hdone.trans State.rd_pmeBegun_done,
        State.rd_wr_same .., hmap, hmem⟩
  case twin =>
    refine ⟨_, exec_twinCfgWrite hp, rfl, fun hon => ?_⟩
    rw [State.twinChunks_twinned]
    · exact ⟨rfl, (State.rd_wr_same ..).trans (Field.of_mod ..)⟩
    · exact (State.on_wr_ne _ _ (Field.key_ne_of_id (by decide))).trans hon

end Sys2Proof.Machine

/-!
# The page jobs (R93 to R100, R140, R145 to R147, R152, R153, Tables 4-4 and 4-5)

One rule for each way in which a unit of a page job ends. The state in which a unit goes on, once the page's map line has
been read and sleeping ranks and galleries have been woken, is a hypothesis of each.
-/

namespace Sys2Proof.Machine

/-! ### The ends of a unit -/

section
variable {s : State} {g p : Nat} {j : Job}

/-- A job past its last page ends. -/
theorem pageUnits_past (h : j.pageAt j.pos = none) : demoteUnit s g j = (s.endJob g j resDONE 0, false) ∧
    relocateUnit s g j = (s.endJob g j resDONE 0, false) ∧ promoteUnit s g j = (s.endJob g j resDONE 0, false) ∧
    mapScanUnit s g j = (s.endJob g j resDONE 0, false) ∧ reslotUnit s g j = (s.endJob g j resDONE 0, false) := by
  unfold demoteUnit relocateUnit promoteUnit mapScanUnit reslotUnit
  simp only [h]
  exact ⟨rfl, rfl, rfl, rfl, rfl⟩

/-- R90, R208: a unit whose page is held waits. -/
theorem pageUnits_held (hpage : j.pageAt j.pos = some p) (hheld : s.pageHeld p = true) :
    demoteUnit s g j = (s.wakeSlice p, false) ∧ relocateUnit s g j = (s.wakeSlice p, false) ∧
    promoteUnit s g j = (s.wakeSlice p, false) ∧ (s.imported p = false → mapScanUnit s g j = (s.wakeSlice p, false)) := by
  unfold demoteUnit relocateUnit promoteUnit mapScanUnit
  simp only [hpage, hheld, Bool.or_true, Bool.true_or, if_true]
  exact ⟨rfl, rfl, rfl, fun h => if_neg (by simp [h])⟩

end

/-! ### Twin entries stay -/

section
variable (s : State)

theorem State.setChunk_twins (c : Nat) (x : Chunk) : (s.setChunk c x).map.twins = s.map.twins := by
  have hwhen : ∀ (t : State) (b : Bool) (f : State → State), (f t).map.twins = t.map.twins →
      (t.when b f).map.twins = t.map.twins := fun t b f h => State.when_keeps (p := fun t : State => t.map.twins) t b h
  have hcheck : ∀ (t : State) k, (t.poolCheck k).map.twins = t.map.twins := fun t k =>
    ite_keeps (p := fun t : State => t.map.twins) _ rfl rfl
  unfold State.setChunk
  extract_lets o src s1 s2 s3
  have h2 : s2.map.twins = s1.map.twins := hwhen _ _ _ rfl
  have h3 : s3.map.twins = s2.map.twins := hwhen _ _ _ (hcheck _ _)
  split
  · exact h3.trans h2
  · exact (hwhen _ _ _ rfl).trans <| (hwhen _ _ _ rfl).trans <| h3.trans h2

theorem State.poolTrim_twins (n k : Nat) : (State.poolTrim n s k).map.twins = s.map.twins := by
  induction n generalizing s with
  | zero => rfl
  | succ n ih =>
    unfold State.poolTrim
    refine ite_keeps (p := fun t : State => t.map.twins) _ ?_ rfl
    split
    · rfl
    · exact (ih _).trans (State.setChunk_twins ..)

theorem State.openHeld_twins (pool : Nat) : (s.openHeld pool).map.twins = s.map.twins := by
  unfold State.openHeld
  extract_lets s1
  have h1 : s1.map.twins = s.map.twins := by
    change (match s.openChunk pool with | none => s | some (c, x) => _ : State).map.twins = _
    split
    · rfl
    · exact State.setChunk_twins ..
  split
  · exact h1
  · exact (State.setChunk_twins ..).trans h1

theorem State.giveChunk_twins (c pool : Nat) : (s.giveChunk c pool).map.twins = s.map.twins :=
  ite_keeps (p := fun t : State => t.map.twins) _ (State.setChunk_twins ..) (State.setChunk_twins ..)

variable {s}

theorem State.bumpRun_twins {pool n loc : Nat} {t : State} (h : s.bumpRun pool n = some (loc, t)) :
    t.map.twins = s.map.twins := by
  unfold State.bumpRun at h
  split at h
  · cases h
  · split at h
    · cases h
      exact State.setChunk_twins ..
    · cases h

theorem State.grantNow_twins {cl : Claim} {t : State} (h : s.grantNow cl = some t) : t.map.twins = s.map.twins := by
  obtain ⟨c, -, rfl⟩ := Option.map_eq_some_iff.1 h
  exact State.giveChunk_twins ..

/-- R106: a run that is allocated leaves the twin table. -/
theorem State.allocRun_twins {grp : Group} {n loc : Nat} {t : State} (h : s.allocRun grp n = some (loc, t)) :
    t.map.twins = s.map.twins := by
  unfold State.allocRun at h
  dsimp only at h
  split at h
  · cases h
  · split at h
    next r hr =>
      cases h
      exact State.bumpRun_twins hr
    · split at h
      · exact (State.bumpRun_twins h).trans (State.openHeld_twins ..)
      · split at h
        · cases h
        next u hu =>
          split at h
          · cases h
          next hb =>
            cases h
            exact (State.poolTrim_twins ..).trans <| (State.bumpRun_twins hb).trans <|
              (State.openHeld_twins ..).trans (State.grantNow_twins hu)

theorem State.putMa_twins (ma : Nat) (d : Bytes) (poison : Bool) : (s.putMa ma d poison).map.twins = s.map.twins := by
  unfold State.putMa
  split
  · rfl
  · exact ite_keeps (p := fun t : State => t.map.twins) _ rfl (ite_keeps (p := fun t : State => t.map.twins) _ rfl rfl)

/-- R100: a run that is copied leaves the twin table. -/
theorem State.copyRun_twins (src dst n m : Nat) : (s.copyRun src dst n m).2.map.twins = s.map.twins := by
  unfold State.copyRun
  refine foldl_keeps (q := fun a : Bool × State => a.2.map.twins) (fun a i => ?_) rfl
  have hspend : ∀ (t : State) ma, (t.spendCause ma).map.twins = t.map.twins := fun t ma => by
    unfold State.spendCause
    split <;> rfl
  have hview : ∀ (t : State) ma w, (t.postMa ma w m).map.twins = t.map.twins := fun t ma w =>
    congrArg (fun v : MapSt × List Host.Cell => v.1.twins) (cacheBlind_entriesView.postMa t ma w m)
  exact (State.putMa_twins ..).trans <| (hspend ..).trans <| (hview ..).trans (hview ..)

end

/-! ### PROMOTE (R96) -/

section
variable {s w : State} {g p : Nat} {j : Job} {a : Bool × State}

/-- PROMOTE of a stored page whose ranks and galleries are awake: the tag, the frame, and the promotion. -/
def State.promoteInto (s : State) (g : Nat) (j : Job) (p : Nat) (x : Pme) : State × Bool :=
  match if s.integ p != 0 && !x.twin then s.tagLine p g else (some ([], true), s) with
  | (none, s) => s.jobWait g j
  | (some tag, s) =>
    match s.frameNow p with
    | none => s.pageEnds g j p psNOSPACE
    | some (f, s) => (s.promote p f false none tag (j.master g)).pageEnds g j p psDONE

/-- R96: PROMOTE of a page that is not held; `w` has its map line read, and `a` what its run needs woken. -/
theorem promoteUnit_eq (hpage : j.pageAt j.pos = some p) (hheld : s.pageHeld p = false) (hw : w = s.pageTouch p (j.master g))
    (ha : a = (if (w.pme p).tier < 2 then (false, w)
      else w.stepRouse (w.runOf p (w.pme p)).mas (w.galsDown (w.runOf p (w.pme p))))) :
    promoteUnit s g j = if a.2.imported p then a.2.pageEnds g j p psWRONGTIER
      else if a.2.lost p then (a.2.noteLost p).pageEnds g j p psLOST
      else if (w.pme p).tier < 2 then a.2.pageEnds g j p psWRONGTIER
      else if !a.2.keyUp (w.runOf p (w.pme p)).key then a.2.emptyUse.pageEnds g j p psLOST
      else if a.1 then (a.2, false) else a.2.promoteInto g j p (w.pme p) := by
  unfold promoteUnit State.promoteInto
  simp only [hpage, hheld, ← hw, ← ha, Bool.false_eq_true, if_false]
  all_goals
    iterate 5 refine if_congr Iff.rfl rfl ?_
    generalize (if (a.2.integ p != 0 && !(w.pme p).twin) = true then a.2.tagLine p g else (some ([], true), a.2)) = q
    obtain ⟨_ | tag, u⟩ := q
    · rfl
    · dsimp only
      cases u.frameNow p <;> rfl

/-- R145: with no tag to check a promotion needs only a frame. -/
theorem State.promoteInto_untagged {x : Pme} (htag : s.integ p = 0 ∨ x.twin = true) : s.promoteInto g j p x =
    match s.frameNow p with
    | none => s.pageEnds g j p psNOSPACE
    | some (f, s) => (s.promote p f false none ([], true) (j.master g)).pageEnds g j p psDONE := by
  have hneed : (s.integ p != 0 && !x.twin) = false := by
    obtain h | h := htag <;> simp [h]
  unfold State.promoteInto
  simp only [hneed]
  rfl

end

/-! ### DEMOTE (R98) -/

section
variable {s w : State} {g p : Nat} {j : Job} {a : Bool × State} {st : PageStep}

/-- DEMOTE of a Hall page whose ranks are awake: its lines are recalled, or it is read and its step prepared. -/
def State.demoteRead (s : State) (g : Nat) (j : Job) (p : Nat) : State × Bool :=
  if s.heldLines p ≠ [] then ((s.recallLines g j (s.heldLines p)).1.setJob g (s.recallLines g j (s.heldLines p)).2, false)
  else if (s.readPage p (j.master g)).1.2 then (s.readPage p (j.master g)).2.pageEnds g j p psPOISON
  else (s.readPage p (j.master g)).2.demoteStep g { j with got := none, asked := [] } p (s.readPage p (j.master g)).1.1

/-- R98: DEMOTE of a page that is not held, by a job that has no step ready. -/
theorem demoteUnit_eq (hpage : j.pageAt j.pos = some p) (hheld : s.pageHeld p = false) (hstep : j.page = none)
    (hfatal : s.on F.GEN_STATUS_FATAL = false) (ha : a = (s.mapTouch ⟨false, p / 4, false⟩ (j.master g)).stepRouse
      ((List.range 64).map (fun l => (s.pme p).loc * 4096 + 64 * l)) []) :
    demoteUnit s g j = if a.2.imported p then a.2.pageEnds g j p psWRONGTIER
      else if a.2.lost p then (a.2.noteLost p).pageEnds g j p psLOST
      else if (s.pme p).tier != 1 then a.2.pageEnds g j p psWRONGTIER
      else if (s.pme p).poison || a.2.map.dropped.any (· / 64 == p) then a.2.pageEnds g j p psPOISON
      else if !a.2.keyUp (s.pme p).key || !a.2.keyUp (a.2.regionSlot p) then a.2.emptyUse.pageEnds g j p psLOST
      else if a.1 then (a.2, false) else a.2.demoteRead g j p := by
  have hread : ∀ l : List Nat, (!l.isEmpty) = true ↔ l ≠ [] := fun l => by simp
  unfold demoteUnit State.demoteRead
  simp only [hpage, hheld, hstep, hfatal, ← ha, hread, Option.isSome_none, Bool.or_false, Bool.false_eq_true, if_false]
  iterate 6 refine if_congr Iff.rfl rfl ?_
  generalize a.2.heldLines p = ls
  generalize a.2.recallLines g j ls = q
  generalize a.2.readPage p (j.master g) = r
  rfl

/-- R98: a page of zeros is prepared as ZERO. -/
theorem State.demoteStep_zero {page : Bytes} (hconceal : s.conceal p = false) (hzero : allZero page = true) :
    s.demoteStep g j p page =
      (({ s with map := { s.map with watch := s.map.watch ++ [(p, j.seq, false)] } } : State).setJob g { j with
        page := some ⟨p, s.pme p, {}, psZERO, none, { zero := true }, none, none, false⟩ }, true) := by
  unfold State.demoteStep
  simp only [hconceal, hzero, Bool.not_false, Bool.and_self, if_true]
  rfl

/-- R98, Table 4-4: the commit of a page written since it was read. -/
theorem demoteCommitUnit_written (hst : j.page = some st) (hheld : s.stepHeld g j st.page = false)
    (h : s.map.watch.any (fun x => x.1 == st.page && x.2.1 == j.seq && x.2.2) = true) :
    demoteCommitUnit s g j = (s.undoStep j).pageEnds g { j with page := none } st.page psWRITTEN := by
  unfold demoteCommitUnit
  simp only [hst, hheld, h, Bool.false_eq_true, if_false, if_true]

/-- R98, Table 4-4: the commit of a page that is as it was read: it is pinned by now, or its step is done. -/
theorem demoteCommitUnit_unchanged (hst : j.page = some st) (hheld : s.stepHeld g j st.page = false)
    (hwatch : s.map.watch.any (fun x => x.1 == st.page && x.2.1 == j.seq && x.2.2) = false)
    (hlost : s.lost st.page = false) (htier : (s.pme st.page).tier = 1) (hloc : (s.pme st.page).loc = st.was.loc) :
    ((s.pme st.page).pin = true ∨ s.ringPage st.page = true →
      demoteCommitUnit s g j = (s.undoStep j).pageEnds g { j with page := none } st.page psPINNED) ∧
    ((s.pme st.page).pin = false → s.ringPage st.page = false → st.run = none ∨ s.integ st.page = 0 →
      demoteCommitUnit s g j = (s.demoteDone g j st).pageEnds g { j with page := none } st.page st.status) := by
  unfold demoteCommitUnit
  simp only [hst, hheld, hwatch, hlost, htier, hloc, bne_self_eq_false, Bool.or_self, Bool.false_eq_true, if_false]
  refine ⟨fun h => if_pos (by simpa using h), fun hpin hring hrun => ?_⟩
  have htag : (st.run.isSome && s.integ st.page != 0) = false := by
    obtain h | h := hrun <;> simp [h]
  simp only [hpin, hring, htag, Bool.or_self, Bool.false_eq_true, if_false]

end

/-! ### RELOCATE (R100) -/

section
variable {s w : State} {g p : Nat} {j : Job} {a : Bool × State} {st : PageStep}

/-- R100: RELOCATE of a page that is not held, by a job that has no step ready. -/
theorem relocateUnit_eq (hpage : j.pageAt j.pos = some p) (hheld : s.pageHeld p = false) (hstep : j.page = none)
    (hfatal : s.on F.GEN_STATUS_FATAL = false) (hw : w = s.pageTouch p (j.master g)) :
    relocateUnit s g j = if w.imported p then w.pageEnds g j p psWRONGTIER
      else if w.lost p then (w.noteLost p).pageEnds g j p psLOST
      else (w.rankGroup (bits (j.arg 2) 12 8) ((w.pme p).tier == 3)).elim (w.pageEnds g j p psWRONGTIER)
        (fun grp => if (w.pme p).tier < 2 then w.pageEnds g j p psWRONGTIER else w.relocateTo g j p grp) := by
  unfold relocateUnit
  simp only [hpage, hheld, hstep, hfatal, ← hw]
  cases w.rankGroup (bits (j.arg 2) 12 8) ((w.pme p).tier == 3) <;> rfl

/-- R94: a run whose ranks sleep is waited for. -/
theorem State.relocateTo_asleep {grp : Group} (ha : a = s.stepRouse (s.runOf p (s.pme p)).mas []) (hup : a.1 = true) :
    s.relocateTo g j p grp = (a.2, false) := by
  unfold State.relocateTo
  simp only [← ha, hup, if_true]

/-- R100: the run of a page that has no tag to check is copied into the group where its ranks are awake. -/
theorem State.relocateTo_eq {grp : Group} (ha : a = s.stepRouse (s.runOf p (s.pme p)).mas [])
    (hup : a.1 = false) (htag : a.2.integ p = 0 ∨ (s.pme p).twin = true) :
    s.relocateTo g j p grp =
      (a.2.allocRun grp (s.runOf p (s.pme p)).total).elim (a.2.pageEnds g j p psNOSPACE) (fun x =>
        ((x.2.copyRun (s.runOf p (s.pme p)).loc x.1 (s.runOf p (s.pme p)).total (j.master g)).2.setJob g { j with
          page := some ⟨p, s.pme p, a.2.twin (s.pme p).loc,
            if (x.2.copyRun (s.runOf p (s.pme p)).loc x.1 (s.runOf p (s.pme p)).total (j.master g)).1 then psUNCORR else psDONE,
            some (x.1, (s.runOf p (s.pme p)).total), s.pme p, none, none, false⟩ }, true)) := by
  have hkey : (a.2.integ p != 0 && !(s.pme p).twin) = false := by
    obtain h | h := htag <;> simp [h]
  have hcheck : a.2.tagCheck g p (s.pme p) = (some true, a.2) := by
    unfold State.tagCheck
    exact if_pos (by obtain h | h := htag <;> simp [h])
  unfold State.relocateTo
  simp only [← ha, hup, hkey, hcheck, Bool.false_and, Bool.false_eq_true, if_false]
  cases hrun : a.2.allocRun grp (s.runOf p (s.pme p)).total with
  | none => rfl
  | some x =>
    have htwin : (x.2.copyRun (s.runOf p (s.pme p)).loc x.1 (s.runOf p (s.pme p)).total (j.master g)).2.map.twins =
        a.2.map.twins := (State.copyRun_twins ..).trans (State.allocRun_twins hrun)
    have hentry : ∀ v : State, v.map.twins = a.2.map.twins → v.twin (s.pme p).loc = a.2.twin (s.pme p).loc := fun v h =>
      congrArg (fun m => smGet ({} : Twin) m (s.pme p).loc) h
    simp only [Option.elim, State.when, Bool.not_true, Bool.or_false, Bool.false_eq_true, if_false, hentry _ htwin,
      State.jobNext]

/-- R100: the commit of a page that has changed tier since it was copied. -/
theorem relocateCommitUnit_tier (hst : j.page = some st) (hheld : s.pageHeld st.page = false)
    (h : (s.pme st.page).tier ≠ st.was.tier) :
    relocateCommitUnit s g j = (s.undoStep j).pageEnds g { j with page := none } st.page psWRONGTIER := by
  unfold relocateCommitUnit
  simp only [hst, hheld, beq_eq_false_iff_ne.2 h, Bool.false_and, Bool.not_false, Bool.false_eq_true, if_false, if_true]

/-- R100: the commit of a page of its own run that is where it was. -/
theorem relocateCommitUnit_place {l n : Nat} (hst : j.page = some st) (hheld : s.pageHeld st.page = false)
    (hrun : st.run = some (l, n)) (htier : (s.pme st.page).tier = st.was.tier) (htwin : (s.pme st.page).twin = false)
    (hwas : st.was.twin = false) (hloc : (s.pme st.page).loc = st.was.loc) :
    relocateCommitUnit s g j = ((s.setPme st.page { s.pme st.page with
        loc := l, poison := (s.pme st.page).poison || st.status == psUNCORR } (j.master g)).releaseRun
      (s.runOf st.page (s.pme st.page)).loc (s.runOf st.page (s.pme st.page)).total).pageEnds
        g { j with page := none } st.page st.status := by
  unfold relocateCommitUnit
  simp only [hst, hheld, hrun, htier, htwin, hwas, hloc, beq_self_eq_true, Bool.not_false, Bool.true_or, Bool.and_self,
    Bool.not_true, Bool.false_eq_true, if_false]

end

/-! ### MAP_SCAN -/

section
variable {s w : State} {g p : Nat} {j : Job}

theorem Job.addEntry_pos (e : Nat) : (j.addEntry e).pos = j.pos := by
  unfold Job.addEntry
  extract_lets es
  split <;> rfl

/-- R237: MAP_SCAN of a page of an IMPORT window. -/
theorem mapScanUnit_imported (hpage : j.pageAt j.pos = some p) (h : s.imported p = true) :
    mapScanUnit s g j = s.pageEnds g j p psWRONGTIER := by
  unfold mapScanUnit
  simp only [hpage, h, if_true]

/-- Table 4-5: MAP_SCAN of a page lists it where it is selected. -/
theorem mapScanUnit_page (hpage : j.pageAt j.pos = some p) (h : s.imported p = false) (hheld : s.pageHeld p = false)
    (hw : w = s.pageTouch p (j.master g)) (hlost : w.lost p = false) :
    mapScanUnit s g j = (w.setJob g { (if (j.arg 2).testBit (w.pme p).tier = true ∧ bits (j.arg 2) 15 8 ≤ (w.pme p).age ∧
      j.arg 3 ≤ w.locChunk (w.pme p) ∧ w.locChunk (w.pme p) < j.arg 4 then j.addEntry p else j) with
      pos := j.pos + 1, progress := j.pos + 1 }, true) := by
  have hpos : ∀ (c : Prop) [Decidable c], (if c then j.addEntry p else j).pos = j.pos := fun c _ => by
    split
    · exact Job.addEntry_pos p
    · rfl
  unfold mapScanUnit
  simp only [hpage, h, hheld, ← hw, hlost, State.when, Bool.false_eq_true, if_false, Bool.not_false, Bool.true_and,
    Bool.and_eq_true, decide_eq_true_eq, and_assoc, hpos]
  rfl

end

/-! ### Re-encryption (R152, R153) -/

section
variable {s w u : State} {g p : Nat} {j : Job} {a : Bool × State}

/-- R152, R153: a Hall page whose new tag is not on its way is re-encrypted at once. -/
theorem State.recode_hall {src : Nat} {change : State → State} {ls : List (Bytes × Bool)} (hwrote : j.wrote = none)
    (htier : (s.pme p).tier = 1) (hread : s.hallLines p (j.master g) = (ls, u)) :
    s.recode g j p src change = (.ended psDONE, j, ((change u).putPage p ls).noteWrite p) := by
  have hcheck : s.tagCheck g p (s.pme p) = (some true, s) := if_pos (by simp [htier])
  unfold State.recode
  simp only [hwrote, Option.isSome_none, Bool.false_eq_true, if_false, hcheck, htier, if_true, hread]

/-- Table 6-4: REKEY of an EMPTY slot. -/
theorem rekeyUnit_empty {n : Nat} (harg : j.arg 0 = n) (hpos : j.pos < j.arg 1) (hfatal : s.on F.GEN_STATUS_FATAL = false)
    (herase : (s.keySlot n).erasing = false) (hst : s.rd F.KEY_SLOT_STATE_STATE 0 n = 0) :
    rekeyUnit s g j = (s.lostPage j n).elim (s.endJob g j resDONE 0, false) (fun q =>
      s.emptyUse.pageEnds g { j with taken := q + 1 } q psLOST) := by
  unfold rekeyUnit
  simp only [harg, hfatal, herase, hst, Nat.not_le.2 hpos, Bool.or_self, Bool.false_eq_true, if_false, if_true]
  cases s.lostPage j n <;> rfl

/-- R152: REKEY of a slot that is REKEYING takes the page of PCURSOR. -/
theorem rekeyUnit_page {n : Nat} (harg : j.arg 0 = n) (hpos : j.pos < j.arg 1) (hfatal : s.on F.GEN_STATUS_FATAL = false)
    (herase : (s.keySlot n).erasing = false) (hst : s.rd F.KEY_SLOT_STATE_STATE 0 n = 2)
    (hcur : s.rd F.KEY_SLOT_PCURSOR_PCURSOR 0 n = p) (hp : p < s.secs.pages) (hheld : s.stepHeld g j p = false) :
    rekeyUnit s g j = s.rekeyPage g j n p := by
  unfold rekeyUnit
  simp only [harg, hfatal, herase, hst, hcur, hp, hheld, Nat.not_le.2 hpos, Bool.or_self, Bool.false_eq_true, if_false,
    if_true, bne_self_eq_false, OfNat.ofNat_ne_zero]

/-- R152: a page that is not stored under the slot is passed. -/
theorem State.rekeyPage_passes {n : Nat} (hw : w = s.pageTouch p (j.master g))
    (h : w.lost p = true ∨ (w.pme p).tier = 0 ∨ (w.pme p).twin = true ∨ (w.pme p).key ≠ n) :
    s.rekeyPage g j n p = ((w.wr F.KEY_SLOT_PCURSOR_PCURSOR (p + 1) 0 n).setJob g { j with
      pos := j.pos + 1, progress := j.pos + 1, wrote := none }, true) := by
  unfold State.rekeyPage
  simp only [← hw]
  exact if_pos (by simpa [or_assoc] using h)

/-- R152: a Hall page stored under the slot waits for its rank, or is re-encrypted. -/
theorem State.rekeyPage_hall {n : Nat} {ls : List (Bytes × Bool)} (hw : w = s.pageTouch p (j.master g))
    (hlost : w.lost p = false) (htier : (w.pme p).tier = 1) (htwin : (w.pme p).twin = false) (hkey : (w.pme p).key = n)
    (ha : a = w.stepRouse [(w.pme p).loc * 4096] []) :
    (a.1 = true → s.rekeyPage g j n p = (a.2, false)) ∧
    (a.1 = false → j.wrote = none → (a.2.pme p).tier = 1 → a.2.hallLines p (j.master g) = (ls, u) →
      s.rekeyPage g j n p = (((((u.wr F.KEY_SLOT_PCURSOR_PCURSOR (p + 1) 0 n).putPage p ls).noteWrite p).stepEnds j).setJob g
        { j with pos := j.pos + 1, progress := j.pos + 1, wrote := none }, true)) := by
  unfold State.rekeyPage
  simp only [← hw, hlost, htier, htwin, hkey, ← ha, if_true, Bool.false_or, one_ne_zero, decide_false, bne_self_eq_false,
    Bool.false_eq_true, if_false]
  refine ⟨fun h => if_pos h, fun h hwrote hpme hread => ?_⟩
  simp only [h, Bool.false_eq_true, if_false, State.recode_hall hwrote hpme hread, if_true]
  rfl

/-- R153: RESLOT of a page that is not held. -/
theorem reslotUnit_eq (hpage : j.pageAt j.pos = some p) (hheld : s.stepHeld g j p = false)
    (hfatal : s.on F.GEN_STATUS_FATAL = false) (hw : w = s.pageTouch p (j.master g))
    (ha : a = (if (w.pme p).tier = 0 then (false, w)
        else w.stepRouse (if (w.pme p).tier = 1 then [(w.pme p).loc * 4096] else (w.runOf p (w.pme p)).mas) [])) :
    reslotUnit s g j = if a.2.imported p then a.2.pageEnds g j p psWRONGTIER
      else if a.2.lost p then (a.2.noteLost p).pageEnds g j p psLOST
      else if (w.pme p).twin then a.2.pageEnds g j p psWRONGTIER
      else if (w.pme p).tier = 0 || (w.pme p).key = w.regionSlot p then a.2.pageEnds g j p psDONE
      else if !a.2.keyUp (w.pme p).key || !a.2.keyUp (w.regionSlot p) then a.2.emptyUse.pageEnds g j p psLOST
      else if a.1 then (a.2, false)
      else match a.2.recode g j p 4 (fun s => s.setPme p { s.pme p with key := w.regionSlot p } (j.master g)) with
        | (.wait, j, s) => s.jobWait g j
        | (.noSpace, _, s) => s.pageEnds g j p psNOSPACE
        | (.ended code, j, s) => s.pageEnds g j p code := by
  unfold reslotUnit
  simp only [hpage, hheld, hfatal, ← hw, ← ha, Bool.or_self, Bool.false_eq_true, if_false]
  all_goals
    iterate 6 refine if_congr Iff.rfl rfl ?_
    generalize a.2.recode g j p 4 (fun s => s.setPme p { s.pme p with key := w.regionSlot p } (j.master g)) = q
    rfl

end
/-! ### The statement -/

/-- Settles O46: each way in which the unit of a page job ends, by the tests of its unit in their order. -/
theorem pageJobs : Obligations.PageJobs := by
  unfold Obligations.PageJobs
  intro s w g p j a
  refine ⟨pageUnits_past, pageUnits_held, fun hpage hheld hw ha => ?_, fun hpage hheld hstep hfatal ha => ?_,
    fun page => State.demoteStep_zero, fun hpage hheld hstep hfatal hw => ?_, fun st hst hheld => ?_, fun st hst hheld => ?_,
    fun hpage => ⟨mapScanUnit_imported hpage, mapScanUnit_page hpage⟩, fun n harg hpos hfatal herase => ?_,
    fun hpage hheld hfatal hw ha => ?_⟩
  · rw [promoteUnit_eq hpage hheld hw ha]
    refine ⟨fun h => by simp [h], fun h h' => by simp [h, h'], fun himp hlost => ⟨fun h => by simp [himp, hlost, h],
      fun htier => ?_⟩⟩
    have hstored : ¬ (w.pme p).tier < 2 := Nat.not_lt.2 htier
    refine ⟨fun h => by simp only [himp, hlost, hstored, h]; rfl, fun hkey => ⟨fun h => by
      simp only [himp, hlost, hstored, hkey, h]; rfl, fun hup htag => ?_⟩⟩
    simp only [himp, hlost, hstored, hkey, hup, State.promoteInto_untagged htag]
    exact ⟨fun h => by simp [h], fun f u h => by simp [h]⟩
  · rw [demoteUnit_eq hpage hheld hstep hfatal ha]
    refine ⟨fun h => by simp [h], fun h h' => by simp [h, h'], fun himp hlost => ⟨fun h => by simp [himp, hlost, h],
      fun htier h => by simp [himp, hlost, htier, h],
      fun htier hpoison hdrop => ⟨fun h => ?_, fun hkey hslot => ⟨fun h => ?_,
        fun hup hheld => ?_, fun hup hheld page bad u hread => ?_⟩⟩⟩⟩
    · simp only [himp, hlost, htier, hpoison, hdrop]
      obtain h | h := h <;> simp [h]
    · simp [himp, hlost, htier, hpoison, hdrop, hkey, hslot, h]
    · simp [himp, hlost, htier, hpoison, hdrop, hkey, hslot, hup, State.demoteRead, hheld]
    · simp [himp, hlost, htier, hpoison, hdrop, hkey, hslot, hup, State.demoteRead, hheld, hread]
  · rw [relocateUnit_eq hpage hheld hstep hfatal hw]
    refine ⟨fun h => by simp [h], fun h h' => by simp [h, h'], fun himp hlost => ⟨fun h => ?_,
      fun htier grp hgrp ha => ?_⟩⟩
    · simp only [himp, hlost, h]
      cases w.rankGroup (bits (j.arg 2) 12 8) ((w.pme p).tier == 3) <;> rfl
    · have hstored : ¬ (w.pme p).tier < 2 := Nat.not_lt.2 htier
      simp only [himp, hlost, hgrp, hstored, Option.elim, Bool.false_eq_true, if_false]
      refine ⟨fun hup => ?_, fun hup htag => ?_⟩
      · exact State.relocateTo_asleep ha hup
      · rw [State.relocateTo_eq ha hup htag]
        exact ⟨fun h => by simp [h], fun loc u bad v h hcopy => by simp [h, hcopy]⟩
  · exact ⟨demoteCommitUnit_written hst hheld, demoteCommitUnit_unchanged hst hheld⟩
  · exact ⟨relocateCommitUnit_tier hst hheld, fun l n => relocateCommitUnit_place hst hheld⟩
  · refine ⟨fun hempty => ?_, fun hst hcur hp hheld hw => ?_⟩
    · rw [rekeyUnit_empty harg hpos hfatal herase hempty]
      exact ⟨fun h => by simp [h], fun q h => by simp [h]⟩
    · rw [rekeyUnit_page harg hpos hfatal herase hst hcur hp hheld]
      refine ⟨State.rekeyPage_passes hw, fun hlost htier htwin hkey ha => ?_⟩
      exact ⟨(State.rekeyPage_hall (u := s) (ls := []) hw hlost htier htwin hkey ha).1, fun hup hwrote hpme ls u =>
        (State.rekeyPage_hall hw hlost htier htwin hkey ha).2 hup hwrote hpme⟩
  · rw [reslotUnit_eq hpage hheld hfatal hw ha]
    refine ⟨fun h => by simp [h], fun h h' => by simp [h, h'], fun himp hlost => ⟨fun h => by simp [himp, hlost, h],
      fun htwin h => ?_, fun htwin htier hslot => ⟨fun h => ?_, fun hkey hnew => ⟨fun h => ?_,
        fun hup hwrote hpme ls u hread => ?_⟩⟩⟩⟩
    · obtain h | h := h <;> simp [himp, hlost, htwin, h]
    · obtain h | h := h <;> simp [himp, hlost, htwin, htier, hslot, h]
    · simp [himp, hlost, htwin, htier, hslot, hkey, hnew, h]
    · simp [himp, hlost, htwin, htier, hslot, hkey, hnew, hup, State.recode_hall hwrote hpme hread]

end Sys2Proof.Machine

/-!
# Fences of power domains (R93, R125, R131, R189, R197, R206 to R209)
-/

namespace Sys2Proof.Machine

/-! ### Stalled accesses of an agent tried again (R160, R207) -/

/-- The fields that an access of a gallery's cache changes. -/
def cacheFields : List Field := [F.GAL_STATUS_CACHE_VALID, F.GAL_CACHE_STAT_COUNT]

/-- What hangs on none of those fields, no count, message, line of an agent and home: nothing that a local access of a caching
agent changes. -/
structure AgBlind {β : Type} (p : State → β) : Prop extends PurgeBlind p where
  gal : ∀ f ∈ cacheFields, ∀ (t : State) (v i j : Nat), p (t.wr f v i j) = p t

theorem agBlind_rd {g : Field} {k m : Nat}
    (h : ∀ f ∈ countFields ++ homeFields ++ cacheFields, g.id % 2 ^ 32 ≠ f.id % 2 ^ 32) : AgBlind (fun t => t.rd g k m) where
  toPurgeBlind := purgeBlind_rd fun f hf => h f (List.mem_append_left _ hf)
  gal f hf t v _ _ := State.rd_wr_of_id t v (h f (List.mem_append_right _ hf))

namespace AgBlind

variable {β : Type} {p : State → β} (hp : AgBlind p) (s : State)
include hp

theorem showCache (a : Nat) (was is_ : Bool) : p (s.showCache a was is_) = p s :=
  ite_keeps _ rfl (ite_keeps _ (hp.gal F.GAL_STATUS_CACHE_VALID (by simp [cacheFields]) ..)
    (hp.gal F.GAL_STATUS_CACHE_VALID (by simp [cacheFields]) ..))

theorem setAg (a sl ln : Nat) (x : AgLine) : p (s.setAg a sl ln x) = p s := (hp.showCache ..).trans (hp.coh s _)

theorem galStat (a n : Nat) : p (s.galStat a n) = p s := by
  have hcount : p (s.bump F.GAL_CACHE_STAT_COUNT 1 (a - 64) n) = p s := hp.gal F.GAL_CACHE_STAT_COUNT (by simp [cacheFields]) ..
  unfold State.galStat
  exact ite_keeps _ (ite_keeps _ ((hp.counts ..).trans hcount) (ite_keeps _ ((hp.counts ..).trans hcount) hcount)) rfl

theorem request (f : Flight) (master opc hpa : Nat) : p (s.request f master opc hpa) = p s :=
  (hp.send ..).trans (ite_keeps _ rfl (hp.txn s _))

theorem agReq (a opc : Nat) (m : CohMsg) : p (s.agReq a opc m) = p s := hp.request ..

theorem agData (a : Nat) (m : CohMsg) (x : AgLine) : p (s.agData a m x) = p s := hp.send ..

theorem spend (a h : Nat) : p (s.spend a h) = p s := hp.coh ..

theorem agEvict (a : Nat) (m : CohMsg) : p (s.agEvict a m) = p s := by
  have hclean : ∀ n (x : AgLine), p (((s.galStat a n).setAg a m.slot.toNat m.line.toNat x).agReq a opEvC m) = p s := fun _ _ =>
    (hp.agReq ..).trans <| (hp.setAg ..).trans (hp.galStat ..)
  unfold State.agEvict
  dsimp only
  split
  · exact ite_keeps _ ((hp.agData ..).trans <| (hp.agReq ..).trans <| (hp.setAg ..).trans <| (hp.spend ..).trans
      (hp.galStat ..)) rfl
  · exact hclean ..
  · exact hclean ..
  · exact hclean ..
  · rfl

theorem galRoom (a line : Nat) : p (s.galRoom a line) = p s := by
  unfold State.galRoom
  refine ite_keeps _ rfl ?_
  dsimp only
  split
  · exact hp.free ..
  · exact (hp.agEvict ..).trans (hp.free ..)

theorem agLoad (a : Nat) (m : CohMsg) : p (s.agLoad a m) = p s :=
  ite_keeps _ (hp.galStat ..) <| ite_keeps _ rfl <| ite_keeps _ ((hp.request ..).trans (hp.galStat ..)) <|
    (hp.agReq ..).trans <| (hp.setAg ..).trans <| (hp.galRoom ..).trans (hp.galStat ..)

theorem liteStore (a : Nat) (m : CohMsg) : p (s.liteStore a m) = p s :=
  (hp.send ..).trans <| (hp.request ..).trans <| (hp.spend ..).trans (hp.galStat ..)

theorem agStore (a : Nat) (m : CohMsg) : p (s.agStore a m) = p s := by
  unfold State.agStore
  dsimp only
  split
  · exact (hp.setAg ..).trans (hp.galStat ..)
  · exact (hp.setAg ..).trans (hp.galStat ..)
  · exact (hp.agReq ..).trans <| (hp.setAg ..).trans (hp.galStat ..)
  · exact (hp.agReq ..).trans <| (hp.setAg ..).trans (hp.galStat ..)
  · exact ite_keeps _ (hp.liteStore ..) <| (hp.agReq ..).trans <| (hp.setAg ..).trans <| (hp.galRoom ..).trans (hp.galStat ..)
  · rfl

theorem agAccess (a : Nat) (op : AgOp) (m : CohMsg) : p (s.agAccess a op m) = p s := by
  refine ite_keeps _ ?_ (hp.setAg ..)
  cases op
  · exact hp.agLoad ..
  · exact hp.agStore ..
  · exact hp.agEvict ..

theorem agRetry (a : Nat) : p (s.agRetry a) = p s :=
  State.forEach_keeps (p := p) fun _ _ => (State.forEach_keeps (p := p) fun _ _ => hp.agAccess ..).trans (hp.setAg ..)

theorem domAgain (d : Nat) : p (s.domAgain d) = p s := ite_keeps _ (hp.agRetry ..) rfl

end AgBlind

theorem State.domAgain_of_other {d : Nat} (s : State) (h : d < 16 ∨ 32 ≤ d) : s.domAgain d = s :=
  if_neg (by simp; omega)

/-! ### Blocks decoded at a gallery (R125, R131) -/

/-- The fields that a block decoded at a gallery changes. -/
def trdFields : List Field :=
  [F.GAL_TRD_STAT_COUNT, F.GAL_TRD_ERR_DEC_ERR, F.GAL_TRD_ERR_LAST_CODE, F.GAL_TRD_LAST_STANDALONE, F.GAL_TRD_LAST_CODE,
   F.GAL_TRD_LAST_BLOCK, F.GAL_TRD_LAST_PAGE] ++ recordFields 1

/-- What hangs on none of those fields, no count, record and answer of a map request: nothing that a block decoded at a gallery
changes. -/
structure BlkBlind {β : Type} (p : State → β) : Prop extends CountBlind p where
  trd : ∀ f ∈ trdFields, ∀ (t : State) (v i j : Nat), p (t.wr f v i j) = p t
  ras : ∀ (t : State) x, p { t with ras := x } = p t
  nvs : ∀ (t : State) x, p { t with nvs := x } = p t
  reqs : ∀ (t : State) (f : MapReq → MapReq), p { t with map := { t.map with reqs := t.map.reqs.map f } } = p t

theorem blkBlind_rd {g : Field} {k m : Nat} (h : ∀ f ∈ countFields ++ trdFields, g.id % 2 ^ 32 ≠ f.id % 2 ^ 32) :
    BlkBlind (fun t => t.rd g k m) where
  toCountBlind := countBlind_rd fun f hf => h f (List.mem_append_left _ hf)
  trd f hf t v _ _ := State.rd_wr_of_id t v (h f (List.mem_append_right _ hf))
  ras _ _ := rfl
  nvs _ _ := rfl
  reqs _ _ := rfl

namespace BlkBlind

variable {β : Type} {p : State → β} (hp : BlkBlind p) (s : State)
include hp

theorem treadFail (g page b : Nat) (alone : Bool) (e : TreadErr) : p (s.treadFail g page b alone e) = p s := by
  unfold State.treadFail
  exact (State.record_keeps (p := p) _ _ _ _ _ _ _ _ hp.ras hp.nvs fun f hf => hp.trd f (by simp [trdFields, hf])).trans <|
    (hp.trd F.GAL_TRD_LAST_PAGE (by simp [trdFields]) ..).trans <|
      (hp.trd F.GAL_TRD_LAST_BLOCK (by simp [trdFields]) ..).trans <|
        (hp.trd F.GAL_TRD_LAST_CODE (by simp [trdFields]) ..).trans <|
          (hp.trd F.GAL_TRD_LAST_STANDALONE (by simp [trdFields]) ..).trans <|
            (hp.trd F.GAL_TRD_ERR_LAST_CODE (by simp [trdFields]) ..).trans
              (hp.trd F.GAL_TRD_ERR_DEC_ERR (by simp [trdFields]) ..)

theorem countDec (g tier : Nat) : p (s.countDec g tier) = p s :=
  (hp.counts ..).trans (hp.trd F.GAL_TRD_STAT_COUNT (by simp [trdFields]) ..)

theorem shareBlock (page b : Nat) (res : BlockRes) : p (s.shareBlock page b res) = p s := hp.reqs ..

theorem blkDecode (g page b : Nat) (ct : Bytes) : p (s.blkDecode g page b ct) = p s := by
  unfold State.blkDecode
  dsimp only
  refine ite_keeps _ rfl ?_
  split
  · exact (hp.shareBlock ..).trans (hp.countDec ..)
  · exact (hp.shareBlock ..).trans <| (hp.treadFail ..).trans (hp.countDec ..)

end BlkBlind

/-- DRAM, the coherence, the torus, and the number of map requests. -/
def State.crossView (s : State) : List Host.Cell × CohSt × NocSt × Nat := (s.mem, s.coh, s.noc, s.map.reqs.length)

theorem blkBlind_crossView : BlkBlind State.crossView where
  wr _ _ _ _ _ _ := rfl
  smp _ _ := rfl
  txn _ _ := rfl
  free _ _ := rfl
  trd _ _ _ _ _ _ := rfl
  ras _ _ := rfl
  nvs _ _ := rfl
  reqs t f := by simp only [State.crossView, List.length_map]

/-! ### What a domain holds, and its state -/

section
variable (s : State)

theorem State.dom_onDom (d : Nat) (f : DomSt → DomSt) : (s.onDom d f).dom d = f (s.dom d) := smGet_smSet_same ..

theorem State.rd_onDom {g : Field} {k m : Nat} (h : g.id % 2 ^ 32 ≠ F.NOC_DOM_STATUS_HELD.id % 2 ^ 32) (d : Nat)
    (f : DomSt → DomSt) : (s.onDom d f).rd g k m = s.rd g k m := State.rd_wr_of_id _ _ h

/-- A wake changes no message, no DRAM and not what a domain holds. -/
theorem State.wakeDom_frame (d : Nat) : (s.wakeDom d).coh = s.coh ∧ (s.wakeDom d).mem = s.mem ∧
    ((s.wakeDom d).dom d).held = (s.dom d).held ∧ ((s.wakeDom d).dom d).blks = (s.dom d).blks := by
  have hcount : CountBlind (fun t : State => (t.coh, t.mem, t.noc)) :=
    ⟨fun _ _ _ _ _ _ => rfl, fun _ _ => rfl, fun _ _ => rfl, fun _ _ => rfl⟩
  unfold State.wakeDom
  dsimp only
  split
  · set u := (s.wr F.NOC_DOM_STATUS_STATE domWAKING 0 d).clear F.NOC_DOM_CTL_FENCE 0 d with hu
    have h : ((u.counts 63 evDomWake).coh, (u.counts 63 evDomWake).mem, (u.counts 63 evDomWake).noc) = (s.coh, s.mem, s.noc) :=
      hcount.counts ..
    obtain ⟨hcoh, hmem, hnoc⟩ : _ ∧ _ ∧ _ := by simpa only [Prod.mk.injEq] using h
    have hdom : (u.counts 63 evDomWake).dom d = s.dom d := congrArg (fun n : NocSt => smGet ({} : DomSt) n.doms d) hnoc
    rw [State.dom_onDom, hdom]
    exact ⟨hcoh, hmem, rfl, rfl⟩
  · exact ⟨rfl, rfl, rfl, rfl⟩

theorem State.rd_wakeDom {g : Field} {k m : Nat} (h : ∀ f ∈ countFields ++ [F.NOC_DOM_STATUS_STATE, F.NOC_DOM_CTL_FENCE,
    F.NOC_DOM_STATUS_HELD], g.id % 2 ^ 32 ≠ f.id % 2 ^ 32) (d : Nat) : (s.wakeDom d).rd g k m = s.rd g k m := by
  have hcount : CountBlind (fun t : State => t.rd g k m) := countBlind_rd fun f hf => h f (List.mem_append_left _ hf)
  have hwr : ∀ f ∈ [F.NOC_DOM_STATUS_STATE, F.NOC_DOM_CTL_FENCE, F.NOC_DOM_STATUS_HELD], ∀ (t : State) v i j,
      (t.wr f v i j).rd g k m = t.rd g k m := fun f hf t v _ _ => State.rd_wr_of_id t v (h f (List.mem_append_right _ hf))
  exact ite_keeps (p := fun t : State => t.rd g k m) _ ((hwr F.NOC_DOM_STATUS_HELD (by simp) ..).trans <|
    (hcount.counts ..).trans <| (hwr F.NOC_DOM_CTL_FENCE (by simp) ..).trans (hwr F.NOC_DOM_STATUS_STATE (by simp) ..)) rfl

/-- R208: a domain that is FENCED or WAKING is WAKING once its wake is requested. -/
theorem State.wakeDom_state {d : Nat} (h : s.domDown d = true) : (s.wakeDom d).rd F.NOC_DOM_STATUS_STATE 0 d = domWAKING := by
  have hcount : CountBlind (fun t : State => t.rd F.NOC_DOM_STATUS_STATE 0 d) := countBlind_rd (by decide)
  unfold State.wakeDom
  dsimp only
  split
  · rw [State.rd_onDom _ (by decide), hcount.counts, State.clear_eq, State.rd_wr_of_id _ _ (by decide), State.rd_wr_same]
    rfl
  next hf => exact (by simpa [State.domDown] using h : _ ∨ _).resolve_left hf

/-! ### A domain goes on (R208, R209) -/

/-- R208: what a domain delivers stands ahead of what is on the torus; it holds nothing more. -/
theorem State.releaseHeld_frame (d : Nat) : ((s.releaseHeld d).dom d).held = [] ∧ ((s.releaseHeld d).dom d).blks = [] ∧
    (s.releaseHeld d).mem = s.mem ∧
    (s.releaseHeld d).coh.flight = ((s.dom d).held.map (·.2)).filter (fun f => f.opc < 0x20) ++ s.coh.flight := by
  unfold State.releaseHeld
  extract_lets l bs s1 s2 ps
  have h : s2.crossView = s1.crossView := State.forEach_keeps (p := State.crossView) fun _ _ => blkBlind_crossView.blkDecode ..
  obtain ⟨hmem, hcoh, hnoc, -⟩ : _ ∧ _ ∧ _ ∧ _ := by simpa only [State.crossView, Prod.mk.injEq] using h
  have hdom : s2.dom d = { s.dom d with held := [], blks := [] } :=
    (congrArg (fun n : NocSt => smGet ({} : DomSt) n.doms d) hnoc).trans (State.dom_onDom ..)
  refine ⟨congrArg DomSt.held hdom, congrArg DomSt.blks hdom, hmem, ?_⟩
  change l.filter _ ++ s2.coh.flight = _
  rw [hcoh]
  rfl

theorem State.rd_releaseHeld {g : Field} {k m : Nat} (h : ∀ f ∈ countFields ++ trdFields, g.id % 2 ^ 32 ≠ f.id % 2 ^ 32)
    (hheld : g.id % 2 ^ 32 ≠ F.NOC_DOM_STATUS_HELD.id % 2 ^ 32) (d : Nat) : (s.releaseHeld d).rd g k m = s.rd g k m := by
  unfold State.releaseHeld
  extract_lets l bs s1 s2 ps
  exact (State.forEach_keeps (p := fun t : State => t.rd g k m) fun _ _ => (blkBlind_rd h).blkDecode ..).trans
    (s.rd_onDom hheld ..)

theorem State.rd_domGo_state (d : Nat) : (s.domGo d).rd F.NOC_DOM_STATUS_STATE 0 d = domON :=
  (State.rd_releaseHeld _ (by decide +kernel) (by decide) d).trans (State.rd_wr_same ..)

theorem State.rd_domGo {g : Field} {k m : Nat} (h : ∀ f ∈ countFields ++ trdFields, g.id % 2 ^ 32 ≠ f.id % 2 ^ 32)
    (hheld : g.id % 2 ^ 32 ≠ F.NOC_DOM_STATUS_HELD.id % 2 ^ 32) (hstate : g.id % 2 ^ 32 ≠ F.NOC_DOM_STATUS_STATE.id % 2 ^ 32)
    (d : Nat) : (s.domGo d).rd g k m = s.rd g k m :=
  (State.rd_releaseHeld _ h hheld d).trans (State.rd_wr_of_id _ _ hstate)

/-- R209: a domain whose drain ends is ON, and its fence is cleared. -/
theorem State.endDrain_draining {d : Nat} (h : s.rd F.NOC_DOM_STATUS_STATE 0 d = domDRAINING) :
    (s.endDrain d).rd F.NOC_DOM_STATUS_STATE 0 d = domON ∧ (s.endDrain d).rd F.NOC_DOM_CTL_FENCE 0 d = 0 := by
  unfold State.endDrain
  rw [if_pos h]
  extract_lets s1 s2
  refine ⟨State.rd_domGo_state .., ?_⟩
  calc _ = s2.rd F.NOC_DOM_CTL_FENCE 0 d := State.rd_domGo _ (by decide +kernel) (by decide) (by decide) d
    _ = s1.rd F.NOC_DOM_CTL_FENCE 0 d := State.when_keeps (p := fun t : State => t.rd F.NOC_DOM_CTL_FENCE 0 d) _ _ rfl
    _ = 0 := (State.rd_onDom _ (by decide) ..).trans (State.rd_wr_same ..)

end

/-! ### Writes of CTL.FENCE (R206, R209) -/

theorem testBit_setBit_true (n k : Nat) : (setBit n k true).testBit k = true := by
  unfold setBit
  cases h : n.testBit k with
  | true => simpa using h
  | false => simp [Nat.add_comm n, Nat.testBit_two_pow_add_eq, h]

theorem F.NOC_DOM_CTL_FENCE_at (d : Fin 40) : F.NOC_DOM_CTL_FENCE.at (domCtl d) = some (0, d.val) := by
  revert d
  decide

section
variable {s t : State} {who : Initiator}

theorem SameStore.writeField {f : Field} {v i j : Nat} (h : SameStore s t) : SameStore s (t.writeField who f i j v) := by
  unfold State.writeField
  split
  case h_2 => split <;> exact h
  case h_3 => split <;> exact h
  all_goals exact h

/-- Writing a register's fields changes no store. -/
theorem SameStore.writeWord {off v : Nat} {sel : Field → Bool} (h : SameStore s t) : SameStore s (t.writeWord who off v sel) :=
  SameStore.forEach h (f := fun (u : State) (x : Field × Nat × Nat) =>
      if sel x.1 then u.writeField who x.1 x.2.1 x.2.2 v else u) fun u y hu => by
    split
    · exact hu.writeField
    · exact hu

theorem State.written_sameStore (off v : Nat) : SameStore s (s.written who off v) := SameStore.writeWord (SameStore.refl s)

/-- R206: a write of 1 to CTL.FENCE requests a fence, where none is requested. -/
theorem exec_fenceRequest {d : Fin 40} {v : BitVec 64} (h : Permitted s who (domCtl d) true)
    (hfence : s.rd F.NOC_DOM_CTL_FENCE 0 d = 0) : exec (.fenceRequest who d v) s =
      .next ((s.written who (domCtl d) (setBit v.toNat 0 true)).fence d) := by
  have hwas : (s.dropHalves who (domCtl d)).on F.NOC_DOM_CTL_FENCE 0 d = false := by
    change (s.rd F.NOC_DOM_CTL_FENCE 0 d != 0) = false
    simp [hfence]
  change execFenceRequest who d v s = _
  rw [execFenceRequest, onDie_running h.1, barWrite_permitted h, State.writeNoc, if_neg (by unfold domCtl; omega),
    if_neg (by unfold domCtl; omega), F.NOC_DOM_CTL_FENCE_at]
  simp only [hwas, testBit_setBit_true, if_true, Bool.false_eq_true, if_false]
  rfl

/-- R209: a write of 0 to CTL.FENCE ends a drain. -/
theorem exec_fenceCancel {d : Fin 40} {v : BitVec 64} (h : Permitted s who (domCtl d) true) :
    exec (.fenceCancel who d v) s =
      .next (((s.written who (domCtl d) (setBit v.toNat 0 false)).endDrain d).domAgain d) := by
  change execFenceCancel who d v s = _
  rw [execFenceCancel, onDie_running h.1, barWrite_permitted h, State.writeNoc, if_neg (by unfold domCtl; omega),
    if_neg (by unfold domCtl; omega), F.NOC_DOM_CTL_FENCE_at]
  simp only [testBit_setBit_false, Bool.false_eq_true, if_false]
  rfl

/-- R207: FENCE_ACK of a domain that has drained; what it holds wakes it at once. -/
theorem State.fenceDone_frame (d : Nat) : (s.fenceDone d).mem = s.mem ∧ (s.fenceDone d).coh = s.coh ∧
    (s.fenceDone d).rd F.NOC_DOM_CNT_FENCES 0 d =
      min (s.rd F.NOC_DOM_CNT_FENCES 0 d + 1) (2 ^ F.NOC_DOM_CNT_FENCES.width - 1) ∧
    (s.fenceDone d).rd F.NOC_DOM_STATUS_STATE 0 d =
      if (s.dom d).held = [] ∧ (s.dom d).blks = [] then domFENCED else domWAKING := by
  unfold State.fenceDone
  extract_lets s1 src s2
  have hregs : s2.regs = s1.regs := by
    change (if d < 16 then _ else _ : State).regs = _
    split <;> rfl
  have hstore : s2.mem = s.mem ∧ s2.coh = s.coh ∧ s2.noc = s.noc := by
    change (if d < 16 then _ else _ : State).mem = _ ∧ (if d < 16 then _ else _ : State).coh = _ ∧
      (if d < 16 then _ else _ : State).noc = _
    split <;> exact ⟨rfl, rfl, rfl⟩
  obtain ⟨hmem, hcoh, hnoc⟩ := hstore
  have hdom : s2.dom d = s.dom d := congrArg (fun n : NocSt => smGet ({} : DomSt) n.doms d) hnoc
  have hstate : s2.rd F.NOC_DOM_STATUS_STATE 0 d = domFENCED := by
    rw [State.rd_of_regs hregs]
    exact (State.rd_wr_of_id _ _ (by decide)).trans (State.rd_wr_same ..)
  have hfences : s2.rd F.NOC_DOM_CNT_FENCES 0 d =
      min (s.rd F.NOC_DOM_CNT_FENCES 0 d + 1) (2 ^ F.NOC_DOM_CNT_FENCES.width - 1) := by
    rw [State.rd_of_regs hregs]
    have h0 : (s.wr F.NOC_DOM_STATUS_STATE domFENCED 0 d).rd F.NOC_DOM_CNT_FENCES 0 d = s.rd F.NOC_DOM_CNT_FENCES 0 d :=
      State.rd_wr_of_id _ _ (by decide)
    change (State.wr _ _ _ 0 d).rd _ 0 d = _
    rw [State.rd_wr_same, h0]
    have : F.NOC_DOM_CNT_FENCES.width = 32 := rfl
    simp only [satAdd, this]
    omega
  have hempty : ((s2.dom d).held.isEmpty && (s2.dom d).blks.isEmpty) = true ↔ (s.dom d).held = [] ∧ (s.dom d).blks = [] := by
    simp [hdom]
  by_cases h : (s.dom d).held = [] ∧ (s.dom d).blks = []
  · rw [if_pos (hempty.2 h), if_pos h]
    exact ⟨hmem, hcoh, hfences, hstate⟩
  · have hwake : (s2.wakeDom d).rd F.NOC_DOM_STATUS_STATE 0 d = domWAKING :=
      State.wakeDom_state _ (by simp [State.domDown, hstate])
    have hcount : (s2.wakeDom d).rd F.NOC_DOM_CNT_FENCES 0 d = s2.rd F.NOC_DOM_CNT_FENCES 0 d := State.rd_wakeDom _ (by decide) d
    obtain ⟨hwcoh, hwmem, -, -⟩ := s2.wakeDom_frame d
    rw [if_neg (mt hempty.1 h), if_neg h]
    exact ⟨hwmem.trans hmem, hwcoh.trans hcoh, hcount.trans hfences, hwake⟩

end

/-! ### Packets and blocks that reach a domain (R189, R208) -/

/-- R404: the record written, with its address, is the last of the ring. -/
theorem State.record_last_addr (s : State) {cls sev blk inst a1 a2 d : Nat} (h : a1 < 2 ^ 64) :
    (s.record cls sev blk inst a1 a2 d).ras.getLast?.map (fun x => (x.cls, x.sev, x.blk, x.addr)) =
      some (cls, sev, blk, a1) := by
  unfold State.record
  extract_lets r full s1 s2 s3 s4
  have hcount : s3.ras = s2.ras := by
    change (if full then _ else _ : State).ras = _
    split
    · exact State.wr_ras ..
    · exact State.wr_ras ..
  have hring : s4.ras = pushRing 1024 s.ras r := by
    simp only [s4, State.bump_eq, State.set_eq, State.wr_ras, hcount]
    simp only [s2, s1, State.add_eq, State.wr_ras]
  have hlast : (if 2 ≤ sev then ({ s4 with nvs := { s4.nvs with ring := pushRing 64 s4.nvs.ring r } }).set F.GEN_STATUS_FAULT
      else s4).ras = pushRing 1024 s.ras r := by
    split
    · simp only [State.set_eq, State.wr_ras, hring]
    · exact hring
  rw [hlast, pushRing_getLast? _ _ _ (by decide)]
  exact congrArg (fun a => some (cls, sev, blk, a)) (Nat.mod_eq_of_lt h)

/-- R208: a packet that a FENCED or WAKING domain holds stands last in its queue, and wakes it. -/
theorem State.holdAt_frame {d : Nat} {f : Flight} (s : State) (h : s.domDown d = true) :
    ((s.holdAt d f).dom d).held = (s.dom d).held ++ [(opNet f.opc, f)] ∧ (s.holdAt d f).mem = s.mem ∧
    (s.holdAt d f).coh = s.coh ∧ (s.holdAt d f).rd F.NOC_DOM_STATUS_STATE 0 d = domWAKING := by
  unfold State.holdAt
  set u := s.onDom d (fun x => { x with held := x.held ++ [(opNet f.opc, f)] }) with hu
  obtain ⟨hcoh, hmem, hheld, -⟩ := u.wakeDom_frame d
  have hdown : u.domDown d = true := by
    rw [State.domDown, hu, State.rd_onDom _ (by decide)]
    exact h
  rw [hheld, hmem, hcoh, hu, State.dom_onDom]
  exact ⟨rfl, rfl, rfl, State.wakeDom_state _ hdown⟩

theorem State.mem_of_bring {s w : State} {b : Bool} {f : Flight} (h : s.bring f = (b, w)) : w.mem = s.mem := by
  have := torusBlind_mem.bring s f
  rwa [h] at this

/-- R189, R208: a packet that has crossed the torus to a domain. -/
theorem exec_fencedArrival {p : NocMsg} {d : Nat} {s w : State} (hs : s.stage = .running)
    (hbring : s.bring (nocFlight p) = (true, w)) (hdom : w.domOf (nocFlight p) = some d) :
    exec (.fencedArrival p) s = .next (if w.domDown d then
        (if w.holdRoom d (opNet (nocFlight p).opc) then (w.landed (nocFlight p)).holdAt d (nocFlight p) else w)
      else if opDefined p.opc.toNat then w else w.badPacket (nocFlight p)) := by
  change execFencedArrival p s = _
  rw [execFencedArrival, onDie_running hs]
  simp only [hbring, hdom, Bool.not_true, Bool.false_eq_true, if_false]
  rfl

/-- R93, R208: a block that a gallery's boundary holds stands last. -/
theorem State.holdBlk_frame {g page block : Nat} {ct : Bytes} (s : State) (hroom : s.holdRoom (16 + g) 3 = true)
    (hnew : (s.dom (16 + g)).blks.any (fun x => x.1 == page && x.2.1 == block) = false) :
    ((s.holdBlk g page block ct).dom (16 + g)).blks = (s.dom (16 + g)).blks ++ [(page, block, ct)] ∧
    (s.holdBlk g page block ct).mem = s.mem := by
  unfold State.holdBlk
  rw [if_neg (by simp [hnew]), if_pos hroom]
  obtain ⟨-, hmem, -, hblks⟩ :=
    (s.onDom (16 + g) (fun x => { x with blks := x.blks ++ [(page, block, ct)] })).wakeDom_frame (16 + g)
  rw [hblks, hmem, State.dom_onDom]
  exact ⟨rfl, rfl⟩

/-! ### The statement -/

section
variable {s : State}

/-- Showing the drain count changes no other field. -/
theorem State.rd_showDom {f : Field} {i j : Nat} (h : f.id % 2 ^ 32 ≠ F.NOC_DOM_STATUS_OUTSTANDING.id % 2 ^ 32) (s : State)
    (d : Nat) : (s.showDom d).rd f i j = s.rd f i j := State.rd_wr_of_id _ _ h

theorem State.outstanding_showDom (s : State) (d : Nat) : (s.showDom d).outstanding d = s.outstanding d := by
  have hcache : (s.showDom d).rd F.GAL_STATUS_CACHE_VALID (d - 16) = s.rd F.GAL_STATUS_CACHE_VALID (d - 16) :=
    State.rd_showDom (by decide) ..
  unfold State.outstanding
  simp only [hcache]
  rfl

/-- R206: a fence requested of a domain that is ON. -/
theorem State.fence_on {d : Nat} (h : s.rd F.NOC_DOM_STATUS_STATE 0 d = domON) : s.fence d =
    if s.fenceRefused d then (s.set F.NOC_DOM_STATUS_REFUSED 0 d).set F.NOC_IRQ_FENCE_REFUSED
    else (((s.clear F.NOC_DOM_STATUS_REFUSED 0 d).wr F.NOC_DOM_STATUS_STATE domDRAINING 0 d).drain d).showDom d :=
  if_neg (by simp [h])

/-- R208: DOMAIN_ON while no floor is left or entered. -/
theorem exec_domainOn {d : Fin 40} (hs : s.stage = .running) (hst : s.rd F.NOC_DOM_STATUS_STATE 0 d = domWAKING)
    (htrans : s.rd F.PWR_STATUS_TRANS = 0) : exec (.domainOn d) s = .next (if d.val < 16 then
      { s.domGo d with pwr := { (s.domGo d).pwr with selfRef := (s.domGo d).pwr.selfRef.filter (fun x => x / 4 != d.val) } }
      else (s.domGo d).domAgain d) := by
  have hagain : ((s.domGo d).domAgain d).rd F.PWR_STATUS_TRANS = 0 :=
    ((agBlind_rd (by decide)).domAgain ..).trans ((State.rd_domGo _ (by decide +kernel) (by decide) (by decide) d).trans htrans)
  change execDomainOn d s = _
  rw [execDomainOn, onDie_running hs, if_pos hst]
  have hstill : ∀ t : State, t.rd F.PWR_STATUS_TRANS = 0 →
      t.when (t.on F.PWR_STATUS_TRANS && !t.pwr.entering) State.rise = t := fun t h => by
    simp [State.on, h, State.when]
  by_cases hd : d.val < 16
  · have hhome : (s.domGo d).domAgain d = s.domGo d := State.domAgain_of_other _ (Or.inl hd)
    rw [hhome] at hagain
    simp only [hd, if_true, hhome]
    exact congrArg _ (hstill _ hagain)
  · simp only [hd, if_false]
    exact congrArg _ (hstill _ hagain)

end

/-- Settles O33: the fence of a domain by the state it is in, the packets and blocks that reach it, and its wake. -/
theorem fences : Obligations.Fences := by
  unfold Obligations.Fences
  refine ⟨fun who d v s w hperm => ⟨fun hw hfence hon => ⟨fun hrefused => ?_, fun hok u hu => ?_⟩, fun hw => ⟨fun hdrain => ?_,
    fun hst => ?_⟩⟩, fun d s hs => ⟨fun hdrain hout => ?_, fun h => ?_, fun hwake htrans u hu => ?_, fun h => ?_⟩,
    fun p d s w hs hbring hdom hd => ⟨fun hdown hroom => ?_, fun hdown hroom => ?_, fun hup hdef => ?_, fun hup hdef => ?_⟩,
    fun g page block bs s hs => ⟨fun hdown hroom hnew => ?_, fun hup hgood => ?_, fun hup hbad => ?_⟩⟩
  · subst hw
    refine ⟨_, (exec_fenceRequest hperm hfence).trans (congrArg _ ((State.fence_on hon).trans (if_pos hrefused))), ?_,
      State.rd_wr_same .., ?_, State.written_sameStore ..⟩
    · exact (State.rd_wr_of_id _ _ (by decide)).trans (State.rd_wr_same ..)
    · exact (State.rd_wr_of_id _ _ (by decide)).trans ((State.rd_wr_of_id _ _ (by decide)).trans hon)
  · subst hw hu
    refine ⟨_, (exec_fenceRequest hperm hfence).trans (congrArg _ ((State.fence_on hon).trans (if_neg (by simp [hok])))), rfl,
      State.written_sameStore .., State.rd_wr_same .., (State.rd_wr_of_id _ _ (by decide)).trans (State.rd_wr_same ..)⟩
  · subst hw
    obtain ⟨hon, hclear⟩ := State.endDrain_draining _ hdrain
    exact ⟨_, exec_fenceCancel hperm, rfl, ((agBlind_rd (by decide)).domAgain ..).trans hon,
      ((agBlind_rd (by decide)).domAgain ..).trans hclear⟩
  · subst hw
    have hend : (s.written who (domCtl d) (setBit v.toNat 0 false)).endDrain d =
        s.written who (domCtl d) (setBit v.toNat 0 false) := if_neg hst
    refine ⟨_, exec_fenceCancel hperm, by rw [hend], fun h => ?_⟩
    rw [hend, State.domAgain_of_other _ h]
    exact State.written_sameStore ..
  · obtain ⟨hmem, hcoh, hfences, hstate⟩ := (s.showDom d).fenceDone_frame d
    refine ⟨_, ?_, (s.showDom d).fenceDone d, rfl, hfences.trans ?_, hmem, hcoh, hstate⟩
    · change execFenceAck d s = _
      rw [execFenceAck, onDie_running hs, if_pos ⟨(State.rd_showDom (by decide) ..).trans hdrain,
        (State.outstanding_showDom ..).trans hout⟩]
    · rw [State.rd_showDom (by decide)]
  · refine ⟨_, ?_, rfl⟩
    change execFenceAck d s = _
    rw [execFenceAck, onDie_running hs, if_neg]
    rw [State.rd_showDom (by decide), State.outstanding_showDom]
    exact fun hb => h.elim (fun hn => hn hb.1) (fun hn => hn hb.2)
  · subst hu
    obtain ⟨hheld, hblks, hmem, hflight⟩ := State.releaseHeld_frame (s.wr F.NOC_DOM_STATUS_STATE domON 0 d) d
    refine ⟨_, exec_domainOn hs hwake htrans, State.rd_domGo_state .., hheld, hblks, hmem, hflight, fun h => ?_, fun h => ?_⟩
    · rw [if_pos h]
      refine ⟨rfl, rfl, rfl, rfl, fun k hk => ?_⟩
      simp only [List.contains_eq_mem, List.mem_filter, decide_eq_false_iff_not]
      rintro ⟨-, hne⟩
      have : (4 * d.val + k) / 4 = d.val := by omega
      simp [this] at hne
    · rw [if_neg (by omega)]
  · exact ⟨s, by change execDomainOn d s = _; rw [execDomainOn, onDie_running hs, if_neg h], rfl⟩
  · have hopc : (nocFlight p).opc = p.opc.toNat := rfl
    have hw : w.mem = s.mem := State.mem_of_bring hbring
    have hland : (w.landed (nocFlight p)).domDown d = true := hdown
    obtain ⟨hheld, hmem, hcoh, hstate⟩ := (w.landed (nocFlight p)).holdAt_frame (f := nocFlight p) hland
    refine ⟨_, (exec_fencedArrival hs hbring hdom).trans (by rw [if_pos hdown, hopc, if_pos hroom]), hheld,
      hmem.trans hw, congrArg CohSt.flight hcoh, hstate⟩
  · have hopc : (nocFlight p).opc = p.opc.toNat := rfl
    exact ⟨_, (exec_fencedArrival hs hbring hdom).trans (by rw [if_pos hdown, if_neg (by rw [hopc, hroom]; nofun)]), rfl⟩
  · exact ⟨_, (exec_fencedArrival hs hbring hdom).trans (by rw [if_neg (by rw [hup]; nofun), if_pos hdef]), rfl⟩
  · have hw : w.mem = s.mem := State.mem_of_bring hbring
    refine ⟨w.badPacket (nocFlight p), (exec_fencedArrival hs hbring hdom).trans
      (by rw [if_neg (by rw [hup]; nofun), if_neg (by rw [hdef]; nofun)]), ?_, ?_, State.record_last_addr _ ?_⟩
    · exact congrArg CohSt.flight (State.record_coh ..)
    · exact (State.record_mem ..).trans hw
    · exact p.m.line.isLt.trans (by decide)
  · obtain ⟨hblks, hmem⟩ := s.holdBlk_frame hroom hnew (ct := bs)
    exact ⟨_, by change execBlk g page block bs s = _; rw [execBlk, onDie_running hs, if_pos hdown], hblks, hmem⟩
  · have hcross : (s.blkDecode g page.toNat block bs).crossView = s.crossView := blkBlind_crossView.blkDecode ..
    obtain ⟨hmem, hcoh, -, hlen⟩ : _ ∧ _ ∧ _ ∧ _ := by simpa only [State.crossView, Prod.mk.injEq] using hcross
    refine ⟨_, ?_, rfl, hmem, hcoh, hlen⟩
    change execBlk g page block bs s = _
    rw [execBlk, onDie_running hs]
    simp only [hup, hgood, Bool.false_eq_true, if_false]
  · refine ⟨({ s with noc := { s.noc with bad := s.noc.bad.erase (blkFlight g page.toNat block) } } : State).shareBlock
      page.toNat block (.bad 1), ?_, rfl, rfl, rfl, rfl⟩
    change execBlk g page block bs s = _
    rw [execBlk, onDie_running hs]
    simp only [hup, hbad, Bool.false_eq_true, if_false, if_true]

end Sys2Proof.Machine

/-!
# Answers, data and acceptance at a home (R170, R173, R174, R227)

The acceptance of a write may answer an agent behind a peer proxy. That answer is a packet of a Catwalk link, and a link whose
replay buffer is full writes its oldest flit to the spill ring, which lies in DRAM (R227, R228).
-/

namespace Sys2Proof.Machine

/-! ### Transaction table -/

section
variable {s : State} {h e : Nat} {t : TT}

theorem find?_smInsert {α : Type} (m : SMap α) (k : Nat) (v : α) : (smInsert m k v).find? (fun x => x.1 == k) = some (k, v) := by
  induction m with
  | nil => simp [smInsert]
  | cons x m ih =>
    unfold smInsert
    split
    · simp
    · split
      · simp
      next h1 h2 => rw [List.find?_cons_of_neg (by simp; omega), ih]

theorem State.tt_setTT : (s.setTT h e t).tt h e = some t := by
  change ((smInsert s.coh.tt (256 * h + e) t).find? (fun x => x.1 == 256 * h + e)).map (·.2) = some t
  rw [find?_smInsert]
  rfl

/-- R170: an entry that does not close stays. -/
theorem State.tryClose_setTT (hc : t.closes = false) : (s.setTT h e t).tryClose h e = s.setTT h e t := by
  unfold State.tryClose
  rw [State.tt_setTT]
  exact if_neg (by simp [hc])

/-- R170: the acceptance of the write of a WbD of the owner is acknowledged. -/
theorem State.homeWdone_wbOwn {r : MapReq} {w : State} (ht : s.tt h e = some t) (hout : t.wrOut = true)
    (hplan : t.plan = .wbOwn) (hreq : s.mapReq h e true = some r) (hst : r.st = .served)
    (hbring : s.bring (wdoneFlight r) = (true, w)) : s.homeWdone h e =
      ((((((w.dropPkt (wdoneFlight r)).dropReq r).freeWdb h t.req t.line).reply e { t with wrOut := false } opAck false none).setTT
        h e { t with wrOut := false, sent := true }).tryClose h e) := by
  have hhurry : s.hurry h e true = s := by
    unfold State.hurry
    rw [hreq]
    exact if_neg (by simp [hst])
  unfold State.homeWdone
  simp only [ht, hout, hhurry, hreq, hbring, hst, hplan]
  simp [TT.req, TT.line]

end

/-! ### A packet that fills a replay buffer (R219, R223, R227) -/

section
variable {s : State} {n : Nat} {q : CwkPacket}

theorem State.link_onLink (f : Link → Link) : (s.onLink n f).link n = f (s.link n) := smGet_smSet_same ..

/-- The state in which a link whose queue is empty starts a packet. -/
def State.starting (s : State) (n : Nat) (q : CwkPacket) : State :=
  ((s.onLink n (fun l => { l with txq := l.txq ++ [q] })).onLink n (fun l => { l with txq := [] })).sub F.CWK_VC_CREDIT
    (cwkHdr q.hdr.toNat).cost n (cwkHdr q.hdr.toNat).vc

theorem State.queueOn_mem (hq : (s.link n).txq = [])
    (hstart : ((s.onLink n (fun l => { l with txq := l.txq ++ [q] })).onLink n (fun l => { l with txq := [] })).mayStart n q = true) :
    (s.queueOn n q).mem = ((s.starting n q).packetFlits n q).mem := by
  unfold State.queueOn State.pump
  simp only [State.link_onLink, hq, List.nil_append, List.foldl_cons, List.foldl_nil, List.contains_nil, Bool.false_or, hstart,
    Bool.not_true, Bool.false_eq_true, if_false]
  have hshow : ∀ (t : State) (v : State → Nat → Nat),
      (t.forEach (List.range 8) (fun u k => u.wr F.CWK_VC_BLOCKED (v u k) n k)).mem = t.mem := fun t v =>
    State.forEach_keeps (p := State.mem) fun _ _ => rfl
  rw [hshow, State.onLink_mem, State.starting]

/-- R223: the state in which a flit has been stored. -/
def State.stored (s : State) (n : Nat) (slots : Bytes) : State :=
  (s.wr F.CWK_SEQ_TX_LAST ((s.rd F.CWK_SEQ_TX_LAST n + 1) % 65536) n).onLink n (fun l =>
    { l with stored := l.stored ++ [((s.rd F.CWK_SEQ_TX_LAST n + 1) % 65536, slots)] })

theorem State.link_stored (slots : Bytes) : ((s.stored n slots).link n).stored =
    (s.link n).stored ++ [((s.rd F.CWK_SEQ_TX_LAST n + 1) % 65536, slots)] := by
  unfold State.stored
  rw [State.link_onLink]
  rfl

theorem State.link_starting : ((s.starting n q).link n).stored = (s.link n).stored := by
  have hsub : ∀ (t : State) v k, (t.sub F.CWK_VC_CREDIT v n k).link n = t.link n := fun _ _ _ => rfl
  unfold State.starting
  rw [hsub, State.link_onLink, State.link_onLink]

/-- R227: the flit of a full replay buffer spills the oldest one. -/
theorem State.dataFlit_full {slots : Bytes} (hfull : 8192 < ((s.stored n slots).link n).stored.length)
    (hok : (s.stored n slots).on F.CWK_STATUS_SPILL_OK n = true) : s.dataFlit n slots =
      (((s.stored n slots).spill n).drive n slots ((s.rd F.CWK_SEQ_TX_LAST n + 1) % 65536)
        (((s.stored n slots).spill n).bypassDue n)).showStored n := by
  have hspill : (s.stored n slots).when (8192 < ((s.stored n slots).link n).stored.length &&
      (s.stored n slots).on F.CWK_STATUS_SPILL_OK n) (fun s => s.spill n) = (s.stored n slots).spill n := by
    simp only [State.when, hfull, hok, decide_true, Bool.and_self, if_true]
  rw [← hspill]
  rfl

theorem State.drive_showStored_mem (a b : Nat) (slots : Bytes) : ((s.drive n slots a b).showStored n).mem = s.mem := by
  simp only [State.showStored, State.drive, State.returns, State.wr_mem, State.emit_mem, State.onLink_mem]

end

/-! ### What a line stored in DRAM leaves (R272, R284) -/

theorem polyAdd_ne_nil (a : Nat) (p q : List Nat) : polyAdd (a :: p) q ≠ [] := by
  cases q <;> simp [polyAdd]

/-- R272: a line has a first check symbol. -/
theorem rsEncode_ne_nil (data : Bytes) (a : Nat) : rsEncode data a ≠ [] := by
  have hshift : ∀ (g : List Nat) (l reg : List Nat), reg ≠ [] → l.foldl (rsShift g) reg ≠ [] := fun g l => by
    induction l with
    | nil => exact fun _ h => h
    | cons c l ih => exact fun _ _ => ih _ (polyAdd_ne_nil _ _ _)
  have hcheck : rsCheck (data.map BitVec.toNat) a ≠ [] := hshift _ _ _ (by decide)
  simp [rsEncode, hcheck]

/-- Storing symbols from `k` on leaves every key but theirs. -/
theorem smGet_putSymbols_ne {c cla key : Nat} {d : Byte} (w : Bytes) (k : Nat) (m : List Host.Cell)
    (h : ∀ i, k ≤ i → key ≠ memKey c cla i) :
    smGet d ((w.zipIdx k).foldl (fun m x => smSet (memDefault (memKey c cla x.2)) m (memKey c cla x.2) x.1) m) key =
      smGet d m key := by
  induction w generalizing k m with
  | nil => rfl
  | cons b w ih =>
    rw [List.zipIdx_cons, List.foldl_cons, ih (k + 1) _ fun i hi => h i (by omega)]
    exact smGet_smSet_ne _ _ _ _ (h k le_rfl)

section
variable {s : State} {c cla : Nat} {w : Bytes}

/-- The first symbol of a line that is stored. -/
theorem State.setRawLine_first {b : Byte} :
    smGet (memDefault (memKey c cla 0)) (s.setRawLine c cla (b :: w)).mem (memKey c cla 0) = b := by
  have hrest : ∀ i, 1 ≤ i → memKey c cla 0 ≠ memKey c cla i := fun i hi => by
    unfold memKey
    omega
  change smGet _ ((((b :: w).take 80).zipIdx).foldl _ s.mem) _ = b
  rw [List.take_succ_cons, List.zipIdx_cons, List.foldl_cons]
  exact (smGet_putSymbols_ne _ _ _ hrest).trans (smGet_smSet_same ..)

/-- The map, the structure, DRAM, and the line that an access to each line uses. -/
def State.lineView (s : State) : MapSt × StrSt × List Host.Cell × (Nat → Nat → Nat × Nat) := (s.map, s.str, s.mem, s.target)

/-- The fields that say which line of the spare region a line uses. -/
def remapFields : List Field := [F.DRC_REMAP_0_STATE, F.DRC_REMAP_0_ORIG_CLA, F.DRC_REMAP_0_GEN, F.DRC_REMAP_1_SPARE]

theorem State.wr_lineView {f : Field} {v i j : Nat} (h : ∀ g ∈ remapFields, g.id % 2 ^ 32 ≠ f.id % 2 ^ 32) :
    (s.wr f v i j).lineView = s.lineView := by
  have hrd : ∀ g ∈ remapFields, ∀ k m, (s.wr f v i j).rd g k m = s.rd g k m := fun g hg _ _ => State.rd_wr_of_id _ _ (h g hg)
  have hremap : (s.wr f v i j).remapOf = s.remapOf := by
    funext c cla
    simp only [State.remapOf, hrd F.DRC_REMAP_0_STATE (by simp [remapFields]), hrd F.DRC_REMAP_0_ORIG_CLA (by simp [remapFields])]
  have htarget : (s.wr f v i j).target = s.target := by
    funext c cla
    simp only [State.target, hremap, hrd F.DRC_REMAP_1_SPARE (by simp [remapFields]),
      hrd F.DRC_REMAP_0_GEN (by simp [remapFields])]
    rfl
  simp only [State.lineView, htarget]
  rfl

theorem postBlind_lineView : PostBlind State.lineView where
  wr f hf _ _ _ _ := State.wr_lineView (by revert f; decide)
  smp _ _ := rfl
  txn _ _ := rfl
  free _ _ := rfl
  post f hf _ _ _ _ := State.wr_lineView (by revert f; decide)
  dram _ _ := rfl
  pwr _ _ := rfl

theorem State.emptyUse_lineView : s.emptyUse.lineView = s.lineView :=
  (State.wr_lineView (by decide)).trans (State.wr_lineView (by decide))

theorem State.ringPost_lineView (n p l : Nat) (b : Bool) : (s.ringPost n p l b).lineView = s.lineView := by
  unfold State.ringPost
  split
  · exact postBlind_lineView.postLine ..
  · rfl

end

/-! ### A flit spilled into the frame of page 0 (R227, R228) -/

/-- The ring slot of link `n` that a spill takes next is the first of page 0; that page lies at the start of channel 0, whose rank
is up, and its key is there. -/
structure State.SpillsAtZero (s : State) (n : Nat) : Prop where
  line : ∀ i < 4, (s.link n).ringLine (s.link n).ringAt i = (0, i)
  loc : (s.pme 0).loc = 0
  key : s.keyUp (s.pme 0).key = true
  place : ∀ i < 4, s.place (64 * i) = some (0, i)
  target : ∀ i < 4, (s.target 0 i).1 = i
  up : s.rankUp 0 0 = true

/-- The first stored symbol of what a flit leaves in its ring slot. It does not hang on DRAM. -/
def State.spilledSymbol (s : State) (seq : Nat) (slots : Bytes) : Byte :=
  (rsEncode ((s.keyFor (s.pme 0).key 0 false).1.enc (hallTweak (lineOf 0 0) (s.keyFor (s.pme 0).key 0 false).2)
    (slice (ringBytes seq slots) 0 64)) (s.target 0 0).2).headD 0

section
variable {s u : State} {n : Nat}

/-- R141, R272: a good line of a Hall page whose rank is up is stored. -/
theorem State.putHall_stored {p l c cla : Nat} {d : Bytes} (hplace : s.place ((s.pme p).loc * 4096 + 64 * l) = some (c, cla))
    (hup : s.rankUp c (claRank cla) = true) : s.putHall p l d false =
      ({ s with causes := smErase s.causes (c * 2 ^ 38 + cla) } : State).setRawLine c (s.target c cla).1
        (rsEncode ((s.keyFor (s.pme p).key p false).1.enc (hallTweak (lineOf p l) (s.keyFor (s.pme p).key p false).2) d)
          (s.target c cla).2) := by
  have hup' : ¬ (!State.rankUp { s with causes := smErase s.causes (c * 2 ^ 38 + cla) } c (claRank cla)) = true := by
    rw [show State.rankUp { s with causes := smErase s.causes (c * 2 ^ 38 + cla) } c (claRank cla) = true from hup]
    decide
  unfold State.putHall State.putMa
  simp only [hplace]
  rw [if_neg hup', if_neg Bool.false_ne_true]
  rfl

/-- The first line of the slot is stored. -/
theorem State.SpillsAtZero.putHall_first (h : s.SpillsAtZero n) (seq : Nat) (slots : Bytes) :
    smGet (memDefault 0) (s.putHall 0 0 (slice (ringBytes seq slots) 0 64) false).mem 0 = s.spilledSymbol seq slots := by
  have hplace : s.place ((s.pme 0).loc * 4096 + 64 * 0) = some (0, 0) := by
    rw [h.loc]
    exact h.place 0 (by decide)
  have hkey : memKey 0 0 0 = 0 := by
    unfold memKey
    omega
  rw [State.putHall_stored hplace h.up, h.target 0 (by decide), State.spilledSymbol]
  obtain ⟨b, w, hw⟩ := List.exists_cons_of_ne_nil (rsEncode_ne_nil ((s.keyFor (s.pme 0).key 0 false).1.enc
    (hallTweak (lineOf 0 0) (s.keyFor (s.pme 0).key 0 false).2) (slice (ringBytes seq slots) 0 64)) (s.target 0 0).2)
  rw [hw]
  have := State.setRawLine_first (s := { s with causes := smErase s.causes (0 * 2 ^ 38 + 0) }) (c := 0) (cla := 0) (b := b)
    (w := w)
  rwa [hkey] at this

/-- A later line of the slot leaves the first one. -/
theorem State.SpillsAtZero.putHall_next (h : s.SpillsAtZero n) (hmap : u.map = s.map) (hstr : u.str = s.str)
    (htarget : u.target = s.target) {i : Nat} (h0 : i ≠ 0) (hi : i < 4) (d : Bytes) (b : Byte) :
    smGet b (u.putHall 0 i d false).mem 0 = smGet b u.mem 0 ∧ (u.putHall 0 i d false).map = u.map ∧
    (u.putHall 0 i d false).str = u.str ∧ (u.putHall 0 i d false).target = u.target := by
  have hpme : u.pme 0 = s.pme 0 := by
    unfold State.pme State.pmeDflt
    rw [hmap]
  have hplace : u.place ((u.pme 0).loc * 4096 + 64 * i) = some (0, i) := by
    have : u.place = s.place := by
      funext ma
      unfold State.place State.groupOf State.secs
      rw [hmap, hstr]
    rw [this, hpme, h.loc, Nat.zero_mul, Nat.zero_add]
    exact h.place i hi
  have hline : (u.target 0 i).1 = i := by
    rw [htarget]
    exact h.target i hi
  have hne : ∀ k, 0 ≤ k → 0 ≠ memKey 0 i k := fun k _ => by
    unfold memKey
    omega
  unfold State.putHall State.putMa
  simp only [hplace, Bool.false_eq_true, if_false]
  split
  · exact ⟨rfl, rfl, rfl, rfl⟩
  · refine ⟨?_, rfl, rfl, rfl⟩
    unfold State.storeLine
    rw [← hline] at hne
    exact smGet_putSymbols_ne _ 0 _ hne

/-- R141, R228: line `i` of the flit goes to its line of the ring slot. -/
def Link.spillLine (l : Link) (n seq : Nat) (slots : Bytes) (u : State) (i : Nat) : State :=
  let x := l.ringLine l.ringAt i
  if u.keyUp (u.pme x.1).key then
    (u.putHall x.1 x.2 (slice (ringBytes seq slots) (64 * i) 64) false).ringPost n x.1 x.2 true
  else u.emptyUse

theorem State.spill_mem {seq : Nat} {slots : Bytes} {rest : List (Nat × Bytes)} (hst : (s.link n).stored = (seq, slots) :: rest) :
    (s.spill n).mem = (s.forEach (List.range 4) ((s.link n).spillLine n seq slots)).mem := by
  unfold State.spill
  simp only [hst]
  rw [State.onLink_mem]
  rfl

/-- The first symbol of the ring slot is `b`, and the map, the structure and the remap entries are as they were. -/
def State.SlotBegun (s : State) (b : Byte) (u : State) : Prop :=
  smGet (memDefault 0) u.mem 0 = b ∧ u.map = s.map ∧ u.str = s.str ∧ u.target = s.target

/-- R227: what a spill leaves in the first symbol of its ring slot. -/
theorem State.SpillsAtZero.spill (h : s.SpillsAtZero n) {seq : Nat} {slots : Bytes} {rest : List (Nat × Bytes)}
    (hst : (s.link n).stored = (seq, slots) :: rest) :
    smGet (memDefault 0) (s.spill n).mem 0 = s.spilledSymbol seq slots := by
  have hpost : ∀ (t : State) (i : Nat), (t.ringPost n 0 i true).map = t.map ∧ (t.ringPost n 0 i true).str = t.str ∧
      (t.ringPost n 0 i true).mem = t.mem ∧ (t.ringPost n 0 i true).target = t.target := fun t i => by
    simpa only [State.lineView, Prod.mk.injEq] using t.ringPost_lineView n 0 i true
  have hempty : ∀ t : State, t.emptyUse.map = t.map ∧ t.emptyUse.str = t.str ∧ t.emptyUse.mem = t.mem ∧
      t.emptyUse.target = t.target := fun t => by
    simpa only [State.lineView, Prod.mk.injEq] using t.emptyUse_lineView
  have hlines : List.range 4 = [0, 1, 2, 3] := rfl
  rw [State.spill_mem hst, hlines, State.forEach_cons]
  have hfirst : s.SlotBegun (s.spilledSymbol seq slots) ((s.link n).spillLine n seq slots s 0) := by
    have hstep : (s.link n).spillLine n seq slots s 0 =
        (s.putHall 0 0 (slice (ringBytes seq slots) 0 64) false).ringPost n 0 0 true := by
      unfold Link.spillLine
      rw [h.line 0 (by decide)]
      exact if_pos h.key
    obtain ⟨hmap, hstr, hmem, htarget⟩ := hpost (s.putHall 0 0 (slice (ringBytes seq slots) 0 64) false) 0
    rw [hstep, State.SlotBegun, hmap, hstr, hmem, htarget]
    have hplace : s.place ((s.pme 0).loc * 4096 + 64 * 0) = some (0, 0) := by
      rw [h.loc]
      exact h.place 0 (by decide)
    refine ⟨h.putHall_first seq slots, ?_⟩
    rw [State.putHall_stored hplace h.up]
    exact ⟨rfl, rfl, rfl⟩
  have hnext : ∀ u : State, ∀ i ∈ [1, 2, 3], s.SlotBegun (s.spilledSymbol seq slots) u →
      s.SlotBegun (s.spilledSymbol seq slots) ((s.link n).spillLine n seq slots u i) := fun u i hi hu => by
    have hi4 : i ≠ 0 ∧ i < 4 := by
      simp only [List.mem_cons, List.not_mem_nil, or_false] at hi
      omega
    obtain ⟨hsym, hmap, hstr, htarget⟩ := hu
    unfold Link.spillLine
    simp only [h.line i hi4.2]
    split
    · obtain ⟨hmap', hstr', hmem', htarget'⟩ := hpost (u.putHall 0 i (slice (ringBytes seq slots) (64 * i) 64) false) i
      obtain ⟨hsym2, hmap2, hstr2, htarget2⟩ :=
        h.putHall_next hmap hstr htarget hi4.1 hi4.2 (slice (ringBytes seq slots) (64 * i) 64) (memDefault 0)
      rw [State.SlotBegun, hmem', hmap', hstr', htarget', hsym2, hmap2, hstr2, htarget2]
      exact ⟨hsym, hmap, hstr, htarget⟩
    · obtain ⟨hmap', hstr', hmem', htarget'⟩ := hempty u
      rw [State.SlotBegun, hmem', hmap', hstr', htarget']
      exact ⟨hsym, hmap, hstr, htarget⟩
  exact (State.forEach_induct hfirst hnext).1

end

/-! ### An answer to an agent behind a peer proxy (R177) -/

/-- The packet that carries a message of class `cls` to slot `t` over link `n`. -/
def State.memberPacket (s : State) (n t cls : Nat) (f : Flight) : CwkPacket :=
  ⟨BitVec.ofNat 128 ({ cohHdr f with
    ut := 1, vc := vcOf (s.secs.vcs n) cls, sslot := s.slot, dslot := t, ndu := opcNdu (cohHdr f).opc } : CwkHdr).word,
    BitVec.ofNat 64 f.msg.mask.toNat, BitVec.ofNat 512 f.msg.data.toNat, 0⟩

theorem State.sendTo_member {s : State} {a n cls : Nat} {f : Flight} (ha : 81 ≤ a)
    (hcoh : s.excluded (proxySlot s.slot a) = false) (hclass : cwkClass (cohHdr f).opc = some cls)
    (hlink : s.linkTo (proxySlot s.slot a) (cohHdr f).line (cls == 4) = some n) :
    s.sendTo a f = s.queueOn n (s.memberPacket n (proxySlot s.slot a) cls f) := by
  unfold State.sendTo State.toMember State.toSlot
  rw [if_neg (by omega), hcoh, Bool.false_and, if_neg Bool.false_ne_true]
  simp only [hclass, hlink]
  rfl

/-! ### DRAM is not read -/

section
variable (s : State) (m : List Host.Cell)

theorem State.starting_stored_withMem (n : Nat) (q : CwkPacket) (slots : Bytes) :
    (State.starting { s with mem := m } n q).stored n slots = { (s.starting n q).stored n slots with mem := m } := rfl

theorem State.SpillsAtZero.withMem {s : State} {n : Nat} (h : s.SpillsAtZero n) : State.SpillsAtZero { s with mem := m } n := by
  obtain ⟨hline, hloc, hkey, hplace, htarget, hup⟩ := h
  exact ⟨hline, hloc, hkey, hplace, htarget, hup⟩

theorem State.spilledSymbol_withMem (seq : Nat) (slots : Bytes) :
    ({ s with mem := m } : State).spilledSymbol seq slots = s.spilledSymbol seq slots := rfl

/-- The 224 slot bytes of the flit of a packet. -/
def flitSlots (q : CwkPacket) : Bytes :=
  ((cwkUnits q.hdr.toNat q.mask.toNat q.data.toNat).flatten ++ List.replicate 224 0).take 224

/-- R227: whatever DRAM holds, a packet that fills the replay buffer leaves the oldest flit in the first line of page 0. -/
theorem State.queueOn_spills {s : State} {n seq : Nat} {q : CwkPacket} {slots : Bytes} {rest : List (Nat × Bytes)}
    (hidle : (s.link n).txq = [])
    (hstart : ((s.onLink n (fun l => { l with txq := l.txq ++ [q] })).onLink n (fun l => { l with txq := [] })).mayStart n q = true)
    (hfull : 8192 < (((s.starting n q).stored n (flitSlots q)).link n).stored.length)
    (hok : ((s.starting n q).stored n (flitSlots q)).on F.CWK_STATUS_SPILL_OK n = true)
    (hzero : ((s.starting n q).stored n (flitSlots q)).SpillsAtZero n)
    (hst : (((s.starting n q).stored n (flitSlots q)).link n).stored = (seq, slots) :: rest) :
    smGet (memDefault 0) (({ s with mem := m } : State).queueOn n q).mem 0 =
      ((s.starting n q).stored n (flitSlots q)).spilledSymbol seq slots := by
  have hflit : (State.starting { s with mem := m } n q).packetFlits n q =
      (State.starting { s with mem := m } n q).dataFlit n (flitSlots q) := rfl
  have hdram := State.starting_stored_withMem s m n q (flitSlots q)
  rw [State.queueOn_mem (s := { s with mem := m }) hidle hstart, hflit, State.dataFlit_full (by rw [hdram]; exact hfull) (by rw [hdram]; exact hok),
    State.drive_showStored_mem, hdram]
  have hlink : (({ (s.starting n q).stored n (flitSlots q) with mem := m } : State).link n).stored = (seq, slots) :: rest := hst
  rw [(hzero.withMem m).spill hlink, State.spilledSymbol_withMem]

/-- R177: a message to an agent behind a peer proxy goes out on the link to its member, whatever DRAM holds. -/
theorem State.sendTo_member_withMem {s : State} {a n cls : Nat} {f : Flight} (ha : 81 ≤ a)
    (hcoh : s.excluded (proxySlot s.slot a) = false) (hclass : cwkClass (cohHdr f).opc = some cls)
    (hlink : s.linkTo (proxySlot s.slot a) (cohHdr f).line (cls == 4) = some n) : ({ s with mem := m } : State).sendTo a f =
      ({ s with mem := m } : State).queueOn n (s.memberPacket n (proxySlot s.slot a) cls f) :=
  State.sendTo_member (s := { s with mem := m }) ha hcoh hclass hlink

end

/-! ### The counterexample -/

/-- The WbD of the owner behind Catwalk link 0, whose write awaits its WDONE and on which a memory read is still out. -/
def spillingEntry : TT :=
  { opc := opWbD, msg := { src := 81 }, st := .wb, seq := 0, plan := .wbOwn, wrOut := true, memOut := true }

/-- The write of that entry, which its slice has accepted. -/
def spillingWrite : MapReq :=
  { home := 0, tt := 0, write := true, line := 0, data := 0, mask := 0, poison := false, master := 0, agent := 81, st := .served }

/-- The Acknowledge owed to the owner. -/
def spillingAck : Flight := ⟨opAck, .agent 81, {}⟩

/-- A member in slot 0 whose link 0 to slot 1 is ACTIVE, has a full replay buffer, and spills into page 0. -/
def spillingState : State :=
  (((((({ State.reset with
    stage := .running
    str := { applied := true, secs := [(secSPAN, [1, 0, 0, 0, 3, 0, 0, 0, 0, 0, 0, 0, 0, 0, 0, 0, 1, 4])] }
    map := { State.reset.map with
      groups := [{ set := 0, r := 0, chans := [0], size := 2097152, loft := false, base := 0 }]
      pmes := [(0, { tier := 1 })]
      reqs := [spillingWrite] }
    coh := { State.reset.coh with tt := [(0, spillingEntry)] }
    links := [(0, { stored := List.replicate 8192 (0, List.replicate 224 0), ring := [(0, 0)] })] } : State).wr
    F.CWK_STATUS_STATE cwACTIVE).set F.CWK_STATUS_SPILL_OK).wr F.CWK_UNACK_LIMIT 0x4000).wr F.CWK_VC_CREDIT 8 0 2).wr
    F.DRC_RANK_STATUS_STATE rankACTIVE).set F.KEY_SLOT_STATE_STATE

/-- The write is taken from its slice. -/
def spillingAccepted : State := (spillingState.dropPkt (wdoneFlight spillingWrite)).dropReq spillingWrite

def spillingPacket : CwkPacket := spillingAccepted.memberPacket 0 1 2 spillingAck

/-- The flit of that packet is stored: the replay buffer is over its size. -/
def spillingFull : State := (spillingAccepted.starting 0 spillingPacket).stored 0 (flitSlots spillingPacket)

theorem spillingFull_spillsAtZero : spillingFull.SpillsAtZero 0 where
  line := by decide +kernel
  loc := by decide +kernel
  key := by decide +kernel
  place := by decide +kernel
  target := by decide +kernel
  up := by decide +kernel

theorem spillingFull_stored : (spillingFull.link 0).stored = List.replicate 8192 (0, List.replicate 224 0) ++
    [(((spillingAccepted.starting 0 spillingPacket).rd F.CWK_SEQ_TX_LAST + 1) % 65536, flitSlots spillingPacket)] := by
  unfold spillingFull
  rw [State.link_stored, State.link_starting]
  rfl

/-- The packet may start, and the link may spill. -/
theorem spillingAccepted_starts : ((spillingAccepted.onLink 0 (fun l => { l with txq := l.txq ++ [spillingPacket] })).onLink 0
    (fun l => { l with txq := [] })).mayStart 0 spillingPacket = true ∧
    spillingFull.on F.CWK_STATUS_SPILL_OK 0 = true := by
  decide +kernel

/-- The answer goes out over link 0. -/
theorem spillingAccepted_path : spillingAccepted.excluded (proxySlot spillingAccepted.slot 81) = false ∧
    cwkClass (cohHdr spillingAck).opc = some 2 ∧ proxySlot spillingAccepted.slot 81 = 1 ∧
    spillingAccepted.linkTo (proxySlot spillingAccepted.slot 81) (cohHdr spillingAck).line (2 == 4) = some 0 := by
  decide +kernel

/-- R227: whatever DRAM holds, the Acknowledge spills the oldest flit into the first line of page 0. -/
theorem spilling_sendTo (m : List Host.Cell) :
    smGet (memDefault 0) (({ spillingAccepted with mem := m } : State).sendTo 81 spillingAck).mem 0 =
      spillingFull.spilledSymbol 0 (List.replicate 224 0) := by
  obtain ⟨hcoh, hclass, hslot, hlink⟩ := spillingAccepted_path
  obtain ⟨hstart, hok⟩ := spillingAccepted_starts
  have hfull : 8192 < (spillingFull.link 0).stored.length := by
    rw [spillingFull_stored, List.length_append, List.length_replicate, List.length_singleton]
    decide
  have hst : (spillingFull.link 0).stored = (0, List.replicate 224 0) :: (List.replicate 8191 (0, List.replicate 224 0) ++
      [(((spillingAccepted.starting 0 spillingPacket).rd F.CWK_SEQ_TX_LAST + 1) % 65536, flitSlots spillingPacket)]) := by
    rw [spillingFull_stored, List.replicate_succ]
    rfl
  have hidle : (spillingAccepted.link 0).txq = [] := rfl
  rw [State.sendTo_member_withMem m (le_refl 81) hcoh hclass hlink, hslot]
  exact State.queueOn_spills m hidle hstart hfull hok spillingFull_spillsAtZero hst

/-- R170: the acceptance of the write sends the Acknowledge; the entry stays open. -/
theorem spilling_homeWdone (m : List Host.Cell) : (({ spillingState with mem := m } : State).homeWdone 0 0).mem =
    (({ spillingAccepted with mem := m } : State).sendTo 81 spillingAck).mem := by
  have hfree : (State.dropReq (State.dropPkt { spillingState with mem := m } (wdoneFlight spillingWrite))
        spillingWrite).freeWdb 0 81 0 =
      { spillingAccepted with mem := m } := rfl
  have hack : (State.reply { spillingAccepted with mem := m } 0 { spillingEntry with wrOut := false } opAck false none) =
      ({ spillingAccepted with mem := m } : State).sendTo 81 spillingAck := rfl
  rw [State.homeWdone_wbOwn (s := { spillingState with mem := m }) (w := { spillingState with mem := m }) (t := spillingEntry)
    (r := spillingWrite) rfl rfl rfl rfl rfl rfl, State.tryClose_setTT rfl]
  have hset : ∀ (u : State) (t : TT), (u.setTT 0 0 t).mem = u.mem := fun _ _ => rfl
  have hreq : spillingEntry.req = 81 ∧ spillingEntry.line = 0 := ⟨rfl, rfl⟩
  rw [hset, hreq.1, hreq.2, hfree, hack]

theorem exec_wdone {s : State} {h : Fin 16} {e : BitVec 8} (hs : s.stage = .running) :
    exec (.wdone h e) s = .next (s.homeWdone h e.toNat) := by
  change execWdone h e s = _
  rw [execWdone, onDie_running hs]

/-- What the statement says of the acceptance of a write on which a memory read is still out: DRAM stays as it was. -/
theorem homeWdone_mem_of_homeAnswers (hstatement : Obligations.HomeAnswers) {h : Fin 16} {e : BitVec 8} {x : TT} {r : MapReq}
    {s w : State} (hs : s.stage = .running) (hx : s.tt h e.toNat = some x) (hout : x.wrOut = true)
    (hreq : s.mapReq h e.toNat true = some r) (hst : r.st = .served) (hbring : s.bring (wdoneFlight r) = (true, w))
    (hplan : x.plan ≠ .copy) (hread : x.memOut = true) : (s.homeWdone h e.toNat).mem = s.mem := by
  unfold Obligations.HomeAnswers at hstatement
  obtain ⟨-, -, -, hentry⟩ := hstatement
  obtain ⟨-, hdone, -⟩ := hentry h e x r s hs hx
  obtain ⟨t, hexec, u, ht, -, hu⟩ := hdone w hout hreq hst hbring fun hcopy => absurd hcopy hplan
  rw [exec_wdone hs] at hexec
  injection hexec with hexec
  rw [hexec, ht, State.tryClose_setTT (by simp [TT.closes, hread])]
  exact hu

/-- Refutes O26: the acceptance of a write whose requester is behind a peer proxy sends an answer over Catwalk; where the replay
buffer of the link is full, that answer spills a flit into DRAM (R227), which the statement says stays as it was. -/
theorem not_homeAnswers : ¬ Obligations.HomeAnswers := by
  intro h
  have hne : ∀ x : Byte, x + 1 ≠ x := by decide
  have hsymbol := fun m => (congrArg (fun l => smGet (memDefault 0) l 0) (spilling_homeWdone m)).trans (spilling_sendTo m)
  generalize spillingFull.spilledSymbol 0 (List.replicate 224 0) = b at hsymbol
  have hkept : (State.homeWdone { spillingState with mem := smSet (memDefault 0) [] 0 (b + 1) } 0 0).mem =
      smSet (memDefault 0) [] 0 (b + 1) :=
    homeWdone_mem_of_homeAnswers h (h := 0) (e := 0) (x := spillingEntry) (r := spillingWrite)
      (s := { spillingState with mem := smSet (memDefault 0) [] 0 (b + 1) })
      (w := { spillingState with mem := smSet (memDefault 0) [] 0 (b + 1) }) rfl rfl rfl rfl rfl rfl nofun rfl
  have hb := hsymbol (smSet (memDefault 0) [] 0 (b + 1))
  simp only [hkept, smGet_smSet_same] at hb
  exact hne b hb

end Sys2Proof.Machine

/-!
# The map slices (R87, R89, R90, R207)

A lookup, an update, a fill or a flush at its slice, by what it leaves of the map, of the requests at the slices and of DRAM.
-/

namespace Sys2Proof.Machine

/-! ### Maps with rising keys -/

section
variable {α : Type} {d d' : α} {m : SMap α} {k : Nat} {v : α}

theorem smGet_unlisted (h : ∀ x ∈ m, x.1 ≠ k) : smGet d m k = d := by
  induction m with
  | nil => rfl
  | cons a m ih =>
    obtain ⟨ha, hm⟩ := List.forall_mem_cons.1 h
    exact (if_neg (Ne.symm ha)).trans (ih hm)

/-- What a map lists at a key hangs on no default. -/
theorem smGet_listed (h : ∃ x ∈ m, x.1 = k) : smGet d m k = smGet d' m k := by
  induction m with
  | nil => simp at h
  | cons a m ih =>
    unfold smGet
    split
    · rfl
    next hne =>
      obtain ⟨x, hx, hk⟩ := h
      rcases List.mem_cons.1 hx with rfl | hx
      · exact absurd hk.symm hne
      · exact ih ⟨x, hx, hk⟩

/-- Entries that are what an unlisted key holds need not be listed. -/
theorem smGet_filter_ne [DecidableEq α] (f : Nat → α) (hm : smSorted m = true) :
    smGet (f k) (m.filter (fun x => x.2 != f x.1)) k = smGet (f k) m k := by
  induction m with
  | nil => rfl
  | cons a m ih =>
    obtain ⟨ha, hrest⟩ := (smSorted_cons a m).1 hm
    obtain ⟨l, v⟩ := a
    have hget : smGet (f k) ((l, v) :: m) k = if k = l then v else smGet (f k) m k := rfl
    by_cases hv : v = f l
    · rw [List.filter_cons_of_neg (by simp [hv]), ih hrest, hget]
      split
      · subst l
        rw [hv, smGet_unlisted fun x hx => (ha x hx).ne']
      · rfl
    · rw [List.filter_cons_of_pos (by simp [hv]), hget, ← ih hrest]
      rfl

theorem smSorted_smSet [DecidableEq α] (h : smSorted m = true) : smSorted (smSet d m k v) = true := by
  unfold smSet
  split
  · exact smSorted_filter _ _ h
  · exact smSorted_smInsert _ _ _ h

theorem mem_smSet [DecidableEq α] {x : Nat × α} (h : x ∈ smSet d m k v) : x.1 = k ∨ x ∈ m := by
  unfold smSet at h
  split at h
  · exact .inr (List.mem_filter.1 h).1
  · exact (mem_smInsert h).imp (congrArg Prod.fst) id

theorem mem_smInsert_self : (k, v) ∈ smInsert m k v := List.mem_of_find?_eq_some (find?_smInsert m k v)

theorem mem_smInsert_of_mem {x : Nat × α} (hx : x ∈ m) (hne : x.1 ≠ k) : x ∈ smInsert m k v := by
  induction m with
  | nil => cases hx
  | cons a m ih =>
    unfold smInsert
    split
    · exact List.mem_cons_of_mem _ hx
    · split
      next hk => exact List.mem_cons_of_mem _ ((List.mem_cons.1 hx).resolve_left fun h => hne (h ▸ hk.symm))
      · exact List.mem_cons.2 ((List.mem_cons.1 hx).imp id ih)

/-- The numbers of a list in rising order, each once. -/
def rising (l : List Nat) : List Nat := (l.foldl (fun m x => smInsert m x ()) []).map (·.1)

theorem smSorted.pairwise (h : smSorted m = true) : (m.map (·.1)).Pairwise (· < ·) := by
  induction m with
  | nil => exact .nil
  | cons a m ih =>
    obtain ⟨ha, hm⟩ := (smSorted_cons a m).1 h
    exact List.pairwise_cons.2 ⟨List.forall_mem_map.2 ha, ih hm⟩

theorem rising_pairwise (l : List Nat) : (rising l).Pairwise (· < ·) :=
  smSorted.pairwise <| List.foldlRecOn l _ (motive := fun m : SMap Unit => smSorted m = true) rfl
    fun m h x _ => smSorted_smInsert m x () h

theorem mem_rising {l : List Nat} {n : Nat} (h : n ∈ l) : n ∈ rising l := by
  have hkeep : ∀ (l : List Nat) (m : SMap Unit), (n ∈ l ∨ (n, ()) ∈ m) →
      (n, ()) ∈ l.foldl (fun m x => smInsert m x ()) m := by
    intro l
    induction l with
    | nil => exact fun m h => h.resolve_left (List.not_mem_nil)
    | cons x l ih =>
      refine fun m h => ih _ ?_
      by_cases hx : n = x
      · exact .inr (hx ▸ mem_smInsert_self)
      · exact h.imp (fun hl => (List.mem_cons.1 hl).resolve_left hx) fun hm => mem_smInsert_of_mem hm hx
  exact List.mem_map_of_mem (f := Prod.fst) (hkeep l [] (.inl h))

end

/-! ### What lookups and fills leave -/

theorem postBlind_map : PostBlind State.map where
  wr _ _ _ _ _ _ := rfl
  smp _ _ := rfl
  txn _ _ := rfl
  free _ _ := rfl
  post _ _ _ _ _ _ := rfl
  dram _ _ := rfl
  pwr _ _ := rfl

theorem torusBlind_map : TorusBlind State.map where
  toCountBlind := postBlind_map.toCountBlind
  torus _ _ _ _ _ _ := rfl
  noc _ _ := rfl
  coh _ _ := rfl

/-- The requests at the map slices, and DRAM. -/
def State.reqsView (s : State) : List MapReq × List Host.Cell := (s.map.reqs, s.mem)

theorem cacheBlind_reqsView : CacheBlind State.reqsView where
  wr _ _ _ _ _ _ := rfl
  smp _ _ := rfl
  txn _ _ := rfl
  free _ _ := rfl
  post _ _ _ _ _ _ := rfl
  dram _ _ := rfl
  pwr _ _ := rfl
  cache _ _ := rfl

section
variable (s : State)

theorem State.putPme_mem (p : Nat) (x : Pme) : (s.putPme p x).mem = s.mem := by
  have huse : ∀ (t : State) a b, (t.moveUse a b).mem = t.mem := fun _ _ _ => ite_keeps (p := State.mem) _ rfl rfl
  exact huse ..

theorem State.setPme_reqsView (p : Nat) (x : Pme) (m : Nat) : (s.setPme p x m).reqsView = s.reqsView := by
  have hput : ∀ t : State, (t.putPme p x).reqsView = t.reqsView := fun t =>
    Prod.ext ((congrArg MapSt.reqs (State.putPme_map t p x)).trans rfl) (State.putPme_mem t p x)
  exact (hput _).trans (cacheBlind_reqsView.mapTouch ..)

theorem State.ageZero_reqsView (p : Nat) : (s.ageZero p).reqsView = s.reqsView := by
  unfold State.ageZero
  split
  · exact State.setPme_reqsView ..
  · rfl

theorem State.startFill_reqsView (g : MapTag) (m : Nat) : (s.startFill g m).reqsView = s.reqsView := by
  unfold State.startFill
  split
  · rfl
  · dsimp only
    split
    · rfl
    · exact (cacheBlind_reqsView.postMa ..)

/-- R89: a fill that is begun is under way. -/
theorem State.startFill_fills (g : MapTag) (m : Nat) : (s.startFill g m).map.fills.any (fun x => x.same g) = true := by
  unfold State.startFill
  split
  next h => exact h
  · dsimp only
    split
    · simp [MapTag.same]
    · rw [postBlind_map.postMa]
      simp [MapTag.same]

variable {s}

/-- A request of a read that is served, or of any that waits, is moved among the requests alone. -/
theorem State.setReq_reqsView {t : State} {r : MapReq} (hr : r.write = false) (h : s.reqsView = t.reqsView) (st : ReqSt) :
    (s.setReq r st).map.reqs = (t.setReq r st).map.reqs ∧ (s.setReq r st).mem = t.mem := by
  obtain ⟨hreqs, hmem⟩ := Prod.mk.inj h
  rw [State.setReq_map, State.setReq_map]
  refine ⟨congrArg (List.map _) hreqs, ?_⟩
  simp only [State.setReq, hr, Bool.and_false, Bool.false_and, Bool.false_eq_true, if_false]
  exact hmem

theorem State.parkReq_reqsView {t : State} (r : MapReq) (st : ReqSt) (h : s.reqsView = t.reqsView) :
    (s.parkReq r st).map.reqs = (t.parkReq r st).map.reqs ∧ (s.parkReq r st).mem = t.mem := by
  obtain ⟨hreqs, hmem⟩ := Prod.mk.inj h
  exact ⟨congrArg (fun l : List MapReq => l.filter _ ++ _) hreqs, hmem⟩

end

/-! ### Lookups (R90) -/

section
variable {s w : State} {r : MapReq}

theorem domOf_slice {f : Flight} {p d : Nat} (hf : f.dst = .ep (pageSlice p)) (h : s.domOf f = some d) : d = pageSlice p := by
  unfold State.domOf at h
  rw [hf] at h
  dsimp only at h
  split at h
  · exact (Option.some.inj h).symm
  · cases h

/-- R90, R208: a lookup at its slice finds the slice's domain up. -/
theorem State.lookup_of_atSlice (h : AtSlice s r w) : s.lookup r = w.during (w.txnOfReq r) (·.lookupNow r) ∧
    w.domDown (pageSlice (r.line / 64)) = false ∧ w.mem = s.mem := by
  unfold AtSlice at h
  unfold State.lookup
  dsimp only at h ⊢
  cases hfar : r.far
  case false =>
    simp only [hfar, Bool.false_eq_true, if_false] at h
    obtain ⟨rfl, hdown⟩ := h
    exact ⟨rfl, hdown, rfl⟩
  case true =>
    simp only [hfar, if_true] at h
    obtain ⟨hbusy, hheld, hb, hopen⟩ := h
    simp only [hbusy, hheld, Bool.or_false, Bool.not_true, Bool.false_eq_true, if_false]
    refine ⟨?_, (Bool.or_eq_false_iff.1 hopen).1, hb.mem⟩
    refine State.arrive_of_brought hb fun d hd => ?_
    have hnet : opNet opMAPRD = 0 := by decide
    rw [domOf_slice (p := r.line / 64) rfl hd]
    exact (congrArg (w.domHolds _) hnet).trans hopen

/-- R90: what a lookup does at a slice that is up and has room for one more to wait. -/
theorem State.lookupNow_eq (hdown : w.domDown (pageSlice (r.line / 64)) = false)
    (hroom : w.sliceCount (pageSlice (r.line / 64)) (· == .busyWait) < 240) : w.lookupNow r =
      if w.pageWaits (r.line / 64) then w.parkReq r .busyWait
      else if w.sliceFull (pageSlice (r.line / 64)) then w else w.lookupIn r := by
  unfold State.lookupNow
  dsimp only
  rw [if_neg (by simp [hdown]), if_neg (Nat.not_le.2 hroom)]

/-- R89: a lookup of a line that is not cached waits for its fill. -/
theorem State.lookupIn_miss (hhome : r.home ≠ sweepHome) (hmiss : w.mapHit ⟨false, r.line / 64 / 4, false⟩ = false) :
    (w.lookupIn r).map.reqs = (w.parkReq r .fillWait).map.reqs ∧
    (w.lookupIn r).map.fills.any (fun x => x.same ⟨false, r.line / 64 / 4, false⟩) = true ∧ (w.lookupIn r).mem = w.mem := by
  unfold State.lookupIn
  dsimp only
  rw [if_neg hhome, if_pos (by simp [hmiss])]
  obtain ⟨hreqs, hmem⟩ := State.parkReq_reqsView r .fillWait
    ((State.startFill_reqsView _ ⟨false, r.line / 64 / 4, false⟩ r.master).trans
      (cacheBlind_reqsView.counts w (pageSlice (r.line / 64)) evMapMiss { tier := some (w.pme (r.line / 64)).tier } w.txn.cur 1))
  exact ⟨hreqs, State.startFill_fills .., hmem⟩

/-- R92: a read of a cached line is served. -/
theorem State.lookupIn_hit (hhome : r.home ≠ sweepHome) (hhit : w.mapHit ⟨false, r.line / 64 / 4, false⟩ = true)
    (hread : r.write = false) : (w.lookupIn r).map.reqs = (w.setReq r .served).map.reqs ∧ (w.lookupIn r).mem = w.mem := by
  have hp := cacheBlind_reqsView
  unfold State.lookupIn
  extract_lets p sl tag t1 t2
  rw [if_neg hhome, if_neg (by simpa [tag, p] using hhit), if_neg (by simp [hread])]
  have h1 : t1.reqsView = w.reqsView := (hp.onTxn ..).trans (hp.counts ..)
  have h2 : t2.reqsView = t1.reqsView := State.when_keeps (p := State.reqsView) _ _ (hp.mapTouch ..)
  exact State.setReq_reqsView hread ((hp.postRead ..).trans <| (State.ageZero_reqsView ..).trans (h2.trans h1)) _

end

/-- R90: a MAPRD brings the lookup of the request it is for to the slice. -/
theorem exec_maprd {s : State} {h : Fin 16} {tt : BitVec 8} {r : MapReq} (hs : s.stage = .running)
    (hr : s.map.reqs.find? (fun r => r.home == h.val && r.tt == tt.toNat && r.st == .flight) = some r) :
    exec (.maprd h tt) s = .next (s.lookup r) := by
  change execMaprd h tt s = _
  rw [execMaprd, onDie_running hs, hr]

/-! ### Updates (R89) -/

section
variable {s w : State}

/-- R87, R89: the entry of a page is written: it is lost where its reserved bits are not zero. -/
def State.entryWritten (s : State) (p n : Nat) : State :=
  let t := (s.setPme p (Pme.ofWord n)).unlose p
  t.when ((Pme.ofWord n).word != n) (fun t => { t with map := { t.map with broken := t.map.broken ++ [p] } })

theorem exec_mapwr {p : BitVec 34} {x : BitVec 128} (hs : s.stage = .running) (hp : p.toNat < s.secs.pages)
    (hheld : (s.dom (pageSlice p.toNat)).held.any (fun y => y.2 == mapwrFlight p.toNat x.toNat) = false)
    (hb : Brought s (mapwrFlight p.toNat x.toNat) w) (hopen : w.domHolds (pageSlice p.toNat) (opNet opMAPWR) = false) :
    exec (.mapwr p x) s = .next (w.entryWritten p.toNat x.toNat) := by
  change execMapwr p x s = _
  rw [execMapwr, onDie_running hs]
  dsimp only
  rw [hheld, Bool.or_false, if_neg (by simpa using hp), State.arrive_of_brought hb]
  · rfl
  · intro d hd
    rw [domOf_slice (p := p.toNat) rfl hd]
    exact hopen

theorem State.entryWritten_lost (p n : Nat) : (s.entryWritten p n).map.lost.contains p = false ∧
    (s.entryWritten p n).map.broken.contains p = decide ((Pme.ofWord n).word ≠ n) := by
  have hflag : ∀ (t : State) (b : Bool),
      ((t.unlose p).when b fun t => { t with map := { t.map with broken := t.map.broken ++ [p] } }).map.lost.contains p = false ∧
      ((t.unlose p).when b fun t => { t with map := { t.map with broken := t.map.broken ++ [p] } }).map.broken.contains p = b :=
    fun t b => by cases b <;> simp [State.unlose]
  have hne : ((Pme.ofWord n).word != n) = decide ((Pme.ofWord n).word ≠ n) := by rw [bne, beq_eq_decide, decide_not]
  rw [← hne]
  exact hflag _ _

theorem State.pme_entryWritten (p n q : Nat) :
    (s.entryWritten p n).pme q = if q = p then Pme.ofWord n else s.pme q := by
  refine Eq.trans ?_ (State.pme_setPme (s := s) p q (Pme.ofWord n) 0)
  unfold State.entryWritten
  exact State.when_keeps (p := fun t : State => t.pme q) _ _ rfl

theorem State.entryWritten_mem (p n : Nat) : (s.entryWritten p n).mem = s.mem := by
  refine Eq.trans ?_ (congrArg Prod.snd (State.setPme_reqsView s p (Pme.ofWord n) 0))
  exact State.when_keeps (p := State.mem) _ _ rfl

end

/-! ### Fills (R89) -/

section
variable {s : State} {twin : Bool} {m : Nat} {ok : Bool}

theorem State.mapHit_mapFill (g : MapTag) (master : Nat) : (s.mapFill g master).mapHit g = true := by
  unfold State.mapFill
  split
  next h => exact h
  · simp [State.mapHit, MapTag.same]

/-- The master that the fill of a map line is charged to. -/
def State.fillMaster (s : State) (m : Nat) : Nat :=
  ((s.map.reqs.find? (fun r => r.st == .fillWait && r.line / 256 == m)).map (·.master)).getD 80

/-- The state in which a map line that has arrived is in the cache. -/
def State.lineIn (s : State) (twin : Bool) (m : Nat) : State :=
  State.mapFill { s with
      noc := { s.noc with bad := s.noc.bad.erase (maplineFlight twin m) }
      map := { s.map with fills := s.map.fills.filter (fun t => !t.same ⟨twin, m, false⟩) } }
    ⟨twin, m, false⟩ (s.fillMaster m)

/-- R87: a map line that cannot be read loses its entries; a twin entry that cannot be read is invalid. -/
def State.lineLost (s : State) (twin : Bool) (m : Nat) : State :=
  if twin then s.putTwin m { s.twin m with valid := false }
  else { s with map := { s.map with lost :=
    s.map.lost ++ ((List.range 4).map (fun i => 4 * m + i)).filter (fun p => !s.map.lost.contains p) } }

/-- The state in which a map line has arrived, readable or not, and what waited for it waits still. -/
def State.lineCame (s : State) (twin : Bool) (m : Nat) (ok : Bool) : State :=
  if ok && !s.noc.bad.contains (maplineFlight twin m) then s.lineIn twin m else (s.lineIn twin m).lineLost twin m

/-- What waited for a map line goes on. -/
def State.lineGoes (s : State) (l : List MapReq) : State :=
  (s.forEach l (fun s r => if s.pageWaits (r.line / 64) then s.parkReq r .busyWait
    else s.during (s.txnOfReq r) (fun s => s.lookupIn r))).serveQueues

theorem State.lineIn_entriesView : (s.lineIn twin m).entriesView =
    ({ s.map with cache := [], fills := s.map.fills.filter (fun t => !t.same ⟨twin, m, false⟩) }, s.mem) :=
  cacheBlind_entriesView.mapFill ..

theorem State.putTwin_frame (e : Nat) (x : Twin) :
    (s.putTwin e x).map = { s.map with twins := smSet {} s.map.twins e x } ∧ (s.putTwin e x).mem = s.mem := by
  unfold State.putTwin
  exact ⟨(State.when_keeps (p := State.map) _ _ rfl).trans (State.when_keeps (p := State.map) _ _ rfl),
    (State.when_keeps (p := State.mem) _ _ rfl).trans (State.when_keeps (p := State.mem) _ _ rfl)⟩

theorem State.twin_putTwin (e : Nat) (x : Twin) : (s.putTwin e x).twin e = x := by
  rw [State.twin, (State.putTwin_frame e x).1]
  exact smGet_smSet_same ..

theorem State.lineIn_mapHit : (s.lineIn twin m).mapHit ⟨twin, m, false⟩ = true := State.mapHit_mapFill ..

/-- R87: losing a map line leaves the map as it is, but for the lost pages and the twin entries. -/
theorem State.lineLost_frame : { (s.lineLost twin m).map with lost := [], twins := [] } = { s.map with lost := [], twins := [] } ∧
    (s.lineLost twin m).mem = s.mem := by
  obtain ⟨hmap, hmem⟩ := State.putTwin_frame (s := s) m { s.twin m with valid := false }
  cases twin
  · exact ⟨rfl, rfl⟩
  · exact ⟨congrArg (fun x : MapSt => { x with lost := [], twins := [] }) hmap, hmem⟩

theorem State.lineCame_readable (hok : ok = true) (hbad : s.noc.bad.contains (maplineFlight twin m) = false) :
    s.lineCame twin m ok = s.lineIn twin m := if_pos (by rw [hok, hbad]; rfl)

theorem State.lineCame_unreadable (h : ok = false ∨ s.noc.bad.contains (maplineFlight twin m) = true) :
    s.lineCame twin m ok = (s.lineIn twin m).lineLost twin m := if_neg (by
    rcases h with rfl | h
    · simp
    · rw [h]
      simp)

/-- R89: what a map line that arrives leaves, readable or not. -/
theorem State.lineCame_frame : (s.lineCame twin m ok).map.fills = s.map.fills.filter (fun t => !t.same ⟨twin, m, false⟩) ∧
    (s.lineCame twin m ok).map.reqs = s.map.reqs ∧ (s.lineCame twin m ok).mapHit ⟨twin, m, false⟩ = true ∧
    (s.lineCame twin m ok).mem = s.mem := by
  obtain ⟨hmap, hmem⟩ := Prod.mk.inj (State.lineIn_entriesView (s := s) (twin := twin) (m := m))
  have hfills := congrArg MapSt.fills hmap
  have hreqs := congrArg MapSt.reqs hmap
  unfold State.lineCame
  split
  · exact ⟨hfills, hreqs, State.lineIn_mapHit, hmem⟩
  · obtain ⟨hlost, hlostMem⟩ := State.lineLost_frame (s := s.lineIn twin m) (twin := twin) (m := m)
    have hhit := congrArg (fun x : MapSt => x.cache.any (fun x => x.same ⟨twin, m, false⟩)) hlost
    exact ⟨(congrArg MapSt.fills hlost :).trans hfills, (congrArg MapSt.reqs hlost :).trans hreqs,
      hhit.trans State.lineIn_mapHit, hlostMem.trans hmem⟩

/-- R87: the entries of a map line that cannot be read are lost. -/
theorem State.lost_lineLost {i : Nat} (hi : i < 4) : (s.lineLost false m).lost (4 * m + i) = true := by
  have hlisted : (s.lineLost false m).map.lost.contains (4 * m + i) = true := by
    unfold State.lineLost
    by_cases h : 4 * m + i ∈ s.map.lost <;> simp [h, hi]
  unfold State.lost
  rw [hlisted]
  rfl

/-- R87: a twin entry that cannot be read is invalid. -/
theorem State.twin_lineLost : ((s.lineLost true m).twin m).valid = false :=
  congrArg Twin.valid (State.twin_putTwin m { s.twin m with valid := false })

theorem exec_mapline {m : BitVec 34} (hs : s.stage = .running)
    (hfill : s.map.fills.any (fun t => t.same ⟨twin, m.toNat, false⟩) = true) :
    exec (.mapline twin m ok) s = .next ((s.lineCame twin m.toNat ok).lineGoes
      (s.map.reqs.filter (fun r => r.st == .fillWait && r.line / 256 == m.toNat && !twin))) := by
  obtain ⟨-, hreqs, -⟩ := State.lineCame_frame (s := s) (twin := twin) (m := m.toNat) (ok := ok)
  have hgoes : execMapline twin m ok s = .next ((s.lineCame twin m.toNat ok).lineGoes ((s.lineCame twin m.toNat ok).map.reqs.filter
      (fun r => r.st == .fillWait && r.line / 256 == m.toNat && !twin))) := by
    rw [execMapline, onDie_running hs]
    dsimp only
    rw [if_neg (by simp [hfill])]
    rfl
  rw [hreqs] at hgoes
  exact hgoes

end

/-! ### Flushes (R89) -/

section
variable {s : State} {who : Initiator} {v : BitVec 64}

theorem State.mapWriteBack_cache (g : MapTag) (m : Nat) : (s.mapWriteBack g m).map.cache =
    s.map.cache.map (fun x => if x.same g then { x with dirty := false } else x) := by
  unfold State.mapWriteBack
  dsimp only
  split
  · rfl
  · rw [postBlind_map.postMa]

/-- A line that is modified still, after lines have been written back, is none of them. -/
theorem State.dirty_of_writtenBack (l : List MapTag) : ∀ x ∈ (s.forEach l (fun s t => s.mapWriteBack t 80)).map.cache,
    x.dirty = true → x ∈ s.map.cache ∧ ∀ t ∈ l, x.same t = false := by
  induction l generalizing s with
  | nil => exact fun x hx _ => ⟨hx, fun _ ht => absurd ht (List.not_mem_nil)⟩
  | cons g l ih =>
    intro x hx hdirty
    obtain ⟨hin, hrest⟩ := ih x hx hdirty
    rw [State.mapWriteBack_cache] at hin
    obtain ⟨y, hy, rfl⟩ := List.mem_map.1 hin
    cases hg : y.same g with
    | false =>
      simp only [hg, Bool.false_eq_true, if_false] at hrest ⊢
      exact ⟨hy, List.forall_mem_cons.2 ⟨hg, hrest⟩⟩
    | true => simp [hg] at hdirty

/-- R89: a flush leaves no modified line. -/
theorem State.mapFlushAll_clean : ∀ x ∈ s.mapFlushAll.map.cache, x.dirty = false := by
  intro x hx
  cases hdirty : x.dirty with
  | false => rfl
  | true =>
    obtain ⟨hin, hnone⟩ := State.dirty_of_writtenBack _ x hx hdirty
    have hself := hnone x (List.mem_filter.2 ⟨hin, hdirty⟩)
    simp [MapTag.same] at hself

theorem State.mapFlushAll_mem : s.mapFlushAll.mem = s.mem :=
  congrArg Prod.snd (State.forEach_keeps (p := State.reqsView) fun _ _ => cacheBlind_reqsView.mapWriteBack .. :
    s.mapFlushAll.reqsView = s.reqsView)

theorem exec_mapFlush (h : Permitted s who 0xC00000 true) : exec (.mapFlush who v) s =
    .next ((s.written who 0xC00000 v.toNat).when (v.toNat.testBit 3) State.mapFlushAll) := by
  change execMapFlush who v s = _
  rw [execMapFlush, onDie_running h.1, barWrite_permitted h]
  rfl

theorem exec_ageSweep (h : Permitted s who 0xC00020 true) (hv : v.toNat.testBit 0 = true) : exec (.ageSweep who v) s =
    .next (s.dropHalves who 0xC00020).sweepStart := by
  have hwrite : ∀ t : State, t.writeMap who 0xC00020 v.toNat = t.when (v.toNat.testBit 0) State.sweepStart := fun _ => rfl
  change execAgeSweep who v s = _
  rw [execAgeSweep, onDie_running h.1, barWrite_permitted h, hwrite, hv]
  rfl

/-- R91: a sweep that starts changes BUSY and SWEEP alone. -/
theorem State.sweepStart_frame : s.sweepStart.map = s.map ∧ s.sweepStart.mem = s.mem ∧ (s.rd F.MAP_AGE_CTL_BUSY = 0 →
    s.sweepStart.rd F.MAP_AGE_CTL_BUSY = 1 ∧ s.sweepStart.rd F.MAP_AGE_CTL_SWEEP = 1) := by
  unfold State.sweepStart
  split
  next h => exact ⟨rfl, rfl, fun h0 => absurd h0 (by simpa [State.on] using h)⟩
  · exact ⟨rfl, rfl, fun _ => ⟨(State.rd_wr_of_id _ _ (by decide)).trans (State.rd_wr_same ..), State.rd_wr_same ..⟩⟩

end

end Sys2Proof.Machine

/-!
# The AGE sweep (R91)

The sweep visits the map lines with listed entries in rising order, and passes over the others: at every point an entry has its
AGE of before the sweep, one higher where the sweep has passed.
-/

namespace Sys2Proof.Machine

/-! ### How far a sweep has come -/

/-- R91: an entry one sweep older. -/
def Pme.raised (x : Pme) : Pme := { x with age := min 255 (x.age + 1) }

/-- `t` is `s` with its sweep further on: the entries of the map lines passed are raised, and no others are. -/
structure State.SweptTo (s t : State) : Prop where
  reqs : t.map.reqs = s.map.reqs
  busy : t.map.busy = s.map.busy
  base : t.map.ageBase = s.map.ageBase
  zeroed : t.map.zeroed = s.map.zeroed
  mem : t.mem = s.mem
  sorted : smSorted s.map.pmes = true → smSorted t.map.pmes = true
  onward : s.map.sweepAt ≤ t.map.sweepAt
  listed : ∀ x ∈ t.map.pmes, x ∈ s.map.pmes ∨ x.1 / 4 < t.map.sweepAt
  pme : ∀ p, t.pme p = if s.map.sweepAt ≤ p / 4 ∧ p / 4 < t.map.sweepAt then (s.pme p).raised else s.pme p

section
variable {s t u : State}

theorem State.SweptTo.refl (s : State) : s.SweptTo s :=
  ⟨rfl, rfl, rfl, rfl, rfl, id, Nat.le_refl _, fun _ => .inl, fun _ => (if_neg (by omega)).symm⟩

theorem State.SweptTo.trans (h : s.SweptTo t) (h' : t.SweptTo u) : s.SweptTo u where
  reqs := h'.reqs.trans h.reqs
  busy := h'.busy.trans h.busy
  base := h'.base.trans h.base
  zeroed := h'.zeroed.trans h.zeroed
  mem := h'.mem.trans h.mem
  sorted hs := h'.sorted (h.sorted hs)
  onward := h.onward.trans h'.onward
  listed x hx := (h'.listed x hx).elim
    (fun hx => (h.listed x hx).imp id fun hlt => Nat.lt_of_lt_of_le hlt h'.onward) .inr
  pme p := by
    have h1 := h.onward
    have h2 := h'.onward
    rw [h'.pme, h.pme]
    grind

theorem State.sweepHeld_quiet (hreqs : s.map.reqs = []) : s.sweepHeld = false := by
  unfold State.sweepHeld
  rw [hreqs]
  rfl

/-- The sweep stands at map line `m`. -/
def State.sweepTo (s : State) (m : Nat) : State := { s with map := { s.map with sweepAt := m } }

/-- What the map holds for an unlisted page rises by one as the sweep passes the page. -/
theorem State.pmeDflt_sweepTo {m : Nat} (h : s.map.sweepAt ≤ m) (p : Nat) : (s.sweepTo m).pmeDflt p =
    if s.map.sweepAt ≤ p / 4 ∧ p / 4 < m then (s.pmeDflt p).raised else s.pmeDflt p := by
  unfold State.pmeDflt State.sweepTo
  by_cases hbefore : p / 4 < s.map.sweepAt
  · simp [b2n, hbefore, show p / 4 < m by omega, show ¬ s.map.sweepAt ≤ p / 4 by omega]
  · by_cases hpast : p / 4 < m
    · have hage : min 255 (s.map.ageBase + 1) = min 255 (min 255 s.map.ageBase + 1) := by omega
      simp [b2n, Pme.raised, hbefore, hpast, show s.map.sweepAt ≤ p / 4 by omega, hage]
    · simp [b2n, hbefore, hpast]

/-- R91: lines whose pages are all unlisted are raised by the place of the sweep alone. -/
theorem State.sweptTo_sweepTo {m : Nat} (hm : s.map.sweepAt ≤ m)
    (h : ∀ x ∈ s.map.pmes, x.1 / 4 < s.map.sweepAt ∨ m ≤ x.1 / 4) : s.SweptTo (s.sweepTo m) where
  reqs := rfl
  busy := rfl
  base := rfl
  zeroed := rfl
  mem := rfl
  sorted := id
  onward := hm
  listed _ := .inl
  pme p := by
    change smGet ((s.sweepTo m).pmeDflt p) s.map.pmes p =
      if s.map.sweepAt ≤ p / 4 ∧ p / 4 < m then (smGet (s.pmeDflt p) s.map.pmes p).raised else smGet _ _ _
    by_cases hp : ∃ x ∈ s.map.pmes, x.1 = p
    · rw [if_neg, smGet_listed hp]
      obtain ⟨x, hx, rfl⟩ := hp
      have := h x hx
      omega
    · have hno : ∀ x ∈ s.map.pmes, x.1 ≠ p := fun x hx he => hp ⟨x, hx, he⟩
      rw [smGet_unlisted hno, smGet_unlisted hno]
      exact State.pmeDflt_sweepTo hm p

theorem State.sweptTo_skip {m : Nat} (h : ∀ x ∈ s.map.pmes, x.1 / 4 < s.map.sweepAt ∨ m ≤ x.1 / 4) :
    s.SweptTo (s.sweepSkip m) := by
  unfold State.sweepSkip
  split
  next hlt => exact State.sweptTo_sweepTo (Nat.le_of_lt hlt) h
  · exact .refl s

/-- Pages whose entries are put in turn, one sweep older: no others change. -/
structure State.PagesRaised (s t : State) (l : List Nat) (g : Nat → Pme) : Prop where
  map : t.map = { s.map with pmes := t.map.pmes }
  mem : t.mem = s.mem
  sorted : smSorted s.map.pmes = true → smSorted t.map.pmes = true
  listed : ∀ x ∈ t.map.pmes, x ∈ s.map.pmes ∨ x.1 ∈ l
  pme : ∀ p, t.pme p = if p ∈ l then (g p).raised else s.pme p

/-- R91: entries put in turn where nothing waits at the slices. -/
theorem State.pagesRaised_forEach {f : State → Nat × Pme → State}
    (hf : ∀ (t : State) x, t.map.reqs = [] → t.map.busy = [] → f t x = t.putPme x.1 x.2.raised) (l : List Nat) (g : Nat → Pme)
    (hreqs : s.map.reqs = []) (hbusy : s.map.busy = []) : s.PagesRaised (s.forEach (l.map fun p => (p, g p)) f) l g := by
  induction l generalizing s with
  | nil => exact ⟨rfl, rfl, id, fun _ => .inl, fun _ => rfl⟩
  | cons q l ih =>
    have hput := State.putPme_map s q (g q).raised
    rw [List.map_cons, State.forEach_cons, hf _ _ hreqs hbusy]
    obtain ⟨hmap, hmem, hsorted, hlisted, hpme⟩ := ih (s := s.putPme q (g q).raised)
      ((congrArg MapSt.reqs hput :).trans hreqs) ((congrArg MapSt.busy hput :).trans hbusy)
    rw [hput] at hmap hsorted hlisted
    refine ⟨hmap, hmem.trans (State.putPme_mem ..), fun h => hsorted (smSorted_smSet h), fun x hx => ?_, fun p => ?_⟩
    · rcases hlisted x hx with hx | hx
      · exact (mem_smSet hx).elim (fun h => .inr (h ▸ List.mem_cons_self ..)) .inl
      · exact .inr (List.mem_cons_of_mem _ hx)
    · rw [hpme, State.pme_putPme]
      by_cases hq : p = q
      · simp [hq]
      · simp [hq]

theorem State.pme_sweepTo_outside {m p : Nat} (hm : s.map.sweepAt ≤ m) (hp : ¬(s.map.sweepAt ≤ p / 4 ∧ p / 4 < m)) :
    (s.sweepTo m).pme p = s.pme p := by
  have hdflt := State.pmeDflt_sweepTo hm p
  rw [if_neg hp] at hdflt
  exact congrArg (fun d => smGet d s.map.pmes p) hdflt

theorem mem_linePages {m p : Nat} : p ∈ (List.range 4).map (fun i => 4 * m + i) ↔ p / 4 = m := by
  simp only [List.mem_map, List.mem_range]
  exact ⟨fun ⟨i, hi, h⟩ => by omega, fun h => ⟨p % 4, by omega, by omega⟩⟩

/-- R91: the sweep of one map line, where nothing waits at the slices. -/
theorem State.sweptTo_line (hreqs : s.map.reqs = []) (hbusy : s.map.busy = []) :
    s.SweptTo s.sweepLine ∧ s.sweepLine.map.sweepAt = s.map.sweepAt + 1 := by
  generalize hm : s.map.sweepAt = m
  generalize ht : s.mapTouch ⟨false, m, true⟩ 80 = t
  have hview : t.entriesView = s.entriesView := ht ▸ cacheBlind_entriesView.mapTouch s ⟨false, m, true⟩ 80
  obtain ⟨htouch, hmem⟩ := Prod.mk.inj hview
  have hat : t.map.sweepAt = m := (congrArg MapSt.sweepAt htouch :).trans hm
  have hquiet : ∀ (u : State) q, u.map.reqs = [] → u.map.busy = [] → u.pageWaits q = false := fun u q hr hb => by
    simp [State.pageWaits, State.pageShut, State.busy, hr, hb]
  obtain ⟨hmap, hmemLine, hsorted, hlisted, hpme⟩ : (t.sweepTo (m + 1)).PagesRaised s.sweepLine
      ((List.range 4).map (fun i => 4 * m + i)) s.pme := by
    unfold State.sweepLine
    rw [State.sweepHeld_quiet hreqs, if_neg Bool.false_ne_true, hm]
    dsimp only
    rw [ht]
    refine State.pagesRaised_forEach (fun u x hr hb => ?_) ((List.range 4).map (fun i => 4 * m + i)) s.pme
      ((congrArg MapSt.reqs htouch :).trans hreqs) ((congrArg MapSt.busy htouch :).trans hbusy)
    rw [hquiet u x.1 hr hb, if_neg Bool.false_ne_true]
    rfl
  have hpmes : t.map.pmes = s.map.pmes := (congrArg MapSt.pmes htouch :)
  have hlineAt : s.sweepLine.map.sweepAt = m + 1 := (congrArg MapSt.sweepAt hmap :)
  refine ⟨⟨(congrArg MapSt.reqs hmap :).trans (congrArg MapSt.reqs htouch :),
    (congrArg MapSt.busy hmap :).trans (congrArg MapSt.busy htouch :),
    (congrArg MapSt.ageBase hmap :).trans (congrArg MapSt.ageBase htouch :),
    (congrArg MapSt.zeroed hmap :).trans (congrArg MapSt.zeroed htouch :), hmemLine.trans hmem,
    fun h => hsorted (by exact hpmes ▸ h), by omega, fun x hx => ?_, fun p => ?_⟩, hlineAt⟩
  · exact (hlisted x hx).imp (fun h => hpmes ▸ h) fun h => by
      have := mem_linePages.1 h
      omega
  · rw [hpme, hlineAt, hm]
    by_cases hp : p / 4 = m
    · rw [if_pos (mem_linePages.2 hp), if_pos (by omega)]
    · rw [if_neg (fun h => hp (mem_linePages.1 h)), if_neg (by omega), State.pme_sweepTo_outside (by omega) (by omega),
        State.pme_of_entriesView hview]

/-- R91: a sweep over lines that rise, where nothing waits at the slices, visits every listed entry that it had not passed. -/
theorem State.sweptTo_over {l : List Nat} (hl : l.Pairwise (· < ·)) (hreqs : s.map.reqs = []) (hbusy : s.map.busy = [])
    (hin : ∀ x ∈ s.map.pmes, x.1 / 4 < s.map.sweepAt ∨ x.1 / 4 ∈ l) : s.SweptTo (State.sweepOver l s) ∧
    ∀ x ∈ (State.sweepOver l s).map.pmes, x.1 / 4 < (State.sweepOver l s).map.sweepAt := by
  induction l generalizing s with
  | nil => exact ⟨.refl s, fun x hx => (hin x hx).resolve_right (List.not_mem_nil)⟩
  | cons m l ih =>
    obtain ⟨hfirst, hl⟩ := List.pairwise_cons.1 hl
    unfold State.sweepOver
    rw [State.sweepHeld_quiet hreqs, if_neg Bool.false_ne_true]
    split
    next hpast =>
      refine ih hl hreqs hbusy fun x hx => ?_
      rcases hin x hx with h | h
      · exact .inl h
      · exact (List.mem_cons.1 h).imp (fun h => by omega) id
    next hnext =>
      have hskip : s.SweptTo (s.sweepSkip m) := State.sweptTo_skip fun x hx => (hin x hx).imp id fun h => by
        rcases List.mem_cons.1 h with h | h
        · exact h.ge
        · exact (hfirst _ h).le
      obtain ⟨hline, hat⟩ := State.sweptTo_line (hskip.reqs.trans hreqs) (hskip.busy.trans hbusy)
      have hm : (s.sweepSkip m).map.sweepAt = m := by
        unfold State.sweepSkip
        split
        · rfl
        · omega
      have hboth := hskip.trans hline
      obtain ⟨hrest, hall⟩ := ih (s := (s.sweepSkip m).sweepLine) hl (hboth.reqs.trans hreqs)
          (hboth.busy.trans hbusy) fun x hx => by
        rcases hboth.listed x hx with hx | hx
        · rcases hin x hx with h | h
          · exact .inl (Nat.lt_of_lt_of_le h hboth.onward)
          · exact (List.mem_cons.1 h).imp (fun h => by omega) id
        · exact .inl hx
      exact ⟨hboth.trans hrest, hall⟩

/-- R91: a sweep that has visited every listed entry is over: the entries that it has not visited rise with the AGE that the map
holds for unlisted pages. -/
def State.sweepRest (s : State) : State :=
  let t := { s with map := { s.map with ageBase := min 255 (s.map.ageBase + 1), sweepAt := 0 } }
  { t with map := { t.map with pmes := t.map.pmes.filter (fun x => x.2 != t.pmeDflt x.1) } }

theorem State.pme_sweepRest (hs : smSorted s.map.pmes = true) (hin : ∀ x ∈ s.map.pmes, x.1 / 4 < s.map.sweepAt) (p : Nat) :
    s.sweepRest.pme p = if s.map.sweepAt ≤ p / 4 then (s.pme p).raised else s.pme p := by
  have hdflt : s.sweepRest.pmeDflt p = if s.map.sweepAt ≤ p / 4 then (s.pmeDflt p).raised else s.pmeDflt p := by
    have hage : min 255 (s.map.ageBase + 1) = min 255 (min 255 s.map.ageBase + 1) := by omega
    unfold State.pmeDflt State.sweepRest
    by_cases h : s.map.sweepAt ≤ p / 4
    · simp [b2n, Pme.raised, h, hage, Nat.not_lt.2 h]
    · simp [b2n, h, show p / 4 < s.map.sweepAt by omega]
  refine (smGet_filter_ne (State.sweepRest s).pmeDflt hs).trans ?_
  by_cases hp : ∃ x ∈ s.map.pmes, x.1 = p
  · rw [if_neg, State.pme, smGet_listed hp]
    obtain ⟨x, hx, rfl⟩ := hp
    have := hin x hx
    omega
  · have hno : ∀ x ∈ s.map.pmes, x.1 ≠ p := fun x hx he => hp ⟨x, hx, he⟩
    rw [State.pme, smGet_unlisted hno, smGet_unlisted hno]
    exact hdflt

/-- The map lines with listed entries, or with a page that an access waits for. -/
def State.sweepLines (s : State) : List Nat :=
  let busy := s.map.busy.map (·.1) ++ s.map.reqs.map (fun r => r.line / 64)
  (s.map.pmes.map (·.1) ++ busy).map (· / 4)

/-- R91: a sweep that nothing waits for goes over the lines with listed entries and ends. -/
theorem State.sweepEnd_eq {t : State} (ht : State.sweepOver (rising s.sweepLines) s = t) (hreqs : t.map.reqs = []) :
    s.sweepEnd = (t.sweepRest.clear F.MAP_AGE_CTL_BUSY).clear F.MAP_AGE_CTL_SWEEP := by
  have hend : s.sweepEnd = if (State.sweepOver (rising s.sweepLines) s).sweepHeld then State.sweepOver (rising s.sweepLines) s
      else ((State.sweepOver (rising s.sweepLines) s).sweepRest.clear F.MAP_AGE_CTL_BUSY).clear F.MAP_AGE_CTL_SWEEP := rfl
  rw [hend, ht, State.sweepHeld_quiet hreqs, if_neg Bool.false_ne_true]

theorem State.sweepOver_held (h : s.sweepHeld = true) (l : List Nat) : State.sweepOver l s = s := by
  cases l with
  | nil => rfl
  | cons m l => exact if_pos h

theorem State.sweepEnd_held (h : s.sweepHeld = true) : s.sweepEnd = s := by
  unfold State.sweepEnd
  dsimp only
  rw [State.sweepOver_held h, if_pos h]

theorem exec_ageSweepDone (hs : s.stage = .running) (hbusy : s.on F.MAP_AGE_CTL_BUSY = true) :
    exec .ageSweepDone s = .next s.sweepEnd := by
  change execAgeSweepDone s = _
  rw [execAgeSweepDone, onDie_running hs, if_pos hbusy]

/-- R91: the end of a sweep, where nothing waits at the slices. -/
theorem State.sweepEnd_quiet (hs : smSorted s.map.pmes = true) (hbusy : s.map.busy = []) (hreqs : s.map.reqs = []) :
    s.sweepEnd.rd F.MAP_AGE_CTL_BUSY = 0 ∧ s.sweepEnd.rd F.MAP_AGE_CTL_SWEEP = 0 ∧ s.sweepEnd.map.sweepAt = 0 ∧
    s.sweepEnd.mem = s.mem ∧ ∀ p, s.sweepEnd.pme p = if s.map.sweepAt ≤ p / 4 then (s.pme p).raised else s.pme p := by
  obtain ⟨hswept, hall⟩ := State.sweptTo_over (s := s) (rising_pairwise s.sweepLines) hreqs hbusy fun x hx =>
    .inr (mem_rising (List.mem_map_of_mem (List.mem_append_left _ (List.mem_map_of_mem hx))))
  rw [State.sweepEnd_eq rfl (hswept.reqs.trans hreqs)]
  refine ⟨(State.rd_wr_of_id _ _ (by decide)).trans (State.rd_wr_same ..), State.rd_wr_same .., rfl, hswept.mem, fun p => ?_⟩
  have honward := hswept.onward
  refine (State.pme_sweepRest (hswept.sorted hs) hall p).trans ?_
  rw [hswept.pme]
  grind

end

/-! ### The statement -/

/-- Settles O20: each command of a map slice by what it brings to the slice, and the end of a sweep by how far the sweep had come. -/
theorem mapSlices : Obligations.MapSlices := by
  refine ⟨fun h tt r s w hs hr hat => ?maprd, fun p x s w hs hp hheld hb hopen => ?mapwr, fun twin m ok s hs hfill => ?mapline,
    fun who v s hp => ?flush, fun who v s hp hv => ?start, fun s hs hbusy => ?done⟩
  case maprd =>
    obtain ⟨hlookup, hdown, hmem⟩ := State.lookup_of_atSlice hat
    have hexec := exec_maprd hs hr
    rw [hlookup] at hexec
    have hhome : r.home ≠ sweepHome := by
      have hfound := List.find?_some hr
      simp only [Bool.and_eq_true, beq_iff_eq] at hfound
      have hlt := h.isLt
      simp only [sweepHome]
      omega
    -- what the state holds of the request under way does not bear on the lookup
    have hnow (hroom : w.sliceCount (pageSlice (r.line / 64)) (· == .busyWait) < 240) :=
      State.lookupNow_eq (w := { w with txn := { w.txn with cur := w.txnOfReq r } }) (r := r) hdown hroom
    refine ⟨fun hwaits hroom => ⟨_, hexec, ?_⟩, fun hwaits hroom hfull => ?_⟩
    · have heq := (hnow hroom).trans (if_pos hwaits)
      dsimp only [State.during]
      rw [heq]
      exact ⟨rfl, rfl, hmem⟩
    · have heq := ((hnow hroom).trans (if_neg (Bool.eq_false_iff.1 hwaits))).trans (if_neg (Bool.eq_false_iff.1 hfull))
      refine ⟨fun hmiss => ⟨_, hexec, ?_⟩, fun hhit hread => ⟨_, hexec, ?_⟩⟩
      · obtain ⟨hreqs, hfills, hkept⟩ :=
          State.lookupIn_miss (w := { w with txn := { w.txn with cur := w.txnOfReq r } }) hhome hmiss
        dsimp only [State.during]
        rw [heq]
        exact ⟨hreqs, hfills, hkept.trans hmem⟩
      · obtain ⟨hreqs, hkept⟩ :=
          State.lookupIn_hit (w := { w with txn := { w.txn with cur := w.txnOfReq r } }) hhome hhit hread
        dsimp only [State.during]
        rw [heq]
        exact ⟨hreqs.trans (by rw [State.setReq_map, State.setReq_map]; rfl), hkept.trans hmem⟩
  case mapwr =>
    obtain ⟨hlost, hbroken⟩ := State.entryWritten_lost (s := w) p.toNat x.toNat
    refine ⟨_, exec_mapwr hs hp hheld hb hopen, ?_, hlost, hbroken, fun q hq => ?_, (State.entryWritten_mem ..).trans hb.mem⟩
    · rw [State.pme_entryWritten, if_pos rfl]
    · rw [State.pme_entryWritten, if_neg hq, State.pme_of_map (torusBlind_map.brought s hb)]
  case mapline =>
    obtain ⟨hfills, hreqs, hhit, hmem⟩ := State.lineCame_frame (s := s) (twin := twin) (m := m.toNat) (ok := ok)
    refine ⟨_, exec_mapline hs hfill, _, rfl, hfills, hreqs, hhit, hmem, fun hok hbad => ?_, fun hbad => ?_⟩
    · obtain ⟨hmap, -⟩ := Prod.mk.inj (State.lineIn_entriesView (s := s) (twin := twin) (m := m.toNat))
      rw [State.lineCame_readable hok hbad]
      exact ⟨(congrArg MapSt.lost hmap :), (congrArg MapSt.twins hmap :)⟩
    · rw [State.lineCame_unreadable hbad]
      refine ⟨fun htwin i hi => ?_, fun htwin => ?_⟩
      · subst htwin
        exact State.lost_lineLost hi
      · subst htwin
        exact State.twin_lineLost
  case flush =>
    obtain ⟨hmem, hmap, -⟩ := State.written_sameStore (s := s) (who := who) 0xC00000 v.toNat
    refine ⟨_, exec_mapFlush hp, ?_, fun hclear => ?_, fun hset => ?_⟩
    · exact (State.when_keeps (p := State.mem) _ _ State.mapFlushAll_mem).trans hmem
    · rw [hclear, State.when_false]
      exact hmap
    · rw [hset, State.when_true]
      exact State.mapFlushAll_clean
  case start =>
    exact ⟨_, exec_ageSweep hp hv, State.sweepStart_frame⟩
  case done =>
    refine ⟨fun hheld => ⟨_, exec_ageSweepDone hs hbusy, State.sweepEnd_held hheld⟩, fun hsorted hnone hreqs => ?_⟩
    obtain ⟨hb, hsw, hat, hmem, hpme⟩ := State.sweepEnd_quiet hsorted hnone hreqs
    refine ⟨_, exec_ageSweepDone hs hbusy, hb, hsw, hat, hmem, fun p => (hpme p).trans ?_⟩
    by_cases h : p / 4 < s.map.sweepAt
    · rw [if_neg (Nat.not_le.2 h), if_pos h]
    · rw [if_pos (Nat.not_lt.1 h), if_neg h]
      rfl

end Sys2Proof.Machine

/-!
# Key programming (R134, R149 to R151)

A request that finds no other under way runs at once. Whatever it does, it ends by reporting its slot and its RESULT; a LOAD, a
RETIRE and an ERASE each change the one slot that they name.
-/

namespace Sys2Proof.Machine

/-! ### Key slots -/

section
variable {s t : State} {n m : Nat} {x : KeySlot}

theorem State.keySlot_of_keys (h : t.keys = s.keys) (n : Nat) : t.keySlot n = s.keySlot n := by
  unfold State.keySlot
  rw [h]

@[simp] theorem State.keySlot_setKeySlot_same : (s.setKeySlot n x).keySlot n = x := smGet_smSet_same ..

theorem State.keySlot_setKeySlot_ne (h : m ≠ n) : (s.setKeySlot n x).keySlot m = s.keySlot m := smGet_smSet_ne _ _ _ _ h

@[simp] theorem State.keySlot_wr (f : Field) (v i j : Nat) : (s.wr f v i j).keySlot m = s.keySlot m := rfl

/-- R140: no access fetches the material of an EMPTY slot. -/
theorem State.keyUp_empty (h : s.rd F.KEY_SLOT_STATE_STATE 0 n = 0) : s.keyUp n = false := by
  simp [State.keyUp, h]

/-- R151: no access fetches the material of a slot whose ERASE is under way. -/
theorem State.keyUp_erasing (h : (s.keySlot n).erasing = true) : s.keyUp n = false := by
  simp [State.keyUp, h]

end

/-! ### Requests one at a time (R149, R379) -/

section
variable {s : State} {x : VdmReq}

theorem State.vdm_busy (h : s.vdmBusy = true) : s.vdm x = { s with keyReqs := s.keyReqs ++ [x] } := if_pos h

theorem State.vdm_idle (h : s.vdmBusy = false) : s.vdm x = s.vdmRun x := if_neg (Bool.eq_false_iff.1 h)

/-- The key-programming requests of Table 6-3, each with its OP. -/
def keyCommands (who : Initiator) (id : BitVec 32) (req : Bytes) : List (Nat × Instr) :=
  [(1, .keyLoad who id req), (2, .keyRetire who id req), (3, .keyErase who id req)]

variable {who : Initiator} {id : BitVec 32} {req : Bytes} {c : Nat × Instr}

theorem exec_keyCommand (hc : c ∈ keyCommands who id req) (hs : s.stage = .running) :
    exec c.2 s = .next (s.vdm ⟨who, id.toNat, c.1, req, true⟩) := by
  simp only [keyCommands, List.mem_cons, List.not_mem_nil, or_false] at hc
  rcases hc with rfl | rfl | rfl
  · exact onDie_running (f := fun s => s.vdm ⟨who, id.toNat, 1, req, true⟩) hs
  · exact onDie_running (f := fun s => s.vdm ⟨who, id.toNat, 2, req, true⟩) hs
  · exact onDie_running (f := fun s => s.vdm ⟨who, id.toNat, 3, req, true⟩) hs

theorem exec_keyCommand_idle (hc : c ∈ keyCommands who id req) (hs : s.stage = .running) (hb : s.vdmBusy = false) :
    exec c.2 s = .next (s.keyRun who id.toNat c.1 req) := by
  have hop : c.1 < lcSET := by
    simp only [keyCommands, List.mem_cons, List.not_mem_nil, or_false] at hc
    rcases hc with rfl | rfl | rfl <;> simp [lcSET]
  rw [exec_keyCommand hc hs, State.vdm_idle hb, State.vdmRun, if_pos hop]

end

/-! ### How a request ends (R150) -/

section
variable (s : State) (who : Initiator) (id op n res : Nat) (req : Bytes)

/-- R150: the slot and the RESULT of a request are shown, and it is answered. -/
def State.keyReported : State :=
  let s := ((s.wr F.KEY_STATUS_LAST_SLOT n).wr F.KEY_STATUS_LAST_RESULT res).set F.KEY_IRQ_PROG
  s.emit (.vendor who (toLE 1 op ++ toLE 1 n ++ toLE 1 res ++ toLE 1 (s.rd F.KEY_SLOT_STATE_GEN 0 n)))

theorem State.keyRun_eq : s.keyRun who id op req = (if s.keyResult who id op req = keyOK then
    s.keyAct op (byteAt req 1) (reqMat req) else s.bump F.KEY_ERR_PROG_REFUSED).keyReported who op (byteAt req 1)
      (s.keyResult who id op req) := rfl

theorem State.keyRun_accepted (h : s.keyResult who id op req = keyOK) :
    s.keyRun who id op req = (s.keyAct op (byteAt req 1) (reqMat req)).keyReported who op (byteAt req 1) keyOK := by
  rw [State.keyRun_eq, if_pos h, h]

theorem State.keyRun_refused (h : s.keyResult who id op req ≠ keyOK) : s.keyRun who id op req =
    (s.bump F.KEY_ERR_PROG_REFUSED).keyReported who op (byteAt req 1) (s.keyResult who id op req) := by
  rw [State.keyRun_eq, if_neg h]

/-- R150: RESULT is one of the six that are listed. -/
theorem State.keyResult_le : s.keyResult who id op req ≤ 5 := by
  unfold State.keyResult
  dsimp only
  repeat' split
  all_goals decide

theorem State.keyResult_stranger (h : s.ownerSession who id = false) : s.keyResult who id op req = keyNotOwner := by
  simp [State.keyResult, h]

@[simp] theorem State.keyReported_keys : (s.keyReported who op n res).keys = s.keys := rfl
@[simp] theorem State.keyReported_mem : (s.keyReported who op n res).mem = s.mem := rfl
@[simp] theorem State.keyReported_map : (s.keyReported who op n res).map = s.map := rfl
@[simp] theorem State.keySlot_keyReported (m : Nat) : (s.keyReported who op n res).keySlot m = s.keySlot m := rfl

theorem State.rd_keyReported_result (h : res ≤ 5) : (s.keyReported who op n res).rd F.KEY_STATUS_LAST_RESULT = res := by
  rw [State.keyReported, State.emit_rd, State.set_eq, State.rd_wr_of_id _ _ (by decide), State.rd_wr_same]
  exact Nat.mod_eq_of_lt (Nat.lt_of_le_of_lt h (by decide))

theorem State.rd_keyReported_irq : (s.keyReported who op n res).rd F.KEY_IRQ_PROG = 1 := by
  rw [State.keyReported, State.emit_rd, State.set_eq, State.rd_wr_same]
  rfl

theorem State.rd_keyReported_ne {f : Field} {i j : Nat} (h : ∀ g ∈ [F.KEY_STATUS_LAST_SLOT, F.KEY_STATUS_LAST_RESULT,
    F.KEY_IRQ_PROG], f.id % 2 ^ 32 ≠ g.id % 2 ^ 32) : (s.keyReported who op n res).rd f i j = s.rd f i j := by
  simp only [List.forall_mem_cons] at h
  obtain ⟨hslot, hresult, hirq, -⟩ := h
  rw [State.keyReported, State.emit_rd, State.set_eq, State.rd_wr_of_id _ _ hirq, State.rd_wr_of_id _ _ hresult,
    State.rd_wr_of_id _ _ hslot]

end

/-! ### What an operation makes of its slot (Table 6-1) -/

section
variable (s : State) (n : Nat) (mat : KeyMat)

theorem State.keyAct_load : s.keyAct 1 n mat = s.loadSlot n mat := rfl
theorem State.keyAct_retire : s.keyAct 2 n mat = s.retireSlot n mat := rfl
theorem State.keyAct_erase : s.keyAct 3 n mat = s.eraseSlot n := rfl

/-- Table 6-1: no operation touches DRAM or the page map. -/
theorem State.keyAct_frame (op : Nat) : (s.keyAct op n mat).mem = s.mem ∧ (s.keyAct op n mat).map = s.map := by
  unfold State.keyAct State.loadSlot State.retireSlot State.eraseSlot
  split
  · simp
  · split <;> simp

theorem State.rd_loadSlot : (s.loadSlot n mat).rd F.KEY_SLOT_STATE_STATE 0 n = 1 ∧
    (s.loadSlot n mat).rd F.KEY_SLOT_STATE_GEN 0 n = (s.rd F.KEY_SLOT_STATE_GEN 0 n + 1) % 256 :=
  ⟨State.rd_wr_same .., (State.rd_wr_of_id _ _ (by decide)).trans (State.rd_wr_same ..)⟩

theorem State.keySlot_loadSlot : (s.loadSlot n mat).keySlot n = { s.keySlot n with cur := mat } :=
  State.keySlot_setKeySlot_same

theorem State.keySlot_loadSlot_ne {m : Nat} (h : m ≠ n) : (s.loadSlot n mat).keySlot m = s.keySlot m :=
  State.keySlot_setKeySlot_ne h

theorem State.rd_retireSlot : (s.retireSlot n mat).rd F.KEY_SLOT_STATE_STATE 0 n = 2 ∧
    (s.retireSlot n mat).rd F.KEY_SLOT_PCURSOR_PCURSOR 0 n = 0 ∧ (s.retireSlot n mat).rd F.KEY_SLOT_TCURSOR_TCURSOR 0 n = 0 ∧
    (s.retireSlot n mat).rd F.KEY_SLOT_STATE_GEN 0 n = (s.rd F.KEY_SLOT_STATE_GEN 0 n + 1) % 256 := by
  unfold State.retireSlot
  simp (disch := decide) only [State.clear_eq, State.rd_wr_of_id, State.rd_wr_same]
  exact ⟨rfl, rfl, rfl, rfl⟩

theorem State.keySlot_retireSlot :
    (s.retireSlot n mat).keySlot n = { s.keySlot n with prev := (s.keySlot n).cur, cur := mat } :=
  State.keySlot_setKeySlot_same

theorem State.keySlot_retireSlot_ne {m : Nat} (h : m ≠ n) : (s.retireSlot n mat).keySlot m = s.keySlot m :=
  State.keySlot_setKeySlot_ne h

theorem State.keySlot_eraseSlot : (s.eraseSlot n).keySlot n = { s.keySlot n with erasing := true } :=
  State.keySlot_setKeySlot_same

theorem State.keySlot_eraseSlot_ne {m : Nat} (h : m ≠ n) : (s.eraseSlot n).keySlot m = s.keySlot m :=
  State.keySlot_setKeySlot_ne h

/-- R151: the slot is EMPTY and its material zero; nothing else of the stores and no other slot changes. -/
theorem State.keyErased_shows : (s.keyErased n).keySlot n = {} ∧ (s.keyErased n).rd F.KEY_SLOT_STATE_STATE 0 n = 0 ∧
    (s.keyErased n).keyUp n = false ∧ (s.keyErased n).mem = s.mem ∧ (s.keyErased n).map = s.map ∧
    ∀ m, m ≠ n → (s.keyErased n).keySlot m = s.keySlot m := by
  have hempty : (s.keyErased n).rd F.KEY_SLOT_STATE_STATE 0 n = 0 := State.rd_wr_same ..
  exact ⟨(State.keySlot_wr ..).trans State.keySlot_setKeySlot_same, hempty, State.keyUp_empty hempty, rfl, rfl,
    fun m h => (State.keySlot_wr ..).trans (State.keySlot_setKeySlot_ne h)⟩

end

/-- R151: an ERASE takes effect once no crypto operation uses the slot, and then the requests that waited run. -/
theorem exec_keyEraseDone {s : State} {n : Fin 256} (hs : s.stage = .running) (he : (s.keySlot n).erasing = true) :
    exec (.keyEraseDone n) s =
      .next (if s.keyInUse n then s else State.vdmPump s.keyReqs (s.keyErased n)) := by
  change execKeyEraseDone n s = _
  rw [execKeyEraseDone, onDie_running hs]
  rw [he, Bool.true_and]
  cases s.keyInUse n <;> rfl

/-! ### The statement -/

/-- Settles O23: a request by whether it must wait and by its RESULT, and the end of an ERASE by whether its slot is in use. -/
theorem keyProgramming : Obligations.KeyProgramming := by
  refine ⟨fun who id req s hs => ⟨fun hbusy c hc => ⟨_, exec_keyCommand hc hs, State.vdm_busy hbusy⟩,
    fun hidle => ⟨fun hok => ?load, fun hok => ?retire, fun hok => ?erase, fun c hc hno => ?refused⟩⟩,
    fun n s hs he => ⟨fun huse => ?inUse, fun hfree => ?erased⟩,
    fun who id req s op h => State.keyResult_stranger s who id op req h⟩
  case load =>
    obtain ⟨hmem, hmap⟩ := s.keyAct_frame (byteAt req 1) (reqMat req) 1
    have hexec := exec_keyCommand_idle (c := (1, .keyLoad who id req)) (.head _) hs hidle
    rw [State.keyRun_accepted _ _ _ _ _ hok, State.keyAct_load] at hexec
    obtain ⟨hstate, hgen⟩ := s.rd_loadSlot (byteAt req 1) (reqMat req)
    exact ⟨_, hexec, by rw [State.keySlot_keyReported, State.keySlot_loadSlot],
      (State.rd_keyReported_ne _ _ _ _ _ (by decide)).trans hstate,
      (State.rd_keyReported_ne _ _ _ _ _ (by decide)).trans hgen, State.rd_keyReported_result _ _ _ _ _ (by decide),
      State.rd_keyReported_irq .., hmem, hmap,
      fun m hm => (State.keySlot_keyReported ..).trans (State.keySlot_loadSlot_ne s _ _ hm)⟩
  case retire =>
    obtain ⟨hmem, hmap⟩ := s.keyAct_frame (byteAt req 1) (reqMat req) 2
    have hexec := exec_keyCommand_idle (c := (2, .keyRetire who id req)) (.tail _ (.head _)) hs hidle
    rw [State.keyRun_accepted _ _ _ _ _ hok, State.keyAct_retire] at hexec
    obtain ⟨hstate, hpcur, htcur, hgen⟩ := s.rd_retireSlot (byteAt req 1) (reqMat req)
    have hslot := s.keySlot_retireSlot (byteAt req 1) (reqMat req)
    exact ⟨_, hexec, by rw [State.keySlot_keyReported, hslot], by rw [State.keySlot_keyReported, hslot],
      (State.rd_keyReported_ne _ _ _ _ _ (by decide)).trans hstate,
      (State.rd_keyReported_ne _ _ _ _ _ (by decide)).trans hpcur,
      (State.rd_keyReported_ne _ _ _ _ _ (by decide)).trans htcur,
      (State.rd_keyReported_ne _ _ _ _ _ (by decide)).trans hgen, hmem, hmap,
      fun m hm => (State.keySlot_keyReported ..).trans (State.keySlot_retireSlot_ne s _ _ hm)⟩
  case erase =>
    obtain ⟨hmem, hmap⟩ := s.keyAct_frame (byteAt req 1) (reqMat req) 3
    have hexec := exec_keyCommand_idle (c := (3, .keyErase who id req)) (.tail _ (.tail _ (.head _))) hs hidle
    rw [State.keyRun_accepted _ _ _ _ _ hok, State.keyAct_erase] at hexec
    have hslot := s.keySlot_eraseSlot (byteAt req 1)
    exact ⟨_, hexec, hslot, State.keyUp_erasing (by rw [State.keySlot_keyReported, hslot]), hmem, hmap,
      fun m hm => (State.keySlot_keyReported ..).trans (State.keySlot_eraseSlot_ne s _ hm)⟩
  case refused =>
    have hexec := exec_keyCommand_idle hc hs hidle
    rw [State.keyRun_refused _ _ _ _ _ hno] at hexec
    exact ⟨_, hexec, rfl, (State.rd_keyReported_ne _ _ _ _ _ (by decide)).trans (State.rd_bump_same ..),
      State.rd_keyReported_result _ _ _ _ _ (State.keyResult_le ..), State.rd_keyReported_irq ..,
      fun m => (State.rd_keyReported_ne _ _ _ _ _ (by decide)).trans (State.rd_wr_of_id _ _ (by decide))⟩
  case inUse =>
    exact ⟨_, exec_keyEraseDone hs he, if_pos huse⟩
  case erased =>
    refine ⟨_, exec_keyEraseDone hs he, s.keyErased n, if_neg (Bool.eq_false_iff.1 hfree), fun hnone => ?_,
      s.keyErased_shows n⟩
    rw [hfree, hnone]
    rfl

end Sys2Proof.Machine

/-!
# The region table (R138, Table 6-9)
-/

namespace Sys2Proof.Machine

/-- R429: in a block of one copy whose register stands in a row, the offset of an entry is that entry's. -/
theorem Field.at_addr {f : Field} {j : Nat} (hb : f.blk.stride = 0) (hc : 0 < f.blk.copies) (hs : f.stride ≠ 0) (hj : j < f.n)
    (hroute : f.reset ≠ .route) : f.at (f.addr 0 j) = some (0, j) := by
  have hdiv : f.stride * j / f.stride = j := Nat.mul_div_cancel_left j (Nat.pos_of_ne_zero hs)
  unfold Field.at Field.addr
  simp [hb, hs, hj, hroute, hdiv, Nat.mul_comm j, Nat.ne_of_gt hc, Nat.add_assoc]

theorem F.KEY_REG_CFG_VALID_at (n : Fin 1024) : F.KEY_REG_CFG_VALID.at (F.KEY_REG_CFG_VALID.addr 0 n) = some (0, n.val) :=
  Field.at_addr rfl (by decide) (by decide) n.isLt (by decide)

/-- INTEG lies below VALID in a word of KEY_REGn.CFG. -/
theorem testBit_setBits_integ (v x : Nat) : (setBits v 10 9 x).testBit 63 = v.testBit 63 := by
  simp only [Nat.testBit_eq_decide_div_mod_eq, setBits, bits]
  congr 2
  omega

section
variable {s : State} {who : Initiator} {n : Fin 1024} {v : BitVec 64}

theorem exec_regionEnable (h : Permitted s who (F.KEY_REG_CFG_VALID.addr 0 n) true) : exec (.regionEnable who n v) s =
    .next ((s.dropHalves who (F.KEY_REG_CFG_VALID.addr 0 n)).regionCfg who n v.toNat) := by
  change execRegionEnable who n v s = _
  rw [execRegionEnable, onDie_running h.1, barWrite_permitted h, State.writeKey, F.KEY_REG_CFG_VALID_at]

theorem State.isOwner_dropHalves (off : Nat) : (s.dropHalves who off).isOwner who = s.isOwner who := rfl

theorem State.regionOk_dropHalves (off m integ : Nat) : (s.dropHalves who off).regionOk m integ = s.regionOk m integ := rfl

theorem State.regionCfg_stranger (h : s.isOwner who = false) (w : Nat) : s.regionCfg who n w = s := by
  simp [State.regionCfg, h]

theorem State.regionCfg_owner (h : s.isOwner who = true) (w : Nat) : s.regionCfg who n w =
    if w.testBit 63 = true ∧ s.regionOk n (min 2 (F.KEY_REG_CFG_INTEG.of w)) = false then s.bump F.KEY_ERR_REGION_REJECT
    else s.writeWord who (F.KEY_REG_CFG_VALID.addr 0 n) (setBits w 10 9 (min 2 (F.KEY_REG_CFG_INTEG.of w))) := by
  simp only [State.regionCfg, h, Bool.not_true, Bool.false_eq_true, if_false, testBit_setBits_integ]

end

/-- Settles O24: a write of KEY_REGn.CFG by whose it is, and the owner's by whether it makes an entry valid that fails its
checks. -/
theorem regionTable : Obligations.RegionTable := by
  intro who n v s hp
  have hexec := exec_regionEnable (v := v) hp
  refine ⟨fun hno => ?stranger, fun howner hvalid hbad => ?rejected, fun howner hok => ?written⟩
  case stranger =>
    rw [State.regionCfg_stranger ((State.isOwner_dropHalves _).trans hno)] at hexec
    exact ⟨_, hexec, rfl, SameStore.refl s⟩
  case rejected =>
    rw [State.regionCfg_owner ((State.isOwner_dropHalves _).trans howner), State.regionOk_dropHalves,
      if_pos ⟨hvalid, hbad⟩] at hexec
    exact ⟨_, hexec, State.rd_bump_same .., fun m => ⟨State.rd_wr_of_id _ _ (by decide), State.rd_wr_of_id _ _ (by decide)⟩,
      SameStore.refl s⟩
  case written =>
    rw [State.regionCfg_owner ((State.isOwner_dropHalves _).trans howner), State.regionOk_dropHalves,
      if_neg fun ⟨hvalid, hbad⟩ => Bool.false_ne_true (hbad.symm.trans (hok hvalid))] at hexec
    exact ⟨_, hexec, State.written_sameStore .., rfl⟩

end Sys2Proof.Machine

/-!
# What a session's end and the floors leave of the nonvolatile store (R344, R390, R404)

Only a record of severity 2 or more reaches the nonvolatile ring. A decode that fails writes one of severity 1 and the end of a
session one of severity 0, so that neither the floors that rise nor a session that ends change the store.
-/

namespace Sys2Proof.Machine

section
variable (s : State)

theorem mapBlind_nvs : MapBlind State.nvs where
  reg _ _ _ _ _ := rfl
  smp _ _ := rfl
  txn _ _ := rfl
  free _ _ := rfl
  dram _ _ := rfl
  pwr _ _ := rfl
  map _ _ := rfl

theorem State.record_nvs {sev : Nat} (h : sev < 2) (cls blk inst a1 a2 d : Nat) :
    (s.record cls sev blk inst a1 a2 d).nvs = s.nvs := by
  unfold State.record
  extract_lets r full s1 s2 s3 s4
  rw [if_neg (Nat.not_le.2 h)]
  have hcount : s3.nvs = s2.nvs := ite_keeps (p := State.nvs) (s := s2) _ (State.wr_nvs ..) (State.wr_nvs ..)
  exact (State.wr_nvs ..).trans <| (State.wr_nvs ..).trans <| hcount.trans (State.wr_nvs ..)

theorem State.treadFail_nvs (g page b : Nat) (alone : Bool) (e : TreadErr) : (s.treadFail g page b alone e).nvs = s.nvs := by
  unfold State.treadFail
  exact State.record_nvs _ (by decide) ..

theorem State.blkDecode_nvs (g page b : Nat) (ct : Bytes) : (s.blkDecode g page b ct).nvs = s.nvs := by
  have hdec (t : State) (g tier : Nat) : (t.countDec g tier).nvs = t.nvs :=
    (mapBlind_nvs.toPostBlind.counts ..).trans (State.wr_nvs ..)
  have hshare (t : State) (p b : Nat) (res : BlockRes) : (t.shareBlock p b res).nvs = t.nvs := rfl
  unfold State.blkDecode
  dsimp only
  refine ite_keeps (p := State.nvs) _ rfl ?_
  split
  · exact (hshare ..).trans (hdec ..)
  · exact (hshare ..).trans <| (State.treadFail_nvs ..).trans (hdec ..)

theorem State.releaseHeld_nvs (d : Nat) : (s.releaseHeld d).nvs = s.nvs := by
  unfold State.releaseHeld
  extract_lets l bs s1 s2 ps
  exact (State.forEach_keeps (p := State.nvs) fun _ _ => State.blkDecode_nvs .. : s2.nvs = s1.nvs)

theorem State.endDrain_nvs (d : Nat) : (s.endDrain d).nvs = s.nvs :=
  ite_keeps (p := State.nvs) _ ((State.releaseHeld_nvs ..).trans (State.when_keeps (p := State.nvs) _ _ rfl)) rfl

theorem State.wakeDom_nvs (d : Nat) : (s.wakeDom d).nvs = s.nvs :=
  ite_keeps (p := State.nvs) _ (mapBlind_nvs.toPostBlind.counts ..) rfl

theorem State.exitSteps_nvs (f : Nat) : (s.exitSteps f).nvs = s.nvs := by
  unfold State.exitSteps
  split
  · rfl
  · exact State.forEach_keeps (p := State.nvs) fun _ _ => (State.wakeDom_nvs ..).trans (State.endDrain_nvs ..)
  · exact State.forEach_keeps (p := State.nvs) fun _ _ => ite_keeps (p := State.nvs) _ rfl rfl
  · rfl

theorem State.setFloor_nvs (f : Nat) : (s.setFloor f).nvs = s.nvs := by
  have hset : (((s.wr F.PWR_STATUS_FLOOR f).set F.PWR_IRQ_FLOOR).counts 63 evFloor).nvs = s.nvs :=
    mapBlind_nvs.toPostBlind.counts ..
  exact ite_keeps (p := State.nvs) _ rfl (ite_keeps (p := State.nvs) _ hset hset)

theorem State.riseN_nvs (n : Nat) : (State.riseN n s).nvs = s.nvs := by
  induction n generalizing s with
  | zero => rfl
  | succ n ih =>
    unfold State.riseN
    extract_lets t f deep s1 _ s2 s3
    have h1 : s1.nvs = s.nvs := State.exitSteps_nvs ..
    have h2 : s2.nvs = s1.nvs := ite_keeps (p := State.nvs) _ rfl rfl
    have h3 : s3.nvs = s2.nvs := ite_keeps (p := State.nvs) _ rfl (State.setFloor_nvs ..)
    refine ite_keeps (p := State.nvs) _ (ite_keeps (p := State.nvs) _ rfl rfl) (ite_keeps (p := State.nvs) _ h1 ?_)
    exact (ih _).trans (h3.trans (h2.trans h1))

theorem State.showLoft_nvs : s.showLoft.nvs = s.nvs := by
  refine State.forEach_keeps (p := State.nvs) fun t k => ite_keeps (p := State.nvs) _ ?_ rfl
  split
  · rfl
  · exact State.forEach_keeps (p := State.nvs) fun _ _ => mapBlind_nvs.toPostBlind.rouse ..

theorem State.showCap_nvs : s.showCap.nvs = s.nvs := by
  unfold State.showCap
  exact ite_keeps (p := State.nvs) (s := s) _ rfl rfl

theorem State.retarget_nvs : s.retarget.nvs = s.nvs :=
  (State.riseN_nvs ..).trans <| (State.showLoft_nvs _).trans (State.showCap_nvs _)

theorem State.wdtPause_eq : ∃ x, s.wdtPause = { s with cc := x } := by
  unfold State.wdtPause
  dsimp only
  split
  · exact ⟨_, rfl⟩
  · split
    · exact ⟨_, rfl⟩
    · exact ⟨_, rfl⟩

/-- R390: cores that resume change the control complex alone. -/
theorem State.resumeCores_eq : ∃ x, s.resumeCores = { s with cc := x } := by
  unfold State.resumeCores
  split
  · exact ⟨_, rfl⟩
  · obtain ⟨x, hx⟩ := State.wdtPause_eq { s with cc := { s.cc with
      cores := s.cc.cores.map fun c => if c = .halted then .running else c } }
    exact ⟨x, hx⟩

end

/-! ### The end of a session that is not FULL (R390) -/

section
variable {s : State} (reason : Nat)

theorem State.closeSession_none (h : s.rd F.DBG_STATUS_LEVEL = 0) : s.closeSession reason = s := if_pos h

/-- R390: the end of a session below FULL is recorded, its cores resume, and the target is shown anew. -/
theorem State.closeSession_open (h0 : s.rd F.DBG_STATUS_LEVEL ≠ 0) (h3 : s.rd F.DBG_STATUS_LEVEL ≠ 3) :
    ∃ x, s.closeSession reason = ({ s.sessionEnded reason with cc := x } : State).retarget := by
  obtain ⟨x, hx⟩ := (s.sessionEnded reason).resumeCores_eq
  unfold State.closeSession
  dsimp only
  rw [if_neg h0, if_neg h3]
  split
  · exact ⟨x, by rw [hx]⟩
  · exact ⟨_, rfl⟩

theorem State.sessionEnded_nvs (s : State) : (s.sessionEnded reason).nvs = s.nvs := by
  unfold State.sessionEnded
  exact State.record_nvs _ (by decide) ..

theorem State.rd_sessionEnded_level (s : State) : (s.sessionEnded reason).rd F.DBG_STATUS_LEVEL = 0 := by
  unfold State.sessionEnded
  dsimp only
  rw [State.rd_record_ne _ _ _ _ _ _ _ _ (by decide), State.set_eq, State.rd_wr_of_id _ _ (by decide), State.clear_eq,
    State.rd_wr_of_id _ _ (by decide), State.clear_eq, State.rd_wr_same]
  rfl

/-- The fields that the end of a session changes (R390). -/
def endFields : List Field :=
  [F.DBG_STATUS_END_REASON, F.DBG_STATUS_LEVEL, F.DBG_STATUS_PENDING, F.SEC_IRQ_DBG_END] ++ recordFields 0

theorem State.rd_sessionEnded_ne (s : State) {f : Field} (h : ∀ g ∈ endFields, f.id % 2 ^ 32 ≠ g.id % 2 ^ 32) :
    (s.sessionEnded reason).rd f = s.rd f := by
  unfold State.sessionEnded
  dsimp only
  rw [State.rd_record_ne _ _ _ _ _ _ _ _ fun g hg => h g (by simp [endFields, hg]), State.set_eq,
    State.rd_wr_of_id _ _ (h F.SEC_IRQ_DBG_END (by simp [endFields])), State.clear_eq,
    State.rd_wr_of_id _ _ (h F.DBG_STATUS_PENDING (by simp [endFields])), State.clear_eq,
    State.rd_wr_of_id _ _ (h F.DBG_STATUS_LEVEL (by simp [endFields])),
    State.rd_wr_of_id _ _ (h F.DBG_STATUS_END_REASON (by simp [endFields]))]

variable (h3 : s.rd F.DBG_STATUS_LEVEL ≠ 3)
include h3

theorem State.closeSession_nvs : (s.closeSession reason).nvs = s.nvs := by
  by_cases h0 : s.rd F.DBG_STATUS_LEVEL = 0
  · rw [State.closeSession_none reason h0]
  · obtain ⟨x, hx⟩ := State.closeSession_open reason h0 h3
    rw [hx, State.retarget_nvs]
    exact State.sessionEnded_nvs reason s

theorem State.rd_closeSession_level : (s.closeSession reason).rd F.DBG_STATUS_LEVEL = 0 := by
  by_cases h0 : s.rd F.DBG_STATUS_LEVEL = 0
  · rwa [State.closeSession_none reason h0]
  · obtain ⟨x, hx⟩ := State.closeSession_open reason h0 h3
    rw [hx, (floorBlind_rd (by decide)).retarget]
    exact State.rd_sessionEnded_level reason s

theorem State.rd_closeSession_ne {f : Field} (hend : ∀ g ∈ endFields, f.id % 2 ^ 32 ≠ g.id % 2 ^ 32)
    (hfloor : ∀ g ∈ countFields ++ postFields ++ floorFields ++ domFields, f.id % 2 ^ 32 ≠ g.id % 2 ^ 32) :
    (s.closeSession reason).rd f = s.rd f := by
  by_cases h0 : s.rd F.DBG_STATUS_LEVEL = 0
  · rw [State.closeSession_none reason h0]
  · obtain ⟨x, hx⟩ := State.closeSession_open reason h0 h3
    rw [hx, (floorBlind_rd hfloor).retarget]
    exact State.rd_sessionEnded_ne reason s hend

end

end Sys2Proof.Machine

/-!
# The lifecycle (R378 to R384) and the address-hashing key (R392)
-/

namespace Sys2Proof.Machine

/-! ### Lifecycle requests (R379, R380) -/

section
variable {s : State} {who : Initiator} {session : BitVec 32} {req : Bytes} {nvsOk : Bool} {x : Instr × Nat × Bool}

/-- The lifecycle requests of Table 17-2, each with its opcode and whether the nonvolatile store takes its write. -/
noncomputable def lcCommands (who : Initiator) (session : BitVec 32) (req : Bytes) (nvsOk : Bool) : List (Instr × Nat × Bool) :=
  [(.setOwner who session req nvsOk, lcSET, nvsOk), (.seal who session req nvsOk, lcSEAL, nvsOk),
   (.lcReturn who session req nvsOk, lcRETURN, nvsOk), (.bind who session req, lcBIND, true),
   (.unbind who session req, lcUNBIND, true)]

theorem exec_lcCommand (hx : x ∈ lcCommands who session req nvsOk) (hs : s.stage = .running) :
    exec x.1 s = .next (s.vdm ⟨who, session.toNat, x.2.1, req, x.2.2⟩) := by
  simp only [lcCommands, List.mem_cons, List.not_mem_nil, or_false] at hx
  rcases hx with rfl | rfl | rfl | rfl | rfl
  · exact onDie_running (f := fun s => s.vdm ⟨who, session.toNat, lcSET, req, nvsOk⟩) hs
  · exact onDie_running (f := fun s => s.vdm ⟨who, session.toNat, lcSEAL, req, nvsOk⟩) hs
  · exact onDie_running (f := fun s => s.vdm ⟨who, session.toNat, lcRETURN, req, nvsOk⟩) hs
  · exact onDie_running (f := fun s => s.vdm ⟨who, session.toNat, lcBIND, req, true⟩) hs
  · exact onDie_running (f := fun s => s.vdm ⟨who, session.toNat, lcUNBIND, req, true⟩) hs

theorem exec_lcCommand_idle (hx : x ∈ lcCommands who session req nvsOk) (hs : s.stage = .running) (hb : s.vdmBusy = false) :
    exec x.1 s = .next (s.lcRun who session.toNat x.2.1 req x.2.2) := by
  have hop : ¬x.2.1 < lcSET := by
    simp only [lcCommands, List.mem_cons, List.not_mem_nil, or_false] at hx
    rcases hx with rfl | rfl | rfl | rfl | rfl <;> simp [lcSET, lcSEAL, lcRETURN, lcBIND, lcUNBIND]
  rw [exec_lcCommand hx hs, State.vdm_idle hb, State.vdmRun, if_neg hop]

/-- Table 17-2: what RETURN does. -/
theorem State.lcAct_return : s.lcAct who lcRETURN req = s.returnBegin who := by
  rw [State.lcAct, if_neg (by decide), if_neg (by decide), if_pos rfl]

/-- R380: a request that is refused is answered, and nothing more. -/
theorem exec_lcCommand_refused (hx : x ∈ lcCommands who session req nvsOk) (hs : s.stage = .running) (hb : s.vdmBusy = false)
    (hno : s.lcResult who session.toNat x.2.1 req x.2.2 ≠ lcOk) :
    exec x.1 s = .next (s.lcAnswer who x.2.1 (s.lcResult who session.toNat x.2.1 req x.2.2)) :=
  (exec_lcCommand_idle hx hs hb).trans (congrArg _ (if_neg hno))

theorem exec_lcCommand_admitted (hx : x ∈ lcCommands who session req nvsOk) (hs : s.stage = .running) (hb : s.vdmBusy = false)
    (hok : s.lcResult who session.toNat x.2.1 req x.2.2 = lcOk) : exec x.1 s = .next (s.lcAct who x.2.1 req) :=
  (exec_lcCommand_idle hx hs hb).trans (congrArg _ (if_pos hok))

variable (hs : s.stage = .running) (hb : s.vdmBusy = false)
include hs hb

theorem exec_setOwner (hok : s.lcResult who session.toNat lcSET req nvsOk = lcOk) : exec (.setOwner who session req nvsOk) s =
    .next ((({ s with nvs := { s.nvs with ownerKey := slice req 8 96 } }).lcChange lcOwned).lcDone who lcSET) :=
  exec_lcCommand_admitted (x := (.setOwner who session req nvsOk, lcSET, nvsOk)) (.head _) hs hb hok

theorem exec_seal (hok : s.lcResult who session.toNat lcSEAL req nvsOk = lcOk) : exec (.seal who session req nvsOk) s =
    .next ((s.lcChange lcSealed).lcDone who lcSEAL) :=
  exec_lcCommand_admitted (x := (.seal who session req nvsOk, lcSEAL, nvsOk)) (.tail _ (.head _)) hs hb hok

theorem exec_lcReturn (hok : s.lcResult who session.toNat lcRETURN req nvsOk = lcOk) :
    exec (.lcReturn who session req nvsOk) s = .next (s.returnBegin who) :=
  (exec_lcCommand_admitted (x := (.lcReturn who session req nvsOk, lcRETURN, nvsOk)) (.tail _ (.tail _ (.head _)))
    hs hb hok).trans (congrArg _ State.lcAct_return)

theorem exec_bind (hok : s.lcResult who session.toNat lcBIND req true = lcOk) : exec (.bind who session req) s =
    .next ((s.wrBit F.SEC_BIND_LDS (byteAt req 1) true).lcDone who lcBIND) :=
  exec_lcCommand_admitted (nvsOk := true) (x := (.bind who session req, lcBIND, true))
    (.tail _ (.tail _ (.tail _ (.head _)))) hs hb hok

theorem exec_unbind (hok : s.lcResult who session.toNat lcUNBIND req true = lcOk) : exec (.unbind who session req) s =
    .next ((s.wrBit F.SEC_BIND_LDS (byteAt req 1) false).lcDone who lcUNBIND) :=
  exec_lcCommand_admitted (nvsOk := true) (x := (.unbind who session req, lcUNBIND, true))
    (.tail _ (.tail _ (.tail _ (.tail _ (.head _))))) hs hb hok

end

/-- R380: a request that is admitted has the form of Table 17-2. -/
theorem State.lcFormOk_of_result {s : State} {who : Initiator} {id op : Nat} {req : Bytes} {nvsOk : Bool}
    (h : s.lcResult who id op req nvsOk = lcOk) : lcFormOk op req = true := by
  by_contra hno
  have hnever : ∀ (a b : Prop) [Decidable a] [Decidable b],
      (if a then lcWrongTransport else if b then lcNotOwner else lcMalformed) ≠ lcOk := by
    intro a b _ _
    split
    · decide
    · split <;> decide
  rw [Bool.not_eq_true] at hno
  simp only [State.lcResult, hno, Bool.not_false, if_true] at h
  exact hnever _ _ h

/-- Table 17-2: BIND and UNBIND name one of the 64 LDs. -/
theorem byteAt_lt_of_lcFormOk {op : Nat} {req : Bytes} (hop : lcBIND ≤ op) (h : lcFormOk op req = true) :
    byteAt req 1 < 64 := by
  have hset : op ≠ lcSET := by simp only [lcBIND, lcSET] at *; omega
  have hseal : op ≠ lcSEAL := by simp only [lcBIND, lcSEAL] at *; omega
  have hreturn : op ≠ lcRETURN := by simp only [lcBIND, lcRETURN] at *; omega
  simp only [lcFormOk, if_neg hset, if_neg hseal, if_neg hreturn, Bool.and_eq_true, decide_eq_true_eq] at h
  obtain ⟨-, -, hlt⟩ := h
  exact hlt

/-! ### How a request that is carried out at once ends -/

section
variable (s : State) (who : Initiator) (op : Nat)

theorem State.rd_lcDone_irq : (s.lcDone who op).rd F.SEC_IRQ_LC_CHANGE = 1 := by
  rw [State.lcDone, State.lcAnswer, State.emit_rd, State.set_eq, State.rd_wr_same]
  rfl

theorem State.rd_lcDone_ne {f : Field} (h : f.id % 2 ^ 32 ≠ F.SEC_IRQ_LC_CHANGE.id % 2 ^ 32) :
    (s.lcDone who op).rd f = s.rd f := by
  rw [State.lcDone, State.lcAnswer, State.emit_rd, State.set_eq, State.rd_wr_of_id _ _ h]

theorem State.lcDone_sameStore : SameStore s (s.lcDone who op) := ⟨rfl, rfl, rfl, rfl, rfl, rfl⟩

theorem State.lcDone_out :
    (s.lcDone who op).out = s.out ++ [.vendor who (toLE 1 op ++ toLE 1 lcOk ++ toLE 1 (s.rd F.SEC_LC_STATE) ++ [0])] := by
  have hstate : (s.set F.SEC_IRQ_LC_CHANGE).rd F.SEC_LC_STATE = s.rd F.SEC_LC_STATE := State.rd_wr_of_id _ _ (by decide)
  rw [State.lcDone, State.lcAnswer, hstate]
  rfl

end

/-! ### SET_OWNER and SEAL (R381, R384, R390) -/

section
variable {s : State} {lc : Nat}

/-- R381: a transition that is no return. -/
theorem State.enterLc_shows (h : lc < lcReturned) : (s.enterLc lc).nvs.ownerKey = s.nvs.ownerKey ∧
    (s.enterLc lc).rd F.SEC_LC_STATE = lc ∧ (s.enterLc lc).rd F.SEC_LC_PENDING = 0 ∧ (s.enterLc lc).mem = s.mem ∧
    (s.enterLc lc).keys = s.keys ∧ (s.enterLc lc).out = s.out := by
  have hlc : lc % 2 ^ F.SEC_LC_STATE.width = lc := Nat.mod_eq_of_lt (Nat.lt_trans h (by decide))
  unfold State.enterLc
  rw [if_neg (Nat.ne_of_lt h)]
  dsimp only
  refine ⟨rfl, ?_, State.rd_wr_same .., rfl, rfl, rfl⟩
  rw [State.clear_eq, State.rd_wr_of_id _ _ (by decide), State.rd_wr_same, hlc]

/-- R381: a transition that is no return sets the fields of the lifecycle. -/
theorem State.rd_enterLc_ne (h : lc < lcReturned) {f : Field}
    (hf : ∀ g ∈ [F.SEC_OWNER_ID_KEY_ID, F.SEC_LC_STATE, F.SEC_LC_PENDING], f.id % 2 ^ 32 ≠ g.id % 2 ^ 32) :
    (s.enterLc lc).rd f = s.rd f := by
  simp only [List.forall_mem_cons] at hf
  obtain ⟨hkey, hstate, hpending, -⟩ := hf
  unfold State.enterLc
  rw [if_neg (Nat.ne_of_lt h)]
  dsimp only
  rw [State.clear_eq, State.rd_wr_of_id _ _ hpending, State.rd_wr_of_id _ _ hstate]
  exact (State.rd_wr_of_id _ _ hkey).trans (State.rd_wr_of_id _ _ hkey)

/-- A lifecycle change before it closes the debug session: no LD is bound, and the new state is entered. -/
def State.lcEntered (s : State) (lc : Nat) : State := (s.clear F.SEC_BIND_LDS).enterLc lc

theorem State.lcChange_eq (s : State) (lc : Nat) : s.lcChange lc = ((s.lcEntered lc).closeSession 4).showCc := rfl

theorem State.rd_lcEntered_bind (h : lc < lcReturned) : (s.lcEntered lc).rd F.SEC_BIND_LDS = 0 :=
  (State.rd_enterLc_ne h (by decide)).trans (State.rd_wr_same ..)

theorem State.rd_lcEntered_level (h : lc < lcReturned) : (s.lcEntered lc).rd F.DBG_STATUS_LEVEL = s.rd F.DBG_STATUS_LEVEL :=
  (State.rd_enterLc_ne h (by decide)).trans (State.rd_wr_of_id _ _ (by decide))

theorem State.rd_showCc_ne (s : State) {f : Field} (h : f.id % 2 ^ 32 ≠ F.SEC_STATUS_CC_OWNER.id % 2 ^ 32) :
    s.showCc.rd f = s.rd f := State.rd_wr_of_id _ _ h

variable (h : lc < lcReturned) (who : Initiator) (op : Nat)
include h

/-- R381, R384, R390: what a lifecycle change shows where the session is not FULL. -/
theorem State.lcChange_shows (h3 : s.rd F.DBG_STATUS_LEVEL ≠ 3) : (s.lcChange lc).nvs.ownerKey = s.nvs.ownerKey ∧
    (s.lcChange lc).rd F.SEC_LC_STATE = lc ∧ (s.lcChange lc).rd F.SEC_LC_PENDING = 0 ∧
    (s.lcChange lc).rd F.SEC_BIND_LDS = 0 ∧ (s.lcChange lc).rd F.DBG_STATUS_LEVEL = 0 := by
  obtain ⟨hkey, hstate, hpending, -⟩ := (s.clear F.SEC_BIND_LDS).enterLc_shows h
  have hlevel : (s.lcEntered lc).rd F.DBG_STATUS_LEVEL ≠ 3 := by rwa [State.rd_lcEntered_level h]
  have hnvs : (s.lcChange lc).nvs = (s.lcEntered lc).nvs := State.closeSession_nvs 4 hlevel
  rw [State.lcChange_eq] at hnvs ⊢
  refine ⟨(congrArg Nvs.ownerKey hnvs).trans hkey, ?_, ?_, ?_, ?_⟩
  · rw [State.rd_showCc_ne _ (by decide), State.rd_closeSession_ne 4 hlevel (by decide) (by decide)]
    exact hstate
  · rw [State.rd_showCc_ne _ (by decide), State.rd_closeSession_ne 4 hlevel (by decide) (by decide)]
    exact hpending
  · rw [State.rd_showCc_ne _ (by decide), State.rd_closeSession_ne 4 hlevel (by decide) (by decide)]
    exact State.rd_lcEntered_bind h
  · rw [State.rd_showCc_ne _ (by decide)]
    exact State.rd_closeSession_level 4 hlevel

theorem State.lcDone_lcChange_shows (h3 : s.rd F.DBG_STATUS_LEVEL ≠ 3) :
    ((s.lcChange lc).lcDone who op).nvs.ownerKey = s.nvs.ownerKey ∧ ((s.lcChange lc).lcDone who op).rd F.SEC_LC_STATE = lc ∧
    ((s.lcChange lc).lcDone who op).rd F.SEC_LC_PENDING = 0 ∧ ((s.lcChange lc).lcDone who op).rd F.SEC_BIND_LDS = 0 ∧
    ((s.lcChange lc).lcDone who op).rd F.DBG_STATUS_LEVEL = 0 ∧
    ((s.lcChange lc).lcDone who op).rd F.SEC_IRQ_LC_CHANGE = 1 := by
  obtain ⟨hkey, hstate, hpending, hbind, hlevel⟩ := State.lcChange_shows h h3
  exact ⟨hkey, (State.rd_lcDone_ne _ _ _ (by decide)).trans hstate, (State.rd_lcDone_ne _ _ _ (by decide)).trans hpending,
    (State.rd_lcDone_ne _ _ _ (by decide)).trans hbind, (State.rd_lcDone_ne _ _ _ (by decide)).trans hlevel,
    State.rd_lcDone_irq ..⟩

/-- With no session open, a lifecycle change touches neither DRAM nor the keys, and is answered with the new state. -/
theorem State.lcDone_lcChange_quiet (h0 : s.rd F.DBG_STATUS_LEVEL = 0) : ((s.lcChange lc).lcDone who op).mem = s.mem ∧
    ((s.lcChange lc).lcDone who op).keys = s.keys ∧
    ((s.lcChange lc).lcDone who op).out = s.out ++ [.vendor who (toLE 1 op ++ toLE 1 lcOk ++ toLE 1 lc ++ [0])] := by
  obtain ⟨-, hstate, -, hmem, hkeys, hout⟩ := (s.clear F.SEC_BIND_LDS).enterLc_shows h
  have hchange : s.lcChange lc = (s.lcEntered lc).showCc := by
    rw [State.lcChange_eq, State.closeSession_none 4 ((State.rd_lcEntered_level h).trans h0)]
  have hlc : (s.lcEntered lc).showCc.rd F.SEC_LC_STATE = lc := (State.rd_showCc_ne _ (by decide)).trans hstate
  rw [State.lcDone_out, hchange, hlc]
  exact ⟨hmem, hkeys, congrArg (· ++ _) hout⟩

end

/-! ### RETURN (R382, Table 17-4) -/

section
variable (s : State) (who : Initiator)

/-- Table 17-4, step 2: what the erasure of the key slots does. -/
theorem State.eraseKeys_shows : s.eraseKeys.keys = [] ∧ s.eraseKeys.sec = s.sec ∧ s.eraseKeys.nvs = s.nvs ∧
    s.eraseKeys.out = s.out := by
  have hview : (s.eraseKeys.keys, s.eraseKeys.sec, s.eraseKeys.nvs, s.eraseKeys.out) = ([], s.sec, s.nvs, s.out) :=
    State.forEach_keeps (p := fun t : State => (t.keys, t.sec, t.nvs, t.out)) fun _ _ => rfl
  simpa only [Prod.mk.injEq] using hview

theorem State.rd_eraseKeys_ne {f : Field} (h : f.id % 2 ^ 32 ≠ F.KEY_SLOT_STATE_STATE.id % 2 ^ 32) :
    s.eraseKeys.rd f = s.rd f :=
  State.forEach_keeps (p := fun t : State => t.rd f) fun _ _ => State.rd_wr_of_id _ _ h

/-- Table 17-4, step 2: every slot but slot 0 is EMPTY. -/
theorem State.rd_eraseKeys_slot {n : Nat} (h1 : 1 ≤ n) (hn : n < 256) : s.eraseKeys.rd F.KEY_SLOT_STATE_STATE 0 n = 0 := by
  refine State.forEach_sets (p := fun t : State => t.rd F.KEY_SLOT_STATE_STATE 0 n) (x := n - 1)
    (List.mem_range.2 (by omega)) (fun t => ?_) fun t m ht => ?_
  · rw [Nat.sub_add_cancel h1]
    exact State.rd_wr_same ..
  · rcases eq_or_ne n (m + 1) with rfl | hne
    · exact State.rd_wr_same ..
    · exact (State.rd_wr_ne _ _ fun hkey => hne (Field.key_inj hkey).2).trans ht

/-- Table 17-4, step 1: a RETURN is marked in the nonvolatile store, as under way, and as pending. -/
def State.returnMarked (s : State) (who : Initiator) : State :=
  { s with nvs := { s.nvs with lcPending := some lcReturned },
           sec := { s.sec with returning := some who } }.set F.SEC_LC_PENDING

theorem State.returnBegin_eq :
    s.returnBegin who = (((s.returnMarked who).closeSession 4).clear F.SEC_BIND_LDS).eraseKeys := rfl

theorem State.rd_returnMarked_level : (s.returnMarked who).rd F.DBG_STATUS_LEVEL = s.rd F.DBG_STATUS_LEVEL :=
  State.rd_wr_of_id _ _ (by decide)

theorem State.rd_returnMarked_pending : (s.returnMarked who).rd F.SEC_LC_PENDING = 1 := State.rd_wr_same ..

theorem State.returnBegin_shows (h0 : s.rd F.DBG_STATUS_LEVEL = 0) : (s.returnBegin who).keys = [] ∧
    (s.returnBegin who).sec.returning = some who ∧ (s.returnBegin who).nvs.lcPending = some lcReturned ∧
    (s.returnBegin who).rd F.SEC_LC_PENDING = 1 ∧ (s.returnBegin who).rd F.SEC_BIND_LDS = 0 ∧
    (s.returnBegin who).out = s.out ∧
    ∀ n, 1 ≤ n → n < 256 → (s.returnBegin who).rd F.KEY_SLOT_STATE_STATE 0 n = 0 := by
  obtain ⟨hkeys, hsec, hnvs, hout⟩ := ((s.returnMarked who).clear F.SEC_BIND_LDS).eraseKeys_shows
  rw [State.returnBegin_eq, State.closeSession_none 4 ((State.rd_returnMarked_level ..).trans h0)]
  refine ⟨hkeys, congrArg SecSt.returning hsec, congrArg Nvs.lcPending hnvs, ?_, ?_, hout,
    fun n h1 hn => State.rd_eraseKeys_slot _ h1 hn⟩
  · rw [State.rd_eraseKeys_ne _ (by decide), State.clear_eq, State.rd_wr_of_id _ _ (by decide), State.rd_returnMarked_pending]
  · rw [State.rd_eraseKeys_ne _ (by decide), State.clear_eq, State.rd_wr_same]
    rfl

end

/-! ### BIND and UNBIND (R384) -/

section
variable (s : State) (who : Initiator) (op : Nat)

theorem State.rdBit_wrBit_true (f : Field) {k i j : Nat} (hk : k < f.width) : (s.wrBit f k true i j).rdBit f k i j = true := by
  rw [State.rdBit, State.wrBit_eq, State.rd_wr_same, Nat.testBit_mod_two_pow, testBit_setBit_true, Bool.and_true]
  exact decide_eq_true hk

/-- R384: what a change of one LD's bit shows. -/
theorem State.bound_shows (k : Nat) (b : Bool) :
    ((s.wrBit F.SEC_BIND_LDS k b).lcDone who op).rdBit F.SEC_BIND_LDS k = (s.wrBit F.SEC_BIND_LDS k b).rdBit F.SEC_BIND_LDS k ∧
    ((s.wrBit F.SEC_BIND_LDS k b).lcDone who op).rd F.SEC_IRQ_LC_CHANGE = 1 ∧
    SameStore s ((s.wrBit F.SEC_BIND_LDS k b).lcDone who op) ∧
    ((s.wrBit F.SEC_BIND_LDS k b).lcDone who op).out =
      s.out ++ [.vendor who (toLE 1 op ++ toLE 1 lcOk ++ toLE 1 (s.rd F.SEC_LC_STATE) ++ [0])] := by
  have hstate : (s.wrBit F.SEC_BIND_LDS k b).rd F.SEC_LC_STATE = s.rd F.SEC_LC_STATE := State.rd_wr_of_id _ _ (by decide)
  refine ⟨?_, State.rd_lcDone_irq .., State.lcDone_sameStore (s.wrBit F.SEC_BIND_LDS k b) who op, ?_⟩
  · rw [State.rdBit, State.rd_lcDone_ne _ _ _ (by decide), State.rdBit]
  · rw [State.lcDone_out, hstate]
    rfl

end

/-! ### The address-hashing key (R392) -/

/-- SEC_CTL. -/
theorem fieldsAt_secCtl : fieldsAt 0x1F00028 = [(F.SEC_CTL_HASH_ADDR, 0, 0)] := by
  decide +kernel

section
variable {s : State} {who : Initiator}

theorem exec_hashAddrSet (h : Permitted s who 0x1F00028 true) :
    exec (.hashAddrSet who) s = .next ((s.dropHalves who 0x1F00028).writeSec who 0x1F00028 1) := by
  change execHashAddrSet who s = _
  rw [execHashAddrSet, onDie_running h.1, barWrite_permitted h]

/-- Table 0-5: the owner's write of 1 to SEC_CTL sets HASH_ADDR. -/
theorem State.writeWord_secCtl_owner (h : s.isOwner who = true) :
    s.writeWord who 0x1F00028 1 = s.wr F.SEC_CTL_HASH_ADDR 1 := by
  rw [State.writeWord, fieldsAt_secCtl]
  exact if_pos h

theorem State.writeWord_secCtl_stranger (h : s.isOwner who = false) : s.writeWord who 0x1F00028 1 = s := by
  rw [State.writeWord, fieldsAt_secCtl]
  exact if_neg (Bool.eq_false_iff.1 h)

theorem State.rd_newKt (s : State) (f : Field) : s.newKt.rd f = s.rd f := rfl

theorem State.on_hashAddr_set (s : State) : (s.wr F.SEC_CTL_HASH_ADDR 1).on F.SEC_CTL_HASH_ADDR = true := by
  rw [State.on, State.rd_wr_same]
  rfl

/-- R392: going from 0 to 1 draws a key. -/
theorem State.writeSec_drawn (h : s.isOwner who = true) (h0 : s.rd F.SEC_CTL_HASH_ADDR = 0) :
    s.writeSec who 0x1F00028 1 = (s.wr F.SEC_CTL_HASH_ADDR 1).newKt := by
  have hwas : s.on F.SEC_CTL_HASH_ADDR = false := by simp [State.on, h0]
  unfold State.writeSec
  dsimp only
  rw [State.writeWord_secCtl_owner h, hwas, State.on_hashAddr_set]
  rfl

/-- R392: staying at 1 draws none. -/
theorem State.writeSec_kept (h : s.isOwner who = true) (h1 : s.rd F.SEC_CTL_HASH_ADDR = 1) :
    s.writeSec who 0x1F00028 1 = s.wr F.SEC_CTL_HASH_ADDR 1 := by
  have hwas : s.on F.SEC_CTL_HASH_ADDR = true := by simp [State.on, h1]
  unfold State.writeSec
  dsimp only
  rw [State.writeWord_secCtl_owner h, hwas]
  rfl

/-- R383: the write of another initiator does nothing. -/
theorem State.writeSec_stranger (h : s.isOwner who = false) : s.writeSec who 0x1F00028 1 = s := by
  unfold State.writeSec
  dsimp only
  rw [State.writeWord_secCtl_stranger h, Bool.not_and_self]
  rfl

end

/-! ### The statement -/

/-- Settles O52: a request by whether it must wait, is refused, or is carried out, and a write of HASH_ADDR by whose it is and
what the field held. -/
theorem lifecycle : Obligations.Lifecycle := by
  refine ⟨fun who session req nvsOk s hs => ⟨fun x hx => ⟨fun hbusy => ?waits, fun hidle hno => ?refused⟩, fun hidle =>
      ⟨fun hlevel => ⟨fun hok => ?setOwner, fun hok => ?sealed⟩, fun hnone hok => ?setOwnerQuiet,
        fun hnone hok => ?sealQuiet, fun hnone hok => ?lcReturn, fun hok => ?bind, fun hok => ?unbind⟩⟩,
    fun who s hp => ⟨fun howner h0 => ?drawn, fun howner h1 => ?kept, fun hno => ?stranger⟩⟩
  case waits => exact ⟨_, exec_lcCommand hx hs, State.vdm_busy hbusy⟩
  case refused => exact ⟨_, exec_lcCommand_refused hx hs hidle hno, rfl⟩
  case setOwner =>
    exact ⟨_, exec_setOwner hs hidle hok, State.lcDone_lcChange_shows (by decide) _ _ hlevel⟩
  case sealed =>
    exact ⟨_, exec_seal hs hidle hok, State.lcDone_lcChange_shows (by decide) _ _ hlevel⟩
  case setOwnerQuiet =>
    generalize hw : { s with nvs := { s.nvs with ownerKey := slice req 8 96 } } = w
    have hw0 : w.rd F.DBG_STATUS_LEVEL = 0 := hw ▸ hnone
    obtain ⟨hkey, hstate, hpending, hbind, -, hirq⟩ :=
      State.lcDone_lcChange_shows (lc := lcOwned) (by decide) who lcSET (by rw [hw0]; decide : w.rd F.DBG_STATUS_LEVEL ≠ 3)
    obtain ⟨hmem, hkeys, hout⟩ := State.lcDone_lcChange_quiet (lc := lcOwned) (by decide) who lcSET hw0
    subst hw
    exact ⟨_, exec_setOwner hs hidle hok, hkey, hstate, hpending, hbind, hirq, hmem, hkeys, hout⟩
  case sealQuiet =>
    obtain ⟨hkey, hstate, hpending, hbind, -, hirq⟩ :=
      State.lcDone_lcChange_shows (lc := lcSealed) (by decide) who lcSEAL (by rw [hnone]; decide : s.rd F.DBG_STATUS_LEVEL ≠ 3)
    obtain ⟨hmem, hkeys, hout⟩ := State.lcDone_lcChange_quiet (lc := lcSealed) (by decide) who lcSEAL hnone
    exact ⟨_, exec_seal hs hidle hok, hkey, hstate, hpending, hbind, hirq, hmem, hkeys, hout⟩
  case lcReturn => exact ⟨_, exec_lcReturn hs hidle hok, State.returnBegin_shows s who hnone⟩
  case bind =>
    have hlt := byteAt_lt_of_lcFormOk (le_refl _) (State.lcFormOk_of_result hok)
    obtain ⟨hbit, hrest⟩ := s.bound_shows who lcBIND (byteAt req 1) true
    exact ⟨_, exec_bind hs hidle hok, hbit.trans (State.rdBit_wrBit_true s _ hlt), hrest⟩
  case unbind =>
    obtain ⟨hbit, hrest⟩ := s.bound_shows who lcUNBIND (byteAt req 1) false
    exact ⟨_, exec_unbind hs hidle hok, hbit.trans (State.rdBit_wrBit_false ..), hrest⟩
  case drawn =>
    refine ⟨_, exec_hashAddrSet hp, ?_⟩
    rw [State.writeSec_drawn ((State.isOwner_dropHalves _).trans howner) h0]
    exact ⟨(State.rd_newKt ..).trans (State.rd_wr_same ..), rfl, rfl, rfl, rfl, rfl, rfl, rfl, rfl⟩
  case kept =>
    refine ⟨_, exec_hashAddrSet hp, ?_⟩
    rw [State.writeSec_kept ((State.isOwner_dropHalves _).trans howner) h1]
    exact ⟨State.rd_wr_same .., rfl, rfl, rfl, rfl, rfl, rfl, rfl⟩
  case stranger =>
    refine ⟨_, exec_hashAddrSet hp, ?_⟩
    rw [State.writeSec_stranger ((State.isOwner_dropHalves _).trans hno)]
    exact ⟨rfl, rfl, SameStore.refl s⟩

end Sys2Proof.Machine

/-!
# Local accesses of caching agents, and the directory read (R160, R171, R181, R183, R237, R391, Table 7-8)

A load, a store or an eviction that can be made is one cell of Table 7-8: a change of the line, a request to the home, and for a
write its data. One that cannot be made stalls.
-/

namespace Sys2Proof.Machine

/-! ### The pieces of a cell of Table 7-8 -/

theorem agBlind_mem : AgBlind State.mem where
  wr _ _ _ _ _ _ := rfl
  smp _ _ := rfl
  txn _ _ := rfl
  free _ _ := rfl
  home _ _ _ _ _ _ := rfl
  coh _ _ := rfl
  noc _ _ := rfl
  gal _ _ _ _ _ _ := rfl

section
variable (s : State) (a sl ln : Nat) (x : AgLine) (m : CohMsg)

/-- Counts of a gallery's cache change no part of the port's view. -/
theorem State.galStat_portView (n : Nat) : (s.galStat a n).portView = s.portView := by
  have hbump : (s.bump F.GAL_CACHE_STAT_COUNT 1 (a - 64) n).portView = s.portView := rfl
  unfold State.galStat
  exact ite_keeps _ (ite_keeps _ ((countBlind_portView.counts ..).trans hbump)
    (ite_keeps _ ((countBlind_portView.counts ..).trans hbump) hbump)) rfl

theorem State.galStat_coh (n : Nat) : (s.galStat a n).coh = s.coh :=
  congrArg (fun v : List HostReq × CohSt × List Host.Cell × MapSt × List Out => v.2.1) (s.galStat_portView a n)

theorem State.galStat_out (n : Nat) : (s.galStat a n).out = s.out :=
  congrArg (fun v : List HostReq × CohSt × List Host.Cell × MapSt × List Out => v.2.2.2.2) (s.galStat_portView a n)

/-- A request that is sent is followed, and is on its way. -/
theorem State.request_coh (f : Flight) (master opc hpa : Nat) :
    (s.request f master opc hpa).coh = { s.coh with flight := s.coh.flight ++ [f] } := by
  unfold State.request State.txnBegin
  dsimp only
  split <;> rfl

theorem State.agReq_coh (opc : Nat) : (s.agReq a opc m).coh = { s.coh with flight := s.coh.flight ++
    [⟨opc, .home, { agMsg a m with htag := 0, mask := if opc = opWbD then BitVec.allOnes 64 else 0 }⟩] } :=
  State.request_coh ..

theorem State.send_coh (f : Flight) : (s.send f).coh = { s.coh with flight := s.coh.flight ++ [f] } := rfl

theorem State.spend_coh (k : Nat) :
    (s.spend a k).coh = { s.coh with spent := smSet 0 s.coh.spent (a * 16 + k) (s.spent a k + 1) } := rfl

variable {x} in
theorem State.setAg_coh (hx : x.st ≠ .i) :
    (s.setAg a sl ln x).coh = { s.coh with lines := smSet {} s.coh.lines (lineKey a sl ln) x } := by
  unfold State.setAg
  rw [State.showCache_eq, if_neg hx]

variable {s a sl ln x m}

theorem State.agLine_of_lines {l : SMap AgLine} (h : s.coh.lines = smSet {} l (lineKey a sl ln) x) : s.agLine a sl ln = x := by
  rw [State.agLine, h]
  exact smGet_smSet_same ..

theorem State.spent_of_spent {l : SMap Nat} {k n : Nat} (h : s.coh.spent = smSet 0 l (a * 16 + k) n) : s.spent a k = n := by
  rw [State.spent, h]
  exact smGet_smSet_same ..

theorem State.agLine_setAg (hx : x.st ≠ .i) : (s.setAg a sl ln x).agLine a sl ln = x :=
  State.agLine_of_lines (congrArg CohSt.lines (s.setAg_coh a sl ln hx))

/-- Table 7-8: a cell that changes the line and sends a request for it. -/
theorem State.setAg_agReq_coh (hx : x.st ≠ .i) (opc : Nat) : ((s.setAg a sl ln x).agReq a opc m).coh =
    { s.coh with
      lines := smSet {} s.coh.lines (lineKey a sl ln) x
      flight := s.coh.flight ++
        [⟨opc, .home, { agMsg a m with htag := 0, mask := if opc = opWbD then BitVec.allOnes 64 else 0 }⟩] } := by
  rw [State.agReq_coh, State.setAg_coh _ _ _ _ hx]

/-- What such a cell leaves. -/
theorem State.setAg_agReq_spec {t u : State} {opc : Nat} (hx : x.st ≠ .i) (hopc : opc ≠ opWbD)
    (ht : t = (u.setAg a sl ln x).agReq a opc m) :
    t.agLine a sl ln = x ∧ t.coh.flight = u.coh.flight ++ [⟨opc, .home, { agMsg a m with htag := 0 }⟩] := by
  have hcoh := State.setAg_agReq_coh (s := u) (a := a) (sl := sl) (ln := ln) (m := m) hx opc
  rw [if_neg hopc, ← ht] at hcoh
  exact ⟨State.agLine_of_lines (congrArg CohSt.lines hcoh), congrArg CohSt.flight hcoh⟩

end

/-! ### An access is made, or stalls (R160) -/

/-- The local accesses of an agent. -/
def accesses (a : Fin 96) (m : CohMsg) : List (AgOp × Instr) :=
  [(AgOp.load, Instr.load a m), (.store, .store a m), (.evict, .evict a m)]

section
variable {s : State} {a : Fin 96} {m0 m : CohMsg}

/-- R237: an access that R391 does not forbid goes out with the member and line that IMPORT gives. -/
theorem exec_access (hs : s.stage = .running) (hc : caches a = true) (hm : s.spanMsg m0 = some m) : ∀ c ∈ accesses a m0,
    s.dlaForbidden a c.1 = false → exec c.2 s = .next (s.agAccess a c.1 m) := by
  have hdo : ∀ op, s.dlaForbidden a op = false → agentAccess a op m0 s = .next (s.agAccess a op m) := fun op hf => by
    simp only [agentAccess, onDie_running hs, hf, hm, hc, Bool.false_eq_true, if_false, if_true]
  simp only [accesses, List.forall_mem_cons, List.not_mem_nil, false_implies, implies_true, and_true]
  exact ⟨hdo .load, hdo .store, hdo .evict⟩

/-- R391: a core's load or store in a FIRMWARE session is a violation of the control complex. -/
theorem exec_access_forbidden (hs : s.stage = .running) : ∀ c ∈ accesses a m0, s.dlaForbidden a c.1 = true →
    exec c.2 s = .next (s.violate .cc 0 (c.1 == .store)) := by
  have hdo : ∀ op, s.dlaForbidden a op = true → agentAccess a op m0 s = .next (s.violate .cc 0 (op == .store)) := fun op hf => by
    simp only [agentAccess, onDie_running hs, hf, if_true]
  simp only [accesses, List.forall_mem_cons, List.not_mem_nil, false_implies, implies_true, and_true]
  exact ⟨hdo .load, hdo .store, hdo .evict⟩

/-- R391: an eviction is no access of a core. -/
theorem State.dlaForbidden_evict (a : Nat) : s.dlaForbidden a .evict = false := by
  simp [State.dlaForbidden]

end

section
variable {s : State} {a : Nat} {op : AgOp} {m : CohMsg} {x : AgLine}

theorem State.agAccess_made (hx : s.agLine a m.slot.toNat m.line.toNat = x) (hnone : x.stalled = [])
    (hready : s.agReady a op m = true) : s.agAccess a op m = s.agDo a op m := by
  subst hx
  exact if_pos (by simp [hnone, hready])

theorem State.agAccess_stalls (hx : s.agLine a m.slot.toNat m.line.toNat = x)
    (h : x.stalled ≠ [] ∨ s.agReady a op m = false) :
    s.agAccess a op m = s.setAg a m.slot.toNat m.line.toNat { x with stalled := x.stalled ++ [(op, m)] } := by
  subst hx
  refine if_neg ?_
  rcases h with h | h <;> simp [h]

variable (hx : s.agLine a m.slot.toNat m.line.toNat = x)
include hx

/-- R160: what makes a load or store of a line in I one that can be made. -/
theorem State.noWay_of_ready (hst : x.st = .i) (hop : op ≠ .evict) (hready : s.agReady a op m = true) : s.noWay a m = false := by
  subst hx
  cases op with
  | load =>
    have h : s.mayAsk a = true ∧ s.noWay a m = false := by simpa [State.agReady, hst, AgSt.hits] using hready
    exact h.2
  | store =>
    simp only [State.agReady, hst, Bool.and_eq_true, Bool.not_eq_true'] at hready
    obtain ⟨⟨-, hway⟩, -⟩ := hready
    exact hway
  | evict => exact absurd rfl hop

theorem State.agReady_evict (hst : x.st = .e ∨ x.st = .s ∨ x.st = .f) : s.agReady a .evict m = true := by
  subst hx
  rcases hst with h | h | h <;> simp [State.agReady, h]

theorem State.agReady_evict_m (hst : x.st = .m) (hsp : s.spent a (homeOf m.line.toNat) < 4) : s.agReady a .evict m = true := by
  subst hx
  simp [State.agReady, hst, hsp]

/-! ### Loads -/

/-- Table 7-8, load in I. -/
theorem State.agLoad_miss (hst : x.st = .i) (hway : s.noWay a m = false) (hlite : s.liteLine m.slot.toNat = false) :
    s.agLoad a m = (((s.galStat a 1).galRoom a m.line.toNat).setAg a m.slot.toNat m.line.toNat { x with st := .isD }).agReq a
      opRdS m := by
  subst hx
  simp [State.agLoad, hst, hway, hlite, AgSt.hits]

/-- R181: a lite load. -/
theorem State.agLoad_lite (hst : x.st = .i) (hway : s.noWay a m = false) (hlite : s.liteLine m.slot.toNat = true) :
    s.agLoad a m = (s.galStat a 1).request
      ⟨opRdS, .home, { agMsg a m with htag := 0, rtag := liteTag, noalloc := true }⟩ a := by
  subst hx
  simp [State.agLoad, hst, hway, hlite, AgSt.hits]

/-- Table 7-8, load of a valid line. -/
theorem State.agLoad_hit (hst : x.st.valid = true) : s.agLoad a m = s.galStat a 0 := by
  subst hx
  exact if_pos hst

/-! ### Stores -/

/-- Table 7-8, store in M and E. -/
theorem State.agStore_hit (hst : x.st = .m ∨ x.st = .e) : s.agStore a m = (s.galStat a 0).setAg a m.slot.toNat m.line.toNat
    { x with st := .m, data := mergeMask x.data m.data m.mask } := by
  subst hx
  rcases hst with hst | hst
  · simp only [State.agStore, hst]
  · simp only [State.agStore, hst]

/-- Table 7-8, store in S and F. -/
theorem State.agStore_shared (hst : x.st = .s ∨ x.st = .f) : s.agStore a m = ((s.galStat a 1).setAg a m.slot.toNat m.line.toNat
    { x with st := if x.st = .s then .smA else .fmA, store := some (m.data, m.mask) }).agReq a opUpg m := by
  subst hx
  rcases hst with hst | hst <;> simp [State.agStore, hst]

/-- Table 7-8, store in I. -/
theorem State.agStore_miss (hst : x.st = .i) (hlite : s.liteLine m.slot.toNat = false) :
    s.agStore a m = (((s.galStat a 1).galRoom a m.line.toNat).setAg a m.slot.toNat m.line.toNat
      { x with st := .imD, store := some (m.data, m.mask) }).agReq a opRdO m := by
  subst hx
  simp [State.agStore, hst, hlite]

theorem State.agStore_lite (hst : x.st = .i) (hlite : s.liteLine m.slot.toNat = true) : s.agStore a m = s.liteStore a m := by
  subst hx
  simp [State.agStore, hst, hlite]

omit hx in
/-- R181: a lite store spends a credit and sends WbD with NOOWN, and its data. -/
theorem State.liteStore_coh : (s.liteStore a m).coh = { s.coh with
    flight := s.coh.flight ++
      [⟨opWbD, .home, { agMsg a m with htag := 0, rtag := liteTag, noown := true, mask := m.mask }⟩,
       ⟨opDataM, .home, { agMsg a m with htag := 0, data := m.data, mask := m.mask, write := true }⟩]
    spent := smSet 0 s.coh.spent (a * 16 + homeOf m.line.toNat) (s.spent a (homeOf m.line.toNat) + 1) } := by
  unfold State.liteStore
  rw [State.send_coh, State.request_coh, State.spend_coh, State.spent_of_coh (s.galStat_coh ..), State.galStat_coh]
  simp only [List.append_assoc, List.singleton_append]

/-! ### Evictions -/

/-- Table 7-8, eviction of a clean line. -/
theorem State.agEvict_clean (hst : x.st = .e ∨ x.st = .s ∨ x.st = .f) : s.agEvict a m =
    ((s.galStat a 3).setAg a m.slot.toNat m.line.toNat
      { x with st := if x.st = .e then .eiA else if x.st = .s then .siA else .fiA }).agReq a opEvC m := by
  subst hx
  rcases hst with hst | hst | hst <;> simp [State.agEvict, hst]

/-- Table 7-8, eviction of a modified line: WbD, and its data. -/
theorem State.agEvict_m (hst : x.st = .m) (hsp : s.spent a (homeOf m.line.toNat) < 4) : s.agEvict a m =
    ((((s.galStat a 3).spend a (homeOf m.line.toNat)).setAg a m.slot.toNat m.line.toNat { x with st := .miA }).agReq a opWbD m).agData
      a { m with htag := 0 } x := by
  subst hx
  simp [State.agEvict, hst, hsp]

omit hx in
theorem State.agEvict_m_coh : (((((s.galStat a 3).spend a (homeOf m.line.toNat)).setAg a m.slot.toNat m.line.toNat
      { x with st := .miA }).agReq a opWbD m).agData a { m with htag := 0 } x).coh = { s.coh with
    lines := smSet {} s.coh.lines (lineKey a m.slot.toNat m.line.toNat) { x with st := .miA }
    flight := s.coh.flight ++ [⟨opWbD, .home, { agMsg a m with htag := 0, mask := BitVec.allOnes 64 }⟩,
      ⟨opDataM, .home, { agMsg a m with htag := 0, data := x.data, poison := x.poison, write := true, mask := BitVec.allOnes 64 }⟩]
    spent := smSet 0 s.coh.spent (a * 16 + homeOf m.line.toNat) (s.spent a (homeOf m.line.toNat) + 1) } := by
  have hdata : ∀ t : State, (t.agData a { m with htag := 0 } x).coh = { t.coh with flight := t.coh.flight ++ [⟨opDataM, .home,
    { agMsg a m with htag := 0, data := x.data, poison := x.poison, write := true, mask := BitVec.allOnes 64 }⟩] } := fun _ => rfl
  rw [hdata, State.setAg_agReq_coh (by simp), State.spend_coh, State.spent_of_coh (s.galStat_coh ..), State.galStat_coh]
  simp only [List.append_assoc, List.singleton_append, if_true]

end

/-! ### A forbidden access (R386, R391) -/

section
variable (s : State)

theorem State.violate_sameStore (who : Initiator) (off : Nat) (write : Bool) : SameStore s (s.violate who off write) :=
  ⟨rfl, rfl, rfl, rfl, rfl, rfl⟩

theorem State.rd_violate_count (who : Initiator) (off : Nat) (write : Bool) :
    (s.violate who off write).rd F.SEC_VIOL_COUNT 0 (initNum who) =
      min (s.rd F.SEC_VIOL_COUNT 0 (initNum who) + 1) (2 ^ F.SEC_VIOL_COUNT.width - 1) := by
  unfold State.violate
  simp (disch := decide) only [State.set_eq, State.rd_wr_of_id, State.rd_bump_same]

theorem State.rd_violate_write (who : Initiator) (off : Nat) (write : Bool) :
    (s.violate who off write).rd F.SEC_VIOL_LAST_WRITE = b2n write := by
  unfold State.violate
  simp (disch := decide) only [State.set_eq, State.rd_wr_of_id, State.rd_wr_same]
  cases write <;> rfl

end

/-! ### The directory read (R183) -/

theorem F.HOM_DIR_OP_READ_at (h : Fin 16) : F.HOM_DIR_OP_READ.at (F.HOM_DIR_OP_READ.addr h 0) = some (h.val, 0) := by
  revert h
  decide

section
variable {s : State} {who : Initiator} {h : Fin 16} {v : BitVec 64}

theorem exec_dirRead (hp : Permitted s who (F.HOM_DIR_OP_READ.addr h 0) true) (hv : v.toNat.testBit 0 = true) :
    exec (.dirRead who h v) s = .next ((s.dropHalves who (F.HOM_DIR_OP_READ.addr h 0)).dirRead h) := by
  change execDirRead who h v s = _
  rw [execDirRead, onDie_running hp.1, barWrite_permitted hp, State.writeHom, F.HOM_DIR_OP_READ_at]
  simp only [hv, State.when_true]

/-- R183: the bits of the way that HOM_DIR_IDX names. -/
def State.dirWord (s : State) (h : Nat) : Nat :=
  if s.rd F.HOM_DIR_IDX_WAY h < s.dirWays
    then (smGet {} s.coh.dir (wayKey h (s.rd F.HOM_DIR_IDX_SET h) (s.rd F.HOM_DIR_IDX_WAY h))).word
    else (smGet {} s.coh.pf (wayKey h (s.rd F.HOM_DIR_IDX_SET h) (s.rd F.HOM_DIR_IDX_WAY h))).word

theorem State.dirRead_shows (s : State) (h : Nat) : (s.dirRead h).rd F.HOM_DIR_OP_DONE h = 1 ∧
    (s.dirRead h).rd F.HOM_DIR_LO_ENTRY h = s.dirWord h % 2 ^ 64 ∧
    (s.dirRead h).rd F.HOM_DIR_HI_ENTRY h = s.dirWord h / 2 ^ 64 % 2 ^ 64 := by
  have heq : s.dirRead h = ((s.wr F.HOM_DIR_LO_ENTRY (s.dirWord h) h).wr F.HOM_DIR_HI_ENTRY (s.dirWord h / 2 ^ 64) h).set
    F.HOM_DIR_OP_DONE h := rfl
  rw [heq]
  simp (disch := decide) only [State.set_eq, State.rd_wr_of_id, State.rd_wr_same]
  exact ⟨rfl, rfl, rfl⟩

end

/-! ### The statement -/

/-- Settles O29: an access by whether it can be made now and by its cell of Table 7-8, an access that R391 forbids by its violation,
and the directory read by the registers that it writes. -/
theorem agentAccesses : Obligations.AgentAccesses := by
  unfold Obligations.AgentAccesses
  refine ⟨?access, ?forbidden, ?directory⟩
  case access =>
    intro a m0 m s hs hc hm sl ln x hsl hln hx
    subst hsl hln
    replace hx := hx.symm
    have hmem : ∀ op, (s.agAccess a op m).mem = s.mem := fun op => agBlind_mem.agAccess ..
    have hcmd := exec_access hs hc hm
    have hload := hcmd (.load, .load a m0) (by simp [accesses])
    have hstore := hcmd (.store, .store a m0) (by simp [accesses])
    have hevict := hcmd (.evict, .evict a m0) (by simp [accesses]) (State.dlaForbidden_evict _)
    refine ⟨fun hnone hf hready => ?load, fun hnone hf hready => ?store, fun hnone hst hsp => ?evictM,
      fun hnone hst => ?evictClean, fun c hin hf hstall hst => ?stall⟩
    case load =>
      have hmade : s.agAccess a .load m = s.agLoad a m := State.agAccess_made hx hnone hready
      have hway := fun hst => State.noWay_of_ready (op := .load) hx hst nofun hready
      refine ⟨fun hst hlite => ⟨_, hload hf, ?miss⟩, fun hst hlite => ⟨_, hload hf, ?lite⟩, fun hst => ⟨_, hload hf, ?hit⟩⟩
      case miss =>
        obtain ⟨hline, hflight⟩ := State.setAg_agReq_spec (by simp) (by decide)
          (hmade.trans (State.agLoad_miss hx hst (hway hst) hlite))
        exact ⟨congrArg AgLine.st hline, hmem _, by rw [hflight, List.getLast?_append]; rfl⟩
      case lite =>
        have hcoh := congrArg State.coh (hmade.trans (State.agLoad_lite hx hst (hway hst) hlite))
        rw [State.request_coh, State.galStat_coh] at hcoh
        exact ⟨(congrArg CohSt.lines hcoh :), hmem _, (congrArg CohSt.flight hcoh :)⟩
      case hit =>
        have hmade := hmade.trans (State.agLoad_hit hx hst)
        exact ⟨(congrArg State.coh hmade).trans (State.galStat_coh ..), hmem _,
          (congrArg State.out hmade).trans (State.galStat_out ..)⟩
    case store =>
      have hmade : s.agAccess a .store m = s.agStore a m := State.agAccess_made hx hnone hready
      refine ⟨fun hst => ⟨_, hstore hf, ?hit⟩, fun hst => ⟨_, hstore hf, hmem _, ?shared⟩,
        fun hst hlite => ⟨_, hstore hf, hmem _, ?miss⟩, fun hst hlite => ⟨_, hstore hf, ?lite⟩⟩
      case hit =>
        have hmade := hmade.trans (State.agStore_hit hx hst)
        refine ⟨?_, hmem _, ?_⟩
        · rw [hmade, State.setAg_flight, State.galStat_coh]
        · rw [hmade]
          exact State.agLine_setAg (by simp)
      case shared =>
        have hne : (if x.st = .s then AgSt.smA else .fmA) ≠ .i := by split <;> decide
        obtain ⟨hline, hflight⟩ := State.setAg_agReq_spec (by exact hne) (by decide) (hmade.trans (State.agStore_shared hx hst))
        rw [State.galStat_coh] at hflight
        exact ⟨hline, hflight⟩
      case miss =>
        obtain ⟨hline, hflight⟩ := State.setAg_agReq_spec (by simp) (by decide) (hmade.trans (State.agStore_miss hx hst hlite))
        exact ⟨hline, by rw [hflight, List.getLast?_append]; rfl⟩
      case lite =>
        have hcoh := congrArg State.coh (hmade.trans (State.agStore_lite hx hst hlite))
        rw [State.liteStore_coh] at hcoh
        exact ⟨(congrArg CohSt.lines hcoh :), hmem _, State.spent_of_spent (congrArg CohSt.spent hcoh :),
          (congrArg CohSt.flight hcoh :)⟩
    case evictM =>
      have hmade := (State.agAccess_made hx hnone (State.agReady_evict_m hx hst hsp)).trans (State.agEvict_m hx hst hsp)
      have hcoh := congrArg State.coh hmade
      rw [State.agEvict_m_coh] at hcoh
      have hline : (s.agAccess a .evict m).agLine a m.slot.toNat m.line.toNat = { x with st := .miA } :=
        State.agLine_of_lines (congrArg CohSt.lines hcoh)
      exact ⟨_, hevict, hmem _, congrArg AgLine.st hline, State.spent_of_spent (congrArg CohSt.spent hcoh :),
        (congrArg CohSt.flight hcoh :)⟩
    case evictClean =>
      have hmade := (State.agAccess_made hx hnone (State.agReady_evict hx hst)).trans (State.agEvict_clean hx hst)
      have hne : (if x.st = .e then AgSt.eiA else if x.st = .s then .siA else .fiA) ≠ .i := by
        repeat' split
        all_goals decide
      obtain ⟨hline, hflight⟩ := State.setAg_agReq_spec (by exact hne) (by decide) hmade
      rw [State.galStat_coh] at hflight
      exact ⟨_, hevict, hmem _, congrArg AgLine.st hline, hflight⟩
    case stall =>
      have hmade := State.agAccess_stalls hx hstall
      refine ⟨_, hcmd c hin hf, hmem _, ?_, ?_⟩
      · rw [hmade]
        exact State.agLine_setAg hst
      · rw [hmade, State.setAg_flight]
  case forbidden =>
    intro m s hs hlevel c hin
    have hf : ∀ op, op ≠ .evict → s.dlaForbidden (80 : Fin 96) op = true := fun op hop => by
      simp [State.dlaForbidden, hlevel, hop]
    have hexec := exec_access_forbidden (a := 80) (m0 := m) hs
    have hcmd : exec c.2 s = .next (s.violate .cc 0 (c.1 == 1)) ∧ b2n (c.1 == 1) = c.1 := by
      rcases List.mem_cons.1 hin with rfl | hin
      · exact ⟨hexec (.load, .load 80 m) (by simp [accesses]) (hf _ nofun), rfl⟩
      · obtain rfl := List.mem_singleton.1 hin
        exact ⟨hexec (.store, .store 80 m) (by simp [accesses]) (hf _ nofun), rfl⟩
    obtain ⟨hexec, hkind⟩ := hcmd
    obtain ⟨-, hinit, hirq⟩ := s.rd_violate .cc 0 (c.1 == 1)
    exact ⟨_, hexec, State.violate_sameStore .., rfl, State.rd_violate_count s .cc 0 _, hinit,
      (State.rd_violate_write ..).trans hkind, hirq⟩
  case directory =>
    intro who h v s hp hv
    obtain ⟨hdone, hlo, hhi⟩ := State.dirRead_shows (s.dropHalves who (F.HOM_DIR_OP_READ.addr h 0)) h
    exact ⟨_, exec_dirRead hp hv, hdone, rfl, rfl, _, hlo, hhi, rfl⟩

end Sys2Proof.Machine

/-!
# Requests at a home (R158, R159, R165, R166, R168, R195, Table 7-5)

A request that the home takes, whose line is free and that the directory does not list, is served at once: what the home sends to
the map, or answers. One whose line is busy waits in the conflict queue, and one that the home does not take stays where it is.
-/

namespace Sys2Proof.Machine

/-! ### The commands -/

/-- The commands that bring a request to its home. -/
def requests (m : CohMsg) : List (Nat × Instr) :=
  [(opRdS, .rds m), (opRdO, .rdo m), (opUpg, .upg m), (opWbD, .wbd m), (opEvC, .evc m), (opRdNC, .rdnc m)]

theorem exec_request {s : State} {m : CohMsg} (hs : s.stage = .running) : ∀ c ∈ requests m,
    exec c.2 s = .next (s.cohReq c.1 m) ∧ opNet c.1 = 0 := by
  simp only [requests, List.forall_mem_cons, List.not_mem_nil, false_implies, implies_true, and_true]
  have hdie : ∀ opc, onDie s (fun s => s.cohReq opc m) = .next (s.cohReq opc m) := fun _ => onDie_running hs
  exact ⟨⟨hdie opRdS, by decide⟩, ⟨hdie opRdO, by decide⟩, ⟨hdie opUpg, by decide⟩, ⟨hdie opWbD, by decide⟩,
    ⟨hdie opEvC, by decide⟩, ⟨hdie opRdNC, by decide⟩⟩

theorem torusBlind_slot : TorusBlind State.slot where
  wr _ _ _ _ _ _ := rfl
  smp _ _ := rfl
  txn _ _ := rfl
  free _ _ := rfl
  torus _ _ _ _ _ _ := rfl
  noc _ _ := rfl
  coh _ _ := rfl

section
variable {s w t : State} {m : CohMsg} {opc e : Nat}

/-- R158: what a request does that its home takes, and that its domain does not hold back. -/
theorem State.cohReq_taken (hacc : s.homeAccepts (homeOf m.line.toNat) = true) (hb : Brought s ⟨opc, .home, m⟩ w)
    (hnet : opNet opc = 0) (hopen : w.domHolds (homeOf m.line.toNat) 0 = false) (hsrc : m.src.toNat < 96)
    (hslot : m.slot.toNat = s.slot) : s.cohReq opc m = (w.homeRequest ⟨opc, .home, m⟩).conflictAck m := by
  have htaken : s.notTaken ⟨opc, .home, m⟩ = false := by simp [State.notTaken, hacc]
  have hhome : w.homed m = true := by
    simp [State.homed, torusBlind_slot.brought s hb, hslot]
  unfold State.cohReq
  dsimp only
  rw [htaken, if_neg Bool.false_ne_true, State.arrive_of_brought hb, if_neg (by omega), hhome, if_pos rfl]
  intro d hd
  obtain rfl : homeOf m.line.toNat = d := Option.some.inj hd
  rw [hnet]
  exact hopen

/-- R158: a request that the home does not take stays in the network. -/
theorem State.cohReq_notTaken (hacc : s.homeAccepts (homeOf m.line.toNat) = false)
    (hopen : s.domHolds (homeOf m.line.toNat) 0 = false) : s.cohReq opc m = s :=
  if_pos (by simp [State.notTaken, hacc, hopen])

/-- R65: no BIConflict waits for the request. -/
theorem State.conflictAck_none (hhosts : t.hosts = w.hosts)
    (hc : m.src.toNat < 64 → (w.ld m.src.toNat).conflicts.contains (m.slot.toNat, m.line.toNat) = false) :
    t.conflictAck m = t := by
  refine if_neg ?_
  rw [State.ld_of_hosts _ hhosts, Bool.and_eq_true, decide_eq_true_eq]
  rintro ⟨hl, h⟩
  exact Bool.false_ne_true ((hc hl).symm.trans h)

/-- R159: a request for a busy line waits in the conflict queue. -/
theorem State.homeRequest_busy (hbusy : s.lineBusy m.line.toNat = true) : s.homeRequest ⟨opc, .home, m⟩ =
    s.onHome (homeOf m.line.toNat) (fun x => { x with confq := x.confq ++ [⟨opc, .home, m⟩] }) :=
  if_pos (by simp [hbusy])

theorem State.home_onHome (h : Nat) (f : HomeSt → HomeSt) : (s.onHome h f).home h = f (s.home h) := smGet_smSet_same ..

theorem State.onHome_hosts (h : Nat) (f : HomeSt → HomeSt) : (s.onHome h f).hosts = s.hosts := rfl

theorem HomeFree.cohReq (h : HomeFree s w opc m e) (hnet : opNet opc = 0) :
    s.cohReq opc m = (w.serve (homeOf m.line.toNat) e opc m).conflictAck m := by
  obtain ⟨-, hacc, hb, hopen, hsrc, hslot, hfree, hqueue, htt, -⟩ := h
  rw [State.cohReq_taken hacc hb hnet hopen hsrc hslot, State.homeRequest]
  simp only [hfree, hqueue, htt, Bool.or_self, Bool.false_eq_true, if_false]

theorem HomeFree.mem (h : HomeFree s w opc m e) : w.mem = s.mem := by
  obtain ⟨-, -, hb, -⟩ := h
  exact hb.mem

theorem HomeFree.tt_none (h : HomeFree s w opc m e) : w.tt (homeOf m.line.toNat) e = none := by
  obtain ⟨-, -, -, -, -, -, -, -, htt, -⟩ := h
  have hfree := List.find?_some htt
  rw [Bool.and_eq_true, Option.isNone_iff_eq_none] at hfree
  exact hfree.1

/-- What a command does that brings a request to a home that is free for it. -/
theorem HomeFree.does (h : HomeFree s w opc m e) {c : Instr} (hc : (opc, c) ∈ requests m) {P : State → Prop}
    (hhosts : (w.serve (homeOf m.line.toNat) e opc m).hosts = w.hosts) (hP : P (w.serve (homeOf m.line.toNat) e opc m)) :
    Does c s P := by
  have hcoh := fun hnet => h.cohReq hnet
  obtain ⟨hs, -, -, -, -, -, -, -, -, hconf⟩ := h
  obtain ⟨hexec, hnet⟩ := exec_request hs _ hc
  refine ⟨_, hexec, ?_⟩
  rw [hcoh hnet, State.conflictAck_none hhosts hconf]
  exact hP

end

/-! ### A request is served (R168) -/

/-- The TT entry of a request as the home opens it. -/
def State.newTT (s : State) (opc : Nat) (m : CohMsg) : TT :=
  { opc := opc, msg := m, st := .snp, seq := s.coh.seq, plan := .copy, way := s.dirFind m.line.toNat }

/-- What a request counts as it is served. -/
def State.counted (s : State) (h opc : Nat) (m : CohMsg) : State :=
  let x := s.pme (m.line.toNat / 64)
  let s := State.bump { s with coh := { s.coh with seq := s.coh.seq + 1 } } F.HOM_STAT_COUNT 1 h 0
  (s.onTxn (s.txnOfMsg m) (fun y => { y with tier := x.tier, twin := x.twin })).counts h evServed
    { agent := some m.src.toNat, tier := some x.tier, cls := some (reqClass m.src.toNat opc) } (s.txnOfMsg m)

/-- The directory entry of the way that a TT entry has found or taken. -/
def State.listed (s : State) (t : TT) : DirEnt := (t.way.map (s.dirEnt t.line)).getD {}

/-- What a home's request to the map shows, and what it leaves. -/
def State.reqView (s : State) : List MapReq × List Host.Cell × List Out × SMap LdSt := (s.map.reqs, s.mem, s.out, s.hosts)

theorem purgeBlind_reqView : PurgeBlind State.reqView where
  wr _ _ _ _ _ _ := rfl
  smp _ _ := rfl
  txn _ _ := rfl
  free _ _ := rfl
  home _ _ _ _ _ _ := rfl
  coh _ _ := rfl
  noc _ _ := rfl

/-- What a home looks at to serve a request. -/
def State.homeView (s : State) : CohSt × StrSt := (s.coh, s.str)

theorem countBlind_homeView : CountBlind State.homeView :=
  ⟨fun _ _ _ _ _ _ => rfl, fun _ _ => rfl, fun _ _ => rfl, fun _ _ => rfl⟩

section
variable {β : Type} {p : State → β} (hp : PurgeBlind p) (s : State)
include hp

theorem PurgeBlind.counted (h opc : Nat) (m : CohMsg) : p (s.counted h opc m) = p s :=
  (hp.counts ..).trans <| (hp.onTxn ..).trans <| (hp.home F.HOM_STAT_COUNT (by simp [homeFields]) ..).trans (hp.coh s _)

theorem PurgeBlind.setTT (h e : Nat) (t : TT) : p (s.setTT h e t) = p s := (hp.showHome ..).trans (hp.coh s _)

end

section
variable {s u : State} {h e opc : Nat} {m : CohMsg} {t : TT}

theorem State.counted_homeView : (s.counted h opc m).homeView = ({ s.coh with seq := s.coh.seq + 1 }, s.str) :=
  (countBlind_homeView.counts ..).trans (countBlind_homeView.onTxn ..)

theorem State.counted_coh : (s.counted h opc m).coh = { s.coh with seq := s.coh.seq + 1 } :=
  congrArg Prod.fst State.counted_homeView

theorem State.dirWays_of_str (hstr : u.str = s.str) : u.dirWays = s.dirWays := by
  rw [State.dirWays, State.secs, hstr]
  rfl

theorem State.dirEnt_of_dir (hdir : u.coh.dir = s.coh.dir) : u.dirEnt = s.dirEnt := by
  funext line v
  rw [State.dirEnt, hdir]
  rfl

theorem State.dirEnt_counted : (s.counted h opc m).dirEnt = s.dirEnt :=
  State.dirEnt_of_dir (congrArg CohSt.dir State.counted_coh :)

theorem State.dirWays_counted : (s.counted h opc m).dirWays = s.dirWays :=
  State.dirWays_of_str (congrArg Prod.snd State.counted_homeView)

theorem State.dirFind_counted (line : Nat) : (s.counted h opc m).dirFind line = s.dirFind line := by
  rw [State.dirFind, State.dirFind, State.dirEnt_counted, State.dirWays_counted]

theorem State.tts_counted (k : Nat) : (s.counted h opc m).tts k = s.tts k := by
  rw [State.tts, State.counted_coh]
  rfl

theorem State.tt_counted (k i : Nat) : (s.counted h opc m).tt k i = s.tt k i := by
  rw [State.tt, State.counted_coh]
  rfl

theorem State.wdbOf_counted (k a line : Nat) : (s.counted h opc m).wdbOf k a line = s.wdbOf k a line := by
  rw [State.wdbOf, State.home, State.counted_coh]
  rfl

variable (hd : s.dirFind m.line.toNat = none)
include hd

/-- R168: a request that the directory does not list, and that needs no way. -/
theorem State.serve_act (h0 : opc ≠ 0) (hev : opc ≠ opEvC)
    (hw : opc = opWbD → ((s.counted h opc m).wdbOf h m.src.toNat m.line.toNat).map (·.absorbed) ≠ some true)
    (hneed : needsWay {} opc m = false) :
    s.serve h e opc m = ((s.counted h opc m).act h e (s.newTT opc m)).closeNow h e := by
  unfold State.serve
  simp only [hd, hneed, if_neg h0, if_neg hev, Bool.false_eq_true, if_false]
  refine (if_neg (not_and.2 hw)).trans ?_
  rw [State.newTT, hd]
  rfl

/-- R165: a request that the directory does not list, and that needs a way. -/
theorem State.serve_takeWay (h0 : opc ≠ 0) (hev : opc ≠ opEvC) (hw : opc ≠ opWbD) (hneed : needsWay {} opc m = true) :
    s.serve h e opc m = ((s.counted h opc m).setTT h e (s.newTT opc m)).takeWay h e (s.newTT opc m) true := by
  unfold State.serve
  simp only [hd, hneed, if_neg h0, if_neg hev, hw, false_and, if_false, if_true]
  rw [State.newTT, hd]
  rfl

/-- Table 7-5, EvC of a line that the directory does not list. -/
theorem State.serve_evc : s.serve h e opEvC m = (s.counted h opEvC m).reply e (s.newTT opEvC m) opAck false none := by
  have hnone : (s.counted h opEvC m).dirFind (s.newTT opEvC m).line = none := (State.dirFind_counted ..).trans hd
  have hserve : s.serve h e opEvC m = (s.counted h opEvC m).evictClean (s.newTT opEvC m) e := rfl
  rw [hserve, State.evictClean, hnone]

end

/-! ### What an entry whose line nobody holds sends to the map -/

section
variable {s : State} {h e : Nat} {t : TT} {plan : Plan} {snp : Nat} {w : MaskedData}

/-- Nothing has come for the entry. -/
def TT.fresh (t : TT) : Bool := t.dm.isNone && t.mem.isNone && !t.memOut && t.crossed.isEmpty

theorem TT.fresh_iff : t.fresh = true ↔ t.dm = none ∧ t.mem = none ∧ t.memOut = false ∧ t.crossed = [] := by
  simp [TT.fresh, and_assoc]

theorem DirEnt.holders_of_none {d : DirEnt} (h : d.sharers = 0) : d.holders = [] := by
  rw [DirEnt.holders, h]
  decide

/-- Table 7-5: a request other than WbD and EvC reads memory where no agent holds the line. -/
theorem planOf_reads {d : DirEnt} {fwd : Bool} {opc : Nat} {m : CohMsg} (hst : d.dstate = 0) (hsh : d.sharers = 0)
    (hopc : opc ∈ [opRdS, opRdO, opUpg, opRdNC]) : ∃ plan snp, planOf fwd d opc m = (plan, [], snp, false) ∧
      plan.needs = true ∧ (opc = opRdNC ∨ opc = opRdS ∧ m.noalloc = true → plan = .copy) := by
  have hnone := DirEnt.holders_of_none hsh
  simp only [List.mem_cons, List.not_mem_nil, or_false] at hopc
  rcases hopc with rfl | rfl | rfl | rfl
  · cases hna : m.noalloc
    · exact ⟨.share, 0, by simp [planOf, hst, hna], rfl, by simp [opRdS, opRdNC]⟩
    · exact ⟨.copy, 0, by simp [planOf, hst, hna], rfl, fun _ => rfl⟩
  · exact ⟨.excl, opSnpI, by simp [planOf, hst, hnone, opRdO, opRdS], rfl, by simp [opRdO, opRdS, opRdNC]⟩
  · exact ⟨.excl, opSnpI, by simp [planOf, hst, hnone, opUpg, opRdO, opRdS], rfl, by simp [opUpg, opRdS, opRdNC]⟩
  · exact ⟨.copy, 0, by simp [planOf, hst, opRdNC, opUpg, opRdO, opRdS, opWbD], rfl, fun _ => rfl⟩

/-- Table 7-5: WbD with NOOWN where no agent holds the line. -/
theorem planOf_wbD {fwd : Bool} {m : CohMsg} : planOf fwd {} opWbD m = (.wbNo, [], opSnpI, false) := by
  simp [planOf, DirEnt.holders_of_none, opUpg, opRdO, opRdS, opWbD]

/-- The write data that a TT entry finds at the home, with the mask of its WbD. -/
def State.heldData (s : State) (h : Nat) (t : TT) : Option MaskedData :=
  if t.opc = opWbD then (s.wdbOf h t.req t.line).map (fun w => { w.wd with mask := t.msg.mask }) else none

/-- R168: with nobody to snoop, and no writer that is not the owner, the home goes on at once. -/
theorem State.act_alone (hplan : planOf (s.on F.HOM_CTL_FWD_EN h) (s.listed t) t.opc t.msg = (plan, [], snp, false))
    (hwb : plan = .wbNo → t.way = none ∧ t.msg.noown = true) : s.act h e t =
      (s.setTT h e { t with plan := plan, snp := snp, await := [], st := .snp, wd := s.heldData h t }).settle h e
        { t with plan := plan, snp := snp, await := [], st := .snp, wd := s.heldData h t } := by
  unfold State.act
  extract_lets d
  have hd : d = s.listed t := by
    simp only [d, State.listed]
    cases t.way <;> rfl
  rw [hd]
  split
  next x tgt snp' fwd heq =>
    rw [hplan] at heq
    obtain ⟨rfl, rfl, rfl, rfl⟩ : plan = x ∧ [] = tgt ∧ snp = snp' ∧ false = fwd := by simpa using heq
    extract_lets s1 s2 wd t1 s3 s4
    have h1 : s1 = s := by
      simp only [s1]
      split
      next hc =>
        obtain ⟨hway, -⟩ := hwb (beq_iff_eq.1 (Bool.and_eq_true_iff.1 hc).1)
        rw [hway]
      next => rfl
    have h2 : s2 = s := by
      simp only [s2]
      rw [if_neg, h1]
      rintro ⟨-, hp, hno⟩
      exact Bool.false_ne_true (hno.symm.trans (hwb hp).2)
    have ht : t1 = { t with plan := plan, snp := snp, await := [], st := .snp, wd := s.heldData h t } := by
      simp only [t1, wd, h2]
      rfl
    refine (if_pos rfl).trans ?_
    change (s2.setTT h e t1).settle h e t1 = _
    rw [h2, ht]

/-- R168: an entry whose data is to come from memory reads it. -/
theorem State.settle_reads (hf : t.fresh = true) (hawait : t.await = []) (hneeds : t.plan.needs = true) :
    s.settle h e t = s.memRead h e { t with st := .dat } := by
  obtain ⟨hdm, hmem, hout, hcr⟩ := TT.fresh_iff.1 hf
  simp [State.settle, TT.lacks, TT.val, hdm, hmem, hout, hcr, hawait, hneeds]

/-- R168: an entry with the data of its WbD, and no way, writes it. -/
theorem State.settle_writes (hf : t.fresh = true) (hawait : t.await = []) (hplan : t.plan = .wbNo) (hway : t.way = none)
    (hwd : t.wd = some w) : s.settle h e t = s.memWrite h e { t with st := .wb } w := by
  obtain ⟨hdm, hmem, hout, hcr⟩ := TT.fresh_iff.1 hf
  simp [State.settle, TT.lacks, TT.val, TT.wantsWd, TT.toWrite, Plan.needs, hdm, hmem, hcr, hawait, hplan, hway, hwd]

/-! ### What such an entry shows -/

/-- Entry `e` of home `h` is open as `x`, and with it the home has sent the map the request `q`; nothing else has changed of the
requests to the map, of DRAM, of the LDs and of what the block drives. -/
structure State.Opened (s t : State) (h e : Nat) (x : TT) (q : MapReq) : Prop where
  tt : t.tt h e = some x
  reqs : t.map.reqs = s.map.reqs ++ [q]
  mem : t.mem = s.mem
  out : t.out = s.out
  hosts : t.hosts = s.hosts
  home : q.home = h
  index : q.tt = e
  line : q.line = x.line
  agent : q.agent = x.req

theorem State.sendReq_coh (r : MapReq) : (s.sendReq r).coh = s.coh := by
  unfold State.sendReq
  dsimp only
  split <;> rfl

theorem State.sendReq_reqView (r : MapReq) : (s.sendReq r).reqView = (s.map.reqs ++ [r], s.mem, s.out, s.hosts) := by
  unfold State.sendReq
  dsimp only
  split <;> rfl

/-- A request that the home sends for an entry it has just set. -/
theorem State.Opened.of_sendReq {u : State} {r : MapReq} (hu : u.reqView = s.reqView) (hhome : r.home = h) (hindex : r.tt = e)
    (hline : r.line = t.line) (hagent : r.agent = t.req) : State.Opened s ((u.setTT h e t).sendReq r) h e t r := by
  have hview := (u.setTT h e t).sendReq_reqView r
  have hset := (purgeBlind_reqView.setTT u h e t).trans hu
  simp only [State.reqView, Prod.mk.injEq] at hview hset
  obtain ⟨hreqs, hmem, hout, hhosts⟩ := hview
  obtain ⟨hreqs', hmem', hout', hhosts'⟩ := hset
  refine ⟨?_, by rw [hreqs, hreqs'], hmem.trans hmem', hout.trans hout', hhosts.trans hhosts', hhome, hindex, hline, hagent⟩
  rw [State.tt, State.sendReq_coh]
  exact State.tt_setTT

theorem State.Opened.memRead {u : State} (hu : u.reqView = s.reqView) :
    ∃ q, State.Opened s (u.memRead h e t) h e { t with memOut := true } q ∧ q.write = false :=
  ⟨_, State.Opened.of_sendReq hu rfl rfl rfl rfl, rfl⟩

theorem State.Opened.memWrite {u : State} (hu : u.reqView = s.reqView) :
    ∃ q, State.Opened s (u.memWrite h e t w) h e { t with wrOut := true } q ∧ q.write = true ∧ q.data = w.data ∧
      q.mask = w.mask ∧ q.poison = w.poison :=
  ⟨_, State.Opened.of_sendReq hu rfl rfl rfl rfl, rfl, rfl, rfl, rfl⟩

/-- Table 7-5: a request other than WbD and EvC, for a line that nobody holds, reads memory. -/
theorem State.Opened.act_reads {u : State} (hu : u.reqView = s.reqView) (hf : t.fresh = true)
    (hopc : t.opc ∈ [opRdS, opRdO, opUpg, opRdNC]) (hst : (u.listed t).dstate = 0) (hsh : (u.listed t).sharers = 0) :
    ∃ x q, State.Opened s (u.act h e t) h e x q ∧ q.write = false ∧ x.memOut = true ∧ x.way = t.way ∧ x.msg = t.msg ∧
      (t.opc = opRdNC ∨ t.opc = opRdS ∧ t.msg.noalloc = true → x.plan = .copy) := by
  obtain ⟨plan, snp, hplan, hneeds, hcopy⟩ := planOf_reads (fwd := u.on F.HOM_CTL_FWD_EN h) (m := t.msg) hst hsh hopc
  rw [State.act_alone hplan (by rintro rfl; cases hneeds), State.settle_reads (by exact hf) rfl hneeds]
  obtain ⟨q, hq, hr⟩ := State.Opened.memRead (s := s) (h := h) (e := e)
    (t := { t with plan := plan, snp := snp, await := [], st := .dat, wd := u.heldData h t })
    ((purgeBlind_reqView.setTT u h e { t with plan := plan, snp := snp, await := [], st := .snp, wd := u.heldData h t }).trans hu)
  exact ⟨_, q, hq, hr, rfl, rfl, rfl, hcopy⟩

/-- Table 7-5: a WbD with NOOWN, for a line that nobody holds, is written with the data that the home has. -/
theorem State.Opened.act_writes {u : State} {v : Wdb} (hu : u.reqView = s.reqView) (hf : t.fresh = true) (hopc : t.opc = opWbD)
    (hway : t.way = none) (hno : t.msg.noown = true) (hwdb : u.wdbOf h t.req t.line = some v) :
    ∃ x q, State.Opened s (u.act h e t) h e x q ∧ q.write = true ∧ q.data = v.wd.data ∧ q.mask = t.msg.mask ∧
      q.poison = v.wd.poison ∧ x.wrOut = true ∧ x.plan = .wbNo ∧ x.msg = t.msg := by
  have hheld : u.heldData h t = some { v.wd with mask := t.msg.mask } := by
    rw [State.heldData, if_pos hopc, hwdb]
    rfl
  have hplan : planOf (u.on F.HOM_CTL_FWD_EN h) (u.listed t) t.opc t.msg = (.wbNo, [], opSnpI, false) := by
    rw [State.listed, hway, hopc]
    exact planOf_wbD
  rw [State.act_alone hplan fun _ => ⟨hway, hno⟩, State.settle_writes (by exact hf) rfl rfl (by exact hway) (by exact hheld)]
  obtain ⟨q, hq, hw, hd, hm, hp⟩ := State.Opened.memWrite (s := s) (h := h) (e := e) (w := { v.wd with mask := t.msg.mask })
    (t := { t with plan := .wbNo, snp := opSnpI, await := [], st := .wb, wd := u.heldData h t })
    ((purgeBlind_reqView.setTT u h e { t with plan := .wbNo, snp := opSnpI, await := [], st := .snp, wd := u.heldData h t }).trans hu)
  exact ⟨_, q, hq, hw, hd, hm, hp, rfl, rfl, rfl⟩

/-- R170: an entry with a read or a write on its way stays. -/
theorem State.closeNow_open {u : State} {x : TT} (hx : u.tt h e = some x) (hout : x.memOut = true ∨ x.wrOut = true) :
    u.closeNow h e = u := by
  unfold State.closeNow
  rw [hx]
  refine if_neg ?_
  rcases hout with h | h <;> simp [TT.closes, h]

end

/-! ### The way of an entry (R165, R166) -/

/-- A key that a sparse map does not list is put between two parts of it. -/
theorem smInsert_of_absent {α : Type} {m : SMap α} {k : Nat} (v : α) (h : ∀ x ∈ m, x.1 ≠ k) :
    ∃ l₁ l₂, m = l₁ ++ l₂ ∧ smInsert m k v = l₁ ++ (k, v) :: l₂ := by
  induction m with
  | nil => exact ⟨[], [], rfl, rfl⟩
  | cons x m ih =>
    obtain ⟨hx, hm⟩ := List.forall_mem_cons.1 h
    unfold smInsert
    split
    · exact ⟨[], x :: m, rfl, rfl⟩
    · rw [if_neg (Ne.symm hx)]
      obtain ⟨l₁, l₂, h₁, h₂⟩ := ih hm
      exact ⟨x :: l₁, l₂, congrArg (x :: ·) h₁, congrArg (x :: ·) h₂⟩

section
variable {s : State} {h e line v : Nat} {t : TT}

/-- An entry without a way takes none of the set. -/
theorem State.waysBusy_setTT (hnew : s.tt h e = none) (hway : t.way = none) :
    (s.setTT h e t).waysBusy h line = s.waysBusy h line := by
  have habsent : ∀ x ∈ s.coh.tt, x.1 ≠ 256 * h + e := by
    simpa [State.tt, List.find?_eq_none] using hnew
  obtain ⟨l₁, l₂, hold, hins⟩ := smInsert_of_absent t habsent
  have htts : (s.setTT h e t).tts h = (smInsert s.coh.tt (256 * h + e) t).filter (fun x => x.1 / 256 == h) := rfl
  rw [State.waysBusy, State.waysBusy, htts, State.tts, hins, hold, List.filter_append, List.filter_append, List.filter_cons]
  split <;> simp [hway]

theorem State.dirWays_setTT : (s.setTT h e t).dirWays = s.dirWays := rfl
theorem State.dirEnt_setTT : (s.setTT h e t).dirEnt = s.dirEnt := rfl

theorem State.freeWay_setTT (hnew : s.tt h e = none) (hway : t.way = none) :
    (s.setTT h e t).freeWay h line = s.freeWay h line := by
  rw [State.freeWay, State.freeWay, State.waysBusy_setTT hnew hway, State.dirWays_setTT, State.dirEnt_setTT]

theorem State.freeWay_counted {opc : Nat} {m : CohMsg} : (s.counted h opc m).freeWay h line = s.freeWay h line := by
  rw [State.freeWay, State.freeWay, State.waysBusy, State.waysBusy, State.tts_counted, State.dirWays_counted,
    State.dirEnt_counted]

/-- R165: the free way of a set is invalid. -/
theorem State.dstate_freeWay (hv : s.freeWay h line = some v) : (s.dirEnt line v).dstate = 0 := by
  have hfree := List.find?_some hv
  exact beq_iff_eq.1 (Bool.and_eq_true_iff.1 hfree).1

/-- R166: an entry that does not wait itself has no older one ahead where none of the set waits. -/
theorem State.allocAhead_setTT (hst : t.st ≠ .alloc)
    (hnone : (s.tts h).all (fun x => !(x.2.st == .alloc && lineSet x.2.line == lineSet t.line)) = true) :
    (s.setTT h e t).allocAhead h t = false := by
  rw [State.allocAhead, List.any_eq_false]
  intro x hx hc
  obtain ⟨hmem, hhome⟩ := List.mem_filter.1 hx
  simp only [Bool.and_eq_true, beq_iff_eq] at hc
  obtain ⟨⟨halloc, -⟩, hset⟩ := hc
  rcases mem_smInsert hmem with rfl | hmem
  · exact hst halloc
  · have := List.all_eq_true.1 hnone x (List.mem_filter.2 ⟨hmem, hhome⟩)
    simp [halloc, hset] at this

/-- R165: with a free way, and none of the set waiting, an entry goes on with that way. -/
theorem State.takeWay_free (hv : s.freeWay h t.line = some v) (hahead : s.allocAhead h t = false) (first : Bool) :
    s.takeWay h e t first = s.act h e { t with way := some v, victim := none } := by
  unfold State.takeWay
  rw [hv, hahead]

end

/-! ### Requests for a line that the directory does not list -/

section
variable {s w : State} {h e opc v : Nat} {m : CohMsg}

theorem State.newTT_way (hd : w.dirFind m.line.toNat = none) : (w.newTT opc m).way = none := hd

theorem State.counted_reqView : (w.counted h opc m).reqView = w.reqView := purgeBlind_reqView.counted ..

/-- Table 7-5: RdNC, and RdS with NOALLOC. -/
theorem State.Opened.serve_copy (hd : w.dirFind m.line.toNat = none) (hopc : opc = opRdNC ∨ opc = opRdS ∧ m.noalloc = true) :
    ∃ x q, State.Opened w (w.serve h e opc m) h e x q ∧ q.write = false ∧ x.memOut = true ∧ x.plan = .copy ∧ x.msg = m := by
  have hlist : opc ∈ [opRdS, opRdO, opUpg, opRdNC] := by
    rcases hopc with rfl | ⟨rfl, -⟩ <;> simp
  have hne : opc ≠ 0 ∧ opc ≠ opEvC ∧ opc ≠ opWbD := by
    rcases hopc with rfl | ⟨rfl, -⟩ <;> decide
  have hneed : needsWay {} opc m = false := by
    rcases hopc with rfl | ⟨rfl, hna⟩
    · simp [needsWay, opRdNC, opRdS, opRdO, opUpg]
    · simp [needsWay, hna, opRdS, opRdO, opUpg]
  obtain ⟨h0, hev, hw⟩ := hne
  have hlisted : (w.counted h opc m).listed (w.newTT opc m) = {} := by rw [State.listed, State.newTT_way hd]; rfl
  obtain ⟨x, q, hq, hr, hout, -, hmsg, hcopy⟩ := State.Opened.act_reads (e := e) (State.counted_reqView (w := w) (h := h) (m := m))
    (t := w.newTT opc m) rfl hlist (by rw [hlisted]) (by rw [hlisted])
  rw [State.serve_act hd h0 hev (fun hc => absurd hc hw) hneed, State.closeNow_open hq.tt (.inl hout)]
  exact ⟨x, q, hq, hr, hout, hcopy hopc, hmsg⟩

/-- R165, Table 7-5: RdS, RdO and Upg with a free way. -/
theorem State.Opened.serve_way (hd : w.dirFind m.line.toNat = none) (hopc : opc ∈ [opRdS, opRdO, opUpg])
    (hna : m.noalloc = false) (hnew : w.tt h e = none) (hv : w.freeWay h m.line.toNat = some v)
    (hsh : (w.dirEnt m.line.toNat v).sharers = 0)
    (hnone : (w.tts h).all (fun x => !(x.2.st == .alloc && lineSet x.2.line == lineSet m.line.toNat)) = true) :
    ∃ x q, State.Opened w (w.serve h e opc m) h e x q ∧ q.write = false ∧ x.memOut = true ∧ x.way = some v ∧ x.msg = m := by
  have hlist : opc ∈ [opRdS, opRdO, opUpg, opRdNC] := by
    simp only [List.mem_cons, List.not_mem_nil, or_false] at hopc ⊢
    tauto
  have hkind : (opc ≠ 0 ∧ opc ≠ opEvC ∧ opc ≠ opWbD) ∧ needsWay {} opc m = true := by
    simp only [List.mem_cons, List.not_mem_nil, or_false] at hopc
    rcases hopc with rfl | rfl | rfl
    all_goals exact ⟨by decide, by simp [needsWay, hna]⟩
  obtain ⟨⟨h0, hev, hw⟩, hneed⟩ := hkind
  have hfree : ((w.counted h opc m).setTT h e (w.newTT opc m)).freeWay h (w.newTT opc m).line = some v := by
    rw [State.freeWay_setTT ((State.tt_counted ..).trans hnew) (State.newTT_way hd), State.freeWay_counted]
    exact hv
  have hahead : ((w.counted h opc m).setTT h e (w.newTT opc m)).allocAhead h (w.newTT opc m) = false := by
    refine State.allocAhead_setTT nofun ?_
    rw [State.tts_counted]
    exact hnone
  have hlisted : ((w.counted h opc m).setTT h e (w.newTT opc m)).listed { w.newTT opc m with way := some v, victim := none } =
      w.dirEnt m.line.toNat v := by
    rw [State.listed, State.dirEnt_setTT, State.dirEnt_counted]
    rfl
  obtain ⟨x, q, hq, hr, hout, hway, hmsg, -⟩ := State.Opened.act_reads (s := w) (h := h) (e := e)
    (t := { w.newTT opc m with way := some v, victim := none })
    ((purgeBlind_reqView.setTT (w.counted h opc m) h e (w.newTT opc m)).trans State.counted_reqView) rfl hlist
    (by rw [hlisted]; exact State.dstate_freeWay hv) (by rw [hlisted]; exact hsh)
  rw [State.serve_takeWay hd h0 hev hw hneed, State.takeWay_free hfree hahead]
  exact ⟨x, q, hq, hr, hout, hway, hmsg⟩

/-- Table 7-5: WbD with NOOWN, whose data the home has. -/
theorem State.Opened.serve_write {b : Wdb} (hd : w.dirFind m.line.toNat = none) (hno : m.noown = true)
    (hwdb : w.wdbOf h m.src.toNat m.line.toNat = some b) (habs : b.absorbed = false) :
    ∃ x q, State.Opened w (w.serve h e opWbD m) h e x q ∧ q.write = true ∧ q.data = b.wd.data ∧ q.mask = m.mask ∧
      q.poison = b.wd.poison ∧ x.wrOut = true ∧ x.plan = .wbNo ∧ x.msg = m := by
  have hwdb' : (w.counted h opWbD m).wdbOf h m.src.toNat m.line.toNat = some b := (State.wdbOf_counted ..).trans hwdb
  obtain ⟨x, q, hq, hw, hdata, hmask, hpoison, hout, hplan, hmsg⟩ := State.Opened.act_writes (s := w) (h := h) (e := e)
    (t := w.newTT opWbD m) State.counted_reqView rfl rfl (State.newTT_way hd) hno hwdb'
  rw [State.serve_act hd (by decide) (by decide) (fun _ => by rw [hwdb']; simp [habs]) (by simp [needsWay, opWbD, opRdS, opRdO, opUpg]),
    State.closeNow_open hq.tt (.inr hout)]
  exact ⟨x, q, hq, hw, hdata, hmask, hpoison, hout, hplan, hmsg⟩

/-- Table 7-5: EvC is answered with Ack. -/
theorem State.serve_evc_spec (hd : w.dirFind m.line.toNat = none) (hsrc : m.src.toNat < 81) :
    (w.serve h e opEvC m).reqView = w.reqView ∧ (w.serve h e opEvC m).coh = { w.coh with
      seq := w.coh.seq + 1
      flight := w.coh.flight ++ [⟨opAck, .agent m.src.toNat,
        { line := m.line, slot := m.slot, htag := BitVec.ofNat 8 e, rtag := m.rtag }⟩] } := by
  have hsend : w.serve h e opEvC m = (w.counted h opEvC m).send ⟨opAck, .agent m.src.toNat,
      { line := m.line, slot := m.slot, htag := BitVec.ofNat 8 e, rtag := m.rtag }⟩ :=
    (State.serve_evc hd).trans (if_pos hsrc)
  rw [hsend]
  refine ⟨(purgeBlind_reqView.send ..).trans State.counted_reqView, ?_⟩
  rw [State.send_coh, State.counted_coh]

end

/-! ### A way that becomes eligible (R166) -/

section
variable {s : State} {h : Fin 16} {set : BitVec 13}

/-- R166: of one request of the set in HB_ALLOC, that one is the oldest. -/
theorem State.allocOldest_one {set k : Nat} {x : TT}
    (hone : (s.tts h).filter (fun x => x.2.st == .alloc && lineSet x.2.line == set) = [(k, x)]) :
    s.allocOldest h set = some (k, x) := by
  rw [State.allocOldest, hone]
  rfl

variable (hs : s.stage = .running)
include hs

theorem exec_wayEligible_none (hnone : s.allocOldest h set.toNat = none) (hpf : s.pfAllocOldest h set.toNat = none) :
    exec (.wayEligible h set) s = .next s := by
  change execWayEligible h set s = _
  rw [execWayEligible, onDie_running hs]
  simp only [hnone, hpf]

theorem exec_wayEligible_home {u : State} {k : Nat} {x : TT} (hold : s.allocOldest h set.toNat = some (k, x))
    (hu : u = (s.takeWay h (k % 256) x false).tryClose h (k % 256)) (hpf : u.pfAllocOldest h set.toNat = none) :
    exec (.wayEligible h set) s = .next u := by
  change execWayEligible h set s = _
  rw [execWayEligible, onDie_running hs]
  simp only [hold, ← hu, hpf]

theorem exec_wayEligible_far {x : PfTx} {f : Flight} (hnone : s.allocOldest h set.toNat = none)
    (hpf : s.pfAllocOldest h set.toNat = some x) (hreq : x.req = some f) :
    exec (.wayEligible h set) s = .next (s.pfAlloc x f false).pfNextQueued := by
  change execWayEligible h set s = _
  rw [execWayEligible, onDie_running hs]
  simp only [hnone, hpf, hreq]

end

/-! ### The statement -/

/-- Settles O25: a request that its home is free for by what the home makes of it, any other by whether the home takes it, and a way
that becomes eligible by the request that waits for it. -/
theorem homeRequests : Obligations.HomeRequests := by
  unfold Obligations.HomeRequests
  refine ⟨fun m e s w => ⟨?copy, ?way, ?evict, ?write⟩, ?waits, fun h set s hs => ⟨?none, ?oldest, ?far⟩⟩
  case copy =>
    intro c hin hfree hd
    obtain ⟨hc, hline, hsrc, hopc⟩ : (c.1, c.2.2) ∈ requests c.2.1 ∧ c.2.1.line = m.line ∧ c.2.1.src = m.src ∧
        (c.1 = opRdNC ∨ c.1 = opRdS ∧ c.2.1.noalloc = true) := by
      rcases List.mem_cons.1 hin with rfl | hin
      · simp [requests]
      · obtain rfl := List.mem_singleton.1 hin
        simp [requests]
    rw [← hline] at hd ⊢
    rw [← hsrc]
    obtain ⟨x, q, hq, hr, hout, hplan, hmsg⟩ := State.Opened.serve_copy (h := homeOf c.2.1.line.toNat) (e := e) hd hopc
    have hx : x.line = c.2.1.line.toNat ∧ x.req = c.2.1.src.toNat := by
      rw [TT.line, TT.req, hmsg]
      exact ⟨rfl, rfl⟩
    exact hfree.does hc hq.hosts ⟨⟨x, hq.tt, hout, hplan, congrArg CohMsg.src hmsg, congrArg CohMsg.line hmsg⟩,
      ⟨q, hq.reqs, hq.home, hq.index, hr, hq.line.trans hx.1, hq.agent.trans hx.2⟩, hq.mem.trans hfree.mem, hq.out⟩
  case way =>
    intro v hna hv hsh hd hnone c hin hfree
    obtain ⟨hc, hopc⟩ : c ∈ requests m ∧ c.1 ∈ [opRdS, opRdO, opUpg] := by
      simp only [List.mem_cons, List.not_mem_nil, or_false] at hin
      rcases hin with rfl | rfl | rfl <;> simp [requests]
    obtain ⟨x, q, hq, hr, hout, hway, rfl⟩ := State.Opened.serve_way hd hopc hna hfree.tt_none hv hsh hnone
    exact hfree.does hc hq.hosts ⟨⟨x, hq.tt, hout, hway, rfl⟩, ⟨q, hq.reqs, hq.home, hq.index, hr, hq.line⟩,
      hq.mem.trans hfree.mem, hq.out⟩
  case evict =>
    intro hfree hd hsrc
    obtain ⟨hview, hcoh⟩ := State.serve_evc_spec (h := homeOf m.line.toNat) (e := e) hd hsrc
    simp only [State.reqView, Prod.mk.injEq] at hview
    obtain ⟨-, hmem, -, hhosts⟩ := hview
    exact hfree.does (by simp [requests]) hhosts ⟨(congrArg CohSt.tt hcoh :), (congrArg CohSt.dir hcoh :),
      hmem.trans hfree.mem, (congrArg CohSt.flight hcoh :)⟩
  case write =>
    intro b hfree hd hwdb habs hno
    obtain ⟨x, q, hq, hw, hdata, hmask, hpoison, hout, hplan, rfl⟩ := State.Opened.serve_write (e := e) hd hno hwdb habs
    exact hfree.does (by simp [requests]) hq.hosts ⟨⟨x, hq.tt, hplan, hout⟩, ⟨q, hq.reqs, hw, hq.line, hdata, hmask, hpoison⟩,
      hq.mem.trans hfree.mem, hq.out⟩
  case waits =>
    intro m s w hs hsrc hslot hconf c hin
    obtain ⟨hexec, hnet⟩ := exec_request hs c hin
    refine ⟨fun hacc hb hopen hbusy => ⟨_, hexec, ?_⟩, fun hacc hopen => ⟨_, hexec, State.cohReq_notTaken hacc hopen⟩⟩
    rw [State.cohReq_taken hacc hb hnet hopen hsrc hslot, State.homeRequest_busy hbusy,
      State.conflictAck_none (State.onHome_hosts ..) hconf]
    exact ⟨congrArg HomeSt.confq (State.home_onHome ..), rfl, rfl, hb.mem⟩
  case none => exact fun hnone hpf => ⟨s, exec_wayEligible_none hs hnone hpf, rfl⟩
  case oldest =>
    exact fun k x u hone hu hpf => ⟨u, exec_wayEligible_home hs (State.allocOldest_one hone) hu hpf, rfl⟩
  case far => exact fun x f hnone hpf hreq => ⟨_, exec_wayEligible_far hs hnone hpf hreq, rfl⟩

end Sys2Proof.Machine
